-- ==== Sys2Proof/Word.lean ====
section
/-! DEFINITION. The word and byte types of the NV4816 (R4, R20, R24): 32-bit registers, 8-bit bytes. -/

namespace Sys2Proof

/-- A 32-bit register or memory word (R24). -/
abbrev Word := BitVec 32

/-- A byte of the byte-addressed space (R20). -/
abbrev Byte := BitVec 8

end Sys2Proof
end

