-- ==== Sys2Proof/Syntax.lean ====
section
/-! DEFINITION. The commands of the NV4816, one constructor per row of spec/opcode_table.json, with their operands.
Operands that stand for what the outside world does (a measured level, a self-test outcome, the bytes of a frame)
are the sender's; everything the device itself knows is read from its state. -/

namespace Sys2Proof

/-- A lockstep pair LP0 to LP3 (R243). -/
abbrev Pair := Fin 4
/-- A tenant T0 to T7 (R356). -/
abbrev Tenant := Fin 8
/-- A logical converter ADCA to ADCH (R53). -/
abbrev Conv := Fin 8
/-- A comparator CMP0 to CMP47 (R85). -/
abbrev CmpId := Fin 48
/-- A window monitor W0 to W15 (R96). -/
abbrev WinId := Fin 16
/-- A PWM generator PWM0 to PWM15 (R111). -/
abbrev GenId := Fin 16
/-- A timer TM0 to TM23 (R139). -/
abbrev TmrId := Fin 24
/-- A position interface POS0 to POS7 (R160). -/
abbrev PosId := Fin 8
/-- A loop engine LE0 to LE7 (R184). -/
abbrev LeId := Fin 8
/-- A DMA channel DCH0 to DCH31 (R327). -/
abbrev Chan := Fin 32
/-- A queue Q0 to Q255 (R340). -/
abbrev QId := Fin 256
/-- An event-controller source (R288). -/
abbrev SrcId := Fin 512
/-- An SRAM bank SB0 to SB5 (R300). -/
abbrev Bank := Fin 6
/-- A flash bank FB0 to FB3 (R308). -/
abbrev FBank := Fin 4
/-- A station 0 to 31 of the station cycle (R427). -/
abbrev Station := Fin 32
/-- A general register g0 to g31 (R253). -/
abbrev Greg := Fin 32
/-- A floating-point register f0 to f31 (R253). -/
abbrev Freg := Fin 32

/-- The three privilege levels (R272). -/
inductive Priv
  | user | supervisor | monitor
  deriving DecidableEq, Repr

/-- The identity a bus transaction carries: master number (Table 9.8a), tenant and privilege (R356). -/
structure Req where
  master : Fin 13
  tenant : Tenant
  priv   : Priv
  deriving DecidableEq, Repr

/-- The fixed fields of a host-port frame (Table 16.5): width code, SEQ, LEN and the CRC-16 that ends it. -/
structure HpFrame where
  width : Fin 4
  seq   : BitVec 16
  len   : BitVec 16
  crc   : BitVec 16
  deriving DecidableEq, Repr

/-- Where a mode request comes from: the host port's MODE command or a write to SYS_MODE_REQ (R433). -/
inductive ModeOrigin
  | host (f : HpFrame)
  | bus  (r : Req)
  deriving DecidableEq, Repr

/-- The two ways to the debug port: the TAP, or a host-port DEBUG frame (R367). -/
inductive DbgVia
  | tap
  | host (f : HpFrame)
  deriving DecidableEq, Repr

/-- What a debug access names: an address, or of a halted pair a general register, half of an FP register, a special register (R369,
Table 14.2). -/
inductive DbgLoc
  | bus (a : Word)
  | greg (p : Pair) (r : Greg)
  | freg (p : Pair) (r : Freg) (hi : Bool)
  | special (p : Pair) (n : Fin 32)
  deriving DecidableEq, Repr

/-- The fixed bytes of a Triok header flit (Table 15.2); the type-specific bytes 12 to 27 are a separate operand. -/
structure TwHdr where
  flags : Byte
  nflit : BitVec 16
  fseq  : Word
  gen   : BitVec 16
  mode  : Byte
  crc   : Word
  deriving DecidableEq, Repr

/-- The supply rails of Table 16.1; the VDDIO banks are named with the level supplied to them. -/
inductive Rail
  | vddcore | vddioA33 | vddioB33 | vddioA18 | vddioB18 | vdda | vdda18 | vddpll | vddser
  deriving DecidableEq, Repr

/-- The analogue levels at a hold instant, in nanovolts: as they are (free values), or stated: AIN0 onward, VREFP, VREFN, VDDA
(R62 to R64, R69). -/
inductive Analog
  | pins
  | board (ain : List Int) (vrefp vrefn vdda : Int)
  deriving DecidableEq, Repr

/-- What a calibration of a core finds and sets (R59): offset correction in 1/1000 LSB, gain correction in ppm, INL after trimming in
1/1000 LSB, the segment-linearity trims in 1/1000 LSB, first segment first (the spec names no number of segments). -/
structure SpareCal where
  off : Int
  gain : Int
  inl : Int
  seg : List Int
  deriving DecidableEq, Repr

/-- A comparator's input against its threshold level: at or above level + 1 mV, between, or at or below level − 1 mV (R87). -/
inductive Level3
  | above | between | below
  deriving DecidableEq, Repr

/-- Levels A, B and Z of an encoder. -/
structure EncLv where
  a : Bool
  b : Bool
  z : Bool
  deriving DecidableEq, Repr

/-- Where the levels of an encoder change: at its pins, before synchroniser and filter, or behind the filter (R162). -/
inductive EncAt
  | pins | filtered
  deriving DecidableEq, Repr

/-- Where a probe edge arrives (R169). -/
inductive PrbSrc
  | pin | dest
  deriving DecidableEq, Repr

/-- A probe edge (R169). -/
structure PrbEdge where
  src    : PrbSrc
  rising : Bool
  deriving DecidableEq, Repr

/-- What else an INPUT frame brings: its EtherType, and VER, LEN and the data behind its header (R427, Table 16.8). -/
structure InFrame where
  etype : BitVec 16
  ver   : Byte
  len   : BitVec 16
  data  : List Byte
  deriving DecidableEq, Repr

/-- The kinds of Ethernet frame the MAC tells apart (R424, R425); with a timestamp goes its correction `corr` in 1/256 ns. -/
inductive EthKind
  | sync | pdelayReq | pdelayResp | pause | other
  deriving DecidableEq, Repr

/-- A selected edge at a capture channel: the destination's or the pin's, rising or falling, its fs inside the lc
and whether its placement is known exactly or by measurement (R147, R148). -/
structure CapEdge where
  rising : Bool
  fs     : Byte
  fine   : Bool
  deriving DecidableEq, Repr

/-- The conversions of FCVT (Table 10.5): other precision, to int32, from int32. -/
inductive FcvtKind
  | precision | toInt | fromInt
  deriving DecidableEq, Repr

/-- The pipelines of a loop engine (Table 8.1). -/
inductive Pipe
  | cur | vlt | ftr | prf | obs | gen
  deriving DecidableEq, Repr

/-- What the self-tests of Verify find (R420, Table 16.4): the calibration of each ADC core (R82), and whether
each other test fails; `lines` counts failing PWM delay lines; `inj` holds the detections of R252 per pair. -/
structure SelfTest where
  adc     : Vector SpareCal 9
  cmp     : Bool
  le      : Bool
  inj     : List Byte
  ecc     : Bool
  fuse    : Bool
  ptu     : Bool
  lines   : Nat
  deriving DecidableEq, Repr

/-- What a wake from Retention finds: the calibration of each ADC core (R83) and an uncorrectable EVC retention copy (R298). -/
structure WakeTest where
  adc     : Vector SpareCal 9
  evcErr  : Bool
  deriving DecidableEq, Repr

/-- The commands: one constructor per row of the table, in the table's order but that the rows without operands stand last
(a constructor numbered above 244 can be compiled only if it has no operand). -/
inductive Instr
  /-- POWER_GOOD (R414): Once every rail has stood above release with RESET_N high for 100 µs, the system controller runs the sequence to Blank. -/
  | powerGood (xin50 : Bool)
  /-- SAFE_REQUEST (R432): An event on S_SAFEREQ0toS_SAFEREQ7 enters Safe-Hold with cause REQUEST. -/
  | safeRequest (k : Fin 8)
  /-- HP_STATUS (R423): The host-port STATUS command returns the 32-byte status payload. -/
  | hpStatus (f : HpFrame)
  /-- HP_LOAD (R417): A host-port LOAD frame starts or continues a host load; the last byte ends Loading and enters Verify. -/
  | hpLoad (f : HpFrame) (offset : Word) (data : List Byte)
  /-- HP_ABORT (R419): The ABORT command ends a load or Verify, discards the image and returns to Blank. -/
  | hpAbort (f : HpFrame)
  /-- MSG_PUT (R423): MSG_PUT pushes the payload words to the input queue, the last one with EOP, and returns the drop count. -/
  | msgPut (f : HpFrame) (data : List Byte)
  /-- MSG_GET (R423): MSG_GET pops words from OUTQ up to an EOP, or returns a head gap marker alone with STATUS GAP. -/
  | msgGet (f : HpFrame)
  /-- MODE_READY (R433): A MODE 0x05 request enters Ready from Safe-Hold or Maintenance. -/
  | modeReady (o : ModeOrigin)
  /-- MODE_SAFE_HOLD (R432): A MODE 0x0A request enters Safe-Hold with cause COMMAND. -/
  | modeSafeHold (o : ModeOrigin)
  /-- MODE_MAINTENANCE (R435): A MODE 0x0B request enters Maintenance from Ready or from Safe-Hold with CAUSE 0x02to0x04. -/
  | modeMaintenance (o : ModeOrigin)
  /-- MODE_RETENTION (R436): A MODE 0x0C request, accepted only from Ready with IMGBASE set and no halted pair, starts Retention entry. -/
  | modeRetention (o : ModeOrigin)
  /-- RETENTION_WAKE (R437): A falling edge of HP_CS_N in Retention relocks the PLL, restores the EVC, calibrates the ADC, checks and replays the image and enters Ready. -/
  | retentionWake (st : WakeTest)
  /-- DEBUG_READ (R370): The host-port DEBUG read performs a peek read under Table 14.3. -/
  | debugRead (v : DbgVia) (a : DbgLoc)
  /-- DEBUG_WRITE (R369): The host-port DEBUG write performs a debug write under capability W. -/
  | debugWrite (v : DbgVia) (a : DbgLoc) (d : Word)
  /-- DEBUG_CONSUME_READ (R370): The host-port DEBUG CONSUME read acts as an ordinary read with side effects. -/
  | debugConsumeRead (v : DbgVia) (a : DbgLoc)
  /-- VERIFY_END (R420): Completion of admission and self-tests either enters Ready or discards the image and returns to Blank. -/
  | verifyEnd (st : SelfTest)
  /-- DBG_ATTACH (R367): An ATTACH request enters a debug state if Table 14.3 permits it, otherwise sets ERR DENIED. -/
  | dbgAttach (v : DbgVia) (st : Fin 4)
  /-- DBG_DETACH (R376): DETACH ends the session, clears AUTH and releases the halted pairs. -/
  | dbgDetach (v : DbgVia)
  /-- DBG_HALT (R373): A HALT request for a pair is checked against R373 and is pending until the next boundary. -/
  | dbgHalt (v : DbgVia) (p : Pair)
  /-- HALT_TAKEN (R372): The pair halts at its next instruction boundary after any stalled load, clearing its reservation. -/
  | haltTaken (p : Pair)
  /-- DBG_RESUME (R372): RESUME releases the pairs whose HALT bit is 0, clearing their reservations. -/
  | dbgResume (v : DbgVia) (halt : BitVec 4)
  /-- DBG_STEP (R372): STEP executes one instruction, with its delay slot, and halts again. -/
  | dbgStep (v : DbgVia) (p : Pair)
  /-- AUTH_REQUEST (R368): A REQ write makes the security controller place a fresh random challenge. -/
  | authRequest (v : DbgVia)
  /-- AUTH_GO (R368): A GO write starts checking the key hash and signature over the challenge. -/
  | authGo (v : DbgVia)
  /-- DBG_SAFEGRP_WRITE (R373): A write to DBG_SAFEGRP holds groups at the safe pattern or releases them at their next period start. -/
  | dbgSafegrpWrite (v : DbgVia) (d : Word)
  /-- RUN_SOLO (R388): The RUN_SOLO twin command enters Run-Solo and raises TW_OWN. -/
  | runSolo (r : Req)
  /-- PAIR_ACTIVE (R389): The PAIR_ACTIVE command starts pairing as active. -/
  | pairActive (r : Req)
  /-- PAIR_STANDBY (R389): The PAIR_STANDBY command starts pairing as standby. -/
  | pairStandby (r : Req)
  /-- UNPAIR (R388): UNPAIR stops epochs and acknowledgements and moves Run-Active to Run-Solo or Run-Standby to Ready. -/
  | unpair (r : Req)
  /-- SWITCHOVER (R406): SWITCHOVER sends a SWITCH frame from the active to start a planned handover. -/
  | switchover (r : Req)
  /-- HEARTBEAT (R386): A received HEARTBEAT updates the peer mode, mirror compares and the lost state. -/
  | heartbeat (h : TwHdr) (t : List Byte) (d : List Byte)
  /-- PAIR (R389): A received PAIR frame is checked for mismatch and role and, in step 3, loads the counts. -/
  | pair (h : TwHdr) (t : List Byte) (d : List Byte)
  /-- TW_SYNC_ARRIVAL (R391): The standby measures the TW_SYNC pulse and adjusts its twin offset, lock and carry. -/
  | twSyncArrival (e : Int)
  /-- EPOCH (R395): A received EPOCH frame is written to its buffer, and its end marker commits the epoch. -/
  | epoch (h : TwHdr) (t : List Byte) (d : List Byte)
  /-- EPOCH_ACK (R397): A received EPOCH_ACK sets TW_EPOCH_ACKED and raises TW_ACK. -/
  | epochAck (h : TwHdr) (t : List Byte)
  /-- SWITCH (R398): A received SWITCH frame triggers Handover on the standby. -/
  | switch (h : TwHdr) (t : List Byte)
  /-- LOAD_OFFER (R417): A received LOAD_OFFER in Blank with no host load answers LOAD_REQ and starts a twin load. -/
  | loadOffer (h : TwHdr) (t : List Byte)
  /-- LOAD_REQ (R418): A received LOAD_REQ makes the offering device send LOAD_DATA from offset 0. -/
  | loadReq (h : TwHdr) (t : List Byte)
  /-- LOAD_DATA (R418): A received LOAD_DATA frame continues a twin load, or ends it with LOADGAP when out of order. -/
  | loadData (h : TwHdr) (t : List Byte) (d : List Byte)
  /-- ETH_FRAME_RX (R425): A received Ethernet frame is timestamped when applicable; PAUSE frames are discarded and counted. -/
  | ethFrameRx (port : Fin 2) (kind : EthKind) (seqId : BitVec 16) (corr : Int)
  /-- SRAM_SCRUB_BEAT (R303): Every 100 BUSCLK cycles the scrub reads one beat per bank and writes back corrections. -/
  | sramScrubBeat (b : Bank)
  /-- TCM_SCRUB_WORD (R438): The TCM scrub checks one word per pair per 64 CORECLK cycles. -/
  | tcmScrubWord (p : Pair)
  /-- REFRESH_STEP (R321): Completion of one refresh step writes its journal record and starts the next step. -/
  | refreshStep (b : FBank)
  /-- FL_KEY_WRITE (R315): Writing 0x0000_5AF0 to FL_KEY arms the next flash command. -/
  | flKeyWrite (r : Req) (v : Word)
  /-- FLASH_PROGRAM (R316): FL_CMD program writes FL_DATA to the granule at FL_ADDR, with journal records. -/
  | flashProgram (r : Req)
  /-- FLASH_ERASE (R316): FL_CMD erase journals, erases and verifies the sector. -/
  | flashErase (r : Req)
  /-- FLASH_COMMAND_DONE (R316): The end of a flash command sets DONE or ERR VERIFY and raises FL_DONE or FL_ERR. -/
  | flashCommandDone (b : FBank) (ok : Bool)
  /-- FL_PL_REQ (R323): A protection-level request sets a higher level for the next Reset or starts the lowering bulk erase. -/
  | flPlReq (r : Req) (level : BitVec 2)
  /-- FL_WS_WRITE (R312): A write to FL_WS stores the wait states, clamped to WSMIN with WSCLAMP. -/
  | flWsWrite (r : Req) (v : Word)
  /-- DMA_START (R328): A START write starts or arms a channel's chain, or counts an overrun if it is in progress. -/
  | dmaStart (r : Req) (n : Chan)
  /-- DMA_ABORT (R335): An ABORT write ends the channel's chain with ERR ABORTED. -/
  | dmaAbort (r : Req) (n : Chan)
  /-- DMA_PERIPHERAL_REQUEST (R328): An ADC sequence request starts a peripheral channel's chain. -/
  | dmaPeripheralRequest (line : Fin 32)
  /-- QUEUE_PUSH (R344): A write to Qn_TAIL pushes an item or drops it with gap-marker accounting. -/
  | queuePush (r : Req) (q : QId) (w : Word)
  /-- QUEUE_PUSH_EOP (R345): A write to Qn_TAIL_EOP pushes an item with EOP and clears DROPPING. -/
  | queuePushEop (r : Req) (q : QId) (w : Word)
  /-- QUEUE_POP (R346): A read of Qn_HEAD returns and pops the head word, or counts UNDER when empty. -/
  | queuePop (r : Req) (q : QId)
  /-- QUEUE_FLUSH (R340): A FLUSH write sets RD to WR, emptying the queue. -/
  | queueFlush (r : Req) (q : QId)
  /-- DROP_PKT (R345): DROP_PKT advances RD past the first EOP or up to a gap marker, or empties and sets DROPPING. -/
  | dropPkt (r : Req) (q : QId)
  /-- POOL_ALLOC (R349): A read of Q_POOL_ALLOC allocates the lowest free buffer, or raises POOL_EMPTY. -/
  | poolAlloc (r : Req)
  /-- POOL_FREE (R350): A write to Q_POOL_FREE frees an owned buffer or records a double or foreign free. -/
  | poolFree (r : Req) (a : Word)
  /-- POOL_GIVE (R351): A write to Q_POOL_GIVE retags an owned buffer to another tenant. -/
  | poolGive (r : Req) (v : Word)
  /-- SEM_ACQUIRE (R352): A pair's read of Q_SEMn acquires a free semaphore and returns GOT. -/
  | semAcquire (r : Req) (n : Fin 64)
  /-- SEM_RELEASE (R352): A write of 0 by the holding pair releases the semaphore. -/
  | semRelease (r : Req) (n : Fin 64) (v : Word)
  /-- SEM_FORCE (R353): A write to Q_SEM_FORCE by T0 at Monitor releases a semaphore. -/
  | semForce (r : Req) (v : Word)
  /-- EVC_EVENT (R295): A source occurrence sets its pending bit, merging with a pending one. -/
  | evcEvent (n : SrcId)
  /-- EVC_PEND_SET (R294): A write to EVC_PEND_SETj acts as an occurrence of each named source. -/
  | evcPendSet (r : Req) (j : Fin 16) (v : Word)
  /-- EVC_PEND_CLR (R294): A write to EVC_PEND_CLRj clears pending bits of owned sources. -/
  | evcPendClr (r : Req) (j : Fin 16) (v : Word)
  /-- EVC_MASK_SET (R292): A write to EVC_MASK_SETj masks owned sources, held while a source is locked. -/
  | evcMaskSet (r : Req) (j : Fin 16) (v : Word)
  /-- EVC_MASK_CLR (R292): A write to EVC_MASK_CLRj unmasks owned sources. -/
  | evcMaskClr (r : Req) (j : Fin 16) (v : Word)
  /-- EVC_CMPL (R293): A write to EVC_CMPL completes a source active on the writing pair, or counts a spurious completion. -/
  | evcCmpl (r : Req) (v : Word)
  /-- STORE_LATE (R282): A buffered store that receives a bus error after leaving the buffer causes a STORE_LATE exception. -/
  | storeLate (p : Pair) (a : Word) (tenant : Tenant) (tag : Fin 4)
  /-- PTU_RECALL (R364): A write by T0 at Monitor to PTU_RECALL marks a recall pending for a pair. -/
  | ptuRecall (r : Req) (v : Word)
  /-- RECALL_TAKEN (R364): The recalled pair takes exception entry at a boundary with ARMED = 0 and its TID becomes 0. -/
  | recallTaken (p : Pair)
  /-- SWEEP_SNAPSHOT (R250): In cycle 0 of each 1,024-cycle interval both copies snapshot the swept registers. -/
  | sweepSnapshot (p : Pair)
  /-- SIGNATURE_COMPARE (R250): In the last cycle of the interval the two signatures are compared. -/
  | signatureCompare (p : Pair)
  /-- LATMAX_EXPIRY (R251): LATMAX × 1,024 cycles after deferred detection, the pair halts with GROUP 7. -/
  | latmaxExpiry (p : Pair)
  /-- LOAD_DATA_RETURN (R262): Data returning for a load outside the TCMs ends the pair's stall. -/
  | loadDataReturn (p : Pair)
  /-- ICACHE_REFILL (R244): Completion of an instruction-cache refill stores the line, or causes BUSY_FETCH for a marked response. -/
  | icacheRefill (p : Pair) (a : Word)
  /-- FP_EXCEPTION_PEND (R268): An FP operation completing with an enabled exception sets PEND for delivery at the next boundary. -/
  | fpExceptionPend (p : Pair)
  /-- ADD (R261): gD = gA + gB, setting NZCV. -/
  | add (p : Pair) (d : Greg) (a : Greg) (b : Greg)
  /-- ADC (R261): gD = gA + gB + carry, setting NZCV. -/
  | adc (p : Pair) (d : Greg) (a : Greg) (b : Greg)
  /-- SUB (R261): gD = gA − gB, setting NZCV. -/
  | sub (p : Pair) (d : Greg) (a : Greg) (b : Greg)
  /-- SBC (R261): gD = gA − gB with borrow, setting NZCV. -/
  | sbc (p : Pair) (d : Greg) (a : Greg) (b : Greg)
  /-- CMP (R261): Compares gA with gB and sets NZCV. -/
  | cmp (p : Pair) (a : Greg) (b : Greg)
  /-- ADDI (R261): gD = gA + sext(IMM16), setting NZCV. -/
  | addi (p : Pair) (d : Greg) (a : Greg) (imm : BitVec 16)
  /-- CMPI (R261): Compares gA with sext(IMM16) and sets NZCV. -/
  | cmpi (p : Pair) (a : Greg) (imm : BitVec 16)
  /-- AND (R261): Bitwise AND of gA and gB, setting NZ. -/
  | and (p : Pair) (d : Greg) (a : Greg) (b : Greg)
  /-- OR (R261): Bitwise OR of gA and gB, setting NZ. -/
  | or (p : Pair) (d : Greg) (a : Greg) (b : Greg)
  /-- XOR (R261): Bitwise XOR of gA and gB, setting NZ. -/
  | xor (p : Pair) (d : Greg) (a : Greg) (b : Greg)
  /-- ANDN (R261): gA AND NOT gB, setting NZ. -/
  | andn (p : Pair) (d : Greg) (a : Greg) (b : Greg)
  /-- ANDI (R261): AND with zero-extended IMM16, setting NZ. -/
  | andi (p : Pair) (d : Greg) (a : Greg) (imm : BitVec 16)
  /-- ORI (R261): OR with zero-extended IMM16, setting NZ. -/
  | ori (p : Pair) (d : Greg) (a : Greg) (imm : BitVec 16)
  /-- XORI (R261): XOR with zero-extended IMM16, setting NZ. -/
  | xori (p : Pair) (d : Greg) (a : Greg) (imm : BitVec 16)
  /-- LUI (R261): gD = IMM16 << 16. -/
  | lui (p : Pair) (d : Greg) (imm : BitVec 16)
  /-- SHL (R261): Shifts left by gB[4:0], setting NZ. -/
  | shl (p : Pair) (d : Greg) (a : Greg) (b : Greg)
  /-- SHR (R261): Shifts right logically by gB[4:0], setting NZ. -/
  | shr (p : Pair) (d : Greg) (a : Greg) (b : Greg)
  /-- SAR (R261): Shifts right arithmetically by gB[4:0], setting NZ. -/
  | sar (p : Pair) (d : Greg) (a : Greg) (b : Greg)
  /-- ROR (R261): Rotates right by gB[4:0], setting NZ. -/
  | ror (p : Pair) (d : Greg) (a : Greg) (b : Greg)
  /-- SHI (R261): Shifts by an immediate count of the selected kind, setting NZ. -/
  | shi (p : Pair) (d : Greg) (a : Greg) (kind : Fin 4) (count : Fin 32)
  /-- MUL (R259): Signed 64-bit product into gD and gD+1. -/
  | mul (p : Pair) (d : Greg) (a : Greg) (b : Greg)
  /-- MULU (R259): Unsigned 64-bit product into gD and gD+1. -/
  | mulu (p : Pair) (d : Greg) (a : Greg) (b : Greg)
  /-- DIV (R260): Signed quotient and remainder, with defined results for divisor 0 and overflow. -/
  | div (p : Pair) (d : Greg) (a : Greg) (b : Greg)
  /-- DIVU (R260): Unsigned quotient and remainder, with a defined result for divisor 0. -/
  | divu (p : Pair) (d : Greg) (a : Greg) (b : Greg)
  /-- MFS (R253): Reads a special register into gD; a CYCLE read latches CYCLEH. -/
  | mfs (p : Pair) (d : Greg) (n : Fin 32)
  /-- MTS (R253): Writes a special register subject to privilege; a write to TSBR clears ARMED. -/
  | mts (p : Pair) (a : Greg) (n : Fin 32)
  /-- LDB (R261): Loads a signed byte at displacement address. -/
  | ldb (p : Pair) (d : Greg) (a : Greg) (imm : BitVec 16)
  /-- LDBU (R261): Loads an unsigned byte at displacement address. -/
  | ldbu (p : Pair) (d : Greg) (a : Greg) (imm : BitVec 16)
  /-- LDH (R261): Loads a signed half-word at displacement address. -/
  | ldh (p : Pair) (d : Greg) (a : Greg) (imm : BitVec 16)
  /-- LDHU (R261): Loads an unsigned half-word at displacement address. -/
  | ldhu (p : Pair) (d : Greg) (a : Greg) (imm : BitVec 16)
  /-- LDW (R261): Loads a word at displacement address. -/
  | ldw (p : Pair) (d : Greg) (a : Greg) (imm : BitVec 16)
  /-- STB (R261): Stores a byte at displacement address. -/
  | stb (p : Pair) (d : Greg) (a : Greg) (imm : BitVec 16)
  /-- STH (R261): Stores a half-word at displacement address. -/
  | sth (p : Pair) (d : Greg) (a : Greg) (imm : BitVec 16)
  /-- STW (R261): Stores a word at displacement address. -/
  | stw (p : Pair) (d : Greg) (a : Greg) (imm : BitVec 16)
  /-- LDS (R256): Loads at a short address formed from BANKn and OFF16. -/
  | lds (p : Pair) (d : Greg) (bk : Fin 4) (sz : Fin 8) (off : BitVec 16)
  /-- STS (R256): Stores at a short address formed from BANKn and OFF16. -/
  | sts (p : Pair) (d : Greg) (bk : Fin 4) (sz : Fin 8) (off : BitVec 16)
  /-- LDP (R256): Loads at gA with modulo or bit-reversed post-update. -/
  | ldp (p : Pair) (d : Greg) (a : Greg) (mode : Fin 4) (n : Fin 4) (sz : Fin 8) (step : BitVec 9)
  /-- STP (R256): Stores at gA with modulo or bit-reversed post-update. -/
  | stp (p : Pair) (d : Greg) (a : Greg) (mode : Fin 4) (n : Fin 4) (sz : Fin 8) (step : BitVec 9)
  /-- LDL (R266): Loads a word and sets the reservation on its granule. -/
  | ldl (p : Pair) (d : Greg) (a : Greg)
  /-- STC (R266): Stores conditionally on the reservation and writes the success flag. -/
  | stc (p : Pair) (d : Greg) (a : Greg) (b : Greg)
  /-- BCC (R263): Conditional branch with a delay slot governed by AN. -/
  | bcc (p : Pair) (an : Bool) (cond : Fin 16) (disp : BitVec 21)
  /-- JMP (R263): Relative jump with a delay slot. -/
  | jmp (p : Pair) (disp : BitVec 26)
  /-- CALL (R263): Relative call writing g31, with a delay slot. -/
  | call (p : Pair) (disp : BitVec 26)
  /-- JR (R263): Jump to gA with a delay slot. -/
  | jr (p : Pair) (a : Greg)
  /-- CALLR (R263): Call to gA writing g31, with a delay slot. -/
  | callr (p : Pair) (a : Greg)
  /-- RET (R264): Returns to g31 using the return stack, with a delay slot. -/
  | ret (p : Pair)
  /-- TRAP (R274): Takes exception entry with code IMM16. -/
  | trap (p : Pair) (imm : BitVec 16)
  /-- ERET (R287): Restores PSW, TID and EPC from the TSB and clears ARMED. -/
  | eret (p : Pair)
  /-- PFLUSH (R264): Resets the branch predictor and return stack. -/
  | pflush (p : Pair)
  /-- ICINV (R244): Invalidates every instruction-cache line. -/
  | icinv (p : Pair)
  /-- FSYNC (R268): Waits for outstanding FP operations and delivers a pending FP trap. -/
  | fsync (p : Pair)
  /-- WAIT (R296): Stops issue until an eligible source or STORE_LATE waits. -/
  | wait (p : Pair)
  /-- PBAR (R264): Bars prediction over a region following the instruction. -/
  | pbar (p : Pair) (imm : BitVec 16)
  /-- FADD (R267): FP addition in binary32 or binary64. -/
  | fadd (p : Pair) (dbl : Bool) (d : Freg) (a : Freg) (b : Freg)
  /-- FSUB (R267): FP subtraction in binary32 or binary64. -/
  | fsub (p : Pair) (dbl : Bool) (d : Freg) (a : Freg) (b : Freg)
  /-- FMUL (R267): FP multiplication in binary32 or binary64. -/
  | fmul (p : Pair) (dbl : Bool) (d : Freg) (a : Freg) (b : Freg)
  /-- FDIV (R267): FP division, not pipelined. -/
  | fdiv (p : Pair) (dbl : Bool) (d : Freg) (a : Freg) (b : Freg)
  /-- FSQRT (R267): FP square root, not pipelined. -/
  | fsqrt (p : Pair) (dbl : Bool) (d : Freg) (a : Freg)
  /-- FMIN (R267): FP minimum, ordering −0 below +0. -/
  | fmin (p : Pair) (dbl : Bool) (d : Freg) (a : Freg) (b : Freg)
  /-- FMAX (R267): FP maximum, ordering −0 below +0. -/
  | fmax (p : Pair) (dbl : Bool) (d : Freg) (a : Freg) (b : Freg)
  /-- FABS (R267): FP absolute value. -/
  | fabs (p : Pair) (dbl : Bool) (d : Freg) (a : Freg)
  /-- FNEG (R267): FP negation. -/
  | fneg (p : Pair) (dbl : Bool) (d : Freg) (a : Freg)
  /-- FMOV (R267): FP register move. -/
  | fmov (p : Pair) (dbl : Bool) (d : Freg) (a : Freg)
  /-- FCMP (R269): FP comparison setting NZCV. -/
  | fcmp (p : Pair) (dbl : Bool) (a : Freg) (b : Freg)
  /-- FCVT (R267): Converts between precisions or to and from int32. -/
  | fcvt (p : Pair) (dbl : Bool) (kind : FcvtKind) (d : Freg) (a : Freg)
  /-- FMVGF (R261): Moves a general register into f[31:0]. -/
  | fmvgf (p : Pair) (d : Freg) (a : Greg)
  /-- FMVFG (R261): Moves f[31:0] into a general register. -/
  | fmvfg (p : Pair) (d : Greg) (a : Freg)
  /-- FLDS (R261): Loads a binary32 value into an f register. -/
  | flds (p : Pair) (d : Freg) (a : Greg) (imm : BitVec 16)
  /-- FLDD (R261): Loads an 8-byte-aligned binary64 value into an f register. -/
  | fldd (p : Pair) (d : Freg) (a : Greg) (imm : BitVec 16)
  /-- FSTS (R261): Stores a binary32 value from an f register. -/
  | fsts (p : Pair) (d : Freg) (a : Greg) (imm : BitVec 16)
  /-- FSTD (R261): Stores an 8-byte-aligned binary64 value from an f register. -/
  | fstd (p : Pair) (d : Freg) (a : Greg) (imm : BitVec 16)
  /-- ADC_TRIGGER (R73): A matrix trigger starts a sequence run, makes it pending or pre-empts a normal run. -/
  | adcTrigger (x : Conv) (q : Fin 4)
  /-- ADC_SWTRIG (R72): A write to ADCx_SWTRIG triggers the named sequences. -/
  | adcSwtrig (r : Req) (x : Conv) (v : Word)
  /-- ADC_HOLD (R71): At the end of acquisition the core holds and starts converting. -/
  | adcHold (x : Conv) (a : Analog)
  /-- ADC_CONVERSION_END (R79): A finished conversion writes its result, starts the next entry or run, applies held writes and raises DONE. -/
  | adcConversionEnd (x : Conv)
  /-- ADC_ABORT (R76): ABORT ends runs, clears pending requests and discards a conversion in progress. -/
  | adcAbort (r : Req) (x : Conv)
  /-- ADC_DISABLE (R76): Writing EN = 0 acts as ABORT. -/
  | adcDisable (r : Req) (x : Conv)
  /-- ADC_REF_SELECT (R70): A change of SRC clears REFRDY. -/
  | adcRefSelect (r : Req) (x : Conv) (src : BitVec 2)
  /-- REF_SETTLED (R70): 20 µs after a reference change, REFRDY sets again. -/
  | refSettled (x : Conv)
  /-- ADC_SEQ_CFG_WRITE (R77): A write to a busy sequence's configuration is held until its run ends. -/
  | adcSeqCfgWrite (r : Req) (x : Conv) (q : Fin 4) (v : Word)
  /-- ADC_ENTRY_WRITE (R66): An entry write that changes INSEL or DIFF makes the next conversion a settling conversion. -/
  | adcEntryWrite (r : Req) (x : Conv) (q : Fin 4) (e : Fin 16) (v : Word)
  /-- SPARE_CAL_COMPLETE (R59): Completion of the spare's calibration either passes or withdraws the core. -/
  | spareCalComplete (c : SpareCal)
  /-- CORE_AGED (R60): A core serving more than 64 ms since calibration sets AGED and raises the event. -/
  | coreAged (k : Fin 9)
  /-- COMPARATOR_CROSSING (R87): An input crossing the hysteresis level changes a continuous comparator's decision. -/
  | comparatorCrossing (n : CmpId) (up : Bool)
  /-- CMP_THR_WRITE (R88): A bus threshold write starts a DAC settling span. -/
  | cmpThrWrite (r : Req) (n : CmpId) (alt : Bool) (v : Word)
  /-- CMP_THR_PORT (R89): A matrix parameter-port threshold write is stored and wins over a same-lc bus write. -/
  | cmpThrPort (n : CmpId) (w : Word)
  /-- DAC_SETTLED (R88): At the end of the settling span SETTLING clears. -/
  | dacSettled (n : CmpId)
  /-- CMP_TICK (R92): A tick makes a sampled comparator decide, or is ignored and counted if too early. -/
  | cmpTick (n : CmpId) (lv : Level3)
  /-- WINDOW_GATE_CHANGE (R97): The gate level opening or closing bounds which window levels count toward Wk_GATED. -/
  | windowGateChange (k : WinId) (gate : Bool)
  /-- CMP_CHECK (R108): A GO write starts, queues or refuses a comparator check; the partner takes over input and code. -/
  | cmpCheck (r : Req) (v : Word)
  /-- CHECK_RESULT (R106): At lc 56 the result is written, COUNT increments, and a fail raises CHKFAIL. -/
  | checkResult (raw : Bool)
  /-- PWM_PERIOD_START (R121): At a period start pending copies apply, MODE and PER changes take effect and trips release. -/
  | pwmPeriodStart (n : GenId)
  /-- PWM_PERIOD_MIDDLE (R119): At the period middle pending strobes of middle-load groups copy shadows and Gn_MID is raised. -/
  | pwmPeriodMiddle (n : GenId)
  /-- PWM_COMPARE_ACTION (R46): A compare instant fires its REF action under the passed-compare rule. -/
  | pwmCompareAction (n : GenId) (b : Bool)
  /-- PWM_TRIGGER_COMPARE (R124): The count equalling TRGx in an enabled direction raises Gn_TRG0 or Gn_TRG1. -/
  | pwmTriggerCompare (n : GenId) (k : Fin 2)
  /-- DEAD_TIME_END (R127): At the end of fixed dead time the incoming output turns on if REF still holds. -/
  | deadTimeEnd (n : GenId) (b : Bool)
  /-- TRANSITION_COMPLETE (R128): TC equalling Gn_DIR marks the transition complete and schedules the adaptive turn-on. -/
  | transitionComplete (n : GenId)
  /-- DTMAX_EXPIRY (R129): With no transition seen by DTMAX, the output turns on and Gn_NOTRANS is raised. -/
  | dtmaxExpiry (n : GenId)
  /-- PWM_TRIP (R132): A trip input rising forces the pins to the safe pattern and sets TRIPPED. -/
  | pwmTrip (n : GenId) (k : Fin 4)
  /-- TRIPPED_CLEAR (R132): A W1C to TRIPPED releases a latched trip whose input is 0. -/
  | trippedClear (r : Req) (n : GenId) (v : Word)
  /-- PWM_LOADALL (R121): A write to PWM_LOADALL strobes the masked groups. -/
  | pwmLoadall (r : Req) (v : Word)
  /-- LOADALL_STROBE (R121): A strobe on a Gx_LOADALL destination copies or pends the shadows of the masked groups. -/
  | loadallStrobe (k : Fin 8) (w : Word)
  /-- PWM_START (R115): A write to PWM_START starts the named stopped generators from PHASE. -/
  | pwmStart (r : Req) (v : Word)
  /-- PWM_SYNC (R115): A SYNC event loads PHASE into the counter and begins a period. -/
  | pwmSync (n : GenId)
  /-- PERIOD_END (R116): END at or after the arming count ends a variable period and records LASTPER. -/
  | periodEnd (n : GenId)
  /-- PERIOD_MAX (R116): Reaching PER − 1 without END ends the period and raises Gn_PMAX. -/
  | periodMax (n : GenId)
  /-- PSTART (R117): A PSTART event is latched by a follower, whose next period begins once END has been seen. -/
  | pstart (n : GenId)
  /-- PHASE_EVENT (R118): At the phase-fraction count of a variable period, Gn_PHEVT is raised. -/
  | phaseEvent (n : GenId)
  /-- COMPARE_PORT_WRITE (R137): A compare-port word is stored in the shadow, and a same-lc bus write is discarded and counted. -/
  | comparePortWrite (n : GenId) (b : Bool) (w : Word)
  /-- TIMER_ZERO (R139): A zero step raises Tn_ZERO, acts zero actions and reloads or stops the timer. -/
  | timerZero (n : TmrId)
  /-- TIMER_EN_START (R141): A write of EN = 1 loads RELOAD and starts the countdown. -/
  | timerEnStart (r : Req) (n : TmrId) (v : Word)
  /-- TIMER_EN_STOP (R141): A write of EN = 0 stops the timer after the current lc. -/
  | timerEnStop (r : Req) (n : TmrId) (v : Word)
  /-- TM_START (R141): A write to TM_START starts the named timers. -/
  | tmStart (r : Req) (v : Word)
  /-- TM_STOP (R141): A write to TM_STOP stops the named timers. -/
  | tmStop (r : Req) (v : Word)
  /-- TIMER_START_EVENT (R141): An event on Tn_START starts the timer. -/
  | timerStartEvent (n : TmrId)
  /-- TIMER_STOP_EVENT (R141): An event on Tn_STOP stops the timer. -/
  | timerStopEvent (n : TmrId)
  /-- TIMER_MATCH (R143): A compare channel fires its match action and raises Tn_MATCHc. -/
  | timerMatch (n : TmrId) (c : Fin 4)
  /-- TIMER_COMPARE_PORT (R144): A port compare value is stored, winning over a same-lc bus write. -/
  | timerComparePort (n : TmrId) (c : Fin 4) (w : Word)
  /-- TIMER_CAPTURE (R147): A selected edge captures the count and fine part, setting CAPF or OVF. -/
  | timerCapture (n : TmrId) (c : Fin 4) (e : CapEdge)
  /-- TOD_ADDEND_WRITE (R153): A write to TOD_ADDEND sets the rate, clamped with CLAMP. -/
  | todAddendWrite (r : Req) (v : Word)
  /-- TOD_NS_READ (R155): A read of TOD_NS latches the requester's snapshot of SEC and FINE. -/
  | todNsRead (r : Req)
  /-- TOD_COMMIT_GO (R156): GO commits the set time at once, or arms a timed commit, or is refused with SETERR. -/
  | todCommitGo (r : Req) (timed : Bool)
  /-- TOD_COMMIT_CANCEL (R158): CANCEL withdraws a pending commit. -/
  | todCommitCancel (r : Req)
  /-- POS_ENABLE (R161): A write changing EN from 0 to 1 clears the count and speed state and begins the first window. -/
  | posEnable (r : Req) (n : PosId) (v : Word)
  /-- POS_DISABLE (R161): A write of EN = 0 holds every register and stops events. -/
  | posDisable (r : Req) (n : PosId) (v : Word)
  /-- QUAD_EDGE (R163): An accepted A or B edge counts POS up or down and steps the divider and direction. -/
  | quadEdge (n : PosId) (at_ : EncAt) (lv : EncLv)
  /-- INDEX_EVENT (R166): An index event records IDXPOS, sets REF, raises Pn_IDX, checks spacing and may zero POS. -/
  | indexEvent (n : PosId)
  /-- PROBE_EDGE (R169): A probe edge latches POS and TOD and raises Pn_PRB. -/
  | probeEdge (n : PosId) (e : PrbEdge)
  /-- POS_PRESET (R165): A bus write to POSn_POS presets the count. -/
  | posPreset (r : Req) (n : PosId) (v : Word)
  /-- POS_DIVNM_WRITE (R172): A DIVNM write is ignored and counted if invalid, otherwise applies at the next edge. -/
  | posDivnmWrite (r : Req) (n : PosId) (v : Word)
  /-- POS_ERROR_CLEAR (R168): A W1C clearing the last of QERR, IDXERR and AMPERR may restore VALID. -/
  | posErrorClear (r : Req) (n : PosId) (v : Word)
  /-- SSI_BUSY_WRITE (R173): Writing 1 to BUSY requests an SSI frame, or counts SSIOVR if busy. -/
  | ssiBusyWrite (r : Req) (n : PosId)
  /-- SSI_REQUEST_EVENT (R173): An event on Pn_SSI_REQ requests an SSI frame, or counts SSIOVR if busy. -/
  | ssiRequestEvent (n : PosId)
  /-- SSI_FRAME_END (R174): The end of an SSI frame checks the CRC and writes POS or records an error. -/
  | ssiFrameEnd (n : PosId) (bits : BitVec 40) (startLow : Bool)
  /-- MONOFLOP_END (R173): The end of the monoflop time allows the next frame. -/
  | monoflopEnd (n : PosId)
  /-- SINCOS_SAMPLE (R176): New values on both Pn_SIN and Pn_COS start the interpolation. -/
  | sincosSample (n : PosId)
  /-- SINCOS_RESULT (R177): 6 lc later the angle and period count are written, or QERR or AMPERR is set. -/
  | sincosResult (n : PosId)
  /-- SPEED_WINDOW (R179): A Pn_SPDWIN event closes a speed window and forms the estimates. -/
  | speedWindow (n : PosId)
  /-- SPEED_RESULT (R180): 4 lc after the window event POSn_SPEED is written and Pn_SPDEVT is raised. -/
  | speedResult (n : PosId)
  /-- CURRENT_SET_FORMED (R191): The last marked input arriving forms a current-loop set, accepted, held or replacing a held set. -/
  | currentSetFormed (n : LeId)
  /-- SET_ACCEPT (R51): A held set enters its pipeline in the lc in which the pipeline frees. -/
  | setAccept (n : LeId) (p : Pipe)
  /-- CURRENT_LOOP_OUTPUT (R192): The current loop presents compares, writes state and drives outputs and strobe. -/
  | currentLoopOutput (n : LeId)
  /-- VOLTAGE_SET (R201): A value on Ln_VFB starts a voltage-loop set. -/
  | voltageSet (n : LeId)
  /-- VOLTAGE_LOOP_OUTPUT (R201): The voltage loop drives the clamped output and strobe and updates its integrator. -/
  | voltageLoopOutput (n : LeId)
  /-- FREQ_TRACKER_SET (R202): New values on Ln_VA and Ln_VB start a frequency-tracker set. -/
  | freqTrackerSet (n : LeId)
  /-- FREQ_TRACKER_OUTPUT (R202): The tracker drives angle and frequency and updates the lock level. -/
  | freqTrackerOutput (n : LeId)
  /-- PROFILE_TICK (R203): A Ln_PTICK event starts a profile step, planning anew after a swap. -/
  | profileTick (n : LeId)
  /-- PROFILE_OUTPUT (R205): At A + 16 the set-points are driven and a soft-limit overrun is raised. -/
  | profileOutput (n : LeId)
  /-- OBSERVER_ANGLE (R195): At observer lc 36 the angle is delivered to the current loop. -/
  | observerAngle (n : LeId)
  /-- OBSERVER_CONFIDENCE (R197): At A + 64 the confidence is written and driven, and coast-hold is updated. -/
  | observerConfidence (n : LeId)
  /-- COAST_ESCALATE (R200): LEn_COAST_LC reaching REACQ raises Ln_SAFEREQ and stops acceptance. -/
  | coastEscalate (n : LeId)
  /-- SAFEREQ_CLEAR (R200): A W1C of SAFEREQ resumes set acceptance. -/
  | safereqClear (r : Req) (n : LeId)
  /-- GENERAL_STAGE_GO (R208): Ln_GGO or the placed pipeline's output starts a general-stage run at bundle 0. -/
  | generalStageGo (n : LeId)
  /-- GENERAL_BUNDLE (R207): One bundle of four slots executes per lc, ending at STOP or bundle 63. -/
  | generalBundle (n : LeId)
  /-- PARAM_SWAP (R211): A write of SWAP = 1 makes the other parameter bank active. -/
  | paramSwap (r : Req) (n : LeId)
  /-- LN_SWAP_EVENT (R211): An event on Ln_SWAP makes the other parameter bank active. -/
  | lnSwapEvent (n : LeId)
  /-- TABLE_COPY_GO (R214): A GO write starts a flash-to-loop-memory table copy or refuses it with ERR. -/
  | tableCopyGo (r : Req) (n : LeId) (v : Word)
  /-- TABLE_COPY_DONE (R214): Completion of the table copy clears BUSY. -/
  | tableCopyDone (n : LeId)
  /-- SW_EVENT_RAISE (R226): A write to SM_SWEVTj raises the writer's owned software sources for one lc. -/
  | swEventRaise (r : Req) (j : Fin 2) (v : Word)
  /-- ROUTE_ENABLE_WRITE (R226): A write to SM_RENj changes only the writer's tenant-owned route enables. -/
  | routeEnableWrite (r : Req) (j : Fin 32) (v : Word)
  /-- PULSE_STRETCH_END (R222): The pulse-stretch count expiring returns the output to 0. -/
  | pulseStretchEnd (d : Fin 1024)
  /-- REGISTER_READ_CLEAR (R6): A read of an RCLR field returns it and then clears it unless peeked. -/
  | registerReadClear (r : Req) (a : Word)
  /-- REGISTER_WRITE (R6): A write to a register with no row of its own applies its access codes and checks. -/
  | registerWrite (r : Req) (a : Word) (v : Word)
  /-- ILLEGAL_INSTRUCTION (R255): An instruction word with an unassigned opcode or FN, COND 0b1111, an unlisted SZ or an odd D in multiply or divide causes the ILLEGAL exception. -/
  | illegalInstruction (p : Pair) (w : Word)
  /-- FETCH_FAULT (R244): A fetch from a region other than flash, SRAM or the local I-TCM, or a fetch that no window permits, causes the FETCH exception. -/
  | fetchFault (p : Pair) (a : Word)
  /-- ADAPTIVE_TURN_ON (R128): In adaptive dead time the incoming output turns on at max(t_off + DTMIN, min(start of L + MARGIN, t_off + DTMAX)) and Gn_DIR changes. -/
  | adaptiveTurnOn (n : GenId) (b : Bool)
  /-- ETH_RXC_CHANGE (R456): The PHY starting or stopping ETHn_RXC at 125 MHz enables or stops the port's transmission. -/
  | ethRxcChange (port : Fin 2) (on : Bool)
  /-- SUPPLY_FALL (R412): A rail falling below its reset threshold takes the device to Reset. -/
  | supplyFall (rail : Rail) (mV : Nat)
  /-- BLANK (R418): A received BLANK frame makes a running device with IMGBASE set send LOAD_OFFER. -/
  | blank (h : TwHdr) (t : List Byte)
  /-- LOAD_STATUS (R420): A received LOAD_STATUS reports the peer's admission outcome. -/
  | loadStatus (h : TwHdr) (t : List Byte)
  /-- ETH_FRAME_TX (R425): A transmitted Ethernet frame is timestamped at its SFD when applicable. -/
  | ethFrameTx (port : Fin 2) (kind : EthKind) (seqId : BitVec 16) (corr : Int)
  /-- ETH_TSFIFO_READ (R426): A read of ETHn_TSFIFO returns the next word of the head entry and pops it after word 3. -/
  | ethTsfifoRead (r : Req) (port : Fin 2) (peek : Bool)
  /-- STATION_INPUT_FRAME (R430): A received INPUT frame is stored, and a lost station recovers. -/
  | stationInputFrame (port : Fin 2) (st : Station) (gen : BitVec 16) (cycle : Word) (f : InFrame)
  /-- MARGIN_SCRUB_LINE (R320): Every 5 µs one flash line per bank is read at margin and its sector is queued for refresh if it differs. -/
  | marginScrubLine (b : FBank) (differs : Bool)
  /-- DAC_TRIM_CHECK (R438): Every TRIMINT × 100 µs a trim check runs on an eligible comparator and moves its offset trim. -/
  | dacTrimCheck (n : CmpId) (drift : Int)
  /-- TELEMETRY_RECORD (R439): Each TELINT a telemetry record is pushed to TELQ and temperature warnings are raised. -/
  | telemetryRecord (ty : BitVec 8) (idx : BitVec 8) (value : Word)
  /-- LIFE_GATE (R440): At the end of each 1 s gate BG_LIFE is updated from ring-oscillator drift. -/
  | lifeGate (since : List Nat) (now : List Nat)
  /-- STARVE_LIMIT (R307): A beat waiting longer than IX_STARVE_LIM increments IX_STARVEm and raises IX_STARVE. -/
  | starveLimit (m : Fin 13)
  /-- HP_BADCMD (R423): A host-port frame whose CMD is not in Table 16.6 receives status BADCMD and has no effect. -/
  | hpBadcmd (f : HpFrame) (cmd : Byte) (payload : List Byte)
  /-- RESET_N_ASSERT (R30): RESET_N driven low takes the device to Reset from any mode within 1 µs. -/
  | resetNAssert
  /-- CLOCK_LOST (R19): Loss of XIN for over 1 µs or ROOTCLK out of range forces the safe pattern, asserts TW_FAULT_OUT, stops the clocks and enters Safe-Hold. -/
  | clockLost
  /-- FAULT_HOLD_EXPIRY (R399): When TW_HOLD lc have passed in fault-hold, the device releases TW_OWN and enters Safe-Hold 2 lc later. -/
  | faultHoldExpiry
  /-- SAFE_N_FALL (R415): SAFE_N going low forces every PWM pin to the safe pattern through the asynchronous path. -/
  | safeNFall
  /-- SAFE_N_TIMEOUT (R415): SAFE_N low for 16 consecutive lc enters Safe-Hold with cause SAFE_N. -/
  | safeNTimeout
  /-- SAFE_N_RISE (R415): SAFE_N returning high early lets the groups leave the safe pattern at their next period start and increments GLITCH. -/
  | safeNRise
  /-- RETENTION_ENTRY (R436): After the DMA block and flash command in progress end, the device ends debug, saves the EVC, latches the pins and stops the clocks. -/
  | retentionEntry
  /-- HP_FRAME_CUT (R422): A host frame whose HP_CS_N rises early is discarded and counted in CUT. -/
  | hpFrameCut
  /-- HOST_LOAD_TIMEOUT (R419): 100 ms without a host LOAD frame during a host load discards the load and returns to Blank. -/
  | hostLoadTimeout
  /-- TWIN_LOAD_TIMEOUT (R419): 1 ms without a LOAD_DATA frame during a twin load discards the load and returns to Blank. -/
  | twinLoadTimeout
  /-- TAP_BYPASS (R374): The TAP BYPASS instruction is always accepted. -/
  | tapBypass
  /-- TAP_IDCODE (R374): The TAP IDCODE instruction is always accepted and returns the identity code. -/
  | tapIdcode
  /-- TAP_EXTEST (R374): EXTEST is accepted only in Blank at PL0 or in an authenticated session; otherwise BYPASS is loaded. -/
  | tapExtest
  /-- TAP_SAMPLE (R374): SAMPLE is accepted only in Blank at PL0 or in an authenticated session; otherwise BYPASS is loaded. -/
  | tapSample
  /-- TAP_PRELOAD (R374): PRELOAD is accepted only in Blank at PL0 or in an authenticated session; otherwise BYPASS is loaded. -/
  | tapPreload
  /-- AUTH_COMPLETE (R368): At the end of the check, AUTH is set on success, or the failure count rises and may set LOCKED. -/
  | authComplete
  /-- PAIRING_TIMEOUT (R389): Pairing not complete within 1 ms plus two epoch intervals fails with TIMEOUT. -/
  | pairingTimeout
  /-- TW_MARK (R386): Every 64 lc a mark sends a HEARTBEAT and, on the active, drives the TW_SYNC pulse. -/
  | twMark
  /-- HEARTBEAT_MISSED (R387): Each 64 lc without a valid HEARTBEAT counts a missed heartbeat. -/
  | heartbeatMissed
  /-- PEER_LOST (R387): 192 lc without a valid HEARTBEAT makes the peer lost, triggering a handover or LINKLOST. -/
  | peerLost
  /-- EPOCH_CAPTURE (R393): At the capture instant the active snapshots engine states and generator values and starts assembling an epoch. -/
  | epochCapture
  /-- EPOCH_APPLY_DONE (R395): When the region copy ends, APPLYING clears and EPOCH_ACK is sent. -/
  | epochApplyDone
  /-- FAULT_IN_RISE (R398): TW_FAULT_IN high triggers Handover on a standby, or sets PEERMODE on an owner. -/
  | faultInRise
  /-- OWN_IN_RISE (R381): An owner in fault-hold, switching or faulted Safe-Hold releases TW_OWN within 3 lc of TW_OWN_IN rising. -/
  | ownInRise
  /-- DUAL_OWN (R382): TW_OWN_IN high for 4 consecutive lc on a normal owner raises TW_DUALOWN. -/
  | dualOwn
  /-- AGREEMENT_POINT (R400): At the first lc in which all judged generators agree for 6 lc, the standby takes ownership and enters Run-Active. -/
  | agreementPoint
  /-- AGREEMENT_FORCED (R401): With no agreement point within TW_AGRMAX, ownership is taken at once and TW_AGRFORCE is raised. -/
  | agreementForced
  /-- LINK_DOWN (R384): Loss of block lock on any lane takes the link down. -/
  | linkDown
  /-- LINK_UP (R384): Completion of link training brings the link up. -/
  | linkUp
  /-- STATION_CYCLE_BOUNDARY (R428): The timer zero event sends CYCLE at lc 0 of a station cycle. -/
  | stationCycleBoundary
  /-- STATION_INPUT_READ (R428): At lc INDL the station inputs are copied, missed stations are marked stale and SC_IN is raised. -/
  | stationInputRead
  /-- STATION_OUTPUT_WRITE (R428): At lc OUTT the OUTPUT frames of the enabled stations are sent. -/
  | stationOutputWrite
  /-- RESERVATION_WINDOW (R304): Every 1,000 BUSCLK cycles each master's bank credits are reset to its shares. -/
  | reservationWindow
  /-- PL_LOWER_DONE (R323): After the bulk erase and memory clear, the new level is written and the device enters Reset. -/
  | plLowerDone
  /-- DMA_BLOCK_START (R330): Between blocks the engine chooses a channel and starts its next block, fetching and checking descriptors. -/
  | dmaBlockStart
  /-- DMA_BLOCK_END (R331): Completion of a block advances the descriptor or chain and raises completion events. -/
  | dmaBlockEnd
  /-- INTERRUPT_OFFER (R291): Each cycle the EVC chooses targets and offers sources, and a pair at a boundary takes the offer. -/
  | interruptOffer
  /-- ROTATION_DUE (R55): Every 1 ms a rotation swap falls due, and a still-waiting swap is skipped. -/
  | rotationDue
  /-- ROTATION_SWAP (R55): In the first lc with the converter idle and the spare calibrated, the spare takes over the converter. -/
  | rotationSwap
  /-- SPARE_REF_CONNECT (R58): 20 µs before each due tick the spare connects to the next converter's reference. -/
  | spareRefConnect
  /-- CHECK_TAKEOVER (R103): At lc 16 the partner's output is substituted and the checked comparator is swapped or tied. -/
  | checkTakeover
  /-- CHECK_RELEASE (R103): At lc 64 the partner is released and held threshold writes are applied. -/
  | checkRelease
  /-- CHECK_WAITING_START (R108): A waiting check request starts in the lc after the running check ends. -/
  | checkWaitingStart
  /-- DELAY_LINE_DUE (R134): Every 100 µs a delay-line replacement falls due, and a still-waiting one is skipped. -/
  | delayLineDue
  /-- DELAY_LINE_REPLACE (R134): In the first lc with no edge near, the spare line replaces the output's line. -/
  | delayLineReplace
  /-- DELAY_LINE_FAIL (R135): A line failing calibration is withdrawn, FAIL is set and rotation stops. -/
  | delayLineFail
  /-- TOD_ROLLOVER (R152): NS reaching 10^9 rolls into SEC and raises TOD_SECEVT. -/
  | todRollover
  /-- TOD_PPS_EDGE (R154): An accepted PPS rising edge latches the time and raises TOD_PPSEVT. -/
  | todPpsEdge
  /-- PPS_LOST (R154): 1.1 s without an accepted edge sets PPS_LOST. -/
  | ppsLost
  /-- PPS_OUT_FALL (R154): 1 ms after a roll-over the TOD_PPS output falls. -/
  | ppsOutFall
  /-- TOD_TIMED_COMMIT (R156): NS reaching COMMIT_AT applies the pending commit and raises TOD_COMMITEVT. -/
  | todTimedCommit
  /-- EPOCH_SENT (R394): The last EPOCH frame of an epoch leaves the active, ending the transfer so that the next capture instant is no longer skipped. -/
  | epochSent
  /-- BLANK_FRAME_SEND (R418): A device in Blank with the link up sends a BLANK frame once per 64 lc. -/
  | blankFrameSend
  /-- TW_SYNC_RETURN (R389): In pairing step 2 the active drives a TW_SYNC pulse back exactly 64 lc after the standby's pulse arrives. -/
  | twSyncReturn
  deriving DecidableEq, Repr

end Sys2Proof
end

