-- ==== Sys2Proof/Decode.lean ====
section
/-! DEFINITION. Decoding. The table of commands gives no row any bits, so no word spells a command. What the spec does encode
are the NC32 instructions (R255, R261): `nc32Decode` reads an instruction word of Table 10.4 and Table 10.5, `nc32Encode`
writes one. -/

namespace Sys2Proof

/-- The command a word spells by the table's bits: no row of spec/opcode_table.json gives bits. -/
def decodeTableWord (_nbits _w : Nat) : Option Instr := none

/-- Bits [lo + n − 1 : lo] of a word. -/
def wordField (w : Word) (lo n : Nat) : Nat := w.toNat / 2 ^ lo % 2 ^ n

/-- A register number field. -/
def regField (w : Word) (lo : Nat) : Fin 32 := Fin.ofNat 32 (wordField w lo 5)

/-- Format R of Table 10.4. -/
def fmtR (op d a b fn : Nat) : Word :=
  BitVec.ofNat 32 (op * 2 ^ 26 + d * 2 ^ 21 + a * 2 ^ 16 + b * 2 ^ 11 + fn)

/-- Format I of Table 10.4. -/
def fmtI (op d a imm : Nat) : Word := BitVec.ofNat 32 (op * 2 ^ 26 + d * 2 ^ 21 + a * 2 ^ 16 + imm)

/-- Format S of Table 10.4. -/
def fmtS (op d bk sz off : Nat) : Word :=
  BitVec.ofNat 32 (op * 2 ^ 26 + d * 2 ^ 21 + bk * 2 ^ 19 + sz * 2 ^ 16 + off)

/-- Format P of Table 10.4. -/
def fmtP (op d a mode n sz step : Nat) : Word :=
  BitVec.ofNat 32 (op * 2 ^ 26 + d * 2 ^ 21 + a * 2 ^ 16 + mode * 2 ^ 14 + n * 2 ^ 12 + sz * 2 ^ 9 + step)

/-- Format B of Table 10.4. -/
def fmtB (op an cond disp : Nat) : Word :=
  BitVec.ofNat 32 (op * 2 ^ 26 + an * 2 ^ 25 + cond * 2 ^ 21 + disp)

/-- Format J of Table 10.4. -/
def fmtJ (op disp : Nat) : Word := BitVec.ofNat 32 (op * 2 ^ 26 + disp)

/-- FN of an FP operation: FN[10] is 1 for binary64 (Table 10.5). -/
def fpFn (dbl : Bool) (fn : Nat) : Nat := if dbl then 1024 + fn else fn

/-- FN of FCVT by its kind (Table 10.5). -/
def FcvtKind.fn : FcvtKind → Nat
  | .precision => 0x010
  | .toInt => 0x011
  | .fromInt => 0x012

/-- The instruction word of an NC32 instruction; unused fields are 0. `none` for a command that is no instruction. -/
def nc32Encode (i : Instr) : Option Word :=
  match i with
  | .add _ d a b => some (fmtR 0x00 d a b 0x000)
  | .adc _ d a b => some (fmtR 0x00 d a b 0x001)
  | .sub _ d a b => some (fmtR 0x00 d a b 0x002)
  | .sbc _ d a b => some (fmtR 0x00 d a b 0x003)
  | .cmp _ a b => some (fmtR 0x00 0 a b 0x004)
  | .addi _ d a imm => some (fmtI 0x01 d a imm.toNat)
  | .cmpi _ a imm => some (fmtI 0x07 0 a imm.toNat)
  | .and _ d a b => some (fmtR 0x00 d a b 0x010)
  | .or _ d a b => some (fmtR 0x00 d a b 0x011)
  | .xor _ d a b => some (fmtR 0x00 d a b 0x012)
  | .andn _ d a b => some (fmtR 0x00 d a b 0x013)
  | .andi _ d a imm => some (fmtI 0x03 d a imm.toNat)
  | .ori _ d a imm => some (fmtI 0x04 d a imm.toNat)
  | .xori _ d a imm => some (fmtI 0x05 d a imm.toNat)
  | .lui _ d imm => some (fmtI 0x06 d 0 imm.toNat)
  | .shl _ d a b => some (fmtR 0x00 d a b 0x020)
  | .shr _ d a b => some (fmtR 0x00 d a b 0x021)
  | .sar _ d a b => some (fmtR 0x00 d a b 0x022)
  | .ror _ d a b => some (fmtR 0x00 d a b 0x023)
  | .shi _ d a kind count => some (fmtI 0x08 d a (kind * 32 + count))
  | .mul _ d a b => some (fmtR 0x00 d a b 0x030)
  | .mulu _ d a b => some (fmtR 0x00 d a b 0x031)
  | .div _ d a b => some (fmtR 0x00 d a b 0x038)
  | .divu _ d a b => some (fmtR 0x00 d a b 0x039)
  | .mfs _ d n => some (fmtR 0x00 d 0 n 0x040)
  | .mts _ a n => some (fmtR 0x00 0 a n 0x041)
  | .ldb _ d a imm => some (fmtI 0x10 d a imm.toNat)
  | .ldbu _ d a imm => some (fmtI 0x11 d a imm.toNat)
  | .ldh _ d a imm => some (fmtI 0x12 d a imm.toNat)
  | .ldhu _ d a imm => some (fmtI 0x13 d a imm.toNat)
  | .ldw _ d a imm => some (fmtI 0x14 d a imm.toNat)
  | .stb _ d a imm => some (fmtI 0x18 d a imm.toNat)
  | .sth _ d a imm => some (fmtI 0x19 d a imm.toNat)
  | .stw _ d a imm => some (fmtI 0x1A d a imm.toNat)
  | .lds _ d bk sz off => some (fmtS 0x1C d bk sz off.toNat)
  | .sts _ d bk sz off => some (fmtS 0x1D d bk sz off.toNat)
  | .ldp _ d a mode n sz st => some (fmtP 0x1E d a mode n sz st.toNat)
  | .stp _ d a mode n sz st => some (fmtP 0x1F d a mode n sz st.toNat)
  | .ldl _ d a => some (fmtR 0x16 d a 0 0)
  | .stc _ d a b => some (fmtR 0x1B d a b 0)
  | .bcc _ an cond disp => some (fmtB 0x20 an.toNat cond disp.toNat)
  | .jmp _ disp => some (fmtJ 0x21 disp.toNat)
  | .call _ disp => some (fmtJ 0x22 disp.toNat)
  | .jr _ a => some (fmtR 0x23 0 a 0 0x000)
  | .callr _ a => some (fmtR 0x23 0 a 0 0x001)
  | .ret _ => some (fmtR 0x23 0 0 0 0x002)
  | .trap _ imm => some (fmtI 0x2A 0 0 imm.toNat)
  | .eret _ => some (fmtR 0x28 0 0 0 0x001)
  | .pflush _ => some (fmtR 0x28 0 0 0 0x002)
  | .icinv _ => some (fmtR 0x28 0 0 0 0x003)
  | .fsync _ => some (fmtR 0x28 0 0 0 0x004)
  | .wait _ => some (fmtR 0x28 0 0 0 0x005)
  | .pbar _ imm => some (fmtI 0x29 0 0 imm.toNat)
  | .fadd _ dbl d a b => some (fmtR 0x30 d a b (fpFn dbl 0x001))
  | .fsub _ dbl d a b => some (fmtR 0x30 d a b (fpFn dbl 0x002))
  | .fmul _ dbl d a b => some (fmtR 0x30 d a b (fpFn dbl 0x003))
  | .fdiv _ dbl d a b => some (fmtR 0x30 d a b (fpFn dbl 0x004))
  | .fsqrt _ dbl d a => some (fmtR 0x30 d a 0 (fpFn dbl 0x005))
  | .fmin _ dbl d a b => some (fmtR 0x30 d a b (fpFn dbl 0x006))
  | .fmax _ dbl d a b => some (fmtR 0x30 d a b (fpFn dbl 0x007))
  | .fabs _ dbl d a => some (fmtR 0x30 d a 0 (fpFn dbl 0x008))
  | .fneg _ dbl d a => some (fmtR 0x30 d a 0 (fpFn dbl 0x009))
  | .fmov _ dbl d a => some (fmtR 0x30 d a 0 (fpFn dbl 0x00A))
  | .fcmp _ dbl a b => some (fmtR 0x30 0 a b (fpFn dbl 0x00B))
  | .fcvt _ dbl k d a => some (fmtR 0x30 d a 0 (fpFn dbl k.fn))
  | .fmvgf _ d a => some (fmtR 0x30 d a 0 0x020)
  | .fmvfg _ d a => some (fmtR 0x30 d a 0 0x021)
  | .flds _ d a imm => some (fmtI 0x31 d a imm.toNat)
  | .fldd _ d a imm => some (fmtI 0x32 d a imm.toNat)
  | .fsts _ d a imm => some (fmtI 0x33 d a imm.toNat)
  | .fstd _ d a imm => some (fmtI 0x34 d a imm.toNat)
  | _ => none

/-- The SZ codes of R255 for loads; stores ignore SZ[2]. -/
def szListed (store : Bool) (sz : Fin 8) : Bool :=
  if store then decide (sz.val % 4 ≠ 3) else decide (sz.val = 0 ∨ sz.val = 1 ∨ sz.val = 2 ∨ sz.val = 4 ∨ sz.val = 5)

/-- Opcode 0x00: the integer R format, by FN. -/
def decodeR00 (p : Pair) (w : Word) : Option Instr :=
  let d := regField w 21
  let a := regField w 16
  let b := regField w 11
  match wordField w 0 11 with
  | 0x000 => some (.add p d a b)
  | 0x001 => some (.adc p d a b)
  | 0x002 => some (.sub p d a b)
  | 0x003 => some (.sbc p d a b)
  | 0x004 => some (.cmp p a b)
  | 0x010 => some (.and p d a b)
  | 0x011 => some (.or p d a b)
  | 0x012 => some (.xor p d a b)
  | 0x013 => some (.andn p d a b)
  | 0x020 => some (.shl p d a b)
  | 0x021 => some (.shr p d a b)
  | 0x022 => some (.sar p d a b)
  | 0x023 => some (.ror p d a b)
  | 0x030 => if d.val % 2 = 0 then some (.mul p d a b) else none
  | 0x031 => if d.val % 2 = 0 then some (.mulu p d a b) else none
  | 0x038 => if d.val % 2 = 0 then some (.div p d a b) else none
  | 0x039 => if d.val % 2 = 0 then some (.divu p d a b) else none
  | 0x040 => if b.val = 7 ∨ 27 ≤ b.val then none else some (.mfs p d b)
  | 0x041 => if b.val = 7 ∨ 27 ≤ b.val then none else some (.mts p a b)
  | _ => none

/-- Opcode 0x30: the FP R format, by FN[9:0] and FN[10]. -/
def decodeR30 (p : Pair) (w : Word) : Option Instr :=
  let d := regField w 21
  let a := regField w 16
  let b := regField w 11
  let dbl := decide (wordField w 10 1 = 1)
  match wordField w 0 10 with
  | 0x001 => some (.fadd p dbl d a b)
  | 0x002 => some (.fsub p dbl d a b)
  | 0x003 => some (.fmul p dbl d a b)
  | 0x004 => some (.fdiv p dbl d a b)
  | 0x005 => some (.fsqrt p dbl d a)
  | 0x006 => some (.fmin p dbl d a b)
  | 0x007 => some (.fmax p dbl d a b)
  | 0x008 => some (.fabs p dbl d a)
  | 0x009 => some (.fneg p dbl d a)
  | 0x00A => some (.fmov p dbl d a)
  | 0x00B => some (.fcmp p dbl a b)
  | 0x010 => some (.fcvt p dbl .precision d a)
  | 0x011 => some (.fcvt p dbl .toInt d a)
  | 0x012 => some (.fcvt p dbl .fromInt d a)
  | 0x020 => if dbl then none else some (.fmvgf p d a)
  | 0x021 => if dbl then none else some (.fmvfg p d a)
  | _ => none

/-- Opcode 0x28: the system instructions, by FN. -/
def decodeR28 (p : Pair) (w : Word) : Option Instr :=
  match wordField w 0 11 with
  | 0x001 => some (.eret p)
  | 0x002 => some (.pflush p)
  | 0x003 => some (.icinv p)
  | 0x004 => some (.fsync p)
  | 0x005 => some (.wait p)
  | _ => none

/-- Opcode 0x23: jumps through a register, by FN. -/
def decodeR23 (p : Pair) (w : Word) : Option Instr :=
  match wordField w 0 11 with
  | 0x000 => some (.jr p (regField w 16))
  | 0x001 => some (.callr p (regField w 16))
  | 0x002 => some (.ret p)
  | _ => none

/-- Opcodes 0x1C to 0x1F: the short-address and pointer formats. -/
def decodeSP (p : Pair) (w : Word) : Option Instr :=
  let d := regField w 21
  let a := regField w 16
  let bk := Fin.ofNat 4 (wordField w 19 2)
  let ssz := Fin.ofNat 8 (wordField w 16 3)
  let off := BitVec.ofNat 16 (wordField w 0 16)
  let mode := Fin.ofNat 4 (wordField w 14 2)
  let n := Fin.ofNat 4 (wordField w 12 2)
  let psz := Fin.ofNat 8 (wordField w 9 3)
  let st := BitVec.ofNat 9 (wordField w 0 9)
  match wordField w 26 6 with
  | 0x1C => if szListed false ssz then some (.lds p d bk ssz off) else none
  | 0x1D => if szListed true ssz then some (.sts p d bk ssz off) else none
  | 0x1E => if szListed false psz ∧ (mode.val = 1 ∨ mode.val = 2) then some (.ldp p d a mode n psz st) else none
  | 0x1F => if szListed true psz ∧ (mode.val = 1 ∨ mode.val = 2) then some (.stp p d a mode n psz st) else none
  | _ => none

/-- The NC32 instruction of a word executed by pair `p`; `none` is an illegal instruction (R255). -/
def nc32Decode (p : Pair) (w : Word) : Option Instr :=
  let d := regField w 21
  let a := regField w 16
  let imm := BitVec.ofNat 16 (wordField w 0 16)
  match wordField w 26 6 with
  | 0x00 => decodeR00 p w
  | 0x01 => some (.addi p d a imm)
  | 0x03 => some (.andi p d a imm)
  | 0x04 => some (.ori p d a imm)
  | 0x05 => some (.xori p d a imm)
  | 0x06 => some (.lui p d imm)
  | 0x07 => some (.cmpi p a imm)
  | 0x08 => some (.shi p d a (Fin.ofNat 4 (wordField w 5 2)) (Fin.ofNat 32 (wordField w 0 5)))
  | 0x10 => some (.ldb p d a imm)
  | 0x11 => some (.ldbu p d a imm)
  | 0x12 => some (.ldh p d a imm)
  | 0x13 => some (.ldhu p d a imm)
  | 0x14 => some (.ldw p d a imm)
  | 0x16 => if wordField w 0 11 = 0 then some (.ldl p d a) else none
  | 0x18 => some (.stb p d a imm)
  | 0x19 => some (.sth p d a imm)
  | 0x1A => some (.stw p d a imm)
  | 0x1B => if wordField w 0 11 = 0 then some (.stc p d a (regField w 11)) else none
  | 0x1C => decodeSP p w
  | 0x1D => decodeSP p w
  | 0x1E => decodeSP p w
  | 0x1F => decodeSP p w
  | 0x20 =>
    if wordField w 21 4 = 15 then none
    else some (.bcc p (decide (wordField w 25 1 = 1)) (Fin.ofNat 16 (wordField w 21 4)) (BitVec.ofNat 21 (wordField w 0 21)))
  | 0x21 => some (.jmp p (BitVec.ofNat 26 (wordField w 0 26)))
  | 0x22 => some (.call p (BitVec.ofNat 26 (wordField w 0 26)))
  | 0x23 => decodeR23 p w
  | 0x28 => decodeR28 p w
  | 0x29 => some (.pbar p imm)
  | 0x2A => some (.trap p imm)
  | 0x30 => decodeR30 p w
  | 0x31 => some (.flds p d a imm)
  | 0x32 => some (.fldd p d a imm)
  | 0x33 => some (.fsts p d a imm)
  | 0x34 => some (.fstd p d a imm)
  | _ => none

end Sys2Proof
end

