-- ==== Sys2Proof/Config.lean ====
section
/-! DEFINITION. What the spec leaves open: free values, constants with no body. Each is applied to the operands it depends on
or to the counter `State.fresh`; nothing can be proved of its value. -/

namespace Sys2Proof

/-- Operations of slots 0 and 1 of a general-stage bundle (Table 8.5). -/
inductive GenAlu
  | nop | fadd | fsub | fmul | fmin | fmax | fabs | fneg | fmov | cvtfi | cvtif | iadd | isub | sint | cost | fdiv | fsqrt
  deriving DecidableEq, Repr, Inhabited

/-- Operations of slot 2. -/
inductive GenMem
  | nop | ld | st | ldp | inp | out
  deriving DecidableEq, Repr, Inhabited

/-- Operations of slot 3. -/
inductive GenCtl
  | nop | brLt | brEq | brGe | strobe | gevt | stop
  deriving DecidableEq, Repr, Inhabited

/-- What IN of slot 2 reads (Table 8.5): a destination of the engine, a source of it, a word that the current loop, the voltage loop
or the stage itself computed last, driven or not. -/
inductive GenIn
  | dest (k : Fin 16) | src (k : Fin 20) | cur (k : Fin 4) | vlt (k : Fin 4) | gen (k : Fin 4)
  deriving DecidableEq, Repr, Inhabited

end Sys2Proof

namespace Sys2Proof.Config

/-- Way of a full instruction-cache set that a refill replaces (R244 names none; DESIGN CHOICE, log entry 20). -/
opaque icVictim : Nat → Fin 4

/-- Random challenge word i of an authentication request (R368; DESIGN CHOICE, log entry 21). -/
opaque challenge : Nat → Fin 8 → Word

/-- Whether underflow is judged after rounding; IEEE 754 leaves it to the implementation and the spec does not say
(R267, R268; DESIGN CHOICE, log entry 23). -/
opaque tinyAfterRounding : Bool

/-- Level of an analogue input AIN0 to AIN47 in an lc, in nanovolts (DESIGN CHOICE, log entry 26). -/
opaque ain : Nat → Nat → Int

/-- Levels of VREFP, VREFN and VDDA in an lc, in nanovolts (R69; DESIGN CHOICE, log entry 26). -/
opaque refPins : Nat → Int × Int × Int

/-- Code of a conversion whose reference is not positive, of which R63 and R64 say nothing (DESIGN CHOICE, log entry 28). -/
opaque adcNoRef : Nat → Int

/-- lc that a calibration of the spare core takes, taken modulo 400,000 (R59: within 1 ms; DESIGN CHOICE, log entry 27). -/
opaque spareCalTime : Nat → Nat

/-- What a calibration of the spare core finds: offset correction in 1/1000 LSB, gain correction in ppm, INL after trimming and
segment-linearity trims in 1/1000 LSB (R59; DESIGN CHOICE, log entry 27). -/
opaque spareCal : Nat → Int × Int × Int × List Int

/-- Level of a comparator input in an lc, in nanovolts: 0 to 31 CMPIN0 to CMPIN31, 32 to 47 SNS0 to SNS15 (R85; DESIGN CHOICE, log
entry 29). -/
opaque cmpPin : Nat → Nat → Int

/-- How far a DAC that settles moves in an lc, in parts of 65,536 of what is left, modulo 65,537 (R88: monotonic, else unspecified;
DESIGN CHOICE, log entry 29). -/
opaque dacStep : Nat → Nat

/-- Decision of a comparator under check in lc 55 (R106; DESIGN CHOICE, log entry 29). -/
opaque checkRaw : Nat → Bool

/-- What an SSI sensor sends: the frame's bits, and whether the line is low at the first falling clock edge (DESIGN CHOICE, log entry 35). -/
opaque ssiFrame : Nat → BitVec 40 × Bool

/-- Error of the interpolated angle: 0, 1 or 2 for −1, 0 or +1 LSB (R177; DESIGN CHOICE, log entry 36). -/
opaque angleError : Nat → Fin 3

/-- Results of the flux observer for a set: angle, frequency, flux magnitude, tracking error (R195; DESIGN CHOICE, log entry 37). -/
opaque observer : Nat → Word × Word × Word × Word

/-- Word i of an area that Table 8.10 marks model, as a set leaves it (R468; DESIGN CHOICE, log entry 37). -/
opaque modelWord : Nat → Nat → Word

/-- Coast angle at entry into coast-hold (R198 names none; DESIGN CHOICE, log entry 38). -/
opaque coastStart : Nat → Word

/-- Results of the frequency tracker for a set: angle, frequency before its clamp, integrator (R202; DESIGN CHOICE, log entry 37). -/
opaque tracker : Nat → Word × Word × Word

/-- Results of the profile generator for a tick whose parameters or state are no motion (an infinity, a NaN, a limit or a TS not above 0):
position, velocity and acceleration before their limits, whether a plan computed leaves the soft limits (R203 to R205; DESIGN
CHOICE, log entry 37). -/
opaque profile : Nat → Word × Word × Word × Bool

/-- Fine part that a capture of a comparator level measures (R148: ±30 ps; DESIGN CHOICE, log entry 41). -/
opaque capFine : Nat → Byte

/-- Codes of the general stage's operations, by slot kind, and its IN and OUT selectors (R207 gives none; DESIGN CHOICE, log entry 39). -/
opaque genAlu : BitVec 6 → GenAlu
/-- See `genAlu`. -/
opaque genMem : BitVec 6 → GenMem
/-- See `genAlu`. -/
opaque genCtl : BitVec 6 → GenCtl
/-- What IN reads by its slot word. -/
opaque genIn : Word → GenIn
/-- What IN reads of a source that carries no word, by its number and its level (Table 8.5 states none). -/
opaque genInBit : Nat → Bool → Word
/-- Which of Ln_OUT0 to Ln_OUT3 OUT drives, by its slot word. -/
opaque genOut : Word → Fin 4

/-- lc that a table copy takes beyond one (R214; DESIGN CHOICE, log entry 40). -/
opaque copyTime : Nat → Nat

/-- lc that a flash command, a bulk erase or a refresh step takes, taken modulo its maximum (Table 12.2 gives typical and
maximum times; R321 none; DESIGN CHOICE, log entry 42). -/
opaque flashTime : Nat → Nat

/-- Whether the verify of a flash command passes (R316; DESIGN CHOICE, log entry 42). -/
opaque flashOk : Nat → Bool

/-- Byte left at an address by a flash command that fails its verify (R316; DESIGN CHOICE, log entry 43). -/
opaque flashUnverified : Nat → Nat → Byte

/-- Address under which a DEBUG frame names a register of a halted pair, by its place among them (R375 gives none; DESIGN CHOICE, log
entry 12). -/
opaque dbgAddr : Nat → Word

/-- Whether a flash line reads differently at margin (R320; DESIGN CHOICE, log entry 16). -/
opaque marginDiffers : Nat → Bool

/-- How far a comparator's offset has drifted at a trim check, in codes (R438; DESIGN CHOICE, log entry 16). -/
opaque dacDrift : Nat → Int

/-- What a temperature sensor or a supply monitor measures (R439; DESIGN CHOICE, log entry 16). -/
opaque sensor : Nat → Word

/-- Counts of a ring oscillator over a gate (R440; DESIGN CHOICE, log entry 16). -/
opaque ringCount : Nat → Nat

/-- Bit of a type-0x04 record for a family of error counters (R439 names none; DESIGN CHOICE, log entry 17). -/
opaque errBit : Nat → Fin 32

/-- Whether TW_OWN_IN, high at a takeover, is high for four lc (R382; DESIGN CHOICE, log entry 46). -/
opaque ownHeld : Nat → Bool

/-- lc that a load outside the TCMs and SRAM waits beyond its uncontended time (R262; DESIGN CHOICE, log entry 48). -/
opaque busWait : Nat → Nat

/-- SZ code that INFO shows for a binary64 load or store, to which R255 gives no code (DESIGN CHOICE, log entry 49). -/
opaque szDouble : Fin 8

/-- lc that a check of an authentication takes, taken modulo 2,000,000 (R368: within 5 ms; DESIGN CHOICE, log entry 53). -/
opaque authTime : Nat → Nat

/-- INDEX of a refusal with code 0x13 for a register that no record of the image writes, by its address (R239, Table 9.9;
DEDUCED, log entry 52). -/
opaque noRecord : Nat → BitVec 16

end Sys2Proof.Config
end

