-- ==== Sys2Proof/Machine/Regs.lean ====
section
/-! DEFINITION. The register map, transcribed from the register tables of spec/ (R5, R6, R8, R25, R26): every register
family by its spec name (a family's instance letters kept: PWMn_CFG is PWM0_CFG to PWM15_CFG), its address, its fields with
their access codes and reset values. A field marked reserved has no entry and reads 0 (R7).
Pair-private registers are kept at their debug-alias address 0x4430_8000 + k * 0x1000 (R371). -/

namespace Sys2Proof.Machine

/-- Access codes of Table 0.3 (R6). -/
inductive Acc
  | rw | ro | wo | w1c | w1s | rclr | wlk
  deriving DecidableEq, Repr

/-- One field of a register: bits [hi:lo], access code, reset value. -/
structure FieldDesc where
  hi    : Nat
  lo    : Nat
  acc   : Acc
  reset : Nat
  deriving DecidableEq, Repr

/-- The register families of the device, by their names in spec/. -/
inductive RegName
  -- 01_device_organisation.md
  | SYS_ID
  | SYS_MODE
  | SYS_CLK_STAT
  -- 03_analogue_conversion.md
  | ADC_MAP
  | ADC_ROT_STAT
  | ADC_CAL_STAT
  | ADCx_CTRL
  | ADCx_REF_CFG
  | ADCx_STAT
  | ADCx_SWTRIG
  | ADCx_ERR_CNT
  | ADCx_PREEMPT_CNT
  | ADCx_SEQs_CFG
  | ADCx_ENT_s_e
  | ADCx_RES_s_e
  -- 04_comparators_and_windows.md
  | CMPn_CFG
  | CMPn_THR
  | CMPn_THR_ALT
  | CMPn_STAT
  | CMP_WINk_CFG
  | CMP_CHECK
  | CMP_CHK_STAT
  | CMP_LEVEL0
  | CMP_LEVEL1
  | CMP_ERR_CNT
  -- 05_pwm_generation.md
  | PWM_LOADALL
  | PWM_START
  | PWM_GRPk_CFG
  | PWM_PEND
  | PWM_CAL_STAT
  | PWM_ERR_CNT
  | PWMn_CFG
  | PWMn_PER
  | PWMn_CMPA
  | PWMn_CMPB
  | PWMn_DTA
  | PWMn_DTB
  | PWMn_DTMIN
  | PWMn_MARGIN
  | PWMn_PMIN
  | PWMn_TRG0
  | PWMn_TRG1
  | PWMn_PHASE
  | PWMn_PHFRAC
  | PWMn_SAFE
  | PWMn_CNT
  | PWMn_STAT
  | PWMn_LASTPER
  | PWMn_ERR_CNT
  | PWMn_PER_ACT
  | PWMn_CMPA_ACT
  | PWMn_CMPB_ACT
  -- 06_timers_and_time_of_day.md
  | TMn_CTRL
  | TMn_RELOAD
  | TMn_CNT
  | TMn_CHc_CFG
  | TMn_CHc_VAL
  | TMn_CHc_FINE
  | TMn_STAT
  | TMn_ERR_CNT
  | TM_START
  | TM_STOP
  | TOD_CFG
  | TOD_STAT
  -- 07_position_feedback.md
  | POSn_CFG
  | POSn_SSI_CFG
  | POSn_STAT
  | POSn_ERR_CNT
  -- 08_loop_engines.md
  | LEn_CTRL
  | LEn_STAT
  | LEn_PARAM_SWAP
  | LEn_STROBE
  | LEn_INSET
  | LEn_OBS_CFG
  -- 09_solder_matrix_and_bitstream.md
  | SM_SWEVTj
  | SM_RENj
  | SM_ERR_CNT
  -- 10_cores_and_instruction_set.md
  | LP_LS_CFG
  | LP_LS_STAT
  | LP_SWEEP_CNT
  | LP_ECC_CNT
  -- 11_exceptions_and_events.md
  | LP_EXC_STAT
  | EVC_SRCn_CFG
  | EVC_TGTk_THR
  | EVC_TGTk_STAT
  -- 12_memory_and_flash.md
  | IX_STARVE_LIM
  | FL_WS
  | FL_CMD
  | FL_STAT
  -- 13_dma_and_queues.md
  | DCHn_CFG
  | DCHn_STAT
  | Qn_CFG
  | Qn_STAT
  -- 14_tenants_security_debug.md
  | PTU_VIOLt
  | PTU_LASTVIOL
  | PTU_LASTADDR
  | PTU_RECALL
  | PTU_PAIRk_STAT
  | PTU_FOREIGN_CNT
  | DBG_ID
  | DBG_CTRL
  | DBG_STAT
  | DBG_SAFEGRP
  -- 15_twin_operation.md
  | TW_CTRL
  | TW_STAT
  | TW_EPOCH_CFG
  | TW_REF_CFG
  | TW_AGR_CFG
  | TW_HO
  | TW_ERR_CNT
  -- 16_startup_links_and_background.md
  | SYS_START
  | SYS_SAFE
  -- 06_timers_and_time_of_day.md
  | TOD_NS
  | TOD_SEC_SNAP
  | TOD_FINE_SNAP
  | TOD_ADDEND
  | TOD_SET_SEC
  | TOD_SET_SEC_HI
  | TOD_SET_NS
  | TOD_COMMIT
  | TOD_COMMIT_AT
  | TOD_PPS_NS
  | TOD_PPS_SEC
  | TOD_PPS_FINE
  -- 07_position_feedback.md
  | POSn_POS
  | POSn_MOD
  | POSn_LINES
  | POSn_IDXPOS
  | POSn_IDXDIFF
  | POSn_PRB_POS
  | POSn_PRB_NS
  | POSn_PRB_SEC
  | POSn_DIVNM
  | POSn_SSI_CRC
  | POSn_SC_OFF
  | POSn_SC_GAIN
  | POSn_SC_PHASE
  | POSn_SC_AMP
  | POSn_SPD_X
  | POSn_SPD_TMAX
  | POSn_SPEED
  -- 08_loop_engines.md
  | LEn_OBS_REACQ
  | LEn_OBS_CONF
  | LEn_COAST_LC
  | LEn_SETS
  | LEn_ERR_CNT
  | LEn_GEN_STAT
  | LEn_TBL_SRC
  | LEn_TBL_DST
  | LEn_TBL_CTL
  -- 09_solder_matrix_and_bitstream.md
  | SM_IMAGE
  | SM_CFGGEN
  | SM_SWOWNj
  -- 11_exceptions_and_events.md
  | EVC_PEND_SETj
  | EVC_PEND_CLRj
  | EVC_MASK_SETj
  | EVC_MASK_CLRj
  | EVC_ACTj
  | EVC_CMPL
  | EVC_SPURIOUS_CMPL
  | EVC_ERR_CNT
  | EVC_RR
  | EVC_STAT
  -- 12_memory_and_flash.md
  | IX_RSVb_m
  | IX_BANKb_STAT
  | IX_STARVEm
  | IX_ECC_CNTb
  | FL_KEY
  | FL_ADDR
  | FL_DATAi
  | FL_INTERRUPTEDj
  | FL_ECC_CNT
  | FL_REFRESH_STAT
  | FL_MARGIN_STAT
  | FL_WEAR
  | FL_PL
  | FL_PL_REQ
  -- 13_dma_and_queues.md
  | DCHn_DESC
  | DCHn_CTRL
  | DCHn_CNT
  | DCHn_CUR
  | DCHn_OVR
  | DMA_STAT
  | DMA_ERR_CNT
  | Qn_MARK
  | Qn_TAIL
  | Qn_TAIL_EOP
  | Qn_HEADTAG
  | Qn_HEAD
  | Qn_CTRL
  | Qn_PTR
  | Qn_DROPS
  | Qn_STALL
  | Qn_UNDER
  | Q_POOL_BASE
  | Q_POOL_CFG
  | Q_POOL_ALLOC
  | Q_POOL_FREE
  | Q_POOL_GIVE
  | Q_POOL_STAT
  | Q_POOL_ERR
  | Q_ERR_CNT
  | Q_POOL_TAGi
  | Q_SEMn
  | Q_SEM_FORCE
  -- 14_tenants_security_debug.md
  | PTU_TENt_CFG
  | PTU_TENt_LE
  | PTU_TENt_PWM
  | PTU_TENt_DMA
  | PTU_TENt_Qi
  | PTU_TENt_EVCi
  | PTU_WINt_w_BASE
  | PTU_WINt_w_SIZE
  | PTU_WINt_w_RIGHTS
  | SEC_UIDi
  | SEC_OKHi
  | SEC_FUSE_STAT
  | DBG_AUTH_CTRL
  | DBG_AUTH_CHALi
  | DBG_AUTH_DATAi
  -- 15_twin_operation.md
  | TW_GEN
  | TW_EPOCH_SEQ
  | TW_EPOCH_ACKED
  | TW_BUF0
  | TW_BUF1
  | TW_AGRMAX
  | TW_HOLD
  | TW_PHASE
  | TW_DELAY
  | TW_HO_EPOCH
  | TW_REGk_BASE
  | TW_REGk_LEN
  -- 16_startup_links_and_background.md
  | SYS_MODE_REQ
  | SYS_ADMIT
  | SYS_JRNL_IDX
  | SYS_JRNL_DATAi
  | HP_CFG
  | HP_ERR_CNT
  | ETHn_CFG
  | ETHn_TSFIFO
  | ETHn_ERR_CNT
  | SC_CFG
  | SC_STEN
  | SC_STs_CFG
  | SC_STs_STAT
  | BG_STAT
  | BG_LIFE
  | BG_TEL_SEQ
  deriving DecidableEq, Repr

/-- A named field of a register family. -/
structure Fld where
  reg : RegName
  hi  : Nat
  lo  : Nat
  deriving DecidableEq, Repr

/-- Address of instance (0, 0) of the family. -/
def RegName.base : RegName → Nat
  | .SYS_ID => 0x44000000
  | .SYS_MODE => 0x44000004
  | .SYS_CLK_STAT => 0x44000008
  | .ADC_MAP => 0x40080000
  | .ADC_ROT_STAT => 0x40080004
  | .ADC_CAL_STAT => 0x40080008
  | .ADCx_CTRL => 0x40000000
  | .ADCx_REF_CFG => 0x40000004
  | .ADCx_STAT => 0x40000008
  | .ADCx_SWTRIG => 0x4000000C
  | .ADCx_ERR_CNT => 0x40000010
  | .ADCx_PREEMPT_CNT => 0x40000014
  | .ADCx_SEQs_CFG => 0x40000020
  | .ADCx_ENT_s_e => 0x40000200
  | .ADCx_RES_s_e => 0x40000400
  | .CMPn_CFG => 0x40100000
  | .CMPn_THR => 0x40100004
  | .CMPn_THR_ALT => 0x40100008
  | .CMPn_STAT => 0x4010000C
  | .CMP_WINk_CFG => 0x40100400
  | .CMP_CHECK => 0x40100600
  | .CMP_CHK_STAT => 0x40100604
  | .CMP_LEVEL0 => 0x40100608
  | .CMP_LEVEL1 => 0x4010060C
  | .CMP_ERR_CNT => 0x40100610
  | .PWM_LOADALL => 0x40210000
  | .PWM_START => 0x40210004
  | .PWM_GRPk_CFG => 0x40210040
  | .PWM_PEND => 0x40210080
  | .PWM_CAL_STAT => 0x40210084
  | .PWM_ERR_CNT => 0x40210088
  | .PWMn_CFG => 0x40200000
  | .PWMn_PER => 0x40200004
  | .PWMn_CMPA => 0x40200008
  | .PWMn_CMPB => 0x4020000C
  | .PWMn_DTA => 0x40200010
  | .PWMn_DTB => 0x40200014
  | .PWMn_DTMIN => 0x40200018
  | .PWMn_MARGIN => 0x4020001C
  | .PWMn_PMIN => 0x40200020
  | .PWMn_TRG0 => 0x40200024
  | .PWMn_TRG1 => 0x40200028
  | .PWMn_PHASE => 0x4020002C
  | .PWMn_PHFRAC => 0x40200030
  | .PWMn_SAFE => 0x40200034
  | .PWMn_CNT => 0x40200040
  | .PWMn_STAT => 0x40200044
  | .PWMn_LASTPER => 0x40200048
  | .PWMn_ERR_CNT => 0x4020004C
  | .PWMn_PER_ACT => 0x40200060
  | .PWMn_CMPA_ACT => 0x40200064
  | .PWMn_CMPB_ACT => 0x40200068
  | .TMn_CTRL => 0x40300000
  | .TMn_RELOAD => 0x40300004
  | .TMn_CNT => 0x40300008
  | .TMn_CHc_CFG => 0x40300010
  | .TMn_CHc_VAL => 0x40300020
  | .TMn_CHc_FINE => 0x40300030
  | .TMn_STAT => 0x40300040
  | .TMn_ERR_CNT => 0x40300044
  | .TM_START => 0x40302000
  | .TM_STOP => 0x40302004
  | .TOD_CFG => 0x40700000
  | .TOD_STAT => 0x40700004
  | .POSn_CFG => 0x40400000
  | .POSn_SSI_CFG => 0x40400028
  | .POSn_STAT => 0x4040004C
  | .POSn_ERR_CNT => 0x40400050
  | .LEn_CTRL => 0x40500000
  | .LEn_STAT => 0x40500004
  | .LEn_PARAM_SWAP => 0x40500008
  | .LEn_STROBE => 0x4050000C
  | .LEn_INSET => 0x40500010
  | .LEn_OBS_CFG => 0x40500014
  | .SM_SWEVTj => 0x40600010
  | .SM_RENj => 0x40600100
  | .SM_ERR_CNT => 0x40600200
  | .LP_LS_CFG => 0x44308000
  | .LP_LS_STAT => 0x44308004
  | .LP_SWEEP_CNT => 0x44308008
  | .LP_ECC_CNT => 0x4430800C
  | .LP_EXC_STAT => 0x44308010
  | .EVC_SRCn_CFG => 0x41000000
  | .EVC_TGTk_THR => 0x41001200
  | .EVC_TGTk_STAT => 0x41001204
  | .IX_STARVE_LIM => 0x42300300
  | .FL_WS => 0x42200000
  | .FL_CMD => 0x42200030
  | .FL_STAT => 0x42200034
  | .DCHn_CFG => 0x42000000
  | .DCHn_STAT => 0x4200000C
  | .Qn_CFG => 0x42100000
  | .Qn_STAT => 0x4210001C
  | .PTU_VIOLt => 0x41100A00
  | .PTU_LASTVIOL => 0x41100A20
  | .PTU_LASTADDR => 0x41100A24
  | .PTU_RECALL => 0x41100A40
  | .PTU_PAIRk_STAT => 0x41100A50
  | .PTU_FOREIGN_CNT => 0x41100A60
  | .DBG_ID => 0x44300000
  | .DBG_CTRL => 0x44300004
  | .DBG_STAT => 0x44300008
  | .DBG_SAFEGRP => 0x4430000C
  | .TW_CTRL => 0x43000000
  | .TW_STAT => 0x43000004
  | .TW_EPOCH_CFG => 0x43000014
  | .TW_REF_CFG => 0x43000020
  | .TW_AGR_CFG => 0x43000024
  | .TW_HO => 0x43000034
  | .TW_ERR_CNT => 0x4300003C
  | .SYS_START => 0x4400000C
  | .SYS_SAFE => 0x44000010
  | .TOD_NS => 0x40700010
  | .TOD_SEC_SNAP => 0x40700014
  | .TOD_FINE_SNAP => 0x40700018
  | .TOD_ADDEND => 0x40700020
  | .TOD_SET_SEC => 0x40700030
  | .TOD_SET_SEC_HI => 0x40700034
  | .TOD_SET_NS => 0x40700038
  | .TOD_COMMIT => 0x4070003C
  | .TOD_COMMIT_AT => 0x40700040
  | .TOD_PPS_NS => 0x40700050
  | .TOD_PPS_SEC => 0x40700054
  | .TOD_PPS_FINE => 0x40700058
  | .POSn_POS => 0x40400004
  | .POSn_MOD => 0x40400008
  | .POSn_LINES => 0x4040000C
  | .POSn_IDXPOS => 0x40400010
  | .POSn_IDXDIFF => 0x40400014
  | .POSn_PRB_POS => 0x40400018
  | .POSn_PRB_NS => 0x4040001C
  | .POSn_PRB_SEC => 0x40400020
  | .POSn_DIVNM => 0x40400024
  | .POSn_SSI_CRC => 0x4040002C
  | .POSn_SC_OFF => 0x40400030
  | .POSn_SC_GAIN => 0x40400034
  | .POSn_SC_PHASE => 0x40400038
  | .POSn_SC_AMP => 0x4040003C
  | .POSn_SPD_X => 0x40400040
  | .POSn_SPD_TMAX => 0x40400044
  | .POSn_SPEED => 0x40400048
  | .LEn_OBS_REACQ => 0x40500018
  | .LEn_OBS_CONF => 0x4050001C
  | .LEn_COAST_LC => 0x40500020
  | .LEn_SETS => 0x40500024
  | .LEn_ERR_CNT => 0x40500028
  | .LEn_GEN_STAT => 0x4050002C
  | .LEn_TBL_SRC => 0x40500030
  | .LEn_TBL_DST => 0x40500034
  | .LEn_TBL_CTL => 0x40500038
  | .SM_IMAGE => 0x40600000
  | .SM_CFGGEN => 0x40600004
  | .SM_SWOWNj => 0x40600020
  | .EVC_PEND_SETj => 0x41001000
  | .EVC_PEND_CLRj => 0x41001040
  | .EVC_MASK_SETj => 0x41001080
  | .EVC_MASK_CLRj => 0x410010C0
  | .EVC_ACTj => 0x41001100
  | .EVC_CMPL => 0x41001300
  | .EVC_SPURIOUS_CMPL => 0x41001304
  | .EVC_ERR_CNT => 0x41001308
  | .EVC_RR => 0x4100130C
  | .EVC_STAT => 0x41001310
  | .IX_RSVb_m => 0x42300000
  | .IX_BANKb_STAT => 0x42300200
  | .IX_STARVEm => 0x42300340
  | .IX_ECC_CNTb => 0x42300400
  | .FL_KEY => 0x42200004
  | .FL_ADDR => 0x42200008
  | .FL_DATAi => 0x42200010
  | .FL_INTERRUPTEDj => 0x42200040
  | .FL_ECC_CNT => 0x42200080
  | .FL_REFRESH_STAT => 0x42200084
  | .FL_MARGIN_STAT => 0x42200088
  | .FL_WEAR => 0x4220008C
  | .FL_PL => 0x42200090
  | .FL_PL_REQ => 0x42200094
  | .DCHn_DESC => 0x42000004
  | .DCHn_CTRL => 0x42000008
  | .DCHn_CNT => 0x42000010
  | .DCHn_CUR => 0x42000014
  | .DCHn_OVR => 0x42000018
  | .DMA_STAT => 0x42000400
  | .DMA_ERR_CNT => 0x42000404
  | .Qn_MARK => 0x42100004
  | .Qn_TAIL => 0x42100008
  | .Qn_TAIL_EOP => 0x4210000C
  | .Qn_HEADTAG => 0x42100010
  | .Qn_HEAD => 0x42100014
  | .Qn_CTRL => 0x42100018
  | .Qn_PTR => 0x42100020
  | .Qn_DROPS => 0x42100024
  | .Qn_STALL => 0x42100028
  | .Qn_UNDER => 0x4210002C
  | .Q_POOL_BASE => 0x42104000
  | .Q_POOL_CFG => 0x42104004
  | .Q_POOL_ALLOC => 0x42104008
  | .Q_POOL_FREE => 0x4210400C
  | .Q_POOL_GIVE => 0x42104010
  | .Q_POOL_STAT => 0x42104014
  | .Q_POOL_ERR => 0x42104018
  | .Q_ERR_CNT => 0x42104020
  | .Q_POOL_TAGi => 0x42106000
  | .Q_SEMn => 0x4210A000
  | .Q_SEM_FORCE => 0x4210A100
  | .PTU_TENt_CFG => 0x41100000
  | .PTU_TENt_LE => 0x41100004
  | .PTU_TENt_PWM => 0x41100008
  | .PTU_TENt_DMA => 0x4110000C
  | .PTU_TENt_Qi => 0x41100010
  | .PTU_TENt_EVCi => 0x41100030
  | .PTU_WINt_w_BASE => 0x41100400
  | .PTU_WINt_w_SIZE => 0x41100404
  | .PTU_WINt_w_RIGHTS => 0x41100408
  | .SEC_UIDi => 0x44200000
  | .SEC_OKHi => 0x44200010
  | .SEC_FUSE_STAT => 0x44200030
  | .DBG_AUTH_CTRL => 0x44300010
  | .DBG_AUTH_CHALi => 0x44300040
  | .DBG_AUTH_DATAi => 0x44300080
  | .TW_GEN => 0x43000008
  | .TW_EPOCH_SEQ => 0x4300000C
  | .TW_EPOCH_ACKED => 0x43000010
  | .TW_BUF0 => 0x43000018
  | .TW_BUF1 => 0x4300001C
  | .TW_AGRMAX => 0x43000028
  | .TW_HOLD => 0x4300002C
  | .TW_PHASE => 0x43000030
  | .TW_DELAY => 0x43000038
  | .TW_HO_EPOCH => 0x43000040
  | .TW_REGk_BASE => 0x43000080
  | .TW_REGk_LEN => 0x43000084
  | .SYS_MODE_REQ => 0x44000014
  | .SYS_ADMIT => 0x4400001C
  | .SYS_JRNL_IDX => 0x44000020
  | .SYS_JRNL_DATAi => 0x44000024
  | .HP_CFG => 0x43100000
  | .HP_ERR_CNT => 0x43100004
  | .ETHn_CFG => 0x43200000
  | .ETHn_TSFIFO => 0x43200010
  | .ETHn_ERR_CNT => 0x43200020
  | .SC_CFG => 0x43220000
  | .SC_STEN => 0x43220004
  | .SC_STs_CFG => 0x43220100
  | .SC_STs_STAT => 0x43220104
  | .BG_STAT => 0x44100000
  | .BG_LIFE => 0x44100004
  | .BG_TEL_SEQ => 0x44100008

/-- Instances and strides of the family: (count, stride) of the first index, (count, stride) of the second. -/
def RegName.dims : RegName → (Nat × Nat) × (Nat × Nat)
  | .SYS_ID => ((1, 0x0), (1, 0x0))
  | .SYS_MODE => ((1, 0x0), (1, 0x0))
  | .SYS_CLK_STAT => ((1, 0x0), (1, 0x0))
  | .ADC_MAP => ((1, 0x0), (1, 0x0))
  | .ADC_ROT_STAT => ((1, 0x0), (1, 0x0))
  | .ADC_CAL_STAT => ((1, 0x0), (1, 0x0))
  | .ADCx_CTRL => ((8, 0x10000), (1, 0x0))
  | .ADCx_REF_CFG => ((8, 0x10000), (1, 0x0))
  | .ADCx_STAT => ((8, 0x10000), (1, 0x0))
  | .ADCx_SWTRIG => ((8, 0x10000), (1, 0x0))
  | .ADCx_ERR_CNT => ((8, 0x10000), (1, 0x0))
  | .ADCx_PREEMPT_CNT => ((8, 0x10000), (1, 0x0))
  | .ADCx_SEQs_CFG => ((8, 0x10000), (4, 0x4))
  | .ADCx_ENT_s_e => ((8, 0x10000), (64, 0x4))
  | .ADCx_RES_s_e => ((8, 0x10000), (64, 0x4))
  | .CMPn_CFG => ((48, 0x10), (1, 0x0))
  | .CMPn_THR => ((48, 0x10), (1, 0x0))
  | .CMPn_THR_ALT => ((48, 0x10), (1, 0x0))
  | .CMPn_STAT => ((48, 0x10), (1, 0x0))
  | .CMP_WINk_CFG => ((16, 0x4), (1, 0x0))
  | .CMP_CHECK => ((1, 0x0), (1, 0x0))
  | .CMP_CHK_STAT => ((1, 0x0), (1, 0x0))
  | .CMP_LEVEL0 => ((1, 0x0), (1, 0x0))
  | .CMP_LEVEL1 => ((1, 0x0), (1, 0x0))
  | .CMP_ERR_CNT => ((1, 0x0), (1, 0x0))
  | .PWM_LOADALL => ((1, 0x0), (1, 0x0))
  | .PWM_START => ((1, 0x0), (1, 0x0))
  | .PWM_GRPk_CFG => ((16, 0x4), (1, 0x0))
  | .PWM_PEND => ((1, 0x0), (1, 0x0))
  | .PWM_CAL_STAT => ((1, 0x0), (1, 0x0))
  | .PWM_ERR_CNT => ((1, 0x0), (1, 0x0))
  | .PWMn_CFG => ((16, 0x1000), (1, 0x0))
  | .PWMn_PER => ((16, 0x1000), (1, 0x0))
  | .PWMn_CMPA => ((16, 0x1000), (1, 0x0))
  | .PWMn_CMPB => ((16, 0x1000), (1, 0x0))
  | .PWMn_DTA => ((16, 0x1000), (1, 0x0))
  | .PWMn_DTB => ((16, 0x1000), (1, 0x0))
  | .PWMn_DTMIN => ((16, 0x1000), (1, 0x0))
  | .PWMn_MARGIN => ((16, 0x1000), (1, 0x0))
  | .PWMn_PMIN => ((16, 0x1000), (1, 0x0))
  | .PWMn_TRG0 => ((16, 0x1000), (1, 0x0))
  | .PWMn_TRG1 => ((16, 0x1000), (1, 0x0))
  | .PWMn_PHASE => ((16, 0x1000), (1, 0x0))
  | .PWMn_PHFRAC => ((16, 0x1000), (1, 0x0))
  | .PWMn_SAFE => ((16, 0x1000), (1, 0x0))
  | .PWMn_CNT => ((16, 0x1000), (1, 0x0))
  | .PWMn_STAT => ((16, 0x1000), (1, 0x0))
  | .PWMn_LASTPER => ((16, 0x1000), (1, 0x0))
  | .PWMn_ERR_CNT => ((16, 0x1000), (1, 0x0))
  | .PWMn_PER_ACT => ((16, 0x1000), (1, 0x0))
  | .PWMn_CMPA_ACT => ((16, 0x1000), (1, 0x0))
  | .PWMn_CMPB_ACT => ((16, 0x1000), (1, 0x0))
  | .TMn_CTRL => ((24, 0x100), (1, 0x0))
  | .TMn_RELOAD => ((24, 0x100), (1, 0x0))
  | .TMn_CNT => ((24, 0x100), (1, 0x0))
  | .TMn_CHc_CFG => ((24, 0x100), (4, 0x4))
  | .TMn_CHc_VAL => ((24, 0x100), (4, 0x4))
  | .TMn_CHc_FINE => ((24, 0x100), (4, 0x4))
  | .TMn_STAT => ((24, 0x100), (1, 0x0))
  | .TMn_ERR_CNT => ((24, 0x100), (1, 0x0))
  | .TM_START => ((1, 0x0), (1, 0x0))
  | .TM_STOP => ((1, 0x0), (1, 0x0))
  | .TOD_CFG => ((1, 0x0), (1, 0x0))
  | .TOD_STAT => ((1, 0x0), (1, 0x0))
  | .POSn_CFG => ((8, 0x100), (1, 0x0))
  | .POSn_SSI_CFG => ((8, 0x100), (1, 0x0))
  | .POSn_STAT => ((8, 0x100), (1, 0x0))
  | .POSn_ERR_CNT => ((8, 0x100), (1, 0x0))
  | .LEn_CTRL => ((8, 0x10000), (1, 0x0))
  | .LEn_STAT => ((8, 0x10000), (1, 0x0))
  | .LEn_PARAM_SWAP => ((8, 0x10000), (1, 0x0))
  | .LEn_STROBE => ((8, 0x10000), (1, 0x0))
  | .LEn_INSET => ((8, 0x10000), (1, 0x0))
  | .LEn_OBS_CFG => ((8, 0x10000), (1, 0x0))
  | .SM_SWEVTj => ((2, 0x4), (1, 0x0))
  | .SM_RENj => ((32, 0x4), (1, 0x0))
  | .SM_ERR_CNT => ((1, 0x0), (1, 0x0))
  | .LP_LS_CFG => ((4, 0x1000), (1, 0x0))
  | .LP_LS_STAT => ((4, 0x1000), (1, 0x0))
  | .LP_SWEEP_CNT => ((4, 0x1000), (1, 0x0))
  | .LP_ECC_CNT => ((4, 0x1000), (1, 0x0))
  | .LP_EXC_STAT => ((4, 0x1000), (1, 0x0))
  | .EVC_SRCn_CFG => ((512, 0x4), (1, 0x0))
  | .EVC_TGTk_THR => ((4, 0x10), (1, 0x0))
  | .EVC_TGTk_STAT => ((4, 0x10), (1, 0x0))
  | .IX_STARVE_LIM => ((1, 0x0), (1, 0x0))
  | .FL_WS => ((1, 0x0), (1, 0x0))
  | .FL_CMD => ((1, 0x0), (1, 0x0))
  | .FL_STAT => ((1, 0x0), (1, 0x0))
  | .DCHn_CFG => ((32, 0x20), (1, 0x0))
  | .DCHn_STAT => ((32, 0x20), (1, 0x0))
  | .Qn_CFG => ((256, 0x40), (1, 0x0))
  | .Qn_STAT => ((256, 0x40), (1, 0x0))
  | .PTU_VIOLt => ((8, 0x4), (1, 0x0))
  | .PTU_LASTVIOL => ((1, 0x0), (1, 0x0))
  | .PTU_LASTADDR => ((1, 0x0), (1, 0x0))
  | .PTU_RECALL => ((1, 0x0), (1, 0x0))
  | .PTU_PAIRk_STAT => ((4, 0x4), (1, 0x0))
  | .PTU_FOREIGN_CNT => ((1, 0x0), (1, 0x0))
  | .DBG_ID => ((1, 0x0), (1, 0x0))
  | .DBG_CTRL => ((1, 0x0), (1, 0x0))
  | .DBG_STAT => ((1, 0x0), (1, 0x0))
  | .DBG_SAFEGRP => ((1, 0x0), (1, 0x0))
  | .TW_CTRL => ((1, 0x0), (1, 0x0))
  | .TW_STAT => ((1, 0x0), (1, 0x0))
  | .TW_EPOCH_CFG => ((1, 0x0), (1, 0x0))
  | .TW_REF_CFG => ((1, 0x0), (1, 0x0))
  | .TW_AGR_CFG => ((1, 0x0), (1, 0x0))
  | .TW_HO => ((1, 0x0), (1, 0x0))
  | .TW_ERR_CNT => ((1, 0x0), (1, 0x0))
  | .SYS_START => ((1, 0x0), (1, 0x0))
  | .SYS_SAFE => ((1, 0x0), (1, 0x0))
  | .TOD_NS => ((1, 0x0), (1, 0x0))
  | .TOD_SEC_SNAP => ((1, 0x0), (1, 0x0))
  | .TOD_FINE_SNAP => ((1, 0x0), (1, 0x0))
  | .TOD_ADDEND => ((1, 0x0), (1, 0x0))
  | .TOD_SET_SEC => ((1, 0x0), (1, 0x0))
  | .TOD_SET_SEC_HI => ((1, 0x0), (1, 0x0))
  | .TOD_SET_NS => ((1, 0x0), (1, 0x0))
  | .TOD_COMMIT => ((1, 0x0), (1, 0x0))
  | .TOD_COMMIT_AT => ((1, 0x0), (1, 0x0))
  | .TOD_PPS_NS => ((1, 0x0), (1, 0x0))
  | .TOD_PPS_SEC => ((1, 0x0), (1, 0x0))
  | .TOD_PPS_FINE => ((1, 0x0), (1, 0x0))
  | .POSn_POS => ((8, 0x100), (1, 0x0))
  | .POSn_MOD => ((8, 0x100), (1, 0x0))
  | .POSn_LINES => ((8, 0x100), (1, 0x0))
  | .POSn_IDXPOS => ((8, 0x100), (1, 0x0))
  | .POSn_IDXDIFF => ((8, 0x100), (1, 0x0))
  | .POSn_PRB_POS => ((8, 0x100), (1, 0x0))
  | .POSn_PRB_NS => ((8, 0x100), (1, 0x0))
  | .POSn_PRB_SEC => ((8, 0x100), (1, 0x0))
  | .POSn_DIVNM => ((8, 0x100), (1, 0x0))
  | .POSn_SSI_CRC => ((8, 0x100), (1, 0x0))
  | .POSn_SC_OFF => ((8, 0x100), (1, 0x0))
  | .POSn_SC_GAIN => ((8, 0x100), (1, 0x0))
  | .POSn_SC_PHASE => ((8, 0x100), (1, 0x0))
  | .POSn_SC_AMP => ((8, 0x100), (1, 0x0))
  | .POSn_SPD_X => ((8, 0x100), (1, 0x0))
  | .POSn_SPD_TMAX => ((8, 0x100), (1, 0x0))
  | .POSn_SPEED => ((8, 0x100), (1, 0x0))
  | .LEn_OBS_REACQ => ((8, 0x10000), (1, 0x0))
  | .LEn_OBS_CONF => ((8, 0x10000), (1, 0x0))
  | .LEn_COAST_LC => ((8, 0x10000), (1, 0x0))
  | .LEn_SETS => ((8, 0x10000), (1, 0x0))
  | .LEn_ERR_CNT => ((8, 0x10000), (1, 0x0))
  | .LEn_GEN_STAT => ((8, 0x10000), (1, 0x0))
  | .LEn_TBL_SRC => ((8, 0x10000), (1, 0x0))
  | .LEn_TBL_DST => ((8, 0x10000), (1, 0x0))
  | .LEn_TBL_CTL => ((8, 0x10000), (1, 0x0))
  | .SM_IMAGE => ((1, 0x0), (1, 0x0))
  | .SM_CFGGEN => ((1, 0x0), (1, 0x0))
  | .SM_SWOWNj => ((8, 0x4), (1, 0x0))
  | .EVC_PEND_SETj => ((16, 0x4), (1, 0x0))
  | .EVC_PEND_CLRj => ((16, 0x4), (1, 0x0))
  | .EVC_MASK_SETj => ((16, 0x4), (1, 0x0))
  | .EVC_MASK_CLRj => ((16, 0x4), (1, 0x0))
  | .EVC_ACTj => ((16, 0x4), (1, 0x0))
  | .EVC_CMPL => ((1, 0x0), (1, 0x0))
  | .EVC_SPURIOUS_CMPL => ((1, 0x0), (1, 0x0))
  | .EVC_ERR_CNT => ((1, 0x0), (1, 0x0))
  | .EVC_RR => ((1, 0x0), (1, 0x0))
  | .EVC_STAT => ((1, 0x0), (1, 0x0))
  | .IX_RSVb_m => ((6, 0x40), (13, 0x4))
  | .IX_BANKb_STAT => ((6, 0x4), (1, 0x0))
  | .IX_STARVEm => ((13, 0x4), (1, 0x0))
  | .IX_ECC_CNTb => ((6, 0x4), (1, 0x0))
  | .FL_KEY => ((1, 0x0), (1, 0x0))
  | .FL_ADDR => ((1, 0x0), (1, 0x0))
  | .FL_DATAi => ((8, 0x4), (1, 0x0))
  | .FL_INTERRUPTEDj => ((16, 0x4), (1, 0x0))
  | .FL_ECC_CNT => ((1, 0x0), (1, 0x0))
  | .FL_REFRESH_STAT => ((1, 0x0), (1, 0x0))
  | .FL_MARGIN_STAT => ((1, 0x0), (1, 0x0))
  | .FL_WEAR => ((1, 0x0), (1, 0x0))
  | .FL_PL => ((1, 0x0), (1, 0x0))
  | .FL_PL_REQ => ((1, 0x0), (1, 0x0))
  | .DCHn_DESC => ((32, 0x20), (1, 0x0))
  | .DCHn_CTRL => ((32, 0x20), (1, 0x0))
  | .DCHn_CNT => ((32, 0x20), (1, 0x0))
  | .DCHn_CUR => ((32, 0x20), (1, 0x0))
  | .DCHn_OVR => ((32, 0x20), (1, 0x0))
  | .DMA_STAT => ((1, 0x0), (1, 0x0))
  | .DMA_ERR_CNT => ((1, 0x0), (1, 0x0))
  | .Qn_MARK => ((256, 0x40), (1, 0x0))
  | .Qn_TAIL => ((256, 0x40), (1, 0x0))
  | .Qn_TAIL_EOP => ((256, 0x40), (1, 0x0))
  | .Qn_HEADTAG => ((256, 0x40), (1, 0x0))
  | .Qn_HEAD => ((256, 0x40), (1, 0x0))
  | .Qn_CTRL => ((256, 0x40), (1, 0x0))
  | .Qn_PTR => ((256, 0x40), (1, 0x0))
  | .Qn_DROPS => ((256, 0x40), (1, 0x0))
  | .Qn_STALL => ((256, 0x40), (1, 0x0))
  | .Qn_UNDER => ((256, 0x40), (1, 0x0))
  | .Q_POOL_BASE => ((1, 0x0), (1, 0x0))
  | .Q_POOL_CFG => ((1, 0x0), (1, 0x0))
  | .Q_POOL_ALLOC => ((1, 0x0), (1, 0x0))
  | .Q_POOL_FREE => ((1, 0x0), (1, 0x0))
  | .Q_POOL_GIVE => ((1, 0x0), (1, 0x0))
  | .Q_POOL_STAT => ((1, 0x0), (1, 0x0))
  | .Q_POOL_ERR => ((1, 0x0), (1, 0x0))
  | .Q_ERR_CNT => ((1, 0x0), (1, 0x0))
  | .Q_POOL_TAGi => ((4096, 0x4), (1, 0x0))
  | .Q_SEMn => ((64, 0x4), (1, 0x0))
  | .Q_SEM_FORCE => ((1, 0x0), (1, 0x0))
  | .PTU_TENt_CFG => ((8, 0x80), (1, 0x0))
  | .PTU_TENt_LE => ((8, 0x80), (1, 0x0))
  | .PTU_TENt_PWM => ((8, 0x80), (1, 0x0))
  | .PTU_TENt_DMA => ((8, 0x80), (1, 0x0))
  | .PTU_TENt_Qi => ((8, 0x80), (8, 0x4))
  | .PTU_TENt_EVCi => ((8, 0x80), (16, 0x4))
  | .PTU_WINt_w_BASE => ((8, 0xC0), (16, 0xC))
  | .PTU_WINt_w_SIZE => ((8, 0xC0), (16, 0xC))
  | .PTU_WINt_w_RIGHTS => ((8, 0xC0), (16, 0xC))
  | .SEC_UIDi => ((4, 0x4), (1, 0x0))
  | .SEC_OKHi => ((8, 0x4), (1, 0x0))
  | .SEC_FUSE_STAT => ((1, 0x0), (1, 0x0))
  | .DBG_AUTH_CTRL => ((1, 0x0), (1, 0x0))
  | .DBG_AUTH_CHALi => ((8, 0x4), (1, 0x0))
  | .DBG_AUTH_DATAi => ((32, 0x4), (1, 0x0))
  | .TW_GEN => ((1, 0x0), (1, 0x0))
  | .TW_EPOCH_SEQ => ((1, 0x0), (1, 0x0))
  | .TW_EPOCH_ACKED => ((1, 0x0), (1, 0x0))
  | .TW_BUF0 => ((1, 0x0), (1, 0x0))
  | .TW_BUF1 => ((1, 0x0), (1, 0x0))
  | .TW_AGRMAX => ((1, 0x0), (1, 0x0))
  | .TW_HOLD => ((1, 0x0), (1, 0x0))
  | .TW_PHASE => ((1, 0x0), (1, 0x0))
  | .TW_DELAY => ((1, 0x0), (1, 0x0))
  | .TW_HO_EPOCH => ((1, 0x0), (1, 0x0))
  | .TW_REGk_BASE => ((8, 0x8), (1, 0x0))
  | .TW_REGk_LEN => ((8, 0x8), (1, 0x0))
  | .SYS_MODE_REQ => ((1, 0x0), (1, 0x0))
  | .SYS_ADMIT => ((1, 0x0), (1, 0x0))
  | .SYS_JRNL_IDX => ((1, 0x0), (1, 0x0))
  | .SYS_JRNL_DATAi => ((8, 0x4), (1, 0x0))
  | .HP_CFG => ((1, 0x0), (1, 0x0))
  | .HP_ERR_CNT => ((1, 0x0), (1, 0x0))
  | .ETHn_CFG => ((2, 0x10000), (1, 0x0))
  | .ETHn_TSFIFO => ((2, 0x10000), (1, 0x0))
  | .ETHn_ERR_CNT => ((2, 0x10000), (1, 0x0))
  | .SC_CFG => ((1, 0x0), (1, 0x0))
  | .SC_STEN => ((1, 0x0), (1, 0x0))
  | .SC_STs_CFG => ((32, 0x8), (1, 0x0))
  | .SC_STs_STAT => ((32, 0x8), (1, 0x0))
  | .BG_STAT => ((1, 0x0), (1, 0x0))
  | .BG_LIFE => ((1, 0x0), (1, 0x0))
  | .BG_TEL_SEQ => ((1, 0x0), (1, 0x0))

/-- The fields of the family (Bits, Access and Reset columns). -/
def RegName.fields : RegName → List FieldDesc
  | .SYS_ID => [⟨31, 16, .ro, 0x4816⟩, ⟨15, 12, .ro, 0xa⟩, ⟨11, 8, .ro, 0⟩, ⟨7, 4, .ro, 1⟩]
  | .SYS_MODE => [⟨19, 16, .ro, 0⟩, ⟨15, 8, .ro, 0⟩, ⟨7, 4, .ro, 1⟩, ⟨3, 0, .ro, 2⟩]
  | .SYS_CLK_STAT => [⟨3, 3, .ro, 0⟩, ⟨2, 2, .ro, 1⟩, ⟨1, 0, .ro, 1⟩]
  | .ADC_MAP => [⟨31, 28, .ro, 7⟩, ⟨27, 24, .ro, 6⟩, ⟨23, 20, .ro, 5⟩, ⟨19, 16, .ro, 4⟩, ⟨15, 12, .ro, 3⟩, ⟨11, 8, .ro, 2⟩, ⟨7, 4, .ro, 1⟩, ⟨3, 0, .ro, 0⟩]
  | .ADC_ROT_STAT => [⟨31, 16, .ro, 0⟩, ⟨15, 8, .ro, 0⟩, ⟨6, 4, .ro, 0⟩, ⟨3, 0, .ro, 8⟩]
  | .ADC_CAL_STAT => [⟨31, 31, .ro, 0⟩, ⟨24, 16, .ro, 0⟩, ⟨8, 0, .ro, 0⟩]
  | .ADCx_CTRL => [⟨1, 1, .wo, 0⟩, ⟨0, 0, .rw, 0⟩]
  | .ADCx_REF_CFG => [⟨1, 0, .rw, 0⟩]
  | .ADCx_STAT => [⟨19, 16, .ro, 0⟩, ⟨15, 12, .ro, 0⟩, ⟨11, 10, .ro, 0⟩, ⟨9, 9, .ro, 0⟩, ⟨8, 8, .ro, 0⟩, ⟨7, 4, .ro, 0⟩, ⟨3, 2, .ro, 0⟩, ⟨0, 0, .ro, 0⟩]
  | .ADCx_SWTRIG => [⟨3, 0, .wo, 0⟩]
  | .ADCx_ERR_CNT => [⟨23, 16, .rclr, 0⟩, ⟨15, 0, .rclr, 0⟩]
  | .ADCx_PREEMPT_CNT => [⟨31, 0, .ro, 0⟩]
  | .ADCx_SEQs_CFG => [⟨7, 7, .rw, 0⟩, ⟨6, 6, .rw, 0⟩, ⟨5, 5, .rw, 0⟩, ⟨4, 4, .rw, 0⟩, ⟨3, 0, .rw, 0⟩]
  | .ADCx_ENT_s_e => [⟨15, 8, .rw, 4⟩, ⟨6, 6, .rw, 0⟩, ⟨5, 0, .rw, 0⟩]
  | .ADCx_RES_s_e => [⟨28, 28, .ro, 0⟩, ⟨27, 26, .ro, 3⟩, ⟨25, 25, .ro, 0⟩, ⟨24, 24, .ro, 0⟩, ⟨23, 23, .ro, 0⟩, ⟨22, 22, .ro, 0⟩, ⟨21, 16, .ro, 0⟩, ⟨15, 0, .ro, 0⟩]
  | .CMPn_CFG => [⟨25, 20, .wlk, 0x3f⟩, ⟨19, 19, .wlk, 0⟩, ⟨18, 18, .wlk, 0⟩, ⟨3, 3, .rw, 0⟩, ⟨1, 0, .rw, 0⟩]
  | .CMPn_THR => [⟨11, 0, .rw, 0⟩]
  | .CMPn_THR_ALT => [⟨11, 0, .rw, 0⟩]
  | .CMPn_STAT => [⟨2, 2, .ro, 0⟩, ⟨1, 1, .ro, 0⟩, ⟨0, 0, .ro, 0⟩]
  | .CMP_WINk_CFG => [⟨5, 4, .rw, 0⟩, ⟨3, 3, .ro, 0⟩, ⟨0, 0, .rw, 0⟩]
  | .CMP_CHECK => [⟨12, 12, .wo, 0⟩, ⟨11, 8, .wo, 0⟩, ⟨7, 6, .wo, 0⟩, ⟨5, 0, .wo, 0⟩]
  | .CMP_CHK_STAT => [⟨31, 16, .ro, 0⟩, ⟨15, 14, .ro, 0⟩, ⟨13, 13, .ro, 0⟩, ⟨12, 12, .ro, 0⟩, ⟨11, 11, .ro, 0⟩, ⟨5, 0, .ro, 0⟩]
  | .CMP_LEVEL0 => [⟨31, 0, .ro, 0⟩]
  | .CMP_LEVEL1 => [⟨31, 16, .ro, 0⟩, ⟨15, 0, .ro, 0⟩]
  | .CMP_ERR_CNT => [⟨31, 24, .rclr, 0⟩, ⟨23, 16, .rclr, 0⟩, ⟨15, 0, .rclr, 0⟩]
  | .PWM_LOADALL => [⟨15, 0, .wo, 0⟩]
  | .PWM_START => [⟨15, 0, .wo, 0⟩]
  | .PWM_GRPk_CFG => [⟨1, 0, .rw, 0⟩]
  | .PWM_PEND => [⟨15, 0, .ro, 0⟩]
  | .PWM_CAL_STAT => [⟨31, 16, .ro, 0⟩, ⟨15, 8, .ro, 0⟩, ⟨7, 7, .ro, 0⟩, ⟨5, 0, .ro, 0⟩]
  | .PWM_ERR_CNT => [⟨15, 0, .rclr, 0⟩]
  | .PWMn_CFG => [⟨31, 28, .wlk, 0⟩, ⟨27, 27, .wlk, 0⟩, ⟨26, 26, .wlk, 0⟩, ⟨25, 24, .wlk, 0⟩, ⟨23, 23, .wlk, 0⟩, ⟨19, 16, .wlk, 0xf⟩, ⟨15, 12, .wlk, 0⟩, ⟨7, 7, .wlk, 0⟩, ⟨6, 6, .wlk, 0⟩, ⟨5, 3, .rw, 0⟩, ⟨2, 0, .rw, 0⟩]
  | .PWMn_PER => [⟨15, 0, .rw, 0xffff⟩]
  | .PWMn_CMPA => [⟨23, 8, .rw, 0⟩, ⟨7, 0, .rw, 0⟩]
  | .PWMn_CMPB => [⟨23, 8, .rw, 0⟩, ⟨7, 0, .rw, 0⟩]
  | .PWMn_DTA => [⟨19, 8, .rw, 0⟩, ⟨7, 0, .rw, 0⟩]
  | .PWMn_DTB => [⟨19, 8, .rw, 0⟩, ⟨7, 0, .rw, 0⟩]
  | .PWMn_DTMIN => [⟨19, 8, .rw, 0⟩, ⟨7, 0, .rw, 0⟩]
  | .PWMn_MARGIN => [⟨19, 8, .rw, 0⟩, ⟨7, 0, .rw, 0⟩]
  | .PWMn_PMIN => [⟨15, 0, .rw, 0⟩]
  | .PWMn_TRG0 => [⟨17, 16, .rw, 0⟩, ⟨15, 0, .rw, 0⟩]
  | .PWMn_TRG1 => [⟨17, 16, .rw, 0⟩, ⟨15, 0, .rw, 0⟩]
  | .PWMn_PHASE => [⟨16, 16, .rw, 0⟩, ⟨15, 0, .rw, 0⟩]
  | .PWMn_PHFRAC => [⟨15, 0, .rw, 0⟩]
  | .PWMn_SAFE => [⟨3, 2, .wlk, 2⟩, ⟨1, 0, .wlk, 2⟩]
  | .PWMn_CNT => [⟨16, 16, .ro, 0⟩, ⟨15, 0, .ro, 0⟩]
  | .PWMn_STAT => [⟨11, 8, .ro, 0⟩, ⟨7, 4, .w1c, 0⟩, ⟨3, 3, .ro, 1⟩, ⟨2, 2, .ro, 0⟩, ⟨1, 1, .ro, 0⟩, ⟨0, 0, .ro, 0⟩]
  | .PWMn_LASTPER => [⟨15, 0, .ro, 0⟩]
  | .PWMn_ERR_CNT => [⟨31, 24, .rclr, 0⟩, ⟨23, 16, .rclr, 0⟩, ⟨15, 0, .rclr, 0⟩]
  | .PWMn_PER_ACT => [⟨23, 0, .ro, 0⟩]
  | .PWMn_CMPA_ACT => [⟨23, 0, .ro, 0⟩]
  | .PWMn_CMPB_ACT => [⟨23, 0, .ro, 0⟩]
  | .TMn_CTRL => [⟨11, 10, .wlk, 0⟩, ⟨9, 8, .wlk, 0⟩, ⟨6, 4, .rw, 0⟩, ⟨1, 1, .rw, 0⟩, ⟨0, 0, .rw, 0⟩]
  | .TMn_RELOAD => [⟨31, 0, .rw, 0xffffffff⟩]
  | .TMn_CNT => [⟨31, 0, .ro, 0⟩]
  | .TMn_CHc_CFG => [⟨7, 6, .rw, 0⟩, ⟨5, 5, .wlk, 0⟩, ⟨4, 3, .rw, 0⟩, ⟨2, 1, .rw, 0⟩, ⟨0, 0, .wlk, 0⟩]
  | .TMn_CHc_VAL => [⟨31, 0, .rw, 0⟩]
  | .TMn_CHc_FINE => [⟨8, 8, .ro, 0⟩, ⟨7, 0, .ro, 0⟩]
  | .TMn_STAT => [⟨12, 12, .ro, 0⟩, ⟨11, 8, .w1c, 0⟩, ⟨7, 4, .ro, 0⟩, ⟨3, 0, .w1c, 0⟩]
  | .TMn_ERR_CNT => [⟨31, 16, .rclr, 0⟩, ⟨15, 0, .rclr, 0⟩]
  | .TM_START => [⟨23, 0, .wo, 0⟩]
  | .TM_STOP => [⟨23, 0, .wo, 0⟩]
  | .TOD_CFG => [⟨2, 2, .wlk, 0⟩, ⟨1, 0, .rw, 0⟩]
  | .TOD_STAT => [⟨4, 4, .ro, 0⟩, ⟨3, 3, .w1c, 0⟩, ⟨2, 2, .w1c, 0⟩, ⟨1, 1, .ro, 0⟩, ⟨0, 0, .ro, 0⟩]
  | .POSn_CFG => [⟨31, 31, .rw, 0⟩, ⟨23, 16, .rw, 1⟩, ⟨15, 15, .wlk, 0⟩, ⟨14, 14, .wlk, 0⟩, ⟨13, 12, .rw, 0⟩, ⟨11, 11, .rw, 0⟩, ⟨10, 10, .rw, 0⟩, ⟨9, 8, .rw, 3⟩, ⟨7, 4, .rw, 0⟩, ⟨3, 2, .rw, 2⟩, ⟨1, 0, .wlk, 0⟩]
  | .POSn_SSI_CFG => [⟨31, 24, .rw, 0x50⟩, ⟨19, 16, .rw, 0⟩, ⟨14, 14, .rw, 0⟩, ⟨13, 8, .rw, 0x19⟩, ⟨7, 0, .rw, 0x14⟩]
  | .POSn_STAT => [⟨10, 10, .w1s, 0⟩, ⟨9, 9, .w1c, 0⟩, ⟨8, 8, .w1c, 0⟩, ⟨7, 7, .ro, 0⟩, ⟨6, 6, .w1c, 0⟩, ⟨5, 5, .w1c, 0⟩, ⟨4, 4, .w1c, 0⟩, ⟨3, 3, .ro, 0⟩, ⟨2, 2, .ro, 0⟩, ⟨1, 1, .ro, 0⟩, ⟨0, 0, .ro, 0⟩]
  | .POSn_ERR_CNT => [⟨31, 24, .rclr, 0⟩, ⟨23, 16, .rclr, 0⟩, ⟨15, 8, .rclr, 0⟩, ⟨7, 0, .rclr, 0⟩]
  | .LEn_CTRL => [⟨11, 10, .wlk, 0⟩, ⟨9, 8, .wlk, 0⟩, ⟨7, 7, .wlk, 0⟩, ⟨6, 6, .wlk, 0⟩, ⟨5, 5, .wlk, 0⟩, ⟨4, 4, .wlk, 0⟩, ⟨3, 3, .wlk, 0⟩, ⟨2, 2, .wlk, 0⟩, ⟨1, 1, .wlk, 0⟩, ⟨0, 0, .rw, 0⟩]
  | .LEn_STAT => [⟨15, 8, .ro, 0⟩, ⟨7, 7, .w1c, 0⟩, ⟨6, 6, .w1c, 0⟩, ⟨5, 5, .w1c, 0⟩, ⟨4, 4, .ro, 0⟩, ⟨3, 3, .ro, 0⟩, ⟨2, 2, .ro, 0⟩, ⟨1, 1, .ro, 0⟩, ⟨0, 0, .ro, 0⟩]
  | .LEn_PARAM_SWAP => [⟨31, 16, .ro, 0⟩, ⟨0, 0, .wo, 0⟩]
  | .LEn_STROBE => [⟨15, 0, .wlk, 0⟩]
  | .LEn_INSET => [⟨3, 0, .wlk, 0xf⟩]
  | .LEn_OBS_CFG => [⟨7, 0, .rw, 8⟩]
  | .SM_SWEVTj => [⟨31, 0, .wo, 0⟩]
  | .SM_RENj => [⟨31, 0, .rw, 0⟩]
  | .SM_ERR_CNT => [⟨15, 0, .rclr, 0⟩]
  | .LP_LS_CFG => [⟨23, 8, .rw, 0x400⟩, ⟨0, 0, .rw, 0⟩]
  | .LP_LS_STAT => [⟨31, 31, .ro, 0⟩, ⟨30, 30, .ro, 0⟩, ⟨26, 24, .ro, 0⟩, ⟨23, 16, .ro, 0⟩]
  | .LP_SWEEP_CNT => [⟨31, 0, .ro, 0⟩]
  | .LP_ECC_CNT => [⟨23, 16, .rclr, 0⟩, ⟨15, 0, .rclr, 0⟩]
  | .LP_EXC_STAT => [⟨31, 16, .ro, 0⟩, ⟨15, 8, .ro, 0⟩, ⟨1, 1, .ro, 0⟩, ⟨0, 0, .ro, 0⟩]
  | .EVC_SRCn_CFG => [⟨12, 12, .rw, 0⟩, ⟨11, 8, .rw, 0⟩, ⟨3, 0, .rw, 0xf⟩]
  | .EVC_TGTk_THR => [⟨4, 0, .rw, 0x10⟩]
  | .EVC_TGTk_STAT => [⟨24, 16, .ro, 0⟩, ⟨15, 12, .ro, 0⟩, ⟨11, 11, .ro, 0⟩, ⟨10, 8, .ro, 0⟩, ⟨7, 7, .ro, 0⟩, ⟨4, 0, .ro, 0x10⟩]
  | .IX_STARVE_LIM => [⟨15, 0, .rw, 0x1000⟩]
  | .FL_WS => [⟨11, 8, .ro, 3⟩, ⟨3, 0, .rw, 7⟩]
  | .FL_CMD => [⟨3, 0, .wo, 0⟩]
  | .FL_STAT => [⟨17, 17, .w1c, 0⟩, ⟨16, 16, .w1c, 0⟩, ⟨15, 8, .w1c, 0⟩, ⟨7, 4, .ro, 0⟩, ⟨3, 0, .ro, 0⟩]
  | .DCHn_CFG => [⟨15, 8, .wlk, 0⟩, ⟨5, 4, .wlk, 0⟩, ⟨1, 0, .rw, 3⟩]
  | .DCHn_STAT => [⟨31, 24, .w1c, 0⟩, ⟨4, 4, .ro, 0⟩, ⟨3, 3, .ro, 0⟩, ⟨2, 2, .ro, 0⟩, ⟨1, 1, .ro, 0⟩, ⟨0, 0, .w1c, 0⟩]
  | .Qn_CFG => [⟨31, 28, .wlk, 2⟩, ⟨27, 27, .wlk, 0⟩, ⟨24, 17, .wlk, 0⟩, ⟨16, 0, .wlk, 0⟩]
  | .Qn_STAT => [⟨31, 16, .ro, 0⟩, ⟨3, 3, .ro, 0⟩, ⟨2, 2, .ro, 0⟩, ⟨1, 1, .ro, 0⟩, ⟨0, 0, .ro, 1⟩]
  | .PTU_VIOLt => [⟨15, 0, .rclr, 0⟩]
  | .PTU_LASTVIOL => [⟨11, 8, .ro, 0⟩, ⟨6, 4, .ro, 0⟩, ⟨3, 2, .ro, 0⟩, ⟨1, 0, .ro, 0⟩]
  | .PTU_LASTADDR => [⟨31, 0, .ro, 0⟩]
  | .PTU_RECALL => [⟨1, 0, .wo, 0⟩]
  | .PTU_PAIRk_STAT => [⟨31, 16, .ro, 0⟩, ⟨4, 4, .ro, 0⟩, ⟨2, 0, .ro, 0⟩]
  | .PTU_FOREIGN_CNT => [⟨15, 0, .rclr, 0⟩]
  | .DBG_ID => [⟨31, 0, .ro, 0x4816b47⟩]
  | .DBG_CTRL => [⟨11, 8, .wo, 0⟩, ⟨7, 4, .wo, 0⟩, ⟨3, 3, .wo, 0⟩, ⟨2, 2, .wo, 0⟩, ⟨1, 0, .wo, 0⟩]
  | .DBG_STAT => [⟨15, 12, .ro, 0⟩, ⟨11, 8, .w1c, 0⟩, ⟨7, 6, .ro, 0⟩, ⟨5, 5, .ro, 0⟩, ⟨4, 4, .ro, 0⟩, ⟨3, 3, .ro, 0⟩, ⟨1, 0, .ro, 0⟩]
  | .DBG_SAFEGRP => [⟨15, 0, .rw, 0⟩]
  | .TW_CTRL => [⟨3, 0, .wo, 0⟩]
  | .TW_STAT => [⟨31, 28, .ro, 0⟩, ⟨27, 24, .w1c, 0⟩, ⟨11, 11, .ro, 0⟩, ⟨10, 10, .ro, 0⟩, ⟨9, 9, .ro, 0⟩, ⟨8, 8, .ro, 0⟩, ⟨7, 7, .ro, 0⟩, ⟨6, 6, .ro, 0⟩, ⟨5, 5, .ro, 1⟩, ⟨4, 4, .ro, 0⟩, ⟨3, 3, .ro, 0⟩, ⟨2, 2, .ro, 0⟩, ⟨1, 0, .ro, 1⟩]
  | .TW_EPOCH_CFG => [⟨31, 16, .wlk, 0⟩, ⟨15, 8, .wlk, 0⟩, ⟨7, 0, .wlk, 0⟩]
  | .TW_REF_CFG => [⟨3, 0, .wlk, 0⟩]
  | .TW_AGR_CFG => [⟨15, 0, .wlk, 0⟩]
  | .TW_HO => [⟨31, 28, .ro, 0⟩, ⟨27, 27, .ro, 0⟩, ⟨23, 0, .ro, 0⟩]
  | .TW_ERR_CNT => [⟨31, 24, .rclr, 0⟩, ⟨23, 16, .rclr, 0⟩, ⟨15, 8, .rclr, 0⟩, ⟨7, 0, .rclr, 0⟩]
  | .SYS_START => [⟨31, 24, .ro, 0⟩, ⟨23, 16, .ro, 0⟩, ⟨1, 0, .ro, 0⟩]
  | .SYS_SAFE => [⟨31, 24, .ro, 0⟩, ⟨23, 16, .ro, 0⟩, ⟨15, 8, .rclr, 0⟩, ⟨0, 0, .ro, 0⟩]
  | .TOD_NS => [⟨29, 0, .ro, 0⟩]
  | .TOD_SEC_SNAP => [⟨31, 0, .ro, 0⟩]
  | .TOD_FINE_SNAP => [⟨31, 16, .ro, 0⟩, ⟨7, 0, .ro, 0⟩]
  | .TOD_ADDEND => [⟨31, 0, .rw, 0xa0000000⟩]
  | .TOD_SET_SEC => [⟨31, 0, .rw, 0⟩]
  | .TOD_SET_SEC_HI => [⟨15, 0, .rw, 0⟩]
  | .TOD_SET_NS => [⟨29, 0, .rw, 0⟩]
  | .TOD_COMMIT => [⟨2, 2, .wo, 0⟩, ⟨1, 1, .wo, 0⟩, ⟨0, 0, .wo, 0⟩]
  | .TOD_COMMIT_AT => [⟨29, 0, .rw, 0⟩]
  | .TOD_PPS_NS => [⟨29, 0, .ro, 0⟩]
  | .TOD_PPS_SEC => [⟨31, 0, .ro, 0⟩]
  | .TOD_PPS_FINE => [⟨31, 16, .ro, 0⟩, ⟨7, 0, .ro, 0⟩]
  | .POSn_POS => [⟨31, 0, .rw, 0⟩]
  | .POSn_MOD => [⟨31, 0, .rw, 0⟩]
  | .POSn_LINES => [⟨31, 24, .rw, 0⟩, ⟨23, 0, .rw, 0⟩]
  | .POSn_IDXPOS => [⟨31, 0, .ro, 0⟩]
  | .POSn_IDXDIFF => [⟨31, 0, .ro, 0⟩]
  | .POSn_PRB_POS => [⟨31, 0, .ro, 0⟩]
  | .POSn_PRB_NS => [⟨29, 0, .ro, 0⟩]
  | .POSn_PRB_SEC => [⟨31, 0, .ro, 0⟩]
  | .POSn_DIVNM => [⟨31, 16, .rw, 1⟩, ⟨15, 0, .rw, 1⟩]
  | .POSn_SSI_CRC => [⟨15, 8, .rw, 0⟩, ⟨4, 4, .rw, 0⟩, ⟨3, 0, .rw, 0⟩]
  | .POSn_SC_OFF => [⟨31, 16, .rw, 0⟩, ⟨15, 0, .rw, 0⟩]
  | .POSn_SC_GAIN => [⟨31, 16, .rw, 0x8000⟩, ⟨15, 0, .rw, 0x8000⟩]
  | .POSn_SC_PHASE => [⟨15, 0, .rw, 0⟩]
  | .POSn_SC_AMP => [⟨31, 16, .rw, 0x7fff⟩, ⟨15, 0, .rw, 0⟩]
  | .POSn_SPD_X => [⟨31, 16, .rw, 0x20⟩, ⟨15, 0, .rw, 0x10⟩]
  | .POSn_SPD_TMAX => [⟨31, 0, .rw, 0x3d0900⟩]
  | .POSn_SPEED => [⟨31, 0, .ro, 0⟩]
  | .LEn_OBS_REACQ => [⟨31, 0, .rw, 0x1312d00⟩]
  | .LEn_OBS_CONF => [⟨31, 0, .ro, 0⟩]
  | .LEn_COAST_LC => [⟨31, 0, .ro, 0⟩]
  | .LEn_SETS => [⟨31, 0, .ro, 0⟩]
  | .LEn_ERR_CNT => [⟨31, 24, .rclr, 0⟩, ⟨23, 16, .rclr, 0⟩, ⟨15, 0, .rclr, 0⟩]
  | .LEn_GEN_STAT => [⟨16, 16, .ro, 0⟩, ⟨14, 8, .ro, 0⟩, ⟨5, 0, .ro, 0⟩]
  | .LEn_TBL_SRC => [⟨31, 0, .rw, 0⟩]
  | .LEn_TBL_DST => [⟨18, 0, .rw, 0⟩]
  | .LEn_TBL_CTL => [⟨18, 18, .w1c, 0⟩, ⟨17, 17, .ro, 0⟩, ⟨16, 16, .wo, 0⟩, ⟨15, 0, .rw, 0⟩]
  | .SM_IMAGE => [⟨31, 0, .ro, 0⟩]
  | .SM_CFGGEN => [⟨31, 0, .ro, 0⟩]
  | .SM_SWOWNj => [⟨31, 0, .ro, 0⟩]
  | .EVC_PEND_SETj => [⟨31, 0, .w1s, 0⟩]
  | .EVC_PEND_CLRj => [⟨31, 0, .w1c, 0⟩]
  | .EVC_MASK_SETj => [⟨31, 0, .w1s, 0xffffffff⟩]
  | .EVC_MASK_CLRj => [⟨31, 0, .w1c, 0xffffffff⟩]
  | .EVC_ACTj => [⟨31, 0, .ro, 0⟩]
  | .EVC_CMPL => [⟨8, 0, .wo, 0⟩]
  | .EVC_SPURIOUS_CMPL => [⟨15, 0, .rclr, 0⟩]
  | .EVC_ERR_CNT => [⟨31, 16, .rclr, 0⟩, ⟨15, 0, .rclr, 0⟩]
  | .EVC_RR => [⟨1, 0, .ro, 0⟩]
  | .EVC_STAT => [⟨1, 1, .ro, 0⟩, ⟨0, 0, .ro, 0⟩]
  | .IX_RSVb_m => [⟨9, 0, .ro, 0⟩]
  | .IX_BANKb_STAT => [⟨9, 0, .ro, 0⟩, ⟨31, 16, .ro, 0⟩]
  | .IX_STARVEm => [⟨15, 0, .rclr, 0⟩]
  | .IX_ECC_CNTb => [⟨31, 16, .ro, 0⟩, ⟨15, 0, .rclr, 0⟩]
  | .FL_KEY => [⟨31, 0, .wo, 0⟩]
  | .FL_ADDR => [⟨31, 0, .rw, 0x10000000⟩]
  | .FL_DATAi => [⟨31, 0, .rw, 0⟩]
  | .FL_INTERRUPTEDj => [⟨31, 0, .ro, 0⟩]
  | .FL_ECC_CNT => [⟨15, 0, .rclr, 0⟩]
  | .FL_REFRESH_STAT => [⟨31, 16, .ro, 0⟩, ⟨9, 8, .ro, 0⟩, ⟨6, 0, .ro, 0⟩]
  | .FL_MARGIN_STAT => [⟨15, 0, .ro, 0⟩]
  | .FL_WEAR => [⟨15, 0, .ro, 0⟩]
  | .FL_PL => [⟨1, 0, .ro, 0⟩]
  | .FL_PL_REQ => [⟨1, 0, .wo, 0⟩]
  | .DCHn_DESC => [⟨31, 5, .rw, 0⟩]
  | .DCHn_CTRL => [⟨1, 1, .wo, 0⟩, ⟨0, 0, .wo, 0⟩]
  | .DCHn_CNT => [⟨31, 0, .ro, 0⟩]
  | .DCHn_CUR => [⟨31, 5, .ro, 0⟩]
  | .DCHn_OVR => [⟨15, 0, .rclr, 0⟩]
  | .DMA_STAT => [⟨31, 31, .ro, 0⟩, ⟨28, 24, .ro, 0⟩, ⟨12, 0, .ro, 0⟩]
  | .DMA_ERR_CNT => [⟨15, 0, .rclr, 0⟩]
  | .Qn_MARK => [⟨31, 16, .rw, 1⟩, ⟨15, 0, .rw, 0⟩]
  | .Qn_TAIL => [⟨31, 0, .wo, 0⟩]
  | .Qn_TAIL_EOP => [⟨31, 0, .wo, 0⟩]
  | .Qn_HEADTAG => [⟨2, 2, .ro, 0⟩, ⟨1, 1, .ro, 0⟩, ⟨0, 0, .ro, 0⟩]
  | .Qn_HEAD => [⟨31, 0, .ro, 0⟩]
  | .Qn_CTRL => [⟨1, 1, .wo, 0⟩, ⟨0, 0, .wo, 0⟩]
  | .Qn_PTR => [⟨31, 16, .ro, 0⟩, ⟨15, 0, .ro, 0⟩]
  | .Qn_DROPS => [⟨31, 0, .rclr, 0⟩]
  | .Qn_STALL => [⟨31, 0, .rclr, 0⟩]
  | .Qn_UNDER => [⟨15, 0, .rclr, 0⟩]
  | .Q_POOL_BASE => [⟨31, 8, .wlk, 0⟩]
  | .Q_POOL_CFG => [⟨3, 0, .wlk, 0⟩]
  | .Q_POOL_ALLOC => [⟨31, 0, .ro, 0xffffffff⟩]
  | .Q_POOL_FREE => [⟨31, 0, .wo, 0⟩]
  | .Q_POOL_GIVE => [⟨31, 8, .wo, 0⟩, ⟨2, 0, .wo, 0⟩]
  | .Q_POOL_STAT => [⟨12, 0, .ro, 0x1000⟩]
  | .Q_POOL_ERR => [⟨31, 16, .rclr, 0⟩, ⟨15, 0, .rclr, 0⟩]
  | .Q_ERR_CNT => [⟨31, 16, .rclr, 0⟩, ⟨15, 0, .rclr, 0⟩]
  | .Q_POOL_TAGi => [⟨3, 3, .ro, 0⟩, ⟨2, 0, .ro, 0⟩]
  | .Q_SEMn => [⟨14, 12, .rw, 0⟩, ⟨10, 9, .rw, 0⟩, ⟨8, 8, .rw, 0⟩, ⟨0, 0, .rw, 0⟩]
  | .Q_SEM_FORCE => [⟨5, 0, .wo, 0⟩]
  | .PTU_TENt_CFG => [⟨2, 2, .wlk, 0⟩, ⟨1, 1, .wlk, 0⟩, ⟨0, 0, .wlk, 0⟩]
  | .PTU_TENt_LE => [⟨7, 0, .wlk, 0⟩]
  | .PTU_TENt_PWM => [⟨15, 0, .wlk, 0⟩]
  | .PTU_TENt_DMA => [⟨31, 0, .wlk, 0⟩]
  | .PTU_TENt_Qi => [⟨31, 0, .wlk, 0⟩]
  | .PTU_TENt_EVCi => [⟨31, 0, .wlk, 0⟩]
  | .PTU_WINt_w_BASE => [⟨31, 0, .wlk, 0⟩]
  | .PTU_WINt_w_SIZE => [⟨4, 0, .wlk, 0⟩]
  | .PTU_WINt_w_RIGHTS => [⟨4, 4, .wlk, 0⟩, ⟨3, 3, .wlk, 0⟩, ⟨2, 2, .wlk, 0⟩, ⟨1, 1, .wlk, 0⟩, ⟨0, 0, .wlk, 0⟩]
  | .SEC_UIDi => [⟨31, 0, .ro, 0⟩]
  | .SEC_OKHi => [⟨31, 0, .ro, 0⟩]
  | .SEC_FUSE_STAT => [⟨1, 1, .ro, 0⟩, ⟨0, 0, .ro, 0⟩]
  | .DBG_AUTH_CTRL => [⟨1, 1, .wo, 0⟩, ⟨0, 0, .wo, 0⟩]
  | .DBG_AUTH_CHALi => [⟨31, 0, .ro, 0⟩]
  | .DBG_AUTH_DATAi => [⟨31, 0, .wo, 0⟩]
  | .TW_GEN => [⟨15, 0, .ro, 0⟩]
  | .TW_EPOCH_SEQ => [⟨31, 0, .ro, 0⟩]
  | .TW_EPOCH_ACKED => [⟨31, 0, .ro, 0⟩]
  | .TW_BUF0 => [⟨31, 16, .wlk, 0⟩]
  | .TW_BUF1 => [⟨31, 16, .wlk, 0⟩]
  | .TW_AGRMAX => [⟨31, 0, .wlk, 0x10000⟩]
  | .TW_HOLD => [⟨31, 0, .wlk, 0x13880⟩]
  | .TW_PHASE => [⟨31, 16, .ro, 0⟩, ⟨15, 0, .ro, 0⟩]
  | .TW_DELAY => [⟨15, 0, .ro, 0⟩]
  | .TW_HO_EPOCH => [⟨31, 0, .ro, 0⟩]
  | .TW_REGk_BASE => [⟨31, 2, .wlk, 0⟩]
  | .TW_REGk_LEN => [⟨15, 0, .wlk, 0⟩]
  | .SYS_MODE_REQ => [⟨8, 8, .w1c, 0⟩, ⟨3, 0, .wo, 0⟩]
  | .SYS_ADMIT => [⟨31, 24, .ro, 0⟩, ⟨23, 16, .ro, 0⟩, ⟨15, 0, .ro, 0⟩]
  | .SYS_JRNL_IDX => [⟨10, 0, .rw, 0⟩]
  | .SYS_JRNL_DATAi => [⟨31, 0, .ro, 0⟩]
  | .HP_CFG => [⟨18, 16, .wlk, 0⟩, ⟨15, 8, .wlk, 0⟩, ⟨7, 0, .wlk, 0⟩]
  | .HP_ERR_CNT => [⟨31, 16, .rclr, 0⟩, ⟨15, 0, .rclr, 0⟩]
  | .ETHn_CFG => [⟨31, 16, .rw, 0x27⟩, ⟨1, 1, .rw, 0⟩, ⟨0, 0, .rw, 0⟩]
  | .ETHn_TSFIFO => [⟨31, 0, .ro, 0⟩]
  | .ETHn_ERR_CNT => [⟨31, 16, .rclr, 0⟩, ⟨15, 0, .rclr, 0⟩]
  | .SC_CFG => [⟨31, 16, .wlk, 0x88b5⟩, ⟨9, 8, .wlk, 0⟩, ⟨4, 0, .wlk, 0⟩]
  | .SC_STEN => [⟨31, 0, .rw, 0⟩]
  | .SC_STs_CFG => [⟨15, 8, .wlk, 3⟩, ⟨0, 0, .wlk, 1⟩]
  | .SC_STs_STAT => [⟨31, 31, .ro, 0⟩, ⟨30, 30, .ro, 0⟩, ⟨15, 0, .ro, 0⟩]
  | .BG_STAT => [⟨31, 16, .ro, 0⟩, ⟨15, 0, .ro, 0⟩]
  | .BG_LIFE => [⟨31, 0, .ro, 0⟩]
  | .BG_TEL_SEQ => [⟨15, 0, .ro, 0⟩]

/-- Part 0 of the list of families. -/
def RegName.all0 : List RegName := [
  .SYS_ID, .SYS_MODE, .SYS_CLK_STAT, .ADC_MAP, .ADC_ROT_STAT,
  .ADC_CAL_STAT, .ADCx_CTRL, .ADCx_REF_CFG, .ADCx_STAT, .ADCx_SWTRIG,
  .ADCx_ERR_CNT, .ADCx_PREEMPT_CNT, .ADCx_SEQs_CFG, .ADCx_ENT_s_e, .ADCx_RES_s_e,
  .CMPn_CFG, .CMPn_THR, .CMPn_THR_ALT, .CMPn_STAT, .CMP_WINk_CFG,
  .CMP_CHECK, .CMP_CHK_STAT, .CMP_LEVEL0, .CMP_LEVEL1, .CMP_ERR_CNT,
  .PWM_LOADALL, .PWM_START, .PWM_GRPk_CFG, .PWM_PEND, .PWM_CAL_STAT,
  .PWM_ERR_CNT, .PWMn_CFG, .PWMn_PER, .PWMn_CMPA, .PWMn_CMPB,
  .PWMn_DTA, .PWMn_DTB, .PWMn_DTMIN, .PWMn_MARGIN, .PWMn_PMIN]

/-- Part 1 of the list of families. -/
def RegName.all1 : List RegName := [
  .PWMn_TRG0, .PWMn_TRG1, .PWMn_PHASE, .PWMn_PHFRAC, .PWMn_SAFE,
  .PWMn_CNT, .PWMn_STAT, .PWMn_LASTPER, .PWMn_ERR_CNT, .PWMn_PER_ACT,
  .PWMn_CMPA_ACT, .PWMn_CMPB_ACT, .TMn_CTRL, .TMn_RELOAD, .TMn_CNT,
  .TMn_CHc_CFG, .TMn_CHc_VAL, .TMn_CHc_FINE, .TMn_STAT, .TMn_ERR_CNT,
  .TM_START, .TM_STOP, .TOD_CFG, .TOD_STAT, .POSn_CFG,
  .POSn_SSI_CFG, .POSn_STAT, .POSn_ERR_CNT, .LEn_CTRL, .LEn_STAT,
  .LEn_PARAM_SWAP, .LEn_STROBE, .LEn_INSET, .LEn_OBS_CFG, .SM_SWEVTj,
  .SM_RENj, .SM_ERR_CNT, .LP_LS_CFG, .LP_LS_STAT, .LP_SWEEP_CNT]

/-- Part 2 of the list of families. -/
def RegName.all2 : List RegName := [
  .LP_ECC_CNT, .LP_EXC_STAT, .EVC_SRCn_CFG, .EVC_TGTk_THR, .EVC_TGTk_STAT,
  .IX_STARVE_LIM, .FL_WS, .FL_CMD, .FL_STAT, .DCHn_CFG,
  .DCHn_STAT, .Qn_CFG, .Qn_STAT, .PTU_VIOLt, .PTU_LASTVIOL,
  .PTU_LASTADDR, .PTU_RECALL, .PTU_PAIRk_STAT, .PTU_FOREIGN_CNT, .DBG_ID,
  .DBG_CTRL, .DBG_STAT, .DBG_SAFEGRP, .TW_CTRL, .TW_STAT,
  .TW_EPOCH_CFG, .TW_REF_CFG, .TW_AGR_CFG, .TW_HO, .TW_ERR_CNT,
  .SYS_START, .SYS_SAFE, .TOD_NS, .TOD_SEC_SNAP, .TOD_FINE_SNAP,
  .TOD_ADDEND, .TOD_SET_SEC, .TOD_SET_SEC_HI, .TOD_SET_NS, .TOD_COMMIT]

/-- Part 3 of the list of families. -/
def RegName.all3 : List RegName := [
  .TOD_COMMIT_AT, .TOD_PPS_NS, .TOD_PPS_SEC, .TOD_PPS_FINE, .POSn_POS,
  .POSn_MOD, .POSn_LINES, .POSn_IDXPOS, .POSn_IDXDIFF, .POSn_PRB_POS,
  .POSn_PRB_NS, .POSn_PRB_SEC, .POSn_DIVNM, .POSn_SSI_CRC, .POSn_SC_OFF,
  .POSn_SC_GAIN, .POSn_SC_PHASE, .POSn_SC_AMP, .POSn_SPD_X, .POSn_SPD_TMAX,
  .POSn_SPEED, .LEn_OBS_REACQ, .LEn_OBS_CONF, .LEn_COAST_LC, .LEn_SETS,
  .LEn_ERR_CNT, .LEn_GEN_STAT, .LEn_TBL_SRC, .LEn_TBL_DST, .LEn_TBL_CTL,
  .SM_IMAGE, .SM_CFGGEN, .SM_SWOWNj, .EVC_PEND_SETj, .EVC_PEND_CLRj,
  .EVC_MASK_SETj, .EVC_MASK_CLRj, .EVC_ACTj, .EVC_CMPL, .EVC_SPURIOUS_CMPL]

/-- Part 4 of the list of families. -/
def RegName.all4 : List RegName := [
  .EVC_ERR_CNT, .EVC_RR, .EVC_STAT, .IX_RSVb_m, .IX_BANKb_STAT,
  .IX_STARVEm, .IX_ECC_CNTb, .FL_KEY, .FL_ADDR, .FL_DATAi,
  .FL_INTERRUPTEDj, .FL_ECC_CNT, .FL_REFRESH_STAT, .FL_MARGIN_STAT, .FL_WEAR,
  .FL_PL, .FL_PL_REQ, .DCHn_DESC, .DCHn_CTRL, .DCHn_CNT,
  .DCHn_CUR, .DCHn_OVR, .DMA_STAT, .DMA_ERR_CNT, .Qn_MARK,
  .Qn_TAIL, .Qn_TAIL_EOP, .Qn_HEADTAG, .Qn_HEAD, .Qn_CTRL,
  .Qn_PTR, .Qn_DROPS, .Qn_STALL, .Qn_UNDER, .Q_POOL_BASE,
  .Q_POOL_CFG, .Q_POOL_ALLOC, .Q_POOL_FREE, .Q_POOL_GIVE, .Q_POOL_STAT]

/-- Part 5 of the list of families. -/
def RegName.all5 : List RegName := [
  .Q_POOL_ERR, .Q_ERR_CNT, .Q_POOL_TAGi, .Q_SEMn, .Q_SEM_FORCE,
  .PTU_TENt_CFG, .PTU_TENt_LE, .PTU_TENt_PWM, .PTU_TENt_DMA, .PTU_TENt_Qi,
  .PTU_TENt_EVCi, .PTU_WINt_w_BASE, .PTU_WINt_w_SIZE, .PTU_WINt_w_RIGHTS, .SEC_UIDi,
  .SEC_OKHi, .SEC_FUSE_STAT, .DBG_AUTH_CTRL, .DBG_AUTH_CHALi, .DBG_AUTH_DATAi,
  .TW_GEN, .TW_EPOCH_SEQ, .TW_EPOCH_ACKED, .TW_BUF0, .TW_BUF1,
  .TW_AGRMAX, .TW_HOLD, .TW_PHASE, .TW_DELAY, .TW_HO_EPOCH,
  .TW_REGk_BASE, .TW_REGk_LEN, .SYS_MODE_REQ, .SYS_ADMIT, .SYS_JRNL_IDX,
  .SYS_JRNL_DATAi, .HP_CFG, .HP_ERR_CNT, .ETHn_CFG, .ETHn_TSFIFO]

/-- Part 6 of the list of families. -/
def RegName.all6 : List RegName := [
  .ETHn_ERR_CNT, .SC_CFG, .SC_STEN, .SC_STs_CFG, .SC_STs_STAT,
  .BG_STAT, .BG_LIFE, .BG_TEL_SEQ]

/-- Every register family. -/
def RegName.all : List RegName :=
  RegName.all0 ++ RegName.all1 ++ RegName.all2 ++ RegName.all3 ++ RegName.all4 ++ RegName.all5 ++ RegName.all6

/-- Address of instance (i, j) of a family. -/
def RegName.addr (r : RegName) (i j : Nat) : Nat :=
  r.base + i * r.dims.1.2 + j * r.dims.2.2

/-- The instance of family `r` that lies at address `a`, if any. -/
def RegName.indexOf (r : RegName) (a : Nat) : Option (Nat × Nat) :=
  let c0 := r.dims.1.1; let s0 := r.dims.1.2
  let c1 := r.dims.2.1; let s1 := r.dims.2.2
  if a < r.base then none else
  let o := a - r.base
  let i := if s0 = 0 then 0 else o / s0
  let o1 := if s0 = 0 then o else o % s0
  let j := if s1 = 0 then 0 else o1 / s1
  if i < c0 ∧ j < c1 ∧ r.addr i j = a then some (i, j) else none

/-- The register at a word address of the peripheral region (R25); `none` where no chapter assigns one. -/
def regAt (a : Nat) : Option (RegName × Nat × Nat) :=
  RegName.all.findSome? fun r => (r.indexOf a).map fun ij => (r, ij.1, ij.2)

/-- The bits of a word that field [hi:lo] covers. -/
def fieldMask (hi lo : Nat) : Word := BitVec.ofNat 32 (2 ^ (hi + 1 - lo) - 1) <<< lo

/-- Value of bits [hi:lo]. -/
def getBits (w : Word) (hi lo : Nat) : Nat := (w >>> lo).toNat % 2 ^ (hi + 1 - lo)

/-- `w` with bits [hi:lo] set to the low bits of `v`. -/
def setBits (w : Word) (hi lo v : Nat) : Word :=
  (w &&& ~~~ fieldMask hi lo) ||| ((BitVec.ofNat 32 v <<< lo) &&& fieldMask hi lo)

/-- Reset column of a register (R8). ADCx_RES_s_e.TAG is 16 s + e, and IX_RSVb_m of master 11 is 10 (Table 12.9). -/
def RegName.reset (r : RegName) (_i j : Nat) : Word :=
  let w := r.fields.foldl (fun w f => setBits w f.hi f.lo f.reset) 0
  match r with
  | .ADCx_RES_s_e => setBits w 21 16 j
  | .IX_RSVb_m => if j = 11 then 10 else 0
  | _ => w

/-- What the register at address `a` holds after reset; an address without a register reads 0. -/
def regDefault (a : Nat) : Word :=
  match regAt a with
  | some (r, i, j) => r.reset i j
  | none => 0

/-! The fields by name: REGISTER_FIELD. -/

def F.SYS_ID_PART : Fld := ⟨.SYS_ID, 31, 16⟩
def F.SYS_ID_STEP_MAJ : Fld := ⟨.SYS_ID, 15, 12⟩
def F.SYS_ID_STEP_MIN : Fld := ⟨.SYS_ID, 11, 8⟩
def F.SYS_ID_GRADE : Fld := ⟨.SYS_ID, 7, 4⟩
def F.SYS_MODE_HALTED : Fld := ⟨.SYS_MODE, 19, 16⟩
def F.SYS_MODE_CHANGES : Fld := ⟨.SYS_MODE, 15, 8⟩
def F.SYS_MODE_PREV : Fld := ⟨.SYS_MODE, 7, 4⟩
def F.SYS_MODE_MODE : Fld := ⟨.SYS_MODE, 3, 0⟩
def F.SYS_CLK_STAT_CLK_LOST : Fld := ⟨.SYS_CLK_STAT, 3, 3⟩
def F.SYS_CLK_STAT_PLL_LOCK : Fld := ⟨.SYS_CLK_STAT, 2, 2⟩
def F.SYS_CLK_STAT_XIN_SEL : Fld := ⟨.SYS_CLK_STAT, 1, 0⟩
def F.ADC_MAP_CORE_H : Fld := ⟨.ADC_MAP, 31, 28⟩
def F.ADC_MAP_CORE_G : Fld := ⟨.ADC_MAP, 27, 24⟩
def F.ADC_MAP_CORE_F : Fld := ⟨.ADC_MAP, 23, 20⟩
def F.ADC_MAP_CORE_E : Fld := ⟨.ADC_MAP, 19, 16⟩
def F.ADC_MAP_CORE_D : Fld := ⟨.ADC_MAP, 15, 12⟩
def F.ADC_MAP_CORE_C : Fld := ⟨.ADC_MAP, 11, 8⟩
def F.ADC_MAP_CORE_B : Fld := ⟨.ADC_MAP, 7, 4⟩
def F.ADC_MAP_CORE_A : Fld := ⟨.ADC_MAP, 3, 0⟩
def F.ADC_ROT_STAT_SWAPS : Fld := ⟨.ADC_ROT_STAT, 31, 16⟩
def F.ADC_ROT_STAT_SKIPS : Fld := ⟨.ADC_ROT_STAT, 15, 8⟩
def F.ADC_ROT_STAT_NEXT : Fld := ⟨.ADC_ROT_STAT, 6, 4⟩
def F.ADC_ROT_STAT_SPARE : Fld := ⟨.ADC_ROT_STAT, 3, 0⟩
def F.ADC_CAL_STAT_DEGRADED : Fld := ⟨.ADC_CAL_STAT, 31, 31⟩
def F.ADC_CAL_STAT_AGED : Fld := ⟨.ADC_CAL_STAT, 24, 16⟩
def F.ADC_CAL_STAT_FAIL : Fld := ⟨.ADC_CAL_STAT, 8, 0⟩
def F.ADCx_CTRL_ABORT : Fld := ⟨.ADCx_CTRL, 1, 1⟩
def F.ADCx_CTRL_EN : Fld := ⟨.ADCx_CTRL, 0, 0⟩
def F.ADCx_REF_CFG_SRC : Fld := ⟨.ADCx_REF_CFG, 1, 0⟩
def F.ADCx_STAT_PENDING : Fld := ⟨.ADCx_STAT, 19, 16⟩
def F.ADCx_STAT_INTR_ENT : Fld := ⟨.ADCx_STAT, 15, 12⟩
def F.ADCx_STAT_INTR_SEQ : Fld := ⟨.ADCx_STAT, 11, 10⟩
def F.ADCx_STAT_INTR : Fld := ⟨.ADCx_STAT, 9, 9⟩
def F.ADCx_STAT_BUSY : Fld := ⟨.ADCx_STAT, 8, 8⟩
def F.ADCx_STAT_RUN_ENT : Fld := ⟨.ADCx_STAT, 7, 4⟩
def F.ADCx_STAT_RUN_SEQ : Fld := ⟨.ADCx_STAT, 3, 2⟩
def F.ADCx_STAT_REFRDY : Fld := ⟨.ADCx_STAT, 0, 0⟩
def F.ADCx_SWTRIG_TRIG : Fld := ⟨.ADCx_SWTRIG, 3, 0⟩
def F.ADCx_ERR_CNT_REFUSE : Fld := ⟨.ADCx_ERR_CNT, 23, 16⟩
def F.ADCx_ERR_CNT_OVR : Fld := ⟨.ADCx_ERR_CNT, 15, 0⟩
def F.ADCx_PREEMPT_CNT_COUNT : Fld := ⟨.ADCx_PREEMPT_CNT, 31, 0⟩
def F.ADCx_SEQs_CFG_DONEEVT : Fld := ⟨.ADCx_SEQs_CFG, 7, 7⟩
def F.ADCx_SEQs_CFG_DMAREQ : Fld := ⟨.ADCx_SEQs_CFG, 6, 6⟩
def F.ADCx_SEQs_CFG_EN : Fld := ⟨.ADCx_SEQs_CFG, 5, 5⟩
def F.ADCx_SEQs_CFG_CLASS : Fld := ⟨.ADCx_SEQs_CFG, 4, 4⟩
def F.ADCx_SEQs_CFG_LEN : Fld := ⟨.ADCx_SEQs_CFG, 3, 0⟩
def F.ADCx_ENT_s_e_ACQ : Fld := ⟨.ADCx_ENT_s_e, 15, 8⟩
def F.ADCx_ENT_s_e_DIFF : Fld := ⟨.ADCx_ENT_s_e, 6, 6⟩
def F.ADCx_ENT_s_e_INSEL : Fld := ⟨.ADCx_ENT_s_e, 5, 0⟩
def F.ADCx_RES_s_e_NRDY : Fld := ⟨.ADCx_RES_s_e, 28, 28⟩
def F.ADCx_RES_s_e_AGE : Fld := ⟨.ADCx_RES_s_e, 27, 26⟩
def F.ADCx_RES_s_e_SETTLE : Fld := ⟨.ADCx_RES_s_e, 25, 25⟩
def F.ADCx_RES_s_e_SUB : Fld := ⟨.ADCx_RES_s_e, 24, 24⟩
def F.ADCx_RES_s_e_OOR : Fld := ⟨.ADCx_RES_s_e, 23, 23⟩
def F.ADCx_RES_s_e_STALE : Fld := ⟨.ADCx_RES_s_e, 22, 22⟩
def F.ADCx_RES_s_e_TAG : Fld := ⟨.ADCx_RES_s_e, 21, 16⟩
def F.ADCx_RES_s_e_VALUE : Fld := ⟨.ADCx_RES_s_e, 15, 0⟩
def F.CMPn_CFG_PARTNER : Fld := ⟨.CMPn_CFG, 25, 20⟩
def F.CMPn_CFG_TRIP : Fld := ⟨.CMPn_CFG, 19, 19⟩
def F.CMPn_CFG_ISPARTNER : Fld := ⟨.CMPn_CFG, 18, 18⟩
def F.CMPn_CFG_POL : Fld := ⟨.CMPn_CFG, 3, 3⟩
def F.CMPn_CFG_MODE : Fld := ⟨.CMPn_CFG, 1, 0⟩
def F.CMPn_THR_CODE : Fld := ⟨.CMPn_THR, 11, 0⟩
def F.CMPn_THR_ALT_CODE : Fld := ⟨.CMPn_THR_ALT, 11, 0⟩
def F.CMPn_STAT_SETTLING : Fld := ⟨.CMPn_STAT, 2, 2⟩
def F.CMPn_STAT_CHECKING : Fld := ⟨.CMPn_STAT, 1, 1⟩
def F.CMPn_STAT_LEVEL : Fld := ⟨.CMPn_STAT, 0, 0⟩
def F.CMP_WINk_CFG_GSEL : Fld := ⟨.CMP_WINk_CFG, 5, 4⟩
def F.CMP_WINk_CFG_INV : Fld := ⟨.CMP_WINk_CFG, 3, 3⟩
def F.CMP_WINk_CFG_EN : Fld := ⟨.CMP_WINk_CFG, 0, 0⟩
def F.CMP_CHECK_GO : Fld := ⟨.CMP_CHECK, 12, 12⟩
def F.CMP_CHECK_LADSEL : Fld := ⟨.CMP_CHECK, 11, 8⟩
def F.CMP_CHECK_KIND : Fld := ⟨.CMP_CHECK, 7, 6⟩
def F.CMP_CHECK_CMP : Fld := ⟨.CMP_CHECK, 5, 0⟩
def F.CMP_CHK_STAT_COUNT : Fld := ⟨.CMP_CHK_STAT, 31, 16⟩
def F.CMP_CHK_STAT_RESULT : Fld := ⟨.CMP_CHK_STAT, 15, 14⟩
def F.CMP_CHK_STAT_RAW : Fld := ⟨.CMP_CHK_STAT, 13, 13⟩
def F.CMP_CHK_STAT_BUSY : Fld := ⟨.CMP_CHK_STAT, 12, 12⟩
def F.CMP_CHK_STAT_WAITING : Fld := ⟨.CMP_CHK_STAT, 11, 11⟩
def F.CMP_CHK_STAT_CMP : Fld := ⟨.CMP_CHK_STAT, 5, 0⟩
def F.CMP_LEVEL0_LEVEL : Fld := ⟨.CMP_LEVEL0, 31, 0⟩
def F.CMP_LEVEL1_INSIDE : Fld := ⟨.CMP_LEVEL1, 31, 16⟩
def F.CMP_LEVEL1_LEVEL : Fld := ⟨.CMP_LEVEL1, 15, 0⟩
def F.CMP_ERR_CNT_CHK_REFUSED : Fld := ⟨.CMP_ERR_CNT, 31, 24⟩
def F.CMP_ERR_CNT_TICK_IGN : Fld := ⟨.CMP_ERR_CNT, 23, 16⟩
def F.CMP_ERR_CNT_THR_CONFLICT : Fld := ⟨.CMP_ERR_CNT, 15, 0⟩
def F.PWM_LOADALL_MASK : Fld := ⟨.PWM_LOADALL, 15, 0⟩
def F.PWM_START_GEN : Fld := ⟨.PWM_START, 15, 0⟩
def F.PWM_GRPk_CFG_LDPT : Fld := ⟨.PWM_GRPk_CFG, 1, 0⟩
def F.PWM_PEND_PEND : Fld := ⟨.PWM_PEND, 15, 0⟩
def F.PWM_CAL_STAT_ROUNDS : Fld := ⟨.PWM_CAL_STAT, 31, 16⟩
def F.PWM_CAL_STAT_SKIPS : Fld := ⟨.PWM_CAL_STAT, 15, 8⟩
def F.PWM_CAL_STAT_FAIL : Fld := ⟨.PWM_CAL_STAT, 7, 7⟩
def F.PWM_CAL_STAT_OUT : Fld := ⟨.PWM_CAL_STAT, 5, 0⟩
def F.PWM_ERR_CNT_MERGE : Fld := ⟨.PWM_ERR_CNT, 15, 0⟩
def F.PWMn_CFG_GRP : Fld := ⟨.PWMn_CFG, 31, 28⟩
def F.PWMn_CFG_FOLLOW : Fld := ⟨.PWMn_CFG, 27, 27⟩
def F.PWMn_CFG_ALOW : Fld := ⟨.PWMn_CFG, 26, 26⟩
def F.PWMn_CFG_OUTMODE : Fld := ⟨.PWMn_CFG, 25, 24⟩
def F.PWMn_CFG_DTMODE : Fld := ⟨.PWMn_CFG, 23, 23⟩
def F.PWMn_CFG_TRIPLAT : Fld := ⟨.PWMn_CFG, 19, 16⟩
def F.PWMn_CFG_TRIPEN : Fld := ⟨.PWMn_CFG, 15, 12⟩
def F.PWMn_CFG_POLB : Fld := ⟨.PWMn_CFG, 7, 7⟩
def F.PWMn_CFG_POLA : Fld := ⟨.PWMn_CFG, 6, 6⟩
def F.PWMn_CFG_PRE : Fld := ⟨.PWMn_CFG, 5, 3⟩
def F.PWMn_CFG_MODE : Fld := ⟨.PWMn_CFG, 2, 0⟩
def F.PWMn_PER_PER : Fld := ⟨.PWMn_PER, 15, 0⟩
def F.PWMn_CMPA_COARSE : Fld := ⟨.PWMn_CMPA, 23, 8⟩
def F.PWMn_CMPA_FINE : Fld := ⟨.PWMn_CMPA, 7, 0⟩
def F.PWMn_CMPB_COARSE : Fld := ⟨.PWMn_CMPB, 23, 8⟩
def F.PWMn_CMPB_FINE : Fld := ⟨.PWMn_CMPB, 7, 0⟩
def F.PWMn_DTA_LC : Fld := ⟨.PWMn_DTA, 19, 8⟩
def F.PWMn_DTA_FINE : Fld := ⟨.PWMn_DTA, 7, 0⟩
def F.PWMn_DTB_LC : Fld := ⟨.PWMn_DTB, 19, 8⟩
def F.PWMn_DTB_FINE : Fld := ⟨.PWMn_DTB, 7, 0⟩
def F.PWMn_DTMIN_LC : Fld := ⟨.PWMn_DTMIN, 19, 8⟩
def F.PWMn_DTMIN_FINE : Fld := ⟨.PWMn_DTMIN, 7, 0⟩
def F.PWMn_MARGIN_LC : Fld := ⟨.PWMn_MARGIN, 19, 8⟩
def F.PWMn_MARGIN_FINE : Fld := ⟨.PWMn_MARGIN, 7, 0⟩
def F.PWMn_PMIN_PMIN : Fld := ⟨.PWMn_PMIN, 15, 0⟩
def F.PWMn_TRG0_DIR : Fld := ⟨.PWMn_TRG0, 17, 16⟩
def F.PWMn_TRG0_COUNT : Fld := ⟨.PWMn_TRG0, 15, 0⟩
def F.PWMn_TRG1_DIR : Fld := ⟨.PWMn_TRG1, 17, 16⟩
def F.PWMn_TRG1_COUNT : Fld := ⟨.PWMn_TRG1, 15, 0⟩
def F.PWMn_PHASE_DOWN : Fld := ⟨.PWMn_PHASE, 16, 16⟩
def F.PWMn_PHASE_COUNT : Fld := ⟨.PWMn_PHASE, 15, 0⟩
def F.PWMn_PHFRAC_FRAC : Fld := ⟨.PWMn_PHFRAC, 15, 0⟩
def F.PWMn_SAFE_B : Fld := ⟨.PWMn_SAFE, 3, 2⟩
def F.PWMn_SAFE_A : Fld := ⟨.PWMn_SAFE, 1, 0⟩
def F.PWMn_CNT_DOWN : Fld := ⟨.PWMn_CNT, 16, 16⟩
def F.PWMn_CNT_COUNT : Fld := ⟨.PWMn_CNT, 15, 0⟩
def F.PWMn_STAT_TRIPIN : Fld := ⟨.PWMn_STAT, 11, 8⟩
def F.PWMn_STAT_TRIPPED : Fld := ⟨.PWMn_STAT, 7, 4⟩
def F.PWMn_STAT_SAFE : Fld := ⟨.PWMn_STAT, 3, 3⟩
def F.PWMn_STAT_WAIT : Fld := ⟨.PWMn_STAT, 2, 2⟩
def F.PWMn_STAT_PEND : Fld := ⟨.PWMn_STAT, 1, 1⟩
def F.PWMn_STAT_RUN : Fld := ⟨.PWMn_STAT, 0, 0⟩
def F.PWMn_LASTPER_LASTPER : Fld := ⟨.PWMn_LASTPER, 15, 0⟩
def F.PWMn_ERR_CNT_WRCONF : Fld := ⟨.PWMn_ERR_CNT, 31, 24⟩
def F.PWMn_ERR_CNT_PMAX : Fld := ⟨.PWMn_ERR_CNT, 23, 16⟩
def F.PWMn_ERR_CNT_NOTRANS : Fld := ⟨.PWMn_ERR_CNT, 15, 0⟩
def F.PWMn_PER_ACT_VALUE : Fld := ⟨.PWMn_PER_ACT, 23, 0⟩
def F.PWMn_CMPA_ACT_VALUE : Fld := ⟨.PWMn_CMPA_ACT, 23, 0⟩
def F.PWMn_CMPB_ACT_VALUE : Fld := ⟨.PWMn_CMPB_ACT, 23, 0⟩
def F.TMn_CTRL_IDLE : Fld := ⟨.TMn_CTRL, 11, 10⟩
def F.TMn_CTRL_PINOE : Fld := ⟨.TMn_CTRL, 9, 8⟩
def F.TMn_CTRL_PRE : Fld := ⟨.TMn_CTRL, 6, 4⟩
def F.TMn_CTRL_ONESHOT : Fld := ⟨.TMn_CTRL, 1, 1⟩
def F.TMn_CTRL_EN : Fld := ⟨.TMn_CTRL, 0, 0⟩
def F.TMn_RELOAD_RELOAD : Fld := ⟨.TMn_RELOAD, 31, 0⟩
def F.TMn_CNT_COUNT : Fld := ⟨.TMn_CNT, 31, 0⟩
def F.TMn_CHc_CFG_CAPEDGE : Fld := ⟨.TMn_CHc_CFG, 7, 6⟩
def F.TMn_CHc_CFG_CAPSRC : Fld := ⟨.TMn_CHc_CFG, 5, 5⟩
def F.TMn_CHc_CFG_ZEROACT : Fld := ⟨.TMn_CHc_CFG, 4, 3⟩
def F.TMn_CHc_CFG_MATCHACT : Fld := ⟨.TMn_CHc_CFG, 2, 1⟩
def F.TMn_CHc_CFG_MODE : Fld := ⟨.TMn_CHc_CFG, 0, 0⟩
def F.TMn_CHc_VAL_VALUE : Fld := ⟨.TMn_CHc_VAL, 31, 0⟩
def F.TMn_CHc_FINE_FV : Fld := ⟨.TMn_CHc_FINE, 8, 8⟩
def F.TMn_CHc_FINE_FINE : Fld := ⟨.TMn_CHc_FINE, 7, 0⟩
def F.TMn_STAT_RUN : Fld := ⟨.TMn_STAT, 12, 12⟩
def F.TMn_STAT_OVF : Fld := ⟨.TMn_STAT, 11, 8⟩
def F.TMn_STAT_FIRED : Fld := ⟨.TMn_STAT, 7, 4⟩
def F.TMn_STAT_CAPF : Fld := ⟨.TMn_STAT, 3, 0⟩
def F.TMn_ERR_CNT_WRCONF : Fld := ⟨.TMn_ERR_CNT, 31, 16⟩
def F.TMn_ERR_CNT_CAPOVR : Fld := ⟨.TMn_ERR_CNT, 15, 0⟩
def F.TM_START_TMR : Fld := ⟨.TM_START, 23, 0⟩
def F.TM_STOP_TMR : Fld := ⟨.TM_STOP, 23, 0⟩
def F.TOD_CFG_PPSOUT : Fld := ⟨.TOD_CFG, 2, 2⟩
def F.TOD_CFG_SRC : Fld := ⟨.TOD_CFG, 1, 0⟩
def F.TOD_STAT_PENDING : Fld := ⟨.TOD_STAT, 4, 4⟩
def F.TOD_STAT_SETERR : Fld := ⟨.TOD_STAT, 3, 3⟩
def F.TOD_STAT_CLAMP : Fld := ⟨.TOD_STAT, 2, 2⟩
def F.TOD_STAT_PPS_LOST : Fld := ⟨.TOD_STAT, 1, 1⟩
def F.TOD_STAT_VALID : Fld := ⟨.TOD_STAT, 0, 0⟩
def F.POSn_CFG_EN : Fld := ⟨.POSn_CFG, 31, 31⟩
def F.POSn_CFG_DWELL : Fld := ⟨.POSn_CFG, 23, 16⟩
def F.POSn_CFG_ENCOE : Fld := ⟨.POSn_CFG, 15, 15⟩
def F.POSn_CFG_PRBSRC : Fld := ⟨.POSn_CFG, 14, 14⟩
def F.POSn_CFG_PRBEDGE : Fld := ⟨.POSn_CFG, 13, 12⟩
def F.POSn_CFG_REFREQ : Fld := ⟨.POSn_CFG, 11, 11⟩
def F.POSn_CFG_ZRST : Fld := ⟨.POSn_CFG, 10, 10⟩
def F.POSn_CFG_ZQUAL : Fld := ⟨.POSn_CFG, 9, 8⟩
def F.POSn_CFG_FILT : Fld := ⟨.POSn_CFG, 7, 4⟩
def F.POSn_CFG_MULT : Fld := ⟨.POSn_CFG, 3, 2⟩
def F.POSn_CFG_MODE : Fld := ⟨.POSn_CFG, 1, 0⟩
def F.POSn_SSI_CFG_MONO : Fld := ⟨.POSn_SSI_CFG, 31, 24⟩
def F.POSn_SSI_CFG_DLY : Fld := ⟨.POSn_SSI_CFG, 19, 16⟩
def F.POSn_SSI_CFG_GRAY : Fld := ⟨.POSn_SSI_CFG, 14, 14⟩
def F.POSn_SSI_CFG_LEN : Fld := ⟨.POSn_SSI_CFG, 13, 8⟩
def F.POSn_SSI_CFG_DIV : Fld := ⟨.POSn_SSI_CFG, 7, 0⟩
def F.POSn_STAT_BUSY : Fld := ⟨.POSn_STAT, 10, 10⟩
def F.POSn_STAT_PRBOVF : Fld := ⟨.POSn_STAT, 9, 9⟩
def F.POSn_STAT_PRBF : Fld := ⟨.POSn_STAT, 8, 8⟩
def F.POSn_STAT_SSIERR : Fld := ⟨.POSn_STAT, 7, 7⟩
def F.POSn_STAT_AMPERR : Fld := ⟨.POSn_STAT, 6, 6⟩
def F.POSn_STAT_IDXERR : Fld := ⟨.POSn_STAT, 5, 5⟩
def F.POSn_STAT_QERR : Fld := ⟨.POSn_STAT, 4, 4⟩
def F.POSn_STAT_REF : Fld := ⟨.POSn_STAT, 3, 3⟩
def F.POSn_STAT_METHOD : Fld := ⟨.POSn_STAT, 2, 2⟩
def F.POSn_STAT_DIR : Fld := ⟨.POSn_STAT, 1, 1⟩
def F.POSn_STAT_VALID : Fld := ⟨.POSn_STAT, 0, 0⟩
def F.POSn_ERR_CNT_IDX : Fld := ⟨.POSn_ERR_CNT, 31, 24⟩
def F.POSn_ERR_CNT_SSI : Fld := ⟨.POSn_ERR_CNT, 23, 16⟩
def F.POSn_ERR_CNT_SSIOVR : Fld := ⟨.POSn_ERR_CNT, 15, 8⟩
def F.POSn_ERR_CNT_SIG : Fld := ⟨.POSn_ERR_CNT, 7, 0⟩
def F.LEn_CTRL_GENPOS : Fld := ⟨.LEn_CTRL, 11, 10⟩
def F.LEn_CTRL_OUTSRC : Fld := ⟨.LEn_CTRL, 9, 8⟩
def F.LEn_CTRL_OBSFEED : Fld := ⟨.LEn_CTRL, 7, 7⟩
def F.LEn_CTRL_GEN : Fld := ⟨.LEn_CTRL, 6, 6⟩
def F.LEn_CTRL_OBS : Fld := ⟨.LEn_CTRL, 5, 5⟩
def F.LEn_CTRL_PRF : Fld := ⟨.LEn_CTRL, 4, 4⟩
def F.LEn_CTRL_FTR : Fld := ⟨.LEn_CTRL, 3, 3⟩
def F.LEn_CTRL_VLT : Fld := ⟨.LEn_CTRL, 2, 2⟩
def F.LEn_CTRL_CUR : Fld := ⟨.LEn_CTRL, 1, 1⟩
def F.LEn_CTRL_EN : Fld := ⟨.LEn_CTRL, 0, 0⟩
def F.LEn_STAT_LOWCNT : Fld := ⟨.LEn_STAT, 15, 8⟩
def F.LEn_STAT_NAN : Fld := ⟨.LEn_STAT, 7, 7⟩
def F.LEn_STAT_SLOVER : Fld := ⟨.LEn_STAT, 6, 6⟩
def F.LEn_STAT_SAFEREQ : Fld := ⟨.LEn_STAT, 5, 5⟩
def F.LEn_STAT_RECOV : Fld := ⟨.LEn_STAT, 4, 4⟩
def F.LEn_STAT_COAST : Fld := ⟨.LEn_STAT, 3, 3⟩
def F.LEn_STAT_BANK : Fld := ⟨.LEn_STAT, 2, 2⟩
def F.LEn_STAT_HELD : Fld := ⟨.LEn_STAT, 1, 1⟩
def F.LEn_STAT_RUN : Fld := ⟨.LEn_STAT, 0, 0⟩
def F.LEn_PARAM_SWAP_COUNT : Fld := ⟨.LEn_PARAM_SWAP, 31, 16⟩
def F.LEn_PARAM_SWAP_SWAP : Fld := ⟨.LEn_PARAM_SWAP, 0, 0⟩
def F.LEn_STROBE_MASK : Fld := ⟨.LEn_STROBE, 15, 0⟩
def F.LEn_INSET_MARK : Fld := ⟨.LEn_INSET, 3, 0⟩
def F.LEn_OBS_CFG_N : Fld := ⟨.LEn_OBS_CFG, 7, 0⟩
def F.SM_SWEVTj_RAISE : Fld := ⟨.SM_SWEVTj, 31, 0⟩
def F.SM_RENj_EN : Fld := ⟨.SM_RENj, 31, 0⟩
def F.SM_ERR_CNT_FOREIGN : Fld := ⟨.SM_ERR_CNT, 15, 0⟩
def F.LP_LS_CFG_LATMAX : Fld := ⟨.LP_LS_CFG, 23, 8⟩
def F.LP_LS_CFG_LATENT : Fld := ⟨.LP_LS_CFG, 0, 0⟩
def F.LP_LS_STAT_FAULT : Fld := ⟨.LP_LS_STAT, 31, 31⟩
def F.LP_LS_STAT_LATPEND : Fld := ⟨.LP_LS_STAT, 30, 30⟩
def F.LP_LS_STAT_GROUP : Fld := ⟨.LP_LS_STAT, 26, 24⟩
def F.LP_LS_STAT_INJ : Fld := ⟨.LP_LS_STAT, 23, 16⟩
def F.LP_SWEEP_CNT_COUNT : Fld := ⟨.LP_SWEEP_CNT, 31, 0⟩
def F.LP_ECC_CNT_IC_DE : Fld := ⟨.LP_ECC_CNT, 23, 16⟩
def F.LP_ECC_CNT_TCM_CE : Fld := ⟨.LP_ECC_CNT, 15, 0⟩
def F.LP_EXC_STAT_SEQ : Fld := ⟨.LP_EXC_STAT, 31, 16⟩
def F.LP_EXC_STAT_DCODE : Fld := ⟨.LP_EXC_STAT, 15, 8⟩
def F.LP_EXC_STAT_DOUBLE : Fld := ⟨.LP_EXC_STAT, 1, 1⟩
def F.LP_EXC_STAT_ARMED : Fld := ⟨.LP_EXC_STAT, 0, 0⟩
def F.EVC_SRCn_CFG_CLASS : Fld := ⟨.EVC_SRCn_CFG, 12, 12⟩
def F.EVC_SRCn_CFG_TARGETS : Fld := ⟨.EVC_SRCn_CFG, 11, 8⟩
def F.EVC_SRCn_CFG_PRIO : Fld := ⟨.EVC_SRCn_CFG, 3, 0⟩
def F.EVC_TGTk_THR_THR : Fld := ⟨.EVC_TGTk_THR, 4, 0⟩
def F.EVC_TGTk_STAT_LAST : Fld := ⟨.EVC_TGTk_STAT, 24, 16⟩
def F.EVC_TGTk_STAT_NACT : Fld := ⟨.EVC_TGTk_STAT, 15, 12⟩
def F.EVC_TGTk_STAT_HALTED : Fld := ⟨.EVC_TGTk_STAT, 11, 11⟩
def F.EVC_TGTk_STAT_TID : Fld := ⟨.EVC_TGTk_STAT, 10, 8⟩
def F.EVC_TGTk_STAT_IE : Fld := ⟨.EVC_TGTk_STAT, 7, 7⟩
def F.EVC_TGTk_STAT_RUN : Fld := ⟨.EVC_TGTk_STAT, 4, 0⟩
def F.IX_STARVE_LIM_LIM : Fld := ⟨.IX_STARVE_LIM, 15, 0⟩
def F.FL_WS_WSMIN : Fld := ⟨.FL_WS, 11, 8⟩
def F.FL_WS_WS : Fld := ⟨.FL_WS, 3, 0⟩
def F.FL_CMD_OP : Fld := ⟨.FL_CMD, 3, 0⟩
def F.FL_STAT_WSCLAMP : Fld := ⟨.FL_STAT, 17, 17⟩
def F.FL_STAT_DONE : Fld := ⟨.FL_STAT, 16, 16⟩
def F.FL_STAT_ERR : Fld := ⟨.FL_STAT, 15, 8⟩
def F.FL_STAT_REFR : Fld := ⟨.FL_STAT, 7, 4⟩
def F.FL_STAT_BUSY : Fld := ⟨.FL_STAT, 3, 0⟩
def F.DCHn_CFG_PREQ : Fld := ⟨.DCHn_CFG, 15, 8⟩
def F.DCHn_CFG_REQ : Fld := ⟨.DCHn_CFG, 5, 4⟩
def F.DCHn_CFG_PRIO : Fld := ⟨.DCHn_CFG, 1, 0⟩
def F.DCHn_STAT_ERR : Fld := ⟨.DCHn_STAT, 31, 24⟩
def F.DCHn_STAT_WAITQ : Fld := ⟨.DCHn_STAT, 4, 4⟩
def F.DCHn_STAT_REQ : Fld := ⟨.DCHn_STAT, 3, 3⟩
def F.DCHn_STAT_ACTIVE : Fld := ⟨.DCHn_STAT, 2, 2⟩
def F.DCHn_STAT_BUSY : Fld := ⟨.DCHn_STAT, 1, 1⟩
def F.DCHn_STAT_DONE : Fld := ⟨.DCHn_STAT, 0, 0⟩
def F.Qn_CFG_LOG2D : Fld := ⟨.Qn_CFG, 31, 28⟩
def F.Qn_CFG_CREDIT : Fld := ⟨.Qn_CFG, 27, 27⟩
def F.Qn_CFG_PRODT : Fld := ⟨.Qn_CFG, 24, 17⟩
def F.Qn_CFG_BASE : Fld := ⟨.Qn_CFG, 16, 0⟩
def F.Qn_STAT_FILL : Fld := ⟨.Qn_STAT, 31, 16⟩
def F.Qn_STAT_DROPPING : Fld := ⟨.Qn_STAT, 3, 3⟩
def F.Qn_STAT_REQ : Fld := ⟨.Qn_STAT, 2, 2⟩
def F.Qn_STAT_FULL : Fld := ⟨.Qn_STAT, 1, 1⟩
def F.Qn_STAT_EMPTY : Fld := ⟨.Qn_STAT, 0, 0⟩
def F.PTU_VIOLt_COUNT : Fld := ⟨.PTU_VIOLt, 15, 0⟩
def F.PTU_LASTVIOL_MASTER : Fld := ⟨.PTU_LASTVIOL, 11, 8⟩
def F.PTU_LASTVIOL_TENANT : Fld := ⟨.PTU_LASTVIOL, 6, 4⟩
def F.PTU_LASTVIOL_PRIV : Fld := ⟨.PTU_LASTVIOL, 3, 2⟩
def F.PTU_LASTVIOL_KIND : Fld := ⟨.PTU_LASTVIOL, 1, 0⟩
def F.PTU_LASTADDR_ADDR : Fld := ⟨.PTU_LASTADDR, 31, 0⟩
def F.PTU_RECALL_PAIR : Fld := ⟨.PTU_RECALL, 1, 0⟩
def F.PTU_PAIRk_STAT_SWITCHES : Fld := ⟨.PTU_PAIRk_STAT, 31, 16⟩
def F.PTU_PAIRk_STAT_RECALLP : Fld := ⟨.PTU_PAIRk_STAT, 4, 4⟩
def F.PTU_PAIRk_STAT_TID : Fld := ⟨.PTU_PAIRk_STAT, 2, 0⟩
def F.PTU_FOREIGN_CNT_COUNT : Fld := ⟨.PTU_FOREIGN_CNT, 15, 0⟩
def F.DBG_ID_IDCODE : Fld := ⟨.DBG_ID, 31, 0⟩
def F.DBG_CTRL_STEP : Fld := ⟨.DBG_CTRL, 11, 8⟩
def F.DBG_CTRL_HALT : Fld := ⟨.DBG_CTRL, 7, 4⟩
def F.DBG_CTRL_RESUME : Fld := ⟨.DBG_CTRL, 3, 3⟩
def F.DBG_CTRL_DETACH : Fld := ⟨.DBG_CTRL, 2, 2⟩
def F.DBG_CTRL_ATTACH : Fld := ⟨.DBG_CTRL, 1, 0⟩
def F.DBG_STAT_HALTED : Fld := ⟨.DBG_STAT, 15, 12⟩
def F.DBG_STAT_ERR : Fld := ⟨.DBG_STAT, 11, 8⟩
def F.DBG_STAT_FAILS : Fld := ⟨.DBG_STAT, 7, 6⟩
def F.DBG_STAT_LOCKED : Fld := ⟨.DBG_STAT, 5, 5⟩
def F.DBG_STAT_AUTH : Fld := ⟨.DBG_STAT, 4, 4⟩
def F.DBG_STAT_PORT : Fld := ⟨.DBG_STAT, 3, 3⟩
def F.DBG_STAT_STATE : Fld := ⟨.DBG_STAT, 1, 0⟩
def F.DBG_SAFEGRP_SAFE : Fld := ⟨.DBG_SAFEGRP, 15, 0⟩
def F.TW_CTRL_CMD : Fld := ⟨.TW_CTRL, 3, 0⟩
def F.TW_STAT_PEERMODE : Fld := ⟨.TW_STAT, 31, 28⟩
def F.TW_STAT_CMDERR : Fld := ⟨.TW_STAT, 27, 24⟩
def F.TW_STAT_APPLYING : Fld := ⟨.TW_STAT, 11, 11⟩
def F.TW_STAT_FHOLD : Fld := ⟨.TW_STAT, 10, 10⟩
def F.TW_STAT_LINKLOST : Fld := ⟨.TW_STAT, 9, 9⟩
def F.TW_STAT_LOCK : Fld := ⟨.TW_STAT, 8, 8⟩
def F.TW_STAT_PAIRED : Fld := ⟨.TW_STAT, 7, 7⟩
def F.TW_STAT_ROLE : Fld := ⟨.TW_STAT, 6, 6⟩
def F.TW_STAT_FAULT_IN : Fld := ⟨.TW_STAT, 5, 5⟩
def F.TW_STAT_OWN_IN : Fld := ⟨.TW_STAT, 4, 4⟩
def F.TW_STAT_OWN : Fld := ⟨.TW_STAT, 3, 3⟩
def F.TW_STAT_FAULT_OUT : Fld := ⟨.TW_STAT, 2, 2⟩
def F.TW_STAT_LINK : Fld := ⟨.TW_STAT, 1, 0⟩
def F.TW_EPOCH_CFG_CAPOFS : Fld := ⟨.TW_EPOCH_CFG, 31, 16⟩
def F.TW_EPOCH_CFG_LEMASK : Fld := ⟨.TW_EPOCH_CFG, 15, 8⟩
def F.TW_EPOCH_CFG_EPDIV : Fld := ⟨.TW_EPOCH_CFG, 7, 0⟩
def F.TW_REF_CFG_REFGEN : Fld := ⟨.TW_REF_CFG, 3, 0⟩
def F.TW_AGR_CFG_GEN : Fld := ⟨.TW_AGR_CFG, 15, 0⟩
def F.TW_HO_CAUSE : Fld := ⟨.TW_HO, 31, 28⟩
def F.TW_HO_FORCED : Fld := ⟨.TW_HO, 27, 27⟩
def F.TW_HO_WAIT : Fld := ⟨.TW_HO, 23, 0⟩
def F.TW_ERR_CNT_FRAMECRC : Fld := ⟨.TW_ERR_CNT, 31, 24⟩
def F.TW_ERR_CNT_EPDISC : Fld := ⟨.TW_ERR_CNT, 23, 16⟩
def F.TW_ERR_CNT_EPSKIP : Fld := ⟨.TW_ERR_CNT, 15, 8⟩
def F.TW_ERR_CNT_HBMISS : Fld := ⟨.TW_ERR_CNT, 7, 0⟩
def F.SYS_START_VCAUSE : Fld := ⟨.SYS_START, 31, 24⟩
def F.SYS_START_LOADS : Fld := ⟨.SYS_START, 23, 16⟩
def F.SYS_START_SRC : Fld := ⟨.SYS_START, 1, 0⟩
def F.SYS_SAFE_CAUSE : Fld := ⟨.SYS_SAFE, 31, 24⟩
def F.SYS_SAFE_SUB : Fld := ⟨.SYS_SAFE, 23, 16⟩
def F.SYS_SAFE_GLITCH : Fld := ⟨.SYS_SAFE, 15, 8⟩
def F.SYS_SAFE_SAFE_N : Fld := ⟨.SYS_SAFE, 0, 0⟩
def F.TOD_NS_NS : Fld := ⟨.TOD_NS, 29, 0⟩
def F.TOD_SEC_SNAP_SEC : Fld := ⟨.TOD_SEC_SNAP, 31, 0⟩
def F.TOD_FINE_SNAP_SECHI : Fld := ⟨.TOD_FINE_SNAP, 31, 16⟩
def F.TOD_FINE_SNAP_FINE : Fld := ⟨.TOD_FINE_SNAP, 7, 0⟩
def F.TOD_ADDEND_ADDEND : Fld := ⟨.TOD_ADDEND, 31, 0⟩
def F.TOD_SET_SEC_SEC : Fld := ⟨.TOD_SET_SEC, 31, 0⟩
def F.TOD_SET_SEC_HI_SECHI : Fld := ⟨.TOD_SET_SEC_HI, 15, 0⟩
def F.TOD_SET_NS_NS : Fld := ⟨.TOD_SET_NS, 29, 0⟩
def F.TOD_COMMIT_CANCEL : Fld := ⟨.TOD_COMMIT, 2, 2⟩
def F.TOD_COMMIT_TIMED : Fld := ⟨.TOD_COMMIT, 1, 1⟩
def F.TOD_COMMIT_GO : Fld := ⟨.TOD_COMMIT, 0, 0⟩
def F.TOD_COMMIT_AT_AT : Fld := ⟨.TOD_COMMIT_AT, 29, 0⟩
def F.TOD_PPS_NS_NS : Fld := ⟨.TOD_PPS_NS, 29, 0⟩
def F.TOD_PPS_SEC_SEC : Fld := ⟨.TOD_PPS_SEC, 31, 0⟩
def F.TOD_PPS_FINE_SECHI : Fld := ⟨.TOD_PPS_FINE, 31, 16⟩
def F.TOD_PPS_FINE_FINE : Fld := ⟨.TOD_PPS_FINE, 7, 0⟩
def F.POSn_POS_POS : Fld := ⟨.POSn_POS, 31, 0⟩
def F.POSn_MOD_MOD : Fld := ⟨.POSn_MOD, 31, 0⟩
def F.POSn_LINES_TOL : Fld := ⟨.POSn_LINES, 31, 24⟩
def F.POSn_LINES_LINES : Fld := ⟨.POSn_LINES, 23, 0⟩
def F.POSn_IDXPOS_IDXPOS : Fld := ⟨.POSn_IDXPOS, 31, 0⟩
def F.POSn_IDXDIFF_D : Fld := ⟨.POSn_IDXDIFF, 31, 0⟩
def F.POSn_PRB_POS_POS : Fld := ⟨.POSn_PRB_POS, 31, 0⟩
def F.POSn_PRB_NS_NS : Fld := ⟨.POSn_PRB_NS, 29, 0⟩
def F.POSn_PRB_SEC_SEC : Fld := ⟨.POSn_PRB_SEC, 31, 0⟩
def F.POSn_DIVNM_N : Fld := ⟨.POSn_DIVNM, 31, 16⟩
def F.POSn_DIVNM_M : Fld := ⟨.POSn_DIVNM, 15, 0⟩
def F.POSn_SSI_CRC_POLY : Fld := ⟨.POSn_SSI_CRC, 15, 8⟩
def F.POSn_SSI_CRC_INV : Fld := ⟨.POSn_SSI_CRC, 4, 4⟩
def F.POSn_SSI_CRC_CRCLEN : Fld := ⟨.POSn_SSI_CRC, 3, 0⟩
def F.POSn_SC_OFF_OFFS : Fld := ⟨.POSn_SC_OFF, 31, 16⟩
def F.POSn_SC_OFF_OFFC : Fld := ⟨.POSn_SC_OFF, 15, 0⟩
def F.POSn_SC_GAIN_GS : Fld := ⟨.POSn_SC_GAIN, 31, 16⟩
def F.POSn_SC_GAIN_GC : Fld := ⟨.POSn_SC_GAIN, 15, 0⟩
def F.POSn_SC_PHASE_PHASE : Fld := ⟨.POSn_SC_PHASE, 15, 0⟩
def F.POSn_SC_AMP_AMAX : Fld := ⟨.POSn_SC_AMP, 31, 16⟩
def F.POSn_SC_AMP_AMIN : Fld := ⟨.POSn_SC_AMP, 15, 0⟩
def F.POSn_SPD_X_XHI : Fld := ⟨.POSn_SPD_X, 31, 16⟩
def F.POSn_SPD_X_XLO : Fld := ⟨.POSn_SPD_X, 15, 0⟩
def F.POSn_SPD_TMAX_TMAX : Fld := ⟨.POSn_SPD_TMAX, 31, 0⟩
def F.POSn_SPEED_SPEED : Fld := ⟨.POSn_SPEED, 31, 0⟩
def F.LEn_OBS_REACQ_REACQ : Fld := ⟨.LEn_OBS_REACQ, 31, 0⟩
def F.LEn_OBS_CONF_C : Fld := ⟨.LEn_OBS_CONF, 31, 0⟩
def F.LEn_COAST_LC_LC : Fld := ⟨.LEn_COAST_LC, 31, 0⟩
def F.LEn_SETS_SETS : Fld := ⟨.LEn_SETS, 31, 0⟩
def F.LEn_ERR_CNT_ACTWR : Fld := ⟨.LEn_ERR_CNT, 31, 24⟩
def F.LEn_ERR_CNT_NAN : Fld := ⟨.LEn_ERR_CNT, 23, 16⟩
def F.LEn_ERR_CNT_OVR : Fld := ⟨.LEn_ERR_CNT, 15, 0⟩
def F.LEn_GEN_STAT_BUSY : Fld := ⟨.LEn_GEN_STAT, 16, 16⟩
def F.LEn_GEN_STAT_BUNDLES : Fld := ⟨.LEn_GEN_STAT, 14, 8⟩
def F.LEn_GEN_STAT_LAST : Fld := ⟨.LEn_GEN_STAT, 5, 0⟩
def F.LEn_TBL_SRC_SRC : Fld := ⟨.LEn_TBL_SRC, 31, 0⟩
def F.LEn_TBL_DST_DST : Fld := ⟨.LEn_TBL_DST, 18, 0⟩
def F.LEn_TBL_CTL_ERR : Fld := ⟨.LEn_TBL_CTL, 18, 18⟩
def F.LEn_TBL_CTL_BUSY : Fld := ⟨.LEn_TBL_CTL, 17, 17⟩
def F.LEn_TBL_CTL_GO : Fld := ⟨.LEn_TBL_CTL, 16, 16⟩
def F.LEn_TBL_CTL_LEN : Fld := ⟨.LEn_TBL_CTL, 15, 0⟩
def F.SM_IMAGE_BUILD : Fld := ⟨.SM_IMAGE, 31, 0⟩
def F.SM_CFGGEN_CFGGEN : Fld := ⟨.SM_CFGGEN, 31, 0⟩
def F.SM_SWOWNj_OWN : Fld := ⟨.SM_SWOWNj, 31, 0⟩
def F.EVC_PEND_SETj_PEND : Fld := ⟨.EVC_PEND_SETj, 31, 0⟩
def F.EVC_PEND_CLRj_PEND : Fld := ⟨.EVC_PEND_CLRj, 31, 0⟩
def F.EVC_MASK_SETj_MASK : Fld := ⟨.EVC_MASK_SETj, 31, 0⟩
def F.EVC_MASK_CLRj_MASK : Fld := ⟨.EVC_MASK_CLRj, 31, 0⟩
def F.EVC_ACTj_ACT : Fld := ⟨.EVC_ACTj, 31, 0⟩
def F.EVC_CMPL_SRC : Fld := ⟨.EVC_CMPL, 8, 0⟩
def F.EVC_SPURIOUS_CMPL_COUNT : Fld := ⟨.EVC_SPURIOUS_CMPL, 15, 0⟩
def F.EVC_ERR_CNT_MERGE : Fld := ⟨.EVC_ERR_CNT, 31, 16⟩
def F.EVC_ERR_CNT_FOREIGN : Fld := ⟨.EVC_ERR_CNT, 15, 0⟩
def F.EVC_RR_PTR : Fld := ⟨.EVC_RR, 1, 0⟩
def F.EVC_STAT_RETERR : Fld := ⟨.EVC_STAT, 1, 1⟩
def F.EVC_STAT_RESTORED : Fld := ⟨.EVC_STAT, 0, 0⟩
def F.IX_RSVb_m_SHARE : Fld := ⟨.IX_RSVb_m, 9, 0⟩
def F.IX_BANKb_STAT_SUM : Fld := ⟨.IX_BANKb_STAT, 9, 0⟩
def F.IX_BANKb_STAT_WAITING : Fld := ⟨.IX_BANKb_STAT, 31, 16⟩
def F.IX_STARVEm_COUNT : Fld := ⟨.IX_STARVEm, 15, 0⟩
def F.IX_ECC_CNTb_PASSES : Fld := ⟨.IX_ECC_CNTb, 31, 16⟩
def F.IX_ECC_CNTb_CE : Fld := ⟨.IX_ECC_CNTb, 15, 0⟩
def F.FL_KEY_KEY : Fld := ⟨.FL_KEY, 31, 0⟩
def F.FL_ADDR_ADDR : Fld := ⟨.FL_ADDR, 31, 0⟩
def F.FL_DATAi_DATA : Fld := ⟨.FL_DATAi, 31, 0⟩
def F.FL_INTERRUPTEDj_INT : Fld := ⟨.FL_INTERRUPTEDj, 31, 0⟩
def F.FL_ECC_CNT_CE : Fld := ⟨.FL_ECC_CNT, 15, 0⟩
def F.FL_REFRESH_STAT_COUNT : Fld := ⟨.FL_REFRESH_STAT, 31, 16⟩
def F.FL_REFRESH_STAT_BANK : Fld := ⟨.FL_REFRESH_STAT, 9, 8⟩
def F.FL_REFRESH_STAT_SECTOR : Fld := ⟨.FL_REFRESH_STAT, 6, 0⟩
def F.FL_MARGIN_STAT_PASSES : Fld := ⟨.FL_MARGIN_STAT, 15, 0⟩
def F.FL_WEAR_WEAR : Fld := ⟨.FL_WEAR, 15, 0⟩
def F.FL_PL_LEVEL : Fld := ⟨.FL_PL, 1, 0⟩
def F.FL_PL_REQ_LEVEL : Fld := ⟨.FL_PL_REQ, 1, 0⟩
def F.DCHn_DESC_DESC : Fld := ⟨.DCHn_DESC, 31, 5⟩
def F.DCHn_CTRL_ABORT : Fld := ⟨.DCHn_CTRL, 1, 1⟩
def F.DCHn_CTRL_START : Fld := ⟨.DCHn_CTRL, 0, 0⟩
def F.DCHn_CNT_CNT : Fld := ⟨.DCHn_CNT, 31, 0⟩
def F.DCHn_CUR_CUR : Fld := ⟨.DCHn_CUR, 31, 5⟩
def F.DCHn_OVR_OVR : Fld := ⟨.DCHn_OVR, 15, 0⟩
def F.DMA_STAT_ACTIVE : Fld := ⟨.DMA_STAT, 31, 31⟩
def F.DMA_STAT_CHANNEL : Fld := ⟨.DMA_STAT, 28, 24⟩
def F.DMA_STAT_BEATS : Fld := ⟨.DMA_STAT, 12, 0⟩
def F.DMA_ERR_CNT_FOREIGN : Fld := ⟨.DMA_ERR_CNT, 15, 0⟩
def F.Qn_MARK_HI : Fld := ⟨.Qn_MARK, 31, 16⟩
def F.Qn_MARK_LO : Fld := ⟨.Qn_MARK, 15, 0⟩
def F.Qn_TAIL_WORD : Fld := ⟨.Qn_TAIL, 31, 0⟩
def F.Qn_TAIL_EOP_WORD : Fld := ⟨.Qn_TAIL_EOP, 31, 0⟩
def F.Qn_HEADTAG_GAP : Fld := ⟨.Qn_HEADTAG, 2, 2⟩
def F.Qn_HEADTAG_EOP : Fld := ⟨.Qn_HEADTAG, 1, 1⟩
def F.Qn_HEADTAG_VALID : Fld := ⟨.Qn_HEADTAG, 0, 0⟩
def F.Qn_HEAD_WORD : Fld := ⟨.Qn_HEAD, 31, 0⟩
def F.Qn_CTRL_FLUSH : Fld := ⟨.Qn_CTRL, 1, 1⟩
def F.Qn_CTRL_DROP_PKT : Fld := ⟨.Qn_CTRL, 0, 0⟩
def F.Qn_PTR_WR : Fld := ⟨.Qn_PTR, 31, 16⟩
def F.Qn_PTR_RD : Fld := ⟨.Qn_PTR, 15, 0⟩
def F.Qn_DROPS_COUNT : Fld := ⟨.Qn_DROPS, 31, 0⟩
def F.Qn_STALL_COUNT : Fld := ⟨.Qn_STALL, 31, 0⟩
def F.Qn_UNDER_COUNT : Fld := ⟨.Qn_UNDER, 15, 0⟩
def F.Q_POOL_BASE_BASE : Fld := ⟨.Q_POOL_BASE, 31, 8⟩
def F.Q_POOL_CFG_LOG2SZ : Fld := ⟨.Q_POOL_CFG, 3, 0⟩
def F.Q_POOL_ALLOC_ADDR : Fld := ⟨.Q_POOL_ALLOC, 31, 0⟩
def F.Q_POOL_FREE_ADDR : Fld := ⟨.Q_POOL_FREE, 31, 0⟩
def F.Q_POOL_GIVE_ADDR : Fld := ⟨.Q_POOL_GIVE, 31, 8⟩
def F.Q_POOL_GIVE_TENANT : Fld := ⟨.Q_POOL_GIVE, 2, 0⟩
def F.Q_POOL_STAT_FREE : Fld := ⟨.Q_POOL_STAT, 12, 0⟩
def F.Q_POOL_ERR_DOUBLE : Fld := ⟨.Q_POOL_ERR, 31, 16⟩
def F.Q_POOL_ERR_FOREIGN : Fld := ⟨.Q_POOL_ERR, 15, 0⟩
def F.Q_ERR_CNT_SEMREL : Fld := ⟨.Q_ERR_CNT, 31, 16⟩
def F.Q_ERR_CNT_FOREIGN : Fld := ⟨.Q_ERR_CNT, 15, 0⟩
def F.Q_POOL_TAGi_ALLOC : Fld := ⟨.Q_POOL_TAGi, 3, 3⟩
def F.Q_POOL_TAGi_OWNER : Fld := ⟨.Q_POOL_TAGi, 2, 0⟩
def F.Q_SEMn_TENANT : Fld := ⟨.Q_SEMn, 14, 12⟩
def F.Q_SEMn_PAIR : Fld := ⟨.Q_SEMn, 10, 9⟩
def F.Q_SEMn_HELD : Fld := ⟨.Q_SEMn, 8, 8⟩
def F.Q_SEMn_GOT : Fld := ⟨.Q_SEMn, 0, 0⟩
def F.Q_SEM_FORCE_SEM : Fld := ⟨.Q_SEM_FORCE, 5, 0⟩
def F.PTU_TENt_CFG_PFL : Fld := ⟨.PTU_TENt_CFG, 2, 2⟩
def F.PTU_TENt_CFG_MON : Fld := ⟨.PTU_TENt_CFG, 1, 1⟩
def F.PTU_TENt_CFG_EN : Fld := ⟨.PTU_TENt_CFG, 0, 0⟩
def F.PTU_TENt_LE_LE : Fld := ⟨.PTU_TENt_LE, 7, 0⟩
def F.PTU_TENt_PWM_PWM : Fld := ⟨.PTU_TENt_PWM, 15, 0⟩
def F.PTU_TENt_DMA_DMA : Fld := ⟨.PTU_TENt_DMA, 31, 0⟩
def F.PTU_TENt_Qi_Q : Fld := ⟨.PTU_TENt_Qi, 31, 0⟩
def F.PTU_TENt_EVCi_EVC : Fld := ⟨.PTU_TENt_EVCi, 31, 0⟩
def F.PTU_WINt_w_BASE_BASE : Fld := ⟨.PTU_WINt_w_BASE, 31, 0⟩
def F.PTU_WINt_w_SIZE_SIZE : Fld := ⟨.PTU_WINt_w_SIZE, 4, 0⟩
def F.PTU_WINt_w_RIGHTS_EN : Fld := ⟨.PTU_WINt_w_RIGHTS, 4, 4⟩
def F.PTU_WINt_w_RIGHTS_USER : Fld := ⟨.PTU_WINt_w_RIGHTS, 3, 3⟩
def F.PTU_WINt_w_RIGHTS_X : Fld := ⟨.PTU_WINt_w_RIGHTS, 2, 2⟩
def F.PTU_WINt_w_RIGHTS_W : Fld := ⟨.PTU_WINt_w_RIGHTS, 1, 1⟩
def F.PTU_WINt_w_RIGHTS_R : Fld := ⟨.PTU_WINt_w_RIGHTS, 0, 0⟩
def F.SEC_UIDi_UID : Fld := ⟨.SEC_UIDi, 31, 0⟩
def F.SEC_OKHi_OKH : Fld := ⟨.SEC_OKHi, 31, 0⟩
def F.SEC_FUSE_STAT_OKH : Fld := ⟨.SEC_FUSE_STAT, 1, 1⟩
def F.SEC_FUSE_STAT_UID : Fld := ⟨.SEC_FUSE_STAT, 0, 0⟩
def F.DBG_AUTH_CTRL_GO : Fld := ⟨.DBG_AUTH_CTRL, 1, 1⟩
def F.DBG_AUTH_CTRL_REQ : Fld := ⟨.DBG_AUTH_CTRL, 0, 0⟩
def F.DBG_AUTH_CHALi_CHAL : Fld := ⟨.DBG_AUTH_CHALi, 31, 0⟩
def F.DBG_AUTH_DATAi_DATA : Fld := ⟨.DBG_AUTH_DATAi, 31, 0⟩
def F.TW_GEN_GEN : Fld := ⟨.TW_GEN, 15, 0⟩
def F.TW_EPOCH_SEQ_SEQ : Fld := ⟨.TW_EPOCH_SEQ, 31, 0⟩
def F.TW_EPOCH_ACKED_SEQ : Fld := ⟨.TW_EPOCH_ACKED, 31, 0⟩
def F.TW_BUF0_BASE : Fld := ⟨.TW_BUF0, 31, 16⟩
def F.TW_BUF1_BASE : Fld := ⟨.TW_BUF1, 31, 16⟩
def F.TW_AGRMAX_LC : Fld := ⟨.TW_AGRMAX, 31, 0⟩
def F.TW_HOLD_LC : Fld := ⟨.TW_HOLD, 31, 0⟩
def F.TW_PHASE_PHI : Fld := ⟨.TW_PHASE, 31, 16⟩
def F.TW_PHASE_E : Fld := ⟨.TW_PHASE, 15, 0⟩
def F.TW_DELAY_DELAY : Fld := ⟨.TW_DELAY, 15, 0⟩
def F.TW_HO_EPOCH_SEQ : Fld := ⟨.TW_HO_EPOCH, 31, 0⟩
def F.TW_REGk_BASE_BASE : Fld := ⟨.TW_REGk_BASE, 31, 2⟩
def F.TW_REGk_LEN_LEN : Fld := ⟨.TW_REGk_LEN, 15, 0⟩
def F.SYS_MODE_REQ_ERR : Fld := ⟨.SYS_MODE_REQ, 8, 8⟩
def F.SYS_MODE_REQ_TARGET : Fld := ⟨.SYS_MODE_REQ, 3, 0⟩
def F.SYS_ADMIT_CODE : Fld := ⟨.SYS_ADMIT, 31, 24⟩
def F.SYS_ADMIT_TYPE : Fld := ⟨.SYS_ADMIT, 23, 16⟩
def F.SYS_ADMIT_INDEX : Fld := ⟨.SYS_ADMIT, 15, 0⟩
def F.SYS_JRNL_IDX_IDX : Fld := ⟨.SYS_JRNL_IDX, 10, 0⟩
def F.SYS_JRNL_DATAi_DATA : Fld := ⟨.SYS_JRNL_DATAi, 31, 0⟩
def F.HP_CFG_TENANT : Fld := ⟨.HP_CFG, 18, 16⟩
def F.HP_CFG_OUTQ : Fld := ⟨.HP_CFG, 15, 8⟩
def F.HP_CFG_INQ : Fld := ⟨.HP_CFG, 7, 0⟩
def F.HP_ERR_CNT_CRCERR : Fld := ⟨.HP_ERR_CNT, 31, 16⟩
def F.HP_ERR_CNT_CUT : Fld := ⟨.HP_ERR_CNT, 15, 0⟩
def F.ETHn_CFG_MDIV : Fld := ⟨.ETHn_CFG, 31, 16⟩
def F.ETHn_CFG_PROMISC : Fld := ⟨.ETHn_CFG, 1, 1⟩
def F.ETHn_CFG_EN : Fld := ⟨.ETHn_CFG, 0, 0⟩
def F.ETHn_TSFIFO_WORD : Fld := ⟨.ETHn_TSFIFO, 31, 0⟩
def F.ETHn_ERR_CNT_TSOVF : Fld := ⟨.ETHn_ERR_CNT, 31, 16⟩
def F.ETHn_ERR_CNT_PAUSE : Fld := ⟨.ETHn_ERR_CNT, 15, 0⟩
def F.SC_CFG_ETYPE : Fld := ⟨.SC_CFG, 31, 16⟩
def F.SC_CFG_PORTS : Fld := ⟨.SC_CFG, 9, 8⟩
def F.SC_CFG_TMR : Fld := ⟨.SC_CFG, 4, 0⟩
def F.SC_STEN_EN : Fld := ⟨.SC_STEN, 31, 0⟩
def F.SC_STs_CFG_K : Fld := ⟨.SC_STs_CFG, 15, 8⟩
def F.SC_STs_CFG_SUBST : Fld := ⟨.SC_STs_CFG, 0, 0⟩
def F.SC_STs_STAT_LOST : Fld := ⟨.SC_STs_STAT, 31, 31⟩
def F.SC_STs_STAT_STALE : Fld := ⟨.SC_STs_STAT, 30, 30⟩
def F.SC_STs_STAT_MISS : Fld := ⟨.SC_STs_STAT, 15, 0⟩
def F.BG_STAT_TRIMPASS : Fld := ⟨.BG_STAT, 31, 16⟩
def F.BG_STAT_TCMPASS : Fld := ⟨.BG_STAT, 15, 0⟩
def F.BG_LIFE_PPM : Fld := ⟨.BG_LIFE, 31, 0⟩
def F.BG_TEL_SEQ_SEQ : Fld := ⟨.BG_TEL_SEQ, 15, 0⟩

end Sys2Proof.Machine
end

