-- ==== Sys2Proof/Machine/State.lean ====
section
/-! DEFINITION. The state of the NV4816: registers by address, memory by byte, and the state behind the registers, block by
block. Plain data throughout. -/

namespace Sys2Proof.Machine

/-- Reasons a step could stop with a fault. No command of the table stops: the spec gives each an effect in every state
(bus errors and uncorrectable faults are effects on the state), so there is none. -/
inductive Fault
  deriving DecidableEq, Repr

/-- Reasons a step could be refused. -/
inductive Refusal
  /-- Raised only by an arm of exec whose command has no meaning yet; safe. -/
  | notModelled (mnemonic : String)
  deriving DecidableEq, Repr

/-! ## System controller -/

/-- The twelve modes of Table 1.7 (R28). -/
inductive Mode
  | reset | blank | loading | verify | ready | runSolo | runActive | runStandby | handover | safeHold | maintenance
  | retention
  deriving DecidableEq, Repr

/-- Mode codes of Table 1.7. -/
def Mode.code : Mode → Nat
  | .reset => 1
  | .blank => 2
  | .loading => 3
  | .verify => 4
  | .ready => 5
  | .runSolo => 6
  | .runActive => 7
  | .runStandby => 8
  | .handover => 9
  | .safeHold => 10
  | .maintenance => 11
  | .retention => 12

/-- System controller (R28 to R35, R412 to R443). SYS_MODE is a view of `mode`, `prev` and `changes`. -/
structure SysSt where
  mode     : Mode
  prev     : Mode
  /-- The mode at the start of this PERCLK cycle, against which WLK writes are judged (R34). -/
  perMode  : Mode
  changes  : BitVec 8
  /-- lc count of the last entry into Ready (CYCLE counts from it, R253). -/
  readyAt  : Nat
  /-- SAFE_N is low since the last SAFE_N command (R415). -/
  safeNLow : Bool
  /-- A retention request waits for the DMA block and flash command in progress (R436). -/
  retReq   : Bool
  /-- A request of this lc to leave Safe-Hold for Ready (R433): it acts at the end of the lc, unless SAFE_N is low then (Table 16.12). -/
  readyReq : Bool
  /-- HP_CS_N has fallen during Retention entry: what the wake that follows it finds (Table 16.12). -/
  wake     : Option WakeTest
  /-- An uncorrectable fault in Maintenance waits for the flash command in progress (R32). -/
  faultReq : Option (Nat × Option Pair)
  /-- SHA-256 digest of the admitted image (R437). -/
  digest   : List Byte
  /-- Fault journal records, newest first (R434). -/
  jrnl     : List (List Byte)
  /-- Ring-oscillator gates closed so far (R440). -/
  gates    : Nat
  /-- Counts of the eight ring oscillators over a gate, fused at test (R440). -/
  f0       : Vector Nat 8
  /-- The background-service record of section 0x07, as words (R441). -/
  bg       : List Word
  /-- Comparators checked in the present trim pass (R438). -/
  trimmed  : Nat
  /-- Levels that the I/O retention latches hold (Table 1.7), none = high-impedance: PWM0A, PWM0B to PWM15B, TMIO0 to TMIO47. -/
  latch    : List (Option Bool)
  deriving DecidableEq, Repr

/-- Response of the host port to the last frame (Table 16.5). -/
structure HpResp where
  cmd     : Byte
  seq     : BitVec 16
  gen     : BitVec 16
  status  : Byte
  mode    : Byte
  payload : List Byte
  deriving DecidableEq, Repr

/-- Who loads: nobody, the host port, the twin (R417). -/
inductive LoadSrc
  | none | host | twin
  deriving DecidableEq, Repr

/-- The bit-stream loader (R417 to R420). -/
structure LoadSt where
  src : LoadSrc
  /-- Bytes of the image received so far. -/
  img : List Byte
  /-- Length announced by LOAD_OFFER for a twin load. -/
  len : Nat
  /-- lc in which the load began. -/
  began : Nat
  deriving DecidableEq, Repr

/-! ## Solder matrix -/

/-- A decoded route entry (Table 9.6). -/
structure Route where
  dest    : Nat
  cls     : Nat
  func    : Nat
  owner   : Nat
  town    : Bool
  en0     : Bool
  srcs    : List Nat
  inv     : Nat
  stretch : Nat
  deriving DecidableEq, Repr

/-- A write to a SM_RENj: its BUSCLK cycle, master, the value before it, whether FOREIGN counted it. -/
structure RenWrite where
  cyc    : Nat
  master : Nat
  before : Word
  told   : Bool
  deriving DecidableEq, Repr

/-- The matrix at run time (R217 to R230, R466). `ev` and `nw` are the events and new words raised in this lc and not yet
seen by direct routes; `evDone` and `nwDone` those already seen by them. -/
structure MatrixSt where
  routes : List Route
  /-- Level of each level source. -/
  lv     : SMap Bool
  /-- Changes of level sources that direct routes have not seen yet, in order. -/
  chg    : List (Nat × Bool)
  /-- Last word of each data source. -/
  word   : SMap Word
  ev     : List Nat
  nw     : List Nat
  evDone : List Nat
  nwDone : List Nat
  /-- Source of each edge-detect route in the previous lc, by destination (R466). -/
  lvPrev : SMap Bool
  /-- Level each level or edge destination sees. -/
  dlv    : SMap Bool
  /-- Last word each data destination took (R224, R225). -/
  dword  : SMap Word
  /-- Data destinations that hold a new value (R224). -/
  dnew   : SMap Bool
  /-- Outputs of the pulse-stretch functions, by destination (R222). -/
  stretch : SMap Bool
  /-- Route enables as they stood at the start of this lc, and of the lc before (R221, R229). -/
  enStart : SMap Bool
  enPrev  : SMap Bool
  /-- The write of this BUSCLK cycle that prevails at each SM_RENj so far (Table 9.4). -/
  renBy  : SMap (Option RenWrite)
  /-- Software sources to raise in the last lc of this BUSCLK cycle (Table 9.4). -/
  sw     : List Nat
  deriving DecidableEq, Repr

/-! ## Core complex -/

/-- The branch predictor of a copy (R264). -/
structure Pred where
  /-- Branch history table, two-bit counters; unlisted = 1, weakly not-taken. -/
  bht  : SMap (BitVec 2)
  hist : BitVec 11
  /-- Return stack, newest first. -/
  ras  : List Word
  /-- Prediction bar region. -/
  bar  : Option (Nat × Nat)
  deriving DecidableEq, Repr

/-- One of the two copies of an NC32 core: the registers of R253 and the branch unit that each copy holds (R243). -/
structure Copy where
  g     : Vector Word 32
  f     : Vector (BitVec 64) 32
  psw   : Word
  epc   : Word
  cause : Word
  faddr : Word
  fpsr  : Word
  tsbr  : Word
  evec  : Word
  bank  : Vector Word 4
  modb  : Vector Word 4
  modl  : Vector Word 4
  brev  : Vector Word 4
  pred  : Pred
  deriving DecidableEq, Repr

/-- A delay slot: the address of its branch and where the pair goes after the slot (R263). -/
structure Slot where
  branch : Word
  next   : Word
  deriving DecidableEq, Repr

/-- Where a stalled load puts its data (R262). -/
inductive LoadDest
  | greg (d : Greg) | freg (d : Freg)
  deriving DecidableEq, Repr

/-- A load outside the TCMs that waits for its data (R262): destination, value, pointer update. -/
structure Stall where
  dest : LoadDest
  val  : BitVec 64
  post : Option (Greg × Word × Word)
  deriving DecidableEq, Repr

/-- A late store error (R282). -/
structure LateStore where
  addr   : Word
  tenant : Tenant
  tag    : Fin 4
  deriving DecidableEq, Repr

/-- An FP exception whose trap is enabled (R268): address of the raising instruction and exceptions that the main copy raised; 0
where it raised none whose trap is enabled. -/
structure FpEvent where
  addr  : Word
  flags : BitVec 5
  /-- The same of the checker copy; 0 where that copy raises none. -/
  chk   : BitVec 5
  deriving DecidableEq, Repr

/-- One line of an instruction cache (R244): line address, its 32 bytes, an upset of its ECC words (R245; true = double-bit). -/
structure IcLine where
  line  : Nat
  data  : List Byte
  upset : Option Bool
  deriving DecidableEq, Repr

/-- An STC that succeeded (R271): its lc, physical address and register, and the word it replaced. -/
structure StcRec where
  lc   : Nat
  addr : Nat
  dest : Greg
  old  : Word
  deriving DecidableEq, Repr

/-- A lockstep pair (R243 to R271). -/
structure PairSt where
  main    : Copy
  chk     : Copy
  pc      : Word
  slot    : Option Slot
  stall   : Option Stall
  waiting : Bool
  /-- Reserved 32-byte granule (R266). -/
  resv    : Option Nat
  /-- The last instruction, if it was an STC that succeeded; the lc and granule of a reservation lost to another pair's store (R271). -/
  stc     : Option StcRec
  lost    : Option (Nat × Nat × Pair)
  /-- Store buffer (R262): address and bytes of the stores that have not left it, oldest first; a fifth is one that waits to enter. -/
  sbuf    : List (Nat × Nat)
  late    : List LateStore
  /-- Next store-buffer tag. -/
  tag     : Fin 4
  /-- An enabled FP exception of an operation not yet complete, and the one that awaits delivery (PEND). -/
  fpOut   : Option FpEvent
  fpPend  : Option FpEvent
  tid     : Tenant
  halted  : Bool
  haltReq : Bool
  /-- Executing one instruction under STEP (R372). -/
  step    : Bool
  cycleh  : Word
  icache  : List IcLine
  /-- Signatures of the last snapshot, main and checker copy (R250). -/
  sig     : Option (Word × Word)
  /-- lc before which the pair issues nothing: a refill is on its way (R313). -/
  fetchTo : Nat
  /-- The copies before the last exception entry, with its lc (Table 10.7). -/
  before  : Option (Nat × Copy × Copy)
  deriving DecidableEq, Repr

/-- A mask or pending write held while its source is locked (R292). -/
inductive HeldWrite
  | maskSet (n : SrcId) | maskClr (n : SrcId) | pendClr (n : SrcId)
  deriving DecidableEq, Repr

/-- The event controller (R288 to R299). The pending, mask, active and pointer registers are views of it. -/
structure EvcSt where
  pend : BitVec 512
  mask : BitVec 512
  /-- Sources active on each target. -/
  act  : Vector (BitVec 512) 4
  /-- The source locked for each target between b and b + 2 (R292). -/
  lock : Vector (Option SrcId) 4
  held : List HeldWrite
  rr   : Fin 4
  /-- IE and TID as reported by each pair (R290). -/
  ie   : Vector Bool 4
  tid  : Vector Tenant 4
  /-- Ceilings and active sources at the start of this lc, on which its offers are formed (R297). -/
  ceil : Vector Nat 4
  busy : BitVec 512
  /-- Sources that hardware raised in this lc: a pending clear does not prevail over them (R297). -/
  occ  : BitVec 512
  deriving DecidableEq, Repr

/-! ## Memory -/

/-- Journal-row records of a flash bank that stand: a done record lets the row reuse the space of its start record
(R316, R318, R319, R321). -/
inductive JRec
  | eraseStart (sector : Nat) | progStart (addr : Nat) | remap (sector : Nat)
  deriving DecidableEq, Repr

/-- A flash command in progress in a bank (R316). -/
inductive FlashCmd
  | program (addr : Nat) (data : List Byte)
  | erase (sector : Nat)
  deriving DecidableEq, Repr

/-- One flash bank with its auxiliary array (R308). -/
structure FBankSt where
  cmd     : Option FlashCmd
  /-- lc at which the command was accepted and lc it takes (its progress, Table 12.5). -/
  since   : Nat
  dur     : Nat
  jrow    : List JRec
  /-- Granules programmed since their last erase, by granule number in the bank (R316). -/
  progd   : SMap Bool
  /-- Erase cycles per sector, and of the spare. -/
  wear    : SMap Nat
  spareWear : Nat
  /-- Corrected reads per sector since its last refresh (R322). -/
  ceSec   : SMap Nat
  /-- Sectors queued for refresh; the one being refreshed with its step 1 to 5 (R321). -/
  queue   : List Nat
  refr    : Option (Nat × Nat)
  /-- Contents of the spare sector (R308) by offset; an unlisted byte is erased. -/
  spare   : SMap Byte
  /-- Contents of the sector's own array while it is remapped to the spare, which its addresses then read (R321). -/
  own     : SMap Byte
  /-- Next line of the margin scrub (R320). -/
  mpos    : Nat
  /-- Last line that each stream buffer delivered, most recently used first (R311). -/
  streams : List Nat
  /-- OP code and lc of the command that ended last: the bank is busy to the end of that BUSCLK cycle (R316). -/
  ended   : Option (Nat × Nat)
  deriving DecidableEq, Repr

/-- Flash controller (R308 to R324). -/
structure FlashSt where
  banks  : Vector FBankSt 4
  /-- The previous write to the FL block was the key (R315). -/
  key    : Bool
  /-- Protection level in force at the next Reset (R323). -/
  nextPl : Nat
  /-- LOWER record: the level being set (R323, R324). -/
  lower  : Option Nat
  deriving DecidableEq, Repr

/-- A beat that waits at an SRAM bank (R305): its master, whether it is a read-modify-write of two cycles (R300), whether a pair's load
waits for it, the lc from which it can be served, whether its starvation has been counted (R307). -/
structure Beat where
  master : Fin 13
  part   : Bool
  load   : Bool
  since  : Nat
  told   : Bool
  deriving DecidableEq, Repr

/-- Interconnect (R300 to R307): the beats that wait at each bank, oldest first, whether a bank is in the second cycle of a
read-modify-write; credits left per bank and master, scrub position per bank. -/
structure IxSt where
  wait   : Vector (List Beat) 6
  second : Vector Bool 6
  credit : Vector (Vector Nat 13) 6
  scrub  : Vector Nat 6
  /-- TCM scrub position per pair (R438). -/
  tcm    : Vector Nat 4
  /-- Round-robin pointer of each bank and class: the master after the one served last (R305). -/
  rr     : Vector (Vector Nat 4) 6
  deriving DecidableEq, Repr

/-! ## DMA -/

/-- A DMA descriptor (Table 13.1). -/
structure DmaDesc where
  src     : Nat
  dst     : Nat
  cnt     : Nat
  last    : Bool
  irq     : Bool
  xf      : Nat
  unpack  : Bool
  esz     : Nat
  nstr    : Nat
  srcmode : Nat
  dstmode : Nat
  pitch   : Nat
  next    : Nat
  deriving DecidableEq, Repr

/-- A DMA channel: its chain's present descriptor, once fetched, and bytes of it moved; the lc of its fetch, the queue on which its
paced request was judged last. Whether a chain is in progress is DCHn_STAT.BUSY. -/
structure ChanSt where
  desc : Option DmaDesc
  done : Nat
  at_  : Nat
  on   : Option QId
  deriving DecidableEq, Repr

/-- Units gathered for one write beat that is not full yet: number, address and value of each. -/
abbrev DmaUnits := List (Nat × Nat × Nat)

/-- The block the engine executes (R330): channel, bytes, start, beats, cycles in which a beat of it waited (R331); the byte of the
descriptor and the pointers of its queues with which it began; the beats read last, newest first, and the write beats that are not full,
oldest first, each by its address. -/
structure DmaBlock where
  chan  : Chan
  bytes : Nat
  start : Nat
  beats : Nat
  waits : Nat
  o     : Nat
  rp    : Nat
  wp    : Nat
  rd    : List (Nat × Nat)
  wr    : List (Nat × DmaUnits)
  /-- ABORT has been written (R335). -/
  stop  : Bool
  deriving DecidableEq, Repr

/-- The DMA engine (R327 to R339): channels, block, round-robin pointer per PRIO. -/
structure DmaSt where
  ch    : Vector ChanSt 32
  block : Option DmaBlock
  rr    : Vector Nat 4
  deriving DecidableEq, Repr

/-! ## Security and debug -/

/-- Instructions of the TAP (R374). -/
inductive TapInstr
  | bypass | idcode | extest | sample | preload
  deriving DecidableEq, Repr

/-- Debug port and security controller (R366 to R376); the session state is in DBG_STAT. -/
structure DbgSt where
  tap       : TapInstr
  /-- lc in which the session began. -/
  since     : Nat
  /-- A challenge stands that no GO has used. -/
  chal      : Bool
  authBusy  : Bool
  /-- Halts refused for their outputs: the lc, DBG_STAT.ERR before it, the pair (Table 14.4). -/
  barred    : List (Nat × Nat × Pair)
  deriving DecidableEq, Repr

/-! ## Timers and time of day -/

/-- A timer as it stood before a start of the lc: the lc, RUN, the countdown, FIRED. -/
structure TmrWas where
  lc     : Nat
  run    : Bool
  zeroAt : Nat
  pre    : Nat
  zdone  : Bool
  fired  : Nat
  deriving DecidableEq, Repr

/-- A timer (R139 to R146). While it runs, `zeroAt` is the first lc of the zero step of its countdown and `pre` the prescaler
the countdown began with; while it is stopped `held` is the count. -/
structure TmrSt where
  zeroAt : Nat
  pre    : Nat
  held   : Nat
  /-- The zero step of this countdown has acted. -/
  zdone  : Bool
  /-- Per pin, the last action applied: its lc, its rank under R146 and the level before. -/
  acted  : Vector (Nat × Nat × Bool) 2
  /-- The zero actions of this lc wait for its matches, which prevail (R146). -/
  zact   : Bool
  /-- A start of this lc, which a stop of it undoes (Table 6.1). -/
  was    : Option TmrWas
  /-- Levels driven on the pins at the end of the last lc in which they could change; none = not driven (R149). -/
  pin    : Vector (Option Bool) 2
  deriving DecidableEq, Repr

/-- The time-of-day counter (R152): NS, FINE and the hidden lower fraction as one number in units of 2^-30 ns, SEC, the
snapshot sets of the masters (R155), the lc of the last accepted PPS edge, the level of the TOD_PPS output. -/
structure TodSt where
  acc     : Nat
  sec     : BitVec 48
  snap    : Vector (Word × Word) 13
  ppsLast : Option Nat
  ppsOut  : Bool
  deriving DecidableEq, Repr

/-! ## Analogue-to-digital conversion -/

/-- The entry that a converter acquires or converts (R71): sequence, entry, hold instant; `conv` from the hold instant on;
`ghost` = its result is to be discarded (R74, R76); code and OOR once held. -/
structure AdcCur where
  seq   : Fin 4
  ent   : Fin 16
  hold  : Nat
  conv  : Bool
  ghost : Bool
  sub   : Bool
  stale : Bool
  code  : BitVec 16
  oor   : Bool
  deriving DecidableEq, Repr

/-- A finished conversion whose result is valid from the next lc on (R79): register, word, and for the last entry of a run
whether to raise DONE and to request DMA. -/
structure AdcDone where
  seq  : Fin 4
  ent  : Fin 16
  word : Word
  evt  : Bool
  dma  : Bool
  deriving DecidableEq, Repr

/-- A pending request: urgent, the lc it arrived in, its sequence (R73). -/
structure AdcPend where
  urgent : Bool
  at_    : Nat
  seq    : Fin 4
  deriving DecidableEq, Repr

/-- A logical converter (R71 to R80). `trig` holds the sequences triggered in this lc. -/
structure AdcSt where
  cur    : Option AdcCur
  intr   : Option (Fin 4 × Fin 16)
  pend   : List AdcPend
  done   : Option AdcDone
  /-- Configuration writes held for a busy sequence, by address (R77). -/
  held   : SMap Word
  /-- Entries (16 s + e) whose next conversion is a settling one (R66). -/
  settle : SMap Bool
  swapLc : Option Nat
  trig   : List (Fin 4)
  deriving DecidableEq, Repr

/-- Rotation (R55 to R59): the next due tick, whether a swap waits, whether the spare still calibrates, the converter whose
reference the spare is connected to, and each core's offset (1/1000 LSB) and gain (ppm) trims with the INL they leave
(1/1000 LSB). -/
structure RotSt where
  dueAt  : Option Nat
  waits  : Bool
  calBusy : Bool
  spareRef : Option Conv
  trim    : Vector SpareCal 9
  deriving DecidableEq, Repr

/-! ## Comparators -/

/-- A comparator (R86 to R93): raw decision; a sampled decision and the lc from which destinations see it; last accepted
tick; the code its DAC stands at or moves to, the lc in which its settling span ends, its level in nV / 4,096; the last lc in which
the code changed, with code and span before that lc. -/
structure CmpSt where
  dec      : Bool
  samp     : Option (Nat × Bool)
  lastTick : Option Nat
  dac      : Nat
  ends     : Option Nat
  level    : Int
  was      : Option (Nat × Nat × Option Nat)
  deriving DecidableEq, Repr

/-- A comparator check (R102 to R108): comparator, kind, ladder level, partner, start; `phase` 0 before lc 16, 1 to lc 55,
2 to lc 63; the raw decision of lc 15, whether the partner's decision changed in lc 17 to 55, held threshold writes; the drift that
the trim service finds, where it belongs to that; code in use and partner's decision as they stood at the end of lc 55. -/
structure CheckSt where
  cmp     : CmpId
  kind    : Nat
  lad     : Nat
  partner : Option CmpId
  start   : Nat
  phase   : Nat
  hold    : Bool
  moved   : Bool
  thr     : Option (BitVec 12)
  alt     : Option (BitVec 12)
  trim    : Option Int
  at55    : Option (Nat × Bool)
  /-- Level of the comparator's output in lc 15, which its destinations see without a partner (R105). -/
  lvl     : Bool
  deriving DecidableEq, Repr

/-- The comparator array: comparators, the check that runs, the request that waits (R108), the offset trim of each
comparator (R438). -/
structure CmpArr where
  cmp  : Vector CmpSt 48
  chk  : Option CheckSt
  wait : Option (CmpId × Nat × Nat)
  trim : Vector Int 48
  deriving DecidableEq, Repr

/-! ## PWM generation -/

/-- A turn-on that waits for its dead time (R127 to R129): output (true = B), instant of the turn-off in fs, instant of the
turn-on once known, DTMIN, MARGIN and DTMAX in fs. -/
structure PwmOn where
  b      : Bool
  toff   : Nat
  t      : Option Nat
  dtmin  : Nat
  margin : Nat
  dtmax  : Nat
  deriving DecidableEq, Repr

/-- A PWM generator (R111 to R133). Its count is `k0` steps at lc `began`; MODE, PRE, PER and PMIN in force; the active values
of the shadowed registers that no register shows; per segment, what has fired; REF and output levels. -/
structure PwmSt where
  began   : Nat
  k0      : Nat
  mode    : Nat
  pre     : Nat
  per     : Nat
  pmin    : Nat
  /-- Down half of the up-down mode. -/
  down    : Bool
  actPmin : Nat
  trg     : Vector Word 2
  dta     : Nat
  dtb     : Nat
  dtmin   : Nat
  margin  : Nat
  fired   : Vector Bool 2
  firedT  : Vector Bool 2
  ref     : Vector Bool 2
  lvl     : Vector Bool 2
  on      : Option PwmOn
  /-- The pins hold the safe pattern; they leave it at the group's period start, not the generator's own (R138). -/
  safe    : Bool
  lead    : Bool
  /-- A segment has begun in this lc whose first actions are still to be taken; true = a period, with a level fixed at its start. -/
  first   : Option Bool
  /-- With them the outputs of a follower that waited take up REF again (R117). -/
  follow  : Bool
  /-- The period began from PHASE (R115). -/
  phased  : Bool
  /-- The counter was loaded in lc `began` (R389): no period began there. -/
  jumped  : Bool
  /-- Step of the period in which END has been seen (R117). -/
  endSeen : Option Nat
  pstart  : Bool
  ended   : Option Nat
  /-- A member's pending copy (R121). -/
  pend    : Bool
  /-- Count and direction while stopped. -/
  held    : Nat × Bool
  /-- Instants in fs of the last edge of each output (R148), and of the edge before it. -/
  edge    : Vector Nat 2
  edgeB   : Vector Nat 2
  deriving DecidableEq, Repr

/-! ## Position interfaces -/

/-- A sample of a sin/cos interface on its way: the words, offset, gain, phase and limits of the lc in which it was taken (R176). -/
structure ScSample where
  sin   : Word
  cos   : Word
  off   : Word
  gain  : Word
  phase : Word
  amp   : Word
  deriving DecidableEq, Repr

/-- An SSI frame that the interface clocks: its first lc, bits, clock divider, whether POS has been written (R173). -/
structure SsiFrame where
  start : Nat
  len   : Nat
  div   : Nat
  done  : Bool
  deriving DecidableEq, Repr

/-- What the counted edges of an lc have changed, as it stood before: the lc, A and B, POS, internal count, last edges, run, divider,
DIR (R164). -/
structure PosWas where
  lc  : Nat
  a   : Bool
  b   : Bool
  pos : Word
  cnt : Int
  e1  : Option (Nat × Bool)
  e2  : Option (Nat × Bool)
  run : Bool × Nat
  acc : Nat
  enc : BitVec 2
  dir : Bool
  deriving DecidableEq, Repr

/-- A position interface (R160 to R183): filtered A, B and Z, and the levels of their pins in this lc (bit 0) and those before; whether
the index condition held in the lc before, the lc of the last index event; what the edges of an lc changed; the internal count; the last index event (count, forward); the
last two counted edges (lc, forward); the run of counted edges in one direction; start and count of the speed window; the
divider's accumulator, the emulated output's state and the one its pins show; whether VALID waits for an index event, whether
that event is exempt, whether POS is loaded with 0 in the next lc; lc of the last QERR; POS before the edges of an lc; good SSI
frames (lc, count): the last, the last before and the first after the window's start; a good frame last and its position; the frame
clocked; the monoflop runs; samples and speeds on their way; quadrant of the last result. -/
structure PosSt where
  a      : Bool
  b      : Bool
  z      : Bool
  ha     : BitVec 18
  hb     : BitVec 18
  hz     : BitVec 18
  held   : Bool
  idxAt  : Option Nat
  was    : Option PosWas
  cnt    : Int
  idx    : Option (Int × Bool)
  e1     : Option (Nat × Bool)
  e2     : Option (Nat × Bool)
  run    : Bool × Nat
  win    : Nat
  wcnt   : Int
  acc    : Nat
  enc    : BitVec 2
  encPin : BitVec 2
  await  : Bool
  skip   : Bool
  zrst   : Bool
  qerrAt : Option Nat
  before : Option (Nat × Word)
  good   : Option (Nat × Int)
  goodB  : Option (Nat × Int)
  goodA  : Option (Nat × Int)
  ssiOk  : Bool
  ssiPos : Nat
  frame  : Option SsiFrame
  mono   : Bool
  samp   : List ScSample
  spd    : List Word
  quad   : Option Nat
  deriving DecidableEq, Repr

/-! ## Loop engines -/

/-- A phase of a plan: a jerk, and for how long. -/
structure Seg where
  j : Rat
  d : Rat
  deriving DecidableEq, Repr

/-- Position, velocity, acceleration. -/
structure Kin where
  p : Rat
  v : Rat
  a : Rat
  deriving DecidableEq, Repr

/-- The plan that the profile generator follows (R203, R204; DESIGN CHOICE, log entry 37): its exact point, the phases ahead of
it, the words that the state area holds of the point while nothing else writes them. -/
structure Prof where
  kin  : Kin
  segs : List Seg
  outs : List Word
  deriving DecidableEq, Repr

/-- A set in a pipeline: its acceptance lc, parameter bank, input words, whether a plan is computed; once computed, output
words (none = withheld, R194), state words to write by offset; `keep` until an epoch commit overtakes it (Table 8.7); of a
profile set, the plan it leaves and whether it computed one that leaves the soft limits. -/
structure LeJob where
  at_   : Nat
  bank  : Nat
  ins   : List Word
  plan  : Bool
  ready : Bool
  out   : Option (List Word)
  wr    : List (Nat × Word)
  keep  : Bool
  prof  : Option Prof
  past  : Bool
  deriving DecidableEq, Repr

/-- A pipeline (R185): the lc from which it is free, its set, the held set, the words it last computed (R186). -/
structure LePipe where
  free : Nat
  job  : Option LeJob
  held : Option (List Word)
  last : List Word
  deriving DecidableEq, Repr

/-- The general stage (R206 to R208): registers, when each is ready, bundle, bundles and stalls so far; the start request that
waits with the words it brings; outputs of the pipeline it is placed after; the words it last gave to OUT (R186). -/
structure GenSt where
  v    : Vector Word 32
  rdy  : SMap Nat
  pc   : Nat
  run  : Bool
  cnt  : Nat
  held : Option (List Word)
  feed : Option (List Word)
  last : Vector Word 4
  deriving DecidableEq, Repr

/-- A loop engine: pipelines of Table 8.1 but the general stage; words on their way to sources (lc, source, word); acceptance
lc of the last observer set; start of the coast count; a plan is due at the next tick; the plan followed; parameter words that
the bus wrote over (lc, address, bytes, their value before); requester of the table copy. -/
structure LeSt where
  pipes : Vector LePipe 5
  gen   : GenSt
  drv   : List (Nat × Nat × Word)
  prev  : Nat
  coast : Option Nat
  plan  : Bool
  prof  : Option Prof
  wrote : List (Nat × Nat × Nat × Nat)
  copy  : Option (Nat × Nat × Nat)
  deriving DecidableEq, Repr

/-! ## Twin operation -/

/-- A Triok frame (Table 15.2); NFLIT is the data's length / 32, and the CRC is computed from the rest. -/
structure TwFrame where
  ty    : Nat
  flags : Nat
  fseq  : Word
  gen   : BitVec 16
  mode  : Nat
  spec  : List Byte
  data  : List Byte
  deriving DecidableEq, Repr

/-- Mirror values of a generator (R400): PER, CMPB and MODE of the last committed epoch, CMPA of the last HEARTBEAT. -/
structure Mirror where
  per  : Nat
  cmpa : Nat
  cmpb : Nat
  mode : Nat
  deriving DecidableEq, Repr

/-- The twin block (R379 to R411): frames sent, newest first; next FSEQ; the last mark; instant in fs of the last pulse driven on TW_SYNC;
the pairing step (0 = none), whether it has begun, the role asked for, a PAIR frame received before it was looked for, the lc
from which the TW_SYNC round trip or the alignment counts, or the instant in fs of the pulse that the active answers, the peer's counts to load with their mark index; whether the phase
lock runs, Φ in fs, an lc to hold (−1) or skip (1) at the next mark, consecutive marks within 25 ps; the last valid HEARTBEAT,
its FLAGS, whether the peer is lost; whether captures count, reference periods, SYS_MODE.PREV before an UNPAIR, the epoch being
sent (start, next offset, bytes); the epoch being received (SEQ, LENGTH, offsets and lengths so far), those that wait for
APPLYING (SEQ, LENGTH), oldest first, LENGTH of the one being applied; mirrors;
the decision (lc, cause), whether the commit after SWITCH is awaited, whether a SWITCH has been sent; lc of the last rises of
TW_OWN_IN and TW_FAULT_IN; when and to where the
device leaves after a release; whether GEN is taken from the next heartbeat; whether a BLANK frame asks for an offer; the load
being sent (start, next offset). -/
structure TwinSt where
  out     : List TwFrame
  fseq    : Word
  markAt  : Nat
  markIdx : Nat
  pulse   : Option Nat
  step    : Nat
  begun   : Bool
  standby : Bool
  seen    : Option TwFrame
  trip    : Option Nat
  align   : Option (Nat × List Word)
  lockOn  : Bool
  phi     : Int
  carry   : Int
  okMarks : Nat
  hbAt    : Nat
  flags   : Nat
  lost    : Bool
  armed   : Bool
  periods : Nat
  unpair  : Mode
  tx      : Option (Nat × Nat × List Byte)
  rxSeq   : Nat
  rxLen   : Nat
  rxOffs  : List (Nat × Nat)
  rxWait  : List (Nat × Nat)
  applied : Nat
  mirror  : Vector Mirror 16
  dec     : Option (Nat × Nat)
  commit  : Bool
  switch  : Bool
  ownAt   : Nat
  faultAt : Nat
  leaveAt : Option (Nat × Mode)
  takeGen : Bool
  blank   : Bool
  offer   : Option (Nat × Nat)
  deriving DecidableEq, Repr

/-! ## Ethernet and station cycle -/

/-- An Ethernet port (R424 to R426, R456): timestamp entries of four words, the next word of the head entry, whether the PHY
drives ETHn_RXC. -/
structure EthSt where
  fifo : List (List Word)
  ix   : Nat
  rxc  : Bool
  deriving DecidableEq, Repr

/-- A station-cycle frame sent: its EtherType and the payload header (R427, Table 16.8). -/
structure ScFrame where
  port  : Nat
  etype : BitVec 16
  ver   : Byte
  kind  : Nat
  gen   : BitVec 16
  cycle : Word
  st    : Nat
  flags : Nat
  len   : Nat
  data  : List Byte
  deriving DecidableEq, Repr

/-- A station (R428 to R430): last INPUT received (cycle, data), input buffer, its STALE bit, default area, output buffer,
consecutive misses. The areas lie at no address that the spec gives. -/
structure ScStation where
  last  : Option (Word × List Byte)
  data  : List Byte
  stale : Bool
  deflt : List Byte
  out   : List Byte
  miss  : Nat
  deriving DecidableEq, Repr

/-- The station-cycle engine: cycle number, whether a cycle is under way that it sends, the lc of an input read that is to come,
whether a standby has taken its number from the peer's cycle, stations, frames sent, newest first. -/
structure ScSt where
  cycle  : Word
  send   : Bool
  readAt : Option Nat
  sync   : Bool
  st    : Vector ScStation 32
  out   : List ScFrame
  deriving DecidableEq, Repr

/-- Answer of the last bus access made by a command: data read, or a bus error. -/
structure Answer where
  data : Word
  err  : Bool
  deriving DecidableEq, Repr

/-! ## The whole machine -/

/-- What a master did to a queue or semaphore in this BUSCLK cycle (R354): a push, with Qn_PTR, Qn_STAT, Qn_DROPS and the newest slot
before it; a pop; a semaphore read of a pair that found it held, or that acquired it; a buffer allocated to a pair; the sources that a
write set pending (R297); a load of a pair from a flash bank, with what it gives where a program or an erase is accepted in the cycle, and
a line of a bank that it refilled (R326). -/
inductive CycAcc
  | push (q : QId) (w : Word) (eop : Bool) (ptr stat drops newest : Word)
  | pop (q : QId)
  | want (p : Pair) (n : Fin 64)
  | got (p : Pair) (n : Fin 64)
  | alloc (p : Pair) (i : Fin 4096)
  | pend (v : BitVec 512)
  | load (p : Pair) (b : FBank) (prog erase : BitVec 64)
  | fill (p : Pair) (b : FBank) (line : Nat)
  deriving DecidableEq, Repr

/-- The state of the device. -/
structure State where
  /-- Commands that wait, first in first out. -/
  pending : List Instr
  /-- lc passed. -/
  now     : Nat
  /-- Commands that fall due at an lc (R3), and commands brought about in this lc. -/
  cal     : List (Nat × Instr)
  inbox   : List Instr
  /-- Commands of this lc that act when its edges and actions are done (Table 7.3). -/
  later   : List Instr
  /-- Registers by address; an unlisted one holds its reset value. -/
  regs    : SMap Word
  /-- Memory by byte; an unlisted byte reads `memDefault`. -/
  mem     : SMap Byte
  /-- Uncorrected upsets by 8-byte half or line address; true = two bits (R245, R301, R309). -/
  upset   : SMap Bool
  ans     : Answer
  /-- Counter handed to the free values of Config (the model's own field). -/
  fresh   : Nat
  sys     : SysSt
  hp      : Option HpResp
  load    : LoadSt
  mx      : MatrixSt
  pairs   : Vector PairSt 4
  evc     : EvcSt
  fl      : FlashSt
  ix      : IxSt
  /-- Tag bits of the queue slots, by word offset in queue RAM: [1] GAP, [0] EOP (R341). -/
  qtag    : SMap (BitVec 2)
  dma     : DmaSt
  dbg     : DbgSt
  /-- Registers written in this lc, by address: true = by a matrix port (R50). -/
  marks   : List (Nat × Bool)
  /-- What hardware set or counted in a register in this cycle of its block's clock, by address: the register before, and a word
  of what came (R9). -/
  hits    : SMap (Word × Word)
  /-- Masters that have made an access in this BUSCLK cycle; what they did to queues and semaphores, newest first. -/
  accs    : List (Fin 13)
  cyc     : List CycAcc
  /-- The registers as they stood at the start of this lc (Table 2.5, R156). -/
  old     : SMap Word
  tmr     : Vector TmrSt 24
  tod     : TodSt
  adc     : Vector AdcSt 8
  rot     : RotSt
  cmps    : CmpArr
  pwm     : Vector PwmSt 16
  /-- Groups of the load-all strobe of this lc that are still to load (Table 2.5). -/
  strobe  : BitVec 16
  /-- A delay-line replacement waits (R134). -/
  dlWaits : Bool
  pos     : Vector PosSt 8
  le      : Vector LeSt 8
  twin    : TwinSt
  eth     : Vector EthSt 2
  sc      : ScSt
  deriving DecidableEq, Repr

/-- What an unlisted byte of memory reads as: 0xFF in flash (erased), 0 elsewhere (R302; DESIGN CHOICE, log entry 5). -/
def memDefault (a : Nat) : Byte := if 0x10000000 ≤ a ∧ a < 0x12000000 then 0xFF else 0

/-- The predictor at reset: as PFLUSH leaves it (DESIGN CHOICE, log entry 3). -/
def Pred.init : Pred := ⟨[], 0, [], none⟩

/-- A copy as it enters Ready: EVEC 0 and TSBR 0x000F_FF00 (R276), PSW.PRIV Monitor with IE 0, the rest 0 (DESIGN CHOICE, log entry 3). -/
def Copy.init : Copy where
  g := Vector.replicate 32 0
  f := Vector.replicate 32 0
  psw := 0x300
  epc := 0
  cause := 0
  faddr := 0
  fpsr := 0
  tsbr := 0x000FFF00
  evec := 0
  bank := Vector.replicate 4 0
  modb := Vector.replicate 4 0
  modl := Vector.replicate 4 0
  brev := Vector.replicate 4 0
  pred := Pred.init

/-- A pair as it enters Ready. -/
def PairSt.init : PairSt where
  main := Copy.init
  chk := Copy.init
  pc := 0
  slot := none
  stall := none
  waiting := false
  resv := none
  stc := none
  lost := none
  sbuf := []
  late := []
  tag := 0
  fpOut := none
  fpPend := none
  tid := 0
  halted := false
  haltReq := false
  step := false
  cycleh := 0
  icache := []
  sig := none
  fetchTo := 0
  before := none

/-- The event controller at reset (Table 11.8). -/
def EvcSt.init : EvcSt where
  pend := 0
  mask := BitVec.allOnes 512
  act := Vector.replicate 4 0
  lock := Vector.replicate 4 none
  held := []
  rr := 0
  ie := Vector.replicate 4 false
  tid := Vector.replicate 4 0
  ceil := Vector.replicate 4 16
  busy := 0
  occ := 0

/-- An idle converter. -/
def AdcSt.init : AdcSt := ⟨none, none, [], none, [], [], none, []⟩

/-- A generator that is stopped. -/
def PwmSt.init : PwmSt where
  began := 0
  k0 := 0
  mode := 0
  pre := 0
  per := 65535
  pmin := 0
  down := false
  actPmin := 0
  trg := Vector.replicate 2 0
  dta := 0
  dtb := 0
  dtmin := 0
  margin := 0
  fired := Vector.replicate 2 false
  firedT := Vector.replicate 2 false
  ref := Vector.replicate 2 false
  lvl := Vector.replicate 2 false
  on := none
  safe := true
  lead := true
  first := none
  follow := false
  phased := false
  jumped := false
  endSeen := none
  pstart := false
  ended := none
  pend := false
  held := (0, false)
  edge := Vector.replicate 2 0
  edgeB := Vector.replicate 2 0

/-- A position interface that has not run. -/
def PosSt.init : PosSt where
  a := false
  b := false
  z := false
  ha := 0
  hb := 0
  hz := 0
  held := false
  idxAt := none
  was := none
  cnt := 0
  idx := none
  e1 := none
  e2 := none
  run := (true, 0)
  win := 0
  wcnt := 0
  acc := 0
  enc := 0
  encPin := 0
  await := false
  skip := false
  zrst := false
  qerrAt := none
  before := none
  good := none
  goodB := none
  goodA := none
  ssiOk := false
  ssiPos := 0
  frame := none
  mono := false
  samp := []
  spd := []
  quad := none

/-- A loop engine that has not run. -/
def LeSt.init : LeSt where
  pipes := Vector.replicate 5 ⟨0, none, none, []⟩
  gen := ⟨Vector.replicate 32 0, [], 0, false, 0, none, none, Vector.replicate 4 0⟩
  drv := []
  prev := 0
  coast := none
  plan := false
  prof := none
  wrote := []
  copy := none

/-- The twin block before Ready. -/
def TwinSt.init : TwinSt where
  out := []
  fseq := 0
  markAt := 0
  markIdx := 0
  pulse := none
  step := 0
  begun := false
  standby := false
  seen := none
  trip := none
  align := none
  lockOn := false
  phi := 0
  carry := 0
  okMarks := 0
  hbAt := 0
  flags := 0
  lost := false
  armed := false
  periods := 0
  unpair := .reset
  tx := none
  rxSeq := 0
  rxLen := 0
  rxOffs := []
  rxWait := []
  applied := 0
  mirror := Vector.replicate 16 ⟨0, 0, 0, 0⟩
  dec := none
  commit := false
  switch := false
  ownAt := 0
  faultAt := 0
  leaveAt := none
  takeGen := false
  blank := false
  offer := none

/-- The station-cycle engine with empty buffers. -/
def ScSt.init : ScSt := ⟨0, false, none, false, Vector.replicate 32 ⟨none, [], false, [], [], 0⟩, []⟩

/-- The matrix with no routes; every level source at 0, among them those of timer pins that no action has driven (R146; DESIGN CHOICE, log
entry 140). -/
def MatrixSt.init : MatrixSt where
  routes := []
  lv := []
  chg := []
  word := []
  ev := []
  nw := []
  evDone := []
  nwDone := []
  lvPrev := []
  dlv := []
  dword := []
  dnew := []
  stretch := []
  enStart := []
  enPrev := []
  renBy := []
  sw := []

/-- A new flash bank. -/
def FBankSt.init : FBankSt where
  cmd := none
  since := 0
  dur := 1
  jrow := []
  progd := []
  wear := []
  spareWear := 0
  ceSec := []
  queue := []
  refr := none
  spare := []
  own := []
  mpos := 0
  streams := []
  ended := none

/-- The machine right after it leaves Reset for Blank, as the Reset columns of spec/ give it (R8, R28, R414). -/
def State.reset : State where
  pending := []
  now := 0
  cal := []
  inbox := []
  later := []
  regs := []
  mem := []
  upset := []
  ans := ⟨0, false⟩
  fresh := 0
  sys := ⟨.blank, .reset, .reset, 0, 0, false, false, false, none, none, [], [], 0, Vector.replicate 8 1000000, [], 0, []⟩
  hp := none
  load := ⟨.none, [], 0, 0⟩
  mx := MatrixSt.init
  pairs := Vector.replicate 4 PairSt.init
  evc := EvcSt.init
  fl := ⟨Vector.replicate 4 FBankSt.init, false, 0, none⟩
  ix := ⟨Vector.replicate 6 [], Vector.replicate 6 false, Vector.replicate 6 (Vector.replicate 13 0), Vector.replicate 6 0, Vector.replicate 4 0, Vector.replicate 6 (Vector.replicate 4 0)⟩
  qtag := []
  dma := ⟨Vector.replicate 32 ⟨none, 0, 0, none⟩, none, Vector.replicate 4 0⟩
  dbg := ⟨.bypass, 0, false, false, []⟩
  marks := []
  hits := []
  accs := []
  cyc := []
  old := []
  tmr := Vector.replicate 24 ⟨0, 0, 0, false, Vector.replicate 2 (0, 99, false), false, none, Vector.replicate 2 none⟩
  tod := ⟨0, 0, Vector.replicate 13 (0, 0), none, false⟩
  adc := Vector.replicate 8 AdcSt.init
  rot := ⟨none, false, false, none, Vector.replicate 9 ⟨0, 0, 0, []⟩⟩
  pwm := Vector.replicate 16 PwmSt.init
  strobe := 0
  dlWaits := false
  pos := Vector.replicate 8 PosSt.init
  le := Vector.replicate 8 LeSt.init
  twin := TwinSt.init
  eth := Vector.replicate 2 ⟨[], 0, false⟩
  sc := ScSt.init
  cmps := ⟨Vector.replicate 48 ⟨false, none, none, 0, none, 0, none⟩, none, none, Vector.replicate 48 0⟩

end Sys2Proof.Machine
end

