-- ==== Sys2Proof/Machine/Ops.lean ====
section
/-! DEFINITION. The named operations over the state: registers, memory, calendar, signals, counters. -/

namespace Sys2Proof.Machine

/-- What every meaning answers. -/
abbrev Out := Host.Outcome State Fault Refusal

/-! ## Registers -/

/-- Word held by instance (i, j) of a register family. -/
def State.reg (s : State) (r : RegName) (i j : Nat) : Word := s.regs.get (r.addr i j) (regDefault (r.addr i j))

/-- Stores a word in a register. -/
def State.setReg (s : State) (r : RegName) (i j : Nat) (v : Word) : State :=
  { s with regs := s.regs.put (r.addr i j) v (regDefault (r.addr i j)) }

/-- A field of a register, as a number. -/
def State.fld (s : State) (f : Fld) (i j : Nat) : Nat := getBits (s.reg f.reg i j) f.hi f.lo

/-- Stores a field, leaving the register's other bits. -/
def State.setFld (s : State) (f : Fld) (i j v : Nat) : State :=
  s.setReg f.reg i j (setBits (s.reg f.reg i j) f.hi f.lo v)

/-- A one-bit field, or whether any bit of a field is 1. -/
def State.flag (s : State) (f : Fld) (i j : Nat) : Bool := s.fld f i j != 0

/-- Largest value of a field. -/
def Fld.max (f : Fld) : Nat := 2 ^ (f.hi + 1 - f.lo) - 1

/-- Records that hardware counts `k` in a field in this cycle of its block's clock (R9). -/
def State.hit (s : State) (f : Fld) (i j k : Nat) : State :=
  let a := f.reg.addr i j
  let h := s.hits.get a (s.reg f.reg i j, 0)
  { s with hits := s.hits.put a (h.1, setBits h.2 f.hi f.lo (min f.max (getBits h.2 f.hi f.lo + k))) (0, 0) }

/-- Adds to a counter that stays at its largest value. -/
def State.bumpBy (s : State) (f : Fld) (i j k : Nat) : State := (s.hit f i j k).setFld f i j (min f.max (s.fld f i j + k))

/-- Hardware sets a field to `k`: a write or a read that clears it in the same cycle does not prevail (R9). -/
def State.raiseFld (s : State) (f : Fld) (i j k : Nat) : State :=
  let a := f.reg.addr i j
  let h := s.hits.get a (s.reg f.reg i j, 0)
  ({ s with hits := s.hits.put a (h.1, setBits h.2 f.hi f.lo k) (0, 0) } : State).setFld f i j k

/-- What hardware set or counted in a register in this cycle of its block's clock. -/
def State.came (s : State) (r : RegName) (i j : Nat) : Word := (s.hits.get (r.addr i j) (0, 0)).2

/-- LOOPCLK cycles in a cycle of the clock that drives the register at an address (Tables 1.1, 1.3): CORECLK and LOOPCLK, BUSCLK,
PERCLK. -/
def clkLc (a : Nat) : Nat :=
  if a < 0x41100000 ∨ (0x44308000 ≤ a ∧ a < 0x4430C000) then 1
  else if 0x43100000 ≤ a ∧ a < 0x43110000 then 4
  else if a < 0x44000000 then 2 else 4

/-- A field of a register as it stood at the start of this lc. -/
def State.oldReg (s : State) (r : RegName) (i j : Nat) : Word := s.old.get (r.addr i j) (regDefault (r.addr i j))

/-- See `oldReg`. -/
def State.oldFld (s : State) (f : Fld) (i j : Nat) : Nat := getBits (s.oldReg f.reg i j) f.hi f.lo

/-- Adds 1 to a counter that stays at its largest value. -/
def State.bump (s : State) (f : Fld) (i j : Nat) : State := s.bumpBy f i j 1

/-- Takes back a count of this cycle. -/
def State.unbump (s : State) (f : Fld) (i j : Nat) : State :=
  let a := f.reg.addr i j
  let h := s.hits.get a (s.reg f.reg i j, 0)
  ({ s with hits := s.hits.put a (h.1, setBits h.2 f.hi f.lo (getBits h.2 f.hi f.lo - 1)) (0, 0) } : State).setFld f i j (s.fld f i j - 1)

/-- Adds 1 to a counter that wraps. -/
def State.count (s : State) (f : Fld) (i j : Nat) : State := s.setFld f i j (s.fld f i j + 1)

/-- Puts every register of a list of families (all instances) back to its reset value. -/
def State.resetRegs (s : State) (p : RegName → Bool) : State :=
  { s with regs := s.regs.filter fun e => match regAt e.1 with
             | some (r, _, _) => !p r
             | none => true
           hits := [] }

/-! ## Memory -/

/-- Byte at an address of memory. -/
def State.byte (s : State) (a : Nat) : Byte := s.mem.get a (memDefault a)

/-- Stores one byte. -/
def State.setByte (s : State) (a : Nat) (b : Byte) : State := { s with mem := s.mem.put a b (memDefault a) }

/-- `n` bytes from `a` as a little-endian number (R20). -/
def State.readLE (s : State) (a : Nat) : Nat → Nat
  | 0 => 0
  | n + 1 => (s.byte a).toNat + 256 * s.readLE (a + 1) n

/-- Stores the low `n` bytes of a number, little-endian (R20). -/
def State.writeLE (s : State) (a v : Nat) : Nat → State
  | 0 => s
  | n + 1 => State.writeLE (s.setByte a (BitVec.ofNat 8 v)) (a + 1) (v / 256) n

/-- Word at an address. -/
def State.word (s : State) (a : Nat) : Word := BitVec.ofNat 32 (s.readLE a 4)

/-- Stores a word. -/
def State.setWord (s : State) (a : Nat) (w : Word) : State := s.writeLE a w.toNat 4

/-- The `n` bytes from `a`. -/
def State.bytes (s : State) (a : Nat) : Nat → List Byte
  | 0 => []
  | n + 1 => s.byte a :: s.bytes (a + 1) n

/-- Stores a list of bytes from `a`: the entries below, the bytes that are not what an unlisted byte reads as, those above. -/
def State.setBytes (s : State) (a : Nat) (bs : List Byte) : State :=
  { s with mem := (s.mem.filter fun e => decide (e.1 < a)) ++
      ((bs.zipIdx a).filterMap fun x => if x.1 = memDefault x.2 then none else some (x.2, x.1)) ++
      (s.mem.filter fun e => decide (a + bs.length ≤ e.1)) }

/-- Puts the bytes of [lo, hi) back to what an unlisted byte reads as. -/
def State.clearMem (s : State) (lo hi : Nat) : State :=
  { s with mem := s.mem.filter fun e => !(decide (lo ≤ e.1) && decide (e.1 < hi)) }

/-- A little-endian word from the first four bytes of a list. -/
def wordOfBytes (bs : List Byte) : Word :=
  BitVec.ofNat 32 ((bs.take 4).foldr (fun b n => b.toNat + 256 * n) 0)

/-- A 16-bit number from two bytes, little-endian. -/
def halfOfBytes (bs : List Byte) : Nat := (bs.take 2).foldr (fun b n => b.toNat + 256 * n) 0

/-- The `n` low bytes of a number, least significant first. -/
def leBytes (v : Nat) : Nat → List Byte
  | 0 => []
  | n + 1 => BitVec.ofNat 8 v :: leBytes (v / 256) n

/-- The four bytes of a word, little-endian (R4). -/
def Word.bytes (w : Word) : List Byte := leBytes w.toNat 4

/-! ## Time, signals, commands brought about -/

/-- Order of the commands that fall due in one lc: what begins a segment or a countdown (0) comes before the lc's deliveries and
strobes, compares that are matrix sources (1) after them, those of REF (2) once what the sources bring about has acted (Table 2.5),
turn-ons (3) after the REF edges of the lc (R127). -/
def dueRank : Instr → Nat
  | .pwmTriggerCompare _ _ => 1
  | .phaseEvent _ => 1
  | .timerMatch _ _ => 1
  | .pwmCompareAction _ _ => 2
  | .deadTimeEnd _ _ => 3
  | .adaptiveTurnOn _ _ => 3
  | _ => 0

/-- Puts a command on the calendar `d` lc from now, in place of the same command if it is there. -/
def State.sched (s : State) (d : Nat) (c : Instr) : State :=
  { s with cal := (s.cal.filter fun e => e.2 ≠ c) ++ [(s.now + d, c)] }

/-- Puts a command on the calendar `d` lc from now, beside any like it. -/
def State.schedMore (s : State) (d : Nat) (c : Instr) : State := { s with cal := s.cal ++ [(s.now + d, c)] }

/-- Puts a command on the calendar for lc `t`; one whose lc has come falls due in this lc. -/
def State.schedAt (s : State) (t : Nat) (c : Instr) : State := s.sched (t - s.now) c

/-- Records that a register was written in this lc, by a matrix port or over the bus (R50). -/
def State.mark (s : State) (a : Nat) (port : Bool) : State := { s with marks := (a, port) :: s.marks }

/-- The register was written in this lc that way. -/
def State.marked (s : State) (a : Nat) (port : Bool) : Bool := s.marks.contains (a, port)

/-- Takes a command off the calendar. -/
def State.unsched (s : State) (c : Instr) : State := { s with cal := s.cal.filter fun e => e.2 ≠ c }

/-- Takes off the calendar every command that satisfies `p`. -/
def State.unschedAll (s : State) (p : Instr → Bool) : State := { s with cal := s.cal.filter fun e => !p e.2 }

/-- Adds a command brought about in this lc. -/
def State.emit (s : State) (c : Instr) : State := { s with inbox := s.inbox ++ [c] }

/-- The late part of this lc has come. -/
def State.isLate (s : State) : Bool := s.marked 1 true

/-- Keeps a command of this lc for its late part. -/
def State.defer (s : State) (c : Instr) : State := if s.later.contains c then s else { s with later := s.later ++ [c] }

/-- An occurrence of an event-controller source (R288): its pending bit is set in the next lc (R295). -/
def State.evcRaise (s : State) (n : SrcId) : State := s.schedMore 1 (.evcEvent n)

/-- A matrix event source produces an event in this lc (R217). -/
def State.raiseEv (s : State) (k : Nat) : State := { s with mx := { s.mx with ev := s.mx.ev ++ [k] } }

/-- A matrix data source produces a word in this lc (R217). -/
def State.raiseData (s : State) (k : Nat) (w : Word) : State :=
  { s with mx := { s.mx with word := s.mx.word.put k w 0, nw := s.mx.nw ++ [k] } }

/-- A matrix level source takes a level (R217); direct routes see every change. -/
def State.setLv (s : State) (k : Nat) (b : Bool) : State :=
  { s with mx := { s.mx with
      lv := s.mx.lv.put k b false
      chg := if s.mx.lv.get k false = b then s.mx.chg else s.mx.chg ++ [(k, b)] } }

/-- A level source takes a level in place of the one it took in this lc from `base`, which no direct route has seen yet if it still
waits to be seen. -/
def State.relv (s : State) (k : Nat) (base b : Bool) : State :=
  if s.mx.chg.any fun e => decide (e.1 = k) then
    ({ s with mx := { s.mx with lv := s.mx.lv.put k base false, chg := s.mx.chg.filter fun e => decide (e.1 ≠ k) } } : State).setLv k b
  else s.setLv k b

/-- Level that a level or edge destination sees. -/
def State.destLv (s : State) (d : Nat) : Bool := s.mx.dlv.get d false

/-- Last word that a data destination took. -/
def State.destWord (s : State) (d : Nat) : Word := s.mx.dword.get d 0

/-- The next index of a free value. -/
def State.draw (s : State) : State := { s with fresh := s.fresh + 1 }

/-! ## Modes -/

/-- The control domain, the pairs and the bus masters work: Ready, the Run modes, Handover, Safe-Hold (Table 1.7). -/
def Mode.live : Mode → Bool
  | .ready => true
  | .runSolo => true
  | .runActive => true
  | .runStandby => true
  | .handover => true
  | .safeHold => true
  | _ => false

/-- Run-Solo, Run-Active, Run-Standby, Handover. -/
def Mode.run : Mode → Bool
  | .runSolo => true
  | .runActive => true
  | .runStandby => true
  | .handover => true
  | _ => false

/-- The pairs run firmware (Table 1.7). -/
def Mode.cores (m : Mode) : Bool := m.live || decide (m = .maintenance)

/-- WLK fields can be written (R6, R34). -/
def Mode.wlk (m : Mode) : Bool := decide (m = .loading) || decide (m = .maintenance)

/-- WLK fields can be written: by the mode before a change in this PERCLK cycle (R34). -/
def State.wlk (s : State) : Bool := s.sys.perMode.wlk

/-- The mode as the blocks see it: with the device clocks stopped by a clock loss (R19) they stand, as in Retention. -/
def State.mode (s : State) : Mode :=
  if s.flag F.SYS_CLK_STAT_CLK_LOST 0 0 && !s.marked (RegName.SYS_CLK_STAT.addr 0 0) false then .retention else s.sys.mode

/-- The pair's state. -/
def State.pair (s : State) (p : Pair) : PairSt := s.pairs[p]

/-- Replaces a pair's state. -/
def State.setPair (s : State) (p : Pair) (x : PairSt) : State := { s with pairs := vset s.pairs p x }

/-- Records the answer of a bus access. -/
def State.answer (s : State) (w : Word) : State := { s with ans := ⟨w, false⟩ }

/-- Master `m` makes an access: its second in a BUSCLK cycle lies in a later cycle than the accesses made so far (R354; DEDUCED,
log entry 126). -/
def State.access (s : State) (m : Fin 13) : State :=
  if s.accs.contains m then { s with accs := [m], cyc := [] } else { s with accs := m :: s.accs }

/-- Master `m` makes an access, which ends well unless something says otherwise. -/
def State.opened (s : State) (m : Fin 13) : State := (s.access m).answer 0

/-- Records a bus error. -/
def State.busError (s : State) : State := { s with ans := ⟨0, true⟩ }

end Sys2Proof.Machine
end

