-- ==== Sys2Proof/Machine/Access.lean ====
section
/-! DEFINITION. The partition unit and the access rules: identities, windows, ownership, access codes
(R6, R13, R356 to R362). -/

namespace Sys2Proof

/-- System agents: twin epoch engine, bit-stream loader, background services (Table 1.2). -/
def Req.sysAgent (r : Req) : Bool := decide (r.master.val = 6 ∨ r.master.val = 7 ∨ r.master.val = 11)

/-- The debug port (Table 9.8a). -/
def Req.isDebug (r : Req) : Bool := decide (r.master.val = 12)

/-- Privilege that a transaction carries: a pair's own; Supervisor for the DMA engine, the table fetch, ETH0, ETH1 and the station-cycle
engine (R356). -/
def Req.level (r : Req) : Priv :=
  if r.master.val = 4 ∨ r.master.val = 5 ∨ r.master.val = 8 ∨ r.master.val = 9 ∨ r.master.val = 10 then .supervisor else r.priv

/-- T0 at Monitor, a system agent or the debug port: no ownership rule stops it (R356, R358). -/
def Req.root (r : Req) : Bool :=
  r.sysAgent || r.isDebug || (decide (r.tenant = 0) && decide (r.level = .monitor))

/-- T0 at Monitor itself. -/
def Req.t0mon (r : Req) : Bool := decide (r.tenant = 0) && decide (r.priv = .monitor) && decide (r.master.val < 4)

/-- The pair a requester is, if it is one. -/
def Req.pair (r : Req) : Option Pair := if h : r.master.val < 4 then some ⟨r.master.val, h⟩ else none

/-- The requester owns a resource of tenant `t`, or can write every resource (R358). -/
def Req.owns (r : Req) (t : Tenant) : Bool := r.root || decide (r.tenant = t)

end Sys2Proof

namespace Sys2Proof.Machine

/-- Kinds of access, with the KIND codes of PTU_LASTVIOL. -/
inductive Kind
  | read | write | fetch
  deriving DecidableEq, Repr

/-- KIND code of PTU_LASTVIOL. -/
def Kind.code : Kind → Nat
  | .read => 0
  | .write => 1
  | .fetch => 2

/-- PSW.PRIV encoding carried by a transaction (R356). -/
def privBits (p : Priv) : Nat :=
  match p with
  | .user => 0
  | .supervisor => 1
  | .monitor => 3

/-- PL0, or an authenticated session, whose columns of Table 14.3 are those of PL0. -/
def State.dbgFull (s : State) : Bool := decide (s.fld F.FL_PL_LEVEL 0 0 = 0) || s.flag F.DBG_STAT_AUTH 0 0

/-- Debug state is halt-capable in a mode whose cell of Table 14.3 grants W. -/
def State.dbgW (s : State) : Bool :=
  decide (s.fld F.DBG_STAT_STATE 0 0 = 2) && s.dbgFull && (s.sys.mode.cores || decide (s.sys.mode = .blank))

/-- A master can make accesses now: the loader in Loading, and reads in Verify (Table 9.5); the debug port under W; the rest while
pairs run (R241, Tables 1.7, 14.3, 14.5). -/
def State.reqLive (s : State) (r : Req) (k : Kind) : Bool :=
  if r.master.val = 7 then decide (s.mode = .loading) || (decide (s.mode = .verify) && decide (k = .read))
  else if r.isDebug then s.dbgW
  else s.mode.cores

/-- Window `w` of tenant `t` permits the `n` bytes from `a` (R359). -/
def State.winPermits (s : State) (t : Tenant) (user : Bool) (k : Kind) (a n w : Nat) : Bool :=
  let rt := s.reg .PTU_WINt_w_RIGHTS t w
  let base := (s.reg .PTU_WINt_w_BASE t w).toNat
  let size := 2 ^ s.fld F.PTU_WINt_w_SIZE_SIZE t w
  rt.getLsbD 4 && (!user || rt.getLsbD 3) &&
    (match k with
     | .read => rt.getLsbD 0
     | .write => rt.getLsbD 1
     | .fetch => rt.getLsbD 2) &&
    decide (base ≤ a) && decide (a + n ≤ base + size)

/-- Some window of the carried tenant permits the access, or the access is not checked (R359, R360). -/
def State.windowOk (s : State) (r : Req) (k : Kind) (a n : Nat) : Bool :=
  r.sysAgent || r.isDebug ||
    (List.range 16).any fun w => s.winPermits r.tenant (decide (r.level = .user)) k a n w

/-- Accesses that no window governs: the pair-private range and its debug aliases, the Monitor alias (R360); a write to the
configuration space, which no window can grant (R361), is a bus error for every master but the loader (R22). -/
def unwindowed (k : Kind) (a : Nat) : Bool :=
  decide (0xE0000000 ≤ a ∧ a < 0xE0010000) || decide (0xF0000000 ≤ a ∧ a < 0xF0030000) ||
    decide (0x44308000 ≤ a ∧ a < 0x4430C000) || (decide (k = .write) && decide (0x50000000 ≤ a ∧ a < 0x51000000))

/-- The windows permit the access, or do not govern it (R359, R360). -/
def State.permitted (s : State) (r : Req) (k : Kind) (a n : Nat) : Bool := unwindowed k a || s.windowOk r k a n

/-- Records an access that no window permits (R362). -/
def State.violation (s : State) (r : Req) (k : Kind) (a : Nat) : State :=
  let s := s.bump F.PTU_VIOLt_COUNT r.tenant 0
  let s := s.setReg .PTU_LASTVIOL 0 0
    (BitVec.ofNat 32 (r.master.val * 256 + r.tenant.val * 16 + privBits r.level * 4 + k.code))
  let s := s.setReg .PTU_LASTADDR 0 0 (BitVec.ofNat 32 a)
  s.evcRaise 0x189

/-- The tenant that the tenant table gives a resource, by the test of its mask bit; T0 where no tenant has it (R357). -/
def ownerBy (has : Tenant → Bool) : Tenant :=
  match (List.finRange 8).find? has with
  | some t => t
  | none => 0

/-- Owner of loop engine n. -/
def State.leOwner (s : State) (n : LeId) : Tenant := ownerBy fun t => (s.reg .PTU_TENt_LE t 0).getLsbD n
/-- Owner of PWM group k. -/
def State.grpOwner (s : State) (k : Nat) : Tenant := ownerBy fun t => (s.reg .PTU_TENt_PWM t 0).getLsbD k
/-- Owner of DMA channel n. -/
def State.dmaOwner (s : State) (n : Chan) : Tenant := ownerBy fun t => (s.reg .PTU_TENt_DMA t 0).getLsbD n
/-- Owner of queue n. -/
def State.queueOwner (s : State) (n : QId) : Tenant :=
  ownerBy fun t => (s.reg .PTU_TENt_Qi t (n.val / 32)).getLsbD (n.val % 32)
/-- Owner of event-controller source n; POOL_FAULT_Tt belongs to tenant t (R350). -/
def State.srcOwner (s : State) (n : SrcId) : Tenant :=
  if 0x180 ≤ n.val ∧ n.val < 0x188 then Fin.ofNat 8 n.val
  else ownerBy fun t => (s.reg .PTU_TENt_EVCi t (n.val / 32)).getLsbD (n.val % 32)

/-- A write refused for its ownership (R358). -/
def State.foreign (s : State) : State := s.bump F.PTU_FOREIGN_CNT_COUNT 0 0

/-- Effect of writing `v` on one field, by its access code (Table 0.3); `wlk` says whether WLK fields can be written; `came` holds
the bits that hardware sets in the same cycle, which prevail over a clear (R9). -/
def writeField (wlk : Bool) (came : Word) (v : Word) (w : Word) (f : FieldDesc) : Word :=
  match f.acc with
  | .rw => setBits w f.hi f.lo (getBits v f.hi f.lo)
  | .wlk => if wlk then setBits w f.hi f.lo (getBits v f.hi f.lo) else w
  | .w1c => w &&& ~~~(v &&& fieldMask f.hi f.lo &&& ~~~came)
  | .w1s => w ||| (v &&& fieldMask f.hi f.lo)
  | .ro => w
  | .wo => w
  | .rclr => w

/-- Writes a register by the access codes of its fields alone (R6, R7, R9, R34). -/
def State.writeReg (s : State) (r : RegName) (i j : Nat) (v : Word) : State :=
  s.setReg r i j (r.fields.foldl (writeField s.wlk (s.came r i j) v) (s.reg r i j))

/-- The bits of a register that a read returns: WO fields read 0 (R6). -/
def readMask (fs : List FieldDesc) : Word :=
  fs.foldl (fun m f => match f.acc with
    | .wo => m
    | _ => m ||| fieldMask f.hi f.lo) 0

/-- The bits of the RCLR fields of a register. -/
def rclrMask (fs : List FieldDesc) : Word :=
  fs.foldl (fun m f => match f.acc with
    | .rclr => m ||| fieldMask f.hi f.lo
    | _ => m) 0

/-- The bits of `a` that `m` selects, those of `b` elsewhere. -/
def mux (m a b : Word) : Word := (a &&& m) ||| (b &&& ~~~m)

/-- Reads a register by its access codes; unless peeked, RCLR fields are cleared (R6). Where hardware sets or counts in the same
cycle, the read returns the old value and what came stays (R9). -/
def State.readReg (s : State) (r : RegName) (i j : Nat) (peek : Bool) : Word × State :=
  let w := s.reg r i j
  let m := rclrMask r.fields
  if peek then (w &&& readMask r.fields, s)
  else
    let h := s.hits.get (r.addr i j) (w, 0)
    let s := s.setReg r i j (mux m h.2 w)
    (mux m h.1 w &&& readMask r.fields,
      if h.2 = 0 then s else { s with hits := s.hits.put (r.addr i j) (mux m 0 h.1, h.2) (0, 0) })

/-- A command that is one access to a register: no effect where the master cannot make accesses; a violation where no
window permits it (R362); else `body`. -/
def regCmd (r : Req) (k : Kind) (rn : RegName) (i j : Nat) (body : State → State) (s : State) : Out :=
  if s.reqLive r k then
    if s.permitted r k (rn.addr i j) 4 then .next (body (s.opened r.master))
    else .next (s.violation r k (rn.addr i j)).busError
  else .next s

end Sys2Proof.Machine
end

