-- ==== Sys2Proof/Machine/Adc.lean ====
section
/-! DEFINITION. Analogue-to-digital conversion (R53 to R83). -/

namespace Sys2Proof.Machine

/-- First matrix source of a converter (Table 9.1): LAST, DONE0 to DONE3, OVR. -/
def adcSrc (x : Conv) : Nat := 0x060 + 8 * x.val

/-- Changes a converter's state. -/
def State.modAdc (s : State) (x : Conv) (f : AdcSt → AdcSt) : State := { s with adc := vmod s.adc x f }

/-- Second index of the registers of entry e of sequence q. -/
def entIx (q : Fin 4) (e : Fin 16) : Nat := 16 * q.val + e.val

/-- Last entry of a sequence (LEN). -/
def State.adcLen (s : State) (x : Conv) (q : Fin 4) : Nat := s.fld F.ADCx_SEQs_CFG_LEN x q
/-- The sequence is urgent. -/
def State.adcUrgent (s : State) (x : Conv) (q : Fin 4) : Bool := s.flag F.ADCx_SEQs_CFG_CLASS x q

/-- No run in progress, interrupted or pending, no acquisition under way (R55). -/
def AdcSt.idle (a : AdcSt) : Bool := a.cur.isNone && a.intr.isNone && a.pend.isEmpty

/-- The sequence is running, interrupted or pending (R75, R77). -/
def AdcSt.busy (a : AdcSt) (q : Fin 4) : Bool :=
  (match a.cur with
   | some c => decide (c.seq = q) && !c.ghost
   | none => false) ||
  (match a.intr with
   | some i => decide (i.1 = q)
   | none => false) || a.pend.any fun p => decide (p.seq = q)

/-! ## Configuration -/

/-- Stores a sequence or entry configuration (R67); a changed input makes the next conversion settle (R66). -/
def State.adcStore (s : State) (x : Conv) (rn : RegName) (j : Nat) (v : Word) : State :=
  match rn with
  | .ADCx_ENT_s_e =>
    let old := s.reg .ADCx_ENT_s_e x j
    let s := s.writeReg .ADCx_ENT_s_e x j v
    let s := s.setFld F.ADCx_ENT_s_e_ACQ x j (max 4 (s.fld F.ADCx_ENT_s_e_ACQ x j))
    if getBits old 6 0 = getBits (s.reg .ADCx_ENT_s_e x j) 6 0 ∨ s.mode = .loading then s
    else s.modAdc x fun a => { a with settle := a.settle.put j true false }
  | r => s.writeReg r x j v

/-- Applies the writes held for sequence q, whose run has ended (R77). -/
def State.adcApplyHeld (s : State) (x : Conv) (q : Fin 4) : State :=
  let mine (e : Nat × Word) : Bool :=
    decide (e.1 = RegName.ADCx_SEQs_CFG.addr x q) ||
      (List.range 16).any fun k => decide (e.1 = RegName.ADCx_ENT_s_e.addr x (16 * q.val + k))
  let hs := s.adc[x].held.filter mine
  let s := s.modAdc x fun a => { a with held := a.held.filter fun e => !mine e }
  hs.foldl (fun s e => match regAt e.1 with
    | some (r, _, j) => s.adcStore x r j e.2
    | none => s) s

/-- A write to ADCx_SEQs_CFG (R77). -/
def State.adcSeqWrite (s : State) (x : Conv) (q : Fin 4) (v : Word) : State :=
  if s.adc[x].busy q then
    s.modAdc x fun a => { a with held := (a.held.drop (RegName.ADCx_SEQs_CFG.addr x q)).insert (RegName.ADCx_SEQs_CFG.addr x q) v }
  else s.adcStore x .ADCx_SEQs_CFG q v

/-- The entry word names an input pair that does not exist. -/
def badEntry (v : Word) : Bool := decide (47 < getBits v 5 0) || (v.getLsbD 6 && v.getLsbD 0)

/-- A write to ADCx_ENT_s_e (R66, R67, R77); one with an invalid input is ignored and counted. -/
def State.adcEntWrite (s : State) (x : Conv) (j : Nat) (v : Word) : State :=
  let a := RegName.ADCx_ENT_s_e.addr x j
  if badEntry v then s.bump F.ADCx_ERR_CNT_OVR x 0
  else if s.adc[x].busy (Fin.ofNat 4 (j / 16)) then
    s.modAdc x fun k => { k with held := (k.held.drop a).insert a v }
  else s.adcStore x .ADCx_ENT_s_e j v

/-- ADC_SEQ_CFG_WRITE. -/
def execAdcSeqCfgWrite (r : Req) (x : Conv) (q : Fin 4) (v : Word) (s : State) : Out :=
  regCmd r .write .ADCx_SEQs_CFG x q (fun s => s.adcSeqWrite x q v) s

/-- ADC_ENTRY_WRITE. -/
def execAdcEntryWrite (r : Req) (x : Conv) (q : Fin 4) (e : Fin 16) (v : Word) (s : State) : Out :=
  regCmd r .write .ADCx_ENT_s_e x (entIx q e) (fun s => s.adcEntWrite x (entIx q e) v) s

/-- A write to ADCx_REF_CFG (R70): 0b11 is ignored, the value held has no effect; a conversion held in this lc is STALE
(Table 3.3). -/
def State.adcRefWrite (s : State) (x : Conv) (src : Nat) : State :=
  if src = 3 ∨ src = s.fld F.ADCx_REF_CFG_SRC x 0 then s
  else
    let s := s.setFld F.ADCx_REF_CFG_SRC x 0 src
    let s := s.setFld F.ADCx_STAT_REFRDY x 0 0
    let s := s.modAdc x fun a =>
      { a with cur := a.cur.map fun c => if c.conv && decide (c.hold = s.now) then { c with stale := true } else c }
    if s.mode.cores then s.sched 8000 (.refSettled x) else s

/-- ADC_REF_SELECT. -/
def execAdcRefSelect (r : Req) (x : Conv) (src : BitVec 2) (s : State) : Out :=
  regCmd r .write .ADCx_REF_CFG x 0 (fun s => s.adcRefWrite x src.toNat) s

/-- REF_SETTLED (R70). -/
def execRefSettled (x : Conv) (s : State) : Out :=
  .next (if s.mode.cores then (s.setFld F.ADCx_STAT_REFRDY x 0 1).unsched (.refSettled x) else s)

/-! ## Runs -/

/-- Starts acquiring an entry at lc `t`; `late` = 1 after a swap in this lc (R37, R57, R71). -/
def State.adcEntry (s : State) (x : Conv) (q : Fin 4) (e : Fin 16) (late : Bool) : State :=
  let h := s.now + s.fld F.ADCx_ENT_s_e_ACQ x (entIx q e) + (if late then 1 else 0)
  let s := s.modAdc x fun a => { a with cur := some ⟨q, e, h, false, false, late, false, 0, false⟩ }
  s.schedAt h (.adcHold x .pins)

/-- Changes AGE of every entry of a sequence, entries 0 to LEN: those are what a sequence has (R71, R80; DEDUCED, log entry 108). -/
def State.adcAge (s : State) (x : Conv) (q : Fin 4) (f : Nat → Nat) : State :=
  (List.range (s.adcLen x q + 1)).foldl (fun s e =>
    s.setFld F.ADCx_RES_s_e_AGE x (16 * q.val + e) (f (s.fld F.ADCx_RES_s_e_AGE x (16 * q.val + e)))) s

/-- A run of sequence q starts (R71, R80). -/
def State.adcRun (s : State) (x : Conv) (q : Fin 4) : State :=
  let late := decide (s.adc[x].swapLc = some s.now)
  (s.adcAge x q fun a => if a = 0 ∨ a = 2 then 1 else a).adcEntry x q 0 late

/-- The request served first (R73): the earliest, then the lower sequence number, of those given. -/
def firstPend (ps : List AdcPend) : Option AdcPend :=
  ps.foldl (fun b p => match b with
    | none => some p
    | some o => if p.at_ < o.at_ ∨ (p.at_ = o.at_ ∧ p.seq < o.seq) then some p else some o) none

/-- The converter has become free: pending urgent requests, then the interrupted run, then pending normal requests
(R73, R74). -/
def State.adcNext (s : State) (x : Conv) : State :=
  let a := s.adc[x]
  match firstPend (a.pend.filter (·.urgent)) with
  | some p => (s.modAdc x fun a => { a with pend := a.pend.erase p }).adcRun x p.seq
  | none =>
    match a.intr with
    | some (q, e) => (s.modAdc x fun a => { a with intr := none }).adcEntry x q e false
    | none =>
      match firstPend a.pend with
      | some p => (s.modAdc x fun a => { a with pend := a.pend.erase p }).adcRun x p.seq
      | none => s

/-- The result word of a conversion (R79, R80). -/
def AdcCur.word (c : AdcCur) (settle : Bool) : Word :=
  let b (x : Bool) (k : Nat) : Nat := if x then 2 ^ k else 0
  BitVec.ofNat 32 (b settle 25 + b c.sub 24 + b c.oor 23 + b c.stale 22 + entIx c.seq c.ent * 65536 + c.code.toNat)

/-- lc H + 16: the core is free; the next entry or request starts, or the run ends (Table 3.2, R74, R77). A conversion whose result
is discarded leaves its entry's settling mark: the conversion that repeats it is the entry's next one with a result
(R66; DEDUCED, log entry 109). -/
def State.adcFree (s : State) (x : Conv) : State :=
  match s.adc[x].cur with
  | none => s
  | some c =>
    let s := s.modAdc x fun a => { a with cur := none }
    if c.ghost then s.adcNext x
    else
      let last := decide (s.adcLen x c.seq ≤ c.ent.val)
      let j := entIx c.seq c.ent
      let d : AdcDone := ⟨c.seq, c.ent, c.word (s.adc[x].settle.get j false),
        last && s.flag F.ADCx_SEQs_CFG_DONEEVT x c.seq, last && s.flag F.ADCx_SEQs_CFG_DMAREQ x c.seq⟩
      let s := s.modAdc x fun a => { a with done := some d, settle := a.settle.drop j }
      if last then (s.adcApplyHeld x c.seq).adcNext x
      else s.adcEntry x c.seq (c.ent + 1) false

/-- lc H + 17: the result is valid, in its register and on ADCx_LAST; DONE and the DMA request (R79, R328). -/
def State.adcLand (s : State) (x : Conv) : State :=
  match s.adc[x].done with
  | none => s
  | some d =>
    let s := s.modAdc x fun a => { a with done := none }
    let s := s.setReg .ADCx_RES_s_e x (entIx d.seq d.ent) d.word
    let s := s.raiseData (adcSrc x) d.word
    let s := if d.evt then s.raiseEv (adcSrc x + 1 + d.seq.val) else s
    if d.dma then s.emit (.dmaPeripheralRequest (Fin.ofNat 32 (4 * x.val + d.seq.val))) else s

/-- Code of levels in nanovolts (R63, R64) and whether the ideal code lies out of range (R65): the nearest code, halfway
upward, limited. A reference that is not positive gives a free code. -/
def adcCode (diff : Bool) (vp vn vref : Int) (free : Int) : BitVec 16 × Bool :=
  let k : Int := if diff then 32768 else 65536
  let ideal : Int := if vref ≤ 0 then free else (2 * (vp - vn) * k + vref) / (2 * vref)
  let lo : Int := if diff then -32768 else 0
  let hi : Int := if diff then 32767 else 65535
  (BitVec.ofInt 16 (min hi (max lo ideal)), decide (ideal < lo) || decide (hi < ideal))

/-- Level of AINk. -/
def analogIn (a : Analog) (t k : Nat) : Int :=
  match a with
  | .pins => Config.ain t k
  | .board l _ _ _ => l.getD k 0

/-- Levels of VREFP, VREFN and VDDA. -/
def analogRefs (a : Analog) (t : Nat) : Int × Int × Int :=
  match a with
  | .pins => Config.refPins t
  | .board _ p n v => (p, n, v)

/-- Positive node, negative node and reference that a converter with reference SRC samples for an entry word: input INSEL against
VREFN or AGND, or the pair INSEL and INSEL + 1; 2.5000 V, VREFP − VREFN or VDDA (R62 to R64, R69). -/
def analogNodes (a : Analog) (t : Nat) (ent : Word) (src : Nat) : Int × Int × Int :=
  let k := getBits ent 5 0
  let r := analogRefs a t
  let neg := if src = 1 then r.2.1 else 0
  (analogIn a t k, if ent.getLsbD 6 then analogIn a t (k + 1) else neg,
    if src = 0 then 2500000000 else if src = 1 then r.1 - r.2.1 else r.2.2)

/-- ADC_HOLD: acquisition ends, the core holds and converts (R71). -/
def execAdcHold (x : Conv) (a : Analog) (s : State) : Out :=
  match s.adc[x].cur with
  | some c =>
    if s.mode.live && !c.conv then
      let v := analogNodes a s.now (s.reg .ADCx_ENT_s_e x (entIx c.seq c.ent)) (s.fld F.ADCx_REF_CFG_SRC x 0)
      let diff := s.flag F.ADCx_ENT_s_e_DIFF x (entIx c.seq c.ent)
      let cd := adcCode diff v.1 v.2.1 v.2.2 (Config.adcNoRef s.fresh)
      let stale := !s.flag F.ADCx_STAT_REFRDY x 0
      let s := s.unsched (.adcHold x .pins)
      let s := s.modAdc x fun k =>
        { k with cur := some { c with hold := s.now, conv := true, stale := stale, code := cd.1, oor := cd.2 } }
      .next (s.draw.sched 17 (.adcConversionEnd x))
    else .next s
  | none => .next s

/-- ADC_CONVERSION_END: the conversion is over; its core is free, its result is written. -/
def execAdcConversionEnd (x : Conv) (s : State) : Out :=
  if s.mode.live then
    match s.adc[x].done, s.adc[x].cur with
    | some _, _ => .next (s.adcLand x)
    | none, some c => .next (if c.conv then (s.adcFree x).adcLand x else s)
    | none, none => .next s
  else .next s

/-- What one lc does to a converter: at H + 16 its core is free. -/
def State.adcTick (s : State) (x : Conv) : State :=
  match s.adc[x].cur with
  | some c => if s.mode.live && c.conv && decide (c.hold + 16 ≤ s.now) then s.adcFree x else s
  | none => s

/-- ABORT (R76, R80): runs end, requests are cleared, a conversion in progress completes and is discarded. -/
def State.adcAbort (s : State) (x : Conv) : State :=
  let a := s.adc[x]
  let runs := (a.cur.toList.filter (fun c => !c.ghost)).map (·.seq) ++ a.intr.toList.map (·.1)
  let s := runs.foldl (fun s q => s.adcAge x q fun g => if g = 1 then 2 else g) s
  let s := s.modAdc x fun a =>
    { a with
      cur := a.cur.bind fun c => if c.conv then some { c with ghost := true } else none
      intr := none
      pend := [] }
  let s := if s.adc[x].cur.isNone then s.unsched (.adcHold x .pins) else s
  (runs ++ a.pend.map (·.seq)).foldl (fun s q => s.adcApplyHeld x q) s

/-- A write to ADCx_CTRL: EN, and ABORT or EN = 0 (R76). -/
def State.adcCtrlWrite (s : State) (x : Conv) (v : Word) : State :=
  let s := s.setFld F.ADCx_CTRL_EN x 0 (getBits v 0 0)
  if v.getLsbD 1 || !v.getLsbD 0 then s.adcAbort x else s

/-- ADC_ABORT: a write of ABORT = 1 that leaves EN as it is. -/
def execAdcAbort (r : Req) (x : Conv) (s : State) : Out :=
  regCmd r .write .ADCx_CTRL x 0 (fun s => s.adcCtrlWrite x (BitVec.ofNat 32 (2 + s.fld F.ADCx_CTRL_EN x 0))) s

/-- ADC_DISABLE: a write of EN = 0. -/
def execAdcDisable (r : Req) (x : Conv) (s : State) : Out :=
  regCmd r .write .ADCx_CTRL x 0 (fun s => s.adcCtrlWrite x 0) s

/-! ## Triggers -/

/-- A trigger refused in Verify (R82): NRDY in the result registers of entries 0 to LEN, which the sequence has (DEDUCED, log entry
108). -/
def State.adcRefuse (s : State) (x : Conv) (q : Fin 4) : State :=
  let s := (List.range (s.adcLen x q + 1)).foldl (fun s e => s.setFld F.ADCx_RES_s_e_NRDY x (16 * q.val + e) 1) s
  s.bump F.ADCx_ERR_CNT_REFUSE x 0

/-- A trigger on an enabled sequence (R73 to R75). -/
def State.adcAccept (s : State) (x : Conv) (q : Fin 4) : State :=
  let a := s.adc[x]
  let urgent := s.adcUrgent x q
  let wait (s : State) : State := s.modAdc x fun a => { a with pend := a.pend ++ [⟨urgent, s.now, q⟩] }
  if a.busy q then (s.bump F.ADCx_ERR_CNT_OVR x 0).raiseEv (adcSrc x + 5)
  else if a.idle then s.adcRun x q
  else
    match a.cur with
    | some c =>
      if urgent && !c.ghost && !s.adcUrgent x c.seq then
        let s := s.count F.ADCx_PREEMPT_CNT_COUNT x 0
        let s := s.modAdc x fun a => { a with intr := some (c.seq, c.ent) }
        if c.conv then wait (s.modAdc x fun a => { a with cur := some { c with ghost := true } })
        else ((s.unsched (.adcHold x .pins)).modAdc x fun a => { a with cur := none }).adcRun x q
      else wait s
    | none => wait s

/-- Serves a trigger of an lc (R72): ignored while the sequence or the converter is disabled; refused in Verify. -/
def State.adcServe (s : State) (x : Conv) (q : Fin 4) : State :=
  if !s.flag F.ADCx_CTRL_EN x 0 || !s.flag F.ADCx_SEQs_CFG_EN x q then s
  else if s.mode = .verify then s.adcRefuse x q
  else if s.mode.live then s.adcAccept x q else s

/-- Serves the triggers that reached a converter in this lc, after an ABORT or a swap of the lc: urgent ones first, then lower
sequence numbers (R57, R73, Table 3.3). -/
def State.adcServeAll (s : State) (x : Conv) : State :=
  let ts := (List.finRange 4).filter fun q => s.adc[x].trig.contains q
  let s := s.modAdc x fun a => { a with trig := [] }
  (ts.filter (s.adcUrgent x) ++ ts.filter fun q => !s.adcUrgent x q).foldl (fun s q => s.adcServe x q) s

/-- A trigger of sequence q: the triggers of an lc are served together when all have come; those of one sequence are one
(R72; DESIGN CHOICE, log entry 1). -/
def State.adcTrig (s : State) (x : Conv) (q : Fin 4) : State :=
  s.modAdc x fun a => if a.trig.contains q then a else { a with trig := q :: a.trig }

/-- ADC_TRIGGER: a trigger through the matrix. -/
def execAdcTrigger (x : Conv) (q : Fin 4) (s : State) : Out := .next (s.adcTrig x q)

/-- A write to ADCx_SWTRIG (R72). -/
def State.adcSwWrite (s : State) (x : Conv) (v : Word) : State :=
  ((List.finRange 4).filter fun q => v.getLsbD q.val).foldl (fun s q => s.adcTrig x q) s

/-- ADC_SWTRIG. -/
def execAdcSwtrig (r : Req) (x : Conv) (v : Word) (s : State) : Out :=
  regCmd r .write .ADCx_SWTRIG x 0 (fun s => s.adcSwWrite x v) s

/-- What a read of ADCx_STAT shows. While the discarded conversion of a pre-empted entry completes, no run is in progress: BUSY, RUN_ENT
and RUN_SEQ read 0 (DESIGN CHOICE, log entry 133). -/
def State.adcStat (s : State) (x : Conv) : Word :=
  let a := s.adc[x]
  let pend := (List.finRange 4).foldl (fun n q => if a.pend.any fun p => decide (p.seq = q) then n + 2 ^ q.val else n) 0
  let intr := match a.intr with
    | some (q, e) => e.val * 2 ^ 12 + q.val * 2 ^ 10 + 2 ^ 9
    | none => 0
  let run := match a.cur with
    | some c => if c.ghost then 0 else 2 ^ 8 + c.ent.val * 16 + c.seq.val * 4
    | none => 0
  BitVec.ofNat 32 (pend * 65536 + intr + run + s.fld F.ADCx_STAT_REFRDY x 0)

/-! ## Rotation -/

/-- Core that serves a converter (ADC_MAP). -/
def State.coreOf (s : State) (x : Conv) : Nat := getBits (s.reg .ADC_MAP 0 0) (4 * x.val + 3) (4 * x.val)

/-- The converter of the next swap. -/
def State.rotNext (s : State) : Conv := Fin.ofNat 8 (s.fld F.ADC_ROT_STAT_NEXT 0 0)

/-- Changes the rotation's state. -/
def State.modRot (s : State) (f : RotSt → RotSt) : State := { s with rot := f s.rot }

/-- NEXT advances. -/
def State.rotAdvance (s : State) : State := s.count F.ADC_ROT_STAT_NEXT 0 0

/-- The spare starts its calibration (R59): how long it takes, up to 1 ms, and what it finds are free values. -/
def State.spareCalibrate (s : State) : State :=
  let d := Config.spareCalTime s.fresh % 400000 + 1
  let f := Config.spareCal s.fresh
  let s := s.unschedAll fun c => match c with
    | .spareCalComplete _ => true
    | _ => false
  ((s.modRot fun r => { r with calBusy := true }).draw).sched d (.spareCalComplete ⟨f.1, f.2.1, f.2.2.1, f.2.2.2⟩)

/-- 64 ms and one lc: a core that serves longer than 64 ms is aged (R60). -/
def agedLc : Nat := 25600001

/-- The conditions of R55 for the swap that waits, from the lc after its due tick on; triggers of this lc do not stand against it
(R57). -/
def State.swapReady (s : State) : Bool :=
  s.mode.live && s.rot.waits && s.rot.dueAt.any (fun t => decide (t < s.now + 400000)) && !s.rot.calBusy &&
    s.adc[s.rotNext].idle && decide (s.fld F.ADC_ROT_STAT_SPARE 0 0 ≠ 15)

/-- ROTATION_SWAP (R55, R57, R61). -/
def execRotationSwap (s : State) : Out :=
  if s.swapReady then
    let x := s.rotNext
    let core := s.coreOf x
    let spare := s.fld F.ADC_ROT_STAT_SPARE 0 0
    let s := s.setReg .ADC_MAP 0 0 (setBits (s.reg .ADC_MAP 0 0) (4 * x.val + 3) (4 * x.val) spare)
    let s := s.setFld F.ADC_ROT_STAT_SPARE 0 0 core
    let s := s.count F.ADC_ROT_STAT_SWAPS 0 0
    let s := s.rotAdvance
    let s := s.modRot fun r => { r with waits := false, spareRef := none }
    let s := s.modAdc x fun a => { a with swapLc := some s.now }
    let s := s.sched agedLc (.coreAged (Fin.ofNat 9 spare))
    .next ((s.unsched (.coreAged (Fin.ofNat 9 core))).spareCalibrate)
  else .next s

/-- ROTATION_DUE (R55, R56): a swap that still waits is skipped; the next falls due, to take place from the next lc on. -/
def execRotationDue (s : State) : Out :=
  if s.mode.live && decide (s.fld F.ADC_ROT_STAT_SPARE 0 0 ≠ 15) then
    let s := if s.rot.waits then s.rotAdvance.bump F.ADC_ROT_STAT_SKIPS 0 0 else s
    let s := s.modRot fun r => { r with waits := true, dueAt := some (s.now + 400000) }
    .next (s.sched 392000 .spareRefConnect)
  else .next s

/-- SPARE_REF_CONNECT (R58). -/
def execSpareRefConnect (s : State) : Out :=
  .next (if s.mode.live && decide (s.fld F.ADC_ROT_STAT_SPARE 0 0 ≠ 15) then
    s.modRot fun r => { r with spareRef := some s.rotNext } else s)

/-- Rotation starts (R55): due ticks are counted from now. -/
def State.rotStart (s : State) : State :=
  if s.fld F.ADC_ROT_STAT_SPARE 0 0 = 15 then s
  else (s.modRot fun r => { r with dueAt := some (s.now + 400000), waits := false }).sched 392000 .spareRefConnect

/-- Rotation stops. -/
def State.rotStop (s : State) : State :=
  let s := s.unsched .spareRefConnect
  let s := s.unschedAll fun c => match c with
    | .spareCalComplete _ => true
    | _ => false
  s.modRot fun r => { r with dueAt := none, waits := false, spareRef := none }

/-- A calibration fails (R59): offset beyond ±64 LSB, gain beyond ±0.5 %, INL beyond ±1.5 LSB. -/
def calFails (c : SpareCal) : Bool :=
  decide (64000 < c.off.natAbs) || decide (5000 < c.gain.natAbs) || decide (1500 < c.inl.natAbs)

/-- The cores, one bit each, whose calibrations fail (R82). -/
def calMask (cs : Vector SpareCal 9) : Nat := (List.finRange 9).foldl (fun n k => if calFails cs[k] then n + 2 ^ k.val else n) 0

/-- SPARE_CAL_COMPLETE (R59, R60): the spare's trims are set; it is calibrated, or withdrawn and rotation ends until Reset. -/
def execSpareCalComplete (c : SpareCal) (s : State) : Out :=
  let spare := s.fld F.ADC_ROT_STAT_SPARE 0 0
  if s.mode.live && decide (spare ≠ 15) then
    let s := s.modRot fun r => { r with calBusy := false, trim := vset r.trim (Fin.ofNat 9 spare) c }
    if !calFails c then
      .next (s.setReg .ADC_CAL_STAT 0 0 (setBits (s.reg .ADC_CAL_STAT 0 0) (16 + spare) (16 + spare) 0))
    else
      let s := s.setReg .ADC_CAL_STAT 0 0 (setBits (s.reg .ADC_CAL_STAT 0 0) spare spare 1)
      let s := s.setFld F.ADC_CAL_STAT_DEGRADED 0 0 1
      let s := s.setFld F.ADC_ROT_STAT_SPARE 0 0 15
      .next ((s.rotStop).raiseEv 7)
  else .next s

/-- CORE_AGED (R60): a core in service is aged. -/
def execCoreAged (k : Fin 9) (s : State) : Out :=
  if s.mode.cores && (List.finRange 8).any fun x => decide (s.coreOf x = k.val) then
    .next ((s.setReg .ADC_CAL_STAT 0 0 (setBits (s.reg .ADC_CAL_STAT 0 0) (16 + k.val) (16 + k.val) 1)).raiseEv 8)
  else .next s

/-- What one lc does to rotation: a tick falls due. -/
def State.rotTick (s : State) : State :=
  match s.rot.dueAt with
  | some t => if s.mode.live && decide (t ≤ s.now) then s.emit .rotationDue else s
  | none => s

/-- A waiting swap takes place in this lc if it can (R55), before the triggers of the lc are served (R57). -/
def State.rotLate (s : State) : State := if s.swapReady then s.emit .rotationSwap else s

/-! ## Modes -/

/-- Entry into Ready from Verify or a wake, with the calibrations of the nine cores, whose trims they set (R59, R82, R83). -/
def State.adcFullEntry (s : State) (cal : Vector SpareCal 9) : State :=
  let fail := calMask cal
  let pass := (List.range 9).filter fun k => fail / 2 ^ k % 2 = 0
  let spare := pass.getD 8 15
  let map := (pass.take 8).foldr (fun k n => k + 16 * n) 0
  let s := s.setReg .ADC_MAP 0 0 (BitVec.ofNat 32 map)
  let s := s.setReg .ADC_ROT_STAT 0 0 (BitVec.ofNat 32 (s.fld F.ADC_ROT_STAT_SKIPS 0 0 * 256 + spare))
  let s := s.setReg .ADC_CAL_STAT 0 0 (BitVec.ofNat 32 ((if spare = 15 then 2 ^ 31 else 0) + fail % 512))
  let s := (List.finRange 8).foldl (fun s (x : Conv) => (List.range 64).foldl (fun s j =>
    (s.setFld F.ADCx_RES_s_e_AGE x j 3).setFld F.ADCx_RES_s_e_VALUE x j 0) s) s
  let s := (pass.take 8).foldl (fun s k => s.sched agedLc (.coreAged (Fin.ofNat 9 k))) s
  (s.modRot fun r => { r with calBusy := false, trim := cal }).rotStart

/-- Every entry into Ready: references and inputs are settled (R66, R70). Safe-Hold entered from Maintenance is none. -/
def State.adcReady (s : State) : State :=
  (List.finRange 8).foldl (fun s (x : Conv) =>
    ((s.setFld F.ADCx_STAT_REFRDY x 0 1).unsched (.refSettled x)).modAdc x fun a => { a with settle := [] }) s

/-- The converters go on after Maintenance: the spare calibrates from the beginning and due ticks are counted afresh (R83), also where
Safe-Hold, in which rotation runs (Table 3.4), is entered from there (DESIGN CHOICE, log entry 132). -/
def State.adcFromMaint (s : State) : State :=
  if s.fld F.ADC_ROT_STAT_SPARE 0 0 = 15 then s else s.spareCalibrate.rotStart

/-- The converters stop (Table 3.4): runs and requests end; held writes are applied; entries at AGE 0b01 keep it, since R80 ages
them by ABORT alone (DEDUCED, log entry 110). -/
def State.adcStop (s : State) : State :=
  let s := (List.finRange 8).foldl (fun s (x : Conv) =>
    let s := (List.finRange 4).foldl (fun s (q : Fin 4) => s.adcApplyHeld x q) s
    let s := (s.unsched (.adcHold x .pins)).unsched (.adcConversionEnd x)
    s.modAdc x fun a => { AdcSt.init with settle := a.settle }) s
  s.rotStop

end Sys2Proof.Machine
end

