-- ==== Sys2Proof/Machine/Crypto.lean ====
section
/-! DEFINITION. The codes the spec names: CRC-32C (R235), CRC-16 (R422), the SSI CRC's shift, SHA-256 and ECDSA P-256
(R236, R368). -/

namespace Sys2Proof.Machine

/-- One bit of the reflected CRC-32C, polynomial 0x82F6_3B78. -/
def crc32cBit (c : Word) : Word := if c.getLsbD 0 then (c >>> 1) ^^^ 0x82F63B78 else c >>> 1

/-- `k` bits of it. -/
def crc32cBits : Nat → Word → Word
  | 0, c => c
  | k + 1, c => crc32cBits k (crc32cBit c)

/-- One byte of it. -/
def crc32cByte (c : Word) (b : Byte) : Word := crc32cBits 8 (c ^^^ b.setWidth 32)

/-- CRC-32C of a byte sequence: initial value 0xFFFF_FFFF, final inversion (R235). -/
def crc32c (bs : List Byte) : Word := ~~~(bs.foldl crc32cByte 0xFFFFFFFF)

/-- One bit of CRC-16, polynomial 0x1021, not reflected. -/
def crc16Bit (c : BitVec 16) : BitVec 16 := if c.getLsbD 15 then (c <<< 1) ^^^ 0x1021 else c <<< 1

/-- `k` bits of it. -/
def crc16Bits : Nat → BitVec 16 → BitVec 16
  | 0, c => c
  | k + 1, c => crc16Bits k (crc16Bit c)

/-- One byte of it. -/
def crc16Byte (c : BitVec 16) (b : Byte) : BitVec 16 := crc16Bits 8 (c ^^^ (b.setWidth 16 <<< 8))

/-- CRC-16 of a byte sequence: initial value 0xFFFF, no inversion (R422). -/
def crc16 (bs : List Byte) : BitVec 16 := bs.foldl crc16Byte 0xFFFF

/-! ## SHA-256 -/

/-- A big-endian number from bytes. -/
def beNat (bs : List Byte) : Nat := bs.foldl (fun n b => 256 * n + b.toNat) 0

/-- The `n` low bytes of a number, most significant first. -/
def beBytes (v n : Nat) : List Byte := (List.range n).reverse.map fun i => BitVec.ofNat 8 (v / 256 ^ i)

/-- The largest r below 2 ^ n + acc, n its bits still open, with r ^ k at most x. -/
def rootFrom (k x : Nat) : Nat → Nat → Nat
  | 0, acc => acc
  | n + 1, acc => rootFrom k x n (if (acc + 2 ^ n) ^ k ≤ x then acc + 2 ^ n else acc)

/-- The first 32 bits of the fraction of the k-th root of p. -/
def rootFraction (k p : Nat) : Word := BitVec.ofNat 32 (rootFrom k (p * 2 ^ (32 * k)) 36 0)

/-- The primes below 312, of which there are 64. -/
def shaPrimes : List Nat := (List.range 312).filter fun p => decide (2 ≤ p) && (List.range p).all fun d => decide (d < 2) || decide (p % d ≠ 0)

/-- The constants of the steps: cube roots of the primes. -/
def shaSteps : List Word := shaPrimes.map (rootFraction 3)

/-- Two histories of four words, newest first: all that a step of the hash depends on. -/
structure Sha where
  u : List Word
  v : List Word
  deriving DecidableEq, Repr

/-- The initial hash value: square roots of the first eight primes. -/
def Sha.init : Sha := ⟨(shaPrimes.take 4).map (rootFraction 2), ((shaPrimes.drop 4).take 4).map (rootFraction 2)⟩

/-- Three rotations of a word, combined. -/
def turns (w : Word) (i j k : Nat) : Word := w.rotateRight i ^^^ w.rotateRight j ^^^ w.rotateRight k

/-- One step with its constant and its message word. -/
def Sha.next (x : Sha) (kw : Word × Word) : Sha :=
  let u := fun i => x.u.getD i 0
  let v := fun i => x.v.getD i 0
  let pick := (v 0 &&& v 1) ||| (~~~v 0 &&& v 2)
  let most := (u 0 &&& u 1) ||| (u 2 &&& (u 0 ||| u 1))
  let t := kw.1 + kw.2 + pick + v 3 + turns (v 0) 6 11 25
  ⟨(t + most + turns (u 0) 2 13 22) :: x.u.take 3, (t + u 3) :: x.v.take 3⟩

/-- Message words, newest first, extended by `n` more. -/
def shaExtend : Nat → List Word → List Word
  | 0, ws => ws
  | n + 1, ws =>
    let p := ws.getD 14 0
    let q := ws.getD 1 0
    let w := (p.rotateRight 7 ^^^ p.rotateRight 18 ^^^ (p >>> 3)) + (q.rotateRight 17 ^^^ q.rotateRight 19 ^^^ (q >>> 10)) +
      ws.getD 6 0 + ws.getD 15 0
    shaExtend n (w :: ws)

/-- The hash value after the block that starts at byte 64 k of a padded message. -/
def Sha.block (m : List Byte) (x : Sha) (k : Nat) : Sha :=
  let first := (List.range 16).map fun i => BitVec.ofNat 32 (beNat ((m.drop (64 * k + 4 * i)).take 4))
  let y := (shaSteps.zip (shaExtend 48 first.reverse).reverse).foldl Sha.next x
  ⟨x.u.zipWith (· + ·) y.u, x.v.zipWith (· + ·) y.v⟩

/-- SHA-256 of a byte sequence: 32 bytes. -/
def sha256 (m : List Byte) : List Byte :=
  let bits := 8 * m.length
  let padded := m ++ 0x80 :: List.replicate ((119 - m.length % 64) % 64) 0 ++ beBytes bits 8
  let x := (List.range (padded.length / 64)).foldl (Sha.block padded) Sha.init
  (List.range 8).flatMap fun i => beBytes ((x.u ++ x.v).getD i 0).toNat 4

/-! ## ECDSA over P-256 -/

/-- The field prime. -/
def p256p : Nat := 0xffffffff00000001000000000000000000000000ffffffffffffffffffffffff
/-- The group order. -/
def p256n : Nat := 0xffffffff00000000ffffffffffffffffbce6faada7179e84f3b9cac2fc632551
/-- The curve's b. -/
def p256b : Nat := 0x5ac635d8aa3a93e7b3ebbd55769886bc651d06b0cc53b0f63bce3c3e27d2604b

/-- b ^ e mod m, for e below 2 ^ fuel. -/
def powMod : Nat → Nat → Nat → Nat → Nat
  | 0, _, _, m => 1 % m
  | k + 1, b, e, m =>
    let r := powMod k (b * b % m) (e / 2) m
    if e % 2 = 1 then r * b % m else r

/-- Inverse modulo a prime. -/
def invMod (a m : Nat) : Nat := powMod 256 (a % m) (m - 2) m

/-- A point of the curve; none is the point at infinity. -/
abbrev EcPoint := Option (Nat × Nat)

/-- The base point. -/
def p256g : EcPoint :=
  some (0x6b17d1f2e12c4247f8bce6e563a440f277037d812deb33a0f4a13945d898c296,
        0x4fe342e2fe1a7f9b8ee7eb4a7c0f9e162bce33576b315ececbb6406837bf51f5)

/-- Sum of two points. -/
def ecAdd (x y : EcPoint) : EcPoint :=
  match x, y with
  | none, q => q
  | q, none => q
  | some (x1, y1), some (x2, y2) =>
    if x1 = x2 ∧ (y1 + y2) % p256p = 0 then none
    else
      let l := if x1 = x2 then (3 * x1 * x1 + (p256p - 3)) * invMod (2 * y1) p256p % p256p
               else (y2 + (p256p - y1)) * invMod (x2 + (p256p - x1)) p256p % p256p
      let x3 := (l * l + (p256p - x1) + (p256p - x2)) % p256p
      some (x3, (l * (x1 + (p256p - x3)) + (p256p - y1)) % p256p)

/-- k times a point, for k below 2 ^ fuel. -/
def ecMul : Nat → Nat → EcPoint → EcPoint
  | 0, _, _ => none
  | fuel + 1, k, q =>
    let h := ecMul fuel (k / 2) (ecAdd q q)
    if k % 2 = 1 then ecAdd h q else h

/-- The point lies on the curve. -/
def onCurve (x y : Nat) : Bool :=
  decide (x < p256p) && decide (y < p256p) &&
    decide (y * y % p256p = (x * x * x + (p256p - 3) * x + p256b) % p256p)

/-- ECDSA verification of (r, s) over digest z under key (qx, qy). -/
def ecdsaVerify (qx qy r s z : Nat) : Bool :=
  if onCurve qx qy && decide (0 < r ∧ r < p256n ∧ 0 < s ∧ s < p256n) then
    let w := invMod s p256n
    match ecAdd (ecMul 256 (z * w % p256n) p256g) (ecMul 256 (r * w % p256n) (some (qx, qy))) with
    | some (x, _) => decide (x % p256n = r)
    | none => false
  else false

end Sys2Proof.Machine
end

