-- ==== Sys2Proof/Machine/Cmp.lean ====
section
/-! DEFINITION. Comparators, window monitors and their checks (R85 to R110). -/

namespace Sys2Proof.Machine

/-- Changes a comparator's state. -/
def State.modCmp (s : State) (n : CmpId) (f : CmpSt → CmpSt) : State :=
  { s with cmps := { s.cmps with cmp := vmod s.cmps.cmp n f } }

/-- MODE of a comparator: 0 off, 1 continuous, 2 sampled. -/
def State.cmpMode (s : State) (n : CmpId) : Nat := s.fld F.CMPn_CFG_MODE n 0

/-- Level of the comparator's SEL destination (Table 9.2). -/
def State.cmpSel (s : State) (n : CmpId) : Bool := s.destLv (0x080 + 2 * n.val + 1)

/-- CODE that a comparator's own registers and SEL put in use (R86). -/
def State.cmpOwn (s : State) (n : CmpId) : Nat :=
  if s.cmpSel n then s.fld F.CMPn_THR_ALT_CODE n 0 else s.fld F.CMPn_THR_CODE n 0

/-- The comparator whose check comparator p serves as partner: it has taken that one's input and CODE, and is continuous
(Table 4.2). -/
def State.cmpServes (s : State) (p : CmpId) : Option CmpId :=
  (s.cmps.chk.filter fun c => decide (c.partner = some p)).map (·.cmp)

/-- CODE in use (R86, Table 4.2). -/
def State.cmpCode (s : State) (n : CmpId) : Nat := s.cmpOwn ((s.cmpServes n).getD n)

/-- The check under way on comparator n. -/
def State.cmpCheckOf (s : State) (n : CmpId) : Option CheckSt := s.cmps.chk.filter fun c => decide (c.cmp = n)

/-- The check has taken the comparator's output over: lc 16 to 63 (R103). -/
def CheckSt.over (c : CheckSt) (now : Nat) : Bool := decide (c.phase ≠ 0) || decide (c.start + 16 ≤ now)

/-- The decision that destinations are driven by: the partner's, or the level of lc 15, from lc 16 to 63 of a check
(R103, R105). -/
def State.cmpRaw (s : State) (n : CmpId) : Bool :=
  match s.cmpCheckOf n with
  | some c =>
    if c.over s.now then
      match c.partner with
      | some p => s.cmps.cmp[p].dec
      | none => c.hold
    else s.cmps.cmp[n].dec
  | none => s.cmps.cmp[n].dec

/-- Upper and lower comparator of window k. -/
def winHi (k : WinId) : CmpId := Fin.ofNat 48 (2 * k.val)
/-- See `winHi`. -/
def winLo (k : WinId) : CmpId := Fin.ofNat 48 (2 * k.val + 1)

/-- INV: the upper CODE in use is not above the lower (R98). While the array has no power (Table 4.4) no CODE is in use and INV holds
its reset value 0 (DEDUCED, log entry 115). -/
def State.winInv (s : State) (k : WinId) : Bool := s.mode.live && decide (s.cmpCode (winHi k) ≤ s.cmpCode (winLo k))

/-- Sources of window k (R96, R97, Table 4.1): above, below, inside, gated. A comparator whose MODE is off counts by the decision it
had (DEDUCED, log entry 114). With INV, INSIDE does not become 1 (R98). -/
def State.winLevels (s : State) (k : WinId) : Bool × Bool × Bool × Bool :=
  if s.mode.live && s.flag F.CMP_WINk_CFG_EN k 0 then
    let a := s.cmpRaw (winHi k)
    let b := !s.cmpRaw (winLo k)
    let i := !a && !b && (!s.winInv k || s.mx.lv.get (0x0D2 + 4 * k.val) false)
    let g := match s.fld F.CMP_WINk_CFG_GSEL k 0 with
      | 0 => i
      | 1 => a
      | _ => b
    (a, b, i, g && s.destLv (0x110 + k.val))
  else (false, false, false, false)

/-- Drives the sources of window k. A rise of Wk_GATED waits until the gate of this lc is known, since the level of the lc in which the
gate closes does not count (R97, Table 4.3). -/
def State.winSee (s : State) (k : WinId) : State :=
  let w := s.winLevels k
  let b := 0x0D0 + 4 * k.val
  (((s.setLv b w.1).setLv (b + 1) w.2.1).setLv (b + 2) w.2.2.1).setLv (b + 3) (s.mx.lv.get (b + 3) false && w.2.2.2)

/-- Wk_GATED rises now that the gates of this lc are known. -/
def State.winGate (s : State) (k : WinId) : State := s.setLv (0x0D3 + 4 * k.val) (s.winLevels k).2.2.2

/-- Wk_GATED waits to rise. -/
def State.gateDue (s : State) (k : WinId) : Bool := (s.winLevels k).2.2.2 && !s.mx.lv.get (0x0D3 + 4 * k.val) false

/-- The window that comparator n belongs to, if it belongs to one. -/
def State.winOf (s : State) (n : CmpId) : State := if n.val < 32 then s.winSee (Fin.ofNat 16 (n.val / 2)) else s

/-- Level of the output source of comparator n (R87): a partner that serves is continuous (Table 4.2); without a partner the
destinations see the level of lc 15 from lc 16 to 63 of a check (R105). -/
def State.cmpOut (s : State) (n : CmpId) : Bool :=
  match (s.cmpCheckOf n).filter fun c => c.over s.now && c.partner.isNone with
  | some c => c.lvl
  | none => s.mode.live && (decide (s.cmpMode n ≠ 0) || (s.cmpServes n).isSome) && (s.cmpRaw n ^^ s.flag F.CMPn_CFG_POL n 0)

/-- Drives the output source of comparator n and the sources of its window. -/
def State.cmpUpdate (s : State) (n : CmpId) : State := (s.setLv (0x0A0 + n.val) (s.cmpOut n)).winOf n

/-! ## Threshold -/

/-- Level of a DAC that stands at a code, in nV / 4,096 (R86). -/
def dacLevel (code : Nat) : Int := (code : Int) * 2500000000

/-- SETTLING of comparator n until lc `e`, or not at all. -/
def State.settleTo (s : State) (n : CmpId) (e : Option Nat) : State :=
  let s := s.modCmp n fun c => { c with ends := e }
  match e with
  | some t => (s.setFld F.CMPn_STAT_SETTLING n 0 1).schedAt t (.dacSettled n)
  | none => (s.setFld F.CMPn_STAT_SETTLING n 0 0).unsched (.dacSettled n)

/-- Code and settling span that the changes of this lc started from. -/
def CmpSt.from_ (c : CmpSt) (now : Nat) : Nat × Option Nat :=
  match c.was with
  | some w => if w.1 = now then w.2 else (c.dac, c.ends)
  | none => (c.dac, c.ends)

/-- The code in use may have changed: the DAC moves to it and SETTLING is 1 for 4 or 16 lc, judged on the step from the code before
this lc (R88); what a later change of the lc takes back has not happened (R89). -/
def State.dacMove (s : State) (n : CmpId) : State :=
  let new := s.cmpCode n
  let c := s.cmps.cmp[n]
  if new = c.dac then s
  else if !s.mode.live then s.modCmp n fun c => { c with dac := new, level := dacLevel new }
  else
    let s := s.winOf n
    let old := c.from_ s.now
    let s := s.modCmp n fun c => { c with dac := new, was := some (s.now, old) }
    let span := if max new old.1 - min new old.1 ≤ 64 then 4 else 16
    s.settleTo n (if new = old.1 then old.2 else some (s.now + span))

/-- DAC_SETTLED (R88): SETTLING lasts for the whole of the last span. -/
def execDacSettled (n : CmpId) (s : State) : Out :=
  .next (if s.cmps.cmp[n].ends.any fun e => decide (s.now < e) then s
    else (s.modCmp n fun c => { c with level := dacLevel c.dac }).settleTo n none)

/-- What one lc does to a DAC that settles: its level moves on towards the code, how far is a free value; when the span is over it has
arrived (R88). -/
def State.dacTick (s : State) (n : CmpId) : State :=
  if s.cmps.cmp[n].ends.any fun e => decide (e ≤ s.now) then s.modCmp n fun c => { c with level := dacLevel c.dac }
  else if s.cmps.cmp[n].ends.isSome then
    (s.modCmp n fun c =>
      { c with level := c.level + (dacLevel c.dac - c.level) * (Config.dacStep s.fresh % 65537 : Nat) / 65536 }).draw
  else s

/-- Moves the DAC of a comparator, and that of the partner that has its CODE (Table 4.2). -/
def State.dacsMove (s : State) (n : CmpId) : State :=
  let s := s.dacMove n
  match (s.cmpCheckOf n).bind (·.partner) with
  | some p => s.dacMove p
  | none => s

/-- Stores a threshold code, or holds it while the comparator is under check (Table 4.3): lc 0 to 63 of the check (DESIGN CHOICE, log
entry 134). -/
def State.thrStore (s : State) (n : CmpId) (alt : Bool) (code : BitVec 12) : State :=
  match s.cmpCheckOf n with
  | some c =>
    let c := if alt then { c with alt := some code } else { c with thr := some code }
    { s with cmps := { s.cmps with chk := some c } }
  | none =>
    (if alt then s.setReg .CMPn_THR_ALT n 0 (code.setWidth 32) else s.setReg .CMPn_THR n 0 (code.setWidth 32)).dacMove n

/-- Address of a threshold register. -/
def thrAddr (n : CmpId) (alt : Bool) : Nat := if alt then RegName.CMPn_THR_ALT.addr n 0 else RegName.CMPn_THR.addr n 0

/-- A bus write of a threshold (R89): discarded and counted where the port wrote it in this lc. -/
def State.thrWrite (s : State) (n : CmpId) (alt : Bool) (v : Word) : State :=
  if s.marked (thrAddr n alt) true then s.bump F.CMP_ERR_CNT_THR_CONFLICT 0 0
  else (s.thrStore n alt (v.setWidth 12)).mark (thrAddr n alt) false

/-- CMP_THR_WRITE. -/
def execCmpThrWrite (r : Req) (n : CmpId) (alt : Bool) (v : Word) (s : State) : Out :=
  regCmd r .write (if alt then .CMPn_THR_ALT else .CMPn_THR) n 0 (fun s => s.thrWrite n alt v) s

/-- CMP_THR_PORT (R89): [11:0] CODE, [16] selects THR_ALT; a bus write of this lc counts as discarded. -/
def execCmpThrPort (n : CmpId) (w : Word) (s : State) : Out :=
  if s.mode.live then
    let alt := w.getLsbD 16
    let s := if s.marked (thrAddr n alt) false && !s.marked (thrAddr n alt) true then
        s.bump F.CMP_ERR_CNT_THR_CONFLICT 0 0 else s
    .next ((s.thrStore n alt (w.setWidth 12)).mark (thrAddr n alt) true)
  else .next s

/-! ## Decisions -/

/-- The partner of a check sees the checked comparator's input; a change of its decision in lc 17 to 55 makes a swap check
inconclusive (R103, R106). -/
def State.partnerSees (s : State) (n : CmpId) (up : Bool) : State :=
  match s.cmpCheckOf n with
  | some c =>
    match c.partner with
    | some p =>
      let moved := decide (c.start + 17 ≤ s.now) && decide (s.now < c.start + 56) && (s.cmps.cmp[p].dec != up)
      let s := s.modCmp p fun k => { k with dec := up }
      ({ s with cmps := { s.cmps with chk := some { c with moved := c.moved || moved } } } : State).cmpUpdate p
    | none => s
  | none => s

/-- The input of comparator n has reached its upper or lower level (R87): it decides if it is continuous, and so does its partner.
One that serves as partner is off its own input. -/
def State.cmpCross (s : State) (n : CmpId) (up : Bool) : State :=
  if (s.cmpServes n).isSome then s
  else
    let s := if s.cmpMode n = 1 then s.modCmp n fun c => { c with dec := up } else s
    (s.partnerSees n up).cmpUpdate n

/-- The other comparator of an enabled window, which has the same input (R96). -/
def State.cmpTwin (s : State) (n : CmpId) : Option CmpId :=
  if n.val < 32 ∧ s.flag F.CMP_WINk_CFG_EN (n.val / 2) 0 = true then
    some (Fin.ofNat 48 (if n.val % 2 = 0 then n.val + 1 else n.val - 1))
  else none

/-- COMPARATOR_CROSSING (R87, R91): the input of comparator n has reached the upper or the lower level; the command falls in the lc in
which the output changes. In a window the other comparator, on the same input, has crossed too where its threshold is not beyond
(R96). -/
def execComparatorCrossing (n : CmpId) (up : Bool) (s : State) : Out :=
  if s.mode.live then
    let t := s.cmpCross n up
    .next (match s.cmpTwin n with
      | some m =>
        let a := s.cmps.cmp[n].level
        let b := s.cmps.cmp[m].level
        if if up then b ≤ a else a ≤ b then t.cmpCross m up else t
      | none => t)
  else .next s

/-- Decision at a tick: hysteresis of R87 about the previous decision. -/
def decide3 (lv : Level3) (prev : Bool) : Bool :=
  match lv with
  | .above => true
  | .between => prev
  | .below => false

/-- Where the input of comparator n stands against its DAC: that of its window's upper comparator in a window (R85, R87, R96). -/
def State.cmpLevel (s : State) (n : CmpId) : Level3 :=
  let pin := if (s.cmpTwin n).isSome then n.val / 2 * 2 else n.val
  let v := Config.cmpPin s.now pin * 4096
  let th := s.cmps.cmp[n].level
  if th + 4096000000 ≤ v then .above else if v ≤ th - 4096000000 then .below else .between

/-- A tick accepted now decides; destinations see it from the fourth lc on (R92). -/
def State.cmpSample (s : State) (n : CmpId) (lv : Level3) : State :=
  s.modCmp n fun c =>
    let prev := match c.samp with
      | some x => x.2
      | none => c.dec
    { c with samp := some (s.now + 4, decide3 lv prev), lastTick := some s.now }

/-- A check holds the comparator's output, lc 16 to 63 (Table 4.3). -/
def State.cmpChecking (s : State) (n : CmpId) : Bool :=
  (s.cmpCheckOf n).any fun c => c.over s.now

/-- The last accepted tick is less than 4 lc ago (R93). -/
def State.cmpEarly (s : State) (n : CmpId) : Bool :=
  match s.cmps.cmp[n].lastTick with
  | some t => decide (s.now < t + 4)
  | none => false

/-- CMP_TICK (R92, R93); one that serves as partner is continuous (Table 4.2). -/
def execCmpTick (n : CmpId) (lv : Level3) (s : State) : Out :=
  .next (if !s.mode.live || decide (s.cmpMode n ≠ 2) || s.cmpChecking n || (s.cmpServes n).isSome then s
    else if s.cmpEarly n then s.bump F.CMP_ERR_CNT_TICK_IGN 0 0
    else s.cmpSample n lv)

/-- One lc: a sampled decision reaches the destinations (R92), one of a comparator under check when that ends. -/
def State.cmpTickLc (s : State) (n : CmpId) : State :=
  match s.cmps.cmp[n].samp with
  | some (t, d) =>
    if t ≤ s.now ∧ s.cmpChecking n = false then (s.modCmp n fun c => { c with dec := d, samp := none }).cmpUpdate n else s
  | none => s

/-- What a new lc finds of a check before anything else of the lc: at lc 16 the decision of lc 15 (R105); at lc 56 the code and the
partner's decision of lc 55 (R106). -/
def State.checkTick (s : State) : State :=
  match s.cmps.chk with
  | some c =>
    let c := if s.now ≤ c.start + 16 then
        { c with hold := s.cmps.cmp[c.cmp].dec, lvl := s.mx.lv.get (0x0A0 + c.cmp.val) false } else c
    let c := if s.now = c.start + 56 then
        { c with at55 := some (s.cmpCode c.cmp, match c.partner with
            | some p => s.cmps.cmp[p].dec
            | none => c.hold) }
      else c
    { s with cmps := { s.cmps with chk := some c } }
  | none => s

/-- WINDOW_GATE_CHANGE (R97). -/
def execWindowGateChange (k : WinId) (gate : Bool) (s : State) : Out :=
  if s.mode.live then
    .next (({ s with mx := { s.mx with dlv := s.mx.dlv.put (0x110 + k.val) gate false } } : State).winSee k)
  else .next s

/-- SEL has changed (R88). -/
def State.cmpSelChange (s : State) (n : CmpId) : State := if s.mode.live then s.dacsMove n else s

/-- A write to CMPn_CFG: MODE 0b11 is ignored; TRIP, PARTNER and ISPARTNER only by the loader (R241); a comparator turned on
starts with decision 0, one that changes between continuous and sampled keeps its present decision, which a tick still on its way
does not replace (R87). -/
def State.cmpCfgWrite (s : State) (n : CmpId) (v : Word) : State :=
  let was := s.cmpMode n
  let s := if s.mode = .loading then s.writeReg .CMPn_CFG n 0 v else s.setFld F.CMPn_CFG_POL n 0 (getBits v 3 3)
  let m := getBits v 1 0
  let s := s.setFld F.CMPn_CFG_MODE n 0 (if m = 3 then was else m)
  let s := if was = s.cmpMode n ∨ (s.cmpServes n).isSome = true then s
    else s.modCmp n fun c => { c with dec := decide (was ≠ 0) && c.dec, samp := none }
  s.cmpUpdate n

/-- A write to CMP_WINk_CFG: GSEL 0b11 is ignored. -/
def State.winCfgWrite (s : State) (k : WinId) (v : Word) : State :=
  let was := s.fld F.CMP_WINk_CFG_GSEL k 0
  let s := s.writeReg .CMP_WINk_CFG k 0 v
  (if getBits v 5 4 = 3 then s.setFld F.CMP_WINk_CFG_GSEL k 0 was else s).winSee k

/-! ## Checks -/

/-- The partner of comparator n (R104). -/
def State.partnerOf (s : State) (n : CmpId) : Option CmpId :=
  let p := s.fld F.CMPn_CFG_PARTNER n 0
  if h : p < 48 then some ⟨p, h⟩ else none

/-- A check of comparator n starts: its partner takes its input, CODE and decision (R103). -/
def State.checkStart (s : State) (n : CmpId) (kind lad : Nat) (trim : Option Int) : State :=
  let dec := s.cmps.cmp[n].dec
  let c : CheckSt :=
    ⟨n, kind, lad, s.partnerOf n, s.now, 0, dec, false, none, none, trim, none, s.mx.lv.get (0x0A0 + n.val) false⟩
  let raw := Config.checkRaw s.fresh
  let s := ({ s with cmps := { s.cmps with chk := some c } } : State).draw
  let s := match c.partner with
    | some p => ((s.modCmp p fun k => { k with dec := dec, samp := none }).dacMove p).cmpUpdate p
    | none => s
  let s := s.setFld F.CMP_CHK_STAT_BUSY 0 0 1
  ((s.sched 16 .checkTakeover).sched 56 (.checkResult raw)).sched 64 .checkRelease

/-- A request is refused (R107); so is one while the array has no power, where the spec says nothing (DESIGN CHOICE, log entry 116). -/
def State.checkRefused (s : State) (v : Word) : Bool :=
  let c := getBits v 5 0
  if h : c < 48 then
    let n : CmpId := ⟨c, h⟩
    let p := s.fld F.CMPn_CFG_PARTNER n 0
    decide (getBits v 7 6 = 3) || !s.mode.live || decide (s.cmpMode n = 0) ||
      (s.flag F.CMPn_CFG_TRIP n 0 && decide (p = 63)) || decide (48 ≤ p ∧ p ≤ 62) ||
      (match s.cmps.chk with
       | some k => decide (k.cmp.val = p) || s.cmps.wait.isSome
       | none => false)
  else true

/-- The check that runs is over: its comparator and partner are themselves again, threshold writes that it held are applied (R103,
Table 4.3); a waiting request starts in the next lc (R108). -/
def State.checkEnd (s : State) : State :=
  match s.cmps.chk with
  | some c =>
    let s : State := { s with cmps := { s.cmps with chk := none } }
    let s := s.setFld F.CMP_CHK_STAT_BUSY 0 0 0
    let s := ((s.unsched .checkTakeover).unsched .checkRelease).unschedAll fun i => match i with
      | .checkResult _ => true
      | _ => false
    let s := if s.cmps.cmp[c.cmp].ends.any fun e => decide (e ≤ s.now) then s.settleTo c.cmp none else s
    let s := match c.thr with
      | some v => s.thrStore c.cmp false v
      | none => s
    let s := match c.alt with
      | some v => s.thrStore c.cmp true v
      | none => s
    let s := (s.cmpTickLc c.cmp).cmpUpdate c.cmp
    let s := match c.partner with
      | some p => (s.dacMove p).cmpUpdate p
      | none => s
    if s.cmps.wait.isSome then s.sched 1 .checkWaitingStart else s
  | none => s

/-- A check has reached its lc 64. -/
def State.checkOver (s : State) : Bool := s.cmps.chk.any fun c => decide (c.start + 64 ≤ s.now)

/-- A write to CMP_CHECK (R102, R107, R108): while a check runs, or will start in the next lc, the request waits. -/
def State.checkWrite (s : State) (v : Word) : State :=
  let s := if s.checkOver then s.checkEnd else s
  if !v.getLsbD 12 then s
  else if s.checkRefused v || s.cmps.wait.isSome then
    let s := s.setFld F.CMP_CHK_STAT_RESULT 0 0 3
    let s := s.setFld F.CMP_CHK_STAT_CMP 0 0 (getBits v 5 0)
    s.bump F.CMP_ERR_CNT_CHK_REFUSED 0 0
  else
    let n : CmpId := Fin.ofNat 48 (getBits v 5 0)
    if s.cmps.chk.isSome then
      ({ s with cmps := { s.cmps with wait := some (n, getBits v 7 6, getBits v 11 8) } } : State).setFld
        F.CMP_CHK_STAT_WAITING 0 0 1
    else s.checkStart n (getBits v 7 6) (getBits v 11 8) none

/-- CMP_CHECK. -/
def execCmpCheck (r : Req) (v : Word) (s : State) : Out :=
  regCmd r .write .CMP_CHECK 0 0 (fun s => s.checkWrite v) s

/-- CHECK_TAKEOVER (R103): lc 16. -/
def execCheckTakeover (s : State) : Out :=
  match s.cmps.chk with
  | some c =>
    if c.phase = 0 then
      let c := { c with phase := 1 }
      .next (({ s with cmps := { s.cmps with chk := some c } } : State).cmpUpdate c.cmp)
    else .next s
  | none => .next s

/-- Judgement of a check (R105, R106): 0 pass, 1 fail, 2 inconclusive. Levels in units of 2.5 V / 4,096. -/
def State.checkJudge (s : State) (c : CheckSt) (raw : Bool) : Nat :=
  let now := (s.cmpCode c.cmp, match c.partner with
    | some p => s.cmps.cmp[p].dec
    | none => c.hold)
  let x := c.at55.getD now
  match c.kind with
  | 0 =>
    if c.partner.isSome && c.moved then 2
    else if raw != x.2 then 0 else 1
  | 1 =>
    let d : Int := ((2 * c.lad + 1) * 128 : Nat) - (x.1 : Int)
    if 32768 ≤ d * 2500 then (if raw then 0 else 1)
    else if d * 2500 ≤ -32768 then (if raw then 1 else 0)
    else 2
  | _ => 2

/-- A trim check moves the hidden offset trim by at most one code; beyond ±8 codes it raises CMP_CHKFAIL (R438, log
entry 30). -/
def State.trimMove (s : State) (n : CmpId) (d : Int) : State :=
  let t := s.cmps.trim[n] + max (-1) (min 1 d)
  let s : State := { s with cmps := { s.cmps with trim := vset s.cmps.trim n t } }
  if 8 < t ∨ t < -8 then s.raiseEv 9 else s

/-- CHECK_RESULT (R106): lc 56; the comparator is restored and settles to lc 64 (Table 4.2). A trim check moves the trim as well
(R108, R438). -/
def execCheckResult (raw : Bool) (s : State) : Out :=
  match s.cmps.chk with
  | some c =>
    if c.phase = 1 then
      let res := s.checkJudge c raw
      let s : State := { s with cmps := { s.cmps with chk := some { c with phase := 2 } } }
      let s := s.settleTo c.cmp (some (max (c.start + 64) ((s.cmps.cmp[c.cmp].ends).getD 0)))
      let s := match c.trim with
        | some d => s.trimMove c.cmp d
        | none => s
      let s := s.setFld F.CMP_CHK_STAT_RESULT 0 0 res
      let s := s.setFld F.CMP_CHK_STAT_RAW 0 0 (if raw then 1 else 0)
      let s := s.setFld F.CMP_CHK_STAT_CMP 0 0 c.cmp.val
      let s := s.count F.CMP_CHK_STAT_COUNT 0 0
      let s := if res = 1 then s.raiseEv 9 else s
      .next (s.cmpUpdate c.cmp)
    else .next s
  | none => .next s

/-- CHECK_RELEASE (R103, Table 4.3): lc 64. A waiting request starts in the next lc (R108). -/
def execCheckRelease (s : State) : Out := .next (if s.checkOver then s.checkEnd else s)

/-- CHECK_WAITING_START (R108): the request was judged at its write (R107), and is not judged again (DESIGN CHOICE, log entry 135). -/
def execCheckWaitingStart (s : State) : Out :=
  match s.cmps.wait, s.cmps.chk with
  | some (n, kind, lad), none =>
    let s : State := { s with cmps := { s.cmps with wait := none } }
    .next ((s.setFld F.CMP_CHK_STAT_WAITING 0 0 0).checkStart n kind lad none)
  | _, _ => .next s

/-! ## Views and modes -/

/-- What a read of CMPn_STAT shows: CHECKING from lc 0 to 63 of a check (DESIGN CHOICE, log entry 134). -/
def State.cmpStat (s : State) (n : CmpId) : Word :=
  BitVec.ofNat 32 (s.fld F.CMPn_STAT_SETTLING n 0 * 4 + (if (s.cmpCheckOf n).isSome then 2 else 0) +
    (if s.mx.lv.get (0x0A0 + n.val) false then 1 else 0))

/-- What a read of CMP_WINk_CFG shows: INV is a view of the codes in use (R98). -/
def State.winCfg (s : State) (k : WinId) : Word := setBits (s.reg .CMP_WINk_CFG k 0) 3 3 (if s.winInv k then 1 else 0)

/-- Levels of the sources k of a list, as bits. -/
def State.lvBits (s : State) (ks : List Nat) : Nat := ks.foldr (fun k n => (if s.mx.lv.get k false then 1 else 0) + 2 * n) 0

/-- What a read of CMP_LEVEL0 shows. -/
def State.cmpLevel0 (s : State) : Word := BitVec.ofNat 32 (s.lvBits ((List.range 32).map (0x0A0 + ·)))
/-- What a read of CMP_LEVEL1 shows. -/
def State.cmpLevel1 (s : State) : Word :=
  BitVec.ofNat 32 (s.lvBits ((List.range 16).map (0x0C0 + ·)) + 65536 * s.lvBits ((List.range 16).map (0x0D2 + 4 * ·)))

/-- Entry into Ready: decisions start at 0, unless the array stayed powered. -/
def State.cmpReady (s : State) (fresh : Bool) : State :=
  (List.finRange 48).foldl (fun s (n : CmpId) =>
    (if fresh then s.modCmp n fun c => ⟨false, none, none, c.dac, none, c.level, none⟩ else s).cmpUpdate n) s

/-- Entry into Ready: DACs stand at the codes in use in its first lc (R88). -/
def State.dacsReady (s : State) : State :=
  let s := (List.finRange 48).foldl (fun s (n : CmpId) =>
    let code := s.cmpCode n
    (s.modCmp n fun c => { c with dac := code, level := dacLevel code }).settleTo n none) s
  (List.finRange 16).foldl (fun s k => s.winSee k) s

/-- The array loses power (Tables 4.3, 4.4): a check ends without a result; outputs 0. Threshold writes that the check held and a
request that waits are dropped with it (DESIGN CHOICE, log entry 117). -/
def State.cmpStop (s : State) : State :=
  let s : State := { s with cmps := { s.cmps with chk := none, wait := none } }
  let s := (s.setFld F.CMP_CHK_STAT_BUSY 0 0 0).setFld F.CMP_CHK_STAT_WAITING 0 0 0
  let s := s.unschedAll fun i => match i with
    | .checkTakeover => true
    | .checkResult _ => true
    | .checkRelease => true
    | .checkWaitingStart => true
    | .dacSettled _ => true
    | _ => false
  (List.finRange 48).foldl (fun s (n : CmpId) =>
    ((s.setFld F.CMPn_STAT_SETTLING n 0 0).modCmp n fun c => ⟨false, none, none, c.dac, none, c.level, none⟩).cmpUpdate n) s

end Sys2Proof.Machine
end

