-- ==== Sys2Proof/Machine/Float.lean ====
section
/-! DEFINITION. IEEE 754 binary32 and binary64 arithmetic as the FPU and the loop engines do it (R187, R267 to R269): exact
result, then one rounding. -/

namespace Sys2Proof.Machine

/-- A binary format: exponent and fraction widths. -/
structure Fmt where
  ew : Nat
  mw : Nat
  deriving DecidableEq, Repr

/-- binary32. -/
def b32 : Fmt := ⟨8, 23⟩
/-- binary64. -/
def b64 : Fmt := ⟨11, 52⟩

/-- Exponent bias. -/
def Fmt.bias (t : Fmt) : Nat := 2 ^ (t.ew - 1) - 1
/-- Largest exponent field. -/
def Fmt.emax (t : Fmt) : Nat := 2 ^ t.ew - 1
/-- Sign bit. -/
def Fmt.sign (t : Fmt) (s : Bool) : Nat := if s then 2 ^ (t.ew + t.mw) else 0
/-- Infinity. -/
def Fmt.inf (t : Fmt) (s : Bool) : Nat := t.sign s + t.emax * 2 ^ t.mw
/-- The result of an invalid operation on operands that are not NaN (R267). -/
def Fmt.qnan (t : Fmt) : Nat := t.emax * 2 ^ t.mw + 2 ^ (t.mw - 1)

/-- A value: NaN with its sign and fraction, infinity, or the finite number ± m · 2 ^ e. -/
inductive FVal
  | nan (s : Bool) (frac : Nat)
  | inf (s : Bool)
  | fin (s : Bool) (m : Nat) (e : Int)
  deriving DecidableEq, Repr

/-- The value a bit pattern stands for. -/
def Fmt.val (t : Fmt) (x : Nat) : FVal :=
  let frac := x % 2 ^ t.mw
  let ex := x / 2 ^ t.mw % 2 ^ t.ew
  let s := decide (x / 2 ^ (t.ew + t.mw) % 2 = 1)
  if ex = t.emax then (if frac = 0 then .inf s else .nan s frac)
  else if ex = 0 then .fin s frac (1 - (t.bias : Int) - t.mw)
  else .fin s (frac + 2 ^ t.mw) ((ex : Int) - t.bias - t.mw)

/-- The exceptions NV, DZ, OF, UF, NX as bits 4 to 0 (R254). -/
abbrev FFlags := BitVec 5
/-- Invalid operation. -/
def flNV : FFlags := 16
/-- Division by zero. -/
def flDZ : FFlags := 8
/-- Overflow. -/
def flOF : FFlags := 4
/-- Underflow. -/
def flUF : FFlags := 2
/-- Inexact. -/
def flNX : FFlags := 1

/-- A bit pattern with the exceptions raised. -/
structure FRes where
  bits  : Nat
  flags : FFlags
  deriving DecidableEq, Repr

/-- Number of bits of a number. -/
def bitLen (n : Nat) : Nat := if n = 0 then 0 else Nat.log2 n + 1

/-- The increment of rounding, by RM (R254): remainder `r` of `2 ^ k`, with `sticky` for what lies below, on even or odd `m`. -/
def roundUp (rm : Nat) (s : Bool) (m r k : Nat) (sticky : Bool) : Bool :=
  let inexact := decide (r ≠ 0) || sticky
  match rm with
  | 0 => decide (2 ^ k < 2 * r) || (decide (2 * r = 2 ^ k) && decide (k ≠ 0) && (sticky || decide (m % 2 = 1)))
  | 1 => false
  | 2 => !s && inexact
  | _ => s && inexact

/-- Rounds ± m · 2 ^ e (plus less than one unit of m if `sticky`) into the format. -/
def Fmt.round (t : Fmt) (rm : Nat) (s : Bool) (m : Nat) (e : Int) (sticky : Bool) : FRes :=
  if m = 0 ∧ sticky = false then ⟨t.sign s, 0⟩
  else
    let emin : Int := 1 - (t.bias : Int)
    let q : Int := max (e + bitLen m - (t.mw + 1)) (emin - t.mw)
    let k := (q - e).toNat
    let m1 := if q ≤ e then m * 2 ^ (e - q).toNat else m / 2 ^ k
    let r := if q ≤ e then 0 else m % 2 ^ k
    let up := roundUp rm s m1 r k sticky
    let m2 := if up then m1 + 1 else m1
    let inexact := decide (r ≠ 0) || sticky
    let biased : Int := q + t.mw + t.bias
    let body : Nat := if m2 < 2 ^ t.mw then m2 else biased.toNat * 2 ^ t.mw + (m2 - 2 ^ t.mw)
    if t.emax * 2 ^ t.mw ≤ body then
      let toInf := decide (rm = 0) || (decide (rm = 2) && !s) || (decide (rm = 3) && s)
      ⟨if toInf then t.inf s else t.inf s - 1, flOF ||| flNX⟩
    else
      let tinyBefore := decide (e + bitLen m - 1 < emin)
      let k' := bitLen m - (t.mw + 1)
      let full := (if k' = 0 then m * 2 ^ (t.mw + 1 - bitLen m) else m / 2 ^ k') +
        (if roundUp rm s (m / 2 ^ k') (m % 2 ^ k') k' sticky then 1 else 0)
      let tinyAfter := tinyBefore && !(decide (full = 2 ^ (t.mw + 1)) && decide (e + bitLen m = emin))
      let tiny := if Config.tinyAfterRounding then tinyAfter else tinyBefore
      ⟨t.sign s + body,
        (if inexact then flNX else 0) ||| (if inexact && tiny then flUF else 0)⟩

/-- ± p / q rounded to nearest, ties to even; +0 for p = 0 and for q = 0. -/
def Fmt.ofRatio (t : Fmt) (neg : Bool) (p q : Nat) : Nat :=
  if p = 0 ∨ q = 0 then 0
  else
    let k := bitLen q + t.mw + 3
    (t.round 0 neg (p * 2 ^ k / q) (-(k : Int)) (decide (p * 2 ^ k % q ≠ 0))).bits

/-- A NaN quieted, its payload kept (R267). -/
def Fmt.quiet (t : Fmt) (s : Bool) (frac : Nat) : Nat :=
  t.sign s + t.emax * 2 ^ t.mw + (if frac / 2 ^ (t.mw - 1) % 2 = 1 then frac else frac + 2 ^ (t.mw - 1))

/-- A NaN that signals. -/
def Fmt.signaling (t : Fmt) (frac : Nat) : Bool := decide (frac / 2 ^ (t.mw - 1) % 2 = 0)

/-- The NaN an operation on x and y returns, if either is one: the first NaN operand, quieted; a signaling one raises NV. -/
def Fmt.nan2 (t : Fmt) (x y : FVal) : Option FRes :=
  let sig (v : FVal) : Bool := match v with
    | .nan _ f => t.signaling f
    | _ => false
  let fl : FFlags := if sig x || sig y then flNV else 0
  match x, y with
  | .nan s f, _ => some ⟨t.quiet s f, fl⟩
  | _, .nan s f => some ⟨t.quiet s f, fl⟩
  | _, _ => none

/-- An invalid operation. -/
def Fmt.invalid (t : Fmt) : FRes := ⟨t.qnan, flNV⟩

/-- The signed integer ± m. -/
def signedNat (s : Bool) (m : Nat) : Int := if s then -(m : Int) else m

/-- x + y on values (no NaN). -/
def Fmt.addV (t : Fmt) (rm : Nat) (x y : FVal) : FRes :=
  match x, y with
  | .inf s, .inf s' => if s = s' then ⟨t.inf s, 0⟩ else t.invalid
  | .inf s, _ => ⟨t.inf s, 0⟩
  | _, .inf s => ⟨t.inf s, 0⟩
  | .fin s m e, .fin s' m' e' =>
    let lo := min e e'
    let z := signedNat s (m * 2 ^ (e - lo).toNat) + signedNat s' (m' * 2 ^ (e' - lo).toNat)
    if z = 0 then ⟨t.sign (if m = 0 ∧ m' = 0 ∧ s = s' then s else decide (rm = 3)), 0⟩
    else t.round rm (decide (z < 0)) z.natAbs lo false
  | _, _ => t.invalid

/-- The negative of a value. -/
def FVal.neg : FVal → FVal
  | .nan s f => .nan s f
  | .inf s => .inf (!s)
  | .fin s m e => .fin (!s) m e

/-- Addition. -/
def Fmt.add (t : Fmt) (rm x y : Nat) : FRes :=
  match t.nan2 (t.val x) (t.val y) with
  | some r => r
  | none => t.addV rm (t.val x) (t.val y)

/-- Subtraction. -/
def Fmt.sub (t : Fmt) (rm x y : Nat) : FRes :=
  match t.nan2 (t.val x) (t.val y) with
  | some r => r
  | none => t.addV rm (t.val x) (t.val y).neg

/-- Multiplication. -/
def Fmt.mul (t : Fmt) (rm x y : Nat) : FRes :=
  match t.nan2 (t.val x) (t.val y) with
  | some r => r
  | none =>
    match t.val x, t.val y with
    | .inf s, .inf s' => ⟨t.inf (s != s'), 0⟩
    | .inf s, .fin s' m _ => if m = 0 then t.invalid else ⟨t.inf (s != s'), 0⟩
    | .fin s m _, .inf s' => if m = 0 then t.invalid else ⟨t.inf (s != s'), 0⟩
    | .fin s m e, .fin s' m' e' => t.round rm (s != s') (m * m') (e + e') false
    | _, _ => t.invalid

/-- Division. -/
def Fmt.div (t : Fmt) (rm x y : Nat) : FRes :=
  match t.nan2 (t.val x) (t.val y) with
  | some r => r
  | none =>
    match t.val x, t.val y with
    | .inf _, .inf _ => t.invalid
    | .inf s, .fin s' _ _ => ⟨t.inf (s != s'), 0⟩
    | .fin s _ _, .inf s' => ⟨t.sign (s != s'), 0⟩
    | .fin s m e, .fin s' m' e' =>
      if m' = 0 then (if m = 0 then t.invalid else ⟨t.inf (s != s'), flDZ⟩)
      else
        let k := 2 * t.mw + 4
        t.round rm (s != s') (m * 2 ^ k / m') (e - e' - k) (decide (m * 2 ^ k % m' ≠ 0))
    | _, _ => t.invalid

/-- Integer square root by bits, most significant first: the largest r with r · r ≤ n and r < 2 ^ fuel above `r`. -/
def isqrtFrom : Nat → Nat → Nat → Nat
  | 0, r, _ => r
  | k + 1, r, n => let r' := r + 2 ^ k; isqrtFrom k (if r' * r' ≤ n then r' else r) n

/-- Square root. -/
def Fmt.sqrt (t : Fmt) (rm x : Nat) : FRes :=
  match t.val x with
  | .nan s f => ⟨t.quiet s f, if t.signaling f then flNV else 0⟩
  | .inf s => if s then t.invalid else ⟨t.inf false, 0⟩
  | .fin s m e =>
    if m = 0 then ⟨t.sign s, 0⟩
    else if s then t.invalid
    else
      let sh := 2 * (t.mw + 3) + (if e % 2 = 0 then 0 else 1)
      let n := m * 2 ^ sh
      let r := isqrtFrom (2 * t.mw + 8) 0 n
      t.round rm false r ((e - sh) / 2) (decide (r * r ≠ n))

/-- Numeric order of values that are not NaN. -/
def FVal.cmp (x y : FVal) : Ordering :=
  match x, y with
  | .inf s, .inf s' => if s = s' then .eq else if s then .lt else .gt
  | .inf s, _ => if s then .lt else .gt
  | _, .inf s => if s then .gt else .lt
  | .fin s m e, .fin s' m' e' =>
    let lo := min e e'
    compare (signedNat s (m * 2 ^ (e - lo).toNat)) (signedNat s' (m' * 2 ^ (e' - lo).toNat))
  | _, _ => .eq

/-- Minimum or maximum; −0 lies below +0 (R267). -/
def Fmt.minmax (t : Fmt) (isMax : Bool) (x y : Nat) : FRes :=
  match t.nan2 (t.val x) (t.val y) with
  | some r => r
  | none =>
    let xNeg := decide (x / 2 ^ (t.ew + t.mw) % 2 = 1)
    let less := match (t.val x).cmp (t.val y) with
      | .lt => true
      | .gt => false
      | .eq => xNeg
    ⟨if less != isMax then x else y, 0⟩

/-- How two values compare; none when a NaN makes them unordered. -/
def Fmt.relation (t : Fmt) (x y : Nat) : Option Ordering :=
  match t.val x, t.val y with
  | .nan _ _, _ => none
  | _, .nan _ _ => none
  | u, v => some (u.cmp v)

/-- A move with the sign as `g` makes it; a NaN is returned quieted, its sign kept (R267, DEDUCED, log entry 24). -/
def Fmt.signOp (t : Fmt) (g : Bool → Bool) (x : Nat) : FRes :=
  match t.val x with
  | .nan s f => ⟨t.quiet s f, 0⟩
  | _ =>
    let s := decide (x / 2 ^ (t.ew + t.mw) % 2 = 1)
    ⟨x % 2 ^ (t.ew + t.mw) + t.sign (g s), 0⟩

/-- Conversion between formats (R267). -/
def Fmt.convert (src dst : Fmt) (rm x : Nat) : FRes :=
  match src.val x with
  | .nan s f =>
    ⟨dst.quiet s (if src.mw ≤ dst.mw then f * 2 ^ (dst.mw - src.mw) else f / 2 ^ (src.mw - dst.mw)),
      if src.signaling f then flNV else 0⟩
  | .inf s => ⟨dst.inf s, 0⟩
  | .fin s m e => dst.round rm s m e false

/-- The integer that ± m · 2 ^ e rounds to, and whether that is inexact. -/
def roundInt (rm : Nat) (s : Bool) (m : Nat) (e : Int) : Int × Bool :=
  if 0 ≤ e then (signedNat s (m * 2 ^ e.toNat), false)
  else
    let k := (-e).toNat
    let m1 := m / 2 ^ k
    let r := m % 2 ^ k
    (signedNat s (if roundUp rm s m1 r k false then m1 + 1 else m1), decide (r ≠ 0))

/-- Conversion to int32 with saturation (R267). -/
def Fmt.toInt32 (t : Fmt) (rm x : Nat) : Word × FFlags :=
  match t.val x with
  | .nan _ _ => (0, flNV)
  | .inf s => (if s then 0x80000000 else 0x7FFFFFFF, flNV)
  | .fin s m e =>
    let z := roundInt rm s m e
    if 2147483647 < z.1 then (0x7FFFFFFF, flNV)
    else if z.1 < -2147483648 then (0x80000000, flNV)
    else (BitVec.ofInt 32 z.1, if z.2 then flNX else 0)

/-- Conversion from int32. -/
def Fmt.ofInt32 (t : Fmt) (rm : Nat) (w : Word) : FRes := t.round rm (decide (w.toInt < 0)) w.toInt.natAbs 0 false

end Sys2Proof.Machine
end

