-- ==== Sys2Proof/Machine/Plan.lean ====
section
/-! DEFINITION. The motion plan of the profile generator (R203 to R205), in exact arithmetic (DESIGN CHOICE, log entry 37): phases of
constant jerk that bring a point of motion to a velocity, to rest, to a position. -/

namespace Sys2Proof.Machine

/-- The exact value of a finite binary32 word. -/
def fRat (w : Word) : Option Rat :=
  match b32.val w.toNat with
  | .fin s m e => some (if 0 ≤ e then ((signedNat s (m * 2 ^ e.toNat) : Int) : Rat) else mkRat (signedNat s m) (2 ^ (-e).toNat))
  | _ => none

/-- A rational rounded to binary32. -/
def ratF (q : Rat) : Word := BitVec.ofNat 32 (b32.ofRatio (decide (q < 0)) q.num.natAbs q.den)

/-- |q|. -/
def ratAbs (q : Rat) : Rat := if q < 0 then -q else q

/-- A positive number's square root, less at most one part in 2 ^ 64; 0 for what is not positive. -/
def ratSqrt (q : Rat) : Rat :=
  if q ≤ 0 then 0
  else
    let n := q.num.natAbs * q.den * 4 ^ 64
    mkRat (isqrtFrom (bitLen n / 2 + 1) 0 n) (q.den * 2 ^ 64)

/-- Motion for a time under a jerk. -/
def Kin.move (k : Kin) (j t : Rat) : Kin :=
  ⟨k.p + k.v * t + k.a * t * t / 2 + j * t * t * t / 6, k.v + k.a * t + j * t * t / 2, k.a + j * t⟩

/-- Motion through phases. -/
def Kin.run (k : Kin) (gs : List Seg) : Kin := gs.foldl (fun k g => k.move g.j g.d) k

/-- Motion for a time through phases, and the phases left. After the last the point rests. -/
def Kin.advance (k : Kin) : List Seg → Rat → Kin × List Seg
  | [], _ => (k, [])
  | g :: gs, t => if t < g.d then (k.move g.j t, ⟨g.j, g.d - t⟩ :: gs) else (k.move g.j g.d).advance gs (t - g.d)

/-- From velocity v0 and acceleration a0 to velocity v at acceleration 0 within |a| ≤ A and |j| ≤ J: up to a peak acceleration,
along it, down to 0, or the mirror image. -/
def toVel (A J v0 a0 v : Rat) : List Seg :=
  let ends := v0 + a0 * ratAbs a0 / (2 * J)
  if ends = v then [⟨if a0 < 0 then J else -J, ratAbs a0 / J⟩]
  else
    let s : Rat := if ends < v then 1 else -1
    let w := s * (v - v0)
    let b := s * a0
    let r := ratSqrt (J * w + b * b / 2)
    let top := if r < b then b else r
    let pk := if A < top then A else top
    let up : Rat := if b ≤ pk then 1 else -1
    let won := up * (pk * pk - b * b) / (2 * J) + pk * pk / (2 * J)
    [⟨s * up * J, ratAbs (pk - b) / J⟩, ⟨0, (w - won) / pk⟩, ⟨-s * J, pk / J⟩]

/-- The largest speed found, by halving, that `ok` admits: all of `hi`, or to within one part in 2 ^ 40. -/
def seekSpeed (ok : Rat → Bool) : Nat → Rat → Rat → Rat
  | 0, lo, _ => lo
  | n + 1, lo, hi =>
    if hi - lo ≤ lo / 2 ^ 40 then lo
    else
      let mid := (lo + hi) / 2
      if ok mid then seekSpeed ok n mid hi else seekSpeed ok n lo mid

/-- To velocity s · u, then to rest. -/
def peakSegs (A J s u : Rat) (k : Kin) : List Seg := toVel A J k.v k.a (s * u) ++ toVel A J (s * u) 0 0

/-- To rest at x, in direction s: through the largest velocity within V that does not pass x, held as long as x asks. -/
def approach (V A J s x : Rat) (k : Kin) : List Seg :=
  let ok (u : Rat) : Bool := decide (s * (k.run (peakSegs A J s u k)).p ≤ s * x)
  let u := if ok V then V else seekSpeed ok 400 0 V
  if u = 0 then toVel A J k.v k.a 0
  else
    let rest := s * (x - (k.run (peakSegs A J s u k)).p)
    toVel A J k.v k.a (s * u) ++ [⟨0, rest / u⟩] ++ toVel A J (s * u) 0 0

/-- 1 or −1 by the sign of a number, else by that of the next, 1 for none. -/
def ratSign (x y z : Rat) : Rat := if x < 0 ∨ (x = 0 ∧ (y < 0 ∨ (y = 0 ∧ z < 0))) then -1 else 1

/-- A plan from a point of motion to rest at x (R204): straight on where x lies ahead and not within the stopping distance; else to
rest, at rest to the end of the tick, and from there to x. -/
def motionPlan (V A J ts x : Rat) (k : Kin) : List Seg :=
  let halt := toVel A J k.v k.a 0
  let s := ratSign k.v k.a (x - k.p)
  let go := if 0 ≤ s * (x - (k.run halt).p) then approach V A J s x k else halt
  let e := k.run go
  if e.p = x then go
  else
    let t := (go.map (·.d)).sum
    let e : Kin := ⟨e.p, 0, 0⟩
    go ++ [⟨0, ((t / ts).ceil : Rat) * ts - t⟩] ++ approach V A J (ratSign (x - e.p) 0 0) x e

/-- A point outside a range. -/
def Kin.outside (lo hi : Option Rat) (k : Kin) : Bool := lo.any (fun l => decide (k.p < l)) || hi.any fun h => decide (h < k.p)

/-- Times within a phase at which the velocity is 0, where the position turns; a root is taken as `ratSqrt` takes it. -/
def Kin.turns (k : Kin) (g : Seg) : List Rat :=
  let ts : List Rat :=
    if g.j = 0 then (if k.a = 0 then [] else [-k.v / k.a])
    else
      let q := k.a * k.a - 2 * g.j * k.v
      if q < 0 then [] else [(-k.a + ratSqrt q) / g.j, (-k.a - ratSqrt q) / g.j]
  ts.filter fun t => decide (0 < t) && decide (t < g.d)

/-- A path leaves a range: it stands outside it at the start, where a phase ends, or where the position turns within one. -/
def pathLeaves (lo hi : Option Rat) (k : Kin) : List Seg → Bool
  | [] => k.outside lo hi
  | g :: gs => k.outside lo hi || ((k.turns g).any fun t => (k.move g.j t).outside lo hi) || pathLeaves lo hi (k.move g.j g.d) gs

end Sys2Proof.Machine
end

