-- ==== Sys2Proof/Machine/Loop.lean ====
section
/-! DEFINITION. Loop engines (R184 to R216, R467, R468). -/

namespace Sys2Proof

/-- Place of a pipeline in `LeSt.pipes`; the general stage keeps its own state. -/
def Pipe.ix : Pipe → Fin 5
  | .cur => 0
  | .vlt => 1
  | .ftr => 2
  | .prf => 3
  | .obs => 4
  | .gen => 4

/-- Fields of a slot word (R207). -/
def slotD (w : Word) : Fin 32 := Fin.ofNat 32 (Machine.getBits w 25 21)
/-- See `slotD`. -/
def slotA (w : Word) : Fin 32 := Fin.ofNat 32 (Machine.getBits w 20 16)
/-- See `slotD`. -/
def slotB (w : Word) : Fin 32 := Fin.ofNat 32 (Machine.getBits w 15 11)
/-- See `slotD`. -/
def slotImm (w : Word) : Nat := Machine.getBits w 10 0
/-- See `slotD`. -/
def slotOp (w : Word) : BitVec 6 := BitVec.ofNat 6 (Machine.getBits w 31 26)

/-- Registers that an operation of slot 0 or 1 reads. -/
def GenAlu.reads (op : GenAlu) (w : Word) : List (Fin 32) :=
  match op with
  | .nop => []
  | .fabs => [slotA w]
  | .fneg => [slotA w]
  | .fmov => [slotA w]
  | .cvtfi => [slotA w]
  | .cvtif => [slotA w]
  | .sint => [slotA w]
  | .cost => [slotA w]
  | .fsqrt => [slotA w]
  | _ => [slotA w, slotB w]

end Sys2Proof

namespace Sys2Proof.Machine

/-- First matrix source of engine n (Table 9.1): OUT0 to OUT3, STROBE, FTHETA, FFREQ, FLOCK, PSET, VSET, ASET, SOFTLIM, CONF,
COAST, COASTEVT, SAFEREQ, OVR, NAN, GEVT. -/
def leSrc (n : LeId) : Nat := 0x350 + 20 * n.val
/-- First matrix destination of engine n (Table 9.2): IA, IB, IC, VDC, THETA, OMEGA, VFB, VA, VB, PTICK, GGO, SWAP. -/
def leDst (n : LeId) : Nat := 0x300 + 16 * n.val
/-- First address of engine n's region of loop memory (R209). -/
def leBase (n : LeId) : Nat := 0x30000000 + n.val * 0x70000
/-- The state area of a region (Table 8.10). -/
def leState (n : LeId) : Nat := leBase n + 0x2000

/-- Changes an engine's state. -/
def State.modLe (s : State) (n : LeId) (f : LeSt → LeSt) : State := { s with le := vmod s.le n f }
/-- A pipeline of an engine. -/
def State.lePipe (s : State) (n : LeId) (p : Pipe) : LePipe := s.le[n].pipes[p.ix]
/-- Changes a pipeline. -/
def State.modPipe (s : State) (n : LeId) (p : Pipe) (f : LePipe → LePipe) : State :=
  s.modLe n fun e => { e with pipes := vmod e.pipes p.ix f }
/-- A word of the state area. -/
def State.leGet (s : State) (n : LeId) (off : Nat) : Word := s.word (leState n + off)
/-- Writes a word of the state area. -/
def State.lePut (s : State) (n : LeId) (off : Nat) (w : Word) : State := s.setWord (leState n + off) w
/-- A parameter of a bank (Table 8.6). -/
def State.param (s : State) (n : LeId) (bank off : Nat) : Word := s.word (leBase n + bank * 0x1000 + off)

/-! ## Arithmetic (R187 to R189) -/

/-- Addition. -/
def fAdd (x y : Word) : Word := BitVec.ofNat 32 (b32.add 0 x.toNat y.toNat).bits
/-- Subtraction. -/
def fSub (x y : Word) : Word := BitVec.ofNat 32 (b32.sub 0 x.toNat y.toNat).bits
/-- Multiplication. -/
def fMul (x y : Word) : Word := BitVec.ofNat 32 (b32.mul 0 x.toNat y.toNat).bits
/-- Division. -/
def fDiv (x y : Word) : Word := BitVec.ofNat 32 (b32.div 0 x.toNat y.toNat).bits
/-- Square root. -/
def fSqrt (x : Word) : Word := BitVec.ofNat 32 (b32.sqrt 0 x.toNat).bits
/-- Minimum. -/
def fMin (x y : Word) : Word := BitVec.ofNat 32 (b32.minmax false x.toNat y.toNat).bits
/-- Maximum. -/
def fMax (x y : Word) : Word := BitVec.ofNat 32 (b32.minmax true x.toNat y.toNat).bits
/-- Negation. -/
def fNeg (x : Word) : Word := BitVec.ofNat 32 (b32.signOp (fun s => !s) x.toNat).bits
/-- Absolute value. -/
def fAbs (x : Word) : Word := BitVec.ofNat 32 (b32.signOp (fun _ => false) x.toNat).bits
/-- x < y; false when unordered. -/
def fLt (x y : Word) : Bool := b32.relation x.toNat y.toNat == some .lt
/-- x ≤ y; false when unordered. -/
def fLe (x y : Word) : Bool := fLt x y || b32.relation x.toNat y.toNat == some .eq
/-- rint to int32 (R188). -/
def fToInt (x : Word) : Word := (b32.toInt32 0 x.toNat).1
/-- int32 to binary32. -/
def fOfInt (w : Word) : Word := BitVec.ofNat 32 (b32.ofInt32 0 w).bits
/-- NaN. -/
def fNan (x : Word) : Bool := match b32.val x.toNat with
  | .nan _ _ => true
  | _ => false

/-- The exact value of a result word's code (R188). -/
def leCode (signed : Bool) (w : Word) : Word :=
  fOfInt (if signed then (w.setWidth 16).signExtend 32 else (w.setWidth 16).setWidth 32)

/-- A PWM compare word (R188); none for a NaN. -/
def cmpWord (x per : Word) : Option Word :=
  match b32.val (fMin (fMax x 0) per).toNat with
  | .nan _ _ => none
  | .inf _ => some 0xFFFFFF
  | .fin s m e => some (BitVec.ofInt 32 (roundInt 0 s m (e + 8)).1 &&& 0xFFFFFF)

/-- Sine of an angle by the engine's table (R189). -/
def State.leSin (s : State) (n : LeId) (a : Word) : Word :=
  let i := getBits a 31 20
  let t (k : Nat) : Word := s.word (leBase n + 0x3400 + 4 * k)
  let f : Word := BitVec.ofNat 32 (b32.round 0 false (getBits a 19 0) (-20) false).bits
  fAdd (t i) (fMul f (fSub (t (i + 1)) (t i)))

/-- Cosine. -/
def State.leCos (s : State) (n : LeId) (a : Word) : Word := s.leSin n (a + 0x40000000)

/-! ## Acceptance (R185, R191) -/

/-- The engine accepts sets: EN = 1 in a Run mode or Handover, not escalated, not in fault-hold (R200, R216, R399). -/
def State.leAccepts (s : State) (n : LeId) : Bool :=
  s.mode.run && s.flag F.LEn_CTRL_EN n 0 && !s.flag F.LEn_STAT_SAFEREQ n 0 && !s.flag F.TW_STAT_FHOLD 0 0

/-- The pipeline is enabled. -/
def State.pipeOn (s : State) (n : LeId) (p : Pipe) : Bool :=
  match p with
  | .cur => s.flag F.LEn_CTRL_CUR n 0
  | .vlt => s.flag F.LEn_CTRL_VLT n 0
  | .ftr => s.flag F.LEn_CTRL_FTR n 0
  | .prf => s.flag F.LEn_CTRL_PRF n 0
  | .obs => s.flag F.LEn_CTRL_OBS n 0
  | .gen => s.flag F.LEn_CTRL_GEN n 0

/-- Minimum spacing of accepted sets (Table 8.1, R196). -/
def State.leSpacing (s : State) (n : LeId) (p : Pipe) : Nat :=
  match p with
  | .cur => if s.flag F.LEn_CTRL_OBSFEED n 0 then 64 else 12
  | .vlt => 8
  | .ftr => 10
  | .prf => 16
  | .obs => 64
  | .gen => 1

/-- Counts an overrun (R185). -/
def State.leOvr (s : State) (n : LeId) : State := (s.bump F.LEn_ERR_CNT_OVR n 0).raiseEv (leSrc n + 16)

/-- Word on destination k of the engine. -/
def State.leIn (s : State) (n : LeId) (k : Nat) : Word := s.destWord (leDst n + k)

/-- Coast-hold holds (R198). -/
def State.leCoasts (s : State) (n : LeId) : Bool := (s.leGet n 0x110).getLsbD 0

/-- The integrator of the voltage loop after an increment, and its output (R201). -/
def vltStep (kpv e inc i omin omax : Word) : Word × Word :=
  let i' := fAdd i inc
  let o := fAdd (fMul kpv e) i'
  if fLt omax o then (omax, if fLt 0 inc then i else i')
  else if fLt o omin then (omin, if fLt inc 0 then i else i')
  else (o, i')

/-- Computes a voltage-loop set (R201). -/
def State.vltCompute (s : State) (n : LeId) (j : LeJob) : LeJob :=
  let p (off : Nat) := s.param n j.bank off
  let y := fMul (leCode ((p 0x54).getLsbD 4) (j.ins.getD 0 0)) (p 0x314)
  let e := fSub (p 0x300) y
  let (o, i) := vltStep (p 0x304) e (fMul (p 0x308) e) (s.leGet n 0x10) (p 0x30C) (p 0x310)
  match cmpWord o (p 0x3C) with
  | some w => { j with ready := true, out := some [w, w, w, w], wr := [(0x10, i)] }
  | none => { j with ready := true, out := none, wr := [] }

/-- Computes a current-loop set by R193, with the observer's or coast angle where one is given. -/
def State.curCompute (s : State) (n : LeId) (j : LeJob) (angle : Option Word) : LeJob :=
  let p (off : Nat) := s.param n j.bank off
  let x (k : Nat) := j.ins.getD k 0
  let sg := p 0x54
  let coast := s.leCoasts n
  let cur (k : Nat) := fMul (fSub (leCode (sg.getLsbD k) (x k)) (p (0x04 + 4 * k))) (p 0x00)
  let ia := cur 0
  let ib := cur 1
  let ic := cur 2
  let vdc := fMul (leCode (sg.getLsbD 3) (x 3)) (p 0x10)
  let al := fMul (fSub (fSub (fMul 0x40000000 ia) ib) ic) 0x3EAAAAAB
  let be := fMul (fSub ib ic) 0x3F13CD3A
  let omega := x 5
  let th := match angle with
    | some a => a
    | none => x 4 * p 0x40 + p 0x44
  let tha := th + fToInt (fMul omega (p 0x48))
  let sn := s.leSin n th
  let cs := s.leCos n th
  let d := fAdd (fMul al cs) (fMul be sn)
  let q := fSub (fMul be cs) (fMul al sn)
  let we := fMul omega (p 0x4C)
  let idref := if coast then p 0x108 else p 0x14
  let iqref := if coast then fMax (fMin (p 0x18) (p 0x10C)) (fNeg (p 0x10C)) else p 0x18
  let vlim := if coast then p 0x110 else p 0x38
  let ed := fSub idref d
  let eq := fSub iqref q
  let idn := fAdd (s.leGet n 0) (fMul (p 0x20) ed)
  let iqn := fAdd (s.leGet n 4) (fMul (p 0x28) eq)
  let vd := fSub (fAdd (fMul (p 0x1C) ed) idn) (fMul (fMul we (p 0x30)) q)
  let vq := fAdd (fAdd (fMul (p 0x24) eq) iqn) (fMul we (fAdd (fMul (p 0x2C) d) (p 0x34)))
  let vm := fMul (fMul vdc vlim) 0x3F13CD3A
  let m := fSqrt (fAdd (fMul vd vd) (fMul vq vq))
  let beyond := fLt vm m
  let r := fDiv vm m
  let vd := if beyond then fMul vd r else vd
  let vq := if beyond then fMul vq r else vq
  let sn := s.leSin n tha
  let cs := s.leCos n tha
  let va := fSub (fMul vd cs) (fMul vq sn)
  let vb := fAdd (fMul vd sn) (fMul vq cs)
  let h := fMul 0xBF000000 va
  let k := fMul 0x3F5DB3D7 vb
  let u := va
  let v := fAdd h k
  let w := fSub h k
  let z := if p 0x50 = 0 then 0 else fMul 0xBF000000 (fAdd (fMax u (fMax v w)) (fMin u (fMin v w)))
  let per := p 0x3C
  let o (y : Word) := cmpWord (fMul (fAdd 0x3F000000 (fDiv (fAdd y z) vdc)) per) per
  match o u, o v, o w with
  | some a, some b, some c =>
    { j with ready := true, out := some [a, b, c],
             wr := (if beyond then [] else [(0, idn), (4, iqn)]) ++ [(8, va), (0xC, vb)] }
  | _, _, _ => { j with ready := true, out := none, wr := [] }

/-- The lock test of a frequency-tracker set (R202): its count of sets that pass in a row. v_q is taken across the angle that the
tracker holds before the set (DESIGN CHOICE, log entry 37). -/
def State.ftrCompute (s : State) (n : LeId) (j : LeJob) : LeJob :=
  let sg := s.param n j.bank 0x54
  let va := leCode (sg.getLsbD 5) (j.ins.getD 0 0)
  let vb := leCode (sg.getLsbD 6) (j.ins.getD 1 0)
  let th := s.leGet n 0x18
  let vq := fSub (fMul vb (s.leCos n th)) (fMul va (s.leSin n th))
  let v := fSqrt (fAdd (fMul va va) (fMul vb vb))
  let k := if fLe (fAbs vq) (fMul (s.param n j.bank 0x394) v) then min 0xFFFFFFFF ((s.leGet n 0x20).toNat + 1) else 0
  { j with ready := true, out := some [BitVec.ofNat 32 k] }

/-- x limited to ± m. -/
def fLimit (x m : Word) : Word := fMax (fMin x m) (fNeg m)

/-- A tick of the profile generator on a point of motion within VMAX, AMAX and JMAX (R203 to R205): it goes on along the plan it follows,
or computes one, where a swap asks for it or the state area holds another point than the plan's. The velocity driven is 0 in a tick in
which it passes 0. -/
def State.prfMove (s : State) (n : LeId) (j : LeJob) (V A J ts x : Rat) (k : Kin) : LeJob :=
  let p (off : Nat) := s.param n j.bank off
  let now := [s.leGet n 0x40, s.leGet n 0x44, s.leGet n 0x48]
  let old := match s.le[n].prof with
    | some o => if !j.plan && decide (o.outs = now) then some o else none
    | none => none
  let (k, gs) := match old with
    | some o => (o.kin, o.segs)
    | none => (k, motionPlan V A J ts x k)
  let past := old.isNone && pathLeaves (fRat (p 0x20C)) (fRat (p 0x210)) k gs
  let (k', rest) := k.advance gs ts
  let v := if k.v * k'.v < 0 then 0 else fLimit (ratF k'.v) (p 0x200)
  let outs := [ratF k'.p, v, fLimit (ratF k'.a) (p 0x204)]
  { j with ready := true, out := some outs, wr := [0x40, 0x44, 0x48].zip outs, prof := some ⟨k', rest, outs⟩, past := past }

/-- Computes a profile set: TARGET is taken within SLMIN to SLMAX (R205). Where the parameters or the state are no motion its results
are free. -/
def State.prfCompute (s : State) (n : LeId) (j : LeJob) : LeJob :=
  let p (off : Nat) := s.param n j.bank off
  match fRat (p 0x200), fRat (p 0x204), fRat (p 0x208), fRat (fMax (p 0x20C) (fMin (p 0x214) (p 0x210))), fRat (p 0x218),
      fRat (s.leGet n 0x40), fRat (s.leGet n 0x44), fRat (s.leGet n 0x48) with
  | some V, some A, some J, some x, some ts, some q, some v, some a =>
    if 0 < V ∧ 0 < A ∧ 0 < J ∧ 0 < ts then s.prfMove n j V A J ts x ⟨q, v, a⟩
    else { j with ready := true, out := none, prof := none }
  | _, _, _, _, _, _, _, _ => { j with ready := true, out := none, prof := none }

/-- Computes a set with what its acceptance lc holds; an observer-fed set waits for its angle (R196). -/
def State.leCompute (s : State) (n : LeId) (p : Pipe) (j : LeJob) : LeJob :=
  match p with
  | .cur => if s.flag F.LEn_CTRL_OBSFEED n 0 then j else s.curCompute n j none
  | .vlt => s.vltCompute n j
  | .ftr => s.ftrCompute n j
  | .prf => s.prfCompute n j
  | .obs => { j with ready := true }
  | .gen => { j with ready := true }

/-- Input words of a current-loop set accepted now: marked words as formed, the rest as the destinations hold them (R191). -/
def State.curInputs (s : State) (n : LeId) (marked : List Word) : List Word :=
  (List.range 6).map fun k =>
    if k < 4 ∧ s.fld F.LEn_INSET_MARK n 0 / 2 ^ k % 2 = 1 then marked.getD k 0 else s.leIn n k

/-- The commands that end an accepted set. -/
def State.leSchedule (s : State) (n : LeId) (p : Pipe) : State :=
  match p with
  | .cur => if s.flag F.LEn_CTRL_OBSFEED n 0 then s else s.sched 12 (.currentLoopOutput n)
  | .vlt => s.sched 8 (.voltageLoopOutput n)
  | .ftr => s.sched 10 (.freqTrackerOutput n)
  | .prf => s.sched 16 (.profileOutput n)
  | .obs => (s.sched 36 (.observerAngle n)).sched 64 (.observerConfidence n)
  | .gen => s

/-- A set enters its pipeline. -/
def State.leEnter (s : State) (n : LeId) (p : Pipe) (ins : List Word) : State :=
  let ins := match p with
    | .cur => s.curInputs n ins
    | _ => ins
  let plan := match p with
    | .prf => s.le[n].plan
    | _ => false
  let j := s.leCompute n p ⟨s.now, s.fld F.LEn_STAT_BANK n 0, ins, plan, false, none, [], true, none, false⟩
  let free := s.now + s.leSpacing n p
  let s := s.modPipe n p fun x => { x with free := free, job := some j, held := none }
  let s := match p with
    | .prf => s.modLe n fun e => { e with plan := false }
    | _ => s
  let s := match p with
    | .obs => s
    | _ => s.count F.LEn_SETS_SETS n 0
  s.leSchedule n p

/-- A set waits for its pipeline to free. -/
def State.leHold (s : State) (n : LeId) (p : Pipe) (ins : List Word) : State :=
  let s := s.modPipe n p fun x => { x with held := some ins }
  s.schedAt (max s.now (s.lePipe n p).free) (.setAccept n p)

/-- A set arrives at a pipeline: it enters, or is held; a held set is replaced and counted (R185). Where the pipeline frees in this lc
the set held before enters first. -/
def State.leArrive (s : State) (n : LeId) (p : Pipe) (ins : List Word) : State :=
  let x := s.lePipe n p
  if x.job.isNone ∧ x.free ≤ s.now then
    match x.held with
    | none => s.leEnter n p ins
    | some old => (s.leEnter n p old).leHold n p ins
  else (if x.held.isSome then s.leOvr n else s).leHold n p ins

/-- A current-loop set enters, and with it the observer's set (R195). -/
def State.curFollow (s : State) (n : LeId) (before : State) : State :=
  if s.pipeOn n .obs && decide ((s.lePipe n .cur).job.map (·.at_) = some s.now) &&
      decide ((before.lePipe n .cur).job ≠ (s.lePipe n .cur).job) then
    s.leArrive n .obs (match (s.lePipe n .cur).job with
      | some j => j.ins
      | none => [])
  else s

/-- A set is formed: the new values of some destinations are consumed (R191, R224). An engine that accepts sets takes it; in any other it
is lost. -/
def State.leForm (s : State) (n : LeId) (ks : List Nat) (take : State → State) : State :=
  let s : State := { s with mx := { s.mx with dnew := ks.foldl (fun m k => m.put (leDst n + k) false false) s.mx.dnew } }
  if s.leAccepts n then take s else s

/-- CURRENT_SET_FORMED (R191): the marked words are taken and their new values consumed. -/
def execCurrentSetFormed (n : LeId) (s : State) : Out :=
  let mark := s.fld F.LEn_INSET_MARK n 0
  if s.mode.live && s.pipeOn n .cur && decide (mark ≠ 0) then
    .next (s.leForm n ((List.range 4).filter fun k => decide (mark / 2 ^ k % 2 = 1)) fun s =>
      (s.leArrive n .cur ((List.range 4).map (s.leIn n))).curFollow n s)
  else .next s

/-- VOLTAGE_SET (R201). -/
def execVoltageSet (n : LeId) (s : State) : Out :=
  if s.mode.live && s.pipeOn n .vlt then .next (s.leForm n [6] fun s => s.leArrive n .vlt [s.leIn n 6])
  else .next s

/-- FREQ_TRACKER_SET (R202). -/
def execFreqTrackerSet (n : LeId) (s : State) : Out :=
  if s.mode.live && s.pipeOn n .ftr then .next (s.leForm n [7, 8] fun s => s.leArrive n .ftr [s.leIn n 7, s.leIn n 8])
  else .next s

/-- A word that comes in the acceptance lc of a current-loop set to an input of it that is not marked counts in the set (R191). -/
def State.leRefresh (s : State) (n : LeId) (k : Nat) : State :=
  if 6 ≤ k ∨ s.fld F.LEn_INSET_MARK n 0 / 2 ^ k % 2 = 1 then s
  else match (s.lePipe n .cur).job with
    | some j =>
      if j.at_ = s.now ∧ j.keep then
        let j := s.leCompute n .cur { j with ins := j.ins.set k (s.leIn n k) }
        s.modPipe n .cur fun x => { x with job := some j }
      else s
    | none => s

/-- PROFILE_TICK (R203). -/
def execProfileTick (n : LeId) (s : State) : Out :=
  .next (if s.leAccepts n && s.pipeOn n .prf then s.leArrive n .prf [] else s)

/-! ## Outputs -/

/-- A word appears on a source `d` lc from now. -/
def State.leDrive (s : State) (n : LeId) (d k : Nat) (w : Word) : State :=
  let t := s.now + d
  s.modLe n fun e => { e with drv := e.drv ++ [(t, leSrc n + k, w)] }

/-- One lc: words that appear in this lc; outside the Run modes nothing is driven (R216, Table 8.7). -/
def State.leTick (s : State) (n : LeId) : State :=
  let (due, rest) := s.le[n].drv.partition fun x => decide (x.1 ≤ s.now)
  let s := s.modLe n fun e => { e with drv := rest }
  if s.mode.run then due.foldl (fun s x => s.raiseData x.2.1 x.2.2) s else s

/-- Writes the state of a set (R467), unless an epoch commit overtook it. -/
def State.leWrite (s : State) (n : LeId) (j : LeJob) : State :=
  if j.keep then j.wr.foldl (fun s x => s.lePut n x.1 x.2) s else s

/-- The placed general stage takes a pipeline's outputs (R208). -/
def State.lePlaced (s : State) (n : LeId) (src : Nat) : Bool := decide (s.fld F.LEn_CTRL_GENPOS n 0 = src + 1)

/-- Outputs of the current or voltage loop (R186, R192, R194, R201, R208). -/
def State.lePresent (s : State) (n : LeId) (src : Nat) (out : Option (List Word)) : State :=
  if !s.mode.run then s
  else match out with
    | none => ((s.bump F.LEn_ERR_CNT_NAN n 0).raiseFld F.LEn_STAT_NAN n 0 1).raiseEv (leSrc n + 17)
    | some ws =>
      if s.lePlaced n src && s.pipeOn n .gen then
        (s.modLe n fun e => { e with gen := { e.gen with feed := some ws } }).emit (.generalStageGo n)
      else if s.fld F.LEn_CTRL_OUTSRC n 0 = src then
        let s := ws.zipIdx.foldl (fun s x => s.leDrive n 1 x.2 x.1) s
        s.leDrive n 2 4 (s.reg .LEn_STROBE n 0)
      else s

/-- The set leaves the pipeline; the held one enters when the pipeline frees (R51). -/
def State.leDone (s : State) (n : LeId) (p : Pipe) : State :=
  let keep := decide (p = .cur) && s.flag F.LEn_CTRL_OBSFEED n 0
  let t := s.now
  let s := s.modPipe n p fun x =>
    { x with job := none, free := if keep then x.free else t, last := (x.job.bind (·.out)).getD x.last }
  if (s.lePipe n p).held.isSome then s.schedAt (max s.now (s.lePipe n p).free) (.setAccept n p) else s

/-- The engine still completes sets: Run modes, Handover, and without outputs the modes they leave for (Tables 8.7, 8.8). -/
def State.leLive (s : State) : Bool := s.mode.live

/-- CURRENT_LOOP_OUTPUT (R192): A + 12, or 9 lc after the observer's angle. -/
def execCurrentLoopOutput (n : LeId) (s : State) : Out :=
  match (s.lePipe n .cur).job with
  | some j =>
    if j.ready && s.leLive then
      .next (((((s.unsched (.currentLoopOutput n)).leWrite n j).lePresent n 0 j.out)).leDone n .cur)
    else .next s
  | none => .next s

/-- VOLTAGE_LOOP_OUTPUT (R201): A + 8. -/
def execVoltageLoopOutput (n : LeId) (s : State) : Out :=
  match (s.lePipe n .vlt).job with
  | some j =>
    if s.leLive then
      .next ((((s.unsched (.voltageLoopOutput n)).leWrite n j).lePresent n 1 j.out).leDone n .vlt)
    else .next s
  | none => .next s

/-- FREQ_TRACKER_OUTPUT (R202): A + 10. The phase-locked loop's results are free; the clamp, the lock test and what is driven are
not. -/
def execFreqTrackerOutput (n : LeId) (s : State) : Out :=
  match (s.lePipe n .ftr).job with
  | some j =>
    if s.leLive then
      let (theta, freq, fint) := Config.tracker s.fresh
      let s := (s.draw).unsched (.freqTrackerOutput n)
      let freq := fMin (fMax freq (s.param n j.bank 0x38C)) (s.param n j.bank 0x390)
      let k := (j.out.getD []).getD 0 0
      let s := s.leWrite n { j with wr := [(0x14, fint), (0x18, theta), (0x1C, freq), (0x20, k)] }
      let s := if s.mode.run then
          let s := (s.raiseData (leSrc n + 5) theta).raiseData (leSrc n + 6) freq
          if k = 0 then s.setLv (leSrc n + 7) false else if 16 ≤ k.toNat then s.setLv (leSrc n + 7) true else s
        else s
      .next (s.leDone n .ftr)
    else .next s
  | none => .next s

/-- Words of a profile set, and whether its plan leaves the soft limits: as computed, or free ones within VMAX and AMAX. -/
def State.prfWords (s : State) (n : LeId) (j : LeJob) : List Word × Bool :=
  match j.out with
  | some w => (w, j.past)
  | none =>
    let (pos, vel, acc, beyond) := Config.profile s.fresh
    ([pos, fLimit vel (s.param n j.bank 0x200), fLimit acc (s.param n j.bank 0x204)], j.plan && beyond)

/-- PROFILE_OUTPUT (R203 to R205): A + 16. -/
def execProfileOutput (n : LeId) (s : State) : Out :=
  match (s.lePipe n .prf).job with
  | some j =>
    if s.leLive then
      let (w, past) := s.prfWords n j
      let ix := s.fresh
      let s := (s.draw).unsched (.profileOutput n)
      let s := s.leWrite n { j with
        wr := [0x40, 0x44, 0x48].zip w ++ (List.range 45).map fun k => (0x4C + 4 * k, Config.modelWord ix k) }
      let s := if j.keep then s.modLe n fun e => { e with prof := j.prof } else s
      let s := if s.mode.run then
          let s := w.zipIdx.foldl (fun s x => s.raiseData (leSrc n + 8 + x.2) x.1) s
          if past then (s.raiseFld F.LEn_STAT_SLOVER n 0 1).raiseEv (leSrc n + 11) else s
        else s
      .next (s.leDone n .prf)
    else .next s
  | none => .next s

/-! ## Observer and coast-hold (R195 to R200) -/

/-- 2.5 ns in binary32 terms: angle units that ω_hold adds in `k` lc, rounded once (R198; DESIGN CHOICE, log entry 38). -/
def coastAdvance (w : Word) (k : Nat) : Word :=
  match b32.val w.toNat with
  | .fin s m e =>
    let t := (b32.ofRatio false (m * k) 400000000)
    let z := b32.val t
    match z with
    | .fin _ m' e' => BitVec.ofInt 32 (roundInt 0 s m' (e' + e)).1
    | _ => 0
  | _ => 0

/-- The coast angle of a set: advanced, in recovery moved toward the observer's by at most SLEW; and whether the two then
agree within ANGTOL (R198, R199). -/
def State.coastStep (s : State) (n : LeId) (j : LeJob) (angle : Word) : Word × Bool :=
  let a := s.leGet n 0x100 + coastAdvance (s.leGet n 0x104) (j.at_ - s.le[n].prev)
  if (s.leGet n 0x110).getLsbD 1 then
    let d := (angle - a).toInt
    let slew : Int := (s.param n j.bank 0x114).toNat
    let a' := a + BitVec.ofInt 32 (max (-slew) (min slew d))
    (a', decide ((angle - a').toInt.natAbs ≤ (s.param n j.bank 0x118).toNat))
  else (a, false)

/-- OBSERVER_ANGLE (R195, R196): lc 36. The angle, or in coast-hold the coast angle, goes to an observer-fed current loop. -/
def execObserverAngle (n : LeId) (s : State) : Out :=
  match (s.lePipe n .obs).job with
  | some j =>
    if !j.ready || j.out.isNone then
      let (angle, freq, m, e) := Config.observer s.fresh
      let s := (s.draw).unsched (.observerAngle n)
      let (ca, done) := s.coastStep n j angle
      let coast := s.leCoasts n
      let use := if coast && !done then ca else angle
      let j' := { j with ready := true, plan := done, out := some [angle, freq, m, e],
                         wr := if coast then [(0x100, ca)] else [] }
      let s := s.modPipe n .obs fun x => { x with job := some j' }
      let s := s.modLe n fun x => { x with prev := j.at_ }
      match (s.lePipe n .cur).job with
      | some c =>
        if s.flag F.LEn_CTRL_OBSFEED n 0 && !c.ready then
          let s := s.modPipe n .cur fun x => { x with job := some (s.curCompute n c (some use)) }
          .next (s.sched 9 (.currentLoopOutput n))
        else .next s
      | none => .next s
    else .next s
  | none => .next s

/-- The confidence (R197). -/
def leConfidence (psi m e : Word) : Word :=
  if fLt m (fMul 0x358637BD psi) then 0
  else fMax 0 (fSub (fSub 0x3F800000 (fDiv (fAbs (fSub m psi)) psi)) (fDiv (fAbs e) m))

/-- COAST_LC as it stands: lc since coast entry (R198). -/
def State.coastLc (s : State) (n : LeId) : Nat :=
  match s.le[n].coast with
  | some t => min 0xFFFFFFFF (s.now - t)
  | none => (s.reg .LEn_COAST_LC n 0).toNat

/-- COAST_LC stops where it stands. -/
def State.coastStop (s : State) (n : LeId) : State :=
  ((s.setReg .LEn_COAST_LC n 0 (BitVec.ofNat 32 (s.coastLc n))).unsched (.coastEscalate n)).modLe n
    fun e => { e with coast := none }

/-- COAST_LC counts on from a value; the escalation falls due at REACQ (R200). -/
def State.coastRun (s : State) (n : LeId) (from_ : Nat) : State :=
  let t := s.now - from_
  let s := s.modLe n fun e => { e with coast := some t }
  let r := (s.reg .LEn_OBS_REACQ n 0).toNat
  if from_ < r ∨ from_ = 0 then s.sched (r - from_) (.coastEscalate n) else s.unsched (.coastEscalate n)

/-- A write to LEn_OBS_REACQ moves the escalation. -/
def State.reacqWrite (s : State) (n : LeId) (v : Word) : State :=
  let s := s.setReg .LEn_OBS_REACQ n 0 v
  if s.le[n].coast.isSome then s.coastRun n (s.coastLc n) else s

/-- The engine escalates (R200). -/
def State.leEscalate (s : State) (n : LeId) : State :=
  ((s.unsched (.coastEscalate n)).raiseFld F.LEn_STAT_SAFEREQ n 0 1).raiseEv (leSrc n + 15)

/-- Recovery completes (R199); in the lc in which COAST_LC reaches REACQ the engine escalates all the same (Table 8.7). -/
def State.coastOver (s : State) (n : LeId) : State :=
  let late := decide (s.coastLc n = (s.reg .LEn_OBS_REACQ n 0).toNat)
  let s := s.lePut n 0x110 0
  if s.mode.run then
    let s := (s.setLv (leSrc n + 13) false).coastStop n
    if late then s.leEscalate n else s
  else s.coastStop n

/-- Coast-hold state after a set of confidence c (R198, R199). -/
def State.coastUpdate (s : State) (n : LeId) (j : LeJob) (c : Word) : State :=
  let low := fLt c (s.param n j.bank 0x100)
  let hi := fLe (s.param n j.bank 0x104) c
  let lows := if low then (s.leGet n 0x10C).toNat + 1 else 0
  let his := if hi then (s.leGet n 0x108).toNat + 1 else 0
  let lim := s.fld F.LEn_OBS_CFG_N n 0
  let flags := s.leGet n 0x110
  let coast := flags.getLsbD 0
  let recov := flags.getLsbD 1
  let freq := match j.out with
    | some w => w.getD 1 0
    | none => 0
  let s := s.leWrite n j
  let s := s.lePut n 0x10C (BitVec.ofNat 32 lows)
  let s := if !low && !coast then s.lePut n 0x104 freq else s
  if !coast then
    if low && decide (lim ≤ lows) then
      let s := ((s.lePut n 0x100 (Config.coastStart s.fresh)).lePut n 0x108 0).lePut n 0x110 1
      let s := s.draw
      if s.mode.run then ((s.coastRun n 0).setLv (leSrc n + 13) true).raiseEv (leSrc n + 14) else s
    else s.lePut n 0x108 (BitVec.ofNat 32 his)
  else if recov then
    if low then (s.lePut n 0x108 0).lePut n 0x110 1
    else if j.plan then
      (s.lePut n 0x108 (BitVec.ofNat 32 his)).coastOver n
    else s.lePut n 0x108 (BitVec.ofNat 32 his)
  else if hi && decide (lim ≤ his) then (s.lePut n 0x108 (BitVec.ofNat 32 his)).lePut n 0x110 3
  else s.lePut n 0x108 (BitVec.ofNat 32 his)

/-- OBSERVER_CONFIDENCE (R195, R197 to R199): A + 64. -/
def execObserverConfidence (n : LeId) (s : State) : Out :=
  match (s.lePipe n .obs).job with
  | some j =>
    match j.out with
    | some w =>
      if s.leLive then
        let c := leConfidence (s.param n j.bank 0x34) (w.getD 2 0) (w.getD 3 0)
        let s := (s.unsched (.observerConfidence n)).setReg .LEn_OBS_CONF n 0 c
        let s := if s.mode.run then s.raiseData (leSrc n + 12) c else s
        let ix := s.fresh
        let s := s.draw
        let j' := { j with wr := j.wr ++ (List.range 128).map fun k => (0x200 + 4 * k, Config.modelWord ix k) }
        let s := if j.keep then s.coastUpdate n j' c else s
        .next (s.leDone n .obs)
      else .next s
    | none => .next s
  | none => .next s

/-- COAST_ESCALATE (R200). -/
def execCoastEscalate (n : LeId) (s : State) : Out :=
  .next (if s.mode.run && s.leCoasts n then s.leEscalate n else s)

/-- Held sets, and a held start of the general stage, go in where they can, now that the engine accepts sets again. -/
def State.leResume (s : State) (n : LeId) : State :=
  let s := [Pipe.cur, .vlt, .ftr, .prf, .obs].foldl (fun s p =>
    if (s.lePipe n p).held.isSome then s.schedAt (max s.now (s.lePipe n p).free) (.setAccept n p) else s) s
  if s.le[n].gen.held.isSome && !s.le[n].gen.run then s.sched 0 (.setAccept n .gen) else s

/-- A write to LEn_STAT (W1C of NAN, SLOVER, SAFEREQ). -/
def State.leStatWrite (s : State) (n : LeId) (v : Word) : State :=
  let s := s.setReg .LEn_STAT n 0 (s.reg .LEn_STAT n 0 &&& ~~~(v &&& 0xE0 &&& ~~~(s.came .LEn_STAT n 0)))
  if v.getLsbD 5 then s.leResume n else s

/-- A write to a register of engine n by its owner, else refused (R358). -/
def State.leOwned (s : State) (r : Req) (n : LeId) (f : State → State) : State :=
  if r.owns (s.leOwner n) then f s else s.foreign

/-- SAFEREQ_CLEAR. -/
def execSafereqClear (r : Req) (n : LeId) (s : State) : Out :=
  regCmd r .write .LEn_STAT n 0 (fun s => s.leOwned r n fun s => s.leStatWrite n 0x20) s

/-! ## General stage (R206 to R208) -/

/-- Changes the general stage. -/
def State.modGen (s : State) (n : LeId) (f : GenSt → GenSt) : State := s.modLe n fun e => { e with gen := f e.gen }

/-- A run starts with the words in v1 on (R206, R208). -/
def State.genStart (s : State) (n : LeId) (ws : List Word) : State :=
  let v := ws.zipIdx.foldl (fun (v : Vector Word 32) x => vset v (Fin.ofNat 32 (x.2 + 1)) x.1) s.le[n].gen.v
  let s := s.modGen n fun g => { g with v := v, rdy := [], pc := 0, run := true, cnt := 0, held := none }
  (s.setReg .LEn_GEN_STAT n 0 (BitVec.ofNat 32 65536)).sched 1 (.generalBundle n)

/-- A start request waits. -/
def State.genHold (s : State) (n : LeId) (ws : List Word) : State := s.modGen n fun g => { g with held := some ws }

/-- A start request (R185, R208): a run starts, or the request is held; in the lc in which a run ends the request held before it
starts first. -/
def State.genRequest (s : State) (n : LeId) (ws : List Word) : State :=
  let g := s.le[n].gen
  match g.run, g.held with
  | true, some _ => (s.leOvr n).genHold n ws
  | true, none => s.genHold n ws
  | false, some old => (s.genStart n old).genHold n ws
  | false, none => s.genStart n ws

/-- GENERAL_STAGE_GO (R208): outputs of the pipeline it is placed after, which start a run in whatever state the engine accepts sets; a
held request, or Ln_GGO when standalone, in an engine that does. -/
def execGeneralStageGo (n : LeId) (s : State) : Out :=
  let g := s.le[n].gen
  if s.mode.run && s.pipeOn n .gen then
    match g.feed with
    | some ws => .next ((s.modGen n fun g => { g with feed := none }).genRequest n ws)
    | none =>
      if !s.leAccepts n then .next s
      else if s.fld F.LEn_CTRL_GENPOS n 0 = 0 then .next (s.genRequest n [])
      else match g.run, g.held with
        | false, some ws => .next (s.genStart n ws)
        | _, _ => .next s
  else .next s

/-- SET_ACCEPT (R51, R185): a held set enters as its pipeline frees, a held start of the general stage as its run ends. Where LEn_CTRL.EN
is 0 then, it stays held until EN is 1 again (DESIGN CHOICE, log entry 141). -/
def execSetAccept (n : LeId) (p : Pipe) (s : State) : Out :=
  match p with
  | .gen =>
    match s.le[n].gen.run, s.le[n].gen.held with
    | false, some ws => .next (if s.leAccepts n && s.pipeOn n .gen then s.genStart n ws else s)
    | _, _ => .next s
  | _ =>
    let x := s.lePipe n p
    match x.held with
    | some ins =>
      if s.leAccepts n && x.job.isNone && decide (x.free ≤ s.now) then
        let s' := (s.unsched (.setAccept n p)).leEnter n p ins
        match p with
        | .cur => .next (s'.curFollow n s)
        | _ => .next s'
      else .next s
    | none => .next s

/-- Register of the general stage; v0 reads +0.0. -/
def GenSt.get (g : GenSt) (r : Fin 32) : Word := if r = 0 then 0 else g.v[r]
/-- Writes a register that is ready at an lc; v0 keeps +0.0. -/
def GenSt.put (g : GenSt) (r : Fin 32) (w : Word) (t : Nat) : GenSt :=
  if r = 0 then g else { g with v := vset g.v r w, rdy := g.rdy.put r.val t 0 }

/-- Result of an operation of slot 0 or 1. -/
def State.genAluRes (s : State) (n : LeId) (op : GenAlu) (a b : Word) : Word :=
  match op with
  | .nop => 0
  | .fadd => fAdd a b
  | .fsub => fSub a b
  | .fmul => fMul a b
  | .fmin => fMin a b
  | .fmax => fMax a b
  | .fabs => fAbs a
  | .fneg => fNeg a
  | .fmov => BitVec.ofNat 32 (b32.signOp (fun x => x) a.toNat).bits
  | .cvtfi => fToInt a
  | .cvtif => fOfInt a
  | .iadd => a + b
  | .isub => a - b
  | .sint => s.leSin n a
  | .cost => s.leCos n a
  | .fdiv => fDiv a b
  | .fsqrt => fSqrt a

/-- Executes slot 0 or 1 on the registers `g0` of the bundle's start. -/
def State.genAluSlot (s : State) (n : LeId) (g0 : GenSt) (w : Word) : State :=
  let op := Config.genAlu (slotOp w)
  if op = .nop then s
  else
    let t := s.now + (if op = .fdiv ∨ op = .fsqrt then 4 else 1)
    let x := s.genAluRes n op (g0.get (slotA w)) (g0.get (slotB w))
    s.modGen n fun g => g.put (slotD w) x t

/-- The general stage drives: it is the selected source, or takes the place of the pipeline that is (R186, R208). -/
def State.genDrives (s : State) (n : LeId) : Bool :=
  let o := s.fld F.LEn_CTRL_OUTSRC n 0
  decide (o = 2) || decide (s.fld F.LEn_CTRL_GENPOS n 0 = o + 1)

/-- What IN reads (Table 8.5): of a source that carries no word, a level included, a free word. -/
def State.genInWord (s : State) (n : LeId) (g0 : GenSt) (i : GenIn) : Word :=
  match i with
  | .dest k => s.leIn n k.val
  | .src k =>
    if k.val ≤ 6 ∨ (8 ≤ k.val ∧ k.val ≤ 10) ∨ k.val = 12 then s.mx.word.get (leSrc n + k.val) 0
    else Config.genInBit k.val (s.mx.lv.get (leSrc n + k.val) false)
  | .cur k => (s.lePipe n .cur).last.getD k.val 0
  | .vlt k => (s.lePipe n .vlt).last.getD k.val 0
  | .gen k => g0.last[k]

/-- Executes slot 2. -/
def State.genMemSlot (s : State) (n : LeId) (g0 : GenSt) (w : Word) : State :=
  let t := s.now + 1
  match Config.genMem (slotOp w) with
  | .nop => s
  | .ld =>
    let x := s.word (leBase n + 4 * slotImm w)
    s.modGen n fun g => g.put (slotD w) x t
  | .st => s.setWord (leBase n + 4 * slotImm w) (g0.get (slotA w))
  | .ldp =>
    let x := s.param n (s.fld F.LEn_STAT_BANK n 0) (4 * slotImm w % 4096)
    s.modGen n fun g => g.put (slotD w) x t
  | .inp =>
    let x := s.genInWord n g0 (Config.genIn w)
    s.modGen n fun g => g.put (slotD w) x t
  | .out =>
    let k := Config.genOut w
    let x := g0.get (slotA w)
    let s := s.modGen n fun g => { g with last := vset g.last k x }
    if s.genDrives n then s.leDrive n 1 k.val x else s

/-- Executes slot 3: the next bundle, none to end the run. A branch that does not go forward is not taken. -/
def State.genCtlSlot (s : State) (n : LeId) (g0 : GenSt) (w : Word) : State × Option Nat :=
  let pc := g0.pc
  let a := g0.get (slotA w)
  let next := if pc < 63 then some (pc + 1) else none
  let jump (c : Bool) : Option Nat :=
    if c && decide (pc < slotImm w) then (if slotImm w < 64 then some (slotImm w) else none) else next
  match Config.genCtl (slotOp w) with
  | .nop => (s, next)
  | .brLt => (s, jump (fLt a 0))
  | .brEq => (s, jump (fLe a 0 && fLe 0 a))
  | .brGe => (s, jump (fLe 0 a))
  | .strobe => (if s.genDrives n then s.leDrive n 2 4 (s.reg .LEn_STROBE n 0) else s, next)
  | .gevt => (s.raiseEv (leSrc n + 18), next)
  | .stop => (s, none)

/-- Slot k of the present bundle. -/
def State.genSlot (s : State) (n : LeId) (k : Nat) : Word := s.word (leBase n + 0x3000 + 16 * s.le[n].gen.pc + 4 * k)

/-- Some register that the bundle reads is not ready. -/
def State.genStalls (s : State) (n : LeId) : Bool :=
  let g := s.le[n].gen
  let w2 := s.genSlot n 2
  let w3 := s.genSlot n 3
  let m : List (Fin 32) := match Config.genMem (slotOp w2) with
    | .st => [slotA w2]
    | .out => [slotA w2]
    | _ => []
  let c : List (Fin 32) := match Config.genCtl (slotOp w3) with
    | .brLt => [slotA w3]
    | .brEq => [slotA w3]
    | .brGe => [slotA w3]
    | _ => []
  let rs := (Config.genAlu (slotOp (s.genSlot n 0))).reads (s.genSlot n 0) ++
    (Config.genAlu (slotOp (s.genSlot n 1))).reads (s.genSlot n 1) ++ m ++ c
  rs.any fun r => decide (s.now < g.rdy.get r.val 0)

/-- GENERAL_BUNDLE (R206, R207). -/
def execGeneralBundle (n : LeId) (s : State) : Out :=
  let g := s.le[n].gen
  if g.run then
    let s := s.unsched (.generalBundle n)
    if !s.mode.run then .next ((s.modGen n fun g => { g with run := false, held := none }).setFld F.LEn_GEN_STAT_BUSY n 0 0)
    else
      let s := s.modGen n fun g => { g with cnt := g.cnt + 1 }
      let s := s.setFld F.LEn_GEN_STAT_BUNDLES n 0 (min 127 (g.cnt + 1))
      if s.genStalls n then .next (s.sched 1 (.generalBundle n))
      else
        let w0 := s.genSlot n 0
        let w1 := s.genSlot n 1
        let w2 := s.genSlot n 2
        let w3 := s.genSlot n 3
        let s := s.setFld F.LEn_GEN_STAT_LAST n 0 g.pc
        let s := ((s.genAluSlot n g w0).genAluSlot n g w1).genMemSlot n g w2
        match s.genCtlSlot n g w3 with
        | (s, some pc) => .next ((s.modGen n fun g => { g with pc := pc }).sched 1 (.generalBundle n))
        | (s, none) =>
          let s := (s.modGen n fun g => { g with run := false }).setFld F.LEn_GEN_STAT_BUSY n 0 0
          .next (if s.le[n].gen.held.isSome then s.sched 0 (.setAccept n .gen) else s)
  else .next s

/-! ## Parameter swap and bus access -/

/-- Some parameter of the profile plan differs between the banks (R204). -/
def State.planDiffers (s : State) (n : LeId) : Bool :=
  (List.range 6).any fun k => s.param n 0 (0x200 + 4 * k) != s.param n 1 (0x200 + 4 * k)

/-- Bus writes of this lc to the bank that becomes active are discarded and counted (Table 8.7). -/
def State.leUnwrite (s : State) (n : LeId) (b : Nat) : State :=
  s.le[n].wrote.reverse.foldl (fun s x =>
    if x.1 = s.now ∧ (x.2.1 - leBase n) / 0x1000 = b then
      (s.writeLE x.2.1 x.2.2.2 x.2.2.1).bump F.LEn_ERR_CNT_ACTWR n 0
    else s) s

/-- A bus write of `k` bytes to engine n's region: applied, or discarded and counted (R211, R212). -/
def State.leBusWrite (s : State) (n : LeId) (a v k : Nat) : State :=
  let off := a - leBase n
  if off < 0x2000 ∧ off / 0x1000 = s.fld F.LEn_STAT_BANK n 0 ∨ 0x2000 ≤ off ∧ off < 0x3400 ∧ s.flag F.LEn_CTRL_EN n 0 then
    s.bump F.LEn_ERR_CNT_ACTWR n 0
  else
    let t := s.now
    let w := s.readLE a k
    let s := if off < 0x2000 then s.modLe n fun e => { e with wrote := (e.wrote.filter fun x => x.1 = t) ++ [(t, a, k, w)] } else s
    s.writeLE a v k

/-- A swap (R211): once per lc; a set accepted in this lc uses the new bank, a tick of this lc plans (Tables 2.5, 8.7). -/
def State.leSwap (s : State) (n : LeId) : State :=
  let a := RegName.LEn_PARAM_SWAP.addr n 0
  if s.marked a false then s
  else
    let s := s.mark a false
    let b := 1 - s.fld F.LEn_STAT_BANK n 0
    let s := s.leUnwrite n b
    let s := (s.setFld F.LEn_STAT_BANK n 0 b).count F.LEn_PARAM_SWAP_COUNT n 0
    let plan := s.planDiffers n
    let s := s.modLe n fun e => { e with plan := e.plan || plan }
    [Pipe.cur, .vlt, .ftr, .prf, .obs].foldl (fun s p =>
      match (s.lePipe n p).job with
      | some j =>
        if j.at_ = s.now then
          let isP := decide (p = .prf)
          let s' := s.modPipe n p fun x => { x with
            job := some (s.leCompute n p { j with bank := b, plan := j.plan || (isP && plan) }) }
          if isP then s'.modLe n fun e => { e with plan := false } else s'
        else s
      | none => s) s

/-- PARAM_SWAP. -/
def execParamSwap (r : Req) (n : LeId) (s : State) : Out :=
  regCmd r .write .LEn_PARAM_SWAP n 0 (fun s => s.leOwned r n fun s => s.leSwap n) s

/-- LN_SWAP_EVENT. -/
def execLnSwapEvent (n : LeId) (s : State) : Out := .next (if s.mode.live then s.leSwap n else s)

/-- An epoch commit into the state area: sets accepted before write nothing; one accepted in this lc takes the committed
state (Table 8.7). -/
def State.leCommit (s : State) (n : LeId) (ws : List Word) : State :=
  let s := ws.zipIdx.foldl (fun s x => s.lePut n (4 * x.2) x.1) s
  let s := s.setLv (leSrc n + 13) (s.leCoasts n && s.mode.run)
  [Pipe.cur, .vlt, .ftr, .prf, .obs].foldl (fun s p =>
    match (s.lePipe n p).job with
    | some j =>
      let j' := if j.at_ = s.now then s.leCompute n p j else { j with keep := false }
      s.modPipe n p fun x => { x with job := some j' }
    | none => s) s

/-- A write to LEn_CTRL: OBS only in Loading (R241). -/
def State.leCtrlWrite (s : State) (n : LeId) (v : Word) : State :=
  let obs := s.fld F.LEn_CTRL_OBS n 0
  let s := s.writeReg .LEn_CTRL n 0 v
  let s := if s.mode = .loading then s else s.setFld F.LEn_CTRL_OBS n 0 obs
  if s.leAccepts n then s.leResume n else s

/-- A write to LEn_OBS_CFG: 0 stores 1. -/
def State.leObsWrite (s : State) (n : LeId) (v : Word) : State := s.setFld F.LEn_OBS_CFG_N n 0 (max 1 (getBits v 7 0))

/-- What a read of LEn_STAT shows. -/
def State.leStat (s : State) (n : LeId) : Word :=
  let w := s.reg .LEn_STAT n 0
  let w := setBits w 15 8 (min 255 (s.leGet n 0x10C).toNat)
  let w := setBits w 4 4 (if (s.leGet n 0x110).getLsbD 1 then 1 else 0)
  let w := setBits w 3 3 (if s.leCoasts n then 1 else 0)
  let held := s.le[n].pipes.toList.any (·.held.isSome) || s.le[n].gen.held.isSome
  let w := setBits w 1 1 (if held then 1 else 0)
  setBits w 0 0 (if s.leAccepts n then 1 else 0)

/-- Entry into a Run mode or Handover: COAST_LC counts on where coast-hold holds; the levels show again what the state holds. -/
def State.leRun (s : State) (n : LeId) : State :=
  let s := (s.setLv (leSrc n + 13) (s.leCoasts n)).setLv (leSrc n + 7) (decide (16 ≤ (s.leGet n 0x20).toNat))
  if s.leCoasts n && s.le[n].coast.isNone then s.coastRun n (s.coastLc n) else s

/-- The levels FLOCK and COAST are not driven: their idle value (R216, R225). -/
def State.leQuiet (s : State) (n : LeId) : State := (s.setLv (leSrc n + 7) false).setLv (leSrc n + 13) false

/-- Leaving the Run modes: held sets are dropped, COAST_LC stops, nothing more is driven (R216). -/
def State.leFreeze (s : State) (n : LeId) : State :=
  ((s.coastStop n).leQuiet n).modLe n fun e => { e with
    pipes := e.pipes.map fun p => { p with held := none }
    gen := { e.gen with held := none, feed := none }
    drv := [] }

/-- The engine loses power or is reset. -/
def State.leClear (s : State) (n : LeId) : State :=
  (((s.leQuiet n).modLe n fun _ => LeSt.init).setFld F.LEn_TBL_CTL_BUSY n 0 0).unschedAll fun c => match c with
    | .currentLoopOutput m => decide (m = n)
    | .voltageLoopOutput m => decide (m = n)
    | .freqTrackerOutput m => decide (m = n)
    | .profileOutput m => decide (m = n)
    | .observerAngle m => decide (m = n)
    | .observerConfidence m => decide (m = n)
    | .setAccept m _ => decide (m = n)
    | .coastEscalate m => decide (m = n)
    | .generalBundle m => decide (m = n)
    | .tableCopyDone m => decide (m = n)
    | _ => false

end Sys2Proof.Machine
end

