-- ==== Sys2Proof/Machine/Timer.lean ====
section
/-! DEFINITION. Timers, captures and time of day (R139 to R159). -/

namespace Sys2Proof.Machine

/-! ## Timers -/

/-- First matrix source of timer n (Table 9.1): ZERO, MATCH0 to 3, CAP0 to 3_EVT, PIN0, PIN1. -/
def tmrSrc (n : TmrId) : Nat := 0x1D0 + 12 * n.val

/-- Changes a timer's state. -/
def State.modTmr (s : State) (n : TmrId) (f : TmrSt → TmrSt) : State := { s with tmr := vmod s.tmr n f }

/-- The timer counts: RUN, in a mode in which timers run (R151). -/
def State.tmrRuns (s : State) (n : TmrId) : Bool := s.mode.live && s.flag F.TMn_STAT_RUN n 0

/-- Count of timer n in this lc (R139). -/
def State.tmrCount (s : State) (n : TmrId) : Nat :=
  let t := s.tmr[n]
  if s.flag F.TMn_STAT_RUN n 0 then (t.zeroAt - s.now + 2 ^ t.pre - 1) / 2 ^ t.pre else t.held

/-- Channel c is a capture channel. -/
def State.tmrCap (s : State) (n : TmrId) (c : Fin 4) : Bool := s.flag F.TMn_CHc_CFG_MODE n c

/-- Bit c of TMn_STAT.FIRED. -/
def State.tmrFired (s : State) (n : TmrId) (c : Fin 4) : Bool := s.fld F.TMn_STAT_FIRED n 0 / 2 ^ c.val % 2 = 1

/-- Puts the match of a compare channel on the calendar (R143, R46, R49): at the first lc of the step that counts VAL, or now
where that lc has passed. -/
def State.tmrDue (s : State) (n : TmrId) (c : Fin 4) : State :=
  if s.tmrRuns n && !s.tmrCap n c && !s.tmrFired n c then
    let v := (s.reg .TMn_CHc_VAL n c).toNat
    s.schedAt (s.tmr[n].zeroAt - v * 2 ^ s.tmr[n].pre) (.timerMatch n c)
  else s.unsched (.timerMatch n c)

/-- Captures taken in this lc hold the count of this lc (R147), which a start or a stop of it may have changed since. -/
def State.tmrRecap (s : State) (n : TmrId) : State :=
  (List.finRange 4).foldl (fun s (c : Fin 4) =>
    if s.marked (RegName.TMn_CHc_FINE.addr n c) true then s.setReg .TMn_CHc_VAL n c (BitVec.ofNat 32 (s.tmrCount n)) else s) s

/-- Loads the counter with RELOAD and begins a countdown with the present PRE (R139, R141). -/
def State.tmrLoad (s : State) (n : TmrId) : State :=
  let pre := s.fld F.TMn_CTRL_PRE n 0
  let z := s.now + (s.reg .TMn_RELOAD n 0).toNat * 2 ^ pre
  let s := s.modTmr n fun t => { t with zeroAt := z, pre := pre, zdone := false }
  let s := s.setFld F.TMn_STAT_RUN n 0 1
  let s := s.setFld F.TMn_STAT_FIRED n 0 0
  let s := (List.finRange 4).foldl (fun s c => s.tmrDue n c) s
  (s.schedAt z (.timerZero n)).tmrRecap n

/-- The zero step begins: Tn_ZERO; the zero actions follow once the matches of the lc have acted (R142, R146). -/
def State.tmrZeroStep (s : State) (n : TmrId) : State :=
  (s.modTmr n fun t => { t with zeroAt := s.now, zdone := true, zact := true }).raiseEv (tmrSrc n)

/-- The count has come to 0 and the zero step has not begun. -/
def State.tmrZeroNow (s : State) (n : TmrId) : Bool :=
  s.tmrRuns n && !s.tmr[n].zdone && decide (s.tmr[n].zeroAt ≤ s.now)

/-- The timer was started in this lc. -/
def State.tmrBegan (s : State) (n : TmrId) : Option TmrWas := s.tmr[n].was.filter fun w => decide (w.lc = s.now)

/-- A stop of this lc (Table 6.1). -/
def State.tmrStopping (s : State) (n : TmrId) : Bool := s.marked (RegName.TMn_CTRL.addr n 0) true

/-- Start (R141); a stop of the same lc prevails, a zero step of the lc raises its event all the same (Table 6.1). -/
def State.tmrStart (s : State) (n : TmrId) : State :=
  if s.mode.live && !s.tmrStopping n then
    let s := if s.tmrZeroNow n then s.tmrZeroStep n else s
    let t := s.tmr[n]
    let w : TmrWas := (s.tmrBegan n).getD
      ⟨s.now, s.flag F.TMn_STAT_RUN n 0, t.zeroAt, t.pre, t.zdone, s.fld F.TMn_STAT_FIRED n 0⟩
    (s.modTmr n fun t => { t with was := some w }).tmrLoad n
  else s

/-- A start of this lc has not taken place (Table 6.1: a stop prevails). -/
def State.tmrUnstart (s : State) (n : TmrId) : State :=
  match s.tmrBegan n with
  | some w =>
    let s := s.modTmr n fun t => { t with zeroAt := w.zeroAt, pre := w.pre, zdone := w.zdone, was := none }
    let s := (s.setFld F.TMn_STAT_RUN n 0 (if w.run then 1 else 0)).setFld F.TMn_STAT_FIRED n 0 w.fired
    let s := ((List.finRange 4).foldl (fun s c => s.tmrDue n c) s).tmrRecap n
    if w.run && !w.zdone then s.schedAt w.zeroAt (.timerZero n) else s.unsched (.timerZero n)
  | none => s

/-- A request to stop (R141): the present lc completes as a normal lc. -/
def State.tmrHalt (s : State) (n : TmrId) : State :=
  if s.mode.live then (s.tmrUnstart n).mark (RegName.TMn_CTRL.addr n 0) true else s

/-- A write to TMn_RELOAD (R140): in the lc of a start the start loads it (Table 6.1). -/
def State.tmrReloadWrite (s : State) (n : TmrId) (v : Word) : State :=
  let s := s.writeReg .TMn_RELOAD n 0 v
  let fired := s.fld F.TMn_STAT_FIRED n 0
  if s.mode.live && (s.tmrBegan n).isSome then (s.tmrLoad n).setFld F.TMn_STAT_FIRED n 0 fired else s

/-- The timer stops (R141): the count holds. -/
def State.tmrStop (s : State) (n : TmrId) : State :=
  let v := s.tmrCount n
  let s := s.modTmr n fun t => { t with held := v }
  let s := s.setFld F.TMn_STAT_RUN n 0 0
  (List.finRange 4).foldl (fun s c => s.unsched (.timerMatch n c)) (s.unsched (.timerZero n))

/-- Captures of a pin's own driven edge, 2 lc later (R149): channels of the pin that take it. -/
def State.tmrPinEdge (s : State) (n : TmrId) (k : Fin 2) (rising : Bool) : State :=
  [Fin.ofNat 4 (2 * k.val), Fin.ofNat 4 (2 * k.val + 1)].foldl (fun s c =>
    if s.tmrCap n c && !s.flag F.TMn_CHc_CFG_CAPSRC n c then s.sched 2 (.timerCapture n c ⟨rising, 0, false⟩) else s) s

/-- An action on a pin (R145): none, high, low, toggle. Of several in one lc the one of lowest rank is applied (R146). The
internal level is the source Tn_PINk. -/
def State.tmrPin (s : State) (n : TmrId) (k : Fin 2) (rank act : Nat) : State :=
  let src := tmrSrc n + 9 + k.val
  let cur := s.mx.lv.get src false
  let (l, r, before) := s.tmr[n].acted[k]
  let same := decide (l = s.now) && decide (r < 99)
  let base := if same then before else cur
  if act = 0 ∨ (same = true ∧ r ≤ rank) then s
  else
    let v := if act = 1 then true else if act = 2 then false else !base
    (s.modTmr n fun t => { t with acted := vset t.acted k (s.now, rank, base) }).relv src base v

/-- Level of TMIO(2n + k); none = not driven (R145, R151); in Retention what its latch holds. -/
def State.tmioPin (s : State) (n : TmrId) (k : Fin 2) : Option Bool :=
  if s.sys.mode = .retention then (s.sys.latch[32 + 2 * n.val + k.val]?).getD none
  else if !s.sys.mode.live || decide (s.fld F.TMn_CTRL_PINOE n 0 / 2 ^ k.val % 2 = 0) then none
  else if s.sys.mode.run then some (s.mx.lv.get (tmrSrc n + 9 + k.val) false)
  else some (decide (s.fld F.TMn_CTRL_IDLE n 0 / 2 ^ k.val % 2 = 1))

/-- Level that the device drives on a pin while the timers run. -/
def State.tmrDrives (s : State) (n : TmrId) (k : Fin 2) : Option Bool := if s.mode.live then s.tmioPin n k else none

/-- An output pin at the end of an lc: an edge of the level driven on it reaches its captures 2 lc later (R149). -/
def State.tmrPinEnd (s : State) (n : TmrId) (k : Fin 2) : State :=
  let v := s.tmrDrives n k
  let s' := match s.tmr[n].pin[k], v with
    | some a, some b => if a = b then s else s.tmrPinEdge n k b
    | _, _ => s
  s'.modTmr n fun t => { t with pin := vset t.pin k v }

/-- The last of an lc: the timers asked to stop in it stop (R141); pins that an action or a change of mode can have moved pass on
their edges (R149). -/
def State.tmrLcEnd (s : State) : State :=
  let moded := s.marked (RegName.SYS_MODE.addr 0 0) false
  (List.finRange 24).foldl (fun s (n : TmrId) =>
    let s := if s.tmrStopping n then s.tmrStop n else s
    ([0, 1] : List (Fin 2)).foldl (fun s k => if moded || decide (s.tmr[n].acted[k].1 = s.now) then s.tmrPinEnd n k else s) s) s

/-- Pin of a channel (R145). -/
def chPin (c : Fin 4) : Fin 2 := Fin.ofNat 2 (c.val / 2)

/-- TIMER_ZERO: the first lc of the zero step (R142). With ONESHOT the timer stops after the step. -/
def execTimerZero (n : TmrId) (s : State) : Out := .next (if s.tmrZeroNow n then s.tmrZeroStep n else s)

/-- The zero actions of a timer (R145, R146). -/
def State.tmrZeroActs (s : State) (n : TmrId) : State :=
  if s.tmr[n].zact then
    (List.finRange 4).foldl (fun s c => s.tmrPin n (chPin c) (4 + c.val) (s.fld F.TMn_CHc_CFG_ZEROACT n c))
      (s.modTmr n fun t => { t with zact := false })
  else s

/-- Some timer's zero actions wait. -/
def State.zactDue (s : State) : Bool := s.tmr.any (·.zact)

/-- The zero actions of an lc. -/
def State.tmrZeroActsAll (s : State) : State := (List.finRange 24).foldl (fun s n => s.tmrZeroActs n) s

/-- The step after the zero step: the timer reloads, or with ONESHOT stops (R139, R141). -/
def State.tmrTick (s : State) (n : TmrId) : State :=
  if s.tmrRuns n && s.tmr[n].zdone && decide (s.tmr[n].zeroAt + 2 ^ s.tmr[n].pre ≤ s.now) then
    if s.flag F.TMn_CTRL_ONESHOT n 0 then s.tmrStop n else s.tmrLoad n
  else s

/-- The count has reached VAL (R143) or passed it (R46, R49). -/
def State.tmrReached (s : State) (n : TmrId) (c : Fin 4) : Bool :=
  decide (s.tmr[n].zeroAt - (s.reg .TMn_CHc_VAL n c).toNat * 2 ^ s.tmr[n].pre ≤ s.now)

/-- TIMER_MATCH: fires once per countdown (R45, R143), on the value in effect in this lc (Table 2.5). -/
def execTimerMatch (n : TmrId) (c : Fin 4) (s : State) : Out :=
  if s.tmrRuns n && !s.tmrCap n c && !s.tmrFired n c && s.tmrReached n c then
    let s := s.unsched (.timerMatch n c)
    let s := s.setFld F.TMn_STAT_FIRED n 0 (s.fld F.TMn_STAT_FIRED n 0 + 2 ^ c.val)
    let s := s.raiseEv (tmrSrc n + 1 + c.val)
    .next (s.tmrPin n (chPin c) c.val (s.fld F.TMn_CHc_CFG_MATCHACT n c))
  else .next s

/-- A write to TMn_CTRL: every write starts or stops the timer (R141). -/
def State.tmrCtrlWrite (s : State) (n : TmrId) (v : Word) : State :=
  let s := s.writeReg .TMn_CTRL n 0 v
  if v.getLsbD 0 then s.tmrStart n else s.tmrHalt n

/-- TIMER_EN_START: a write of EN = 1. -/
def execTimerEnStart (r : Req) (n : TmrId) (v : Word) (s : State) : Out :=
  regCmd r .write .TMn_CTRL n 0 (fun s => s.tmrCtrlWrite n (v ||| 1)) s

/-- TIMER_EN_STOP: a write of EN = 0. -/
def execTimerEnStop (r : Req) (n : TmrId) (v : Word) (s : State) : Out :=
  regCmd r .write .TMn_CTRL n 0 (fun s => s.tmrCtrlWrite n (v &&& ~~~1)) s

/-- A write to TM_START or TM_STOP acts on every timer it names. -/
def State.tmrMask (s : State) (v : Word) (f : State → TmrId → State) : State :=
  (List.finRange 24).foldl (fun s (n : TmrId) => if v.getLsbD n.val then f s n else s) s

/-- TM_START. -/
def execTmStart (r : Req) (v : Word) (s : State) : Out :=
  regCmd r .write .TM_START 0 0 (fun s => s.tmrMask v State.tmrStart) s

/-- TM_STOP. -/
def execTmStop (r : Req) (v : Word) (s : State) : Out :=
  regCmd r .write .TM_STOP 0 0 (fun s => s.tmrMask v State.tmrHalt) s

/-- An event on Tn_START. -/
def execTimerStartEvent (n : TmrId) (s : State) : Out := .next (s.tmrStart n)

/-- An event on Tn_STOP. -/
def execTimerStopEvent (n : TmrId) (s : State) : Out := .next (s.tmrHalt n)

/-- A bus write to TMn_CHc_VAL: ignored in capture mode; discarded and counted where the port wrote in this lc (R144). -/
def State.tmrValWrite (s : State) (n : TmrId) (c : Fin 4) (v : Word) : State :=
  let a := RegName.TMn_CHc_VAL.addr n c
  if s.tmrCap n c then s
  else if s.marked a true then s.bump F.TMn_ERR_CNT_WRCONF n 0
  else ((s.setReg .TMn_CHc_VAL n c v).mark a false).tmrDue n c

/-- TIMER_COMPARE_PORT: the port value is stored; a bus write of the same lc counts as discarded (R144). -/
def execTimerComparePort (n : TmrId) (c : Fin 4) (w : Word) (s : State) : Out :=
  let a := RegName.TMn_CHc_VAL.addr n c
  if s.mode.live && !s.tmrCap n c then
    let s := if s.marked a false && !s.marked a true then s.bump F.TMn_ERR_CNT_WRCONF n 0 else s
    .next (((s.setReg .TMn_CHc_VAL n c w).mark a true).tmrDue n c)
  else .next s

/-- CAPEDGE selects the edge. -/
def State.capSelects (s : State) (n : TmrId) (c : Fin 4) (rising : Bool) : Bool :=
  let sel := s.fld F.TMn_CHc_CFG_CAPEDGE n c
  if rising then sel % 2 = 1 else 2 ≤ sel

/-- TIMER_CAPTURE: a selected edge captures the count and the fine part (R147 to R149); two edges in one lc cause one
capture. CAPF set at the start of the lc counts as set, whatever a W1C of the lc does (R9, Table 6.1). A pin edge comes with its count of 2 lc later, and no fine part. -/
def execTimerCapture (n : TmrId) (c : Fin 4) (e : CapEdge) (s : State) : Out :=
  let a := RegName.TMn_CHc_FINE.addr n c
  if s.mode.live && s.tmrCap n c && s.capSelects n c e.rising && !s.marked a true then
    let s := s.mark a true
    let bit (f : Nat) : Bool := decide (f / 2 ^ c.val % 2 = 1)
    let held := bit (s.fld F.TMn_STAT_CAPF n 0) || bit (s.oldFld F.TMn_STAT_CAPF n 0)
    let s := if held then (s.raiseFld ⟨.TMn_STAT, 8 + c.val, 8 + c.val⟩ n 0 1).bump F.TMn_ERR_CNT_CAPOVR n 0 else s
    let fine := e.fine && s.flag F.TMn_CHc_CFG_CAPSRC n c
    let s := s.setReg .TMn_CHc_VAL n c (BitVec.ofNat 32 (s.tmrCount n))
    let s := s.setReg .TMn_CHc_FINE n c (if fine then BitVec.ofNat 32 (256 + e.fs.toNat) else 0)
    .next ((s.raiseFld ⟨.TMn_STAT, c.val, c.val⟩ n 0 1).raiseEv (tmrSrc n + 5 + c.val))
  else .next s

/-- What a read of TMn_CHc_VAL shows: in the lc of a capture the old value (Table 6.1). -/
def State.tmrVal (s : State) (n : TmrId) (c : Fin 4) : Word :=
  if s.marked (RegName.TMn_CHc_FINE.addr n c) true then s.oldReg .TMn_CHc_VAL n c else s.reg .TMn_CHc_VAL n c

/-! ## Time of day -/

/-- One second in units of 2^-30 ns. -/
def todSecond : Nat := 1000000000 * 2 ^ 30

/-- NS. -/
def State.todNs (s : State) : Nat := s.tod.acc / 2 ^ 30
/-- FINE, in 1/256 ns. -/
def State.todFine (s : State) : Nat := s.tod.acc / 2 ^ 22 % 256
/-- SEC[47:32] and FINE as TOD_FINE_SNAP and TOD_PPS_FINE show them. -/
def State.todHiFine (s : State) : Word := BitVec.ofNat 32 (s.tod.sec.toNat / 2 ^ 32 * 65536 + s.todFine)
/-- SEC[31:0]. -/
def State.todSecLo (s : State) : Word := BitVec.ofNat 32 s.tod.sec.toNat

/-- Changes the TOD state. -/
def State.modTod (s : State) (f : TodSt → TodSt) : State := { s with tod := f s.tod }

/-- NS has reached 10^9: a second is carried into SEC (R152). -/
def TodSt.carry (t : TodSt) : TodSt := if todSecond ≤ t.acc then { t with acc := t.acc - todSecond, sec := t.sec + 1 } else t

/-- TOD_ROLLOVER: NS has reached 10^9 (R152). With PPSOUT the output rises (R154). -/
def execTodRollover (s : State) : Out :=
  if s.mode.live then
    let s := s.modTod TodSt.carry
    let s := s.raiseEv 4
    .next (if s.flag F.TOD_CFG_PPSOUT 0 0 then (s.modTod fun t => { t with ppsOut := true }).sched 400000 .ppsOutFall else s)
  else .next s

/-- PPS_OUT_FALL: 1 ms after the roll-over (R154). -/
def execPpsOutFall (s : State) : Out := .next (s.modTod fun t => { t with ppsOut := false })

/-- Bounds of ADDEND: 1,000 ppm about 0xA000_0000 (R153). -/
def addendMin : Nat := 2681670206
/-- Upper bound of ADDEND. -/
def addendMax : Nat := 2687038914

/-- A write to TOD_ADDEND (R153). -/
def State.addendWrite (s : State) (v : Word) : State :=
  if v.toNat < addendMin then (s.setReg .TOD_ADDEND 0 0 (BitVec.ofNat 32 addendMin)).raiseFld F.TOD_STAT_CLAMP 0 0 1
  else if addendMax < v.toNat then (s.setReg .TOD_ADDEND 0 0 (BitVec.ofNat 32 addendMax)).raiseFld F.TOD_STAT_CLAMP 0 0 1
  else s.setReg .TOD_ADDEND 0 0 v

/-- TOD_ADDEND_WRITE. -/
def execTodAddendWrite (r : Req) (v : Word) (s : State) : Out :=
  regCmd r .write .TOD_ADDEND 0 0 (fun s => s.addendWrite v) s

/-- PPS is the discipline source and TOD_PPS an input (R154). -/
def State.ppsIn (s : State) : Bool :=
  s.mode.live && decide (s.fld F.TOD_CFG_SRC 0 0 = 3) && !s.flag F.TOD_CFG_PPSOUT 0 0

/-- 1.1 s in lc. -/
def ppsTimeout : Nat := 440000000

/-- TOD_PPS_EDGE: accepted unless less than 500 ms after the last accepted edge (R154). -/
def execTodPpsEdge (s : State) : Out :=
  let early := match s.tod.ppsLast with
    | some t => decide (s.now < t + 200000000)
    | none => false
  if s.ppsIn && !early then
    let s := s.setReg .TOD_PPS_NS 0 0 (BitVec.ofNat 32 s.todNs)
    let s := s.setReg .TOD_PPS_SEC 0 0 s.todSecLo
    let s := s.setReg .TOD_PPS_FINE 0 0 s.todHiFine
    let s := s.setFld F.TOD_STAT_PPS_LOST 0 0 0
    let s := s.modTod fun t => { t with ppsLast := some s.now }
    .next ((s.raiseEv 5).sched ppsTimeout .ppsLost)
  else .next s

/-- PPS_LOST: no accepted edge for 1.1 s (R154). -/
def execPpsLost (s : State) : Out := .next (if s.ppsIn then s.setFld F.TOD_STAT_PPS_LOST 0 0 1 else s)

/-- TOD starts: the PPS time-out runs where PPS is the source (R154). -/
def State.todReady (s : State) : State := if s.ppsIn then s.sched ppsTimeout .ppsLost else s

/-- TOD stops (R159). A commit that is pending stays so (DESIGN CHOICE, log entry 139). -/
def State.todStop (s : State) : State := (s.setFld F.TOD_STAT_VALID 0 0 0).unsched .ppsLost

/-- A write to TOD_CFG; the PPS time-out runs from the selection of PPS on. -/
def State.todCfgWrite (s : State) (v : Word) : State :=
  let was := s.ppsIn
  let s := s.writeReg .TOD_CFG 0 0 v
  if s.ppsIn && !was then s.sched ppsTimeout .ppsLost
  else if !s.ppsIn then s.unsched .ppsLost else s

/-- A read of TOD_NS latches the requester's snapshot set (R155). -/
def State.todRead (s : State) (r : Req) : Word × State :=
  (BitVec.ofNat 32 s.todNs, s.modTod fun t => { t with snap := vset t.snap r.master (s.todSecLo, s.todHiFine) })

/-- TOD_NS_READ. -/
def execTodNsRead (r : Req) (s : State) : Out :=
  regCmd r .read .TOD_NS 0 0 (fun s => let x := s.todRead r; x.2.answer x.1) s

/-- The commit (R156): SEC and NS from the set registers as they stood at the start of the lc, FINE and the lower fraction 0. -/
def State.todCommit (s : State) : State :=
  let hi := getBits (s.oldReg .TOD_SET_SEC_HI 0 0) 15 0
  let lo := (s.oldReg .TOD_SET_SEC 0 0).toNat
  let ns := getBits (s.oldReg .TOD_SET_NS 0 0) 29 0
  let s := s.modTod fun t => { t with sec := BitVec.ofNat 48 (hi * 2 ^ 32 + lo), acc := ns * 2 ^ 30 }
  let s := s.setFld F.TOD_STAT_VALID 0 0 1
  let s := s.setFld F.TOD_STAT_PENDING 0 0 0
  s.raiseEv 6

/-- Commit instant of a timed commit. -/
def State.commitAt (s : State) : Nat := getBits (s.reg .TOD_COMMIT_AT 0 0) 29 0

/-- A GO write (R156, R158): refused where the set NS is no time; an AT already passed commits at once. While TOD is stopped (R159)
an accepted one does nothing (DEDUCED, log entry 119). -/
def State.todGo (s : State) (timed : Bool) : State :=
  if 1000000000 ≤ getBits (s.oldReg .TOD_SET_NS 0 0) 29 0 then s.raiseFld F.TOD_STAT_SETERR 0 0 1
  else if !s.mode.live then s
  else if timed && (decide (s.commitAt = 0) || decide (s.todNs < s.commitAt)) then s.setFld F.TOD_STAT_PENDING 0 0 1
  else s.todCommit

/-- CANCEL withdraws a pending commit (R158). -/
def State.todCancel (s : State) : State := s.setFld F.TOD_STAT_PENDING 0 0 0

/-- A write to TOD_COMMIT_AT: under a pending commit an instant that NS has passed commits at once (R156, R46). -/
def State.commitAtWrite (s : State) (v : Word) : State :=
  let s := s.writeReg .TOD_COMMIT_AT 0 0 v
  if s.mode.live && s.flag F.TOD_STAT_PENDING 0 0 && decide (s.commitAt ≠ 0) && decide (s.commitAt ≤ s.todNs) then s.todCommit else s

/-- A write to TOD_COMMIT: CANCEL, then GO. -/
def State.todCommitWrite (s : State) (v : Word) : State :=
  let s := if v.getLsbD 2 then s.todCancel else s
  if v.getLsbD 0 then s.todGo (v.getLsbD 1) else s

/-- TOD_COMMIT_GO. -/
def execTodCommitGo (r : Req) (timed : Bool) (s : State) : Out :=
  regCmd r .write .TOD_COMMIT 0 0 (fun s => s.todCommitWrite (if timed then 3 else 1)) s

/-- TOD_COMMIT_CANCEL. -/
def execTodCommitCancel (r : Req) (s : State) : Out :=
  regCmd r .write .TOD_COMMIT 0 0 (fun s => s.todCommitWrite 4) s

/-- TOD_TIMED_COMMIT: the pending commit takes place (R156, R157). -/
def execTodTimedCommit (s : State) : Out :=
  .next (if s.mode.live && s.flag F.TOD_STAT_PENDING 0 0 then s.todCommit else s)

/-- One lc of TOD (R152): ADDEND is added, a second carried; a timed commit whose instant has come holds its value in this lc (R156),
whether or not a second is carried in it (R157). The event and the output of a roll-over come all the same (DESIGN CHOICE, log entry
138). -/
def State.todTick (s : State) : State :=
  if s.mode.live then
    let before := s.todNs
    let s := s.modTod fun t => { t with acc := t.acc + (s.reg .TOD_ADDEND 0 0).toNat }
    let roll := decide (todSecond ≤ s.tod.acc)
    let at_ := s.commitAt
    let hit := if at_ = 0 then roll else decide (before < at_) && decide (at_ ≤ s.todNs) && decide (at_ < 1000000000)
    let s := if roll then (s.modTod TodSt.carry).emit .todRollover else s
    if s.flag F.TOD_STAT_PENDING 0 0 && hit then s.todCommit else s
  else s

end Sys2Proof.Machine
end

