-- ==== Sys2Proof/Machine/Pos.lean ====
section
/-! DEFINITION. Position interfaces (R160 to R183). -/

namespace Sys2Proof.Machine

/-- First matrix source of interface n (Table 9.1): POS, SPEED, VALID, DIR, IDX, IDXERR, QERR, REV, PRB, SPDEVT, SSIDONE,
SSIERR. -/
def posSrc (n : PosId) : Nat := 0x2F0 + 12 * n.val
/-- First matrix destination of interface n (Table 9.2): PROBE, SPDWIN, SSI_REQ, SIN, COS. -/
def posDst (n : PosId) : Nat := 0x2C0 + 8 * n.val

/-- Changes an interface's state. -/
def State.modPos (s : State) (n : PosId) (f : PosSt → PosSt) : State := { s with pos := vmod s.pos n f }

/-- MODE of an interface: 0 off, 1 quadrature, 2 SSI, 3 sin/cos. -/
def State.posMode (s : State) (n : PosId) : Nat := s.fld F.POSn_CFG_MODE n 0

/-- The interface runs (R161, R183). -/
def State.posRuns (s : State) (n : PosId) : Bool := s.mode.live && s.flag F.POSn_CFG_EN n 0 && decide (s.posMode n ≠ 0)

/-- In SSI mode the interface follows the peer's clock (Table 7.4). -/
def State.posSlave (s : State) : Bool :=
  decide (s.mode = .runStandby) || (decide (s.mode = .handover) && !s.flag F.TW_STAT_OWN 0 0)

/-- QERR, IDXERR or AMPERR is set. -/
def State.posErr (s : State) (n : PosId) : Bool :=
  s.flag F.POSn_STAT_QERR n 0 || s.flag F.POSn_STAT_IDXERR n 0 || s.flag F.POSn_STAT_AMPERR n 0

/-- STAT.VALID and Pn_VALID (R168; in SSI mode R174 as well). -/
def State.posValid (s : State) (n : PosId) : State :=
  let v := !s.posErr n && !s.pos[n].await && (decide (s.posMode n ≠ 2) || s.pos[n].ssiOk)
  (s.setFld F.POSn_STAT_VALID n 0 (if v then 1 else 0)).setLv (posSrc n + 2) v

/-- Stores POS, which the source Pn_POS presents. -/
def State.posPut (s : State) (n : PosId) (w : Word) : State := (s.setReg .POSn_POS n 0 w).raiseData (posSrc n) w

/-! ## Enable -/

/-- Enables the interface (R161). -/
def State.posEnable (s : State) (n : PosId) : State :=
  let s := s.modPos n fun p => { PosSt.init with
    a := p.a, b := p.b, z := p.z, ha := p.ha, hb := p.hb, hz := p.hz, encPin := p.encPin, enc := p.enc, win := s.now,
    await := s.flag F.POSn_CFG_REFREQ n 0 }
  let s := s.setFld F.POSn_STAT_REF n 0 0
  let s := s.setFld F.POSn_STAT_METHOD n 0 0
  let s := s.setFld F.POSn_STAT_BUSY n 0 0
  ((s.posPut n 0).setReg .POSn_SPEED n 0 0).posValid n

/-- Commands of interface n that are on their way. -/
def posTimed (n : PosId) (c : Instr) : Bool :=
  match c with
  | .probeEdge m _ => decide (m = n)
  | .ssiFrameEnd m _ _ => decide (m = n)
  | .monoflopEnd m => decide (m = n)
  | .sincosResult m => decide (m = n)
  | .speedResult m => decide (m = n)
  | _ => false

/-- Stops the interface: registers hold, no event comes (R161). -/
def State.posStop (s : State) (n : PosId) : State :=
  (s.unschedAll (posTimed n)).modPos n fun p => { p with samp := [], spd := [], frame := none, mono := false, zrst := false }

/-- A write to POSn_CFG: DWELL 0 stores 1, MULT 0b11 is ignored; EN rising enables, EN = 0 stops (R161), in Maintenance as well. -/
def State.posCfgWrite (s : State) (n : PosId) (v : Word) : State :=
  let was := s.flag F.POSn_CFG_EN n 0
  let mult := s.fld F.POSn_CFG_MULT n 0
  let s := s.writeReg .POSn_CFG n 0 v
  let s := if getBits v 23 16 = 0 then s.setFld F.POSn_CFG_DWELL n 0 1 else s
  let s := if getBits v 3 2 = 3 then s.setFld F.POSn_CFG_MULT n 0 mult else s
  if s.mode = .loading then s
  else if v.getLsbD 31 then (if was then s else s.posEnable n)
  else s.posStop n

/-- POS_ENABLE: a write of EN = 1. -/
def execPosEnable (r : Req) (n : PosId) (v : Word) (s : State) : Out :=
  regCmd r .write .POSn_CFG n 0 (fun s => s.posCfgWrite n (v ||| 0x80000000)) s

/-- POS_DISABLE: a write of EN = 0. -/
def execPosDisable (r : Req) (n : PosId) (v : Word) (s : State) : Out :=
  regCmd r .write .POSn_CFG n 0 (fun s => s.posCfgWrite n (v &&& 0x7FFFFFFF)) s

/-! ## Counting -/

/-- The divider at a counted edge (R171, R172). -/
def State.posDivide (s : State) (n : PosId) (fwd : Bool) : State :=
  let num := s.fld F.POSn_DIVNM_N n 0
  let m := s.fld F.POSn_DIVNM_M n 0
  s.modPos n fun p =>
    let acc := if m ≤ p.acc then 0 else p.acc
    if fwd then
      if m ≤ acc + num then { p with acc := acc + num - m, enc := p.enc + 1 } else { p with acc := acc + num }
    else if acc < num then { p with acc := acc + m - num, enc := p.enc - 1 }
    else { p with acc := acc - num }

/-- Direction after a counted edge (R170). -/
def State.posDirection (s : State) (n : PosId) (fwd : Bool) : State :=
  let (d, k) := s.pos[n].run
  let k' := if d = fwd then k + 1 else 1
  let s := s.modPos n fun p => { p with run := (fwd, k') }
  if s.flag F.POSn_STAT_DIR n 0 = fwd ∧ s.fld F.POSn_CFG_DWELL n 0 ≤ k' then
    ((s.setFld F.POSn_STAT_DIR n 0 (if fwd then 0 else 1)).setLv (posSrc n + 3) (!fwd)).raiseEv (posSrc n + 7)
  else s

/-- A counted edge, POS apart: internal count, speed, direction, divider (R163, R165, R170, R171, R179). -/
def State.posStep (s : State) (n : PosId) (fwd : Bool) : State :=
  let t := s.now
  let s := s.modPos n fun p => { p with cnt := p.cnt + (if fwd then 1 else -1), e2 := p.e1, e1 := some (t, fwd) }
  (s.posDirection n fwd).posDivide n fwd

/-- POS one up or down, modulo MOD (R165). -/
def posNext (pos md : Word) (fwd : Bool) : Word :=
  if md = 0 then (if fwd then pos + 1 else pos - 1)
  else BitVec.ofNat 32 ((pos.toNat + (if fwd then 1 else md.toNat - 1)) % md.toNat)

/-- POS takes a value at an edge; a bus write of this lc prevails, and a probe latch of this lc takes the value before
(Table 7.3). -/
def State.posMove (s : State) (n : PosId) (w : Word) : State :=
  let old := s.reg .POSn_POS n 0
  let t := s.now
  let s := s.modPos n fun p => match p.before with
    | some (t', _) => if t' = t then p else { p with before := some (t, old) }
    | none => { p with before := some (t, old) }
  if s.marked (RegName.POSn_POS.addr n 0) false then s else s.posPut n w

/-- An illegal transition or quadrant jump (R164, R177). -/
def State.posQerr (s : State) (n : PosId) : State :=
  let t := s.now
  let s := s.modPos n fun p => { p with qerrAt := some t }
  let s := s.raiseFld F.POSn_STAT_QERR n 0 1
  ((s.bump F.POSn_ERR_CNT_SIG n 0).raiseEv (posSrc n + 6)).posValid n

/-- Takes back the edge counted in this lc, which another one of the lc makes illegal (R164); a bus write of POS stays. -/
def State.posUndo (s : State) (n : PosId) : State :=
  match s.pos[n].was with
  | some w =>
    if w.lc = s.now then
      let s := s.modPos n fun p =>
        { p with a := w.a, b := w.b, cnt := w.cnt, e1 := w.e1, e2 := w.e2, run := w.run, acc := w.acc, enc := w.enc }
      let s := if s.marked (RegName.POSn_POS.addr n 0) false then s else s.posPut n w.pos
      if s.flag F.POSn_STAT_DIR n 0 = w.dir then s
      else
        let s := (s.setFld F.POSn_STAT_DIR n 0 (if w.dir then 1 else 0)).relv (posSrc n + 3) w.dir w.dir
        { s with mx := { s.mx with ev := s.mx.ev.filter fun k => decide (k ≠ posSrc n + 7) } }
    else s
  | none => s

/-- Records what the edges of this lc start from. -/
def State.posKeep (s : State) (n : PosId) : State :=
  let p := s.pos[n]
  if p.was.any fun w => decide (w.lc = s.now) then s
  else
    s.modPos n fun _ =>
      { p with was := some ⟨s.now, p.a, p.b, s.reg .POSn_POS n 0, p.cnt, p.e1, p.e2, p.run, p.acc, p.enc, s.flag F.POSn_STAT_DIR n 0⟩ }

/-- The filtered levels take new values in this lc (R162 to R164): an edge is counted under MULT; edges of A and B in one lc are
illegal. In sin/cos mode A and B are not counted (R160). -/
def State.posLevels (s : State) (n : PosId) (lv : EncLv) : State :=
  let s := s.modPos n fun p => { p with z := lv.z }
  if !s.posRuns n || decide (s.posMode n ≠ 1) then s.modPos n fun p => { p with a := lv.a, b := lv.b }
  else if s.pos[n].a = lv.a ∧ s.pos[n].b = lv.b then s
  else
    let ill := decide (s.pos[n].qerrAt = some s.now)
    let s := if ill then s else (s.posUndo n).posKeep n
    let ea := s.pos[n].a != lv.a
    let eb := s.pos[n].b != lv.b
    let s := s.modPos n fun p => { p with a := lv.a, b := lv.b }
    if ill || !(ea || eb) then s
    else if ea && eb then s.posQerr n
    else
      let mult := s.fld F.POSn_CFG_MULT n 0
      let fwd := if ea then lv.a != lv.b else lv.a == lv.b
      if decide (mult = 2) || (ea && (decide (mult = 1) || !lv.b)) then
        (s.posMove n (posNext (s.reg .POSn_POS n 0) (s.reg .POSn_MOD n 0) fwd)).posStep n fwd
      else s

/-- A pin whose level has been `b` long enough. -/
def steadyPin (b : Bool) : BitVec 18 := if b then BitVec.allOnes 18 else 0

/-- QUAD_EDGE (R162 to R164): levels change at the pins, from which they pass synchroniser and filter, or behind the filter. -/
def execQuadEdge (n : PosId) (at_ : EncAt) (lv : EncLv) (s : State) : Out :=
  match at_ with
  | .pins =>
    .next (s.modPos n fun p =>
      { p with
        ha := (p.ha &&& ~~~1) ||| (if lv.a then 1 else 0)
        hb := (p.hb &&& ~~~1) ||| (if lv.b then 1 else 0)
        hz := (p.hz &&& ~~~1) ||| (if lv.z then 1 else 0) })
  | .filtered =>
    if s.mode.live then
      .next ((s.modPos n fun p => { p with ha := steadyPin lv.a, hb := steadyPin lv.b, hz := steadyPin lv.z }).posLevels n lv)
    else .next s

/-- Level behind synchroniser and filter: the one that the pin held for FILT + 1 lc up to two lc ago, else as before (R162). -/
def filtered (h : BitVec 18) (filt : Nat) (cur : Bool) : Bool :=
  let w := h.toNat / 4 % 2 ^ (filt + 1)
  if w = 0 then false else if w = 2 ^ (filt + 1) - 1 then true else cur

/-- One lc of synchronisers and filters (R162). -/
def State.posFilter (s : State) (n : PosId) : State :=
  let sh (h : BitVec 18) : BitVec 18 := h <<< 1 ||| (h &&& 1)
  let s := s.modPos n fun p => { p with ha := sh p.ha, hb := sh p.hb, hz := sh p.hz }
  let p := s.pos[n]
  let f := s.fld F.POSn_CFG_FILT n 0
  let lv : EncLv := ⟨filtered p.ha f p.a, filtered p.hb f p.b, filtered p.hz f p.z⟩
  if lv = ⟨p.a, p.b, p.z⟩ then s else s.posLevels n lv

/-- The check of the spacing D (R167). -/
def State.posCheck (s : State) (n : PosId) (d : Int) (fwd0 fwd : Bool) : State :=
  let lines : Int := s.fld F.POSn_LINES_LINES n 0
  let e := if fwd0 = fwd then (if fwd then lines else -lines) else 0
  if lines ≠ 0 ∧ s.fld F.POSn_LINES_TOL n 0 < (d - e).natAbs then
    ((s.raiseFld F.POSn_STAT_IDXERR n 0 1).bump F.POSn_ERR_CNT_IDX n 0).raiseEv (posSrc n + 5)
  else s

/-- The filtered A and B stand as ZQUAL says (R166). -/
def State.posQual (s : State) (n : PosId) : Bool :=
  decide (s.fld F.POSn_CFG_ZQUAL n 0 = (if s.pos[n].a then 2 else 0) + if s.pos[n].b then 1 else 0)

/-- The interface looks for index events. -/
def State.posIndexes (s : State) (n : PosId) : Bool := s.posRuns n && decide (s.posMode n ≠ 2)

/-- An index event falls in this lc: the condition of R166 holds and did not before. -/
def State.posIdxNow (s : State) (n : PosId) : Bool :=
  s.posIndexes n && s.pos[n].z && s.posQual n && !s.pos[n].held && decide (s.pos[n].idxAt ≠ some s.now)

/-- An index event (R166 to R168, R178), the edges of the lc counted. One of the lc of a QERR is not checked and loads nothing
(Table 7.3). One of the lc in which the errors are cleared is checked, and is not the next one that validates (Table 7.3; DEDUCED, log
entry 142). -/
def State.posIndex (s : State) (n : PosId) : State :=
    let p := s.pos[n]
    let qerr := decide (p.qerrAt = some s.now)
    let cleared := s.marked (RegName.POSn_STAT.addr n 0) true
    let fwd := match p.e1 with
      | some (_, f) => f
      | none => true
    let s := s.setReg .POSn_IDXPOS n 0 (s.reg .POSn_POS n 0)
    let s := (s.setFld F.POSn_STAT_REF n 0 1).raiseEv (posSrc n + 4)
    let s := match p.idx with
      | some (c, f) =>
        let s := s.setReg .POSn_IDXDIFF n 0 (BitVec.ofInt 32 (p.cnt - c))
        if (p.skip && !cleared) || qerr then s else s.posCheck n (p.cnt - c) f fwd
      | none => s
    let zero := s.flag F.POSn_CFG_ZRST n 0 && !qerr && !s.marked (RegName.POSn_POS.addr n 0) false
    let s := s.modPos n fun p =>
      { p with idx := some (p.cnt, fwd), await := p.await && cleared, skip := p.skip && cleared, zrst := zero, idxAt := some s.now }
    s.posValid n

/-- INDEX_EVENT (R166): Z has come while A and B stand as ZQUAL says, and the condition did not hold before; it acts when the edges of
the lc have been counted (Table 7.3). -/
def execIndexEvent (n : PosId) (s : State) : Out :=
  .next (if !s.isLate then s.defer (.indexEvent n)
    else if s.posIndexes n && s.posQual n && !s.pos[n].held && decide (s.pos[n].idxAt ≠ some s.now) then s.posIndex n else s)

/-- Levels pass the filters; the ZRST load, the emulated output one lc after its edge (R166, R171); the end of an SSI frame (R173). -/
def State.posTick (s : State) (n : PosId) : State :=
  let s := s.modPos n fun p => { p with encPin := p.enc, held := s.posIndexes n && p.z && s.posQual n }
  let s := if s.pos[n].zrst then (s.modPos n fun p => { p with zrst := false }).posPut n 0 else s
  let s := match s.pos[n].frame with
    | some f =>
      if f.start + (f.len + 1) * 2 * f.div ≤ s.now then
        (s.setFld F.POSn_STAT_BUSY n 0 0).modPos n fun p => { p with frame := none }
      else s
    | none => s
  s.posFilter n

/-- A bus write to POS presets the count (R165). -/
def State.posPreset (s : State) (n : PosId) (v : Word) : State :=
  ((s.posPut n v).mark (RegName.POSn_POS.addr n 0) false).modPos n fun p => { p with zrst := false }

/-- POS_PRESET. -/
def execPosPreset (r : Req) (n : PosId) (v : Word) (s : State) : Out :=
  regCmd r .write .POSn_POS n 0 (fun s => s.posPreset n v) s

/-- A write to DIVNM (R172). -/
def State.posDivnmWrite (s : State) (n : PosId) (v : Word) : State :=
  let a := getBits v 31 16
  let m := getBits v 15 0
  if a = 0 ∨ m = 0 ∨ m < a then s.bump F.POSn_ERR_CNT_SIG n 0 else s.setReg .POSn_DIVNM n 0 v

/-- POS_DIVNM_WRITE. -/
def execPosDivnmWrite (r : Req) (n : PosId) (v : Word) (s : State) : Out :=
  regCmd r .write .POSn_DIVNM n 0 (fun s => s.posDivnmWrite n v) s

/-! ## Probe -/

/-- PROBE_EDGE (R169): the lc after the edge, where PRBSRC and PRBEDGE select it. A count changed in this lc is latched as it was
before (Table 7.3). -/
def execProbeEdge (n : PosId) (e : PrbEdge) (s : State) : Out :=
  if s.posRuns n && decide (s.flag F.POSn_CFG_PRBSRC n 0 = decide (e.src = .dest)) &&
      decide (s.fld F.POSn_CFG_PRBEDGE n 0 / (if e.rising then 1 else 2) % 2 = 1) then
    let pos := match s.pos[n].before with
      | some (t, w) => if t = s.now then w else s.reg .POSn_POS n 0
      | none => s.reg .POSn_POS n 0
    let s := s.setReg .POSn_PRB_POS n 0 pos
    let s := s.setReg .POSn_PRB_NS n 0 (BitVec.ofNat 32 s.todNs)
    let s := s.setReg .POSn_PRB_SEC n 0 s.todSecLo
    let s := if s.flag F.POSn_STAT_PRBF n 0 then s.raiseFld F.POSn_STAT_PRBOVF n 0 1 else s
    .next ((s.raiseFld F.POSn_STAT_PRBF n 0 1).raiseEv (posSrc n + 8))
  else .next s

/-! ## SSI -/

/-- lc from the request to the write of POS: the last sample and one more (R173, R175). -/
def State.ssiFrameLc (s : State) (n : PosId) : Nat :=
  (2 * s.fld F.POSn_SSI_CFG_LEN n 0 + 1) * s.fld F.POSn_SSI_CFG_DIV n 0 + s.fld F.POSn_SSI_CFG_DLY n 0 + 1

/-- A request for a frame (R173, R175). A follower of the peer's clock starts none (Table 7.4). -/
def State.ssiRequest (s : State) (n : PosId) : State :=
  if !s.posRuns n || decide (s.posMode n ≠ 2) || s.posSlave then s
  else if s.pos[n].mono then s.bump F.POSn_ERR_CNT_SSIOVR n 0
  else
    let (bits, low) := Config.ssiFrame s.fresh
    let s := (s.draw.setFld F.POSn_STAT_BUSY n 0 1).modPos n fun p =>
      { p with mono := true, frame := some ⟨s.now, s.fld F.POSn_SSI_CFG_LEN n 0, s.fld F.POSn_SSI_CFG_DIV n 0, false⟩ }
    let s := s.sched (s.ssiFrameLc n) (.ssiFrameEnd n bits low)
    s.sched ((s.fld F.POSn_SSI_CFG_LEN n 0 + 1) * 2 * s.fld F.POSn_SSI_CFG_DIV n 0 + s.fld F.POSn_SSI_CFG_MONO n 0 * 100)
      (.monoflopEnd n)

/-- SSI_BUSY_WRITE. -/
def execSsiBusyWrite (r : Req) (n : PosId) (s : State) : Out :=
  regCmd r .write .POSn_STAT n 0 (fun s => s.ssiRequest n) s

/-- SSI_REQUEST_EVENT. -/
def execSsiRequestEvent (n : PosId) (s : State) : Out := .next (s.ssiRequest n)

/-- CRC of `k` bits over the `n` low bits of `x`, most significant first, initial value 0 (R174). -/
def ssiCrc (k poly x : Nat) : Nat → Nat → Nat
  | 0, c => c
  | n + 1, c =>
    let top := c / 2 ^ (k - 1) % 2
    let c' := c * 2 % 2 ^ k
    ssiCrc k poly x n (if top ≠ x / 2 ^ n % 2 then c' ^^^ (poly % 2 ^ k) else c')

/-- Binary value of an `n`-bit Gray code: each bit is the exclusive or of the code bits from the top down to it. -/
def grayBin (x : Nat) : Nat → Nat
  | 0 => x
  | n + 1 => grayBin (x ^^^ (x / 2 ^ (2 ^ n))) n

/-- Whether the frame is good, and its position (R173, R174). -/
def State.ssiDecode (s : State) (n : PosId) (bits : BitVec 40) (low : Bool) : Bool × Nat :=
  let len := s.fld F.POSn_SSI_CFG_LEN n 0
  let k := min 8 (s.fld F.POSn_SSI_CRC_CRCLEN n 0)
  let x := bits.toNat % 2 ^ len
  let raw := x / 2 ^ k
  let crc := if k = 0 then 0 else ssiCrc k (s.fld F.POSn_SSI_CRC_POLY n 0) raw (len - k) 0
  let crc := if s.flag F.POSn_SSI_CRC_INV n 0 then 2 ^ k - 1 - crc else crc
  (!low && decide (x % 2 ^ k = crc), if s.flag F.POSn_SSI_CFG_GRAY n 0 then grayBin raw 6 else raw)

/-- Change from one position to another as a signed number, modulo 2 ^ w. -/
def wrapDiff (w : Nat) (new old : Nat) : Int :=
  let d := (new + 2 ^ w - old % 2 ^ w) % 2 ^ w
  if 2 * d < 2 ^ w then d else (d : Int) - 2 ^ w

/-- Level that the interface drives on POSn_A; none = not driven (R160, R173, Table 7.4): in SSI mode the clock, high while idle, low
and high for DIV lc each in every cycle of a frame. -/
def State.posClock (s : State) (n : PosId) : Option Bool :=
  if s.mode.live && decide (s.posMode n = 2) && !s.posSlave then
    some (match s.pos[n].frame with
      | some f => decide ((s.now - f.start) / f.div % 2 = 1)
      | none => true)
  else none

/-- SSI_FRAME_END (R174): the last sample of a frame of this interface, or the end of one that the peer clocked. -/
def execSsiFrameEnd (n : PosId) (bits : BitVec 40) (low : Bool) (s : State) : Out :=
  if s.posRuns n && decide (s.posMode n = 2) && (s.posSlave || s.pos[n].frame.any fun f => !f.done) then
    let s := s.unschedAll fun c => match c with
      | .ssiFrameEnd m _ _ => decide (m = n)
      | _ => false
    let s := s.modPos n fun p => { p with frame := p.frame.map fun f => { f with done := true } }
    let (good, x) := s.ssiDecode n bits low
    if good then
      let w := min 32 (s.fld F.POSn_SSI_CFG_LEN n 0 - min 8 (s.fld F.POSn_SSI_CRC_CRCLEN n 0))
      let d := wrapDiff w x s.pos[n].ssiPos
      let t := s.now
      let s := s.modPos n fun p =>
        let c := p.cnt + d
        { p with
          cnt := c, ssiOk := true, ssiPos := x, good := some (t, c)
          goodA := match p.goodA with
            | some g => some g
            | none => some (t, c) }
      let s := s.setFld F.POSn_STAT_SSIERR n 0 0
      .next (((s.posPut n (BitVec.ofNat 32 x)).posValid n).raiseEv (posSrc n + 10))
    else
      let s := s.modPos n fun p => { p with ssiOk := false }
      let s := (s.setFld F.POSn_STAT_SSIERR n 0 1).bump F.POSn_ERR_CNT_SSI n 0
      .next ((s.posValid n).raiseEv (posSrc n + 11))
  else .next s

/-- MONOFLOP_END: the next frame may start (R173). -/
def execMonoflopEnd (n : PosId) (s : State) : Out :=
  if s.flag F.POSn_STAT_BUSY n 0 then .next s
  else .next ((s.unsched (.monoflopEnd n)).modPos n fun p => { p with mono := false })

/-- Takeover of the clock pin: a frame under way is discarded, the first own frame follows a monoflop time (Table 7.4). -/
def State.posTakeover (s : State) (n : PosId) : State :=
  if s.posRuns n && decide (s.posMode n = 2) then
    let s := s.unschedAll fun c => match c with
      | .ssiFrameEnd m _ _ => decide (m = n)
      | _ => false
    let s := s.setFld F.POSn_STAT_BUSY n 0 0
    (s.modPos n fun p => { p with mono := true, frame := none }).sched (s.fld F.POSn_SSI_CFG_MONO n 0 * 100) (.monoflopEnd n)
  else s

/-! ## Sin/cos interpolation -/

/-- SINCOS_SAMPLE (R176): the words on Pn_SIN and Pn_COS, with the correction of this lc. -/
def execSincosSample (n : PosId) (s : State) : Out :=
  if s.posRuns n && decide (s.posMode n = 3) then
    let x : ScSample := ⟨s.destWord (posDst n + 3), s.destWord (posDst n + 4), s.reg .POSn_SC_OFF n 0, s.reg .POSn_SC_GAIN n 0,
      s.reg .POSn_SC_PHASE n 0, s.reg .POSn_SC_AMP n 0⟩
    let s : State := { s with mx := { s.mx with
      dnew := (s.mx.dnew.put (posDst n + 3) false false).put (posDst n + 4) false false } }
    .next ((s.modPos n fun p => { p with samp := p.samp ++ [x] }).schedMore 6 (.sincosResult n))
  else .next s

/-- 2 ^ 60, the unit of the fixed-point sine and cosine. -/
def scUnit : Int := 2 ^ 60

/-- Partial sum of the series of sine or cosine: term t of order k, x² in units of 2 ^ -60. -/
def scSeries (x2 : Int) : Nat → Int → Nat → Int
  | 0, _, _ => 0
  | n + 1, t, k => t + scSeries x2 n (-(t * x2 / scUnit) / ((k + 1) * (k + 2) : Nat)) (k + 2)

/-- sin φ and cos φ in units of 2 ^ -60, φ in units of 2π / 65,536 (R176). -/
def sinCosPhase (phase : Int) : Int × Int :=
  let x := phase * 7244019458077122842 / 65536
  let x2 := x * x / scUnit
  (scSeries x2 12 x 1, scSeries x2 12 scUnit 0)

/-- Scales a vector down so that its components stay below 2 ^ 96. -/
def vecScale (x y : Int) : Int × Int :=
  let b := bitLen (max x.natAbs y.natAbs)
  if b ≤ 96 then (x, y) else (x / 2 ^ (b - 96), y / 2 ^ (b - 96))

/-- The first `n` binary digits of the angle of (x, y) as a fraction of a turn, after `a`: each squaring doubles the
angle. -/
def angleBits (x y : Int) : Nat → Nat → Nat
  | 0, a => a
  | n + 1, a =>
    let half := decide (y < 0) || (decide (y = 0) && decide (x < 0))
    let (x', y') := vecScale (x * x - y * y) (2 * x * y)
    angleBits x' y' n (2 * a + (if half then 1 else 0))

/-- The vector (c, s) of R176 times cos φ and a power of two. -/
def scVector (off gain phase sinw cosw : Word) : Int × Int × Int × Int :=
  let sg := ((sinw.setWidth 16).toInt - (BitVec.ofNat 16 (getBits off 31 16)).toInt) * (getBits gain 31 16 : Int)
  let cg := ((cosw.setWidth 16).toInt - (BitVec.ofNat 16 (getBits off 15 0)).toInt) * (getBits gain 15 0 : Int)
  let ph := max (-4096) (min 4096 (phase.setWidth 16).toInt)
  let (sn, cs) := sinCosPhase ph
  (cg * scUnit - sg * sn, sg * cs, cs, sg)

/-- SINCOS_RESULT (R177): angle exact to 17 bits and rounded, within the ±1 LSB that the arithmetic may contribute. -/
def execSincosResult (n : PosId) (s : State) : Out :=
  match s.pos[n].samp with
  | c :: rest =>
    let s := s.modPos n fun p => { p with samp := rest }
    if s.posRuns n && decide (s.posMode n = 3) then
      let (x, y, cs, _) := scVector c.off c.gain c.phase c.sin c.cos
      let amp2 := x * x + y * y
      let lim (a : Nat) : Int := (a * a * 2 ^ 30 : Nat) * (cs * cs)
      if amp2 < lim (getBits c.amp 15 0) ∨ lim (getBits c.amp 31 16) < amp2 then
        let s := (s.raiseFld F.POSn_STAT_AMPERR n 0 1).bump F.POSn_ERR_CNT_SIG n 0
        .next (s.posValid n)
      else
        let ang := ((angleBits (vecScale x y).1 (vecScale x y).2 17 0 + 1) / 2 + (Config.angleError s.fresh).val + 65535) % 65536
        let s := s.draw
        let q := ang / 16384
        let old := s.pos[n].quad
        let s := s.modPos n fun p => { p with quad := some q }
        let turn : Nat := match old with
          | some o => (q + 4 - o) % 4
          | none => 0
        if turn = 2 then .next (s.posQerr n)
        else
          let per := getBits (s.reg .POSn_POS n 0) 31 16
          let up := decide (old = some 3) && decide (q = 0)
          let down := decide (old = some 0) && decide (q = 3)
          let per := if up then per + 1 else if down then per + 65535 else per
          let s := s.posMove n (BitVec.ofNat 32 (per * 65536 + ang))
          .next (if up || down then s.posStep n up else s)
    else .next s
  | [] => .next s

/-! ## Speed -/

/-- lc per second. -/
def lcPerSec : Nat := 400000000

/-- The frame nearer to an lc. -/
def nearer (t : Nat) (a b : Option (Nat × Int)) : Option (Nat × Int) :=
  match a, b with
  | some x, some y => if max x.1 t - min x.1 t ≤ max y.1 t - min y.1 t then some x else some y
  | some x, none => some x
  | none, y => y

/-- Change of the internal count over the window that closes (R179; in SSI mode from the good frames nearest to its ends,
DESIGN CHOICE, log entry 33). -/
def State.posDelta (s : State) (n : PosId) : Int :=
  let p := s.pos[n]
  if s.posMode n = 2 then
    match nearer p.win p.goodB p.goodA, p.good with
    | some a, some b => b.2 - a.2
    | _, _ => 0
  else p.cnt - p.wcnt

/-- Period-per-count estimate as sign and divisor of 400,000,000; divisor 0 = speed 0 (R179). -/
def State.posPeriod (s : State) (n : PosId) : Bool × Nat :=
  match s.pos[n].e1, s.pos[n].e2 with
  | some (t1, f1), some (t2, f2) =>
    let e := s.now - t1
    if f1 ≠ f2 ∨ (s.reg .POSn_SPD_TMAX n 0).toNat < e then (false, 0) else (!f1, max (t1 - t2) e)
  | _, _ => (false, 0)

/-- SPEED_WINDOW (R179, R180); an edge of the lc counts in the window that closes (Table 7.3). -/
def execSpeedWindow (n : PosId) (s : State) : Out :=
  if !s.isLate then .next (s.defer (.speedWindow n))
  else if s.posRuns n && decide (s.pos[n].win < s.now) then
    let dn := s.posDelta n
    let w := s.now - s.pos[n].win
    let was := s.flag F.POSn_STAT_METHOD n 0
    let m := if s.posMode n = 2 ∨ s.fld F.POSn_SPD_X_XHI n 0 ≤ dn.natAbs then true
      else if dn.natAbs ≤ s.fld F.POSn_SPD_X_XLO n 0 then false else was
    let unit := if s.posMode n = 3 then 65536 * lcPerSec else lcPerSec
    let (neg, q) := s.posPeriod n
    let v := if m then b32.ofRatio (decide (dn < 0)) (dn.natAbs * unit) w else b32.ofRatio neg unit q
    let s := s.setFld F.POSn_STAT_METHOD n 0 (if m then 1 else 0)
    let t := s.now
    let s := s.modPos n fun p => { p with
      win := t, wcnt := p.cnt, goodB := p.good, goodA := none, spd := p.spd ++ [BitVec.ofNat 32 v] }
    .next (s.schedMore 4 (.speedResult n))
  else .next s

/-- SPEED_RESULT (R180). -/
def execSpeedResult (n : PosId) (s : State) : Out :=
  match s.pos[n].spd with
  | v :: rest =>
    let s := s.modPos n fun p => { p with spd := rest }
    if s.posRuns n then
      .next (((s.setReg .POSn_SPEED n 0 v).raiseData (posSrc n + 1) v).raiseEv (posSrc n + 9))
    else .next s
  | [] => .next s

/-! ## Status -/

/-- A write to POSn_STAT (R168, R173). -/
def State.posStatWrite (s : State) (n : PosId) (v : Word) : State :=
  let was := s.posErr n
  let s := s.setReg .POSn_STAT n 0 (s.reg .POSn_STAT n 0 &&& ~~~(v &&& 0x370 &&& ~~~s.came .POSn_STAT n 0))
  let s := if was && !s.posErr n then
      if s.fld F.POSn_LINES_LINES n 0 ≠ 0 ∨ s.flag F.POSn_CFG_REFREQ n 0 = true then
        (s.modPos n fun p => { p with await := true, skip := true }).mark (RegName.POSn_STAT.addr n 0) true
      else s
    else s
  let s := if was then s.posValid n else s
  if v.getLsbD 10 then s.ssiRequest n else s

/-- POS_ERROR_CLEAR. -/
def execPosErrorClear (r : Req) (n : PosId) (v : Word) (s : State) : Out :=
  regCmd r .write .POSn_STAT n 0 (fun s => s.posStatWrite n v) s

/-- A write to POSn_SSI_CFG: MONO 0 stores 1, LEN and DIV take the nearer bound. -/
def State.posSsiWrite (s : State) (n : PosId) (v : Word) : State :=
  let s := s.writeReg .POSn_SSI_CFG n 0 v
  let s := s.setFld F.POSn_SSI_CFG_MONO n 0 (max 1 (getBits v 31 24))
  let s := s.setFld F.POSn_SSI_CFG_LEN n 0 (max 8 (min 40 (getBits v 13 8)))
  s.setFld F.POSn_SSI_CFG_DIV n 0 (max 20 (getBits v 7 0))

/-- Levels on ENCOUTn_A and ENCOUTn_B; none = high-impedance (R171, Tables 7.1, 7.4). -/
def State.encOut (s : State) (n : PosId) : Option (Bool × Bool) :=
  if s.mode.live && !s.posSlave && s.flag F.POSn_CFG_ENCOE n 0 && decide (s.posMode n % 2 = 1) then
    match s.pos[n].encPin.toNat with
    | 0 => some (false, false)
    | 1 => some (true, false)
    | 2 => some (true, true)
    | _ => some (false, true)
  else none

/-- Entry into Ready: the filters stand at the levels of the pins (DEDUCED, log entry 120); with EN = 1 the interface is enabled, unless
it stopped for Maintenance only (R161, Table 7.4). -/
def State.posReady (s : State) (fresh : Bool) : State :=
  (List.finRange 8).foldl (fun s n =>
    let s := if fresh then s.modPos n fun p => { PosSt.init with ha := p.ha, hb := p.hb, hz := p.hz } else s
    let s := s.modPos n fun p =>
      { p with
        a := p.ha.getLsbD 0, b := p.hb.getLsbD 0, z := p.hz.getLsbD 0
        ha := steadyPin (p.ha.getLsbD 0), hb := steadyPin (p.hb.getLsbD 0), hz := steadyPin (p.hz.getLsbD 0) }
    if fresh && s.flag F.POSn_CFG_EN n 0 then s.posEnable n else s) s

end Sys2Proof.Machine
end

