-- ==== Sys2Proof/Machine/Pwm.lean ====
section
/-! DEFINITION. PWM generation, dead time, trips and delay lines (R111 to R138). Instants inside an lc are counted in fs from
lc 0: 256 to an lc (R3). The pins take the safe pattern at once, within the 10 ns of R132. -/

namespace Sys2Proof.Machine

/-- First matrix source of generator n (Table 9.1). -/
def pwmSrc (n : GenId) : Nat := 0x110 + 12 * n.val
/-- First matrix destination of generator n (Table 9.2): TRIP0 to 3, TC, END, PSTART, SYNC, CMPA_P, CMPB_P. -/
def pwmDst (n : GenId) : Nat := 0x120 + 10 * n.val

/-- Changes a generator's state. -/
def State.modPwm (s : State) (n : GenId) (f : PwmSt → PwmSt) : State := { s with pwm := vmod s.pwm n f }

/-- The counter runs. -/
def State.pwmRuns (s : State) (n : GenId) : Bool := s.mode.live && s.flag F.PWMn_STAT_RUN n 0

/-- Group of a generator (R111). -/
def State.grpOf (s : State) (n : GenId) : Nat := s.fld F.PWMn_CFG_GRP n 0
/-- Generators of a group. -/
def State.grpMembers (s : State) (k : Nat) : List GenId := (List.finRange 16).filter fun n => decide (s.grpOf n = k)
/-- Lead generator of a group: the lowest-numbered member (R119). -/
def State.grpLead (s : State) (k : Nat) : Option GenId := (s.grpMembers k).head?

/-- Constant on-time or off-time mode. -/
def PwmSt.variable (g : PwmSt) : Bool := decide (g.mode = 4) || decide (g.mode = 5)
/-- lc of one counter step (R112). -/
def PwmSt.st (g : PwmSt) : Nat := 2 ^ g.pre
/-- Steps of the period since its start, in lc `t`. -/
def PwmSt.stepAt (g : PwmSt) (t : Nat) : Nat := g.k0 + (t - g.began) / g.st
/-- First lc of step j; a step before `began` counts as `began`. -/
def PwmSt.stepLc (g : PwmSt) (j : Nat) : Nat := g.began + (j - g.k0) * g.st
/-- A period began in lc `t`. -/
def PwmSt.begins (g : PwmSt) (t : Nat) : Bool := decide (g.began = t) && !g.jumped
/-- Steps of a period of fixed length. -/
def PwmSt.len (g : PwmSt) : Nat := if g.mode = 3 then 2 * g.per else g.per

/-- COUNT and DOWN of PWMn_CNT in this lc. -/
def State.pwmCount (s : State) (n : GenId) : Nat × Bool :=
  let g := s.pwm[n]
  if s.flag F.PWMn_STAT_RUN n 0 then
    let k := g.stepAt s.now
    if g.mode = 2 then (g.per - 1 - k, true)
    else if g.mode = 3 ∧ g.per ≤ k then (2 * g.per - k, true)
    else (k % 65536, false)
  else g.held

/-! ## Output stage -/

/-- The device holds group pins at the safe pattern: Ready, Safe-Hold, SAFE_N low (R415), DBG_SAFEGRP (R373). -/
def State.pwmForced (s : State) (n : GenId) : Bool :=
  decide (s.mode = .ready) || decide (s.mode = .safeHold) || s.sys.safeNLow ||
    (s.reg .DBG_SAFEGRP 0 0).getLsbD (s.grpOf n)

/-- Something holds the pins at the safe pattern (R131). -/
def State.pwmNeedsSafe (s : State) (n : GenId) : Bool :=
  s.flag F.PWMn_STAT_TRIPPED n 0 || s.pwmForced n || !s.pwmRuns n

/-- Level that Gn_OUTA or Gn_OUTB carries (R126): the safe pattern's, high-impedance as 0, or the output's. -/
def State.pwmOut (s : State) (n : GenId) (x : Fin 2) : Bool :=
  if !s.sys.mode.live then false
  else if s.pwm[n].safe then
    decide ((if x = 0 then s.fld F.PWMn_SAFE_A n 0 else s.fld F.PWMn_SAFE_B n 0) = 1)
  else s.pwm[n].lvl[x]

/-- Level of pin PWMnA or PWMnB at twin offset 0 (`State.pwmPinAt` has the others); none = high-impedance (R126, R131, Table 5.4); in
Retention what its latch holds. -/
def State.pwmPin (s : State) (n : GenId) (x : Fin 2) : Option Bool :=
  if s.sys.mode = .retention then (s.sys.latch[2 * n.val + x.val]?).getD none
  else if !s.sys.mode.live then none
  else if s.pwm[n].safe then
    match if x = 0 then s.fld F.PWMn_SAFE_A n 0 else s.fld F.PWMn_SAFE_B n 0 with
    | 0 => some false
    | 1 => some true
    | _ => none
  else some (s.pwm[n].lvl[x] ^^ (if x = 0 then s.flag F.PWMn_CFG_POLA n 0 else s.flag F.PWMn_CFG_POLB n 0))

/-- Drives the level sources of a generator; an output that changes has its edge at `t`. -/
def State.pwmDrive (s : State) (n : GenId) (t : Nat) : State :=
  let src := pwmSrc n
  let s := ([0, 1] : List (Fin 2)).foldl (fun s x =>
    let v := s.pwmOut n x
    if s.mx.lv.get (src + 9 + x.val) false = v then s
    else (s.setLv (src + 9 + x.val) v).modPwm n fun g => { g with edge := vset g.edge x t, edgeB := vset g.edgeB x g.edge[x] }) s
  s.setLv (src + 8) (s.mode.live && s.flag F.PWMn_STAT_TRIPPED n 0)

/-- The pins take the safe pattern. -/
def State.pwmSafe (s : State) (n : GenId) (lead : Bool) : State :=
  (s.modPwm n fun g => { g with safe := true, lead := g.lead || lead, on := none, lvl := Vector.replicate 2 false }).pwmDrive
    n (s.now * 256)

/-- The outgoing dead time has passed: the output turns on at `t` (R127); in adaptive mode Gn_DIR follows (R128). -/
def State.pwmTurnOn (s : State) (n : GenId) (b : Bool) (t : Nat) : State :=
  let x : Fin 2 := if b then 1 else 0
  let s := s.modPwm n fun g => { g with on := none, lvl := vset g.lvl x true }
  let s := s.pwmDrive n t
  if s.flag F.PWMn_CFG_DTMODE n 0 then s.setLv (pwmSrc n + 5) (b != s.flag F.PWMn_CFG_ALOW n 0) else s

/-- Level of Gn_DIR. -/
def State.pwmDir (s : State) (n : GenId) : Bool := s.mx.lv.get (pwmSrc n + 5) false
/-- Level on Gn_TC. -/
def State.pwmTc (s : State) (n : GenId) : Bool := s.destLv (pwmDst n + 4)

/-- The transition did not complete by DTMAX (R129). -/
def State.pwmNoTrans (s : State) (n : GenId) : State :=
  (s.raiseEv (pwmSrc n + 6)).bump F.PWMn_ERR_CNT_NOTRANS n 0

/-- Dead time starts at `toff` for the turn-on of A or B (R127, R128); in fixed mode without dead time it turns on at once. -/
def State.pwmDead (s : State) (n : GenId) (b : Bool) (toff : Nat) : State :=
  let g := s.pwm[n]
  let dt := if b then g.dtb else g.dta
  if s.flag F.PWMn_CFG_DTMODE n 0 then
    s.modPwm n fun g => { g with on := some ⟨b, toff, none, g.dtmin, g.margin, dt⟩ }
  else if dt = 0 then s.pwmTurnOn n b toff
  else
    (s.modPwm n fun g => { g with on := some ⟨b, toff, some (toff + dt), 0, 0, dt⟩ }).schedAt ((toff + dt) / 256)
      (.deadTimeEnd n b)

/-- A turn-on due before `t` takes place first. -/
def State.pwmFlush (s : State) (n : GenId) (t : Nat) : State :=
  match s.pwm[n].on with
  | some p =>
    match p.t with
    | some u => if u < t then s.pwmTurnOn n p.b u else s
    | none =>
      if p.toff + p.dtmax < t then
        let s := if p.toff / 256 < s.now ∧ s.pwmTc n = s.pwmDir n then s else s.pwmNoTrans n
        s.pwmTurnOn n p.b (p.toff + p.dtmax)
      else s
  | none => s

/-- The outputs take up REF at `t`, every turn-on after its dead time (R126, R133). -/
def State.pwmFollow (s : State) (n : GenId) (t : Nat) : State :=
  let g := s.pwm[n]
  let s := s.modPwm n fun g => { g with safe := false, lead := false, on := none, lvl := Vector.replicate 2 false }
  if s.fld F.PWMn_CFG_OUTMODE n 0 = 1 then (s.modPwm n fun h => { h with lvl := g.ref }).pwmDrive n t
  else (s.pwmDrive n t).pwmDead n (!g.ref[0]) t

/-- REF_A (x = 0) or REF_B takes level `v` at `t` (R126, R127). A waiting follower holds its REF at 0 (R117). -/
def State.refEdge (s : State) (n : GenId) (x : Fin 2) (v : Bool) (t : Nat) : State :=
  if s.pwm[n].ref[x] = v ∨ s.flag F.PWMn_STAT_WAIT n 0 then s
  else
    let s := s.pwmFlush n t
    let s := s.modPwm n fun g => { g with ref := vset g.ref x v }
    if s.pwm[n].safe then s
    else if s.fld F.PWMn_CFG_OUTMODE n 0 = 1 then
      (s.modPwm n fun g => { g with lvl := vset g.lvl x v }).pwmDrive n t
    else if x = 0 then
      let y : Fin 2 := if v then 1 else 0
      let s := s.modPwm n fun g => { g with lvl := vset g.lvl y false, on := none }
      (s.pwmDrive n t).pwmDead n (!v) t
    else s

/-! ## Compare actions -/

/-- What the compare of value `v` does in the present segment (R44, R48, R113): the level it gives REF and, in fs from the
period start, its instant; none where the segment ends before it. -/
def PwmSt.action (g : PwmSt) (v : Nat) : Option (Bool × Nat) :=
  let u := g.st * 256
  let c := v / 256
  let f := v % 256
  let a (lvl : Bool) (off fin : Nat) : Option (Bool × Nat) := if off < fin then some (lvl, off) else none
  match g.mode with
  | 1 => a false (c * u + f) (g.per * u)
  | 2 => a true ((g.per - c) * u - f) (g.per * u)
  | 3 => if g.down then a true (max (g.per * u) ((2 * g.per - c) * u - f)) (2 * g.per * u)
         else a false (c * u + f) (g.per * u)
  | 4 => some (false, c * u + f)
  | 5 => some (true, c * u + f)
  | _ => none

/-- Level fixed at segment start (Table 5.1). -/
def PwmSt.fixed (g : PwmSt) : Option Bool :=
  match g.mode with
  | 1 => some true
  | 2 => some false
  | 4 => some true
  | 5 => some false
  | _ => none

/-- Instant in fs of an offset from the period start; one before `began` counts as `began`. -/
def PwmSt.instant (g : PwmSt) (off : Nat) : Nat := g.began * 256 + (off - g.k0 * g.st * 256)

/-- Active compare value, coarse and fine. -/
def State.pwmCmp (s : State) (n : GenId) (x : Fin 2) : Nat :=
  if x = 0 then s.fld F.PWMn_CMPA_ACT_VALUE n 0 else s.fld F.PWMn_CMPB_ACT_VALUE n 0

/-- Puts a compare action that has not fired on the calendar (R46). -/
def State.pwmArm (s : State) (n : GenId) (x : Fin 2) : State :=
  let g := s.pwm[n]
  let c : Instr := .pwmCompareAction n (decide (x = 1))
  if s.pwmRuns n && !g.fired[x] then
    match g.action (s.pwmCmp n x) with
    | some (_, off) => s.schedAt (g.instant off / 256) c
    | none => s.unsched c
  else s.unsched c

/-- Step of the present segment at which trigger compare k fires, if its direction is enabled there (R124). -/
def PwmSt.trgStep (g : PwmSt) (k : Fin 2) : Option Nat :=
  let w := g.trg[k]
  let c := getBits w 15 0
  let (step, falling, fin) : Nat × Bool × Option Nat :=
    if g.mode = 2 then (g.per - 1 - c, true, some g.per)
    else if g.mode = 3 ∧ g.down = true then (2 * g.per - c, true, some (2 * g.per))
    else if g.variable then (c, false, none)
    else (c, false, some g.per)
  let reached := match fin with
    | some e => decide (step < e)
    | none => true
  if w.getLsbD (if falling then 17 else 16) && reached then some step else none

/-- Puts a trigger compare that has not fired on the calendar (R124). -/
def State.pwmArmTrg (s : State) (n : GenId) (k : Fin 2) : State :=
  let g := s.pwm[n]
  let c : Instr := .pwmTriggerCompare n k
  if s.pwmRuns n && !g.firedT[k] then
    match g.trgStep k with
    | some j => s.schedAt (g.stepLc j) c
    | none => s.unsched c
  else s.unsched c

/-- All four compares of a generator. -/
def State.pwmArmAll (s : State) (n : GenId) : State := (((s.pwmArm n 0).pwmArm n 1).pwmArmTrg n 0).pwmArmTrg n 1

/-- Fires the compare of REF_A or REF_B at `t` (R45, R47). -/
def State.pwmFire (s : State) (n : GenId) (x : Fin 2) (lvl : Bool) (t : Nat) : State :=
  (s.modPwm n fun g => { g with fired := vset g.fired x true }).refEdge n x lvl t

/-- A segment begins in this lc: its first actions are taken once the strobes of the lc have loaded (Table 2.5). -/
def State.pwmSegment (s : State) (n : GenId) (fixed : Bool) : State :=
  let s := s.modPwm n fun g =>
    { g with
      fired := Vector.replicate 2 false
      firedT := Vector.replicate 2 false
      first := some (fixed || g.first = some true) }
  s.pwmArmAll n

/-- PWM_COMPARE_ACTION: the compare fires, at its instant if that lies in this lc, else at the start of the lc (R46). -/
def execPwmCompareAction (n : GenId) (b : Bool) (s : State) : Out :=
  let x : Fin 2 := if b then 1 else 0
  let g := s.pwm[n]
  if s.pwmRuns n && !g.fired[x] then
    match g.action (s.pwmCmp n x) with
    | some (lvl, off) =>
      let t := g.instant off
      .next ((s.unsched (.pwmCompareAction n b)).pwmFire n x lvl (if t / 256 = s.now then t else s.now * 256))
    | none => .next s
  else .next s

/-- PWM_TRIGGER_COMPARE (R124). -/
def execPwmTriggerCompare (n : GenId) (k : Fin 2) (s : State) : Out :=
  let g := s.pwm[n]
  if s.pwmRuns n && !g.firedT[k] && (g.trgStep k).isSome then
    let s := (s.unsched (.pwmTriggerCompare n k)).modPwm n fun g => { g with firedT := vset g.firedT k true }
    .next (s.raiseEv (pwmSrc n + 2 + k.val))
  else .next s

/-! ## Shadows and strobes -/

/-- Copies the shadows of a generator, as they stood at the start of the lc, into its active values (R120, R121, Table 2.5): at a load
point too, and whether a bus or a port wrote them in the lc (DESIGN CHOICE, log entry 136). A turn-on whose turn-off lies in this lc
takes the new dead time (R123). -/
def State.pwmTake (s : State) (n : GenId) : State :=
  let d (r : RegName) : Nat := getBits (s.oldReg r n 0) 19 0
  let trg : Vector Word 2 := Vector.ofFn fun k => if k = 0 then s.oldReg .PWMn_TRG0 n 0 else s.oldReg .PWMn_TRG1 n 0
  let a := s
  let s := s.setReg .PWMn_PER_ACT n 0 (a.oldReg .PWMn_PER n 0)
  let s := s.setReg .PWMn_CMPA_ACT n 0 (a.oldReg .PWMn_CMPA n 0)
  let s := s.setReg .PWMn_CMPB_ACT n 0 (a.oldReg .PWMn_CMPB n 0)
  let s := s.modPwm n fun g =>
    { g with
      actPmin := a.oldFld F.PWMn_PMIN_PMIN n 0
      trg := trg
      dta := d .PWMn_DTA
      dtb := d .PWMn_DTB
      dtmin := d .PWMn_DTMIN
      margin := d .PWMn_MARGIN }
  match s.pwm[n].on with
  | some p => if p.toff / 256 = s.now then s.pwmDead n p.b p.toff else s
  | none => s

/-- Active PER; 0, before any load-all, counts as 0xFFFF (DEDUCED, log entry 32). -/
def State.perAct (s : State) (n : GenId) : Nat :=
  let p := s.fld F.PWMn_PER_ACT_VALUE n 0
  if p = 0 then 65535 else p

/-- Step that PHASE designates, clamped into the counting range (R115). -/
def State.phaseStep (s : State) (n : GenId) : Nat :=
  let per := s.perAct n
  let c := s.fld F.PWMn_PHASE_COUNT n 0
  match s.fld F.PWMn_CFG_MODE n 0 with
  | 2 => per - 1 - min c (per - 1)
  | 3 => if s.flag F.PWMn_PHASE_DOWN n 0 then 2 * per - min (max c 1) per else min c (per - 1)
  | _ => min c (per - 1)

/-- The generator's own timed commands. -/
def pwmTimed (n : GenId) (c : Instr) : Bool :=
  match c with
  | .pwmPeriodStart m => decide (m = n)
  | .pwmPeriodMiddle m => decide (m = n)
  | .pwmCompareAction m _ => decide (m = n)
  | .pwmTriggerCompare m _ => decide (m = n)
  | .phaseEvent m => decide (m = n)
  | _ => false

/-- The counter stops (MODE 0 at a period start, or a mode that stops the counters); the pins take the safe pattern with the first
actions of the lc. -/
def State.pwmHalt (s : State) (n : GenId) (held : Nat × Bool) : State :=
  let s := s.modPwm n fun g =>
    { g with held := held, ended := none, endSeen := none, pstart := false, first := some true, follow := false }
  let s := (s.setFld F.PWMn_STAT_RUN n 0 0).setFld F.PWMn_STAT_WAIT n 0 0
  s.unschedAll (pwmTimed n)

/-- Step of the period middle in the up, down and up-down modes (R119). -/
def PwmSt.midStep (g : PwmSt) : Nat := if g.mode = 3 then g.per else if g.mode = 2 then g.per - 1 - g.per / 2 else g.per / 2

/-- The period middle falls in lc `t`. -/
def PwmSt.midAt (g : PwmSt) (t : Nat) : Bool := !g.variable && decide (g.k0 ≤ g.midStep) && decide (g.stepLc g.midStep = t)

/-- Marks of an lc that are no register's: END was 1, a PSTART came, MODE 0 has halted the counter of generator n. -/
def endMark (n : GenId) : Nat := 16 + n.val
/-- See `endMark`. -/
def pstartMark (n : GenId) : Nat := 32 + n.val
/-- See `endMark`. -/
def haltMark (n : GenId) : Nat := 48 + n.val

/-- A period begins in this lc, from count 0 or from PHASE (R113, R115, R118, R119, R123); a PSTART of this lc is its own (R117).
PHFRAC is taken here: a later write moves the event of the next period (DESIGN CHOICE, log entry 137). -/
def State.pwmBegin (s : State) (n : GenId) (phased : Bool) : State :=
  let mode := s.fld F.PWMn_CFG_MODE n 0
  if mode = 0 then (s.pwmHalt n (0, false)).mark (haltMark n) true
  else
    let waited := s.flag F.PWMn_STAT_WAIT n 0
    let per := s.perAct n
    let k0 := if phased then s.phaseStep n else 0
    let s := s.modPwm n fun g =>
      { g with
        began := s.now
        k0 := k0
        phased := phased
        jumped := false
        mode := mode
        pre := s.fld F.PWMn_CFG_PRE n 0
        per := per
        pmin := g.actPmin
        down := decide (mode = 3 ∧ per ≤ k0)
        follow := g.follow || waited
        endSeen := none
        pstart := s.marked (pstartMark n) true
        ended := none }
    let s := (s.setFld F.PWMn_STAT_RUN n 0 1).setFld F.PWMn_STAT_WAIT n 0 0
    let s := s.unschedAll (pwmTimed n)
    let s := s.pwmSegment n true
    let g := s.pwm[n]
    if g.variable then
      s.schedAt (g.stepLc (s.fld F.PWMn_LASTPER_LASTPER n 0 * s.fld F.PWMn_PHFRAC_FRAC n 0 / 65536)) (.phaseEvent n)
    else
      let s := s.schedAt (g.stepLc g.len) (.pwmPeriodStart n)
      if g.midStep < k0 then s else s.schedAt (g.stepLc g.midStep) (.pwmPeriodMiddle n)

/-- New active values take effect (R121): in the lc in which a segment begins they govern it (Table 2.5). -/
def State.pwmEffect (s : State) (n : GenId) : State :=
  if s.pwmRuns n then
    let g := s.pwm[n]
    if g.begins s.now then s.pwmBegin n g.phased
    else if g.down && g.midAt s.now then s.pwmSegment n false
    else s.pwmArmAll n
  else s

/-- Load-all takes place for a generator. -/
def State.pwmCopy (s : State) (n : GenId) : State := (s.pwmTake n).pwmEffect n

/-- In fault-hold the generators keep their active values (R399). -/
def State.pwmRefuses (s : State) : Bool := s.flag F.TW_STAT_FHOLD 0 0

/-- LDPT of a group. -/
def State.ldpt (s : State) (k : Nat) : Nat := s.fld F.PWM_GRPk_CFG_LDPT k 0
/-- The group's strobe is pending (not under the member load point). -/
def State.grpPend (s : State) (k : Nat) : Bool := (s.reg .PWM_PEND 0 0).getLsbD k
/-- Sets or clears the group's pending bit. -/
def State.setGrpPend (s : State) (k : Nat) (b : Bool) : State :=
  s.setReg .PWM_PEND 0 0 (setBits (s.reg .PWM_PEND 0 0) k k (if b then 1 else 0))

/-- The pending strobe of a group loads now. -/
def State.grpLoad (s : State) (k : Nat) : State :=
  ((s.grpMembers k).foldl State.pwmCopy s).setGrpPend k false

/-- The group's load point is the period start that the lead's MODE governs (R121, R125). -/
def State.loadsAtStart (s : State) (k : Nat) (lead : GenId) : Bool :=
  decide (s.ldpt k = 0) ||
    (decide (s.ldpt k = 1) && decide (s.fld F.PWMn_CFG_MODE lead 0 = 4 ∨ s.fld F.PWMn_CFG_MODE lead 0 = 5))

/-- A strobe for group k (R121, R122). One that arrives in the lc of the load point copies in that lc (Table 5.3). -/
def State.grpStrobe (s : State) (k : Nat) : State :=
  match s.grpLead k with
  | none => s
  | some lead =>
    let ms := s.grpMembers k
    if s.ldpt k = 2 then ms.foldl State.pwmCopy s
    else if s.ldpt k = 3 then
      let s := if ms.any fun m => s.pwm[m].pend then s.bump F.PWM_ERR_CNT_MERGE 0 0 else s
      ms.foldl (fun s m =>
        if s.pwmRuns m && s.pwm[m].begins s.now then (s.modPwm m fun g => { g with pend := false }).pwmCopy m
        else s.modPwm m fun g => { g with pend := true }) s
    else
      let s := if s.grpPend k then s.bump F.PWM_ERR_CNT_MERGE 0 0 else s
      let s := s.setGrpPend k true
      let g := s.pwm[lead]
      let atMid := decide (s.ldpt k = 1) && !g.variable
      let hit := if atMid then g.midAt s.now && (g.down || decide (g.mode ≠ 3)) else g.begins s.now
      if s.pwmRuns lead && hit then s.grpLoad k else s

/-- A load-all strobe with a group mask (R121): it joins the strobe of this lc (Table 2.5). In fault-hold it is refused (R399). -/
def State.loadAll (s : State) (mask : Nat) : State :=
  if s.pwmRefuses || !s.mode.live then s else { s with strobe := s.strobe ||| BitVec.ofNat 16 mask }

/-- The strobe of this lc takes place, once for each group (R121, Table 2.5). -/
def State.strobeAll (s : State) : State :=
  let m := s.strobe
  (List.range 16).foldl (fun s k =>
    let a := RegName.PWM_GRPk_CFG.addr k 0
    if m.getLsbD k && !s.marked a true then (s.mark a true).grpStrobe k else s) { s with strobe := 0 }

/-- Bits of a mask whose resource the writer does not own are ignored, and counted once (R358, DEDUCED, log entry 31). -/
def State.ownedBits (s : State) (r : Req) (own : Nat → Tenant) (v : Word) : Nat × State :=
  let bits := (List.range 16).filter fun k => v.getLsbD k
  let mine := bits.filter fun k => r.owns (own k)
  (mine.foldl (fun n k => n + 2 ^ k) 0, if mine.length < bits.length then s.foreign else s)

/-- A write to PWM_LOADALL. -/
def State.loadAllWrite (s : State) (r : Req) (v : Word) : State :=
  let m := s.ownedBits r s.grpOwner v
  m.2.loadAll m.1

/-- PWM_LOADALL. -/
def execPwmLoadall (r : Req) (v : Word) (s : State) : Out :=
  regCmd r .write .PWM_LOADALL 0 0 (fun s => s.loadAllWrite r v) s

/-- LOADALL_STROBE: a word on Gx_LOADALLk, mask in [15:0]. -/
def execLoadallStrobe (_k : Fin 8) (w : Word) (s : State) : Out := .next (s.loadAll (getBits w 15 0))

/-! ## Periods -/

/-- The generator's trips and its group's safe pattern at a period start (R132, R133, R138). -/
def State.pwmRelease (s : State) (n : GenId) : State :=
  let lat := s.fld F.PWMn_CFG_TRIPLAT n 0
  let keep := (List.range 4).foldl (fun m k =>
    let t := s.fld F.PWMn_STAT_TRIPPED n 0 / 2 ^ k % 2
    if t = 1 ∧ (lat / 2 ^ k % 2 = 1 ∨ s.destLv (pwmDst n + k) = true) then m + 2 ^ k else m) 0
  let s := s.setFld F.PWMn_STAT_TRIPPED n 0 keep
  let k := s.grpOf n
  let s := if s.grpLead k = some n then
      (s.grpMembers k).foldl (fun s m =>
        if s.pwm[m].lead && !s.pwmForced m then
          let s := s.modPwm m fun g => { g with lead := false }
          if decide (m ≠ n) && s.pwm[m].safe && !s.pwmNeedsSafe m then s.pwmFollow m (s.now * 256) else s
        else s) s
    else s
  let leadRuns := match s.grpLead k with
    | some l => s.pwmRuns l
    | none => false
  if s.pwm[n].safe && !s.pwmNeedsSafe n && (!s.pwm[n].lead || !leadRuns) then s.pwmFollow n (s.now * 256)
  else s.pwmDrive n (s.now * 256)

/-- The first actions of a segment that has begun in this lc (R46, R48, R114): a compare whose instant is its start or before fires
and prevails over the level fixed at its start. REF keeps the level it had where neither acts: in up-down mode until the first
action (DESIGN CHOICE, log entry 111). -/
def State.pwmActs (s : State) (n : GenId) (fixed : Bool) : State :=
  let s := ([0, 1] : List (Fin 2)).foldl (fun s x =>
    let g := s.pwm[n]
    match (g.action (s.pwmCmp n x)).filter fun a => decide (g.instant a.2 ≤ s.now * 256), if fixed then g.fixed else none with
    | some a, _ => s.pwmFire n x a.1 (s.now * 256)
    | none, some v => s.refEdge n x v (s.now * 256)
    | none, none => s) s
  s.pwmArmAll n

/-- A segment that has begun in this lc takes its first actions; with a period, trips release and the pins take up REF (R132, R133). -/
def State.pwmFirst (s : State) (n : GenId) : State :=
  match s.pwm[n].first with
  | none => s
  | some fixed =>
    let follow := s.pwm[n].follow
    let s := s.modPwm n fun g => { g with first := none, follow := false }
    if !s.pwmRuns n then s.pwmSafe n false
    else
    let s := s.pwmActs n fixed
    if fixed then
      (if follow && !s.pwm[n].safe then s.pwmFollow n (s.now * 256) else s).pwmRelease n
    else s

/-- A segment waits for its first actions. -/
def State.firstDue (s : State) : Bool := (List.finRange 16).any fun (n : GenId) => s.pwm[n].first.isSome

/-- The first actions of every segment that has begun in this lc. -/
def State.pwmFirstAll (s : State) : State := (List.finRange 16).foldl (fun s n => s.pwmFirst n) s

/-- Period start of generator n (R119, R121): pending copies, the new period, Gn_PRD. -/
def State.pwmPeriod (s : State) (n : GenId) (phased : Bool) : State :=
  let k := s.grpOf n
  let s := if s.pwmRefuses then s
    else
      let s := if s.grpLead k = some n && s.grpPend k && s.loadsAtStart k n then
          ((s.grpMembers k).foldl (fun s m => if m = n then s.pwmTake n else s.pwmCopy m) s).setGrpPend k false
        else s
      if s.ldpt k = 3 && s.pwm[n].pend then (s.modPwm n fun g => { g with pend := false }).pwmTake n else s
  let again := s.pwmRuns n && s.pwm[n].begins s.now && !s.pwm[n].phased
  let s := s.pwmBegin n phased
  if s.pwmRuns n && !(again && phased) then s.raiseEv (pwmSrc n) else s

/-- Records the length of the period just ended, in steps (R116). -/
def State.pwmLast (s : State) (n : GenId) : State :=
  let g := s.pwm[n]
  s.setFld F.PWMn_LASTPER_LASTPER n 0 (min 65535 (match g.ended with
    | some k => max (k + 1) (g.stepAt s.now)
    | none => g.stepAt s.now))

/-- PWM_PERIOD_START. -/
def execPwmPeriodStart (n : GenId) (s : State) : Out :=
  if s.pwmRuns n then
    let s := if s.pwm[n].began < s.now then s.pwmLast n else s
    .next (s.pwmPeriod n false)
  else .next s

/-- PWM_PERIOD_MIDDLE (R119, R121): Gn_MID, copies of a middle-load group; in up-down mode the down half begins. -/
def execPwmPeriodMiddle (n : GenId) (s : State) : Out :=
  let g := s.pwm[n]
  if s.pwmRuns n && !g.variable && !g.down then
    let s := s.unsched (.pwmPeriodMiddle n)
    let s := s.raiseEv (pwmSrc n + 1)
    let k := s.grpOf n
    let loads := s.grpLead k = some n && s.grpPend k && decide (s.ldpt k = 1) && !s.pwmRefuses
    let s := if g.mode = 3 then (s.modPwm n fun g => { g with down := true }).pwmSegment n false else s
    .next (if loads then s.grpLoad k else s)
  else .next s

/-- Starts generator n from PHASE (R115). -/
def State.pwmStartGen (s : State) (n : GenId) : State :=
  if s.mode.live && !s.pwmRuns n && s.flag F.PWMn_CFG_MODE n 0 then s.pwmPeriod n true else s

/-- A write to PWM_START: bits of generators of other owners are ignored (R358). -/
def State.pwmStartWrite (s : State) (r : Req) (v : Word) : State :=
  let m := s.ownedBits r (fun k => s.grpOwner (s.grpOf (Fin.ofNat 16 k))) v
  (List.finRange 16).foldl (fun s (n : GenId) => if m.1 / 2 ^ n.val % 2 = 1 then s.pwmStartGen n else s) m.2

/-- PWM_START. -/
def execPwmStart (r : Req) (v : Word) (s : State) : Out :=
  regCmd r .write .PWM_START 0 0 (fun s => s.pwmStartWrite r v) s

/-- PWM_SYNC (R115): PHASE is loaded and a period begins; with a period end of the same lc, one Gn_PRD (Table 5.3). With MODE 0 it
does nothing, also while the counter still runs to the period start at which MODE 0 stops it (DESIGN CHOICE, log entry 112). -/
def execPwmSync (n : GenId) (s : State) : Out :=
  if s.mode.live && s.flag F.PWMn_CFG_MODE n 0 then
    let s := if s.pwmRuns n && decide (s.pwm[n].began < s.now) then s.pwmLast n else s
    .next (s.pwmPeriod n true)
  else .next s

/-! ## Variable periods -/

/-- Arming count (R116). -/
def State.armCount (s : State) (n : GenId) : Nat := max s.pwm[n].pmin (s.fld F.PWMn_CMPA_ACT_VALUE n 0 / 256 + 1)

/-- The period ends with step k; the next begins in the step after (R116). A period begun from PHASE counts from count 0 (DESIGN
CHOICE, log entry 100). -/
def State.pwmEnd (s : State) (n : GenId) (k : Nat) : State :=
  let s := (s.modPwm n fun g => { g with ended := some k }).setFld F.PWMn_LASTPER_LASTPER n 0 (min 65535 (k + 1))
  s.schedAt (s.pwm[n].stepLc (k + 1)) (.pwmPeriodStart n)

/-- A variable period is in progress and has not ended. -/
def State.pwmOpen (s : State) (n : GenId) : Bool := s.pwmRuns n && s.pwm[n].variable && s.pwm[n].ended.isNone

/-- A follower waits for PSTART (R117): REF 0, both outputs off, no dead time. -/
def State.pwmWait (s : State) (n : GenId) : State :=
  let s := s.setFld F.PWMn_STAT_WAIT n 0 1
  (s.modPwm n fun g =>
    { g with ref := Vector.replicate 2 false, lvl := Vector.replicate 2 false, on := none }).pwmDrive n (s.now * 256)

/-- PERIOD_END: END is 1 at or after the arming count (R116, R117): the period ends; a follower's ends if PSTART is latched, else the
step is recorded. -/
def execPeriodEnd (n : GenId) (s : State) : Out :=
  let g := s.pwm[n]
  let k := g.stepAt s.now
  if s.pwmOpen n && decide (s.armCount n ≤ k) && decide (s.armCount n ≤ g.per - 1) then
    let s := s.modPwm n fun g => { g with endSeen := some (g.endSeen.getD k) }
    if s.flag F.PWMn_CFG_FOLLOW n 0 && !g.pstart then .next s else .next (s.pwmEnd n k)
  else .next s

/-- PERIOD_MAX: count PER − 1 without END (R116, R117). -/
def execPeriodMax (n : GenId) (s : State) : Out :=
  if s.pwmOpen n then
    let s := (s.raiseEv (pwmSrc n + 7)).bump F.PWMn_ERR_CNT_PMAX n 0
    .next (s.pwmEnd n (s.pwm[n].per - 1))
  else .next s

/-- PSTART: latched by a follower; the period ends once END has been seen, but at count PER − 1 by Gn_PMAX unless END became 1 in
that step (R117, Table 5.3). -/
def execPstart (n : GenId) (s : State) : Out :=
  if s.pwmOpen n && s.flag F.PWMn_CFG_FOLLOW n 0 then
    let s := (s.modPwm n fun g => { g with pstart := true }).mark (pstartMark n) true
    let g := s.pwm[n]
    let k := g.stepAt s.now
    .next (match g.endSeen with
      | some j => if k < g.per - 1 ∨ g.per - 1 ≤ j then s.pwmEnd n k else s
      | none => s)
  else .next s

/-- PHASE_EVENT (R118). -/
def execPhaseEvent (n : GenId) (s : State) : Out :=
  .next (if s.pwmRuns n && s.pwm[n].variable then (s.unsched (.phaseEvent n)).raiseEv (pwmSrc n + 4) else s)

/-- END is or was 1 in this lc, at or after the arming count, and has not been taken. Judged once the strobes of the lc have loaded: a
new CMPA governs from its lc (R116, R121). -/
def State.endNow (s : State) (n : GenId) : Bool :=
  s.pwmOpen n && s.pwm[n].endSeen.isNone && (s.destLv (pwmDst n + 5) || s.marked (endMark n) true) &&
    decide (s.armCount n ≤ s.pwm[n].stepAt s.now) && decide (s.armCount n ≤ s.pwm[n].per - 1)

/-- The step of count PER − 1 is over with this lc and the period has not ended (R116: an END of any lc of the step ends it). -/
def State.maxNow (s : State) (n : GenId) : Bool := s.pwmOpen n && decide (s.pwm[n].per ≤ s.pwm[n].stepAt (s.now + 1))

/-- A follower has seen END and no PSTART by the end of this step: it waits (R117, Table 5.3; the wait begins with the last lc of the
step, which no PSTART can follow; DEDUCED, log entry 113). -/
def State.waitNow (s : State) (n : GenId) : Bool :=
  let g := s.pwm[n]
  s.pwmOpen n && s.flag F.PWMn_CFG_FOLLOW n 0 && g.endSeen.isSome && !g.pstart && !s.flag F.PWMn_STAT_WAIT n 0 &&
    decide (g.stepAt s.now < g.stepAt (s.now + 1)) && decide (g.stepAt s.now < g.per - 1)

/-! ## Dead time -/

/-- Turn-on at its instant if that lies in this lc, else at the start of this lc. -/
def State.pwmOnAt (s : State) (t : Nat) : Nat := if t / 256 = s.now then t else s.now * 256

/-- The turn-on that waits takes place; the REF edges of this lc have come first (R127). -/
def State.pwmOnDue (s : State) (n : GenId) (b : Bool) (c : Instr) : State :=
  match s.pwm[n].on with
  | some p =>
    match p.t with
    | some t => if p.b != b then s else (s.unsched c).pwmTurnOn n b (s.pwmOnAt t)
    | none => s
  | none => s

/-- DEAD_TIME_END (R127). -/
def execDeadTimeEnd (n : GenId) (b : Bool) (s : State) : Out := .next (s.pwmOnDue n b (.deadTimeEnd n b))

/-- ADAPTIVE_TURN_ON (R128). -/
def execAdaptiveTurnOn (n : GenId) (b : Bool) (s : State) : Out := .next (s.pwmOnDue n b (.adaptiveTurnOn n b))

/-- TRANSITION_COMPLETE (R128): this lc, after the lc of the turn-off, is L; in the lc in which DTMAX expires the turn-on stays at its
end (R129). -/
def execTransitionComplete (n : GenId) (s : State) : Out :=
  match s.pwm[n].on with
  | some p =>
    if p.t.isNone && decide (p.toff / 256 < s.now) then
      let t := if (p.toff + p.dtmax) / 256 = s.now then p.toff + p.dtmax
        else max (p.toff + p.dtmin) (min (s.now * 256 + p.margin) (p.toff + p.dtmax))
      let s := s.modPwm n fun g => { g with on := some { p with t := some t } }
      .next (s.schedAt (t / 256) (.adaptiveTurnOn n p.b))
    else .next s
  | none => .next s

/-- DTMAX_EXPIRY (R129): the output turns on; with no complete transition Gn_NOTRANS is raised. -/
def execDtmaxExpiry (n : GenId) (s : State) : Out :=
  match s.pwm[n].on with
  | some p =>
    if p.t.isNone then
      let complete := decide (p.toff / 256 < s.now) && decide (s.pwmTc n = s.pwmDir n)
      let s := if complete then s else s.pwmNoTrans n
      .next (s.pwmTurnOn n p.b (s.pwmOnAt (p.toff + p.dtmax)))
    else .next s
  | none => .next s

/-- The transition is complete in this lc (each lc). -/
def State.tcNow (s : State) (n : GenId) : Bool :=
  match s.pwm[n].on with
  | some p => s.mode.live && p.t.isNone && decide (p.toff / 256 < s.now) && decide (s.pwmTc n = s.pwmDir n) &&
      decide (s.now * 256 ≤ p.toff + p.dtmax)
  | none => false

/-- DTMAX expires in this lc. -/
def State.dtmaxNow (s : State) (n : GenId) : Bool :=
  match s.pwm[n].on with
  | some p => s.mode.live && p.t.isNone && decide ((p.toff + p.dtmax) / 256 ≤ s.now)
  | none => false

/-- What falls in an lc before its deliveries: a transition complete. -/
def State.pwmTick (s : State) (n : GenId) : State := if s.tcNow n then s.emit (.transitionComplete n) else s

/-- Some period ends by END in this lc. -/
def State.endDue (s : State) : Bool := (List.finRange 16).any s.endNow

/-- The periods that END ends in this lc. -/
def State.pwmEnds (s : State) : State :=
  (List.finRange 16).foldl (fun s n => if s.endNow n then s.emit (.periodEnd n) else s) s

/-- Some follower begins to wait in this lc. -/
def State.waitDue (s : State) : Bool := (List.finRange 16).any s.waitNow

/-- The followers that wait from this lc on, before the turn-ons that would fall in it (R117). -/
def State.pwmWaits (s : State) : State := (List.finRange 16).foldl (fun s n => if s.waitNow n then s.pwmWait n else s) s

/-- What falls in an lc after its deliveries (Table 5.3, R129). -/
def State.pwmLate (s : State) (n : GenId) : State :=
  let s := if s.maxNow n then s.emit (.periodMax n) else s
  if s.dtmaxNow n then s.emit (.dtmaxExpiry n) else s

/-! ## Trips -/

/-- PWM_TRIP: trip input k rises (R132). -/
def execPwmTrip (n : GenId) (k : Fin 4) (s : State) : Out :=
  if s.mode.live then
    let s : State := { s with mx := { s.mx with dlv := s.mx.dlv.put (pwmDst n + k.val) true false } }
    if s.fld F.PWMn_CFG_TRIPEN n 0 / 2 ^ k.val % 2 = 1 then
      .next ((s.raiseFld ⟨.PWMn_STAT, 4 + k.val, 4 + k.val⟩ n 0 1).pwmSafe n false)
    else .next s
  else .next s

/-- A trip input falls, or a latched trip is cleared: in the lc of a period start the pins follow the REF of that period (Table 5.3),
whose first actions release them if they are still to come. -/
def State.tripOver (s : State) (n : GenId) : State :=
  if s.pwm[n].first = some true then s
  else if s.pwmRuns n && s.pwm[n].begins s.now then s.pwmRelease n else s.pwmDrive n (s.now * 256)

/-- A W1C of TRIPPED (R132): releases latched trips whose input is 0; one that trips in this lc stays (R9). -/
def State.tripClear (s : State) (n : GenId) (v : Word) : State :=
  let lat := s.fld F.PWMn_CFG_TRIPLAT n 0
  let m := (List.range 4).foldl (fun m k =>
    if v.getLsbD (4 + k) && decide (lat / 2 ^ k % 2 = 1) && !s.destLv (pwmDst n + k) && !(s.came .PWMn_STAT n 0).getLsbD (4 + k) then
      m + 2 ^ (4 + k) else m) 0
  (s.setReg .PWMn_STAT n 0 (s.reg .PWMn_STAT n 0 &&& ~~~BitVec.ofNat 32 m)).tripOver n

/-- A write to a register of generator n by its group's owner, else refused (R358). -/
def State.pwmOwned (s : State) (r : Req) (n : GenId) (f : State → State) : State :=
  if r.owns (s.grpOwner (s.grpOf n)) then f s else s.foreign

/-- TRIPPED_CLEAR. -/
def execTrippedClear (r : Req) (n : GenId) (v : Word) (s : State) : Out :=
  regCmd r .write .PWMn_STAT n 0 (fun s => s.pwmOwned r n fun s => s.tripClear n v) s

/-! ## Register writes -/

/-- COMPARE_PORT_WRITE (R137): the shadow takes the port's word; a bus write of this lc counts as discarded. -/
def execComparePortWrite (n : GenId) (b : Bool) (w : Word) (s : State) : Out :=
  if s.mode.live then
    let rn : RegName := if b then .PWMn_CMPB else .PWMn_CMPA
    let a := rn.addr n 0
    let s := if s.marked a false && !s.marked a true then s.bump F.PWMn_ERR_CNT_WRCONF n 0 else s
    .next ((s.setReg rn n 0 (w &&& 0xFFFFFF)).mark a true)
  else .next s

/-- A bus write of a shadow register (R120, R137). -/
def State.shadowWrite (s : State) (rn : RegName) (n : GenId) (v : Word) : State :=
  if s.marked (rn.addr n 0) true then s.bump F.PWMn_ERR_CNT_WRCONF n 0
  else
    let s := (s.writeReg rn n 0 v).mark (rn.addr n 0) false
    if rn = .PWMn_PER ∧ s.fld F.PWMn_PER_PER n 0 < 2 then s.setFld F.PWMn_PER_PER n 0 2 else s

/-- MODE has been written in the lc of a period start, and governs the period that begins (Table 5.3): it can start a counter that MODE
0 halted there, and can make the period start the load point of a strobe that waits for the middle (R125). -/
def State.pwmCfgGoverns (s : State) (n : GenId) : State :=
  let k := s.grpOf n
  if s.marked (haltMark n) true && !s.pwmRuns n then
    if s.flag F.PWMn_CFG_MODE n 0 then (s.pwmBegin n false).raiseEv (pwmSrc n) else s
  else if s.pwmRuns n && s.pwm[n].begins s.now then
    let s := s.pwmBegin n s.pwm[n].phased
    if s.grpLead k = some n && s.grpPend k && s.loadsAtStart k n && !s.pwmRefuses then s.grpLoad k else s
  else s

/-- A write to PWMn_CFG (R113, R115, R126): codes out of range leave their field; DTMODE only in Loading (R241); in the lc of
a period start MODE and PRE govern the period that begins (Table 5.3). -/
def State.pwmCfgWrite (s : State) (n : GenId) (v : Word) : State :=
  let old := s.reg .PWMn_CFG n 0
  let s := s.writeReg .PWMn_CFG n 0 v
  let s := if 5 < getBits v 2 0 then s.setFld F.PWMn_CFG_MODE n 0 (getBits old 2 0) else s
  let s := if getBits v 5 3 = 7 then s.setFld F.PWMn_CFG_PRE n 0 (getBits old 5 3) else s
  let s := if 1 < getBits v 25 24 then s.setFld F.PWMn_CFG_OUTMODE n 0 (getBits old 25 24) else s
  let s := if s.mode = .loading then s else s.setFld F.PWMn_CFG_DTMODE n 0 (getBits old 23 23)
  s.pwmCfgGoverns n

/-- A write to PWMn_SAFE: 0b11 leaves a field (R131). -/
def State.pwmSafeWrite (s : State) (n : GenId) (v : Word) : State :=
  let old := s.reg .PWMn_SAFE n 0
  let s := s.writeReg .PWMn_SAFE n 0 v
  let s := if getBits v 1 0 = 3 then s.setFld F.PWMn_SAFE_A n 0 (getBits old 1 0) else s
  if getBits v 3 2 = 3 then s.setFld F.PWMn_SAFE_B n 0 (getBits old 3 2) else s

/-- What a read of PWMn_STAT shows. -/
def State.pwmStat (s : State) (n : GenId) : Word :=
  let b (x : Bool) (k : Nat) : Nat := if x then 2 ^ k else 0
  let tin := (List.range 4).foldl (fun m k => m + b (s.destLv (pwmDst n + k)) (8 + k)) 0
  let g := s.pwm[n]
  BitVec.ofNat 32 (tin + s.fld F.PWMn_STAT_TRIPPED n 0 * 16 + b g.safe 3 + b (s.flag F.PWMn_STAT_WAIT n 0) 2 +
    b (g.pend || s.grpPend (s.grpOf n)) 1 + b (s.flag F.PWMn_STAT_RUN n 0) 0)

/-- What a read of PWMn_CNT shows. -/
def State.pwmCnt (s : State) (n : GenId) : Word :=
  let c := s.pwmCount n
  BitVec.ofNat 32 (c.1 + if c.2 then 65536 else 0)

/-- What a read of PWM_PEND shows. -/
def State.pwmPendView (s : State) : Word :=
  BitVec.ofNat 32 ((List.range 16).foldl (fun m k =>
    if s.grpPend k || (s.grpMembers k).any fun n => s.pwm[n].pend then m + 2 ^ k else m) 0)

/-! ## Delay lines -/

/-- A command of generator n that satisfies `p` is due in this lc or the next. -/
def State.pwmNear (s : State) (p : Instr → Bool) : Bool := s.cal.any fun e => decide (e.1 ≤ s.now + 1) && p e.2

/-- What REF_A (x = 0) or REF_B does in the lc of the period start that is near, with the values that will govern it: the level it takes
there, and that of a compare later in the lc with its offset in fs (R113, R114). -/
def State.startEdges (s : State) (n : GenId) (x : Fin 2) : List (Bool × Nat) :=
  let k := s.grpOf n
  let loads := s.pwm[n].pend || (match s.grpLead k with
    | some l => s.grpPend k && s.loadsAtStart k l && s.pwmNear fun c => decide (c = .pwmPeriodStart l)
    | none => false)
  let pick (sh ac : Nat) : Nat := if loads then sh else ac
  let v := if x = 0 then pick (s.reg .PWMn_CMPA n 0).toNat (s.fld F.PWMn_CMPA_ACT_VALUE n 0)
    else pick (s.reg .PWMn_CMPB n 0).toNat (s.fld F.PWMn_CMPB_ACT_VALUE n 0)
  let g := { s.pwm[n] with
    mode := s.fld F.PWMn_CFG_MODE n 0
    pre := s.fld F.PWMn_CFG_PRE n 0
    per := pick (s.fld F.PWMn_PER_PER n 0) (s.perAct n)
    down := false }
  match g.action v with
  | some (l, off) => if off = 0 then [(l, 0)] else (g.fixed.map fun f => (f, 0)).toList ++ if off < 256 then [(l, off)] else []
  | none => (g.fixed.map fun f => (f, 0)).toList

/-- Levels that REF_A (x = 0) or REF_B takes by edges scheduled in this lc or the next, with their instants: its compare's, those of a
period start, that of the down half. An edge to the level that it has is none. -/
def State.refNear (s : State) (n : GenId) (x : Fin 2) : List (Bool × Nat) :=
  let g := s.pwm[n]
  let at_ (p : Instr → Bool) : Option Nat := (s.cal.find? fun e => decide (e.1 ≤ s.now + 1) && p e.2).map (·.1)
  let a := if s.pwmNear fun c => decide (c = .pwmCompareAction n (decide (x = 1))) then
    ((g.action (s.pwmCmp n x)).map fun a => (a.1, g.instant a.2)).toList else []
  let m := match at_ fun c => decide (c = .pwmPeriodMiddle n) with
    | some t => (({ g with down := true } : PwmSt).action (s.pwmCmp n x)).toList.filterMap fun a =>
        if g.mode = 3 ∧ g.instant a.2 < (t + 1) * 256 then some (a.1, max (t * 256) (g.instant a.2)) else none
    | none => []
  let p := match at_ fun c => decide (c = .pwmPeriodStart n) with
    | some t => (s.startEdges n x).map fun e => (e.1, t * 256 + e.2)
    | none => []
  (a ++ m ++ p).foldl (fun es e => if e.1 = (es.getLast?.map (·.1)).getD g.ref[x] then es else es ++ [e]) []

/-- The trips and the group's safe pattern that hold the pins now will hold them at a period start too (R132, R133). -/
def State.staysSafe (s : State) (n : GenId) : Bool :=
  let lat := s.fld F.PWMn_CFG_TRIPLAT n 0
  s.pwmForced n || (List.range 4).any fun k =>
    decide (s.fld F.PWMn_STAT_TRIPPED n 0 / 2 ^ k % 2 = 1) && (decide (lat / 2 ^ k % 2 = 1) || s.destLv (pwmDst n + k))

/-- Output x of generator n has an edge scheduled in this lc or the next (R134): by REF, by the end of a dead time, or because its pins
leave the safe pattern at a period start, their own or their lead's. -/
def State.edgeNear (s : State) (n : GenId) (x : Fin 2) : Bool :=
  let g := s.pwm[n]
  let on := decide (x = 1)
  let near (t : Nat) : Bool := decide (t / 256 ≤ s.now + 1)
  if g.safe then
    !s.staysSafe n && s.pwmNear fun c => decide (c = .pwmPeriodStart n) ||
      (g.lead && ((s.grpLead (s.grpOf n)).any fun l => decide (c = .pwmPeriodStart l)))
  else if s.fld F.PWMn_CFG_OUTMODE n 0 = 1 then !(s.refNear n x).isEmpty
  else
    let dt := if s.flag F.PWMn_CFG_DTMODE n 0 then g.dtmin else if x = 0 then g.dta else g.dtb
    let due := g.on.any fun p => p.b == on && near (p.t.getD (p.toff + p.dtmax))
    due || (s.refNear n 0).any fun e => if e.1 = on then g.lvl[x] else near (e.2 + dt)

/-- Output of the next replacement. -/
def State.dlOut (s : State) : GenId × Fin 2 :=
  let k := s.fld F.PWM_CAL_STAT_OUT 0 0
  (Fin.ofNat 16 (k / 2), Fin.ofNat 2 k)

/-- OUT advances, from 31 to 0. -/
def State.dlAdvance (s : State) : State :=
  s.setFld F.PWM_CAL_STAT_OUT 0 0 ((s.fld F.PWM_CAL_STAT_OUT 0 0 + 1) % 32)

/-- The replacement that waits can take place. -/
def State.dlReady (s : State) : Bool := s.mode.live && s.dlWaits && !s.edgeNear s.dlOut.1 s.dlOut.2

/-- DELAY_LINE_REPLACE (R134). -/
def execDelayLineReplace (s : State) : Out :=
  if s.dlReady then
    .next ({ (s.count F.PWM_CAL_STAT_ROUNDS 0 0).dlAdvance with dlWaits := false })
  else .next s

/-- DELAY_LINE_DUE (R134): a replacement that still waits is skipped; the next falls due. -/
def execDelayLineDue (s : State) : Out :=
  if s.mode.live && !s.flag F.PWM_CAL_STAT_FAIL 0 0 then
    let s := if s.dlWaits then s.dlAdvance.bump F.PWM_CAL_STAT_SKIPS 0 0 else s
    let s : State := { s.sched 40000 .delayLineDue with dlWaits := true }
    .next (if s.dlReady then s.emit .delayLineReplace else s)
  else .next s

/-- DELAY_LINE_FAIL (R135): rotation stops. -/
def execDelayLineFail (s : State) : Out :=
  if s.mode.live then
    .next { (s.setFld F.PWM_CAL_STAT_FAIL 0 0 1).unsched .delayLineDue with dlWaits := false }
  else .next s

/-! ## Modes -/

/-- Ready or Safe-Hold is entered, or SAFE_N forces the pins: every generator at the safe pattern until its group's next
period start (R138, R415). -/
def State.pwmForceAll (s : State) : State := (List.finRange 16).foldl (fun s (n : GenId) => s.pwmSafe n true) s

/-- A mode in which the counters stop (Table 5.4). -/
def State.pwmStop (s : State) : State :=
  let s := (List.finRange 16).foldl (fun s (n : GenId) =>
    ((s.pwmHalt n (s.pwmCount n)).modPwm n fun g => { g with first := none }).pwmSafe n true) s
  { s.unsched .delayLineDue with dlWaits := false }

/-- Entry into Ready with stopped counters: the delay-line rotation starts. -/
def State.pwmReady (s : State) : State :=
  let s := s.pwmForceAll
  if s.flag F.PWM_CAL_STAT_FAIL 0 0 then s else s.sched 40000 .delayLineDue

end Sys2Proof.Machine
end

