-- ==== Sys2Proof/Machine/Matrix.lean ====
section
/-! DEFINITION. The solder matrix (R217 to R231, R466): routes, and what arrives at each destination. -/

namespace Sys2Proof.Machine

/-- Kinds of source and destination (R217). -/
inductive SigKind
  | event | level | data | edge | none
  deriving DecidableEq, Repr

/-- Kind of a source (Table 9.1). -/
def srcKind (k : Nat) : SigKind :=
  if k < 0x004 then .level
  else if k < 0x00A then .event
  else if k < 0x020 then .none
  else if k < 0x060 then .event
  else if k < 0x0A0 then (match (k - 0x060) % 8 with
    | 0 => .data
    | 6 => .none
    | 7 => .none
    | _ => .event)
  else if k < 0x110 then .level
  else if k < 0x1D0 then (match (k - 0x110) % 12 with
    | 5 => .level
    | 8 => .level
    | 9 => .level
    | 10 => .level
    | 11 => .none
    | _ => .event)
  else if k < 0x2F0 then (match (k - 0x1D0) % 12 with
    | 9 => .level
    | 10 => .level
    | 11 => .none
    | _ => .event)
  else if k < 0x350 then (match (k - 0x2F0) % 12 with
    | 0 => .data
    | 1 => .data
    | 2 => .level
    | 3 => .level
    | _ => .event)
  else if k < 0x3F0 then (match (k - 0x350) % 20 with
    | 7 => .level
    | 13 => .level
    | 11 => .event
    | 14 => .event
    | 15 => .event
    | 16 => .event
    | 17 => .event
    | 18 => .event
    | 19 => .none
    | _ => .data)
  else .none

/-- Kind of a destination (Table 9.2). -/
def dstKind (d : Nat) : SigKind :=
  if d < 0x008 then .event
  else if d < 0x020 then .none
  else if d < 0x060 then .edge
  else if d < 0x080 then .event
  else if d < 0x0E0 then (if d % 2 = 0 then .event else .level)
  else if d < 0x110 then .data
  else if d < 0x120 then .level
  else if d < 0x1C0 then (match (d - 0x120) % 10 with
    | 6 => .event
    | 7 => .event
    | 8 => .data
    | 9 => .data
    | _ => .level)
  else if d < 0x1C8 then .data
  else if d < 0x1D0 then .none
  else if d < 0x2C0 then (match (d - 0x1D0) % 10 with
    | 0 => .event
    | 1 => .event
    | 2 => .edge
    | 3 => .edge
    | 4 => .edge
    | 5 => .edge
    | _ => .data)
  else if d < 0x300 then (match (d - 0x2C0) % 8 with
    | 0 => .edge
    | 1 => .event
    | 2 => .event
    | 3 => .data
    | 4 => .data
    | _ => .none)
  else if d < 0x380 then (if (d - 0x300) % 16 < 9 then .data else if (d - 0x300) % 16 < 12 then .event else .none)
  else .none

/-! ## Route table -/

/-- The route of destination d in the configuration space (Table 9.6). -/
def State.routeEntry (s : State) (d : Nat) : Route :=
  let w (i : Nat) : Word := s.word (0x50000000 + d * 16 + 4 * i)
  let w0 := w 0
  let n := getBits w0 21 20 + 1
  { dest := d, cls := getBits w0 31 30, func := getBits w0 29 27, owner := getBits w0 26 24,
    town := w0.getLsbD 23, en0 := w0.getLsbD 22,
    srcs := [getBits (w 1) 9 0, getBits (w 1) 25 16, getBits (w 2) 9 0, getBits (w 2) 25 16].take n,
    inv := getBits w0 19 16, stretch := getBits w0 15 8 }

/-- Places a route among routes in the order of their (first) source numbers, after those of its own. -/
def Route.insert (r : Route) : List Route → List Route
  | [] => [r]
  | q :: qs => if r.srcs.getD 0 0 < q.srcs.getD 0 0 then r :: q :: qs else q :: Route.insert r qs

/-- The routes of the configuration space, in the order of their sources: of requests of one lc the lower source's comes first
(R228). -/
def State.decodeRoutes (s : State) : List Route :=
  (((List.range 1024).map s.routeEntry).filter fun r => r.cls != 0).foldl (fun rs r => r.insert rs) []

/-- The enable of a destination's route, as SM_RENj holds it. -/
def State.routeEn (s : State) (d : Nat) : Bool := (s.reg .SM_RENj (d / 32) 0).getLsbD (d % 32)

/-- The enable that governs in this lc (R221, R229). -/
def State.routeOn (s : State) (r : Route) : Bool := s.mx.enStart.get r.dest false

/-- Takes the enables for the lc that begins. -/
def State.takeEnables (s : State) : State :=
  { s with mx := { s.mx with
      enPrev := s.mx.enStart
      enStart := (s.mx.routes.filter fun r => s.routeEn r.dest).map fun r => (r.dest, true) } }

/-! ## Arrivals -/

/-- Adds a command to those of this lc unless it is among them. -/
def State.emitOnce (s : State) (c : Instr) : State := if s.inbox.contains c then s else s.emit c

/-- Instant of an edge of a PWM output that came in this lc: its last, or the one before where another followed (R148). -/
def State.outEdge (s : State) (g : GenId) (x : Fin 2) (rising : Bool) : Nat :=
  if rising = s.mx.lv.get (pwmSrc g + 9 + x.val) false then s.pwm[g].edge[x] else s.pwm[g].edgeB[x]

/-- An edge at a capture destination: the fine part through a direct route (R148). -/
def State.capArrive (s : State) (n : TmrId) (c : Fin 4) (rising : Bool) (src : Option Nat) : State :=
  if s.tmrCap n c && s.flag F.TMn_CHc_CFG_CAPSRC n c then
    match src with
    | some k =>
      if 0x0A0 ≤ k ∧ k < 0x0D0 then
        (s.emit (.timerCapture n c ⟨rising, Config.capFine s.fresh, true⟩)).draw
      else if 0x110 ≤ k ∧ k < 0x1D0 ∧ ((k - 0x110) % 12 = 9 ∨ (k - 0x110) % 12 = 10) then
        let g : GenId := Fin.ofNat 16 ((k - 0x110) / 12)
        let x : Fin 2 := Fin.ofNat 2 ((k - 0x110) % 12 - 9)
        s.emit (.timerCapture n c ⟨rising, BitVec.ofNat 8 (s.outEdge g x rising % 256), true⟩)
      else s.emit (.timerCapture n c ⟨rising, 0, false⟩)
    | none => s.emit (.timerCapture n c ⟨rising, 0, false⟩)
  else s

/-- An edge at an edge destination: FEVk takes rising edges; capture and probe select their own (R217). -/
def State.edgeArrive (s : State) (d : Nat) (rising : Bool) (src : Option Nat) : State :=
  if d < 0x060 then (if rising then s.evcRaise (Fin.ofNat 512 (d - 0x020)) else s)
  else if d < 0x2C0 then
    s.capArrive (Fin.ofNat 24 ((d - 0x1D0) / 10)) (Fin.ofNat 4 ((d - 0x1D0) % 10 - 2)) rising src
  else
    let n : PosId := Fin.ofNat 8 ((d - 0x2C0) / 8)
    if s.flag F.POSn_CFG_PRBSRC n 0 then s.schedMore 1 (.probeEdge n ⟨.dest, rising⟩) else s

/-- An event at a destination. -/
def State.eventArrive (s : State) (d : Nat) (src : Option Nat) : State :=
  match dstKind d with
  | .edge => s.edgeArrive d true src
  | .event =>
    if d < 0x008 then s.emit (.safeRequest (Fin.ofNat 8 d))
    else if d < 0x080 then s.emit (.adcTrigger (Fin.ofNat 8 ((d - 0x060) / 4)) (Fin.ofNat 4 (d % 4)))
    else if d < 0x0E0 then
      let n : CmpId := Fin.ofNat 48 ((d - 0x080) / 2)
      s.emit (.cmpTick n (s.cmpLevel n))
    else if d < 0x1C0 then
      let n : GenId := Fin.ofNat 16 ((d - 0x120) / 10)
      s.emit (if (d - 0x120) % 10 = 6 then .pstart n else .pwmSync n)
    else if d < 0x2C0 then
      let n : TmrId := Fin.ofNat 24 ((d - 0x1D0) / 10)
      s.emit (if (d - 0x1D0) % 10 = 0 then .timerStartEvent n else .timerStopEvent n)
    else if d < 0x300 then
      let n : PosId := Fin.ofNat 8 ((d - 0x2C0) / 8)
      s.emit (if (d - 0x2C0) % 8 = 1 then .speedWindow n else .ssiRequestEvent n)
    else
      let n : LeId := Fin.ofNat 8 ((d - 0x300) / 16)
      s.emit (match (d - 0x300) % 16 with
        | 9 => .profileTick n
        | 10 => .generalStageGo n
        | _ => .lnSwapEvent n)
  | _ => s

/-- What a destination follows of a route's level: an edge destination the level itself, whatever the enable (R466), a level
destination 0 while the route is disabled (R225). -/
def gated (d : Nat) (on b : Bool) : Bool := if dstKind d = .edge then b else on && b

/-- A level at a destination from a route whose enable is `on`; a change acts. The enable of an edge destination gates its events
alone. -/
def State.levelArrive (s : State) (d : Nat) (on lv : Bool) (src : Option Nat) : State :=
  let b := gated d on lv
  if s.destLv d = b then s
  else
    let s : State := { s with mx := { s.mx with dlv := s.mx.dlv.put d b false } }
    match dstKind d with
    | .edge => if on then s.edgeArrive d b src else s
    | .level =>
      if d < 0x0E0 then s.cmpSelChange (Fin.ofNat 48 ((d - 0x080) / 2))
      else if d < 0x120 then s.emit (.windowGateChange (Fin.ofNat 16 (d - 0x110)) b)
      else
        let n : GenId := Fin.ofNat 16 ((d - 0x120) / 10)
        match (d - 0x120) % 10 with
        | 4 => if s.tcNow n then s.emitOnce (.transitionComplete n) else s
        | 5 => if b then s.mark (endMark n) true else s
        | k => if b then s.emit (.pwmTrip n (Fin.ofNat 4 k)) else s.tripOver n
    | _ => s

/-- A data destination of a loop engine holds a new value. -/
def State.isNew (s : State) (d : Nat) : Bool := s.mx.dnew.get d false

/-- A word at a data destination (R224). -/
def State.dataArrive (s : State) (d : Nat) (w : Word) : State :=
  let s : State := { s with mx := { s.mx with dword := s.mx.dword.put d w 0 } }
  let fresh (s : State) : State := { s with mx := { s.mx with dnew := s.mx.dnew.put d true false } }
  if d < 0x110 then s.emit (.cmpThrPort (Fin.ofNat 48 (d - 0x0E0)) w)
  else if d < 0x1C0 then
    s.emit (.comparePortWrite (Fin.ofNat 16 ((d - 0x120) / 10)) (decide ((d - 0x120) % 10 = 9)) w)
  else if d < 0x1C8 then s.emit (.loadallStrobe (Fin.ofNat 8 (d - 0x1C0)) w)
  else if d < 0x2C0 then
    s.emit (.timerComparePort (Fin.ofNat 24 ((d - 0x1D0) / 10)) (Fin.ofNat 4 ((d - 0x1D0) % 10 - 6)) w)
  else if d < 0x300 then
    let n : PosId := Fin.ofNat 8 ((d - 0x2C0) / 8)
    let s := fresh s
    if s.isNew (posDst n + 3) && s.isNew (posDst n + 4) then s.emitOnce (.sincosSample n) else s
  else
    let n : LeId := Fin.ofNat 8 ((d - 0x300) / 16)
    let k := (d - 0x300) % 16
    let s := (fresh s).leRefresh n k
    if k < 4 then
      let mark := s.fld F.LEn_INSET_MARK n 0
      if s.pipeOn n .cur && decide (mark / 2 ^ k % 2 = 1) &&
          (List.range 4).all (fun i => decide (mark / 2 ^ i % 2 = 0) || s.isNew (leDst n + i))
      then s.emitOnce (.currentSetFormed n) else s
    else if k = 6 then s.emitOnce (.voltageSet n)
    else if k = 7 ∨ k = 8 then
      if s.isNew (leDst n + 7) && s.isNew (leDst n + 8) then s.emitOnce (.freqTrackerSet n) else s
    else s

/-! ## Routing -/

/-- The one bit a source shows over this lc: an event that came, a level as it stands. -/
def State.srcBit (s : State) (k : Nat) : Bool :=
  match srcKind k with
  | .level => s.mx.lv.get k false
  | _ => s.mx.ev.contains k || s.mx.evDone.contains k

/-- Passes one direct route's source on: events and words not yet passed in this lc, the changes of a level in their order, then the
level as it stands (R221). -/
def State.direct (s : State) (evs nws : List Nat) (chs : List (Nat × Bool)) (r : Route) : State :=
  if r.cls ≠ 1 then s
  else
    let k := r.srcs.getD 0 0
    let on := s.routeOn r
    match srcKind k with
    | .event => if on && evs.contains k then s.eventArrive r.dest (some k) else s
    | .level =>
      (((chs.filter fun e => decide (e.1 = k)).map (·.2)) ++ [s.mx.lv.get k false]).foldl
        (fun s b => s.levelArrive r.dest on b (some k)) s
    | .data => if on && nws.contains k then s.dataArrive r.dest (s.mx.word.get k 0) else s
    | _ => s

/-- The direct routes take what the sources produced since they last looked. -/
def State.settle (s : State) : State :=
  let evs := (s.mx.ev.filter fun k => !s.mx.evDone.contains k).eraseDups
  let nws := s.mx.nw.eraseDups
  let chs := s.mx.chg
  let s : State := { s with mx := { s.mx with
    ev := [], nw := [], chg := [], evDone := s.mx.evDone ++ evs, nwDone := s.mx.nwDone ++ nws } }
  s.mx.routes.foldl (fun s r => s.direct evs nws chs r) s

/-- Something waits for the direct routes. -/
def State.unsettled (s : State) : Bool :=
  s.mx.ev.any (fun k => !s.mx.evDone.contains k) || !s.mx.nw.isEmpty ||
    s.mx.routes.any fun r => decide (r.cls = 1) && (match srcKind (r.srcs.getD 0 0) with
      | .level => gated r.dest (s.routeOn r) (s.mx.lv.get (r.srcs.getD 0 0) false) != s.destLv r.dest ||
          s.mx.chg.any fun e => decide (e.1 = r.srcs.getD 0 0)
      | _ => false)

/-- What a registered or combined route has taken in: nothing, an event, a level, a word. -/
inductive Taken
  | none | event | level (b : Bool) | data (w : Word) | stretch (b : Bool)
  deriving DecidableEq, Repr

/-- The inputs of a combined route, inverted as INV says. -/
def State.routeBits (s : State) (r : Route) : List Bool :=
  r.srcs.zipIdx.map fun x => s.srcBit x.1 != decide (r.inv / 2 ^ x.2 % 2 = 1)

/-- What a route takes in at the end of an lc (R221, R222). -/
def State.routeTake (s : State) (r : Route) : Taken :=
  let k := r.srcs.getD 0 0
  if r.cls = 2 then
    match srcKind k with
    | .event => if s.srcBit k then .event else .none
    | .level => .level (s.srcBit k)
    | .data => if s.mx.nw.contains k || s.mx.nwDone.contains k then .data (s.mx.word.get k 0) else .none
    | _ => .none
  else if r.cls = 3 then
    let bs := s.routeBits r
    let inv := decide (r.inv % 2 = 1)
    let cur := bs.getD 0 false
    let old := s.mx.lvPrev.get r.dest false != inv
    let bit (b : Bool) : Taken :=
      if r.srcs.all fun k => decide (srcKind k = .event) then (if b then .event else .none) else .level b
    match r.func with
    | 0 => bit (bs.all id)
    | 1 => bit (bs.any id)
    | 2 => bit (decide (bs.length < 2 * bs.count true))
    | 3 => if cur && !old then .event else .none
    | 4 => if !cur && old then .event else .none
    | 5 => if cur != old then .event else .none
    | 6 => .stretch cur
    | _ => .none
  else .none

/-- Delivers in the new lc what a route took in, as its enable of the old lc allows. -/
def State.routeGive (s : State) (r : Route) (on : Bool) (t : Taken) : State :=
  match t with
  | .none => if on then s else (match dstKind r.dest with
      | .level => s.levelArrive r.dest false false none
      | _ => s)
  | .event => if on then s.eventArrive r.dest none else s
  | .level b => s.levelArrive r.dest on b none
  | .data w => if on then s.dataArrive r.dest w else s
  | .stretch b =>
    let over_ := s.cal.any fun e => decide (e.1 ≤ s.now) && decide (e.2 = .pulseStretchEnd (Fin.ofNat 1024 r.dest))
    let s := if b then
        (({ s with mx := { s.mx with stretch := s.mx.stretch.put r.dest true false } } : State).sched r.stretch
          (.pulseStretchEnd (Fin.ofNat 1024 r.dest)))
      else if over_ then { s with mx := { s.mx with stretch := s.mx.stretch.put r.dest false false } }
      else s
    s.levelArrive r.dest on (s.mx.stretch.get r.dest false) none

/-- Software sources raised in a BUSCLK cycle produce their events in one lc, all writes' together (Table 9.4): its last (DESIGN
CHOICE, log entry 130). -/
def State.swDue (s : State) : State :=
  if s.now % 2 = 1 then
    let ks := s.mx.sw
    ks.foldl (fun s k => s.raiseEv k) { s with mx := { s.mx with sw := [] } }
  else s

/-- The matrix passes from one lc to the next; `s` already counts the new lc. -/
def State.matrixTick (s : State) : State :=
  let rs := s.mx.routes
  let took := rs.map fun r => (r, s.routeOn r, s.routeTake r)
  let prev := rs.foldl (fun m r => if r.cls = 3 ∧ 3 ≤ r.func ∧ r.func ≤ 5 then
    SMap.put m r.dest (s.srcBit (r.srcs.getD 0 0)) false else m) []
  let s : State := { s with mx := { s.mx with ev := [], nw := [], chg := [], evDone := [], nwDone := [], lvPrev := prev } }
  let s := s.takeEnables.swDue
  (took.filter fun x => x.1.cls != 1).foldl (fun s x => s.routeGive x.1 x.2.1 x.2.2) s

/-! ## Commands -/

/-- PULSE_STRETCH_END (R222): the output returns to 0, as the enable at the start of the lc before lets it (R221, Table 9.4). -/
def execPulseStretchEnd (d : Fin 1024) (s : State) : Out :=
  let s : State := { s with mx := { s.mx with stretch := s.mx.stretch.put d.val false false } }
  let s := s.unsched (.pulseStretchEnd d)
  match s.mx.routes.find? fun r => decide (r.dest = d.val) && decide (r.func = 6) with
  | some r => .next (if s.mode.live then s.levelArrive d.val (s.mx.enPrev.get r.dest false) false none else s)
  | none => .next s

/-- Owner of software source k (R226, Table 9.6): T0 unless assigned. -/
def State.swOwner (s : State) (k : Nat) : Tenant :=
  let nib := getBits (s.reg .SM_SWOWNj (k / 8) 0) (4 * (k % 8) + 3) (4 * (k % 8))
  if 8 ≤ nib then Fin.ofNat 8 nib else 0

/-- A write to SM_SWEVTj (R226): the events fall in the last lc of its BUSCLK cycle. -/
def State.swRaise (s : State) (r : Req) (j : Fin 2) (v : Word) : State :=
  let ks := (List.range 32).filter fun i => v.getLsbD i
  let mine := ks.filter fun i => decide (r.tenant = s.swOwner (32 * j.val + i))
  let s := if mine.length < ks.length then s.bump F.SM_ERR_CNT_FOREIGN 0 0 else s
  if s.mode.live then
    ({ s with mx := { s.mx with sw := s.mx.sw ++ mine.map fun i => 0x020 + 32 * j.val + i } } : State).swDue
  else s

/-- SW_EVENT_RAISE. -/
def execSwEventRaise (r : Req) (j : Fin 2) (v : Word) (s : State) : Out :=
  regCmd r .write .SM_SWEVTj j 0 (fun s => s.swRaise r j v) s

/-- Bits of SM_RENj that a requester may change: enables of routes its tenant owns. -/
def State.renMine (s : State) (r : Req) (j : Nat) : Word :=
  s.mx.routes.foldl (fun m x =>
    if x.town && decide (x.dest / 32 = j) && decide (r.tenant = Fin.ofNat 8 x.owner) then m ||| BitVec.ofNat 32 (2 ^ (x.dest % 32)) else m) 0

/-- A write to SM_RENj where it prevails, on the value `cur` (R226). -/
def State.renApply (s : State) (r : Req) (j : Fin 32) (v cur : Word) : State :=
  let mine := s.renMine r j
  let n := s.fld F.SM_ERR_CNT_FOREIGN 0 0
  let s := if (v ^^^ cur) &&& ~~~mine ≠ 0 then s.bump F.SM_ERR_CNT_FOREIGN 0 0 else s
  let s := s.setReg .SM_RENj j 0 ((cur &&& ~~~mine) ||| (v &&& mine))
  let w : RenWrite := ⟨s.now / 2, r.master.val, cur, decide (s.fld F.SM_ERR_CNT_FOREIGN 0 0 ≠ n)⟩
  { s with mx := { s.mx with renBy := s.mx.renBy.put j.val (some w) none } }

/-- A write to SM_RENj (R226); of two requesters in one BUSCLK cycle the lower master prevails, the other write is discarded and not
counted (Table 9.4). -/
def State.renWrite (s : State) (r : Req) (j : Fin 32) (v : Word) : State :=
  match s.mx.renBy.get j.val none with
  | some w =>
    if w.cyc ≠ s.now / 2 ∨ w.master = r.master.val then s.renApply r j v (s.reg .SM_RENj j 0)
    else if w.master < r.master.val then s
    else (if w.told then s.unbump F.SM_ERR_CNT_FOREIGN 0 0 else s).renApply r j v w.before
  | none => s.renApply r j v (s.reg .SM_RENj j 0)

/-- ROUTE_ENABLE_WRITE. -/
def execRouteEnableWrite (r : Req) (j : Fin 32) (v : Word) (s : State) : Out :=
  regCmd r .write .SM_RENj j 0 (fun s => s.renWrite r j v) s

/-! ## Modes -/

/-- The matrix starts: destinations idle, detectors at 0 (R225, R230, R466). -/
def State.matrixStart (s : State) : State :=
  let s : State := { s with mx := { s.mx with
    ev := [], nw := [], chg := [], evDone := [], nwDone := [], lvPrev := [], dlv := [], dword := [], dnew := [], stretch := []
    sw := [] } }
  (s.setLv 1 true).takeEnables

/-- Entry into Ready: enables from EN0 (R230). -/
def State.matrixReady (s : State) : State :=
  (s.mx.routes.foldl (fun s r =>
    let w := s.reg .SM_RENj (r.dest / 32) 0
    s.setReg .SM_RENj (r.dest / 32) 0 (setBits w (r.dest % 32) (r.dest % 32) (if r.en0 then 1 else 0))) s).matrixStart

/-- The SEL destinations of direct routes show their sources from the first lc of Ready (R88). -/
def State.selReady (s : State) : State :=
  s.mx.routes.foldl (fun s r =>
    let k := r.srcs.getD 0 0
    if r.cls = 1 ∧ 0x080 ≤ r.dest ∧ r.dest < 0x0E0 ∧ srcKind k = .level then
      { s with mx := { s.mx with dlv := s.mx.dlv.put r.dest (s.routeOn r && s.mx.lv.get k false) false } }
    else s) s

/-- The control domain stops: every destination idle (Table 9.5). -/
def State.matrixStop (s : State) : State :=
  { s with mx := { s.mx with
      ev := [], nw := [], chg := [], evDone := [], nwDone := [], lvPrev := [], dlv := [], dnew := [], stretch := [], enStart := []
      enPrev := [], sw := [] }
           cal := s.cal.filter fun e => match e.2 with
             | .pulseStretchEnd _ => false
             | _ => true }

end Sys2Proof.Machine
end

