-- ==== Sys2Proof/Machine/Modes.lean ====
section
/-! DEFINITION. Modes: their change, entry into Ready and Safe-Hold, uncorrectable faults, Reset, the fault journal, frames sent
to the peer (R28 to R35, R383, R399, R405, R414, R432 to R435). -/

namespace Sys2Proof.Machine

/-! ## Views and frames -/

/-- What a read of SYS_MODE shows (R33, R35). -/
def State.sysMode (s : State) : Word :=
  let halted := (List.finRange 4).foldr (fun (p : Pair) n => (if (s.pair p).halted then 2 ^ p.val else 0) + n) 0
  BitVec.ofNat 32 (halted * 65536 + s.sys.changes.toNat * 256 + s.sys.prev.code * 16 + s.sys.mode.code)

/-- SYS_SAFE.SAFE_N follows the pin, sampled by PERCLK; before the first sample it reads its reset value (R8, R415; DEDUCED, log
entry 55). -/
def State.sampleSafeN (s : State) : State :=
  if s.now % 4 = 0 then s.setFld F.SYS_SAFE_SAFE_N 0 0 (if s.sys.safeNLow then 0 else 1) else s

/-- Changes the twin block's state. -/
def State.modTwin (s : State) (f : TwinSt → TwinSt) : State := { s with twin := f s.twin }

/-- The link is up (R384). -/
def State.linkIsUp (s : State) : Bool := decide (s.fld F.TW_STAT_LINK 0 0 = 2)

/-- Sends a frame over the link (R385); after TW_FAULT_OUT only HEARTBEAT (R405). -/
def State.twSend (s : State) (ty : Nat) (spec data : List Byte) : State :=
  if s.linkIsUp && (decide (ty = 1) || !s.flag F.TW_STAT_FAULT_OUT 0 0) then
    let flags := (if s.flag F.TW_STAT_FHOLD 0 0 then 1 else 0) + (if s.flag F.TW_STAT_LINKLOST 0 0 then 2 else 0) +
      (if s.flag F.TW_STAT_LOCK 0 0 then 4 else 0)
    let pad (n : Nat) (bs : List Byte) : List Byte := bs ++ List.replicate (n - bs.length) 0
    let f : TwFrame := ⟨ty, flags, s.twin.fseq, (s.reg .TW_GEN 0 0).setWidth 16, s.sys.mode.code, pad 16 spec,
      pad ((data.length + 31) / 32 * 32) data⟩
    s.modTwin fun t => { t with out := f :: t.out, fseq := t.fseq + 1 }
  else s

/-! ## Mode and ownership -/

/-- The mode changes (R35): SYS_MODECHG is raised; a Retention request that waits is void. -/
def State.setMode (s : State) (m : Mode) : State :=
  let s : State :=
    { s with sys := { s.sys with
        prev := s.sys.mode, mode := m, changes := s.sys.changes + 1, retReq := false, readyReq := false, wake := none } }
  let s := s.mark (RegName.SYS_MODE.addr 0 0) false
  (s.setLv 2 (decide (m = .safeHold))).evcRaise 0x1E0

/-- Drives TW_OWN (R381). -/
def State.setOwn (s : State) (b : Bool) : State := (s.setFld F.TW_STAT_OWN 0 0 (if b then 1 else 0)).setLv 3 b

/-- Drives TW_FAULT_OUT high until Reset (R383). -/
def State.faultOut (s : State) : State := s.setFld F.TW_STAT_FAULT_OUT 0 0 1

/-- Appends a record to the fault journal (R434). -/
def State.journal (s : State) (cause sub : Nat) (p : Option Pair) : State :=
  let r (rn : RegName) : List Byte := match p with
    | some p => Word.bytes (s.reg rn p 0)
    | none => [0, 0, 0, 0]
  let b : List Byte := [BitVec.ofNat 8 cause, BitVec.ofNat 8 sub, BitVec.ofNat 8 s.sys.mode.code, 0] ++ r .LP_LS_STAT ++
    r .LP_EXC_STAT ++ Word.bytes s.sysMode ++ Word.bytes s.todSecLo ++ leBytes s.todNs 4 ++ Word.bytes (s.reg .BG_LIFE 0 0)
  { s with sys := { s.sys with jrnl := ((b ++ Word.bytes (crc32c b)) :: s.sys.jrnl).take 2048 } }

/-! ## Control domain -/

/-- Applies a function to every engine. -/
def State.allLe (s : State) (f : State → LeId → State) : State := (List.finRange 8).foldl f s

/-- The control domain stops (Maintenance, Retention, and what precedes Ready): Tables 3.4, 4.4, 5.4, 6.2, 7.4, 8.8, 9.5. -/
def State.domainStop (s : State) : State :=
  let s := (List.finRange 24).foldl (fun s n => s.tmrStop n) s
  let s := s.todStop
  let s := (((s.adcStop).cmpStop).pwmStop).matrixStop
  let s := (List.finRange 8).foldl (fun s n => s.posStop n) s
  s.allLe State.leClear

/-- The station-cycle engine sends nothing more (R431). -/
def State.stationStop (s : State) : State :=
  let s := s.unsched .stationOutputWrite
  { s with sc := { s.sc with send := false, readAt := none } }

/-- The Run modes and Handover end: engines freeze, outputs take the safe pattern, twin operation ends. -/
def State.runEnd (s : State) : State :=
  let s := ((s.allLe State.leFreeze).pwmForceAll).stationStop
  let s := (s.setFld F.TW_STAT_FHOLD 0 0 0).setFld F.TW_STAT_PAIRED 0 0 0
  let s := ((s.unsched .faultHoldExpiry).unsched .agreementForced).unsched .pairingTimeout
  s.modTwin fun t => { t with
    step := 0, lockOn := false, armed := false, tx := none, dec := none, commit := false, switch := false, leaveAt := none }

/-! ## Ready -/

/-- Ways into Ready, and from Maintenance into Safe-Hold. -/
inductive ReadyFrom
  | verify (adc : Vector SpareCal 9) | wake (adc : Vector SpareCal 9) | maint | safe | standby | hold
  deriving DecidableEq, Repr

/-- Runs a block's entry into Ready on the control domain that starts (R83, R88, R161, R230, R466). Safe-Hold from Maintenance is no
entry into Ready: references, settling marks and route enables stay (R66, R70, R230). -/
def State.domainStart (s : State) (f : ReadyFrom) : State :=
  match f with
  | .verify k => ((((s.todReady.adcFullEntry k).adcReady).pwmReady.posReady true).matrixReady.cmpReady true).selReady.dacsReady
  | .wake k => ((((s.todReady.adcFullEntry k).adcReady).pwmReady.posReady true).matrixReady.cmpReady true).selReady.dacsReady
  | .maint => ((((s.todReady.adcFromMaint).adcReady).pwmReady.posReady false).matrixReady.cmpReady true).selReady.dacsReady
  | .hold => ((((s.todReady.adcFromMaint).pwmReady).posReady false).matrixStart.cmpReady true).selReady.dacsReady
  | .safe => ((s.adcReady).matrixReady.cmpReady false).selReady.dacsReady
  | .standby => ((s.adcReady).matrixReady.cmpReady false).selReady.dacsReady

/-- Enters Ready: where the control domain starts afresh, the pairs and what the event controller knows of them do too. -/
def State.enterReady (s : State) (f : ReadyFrom) : State :=
  let s := (s.setMode .ready).runEnd
  let s := (s.setOwn false).domainStart f
  let t := s.now
  let s : State := { s with sys := { s.sys with readyAt := t } }
  let s := s.sched 0 .reservationWindow
  let s := if s.sys.safeNLow then (s.pwmForceAll).sched 16 .safeNTimeout else s
  let fresh := match f with
    | .verify _ => true
    | .wake _ => true
    | _ => false
  let s := if f = .standby then s else s.modTwin fun w => { w with markAt := t, markIdx := 0, hbAt := t }
  if fresh then
    let s := (List.finRange 4).foldl (fun s (p : Pair) => (s.setPair p PairSt.init).sched 0 (.sweepSnapshot p)) s
    let s : State := { s with evc := { s.evc with lock := EvcSt.init.lock, ie := EvcSt.init.ie, tid := EvcSt.init.tid } }
    if (List.range 16).any (fun j => s.reg .FL_INTERRUPTEDj j 0 != 0) then s.evcRaise 0x19B else s
  else s

/-! ## Safe-Hold -/

/-- Enters Safe-Hold, or in Safe-Hold records a further cause (R432): the first cause stays unless the later is FAULT or
CLOCK; of those in the lc of entry the lowest code is recorded (Table 16.12). FAULT, CLOCK and RETENTION are journalled on entry, and each further uncorrectable fault (R434). In fault-hold, and until it
is left, only FAULT, CLOCK and RETENTION count (R399; DEDUCED, log entry 45). -/
def State.enterSafeHold (s : State) (cause sub : Nat) (p : Option Pair) : State :=
  let was := s.mode
  if (s.flag F.TW_STAT_FHOLD 0 0 || (s.twin.leaveAt.any fun l => decide (l.2 = .safeHold))) &&
      decide (2 ≤ cause ∧ cause ≤ 4) then s
  else
  let record (s : State) : State := (s.setFld F.SYS_SAFE_CAUSE 0 0 cause).setFld F.SYS_SAFE_SUB 0 0 sub
  let hard := decide (cause = 1 ∨ cause = 5)
  let s := if hard then s.faultOut else s
  let a := RegName.SYS_SAFE.addr 0 0
  if was = .safeHold then
    let s := if if s.marked a false then decide (cause < s.fld F.SYS_SAFE_CAUSE 0 0) else hard then record s else s
    if cause = 1 then s.journal cause sub p else s
  else
    let s := (s.setMode .safeHold).runEnd
    let s := if was = .maintenance then s.domainStart .hold else s
    let s := (record s).mark a false
    let s : State := { s with sys := { s.sys with faultReq := none } }
    if hard || decide (cause = 6) then s.journal cause sub p else s

/-- A flash command is in progress in some bank. -/
def State.flashBusy (s : State) : Bool := (List.finRange 4).any fun (b : FBank) => s.fl.banks[b].cmd.isSome

/-- The frames sent without the last SWITCH: those after it have an FSEQ of one less. -/
def TwinSt.unSwitch (t : TwinSt) : TwinSt :=
  let newer := t.out.takeWhile fun f => decide (f.ty ≠ 5)
  if newer.length < t.out.length then
    { t with out := (newer.map fun f => { f with fseq := f.fseq - 1 }) ++ t.out.drop (newer.length + 1), fseq := t.fseq - 1 }
  else t

/-- Fault-hold is entered (R399); a SWITCH frame of this lc is not sent (Table 15.7). -/
def State.faultHold (s : State) (sub : Nat) (p : Option Pair) : State :=
  let s : State := { s with sys := { s.sys with faultReq := some (sub, p) } }
  let s := (((s.faultOut).setFld F.TW_STAT_FHOLD 0 0 1).stationStop).mark (RegName.TW_STAT.addr 0 0) true
  let sent := s.marked (RegName.TW_CTRL.addr 0 0) true && s.twin.switch
  let s := s.modTwin fun t => { if sent then t.unSwitch else t with tx := none, switch := false }
  s.sched (s.reg .TW_HOLD 0 0).toNat .faultHoldExpiry

/-- An UNPAIR of this lc is as if it had not been (Table 15.7). -/
def State.unUnpair (s : State) : State :=
  let s : State := { s with
    sys := { s.sys with mode := .runActive, prev := s.twin.unpair, changes := s.sys.changes - 1 }
    cal := s.cal.erase (s.now + 1, .evcEvent 0x1E0)
    marks := s.marks.erase (RegName.SYS_MODE.addr 0 0, false) }
  s.setFld F.TW_STAT_PAIRED 0 0 1

/-- An uncorrectable fault (R32), with its SUB of Table 16.9 and the pair at fault: Safe-Hold; fault-hold first in Run-Active
(R399), also where UNPAIR has ended it in this lc (Table 15.7); after a switchover has released TW_OWN, 2 lc after that release
(DEDUCED, log entry 146); in Maintenance after the flash command in progress. -/
def State.uncorrectable (s : State) (sub : Nat) (p : Option Pair) : State :=
  match s.mode with
  | .runActive =>
    if s.flag F.TW_STAT_FHOLD 0 0 || s.twin.leaveAt.any (fun l => decide (l.2 = .safeHold)) then s
    else match s.twin.leaveAt with
      | some (t, _) => ((s.faultHold sub p).unsched .faultHoldExpiry).modTwin fun w => { w with leaveAt := some (t, .safeHold) }
      | none => s.faultHold sub p
  | .runSolo =>
    if s.flag F.TW_STAT_FHOLD 0 0 || s.twin.leaveAt.isSome then s
    else if s.marked (RegName.TW_CTRL.addr 0 0) false then s.unUnpair.faultHold sub p else s.enterSafeHold 1 sub p
  | .maintenance =>
    let s := s.faultOut
    if s.flashBusy then { s with sys := { s.sys with faultReq := some (sub, p) } } else s.enterSafeHold 1 sub p
  | .ready => s.enterSafeHold 1 sub p
  | .runStandby => s.enterSafeHold 1 sub p
  | .handover => s.enterSafeHold 1 sub p
  | .safeHold => s.enterSafeHold 1 sub p
  | _ => s

/-! ## Reset and Blank -/

/-- Registers that hold fuse or flash content and outlast Reset (R323, R366). -/
def lasting : RegName → Bool
  | .SYS_ID => true
  | .FL_PL => true
  | .SEC_UIDi => true
  | .SEC_OKHi => true
  | .SEC_FUSE_STAT => true
  | _ => false

/-- A bank as Reset leaves it: what its auxiliary array holds stays, a remap resumes at step 3 (R318 to R322). -/
def FBankSt.atReset (b : FBankSt) : FBankSt :=
  let remap := b.jrow.findSome? fun r => match r with
    | .remap k => some k
    | _ => none
  { b with cmd := none, ceSec := [], queue := [], mpos := 0, streams := [], ended := none, refr := remap.map fun k => (k, 3) }

/-- Reset (R30): all state but the flash, its auxiliary arrays and the fuses goes; a higher
protection level requested takes effect (R323). -/
def State.toReset (s : State) : State :=
  let r := State.reset
  let s := s.setFld F.FL_PL_LEVEL 0 0 s.fl.nextPl
  let s : State := { r with
    pending := s.pending
    now := s.now
    fresh := s.fresh
    mem := s.mem.filter fun e => decide (0x10000000 ≤ e.1) && decide (e.1 < 0x12000000)
    upset := s.upset.filter fun e => decide (0x10000000 ≤ e.1) && decide (e.1 < 0x12000000)
    regs := s.regs.filter fun e => match regAt e.1 with
      | some (n, _, _) => lasting n
      | none => false
    fl := { s.fl with banks := s.fl.banks.map FBankSt.atReset, key := false }
    eth := s.eth.map fun e => { e with fifo := [], ix := 0 }
    sys := { r.sys with mode := .reset, safeNLow := s.sys.safeNLow, jrnl := s.sys.jrnl } }
  s.setFld F.TW_STAT_LINK 0 0 0

/-- Registers that a discarded image leaves alone: what no image writes (R240). -/
def keptByDiscard : RegName → Bool
  | .SYS_ID => true
  | .SYS_MODE => true
  | .SYS_CLK_STAT => true
  | .SYS_START => true
  | .SYS_SAFE => true
  | .SYS_ADMIT => true
  | .SYS_MODE_REQ => true
  | .FL_STAT => true
  | .FL_INTERRUPTEDj => true
  | .FL_ECC_CNT => true
  | .FL_REFRESH_STAT => true
  | .FL_MARGIN_STAT => true
  | .FL_PL => true
  | .IX_ECC_CNTb => true
  | .SEC_UIDi => true
  | .SEC_OKHi => true
  | .SEC_FUSE_STAT => true
  | .DBG_CTRL => true
  | .DBG_STAT => true
  | .DBG_SAFEGRP => true
  | .DBG_AUTH_CTRL => true
  | .DBG_AUTH_CHALi => true
  | .DBG_AUTH_DATAi => true
  | .HP_ERR_CNT => true
  | .LP_LS_STAT => true
  | .TW_STAT => true
  | .TW_ERR_CNT => true
  | .BG_STAT => true
  | .BG_LIFE => true
  | .BG_TEL_SEQ => true
  | _ => false

/-- The copy of the image that the loader keeps at IMGBASE (R442) is discarded: its bytes read as none written (DESIGN CHOICE, log entry
145). -/
def State.dropCopy (s : State) : State :=
  let b := (s.sys.bg.getD 0 0).toNat
  if 0x20000000 ≤ b ∧ b + s.load.img.length ≤ 0x21800000 then s.clearMem b (b + s.load.img.length) else s

/-- Everything that a load wrote is discarded (R240, R419), the mark of an FL_WS that it wrote too low among it. -/
def State.discard (s : State) : State :=
  let s := (s.dropCopy.resetRegs fun r => !keptByDiscard r).setFld F.FL_STAT_WSCLAMP 0 0 0
  let s := (s.clearMem 0x30000000 0x30380000).clearMem 0x50000000 0x50010000
  let r := State.reset
  { s with mx := MatrixSt.init
           load := ⟨.none, [], 0, 0⟩
           evc := r.evc, dma := r.dma, qtag := r.qtag, tmr := r.tmr, tod := r.tod, adc := r.adc, rot := r.rot, cmps := r.cmps
           pwm := r.pwm, pos := r.pos, le := r.le, sc := r.sc
           sys := { s.sys with bg := [], digest := [] } }

/-- Return to Blank from Loading or Verify (R419, R420). CHANGES goes on counting: only POWER_GOOD zeroes it (R35; DESIGN CHOICE, log
entry 131). -/
def State.toBlank (s : State) (vcause : Nat) : State :=
  let s := ((s.discard).unsched .hostLoadTimeout).unsched .twinLoadTimeout
  (s.setFld F.SYS_START_VCAUSE 0 0 vcause).setMode .blank

end Sys2Proof.Machine
end

