-- ==== Sys2Proof/Machine/Offer.lean ====
section
/-! DEFINITION. Which sources the event controller offers to which pair (R290, R291). -/

namespace Sys2Proof.Machine

/-- The pair is halted by a fault: LP_LS_STAT.FAULT or LP_EXC_STAT.DOUBLE. -/
def State.faulted (s : State) (p : Pair) : Bool := s.flag F.LP_LS_STAT_FAULT p 0 || s.flag F.LP_EXC_STAT_DOUBLE p 0

/-- The source is active on some target. -/
def EvcSt.active (e : EvcSt) (n : SrcId) : Bool := (List.finRange 4).any fun k => e.act[k].getLsbD n.val

/-- The source is locked by an offer being taken (R292). -/
def EvcSt.locked (e : EvcSt) (n : SrcId) : Bool := (List.finRange 4).any fun k => e.lock[k] == some n

/-- R_k: the lowest PRIO among the sources active on target k, or 16 (R290). -/
def State.runPrio (s : State) (k : Pair) : Nat :=
  ((List.finRange 512).filter fun (n : SrcId) => s.evc.act[k].getLsbD n.val).foldl
    (fun (r : Nat) (n : SrcId) => min r (s.fld F.EVC_SRCn_CFG_PRIO n 0)) 16

/-- The ceiling E_k (R290). -/
def State.ceiling (s : State) (k : Pair) : Nat := min (s.runPrio k) (s.fld F.EVC_TGTk_THR_THR k 0)

/-- The pair is halted, by debug or by a fault: never a target (R290, Table 11.7). -/
def State.halted (s : State) (k : Pair) : Bool := (s.pair k).halted || s.faulted k

/-- Source `n` is eligible for target `k` in every respect except IE (R290), under ceiling `c`; `active`: it is active on a target. -/
def State.fits (s : State) (c : Nat) (active : Bool) (n : SrcId) (k : Pair) : Bool :=
  let cfg := s.reg .EVC_SRCn_CFG n 0
  s.evc.pend.getLsbD n.val && !s.evc.mask.getLsbD n.val && !active && cfg.getLsbD (8 + k.val) && decide (getBits cfg 3 0 < c) &&
    (decide (s.srcOwner n = s.evc.tid[k]) || decide (s.evc.tid[k] = 0)) && !s.halted k

/-- Source `n` can be offered to target `k` (R290, R292): by the ceilings and active sources at the start of the lc, since a
completion or a threshold written in the cycle of an offer applies from the next (Table 11.6). -/
def State.eligible (s : State) (n : SrcId) (k : Pair) : Bool :=
  s.fits s.evc.ceil[k] (s.evc.busy.getLsbD n.val) n k && !s.evc.locked n && s.evc.ie[k]

/-- The four targets from the spread pointer on. -/
def spreadOrder (rr : Fin 4) : List Pair := [rr, rr + 1, rr + 2, rr + 3]

/-- The target a source chooses (R291): urgent, the largest ceiling, ties to the lower pair; spread, the first eligible at or
after the spread pointer. -/
def State.chooseTarget (s : State) (n : SrcId) : Option Pair :=
  let el := (List.finRange 4).filter fun k => s.eligible n k
  if s.flag F.EVC_SRCn_CFG_CLASS n 0 then
    el.foldl (fun b k => match b with
      | none => some k
      | some j => if s.evc.ceil[j] < s.evc.ceil[k] then some k else some j) none
  else (spreadOrder s.evc.rr).find? fun k => el.contains k

/-- The offers of this cycle (R291): for each target the source of lowest PRIO, then lowest number, that chose it. -/
def State.offers (s : State) : Vector (Option SrcId) 4 :=
  let cand := (List.finRange 512).filter fun (n : SrcId) => s.evc.pend.getLsbD n.val && !s.evc.mask.getLsbD n.val
  let chosen := cand.map fun n => (n, s.chooseTarget n)
  Vector.ofFn fun k : Pair =>
    (chosen.filter fun e => e.2 == some k).foldl (fun (b : Option SrcId) e => match b with
      | none => some e.1
      | some m => if s.fld F.EVC_SRCn_CFG_PRIO e.1 0 < s.fld F.EVC_SRCn_CFG_PRIO m 0 then some e.1 else some m) none

/-- The event controller with its ceilings and active sources as the next cycle's offers take them (R297). -/
def State.evcSeen (s : State) : EvcSt :=
  { s.evc with
    ceil := Vector.ofFn fun k : Pair => s.ceiling k
    busy := s.evc.act[0] ||| s.evc.act[1] ||| s.evc.act[2] ||| s.evc.act[3] }

/-- A source is offered to the pair in this cycle, or will be in the next. -/
def State.offeredSoon (s : State) (p : Pair) : Bool :=
  s.offers[p].isSome || ({ s with evc := s.evcSeen } : State).offers[p].isSome

/-- Source `n` is eligible for a pair in every respect except IE: a WAIT of the pair ends (R296). -/
def State.eligibleButIe (s : State) (p : Pair) (n : SrcId) : Bool := s.fits (s.ceiling p) (s.evc.active n) n p

end Sys2Proof.Machine
end

