-- ==== Sys2Proof/Machine/Flags.lean ====
section
/-! DEFINITION. The flags N, Z, C, V of PSW[31:28] (R254, R258 to R260, R269) and the branch conditions (R255). -/

namespace Sys2Proof.Machine

/-- The four flags. -/
structure Nzcv where
  n : Bool
  z : Bool
  c : Bool
  v : Bool
  deriving DecidableEq, Repr

/-- The flags of a PSW (Table 10.3). -/
def nzcvOf (psw : Word) : Nzcv := ⟨psw.getLsbD 31, psw.getLsbD 30, psw.getLsbD 29, psw.getLsbD 28⟩

/-- PSW[31:28] as four flags give them. -/
def Nzcv.bits (x : Nzcv) : Nat := x.n.toNat * 8 + x.z.toNat * 4 + x.c.toNat * 2 + x.v.toNat

/-- PSW with new flags, its other bits unchanged. -/
def withNzcv (psw : Word) (x : Nzcv) : Word := setBits psw 31 28 x.bits

/-- A result of an arithmetic, logical or shift operation with the flags it leaves. -/
structure AluOut where
  val : Word
  fl  : Nzcv
  deriving DecidableEq, Repr

/-- Addition with a carry in: C is the carry out, V the signed overflow (R258). -/
def addC (a b : Word) (cin : Bool) : AluOut :=
  let r := a + b + BitVec.ofNat 32 cin.toNat
  { val := r
    fl := { n := r.msb
            z := r == 0
            c := decide (2 ^ 32 ≤ a.toNat + b.toNat + cin.toNat)
            v := (a.msb == b.msb) && (r.msb != a.msb) } }

/-- Subtraction a − b − NOT cin: C is NOT borrow, V the signed overflow (R258). -/
def subC (a b : Word) (cin : Bool) : AluOut := addC a (~~~b) cin

/-- A logical or shift result: N and Z, with C and V as they were (R258). -/
def logic (r : Word) (old : Nzcv) : AluOut := { val := r, fl := { n := r.msb, z := r == 0, c := old.c, v := old.v } }

/-- The four shifts, by FN[1:0]: SHL, SHR, SAR, ROR by 0 to 31 (Table 10.5). -/
def shiftBy (kind : Fin 4) (a : Word) (n : Nat) : Word :=
  match kind with
  | 0 => a <<< n
  | 1 => a >>> n
  | 2 => a.sshiftRight n
  | 3 => a.rotateRight n

/-- Two-word results of multiply and divide. -/
structure MulOut where
  lo : Word
  hi : Word
  fl : Nzcv
  deriving DecidableEq, Repr

/-- MUL and MULU (R259): 64-bit product; N and Z from it, C and V clear. -/
def mulOut (signed : Bool) (a b : Word) : MulOut :=
  let p : BitVec 64 := if signed then BitVec.ofInt 64 (a.toInt * b.toInt) else BitVec.ofNat 64 (a.toNat * b.toNat)
  { lo := p.setWidth 32, hi := (p >>> 32).setWidth 32, fl := { n := p.msb, z := p == 0, c := false, v := false } }

/-- DIV and DIVU (R260): quotient truncated toward zero, remainder with the dividend's sign, the two cases that do not trap. -/
def divOut (signed : Bool) (a b : Word) : MulOut :=
  if b = 0 then
    { lo := 0xFFFFFFFF, hi := a, fl := { n := true, z := false, c := true, v := false } }
  else if signed && decide (a = 0x80000000 ∧ b = 0xFFFFFFFF) then
    { lo := 0x80000000, hi := 0, fl := { n := true, z := false, c := false, v := true } }
  else
    let q : Word := if signed then BitVec.ofInt 32 (Int.tdiv a.toInt b.toInt) else a / b
    let r : Word := if signed then BitVec.ofInt 32 (Int.tmod a.toInt b.toInt) else a % b
    { lo := q, hi := r, fl := { n := q.msb, z := q == 0, c := false, v := false } }

/-- The branch conditions of R255; 0xF is no condition. -/
def condHolds (cond : Fin 16) (x : Nzcv) : Bool :=
  match cond.val with
  | 0 => x.z
  | 1 => !x.z
  | 2 => x.c
  | 3 => !x.c
  | 4 => x.n
  | 5 => !x.n
  | 6 => x.v
  | 7 => !x.v
  | 8 => x.c && !x.z
  | 9 => !x.c || x.z
  | 10 => x.n == x.v
  | 11 => x.n != x.v
  | 12 => !x.z && (x.n == x.v)
  | 13 => x.z || (x.n != x.v)
  | 14 => true
  | _ => false

end Sys2Proof.Machine
end

