-- ==== Sys2Proof/Machine/Operands.lean ====
section
/-! DEFINITION. Operands of the NC32 instructions: registers of a copy, special registers, effective addresses (R253 to R257). -/

namespace Sys2Proof.Machine

/-- Reads a general register; g0 reads 0 (R253). -/
def Copy.gr (c : Copy) (r : Greg) : Word := if r = 0 then 0 else c.g[r]

/-- Writes a general register; a write to g0 is discarded (R253). -/
def Copy.setG (c : Copy) (r : Greg) (v : Word) : Copy := if r = 0 then c else { c with g := vset c.g r v }

/-- Reads an FP register. -/
def Copy.fr (c : Copy) (r : Freg) : BitVec 64 := c.f[r]

/-- Writes an FP register. -/
def Copy.setF (c : Copy) (r : Freg) (v : BitVec 64) : Copy := { c with f := vset c.f r v }

/-- The copy's flags. -/
def Copy.flags (c : Copy) : Nzcv := nzcvOf c.psw

/-- Sets the copy's flags. -/
def Copy.setFlags (c : Copy) (x : Nzcv) : Copy := { c with psw := withNzcv c.psw x }

/-- Writes a result and its flags. -/
def Copy.put (c : Copy) (d : Greg) (o : AluOut) : Copy := (c.setG d o.val).setFlags o.fl

/-- Writes a two-word result to gD and gD+1 with its flags (R259, R260). -/
def Copy.put2 (c : Copy) (d : Greg) (o : MulOut) : Copy :=
  ((c.setG d o.lo).setG (d + 1) o.hi).setFlags o.fl

/-- PSW.PRIV of a PSW word (R254). -/
def pswPriv (psw : Word) : Nat := getBits psw 9 8

/-- The privilege level a PRIV field names; 0b10 is not used and is read as Supervisor. -/
def privOf (n : Nat) : Priv := if n = 0 then .user else if n = 3 then .monitor else .supervisor

/-- The copy's privilege. -/
def Copy.priv (c : Copy) : Priv := privOf (pswPriv c.psw)

/-- PSW.IE. -/
def Copy.ie (c : Copy) : Bool := c.psw.getLsbD 4

/-- The bits of PSW that exist: flags, PRIV, IE (Table 10.3). -/
def pswMask : Word := 0xF0000310

/-- The bits of FPSR that exist and that MTS writes: FLAGS, ENABLE, RM (Table 10.3; PEND is set and cleared by hardware). -/
def fpsrMask : Word := 0x001F1F03

/-- The only stored field of TSBR is INDEX [18:8]; [19] reads 1 (R277). -/
def tsbrOf (w : Word) : Word := (w &&& 0x0007FF00) ||| 0x00080000

/-- Sign extension of a 16-bit immediate. -/
def sext16 (imm : BitVec 16) : Word := imm.signExtend 32

/-- Zero extension of a 16-bit immediate. -/
def zext16 (imm : BitVec 16) : Word := imm.setWidth 32

/-- Access size in bytes of an SZ code (R255). -/
def szBytes (sz : Fin 8) : Nat := if sz.val % 4 = 0 then 1 else if sz.val % 4 = 1 then 2 else 4

/-- A loaded value widened as SZ says (R255). -/
def szExtend (sz : Fin 8) (v : Nat) : Word :=
  if sz = 4 then (BitVec.ofNat 8 v).signExtend 32
  else if sz = 5 then (BitVec.ofNat 16 v).signExtend 32
  else BitVec.ofNat 32 v

/-- Displacement address (R256). -/
def Copy.eaDisp (c : Copy) (a : Greg) (imm : BitVec 16) : Word := c.gr a + sext16 imm

/-- Short address (R256). -/
def Copy.eaShort (c : Copy) (bk : Fin 4) (off : BitVec 16) : Word :=
  (((c.bank[bk]) &&& 0xFFFF) <<< 16) ||| zext16 off

/-- Modulo update (R256): gA + sext(STEP) reduced into MODB to MODB + MODL − 1 by one addition or subtraction of MODL. -/
def modUpdate (ga : Word) (step : BitVec 9) (modb modl : Word) : Word :=
  let t := (ga.toNat : Int) + step.toInt
  let lo := (modb.toNat : Int)
  let hi := lo + modl.toNat
  if t < lo then BitVec.ofInt 32 (t + modl.toNat)
  else if hi ≤ t then BitVec.ofInt 32 (t - modl.toNat)
  else BitVec.ofInt 32 t

/-- The low `k` bits of a number in reverse order. -/
def revBits : Nat → Nat → Nat
  | 0, _ => 0
  | k + 1, n => (n % 2) * 2 ^ k + revBits k (n / 2)

/-- Bit-reversed update (R256): the K-bit index above the access size steps in reversed order. -/
def brevUpdate (ga : Word) (step : BitVec 9) (k s : Nat) : Word :=
  let i := ga.toNat / 2 ^ s % 2 ^ k
  let j := (Int.emod ((revBits k i : Int) + step.toInt) ((2 ^ k : Nat) : Int)).toNat
  BitVec.ofNat 32 (ga.toNat - i * 2 ^ s + revBits k j * 2 ^ s)

/-- log2 of the access size. -/
def szLog (sz : Fin 8) : Nat := if sz.val % 4 = 0 then 0 else if sz.val % 4 = 1 then 1 else 2

/-- The pointer after a post-increment access: MODE 1 modulo, MODE 2 bit-reversed. -/
def Copy.postUpdate (c : Copy) (a : Greg) (mode n : Fin 4) (sz : Fin 8) (step : BitVec 9) : Word :=
  if mode = 1 then modUpdate (c.gr a) step c.modb[n] c.modl[n]
  else brevUpdate (c.gr a) step (getBits c.brev[n] 4 0) (szLog sz)

/-- A special register held by a copy (Table 10.2); TID, CYCLE and CYCLEH are the pair's. -/
def Copy.special (c : Copy) (n : Nat) : Word :=
  match n with
  | 0 => c.psw
  | 1 => c.epc
  | 2 => c.cause
  | 3 => c.faddr
  | 4 => c.fpsr
  | 5 => c.tsbr
  | 6 => c.evec
  | 8 => c.bank[0]
  | 9 => c.bank[1]
  | 10 => c.bank[2]
  | 11 => c.bank[3]
  | 12 => c.modb[0]
  | 13 => c.modb[1]
  | 14 => c.modb[2]
  | 15 => c.modb[3]
  | 16 => c.modl[0]
  | 17 => c.modl[1]
  | 18 => c.modl[2]
  | 19 => c.modl[3]
  | 20 => c.brev[0]
  | 21 => c.brev[1]
  | 22 => c.brev[2]
  | 23 => c.brev[3]
  | _ => 0

/-- Writes a special register of a copy; reserved bits stay 0 (R7, R253, R254, R256, R277, R280); numbers 24 to 26 are ignored. `user` limits PSW to its flags. -/
def Copy.setSpecial (c : Copy) (n : Nat) (user : Bool) (w : Word) : Copy :=
  match n with
  | 0 => { c with psw := if user then setBits c.psw 31 28 (getBits w 31 28) else w &&& pswMask }
  | 1 => { c with epc := w }
  | 2 => { c with cause := w &&& 0xFFFF00FF }
  | 3 => { c with faddr := w }
  | 4 => { c with fpsr := (c.fpsr &&& ~~~fpsrMask) ||| (w &&& fpsrMask) }
  | 5 => { c with tsbr := tsbrOf w }
  | 6 => { c with evec := w }
  | 8 => { c with bank := vset c.bank 0 (w &&& 0xFFFF) }
  | 9 => { c with bank := vset c.bank 1 (w &&& 0xFFFF) }
  | 10 => { c with bank := vset c.bank 2 (w &&& 0xFFFF) }
  | 11 => { c with bank := vset c.bank 3 (w &&& 0xFFFF) }
  | 12 => { c with modb := vset c.modb 0 w }
  | 13 => { c with modb := vset c.modb 1 w }
  | 14 => { c with modb := vset c.modb 2 w }
  | 15 => { c with modb := vset c.modb 3 w }
  | 16 => { c with modl := vset c.modl 0 w }
  | 17 => { c with modl := vset c.modl 1 w }
  | 18 => { c with modl := vset c.modl 2 w }
  | 19 => { c with modl := vset c.modl 3 w }
  | 20 => { c with brev := vset c.brev 0 (w &&& 0x1F) }
  | 21 => { c with brev := vset c.brev 1 (w &&& 0x1F) }
  | 22 => { c with brev := vset c.brev 2 (w &&& 0x1F) }
  | 23 => { c with brev := vset c.brev 3 (w &&& 0x1F) }
  | _ => c

end Sys2Proof.Machine
end

