-- ==== Sys2Proof/Machine/Exc.lean ====
section
/-! DEFINITION. A pair at an instruction boundary: lockstep mismatch, exception entry, the issue of an instruction and its
retirement (R246 to R251, R263, R274 to R286). -/

namespace Sys2Proof.Machine

/-! ## Halts and lockstep -/

/-- The reaction of R248: the pair halts with FAULT and the group recorded, and the device has an uncorrectable fault. -/
def State.mismatch (s : State) (p : Pair) (group : Nat) : State :=
  let s := s.setFld F.LP_LS_STAT_FAULT p 0 1
  let s := s.setFld F.LP_LS_STAT_GROUP p 0 group
  (s.unsched (.latmaxExpiry p)).uncorrectable p.val (some p)

/-- `body`, unless the two copies differ in a compared output (R248). -/
def State.compared (s : State) (p : Pair) (group : Nat) (same : Bool) (body : State → State) : State :=
  if same then body s else s.mismatch p group

/-- Applies a function to both copies of a pair (R243, R246). -/
def State.both (s : State) (p : Pair) (f : Copy → Copy) : State :=
  let x := s.pair p
  s.setPair p { x with main := f x.main, chk := f x.chk }

/-- Changes a pair's state. -/
def State.modPair (s : State) (p : Pair) (f : PairSt → PairSt) : State := s.setPair p (f (s.pair p))

/-- Clears a pair's reservation (R266). -/
def State.clearResv (s : State) (p : Pair) : State := s.modPair p fun x => { x with resv := none }

/-! ## Memory under ECC, reservations -/

/-- Bytes per ECC word of a memory: 4 in the TCMs, 8 in SRAM (R245, R301); the loop memory and queue RAM are given none. -/
def eccUnit (a : Nat) : Nat :=
  if 0x38000000 ≤ a ∧ a < 0x38400000 then 4 else if 0x20000000 ≤ a ∧ a < 0x21800000 then 8 else 0

/-- Reads one ECC word: true = a double-bit error, with the fault of R32; a single-bit error is corrected, written back and
counted (R245, R301). -/
def State.eccWord (s : State) (u : Nat) : Bool × State :=
  let tcm := decide (eccUnit u = 4)
  let p : Pair := Fin.ofNat 4 ((u - 0x38000000) / 0x100000)
  match SMap.find? s.upset u with
  | none => (false, s)
  | some true => (true, if tcm then s.uncorrectable 0x08 (some p) else s.uncorrectable 0x09 none)
  | some false =>
    let s : State := { s with upset := s.upset.drop u }
    (false, if tcm then s.bump F.LP_ECC_CNT_TCM_CE p 0 else s.bump F.IX_ECC_CNTb_CE ((u - 0x20000000) / 0x400000) 0)

/-- Bytes of memory that an access takes whole: an ECC word of a TCM, a beat of SRAM (R245, R300). -/
def eccSpan (a : Nat) : Nat := if eccUnit a = 8 then 16 else eccUnit a

/-- First addresses of the ECC words that an access of `n` bytes from `a` reads: those of every beat it touches in SRAM. -/
def eccUnits (a n : Nat) : List Nat :=
  let g := eccUnit a
  let w := eccSpan a
  if g = 0 then [] else (List.range ((a % w + n + w - 1) / w * (w / g))).map fun k => a / w * w + g * k

/-- Reads the ECC words of `n` bytes from `a`; true = some word has a double-bit error. -/
def State.eccRead (s : State) (a n : Nat) : Bool × State :=
  (eccUnits a n).foldl (fun x u => let t := x.2.eccWord u; (x.1 || t.1, t.2)) (false, s)

/-- A store overwrites whole beats and TCM words, and reads and modifies the others (R300). -/
def State.eccWrite (s : State) (a n : Nat) : Bool × State :=
  let w := eccSpan a
  (eccUnits a n).foldl (fun x u =>
    if a ≤ u / w * w ∧ u / w * w + w ≤ a + n then (x.1, { x.2 with upset := x.2.upset.drop u })
    else
      let t := x.2.eccWord u
      (x.1 || t.1, t.2)) (false, s)

/-- SRAM bank of an address. -/
def sramBank (a : Nat) : Option Bank :=
  if 0x20000000 ≤ a ∧ a < 0x21800000 then some (Fin.ofNat 6 ((a - 0x20000000) / 0x400000)) else none

/-- Master `m` asks the SRAM banks for the beats of `n` bytes from `a` (R300, R305): a beat that a write does not cover is read,
modified and written. One beat follows the other in the next cycle; a pair's load waits for its beats. -/
def State.beat (s : State) (m : Fin 13) (write load : Bool) (a n : Nat) : State :=
  let t := s.now
  (List.range ((a % 16 + n + 15) / 16)).foldl (fun s k =>
    let u := a / 16 * 16 + 16 * k
    match sramBank u with
    | some b => { s with ix := { s.ix with wait := vmod s.ix.wait b fun l =>
        l ++ [⟨m, write && !(decide (a ≤ u) && decide (u + 16 ≤ a + n)), load, t + 2 * k, false⟩] } }
    | none => s) s

/-- Bytes under ECC (R301): none where a double-bit error is among them. -/
def State.soundMem (s : State) (a n : Nat) : Option (List Byte) × State :=
  let t := s.eccRead a n
  (if t.1 then none else some (t.2.bytes a n), t.2)

/-- Reads `n` bytes of memory for master `m`: its beats, under ECC. -/
def State.getMem (s : State) (m : Fin 13) (a n : Nat) : Option (List Byte) × State := (s.beat m false false a n).soundMem a n

/-- An STC of pair `q` in this lc fails after all (R271): memory holds what it held, gD takes 0. -/
def State.stcUndo (s : State) (q : Pair) (r : StcRec) : State :=
  (s.setWord r.addr r.old).modPair q fun x =>
    match x.stall with
    | some l => { x with stc := none, stall := some { l with val := 0 } }
    | none => { x with stc := none, main := x.main.setG r.dest 0, chk := x.chk.setG r.dest 0 }

/-- What a store to granules `lo` to `hi` does to pair `q`, another master's: a reservation there is cleared (R266), an STC of the
same lc there fails (R271). -/
def State.snoopPair (s : State) (m : Option Pair) (lo hi : Nat) (q : Pair) : State :=
  let now := s.now
  let s := match (s.pair q).stc with
    | some r => if r.lc = now ∧ lo ≤ r.addr / 32 ∧ r.addr / 32 ≤ hi then s.stcUndo q r else s
    | none => s
  match (s.pair q).resv with
  | some g =>
    if lo ≤ g ∧ g ≤ hi then s.modPair q fun x => { x with resv := none, lost := m.map fun w => (now, g, w) } else s
  | none => s

/-- A store of `n` bytes by pair `m`, or by a master that is no pair: the other pairs' reservations and STCs (R266, R271). -/
def State.snoop (s : State) (m : Option Pair) (a n : Nat) : State :=
  (List.finRange 4).foldl (fun s (q : Pair) => if some q = m then s else s.snoopPair m (a / 32) ((a + n - 1) / 32) q) s

/-- Stores bytes into memory for a master that is no pair. -/
def State.putMem (s : State) (a : Nat) (bs : List Byte) : State :=
  ((s.eccWrite a bs.length).2.snoop none a bs.length).setBytes a bs

/-! ## The task-state block -/

/-- Global alias of the pair's local address 0x0000_0000 (Table 1.4). -/
def aliasBase (p : Pair) : Nat := 0x38000000 + p.val * 0x100000

/-- CORECLK cycles since entry into Ready (R253); two per lc. -/
def State.cycles (s : State) : Nat := 2 * (s.now - s.sys.readyAt)

/-- CYCLE (R253). -/
def State.cycleLo (s : State) : Word := BitVec.ofNat 32 s.cycles
/-- The word CYCLEH that a read of CYCLE latches (R253). -/
def State.cycleHi (s : State) : Word := BitVec.ofNat 32 (s.cycles / 2 ^ 32)

/-- The 64 words of a TSB (Table 11.3) as copy `c` would write them. -/
def tsbWords (c : Copy) (seq : Nat) (epc cause faddr : Word) (tid : Tenant) (cycle : Word) : List Word :=
  [BitVec.ofNat 32 (seq * 65536)] ++ (c.g.toList.drop 1) ++
  [c.psw, epc, cause, faddr, c.fpsr, BitVec.ofNat 32 tid.val, cycle, 0] ++
  c.bank.toList ++ c.modb.toList ++ c.modl.toList ++ c.brev.toList ++ List.replicate 8 0

/-- Stores words from address `a` upward. -/
def State.setWords (s : State) (a : Nat) : List Word → State
  | [] => s
  | w :: ws => State.setWords (s.setWord a w) (a + 4) ws

/-! ## Exception entry -/

/-- A cause to be taken: CODE, INFO, EPC, FADDR (Table 11.4). -/
structure Cause where
  code  : Nat
  info  : Nat
  epc   : Word
  faddr : Word
  deriving DecidableEq, Repr

/-- CAUSE word: INFO and CODE (R280). -/
def Cause.word (c : Cause) : Word := BitVec.ofNat 32 (c.info * 65536 + c.code)

/-- PRIV after entry (R274). -/
def entryPriv (c : Cause) (psw : Word) (tid : Tenant) : Nat :=
  if pswPriv psw = 3 ∨ (c.code = 2 ∧ 0xFF00 ≤ c.info ∧ tid = 0) then 3 else 1

/-- A fetch from outside the prediction bar's region ends the bar (R264). -/
def Pred.fetch (b : Pred) (a : Nat) : Pred := { b with bar := b.bar.filter fun r => decide (r.1 ≤ a ∧ a ≤ r.2) }

/-- Changes the predictors of both copies alike. -/
def PairSt.predict (x : PairSt) (f : Pred → Pred) : PairSt :=
  { x with main := { x.main with pred := f x.main.pred }, chk := { x.chk with pred := f x.chk.pred } }

/-- The pair fetches next from `a`. -/
def PairSt.fetchAt (x : PairSt) (a : Word) : PairSt := { x.predict (fun b => b.fetch a.toNat) with pc := a }

/-- Steps 4 to 6 of R275: TSB written, EPC, CAUSE, FADDR, PRIV, IE, ARMED, SEQ set, fetch from EVEC, whose address is compared
(G0). A snapshot of the lc holds the state before entry (Table 10.7). An entry during a STEP ends it at the first handler instruction
(Table 14.4). -/
def State.takeEntry (s : State) (p : Pair) (c : Cause) : State :=
  let x := s.pair p
  let seq := (s.fld F.LP_EXC_STAT_SEQ p 0 + 1) % 65536
  let wm := tsbWords x.main seq c.epc c.word c.faddr x.tid s.cycleLo
  let wc := tsbWords x.chk seq c.epc c.word c.faddr x.tid s.cycleLo
  s.compared p 3 (wm == wc && x.main.tsbr == x.chk.tsbr) fun s =>
    let t := aliasBase p + x.main.tsbr.toNat
    let s := ((s.eccWrite t 256).2.snoop (some p) t 256).setWords t wm
    let s := s.setFld F.LP_EXC_STAT_SEQ p 0 seq
    let s := s.setFld F.LP_EXC_STAT_ARMED p 0 1
    let s := s.both p fun k =>
      { k with
        epc := c.epc
        cause := c.word
        faddr := c.faddr
        psw := setBits (setBits k.psw 9 8 (entryPriv c k.psw x.tid)) 4 4 0 }
    let s := s.modPair p fun y =>
      { y with
        before := if y.before.any (fun b => decide (b.1 = s.now)) then y.before else some (s.now, x.main, x.chk)
        resv := none, slot := none, stall := none, waiting := false, haltReq := y.haltReq || y.step, step := false }
    s.compared p 0 ((x.main.evec &&& 0xFFFFFFFC) == (x.chk.evec &&& 0xFFFFFFFC)) fun s =>
      s.modPair p fun y => y.fetchAt (y.main.evec &&& 0xFFFFFFFC)

/-- The double fault (R284): no TSB, DOUBLE and DCODE set, the pair halts, an uncorrectable fault. -/
def State.doubleFault (s : State) (p : Pair) (code : Nat) : State :=
  let s := s.setFld F.LP_EXC_STAT_DOUBLE p 0 1
  let s := s.setFld F.LP_EXC_STAT_DCODE p 0 code
  s.uncorrectable (4 + p.val) (some p)

/-- Entry with a cause from the boundary on, FP operations complete: R251, R284, then R275. -/
def State.enterFrom (s : State) (p : Pair) (c : Cause) : State :=
  if s.flag F.LP_LS_STAT_LATPEND p 0 then s.mismatch p 7
  else if s.flag F.LP_EXC_STAT_ARMED p 0 then s.doubleFault p c.code
  else s.takeEntry p c

/-- The address at which execution resumes at this boundary: the branch of a slot, else pc (R263, R280). -/
def PairSt.resume (x : PairSt) : Word :=
  match x.slot with
  | some sl => sl.branch
  | none => x.pc

/-- The FP cause of an outstanding event (R268): EPC the first instruction not executed. -/
def fpCause (x : PairSt) (e : FpEvent) : Cause := ⟨0x0B, e.flags.toNat, x.resume, e.addr⟩

/-- The FP event whose trap is due or outstanding, oldest first (R268). -/
def PairSt.fpDue (x : PairSt) : Option FpEvent := x.fpPend.or x.fpOut

/-- PEND of a copy. -/
def Copy.setPend (c : Copy) (b : Bool) : Copy := { c with fpsr := setBits c.fpsr 24 24 b.toNat }

/-- An FP operation with an enabled exception is complete: PEND is set in each copy that raised one (R268). -/
def PairSt.pend (x : PairSt) (e : FpEvent) : PairSt :=
  { x with fpOut := none, fpPend := some e, main := x.main.setPend (decide (e.flags ≠ 0)), chk := x.chk.setPend (decide (e.chk ≠ 0)) }

/-- Delivery of an FP exception (R268), once its operation is complete: the TSB holds the state before entry, with PEND set (R278);
then the exception is off PEND. A copy that raises another exception writes another TSB (R249). -/
def State.takeFp (s : State) (p : Pair) (e : FpEvent) : State :=
  s.compared p 3 (decide (e.flags = e.chk)) fun s =>
    let s := s.modPair p fun x => x.pend e
    let s := s.enterFrom p (fpCause (s.pair p) e)
    (s.modPair p fun x => { x with fpPend := none }).both p fun k => k.setPend false

/-- Exception entry (R275): it first waits for outstanding FP operations, and an enabled exception among them is the
cause taken (R268). -/
def State.enter (s : State) (p : Pair) (c : Cause) : State :=
  match (s.pair p).fpDue with
  | some e => s.takeFp p e
  | none => s.enterFrom p c

/-- `body`, where both copies judge a privilege alike; else one of them alone takes an exception (G3, R249). -/
def State.privAs (s : State) (p : Pair) (f : Copy → Bool) (body : Bool → State → State) : State :=
  s.compared p 3 (f (s.pair p).main == f (s.pair p).chk) fun s => body (f (s.pair p).main) s

/-- A precise cause of the instruction at pc: EPC is the instruction, or its branch (Table 11.4). -/
def State.preciseFault (s : State) (p : Pair) (code info : Nat) (faddr : Word) : State :=
  s.enter p ⟨code, info, (s.pair p).resume, faddr⟩

/-- ILLEGAL (R255): FADDR the instruction address, INFO its upper half. -/
def State.illegal (s : State) (p : Pair) (w : Word) : State :=
  s.preciseFault p 0x03 (w.toNat / 65536) (s.pair p).pc

/-- PRIVILEGED. -/
def State.privileged (s : State) (p : Pair) : State := s.preciseFault p 0x04 0 (s.pair p).pc

/-! ## Boundaries -/

/-- The pair can issue: pairs run in this mode, and it is not halted, faulted, stalled by a load or by a store that waits for room in
the store buffer (R262), or by a refill (R313). -/
def State.coreUp (s : State) (p : Pair) : Bool :=
  s.mode.cores && !(s.pair p).halted && !s.faulted p && (s.pair p).stall.isNone && decide ((s.pair p).sbuf.length ≤ 4) &&
    decide ((s.pair p).fetchTo ≤ s.now)

/-- A waiting pair goes on (R296). -/
def State.wakes (s : State) (p : Pair) : Bool :=
  !(s.pair p).late.isEmpty || (List.finRange 512).any fun n => s.eligibleButIe p n

/-- An interrupt ends a WAIT (R296): the pair takes interrupts, and a source is offered to it, or will be when the event controller
sees its IE. -/
def State.interruptNext (s : State) (p : Pair) : Bool :=
  (s.pair p).main.ie && !s.flag F.LP_EXC_STAT_ARMED p 0 && (!s.evc.ie[p] || s.offeredSoon p)

/-- What happens when the pair is about to issue (R286, R296, R364, R372). -/
inductive Boundary
  /-- The instruction issues. -/
  | run
  /-- Nothing happens: the pair cannot issue. -/
  | hold
  /-- STORE_LATE is taken. -/
  | late (l : LateStore)
  /-- A pending FP exception is taken. -/
  | fp (e : FpEvent)
  /-- A pending recall is taken. -/
  | recall
  /-- A pending halt is taken. -/
  | halt
  deriving DecidableEq, Repr

/-- The boundary before the next instruction. Between a branch and its slot nothing asynchronous is taken (R263, R372). A halt comes after
an interrupt that is offered (Table 14.4). -/
def State.boundary (s : State) (p : Pair) : Boundary :=
  let x := s.pair p
  let armed := s.flag F.LP_EXC_STAT_ARMED p 0
  if !s.coreUp p then .hold
  else if x.slot.isSome then .run
  else
    match x.late, armed with
    | l :: _, false => .late l
    | _, _ =>
      match x.fpPend with
      | some e => .fp e
      | none =>
        if s.flag F.PTU_PAIRk_STAT_RECALLP p 0 && !armed then .recall
        else if x.haltReq then
          if s.interruptNext p then .hold else .halt
        else if x.waiting then
          if s.wakes p && !s.interruptNext p then .run else .hold
        else .run

/-- Takes the oldest late store error (R282), which comes before an FP exception that waits (R286); one of an operation still
outstanding turns the entry into its own (R268). -/
def State.takeLate (s : State) (p : Pair) (l : LateStore) : State :=
  let c : Cause := ⟨0x0A, l.tenant.val * 16 + l.tag.val, (s.pair p).resume, l.addr⟩
  if (s.pair p).fpOut.isSome then s.enter p c
  else (s.modPair p fun x => { x with late := x.late.drop 1 }).enterFrom p c

/-- Forced PFLUSH applies to a change between two tenants (R363). -/
def State.flushDue (s : State) (a b : Tenant) : Bool :=
  decide (s.fld F.FL_PL_LEVEL 0 0 ≠ 0) || s.flag F.PTU_TENt_CFG_PFL a 0 || s.flag F.PTU_TENt_CFG_PFL b 0

/-- Every counter weakly not-taken, history clear, return stack empty, prediction bar ended (R264). -/
def PairSt.flush (x : PairSt) : PairSt := x.predict fun _ => Pred.init

/-- A pair's TID changes (R363). -/
def State.switchTid (s : State) (p : Pair) (t : Tenant) : State :=
  let old := (s.pair p).tid
  if old = t then s
  else
    let s := s.count F.PTU_PAIRk_STAT_SWITCHES p 0
    let fl := s.flushDue old t
    s.modPair p fun x => let x := { x with tid := t }; if fl then x.flush else x

/-- Takes a recall (R364): entry with INTERRUPT 0x018A, PRIV Supervisor, TID 0. -/
def State.takeRecall (s : State) (p : Pair) : State :=
  if (s.pair p).fpDue.isSome || s.flag F.LP_LS_STAT_LATPEND p 0 then s.enter p ⟨0x01, 0x018A, (s.pair p).resume, 0⟩
  else
    let s := s.setFld F.PTU_PAIRk_STAT_RECALLP p 0 0
    let s := s.takeEntry p ⟨0x01, 0x018A, (s.pair p).resume, 0⟩
    let s := s.both p fun k => { k with psw := setBits k.psw 9 8 1 }
    s.switchTid p 0

/-- The pair halts for the debugger (R372): its reservation is cleared. -/
def State.takeHalt (s : State) (p : Pair) : State :=
  s.modPair p fun x => { x with halted := true, haltReq := false, step := false, resv := none }

/-- The state in which an instruction that issues takes effect: WAIT has ended, the STC before it stands. -/
def State.awake (s : State) (p : Pair) : State := s.modPair p fun x => { x with waiting := false, stc := none }

/-- The pair has entered an exception between two states. -/
def State.enteredTo (s t : State) (p : Pair) : Bool :=
  decide (s.fld F.LP_EXC_STAT_SEQ p 0 ≠ t.fld F.LP_EXC_STAT_SEQ p 0) ||
    (t.flag F.LP_EXC_STAT_DOUBLE p 0 && !s.flag F.LP_EXC_STAT_DOUBLE p 0)

/-- A halt at the boundary before an instruction of effect `body`: a cause of that instruction is taken first, and the pair halts at
the first handler instruction (Table 14.4). -/
def State.haltAt (s : State) (p : Pair) (body : State → State) : State :=
  let t := body (s.awake p)
  if s.enteredTo t p then t.emit (.haltTaken p) else s.takeHalt p

/-- An instruction of pair `p`: its effect `body` if the pair issues it; else the cause taken at the boundary, or nothing. -/
def issue (p : Pair) (body : State → State) (s : State) : Out :=
  match s.boundary p with
  | .run => .next (body (s.awake p))
  | .hold => .next s
  | .late l => .next (s.takeLate p l)
  | .fp e => .next (s.takeFp p e)
  | .recall => .next (s.takeRecall p)
  | .halt => .next (s.haltAt p body)

/-! ## Retirement -/

/-- A STEP ends with the instruction just executed, unless a slot follows (R372). -/
def PairSt.endStep (x : PairSt) : PairSt :=
  if x.step && x.slot.isNone then { x with step := false, halted := true, resv := none } else x

/-- The pair goes on after an instruction that is no branch: to the next word, or from a slot to the branch's outcome (R263). -/
def PairSt.retire (x : PairSt) : PairSt :=
  match x.slot with
  | some sl => { x.fetchAt sl.next with slot := none }.endStep
  | none => (x.fetchAt (x.pc + 4)).endStep

/-- Retires the pair's instruction. -/
def State.retire (s : State) (p : Pair) : State := s.modPair p PairSt.retire

/-- A branch, jump, call or return issues: its slot is the next word, after it execution goes to `next` (R263). -/
def PairSt.branchTo (x : PairSt) (next : Word) : PairSt :=
  { x.fetchAt (x.pc + 4) with slot := some ⟨x.pc, next⟩ }

/-- A Bcc that is not taken with AN = 1: its slot is not executed (R263). -/
def PairSt.annul (x : PairSt) : PairSt := (x.fetchAt (x.pc + 8)).endStep

/-- An instruction that only changes the two copies: it applies `f` to each and retires. -/
def State.compute (s : State) (p : Pair) (f : Copy → Copy) : State := (s.both p f).retire p

end Sys2Proof.Machine
end

