-- ==== Sys2Proof/Machine/Alu.lean ====
section
/-! DEFINITION. NC32 arithmetic, logic, shifts, multiply, divide and special-register moves (R253, R258 to R261). -/

namespace Sys2Proof.Machine

/-- gD = gA + gB; NZCV. -/
def execAdd (p : Pair) (d a b : Greg) (s : State) : Out :=
  issue p (fun s => s.compute p fun c => c.put d (addC (c.gr a) (c.gr b) false)) s

/-- gD = gA + gB + C; NZCV. -/
def execAdc (p : Pair) (d a b : Greg) (s : State) : Out :=
  issue p (fun s => s.compute p fun c => c.put d (addC (c.gr a) (c.gr b) c.flags.c)) s

/-- gD = gA − gB; NZCV, C = NOT borrow. -/
def execSub (p : Pair) (d a b : Greg) (s : State) : Out :=
  issue p (fun s => s.compute p fun c => c.put d (subC (c.gr a) (c.gr b) true)) s

/-- gD = gA − gB − NOT C; NZCV. -/
def execSbc (p : Pair) (d a b : Greg) (s : State) : Out :=
  issue p (fun s => s.compute p fun c => c.put d (subC (c.gr a) (c.gr b) c.flags.c)) s

/-- gA − gB, result discarded; NZCV. -/
def execCmp (p : Pair) (a b : Greg) (s : State) : Out :=
  issue p (fun s => s.compute p fun c => c.setFlags (subC (c.gr a) (c.gr b) true).fl) s

/-- gD = gA + sext(IMM16); NZCV. -/
def execAddi (p : Pair) (d a : Greg) (imm : BitVec 16) (s : State) : Out :=
  issue p (fun s => s.compute p fun c => c.put d (addC (c.gr a) (sext16 imm) false)) s

/-- gA − sext(IMM16), result discarded; NZCV. -/
def execCmpi (p : Pair) (a : Greg) (imm : BitVec 16) (s : State) : Out :=
  issue p (fun s => s.compute p fun c => c.setFlags (subC (c.gr a) (sext16 imm) true).fl) s

/-- AND of gA and gB; N and Z. -/
def execAnd (p : Pair) (d a b : Greg) (s : State) : Out :=
  issue p (fun s => s.compute p fun c => c.put d (logic (c.gr a &&& c.gr b) c.flags)) s

/-- OR of gA and gB; N and Z. -/
def execOr (p : Pair) (d a b : Greg) (s : State) : Out :=
  issue p (fun s => s.compute p fun c => c.put d (logic (c.gr a ||| c.gr b) c.flags)) s

/-- XOR of gA and gB; N and Z. -/
def execXor (p : Pair) (d a b : Greg) (s : State) : Out :=
  issue p (fun s => s.compute p fun c => c.put d (logic (c.gr a ^^^ c.gr b) c.flags)) s

/-- ANDN of gA and gB; N and Z. -/
def execAndn (p : Pair) (d a b : Greg) (s : State) : Out :=
  issue p (fun s => s.compute p fun c => c.put d (logic (c.gr a &&& ~~~(c.gr b)) c.flags)) s

/-- ANDI of gA and zero-extended IMM16; N and Z. -/
def execAndi (p : Pair) (d a : Greg) (imm : BitVec 16) (s : State) : Out :=
  issue p (fun s => s.compute p fun c => c.put d (logic (c.gr a &&& zext16 imm) c.flags)) s

/-- ORI of gA and zero-extended IMM16; N and Z. -/
def execOri (p : Pair) (d a : Greg) (imm : BitVec 16) (s : State) : Out :=
  issue p (fun s => s.compute p fun c => c.put d (logic (c.gr a ||| zext16 imm) c.flags)) s

/-- XORI of gA and zero-extended IMM16; N and Z. -/
def execXori (p : Pair) (d a : Greg) (imm : BitVec 16) (s : State) : Out :=
  issue p (fun s => s.compute p fun c => c.put d (logic (c.gr a ^^^ zext16 imm) c.flags)) s

/-- gD = IMM16 << 16; flags unchanged. -/
def execLui (p : Pair) (d : Greg) (imm : BitVec 16) (s : State) : Out :=
  issue p (fun s => s.compute p fun c => c.setG d (zext16 imm <<< 16)) s

/-- SHL of gA by gB[4:0]; N and Z. -/
def execShl (p : Pair) (d a b : Greg) (s : State) : Out :=
  issue p (fun s => s.compute p fun c => c.put d (logic (shiftBy 0 (c.gr a) (getBits (c.gr b) 4 0)) c.flags)) s

/-- SHR of gA by gB[4:0]; N and Z. -/
def execShr (p : Pair) (d a b : Greg) (s : State) : Out :=
  issue p (fun s => s.compute p fun c => c.put d (logic (shiftBy 1 (c.gr a) (getBits (c.gr b) 4 0)) c.flags)) s

/-- SAR of gA by gB[4:0]; N and Z. -/
def execSar (p : Pair) (d a b : Greg) (s : State) : Out :=
  issue p (fun s => s.compute p fun c => c.put d (logic (shiftBy 2 (c.gr a) (getBits (c.gr b) 4 0)) c.flags)) s

/-- ROR of gA by gB[4:0]; N and Z. -/
def execRor (p : Pair) (d a b : Greg) (s : State) : Out :=
  issue p (fun s => s.compute p fun c => c.put d (logic (shiftBy 3 (c.gr a) (getBits (c.gr b) 4 0)) c.flags)) s

/-- Shift of gA by an immediate count; N and Z. -/
def execShi (p : Pair) (d a : Greg) (kind : Fin 4) (count : Fin 32) (s : State) : Out :=
  issue p (fun s => s.compute p fun c => c.put d (logic (shiftBy kind (c.gr a) count) c.flags)) s

/-- Signed 64-bit product to gD and gD+1 (R259); an odd D is illegal (R255). -/
def execMul (p : Pair) (d a b : Greg) (s : State) : Out :=
  issue p (fun s =>
    if d.val % 2 = 1 then s.illegal p ((nc32Encode (.mul p d a b)).getD 0)
    else s.compute p fun c => c.put2 d (mulOut true (c.gr a) (c.gr b))) s

/-- Unsigned 64-bit product to gD and gD+1 (R259); an odd D is illegal (R255). -/
def execMulu (p : Pair) (d a b : Greg) (s : State) : Out :=
  issue p (fun s =>
    if d.val % 2 = 1 then s.illegal p ((nc32Encode (.mulu p d a b)).getD 0)
    else s.compute p fun c => c.put2 d (mulOut false (c.gr a) (c.gr b))) s

/-- Signed quotient and remainder (R260); an odd D is illegal (R255). -/
def execDiv (p : Pair) (d a b : Greg) (s : State) : Out :=
  issue p (fun s =>
    if d.val % 2 = 1 then s.illegal p ((nc32Encode (.div p d a b)).getD 0)
    else s.compute p fun c => c.put2 d (divOut true (c.gr a) (c.gr b))) s

/-- Unsigned quotient and remainder (R260); an odd D is illegal (R255). -/
def execDivu (p : Pair) (d a b : Greg) (s : State) : Out :=
  issue p (fun s =>
    if d.val % 2 = 1 then s.illegal p ((nc32Encode (.divu p d a b)).getD 0)
    else s.compute p fun c => c.put2 d (divOut false (c.gr a) (c.gr b))) s

/-- Reads a special register into gD (R253): TID, CYCLE and CYCLEH are the pair's; a read of CYCLE latches CYCLEH. Numbers
7 and 27 to 31 are illegal. -/
def execMfs (p : Pair) (d : Greg) (n : Fin 32) (s : State) : Out :=
  issue p (fun s =>
    if n.val = 7 ∨ 27 ≤ n.val then s.illegal p ((nc32Encode (.mfs p d n)).getD 0)
    else if n.val = 24 then
      s.compute p fun c => c.setG d (BitVec.ofNat 32 (s.pair p).tid.val)
    else if n.val = 25 then
      (s.modPair p fun x => { x with cycleh := s.cycleHi }).compute p fun c => c.setG d s.cycleLo
    else if n.val = 26 then
      s.compute p fun c => c.setG d (s.pair p).cycleh
    else s.compute p fun c => c.setG d (c.special n.val)) s

/-- MTS that the privilege level or R273 forbids (Tables 10.2, 11.1): EPC, CAUSE, FADDR, TSBR, EVEC at User; a PRIV of 0b10,
or of 0b11 at Supervisor or off T0, written to PSW above User. -/
def mtsForbidden (n : Nat) (priv : Priv) (tid : Tenant) (w : Word) : Bool :=
  match priv with
  | .user => decide (n = 1 ∨ n = 2 ∨ n = 3 ∨ n = 5 ∨ n = 6)
  | .supervisor => decide (n = 0) && (decide (pswPriv w = 2) || decide (pswPriv w = 3))
  | .monitor => decide (n = 0) && (decide (pswPriv w = 2) || (decide (pswPriv w = 3) && decide (tid ≠ 0)))

/-- Writes a special register (R253, R272, R273, R277, R283): TSBR clears ARMED even when it writes the value held; TSBR and
EVEC writes are compared outputs (G5). -/
def execMts (p : Pair) (a : Greg) (n : Fin 32) (s : State) : Out :=
  issue p (fun s =>
    let x := s.pair p
    if n.val = 7 ∨ 27 ≤ n.val then s.illegal p ((nc32Encode (.mts p a n)).getD 0)
    else s.privAs p (fun c => mtsForbidden n.val c.priv x.tid (c.gr a)) fun bad s =>
      if bad then s.privileged p
      else
      let same := !(decide (n.val = 5 ∨ n.val = 6)) || (x.main.gr a == x.chk.gr a)
      s.compared p 5 same fun s =>
        let s := if n.val = 5 then s.setFld F.LP_EXC_STAT_ARMED p 0 0 else s
        s.compute p fun c => c.setSpecial n.val (decide (c.priv = .user)) (c.gr a)) s

end Sys2Proof.Machine
end

