-- ==== Sys2Proof/Machine/Flash.lean ====
section
/-! DEFINITION. Flash: reads, wait states, commands with their journal, margin scrub, refresh, protection level (R308 to R326). -/

namespace Sys2Proof.Machine

/-! ## Places -/

/-- Changes a bank. -/
def State.modFB (s : State) (b : FBank) (f : FBankSt → FBankSt) : State :=
  { s with fl := { s.fl with banks := vmod s.fl.banks b f } }

/-- The address lies in flash (R308). -/
def inFlash (a : Nat) : Bool := decide (0x10000000 ≤ a) && decide (a < 0x12000000)

/-- Bank, sector and line of the bank of a flash address (R308). -/
def flBank (a : Nat) : FBank := Fin.ofNat 4 ((a - 0x10000000) / 0x800000)
/-- See `flBank`. -/
def flSector (a : Nat) : Nat := (a - 0x10000000) / 0x10000 % 128
/-- Line of 32 bytes in its bank. -/
def flLine (a : Nat) : Nat := (a - 0x10000000) / 32 % 262144
/-- First address of sector k of bank b. -/
def flBase (b : FBank) (k : Nat) : Nat := 0x10000000 + b.val * 0x800000 + k * 0x10000

/-- The bank executes a command, or protection lowering erases it (R316, R323). -/
def State.flWorks (s : State) (b : FBank) : Bool := s.fl.banks[b].cmd.isSome || s.fl.lower.isSome

/-- A command of the bank ended in this BUSCLK cycle: its OP code. -/
def State.flEnding (s : State) (b : FBank) : Option Nat :=
  match s.fl.banks[b].ended with
  | some (op, t) => if t / 2 = s.now / 2 then some op else none
  | none => none

/-- The bank is busy: up to the cycle in which the command ends, inclusive (R316). -/
def State.flBusy (s : State) (b : FBank) : Bool := s.flWorks b || (s.flEnding b).isSome

/-- Sector k of bank b is interrupted (R318). -/
def State.flIntr (s : State) (b : FBank) (k : Nat) : Bool :=
  (s.reg .FL_INTERRUPTEDj (4 * b.val + k / 32) 0).getLsbD (k % 32)

/-- Sets or clears a sector's interrupted bit. -/
def State.setIntr (s : State) (b : FBank) (k : Nat) (v : Bool) : State :=
  let j := 4 * b.val + k / 32
  s.setReg .FL_INTERRUPTEDj j 0 (setBits (s.reg .FL_INTERRUPTEDj j 0) (k % 32) (k % 32) (if v then 1 else 0))

/-- Replaces the bytes of [lo, lo + n). -/
def State.fillMem (s : State) (lo n : Nat) (f : Nat → Byte) : State := s.setBytes lo ((List.range n).map fun i => f (lo + i))

/-! ## Reads -/

/-- The busy word, where a read of the address returns it (R314, R318, Table 12.5). -/
def State.busyWord (s : State) (a : Nat) : Option Word :=
  let b := flBank a
  let x := s.fl.banks[b]
  let info := min 255 ((s.now - x.since) * 256 / max 1 x.dur)
  let mk (op i : Nat) : Option Word := some (BitVec.ofNat 32 (0xDEAD0000 + op * 256 + i))
  if s.fl.lower.isSome then mk 3 info
  else match x.cmd with
    | some (.program _ _) => mk 1 info
    | some (.erase _) => mk 2 info
    | none =>
      match s.flEnding b with
      | some op => mk op 255
      | none => if s.flIntr b (flSector a) then mk 4 (flSector a) else none

/-- A sector is queued for refresh unless it is queued or being refreshed (R309, R320, R322). -/
def State.flQueue (s : State) (b : FBank) (k : Nat) : State :=
  let x := s.fl.banks[b]
  if x.queue.contains k || (match x.refr with
    | some (j, _) => decide (j = k)
    | none => false) then s
  else s.modFB b fun x => { x with queue := x.queue ++ [k] }

/-- Refresh starts, or goes on, in a bank that is not busy (R321): how long its next step takes is free. -/
def State.flRefresh (s : State) (b : FBank) : State :=
  let x := s.fl.banks[b]
  let go (s : State) : State :=
    (s.sched (Config.flashTime s.fresh % 400000000 + 1) (.refreshStep b)).draw
  if s.flWorks b then s
  else match x.refr, x.queue with
    | some _, _ => if s.cal.any (fun e => decide (e.2 = .refreshStep b)) then s else go s
    | none, k :: q =>
      let s := s.modFB b fun x => { x with queue := q, refr := some (k, 1) }
      let s := (s.setFld F.FL_REFRESH_STAT_BANK 0 0 b.val).setFld F.FL_REFRESH_STAT_SECTOR 0 0 k
      go s
    | none, [] => s

/-- A read takes a line from the array (R309): a single-bit error is corrected, counted, and its sector queued for refresh once
four have been counted in it (R322); a double-bit error answers true, with the fault of R32 raised. -/
def State.flTouch (s : State) (a : Nat) : Bool × State :=
  let key := a / 32 * 32
  match SMap.find? s.upset key with
  | none => (false, s)
  | some true => (true, s.uncorrectable 0x0A none)
  | some false =>
    let b := flBank a
    let k := flSector a
    let s := s.bump F.FL_ECC_CNT_CE 0 0
    let n := s.fl.banks[b].ceSec.get k 0 + 1
    let s := s.modFB b fun x => { x with ceSec := x.ceSec.put k n 0 }
    (false, if 4 ≤ n then (s.flQueue b k).flRefresh b else s)

/-- What a read of flash gives: the busy word with its mark, a double-bit error, or the array's data. -/
inductive FlashData
  | busy (w : Word) | bad | ok
  deriving DecidableEq, Repr

/-- A read of the line that holds an address (R309, R314). -/
def State.flRead (s : State) (a : Nat) : FlashData × State :=
  match s.busyWord a with
  | some w => (.busy w, s)
  | none =>
    let r := s.flTouch a
    (if r.1 then .bad else .ok, r.2)

/-- A line is taken from a bank's stream buffers (R311): a stream whose last line it is or follows delivers it, with the line after
it fetched ahead; else a new stream replaces the least recently used of four. Most recently used first, by last line delivered
(DESIGN CHOICE, log entry 123). -/
def streamUse (l : List Nat) (line : Nat) : List Nat :=
  match l.find? fun x => decide (x = line ∨ x + 1 = line) with
  | some x => line :: l.erase x
  | none => line :: l.take 3

/-- A read that gave data went through the bank's streams. -/
def State.flStreamed (s : State) (a : Nat) (ok : Bool) : State :=
  if ok then s.modFB (flBank a) fun x => { x with streams := streamUse x.streams (flLine a) } else s

/-- A read of the line that holds an address by a master: DMA and the table fetch read through streams (R311), as a refill does; the
other masters' ports access the array directly (R312). -/
def State.flReadBy (s : State) (m : Fin 13) (a : Nat) : FlashData × State :=
  let r := s.flRead a
  (r.1, r.2.flStreamed a (decide (m.val = 4 ∨ m.val = 5) && decide (r.1 = .ok)))

/-! ## Registers -/

/-- What a read of FL_STAT shows: REFR and BUSY per bank (R316, R321). -/
def State.flStat (s : State) : Word :=
  let bits (p : FBank → Bool) : Nat := (List.finRange 4).foldl (fun n b => n + if p b then 2 ^ b.val else 0) 0
  setBits (setBits (s.reg .FL_STAT 0 0) 7 4 (bits fun b => s.fl.banks[b].refr.isSome)) 3 0 (bits s.flBusy)

/-- What a read of FL_WEAR shows: the erase count of the sector that holds FL_ADDR; outside flash 0. -/
def State.flWear (s : State) : Word :=
  let a := (s.reg .FL_ADDR 0 0).toNat
  if inFlash a then BitVec.ofNat 32 (min 65535 (s.fl.banks[flBank a].wear.get (flSector a) 0)) else 0

/-- A write to the FL block other than the key to FL_KEY (R315). -/
def State.flNoKey (s : State) : State := { s with fl := { s.fl with key := false } }

/-- A write to FL_STAT: W1C; any set bit of ERR clears the field; what hardware sets in this cycle stays (R9). -/
def State.flStatWrite (s : State) (v : Word) : State :=
  let c := s.came .FL_STAT 0 0
  let w := s.reg .FL_STAT 0 0 &&& ~~~(v &&& 0x30000 &&& ~~~c)
  (s.setReg .FL_STAT 0 0 (if (w &&& v &&& 0xFF00) ≠ 0 ∧ c &&& 0xFF00 = 0 then w &&& ~~~0xFF00 else w)).flNoKey

/-- A write to FL_WS: stored, or WSMIN with WSCLAMP set (R312). -/
def State.flWsWrite (s : State) (v : Word) : State :=
  let ws := getBits v 3 0
  let m := s.fld F.FL_WS_WSMIN 0 0
  (if ws < m then (s.setFld F.FL_WS_WS 0 0 m).raiseFld F.FL_STAT_WSCLAMP 0 0 1 else s.setFld F.FL_WS_WS 0 0 ws).flNoKey

/-- A write to FL_KEY (R315). -/
def State.flKeyWrite (s : State) (v : Word) : State := { s with fl := { s.fl with key := decide (v = 0x5AF0) } }

/-- Refuses a command (R315). -/
def State.flErr (s : State) (code : Nat) : State := s.raiseFld F.FL_STAT_ERR 0 0 code

/-! ## Commands -/

/-- The first ground on which a command with operation `op` is refused, by its code (R315, R316, R318). The spec ranks none of
them before another (DESIGN CHOICE, log entry 44). -/
def State.flRefusal (s : State) (r : Req) (op : Nat) : Option Nat :=
  let a := (s.reg .FL_ADDR 0 0).toNat
  let b := flBank a
  if !s.fl.key then some 0x01
  else if s.mode ≠ .maintenance then some 0x02
  else if op ≠ 1 ∧ op ≠ 2 then some 0x0A
  else if !inFlash a then some 0x09
  else if a % (if op = 1 then 32 else 0x10000) ≠ 0 then some 0x04
  else if !s.windowOk r .write a 1 then some 0x06
  else if s.flBusy b then some 0x03
  else if op = 1 ∧ s.flIntr b (flSector a) then some 0x08
  else if op = 1 ∧ s.fl.banks[b].progd.get (flLine a) false then some 0x05
  else none

/-- Reads of a bank in the BUSCLK cycle in which a command to it is accepted give the busy word (Table 12.8): a load that waits for its
data takes it, a refill stores nothing and causes BUSY_FETCH. -/
def State.flLateBusy (s : State) (b : FBank) (prog : Bool) : State :=
  s.cyc.foldl (fun s c => match c with
    | .load p b' x y =>
      if b' = b then s.modPair p fun z => { z with stall := z.stall.map fun l => { l with val := if prog then x else y } } else s
    | .fill p b' l =>
      if b' = b then
        (s.modPair p fun z => { z with icache := z.icache.filter fun k => decide (k.line ≠ l), fetchTo := 0 }).preciseFault p 0x08
          (if prog then 0x100 else 0x200) (s.pair p).pc
      else s
    | _ => s) s

/-- Starts a command in a bank: refresh pauses, the end is on the calendar with the outcome of its verify. -/
def State.flStart (s : State) (b : FBank) (c : FlashCmd) (rec : JRec) (maxLc : Nat) : State :=
  let d := Config.flashTime s.fresh % maxLc + 1
  let ok := Config.flashOk s.fresh
  let t := s.now
  let s := s.modFB b fun x => { x with cmd := some c, since := t, dur := d, jrow := rec :: x.jrow, streams := [] }
  let s := s.flLateBusy b (match c with
    | .program _ _ => true
    | .erase _ => false)
  ((s.unsched (.refreshStep b)).draw).sched d (.flashCommandDone b ok)

/-- A write to FL_CMD (R315, R316, R319). -/
def State.flCmd (s : State) (r : Req) (op : Nat) : State :=
  match s.flRefusal r op with
  | some code => (s.flErr code).flNoKey
  | none =>
    let s := s.flNoKey
    let a := (s.reg .FL_ADDR 0 0).toNat
    let b := flBank a
    if op = 1 then
      let data := (List.range 8).flatMap fun i => Word.bytes (s.reg .FL_DATAi i 0)
      let s := s.modFB b fun x => { x with progd := x.progd.put (flLine a) true false }
      s.flStart b (.program a data) (.progStart a) 16000
    else s.flStart b (.erase (flSector a)) (.eraseStart (flSector a)) 32000000

/-- FL_CMD with OP program (R316). -/
def execFlashProgram (r : Req) (s : State) : Out := regCmd r .write .FL_CMD 0 0 (fun s => s.flCmd r 1) s

/-- FL_CMD with OP erase (R316). -/
def execFlashErase (r : Req) (s : State) : Out := regCmd r .write .FL_CMD 0 0 (fun s => s.flCmd r 2) s

/-- FL_KEY (R315). -/
def execFlKeyWrite (r : Req) (v : Word) (s : State) : Out := regCmd r .write .FL_KEY 0 0 (fun s => s.flKeyWrite v) s

/-- FL_WS (R312). -/
def execFlWsWrite (r : Req) (v : Word) (s : State) : Out := regCmd r .write .FL_WS 0 0 (fun s => s.flWsWrite v) s

/-- The record belongs to sector k of bank b. -/
def JRec.ofSector (b : FBank) (k : Nat) : JRec → Bool
  | .eraseStart j => decide (j = k)
  | .progStart a => decide (a / 0x10000 = flBase b k / 0x10000)
  | .remap _ => false

/-- An erase completes: the sector reads 0xFF, its records are spent, its interrupted bit clears, its count rises
(R316, R318). -/
def State.flErased (s : State) (b : FBank) (k : Nat) : State :=
  let lo := flBase b k
  let s := s.clearMem lo (lo + 0x10000)
  let s : State := { s with upset := s.upset.filter fun e => !(decide (lo ≤ e.1) && decide (e.1 < lo + 0x10000)) }
  let s := s.modFB b fun x =>
    { x with jrow := x.jrow.filter fun r => !r.ofSector b k
             progd := x.progd.filter fun e => decide (e.1 / 2048 ≠ k)
             wear := x.wear.put k (x.wear.get k 0 + 1) 0 }
  s.setIntr b k false

/-- The end of a command in a bank (R316). -/
def State.flDone (s : State) (b : FBank) (ok : Bool) : State :=
  match s.fl.banks[b].cmd with
  | none => s
  | some c =>
    let s := s.unschedAll fun i => match i with
      | .flashCommandDone b' _ => decide (b' = b)
      | _ => false
    let op := match c with
      | .program _ _ => 1
      | .erase _ => 2
    let now := s.now
    let s := s.modFB b fun x => { x with cmd := none, ended := some (op, now) }
    let s :=
      if ok then
        let s := match c with
          | .program a d => (s.setBytes a d).modFB b fun x => { x with jrow := x.jrow.filter fun r => decide (r ≠ JRec.progStart a) }
          | .erase k => s.flErased b k
        (s.raiseFld F.FL_STAT_DONE 0 0 1).evcRaise 0x198
      else
        let f := Config.flashUnverified s.fresh
        let s := match c with
          | .program a _ => s.fillMem a 32 f
          | .erase k => s.fillMem (flBase b k) 0x10000 f
        (((s.draw).setFld F.FL_STAT_DONE 0 0 0).flErr 0x07).evcRaise 0x199
    let s := s.flRefresh b
    if s.flashBusy then s
    else
      let s := if s.sys.retReq then s.emit .retentionEntry else s
      match s.mode, s.sys.faultReq with
      | .maintenance, some (sub, p) => s.enterSafeHold 1 sub p
      | _, _ => s

/-- FLASH_COMMAND_DONE (R316): the end of a bank's command, as its verify turns out. -/
def execFlashCommandDone (b : FBank) (ok : Bool) (s : State) : Out := .next (s.flDone b ok)

/-! ## Protection level -/

/-- Starts the bulk erase of R323 in all four banks; how long it takes is free within Table 12.2. -/
def State.plErase (s : State) (level : Nat) : State :=
  let d := Config.flashTime s.fresh % 140000000 + 1
  let t := s.now
  let s := (s.draw).unschedAll fun i => match i with
    | .refreshStep _ => true
    | _ => false
  let s : State := { s with fl := { s.fl with lower := some level
                                              banks := s.fl.banks.map fun x => { x with since := t, dur := d, streams := [] } } }
  s.sched d .plLowerDone

/-- A request for a protection level (R323): by Monitor under R315, or by an authenticated debug session. Code 0x03 is refused
with BADOP; a requester of neither kind with WINDOW (DESIGN CHOICE, log entry 44). -/
def State.plReq (s : State) (r : Req) (level : Nat) : State :=
  let dbg := r.isDebug && s.flag F.DBG_STAT_AUTH 0 0
  let key := s.fl.key
  let s := s.flNoKey
  if !dbg && !key then s.flErr 0x01
  else if !dbg && decide (s.mode ≠ .maintenance) then s.flErr 0x02
  else if level = 3 then s.flErr 0x0A
  else if !dbg && (r.isDebug || (decide (r.level ≠ .monitor) && !r.sysAgent) ||
      !s.windowOk r .write (s.reg .FL_ADDR 0 0).toNat 1) then s.flErr 0x06
  else if (List.finRange 4).any s.flBusy then s.flErr 0x03
  else if s.fld F.FL_PL_LEVEL 0 0 ≤ level then { s with fl := { s.fl with nextPl := level } }
  else s.plErase level

/-- FL_PL_REQ (R323). -/
def execFlPlReq (r : Req) (level : BitVec 2) (s : State) : Out :=
  regCmd r .write .FL_PL_REQ 0 0 (fun s => s.plReq r level.toNat) s

/-- A bank after its bulk erase: its auxiliary array is erased and one erase cycle of every sector is counted (Table 12.2). -/
def FBankSt.bulkErased (b : FBankSt) : FBankSt :=
  { FBankSt.init with
    wear := (List.range 128).foldl (fun (w : SMap Nat) k => w.put k (b.wear.get k 0 + 1) 0) []
    spareWear := b.spareWear + 1 }

/-- End of the lowering of the protection level (R323): flash and its auxiliary arrays erased, SRAM and TCM cleared, the new
level written, Reset. -/
def execPlLowerDone (s : State) : Out :=
  match s.fl.lower with
  | none => .next s
  | some l =>
    let s : State := { s with fl := { s.fl with banks := s.fl.banks.map FBankSt.bulkErased, nextPl := l, lower := none }
                              sys := { s.sys with jrnl := [] } }
    .next { s.toReset with mem := []
                           upset := [] }

/-! ## Margin scrub and refresh -/

/-- Maintenance services of flash run: from Blank onward but Retention (Table 12.7). -/
def State.flServices (s : State) : Bool := decide (s.mode ≠ .reset) && decide (s.mode ≠ .retention)

/-- The first line at or after `l` of a sector that is not interrupted, and whether the end of the bank lies between; none if
every sector is interrupted. -/
def State.nextLine (s : State) (b : FBank) (l : Nat) : Option (Nat × Bool) :=
  let k := l / 2048
  let free (j : Nat) : Bool := !s.flIntr b (j % 128)
  if free k then some (l, false)
  else (List.range 128).findSome? fun i =>
    if free (k + 1 + i) then some ((k + 1 + i) % 128 * 2048, decide (128 ≤ k + 1 + i)) else none

/-- One line of a bank is read at margin (R320); a line that reads differently queues its sector. A busy bank is not read. -/
def State.marginLine (s : State) (b : FBank) (differs : Bool) : State :=
  if s.flServices && !s.flWorks b then
    match s.nextLine b s.fl.banks[b].mpos with
    | none => s
    | some (l, w) =>
      let s := if w then s.count F.FL_MARGIN_STAT_PASSES 0 0 else s
      let r := s.flTouch (flBase b 0 + l * 32)
      let s := r.2
      let s := if differs then s.flQueue b (l / 2048) else s
      let s := if l + 1 = 262144 then s.count F.FL_MARGIN_STAT_PASSES 0 0 else s
      let s := s.modFB b fun x => { x with mpos := (l + 1) % 262144 }
      s.flRefresh b
  else s

/-- MARGIN_SCRUB_LINE (R320). -/
def execMarginScrubLine (b : FBank) (differs : Bool) (s : State) : Out := .next (s.marginLine b differs)

/-- The addresses of a sector read other cells from now on, whose lines are as the copy to them left them: corrected, but for one that
could not be (DESIGN CHOICE, log entry 143). -/
def State.flRenew (s : State) (lo : Nat) : State :=
  { s with upset := s.upset.filter fun e => e.2 || !(decide (lo ≤ e.1) && decide (e.1 < lo + 0x10000)) }

/-- The bytes that the addresses of a sector read, by offset. -/
def State.flCopy (s : State) (lo : Nat) : SMap Byte :=
  (s.mem.filter fun e => decide (lo ≤ e.1) && decide (e.1 < lo + 0x10000)).map fun e => (e.1 - lo, e.2)

/-- A copy of a sector reads every line of it (R309). -/
def State.flCopyRead (s : State) (lo : Nat) : State :=
  ((s.upset.filter fun e => decide (lo ≤ e.1) && decide (e.1 < lo + 0x10000)).map (·.1)).foldl (fun s a => (s.flTouch a).2) s

/-- What refresh step `n` does in a bank (Table 12.6): from REMAP to REFRESH_DONE the sector's addresses read the spare. -/
def State.flStep (s : State) (b : FBank) (k n : Nat) : State :=
  let lo := flBase b k
  match n with
  | 1 =>
    let c := s.flCopy lo
    (s.flCopyRead lo).modFB b fun x => { x with spare := c }
  | 2 =>
    let c := s.flCopy lo
    (s.flRenew lo).modFB b fun x => { x with own := c, jrow := .remap k :: x.jrow }
  | 3 => s.modFB b fun x => { x with own := [] }
  | 4 =>
    let c := s.flCopy lo
    (s.flCopyRead lo).modFB b fun x => { x with spare := c, own := c }
  | _ =>
    (s.flRenew lo).modFB b fun x =>
      { x with own := []
               jrow := x.jrow.filter fun r => decide (r ≠ .remap k)
               wear := x.wear.put k (x.wear.get k 0 + 1) 0
               spareWear := x.spareWear + 1
               ceSec := x.ceSec.put k 0 0 }

/-- A refresh step completes: its record is written and the next step starts (R321, R322, Table 12.6). -/
def execRefreshStep (b : FBank) (s : State) : Out :=
  if s.flServices && !s.flWorks b then
    match s.fl.banks[b].refr with
    | none => .next s
    | some (k, n) =>
      let last := decide (5 ≤ n)
      let s := (s.flStep b k n).modFB b fun x => { x with refr := if last then none else some (k, n + 1) }
      let s := s.unsched (.refreshStep b)
      .next ((if last then s.count F.FL_REFRESH_STAT_COUNT 0 0 else s).flRefresh b)
  else .next s

/-! ## Power-up -/

/-- The journal scan before Blank (R318, R319, R322): sectors with a start record and no done record are interrupted; a remap
without its end resumes at step 3. -/
def State.flScan (s : State) : State :=
  (List.finRange 4).foldl (fun s (b : FBank) =>
    let s := s.fl.banks[b].jrow.foldl (fun s r => match r with
      | .eraseStart k => s.setIntr b k true
      | .progStart a => s.setIntr b (flSector a) true
      | .remap _ => s) s
    s.flRefresh b) s

end Sys2Proof.Machine
end

