-- ==== Sys2Proof/Machine/Queue.lean ====
section
/-! DEFINITION. Queues, buffer pool and semaphores (R340 to R353). -/

namespace Sys2Proof.Machine

/-! ## Queues -/

/-- k of queue q (R340). -/
def State.qK (s : State) (q : QId) : Nat := s.fld F.Qn_CFG_LOG2D q 0
/-- Number of slots. -/
def State.qDepth (s : State) (q : QId) : Nat := 2 ^ s.qK q
/-- Read pointer. -/
def State.qRd (s : State) (q : QId) : Nat := s.fld F.Qn_PTR_RD q 0
/-- Write pointer. -/
def State.qWr (s : State) (q : QId) : Nat := s.fld F.Qn_PTR_WR q 0
/-- Fill F = (WR − RD) mod 2 ^ (k + 1) (R340). -/
def State.qFill (s : State) (q : QId) : Nat :=
  (s.qWr q + 2 * s.qDepth q - s.qRd q % (2 * s.qDepth q)) % (2 * s.qDepth q)
/-- Word offset in queue RAM of the slot of pointer `ptr` (R340). -/
def State.qSlot (s : State) (q : QId) (ptr : Nat) : Nat := s.fld F.Qn_CFG_BASE q 0 + ptr % s.qDepth q
/-- Byte address of a queue RAM word offset. -/
def qAddr (slot : Nat) : Nat := 0x30380000 + 4 * slot
/-- Tags of a slot. -/
def State.qTags (s : State) (slot : Nat) : BitVec 2 := s.qtag.get slot 0
/-- The queue is a credit queue. -/
def State.qCredit (s : State) (q : QId) : Bool := s.flag F.Qn_CFG_CREDIT q 0

/-- Moves a pointer. -/
def State.qSetPtr (s : State) (f : Fld) (q : QId) (ptr : Nat) : State := s.setFld f q 0 (ptr % (2 * s.qDepth q))

/-- Raises the fill event if F has risen from HI − 1 to HI (R348). -/
def State.qFillEvent (s : State) (q : QId) (before : Nat) : State :=
  if s.qFill q = s.fld F.Qn_MARK_HI q 0 ∧ before + 1 = s.qFill q then s.evcRaise (Fin.ofNat 512 (0x080 + q.val)) else s

/-- Writes a slot at WR with its tags and moves WR (R340, R341). -/
def State.qWrite (s : State) (q : QId) (w : Word) (tags : BitVec 2) : State :=
  let slot := s.qSlot q (s.qWr q)
  let before := s.qFill q
  let s := s.setWord (qAddr slot) w
  let s := { s with qtag := s.qtag.put slot tags 0 }
  (s.qSetPtr F.Qn_PTR_WR q (s.qWr q + 1)).qFillEvent q before

/-- A dropped item (R344): DROPS counts it, and the newest gap marker or a new one in the free slot records it. -/
def State.qDrop (s : State) (q : QId) : State :=
  let s := s.bump F.Qn_DROPS_COUNT q 0
  let slot := s.qSlot q (s.qWr q + s.qDepth q - 1)
  let w := s.word (qAddr slot)
  let free := decide (s.qFill q < s.qDepth q)
  if (s.qTags slot).getLsbD 1 && decide (0 < s.qFill q) then
    if getBits w 15 0 < 65535 then s.setWord (qAddr slot) (w + 1)
    else if free then s.qWrite q 1 2
    else s.setWord (qAddr slot) (w ||| 0x10000)
  else if free then s.qWrite q 1 2
  else s

/-- Pops of a queue in this BUSCLK cycle: a push of the cycle is judged on F before them (R354). -/
def State.cycPops (s : State) (q : QId) : Nat := s.cyc.countP fun c => match c with
  | .pop k => decide (k = q)
  | _ => false

/-- Pushes of a queue in this BUSCLK cycle, oldest first, with what stood before each. -/
def State.cycPushes (s : State) (q : QId) : List (Word × Bool × Word × Word × Word × Word) :=
  s.cyc.reverse.filterMap fun c => match c with
    | .push k w e p t d g => if k = q then some (w, e, p, t, d, g) else none
    | _ => none

/-- A push to a queue and whether it was dropped under R344 (R343 to R345, R354): the credits of a credit queue cover it. -/
def State.qPush (s : State) (q : QId) (w : Word) (eop : Bool) : Bool × State :=
  if s.flag F.Qn_STAT_DROPPING q 0 then
    (false, if eop then s.setFld F.Qn_STAT_DROPPING q 0 0 else s)
  else if s.qCredit q then (false, s.qWrite q w (if eop then 1 else 0))
  else if s.qFill q + s.cycPops q + 2 ≤ s.qDepth q then (false, s.qWrite q w (if eop then 1 else 0))
  else (true, s.qDrop q)

/-- The tenant may push (R342). -/
def State.mayPush (s : State) (t : Tenant) (q : QId) : Bool := decide (s.fld F.Qn_CFG_PRODT q 0 / 2 ^ t.val % 2 = 1)

/-- Address of the newest slot. -/
def State.qNewest (s : State) (q : QId) : Nat := qAddr (s.qSlot q (s.qWr q + s.qDepth q - 1))

/-- A push, its record for the rest of the cycle, and whether it was dropped. -/
def State.qPushDrop (s : State) (q : QId) (w : Word) (eop : Bool) : Bool × State :=
  let c := CycAcc.push q w eop (s.reg .Qn_PTR q 0) (s.reg .Qn_STAT q 0) (s.reg .Qn_DROPS q 0) (s.word (s.qNewest q))
  let x := s.qPush q w eop
  (x.1, { x.2 with cyc := c :: x.2.cyc })

/-- A push, and its record for the rest of the cycle. -/
def State.qPushRec (s : State) (q : QId) (w : Word) (eop : Bool) : State := (s.qPushDrop q w eop).2

/-- A bus push (R342): a credit queue answers with a bus error; a tenant not in PRODT is ignored and counted. -/
def State.qBusPush (s : State) (r : Req) (q : QId) (w : Word) (eop : Bool) : State :=
  if s.qCredit q then s.busError
  else if s.mayPush r.tenant q then s.qPushRec q w eop
  else s.bump F.Q_ERR_CNT_FOREIGN 0 0

/-- Takes the head word (R346): an empty queue gives 0 and counts UNDER. -/
def State.qPop (s : State) (q : QId) : Word × State :=
  if s.qFill q = 0 then (0, s.bump F.Qn_UNDER_COUNT q 0)
  else (s.word (qAddr (s.qSlot q (s.qRd q))), s.qSetPtr F.Qn_PTR_RD q (s.qRd q + 1))

/-- The requester may pop and command the queue: its owner, or the debug port (R342, R370). -/
def State.mayPop (s : State) (r : Req) (q : QId) : Bool := r.isDebug || decide (r.tenant = s.queueOwner q)

/-- A pop in the cycle of a push finds the queue as it was before it (R354): items that the pushes of the cycle added. -/
def State.cycAdded (s : State) (q : QId) : Nat :=
  match s.cycPushes q with
  | [] => 0
  | x :: _ => (s.qWr q + 2 * s.qDepth q - getBits x.2.2.1 31 16) % (2 * s.qDepth q)

/-- A pop, and its record for the rest of the cycle: items pushed in this cycle are not there yet (R354). -/
def State.qPopRec (s : State) (q : QId) : Word × State :=
  if s.qFill q ≤ s.cycAdded q then (0, s.bump F.Qn_UNDER_COUNT q 0)
  else
    let x := s.qPop q
    (x.1, { x.2 with cyc := .pop q :: x.2.cyc })

/-- A bus read of Qn_HEAD. -/
def State.qBusPop (s : State) (r : Req) (q : QId) : Word × State :=
  if !s.mayPop r q then (0, s.bump F.Q_ERR_CNT_FOREIGN 0 0) else s.qPopRec q

/-- The tags a read of Qn_HEADTAG shows (R346). -/
def State.qHeadTag (s : State) (q : QId) : Word :=
  if s.qFill q = 0 then 0
  else BitVec.ofNat 32 ((s.qTags (s.qSlot q (s.qRd q))).toNat * 2 + 1)

/-- How many slots from `ptr` on DROP_PKT passes among `n`: past the first EOP, or up to the first gap marker; none if
neither is there (R345). -/
def State.qPacket (s : State) (q : QId) : Nat → Nat → Option Nat
  | 0, _ => none
  | n + 1, ptr =>
    let t := s.qTags (s.qSlot q ptr)
    if t.getLsbD 1 then some 0
    else if t.getLsbD 0 then some 1
    else (s.qPacket q n (ptr + 1)).map (· + 1)

/-- DROP_PKT (R345). -/
def State.qDropPkt (s : State) (q : QId) : State :=
  match s.qPacket q (s.qFill q) (s.qRd q) with
  | some n => s.qSetPtr F.Qn_PTR_RD q (s.qRd q + n)
  | none => (s.qSetPtr F.Qn_PTR_RD q (s.qWr q)).setFld F.Qn_STAT_DROPPING q 0 1

/-- DROP_PKT acts before the pushes of its cycle, which are judged in the state that results (R354). -/
def State.qDropFirst (s : State) (q : QId) : State :=
  match s.cycPushes q with
  | [] => s.qDropPkt q
  | (w, e, p, t, d, g) :: xs =>
    let s := ((s.setFld F.Qn_PTR_WR q 0 (getBits p 31 16)).setFld F.Qn_STAT_DROPPING q 0 (getBits t 3 3)).setReg .Qn_DROPS q 0 d
    let s := (s.setWord (s.qNewest q) g).qDropPkt q
    let s : State := { s with cyc := s.cyc.filter fun c => match c with
      | .push k _ _ _ _ _ _ => decide (k ≠ q)
      | _ => true }
    ((w, e, p, t, d, g) :: xs).foldl (fun s x => s.qPushRec q x.1 x.2.1) s

/-- FLUSH: RD = WR (Table 13.6). -/
def State.qFlush (s : State) (q : QId) : State := s.qSetPtr F.Qn_PTR_RD q (s.qWr q)

/-- A command to the queue: by its owner, or T0 at Monitor; any other is ignored and counted (R342, R358). -/
def State.qCommand (s : State) (r : Req) (q : QId) (f : State → State) : State :=
  if r.owns (s.queueOwner q) then f s else s.bump F.Q_ERR_CNT_FOREIGN 0 0

/-- A write to Qn_CTRL: DROP_PKT, then FLUSH. -/
def State.qCtrlWrite (s : State) (r : Req) (q : QId) (v : Word) : State :=
  s.qCommand r q fun s =>
    let s := if v.getLsbD 0 then s.qDropFirst q else s
    if v.getLsbD 1 then s.qFlush q else s

/-- What a read of Qn_STAT shows. -/
def State.qStat (s : State) (q : QId) : Word :=
  let f := s.qFill q
  let b (x : Bool) (k : Nat) : Nat := if x then 2 ^ k else 0
  BitVec.ofNat 32 (f * 65536 + b (s.flag F.Qn_STAT_DROPPING q 0) 3 + b (s.flag F.Qn_STAT_REQ q 0) 2 +
    b (decide (f = s.qDepth q)) 1 + b (decide (f = 0)) 0)

/-- Row of a write to Qn_TAIL. -/
def execQueuePush (r : Req) (q : QId) (w : Word) (s : State) : Out :=
  regCmd r .write .Qn_TAIL q 0 (fun s => s.qBusPush r q w false) s

/-- Row of a write to Qn_TAIL_EOP. -/
def execQueuePushEop (r : Req) (q : QId) (w : Word) (s : State) : Out :=
  regCmd r .write .Qn_TAIL_EOP q 0 (fun s => s.qBusPush r q w true) s

/-- Row of a read of Qn_HEAD. -/
def execQueuePop (r : Req) (q : QId) (s : State) : Out :=
  regCmd r .read .Qn_HEAD q 0 (fun s => let x := s.qBusPop r q; x.2.answer x.1) s

/-- Row of a FLUSH write to Qn_CTRL. -/
def execQueueFlush (r : Req) (q : QId) (s : State) : Out :=
  regCmd r .write .Qn_CTRL q 0 (fun s => s.qCtrlWrite r q 2) s

/-- Row of a DROP_PKT write to Qn_CTRL. -/
def execDropPkt (r : Req) (q : QId) (s : State) : Out :=
  regCmd r .write .Qn_CTRL q 0 (fun s => s.qCtrlWrite r q 1) s

/-! ## Buffer pool -/

/-- Buffer size in bytes; LOG2SZ = 0 disables the pool (R349). -/
def State.bufSize (s : State) : Nat := 2 ^ s.fld F.Q_POOL_CFG_LOG2SZ 0 0
/-- The pool is enabled. -/
def State.poolOn (s : State) : Bool := s.flag F.Q_POOL_CFG_LOG2SZ 0 0
/-- Address of the pool. -/
def State.poolBase (s : State) : Nat := (s.reg .Q_POOL_BASE 0 0).toNat

/-- The buffer that starts at an address, if one does. -/
def State.bufAt (s : State) (a : Nat) : Option (Fin 4096) :=
  let o := a - s.poolBase
  if h : s.poolOn = true ∧ s.poolBase ≤ a ∧ o % s.bufSize = 0 ∧ o / s.bufSize < 4096 then
    some ⟨o / s.bufSize, h.2.2.2⟩ else none

/-- The buffer is allocated. -/
def State.bufHeld (s : State) (i : Fin 4096) : Bool := s.flag F.Q_POOL_TAGi_ALLOC i 0
/-- Owner or last owner of a buffer. -/
def State.bufOwner (s : State) (i : Fin 4096) : Tenant := Fin.ofNat 8 (s.fld F.Q_POOL_TAGi_OWNER i 0)

/-- Raises POOL_FAULT_Tt (R350). -/
def State.poolFault (s : State) (t : Tenant) : State := s.evcRaise (Fin.ofNat 512 (0x180 + t.val))

/-- Another answer for the load that a pair waits for; a read that was a command has been answered. -/
def State.reanswer (s : State) (q : Pair) (w : Word) : State :=
  s.setPair q { s.pair q with stall := (s.pair q).stall.map fun l => { l with val := w.setWidth 64 } }

/-- Address of a buffer. -/
def State.bufAddr (s : State) (i : Fin 4096) : Word := BitVec.ofNat 32 (s.poolBase + i.val * s.bufSize)

/-- The lowest free buffer (R349). -/
def State.bufFree (s : State) : Option (Fin 4096) :=
  if s.poolOn then (List.finRange 4096).find? (fun i => !s.bufHeld i) else none

/-- Allocates a buffer to a tenant, or raises POOL_EMPTY where there is none (R349). -/
def State.bufTake (s : State) (t : Tenant) : Option (Fin 4096) → Word × State
  | some i =>
    let s' := s.setReg .Q_POOL_TAGi i 0 (BitVec.ofNat 32 (8 + t.val))
    (s.bufAddr i, s'.setFld F.Q_POOL_STAT_FREE 0 0 (s'.fld F.Q_POOL_STAT_FREE 0 0 - 1))
  | none => (0xFFFFFFFF, s.evcRaise 0x188)

/-- Pairs above `p` that a read of this cycle allocated a buffer to, with the buffer, in rising order. -/
def State.allocsAbove (s : State) (p : Pair) : List (Pair × Fin 4096) :=
  (List.finRange 4).filterMap fun q =>
    if p < q then
      s.cyc.findSome? fun c => match c with
        | .alloc x i => if x = q ∧ s.bufHeld i = true then some (q, i) else none
        | _ => none
    else none

/-- Deals buffers to the pairs that read in one cycle, the lower number the lower buffer (R354): tags, answers. -/
def State.bufDeal (s : State) : List (Pair × Tenant) → List (Fin 4096) → State
  | [], _ => s
  | (q, _) :: ps, [] => (s.reanswer q 0xFFFFFFFF).bufDeal ps []
  | (q, t) :: ps, i :: is =>
    let s := (s.setReg .Q_POOL_TAGi i 0 (BitVec.ofNat 32 (8 + t.val))).reanswer q (s.bufAddr i)
    ({ s with cyc := .alloc q i :: s.cyc } : State).bufDeal ps is

/-- A read of Q_POOL_ALLOC (R349): the lowest free buffer, or 0xFFFF_FFFF with POOL_EMPTY. Of two pairs in one cycle the lower one
receives the lower buffer, whichever came first (R354). -/
def State.poolAlloc (s : State) (r : Req) : Word × State :=
  let j := s.bufFree
  let x := s.bufTake r.tenant j
  match r.pair with
  | none => x
  | some p =>
    match s.allocsAbove p, j with
    | [], none => x
    | [], some i => (x.1, { x.2 with cyc := .alloc p i :: x.2.cyc })
    | above, _ =>
      let all := (above.map (·.2)) ++ j.toList
      let is := (List.finRange 4096).filter fun i => all.contains i
      let s' : State := { x.2 with cyc := x.2.cyc.filter fun c => match c with
        | .alloc q _ => decide (q ≤ p)
        | _ => true }
      ((is.head?.map s.bufAddr).getD 0xFFFFFFFF,
        s'.bufDeal ((p, r.tenant) :: above.map fun y => (y.1, s.bufOwner y.2)) is)

/-- A foreign free or give of a buffer owned by another tenant (R350). -/
def State.poolForeign (s : State) (i : Fin 4096) : State :=
  (s.bump F.Q_POOL_ERR_FOREIGN 0 0).poolFault (s.bufOwner i)

/-- A write to Q_POOL_FREE (R350). -/
def State.poolFree (s : State) (t : Tenant) (a : Word) : State :=
  match s.bufAt a.toNat with
  | none => s.bump F.Q_POOL_ERR_FOREIGN 0 0
  | some i =>
    if !s.bufHeld i then (s.bump F.Q_POOL_ERR_DOUBLE 0 0).poolFault (s.bufOwner i)
    else if s.bufOwner i = t then
      (s.setFld F.Q_POOL_TAGi_ALLOC i 0 0).setFld F.Q_POOL_STAT_FREE 0 0 (s.fld F.Q_POOL_STAT_FREE 0 0 + 1)
    else s.poolForeign i

/-- A write to Q_POOL_GIVE (R351). -/
def State.poolGive (s : State) (t : Tenant) (v : Word) : State :=
  match s.bufAt (v &&& 0xFFFFFF00).toNat with
  | none => s.bump F.Q_POOL_ERR_FOREIGN 0 0
  | some i =>
    if s.bufHeld i && decide (s.bufOwner i = t) then s.setFld F.Q_POOL_TAGi_OWNER i 0 (getBits v 2 0)
    else s.poolForeign i

/-- Row of a read of Q_POOL_ALLOC. -/
def execPoolAlloc (r : Req) (s : State) : Out :=
  regCmd r .read .Q_POOL_ALLOC 0 0 (fun s => let x := s.poolAlloc r; x.2.answer x.1) s

/-- Row of a write to Q_POOL_FREE. -/
def execPoolFree (r : Req) (a : Word) (s : State) : Out :=
  regCmd r .write .Q_POOL_FREE 0 0 (fun s => s.poolFree r.tenant a) s

/-- Row of a write to Q_POOL_GIVE. -/
def execPoolGive (r : Req) (v : Word) (s : State) : Out :=
  regCmd r .write .Q_POOL_GIVE 0 0 (fun s => s.poolGive r.tenant v) s

/-! ## Semaphores -/

/-- A pair above `p` that acquired the semaphore by a read of this cycle. -/
def State.semTaker (s : State) (p : Pair) (n : Fin 64) : Option Pair :=
  (List.finRange 4).find? fun q => decide (p < q) && s.cyc.contains (.got q n) && decide (s.fld F.Q_SEMn_PAIR n 0 = q.val)

/-- Pair `p` acquires the semaphore. -/
def State.semTake (s : State) (p : Pair) (n : Fin 64) (w : Word) : State :=
  ({ s with cyc := .got p n :: s.cyc } : State).setReg .Q_SEMn n 0 w

/-- A read of Q_SEMn (R352): a pair acquires a free semaphore and reads GOT = 1; any other read shows the state with GOT = 0. Of
several pairs that read in one cycle the lowest acquires it, whichever came first. -/
def State.semRead (s : State) (r : Req) (n : Fin 64) : Word × State :=
  match r.pair with
  | some p =>
    let w := BitVec.ofNat 32 (r.tenant.val * 4096 + p.val * 512 + 256)
    if s.flag F.Q_SEMn_HELD n 0 then
      match s.semTaker p n with
      | some q =>
        let s : State := { s with cyc := .want q n :: s.cyc.filter fun c => c != .got q n }
        (w ||| 1, (s.semTake p n w).reanswer q w)
      | none => (s.reg .Q_SEMn n 0, { s with cyc := .want p n :: s.cyc })
    else (w ||| 1, s.semTake p n w)
  | none => (s.reg .Q_SEMn n 0, s)

/-- The lowest pair that read the semaphore in this cycle and found it held. -/
def State.semWaiter (s : State) (n : Fin 64) : Option Pair := (List.finRange 4).find? fun p => s.cyc.contains (.want p n)

/-- A release applies before a read of its cycle (R354): the pair that reads acquires, and its answer says so. -/
def State.semRelease (s : State) (n : Fin 64) : State :=
  match s.semWaiter n with
  | none => s.setReg .Q_SEMn n 0 0
  | some p =>
    let w := BitVec.ofNat 32 ((s.pair p).tid.val * 4096 + p.val * 512 + 256)
    (s.semTake p n w).reanswer p (w ||| 1)

/-- A write of Q_SEMn (R352): 0 by the holding pair releases it; by any other master it is ignored and counted. -/
def State.semWrite (s : State) (r : Req) (n : Fin 64) (v : Word) : State :=
  let holds := match r.pair with
    | some p => s.flag F.Q_SEMn_HELD n 0 && decide (s.fld F.Q_SEMn_PAIR n 0 = p.val)
    | none => false
  if holds then (if v = 0 then s.semRelease n else s) else s.bump F.Q_ERR_CNT_SEMREL 0 0

/-- A write of Q_SEM_FORCE (R353): by T0 at Monitor releases the semaphore; at any other privilege ignored. -/
def State.semForce (s : State) (r : Req) (v : Word) : State :=
  if r.t0mon then s.semRelease (Fin.ofNat 64 (getBits v 5 0)) else s

/-- Row of a read of Q_SEMn. -/
def execSemAcquire (r : Req) (n : Fin 64) (s : State) : Out :=
  regCmd r .read .Q_SEMn n 0 (fun s => let x := s.semRead r n; x.2.answer x.1) s

/-- Row of a write to Q_SEMn. -/
def execSemRelease (r : Req) (n : Fin 64) (v : Word) (s : State) : Out :=
  regCmd r .write .Q_SEMn n 0 (fun s => s.semWrite r n v) s

/-- Row of a write to Q_SEM_FORCE. -/
def execSemForce (r : Req) (v : Word) (s : State) : Out :=
  regCmd r .write .Q_SEM_FORCE 0 0 (fun s => s.semForce r v) s

end Sys2Proof.Machine
end

