-- ==== Sys2Proof/Machine/HostPort.lean ====
section
/-! DEFINITION. The host port: frames and responses, STATUS, MSG_PUT, MSG_GET (R422, R423). -/

namespace Sys2Proof.Machine

/-- STATUS values of a response (R422). -/
inductive HpStatus
  | ok | busy | crcErr | badCmd | mode | seqErr | denied | gap
  deriving DecidableEq, Repr

/-- Code of a STATUS value. -/
def HpStatus.code : HpStatus → Nat
  | .ok => 0
  | .busy => 1
  | .crcErr => 2
  | .badCmd => 3
  | .mode => 4
  | .seqErr => 5
  | .denied => 6
  | .gap => 7

/-- Answers a frame (Table 16.5). -/
def State.hpRespond (s : State) (cmd : Byte) (f : HpFrame) (st : HpStatus) (payload : List Byte) : State :=
  { s with hp := some ⟨cmd, f.seq, (s.reg .TW_GEN 0 0).setWidth 16, BitVec.ofNat 8 st.code,
      BitVec.ofNat 8 s.sys.mode.code, payload⟩ }

/-- The bytes of a response frame that the host clocks out (Table 16.5): 0xA5, the fields, LEN, the payload, the CRC-16 of all before
it. -/
def HpResp.wire (r : HpResp) : List Byte :=
  let bs : List Byte := [0xA5, r.cmd] ++ leBytes r.seq.toNat 2 ++ leBytes r.gen.toNat 2 ++ [r.status, r.mode] ++
    leBytes r.payload.length 2 ++ r.payload
  bs ++ leBytes (crc16 bs).toNat 2

/-- The frame that the port answers with, no bytes where it answers nothing. -/
def State.hpOut (s : State) : List Byte := (s.hp.map HpResp.wire).getD []

/-- What a frame comes to at the port: cut, wrong CRC, or LEN payload bytes (R422). -/
inductive HpRx
  | cut | bad | good (payload : List Byte)
  deriving DecidableEq, Repr

/-- The bytes of a command frame, CRC included (Table 16.5). -/
def hpBytes (f : HpFrame) (cmd : Byte) (payload : List Byte) : List Byte :=
  [BitVec.ofNat 8 (f.width.val * 64), cmd] ++ leBytes f.seq.toNat 2 ++ leBytes f.len.toNat 2 ++ [0, 0] ++ payload ++
    leBytes f.crc.toNat 2

/-- Receives a frame (R422): the CRC covers every byte before it. -/
def hpReceive (f : HpFrame) (cmd : Byte) (payload : List Byte) : HpRx :=
  let bs := hpBytes f cmd payload
  let n := 8 + f.len.toNat
  if bs.length < n + 2 then .cut
  else if (crc16 (bs.take n)).toNat = halfOfBytes (bs.drop n) then .good ((bs.drop 8).take f.len.toNat)
  else .bad

/-- A frame whose HP_CS_N rises early (R422). -/
def State.hpCut (s : State) : State := { s.bump F.HP_ERR_CNT_CUT 0 0 with hp := none }

/-- The port answers frames in this mode (Table 1.7). -/
def State.hpLive (s : State) : Bool := decide (s.sys.mode ≠ .reset ∧ s.sys.mode ≠ .retention)

/-- A frame with command `cmd`: not answered in Reset and Retention; cut or with a wrong CRC it has no effect; else `body` on
its payload. -/
def hpCmd (f : HpFrame) (cmd : Byte) (payload : List Byte) (body : List Byte → State → State) (s : State) : Out :=
  if s.hpLive then
    match hpReceive f cmd payload with
    | .cut => .next s.hpCut
    | .bad => .next ((s.bump F.HP_ERR_CNT_CRCERR 0 0).hpRespond cmd f .crcErr [])
    | .good p => .next (body p s)
  else .next { s with hp := none }

/-- The refusal of a command that needs a running device: BUSY before Ready, else MODE (R416, R423). -/
def State.hpRefusal (s : State) : HpStatus :=
  match s.sys.mode with
  | .blank => .busy
  | .loading => .busy
  | .verify => .busy
  | _ => .mode

/-- HP_FRAME_CUT (R422). -/
def execHpFrameCut (s : State) : Out := .next (if s.hpLive then s.hpCut else { s with hp := none })

/-- HP_BADCMD (R423): CMD is none of Table 16.6. In Blank, Loading and Verify too it is answered BADCMD, where Table 1.7 and R416
have all else BUSY (DESIGN CHOICE, log entry 121). -/
def execHpBadcmd (f : HpFrame) (cmd : Byte) (payload : List Byte) (s : State) : Out :=
  if [0x01, 0x02, 0x03, 0x10, 0x11, 0x20, 0x30].contains cmd.toNat then .next s
  else hpCmd f cmd payload (fun _ s => s.hpRespond cmd f .badCmd []) s

/-- HP_STATUS (R423, Table 16.6): the registers are peeked. -/
def execHpStatus (f : HpFrame) (s : State) : Out :=
  hpCmd f 0x01 [] (fun _ s =>
    let ws : List Word := [s.sysMode, s.reg .SYS_START 0 0, s.reg .SYS_SAFE 0 0, s.reg .SYS_ADMIT 0 0, s.reg .TW_STAT 0 0,
      s.reg .TW_GEN 0 0, s.reg .TW_HO_EPOCH 0 0, s.reg .TW_EPOCH_ACKED 0 0]
    s.hpRespond 0x01 f .ok (ws.flatMap Word.bytes)) s

/-! ## Messages -/

/-- Words of a byte list, four bytes each; a rest of fewer than four is dropped. -/
def bytesToWords : List Byte → List Word
  | a :: b :: c :: d :: bs => wordOfBytes [a, b, c, d] :: bytesToWords bs
  | _ => []

/-- Pushes words, EOP on the last; answers how many were dropped (R344). -/
def State.qPushAll (s : State) (q : QId) : List Word → Nat × State
  | [] => (0, s)
  | [w] =>
    let r := s.qPushDrop q w true
    (if r.1 then 1 else 0, r.2)
  | w :: ws =>
    let r := s.qPushDrop q w false
    let t := State.qPushAll r.2 q ws
    ((if r.1 then 1 else 0) + t.1, t.2)

/-- MSG_PUT (R423): pushes as a system agent under the tenant of HP_CFG; a queue that takes no push from it takes nothing
(R342). -/
def execMsgPut (f : HpFrame) (data : List Byte) (s : State) : Out :=
  hpCmd f 0x10 data (fun p s =>
    if !s.mode.cores then s.hpRespond 0x10 f s.hpRefusal []
    else if p.length < 4 ∨ 1024 < p.length ∨ p.length % 4 ≠ 0 then s.hpRespond 0x10 f .badCmd []
    else
      let q : QId := Fin.ofNat 256 (s.fld F.HP_CFG_INQ 0 0)
      let t : Tenant := Fin.ofNat 8 (s.fld F.HP_CFG_TENANT 0 0)
      let r := if s.qCredit q then (0, s)
        else if s.mayPush t q then s.qPushAll q (bytesToWords p)
        else (0, s.bumpBy F.Q_ERR_CNT_FOREIGN 0 0 (p.length / 4))
      r.2.hpRespond 0x10 f .ok (leBytes r.1 4)) s

/-- Pops words up to and including an EOP, not past a gap marker, at most `n`. -/
def State.qPopPacket (s : State) (q : QId) : Nat → List Word × State
  | 0 => ([], s)
  | n + 1 =>
    if s.qFill q ≤ s.cycAdded q then ([], s)
    else
      let t := s.qTags (s.qSlot q (s.qRd q))
      if t.getLsbD 1 then ([], s)
      else
        let r := s.qPopRec q
        if t.getLsbD 0 then ([r.1], r.2)
        else
          let u := State.qPopPacket r.2 q n
          (r.1 :: u.1, u.2)

/-- MSG_GET (R423): a head gap marker is popped alone, with STATUS GAP. -/
def execMsgGet (f : HpFrame) (s : State) : Out :=
  hpCmd f 0x11 [] (fun _ s =>
    if !s.mode.cores then s.hpRespond 0x11 f s.hpRefusal []
    else
      let q : QId := Fin.ofNat 256 (s.fld F.HP_CFG_OUTQ 0 0)
      if s.queueOwner q ≠ Fin.ofNat 8 (s.fld F.HP_CFG_TENANT 0 0) then
        (s.bump F.Q_ERR_CNT_FOREIGN 0 0).hpRespond 0x11 f .ok []
      else if s.cycAdded q < s.qFill q ∧ (s.qTags (s.qSlot q (s.qRd q))).getLsbD 1 = true then
        let r := s.qPopRec q
        r.2.hpRespond 0x11 f .gap (Word.bytes r.1)
      else
        let r := s.qPopPacket q 256
        r.2.hpRespond 0x11 f .ok (r.1.flatMap Word.bytes)) s

end Sys2Proof.Machine
end

