-- ==== Sys2Proof/Machine/System.lean ====
section
/-! DEFINITION. The system controller: Reset and power-good, clock loss, SAFE_N, Safe-Hold requests, mode requests, Retention
entry, the end of a debug session, the TAP instructions (R19, R30, R374, R376, R412 to R415, R432 to R436). -/

namespace Sys2Proof.Machine

/-! ## Reset and power-up -/

/-- RESET_N_ASSERT (R30). -/
def execResetNAssert (s : State) : Out := .next s.toReset

/-- Reset threshold of a rail in mV (Table 16.1). -/
def State.railReset (s : State) (r : Rail) : Nat :=
  match r with
  | .vddcore => if s.sys.mode = .retention then 680 else 740
  | .vddioA33 => 2950
  | .vddioB33 => 2950
  | .vddioA18 => 1600
  | .vddioB18 => 1600
  | .vdda => 3050
  | .vdda18 => 1650
  | .vddpll => 740
  | .vddser => 840

/-- SUPPLY_FALL (R412): a rail stands at `mV`. -/
def execSupplyFall (r : Rail) (mV : Nat) (s : State) : Out := .next (if mV < s.railReset r then s.toReset else s)

/-- POWER_GOOD (R414): Table 16.2, from Reset to Blank; a LOWER record restarts R323 (R324). -/
def execPowerGood (xin50 : Bool) (s : State) : Out :=
  if s.sys.mode = .reset then
    let s := (s.setFld F.SYS_CLK_STAT_XIN_SEL 0 0 (if xin50 then 2 else 1)).flScan
    let s : State := { s with sys := { s.sys with mode := .blank, prev := .reset, changes := 0 } }
    let s := s.setFld F.TW_STAT_LINK 0 0 1
    .next (match s.fl.lower with
      | some l => s.plErase l
      | none => s)
  else .next s

/-! ## Clock loss and SAFE_N -/

/-- CLOCK_LOST (R19): Safe-Hold with CAUSE CLOCK, and every clock but the internal oscillator's stops, so that nothing is due
after this lc, of which further causes of Safe-Hold still count (Table 16.12); the port clock is that oscillator (Table 12.3). Without the clocks (Reset, Retention) nothing is watched. -/
def execClockLost (s : State) : Out :=
  if s.mode = .reset ∨ s.mode = .retention then .next s
  else
    let s := (((s.enterSafeHold 5 0 none).setFld F.SYS_CLK_STAT_CLK_LOST 0 0 1).setFld F.SYS_CLK_STAT_PLL_LOCK 0 0 0).setFld F.FL_WS_WSMIN 0 0 0
    .next (s.mark (RegName.SYS_CLK_STAT.addr 0 0) false)

/-- SAFE_N acts (R415): Ready, the Run modes, Handover. -/
def State.safeNActs (s : State) : Bool := decide (s.mode = .ready) || s.mode.run

/-- Safe-Hold has been entered in this lc: a cause of a lower code is still recorded (Table 16.12). -/
def State.holdNow (s : State) : Bool := decide (s.mode = .safeHold) && s.marked (RegName.SYS_SAFE.addr 0 0) false

/-- SAFE_N_FALL (R415). -/
def execSafeNFall (s : State) : Out :=
  let s : State := { s with sys := { s.sys with safeNLow := true } }
  .next (if s.safeNActs then ((s.evcRaise 0x1E1).pwmForceAll).sched 16 .safeNTimeout else s)

/-- SAFE_N_TIMEOUT (R415): 16 consecutive lc low. -/
def execSafeNTimeout (s : State) : Out :=
  .next (if (s.safeNActs || s.holdNow) && s.sys.safeNLow then (s.unsched .safeNTimeout).enterSafeHold 3 0 none else s)

/-- SAFE_N_RISE (R415): short of 16 lc a glitch is counted; the pins leave the safe pattern at their period starts. In the lc
that follows 16 lc low, Safe-Hold is entered all the same. -/
def execSafeNRise (s : State) : Out :=
  let now := s.now
  let short := s.cal.any fun e => decide (e.2 = .safeNTimeout) && decide (now < e.1)
  let full := s.cal.any fun e => decide (e.2 = .safeNTimeout) && decide (e.1 ≤ now)
  let s : State := { s with sys := { s.sys with safeNLow := false } }
  let s := s.unsched .safeNTimeout
  .next (if full && (s.safeNActs || s.holdNow) then s.enterSafeHold 3 0 none else if !s.safeNActs then s else if short then s.bump F.SYS_SAFE_GLITCH 0 0 else s)

/-- SAFE_REQUEST (R432): the control domain runs. -/
def execSafeRequest (_k : Fin 8) (s : State) : Out := .next (if s.mode.live then s.enterSafeHold 2 0 none else s)

/-! ## Debug sessions -/

/-- Releases a halted pair (R369, R372): its reservation is cleared, its signature sweep starts anew. -/
def State.dbgRelease (s : State) (p : Pair) : State :=
  let was := (s.pair p).halted
  let s := s.modPair p fun x =>
    { x with halted := false, haltReq := false, step := false, resv := if was then none else x.resv }
  if was then s.sched 0 (.sweepSnapshot p) else s

/-- Ends the debug session (R376). -/
def State.dbgEnd (s : State) : State :=
  let s := (s.setFld F.DBG_STAT_AUTH 0 0 0).setFld F.DBG_STAT_STATE 0 0 0
  let s := s.unsched .authComplete
  let s : State := { s with dbg := { s.dbg with authBusy := false } }
  (List.finRange 4).foldl State.dbgRelease s

/-- The TAP loads an instruction. -/
def State.tapLoad (s : State) (i : TapInstr) : State := { s with dbg := { s.dbg with tap := i } }

/-- EXTEST, SAMPLE and PRELOAD are accepted (R374). -/
def State.tapOpen (s : State) : Bool :=
  decide (s.sys.mode = .blank) && s.dbgFull

/-- TAP_BYPASS (R374). -/
def execTapBypass (s : State) : Out := .next (s.tapLoad .bypass)
/-- TAP_IDCODE (R374): it answers DBG_ID. -/
def execTapIdcode (s : State) : Out := .next ((s.tapLoad .idcode).answer (s.reg .DBG_ID 0 0))
/-- TAP_EXTEST (R374). -/
def execTapExtest (s : State) : Out := .next (s.tapLoad (if s.tapOpen then .extest else .bypass))
/-- TAP_SAMPLE (R374). -/
def execTapSample (s : State) : Out := .next (s.tapLoad (if s.tapOpen then .sample else .bypass))
/-- TAP_PRELOAD (R374). -/
def execTapPreload (s : State) : Out := .next (s.tapLoad (if s.tapOpen then .preload else .bypass))

/-! ## Mode requests -/

/-- IMGBASE of the background-service record (Table 16.11). -/
def State.imgBase (s : State) : Nat := match s.sys.bg with
  | w :: _ => w.toNat
  | [] => 0

/-- Safe-Hold that a mode request can leave: CAUSE 0x02 to 0x04 (Table 16.9). -/
def State.softHold (s : State) : Bool :=
  decide (s.mode = .safeHold) && decide (2 ≤ s.fld F.SYS_SAFE_CAUSE 0 0 ∧ s.fld F.SYS_SAFE_CAUSE 0 0 ≤ 4)

/-- The present mode accepts a request for the mode of code `t` (R433, R435, R436, Tables 16.9 and 16.12). -/
def State.modeOk (s : State) (t : Nat) : Bool :=
  let maint := decide (s.mode = .maintenance) && s.sys.faultReq.isNone
  match t with
  | 5 => (s.softHold && !s.sys.safeNLow) || maint
  | 10 => s.holdNow || (decide (s.mode = .ready) || s.mode.run || maint) && !s.flag F.TW_STAT_FHOLD 0 0 && s.twin.leaveAt.isNone
  | 11 => decide (s.mode = .ready) || s.softHold
  | 12 => decide (s.mode = .ready) && decide (s.imgBase ≠ 0) && (List.finRange 4).all fun (p : Pair) => !(s.pair p).halted
  | _ => false

/-- Enters Maintenance (R435): the control domain stops, TW_OWN is low (Table 15.8). -/
def State.enterMaintenance (s : State) : State :=
  let s := ((s.setMode .maintenance).domainStop).stationStop
  ((s.unsched .safeNTimeout).setOwn false).modTwin fun t => { t with step := 0, lockOn := false, armed := false, tx := none }

/-- What an accepted mode request does; out of Safe-Hold, Ready is entered as the lc ends (Table 16.12). -/
def State.modeDo (s : State) (t : Nat) : State :=
  match t with
  | 5 => if s.mode = .maintenance then s.enterReady .maint else { s with sys := { s.sys with readyReq := true } }
  | 10 => s.enterSafeHold 4 0 none
  | 11 => s.enterMaintenance
  | 12 =>
    let s : State := { s with sys := { s.sys with retReq := true } }
    if s.dma.block.isNone && !s.flashBusy then s.emit .retentionEntry else s
  | _ => s

/-- As an lc ends, a request to leave Safe-Hold takes effect, unless SAFE_N or another cause keeps the device there (R433, Table 16.12). -/
def State.readyTake (s : State) : State :=
  if s.sys.readyReq then
    let s : State := { s with sys := { s.sys with readyReq := false } }
    if s.modeOk 5 && decide (s.mode = .safeHold) then s.enterReady .safe else s
  else s

/-- A write to SYS_MODE_REQ (R433): ERR is W1C (R9); a target from T0 at Monitor is a request; a target of 0 is none. -/
def State.modeReqWrite (s : State) (r : Req) (v : Word) : State :=
  let s := if v.getLsbD 8 && !(s.came .SYS_MODE_REQ 0 0).getLsbD 8 then s.setFld F.SYS_MODE_REQ_ERR 0 0 0 else s
  let t := getBits v 3 0
  if r.t0mon && decide (t ≠ 0) then
    if s.modeOk t then s.modeDo t else s.raiseFld F.SYS_MODE_REQ_ERR 0 0 1
  else s

/-- A request for the mode of code `t` (R433). -/
def modeCmd (o : ModeOrigin) (t : Nat) (s : State) : Out :=
  match o with
  | .host f => hpCmd f 0x20 [BitVec.ofNat 8 t] (fun _ s =>
      if s.modeOk t then (s.modeDo t).hpRespond 0x20 f .ok [] else s.hpRespond 0x20 f s.hpRefusal []) s
  | .bus r => regCmd r .write .SYS_MODE_REQ 0 0 (fun s => s.modeReqWrite r (BitVec.ofNat 32 t)) s

/-- MODE_READY (R433). -/
def execModeReady (o : ModeOrigin) (s : State) : Out := modeCmd o 5 s
/-- MODE_SAFE_HOLD (R432). -/
def execModeSafeHold (o : ModeOrigin) (s : State) : Out := modeCmd o 10 s
/-- MODE_MAINTENANCE (R435). -/
def execModeMaintenance (o : ModeOrigin) (s : State) : Out := modeCmd o 11 s
/-- MODE_RETENTION (R436). -/
def execModeRetention (o : ModeOrigin) (s : State) : Out := modeCmd o 12 s

/-! ## Retention -/

/-- Registers that outlast Retention: PTU and EVC state (R29), flash and fuse content, the state of the clock inputs. -/
def retained (r : RegName) : Bool :=
  let a := r.addr 0 0
  lasting r || decide (0x41000000 ≤ a ∧ a < 0x41200000) || decide (r = .FL_INTERRUPTEDj) || decide (r = .SYS_CLK_STAT)

/-- The registers that Retention does not keep are lost (R29). What is kept "until Reset" or counted "since Reset" stays: the
loads started, the failures and the lock of authentication (R368; DEDUCED, log entry 122). -/
def State.retain (s : State) : State :=
  let t := s.resetRegs fun r => !retained r
  ((t.setFld F.SYS_START_LOADS 0 0 (s.fld F.SYS_START_LOADS 0 0)).setFld F.DBG_STAT_LOCKED 0 0
    (s.fld F.DBG_STAT_LOCKED 0 0)).setFld F.DBG_STAT_FAILS 0 0 (s.fld F.DBG_STAT_FAILS 0 0)

/-- RETENTION_ENTRY (R436): the debug session ends, the EVC state is kept, the pins are latched, the clocks stop; the registers
that Retention does not keep are lost (R29); a wake edge that fell during entry acts now (Table 16.12). -/
def execRetentionEntry (s : State) : Out :=
  if decide (s.mode = .ready) && s.sys.retReq && s.dma.block.isNone && !s.flashBusy then
    let latch := ((List.finRange 16).flatMap fun n => [s.pwmPin n 0, s.pwmPin n 1]) ++
      ((List.finRange 24).flatMap fun n => [s.tmioPin n 0, s.tmioPin n 1])
    let wake := s.sys.wake.toList.map Instr.retentionWake
    let s := (((s.dbgEnd).setMode .retention).domainStop).stationStop
    let s := s.retain
    let r := State.reset
    let s := (s.clearMem 0x50000000 0x50010000).setFld F.TW_STAT_LINK 0 0 0
    .next { s with
      cal := s.cal.filter fun e => match e.2 with
        | .evcEvent _ => true
        | _ => false
      inbox := wake, mx := r.mx, pairs := r.pairs, ix := r.ix, dma := r.dma, tmr := r.tmr, tod := r.tod
      adc := r.adc, rot := r.rot, cmps := r.cmps, pwm := r.pwm, dlWaits := false, pos := r.pos, le := r.le, twin := r.twin
      eth := s.eth.map fun e => { e with fifo := [], ix := 0 }
      sc := r.sc, hp := none, load := r.load, qtag := r.qtag
      fl := { s.fl with banks := s.fl.banks.map FBankSt.atReset, key := false }
      sys := { s.sys with latch := latch } }
  else .next s

end Sys2Proof.Machine
end

