-- ==== Sys2Proof/Machine/DmaCtl.lean ====
section
/-! DEFINITION. DMA channels: starts, aborts, the ends of chains, pacing, views (R327, R328, R334 to R336, R339). -/

namespace Sys2Proof.Machine

/-- Changes a channel. -/
def State.modCh (s : State) (n : Chan) (f : ChanSt → ChanSt) : State :=
  { s with dma := { s.dma with ch := vmod s.dma.ch n f } }

/-- A chain is in progress or armed. -/
def State.dmaBusy (s : State) (n : Chan) : Bool := s.flag F.DCHn_STAT_BUSY n 0

/-- The channel's identity (R327, R356). -/
def State.dmaReq (s : State) (n : Chan) : Req := ⟨4, s.dmaOwner n, .supervisor⟩

/-- The channel executes a block. -/
def State.dmaExec (s : State) (n : Chan) : Bool := s.dma.block.any fun b => decide (b.chan = n)

/-- Starts or arms a chain at DCHn_DESC; one that is in progress counts an overrun (R328, R336). -/
def State.dmaGo (s : State) (n : Chan) : State :=
  if !s.mode.cores then s
  else if s.dmaBusy n then s.bump F.DCHn_OVR_OVR n 0
  else
    let s := (s.setFld F.DCHn_STAT_BUSY n 0 1).setReg .DCHn_CUR n 0 (s.reg .DCHn_DESC n 0 &&& 0xFFFFFFE0)
    let s := s.modCh n fun _ => ⟨none, 0, 0, none⟩
    if s.dma.block.isNone then s.emitOnce .dmaBlockStart else s

/-- START (R328): software and paced channels; a chain in progress of any channel counts it (R336). -/
def State.dmaStartWrite (s : State) (n : Chan) : State :=
  if s.fld F.DCHn_CFG_REQ n 0 < 2 || s.dmaBusy n then s.dmaGo n else s

/-- Queue of a side in queue mode. -/
def sideQueue (mode a : Nat) : Option QId := if mode = 2 then some (Fin.ofNat 256 a) else none

/-- The channel's request is no longer set on its queue. -/
def State.dmaUnreq (s : State) (n : Chan) : State :=
  match s.dma.ch[n].on with
  | some q => s.setFld F.Qn_STAT_REQ q 0 0
  | none => s

/-- A chain ends: it leaves the engine. -/
def State.dmaIdle (s : State) (n : Chan) : State :=
  (((s.dmaUnreq n).setFld F.DCHn_STAT_BUSY n 0 0).setFld F.DCHn_STAT_REQ n 0 0).modCh n fun _ => ⟨none, 0, 0, none⟩

/-- A chain fails with a code of Table 13.2 (R334). -/
def State.dmaFail (s : State) (n : Chan) (code : Nat) : State :=
  ((s.dmaIdle n).raiseFld F.DCHn_STAT_ERR n 0 code).evcRaise (Fin.ofNat 512 (0x041 + 2 * n.val))

/-- ABORT (R335): a block in progress stops after its beat. -/
def State.dmaAbortWrite (s : State) (n : Chan) : State :=
  if !s.dmaBusy n then s
  else if s.dmaExec n then
    ({ s with dma := { s.dma with block := s.dma.block.map fun b => { b with stop := true } } } : State).emitOnce .dmaBlockEnd
  else s.dmaFail n 7

/-- A write to a channel's registers: by its owner, T0 at Monitor, a system agent or the debug port (R327). -/
def State.dmaOwned (s : State) (r : Req) (n : Chan) (f : State → State) : State :=
  if r.owns (s.dmaOwner n) then f s else s.bump F.DMA_ERR_CNT_FOREIGN 0 0

/-- A write to DCHn_CTRL: ABORT, then START. -/
def State.dmaCtrlWrite (s : State) (r : Req) (n : Chan) (v : Word) : State :=
  s.dmaOwned r n fun s =>
    let s := if v.getLsbD 1 then s.dmaAbortWrite n else s
    if v.getLsbD 0 then s.dmaStartWrite n else s

/-- DMA_START (R328). -/
def execDmaStart (r : Req) (n : Chan) (s : State) : Out :=
  regCmd r .write .DCHn_CTRL n 0 (fun s => s.dmaCtrlWrite r n 1) s

/-- DMA_ABORT (R335). -/
def execDmaAbort (r : Req) (n : Chan) (s : State) : Out :=
  regCmd r .write .DCHn_CTRL n 0 (fun s => s.dmaCtrlWrite r n 2) s

/-- DMA_PERIPHERAL_REQUEST (R328): the channels of that line start. -/
def execDmaPeripheralRequest (line : Fin 32) (s : State) : Out :=
  .next ((List.finRange 32).foldl (fun s (n : Chan) =>
    if s.fld F.DCHn_CFG_REQ n 0 = 2 ∧ s.fld F.DCHn_CFG_PREQ n 0 = line.val then s.dmaGo n else s) s)

/-! ## Pacing and availability -/

/-- Bytes of an element. -/
def DmaDesc.size (d : DmaDesc) : Nat := 2 ^ d.esz

/-- Bytes of the units read and written: elements, but words on the packed side of a bit-plane transform (R338). -/
def DmaDesc.srcUnit (d : DmaDesc) : Nat := if d.xf = 3 && d.unpack then 4 else d.size
/-- See `srcUnit`. -/
def DmaDesc.dstUnit (d : DmaDesc) : Nat := if d.xf = 3 && !d.unpack then 4 else d.size

/-- Bytes that a block must hold whole: a bit-plane group of 32 elements, else one element (R338). -/
def DmaDesc.group (d : DmaDesc) : Nat := if d.xf = 3 then 32 * d.size else d.size

/-- Credits that the block in progress took at its start and has not used yet (R343). -/
def State.qTaken (s : State) (q : QId) : Nat :=
  match s.dma.block with
  | some b =>
    match s.dma.ch[b.chan].desc with
    | some d => if sideQueue d.dstmode d.dst = some q then (b.o + b.bytes - s.dma.ch[b.chan].done) / d.dstUnit else 0
    | none => 0
  | none => 0

/-- Free slots of a queue that no block has taken (R343). -/
def State.qFree (s : State) (q : QId) : Nat := s.qDepth q - s.qFill q - s.qTaken q

/-- Bytes that the descriptor's queues let a block move now, one unit per item: items present and credits free (R330, R343);
none where no side is a queue. -/
def State.dmaAvail (s : State) (d : DmaDesc) : Option Nat :=
  match sideQueue d.srcmode d.src, sideQueue d.dstmode d.dst with
  | some q, some q' => some (min (s.qFill q * d.srcUnit) (s.qFree q' * d.dstUnit))
  | some q, none => some (s.qFill q * d.srcUnit)
  | none, some q => some (s.qFree q * d.dstUnit)
  | none, none => none

/-- The queues have enough for a block. -/
def State.dmaSupplied (s : State) (d : DmaDesc) : Bool :=
  match s.dmaAvail d with
  | some k => decide (d.group ≤ k)
  | none => true

/-- The paced request of a channel follows its queue's fill (R339). -/
def State.dmaPace (s : State) (n : Chan) : State :=
  if !s.dmaBusy n || decide (s.fld F.DCHn_CFG_REQ n 0 ≠ 1) then s
  else
    match s.dma.ch[n].desc with
    | none => s
    | some d =>
      let judge (q : QId) (drain : Bool) : State :=
        let s := (if s.dma.ch[n].on = some q then s else (s.dmaUnreq n).setFld F.DCHn_STAT_REQ n 0 0).modCh n fun c => { c with on := some q }
        let f := s.qFill q
        let up := decide (s.fld F.Qn_MARK_HI q 0 ≤ f)
        let low := decide (f ≤ s.fld F.Qn_MARK_LO q 0)
        let b := if drain then up || (s.flag F.DCHn_STAT_REQ n 0 && !low) else low || (s.flag F.DCHn_STAT_REQ n 0 && !up)
        (s.setFld F.DCHn_STAT_REQ n 0 (if b then 1 else 0)).setFld F.Qn_STAT_REQ q 0 (if b then 1 else 0)
      match sideQueue d.srcmode d.src, sideQueue d.dstmode d.dst with
      | some q, _ => judge q true
      | none, some q => judge q false
      | none, none => s

/-- The channel can start a block, or fetch its next descriptor (R330, R339). -/
def State.dmaCan (s : State) (n : Chan) : Bool :=
  s.dmaBusy n &&
    match s.dma.ch[n].desc with
    | none => true
    | some d => d.cnt ≠ 0 && s.dmaSupplied d && (decide (s.fld F.DCHn_CFG_REQ n 0 ≠ 1) || s.flag F.DCHn_STAT_REQ n 0)

/-- The descriptor of the channel has CNT = 0 and ends in this cycle, the one after its fetch (R332). -/
def State.dmaEmptyEnds (s : State) (n : Chan) : Bool :=
  s.dmaBusy n && (s.dma.ch[n].desc.any fun d => d.cnt = 0) && decide (s.dma.ch[n].at_ / 2 < s.now / 2)

/-- A descriptor with CNT = 0 has been fetched in this cycle. -/
def State.dmaEmptyWaits (s : State) : Bool :=
  (List.finRange 32).any fun (n : Chan) => s.dmaBusy n && (s.dma.ch[n].desc.any fun d => d.cnt = 0) && !s.dmaEmptyEnds n

/-- A paced request waits for items or credits. -/
def State.dmaWaits (s : State) (n : Chan) : Bool :=
  s.dmaBusy n && s.flag F.DCHn_STAT_REQ n 0 && !s.dmaExec n && (s.dma.ch[n].desc.any fun d => !s.dmaSupplied d)

/-- What the DMA engine does in each lc beside its block: requests follow their queues, stalls are counted, the engine looks for work
(R330, R339, R343). -/
def State.dmaLook (s : State) : State :=
  if !s.mode.cores then s
  else
    let s := (List.finRange 32).foldl (fun s n => s.dmaPace n) s
    let s := (List.finRange 32).foldl (fun s (n : Chan) =>
      match s.dma.ch[n].desc with
      | some d =>
        match sideQueue d.dstmode d.dst with
        | some q => if s.dmaWaits n then s.bump F.Qn_STALL_COUNT q 0 else s
        | none => s
      | none => s) s
    if s.dma.block.isNone && !s.dmaEmptyWaits && (List.finRange 32).any s.dmaCan && !s.cal.any (fun e => decide (e.2 = .dmaBlockStart)) then
      s.emitOnce .dmaBlockStart
    else s

/-- What a read of DCHn_STAT shows. -/
def State.dmaStat (s : State) (n : Chan) : Word :=
  let w := setBits (s.reg .DCHn_STAT n 0) 4 4 (if s.dmaWaits n then 1 else 0)
  setBits w 2 2 (if s.dmaExec n then 1 else 0)

/-- Cycles of a block with beats that have begun (R331): two of its four cycles of setup and drain are taken as setup (DESIGN CHOICE, log
entry 50); a cycle in which a beat waited makes none. -/
def DmaBlock.ran (b : DmaBlock) (t : Nat) : Nat := (t - b.start) / 2 - 1 - b.waits

/-- What a read of DMA_STAT shows. -/
def State.dmaStatus (s : State) : Word :=
  match s.dma.block with
  | some b => BitVec.ofNat 32 (2 ^ 31 + b.chan.val * 2 ^ 24 + min 8191 (b.beats - (b.ran s.now - 1)))
  | none => 0

end Sys2Proof.Machine
end

