-- ==== Sys2Proof/Machine/Evc.lean ====
section
/-! DEFINITION. The event controller, recall and late store errors (R282, R288 to R297, R364). -/

namespace Sys2Proof.Machine

/-- Changes the event controller's state. -/
def State.modEvc (s : State) (f : EvcSt → EvcSt) : State := { s with evc := f s.evc }

/-- The event controller operates from Ready on (Table 11.7). -/
def State.evcLive (s : State) : Bool := s.mode.cores

/-- Sets or clears bit `n` of a source vector. -/
def setSrc (v : BitVec 512) (n : SrcId) (b : Bool) : BitVec 512 :=
  if b then v ||| BitVec.twoPow 512 n else v &&& ~~~BitVec.twoPow 512 n

/-- Some chapter assigns the source (R288, Tables 11.5, 12.8, 13.6, 15.11, 16.13; 0x18A is never pending, R364). -/
def assigned (n : SrcId) : Bool :=
  decide (n.val ≤ 0x189) || decide (n.val = 0x190) || [0x198, 0x199, 0x19B].contains n.val || decide (0x1A0 ≤ n.val ∧ n.val ≤ 0x1A7) ||
    decide (0x1C0 ≤ n.val ∧ n.val ≤ 0x1C3) || decide (0x1E0 ≤ n.val ∧ n.val ≤ 0x1E4)

/-- An occurrence of a source (R294): it sets the pending bit, or merges with the pending one; a number that is not assigned never
fires (R288). -/
def State.evcOccur (s : State) (n : SrcId) : State :=
  if !assigned n then s
  else if s.evc.pend.getLsbD n.val then s.bump F.EVC_ERR_CNT_MERGE 0 0
  else s.modEvc fun e => { e with pend := setSrc e.pend n true }

/-- The source can fire: the event controller operates, and in Maintenance FEV0 to FEV63 come from the matrix, which is stopped
(Tables 11.5, 11.7). -/
def State.evcFires (s : State) (n : SrcId) : Bool := s.evcLive && !(decide (s.mode = .maintenance) && decide (n.val < 0x040))

/-- A source occurs. -/
def execEvcEvent (n : SrcId) (s : State) : Out :=
  .next (if s.evcFires n then (s.modEvc fun e => { e with occ := setSrc e.occ n true }).evcOccur n else s)

/-- The sources 32 j to 32 j + 31 whose bit is 1 in a written word. -/
def namedSrcs (j : Fin 16) (v : Word) : List SrcId :=
  (List.finRange 32).filterMap fun i => if v.getLsbD i.val then some (Fin.ofNat 512 (32 * j.val + i.val)) else none

/-- A write that names sources: those the writer owns are acted on; if it names another, FOREIGN counts the write once
(R289, DEDUCED, log entry 25). -/
def State.evcNamed (s : State) (r : Req) (j : Fin 16) (v : Word) (f : State → SrcId → State) : State :=
  let ns := namedSrcs j v
  let s' := (ns.filter fun n => r.owns (s.srcOwner n)).foldl f s
  if ns.any fun n => !r.owns (s.srcOwner n) then s'.bump F.EVC_ERR_CNT_FOREIGN 0 0 else s'

/-- Mask bit written (R292): held while the source is locked. -/
def State.evcMask (s : State) (b : Bool) (n : SrcId) : State :=
  if s.evc.locked n then
    s.modEvc fun e => { e with held := e.held ++ [if b then .maskSet n else .maskClr n] }
  else s.modEvc fun e => { e with mask := setSrc e.mask n b }

/-- The source was raised in this cycle, by hardware or by a write (Table 11.6). -/
def State.evcCame (s : State) (n : SrcId) : Bool :=
  s.evc.occ.getLsbD n.val || s.cyc.any fun c => match c with
    | .pend v => v.getLsbD n.val
    | _ => false

/-- Pending bit cleared by a write (R292): held while the source is locked; an occurrence of the same cycle stays (Table 11.6). -/
def State.evcPendClear (s : State) (n : SrcId) : State :=
  if s.evcCame n then s
  else if s.evc.locked n then s.modEvc fun e => { e with held := e.held ++ [.pendClr n] }
  else s.modEvc fun e => { e with pend := setSrc e.pend n false }

/-- Write to EVC_PEND_SETj (R294). -/
def State.evcPendSetWrite (s : State) (r : Req) (j : Fin 16) (v : Word) : State :=
  let set := (namedSrcs j v).foldl (fun v n => if r.owns (s.srcOwner n) then setSrc v n true else v) 0
  let s : State := { s with cyc := .pend set :: s.cyc }
  s.evcNamed r j v State.evcOccur

/-- Write to EVC_PEND_CLRj. -/
def State.evcPendClrWrite (s : State) (r : Req) (j : Fin 16) (v : Word) : State :=
  s.evcNamed r j v State.evcPendClear

/-- Write to EVC_MASK_SETj. -/
def State.evcMaskSetWrite (s : State) (r : Req) (j : Fin 16) (v : Word) : State :=
  s.evcNamed r j v fun s n => s.evcMask true n

/-- Write to EVC_MASK_CLRj. -/
def State.evcMaskClrWrite (s : State) (r : Req) (j : Fin 16) (v : Word) : State :=
  s.evcNamed r j v fun s n => s.evcMask false n

/-- Write to EVC_CMPL (R293): completes a source active on the writing pair, else counts a spurious completion. -/
def State.evcComplete (s : State) (r : Req) (v : Word) : State :=
  let n : SrcId := Fin.ofNat 512 (getBits v 8 0)
  match r.pair with
  | some p =>
    if s.evc.act[p].getLsbD n.val then
      s.modEvc fun e => { e with act := vset e.act p (setSrc e.act[p] n false) }
    else s.bump F.EVC_SPURIOUS_CMPL_COUNT 0 0
  | none => s.bump F.EVC_SPURIOUS_CMPL_COUNT 0 0

/-- Row of a write to EVC_PEND_SETj. -/
def execEvcPendSet (r : Req) (j : Fin 16) (v : Word) (s : State) : Out :=
  regCmd r .write .EVC_PEND_SETj j 0 (fun s => s.evcPendSetWrite r j v) s

/-- Row of a write to EVC_PEND_CLRj. -/
def execEvcPendClr (r : Req) (j : Fin 16) (v : Word) (s : State) : Out :=
  regCmd r .write .EVC_PEND_CLRj j 0 (fun s => s.evcPendClrWrite r j v) s

/-- Row of a write to EVC_MASK_SETj. -/
def execEvcMaskSet (r : Req) (j : Fin 16) (v : Word) (s : State) : Out :=
  regCmd r .write .EVC_MASK_SETj j 0 (fun s => s.evcMaskSetWrite r j v) s

/-- Row of a write to EVC_MASK_CLRj. -/
def execEvcMaskClr (r : Req) (j : Fin 16) (v : Word) (s : State) : Out :=
  regCmd r .write .EVC_MASK_CLRj j 0 (fun s => s.evcMaskClrWrite r j v) s

/-- Row of a write to EVC_CMPL. -/
def execEvcCmpl (r : Req) (v : Word) (s : State) : Out :=
  regCmd r .write .EVC_CMPL 0 0 (fun s => s.evcComplete r v) s

/-! ## Offers -/

/-- The pair takes an interrupt offer at this boundary: IE = 1, ARMED = 0, no earlier cause of R286 waits (R292). -/
def State.takesOffer (s : State) (p : Pair) : Bool :=
  let x := s.pair p
  s.coreUp p && x.slot.isNone && (x.main.ie || x.chk.ie) && !s.flag F.LP_EXC_STAT_ARMED p 0 && x.late.isEmpty && x.fpPend.isNone &&
    !s.flag F.PTU_PAIRk_STAT_RECALLP p 0

/-- Takes the offer of source `n`: it is locked until the acknowledge arrives, and the pair enters INTERRUPT (R275, R292). An
acknowledge of one copy alone does not leave the pair (G4, R248). An entry that turns into an FP entry or a fault takes no interrupt
(R268, R251). -/
def State.takeOffer (s : State) (p : Pair) (n : SrcId) : State :=
  let c : Cause := ⟨0x01, s.fld F.EVC_SRCn_CFG_PRIO n 0 * 4096 + n.val, (s.pair p).resume, 0⟩
  s.compared p 4 ((s.pair p).main.ie == (s.pair p).chk.ie) fun s =>
    if (s.pair p).fpDue.isSome || s.flag F.LP_LS_STAT_LATPEND p 0 then s.enter p c
    else (s.modEvc fun e => { e with lock := vset e.lock p (some n) }).enter p c

/-- One cycle of offers: each pair that can takes its offer. -/
def execInterruptOffer (s : State) : Out :=
  let o := s.offers
  .next ((List.finRange 4).foldl (fun s p => match o[p] with
    | some n => if s.takesOffer p then s.takeOffer p n else s
    | none => s) s)

/-- Applies a held write (R292). -/
def EvcSt.applyHeld (e : EvcSt) : HeldWrite → EvcSt
  | .maskSet n => { e with mask := setSrc e.mask n true }
  | .maskClr n => { e with mask := setSrc e.mask n false }
  | .pendClr n => { e with pend := setSrc e.pend n false }

/-- The acknowledge of target `k` arrives at b + 2 (R292): the source is accepted, then held writes are applied; a spread
source moves the spread pointer past the target (R291). -/
def State.evcAccept (s : State) (k : Pair) : State :=
  match s.evc.lock[k] with
  | none => s
  | some n =>
    let spread := !s.flag F.EVC_SRCn_CFG_CLASS n 0
    let s := s.modEvc fun e =>
      { e with
        pend := setSrc e.pend n false
        act := vset e.act k (setSrc e.act[k] n true)
        lock := vset e.lock k none
        rr := if spread then k + 1 else e.rr }
    let s := s.setFld F.EVC_TGTk_STAT_LAST k 0 n.val
    let mine (h : HeldWrite) : Bool := match h with
      | .maskSet m => m == n
      | .maskClr m => m == n
      | .pendClr m => m == n
    s.modEvc fun e => { (e.held.filter mine).foldl EvcSt.applyHeld e with held := e.held.filter fun h => !mine h }

/-- Each pair reports its IE through the compared G4 path (R290): where the copies' differ, the pair halts (R248; DEDUCED, log
entry 125). -/
def State.ieReport (s : State) (p : Pair) : State :=
  if s.halted p then s else s.compared p 4 ((s.pair p).main.ie == (s.pair p).chk.ie) id

/-- What one lc does to the event controller: acknowledges arrive, each pair's IE and TID are reported (R290, R292), the offers of
the lc have their ceilings (R297). -/
def State.evcTick (s : State) : State :=
  let s := (List.finRange 4).foldl State.ieReport ((List.finRange 4).foldl State.evcAccept s)
  { s with evc := { s.evcSeen with
      ie := Vector.ofFn fun k : Pair => (s.pair k).main.ie
      tid := Vector.ofFn fun k : Pair => (s.pair k).tid
      occ := 0 } }

/-! ## Late stores and recall -/

/-- A buffered store of pair `p` gets a bus error after leaving the buffer (R282): at most four wait; the oldest is taken at
the first boundary with ARMED = 0. -/
def execStoreLate (p : Pair) (a : Word) (tenant : Tenant) (tag : Fin 4) (s : State) : Out :=
  if s.mode.cores && !s.faulted p then
    let s := s.modPair p fun x => { x with late := (x.late ++ [(⟨a, tenant, tag⟩ : LateStore)]).take 4 }
    match s.boundary p with
    | .late l => .next (s.takeLate p l)
    | _ => .next s
  else .next s

/-- Write to PTU_RECALL (R364): by T0 at Monitor only; ignored for a pair whose TID is 0. -/
def State.recallWrite (s : State) (r : Req) (v : Word) : State :=
  let p : Pair := Fin.ofNat 4 (getBits v 1 0)
  if r.t0mon && decide ((s.pair p).tid ≠ 0) then s.setFld F.PTU_PAIRk_STAT_RECALLP p 0 1 else s

/-- Row of a write to PTU_RECALL. -/
def execPtuRecall (r : Req) (v : Word) (s : State) : Out :=
  regCmd r .write .PTU_RECALL 0 0 (fun s => s.recallWrite r v) s

/-- The recalled pair takes the recall at a boundary with ARMED = 0 (R364). -/
def execRecallTaken (p : Pair) (s : State) : Out :=
  match s.boundary p with
  | .recall => .next (s.takeRecall p)
  | _ => .next s

end Sys2Proof.Machine
end

