-- ==== Sys2Proof/Machine/Lockstep.lean ====
section
/-! DEFINITION. The signature sweep and latent divergence (R250, R251). -/

namespace Sys2Proof.Machine

/-- The swept state of a copy (R250): g1 to g31, f0 to f31, PSW, FPSR and the special registers 1 to 23. -/
def Copy.swept (c : Copy) : List Byte :=
  (c.g.toList.drop 1).flatMap Word.bytes ++ c.f.toList.flatMap (fun v => leBytes v.toNat 8) ++
    Word.bytes c.psw ++ Word.bytes c.fpsr ++ (List.range 23).flatMap fun i => Word.bytes (c.special (i + 1))

/-- The sweep runs in this pair: not halted, in Ready or a later mode (R369, Table 10.6). -/
def State.sweeps (s : State) (p : Pair) : Bool := s.mode.cores && !(s.pair p).halted && !s.faulted p

/-- The copies that a snapshot of lc `t` holds: as they were before an exception entry of that lc (Table 10.7). -/
def PairSt.snapshot (x : PairSt) (t : Nat) : Copy × Copy :=
  match x.before with
  | some (l, m, c) => if l = t then (m, c) else (x.main, x.chk)
  | none => (x.main, x.chk)

/-- Cycle 0 of an interval: both copies snapshot and compress the swept registers (R250). -/
def execSweepSnapshot (p : Pair) (s : State) : Out :=
  .next (if s.sweeps p then
    (s.modPair p fun x =>
      let c := x.snapshot s.now
      { x with sig := some (crc32c c.1.swept, crc32c c.2.swept) }).sched 511 (.signatureCompare p)
  else s)

/-- A latent divergence (R251): immediate, the reaction of R248 with GROUP 7; deferred, LATPEND is set and the limit of
LATMAX · 1,024 cycles starts, unless one is already pending. -/
def State.latent (s : State) (p : Pair) : State :=
  if s.fld F.LP_LS_CFG_LATENT p 0 = 0 then s.mismatch p 7
  else if s.flag F.LP_LS_STAT_LATPEND p 0 then s
  else (s.setFld F.LP_LS_STAT_LATPEND p 0 1).sched (s.fld F.LP_LS_CFG_LATMAX p 0 * 512) (.latmaxExpiry p)

/-- Last cycle of an interval: the signatures are compared and the sweep counted (R250). A difference is taken up when the commands of
the lc are done, since a mismatch of the lc comes before it (Table 10.7). -/
def execSignatureCompare (p : Pair) (s : State) : Out :=
  match (s.pair p).sig with
  | some (a, b) =>
    if a ≠ b ∧ s.isLate = false ∧ s.sweeps p = true then .next (s.defer (.signatureCompare p))
    else if s.sweeps p then
      let s := (s.count F.LP_SWEEP_CNT_COUNT p 0).modPair p fun x => { x with sig := none }
      let s := s.sched 1 (.sweepSnapshot p)
      .next (if a = b then s else s.latent p)
    else .next s
  | none => .next s

/-- LATMAX · 1,024 cycles after a deferred detection: the pair halts with GROUP 7 (R251). -/
def execLatmaxExpiry (p : Pair) (s : State) : Out :=
  .next (if s.flag F.LP_LS_STAT_LATPEND p 0 && !s.faulted p then
    s.mismatch p 7
  else s)

end Sys2Proof.Machine
end

