-- ==== Sys2Proof/Machine/TableCopy.lean ====
section
/-! DEFINITION. Table copies from flash into loop memory (R214). -/

namespace Sys2Proof.Machine

/-- The identity of the table-fetch port for an engine: its tenant at Supervisor (R214, R356). -/
def State.tblReq (s : State) (n : LeId) : Req := ⟨5, s.leOwner n, .supervisor⟩

/-- The table fetch reads one line: the line, or none where a window, a busy bank or a double-bit error refuses it (R214, R309). -/
def State.tblLine (s : State) (n : LeId) (a : Nat) : Option (List Byte) × State :=
  if !s.permitted (s.tblReq n) .read a 32 then (none, s.violation (s.tblReq n) .read a)
  else
    match s.flReadBy 5 a with
    | (.ok, s) => (some (s.bytes a 32), s)
    | (_, s) => (none, s)

/-- Reads `k` lines from `a`; the first that is refused ends the read. -/
def State.tblLines (s : State) (n : LeId) (a : Nat) : Nat → Option (List Byte) × State
  | 0 => (some [], s)
  | k + 1 =>
    match s.tblLine n a with
    | (some l, s) =>
      match s.tblLines n (a + 32) k with
      | (some ls, s) => (some (l ++ ls), s)
      | (none, s) => (none, s)
    | (none, s) => (none, s)

/-- The copy lies from flash into 0x0_7800 to 0x6_FFFF of the region. -/
def tblPlace (src dst len : Nat) : Bool :=
  inFlash src && decide (src + 4 * len ≤ 0x12000000) && decide (0x7800 ≤ dst) && decide (dst + 4 * len ≤ 0x70000)

/-- A write to LEn_TBL_CTL: ERR and LEN by their access codes; GO starts a copy, or is refused with ERR; while BUSY nothing
(R214). How long the copy takes is free (DESIGN CHOICE, log entry 40). -/
def State.tblWrite (s : State) (n : LeId) (v : Word) : State :=
  if s.flag F.LEn_TBL_CTL_BUSY n 0 then (if v.getLsbD 16 then s else s.writeReg .LEn_TBL_CTL n 0 v)
  else
    let s := s.writeReg .LEn_TBL_CTL n 0 v
    if !v.getLsbD 16 || !s.mode.live then s
    else
      let src := (s.reg .LEn_TBL_SRC n 0).toNat / 32 * 32
      let dst := s.fld F.LEn_TBL_DST_DST n 0 / 32 * 32
      let len := getBits v 15 0
      if !tblPlace src dst len then s.raiseFld F.LEn_TBL_CTL_ERR n 0 1
      else
        let s := (s.setFld F.LEn_TBL_CTL_BUSY n 0 1).modLe n fun e => { e with copy := some (src, dst, len) }
        (s.sched (Config.copyTime s.fresh + 1) (.tableCopyDone n)).draw

/-- TABLE_COPY_GO (R214). -/
def execTableCopyGo (r : Req) (n : LeId) (v : Word) (s : State) : Out :=
  regCmd r .write .LEn_TBL_CTL n 0 (fun s => s.leOwned r n fun s => s.tblWrite n v) s

/-- TABLE_COPY_DONE (R214): the lines have been read and stored; where one is refused, ERR is set and nothing stored. -/
def execTableCopyDone (n : LeId) (s : State) : Out :=
  match s.le[n].copy with
  | none => .next s
  | some (src, dst, len) =>
    let s := ((s.unsched (.tableCopyDone n)).modLe n fun e => { e with copy := none }).setFld F.LEn_TBL_CTL_BUSY n 0 0
    match s.tblLines n src ((len + 7) / 8) with
    | (some bs, s) => .next (s.setBytes (leBase n + dst) (bs.take (4 * len)))
    | (none, s) => .next (s.raiseFld F.LEn_TBL_CTL_ERR n 0 1)

end Sys2Proof.Machine
end

