-- ==== Sys2Proof/Machine/Twin.lean ====
section
/-! DEFINITION. Twin operation: ownership, the Triok link, pairing, phase lock, epochs, handover (R379 to R411). -/

namespace Sys2Proof.Machine

/-! ## Frames received -/

/-- Bytes of a received frame that its CRC covers (R385): header bytes 0 to 27 and the data. -/
def twBytes (ty : Nat) (h : TwHdr) (t d : List Byte) : List Byte :=
  [BitVec.ofNat 8 ty, h.flags] ++ leBytes h.nflit.toNat 2 ++ leBytes h.fseq.toNat 4 ++ leBytes h.gen.toNat 2 ++ [h.mode, 0] ++ t ++ d

/-- The frame is whole: type-specific bytes, data flits in the number of NFLIT and of its type, CRC-32C (R385, Table 15.2). -/
def twWhole (ty lo hi : Nat) (h : TwHdr) (t d : List Byte) : Bool :=
  decide (t.length = 16) && decide (d.length = 32 * h.nflit.toNat) && decide (lo ≤ h.nflit.toNat) && decide (h.nflit.toNat ≤ hi) &&
    decide (crc32c (twBytes ty h t d) = h.crc)

/-- Receives a frame: with the link down nothing arrives; one that is not whole is discarded and counted (R385). -/
def twRecv (ty lo hi : Nat) (h : TwHdr) (t d : List Byte) (body : State → State) (s : State) : Out :=
  if !s.linkIsUp || decide (s.mode = .retention) then .next s
  else if twWhole ty lo hi h t d then .next (body s)
  else .next (s.bump F.TW_ERR_CNT_FRAMECRC 0 0)

/-- Word i of a byte list. -/
def wordAt (bs : List Byte) (i : Nat) : Word := wordOfBytes (bs.drop i)

/-! ## Configuration -/

/-- Reference generator (R393). -/
def State.refGen (s : State) : GenId := Fin.ofNat 16 (s.fld F.TW_REF_CFG_REFGEN 0 0)

/-- Generators judged at agreement, ascending (R400). -/
def State.agrGens (s : State) : List GenId := (List.finRange 16).filter fun n => (s.reg .TW_AGR_CFG 0 0).getLsbD n.val

/-- Engines in the epoch, ascending. -/
def State.epochLes (s : State) : List LeId := (List.finRange 8).filter fun n => (s.reg .TW_EPOCH_CFG 0 0).getLsbD (8 + n.val)

/-- Regions in the epoch: index, address, length. -/
def State.epochRegions (s : State) : List (Nat × Nat × Nat) :=
  ((List.range 8).map fun k => (k, (s.reg .TW_REGk_BASE k 0).toNat / 4 * 4, s.fld F.TW_REGk_LEN_LEN k 0 / 4 * 4)).filter
    fun x => decide (x.2.2 ≠ 0)

/-- Size of an epoch (R390). -/
def State.epochSize (s : State) : Nat :=
  312 + 4104 * s.epochLes.length + s.epochRegions.foldl (fun n x => n + 8 + x.2.2) 0

/-- Shortest period of the reference generator in lc (R390). -/
def State.refPeriod (s : State) : Nat :=
  let n := s.refGen
  let per := s.perAct n
  let steps := match s.fld F.PWMn_CFG_MODE n 0 with
    | 3 => 2 * per
    | 4 => s.fld F.PWMn_PMIN_PMIN n 0
    | 5 => s.fld F.PWMn_PMIN_PMIN n 0
    | _ => per
  steps * 2 ^ s.fld F.PWMn_CFG_PRE n 0

/-- Shortest epoch interval in lc (R390). -/
def State.epochInterval (s : State) : Nat := (s.fld F.TW_EPOCH_CFG_EPDIV 0 0 + 1) * s.refPeriod

/-- Pairing fails with SIZE (R390, TW_AGR_CFG): 2.4 GB/s is 6 bytes per lc. -/
def State.epochTooBig (s : State) : Bool :=
  decide (65536 < s.epochSize) || decide (6 * s.epochInterval < s.epochSize) || decide (13 < s.agrGens.length)

/-! ## Counts -/

/-- COUNT and DOWN of a generator in one word (Table 15.5). -/
def State.countWord (s : State) (n : GenId) : Word :=
  let c := s.pwmCount n
  BitVec.ofNat 32 (c.1 % 65536 * 65536 + if c.2 then 256 else 0)

/-- COUNT and DOWN of a generator as a PAIR frame carries them: in the bytes that a HEARTBEAT gives them (DEDUCED, log entry 56). -/
def State.pairWord (s : State) (n : GenId) : Word :=
  let c := s.pwmCount n
  BitVec.ofNat 32 (c.1 % 65536 + if c.2 then 65536 else 0)

/-- Counts of all generators and timers, as a PAIR frame carries them (Table 15.3). -/
def State.countWords (s : State) : List Word :=
  (List.finRange 16).map s.pairWord ++ (List.finRange 24).map fun n => BitVec.ofNat 32 (s.tmrCount n)

/-- A running generator goes on from step `k` of its period in this lc. -/
def State.pwmJump (s : State) (n : GenId) (k : Nat) : State :=
  let s := s.modPwm n fun g =>
    { g with began := s.now, k0 := k, jumped := true, down := decide (g.mode = 3 ∧ g.per ≤ k), ended := none }
  let s := (s.unschedAll (pwmTimed n)).pwmSegment n true
  let s := (s.modPwm n fun g => { g with first := none }).pwmActs n true
  let g := s.pwm[n]
  if g.variable then
    let j := s.fld F.PWMn_LASTPER_LASTPER n 0 * s.fld F.PWMn_PHFRAC_FRAC n 0 / 65536
    if j < k then s else s.schedAt (g.stepLc j) (.phaseEvent n)
  else
    let s := s.schedAt (g.stepLc g.len) (.pwmPeriodStart n)
    if g.midStep < k then s else s.schedAt (g.stepLc g.midStep) (.pwmPeriodMiddle n)

/-- Step of the period that a count and direction stand for. -/
def PwmSt.stepOf (g : PwmSt) (count : Nat) (down : Bool) : Nat :=
  match g.mode with
  | 2 => g.per - 1 - count
  | 3 => if down then 2 * g.per - count else count
  | _ => count

/-- Loads running generators and timers with the peer's counts, as they stand two marks (128 lc) after those given (R389). -/
def State.loadCounts (s : State) (ws : List Word) : State :=
  let s := (List.finRange 16).foldl (fun s (n : GenId) =>
    if s.pwmRuns n then
      let w := (ws[n.val]?).getD 0
      let g := s.pwm[n]
      s.pwmJump n ((g.stepOf (getBits w 15 0) (w.getLsbD 16) + 128 / g.st) % max 1 g.len)
    else s) s
  (List.finRange 24).foldl (fun s (n : TmrId) =>
    if s.tmrRuns n then
      let c := ((ws[16 + n.val]?).getD 0).toNat
      let rel := (s.reg .TMn_RELOAD n 0).toNat + 1
      let d := 128 / 2 ^ s.tmr[n].pre % rel
      let left := if d ≤ c then c - d else c + rel - d
      let z := s.now + left * 2 ^ s.tmr[n].pre
      let s := (s.modTmr n fun t => { t with zeroAt := z, zdone := false }).schedAt z (.timerZero n)
      (List.finRange 4).foldl (fun s c => s.tmrDue n c) s
    else s) s

/-! ## Pairing -/

/-- Pairing ends without success: CMDERR holds the reason (R388, R389). -/
def State.pairFail (s : State) (code : Nat) : State :=
  let s := (s.raiseFld F.TW_STAT_CMDERR 0 0 code).unsched .pairingTimeout
  s.modTwin fun t => { t with step := 0, begun := false, seen := none, trip := none, align := none, lockOn := false, armed := false,
                              tx := none }

/-- A pairing step ends; the next begins at the next mark (R389). -/
def State.pairStep (s : State) (k : Nat) : State := s.modTwin fun t => { t with step := k, begun := false, trip := none }

/-- Type-specific bytes of a PAIR frame (Table 15.3). -/
def State.pairSpec (s : State) (m : Nat) : List Byte :=
  [if s.twin.standby then 1 else 0] ++ leBytes m 3 ++ Word.bytes (s.reg .SM_IMAGE 0 0) ++ Word.bytes (s.reg .SM_CFGGEN 0 0) ++
    Word.bytes (s.reg .SYS_ID 0 0)

/-- Sends a PAIR frame with the counts of this lc. -/
def State.sendPair (s : State) (m : Nat) : State := s.twSend 4 (s.pairSpec m) (s.countWords.flatMap Word.bytes)

/-- Judges the peer's PAIR frame of step 1 (R389). -/
def State.pairJudge (s : State) (f : TwFrame) : State :=
  let own := s.pairSpec 0
  if wordAt f.spec 4 ≠ wordAt own 4 ∨ wordAt f.spec 8 ≠ wordAt own 8 ∨ (wordAt f.spec 12).toNat / 256 ≠ (wordAt own 12).toNat / 256 then
    s.pairFail 3
  else if f.spec.head? = own.head? then s.pairFail 4
  else (s.modTwin fun t => { t with seen := some f }).pairStep 2

/-- Starts pairing (R389, R390): a LOCK that an earlier pairing left is cleared (DEDUCED, log entry 57). -/
def State.pairStart (s : State) (standby : Bool) : State :=
  if s.epochTooBig then s.pairFail 7
  else
    let s := s.modTwin fun t => { t with step := 1, begun := false, standby := standby, seen := none, trip := none, align := none,
                                         lockOn := false, armed := false, rxLen := 0, rxOffs := [], rxWait := [] }
    (s.setFld F.TW_STAT_LOCK 0 0 0).sched (400000 + 2 * s.epochInterval) .pairingTimeout

/-- Every engine enters a Run mode. -/
def State.runBegin (s : State) (m : Mode) : State := (s.setMode m).allLe State.leRun

/-- A command is refused (R388). -/
def State.twRefuse (s : State) (code : Nat) : State := s.raiseFld F.TW_STAT_CMDERR 0 0 code

/-- TW_OWN_IN is high. -/
def State.ownIn (s : State) : Bool := s.flag F.TW_STAT_OWN_IN 0 0

/-- The device acts as it should in Run-Active: no fault-hold, no release under way. -/
def State.activeOk (s : State) : Bool :=
  decide (s.mode = .runActive) && !s.flag F.TW_STAT_FHOLD 0 0 && s.twin.leaveAt.isNone

/-- RUN_SOLO (R388). -/
def State.cmdSolo (s : State) : State :=
  if s.mode ≠ .ready then s.twRefuse 1
  else if s.ownIn then s.twRefuse 2
  else
    let s := if s.twin.standby then s.modTwin fun t => { t with step := 0, standby := false, lockOn := false } else s
    ((s.runBegin .runSolo).setFld F.TW_STAT_ROLE 0 0 0).setOwn true

/-- PAIR_ACTIVE (R388). -/
def State.cmdActive (s : State) : State :=
  if s.mode = .ready then (if s.ownIn then s.twRefuse 2 else s.pairStart false)
  else if s.mode = .runSolo then s.pairStart false
  else s.twRefuse 1

/-- PAIR_STANDBY (R388). -/
def State.cmdStandby (s : State) : State := if s.mode = .ready then s.pairStart true else s.twRefuse 1

/-- UNPAIR (R388): in Run-Active also in fault-hold, which goes on, but not in the lc in which it is entered (Table 15.7), nor once a
switchover has released TW_OWN, which Run-Solo drives high (DESIGN CHOICE, log entry 144). -/
def State.cmdUnpair (s : State) : State :=
  let clear (s : State) : State :=
    (s.setFld F.TW_STAT_PAIRED 0 0 0).modTwin fun t =>
      { t with armed := false, tx := none, rxLen := 0, rxOffs := [], rxWait := [], switch := false, step := 0 }
  if s.mode = .runActive ∧ s.marked (RegName.TW_STAT.addr 0 0) true = true then s
  else if s.mode = .runActive ∧ (s.twin.leaveAt.all fun l => decide (l.2 = .safeHold)) = true then
    let prev := s.sys.prev
    (((clear s).setMode .runSolo).mark (RegName.TW_CTRL.addr 0 0) false).modTwin fun t => { t with unpair := prev }
  else if s.mode = .runStandby then
    let s := (clear s).setFld F.TW_STAT_ROLE 0 0 0
    (s.modTwin fun t => { t with standby := false, lockOn := false }).enterReady .standby
  else s.twRefuse 1

/-- SWITCHOVER (R388, R406): LOCK is the peer's, from its heartbeat; with the link down no SWITCH frame leaves. -/
def State.cmdSwitch (s : State) : State :=
  if s.activeOk && decide (s.fld F.TW_STAT_PEERMODE 0 0 = 8) && decide (s.twin.flags / 4 % 2 = 1) then
    let u := s.twSend 5 [] []
    (u.modTwin fun t => { t with switch := decide (t.fseq ≠ s.twin.fseq) }).mark (RegName.TW_CTRL.addr 0 0) true
  else s.twRefuse 1

/-- A write to TW_CTRL: CMD from T0 at Monitor only (R388). -/
def State.twCtrlWrite (s : State) (r : Req) (v : Word) : State :=
  if r.t0mon then
    match getBits v 3 0 with
    | 1 => s.cmdSolo
    | 2 => s.cmdActive
    | 3 => s.cmdStandby
    | 4 => s.cmdUnpair
    | 5 => s.cmdSwitch
    | _ => s
  else s

/-- A twin command. -/
def twCmd (r : Req) (k : Nat) (s : State) : Out :=
  regCmd r .write .TW_CTRL 0 0 (fun s => s.twCtrlWrite r (BitVec.ofNat 32 k)) s

/-- RUN_SOLO. -/
def execRunSolo (r : Req) (s : State) : Out := twCmd r 1 s
/-- PAIR_ACTIVE. -/
def execPairActive (r : Req) (s : State) : Out := twCmd r 2 s
/-- PAIR_STANDBY. -/
def execPairStandby (r : Req) (s : State) : Out := twCmd r 3 s
/-- UNPAIR. -/
def execUnpair (r : Req) (s : State) : Out := twCmd r 4 s
/-- SWITCHOVER. -/
def execSwitchover (r : Req) (s : State) : Out := twCmd r 5 s

/-- PAIRING_TIMEOUT (R389). -/
def execPairingTimeout (s : State) : Out := .next (if s.twin.step = 0 then s else s.pairFail 6)

/-- PAIR: step 1 judges it; in step 3 the standby adopts the mark index and takes the counts (R389). -/
def execPair (h : TwHdr) (t : List Byte) (d : List Byte) (s : State) : Out :=
  twRecv 4 5 5 h t d (fun s =>
    let f : TwFrame := ⟨4, h.flags.toNat, h.fseq, h.gen, h.mode.toNat, t, d⟩
    if s.twin.step = 1 then
      if s.twin.begun then s.pairJudge f else s.modTwin fun w => { w with seen := some f }
    else if s.twin.step = 3 ∧ s.twin.standby = true ∧ s.twin.trip.isSome = true then
      let m := (wordAt t 0).toNat / 256
      s.modTwin fun w => { w with markIdx := m, seen := some f, align := some (m + 2, bytesToWords d) }
    else s) s

/-! ## Handover -/

/-- The decision of R398, with its cause: Handover is entered; after a SWITCH frame the next commit is awaited (R406). -/
def State.decideHandover (s : State) (cause : Nat) : State :=
  let s := s.setMode .handover
  let s := s.modTwin fun t => { t with dec := some (s.now, cause), commit := decide (cause = 3) }
  s.sched (s.reg .TW_AGRMAX 0 0).toNat .agreementForced

/-- Enters Run-Standby: the role, the pair, and the trigger that stands: TW_FAULT_IN, or the peer lost (R389, R398, R406). An epoch that
is being received, or waits, goes on (R395). -/
def State.enterStandby (s : State) : State :=
  let s := ((s.runBegin .runStandby).setFld F.TW_STAT_ROLE 0 0 1).setFld F.TW_STAT_PAIRED 0 0 1
  let s := s.modTwin fun t => { t with step := 0, standby := true, lockOn := true, armed := false, tx := none,
                                       dec := none, commit := false }
  if s.flag F.TW_STAT_FAULT_IN 0 0 then s.decideHandover 1 else if s.twin.lost && !s.ownIn then s.decideHandover 2 else s

/-- An epoch is discarded (R396). -/
def State.epochDiscard (s : State) : State :=
  ((s.bump F.TW_ERR_CNT_EPDISC 0 0).evcRaise 0x1A4).modTwin fun t => { t with rxLen := 0, rxOffs := [] }

/-- What has been received of epochs and is not committed is discarded (R396, R404). -/
def State.epochsDrop (s : State) : State :=
  let s := if s.twin.rxLen = 0 then s else s.epochDiscard
  (s.twin.rxWait.foldl (fun s _ => s.epochDiscard) s).modTwin fun t => { t with rxWait := [] }

/-- The takeover at lc L (R401 to R403). TW_OWN is not raised while TW_OWN_IN is high, but after TW_FAULT_IN or SWITCH (R381).
Whether the peer's stays high for the four lc of R382 is free (DESIGN CHOICE, log entry 46). -/
def State.takeover (s : State) (forced : Bool) : State :=
  match s.mode, s.twin.dec with
  | .handover, some (t, cause) =>
    if decide (cause = 2) && s.ownIn then s
    else
      let w := min (s.now - t) 0xFFFFFF
      let s := s.setReg .TW_HO 0 0 (BitVec.ofNat 32 (cause * 2 ^ 28 + (if forced then 2 ^ 27 else 0) + w))
      let s := (((s.unsched .agreementForced).setOwn true).setMode .runActive).setReg .TW_GEN 0 0
        ((s.reg .TW_GEN 0 0 + 1) &&& 0xFFFF)
      let s := s.setReg .TW_HO_EPOCH 0 0 (s.reg .TW_EPOCH_SEQ 0 0)
      let s := s.setReg .TW_EPOCH_ACKED 0 0 (s.reg .TW_EPOCH_SEQ 0 0)
      let s := ((s.setFld F.TW_STAT_ROLE 0 0 0).setFld F.TW_STAT_LINKLOST 0 0 0).setFld F.TW_STAT_PAIRED 0 0 (if cause = 3 then 1 else 0)
      let s := ((List.finRange 8).foldl (fun s n => s.posTakeover n) s).epochsDrop
      let now := s.now
      let s := s.modTwin fun t => { t with standby := false, lockOn := false, armed := true, periods := 0, hbAt := now, lost := false,
                                           dec := none, commit := false }
      let s := if s.ownIn then (if Config.ownHeld s.fresh then s.sched 3 .dualOwn else s).draw else s
      let s := s.evcRaise 0x1A1
      if forced then s.evcRaise 0x1A6 else s
  | _, _ => s

/-- AGREEMENT_POINT (R400, R401). -/
def execAgreementPoint (s : State) : Out := .next (s.takeover false)

/-- AGREEMENT_FORCED (R401). -/
def execAgreementForced (s : State) : Out := .next (s.takeover true)

/-- FAULT_IN_RISE (R398), as the synchroniser shows it. -/
def execFaultInRise (s : State) : Out :=
  let now := s.now
  let s := (s.setFld F.TW_STAT_FAULT_IN 0 0 1).modTwin fun t => { t with faultAt := now }
  .next (match s.mode with
    | .runStandby => s.decideHandover 1
    | .handover =>
      match s.twin.dec with
      | some (t, 2) => if t = s.now then s.modTwin fun w => { w with dec := some (t, 1) } else s
      | _ => s
    | _ => if s.flag F.TW_STAT_OWN 0 0 then s.evcRaise 0x1A3 else s)

/-- PEER_LOST (R387, R398). -/
def execPeerLost (s : State) : Out :=
  if s.mode.cores then
    let s := s.modTwin fun t => { t with lost := true }
    .next (if s.ownIn then (s.setFld F.TW_STAT_LINKLOST 0 0 1).evcRaise 0x1A2
      else if s.mode = .runStandby then s.decideHandover 2 else s)
  else .next s

/-- SWITCH (R398). -/
def execSwitch (h : TwHdr) (t : List Byte) (s : State) : Out :=
  twRecv 5 0 0 h t [] (fun s => if s.mode = .runStandby then s.decideHandover 3 else s) s

/-- Work in flight on the failed or old active is discarded (R404, R406): queue contents, DMA chains, the epoch being sent. -/
def State.flightDrop (s : State) : State :=
  let s := (List.finRange 32).foldl (fun s n => if s.dmaBusy n then s.dmaIdle n else s) s
  let s := ((s.unsched .dmaBlockStart).unsched .dmaBlockEnd).modTwin fun t => { t with tx := none }
  { s with
    dma := { s.dma with block := none }
    qtag := []
    regs := s.regs.filter fun e => match regAt e.1 with
      | some (.Qn_PTR, _, _) => false
      | some (.Qn_STAT, _, _) => false
      | _ => true }

/-- The device lets go of TW_OWN (R381) and leaves Run-Active 2 lc later: for Safe-Hold out of fault-hold (R399), for
Run-Standby after a SWITCH frame (R406). Its work in flight is discarded (DEDUCED, log entry 129). -/
def State.release (s : State) : State :=
  let s := s.setOwn false
  let t := s.now + 2
  if s.flag F.TW_STAT_FHOLD 0 0 then
    ((s.flightDrop.setFld F.TW_STAT_FHOLD 0 0 0).unsched .faultHoldExpiry).modTwin fun w => { w with leaveAt := some (t, .safeHold) }
  else if s.mode = .runActive ∧ s.twin.switch = true then
    s.flightDrop.modTwin fun w => { w with leaveAt := some (t, .runStandby), switch := false, armed := false }
  else s

/-- FAULT_HOLD_EXPIRY (R399). -/
def execFaultHoldExpiry (s : State) : Out := .next (if s.flag F.TW_STAT_FHOLD 0 0 then s.release else s)

/-- OWN_IN_RISE (R381, R382). -/
def execOwnInRise (s : State) : Out :=
  let now := s.now
  let s := (s.setFld F.TW_STAT_OWN_IN 0 0 1).modTwin fun t => { t with ownAt := now }
  let c := s.fld F.SYS_SAFE_CAUSE 0 0
  let held := decide (s.sys.mode = .safeHold) && decide (c = 1 ∨ c = 5)
  .next (if !s.flag F.TW_STAT_OWN 0 0 then s
    else if s.flag F.TW_STAT_FHOLD 0 0 || s.twin.switch || held then s.release
    else s.sched 3 .dualOwn)

/-- DUAL_OWN (R382): TW_OWN_IN is high in the fourth consecutive lc. -/
def execDualOwn (s : State) : Out :=
  .next (if s.flag F.TW_STAT_OWN 0 0 && s.ownIn && !s.flag F.TW_STAT_FHOLD 0 0 && !s.twin.switch then s.evcRaise 0x1A7 else s)

/-- The lc has come in which the device leaves Run-Active after a release (R399, R406). -/
def State.leaveDue (s : State) : State :=
  match s.twin.leaveAt with
  | some (t, m) =>
    if s.now < t then s
    else
      let s := s.modTwin fun w => { w with leaveAt := none }
      if m = .safeHold then
        match s.sys.faultReq with
        | some (sub, p) => s.enterSafeHold 1 sub p
        | none => s.enterSafeHold 1 0 none
      else
        let s := s.setReg .TW_EPOCH_SEQ 0 0 (s.reg .TW_EPOCH_ACKED 0 0)
        (s.modTwin fun w => { w with takeGen := true, okMarks := 0 }).enterStandby
  | none => s

/-! ## Heartbeats and marks -/

/-- CMPA_ACT of the judged generators, 3 bytes each, 40 bytes in all (Table 15.3). -/
def State.hbBytes (s : State) : List Byte :=
  let b := s.agrGens.flatMap fun (n : GenId) => leBytes (s.fld F.PWMn_CMPA_ACT_VALUE n 0) 3
  (b ++ List.replicate 40 0).take 40

/-- Sends a HEARTBEAT (Table 15.3). -/
def State.sendHeartbeat (s : State) : State :=
  let c := s.pwmCount s.refGen
  let b := s.hbBytes
  s.twSend 1 (Word.bytes (s.reg .TW_EPOCH_SEQ 0 0) ++ leBytes c.1 2 ++ [if c.2 then 1 else 0, 0] ++ b.take 8) (b.drop 8)

/-- Loads the mirror CMPA of the judged generators from a heartbeat (R400). -/
def mirrorCmpa : List GenId → List Byte → Vector Mirror 16 → Vector Mirror 16
  | n :: ns, b0 :: b1 :: b2 :: bs, v =>
    mirrorCmpa ns bs (vmod v n fun m => { m with cmpa := b0.toNat + 256 * b1.toNat + 65536 * b2.toNat })
  | _, _, v => v

/-- Modes in which Table 15.8 has TW_OWN low. -/
def ownLow (code : Nat) : Bool := [5, 8, 11].contains code

/-- HEARTBEAT (R386, R387). A heartbeat whose sender's mode has TW_OWN or TW_FAULT_OUT low shows that level, unless the pin rose
within 128 lc, the most that a heartbeat takes (DESIGN CHOICE, log entry 46). -/
def execHeartbeat (h : TwHdr) (t : List Byte) (d : List Byte) (s : State) : Out :=
  twRecv 1 1 1 h t d (fun s =>
    if !s.mode.cores then s
    else
      let now := s.now
      let m := h.mode.toNat
      let gens := s.agrGens
      let s := (s.setFld F.TW_STAT_PEERMODE 0 0 m).setFld F.TW_STAT_LINKLOST 0 0 0
      let s := if s.twin.takeGen then s.setReg .TW_GEN 0 0 (h.gen.setWidth 32) else s
      let s := if ownLow m && decide (s.twin.ownAt + 128 ≤ now) then s.setFld F.TW_STAT_OWN_IN 0 0 0 else s
      let s := if m ≠ 10 ∧ h.flags.toNat % 2 = 0 ∧ s.twin.faultAt + 128 ≤ now then s.setFld F.TW_STAT_FAULT_IN 0 0 0 else s
      let s := s.modTwin fun w => { w with hbAt := now, flags := h.flags.toNat, lost := false, takeGen := false,
                                           mirror := mirrorCmpa gens (t.drop 8 ++ d) w.mirror }
      if s.twin.step = 4 ∧ s.twin.standby = false ∧ s.twin.armed = false ∧ h.flags.toNat / 4 % 2 = 1 then
        let s := (s.setReg .TW_EPOCH_SEQ 0 0 0).setReg .TW_EPOCH_ACKED 0 0 0
        s.modTwin fun w => { w with armed := true, periods := 0 }
      else s) s

/-- HEARTBEAT_MISSED (R387). -/
def execHeartbeatMissed (s : State) : Out := .next (if s.mode.cores then s.bump F.TW_ERR_CNT_HBMISS 0 0 else s)

/-- Pairing completes (R389). From Ready with TW_OWN_IN high TW_OWN may not rise (R381): it fails with OWNED (DESIGN CHOICE, log
entry 127). -/
def State.pairDone (s : State) : State :=
  if !s.twin.standby && s.ownIn && decide (s.mode = .ready) then s.pairFail 2
  else
  let s := (s.unsched .pairingTimeout).evcRaise 0x1A0
  if s.twin.standby then
    let s := match s.twin.seen with
      | some f => s.setReg .TW_GEN 0 0 (f.gen.setWidth 32)
      | none => s
    s.enterStandby
  else
    let s := if s.mode = .runActive then s else s.runBegin .runActive
    let s := ((s.setFld F.TW_STAT_ROLE 0 0 0).setFld F.TW_STAT_PAIRED 0 0 1).setOwn true
    s.modTwin fun t => { t with step := 0 }

/-- A pairing step begins at this mark (R389). -/
def State.pairBegin (s : State) : State :=
  let now := s.now
  let s := s.modTwin fun t => { t with begun := true }
  match s.twin.step with
  | 1 =>
    if !s.linkIsUp then s.pairFail 5
    else
      let s := s.sendPair 0
      match s.twin.seen with
      | some f => s.pairJudge f
      | none => s
  | 2 => if s.twin.standby then s.modTwin fun t => { t with pulse := some (now * 256), trip := some now } else s
  | 5 => s.pairDone
  | _ => s

/-- The active drives TW_SYNC at this mark (R389, R391). -/
def State.drivesSync (s : State) : Bool :=
  decide (s.mode = .runActive) || (decide (3 ≤ s.twin.step) && !s.twin.standby)

/-- At mark m + 2 the standby's counters take the active's counts and its phase lock starts (R389). -/
def State.markLoad (s : State) : State :=
  match s.twin.align with
  | some (m, ws) =>
    if s.twin.markIdx = m then
      let s := (s.loadCounts ws).setReg .TW_EPOCH_SEQ 0 0 0
      (s.modTwin fun t => { t with align := none, lockOn := true, phi := 0, carry := 0, okMarks := 0 }).pairStep 4
    else s
  | none => s

/-- What pairing does at a mark: a step begins, or the active names its mark in step 3 (R389). -/
def State.markPair (s : State) : State :=
  if s.twin.step ≠ 0 ∧ s.twin.begun = false then s.pairBegin
  else if s.twin.step = 3 ∧ s.twin.standby = false then (s.sendPair s.twin.markIdx).pairStep 4
  else s

/-- A BLANK frame is answered with LOAD_OFFER at a mark (R418). -/
def State.markOffer (s : State) : State :=
  let runs := decide (s.mode = .ready) || (s.mode.run && decide (s.mode ≠ .handover))
  let s := if s.twin.blank && runs && decide (s.imgBase ≠ 0) then
      s.twSend 0x11 (Word.bytes (s.word (s.imgBase + 12)) ++ Word.bytes (s.reg .SM_IMAGE 0 0) ++ Word.bytes (s.reg .SM_CFGGEN 0 0)) []
    else s
  s.modTwin fun t => { t with blank := false }

/-- TW_MARK (R386): the mark is counted; what pairing does at a mark, the TW_SYNC pulse, a HEARTBEAT, a LOAD_OFFER. -/
def execTwMark (s : State) : Out :=
  if !s.mode.cores then .next s
  else
    let now := s.now
    let s := s.modTwin fun t => { t with markAt := now, markIdx := t.markIdx + 1 }
    let s := if s.drivesSync then s.modTwin fun t => { t with pulse := some (now * 256) } else s
    .next s.sendHeartbeat.markLoad.markPair.markOffer

/-! ## TW_SYNC and phase lock -/

/-- Level that the device puts on TW_SYNC; none = high-impedance or input (R391, Table 15.8). -/
def State.twSyncPin (s : State) : Option Bool :=
  if s.twin.pulse.any fun t => decide (t < (s.now + 1) * 256 ∧ s.now * 256 < t + 256) then some true
  else if s.drivesSync || decide (s.twin.step = 2) then some false else none

/-- Levels on TW_OWN and TW_FAULT_OUT; none = high-impedance (R383, Table 15.8). -/
def State.twPins (s : State) : Option Bool × Option Bool :=
  if s.sys.mode = .reset then (none, none) else (some (s.flag F.TW_STAT_OWN 0 0), some (s.flag F.TW_STAT_FAULT_OUT 0 0))

/-- TW_SYNC_RETURN (R389): the active's pulse of step 2, exactly 64 lc after the standby's arrived. -/
def execTwSyncReturn (s : State) : Out :=
  if s.twin.step = 2 ∧ s.twin.standby = false then
    let now := s.now
    .next ((s.modTwin fun t => { t with pulse := some ((t.trip.map (· + 16384)).getD (now * 256)) }).pairStep 3)
  else .next s

/-- A signed 16-bit field's bits. -/
def sBits16 (x : Int) : Nat := (x % 65536).toNat

/-- A pulse at a mark under phase lock, `a` fs after lc 0 (R391, R392): a positive Φ advances edges (DEDUCED, log entry 47). -/
def State.phaseMeasure (s : State) (a : Int) : State :=
  let t := s.twin
  let m0 : Int := t.markAt * 256
  let d0 := a - (m0 - t.phi)
  let e := if 64 * 128 < d0 then d0 - 64 * 256 else d0
  let phi := t.phi - max (-4) (min 4 e)
  let ok := decide (e.natAbs * 2500 ≤ 6400)
  let n := if ok then t.okMarks + 1 else 0
  let s := s.modTwin fun t =>
    { t with phi := phi, okMarks := n, carry := if 256 ≤ phi then 1 else if phi ≤ -256 then -1 else 0 }
  let s := s.setReg .TW_PHASE 0 0 (BitVec.ofNat 32 (sBits16 phi * 65536 + sBits16 e))
  if 16 ≤ n then s.setFld F.TW_STAT_LOCK 0 0 1
  else if 12800 < e.natAbs * 2500 then s.setFld F.TW_STAT_LOCK 0 0 0 else s

/-- TW_SYNC_ARRIVAL (R389, R391): a pulse arrives `e` fs after the start of the present lc. In step 2 the active answers 64 lc
later and the standby finds TW_DELAY; in step 3 the standby puts its marks on the active's. -/
def execTwSyncArrival (e : Int) (s : State) : Out :=
  if !s.mode.cores then .next s
  else
    let a : Int := s.now * 256 + e
    let t := s.twin
    if t.lockOn then .next (s.phaseMeasure (a - (s.reg .TW_DELAY 0 0).toNat))
    else if t.step = 2 ∧ t.standby = false then
      .next ((s.modTwin fun w => { w with trip := some a.toNat }).sched 64 .twSyncReturn)
    else if t.step = 2 then
      match t.trip with
      | some t0 => .next ((s.setReg .TW_DELAY 0 0 (BitVec.ofNat 32 (sBits16 ((a - t0 * 256 - 64 * 256) / 2)))).pairStep 3)
      | none => .next s
    else if t.step = 3 ∧ t.standby = true ∧ t.trip = none then
      let m := ((a - (s.reg .TW_DELAY 0 0).toNat + 128) / 256).toNat
      .next (s.modTwin fun w => { w with markAt := m, trip := some m })
    else .next s

/-- The standby's generators and timers hold (+1) or skip (−1) an lc (R391). -/
def State.shiftCounters (s : State) (d : Int) : State :=
  let mv (t : Nat) : Nat := (t + d).toNat
  let mvf (t : Nat) : Nat := (t + d * 256).toNat
  let timed (c : Instr) : Bool := (List.finRange 16).any (fun n => pwmTimed n c) || match c with
    | .timerZero _ => true
    | .timerMatch _ _ => true
    | .deadTimeEnd _ _ => true
    | .adaptiveTurnOn _ _ => true
    | _ => false
  { s with
    cal := s.cal.map fun e => if timed e.2 then (mv e.1, e.2) else e
    pwm := s.pwm.map fun g => { g with
      began := mv g.began
      on := g.on.map fun p => { p with toff := mvf p.toff, t := p.t.map mvf }
      edge := g.edge.map mvf
      edgeB := g.edgeB.map mvf }
    tmr := s.tmr.map fun t => { t with zeroAt := mv t.zeroAt } }

/-- Marks, carries and missed heartbeats that fall in this lc (R386, R387, R391); each lc, before anything else of it. -/
def State.twMarks (s : State) : State :=
  if !s.mode.cores then s
  else
    let t := s.twin
    let len := (64 - t.carry).toNat
    let s := if s.now = t.markAt + len then
        let s := if t.carry = 0 then s
          else (s.shiftCounters (-t.carry)).modTwin fun w => { w with phi := w.phi - 256 * w.carry, carry := 0 }
        s.emit .twMark
      else s
    let q := s.now - t.hbAt
    let s := if 65 ≤ q ∧ (q - 65) % 64 = 0 then s.emit .heartbeatMissed else s
    if q = 193 then s.emit .peerLost else s

/-! ## Epochs: sending -/

/-- Record of an epoch (Table 15.5). -/
def epochRecord (ty ix addr : Nat) (d : List Byte) : List Byte :=
  leBytes (ty * 2 ^ 24 + ix * 65536 + d.length / 4) 4 ++ leBytes addr 4 ++ d

/-- A generator's 16 bytes of the TYPE 0x02 record. -/
def State.epochGen (s : State) (n : GenId) : List Byte :=
  Word.bytes (s.reg .PWMn_PER_ACT n 0) ++ Word.bytes (s.reg .PWMn_CMPA_ACT n 0) ++ Word.bytes (s.reg .PWMn_CMPB_ACT n 0) ++
    Word.bytes (s.countWord n + BitVec.ofNat 32 s.pwm[n].mode)

/-- Flits of the EPOCH frames of the first `n` bytes of an epoch (R385, R394). -/
def epochFlits (n : Nat) : Nat := n / 512 * 17 + if n % 512 = 0 then 0 else 1 + (n % 512 + 31) / 32

/-- The epoch captured in this lc (Table 15.5). -/
def State.epochBytes (s : State) (seq : Word) : List Byte :=
  let recs := (s.epochLes.map fun n => epochRecord 1 n.val 0 (s.bytes (leState n) 4096)) ++
    [epochRecord 2 0 0 ((List.finRange 16).flatMap s.epochGen)] ++
    s.epochRegions.map fun x => epochRecord 3 x.1 x.2.1 (s.bytes x.2.1 x.2.2)
  let len := s.epochSize
  let body := [0x48455045, seq, BitVec.ofNat 32 len, s.reg .TW_GEN 0 0, s.reg .SM_CFGGEN 0 0, BitVec.ofNat 32 recs.length,
      BitVec.ofNat 32 s.twin.markIdx, 0].flatMap Word.bytes ++ recs.flatten ++
    [0xFF, seq, BitVec.ofNat 32 len].flatMap Word.bytes
  body ++ Word.bytes (crc32c body)

/-- Base of the epoch buffer for a SEQ (R393, R395). -/
def State.twBuf (s : State) (seq : Nat) : Nat :=
  (if seq % 2 = 0 then s.reg .TW_BUF0 0 0 else s.reg .TW_BUF1 0 0).toNat / 65536 * 65536

/-- The device captures epochs: armed, active, not in fault-hold (R389, R393, R399). -/
def State.captures (s : State) : Bool :=
  s.twin.armed && !s.twin.standby && (s.activeOk || decide (s.twin.step = 4 ∧ (s.mode = .ready ∨ s.mode = .runSolo)) ||
    decide (s.twin.step = 5 ∧ (s.mode = .ready ∨ s.mode = .runSolo)))

/-- EPOCH_CAPTURE (R393, R394); it acts when the rest of the lc is done, so that a fault-hold of the lc prevents it (Table 15.7). A region
that cannot be read is a fault (R301). -/
def execEpochCapture (s : State) : Out :=
  if !s.captures then .next s
  else if !s.isLate then .next (s.defer .epochCapture)
  else if s.twin.tx.isSome then .next (s.bump F.TW_ERR_CNT_EPSKIP 0 0)
  else
    let t := s.epochRegions.foldl (fun x r => let y := x.2.eccRead r.2.1 r.2.2; (x.1 || y.1, y.2)) (false, s)
    if t.1 then .next t.2
    else
    let s := t.2
    let seq := s.reg .TW_EPOCH_SEQ 0 0 + 1
    let bs := s.epochBytes seq
    let now := s.now
    let s := (s.setReg .TW_EPOCH_SEQ 0 0 seq).putMem (s.twBuf seq.toNat) bs
    .next (s.modTwin fun t => { t with tx := some (now, 0, bs) })

/-- A period of the reference generator starts in this lc: every (EPDIV + 1)-th has a capture instant (R393). Each lc. -/
def State.epochPeriod (s : State) : State :=
  if s.captures && (s.mx.ev ++ s.mx.evDone).contains (pwmSrc s.refGen) then
    let n := s.twin.periods + 1
    if n = s.fld F.TW_EPOCH_CFG_EPDIV 0 0 + 1 then
      let s := s.modTwin fun t => { t with periods := 0 }
      s.schedMore (s.fld F.TW_EPOCH_CFG_CAPOFS 0 0) .epochCapture
    else s.modTwin fun t => { t with periods := n }
  else s

/-- Puts the next EPOCH frame on the link once the flits of those before it have passed: 82.20 M flits/s (R386) are 411 flits in 2,000
lc. A HEARTBEAT of a mark inside it follows it (R386). Each lc. -/
def State.epochSend (s : State) : State :=
  match s.twin.tx with
  | some (t0, off, bs) =>
    if (s.now - t0) * 411 < epochFlits (min off bs.length) * 2000 then s
    else if bs.length ≤ off then s.emit .epochSent
    else
      let seq := wordAt bs 4
      let s := s.beat 6 false false (s.twBuf seq.toNat + off) (min 512 (bs.length - off))
      let s := s.twSend 2 (Word.bytes seq ++ leBytes off 4 ++ leBytes bs.length 4) ((bs.drop off).take 512)
      s.modTwin fun t => { t with tx := some (t0, off + 512, bs) }
  | none => s

/-- EPOCH_SENT (R394). -/
def execEpochSent (s : State) : Out := .next (s.modTwin fun t => { t with tx := none })

/-- EPOCH_ACK (R397). -/
def execEpochAck (h : TwHdr) (t : List Byte) (s : State) : Out :=
  twRecv 3 0 0 h t [] (fun s =>
    if s.twin.armed && !s.twin.standby then
      let s := (s.setReg .TW_EPOCH_ACKED 0 0 (wordAt t 0)).evcRaise 0x1A5
      if s.twin.step = 4 then s.pairStep 5 else s
    else s) s

/-! ## Epochs: receiving -/

/-- The device takes epochs: as a standby, in pairing and until its takeover (R389, R395, R406). -/
def State.takesEpochs (s : State) : Bool :=
  s.twin.standby && (decide (s.mode = .runStandby) || decide (s.mode = .handover) || decide (4 ≤ s.twin.step))

/-- Every byte has arrived once: the pieces follow one another from 0. -/
def covered (offs : List (Nat × Nat)) (len : Nat) : Bool :=
  offs.all (fun p => decide ((offs.filter fun q => decide (q.1 = p.1)).length = 1)) &&
    decide (offs.foldl (fun n p => n + p.2) 0 = len) &&
    offs.all fun p => decide (p.1 = 0) || offs.any fun q => decide (q.1 + q.2 = p.1)

/-- Applies the records of a committed epoch that take effect in the commit lc (R395). -/
def State.commitRecords (s : State) : Nat → List Byte → State
  | 0, _ => s
  | n + 1, bs =>
    let w := (wordAt bs 0).toNat
    let len := w % 65536 * 4
    let d := (bs.drop 8).take len
    let ix := w / 65536 % 256
    let s := if w / 2 ^ 24 = 1 ∧ ix < 8 then s.leCommit (Fin.ofNat 8 ix) (bytesToWords d)
      else if w / 2 ^ 24 = 2 then
        s.modTwin fun t => { t with mirror := Vector.ofFn fun i => { t.mirror[i] with
          per := (wordAt d (16 * i.val)).toNat % 65536
          cmpb := (wordAt d (16 * i.val + 8)).toNat % 2 ^ 24
          mode := (wordAt d (16 * i.val + 12)).toNat % 8 } }
      else s
    if w / 2 ^ 24 = 0 then s else s.commitRecords n (bs.drop (8 + len))

/-- Copies the regions of an epoch to their addresses in SRAM (R395). -/
def State.commitRegions (s : State) : Nat → List Byte → State
  | 0, _ => s
  | n + 1, bs =>
    let w := (wordAt bs 0).toNat
    let len := w % 65536 * 4
    let a := (wordAt bs 4).toNat
    let s := if w / 2 ^ 24 = 3 ∧ 0x20000000 ≤ a ∧ a + len ≤ 0x21800000 then s.putMem a ((bs.drop 8).take len) else s
    if w / 2 ^ 24 = 0 then s else s.commitRegions n (bs.drop (8 + len))

/-- Commits an epoch (R395), before a decision of the same lc (Table 15.7); how long the region copy takes is free (DESIGN CHOICE, log entry 40). -/
def State.epochCommit (s : State) (seq : Word) (len : Nat) : State :=
  let bs := s.bytes (s.twBuf seq.toNat) len
  let s := s.commitRecords 32 (bs.drop 32)
  let s := (s.setReg .TW_EPOCH_SEQ 0 0 seq).setFld F.TW_STAT_APPLYING 0 0 1
  let now := s.now
  let s := s.modTwin fun t => { t with commit := t.commit && t.dec.any (fun d => decide (d.1 = now)), applied := len }
  (s.sched (Config.copyTime s.fresh + 1) .epochApplyDone).draw

/-- The end marker of an epoch has arrived whole (R395), or the epoch is discarded (R396). -/
def State.epochEnd (s : State) (seq : Word) (len : Nat) : State :=
  let t := s.eccRead (s.twBuf seq.toNat) len
  let s := t.2
  let bs := s.bytes (s.twBuf seq.toNat) len
  let last := match s.twin.rxWait.getLast? with
    | some (q, _) => BitVec.ofNat 32 q
    | none => s.reg .TW_EPOCH_SEQ 0 0
  if !t.1 && covered s.twin.rxOffs len && decide (seq = last + 1) && decide (wordAt bs (len - 4) = crc32c (bs.take (len - 4))) then
    let s := s.modTwin fun t => { t with rxLen := 0, rxOffs := [] }
    if s.flag F.TW_STAT_APPLYING 0 0 then s.modTwin fun t => { t with rxWait := t.rxWait ++ [(seq.toNat, len)] } else s.epochCommit seq len
  else s.epochDiscard

/-- EPOCH (R395, R396). -/
def execEpoch (h : TwHdr) (t : List Byte) (d : List Byte) (s : State) : Out :=
  twRecv 2 1 16 h t d (fun s =>
    if !s.takesEpochs then s
    else
      let seq := wordAt t 0
      let off := (wordAt t 4).toNat
      let len := (wordAt t 8).toNat
      if 65536 < len ∨ len < 16 ∨ len ≤ off then s
      else
        let open_ := decide (s.twin.rxLen ≠ 0)
        if open_ && decide (seq.toNat < s.twin.rxSeq) then s
        else
          let s := if open_ && decide (seq.toNat ≠ s.twin.rxSeq) then s.epochDiscard else s
          let s := if s.twin.rxLen = 0 then s.modTwin fun w => { w with rxSeq := seq.toNat, rxLen := len, rxOffs := [] } else s
          let n := min d.length (len - off)
          let s := (s.beat 6 true false (s.twBuf seq.toNat + off) n).putMem (s.twBuf seq.toNat + off) (d.take n)
          let s := s.modTwin fun w => { w with rxOffs := w.rxOffs ++ [(off, n)] }
          if len ≤ off + n then s.epochEnd seq s.twin.rxLen else s) s

/-- EPOCH_APPLY_DONE (R395): a standby acknowledges; an epoch that waited commits. -/
def execEpochApplyDone (s : State) : Out :=
  if !s.flag F.TW_STAT_APPLYING 0 0 then .next s
  else
    let seq := s.reg .TW_EPOCH_SEQ 0 0
    let s := (s.eccRead (s.twBuf seq.toNat) s.twin.applied).2
    let bs := s.bytes (s.twBuf seq.toNat) s.twin.applied
    let s := (s.unsched .epochApplyDone).commitRegions 32 (bs.drop 32)
    let s := s.setFld F.TW_STAT_APPLYING 0 0 0
    if s.takesEpochs then
      let s := s.twSend 3 (Word.bytes seq) []
      let s := if s.twin.step = 4 then s.pairStep 5 else s
      match s.twin.rxWait with
      | (q, len) :: rest => .next ((s.modTwin fun t => { t with rxWait := rest }).epochCommit (BitVec.ofNat 32 q) len)
      | [] => .next s
    else .next s

/-! ## Agreement -/

/-- The instants in fs of a period at which the mirror's REF rises and falls, or the level it holds (R113, R114). -/
def mirrorRef (mode per st v : Nat) : Bool ⊕ (Nat × Nat) :=
  let u := st * 256
  let c := v / 256 * u + v % 256
  let p := per * u
  match mode with
  | 1 => if c = 0 then .inl false else if p ≤ c then .inl true else .inr (0, c)
  | 2 => if c = 0 then .inl false else if p ≤ c then .inl true else .inr (p - c, 0)
  | 3 => if c = 0 then .inl false else if p ≤ c then .inl true else .inr (2 * p - c, c)
  | 4 => if c = 0 then .inl false else if p ≤ c then .inl true else .inr (0, c)
  | 5 => if c = 0 then .inl true else if p ≤ c then .inl false else .inr (c, 0)
  | _ => .inl false

/-- The level that a signal holds from instant `o` of a period of `len` fs for one lc, if it changes in none of its instants
after the first: it rises `dt` after `up` unless it falls first, and falls at `dn`. -/
def steadyLevel (up dn dt len o : Nat) : Option Bool :=
  let high := (dn + len - up) % len
  let pos := (o + len - up) % len
  if high ≤ dt then some false
  else
    let inside (e : Nat) : Bool := decide (0 < (e + len - pos) % len) && decide ((e + len - pos) % len < 256)
    if inside dt || inside high then none else some (decide (dt ≤ pos) && decide (pos < high))

/-- Level of output x of the mirror of generator n over the whole of this lc, its edges moved by the twin offset (R391, R400). -/
def State.mirrorLevel (s : State) (n : GenId) (x : Fin 2) : Option Bool :=
  let g := s.pwm[n]
  let m := s.twin.mirror[n]
  let len := (if m.mode = 3 then 2 * m.per else m.per) * g.st * 256
  let o := ((((s.now - g.began + g.k0 * g.st) * 256 : Nat) + s.twin.phi) % (max 1 len : Nat)).toNat
  let dt (y : Fin 2) : Nat := if y = 0 then g.dta else g.dtb
  if s.fld F.PWMn_CFG_OUTMODE n 0 = 1 then
    match mirrorRef m.mode m.per g.st (if x = 0 then m.cmpa else m.cmpb) with
    | .inl b => some b
    | .inr (up, dn) => steadyLevel up dn 0 len o
  else
    match mirrorRef m.mode m.per g.st m.cmpa with
    | .inl b => some (b != decide (x = 1))
    | .inr (up, dn) => if x = 0 then steadyLevel up dn (dt 0) len o else steadyLevel dn up (dt 1) len o

/-- Level held over the lc that starts at instant `a` (fs) by an output that is at `v` since its edge at `e`, the edge before at `p`;
none if it changes within. -/
def heldOver (v : Bool) (e p : Nat) (a : Int) : Option Bool :=
  if e ≤ a then some v else if a + 256 ≤ e ∧ p ≤ a then some !v else none

/-- Generator n agrees with its mirror in this lc (R400); where the peer's does not run, its outputs hold the safe pattern. `t` is a
state in which the edges of the lc have been reached, moved by the twin offset (R391; DEDUCED, log entry 47). -/
def State.agrees (s t : State) (n : GenId) : Bool :=
  ([0, 1] : List (Fin 2)).all fun x =>
    if s.twin.mirror[n].mode = 0 then decide (s.pwm[n].safe = true)
    else
      match heldOver (t.pwmOut n x) t.pwm[n].edge[x] t.pwm[n].edgeB[x] ((s.now * 256 : Nat) + s.twin.phi) with
      | some own => s.pwmRuns n && decide (s.mirrorLevel n x = some own)
      | none => false

/-- What a timed PWM command does, for the forecast; any other does nothing. -/
def pwmRow (c : Instr) (s : State) : State :=
  let run (o : Out) : State := match o with
    | .next t => t
    | _ => s
  match c with
  | .pwmPeriodStart n => run (execPwmPeriodStart n s)
  | .pwmPeriodMiddle n => run (execPwmPeriodMiddle n s)
  | .pwmCompareAction n b => run (execPwmCompareAction n b s)
  | .deadTimeEnd n b => run (execDeadTimeEnd n b s)
  | .adaptiveTurnOn n b => run (execAdaptiveTurnOn n b s)
  | .dtmaxExpiry n => run (execDtmaxExpiry n s)
  | .periodEnd n => run (execPeriodEnd n s)
  | .periodMax n => run (execPeriodMax n s)
  | _ => s

/-- The generators one lc on, as what is scheduled now has them. -/
def State.pwmAhead (s : State) : State :=
  let t := s.now + 1
  let due (k : Nat) (s : State) : State :=
    let now (e : Nat × Instr) : Bool := decide (e.1 ≤ t) && decide (dueRank e.2 = k)
    ((s.cal.filter now).map (·.2)).foldl (fun s c => pwmRow c s) { s with cal := s.cal.filter fun e => !now e }
  let rows (s : State) : State := s.inbox.foldl (fun s c => pwmRow c s) { s with inbox := [] }
  let s := due 2 (due 1 (due 0 { s with now := t, inbox := [], old := s.regs, marks := [] }).pwmFirstAll)
  let s := (rows s.pwmEnds).pwmFirstAll.pwmWaits
  rows ((List.finRange 16).foldl (fun s n => s.pwmLate n) (due 3 s))

/-- Level of an output at `tau` fs of this lc as its pin shows it: Φ advances every edge by itself (R391; log entry 47), behind the level
that the matrix sees (DESIGN CHOICE, log entry 147). At a carry the counters move by what Φ takes back, and no edge moves. -/
def State.pwmPinAt (s : State) (n : GenId) (x : Fin 2) (tau : Nat) : Option Bool :=
  let t := if 0 < s.twin.phi then s.pwmAhead else s
  let a : Int := ((s.now * 256 + tau : Nat) : Int) + s.twin.phi
  let v := t.pwm[n].lvl[x]
  let l := if t.pwm[n].edge[x] ≤ a then v else if t.pwm[n].edgeB[x] ≤ a then !v else v
  if !s.sys.mode.live || s.pwm[n].safe then s.pwmPin n x
  else some (l ^^ (if x = 0 then s.flag F.PWMn_CFG_POLA n 0 else s.flag F.PWMn_CFG_POLB n 0))

/-- Every judged generator agrees in this lc: a twin offset that advances the edges brings edges of the next lc into this one. -/
def State.allAgree (s : State) : Bool :=
  let t := if 0 < s.twin.phi then s.pwmAhead else s
  s.agrGens.all (s.agrees t)

/-- Every judged generator agrees in this lc and the `k` after it. -/
def State.agreeFor (s : State) : Nat → Bool
  | 0 => s.allAgree
  | k + 1 => s.allAgree && s.pwmAhead.agreeFor k

/-- This lc is the agreement point (R400, R406). Judged when everything else of the lc is done. -/
def State.agreementNow (s : State) : Bool :=
  decide (s.mode = .handover) && s.twin.dec.isSome && !s.twin.commit && s.agreeFor 5

end Sys2Proof.Machine
end

