-- ==== Sys2Proof/Machine/Bus.lean ====
section
/-! DEFINITION. The bus: where an address leads, reads and writes of every region, register views and side effects
(R6, R20 to R26, R245, R266, R301, R309, R314, R356 to R360, R371). -/

namespace Sys2Proof.Machine

/-! ## Places -/

/-- What an address leads to. -/
inductive Place
  | nowhere
  | ram (a : Nat)
  | flash (a : Nat)
  | config (a : Nat)
  | reg (r : RegName) (i j : Nat)
  deriving DecidableEq, Repr

/-- Pair-private registers (R371). -/
def RegName.isPrivate (r : RegName) : Bool := decide (0x44308000 ≤ r.base) && decide (r.base < 0x4430C000)

/-- The register at a word address; the debug aliases answer the debug port alone (R25, R371). -/
def regPlace (r : Req) (a : Nat) : Place :=
  match regAt a with
  | some (rn, i, j) => if rn.isPrivate && !r.isDebug then .nowhere else .reg rn i j
  | none => .nowhere

/-- Base that a 64-KiB part of the Monitor alias maps (R23). -/
def monitorBase (k : Nat) : Nat := if k = 0 then 0x44000000 else if k = 1 then 0x44200000 else 0x44300000

/-- Where an aligned access of `n` bytes at `a` leads (R20 to R25, Tables 1.4, 1.5). -/
def place (r : Req) (a n : Nat) : Place :=
  if a < 0x100000 then
    match r.pair with
    | some p => .ram (aliasBase p + a)
    | none => .nowhere
  else if inFlash a then .flash a
  else if 0x20000000 ≤ a ∧ a < 0x21800000 then .ram a
  else if 0x30000000 ≤ a ∧ a < 0x30400000 then .ram a
  else if 0x38000000 ≤ a ∧ a < 0x38400000 then .ram a
  else if n ≠ 4 then .nowhere
  else if 0x40000000 ≤ a ∧ a < 0x44400000 then regPlace r a
  else if 0x50000000 ≤ a ∧ a < 0x51000000 then .config a
  else if 0xE0000000 ≤ a ∧ a < 0xE0001000 then
    match r.pair with
    | some p =>
      match regAt (0x44308000 + p.val * 0x1000 + (a - 0xE0000000)) with
      | some (rn, i, j) => .reg rn i j
      | none => .nowhere
    | none => .nowhere
  else if 0xF0000000 ≤ a ∧ a < 0xF0030000 then
    if r.isDebug || (r.pair.isSome && decide (r.priv = .monitor)) then
      let o := a - 0xF0000000
      regPlace r (monitorBase (o / 0x10000) + o % 0x10000)
    else .nowhere
  else .nowhere

/-! ## Memory -/

/-- A store of `n` bytes into memory: the loop memory refuses the active bank and, while EN = 1, state and microcode, counting
ACTWR (R211, R212). -/
def State.ramWrite (s : State) (m : Option Pair) (a v n : Nat) : State :=
  if 0x30000000 ≤ a ∧ a < 0x30380000 then
    s.leBusWrite (Fin.ofNat 8 ((a - 0x30000000) / 0x70000)) a v n
  else
    let t := s.eccWrite a n
    if t.1 then t.2.busError else (t.2.snoop m a n).writeLE a v n

/-! ## Registers: reads -/

/-- Word j of a vector of source bits. -/
def srcWord (v : BitVec 512) (j : Nat) : Word := (v >>> (32 * j)).setWidth 32

/-- What a read of EVC_TGTk_STAT shows. -/
def State.tgtStat (s : State) (k : Pair) : Word :=
  let n := ((List.finRange 512).filter fun (m : SrcId) => s.evc.act[k].getLsbD m.val).length
  let b (x : Bool) (i : Nat) : Nat := if x then 2 ^ i else 0
  BitVec.ofNat 32 (s.fld F.EVC_TGTk_STAT_LAST k 0 * 65536 + min 15 n * 4096 + b (s.halted k) 11 + s.evc.tid[k].val * 256 +
    b s.evc.ie[k] 7 + s.runPrio k)

/-- What a read of SYS_JRNL_DATAi shows (R434): 0 where no record is selected (Table 16.13; DESIGN CHOICE, log entry 107). -/
def State.jrnlWord (s : State) (i : Nat) : Word :=
  match s.sys.jrnl[s.fld F.SYS_JRNL_IDX_IDX 0 0]? with
  | some b => wordOfBytes (b.drop (4 * i))
  | none => 0

/-- A read of ETHn_TSFIFO (R426). -/
def State.tsRead (s : State) (n : Fin 2) (peek : Bool) : Word × State :=
  let e := s.eth[n]
  match e.fifo with
  | [] => (0, s)
  | h :: t =>
    if peek then (h.getD 0 0, s)
    else
      let e' : EthSt := if e.ix = 3 then { e with fifo := t, ix := 0 } else { e with ix := e.ix + 1 }
      (h.getD e.ix 0, { s with eth := vset s.eth n e' })

/-- What a peek of Q_POOL_ALLOC shows (R370). -/
def State.poolPeek (s : State) (t : Tenant) : Word := (s.bufTake t s.bufFree).1

/-- A register that a read shows as a view of other state, without side effect. -/
def State.view (s : State) (rn : RegName) (i j : Nat) : Option Word :=
  match rn with
  | .SYS_MODE => some s.sysMode
  | .SYS_JRNL_DATAi => some (s.jrnlWord i)
  | .ADCx_STAT => some (s.adcStat (Fin.ofNat 8 i))
  | .CMPn_STAT => some (s.cmpStat (Fin.ofNat 48 i))
  | .CMP_WINk_CFG => some (s.winCfg (Fin.ofNat 16 i))
  | .IX_BANKb_STAT => some (setBits (s.reg .IX_BANKb_STAT i j) 31 16 (min 65535 s.ix.wait[(Fin.ofNat 6 i : Bank)].length))
  | .CMP_LEVEL0 => some s.cmpLevel0
  | .CMP_LEVEL1 => some s.cmpLevel1
  | .PWMn_STAT => some (s.pwmStat (Fin.ofNat 16 i))
  | .PWMn_CNT => some (s.pwmCnt (Fin.ofNat 16 i))
  | .PWM_PEND => some s.pwmPendView
  | .TMn_CHc_VAL => some (s.tmrVal (Fin.ofNat 24 i) (Fin.ofNat 4 j))
  | .TMn_CNT => some (BitVec.ofNat 32 (s.tmrCount (Fin.ofNat 24 i)))
  | .LEn_STAT => some (s.leStat (Fin.ofNat 8 i))
  | .LEn_COAST_LC => some (BitVec.ofNat 32 (s.coastLc (Fin.ofNat 8 i)))
  | .EVC_PEND_SETj => some (srcWord s.evc.pend i)
  | .EVC_PEND_CLRj => some (srcWord s.evc.pend i)
  | .EVC_MASK_SETj => some (srcWord s.evc.mask i)
  | .EVC_MASK_CLRj => some (srcWord s.evc.mask i)
  | .EVC_ACTj => some (srcWord (s.evc.act[0] ||| s.evc.act[1] ||| s.evc.act[2] ||| s.evc.act[3]) i)
  | .EVC_RR => some (BitVec.ofNat 32 s.evc.rr.val)
  | .EVC_TGTk_STAT => some (s.tgtStat (Fin.ofNat 4 i))
  | .FL_STAT => some s.flStat
  | .FL_WEAR => some s.flWear
  | .DCHn_STAT => some (s.dmaStat (Fin.ofNat 32 i))
  | .DMA_STAT => some s.dmaStatus
  | .Qn_STAT => some (s.qStat (Fin.ofNat 256 i))
  | .Qn_HEADTAG => some (s.qHeadTag (Fin.ofNat 256 i))
  | .PTU_PAIRk_STAT =>
    some (setBits (s.reg .PTU_PAIRk_STAT i j) 2 0 (s.pair (Fin.ofNat 4 i)).tid.val)
  | .DBG_STAT => some (setBits (s.reg .DBG_STAT 0 0) 15 12 (getBits s.sysMode 19 16))
  | _ => none

/-- A read of a register by requester `r`; `peek` leaves out its side effects (R6, R155, R349, R352, R370, R426). -/
def State.regRead (s : State) (r : Req) (peek : Bool) (rn : RegName) (i j : Nat) : Word × State :=
  match rn with
  | .TOD_NS => s.todRead r
  | .TOD_SEC_SNAP => (s.tod.snap[r.master].1, s)
  | .TOD_FINE_SNAP => (s.tod.snap[r.master].2, s)
  | .Qn_HEAD =>
    let q : QId := Fin.ofNat 256 i
    if peek then (if s.qFill q = 0 then 0 else s.word (qAddr (s.qSlot q (s.qRd q))), s) else s.qBusPop r q
  | .Q_POOL_ALLOC => if peek then (s.poolPeek r.tenant, s) else s.poolAlloc r
  | .Q_SEMn => if peek then (s.reg .Q_SEMn i 0, s) else s.semRead r (Fin.ofNat 64 i)
  | .ETHn_TSFIFO => s.tsRead (Fin.ofNat 2 i) peek
  | _ =>
    match s.view rn i j with
    | some w => (w, s)
    | none => s.readReg rn i j peek

/-! ## Registers: writes -/

/-- Writes a register by its access codes, then stores `x` in a field. -/
def State.writeFix (s : State) (rn : RegName) (i j : Nat) (v : Word) (f : Fld) (x : Nat) : State :=
  (s.writeReg rn i j v).setFld f i j x

/-- Writes a register whose field ERR any written 1 clears whole. -/
def State.writeErr (s : State) (rn : RegName) (i : Nat) (v : Word) (f : Fld) : State :=
  let hit := decide (s.fld f i 0 &&& getBits v f.hi f.lo ≠ 0) && decide (getBits (s.came rn i 0) f.hi f.lo = 0)
  let w := s.fld f i 0
  let s := s.writeReg rn i 0 v
  s.setFld f i 0 (if hit then 0 else w)

/-- A write to a register of loop engine n. -/
def State.leRegWrite (s : State) (rn : RegName) (n : LeId) (v : Word) : State :=
  match rn with
  | .LEn_CTRL => s.leCtrlWrite n v
  | .LEn_STAT => s.leStatWrite n v
  | .LEn_OBS_CFG => s.leObsWrite n v
  | .LEn_OBS_REACQ => s.reacqWrite n v
  | .LEn_PARAM_SWAP => if v.getLsbD 0 then s.leSwap n else s
  | .LEn_TBL_CTL => s.tblWrite n v
  | _ => s.writeReg rn n 0 v

/-- A write to a register of generator n (R120, R131, R137). -/
def State.pwmRegWrite (s : State) (rn : RegName) (n : GenId) (v : Word) : State :=
  match rn with
  | .PWMn_CFG => s.pwmCfgWrite n v
  | .PWMn_SAFE => s.pwmSafeWrite n v
  | .PWMn_STAT => s.tripClear n v
  | .PWMn_PER => s.shadowWrite rn n v
  | .PWMn_CMPA => s.shadowWrite rn n v
  | .PWMn_CMPB => s.shadowWrite rn n v
  | .PWMn_DTA => s.shadowWrite rn n v
  | .PWMn_DTB => s.shadowWrite rn n v
  | .PWMn_DTMIN => s.shadowWrite rn n v
  | .PWMn_MARGIN => s.shadowWrite rn n v
  | .PWMn_PMIN => s.shadowWrite rn n v
  | .PWMn_TRG0 => s.shadowWrite rn n v
  | .PWMn_TRG1 => s.shadowWrite rn n v
  | .PWMn_PHASE => s.shadowWrite rn n v
  | .PWMn_PHFRAC => s.shadowWrite rn n v
  | _ => s.writeReg rn n 0 v

/-- A register of one loop engine. -/
def RegName.isLe (r : RegName) : Bool := decide (0x40500000 ≤ r.base) && decide (r.base < 0x40510000)
/-- A register of one generator. -/
def RegName.isPwm (r : RegName) : Bool := decide (0x40200000 ≤ r.base) && decide (r.base < 0x40201000)
/-- A register of the flash block. -/
def RegName.isFl (r : RegName) : Bool := decide (0x42200000 ≤ r.base) && decide (r.base < 0x42210000)

/-- A write to a register of the control blocks: converters, comparators, timers, time of day, position, matrix. -/
def State.controlWrite (s : State) (r : Req) (rn : RegName) (i j : Nat) (v : Word) : State :=
  match rn with
  | .ADCx_CTRL => s.adcCtrlWrite (Fin.ofNat 8 i) v
  | .ADCx_REF_CFG => s.adcRefWrite (Fin.ofNat 8 i) (getBits v 1 0)
  | .ADCx_SWTRIG => s.adcSwWrite (Fin.ofNat 8 i) v
  | .ADCx_SEQs_CFG => s.adcSeqWrite (Fin.ofNat 8 i) (Fin.ofNat 4 j) v
  | .ADCx_ENT_s_e => s.adcEntWrite (Fin.ofNat 8 i) j v
  | .CMPn_CFG => s.cmpCfgWrite (Fin.ofNat 48 i) v
  | .CMPn_THR => s.thrWrite (Fin.ofNat 48 i) false v
  | .CMPn_THR_ALT => s.thrWrite (Fin.ofNat 48 i) true v
  | .CMP_WINk_CFG => s.winCfgWrite (Fin.ofNat 16 i) v
  | .CMP_CHECK => s.checkWrite v
  | .PWM_LOADALL => s.loadAllWrite r v
  | .PWM_START => s.pwmStartWrite r v
  | .PWM_GRPk_CFG => if r.owns (s.grpOwner i) then s.writeReg rn i j v else s.foreign
  | .TMn_CTRL => s.tmrCtrlWrite (Fin.ofNat 24 i) v
  | .TMn_RELOAD => s.tmrReloadWrite (Fin.ofNat 24 i) v
  | .TMn_CHc_VAL => s.tmrValWrite (Fin.ofNat 24 i) (Fin.ofNat 4 j) v
  | .TM_START => s.tmrMask v State.tmrStart
  | .TM_STOP => s.tmrMask v State.tmrHalt
  | .TOD_CFG => s.todCfgWrite v
  | .TOD_ADDEND => s.addendWrite v
  | .TOD_COMMIT => s.todCommitWrite v
  | .TOD_COMMIT_AT => s.commitAtWrite v
  | .POSn_CFG => s.posCfgWrite (Fin.ofNat 8 i) v
  | .POSn_POS => s.posPreset (Fin.ofNat 8 i) v
  | .POSn_DIVNM => s.posDivnmWrite (Fin.ofNat 8 i) v
  | .POSn_STAT => s.posStatWrite (Fin.ofNat 8 i) v
  | .POSn_SSI_CFG => s.posSsiWrite (Fin.ofNat 8 i) v
  | .SM_SWEVTj => s.swRaise r (Fin.ofNat 2 i) v
  | .SM_RENj => s.renWrite r (Fin.ofNat 32 i) v
  | _ => s.writeReg rn i j v

/-- A write to a register of the event controller, which stays at its reset values before Ready but for the image's records (Table
11.7), the PTU, DMA, queues. -/
def State.serviceWrite (s : State) (r : Req) (rn : RegName) (i j : Nat) (v : Word) : State :=
  if 0x41000000 ≤ rn.base ∧ rn.base < 0x41100000 ∧ s.evcLive = false ∧ r.master.val ≠ 7 then s
  else match rn with
  | .EVC_PEND_SETj => s.evcPendSetWrite r (Fin.ofNat 16 i) v
  | .EVC_PEND_CLRj => s.evcPendClrWrite r (Fin.ofNat 16 i) v
  | .EVC_MASK_SETj => s.evcMaskSetWrite r (Fin.ofNat 16 i) v
  | .EVC_MASK_CLRj => s.evcMaskClrWrite r (Fin.ofNat 16 i) v
  | .EVC_CMPL => s.evcComplete r v
  | .EVC_SRCn_CFG =>
    if r.owns (s.srcOwner (Fin.ofNat 512 i)) then s.writeReg rn i j v else s.bump F.EVC_ERR_CNT_FOREIGN 0 0
  | .EVC_TGTk_THR => s.setFld F.EVC_TGTk_THR_THR i 0 (min 16 (getBits v 4 0))
  | .PTU_RECALL => s.recallWrite r v
  | .DCHn_CTRL => s.dmaCtrlWrite r (Fin.ofNat 32 i) v
  | .DCHn_DESC => s.dmaOwned r (Fin.ofNat 32 i) fun s => if s.dmaBusy (Fin.ofNat 32 i) then s else s.writeReg rn i j v
  | .DCHn_CFG => s.dmaOwned r (Fin.ofNat 32 i) fun s => s.writeReg rn i j v
  | .DCHn_CNT => s.dmaOwned r (Fin.ofNat 32 i) fun s => s.writeReg rn i j v
  | .DCHn_CUR => s.dmaOwned r (Fin.ofNat 32 i) fun s => s.writeReg rn i j v
  | .DCHn_OVR => s.dmaOwned r (Fin.ofNat 32 i) fun s => s.writeReg rn i j v
  | .DCHn_STAT => s.dmaOwned r (Fin.ofNat 32 i) fun s => s.writeErr rn i v F.DCHn_STAT_ERR
  | .Qn_TAIL => s.qBusPush r (Fin.ofNat 256 i) v false
  | .Qn_TAIL_EOP => s.qBusPush r (Fin.ofNat 256 i) v true
  | .Qn_CTRL => s.qCtrlWrite r (Fin.ofNat 256 i) v
  | .Qn_MARK => s.qCommand r (Fin.ofNat 256 i) fun s => s.writeReg rn i j v
  | .Q_POOL_FREE => s.poolFree r.tenant v
  | .Q_POOL_GIVE => s.poolGive r.tenant v
  | .Q_SEMn => s.semWrite r (Fin.ofNat 64 i) v
  | .Q_SEM_FORCE => s.semForce r v
  | _ => s.writeReg rn i j v

/-- A write to a register of the flash block. -/
def State.flRegWrite (s : State) (r : Req) (rn : RegName) (i j : Nat) (v : Word) : State :=
  match rn with
  | .FL_KEY => s.flKeyWrite v
  | .FL_CMD => s.flCmd r (getBits v 3 0)
  | .FL_PL_REQ => s.plReq r (getBits v 1 0)
  | .FL_STAT => s.flStatWrite v
  | .FL_WS => s.flWsWrite v
  | _ => (s.writeReg rn i j v).flNoKey

/-- A write to a register of the system controller, twin block, links, interconnect, the pairs. The debug commands are the
debug port's alone (R367). -/
def State.systemWrite (s : State) (r : Req) (rn : RegName) (i j : Nat) (v : Word) : State :=
  match rn with
  | .SYS_MODE_REQ => s.modeReqWrite r v
  | .TW_CTRL => s.twCtrlWrite r v
  | .TW_STAT => s.writeErr rn 0 v F.TW_STAT_CMDERR
  | .ETHn_CFG => s.writeFix rn i j v F.ETHn_CFG_MDIV (max 39 (getBits v 31 16))
  | .IX_STARVE_LIM => s.writeFix rn i j v F.IX_STARVE_LIM_LIM (max 1 (getBits v 15 0))
  | .SC_STs_CFG => if s.wlk then s.writeFix rn i j v F.SC_STs_CFG_K (max 1 (getBits v 15 8)) else s
  | .LP_LS_CFG =>
    if s.mode = .ready ∧ (r.isDebug = true ∨ r.level = .monitor) then
      s.writeFix rn i j v F.LP_LS_CFG_LATMAX (max 1 (getBits v 23 8)) else s
  | .DBG_CTRL => s
  | .DBG_SAFEGRP => s
  | .DBG_AUTH_CTRL => s
  | .DBG_AUTH_DATAi => s
  | .DBG_STAT => s.writeErr rn 0 v F.DBG_STAT_ERR
  | _ => if rn.isPrivate then s else s.writeReg rn i j v

/-- A write to a register by requester `r`. -/
def State.regWrite (s : State) (r : Req) (rn : RegName) (i j : Nat) (v : Word) : State :=
  if rn.isLe then s.leOwned r (Fin.ofNat 8 i) fun s => s.leRegWrite rn (Fin.ofNat 8 i) v
  else if rn.isPwm then s.pwmOwned r (Fin.ofNat 16 i) fun s => s.pwmRegWrite rn (Fin.ofNat 16 i) v
  else if rn.isFl then s.flRegWrite r rn i j v
  else if rn.base < 0x41000000 then s.controlWrite r rn i j v
  else if rn.base < 0x42200000 then s.serviceWrite r rn i j v
  else s.systemWrite r rn i j v

/-! ## Accesses -/

/-- What a read answers: data, the flash busy word with its mark, a bus error. -/
inductive BusR
  | data (v : Nat) | busy (w : Word) | error
  deriving DecidableEq, Repr

/-- The read gave data. -/
def BusR.isData : BusR → Bool
  | .data _ => true
  | .busy _ => false
  | .error => false

/-- The configuration space answers with its contents (R22): the route table and the ownership table; every other address of it
reads 0 (R231). -/
def State.configOpen (s : State) (r : Req) (a n : Nat) : Bool :=
  decide (a + n ≤ 0x50004020) &&
    (decide (r.master.val = 7) || !(s.mode = .reset || s.mode = .blank || s.mode = .loading || s.mode = .verify))

/-- A write of the loader to the configuration space: the tables alone hold anything (R231); the ownership table shows in
SM_SWOWNj too. -/
def State.configWrite (s : State) (a v n : Nat) : State :=
  if a + n ≤ 0x50004000 then s.writeLE a v n
  else if a + n ≤ 0x50004020 then
    let s := s.writeLE a v n
    let j := (a - 0x50004000) / 4
    s.setReg .SM_SWOWNj j 0 (s.word (0x50004000 + 4 * j))
  else s

/-- An aligned read of `n` bytes; windows have been judged. A pair's load waits for the beats of SRAM. -/
def State.busRead (s : State) (r : Req) (peek : Bool) (a n : Nat) : BusR × State :=
  match place r a n with
  | .nowhere => (.error, s)
  | .ram b =>
    let t := (s.beat r.master false r.pair.isSome b n).eccRead b n
    (if t.1 then .error else .data (s.readLE b n), t.2)
  | .flash b =>
    match s.flReadBy r.master b with
    | (.busy w, s) => (.busy w, s)
    | (.bad, s) => (.error, s)
    | (.ok, s) => (.data (s.readLE b n), s)
  | .config b => (.data (if s.configOpen r b n then s.readLE b n else 0), s)
  | .reg rn i j =>
    let t := s.regRead r peek rn i j
    (.data t.1.toNat, t.2)

/-- An aligned write of the low `n` bytes of `v`; windows have been judged. A bus error shows in the answer. -/
def State.busWrite (s : State) (r : Req) (a v n : Nat) : State :=
  let s := s.answer 0
  match place r a n with
  | .nowhere => s.busError
  | .ram b => (s.beat r.master true false b n).ramWrite r.pair b v n
  | .flash _ => s.busError
  | .config b => if r.master.val = 7 ∧ s.mode = .loading then s.configWrite b v n else s.busError
  | .reg rn i j => s.regWrite r rn i j (BitVec.ofNat 32 v)

/-- The `n` bytes at `a` of a line that reads as the busy word (R314). -/
def busyBytes (w : Word) (a n : Nat) : Nat := (w.toNat + w.toNat * 2 ^ 32) / 256 ^ (a % 4) % 256 ^ n

/-! ## Accesses as commands -/

/-- A command that is an access of a word at `a`: no effect where the master can make none; a violation where no window
permits it (R362); a bus error where it is not aligned (R24); else `body`. -/
def wordCmd (r : Req) (k : Kind) (a : Word) (body : State → State) (s : State) : Out :=
  if s.reqLive r k then
    if a.toNat % 4 ≠ 0 then .next s.busError
    else if s.permitted r k a.toNat 4 then .next (body (s.access r.master))
    else .next (s.violation r k a.toNat).busError
  else .next s

/-- The answer of a word read. -/
def State.readAnswer (s : State) (r : Req) (peek : Bool) (a : Word) : State :=
  match s.busRead r peek a.toNat 4 with
  | (.data v, s) => s.answer (BitVec.ofNat 32 v)
  | (.busy w, s) => s.answer w
  | (.error, s) => s.busError

/-- REGISTER_READ_CLEAR (R6): a read, which clears the RCLR fields. -/
def execRegisterReadClear (r : Req) (a : Word) (s : State) : Out :=
  wordCmd r .read a (fun s => s.readAnswer r false a) s

/-- REGISTER_WRITE (R6). -/
def execRegisterWrite (r : Req) (a : Word) (v : Word) (s : State) : Out :=
  wordCmd r .write a (fun s => s.busWrite r a.toNat v.toNat 4) s

end Sys2Proof.Machine
end

