-- ==== Sys2Proof/Machine/Dma.lean ====
section
/-! DEFINITION. The DMA engine at work: descriptors, choice of channel, blocks, transforms (R329 to R338). -/

namespace Sys2Proof.Machine

/-! ## Descriptors -/

/-- The fields of a descriptor (Table 13.1). -/
def dmaDecode (w : Nat → Word) : DmaDesc where
  src := (w 0).toNat
  dst := (w 1).toNat
  cnt := (w 2).toNat
  last := (w 3).getLsbD 31
  irq := (w 3).getLsbD 30
  xf := getBits (w 3) 29 28
  unpack := (w 3).getLsbD 27
  esz := getBits (w 3) 25 24
  nstr := getBits (w 3) 19 16 + 1
  srcmode := getBits (w 3) 15 14
  dstmode := getBits (w 3) 13 12
  pitch := (w 4).toNat
  next := (w 5).toNat

/-- Elements that CNT must be a multiple of (R337, R338). -/
def DmaDesc.whole (d : DmaDesc) : Nat :=
  if d.xf = 3 then 32 else if d.xf = 0 then 1 else d.nstr

/-- BAD_DESC (Table 13.2): a reserved field or code, an alignment, a transform group. -/
def dmaBad (w : Nat → Word) (d : DmaDesc) : Bool :=
  decide ((w 3) &&& 0x04F00FFF ≠ 0) || decide (w 6 ≠ 0) || decide (w 7 ≠ 0) || decide (d.esz = 3) ||
    decide (d.srcmode = 3) || decide (d.dstmode = 3) ||
    (decide (d.srcmode ≠ 2) && decide (d.src % d.size ≠ 0)) || (decide (d.dstmode ≠ 2) && decide (d.dst % d.size ≠ 0)) ||
    decide (d.cnt % (d.whole * d.size) ≠ 0)

/-- A queue that the channel's tenant may link: its own credit queue (Table 13.2). -/
def State.linkable (s : State) (n : Chan) (q : QId) : Bool := decide (s.queueOwner q = s.dmaOwner n) && s.qCredit q

/-- QUEUE_LINK (Table 13.2). -/
def State.dmaLinkBad (s : State) (n : Chan) (d : DmaDesc) : Bool :=
  let a := sideQueue d.srcmode d.src
  let b := sideQueue d.dstmode d.dst
  (a.any fun q => !s.linkable n q) || (b.any fun q => !s.linkable n q) || (a.isSome && decide (a = b))

/-- The ranges of memory that the windows must hold: first byte and length (R333). The arrays of an interleave can lie beyond the range
R333 names for its source: their beats are judged one by one (R359; DEDUCED, log entry 78). -/
def DmaDesc.ranges (d : DmaDesc) : List (Kind × Nat × Nat) :=
  (match d.srcmode with
   | 0 => [(Kind.read, d.src, d.cnt)]
   | 1 => [(Kind.read, d.src, d.size)]
   | _ => []) ++
  (match d.dstmode with
   | 0 => [(Kind.write, if d.xf = 2 then (d.dst, (d.nstr - 1) * d.pitch + d.cnt / d.nstr) else (d.dst, d.cnt))]
   | 1 => [(Kind.write, d.dst, d.size)]
   | _ => [])

/-- The first range that no single window permits, or that wraps (R333). -/
def State.dmaOverrun (s : State) (n : Chan) (d : DmaDesc) : Option (Kind × Nat) :=
  d.ranges.findSome? fun x =>
    if x.2.1 + x.2.2 ≤ 2 ^ 32 ∧ s.windowOk (s.dmaReq n) x.1 x.2.1 x.2.2 = true then none else some (x.1, x.2.1)

/-- A place for descriptors: SRAM or a global D-TCM alias (R329). -/
def descPlace (a : Nat) : Bool :=
  (decide (0x20000000 ≤ a) && decide (a < 0x21800000)) ||
    (decide (0x38000000 ≤ a) && decide (a < 0x38400000) && decide (0x80000 ≤ a % 0x100000))

/-- Fetches and checks the channel's descriptor at DCHn_CUR; a failure ends the chain (R329, R332 to R334, Table 13.2). -/
def State.dmaFetch (s : State) (n : Chan) : State :=
  let a := (s.reg .DCHn_CUR n 0).toNat
  if !s.windowOk (s.dmaReq n) .read a 32 then (s.violation (s.dmaReq n) .read a).dmaFail n 2
  else if !descPlace a then s.dmaFail n 2
  else
    let now := s.now
    let t := (s.beat 4 false false a 32).eccRead a 32
    if t.1 then t.2.dmaFail n 2
    else
      let s := t.2
      let w (k : Nat) : Word := s.word (a + 4 * k)
      let d := dmaDecode w
      let s := s.setReg .DCHn_CNT n 0 (w 2)
      if dmaBad w d then s.dmaFail n 3
      else if d.cnt = 0 then s.modCh n fun c => ⟨some d, 0, now, c.on⟩
      else if s.dmaLinkBad n d then s.dmaFail n 4
      else match s.dmaOverrun n d with
        | some (k, b) => (s.violation (s.dmaReq n) k b).dmaFail n 1
        | none => s.modCh n fun c => ⟨some d, 0, now, c.on⟩

/-- A descriptor ends: its completion event, then NEXT, or DONE at LAST (R328, R332). -/
def State.dmaDescEnd (s : State) (n : Chan) (d : DmaDesc) : State :=
  let s := if d.irq then s.evcRaise (Fin.ofNat 512 (0x040 + 2 * n.val)) else s
  if d.last then (s.dmaIdle n).raiseFld F.DCHn_STAT_DONE n 0 1
  else if d.next % 32 ≠ 0 then s.dmaFail n 2
  else (s.setReg .DCHn_CUR n 0 (BitVec.ofNat 32 d.next)).modCh n fun c => { c with desc := none, done := 0 }

/-! ## Addresses and beats -/

/-- Address of array element j of a strided side (R337). -/
def DmaDesc.strided (d : DmaDesc) (base j : Nat) : Nat := base + j % d.nstr * d.pitch + j / d.nstr * d.size

/-- Address of source unit j. -/
def DmaDesc.srcAddr (d : DmaDesc) (j : Nat) : Nat :=
  if d.srcmode = 1 then d.src else if d.xf = 1 then d.strided d.src j else d.src + j * d.srcUnit

/-- Address of destination unit j. -/
def DmaDesc.dstAddr (d : DmaDesc) (j : Nat) : Nat :=
  if d.dstmode = 1 then d.dst else if d.xf = 2 then d.strided d.dst j else d.dst + j * d.dstUnit

/-- Bytes of the beat at an address (R330): 16 aligned bytes, or a word where registers are words (R24). -/
def beatBytes (a : Nat) : Nat := if 0x40000000 ≤ a then 4 else 16

/-- Beats of `n` bytes from `a` (R330). -/
def beats (a n : Nat) : Nat :=
  let g := beatBytes a
  if n = 0 then 0 else (a + n - 1) / g - a / g + 1

/-- Beats of `m` slots of a queue from pointer `ptr` on. -/
def State.queueBeats (s : State) (q : QId) (ptr m : Nat) : Nat :=
  let p := ptr % s.qDepth q
  let k := min m (s.qDepth q - p)
  beats (qAddr (s.qSlot q p)) (4 * k) + beats (qAddr (s.qSlot q 0)) (4 * (m - k))

/-- Beats of elements i to k − 1 of a strided side. -/
def DmaDesc.arrayBeats (d : DmaDesc) (base i k : Nat) : Nat :=
  ((List.range d.nstr).map fun m =>
    let lo := (i + d.nstr - 1 - m) / d.nstr
    let hi := (k + d.nstr - 1 - m) / d.nstr
    beats (base + m * d.pitch + lo * d.size) ((hi - lo) * d.size)).sum

/-- Read and write beats of `n` bytes from byte `o` of the descriptor on, its queues at pointers `rp` and `wp`. -/
def State.dmaBeats (s : State) (d : DmaDesc) (rp wp o n : Nat) : Nat × Nat :=
  (match sideQueue d.srcmode d.src with
   | some q => s.queueBeats q rp (n / d.srcUnit)
   | none =>
     if d.srcmode = 1 then n / d.srcUnit
     else if d.xf = 1 then d.arrayBeats d.src (o / d.size) ((o + n) / d.size)
     else beats (d.src + o) n,
   match sideQueue d.dstmode d.dst with
   | some q => s.queueBeats q wp (n / d.dstUnit)
   | none =>
     if d.dstmode = 1 then n / d.dstUnit
     else if d.xf = 2 then d.arrayBeats d.dst (o / d.size) ((o + n) / d.size)
     else beats (d.dst + o) n)

/-- Both sides lie in one SRAM bank at byte `o` of the descriptor, where a block begins (R330). -/
def DmaDesc.oneBank (d : DmaDesc) (o : Nat) : Bool :=
  let a := d.srcAddr (o / d.srcUnit)
  decide (d.srcmode ≠ 2) && decide (d.dstmode ≠ 2) && (sramBank a).isSome && decide (sramBank a = sramBank (d.dstAddr (o / d.dstUnit)))

/-- Engine cycles of the beats (R331). -/
def State.dmaCycles (s : State) (d : DmaDesc) (rp wp o n : Nat) : Nat :=
  let b := s.dmaBeats d rp wp o n
  if d.oneBank o then b.1 + b.2 else max b.1 b.2

/-- The largest number below 2^k above `acc` that satisfies a condition which holds of every smaller one. -/
def largest (ok : Nat → Bool) : Nat → Nat → Nat
  | 0, acc => acc
  | k + 1, acc => largest ok k (if ok (acc + 2 ^ k) then acc + 2 ^ k else acc)

/-- Bytes of the longest prefix of `n` bytes that takes at most `c` cycles (R330). -/
def State.dmaPrefix (s : State) (d : DmaDesc) (rp wp o n c : Nat) : Nat :=
  d.group * largest (fun u => decide (d.group * u ≤ n) && decide (s.dmaCycles d rp wp o (d.group * u) ≤ c)) 32 0

/-- Bytes that the queues let a block move of the rest. -/
def State.dmaRest (s : State) (d : DmaDesc) (o : Nat) : Nat :=
  match s.dmaAvail d with
  | some k => min (d.cnt - o) k
  | none => d.cnt - o

/-! ## Moving data -/

/-- The beats that a block holds on its way: those read last, by address and contents, and the units gathered for write beats that are
not full. -/
structure DmaFlow where
  rd : List (Nat × Nat)
  wr : List (Nat × DmaUnits)

/-- Bytes that one read takes from an address: a beat, or a line of flash (R308, R330). -/
def readBytes (a : Nat) : Nat := if inFlash a then 32 else beatBytes a

/-- The `g` bytes at `base` (R330, R334): an error code, or their value. A beat on its way is not read again, but at a fixed address each
unit is a beat. -/
def State.dmaGet (s : State) (r : Req) (d : DmaDesc) (f : DmaFlow) (base g : Nat) : (Nat ⊕ Nat) × DmaFlow × State :=
  match if d.srcmode = 1 then none else f.rd.find? fun x => decide (x.1 = base) with
  | some x => (.inr x.2, f, s)
  | none =>
    match s.busRead r false base g with
    | (.data v, s) => (.inr v, { f with rd := (base, v) :: f.rd.take 31 }, s)
    | (.busy _, s) => (.inl 5, f, s)
    | (.error, s) => (.inl 6, f, s)

/-- Reads unit j: an error code, or the unit, which can lie in two beats. -/
def State.dmaUnit (s : State) (r : Req) (d : DmaDesc) (f : DmaFlow) (j : Nat) : (Nat ⊕ Nat) × DmaFlow × State :=
  match sideQueue d.srcmode d.src with
  | some q =>
    let t := s.qPopRec q
    (.inr (t.1.toNat % 256 ^ d.srcUnit), f, t.2)
  | none =>
    let a := d.srcAddr j
    let g := readBytes a
    let base := a / g * g
    let next := base + g
    if d.xf = 1 && decide (d.srcmode = 0) && !s.windowOk r .read a d.size then (.inl 6, f, s.violation r .read a)
    else match s.dmaGet r d f base g with
      | (.inl e, f, s) => (.inl e, f, s)
      | (.inr v, f, s) =>
        let low := v / 256 ^ (a - base)
        if a + d.srcUnit ≤ next then (.inr (low % 256 ^ d.srcUnit), f, s)
        else match s.dmaGet r d f next (readBytes next) with
          | (.inl e, f, s) => (.inl e, f, s)
          | (.inr w, f, s) => (.inr ((low + w * 256 ^ (next - a)) % 256 ^ d.srcUnit), f, s)

/-- Reads `k` units from unit j on: an error code, or the units. -/
def State.dmaRead (s : State) (r : Req) (d : DmaDesc) (f : DmaFlow) (j : Nat) : Nat → Option Nat × List Nat × DmaFlow × State
  | 0 => (none, [], f, s)
  | k + 1 =>
    match s.dmaUnit r d f j with
    | (.inl e, f, s) => (some e, [], f, s)
    | (.inr v, f, s) =>
      let u := State.dmaRead s r d f (j + 1) k
      (u.1, v :: u.2.1, u.2.2)

/-- Units of `n` bytes each follow one another in memory from `a` on. -/
def unitRun (n : Nat) : Nat → DmaUnits → Bool
  | _, [] => true
  | a, (_, b, _) :: us => decide (a = b) && unitRun n (a + n) us

/-- Makes one write beat; true = a bus error. -/
def State.dmaBeat (s : State) (r : Req) (n : Nat) (us : DmaUnits) : Bool × State :=
  match us with
  | [] => (false, s)
  | (_, a, _) :: _ =>
    if unitRun n a us then
      let s := s.busWrite r a (us.foldr (fun u v => u.2.2 % 256 ^ n + 256 ^ n * v) 0) (n * us.length)
      (s.ans.err, s)
    else us.foldl (fun x u => let s := x.2.busWrite r u.2.1 u.2.2 n; (x.1 || s.ans.err, s)) (false, s)

/-- Places unit j in its write beat, which is made once it is full: whether it failed, and the unit with which it began. -/
def State.dmaPut (s : State) (r : Req) (d : DmaDesc) (f : DmaFlow) (j v : Nat) : Option Nat × DmaFlow × State :=
  match sideQueue d.dstmode d.dst with
  | some q => (none, f, s.qPushRec q (BitVec.ofNat 32 v) false)
  | none =>
    let a := d.dstAddr j
    let n := d.dstUnit
    let g := beatBytes a
    let base := a / g * g
    let us := ((f.wr.find? fun x => decide (x.1 = base)).map (·.2)).getD [] ++ [(j, a, v)]
    let rest := f.wr.filter fun x => decide (x.1 ≠ base)
    if d.dstmode = 1 || decide (base + g ≤ a + n) then
      let t := s.dmaBeat r n us
      (if t.1 then us.head?.map (·.1) else none, { f with wr := if t.1 then (base, us) :: rest else rest }, t.2)
    else (none, { f with wr := rest ++ [(base, us)] }, s)

/-- Places units from unit j on. -/
def State.dmaWrite (s : State) (r : Req) (d : DmaDesc) (f : DmaFlow) (j : Nat) : List Nat → Option Nat × DmaFlow × State
  | [] => (none, f, s)
  | v :: vs =>
    match s.dmaPut r d f j v with
    | (some e, f, s) => (some e, f, s)
    | (none, f, s) => State.dmaWrite s r d f (j + 1) vs

/-- Makes the write beats that are not full, oldest first, up to one that fails; those not made remain. -/
def State.dmaFlush (s : State) (r : Req) (n : Nat) : List (Nat × DmaUnits) → List (Nat × DmaUnits) × State
  | [] => ([], s)
  | x :: xs =>
    let t := s.dmaBeat r n x.2
    if t.1 then (x :: xs, t.2) else State.dmaFlush t.2 r n xs

/-- Transposes a bit matrix: bit i of output b is bit b of input i (R338). -/
def bitPlanes (xs : List Nat) (w : Nat) : List Nat :=
  (List.range w).map fun b => (xs.zipIdx.map fun x => x.1 / 2 ^ b % 2 * 2 ^ x.2).sum

/-- Units of one group on each side: 32 elements against as many words as an element has bits (R338); else one unit. -/
def DmaDesc.counts (d : DmaDesc) : Nat × Nat :=
  if d.xf = 3 then (if d.unpack then (8 * d.size, 32) else (32, 8 * d.size)) else (1, 1)

/-- How a move of groups ends: all moved, a read failed with a code, a write beat failed. -/
inductive DmaEnd
  | moved | readErr (code : Nat) | writeErr
  deriving DecidableEq, Repr

/-- Moves `k` groups from group g on: how it ends, groups moved, what is on its way, the state. -/
def State.dmaMove (s : State) (r : Req) (d : DmaDesc) (f : DmaFlow) (g : Nat) : Nat → DmaEnd × Nat × DmaFlow × State
  | 0 => (.moved, 0, f, s)
  | k + 1 =>
    let c := d.counts
    match s.dmaRead r d f (g * c.1) c.1 with
    | (some e, _, f, s) => (.readErr e, 0, f, s)
    | (none, xs, f, s) =>
      match s.dmaWrite r d f (g * c.2) (if d.xf = 3 then bitPlanes xs c.2 else xs) with
      | (some _, f, s) => (.writeErr, 0, f, s)
      | (none, f, s) =>
        let u := State.dmaMove s r d f (g + 1) k
        (u.1, u.2.1 + 1, u.2.2)

/-- Byte of the descriptor up to which all has been written: `o`, but for the units of write beats that were not made. -/
def DmaDesc.made (d : DmaDesc) (o : Nat) (wr : List (Nat × DmaUnits)) : Nat :=
  wr.foldl (fun m x => x.2.foldl (fun m u => min m (u.1 * d.dstUnit)) m) o

/-- Bytes of the channel's descriptor that have been moved. -/
def State.dmaDone (s : State) (n : Chan) (d : DmaDesc) (k : Nat) : State :=
  (s.modCh n fun c => { c with done := k }).setReg .DCHn_CNT n 0 (BitVec.ofNat 32 (d.cnt - k))

/-- The engine has no block: a retention request that waited for it goes on (R436). -/
def State.dmaFreed (s : State) : State :=
  let s : State := { s.unsched .dmaBlockEnd with dma := { s.dma with block := none } }
  if s.sys.retReq && !s.flashBusy then s.emitOnce .retentionEntry else s

/-- The block moves on to byte `upto` of the descriptor; with `fin` what is left for its write beats is written. A beat that fails ends
block and chain (R334): the beats before it are made. -/
def State.dmaAdvance (s : State) (b : DmaBlock) (d : DmaDesc) (upto : Nat) (fin : Bool) : State :=
  let n := b.chan
  let r := s.dmaReq n
  let o := s.dma.ch[n].done
  let t := s.dmaMove r d ⟨b.rd, b.wr⟩ (o / d.group) ((upto - o) / d.group)
  let f := t.2.2.1
  let done := o + t.2.1 * d.group
  let b := { b with rd := f.rd, wr := f.wr }
  match t.1 with
  | .writeErr => ((t.2.2.2.dmaDone n d (d.made done f.wr)).dmaFreed).dmaFail n 6
  | .readErr e =>
    let u := t.2.2.2.dmaFlush r d.dstUnit f.wr
    ((u.2.dmaDone n d (d.made done u.1)).dmaFreed).dmaFail n (if u.1.isEmpty then e else 6)
  | .moved =>
    if fin then
      let u := t.2.2.2.dmaFlush r d.dstUnit f.wr
      let s := u.2.dmaDone n d (d.made done u.1)
      if u.1.isEmpty then { s with dma := { s.dma with block := some { b with wr := [] } } } else s.dmaFreed.dmaFail n 6
    else
      let s := t.2.2.2.dmaDone n d done
      { s with dma := { s.dma with block := some b } }

/-! ## Blocks -/

/-- The channel that the engine chooses (R330): lowest PRIO, then round-robin. -/
def State.dmaChoose (s : State) : Option Chan :=
  let cs := (List.finRange 32).filter s.dmaCan
  let prio (n : Chan) : Nat := s.fld F.DCHn_CFG_PRIO n 0
  match (List.range 4).find? fun p => cs.any fun n => decide (prio n = p) with
  | none => none
  | some p =>
    let start := s.dma.rr[(Fin.ofNat 4 p : Fin 4)]
    (List.range 32).findSome? fun k =>
      let n : Chan := Fin.ofNat 32 (start + k)
      if cs.contains n && decide (prio n = p) then some n else none

/-- Starts a block of the channel's descriptor. -/
def State.dmaBegin (s : State) (n : Chan) (d : DmaDesc) : State :=
  let o := s.dma.ch[n].done
  let ptr (q : Option QId) (f : QId → Nat) : Nat := (q.map f).getD 0
  let rp := ptr (sideQueue d.srcmode d.src) s.qRd
  let wp := ptr (sideQueue d.dstmode d.dst) s.qWr
  let k := s.dmaPrefix d rp wp o (s.dmaRest d o) 4096
  let c := s.dmaCycles d rp wp o k
  let t := s.now
  let p : Fin 4 := Fin.ofNat 4 (s.fld F.DCHn_CFG_PRIO n 0)
  let s : State := { s with dma := { s.dma with
    block := some ⟨n, k, t, c, 0, o, rp, wp, [], [], false⟩
    rr := vset s.dma.rr p ((n.val + 1) % 32) } }
  s.sched (2 * (4 + c)) .dmaBlockEnd

/-- DMA_BLOCK_START (R330, R332): a descriptor with CNT = 0 that was fetched in the cycle before ends; then a choice, whose descriptor is
fetched first. -/
def execDmaBlockStart (s : State) : Out :=
  if s.dma.block.isSome || !s.mode.cores || s.sys.retReq then .next s
  else
    let s := (List.finRange 32).foldl (fun s n => s.dmaPace n) (s.unsched .dmaBlockStart)
    let s := (List.finRange 32).foldl (fun s n => if s.dmaEmptyEnds n then s.dmaDescEnd n (s.dma.ch[n].desc.getD (dmaDecode fun _ => 0)) else s) s
    if s.dmaEmptyWaits then .next (s.sched (2 - s.now % 2) .dmaBlockStart)
    else match s.dmaChoose with
    | none => .next s
    | some n =>
      let s := if s.dma.ch[n].desc.isNone then (s.dmaFetch n).dmaPace n else s
      if s.dmaEmptyWaits then .next (s.sched (2 - s.now % 2) .dmaBlockStart)
      else match s.dma.ch[n].desc with
      | some d =>
        if s.dmaCan n then .next (s.dmaBegin n d)
        else .next (if (List.finRange 32).any s.dmaCan then s.emit .dmaBlockStart else s)
      | none => .next (if (List.finRange 32).any s.dmaCan then s.emit .dmaBlockStart else s)

/-- A beat of the block waits at a bank (R331): it is there when another cycle than its own, or its group's, has passed. -/
def State.dmaHeld (s : State) (b : DmaBlock) (d : DmaDesc) : Bool :=
  let g := max 1 (s.dmaCycles d b.rp b.wp b.o d.group)
  s.ix.wait.any fun l => l.any fun x =>
    decide (x.master = 4) && decide (g ≤ s.now / 2 - x.since / 2)

/-- The block in each BUSCLK cycle: a beat that waits at a bank lengthens it (R331); else it moves what the beats begun so far hold. -/
def State.dmaBlockCycle (s : State) : State :=
  match s.dma.block with
  | none => s
  | some b =>
    match s.dma.ch[b.chan].desc with
    | none => s
    | some d =>
      if b.stop then s
      else if s.dmaHeld b d then
        { s with dma := { s.dma with block := some { b with waits := b.waits + 1 } }
                 cal := s.cal.map fun e => if e.2 = .dmaBlockEnd then (e.1 + 2, e.2) else e }
      else
        let c := b.ran s.now
        let upto := b.o + (if b.beats ≤ c then b.bytes else s.dmaPrefix d b.rp b.wp b.o b.bytes c)
        if c = 0 ∨ upto ≤ s.dma.ch[b.chan].done ∧ c < b.beats then s else s.dmaAdvance b d upto (decide (b.beats ≤ c))

/-- DMA_BLOCK_END (R330, R331, R334, R335): the block ends with all its beats made, or with those made up to an abort. -/
def execDmaBlockEnd (s : State) : Out :=
  match s.dma.block with
  | none => .next s
  | some b =>
    let n := b.chan
    let s := match s.dma.ch[n].desc with
      | none => s.dmaFreed
      | some d =>
        let s := s.dmaAdvance b d (if b.stop then s.dma.ch[n].done else b.o + b.bytes) true
        if s.dmaExec n then
          let s := s.dmaFreed
          let whole := decide (s.dma.ch[n].done = d.cnt)
          if b.stop then (if whole && d.last then s.dmaDescEnd n d else s.dmaFail n 7)
          else if whole then s.dmaDescEnd n d else s
        else s
    .next (if !s.sys.retReq && (List.finRange 32).any s.dmaCan then s.emit .dmaBlockStart else s)

/-- The DMA engine in each lc. -/
def State.dmaTick (s : State) : State :=
  if !s.mode.cores then s else (if s.now % 2 = 0 then s.dmaBlockCycle else s).dmaLook

end Sys2Proof.Machine
end

