-- ==== Sys2Proof/Machine/Image.lean ====
section
/-! DEFINITION. The bit-stream: its layout, what the loader writes from it, its admission (R231 to R242, R357, R361, R441). -/

namespace Sys2Proof.Machine

/-! ## Layout -/

/-- Word `i` bytes into the image; 0 past its end. -/
def imgWord (img : List Byte) (i : Nat) : Word := wordAt img i

/-- LENGTH of the header (Table 9.7). -/
def imgLength (img : List Byte) : Nat := (imgWord img 0x0C).toNat

/-- TYPE, OFFSET, LENGTH, CRC of directory entry k (R234). -/
def imgDir (img : List Byte) (k : Nat) : Nat × Nat × Nat × Word :=
  let w (j : Nat) : Word := imgWord img (0x20 + 16 * k + 4 * j)
  ((w 0).toNat, (w 1).toNat, (w 2).toNat, w 3)

/-- Bytes of section k + 1. -/
def imgSect (img : List Byte) (k : Nat) : List Byte :=
  let e := imgDir img k
  (img.drop e.2.1).take e.2.2.1

/-- Whole words of section k + 1. -/
def imgWords (img : List Byte) (k : Nat) : List Word := bytesToWords (imgSect img k)

/-- A record of section 0x06: address, words. -/
abbrev PeriphRec := Nat × List Word

/-- Records of section 0x06, and whether the section is malformed after them (R234). -/
def periphRecs : Nat → List Word → List PeriphRec × Bool
  | 0, ws => ([], !ws.isEmpty)
  | _ + 1, [] => ([], false)
  | _ + 1, [_] => ([], true)
  | n + 1, a :: c :: ws =>
    let k := c.toNat
    if k < 1 ∨ 1024 < k ∨ ws.length < k then ([], true)
    else
      let r := periphRecs n (ws.drop k)
      ((a.toNat, ws.take k) :: r.1, r.2)

/-- A record of section 0x05: engine, length in bytes, data. -/
abbrev LeRec := Nat × Nat × List Word

/-- Records of section 0x05, and whether the section is malformed after them (R234). -/
def leRecs : Nat → List Word → List LeRec × Bool
  | 0, ws => ([], !ws.isEmpty)
  | _ + 1, [] => ([], false)
  | _ + 1, [_] => ([], true)
  | n + 1, e :: l :: ws =>
    let k := (l.toNat + 3) / 4
    if ws.length < k then ([], true)
    else
      let r := leRecs n (ws.drop k)
      ((e.toNat, l.toNat, ws.take k) :: r.1, r.2)

/-- Bytes at the end of a section that make no whole word, and so no record header (R234). -/
def imgOdd (img : List Byte) (k : Nat) : Bool := decide ((imgDir img k).2.2.1 % 4 ≠ 0)

/-- The peripheral records of an image. -/
def imgPeriph (img : List Byte) : List PeriphRec × Bool :=
  let ws := imgWords img 5
  let r := periphRecs ws.length ws
  (r.1, r.2 || imgOdd img 5)

/-- The loop-engine records of an image. -/
def imgLe (img : List Byte) : List LeRec × Bool :=
  let ws := imgWords img 4
  let r := leRecs ws.length ws
  (r.1, r.2 || imgOdd img 4)

/-- The words that the peripheral records write, with their record's index, in order. -/
def periphWrites (rs : List PeriphRec) : List (Nat × Nat × Word) :=
  rs.zipIdx.flatMap fun r => r.1.2.zipIdx.map fun w => (r.2, r.1.1 + 4 * w.2, w.1)

/-! ## What the loader writes (R238, Table 9.8) -/

/-- The loader's identity. -/
def loaderReq : Req := ⟨7, 0, .monitor⟩

/-- Stores a word in the register at an address, its defined bits alone. -/
def State.putReg (s : State) (a : Nat) (w : Word) : State :=
  match regAt a with
  | some (r, i, j) => s.setReg r i j (r.fields.foldl (fun m f => m ||| (w &&& fieldMask f.hi f.lo)) 0)
  | none => s

/-- Stores words in registers at consecutive addresses. -/
def State.putRegs (s : State) (a : Nat) : List Word → State
  | [] => s
  | w :: ws => State.putRegs (s.putReg a w) (a + 4) ws

/-- Section 0x01: each tenant's 28 words at the same offsets of its block (Table 14.6). -/
def State.putTenants (s : State) (ws : List Word) : State :=
  (List.range 8).foldl (fun s t => s.putRegs (0x41100000 + t * 0x80) ((ws.drop (28 * t)).take 28)) s

/-- A reservation record: master, bank, share. -/
def resvRec (w : Word) : Nat × Nat × Nat := (getBits w 31 24, getBits w 23 16, getBits w 15 0)

/-- Section 0x03. -/
def State.putResv (s : State) (ws : List Word) : State :=
  ws.foldl (fun s w =>
    let r := resvRec w
    if r.1 < 13 ∧ r.2.1 < 6 ∧ r.1 ≠ 11 then s.setFld F.IX_RSVb_m_SHARE r.2.1 r.1 r.2.2 else s) s

/-- Section 0x04: the configuration space and the ownership registers. -/
def State.putRoutes (s : State) (bs : List Byte) : State :=
  (s.setBytes 0x50000000 bs).putRegs (RegName.SM_SWOWNj.addr 0 0) (bytesToWords (bs.drop 0x4000))

/-- Section 0x05: each record from region offset 0, the rest of its region 0. -/
def State.putLe (s : State) (rs : List LeRec) : State :=
  rs.foldl (fun s r =>
    if r.1 < 8 ∧ r.2.1 ≤ 0x70000 then
      let b := 0x30000000 + r.1 * 0x70000
      (s.clearMem b (b + 0x70000)).setBytes b ((r.2.2.flatMap Word.bytes).take r.2.1)
    else s) s

/-- A register that section 0x06 may write: assigned, not in SEC or DBG, with an RW or WLK field (Table 9.9). -/
def imageWritable (a : Nat) : Bool :=
  match regAt a with
  | some (r, _, _) =>
    !(decide (0x44200000 ≤ a) && decide (a < 0x44400000)) && r.fields.any fun f => f.acc == .rw || f.acc == .wlk
  | none => false

/-- Section 0x06, in record order. -/
def State.putPeriph (s : State) (rs : List PeriphRec) : State :=
  (periphWrites rs).foldl (fun s x => if imageWritable x.2.1 then s.busWrite loaderReq x.2.1 x.2.2.toNat 4 else s) s

/-- The background-service record (Table 16.11). -/
def imgBg (img : List Byte) : List Word := imgWords img 6

/-- IMGBASE of an image. -/
def imgBaseOf (img : List Byte) : Nat := (imgBg img).headD 0 |>.toNat

/-- IMGBASE is 64 KiB aligned, with the image inside SRAM (Table 16.11). -/
def imgBaseOk (base len : Nat) : Bool :=
  decide (base % 0x10000 = 0) && decide (0x20000000 ≤ base) && decide (base + len ≤ 0x21800000)

/-- The loader at work: Loading's rights to write hold for it (R34). -/
def State.asLoader (s : State) (f : State → State) : State :=
  let m := s.sys.perMode
  let s := f { s with sys := { s.sys with perMode := .loading } }
  { s with sys := { s.sys with perMode := m } }

/-- The loader writes the sections, and the image to IMGBASE (R238, R442). -/
def State.putImage (s : State) (img : List Byte) : State :=
  let s := s.putTenants (imgWords img 0)
  let s := s.putRegs 0x41100400 (imgWords img 1)
  let s := s.putResv (imgWords img 2)
  let s := s.putRoutes (imgSect img 3)
  let s := s.putLe (imgLe img).1
  let s := s.asLoader fun s => s.putPeriph (imgPeriph img).1
  let s : State := { s with sys := { s.sys with bg := imgBg img } }
  if imgBaseOf img ≠ 0 ∧ imgBaseOk (imgBaseOf img) img.length = true then s.putMem (imgBaseOf img) img else s

/-! ## Header checks: codes 0x01 to 0x0A -/

/-- Fixed length of a section (R234). -/
def fixedLen (k : Nat) : Option Nat :=
  match k with
  | 0 => some 896
  | 1 => some 1536
  | 3 => some 16416
  | 6 => some 64
  | _ => none

/-- First directory entry out of order (R234): types, places, lengths. -/
def dirBad (img : List Byte) : Option Nat :=
  (List.range 7).find? fun k =>
    let e := imgDir img k
    let start := if k = 0 then 0xA0 else let p := imgDir img (k - 1); p.2.1 + p.2.2.1
    decide (e.1 ≠ k + 1) || decide (e.2.1 ≠ start) || (decide (k = 2) && decide (e.2.2.1 % 4 ≠ 0)) ||
      ((fixedLen k).any fun n => decide (e.2.2.1 ≠ n)) || (decide (k = 6) && decide (e.2.1 + e.2.2.1 + 128 ≠ imgLength img))

/-- A 0 for a check that fails without an index. -/
def bad (b : Bool) : Option Nat := if b then some 0 else none

/-- The fuse field for the owner key hash is blank (R237). -/
def State.okhBlank (s : State) : Bool := !s.flag F.SEC_FUSE_STAT_OKH 0 0

/-- The 32 bytes of the owner key hash (R366). -/
def State.okh (s : State) : List Byte := (List.range 8).flatMap fun i => Word.bytes (s.reg .SEC_OKHi i 0)

/-- X and Y of the key block, r and s of the signature, as bytes (R236). -/
def imgKey (img : List Byte) : List Byte := (img.drop (imgLength img - 128)).take 64
/-- See `imgKey`. -/
def imgSig (img : List Byte) : List Byte := (img.drop (imgLength img - 64)).take 64

/-- The signed digest (R236). -/
def imgDigest (img : List Byte) : List Byte := sha256 (img.take (imgLength img - 64))

/-- The signature verifies under the image's key (R236). -/
def imgSigned (img : List Byte) : Bool :=
  let k := imgKey img
  let g := imgSig img
  ecdsaVerify (beNat (k.take 32)) (beNat (k.drop 32)) (beNat (g.take 32)) (beNat (g.drop 32)) (beNat (imgDigest img))

/-- FLAGS.FUSEKEY. -/
def imgFuseKey (img : List Byte) : Bool := (imgWord img 0x18).getLsbD 0

/-- An outcome of admission: CODE, TYPE, INDEX (R239). -/
abbrev Verdict := Nat × Nat × Nat

/-- The header checks, codes 0x01 to 0x06. -/
def State.headVerdict (s : State) (img : List Byte) : Option Verdict :=
  let len := imgLength img
  if imgWord img 0 ≠ 0x4243564E then some (0x01, 0, 0)
  else if getBits (imgWord img 4) 15 8 ≠ 1 ∨ imgWord img 0x1C ≠ 7 then some (0x02, 0, 0)
  else if imgWord img 8 ≠ s.reg .SYS_ID 0 0 &&& 0xFFFFFF00 then some (0x03, 0, 0)
  else if 8388608 < len ∨ len % 4 ≠ 0 ∨ len ≠ img.length then some (0x04, 0, 0)
  else if crc32c (img.take 0x90) ≠ imgWord img 0x90 then some (0x05, 0, 0)
  else (dirBad img).map fun k => (0x06, k + 1, k)

/-- Section CRCs, key, signature: codes 0x07 to 0x0A. -/
def State.keyVerdict (s : State) (img : List Byte) : Option Verdict :=
  match (List.range 7).find? fun k => decide (crc32c (imgSect img k) ≠ (imgDir img k).2.2.2) with
  | some k => some (0x07, k + 1, 0)
  | none =>
    if s.okhBlank && !imgFuseKey img then some (0x08, 0, 0)
    else if !s.okhBlank && decide (sha256 (imgKey img) ≠ s.okh) then some (0x09, 0, 0)
    else if !imgSigned img then some (0x0A, 0, 0)
    else none

/-! ## Tenants, windows, reservations: codes 0x0B to 0x0D -/

/-- Words of tenant t's record, and of window w of tenant t. -/
def tenWord (ws : List Word) (t k : Nat) : Word := ws.getD (28 * t + k) 0
/-- See `tenWord`. -/
def winWord (ws : List Word) (t w k : Nat) : Word := ws.getD (48 * t + 3 * w + k) 0

/-- Defined bits of word k of a tenant record. -/
def tenMask (k : Nat) : Word := if k = 1 then 0xFF else if k = 2 then 0xFFFF else 0xFFFFFFFF

/-- The first tenant that breaks R357. -/
def tenantBad (ts ws : List Word) : Option Nat :=
  let en (t : Nat) : Bool := (tenWord ts t 0).getLsbD 0
  (List.range 8).find? fun t =>
    let masks := (List.range 27).map fun k => tenWord ts t (k + 1) &&& tenMask (k + 1)
    (decide (t = 0) && !en 0) || (decide (t ≠ 0) && (tenWord ts t 0).getLsbD 1) ||
    (!en t && ((masks.any fun m => decide (m ≠ 0)) || (List.range 16).any fun w => (winWord ws t w 2).getLsbD 4)) ||
    (List.range t).any fun u => (List.range 27).any fun k =>
      decide (tenWord ts t (k + 1) &&& tenWord ts u (k + 1) &&& tenMask (k + 1) ≠ 0)

/-- Two ranges share a byte. -/
def overlap (lo hi a b : Nat) : Bool := decide (lo < b) && decide (a < hi)

/-- A window record breaks R361, enabled or not: its list has no exception, so a record of zeros is refused for its SIZE (DEDUCED, log
entry 51). -/
def windowBad (t : Nat) (base size rights : Word) : Bool :=
  let k := getBits size 4 0
  let lo := base.toNat
  let hi := lo + 2 ^ k
  let within (a b : Nat) : Bool := decide (a ≤ lo) && decide (hi ≤ b)
  decide (k < 5) || decide (lo % 2 ^ k ≠ 0) || decide (31 < rights.toNat) ||
    (rights.getLsbD 2 && !(within 0 0x100000 || within 0x10000000 0x12000000 || within 0x20000000 0x21800000 ||
      within 0x38000000 0x38400000)) ||
    (rights.getLsbD 1 && overlap lo hi 0x50000000 0x51000000) ||
    (rights.getLsbD 4 && decide (t ≠ 0) && (overlap lo hi 0x41100000 0x41110000 ||
      overlap lo hi 0x44000000 0x44010000 || overlap lo hi 0x44200000 0x44400000))

/-- The first window that breaks R361, as 16 × tenant + w. -/
def windowsBad (ws : List Word) : Option Nat :=
  (List.range 128).find? fun i =>
    windowBad (i / 16) (winWord ws (i / 16) (i % 16) 0) (winWord ws (i / 16) (i % 16) 1) (winWord ws (i / 16) (i % 16) 2)

/-- The bank of the first reservation that breaks code 0x0D: a record, then a bank's sum. -/
def resvBad (ws : List Word) : Option Nat :=
  let rs := ws.map resvRec
  match rs.find? fun r => !([0, 1, 2, 3, 4, 5, 6, 8, 9, 10].contains r.1) || decide (5 < r.2.1) with
  | some r => some r.2.1
  | none =>
    (List.range 6).find? fun b => decide (800 < 10 + ((rs.filter fun r => r.2.1 == b).map fun r => r.2.2).sum)

/-! ## Routes: codes 0x0E to 0x10 -/

/-- The fields of an entry suit its CLASS and FUNC, and every bit not named is 0 (R231). -/
def entryOk (w0 w1 w2 w3 : Word) : Bool :=
  let cls := getBits w0 31 30
  let func := getBits w0 29 27
  let n := getBits w0 21 20
  let inv := getBits w0 19 16
  let str := getBits w0 15 8
  let above := [getBits w1 25 16, getBits w2 9 0, getBits w2 25 16].drop n
  decide (getBits w0 7 0 = 0) && decide ((w1 ||| w2) &&& 0xFC00FC00 = 0) && decide (w3 = 0) &&
    (above.all fun k => decide (k = 0)) &&
    (if cls = 0 then decide (w0 = 0) && decide (w1 = 0) && decide (w2 = 0)
     else if cls = 1 ∨ cls = 2 then decide (func = 0) && decide (n = 0) && decide (inv = 0) && decide (str = 0)
     else if func ≤ 2 then decide (inv / 2 ^ (n + 1) = 0) && decide (str = 0)
     else if func ≤ 5 then decide (n = 0) && decide (str = 0) && decide (inv / 2 = 0)
     else if func = 6 then decide (n = 0) && decide (1 ≤ str) && decide (inv / 2 = 0)
     else false)

/-- Table 9.3: a route suits its destination, with sources of these kinds. -/
def kindsFit (r : Route) (ks : List SigKind) : Bool :=
  let dk := dstKind r.dest
  if r.cls ≠ 3 then
    match dk with
    | .event => ks == [.event]
    | .level => ks == [.level]
    | .edge => ks == [.event] || ks == [.level]
    | .data => ks == [.data]
    | .none => false
  else if ks.contains .data then false
  else
    let ev := ks.all fun k => decide (k = .event)
    match dk with
    | .event => if r.func ≤ 2 then ev else decide (r.func ≤ 5) && !ev
    | .level => if r.func ≤ 2 then !ev else decide (r.func = 6) && ev
    | .edge => true
    | .data => false
    | .none => false

/-- Table 9.3: the route suits its destination. A reserved source has no kind: it is no fault of kind where one of some kind would fit
(R218 refuses it under a code of its own). -/
def kindOk (r : Route) : Bool :=
  [SigKind.event, .level, .data].any fun k => kindsFit r ((r.srcs.map srcKind).map fun x => if x = .none then k else x)

/-- The first destination whose entry breaks code 0x0E. -/
def State.routeKindBad (s : State) : Option Nat :=
  (List.range 1024).find? fun d =>
    let w (i : Nat) : Word := s.word (0x50000000 + d * 16 + 4 * i)
    let r := s.routeEntry d
    !entryOk (w 0) (w 1) (w 2) (w 3) || (decide (r.cls ≠ 0) && !kindOk r)

/-- The first destination whose route names a reserved source (R218). -/
def routeSourceBad (rs : List Route) : Option Nat :=
  (rs.find? fun r => r.srcs.any fun k => srcKind k == .none).map (·.dest)

/-- Destinations whose routes no tenant owns (R227). -/
def unowned (d : Nat) : Bool :=
  decide (d < 8) || (decide (0x120 ≤ d) && decide (d < 0x1C0) && decide ((d - 0x120) % 10 < 5))

/-- The first route, then the first software source, whose ownership is refused (R227, R239). -/
def State.routeOwnerBad (s : State) (rs : List Route) (en : Nat → Bool) : Option Nat :=
  match rs.find? fun r => r.town && (unowned r.dest || !en r.owner) with
  | some r => some r.dest
  | none =>
    ((List.range 64).find? fun k =>
      let nib := getBits (s.reg .SM_SWOWNj (k / 8) 0) (4 * (k % 8) + 3) (4 * (k % 8))
      decide (8 ≤ nib) && !en (nib - 8)).map (· + 0x400)

/-! ## Records: codes 0x11 and 0x12 -/

/-- The first record that breaks code 0x11. -/
def leBad (rs : List LeRec × Bool) : Option Nat :=
  match rs.1.zipIdx.find? fun x =>
      decide (7 < x.1.1) || decide (0x70000 < x.1.2.1) || (rs.1.take x.2).any fun y => decide (y.1 = x.1.1) with
  | some x => some x.2
  | none => if rs.2 then some rs.1.length else none

/-- The first record that breaks code 0x12. -/
def periphBad (rs : List PeriphRec × Bool) : Option Nat :=
  match rs.1.zipIdx.find? fun x => (List.range x.1.2.length).any fun k => !imageWritable (x.1.1 + 4 * k) with
  | some x => some x.2
  | none => if rs.2 then some rs.1.length else none

/-! ## Values: code 0x13 -/

/-- A value that its block chapter refuses on its own: INSEL (ADC notes), OUTMODE (R126), PWMn_SAFE (R131), DIVNM (R172), XLO and
XHI (R180), GENPOS and OUTSRC (loop-engine notes), PREQ and REQ (DMA notes). -/
def valueBad (a : Nat) (v : Word) : Bool :=
  match regAt a with
  | some (.ADCx_ENT_s_e, _, _) => badEntry v
  | some (.PWMn_CFG, _, _) => decide (1 < getBits v 25 24)
  | some (.PWMn_SAFE, _, _) => decide (getBits v 1 0 = 3) || decide (getBits v 3 2 = 3)
  | some (.POSn_DIVNM, _, _) =>
    let n := getBits v F.POSn_DIVNM_N.hi F.POSn_DIVNM_N.lo
    let m := getBits v F.POSn_DIVNM_M.hi F.POSn_DIVNM_M.lo
    decide (n = 0) || decide (m = 0) || decide (m < n)
  | some (.POSn_SPD_X, _, _) =>
    decide (getBits v F.POSn_SPD_X_XHI.hi F.POSn_SPD_X_XHI.lo ≤ getBits v F.POSn_SPD_X_XLO.hi F.POSn_SPD_X_XLO.lo)
  | some (.LEn_CTRL, _, _) => decide (getBits v 11 10 = 3) || decide (getBits v 9 8 = 3)
  | some (.DCHn_CFG, _, _) => decide (0x1F < getBits v 15 8) || decide (getBits v 5 4 = 3)
  | _ => false

/-- Sources that depend on the decision of comparator n (R101). -/
def cmpSources (n : Nat) : List Nat :=
  let w := 0x0D0 + 4 * (n / 2)
  if n < 32 then [0x0A0 + n, if n % 2 = 0 then w else w + 1, w + 2, w + 3] else [0x0A0 + n]

/-- A destination that is a trip input. -/
def isTrip (d : Nat) : Bool := decide (0x120 ≤ d) && decide (d < 0x1C0) && decide ((d - 0x120) % 10 < 4)

/-- Comparator n contradicts the routes (R101, R104). -/
def State.cmpBad (s : State) (rs : List Route) (n : Nat) : Bool :=
  let mine := rs.filter fun r => r.srcs.any fun k => (cmpSources n).contains k
  let p := s.fld F.CMPn_CFG_PARTNER n 0
  decide (s.flag F.CMPn_CFG_TRIP n 0 ≠ mine.any fun r => isTrip r.dest) ||
    (s.flag F.CMPn_CFG_ISPARTNER n 0 && !mine.isEmpty) ||
    (decide (p ≠ 63) && (decide (48 ≤ p) || decide (p = n) || !s.flag F.CMPn_CFG_ISPARTNER p 0))

/-- Codes that comparator n can use (R98). -/
def State.cmpCodes (s : State) (rs : List Route) (n : Nat) : List Nat :=
  s.fld F.CMPn_THR_CODE n 0 ::
    (if rs.any fun r => decide (r.dest = 0x081 + 2 * n) then [s.fld F.CMPn_THR_ALT_CODE n 0] else [])

/-- Window k is enabled with an upper code not above a lower one (R98). -/
def State.winBad (s : State) (rs : List Route) (k : Nat) : Bool :=
  s.flag F.CMP_WINk_CFG_EN k 0 &&
    (s.cmpCodes rs (2 * k)).any fun u => (s.cmpCodes rs (2 * k + 1)).any fun l => decide (u ≤ l)

/-- Group k loads at period middle under a variable-period lead (R125). -/
def State.grpBad (s : State) (k : Nat) : Bool :=
  decide (s.ldpt k = 1) && match s.grpLead k with
    | some n => decide (s.fld F.PWMn_CFG_MODE n 0 = 4 ∨ s.fld F.PWMn_CFG_MODE n 0 = 5)
    | none => false

/-- Generator n has adaptive dead time without the two direct routes of R99. -/
def State.dtBad (s : State) (rs : List Route) (n : Nat) : Bool :=
  let direct (src dst : Nat) : Bool := rs.any fun r => decide (r.cls = 1) && decide (r.dest = dst) && r.srcs == [src]
  s.flag F.PWMn_CFG_DTMODE n 0 && !(List.range 16).any fun k =>
    direct (0x115 + 12 * n) (0x081 + 2 * (32 + k)) && direct (0x0A0 + 32 + k) (0x124 + 10 * n)

/-- Engine n observes without a route to a Safe-Hold request (R200). -/
def State.obsBad (s : State) (rs : List Route) (n : Nat) : Bool :=
  let src := 0x35F + 20 * n
  s.flag F.LEn_CTRL_OBS n 0 && !rs.any fun r => decide (r.dest < 8) &&
    ((decide (r.cls = 1) && r.srcs == [src]) ||
      (decide (r.cls = 3) && decide (r.func = 1) && r.srcs.zipIdx.any fun x => x.1 == src && decide (r.inv / 2 ^ x.2 % 2 = 0)))

/-- Slots of a queue that the image configures. -/
def State.queueSpan (s : State) (n : Nat) : Nat × Nat :=
  (s.fld F.Qn_CFG_BASE n 0, s.fld F.Qn_CFG_BASE n 0 + 2 ^ s.fld F.Qn_CFG_LOG2D n 0)

/-- Queue n is not aligned, or overlaps another queue of the image `qs` (R340). -/
def State.queueBad (s : State) (qs : List Nat) (n : Nat) : Bool :=
  let x := s.queueSpan n
  decide (x.1 % (x.2 - x.1) ≠ 0) || qs.any fun m =>
    decide (m ≠ n) && let y := s.queueSpan m; overlap x.1 x.2 y.1 y.2

/-- The pool is outside SRAM or not aligned, or its size is none of R349. -/
def State.poolBad (s : State) : Bool :=
  let k := s.fld F.Q_POOL_CFG_LOG2SZ 0 0
  decide (k ≠ 0) && (decide (k < 8) || decide (12 < k) || decide (s.poolBase % 2 ^ k ≠ 0) ||
    decide (s.poolBase < 0x20000000) || decide (0x21800000 < s.poolBase + 4096 * 2 ^ k))

/-- Registers whose values, as the image leaves them, are refused. -/
def State.regsBad (s : State) (rs : List Route) (ws : List (Nat × Nat × Word)) : List Nat :=
  let qs := (List.range 256).filter fun n => ws.any fun w => decide (w.2.1 = RegName.Qn_CFG.addr n 0)
  let pick (n : Nat) (p : Nat → Bool) (a : Nat → Nat) : List Nat := ((List.range n).filter p).map a
  pick 48 (s.cmpBad rs) (fun n => RegName.CMPn_CFG.addr n 0) ++
  pick 16 (s.winBad rs) (fun k => RegName.CMP_WINk_CFG.addr k 0) ++
  pick 16 s.grpBad (fun k => RegName.PWM_GRPk_CFG.addr k 0) ++
  pick 16 (s.dtBad rs) (fun n => RegName.PWMn_CFG.addr n 0) ++
  pick 8 (s.obsBad rs) (fun n => RegName.LEn_CTRL.addr n 0) ++
  (qs.filter (s.queueBad qs)).map (fun n => RegName.Qn_CFG.addr n 0) ++
  (if s.poolBad then [RegName.Q_POOL_CFG.addr 0 0] else [])

/-- The record that code 0x13 names: the first with a value refused on its own, or the one that last wrote a register refused
with others; of several the lowest. A register that no record writes has none: its INDEX is free (DEDUCED, log entry 52). -/
def State.valuesBad (s : State) (rs : List Route) (ws : List (Nat × Nat × Word)) : Option Nat :=
  let own := (ws.filter fun w => valueBad w.2.1 w.2.2).map (·.1)
  let joint := s.regsBad rs ws
  let of_ (a : Nat) : List Nat := ((ws.filter fun w => decide (w.2.1 = a)).getLast?.map (·.1)).toList
  match own ++ joint.flatMap of_, joint with
  | k :: ks, _ => some (ks.foldl min k)
  | [], a :: _ => some (Config.noRecord a).toNat
  | [], [] => none

/-! ## Background settings: code 0x14 -/

/-- The settings record breaks Table 16.11; temperatures are signed. -/
def State.bgBad (s : State) (ws : List Word) (len : Nat) : Bool :=
  let w (k : Nat) : Word := ws.getD k 0
  let base := (w 0).toNat
  let s16 (v : Nat) : Int := (BitVec.ofNat 16 v).toInt
  let warn := s16 (getBits (w 3) 15 0)
  let crit := s16 (getBits (w 3) 31 16)
  let tel := getBits (w 2) 15 0
  (decide (base ≠ 0) && !imgBaseOk base len) || s.qCredit (Fin.ofNat 256 (getBits (w 1) 7 0)) ||
    decide (tel < 1) || decide (1000 < tel) || decide (crit ≤ warn) || decide (2480 < crit) ||
    decide (1000000 < (w 4).toNat) || decide (getBits (w 5) 31 16 ≤ getBits (w 5) 15 0) ||
    (ws.drop 6).any fun x => decide (x ≠ 0)

/-! ## Admission -/

/-- The content checks, codes 0x0B to 0x14, in order (Table 9.9). -/
def State.bodyVerdict (s : State) (img : List Byte) : Option Verdict :=
  let ts := imgWords img 0
  let ws := imgWords img 1
  let rs := s.decodeRoutes
  let ps := imgPeriph img
  let all : List (Nat × Nat × Option Nat) := [
    (0x0B, 1, tenantBad ts ws), (0x0C, 2, windowsBad ws), (0x0D, 3, resvBad (imgWords img 2)),
    (0x0E, 4, s.routeKindBad), (0x0F, 4, routeSourceBad rs),
    (0x10, 4, s.routeOwnerBad rs fun t => (tenWord ts t 0).getLsbD 0), (0x11, 5, leBad (imgLe img)), (0x12, 6, periphBad ps),
    (0x13, 6, s.valuesBad rs (periphWrites ps.1)), (0x14, 7, bad (s.bgBad (imgBg img) img.length))]
  all.findSome? fun x => x.2.2.map fun k => (x.1, x.2.1, k)

/-- The outcome of admission (R238): the first check that fails, if any. -/
def State.verdict (s : State) (img : List Byte) : Option Verdict :=
  (s.headVerdict img).or ((s.keyVerdict img).or (s.bodyVerdict img))

/-- The admission word (R239). -/
def verdictWord (v : Option Verdict) : Word :=
  match v with
  | some (c, t, k) => BitVec.ofNat 32 (c * 2 ^ 24 + t * 2 ^ 16 + k % 65536)
  | none => 0

end Sys2Proof.Machine
end

