-- ==== Sys2Proof/Machine/Load.lean ====
section
/-! DEFINITION. Loading an image from the host port or the twin, Verify, and the wake from Retention (R416 to R420, R437, R442). -/

namespace Sys2Proof.Machine

/-! ## The load -/

/-- A load begins (R417): SRC records the winner, LOADS counts it. -/
def State.loadBegin (s : State) (src : LoadSrc) : State :=
  let s := (s.setFld F.SYS_START_SRC 0 0 (if src = .host then 1 else 2)).bump F.SYS_START_LOADS 0 0
  let s := s.setFld F.SYS_START_VCAUSE 0 0 0
  let now := s.now
  let s : State := { s with load := ⟨src, [], 0, now⟩ }
  s.setMode .loading

/-- Bytes of the image have arrived: with LENGTH of them Loading ends (R419). The loader has written the sections by then; it
writes none of an image whose header checks fail, which says where no section lies. -/
def State.loadBytes (s : State) (d : List Byte) : State :=
  let img := s.load.img ++ d
  let len := imgLength img
  if img.length < 16 ∨ img.length < len then { s with load := { s.load with img := img } }
  else
    let img := if s.load.src = .twin then img.take (max 16 len) else img
    let s : State := { s with load := { s.load with img := img } }
    let s := if (s.headVerdict img).isNone then s.putImage img else s
    ((s.unsched .hostLoadTimeout).unsched .twinLoadTimeout).setMode .verify

/-- LC of 100 ms and of 1 ms (R419). -/
def hostLoadLc : Nat := 40000000
/-- See `hostLoadLc`. -/
def twinLoadLc : Nat := 400000

/-- A LOAD frame with a good payload (R417, R419, Table 16.6): status and state after it. -/
def State.hostLoad (s : State) (off : Nat) (d : List Byte) : HpStatus × State :=
  match s.sys.mode with
  | .blank =>
    if s.fl.lower.isSome ∨ off ≠ 0 ∨ s.mode ≠ .blank then (.busy, s)
    else (.ok, ((s.loadBegin .host).sched hostLoadLc .hostLoadTimeout).loadBytes d)
  | .loading =>
    if s.load.src ≠ .host then (.busy, s)
    else
      let s := s.sched hostLoadLc .hostLoadTimeout
      if off = s.load.img.length then (.ok, s.loadBytes d) else (.seqErr, s)
  | .verify => (.busy, s)
  | _ => (.mode, s)

/-- HP_LOAD (R417, R419, R423). -/
def execHpLoad (f : HpFrame) (offset : Word) (data : List Byte) (s : State) : Out :=
  hpCmd f 0x02 (Word.bytes offset ++ data) (fun p s =>
    let d := p.drop 4
    if d.length < 4 ∨ 4096 < d.length ∨ d.length % 4 ≠ 0 then s.hpRespond 0x02 f .badCmd []
    else
      let r := s.hostLoad (wordOfBytes p).toNat d
      r.2.hpRespond 0x02 f r.1 []) s

/-- HP_ABORT (R419): in the lc of a load's last byte it prevails (Table 16.12). -/
def execHpAbort (f : HpFrame) (s : State) : Out :=
  hpCmd f 0x03 [] (fun _ s =>
    let s := if s.sys.mode = .loading ∨ s.sys.mode = .verify then s.toBlank 0x22 else s
    s.hpRespond 0x03 f .ok []) s

/-- HOST_LOAD_TIMEOUT (R419). -/
def execHostLoadTimeout (s : State) : Out :=
  .next (if s.mode = .loading ∧ s.load.src = .host then s.toBlank 0x21 else s)

/-- TWIN_LOAD_TIMEOUT (R419). -/
def execTwinLoadTimeout (s : State) : Out :=
  .next (if s.mode = .loading ∧ s.load.src = .twin then s.toBlank 0x21 else s)

/-! ## The link and the twin's load -/

/-- LINK_DOWN (R384): it ends a twin load (R418). -/
def execLinkDown (s : State) : Out :=
  if s.linkIsUp then
    let s := (s.setFld F.TW_STAT_LINK 0 0 1).modTwin fun t => { t with tx := none, offer := none }
    .next (if s.mode = .loading ∧ s.load.src = .twin then s.toBlank 0x20 else s)
  else .next s

/-- LINK_UP (R384): training completes. -/
def execLinkUp (s : State) : Out := .next (if s.fld F.TW_STAT_LINK 0 0 = 1 then s.setFld F.TW_STAT_LINK 0 0 2 else s)

/-- The device can offer its image: Ready or a Run mode, IMGBASE not 0 (R418). -/
def State.hasOffer (s : State) : Bool :=
  (decide (s.mode = .ready) || (s.mode.run && decide (s.mode ≠ .handover))) && decide (s.imgBase ≠ 0)

/-- BLANK (R418): it is answered at the next mark. -/
def execBlank (h : TwHdr) (t : List Byte) (s : State) : Out :=
  twRecv 0x10 0 0 h t [] (fun s => if s.hasOffer then s.modTwin fun w => { w with blank := true } else s) s

/-- BLANK_FRAME_SEND (R418, Table 16.3). -/
def execBlankFrameSend (s : State) : Out := .next (if s.mode = .blank then s.twSend 0x10 [] [] else s)

/-- LOAD_OFFER (R417): accepted in Blank; over a host load that began in the same PERCLK cycle the twin wins. -/
def execLoadOffer (h : TwHdr) (t : List Byte) (s : State) : Out :=
  twRecv 0x11 0 0 h t [] (fun s =>
    let same := decide (s.mode = .loading) && decide (s.load.src = .host) && decide (s.load.began / 4 = s.now / 4)
    if (decide (s.mode = .blank) && s.fl.lower.isNone) || same then
      let s := if same then
          let s := (s.unsched .hostLoadTimeout).setFld F.SYS_START_SRC 0 0 2
          let now := s.now
          { s with load := ⟨.twin, [], 0, now⟩
                   hp := s.hp.map fun r => { r with status := BitVec.ofNat 8 HpStatus.busy.code } }
        else s.loadBegin .twin
      let len := wordAt t 0
      let s : State := { s with load := { s.load with len := len.toNat } }
      (s.twSend 0x12 (Word.bytes len) []).sched twinLoadLc .twinLoadTimeout
    else s) s

/-- LOAD_REQ (R418): the image at IMGBASE is sent from offset 0. -/
def execLoadReq (h : TwHdr) (t : List Byte) (s : State) : Out :=
  twRecv 0x12 0 0 h t [] (fun s =>
    let now := s.now
    if s.hasOffer then s.modTwin fun w => { w with offer := some (now, 0) } else s) s

/-- LOAD_DATA (R418, R419): a frame discarded or an offset out of order ends the load with cause LOADGAP. -/
def execLoadData (h : TwHdr) (t : List Byte) (d : List Byte) (s : State) : Out :=
  if !s.linkIsUp || decide (s.mode = .retention) then .next s
  else
    let twin := decide (s.mode = .loading ∧ s.load.src = .twin)
    if !twWhole 0x13 1 16 h t d then
      let s := s.bump F.TW_ERR_CNT_FRAMECRC 0 0
      .next (if twin then s.toBlank 0x20 else s)
    else if !twin then .next s
    else if (wordAt t 0).toNat ≠ s.load.img.length then .next (s.toBlank 0x20)
    else .next ((s.sched twinLoadLc .twinLoadTimeout).loadBytes d)

/-- LOAD_STATUS (R420): the load that was sent is over. -/
def execLoadStatus (h : TwHdr) (t : List Byte) (s : State) : Out :=
  twRecv 0x14 0 0 h t [] (fun s => s.modTwin fun w => { w with offer := none }) s

/-- Sends the next LOAD_DATA frame when its flits have passed, 411 in 2,000 lc as for an epoch (R386, R418); a beat of the image that
cannot be read ends the offer (R301). Each lc. -/
def State.offerSend (s : State) : State :=
  match s.twin.offer with
  | some (t0, off) =>
    let len := imgLength (s.bytes s.imgBase 16)
    if !s.hasOffer || decide (len ≤ off) then s.modTwin fun w => { w with offer := none }
    else
      let k := min 512 (len - off)
      let n := (k + 31) / 32
      if (s.now - t0) * 411 < (off / 512 * 17 + 1 + n) * 2000 then s
      else
        match s.getMem 6 (s.imgBase + off) k with
        | (some d, s) => (s.twSend 0x13 (leBytes off 4) d).modTwin fun w => { w with offer := some (t0, off + k) }
        | (none, s) => s.modTwin fun w => { w with offer := none }
  | none => s

/-! ## Verify -/

/-- Number of ones in the low `n` bits. -/
def onesBelow (n v : Nat) : Nat := ((List.range n).filter v.testBit).length

/-- The self-test that fails first (R83, R252, R420, Table 16.4); 0 = none. -/
def selfTestCause (st : SelfTest) : Nat :=
  if 2 ≤ onesBelow 9 (calMask st.adc) then 1
  else if st.cmp then 2
  else if st.le then 3
  else if (List.range 4).any fun p => decide (st.inj.getD p 0 ≠ 0xFF) then 4
  else if st.ecc then 5
  else if st.fuse then 6
  else if st.ptu then 7
  else if 1 < st.lines then 8
  else 0

/-- Fuses the owner key hash of an image that is accepted with a blank field (R237). -/
def State.fuseKey (s : State) (img : List Byte) : State :=
  if s.okhBlank && imgFuseKey img then
    let h := bytesToWords (sha256 (imgKey img))
    let s := (List.range 8).foldl (fun s i => s.setReg .SEC_OKHi i 0 (h.getD i 0)) s
    s.setFld F.SEC_FUSE_STAT_OKH 0 0 1
  else s

/-- The routes that the configuration space holds come into force. -/
def State.takeRoutes (s : State) : State := { s with mx := { MatrixSt.init with routes := s.decodeRoutes } }

/-- The peer of a twin load hears how it ended (R420, Table 16.3). -/
def State.loadStatusTo (s : State) (src : LoadSrc) (w : Word) (mode : Nat) : State :=
  if src = .twin then s.twSend 0x14 (Word.bytes w ++ [BitVec.ofNat 8 mode]) [] else s

/-- BUILD and CFGGEN of the image in force (R233). -/
def State.imgIds (s : State) (img : List Byte) : State :=
  (s.setReg .SM_IMAGE 0 0 (imgWord img 0x14)).setReg .SM_CFGGEN 0 0 (imgWord img 0x10)

/-- Verify ends well: the image is in force and the device enters Ready. -/
def State.verifyPass (s : State) (st : SelfTest) (img : List Byte) : State :=
  let src := s.load.src
  let s := ((s.fuseKey img).imgIds img).takeRoutes
  let s := if st.lines = 1 then s.setFld F.PWM_CAL_STAT_FAIL 0 0 1 else s
  let s : State := { s with load := ⟨.none, [], 0, 0⟩, sys := { s.sys with digest := imgDigest img } }
  (s.enterReady (.verify st.adc)).loadStatusTo src 0 5

/-- VERIFY_END (R237 to R240, R420). -/
def execVerifyEnd (st : SelfTest) (s : State) : Out :=
  if s.mode ≠ .verify then .next s
  else
    let img := s.load.img
    let src := s.load.src
    let v := s.verdict img
    let w := verdictWord v
    let s := s.setReg .SYS_ADMIT 0 0 w
    if v.isSome then .next ((s.toBlank 0x10).loadStatusTo src w 2)
    else
      let s := (List.finRange 4).foldl (fun s (p : Pair) => s.setFld F.LP_LS_STAT_INJ p 0 (st.inj.getD p 0).toNat) s
      let c := selfTestCause st
      .next (if c ≠ 0 then (s.toBlank c).loadStatusTo src w 2 else s.verifyPass st img)

/-! ## Wake from Retention -/

/-- The image kept at IMGBASE, by the LENGTH of its header; none where that is no length an image can have, or where it cannot be read
(R301). -/
def State.keptImage (s : State) : Option (List Byte) × State :=
  match s.soundMem s.imgBase 16 with
  | (none, s) => (none, s)
  | (some h, s) =>
    let len := imgLength h
    if 8388608 < len ∨ 0x21800000 < s.imgBase + len then (none, s) else s.soundMem s.imgBase len

/-- The wake ends in Safe-Hold with cause RETENTION (Table 16.9). -/
def State.wakeFail (s : State) (sub : Nat) : State :=
  ({ s with sys := { s.sys with latch := [] } } : State).enterSafeHold 6 sub none

/-- RETENTION_WAKE (R298, R437): the loader replays the sections as in Loading. During Retention entry the edge is kept until entry
is complete (Table 16.12). -/
def execRetentionWake (st : WakeTest) (s : State) : Out :=
  if s.sys.mode ≠ .retention then .next (if s.sys.retReq then { s with sys := { s.sys with wake := some st } } else s)
  else
    let s := (s.setFld F.TW_STAT_LINK 0 0 1).setFld F.EVC_STAT_RESTORED 0 0 1
    if st.evcErr then .next ((s.setFld F.EVC_STAT_RETERR 0 0 1).wakeFail 1)
    else if 2 ≤ onesBelow 9 (calMask st.adc) then .next (s.wakeFail 3)
    else
      match s.keptImage with
      | (none, s) => .next (s.wakeFail 2)
      | (some img, s) =>
        if imgDigest img ≠ s.sys.digest then .next (s.wakeFail 2)
        else
          let s := s.putResv (imgWords img 2)
          let s := s.putRoutes (imgSect img 3)
          let s := ({ s with sys := { s.sys with mode := .loading } } : State).asLoader fun s => s.putPeriph (imgPeriph img).1
          let s : State := { s with sys := { s.sys with mode := .retention, bg := imgBg img, latch := [] } }
          let s := ((s.takeRoutes).imgIds img).setFld F.SYS_START_SRC 0 0 3
          .next (s.enterReady (.wake st.adc))

end Sys2Proof.Machine
end

