-- ==== Sys2Proof/Machine/Debug.lean ====
section
/-! DEFINITION. The debug port: sessions, capabilities, memory and register access, halts, authentication (R367 to R377). -/

namespace Sys2Proof.Machine

/-! ## Capabilities (Tables 14.2, 14.3) -/

/-- Capability codes of Table 14.2; `never` = refused to debug in every cell. -/
inductive Cap
  | i | s | m | w | h | f | never
  deriving DecidableEq, Repr

/-- Some session stands. -/
def State.dbgOn (s : State) : Bool := decide (s.fld F.DBG_STAT_STATE 0 0 ≠ 0)

/-- The present cell of Table 14.3 grants a capability. In Retention the port reads DBG_ID and DBG_STAT alone. -/
def State.grants (s : State) (c : Cap) : Bool :=
  let m := s.sys.mode
  let att := s.dbgOn && decide (m ≠ .reset ∧ m ≠ .retention)
  let hc := att && s.dbgFull && decide (s.fld F.DBG_STAT_STATE 0 0 = 2)
  match c with
  | .i => decide (m ≠ .reset ∧ m ≠ .retention)
  | .s => att && (s.dbgFull || decide (s.fld F.FL_PL_LEVEL 0 0 = 1))
  | .m => att && s.dbgFull
  | .w => s.dbgW
  | .h => hc && m.cores
  | .f => hc && decide (m = .maintenance)
  | .never => false

/-- Address behind the Monitor alias (R23). -/
def unalias (a : Nat) : Nat :=
  if 0xF0000000 ≤ a ∧ a < 0xF0030000 then monitorBase ((a - 0xF0000000) / 0x10000) + a % 0x10000 else a

/-- Registers of capability I. -/
def capI : RegName → Bool
  | .DBG_ID => true
  | .DBG_STAT => true
  | .DBG_AUTH_CTRL => true
  | .DBG_AUTH_CHALi => true
  | .DBG_AUTH_DATAi => true
  | _ => false

/-- Capability that an access needs; `w` = a write, `c` = a CONSUME read (R370, R371, Table 14.2). -/
def capOf (w c : Bool) (a : Nat) : Cap :=
  let a := unalias a
  match regAt a with
  | some (rn, _, _) =>
    if c then .w
    else if capI rn then .i
    else if !w then .s
    else
      match rn with
      | .DBG_CTRL => .i
      | .DBG_SAFEGRP => .h
      | .FL_KEY => .f
      | .FL_CMD => .f
      | .FL_PL_REQ => .f
      | _ => if 0x44200000 ≤ a ∧ a < 0x44300000 then .never else .w
  | none =>
    if w && decide (0x50000000 ≤ a ∧ a < 0x51000000) then .never
    else if w || c then .w
    else if 0x40000000 ≤ a ∧ a < 0x44400000 then .s else .m

/-! ## Answers -/

/-- Status, data and state after a debug access. -/
abbrev DbgR := HpStatus × Word × State

/-- Code of DBG_STAT.ERR. -/
def State.dbgErr (s : State) (code : Nat) : State := s.raiseFld F.DBG_STAT_ERR 0 0 code

/-- An access that is refused: ERR = DENIED (R375). -/
def State.dbgDeny (s : State) : DbgR := (.denied, 0, s.dbgErr 1)

/-- Pairs. -/
def allPairs : List Pair := List.finRange 4

/-- The debug port as a master (R367). -/
def dbgReq : Req := ⟨12, 0, .monitor⟩

/-! ## DBG_CTRL (R367, R372, R373, R376) -/

/-- A halt of the pair is refused for its outputs (R373). -/
def State.haltBarred (s : State) (p : Pair) : Bool :=
  decide (s.mode = .runSolo ∨ s.mode = .runActive ∨ s.mode = .handover) &&
    (List.range 16).any fun k => decide (s.grpOwner k = (s.pair p).tid) && !(s.reg .DBG_SAFEGRP 0 0).getLsbD k

/-- A halt is pending until the next boundary. -/
def State.askHalt (s : State) (p : Pair) : State :=
  if (s.pair p).halted then s else (s.modPair p fun x => { x with haltReq := true }).emit (.haltTaken p)

/-- A halt request for a pair: refused with OUTPUTS, or pending. A refusal is remembered for its lc (Table 14.4). -/
def State.dbgHalt (s : State) (p : Pair) : Bool × State :=
  if s.haltBarred p then
    let e := (s.now, s.fld F.DBG_STAT_ERR 0 0, p)
    (false, { s.dbgErr 2 with dbg := { s.dbg with barred := e :: s.dbg.barred.filter fun b => decide (b.1 = s.now) } })
  else (true, s.askHalt p)

/-- Halts refused in this lc that DBG_SAFEGRP, written since, no longer bars: they are granted as if it had been written first (Table
14.4). -/
def State.unbar (s : State) : State :=
  let now := s.now
  let mine := s.dbg.barred.filter fun b => decide (b.1 = now)
  if mine.isEmpty || mine.any fun b => s.haltBarred b.2.2 then s
  else
    let s := mine.foldl (fun s b => (s.askHalt b.2.2).setFld F.DBG_STAT_ERR 0 0 b.2.1) s
    { s with dbg := { s.dbg with barred := [] } }

/-- STEP: a halted pair executes one instruction (R372). -/
def State.dbgStep (s : State) (p : Pair) : State :=
  s.modPair p fun x => if x.halted then { x with halted := false, step := true } else x

/-- ATTACH (R367): 1 non-invasive, 2 halt-capable. -/
def State.dbgAttach (s : State) (host : Bool) (k : Nat) : DbgR :=
  if k ≠ 1 ∧ k ≠ 2 then (.ok, 0, s)
  else if k = 2 ∧ s.dbgFull = false then s.dbgDeny
  else
    let now := s.now
    let s : State := if s.dbgOn then s else { s with dbg := { s.dbg with since := now } }
    (.ok, 0, (s.setFld F.DBG_STAT_STATE 0 0 k).setFld F.DBG_STAT_PORT 0 0 (if host then 1 else 0))

/-- A write to DBG_CTRL: DETACH, then ATTACH, then RESUME, HALT and STEP under H. -/
def State.dbgCtrl (s : State) (host : Bool) (v : Word) : DbgR :=
  let s := if v.getLsbD 2 then s.dbgEnd else s
  let a := s.dbgAttach host (getBits v 1 0)
  let s := a.2.2
  if getBits v 11 3 = 0 then a
  else if !s.grants .h then s.dbgDeny
  else
    let s := if v.getLsbD 3 then (allPairs.filter fun p => !v.getLsbD (4 + p.val)).foldl State.dbgRelease s else s
    let h := (allPairs.filter fun p => v.getLsbD (4 + p.val)).foldl
      (fun (x : Bool × State) p => let t := x.2.dbgHalt p; (x.1 && t.1, t.2)) (true, s)
    let s := (allPairs.filter fun p => v.getLsbD (8 + p.val)).foldl State.dbgStep h.2
    if h.1 then (a.1, 0, s) else (.denied, 0, s)

/-! ## Authentication (R368) -/

/-- REQ: a fresh challenge (DESIGN CHOICE, log entry 21). Refused while LOCKED or while a check runs. -/
def State.authReq (s : State) : DbgR :=
  if s.flag F.DBG_STAT_LOCKED 0 0 || s.dbg.authBusy then s.dbgDeny
  else
    let k := s.fresh
    let s := (List.finRange 8).foldl (fun s (i : Fin 8) => s.setReg .DBG_AUTH_CHALi i 0 (Config.challenge k i)) s.draw
    (.ok, 0, { s with dbg := { s.dbg with chal := true } })

/-- GO: the check starts; each challenge serves one. -/
def State.authStart (s : State) : DbgR :=
  if s.flag F.DBG_STAT_LOCKED 0 0 || s.dbg.authBusy || !s.dbg.chal then s.dbgDeny
  else
    let t := Config.authTime s.fresh % 2000000 + 1
    let s : State := { s.draw with dbg := { s.dbg with chal := false, authBusy := true } }
    (.ok, 0, s.sched t .authComplete)

/-- A write to DBG_AUTH_CTRL. -/
def State.dbgAuth (s : State) (v : Word) : DbgR :=
  let r := if v.getLsbD 0 then s.authReq else (.ok, 0, s)
  if v.getLsbD 1 then r.2.2.authStart else r

/-- X, Y, r and s as written, 32 bytes each. -/
def State.authBytes (s : State) (k : Nat) : List Byte :=
  (List.range 8).flatMap fun i => Word.bytes (s.reg .DBG_AUTH_DATAi (8 * k + i) 0)

/-- The key hash and the signature over SHA-256(challenge ‖ UID) are right. -/
def State.authGood (s : State) : Bool :=
  let x := s.authBytes 0
  let y := s.authBytes 1
  let msg := ((List.range 8).flatMap fun i => Word.bytes (s.reg .DBG_AUTH_CHALi i 0)) ++
    (List.range 4).flatMap fun i => Word.bytes (s.reg .SEC_UIDi i 0)
  decide (sha256 (x ++ y) = s.okh) &&
    ecdsaVerify (beNat x) (beNat y) (beNat (s.authBytes 2)) (beNat (s.authBytes 3)) (beNat (sha256 msg))

/-- AUTH_COMPLETE (R368). -/
def execAuthComplete (s : State) : Out :=
  if !s.dbg.authBusy || decide (s.sys.mode = .reset ∨ s.sys.mode = .retention) then .next s
  else
    let s : State := { s.unsched .authComplete with dbg := { s.dbg with authBusy := false } }
    let fail (s : State) (code : Nat) : State :=
      let n := s.fld F.DBG_STAT_FAILS 0 0 + 1
      let s := (s.dbgErr code).setFld F.DBG_STAT_FAILS 0 0 n
      if 3 ≤ n then s.setFld F.DBG_STAT_LOCKED 0 0 1 else s
    .next (if s.okhBlank then fail s 4
      else if s.authGood then (s.setFld F.DBG_STAT_AUTH 0 0 1).setFld F.DBG_STAT_FAILS 0 0 0
      else fail s 5)

/-! ## Accesses -/

/-- A write to DBG_SAFEGRP: a group whose bit becomes 1 takes its safe pattern (R373). -/
def State.safegrpWrite (s : State) (v : Word) : State :=
  let old := s.reg .DBG_SAFEGRP 0 0
  let s := s.setReg .DBG_SAFEGRP 0 0 (v &&& 0xFFFF)
  ((List.finRange 16).foldl (fun s (n : GenId) =>
    if v.getLsbD (s.grpOf n) && !old.getLsbD (s.grpOf n) then s.pwmSafe n true else s) s).unbar

/-- A debug write (R369, R371). -/
def State.dbgWrite (s : State) (host : Bool) (a v : Word) : DbgR :=
  if !s.grants (capOf true false a.toNat) then s.dbgDeny
  else
    let plain : DbgR :=
      let s := s.busWrite dbgReq a.toNat v.toNat 4
      (if s.ans.err then .denied else .ok, 0, s)
    match regAt (unalias a.toNat) with
    | some (rn, i, _) =>
      match rn with
      | .DBG_CTRL => s.dbgCtrl host v
      | .DBG_SAFEGRP => (.ok, 0, s.safegrpWrite v)
      | .DBG_AUTH_CTRL => s.dbgAuth v
      | .DBG_AUTH_DATAi => (.ok, 0, s.setReg .DBG_AUTH_DATAi i 0 v)
      | _ => plain
    | none => if a.toNat % 4 ≠ 0 then (.denied, 0, s) else plain

/-- A debug read: a peek unless it consumes (R370). -/
def State.dbgRead (s : State) (consume : Bool) (a : Word) : DbgR :=
  let idStat := decide (a.toNat = RegName.DBG_ID.addr 0 0 ∨ a.toNat = RegName.DBG_STAT.addr 0 0)
  if !(s.grants (capOf false consume a.toNat) || (decide (s.sys.mode = .retention) && idStat && !consume)) then s.dbgDeny
  else if a.toNat % 4 ≠ 0 then (.denied, 0, s)
  else
    match s.busRead dbgReq (!consume) a.toNat 4 with
    | (.data v, s) => (.ok, BitVec.ofNat 32 v, s)
    | (.busy w, s) => (.ok, w, s)
    | (.error, s) => (.denied, 0, s)

/-! ## Registers of a halted pair (R369, Table 14.2) -/

/-- The pair whose register an access names. -/
def locPair : DbgLoc → Option Pair
  | .bus _ => none
  | .greg p _ => some p
  | .freg p _ _ => some p
  | .special p _ => some p

/-- The word by which a DEBUG frame names it: registers of a pair have no address in the spec (DESIGN CHOICE, log entry 12). -/
def locWord : DbgLoc → Word
  | .bus a => a
  | .greg p r => Config.dbgAddr (p.val * 128 + r.val)
  | .freg p r hi => Config.dbgAddr (p.val * 128 + 32 + 2 * r.val + hi.toNat)
  | .special p n => Config.dbgAddr (p.val * 128 + 96 + n.val)

/-- What debug reads of a pair's main copy (R369); none for a number that names no special register. -/
def State.dbgPeek (s : State) : DbgLoc → Option Word
  | .bus _ => none
  | .greg p r => some ((s.pair p).main.gr r)
  | .freg p r hi => some (if hi then ((s.pair p).main.fr r >>> 32).setWidth 32 else ((s.pair p).main.fr r).setWidth 32)
  | .special p n =>
    if n.val = 7 ∨ 27 ≤ n.val then none
    else if n.val = 24 then some (BitVec.ofNat 32 (s.pair p).tid.val)
    else if n.val = 25 then some s.cycleLo
    else if n.val = 26 then some (s.pair p).cycleh
    else some ((s.pair p).main.special n.val)

/-- A register written by debug changes in both copies (R369), as MTS would write it above User; a TSBR write clears ARMED. -/
def State.dbgPoke (s : State) (a : DbgLoc) (v : Word) : State :=
  match a with
  | .bus _ => s
  | .greg p r => s.both p fun c => c.setG r v
  | .freg p r hi => s.both p fun c =>
      c.setF r (if hi then v ++ (c.fr r).setWidth 32 else ((c.fr r) >>> 32).setWidth 32 ++ v)
  | .special p n =>
    let s := if n.val = 5 then s.setFld F.LP_EXC_STAT_ARMED p 0 0 else s
    s.both p fun c => c.setSpecial n.val false v

/-- Capability H reaches the registers of a halted pair (Table 14.2). -/
def State.dbgReaches (s : State) (p : Pair) : Bool := s.grants .h && (s.pair p).halted

/-- A debug read of what it names; a CONSUME read of CYCLE latches CYCLEH as MFS does (R253, R370). -/
def State.dbgLoad (s : State) (consume : Bool) (a : DbgLoc) : DbgR :=
  match a with
  | .bus a => s.dbgRead consume a
  | a =>
    match locPair a, s.dbgPeek a with
    | some p, some v =>
      if s.dbgReaches p then
        let latch := consume && decide (a = DbgLoc.special p 25)
        (.ok, v, if latch then s.modPair p fun x => { x with cycleh := s.cycleHi } else s)
      else s.dbgDeny
    | _, _ => s.dbgDeny

/-- A debug write of what it names. -/
def State.dbgStore (s : State) (host : Bool) (a : DbgLoc) (v : Word) : DbgR :=
  match a with
  | .bus a => s.dbgWrite host a v
  | a =>
    match locPair a, s.dbgPeek a with
    | some p, some _ => if s.dbgReaches p then (.ok, 0, s.dbgPoke a v) else s.dbgDeny
    | _, _ => s.dbgDeny

/-! ## Ports -/

/-- A debug access through a port: BUSY where the other port holds the session; a TAP that attaches in the PERCLK cycle in which
the host port attached wins (R367). -/
def State.dbgPort (s : State) (host attach : Bool) (body : State → DbgR) : DbgR :=
  let mine := decide (s.flag F.DBG_STAT_PORT 0 0 = host)
  if !s.dbgOn || mine then body s
  else if !host && attach && decide (s.dbg.since / 4 = s.now / 4) then
    body { s with hp := s.hp.map fun r => { r with status := BitVec.ofNat 8 HpStatus.busy.code } }
  else (.busy, 0, s.dbgErr 3)

/-- A debug command: at the TAP it answers in the bus answer; a host DEBUG frame carries operation, address and data, and is
answered BUSY before Ready (R416, Tables 1.7, 16.6). -/
def dbgCmd (v : DbgVia) (op : Nat) (a d : Word) (body : Bool → State → DbgR) (s : State) : Out :=
  let attach := decide (op = 2 ∧ unalias a.toNat = RegName.DBG_CTRL.addr 0 0 ∧ getBits d 1 0 ∈ [1, 2])
  match v with
  | .tap =>
    if s.sys.mode = .reset then .next s
    else
      let r := s.dbgPort false attach (body false)
      .next { r.2.2 with ans := ⟨r.2.1, decide (r.1 ≠ .ok)⟩ }
  | .host f =>
    hpCmd f 0x30 ([BitVec.ofNat 8 op, 0, 0, 0] ++ Word.bytes a ++ Word.bytes d) (fun p s =>
      if p.length < 12 then s.hpRespond 0x30 f .badCmd []
      else if s.sys.mode = .blank ∨ s.sys.mode = .loading ∨ s.sys.mode = .verify then s.hpRespond 0x30 f .busy []
      else
        let r := s.dbgPort true attach (body true)
        r.2.2.hpRespond 0x30 f r.1 (if r.1 = .ok ∧ op ≠ 2 then Word.bytes r.2.1 else [])) s

/-- A debug command that is a write of a DBG register. -/
def dbgRegCmd (v : DbgVia) (rn : RegName) (d : Word) (s : State) : Out :=
  let a := BitVec.ofNat 32 (rn.addr 0 0)
  dbgCmd v 2 a d (fun host s => s.dbgWrite host a d) s

/-- DEBUG_READ (R370, R371). -/
def execDebugRead (v : DbgVia) (a : DbgLoc) (s : State) : Out := dbgCmd v 1 (locWord a) 0 (fun _ s => s.dbgLoad false a) s
/-- DEBUG_WRITE (R369, R371). -/
def execDebugWrite (v : DbgVia) (a : DbgLoc) (d : Word) (s : State) : Out :=
  dbgCmd v 2 (locWord a) d (fun host s => s.dbgStore host a d) s
/-- DEBUG_CONSUME_READ (R370). -/
def execDebugConsumeRead (v : DbgVia) (a : DbgLoc) (s : State) : Out := dbgCmd v 3 (locWord a) 0 (fun _ s => s.dbgLoad true a) s
/-- DBG_ATTACH (R367). -/
def execDbgAttach (v : DbgVia) (st : Fin 4) (s : State) : Out := dbgRegCmd v .DBG_CTRL (BitVec.ofNat 32 st.val) s
/-- DBG_DETACH (R376). -/
def execDbgDetach (v : DbgVia) (s : State) : Out := dbgRegCmd v .DBG_CTRL 4 s
/-- DBG_HALT (R373). -/
def execDbgHalt (v : DbgVia) (p : Pair) (s : State) : Out := dbgRegCmd v .DBG_CTRL (BitVec.ofNat 32 (2 ^ (4 + p.val))) s
/-- DBG_RESUME (R372). -/
def execDbgResume (v : DbgVia) (halt : BitVec 4) (s : State) : Out :=
  dbgRegCmd v .DBG_CTRL (BitVec.ofNat 32 (8 + halt.toNat * 16)) s
/-- DBG_STEP (R372): RESUME is 0, so no other pair is released. -/
def execDbgStep (v : DbgVia) (p : Pair) (s : State) : Out := dbgRegCmd v .DBG_CTRL (BitVec.ofNat 32 (2 ^ (8 + p.val))) s
/-- AUTH_REQUEST (R368). -/
def execAuthRequest (v : DbgVia) (s : State) : Out := dbgRegCmd v .DBG_AUTH_CTRL 1 s
/-- AUTH_GO (R368). -/
def execAuthGo (v : DbgVia) (s : State) : Out := dbgRegCmd v .DBG_AUTH_CTRL 2 s
/-- DBG_SAFEGRP_WRITE (R373). -/
def execDbgSafegrpWrite (v : DbgVia) (d : Word) (s : State) : Out := dbgRegCmd v .DBG_SAFEGRP d s

/-- HALT_TAKEN (R372): at a boundary, after what is taken there first (Table 14.4); while a delay slot is due the halt waits for the
boundary after it, while a load stalls for its end. -/
def execHaltTaken (p : Pair) (s : State) : Out :=
  if !(s.pair p).haltReq then .next s
  else
    match s.boundary p with
    | .late l => .next ((s.takeLate p l).emit (.haltTaken p))
    | .fp e => .next ((s.takeFp p e).emit (.haltTaken p))
    | .recall => .next ((s.takeRecall p).emit (.haltTaken p))
    | .halt => .next (s.takeHalt p)
    | .run => .next (s.sched 1 (.haltTaken p))
    | .hold => .next (if s.coreUp p then s.sched 1 (.haltTaken p) else s)

end Sys2Proof.Machine
end

