-- ==== Sys2Proof/Machine/Eth.lean ====
section
/-! DEFINITION. Ethernet timestamps and the station-cycle engine (R424 to R431, R456). -/

namespace Sys2Proof.Machine

/-! ## Ports -/

/-- Port n is on (R425): in Ready and every later mode but Retention, with EN. -/
def State.ethOn (s : State) (n : Fin 2) : Bool := s.mode.cores && (s.reg .ETHn_CFG n 0).getLsbD 0

/-- Port n transmits: on, while the PHY drives ETHn_RXC (R456); in Run-Standby, and in Handover before the agreement point, the
ports only receive (Table 1.7). -/
def State.ethSends (s : State) (n : Fin 2) : Bool :=
  s.ethOn n && s.eth[n].rxc && decide (s.mode ≠ .runStandby) && (decide (s.mode ≠ .handover) || s.flag F.TW_STAT_OWN 0 0)

/-- ETH_RXC_CHANGE (R456). -/
def execEthRxcChange (port : Fin 2) (on : Bool) (s : State) : Out :=
  .next { s with eth := vmod s.eth port fun e => { e with rxc := on } }

/-- messageType of a frame that is timestamped (R425, R426). -/
def msgType (k : EthKind) : Option Nat :=
  match k with
  | .sync => some 0
  | .pdelayReq => some 2
  | .pdelayResp => some 3
  | .pause => none
  | .other => none

/-- TOD of this lc corrected by `corr` / 256 ns (R425), as TOD_SEC[31:0], NS and FINE. -/
def State.ethStamp (s : State) (corr : Int) : List Word :=
  let t : Int := (s.tod.sec.toNat * 1000000000 + s.todNs) * 256 + s.todFine + corr
  let n := t.toNat
  [BitVec.ofNat 32 (n / 256000000000), BitVec.ofNat 32 (n / 256 % 1000000000), BitVec.ofNat 32 (n % 256)]

/-- Takes the timestamp of a frame (R425, R426): an entry that finds 16 is lost. -/
def State.timestamp (s : State) (n : Fin 2) (egress : Bool) (k : EthKind) (seqId : BitVec 16) (corr : Int) : State :=
  match msgType k with
  | some m =>
    if 16 ≤ s.eth[n].fifo.length then s.bump F.ETHn_ERR_CNT_TSOVF n 0
    else
      let w := BitVec.ofNat 32 (2 ^ 31 + (if egress then 2 ^ 30 else 0) + m * 2 ^ 24 + seqId.toNat)
      { s with eth := vmod s.eth n fun e => { e with fifo := e.fifo ++ [w :: s.ethStamp corr] } }
  | none => s

/-- ETH_FRAME_RX (R424, R425): a PAUSE frame is discarded and counted. -/
def execEthFrameRx (port : Fin 2) (kind : EthKind) (seqId : BitVec 16) (corr : Int) (s : State) : Out :=
  .next (if !s.ethOn port then s
    else if kind = .pause then s.bump F.ETHn_ERR_CNT_PAUSE port 0
    else s.timestamp port false kind seqId corr)

/-- ETH_FRAME_TX (R425, R456): PAUSE is not sent (R424). -/
def execEthFrameTx (port : Fin 2) (kind : EthKind) (seqId : BitVec 16) (corr : Int) (s : State) : Out :=
  .next (if s.ethSends port then s.timestamp port true kind seqId corr else s)

/-- ETH_TSFIFO_READ (R426). -/
def execEthTsfifoRead (r : Req) (port : Fin 2) (peek : Bool) (s : State) : Out :=
  regCmd r .read .ETHn_TSFIFO port 0 (fun s => let x := s.tsRead port peek; x.2.answer x.1) s

/-! ## Station cycle -/

/-- Changes station k. -/
def State.modStation (s : State) (k : Station) (f : ScStation → ScStation) : State :=
  { s with sc := { s.sc with st := vmod s.sc.st k f } }

/-- Stations enabled in SC_STEN. -/
def State.stations (s : State) : List Station := (List.finRange 32).filter fun k => (s.reg .SC_STEN 0 0).getLsbD k.val

/-- INDL and OUTT (Table 16.11). -/
def State.scTimes (s : State) : Nat × Nat :=
  let w := s.sys.bg.getD 5 0
  (getBits w 15 0, getBits w 31 16)

/-- The engine sends: Run-Solo, Run-Active out of fault-hold (R399, R431). -/
def State.scSends (s : State) : Bool :=
  decide (s.mode = .runSolo) || s.activeOk

/-- Sends a frame on the ports of SC_CFG.PORTS, with the EtherType of SC_CFG (R427, Table 16.8). -/
def State.scSend (s : State) (kind st flags : Nat) (d : List Byte) : State :=
  let ps := s.fld F.SC_CFG_PORTS 0 0
  (List.finRange 2).foldl (fun s (p : Fin 2) =>
    if ps / 2 ^ p.val % 2 = 1 ∧ s.ethSends p = true then
      let f : ScFrame := ⟨p.val, BitVec.ofNat 16 (s.fld F.SC_CFG_ETYPE 0 0), 1, kind, (s.reg .TW_GEN 0 0).setWidth 16, s.sc.cycle, st,
        flags, d.length, d⟩
      { s with sc := { s.sc with out := f :: s.sc.out } }
    else s) s

/-- STATION_CYCLE_BOUNDARY (R428, R431): a cycle begins; CYCLE is sent, the input read and the output write lie ahead. -/
def execStationCycleBoundary (s : State) : Out :=
  if !s.mode.run then .next s
  else
    let t := s.scTimes
    let now := s.now
    let snd := s.scSends
    let standby := decide (s.mode = .runStandby ∨ s.mode = .handover)
    let s : State := { s with sc := { s.sc with
      cycle := s.sc.cycle + 1, send := snd, readAt := some (now + t.1), sync := s.sc.sync && standby } }
    let s := (if snd then s.scSend 1 0 0 [] else s).evcRaise 0x1C0
    .next (s.sched t.2 .stationOutputWrite)

/-- An INPUT frame is one of the station cycle: SC_CFG's EtherType, VER 1, and LEN data bytes, at most 1,024, that all came (R427, Table
16.8). -/
def State.inFrameOk (s : State) (f : InFrame) : Bool :=
  decide (f.etype.toNat = s.fld F.SC_CFG_ETYPE 0 0) && decide (f.ver = 1) && decide (f.len.toNat ≤ 1024) &&
    decide (f.len.toNat ≤ f.data.length)

/-- STATION_INPUT_FRAME (R428, R430): valid with this cycle's number and the current GEN up to the end of lc INDL; on two ports
the first copy counts (R427). A standby takes its number from the first that carries the current GEN (DESIGN CHOICE, log entry 54). -/
def execStationInputFrame (port : Fin 2) (k : Station) (gen : BitVec 16) (cycle : Word) (f : InFrame) (s : State) : Out :=
  let open_ := s.mode.run && s.ethOn port && decide (s.fld F.SC_CFG_PORTS 0 0 / 2 ^ port.val % 2 = 1) &&
    s.stations.contains k && s.sc.readAt.isSome && s.inFrameOk f && decide (gen = (s.reg .TW_GEN 0 0).setWidth 16)
  if !open_ then .next s
  else
    let s : State := if s.mode = .runStandby ∧ s.sc.sync = false then { s with sc := { s.sc with cycle := cycle, sync := true } } else s
    if cycle ≠ s.sc.cycle ∨ (s.sc.st[k].last.any fun l => decide (l.1 = cycle)) = true then .next s
    else
      let s := s.modStation k fun x => { x with last := some (cycle, f.data.take f.len.toNat), miss := 0 }
      .next (if s.flag F.SC_STs_STAT_LOST k 0 then
        ((s.setFld F.SC_STs_STAT_LOST k 0 0).setFld F.SC_STs_STAT_MISS k 0 0).evcRaise 0x1C3
      else s)

/-- A station at the input read: its data, or a miss (R428 to R430). -/
def State.inputOf (s : State) (k : Station) : State :=
  let x := s.sc.st[k]
  match x.last.filter fun l => decide (l.1 = s.sc.cycle) with
  | some l =>
    (s.modStation k fun y => { y with data := l.2, stale := false, miss := 0 }).setFld F.SC_STs_STAT_STALE k 0 0
  | none =>
    let n := x.miss + 1
    let dflt := s.flag F.SC_STs_CFG_SUBST k 0
    let s := s.modStation k fun y => { y with data := if dflt then y.deflt else y.data, stale := true, miss := n }
    let s := (s.setFld F.SC_STs_STAT_STALE k 0 1).bump F.SC_STs_STAT_MISS k 0
    if s.fld F.SC_STs_CFG_K k 0 ≤ n ∧ s.flag F.SC_STs_STAT_LOST k 0 = false then
      (s.setFld F.SC_STs_STAT_LOST k 0 1).evcRaise 0x1C2
    else s

/-- STATION_INPUT_READ (R428): at the end of lc INDL. -/
def execStationInputRead (s : State) : Out :=
  if s.sc.readAt.isNone || !s.mode.run then .next s
  else
    let s : State := { s with sc := { s.sc with readAt := none } }
    .next ((s.stations.foldl State.inputOf s).evcRaise 0x1C1)

/-- STATION_OUTPUT_WRITE (R428, R429): STALE goes with a missed station, SUBST with default data in its place. -/
def execStationOutputWrite (s : State) : Out :=
  let s := s.unsched .stationOutputWrite
  if !s.sc.send || !s.scSends then .next s
  else
    .next (s.stations.foldl (fun s (k : Station) =>
      let x := s.sc.st[k]
      s.scSend 3 k.val ((if x.stale then 1 else 0) + (if x.stale && s.flag F.SC_STs_CFG_SUBST k 0 then 2 else 0)) x.out) s)

end Sys2Proof.Machine
end

