-- ==== Sys2Proof/Machine/Background.lean ====
section
/-! DEFINITION. Background services and the interconnect's windows: scrubs, comparator trim, telemetry, life, reservation
windows, starvation (R303, R304, R307, R438 to R441). -/

namespace Sys2Proof.Machine

/-- Background services run from Blank onward, but in Retention (R438). -/
def State.bgRuns (s : State) : Bool := decide (s.mode ≠ .reset ∧ s.mode ≠ .retention)

/-- Beats of a bank, words of a pair's TCM. -/
def scrubLen : Nat := 262144

/-- SRAM_SCRUB_BEAT (R303): one beat of bank b, with the ECC outcome of a read. -/
def execSramScrubBeat (b : Bank) (s : State) : Out :=
  if !s.bgRuns then .next s
  else
    let k := s.ix.scrub[b]
    let s := (s.eccRead (0x20000000 + b.val * 0x400000 + k * 16) 16).2
    let last := decide (scrubLen ≤ k + 1)
    let s : State := { s with ix := { s.ix with scrub := vset s.ix.scrub b (if last then 0 else k + 1) } }
    .next (if last then s.count F.IX_ECC_CNTb_PASSES b 0 else s)

/-- TCM_SCRUB_WORD (R438): one word of pair p; TCMPASS counts passes of the last pair. -/
def execTcmScrubWord (p : Pair) (s : State) : Out :=
  if !s.bgRuns then .next s
  else
    let k := s.ix.tcm[p]
    let s := (s.eccRead (aliasBase p + k * 4) 4).2
    let last := decide (scrubLen ≤ k + 1)
    let s : State := { s with ix := { s.ix with tcm := vset s.ix.tcm p (if last then 0 else k + 1) } }
    .next (if last && decide (p = 3) then s.count F.BG_STAT_TCMPASS 0 0 else s)

/-- A trim check (R108, R438): the turn of comparator n; it is checked if it can be, no check runs and no request waits. Every
48 turns are a pass. The spec gives a trim check no KIND; here it is a swap check (DESIGN CHOICE, log entry 118). -/
def State.trimCheck (s : State) (n : CmpId) (drift : Int) : State :=
  if !s.mode.live || decide (getBits (s.sys.bg.getD 2 0) 31 16 = 0) then s
  else
    let k := s.sys.trimmed + 1
    let s : State := { s with sys := { s.sys with trimmed := if 48 ≤ k then 0 else k } }
    let s := if 48 ≤ k then s.count F.BG_STAT_TRIMPASS 0 0 else s
    let can := !s.flag F.CMPn_CFG_TRIP n 0 || decide (s.fld F.CMPn_CFG_PARTNER n 0 < 48)
    if can && decide (s.cmpMode n ≠ 0) && s.cmps.chk.isNone && s.cmps.wait.isNone then
      s.checkStart n 0 0 (some drift) else s

/-- DAC_TRIM_CHECK (R438). -/
def execDacTrimCheck (n : CmpId) (drift : Int) (s : State) : Out := .next (s.trimCheck n drift)

/-- The registers of error counters, with how many of each there are. -/
def errCounters : List (RegName × Nat) :=
  [(.ADCx_ERR_CNT, 8), (.CMP_ERR_CNT, 1), (.PWM_ERR_CNT, 1), (.PWMn_ERR_CNT, 16), (.TMn_ERR_CNT, 24), (.POSn_ERR_CNT, 8),
   (.SM_ERR_CNT, 1), (.TW_ERR_CNT, 1), (.LEn_ERR_CNT, 8), (.EVC_ERR_CNT, 1), (.DMA_ERR_CNT, 1), (.Q_ERR_CNT, 1), (.HP_ERR_CNT, 1),
   (.ETHn_ERR_CNT, 2)]

/-- The error counters that are not zero, as a mask (R439), each family at a free bit (DESIGN CHOICE, log entry 17). -/
def State.errMask (s : State) : Word :=
  (errCounters.zipIdx.filter fun e => (List.range e.1.2).any fun n => decide (s.reg e.1.1 n 0 ≠ 0)).foldl
    (fun w e => w ||| BitVec.ofNat 32 (2 ^ (Config.errBit e.2).val)) 0

/-- A temperature is held to its limits, where a settings record is in force (R439). -/
def State.tempLimits (s : State) (x : Word) : State :=
  if s.sys.bg.isEmpty then s
  else
    let lim := s.sys.bg.getD 3 0
    let s := if (lim.setWidth 16).toInt < x.toInt then s.evcRaise 0x1E2 else s
    if ((lim >>> 16).setWidth 16).toInt < x.toInt then s.evcRaise 0x1E3 else s

/-- A record is pushed to TELQ, where the settings record asks for telemetry (R439). -/
def State.telPush (s : State) (ty idx : BitVec 8) (v : Word) : State :=
  let w := s.sys.bg.getD 1 0
  if !w.getLsbD 8 then s
  else
    let s := s.count F.BG_TEL_SEQ_SEQ 0 0
    let head := BitVec.ofNat 32 (ty.toNat * 2 ^ 24 + idx.toNat * 2 ^ 16 + s.fld F.BG_TEL_SEQ_SEQ 0 0)
    (s.qPushAll (Fin.ofNat 256 (getBits w 7 0)) [head, v, BitVec.ofNat 32 s.todNs, s.todSecLo]).2

/-- A telemetry record falls due (R439): a life record carries BG_LIFE, one of type 4 the mask of the error counters, the others the value measured;
a temperature is held to its limits whether or not telemetry is on. No other type exists. -/
def State.telRecord (s : State) (ty idx : BitVec 8) (value : Word) : State :=
  if !s.mode.cores || decide (ty = 0 ∨ 4 < ty) then s
  else
    let v := if ty = 3 then s.reg .BG_LIFE 0 0 else if ty = 4 then s.errMask else value
    let s := s.telPush ty idx v
    if ty = 1 then s.tempLimits value else s

/-- TELEMETRY_RECORD (R439). -/
def execTelemetryRecord (ty : BitVec 8) (idx : BitVec 8) (value : Word) (s : State) : Out := .next (s.telRecord ty idx value)

/-- Consumed life in ppm of one oscillator: d / 4.0 % · 10^6, d = (f0 − f) / f0; none below 0 (R440). -/
def lifePpm (f0 f : Nat) : Nat := (f0 - f) * 25000000 / f0

/-- A gate ends, with the eight oscillators' counts over it (R440). -/
def State.gateEnd (s : State) (f : List Nat) : State :=
  if !s.bgRuns then s
  else
    let n := (s.sys.f0.toList.zip f).foldl (fun m x => max m (lifePpm x.1 x.2)) 0
    let s : State := { s with sys := { s.sys with gates := s.sys.gates + 1 } }
    let s := s.setReg .BG_LIFE 0 0 (BitVec.ofNat 32 (min n 0xFFFFFFFF))
    if !s.sys.bg.isEmpty && decide ((s.sys.bg.getD 4 0).toNat ≤ n) then s.evcRaise 0x1E4 else s

/-- LIFE_GATE (R440): what the eight oscillators' counters stand at as a gate begins and as it ends. -/
def execLifeGate (since : List Nat) (now : List Nat) (s : State) : Out :=
  .next (s.gateEnd ((now.zip since).map fun x => x.1 - x.2))

/-! ## Intervals (R320, R438 to R440) -/

/-- The margin scrub reads a line of each bank every 1,000 BUSCLK cycles (R320; the lc is a DESIGN CHOICE, log entry 16). -/
def State.marginTick (s : State) : State :=
  if s.now % 2000 = 0 then (List.finRange 4).foldl (fun s b => s.draw.marginLine b (Config.marginDiffers s.fresh)) s else s

/-- A trim check falls every TRIMINT × 100 µs, none with TRIMINT = 0; the comparators take turns (R438, Table 16.10). -/
def State.trimTick (s : State) : State :=
  let d := getBits (s.sys.bg.getD 2 0) 31 16 * 40000
  if 0 < d ∧ s.now % d = 0 then s.draw.trimCheck (Fin.ofNat 48 s.sys.trimmed) (Config.dacDrift s.fresh) else s

/-- The records that fall every TELINT (R439, R440): four temperatures, seven supplies, consumed life, the error counters. -/
def telRecords : List (BitVec 8 × BitVec 8) :=
  [(1, 0), (1, 1), (1, 2), (1, 3), (2, 0), (2, 1), (2, 2), (2, 3), (2, 4), (2, 5), (2, 6), (3, 0), (4, 0)]

/-- Telemetry falls every TELINT ms. -/
def State.telTick (s : State) : State :=
  let d := getBits (s.sys.bg.getD 2 0) 15 0 * 400000
  if 0 < d ∧ s.now % d = 0 then telRecords.foldl (fun s r => s.draw.telRecord r.1 r.2 (Config.sensor s.fresh)) s else s

/-- A gate of the ring oscillators ends every second (R440). -/
def State.gateTick (s : State) : State :=
  if s.now % 400000000 = 0 then s.draw.gateEnd ((List.range 8).map fun i => Config.ringCount (8 * s.fresh + i)) else s

/-- What the background services bring about in this lc. -/
def State.bgTick (s : State) : State := s.marginTick.trimTick.telTick.gateTick

/-! ## SRAM banks (R300, R305 to R307) -/

/-- Class of a master's unreserved beats (Table 12.1); the scrub's are in none. -/
def beatClass (m : Fin 13) : Option (Fin 4) :=
  match m.val with
  | 6 => some 0
  | 10 => some 0
  | 4 => some 2
  | 8 => some 2
  | 9 => some 2
  | 7 => some 2
  | 12 => some 3
  | 11 => none
  | _ => some 1

/-- The master that a bank serves among those with a waiting beat (R305): of those with credit the lowest; else by class, and within a
class by its pointer. Whether it draws on credit. -/
def State.bankChoice (s : State) (b : Bank) : Option (Fin 13 × Option (Fin 4)) :=
  let asks (m : Fin 13) : Bool := s.ix.wait[b].any fun x => decide (x.master = m)
  match (List.finRange 13).find? fun m => asks m && decide (0 < s.ix.credit[b][m]) with
  | some m => some (m, none)
  | none => (List.finRange 4).findSome? fun (c : Fin 4) =>
      (List.range 13).findSome? fun k =>
        let m : Fin 13 := Fin.ofNat 13 (s.ix.rr[b][c] + k)
        if asks m && decide (beatClass m = some c) then some (m, some c) else none

/-- A bank serves the oldest beat of the master chosen: its credit, or the pointer of its class moves (R305); a read-modify-write takes
the next cycle too (R300). -/
def State.bankServe (s : State) (b : Bank) : State :=
  match s.bankChoice b with
  | none => s
  | some (m, c) =>
    let x := s.ix.wait[b].find? fun x => decide (x.master = m)
    { s with ix := { s.ix with
        wait := vmod s.ix.wait b fun l => l.eraseP fun x => decide (x.master = m)
        second := vset s.ix.second b (x.any (·.part))
        credit := match c with
          | none => vmod s.ix.credit b fun v => vmod v m fun k => k - 1
          | some _ => s.ix.credit
        rr := match c with
          | none => s.ix.rr
          | some c => vmod s.ix.rr b fun v => vset v c ((m.val + 1) % 13) } }

/-- A pair that waits for a load or a refill waits a cycle longer. -/
def State.bankStall (s : State) (p : Pair) : State :=
  if (s.pair p).stall.isSome then
    { s with cal := s.cal.map fun e => if e.2 = .loadDataReturn p then (e.1 + 2, e.2) else e }
  else if s.now < (s.pair p).fetchTo then s.modPair p fun x => { x with fetchTo := x.fetchTo + 2 }
  else s

/-- A beat of a master has waited more than IX_STARVE_LIM cycles (R307). -/
def State.starved (s : State) (m : Fin 13) : State := (s.bump F.IX_STARVEm_COUNT m 0).evcRaise 0x190

/-- STARVE_LIMIT (R307). -/
def execStarveLimit (m : Fin 13) (s : State) : Out := .next (if s.bgRuns then s.starved m else s)

/-- The beats that go on waiting at a bank: one that has waited more than IX_STARVE_LIM cycles is counted once (R307); loads wait on. -/
def State.bankWaits (s : State) (b : Bank) : State :=
  let late (x : Beat) : Bool := decide (s.fld F.IX_STARVE_LIM_LIM 0 0 < s.now / 2 - x.since / 2)
  let s := s.ix.wait[b].foldl (fun s x => if late x && !x.told then s.starved x.master else s) s
  let s := (List.finRange 4).foldl (fun s (p : Pair) =>
    if s.ix.wait[b].any fun x => x.load && decide (x.master.val = p.val) && decide (x.since / 2 < s.now / 2) then s.bankStall p else s) s
  { s with ix := { s.ix with wait := vmod s.ix.wait b fun l => l.map fun x => if late x then { x with told := true } else x } }

/-- The BUSCLK cycle that ends at a bank (R300, R305): the second of a read-modify-write, the scrub's beat, or a beat that is chosen. -/
def State.bankCycle (s : State) (b : Bank) : State :=
  let s := if s.ix.second[b] then { s with ix := { s.ix with second := vset s.ix.second b false } }
    else if s.now % 200 = 2 then s
    else s.bankServe b
  s.bankWaits b

/-- RESERVATION_WINDOW (R304): each master's credits are its shares; the next window follows 1,000 BUSCLK cycles later. -/
def execReservationWindow (s : State) : Out :=
  if !s.mode.cores then .next s
  else
    let s : State := { s with ix := { s.ix with
      credit := Vector.ofFn fun b => Vector.ofFn fun m => s.fld F.IX_RSVb_m_SHARE b.val m.val } }
    let s := (List.finRange 6).foldl (fun s (b : Bank) =>
      s.setReg .IX_BANKb_STAT b 0 (BitVec.ofNat 32 (((List.range 13).map fun m => s.fld F.IX_RSVb_m_SHARE b m).sum))) s
    .next (s.sched 2000 .reservationWindow)

end Sys2Proof.Machine
end

