-- ==== Sys2Proof/Machine/Branch.lean ====
section
/-! DEFINITION. NC32 branches, jumps, calls, returns and system instructions (R244, R263 to R265, R268, R272 to R274, R287,
R296). -/

namespace Sys2Proof.Machine

/-- The branch history table index: PC[12:2] XOR history (R264). -/
def Pred.index (b : Pred) (pc : Word) : Nat := (getBits pc 12 2) ^^^ b.hist.toNat

/-- A two-bit counter moves toward taken or not taken. -/
def counterMove (c : BitVec 2) (taken : Bool) : BitVec 2 :=
  if taken then (if c = 3 then 3 else c + 1) else (if c = 0 then 0 else c - 1)

/-- The direction that the predictor gives a branch: not taken under the bar (R264). -/
def Pred.taken (b : Pred) (pc : Word) : Bool := b.bar.isNone && decide (2 ≤ (b.bht.get (b.index pc) 1).toNat)

/-- The target that the predictor gives a return: none under the bar or with an empty stack (R264). -/
def Pred.top (b : Pred) : Option Word := if b.bar.isSome then none else b.ras.head?

/-- A resolved Bcc trains its counter and shifts its outcome into the history (R264). -/
def Pred.train (b : Pred) (pc : Word) (taken : Bool) : Pred :=
  { b with
    bht := b.bht.put (b.index pc) (counterMove (b.bht.get (b.index pc) 1) taken) 1
    hist := (b.hist <<< 1) ||| BitVec.ofNat 11 taken.toNat }

/-- A call pushes its return address; the 16-entry return stack loses its oldest entry when full (R264). -/
def Pred.push (b : Pred) (a : Word) : Pred := { b with ras := (a :: b.ras).take 16 }

/-- A return takes the top of the return stack, unless prediction is barred (R264). -/
def Pred.pop (b : Pred) : Pred := if b.bar.isSome then b else { b with ras := b.ras.drop 1 }

/-- A control transfer in a delay slot is illegal (R263); else `body`. -/
def State.noSlot (s : State) (p : Pair) (i : Instr) (body : State → State) : State :=
  if (s.pair p).slot.isSome then s.illegal p ((nc32Encode i).getD 0) else body s

/-- A jump target taken from a register: bits [1:0] are ignored (DEDUCED, log entry 22). -/
def jumpTarget (w : Word) : Word := w &&& 0xFFFFFFFC

/-- Conditional branch (R255, R263): taken, to pc + 4 · DISP21 after the slot; not taken, past the slot, which executes when
AN = 0. The copies' predictions direct their fetches, which are compared (G0, R249). -/
def execBcc (p : Pair) (an : Bool) (cond : Fin 16) (disp : BitVec 21) (s : State) : Out :=
  issue p (fun s =>
    if cond.val = 15 then s.illegal p ((nc32Encode (.bcc p an cond disp)).getD 0)
    else s.noSlot p (.bcc p an cond disp) fun s =>
      let x := s.pair p
      let taken := condHolds cond x.main.flags
      s.compared p 0 (taken == condHolds cond x.chk.flags && x.main.pred.taken x.pc == x.chk.pred.taken x.pc) fun s =>
        s.modPair p fun x =>
          let y := x.predict fun b => b.train x.pc taken
          if taken then y.branchTo (x.pc + (disp.signExtend 32 <<< 2))
          else if an then y.annul
          else y.branchTo (x.pc + 8)) s

/-- Relative jump (R263). -/
def execJmp (p : Pair) (disp : BitVec 26) (s : State) : Out :=
  issue p (fun s => s.noSlot p (.jmp p disp) fun s =>
    s.modPair p fun x => x.branchTo (x.pc + (disp.signExtend 32 <<< 2))) s

/-- Relative call: g31 = address + 8 (R263). -/
def execCall (p : Pair) (disp : BitVec 26) (s : State) : Out :=
  issue p (fun s => s.noSlot p (.call p disp) fun s =>
    let ra := (s.pair p).pc + 8
    (s.both p fun c => c.setG 31 ra).modPair p fun x =>
      (x.predict fun b => b.push ra).branchTo (x.pc + (disp.signExtend 32 <<< 2))) s

/-- Jump to gA (R263). -/
def execJr (p : Pair) (a : Greg) (s : State) : Out :=
  issue p (fun s => s.noSlot p (.jr p a) fun s =>
    let x := s.pair p
    s.compared p 0 (x.main.gr a == x.chk.gr a) fun s =>
      s.modPair p fun y => y.branchTo (jumpTarget (x.main.gr a))) s

/-- Call to gA: g31 = address + 8 (R263). -/
def execCallr (p : Pair) (a : Greg) (s : State) : Out :=
  issue p (fun s => s.noSlot p (.callr p a) fun s =>
    let x := s.pair p
    s.compared p 0 (x.main.gr a == x.chk.gr a) fun s =>
      (s.both p fun c => c.setG 31 (x.pc + 8)).modPair p fun y =>
        (y.predict fun b => b.push (x.pc + 8)).branchTo (jumpTarget (x.main.gr a))) s

/-- Return to g31 (R263, R264); the copies' predicted targets direct their fetches, which are compared (G0, R249). -/
def execRet (p : Pair) (s : State) : Out :=
  issue p (fun s => s.noSlot p (.ret p) fun s =>
    let x := s.pair p
    s.compared p 0 (x.main.gr 31 == x.chk.gr 31 && x.main.pred.top == x.chk.pred.top) fun s =>
      s.modPair p fun y => (y.predict Pred.pop).branchTo (jumpTarget (x.main.gr 31))) s

/-- Exception entry with code IMM16 (R274, Table 11.4): EPC the address after the TRAP. -/
def execTrap (p : Pair) (imm : BitVec 16) (s : State) : Out :=
  issue p (fun s => s.noSlot p (.trap p imm) fun s =>
    let x := s.pair p
    if decide (0xFF00 ≤ imm.toNat) && decide (x.tid ≠ 0) then s.privileged p
    else s.enter p ⟨0x02, imm.toNat, x.pc + 4, 0⟩) s

/-- A PSW and TID that ERET may not restore (R273, R287). -/
def eretForbidden (priv : Priv) (tid newTid : Tenant) (psw : Word) : Bool :=
  match priv with
  | .user => true
  | .supervisor =>
    decide (newTid ≠ tid) || decide (pswPriv psw = 2) || (decide (pswPriv psw = 3) && decide (newTid ≠ 0))
  | .monitor => decide (pswPriv psw = 2) || (decide (pswPriv psw = 3) && decide (newTid ≠ 0))

/-- Return from exception (R287): PSW and TID from the TSB, read under its ECC (R245), ARMED and the reservation cleared, on at the
TSB's EPC. At User it is PRIVILEGED before any read (R286). -/
def execEret (p : Pair) (s : State) : Out :=
  issue p (fun s => s.noSlot p (.eret p) fun s => s.privAs p (fun c => decide (c.priv = .user)) fun user s =>
    if user then s.privileged p
    else
      let x := s.pair p
      let t := aliasBase p + x.main.tsbr.toNat
      let psw := s.word (t + 0x80)
      let epc := s.word (t + 0x84)
      let tid : Tenant := Fin.ofNat 8 (getBits (s.word (t + 0x94)) 2 0)
      s.compared p 1 (x.main.tsbr == x.chk.tsbr) fun s =>
        let r := s.eccRead (t + 0x80) 8
        let q := r.2.eccRead (t + 0x94) 4
        if r.1 || q.1 then q.2.preciseFault p 0x09 2 (BitVec.ofNat 32 (x.main.tsbr.toNat + (if r.1 then 0x80 else 0x94)))
        else q.2.privAs p (fun c => eretForbidden c.priv x.tid tid psw) fun bad s =>
          if bad then s.privileged p
          else
            let s := s.setFld F.LP_EXC_STAT_ARMED p 0 0
            let s := (s.both p fun c => { c with psw := psw &&& pswMask }).switchTid p tid
            s.modPair p fun y => { y.fetchAt (jumpTarget epc) with resv := none }.endStep) s

/-- Predictor and return stack cleared (R264). -/
def execPflush (p : Pair) (s : State) : Out :=
  issue p (fun s => (s.modPair p PairSt.flush).retire p) s

/-- Every instruction-cache line invalidated (R244), a compared output (G0); privileged at User (R272). -/
def execIcinv (p : Pair) (s : State) : Out :=
  issue p (fun s =>
    s.compared p 0 (decide ((s.pair p).main.priv = .user) == decide ((s.pair p).chk.priv = .user)) fun s =>
      if (s.pair p).main.priv = .user then s.privileged p
      else (s.modPair p fun x => { x with icache := [] }).retire p) s

/-- Waits for outstanding FP operations; a pending exception is taken with EPC equal to FSYNC's address (R268). -/
def execFsync (p : Pair) (s : State) : Out :=
  issue p (fun s =>
    match (s.pair p).fpDue with
    | some e => s.takeFp p e
    | none => s.retire p) s

/-- Stops issue until an eligible source or a STORE_LATE waits (R296); privileged at User (R272). -/
def execWait (p : Pair) (s : State) : Out :=
  issue p (fun s =>
    s.privAs p (fun c => decide (c.priv = .user)) fun bad s =>
      if bad then s.privileged p else (s.retire p).modPair p fun x => { x with waiting := true }) s

/-- Bars prediction from its own address up to address + 4 · IMM16 (R264). -/
def execPbar (p : Pair) (imm : BitVec 16) (s : State) : Out :=
  issue p (fun s =>
    (s.modPair p fun x => x.predict fun b => { b with bar := some (x.pc.toNat, x.pc.toNat + 4 * imm.toNat) }).retire p) s

/-- An instruction word that R255 makes illegal, executed by pair `p`: the ILLEGAL exception. A word that decodes is not
illegal, and has no effect here. -/
def execIllegalInstruction (p : Pair) (w : Word) (s : State) : Out :=
  issue p (fun s => if (nc32Decode p w).isNone then s.illegal p w else s) s

end Sys2Proof.Machine
end

