-- ==== Sys2Proof/Machine/Fpu.lean ====
section
/-! DEFINITION. NC32 floating point (R261, R267 to R269). -/

namespace Sys2Proof.Machine

/-- The format FN[10] names (Table 10.5). -/
def fmtOf (dbl : Bool) : Fmt := if dbl then b64 else b32

/-- An f register as an operand of the format. -/
def Copy.fop (c : Copy) (dbl : Bool) (r : Freg) : Nat := if dbl then (c.fr r).toNat else (c.fr r).toNat % 2 ^ 32

/-- FPSR.RM. -/
def Copy.rm (c : Copy) : Nat := getBits c.fpsr 1 0

/-- FPSR with exceptions added to FLAGS (sticky, R254). -/
def addFflags (fpsr : Word) (fl : FFlags) : Word := fpsr ||| (fl.setWidth 32 <<< 16)

/-- Writes an FP result: binary32 operations write f[63:32] with 0 (R267); its exceptions join FLAGS. -/
def Copy.putF (c : Copy) (d : Freg) (r : FRes) : Copy :=
  { c.setF d (BitVec.ofNat 64 r.bits) with fpsr := addFflags c.fpsr r.flags }

/-- Exceptions among `fl` whose ENABLE bit is 1. -/
def enabledOf (fpsr : Word) (fl : FFlags) : FFlags := fl &&& (fpsr >>> 8).setWidth 5

/-- Exceptions of an operation of a copy that has a trap enabled; 0 where it has none. -/
def Copy.trapped (c : Copy) (fl : FFlags) : FFlags := if enabledOf c.fpsr fl = 0 then 0 else fl

/-- An operation raised exceptions, `fl` in each copy: if one is enabled and no older one waits, its trap is due when the operation
completes, `lat` lc later; a later one only sets FLAGS (R268). -/
def State.fpRaise (s : State) (p : Pair) (fl : Copy → FFlags) (lat : Nat) : State :=
  let x := s.pair p
  let a := x.main.trapped (fl x.main)
  let b := x.chk.trapped (fl x.chk)
  if (a = 0 ∧ b = 0) ∨ x.fpDue.isSome then s
  else (s.modPair p fun x => { x with fpOut := some ⟨x.pc, a, b⟩ }).sched lat (.fpExceptionPend p)

/-- An FP operation with result `f` in register `d`, computed by both copies. -/
def fpOp (p : Pair) (d : Freg) (lat : Nat) (f : Copy → FRes) (s : State) : Out :=
  issue p (fun s => (s.fpRaise p (fun c => (f c).flags) lat).compute p fun c => c.putF d (f c)) s

/-- Addition. -/
def execFadd (p : Pair) (dbl : Bool) (d a b : Freg) (s : State) : Out :=
  fpOp p d 2 (fun c => (fmtOf dbl).add c.rm (c.fop dbl a) (c.fop dbl b)) s

/-- Subtraction. -/
def execFsub (p : Pair) (dbl : Bool) (d a b : Freg) (s : State) : Out :=
  fpOp p d 2 (fun c => (fmtOf dbl).sub c.rm (c.fop dbl a) (c.fop dbl b)) s

/-- Multiplication. -/
def execFmul (p : Pair) (dbl : Bool) (d a b : Freg) (s : State) : Out :=
  fpOp p d (if dbl then 3 else 2) (fun c => (fmtOf dbl).mul c.rm (c.fop dbl a) (c.fop dbl b)) s

/-- Division. -/
def execFdiv (p : Pair) (dbl : Bool) (d a b : Freg) (s : State) : Out :=
  fpOp p d (if dbl then 12 else 7) (fun c => (fmtOf dbl).div c.rm (c.fop dbl a) (c.fop dbl b)) s

/-- Square root. -/
def execFsqrt (p : Pair) (dbl : Bool) (d a : Freg) (s : State) : Out :=
  fpOp p d (if dbl then 12 else 7) (fun c => (fmtOf dbl).sqrt c.rm (c.fop dbl a)) s

/-- Minimum, −0 below +0. -/
def execFmin (p : Pair) (dbl : Bool) (d a b : Freg) (s : State) : Out :=
  fpOp p d 1 (fun c => (fmtOf dbl).minmax false (c.fop dbl a) (c.fop dbl b)) s

/-- Maximum, −0 below +0. -/
def execFmax (p : Pair) (dbl : Bool) (d a b : Freg) (s : State) : Out :=
  fpOp p d 1 (fun c => (fmtOf dbl).minmax true (c.fop dbl a) (c.fop dbl b)) s

/-- Absolute value. -/
def execFabs (p : Pair) (dbl : Bool) (d a : Freg) (s : State) : Out :=
  fpOp p d 1 (fun c => (fmtOf dbl).signOp (fun _ => false) (c.fop dbl a)) s

/-- Negation. -/
def execFneg (p : Pair) (dbl : Bool) (d a : Freg) (s : State) : Out :=
  fpOp p d 1 (fun c => (fmtOf dbl).signOp (fun s => !s) (c.fop dbl a)) s

/-- Register move. -/
def execFmov (p : Pair) (dbl : Bool) (d a : Freg) (s : State) : Out :=
  fpOp p d 1 (fun c => (fmtOf dbl).signOp (fun s => s) (c.fop dbl a)) s

/-- The flags of FCMP (R269). -/
def fcmpFlags (r : Option Ordering) : Nzcv :=
  match r with
  | some .lt => ⟨true, false, false, false⟩
  | some .eq => ⟨false, true, true, false⟩
  | some .gt => ⟨false, false, true, false⟩
  | none => ⟨false, false, false, true⟩

/-- Comparison: NZCV by R269; a NaN operand raises NV. -/
def execFcmp (p : Pair) (dbl : Bool) (a b : Freg) (s : State) : Out :=
  issue p (fun s =>
    let rel (c : Copy) := (fmtOf dbl).relation (c.fop dbl a) (c.fop dbl b)
    let fl (c : Copy) : FFlags := if (rel c).isNone then flNV else 0
    (s.fpRaise p fl 1).compute p fun c =>
      { c.setFlags (fcmpFlags (rel c)) with fpsr := addFflags c.fpsr (fl c) }) s

/-- Conversions (R267): to the other precision and to int32 from the precision FN[10] names, from int32 to it. -/
def Copy.fcvt (c : Copy) (dbl : Bool) (kind : FcvtKind) (a : Freg) : FRes :=
  match kind with
  | .precision => (fmtOf dbl).convert (fmtOf (!dbl)) c.rm (c.fop dbl a)
  | .toInt =>
    let r := (fmtOf dbl).toInt32 c.rm (c.fop dbl a)
    ⟨r.1.toNat, r.2⟩
  | .fromInt => (fmtOf dbl).ofInt32 c.rm (BitVec.ofNat 32 (c.fr a).toNat)

/-- Conversion between precisions or to and from int32. -/
def execFcvt (p : Pair) (dbl : Bool) (kind : FcvtKind) (d a : Freg) (s : State) : Out :=
  fpOp p d 2 (fun c => c.fcvt dbl kind a) s

/-- f[31:0] = gA, f[63:32] = 0. -/
def execFmvgf (p : Pair) (d : Freg) (a : Greg) (s : State) : Out :=
  issue p (fun s => s.compute p fun c => c.setF d ((c.gr a).setWidth 64)) s

/-- gD = f[31:0]. -/
def execFmvfg (p : Pair) (d : Greg) (a : Freg) (s : State) : Out :=
  issue p (fun s => s.compute p fun c => c.setG d ((c.fr a).setWidth 32)) s

/-- An FP operation with an enabled exception completes: PEND is set, and the trap is due at the next boundary (R268). -/
def execFpExceptionPend (p : Pair) (s : State) : Out :=
  match (s.pair p).fpOut with
  | some e =>
    .next ((s.modPair p fun x => x.pend e).unsched (.fpExceptionPend p))
  | none => .next s

end Sys2Proof.Machine
end

