-- ==== Sys2Proof/Machine/LoadStore.lean ====
section
/-! DEFINITION. NC32 loads and stores, load-linked and store-conditional, instruction fetch (R244, R256, R257, R262, R266,
R280 to R282). -/

namespace Sys2Proof.Machine

/-! ## Accesses of a pair -/

/-- Identity of a pair's transactions (R356). -/
def State.pairReq (s : State) (p : Pair) : Req :=
  ⟨⟨p.val, by omega⟩, (s.pair p).tid, (s.pair p).main.priv⟩

/-- An access as one copy makes it: effective address, bytes, SZ as INFO shows it, whether it stores, privilege. -/
structure Acs where
  ea    : Word
  n     : Nat
  sz    : Nat
  store : Bool
  priv  : Priv
  deriving DecidableEq, Repr

/-- INFO of a data fault (Table 11.4). -/
def Acs.info (a : Acs) : Nat := (if a.store then 8 else 0) + a.sz

/-- Judges an access (R257, R286): MISALIGN, which makes no access but writes FADDR to the TSB, then the compared data port (R247),
then WINDOW; else `body`. -/
def State.judged (s : State) (p : Pair) (a c : Acs) (body : State → State) : State :=
  if a.ea.toNat % a.n ≠ 0 then s.compared p 3 (a == c) fun s => s.preciseFault p 0x05 a.info a.ea
  else s.compared p 1 (a == c) fun s =>
    let k : Kind := if a.store then .write else .read
    if s.permitted (s.pairReq p) k a.ea.toNat a.n then
      body (if a.ea.toNat < 0x100000 then s else s.access (s.pairReq p).master)
    else (s.violation (s.pairReq p) k a.ea.toNat).preciseFault p 0x06 a.info a.ea

/-- Uncontended lc of a load outside the TCMs (R262, R313). -/
def State.loadTime (s : State) (a : Nat) : Nat :=
  if inFlash a then 8 + 2 * (s.fld F.FL_WS_WS 0 0 + 1)
  else if 0x40000000 ≤ a ∧ a < 0x41000000 then 14
  else 10

/-- Writes a loaded value. -/
def Copy.load (c : Copy) (d : LoadDest) (v : BitVec 64) : Copy :=
  match d with
  | .greg g => c.setG g (v.setWidth 32)
  | .freg f => c.setF f v

/-- The pointer update of one copy, then the loaded value (R257). -/
def PairSt.landed (x : PairSt) (l : Stall) : PairSt :=
  let y := match l.post with
    | some (g, a, b) => { x with main := x.main.setG g a, chk := x.chk.setG g b }
    | none => x
  { y with main := y.main.load l.dest l.val, chk := y.chk.load l.dest l.val, stall := none }

/-- LC until the stores to the bytes of an access have left the store buffer, which one store leaves in each lc (R262; DESIGN CHOICE,
log entry 124). -/
def PairSt.sbufWait (x : PairSt) (a n : Nat) : Nat :=
  x.sbuf.zipIdx.foldl (fun w e => if e.1.1 < a + n ∧ a < e.1.1 + e.1.2 then e.2 + 1 else w) 0

/-- A store enters the buffer of four; where that is full, the pair stalls until the oldest has left (R262, `State.coreUp`). -/
def PairSt.sbufPut (x : PairSt) (a n : Nat) : PairSt := { x with sbuf := x.sbuf ++ [(a, n)] }

/-- lc that a load waits beyond its uncontended time: at an SRAM bank none but what its beats wait there (R305, `State.bankServe`);
elsewhere free (DESIGN CHOICE, log entry 48). -/
def State.loadWait (s : State) (a : Nat) : Nat := if (sramBank a).isSome then 0 else Config.busWait s.fresh

/-- A result lands at once from a TCM; else the pair stalls until LOAD_DATA_RETURN, and for the stores to its address in the buffer
(R262). -/
def State.land (s : State) (p : Pair) (a : Acs) (l : Stall) : State :=
  if a.ea.toNat < 0x100000 then (s.modPair p fun x => x.landed l).retire p
  else
    let s := s.modPair p fun x => { x with stall := some l }
    (s.sched ((s.pair p).sbufWait a.ea.toNat a.n + s.loadTime a.ea.toNat + s.loadWait a.ea.toNat) (.loadDataReturn p)).draw

/-- Physical address of an address of a pair: its TCMs lie at their alias (R20). -/
def physOf (p : Pair) (a : Nat) : Nat := if a < 0x100000 then aliasBase p + a else a

/-- Physical 32-byte granule of an address where reservations are supported (R266): SRAM, the local D-TCM, the global D-TCM
aliases. -/
def granule (p : Pair) (a : Nat) : Option Nat :=
  if 0x80000 ≤ a ∧ a < 0x100000 then some ((aliasBase p + a) / 32)
  else if 0x20000000 ≤ a ∧ a < 0x21800000 then some (a / 32)
  else if 0x38000000 ≤ a ∧ a < 0x38400000 ∧ 0x80000 ≤ a % 0x100000 then some (a / 32)
  else none

/-- A load: the access is judged, read, widened by `ext`, and lands with the pointer updates `post`; `link` sets the
reservation. -/
def State.loadAt (s : State) (p : Pair) (a c : Acs) (d : LoadDest) (ext : Nat → BitVec 64)
    (post : Option (Greg × Word × Word)) (link : Bool) : State :=
  s.judged p a c fun s =>
    let at_ := a.ea.toNat
    let give (s : State) (v : Nat) : State :=
      let s := if link then
          match granule p at_ with
          | some g => s.modPair p fun x => { x with resv := some g }
          | none => s
        else s
      s.land p a ⟨d, ext v, post⟩
    match s.busRead (s.pairReq p) false at_ a.n with
    | (.data v, s) =>
      let alt (w : Word) : BitVec 64 := ext (busyBytes w at_ a.n)
      give (if inFlash at_ then { s with cyc := .load p (flBank at_) (alt 0xDEAD0100) (alt 0xDEAD0200) :: s.cyc } else s) v
    | (.busy w, s) => give s (busyBytes w at_ a.n)
    | (.error, s) => s.preciseFault p 0x09 a.info a.ea

/-- The group that compares the data of a store (Table 10.1): pair-private registers, completions, other stores. -/
def storeGroup (a : Nat) : Nat :=
  if 0xE0000000 ≤ a ∧ a < 0xE0010000 then 5 else if a = RegName.EVC_CMPL.addr 0 0 then 4 else 2

/-- A store (R262, R282): into a TCM at once; else through the store buffer, whose bus error waits as a late error. Memory holds the
store from its issue on: the pair's own loads wait for it, and nothing says when others see it (DESIGN CHOICE, log entry 124). The
pair waits while four late errors wait. `after` is what the instruction does besides. -/
def State.storeAt (s : State) (p : Pair) (a c : Acs) (v w : Nat) (after : PairSt → PairSt) : State :=
  let at_ := a.ea.toNat
  let out := decide (0x100000 ≤ at_)
  if out && decide (4 ≤ (s.pair p).late.length) then s
  else s.judged p a c fun s =>
    s.compared p (storeGroup at_) (v == w) fun s =>
      let s := s.busWrite (s.pairReq p) at_ v a.n
      let err := s.ans.err && out
      let s := s.modPair p fun x =>
        let x := if err then { x with late := x.late ++ [⟨a.ea, x.tid, x.tag⟩] } else x
        after (if out then { x.sbufPut at_ a.n with tag := x.tag + 1 } else x)
      s.retire p

/-! ## Displacement loads and stores -/

/-- The access of a copy at its displacement address. -/
def Copy.acsDisp (c : Copy) (g : Greg) (imm : BitVec 16) (n sz : Nat) (store : Bool) : Acs := ⟨c.eaDisp g imm, n, sz, store, c.priv⟩

/-- A load of SZ `sz` at a displacement address. -/
def loadDisp (p : Pair) (d a : Greg) (imm : BitVec 16) (sz : Fin 8) (s : State) : Out :=
  issue p (fun s =>
    let x := s.pair p
    s.loadAt p (x.main.acsDisp a imm (szBytes sz) sz.val false) (x.chk.acsDisp a imm (szBytes sz) sz.val false) (.greg d)
      (fun v => (szExtend sz v).setWidth 64) none false) s

/-- The low `n` bytes of a register. -/
def lowBytes (w : Word) (n : Nat) : Nat := w.toNat % 256 ^ n

/-- A store of SZ `sz` at a displacement address. -/
def storeDisp (p : Pair) (d a : Greg) (imm : BitVec 16) (sz : Fin 8) (s : State) : Out :=
  issue p (fun s =>
    let x := s.pair p
    s.storeAt p (x.main.acsDisp a imm (szBytes sz) sz.val true) (x.chk.acsDisp a imm (szBytes sz) sz.val true)
      (lowBytes (x.main.gr d) (szBytes sz)) (lowBytes (x.chk.gr d) (szBytes sz)) id) s

/-- LDB (R261). -/
def execLdb (p : Pair) (d a : Greg) (imm : BitVec 16) (s : State) : Out := loadDisp p d a imm 4 s
/-- LDBU (R261). -/
def execLdbu (p : Pair) (d a : Greg) (imm : BitVec 16) (s : State) : Out := loadDisp p d a imm 0 s
/-- LDH (R261). -/
def execLdh (p : Pair) (d a : Greg) (imm : BitVec 16) (s : State) : Out := loadDisp p d a imm 5 s
/-- LDHU (R261). -/
def execLdhu (p : Pair) (d a : Greg) (imm : BitVec 16) (s : State) : Out := loadDisp p d a imm 1 s
/-- LDW (R261). -/
def execLdw (p : Pair) (d a : Greg) (imm : BitVec 16) (s : State) : Out := loadDisp p d a imm 2 s
/-- STB (R261). -/
def execStb (p : Pair) (d a : Greg) (imm : BitVec 16) (s : State) : Out := storeDisp p d a imm 0 s
/-- STH (R261). -/
def execSth (p : Pair) (d a : Greg) (imm : BitVec 16) (s : State) : Out := storeDisp p d a imm 1 s
/-- STW (R261). -/
def execStw (p : Pair) (d a : Greg) (imm : BitVec 16) (s : State) : Out := storeDisp p d a imm 2 s

/-! ## Short and post-increment addresses -/

/-- The access of a copy at its short address. -/
def Copy.acsShort (c : Copy) (bk : Fin 4) (off : BitVec 16) (sz : Fin 8) (store : Bool) : Acs :=
  ⟨c.eaShort bk off, szBytes sz, sz.val, store, c.priv⟩

/-- LDS (R256); an SZ code not listed is illegal (R255). -/
def execLds (p : Pair) (d : Greg) (bk : Fin 4) (sz : Fin 8) (off : BitVec 16) (s : State) : Out :=
  issue p (fun s =>
    if !szListed false sz then s.illegal p ((nc32Encode (.lds p d bk sz off)).getD 0)
    else
      let x := s.pair p
      s.loadAt p (x.main.acsShort bk off sz false) (x.chk.acsShort bk off sz false) (.greg d)
        (fun v => (szExtend sz v).setWidth 64) none false) s

/-- STS (R256). -/
def execSts (p : Pair) (d : Greg) (bk : Fin 4) (sz : Fin 8) (off : BitVec 16) (s : State) : Out :=
  issue p (fun s =>
    if !szListed true sz then s.illegal p ((nc32Encode (.sts p d bk sz off)).getD 0)
    else
      let x := s.pair p
      s.storeAt p (x.main.acsShort bk off sz true) (x.chk.acsShort bk off sz true)
        (lowBytes (x.main.gr d) (szBytes sz)) (lowBytes (x.chk.gr d) (szBytes sz)) id) s

/-- The access of a copy at its pointer. -/
def Copy.acsPtr (c : Copy) (a : Greg) (n sz : Nat) (store : Bool) : Acs := ⟨c.gr a, n, sz, store, c.priv⟩

/-- A form of LDP or STP that R255 and R256 make illegal. -/
def badPtr (store : Bool) (mode : Fin 4) (sz : Fin 8) : Bool := !szListed store sz || decide (mode.val = 0 ∨ mode.val = 3)

/-- LDP (R256, R257): with D = A the pointer update is discarded. -/
def execLdp (p : Pair) (d a : Greg) (mode n : Fin 4) (sz : Fin 8) (step : BitVec 9) (s : State) : Out :=
  issue p (fun s =>
    if badPtr false mode sz then s.illegal p ((nc32Encode (.ldp p d a mode n sz step)).getD 0)
    else
      let x := s.pair p
      let post := if d = a then none
        else some (a, x.main.postUpdate a mode n sz step, x.chk.postUpdate a mode n sz step)
      s.loadAt p (x.main.acsPtr a (szBytes sz) sz.val false) (x.chk.acsPtr a (szBytes sz) sz.val false) (.greg d)
        (fun v => (szExtend sz v).setWidth 64) post false) s

/-- STP (R256, R257). -/
def execStp (p : Pair) (d a : Greg) (mode n : Fin 4) (sz : Fin 8) (step : BitVec 9) (s : State) : Out :=
  issue p (fun s =>
    if badPtr true mode sz then s.illegal p ((nc32Encode (.stp p d a mode n sz step)).getD 0)
    else
      let x := s.pair p
      s.storeAt p (x.main.acsPtr a (szBytes sz) sz.val true) (x.chk.acsPtr a (szBytes sz) sz.val true)
        (lowBytes (x.main.gr d) (szBytes sz)) (lowBytes (x.chk.gr d) (szBytes sz)) fun y =>
          { y with main := y.main.setG a (y.main.postUpdate a mode n sz step)
                   chk := y.chk.setG a (y.chk.postUpdate a mode n sz step) }) s

/-! ## Load-linked and store-conditional (R266) -/

/-- LDL. -/
def execLdl (p : Pair) (d a : Greg) (s : State) : Out :=
  issue p (fun s =>
    let x := s.pair p
    s.loadAt p (x.main.acsPtr a 4 2 false) (x.chk.acsPtr a 4 2 false) (.greg d) (fun v => BitVec.ofNat 64 v) none true) s

/-- The pair lost its reservation of the granule in this lc to an STC of a pair of higher number, which yields (Table 10.7). -/
def State.stcOver (s : State) (p : Pair) (a : Nat) : Bool :=
  let g := physOf p a / 32
  (s.pair p).lost.any fun l => decide (l.1 = s.now ∧ l.2.1 = g ∧ p < l.2.2) &&
    (s.pair l.2.2).stc.any fun r => decide (r.lc = s.now ∧ r.addr / 32 = g)

/-- An STC that succeeds: gB is stored, gD takes 1, and the store can still be overruled in this lc (R271). -/
def State.stcStore (s : State) (p : Pair) (ac : Acs) (d : Greg) (v : Word) : State :=
  let a := physOf p ac.ea.toNat
  let r : StcRec := ⟨s.now, a, d, s.word a⟩
  let s := s.busWrite (s.pairReq p) ac.ea.toNat v.toNat 4
  if s.ans.err then s.preciseFault p 0x09 ac.info ac.ea
  else (s.land p ac ⟨.greg d, 1, none⟩).modPair p fun x => { x with stc := some r }

/-- STC: the access is judged, then the reservation; either way the reservation is cleared. -/
def execStc (p : Pair) (d a b : Greg) (s : State) : Out :=
  issue p (fun s =>
    let x := s.pair p
    let ac := x.main.acsPtr a 4 2 true
    s.judged p ac (x.chk.acsPtr a 4 2 true) fun s =>
      let ok := (x.resv.isSome && decide (x.resv = granule p ac.ea.toNat)) || s.stcOver p ac.ea.toNat
      let s := s.clearResv p
      if ok then s.compared p 2 (x.main.gr b == x.chk.gr b) fun s => s.stcStore p ac d (x.main.gr b)
      else s.land p ac ⟨.greg d, 0, none⟩) s

/-! ## Floating-point loads and stores -/

/-- FLDS: f[63:32] = 0. -/
def execFlds (p : Pair) (d : Freg) (a : Greg) (imm : BitVec 16) (s : State) : Out :=
  issue p (fun s =>
    let x := s.pair p
    s.loadAt p (x.main.acsDisp a imm 4 2 false) (x.chk.acsDisp a imm 4 2 false) (.freg d) (fun v => BitVec.ofNat 64 v) none false) s

/-- FLDD: aligned to 8. -/
def execFldd (p : Pair) (d : Freg) (a : Greg) (imm : BitVec 16) (s : State) : Out :=
  issue p (fun s =>
    let x := s.pair p
    let sz := Config.szDouble.val
    s.loadAt p (x.main.acsDisp a imm 8 sz false) (x.chk.acsDisp a imm 8 sz false) (.freg d) (fun v => BitVec.ofNat 64 v) none
      false) s

/-- FSTS: stores f[31:0]. -/
def execFsts (p : Pair) (d : Freg) (a : Greg) (imm : BitVec 16) (s : State) : Out :=
  issue p (fun s =>
    let x := s.pair p
    s.storeAt p (x.main.acsDisp a imm 4 2 true) (x.chk.acsDisp a imm 4 2 true) ((x.main.fr d).toNat % 2 ^ 32)
      ((x.chk.fr d).toNat % 2 ^ 32) id) s

/-- FSTD: aligned to 8. -/
def execFstd (p : Pair) (d : Freg) (a : Greg) (imm : BitVec 16) (s : State) : Out :=
  issue p (fun s =>
    let x := s.pair p
    let sz := Config.szDouble.val
    s.storeAt p (x.main.acsDisp a imm 8 sz true) (x.chk.acsDisp a imm 8 sz true) (x.main.fr d).toNat (x.chk.fr d).toNat id) s

/-! ## Data returns and instruction fetch -/

/-- LOAD_DATA_RETURN (R262). -/
def execLoadDataReturn (p : Pair) (s : State) : Out :=
  match (s.pair p).stall with
  | some l =>
    if s.mode.cores then
      let s := ((s.unsched (.loadDataReturn p)).modPair p fun x => x.landed l).retire p
      .next (if (s.pair p).haltReq then s.emit (.haltTaken p) else s)
    else .next s
  | none => .next s

/-- Regions from which a pair fetches (R244). -/
def fetchable (a : Nat) : Bool :=
  decide (a < 0x80000) || inFlash a || (decide (0x20000000 ≤ a) && decide (a < 0x21800000))

/-- FETCH_FAULT (R244, R280, R362): the fetch at `a`, where the pair fetches next, is not permitted or not possible. -/
def execFetchFault (p : Pair) (a : Word) (s : State) : Out :=
  issue p (fun s =>
    if (s.pair p).pc ≠ a then s
    else if !s.permitted (s.pairReq p) .fetch a.toNat 4 then
      (s.violation (s.pairReq p) .fetch a.toNat).preciseFault p 0x07 1 a
    else if fetchable a.toNat then s
    else s.preciseFault p 0x07 0 a) s

/-- lc that a refill takes (Table 12.4): a line of SRAM, or of flash by whether it continues a stream (R311). -/
def State.refillTime (s : State) (line : Nat) : Nat :=
  if !inFlash line then 12
  else if s.fl.banks[flBank line].streams.any fun x => decide (x = flLine line ∨ x + 1 = flLine line) then 14
  else 20

/-- The read of a line by a refill (R309, R311). -/
def State.refillRead (s : State) (p : Pair) (line : Nat) : BusR × State :=
  let t := s.busRead (s.pairReq p) false line 32
  if inFlash line then (t.1, t.2.flStreamed line t.1.isData) else t

/-- Stores a refilled line (R244): 256 sets of four ways; which way of a full set is replaced is free (DESIGN CHOICE, log entry 20). -/
def PairSt.refill (x : PairSt) (l : IcLine) (victim : Fin 4) : PairSt :=
  let same (k : IcLine) : Bool := decide (k.line / 32 % 256 = l.line / 32 % 256)
  let set := x.icache.filter same
  if set.any fun k => decide (k.line = l.line) then x
  else if set.length < 4 then { x with icache := x.icache ++ [l] }
  else { x with icache := x.icache.filter (fun k => decide (some k ≠ set[victim.val]?)) ++ [l] }

/-- The line that holds the address is in the cache, and what reading it there does (R245): a single-bit error is corrected; a
double-bit error invalidates the line, which is no fault. -/
def State.icLookup (s : State) (p : Pair) (line : Nat) : Bool × State :=
  let is (k : IcLine) : Bool := decide (k.line = line)
  match (s.pair p).icache.find? is with
  | none => (false, s)
  | some k =>
    if k.upset = some true then
      (false, (s.modPair p fun x => { x with icache := x.icache.filter fun k => !is k }).bump F.LP_ECC_CNT_IC_DE p 0)
    else if k.upset = some false then
      (true, s.modPair p fun x => { x with icache := x.icache.map fun k => if is k then { k with upset := none } else k })
    else (true, s)

/-- ICACHE_REFILL (R244, R245, R281): the line of the address where the pair fetches next is read, through the streams from flash
(R311), and stored, unless the cache holds it, and the pair waits for it (R313); a marked response stores nothing and causes BUSY_FETCH. -/
def execIcacheRefill (p : Pair) (a : Word) (s : State) : Out :=
  issue p (fun s =>
    let at_ := a.toNat
    let line := at_ / 32 * 32
    if (s.pair p).pc ≠ a ∨ !fetchable at_ ∨ at_ < 0x80000 ∨ !s.permitted (s.pairReq p) .fetch at_ 4 then s
    else
      let h := s.icLookup p line
      if h.1 then h.2
      else
        let due := s.now + h.2.refillTime line
        match h.2.refillRead p line with
        | (.busy w, s) => s.preciseFault p 0x08 (getBits w 11 0) a
        | (.error, s) => s.preciseFault p 0x09 2 a
        | (.data _, s) =>
          let l : IcLine := ⟨line, s.bytes line 32, none⟩
          let s : State := if inFlash line then { s with cyc := .fill p (flBank line) line :: s.cyc } else s
          (s.modPair p fun x => { x.refill l (Config.icVictim s.fresh) with fetchTo := due }).draw) s

end Sys2Proof.Machine
end

