-- ==== Sys2Proof/Machine/Dispatch.lean ====
section
/-! DEFINITION. The meaning of each command: one arm per constructor. -/

namespace Sys2Proof.Machine

/-- The effect of a command on everything but the queue. -/
def exec (i : Instr) (s : State) : Host.Outcome State Fault Refusal :=
  match i with
  | .resetNAssert => Sys2Proof.Machine.execResetNAssert s
  | .supplyFall rail mV => Sys2Proof.Machine.execSupplyFall rail mV s
  | .powerGood xin50 => Sys2Proof.Machine.execPowerGood xin50 s
  | .clockLost => Sys2Proof.Machine.execClockLost s
  | .faultHoldExpiry => Sys2Proof.Machine.execFaultHoldExpiry s
  | .safeNFall => Sys2Proof.Machine.execSafeNFall s
  | .safeNTimeout => Sys2Proof.Machine.execSafeNTimeout s
  | .safeNRise => Sys2Proof.Machine.execSafeNRise s
  | .safeRequest k => Sys2Proof.Machine.execSafeRequest k s
  | .hpStatus f => Sys2Proof.Machine.execHpStatus f s
  | .hpLoad f offset data => Sys2Proof.Machine.execHpLoad f offset data s
  | .hpAbort f => Sys2Proof.Machine.execHpAbort f s
  | .msgPut f data => Sys2Proof.Machine.execMsgPut f data s
  | .msgGet f => Sys2Proof.Machine.execMsgGet f s
  | .modeReady o => Sys2Proof.Machine.execModeReady o s
  | .modeSafeHold o => Sys2Proof.Machine.execModeSafeHold o s
  | .modeMaintenance o => Sys2Proof.Machine.execModeMaintenance o s
  | .modeRetention o => Sys2Proof.Machine.execModeRetention o s
  | .retentionEntry => Sys2Proof.Machine.execRetentionEntry s
  | .retentionWake st => Sys2Proof.Machine.execRetentionWake st s
  | .debugRead v a => Sys2Proof.Machine.execDebugRead v a s
  | .debugWrite v a d => Sys2Proof.Machine.execDebugWrite v a d s
  | .debugConsumeRead v a => Sys2Proof.Machine.execDebugConsumeRead v a s
  | .hpFrameCut => Sys2Proof.Machine.execHpFrameCut s
  | .hostLoadTimeout => Sys2Proof.Machine.execHostLoadTimeout s
  | .twinLoadTimeout => Sys2Proof.Machine.execTwinLoadTimeout s
  | .verifyEnd st => Sys2Proof.Machine.execVerifyEnd st s
  | .tapBypass => Sys2Proof.Machine.execTapBypass s
  | .tapIdcode => Sys2Proof.Machine.execTapIdcode s
  | .tapExtest => Sys2Proof.Machine.execTapExtest s
  | .tapSample => Sys2Proof.Machine.execTapSample s
  | .tapPreload => Sys2Proof.Machine.execTapPreload s
  | .dbgAttach v st => Sys2Proof.Machine.execDbgAttach v st s
  | .dbgDetach v => Sys2Proof.Machine.execDbgDetach v s
  | .dbgHalt v p => Sys2Proof.Machine.execDbgHalt v p s
  | .haltTaken p => Sys2Proof.Machine.execHaltTaken p s
  | .dbgResume v halt => Sys2Proof.Machine.execDbgResume v halt s
  | .dbgStep v p => Sys2Proof.Machine.execDbgStep v p s
  | .authRequest v => Sys2Proof.Machine.execAuthRequest v s
  | .authGo v => Sys2Proof.Machine.execAuthGo v s
  | .authComplete => Sys2Proof.Machine.execAuthComplete s
  | .dbgSafegrpWrite v d => Sys2Proof.Machine.execDbgSafegrpWrite v d s
  | .runSolo r => Sys2Proof.Machine.execRunSolo r s
  | .pairActive r => Sys2Proof.Machine.execPairActive r s
  | .pairStandby r => Sys2Proof.Machine.execPairStandby r s
  | .unpair r => Sys2Proof.Machine.execUnpair r s
  | .switchover r => Sys2Proof.Machine.execSwitchover r s
  | .pairingTimeout => Sys2Proof.Machine.execPairingTimeout s
  | .twMark => Sys2Proof.Machine.execTwMark s
  | .heartbeat h t d => Sys2Proof.Machine.execHeartbeat h t d s
  | .heartbeatMissed => Sys2Proof.Machine.execHeartbeatMissed s
  | .peerLost => Sys2Proof.Machine.execPeerLost s
  | .pair h t d => Sys2Proof.Machine.execPair h t d s
  | .twSyncArrival e => Sys2Proof.Machine.execTwSyncArrival e s
  | .epochCapture => Sys2Proof.Machine.execEpochCapture s
  | .epoch h t d => Sys2Proof.Machine.execEpoch h t d s
  | .epochApplyDone => Sys2Proof.Machine.execEpochApplyDone s
  | .epochAck h t => Sys2Proof.Machine.execEpochAck h t s
  | .switch h t => Sys2Proof.Machine.execSwitch h t s
  | .faultInRise => Sys2Proof.Machine.execFaultInRise s
  | .ownInRise => Sys2Proof.Machine.execOwnInRise s
  | .dualOwn => Sys2Proof.Machine.execDualOwn s
  | .agreementPoint => Sys2Proof.Machine.execAgreementPoint s
  | .agreementForced => Sys2Proof.Machine.execAgreementForced s
  | .linkDown => Sys2Proof.Machine.execLinkDown s
  | .linkUp => Sys2Proof.Machine.execLinkUp s
  | .blank h t => Sys2Proof.Machine.execBlank h t s
  | .loadOffer h t => Sys2Proof.Machine.execLoadOffer h t s
  | .loadReq h t => Sys2Proof.Machine.execLoadReq h t s
  | .loadData h t d => Sys2Proof.Machine.execLoadData h t d s
  | .loadStatus h t => Sys2Proof.Machine.execLoadStatus h t s
  | .ethFrameRx port kind seqId corr => Sys2Proof.Machine.execEthFrameRx port kind seqId corr s
  | .ethFrameTx port kind seqId corr => Sys2Proof.Machine.execEthFrameTx port kind seqId corr s
  | .ethTsfifoRead r port peek => Sys2Proof.Machine.execEthTsfifoRead r port peek s
  | .stationCycleBoundary => Sys2Proof.Machine.execStationCycleBoundary s
  | .stationInputRead => Sys2Proof.Machine.execStationInputRead s
  | .stationOutputWrite => Sys2Proof.Machine.execStationOutputWrite s
  | .stationInputFrame port st gen cycle data => Sys2Proof.Machine.execStationInputFrame port st gen cycle data s
  | .sramScrubBeat b => Sys2Proof.Machine.execSramScrubBeat b s
  | .tcmScrubWord p => Sys2Proof.Machine.execTcmScrubWord p s
  | .marginScrubLine b differs => Sys2Proof.Machine.execMarginScrubLine b differs s
  | .refreshStep b => Sys2Proof.Machine.execRefreshStep b s
  | .dacTrimCheck n drift => Sys2Proof.Machine.execDacTrimCheck n drift s
  | .telemetryRecord ty idx value => Sys2Proof.Machine.execTelemetryRecord ty idx value s
  | .lifeGate since now => Sys2Proof.Machine.execLifeGate since now s
  | .reservationWindow => Sys2Proof.Machine.execReservationWindow s
  | .starveLimit m => Sys2Proof.Machine.execStarveLimit m s
  | .flKeyWrite r v => Sys2Proof.Machine.execFlKeyWrite r v s
  | .flashProgram r => Sys2Proof.Machine.execFlashProgram r s
  | .flashErase r => Sys2Proof.Machine.execFlashErase r s
  | .flashCommandDone b ok => Sys2Proof.Machine.execFlashCommandDone b ok s
  | .flPlReq r level => Sys2Proof.Machine.execFlPlReq r level s
  | .plLowerDone => Sys2Proof.Machine.execPlLowerDone s
  | .flWsWrite r v => Sys2Proof.Machine.execFlWsWrite r v s
  | .dmaStart r n => Sys2Proof.Machine.execDmaStart r n s
  | .dmaAbort r n => Sys2Proof.Machine.execDmaAbort r n s
  | .dmaPeripheralRequest line => Sys2Proof.Machine.execDmaPeripheralRequest line s
  | .dmaBlockStart => Sys2Proof.Machine.execDmaBlockStart s
  | .dmaBlockEnd => Sys2Proof.Machine.execDmaBlockEnd s
  | .queuePush r q w => Sys2Proof.Machine.execQueuePush r q w s
  | .queuePushEop r q w => Sys2Proof.Machine.execQueuePushEop r q w s
  | .queuePop r q => Sys2Proof.Machine.execQueuePop r q s
  | .queueFlush r q => Sys2Proof.Machine.execQueueFlush r q s
  | .dropPkt r q => Sys2Proof.Machine.execDropPkt r q s
  | .poolAlloc r => Sys2Proof.Machine.execPoolAlloc r s
  | .poolFree r a => Sys2Proof.Machine.execPoolFree r a s
  | .poolGive r v => Sys2Proof.Machine.execPoolGive r v s
  | .semAcquire r n => Sys2Proof.Machine.execSemAcquire r n s
  | .semRelease r n v => Sys2Proof.Machine.execSemRelease r n v s
  | .semForce r v => Sys2Proof.Machine.execSemForce r v s
  | .evcEvent n => Sys2Proof.Machine.execEvcEvent n s
  | .evcPendSet r j v => Sys2Proof.Machine.execEvcPendSet r j v s
  | .evcPendClr r j v => Sys2Proof.Machine.execEvcPendClr r j v s
  | .evcMaskSet r j v => Sys2Proof.Machine.execEvcMaskSet r j v s
  | .evcMaskClr r j v => Sys2Proof.Machine.execEvcMaskClr r j v s
  | .evcCmpl r v => Sys2Proof.Machine.execEvcCmpl r v s
  | .interruptOffer => Sys2Proof.Machine.execInterruptOffer s
  | .storeLate p a tenant tag => Sys2Proof.Machine.execStoreLate p a tenant tag s
  | .ptuRecall r v => Sys2Proof.Machine.execPtuRecall r v s
  | .recallTaken p => Sys2Proof.Machine.execRecallTaken p s
  | .sweepSnapshot p => Sys2Proof.Machine.execSweepSnapshot p s
  | .signatureCompare p => Sys2Proof.Machine.execSignatureCompare p s
  | .latmaxExpiry p => Sys2Proof.Machine.execLatmaxExpiry p s
  | .loadDataReturn p => Sys2Proof.Machine.execLoadDataReturn p s
  | .icacheRefill p a => Sys2Proof.Machine.execIcacheRefill p a s
  | .fpExceptionPend p => Sys2Proof.Machine.execFpExceptionPend p s
  | .add p d a b => Sys2Proof.Machine.execAdd p d a b s
  | .adc p d a b => Sys2Proof.Machine.execAdc p d a b s
  | .sub p d a b => Sys2Proof.Machine.execSub p d a b s
  | .sbc p d a b => Sys2Proof.Machine.execSbc p d a b s
  | .cmp p a b => Sys2Proof.Machine.execCmp p a b s
  | .addi p d a imm => Sys2Proof.Machine.execAddi p d a imm s
  | .cmpi p a imm => Sys2Proof.Machine.execCmpi p a imm s
  | .and p d a b => Sys2Proof.Machine.execAnd p d a b s
  | .or p d a b => Sys2Proof.Machine.execOr p d a b s
  | .xor p d a b => Sys2Proof.Machine.execXor p d a b s
  | .andn p d a b => Sys2Proof.Machine.execAndn p d a b s
  | .andi p d a imm => Sys2Proof.Machine.execAndi p d a imm s
  | .ori p d a imm => Sys2Proof.Machine.execOri p d a imm s
  | .xori p d a imm => Sys2Proof.Machine.execXori p d a imm s
  | .lui p d imm => Sys2Proof.Machine.execLui p d imm s
  | .shl p d a b => Sys2Proof.Machine.execShl p d a b s
  | .shr p d a b => Sys2Proof.Machine.execShr p d a b s
  | .sar p d a b => Sys2Proof.Machine.execSar p d a b s
  | .ror p d a b => Sys2Proof.Machine.execRor p d a b s
  | .shi p d a kind count => Sys2Proof.Machine.execShi p d a kind count s
  | .mul p d a b => Sys2Proof.Machine.execMul p d a b s
  | .mulu p d a b => Sys2Proof.Machine.execMulu p d a b s
  | .div p d a b => Sys2Proof.Machine.execDiv p d a b s
  | .divu p d a b => Sys2Proof.Machine.execDivu p d a b s
  | .mfs p d n => Sys2Proof.Machine.execMfs p d n s
  | .mts p a n => Sys2Proof.Machine.execMts p a n s
  | .ldb p d a imm => Sys2Proof.Machine.execLdb p d a imm s
  | .ldbu p d a imm => Sys2Proof.Machine.execLdbu p d a imm s
  | .ldh p d a imm => Sys2Proof.Machine.execLdh p d a imm s
  | .ldhu p d a imm => Sys2Proof.Machine.execLdhu p d a imm s
  | .ldw p d a imm => Sys2Proof.Machine.execLdw p d a imm s
  | .stb p d a imm => Sys2Proof.Machine.execStb p d a imm s
  | .sth p d a imm => Sys2Proof.Machine.execSth p d a imm s
  | .stw p d a imm => Sys2Proof.Machine.execStw p d a imm s
  | .lds p d bk sz off => Sys2Proof.Machine.execLds p d bk sz off s
  | .sts p d bk sz off => Sys2Proof.Machine.execSts p d bk sz off s
  | .ldp p d a mode n sz step => Sys2Proof.Machine.execLdp p d a mode n sz step s
  | .stp p d a mode n sz step => Sys2Proof.Machine.execStp p d a mode n sz step s
  | .ldl p d a => Sys2Proof.Machine.execLdl p d a s
  | .stc p d a b => Sys2Proof.Machine.execStc p d a b s
  | .bcc p an cond disp => Sys2Proof.Machine.execBcc p an cond disp s
  | .jmp p disp => Sys2Proof.Machine.execJmp p disp s
  | .call p disp => Sys2Proof.Machine.execCall p disp s
  | .jr p a => Sys2Proof.Machine.execJr p a s
  | .callr p a => Sys2Proof.Machine.execCallr p a s
  | .ret p => Sys2Proof.Machine.execRet p s
  | .trap p imm => Sys2Proof.Machine.execTrap p imm s
  | .eret p => Sys2Proof.Machine.execEret p s
  | .pflush p => Sys2Proof.Machine.execPflush p s
  | .icinv p => Sys2Proof.Machine.execIcinv p s
  | .fsync p => Sys2Proof.Machine.execFsync p s
  | .wait p => Sys2Proof.Machine.execWait p s
  | .pbar p imm => Sys2Proof.Machine.execPbar p imm s
  | .fadd p dbl d a b => Sys2Proof.Machine.execFadd p dbl d a b s
  | .fsub p dbl d a b => Sys2Proof.Machine.execFsub p dbl d a b s
  | .fmul p dbl d a b => Sys2Proof.Machine.execFmul p dbl d a b s
  | .fdiv p dbl d a b => Sys2Proof.Machine.execFdiv p dbl d a b s
  | .fsqrt p dbl d a => Sys2Proof.Machine.execFsqrt p dbl d a s
  | .fmin p dbl d a b => Sys2Proof.Machine.execFmin p dbl d a b s
  | .fmax p dbl d a b => Sys2Proof.Machine.execFmax p dbl d a b s
  | .fabs p dbl d a => Sys2Proof.Machine.execFabs p dbl d a s
  | .fneg p dbl d a => Sys2Proof.Machine.execFneg p dbl d a s
  | .fmov p dbl d a => Sys2Proof.Machine.execFmov p dbl d a s
  | .fcmp p dbl a b => Sys2Proof.Machine.execFcmp p dbl a b s
  | .fcvt p dbl kind d a => Sys2Proof.Machine.execFcvt p dbl kind d a s
  | .fmvgf p d a => Sys2Proof.Machine.execFmvgf p d a s
  | .fmvfg p d a => Sys2Proof.Machine.execFmvfg p d a s
  | .flds p d a imm => Sys2Proof.Machine.execFlds p d a imm s
  | .fldd p d a imm => Sys2Proof.Machine.execFldd p d a imm s
  | .fsts p d a imm => Sys2Proof.Machine.execFsts p d a imm s
  | .fstd p d a imm => Sys2Proof.Machine.execFstd p d a imm s
  | .adcTrigger x q => Sys2Proof.Machine.execAdcTrigger x q s
  | .adcSwtrig r x v => Sys2Proof.Machine.execAdcSwtrig r x v s
  | .adcHold x a => Sys2Proof.Machine.execAdcHold x a s
  | .adcConversionEnd x => Sys2Proof.Machine.execAdcConversionEnd x s
  | .adcAbort r x => Sys2Proof.Machine.execAdcAbort r x s
  | .adcDisable r x => Sys2Proof.Machine.execAdcDisable r x s
  | .adcRefSelect r x src => Sys2Proof.Machine.execAdcRefSelect r x src s
  | .refSettled x => Sys2Proof.Machine.execRefSettled x s
  | .adcSeqCfgWrite r x q v => Sys2Proof.Machine.execAdcSeqCfgWrite r x q v s
  | .adcEntryWrite r x q e v => Sys2Proof.Machine.execAdcEntryWrite r x q e v s
  | .rotationDue => Sys2Proof.Machine.execRotationDue s
  | .rotationSwap => Sys2Proof.Machine.execRotationSwap s
  | .spareRefConnect => Sys2Proof.Machine.execSpareRefConnect s
  | .spareCalComplete c => Sys2Proof.Machine.execSpareCalComplete c s
  | .coreAged k => Sys2Proof.Machine.execCoreAged k s
  | .comparatorCrossing n up => Sys2Proof.Machine.execComparatorCrossing n up s
  | .cmpThrWrite r n alt v => Sys2Proof.Machine.execCmpThrWrite r n alt v s
  | .cmpThrPort n w => Sys2Proof.Machine.execCmpThrPort n w s
  | .dacSettled n => Sys2Proof.Machine.execDacSettled n s
  | .cmpTick n lv => Sys2Proof.Machine.execCmpTick n lv s
  | .windowGateChange k gate => Sys2Proof.Machine.execWindowGateChange k gate s
  | .cmpCheck r v => Sys2Proof.Machine.execCmpCheck r v s
  | .checkTakeover => Sys2Proof.Machine.execCheckTakeover s
  | .checkResult raw => Sys2Proof.Machine.execCheckResult raw s
  | .checkRelease => Sys2Proof.Machine.execCheckRelease s
  | .checkWaitingStart => Sys2Proof.Machine.execCheckWaitingStart s
  | .pwmPeriodStart n => Sys2Proof.Machine.execPwmPeriodStart n s
  | .pwmPeriodMiddle n => Sys2Proof.Machine.execPwmPeriodMiddle n s
  | .pwmCompareAction n b => Sys2Proof.Machine.execPwmCompareAction n b s
  | .pwmTriggerCompare n k => Sys2Proof.Machine.execPwmTriggerCompare n k s
  | .deadTimeEnd n b => Sys2Proof.Machine.execDeadTimeEnd n b s
  | .transitionComplete n => Sys2Proof.Machine.execTransitionComplete n s
  | .dtmaxExpiry n => Sys2Proof.Machine.execDtmaxExpiry n s
  | .pwmTrip n k => Sys2Proof.Machine.execPwmTrip n k s
  | .trippedClear r n v => Sys2Proof.Machine.execTrippedClear r n v s
  | .pwmLoadall r v => Sys2Proof.Machine.execPwmLoadall r v s
  | .loadallStrobe k w => Sys2Proof.Machine.execLoadallStrobe k w s
  | .pwmStart r v => Sys2Proof.Machine.execPwmStart r v s
  | .pwmSync n => Sys2Proof.Machine.execPwmSync n s
  | .periodEnd n => Sys2Proof.Machine.execPeriodEnd n s
  | .periodMax n => Sys2Proof.Machine.execPeriodMax n s
  | .pstart n => Sys2Proof.Machine.execPstart n s
  | .phaseEvent n => Sys2Proof.Machine.execPhaseEvent n s
  | .comparePortWrite n b w => Sys2Proof.Machine.execComparePortWrite n b w s
  | .delayLineDue => Sys2Proof.Machine.execDelayLineDue s
  | .delayLineReplace => Sys2Proof.Machine.execDelayLineReplace s
  | .delayLineFail => Sys2Proof.Machine.execDelayLineFail s
  | .timerZero n => Sys2Proof.Machine.execTimerZero n s
  | .timerEnStart r n v => Sys2Proof.Machine.execTimerEnStart r n v s
  | .timerEnStop r n v => Sys2Proof.Machine.execTimerEnStop r n v s
  | .tmStart r v => Sys2Proof.Machine.execTmStart r v s
  | .tmStop r v => Sys2Proof.Machine.execTmStop r v s
  | .timerStartEvent n => Sys2Proof.Machine.execTimerStartEvent n s
  | .timerStopEvent n => Sys2Proof.Machine.execTimerStopEvent n s
  | .timerMatch n c => Sys2Proof.Machine.execTimerMatch n c s
  | .timerComparePort n c w => Sys2Proof.Machine.execTimerComparePort n c w s
  | .timerCapture n c e => Sys2Proof.Machine.execTimerCapture n c e s
  | .todRollover => Sys2Proof.Machine.execTodRollover s
  | .todAddendWrite r v => Sys2Proof.Machine.execTodAddendWrite r v s
  | .todPpsEdge => Sys2Proof.Machine.execTodPpsEdge s
  | .ppsLost => Sys2Proof.Machine.execPpsLost s
  | .ppsOutFall => Sys2Proof.Machine.execPpsOutFall s
  | .todNsRead r => Sys2Proof.Machine.execTodNsRead r s
  | .todCommitGo r timed => Sys2Proof.Machine.execTodCommitGo r timed s
  | .todCommitCancel r => Sys2Proof.Machine.execTodCommitCancel r s
  | .todTimedCommit => Sys2Proof.Machine.execTodTimedCommit s
  | .posEnable r n v => Sys2Proof.Machine.execPosEnable r n v s
  | .posDisable r n v => Sys2Proof.Machine.execPosDisable r n v s
  | .quadEdge n at_ lv => Sys2Proof.Machine.execQuadEdge n at_ lv s
  | .indexEvent n => Sys2Proof.Machine.execIndexEvent n s
  | .probeEdge n e => Sys2Proof.Machine.execProbeEdge n e s
  | .posPreset r n v => Sys2Proof.Machine.execPosPreset r n v s
  | .posDivnmWrite r n v => Sys2Proof.Machine.execPosDivnmWrite r n v s
  | .posErrorClear r n v => Sys2Proof.Machine.execPosErrorClear r n v s
  | .ssiBusyWrite r n => Sys2Proof.Machine.execSsiBusyWrite r n s
  | .ssiRequestEvent n => Sys2Proof.Machine.execSsiRequestEvent n s
  | .ssiFrameEnd n bits startLow => Sys2Proof.Machine.execSsiFrameEnd n bits startLow s
  | .monoflopEnd n => Sys2Proof.Machine.execMonoflopEnd n s
  | .sincosSample n => Sys2Proof.Machine.execSincosSample n s
  | .sincosResult n => Sys2Proof.Machine.execSincosResult n s
  | .speedWindow n => Sys2Proof.Machine.execSpeedWindow n s
  | .speedResult n => Sys2Proof.Machine.execSpeedResult n s
  | .currentSetFormed n => Sys2Proof.Machine.execCurrentSetFormed n s
  | .setAccept n p => Sys2Proof.Machine.execSetAccept n p s
  | .currentLoopOutput n => Sys2Proof.Machine.execCurrentLoopOutput n s
  | .voltageSet n => Sys2Proof.Machine.execVoltageSet n s
  | .voltageLoopOutput n => Sys2Proof.Machine.execVoltageLoopOutput n s
  | .freqTrackerSet n => Sys2Proof.Machine.execFreqTrackerSet n s
  | .freqTrackerOutput n => Sys2Proof.Machine.execFreqTrackerOutput n s
  | .profileTick n => Sys2Proof.Machine.execProfileTick n s
  | .profileOutput n => Sys2Proof.Machine.execProfileOutput n s
  | .observerAngle n => Sys2Proof.Machine.execObserverAngle n s
  | .observerConfidence n => Sys2Proof.Machine.execObserverConfidence n s
  | .coastEscalate n => Sys2Proof.Machine.execCoastEscalate n s
  | .safereqClear r n => Sys2Proof.Machine.execSafereqClear r n s
  | .generalStageGo n => Sys2Proof.Machine.execGeneralStageGo n s
  | .generalBundle n => Sys2Proof.Machine.execGeneralBundle n s
  | .paramSwap r n => Sys2Proof.Machine.execParamSwap r n s
  | .lnSwapEvent n => Sys2Proof.Machine.execLnSwapEvent n s
  | .tableCopyGo r n v => Sys2Proof.Machine.execTableCopyGo r n v s
  | .tableCopyDone n => Sys2Proof.Machine.execTableCopyDone n s
  | .swEventRaise r j v => Sys2Proof.Machine.execSwEventRaise r j v s
  | .routeEnableWrite r j v => Sys2Proof.Machine.execRouteEnableWrite r j v s
  | .pulseStretchEnd d => Sys2Proof.Machine.execPulseStretchEnd d s
  | .registerReadClear r a => Sys2Proof.Machine.execRegisterReadClear r a s
  | .registerWrite r a v => Sys2Proof.Machine.execRegisterWrite r a v s
  | .illegalInstruction p w => Sys2Proof.Machine.execIllegalInstruction p w s
  | .fetchFault p a => Sys2Proof.Machine.execFetchFault p a s
  | .adaptiveTurnOn n b => Sys2Proof.Machine.execAdaptiveTurnOn n b s
  | .epochSent => Sys2Proof.Machine.execEpochSent s
  | .blankFrameSend => Sys2Proof.Machine.execBlankFrameSend s
  | .twSyncReturn => Sys2Proof.Machine.execTwSyncReturn s
  | .hpBadcmd f cmd payload => Sys2Proof.Machine.execHpBadcmd f cmd payload s
  | .ethRxcChange port on => Sys2Proof.Machine.execEthRxcChange port on s

end Sys2Proof.Machine
end

