-- ==== Sys2Proof/Machine/Tick.lean ====
section
/-! DEFINITION. What passing time does: the step of the block on an empty queue (DESIGN CHOICE, log entry 1). -/

namespace Sys2Proof.Machine

/-! ## Within an lc -/

/-- What falls when the commands due in an lc are done: period and dead-time limits, a rotation swap that waits (R55), index events
(R166), the commands kept for this part of the lc. -/
def State.lcLate (s : State) : State :=
  let s := ((List.finRange 16).foldl (fun s n => s.pwmLate n) s).rotLate
  let s := (List.finRange 8).foldl (fun s n => if s.posIdxNow n then s.emit (.indexEvent n) else s) s
  { s with pending := s.pending ++ s.later, later := [] }

/-- Some converter has triggers of this lc to serve. -/
def State.trigLeft (s : State) : Bool := s.adc.any fun a => !a.trig.isEmpty

/-- The converters serve their triggers (R73, R78); what that brings about through direct routes is served after it. -/
def State.adcServes (s : State) : State := (List.finRange 8).foldl (fun s x => s.adcServeAll x) s

/-- What falls at the end of an lc, once its deliveries are made: the converters serve its triggers (R73, R78), the epoch's count of
periods, the timers' starts and stops, the station cycle's boundary. -/
def State.lcEnd (s : State) : State :=
  let s := s.adcServes
  let zero := (s.mx.ev ++ s.mx.evDone).contains (tmrSrc (Fin.ofNat 24 (s.fld F.SC_CFG_TMR 0 0)))
  let s := s.epochPeriod
  if zero && s.mode.run && decide (s.fld F.SC_CFG_TMR 0 0 < 24) then s.emit .stationCycleBoundary else s

/-- What falls last in an lc: the station inputs are read (R443: an INPUT of this lc counts), agreement is judged (R400). -/
def State.lcLast (s : State) : State :=
  let s := if s.sc.readAt.any fun t => decide (t ≤ s.now) then s.emit .stationInputRead else s
  if s.agreementNow then s.emit .agreementPoint else s

/-! ## From one lc to the next -/

/-- The control domain in a new lc. -/
def State.controlTick (s : State) : State :=
  let s := (List.finRange 48).foldl (fun s (n : CmpId) => s.dacTick n) s
  let s := s.checkTick.matrixTick.todTick
  let s := (List.finRange 24).foldl (fun s n => s.tmrTick n) s
  let s := (List.finRange 8).foldl (fun s x => s.adcTick x) s
  let s := (List.finRange 48).foldl (fun s (n : CmpId) => s.cmpTickLc n) s.rotTick
  let s := (List.finRange 16).foldl (fun s n => s.pwmTick n) s
  let s := if s.dlReady then s.emit .delayLineReplace else s
  let s := (List.finRange 8).foldl (fun s n => s.posTick n) s
  (List.finRange 8).foldl (fun s n => s.leTick n) s

/-- One lc passes in the store buffers. -/
def State.sbufTick (s : State) : State :=
  (List.finRange 4).foldl (fun s (p : Pair) => if (s.pair p).sbuf.isEmpty then s else s.modPair p fun x => { x with sbuf := x.sbuf.drop 1 }) s

/-- Some pair takes an interrupt offer in this lc (R291, R292). -/
def State.offerDue (s : State) : Bool :=
  (List.finRange 4).any s.takesOffer && (let o := s.offers; (List.finRange 4).any fun p => o[p].isSome && s.takesOffer p)

/-- The scrubs (R303, R438): a beat of each bank every 100 BUSCLK cycles, a word of each pair every 64 CORECLK cycles. -/
def State.scrubTick (s : State) : State :=
  let s := if s.now % 200 = 0 then (List.finRange 6).foldl (fun s b => s.emit (.sramScrubBeat b)) s else s
  if s.now % 32 = 0 then (List.finRange 4).foldl (fun s p => s.emit (.tcmScrubWord p)) s else s

/-- The SRAM banks serve their beats, a cycle of BUSCLK each. -/
def State.bankTick (s : State) : State :=
  if s.now % 2 = 0 then (List.finRange 6).foldl (fun s b => s.bankCycle b) s else s

/-- The clock cycles that begin with this lc: the registers at its start, what hardware set in cycles that go on (R9), the mode at
the start of a PERCLK cycle (R34). -/
def State.newCycle (s : State) : State :=
  { s with
    marks := []
    accs := if s.now % 2 = 0 then [] else s.accs
    cyc := if s.now % 2 = 0 then [] else s.cyc
    old := s.regs
    hits := s.hits.filter fun e => decide (s.now % clkLc e.1 ≠ 0)
    sys := { s.sys with perMode := if s.now % 4 = 0 then s.sys.mode else s.sys.perMode } }

/-- One lc passes. With the device clocks stopped (Retention, R19) nothing else does. -/
def State.tick (s : State) : State :=
  let s := s.readyTake.tmrLcEnd
  let s := ({ s with now := s.now + 1 } : State).newCycle
  if s.mode = .retention ∨ s.mode = .reset then s
  else
    let s := s.sampleSafeN.twMarks
    let s := if s.mode.live then s.controlTick else s
    let s := if s.mode.cores then s.evcTick.sbufTick else s
    let s := if s.offerDue then s.emit .interruptOffer else s
    let s := ((s.leaveDue).epochSend).offerSend
    let s := if s.mode = .blank ∧ s.linkIsUp = true ∧ s.now % 64 = 0 then s.emit .blankFrameSend else s
    s.bankTick.scrubTick.bgTick.dmaTick

/-- Order of a due command: the zero step of a countdown that began in this lc waits for the stops of the lc (Table 6.1). -/
def State.rank (s : State) (c : Instr) : Nat :=
  match c with
  | .timerZero n => if (s.tmrBegan n).isSome then 1 else 0
  | c => dueRank c

/-- A command of rank `k` is due in this lc. -/
def State.isDue (s : State) (k : Nat) (e : Nat × Instr) : Bool := decide (e.1 ≤ s.now) && decide (s.rank e.2 = k)

/-- Some command of rank `k` is due in this lc. -/
def State.hasDue (s : State) (k : Nat) : Bool := s.cal.any (s.isDue k)

/-- Matrix event that a due command is about to produce. -/
def dueSource : Instr → Option Nat
  | .pwmTriggerCompare n k => some (pwmSrc n + 2 + k.val)
  | .phaseEvent n => some (pwmSrc n + 4)
  | .timerZero n => some (tmrSrc n)
  | .timerMatch n c => some (tmrSrc n + 1 + c.val)
  | _ => none

/-- Destinations through which an event can end the segment or countdown that a due command belongs to. -/
def dueEnders : Instr → List Nat
  | .pwmTriggerCompare n _ => [pwmDst n + 7]
  | .phaseEvent n => [pwmDst n + 7]
  | .timerZero n => [0x1D0 + 10 * n.val, 0x1D1 + 10 * n.val]
  | .timerMatch n _ => [0x1D0 + 10 * n.val, 0x1D1 + 10 * n.val]
  | _ => []

/-- A due command waits: another one due in this lc ends its segment or countdown by a direct route (Tables 2.5, 6.1). -/
def State.heldBack (s : State) (due : List Instr) (c : Instr) : Bool :=
  due.any fun d => decide (d ≠ c) && (dueSource d).any fun k =>
    s.mx.routes.any fun r => decide (r.cls = 1) && s.routeOn r && decide (r.srcs.getD 0 0 = k) && (dueEnders c).contains r.dest

/-- The commands of rank `k` that are due in this lc pass from the calendar to the queue; of sources those first that can end what
others belong to. -/
def State.takeDue (s : State) (k : Nat) : State :=
  let due := (s.cal.filter (s.isDue k)).map (·.2)
  let free := due.filter fun c => !s.heldBack due c
  let out := if free.isEmpty then due else free
  { s with pending := s.pending ++ out, cal := s.cal.filter fun e => !(s.isDue k e && out.contains e.2) }

/-- The block with an empty queue does one of these, the first that applies: takes the commands of rank 0 due in this lc; takes those
brought about in it; lets the direct routes deliver; lets the groups of a strobe load, and segments take their first actions; takes the
due commands of the next rank; ends variable periods; ends the lc; passes to the next. -/
def State.idle (s : State) : State :=
  if s.sys.mode = .retention ∧ s.inbox.isEmpty = false then { s with inbox := [], pending := s.pending ++ s.inbox }
  else if s.mode = .retention then s.tick
  else if s.hasDue 0 then s.takeDue 0
  else if !s.inbox.isEmpty then { s with inbox := [], pending := s.pending ++ s.inbox }
  else if s.unsettled then s.settle
  else if s.strobe ≠ 0 then s.strobeAll
  else if s.firstDue then s.pwmFirstAll
  else if s.hasDue 1 then s.takeDue 1
  else if s.zactDue then s.tmrZeroActsAll
  else if s.hasDue 2 then s.takeDue 2
  else if s.endDue then s.pwmEnds
  else if s.waitDue then s.pwmWaits
  else if s.hasDue 3 then s.takeDue 3
  else if (List.finRange 16).any fun (k : WinId) => s.gateDue k then (List.finRange 16).foldl (fun s (k : WinId) => s.winGate k) s
  else if !s.marked 1 true then (s.mark 1 true).lcLate
  else if !s.marked 0 true then (s.mark 0 true).lcEnd
  else if s.trigLeft then s.adcServes
  else if !s.marked 0 false then (s.mark 0 false).lcLast
  else s.tick

end Sys2Proof.Machine
end

