-- ==== Sys2Proof/Safety.lean ====
section
/-! DEFINITION. The terms in which claims are made: when a register access is let through, when a pair issues, what a run
must keep. -/

namespace Sys2Proof.Machine

/-- The access rules let a command's register access through: the master can make accesses in this mode, and a window of the
tenant it carries permits the word (R356 to R360). -/
def State.admits (s : State) (r : Req) (k : Kind) (rn : RegName) (i j : Nat) : Prop :=
  s.reqLive r k = true ∧ s.permitted r k (rn.addr i j) 4 = true

/-- Pair p issues the instruction: nothing is taken at the boundary before it and nothing holds it (R286). -/
def State.issues (s : State) (p : Pair) : Prop := s.boundary p = .run

/-- Only the state of pair p differs. -/
def State.onlyPair (s t : State) (p : Pair) : Prop := t = { s with pairs := t.pairs } ∧ ∀ q : Pair, q ≠ p → t.pair q = s.pair q

/-- The registers and the memory are in the one canonical form. -/
def State.canonical (s : State) : Prop := SMap.wf regDefault s.regs = true ∧ SMap.wf memDefault s.mem = true

/-- Flags of an addition or subtraction as R258 words them, with result r: `exact` is the sum or difference of the operands as
signed numbers. -/
def arithFlags (r : Word) (exact : Int) (carry : Bool) : Nzcv := ⟨r.getLsbD 31, decide (r = 0), carry, decide (r.toInt ≠ exact)⟩

/-- N and Z of a result; C and V as they were (R258). -/
def logicFlags (r : Word) (old : Nzcv) : Nzcv := ⟨r.getLsbD 31, decide (r = 0), old.c, old.v⟩

/-- No ECC word that `n` bytes from `a` touch holds an uncorrected upset. -/
def State.cleanAt (s : State) (a n : Nat) : Prop := ∀ u ∈ eccUnits a n, SMap.find? s.upset u = none

/-- An exception entry of pair p with cause c has been taken from state s (R274, R275, R278): EPC, CAUSE and FADDR as the cause
gives them, PRIV and IE set, ARMED set and SEQ raised, the reservation and the slot gone, execution on at EVEC, and the 64 words
of the TSB written at TSBR with the state before entry; other pairs lose a reservation there (R266); no other register of the device
and no other byte of memory differs. -/
def State.entered (s t : State) (p : Pair) (c : Cause) : Prop :=
  let x := s.pair p
  let y := t.pair p
  let seq := (s.fld F.LP_EXC_STAT_SEQ p 0 + 1) % 65536
  let tsb := 0x38000000 + p.val * 0x100000 + x.main.tsbr.toNat
  let handler : Word := x.main.evec &&& 0xFFFFFFFC
  let taken (k l : Copy) : Prop :=
    l = { k with epc := c.epc, cause := BitVec.ofNat 32 (c.info * 65536 + c.code), faddr := c.faddr, psw := l.psw
                 pred := k.pred.fetch handler.toNat } ∧
    getBits l.psw 9 8 = entryPriv c k.psw x.tid ∧ l.psw.getLsbD 4 = false ∧
    ∀ i < 32, i ≠ 4 → i ≠ 8 → i ≠ 9 → l.psw.getLsbD i = k.psw.getLsbD i
  taken x.main y.main ∧ taken x.chk y.chk ∧
  y = { x with main := y.main, chk := y.chk, pc := handler, slot := none, resv := none, stall := none, waiting := false
               haltReq := x.haltReq || x.step, step := false
               before := if x.before.any (fun b => decide (b.1 = s.now)) then x.before else some (s.now, x.main, x.chk) } ∧
  t.fld F.LP_EXC_STAT_ARMED p 0 = 1 ∧ t.fld F.LP_EXC_STAT_SEQ p 0 = seq ∧
  (∀ a, a ≠ RegName.LP_EXC_STAT.addr p 0 → t.regs.get a (regDefault a) = s.regs.get a (regDefault a)) ∧
  (∀ k < 64, t.word (tsb + 4 * k) =
    ((tsbWords x.main seq c.epc (BitVec.ofNat 32 (c.info * 65536 + c.code)) c.faddr x.tid s.cycleLo)[k]?).getD 0) ∧
  (∀ a, a < tsb ∨ tsb + 256 ≤ a → t.byte a = s.byte a) ∧
  (∀ a, SMap.find? t.upset a = if tsb ≤ a ∧ a < tsb + 256 ∧ a % 4 = 0 then none else SMap.find? s.upset a) ∧
  t = { s with pairs := t.pairs, regs := t.regs, mem := t.mem, upset := t.upset } ∧
  ∀ q : Pair, q ≠ p → t.pair q = match (s.pair q).resv with
    | some g => if tsb ≤ 32 * g ∧ 32 * g < tsb + 256 then { s.pair q with resv := none, lost := some (s.now, g, p) } else s.pair q
    | none => s.pair q

/-- No STC of a pair other than p lies in this cycle, to yield to a store of p (R271). -/
def State.noStc (s : State) (p : Pair) : Prop := ∀ q : Pair, q ≠ p → ∀ k, (s.pair q).stc = some k → k.lc ≠ s.now

/-- Nothing stands in the way of an exception entry: no FP exception outstanding, no latent divergence pending, ARMED clear, the
copies write the same TSB and go on at the same handler (R275, R247), and no STC yields to it. -/
def State.entryFree (s : State) (p : Pair) (c : Cause) : Prop :=
  let x := s.pair p
  let seq := (s.fld F.LP_EXC_STAT_SEQ p 0 + 1) % 65536
  s.noStc p ∧ x.fpDue = none ∧ s.flag F.LP_LS_STAT_LATPEND p 0 = false ∧ s.flag F.LP_EXC_STAT_ARMED p 0 = false ∧
  x.main.tsbr = x.chk.tsbr ∧ x.main.tsbr = tsbrOf x.main.tsbr ∧
  tsbWords x.main seq c.epc c.word c.faddr x.tid s.cycleLo = tsbWords x.chk seq c.epc c.word c.faddr x.tid s.cycleLo ∧
  x.main.evec &&& 0xFFFFFFFC = x.chk.evec &&& 0xFFFFFFFC

/-- The items of a queue, head first: words with their tags. -/
def State.items (s : State) (q : QId) : List (Word × BitVec 2) :=
  (List.range (s.qFill q)).map fun k =>
    let slot := s.qSlot q (s.qRd q + k)
    (s.word (qAddr slot), s.qTags slot)

/-- A queue is configured, its pointers k + 1 bits wide (R340). -/
def State.queueSound (s : State) (q : QId) : Prop :=
  2 ≤ s.qK q ∧ s.qRd q < 2 * s.qDepth q ∧ s.qWr q < 2 * s.qDepth q ∧ s.qFill q ≤ s.qDepth q

end Sys2Proof.Machine
end

