-- ==== Sys2Proof/WellFormed.lean ====
section
/-! DEFINITION. Which commands are well formed: operand values that the spec gives an encoding (R255, R256, R253, Table 16.5). -/

namespace Sys2Proof

/-- Checks on an instruction's operands that its encoding does not already make: even D for multiply and divide, special
registers 0 to 26 but 7, listed SZ codes, modes 0b01 and 0b10 of LDP and STP, COND below 0b1111. A host frame's length
field and a load's alignment are judged by the device, so any value of them is well formed. -/
def Instr.wf (i : Instr) : Bool :=
  match i with
  | .mul _ d _ _ => decide (d.val % 2 = 0)
  | .mulu _ d _ _ => decide (d.val % 2 = 0)
  | .div _ d _ _ => decide (d.val % 2 = 0)
  | .divu _ d _ _ => decide (d.val % 2 = 0)
  | .mfs _ _ n => decide (n.val ≠ 7 ∧ n.val < 27)
  | .mts _ _ n => decide (n.val ≠ 7 ∧ n.val < 27)
  | .lds _ _ _ sz _ => szListed false sz
  | .sts _ _ _ sz _ => szListed true sz
  | .ldp _ _ _ mode _ sz _ => szListed false sz && decide (mode.val = 1 ∨ mode.val = 2)
  | .stp _ _ _ mode _ sz _ => szListed true sz && decide (mode.val = 1 ∨ mode.val = 2)
  | .bcc _ _ cond _ => decide (cond.val ≠ 15)
  | _ => true

/-- The pair an NC32 instruction names; the pair does not stand in the instruction word. -/
def Instr.pair? (i : Instr) : Option Pair :=
  match i with
  | .add p _ _ _ | .adc p _ _ _ | .sub p _ _ _ | .sbc p _ _ _ | .cmp p _ _ | .addi p _ _ _ | .cmpi p _ _ => some p
  | .and p _ _ _ | .or p _ _ _ | .xor p _ _ _ | .andn p _ _ _ | .andi p _ _ _ | .ori p _ _ _ | .xori p _ _ _ => some p
  | .lui p _ _ | .shl p _ _ _ | .shr p _ _ _ | .sar p _ _ _ | .ror p _ _ _ | .shi p _ _ _ _ => some p
  | .mul p _ _ _ | .mulu p _ _ _ | .div p _ _ _ | .divu p _ _ _ | .mfs p _ _ | .mts p _ _ => some p
  | .ldb p _ _ _ | .ldbu p _ _ _ | .ldh p _ _ _ | .ldhu p _ _ _ | .ldw p _ _ _ => some p
  | .stb p _ _ _ | .sth p _ _ _ | .stw p _ _ _ | .lds p _ _ _ _ | .sts p _ _ _ _ => some p
  | .ldp p _ _ _ _ _ _ | .stp p _ _ _ _ _ _ | .ldl p _ _ | .stc p _ _ _ => some p
  | .bcc p _ _ _ | .jmp p _ | .call p _ | .jr p _ | .callr p _ | .ret p | .trap p _ | .eret p => some p
  | .pflush p | .icinv p | .fsync p | .wait p | .pbar p _ => some p
  | .fadd p _ _ _ _ | .fsub p _ _ _ _ | .fmul p _ _ _ _ | .fdiv p _ _ _ _ | .fsqrt p _ _ _ => some p
  | .fmin p _ _ _ _ | .fmax p _ _ _ _ | .fabs p _ _ _ | .fneg p _ _ _ | .fmov p _ _ _ | .fcmp p _ _ _ => some p
  | .fcvt p _ _ _ _ | .fmvgf p _ _ | .fmvfg p _ _ => some p
  | .flds p _ _ _ | .fldd p _ _ _ | .fsts p _ _ _ | .fstd p _ _ _ => some p
  | _ => none

end Sys2Proof
end

