-- ==== Sys2Proof/Certificates/Slice0/Obligations.lean ====
section
/-! DEFINITION. The statements for the provers. -/

open Sys2Proof Sys2Proof.Machine


/-! ## NC32 instructions -/

/-- The arithmetic instructions that a pair issues complete with the sums and differences of R261 and the flags of R258. That SBC
subtracts one more where C is 0 is the model's reading (log entry 74).

The logical instructions, LUI and the shifts that a pair issues complete: N and Z from the result, C and V unchanged
(R258); LUI leaves the flags unchanged. -/
def Obligations.ArithmeticAndLogic : Prop :=
  (∀ (s : State) (p : Pair) (d a b : Greg) (imm : BitVec 16), s.issues p →
      let put (r : Word) (e : Int) (k : Bool) (c : Copy) : Copy := (c.setG d r).setFlags (arithFlags r e k)
      exec (.add p d a b) s = .next ((s.awake p).compute p fun c =>
        let x := c.gr a; let y := c.gr b
        put (x + y) (x.toInt + y.toInt) (decide (2 ^ 32 ≤ x.toNat + y.toNat)) c) ∧
      exec (.adc p d a b) s = .next ((s.awake p).compute p fun c =>
        let x := c.gr a; let y := c.gr b; let k := if c.flags.c then 1 else 0
        put (x + y + BitVec.ofNat 32 k) (x.toInt + y.toInt + k) (decide (2 ^ 32 ≤ x.toNat + y.toNat + k)) c) ∧
      exec (.sub p d a b) s = .next ((s.awake p).compute p fun c =>
        let x := c.gr a; let y := c.gr b
        put (x - y) (x.toInt - y.toInt) (decide (y.toNat ≤ x.toNat)) c) ∧
      exec (.sbc p d a b) s = .next ((s.awake p).compute p fun c =>
        let x := c.gr a; let y := c.gr b; let k := if c.flags.c then 0 else 1
        put (x - y - BitVec.ofNat 32 k) (x.toInt - y.toInt - k) (decide (y.toNat + k ≤ x.toNat)) c) ∧
      exec (.cmp p a b) s = .next ((s.awake p).compute p fun c =>
        let x := c.gr a; let y := c.gr b
        c.setFlags (arithFlags (x - y) (x.toInt - y.toInt) (decide (y.toNat ≤ x.toNat)))) ∧
      exec (.addi p d a imm) s = .next ((s.awake p).compute p fun c =>
        let x := c.gr a; let y := imm.signExtend 32
        put (x + y) (x.toInt + y.toInt) (decide (2 ^ 32 ≤ x.toNat + y.toNat)) c) ∧
      exec (.cmpi p a imm) s = .next ((s.awake p).compute p fun c =>
        let x := c.gr a; let y := imm.signExtend 32
        c.setFlags (arithFlags (x - y) (x.toInt - y.toInt) (decide (y.toNat ≤ x.toNat))))) ∧
  (∀ (s : State) (p : Pair) (d a b : Greg) (imm : BitVec 16) (count : Fin 32), s.issues p →
      let run (f : Copy → Word) : Host.Outcome State Fault Refusal := .next ((s.awake p).compute p fun c =>
        (c.setG d (f c)).setFlags (logicFlags (f c) c.flags))
      let low (c : Copy) : Nat := (c.gr b).toNat % 32
      exec (.and p d a b) s = run (fun c => c.gr a &&& c.gr b) ∧
      exec (.or p d a b) s = run (fun c => c.gr a ||| c.gr b) ∧
      exec (.xor p d a b) s = run (fun c => c.gr a ^^^ c.gr b) ∧
      exec (.andn p d a b) s = run (fun c => c.gr a &&& ~~~c.gr b) ∧
      exec (.andi p d a imm) s = run (fun c => c.gr a &&& imm.setWidth 32) ∧
      exec (.ori p d a imm) s = run (fun c => c.gr a ||| imm.setWidth 32) ∧
      exec (.xori p d a imm) s = run (fun c => c.gr a ^^^ imm.setWidth 32) ∧
      exec (.shl p d a b) s = run (fun c => c.gr a <<< low c) ∧
      exec (.shr p d a b) s = run (fun c => c.gr a >>> low c) ∧
      exec (.sar p d a b) s = run (fun c => (c.gr a).sshiftRight (low c)) ∧
      exec (.ror p d a b) s = run (fun c => (c.gr a).rotateRight (low c)) ∧
      exec (.shi p d a 0 count) s = run (fun c => c.gr a <<< count.val) ∧
      exec (.shi p d a 1 count) s = run (fun c => c.gr a >>> count.val) ∧
      exec (.shi p d a 2 count) s = run (fun c => (c.gr a).sshiftRight count.val) ∧
      exec (.shi p d a 3 count) s = run (fun c => (c.gr a).rotateRight count.val) ∧
      exec (.lui p d imm) s = .next ((s.awake p).compute p fun c => c.setG d (imm.setWidth 32 <<< 16)))

/-- MUL and MULU write the 64-bit product, DIV and DIVU quotient and remainder, with the flags of R259 and R260; an odd D
takes the illegal-instruction exception instead (R255). -/
def Obligations.MultiplyAndDivide : Prop :=
  ∀ (s : State) (p : Pair) (d a b : Greg), s.issues p →
    let two (c : Copy) (lo hi : Word) (fl : Nzcv) : Copy := ((c.setG d lo).setG (d + 1) hi).setFlags fl
    let prod (c : Copy) (v : Int) : Copy :=
      two c (BitVec.ofInt 32 v) (BitVec.ofInt 32 (v / 2 ^ 32)) ⟨decide (v % 2 ^ 64 / 2 ^ 63 = 1), decide (v = 0), false, false⟩
    let quot (c : Copy) (q r : Word) (cy v : Bool) : Copy := two c q r ⟨q.getLsbD 31, decide (q = 0), cy, v⟩
    (d.val % 2 = 0 →
      exec (.mul p d a b) s = .next ((s.awake p).compute p fun c => prod c ((c.gr a).toInt * (c.gr b).toInt)) ∧
      exec (.mulu p d a b) s = .next ((s.awake p).compute p fun c => prod c ((c.gr a).toNat * (c.gr b).toNat)) ∧
      exec (.div p d a b) s = .next ((s.awake p).compute p fun c =>
        if c.gr b = 0 then quot c 0xFFFFFFFF (c.gr a) true false
        else if c.gr a = 0x80000000 ∧ c.gr b = 0xFFFFFFFF then quot c 0x80000000 0 false true
        else quot c (BitVec.ofInt 32 ((c.gr a).toInt.tdiv (c.gr b).toInt)) (BitVec.ofInt 32 ((c.gr a).toInt.tmod (c.gr b).toInt))
          false false) ∧
      exec (.divu p d a b) s = .next ((s.awake p).compute p fun c =>
        if c.gr b = 0 then quot c 0xFFFFFFFF (c.gr a) true false
        else quot c (c.gr a / c.gr b) (c.gr a % c.gr b) false false)) ∧
    (d.val % 2 = 1 → ∀ i ∈ [Instr.mul p d a b, .mulu p d a b, .div p d a b, .divu p d a b],
      exec i s = .next ((s.awake p).illegal p ((nc32Encode i).getD 0)))

/-- What retiring an instruction does with result f: both copies take f, the pair goes on to the next word, or from a delay
slot to the outcome of its branch (R263); a fetch from outside the prediction bar's region ends the bar (R264), both ends of the
region being inside (the model's reading, log entry 71); a STEP ends here (R372); nothing else of the machine changes. -/
def Obligations.RetirementOnlyAdvancesPair : Prop :=
  ∀ (s : State) (p : Pair) (f : Copy → Copy),
    let x := s.pair p
    let t := s.compute p f
    let y := t.pair p
    let next : Word := match x.slot with | some l => l.next | none => x.pc + 4
    let on (k : Copy) : Copy := { f k with pred := (f k).pred.fetch next.toNat }
    s.onlyPair t p ∧ y.main = on x.main ∧ y.chk = on x.chk ∧ y.slot = none ∧ y.pc = next ∧
    y = { x with main := y.main, chk := y.chk, slot := none, pc := next, step := y.step, halted := y.halted, resv := y.resv } ∧
    (x.step = false → y.resv = x.resv ∧ y.halted = x.halted ∧ y.step = false) ∧
    (x.step = true → y.resv = none ∧ y.halted = true ∧ y.step = false) ∧
    ∀ (b : Pred) (a lo hi : Nat), b.fetch a = { b with bar := (b.fetch a).bar } ∧ (b.bar = none → (b.fetch a).bar = none) ∧
      (b.bar = some (lo, hi) → (b.fetch a).bar = if lo ≤ a ∧ a ≤ hi then some (lo, hi) else none)

/-- g0 reads 0 and discards writes; a write to any other general register writes it and no other, and no PSW; a write of the
flags leaves every other bit of PSW and every register (R253, R254).

The value and the pointer of the addressing forms (R255, R256): bytes and widening of each SZ code, and the modulo and
bit-reversed updates. -/
def Obligations.RegistersAndAddressForms : Prop :=
  (∀ (c : Copy) (r q : Greg) (v : Word) (fl : Nzcv),
      c.gr 0 = 0 ∧ c.setG 0 v = c ∧ (r ≠ 0 → (c.setG r v).gr r = v) ∧ (q ≠ r → (c.setG r v).gr q = c.gr q) ∧
      (c.setG r v).psw = c.psw ∧ (c.setG r v).f = c.f ∧ (c.setG r v).fpsr = c.fpsr ∧
      (c.setFlags fl).flags = fl ∧ (∀ i < 28, (c.setFlags fl).psw.getLsbD i = c.psw.getLsbD i) ∧
      c.setFlags fl = { c with psw := (c.setFlags fl).psw }) ∧
  (∀ (c : Copy) (a : Greg) (imm : BitVec 16) (bk n : Fin 4) (v : Nat) (step : BitVec 9),
      c.eaDisp a imm = c.gr a + imm.signExtend 32 ∧ c.eaShort bk imm = c.bank[bk] <<< 16 + imm.setWidth 32 ∧
      szBytes 0 = 1 ∧ szBytes 1 = 2 ∧ szBytes 2 = 4 ∧ szBytes 4 = 1 ∧ szBytes 5 = 2 ∧
      (v < 256 → szExtend 0 v = BitVec.ofNat 32 v ∧ szExtend 4 v = BitVec.ofNat 32 (if v < 128 then v else v + 0xFFFFFF00)) ∧
      (v < 65536 → szExtend 1 v = BitVec.ofNat 32 v ∧ szExtend 5 v = BitVec.ofNat 32 (if v < 32768 then v else v + 0xFFFF0000)) ∧
      (let t := ((c.gr a).toNat : Int) + step.toInt
       let lo := (c.modb[n].toNat : Int)
       let len := (c.modl[n].toNat : Int)
       c.postUpdate a 1 n 2 step = BitVec.ofInt 32 (if t < lo then t + len else if lo + len ≤ t then t - len else t)) ∧
      c.postUpdate a 2 n 2 step = brevUpdate (c.gr a) step (c.brev[n].toNat % 32) 2)

/-- MFS reads and MTS writes a special register that the privilege level permits; TSBR writes clear ARMED and keep the fixed
bits (R253, R273, R277, R283). Numbers 7 and 27 to 31 are illegal (R255); a forbidden MTS is a privileged fault, and one that only
one copy forbids a mismatch of group 3, as different values for TSBR or EVEC are of group 5 (R247). -/
def Obligations.SpecialRegisterMoves : Prop :=
  ∀ (s : State) (p : Pair) (d a : Greg) (n : Fin 32), s.issues p →
    let x := s.pair p
    let bad : Prop := n = 7 ∨ 27 ≤ n.val
    (bad → exec (.mfs p d n) s = .next ((s.awake p).illegal p ((nc32Encode (.mfs p d n)).getD 0)) ∧
      exec (.mts p a n) s = .next ((s.awake p).illegal p ((nc32Encode (.mts p a n)).getD 0))) ∧
    (n.val < 24 → ¬bad → exec (.mfs p d n) s = .next ((s.awake p).compute p fun c => c.setG d (c.special n))) ∧
    (n.val = 24 → exec (.mfs p d n) s = .next ((s.awake p).compute p fun c => c.setG d (BitVec.ofNat 32 x.tid))) ∧
    (n.val = 25 → exec (.mfs p d n) s = .next (((s.awake p).modPair p fun y => { y with cycleh := s.cycleHi }).compute p fun c =>
      c.setG d s.cycleLo)) ∧
    (n.val = 26 → exec (.mfs p d n) s = .next ((s.awake p).compute p fun c => c.setG d x.cycleh)) ∧
    (let no (c : Copy) := mtsForbidden n c.priv x.tid (c.gr a)
     (¬bad → no x.main ≠ no x.chk → exec (.mts p a n) s = .next ((s.awake p).mismatch p 3)) ∧
     (¬bad → no x.main = true → no x.chk = true → exec (.mts p a n) s = .next ((s.awake p).privileged p)) ∧
     (¬bad → no x.main = false → no x.chk = false → n.val ≠ 5 → n.val ≠ 6 →
       exec (.mts p a n) s = .next ((s.awake p).compute p fun c => c.setSpecial n (decide (c.priv = .user)) (c.gr a)))) ∧
    (x.main.priv ≠ .user → x.chk.priv ≠ .user →
      (x.main.gr a = x.chk.gr a →
        exec (.mts p a 6) s = .next ((s.awake p).compute p fun c => { c with evec := c.gr a }) ∧
        exec (.mts p a 5) s = .next (((s.awake p).setFld F.LP_EXC_STAT_ARMED p 0 0).compute p fun c =>
          { c with tsbr := (c.gr a &&& 0x7FF00) ||| 0x80000 })) ∧
      (x.main.gr a ≠ x.chk.gr a → ∀ m ∈ [(5 : Fin 32), 6], exec (.mts p a m) s = .next ((s.awake p).mismatch p 5)))

/-- A load that a pair issues, aligned, with the same address and privilege in both copies, permitted by a window, and answered with
data, delivers the data as its form widens it (R256, R257, R261, R267), and in place of data the busy word of a flash bank (R314). A
load from flash is remembered for its lc, so that a command which begins there turns its data into the busy word (R326). The SZ code
of a binary64 load is free (the model's, log entry 49).

Where loaded data lands (R262): from a TCM at once, and the load retires; from elsewhere the pair stalls until
LOAD_DATA_RETURN, which writes it and retires the load: after the uncontended time, 10 lc, for a control-domain register 14, from flash
8 + 2 (FL_WS + 1); before it the stores to those bytes leave the store buffer, one an lc (the model's, log entry 124); outside SRAM,
whose banks hold the load while its beats wait (R305), it waits a free time more (the model's, log entry 48). -/
def Obligations.Loads : Prop :=
  (∀ (s : State) (p : Pair) (d a : Greg) (fd : Freg) (imm : BitVec 16) (bk mode n : Fin 4) (sz : Fin 8) (step : BitVec 9),
      s.issues p → szListed false sz = true → (mode = 1 ∨ mode = 2) →
      let x := s.pair p
      let w (k : Fin 8) (v : Nat) : BitVec 64 := (szExtend k v).setWidth 64
      let z := Config.szDouble.val
      let post := if d = a then none else some (a, x.main.postUpdate a mode n sz step, x.chk.postUpdate a mode n sz step)
      ∀ f ∈ ([(.ldb p d a imm, fun c => c.eaDisp a imm, 1, 4, .greg d, w 4, none),
              (.ldbu p d a imm, fun c => c.eaDisp a imm, 1, 0, .greg d, w 0, none),
              (.ldh p d a imm, fun c => c.eaDisp a imm, 2, 5, .greg d, w 5, none),
              (.ldhu p d a imm, fun c => c.eaDisp a imm, 2, 1, .greg d, w 1, none),
              (.ldw p d a imm, fun c => c.eaDisp a imm, 4, 2, .greg d, w 2, none),
              (.lds p d bk sz imm, fun c => c.eaShort bk imm, szBytes sz, sz.val, .greg d, w sz, none),
              (.ldp p d a mode n sz step, fun c => c.gr a, szBytes sz, sz.val, .greg d, w sz, post),
              (.flds p fd a imm, fun c => c.eaDisp a imm, 4, 2, .freg fd, BitVec.ofNat 64, none),
              (.fldd p fd a imm, fun c => c.eaDisp a imm, 8, z, .freg fd, BitVec.ofNat 64, none)] :
              List (Instr × (Copy → Word) × Nat × Nat × LoadDest × (Nat → BitVec 64) × Option (Greg × Word × Word))),
        let (i, ea, len, code, dest, ext, upd) := f
        let e := (ea x.main).toNat
        let r := s.pairReq p
        let ac : Acs := ⟨ea x.main, len, code, false, x.main.priv⟩
        let u := if e < 0x100000 then s.awake p else (s.awake p).access r.master
        let told (t : State) : State := if inFlash e then
          { t with cyc := .load p (flBank e) (ext (busyBytes 0xDEAD0100 e len)) (ext (busyBytes 0xDEAD0200 e len)) :: t.cyc } else t
        ea x.chk = ea x.main → x.chk.priv = x.main.priv → e % len = 0 → s.permitted r .read e len = true →
        ∀ t, (∀ v, u.busRead r false e len = (.data v, t) → exec i s = .next ((told t).land p ac ⟨dest, ext v, upd⟩)) ∧
             (∀ m, u.busRead r false e len = (.busy m, t) →
                exec i s = .next (t.land p ac ⟨dest, ext (busyBytes m e len), upd⟩))) ∧
  (∀ (s : State) (p : Pair) (c : Acs) (l : Stall),
      (c.ea.toNat < 0x100000 → s.land p c l = (s.modPair p fun x => x.landed l).retire p) ∧
      (0x100000 ≤ c.ea.toNat → ((s.land p c l).pair p).stall = some l ∧ (s.land p c l).coreUp p = false ∧
        (s.land p c l).cal = (s.cal.filter fun k => k.2 ≠ .loadDataReturn p) ++
          [(s.now + ((s.pair p).sbufWait c.ea.toNat c.n +
            (if inFlash c.ea.toNat then 8 + 2 * (s.fld F.FL_WS_WS 0 0 + 1)
             else if 0x40000000 ≤ c.ea.toNat ∧ c.ea.toNat < 0x41000000 then 14 else 10) +
            (if 0x20000000 ≤ c.ea.toNat ∧ c.ea.toNat < 0x21800000 then 0 else Config.busWait s.fresh)), .loadDataReturn p)] ∧
        s.onlyPair { s.land p c l with cal := s.cal, fresh := s.fresh } p) ∧
      ((s.pair p).stall = some l → s.mode.cores = true → (s.pair p).haltReq = false →
        exec (.loadDataReturn p) s = .next (((s.unsched (.loadDataReturn p)).modPair p fun x => x.landed l).retire p)) ∧
      (∀ x : PairSt, l.post = none →
        ∀ g v, l = ⟨.greg g, v, none⟩ → x.landed l = { x with main := x.main.setG g (v.setWidth 32),
                                                              chk := x.chk.setG g (v.setWidth 32), stall := none }))

/-- A store that a pair issues, aligned, with the same address, privilege and data in both copies, permitted, finding room among the
late errors, writes the low bytes of its register and retires; a pointer store updates its pointer (R256, R257, R262, R282). Outside
the TCMs it enters the store buffer of four and takes the next tag; with a fifth entry the pair issues nothing until the oldest has left
(R262). That memory holds the store from its issue on is the model's (log entry 124), as is that a store waits while four late errors
wait (log entry 87). -/
def Obligations.StoresWriteData : Prop :=
  ∀ (s : State) (p : Pair) (d a : Greg) (fd : Freg) (imm : BitVec 16) (bk mode n : Fin 4) (sz : Fin 8) (step : BitVec 9),
    (∀ i : Instr, i ∈ [Instr.stb p d a imm, .sth p d a imm, .stw p d a imm, .sts p d bk sz imm, .stp p d a mode n sz step,
        .fsts p fd a imm, .fstd p fd a imm] → 4 < (s.pair p).sbuf.length → exec i s = .next s) ∧
    (s.issues p → szListed true sz = true → (mode = 1 ∨ mode = 2) →
    let x := s.pair p
    let g (len : Nat) (c : Copy) : Nat := (c.gr d).toNat % 256 ^ len
    let keep (y : PairSt) : PairSt := y
    let bump (y : PairSt) : PairSt := { y with main := y.main.setG a (y.main.postUpdate a mode n sz step)
                                               chk := y.chk.setG a (y.chk.postUpdate a mode n sz step) }
    ∀ f ∈ ([(.stb p d a imm, fun c => c.eaDisp a imm, 1, g 1, keep),
            (.sth p d a imm, fun c => c.eaDisp a imm, 2, g 2, keep),
            (.stw p d a imm, fun c => c.eaDisp a imm, 4, g 4, keep),
            (.sts p d bk sz imm, fun c => c.eaShort bk imm, szBytes sz, g (szBytes sz), keep),
            (.stp p d a mode n sz step, fun c => c.gr a, szBytes sz, g (szBytes sz), bump),
            (.fsts p fd a imm, fun c => c.eaDisp a imm, 4, fun c => (c.fr fd).toNat % 2 ^ 32, keep),
            (.fstd p fd a imm, fun c => c.eaDisp a imm, 8, fun c => (c.fr fd).toNat, keep)] :
            List (Instr × (Copy → Word) × Nat × (Copy → Nat) × (PairSt → PairSt))),
      let (i, ea, len, v, after) := f
      let e := (ea x.main).toNat
      let r := s.pairReq p
      ea x.chk = ea x.main → x.chk.priv = x.main.priv → e % len = 0 → s.permitted r .write e len = true → v x.main = v x.chk →
      (e < 0x100000 ∨ x.late.length < 4) →
        let t := (if e < 0x100000 then s.awake p else (s.awake p).access r.master).busWrite r e (v x.main) len
        exec i s = .next ((t.modPair p fun y =>
          if e < 0x100000 then after y
          else after { y with late := if t.ans.err then y.late ++ [⟨ea x.main, y.tid, y.tag⟩] else y.late
                              sbuf := y.sbuf ++ [(e, len)], tag := y.tag + 1 }).retire p))

/-- An access to a local TCM that is aligned and meets no upset (R20, R24, R262, R266): a read answers the little-endian bytes
and changes nothing; a write changes those bytes and, where no STC of another pair in the same cycle yields to it (R271), no other,
and clears the reservations of the other pairs on its granule, which they remember as lost.

LDL reads a word and sets the reservation; STC stores and writes 1 where the reservation stands on its granule, else, unless it
was lost in this cycle (R271), writes 0 and stores nothing, whatever its data; either way the reservation is gone (R266). -/
def Obligations.TcmAndLinkedAccesses : Prop :=
  (∀ (s : State) (p : Pair) (peek : Bool) (a v n : Nat),
      (n = 1 ∨ n = 2 ∨ n = 4 ∨ n = 8) → a % n = 0 → a + n ≤ 0x100000 →
      let b := aliasBase p + a
      let r := s.pairReq p
      s.cleanAt b n →
      s.busRead r peek a n = (.data (s.readLE b n), s) ∧
      (let t := s.busWrite r a v n
       t.ans.err = false ∧ (∀ k < n, t.byte (b + k) = BitVec.ofNat 8 (v / 256 ^ k)) ∧ t.readLE b n = v % 256 ^ n ∧
       (s.noStc p →
         (∀ x, x < b ∨ b + n ≤ x → t.byte x = s.byte x) ∧ t = { s with mem := t.mem, pairs := t.pairs, ans := t.ans } ∧
         ∀ q : Pair, t.pair q = if q ≠ p ∧ (s.pair q).resv = some (b / 32)
           then { s.pair q with resv := none, lost := some (s.now, b / 32, p) } else s.pair q))) ∧
  (∀ (s : State) (p : Pair) (d a b : Greg), s.issues p →
      let x := s.pair p
      let ea := x.main.gr a
      let e := ea.toNat
      let r := s.pairReq p
      let u := if e < 0x100000 then s.awake p else (s.awake p).access r.master
      let told (t : State) : State := if inFlash e then
        { t with cyc := .load p (flBank e) (BitVec.ofNat 64 (busyBytes 0xDEAD0100 e 4)) (BitVec.ofNat 64 (busyBytes 0xDEAD0200 e 4)) ::
            t.cyc } else t
      let ld : Acs := ⟨ea, 4, 2, false, x.main.priv⟩
      let st : Acs := ⟨ea, 4, 2, true, x.main.priv⟩
      x.chk.gr a = ea → x.chk.priv = x.main.priv → e % 4 = 0 →
      (s.permitted r .read e 4 = true → ∀ v t, u.busRead r false e 4 = (.data v, t) →
        exec (.ldl p d a) s = .next (((told t).modPair p fun y => { y with resv := (granule p e).or y.resv }).land p ld
          ⟨.greg d, BitVec.ofNat 64 v, none⟩)) ∧
      (s.permitted r .write e 4 = true →
        let c := u.clearResv p
        ((∃ g, x.resv = some g ∧ granule p e = some g) →
          (x.main.gr b ≠ x.chk.gr b → exec (.stc p d a b) s = .next (c.mismatch p 2)) ∧
          (x.main.gr b = x.chk.gr b →
            let t := c.busWrite r e (x.main.gr b).toNat 4
            let rec_ : StcRec := ⟨s.now, physOf p e, d, s.word (physOf p e)⟩
            (t.ans.err = false → exec (.stc p d a b) s = .next ((t.land p st ⟨.greg d, 1, none⟩).modPair p fun y =>
              { y with stc := some rec_ })) ∧
            (t.ans.err = true → exec (.stc p d a b) s = .next (t.preciseFault p 0x09 10 ea)))) ∧
        ((x.resv = none ∨ x.resv ≠ granule p e) → (∀ l, x.lost = some l → l.1 ≠ s.now) →
          exec (.stc p d a b) s = .next (c.land p st ⟨.greg d, 0, none⟩))))

/-- Data faults of every load and store that issues with equal privilege in both copies, with INFO and FADDR of Table 11.4: MISALIGN,
then WINDOW with the violation recorded, then for loads BUS_ERROR (R257, R280, R286, R362); where the addresses of the copies differ, a
mismatch of the data port, or for a misaligned access, which only its entry shows, of the exception port (R247, R248). That an STC is
judged before its reservation (log entry 87), that the window comes before a bus error (log entry 81), and the SZ code of a binary64
access (log entry 49) are the model's. -/
def Obligations.DataFaults : Prop :=
  ∀ (s : State) (p : Pair) (d a b : Greg) (fd : Freg) (imm : BitVec 16) (bk mode n : Fin 4) (sz : Fin 8) (step : BitVec 9),
    s.issues p → (mode = 1 ∨ mode = 2) → (s.pair p).late.length < 4 →
    let x := s.pair p
    let r := s.pairReq p
    let z := Config.szDouble.val
    let disp (c : Copy) := c.eaDisp a imm
    let short (c : Copy) := c.eaShort bk imm
    let ptr (c : Copy) := c.gr a
    x.chk.priv = x.main.priv →
    (∀ f ∈ ([(.ldb p d a imm, disp, 1, 4), (.ldbu p d a imm, disp, 1, 0), (.ldh p d a imm, disp, 2, 5),
             (.ldhu p d a imm, disp, 2, 1), (.ldw p d a imm, disp, 4, 2), (.ldl p d a, ptr, 4, 2),
             (.flds p fd a imm, disp, 4, 2), (.fldd p fd a imm, disp, 8, z)] ++
            (if szListed false sz then [(.lds p d bk sz imm, short, szBytes sz, sz.val),
                                        (.ldp p d a mode n sz step, ptr, szBytes sz, sz.val)] else []) :
             List (Instr × (Copy → Word) × Nat × Nat)),
      let (i, ea, len, info) := f
      let e := (ea x.main).toNat
      (e % len ≠ 0 → ea x.chk = ea x.main → exec i s = .next ((s.awake p).preciseFault p 0x05 info (ea x.main))) ∧
      (e % len ≠ 0 → ea x.chk ≠ ea x.main → exec i s = .next ((s.awake p).mismatch p 3)) ∧
      (e % len = 0 → ea x.chk ≠ ea x.main → exec i s = .next ((s.awake p).mismatch p 1)) ∧
      (e % len = 0 → ea x.chk = ea x.main →
        (s.permitted r .read e len = false →
          exec i s = .next (((s.awake p).violation r .read e).preciseFault p 0x06 info (ea x.main))) ∧
        (s.permitted r .read e len = true →
          ∀ t, (if e < 0x100000 then s.awake p else (s.awake p).access r.master).busRead r false e len = (.error, t) →
          exec i s = .next (t.preciseFault p 0x09 info (ea x.main))))) ∧
    (∀ f ∈ ([(.stb p d a imm, disp, 1, 8), (.sth p d a imm, disp, 2, 9), (.stw p d a imm, disp, 4, 10),
             (.stc p d a b, ptr, 4, 10), (.fsts p fd a imm, disp, 4, 10), (.fstd p fd a imm, disp, 8, 8 + z)] ++
            (if szListed true sz then [(.sts p d bk sz imm, short, szBytes sz, 8 + sz.val),
                                       (.stp p d a mode n sz step, ptr, szBytes sz, 8 + sz.val)] else []) :
             List (Instr × (Copy → Word) × Nat × Nat)),
      let (i, ea, len, info) := f
      let e := (ea x.main).toNat
      (e % len ≠ 0 → ea x.chk = ea x.main → exec i s = .next ((s.awake p).preciseFault p 0x05 info (ea x.main))) ∧
      (e % len ≠ 0 → ea x.chk ≠ ea x.main → exec i s = .next ((s.awake p).mismatch p 3)) ∧
      (e % len = 0 → ea x.chk ≠ ea x.main → exec i s = .next ((s.awake p).mismatch p 1)) ∧
      (e % len = 0 → ea x.chk = ea x.main → s.permitted r .write e len = false →
        exec i s = .next (((s.awake p).violation r .write e).preciseFault p 0x06 info (ea x.main))))

/-- Branches, jumps, calls and returns that issue, each with its target, its slot, and what it teaches the predictor (R263,
R264); in a delay slot each is illegal. Where the copies' outcomes, targets or predictions differ, so do their fetch addresses, which
is a mismatch of group 0 (R247, R249). A target taken from a register ignores its two low bits (the model's reading, log entry 22); that
counters and history train under the bar and that a full return stack loses its oldest entry are the model's (log entry 70). -/
def Obligations.ControlTransfers : Prop :=
  ∀ (s : State) (p : Pair) (an : Bool) (cond : Fin 16) (disp : BitVec 21) (far : BitVec 26) (a : Greg) (imm : BitVec 16),
    s.issues p →
    let x := s.pair p
    let t := s.awake p
    let goes (f : PairSt → PairSt) : Out := .next (t.modPair p f)
    let reg (g : Greg) : Word := x.main.gr g &&& 0xFFFFFFFC
    let link (c : Copy) : Copy :=
      { c.setG 31 (x.pc + 8) with pred := { c.pred with ras := ((x.pc + 8) :: c.pred.ras).take 16 } }
    let call (n : Word) (y : PairSt) : PairSt := { y with main := link y.main, chk := link y.chk }.branchTo n
    let learn (b : Pred) : Pred :=
      let k := getBits x.pc 12 2 ^^^ b.hist.toNat
      let c := b.bht.get k 1
      let on := condHolds cond x.main.flags
      { b with bht := b.bht.put k (if on then (if c = 3 then 3 else c + 1) else (if c = 0 then 0 else c - 1)) 1
               hist := (b.hist <<< 1) ||| (if on then 1 else 0) }
    let guess (b : Pred) : Bool := b.bar.isNone && decide (2 ≤ (b.bht.get (getBits x.pc 12 2 ^^^ b.hist.toNat) 1).toNat)
    let top (b : Pred) : Option Word := if b.bar.isSome then none else b.ras.head?
    (x.slot = none →
      (cond ≠ 15 → (condHolds cond x.main.flags ≠ condHolds cond x.chk.flags ∨ guess x.main.pred ≠ guess x.chk.pred) →
        exec (.bcc p an cond disp) s = .next (t.mismatch p 0)) ∧
      (cond = 15 → exec (.bcc p an cond disp) s = .next (t.illegal p ((nc32Encode (.bcc p an cond disp)).getD 0))) ∧
      (cond ≠ 15 → condHolds cond x.main.flags = condHolds cond x.chk.flags → guess x.main.pred = guess x.chk.pred →
        exec (.bcc p an cond disp) s = goes fun y =>
          let y := y.predict learn
          if condHolds cond x.main.flags then y.branchTo (x.pc + (disp.signExtend 32 <<< 2))
          else if an then (y.fetchAt (x.pc + 8)).endStep
          else y.branchTo (x.pc + 8)) ∧
      exec (.jmp p far) s = goes (fun y => y.branchTo (x.pc + (far.signExtend 32 <<< 2))) ∧
      exec (.call p far) s = goes (call (x.pc + (far.signExtend 32 <<< 2))) ∧
      (x.main.gr a = x.chk.gr a →
        exec (.jr p a) s = goes (fun y => y.branchTo (reg a)) ∧ exec (.callr p a) s = goes (call (reg a))) ∧
      (x.main.gr a ≠ x.chk.gr a →
        exec (.jr p a) s = .next (t.mismatch p 0) ∧ exec (.callr p a) s = .next (t.mismatch p 0)) ∧
      ((x.main.gr 31 ≠ x.chk.gr 31 ∨ top x.main.pred ≠ top x.chk.pred) → exec (.ret p) s = .next (t.mismatch p 0)) ∧
      (x.main.gr 31 = x.chk.gr 31 → top x.main.pred = top x.chk.pred →
        exec (.ret p) s = goes (fun y =>
          (y.predict fun b => { b with ras := if b.bar.isSome then b.ras else b.ras.drop 1 }).branchTo (reg 31)))) ∧
    (x.slot ≠ none → ∀ i ∈ [Instr.bcc p an cond disp, .jmp p far, .call p far, .jr p a, .callr p a, .ret p, .eret p, .trap p imm],
      exec i s = .next (t.illegal p ((nc32Encode i).getD 0)))

/-- PFLUSH clears the predictor, ICINV the instruction cache, PBAR bars prediction up to address + 4 · IMM16, WAIT stops issue,
FSYNC with no FP exception outstanding only retires (R244, R264, R268, R296); ICINV and WAIT at User take PRIVILEGED (R272); where
the copies' privileges differ, an invalidation and an entry are compared outputs (R247). -/
def Obligations.SystemInstructions : Prop :=
  ∀ (s : State) (p : Pair) (imm : BitVec 16), s.issues p →
    let x := s.pair p
    let t := s.awake p
    exec (.pflush p) s = .next ((t.modPair p fun y => y.predict fun _ => ⟨[], 0, [], none⟩).retire p) ∧
    exec (.pbar p imm) s = .next ((t.modPair p fun y =>
      y.predict fun b => { b with bar := some (x.pc.toNat, x.pc.toNat + 4 * imm.toNat) }).retire p) ∧
    (x.fpDue = none → exec (.fsync p) s = .next (t.retire p)) ∧
    (x.main.priv ≠ .user → x.chk.priv ≠ .user →
      exec (.icinv p) s = .next ((t.modPair p fun y => { y with icache := [] }).retire p) ∧
      exec (.wait p) s = .next ((t.retire p).modPair p fun y => { y with waiting := true })) ∧
    (x.main.priv = .user → x.chk.priv = .user → ∀ i ∈ [Instr.icinv p, .wait p], exec i s = .next (t.privileged p)) ∧
    ((x.main.priv = .user ↔ x.chk.priv ≠ .user) →
      exec (.icinv p) s = .next (t.mismatch p 0) ∧ exec (.wait p) s = .next (t.mismatch p 3))

/-- Exception entry writes the task-state block, EPC, CAUSE, FADDR and PSW, and goes to EVEC (R274, R275, R278, R280), whatever
the cause; a precise fault takes the address of its instruction, or of the branch before a slot, as EPC. -/
def Obligations.ExceptionEntry : Prop :=
  ∀ (s : State) (p : Pair) (c : Cause),
    (s.entryFree p c → s.entered (s.enter p c) p c) ∧
    ∀ (code info : Nat) (faddr : Word),
      let at_ := match (s.pair p).slot with | some l => l.branch | none => (s.pair p).pc
      s.preciseFault p code info faddr = s.enter p ⟨code, info, at_, faddr⟩

/-- TRAP, illegal words and faulty fetches enter with the cause of Table 11.4; TRAP codes from 0xFF00 on are privileged off T0
(R255, R273, R274, R280, R362). That a window violation comes before a region that holds no code is the model's reading (log entry
88).

ICACHE_REFILL of a permitted, fetchable line outside the TCM that the cache does not hold stores the line; a marked flash response
stores nothing and causes BUSY_FETCH with its INFO (R244, R281). A line that the cache holds is not read again, unless it has a
double-bit error, which invalidates it and is counted (R245). The pair waits 12 lc for a line of SRAM, 14 for a flash line that continues
a stream, else 20 (R313); a line of flash is remembered for its lc (R326). The streams are log entry 123; which way is replaced is free (log entry 20); INFO of a bus
error is the model's reading (log entry 88). -/
def Obligations.TrapsAndFetches : Prop :=
  (∀ (s : State) (p : Pair) (imm : BitVec 16) (w a : Word), s.issues p →
      let x := s.pair p
      let t := s.awake p
      let r := s.pairReq p
      (x.slot = none → (imm.toNat < 0xFF00 ∨ x.tid = 0) →
        exec (.trap p imm) s = .next (t.enter p ⟨0x02, imm.toNat, x.pc + 4, 0⟩)) ∧
      (x.slot = none → 0xFF00 ≤ imm.toNat → x.tid ≠ 0 →
        exec (.trap p imm) s = .next (t.enter p ⟨0x04, 0, x.pc, x.pc⟩)) ∧
      (nc32Decode p w = none → exec (.illegalInstruction p w) s = .next (t.enter p ⟨0x03, w.toNat / 65536, x.resume, x.pc⟩)) ∧
      (x.pc = a → s.permitted r .fetch a.toNat 4 = false →
        exec (.fetchFault p a) s = .next ((t.violation r .fetch a.toNat).enter p ⟨0x07, 1, x.resume, a⟩)) ∧
      (x.pc = a → s.permitted r .fetch a.toNat 4 = true → fetchable a.toNat = false →
        exec (.fetchFault p a) s = .next (t.enter p ⟨0x07, 0, x.resume, a⟩))) ∧
  (∀ (s : State) (p : Pair) (a : Word), s.issues p → (s.pair p).pc = a → fetchable a.toNat = true → 0x80000 ≤ a.toNat →
      s.permitted (s.pairReq p) .fetch a.toNat 4 = true →
      let line := a.toNat / 32 * 32
      let mine (k : IcLine) : Prop := k ∈ (s.pair p).icache ∧ k.line = line
      let rd := (s.awake p).refillRead p line
      let time := if inFlash line = false then 12
        else if (s.fl.banks[flBank line].streams.any fun x => decide (x = flLine line ∨ x + 1 = flLine line)) = true then 14 else 20
      let stored (t : State) : Out :=
        let u : State := if inFlash line then { t with cyc := .fill p (flBank line) line :: t.cyc } else t
        .next ((u.modPair p fun x =>
          { x.refill ⟨line, t.bytes line 32, none⟩ (Config.icVictim t.fresh) with fetchTo := s.now + time }).draw)
      ((∀ k, ¬mine k) →
        (∀ v t, rd = (.data v, t) → exec (.icacheRefill p a) s = stored t) ∧
        (∀ w t, rd = (.busy w, t) → exec (.icacheRefill p a) s = .next (t.preciseFault p 0x08 (w.toNat % 4096) a)) ∧
        (∀ t, rd = (.error, t) → exec (.icacheRefill p a) s = .next (t.preciseFault p 0x09 2 a))) ∧
      ((∃ k, mine k) → (∀ k, mine k → k.upset = none) → exec (.icacheRefill p a) s = .next (s.awake p)) ∧
      ((∃ k, mine k) → (∀ k, mine k → k.upset = some true) →
        let v := ((s.awake p).modPair p fun x => { x with icache := x.icache.filter fun k => k.line ≠ line }).bump F.LP_ECC_CNT_IC_DE p 0
        ∀ d t, v.refillRead p line = (.data d, t) → exec (.icacheRefill p a) s = stored t) ∧
      ∀ (x : PairSt) (l : IcLine) (w : Fin 4),
        ((x.refill l w).icache.any fun k => decide (k.line = l.line)) = true ∧
        ∀ k ∈ x.icache, k.line / 32 % 256 ≠ l.line / 32 % 256 → k ∈ (x.refill l w).icache)

/-- ERET restores PSW and TID from the task-state block, clears ARMED and the reservation and goes on at the EPC stored there; a
change of TID is counted and flushes the predictor where R363 asks it; a forbidden ERET is a PRIVILEGED fault (R273, R287), at User
whatever the block holds (R286). That the TID judged is the one the block holds (log entry 75), and that the two low bits of the EPC are
ignored (log entry 22), are the model's readings. -/
def Obligations.ExceptionReturn : Prop :=
  ∀ (s : State) (p : Pair), s.issues p → (s.pair p).slot = none →
    let x := s.pair p
    let tsb := aliasBase p + x.main.tsbr.toNat
    let psw := s.word (tsb + 0x80)
    let new := getBits (s.word (tsb + 0x94)) 2 0
    let mode := getBits psw 9 8
    let bad := x.main.priv = .user ∨ mode = 2 ∨ (mode = 3 ∧ new ≠ 0) ∨ (x.main.priv = .supervisor ∧ new ≠ x.tid.val)
    x.main.priv = x.chk.priv →
    (x.main.priv = .user → exec (.eret p) s = .next ((s.awake p).privileged p)) ∧
    (x.main.priv ≠ .user → x.main.tsbr ≠ x.chk.tsbr → exec (.eret p) s = .next ((s.awake p).mismatch p 1)) ∧
    (s.cleanAt (tsb + 0x80) 8 → s.cleanAt (tsb + 0x94) 4 → x.main.tsbr = x.chk.tsbr →
    (bad → exec (.eret p) s = .next ((s.awake p).privileged p)) ∧
    (¬bad →
      ∃ t, exec (.eret p) s = .next t ∧ t.fld F.LP_EXC_STAT_ARMED p 0 = 0 ∧
        (∀ b, b ≠ RegName.LP_EXC_STAT.addr p 0 → b ≠ RegName.PTU_PAIRk_STAT.addr p 0 →
          t.regs.get b (regDefault b) = s.regs.get b (regDefault b)) ∧
        t.fld F.PTU_PAIRk_STAT_SWITCHES p 0 =
          (s.fld F.PTU_PAIRk_STAT_SWITCHES p 0 + (if new = x.tid.val then 0 else 1)) % 65536 ∧
        t = { s with regs := t.regs, pairs := t.pairs } ∧ (∀ q : Pair, q ≠ p → t.pair q = s.pair q) ∧
        (let y := t.pair p
         y.pc = s.word (tsb + 0x84) &&& 0xFFFFFFFC ∧ y.resv = none ∧ y.tid.val = new ∧
         (let flushed := new ≠ x.tid.val ∧ (s.fld F.FL_PL_LEVEL 0 0 ≠ 0 ∨ s.fld F.PTU_TENt_CFG_PFL x.tid 0 = 1 ∨
                                           s.fld F.PTU_TENt_CFG_PFL new 0 = 1)
          let back (k : Copy) : Copy :=
            { k with psw := psw &&& 0xF0000310, pred := if flushed then ⟨[], 0, [], none⟩ else k.pred.fetch y.pc.toNat }
          y.main = back x.main ∧ y.chk = back x.chk))))

/-- FP operations that issue write the rounded result and add their exceptions to FLAGS in both copies; FCMP writes the flags of
R269; the moves copy bits. An enabled exception, where none is outstanding, is recorded with the instruction's address and falls
due when the operation completes (R267 to R269). That FABS, FNEG and FMOV quiet a NaN is the model's reading (log entry 24).

An FP exception whose operation completes sets PEND; it is taken at the next boundary outside a slot that no late store error
precedes, at FSYNC, and before the cause of any other entry; EPC is the first instruction not executed. The task-state block shows
PEND, which the entry then clears (R268, R278, R286); exceptions that differ between the copies are a mismatch (R247). -/
def Obligations.FloatingPointInstructions : Prop :=
  (∀ (s : State) (p : Pair) (dbl : Bool) (kind : FcvtKind) (d a b : Freg) (g : Greg), s.issues p →
      let m := fmtOf dbl
      let op (c : Copy) (r : Freg) : Nat := (c.fr r).toNat % (if dbl then 2 ^ 64 else 2 ^ 32)
      let run (lat : Nat) (f : Copy → FRes) : Out :=
        .next (((s.awake p).fpRaise p (fun c => (f c).flags) lat).compute p fun c =>
          { c with f := vset c.f d (BitVec.ofNat 64 (f c).bits), fpsr := c.fpsr ||| ((f c).flags.setWidth 32 <<< 16) })
      exec (.fadd p dbl d a b) s = run 2 (fun c => m.add c.rm (op c a) (op c b)) ∧
      exec (.fsub p dbl d a b) s = run 2 (fun c => m.sub c.rm (op c a) (op c b)) ∧
      exec (.fmul p dbl d a b) s = run (if dbl then 3 else 2) (fun c => m.mul c.rm (op c a) (op c b)) ∧
      exec (.fdiv p dbl d a b) s = run (if dbl then 12 else 7) (fun c => m.div c.rm (op c a) (op c b)) ∧
      exec (.fsqrt p dbl d a) s = run (if dbl then 12 else 7) (fun c => m.sqrt c.rm (op c a)) ∧
      exec (.fmin p dbl d a b) s = run 1 (fun c => m.minmax false (op c a) (op c b)) ∧
      exec (.fmax p dbl d a b) s = run 1 (fun c => m.minmax true (op c a) (op c b)) ∧
      exec (.fabs p dbl d a) s = run 1 (fun c => m.signOp (fun _ => false) (op c a)) ∧
      exec (.fneg p dbl d a) s = run 1 (fun c => m.signOp not (op c a)) ∧
      exec (.fmov p dbl d a) s = run 1 (fun c => m.signOp id (op c a)) ∧
      exec (.fcvt p dbl kind d a) s = run 2 (fun c => c.fcvt dbl kind a) ∧
      exec (.fmvgf p d g) s = .next ((s.awake p).compute p fun c => { c with f := vset c.f d ((c.gr g).setWidth 64) }) ∧
      exec (.fmvfg p g a) s = .next ((s.awake p).compute p fun c => c.setG g ((c.fr a).setWidth 32)) ∧
      (let rel (c : Copy) := m.relation (op c a) (op c b)
       let nv (c : Copy) : FFlags := match rel c with | none => 16 | some _ => 0
       let fl (c : Copy) : Nzcv := match rel c with
         | some .lt => ⟨true, false, false, false⟩ | some .eq => ⟨false, true, true, false⟩
         | some .gt => ⟨false, false, true, false⟩ | none => ⟨false, false, false, true⟩
       exec (.fcmp p dbl a b) s = .next (((s.awake p).fpRaise p nv 1).compute p fun c =>
         { c.setFlags (fl c) with fpsr := c.fpsr ||| ((nv c).setWidth 32 <<< 16) })) ∧
      ∀ (fl : Copy → FFlags) (lat : Nat),
        let x := s.pair p
        let hit (c : Copy) : Prop := fl c &&& (c.fpsr >>> 8).setWidth 5 ≠ 0
        (∀ a b : FFlags, (hit x.main → a = fl x.main) → (¬hit x.main → a = 0) → (hit x.chk → b = fl x.chk) → (¬hit x.chk → b = 0) →
          (hit x.main ∨ hit x.chk) → x.fpOut = none → x.fpPend = none →
          s.fpRaise p fl lat = (s.modPair p fun y => { y with fpOut := some ⟨y.pc, a, b⟩ }).sched lat (.fpExceptionPend p)) ∧
        (¬hit x.main → ¬hit x.chk → s.fpRaise p fl lat = s) ∧ (x.fpDue ≠ none → s.fpRaise p fl lat = s)) ∧
  (∀ (s : State) (p : Pair) (e : FpEvent) (c : Cause) (i : State → State),
      let x := s.pair p
      let cause : Cause := ⟨0x0B, e.flags.toNat, x.resume, e.addr⟩
      let up (k : Copy) : Copy := { k with fpsr := setBits k.fpsr 24 24 1 }
      let raised (y : PairSt) : PairSt := { y with fpOut := none, fpPend := some e, main := up y.main, chk := up y.chk }
      let off (t : State) : State :=
        (t.modPair p fun y => { y with fpPend := none }).both p fun k => { k with fpsr := setBits k.fpsr 24 24 0 }
      (e.flags ≠ 0 → e.chk ≠ 0 → x.fpOut = some e → exec (.fpExceptionPend p) s =
        .next ((s.modPair p raised).unsched (.fpExceptionPend p))) ∧
      (x.fpPend = some e → s.coreUp p = true → x.slot = none → (x.late = [] ∨ s.flag F.LP_EXC_STAT_ARMED p 0 = true) →
        issue p i s = .next (s.takeFp p e)) ∧
      (x.fpDue = some e → s.enter p c = s.takeFp p e) ∧
      (s.issues p → x.fpOut = some e → x.fpPend = none → exec (.fsync p) s = .next ((s.awake p).takeFp p e)) ∧
      (e.flags ≠ e.chk → s.takeFp p e = s.mismatch p 3) ∧
      (e.flags = e.chk → e.flags ≠ 0 → s.takeFp p e = off ((s.modPair p raised).enterFrom p cause)))

/-- What the operations of R267 give, in both formats. In the range of normal numbers a sum, a difference, a product, a quotient, a
square root and a conversion are the exact result rounded by RM, with NX where they differ from it. A NaN operand gives the first NaN,
quieted; an invalid operation gives the NaN of R267 and NV. FMIN and FMAX take −0 as below +0. FCVT to int32 rounds by RM and
saturates with NV. -/
def Obligations.FloatingPointResults : Prop :=
  ∀ (dbl : Bool) (rm x y : Nat) (w : Word), rm < 4 →
    let t := fmtOf dbl
    let mw := if dbl then 52 else 23
    let size := if dbl then 64 else 32
    let bias (d : Bool) : Int := if d then 1023 else 127
    let big := (if dbl then 2047 else 255) * 2 ^ mw
    let nan (v : Nat) : Prop := big < v % 2 ^ (size - 1)
    let quiet (v : Nat) : Nat := if v / 2 ^ (mw - 1) % 2 = 1 then v else v + 2 ^ (mw - 1)
    let invalid : FRes := ⟨if dbl then 0x7FF8000000000000 else 0x7FC00000, 16⟩
    let pow (e : Int) : Rat := if 0 ≤ e then ((2 ^ e.toNat : Nat) : Rat) else 1 / ((2 ^ (-e).toNat : Nat) : Rat)
    let num (s : Bool) (m : Nat) (e : Int) : Rat := (if s then -1 else 1) * (m : Rat) * pow e
    let near (v r u : Rat) (odd : Bool) : Prop :=
      (rm = 0 → 2 * (r - v) ≤ u ∧ 2 * (v - r) ≤ u ∧ ((2 * (r - v) = u ∨ 2 * (v - r) = u) → odd = false)) ∧
      (rm = 1 → (0 ≤ v → r ≤ v ∧ v < r + u) ∧ (v < 0 → v ≤ r ∧ r < v + u)) ∧
      (rm = 2 → v ≤ r ∧ r < v + u) ∧ (rm = 3 → r ≤ v ∧ v < r + u)
    let normal (d : Bool) (v : Rat) : Prop := (pow (1 - bias d) ≤ v ∨ pow (1 - bias d) ≤ -v) ∧ v < pow (bias d) ∧ -v < pow (bias d)
    let rounded (d : Bool) (v : Rat) (r : FRes) : Prop := normal d v →
      ∃ s m e, (fmtOf d).val r.bits = .fin s m e ∧ near v (num s m e) (pow e) (decide (m % 2 = 1)) ∧
        r.flags = if num s m e = v then 0 else 1
    x < 2 ^ size → y < 2 ^ size →
    (∀ s m e s' m' e', t.val x = .fin s m e → t.val y = .fin s' m' e' →
      let a := num s m e
      let b := num s' m' e'
      rounded dbl (a + b) (t.add rm x y) ∧ rounded dbl (a - b) (t.sub rm x y) ∧ rounded dbl (a * b) (t.mul rm x y) ∧
      (m' ≠ 0 → rounded dbl (a / b) (t.div rm x y)) ∧ (m' = 0 → m ≠ 0 → t.div rm x y = ⟨t.inf (s != s'), 8⟩) ∧
      (m = 0 → m' = 0 → t.div rm x y = invalid) ∧ (s = true → m ≠ 0 → t.sqrt rm x = invalid) ∧
      (s = false → m ≠ 0 → ∃ k f, t.val (t.sqrt rm x).bits = .fin false k f ∧
        let r := num false k f
        let u := pow f
        (rm = 0 → (r - u / 2) * (r - u / 2) ≤ a ∧ a ≤ (r + u / 2) * (r + u / 2)) ∧
        (rm = 2 → (r - u) * (r - u) < a ∧ a ≤ r * r) ∧ (rm = 1 ∨ rm = 3 → r * r ≤ a ∧ a < (r + u) * (r + u))) ∧
      rounded (!dbl) a (t.convert (fmtOf (!dbl)) rm x) ∧
      (∃ z : Int, near a z 1 (decide (z % 2 ≠ 0)) ∧ t.toInt32 rm x =
        if 2147483647 < z then (0x7FFFFFFF, 16) else if z < -2147483648 then (0x80000000, 16)
        else (BitVec.ofInt 32 z, if (z : Rat) = a then 0 else 1))) ∧
    rounded dbl w.toInt (t.ofInt32 rm w) ∧
    (∀ f ∈ [t.add rm, t.sub rm, t.mul rm, t.div rm, t.minmax false, t.minmax true],
      (nan x → (f x y).bits = quiet x) ∧ (¬nan x → nan y → (f x y).bits = quiet y)) ∧
    (nan x → (t.sqrt rm x).bits = quiet x ∧ t.toInt32 rm x = (0, 16)) ∧
    (t.val x = .inf false → t.toInt32 rm x = (0x7FFFFFFF, 16) ∧ (t.val y = .inf true → t.add rm x y = invalid) ∧
      (t.val y = .inf false → t.sub rm x y = invalid ∧ t.div rm x y = invalid) ∧
      (y % 2 ^ (size - 1) = 0 → t.mul rm x y = invalid)) ∧
    (t.val x = .inf true → t.toInt32 rm x = (0x80000000, 16) ∧ t.sqrt rm x = invalid) ∧
    (t.relation x y = some .lt → t.minmax false x y = ⟨x, 0⟩ ∧ t.minmax false y x = ⟨x, 0⟩ ∧ t.minmax true x y = ⟨y, 0⟩ ∧
      t.minmax true y x = ⟨y, 0⟩) ∧
    (let z := 2 ^ (size - 1)
     t.minmax false z 0 = ⟨z, 0⟩ ∧ t.minmax false 0 z = ⟨z, 0⟩ ∧ t.minmax true z 0 = ⟨0, 0⟩ ∧ t.minmax true 0 z = ⟨0, 0⟩)

/-- STORE_LATE, PTU_RECALL, RECALL_TAKEN and HALT_TAKEN: what waits at a boundary, in the order of R286, and what taking it
does (R282, R286, R364, R372). A halt comes after an interrupt that is offered, and after a cause of the instruction at the boundary,
whose entry is taken first (Table 14.4). That four late errors can wait is the spec's; that a further store waits is the model's reading
(log entry 87). -/
def Obligations.BoundaryCauses : Prop :=
  ∀ (s : State) (p : Pair) (a v : Word) (ten : Tenant) (tag : Fin 4) (r : Req) (l : LateStore) (i : State → State),
    let x := s.pair p
    let armed := s.flag F.LP_EXC_STAT_ARMED p 0
    let rcl := s.flag F.PTU_PAIRk_STAT_RECALLP p 0
    (s.mode.cores = true → s.faulted p = false →
      ∃ t, exec (.storeLate p a ten tag) s = .next t ∧
        let u := s.modPair p fun y => { y with late := (y.late ++ [(⟨a, ten, tag⟩ : LateStore)]).take 4 }
        (s.coreUp p = true → x.slot = none → armed = false → x.late = [] → t = u.takeLate p ⟨a, ten, tag⟩) ∧
        (armed = true ∨ x.slot ≠ none ∨ s.coreUp p = false → t = u)) ∧
    (s.coreUp p = true → x.slot = none → x.late.head? = some l → armed = false → issue p i s = .next (s.takeLate p l)) ∧
    (x.fpOut = none → x.fpPend = none →
      s.takeLate p l = (s.modPair p fun y => { y with late := y.late.drop 1 }).enterFrom p
        ⟨0x0A, l.tenant.val * 16 + l.tag.val, x.resume, l.addr⟩) ∧
    (s.admits r .write .PTU_RECALL 0 0 →
      let q : Pair := Fin.ofNat 4 (getBits v 1 0)
      exec (.ptuRecall r v) s = .next (if r.t0mon = true ∧ (s.pair q).tid ≠ 0
        then (s.opened r.master).setFld F.PTU_PAIRk_STAT_RECALLP q 0 1 else s.opened r.master)) ∧
    (s.coreUp p = true → x.slot = none → armed = false → x.late = [] → x.fpPend = none → rcl = true →
      exec (.recallTaken p) s = .next (s.takeRecall p) ∧ issue p i s = .next (s.takeRecall p) ∧
      (x.fpOut = none → s.flag F.LP_LS_STAT_LATPEND p 0 = false →
        s.takeRecall p = ((((s.setFld F.PTU_PAIRk_STAT_RECALLP p 0 0).takeEntry p ⟨0x01, 0x018A, x.resume, 0⟩).both p fun k =>
          { k with psw := setBits k.psw 9 8 1 }).switchTid p 0))) ∧
    (s.coreUp p = true → x.slot = none → (x.late = [] ∨ armed = true) → x.fpPend = none → (rcl = false ∨ armed = true) →
      x.haltReq = true →
      let halts := s.modPair p fun y => { y with halted := true, haltReq := false, step := false, resv := none }
      let u := i (s.awake p)
      let enters := s.fld F.LP_EXC_STAT_SEQ p 0 ≠ u.fld F.LP_EXC_STAT_SEQ p 0 ∨
        (u.flag F.LP_EXC_STAT_DOUBLE p 0 = true ∧ s.flag F.LP_EXC_STAT_DOUBLE p 0 = false)
      (s.interruptNext p = false → exec (.haltTaken p) s = .next halts ∧ (¬enters → issue p i s = .next halts) ∧
        (enters → issue p i s = .next (u.emit (.haltTaken p)))) ∧
      (s.interruptNext p = true → exec (.haltTaken p) s = .next (s.sched 1 (.haltTaken p)) ∧ issue p i s = .next s)) ∧
    (s.coreUp p = true → x.slot ≠ none → x.haltReq = true → exec (.haltTaken p) s = .next (s.sched 1 (.haltTaken p))) ∧
    (x.haltReq = false → exec (.haltTaken p) s = .next s)

/-- A compared output that differs, and an entry while LATPEND, halt the pair with their group (R248, R251); an entry while ARMED
is a double fault: no task-state block is written, DOUBLE and DCODE record it and the pair halts (R284).

The signature sweep (R250, R251): a snapshot compresses the swept registers of both copies, as they were before an exception entry of
its lc (R271); at the end of the interval the signatures are compared and counted; a divergence halts the pair, once the commands of the
lc are done, or in deferred mode becomes pending with a limit, which halts it. -/
def Obligations.PairFaultsAndSweep : Prop :=
  (∀ (s : State) (p : Pair) (g : Nat) (body : State → State) (c : Cause), g < 8 → c.code < 64 →
      s.compared p g true body = body s ∧ s.compared p g false body = s.mismatch p g ∧
      (∃ u : State, s.mismatch p g = u.uncorrectable p.val (some p) ∧ u.faulted p = true ∧ u.fld F.LP_LS_STAT_GROUP p 0 = g) ∧
      (s.flag F.LP_LS_STAT_LATPEND p 0 = true → s.enterFrom p c = s.mismatch p 7) ∧
      (s.flag F.LP_LS_STAT_LATPEND p 0 = false → s.flag F.LP_EXC_STAT_ARMED p 0 = true →
        ∃ u : State, s.enterFrom p c = u.uncorrectable (4 + p.val) (some p) ∧ u.faulted p = true ∧
          u.fld F.LP_EXC_STAT_DCODE p 0 = c.code ∧ u = { s with regs := u.regs } ∧ u.coreUp p = false) ∧
      (∀ (i : State → State), s.faulted p = true → issue p i s = .next s)) ∧
  (∀ (s : State) (p : Pair), s.sweeps p = true →
      let x := s.pair p
      let s1 := ((s.count F.LP_SWEEP_CNT_COUNT p 0).modPair p fun y => { y with sig := none }).sched 1 (.sweepSnapshot p)
      let old : Copy × Copy := match x.before with
        | some (l, m, c) => if l = s.now then (m, c) else (x.main, x.chk)
        | none => (x.main, x.chk)
      exec (.sweepSnapshot p) s = .next ((s.modPair p fun y =>
        { y with sig := some (crc32c old.1.swept, crc32c old.2.swept) }).sched 511 (.signatureCompare p)) ∧
      (∀ u v, x.sig = some (u, v) →
        (u = v → exec (.signatureCompare p) s = .next s1) ∧
        (u ≠ v → s.isLate = false → exec (.signatureCompare p) s = .next (s.defer (.signatureCompare p))) ∧
        (u ≠ v → s.isLate = true → s1.fld F.LP_LS_CFG_LATENT p 0 = 0 → exec (.signatureCompare p) s = .next (s1.mismatch p 7)) ∧
        (u ≠ v → s.isLate = true → s1.fld F.LP_LS_CFG_LATENT p 0 ≠ 0 → s1.flag F.LP_LS_STAT_LATPEND p 0 = false →
          exec (.signatureCompare p) s = .next ((s1.setFld F.LP_LS_STAT_LATPEND p 0 1).sched
            (s.fld F.LP_LS_CFG_LATMAX p 0 * 512) (.latmaxExpiry p)))) ∧
      (s.flag F.LP_LS_STAT_LATPEND p 0 = true → exec (.latmaxExpiry p) s = .next (s.mismatch p 7)))

/-! ## Event controller -/

/-- Event occurrences and writes to the event controller's registers (R288, R289, R292 to R294): an occurrence sets the pending
bit or merges; a write acts on the sources its writer owns unless locked, whose writes are held, and FOREIGN counts one that names
another's (once a write: the model's reading, log entry 25); a clear in the cycle of an occurrence, or of a write that sets it, leaves it
pending (Table 11.6); a number that no chapter assigns never fires, nor in Maintenance one of the stopped matrix (Table 11.7); a
completion ends a source active on its writer or is spurious. Which writes fall in one cycle is the model's reading (log entry 126).

Interrupts (R290 to R292): a pair that can take its offer locks the source and enters INTERRUPT with the source's PRIO and
number; two cycles later the source is no longer pending and is active on that pair. What a pair is offered is pending, unmasked,
inactive, routed to it and of higher priority than the pair's ceiling, as ceilings and active sources stood at the start of the cycle
(Table 11.6). An acknowledge of one copy alone is a mismatch (R247). -/
def Obligations.EventsAndInterrupts : Prop :=
  (∀ (s : State) (r : Req) (n : SrcId) (j : Fin 16) (v : Word),
      let set1 (b : BitVec 512) (k : SrcId) : BitVec 512 := b ||| BitVec.twoPow 512 k
      let clr1 (b : BitVec 512) (k : SrcId) : BitVec 512 := b &&& ~~~BitVec.twoPow 512 k
      let ns := (namedSrcs j v).filter fun k => r.owns (s.srcOwner k)
      let done (t : State) : State :=
        if (namedSrcs j v).any fun k => !r.owns (s.srcOwner k) then t.bump F.EVC_ERR_CNT_FOREIGN 0 0 else t
      let a := s.opened r.master
      let setIn (t : State) (k : SrcId) : Prop := ∃ b, CycAcc.pend b ∈ t.cyc ∧ b.getLsbD k = true
      let quiet := ∀ k : SrcId, s.evc.locked k = false ∧ s.evc.occ.getLsbD k = false ∧ ¬setIn a k
      (s.mode.cores = true → (s.mode = .maintenance → 0x040 ≤ n.val) → assigned n = true →
        let o : State := { s with evc := { s.evc with occ := set1 s.evc.occ n } }
        (s.evc.pend.getLsbD n = false → exec (.evcEvent n) s = .next { o with evc := { o.evc with pend := set1 s.evc.pend n } }) ∧
        (s.evc.pend.getLsbD n = true → exec (.evcEvent n) s = .next (o.bump F.EVC_ERR_CNT_MERGE 0 0))) ∧
      (s.mode.cores = false ∨ (s.mode = .maintenance ∧ n.val < 0x040) → exec (.evcEvent n) s = .next s) ∧
      (s.evcOccur 0x18A = s ∧ ∀ k, assigned k = false → s.evcOccur k = s) ∧
      (s.admits r .write .EVC_PEND_SETj j 0 → exec (.evcPendSet r j v) s =
        .next (done (ns.foldl State.evcOccur { a with cyc := .pend (ns.foldl set1 0) :: a.cyc }))) ∧
      (s.admits r .write .EVC_PEND_CLRj j 0 → quiet → exec (.evcPendClr r j v) s =
        .next (done { a with evc := { s.evc with pend := ns.foldl clr1 s.evc.pend } })) ∧
      (s.admits r .write .EVC_MASK_SETj j 0 → quiet → exec (.evcMaskSet r j v) s =
        .next (done { a with evc := { s.evc with mask := ns.foldl set1 s.evc.mask } })) ∧
      (s.admits r .write .EVC_MASK_CLRj j 0 → quiet → exec (.evcMaskClr r j v) s =
        .next (done { a with evc := { s.evc with mask := ns.foldl clr1 s.evc.mask } })) ∧
      (∀ b, s.evc.locked n = true → s.evcMask b n = { s with evc := { s.evc with
          held := s.evc.held ++ [if b then .maskSet n else .maskClr n] } } ∧
        (s.evc.occ.getLsbD n = false → ¬setIn s n →
          s.evcPendClear n = { s with evc := { s.evc with held := s.evc.held ++ [.pendClr n] } })) ∧
      (s.evc.occ.getLsbD n = true ∨ setIn s n → s.evcPendClear n = s) ∧
      (∀ p : Pair, r.pair = some p → s.admits r .write .EVC_CMPL 0 0 →
        let k : SrcId := Fin.ofNat 512 (getBits v 8 0)
        exec (.evcCmpl r v) s = .next (if s.evc.act[p].getLsbD k
          then { a with evc := { s.evc with act := vset s.evc.act p (clr1 s.evc.act[p] k) } }
          else a.bump F.EVC_SPURIOUS_CMPL_COUNT 0 0)) ∧
      (∀ k, k ∈ namedSrcs j v ↔ k.val / 32 = j.val ∧ v.getLsbD (k.val % 32) = true)) ∧
  (∀ (s : State) (p : Pair) (n : SrcId),
      (∀ q : Pair, q ≠ p → s.offers[q] = none) → s.offers[p] = some n → s.takesOffer p = true →
      let x := s.pair p
      let prio := s.fld F.EVC_SRCn_CFG_PRIO n 0
      let cfg := s.reg .EVC_SRCn_CFG n 0
      let u : State := { s with evc := { s.evc with lock := vset s.evc.lock p (some n) } }
      (x.main.ie ≠ x.chk.ie → exec .interruptOffer s = .next (s.mismatch p 4)) ∧
      (x.main.ie = x.chk.ie → x.fpOut = none → s.flag F.LP_LS_STAT_LATPEND p 0 = false →
        exec .interruptOffer s = .next (u.takeEntry p ⟨0x01, prio * 4096 + n.val, x.resume, 0⟩)) ∧
      s.evc.pend.getLsbD n = true ∧ s.evc.mask.getLsbD n = false ∧ s.evc.busy.getLsbD n = false ∧
      s.evc.locked n = false ∧ cfg.getLsbD (8 + p.val) = true ∧ prio < s.evc.ceil[p] ∧ s.evc.ie[p] = true ∧
      (s.srcOwner n = s.evc.tid[p] ∨ s.evc.tid[p] = 0) ∧
      (let w := s.evcTick
       w.evc.ceil[p] ≤ w.fld F.EVC_TGTk_THR_THR p 0 ∧
       (∀ m : SrcId, w.evc.act[p].getLsbD m = true → w.evc.busy.getLsbD m = true ∧ w.evc.ceil[p] ≤ w.fld F.EVC_SRCn_CFG_PRIO m 0) ∧
       w.evc.ie[p] = (w.pair p).main.ie ∧ w.evc.tid[p] = (w.pair p).tid) ∧
      (let t := u.evcAccept p
       t.evc.act[p].getLsbD n = true ∧ t.evc.lock[p] = none ∧ (∀ q : Pair, q ≠ p → t.evc.act[q] = s.evc.act[q]) ∧
       t.evc.pend.getLsbD n = false ∧ t.fld F.EVC_TGTk_STAT_LAST p 0 = n.val ∧
       t.evc.rr = if s.flag F.EVC_SRCn_CFG_CLASS n 0 then s.evc.rr else p + 1))

/-! ## Queues, buffer pool, semaphores -/

/-- What a queue holds (R340, R341, R345, R346, R348): a word written goes behind the items, with its tags; a pop takes the first;
FLUSH leaves none; DROP_PKT drops up to the first gap marker or past the first EOP; a write that brings the fill to HI raises the
fill event.

Bus accesses to queues (R342, R344 to R346): pushes, pops, FLUSH and DROP_PKT by those who may, and what happens to the rest. In
one bus cycle a push is judged before the pops of the cycle, a pop finds no item that the cycle pushed, and DROP_PKT acts before the
pushes (R354). -/
def Obligations.Queues : Prop :=
  (∀ (s : State) (q : QId) (w : Word) (tags : BitVec 2), s.queueSound q →
      let items := s.items q
      let t := s.qWrite q w tags
      items.length = s.qFill q ∧
      (s.qFill q < s.qDepth q → t.queueSound q ∧ t.items q = items ++ [(w, tags)] ∧
        (∀ a, a < qAddr (s.qSlot q (s.qWr q)) ∨ qAddr (s.qSlot q (s.qWr q)) + 4 ≤ a → t.byte a = s.byte a) ∧
        t.cal = s.cal ++ (if s.qFill q + 1 = s.fld F.Qn_MARK_HI q 0 then [(s.now + 1, .evcEvent (Fin.ofNat 512 (0x080 + q.val)))]
                          else [])) ∧
      (∀ x xs, items = x :: xs → (s.qPop q).1 = x.1 ∧ (s.qPop q).2.items q = xs ∧ (s.qPop q).2.queueSound q) ∧
      (items = [] → s.qPop q = (0, s.bump F.Qn_UNDER_COUNT q 0)) ∧
      (s.qFlush q).items q = [] ∧
      (∀ k, k < items.length → (∀ i < k, (items[i]?).any (fun x => x.2 = 0) = true) →
        (items[k]?).any (fun x => x.2.getLsbD 1) = true → (s.qDropPkt q).items q = items.drop k) ∧
      (∀ k, k < items.length → (∀ i < k, (items[i]?).any (fun x => x.2 = 0) = true) →
        (items[k]?).any (fun x => !x.2.getLsbD 1 && x.2.getLsbD 0) = true → (s.qDropPkt q).items q = items.drop (k + 1)) ∧
      ((∀ x ∈ items, x.2 = 0) → (s.qDropPkt q).items q = [] ∧ (s.qDropPkt q).flag F.Qn_STAT_DROPPING q 0 = true)) ∧
  (∀ (s : State) (r : Req) (q : QId) (w : Word),
      let a := s.opened r.master
      let mine := r.owns (s.queueOwner q)
      let count := a.bump F.Q_ERR_CNT_FOREIGN 0 0
      (∀ f ∈ [(Instr.queuePush r q w, RegName.Qn_TAIL, false), (.queuePushEop r q w, .Qn_TAIL_EOP, true)],
        let (i, reg, eop) := f
        let room := s.qFill q + (a.cyc.countP fun c => c = .pop q) + 2 ≤ s.qDepth q
        s.admits r .write reg q 0 →
          (s.qCredit q = true → exec i s = .next { a with ans := ⟨0, true⟩ }) ∧
          (s.qCredit q = false → s.mayPush r.tenant q = false → exec i s = .next count) ∧
          (s.qCredit q = false → s.mayPush r.tenant q = true → ∃ c, exec i s = .next
            (let t := if s.flag F.Qn_STAT_DROPPING q 0 = true then (if eop then a.setFld F.Qn_STAT_DROPPING q 0 0 else a)
               else if room then a.qWrite q w (if eop then 1 else 0) else a.qDrop q
             { t with cyc := c :: t.cyc }) ∧ (match c with | .push k v e _ _ _ _ => k = q ∧ v = w ∧ e = eop | _ => False))) ∧
      (s.admits r .read .Qn_HEAD q 0 →
        let left := a.qFill q - a.cycAdded q
        (s.mayPop r q = true → 0 < left → ∃ t : State, t = (a.qPop q).2 ∧
          exec (.queuePop r q) s = .next ({ t with cyc := .pop q :: t.cyc }.answer (a.qPop q).1)) ∧
        (s.mayPop r q = true → left = 0 → exec (.queuePop r q) s = .next ((a.bump F.Qn_UNDER_COUNT q 0).answer 0)) ∧
        (s.mayPop r q = false → exec (.queuePop r q) s = .next (count.answer 0)) ∧ (a.cycPushes q = [] → left = s.qFill q)) ∧
      (s.admits r .write .Qn_CTRL q 0 →
        exec (.queueFlush r q) s = .next (if mine then a.qFlush q else count) ∧
        exec (.dropPkt r q) s = .next (if mine then a.qDropFirst q else count) ∧
        (a.cycPushes q = [] → a.qDropFirst q = a.qDropPkt q)) ∧
      (s.queueSound q → ∀ x xs, s.items q = xs ++ [x] → x.2.getLsbD 1 = true → getBits x.1 15 0 < 65535 →
        (s.qDrop q).items q = xs ++ [(x.1 + 1, x.2)]) ∧
      (s.queueSound q → s.qFill q < s.qDepth q → (∀ x xs, s.items q = xs ++ [x] → x.2.getLsbD 1 = false) →
        (s.qDrop q).items q = s.items q ++ [(1, 2)]) ∧
      (s.qDrop q).fld F.Qn_DROPS_COUNT q 0 = min 0xFFFFFFFF (s.fld F.Qn_DROPS_COUNT q 0 + 1))

/-- The buffer pool (R349 to R351): allocation of the lowest free buffer, frees and gives by its owner, and what is refused; of two
pairs that read in one cycle the lower one receives the lower buffer (R354). What a disabled pool answers is the model's reading (log
entry 80).

Semaphores (R352, R353): a pair takes a free one and reads GOT, its write of 0 releases it, T0 at Monitor can force it; a release
applies before a read of its cycle, whose pair then holds it (R354); of several pairs that read a free one in one cycle the lowest
acquires it. A nonzero write by the holder leaves it held (the model's
choice, log entry 60). -/
def Obligations.BuffersAndSemaphores : Prop :=
  (∀ (s : State) (r : Req) (v : Word) (i : Fin 4096),
      let a := s.opened r.master
      let size := 2 ^ s.fld F.Q_POOL_CFG_LOG2SZ 0 0
      let base := (s.reg .Q_POOL_BASE 0 0).toNat
      let free := s.fld F.Q_POOL_STAT_FREE 0 0
      let own := s.fld F.Q_POOL_TAGi_OWNER i 0
      let at_ (x : Nat) : Prop := s.fld F.Q_POOL_CFG_LOG2SZ 0 0 ≠ 0 ∧ x = base + i.val * size
      let fault (t : State) : State := t.evcRaise (Fin.ofNat 512 (0x180 + own))
      let got (t : State) : State := match r.pair with
        | some p => { t with cyc := .alloc p i :: t.cyc }
        | none => t
      (s.admits r .read .Q_POOL_ALLOC 0 0 →
        ((∀ p, r.pair = some p → a.allocsAbove p = []) →
          (s.poolOn = true → s.bufHeld i = false → (∀ k < i, s.bufHeld k = true) → exec (.poolAlloc r) s = .next
            ((got ((a.setReg .Q_POOL_TAGi i 0 (BitVec.ofNat 32 (8 + r.tenant.val))).setFld F.Q_POOL_STAT_FREE 0 0 (free - 1))).answer
              (BitVec.ofNat 32 (base + i.val * size)))) ∧
          ((s.poolOn = false ∨ ∀ k, s.bufHeld k = true) → exec (.poolAlloc r) s = .next ((a.evcRaise 0x188).answer 0xFFFFFFFF))) ∧
        (∀ (p q : Pair) (k : Fin 4096), r.pair = some p → a.allocsAbove p = [(q, k)] → s.poolOn = true → s.bufHeld i = false →
          (∀ k < i, s.bufHeld k = true) → ∃ t, exec (.poolAlloc r) s = .next t ∧ t.ans.data = BitVec.ofNat 32 (base + min i.val k.val * size) ∧
            (t.pair q).stall = ((s.pair q).stall.map fun l =>
              { l with val := (BitVec.ofNat 32 (base + max i.val k.val * size)).setWidth 64 }) ∧
            t.fld F.Q_POOL_TAGi_OWNER (min i.val k.val) 0 = r.tenant.val ∧
            t.fld F.Q_POOL_TAGi_OWNER (max i.val k.val) 0 = (s.bufOwner k).val)) ∧
      (s.admits r .write .Q_POOL_FREE 0 0 → at_ v.toNat →
        (s.bufHeld i = true → own = r.tenant.val → exec (.poolFree r v) s = .next
          ((a.setFld F.Q_POOL_TAGi_ALLOC i 0 0).setFld F.Q_POOL_STAT_FREE 0 0 (free + 1))) ∧
        (s.bufHeld i = true → own ≠ r.tenant.val → exec (.poolFree r v) s = .next (fault (a.bump F.Q_POOL_ERR_FOREIGN 0 0))) ∧
        (s.bufHeld i = false → exec (.poolFree r v) s = .next (fault (a.bump F.Q_POOL_ERR_DOUBLE 0 0)))) ∧
      (s.admits r .write .Q_POOL_GIVE 0 0 → at_ (v &&& 0xFFFFFF00).toNat →
        (s.bufHeld i = true → own = r.tenant.val → exec (.poolGive r v) s = .next (a.setFld F.Q_POOL_TAGi_OWNER i 0 (v.toNat % 8))) ∧
        ((s.bufHeld i = false ∨ own ≠ r.tenant.val) →
          exec (.poolGive r v) s = .next (fault (a.bump F.Q_POOL_ERR_FOREIGN 0 0)))) ∧
      ((∀ k : Fin 4096, ¬(s.poolOn = true ∧ v.toNat = base + k.val * size)) → s.admits r .write .Q_POOL_FREE 0 0 →
        exec (.poolFree r v) s = .next (a.bump F.Q_POOL_ERR_FOREIGN 0 0))) ∧
  (∀ (s : State) (r : Req) (n : Fin 64) (v : Word) (p : Pair),
      let a := s.opened r.master
      let w := BitVec.ofNat 32 (r.tenant.val * 4096 + p.val * 512 + 256)
      let held := s.flag F.Q_SEMn_HELD n 0
      let mine := held = true ∧ s.fld F.Q_SEMn_PAIR n 0 = p.val
      let holder (q : Pair) : Word := BitVec.ofNat 32 ((s.pair q).tid.val * 4096 + q.val * 512 + 256)
      (s.admits r .read .Q_SEMn n 0 →
        (r.pair = some p → held = false →
          exec (.semAcquire r n) s = .next (({ a with cyc := .got p n :: a.cyc }.setReg .Q_SEMn n 0 w).answer (w + 1))) ∧
        (r.pair = some p → held = true → a.semTaker p n = none →
          exec (.semAcquire r n) s = .next ({ a with cyc := .want p n :: a.cyc }.answer (s.reg .Q_SEMn n 0))) ∧
        (∀ q, r.pair = some p → held = true → a.semTaker p n = some q → ∃ t, exec (.semAcquire r n) s = .next t ∧
          t.reg .Q_SEMn n 0 = w ∧ t.ans.data = w + 1 ∧
          (t.pair q).stall = ((s.pair q).stall.map fun l => { l with val := w.setWidth 64 })) ∧
        (r.pair = none → exec (.semAcquire r n) s = .next (a.answer (s.reg .Q_SEMn n 0)))) ∧
      (s.admits r .write .Q_SEMn n 0 →
        (r.pair = some p → mine →
          (v ≠ 0 → exec (.semRelease r n v) s = .next a) ∧
          (v = 0 → a.semWaiter n = none → exec (.semRelease r n v) s = .next (a.setReg .Q_SEMn n 0 0)) ∧
          (∀ q : Pair, v = 0 → a.semWaiter n = some q → ∃ t, exec (.semRelease r n v) s = .next t ∧
            t.reg .Q_SEMn n 0 = holder q ∧ (t.pair q).stall = (s.pair q).stall.map fun l => { l with val := (holder q + 1).setWidth 64 })) ∧
        ((r.pair = some p → ¬mine) → (r.pair = some p ∨ r.pair = none) →
          exec (.semRelease r n v) s = .next (a.bump F.Q_ERR_CNT_SEMREL 0 0))) ∧
      (s.admits r .write .Q_SEM_FORCE 0 0 →
        (r.t0mon = false → exec (.semForce r v) s = .next a) ∧
        (r.t0mon = true → v.toNat % 64 = n.val → a.semWaiter n = none → exec (.semForce r v) s = .next (a.setReg .Q_SEMn n 0 0)) ∧
        (∀ q : Pair, r.t0mon = true → v.toNat % 64 = n.val → a.semWaiter n = some q → ∃ t, exec (.semForce r v) s = .next t ∧
          t.reg .Q_SEMn n 0 = holder q ∧ (t.pair q).stall = (s.pair q).stall.map fun l => { l with val := (holder q + 1).setWidth 64 })))

/-! ## DMA -/

/-- Starts and aborts of DMA channels (R327, R328, R334 to R336): a start arms the chain or counts an overrun; an abort of a chain
not executing ends it with code 7, of one executing stops its block; a peripheral request starts the channels of its line.

Blocks of the DMA engine (R330 to R332, R334, R335): a block takes the longest whole number of groups of what is left and of
what its queues let it move that needs at most 4,096 beat cycles; a descriptor of CNT 0 ends in the cycle after its fetch; at the end
of a block its bytes are moved, DCHn_CNT says what is left, and the last block ends the descriptor; a read or a write that fails ends the
chain with its code, and an aborted block ends it with code 7 once its beat is made; a beat that waits lengthens the block. The place of
the setup cycles is log entry 50, that queues move one item a unit log entry 77. -/
def Obligations.DmaChannels : Prop :=
  (∀ (s : State) (r : Req) (n : Chan) (line : Fin 32) (code : Nat) (v : Word), code < 256 →
      let a := s.opened r.master
      let mine := r.owns (s.dmaOwner n)
      let busy := s.flag F.DCHn_STAT_BUSY n 0
      let armed (t : State) : State :=
        let u := ((t.setFld F.DCHn_STAT_BUSY n 0 1).setReg .DCHn_CUR n 0 (s.reg .DCHn_DESC n 0 &&& 0xFFFFFFE0))
        let u := { u with dma := { u.dma with ch := vset u.dma.ch n ⟨none, 0, 0, none⟩ } }
        if s.dma.block.isNone then u.emitOnce .dmaBlockStart else u
      (s.admits r .write .DCHn_CTRL n 0 → s.mode.cores = true →
        (mine = false → ∀ i ∈ [Instr.dmaStart r n, .dmaAbort r n], exec i s = .next (a.bump F.DMA_ERR_CNT_FOREIGN 0 0)) ∧
        (mine = true → s.fld F.DCHn_CFG_REQ n 0 < 2 ∨ busy = true →
          exec (.dmaStart r n) s = .next (if busy then a.bump F.DCHn_OVR_OVR n 0 else armed a)) ∧
        (mine = true → 2 ≤ s.fld F.DCHn_CFG_REQ n 0 → busy = false → exec (.dmaStart r n) s = .next a) ∧
        (mine = true → busy = false → exec (.dmaAbort r n) s = .next a) ∧
        (mine = true → busy = true → s.dmaExec n = false → exec (.dmaAbort r n) s = .next (a.dmaFail n 7)) ∧
        (∀ b, mine = true → busy = true → s.dma.block = some b → b.chan = n → exec (.dmaAbort r n) s = .next
          ({ a with dma := { s.dma with block := some { b with stop := true } } }.emitOnce .dmaBlockEnd))) ∧
      (mine = false → ∀ f ∈ [RegName.DCHn_CFG, .DCHn_DESC, .DCHn_CTRL, .DCHn_STAT, .DCHn_CNT, .DCHn_CUR, .DCHn_OVR],
        s.regWrite r f n 0 v = s.bump F.DMA_ERR_CNT_FOREIGN 0 0) ∧
      (s.mode.cores = true → (∀ k : Chan, (s.fld F.DCHn_CFG_REQ k 0 = 2 ∧ s.fld F.DCHn_CFG_PREQ k 0 = line.val) ↔ k = n) →
        exec (.dmaPeripheralRequest line) s = .next (if busy then s.bump F.DCHn_OVR_OVR n 0 else armed s)) ∧
      (let t := s.dmaFail n code
       t.flag F.DCHn_STAT_BUSY n 0 = false ∧ t.flag F.DCHn_STAT_REQ n 0 = false ∧ t.fld F.DCHn_STAT_ERR n 0 = code ∧
       t.cal = s.cal ++ [(s.now + 1, .evcEvent (Fin.ofNat 512 (0x041 + 2 * n.val)))] ∧
       t = { s with regs := t.regs, cal := t.cal, hits := t.hits, dma := { s.dma with ch := vset s.dma.ch n ⟨none, 0, 0, none⟩ } } ∧
       ∀ q, s.dma.ch[n].on = some q → t.flag F.Qn_STAT_REQ q 0 = false)) ∧
  (∀ (s : State) (n : Chan) (d : DmaDesc) (b : DmaBlock),
      let w := (List.finRange 32).foldl State.dmaPace (s.unsched .dmaBlockStart)
      let wait (t : State) : State := t.sched (2 - s.now % 2) .dmaBlockStart
      (s.dma.block = none → s.mode.cores = true → s.sys.retReq = false →
        ((∀ k, w.dmaEmptyEnds k = false) →
          (w.dmaEmptyWaits = true → exec .dmaBlockStart s = .next (wait w)) ∧
          (w.dmaEmptyWaits = false → w.dmaChoose = none → exec .dmaBlockStart s = .next w) ∧
          (w.dmaEmptyWaits = false → w.dmaChoose = some n →
            let v := if s.dma.ch[n].desc.isNone then (w.dmaFetch n).dmaPace n else w
            let o := v.dma.ch[n].done
            (v.dmaEmptyWaits = true → exec .dmaBlockStart s = .next (wait v)) ∧
            (v.dmaEmptyWaits = false → v.dma.ch[n].desc = none →
              exec .dmaBlockStart s = .next (if (List.finRange 32).any v.dmaCan then v.emit .dmaBlockStart else v)) ∧
            (v.dmaEmptyWaits = false → v.dma.ch[n].desc = some d → v.dmaCan n = true → d.cnt < 2 ^ 32 → ∃ t k rp wp,
              exec .dmaBlockStart s = .next t ∧
              t.dma.block = some ⟨n, k, s.now, v.dmaCycles d rp wp o k, 0, o, rp, wp, [], [], false⟩ ∧
              (∀ q, sideQueue d.srcmode d.src = some q → rp = v.qRd q) ∧ (∀ q, sideQueue d.dstmode d.dst = some q → wp = v.qWr q) ∧
              k % d.group = 0 ∧ k ≤ v.dmaRest d o ∧ v.dmaCycles d rp wp o k ≤ 4096 ∧
              (k + d.group ≤ v.dmaRest d o → 4096 < v.dmaCycles d rp wp o (k + d.group)) ∧
              t.dma.ch = v.dma.ch ∧ t.regs = v.regs ∧ t.mem = v.mem ∧
              t.cal = (v.sched (2 * (4 + v.dmaCycles d rp wp o k)) .dmaBlockEnd).cal))) ∧
        ((∀ k, w.dmaEmptyEnds k = true ↔ k = n) → w.dma.ch[n].desc = some d →
          let e := w.dmaDescEnd n d
          e.dmaEmptyWaits = false → e.dmaChoose = none → exec .dmaBlockStart s = .next e)) ∧
      (s.dma.block = some b → s.dma.ch[b.chan].desc = some d →
        let o := s.dma.ch[b.chan].done
        let mv := s.dmaMove (s.dmaReq b.chan) d ⟨b.rd, b.wr⟩ (o / d.group) ((b.o + b.bytes - o) / d.group)
        let fl := mv.2.2.2.dmaFlush (s.dmaReq b.chan) d.dstUnit mv.2.2.1.wr
        let stop := s.dmaFlush (s.dmaReq b.chan) d.dstUnit b.wr
        let now := o + mv.2.1 * d.group
        let left (v : State) (k : Nat) : State := (v.dmaDone b.chan d k).dmaFreed
        let more (v : State) : State :=
          if !v.sys.retReq && (List.finRange 32).any v.dmaCan then v.emit .dmaBlockStart else v
        (b.stop = false → mv.1 = .moved → fl.1 = [] →
          (now ≠ d.cnt → exec .dmaBlockEnd s = .next (more (left fl.2 now))) ∧
          (now = d.cnt → exec .dmaBlockEnd s = .next (more ((left fl.2 now).dmaDescEnd b.chan d)))) ∧
        (b.stop = false → mv.1 = .moved → fl.1 ≠ [] →
          exec .dmaBlockEnd s = .next (more ((left fl.2 (d.made now fl.1)).dmaFail b.chan 6))) ∧
        (b.stop = false → ∀ e, mv.1 = .readErr e → exec .dmaBlockEnd s = .next (more
          ((left fl.2 (d.made now fl.1)).dmaFail b.chan (if fl.1 = [] then e else 6)))) ∧
        (b.stop = false → mv.1 = .writeErr →
          exec .dmaBlockEnd s = .next (more ((left mv.2.2.2 (d.made now mv.2.2.1.wr)).dmaFail b.chan 6))) ∧
        (b.stop = true → stop.1 = [] → exec .dmaBlockEnd s = .next (more
          (if o = d.cnt ∧ d.last = true then (left stop.2 o).dmaDescEnd b.chan d else (left stop.2 o).dmaFail b.chan 7))) ∧
        (b.stop = false → s.dmaHeld b d = true →
          s.dmaBlockCycle.dma.block = some { b with waits := b.waits + 1 } ∧
          s.dmaBlockCycle.cal = s.cal.map fun e => if e.2 = .dmaBlockEnd then (e.1 + 2, e.2) else e)) ∧
      (∀ v : State, ∀ k : Nat, (v.dmaDone n d k).dma.ch[n].done = k ∧
        (v.dmaDone n d k).reg .DCHn_CNT n 0 = BitVec.ofNat 32 (d.cnt - k)))

/-- What the engine moves (R330, R337, R338, R340). Between SRAM and SRAM, where source and destination do not overlap and no STC of
the same cycle yields (R271), every element reaches its place, in plain copies and in interleaves (whose elements the windows must
admit, log entry 78), bit i of output b is bit b of input i in bit-plane groups, and no other byte changes. A source queue gives up its
items in order, a destination queue takes one item a unit (log entry 77). -/
def Obligations.DmaCopies : Prop :=
  ∀ (s : State) (n : Chan) (d : DmaDesc) (g k : Nat),
    let r := s.dmaReq n
    let c := d.counts
    let mv := s.dmaMove r d ⟨[], []⟩ g k
    let fl := mv.2.2.2.dmaFlush r d.dstUnit mv.2.2.1.wr
    let t := fl.2
    let sram (a : Nat) : Prop := 0x20000000 ≤ a ∧ a < 0x21800000
    let src (a : Nat) : Prop := ∃ j, g * c.1 ≤ j ∧ j < (g + k) * c.1 ∧ d.srcAddr j ≤ a ∧ a < d.srcAddr j + d.srcUnit
    let dst (a : Nat) : Prop := ∃ j, g * c.2 ≤ j ∧ j < (g + k) * c.2 ∧ d.dstAddr j ≤ a ∧ a < d.dstAddr j + d.dstUnit
    d.esz < 3 → s.upset = [] → (∀ (q : Pair) (c : StcRec), (s.pair q).stc = some c → c.lc ≠ s.now) →
    (d.srcmode = 0 → (∀ a, src a → sram a) ∧ (d.xf = 1 → ∀ j, g ≤ j → j < g + k → s.windowOk r .read (d.srcAddr j) d.size = true)) →
    (d.dstmode = 0 → (∀ a, dst a → sram a) ∧
      ∀ i j, i < j → j < (g + k) * c.2 → g * c.2 ≤ i → d.dstAddr i + d.dstUnit ≤ d.dstAddr j ∨ d.dstAddr j + d.dstUnit ≤ d.dstAddr i) →
    (d.srcmode = 0 → d.dstmode = 0 → d.xf < 4 → (∀ a, src a → ¬dst a) →
      mv.1 = .moved ∧ mv.2.1 = k ∧ fl.1 = [] ∧ t.regs = s.regs ∧ (∀ a, ¬dst a → t.byte a = s.byte a) ∧
      (d.xf < 3 → ∀ j, g ≤ j → j < g + k → ∀ i < d.size, t.byte (d.dstAddr j + i) = s.byte (d.srcAddr j + i)) ∧
      (d.xf = 3 → ∀ m b i, g ≤ m → m < g + k → b < c.2 → i < c.1 →
        (t.readLE (d.dstAddr (m * c.2 + b)) d.dstUnit).testBit i = (s.readLE (d.srcAddr (m * c.1 + i)) d.srcUnit).testBit b)) ∧
    (∀ q : QId, d.srcmode = 2 → q = Fin.ofNat 256 d.src → d.dstmode = 0 → d.xf = 0 → s.queueSound q → s.cycPushes q = [] →
      k ≤ s.qFill q →
      mv.1 = .moved ∧ mv.2.1 = k ∧ fl.1 = [] ∧ t.items q = (s.items q).drop k ∧ (∀ a, ¬dst a → t.byte a = s.byte a) ∧
      ∀ j < k, t.readLE (d.dstAddr (g + j)) d.size = ((s.items q)[j]?.map fun x => x.1.toNat % 256 ^ d.size).getD 0) ∧
    (∀ q : QId, d.dstmode = 2 → q = Fin.ofNat 256 d.dst → d.srcmode = 0 → d.xf = 0 → s.queueSound q → s.qCredit q = true →
      s.flag F.Qn_STAT_DROPPING q 0 = false → s.qFill q + k ≤ s.qDepth q →
      mv.1 = .moved ∧ mv.2.1 = k ∧ fl.1 = [] ∧
      t.items q = s.items q ++ (List.range k).map fun j => (BitVec.ofNat 32 (s.readLE (d.srcAddr (g + j)) d.size), 0))

/-! ## Flash -/

/-- The key, the wait states and flash commands (R312, R315, R316): the key arms the next write; a command that nothing refuses
starts in its bank with its journal record, a refused one leaves its code; FL_WS takes WSMIN or more. A pair's load from the bank in
the same bus cycle takes the busy word (Table 12.8). How long a command takes and whether it verifies is free (log entry 42); the order of
the refusals is log entry 44. -/
def Obligations.FlashCommands : Prop :=
  ∀ (s : State) (r : Req) (v : Word),
    let a := s.opened r.master
    let addr := (s.reg .FL_ADDR 0 0).toNat
    let b := flBank addr
    let k := flSector addr
    let unkey (t : State) : State := { t with fl := { t.fl with key := false } }
    let started (t : State) (c : FlashCmd) (j : JRec) (most : Nat) : State :=
      let d := Config.flashTime s.fresh % most + 1
      let t := t.modFB b fun x => { x with cmd := some c, since := s.now, dur := d, jrow := j :: x.jrow, streams := [] }
      ((t.unsched (.refreshStep b)).draw).sched d (.flashCommandDone b (Config.flashOk s.fresh))
    (s.admits r .write .FL_KEY 0 0 → exec (.flKeyWrite r v) s = .next { a with fl := { s.fl with key := decide (v = 0x5AF0) } }) ∧
    (s.admits r .write .FL_WS 0 0 →
      let ws := v.toNat % 16
      let least := s.fld F.FL_WS_WSMIN 0 0
      (least ≤ ws → exec (.flWsWrite r v) s = .next (unkey (a.setFld F.FL_WS_WS 0 0 ws))) ∧
      (ws < least → exec (.flWsWrite r v) s = .next (unkey ((a.setFld F.FL_WS_WS 0 0 least).raiseFld F.FL_STAT_WSCLAMP 0 0 1)))) ∧
    let alone := ∀ c ∈ a.cyc, match c with
      | .load _ k _ _ => k ≠ b
      | .fill _ k _ => k ≠ b
      | _ => True
    (∀ (p : Pair) x y prog, s.cyc = [.load p b x y] → s.flLateBusy b prog =
      s.setPair p { s.pair p with stall := (s.pair p).stall.map fun l => { l with val := if prog then x else y } }) ∧
    (s.admits r .write .FL_CMD 0 0 →
      (∀ e, s.flRefusal r 1 = some e → exec (.flashProgram r) s = .next (unkey (a.raiseFld F.FL_STAT_ERR 0 0 e))) ∧
      (∀ e, s.flRefusal r 2 = some e → exec (.flashErase r) s = .next (unkey (a.raiseFld F.FL_STAT_ERR 0 0 e))) ∧
      (s.flRefusal r 1 = none → alone → exec (.flashProgram r) s = .next (started
        ((unkey a).modFB b fun x => { x with progd := x.progd.put (flLine addr) true false })
        (.program addr ((List.range 8).flatMap fun i => Word.bytes (s.reg .FL_DATAi i 0))) (.progStart addr) 16000)) ∧
      (s.flRefusal r 2 = none → alone → exec (.flashErase r) s = .next (started (unkey a) (.erase k) (.eraseStart k) 32000000))) ∧
    (∀ op, (op = 1 ∨ op = 2) → (s.flRefusal r op = none ↔
      s.fl.key = true ∧ s.mode = .maintenance ∧ 0x10000000 ≤ addr ∧ addr < 0x12000000 ∧
      addr % (if op = 1 then 32 else 0x10000) = 0 ∧ s.windowOk r .write addr 1 = true ∧ s.flBusy b = false ∧
      (op = 1 → s.flIntr b k = false ∧ s.fl.banks[b].progd.get (flLine addr) false = false)))

/-- A flash command that verifies (R316, R318): a program writes its 32 bytes and no other, an erase leaves its sector reading 0xFF
and no longer interrupted; DONE is set, the event raised, the bank busy to the end of this cycle. One that does not verify sets code 7; the
bytes it was to write are free (log entry 43), as is whether it verifies (log entry 42).

Protection level and flash services (R320, R321, R323): a higher level waits for Reset, a lower one erases flash, clears memory
and enters Reset with the level set; a margin read of a line that differs queues its sector; the steps of a refresh copy the sector to
the spare, remap it, erase it, write it back and end it. Whether a line reads differently at margin is free (log entry 16), as is how
long a step takes (log entry 42); a requester below Monitor is log entry 44, what a step leaves of a line with an upset log entry 143, and
which journal records a step writes log entry 65. -/
def Obligations.FlashEndsAndServices : Prop :=
  (∀ (s : State) (b : FBank) (c : FlashCmd) (ok : Bool), s.mode = .maintenance → s.sys.retReq = false → s.sys.faultReq = none →
      s.fl.lower = none → s.fl.banks[b].cmd = some c → s.fl.banks[b].refr = none → s.fl.banks[b].queue = [] →
      (∀ a d, c = .program a d → d.length = 32 ∧ 0x10000000 ≤ a ∧ a + 32 ≤ 0x12000000) → (∀ k, c = .erase k → k < 128) →
      SMap.wf memDefault s.mem = true →
      ∃ t, exec (.flashCommandDone b ok) s = .next t ∧ t.fl.banks[b].cmd = none ∧ (t.fl.banks[b].ended.any fun e => e.2 = s.now) = true ∧
        (ok = true → t.flag F.FL_STAT_DONE 0 0 = true ∧ (s.now + 1, Instr.evcEvent 0x198) ∈ t.cal) ∧
        (ok = false → t.flag F.FL_STAT_DONE 0 0 = false ∧ t.fld F.FL_STAT_ERR 0 0 = 7 ∧ (s.now + 1, Instr.evcEvent 0x199) ∈ t.cal) ∧
        (∀ a d, c = .program a d →
          (ok = true → ∀ i < 32, some (t.byte (a + i)) = d[i]?) ∧ ∀ x, x < a ∨ a + 32 ≤ x → t.byte x = s.byte x) ∧
        (∀ k, c = .erase k →
          (ok = true → (∀ i < 0x10000, t.byte (flBase b k + i) = 0xFF) ∧ t.flIntr b k = false) ∧
          ∀ x, x < flBase b k ∨ flBase b k + 0x10000 ≤ x → t.byte x = s.byte x)) ∧
  (∀ (s : State) (r : Req) (level : BitVec 2) (b : FBank) (differs : Bool) (k n l : Nat),
      let a := s.opened r.master
      let unkey (t : State) : State := { t with fl := { t.fl with key := false } }
      let x := s.fl.banks[b]
      let clean := ∀ u, flBase b k ≤ u → u < flBase b k + 0x10000 → SMap.find? s.upset u = none
      let holds (t : State) (m : SMap Byte) : Prop := ∀ i < 0x10000, m.get i 0xFF = s.byte (flBase b k + i) ∧
        t.byte (flBase b k + i) = s.byte (flBase b k + i)
      (s.admits r .write .FL_PL_REQ 0 0 → s.fl.key = true → s.mode = .maintenance → r.isDebug = false → r.level = .monitor → level ≠ 3 →
        s.windowOk r .write (s.reg .FL_ADDR 0 0).toNat 1 = true → (∀ x : FBank, s.flBusy x = false) →
        (s.fld F.FL_PL_LEVEL 0 0 ≤ level.toNat → exec (.flPlReq r level) s =
          .next { unkey a with fl := { s.fl with key := false, nextPl := level.toNat } }) ∧
        (level.toNat < s.fld F.FL_PL_LEVEL 0 0 → exec (.flPlReq r level) s = .next ((unkey a).plErase level.toNat))) ∧
      (s.fl.lower = some level.toNat →
        ∃ t, exec .plLowerDone s = .next t ∧ t.sys.mode = .reset ∧ t.mem = [] ∧ t.fld F.FL_PL_LEVEL 0 0 = level.toNat ∧
          t.fl.lower = none ∧ t.sys.jrnl = []) ∧
      (s.mode ≠ .reset → s.mode ≠ .retention → s.flWorks b = false →
        (x.mpos = l → l < 262143 → s.flIntr b (l / 2048 % 128) = false →
          SMap.find? s.upset (flBase b 0 + l * 32) = none →
          exec (.marginScrubLine b differs) s = .next (((if differs then s.flQueue b (l / 2048) else s).modFB b fun x =>
            { x with mpos := l + 1 }).flRefresh b)) ∧
        (k < 128 → clean →
          (x.refr = some (k, n) → 1 ≤ n → n < 5 → ∃ t, exec (.refreshStep b) s = .next t ∧ t.fl.banks[b].refr = some (k, n + 1) ∧
            t.mem = s.mem ∧
            (n = 1 → holds t t.fl.banks[b].spare) ∧
            (n = 2 → t.fl.banks[b].jrow = .remap k :: x.jrow ∧ holds t t.fl.banks[b].own) ∧
            (n = 3 → t.fl.banks[b].own = []) ∧
            (n = 4 → holds t t.fl.banks[b].own)) ∧
          (x.refr = some (k, 5) → x.queue = [] →
            ∃ t, exec (.refreshStep b) s = .next t ∧ t.fl.banks[b].refr = none ∧
              t.fl.banks[b].spareWear = x.spareWear + 1 ∧ t.fl.banks[b].wear.get k 0 = x.wear.get k 0 + 1 ∧
              t.fl.banks[b].ceSec.get k 0 = 0 ∧ t.fl.banks[b].jrow.contains (.remap k) = false ∧
              t.fld F.FL_REFRESH_STAT_COUNT 0 0 = (s.fld F.FL_REFRESH_STAT_COUNT 0 0 + 1) % 65536 ∧ t.mem = s.mem))))

/-! ## Analogue-to-digital conversion -/

/-- Triggers (R71 to R75, R82): a trigger is noted, and those of one cycle are served together, urgent sequences first, then lower
numbers. Of an enabled sequence an idle converter starts the run, a busy sequence is an overrun, an urgent sequence preempts a normal
one, the rest wait; a disabled sequence or converter ignores it, Verify refuses it. A run starts with entry 0, acquired for ACQ
lc. Where in the lc they are served is log entry 1; the entries that a refusal marks are log entry 108.

Configuration of a converter (R66, R67, R70, R77): writes to an idle sequence are stored, to a busy one held; an invalid input is
ignored and counted; ACQ is at least 4; a changed input settles; a changed reference is not ready for 20 µs. -/
def Obligations.AdcTriggersAndConfiguration : Prop :=
  (∀ (s : State) (r : Req) (x : Conv) (q q2 : Fin 4) (v : Word),
      let a := s.adc[x]
      let noted (t : State) (k : Fin 4) : State :=
        t.modAdc x fun y => if y.trig.contains k then y else { y with trig := k :: y.trig }
      let on := s.flag F.ADCx_CTRL_EN x 0 && s.flag F.ADCx_SEQs_CFG_EN x q
      let urgent := s.adcUrgent x q
      let wait (t : State) : State := t.modAdc x fun k => { k with pend := k.pend ++ [⟨urgent, s.now, q⟩] }
      exec (.adcTrigger x q) s = .next (noted s q) ∧
      (s.admits r .write .ADCx_SWTRIG x 0 → exec (.adcSwtrig r x v) s =
        .next (((List.finRange 4).filter fun k => v.getLsbD k.val).foldl noted (s.opened r.master))) ∧
      (let u := s.modAdc x fun y => { y with trig := [] }
       ((∀ k, k ∈ a.trig ↔ k = q) → s.adcServeAll x = u.adcServe x q) ∧
       ((∀ k, k ∈ a.trig ↔ k = q ∨ k = q2) → q ≠ q2 → (urgent = true ∨ s.adcUrgent x q2 = false) →
         (urgent = s.adcUrgent x q2 → q < q2) → s.adcServeAll x = (u.adcServe x q).adcServe x q2)) ∧
      (on = false → s.adcServe x q = s) ∧
      (on = true → s.mode = .verify → s.adcServe x q = s.adcRefuse x q) ∧
      (on = true → s.mode.live = true →
        let o := s.adcServe x q
        (a.busy q = true → o = (s.bump F.ADCx_ERR_CNT_OVR x 0).raiseEv (adcSrc x + 5)) ∧
        (a.busy q = false → a.idle = true → o = s.adcRun x q) ∧
        (a.busy q = false → a.cur = none → a.idle = false → o = wait s) ∧
        ∀ c, a.busy q = false → a.cur = some c →
          (urgent = false ∨ c.ghost = true ∨ s.adcUrgent x c.seq = true → o = wait s) ∧
          (urgent = true → c.ghost = false → s.adcUrgent x c.seq = false →
            let p := s.count F.ADCx_PREEMPT_CNT_COUNT x 0
            (c.conv = true → o = wait (p.modAdc x fun y => { y with intr := some (c.seq, c.ent), cur := some { c with ghost := true } })) ∧
            (c.conv = false → o = ((p.modAdc x fun y => { y with intr := some (c.seq, c.ent), cur := none }).unsched
              (.adcHold x .pins)).adcRun x q))) ∧
      (let t := s.adcRun x q
       let h := s.now + s.fld F.ADCx_ENT_s_e_ACQ x (entIx q 0) + (if a.swapLc = some s.now then 1 else 0)
       (h, Instr.adcHold x .pins) ∈ t.cal ∧ (t.adc[x].cur.any fun c => c.seq = q ∧ c.ent = 0 ∧ c.hold = h ∧ c.conv = false) = true)) ∧
  (∀ (s : State) (r : Req) (x : Conv) (q : Fin 4) (e : Fin 16) (v : Word) (src : BitVec 2),
      let a := s.opened r.master
      let j := entIx q e
      let hold (t : State) (b : Nat) : State := t.modAdc x fun k => { k with held := (k.held.drop b).insert b v }
      (s.admits r .write .ADCx_SEQs_CFG x q → exec (.adcSeqCfgWrite r x q v) s = .next
        (if s.adc[x].busy q then hold a (RegName.ADCx_SEQs_CFG.addr x q) else a.writeReg .ADCx_SEQs_CFG x q v)) ∧
      (s.admits r .write .ADCx_ENT_s_e x j →
        let bad := 47 < getBits v 5 0 ∨ (v.getLsbD 6 = true ∧ v.getLsbD 0 = true)
        (bad → exec (.adcEntryWrite r x q e v) s = .next (a.bump F.ADCx_ERR_CNT_OVR x 0)) ∧
        (¬bad → s.adc[x].busy q = true → exec (.adcEntryWrite r x q e v) s = .next (hold a (RegName.ADCx_ENT_s_e.addr x j))) ∧
        (¬bad → s.adc[x].busy q = false → s.mode ≠ .loading → ∃ t, exec (.adcEntryWrite r x q e v) s = .next t ∧
          let u := a.writeReg .ADCx_ENT_s_e x j v
          t.reg .ADCx_ENT_s_e x j =
            (u.setFld F.ADCx_ENT_s_e_ACQ x j (max 4 (u.fld F.ADCx_ENT_s_e_ACQ x j))).reg .ADCx_ENT_s_e x j ∧
          t.adc[x] = (if getBits (s.reg .ADCx_ENT_s_e x j) 6 0 = getBits (t.reg .ADCx_ENT_s_e x j) 6 0 then s.adc[x]
                      else { s.adc[x] with settle := s.adc[x].settle.put j true false }) ∧
          t = { a with regs := t.regs, adc := vset s.adc x t.adc[x] })) ∧
      (s.admits r .write .ADCx_REF_CFG x 0 →
        (src = 3 ∨ src.toNat = s.fld F.ADCx_REF_CFG_SRC x 0 → exec (.adcRefSelect r x src) s = .next a) ∧
        (src ≠ 3 → src.toNat ≠ s.fld F.ADCx_REF_CFG_SRC x 0 → s.mode.cores = true → exec (.adcRefSelect r x src) s = .next
          ((((a.setFld F.ADCx_REF_CFG_SRC x 0 src.toNat).setFld F.ADCx_STAT_REFRDY x 0 0).modAdc x fun k =>
            { k with cur := k.cur.map fun c => if c.conv ∧ c.hold = s.now then { c with stale := true } else c }).sched 8000
            (.refSettled x)))) ∧
      (s.mode.cores = true → exec (.refSettled x) s = .next ((s.setFld F.ADCx_STAT_REFRDY x 0 1).unsched (.refSettled x))))

/-- Conversions (R62 to R65, R69, R71, R76, R79): at the hold instant the code is the nearest to the ratio of the levels of the selected
input, or pair of inputs, and the selected reference, limited, OOR where that cut it; at its end the result word stands in its register and on LAST, and the next entry is acquired or the run is over; an
abort ends runs and requests, and a conversion in progress is discarded. A reference that is not positive gives a free code (log entry 28);
a discarded conversion leaves its entry's settling mark (log entry 109).

Core rotation (R55 to R61): a due tick makes a swap wait, or skips one that still waits; the swap exchanges the spare and the core
of the next converter in ADC_MAP and starts the calibration of the core now spare; a calibration beyond the limits of R59 withdraws
the spare; a core that has served 64 ms is marked aged. The calibration's time and findings are free (log entry 27). -/
def Obligations.ConversionsAndRotation : Prop :=
  (∀ (s : State) (r : Req) (x : Conv) (c : AdcCur) (ain : List Int) (refp refn vdda k : Int),
      s.adc[x].cur = some c → s.mode.live = true →
      let j := entIx c.seq c.ent
      let input := s.fld F.ADCx_ENT_s_e_INSEL x j
      let src := s.fld F.ADCx_REF_CFG_SRC x 0
      let diff := s.flag F.ADCx_ENT_s_e_DIFF x j
      let full : Int := if diff then 32768 else 65536
      let lo : Int := if diff then -32768 else 0
      let hi : Int := if diff then 32767 else 65535
      let vp := ain.getD input 0
      let vn := if diff then ain.getD (input + 1) 0 else if src = 1 then refn else 0
      let vref := if src = 0 then 2500000000 else if src = 1 then refp - refn else vdda
      (c.conv = false → 0 < vref → 2 * vref * k ≤ 2 * (vp - vn) * full + vref → 2 * (vp - vn) * full + vref < 2 * vref * (k + 1) →
        exec (.adcHold x (.board ain refp refn vdda)) s = .next
          ((((s.unsched (.adcHold x .pins)).modAdc x fun y => { y with cur := some { c with
            hold := s.now, conv := true, stale := !s.flag F.ADCx_STAT_REFRDY x 0, code := BitVec.ofInt 16 (min hi (max lo k))
            oor := decide (k < lo ∨ hi < k) } }).draw).sched 17 (.adcConversionEnd x))) ∧
      (c.conv = true → c.ghost = false → s.adc[x].done = none →
        ∃ t, exec (.adcConversionEnd x) s = .next t ∧
          let w := t.reg .ADCx_RES_s_e x j
          w = c.word (s.adc[x].settle.get j false) ∧ w.setWidth 16 = c.code ∧ t.mx.word.get (adcSrc x) 0 = w ∧
          adcSrc x ∈ t.mx.nw ∧ t.adc[x].done = none ∧
          (c.ent.val < s.adcLen x c.seq →
            (t.adc[x].cur.any fun d => d.seq = c.seq ∧ d.ent.val = c.ent.val + 1 ∧ d.conv = false) = true) ∧
          (s.adcLen x c.seq ≤ c.ent.val → s.flag F.ADCx_SEQs_CFG_DONEEVT x c.seq = true → adcSrc x + 1 + c.seq.val ∈ t.mx.ev)) ∧
      (s.admits r .write .ADCx_CTRL x 0 → ∀ i ∈ [Instr.adcAbort r x, .adcDisable r x],
        ∃ t, exec i s = .next t ∧ t.adc[x].pend = [] ∧ t.adc[x].intr = none ∧
          t.adc[x].cur = (if c.conv then some { c with ghost := true } else none) ∧
          t.flag F.ADCx_CTRL_EN x 0 = (if i = .adcDisable r x then false else s.flag F.ADCx_CTRL_EN x 0))) ∧
  (∀ (s : State) (c : SpareCal) (k : Fin 9), s.mode.live = true → s.fld F.ADC_ROT_STAT_SPARE 0 0 < 9 → s.fld F.ADC_ROT_STAT_NEXT 0 0 < 8 →
      let spare := s.fld F.ADC_ROT_STAT_SPARE 0 0
      let x := s.rotNext
      (∃ t, exec .rotationDue s = .next t ∧ t.rot = { s.rot with waits := true, dueAt := some (s.now + 400000) } ∧
        (s.now + 392000, Instr.spareRefConnect) ∈ t.cal ∧
        (s.rot.waits = false → t.regs = s.regs) ∧
        (s.rot.waits = true → t.fld F.ADC_ROT_STAT_SKIPS 0 0 = min F.ADC_ROT_STAT_SKIPS.max (s.fld F.ADC_ROT_STAT_SKIPS 0 0 + 1) ∧
          t.fld F.ADC_ROT_STAT_NEXT 0 0 = (s.fld F.ADC_ROT_STAT_NEXT 0 0 + 1) % 8)) ∧
      exec .spareRefConnect s = .next { s with rot := { s.rot with spareRef := some x } } ∧
      let good := c.off.natAbs ≤ 64000 ∧ c.gain.natAbs ≤ 5000 ∧ c.inl.natAbs ≤ 1500
      let done := { s.rot with calBusy := false, trim := vset s.rot.trim (Fin.ofNat 9 spare) c }
      (∀ due, s.rot.waits = true → s.rot.calBusy = false → s.adc[x].idle = true → s.rot.dueAt = some due → due < s.now + 400000 →
        ∃ t, exec .rotationSwap s = .next t ∧ t.coreOf x = spare ∧ t.fld F.ADC_ROT_STAT_SPARE 0 0 = s.coreOf x ∧
          (∀ y : Conv, y ≠ x → t.coreOf y = s.coreOf y) ∧ t.rot.waits = false ∧ t.rot.calBusy = true ∧ t.adc[x].swapLc = some s.now ∧
          (∃ d f, 1 ≤ d ∧ d ≤ 400000 ∧ (s.now + d, Instr.spareCalComplete f) ∈ t.cal)) ∧
      (good → exec (.spareCalComplete c) s = .next
        ({ s with rot := done }.setReg .ADC_CAL_STAT 0 0 (setBits (s.reg .ADC_CAL_STAT 0 0) (16 + spare) (16 + spare) 0))) ∧
      (¬good → ∃ t, exec (.spareCalComplete c) s = .next t ∧ t.rot.trim = done.trim ∧ t.fld F.ADC_ROT_STAT_SPARE 0 0 = 15 ∧ t.flag F.ADC_CAL_STAT_DEGRADED 0 0 = true ∧
        (t.reg .ADC_CAL_STAT 0 0).getLsbD spare = true ∧ t.rot.dueAt = none ∧ t.mx.ev = s.mx.ev ++ [7]) ∧
      ((∃ y : Conv, s.coreOf y = k.val) → exec (.coreAged k) s = .next
        ((s.setReg .ADC_CAL_STAT 0 0 (setBits (s.reg .ADC_CAL_STAT 0 0) (16 + k.val) (16 + k.val) 1)).raiseEv 8)))

/-! ## Comparators -/

/-- Thresholds (R86, R88, R89): a write over the bus or the port stores the code, which the DAC moves to where it is the code in use,
settling for 4 lc, or 16 for a step over 64 codes from the code before this lc; a bus write after the port's of the same lc is
discarded and counted; a comparator under check holds the code, from its lc 0 on (log entry 134). How the level moves meanwhile is free
(log entry 29).

Decisions and windows (R87, R91 to R98): a crossing of a continuous comparator decides at once and shows on its source with its
polarity, and in an enabled window the other comparator, on the same input, crosses too where its threshold is not beyond; a tick of
a sampled one decides with hysteresis and is seen four lc later, unless it comes within 4 lc of the last; a window's sources are
above, below, inside, which does not become 1 with INV, and the gated one, which rises once the gates of the lc are known (R97). The lc of
a crossing is log entry 67, the raw decision of a comparator that is off log entry 114. -/
def Obligations.Comparators : Prop :=
  (∀ (s : State) (r : Req) (n : CmpId) (alt : Bool) (v : Word),
      let rn := if alt then RegName.CMPn_THR_ALT else .CMPn_THR
      let a := rn.addr n 0
      let cmp := s.cmps.cmp[n]
      let start : Nat × Option Nat := match cmp.was with
        | some w => if w.1 = s.now then w.2 else (cmp.dac, cmp.ends)
        | none => (cmp.dac, cmp.ends)
      let stored (t : State) (w : Word) (u : State) : Prop :=
        let code := w.setWidth 12
        let k := t.setReg rn n 0 (code.setWidth 32)
        let used := k.cmpCode n
        let span := if used ≤ start.1 + 64 ∧ start.1 ≤ used + 64 then 4 else 16
        (∀ c, s.cmpCheckOf n = some c → u = { t with cmps := { t.cmps with chk := some (if alt then { c with alt := some code }
                                                                                         else { c with thr := some code }) } }) ∧
        (s.cmpCheckOf n = none → used = cmp.dac → u = k) ∧
        (s.cmpCheckOf n = none → used ≠ cmp.dac → s.mode.live = true →
          u = ((k.winOf n).modCmp n fun c => { c with dac := used, was := some (s.now, start) }).settleTo n
            (if used = start.1 then start.2 else some (s.now + span))) ∧
        (s.cmpCheckOf n = none → used ≠ cmp.dac → s.mode.live = false →
          u = k.modCmp n fun c => { c with dac := used, level := (used : Int) * 2500000000 })
      (s.admits r .write rn n 0 →
        (s.marked a true = true → exec (.cmpThrWrite r n alt v) s = .next ((s.opened r.master).bump F.CMP_ERR_CNT_THR_CONFLICT 0 0)) ∧
        (s.marked a true = false → ∃ u, exec (.cmpThrWrite r n alt v) s = .next (u.mark a false) ∧ stored (s.opened r.master) v u)) ∧
      (s.mode.live = true → v.getLsbD 16 = alt →
        ∃ u, exec (.cmpThrPort n v) s = .next (u.mark a true) ∧
          stored (if s.marked a false = true ∧ s.marked a true = false then s.bump F.CMP_ERR_CNT_THR_CONFLICT 0 0 else s) v u) ∧
      (∀ e, s.settleTo n (some e) =
        ((s.modCmp n fun c => { c with ends := some e }).setFld F.CMPn_STAT_SETTLING n 0 1).schedAt e (.dacSettled n)) ∧
      s.settleTo n none = ((s.modCmp n fun c => { c with ends := none }).setFld F.CMPn_STAT_SETTLING n 0 0).unsched (.dacSettled n) ∧
      (∀ e, cmp.ends = some e → s.now < e → exec (.dacSettled n) s = .next s) ∧
      ((∀ e, cmp.ends = some e → e ≤ s.now) →
        exec (.dacSettled n) s = .next ((s.modCmp n fun c => { c with level := dacLevel c.dac }).settleTo n none))) ∧
  (∀ (s : State) (n : CmpId) (k : WinId) (up gate : Bool) (lv : Level3), s.mode.live = true →
      (s.cmps.chk = none → s.cmpMode n = 1 →
        ∃ t, exec (.comparatorCrossing n up) s = .next t ∧ t.cmps.cmp[n].dec = up ∧
          t.mx.lv.get (0x0A0 + n.val) false = (up != s.flag F.CMPn_CFG_POL n 0) ∧ t = { s with cmps := t.cmps, mx := t.mx } ∧
          (∀ m : CmpId, m ≠ n → (s.cmpTwin n ≠ some m ∨ s.cmpMode m ≠ 1) → t.cmps.cmp[m] = s.cmps.cmp[m]) ∧
          (∀ m : CmpId, m ≠ n → s.cmpTwin n = some m → s.cmpMode m = 1 →
            let there := if up then s.cmps.cmp[m].level ≤ s.cmps.cmp[n].level else s.cmps.cmp[n].level ≤ s.cmps.cmp[m].level
            (there → t.cmps.cmp[m].dec = up) ∧ (¬there → t.cmps.cmp[m] = s.cmps.cmp[m]))) ∧
      (s.cmps.chk = none → s.cmpMode n = 2 →
        let before := match s.cmps.cmp[n].samp with | some x => x.2 | none => s.cmps.cmp[n].dec
        let seen := match lv with | .above => true | .between => before | .below => false
        (s.cmpEarly n = false → exec (.cmpTick n lv) s = .next (s.modCmp n fun c =>
          { c with samp := some (s.now + 4, seen), lastTick := some s.now })) ∧
        (s.cmpEarly n = true → exec (.cmpTick n lv) s = .next (s.bump F.CMP_ERR_CNT_TICK_IGN 0 0)) ∧
        (∀ d w, s.cmps.cmp[n].samp = some (w, d) → w ≤ s.now →
          (s.cmpTickLc n).cmps.cmp[n].dec = d ∧ (s.cmpTickLc n).cmps.cmp[n].samp = none)) ∧
      (s.flag F.CMP_WINk_CFG_EN k 0 = true →
        let hi : CmpId := Fin.ofNat 48 (2 * k.val)
        let lo : CmpId := Fin.ofNat 48 (2 * k.val + 1)
        let b := 0x0D0 + 4 * k.val
        let above := s.cmpRaw hi
        let below := !s.cmpRaw lo
        let inv := decide (s.cmpCode hi ≤ s.cmpCode lo)
        let inside := !above && !below && (!inv || s.mx.lv.get (b + 2) false)
        let sel := s.fld F.CMP_WINk_CFG_GSEL k 0
        let gated := (if sel = 0 then inside else if sel = 1 then above else below) && gate
        (s.winCfg k).getLsbD 3 = inv ∧
        ∃ t, exec (.windowGateChange k gate) s = .next t ∧ t = { s with mx := t.mx } ∧ t.destLv (0x110 + k.val) = gate ∧
          t.mx.lv.get b false = above ∧ t.mx.lv.get (b + 1) false = below ∧ t.mx.lv.get (b + 2) false = inside ∧
          t.mx.lv.get (b + 3) false = (s.mx.lv.get (b + 3) false && gated) ∧ (t.winGate k).mx.lv.get (b + 3) false = gated))

/-- Checks (R102 to R108): an accepted request starts its check, or waits while one runs; a refused one is counted; from lc 16 the
decision of lc 15 stands in for the comparator's; the result is judged on the code and the partner's decision of lc 55 and shown; at
lc 64 what was written meanwhile is applied and a waiting request starts in the next lc. What the comparator decides under check is
free (log entry 29); a request without power is log entry 116, that a waiting one is not judged again log entry 135, what a trim check does
to the trim log entry 30. -/
def Obligations.ComparatorChecks : Prop :=
  ∀ (s : State) (r : Req) (v : Word) (c : CheckSt) (raw : Bool),
    let n := v.toNat % 64
    let kind := v.toNat / 64 % 4
    let lad := v.toNat / 256 % 16
    let partner := s.fld F.CMPn_CFG_PARTNER n 0
    let begun (t : State) (m : CmpId) (kd ld : Nat) : State :=
      let p := s.fld F.CMPn_CFG_PARTNER m 0
      let dec := s.cmps.cmp[m].dec
      let k : CheckSt := { cmp := m, kind := kd, lad := ld, partner := if h : p < 48 then some ⟨p, h⟩ else none, start := s.now
                           phase := 0, hold := dec, moved := false, thr := none, alt := none, trim := none, at55 := none
                           lvl := s.mx.lv.get (0x0A0 + m.val) false }
      let t := { t with cmps := { t.cmps with chk := some k } }.draw
      let t := match k.partner with
        | some q => ((t.modCmp q fun y => { y with dec := dec, samp := none }).dacMove q).cmpUpdate q
        | none => t
      (((t.setFld F.CMP_CHK_STAT_BUSY 0 0 1).sched 16 .checkTakeover).sched 56 (.checkResult (Config.checkRaw s.fresh))).sched 64
        .checkRelease
    (s.admits r .write .CMP_CHECK 0 0 → v.getLsbD 12 = true → s.mode.live = true → s.checkOver = false →
      let fit := n < 48 ∧ kind ≠ 3 ∧ s.fld F.CMPn_CFG_MODE n 0 ≠ 0 ∧ (s.flag F.CMPn_CFG_TRIP n 0 = true → partner ≠ 63) ∧
        (partner < 48 ∨ partner = 63)
      (∀ h : n < 48, fit → s.cmps.chk = none → s.cmps.wait = none →
        exec (.cmpCheck r v) s = .next (begun (s.opened r.master) ⟨n, h⟩ kind lad)) ∧
      (∀ h : n < 48, fit → s.cmps.chk = some c → c.cmp.val ≠ partner → s.cmps.wait = none →
        exec (.cmpCheck r v) s = .next ({ s.opened r.master with cmps := { s.cmps with wait := some (⟨n, h⟩, kind, lad) } }.setFld
          F.CMP_CHK_STAT_WAITING 0 0 1)) ∧
      ((¬fit ∨ s.cmps.wait.isSome = true ∨ (s.cmps.chk = some c ∧ c.cmp.val = partner)) →
        exec (.cmpCheck r v) s = .next ((((s.opened r.master).setFld F.CMP_CHK_STAT_RESULT 0 0 3).setFld F.CMP_CHK_STAT_CMP 0 0 n).bump
          F.CMP_ERR_CNT_CHK_REFUSED 0 0))) ∧
    (s.cmps.chk = some c →
      let put (k : CheckSt) : State := { s with cmps := { s.cmps with chk := some k } }
      let seen := match c.partner with | some p => s.cmps.cmp[p].dec | none => c.hold
      (s.now ≤ c.start + 16 → s.checkTick =
        put { c with hold := s.cmps.cmp[c.cmp].dec, lvl := s.mx.lv.get (0x0A0 + c.cmp.val) false }) ∧
      (s.now = c.start + 56 → s.checkTick = put { c with at55 := some (s.cmpCode c.cmp, seen) }) ∧
      (c.start + 16 < s.now → s.now ≠ c.start + 56 → s.checkTick = s) ∧
      (c.start + 16 ≤ s.now → s.cmpRaw c.cmp = seen ∧ (c.partner = none → s.cmpOut c.cmp = c.lvl)) ∧
      (c.phase = 0 → exec .checkTakeover s = .next ((put { c with phase := 1 }).cmpUpdate c.cmp)) ∧
      (c.phase = 1 →
        let res := s.checkJudge c raw
        let t := (put { c with phase := 2 }).settleTo c.cmp (some (max (c.start + 64) ((s.cmps.cmp[c.cmp].ends).getD 0)))
        let t := match c.trim with | some d => t.trimMove c.cmp d | none => t
        let t := ((t.setFld F.CMP_CHK_STAT_RESULT 0 0 res).setFld F.CMP_CHK_STAT_RAW 0 0 (if raw then 1 else 0)).setFld
          F.CMP_CHK_STAT_CMP 0 0 c.cmp.val
        let t := t.count F.CMP_CHK_STAT_COUNT 0 0
        exec (.checkResult raw) s = .next ((if res = 1 then t.raiseEv 9 else t).cmpUpdate c.cmp)) ∧
      (∀ code d, c.at55 = some (code, d) →
        let res := s.checkJudge c raw
        let step : Int := ((2 * (c.lad : Int) + 1) * 128 - code) * 2500
        (c.kind = 0 → res = if c.partner.isSome ∧ c.moved then 2 else if raw = d then 1 else 0) ∧
        (c.kind = 1 → res = if 32768 ≤ step then (if raw then 0 else 1) else if step ≤ -32768 then (if raw then 1 else 0) else 2)) ∧
      (s.now < c.start + 64 → exec .checkRelease s = .next s) ∧
      (c.start + 64 ≤ s.now → ∃ t, exec .checkRelease s = .next t ∧ t.cmps.chk = none ∧ t.flag F.CMP_CHK_STAT_BUSY 0 0 = false ∧
        (∀ w, c.thr = some w → t.reg .CMPn_THR c.cmp 0 = w.setWidth 32) ∧
        (∀ w, c.alt = some w → t.reg .CMPn_THR_ALT c.cmp 0 = w.setWidth 32) ∧
        (s.cmps.cmp[c.cmp].samp = none → t.cmps.cmp[c.cmp].dec = s.cmps.cmp[c.cmp].dec) ∧
        (s.cmps.wait.isSome = true → (s.now + 1, Instr.checkWaitingStart) ∈ t.cal))) ∧
    (∀ m kd ld, s.cmps.chk = none → s.cmps.wait = some (m, kd, ld) → exec .checkWaitingStart s = .next
      (begun ({ s with cmps := { s.cmps with wait := none } }.setFld F.CMP_CHK_STAT_WAITING 0 0 0) m kd ld))

/-! ## PWM generation -/

/-- Periods and compares (R112 to R114, R116, R119, R121, R124, R126): a period start begins a period of PER steps, or twice PER in
up-down mode, raises Gn_PRD and records the length of the last; one that is the load point of a pending strobe, of the group or of the
member, first copies the shadows as they stood at the start of the lc (log entry 136); with MODE 0 it stops the counter, and the pins take
the safe pattern; the middle raises Gn_MID and turns an up-down count; a compare gives its REF the level of its mode, once a segment, REF
keeping its level until then (log entry 111); a trigger compare raises its event. PER_ACT 0 counts as 0xFFFF (log entry 32).

Variable periods (R116 to R118): END at or after the arming count ends the period with the present step, a follower only after
PSTART; the step PER − 1 ends it with Gn_PMAX counted, and so it does a follower's whose END came before that step; the phase event is
raised where a variable period runs. LASTPER counts the steps of a period begun from PHASE from count 0 (log entry 100); in which lc a
follower begins to wait is log entry 113. -/
def Obligations.PwmPeriods : Prop :=
  (∀ (s : State) (n : GenId) (b : Bool) (k : Fin 2), s.mode.live = true → s.flag F.PWMn_STAT_RUN n 0 = true →
      let g := s.pwm[n]
      let mode := s.fld F.PWMn_CFG_MODE n 0
      let per := if s.fld F.PWMn_PER_ACT_VALUE n 0 = 0 then 65535 else s.fld F.PWMn_PER_ACT_VALUE n 0
      let x : Fin 2 := if b then 1 else 0
      let grp := s.grpOf n
      let calm := s.grpPend grp = false ∧ g.pend = false
      let copied (t : State) (m : GenId) : Prop := t.reg .PWMn_PER_ACT m 0 = s.oldReg .PWMn_PER m 0 ∧
        t.reg .PWMn_CMPA_ACT m 0 = s.oldReg .PWMn_CMPA m 0 ∧ t.reg .PWMn_CMPB_ACT m 0 = s.oldReg .PWMn_CMPB m 0
      let only (t : State) : Prop := ∀ m : GenId, m ≠ n → t.pwm[m] = s.pwm[m]
      (calm → (mode = 1 ∨ mode = 2 ∨ mode = 3) → ∃ t, exec (.pwmPeriodStart n) s = .next t ∧
        t.pwm[n].began = s.now ∧ t.pwm[n].k0 = 0 ∧ t.pwm[n].mode = mode ∧ t.pwm[n].per = per ∧
        t.flag F.PWMn_STAT_RUN n 0 = true ∧ pwmSrc n ∈ t.mx.ev ∧
        (s.now + (if mode = 3 then 2 * per else per) * 2 ^ s.fld F.PWMn_CFG_PRE n 0, Instr.pwmPeriodStart n) ∈ t.cal ∧
        (g.began < s.now → g.ended = none → t.fld F.PWMn_LASTPER_LASTPER n 0 = min 65535 (g.stepAt s.now))) ∧
      (calm → mode = 0 → ∃ t, exec (.pwmPeriodStart n) s = .next t ∧ t.flag F.PWMn_STAT_RUN n 0 = false ∧
        (t.pwmFirst n).pwm[n].safe = true) ∧
      (s.pwmRefuses = false → mode ≠ 0 → ∃ t, exec (.pwmPeriodStart n) s = .next t ∧ t.pwm[n].began = s.now ∧ t.pwm[n].per = t.perAct n ∧
        (s.grpLead grp = some n → s.grpPend grp = true → s.loadsAtStart grp n = true →
          t.grpPend grp = false ∧ ∀ m ∈ s.grpMembers grp, copied t m) ∧
        (s.ldpt grp = 3 → g.pend = true → t.pwm[n].pend = false ∧ copied t n)) ∧
      (calm → g.mode = 1 ∨ g.mode = 2 → g.down = false →
        exec (.pwmPeriodMiddle n) s = .next ((s.unsched (.pwmPeriodMiddle n)).raiseEv (pwmSrc n + 1))) ∧
      (calm → g.mode = 3 → g.down = false → ∃ t, exec (.pwmPeriodMiddle n) s = .next t ∧ t.pwm[n].down = true ∧ only t ∧
        pwmSrc n + 1 ∈ t.mx.ev) ∧
      (∀ lvl off, g.fired[x] = false → g.action (s.pwmCmp n x) = some (lvl, off) → s.flag F.PWMn_STAT_WAIT n 0 = false →
        ∃ t, exec (.pwmCompareAction n b) s = .next t ∧ t.pwm[n].ref[x] = lvl ∧ t.pwm[n].fired[x] = true ∧ only t ∧
          t.pwm[n].ref[1 - x] = g.ref[1 - x]) ∧
      (∀ v, let at_ := v / 256 * 2 ^ g.pre * 256 + v % 256
        let fin := g.per * 2 ^ g.pre * 256
        (g.mode = 1 → v / 256 < g.per → g.action v = some (false, at_)) ∧ (g.mode = 1 → g.per ≤ v / 256 → g.action v = none) ∧
        (g.mode = 2 → 0 < v → v / 256 < g.per → g.action v = some (true, fin - at_)) ∧
        (g.mode = 3 → g.down = false → v / 256 < g.per → g.action v = some (false, at_)) ∧
        (g.mode = 3 → g.down = true → 0 < v → v / 256 < g.per → g.action v = some (true, 2 * fin - at_)) ∧
        (g.mode = 4 → g.action v = some (false, at_)) ∧ (g.mode = 5 → g.action v = some (true, at_))) ∧
      (g.firedT[k] = false → (g.trgStep k).isSome = true → exec (.pwmTriggerCompare n k) s = .next
        (((s.unsched (.pwmTriggerCompare n k)).modPwm n fun y => { y with firedT := vset y.firedT k true }).raiseEv
          (pwmSrc n + 2 + k.val)))) ∧
  (∀ (s : State) (n : GenId), s.mode.live = true → s.flag F.PWMn_STAT_RUN n 0 = true →
      (s.pwm[n].mode = 4 ∨ s.pwm[n].mode = 5) →
      let g := s.pwm[n]
      let k := g.stepAt s.now
      let follow := s.flag F.PWMn_CFG_FOLLOW n 0
      let ended (t : State) (j : Nat) : State :=
        ((t.modPwm n fun y => { y with ended := some j }).setFld F.PWMn_LASTPER_LASTPER n 0 (min 65535 (j + 1))).schedAt
          (g.stepLc (j + 1)) (.pwmPeriodStart n)
      let seen := s.modPwm n fun y => { y with endSeen := some (y.endSeen.getD k) }
      let started := (s.modPwm n fun y => { y with pstart := true }).mark (pstartMark n) true
      (g.ended = none → s.armCount n ≤ k → s.armCount n ≤ g.per - 1 →
        exec (.periodEnd n) s = .next (if follow = true ∧ g.pstart = false then seen else ended seen k)) ∧
      (g.ended = none → s.maxNow n = decide (g.per ≤ g.stepAt (s.now + 1)) ∧
        exec (.periodMax n) s = .next (ended ((s.raiseEv (pwmSrc n + 7)).bump F.PWMn_ERR_CNT_PMAX n 0) (g.per - 1))) ∧
      (g.ended = none → follow = true →
        (g.endSeen = none → exec (.pstart n) s = .next started) ∧
        (∀ j, g.endSeen = some j → exec (.pstart n) s =
          .next (if k < g.per - 1 ∨ g.per - 1 ≤ j then ended started k else started))) ∧
      exec (.phaseEvent n) s = .next ((s.unsched (.phaseEvent n)).raiseEv (pwmSrc n + 4)))

/-- Load-all, port writes, starts (R115, R120 to R122, R137): the strobes of one lc take place together, once for each group; a strobe
copies the shadows of an immediate group, as they stood at the start of the lc, into the values in force, or waits for the load point,
unless that lies in this lc: the lead's period start or middle, or each member's own period start; PWM_START and SYNC begin a period at
PHASE; the compare port writes its shadow, and a bus write of the same lc counts as discarded. That the copy takes the shadows of the lc's
start in every case is log entry 136, that SYNC does nothing with MODE 0 log entry 112, PER_ACT 0 log entry 32, the count of foreign bits
log entry 31. -/
def Obligations.PwmLoadsAndStarts : Prop :=
  ∀ (s : State) (r : Req) (n : GenId) (v w : Word) (b : Bool) (p : Fin 8), s.mode.live = true → s.pwmRefuses = false →
    let a := s.opened r.master
    let k := s.grpOf n
    let g := s.pwm[n]
    let at_ := RegName.PWM_GRPk_CFG.addr k 0
    (v.toNat % 65536 = 2 ^ k → s.admits r .write .PWM_LOADALL 0 0 →
      (r.owns (s.grpOwner k) = true → exec (.pwmLoadall r v) s = .next { a with strobe := s.strobe ||| BitVec.ofNat 16 (2 ^ k) }) ∧
      (r.owns (s.grpOwner k) = false → exec (.pwmLoadall r v) s = .next (a.bump F.PTU_FOREIGN_CNT_COUNT 0 0))) ∧
    exec (.loadallStrobe p w) s = .next { s with strobe := s.strobe ||| w.setWidth 16 } ∧
    (s.strobe = BitVec.ofNat 16 (2 ^ k) →
      (s.marked at_ true = false → s.strobeAll = (({ s with strobe := 0 } : State).mark at_ true).grpStrobe k) ∧
      (s.marked at_ true = true → s.strobeAll = { s with strobe := 0 })) ∧
    (∀ l, s.grpLead k = some l →
      let asked := (if s.grpPend k then s.bump F.PWM_ERR_CNT_MERGE 0 0 else s).setGrpPend k true
      (s.ldpt k = 2 → s.grpStrobe k = (s.grpMembers k).foldl (fun u m => (u.pwmTake m).pwmEffect m) s) ∧
      (s.ldpt k < 2 → s.pwmRuns l = false → s.grpStrobe k = asked) ∧
      (s.ldpt k = 0 ∨ s.ldpt k = 1 ∧ s.pwm[l].variable = true → s.pwmRuns l = true →
        s.grpStrobe k = if s.pwm[l].begins s.now then asked.grpLoad k else asked) ∧
      (s.ldpt k = 1 → s.pwmRuns l = true → s.pwm[l].variable = false →
        s.grpStrobe k = if s.pwm[l].midAt s.now ∧ (s.pwm[l].mode = 3 → s.pwm[l].down = true) then asked.grpLoad k else asked) ∧
      (s.ldpt k = 3 → let t := s.grpStrobe k
        (∀ m ∈ s.grpMembers k, let now := s.pwmRuns m && s.pwm[m].begins s.now
          t.pwm[m].pend = !now ∧ t.reg .PWMn_CMPA_ACT m 0 = (if now then s.oldReg .PWMn_CMPA m 0 else s.reg .PWMn_CMPA_ACT m 0) ∧
          t.reg .PWMn_PER_ACT m 0 = if now then s.oldReg .PWMn_PER m 0 else s.reg .PWMn_PER_ACT m 0) ∧
        t.fld F.PWM_ERR_CNT_MERGE 0 0 = min F.PWM_ERR_CNT_MERGE.max
          (s.fld F.PWM_ERR_CNT_MERGE 0 0 + if (s.grpMembers k).any fun m => s.pwm[m].pend then 1 else 0))) ∧
    (let t := s.pwmTake n
     t.reg .PWMn_PER_ACT n 0 = s.oldReg .PWMn_PER n 0 ∧ t.reg .PWMn_CMPA_ACT n 0 = s.oldReg .PWMn_CMPA n 0 ∧
     t.reg .PWMn_CMPB_ACT n 0 = s.oldReg .PWMn_CMPB n 0 ∧ t.pwm[n].dta = getBits (s.oldReg .PWMn_DTA n 0) 19 0 ∧
     t.pwm[n].dtb = getBits (s.oldReg .PWMn_DTB n 0) 19 0 ∧ t.pwm[n].ref = g.ref ∧
     ((∀ y, g.on = some y → y.toff / 256 ≠ s.now) → t.pwm[n].lvl = g.lvl)) ∧
    (v.toNat % 65536 = 2 ^ n.val → r.owns (s.grpOwner k) = true → s.admits r .write .PWM_START 0 0 →
      exec (.pwmStart r v) s = .next (if s.flag F.PWMn_STAT_RUN n 0 = false ∧ s.fld F.PWMn_CFG_MODE n 0 ≠ 0
        then a.pwmPeriod n true else a)) ∧
    (s.fld F.PWMn_CFG_MODE n 0 ≠ 0 → exec (.pwmSync n) s = .next
      ((if s.flag F.PWMn_STAT_RUN n 0 = true ∧ g.began < s.now then s.pwmLast n else s).pwmPeriod n true)) ∧
    (s.fld F.PWMn_CFG_MODE n 0 = 0 → exec (.pwmSync n) s = .next s) ∧
    (let per := if s.fld F.PWMn_PER_ACT_VALUE n 0 = 0 then 65535 else s.fld F.PWMn_PER_ACT_VALUE n 0
     let c := s.fld F.PWMn_PHASE_COUNT n 0
     (s.grpPend k = false → g.pend = false → s.fld F.PWMn_CFG_MODE n 0 ≠ 0 →
       let t := s.pwmPeriod n true
       t.pwm[n].began = s.now ∧ t.pwm[n].k0 = s.phaseStep n ∧ t.pwm[n].per = per ∧ t.flag F.PWMn_STAT_RUN n 0 = true ∧
       (¬(s.flag F.PWMn_STAT_RUN n 0 = true ∧ g.begins s.now = true ∧ g.phased = false) → pwmSrc n ∈ t.mx.ev)) ∧
     (s.fld F.PWMn_CFG_MODE n 0 = 1 → s.phaseStep n = min c (per - 1)) ∧
     (s.fld F.PWMn_CFG_MODE n 0 = 2 → s.phaseStep n = per - 1 - min c (per - 1)) ∧
     (s.fld F.PWMn_CFG_MODE n 0 = 3 → s.flag F.PWMn_PHASE_DOWN n 0 = false → s.phaseStep n = min c (per - 1)) ∧
     (s.fld F.PWMn_CFG_MODE n 0 = 3 → s.flag F.PWMn_PHASE_DOWN n 0 = true → s.phaseStep n = 2 * per - min (max c 1) per)) ∧
    (let rn := if b then RegName.PWMn_CMPB else .PWMn_CMPA
     let c := rn.addr n 0
     exec (.comparePortWrite n b w) s = .next
       (((if s.marked c false = true ∧ s.marked c true = false then s.bump F.PWMn_ERR_CNT_WRCONF n 0 else s).setReg rn n 0
         (w &&& 0xFFFFFF)).mark c true))

/-- Dead time and trips (R126 to R129, R131, R132): at the end of its dead time the output turns on; a transition complete fixes the
turn-on MARGIN after it, between DTMIN and DTMAX, whose expiry without one is counted; an enabled trip input takes the pins to the safe pattern; a clear
releases latched trips whose input is 0 and that have not tripped in this cycle (R9). That Gn_DIR moves only in adaptive mode is the
model's reading (log entry 61), that the pins take the pattern in the lc of the event log entry 63.

Delay lines (R134, R135): every 40,000 lc a replacement falls due, one that still waits is skipped; it takes place where its output
has no edge near; a failure ends the rotation. When the first falls due is log entry 69. -/
def Obligations.DeadTimeTripsDelayLines : Prop :=
  (∀ (s : State) (r : Req) (n : GenId) (k : Fin 4) (v : Word) (w : PwmOn), s.mode.live = true →
      let at_ (t : Nat) : Nat := if t / 256 = s.now then t else s.now * 256
      let on (u : State) (b : Bool) (t : Nat) : State :=
        let u := (u.modPwm n fun g => { g with on := none, lvl := vset g.lvl (if b then 1 else 0) true }).pwmDrive n t
        if s.flag F.PWMn_CFG_DTMODE n 0 then u.setLv (pwmSrc n + 5) (b != s.flag F.PWMn_CFG_ALOW n 0) else u
      (s.pwm[n].on = some w →
        (∀ t, w.t = some t →
          exec (.deadTimeEnd n w.b) s = .next (on (s.unsched (.deadTimeEnd n w.b)) w.b (at_ t)) ∧
          exec (.adaptiveTurnOn n w.b) s = .next (on (s.unsched (.adaptiveTurnOn n w.b)) w.b (at_ t))) ∧
        (w.t = none → w.toff / 256 < s.now →
          let t := if (w.toff + w.dtmax) / 256 = s.now then w.toff + w.dtmax
            else max (w.toff + w.dtmin) (min (s.now * 256 + w.margin) (w.toff + w.dtmax))
          exec (.transitionComplete n) s = .next
            ((s.modPwm n fun g => { g with on := some { w with t := some t } }).schedAt (t / 256) (.adaptiveTurnOn n w.b))) ∧
        (w.t = none → exec (.dtmaxExpiry n) s = .next
          (on (if w.toff / 256 < s.now ∧ s.pwmTc n = s.pwmDir n then s
               else (s.raiseEv (pwmSrc n + 6)).bump F.PWMn_ERR_CNT_NOTRANS n 0) w.b (at_ (w.toff + w.dtmax))))) ∧
      (s.fld F.PWMn_CFG_TRIPEN n 0 / 2 ^ k.val % 2 = 1 → ∃ t, exec (.pwmTrip n k) s = .next t ∧
        t.fld F.PWMn_STAT_TRIPPED n 0 / 2 ^ k.val % 2 = 1 ∧ t.pwm[n].safe = true ∧ t.pwm[n].on = none ∧
        t.destLv (pwmDst n + k.val) = true ∧ t.mx.lv.get (pwmSrc n + 8) false = true ∧
        (∀ x : Fin 2, t.pwmPin n x = match (if x = 0 then s.fld F.PWMn_SAFE_A n 0 else s.fld F.PWMn_SAFE_B n 0) with
          | 0 => some false | 1 => some true | _ => none) ∧ ∀ m : GenId, m ≠ n → t.pwm[m] = s.pwm[m]) ∧
      (s.fld F.PWMn_CFG_TRIPEN n 0 / 2 ^ k.val % 2 = 0 → exec (.pwmTrip n k) s = .next
        { s with mx := { s.mx with dlv := s.mx.dlv.put (pwmDst n + k.val) true false } }) ∧
      (s.admits r .write .PWMn_STAT n 0 → r.owns (s.grpOwner (s.grpOf n)) = true →
        (s.pwmRuns n = false ∨ s.pwm[n].began ≠ s.now) → ∃ t, exec (.trippedClear r n v) s = .next t ∧
        ∀ j < 4, (t.fld F.PWMn_STAT_TRIPPED n 0 / 2 ^ j % 2 = 1 ↔ s.fld F.PWMn_STAT_TRIPPED n 0 / 2 ^ j % 2 = 1 ∧
          ¬(v.getLsbD (4 + j) = true ∧ s.fld F.PWMn_CFG_TRIPLAT n 0 / 2 ^ j % 2 = 1 ∧ s.destLv (pwmDst n + j) = false ∧
            ((s.opened r.master).came .PWMn_STAT n 0).getLsbD (4 + j) = false)))) ∧
  (∀ (s : State), s.mode.live = true →
      let out := s.fld F.PWM_CAL_STAT_OUT 0 0
      (s.flag F.PWM_CAL_STAT_FAIL 0 0 = false → ∃ t, exec .delayLineDue s = .next t ∧ t.dlWaits = true ∧
        (s.now + 40000, Instr.delayLineDue) ∈ t.cal ∧ (s.dlWaits = false → t.regs = s.regs) ∧
        (s.dlWaits = true → t.fld F.PWM_CAL_STAT_OUT 0 0 = (out + 1) % 32 ∧
          t.fld F.PWM_CAL_STAT_SKIPS 0 0 = min F.PWM_CAL_STAT_SKIPS.max (s.fld F.PWM_CAL_STAT_SKIPS 0 0 + 1))) ∧
      (s.dlWaits = true → s.edgeNear s.dlOut.1 s.dlOut.2 = false → ∃ t, exec .delayLineReplace s = .next t ∧ t.dlWaits = false ∧
        t.fld F.PWM_CAL_STAT_OUT 0 0 = (out + 1) % 32 ∧
        t.fld F.PWM_CAL_STAT_ROUNDS 0 0 = (s.fld F.PWM_CAL_STAT_ROUNDS 0 0 + 1) % 65536 ∧ t.pwm = s.pwm) ∧
      (∃ t, exec .delayLineFail s = .next t ∧ t.flag F.PWM_CAL_STAT_FAIL 0 0 = true ∧ t.dlWaits = false ∧
        ∀ e ∈ t.cal, e.2 ≠ Instr.delayLineDue))

/-! ## Timers and time of day -/

/-- Starts and stops of timers (R139, R141, Table 6.1): by EN, TM_START, TM_STOP and the matrix; a start loads RELOAD and begins a
countdown, so that the count is RELOAD now and reaches 0 RELOAD steps later; a stop acts at the end of the lc, and prevails over a
start of the same lc, before or after it (the model's reading, log entry 62): the start has not taken place. A capture of the lc of a
start holds RELOAD (R147).

Zero, matches, the compare port, captures (R142 to R149): the zero step raises its event; a match fires once a countdown, when the
count has come to the value in effect; the port stores its word, and a bus write of the same lc counts as discarded; a selected edge
captures count and fine part and raises its event; one that finds CAPF set, or cleared in this very lc (R9), counts an overrun; a second
edge of the lc captures nothing. -/
def Obligations.Timers : Prop :=
  (∀ (s : State) (r : Req) (n : TmrId) (v : Word), s.mode.live = true →
      let a := s.opened r.master
      let stopping := s.marked (RegName.TMn_CTRL.addr n 0) true
      let start (t : State) : State :=
        let u := if t.tmrZeroNow n then t.tmrZeroStep n else t
        let y := u.tmr[n]
        let was := (u.tmrBegan n).getD
          ⟨s.now, u.flag F.TMn_STAT_RUN n 0, y.zeroAt, y.pre, y.zdone, u.fld F.TMn_STAT_FIRED n 0⟩
        (u.modTmr n fun k => { k with was := some was }).tmrLoad n
      let stop (t : State) : State := (t.tmrUnstart n).mark (RegName.TMn_CTRL.addr n 0) true
      let one (m : TmrId) : Prop := m = n
      let pre := s.fld F.TMn_CTRL_PRE n 0
      let reload := (s.reg .TMn_RELOAD n 0).toNat
      (s.admits r .write .TMn_CTRL n 0 →
        (let t := a.writeReg .TMn_CTRL n 0 (v ||| 1)
         exec (.timerEnStart r n v) s = .next (if stopping then t else start t)) ∧
        exec (.timerEnStop r n v) s = .next (stop (a.writeReg .TMn_CTRL n 0 (v &&& ~~~1)))) ∧
      ((∀ m : TmrId, v.getLsbD m.val = true ↔ one m) →
        (s.admits r .write .TM_START 0 0 → exec (.tmStart r v) s = .next (if stopping then a else start a)) ∧
        (s.admits r .write .TM_STOP 0 0 → exec (.tmStop r v) s = .next (stop a))) ∧
      exec (.timerStartEvent n) s = .next (if stopping then s else start s) ∧
      exec (.timerStopEvent n) s = .next (stop s) ∧
      (s.tmrBegan n = none → s.tmrUnstart n = s ∧ (s.tmrZeroNow n = false →
        let t := (start s).tmrUnstart n
        t.tmr[n].zeroAt = s.tmr[n].zeroAt ∧ t.tmr[n].pre = s.tmr[n].pre ∧ t.tmr[n].zdone = s.tmr[n].zdone ∧
          t.flag F.TMn_STAT_RUN n 0 = s.flag F.TMn_STAT_RUN n 0 ∧ t.fld F.TMn_STAT_FIRED n 0 = s.fld F.TMn_STAT_FIRED n 0)) ∧
      (let t := s.tmrLoad n
       t.flag F.TMn_STAT_RUN n 0 = true ∧ t.fld F.TMn_STAT_FIRED n 0 = 0 ∧ t.tmrCount n = reload ∧ t.tmr[n].zdone = false ∧
       (s.now + reload * 2 ^ pre, Instr.timerZero n) ∈ t.cal ∧
       (∀ c : Fin 4, s.marked (RegName.TMn_CHc_FINE.addr n c) true = true → t.reg .TMn_CHc_VAL n c = s.reg .TMn_RELOAD n 0) ∧
       (∀ m : TmrId, m ≠ n → t.tmr[m] = s.tmr[m]) ∧
       ∀ d, ({ t with now := s.now + d } : State).tmrCount n = reload - d / 2 ^ pre) ∧
      (let t := s.tmrStop n
       t.flag F.TMn_STAT_RUN n 0 = false ∧ t.tmrCount n = s.tmrCount n ∧ ∀ d, ({ t with now := s.now + d } : State).tmrCount n = t.tmrCount n)) ∧
  (∀ (s : State) (n : TmrId) (c : Fin 4) (w : Word) (e : CapEdge), s.mode.live = true →
      let cap := s.flag F.TMn_CHc_CFG_MODE n c
      let p : Fin 2 := Fin.ofNat 2 (c.val / 2)
      let va := RegName.TMn_CHc_VAL.addr n c
      let fa := RegName.TMn_CHc_FINE.addr n c
      let held := s.fld F.TMn_STAT_CAPF n 0 / 2 ^ c.val % 2 = 1 ∨ s.oldFld F.TMn_STAT_CAPF n 0 / 2 ^ c.val % 2 = 1
      let fires := s.tmr[n].zeroAt - (s.reg .TMn_CHc_VAL n c).toNat * 2 ^ s.tmr[n].pre
      (s.flag F.TMn_STAT_RUN n 0 = true → s.tmr[n].zdone = false → s.tmr[n].zeroAt ≤ s.now →
        ∃ t, exec (.timerZero n) s = .next t ∧ t.tmr[n].zdone = true ∧ t.tmr[n].zeroAt = s.now ∧ t.mx.ev = s.mx.ev ++ [tmrSrc n] ∧
          t.regs = s.regs ∧ (∀ m : TmrId, m ≠ n → t.tmr[m] = s.tmr[m])) ∧
      (s.flag F.TMn_STAT_RUN n 0 = true → cap = false → s.fld F.TMn_STAT_FIRED n 0 / 2 ^ c.val % 2 = 0 →
        (fires ≤ s.now →
          let u := ((s.unsched (.timerMatch n c)).setFld F.TMn_STAT_FIRED n 0 (s.fld F.TMn_STAT_FIRED n 0 + 2 ^ c.val)).raiseEv
            (tmrSrc n + 1 + c.val)
          exec (.timerMatch n c) s = .next (u.tmrPin n p c.val (s.fld F.TMn_CHc_CFG_MATCHACT n c))) ∧
        (s.now < fires → exec (.timerMatch n c) s = .next s)) ∧
      (cap = false → exec (.timerComparePort n c w) s = .next
        ((((if s.marked va false = true ∧ s.marked va true = false then s.bump F.TMn_ERR_CNT_WRCONF n 0 else s).setReg
          .TMn_CHc_VAL n c w).mark va true).tmrDue n c)) ∧
      (cap = true → (let sel := s.fld F.TMn_CHc_CFG_CAPEDGE n c; if e.rising then sel % 2 = 1 else 2 ≤ sel) →
        s.marked fa true = false →
        ∃ t, exec (.timerCapture n c e) s = .next t ∧ t.reg .TMn_CHc_VAL n c = BitVec.ofNat 32 (s.tmrCount n) ∧
          t.reg .TMn_CHc_FINE n c = (if e.fine = true ∧ s.flag F.TMn_CHc_CFG_CAPSRC n c = true
            then BitVec.ofNat 32 (256 + e.fs.toNat) else 0) ∧
          t.fld F.TMn_STAT_CAPF n 0 / 2 ^ c.val % 2 = 1 ∧ t.mx.ev = s.mx.ev ++ [tmrSrc n + 5 + c.val] ∧
          (held → (t.reg .TMn_STAT n 0).getLsbD (8 + c.val) = true) ∧
          t.fld F.TMn_ERR_CNT_CAPOVR n 0 = (if held
            then min F.TMn_ERR_CNT_CAPOVR.max (s.fld F.TMn_ERR_CNT_CAPOVR n 0 + 1) else s.fld F.TMn_ERR_CNT_CAPOVR n 0) ∧
          exec (.timerCapture n c e) t = .next t) ∧
      (∀ cur rank act before, s.mx.lv.get (tmrSrc n + 9 + p.val) false = cur → act < 4 → act ≠ 0 → s.tmr[n].acted[p] = before →
        before.1 ≠ s.now → (s.tmrPin n p rank act).mx.lv.get (tmrSrc n + 9 + p.val) false =
          (if act = 1 then true else if act = 2 then false else !cur)))

/-- Time of day (R152 to R158): each lc adds ADDEND and carries a second where NS comes to 10^9, which the roll-over announces; ADDEND
is kept within 1,000 ppm; a PPS edge is taken unless it follows within 500 ms; a read of NS latches its master's snapshot; a commit sets
SEC and NS from the set registers of the start of the lc, at once or at its time, at once too where its time is moved to one that has
passed; a bad NS is refused in every mode (log entry 119); CANCEL withdraws it. A roll-over that coincides with a timed commit raises its
event all the same (log entry 138). -/
def Obligations.TimeOfDay : Prop :=
  ∀ (s : State) (r : Req) (v : Word) (timed : Bool),
    let a := s.opened r.master
    let ns := s.tod.acc / 2 ^ 30
    let second := 1000000000 * 2 ^ 30
    let setNs := getBits (s.oldReg .TOD_SET_NS 0 0) 29 0
    let at_ := getBits (s.reg .TOD_COMMIT_AT 0 0) 29 0
    let secLo := BitVec.ofNat 32 s.tod.sec.toNat
    let hiFine := BitVec.ofNat 32 (s.tod.sec.toNat / 2 ^ 32 * 65536 + s.tod.acc / 2 ^ 22 % 256)
    let committed (t : State) : State :=
      let sec := BitVec.ofNat 48 (getBits (s.oldReg .TOD_SET_SEC_HI 0 0) 15 0 * 2 ^ 32 + (s.oldReg .TOD_SET_SEC 0 0).toNat)
      let t : State := { t with tod := { t.tod with acc := setNs * 2 ^ 30, sec := sec } }
      ((t.setFld F.TOD_STAT_VALID 0 0 1).setFld F.TOD_STAT_PENDING 0 0 0).raiseEv 6
    (s.mode.live = true → s.flag F.TOD_STAT_PENDING 0 0 = false →
      let acc := s.tod.acc + (s.reg .TOD_ADDEND 0 0).toNat
      let t := s.todTick
      t.tod.acc = (if second ≤ acc then acc - second else acc) ∧ t.tod.sec = (if second ≤ acc then s.tod.sec + 1 else s.tod.sec) ∧
        t.inbox = (if second ≤ acc then s.inbox ++ [.todRollover] else s.inbox) ∧ t.regs = s.regs) ∧
    (s.mode.live = true → ∃ t, exec .todRollover s = .next t ∧
      t.tod.acc = (if second ≤ s.tod.acc then s.tod.acc - second else s.tod.acc) ∧
      t.tod.sec = (if second ≤ s.tod.acc then s.tod.sec + 1 else s.tod.sec) ∧
      t.mx.ev = s.mx.ev ++ [4] ∧ (s.flag F.TOD_CFG_PPSOUT 0 0 = true → t.tod.ppsOut = true ∧ (s.now + 400000, Instr.ppsOutFall) ∈ t.cal)) ∧
    exec .ppsOutFall s = .next { s with tod := { s.tod with ppsOut := false } } ∧
    (s.admits r .write .TOD_ADDEND 0 0 → exec (.todAddendWrite r v) s = .next
      (if v.toNat < 2681670206 then (a.setReg .TOD_ADDEND 0 0 2681670206).raiseFld F.TOD_STAT_CLAMP 0 0 1
       else if 2687038914 < v.toNat then (a.setReg .TOD_ADDEND 0 0 2687038914).raiseFld F.TOD_STAT_CLAMP 0 0 1
       else a.setReg .TOD_ADDEND 0 0 v)) ∧
    (s.mode.live = true → s.fld F.TOD_CFG_SRC 0 0 = 3 → s.flag F.TOD_CFG_PPSOUT 0 0 = false →
      ((∀ t, s.tod.ppsLast = some t → t + 200000000 ≤ s.now) → ∃ t, exec .todPpsEdge s = .next t ∧
        t.reg .TOD_PPS_NS 0 0 = BitVec.ofNat 32 ns ∧ t.reg .TOD_PPS_SEC 0 0 = secLo ∧ t.reg .TOD_PPS_FINE 0 0 = hiFine ∧
        t.flag F.TOD_STAT_PPS_LOST 0 0 = false ∧ t.mx.ev = s.mx.ev ++ [5] ∧ t.tod = { s.tod with ppsLast := some s.now } ∧
        (s.now + 440000000, Instr.ppsLost) ∈ t.cal) ∧
      (∀ t, s.tod.ppsLast = some t → s.now < t + 200000000 → exec .todPpsEdge s = .next s) ∧
      exec .ppsLost s = .next (s.setFld F.TOD_STAT_PPS_LOST 0 0 1)) ∧
    (s.admits r .read .TOD_NS 0 0 → exec (.todNsRead r) s = .next
      { a with ans := ⟨BitVec.ofNat 32 ns, false⟩, tod := { s.tod with snap := vset s.tod.snap r.master (secLo, hiFine) } }) ∧
    (s.admits r .write .TOD_COMMIT 0 0 →
      (1000000000 ≤ setNs → exec (.todCommitGo r timed) s = .next (a.raiseFld F.TOD_STAT_SETERR 0 0 1)) ∧
      (s.mode.live = true → setNs < 1000000000 → timed = true → (at_ = 0 ∨ ns < at_) →
        exec (.todCommitGo r timed) s = .next (a.setFld F.TOD_STAT_PENDING 0 0 1)) ∧
      (s.mode.live = true → setNs < 1000000000 → (timed = false ∨ (at_ ≠ 0 ∧ at_ ≤ ns)) →
        exec (.todCommitGo r timed) s = .next (committed a)) ∧
      exec (.todCommitCancel r) s = .next (a.setFld F.TOD_STAT_PENDING 0 0 0)) ∧
    (s.mode.live = true → s.flag F.TOD_STAT_PENDING 0 0 = true →
      exec .todTimedCommit s = .next (committed s) ∧
      (let u := s.writeReg .TOD_COMMIT_AT 0 0 v
       s.commitAtWrite v = if u.commitAt ≠ 0 ∧ u.commitAt ≤ ns then committed u else u) ∧
      (let acc := s.tod.acc + (s.reg .TOD_ADDEND 0 0).toNat
       let u : State := { s with tod := { s.tod with acc := acc } }
       acc < second → s.todTick = if at_ ≠ 0 ∧ ns < at_ ∧ at_ ≤ acc / 2 ^ 30 then committed u else u))

/-! ## Position interfaces -/

/-- Quadrature counting and its commands (R161 to R172): a level passes the filter once it has stood for FILT + 1 lc up to two lc ago;
enabling clears and validates the interface, in every mode but Loading; a counted edge moves POS by one modulo MOD in its direction, both
levels changing in one lc is an error, whether as one change or as two edges; an index event, with A and B as ZQUAL says, acts after the
edges of its lc, latches POS and loads 0 in the next lc where ZRST asks it; a probe edge where PRBSRC and PRBEDGE select it latches
position and time; a bus write presets the count; a bad divider is refused. VALID follows enabling at once unless an error stands, an index
event is awaited (REFREQ) or, in SSI mode, a good frame (R168, R174). An index event of the lc in which errors are cleared is checked and
does not validate (log entry 142); what enabling does to BUSY and METHOD is log entry 58. -/
def Obligations.PositionCounting : Prop :=
  ∀ (s : State) (r : Req) (n : PosId) (v : Word) (a b z : Bool) (e : PrbEdge),
    let an := s.opened r.master
    let p := s.pos[n]
    let mode := s.fld F.POSn_CFG_MODE n 0
    let pos := s.reg .POSn_POS n 0
    let md := s.reg .POSn_MOD n 0
    let runs := s.mode.live = true ∧ s.flag F.POSn_CFG_EN n 0 = true ∧ mode ≠ 0
    let untouched := s.marked (RegName.POSn_POS.addr n 0) false = false
    let first := p.qerrAt ≠ some s.now ∧ ∀ w, p.was = some w → w.lc ≠ s.now
    let steady := p.ha = steadyPin p.a ∧ p.hb = steadyPin p.b ∧ p.hz = steadyPin p.z
    let cleared := s.marked (RegName.POSn_STAT.addr n 0) true
    let qual := s.fld F.POSn_CFG_ZQUAL n 0 = (if p.a then 2 else 0) + if p.b then 1 else 0
    (∀ (h : BitVec 18) (f : Nat) (cur x : Bool), f < 16 →
      ((∀ i, i ≤ f → h.getLsbD (2 + i) = x) → filtered h f cur = x) ∧
      (∀ i j, i ≤ f → j ≤ f → h.getLsbD (2 + i) ≠ h.getLsbD (2 + j) → filtered h f cur = cur)) ∧
    (s.mode ≠ .loading → s.admits r .write .POSn_CFG n 0 → getBits v 23 16 ≠ 0 → getBits v 3 2 ≠ 3 →
      (let u := an.writeReg .POSn_CFG n 0 (v ||| 0x80000000)
       exec (.posEnable r n v) s = .next (if s.flag F.POSn_CFG_EN n 0 then u else u.posEnable n)) ∧
      (∃ t, exec (.posDisable r n v) s = .next t ∧ t.reg .POSn_POS n 0 = pos ∧ t.flag F.POSn_CFG_EN n 0 = false ∧
        ∀ e ∈ t.cal, posTimed n e.2 = false)) ∧
    (let t := s.posEnable n
     t.reg .POSn_POS n 0 = 0 ∧ t.reg .POSn_SPEED n 0 = 0 ∧ t.pos[n].cnt = 0 ∧ t.pos[n].idx = none ∧ t.pos[n].a = p.a ∧
     t.pos[n].ha = p.ha ∧ t.flag F.POSn_STAT_REF n 0 = false ∧ t.flag F.POSn_STAT_BUSY n 0 = false ∧
     t.flag F.POSn_STAT_METHOD n 0 = false ∧ (∀ m : PosId, m ≠ n → t.pos[m] = s.pos[m]) ∧
     t.flag F.POSn_STAT_VALID n 0 = (!s.posErr n && !s.flag F.POSn_CFG_REFREQ n 0 && decide (mode ≠ 2)) ∧
     t.mx.lv.get (posSrc n + 2) false = t.flag F.POSn_STAT_VALID n 0) ∧
    (∃ t, exec (.quadEdge n .pins ⟨a, b, z⟩) s = .next t ∧ t.regs = s.regs ∧ t.pos[n].a = p.a ∧ t.pos[n].b = p.b ∧
      t.pos[n].ha.getLsbD 0 = a ∧ t.pos[n].hb.getLsbD 0 = b ∧ t.pos[n].hz.getLsbD 0 = z) ∧
    (runs → mode = 1 → first →
      (p.a ≠ a → p.b ≠ b → ∃ t, exec (.quadEdge n .filtered ⟨a, b, z⟩) s = .next t ∧ t.reg .POSn_POS n 0 = pos ∧
        t.flag F.POSn_STAT_QERR n 0 = true ∧ t.flag F.POSn_STAT_VALID n 0 = false ∧ t.mx.ev = s.mx.ev ++ [posSrc n + 6] ∧
        t.pos[n].a = a ∧ t.pos[n].b = b) ∧
      (s.fld F.POSn_CFG_MULT n 0 = 2 → untouched →
        ((p.a ≠ a ∧ p.b = b) ∨ (p.a = a ∧ p.b ≠ b) →
          let fwd := if p.a = a then a = b else a ≠ b
          ∃ t, exec (.quadEdge n .filtered ⟨a, b, z⟩) s = .next t ∧ t.pos[n].a = a ∧ t.pos[n].b = b ∧ t.pos[n].z = z ∧
            t.reg .POSn_POS n 0 = (if md = 0 then (if fwd then pos + 1 else pos - 1)
              else BitVec.ofNat 32 ((pos.toNat + (if fwd then 1 else md.toNat - 1)) % md.toNat)) ∧
            t.pos[n].cnt = p.cnt + (if fwd then 1 else -1) ∧ t.mx.word.get (posSrc n) 0 = t.reg .POSn_POS n 0) ∧
        (∃ t u, exec (.quadEdge n .filtered ⟨!p.a, p.b, z⟩) s = .next t ∧
          exec (.quadEdge n .filtered ⟨!p.a, !p.b, z⟩) t = .next u ∧ u.reg .POSn_POS n 0 = pos ∧ u.pos[n].cnt = p.cnt ∧
          u.flag F.POSn_STAT_QERR n 0 = true))) ∧
    (s.isLate = false → exec (.indexEvent n) s = .next (s.defer (.indexEvent n))) ∧
    (runs → mode ≠ 2 → s.isLate = true → qual → p.held = false → p.idxAt ≠ some s.now →
      ∃ t, exec (.indexEvent n) s = .next t ∧ t.reg .POSn_IDXPOS n 0 = pos ∧ t.flag F.POSn_STAT_REF n 0 = true ∧
      posSrc n + 4 ∈ t.mx.ev ∧ t.pos[n].await = (p.await && cleared) ∧
      (∀ c f, p.idx = some (c, f) → p.skip = false ∨ cleared = true → p.qerrAt ≠ some s.now →
        let fwd := match p.e1 with | some (_, x) => x | none => true
        let lines : Int := s.fld F.POSn_LINES_LINES n 0
        let want := if f = fwd then (if fwd then lines else -lines) else 0
        lines ≠ 0 → s.fld F.POSn_LINES_TOL n 0 < (p.cnt - c - want).natAbs →
          t.flag F.POSn_STAT_IDXERR n 0 = true ∧ t.flag F.POSn_STAT_VALID n 0 = false) ∧
      (t.pos[n].zrst = true ↔ s.flag F.POSn_CFG_ZRST n 0 = true ∧ p.qerrAt ≠ some s.now ∧ untouched) ∧
      (∀ c f, p.idx = some (c, f) → t.reg .POSn_IDXDIFF n 0 = BitVec.ofInt 32 (p.cnt - c)) ∧
      (t.pos[n].zrst = true → steady → (t.posTick n).reg .POSn_POS n 0 = 0)) ∧
    (runs → s.isLate = true → ¬ qual → exec (.indexEvent n) s = .next s) ∧
    (runs → (s.flag F.POSn_CFG_PRBSRC n 0 = true ↔ e.src = .dest) →
      s.fld F.POSn_CFG_PRBEDGE n 0 / (if e.rising then 1 else 2) % 2 = 1 → p.before = none →
      ∃ t, exec (.probeEdge n e) s = .next t ∧ t.reg .POSn_PRB_POS n 0 = pos ∧
        t.reg .POSn_PRB_NS n 0 = BitVec.ofNat 32 (s.tod.acc / 2 ^ 30) ∧ t.reg .POSn_PRB_SEC n 0 = BitVec.ofNat 32 s.tod.sec.toNat ∧
        t.flag F.POSn_STAT_PRBF n 0 = true ∧ t.mx.ev = s.mx.ev ++ [posSrc n + 8] ∧ t.pos = s.pos ∧
        t.flag F.POSn_STAT_PRBOVF n 0 = (s.flag F.POSn_STAT_PRBOVF n 0 || s.flag F.POSn_STAT_PRBF n 0)) ∧
    (¬ (s.flag F.POSn_CFG_PRBSRC n 0 = true ↔ e.src = .dest) → exec (.probeEdge n e) s = .next s) ∧
    (s.admits r .write .POSn_POS n 0 → ∃ t, exec (.posPreset r n v) s = .next t ∧ t.reg .POSn_POS n 0 = v ∧
      t.mx.word.get (posSrc n) 0 = v ∧ t.pos[n] = { p with zrst := false }) ∧
    (s.admits r .write .POSn_DIVNM n 0 →
      let num := getBits v 31 16
      let den := getBits v 15 0
      exec (.posDivnmWrite r n v) s = .next (if num = 0 ∨ den = 0 ∨ den < num then an.bump F.POSn_ERR_CNT_SIG n 0
        else an.setReg .POSn_DIVNM n 0 v)) ∧
    (s.admits r .write .POSn_STAT n 0 → v.getLsbD 10 = false →
      let clear := v &&& 0x370 &&& ~~~an.came .POSn_STAT n 0
      (s.posErr n = false →
        exec (.posErrorClear r n v) s = .next (an.setReg .POSn_STAT n 0 (s.reg .POSn_STAT n 0 &&& ~~~clear))) ∧
      (s.posErr n = true → ∃ t, exec (.posErrorClear r n v) s = .next t ∧
        t.flag F.POSn_STAT_QERR n 0 = (s.flag F.POSn_STAT_QERR n 0 && !clear.getLsbD 4) ∧
        t.flag F.POSn_STAT_IDXERR n 0 = (s.flag F.POSn_STAT_IDXERR n 0 && !clear.getLsbD 5)))

/-- SSI, sin/cos and speed (R173 to R180): a request starts a frame and the monoflop, or counts as an overrun while that runs; BUSY
falls when the frame's (LEN + 1) × 2 × DIV lc are over; a good frame sets POS and its event, and VALID where no error stands and no index
event is awaited, a bad one SSIERR and its own; a sample is answered 6 lc later under the correction of its own lc, with AMPERR outside
the amplitude limits; a speed window closes after the edges of its lc, and its result lands 4 lc later. What the sensor sends and the
last bit of the angle are free (log entries 35, 36); the frames and the unit of the other speeds are log entries 33 and 34. -/
def Obligations.SsiSinCosSpeed : Prop :=
  ∀ (s : State) (r : Req) (n : PosId) (bits : BitVec 40) (low : Bool), s.mode.live = true → s.flag F.POSn_CFG_EN n 0 = true →
    let p := s.pos[n]
    let mode := s.fld F.POSn_CFG_MODE n 0
    let len := s.fld F.POSn_SSI_CFG_LEN n 0
    let div := s.fld F.POSn_SSI_CFG_DIV n 0
    let asked (t : State) : State :=
      let f := Config.ssiFrame s.fresh
      let u := (t.draw.setFld F.POSn_STAT_BUSY n 0 1).modPos n fun y => { y with mono := true, frame := some ⟨s.now, len, div, false⟩ }
      (u.sched ((2 * len + 1) * div + s.fld F.POSn_SSI_CFG_DLY n 0 + 1) (.ssiFrameEnd n f.1 f.2)).sched
        ((len + 1) * 2 * div + s.fld F.POSn_SSI_CFG_MONO n 0 * 100) (.monoflopEnd n)
    (mode = 2 → s.posSlave = false →
      exec (.ssiRequestEvent n) s = .next (if p.mono then s.bump F.POSn_ERR_CNT_SSIOVR n 0 else asked s) ∧
      (s.admits r .write .POSn_STAT n 0 → exec (.ssiBusyWrite r n) s = .next
        (if p.mono then (s.opened r.master).bump F.POSn_ERR_CNT_SSIOVR n 0 else asked (s.opened r.master)))) ∧
    (mode = 2 → (s.posSlave = true ∨ ∃ f, p.frame = some f ∧ f.done = false) →
      let d := s.ssiDecode n bits low
      ∃ t, exec (.ssiFrameEnd n bits low) s = .next t ∧ t.flag F.POSn_STAT_BUSY n 0 = s.flag F.POSn_STAT_BUSY n 0 ∧
        t.pos[n].ssiOk = d.1 ∧ t.flag F.POSn_STAT_VALID n 0 = (d.1 && !s.posErr n && !p.await) ∧ t.flag F.POSn_STAT_SSIERR n 0 = !d.1 ∧
        t.reg .POSn_POS n 0 = (if d.1 then BitVec.ofNat 32 d.2 else s.reg .POSn_POS n 0) ∧
        t.mx.ev = s.mx.ev ++ [if d.1 then posSrc n + 10 else posSrc n + 11]) ∧
    (mode = 2 → ∀ f, p.frame = some f →
      let past := f.start + (f.len + 1) * 2 * f.div ≤ s.now
      ((s.posTick n).flag F.POSn_STAT_BUSY n 0 = (if past then false else s.flag F.POSn_STAT_BUSY n 0)) ∧
      (s.posTick n).pos[n].frame = (if past then none else some f)) ∧
    (len ≤ 40 → s.fld F.POSn_SSI_CRC_CRCLEN n 0 = 0 → s.flag F.POSn_SSI_CFG_GRAY n 0 = false → s.flag F.POSn_SSI_CRC_INV n 0 = false →
      s.ssiDecode n bits low = (!low, bits.toNat % 2 ^ len)) ∧
    (s.flag F.POSn_STAT_BUSY n 0 = false → exec (.monoflopEnd n) s =
      .next ((s.unsched (.monoflopEnd n)).modPos n fun y => { y with mono := false })) ∧
    (mode = 3 →
      (∃ t, exec (.sincosSample n) s = .next t ∧
        t.pos[n].samp = p.samp ++ [⟨s.destWord (posDst n + 3), s.destWord (posDst n + 4), s.reg .POSn_SC_OFF n 0,
          s.reg .POSn_SC_GAIN n 0, s.reg .POSn_SC_PHASE n 0, s.reg .POSn_SC_AMP n 0⟩] ∧
        t.cal = s.cal ++ [(s.now + 6, .sincosResult n)]) ∧
      (∀ x rest, p.samp = x :: rest →
        let c := scVector x.off x.gain x.phase x.sin x.cos
        let amp2 := c.1 * c.1 + c.2.1 * c.2.1
        let lim (k : Nat) : Int := (k * k * 2 ^ 30 : Nat) * (c.2.2.1 * c.2.2.1)
        let low := lim (getBits x.amp 15 0)
        let high := lim (getBits x.amp 31 16)
        let ang := ((angleBits (vecScale c.1 c.2.1).1 (vecScale c.1 c.2.1).2 17 0 + 1) / 2 + (Config.angleError s.fresh).val + 65535)
          % 65536
        (amp2 < low ∨ high < amp2 → ∃ t, exec (.sincosResult n) s = .next t ∧ t.flag F.POSn_STAT_AMPERR n 0 = true ∧
          t.flag F.POSn_STAT_VALID n 0 = false ∧ t.reg .POSn_POS n 0 = s.reg .POSn_POS n 0 ∧ t.pos[n].samp = rest) ∧
        (low ≤ amp2 → amp2 ≤ high → p.quad = some (ang / 16384) → s.marked (RegName.POSn_POS.addr n 0) false = false →
          ∃ t, exec (.sincosResult n) s = .next t ∧
            (t.reg .POSn_POS n 0).toNat = getBits (s.reg .POSn_POS n 0) 31 16 * 65536 + ang ∧ t.pos[n].samp = rest))) ∧
    (s.isLate = false → exec (.speedWindow n) s = .next (s.defer (.speedWindow n))) ∧
    (mode ≠ 0 → p.win < s.now → s.isLate = true →
      ∃ t v, exec (.speedWindow n) s = .next t ∧ t.pos[n].win = s.now ∧ t.pos[n].spd = p.spd ++ [v] ∧
      t.cal = s.cal ++ [(s.now + 4, .speedResult n)] ∧
      (mode = 1 → s.fld F.POSn_SPD_X_XHI n 0 ≤ (p.cnt - p.wcnt).natAbs → t.flag F.POSn_STAT_METHOD n 0 = true ∧
        v = BitVec.ofNat 32 (b32.ofRatio (decide (p.cnt < p.wcnt)) ((p.cnt - p.wcnt).natAbs * 400000000) (s.now - p.win)))) ∧
    (∀ v rest, mode ≠ 0 → p.spd = v :: rest → exec (.speedResult n) s = .next
      ((((s.modPos n fun y => { y with spd := rest }).setReg .POSn_SPEED n 0 v).raiseData (posSrc n + 1) v).raiseEv (posSrc n + 9)))

/-! ## Loop engines -/

/-- Sets (R51, R185, R191, R201 to R203): a set that finds its pipeline free enters it and is counted, its output scheduled; one that
finds it occupied is held, a set held before it counted as an overrun; a held set enters when the pipeline frees, and before one that
arrives in that lc. A current set takes the marked words and consumes them. A set held while EN = 0 stays held and enters when EN is 1
again (the model's choice, log entry 141; leaving the Run modes drops it, log entry 19). -/
def Obligations.LoopSets : Prop :=
  ∀ (s : State) (n : LeId),
   (∀ p : Pipe, s.flag F.LEn_CTRL_EN n 0 = false → exec (.setAccept n p) s = .next s) ∧
   (∀ (p : Pipe) (v : Word) ins, p ≠ .gen → (s.leCtrlWrite n v).leAccepts n = true → (s.lePipe n p).held = some ins →
     ((s.leCtrlWrite n v).lePipe n p).held = some ins ∧
       (max s.now (s.lePipe n p).free, Instr.setAccept n p) ∈ (s.leCtrlWrite n v).cal) ∧
   (s.leAccepts n = true →
    let mark := s.fld F.LEn_INSET_MARK n 0
    let x (k : Nat) : Word := s.leIn n k
    (∀ f ∈ ([(.voltageSet n, .vlt, [x 6], 8, .voltageLoopOutput n), (.freqTrackerSet n, .ftr, [x 7, x 8], 10, .freqTrackerOutput n),
            (.profileTick n, .prf, [], 16, .profileOutput n)] : List (Instr × Pipe × List Word × Nat × Instr)),
      let p := f.2.1
      let y := s.lePipe n p
      s.pipeOn n p = true → ∃ t, exec f.1 s = .next t ∧ (∀ q : Pipe, q.ix ≠ p.ix → t.lePipe n q = s.lePipe n q) ∧
        (∀ m : LeId, m ≠ n → t.le[m] = s.le[m]) ∧ t.mem = s.mem ∧
        (y.job = none → y.free ≤ s.now → ∀ old, y.held = some old →
          (∃ j, t.lePipe n p = ⟨s.now + f.2.2.2.1, some j, some f.2.2.1, y.last⟩ ∧ j.at_ = s.now ∧ j.ins = old) ∧
          (s.now + f.2.2.2.1, f.2.2.2.2) ∈ t.cal ∧ (s.now + f.2.2.2.1, Instr.setAccept n p) ∈ t.cal ∧ t.mx.ev = s.mx.ev ∧
          t.fld F.LEn_SETS_SETS n 0 = (s.fld F.LEn_SETS_SETS n 0 + 1) % 2 ^ 32) ∧
        (y.job = none → y.free ≤ s.now → y.held = none →
          (∃ j, t.lePipe n p = ⟨s.now + f.2.2.2.1, some j, none, y.last⟩ ∧ j.at_ = s.now ∧
          j.bank = s.fld F.LEn_STAT_BANK n 0 ∧ j.ins = f.2.2.1 ∧ j.keep = true) ∧
          (s.now + f.2.2.2.1, f.2.2.2.2) ∈ t.cal ∧ t.fld F.LEn_SETS_SETS n 0 = (s.fld F.LEn_SETS_SETS n 0 + 1) % 2 ^ 32) ∧
        (y.job ≠ none ∨ s.now < y.free → t.lePipe n p = { y with held := some f.2.2.1 } ∧
          (max s.now y.free, Instr.setAccept n p) ∈ t.cal ∧
          t.fld F.LEn_ERR_CNT_OVR n 0 = (if y.held = none then s.fld F.LEn_ERR_CNT_OVR n 0
            else min F.LEn_ERR_CNT_OVR.max (s.fld F.LEn_ERR_CNT_OVR n 0 + 1)) ∧
          t.mx.ev = s.mx.ev ++ (if y.held = none then [] else [leSrc n + 16]))) ∧
    (s.pipeOn n .cur = true → mark ≠ 0 →
      let y := s.lePipe n .cur
      ∃ t, exec (.currentSetFormed n) s = .next t ∧
        (∀ k < 4, t.mx.dnew.get (leDst n + k) false = (s.mx.dnew.get (leDst n + k) false && decide (mark / 2 ^ k % 2 = 0))) ∧
        (y.job = none → y.free ≤ s.now → y.held ≠ none → (t.lePipe n .cur).held = some [x 0, x 1, x 2, x 3] ∧
          ∃ j, (t.lePipe n .cur).job = some j ∧ j.at_ = s.now) ∧
        (y.job = none → y.free ≤ s.now → y.held = none → (∃ j, (t.lePipe n .cur).job = some j ∧ j.at_ = s.now ∧
          j.ins = [x 0, x 1, x 2, x 3, x 4, x 5] ∧ j.bank = s.fld F.LEn_STAT_BANK n 0) ∧
          (s.flag F.LEn_CTRL_OBSFEED n 0 = false → (s.now + 12, Instr.currentLoopOutput n) ∈ t.cal)) ∧
        (y.job ≠ none ∨ s.now < y.free → t.lePipe n .cur = { y with held := some [x 0, x 1, x 2, x 3] })) ∧
    (∀ p : Pipe, p ≠ .gen → ∀ ins, (s.lePipe n p).held = some ins → (s.lePipe n p).job = none → (s.lePipe n p).free ≤ s.now →
      ∃ t j, exec (.setAccept n p) s = .next t ∧ t.lePipe n p = ⟨s.now + s.leSpacing n p, some j, none, (s.lePipe n p).last⟩ ∧ j.at_ = s.now ∧
        j.ins = (if p = .cur then s.curInputs n ins else ins)) ∧
    (∀ ws, s.le[n].gen.held = some ws → s.le[n].gen.run = false → s.pipeOn n .gen = true → ∃ t, exec (.setAccept n .gen) s = .next t ∧
      t.le[n].gen.run = true ∧ t.le[n].gen.pc = 0 ∧ t.le[n].gen.held = none ∧ (s.now + 1, Instr.generalBundle n) ∈ t.cal))

/-- Outputs in a Run mode (R186, R192, R194, R201 to R205, R467): the set's state words are written, the selected loop's words appear one
lc later and its strobe two, a withheld set counts as NaN; the pipeline keeps the words and is free. The tracker's frequency lies within
its limits, its lock needs 16 sets in a row that pass the test of LOCKTOL; a profile set drives what was computed, and SOFTLIM where its
plan leaves the soft limits. The tracker's angle and frequency, and profile words whose parameters or state are no motion, are free
(log entry 37). A path leaves the soft limits also where it turns outside them within a phase. A plan is followed without loss: two ticks are one of their total time, and its total time ends it. -/
def Obligations.LoopOutputs : Prop :=
  ∀ (s : State) (n : LeId) (j : LeJob), s.mode.run = true → j.keep = true →
    let done (t : State) (p : Pipe) : Prop := (t.lePipe n p).job = none ∧ (t.lePipe n p).held = (s.lePipe n p).held
    (∀ f ∈ ([(.currentLoopOutput n, .cur, 0), (.voltageLoopOutput n, .vlt, 1)] : List (Instr × Pipe × Nat)),
      (s.lePipe n f.2.1).job = some j → j.ready = true → ∃ t, exec f.1 s = .next t ∧ done t f.2.1 ∧ t.mem = (s.leWrite n j).mem ∧
        (t.lePipe n f.2.1).last = j.out.getD (s.lePipe n f.2.1).last ∧
        (∀ m : LeId, m ≠ n → t.le[m] = s.le[m]) ∧
        (∀ ws, j.out = some ws → s.lePlaced n f.2.2 = false → t.regs = s.regs ∧ t.mx = s.mx ∧
          t.le[n].drv = s.le[n].drv ++ (if s.fld F.LEn_CTRL_OUTSRC n 0 = f.2.2
            then (ws.zipIdx.map fun w => (s.now + 1, leSrc n + w.2, w.1)) ++ [(s.now + 2, leSrc n + 4, s.reg .LEn_STROBE n 0)] else [])) ∧
        (j.out = none → t.flag F.LEn_STAT_NAN n 0 = true ∧ t.mx.ev = s.mx.ev ++ [leSrc n + 17] ∧ t.le[n].drv = s.le[n].drv ∧
          t.fld F.LEn_ERR_CNT_NAN n 0 = min F.LEn_ERR_CNT_NAN.max (s.fld F.LEn_ERR_CNT_NAN n 0 + 1)) ∧
        (∀ ws, j.out = some ws → s.lePlaced n f.2.2 = true → s.pipeOn n .gen = true → t.le[n].gen.feed = some ws ∧
          Instr.generalStageGo n ∈ t.inbox)) ∧
    ((s.lePipe n .ftr).job = some j →
      let r := Config.tracker s.fresh
      let f := fMin (fMax r.2.1 (s.param n j.bank 0x38C)) (s.param n j.bank 0x390)
      ∀ k, j.out = some [k] → ∃ t, exec (.freqTrackerOutput n) s = .next t ∧ done t .ftr ∧ t.leGet n 0x18 = r.1 ∧ t.leGet n 0x1C = f ∧
        t.leGet n 0x20 = k ∧ t.mx.word.get (leSrc n + 5) 0 = r.1 ∧ t.mx.word.get (leSrc n + 6) 0 = f ∧
        t.mx.lv.get (leSrc n + 7) false = (if k = 0 then false else if 16 ≤ k.toNat then true
          else s.mx.lv.get (leSrc n + 7) false)) ∧
    (let va := leCode ((s.param n j.bank 0x54).getLsbD 5) (j.ins.getD 0 0)
     let vb := leCode ((s.param n j.bank 0x54).getLsbD 6) (j.ins.getD 1 0)
     let vq := fSub (fMul vb (s.leCos n (s.leGet n 0x18))) (fMul va (s.leSin n (s.leGet n 0x18)))
     let k := (s.leGet n 0x20).toNat
     (s.ftrCompute n j).out = some [if fLe (fAbs vq) (fMul (s.param n j.bank 0x394) (fSqrt (fAdd (fMul va va) (fMul vb vb))))
      then BitVec.ofNat 32 (min 0xFFFFFFFF (k + 1)) else 0]) ∧
    (∀ pos vel acc past,
      j.out = some [pos, vel, acc] ∧ past = j.past ∨
        j.out = none ∧ (let r := Config.profile s.fresh
          pos = r.1 ∧ vel = fLimit r.2.1 (s.param n j.bank 0x200) ∧ acc = fLimit r.2.2.1 (s.param n j.bank 0x204) ∧
            past = (j.plan && r.2.2.2)) →
      (s.lePipe n .prf).job = some j →
      ∃ t, exec (.profileOutput n) s = .next t ∧ done t .prf ∧ t.leGet n 0x40 = pos ∧ t.leGet n 0x44 = vel ∧ t.leGet n 0x48 = acc ∧
        t.mx.word.get (leSrc n + 8) 0 = pos ∧ t.mx.word.get (leSrc n + 9) 0 = vel ∧ t.mx.word.get (leSrc n + 10) 0 = acc ∧
        (past = true → t.flag F.LEn_STAT_SLOVER n 0 = true ∧ t.mx.ev = s.mx.ev ++ [leSrc n + 11]) ∧
        (past = false → t.regs = s.regs ∧ t.mx.ev = s.mx.ev)) ∧
    (∀ (k : Kin) (gs : List Seg) (a b : Rat), (∀ g ∈ gs, 0 ≤ g.d) → 0 ≤ a → 0 ≤ b →
      k.advance gs (a + b) = (k.advance gs a).1.advance (k.advance gs a).2 b ∧
      k.advance gs (gs.map (·.d)).sum = (k.run gs, [])) ∧
    (∀ (lo hi : Option Rat) (k : Kin) (gs : List Seg), (k.outside lo hi = true → pathLeaves lo hi k gs = true) ∧
      (∀ g, (k.move g.j g.d).outside lo hi = true → pathLeaves lo hi k (g :: gs) = true) ∧
      (∀ d : Rat, k.a ≠ 0 → 0 < -k.v / k.a → -k.v / k.a < d → (k.move 0 (-k.v / k.a)).outside lo hi = true →
        pathLeaves lo hi k (⟨0, d⟩ :: gs) = true)) ∧
    (∀ kp e inc i lo hi : Word, let r := vltStep kp e inc i lo hi
      let o := fAdd (fMul kp e) (fAdd i inc)
      (fLt hi o = false → fLt o lo = false → r = (o, fAdd i inc)) ∧ (fLt hi o = true → r = (hi, if fLt 0 inc then i else fAdd i inc)) ∧
      (fLt hi o = false → fLt o lo = true → r = (lo, if fLt inc 0 then i else fAdd i inc)))

/-- Observer, coast-hold and general stage (R195 to R200, R206 to R208): the angle feeds an observer-fed current loop, due 9 lc later;
the confidence is read out and N low sets enter coast-hold; the escalation sets SAFEREQ, which its owner clears unless it is set in the
same cycle. The coast angle's start and rounding are the model's (log entry 38), the general stage's codes free (log entry 39). A start
request runs the general stage from bundle 0, outputs of the pipeline it is placed after in whatever state the engine
accepts sets; the request held before it starts first; a bundle whose registers are ready is executed and recorded as LAST, another waits
an lc. -/
def Obligations.ObserverAndGeneralStage : Prop :=
  ∀ (s : State) (r : Req) (n : LeId), s.mode.run = true →
    let a := s.opened r.master
    let o := Config.observer s.fresh
    let g := s.le[n].gen
    (∀ j, (s.lePipe n .obs).job = some j → j.out = none → ∃ t j', exec (.observerAngle n) s = .next t ∧
      (t.lePipe n .obs).job = some j' ∧ j'.ready = true ∧ j'.out = some [o.1, o.2.1, o.2.2.1, o.2.2.2] ∧ t.le[n].prev = j.at_ ∧
      t.fresh = s.fresh + 1 ∧
      (∀ c, (s.lePipe n .cur).job = some c → s.flag F.LEn_CTRL_OBSFEED n 0 = true → c.ready = false → s.leCoasts n = false →
        (t.lePipe n .cur).job = some (s.curCompute n c (some o.1)) ∧ (s.now + 9, Instr.currentLoopOutput n) ∈ t.cal)) ∧
    (∀ j ang fr m e, (s.lePipe n .obs).job = some j → j.out = some [ang, fr, m, e] → j.keep = true →
      let psi := s.param n j.bank 0x34
      let c := if fLt m (fMul 0x358637BD psi) then 0
        else fMax 0 (fSub (fSub 0x3F800000 (fDiv (fAbs (fSub m psi)) psi)) (fDiv (fAbs e) m))
      ∃ t, exec (.observerConfidence n) s = .next t ∧ t.reg .LEn_OBS_CONF n 0 = c ∧ t.mx.word.get (leSrc n + 12) 0 = c ∧
        (t.lePipe n .obs).job = none ∧
        (s.leGet n 0x110 = 0 → j.wr = [] → fLt c (s.param n j.bank 0x100) = true →
          (s.fld F.LEn_OBS_CFG_N n 0 ≤ (s.leGet n 0x10C).toNat + 1 → t.leGet n 0x110 = 1 ∧
            t.mx.lv.get (leSrc n + 13) false = true ∧ t.mx.ev = s.mx.ev ++ [leSrc n + 14] ∧
            (s.now + (s.reg .LEn_OBS_REACQ n 0).toNat, Instr.coastEscalate n) ∈ t.cal) ∧
          ((s.leGet n 0x10C).toNat + 1 < s.fld F.LEn_OBS_CFG_N n 0 → t.leGet n 0x110 = 0 ∧ t.mx.ev = s.mx.ev ∧
            t.leGet n 0x10C = s.leGet n 0x10C + 1))) ∧
    (s.leCoasts n = true → exec (.coastEscalate n) s =
      .next (((s.unsched (.coastEscalate n)).raiseFld F.LEn_STAT_SAFEREQ n 0 1).raiseEv (leSrc n + 15))) ∧
    (s.admits r .write .LEn_STAT n 0 →
      (r.owns (s.leOwner n) = true → ∃ t, exec (.safereqClear r n) s = .next t ∧
        t.flag F.LEn_STAT_SAFEREQ n 0 = (s.flag F.LEn_STAT_SAFEREQ n 0 && (a.came .LEn_STAT n 0).getLsbD 5) ∧
        (∀ q : LeId, q ≠ n → t.reg .LEn_STAT q 0 = s.reg .LEn_STAT q 0) ∧ t.fld F.LEn_STAT_BANK n 0 = s.fld F.LEn_STAT_BANK n 0) ∧
      (r.owns (s.leOwner n) = false → exec (.safereqClear r n) s = .next (a.bump F.PTU_FOREIGN_CNT_COUNT 0 0))) ∧
    (s.pipeOn n .gen = true → g.run = false → ∀ ws held,
      (g.held = none ∧ held = none ∧
        (g.feed = some ws ∨ (s.leAccepts n = true ∧ g.feed = none ∧ ws = [] ∧ s.fld F.LEn_CTRL_GENPOS n 0 = 0))) ∨
        (g.held = some ws ∧ held ≠ none ∧ g.feed = held) → ws.length ≤ 31 →
      ∃ t, exec (.generalStageGo n) s = .next t ∧ t.le[n].gen.run = true ∧ t.le[n].gen.pc = 0 ∧ t.le[n].gen.feed = none ∧
        t.le[n].gen.held = held ∧
        (∀ k (h : k < ws.length), t.le[n].gen.v[Fin.ofNat 32 (k + 1)] = ws[k]) ∧ t.flag F.LEn_GEN_STAT_BUSY n 0 = true ∧
        (s.now + 1, Instr.generalBundle n) ∈ t.cal) ∧
    (g.run = true → ∃ t, exec (.generalBundle n) s = .next t ∧
      t.fld F.LEn_GEN_STAT_BUNDLES n 0 = min 127 (g.cnt + 1) ∧
      (s.genStalls n = true → t.le[n].gen = { g with cnt := g.cnt + 1 } ∧ t.mem = s.mem ∧ (s.now + 1, Instr.generalBundle n) ∈ t.cal) ∧
      (s.genStalls n = false → g.pc < 64 → t.fld F.LEn_GEN_STAT_LAST n 0 = g.pc ∧ t.le[n].gen.v[0] = g.v[0] ∧
        (t.le[n].gen.run = true → g.pc < t.le[n].gen.pc) ∧
        (t.le[n].gen.run = false → t.flag F.LEn_GEN_STAT_BUSY n 0 = false)))

/-- Parameter swaps and table copies (R211, R214): a swap changes the bank once an lc, sets accepted in that lc use the new one, and a
bus write of the lc to the bank that becomes active is discarded and counted;
a copy of a right place starts, another answers ERR; at its end the lines read are stored, or ERR is set. How long it takes is
free (log entry 40); when its places and lines are judged, and the low address bits, are the model's choice (log entry 95). -/
def Obligations.SwapsAndTableCopies : Prop :=
  ∀ (s : State) (r : Req) (n : LeId) (v : Word), s.mode.live = true →
    let a := s.opened r.master
    let key := RegName.LEn_PARAM_SWAP.addr n 0
    let own := r.owns (s.leOwner n) = true
    let swapped (t : State) : Prop :=
      t.flag F.LEn_STAT_BANK n 0 = (!s.flag F.LEn_STAT_BANK n 0) ∧ t.leSwap n = t ∧
      ((∀ x ∈ s.le[n].wrote, x.1 ≠ s.now) → t.mem = s.mem) ∧
      (∀ at_ k w, s.le[n].wrote = [(s.now, at_, k, w)] → (at_ - leBase n) / 0x1000 = 1 - s.fld F.LEn_STAT_BANK n 0 → w < 256 ^ k →
        t.readLE at_ k = w ∧ t.fld F.LEn_ERR_CNT_ACTWR n 0 = min F.LEn_ERR_CNT_ACTWR.max (s.fld F.LEn_ERR_CNT_ACTWR n 0 + 1)) ∧
      t.fld F.LEn_PARAM_SWAP_COUNT n 0 = (s.fld F.LEn_PARAM_SWAP_COUNT n 0 + 1) % 2 ^ 16 ∧
      (∀ m : LeId, m ≠ n → t.le[m] = s.le[m] ∧ t.reg .LEn_STAT m 0 = s.reg .LEn_STAT m 0) ∧
      ∀ p : Pipe, p ≠ .gen → ∀ j, (s.lePipe n p).job = some j →
        (j.at_ = s.now → ∃ j', (t.lePipe n p).job = some j' ∧ j'.bank = 1 - s.fld F.LEn_STAT_BANK n 0 ∧ j'.ins = j.ins) ∧
        (j.at_ ≠ s.now → (t.lePipe n p).job = some j)
    (s.marked key false = false → ∃ t, exec (.lnSwapEvent n) s = .next t ∧ swapped t) ∧
    (s.marked key false = true → exec (.lnSwapEvent n) s = .next s) ∧
    (s.admits r .write .LEn_PARAM_SWAP n 0 →
      (own → s.marked key false = false → ∃ t, exec (.paramSwap r n) s = .next t ∧ swapped t) ∧
      (own → s.marked key false = true → exec (.paramSwap r n) s = .next a) ∧
      (¬own → exec (.paramSwap r n) s = .next (a.bump F.PTU_FOREIGN_CNT_COUNT 0 0))) ∧
    (s.admits r .write .LEn_TBL_CTL n 0 → own → s.flag F.LEn_TBL_CTL_BUSY n 0 = false → v.getLsbD 16 = true →
      let src := (s.reg .LEn_TBL_SRC n 0).toNat / 32 * 32
      let dst := s.fld F.LEn_TBL_DST_DST n 0 / 32 * 32
      let len := v.toNat % 65536
      let fits : Prop := 0x10000000 ≤ src ∧ src + 4 * len ≤ 0x12000000 ∧ src < 0x12000000 ∧ 0x7800 ≤ dst ∧ dst + 4 * len ≤ 0x70000
      ∃ t, exec (.tableCopyGo r n v) s = .next t ∧ t.mem = s.mem ∧
        (fits → t.flag F.LEn_TBL_CTL_BUSY n 0 = true ∧ t.le[n].copy = some (src, dst, len) ∧
          ∃ d, (s.now + 1 + d, Instr.tableCopyDone n) ∈ t.cal) ∧
        (¬fits → t.flag F.LEn_TBL_CTL_BUSY n 0 = false ∧ t.flag F.LEn_TBL_CTL_ERR n 0 = true ∧ t.cal = s.cal)) ∧
    (∀ src dst len, s.le[n].copy = some (src, dst, len) →
      let u := ((s.unsched (.tableCopyDone n)).modLe n fun e => { e with copy := none }).setFld F.LEn_TBL_CTL_BUSY n 0 0
      ∃ t, exec (.tableCopyDone n) s = .next t ∧
        (∀ bs w, u.tblLines n src ((len + 7) / 8) = (some bs, w) → t = w.setBytes (leBase n + dst) (bs.take (4 * len))) ∧
        (∀ w, u.tblLines n src ((len + 7) / 8) = (none, w) → t = w.raiseFld F.LEn_TBL_CTL_ERR n 0 1))

/-! ## Solder matrix, background services, Ethernet -/

/-- The matrix's commands (R222, R225, R226, R229, R466): SM_SWEVTj raises the sources the writer's tenant owns, in the last lc of its
BUSCLK cycle (the model's choice, log entry 130), and counts a foreign one; SM_RENj changes the enables the tenant owns, from the next lc on, and of two requesters in one
BUSCLK cycle the lower one's write stands, and T0 at Monitor writes only what it owns (log entry 59); the end of a stretch returns the
output to 0, its edge as the enable at the start of the lc before allows. A disabled route passes 0 to a level
destination and no event to an edge destination, which follows the level all the same. -/
def Obligations.MatrixCommands : Prop :=
  ∀ (s : State) (r : Req) (j : Fin 2) (k : Fin 32) (d : Fin 1024) (v : Word), s.mode.live = true →
    let a := s.opened r.master
    (s.admits r .write .SM_SWEVTj j 0 →
      let own (i : Nat) : Prop := r.tenant = s.swOwner (32 * j.val + i)
      let hits := ((List.range 32).filter fun i => v.getLsbD i && decide (r.tenant = s.swOwner (32 * j.val + i))).map
        fun i => 0x020 + 32 * j.val + i
      ∃ t, exec (.swEventRaise r j v) s = .next t ∧
        (s.now % 2 = 1 → t.mx.ev = s.mx.ev ++ (s.mx.sw ++ hits) ∧ t.mx.sw = []) ∧
        (s.now % 2 = 0 → t.mx.ev = s.mx.ev ∧ t.mx.sw = s.mx.sw ++ hits) ∧
        t.mem = s.mem ∧ t.mx.routes = s.mx.routes ∧
        ((∀ i < 32, v.getLsbD i = true → own i) → t.regs = s.regs) ∧
        ((∃ i, i < 32 ∧ v.getLsbD i = true ∧ ¬own i) →
          t.fld F.SM_ERR_CNT_FOREIGN 0 0 = min F.SM_ERR_CNT_FOREIGN.max (s.fld F.SM_ERR_CNT_FOREIGN 0 0 + 1))) ∧
    (s.admits r .write .SM_RENj k 0 →
      let own (i : Nat) : Prop := ∃ x ∈ s.mx.routes, x.town = true ∧ x.dest = 32 * k.val + i ∧ r.tenant = Fin.ofNat 8 x.owner
      ((∀ w, s.mx.renBy.get k.val none = some w → w.cyc ≠ s.now / 2 ∨ w.master = r.master.val) →
        ∃ t, exec (.routeEnableWrite r k v) s = .next t ∧ t.mx.enStart = s.mx.enStart ∧ t.mx.routes = s.mx.routes ∧
          (∀ i < 32, (own i → t.routeEn (32 * k.val + i) = v.getLsbD i) ∧
            (¬own i → t.routeEn (32 * k.val + i) = s.routeEn (32 * k.val + i))) ∧
          (∀ q : Fin 32, q ≠ k → t.reg .SM_RENj q 0 = s.reg .SM_RENj q 0) ∧
          t.fld F.SM_ERR_CNT_FOREIGN 0 0 = (if (v ^^^ s.reg .SM_RENj k 0) &&& ~~~(s.renMine r k) = 0 then s.fld F.SM_ERR_CNT_FOREIGN 0 0
            else min F.SM_ERR_CNT_FOREIGN.max (s.fld F.SM_ERR_CNT_FOREIGN 0 0 + 1))) ∧
      (∀ w, s.mx.renBy.get k.val none = some w → w.cyc = s.now / 2 →
        (w.master < r.master.val → exec (.routeEnableWrite r k v) s = .next a) ∧
        (r.master.val < w.master → ∃ t, exec (.routeEnableWrite r k v) s = .next t ∧ t.mx.enStart = s.mx.enStart ∧
          ∀ i < 32, (own i → t.routeEn (32 * k.val + i) = v.getLsbD i) ∧
            (¬own i → t.routeEn (32 * k.val + i) = w.before.getLsbD i)))) ∧
    ((∃ x ∈ s.mx.routes, x.dest = d.val ∧ x.func = 6) → ∃ t, exec (.pulseStretchEnd d) s = .next t ∧ t.destLv d.val = false ∧
      t.mx.stretch.get d.val false = false ∧ t.mem = s.mem ∧
      (dstKind d.val = .edge → s.mx.enPrev.get d.val false = false → t.inbox = s.inbox)) ∧
    (∀ (b : Bool) (src : Option Nat), let t := s.levelArrive d.val false b src
      (dstKind d.val = .edge → t.destLv d.val = b ∧ t.inbox = s.inbox ∧ t.cal = s.cal ∧ t.regs = s.regs) ∧
      (dstKind d.val ≠ .edge → s.destLv d.val = false → t = s))

/-- Background services and interconnect windows (R303 to R307, R438 to R440, R108): a scrub beat checks its place and goes on,
a pass counted at the end, a single-bit error corrected; the trim's turn starts a check that can be made; a telemetry record is
pushed with its number and time, and a temperature held to its limits either way; the life estimate is the largest of the oscillators';
a window gives each master its shares; a bank serves the lowest master with credit that asks it. The device runs margin, trim, telemetry
and gates itself at the multiples of their intervals, what they measure free (log entry 16); the mask of a type 4 record and INDEX are
the model's (log entry 17), as is where the banks' beats come from (log entry 18). -/
def Obligations.BackgroundServices : Prop :=
  ∀ (s : State) (b : Bank) (p : Pair) (n : CmpId) (m : Fin 13) (ty idx : BitVec 8) (v : Word) (drift : Int) (since upto : List Nat),
    s.mode.cores = true →
    let kb := s.ix.scrub[b]
    let kp := s.ix.tcm[p]
    let ta := 0x38000000 + p.val * 0x100000 + kp * 4
    let bg := s.sys.bg
    (s.cleanAt (0x20000000 + b.val * 0x400000 + kb * 16) 16 → ∃ t, exec (.sramScrubBeat b) s = .next t ∧ t.mem = s.mem ∧
      t.upset = s.upset ∧ (kb + 1 < 262144 → t.ix.scrub[b] = kb + 1 ∧ t.regs = s.regs) ∧
      (262144 ≤ kb + 1 → t.ix.scrub[b] = 0 ∧ t.fld F.IX_ECC_CNTb_PASSES b 0 = (s.fld F.IX_ECC_CNTb_PASSES b 0 + 1) % 65536)) ∧
    (kp + 1 < 262144 →
      (SMap.find? s.upset ta = none → ∃ t, exec (.tcmScrubWord p) s = .next t ∧ t.ix.tcm[p] = kp + 1 ∧ t.regs = s.regs ∧
        t.mem = s.mem) ∧
      (SMap.find? s.upset ta = some false → ∃ t, exec (.tcmScrubWord p) s = .next t ∧ t.ix.tcm[p] = kp + 1 ∧
        SMap.find? t.upset ta = none ∧
        t.fld F.LP_ECC_CNT_TCM_CE p 0 = min F.LP_ECC_CNT_TCM_CE.max (s.fld F.LP_ECC_CNT_TCM_CE p 0 + 1))) ∧
    (s.mode.live = true → getBits (bg.getD 2 0) 31 16 ≠ 0 → s.sys.trimmed + 1 < 48 →
      ∃ t, exec (.dacTrimCheck n drift) s = .next t ∧ t.sys.trimmed = s.sys.trimmed + 1 ∧
        (s.cmps.chk = none → s.cmps.wait = none → s.cmpMode n ≠ 0 →
          s.flag F.CMPn_CFG_TRIP n 0 = false ∨ s.fld F.CMPn_CFG_PARTNER n 0 < 48 →
          (∃ c, t.cmps.chk = some c ∧ c.cmp = n ∧ c.kind = 0 ∧ c.trim = some drift) ∧ t.flag F.CMP_CHK_STAT_BUSY 0 0 = true)) ∧
    (0 < ty.toNat → ty.toNat ≤ 4 →
      let u := s.count F.BG_TEL_SEQ_SEQ 0 0
      let seq := (s.fld F.BG_TEL_SEQ_SEQ 0 0 + 1) % 65536
      let q : QId := Fin.ofNat 256 (getBits (bg.getD 1 0) 7 0)
      let words := [BitVec.ofNat 32 (ty.toNat * 2 ^ 24 + idx.toNat * 2 ^ 16 + seq),
        if ty = 3 then s.reg .BG_LIFE 0 0 else if ty = 4 then s.errMask else v, BitVec.ofNat 32 s.todNs, s.todSecLo]
      let x := if (bg.getD 1 0).getLsbD 8 then (u.qPushAll q words).2 else s
      ∃ t, exec (.telemetryRecord ty idx v) s = .next t ∧ (ty ≠ 1 ∨ bg = [] → t = x) ∧
        (ty = 1 → bg ≠ [] → t = (let lim := bg.getD 3 0
          let y := if (lim.setWidth 16).toInt < v.toInt then x.evcRaise 0x1E2 else x
          if ((lim >>> 16).setWidth 16).toInt < v.toInt then y.evcRaise 0x1E3 else y))) ∧
    (let part (x : Nat × Nat × Nat) : Nat := (x.1 - (x.2.1 - x.2.2)) * 25000000 / x.1
     let rings := s.sys.f0.toList.zip (upto.zip since)
     ∃ t w, exec (.lifeGate since upto) s = .next t ∧ t.reg .BG_LIFE 0 0 = BitVec.ofNat 32 (min w 0xFFFFFFFF) ∧
      t.sys.gates = s.sys.gates + 1 ∧ t.sys.f0 = s.sys.f0 ∧
      (∀ x ∈ rings, part x ≤ w) ∧ (w ≠ 0 → ∃ x ∈ rings, part x = w) ∧
      (bg ≠ [] → (bg.getD 4 0).toNat ≤ w → (s.now + 1, Instr.evcEvent 0x1E4) ∈ t.cal)) ∧
    (s.now % 400000000 = 0 → s.gateTick.sys.gates = s.sys.gates + 1) ∧
    (s.now % 2000 ≠ 0 → getBits (bg.getD 2 0) 31 16 = 0 → getBits (bg.getD 2 0) 15 0 = 0 → s.bgTick = s) ∧
    (∃ t, exec .reservationWindow s = .next t ∧ (∀ (c : Bank) (a : Fin 13), t.ix.credit[c][a] = s.fld F.IX_RSVb_m_SHARE c a) ∧
      (s.now + 2000, Instr.reservationWindow) ∈ t.cal ∧ t.mem = s.mem ∧
      (∀ c : Bank, t.reg .IX_BANKb_STAT c 0 = BitVec.ofNat 32 (((List.range 13).map fun a => s.fld F.IX_RSVb_m_SHARE c a).sum)) ∧
      ∀ a, (∀ c : Bank, a ≠ RegName.IX_BANKb_STAT.addr c 0) → SMap.find? t.regs a = SMap.find? s.regs a) ∧
    ((∃ x ∈ s.ix.wait[b], x.master = m) → 0 < s.ix.credit[b][m] →
      (∀ o : Fin 13, o < m → (∃ x ∈ s.ix.wait[b], x.master = o) → s.ix.credit[b][o] = 0) →
      let t := s.bankServe b
      t.ix.credit[b][m] = s.ix.credit[b][m] - 1 ∧ t.ix.wait[b].length + 1 = s.ix.wait[b].length ∧
        (∀ o : Fin 13, o ≠ m → (t.ix.wait[b].filter fun x => decide (x.master = o)) = s.ix.wait[b].filter fun x => decide (x.master = o)) ∧
        ∀ c : Bank, c ≠ b → t.ix.wait[c] = s.ix.wait[c] ∧ t.ix.credit[c] = s.ix.credit[c]) ∧
    exec (.starveLimit m) s = .next ((s.bump F.IX_STARVEm_COUNT m 0).evcRaise 0x190)

/-- Ethernet ports (R424 to R426, R456, Table 1.7): a frame of a timestamped kind leaves its entry of four words, the seventeenth
counted as lost; PAUSE is counted and discarded; nothing is sent without the PHY's clock, in Run-Standby, or in Handover before the
agreement point; a FIFO read takes the words one by one.

The station cycle (R427 to R431): a boundary starts a cycle, its CYCLE sent where the device sends, the input read and the output
write ahead; a frame of the engine's EtherType and version with its data whole (log entry 15), of this cycle and generation, counts once
and ends a loss, any other nothing; the read takes what has come, else a miss; the write
sends every station's output with its flags. A standby takes its cycle number from a frame (log entry 54). -/
def Obligations.EthernetAndStations : Prop :=
  (∀ (s : State) (r : Req) (p : Fin 2) (k : EthKind) (q : BitVec 16) (c : Int) (on : Bool),
      let a := s.opened r.master
      let e := s.eth[p]
      let entry (eg : Bool) (ty : Nat) : List Word :=
        BitVec.ofNat 32 (2 ^ 31 + (if eg then 2 ^ 30 else 0) + ty * 2 ^ 24 + q.toNat) :: s.ethStamp c
      let kept (t : State) : Prop := t.regs = s.regs ∧ t.mem = s.mem ∧ t.sc = s.sc ∧ ∀ o : Fin 2, o ≠ p → t.eth[o] = s.eth[o]
      (∃ t, exec (.ethRxcChange p on) s = .next t ∧ t.eth[p] = { e with rxc := on } ∧ kept t) ∧
      (s.ethOn p = true →
        exec (.ethFrameRx p .pause q c) s = .next (s.bump F.ETHn_ERR_CNT_PAUSE p 0) ∧
        exec (.ethFrameRx p .other q c) s = .next s ∧ exec (.ethFrameTx p .pause q c) s = .next s ∧
        exec (.ethFrameTx p .other q c) s = .next s ∧
        (∀ ty, (k = .sync ∧ ty = 0) ∨ (k = .pdelayReq ∧ ty = 2) ∨ (k = .pdelayResp ∧ ty = 3) →
          (e.fifo.length < 16 → ∃ t, exec (.ethFrameRx p k q c) s = .next t ∧ kept t ∧
            t.eth[p] = { e with fifo := e.fifo ++ [entry false ty] }) ∧
          (e.fifo.length < 16 → e.rxc = true → s.mode ≠ .runStandby → (s.mode = .handover → s.flag F.TW_STAT_OWN 0 0 = true) → ∃ t, exec (.ethFrameTx p k q c) s = .next t ∧ kept t ∧
            t.eth[p] = { e with fifo := e.fifo ++ [entry true ty] }) ∧
          (16 ≤ e.fifo.length → exec (.ethFrameRx p k q c) s = .next (s.bump F.ETHn_ERR_CNT_TSOVF p 0)))) ∧
      (e.rxc = false ∨ s.mode = .runStandby ∨ (s.mode = .handover ∧ s.flag F.TW_STAT_OWN 0 0 = false) →
        exec (.ethFrameTx p k q c) s = .next s) ∧
      (s.admits r .read .ETHn_TSFIFO p 0 →
        (e.fifo = [] → exec (.ethTsfifoRead r p false) s = .next a ∧ exec (.ethTsfifoRead r p true) s = .next a) ∧
        (∀ h rest, e.fifo = h :: rest → exec (.ethTsfifoRead r p true) s = .next (a.answer (h.getD 0 0)) ∧
          ∃ t, exec (.ethTsfifoRead r p false) s = .next t ∧ t.ans = ⟨h.getD e.ix 0, false⟩ ∧ kept t ∧
            t.eth[p] = (if e.ix = 3 then { e with fifo := rest, ix := 0 } else { e with ix := e.ix + 1 })))) ∧
  (∀ (s : State) (p : Fin 2) (k : Station) (cyc : Word) (f : InFrame), s.mode.run = true →
      let tm := s.sys.bg.getD 5 0
      let gen : BitVec 16 := (s.reg .TW_GEN 0 0).setWidth 16
      let x := s.sc.st[k]
      let ety : BitVec 16 := BitVec.ofNat 16 (s.fld F.SC_CFG_ETYPE 0 0)
      let whole : Prop := f.etype.toNat = s.fld F.SC_CFG_ETYPE 0 0 ∧ f.ver = 1 ∧ f.len.toNat ≤ 1024 ∧ f.len.toNat ≤ f.data.length
      (∃ t, exec .stationCycleBoundary s = .next t ∧ t.sc.cycle = s.sc.cycle + 1 ∧ t.sc.send = s.scSends ∧
        t.sc.readAt = some (s.now + tm.toNat % 65536) ∧ (s.now + tm.toNat / 65536, Instr.stationOutputWrite) ∈ t.cal ∧
        (s.now + 1, Instr.evcEvent 0x1C0) ∈ t.cal ∧
        (∀ q : Fin 2, s.scSends = true → s.fld F.SC_CFG_PORTS 0 0 / 2 ^ q.val % 2 = 1 → s.ethSends q = true →
          (⟨q.val, ety, 1, 1, gen, s.sc.cycle + 1, 0, 0, 0, []⟩ : ScFrame) ∈ t.sc.out) ∧
        (s.scSends = false → t.sc.out = s.sc.out)) ∧
      (s.ethOn p = true → s.fld F.SC_CFG_PORTS 0 0 / 2 ^ p.val % 2 = 1 → (s.reg .SC_STEN 0 0).getLsbD k.val = true →
        s.sc.readAt ≠ none → s.mode ≠ .runStandby →
        (whole → cyc = s.sc.cycle → x.last.any (fun l => decide (l.1 = cyc)) = false →
          ∃ t, exec (.stationInputFrame p k gen cyc f) s = .next t ∧
            t.sc.st[k] = { x with last := some (cyc, f.data.take f.len.toNat), miss := 0 } ∧
            (∀ q : Station, q ≠ k → t.sc.st[q] = s.sc.st[q]) ∧ t.flag F.SC_STs_STAT_LOST k 0 = false ∧
            (s.flag F.SC_STs_STAT_LOST k 0 = true → t.fld F.SC_STs_STAT_MISS k 0 = 0 ∧ (s.now + 1, Instr.evcEvent 0x1C3) ∈ t.cal)) ∧
        (cyc ≠ s.sc.cycle ∨ ¬whole → exec (.stationInputFrame p k gen cyc f) s = .next s)) ∧
      (∀ at_, s.sc.readAt = some at_ → ∃ t, exec .stationInputRead s = .next t ∧ t.sc.readAt = none ∧
        (s.now + 1, Instr.evcEvent 0x1C1) ∈ t.cal ∧
        ((s.reg .SC_STEN 0 0).getLsbD k.val = true →
          (∀ d, x.last = some (s.sc.cycle, d) → t.sc.st[k].data = d ∧ t.sc.st[k].stale = false ∧ t.flag F.SC_STs_STAT_STALE k 0 = false) ∧
          (x.last = none → t.sc.st[k].stale = true ∧ t.sc.st[k].miss = x.miss + 1 ∧ t.flag F.SC_STs_STAT_STALE k 0 = true ∧
            t.sc.st[k].data = (if s.flag F.SC_STs_CFG_SUBST k 0 then x.deflt else x.data) ∧
            (s.fld F.SC_STs_CFG_K k 0 ≤ x.miss + 1 → t.flag F.SC_STs_STAT_LOST k 0 = true)))) ∧
      (s.sc.send = true → s.scSends = true → ∃ t, exec .stationOutputWrite s = .next t ∧ t.regs = s.regs ∧
        ∀ q : Fin 2, s.fld F.SC_CFG_PORTS 0 0 / 2 ^ q.val % 2 = 1 → s.ethSends q = true → (s.reg .SC_STEN 0 0).getLsbD k.val = true →
          let stale := if x.stale then 1 else 0
          let subst := if x.stale && s.flag F.SC_STs_CFG_SUBST k 0 then 2 else 0
          (⟨q.val, ety, 1, 3, gen, s.sc.cycle, k.val, stale + subst, x.out.length, x.out⟩ : ScFrame) ∈ t.sc.out))

/-! ## Twin operation -/

/-- The commands of TW_CTRL (R388, R389, R406), from T0 at Monitor: each takes effect in its modes and is refused elsewhere with CMDERR;
from any other requester nothing happens. UNPAIR takes Run-Active to Run-Solo in fault-hold too, but not in the lc in which fault-hold
begins, nor once a switchover has released TW_OWN (the model's choice, log entry 144). LOCK in SWITCHOVER is the peer's (log entry 91). -/
def Obligations.TwinCommands : Prop :=
  ∀ (s : State) (r : Req), s.admits r .write .TW_CTRL 0 0 →
    let a := s.opened r.master
    let refused (k : Nat) : State := a.raiseFld F.TW_STAT_CMDERR 0 0 k
    let mon : Prop := r.t0mon = true
    let paired (t : State) (standby : Bool) : Prop :=
      t.twin.step = 1 ∧ t.twin.begun = false ∧ t.twin.standby = standby ∧ t.flag F.TW_STAT_LOCK 0 0 = false ∧
      (s.now + 400000 + 2 * s.epochInterval, Instr.pairingTimeout) ∈ t.cal ∧ t.sys = s.sys ∧ t.pwm = s.pwm
    (¬mon → ∀ c ∈ [Instr.runSolo r, .pairActive r, .pairStandby r, .unpair r, .switchover r], exec c s = .next a) ∧
    (mon → s.mode = .ready → s.ownIn = false →
      (∃ t, exec (.runSolo r) s = .next t ∧ t.sys.mode = .runSolo ∧ t.sys.prev = .ready ∧ t.flag F.TW_STAT_OWN 0 0 = true ∧
        t.flag F.TW_STAT_ROLE 0 0 = false ∧ t.mx.lv.get 3 false = true ∧ (s.now + 1, Instr.evcEvent 0x1E0) ∈ t.cal) ∧
      (s.epochTooBig = false → ∃ t, exec (.pairActive r) s = .next t ∧ paired t false)) ∧
    (mon → s.mode = .ready → s.ownIn = true → exec (.runSolo r) s = .next (refused 2) ∧ exec (.pairActive r) s = .next (refused 2)) ∧
    (mon → s.mode = .ready → s.epochTooBig = false → ∃ t, exec (.pairStandby r) s = .next t ∧ paired t true) ∧
    (mon → s.mode = .ready → s.epochTooBig = true → ∃ t, exec (.pairStandby r) s = .next t ∧ t.fld F.TW_STAT_CMDERR 0 0 = 7 ∧
      t.twin.step = 0) ∧
    (mon → s.mode = .runSolo → s.epochTooBig = false → ∃ t, exec (.pairActive r) s = .next t ∧ paired t false) ∧
    (mon → s.mode ≠ .ready → exec (.runSolo r) s = .next (refused 1) ∧ exec (.pairStandby r) s = .next (refused 1) ∧
      (s.mode ≠ .runSolo → exec (.pairActive r) s = .next (refused 1))) ∧
    (mon → s.mode = .runActive →
      (s.marked (RegName.TW_STAT.addr 0 0) true = true → exec (.unpair r) s = .next a) ∧
      (s.marked (RegName.TW_STAT.addr 0 0) true = false →
        (s.twin.leaveAt = none → ∃ t, exec (.unpair r) s = .next t ∧ t.sys.mode = .runSolo ∧ t.flag F.TW_STAT_PAIRED 0 0 = false ∧
          t.twin.armed = false ∧ t.twin.tx = none ∧ t.flag F.TW_STAT_OWN 0 0 = s.flag F.TW_STAT_OWN 0 0 ∧
          t.flag F.TW_STAT_FHOLD 0 0 = s.flag F.TW_STAT_FHOLD 0 0) ∧
        (∀ at_, s.twin.leaveAt = some (at_, .runStandby) → exec (.unpair r) s = .next (refused 1)))) ∧
    (mon → s.activeOk = true →
      (s.fld F.TW_STAT_PEERMODE 0 0 = 8 → s.twin.flags / 4 % 2 = 1 → ∃ t, exec (.switchover r) s = .next t ∧ t.sys = s.sys ∧
        (s.linkIsUp = true → s.flag F.TW_STAT_FAULT_OUT 0 0 = false → t.twin.switch = true ∧
          ∃ f, t.twin.out = f :: s.twin.out ∧ f.ty = 5 ∧ f.fseq = s.twin.fseq) ∧
        (s.linkIsUp = false → t.twin = { s.twin with switch := false })) ∧
      (s.fld F.TW_STAT_PEERMODE 0 0 ≠ 8 ∨ s.twin.flags / 4 % 2 ≠ 1 → exec (.switchover r) s = .next (refused 1))) ∧
    (mon → s.mode = .runStandby → ∃ t, exec (.unpair r) s = .next t ∧ t.sys.mode = .ready ∧ t.flag F.TW_STAT_PAIRED 0 0 = false ∧
      t.flag F.TW_STAT_ROLE 0 0 = false ∧ t.twin.standby = false) ∧
    (mon → s.mode ≠ .runStandby → s.mode ≠ .runActive → exec (.unpair r) s = .next (refused 1)) ∧
    (mon → s.activeOk = false → exec (.switchover r) s = .next (refused 1))

/-- Marks, heartbeats, pairing and phase lock (R386, R387, R389, R391): a mark is counted and a heartbeat sent; one that arrives whole
is taken, a missed one counted; the pairing steps judge the peer, answer its pulse exactly 64 lc after it arrived, measure the link's
delay and end after their time; the standby puts its marks on the active's; under lock Φ moves by at most 4 fs a mark. The sign of Φ is
the model's reading (log entry 47); a frame is out at its start, and open points of pairing are log entry 91's. -/
def Obligations.MarksAndPairing : Prop :=
  ∀ (s : State) (h : TwHdr) (t d : List Byte) (e : Int), s.mode.cores = true →
    let w := s.twin
    let up : Prop := s.linkIsUp = true
    let whole (ty lo hi : Nat) (d : List Byte) : Prop := t.length = 16 ∧ d.length = 32 * h.nflit.toNat ∧ lo ≤ h.nflit.toNat ∧
      h.nflit.toNat ≤ hi ∧ crc32c (twBytes ty h t d) = h.crc
    (∃ u, exec .twMark s = .next u ∧ u.twin.markAt = s.now ∧ u.twin.markIdx = w.markIdx + 1 ∧ u.twin.blank = false ∧
      (s.drivesSync = true → u.twin.pulse = some (s.now * 256)) ∧
      (up → ∃ f ∈ u.twin.out, f.ty = 1 ∧ f.fseq = w.fseq ∧ f.mode = s.sys.mode.code ∧
        f.spec.take 4 = Word.bytes (s.reg .TW_EPOCH_SEQ 0 0))) ∧
    (up → whole 1 1 1 d → ∃ u, exec (.heartbeat h t d) s = .next u ∧ u.twin.hbAt = s.now ∧ u.twin.flags = h.flags.toNat ∧
      u.twin.lost = false ∧ u.flag F.TW_STAT_LINKLOST 0 0 = false ∧ u.fld F.TW_STAT_PEERMODE 0 0 = h.mode.toNat % 16 ∧
      u.twin.out = w.out) ∧
    (up → ¬whole 1 1 1 d → exec (.heartbeat h t d) s = .next (s.bump F.TW_ERR_CNT_FRAMECRC 0 0)) ∧
    exec .heartbeatMissed s = .next (s.bump F.TW_ERR_CNT_HBMISS 0 0) ∧
    (s.ownIn = true → ∃ u, exec .peerLost s = .next u ∧ u.twin.lost = true ∧ u.flag F.TW_STAT_LINKLOST 0 0 = true ∧ u.sys = s.sys ∧
      (s.now + 1, Instr.evcEvent 0x1A2) ∈ u.cal) ∧
    (w.step ≠ 0 → ∃ u, exec .pairingTimeout s = .next u ∧ u.fld F.TW_STAT_CMDERR 0 0 = 6 ∧ u.twin.step = 0 ∧ u.twin.lockOn = false) ∧
    (up → whole 4 5 5 d → w.step = 1 → w.begun = true →
      let own := s.pairSpec 0
      let alike : Prop := wordAt t 4 = wordAt own 4 ∧ wordAt t 8 = wordAt own 8 ∧
        (wordAt t 12).toNat / 256 = (wordAt own 12).toNat / 256
      ∃ u, exec (.pair h t d) s = .next u ∧
        (¬alike → u.fld F.TW_STAT_CMDERR 0 0 = 3 ∧ u.twin.step = 0) ∧
        (alike → t.head? = own.head? → u.fld F.TW_STAT_CMDERR 0 0 = 4 ∧ u.twin.step = 0) ∧
        (alike → t.head? ≠ own.head? → u.twin.step = 2 ∧ u.twin.begun = false ∧ u.regs = s.regs)) ∧
    (w.step = 2 → w.standby = false →
      (∀ t0, w.trip = some t0 → ∃ u, exec .twSyncReturn s = .next u ∧ u.twin.pulse = some (t0 + 64 * 256) ∧ u.twin.step = 3) ∧
      (w.lockOn = false → ∃ u, exec (.twSyncArrival e) s = .next u ∧ u.twin.trip = some ((s.now : Int) * 256 + e).toNat ∧
        (s.now + 64, Instr.twSyncReturn) ∈ u.cal ∧ u.regs = s.regs)) ∧
    (w.lockOn = false → w.step = 3 → w.standby = true → w.trip = none → ∃ u, exec (.twSyncArrival e) s = .next u ∧
      u.twin.markAt = (((s.now : Int) * 256 + e - (s.reg .TW_DELAY 0 0).toNat + 128) / 256).toNat ∧ u.regs = s.regs) ∧
    (w.lockOn = false → w.step = 2 → w.standby = true → ∀ t0, w.trip = some t0 →
      ∃ u, exec (.twSyncArrival e) s = .next u ∧ u.twin.step = 3 ∧
        u.reg .TW_DELAY 0 0 = BitVec.ofInt 32 ((((s.now : Int) * 256 + e - t0 * 256 - 16384) / 2) % 65536)) ∧
    (w.lockOn = true → ∃ u, exec (.twSyncArrival e) s = .next u ∧ (u.twin.phi - w.phi).natAbs ≤ 4 ∧
      (u.twin.okMarks = 0 ∨ u.twin.okMarks = w.okMarks + 1) ∧ (16 ≤ u.twin.okMarks → u.flag F.TW_STAT_LOCK 0 0 = true) ∧ u.mem = s.mem)

/-- Epochs (R393 to R397): a capture, which acts when the rest of its lc is done, numbers the epoch and writes it to its buffer (log entry
128), or is skipped while one is being sent; a frame's piece is kept; the last piece of a whole epoch that follows the last commits it,
from however many frames it came: engine states are written, mirrors loaded, the regions copied by the end of its application; while
APPLYING it waits; a broken one is discarded. The end of the application frees APPLYING, answers and commits the one that waits; an
acknowledgement is recorded. How long the application takes is free (log entry 40). -/
def Obligations.Epochs : Prop :=
  ∀ (s : State) (h : TwHdr) (t d : List Byte), s.mode.cores = true →
    let w := s.twin
    let last := s.reg .TW_EPOCH_SEQ 0 0
    let whole (ty lo hi : Nat) (d : List Byte) : Prop := s.linkIsUp = true ∧ t.length = 16 ∧ d.length = 32 * h.nflit.toNat ∧
      lo ≤ h.nflit.toNat ∧ h.nflit.toNat ≤ hi ∧ crc32c (twBytes ty h t d) = h.crc
    let seq := wordAt t 0
    let off := (wordAt t 4).toNat
    let len := (wordAt t 8).toNat
    let alone : Prop := ∀ q k, (s.pair q).stc = some k → k.lc ≠ s.now
    (s.captures = true → s.isLate = false → exec .epochCapture s = .next (s.defer .epochCapture)) ∧
    (s.captures = true → s.isLate = true → w.tx = none → alone →
      s.cleanAt (s.twBuf (last + 1).toNat) (s.epochBytes (last + 1)).length → (∀ x ∈ s.epochRegions, s.cleanAt x.2.1 x.2.2) →
      ∃ u, exec .epochCapture s = .next u ∧ u.reg .TW_EPOCH_SEQ 0 0 = last + 1 ∧
      u.twin.tx = some (s.now, 0, s.epochBytes (last + 1)) ∧ u.cal = s.cal ∧
      (∀ i (hi : i < (s.epochBytes (last + 1)).length), u.byte (s.twBuf (last + 1).toNat + i) = (s.epochBytes (last + 1))[i]) ∧
      ∀ x, x < s.twBuf (last + 1).toNat ∨ s.twBuf (last + 1).toNat + (s.epochBytes (last + 1)).length ≤ x → u.byte x = s.byte x) ∧
    (s.captures = true → s.isLate = true → w.tx ≠ none → exec .epochCapture s = .next (s.bump F.TW_ERR_CNT_EPSKIP 0 0)) ∧
    exec .epochSent s = .next { s with twin := { w with tx := none } } ∧
    (whole 2 1 16 d → s.takesEpochs = true → len ≤ 65536 → 16 ≤ len → off < len → w.rxLen = 0 ∨ (w.rxSeq = seq.toNat ∧ w.rxLen = len) → alone →
      s.upset = [] →
      let had := if w.rxLen = 0 then [] else w.rxOffs
      let n := min d.length (len - off)
      let buf := s.twBuf seq.toNat
      (off + d.length < len → ∃ u, exec (.epoch h t d) s = .next u ∧ u.regs = s.regs ∧ u.twin.rxOffs = had ++ [(off, d.length)] ∧
        u.twin.rxLen = len ∧ u.twin.rxSeq = seq.toNat ∧ (∀ i (hi : i < d.length), u.byte (buf + off + i) = d[i]) ∧
        ∀ x, x < buf + off ∨ buf + off + d.length ≤ x → u.byte x = s.byte x) ∧
      (len ≤ off + d.length →
        let bs := (s.putMem (buf + off) (d.take n)).bytes buf len
        let next : Word := ((w.rxWait.getLast?.map fun x => BitVec.ofNat 32 x.1).getD last) + 1
        let good : Prop := covered (had ++ [(off, n)]) len = true ∧ seq = next ∧ wordAt bs (len - 4) = crc32c (bs.take (len - 4))
        (good → s.flag F.TW_STAT_APPLYING 0 0 = false → ∃ u m, exec (.epoch h t d) s = .next u ∧ u.reg .TW_EPOCH_SEQ 0 0 = seq ∧
          u.flag F.TW_STAT_APPLYING 0 0 = true ∧ u.twin.rxLen = 0 ∧ (∃ k, (s.now + 1 + k, Instr.epochApplyDone) ∈ u.cal) ∧
          (∀ x, x < buf + off ∨ buf + off + n ≤ x → m.byte x = s.byte x) ∧ m.le = s.le ∧ m.mx = s.mx ∧ m.twin.mirror = w.mirror ∧
          m.regs = s.regs ∧
          let c := State.commitRecords m 32 (bs.drop 32)
          u.le = c.le ∧ u.mem = c.mem ∧ u.mx = c.mx ∧ u.twin.mirror = c.twin.mirror) ∧
        (good → s.flag F.TW_STAT_APPLYING 0 0 = true → ∃ u, exec (.epoch h t d) s = .next u ∧ u.regs = s.regs ∧
          u.twin.rxWait = w.rxWait ++ [(seq.toNat, len)] ∧ u.twin.rxLen = 0) ∧
        (¬good → ∃ u, exec (.epoch h t d) s = .next u ∧ u.reg .TW_EPOCH_SEQ 0 0 = last ∧ u.twin.rxLen = 0 ∧ u.twin.rxWait = w.rxWait ∧
          u.fld F.TW_ERR_CNT_EPDISC 0 0 = min F.TW_ERR_CNT_EPDISC.max (s.fld F.TW_ERR_CNT_EPDISC 0 0 + 1) ∧
          (s.now + 1, Instr.evcEvent 0x1A4) ∈ u.cal))) ∧
    (∀ (k ix : Nat) (n : LeId) (st tail : List Byte), st.length = 4096 →
      let v := s.commitRecords (k + 1) (epochRecord 1 n.val 0 st ++ tail)
      v = (s.leCommit n (bytesToWords st)).commitRecords k tail ∧
      (∀ i < 1024, (s.leCommit n (bytesToWords st)).leGet n (4 * i) = wordAt st (4 * i)) ∧
      (∀ g : List Byte, g.length = 256 → let c := s.commitRecords (k + 1) (epochRecord 2 0 0 g ++ List.replicate 12 0)
        c.mem = s.mem ∧ c.le = s.le ∧ ∀ i : GenId, c.twin.mirror[i] = { w.mirror[i] with
          per := (wordAt g (16 * i.val)).toNat % 65536, cmpb := (wordAt g (16 * i.val + 8)).toNat % 2 ^ 24,
          mode := (wordAt g (16 * i.val + 12)).toNat % 8 }) ∧
      (∀ (a : Nat) (bs : List Byte), ix < 8 → bs.length % 4 = 0 → bs.length < 262144 → 0x20000000 ≤ a → a + bs.length ≤ 0x21800000 →
        s.commitRegions (k + 1) (epochRecord 3 ix a bs ++ tail) = (s.putMem a bs).commitRegions k tail)) ∧
    (s.flag F.TW_STAT_APPLYING 0 0 = true → s.upset = [] →
      ∃ u m, exec .epochApplyDone s = .next u ∧ m.mem = s.mem ∧ m.upset = s.upset ∧ m.pairs = s.pairs ∧
      (s.takesEpochs = false ∨ w.rxWait = [] → u.flag F.TW_STAT_APPLYING 0 0 = false ∧ u.reg .TW_EPOCH_SEQ 0 0 = last ∧
        u.mem = (State.commitRegions m 32 ((s.bytes (s.twBuf last.toNat) w.applied).drop 32)).mem) ∧
      (s.takesEpochs = true → (s.linkIsUp = true → s.flag F.TW_STAT_FAULT_OUT 0 0 = false →
          ∃ f, u.twin.out = f :: w.out ∧ f.ty = 3 ∧ f.spec.take 4 = Word.bytes last) ∧
        (∀ q len rest, w.rxWait = (q, len) :: rest → u.flag F.TW_STAT_APPLYING 0 0 = true ∧ u.twin.rxWait = rest ∧
          u.reg .TW_EPOCH_SEQ 0 0 = BitVec.ofNat 32 q))) ∧
    (whole 3 0 0 [] → w.armed = true → w.standby = false → ∃ u, exec (.epochAck h t) s = .next u ∧
      u.reg .TW_EPOCH_ACKED 0 0 = seq ∧ (s.now + 1, Instr.evcEvent 0x1A5) ∈ u.cal ∧ (w.step = 4 → u.twin.step = 5))

/-- Handover (R381, R382, R396, R398 to R404, R406): TW_FAULT_IN, the loss of the peer and a SWITCH each decide it; at agreement, or
forced, the standby takes over, records the handover and discards what came of epochs and is not committed; TW_OWN is released out of
fault-hold at its end, or when the peer owns, there and after a SWITCH, with the work in flight discarded (log entry 129); two owners
are reported in the fourth lc (at a takeover a free choice, log entry 46). FAULT_IN_RISE is the level past the synchroniser (log entry 6);
PAIRED after a takeover is log entry 91's. -/
def Obligations.Handover : Prop :=
  ∀ (s : State) (h : TwHdr) (t : List Byte),
    let w := s.twin
    let decided (u : State) (c : Nat) : Prop := u.sys.mode = .handover ∧ u.twin.dec = some (s.now, c) ∧
      u.twin.commit = decide (c = 3) ∧ (s.now + (s.reg .TW_AGRMAX 0 0).toNat, Instr.agreementForced) ∈ u.cal
    let dropped (u : State) : Prop := u.dma.block = none ∧ u.twin.tx = none ∧ (∀ n : Chan, u.dmaBusy n = false) ∧
      (∀ q : QId, u.reg .Qn_PTR q 0 = RegName.Qn_PTR.reset q 0) ∧ u.mem = s.mem
    let gone (u : State) : Prop := u.flag F.TW_STAT_OWN 0 0 = false ∧ u.flag F.TW_STAT_FHOLD 0 0 = false ∧
      u.twin.leaveAt = some (s.now + 2, .safeHold) ∧ u.sys = s.sys ∧ dropped u
    (s.mode = .runStandby →
      (∃ u, exec .faultInRise s = .next u ∧ u.flag F.TW_STAT_FAULT_IN 0 0 = true ∧ decided u 1) ∧
      (s.ownIn = false → ∃ u, exec .peerLost s = .next u ∧ u.twin.lost = true ∧ decided u 2) ∧
      (s.linkIsUp = true → t.length = 16 → h.nflit = 0 → crc32c (twBytes 5 h t []) = h.crc →
        ∃ u, exec (.switch h t) s = .next u ∧ decided u 3)) ∧
    (s.mode ≠ .runStandby → s.mode ≠ .handover → s.flag F.TW_STAT_OWN 0 0 = true → ∃ u, exec .faultInRise s = .next u ∧
      u.flag F.TW_STAT_FAULT_IN 0 0 = true ∧ (s.now + 1, Instr.evcEvent 0x1A3) ∈ u.cal ∧ u.sys = s.sys) ∧
    (∀ (at_ c : Nat), s.mode = .handover → w.dec = some (at_, c) → c < 4 → (c = 2 → s.ownIn = false) →
      ∀ f ∈ ([(.agreementPoint, 0), (.agreementForced, 1)] : List (Instr × Nat)), ∃ u, exec f.1 s = .next u ∧
        u.sys.mode = .runActive ∧ u.flag F.TW_STAT_OWN 0 0 = true ∧ u.flag F.TW_STAT_ROLE 0 0 = false ∧
        u.reg .TW_GEN 0 0 = (s.reg .TW_GEN 0 0 + 1) &&& 0xFFFF ∧ u.reg .TW_HO_EPOCH 0 0 = s.reg .TW_EPOCH_SEQ 0 0 ∧
        u.fld F.TW_HO_CAUSE 0 0 = c ∧ u.fld F.TW_HO_FORCED 0 0 = f.2 ∧ u.fld F.TW_HO_WAIT 0 0 = min (s.now - at_) 0xFFFFFF ∧
        u.flag F.TW_STAT_PAIRED 0 0 = decide (c = 3) ∧ u.twin.dec = none ∧ (s.now + 1, Instr.evcEvent 0x1A1) ∈ u.cal ∧
        (f.2 = 1 → (s.now + 1, Instr.evcEvent 0x1A6) ∈ u.cal) ∧ u.twin.rxLen = 0 ∧ u.twin.rxWait = [] ∧
        u.fld F.TW_ERR_CNT_EPDISC 0 0 = min F.TW_ERR_CNT_EPDISC.max
          (s.fld F.TW_ERR_CNT_EPDISC 0 0 + (if w.rxLen = 0 then 0 else 1) + w.rxWait.length)) ∧
    (s.mode = .handover → w.dec.any (fun x => decide (x.2 = 2)) = true → s.ownIn = true →
      exec .agreementPoint s = .next s ∧ exec .agreementForced s = .next s) ∧
    (s.mode = .runActive → s.flag F.TW_STAT_FHOLD 0 0 = true →
      (∃ u, exec .faultHoldExpiry s = .next u ∧ gone u) ∧
      (s.flag F.TW_STAT_OWN 0 0 = true → ∃ u, exec .ownInRise s = .next u ∧ u.ownIn = true ∧ gone u)) ∧
    (s.mode = .runActive → s.flag F.TW_STAT_OWN 0 0 = true → s.flag F.TW_STAT_FHOLD 0 0 = false → w.switch = true →
      ∃ u, exec .ownInRise s = .next u ∧ u.ownIn = true ∧ u.flag F.TW_STAT_OWN 0 0 = false ∧ u.twin.switch = false ∧
        u.twin.armed = false ∧ u.twin.leaveAt = some (s.now + 2, .runStandby) ∧ u.sys = s.sys ∧ dropped u) ∧
    (s.flag F.TW_STAT_OWN 0 0 = true → s.flag F.TW_STAT_FHOLD 0 0 = false → w.switch = false →
      (s.sys.mode ≠ .safeHold → ∃ u, exec .ownInRise s = .next u ∧ u.ownIn = true ∧ u.flag F.TW_STAT_OWN 0 0 = true ∧
        (s.now + 3, Instr.dualOwn) ∈ u.cal) ∧
      exec .dualOwn s = .next (if s.ownIn then s.evcRaise 0x1A7 else s))

/-- The link and the load over it (R384, R417 to R420): training and its loss, BLANK and the LOAD_OFFER at the next mark that answers it,
the offer that wins in Blank, the request that starts the sending, the data in order or not, the status that ends it. When training
ends comes from outside (log entry 10); how a load's bytes reach memory is log entry 8's. -/
def Obligations.LinkAndTwinLoad : Prop :=
  ∀ (s : State) (h : TwHdr) (t d : List Byte), s.mode ≠ .retention →
    let w := s.twin
    let whole (ty lo hi : Nat) (d : List Byte) : Prop := s.linkIsUp = true ∧ t.length = 16 ∧ d.length = 32 * h.nflit.toNat ∧
      lo ≤ h.nflit.toNat ∧ h.nflit.toNat ≤ hi ∧ crc32c (twBytes ty h t d) = h.crc
    let img := s.load.img ++ d
    let gap (u : State) : Prop := u.sys.mode = .blank ∧ u.fld F.SYS_START_VCAUSE 0 0 = 0x20 ∧ u.load.img = []
    (s.fld F.TW_STAT_LINK 0 0 = 1 → exec .linkUp s = .next (s.setFld F.TW_STAT_LINK 0 0 2)) ∧
    (s.linkIsUp = true → ∃ u, exec .linkDown s = .next u ∧ u.fld F.TW_STAT_LINK 0 0 = 1 ∧ u.twin.tx = none ∧ u.twin.offer = none ∧
      (s.mode = .loading → s.load.src = .twin → gap u) ∧ (s.mode ≠ .loading → u.sys = s.sys)) ∧
    (whole 0x10 0 0 [] → s.hasOffer = true → exec (.blank h t) s = .next { s with twin := { w with blank := true } }) ∧
    (w.blank = true → s.hasOffer = true → s.linkIsUp = true → s.flag F.TW_STAT_FAULT_OUT 0 0 = false → w.step = 0 → w.align = none →
      ∃ u f, exec .twMark s = .next u ∧ f ∈ u.twin.out ∧ f.ty = 0x11 ∧ f.data = [] ∧ f.spec = Word.bytes (s.word (s.imgBase + 12)) ++
        Word.bytes (s.reg .SM_IMAGE 0 0) ++ Word.bytes (s.reg .SM_CFGGEN 0 0) ++ [0, 0, 0, 0] ∧ u.twin.blank = false) ∧
    (s.mode = .blank → exec .blankFrameSend s = .next (s.twSend 0x10 [] [])) ∧
    (whole 0x11 0 0 [] → s.mode = .blank → s.fl.lower = none → ∃ u, exec (.loadOffer h t) s = .next u ∧ u.sys.mode = .loading ∧
      u.load.src = .twin ∧ u.load.img = [] ∧ u.load.len = (wordAt t 0).toNat ∧ u.fld F.SYS_START_SRC 0 0 = 2 ∧
      u.fld F.SYS_START_LOADS 0 0 = min F.SYS_START_LOADS.max (s.fld F.SYS_START_LOADS 0 0 + 1) ∧
      (s.now + 400000, Instr.twinLoadTimeout) ∈ u.cal ∧
      (s.flag F.TW_STAT_FAULT_OUT 0 0 = false → ∃ f, u.twin.out = f :: w.out ∧ f.ty = 0x12)) ∧
    (whole 0x12 0 0 [] → s.hasOffer = true → exec (.loadReq h t) s = .next { s with twin := { w with offer := some (s.now, 0) } }) ∧
    (whole 0x14 0 0 [] → exec (.loadStatus h t) s = .next { s with twin := { w with offer := none } }) ∧
    (whole 0x13 1 16 d → s.mode = .loading → s.load.src = .twin →
      ((wordAt t 0).toNat = s.load.img.length → ∃ u, exec (.loadData h t d) s = .next u ∧
        (img.length < 16 ∨ img.length < imgLength img → u.load.img = img ∧ u.sys = s.sys ∧
          (s.now + 400000, Instr.twinLoadTimeout) ∈ u.cal) ∧
        (16 ≤ img.length → imgLength img ≤ img.length → u.sys.mode = .verify ∧ u.load.img = img.take (max 16 (imgLength img)))) ∧
      ((wordAt t 0).toNat ≠ s.load.img.length → ∃ u, exec (.loadData h t d) s = .next u ∧ gap u)) ∧
    (s.linkIsUp = true → s.mode = .loading → s.load.src = .twin → ¬whole 0x13 1 16 d → ∃ u, exec (.loadData h t d) s = .next u ∧ gap u) ∧
    (s.mode = .loading → (s.load.src = .twin → ∃ u, exec .twinLoadTimeout s = .next u ∧ u.sys.mode = .blank ∧
      u.fld F.SYS_START_VCAUSE 0 0 = 0x21) ∧ (s.load.src = .host → ∃ u, exec .hostLoadTimeout s = .next u ∧ u.sys.mode = .blank ∧
      u.fld F.SYS_START_VCAUSE 0 0 = 0x21))

/-! ## System controller, host port, debug port -/

/-- Reset, power and clocks (R19, R30, R412, R414): Reset leaves the flash, the journal and the requested protection level and puts
everything else back; a rail below its threshold does the same; power-good leads to Blank; a lost clock to Safe-Hold, and from the
end of its lc on every block but the system controller stands still (the model's reading, log entry 82). What waits in the queue is the
model's (log entry 1).

Safe-Hold by SAFE_N and by request (R415, R432): 16 lc low or an event on S_SAFEREQ enters it with its cause, S_SAFEHOLD
high; a shorter pulse is a glitch. In fault-hold such requests count for nothing (log entry 45). -/
def Obligations.ResetAndSafeHold : Prop :=
  (∀ (s : State) (rail : Rail) (mV : Nat) (x50 : Bool),
      let limit : Nat := match rail with
        | .vddcore => if s.sys.mode = .retention then 680 else 740
        | .vddioA33 => 2950
        | .vddioB33 => 2950
        | .vddioA18 => 1600
        | .vddioB18 => 1600
        | .vdda => 3050
        | .vdda18 => 1650
        | .vddpll => 740
        | .vddser => 840
      let keeps : RegName → Bool := fun q => decide (q ∈ [.SYS_ID, .FL_PL, .SEC_UIDi, .SEC_OKHi, .SEC_FUSE_STAT])
      (∃ t, exec .resetNAssert s = .next t ∧ t.sys.mode = .reset ∧ t.pending = s.pending ∧ t.sys.jrnl = s.sys.jrnl ∧ t.cal = [] ∧
        t.pairs = State.reset.pairs ∧ t.fld F.FL_PL_LEVEL 0 0 = s.fl.nextPl % 4 ∧
        (∀ a, 0x10000000 ≤ a → a < 0x12000000 → t.byte a = s.byte a) ∧
        (∀ a, a < 0x10000000 ∨ 0x12000000 ≤ a → t.byte a = memDefault a) ∧
        (∀ q i j, keeps q = false → q ≠ .TW_STAT → regAt (q.addr i j) = some (q, i, j) → t.reg q i j = regDefault (q.addr i j))) ∧
      exec (.supplyFall rail mV) s = (if mV < limit then exec .resetNAssert s else .next s) ∧
      (s.sys.mode = .reset → s.fl.lower = none → ∃ t, exec (.powerGood x50) s = .next t ∧ t.sys.mode = .blank ∧ t.sys.prev = .reset ∧
        t.sys.changes = 0 ∧ t.fld F.TW_STAT_LINK 0 0 = 1 ∧ t.fld F.SYS_CLK_STAT_XIN_SEL 0 0 = (if x50 then 2 else 1)) ∧
      (s.mode ≠ .reset → s.mode ≠ .retention → (s.mode = .safeHold → s.marked (RegName.SYS_SAFE.addr 0 0) false = false) →
        ∃ t, exec .clockLost s = .next t ∧ t.sys.mode = .safeHold ∧
        t.fld F.SYS_SAFE_CAUSE 0 0 = 5 ∧ t.flag F.TW_STAT_FAULT_OUT 0 0 = true ∧ t.flag F.SYS_CLK_STAT_CLK_LOST 0 0 = true ∧
        t.flag F.SYS_CLK_STAT_PLL_LOCK 0 0 = false ∧ t.mode = .safeHold ∧
        State.mode { t with now := t.now + 1, marks := [] } = .retention)) ∧
  (∀ (s : State) (k : Fin 8),
      let held : Prop := s.flag F.TW_STAT_FHOLD 0 0 = true ∨ s.twin.leaveAt ≠ none
      let safe (t : State) (c : Nat) : Prop := t.sys.mode = .safeHold ∧ t.sys.prev = s.sys.mode ∧ t.fld F.SYS_SAFE_CAUSE 0 0 = c ∧
        t.mx.lv.get 2 false = true ∧ t.mem = s.mem ∧ t.flag F.TW_STAT_PAIRED 0 0 = false
      let due (t : Nat) : Prop := s.cal.filter (fun e => decide (e.2 = .safeNTimeout)) = [(t, .safeNTimeout)]
      (s.safeNActs = true → ∃ t, exec .safeNFall s = .next t ∧ t.sys = { s.sys with safeNLow := true } ∧
        (s.now + 16, Instr.safeNTimeout) ∈ t.cal ∧ (s.now + 1, Instr.evcEvent 0x1E1) ∈ t.cal ∧ ∀ n : GenId, t.pwm[n].safe = true) ∧
      (s.safeNActs = true → s.sys.safeNLow = true → ¬held → ∃ t, exec .safeNTimeout s = .next t ∧ safe t 3) ∧
      (s.safeNActs = true → ∀ t0, due t0 → s.now < t0 → ∃ t, exec .safeNRise s = .next t ∧ t.sys = { s.sys with safeNLow := false } ∧
        t.fld F.SYS_SAFE_GLITCH 0 0 = min F.SYS_SAFE_GLITCH.max (s.fld F.SYS_SAFE_GLITCH 0 0 + 1) ∧
        ∀ e ∈ t.cal, e.2 ≠ .safeNTimeout) ∧
      (s.mode.live = true → s.mode ≠ .safeHold → ¬held → ∃ t, exec (.safeRequest k) s = .next t ∧ safe t 2) ∧
      (s.mode.live = true → s.mode ≠ .safeHold → s.flag F.TW_STAT_FHOLD 0 0 = true → exec (.safeRequest k) s = .next s))

/-- Mode requests and Retention (R29, R433, R435 to R437): an accepted target is entered, with the cause of a Safe-Hold request; one that the
mode does not accept sets ERR, or answers the host with its refusal; a request to leave Safe-Hold acts as its lc ends (the model's
choice, log entry 84), unless the device may not leave it then; Retention keeps memory and PTU state and loses what it does not
keep (what that is, log entry 83); the wake replays the image, or ends in Safe-Hold with its reason. -/
def Obligations.ModeRequests : Prop :=
  ∀ (s : State) (r : Req) (f : HpFrame) (w : WakeTest), 
    let a := s.opened r.master
    let rows (o : ModeOrigin) : List (Instr × Nat) := [(.modeReady o, 5), (.modeSafeHold o, 10), (.modeMaintenance o, 11), (.modeRetention o, 12)]
    (s.admits r .write .SYS_MODE_REQ 0 0 → r.t0mon = false → ∀ c ∈ rows (.bus r), exec c.1 s = .next a) ∧
    (s.admits r .write .SYS_MODE_REQ 0 0 → r.t0mon = true →
      (∀ c ∈ rows (.bus r), s.modeOk c.2 = false → exec c.1 s = .next (a.raiseFld F.SYS_MODE_REQ_ERR 0 0 1)) ∧
      (s.softHold = true → s.sys.safeNLow = false → ∃ t, exec (.modeReady (.bus r)) s = .next t ∧
        t.sys = { s.sys with readyReq := true } ∧ t.regs = s.regs) ∧
      (s.mode = .maintenance → s.sys.faultReq = none → ∃ t, exec (.modeReady (.bus r)) s = .next t ∧ t.sys.mode = .ready ∧
        t.sys.readyAt = s.now ∧ t.flag F.TW_STAT_OWN 0 0 = false) ∧
      (s.modeOk 10 = true → ∃ t, exec (.modeSafeHold (.bus r)) s = .next t ∧ t.sys.mode = .safeHold ∧
        t.fld F.SYS_SAFE_CAUSE 0 0 = 4) ∧
      (s.modeOk 11 = true → ∃ t, exec (.modeMaintenance (.bus r)) s = .next t ∧ t.sys.mode = .maintenance ∧
        t.flag F.TW_STAT_OWN 0 0 = false ∧ t.mem = s.mem) ∧
      (s.modeOk 12 = true → ∃ t, exec (.modeRetention (.bus r)) s = .next t ∧ t.sys = { s.sys with retReq := true } ∧
        t.regs = s.regs ∧ (s.dma.block = none → s.flashBusy = false → t.inbox = s.inbox ++ [.retentionEntry]))) ∧
    (s.sys.readyReq = true →
      (s.softHold = true → s.sys.safeNLow = false → s.readyTake.sys.mode = .ready ∧ s.readyTake.sys.readyAt = s.now ∧
        s.readyTake.flag F.TW_STAT_OWN 0 0 = false) ∧
      (s.mode = .safeHold → s.softHold = false ∨ s.sys.safeNLow = true → s.readyTake = { s with sys := { s.sys with readyReq := false } })) ∧
    (s.hpLive = true → ∀ c ∈ rows (.host f), ∀ p, hpReceive f 0x20 [BitVec.ofNat 8 c.2] = .good p →
      exec c.1 s = .next (if s.modeOk c.2 then (s.modeDo c.2).hpRespond 0x20 f .ok [] else s.hpRespond 0x20 f s.hpRefusal [])) ∧
    (s.mode = .ready → s.sys.retReq = true → s.dma.block = none → s.flashBusy = false → ∃ t, exec .retentionEntry s = .next t ∧
      t.sys.mode = .retention ∧ t.sys.prev = .ready ∧ t.fld F.TW_STAT_LINK 0 0 = 0 ∧ t.flag F.DBG_STAT_STATE 0 0 = false ∧
      t.pairs = State.reset.pairs ∧ t.evc = s.evc ∧ (∀ x, x < 0x50000000 ∨ 0x50010000 ≤ x → t.byte x = s.byte x) ∧
      (∀ i j, i < 8 → j < 16 → t.reg .PTU_WINt_w_BASE i j = s.reg .PTU_WINt_w_BASE i j) ∧
      (∀ q ∈ [RegName.SYS_JRNL_IDX, .SYS_ADMIT, .SYS_MODE_REQ, .SM_CFGGEN, .DBG_SAFEGRP], t.reg q 0 0 = regDefault (q.addr 0 0))) ∧
    (s.sys.mode = .retention →
      let failed (k : Nat) : Prop := ∃ t, exec (.retentionWake w) s = .next t ∧ t.sys.mode = .safeHold ∧
        t.fld F.SYS_SAFE_CAUSE 0 0 = 6 ∧ t.fld F.SYS_SAFE_SUB 0 0 = k
      let u := (s.setFld F.TW_STAT_LINK 0 0 1).setFld F.EVC_STAT_RESTORED 0 0 1
      (w.evcErr = true → failed 1) ∧
      (w.evcErr = false → 2 ≤ onesBelow 9 (calMask w.adc) → failed 3) ∧
      (w.evcErr = false → onesBelow 9 (calMask w.adc) < 2 → u.keptImage.1 = none → failed 2) ∧
      (w.evcErr = false → onesBelow 9 (calMask w.adc) < 2 → ∀ img, u.keptImage.1 = some img →
        (imgDigest img ≠ s.sys.digest → failed 2) ∧
        (imgDigest img = s.sys.digest → ∃ t, exec (.retentionWake w) s = .next t ∧
          t.sys.mode = .ready ∧ t.fld F.SYS_START_SRC 0 0 = 3 ∧ t.sys.bg = imgBg img ∧ t.reg .SM_CFGGEN 0 0 = imgWord img 0x10))) ∧
    (s.sys.mode ≠ .retention → s.sys.retReq = true →
      exec (.retentionWake w) s = .next { s with sys := { s.sys with wake := some w } })

/-- Host-port frames (R422, R423): one cut or with a wrong CRC has no effect but its count; STATUS answers eight words; a message is
pushed whole and answered with the words dropped, or popped as a packet or a gap marker; an unknown CMD is answered BADCMD. A response
goes out as 0xA5, its fields, LEN, the payload and the CRC-16 of all before it. What a queue that refuses the message, or an empty one,
answers is the model's reading (log entry 80), as is BADCMD before Ready (log entry 121). -/
def Obligations.HostPort : Prop :=
  ∀ (s : State) (f : HpFrame) (off : Word) (d : List Byte) (cmd : Byte), s.hpLive = true →
    let gen : BitVec 16 := (s.reg .TW_GEN 0 0).setWidth 16
    let answer (u : State) (c : Byte) (st : Byte) (p : List Byte) : State :=
      { u with hp := some ⟨c, f.seq, gen, st, BitVec.ofNat 8 s.sys.mode.code, p⟩ }
    (∀ x ∈ ([(.hpStatus f, 0x01, []), (.hpLoad f off d, 0x02, Word.bytes off ++ d), (.hpAbort f, 0x03, []), (.msgPut f d, 0x10, d),
        (.msgGet f, 0x11, [])] : List (Instr × Byte × List Byte)),
      (hpReceive f x.2.1 x.2.2 = .bad → exec x.1 s = .next (answer (s.bump F.HP_ERR_CNT_CRCERR 0 0) x.2.1 2 [])) ∧
      (hpReceive f x.2.1 x.2.2 = .cut → exec x.1 s = .next { s.bump F.HP_ERR_CNT_CUT 0 0 with hp := none })) ∧
    (∀ u : HpResp, u.payload.length < 65536 →
      u.wire.take 10 = [0xA5, u.cmd] ++ leBytes u.seq.toNat 2 ++ leBytes u.gen.toNat 2 ++ [u.status, u.mode] ++
        leBytes u.payload.length 2 ∧
      (u.wire.drop 10).take u.payload.length = u.payload ∧ u.wire.length = 12 + u.payload.length ∧
      halfOfBytes (u.wire.drop (10 + u.payload.length)) = (crc16 (u.wire.take (10 + u.payload.length))).toNat) ∧
    exec .hpFrameCut s = .next { s.bump F.HP_ERR_CNT_CUT 0 0 with hp := none } ∧
    (∀ p, cmd ∉ ([0x01, 0x02, 0x03, 0x10, 0x11, 0x20, 0x30] : List Byte) → hpReceive f cmd d = .good p →
      exec (.hpBadcmd f cmd d) s = .next (answer s cmd 3 [])) ∧
    (∀ p, hpReceive f 0x01 [] = .good p → exec (.hpStatus f) s = .next (answer s 0x01 0
      ([s.sysMode, s.reg .SYS_START 0 0, s.reg .SYS_SAFE 0 0, s.reg .SYS_ADMIT 0 0, s.reg .TW_STAT 0 0, s.reg .TW_GEN 0 0,
        s.reg .TW_HO_EPOCH 0 0, s.reg .TW_EPOCH_ACKED 0 0].flatMap Word.bytes))) ∧
    (∀ p, hpReceive f 0x10 d = .good p → s.mode.cores = true → 4 ≤ p.length → p.length ≤ 1024 → p.length % 4 = 0 →
      let q : QId := Fin.ofNat 256 (s.fld F.HP_CFG_INQ 0 0)
      let x := s.qPushAll q (bytesToWords p)
      s.qCredit q = false → s.mayPush (Fin.ofNat 8 (s.fld F.HP_CFG_TENANT 0 0)) q = true →
        exec (.msgPut f d) s = .next (x.2.hpRespond 0x10 f .ok (leBytes x.1 4))) ∧
    (∀ p, hpReceive f 0x10 d = .good p → s.mode.cores = false →
      exec (.msgPut f d) s = .next (answer s 0x10 (if s.sys.mode ∈ [Mode.blank, .loading, .verify] then 1 else 4) [])) ∧
    (∀ p, hpReceive f 0x11 [] = .good p → s.mode.cores = true →
      let q : QId := Fin.ofNat 256 (s.fld F.HP_CFG_OUTQ 0 0)
      let x := s.qPopPacket q 256
      s.queueOwner q = Fin.ofNat 8 (s.fld F.HP_CFG_TENANT 0 0) →
        (s.qFill q = 0 → exec (.msgGet f) s = .next (answer s 0x11 0 [])) ∧
        (s.cycAdded q < s.qFill q → (s.qTags (s.qSlot q (s.qRd q))).getLsbD 1 = true → exec (.msgGet f) s =
          .next ((s.qPopRec q).2.hpRespond 0x11 f .gap (Word.bytes (s.qPopRec q).1))) ∧
        (s.cycAdded q < s.qFill q → (s.qTags (s.qSlot q (s.qRd q))).getLsbD 1 = false → exec (.msgGet f) s =
          .next (x.2.hpRespond 0x11 f .ok (x.1.flatMap Word.bytes))))

/-- A host load and its verification (R237 to R240, R417, R419, R420): the first frame begins the load, the next ones continue it in
order, the last byte enters Verify; an abort ends it; Verify admits the image and enters Ready, or records why not and
returns to Blank. What a LOAD that begins at another offset, or is out of order, is answered is the model's reading (log entry 9). -/
def Obligations.HostLoadAndVerify : Prop :=
  ∀ (s : State) (f : HpFrame) (off : Word) (d : List Byte) (st : SelfTest), s.flag F.SYS_CLK_STAT_CLK_LOST 0 0 = false →
    let img := s.load.img ++ d
    let status (t : State) : Option Byte := t.hp.map (·.status)
    let back (t : State) (c : Nat) : Prop := t.sys.mode = .blank ∧ t.fld F.SYS_START_VCAUSE 0 0 = c ∧ t.load.img = [] ∧ t.sys.bg = []
    (∀ p, hpReceive f 0x02 (Word.bytes off ++ d) = .good p → p = Word.bytes off ++ d → 4 ≤ d.length → d.length ≤ 4096 →
      d.length % 4 = 0 →
      (s.sys.mode = .blank → s.fl.lower = none → off = 0 → d.length < 16 ∨ d.length < imgLength d →
        ∃ t, exec (.hpLoad f off d) s = .next t ∧ t.sys.mode = .loading ∧ t.load.src = .host ∧ t.load.img = d ∧ status t = some 0 ∧
          t.fld F.SYS_START_SRC 0 0 = 1 ∧ (s.now + 40000000, Instr.hostLoadTimeout) ∈ t.cal) ∧
      (s.sys.mode = .blank → s.fl.lower = none → off ≠ 0 → ∃ t, exec (.hpLoad f off d) s = .next t ∧ status t = some 1 ∧
        t.sys = s.sys ∧ t.load = s.load) ∧
      (s.sys.mode = .loading → s.load.src = .host →
        (off.toNat = s.load.img.length → ∃ t, exec (.hpLoad f off d) s = .next t ∧ status t = some 0 ∧
          (img.length < 16 ∨ img.length < imgLength img → t.load.img = img ∧ t.sys = s.sys) ∧
          (16 ≤ img.length → imgLength img ≤ img.length → t.sys.mode = .verify)) ∧
        (off.toNat ≠ s.load.img.length → ∃ t, exec (.hpLoad f off d) s = .next t ∧ status t = some 5 ∧ t.load = s.load ∧
          t.sys = s.sys ∧ (s.now + 40000000, Instr.hostLoadTimeout) ∈ t.cal)) ∧
      (s.mode.cores = true → ∃ t, exec (.hpLoad f off d) s = .next t ∧ status t = some 4 ∧ t.load = s.load ∧ t.regs = s.regs)) ∧
    (∀ p, hpReceive f 0x03 [] = .good p → s.sys.mode = .loading ∨ s.sys.mode = .verify →
      ∃ t, exec (.hpAbort f) s = .next t ∧ back t 0x22 ∧ status t = some 0) ∧
    (s.mode = .verify →
      let v := s.verdict s.load.img
      (∀ x, v = some x → ∃ t, exec (.verifyEnd st) s = .next t ∧ back t 0x10 ∧ t.reg .SYS_ADMIT 0 0 = verdictWord v) ∧
      (v = none → selfTestCause st ≠ 0 → ∃ t, exec (.verifyEnd st) s = .next t ∧ back t (selfTestCause st) ∧
        t.reg .SYS_ADMIT 0 0 = 0) ∧
      (v = none → selfTestCause st = 0 → ∃ t, exec (.verifyEnd st) s = .next t ∧ t.sys.mode = .ready ∧ t.sys.prev = .verify ∧
        t.reg .SYS_ADMIT 0 0 = 0 ∧ t.sys.digest = imgDigest s.load.img ∧ t.load.img = [] ∧ t.mx.routes = s.decodeRoutes ∧
        t.reg .SM_CFGGEN 0 0 = imgWord s.load.img 0x10))

/-- The debug port (R367 to R376), through the TAP or a host DEBUG frame, where the other port holds no session: a granted read answers
what stands at its place and, unless it consumes, changes nothing; a write acts as the port's; what a capability does not grant is
DENIED; sessions, halts, steps, the safe pattern of DBG_SAFEGRP, which a halt refused in its lc then needs no more. The registers of a
halted pair are read and written under H, a write in both copies; their place in a DEBUG frame is free (log entry 12). While the other
port holds the session a read is answered BUSY. -/
def Obligations.DebugPort : Prop :=
  ∀ (s : State) (v : DbgVia) (a x : Word) (p : Pair) (halt : BitVec 4),
    let host : Bool := match v with
      | .tap => false
      | .host _ => true
    let tells (op : Nat) (u : State) (st : HpStatus) (w : Word) : State := match v with
      | .tap => { u with ans := ⟨w, decide (st ≠ .ok)⟩ }
      | .host f => u.hpRespond 0x30 f st (if st = .ok ∧ op ≠ 2 then Word.bytes w else [])
    let reaches (op : Nat) (a d : Word) : Prop := s.sys.mode ≠ .reset ∧ s.sys.mode ≠ .retention ∧ match v with
      | .tap => True
      | .host f => s.sys.mode ≠ .blank ∧ s.sys.mode ≠ .loading ∧ s.sys.mode ≠ .verify ∧
        ∃ q, hpReceive f 0x30 ([BitVec.ofNat 8 op, 0, 0, 0] ++ Word.bytes a ++ Word.bytes d) = .good q ∧ 12 ≤ q.length
    let heard (op : Nat) (a d : Word) : Prop := reaches op a d ∧ (s.flag F.DBG_STAT_PORT 0 0 = host ∨ s.dbgOn = false)
    let ctrl (d : Nat) : Prop := heard 2 (BitVec.ofNat 32 (RegName.DBG_CTRL.addr 0 0)) (BitVec.ofNat 32 d)
    let ok (i : Instr) (good : State → Prop) : Prop := ∃ u, exec i s = .next (tells 2 u .ok 0) ∧ good u
    let denied := s.raiseFld F.DBG_STAT_ERR 0 0 1
    let alone : Prop := ∀ q k, (s.pair q).stc = some k → k.lc ≠ s.now
    let at_ := place dbgReq a.toNat 4
    (∀ f ∈ ([(1, false, .debugRead v (.bus a)), (3, true, .debugConsumeRead v (.bus a))] : List (Nat × Bool × Instr)), heard f.1 a 0 →
      let gives (u : State) (st : HpStatus) (w : Word) : Prop := exec f.2.2 s = .next (tells f.1 u st w)
      (s.grants (capOf false f.2.1 a.toNat) = false → gives denied .denied 0) ∧
      (s.grants (capOf false f.2.1 a.toNat) = true → a.toNat % 4 = 0 →
        (∀ b, at_ = .ram b → s.cleanAt b 4 → ∃ u, gives u .ok (s.word b) ∧ u.mem = s.mem ∧ u.regs = s.regs ∧ u.pairs = s.pairs) ∧
        (∀ q i j, at_ = .reg q i j → let t := s.regRead dbgReq (!f.2.1) q i j; gives t.2 .ok t.1) ∧
        (∀ b, at_ = .config b → gives s .ok (if s.configOpen dbgReq b 4 then s.word b else 0)) ∧
        (∀ b u, at_ = .flash b →
          (s.flReadBy 12 b = (.ok, u) → gives u .ok (u.word b)) ∧ (∀ w, s.flReadBy 12 b = (.busy w, u) → gives u .ok w) ∧
          (s.flReadBy 12 b = (.bad, u) → gives u .denied 0)) ∧
        (at_ = .nowhere → gives s .denied 0))) ∧
    (∀ q i j, q ≠ .TOD_NS → (s.regRead dbgReq true q i j).2 = s) ∧
    (reaches 1 a 0 → s.dbgOn = true → s.flag F.DBG_STAT_PORT 0 0 ≠ host →
      exec (.debugRead v (.bus a)) s = .next (tells 1 (s.raiseFld F.DBG_STAT_ERR 0 0 3) .busy 0)) ∧
    (heard 2 a x →
      (s.grants (capOf true false a.toNat) = false → exec (.debugWrite v (.bus a) x) s = .next (tells 2 denied .denied 0)) ∧
      (s.grants (capOf true false a.toNat) = true →
        let u := s.busWrite dbgReq a.toNat x.toNat 4
        (regAt (unalias a.toNat) = none → a.toNat % 4 = 0 →
          exec (.debugWrite v (.bus a) x) s = .next (tells 2 u (if u.ans.err then .denied else .ok) 0) ∧
          (∀ b, at_ = .ram b → s.cleanAt b 4 → alone → b < 0x30000000 ∨ 0x30380000 ≤ b →
            u.ans.err = false ∧ u.word b = x ∧ ∀ y, y < b ∨ b + 4 ≤ y → u.byte y = s.byte y)) ∧
        (∀ q i j, regAt (unalias a.toNat) = some (q, i, j) →
          (q ∉ [RegName.DBG_CTRL, .DBG_SAFEGRP, .DBG_AUTH_CTRL, .DBG_AUTH_DATAi] →
            exec (.debugWrite v (.bus a) x) s = .next (tells 2 u (if u.ans.err then .denied else .ok) 0)) ∧
          (q = .DBG_AUTH_DATAi → exec (.debugWrite v (.bus a) x) s = .next (tells 2 (s.setReg .DBG_AUTH_DATAi i 0 x) .ok 0))))) ∧
    (∀ loc : DbgLoc, locPair loc = some p →
      (heard 1 (locWord loc) 0 →
        (s.grants .h = true → (s.pair p).halted = true → ∀ y, s.dbgPeek loc = some y →
          exec (.debugRead v loc) s = .next (tells 1 s .ok y)) ∧
        (s.grants .h = false ∨ (s.pair p).halted = false → exec (.debugRead v loc) s = .next (tells 1 denied .denied 0))) ∧
      (heard 3 (locWord loc) 0 → s.grants .h = true → (s.pair p).halted = true → ∀ y, s.dbgPeek loc = some y →
        ∃ u, exec (.debugConsumeRead v loc) s = .next (tells 3 u .ok y) ∧ u.regs = s.regs ∧ (loc ≠ .special p 25 → u = s)) ∧
      (heard 2 (locWord loc) x →
        (s.grants .h = false ∨ (s.pair p).halted = false → exec (.debugWrite v loc x) s = .next (tells 2 denied .denied 0)) ∧
        (s.grants .h = true → (s.pair p).halted = true →
          (∀ g, loc = .greg p g → ok (.debugWrite v loc x) fun u => u.regs = s.regs ∧ u.mem = s.mem ∧
            (∀ k : Fin 32, (u.pair p).main.gr k = (if k = g ∧ g ≠ 0 then x else (s.pair p).main.gr k) ∧
              (u.pair p).chk.gr k = (if k = g ∧ g ≠ 0 then x else (s.pair p).chk.gr k)) ∧ ∀ q : Pair, q ≠ p → u.pair q = s.pair q) ∧
          (∀ g hi, loc = .freg p g hi → ok (.debugWrite v loc x) fun u => ∀ q : Pair, q = p →
            (∀ k : Fin 32, k ≠ g → (u.pair q).main.fr k = (s.pair q).main.fr k) ∧
            (u.pair q).main.fr g = (if hi then x ++ ((s.pair q).main.fr g).setWidth 32
              else (((s.pair q).main.fr g) >>> 32).setWidth 32 ++ x)) ∧
          (∀ n, loc = .special p n → s.dbgPeek loc ≠ none → ok (.debugWrite v loc x) fun u =>
            (u.pair p).main = (s.pair p).main.setSpecial n.val false x ∧ (u.pair p).chk = (s.pair p).chk.setSpecial n.val false x ∧
            (n = 5 → u.fld F.LP_EXC_STAT_ARMED p 0 = 0))))) ∧
    (∀ k : Fin 4, ctrl k.val →
      (k.val ≠ 1 → k.val ≠ 2 → exec (.dbgAttach v k) s = .next (tells 2 s .ok 0)) ∧
      (k.val = 1 ∨ (k.val = 2 ∧ s.dbgFull = true) → ok (.dbgAttach v k) fun u => u.fld F.DBG_STAT_STATE 0 0 = k.val ∧
        u.flag F.DBG_STAT_PORT 0 0 = host ∧ u.pairs = s.pairs) ∧
      (k.val = 2 → s.dbgFull = false → exec (.dbgAttach v k) s = .next (tells 2 denied .denied 0))) ∧
    (ctrl 4 → ok (.dbgDetach v) fun u => u.fld F.DBG_STAT_STATE 0 0 = 0 ∧ u.flag F.DBG_STAT_AUTH 0 0 = false ∧
      ∀ q : Pair, (u.pair q).halted = false ∧ (u.pair q).main = (s.pair q).main ∧ ((s.pair q).halted = true → (u.pair q).resv = none)) ∧
    (ctrl (2 ^ (4 + p.val)) →
      (s.grants .h = false → exec (.dbgHalt v p) s = .next (tells 2 denied .denied 0)) ∧
      (s.grants .h = true →
        (s.haltBarred p = true → ∃ u, exec (.dbgHalt v p) s = .next (tells 2 u .denied 0) ∧
          u = { s.raiseFld F.DBG_STAT_ERR 0 0 2 with dbg := u.dbg }) ∧
        (s.haltBarred p = false → (s.pair p).halted = true → exec (.dbgHalt v p) s = .next (tells 2 s .ok 0)) ∧
        (s.haltBarred p = false → (s.pair p).halted = false → ok (.dbgHalt v p) fun u =>
          u.pair p = { s.pair p with haltReq := true } ∧ u.inbox = s.inbox ++ [.haltTaken p] ∧ u.regs = s.regs))) ∧
    (ctrl (8 + halt.toNat * 16) → s.grants .h = true → ∃ u st, exec (.dbgResume v halt) s = .next (tells 2 u st 0) ∧ ∀ q : Pair,
        (halt.getLsbD q.val = false → (u.pair q).halted = false ∧ ((s.pair q).halted = true → (u.pair q).resv = none)) ∧
        (halt.getLsbD q.val = true → (s.pair q).halted = true → u.pair q = s.pair q)) ∧
    (ctrl (2 ^ (8 + p.val)) → s.grants .h = true → ok (.dbgStep v p) fun u =>
      u.pair p = (if (s.pair p).halted then { s.pair p with halted := false, step := true } else s.pair p) ∧
      ∀ q : Pair, q ≠ p → u.pair q = s.pair q) ∧
    (heard 2 (BitVec.ofNat 32 (RegName.DBG_SAFEGRP.addr 0 0)) x → s.grants .h = true → ok (.dbgSafegrpWrite v x) fun u =>
      u.reg .DBG_SAFEGRP 0 0 = x &&& 0xFFFF ∧
      (∀ n : GenId, x.getLsbD (s.grpOf n) = true → (s.reg .DBG_SAFEGRP 0 0).getLsbD (s.grpOf n) = false → u.pwm[n].safe = true) ∧
      (∀ k, s.dbg.barred = [(s.now, k, p)] → (s.pair p).halted = false → x.toNat % 65536 = 65535 →
        (u.pair p).haltReq = true ∧ Instr.haltTaken p ∈ u.inbox)) ∧
    ((s.pair p).haltReq = true → s.boundary p = .halt → ∃ t, exec (.haltTaken p) s = .next t ∧
      t.pair p = { s.pair p with halted := true, haltReq := false, step := false, resv := none } ∧ t.regs = s.regs) ∧
    ((s.pair p).haltReq = false → exec (.haltTaken p) s = .next s)

/-- Authentication and the TAP (R368, R374), where the other port holds no session: a challenge, the check of an answer to it within
5 ms, its outcome; three failures in a row lock it, and each challenge serves one check. BYPASS and IDCODE always, the boundary-scan
instructions in Blank at PL0 or with an authenticated session; else BYPASS stands in their place. The challenge and the time of the check
are free (log entries 21, 53). -/
def Obligations.AuthenticationAndTap : Prop :=
  ∀ (s : State) (v : DbgVia),
    let host : Bool := match v with
      | .tap => false
      | .host _ => true
    let tells (u : State) (st : HpStatus) : State := match v with
      | .tap => { u with ans := ⟨0, decide (st ≠ .ok)⟩ }
      | .host f => u.hpRespond 0x30 f st []
    let heard (d : Word) : Prop := s.sys.mode ≠ .reset ∧ s.sys.mode ≠ .retention ∧
      (s.flag F.DBG_STAT_PORT 0 0 = host ∨ s.dbgOn = false) ∧ match v with
      | .tap => True
      | .host f => s.sys.mode ≠ .blank ∧ s.sys.mode ≠ .loading ∧ s.sys.mode ≠ .verify ∧
        ∃ q, hpReceive f 0x30 ([2, 0, 0, 0] ++ Word.bytes (BitVec.ofNat 32 (RegName.DBG_AUTH_CTRL.addr 0 0)) ++ Word.bytes d) = .good q ∧
          12 ≤ q.length
    let denied := tells (s.raiseFld F.DBG_STAT_ERR 0 0 1) .denied
    let locked : Prop := s.flag F.DBG_STAT_LOCKED 0 0 = true ∨ s.dbg.authBusy = true
    let tap (i : TapInstr) : State := { s with dbg := { s.dbg with tap := i } }
    let scans : Prop := s.sys.mode = .blank ∧ (s.fld F.FL_PL_LEVEL 0 0 = 0 ∨ s.flag F.DBG_STAT_AUTH 0 0 = true)
    (heard 1 →
      (locked → exec (.authRequest v) s = .next denied) ∧
      (¬locked → ∃ u, exec (.authRequest v) s = .next (tells u .ok) ∧ u.dbg.chal = true ∧
        ∀ i : Fin 8, u.reg .DBG_AUTH_CHALi i 0 = Config.challenge s.fresh i)) ∧
    (heard 2 →
      (locked ∨ s.dbg.chal = false → exec (.authGo v) s = .next denied) ∧
      (¬locked → s.dbg.chal = true → ∃ u, exec (.authGo v) s = .next (tells u .ok) ∧ u.dbg.chal = false ∧ u.dbg.authBusy = true ∧
        ∃ k, 0 < k ∧ k ≤ 2000000 ∧ (s.now + k, Instr.authComplete) ∈ u.cal)) ∧
    (s.dbg.authBusy = false → exec .authComplete s = .next s) ∧
    (s.dbg.authBusy = true → s.sys.mode ≠ .reset → s.sys.mode ≠ .retention → ∃ u, exec .authComplete s = .next u ∧
      u.dbg.authBusy = false ∧
      (s.okhBlank = false → s.authGood = true → u.flag F.DBG_STAT_AUTH 0 0 = true ∧ u.fld F.DBG_STAT_FAILS 0 0 = 0) ∧
      (s.okhBlank = true ∨ s.authGood = false → s.fld F.DBG_STAT_FAILS 0 0 < 3 →
        u.flag F.DBG_STAT_AUTH 0 0 = s.flag F.DBG_STAT_AUTH 0 0 ∧ u.fld F.DBG_STAT_FAILS 0 0 = s.fld F.DBG_STAT_FAILS 0 0 + 1 ∧
        u.fld F.DBG_STAT_ERR 0 0 = (if s.okhBlank then 4 else 5) ∧
        (s.fld F.DBG_STAT_FAILS 0 0 = 2 → u.flag F.DBG_STAT_LOCKED 0 0 = true))) ∧
    exec .tapBypass s = .next (tap .bypass) ∧ exec .tapIdcode s = .next ((tap .idcode).answer (s.reg .DBG_ID 0 0)) ∧
    (scans → exec .tapExtest s = .next (tap .extest) ∧ exec .tapSample s = .next (tap .sample) ∧
      exec .tapPreload s = .next (tap .preload)) ∧
    (¬scans → ∀ c ∈ [Instr.tapExtest, .tapSample, .tapPreload], exec c s = .next (tap .bypass))

/-! ## Registers, and the machine as a whole -/

/-- Accesses (R6, R9, R24, R359, R360, R362): a permitted, aligned one reads or writes its place; a misaligned one or one that leads
nowhere is a bus error; one that no window permits makes no access and is recorded (the order of these is the model's reading, log
entry 81); each field changes as its access code says, what
hardware sets in the same cycle stays set, and what it counts in the cycle of a clearing read stays counted. -/
def Obligations.RegisterAccesses : Prop :=
  ∀ (s : State) (r : Req) (a v : Word), 
    let x := a.toNat
    let t := r.tenant
    let both (ok : Kind → Prop) (p q : State) : Prop :=
      (ok .write → exec (.registerWrite r a v) s = .next p) ∧ (ok .read → exec (.registerReadClear r a) s = .next q)
    let o := s.access r.master
    both (fun k => s.reqLive r k = false) s s ∧
    both (fun k => s.reqLive r k = true ∧ x % 4 ≠ 0) s.busError s.busError ∧
    both (fun k => s.reqLive r k = true ∧ x % 4 = 0 ∧ s.permitted r k x 4 = true) (o.busWrite r x v.toNat 4) (o.readAnswer r false a) ∧
    both (fun k => s.reqLive r k = true ∧ x % 4 = 0 ∧ s.permitted r k x 4 = false) (s.violation r .write x).busError
      (s.violation r .read x).busError ∧
    (∀ k, let u := s.violation r k x
      u.reg .PTU_LASTADDR 0 0 = a ∧ u.reg .PTU_LASTVIOL 0 0 = BitVec.ofNat 32 (r.master.val * 256 + t.val * 16 + privBits r.level * 4 + k.code) ∧
      u.fld F.PTU_VIOLt_COUNT t 0 = min F.PTU_VIOLt_COUNT.max (s.fld F.PTU_VIOLt_COUNT t 0 + 1) ∧
      u.cal = s.cal ++ [(s.now + 1, .evcEvent 0x189)] ∧ u.mem = s.mem) ∧
    (place r x 4 = .nowhere → s.busWrite r x v.toNat 4 = s.busError ∧ s.readAnswer r false a = s.busError) ∧
    (∀ b, place r x 4 = .ram b → s.cleanAt b 4 → b < 0x30000000 ∨ 0x30380000 ≤ b →
      (∀ q k, (s.pair q).stc = some k → k.lc ≠ s.now) →
      (s.readAnswer r false a).ans = ⟨s.word b, false⟩ ∧ (s.readAnswer r false a).mem = s.mem ∧
      (let u := s.busWrite r x v.toNat 4
       u.word b = v ∧ u.ans = ⟨0, false⟩ ∧ ∀ y, y < b ∨ b + 4 ≤ y → u.byte y = s.byte y)) ∧
    (∀ (wlk : Bool) (came w : Word) (f : FieldDesc) (i : Nat), f.hi < 32 → f.lo ≤ f.hi → i < 32 →
      (writeField wlk came v w f).getLsbD i = (if f.lo ≤ i ∧ i ≤ f.hi then (match f.acc with
        | .rw => v.getLsbD i
        | .wlk => if wlk then v.getLsbD i else w.getLsbD i
        | .w1c => w.getLsbD i && !(v.getLsbD i && !came.getLsbD i)
        | .w1s => w.getLsbD i || v.getLsbD i
        | .ro => w.getLsbD i
        | .wo => w.getLsbD i
        | .rclr => w.getLsbD i) else w.getLsbD i)) ∧
    (∀ q i j, let w := s.reg q i j
      let m := rclrMask q.fields
      let u := s.readReg q i j false
      s.readReg q i j true = (w &&& readMask q.fields, s) ∧
      (SMap.find? s.hits (q.addr i j) = none → u.2.reg q i j = w &&& ~~~m ∧ u.1 = w &&& readMask q.fields) ∧
      (∀ before came, SMap.find? s.hits (q.addr i j) = some (before, came) →
        u.2.reg q i j = mux m came w ∧ u.1 = mux m before w &&& readMask q.fields))

/-- One step: the command at the front of the queue runs on the state with the queue's rest; on an empty queue time passes (log entry
1), which no fault or refusal ends. -/
def Obligations.StepRunsFront : Prop :=
  (∀ (s : State) (c : Instr) (cs : List Instr), step { s with pending := c :: cs } = exec c { s with pending := cs }) ∧
  ∀ s : State, s.pending = [] → step s = .next s.idle

/-- Every command on every state answers a next state: no command faults and none is refused. -/
def Obligations.EveryCommandCompletes : Prop :=
 ∀ (c : Instr) (s : State), ∃ t, exec c s = .next t

/-- The state after reset (R8, R30): Blank, no command waiting, nothing due, every register at its Reset column, the flash erased,
the storage in canonical form. A register without a stated reset value, and memory that nothing has written, hold the model's (log
entries 3, 5). -/
def Obligations.ResetState : Prop :=
  let s := State.reset
  s.pending = [] ∧ s.cal = [] ∧ s.inbox = [] ∧ s.mode = .blank ∧ s.canonical ∧
  (∀ q i j, regAt (q.addr i j) = some (q, i, j) → s.reg q i j = q.reset i j) ∧
  (∀ a, 0x10000000 ≤ a → a < 0x12000000 → s.byte a = 0xFF) ∧
  ∀ p : Pair, (s.pair p).halted = false ∧ (s.pair p).main = (s.pair p).chk ∧ (s.pair p).late = []

/-- Every step keeps the one canonical form of the registers and the memory. -/
def Obligations.StepKeepsCanonical : Prop :=
 ∀ s t : State, s.canonical → step s = .next t → t.canonical

/-- Decoding the word of any well-formed NC32 instruction gives it back, with every operand (R255, R261). -/
def Obligations.DecodeEncode : Prop :=
  ∀ (i : Instr) (p : Pair) (w : Word), i.wf = true → i.pair? = some p → nc32Encode i = some w → nc32Decode p w = some i
end

