-- ==== Sys2Proof/Laws/Store.lean ====
section
/-! SUPPORT. Sparse maps: what a read gives after a write, and that every write keeps the canonical form. -/

namespace Sys2Proof.Machine

variable {α : Type}

/-! ## Reads after writes -/

theorem SMap.find?_drop (m : SMap α) (k q : Nat) : (m.drop k).find? q = if q = k then none else m.find? q := by
  induction m with
  | nil => simp [SMap.drop, SMap.find?]
  | cons e m ih =>
    obtain ⟨a, v⟩ := e
    by_cases h : a = k
    · subst h
      simp only [SMap.drop, if_pos, ih, SMap.find?]
      by_cases hq : q = a
      · simp [hq]
      · simp [hq, Ne.symm hq]
    · simp only [SMap.drop, if_neg h, SMap.find?, ih]
      by_cases hq : a = q
      · subst hq; simp [h]
      · simp [hq]

theorem SMap.find?_insert (m : SMap α) (k : Nat) (v : α) (q : Nat) (h : m.find? k = none) :
    (m.insert k v).find? q = if q = k then some v else m.find? q := by
  induction m with
  | nil => by_cases hq : q = k <;> simp [SMap.insert, SMap.find?, hq, Ne.symm]
  | cons e m ih =>
    obtain ⟨a, w⟩ := e
    have ha : a ≠ k := by intro e; simp [SMap.find?, e] at h
    have hm : SMap.find? m k = none := by simpa [SMap.find?, ha] using h
    simp only [SMap.insert]
    split
    · by_cases hq : q = k
      · simp [SMap.find?, hq]
      · simp [SMap.find?, hq, Ne.symm hq]
    · by_cases hq : a = q
      · subst hq; simp [SMap.find?, ha]
      · simp [SMap.find?, hq, ih hm]

/-- A write is read back. -/
theorem SMap.get_put_same [DecidableEq α] (m : SMap α) (k : Nat) (v d : α) : (m.put k v d).get k d = v := by
  unfold SMap.put SMap.get
  by_cases h : v = d
  · simp [SMap.find?_drop, h]
  · rw [if_neg h, SMap.find?_insert _ _ _ _ (by simp [SMap.find?_drop])]; simp

/-- A write leaves every other key alone. -/
theorem SMap.get_put_ne [DecidableEq α] (m : SMap α) {k q : Nat} (v d e : α) (h : q ≠ k) : (m.put k v d).get q e = m.get q e := by
  unfold SMap.put SMap.get
  by_cases hv : v = d
  · simp [SMap.find?_drop, h, hv]
  · rw [if_neg hv, SMap.find?_insert _ _ _ _ (by simp [SMap.find?_drop])]; simp [SMap.find?_drop, h]

/-! ## The canonical form -/

theorem SMap.sortedFrom_mono {m : SMap α} {a b : Nat} (h : b ≤ a) (hs : m.sortedFrom a = true) : m.sortedFrom b = true := by
  cases m with
  | nil => rfl
  | cons e m =>
    simp only [SMap.sortedFrom, Bool.and_eq_true, decide_eq_true_eq] at *
    exact ⟨by omega, hs.2⟩

theorem SMap.sortedFrom_filter (p : Nat × α → Bool) (m : SMap α) (a : Nat) (hs : m.sortedFrom a = true) :
    SMap.sortedFrom a (m.filter p) = true := by
  induction m generalizing a with
  | nil => rfl
  | cons e m ih =>
    simp [SMap.sortedFrom] at hs
    by_cases h : p e
    · simp [List.filter_cons_of_pos h, SMap.sortedFrom, hs.1, ih _ hs.2]
    · rw [List.filter_cons_of_neg h]; exact SMap.sortedFrom_mono (by omega) (ih _ hs.2)

theorem SMap.drop_eq_filter (m : SMap α) (k : Nat) : m.drop k = m.filter fun e => decide (e.1 ≠ k) := by
  induction m with
  | nil => rfl
  | cons e m ih => obtain ⟨a, v⟩ := e; by_cases h : a = k <;> simp [SMap.drop, h, ih]

theorem SMap.sortedFrom_insert (m : SMap α) (k : Nat) (v : α) (a : Nat) (hs : m.sortedFrom a = true) (hk : a ≤ k)
    (h : m.find? k = none) : (m.insert k v).sortedFrom a = true := by
  induction m generalizing a with
  | nil => simpa [SMap.insert, SMap.sortedFrom] using hk
  | cons e m ih =>
    obtain ⟨b, w⟩ := e
    have hb : b ≠ k := by intro e; simp [SMap.find?, e] at h
    have hm : SMap.find? m k = none := by simpa [SMap.find?, hb] using h
    simp [SMap.sortedFrom] at hs
    simp only [SMap.insert]
    split
    · simp [SMap.sortedFrom, hk, hs.2]; omega
    · simp [SMap.sortedFrom, hs.1]; exact ih (b + 1) hs.2 (by omega) hm

theorem SMap.mem_insert {m : SMap α} {k : Nat} {v : α} {e : Nat × α} (h : e ∈ m.insert k v) : e = (k, v) ∨ e ∈ m := by
  induction m with
  | nil => simpa [SMap.insert] using h
  | cons x m ih =>
    obtain ⟨b, w⟩ := x
    simp only [SMap.insert] at h
    split at h
    · simpa using h
    · rcases List.mem_cons.1 h with h | h
      · exact .inr (by simp [h])
      · rcases ih h with h | h
        · exact .inl h
        · exact .inr (by simp [h])

/-- Taking entries out keeps the canonical form. -/
theorem SMap.wf_filter [DecidableEq α] {d : Nat → α} {m : SMap α} (p : Nat × α → Bool) (h : m.wf d = true) : SMap.wf d (m.filter p) = true := by
  simp only [SMap.wf, Bool.and_eq_true] at h ⊢
  refine ⟨SMap.sortedFrom_filter p m 0 h.1, ?_⟩
  rw [List.all_eq_true] at *
  exact fun e he => h.2 e (List.mem_filter.1 he).1

theorem SMap.wf_drop [DecidableEq α] {d : Nat → α} {m : SMap α} (k : Nat) (h : m.wf d = true) : (m.drop k).wf d = true := by
  rw [SMap.drop_eq_filter]; exact SMap.wf_filter _ h

/-- A write keeps the canonical form. -/
theorem SMap.wf_put [DecidableEq α] {d : Nat → α} {m : SMap α} (k : Nat) (v : α) (h : m.wf d = true) : (m.put k v (d k)).wf d = true := by
  unfold SMap.put
  split
  · exact SMap.wf_drop k h
  · next hv =>
    have hd := SMap.wf_drop k h
    simp only [SMap.wf, Bool.and_eq_true] at hd ⊢
    refine ⟨SMap.sortedFrom_insert _ _ _ _ hd.1 (by omega) (by simp [SMap.find?_drop]), ?_⟩
    rw [List.all_eq_true] at *
    intro e he
    rcases SMap.mem_insert he with rfl | he
    · simpa using hv
    · exact hd.2 e he

/-! ## Vectors -/

theorem vset_getElem {n : Nat} (v : Vector α n) (i : Fin n) (x : α) (k : Nat) (h : k < n) :
    (vset v i x)[k] = if i.val = k then x else v[k] := by
  simp [vset, Vector.getElem_set]

@[simp] theorem vset_getElem_same {n : Nat} (v : Vector α n) (i : Fin n) (x : α) : (vset v i x)[i.val] = x := by
  simp [vset_getElem]

theorem vset_getElem_ne {n : Nat} (v : Vector α n) {i j : Fin n} (x : α) (h : i ≠ j) : (vset v i x)[j.val] = v[j.val] := by
  rw [vset_getElem, if_neg (fun e => h (Fin.ext e))]

@[simp] theorem vset_vset {n : Nat} (v : Vector α n) (i : Fin n) (x y : α) : vset (vset v i x) i y = vset v i y := by
  simp [vset]

@[simp] theorem vset_self {n : Nat} (v : Vector α n) (i : Fin n) : vset v i v[i.val] = v := by simp [vset]

end Sys2Proof.Machine
end

