-- ==== Sys2Proof/Laws/State.lean ====
section
/-! SUPPORT. What each named update of the state leaves alone: one lemma per update and field, true by unfolding. -/

namespace Sys2Proof.Machine

variable (s : State)


@[simp] theorem State.setReg_pending (r : RegName) (i j : Nat) (v : Word) : (s.setReg r i j v).pending = s.pending := rfl
@[simp] theorem State.setReg_now (r : RegName) (i j : Nat) (v : Word) : (s.setReg r i j v).now = s.now := rfl
@[simp] theorem State.setReg_cal (r : RegName) (i j : Nat) (v : Word) : (s.setReg r i j v).cal = s.cal := rfl
@[simp] theorem State.setReg_inbox (r : RegName) (i j : Nat) (v : Word) : (s.setReg r i j v).inbox = s.inbox := rfl
@[simp] theorem State.setReg_later (r : RegName) (i j : Nat) (v : Word) : (s.setReg r i j v).later = s.later := rfl
@[simp] theorem State.setReg_mem (r : RegName) (i j : Nat) (v : Word) : (s.setReg r i j v).mem = s.mem := rfl
@[simp] theorem State.setReg_upset (r : RegName) (i j : Nat) (v : Word) : (s.setReg r i j v).upset = s.upset := rfl
@[simp] theorem State.setReg_ans (r : RegName) (i j : Nat) (v : Word) : (s.setReg r i j v).ans = s.ans := rfl
@[simp] theorem State.setReg_fresh (r : RegName) (i j : Nat) (v : Word) : (s.setReg r i j v).fresh = s.fresh := rfl
@[simp] theorem State.setReg_sys (r : RegName) (i j : Nat) (v : Word) : (s.setReg r i j v).sys = s.sys := rfl
@[simp] theorem State.setReg_hp (r : RegName) (i j : Nat) (v : Word) : (s.setReg r i j v).hp = s.hp := rfl
@[simp] theorem State.setReg_load (r : RegName) (i j : Nat) (v : Word) : (s.setReg r i j v).load = s.load := rfl
@[simp] theorem State.setReg_mx (r : RegName) (i j : Nat) (v : Word) : (s.setReg r i j v).mx = s.mx := rfl
@[simp] theorem State.setReg_pairs (r : RegName) (i j : Nat) (v : Word) : (s.setReg r i j v).pairs = s.pairs := rfl
@[simp] theorem State.setReg_evc (r : RegName) (i j : Nat) (v : Word) : (s.setReg r i j v).evc = s.evc := rfl
@[simp] theorem State.setReg_fl (r : RegName) (i j : Nat) (v : Word) : (s.setReg r i j v).fl = s.fl := rfl
@[simp] theorem State.setReg_ix (r : RegName) (i j : Nat) (v : Word) : (s.setReg r i j v).ix = s.ix := rfl
@[simp] theorem State.setReg_qtag (r : RegName) (i j : Nat) (v : Word) : (s.setReg r i j v).qtag = s.qtag := rfl
@[simp] theorem State.setReg_dma (r : RegName) (i j : Nat) (v : Word) : (s.setReg r i j v).dma = s.dma := rfl
@[simp] theorem State.setReg_dbg (r : RegName) (i j : Nat) (v : Word) : (s.setReg r i j v).dbg = s.dbg := rfl
@[simp] theorem State.setReg_marks (r : RegName) (i j : Nat) (v : Word) : (s.setReg r i j v).marks = s.marks := rfl
@[simp] theorem State.setReg_hits (r : RegName) (i j : Nat) (v : Word) : (s.setReg r i j v).hits = s.hits := rfl
@[simp] theorem State.setReg_accs (r : RegName) (i j : Nat) (v : Word) : (s.setReg r i j v).accs = s.accs := rfl
@[simp] theorem State.setReg_cyc (r : RegName) (i j : Nat) (v : Word) : (s.setReg r i j v).cyc = s.cyc := rfl
@[simp] theorem State.setReg_old (r : RegName) (i j : Nat) (v : Word) : (s.setReg r i j v).old = s.old := rfl
@[simp] theorem State.setReg_tmr (r : RegName) (i j : Nat) (v : Word) : (s.setReg r i j v).tmr = s.tmr := rfl
@[simp] theorem State.setReg_tod (r : RegName) (i j : Nat) (v : Word) : (s.setReg r i j v).tod = s.tod := rfl
@[simp] theorem State.setReg_adc (r : RegName) (i j : Nat) (v : Word) : (s.setReg r i j v).adc = s.adc := rfl
@[simp] theorem State.setReg_rot (r : RegName) (i j : Nat) (v : Word) : (s.setReg r i j v).rot = s.rot := rfl
@[simp] theorem State.setReg_cmps (r : RegName) (i j : Nat) (v : Word) : (s.setReg r i j v).cmps = s.cmps := rfl
@[simp] theorem State.setReg_pwm (r : RegName) (i j : Nat) (v : Word) : (s.setReg r i j v).pwm = s.pwm := rfl
@[simp] theorem State.setReg_strobe (r : RegName) (i j : Nat) (v : Word) : (s.setReg r i j v).strobe = s.strobe := rfl
@[simp] theorem State.setReg_dlWaits (r : RegName) (i j : Nat) (v : Word) : (s.setReg r i j v).dlWaits = s.dlWaits := rfl
@[simp] theorem State.setReg_pos (r : RegName) (i j : Nat) (v : Word) : (s.setReg r i j v).pos = s.pos := rfl
@[simp] theorem State.setReg_le (r : RegName) (i j : Nat) (v : Word) : (s.setReg r i j v).le = s.le := rfl
@[simp] theorem State.setReg_twin (r : RegName) (i j : Nat) (v : Word) : (s.setReg r i j v).twin = s.twin := rfl
@[simp] theorem State.setReg_eth (r : RegName) (i j : Nat) (v : Word) : (s.setReg r i j v).eth = s.eth := rfl
@[simp] theorem State.setReg_sc (r : RegName) (i j : Nat) (v : Word) : (s.setReg r i j v).sc = s.sc := rfl

@[simp] theorem State.setFld_pending (f : Fld) (i j v : Nat) : (s.setFld f i j v).pending = s.pending := rfl
@[simp] theorem State.setFld_now (f : Fld) (i j v : Nat) : (s.setFld f i j v).now = s.now := rfl
@[simp] theorem State.setFld_cal (f : Fld) (i j v : Nat) : (s.setFld f i j v).cal = s.cal := rfl
@[simp] theorem State.setFld_inbox (f : Fld) (i j v : Nat) : (s.setFld f i j v).inbox = s.inbox := rfl
@[simp] theorem State.setFld_later (f : Fld) (i j v : Nat) : (s.setFld f i j v).later = s.later := rfl
@[simp] theorem State.setFld_mem (f : Fld) (i j v : Nat) : (s.setFld f i j v).mem = s.mem := rfl
@[simp] theorem State.setFld_upset (f : Fld) (i j v : Nat) : (s.setFld f i j v).upset = s.upset := rfl
@[simp] theorem State.setFld_ans (f : Fld) (i j v : Nat) : (s.setFld f i j v).ans = s.ans := rfl
@[simp] theorem State.setFld_fresh (f : Fld) (i j v : Nat) : (s.setFld f i j v).fresh = s.fresh := rfl
@[simp] theorem State.setFld_sys (f : Fld) (i j v : Nat) : (s.setFld f i j v).sys = s.sys := rfl
@[simp] theorem State.setFld_hp (f : Fld) (i j v : Nat) : (s.setFld f i j v).hp = s.hp := rfl
@[simp] theorem State.setFld_load (f : Fld) (i j v : Nat) : (s.setFld f i j v).load = s.load := rfl
@[simp] theorem State.setFld_mx (f : Fld) (i j v : Nat) : (s.setFld f i j v).mx = s.mx := rfl
@[simp] theorem State.setFld_pairs (f : Fld) (i j v : Nat) : (s.setFld f i j v).pairs = s.pairs := rfl
@[simp] theorem State.setFld_evc (f : Fld) (i j v : Nat) : (s.setFld f i j v).evc = s.evc := rfl
@[simp] theorem State.setFld_fl (f : Fld) (i j v : Nat) : (s.setFld f i j v).fl = s.fl := rfl
@[simp] theorem State.setFld_ix (f : Fld) (i j v : Nat) : (s.setFld f i j v).ix = s.ix := rfl
@[simp] theorem State.setFld_qtag (f : Fld) (i j v : Nat) : (s.setFld f i j v).qtag = s.qtag := rfl
@[simp] theorem State.setFld_dma (f : Fld) (i j v : Nat) : (s.setFld f i j v).dma = s.dma := rfl
@[simp] theorem State.setFld_dbg (f : Fld) (i j v : Nat) : (s.setFld f i j v).dbg = s.dbg := rfl
@[simp] theorem State.setFld_marks (f : Fld) (i j v : Nat) : (s.setFld f i j v).marks = s.marks := rfl
@[simp] theorem State.setFld_hits (f : Fld) (i j v : Nat) : (s.setFld f i j v).hits = s.hits := rfl
@[simp] theorem State.setFld_accs (f : Fld) (i j v : Nat) : (s.setFld f i j v).accs = s.accs := rfl
@[simp] theorem State.setFld_cyc (f : Fld) (i j v : Nat) : (s.setFld f i j v).cyc = s.cyc := rfl
@[simp] theorem State.setFld_old (f : Fld) (i j v : Nat) : (s.setFld f i j v).old = s.old := rfl
@[simp] theorem State.setFld_tmr (f : Fld) (i j v : Nat) : (s.setFld f i j v).tmr = s.tmr := rfl
@[simp] theorem State.setFld_tod (f : Fld) (i j v : Nat) : (s.setFld f i j v).tod = s.tod := rfl
@[simp] theorem State.setFld_adc (f : Fld) (i j v : Nat) : (s.setFld f i j v).adc = s.adc := rfl
@[simp] theorem State.setFld_rot (f : Fld) (i j v : Nat) : (s.setFld f i j v).rot = s.rot := rfl
@[simp] theorem State.setFld_cmps (f : Fld) (i j v : Nat) : (s.setFld f i j v).cmps = s.cmps := rfl
@[simp] theorem State.setFld_pwm (f : Fld) (i j v : Nat) : (s.setFld f i j v).pwm = s.pwm := rfl
@[simp] theorem State.setFld_strobe (f : Fld) (i j v : Nat) : (s.setFld f i j v).strobe = s.strobe := rfl
@[simp] theorem State.setFld_dlWaits (f : Fld) (i j v : Nat) : (s.setFld f i j v).dlWaits = s.dlWaits := rfl
@[simp] theorem State.setFld_pos (f : Fld) (i j v : Nat) : (s.setFld f i j v).pos = s.pos := rfl
@[simp] theorem State.setFld_le (f : Fld) (i j v : Nat) : (s.setFld f i j v).le = s.le := rfl
@[simp] theorem State.setFld_twin (f : Fld) (i j v : Nat) : (s.setFld f i j v).twin = s.twin := rfl
@[simp] theorem State.setFld_eth (f : Fld) (i j v : Nat) : (s.setFld f i j v).eth = s.eth := rfl
@[simp] theorem State.setFld_sc (f : Fld) (i j v : Nat) : (s.setFld f i j v).sc = s.sc := rfl

@[simp] theorem State.hit_pending (f : Fld) (i j k : Nat) : (s.hit f i j k).pending = s.pending := rfl
@[simp] theorem State.hit_now (f : Fld) (i j k : Nat) : (s.hit f i j k).now = s.now := rfl
@[simp] theorem State.hit_cal (f : Fld) (i j k : Nat) : (s.hit f i j k).cal = s.cal := rfl
@[simp] theorem State.hit_inbox (f : Fld) (i j k : Nat) : (s.hit f i j k).inbox = s.inbox := rfl
@[simp] theorem State.hit_later (f : Fld) (i j k : Nat) : (s.hit f i j k).later = s.later := rfl
@[simp] theorem State.hit_regs (f : Fld) (i j k : Nat) : (s.hit f i j k).regs = s.regs := rfl
@[simp] theorem State.hit_mem (f : Fld) (i j k : Nat) : (s.hit f i j k).mem = s.mem := rfl
@[simp] theorem State.hit_upset (f : Fld) (i j k : Nat) : (s.hit f i j k).upset = s.upset := rfl
@[simp] theorem State.hit_ans (f : Fld) (i j k : Nat) : (s.hit f i j k).ans = s.ans := rfl
@[simp] theorem State.hit_fresh (f : Fld) (i j k : Nat) : (s.hit f i j k).fresh = s.fresh := rfl
@[simp] theorem State.hit_sys (f : Fld) (i j k : Nat) : (s.hit f i j k).sys = s.sys := rfl
@[simp] theorem State.hit_hp (f : Fld) (i j k : Nat) : (s.hit f i j k).hp = s.hp := rfl
@[simp] theorem State.hit_load (f : Fld) (i j k : Nat) : (s.hit f i j k).load = s.load := rfl
@[simp] theorem State.hit_mx (f : Fld) (i j k : Nat) : (s.hit f i j k).mx = s.mx := rfl
@[simp] theorem State.hit_pairs (f : Fld) (i j k : Nat) : (s.hit f i j k).pairs = s.pairs := rfl
@[simp] theorem State.hit_evc (f : Fld) (i j k : Nat) : (s.hit f i j k).evc = s.evc := rfl
@[simp] theorem State.hit_fl (f : Fld) (i j k : Nat) : (s.hit f i j k).fl = s.fl := rfl
@[simp] theorem State.hit_ix (f : Fld) (i j k : Nat) : (s.hit f i j k).ix = s.ix := rfl
@[simp] theorem State.hit_qtag (f : Fld) (i j k : Nat) : (s.hit f i j k).qtag = s.qtag := rfl
@[simp] theorem State.hit_dma (f : Fld) (i j k : Nat) : (s.hit f i j k).dma = s.dma := rfl
@[simp] theorem State.hit_dbg (f : Fld) (i j k : Nat) : (s.hit f i j k).dbg = s.dbg := rfl
@[simp] theorem State.hit_marks (f : Fld) (i j k : Nat) : (s.hit f i j k).marks = s.marks := rfl
@[simp] theorem State.hit_accs (f : Fld) (i j k : Nat) : (s.hit f i j k).accs = s.accs := rfl
@[simp] theorem State.hit_cyc (f : Fld) (i j k : Nat) : (s.hit f i j k).cyc = s.cyc := rfl
@[simp] theorem State.hit_old (f : Fld) (i j k : Nat) : (s.hit f i j k).old = s.old := rfl
@[simp] theorem State.hit_tmr (f : Fld) (i j k : Nat) : (s.hit f i j k).tmr = s.tmr := rfl
@[simp] theorem State.hit_tod (f : Fld) (i j k : Nat) : (s.hit f i j k).tod = s.tod := rfl
@[simp] theorem State.hit_adc (f : Fld) (i j k : Nat) : (s.hit f i j k).adc = s.adc := rfl
@[simp] theorem State.hit_rot (f : Fld) (i j k : Nat) : (s.hit f i j k).rot = s.rot := rfl
@[simp] theorem State.hit_cmps (f : Fld) (i j k : Nat) : (s.hit f i j k).cmps = s.cmps := rfl
@[simp] theorem State.hit_pwm (f : Fld) (i j k : Nat) : (s.hit f i j k).pwm = s.pwm := rfl
@[simp] theorem State.hit_strobe (f : Fld) (i j k : Nat) : (s.hit f i j k).strobe = s.strobe := rfl
@[simp] theorem State.hit_dlWaits (f : Fld) (i j k : Nat) : (s.hit f i j k).dlWaits = s.dlWaits := rfl
@[simp] theorem State.hit_pos (f : Fld) (i j k : Nat) : (s.hit f i j k).pos = s.pos := rfl
@[simp] theorem State.hit_le (f : Fld) (i j k : Nat) : (s.hit f i j k).le = s.le := rfl
@[simp] theorem State.hit_twin (f : Fld) (i j k : Nat) : (s.hit f i j k).twin = s.twin := rfl
@[simp] theorem State.hit_eth (f : Fld) (i j k : Nat) : (s.hit f i j k).eth = s.eth := rfl
@[simp] theorem State.hit_sc (f : Fld) (i j k : Nat) : (s.hit f i j k).sc = s.sc := rfl

@[simp] theorem State.bumpBy_pending (f : Fld) (i j k : Nat) : (s.bumpBy f i j k).pending = s.pending := rfl
@[simp] theorem State.bumpBy_now (f : Fld) (i j k : Nat) : (s.bumpBy f i j k).now = s.now := rfl
@[simp] theorem State.bumpBy_cal (f : Fld) (i j k : Nat) : (s.bumpBy f i j k).cal = s.cal := rfl
@[simp] theorem State.bumpBy_inbox (f : Fld) (i j k : Nat) : (s.bumpBy f i j k).inbox = s.inbox := rfl
@[simp] theorem State.bumpBy_later (f : Fld) (i j k : Nat) : (s.bumpBy f i j k).later = s.later := rfl
@[simp] theorem State.bumpBy_mem (f : Fld) (i j k : Nat) : (s.bumpBy f i j k).mem = s.mem := rfl
@[simp] theorem State.bumpBy_upset (f : Fld) (i j k : Nat) : (s.bumpBy f i j k).upset = s.upset := rfl
@[simp] theorem State.bumpBy_ans (f : Fld) (i j k : Nat) : (s.bumpBy f i j k).ans = s.ans := rfl
@[simp] theorem State.bumpBy_fresh (f : Fld) (i j k : Nat) : (s.bumpBy f i j k).fresh = s.fresh := rfl
@[simp] theorem State.bumpBy_sys (f : Fld) (i j k : Nat) : (s.bumpBy f i j k).sys = s.sys := rfl
@[simp] theorem State.bumpBy_hp (f : Fld) (i j k : Nat) : (s.bumpBy f i j k).hp = s.hp := rfl
@[simp] theorem State.bumpBy_load (f : Fld) (i j k : Nat) : (s.bumpBy f i j k).load = s.load := rfl
@[simp] theorem State.bumpBy_mx (f : Fld) (i j k : Nat) : (s.bumpBy f i j k).mx = s.mx := rfl
@[simp] theorem State.bumpBy_pairs (f : Fld) (i j k : Nat) : (s.bumpBy f i j k).pairs = s.pairs := rfl
@[simp] theorem State.bumpBy_evc (f : Fld) (i j k : Nat) : (s.bumpBy f i j k).evc = s.evc := rfl
@[simp] theorem State.bumpBy_fl (f : Fld) (i j k : Nat) : (s.bumpBy f i j k).fl = s.fl := rfl
@[simp] theorem State.bumpBy_ix (f : Fld) (i j k : Nat) : (s.bumpBy f i j k).ix = s.ix := rfl
@[simp] theorem State.bumpBy_qtag (f : Fld) (i j k : Nat) : (s.bumpBy f i j k).qtag = s.qtag := rfl
@[simp] theorem State.bumpBy_dma (f : Fld) (i j k : Nat) : (s.bumpBy f i j k).dma = s.dma := rfl
@[simp] theorem State.bumpBy_dbg (f : Fld) (i j k : Nat) : (s.bumpBy f i j k).dbg = s.dbg := rfl
@[simp] theorem State.bumpBy_marks (f : Fld) (i j k : Nat) : (s.bumpBy f i j k).marks = s.marks := rfl
@[simp] theorem State.bumpBy_accs (f : Fld) (i j k : Nat) : (s.bumpBy f i j k).accs = s.accs := rfl
@[simp] theorem State.bumpBy_cyc (f : Fld) (i j k : Nat) : (s.bumpBy f i j k).cyc = s.cyc := rfl
@[simp] theorem State.bumpBy_old (f : Fld) (i j k : Nat) : (s.bumpBy f i j k).old = s.old := rfl
@[simp] theorem State.bumpBy_tmr (f : Fld) (i j k : Nat) : (s.bumpBy f i j k).tmr = s.tmr := rfl
@[simp] theorem State.bumpBy_tod (f : Fld) (i j k : Nat) : (s.bumpBy f i j k).tod = s.tod := rfl
@[simp] theorem State.bumpBy_adc (f : Fld) (i j k : Nat) : (s.bumpBy f i j k).adc = s.adc := rfl
@[simp] theorem State.bumpBy_rot (f : Fld) (i j k : Nat) : (s.bumpBy f i j k).rot = s.rot := rfl
@[simp] theorem State.bumpBy_cmps (f : Fld) (i j k : Nat) : (s.bumpBy f i j k).cmps = s.cmps := rfl
@[simp] theorem State.bumpBy_pwm (f : Fld) (i j k : Nat) : (s.bumpBy f i j k).pwm = s.pwm := rfl
@[simp] theorem State.bumpBy_strobe (f : Fld) (i j k : Nat) : (s.bumpBy f i j k).strobe = s.strobe := rfl
@[simp] theorem State.bumpBy_dlWaits (f : Fld) (i j k : Nat) : (s.bumpBy f i j k).dlWaits = s.dlWaits := rfl
@[simp] theorem State.bumpBy_pos (f : Fld) (i j k : Nat) : (s.bumpBy f i j k).pos = s.pos := rfl
@[simp] theorem State.bumpBy_le (f : Fld) (i j k : Nat) : (s.bumpBy f i j k).le = s.le := rfl
@[simp] theorem State.bumpBy_twin (f : Fld) (i j k : Nat) : (s.bumpBy f i j k).twin = s.twin := rfl
@[simp] theorem State.bumpBy_eth (f : Fld) (i j k : Nat) : (s.bumpBy f i j k).eth = s.eth := rfl
@[simp] theorem State.bumpBy_sc (f : Fld) (i j k : Nat) : (s.bumpBy f i j k).sc = s.sc := rfl

@[simp] theorem State.bump_pending (f : Fld) (i j : Nat) : (s.bump f i j).pending = s.pending := rfl
@[simp] theorem State.bump_now (f : Fld) (i j : Nat) : (s.bump f i j).now = s.now := rfl
@[simp] theorem State.bump_cal (f : Fld) (i j : Nat) : (s.bump f i j).cal = s.cal := rfl
@[simp] theorem State.bump_inbox (f : Fld) (i j : Nat) : (s.bump f i j).inbox = s.inbox := rfl
@[simp] theorem State.bump_later (f : Fld) (i j : Nat) : (s.bump f i j).later = s.later := rfl
@[simp] theorem State.bump_mem (f : Fld) (i j : Nat) : (s.bump f i j).mem = s.mem := rfl
@[simp] theorem State.bump_upset (f : Fld) (i j : Nat) : (s.bump f i j).upset = s.upset := rfl
@[simp] theorem State.bump_ans (f : Fld) (i j : Nat) : (s.bump f i j).ans = s.ans := rfl
@[simp] theorem State.bump_fresh (f : Fld) (i j : Nat) : (s.bump f i j).fresh = s.fresh := rfl
@[simp] theorem State.bump_sys (f : Fld) (i j : Nat) : (s.bump f i j).sys = s.sys := rfl
@[simp] theorem State.bump_hp (f : Fld) (i j : Nat) : (s.bump f i j).hp = s.hp := rfl
@[simp] theorem State.bump_load (f : Fld) (i j : Nat) : (s.bump f i j).load = s.load := rfl
@[simp] theorem State.bump_mx (f : Fld) (i j : Nat) : (s.bump f i j).mx = s.mx := rfl
@[simp] theorem State.bump_pairs (f : Fld) (i j : Nat) : (s.bump f i j).pairs = s.pairs := rfl
@[simp] theorem State.bump_evc (f : Fld) (i j : Nat) : (s.bump f i j).evc = s.evc := rfl
@[simp] theorem State.bump_fl (f : Fld) (i j : Nat) : (s.bump f i j).fl = s.fl := rfl
@[simp] theorem State.bump_ix (f : Fld) (i j : Nat) : (s.bump f i j).ix = s.ix := rfl
@[simp] theorem State.bump_qtag (f : Fld) (i j : Nat) : (s.bump f i j).qtag = s.qtag := rfl
@[simp] theorem State.bump_dma (f : Fld) (i j : Nat) : (s.bump f i j).dma = s.dma := rfl
@[simp] theorem State.bump_dbg (f : Fld) (i j : Nat) : (s.bump f i j).dbg = s.dbg := rfl
@[simp] theorem State.bump_marks (f : Fld) (i j : Nat) : (s.bump f i j).marks = s.marks := rfl
@[simp] theorem State.bump_accs (f : Fld) (i j : Nat) : (s.bump f i j).accs = s.accs := rfl
@[simp] theorem State.bump_cyc (f : Fld) (i j : Nat) : (s.bump f i j).cyc = s.cyc := rfl
@[simp] theorem State.bump_old (f : Fld) (i j : Nat) : (s.bump f i j).old = s.old := rfl
@[simp] theorem State.bump_tmr (f : Fld) (i j : Nat) : (s.bump f i j).tmr = s.tmr := rfl
@[simp] theorem State.bump_tod (f : Fld) (i j : Nat) : (s.bump f i j).tod = s.tod := rfl
@[simp] theorem State.bump_adc (f : Fld) (i j : Nat) : (s.bump f i j).adc = s.adc := rfl
@[simp] theorem State.bump_rot (f : Fld) (i j : Nat) : (s.bump f i j).rot = s.rot := rfl
@[simp] theorem State.bump_cmps (f : Fld) (i j : Nat) : (s.bump f i j).cmps = s.cmps := rfl
@[simp] theorem State.bump_pwm (f : Fld) (i j : Nat) : (s.bump f i j).pwm = s.pwm := rfl
@[simp] theorem State.bump_strobe (f : Fld) (i j : Nat) : (s.bump f i j).strobe = s.strobe := rfl
@[simp] theorem State.bump_dlWaits (f : Fld) (i j : Nat) : (s.bump f i j).dlWaits = s.dlWaits := rfl
@[simp] theorem State.bump_pos (f : Fld) (i j : Nat) : (s.bump f i j).pos = s.pos := rfl
@[simp] theorem State.bump_le (f : Fld) (i j : Nat) : (s.bump f i j).le = s.le := rfl
@[simp] theorem State.bump_twin (f : Fld) (i j : Nat) : (s.bump f i j).twin = s.twin := rfl
@[simp] theorem State.bump_eth (f : Fld) (i j : Nat) : (s.bump f i j).eth = s.eth := rfl
@[simp] theorem State.bump_sc (f : Fld) (i j : Nat) : (s.bump f i j).sc = s.sc := rfl

@[simp] theorem State.raiseFld_pending (f : Fld) (i j k : Nat) : (s.raiseFld f i j k).pending = s.pending := rfl
@[simp] theorem State.raiseFld_now (f : Fld) (i j k : Nat) : (s.raiseFld f i j k).now = s.now := rfl
@[simp] theorem State.raiseFld_cal (f : Fld) (i j k : Nat) : (s.raiseFld f i j k).cal = s.cal := rfl
@[simp] theorem State.raiseFld_inbox (f : Fld) (i j k : Nat) : (s.raiseFld f i j k).inbox = s.inbox := rfl
@[simp] theorem State.raiseFld_later (f : Fld) (i j k : Nat) : (s.raiseFld f i j k).later = s.later := rfl
@[simp] theorem State.raiseFld_mem (f : Fld) (i j k : Nat) : (s.raiseFld f i j k).mem = s.mem := rfl
@[simp] theorem State.raiseFld_upset (f : Fld) (i j k : Nat) : (s.raiseFld f i j k).upset = s.upset := rfl
@[simp] theorem State.raiseFld_ans (f : Fld) (i j k : Nat) : (s.raiseFld f i j k).ans = s.ans := rfl
@[simp] theorem State.raiseFld_fresh (f : Fld) (i j k : Nat) : (s.raiseFld f i j k).fresh = s.fresh := rfl
@[simp] theorem State.raiseFld_sys (f : Fld) (i j k : Nat) : (s.raiseFld f i j k).sys = s.sys := rfl
@[simp] theorem State.raiseFld_hp (f : Fld) (i j k : Nat) : (s.raiseFld f i j k).hp = s.hp := rfl
@[simp] theorem State.raiseFld_load (f : Fld) (i j k : Nat) : (s.raiseFld f i j k).load = s.load := rfl
@[simp] theorem State.raiseFld_mx (f : Fld) (i j k : Nat) : (s.raiseFld f i j k).mx = s.mx := rfl
@[simp] theorem State.raiseFld_pairs (f : Fld) (i j k : Nat) : (s.raiseFld f i j k).pairs = s.pairs := rfl
@[simp] theorem State.raiseFld_evc (f : Fld) (i j k : Nat) : (s.raiseFld f i j k).evc = s.evc := rfl
@[simp] theorem State.raiseFld_fl (f : Fld) (i j k : Nat) : (s.raiseFld f i j k).fl = s.fl := rfl
@[simp] theorem State.raiseFld_ix (f : Fld) (i j k : Nat) : (s.raiseFld f i j k).ix = s.ix := rfl
@[simp] theorem State.raiseFld_qtag (f : Fld) (i j k : Nat) : (s.raiseFld f i j k).qtag = s.qtag := rfl
@[simp] theorem State.raiseFld_dma (f : Fld) (i j k : Nat) : (s.raiseFld f i j k).dma = s.dma := rfl
@[simp] theorem State.raiseFld_dbg (f : Fld) (i j k : Nat) : (s.raiseFld f i j k).dbg = s.dbg := rfl
@[simp] theorem State.raiseFld_marks (f : Fld) (i j k : Nat) : (s.raiseFld f i j k).marks = s.marks := rfl
@[simp] theorem State.raiseFld_accs (f : Fld) (i j k : Nat) : (s.raiseFld f i j k).accs = s.accs := rfl
@[simp] theorem State.raiseFld_cyc (f : Fld) (i j k : Nat) : (s.raiseFld f i j k).cyc = s.cyc := rfl
@[simp] theorem State.raiseFld_old (f : Fld) (i j k : Nat) : (s.raiseFld f i j k).old = s.old := rfl
@[simp] theorem State.raiseFld_tmr (f : Fld) (i j k : Nat) : (s.raiseFld f i j k).tmr = s.tmr := rfl
@[simp] theorem State.raiseFld_tod (f : Fld) (i j k : Nat) : (s.raiseFld f i j k).tod = s.tod := rfl
@[simp] theorem State.raiseFld_adc (f : Fld) (i j k : Nat) : (s.raiseFld f i j k).adc = s.adc := rfl
@[simp] theorem State.raiseFld_rot (f : Fld) (i j k : Nat) : (s.raiseFld f i j k).rot = s.rot := rfl
@[simp] theorem State.raiseFld_cmps (f : Fld) (i j k : Nat) : (s.raiseFld f i j k).cmps = s.cmps := rfl
@[simp] theorem State.raiseFld_pwm (f : Fld) (i j k : Nat) : (s.raiseFld f i j k).pwm = s.pwm := rfl
@[simp] theorem State.raiseFld_strobe (f : Fld) (i j k : Nat) : (s.raiseFld f i j k).strobe = s.strobe := rfl
@[simp] theorem State.raiseFld_dlWaits (f : Fld) (i j k : Nat) : (s.raiseFld f i j k).dlWaits = s.dlWaits := rfl
@[simp] theorem State.raiseFld_pos (f : Fld) (i j k : Nat) : (s.raiseFld f i j k).pos = s.pos := rfl
@[simp] theorem State.raiseFld_le (f : Fld) (i j k : Nat) : (s.raiseFld f i j k).le = s.le := rfl
@[simp] theorem State.raiseFld_twin (f : Fld) (i j k : Nat) : (s.raiseFld f i j k).twin = s.twin := rfl
@[simp] theorem State.raiseFld_eth (f : Fld) (i j k : Nat) : (s.raiseFld f i j k).eth = s.eth := rfl
@[simp] theorem State.raiseFld_sc (f : Fld) (i j k : Nat) : (s.raiseFld f i j k).sc = s.sc := rfl

@[simp] theorem State.unbump_pending (f : Fld) (i j : Nat) : (s.unbump f i j).pending = s.pending := rfl
@[simp] theorem State.unbump_now (f : Fld) (i j : Nat) : (s.unbump f i j).now = s.now := rfl
@[simp] theorem State.unbump_cal (f : Fld) (i j : Nat) : (s.unbump f i j).cal = s.cal := rfl
@[simp] theorem State.unbump_inbox (f : Fld) (i j : Nat) : (s.unbump f i j).inbox = s.inbox := rfl
@[simp] theorem State.unbump_later (f : Fld) (i j : Nat) : (s.unbump f i j).later = s.later := rfl
@[simp] theorem State.unbump_mem (f : Fld) (i j : Nat) : (s.unbump f i j).mem = s.mem := rfl
@[simp] theorem State.unbump_upset (f : Fld) (i j : Nat) : (s.unbump f i j).upset = s.upset := rfl
@[simp] theorem State.unbump_ans (f : Fld) (i j : Nat) : (s.unbump f i j).ans = s.ans := rfl
@[simp] theorem State.unbump_fresh (f : Fld) (i j : Nat) : (s.unbump f i j).fresh = s.fresh := rfl
@[simp] theorem State.unbump_sys (f : Fld) (i j : Nat) : (s.unbump f i j).sys = s.sys := rfl
@[simp] theorem State.unbump_hp (f : Fld) (i j : Nat) : (s.unbump f i j).hp = s.hp := rfl
@[simp] theorem State.unbump_load (f : Fld) (i j : Nat) : (s.unbump f i j).load = s.load := rfl
@[simp] theorem State.unbump_mx (f : Fld) (i j : Nat) : (s.unbump f i j).mx = s.mx := rfl
@[simp] theorem State.unbump_pairs (f : Fld) (i j : Nat) : (s.unbump f i j).pairs = s.pairs := rfl
@[simp] theorem State.unbump_evc (f : Fld) (i j : Nat) : (s.unbump f i j).evc = s.evc := rfl
@[simp] theorem State.unbump_fl (f : Fld) (i j : Nat) : (s.unbump f i j).fl = s.fl := rfl
@[simp] theorem State.unbump_ix (f : Fld) (i j : Nat) : (s.unbump f i j).ix = s.ix := rfl
@[simp] theorem State.unbump_qtag (f : Fld) (i j : Nat) : (s.unbump f i j).qtag = s.qtag := rfl
@[simp] theorem State.unbump_dma (f : Fld) (i j : Nat) : (s.unbump f i j).dma = s.dma := rfl
@[simp] theorem State.unbump_dbg (f : Fld) (i j : Nat) : (s.unbump f i j).dbg = s.dbg := rfl
@[simp] theorem State.unbump_marks (f : Fld) (i j : Nat) : (s.unbump f i j).marks = s.marks := rfl
@[simp] theorem State.unbump_accs (f : Fld) (i j : Nat) : (s.unbump f i j).accs = s.accs := rfl
@[simp] theorem State.unbump_cyc (f : Fld) (i j : Nat) : (s.unbump f i j).cyc = s.cyc := rfl
@[simp] theorem State.unbump_old (f : Fld) (i j : Nat) : (s.unbump f i j).old = s.old := rfl
@[simp] theorem State.unbump_tmr (f : Fld) (i j : Nat) : (s.unbump f i j).tmr = s.tmr := rfl
@[simp] theorem State.unbump_tod (f : Fld) (i j : Nat) : (s.unbump f i j).tod = s.tod := rfl
@[simp] theorem State.unbump_adc (f : Fld) (i j : Nat) : (s.unbump f i j).adc = s.adc := rfl
@[simp] theorem State.unbump_rot (f : Fld) (i j : Nat) : (s.unbump f i j).rot = s.rot := rfl
@[simp] theorem State.unbump_cmps (f : Fld) (i j : Nat) : (s.unbump f i j).cmps = s.cmps := rfl
@[simp] theorem State.unbump_pwm (f : Fld) (i j : Nat) : (s.unbump f i j).pwm = s.pwm := rfl
@[simp] theorem State.unbump_strobe (f : Fld) (i j : Nat) : (s.unbump f i j).strobe = s.strobe := rfl
@[simp] theorem State.unbump_dlWaits (f : Fld) (i j : Nat) : (s.unbump f i j).dlWaits = s.dlWaits := rfl
@[simp] theorem State.unbump_pos (f : Fld) (i j : Nat) : (s.unbump f i j).pos = s.pos := rfl
@[simp] theorem State.unbump_le (f : Fld) (i j : Nat) : (s.unbump f i j).le = s.le := rfl
@[simp] theorem State.unbump_twin (f : Fld) (i j : Nat) : (s.unbump f i j).twin = s.twin := rfl
@[simp] theorem State.unbump_eth (f : Fld) (i j : Nat) : (s.unbump f i j).eth = s.eth := rfl
@[simp] theorem State.unbump_sc (f : Fld) (i j : Nat) : (s.unbump f i j).sc = s.sc := rfl

@[simp] theorem State.count_pending (f : Fld) (i j : Nat) : (s.count f i j).pending = s.pending := rfl
@[simp] theorem State.count_now (f : Fld) (i j : Nat) : (s.count f i j).now = s.now := rfl
@[simp] theorem State.count_cal (f : Fld) (i j : Nat) : (s.count f i j).cal = s.cal := rfl
@[simp] theorem State.count_inbox (f : Fld) (i j : Nat) : (s.count f i j).inbox = s.inbox := rfl
@[simp] theorem State.count_later (f : Fld) (i j : Nat) : (s.count f i j).later = s.later := rfl
@[simp] theorem State.count_mem (f : Fld) (i j : Nat) : (s.count f i j).mem = s.mem := rfl
@[simp] theorem State.count_upset (f : Fld) (i j : Nat) : (s.count f i j).upset = s.upset := rfl
@[simp] theorem State.count_ans (f : Fld) (i j : Nat) : (s.count f i j).ans = s.ans := rfl
@[simp] theorem State.count_fresh (f : Fld) (i j : Nat) : (s.count f i j).fresh = s.fresh := rfl
@[simp] theorem State.count_sys (f : Fld) (i j : Nat) : (s.count f i j).sys = s.sys := rfl
@[simp] theorem State.count_hp (f : Fld) (i j : Nat) : (s.count f i j).hp = s.hp := rfl
@[simp] theorem State.count_load (f : Fld) (i j : Nat) : (s.count f i j).load = s.load := rfl
@[simp] theorem State.count_mx (f : Fld) (i j : Nat) : (s.count f i j).mx = s.mx := rfl
@[simp] theorem State.count_pairs (f : Fld) (i j : Nat) : (s.count f i j).pairs = s.pairs := rfl
@[simp] theorem State.count_evc (f : Fld) (i j : Nat) : (s.count f i j).evc = s.evc := rfl
@[simp] theorem State.count_fl (f : Fld) (i j : Nat) : (s.count f i j).fl = s.fl := rfl
@[simp] theorem State.count_ix (f : Fld) (i j : Nat) : (s.count f i j).ix = s.ix := rfl
@[simp] theorem State.count_qtag (f : Fld) (i j : Nat) : (s.count f i j).qtag = s.qtag := rfl
@[simp] theorem State.count_dma (f : Fld) (i j : Nat) : (s.count f i j).dma = s.dma := rfl
@[simp] theorem State.count_dbg (f : Fld) (i j : Nat) : (s.count f i j).dbg = s.dbg := rfl
@[simp] theorem State.count_marks (f : Fld) (i j : Nat) : (s.count f i j).marks = s.marks := rfl
@[simp] theorem State.count_hits (f : Fld) (i j : Nat) : (s.count f i j).hits = s.hits := rfl
@[simp] theorem State.count_accs (f : Fld) (i j : Nat) : (s.count f i j).accs = s.accs := rfl
@[simp] theorem State.count_cyc (f : Fld) (i j : Nat) : (s.count f i j).cyc = s.cyc := rfl
@[simp] theorem State.count_old (f : Fld) (i j : Nat) : (s.count f i j).old = s.old := rfl
@[simp] theorem State.count_tmr (f : Fld) (i j : Nat) : (s.count f i j).tmr = s.tmr := rfl
@[simp] theorem State.count_tod (f : Fld) (i j : Nat) : (s.count f i j).tod = s.tod := rfl
@[simp] theorem State.count_adc (f : Fld) (i j : Nat) : (s.count f i j).adc = s.adc := rfl
@[simp] theorem State.count_rot (f : Fld) (i j : Nat) : (s.count f i j).rot = s.rot := rfl
@[simp] theorem State.count_cmps (f : Fld) (i j : Nat) : (s.count f i j).cmps = s.cmps := rfl
@[simp] theorem State.count_pwm (f : Fld) (i j : Nat) : (s.count f i j).pwm = s.pwm := rfl
@[simp] theorem State.count_strobe (f : Fld) (i j : Nat) : (s.count f i j).strobe = s.strobe := rfl
@[simp] theorem State.count_dlWaits (f : Fld) (i j : Nat) : (s.count f i j).dlWaits = s.dlWaits := rfl
@[simp] theorem State.count_pos (f : Fld) (i j : Nat) : (s.count f i j).pos = s.pos := rfl
@[simp] theorem State.count_le (f : Fld) (i j : Nat) : (s.count f i j).le = s.le := rfl
@[simp] theorem State.count_twin (f : Fld) (i j : Nat) : (s.count f i j).twin = s.twin := rfl
@[simp] theorem State.count_eth (f : Fld) (i j : Nat) : (s.count f i j).eth = s.eth := rfl
@[simp] theorem State.count_sc (f : Fld) (i j : Nat) : (s.count f i j).sc = s.sc := rfl

@[simp] theorem State.resetRegs_pending (p : RegName → Bool) : (s.resetRegs p).pending = s.pending := rfl
@[simp] theorem State.resetRegs_now (p : RegName → Bool) : (s.resetRegs p).now = s.now := rfl
@[simp] theorem State.resetRegs_cal (p : RegName → Bool) : (s.resetRegs p).cal = s.cal := rfl
@[simp] theorem State.resetRegs_inbox (p : RegName → Bool) : (s.resetRegs p).inbox = s.inbox := rfl
@[simp] theorem State.resetRegs_later (p : RegName → Bool) : (s.resetRegs p).later = s.later := rfl
@[simp] theorem State.resetRegs_mem (p : RegName → Bool) : (s.resetRegs p).mem = s.mem := rfl
@[simp] theorem State.resetRegs_upset (p : RegName → Bool) : (s.resetRegs p).upset = s.upset := rfl
@[simp] theorem State.resetRegs_ans (p : RegName → Bool) : (s.resetRegs p).ans = s.ans := rfl
@[simp] theorem State.resetRegs_fresh (p : RegName → Bool) : (s.resetRegs p).fresh = s.fresh := rfl
@[simp] theorem State.resetRegs_sys (p : RegName → Bool) : (s.resetRegs p).sys = s.sys := rfl
@[simp] theorem State.resetRegs_hp (p : RegName → Bool) : (s.resetRegs p).hp = s.hp := rfl
@[simp] theorem State.resetRegs_load (p : RegName → Bool) : (s.resetRegs p).load = s.load := rfl
@[simp] theorem State.resetRegs_mx (p : RegName → Bool) : (s.resetRegs p).mx = s.mx := rfl
@[simp] theorem State.resetRegs_pairs (p : RegName → Bool) : (s.resetRegs p).pairs = s.pairs := rfl
@[simp] theorem State.resetRegs_evc (p : RegName → Bool) : (s.resetRegs p).evc = s.evc := rfl
@[simp] theorem State.resetRegs_fl (p : RegName → Bool) : (s.resetRegs p).fl = s.fl := rfl
@[simp] theorem State.resetRegs_ix (p : RegName → Bool) : (s.resetRegs p).ix = s.ix := rfl
@[simp] theorem State.resetRegs_qtag (p : RegName → Bool) : (s.resetRegs p).qtag = s.qtag := rfl
@[simp] theorem State.resetRegs_dma (p : RegName → Bool) : (s.resetRegs p).dma = s.dma := rfl
@[simp] theorem State.resetRegs_dbg (p : RegName → Bool) : (s.resetRegs p).dbg = s.dbg := rfl
@[simp] theorem State.resetRegs_marks (p : RegName → Bool) : (s.resetRegs p).marks = s.marks := rfl
@[simp] theorem State.resetRegs_accs (p : RegName → Bool) : (s.resetRegs p).accs = s.accs := rfl
@[simp] theorem State.resetRegs_cyc (p : RegName → Bool) : (s.resetRegs p).cyc = s.cyc := rfl
@[simp] theorem State.resetRegs_old (p : RegName → Bool) : (s.resetRegs p).old = s.old := rfl
@[simp] theorem State.resetRegs_tmr (p : RegName → Bool) : (s.resetRegs p).tmr = s.tmr := rfl
@[simp] theorem State.resetRegs_tod (p : RegName → Bool) : (s.resetRegs p).tod = s.tod := rfl
@[simp] theorem State.resetRegs_adc (p : RegName → Bool) : (s.resetRegs p).adc = s.adc := rfl
@[simp] theorem State.resetRegs_rot (p : RegName → Bool) : (s.resetRegs p).rot = s.rot := rfl
@[simp] theorem State.resetRegs_cmps (p : RegName → Bool) : (s.resetRegs p).cmps = s.cmps := rfl
@[simp] theorem State.resetRegs_pwm (p : RegName → Bool) : (s.resetRegs p).pwm = s.pwm := rfl
@[simp] theorem State.resetRegs_strobe (p : RegName → Bool) : (s.resetRegs p).strobe = s.strobe := rfl
@[simp] theorem State.resetRegs_dlWaits (p : RegName → Bool) : (s.resetRegs p).dlWaits = s.dlWaits := rfl
@[simp] theorem State.resetRegs_pos (p : RegName → Bool) : (s.resetRegs p).pos = s.pos := rfl
@[simp] theorem State.resetRegs_le (p : RegName → Bool) : (s.resetRegs p).le = s.le := rfl
@[simp] theorem State.resetRegs_twin (p : RegName → Bool) : (s.resetRegs p).twin = s.twin := rfl
@[simp] theorem State.resetRegs_eth (p : RegName → Bool) : (s.resetRegs p).eth = s.eth := rfl
@[simp] theorem State.resetRegs_sc (p : RegName → Bool) : (s.resetRegs p).sc = s.sc := rfl

@[simp] theorem State.setByte_pending (a : Nat) (b : Byte) : (s.setByte a b).pending = s.pending := rfl
@[simp] theorem State.setByte_now (a : Nat) (b : Byte) : (s.setByte a b).now = s.now := rfl
@[simp] theorem State.setByte_cal (a : Nat) (b : Byte) : (s.setByte a b).cal = s.cal := rfl
@[simp] theorem State.setByte_inbox (a : Nat) (b : Byte) : (s.setByte a b).inbox = s.inbox := rfl
@[simp] theorem State.setByte_later (a : Nat) (b : Byte) : (s.setByte a b).later = s.later := rfl
@[simp] theorem State.setByte_regs (a : Nat) (b : Byte) : (s.setByte a b).regs = s.regs := rfl
@[simp] theorem State.setByte_upset (a : Nat) (b : Byte) : (s.setByte a b).upset = s.upset := rfl
@[simp] theorem State.setByte_ans (a : Nat) (b : Byte) : (s.setByte a b).ans = s.ans := rfl
@[simp] theorem State.setByte_fresh (a : Nat) (b : Byte) : (s.setByte a b).fresh = s.fresh := rfl
@[simp] theorem State.setByte_sys (a : Nat) (b : Byte) : (s.setByte a b).sys = s.sys := rfl
@[simp] theorem State.setByte_hp (a : Nat) (b : Byte) : (s.setByte a b).hp = s.hp := rfl
@[simp] theorem State.setByte_load (a : Nat) (b : Byte) : (s.setByte a b).load = s.load := rfl
@[simp] theorem State.setByte_mx (a : Nat) (b : Byte) : (s.setByte a b).mx = s.mx := rfl
@[simp] theorem State.setByte_pairs (a : Nat) (b : Byte) : (s.setByte a b).pairs = s.pairs := rfl
@[simp] theorem State.setByte_evc (a : Nat) (b : Byte) : (s.setByte a b).evc = s.evc := rfl
@[simp] theorem State.setByte_fl (a : Nat) (b : Byte) : (s.setByte a b).fl = s.fl := rfl
@[simp] theorem State.setByte_ix (a : Nat) (b : Byte) : (s.setByte a b).ix = s.ix := rfl
@[simp] theorem State.setByte_qtag (a : Nat) (b : Byte) : (s.setByte a b).qtag = s.qtag := rfl
@[simp] theorem State.setByte_dma (a : Nat) (b : Byte) : (s.setByte a b).dma = s.dma := rfl
@[simp] theorem State.setByte_dbg (a : Nat) (b : Byte) : (s.setByte a b).dbg = s.dbg := rfl
@[simp] theorem State.setByte_marks (a : Nat) (b : Byte) : (s.setByte a b).marks = s.marks := rfl
@[simp] theorem State.setByte_hits (a : Nat) (b : Byte) : (s.setByte a b).hits = s.hits := rfl
@[simp] theorem State.setByte_accs (a : Nat) (b : Byte) : (s.setByte a b).accs = s.accs := rfl
@[simp] theorem State.setByte_cyc (a : Nat) (b : Byte) : (s.setByte a b).cyc = s.cyc := rfl
@[simp] theorem State.setByte_old (a : Nat) (b : Byte) : (s.setByte a b).old = s.old := rfl
@[simp] theorem State.setByte_tmr (a : Nat) (b : Byte) : (s.setByte a b).tmr = s.tmr := rfl
@[simp] theorem State.setByte_tod (a : Nat) (b : Byte) : (s.setByte a b).tod = s.tod := rfl
@[simp] theorem State.setByte_adc (a : Nat) (b : Byte) : (s.setByte a b).adc = s.adc := rfl
@[simp] theorem State.setByte_rot (a : Nat) (b : Byte) : (s.setByte a b).rot = s.rot := rfl
@[simp] theorem State.setByte_cmps (a : Nat) (b : Byte) : (s.setByte a b).cmps = s.cmps := rfl
@[simp] theorem State.setByte_pwm (a : Nat) (b : Byte) : (s.setByte a b).pwm = s.pwm := rfl
@[simp] theorem State.setByte_strobe (a : Nat) (b : Byte) : (s.setByte a b).strobe = s.strobe := rfl
@[simp] theorem State.setByte_dlWaits (a : Nat) (b : Byte) : (s.setByte a b).dlWaits = s.dlWaits := rfl
@[simp] theorem State.setByte_pos (a : Nat) (b : Byte) : (s.setByte a b).pos = s.pos := rfl
@[simp] theorem State.setByte_le (a : Nat) (b : Byte) : (s.setByte a b).le = s.le := rfl
@[simp] theorem State.setByte_twin (a : Nat) (b : Byte) : (s.setByte a b).twin = s.twin := rfl
@[simp] theorem State.setByte_eth (a : Nat) (b : Byte) : (s.setByte a b).eth = s.eth := rfl
@[simp] theorem State.setByte_sc (a : Nat) (b : Byte) : (s.setByte a b).sc = s.sc := rfl

@[simp] theorem State.setBytes_pending (a : Nat) (bs : List Byte) : (s.setBytes a bs).pending = s.pending := rfl
@[simp] theorem State.setBytes_now (a : Nat) (bs : List Byte) : (s.setBytes a bs).now = s.now := rfl
@[simp] theorem State.setBytes_cal (a : Nat) (bs : List Byte) : (s.setBytes a bs).cal = s.cal := rfl
@[simp] theorem State.setBytes_inbox (a : Nat) (bs : List Byte) : (s.setBytes a bs).inbox = s.inbox := rfl
@[simp] theorem State.setBytes_later (a : Nat) (bs : List Byte) : (s.setBytes a bs).later = s.later := rfl
@[simp] theorem State.setBytes_regs (a : Nat) (bs : List Byte) : (s.setBytes a bs).regs = s.regs := rfl
@[simp] theorem State.setBytes_upset (a : Nat) (bs : List Byte) : (s.setBytes a bs).upset = s.upset := rfl
@[simp] theorem State.setBytes_ans (a : Nat) (bs : List Byte) : (s.setBytes a bs).ans = s.ans := rfl
@[simp] theorem State.setBytes_fresh (a : Nat) (bs : List Byte) : (s.setBytes a bs).fresh = s.fresh := rfl
@[simp] theorem State.setBytes_sys (a : Nat) (bs : List Byte) : (s.setBytes a bs).sys = s.sys := rfl
@[simp] theorem State.setBytes_hp (a : Nat) (bs : List Byte) : (s.setBytes a bs).hp = s.hp := rfl
@[simp] theorem State.setBytes_load (a : Nat) (bs : List Byte) : (s.setBytes a bs).load = s.load := rfl
@[simp] theorem State.setBytes_mx (a : Nat) (bs : List Byte) : (s.setBytes a bs).mx = s.mx := rfl
@[simp] theorem State.setBytes_pairs (a : Nat) (bs : List Byte) : (s.setBytes a bs).pairs = s.pairs := rfl
@[simp] theorem State.setBytes_evc (a : Nat) (bs : List Byte) : (s.setBytes a bs).evc = s.evc := rfl
@[simp] theorem State.setBytes_fl (a : Nat) (bs : List Byte) : (s.setBytes a bs).fl = s.fl := rfl
@[simp] theorem State.setBytes_ix (a : Nat) (bs : List Byte) : (s.setBytes a bs).ix = s.ix := rfl
@[simp] theorem State.setBytes_qtag (a : Nat) (bs : List Byte) : (s.setBytes a bs).qtag = s.qtag := rfl
@[simp] theorem State.setBytes_dma (a : Nat) (bs : List Byte) : (s.setBytes a bs).dma = s.dma := rfl
@[simp] theorem State.setBytes_dbg (a : Nat) (bs : List Byte) : (s.setBytes a bs).dbg = s.dbg := rfl
@[simp] theorem State.setBytes_marks (a : Nat) (bs : List Byte) : (s.setBytes a bs).marks = s.marks := rfl
@[simp] theorem State.setBytes_hits (a : Nat) (bs : List Byte) : (s.setBytes a bs).hits = s.hits := rfl
@[simp] theorem State.setBytes_accs (a : Nat) (bs : List Byte) : (s.setBytes a bs).accs = s.accs := rfl
@[simp] theorem State.setBytes_cyc (a : Nat) (bs : List Byte) : (s.setBytes a bs).cyc = s.cyc := rfl
@[simp] theorem State.setBytes_old (a : Nat) (bs : List Byte) : (s.setBytes a bs).old = s.old := rfl
@[simp] theorem State.setBytes_tmr (a : Nat) (bs : List Byte) : (s.setBytes a bs).tmr = s.tmr := rfl
@[simp] theorem State.setBytes_tod (a : Nat) (bs : List Byte) : (s.setBytes a bs).tod = s.tod := rfl
@[simp] theorem State.setBytes_adc (a : Nat) (bs : List Byte) : (s.setBytes a bs).adc = s.adc := rfl
@[simp] theorem State.setBytes_rot (a : Nat) (bs : List Byte) : (s.setBytes a bs).rot = s.rot := rfl
@[simp] theorem State.setBytes_cmps (a : Nat) (bs : List Byte) : (s.setBytes a bs).cmps = s.cmps := rfl
@[simp] theorem State.setBytes_pwm (a : Nat) (bs : List Byte) : (s.setBytes a bs).pwm = s.pwm := rfl
@[simp] theorem State.setBytes_strobe (a : Nat) (bs : List Byte) : (s.setBytes a bs).strobe = s.strobe := rfl
@[simp] theorem State.setBytes_dlWaits (a : Nat) (bs : List Byte) : (s.setBytes a bs).dlWaits = s.dlWaits := rfl
@[simp] theorem State.setBytes_pos (a : Nat) (bs : List Byte) : (s.setBytes a bs).pos = s.pos := rfl
@[simp] theorem State.setBytes_le (a : Nat) (bs : List Byte) : (s.setBytes a bs).le = s.le := rfl
@[simp] theorem State.setBytes_twin (a : Nat) (bs : List Byte) : (s.setBytes a bs).twin = s.twin := rfl
@[simp] theorem State.setBytes_eth (a : Nat) (bs : List Byte) : (s.setBytes a bs).eth = s.eth := rfl
@[simp] theorem State.setBytes_sc (a : Nat) (bs : List Byte) : (s.setBytes a bs).sc = s.sc := rfl

@[simp] theorem State.clearMem_pending (lo hi : Nat) : (s.clearMem lo hi).pending = s.pending := rfl
@[simp] theorem State.clearMem_now (lo hi : Nat) : (s.clearMem lo hi).now = s.now := rfl
@[simp] theorem State.clearMem_cal (lo hi : Nat) : (s.clearMem lo hi).cal = s.cal := rfl
@[simp] theorem State.clearMem_inbox (lo hi : Nat) : (s.clearMem lo hi).inbox = s.inbox := rfl
@[simp] theorem State.clearMem_later (lo hi : Nat) : (s.clearMem lo hi).later = s.later := rfl
@[simp] theorem State.clearMem_regs (lo hi : Nat) : (s.clearMem lo hi).regs = s.regs := rfl
@[simp] theorem State.clearMem_upset (lo hi : Nat) : (s.clearMem lo hi).upset = s.upset := rfl
@[simp] theorem State.clearMem_ans (lo hi : Nat) : (s.clearMem lo hi).ans = s.ans := rfl
@[simp] theorem State.clearMem_fresh (lo hi : Nat) : (s.clearMem lo hi).fresh = s.fresh := rfl
@[simp] theorem State.clearMem_sys (lo hi : Nat) : (s.clearMem lo hi).sys = s.sys := rfl
@[simp] theorem State.clearMem_hp (lo hi : Nat) : (s.clearMem lo hi).hp = s.hp := rfl
@[simp] theorem State.clearMem_load (lo hi : Nat) : (s.clearMem lo hi).load = s.load := rfl
@[simp] theorem State.clearMem_mx (lo hi : Nat) : (s.clearMem lo hi).mx = s.mx := rfl
@[simp] theorem State.clearMem_pairs (lo hi : Nat) : (s.clearMem lo hi).pairs = s.pairs := rfl
@[simp] theorem State.clearMem_evc (lo hi : Nat) : (s.clearMem lo hi).evc = s.evc := rfl
@[simp] theorem State.clearMem_fl (lo hi : Nat) : (s.clearMem lo hi).fl = s.fl := rfl
@[simp] theorem State.clearMem_ix (lo hi : Nat) : (s.clearMem lo hi).ix = s.ix := rfl
@[simp] theorem State.clearMem_qtag (lo hi : Nat) : (s.clearMem lo hi).qtag = s.qtag := rfl
@[simp] theorem State.clearMem_dma (lo hi : Nat) : (s.clearMem lo hi).dma = s.dma := rfl
@[simp] theorem State.clearMem_dbg (lo hi : Nat) : (s.clearMem lo hi).dbg = s.dbg := rfl
@[simp] theorem State.clearMem_marks (lo hi : Nat) : (s.clearMem lo hi).marks = s.marks := rfl
@[simp] theorem State.clearMem_hits (lo hi : Nat) : (s.clearMem lo hi).hits = s.hits := rfl
@[simp] theorem State.clearMem_accs (lo hi : Nat) : (s.clearMem lo hi).accs = s.accs := rfl
@[simp] theorem State.clearMem_cyc (lo hi : Nat) : (s.clearMem lo hi).cyc = s.cyc := rfl
@[simp] theorem State.clearMem_old (lo hi : Nat) : (s.clearMem lo hi).old = s.old := rfl
@[simp] theorem State.clearMem_tmr (lo hi : Nat) : (s.clearMem lo hi).tmr = s.tmr := rfl
@[simp] theorem State.clearMem_tod (lo hi : Nat) : (s.clearMem lo hi).tod = s.tod := rfl
@[simp] theorem State.clearMem_adc (lo hi : Nat) : (s.clearMem lo hi).adc = s.adc := rfl
@[simp] theorem State.clearMem_rot (lo hi : Nat) : (s.clearMem lo hi).rot = s.rot := rfl
@[simp] theorem State.clearMem_cmps (lo hi : Nat) : (s.clearMem lo hi).cmps = s.cmps := rfl
@[simp] theorem State.clearMem_pwm (lo hi : Nat) : (s.clearMem lo hi).pwm = s.pwm := rfl
@[simp] theorem State.clearMem_strobe (lo hi : Nat) : (s.clearMem lo hi).strobe = s.strobe := rfl
@[simp] theorem State.clearMem_dlWaits (lo hi : Nat) : (s.clearMem lo hi).dlWaits = s.dlWaits := rfl
@[simp] theorem State.clearMem_pos (lo hi : Nat) : (s.clearMem lo hi).pos = s.pos := rfl
@[simp] theorem State.clearMem_le (lo hi : Nat) : (s.clearMem lo hi).le = s.le := rfl
@[simp] theorem State.clearMem_twin (lo hi : Nat) : (s.clearMem lo hi).twin = s.twin := rfl
@[simp] theorem State.clearMem_eth (lo hi : Nat) : (s.clearMem lo hi).eth = s.eth := rfl
@[simp] theorem State.clearMem_sc (lo hi : Nat) : (s.clearMem lo hi).sc = s.sc := rfl

@[simp] theorem State.sched_pending (d : Nat) (c : Instr) : (s.sched d c).pending = s.pending := rfl
@[simp] theorem State.sched_now (d : Nat) (c : Instr) : (s.sched d c).now = s.now := rfl
@[simp] theorem State.sched_inbox (d : Nat) (c : Instr) : (s.sched d c).inbox = s.inbox := rfl
@[simp] theorem State.sched_later (d : Nat) (c : Instr) : (s.sched d c).later = s.later := rfl
@[simp] theorem State.sched_regs (d : Nat) (c : Instr) : (s.sched d c).regs = s.regs := rfl
@[simp] theorem State.sched_mem (d : Nat) (c : Instr) : (s.sched d c).mem = s.mem := rfl
@[simp] theorem State.sched_upset (d : Nat) (c : Instr) : (s.sched d c).upset = s.upset := rfl
@[simp] theorem State.sched_ans (d : Nat) (c : Instr) : (s.sched d c).ans = s.ans := rfl
@[simp] theorem State.sched_fresh (d : Nat) (c : Instr) : (s.sched d c).fresh = s.fresh := rfl
@[simp] theorem State.sched_sys (d : Nat) (c : Instr) : (s.sched d c).sys = s.sys := rfl
@[simp] theorem State.sched_hp (d : Nat) (c : Instr) : (s.sched d c).hp = s.hp := rfl
@[simp] theorem State.sched_load (d : Nat) (c : Instr) : (s.sched d c).load = s.load := rfl
@[simp] theorem State.sched_mx (d : Nat) (c : Instr) : (s.sched d c).mx = s.mx := rfl
@[simp] theorem State.sched_pairs (d : Nat) (c : Instr) : (s.sched d c).pairs = s.pairs := rfl
@[simp] theorem State.sched_evc (d : Nat) (c : Instr) : (s.sched d c).evc = s.evc := rfl
@[simp] theorem State.sched_fl (d : Nat) (c : Instr) : (s.sched d c).fl = s.fl := rfl
@[simp] theorem State.sched_ix (d : Nat) (c : Instr) : (s.sched d c).ix = s.ix := rfl
@[simp] theorem State.sched_qtag (d : Nat) (c : Instr) : (s.sched d c).qtag = s.qtag := rfl
@[simp] theorem State.sched_dma (d : Nat) (c : Instr) : (s.sched d c).dma = s.dma := rfl
@[simp] theorem State.sched_dbg (d : Nat) (c : Instr) : (s.sched d c).dbg = s.dbg := rfl
@[simp] theorem State.sched_marks (d : Nat) (c : Instr) : (s.sched d c).marks = s.marks := rfl
@[simp] theorem State.sched_hits (d : Nat) (c : Instr) : (s.sched d c).hits = s.hits := rfl
@[simp] theorem State.sched_accs (d : Nat) (c : Instr) : (s.sched d c).accs = s.accs := rfl
@[simp] theorem State.sched_cyc (d : Nat) (c : Instr) : (s.sched d c).cyc = s.cyc := rfl
@[simp] theorem State.sched_old (d : Nat) (c : Instr) : (s.sched d c).old = s.old := rfl
@[simp] theorem State.sched_tmr (d : Nat) (c : Instr) : (s.sched d c).tmr = s.tmr := rfl
@[simp] theorem State.sched_tod (d : Nat) (c : Instr) : (s.sched d c).tod = s.tod := rfl
@[simp] theorem State.sched_adc (d : Nat) (c : Instr) : (s.sched d c).adc = s.adc := rfl
@[simp] theorem State.sched_rot (d : Nat) (c : Instr) : (s.sched d c).rot = s.rot := rfl
@[simp] theorem State.sched_cmps (d : Nat) (c : Instr) : (s.sched d c).cmps = s.cmps := rfl
@[simp] theorem State.sched_pwm (d : Nat) (c : Instr) : (s.sched d c).pwm = s.pwm := rfl
@[simp] theorem State.sched_strobe (d : Nat) (c : Instr) : (s.sched d c).strobe = s.strobe := rfl
@[simp] theorem State.sched_dlWaits (d : Nat) (c : Instr) : (s.sched d c).dlWaits = s.dlWaits := rfl
@[simp] theorem State.sched_pos (d : Nat) (c : Instr) : (s.sched d c).pos = s.pos := rfl
@[simp] theorem State.sched_le (d : Nat) (c : Instr) : (s.sched d c).le = s.le := rfl
@[simp] theorem State.sched_twin (d : Nat) (c : Instr) : (s.sched d c).twin = s.twin := rfl
@[simp] theorem State.sched_eth (d : Nat) (c : Instr) : (s.sched d c).eth = s.eth := rfl
@[simp] theorem State.sched_sc (d : Nat) (c : Instr) : (s.sched d c).sc = s.sc := rfl

@[simp] theorem State.schedMore_pending (d : Nat) (c : Instr) : (s.schedMore d c).pending = s.pending := rfl
@[simp] theorem State.schedMore_now (d : Nat) (c : Instr) : (s.schedMore d c).now = s.now := rfl
@[simp] theorem State.schedMore_inbox (d : Nat) (c : Instr) : (s.schedMore d c).inbox = s.inbox := rfl
@[simp] theorem State.schedMore_later (d : Nat) (c : Instr) : (s.schedMore d c).later = s.later := rfl
@[simp] theorem State.schedMore_regs (d : Nat) (c : Instr) : (s.schedMore d c).regs = s.regs := rfl
@[simp] theorem State.schedMore_mem (d : Nat) (c : Instr) : (s.schedMore d c).mem = s.mem := rfl
@[simp] theorem State.schedMore_upset (d : Nat) (c : Instr) : (s.schedMore d c).upset = s.upset := rfl
@[simp] theorem State.schedMore_ans (d : Nat) (c : Instr) : (s.schedMore d c).ans = s.ans := rfl
@[simp] theorem State.schedMore_fresh (d : Nat) (c : Instr) : (s.schedMore d c).fresh = s.fresh := rfl
@[simp] theorem State.schedMore_sys (d : Nat) (c : Instr) : (s.schedMore d c).sys = s.sys := rfl
@[simp] theorem State.schedMore_hp (d : Nat) (c : Instr) : (s.schedMore d c).hp = s.hp := rfl
@[simp] theorem State.schedMore_load (d : Nat) (c : Instr) : (s.schedMore d c).load = s.load := rfl
@[simp] theorem State.schedMore_mx (d : Nat) (c : Instr) : (s.schedMore d c).mx = s.mx := rfl
@[simp] theorem State.schedMore_pairs (d : Nat) (c : Instr) : (s.schedMore d c).pairs = s.pairs := rfl
@[simp] theorem State.schedMore_evc (d : Nat) (c : Instr) : (s.schedMore d c).evc = s.evc := rfl
@[simp] theorem State.schedMore_fl (d : Nat) (c : Instr) : (s.schedMore d c).fl = s.fl := rfl
@[simp] theorem State.schedMore_ix (d : Nat) (c : Instr) : (s.schedMore d c).ix = s.ix := rfl
@[simp] theorem State.schedMore_qtag (d : Nat) (c : Instr) : (s.schedMore d c).qtag = s.qtag := rfl
@[simp] theorem State.schedMore_dma (d : Nat) (c : Instr) : (s.schedMore d c).dma = s.dma := rfl
@[simp] theorem State.schedMore_dbg (d : Nat) (c : Instr) : (s.schedMore d c).dbg = s.dbg := rfl
@[simp] theorem State.schedMore_marks (d : Nat) (c : Instr) : (s.schedMore d c).marks = s.marks := rfl
@[simp] theorem State.schedMore_hits (d : Nat) (c : Instr) : (s.schedMore d c).hits = s.hits := rfl
@[simp] theorem State.schedMore_accs (d : Nat) (c : Instr) : (s.schedMore d c).accs = s.accs := rfl
@[simp] theorem State.schedMore_cyc (d : Nat) (c : Instr) : (s.schedMore d c).cyc = s.cyc := rfl
@[simp] theorem State.schedMore_old (d : Nat) (c : Instr) : (s.schedMore d c).old = s.old := rfl
@[simp] theorem State.schedMore_tmr (d : Nat) (c : Instr) : (s.schedMore d c).tmr = s.tmr := rfl
@[simp] theorem State.schedMore_tod (d : Nat) (c : Instr) : (s.schedMore d c).tod = s.tod := rfl
@[simp] theorem State.schedMore_adc (d : Nat) (c : Instr) : (s.schedMore d c).adc = s.adc := rfl
@[simp] theorem State.schedMore_rot (d : Nat) (c : Instr) : (s.schedMore d c).rot = s.rot := rfl
@[simp] theorem State.schedMore_cmps (d : Nat) (c : Instr) : (s.schedMore d c).cmps = s.cmps := rfl
@[simp] theorem State.schedMore_pwm (d : Nat) (c : Instr) : (s.schedMore d c).pwm = s.pwm := rfl
@[simp] theorem State.schedMore_strobe (d : Nat) (c : Instr) : (s.schedMore d c).strobe = s.strobe := rfl
@[simp] theorem State.schedMore_dlWaits (d : Nat) (c : Instr) : (s.schedMore d c).dlWaits = s.dlWaits := rfl
@[simp] theorem State.schedMore_pos (d : Nat) (c : Instr) : (s.schedMore d c).pos = s.pos := rfl
@[simp] theorem State.schedMore_le (d : Nat) (c : Instr) : (s.schedMore d c).le = s.le := rfl
@[simp] theorem State.schedMore_twin (d : Nat) (c : Instr) : (s.schedMore d c).twin = s.twin := rfl
@[simp] theorem State.schedMore_eth (d : Nat) (c : Instr) : (s.schedMore d c).eth = s.eth := rfl
@[simp] theorem State.schedMore_sc (d : Nat) (c : Instr) : (s.schedMore d c).sc = s.sc := rfl

@[simp] theorem State.schedAt_pending (t : Nat) (c : Instr) : (s.schedAt t c).pending = s.pending := rfl
@[simp] theorem State.schedAt_now (t : Nat) (c : Instr) : (s.schedAt t c).now = s.now := rfl
@[simp] theorem State.schedAt_inbox (t : Nat) (c : Instr) : (s.schedAt t c).inbox = s.inbox := rfl
@[simp] theorem State.schedAt_later (t : Nat) (c : Instr) : (s.schedAt t c).later = s.later := rfl
@[simp] theorem State.schedAt_regs (t : Nat) (c : Instr) : (s.schedAt t c).regs = s.regs := rfl
@[simp] theorem State.schedAt_mem (t : Nat) (c : Instr) : (s.schedAt t c).mem = s.mem := rfl
@[simp] theorem State.schedAt_upset (t : Nat) (c : Instr) : (s.schedAt t c).upset = s.upset := rfl
@[simp] theorem State.schedAt_ans (t : Nat) (c : Instr) : (s.schedAt t c).ans = s.ans := rfl
@[simp] theorem State.schedAt_fresh (t : Nat) (c : Instr) : (s.schedAt t c).fresh = s.fresh := rfl
@[simp] theorem State.schedAt_sys (t : Nat) (c : Instr) : (s.schedAt t c).sys = s.sys := rfl
@[simp] theorem State.schedAt_hp (t : Nat) (c : Instr) : (s.schedAt t c).hp = s.hp := rfl
@[simp] theorem State.schedAt_load (t : Nat) (c : Instr) : (s.schedAt t c).load = s.load := rfl
@[simp] theorem State.schedAt_mx (t : Nat) (c : Instr) : (s.schedAt t c).mx = s.mx := rfl
@[simp] theorem State.schedAt_pairs (t : Nat) (c : Instr) : (s.schedAt t c).pairs = s.pairs := rfl
@[simp] theorem State.schedAt_evc (t : Nat) (c : Instr) : (s.schedAt t c).evc = s.evc := rfl
@[simp] theorem State.schedAt_fl (t : Nat) (c : Instr) : (s.schedAt t c).fl = s.fl := rfl
@[simp] theorem State.schedAt_ix (t : Nat) (c : Instr) : (s.schedAt t c).ix = s.ix := rfl
@[simp] theorem State.schedAt_qtag (t : Nat) (c : Instr) : (s.schedAt t c).qtag = s.qtag := rfl
@[simp] theorem State.schedAt_dma (t : Nat) (c : Instr) : (s.schedAt t c).dma = s.dma := rfl
@[simp] theorem State.schedAt_dbg (t : Nat) (c : Instr) : (s.schedAt t c).dbg = s.dbg := rfl
@[simp] theorem State.schedAt_marks (t : Nat) (c : Instr) : (s.schedAt t c).marks = s.marks := rfl
@[simp] theorem State.schedAt_hits (t : Nat) (c : Instr) : (s.schedAt t c).hits = s.hits := rfl
@[simp] theorem State.schedAt_accs (t : Nat) (c : Instr) : (s.schedAt t c).accs = s.accs := rfl
@[simp] theorem State.schedAt_cyc (t : Nat) (c : Instr) : (s.schedAt t c).cyc = s.cyc := rfl
@[simp] theorem State.schedAt_old (t : Nat) (c : Instr) : (s.schedAt t c).old = s.old := rfl
@[simp] theorem State.schedAt_tmr (t : Nat) (c : Instr) : (s.schedAt t c).tmr = s.tmr := rfl
@[simp] theorem State.schedAt_tod (t : Nat) (c : Instr) : (s.schedAt t c).tod = s.tod := rfl
@[simp] theorem State.schedAt_adc (t : Nat) (c : Instr) : (s.schedAt t c).adc = s.adc := rfl
@[simp] theorem State.schedAt_rot (t : Nat) (c : Instr) : (s.schedAt t c).rot = s.rot := rfl
@[simp] theorem State.schedAt_cmps (t : Nat) (c : Instr) : (s.schedAt t c).cmps = s.cmps := rfl
@[simp] theorem State.schedAt_pwm (t : Nat) (c : Instr) : (s.schedAt t c).pwm = s.pwm := rfl
@[simp] theorem State.schedAt_strobe (t : Nat) (c : Instr) : (s.schedAt t c).strobe = s.strobe := rfl
@[simp] theorem State.schedAt_dlWaits (t : Nat) (c : Instr) : (s.schedAt t c).dlWaits = s.dlWaits := rfl
@[simp] theorem State.schedAt_pos (t : Nat) (c : Instr) : (s.schedAt t c).pos = s.pos := rfl
@[simp] theorem State.schedAt_le (t : Nat) (c : Instr) : (s.schedAt t c).le = s.le := rfl
@[simp] theorem State.schedAt_twin (t : Nat) (c : Instr) : (s.schedAt t c).twin = s.twin := rfl
@[simp] theorem State.schedAt_eth (t : Nat) (c : Instr) : (s.schedAt t c).eth = s.eth := rfl
@[simp] theorem State.schedAt_sc (t : Nat) (c : Instr) : (s.schedAt t c).sc = s.sc := rfl

@[simp] theorem State.unsched_pending (c : Instr) : (s.unsched c).pending = s.pending := rfl
@[simp] theorem State.unsched_now (c : Instr) : (s.unsched c).now = s.now := rfl
@[simp] theorem State.unsched_inbox (c : Instr) : (s.unsched c).inbox = s.inbox := rfl
@[simp] theorem State.unsched_later (c : Instr) : (s.unsched c).later = s.later := rfl
@[simp] theorem State.unsched_regs (c : Instr) : (s.unsched c).regs = s.regs := rfl
@[simp] theorem State.unsched_mem (c : Instr) : (s.unsched c).mem = s.mem := rfl
@[simp] theorem State.unsched_upset (c : Instr) : (s.unsched c).upset = s.upset := rfl
@[simp] theorem State.unsched_ans (c : Instr) : (s.unsched c).ans = s.ans := rfl
@[simp] theorem State.unsched_fresh (c : Instr) : (s.unsched c).fresh = s.fresh := rfl
@[simp] theorem State.unsched_sys (c : Instr) : (s.unsched c).sys = s.sys := rfl
@[simp] theorem State.unsched_hp (c : Instr) : (s.unsched c).hp = s.hp := rfl
@[simp] theorem State.unsched_load (c : Instr) : (s.unsched c).load = s.load := rfl
@[simp] theorem State.unsched_mx (c : Instr) : (s.unsched c).mx = s.mx := rfl
@[simp] theorem State.unsched_pairs (c : Instr) : (s.unsched c).pairs = s.pairs := rfl
@[simp] theorem State.unsched_evc (c : Instr) : (s.unsched c).evc = s.evc := rfl
@[simp] theorem State.unsched_fl (c : Instr) : (s.unsched c).fl = s.fl := rfl
@[simp] theorem State.unsched_ix (c : Instr) : (s.unsched c).ix = s.ix := rfl
@[simp] theorem State.unsched_qtag (c : Instr) : (s.unsched c).qtag = s.qtag := rfl
@[simp] theorem State.unsched_dma (c : Instr) : (s.unsched c).dma = s.dma := rfl
@[simp] theorem State.unsched_dbg (c : Instr) : (s.unsched c).dbg = s.dbg := rfl
@[simp] theorem State.unsched_marks (c : Instr) : (s.unsched c).marks = s.marks := rfl
@[simp] theorem State.unsched_hits (c : Instr) : (s.unsched c).hits = s.hits := rfl
@[simp] theorem State.unsched_accs (c : Instr) : (s.unsched c).accs = s.accs := rfl
@[simp] theorem State.unsched_cyc (c : Instr) : (s.unsched c).cyc = s.cyc := rfl
@[simp] theorem State.unsched_old (c : Instr) : (s.unsched c).old = s.old := rfl
@[simp] theorem State.unsched_tmr (c : Instr) : (s.unsched c).tmr = s.tmr := rfl
@[simp] theorem State.unsched_tod (c : Instr) : (s.unsched c).tod = s.tod := rfl
@[simp] theorem State.unsched_adc (c : Instr) : (s.unsched c).adc = s.adc := rfl
@[simp] theorem State.unsched_rot (c : Instr) : (s.unsched c).rot = s.rot := rfl
@[simp] theorem State.unsched_cmps (c : Instr) : (s.unsched c).cmps = s.cmps := rfl
@[simp] theorem State.unsched_pwm (c : Instr) : (s.unsched c).pwm = s.pwm := rfl
@[simp] theorem State.unsched_strobe (c : Instr) : (s.unsched c).strobe = s.strobe := rfl
@[simp] theorem State.unsched_dlWaits (c : Instr) : (s.unsched c).dlWaits = s.dlWaits := rfl
@[simp] theorem State.unsched_pos (c : Instr) : (s.unsched c).pos = s.pos := rfl
@[simp] theorem State.unsched_le (c : Instr) : (s.unsched c).le = s.le := rfl
@[simp] theorem State.unsched_twin (c : Instr) : (s.unsched c).twin = s.twin := rfl
@[simp] theorem State.unsched_eth (c : Instr) : (s.unsched c).eth = s.eth := rfl
@[simp] theorem State.unsched_sc (c : Instr) : (s.unsched c).sc = s.sc := rfl

@[simp] theorem State.unschedAll_pending (p : Instr → Bool) : (s.unschedAll p).pending = s.pending := rfl
@[simp] theorem State.unschedAll_now (p : Instr → Bool) : (s.unschedAll p).now = s.now := rfl
@[simp] theorem State.unschedAll_inbox (p : Instr → Bool) : (s.unschedAll p).inbox = s.inbox := rfl
@[simp] theorem State.unschedAll_later (p : Instr → Bool) : (s.unschedAll p).later = s.later := rfl
@[simp] theorem State.unschedAll_regs (p : Instr → Bool) : (s.unschedAll p).regs = s.regs := rfl
@[simp] theorem State.unschedAll_mem (p : Instr → Bool) : (s.unschedAll p).mem = s.mem := rfl
@[simp] theorem State.unschedAll_upset (p : Instr → Bool) : (s.unschedAll p).upset = s.upset := rfl
@[simp] theorem State.unschedAll_ans (p : Instr → Bool) : (s.unschedAll p).ans = s.ans := rfl
@[simp] theorem State.unschedAll_fresh (p : Instr → Bool) : (s.unschedAll p).fresh = s.fresh := rfl
@[simp] theorem State.unschedAll_sys (p : Instr → Bool) : (s.unschedAll p).sys = s.sys := rfl
@[simp] theorem State.unschedAll_hp (p : Instr → Bool) : (s.unschedAll p).hp = s.hp := rfl
@[simp] theorem State.unschedAll_load (p : Instr → Bool) : (s.unschedAll p).load = s.load := rfl
@[simp] theorem State.unschedAll_mx (p : Instr → Bool) : (s.unschedAll p).mx = s.mx := rfl
@[simp] theorem State.unschedAll_pairs (p : Instr → Bool) : (s.unschedAll p).pairs = s.pairs := rfl
@[simp] theorem State.unschedAll_evc (p : Instr → Bool) : (s.unschedAll p).evc = s.evc := rfl
@[simp] theorem State.unschedAll_fl (p : Instr → Bool) : (s.unschedAll p).fl = s.fl := rfl
@[simp] theorem State.unschedAll_ix (p : Instr → Bool) : (s.unschedAll p).ix = s.ix := rfl
@[simp] theorem State.unschedAll_qtag (p : Instr → Bool) : (s.unschedAll p).qtag = s.qtag := rfl
@[simp] theorem State.unschedAll_dma (p : Instr → Bool) : (s.unschedAll p).dma = s.dma := rfl
@[simp] theorem State.unschedAll_dbg (p : Instr → Bool) : (s.unschedAll p).dbg = s.dbg := rfl
@[simp] theorem State.unschedAll_marks (p : Instr → Bool) : (s.unschedAll p).marks = s.marks := rfl
@[simp] theorem State.unschedAll_hits (p : Instr → Bool) : (s.unschedAll p).hits = s.hits := rfl
@[simp] theorem State.unschedAll_accs (p : Instr → Bool) : (s.unschedAll p).accs = s.accs := rfl
@[simp] theorem State.unschedAll_cyc (p : Instr → Bool) : (s.unschedAll p).cyc = s.cyc := rfl
@[simp] theorem State.unschedAll_old (p : Instr → Bool) : (s.unschedAll p).old = s.old := rfl
@[simp] theorem State.unschedAll_tmr (p : Instr → Bool) : (s.unschedAll p).tmr = s.tmr := rfl
@[simp] theorem State.unschedAll_tod (p : Instr → Bool) : (s.unschedAll p).tod = s.tod := rfl
@[simp] theorem State.unschedAll_adc (p : Instr → Bool) : (s.unschedAll p).adc = s.adc := rfl
@[simp] theorem State.unschedAll_rot (p : Instr → Bool) : (s.unschedAll p).rot = s.rot := rfl
@[simp] theorem State.unschedAll_cmps (p : Instr → Bool) : (s.unschedAll p).cmps = s.cmps := rfl
@[simp] theorem State.unschedAll_pwm (p : Instr → Bool) : (s.unschedAll p).pwm = s.pwm := rfl
@[simp] theorem State.unschedAll_strobe (p : Instr → Bool) : (s.unschedAll p).strobe = s.strobe := rfl
@[simp] theorem State.unschedAll_dlWaits (p : Instr → Bool) : (s.unschedAll p).dlWaits = s.dlWaits := rfl
@[simp] theorem State.unschedAll_pos (p : Instr → Bool) : (s.unschedAll p).pos = s.pos := rfl
@[simp] theorem State.unschedAll_le (p : Instr → Bool) : (s.unschedAll p).le = s.le := rfl
@[simp] theorem State.unschedAll_twin (p : Instr → Bool) : (s.unschedAll p).twin = s.twin := rfl
@[simp] theorem State.unschedAll_eth (p : Instr → Bool) : (s.unschedAll p).eth = s.eth := rfl
@[simp] theorem State.unschedAll_sc (p : Instr → Bool) : (s.unschedAll p).sc = s.sc := rfl

@[simp] theorem State.evcRaise_pending (n : SrcId) : (s.evcRaise n).pending = s.pending := rfl
@[simp] theorem State.evcRaise_now (n : SrcId) : (s.evcRaise n).now = s.now := rfl
@[simp] theorem State.evcRaise_inbox (n : SrcId) : (s.evcRaise n).inbox = s.inbox := rfl
@[simp] theorem State.evcRaise_later (n : SrcId) : (s.evcRaise n).later = s.later := rfl
@[simp] theorem State.evcRaise_regs (n : SrcId) : (s.evcRaise n).regs = s.regs := rfl
@[simp] theorem State.evcRaise_mem (n : SrcId) : (s.evcRaise n).mem = s.mem := rfl
@[simp] theorem State.evcRaise_upset (n : SrcId) : (s.evcRaise n).upset = s.upset := rfl
@[simp] theorem State.evcRaise_ans (n : SrcId) : (s.evcRaise n).ans = s.ans := rfl
@[simp] theorem State.evcRaise_fresh (n : SrcId) : (s.evcRaise n).fresh = s.fresh := rfl
@[simp] theorem State.evcRaise_sys (n : SrcId) : (s.evcRaise n).sys = s.sys := rfl
@[simp] theorem State.evcRaise_hp (n : SrcId) : (s.evcRaise n).hp = s.hp := rfl
@[simp] theorem State.evcRaise_load (n : SrcId) : (s.evcRaise n).load = s.load := rfl
@[simp] theorem State.evcRaise_mx (n : SrcId) : (s.evcRaise n).mx = s.mx := rfl
@[simp] theorem State.evcRaise_pairs (n : SrcId) : (s.evcRaise n).pairs = s.pairs := rfl
@[simp] theorem State.evcRaise_evc (n : SrcId) : (s.evcRaise n).evc = s.evc := rfl
@[simp] theorem State.evcRaise_fl (n : SrcId) : (s.evcRaise n).fl = s.fl := rfl
@[simp] theorem State.evcRaise_ix (n : SrcId) : (s.evcRaise n).ix = s.ix := rfl
@[simp] theorem State.evcRaise_qtag (n : SrcId) : (s.evcRaise n).qtag = s.qtag := rfl
@[simp] theorem State.evcRaise_dma (n : SrcId) : (s.evcRaise n).dma = s.dma := rfl
@[simp] theorem State.evcRaise_dbg (n : SrcId) : (s.evcRaise n).dbg = s.dbg := rfl
@[simp] theorem State.evcRaise_marks (n : SrcId) : (s.evcRaise n).marks = s.marks := rfl
@[simp] theorem State.evcRaise_hits (n : SrcId) : (s.evcRaise n).hits = s.hits := rfl
@[simp] theorem State.evcRaise_accs (n : SrcId) : (s.evcRaise n).accs = s.accs := rfl
@[simp] theorem State.evcRaise_cyc (n : SrcId) : (s.evcRaise n).cyc = s.cyc := rfl
@[simp] theorem State.evcRaise_old (n : SrcId) : (s.evcRaise n).old = s.old := rfl
@[simp] theorem State.evcRaise_tmr (n : SrcId) : (s.evcRaise n).tmr = s.tmr := rfl
@[simp] theorem State.evcRaise_tod (n : SrcId) : (s.evcRaise n).tod = s.tod := rfl
@[simp] theorem State.evcRaise_adc (n : SrcId) : (s.evcRaise n).adc = s.adc := rfl
@[simp] theorem State.evcRaise_rot (n : SrcId) : (s.evcRaise n).rot = s.rot := rfl
@[simp] theorem State.evcRaise_cmps (n : SrcId) : (s.evcRaise n).cmps = s.cmps := rfl
@[simp] theorem State.evcRaise_pwm (n : SrcId) : (s.evcRaise n).pwm = s.pwm := rfl
@[simp] theorem State.evcRaise_strobe (n : SrcId) : (s.evcRaise n).strobe = s.strobe := rfl
@[simp] theorem State.evcRaise_dlWaits (n : SrcId) : (s.evcRaise n).dlWaits = s.dlWaits := rfl
@[simp] theorem State.evcRaise_pos (n : SrcId) : (s.evcRaise n).pos = s.pos := rfl
@[simp] theorem State.evcRaise_le (n : SrcId) : (s.evcRaise n).le = s.le := rfl
@[simp] theorem State.evcRaise_twin (n : SrcId) : (s.evcRaise n).twin = s.twin := rfl
@[simp] theorem State.evcRaise_eth (n : SrcId) : (s.evcRaise n).eth = s.eth := rfl
@[simp] theorem State.evcRaise_sc (n : SrcId) : (s.evcRaise n).sc = s.sc := rfl

@[simp] theorem State.mark_pending (a : Nat) (port : Bool) : (s.mark a port).pending = s.pending := rfl
@[simp] theorem State.mark_now (a : Nat) (port : Bool) : (s.mark a port).now = s.now := rfl
@[simp] theorem State.mark_cal (a : Nat) (port : Bool) : (s.mark a port).cal = s.cal := rfl
@[simp] theorem State.mark_inbox (a : Nat) (port : Bool) : (s.mark a port).inbox = s.inbox := rfl
@[simp] theorem State.mark_later (a : Nat) (port : Bool) : (s.mark a port).later = s.later := rfl
@[simp] theorem State.mark_regs (a : Nat) (port : Bool) : (s.mark a port).regs = s.regs := rfl
@[simp] theorem State.mark_mem (a : Nat) (port : Bool) : (s.mark a port).mem = s.mem := rfl
@[simp] theorem State.mark_upset (a : Nat) (port : Bool) : (s.mark a port).upset = s.upset := rfl
@[simp] theorem State.mark_ans (a : Nat) (port : Bool) : (s.mark a port).ans = s.ans := rfl
@[simp] theorem State.mark_fresh (a : Nat) (port : Bool) : (s.mark a port).fresh = s.fresh := rfl
@[simp] theorem State.mark_sys (a : Nat) (port : Bool) : (s.mark a port).sys = s.sys := rfl
@[simp] theorem State.mark_hp (a : Nat) (port : Bool) : (s.mark a port).hp = s.hp := rfl
@[simp] theorem State.mark_load (a : Nat) (port : Bool) : (s.mark a port).load = s.load := rfl
@[simp] theorem State.mark_mx (a : Nat) (port : Bool) : (s.mark a port).mx = s.mx := rfl
@[simp] theorem State.mark_pairs (a : Nat) (port : Bool) : (s.mark a port).pairs = s.pairs := rfl
@[simp] theorem State.mark_evc (a : Nat) (port : Bool) : (s.mark a port).evc = s.evc := rfl
@[simp] theorem State.mark_fl (a : Nat) (port : Bool) : (s.mark a port).fl = s.fl := rfl
@[simp] theorem State.mark_ix (a : Nat) (port : Bool) : (s.mark a port).ix = s.ix := rfl
@[simp] theorem State.mark_qtag (a : Nat) (port : Bool) : (s.mark a port).qtag = s.qtag := rfl
@[simp] theorem State.mark_dma (a : Nat) (port : Bool) : (s.mark a port).dma = s.dma := rfl
@[simp] theorem State.mark_dbg (a : Nat) (port : Bool) : (s.mark a port).dbg = s.dbg := rfl
@[simp] theorem State.mark_hits (a : Nat) (port : Bool) : (s.mark a port).hits = s.hits := rfl
@[simp] theorem State.mark_accs (a : Nat) (port : Bool) : (s.mark a port).accs = s.accs := rfl
@[simp] theorem State.mark_cyc (a : Nat) (port : Bool) : (s.mark a port).cyc = s.cyc := rfl
@[simp] theorem State.mark_old (a : Nat) (port : Bool) : (s.mark a port).old = s.old := rfl
@[simp] theorem State.mark_tmr (a : Nat) (port : Bool) : (s.mark a port).tmr = s.tmr := rfl
@[simp] theorem State.mark_tod (a : Nat) (port : Bool) : (s.mark a port).tod = s.tod := rfl
@[simp] theorem State.mark_adc (a : Nat) (port : Bool) : (s.mark a port).adc = s.adc := rfl
@[simp] theorem State.mark_rot (a : Nat) (port : Bool) : (s.mark a port).rot = s.rot := rfl
@[simp] theorem State.mark_cmps (a : Nat) (port : Bool) : (s.mark a port).cmps = s.cmps := rfl
@[simp] theorem State.mark_pwm (a : Nat) (port : Bool) : (s.mark a port).pwm = s.pwm := rfl
@[simp] theorem State.mark_strobe (a : Nat) (port : Bool) : (s.mark a port).strobe = s.strobe := rfl
@[simp] theorem State.mark_dlWaits (a : Nat) (port : Bool) : (s.mark a port).dlWaits = s.dlWaits := rfl
@[simp] theorem State.mark_pos (a : Nat) (port : Bool) : (s.mark a port).pos = s.pos := rfl
@[simp] theorem State.mark_le (a : Nat) (port : Bool) : (s.mark a port).le = s.le := rfl
@[simp] theorem State.mark_twin (a : Nat) (port : Bool) : (s.mark a port).twin = s.twin := rfl
@[simp] theorem State.mark_eth (a : Nat) (port : Bool) : (s.mark a port).eth = s.eth := rfl
@[simp] theorem State.mark_sc (a : Nat) (port : Bool) : (s.mark a port).sc = s.sc := rfl

@[simp] theorem State.emit_pending (c : Instr) : (s.emit c).pending = s.pending := rfl
@[simp] theorem State.emit_now (c : Instr) : (s.emit c).now = s.now := rfl
@[simp] theorem State.emit_cal (c : Instr) : (s.emit c).cal = s.cal := rfl
@[simp] theorem State.emit_later (c : Instr) : (s.emit c).later = s.later := rfl
@[simp] theorem State.emit_regs (c : Instr) : (s.emit c).regs = s.regs := rfl
@[simp] theorem State.emit_mem (c : Instr) : (s.emit c).mem = s.mem := rfl
@[simp] theorem State.emit_upset (c : Instr) : (s.emit c).upset = s.upset := rfl
@[simp] theorem State.emit_ans (c : Instr) : (s.emit c).ans = s.ans := rfl
@[simp] theorem State.emit_fresh (c : Instr) : (s.emit c).fresh = s.fresh := rfl
@[simp] theorem State.emit_sys (c : Instr) : (s.emit c).sys = s.sys := rfl
@[simp] theorem State.emit_hp (c : Instr) : (s.emit c).hp = s.hp := rfl
@[simp] theorem State.emit_load (c : Instr) : (s.emit c).load = s.load := rfl
@[simp] theorem State.emit_mx (c : Instr) : (s.emit c).mx = s.mx := rfl
@[simp] theorem State.emit_pairs (c : Instr) : (s.emit c).pairs = s.pairs := rfl
@[simp] theorem State.emit_evc (c : Instr) : (s.emit c).evc = s.evc := rfl
@[simp] theorem State.emit_fl (c : Instr) : (s.emit c).fl = s.fl := rfl
@[simp] theorem State.emit_ix (c : Instr) : (s.emit c).ix = s.ix := rfl
@[simp] theorem State.emit_qtag (c : Instr) : (s.emit c).qtag = s.qtag := rfl
@[simp] theorem State.emit_dma (c : Instr) : (s.emit c).dma = s.dma := rfl
@[simp] theorem State.emit_dbg (c : Instr) : (s.emit c).dbg = s.dbg := rfl
@[simp] theorem State.emit_marks (c : Instr) : (s.emit c).marks = s.marks := rfl
@[simp] theorem State.emit_hits (c : Instr) : (s.emit c).hits = s.hits := rfl
@[simp] theorem State.emit_accs (c : Instr) : (s.emit c).accs = s.accs := rfl
@[simp] theorem State.emit_cyc (c : Instr) : (s.emit c).cyc = s.cyc := rfl
@[simp] theorem State.emit_old (c : Instr) : (s.emit c).old = s.old := rfl
@[simp] theorem State.emit_tmr (c : Instr) : (s.emit c).tmr = s.tmr := rfl
@[simp] theorem State.emit_tod (c : Instr) : (s.emit c).tod = s.tod := rfl
@[simp] theorem State.emit_adc (c : Instr) : (s.emit c).adc = s.adc := rfl
@[simp] theorem State.emit_rot (c : Instr) : (s.emit c).rot = s.rot := rfl
@[simp] theorem State.emit_cmps (c : Instr) : (s.emit c).cmps = s.cmps := rfl
@[simp] theorem State.emit_pwm (c : Instr) : (s.emit c).pwm = s.pwm := rfl
@[simp] theorem State.emit_strobe (c : Instr) : (s.emit c).strobe = s.strobe := rfl
@[simp] theorem State.emit_dlWaits (c : Instr) : (s.emit c).dlWaits = s.dlWaits := rfl
@[simp] theorem State.emit_pos (c : Instr) : (s.emit c).pos = s.pos := rfl
@[simp] theorem State.emit_le (c : Instr) : (s.emit c).le = s.le := rfl
@[simp] theorem State.emit_twin (c : Instr) : (s.emit c).twin = s.twin := rfl
@[simp] theorem State.emit_eth (c : Instr) : (s.emit c).eth = s.eth := rfl
@[simp] theorem State.emit_sc (c : Instr) : (s.emit c).sc = s.sc := rfl

@[simp] theorem State.defer_pending (c : Instr) : (s.defer c).pending = s.pending := by
  simp only [State.defer]; split <;> rfl
@[simp] theorem State.defer_now (c : Instr) : (s.defer c).now = s.now := by
  simp only [State.defer]; split <;> rfl
@[simp] theorem State.defer_cal (c : Instr) : (s.defer c).cal = s.cal := by
  simp only [State.defer]; split <;> rfl
@[simp] theorem State.defer_inbox (c : Instr) : (s.defer c).inbox = s.inbox := by
  simp only [State.defer]; split <;> rfl
@[simp] theorem State.defer_regs (c : Instr) : (s.defer c).regs = s.regs := by
  simp only [State.defer]; split <;> rfl
@[simp] theorem State.defer_mem (c : Instr) : (s.defer c).mem = s.mem := by
  simp only [State.defer]; split <;> rfl
@[simp] theorem State.defer_upset (c : Instr) : (s.defer c).upset = s.upset := by
  simp only [State.defer]; split <;> rfl
@[simp] theorem State.defer_ans (c : Instr) : (s.defer c).ans = s.ans := by
  simp only [State.defer]; split <;> rfl
@[simp] theorem State.defer_fresh (c : Instr) : (s.defer c).fresh = s.fresh := by
  simp only [State.defer]; split <;> rfl
@[simp] theorem State.defer_sys (c : Instr) : (s.defer c).sys = s.sys := by
  simp only [State.defer]; split <;> rfl
@[simp] theorem State.defer_hp (c : Instr) : (s.defer c).hp = s.hp := by
  simp only [State.defer]; split <;> rfl
@[simp] theorem State.defer_load (c : Instr) : (s.defer c).load = s.load := by
  simp only [State.defer]; split <;> rfl
@[simp] theorem State.defer_mx (c : Instr) : (s.defer c).mx = s.mx := by
  simp only [State.defer]; split <;> rfl
@[simp] theorem State.defer_pairs (c : Instr) : (s.defer c).pairs = s.pairs := by
  simp only [State.defer]; split <;> rfl
@[simp] theorem State.defer_evc (c : Instr) : (s.defer c).evc = s.evc := by
  simp only [State.defer]; split <;> rfl
@[simp] theorem State.defer_fl (c : Instr) : (s.defer c).fl = s.fl := by
  simp only [State.defer]; split <;> rfl
@[simp] theorem State.defer_ix (c : Instr) : (s.defer c).ix = s.ix := by
  simp only [State.defer]; split <;> rfl
@[simp] theorem State.defer_qtag (c : Instr) : (s.defer c).qtag = s.qtag := by
  simp only [State.defer]; split <;> rfl
@[simp] theorem State.defer_dma (c : Instr) : (s.defer c).dma = s.dma := by
  simp only [State.defer]; split <;> rfl
@[simp] theorem State.defer_dbg (c : Instr) : (s.defer c).dbg = s.dbg := by
  simp only [State.defer]; split <;> rfl
@[simp] theorem State.defer_marks (c : Instr) : (s.defer c).marks = s.marks := by
  simp only [State.defer]; split <;> rfl
@[simp] theorem State.defer_hits (c : Instr) : (s.defer c).hits = s.hits := by
  simp only [State.defer]; split <;> rfl
@[simp] theorem State.defer_accs (c : Instr) : (s.defer c).accs = s.accs := by
  simp only [State.defer]; split <;> rfl
@[simp] theorem State.defer_cyc (c : Instr) : (s.defer c).cyc = s.cyc := by
  simp only [State.defer]; split <;> rfl
@[simp] theorem State.defer_old (c : Instr) : (s.defer c).old = s.old := by
  simp only [State.defer]; split <;> rfl
@[simp] theorem State.defer_tmr (c : Instr) : (s.defer c).tmr = s.tmr := by
  simp only [State.defer]; split <;> rfl
@[simp] theorem State.defer_tod (c : Instr) : (s.defer c).tod = s.tod := by
  simp only [State.defer]; split <;> rfl
@[simp] theorem State.defer_adc (c : Instr) : (s.defer c).adc = s.adc := by
  simp only [State.defer]; split <;> rfl
@[simp] theorem State.defer_rot (c : Instr) : (s.defer c).rot = s.rot := by
  simp only [State.defer]; split <;> rfl
@[simp] theorem State.defer_cmps (c : Instr) : (s.defer c).cmps = s.cmps := by
  simp only [State.defer]; split <;> rfl
@[simp] theorem State.defer_pwm (c : Instr) : (s.defer c).pwm = s.pwm := by
  simp only [State.defer]; split <;> rfl
@[simp] theorem State.defer_strobe (c : Instr) : (s.defer c).strobe = s.strobe := by
  simp only [State.defer]; split <;> rfl
@[simp] theorem State.defer_dlWaits (c : Instr) : (s.defer c).dlWaits = s.dlWaits := by
  simp only [State.defer]; split <;> rfl
@[simp] theorem State.defer_pos (c : Instr) : (s.defer c).pos = s.pos := by
  simp only [State.defer]; split <;> rfl
@[simp] theorem State.defer_le (c : Instr) : (s.defer c).le = s.le := by
  simp only [State.defer]; split <;> rfl
@[simp] theorem State.defer_twin (c : Instr) : (s.defer c).twin = s.twin := by
  simp only [State.defer]; split <;> rfl
@[simp] theorem State.defer_eth (c : Instr) : (s.defer c).eth = s.eth := by
  simp only [State.defer]; split <;> rfl
@[simp] theorem State.defer_sc (c : Instr) : (s.defer c).sc = s.sc := by
  simp only [State.defer]; split <;> rfl

@[simp] theorem State.raiseEv_pending (k : Nat) : (s.raiseEv k).pending = s.pending := rfl
@[simp] theorem State.raiseEv_now (k : Nat) : (s.raiseEv k).now = s.now := rfl
@[simp] theorem State.raiseEv_cal (k : Nat) : (s.raiseEv k).cal = s.cal := rfl
@[simp] theorem State.raiseEv_inbox (k : Nat) : (s.raiseEv k).inbox = s.inbox := rfl
@[simp] theorem State.raiseEv_later (k : Nat) : (s.raiseEv k).later = s.later := rfl
@[simp] theorem State.raiseEv_regs (k : Nat) : (s.raiseEv k).regs = s.regs := rfl
@[simp] theorem State.raiseEv_mem (k : Nat) : (s.raiseEv k).mem = s.mem := rfl
@[simp] theorem State.raiseEv_upset (k : Nat) : (s.raiseEv k).upset = s.upset := rfl
@[simp] theorem State.raiseEv_ans (k : Nat) : (s.raiseEv k).ans = s.ans := rfl
@[simp] theorem State.raiseEv_fresh (k : Nat) : (s.raiseEv k).fresh = s.fresh := rfl
@[simp] theorem State.raiseEv_sys (k : Nat) : (s.raiseEv k).sys = s.sys := rfl
@[simp] theorem State.raiseEv_hp (k : Nat) : (s.raiseEv k).hp = s.hp := rfl
@[simp] theorem State.raiseEv_load (k : Nat) : (s.raiseEv k).load = s.load := rfl
@[simp] theorem State.raiseEv_pairs (k : Nat) : (s.raiseEv k).pairs = s.pairs := rfl
@[simp] theorem State.raiseEv_evc (k : Nat) : (s.raiseEv k).evc = s.evc := rfl
@[simp] theorem State.raiseEv_fl (k : Nat) : (s.raiseEv k).fl = s.fl := rfl
@[simp] theorem State.raiseEv_ix (k : Nat) : (s.raiseEv k).ix = s.ix := rfl
@[simp] theorem State.raiseEv_qtag (k : Nat) : (s.raiseEv k).qtag = s.qtag := rfl
@[simp] theorem State.raiseEv_dma (k : Nat) : (s.raiseEv k).dma = s.dma := rfl
@[simp] theorem State.raiseEv_dbg (k : Nat) : (s.raiseEv k).dbg = s.dbg := rfl
@[simp] theorem State.raiseEv_marks (k : Nat) : (s.raiseEv k).marks = s.marks := rfl
@[simp] theorem State.raiseEv_hits (k : Nat) : (s.raiseEv k).hits = s.hits := rfl
@[simp] theorem State.raiseEv_accs (k : Nat) : (s.raiseEv k).accs = s.accs := rfl
@[simp] theorem State.raiseEv_cyc (k : Nat) : (s.raiseEv k).cyc = s.cyc := rfl
@[simp] theorem State.raiseEv_old (k : Nat) : (s.raiseEv k).old = s.old := rfl
@[simp] theorem State.raiseEv_tmr (k : Nat) : (s.raiseEv k).tmr = s.tmr := rfl
@[simp] theorem State.raiseEv_tod (k : Nat) : (s.raiseEv k).tod = s.tod := rfl
@[simp] theorem State.raiseEv_adc (k : Nat) : (s.raiseEv k).adc = s.adc := rfl
@[simp] theorem State.raiseEv_rot (k : Nat) : (s.raiseEv k).rot = s.rot := rfl
@[simp] theorem State.raiseEv_cmps (k : Nat) : (s.raiseEv k).cmps = s.cmps := rfl
@[simp] theorem State.raiseEv_pwm (k : Nat) : (s.raiseEv k).pwm = s.pwm := rfl
@[simp] theorem State.raiseEv_strobe (k : Nat) : (s.raiseEv k).strobe = s.strobe := rfl
@[simp] theorem State.raiseEv_dlWaits (k : Nat) : (s.raiseEv k).dlWaits = s.dlWaits := rfl
@[simp] theorem State.raiseEv_pos (k : Nat) : (s.raiseEv k).pos = s.pos := rfl
@[simp] theorem State.raiseEv_le (k : Nat) : (s.raiseEv k).le = s.le := rfl
@[simp] theorem State.raiseEv_twin (k : Nat) : (s.raiseEv k).twin = s.twin := rfl
@[simp] theorem State.raiseEv_eth (k : Nat) : (s.raiseEv k).eth = s.eth := rfl
@[simp] theorem State.raiseEv_sc (k : Nat) : (s.raiseEv k).sc = s.sc := rfl

@[simp] theorem State.raiseData_pending (k : Nat) (w : Word) : (s.raiseData k w).pending = s.pending := rfl
@[simp] theorem State.raiseData_now (k : Nat) (w : Word) : (s.raiseData k w).now = s.now := rfl
@[simp] theorem State.raiseData_cal (k : Nat) (w : Word) : (s.raiseData k w).cal = s.cal := rfl
@[simp] theorem State.raiseData_inbox (k : Nat) (w : Word) : (s.raiseData k w).inbox = s.inbox := rfl
@[simp] theorem State.raiseData_later (k : Nat) (w : Word) : (s.raiseData k w).later = s.later := rfl
@[simp] theorem State.raiseData_regs (k : Nat) (w : Word) : (s.raiseData k w).regs = s.regs := rfl
@[simp] theorem State.raiseData_mem (k : Nat) (w : Word) : (s.raiseData k w).mem = s.mem := rfl
@[simp] theorem State.raiseData_upset (k : Nat) (w : Word) : (s.raiseData k w).upset = s.upset := rfl
@[simp] theorem State.raiseData_ans (k : Nat) (w : Word) : (s.raiseData k w).ans = s.ans := rfl
@[simp] theorem State.raiseData_fresh (k : Nat) (w : Word) : (s.raiseData k w).fresh = s.fresh := rfl
@[simp] theorem State.raiseData_sys (k : Nat) (w : Word) : (s.raiseData k w).sys = s.sys := rfl
@[simp] theorem State.raiseData_hp (k : Nat) (w : Word) : (s.raiseData k w).hp = s.hp := rfl
@[simp] theorem State.raiseData_load (k : Nat) (w : Word) : (s.raiseData k w).load = s.load := rfl
@[simp] theorem State.raiseData_pairs (k : Nat) (w : Word) : (s.raiseData k w).pairs = s.pairs := rfl
@[simp] theorem State.raiseData_evc (k : Nat) (w : Word) : (s.raiseData k w).evc = s.evc := rfl
@[simp] theorem State.raiseData_fl (k : Nat) (w : Word) : (s.raiseData k w).fl = s.fl := rfl
@[simp] theorem State.raiseData_ix (k : Nat) (w : Word) : (s.raiseData k w).ix = s.ix := rfl
@[simp] theorem State.raiseData_qtag (k : Nat) (w : Word) : (s.raiseData k w).qtag = s.qtag := rfl
@[simp] theorem State.raiseData_dma (k : Nat) (w : Word) : (s.raiseData k w).dma = s.dma := rfl
@[simp] theorem State.raiseData_dbg (k : Nat) (w : Word) : (s.raiseData k w).dbg = s.dbg := rfl
@[simp] theorem State.raiseData_marks (k : Nat) (w : Word) : (s.raiseData k w).marks = s.marks := rfl
@[simp] theorem State.raiseData_hits (k : Nat) (w : Word) : (s.raiseData k w).hits = s.hits := rfl
@[simp] theorem State.raiseData_accs (k : Nat) (w : Word) : (s.raiseData k w).accs = s.accs := rfl
@[simp] theorem State.raiseData_cyc (k : Nat) (w : Word) : (s.raiseData k w).cyc = s.cyc := rfl
@[simp] theorem State.raiseData_old (k : Nat) (w : Word) : (s.raiseData k w).old = s.old := rfl
@[simp] theorem State.raiseData_tmr (k : Nat) (w : Word) : (s.raiseData k w).tmr = s.tmr := rfl
@[simp] theorem State.raiseData_tod (k : Nat) (w : Word) : (s.raiseData k w).tod = s.tod := rfl
@[simp] theorem State.raiseData_adc (k : Nat) (w : Word) : (s.raiseData k w).adc = s.adc := rfl
@[simp] theorem State.raiseData_rot (k : Nat) (w : Word) : (s.raiseData k w).rot = s.rot := rfl
@[simp] theorem State.raiseData_cmps (k : Nat) (w : Word) : (s.raiseData k w).cmps = s.cmps := rfl
@[simp] theorem State.raiseData_pwm (k : Nat) (w : Word) : (s.raiseData k w).pwm = s.pwm := rfl
@[simp] theorem State.raiseData_strobe (k : Nat) (w : Word) : (s.raiseData k w).strobe = s.strobe := rfl
@[simp] theorem State.raiseData_dlWaits (k : Nat) (w : Word) : (s.raiseData k w).dlWaits = s.dlWaits := rfl
@[simp] theorem State.raiseData_pos (k : Nat) (w : Word) : (s.raiseData k w).pos = s.pos := rfl
@[simp] theorem State.raiseData_le (k : Nat) (w : Word) : (s.raiseData k w).le = s.le := rfl
@[simp] theorem State.raiseData_twin (k : Nat) (w : Word) : (s.raiseData k w).twin = s.twin := rfl
@[simp] theorem State.raiseData_eth (k : Nat) (w : Word) : (s.raiseData k w).eth = s.eth := rfl
@[simp] theorem State.raiseData_sc (k : Nat) (w : Word) : (s.raiseData k w).sc = s.sc := rfl

@[simp] theorem State.setLv_pending (k : Nat) (b : Bool) : (s.setLv k b).pending = s.pending := rfl
@[simp] theorem State.setLv_now (k : Nat) (b : Bool) : (s.setLv k b).now = s.now := rfl
@[simp] theorem State.setLv_cal (k : Nat) (b : Bool) : (s.setLv k b).cal = s.cal := rfl
@[simp] theorem State.setLv_inbox (k : Nat) (b : Bool) : (s.setLv k b).inbox = s.inbox := rfl
@[simp] theorem State.setLv_later (k : Nat) (b : Bool) : (s.setLv k b).later = s.later := rfl
@[simp] theorem State.setLv_regs (k : Nat) (b : Bool) : (s.setLv k b).regs = s.regs := rfl
@[simp] theorem State.setLv_mem (k : Nat) (b : Bool) : (s.setLv k b).mem = s.mem := rfl
@[simp] theorem State.setLv_upset (k : Nat) (b : Bool) : (s.setLv k b).upset = s.upset := rfl
@[simp] theorem State.setLv_ans (k : Nat) (b : Bool) : (s.setLv k b).ans = s.ans := rfl
@[simp] theorem State.setLv_fresh (k : Nat) (b : Bool) : (s.setLv k b).fresh = s.fresh := rfl
@[simp] theorem State.setLv_sys (k : Nat) (b : Bool) : (s.setLv k b).sys = s.sys := rfl
@[simp] theorem State.setLv_hp (k : Nat) (b : Bool) : (s.setLv k b).hp = s.hp := rfl
@[simp] theorem State.setLv_load (k : Nat) (b : Bool) : (s.setLv k b).load = s.load := rfl
@[simp] theorem State.setLv_pairs (k : Nat) (b : Bool) : (s.setLv k b).pairs = s.pairs := rfl
@[simp] theorem State.setLv_evc (k : Nat) (b : Bool) : (s.setLv k b).evc = s.evc := rfl
@[simp] theorem State.setLv_fl (k : Nat) (b : Bool) : (s.setLv k b).fl = s.fl := rfl
@[simp] theorem State.setLv_ix (k : Nat) (b : Bool) : (s.setLv k b).ix = s.ix := rfl
@[simp] theorem State.setLv_qtag (k : Nat) (b : Bool) : (s.setLv k b).qtag = s.qtag := rfl
@[simp] theorem State.setLv_dma (k : Nat) (b : Bool) : (s.setLv k b).dma = s.dma := rfl
@[simp] theorem State.setLv_dbg (k : Nat) (b : Bool) : (s.setLv k b).dbg = s.dbg := rfl
@[simp] theorem State.setLv_marks (k : Nat) (b : Bool) : (s.setLv k b).marks = s.marks := rfl
@[simp] theorem State.setLv_hits (k : Nat) (b : Bool) : (s.setLv k b).hits = s.hits := rfl
@[simp] theorem State.setLv_accs (k : Nat) (b : Bool) : (s.setLv k b).accs = s.accs := rfl
@[simp] theorem State.setLv_cyc (k : Nat) (b : Bool) : (s.setLv k b).cyc = s.cyc := rfl
@[simp] theorem State.setLv_old (k : Nat) (b : Bool) : (s.setLv k b).old = s.old := rfl
@[simp] theorem State.setLv_tmr (k : Nat) (b : Bool) : (s.setLv k b).tmr = s.tmr := rfl
@[simp] theorem State.setLv_tod (k : Nat) (b : Bool) : (s.setLv k b).tod = s.tod := rfl
@[simp] theorem State.setLv_adc (k : Nat) (b : Bool) : (s.setLv k b).adc = s.adc := rfl
@[simp] theorem State.setLv_rot (k : Nat) (b : Bool) : (s.setLv k b).rot = s.rot := rfl
@[simp] theorem State.setLv_cmps (k : Nat) (b : Bool) : (s.setLv k b).cmps = s.cmps := rfl
@[simp] theorem State.setLv_pwm (k : Nat) (b : Bool) : (s.setLv k b).pwm = s.pwm := rfl
@[simp] theorem State.setLv_strobe (k : Nat) (b : Bool) : (s.setLv k b).strobe = s.strobe := rfl
@[simp] theorem State.setLv_dlWaits (k : Nat) (b : Bool) : (s.setLv k b).dlWaits = s.dlWaits := rfl
@[simp] theorem State.setLv_pos (k : Nat) (b : Bool) : (s.setLv k b).pos = s.pos := rfl
@[simp] theorem State.setLv_le (k : Nat) (b : Bool) : (s.setLv k b).le = s.le := rfl
@[simp] theorem State.setLv_twin (k : Nat) (b : Bool) : (s.setLv k b).twin = s.twin := rfl
@[simp] theorem State.setLv_eth (k : Nat) (b : Bool) : (s.setLv k b).eth = s.eth := rfl
@[simp] theorem State.setLv_sc (k : Nat) (b : Bool) : (s.setLv k b).sc = s.sc := rfl

@[simp] theorem State.relv_pending (k : Nat) (base b : Bool) : (s.relv k base b).pending = s.pending := by
  simp only [State.relv]; split <;> rfl
@[simp] theorem State.relv_now (k : Nat) (base b : Bool) : (s.relv k base b).now = s.now := by
  simp only [State.relv]; split <;> rfl
@[simp] theorem State.relv_cal (k : Nat) (base b : Bool) : (s.relv k base b).cal = s.cal := by
  simp only [State.relv]; split <;> rfl
@[simp] theorem State.relv_inbox (k : Nat) (base b : Bool) : (s.relv k base b).inbox = s.inbox := by
  simp only [State.relv]; split <;> rfl
@[simp] theorem State.relv_later (k : Nat) (base b : Bool) : (s.relv k base b).later = s.later := by
  simp only [State.relv]; split <;> rfl
@[simp] theorem State.relv_regs (k : Nat) (base b : Bool) : (s.relv k base b).regs = s.regs := by
  simp only [State.relv]; split <;> rfl
@[simp] theorem State.relv_mem (k : Nat) (base b : Bool) : (s.relv k base b).mem = s.mem := by
  simp only [State.relv]; split <;> rfl
@[simp] theorem State.relv_upset (k : Nat) (base b : Bool) : (s.relv k base b).upset = s.upset := by
  simp only [State.relv]; split <;> rfl
@[simp] theorem State.relv_ans (k : Nat) (base b : Bool) : (s.relv k base b).ans = s.ans := by
  simp only [State.relv]; split <;> rfl
@[simp] theorem State.relv_fresh (k : Nat) (base b : Bool) : (s.relv k base b).fresh = s.fresh := by
  simp only [State.relv]; split <;> rfl
@[simp] theorem State.relv_sys (k : Nat) (base b : Bool) : (s.relv k base b).sys = s.sys := by
  simp only [State.relv]; split <;> rfl
@[simp] theorem State.relv_hp (k : Nat) (base b : Bool) : (s.relv k base b).hp = s.hp := by
  simp only [State.relv]; split <;> rfl
@[simp] theorem State.relv_load (k : Nat) (base b : Bool) : (s.relv k base b).load = s.load := by
  simp only [State.relv]; split <;> rfl
@[simp] theorem State.relv_pairs (k : Nat) (base b : Bool) : (s.relv k base b).pairs = s.pairs := by
  simp only [State.relv]; split <;> rfl
@[simp] theorem State.relv_evc (k : Nat) (base b : Bool) : (s.relv k base b).evc = s.evc := by
  simp only [State.relv]; split <;> rfl
@[simp] theorem State.relv_fl (k : Nat) (base b : Bool) : (s.relv k base b).fl = s.fl := by
  simp only [State.relv]; split <;> rfl
@[simp] theorem State.relv_ix (k : Nat) (base b : Bool) : (s.relv k base b).ix = s.ix := by
  simp only [State.relv]; split <;> rfl
@[simp] theorem State.relv_qtag (k : Nat) (base b : Bool) : (s.relv k base b).qtag = s.qtag := by
  simp only [State.relv]; split <;> rfl
@[simp] theorem State.relv_dma (k : Nat) (base b : Bool) : (s.relv k base b).dma = s.dma := by
  simp only [State.relv]; split <;> rfl
@[simp] theorem State.relv_dbg (k : Nat) (base b : Bool) : (s.relv k base b).dbg = s.dbg := by
  simp only [State.relv]; split <;> rfl
@[simp] theorem State.relv_marks (k : Nat) (base b : Bool) : (s.relv k base b).marks = s.marks := by
  simp only [State.relv]; split <;> rfl
@[simp] theorem State.relv_hits (k : Nat) (base b : Bool) : (s.relv k base b).hits = s.hits := by
  simp only [State.relv]; split <;> rfl
@[simp] theorem State.relv_accs (k : Nat) (base b : Bool) : (s.relv k base b).accs = s.accs := by
  simp only [State.relv]; split <;> rfl
@[simp] theorem State.relv_cyc (k : Nat) (base b : Bool) : (s.relv k base b).cyc = s.cyc := by
  simp only [State.relv]; split <;> rfl
@[simp] theorem State.relv_old (k : Nat) (base b : Bool) : (s.relv k base b).old = s.old := by
  simp only [State.relv]; split <;> rfl
@[simp] theorem State.relv_tmr (k : Nat) (base b : Bool) : (s.relv k base b).tmr = s.tmr := by
  simp only [State.relv]; split <;> rfl
@[simp] theorem State.relv_tod (k : Nat) (base b : Bool) : (s.relv k base b).tod = s.tod := by
  simp only [State.relv]; split <;> rfl
@[simp] theorem State.relv_adc (k : Nat) (base b : Bool) : (s.relv k base b).adc = s.adc := by
  simp only [State.relv]; split <;> rfl
@[simp] theorem State.relv_rot (k : Nat) (base b : Bool) : (s.relv k base b).rot = s.rot := by
  simp only [State.relv]; split <;> rfl
@[simp] theorem State.relv_cmps (k : Nat) (base b : Bool) : (s.relv k base b).cmps = s.cmps := by
  simp only [State.relv]; split <;> rfl
@[simp] theorem State.relv_pwm (k : Nat) (base b : Bool) : (s.relv k base b).pwm = s.pwm := by
  simp only [State.relv]; split <;> rfl
@[simp] theorem State.relv_strobe (k : Nat) (base b : Bool) : (s.relv k base b).strobe = s.strobe := by
  simp only [State.relv]; split <;> rfl
@[simp] theorem State.relv_dlWaits (k : Nat) (base b : Bool) : (s.relv k base b).dlWaits = s.dlWaits := by
  simp only [State.relv]; split <;> rfl
@[simp] theorem State.relv_pos (k : Nat) (base b : Bool) : (s.relv k base b).pos = s.pos := by
  simp only [State.relv]; split <;> rfl
@[simp] theorem State.relv_le (k : Nat) (base b : Bool) : (s.relv k base b).le = s.le := by
  simp only [State.relv]; split <;> rfl
@[simp] theorem State.relv_twin (k : Nat) (base b : Bool) : (s.relv k base b).twin = s.twin := by
  simp only [State.relv]; split <;> rfl
@[simp] theorem State.relv_eth (k : Nat) (base b : Bool) : (s.relv k base b).eth = s.eth := by
  simp only [State.relv]; split <;> rfl
@[simp] theorem State.relv_sc (k : Nat) (base b : Bool) : (s.relv k base b).sc = s.sc := by
  simp only [State.relv]; split <;> rfl

@[simp] theorem State.draw_pending : s.draw.pending = s.pending := rfl
@[simp] theorem State.draw_now : s.draw.now = s.now := rfl
@[simp] theorem State.draw_cal : s.draw.cal = s.cal := rfl
@[simp] theorem State.draw_inbox : s.draw.inbox = s.inbox := rfl
@[simp] theorem State.draw_later : s.draw.later = s.later := rfl
@[simp] theorem State.draw_regs : s.draw.regs = s.regs := rfl
@[simp] theorem State.draw_mem : s.draw.mem = s.mem := rfl
@[simp] theorem State.draw_upset : s.draw.upset = s.upset := rfl
@[simp] theorem State.draw_ans : s.draw.ans = s.ans := rfl
@[simp] theorem State.draw_sys : s.draw.sys = s.sys := rfl
@[simp] theorem State.draw_hp : s.draw.hp = s.hp := rfl
@[simp] theorem State.draw_load : s.draw.load = s.load := rfl
@[simp] theorem State.draw_mx : s.draw.mx = s.mx := rfl
@[simp] theorem State.draw_pairs : s.draw.pairs = s.pairs := rfl
@[simp] theorem State.draw_evc : s.draw.evc = s.evc := rfl
@[simp] theorem State.draw_fl : s.draw.fl = s.fl := rfl
@[simp] theorem State.draw_ix : s.draw.ix = s.ix := rfl
@[simp] theorem State.draw_qtag : s.draw.qtag = s.qtag := rfl
@[simp] theorem State.draw_dma : s.draw.dma = s.dma := rfl
@[simp] theorem State.draw_dbg : s.draw.dbg = s.dbg := rfl
@[simp] theorem State.draw_marks : s.draw.marks = s.marks := rfl
@[simp] theorem State.draw_hits : s.draw.hits = s.hits := rfl
@[simp] theorem State.draw_accs : s.draw.accs = s.accs := rfl
@[simp] theorem State.draw_cyc : s.draw.cyc = s.cyc := rfl
@[simp] theorem State.draw_old : s.draw.old = s.old := rfl
@[simp] theorem State.draw_tmr : s.draw.tmr = s.tmr := rfl
@[simp] theorem State.draw_tod : s.draw.tod = s.tod := rfl
@[simp] theorem State.draw_adc : s.draw.adc = s.adc := rfl
@[simp] theorem State.draw_rot : s.draw.rot = s.rot := rfl
@[simp] theorem State.draw_cmps : s.draw.cmps = s.cmps := rfl
@[simp] theorem State.draw_pwm : s.draw.pwm = s.pwm := rfl
@[simp] theorem State.draw_strobe : s.draw.strobe = s.strobe := rfl
@[simp] theorem State.draw_dlWaits : s.draw.dlWaits = s.dlWaits := rfl
@[simp] theorem State.draw_pos : s.draw.pos = s.pos := rfl
@[simp] theorem State.draw_le : s.draw.le = s.le := rfl
@[simp] theorem State.draw_twin : s.draw.twin = s.twin := rfl
@[simp] theorem State.draw_eth : s.draw.eth = s.eth := rfl
@[simp] theorem State.draw_sc : s.draw.sc = s.sc := rfl

@[simp] theorem State.setPair_pending (p : Pair) (x : PairSt) : (s.setPair p x).pending = s.pending := rfl
@[simp] theorem State.setPair_now (p : Pair) (x : PairSt) : (s.setPair p x).now = s.now := rfl
@[simp] theorem State.setPair_cal (p : Pair) (x : PairSt) : (s.setPair p x).cal = s.cal := rfl
@[simp] theorem State.setPair_inbox (p : Pair) (x : PairSt) : (s.setPair p x).inbox = s.inbox := rfl
@[simp] theorem State.setPair_later (p : Pair) (x : PairSt) : (s.setPair p x).later = s.later := rfl
@[simp] theorem State.setPair_regs (p : Pair) (x : PairSt) : (s.setPair p x).regs = s.regs := rfl
@[simp] theorem State.setPair_mem (p : Pair) (x : PairSt) : (s.setPair p x).mem = s.mem := rfl
@[simp] theorem State.setPair_upset (p : Pair) (x : PairSt) : (s.setPair p x).upset = s.upset := rfl
@[simp] theorem State.setPair_ans (p : Pair) (x : PairSt) : (s.setPair p x).ans = s.ans := rfl
@[simp] theorem State.setPair_fresh (p : Pair) (x : PairSt) : (s.setPair p x).fresh = s.fresh := rfl
@[simp] theorem State.setPair_sys (p : Pair) (x : PairSt) : (s.setPair p x).sys = s.sys := rfl
@[simp] theorem State.setPair_hp (p : Pair) (x : PairSt) : (s.setPair p x).hp = s.hp := rfl
@[simp] theorem State.setPair_load (p : Pair) (x : PairSt) : (s.setPair p x).load = s.load := rfl
@[simp] theorem State.setPair_mx (p : Pair) (x : PairSt) : (s.setPair p x).mx = s.mx := rfl
@[simp] theorem State.setPair_evc (p : Pair) (x : PairSt) : (s.setPair p x).evc = s.evc := rfl
@[simp] theorem State.setPair_fl (p : Pair) (x : PairSt) : (s.setPair p x).fl = s.fl := rfl
@[simp] theorem State.setPair_ix (p : Pair) (x : PairSt) : (s.setPair p x).ix = s.ix := rfl
@[simp] theorem State.setPair_qtag (p : Pair) (x : PairSt) : (s.setPair p x).qtag = s.qtag := rfl
@[simp] theorem State.setPair_dma (p : Pair) (x : PairSt) : (s.setPair p x).dma = s.dma := rfl
@[simp] theorem State.setPair_dbg (p : Pair) (x : PairSt) : (s.setPair p x).dbg = s.dbg := rfl
@[simp] theorem State.setPair_marks (p : Pair) (x : PairSt) : (s.setPair p x).marks = s.marks := rfl
@[simp] theorem State.setPair_hits (p : Pair) (x : PairSt) : (s.setPair p x).hits = s.hits := rfl
@[simp] theorem State.setPair_accs (p : Pair) (x : PairSt) : (s.setPair p x).accs = s.accs := rfl
@[simp] theorem State.setPair_cyc (p : Pair) (x : PairSt) : (s.setPair p x).cyc = s.cyc := rfl
@[simp] theorem State.setPair_old (p : Pair) (x : PairSt) : (s.setPair p x).old = s.old := rfl
@[simp] theorem State.setPair_tmr (p : Pair) (x : PairSt) : (s.setPair p x).tmr = s.tmr := rfl
@[simp] theorem State.setPair_tod (p : Pair) (x : PairSt) : (s.setPair p x).tod = s.tod := rfl
@[simp] theorem State.setPair_adc (p : Pair) (x : PairSt) : (s.setPair p x).adc = s.adc := rfl
@[simp] theorem State.setPair_rot (p : Pair) (x : PairSt) : (s.setPair p x).rot = s.rot := rfl
@[simp] theorem State.setPair_cmps (p : Pair) (x : PairSt) : (s.setPair p x).cmps = s.cmps := rfl
@[simp] theorem State.setPair_pwm (p : Pair) (x : PairSt) : (s.setPair p x).pwm = s.pwm := rfl
@[simp] theorem State.setPair_strobe (p : Pair) (x : PairSt) : (s.setPair p x).strobe = s.strobe := rfl
@[simp] theorem State.setPair_dlWaits (p : Pair) (x : PairSt) : (s.setPair p x).dlWaits = s.dlWaits := rfl
@[simp] theorem State.setPair_pos (p : Pair) (x : PairSt) : (s.setPair p x).pos = s.pos := rfl
@[simp] theorem State.setPair_le (p : Pair) (x : PairSt) : (s.setPair p x).le = s.le := rfl
@[simp] theorem State.setPair_twin (p : Pair) (x : PairSt) : (s.setPair p x).twin = s.twin := rfl
@[simp] theorem State.setPair_eth (p : Pair) (x : PairSt) : (s.setPair p x).eth = s.eth := rfl
@[simp] theorem State.setPair_sc (p : Pair) (x : PairSt) : (s.setPair p x).sc = s.sc := rfl

@[simp] theorem State.answer_pending (w : Word) : (s.answer w).pending = s.pending := rfl
@[simp] theorem State.answer_now (w : Word) : (s.answer w).now = s.now := rfl
@[simp] theorem State.answer_cal (w : Word) : (s.answer w).cal = s.cal := rfl
@[simp] theorem State.answer_inbox (w : Word) : (s.answer w).inbox = s.inbox := rfl
@[simp] theorem State.answer_later (w : Word) : (s.answer w).later = s.later := rfl
@[simp] theorem State.answer_regs (w : Word) : (s.answer w).regs = s.regs := rfl
@[simp] theorem State.answer_mem (w : Word) : (s.answer w).mem = s.mem := rfl
@[simp] theorem State.answer_upset (w : Word) : (s.answer w).upset = s.upset := rfl
@[simp] theorem State.answer_fresh (w : Word) : (s.answer w).fresh = s.fresh := rfl
@[simp] theorem State.answer_sys (w : Word) : (s.answer w).sys = s.sys := rfl
@[simp] theorem State.answer_hp (w : Word) : (s.answer w).hp = s.hp := rfl
@[simp] theorem State.answer_load (w : Word) : (s.answer w).load = s.load := rfl
@[simp] theorem State.answer_mx (w : Word) : (s.answer w).mx = s.mx := rfl
@[simp] theorem State.answer_pairs (w : Word) : (s.answer w).pairs = s.pairs := rfl
@[simp] theorem State.answer_evc (w : Word) : (s.answer w).evc = s.evc := rfl
@[simp] theorem State.answer_fl (w : Word) : (s.answer w).fl = s.fl := rfl
@[simp] theorem State.answer_ix (w : Word) : (s.answer w).ix = s.ix := rfl
@[simp] theorem State.answer_qtag (w : Word) : (s.answer w).qtag = s.qtag := rfl
@[simp] theorem State.answer_dma (w : Word) : (s.answer w).dma = s.dma := rfl
@[simp] theorem State.answer_dbg (w : Word) : (s.answer w).dbg = s.dbg := rfl
@[simp] theorem State.answer_marks (w : Word) : (s.answer w).marks = s.marks := rfl
@[simp] theorem State.answer_hits (w : Word) : (s.answer w).hits = s.hits := rfl
@[simp] theorem State.answer_accs (w : Word) : (s.answer w).accs = s.accs := rfl
@[simp] theorem State.answer_cyc (w : Word) : (s.answer w).cyc = s.cyc := rfl
@[simp] theorem State.answer_old (w : Word) : (s.answer w).old = s.old := rfl
@[simp] theorem State.answer_tmr (w : Word) : (s.answer w).tmr = s.tmr := rfl
@[simp] theorem State.answer_tod (w : Word) : (s.answer w).tod = s.tod := rfl
@[simp] theorem State.answer_adc (w : Word) : (s.answer w).adc = s.adc := rfl
@[simp] theorem State.answer_rot (w : Word) : (s.answer w).rot = s.rot := rfl
@[simp] theorem State.answer_cmps (w : Word) : (s.answer w).cmps = s.cmps := rfl
@[simp] theorem State.answer_pwm (w : Word) : (s.answer w).pwm = s.pwm := rfl
@[simp] theorem State.answer_strobe (w : Word) : (s.answer w).strobe = s.strobe := rfl
@[simp] theorem State.answer_dlWaits (w : Word) : (s.answer w).dlWaits = s.dlWaits := rfl
@[simp] theorem State.answer_pos (w : Word) : (s.answer w).pos = s.pos := rfl
@[simp] theorem State.answer_le (w : Word) : (s.answer w).le = s.le := rfl
@[simp] theorem State.answer_twin (w : Word) : (s.answer w).twin = s.twin := rfl
@[simp] theorem State.answer_eth (w : Word) : (s.answer w).eth = s.eth := rfl
@[simp] theorem State.answer_sc (w : Word) : (s.answer w).sc = s.sc := rfl

@[simp] theorem State.busError_pending : s.busError.pending = s.pending := rfl
@[simp] theorem State.busError_now : s.busError.now = s.now := rfl
@[simp] theorem State.busError_cal : s.busError.cal = s.cal := rfl
@[simp] theorem State.busError_inbox : s.busError.inbox = s.inbox := rfl
@[simp] theorem State.busError_later : s.busError.later = s.later := rfl
@[simp] theorem State.busError_regs : s.busError.regs = s.regs := rfl
@[simp] theorem State.busError_mem : s.busError.mem = s.mem := rfl
@[simp] theorem State.busError_upset : s.busError.upset = s.upset := rfl
@[simp] theorem State.busError_fresh : s.busError.fresh = s.fresh := rfl
@[simp] theorem State.busError_sys : s.busError.sys = s.sys := rfl
@[simp] theorem State.busError_hp : s.busError.hp = s.hp := rfl
@[simp] theorem State.busError_load : s.busError.load = s.load := rfl
@[simp] theorem State.busError_mx : s.busError.mx = s.mx := rfl
@[simp] theorem State.busError_pairs : s.busError.pairs = s.pairs := rfl
@[simp] theorem State.busError_evc : s.busError.evc = s.evc := rfl
@[simp] theorem State.busError_fl : s.busError.fl = s.fl := rfl
@[simp] theorem State.busError_ix : s.busError.ix = s.ix := rfl
@[simp] theorem State.busError_qtag : s.busError.qtag = s.qtag := rfl
@[simp] theorem State.busError_dma : s.busError.dma = s.dma := rfl
@[simp] theorem State.busError_dbg : s.busError.dbg = s.dbg := rfl
@[simp] theorem State.busError_marks : s.busError.marks = s.marks := rfl
@[simp] theorem State.busError_hits : s.busError.hits = s.hits := rfl
@[simp] theorem State.busError_accs : s.busError.accs = s.accs := rfl
@[simp] theorem State.busError_cyc : s.busError.cyc = s.cyc := rfl
@[simp] theorem State.busError_old : s.busError.old = s.old := rfl
@[simp] theorem State.busError_tmr : s.busError.tmr = s.tmr := rfl
@[simp] theorem State.busError_tod : s.busError.tod = s.tod := rfl
@[simp] theorem State.busError_adc : s.busError.adc = s.adc := rfl
@[simp] theorem State.busError_rot : s.busError.rot = s.rot := rfl
@[simp] theorem State.busError_cmps : s.busError.cmps = s.cmps := rfl
@[simp] theorem State.busError_pwm : s.busError.pwm = s.pwm := rfl
@[simp] theorem State.busError_strobe : s.busError.strobe = s.strobe := rfl
@[simp] theorem State.busError_dlWaits : s.busError.dlWaits = s.dlWaits := rfl
@[simp] theorem State.busError_pos : s.busError.pos = s.pos := rfl
@[simp] theorem State.busError_le : s.busError.le = s.le := rfl
@[simp] theorem State.busError_twin : s.busError.twin = s.twin := rfl
@[simp] theorem State.busError_eth : s.busError.eth = s.eth := rfl
@[simp] theorem State.busError_sc : s.busError.sc = s.sc := rfl

@[simp] theorem State.access_pending (m : Fin 13) : (s.access m).pending = s.pending := by
  simp only [State.access]; split <;> rfl
@[simp] theorem State.access_now (m : Fin 13) : (s.access m).now = s.now := by
  simp only [State.access]; split <;> rfl
@[simp] theorem State.access_cal (m : Fin 13) : (s.access m).cal = s.cal := by
  simp only [State.access]; split <;> rfl
@[simp] theorem State.access_inbox (m : Fin 13) : (s.access m).inbox = s.inbox := by
  simp only [State.access]; split <;> rfl
@[simp] theorem State.access_later (m : Fin 13) : (s.access m).later = s.later := by
  simp only [State.access]; split <;> rfl
@[simp] theorem State.access_regs (m : Fin 13) : (s.access m).regs = s.regs := by
  simp only [State.access]; split <;> rfl
@[simp] theorem State.access_mem (m : Fin 13) : (s.access m).mem = s.mem := by
  simp only [State.access]; split <;> rfl
@[simp] theorem State.access_upset (m : Fin 13) : (s.access m).upset = s.upset := by
  simp only [State.access]; split <;> rfl
@[simp] theorem State.access_ans (m : Fin 13) : (s.access m).ans = s.ans := by
  simp only [State.access]; split <;> rfl
@[simp] theorem State.access_fresh (m : Fin 13) : (s.access m).fresh = s.fresh := by
  simp only [State.access]; split <;> rfl
@[simp] theorem State.access_sys (m : Fin 13) : (s.access m).sys = s.sys := by
  simp only [State.access]; split <;> rfl
@[simp] theorem State.access_hp (m : Fin 13) : (s.access m).hp = s.hp := by
  simp only [State.access]; split <;> rfl
@[simp] theorem State.access_load (m : Fin 13) : (s.access m).load = s.load := by
  simp only [State.access]; split <;> rfl
@[simp] theorem State.access_mx (m : Fin 13) : (s.access m).mx = s.mx := by
  simp only [State.access]; split <;> rfl
@[simp] theorem State.access_pairs (m : Fin 13) : (s.access m).pairs = s.pairs := by
  simp only [State.access]; split <;> rfl
@[simp] theorem State.access_evc (m : Fin 13) : (s.access m).evc = s.evc := by
  simp only [State.access]; split <;> rfl
@[simp] theorem State.access_fl (m : Fin 13) : (s.access m).fl = s.fl := by
  simp only [State.access]; split <;> rfl
@[simp] theorem State.access_ix (m : Fin 13) : (s.access m).ix = s.ix := by
  simp only [State.access]; split <;> rfl
@[simp] theorem State.access_qtag (m : Fin 13) : (s.access m).qtag = s.qtag := by
  simp only [State.access]; split <;> rfl
@[simp] theorem State.access_dma (m : Fin 13) : (s.access m).dma = s.dma := by
  simp only [State.access]; split <;> rfl
@[simp] theorem State.access_dbg (m : Fin 13) : (s.access m).dbg = s.dbg := by
  simp only [State.access]; split <;> rfl
@[simp] theorem State.access_marks (m : Fin 13) : (s.access m).marks = s.marks := by
  simp only [State.access]; split <;> rfl
@[simp] theorem State.access_hits (m : Fin 13) : (s.access m).hits = s.hits := by
  simp only [State.access]; split <;> rfl
@[simp] theorem State.access_old (m : Fin 13) : (s.access m).old = s.old := by
  simp only [State.access]; split <;> rfl
@[simp] theorem State.access_tmr (m : Fin 13) : (s.access m).tmr = s.tmr := by
  simp only [State.access]; split <;> rfl
@[simp] theorem State.access_tod (m : Fin 13) : (s.access m).tod = s.tod := by
  simp only [State.access]; split <;> rfl
@[simp] theorem State.access_adc (m : Fin 13) : (s.access m).adc = s.adc := by
  simp only [State.access]; split <;> rfl
@[simp] theorem State.access_rot (m : Fin 13) : (s.access m).rot = s.rot := by
  simp only [State.access]; split <;> rfl
@[simp] theorem State.access_cmps (m : Fin 13) : (s.access m).cmps = s.cmps := by
  simp only [State.access]; split <;> rfl
@[simp] theorem State.access_pwm (m : Fin 13) : (s.access m).pwm = s.pwm := by
  simp only [State.access]; split <;> rfl
@[simp] theorem State.access_strobe (m : Fin 13) : (s.access m).strobe = s.strobe := by
  simp only [State.access]; split <;> rfl
@[simp] theorem State.access_dlWaits (m : Fin 13) : (s.access m).dlWaits = s.dlWaits := by
  simp only [State.access]; split <;> rfl
@[simp] theorem State.access_pos (m : Fin 13) : (s.access m).pos = s.pos := by
  simp only [State.access]; split <;> rfl
@[simp] theorem State.access_le (m : Fin 13) : (s.access m).le = s.le := by
  simp only [State.access]; split <;> rfl
@[simp] theorem State.access_twin (m : Fin 13) : (s.access m).twin = s.twin := by
  simp only [State.access]; split <;> rfl
@[simp] theorem State.access_eth (m : Fin 13) : (s.access m).eth = s.eth := by
  simp only [State.access]; split <;> rfl
@[simp] theorem State.access_sc (m : Fin 13) : (s.access m).sc = s.sc := by
  simp only [State.access]; split <;> rfl

@[simp] theorem State.opened_pending (m : Fin 13) : (s.opened m).pending = s.pending := by
  simp only [State.opened, State.access]; split <;> rfl
@[simp] theorem State.opened_now (m : Fin 13) : (s.opened m).now = s.now := by
  simp only [State.opened, State.access]; split <;> rfl
@[simp] theorem State.opened_cal (m : Fin 13) : (s.opened m).cal = s.cal := by
  simp only [State.opened, State.access]; split <;> rfl
@[simp] theorem State.opened_inbox (m : Fin 13) : (s.opened m).inbox = s.inbox := by
  simp only [State.opened, State.access]; split <;> rfl
@[simp] theorem State.opened_later (m : Fin 13) : (s.opened m).later = s.later := by
  simp only [State.opened, State.access]; split <;> rfl
@[simp] theorem State.opened_regs (m : Fin 13) : (s.opened m).regs = s.regs := by
  simp only [State.opened, State.access]; split <;> rfl
@[simp] theorem State.opened_mem (m : Fin 13) : (s.opened m).mem = s.mem := by
  simp only [State.opened, State.access]; split <;> rfl
@[simp] theorem State.opened_upset (m : Fin 13) : (s.opened m).upset = s.upset := by
  simp only [State.opened, State.access]; split <;> rfl
@[simp] theorem State.opened_fresh (m : Fin 13) : (s.opened m).fresh = s.fresh := by
  simp only [State.opened, State.access]; split <;> rfl
@[simp] theorem State.opened_sys (m : Fin 13) : (s.opened m).sys = s.sys := by
  simp only [State.opened, State.access]; split <;> rfl
@[simp] theorem State.opened_hp (m : Fin 13) : (s.opened m).hp = s.hp := by
  simp only [State.opened, State.access]; split <;> rfl
@[simp] theorem State.opened_load (m : Fin 13) : (s.opened m).load = s.load := by
  simp only [State.opened, State.access]; split <;> rfl
@[simp] theorem State.opened_mx (m : Fin 13) : (s.opened m).mx = s.mx := by
  simp only [State.opened, State.access]; split <;> rfl
@[simp] theorem State.opened_pairs (m : Fin 13) : (s.opened m).pairs = s.pairs := by
  simp only [State.opened, State.access]; split <;> rfl
@[simp] theorem State.opened_evc (m : Fin 13) : (s.opened m).evc = s.evc := by
  simp only [State.opened, State.access]; split <;> rfl
@[simp] theorem State.opened_fl (m : Fin 13) : (s.opened m).fl = s.fl := by
  simp only [State.opened, State.access]; split <;> rfl
@[simp] theorem State.opened_ix (m : Fin 13) : (s.opened m).ix = s.ix := by
  simp only [State.opened, State.access]; split <;> rfl
@[simp] theorem State.opened_qtag (m : Fin 13) : (s.opened m).qtag = s.qtag := by
  simp only [State.opened, State.access]; split <;> rfl
@[simp] theorem State.opened_dma (m : Fin 13) : (s.opened m).dma = s.dma := by
  simp only [State.opened, State.access]; split <;> rfl
@[simp] theorem State.opened_dbg (m : Fin 13) : (s.opened m).dbg = s.dbg := by
  simp only [State.opened, State.access]; split <;> rfl
@[simp] theorem State.opened_marks (m : Fin 13) : (s.opened m).marks = s.marks := by
  simp only [State.opened, State.access]; split <;> rfl
@[simp] theorem State.opened_hits (m : Fin 13) : (s.opened m).hits = s.hits := by
  simp only [State.opened, State.access]; split <;> rfl
@[simp] theorem State.opened_old (m : Fin 13) : (s.opened m).old = s.old := by
  simp only [State.opened, State.access]; split <;> rfl
@[simp] theorem State.opened_tmr (m : Fin 13) : (s.opened m).tmr = s.tmr := by
  simp only [State.opened, State.access]; split <;> rfl
@[simp] theorem State.opened_tod (m : Fin 13) : (s.opened m).tod = s.tod := by
  simp only [State.opened, State.access]; split <;> rfl
@[simp] theorem State.opened_adc (m : Fin 13) : (s.opened m).adc = s.adc := by
  simp only [State.opened, State.access]; split <;> rfl
@[simp] theorem State.opened_rot (m : Fin 13) : (s.opened m).rot = s.rot := by
  simp only [State.opened, State.access]; split <;> rfl
@[simp] theorem State.opened_cmps (m : Fin 13) : (s.opened m).cmps = s.cmps := by
  simp only [State.opened, State.access]; split <;> rfl
@[simp] theorem State.opened_pwm (m : Fin 13) : (s.opened m).pwm = s.pwm := by
  simp only [State.opened, State.access]; split <;> rfl
@[simp] theorem State.opened_strobe (m : Fin 13) : (s.opened m).strobe = s.strobe := by
  simp only [State.opened, State.access]; split <;> rfl
@[simp] theorem State.opened_dlWaits (m : Fin 13) : (s.opened m).dlWaits = s.dlWaits := by
  simp only [State.opened, State.access]; split <;> rfl
@[simp] theorem State.opened_pos (m : Fin 13) : (s.opened m).pos = s.pos := by
  simp only [State.opened, State.access]; split <;> rfl
@[simp] theorem State.opened_le (m : Fin 13) : (s.opened m).le = s.le := by
  simp only [State.opened, State.access]; split <;> rfl
@[simp] theorem State.opened_twin (m : Fin 13) : (s.opened m).twin = s.twin := by
  simp only [State.opened, State.access]; split <;> rfl
@[simp] theorem State.opened_eth (m : Fin 13) : (s.opened m).eth = s.eth := by
  simp only [State.opened, State.access]; split <;> rfl
@[simp] theorem State.opened_sc (m : Fin 13) : (s.opened m).sc = s.sc := by
  simp only [State.opened, State.access]; split <;> rfl

end Sys2Proof.Machine
end

