-- ==== Sys2Proof/Laws/Regs.lean ====
section
/-! SUPPORT. Fields of words; what a read of a register or a field gives after a write. -/

namespace Sys2Proof.Machine

/-! ## Fields of a word -/

theorem fieldMask_getLsbD (hi lo k : Nat) (h : hi < 32) (hk : k < 32) : (fieldMask hi lo).getLsbD k = decide (lo ≤ k ∧ k ≤ hi) := by
  simp only [fieldMask, BitVec.getLsbD_shiftLeft, BitVec.getLsbD_ofNat, Nat.testBit_two_pow_sub_one]
  rw [Bool.eq_iff_iff]
  simp only [Bool.and_eq_true, Bool.not_eq_true', decide_eq_true_eq, decide_eq_false_iff_not]
  omega

/-- Bit k of a word whose field [hi:lo] has been set. -/
theorem setBits_getLsbD (w : Word) (hi lo v k : Nat) (h : hi < 32) (hk : k < 32) :
    (setBits w hi lo v).getLsbD k = if lo ≤ k ∧ k ≤ hi then v.testBit (k - lo) else w.getLsbD k := by
  simp only [setBits, BitVec.getLsbD_or, BitVec.getLsbD_and, BitVec.getLsbD_not, BitVec.getLsbD_shiftLeft, BitVec.getLsbD_ofNat,
    fieldMask_getLsbD _ _ _ h hk]
  by_cases c : lo ≤ k ∧ k ≤ hi
  · have : ¬ k < lo := by omega
    have : k - lo < 32 := by omega
    simp [*]
  · simp [c, hk]

theorem getBits_testBit (w : Word) (hi lo k : Nat) : (getBits w hi lo).testBit k = (decide (k < hi + 1 - lo) && w.getLsbD (lo + k)) := by
  simp [getBits, Nat.testBit_mod_two_pow, BitVec.testBit_toNat]

/-- The field that was set reads back, reduced to its width. -/
theorem getBits_setBits_same (w : Word) (hi lo v : Nat) (h : hi < 32) (hl : lo ≤ hi) :
    getBits (setBits w hi lo v) hi lo = v % 2 ^ (hi + 1 - lo) := by
  apply Nat.eq_of_testBit_eq
  intro k
  rw [getBits_testBit, Nat.testBit_mod_two_pow]
  by_cases c : k < hi + 1 - lo
  · rw [setBits_getLsbD _ _ _ _ _ h (by omega), if_pos (by omega)]; simp [c]
  · simp [c]

/-- A field apart from the one that was set is as it was. -/
theorem getBits_setBits_ne (w : Word) (hi lo v hi' lo' : Nat) (h : hi < 32) (h' : hi' < 32) (d : hi' < lo ∨ hi < lo') :
    getBits (setBits w hi lo v) hi' lo' = getBits w hi' lo' := by
  apply Nat.eq_of_testBit_eq
  intro k
  simp only [getBits_testBit]
  by_cases c : k < hi' + 1 - lo'
  · rw [setBits_getLsbD _ _ _ _ _ h (by omega), if_neg (by omega)]
  · simp [c]

theorem getBits_lt (w : Word) (hi lo : Nat) : getBits w hi lo < 2 ^ (hi + 1 - lo) := Nat.mod_lt _ (by positivity)

/-- Setting a field to what it holds changes nothing. -/
theorem setBits_getBits (w : Word) (hi lo : Nat) (h : hi < 32) : setBits w hi lo (getBits w hi lo) = w := by
  apply BitVec.eq_of_getLsbD_eq
  intro k hk
  rw [setBits_getLsbD _ _ _ _ _ h hk]
  split
  · next c => rw [getBits_testBit, show lo + (k - lo) = k by omega]; simp; omega
  · rfl

/-! ## Registers -/

@[simp] theorem State.reg_setReg_same (s : State) (r : RegName) (i j : Nat) (v : Word) : (s.setReg r i j v).reg r i j = v :=
  SMap.get_put_same _ _ _ _

/-- A write to a register at another address leaves a register alone. -/
theorem State.reg_setReg_ne (s : State) {r q : RegName} {i j k l : Nat} (v : Word) (h : q.addr k l ≠ r.addr i j) :
    (s.setReg r i j v).reg q k l = s.reg q k l := SMap.get_put_ne _ _ _ _ h

theorem State.fld_setFld_same (s : State) (f : Fld) (i j v : Nat) (h : f.hi < 32 ∧ f.lo ≤ f.hi) :
    (s.setFld f i j v).fld f i j = v % 2 ^ (f.hi + 1 - f.lo) := by
  simp only [State.fld, State.setFld, State.reg_setReg_same]; exact getBits_setBits_same _ _ _ _ h.1 h.2

/-- A field of another register, or apart in the same register, is as it was. -/
theorem State.fld_setFld_ne (s : State) {f g : Fld} {i j k l : Nat} (v : Nat)
    (h : g.reg.addr k l ≠ f.reg.addr i j) : (s.setFld f i j v).fld g k l = s.fld g k l := by
  simp only [State.fld, State.setFld, State.reg_setReg_ne s _ h]

theorem State.fld_setFld_apart (s : State) {f g : Fld} {i j : Nat} (v : Nat) (e : g.reg = f.reg) (hf : f.hi < 32) (hg : g.hi < 32)
    (h : g.hi < f.lo ∨ f.hi < g.lo) : (s.setFld f i j v).fld g i j = s.fld g i j := by
  simp only [State.fld, State.setFld, e, State.reg_setReg_same]; exact getBits_setBits_ne _ _ _ _ _ _ hf hg h

theorem State.fld_le_max (s : State) (f : Fld) (i j : Nat) : s.fld f i j ≤ f.max := by
  have := getBits_lt (s.reg f.reg i j) f.hi f.lo
  simp only [State.fld, Fld.max]; omega

/-- A counter that stays at its largest value. -/
theorem State.fld_bump_same (s : State) (f : Fld) (i j : Nat) (h : f.hi < 32 ∧ f.lo ≤ f.hi) :
    (s.bump f i j).fld f i j = min f.max (s.fld f i j + 1) := by
  have hp : 0 < 2 ^ (f.hi + 1 - f.lo) := by positivity
  rw [State.bump, State.bumpBy, State.fld_setFld_same _ _ _ _ _ h, Nat.mod_eq_of_lt]
  simp only [Fld.max]; omega

/-- A counter that wraps. -/
theorem State.fld_count_same (s : State) (f : Fld) (i j : Nat) (h : f.hi < 32 ∧ f.lo ≤ f.hi) :
    (s.count f i j).fld f i j = (s.fld f i j + 1) % 2 ^ (f.hi + 1 - f.lo) := State.fld_setFld_same _ _ _ _ _ h

@[simp] theorem State.reg_answer (s : State) (w : Word) (r : RegName) (i j : Nat) : (s.answer w).reg r i j = s.reg r i j := rfl
@[simp] theorem State.fld_answer (s : State) (w : Word) (f : Fld) (i j : Nat) : (s.answer w).fld f i j = s.fld f i j := rfl
@[simp] theorem State.flag_answer (s : State) (w : Word) (f : Fld) (i j : Nat) : (s.answer w).flag f i j = s.flag f i j := rfl

end Sys2Proof.Machine
end

