-- ==== Sys2Proof/Laws/Memory.lean ====
section
/-! SUPPORT. Bytes of memory: what a read gives after a write, and that every operation on registers or memory keeps the
canonical form. -/

namespace Sys2Proof.Machine

/-! ## Reads after writes -/

@[simp] theorem State.byte_setByte_same (s : State) (a : Nat) (b : Byte) : (s.setByte a b).byte a = b := SMap.get_put_same _ _ _ _

theorem State.byte_setByte_ne (s : State) {a x : Nat} (b : Byte) (h : x ≠ a) : (s.setByte a b).byte x = s.byte x :=
  SMap.get_put_ne _ _ _ _ h

theorem State.byte_setByte (s : State) (a x : Nat) (b : Byte) : (s.setByte a b).byte x = if x = a then b else s.byte x := by
  by_cases h : x = a
  · simp [h]
  · simp [h, State.byte_setByte_ne]

/-- A byte after n bytes of a number have been stored little-endian from a (R20). -/
theorem State.byte_writeLE (s : State) (a v n x : Nat) :
    (s.writeLE a v n).byte x = if a ≤ x ∧ x < a + n then BitVec.ofNat 8 (v / 256 ^ (x - a)) else s.byte x := by
  induction n generalizing s a v with
  | zero => rw [if_neg (by omega)]; rfl
  | succ n ih =>
    rw [State.writeLE, ih, State.byte_setByte]
    by_cases h : x = a
    · subst h; simp
    · rw [if_neg h]
      by_cases c : a + 1 ≤ x ∧ x < a + 1 + n
      · rw [if_pos c, if_pos (by omega), Nat.div_div_eq_div_mul, show x - a = x - (a + 1) + 1 by omega, Nat.pow_succ, Nat.mul_comm 256]
      · rw [if_neg c, if_neg (by omega)]

theorem State.byte_writeLE_ne (s : State) {a v n x : Nat} (h : x < a ∨ a + n ≤ x) : (s.writeLE a v n).byte x = s.byte x := by
  rw [State.byte_writeLE, if_neg (by omega)]

theorem State.byte_setWord_ne (s : State) {a x : Nat} (w : Word) (h : x < a ∨ a + 4 ≤ x) : (s.setWord a w).byte x = s.byte x :=
  s.byte_writeLE_ne h

/-- States whose bytes agree read the same number. -/
theorem State.readLE_congr (s t : State) (a n : Nat) (h : ∀ x, a ≤ x → x < a + n → s.byte x = t.byte x) : s.readLE a n = t.readLE a n := by
  induction n generalizing a with
  | zero => rfl
  | succ n ih => rw [State.readLE, State.readLE, h a (by omega) (by omega), ih (a + 1) fun x h1 h2 => h x (by omega) (by omega)]

theorem State.readLE_lt (s : State) (a n : Nat) : s.readLE a n < 256 ^ n := by
  induction n generalizing a with
  | zero => simp [State.readLE]
  | succ n ih => have := ih (a + 1); have := (s.byte a).isLt; rw [State.readLE, Nat.pow_succ]; omega

/-- The bytes of a number read back as the number. -/
theorem State.readLE_of_bytes (s : State) (a v n : Nat) (h : ∀ k < n, s.byte (a + k) = BitVec.ofNat 8 (v / 256 ^ k)) :
    s.readLE a n = v % 256 ^ n := by
  induction n generalizing a v with
  | zero => simp [State.readLE, Nat.mod_one]
  | succ n ih =>
    have h0 := h 0 (by omega)
    have ht := ih (a + 1) (v / 256) fun k hk => by
      have := h (k + 1) (by omega)
      rw [Nat.div_div_eq_div_mul, Nat.mul_comm, ← Nat.pow_succ, ← this]; congr 1; omega
    rw [State.readLE, ht]
    simp only [Nat.add_zero, Nat.pow_zero, Nat.div_one] at h0
    rw [h0, BitVec.toNat_ofNat, Nat.pow_succ 256, Nat.mul_comm (256 ^ n), Nat.mod_mul]

/-- The number that was stored reads back, reduced to its bytes. -/
theorem State.readLE_writeLE_same (s : State) (a v n : Nat) : (s.writeLE a v n).readLE a n = v % 256 ^ n :=
  State.readLE_of_bytes _ _ _ _ fun k hk => by rw [State.byte_writeLE, if_pos (by omega)]; congr 3; omega

@[simp] theorem State.word_setWord_same (s : State) (a : Nat) (w : Word) : (s.setWord a w).word a = w := by
  have : w.toNat < 256 ^ 4 := w.isLt
  rw [State.word, State.setWord, State.readLE_writeLE_same, Nat.mod_eq_of_lt this, BitVec.ofNat_toNat, BitVec.setWidth_eq]

theorem State.word_setWord_ne (s : State) {a x : Nat} (w : Word) (h : x + 4 ≤ a ∨ a + 4 ≤ x) : (s.setWord a w).word x = s.word x := by
  rw [State.word, State.word, State.readLE_congr _ s x 4]
  intro y h1 h2; exact s.byte_setWord_ne w (by omega)

/-- A byte of a cleared range reads as a byte nothing has written; the others are as they were. -/
theorem State.byte_clearMem (s : State) (lo hi x : Nat) :
    (s.clearMem lo hi).byte x = if lo ≤ x ∧ x < hi then memDefault x else s.byte x := by
  have key : ∀ m : SMap Byte, SMap.get (m.filter fun e => !(decide (lo ≤ e.1) && decide (e.1 < hi))) x (memDefault x) =
      if lo ≤ x ∧ x < hi then memDefault x else m.get x (memDefault x) := by
    intro m
    induction m with
    | nil => simp [SMap.get, SMap.find?]
    | cons e m ih =>
      obtain ⟨b, v⟩ := e
      by_cases h : b = x
      · subst h
        by_cases c : lo ≤ b ∧ b < hi
        · rw [List.filter_cons_of_neg (by simpa using c), ih, if_pos c, if_pos c]
        · rw [List.filter_cons_of_pos (by simp; omega), if_neg c]; simp [SMap.get, SMap.find?]
      · have e : ∀ l : SMap Byte, SMap.get ((b, v) :: l) x (memDefault x) = SMap.get l x (memDefault x) := by
          intro l; simp [SMap.get, SMap.find?, h]
        rw [e]
        by_cases c : lo ≤ b ∧ b < hi
        · rw [List.filter_cons_of_neg (by simpa using c), ih]
        · rw [List.filter_cons_of_pos (by simp; omega), e, ih]
  exact key s.mem

/-! ## What a write leaves alone -/

@[simp] theorem State.byte_setReg (s : State) (r : RegName) (i j : Nat) (v : Word) (a : Nat) : (s.setReg r i j v).byte a = s.byte a := rfl
@[simp] theorem State.byte_setFld (s : State) (f : Fld) (i j v a : Nat) : (s.setFld f i j v).byte a = s.byte a := rfl
@[simp] theorem State.reg_setByte (s : State) (a : Nat) (b : Byte) (r : RegName) (i j : Nat) : (s.setByte a b).reg r i j = s.reg r i j := rfl

/-- Storing bytes touches the memory and nothing else. -/
theorem State.writeLE_only_mem (s : State) (a v n : Nat) : s.writeLE a v n = { s with mem := (s.writeLE a v n).mem } := by
  induction n generalizing s a v with
  | zero => rfl
  | succ n ih => rw [State.writeLE, ih]; rfl

theorem State.setWord_only_mem (s : State) (a : Nat) (w : Word) : s.setWord a w = { s with mem := (s.setWord a w).mem } :=
  s.writeLE_only_mem _ _ _

@[simp] theorem State.reg_setWord (s : State) (a : Nat) (w : Word) (r : RegName) (i j : Nat) : (s.setWord a w).reg r i j = s.reg r i j := by
  rw [State.setWord_only_mem]; rfl

/-! ## The canonical form -/

/-- The canonical form is a matter of the registers and the memory alone. -/
theorem State.canonical_congr {s t : State} (hr : t.regs = s.regs) (hm : t.mem = s.mem) (h : s.canonical) : t.canonical := by
  unfold State.canonical; rw [hr, hm]; exact h

theorem State.canonical_setReg {s : State} (r : RegName) (i j : Nat) (v : Word) (h : s.canonical) : (s.setReg r i j v).canonical :=
  ⟨SMap.wf_put _ _ h.1, h.2⟩

theorem State.canonical_setFld {s : State} (f : Fld) (i j v : Nat) (h : s.canonical) : (s.setFld f i j v).canonical :=
  State.canonical_setReg _ _ _ _ h

theorem State.canonical_bumpBy {s : State} (f : Fld) (i j k : Nat) (h : s.canonical) : (s.bumpBy f i j k).canonical :=
  State.canonical_setFld _ _ _ _ h

theorem State.canonical_bump {s : State} (f : Fld) (i j : Nat) (h : s.canonical) : (s.bump f i j).canonical :=
  State.canonical_setFld _ _ _ _ h

theorem State.canonical_count {s : State} (f : Fld) (i j : Nat) (h : s.canonical) : (s.count f i j).canonical :=
  State.canonical_setFld _ _ _ _ h

theorem State.canonical_resetRegs {s : State} (p : RegName → Bool) (h : s.canonical) : (s.resetRegs p).canonical :=
  ⟨SMap.wf_filter _ h.1, h.2⟩

theorem State.canonical_setByte {s : State} (a : Nat) (b : Byte) (h : s.canonical) : (s.setByte a b).canonical :=
  ⟨h.1, SMap.wf_put _ _ h.2⟩

theorem State.canonical_writeLE {s : State} (a v n : Nat) (h : s.canonical) : (s.writeLE a v n).canonical := by
  induction n generalizing s a v with
  | zero => exact h
  | succ n ih => exact ih _ _ (State.canonical_setByte _ _ h)

theorem State.canonical_setWord {s : State} (a : Nat) (w : Word) (h : s.canonical) : (s.setWord a w).canonical :=
  State.canonical_writeLE _ _ _ h

theorem State.canonical_clearMem {s : State} (lo hi : Nat) (h : s.canonical) : (s.clearMem lo hi).canonical :=
  ⟨h.1, SMap.wf_filter _ h.2⟩

/-- A list whose keys rise from one bound after a list whose keys stay below it. -/
theorem SMap.sortedFrom_append {α : Type} {m n : SMap α} {a b : Nat} (hm : m.sortedFrom a = true) (hb : ∀ e ∈ m, e.1 < b)
    (hn : n.sortedFrom b = true) (hab : a ≤ b) : SMap.sortedFrom a (m ++ n) = true := by
  induction m generalizing a with
  | nil => exact SMap.sortedFrom_mono hab hn
  | cons e m ih =>
    simp only [SMap.sortedFrom, Bool.and_eq_true, decide_eq_true_eq, List.cons_append] at hm ⊢
    have h := hb e (by simp)
    exact ⟨hm.1, ih hm.2 (fun x hx => hb x (by simp [hx])) h⟩

/-- The listed bytes of a run that starts at a. -/
theorem setBytes_run (a : Nat) (bs : List Byte) :
    let m : SMap Byte := (bs.zipIdx a).filterMap fun x => if x.1 = memDefault x.2 then none else some (x.2, x.1)
    m.sortedFrom a = true ∧ (∀ e ∈ m, a ≤ e.1 ∧ e.1 < a + bs.length) ∧ ∀ e ∈ m, e.2 ≠ memDefault e.1 := by
  induction bs generalizing a with
  | nil => simp [SMap.sortedFrom]
  | cons b bs ih =>
    obtain ⟨h1, h2, h3⟩ := ih (a + 1)
    simp only [List.zipIdx_cons, List.filterMap_cons]
    split
    · exact ⟨SMap.sortedFrom_mono (by omega) h1, fun e he => by have := h2 e he; simp only [List.length_cons]; omega, h3⟩
    · next x hx =>
      split at hx
      · cases hx
      · next hne =>
        obtain rfl := Option.some.inj hx
        refine ⟨?_, ?_, ?_⟩
        · simp only [SMap.sortedFrom, Bool.and_eq_true, decide_eq_true_eq]; exact ⟨le_refl _, h1⟩
        · intro e he
          rcases List.mem_cons.1 he with rfl | he
          · simp only [List.length_cons]; omega
          · have := h2 e he; simp only [List.length_cons]; omega
        · intro e he
          rcases List.mem_cons.1 he with rfl | he
          · exact hne
          · exact h3 e he

theorem SMap.sortedFrom_from {α : Type} {m : SMap α} {a b : Nat} (hm : m.sortedFrom a = true) (hb : ∀ e ∈ m, b ≤ e.1) :
    m.sortedFrom b = true := by
  cases m with
  | nil => rfl
  | cons e m =>
    simp only [SMap.sortedFrom, Bool.and_eq_true, decide_eq_true_eq] at hm ⊢
    exact ⟨hb e (by simp), hm.2⟩

/-- Storing a run of bytes keeps the canonical form. -/
theorem State.canonical_setBytes {s : State} (a : Nat) (bs : List Byte) (h : s.canonical) : (s.setBytes a bs).canonical := by
  refine ⟨h.1, ?_⟩
  obtain ⟨h1, h2, h3⟩ := setBytes_run a bs
  have hm := h.2
  simp only [SMap.wf, Bool.and_eq_true, List.all_eq_true] at hm ⊢
  have hi : SMap.sortedFrom (a + bs.length) (s.mem.filter fun e => decide (a + bs.length ≤ e.1)) = true :=
    SMap.sortedFrom_from (SMap.sortedFrom_filter _ _ _ hm.1) fun e he => by simpa using (List.mem_filter.1 he).2
  refine ⟨?_, ?_⟩
  · rw [State.setBytes, List.append_assoc]
    refine SMap.sortedFrom_append (b := a) (SMap.sortedFrom_filter _ _ _ hm.1) (fun e he => by simpa using (List.mem_filter.1 he).2) ?_ (by omega)
    exact SMap.sortedFrom_append h1 (fun e he => (h2 e he).2) hi (by omega)
  · intro e he
    simp only [State.setBytes, List.mem_append] at he
    rcases he with (he | he) | he
    · exact hm.2 e (List.mem_filter.1 he).1
    · simpa using h3 e he
    · exact hm.2 e (List.mem_filter.1 he).1

end Sys2Proof.Machine
end

