-- ==== Sys2Proof/Laws/Pairs.lean ====
section
/-! SUPPORT. Pairs: what reads of a pair's state give after updates, what an instruction that issues does. -/

namespace Sys2Proof.Machine

/-! ## The pairs of a state -/

@[simp] theorem State.pair_setPair_same (s : State) (p : Pair) (x : PairSt) : (s.setPair p x).pair p = x := by
  simp [State.pair, State.setPair]

theorem State.pair_setPair_ne (s : State) {p q : Pair} (x : PairSt) (h : q ≠ p) : (s.setPair p x).pair q = s.pair q := by
  simp only [State.pair, State.setPair, Fin.getElem_fin]; exact vset_getElem_ne _ _ (Ne.symm h)

@[simp] theorem State.setPair_setPair (s : State) (p : Pair) (x y : PairSt) : (s.setPair p x).setPair p y = s.setPair p y := by
  simp [State.setPair]

theorem State.setPair_self (s : State) (p : Pair) : s.setPair p (s.pair p) = s := by
  simp [State.setPair, State.pair]

theorem State.modPair_eq (s : State) (p : Pair) (f : PairSt → PairSt) : s.modPair p f = s.setPair p (f (s.pair p)) := rfl

theorem State.awake_eq (s : State) (p : Pair) : s.awake p = s.setPair p { s.pair p with waiting := false, stc := none } := rfl

theorem State.both_eq (s : State) (p : Pair) (f : Copy → Copy) :
    s.both p f = s.setPair p { s.pair p with main := f (s.pair p).main, chk := f (s.pair p).chk } := rfl

/-- An instruction that only changes the copies changes the pair's entry and nothing else. -/
theorem State.compute_eq (s : State) (p : Pair) (f : Copy → Copy) :
    s.compute p f =
      s.setPair p (PairSt.retire { s.pair p with main := f (s.pair p).main, chk := f (s.pair p).chk }) := by
  simp [State.compute, State.retire, State.modPair_eq, State.both_eq]

/-- An instruction of a pair that issues has its own effect. -/
theorem issue_run {s : State} {p : Pair} (h : s.issues p) (body : State → State) : issue p body s = .next (body (s.awake p)) := by
  simp only [issue, show s.boundary p = .run from h]

/-- Two results that agree on every copy leave the same state. -/
theorem State.compute_congr (s : State) (p : Pair) {f g : Copy → Copy} (h : ∀ c, f c = g c) : s.compute p f = s.compute p g := by
  rw [funext h]

end Sys2Proof.Machine
end

