-- ==== Sys2Proof/Laws/Commands.lean ====
section
/-! SUPPORT. What the shared operations that commands are built from answer: accesses, instructions, frames, steps. -/

namespace Sys2Proof.Machine

/-! ## Accesses -/

/-- An access that the access rules let through has its own effect. -/
theorem regCmd_admitted {s : State} {r : Req} {k : Kind} {rn : RegName} {i j : Nat} (h : s.admits r k rn i j) (body : State → State) :
    regCmd r k rn i j body s = .next (body (s.opened r.master)) := by
  simp only [regCmd, if_pos h.1, if_pos h.2]

/-- An access that no window permits is a violation and answers a bus error (R362). -/
theorem regCmd_violation {s : State} {r : Req} {k : Kind} {rn : RegName} {i j : Nat} (hl : s.reqLive r k = true)
    (hw : s.permitted r k (rn.addr i j) 4 = false) (body : State → State) :
    regCmd r k rn i j body s = .next (s.violation r k (rn.addr i j)).busError := by
  simp [regCmd, hl, hw]

/-- A master that can make no accesses in this mode has no effect. -/
theorem regCmd_dead {s : State} {r : Req} {k : Kind} (hl : s.reqLive r k = false) (rn : RegName) (i j : Nat) (body : State → State) :
    regCmd r k rn i j body s = .next s := by
  simp [regCmd, hl]

/-- All that a register access can answer. -/
theorem regCmd_cases {s t : State} {r : Req} {k : Kind} {rn : RegName} {i j : Nat} {body : State → State}
    (h : regCmd r k rn i j body s = .next t) :
    (s.admits r k rn i j ∧ t = body (s.opened r.master)) ∨
    (s.reqLive r k = true ∧ s.permitted r k (rn.addr i j) 4 = false ∧ t = (s.violation r k (rn.addr i j)).busError) ∨
    (s.reqLive r k = false ∧ t = s) := by
  by_cases hl : s.reqLive r k = true
  · by_cases hw : s.permitted r k (rn.addr i j) 4 = true
    · rw [regCmd_admitted ⟨hl, hw⟩] at h; exact .inl ⟨⟨hl, hw⟩, (Host.Outcome.next.inj h).symm⟩
    · rw [Bool.not_eq_true] at hw
      rw [regCmd_violation hl hw] at h; exact .inr (.inl ⟨hl, hw, (Host.Outcome.next.inj h).symm⟩)
  · rw [Bool.not_eq_true] at hl
    rw [regCmd_dead hl] at h; exact .inr (.inr ⟨hl, (Host.Outcome.next.inj h).symm⟩)

/-- A register access always completes. -/
theorem regCmd_next (s : State) (r : Req) (k : Kind) (rn : RegName) (i j : Nat) (body : State → State) :
    ∃ t, regCmd r k rn i j body s = .next t := by
  unfold regCmd; split
  · split <;> exact ⟨_, rfl⟩
  · exact ⟨_, rfl⟩

/-- An aligned word access that a window permits has its own effect. -/
theorem wordCmd_permitted {s : State} {r : Req} {k : Kind} {a : Word} (hl : s.reqLive r k = true) (ha : a.toNat % 4 = 0)
    (hw : s.permitted r k a.toNat 4 = true) (body : State → State) : wordCmd r k a body s = .next (body (s.access r.master)) := by
  simp [wordCmd, hl, ha, hw]

/-- All that a word access can answer. -/
theorem wordCmd_cases {s t : State} {r : Req} {k : Kind} {a : Word} {body : State → State} (h : wordCmd r k a body s = .next t) :
    (s.reqLive r k = true ∧ a.toNat % 4 = 0 ∧ s.permitted r k a.toNat 4 = true ∧ t = body (s.access r.master)) ∨
    (s.reqLive r k = true ∧ a.toNat % 4 = 0 ∧ s.permitted r k a.toNat 4 = false ∧ t = (s.violation r k a.toNat).busError) ∨
    (s.reqLive r k = true ∧ a.toNat % 4 ≠ 0 ∧ t = s.busError) ∨
    (s.reqLive r k = false ∧ t = s) := by
  unfold wordCmd at h
  by_cases hl : s.reqLive r k = true
  · rw [if_pos hl] at h
    by_cases ha : a.toNat % 4 = 0
    · rw [if_neg (by simpa using ha)] at h
      by_cases hw : s.permitted r k a.toNat 4 = true
      · rw [if_pos hw] at h; exact .inl ⟨hl, ha, hw, (Host.Outcome.next.inj h).symm⟩
      · rw [if_neg hw] at h
        exact .inr (.inl ⟨hl, ha, by simpa using hw, (Host.Outcome.next.inj h).symm⟩)
    · rw [if_pos ha] at h; exact .inr (.inr (.inl ⟨hl, ha, (Host.Outcome.next.inj h).symm⟩))
  · rw [if_neg hl] at h; exact .inr (.inr (.inr ⟨by simpa using hl, (Host.Outcome.next.inj h).symm⟩))

theorem wordCmd_next (s : State) (r : Req) (k : Kind) (a : Word) (body : State → State) : ∃ t, wordCmd r k a body s = .next t := by
  unfold wordCmd; split
  · split
    · exact ⟨_, rfl⟩
    · split <;> exact ⟨_, rfl⟩
  · exact ⟨_, rfl⟩

/-- Counting in a field changes the registers and what came in this cycle; nothing else. -/
theorem State.bump_only (s : State) (f : Fld) (i j : Nat) :
    s.bump f i j = { s with regs := (s.bump f i j).regs, hits := (s.bump f i j).hits } := rfl

/-- A violation changes registers of the PTU and puts the event of R362 on the calendar; nothing else. -/
theorem State.violation_only (s : State) (r : Req) (k : Kind) (a : Nat) :
    ∃ g h, s.violation r k a = { s with regs := g, hits := h, cal := s.cal ++ [(s.now + 1, .evcEvent 0x189)] } := by
  unfold State.violation
  rw [State.bump_only]
  exact ⟨_, _, rfl⟩

theorem State.canonical_violation {s : State} (r : Req) (k : Kind) (a : Nat) (h : s.canonical) : (s.violation r k a).canonical :=
  State.canonical_congr (State.evcRaise_regs _ _) (State.evcRaise_mem _ _)
    (State.canonical_setReg _ _ _ _ (State.canonical_setReg _ _ _ _ (State.canonical_bump _ _ _ h)))

/-- A register access keeps the canonical form when its effect does. -/
theorem regCmd_canonical {s t : State} {r : Req} {k : Kind} {rn : RegName} {i j : Nat} {body : State → State}
    (hb : ∀ u : State, u.canonical → (body u).canonical) (hs : s.canonical) (h : regCmd r k rn i j body s = .next t) : t.canonical := by
  rcases regCmd_cases h with ⟨-, rfl⟩ | ⟨-, -, rfl⟩ | ⟨-, rfl⟩
  · exact hb _ (State.canonical_congr (by simp) (by simp) hs)
  · exact State.canonical_congr rfl rfl (State.canonical_violation r k _ hs)
  · exact hs

/-- A word access keeps the canonical form when its effect does. -/
theorem wordCmd_canonical {s t : State} {r : Req} {k : Kind} {a : Word} {body : State → State}
    (hb : ∀ u : State, u.canonical → (body u).canonical) (hs : s.canonical) (h : wordCmd r k a body s = .next t) : t.canonical := by
  rcases wordCmd_cases h with ⟨-, -, -, rfl⟩ | ⟨-, -, -, rfl⟩ | ⟨-, -, rfl⟩ | ⟨-, rfl⟩
  · exact hb _ (State.canonical_congr (by simp) (by simp) hs)
  · exact State.canonical_congr rfl rfl (State.canonical_violation r k _ hs)
  · exact State.canonical_congr rfl rfl hs
  · exact hs

/-! ## Instructions -/

/-- All that an instruction of a pair can answer: its effect, nothing, or the cause taken at the boundary (R286). -/
theorem issue_cases {s t : State} {p : Pair} {body : State → State} (h : issue p body s = .next t) :
    (s.issues p ∧ t = body (s.awake p)) ∨
    (s.boundary p = .hold ∧ t = s) ∨
    (∃ l, s.boundary p = .late l ∧ t = s.takeLate p l) ∨
    (∃ e, s.boundary p = .fp e ∧ t = s.takeFp p e) ∨
    (s.boundary p = .recall ∧ t = s.takeRecall p) ∨
    (s.boundary p = .halt ∧ t = s.haltAt p body) := by
  unfold issue at h
  split at h
  all_goals
    have := (Host.Outcome.next.inj h).symm
    simp_all [State.issues]

theorem issue_next (s : State) (p : Pair) (body : State → State) : ∃ t, issue p body s = .next t := by
  unfold issue; split <;> exact ⟨_, rfl⟩

/-- A pair that cannot issue does nothing. -/
theorem issue_hold {s : State} {p : Pair} (h : s.boundary p = .hold) (body : State → State) : issue p body s = .next s := by
  simp only [issue, h]

/-- A pair that is not up holds. -/
theorem State.boundary_down {s : State} {p : Pair} (h : s.coreUp p = false) : s.boundary p = .hold := by
  simp [State.boundary, h]

/-- In the slot of a branch nothing asynchronous is taken (R263). -/
theorem State.boundary_slot {s : State} {p : Pair} (h : s.coreUp p = true) (hs : (s.pair p).slot.isSome = true) : s.boundary p = .run := by
  simp [State.boundary, h, hs]

/-! ## Frames -/

/-- A whole host frame with the right CRC, to a device that listens, has its own effect. -/
theorem hpCmd_good {s : State} {f : HpFrame} {cmd : Byte} {payload p : List Byte} (hl : s.hpLive = true)
    (hg : hpReceive f cmd payload = .good p) (body : List Byte → State → State) : hpCmd f cmd payload body s = .next (body p s) := by
  simp only [hpCmd, hl, if_true, hg]

theorem hpCmd_next (s : State) (f : HpFrame) (cmd : Byte) (payload : List Byte) (body : List Byte → State → State) :
    ∃ t, hpCmd f cmd payload body s = .next t := by
  unfold hpCmd; split
  · split <;> exact ⟨_, rfl⟩
  · exact ⟨_, rfl⟩

/-- A whole twin frame, on a link that is up, has its own effect. -/
theorem twRecv_whole {s : State} {ty lo hi : Nat} {h : TwHdr} {tl d : List Byte} (hu : s.linkIsUp = true) (hm : s.mode ≠ .retention)
    (hw : twWhole ty lo hi h tl d = true) (body : State → State) : twRecv ty lo hi h tl d body s = .next (body s) := by
  simp [twRecv, hu, hm, hw]

/-- All that a received twin frame can answer. -/
theorem twRecv_cases {s t : State} {ty lo hi : Nat} {h : TwHdr} {tl d : List Byte} {body : State → State}
    (hx : twRecv ty lo hi h tl d body s = .next t) : t = s ∨ t = body s ∨ t = s.bump F.TW_ERR_CNT_FRAMECRC 0 0 := by
  unfold twRecv at hx
  split at hx
  · exact .inl (Host.Outcome.next.inj hx).symm
  · split at hx
    · exact .inr (.inl (Host.Outcome.next.inj hx).symm)
    · exact .inr (.inr (Host.Outcome.next.inj hx).symm)

theorem twRecv_next (s : State) (ty lo hi : Nat) (h : TwHdr) (tl d : List Byte) (body : State → State) :
    ∃ t, twRecv ty lo hi h tl d body s = .next t := by
  unfold twRecv; split
  · exact ⟨_, rfl⟩
  · split <;> exact ⟨_, rfl⟩

theorem dbgCmd_next (s : State) (v : DbgVia) (op : Nat) (a d : Word) (body : Bool → State → DbgR) :
    ∃ t, dbgCmd v op a d body s = .next t := by
  cases v with
  | tap => simp only [dbgCmd]; split <;> exact ⟨_, rfl⟩
  | host f => simp only [dbgCmd]; exact hpCmd_next _ _ _ _ _

/-! ## Steps -/

/-- With commands waiting, a step is the front command's effect on the state with the rest of the queue. -/
theorem step_front {s : State} {c : Instr} {cs : List Instr} (h : s.pending = c :: cs) : step s = exec c { s with pending := cs } := by
  simp only [step, h]

/-- On an empty queue time passes. -/
theorem step_idle {s : State} (h : s.pending = []) : step s = .next s.idle := by
  simp only [step, h]

end Sys2Proof.Machine
end

