-- ==== Sys2Proof/Laws/Flags.lean ====
section
/-! SUPPORT. The flags and values of additions and subtractions in the terms of R258. -/

namespace Sys2Proof.Machine

/-- The flags of an addition are those R258 words. -/
theorem addC_eq (a b : Word) (k : Bool) : (addC a b k).fl =
    arithFlags (a + b + BitVec.ofNat 32 k.toNat) (a.toInt + b.toInt + k.toNat) (decide (2 ^ 32 ≤ a.toNat + b.toNat + k.toNat)) := by
  have hb := BitVec.toInt_eq_msb_cond (x := a)
  have hc := BitVec.toInt_eq_msb_cond (x := b)
  have hr := BitVec.toInt_eq_msb_cond (x := a + b + BitVec.ofNat 32 k.toNat)
  have h1 := BitVec.msb_eq_decide (x := a)
  have h2 := BitVec.msb_eq_decide (x := b)
  have h3 := BitVec.msb_eq_decide (x := a + b + BitVec.ofNat 32 k.toNat)
  have ha := a.isLt; have hbb := b.isLt
  have hn : (a + b + BitVec.ofNat 32 k.toNat).toNat = (a.toNat + b.toNat + k.toNat) % 2 ^ 32 := by
    simp [BitVec.toNat_add]
  simp only [addC, arithFlags, Nzcv.mk.injEq, true_and]
  refine ⟨by simp [BitVec.msb_eq_getLsbD_last], by simp [beq_eq_decide], ?_⟩
  rw [hn] at h3 hr
  rw [Bool.eq_iff_iff]
  simp only [Bool.and_eq_true, beq_iff_eq, bne_iff_ne, ne_eq, decide_eq_true_eq, h1, h2, h3] at *
  cases k <;> simp only [Bool.toNat_true, Bool.toNat_false, decide_eq_decide] at * <;> omega

/-- The flags of a subtraction are those R258 words. -/
theorem subC_eq (a b : Word) (k : Bool) : (subC a b k).fl =
    arithFlags (a - b - BitVec.ofNat 32 (if k then 0 else 1)) (a.toInt - b.toInt - (if k then 0 else 1 : Nat))
      (decide (b.toNat + (if k then 0 else 1) ≤ a.toNat)) := by
  unfold subC
  rw [addC_eq]
  have ha := a.isLt; have hb := b.isLt
  have hn : (~~~b).toNat = 2 ^ 32 - 1 - b.toNat := BitVec.toNat_not
  have hi : (~~~b).toInt = -b.toInt - 1 := by
    rw [BitVec.toInt_eq_toNat_cond, BitVec.toInt_eq_toNat_cond, hn]; split <;> split <;> omega
  have hr : a + ~~~b + BitVec.ofNat 32 k.toNat = a - b - BitVec.ofNat 32 (if k then 0 else 1) := by
    apply BitVec.eq_of_toNat_eq
    cases k <;> simp [BitVec.toNat_add, BitVec.toNat_sub, hn] <;> omega
  rw [hr, hi, hn]
  cases k <;> simp [arithFlags] <;> omega

/-- The value of an addition. -/
theorem addC_val (a b : Word) (k : Bool) : (addC a b k).val = a + b + BitVec.ofNat 32 k.toNat := rfl

/-- The value of a subtraction with borrow. -/
theorem subC_val (a b : Word) (k : Bool) : (subC a b k).val = a - b - BitVec.ofNat 32 (if k then 0 else 1) := by
  have hb := b.isLt
  have hn : (~~~b).toNat = 2 ^ 32 - 1 - b.toNat := BitVec.toNat_not
  apply BitVec.eq_of_toNat_eq
  cases k <;> simp [subC, addC, BitVec.toNat_add, BitVec.toNat_sub, hn] <;> omega

end Sys2Proof.Machine
end

