-- ==== Sys2Proof/Tests/Slice0.lean ====
section
/-! SUPPORT. Tests: ill-formed terms that WellFormed refuses, instruction words of Tables 10.4 and 10.5, states and operands that
meet the hypotheses of the statements clause by clause, and single steps with results worked out from the spec. -/

open Sys2Proof Sys2Proof.Machine

namespace Sys2Proof.Tests

set_option Elab.async false

/-! ## States to test on -/

/-- The machine of State.reset in another mode. -/
def inMode (m : Mode) : State := { State.reset with sys := { State.reset.sys with mode := m } }
/-- Tenant 0 with every right on the lower 2 GiB. -/
def winAll (s : State) : State := (s.setReg .PTU_WINt_w_RIGHTS 0 0 0x1F).setReg .PTU_WINt_w_SIZE 0 0 31
/-- Ready. -/
def rdy : State := winAll (inMode .ready)
/-- Tenant 0 at Monitor on pair 0. -/
def mon : Req := ⟨0, 0, .monitor⟩
/-- g1 of pair 0 set. -/
def g1 (v : Word) (s : State) : State := s.both 0 fun c => c.setG 1 v
/-- Pair 0 with a checker copy that differs. -/
def split (f : Copy → Copy) : State := rdy.modPair 0 fun x => { x with chk := f x.chk }
/-- Pair 0 at User. -/
def atUser (s : State) : State := s.both 0 fun c => { c with psw := 0 }

/-- Without an STC in flight no pair's STC yields to a store of this cycle. -/
theorem alone_of (s : State) (h : ∀ q : Pair, (s.pair q).stc = none) : ∀ q k, (s.pair q).stc = some k → k.lc ≠ s.now :=
  fun q k e => by rw [h q] at e; cases e

theorem rdy_alone : ∀ q k, (rdy.pair q).stc = some k → k.lc ≠ rdy.now := alone_of rdy (by decide +kernel)

/-- A calibration of an ADC core beyond the limits of R59, and nine within them. -/
def calBad : SpareCal := ⟨0, 5001, 0, []⟩
def calGood : Vector SpareCal 9 := Vector.replicate 9 ⟨0, 0, 0, []⟩

/-! ## Well-formedness: each check refuses an ill-formed term -/

theorem test_wf_odd_destination : Instr.wf (.mul 0 1 2 3) = false ∧ Instr.wf (.mulu 0 3 2 3) = false ∧ Instr.wf (.div 0 31 2 3) = false ∧
    Instr.wf (.divu 0 29 2 3) = false ∧ Instr.wf (.mul 0 30 2 3) = true := by decide

theorem test_wf_special_register : Instr.wf (.mfs 0 1 7) = false ∧ Instr.wf (.mfs 0 1 27) = false ∧ Instr.wf (.mts 0 1 7) = false ∧
    Instr.wf (.mts 0 1 31) = false ∧ Instr.wf (.mfs 0 1 26) = true := by decide

theorem test_wf_size_code : Instr.wf (.lds 0 1 0 3 0) = false ∧ Instr.wf (.sts 0 1 0 3 0) = false ∧ Instr.wf (.ldp 0 1 2 1 0 6 0) = false ∧
    Instr.wf (.stp 0 1 2 1 0 7 0) = false ∧ Instr.wf (.lds 0 1 0 5 0) = true := by decide

theorem test_wf_pointer_mode : Instr.wf (.ldp 0 1 2 0 0 2 0) = false ∧ Instr.wf (.stp 0 1 2 3 0 2 0) = false ∧
    Instr.wf (.ldp 0 1 2 2 0 2 0) = true := by decide

theorem test_wf_condition : Instr.wf (.bcc 0 false 15 0) = false ∧ Instr.wf (.bcc 0 true 14 0) = true := by decide

/-! ## Instruction words, written out from Table 10.4 and Table 10.5 -/

theorem test_decode_add : nc32Decode 0 0b000000_00001_00010_00011_00000000000 = some (.add 0 1 2 3) := by decide
theorem test_decode_addi : nc32Decode 1 0b000001_00001_00010_1111111111111111 = some (.addi 1 1 2 0xFFFF) := by decide
theorem test_decode_shi : nc32Decode 0 0b001000_00101_00110_0000000001000111 = some (.shi 0 5 6 2 7) := by decide
theorem test_decode_lui : nc32Decode 0 0b000110_11111_00000_1000000000000000 = some (.lui 0 31 0x8000) := by decide
theorem test_decode_mul : nc32Decode 0 0b000000_00100_00010_00011_00000110000 = some (.mul 0 4 2 3) := by decide
theorem test_decode_mul_odd : nc32Decode 0 0b000000_00101_00010_00011_00000110000 = none := by decide
theorem test_decode_mts : nc32Decode 0 0b000000_00000_00010_00110_00001000001 = some (.mts 0 2 6) := by decide
theorem test_decode_ldw : nc32Decode 0 0b010100_00001_00010_0000000000000100 = some (.ldw 0 1 2 4) := by decide
theorem test_decode_stb : nc32Decode 0 0b011000_00001_00010_1111111111111110 = some (.stb 0 1 2 0xFFFE) := by decide
theorem test_decode_lds : nc32Decode 0 0b011100_00111_11_101_0000000000010000 = some (.lds 0 7 3 5 16) := by decide
theorem test_decode_ldp : nc32Decode 0 0b011110_00001_00010_01_10_001_000000010 = some (.ldp 0 1 2 1 2 1 2) := by decide
theorem test_decode_bcc : nc32Decode 0 0b100000_1_0001_111111111111111111111 = some (.bcc 0 true 1 0x1FFFFF) := by decide
theorem test_decode_bcc_15 : nc32Decode 0 0b100000_0_1111_000000000000000000001 = none := by decide
theorem test_decode_call : nc32Decode 0 0b100010_00000000000000000000000010 = some (.call 0 2) := by decide
theorem test_decode_jr : nc32Decode 0 0b100011_00000_00101_00000_00000000000 = some (.jr 0 5) := by decide
theorem test_decode_trap : nc32Decode 0 0b101010_00000_00000_0000000000000111 = some (.trap 0 7) := by decide
theorem test_decode_wait : nc32Decode 0 0b101000_00000_00000_00000_00000000101 = some (.wait 0) := by decide
theorem test_decode_fadd : nc32Decode 0 0b110000_00001_00010_00011_10000000001 = some (.fadd 0 true 1 2 3) := by decide
theorem test_decode_fldd : nc32Decode 0 0b110010_00001_00010_0000000000001000 = some (.fldd 0 1 2 8) := by decide

/-! ## The codes the spec names, on the nine bytes "123456789" -/

theorem test_crc32c : crc32c [0x31, 0x32, 0x33, 0x34, 0x35, 0x36, 0x37, 0x38, 0x39] = 0xE3069283 := by decide +kernel
theorem test_crc16 : crc16 [0x31, 0x32, 0x33, 0x34, 0x35, 0x36, 0x37, 0x38, 0x39] = 0x29B1 := by decide +kernel

/-! ## States and operands that meet the hypotheses of the statements -/

/-- ArithmeticInstructions, LogicAndShiftInstructions, MultiplyAndDivide, RetirementOnlyAdvancesPair, RegistersAndAddressForms: a pair
that issues; odd and even D at both ends of the registers; the largest byte and halfword. -/
theorem test_witness_integer_instructions : rdy.issues 0 ∧ (0 : Greg).val % 2 = 0 ∧ (30 : Greg).val % 2 = 0 ∧
    (1 : Greg).val % 2 = 1 ∧ (31 : Greg).val % 2 = 1 ∧ (rdy.pair 0).step = false ∧ (31 : Greg) ≠ 0 ∧ 255 < 256 ∧ 65535 < 65536 := by
  simp only [State.issues]; decide +kernel

theorem test_witness_SpecialRegisterMoves :
    let x := rdy.pair 0
    let u := (atUser rdy).pair 0
    rdy.issues 0 ∧ (atUser rdy).issues 0 ∧ (7 : Fin 32) = 7 ∧ 27 ≤ (27 : Fin 32).val ∧ 27 ≤ (31 : Fin 32).val ∧
    (23 : Fin 32).val < 24 ∧ (23 : Fin 32) ≠ 7 ∧ mtsForbidden 1 u.main.priv u.tid (u.main.gr 0) = true ∧
    mtsForbidden 0 x.main.priv x.tid 0x300 = false ∧ mtsForbidden 0 x.main.priv x.tid 0x200 = true ∧ mtsForbidden 23 x.main.priv x.tid (x.main.gr 0) = false ∧
    x.main.priv ≠ .user ∧ x.chk.priv ≠ .user ∧ x.main.gr 31 = x.chk.gr 31 ∧
    (let d := split fun c => { c with psw := 0 }
     let y := d.pair 0
     d.issues 0 ∧ mtsForbidden 1 y.main.priv y.tid (y.main.gr 0) ≠ mtsForbidden 1 y.chk.priv y.tid (y.chk.gr 0)) ∧
    (let e := split fun c => c.setG 31 9
     e.issues 0 ∧ (e.pair 0).main.priv ≠ .user ∧ (e.pair 0).chk.priv ≠ .user ∧ (e.pair 0).main.gr 31 ≠ (e.pair 0).chk.gr 31) := by
  simp only [State.issues]; decide +kernel

/-- Loads, StoresWriteData: aligned loads and stores at the ends of the TCM and outside it, answered with data, with and without room for late errors. -/
theorem test_witness_Loads :
    let r := rdy.pairReq 0
    let t := (rdy.awake 0).access r.master
    let f := { (g1 0x10000000 rdy).modFB 0 fun x => { x with cmd := some (.erase 0), dur := 100 } with now := 5 }
    (f.issues 0 ∧ ((f.pair 0).main.eaDisp 1 0).toNat = 0x10000000 ∧ f.permitted (f.pairReq 0) .read 0x10000000 4 = true ∧
      (match (((f.awake 0).access r.master).busRead (f.pairReq 0) false 0x10000000 4).1 with | .busy _ => true | _ => false) = true) ∧
    (rdy.pair 0).chk.priv = (rdy.pair 0).main.priv ∧
    rdy.issues 0 ∧ szListed false 5 = true ∧ szListed true 6 = true ∧ ((rdy.pair 0).main.eaDisp 0 0).toNat % 8 = 0 ∧
    (rdy.pair 0).main.eaDisp 0 0 = (rdy.pair 0).chk.eaDisp 0 0 ∧ rdy.permitted r .read 0 8 = true ∧
    (t.busRead r false 0 8).1 = .data 0 ∧ rdy.permitted r .write 0 8 = true ∧ (rdy.pair 0).late.length < 4 ∧
    (BitVec.ofNat 32 0xFFFFF).toNat < 0x100000 ∧ 0x100000 ≤ (BitVec.ofNat 32 0x100000).toNat := by
  simp only [State.issues]; decide +kernel

/-- A pair whose store buffer holds a fifth store. -/
theorem test_witness_StoresWriteData :
    4 < ((rdy.modPair 0 fun x => { x with sbuf := List.replicate 5 (0x20000000, 4) }).pair 0).sbuf.length := by decide +kernel

/-- A pair that waits for loaded data. -/
theorem test_witness_loadDataReturn : ∃ s l, (State.pair s 0).stall = some l ∧ l.post = none ∧ s.mode.cores = true ∧
    (s.pair 0).haltReq = false :=
  ⟨rdy.modPair 0 fun x => { x with stall := some ⟨.greg 1, 5, none⟩ }, ⟨.greg 1, 5, none⟩, by decide +kernel⟩

/-- A store outside the TCM finds no room when four errors wait. -/
theorem test_witness_TcmAndLinkedAccesses :
    let a := g1 0x80004 rdy
    let v := a.modPair 0 fun x => { x with resv := granule 0 0x80004 }
    let e := { g1 0x20000000 rdy with upset := [(0x20000000, true)] }.modPair 0 fun x => { x with resv := granule 0 0x20000000 }
    let r := a.pairReq 0
    (0xFFFF8 % 8 = 0 ∧ 0xFFFF8 + 8 ≤ 0x100000 ∧ a.cleanAt (aliasBase 3 + 0xFFFF8) 8) ∧
    ((a.pair 0).chk.gr 1 = (a.pair 0).main.gr 1 ∧ (a.pair 0).chk.priv = (a.pair 0).main.priv ∧ (a.pair 0).lost = none) ∧
    (let z := v.modPair 0 fun x => { x with chk := x.chk.setG 2 7 }
     z.issues 0 ∧ (z.pair 0).main.gr 2 ≠ (z.pair 0).chk.gr 2 ∧ (z.pair 0).resv = granule 0 0x80004 ∧ (v.pair 0).main.gr 2 = (v.pair 0).chk.gr 2) ∧
    a.issues 0 ∧ v.issues 0 ∧ e.issues 0 ∧ ((a.pair 0).main.gr 1).toNat % 4 = 0 ∧ a.permitted r .read 0x80004 4 = true ∧
    (((a.awake 0).access r.master).busRead r false 0x80004 4).1 = .data 0 ∧ a.permitted r .write 0x80004 4 = true ∧
    (a.pair 0).resv = none ∧ (v.pair 0).resv = granule 0 0x80004 ∧ (granule 0 0x80004).isSome = true ∧
    ((((v.awake 0).access r.master).clearResv 0).busWrite r 0x80004 0 4).ans.err = false ∧
    (e.pair 0).resv = granule 0 0x20000000 ∧ (granule 0 0x20000000).isSome = true ∧
    ((((e.awake 0).access r.master).clearResv 0).busWrite r 0x20000000 0 4).ans.err = true := by
  simp only [State.issues, State.cleanAt]; decide +kernel

theorem test_witness_noStc : rdy.noStc 0 := fun q _ => rdy_alone q

/-- A misaligned address, an address no window permits, an address that leads nowhere. -/
theorem test_witness_DataFaults :
    let m := g1 1 rdy
    let w := inMode .ready
    let e := g1 0x2000000 rdy
    m.issues 0 ∧ w.issues 0 ∧ e.issues 0 ∧ (m.pair 0).late.length < 4 ∧ ((m.pair 0).main.gr 1).toNat % 2 ≠ 0 ∧
    w.permitted (w.pairReq 0) .read 0 4 = false ∧ w.permitted (w.pairReq 0) .write 0 4 = false ∧
    e.permitted (e.pairReq 0) .read 0x2000000 8 = true ∧ (((e.awake 0).access 0).busRead (e.pairReq 0) false 0x2000000 8).1 = .error ∧
    (e.pair 0).chk.priv = (e.pair 0).main.priv ∧ (e.pairReq 0).master = 0 ∧
    (let x := split fun c => c.setG 1 8
     x.issues 0 ∧ (x.pair 0).chk.gr 1 ≠ (x.pair 0).main.gr 1 ∧ ((x.pair 0).main.gr 1).toNat % 8 = 0) ∧
    (let x := m.modPair 0 fun x => { x with chk := x.chk.setG 1 8 }
     x.issues 0 ∧ (x.pair 0).chk.gr 1 ≠ (x.pair 0).main.gr 1 ∧ ((x.pair 0).main.gr 1).toNat % 2 ≠ 0) := by
  simp only [State.issues]; decide +kernel

theorem test_witness_ControlTransfers :
    let b := rdy.modPair 0 fun x => { x with slot := some ⟨0, 64⟩ }
    let x := rdy.pair 0
    let d := split fun c => { c with psw := c.psw ||| 0x40000000 }
    (d.issues 0 ∧ (d.pair 0).slot = none ∧ condHolds 0 (d.pair 0).main.flags ≠ condHolds 0 (d.pair 0).chk.flags) ∧
    (let e := split fun c => { c.setG 31 8 with pred := { c.pred with bar := some (0, 0) } }
     let f := split fun c => { c with pred := { c.pred with bht := c.pred.bht.put 0 3 1, ras := [8] } }
     let guess (b : Pred) : Bool := b.bar.isNone && decide (2 ≤ (b.bht.get (getBits x.pc 12 2 ^^^ b.hist.toNat) 1).toNat)
     let top (b : Pred) : Option Word := if b.bar.isSome then none else b.ras.head?
     e.issues 0 ∧ (e.pair 0).slot = none ∧ (e.pair 0).main.gr 31 ≠ (e.pair 0).chk.gr 31 ∧
     f.issues 0 ∧ (f.pair 0).slot = none ∧ guess (f.pair 0).main.pred ≠ guess (f.pair 0).chk.pred ∧
     top (f.pair 0).main.pred ≠ top (f.pair 0).chk.pred ∧ guess x.main.pred = guess x.chk.pred ∧ top x.main.pred = top x.chk.pred) ∧
    rdy.issues 0 ∧ b.issues 0 ∧ x.slot = none ∧ (b.pair 0).slot ≠ none ∧ (14 : Fin 16) ≠ 15 ∧
    condHolds 14 x.main.flags = condHolds 14 x.chk.flags ∧ x.main.gr 31 = x.chk.gr 31 := by
  simp only [State.issues]; decide +kernel

theorem test_witness_SystemInstructions : rdy.issues 0 ∧ (rdy.pair 0).fpDue = none ∧ (rdy.pair 0).main.priv ≠ .user ∧
    (rdy.pair 0).chk.priv ≠ .user ∧ (atUser rdy).issues 0 ∧ ((atUser rdy).pair 0).main.priv = .user ∧
    ((atUser rdy).pair 0).chk.priv = .user ∧
    (let d := split fun c => { c with psw := 0 }
     d.issues 0 ∧ (d.pair 0).main.priv ≠ .user ∧ (d.pair 0).chk.priv = .user) := by
  simp only [State.issues]; decide +kernel

theorem test_witness_ExceptionEntry : rdy.entryFree 0 ⟨2, 7, 4, 0⟩ := ⟨test_witness_noStc, by decide +kernel⟩

/-- TRAP codes on either side of 0xFF00, a word that is no instruction, fetches no window permits and from a region without code;
refills answered with data, with a flash response marked busy, with an error. -/
theorem test_witness_TrapsAndFetches :
    let t5 := rdy.modPair 0 fun x => { x with tid := 5 }
    let at_ (a : Word) (s : State) := s.modPair 0 fun x => { x with pc := a }
    let n := at_ 0x20000000 (inMode .ready)
    let g := at_ 0x40000000 rdy
    let i := at_ 0x20000000 rdy
    let f := (at_ 0x10000000 rdy).modFB 0 fun x => { x with cmd := some (.erase 0), dur := 100 }
    let e := { at_ 0x20000000 rdy with upset := [(0x20000000, true)] }
    let r := rdy.pairReq 0
    let h (u : Option Bool) := i.modPair 0 fun x => { x with icache := [⟨0x20000000, List.replicate 32 0, u⟩] }
    (∀ u ∈ [none, some true], (h u).issues 0 ∧ (h u).permitted r .fetch 0x20000000 4 = true ∧
      (((h u).pair 0).icache.all fun k => decide (k.line = 0x20000000 ∧ k.upset = u)) = true ∧ ((h u).pair 0).icache ≠ []) ∧
    ((((h (some true)).awake 0).modPair 0 fun x => { x with icache := x.icache.filter fun k => k.line ≠ 0x20000000 }).bump
      F.LP_ECC_CNT_IC_DE (0 : Pair) 0 |>.refillRead 0 0x20000000).1 = .data 0 ∧
    rdy.issues 0 ∧ (rdy.pair 0).slot = none ∧ (BitVec.ofNat 16 0xFEFF).toNat < 0xFF00 ∧ 0xFF00 ≤ (BitVec.ofNat 16 0xFF00).toNat ∧
    (rdy.pair 0).tid = 0 ∧ (t5.pair 0).tid ≠ 0 ∧ t5.issues 0 ∧ nc32Decode 0 0xFFFFFFFF = none ∧
    n.issues 0 ∧ n.permitted r .fetch 0x20000000 4 = false ∧
    g.issues 0 ∧ g.permitted r .fetch 0x40000000 4 = true ∧ fetchable 0x40000000 = false ∧
    i.issues 0 ∧ i.permitted r .fetch 0x20000000 4 = true ∧ fetchable 0x20000000 = true ∧
    ((i.awake 0).refillRead 0 0x20000000).1 = .data 0 ∧
    f.issues 0 ∧ f.permitted r .fetch 0x10000000 4 = true ∧ fetchable 0x10000000 = true ∧
    (match ((f.awake 0).refillRead 0 0x10000000).1 with | .busy _ => true | _ => false) = true ∧
    e.issues 0 ∧ ((e.awake 0).refillRead 0 0x20000000).1 = .error ∧ (i.pair 0).icache = [] ∧ (f.pair 0).icache = [] ∧ (e.pair 0).icache = [] := by
  simp only [State.issues]; decide +kernel

/-- An ERET that R273 forbids at User, and one at Monitor whose task-state block asks for User in tenant 0. -/
theorem test_witness_ExceptionReturn :
    let x := rdy.pair 0
    let tsb := aliasBase 0 + x.main.tsbr.toNat
    rdy.issues 0 ∧ x.slot = none ∧ (atUser rdy).issues 0 ∧ ((atUser rdy).pair 0).main.priv = .user ∧ x.main.priv = .monitor ∧
    getBits (rdy.word (tsb + 0x80)) 9 8 = 0 ∧ getBits (rdy.word (tsb + 0x94)) 2 0 = 0 ∧ x.main.tsbr = x.chk.tsbr ∧
    x.main.priv = x.chk.priv ∧ ((atUser rdy).pair 0).main.priv = ((atUser rdy).pair 0).chk.priv ∧
    (let d := split fun c => { c with tsbr := 0x80100 }
     d.issues 0 ∧ (d.pair 0).main.priv = (d.pair 0).chk.priv ∧ (d.pair 0).main.priv ≠ .user ∧ (d.pair 0).main.tsbr ≠ (d.pair 0).chk.tsbr) ∧
    rdy.cleanAt (tsb + 0x80) 8 ∧ rdy.cleanAt (tsb + 0x94) 4 := by
  simp only [State.issues, State.cleanAt]; decide +kernel

/-- An enabled exception with none outstanding, one that is not enabled; an event outstanding, and one pending at a boundary. -/
theorem test_witness_FloatingPointInstructions :
    let e : FpEvent := ⟨0x40, 16, 16⟩
    let d : FpEvent := ⟨0x40, 16, 0⟩
    let o := rdy.modPair 0 fun x => { x with fpOut := some e }
    let q := rdy.modPair 0 fun x => { x with fpPend := some e }
    let x := q.pair 0
    (16 : FFlags) &&& ((0x1000 : Word) >>> 8).setWidth 5 ≠ 0 ∧ (8 : FFlags) &&& ((0x1000 : Word) >>> 8).setWidth 5 = 0 ∧
    rdy.issues 0 ∧ (rdy.pair 0).fpOut = none ∧ (rdy.pair 0).fpPend = none ∧
    o.issues 0 ∧ (o.pair 0).fpOut = some e ∧ (o.pair 0).fpPend = none ∧ (o.pair 0).fpDue = some e ∧
    (e.flags ≠ 0 ∧ e.chk ≠ 0 ∧ e.flags = e.chk ∧ d.flags ≠ d.chk) ∧
    x.fpPend = some e ∧ q.coreUp 0 = true ∧ x.slot = none ∧ x.late = [] := by
  simp only [State.issues]; decide +kernel

/-- In each format 1 and 2, the two zeros, a NaN, the infinities; the smallest normal number among the exact results of R267. -/
theorem test_witness_FloatingPointResults : ∀ dbl : Bool,
    let t := fmtOf dbl
    let k : Nat := if dbl then 52 else 23
    let size : Nat := if dbl then 64 else 32
    let big := (if dbl then 2047 else 255) * 2 ^ k
    let one := (if dbl then 1023 else 127) * 2 ^ k
    let low : Rat := 1 / ((2 ^ (if dbl then 1022 else 126) : Nat) : Rat)
    t.val one = .fin false (2 ^ k) (-(k : Int)) ∧ t.val (one + 2 ^ k) = .fin false (2 ^ k) (1 - (k : Int)) ∧
    t.val (2 ^ (size - 1) + one) = .fin true (2 ^ k) (-(k : Int)) ∧
    (match t.val 0 with | .fin false 0 _ => true | _ => false) = true ∧ big < (big + 1) % 2 ^ (size - 1) ∧ ¬ big < one % 2 ^ (size - 1) ∧
    t.val big = .inf false ∧ t.val (2 ^ (size - 1) + big) = .inf true ∧ 2 ^ (size - 1) % 2 ^ (size - 1) = 0 ∧
    t.relation one (one + 2 ^ k) = some .lt ∧ 2 ^ (size - 1) + big + 1 < 2 ^ size ∧ 3 < 4 ∧ low ≤ 1 + 2 ∧ low ≤ -(1 - 2 : Rat) := by
  decide +kernel

/-- Boundaries with a late store error, a recall, a halt. -/
theorem test_witness_BoundaryCauses :
    let l : LateStore := ⟨4, 1, 2⟩
    let a := rdy.modPair 0 fun x => { x with late := [l] }
    let c := rdy.setFld F.PTU_PAIRk_STAT_RECALLP 0 0 1
    let h := rdy.modPair 0 fun x => { x with haltReq := true }
    rdy.mode.cores = true ∧ rdy.faulted 0 = false ∧ rdy.coreUp 0 = true ∧ (rdy.pair 0).slot = none ∧ (rdy.pair 0).late = [] ∧
    rdy.flag F.LP_EXC_STAT_ARMED 0 0 = false ∧ (rdy.setFld F.LP_EXC_STAT_ARMED 0 0 1).flag F.LP_EXC_STAT_ARMED 0 0 = true ∧
    (a.coreUp 0 = true ∧ (a.pair 0).slot = none ∧ (a.pair 0).late.head? = some l ∧ a.flag F.LP_EXC_STAT_ARMED 0 0 = false ∧
      (a.pair 0).fpOut = none ∧ (a.pair 0).fpPend = none) ∧
    rdy.admits mon .write .PTU_RECALL 0 0 ∧
    (c.coreUp 0 = true ∧ (c.pair 0).slot = none ∧ c.flag F.LP_EXC_STAT_ARMED 0 0 = false ∧ (c.pair 0).late = [] ∧
      (c.pair 0).fpPend = none ∧ (c.pair 0).fpOut = none ∧ c.flag F.PTU_PAIRk_STAT_RECALLP 0 0 = true ∧
      c.flag F.LP_LS_STAT_LATPEND 0 0 = false) ∧
    (h.coreUp 0 = true ∧ (h.pair 0).slot = none ∧ (h.pair 0).late = [] ∧ (h.pair 0).fpPend = none ∧
      h.flag F.PTU_PAIRk_STAT_RECALLP 0 0 = false ∧ (h.pair 0).haltReq = true) ∧
    (let b := h.modPair 0 fun x => { x with slot := some ⟨0, 64⟩ }
     b.coreUp 0 = true ∧ (b.pair 0).slot ≠ none ∧ (b.pair 0).haltReq = true) ∧ (rdy.pair 0).haltReq = false ∧
    h.interruptNext 0 = false ∧ (h.both 0 fun c => { c with psw := c.psw ||| 0x10 }).interruptNext 0 = true ∧
    (let enters (i : State → State) : Bool := h.fld F.LP_EXC_STAT_SEQ 0 0 ≠ (i (h.awake 0)).fld F.LP_EXC_STAT_SEQ 0 0
     enters id = false ∧ enters (fun s => s.takeEntry 0 ⟨4, 0, 0, 0⟩) = true) := by
  simp only [State.admits]; decide +kernel

/-- Pairs with LATPEND, with ARMED, faulted; a sweep whose signatures agree, and differ in each mode. -/
theorem test_witness_PairFaultsAndSweep :
    let l := rdy.setFld F.LP_LS_STAT_LATPEND 0 0 1
    let a := rdy.setFld F.LP_EXC_STAT_ARMED 0 0 1
    let f := rdy.setFld F.LP_LS_STAT_FAULT 0 0 1
    let d := rdy.setFld F.LP_LS_CFG_LATENT 0 0 1
    let g (s : State) (u v : Word) := s.modPair 0 fun x => { x with sig := some (u, v) }
    let s1 (s : State) := ((s.count F.LP_SWEEP_CNT_COUNT 0 0).modPair 0 fun y => { y with sig := none }).sched 1 (.sweepSnapshot 0)
    7 < 8 ∧ 63 < 64 ∧ l.flag F.LP_LS_STAT_LATPEND 0 0 = true ∧ a.flag F.LP_LS_STAT_LATPEND 0 0 = false ∧
    a.flag F.LP_EXC_STAT_ARMED 0 0 = true ∧ f.faulted 0 = true ∧
    (g rdy 1 1).sweeps 0 = true ∧ ((g rdy 1 1).pair 0).sig = some (1, 1) ∧
    (g rdy 1 2).sweeps 0 = true ∧ ((g rdy 1 2).pair 0).sig = some (1, 2) ∧ (s1 (g rdy 1 2)).fld F.LP_LS_CFG_LATENT 0 0 = 0 ∧
    (g d 1 2).sweeps 0 = true ∧ (s1 (g d 1 2)).fld F.LP_LS_CFG_LATENT 0 0 ≠ 0 ∧ (s1 (g d 1 2)).flag F.LP_LS_STAT_LATPEND 0 0 = false ∧
    l.sweeps 0 = true ∧ rdy.isLate = false ∧ ((g rdy 1 2).mark 1 true).isLate = true ∧ ((g rdy 1 2).mark 1 true).sweeps 0 = true ∧
    (let b (n : Nat) := rdy.modPair 0 fun x => { x with before := some (n, x.main, x.chk) }
     ((b 0).pair 0).before.any (fun y => decide (y.1 = rdy.now)) = true ∧ ((b 9).pair 0).before.any (fun y => decide (y.1 = rdy.now)) = false ∧
      (rdy.pair 0).before = none) := by
  decide +kernel

/-- Event 5 pending and enabled for pair 0, at priority 3. -/
def offered : State :=
  let s := (rdy.setReg .EVC_SRCn_CFG 5 0 0x103).setReg .EVC_TGTk_THR 0 0 16
  let s := s.both 0 fun c => { c with psw := 0x310 }
  { s with evc := { s.evc with pend := BitVec.twoPow 512 5, mask := 0, ie := vset s.evc.ie 0 true } }

theorem test_witness_EventsAndInterrupts :
    let l := { rdy with evc := { rdy.evc with lock := vset rdy.evc.lock 0 (some 511) } }
    rdy.mode.cores = true ∧ assigned 0x198 = true ∧ rdy.evc.pend.getLsbD 0x198 = false ∧ rdy.evc.occ = 0 ∧ assigned 511 = false ∧
    assigned 5 = true ∧
    (let o := { rdy with evc := { rdy.evc with occ := BitVec.twoPow 512 5 } }
     o.evc.occ.getLsbD 5 = true) ∧ (inMode .blank).mode.cores = false ∧
    (let m := inMode .maintenance
     let w := { rdy with cyc := [.pend (BitVec.twoPow 512 5)] }
     m.mode = .maintenance ∧ m.mode.cores = true ∧ (0x040 ≤ (0x198 : SrcId).val) ∧ (0x03F : SrcId).val < 0x040 ∧
      w.cyc = [.pend (BitVec.twoPow 512 5)] ∧ (BitVec.twoPow 512 5).getLsbD 5 = true ∧ (rdy.opened mon.master).cyc = []) ∧
    (let d := offered.modPair 0 fun x => { x with chk := { x.chk with psw := 0x300 } }
     (∀ q : Pair, q ≠ 0 → d.offers[q] = none) ∧ d.offers[(0 : Pair)] = some 5 ∧ d.takesOffer 0 = true ∧
      (d.pair 0).main.ie ≠ (d.pair 0).chk.ie) ∧ (offered.pair 0).main.ie = (offered.pair 0).chk.ie ∧
    offered.evc.pend.getLsbD 5 = true ∧ offered.mode.cores = true ∧
    rdy.admits mon .write .EVC_PEND_SETj 15 0 ∧ rdy.admits mon .write .EVC_PEND_CLRj 15 0 ∧
    rdy.admits mon .write .EVC_MASK_SETj 0 0 ∧ rdy.admits mon .write .EVC_MASK_CLRj 15 0 ∧
    (∀ k : SrcId, rdy.evc.locked k = false) ∧ l.evc.locked 511 = true ∧ mon.pair = some 0 ∧ rdy.admits mon .write .EVC_CMPL 0 0 ∧
    (∀ q : Pair, q ≠ 0 → offered.offers[q] = none) ∧ offered.offers[(0 : Pair)] = some 5 ∧ offered.takesOffer 0 = true ∧
    (offered.pair 0).fpOut = none ∧ offered.flag F.LP_LS_STAT_LATPEND 0 0 = false := by
  simp only [State.admits]; decide +kernel

/-- Queue 3 of 4 slots, into which every tenant may push. -/
def queue3 : State := rdy.setReg .Qn_CFG 3 0 0x21FE0000

theorem test_witness_Queues_contents :
    let w := queue3.qWrite 3 7 0
    (queue3.queueSound 3 ∧ queue3.qFill 3 < queue3.qDepth 3 ∧ queue3.items 3 = []) ∧
    (w.queueSound 3 ∧ w.items 3 = [(7, 0)]) ∧
    (((w.qWrite 3 8 0).qWrite 3 9 2).queueSound 3 ∧ ((w.qWrite 3 8 0).qWrite 3 9 2).items 3 = [(7, 0), (8, 0), (9, 2)]) ∧
    ((w.qWrite 3 8 1).queueSound 3 ∧ (w.qWrite 3 8 1).items 3 = [(7, 0), (8, 1)]) := by
  simp only [State.queueSound]; decide +kernel

/-- A packet that has ended, and one whose end is an error, behind slots that hold no mark; a queue with no mark at all. -/
theorem test_witness_Queues_packet :
    let w := queue3.qWrite 3 7 0
    let m := (w.qWrite 3 8 0).qWrite 3 9 2
    let e := w.qWrite 3 8 1
    (2 < (m.items 3).length ∧ (∀ i < 2, ((m.items 3)[i]?).any (fun x => x.2 = 0) = true) ∧
      ((m.items 3)[2]?).any (fun x => x.2.getLsbD 1) = true) ∧
    (1 < (e.items 3).length ∧ (∀ i < 1, ((e.items 3)[i]?).any (fun x => x.2 = 0) = true) ∧
      ((e.items 3)[1]?).any (fun x => !x.2.getLsbD 1 && x.2.getLsbD 0) = true) ∧
    (∀ x ∈ w.items 3, x.2 = 0) := by
  intro w m e
  rw [show m.items 3 = [(7, 0), (8, 0), (9, 2)] from test_witness_Queues_contents.2.2.1.2,
    show e.items 3 = [(7, 0), (8, 1)] from test_witness_Queues_contents.2.2.2.2,
    show w.items 3 = [(7, 0)] from test_witness_Queues_contents.2.1.2]
  refine ⟨⟨by decide, fun i h => ?_, rfl⟩, ⟨by decide, fun i h => ?_, rfl⟩, fun x h => by rw [List.mem_singleton.1 h]⟩
  · obtain rfl | rfl : i = 0 ∨ i = 1 := by omega
    · rfl
    · rfl
  · obtain rfl : i = 0 := by omega
    rfl

theorem test_witness_Queues :
    let w := queue3.qWrite 3 7 0
    let m := (w.qWrite 3 8 0).qWrite 3 9 2
    let f := m.qWrite 3 0 0
    let d := queue3.setFld F.Qn_STAT_DROPPING 3 0 1
    let c := queue3.setFld F.Qn_CFG_CREDIT 3 0 1
    let n := queue3.setFld F.Qn_CFG_PRODT 3 0 0
    let dbg : Req := ⟨0, 1, .user⟩
    queue3.admits mon .write .Qn_TAIL 3 0 ∧ queue3.admits mon .write .Qn_TAIL_EOP 3 0 ∧ c.qCredit 3 = true ∧
    c.admits mon .write .Qn_TAIL 3 0 ∧ queue3.qCredit 3 = false ∧ n.qCredit 3 = false ∧ n.mayPush mon.tenant 3 = false ∧
    queue3.mayPush mon.tenant 3 = true ∧ d.flag F.Qn_STAT_DROPPING 3 0 = true ∧ queue3.flag F.Qn_STAT_DROPPING 3 0 = false ∧
    queue3.qFill 3 + 2 ≤ queue3.qDepth 3 ∧ m.qDepth 3 < m.qFill 3 + 2 ∧ m.qCredit 3 = false ∧ m.mayPush mon.tenant 3 = true ∧
    queue3.admits mon .read .Qn_HEAD 3 0 ∧ queue3.mayPop mon 3 = true ∧ queue3.mayPop dbg 3 = false ∧
    queue3.admits mon .write .Qn_CTRL 3 0 ∧
    0 < (w.opened mon.master).qFill 3 - (w.opened mon.master).cycAdded 3 ∧ (queue3.opened mon.master).qFill 3 = 0 ∧
    (w.opened mon.master).cycPushes 3 = [] ∧
    m.items 3 = [(7, 0), (8, 0)] ++ [(9, 2)] ∧ (2 : BitVec 2).getLsbD 1 = true ∧ getBits 9 15 0 < 65535 ∧ f.qFill 3 = f.qDepth 3 := by
  simp only [State.admits]; decide +kernel

theorem test_witness_queue_full : (∀ x xs, (queue3.qWrite 3 7 0).items 3 = xs ++ [x] → x.2.getLsbD 1 = false) ∧
    (queue3.qWrite 3 7 0).qFill 3 < (queue3.qWrite 3 7 0).qDepth 3 := by
  refine ⟨fun x xs h => ?_, by decide +kernel⟩
  have e : (queue3.qWrite 3 7 0).items 3 = [] ++ [(7, 0)] := by decide +kernel
  rw [e] at h
  obtain ⟨-, h⟩ := List.append_inj' h rfl
  obtain rfl := List.cons.inj h |>.1
  rfl

/-- A pool of 256-byte buffers whose buffer 0 tenant 2 holds. -/
def pool : State :=
  (((rdy.setReg .Q_POOL_CFG 0 0 8).setReg .Q_POOL_BASE 0 0 0x20000000).setReg .Q_POOL_TAGi 0 0 10).setReg .Q_POOL_STAT 0 0 4095

/-- The pool with buffer i allocated to pair 1 by a read of this cycle whose answer it waits for. -/
def allocated (i : Fin 4096) : State :=
  { pool with cyc := [.alloc 1 i] }.modPair 1 fun x => { x with stall := some ⟨.greg 1, 0x20000000, none⟩ }

/-- Semaphore 63 acquired by pair 1 in the same way. -/
def taken : State :=
  { rdy.setReg .Q_SEMn 63 0 0x300 with cyc := [.got 1 63] }.modPair 1 fun x => { x with stall := some ⟨.greg 1, 0x301, none⟩ }

theorem test_alloc_lower_pair_first :
    (match exec (.poolAlloc mon) (allocated 0) with
      | .next t => t.ans.data == 0x20000000 && (t.pair 1).stall.map (·.val) == some 0x20000100
      | _ => false) = true := by decide +kernel

theorem test_semaphore_lower_pair_first :
    (match exec (.semAcquire mon 63) taken with
      | .next t => t.ans.data == 0x101 && (t.pair 1).stall.map (·.val) == some 0x100
      | _ => false) = true := by decide +kernel

theorem test_witness_BuffersAndSemaphores :
    let t2 : Req := ⟨0, 2, .monitor⟩
    let h := rdy.setReg .Q_SEMn 63 0 0x2100
    let loader : Req := ⟨6, 0, .monitor⟩
    pool.admits mon .read .Q_POOL_ALLOC 0 0 ∧ pool.poolOn = true ∧ pool.bufHeld 1 = false ∧ pool.bufHeld 0 = true ∧
    rdy.poolOn = false ∧ pool.admits mon .write .Q_POOL_FREE 0 0 ∧ pool.admits mon .write .Q_POOL_GIVE 0 0 ∧
    pool.fld F.Q_POOL_CFG_LOG2SZ 0 0 ≠ 0 ∧ (0x20000000 : Word).toNat = (pool.reg .Q_POOL_BASE 0 0).toNat + 0 * 256 ∧
    ((0x20000107 : Word) &&& 0xFFFFFF00).toNat = (pool.reg .Q_POOL_BASE 0 0).toNat + 1 * 256 ∧
    pool.bufHeld 0 = true ∧ pool.fld F.Q_POOL_TAGi_OWNER 0 0 = t2.tenant.val ∧ pool.fld F.Q_POOL_TAGi_OWNER 0 0 ≠ mon.tenant.val ∧
    rdy.admits mon .read .Q_SEMn 63 0 ∧ rdy.flag F.Q_SEMn_HELD 63 0 = false ∧ mon.pair = some 0 ∧
    h.flag F.Q_SEMn_HELD 63 0 = true ∧ h.fld F.Q_SEMn_PAIR 63 0 = 0 ∧ h.admits mon .write .Q_SEMn 63 0 ∧ loader.pair = none ∧
    (let w := { h with cyc := [.want 1 63] }.modPair 1 fun x => { x with stall := some ⟨.greg 1, 0, none⟩ }
     (h.opened mon.master).semWaiter 63 = none ∧ (w.opened mon.master).semWaiter 63 = some 1 ∧ w.admits mon .write .Q_SEMn 63 0 ∧
      w.flag F.Q_SEMn_HELD 63 0 = true ∧ w.fld F.Q_SEMn_PAIR 63 0 = 0 ∧ w.admits mon .write .Q_SEM_FORCE 0 0 ∧ mon.t0mon = true ∧
      t2.t0mon = false ∧ (63 : Word).toNat % 64 = 63) ∧
    (pool.opened mon.master).allocsAbove 0 = [] ∧ (rdy.opened mon.master).allocsAbove 0 = [] ∧ (h.opened mon.master).semTaker 0 63 = none ∧
    ((allocated 0).opened mon.master).allocsAbove 0 = [(1, 0)] ∧ (allocated 0).poolOn = true ∧ (allocated 0).bufHeld 1 = false ∧
    (allocated 0).bufHeld 0 = true ∧ (allocated 0).admits mon .read .Q_POOL_ALLOC 0 0 ∧
    (taken.opened mon.master).semTaker 0 63 = some 1 ∧ taken.admits mon .read .Q_SEMn 63 0 ∧ taken.flag F.Q_SEMn_HELD 63 0 = true ∧
    rdy.admits loader .write .Q_SEMn 0 0 ∧ rdy.admits mon .write .Q_SEM_FORCE 0 0 := by
  simp only [State.admits]; decide +kernel

theorem test_witness_pool_low : ∀ k < (1 : Fin 4096), pool.bufHeld k = true := by
  have h : pool.bufHeld 0 = true := by decide +kernel
  intro k hk
  obtain rfl : k = 0 := Fin.ext (by have := Fin.lt_def.1 hk; simp at this; omega)
  exact h

theorem test_witness_pool_off (v : Word) (base size : Nat) : ∀ k : Fin 4096, ¬(rdy.poolOn = true ∧ v.toNat = base + k.val * size) := by
  have h : rdy.poolOn = false := by decide +kernel
  intro k; simp [h]

/-- A 64-byte copy within SRAM. -/
def copy64 : DmaDesc := ⟨0x20000000, 0x20000100, 64, true, false, 0, false, 2, 1, 0, 0, 0, 0⟩

/-- Channel 31 busy with its descriptor fetched. -/
def dmaBusy31 : State :=
  let s := rdy.setFld F.DCHn_STAT_BUSY 31 0 1
  { s with dma := { s.dma with ch := vset s.dma.ch 31 ⟨some copy64, 0, 0, none⟩ } }

theorem test_witness_DmaChannels :
    let t1 : Req := ⟨0, 1, .user⟩
    let paced := rdy.setFld F.DCHn_CFG_REQ 31 0 2
    let b : DmaBlock := ⟨31, 64, 0, 8, 0, 0, 0, 0, [], [], false⟩
    let x := { dmaBusy31 with dma := { dmaBusy31.dma with block := some b } }
    255 < 256 ∧ rdy.admits mon .write .DCHn_CTRL 31 0 ∧ rdy.mode.cores = true ∧ mon.owns (rdy.dmaOwner 31) = true ∧
    t1.owns (rdy.dmaOwner 31) = false ∧ rdy.fld F.DCHn_CFG_REQ 31 0 < 2 ∧ 2 ≤ paced.fld F.DCHn_CFG_REQ 31 0 ∧
    paced.flag F.DCHn_STAT_BUSY 31 0 = false ∧ (vset rdy.dma.ch 31 ⟨some copy64, 0, 0, some 3⟩)[(31 : Chan)].on = some 3 ∧
    rdy.flag F.DCHn_STAT_BUSY 31 0 = false ∧ dmaBusy31.flag F.DCHn_STAT_BUSY 31 0 = true ∧ dmaBusy31.dmaExec 31 = false ∧
    x.flag F.DCHn_STAT_BUSY 31 0 = true ∧ x.dma.block = some b ∧
    rdy.dma.ch[(31 : Chan)].desc = none := by
  simp only [State.admits]; decide +kernel

theorem test_witness_dmaLine :
    let line := (rdy.setFld F.DCHn_CFG_REQ 31 0 2).setFld F.DCHn_CFG_PREQ 31 0 31
    ∀ k : Chan, (line.fld F.DCHn_CFG_REQ k 0 = 2 ∧ line.fld F.DCHn_CFG_PREQ k 0 = 31) ↔ k = 31 := by
  decide +kernel

/-- A block of channel 31 that is due, with nothing made of it yet. -/
def dmaRuns (stop : Bool) : State :=
  { dmaBusy31 with now := 24, dma := { dmaBusy31.dma with block := some ⟨31, 64, 0, 8, 0, 0, 0, 0, [], [], stop⟩ } }

/-- Channel 31 with a descriptor of CNT = 0, fetched in lc 0. -/
def dmaEmpty (now : Nat) : State :=
  { dmaBusy31 with now := now, dma := { dmaBusy31.dma with ch := vset dmaBusy31.dma.ch 31 ⟨some { copy64 with cnt := 0 }, 0, 0, none⟩ } }

/-- The state in which DMA_BLOCK_START chooses. -/
def paced (s : State) : State := (List.finRange 32).foldl State.dmaPace (s.unsched .dmaBlockStart)

theorem test_witness_dmaBlocks :
    let e := rdy.setFld F.DCHn_STAT_BUSY 31 0 1
    let f := e.setReg .DCHn_CUR 31 0 4
    let z := e.setReg .DCHn_CUR 31 0 0x20000000
    let w := { dmaRuns false with ix := { rdy.ix with wait := vset rdy.ix.wait 0 [⟨4, false, false, 0, false⟩] } }
    (dmaBusy31.dma.block = none ∧ dmaBusy31.mode.cores = true ∧ dmaBusy31.sys.retReq = false ∧
      (∀ k, (paced dmaBusy31).dmaEmptyEnds k = false) ∧ (paced dmaBusy31).dmaEmptyWaits = false ∧
      (paced dmaBusy31).dmaChoose = some 31 ∧ (paced dmaBusy31).dmaCan 31 = true ∧ copy64.cnt < 2 ^ 32) ∧
    ((∀ k, (paced (dmaEmpty 0)).dmaEmptyEnds k = false) ∧ (paced (dmaEmpty 0)).dmaEmptyWaits = true) ∧
    ((∀ k, (paced (dmaEmpty 2)).dmaEmptyEnds k = true ↔ k = 31) ∧
      ((paced (dmaEmpty 2)).dmaDescEnd 31 { copy64 with cnt := 0 }).dmaEmptyWaits = false ∧
      ((paced (dmaEmpty 2)).dmaDescEnd 31 { copy64 with cnt := 0 }).dmaChoose = none) ∧
    ((paced rdy).dmaEmptyWaits = false ∧ (paced rdy).dmaChoose = none) ∧
    ((paced f).dmaEmptyWaits = false ∧ (paced f).dmaChoose = some 31 ∧ f.dma.ch[(31 : Chan)].desc = none ∧
      (((paced f).dmaFetch 31).dmaPace 31).dma.ch[(31 : Chan)].desc = none ∧
      (((paced f).dmaFetch 31).dmaPace 31).dmaEmptyWaits = false) ∧
    ((paced z).dmaChoose = some 31 ∧ (((paced z).dmaFetch 31).dmaPace 31).dmaEmptyWaits = true) ∧
    (dmaRuns false).dma.ch[(31 : Chan)].desc = some copy64 ∧
    ((dmaRuns false).dma.block.any fun b => !b.stop) = true ∧ ((dmaRuns true).dma.block.any fun b => b.stop) = true ∧
    (w.dma.block.any fun b => w.dmaHeld b copy64) = true := by
  decide +kernel

/-- Blocks that move all their elements, that find no destination, that find no source; one whose ABORT finds a beat made. -/
theorem test_witness_dmaMove :
    let f : DmaFlow := ⟨[], []⟩
    let go (d : DmaDesc) := rdy.dmaMove (rdy.dmaReq 31) d f 0 16
    let m := go copy64
    let out := m.2.2.2.dmaFlush (rdy.dmaReq 31) copy64.dstUnit m.2.2.1.wr
    (m.1 = .moved ∧ m.2.1 = 16 ∧ out.1 = []) ∧
    (go { copy64 with dst := 0x10000000 }).1 = .writeErr ∧
    (match (go { copy64 with src := 0x60000000 }).1 with | .readErr _ => true | _ => false) = true ∧
    ((rdy.dmaFlush (rdy.dmaReq 31) copy64.dstUnit []).1 = [] ∧ 64 = copy64.cnt ∧ copy64.last = true ∧ (0 : Nat) ≠ copy64.cnt) ∧
    (let p := rdy.dmaMove (rdy.dmaReq 31) { copy64 with dst := 0x10000000 } f 0 1
     p.1 = .moved ∧ (p.2.2.2.dmaFlush (rdy.dmaReq 31) copy64.dstUnit p.2.2.1.wr).1 ≠ []) := by
  decide +kernel

/-- A plain copy, an interleave of two arrays, a bit-plane group of bytes, a copy out of a queue and one into a credit queue. -/
theorem test_witness_DmaCopies :
    let sound (d : DmaDesc) (k : Nat) : Bool :=
      let n := List.range (k * d.counts.1)
      let m := List.range (k * d.counts.2)
      let sram (a len : Nat) : Bool := decide (0x20000000 ≤ a) && decide (a + len ≤ 0x21800000)
      let apart (a b x y : Nat) : Bool := decide (a + b ≤ x) || decide (x + y ≤ a)
      decide (d.esz < 3) && decide (d.xf < 4) &&
      (decide (d.srcmode = 2) || n.all fun j => sram (d.srcAddr j) d.srcUnit &&
        (decide (d.xf ≠ 1) || rdy.windowOk (rdy.dmaReq 31) .read (d.srcAddr j) d.size)) &&
      (decide (d.dstmode = 2) || m.all fun j => sram (d.dstAddr j) d.dstUnit &&
        (List.range j).all fun i => apart (d.dstAddr i) d.dstUnit (d.dstAddr j) d.dstUnit) &&
      (decide (d.srcmode = 2 ∨ d.dstmode = 2) || n.all fun i => m.all fun j => apart (d.srcAddr i) d.srcUnit (d.dstAddr j) d.dstUnit)
    let out := { copy64 with src := 3, srcmode := 2 }
    let inq := { copy64 with dst := 3, dstmode := 2 }
    let q := queue3.qWrite 3 7 0
    let c := queue3.setFld F.Qn_CFG_CREDIT 3 0 1
    rdy.upset = [] ∧ (∀ q : Pair, (rdy.pair q).stc = none) ∧
    sound copy64 16 = true ∧ sound { copy64 with xf := 1, nstr := 2, pitch := 32 } 16 = true ∧ sound { copy64 with xf := 3, esz := 0 } 2 = true ∧
    sound out 1 = true ∧ sound inq 2 = true ∧
    (out.srcmode = 2 ∧ (3 : QId) = Fin.ofNat 256 out.src ∧ out.dstmode = 0 ∧ out.xf = 0 ∧ q.queueSound 3 ∧ q.cycPushes 3 = [] ∧ 1 ≤ q.qFill 3) ∧
    (inq.dstmode = 2 ∧ (3 : QId) = Fin.ofNat 256 inq.dst ∧ inq.srcmode = 0 ∧ inq.xf = 0 ∧ c.queueSound 3 ∧ c.qCredit 3 = true ∧
      c.flag F.Qn_STAT_DROPPING 3 0 = false ∧ c.qFill 3 + 2 ≤ c.qDepth 3) := by
  simp only [State.queueSound]; decide +kernel

/-- Maintenance mode, with the key written and FL_ADDR at the start of flash. -/
def flash : State :=
  let s := (winAll (inMode .maintenance)).setReg .FL_ADDR 0 0 0x10000000
  { s with fl := { s.fl with key := true } }

theorem test_witness_FlashCommands :
    flash.admits mon .write .FL_KEY 0 0 ∧ flash.admits mon .write .FL_WS 0 0 ∧ flash.admits mon .write .FL_CMD 0 0 ∧
    flash.fld F.FL_WS_WSMIN 0 0 ≤ (15 : Word).toNat % 16 ∧ (0 : Word).toNat % 16 < (flash.setFld F.FL_WS_WSMIN 0 0 1).fld F.FL_WS_WSMIN 0 0 ∧
    flash.flRefusal mon 1 = none ∧ flash.flRefusal mon 2 = none ∧ (flash.setReg .FL_ADDR 0 0 0x10000004).flRefusal mon 1 = some 4 ∧
    (flash.setReg .FL_ADDR 0 0 0x12000000).flRefusal mon 2 = some 9 ∧ (flash.opened mon.master).cyc = [] ∧
    { flash with cyc := [.load 0 0 1 2] }.cyc = [.load 0 0 1 2] := by
  simp only [State.admits]; decide +kernel

theorem test_witness_FlashEndsAndServices :
    let p := flash.modFB 0 fun x => { x with cmd := some (.program 0x10000000 (List.replicate 32 5)) }
    let e := flash.modFB 3 fun x => { x with cmd := some (.erase 127) }
    let l := { flash with fl := { flash.fl with lower := some 0 } }
    let r (n : Nat) := rdy.modFB 0 fun x => { x with refr := some (127, n) }
    let m := rdy.modFB 0 fun x => { x with mpos := 262142 }
    (p.mode = .maintenance ∧ p.sys.retReq = false ∧ p.sys.faultReq = none ∧ p.fl.lower = none ∧ p.fl.banks[0].refr = none ∧
      p.fl.banks[0].queue = [] ∧ p.fl.banks[0].cmd = some (.program 0x10000000 (List.replicate 32 5)) ∧
      SMap.wf memDefault p.mem = true) ∧
    (e.fl.banks[3].cmd = some (.erase 127) ∧ e.fl.banks[3].refr = none ∧ e.fl.banks[3].queue = []) ∧
    flash.admits mon .write .FL_PL_REQ 0 0 ∧ flash.fl.key = true ∧ flash.mode = .maintenance ∧ mon.isDebug = false ∧ mon.level = .monitor ∧
    flash.windowOk mon .write (flash.reg .FL_ADDR 0 0).toNat 1 = true ∧ (∀ x : FBank, flash.flBusy x = false) ∧
    flash.fld F.FL_PL_LEVEL 0 0 ≤ 2 ∧ 0 < (flash.setFld F.FL_PL_LEVEL 0 0 1).fld F.FL_PL_LEVEL 0 0 ∧
    l.fl.lower = some (0 : BitVec 2).toNat ∧
    (rdy.mode ≠ .reset ∧ rdy.mode ≠ .retention ∧ rdy.flWorks 0 = false ∧ rdy.fl.banks[0].mpos = 0 ∧ rdy.flIntr 0 0 = false ∧
      SMap.find? rdy.upset (flBase 0 0) = none) ∧
    (m.flWorks 0 = false ∧ m.fl.banks[0].mpos = 262142 ∧ m.flIntr 0 (262142 / 2048 % 128) = false) ∧
    (∀ n ∈ [1, 2, 3, 4, 5], (r n).flWorks 0 = false ∧ (r n).fl.banks[0].refr = some (127, n) ∧ (r n).fl.banks[0].queue = []) ∧
    rdy.upset = [] := by
  simp only [State.admits]; decide +kernel

/-- Converter 7 enabled with its sequence 3, urgent or not. -/
def adc7 (m : Mode) (urgent : Nat) : State :=
  (((winAll (inMode m)).setReg .ADCx_CTRL 7 0 1).setReg .ADCx_SEQs_CFG 7 3 (BitVec.ofNat 32 (0x20 + 16 * urgent)))

/-- Converter 7 with an entry of sequence q. -/
def adcAt (q : Fin 4) (conv ghost : Bool) (s : State) : State :=
  s.modAdc 7 fun a => { a with cur := some ⟨q, 0, 0, conv, ghost, false, false, 0, false⟩ }

theorem test_witness_AdcTriggersAndConfiguration :
    let s := adc7 .ready 0
    let u := adc7 .ready 1
    let m := RegName.ADCx_SEQs_CFG.addr 7 3
    let on (s : State) : Bool := s.flag F.ADCx_CTRL_EN 7 0 && s.flag F.ADCx_SEQs_CFG_EN 7 3
    let p := s.modAdc 7 fun a => { a with pend := [⟨false, 0, 1⟩] }
    let two := s.modAdc 7 fun a => { a with trig := [3, 1] }
    ((∀ k : Fin 4, k ∈ (s.modAdc 7 fun a => { a with trig := [3] }).adc[(7 : Conv)].trig ↔ k = 3) ∧
      (∀ k : Fin 4, k ∈ two.adc[(7 : Conv)].trig ↔ k = 1 ∨ k = 3) ∧ two.adcUrgent 7 3 = false ∧ two.adcUrgent 7 1 = false ∧ (1 : Fin 4) < 3) ∧
    on rdy = false ∧ on (adc7 .verify 0) = true ∧ (adc7 .verify 0).mode = .verify ∧
    on s = true ∧ on u = true ∧ s.mode.live = true ∧ u.mode.live = true ∧ s.marked m false = false ∧ s.marked m true = false ∧
    s.admits mon .write .ADCx_SWTRIG 7 0 ∧
    (adcAt 3 false false s).adc[(7 : Conv)].busy 3 = true ∧ s.adc[(7 : Conv)].busy 3 = false ∧ s.adc[(7 : Conv)].idle = true ∧
    (p.adc[(7 : Conv)].busy 3 = false ∧ p.adc[(7 : Conv)].cur = none ∧ p.adc[(7 : Conv)].idle = false) ∧
    ((adcAt 1 true false s).adc[(7 : Conv)].busy 3 = false ∧ (adcAt 1 true false s).adcUrgent 7 3 = false) ∧
    ((adcAt 1 true false u).adc[(7 : Conv)].busy 3 = false ∧ (adcAt 1 true false u).adcUrgent 7 3 = true ∧
      (adcAt 1 true false u).adcUrgent 7 1 = false ∧ ((adcAt 1 true false u).adc[(7 : Conv)].cur.any fun c => c.conv && !c.ghost) = true) ∧
    ((adcAt 1 false false u).adc[(7 : Conv)].cur.any fun c => !c.conv && !c.ghost) = true ∧
    s.admits mon .write .ADCx_SEQs_CFG 7 3 ∧ s.admits mon .write .ADCx_ENT_s_e 7 (entIx 3 15) ∧
    47 < getBits (48 : Word) 5 0 ∧ ¬(47 < getBits (47 : Word) 5 0) ∧ ((65 : Word).getLsbD 6 = true ∧ (65 : Word).getLsbD 0 = true) ∧
    s.mode ≠ .loading ∧ s.admits mon .write .ADCx_REF_CFG 7 0 ∧ (1 : BitVec 2).toNat ≠ s.fld F.ADCx_REF_CFG_SRC 7 0 ∧
    (0 : BitVec 2).toNat = s.fld F.ADCx_REF_CFG_SRC 7 0 ∧ s.mode.cores = true := by
  simp only [State.admits]; decide +kernel

theorem test_witness_ConversionsAndRotation :
    let a := adcAt 3 false false (adc7 .ready 0)
    let e := adcAt 3 true false (adc7 .ready 0)
    let w := { rdy with rot := { rdy.rot with waits := true, dueAt := some 399999 } }
    let good (c : SpareCal) : Bool := c.off.natAbs ≤ 64000 && c.gain.natAbs ≤ 5000 && c.inl.natAbs ≤ 1500
    (good ⟨-64000, 5000, 1500, []⟩ = true ∧ good ⟨64001, 0, 0, []⟩ = false ∧ good ⟨0, -5001, 0, []⟩ = false ∧ good ⟨0, 0, 1501, []⟩ = false) ∧
    (w.rot.dueAt = some 399999 ∧ 399999 < w.now + 400000) ∧
    (a.adc[(7 : Conv)].cur = some ⟨3, 0, 0, false, false, false, false, 0, false⟩ ∧ a.mode.live = true) ∧
    ((2 : Int) * 2500000000 * 65536 ≤ 2 * (2500000000 - 0) * 65536 + 2500000000 ∧
      (2 : Int) * (2500000000 - 0) * 65536 + 2500000000 < 2 * 2500000000 * (65536 + 1)) ∧
    (e.adc[(7 : Conv)].cur = some ⟨3, 0, 0, true, false, false, false, 0, false⟩ ∧ e.adc[(7 : Conv)].done = none) ∧
    0 < (e.setFld F.ADCx_SEQs_CFG_LEN 7 3 1).adcLen 7 3 ∧ e.adcLen 7 3 ≤ 0 ∧
    (e.setFld F.ADCx_SEQs_CFG_DONEEVT 7 3 1).flag F.ADCx_SEQs_CFG_DONEEVT 7 3 = true ∧ e.admits mon .write .ADCx_CTRL 7 0 ∧
    rdy.mode.live = true ∧ rdy.fld F.ADC_ROT_STAT_SPARE 0 0 < 9 ∧ rdy.fld F.ADC_ROT_STAT_NEXT 0 0 < 8 ∧ rdy.rot.waits = false ∧
    (w.rot.waits = true ∧ w.rot.calBusy = false ∧ w.adc[w.rotNext].idle = true) ∧
    a.fld F.ADCx_REF_CFG_SRC 7 0 = 0 ∧ (0 : Int) < 2500000000 ∧ (∃ y : Conv, rdy.coreOf y = (7 : Fin 9).val) := by
  simp only [State.admits]; decide +kernel

theorem test_witness_Comparators :
    let a := RegName.CMPn_THR.addr 47 0
    let c : CheckSt := ⟨47, 0, 0, none, 0, 0, false, false, none, none, none, none, false⟩
    let tw := ((rdy.setFld F.CMP_WINk_CFG_EN 15 0 1).setFld F.CMPn_CFG_MODE 30 0 1).setFld F.CMPn_CFG_MODE 31 0 1
    (tw.cmps.chk = none ∧ tw.cmpMode 30 = 1 ∧ tw.cmpMode 31 = 1 ∧ tw.cmpTwin 30 = some 31 ∧ tw.cmpTwin 31 = some 30 ∧ tw.cmpTwin 29 ≠ some 28) ∧
    (rdy.cmps.cmp[(47 : CmpId)].ends = none ∧
      (let g := { rdy.modCmp 47 fun x => { x with ends := some 9 } with now := 8 }
       g.cmps.cmp[(47 : CmpId)].ends = some 9 ∧ g.now < 9) ∧ ({ rdy with now := 9 } : State).now ≥ 9) ∧
    let k := { rdy with cmps := { rdy.cmps with chk := some c } }
    let m1 := rdy.setFld F.CMPn_CFG_MODE 47 0 1
    let m2 := rdy.setFld F.CMPn_CFG_MODE 47 0 2
    let t (w now : Nat) := { m2.modCmp 47 (fun x => { x with samp := some (w, true), lastTick := some 6 }) with now := now }
    rdy.admits mon .write .CMPn_THR 47 0 ∧ rdy.admits mon .write .CMPn_THR_ALT 47 0 ∧ (rdy.mark a true).marked a true = true ∧
    rdy.marked a true = false ∧ k.cmpCheckOf 47 = some c ∧ rdy.cmpCheckOf 47 = none ∧
    rdy.cmpCode 47 = rdy.cmps.cmp[(47 : CmpId)].dac ∧ (rdy.setReg .CMPn_THR 47 0 65).cmpCode 47 ≠ rdy.cmps.cmp[(47 : CmpId)].dac ∧
    rdy.mode.live = true ∧ (0x10000 : Word).getLsbD 16 = true ∧ (0xFFFF : Word).getLsbD 16 = false ∧
    (m1.cmps.chk = none ∧ m1.cmpMode 47 = 1 ∧ m1.mode.live = true) ∧ (m2.cmps.chk = none ∧ m2.cmpMode 47 = 2) ∧
    (t 9 10).cmpEarly 47 = false ∧ (t 9 9).cmpEarly 47 = true ∧ (t 9 9).cmps.cmp[(47 : CmpId)].samp = some (9, true) ∧
    (rdy.setFld F.CMP_WINk_CFG_EN 15 0 1).flag F.CMP_WINk_CFG_EN 15 0 = true := by
  simp only [State.admits]; decide +kernel

theorem test_witness_ComparatorChecks :
    let f := rdy.setReg .CMPn_CFG 0 0 0x3F00001
    let c : CheckSt := ⟨0, 0, 0, none, 0, 0, false, false, none, none, none, none, false⟩
    let at_ (t : Nat) (c : CheckSt) : State := { f with now := t, cmps := { f.cmps with chk := some c } }
    let k (p : Nat) := { f with cmps := { f.cmps with chk := some { c with phase := p } } }
    let o := { f with cmps := { f.cmps with chk := some { c with cmp := 5 } } }
    let w := { f with cmps := { f.cmps with chk := some c, wait := some (1, 0, 0) } }
    let d := { f with cmps := { f.cmps with wait := some (1, 0, 0) } }
    let q := f.setReg .CMPn_CFG 0 0 0x501
    rdy.admits mon .write .CMP_CHECK 0 0 ∧ (0x1000 : Word).getLsbD 12 = true ∧ f.mode.live = true ∧
    ((0x1000 : Word).toNat % 64 < 48 ∧ (0x1000 : Word).toNat / 64 % 4 ≠ 3 ∧ f.fld F.CMPn_CFG_MODE 0 0 ≠ 0 ∧
      f.flag F.CMPn_CFG_TRIP 0 0 = false ∧ f.fld F.CMPn_CFG_PARTNER 0 0 = 63 ∧ f.cmps.chk = none ∧ f.cmps.wait = none) ∧
    f.checkOver = false ∧ o.checkOver = false ∧ w.checkOver = false ∧
    ((at_ 16 c).now ≤ c.start + 16 ∧ (at_ 56 c).now = c.start + 56 ∧ c.start + 16 < (at_ 17 c).now ∧ (at_ 17 c).now ≠ c.start + 56 ∧
      (at_ 63 c).now < c.start + 64 ∧ c.start + 64 ≤ (at_ 64 c).now ∧ (at_ 64 c).cmps.cmp[(0 : CmpId)].samp = none ∧
      { c with at55 := some (5, true), kind := 1 }.at55 = some (5, true)) ∧
    (o.cmps.chk = some { c with cmp := 5 } ∧ (5 : CmpId).val ≠ o.fld F.CMPn_CFG_PARTNER 0 0 ∧ o.cmps.wait = none) ∧
    (¬(0x1030 : Word).toNat % 64 < 48 ∧ (0x102F : Word).toNat % 64 < 48) ∧ w.cmps.wait.isSome = true ∧
    q.fld F.CMPn_CFG_PARTNER 0 0 = 0 ∧
    ((k 0).cmps.chk = some { c with phase := 0 } ∧ (k 1).cmps.chk = some { c with phase := 1 } ∧ c.trim = none ∧ c.kind = 0) ∧
    (c.thr = none ∧ c.alt = none ∧ (k 2).cmps.wait = none) ∧ (d.cmps.chk = none ∧ d.cmps.wait = some (1, 0, 0)) := by
  simp only [State.admits]; decide +kernel

/-- Generator 15, running in the mode with a period of 100 steps, at lc `now`. -/
def pwm15 (mode now : Nat) : State :=
  let s := ((rdy.setFld F.PWMn_STAT_RUN 15 0 1).setFld F.PWMn_CFG_MODE 15 0 mode).setReg .PWMn_CMPA_ACT 15 0 0x1000
  { s.modPwm 15 fun g => { g with mode := mode, per := 100, pmin := 1, fired := Vector.replicate 2 false,
                                   firedT := Vector.replicate 2 false, trg := Vector.replicate 2 0x10000 } with now := now }

theorem test_witness_PwmPeriods :
    let s := pwm15 1 0
    let u := pwm15 3 0
    let v := pwm15 4 50
    let e := pwm15 5 99
    let f := v.setFld F.PWMn_CFG_FOLLOW 15 0 1
    let g := e.setFld F.PWMn_CFG_FOLLOW 15 0 1
    let n : GenId := 15
    ((pwm15 1 0).pwm[n].per = 100) ∧
    (s.mode.live = true ∧ s.flag F.PWMn_STAT_RUN n 0 = true ∧ s.grpPend (s.grpOf n) = false ∧ s.pwm[n].pend = false ∧
      s.fld F.PWMn_CFG_MODE n 0 = 1 ∧ u.fld F.PWMn_CFG_MODE n 0 = 3 ∧ (pwm15 0 0).fld F.PWMn_CFG_MODE n 0 = 0) ∧
    s.pwm[n].began < (pwm15 1 5).now ∧ s.pwm[n].ended = none ∧ s.pwm[n].mode = 1 ∧ s.pwm[n].down = false ∧ u.pwm[n].mode = 3 ∧
    (s.pwm[n].fired[0] = false ∧ s.pwm[n].action (s.pwmCmp n 0) = some (false, 16 * 256) ∧ s.flag F.PWMn_STAT_WAIT n 0 = false) ∧
    99 * 256 / 256 < s.pwm[n].per ∧ s.pwm[n].per ≤ 100 * 256 / 256 ∧
    (s.pwm[n].firedT[1] = false ∧ (s.pwm[n].trgStep 1).isSome = true) ∧
    (v.pwm[n].mode = 4 ∧ v.mode.live = true ∧ v.flag F.PWMn_STAT_RUN n 0 = true ∧ v.pwm[n].ended = none ∧
      v.armCount n ≤ v.pwm[n].stepAt v.now ∧ v.armCount n ≤ v.pwm[n].per - 1 ∧ v.flag F.PWMn_CFG_FOLLOW n 0 = false) ∧
    (f.flag F.PWMn_CFG_FOLLOW n 0 = true ∧ f.pwm[n].pstart = false ∧ f.pwm[n].stepAt f.now < f.pwm[n].per - 1 ∧ f.pwm[n].endSeen = none) ∧
    (g.flag F.PWMn_CFG_FOLLOW n 0 = true ∧ g.pwm[n].mode = 5 ∧ g.pwm[n].per - 1 ≤ g.pwm[n].stepAt g.now ∧
      g.armCount n ≤ g.pwm[n].stepAt g.now) ∧
    (f.modPwm n fun x => { x with endSeen := some 7 }).pwm[n].endSeen = some 7 ∧
    (let l (p : Nat) := ((rdy.setFld F.PWMn_STAT_RUN 0 0 1).setFld F.PWMn_CFG_MODE 0 0 1).setFld F.PWM_GRPk_CFG_LDPT 0 0 p
     let h := (l 3).modPwm 0 fun x => { x with pend := true }
     (l 0).pwmRefuses = false ∧ (l 0).grpLead ((l 0).grpOf 0) = some 0 ∧ ((l 0).setGrpPend 0 true).grpPend ((l 0).grpOf 0) = true ∧
      ((l 0).setGrpPend 0 true).loadsAtStart 0 0 = true ∧ h.ldpt (h.grpOf 0) = 3 ∧ h.pwm[(0 : GenId)].pend = true) ∧
    (∀ m ∈ [2, 3, 4, 5], (pwm15 m 0).pwm[n].mode = m ∧ (256 : Nat) / 256 < (pwm15 m 0).pwm[n].per) ∧
    ((pwm15 3 0).modPwm n fun x => { x with down := true }).pwm[n].down = true := by
  decide +kernel

theorem test_witness_PwmLoadsAndStarts :
    let at_ := RegName.PWM_GRPk_CFG.addr 0 0
    let up := { (rdy.modPwm 0 fun g => { g with mode := 1, per := 100 }).setFld F.PWMn_STAT_RUN 0 0 1 with strobe := 1 }
    let md := up.setFld F.PWM_GRPk_CFG_LDPT 0 0 1
    let ph := ((rdy.setFld F.PWMn_CFG_MODE 15 0 3).setFld F.PWMn_PHASE_DOWN 15 0 1)
    (up.strobe = BitVec.ofNat 16 (2 ^ 0) ∧ up.marked at_ true = false ∧ (up.mark at_ true).marked at_ true = true ∧ up.grpLead 0 = some 0 ∧
      up.ldpt 0 = 0 ∧ up.pwmRuns 0 = true ∧ md.ldpt 0 = 1 ∧ md.pwmRuns 0 = true ∧ md.grpLead 0 = some 0 ∧ md.pwm[(0 : GenId)].mode = 1) ∧
    (ph.fld F.PWMn_CFG_MODE 15 0 = 3 ∧ ph.flag F.PWMn_PHASE_DOWN 15 0 = true ∧ (pwm15 1 0).fld F.PWMn_CFG_MODE 15 0 = 1 ∧
      (pwm15 0 0).fld F.PWMn_CFG_MODE 15 0 = 0 ∧ (∀ y, rdy.pwm[(15 : GenId)].on = some y → y.toff / 256 ≠ rdy.now)) ∧
    (let var := (up.modPwm 0 fun x => { x with mode := 4 }).setFld F.PWM_GRPk_CFG_LDPT 0 0 1
     let d := (up.modPwm 0 fun x => { x with mode := 3, down := true }).setFld F.PWM_GRPk_CFG_LDPT 0 0 1
     let e := (up.setFld F.PWM_GRPk_CFG_LDPT 0 0 3).modPwm 0 fun x => { x with pend := true }
     up.pwm[(0 : GenId)].begins up.now = true ∧ { up with now := 9 }.pwm[(0 : GenId)].begins 9 = false ∧
     (var.ldpt 0 = 1 ∧ var.pwm[(0 : GenId)].variable = true ∧ var.pwmRuns 0 = true) ∧
     (md.pwm[(0 : GenId)].variable = false ∧ md.pwm[(0 : GenId)].midAt 50 = true ∧ md.pwm[(0 : GenId)].midAt 49 = false ∧
      d.pwm[(0 : GenId)].mode = 3 ∧ d.pwm[(0 : GenId)].down = true ∧ d.pwmRuns 0 = true) ∧
     (e.ldpt 0 = 3 ∧ (0 : GenId) ∈ e.grpMembers 0 ∧ e.pwm[(0 : GenId)].pend = true ∧ e.pwmRuns 0 = true ∧ e.pwmRuns 1 = false) ∧
     (rdy.flag F.PWMn_STAT_RUN 15 0 = false ∧ (pwm15 1 0).grpPend ((pwm15 1 0).grpOf 15) = false ∧ (pwm15 1 0).pwm[(15 : GenId)].pend = false) ∧
     ((pwm15 2 0).fld F.PWMn_CFG_MODE 15 0 = 2 ∧ (pwm15 3 0).flag F.PWMn_PHASE_DOWN 15 0 = false)) ∧
    (⟨0, 1, .user⟩ : Req).owns (rdy.grpOwner 0) = false ∧
    let i := rdy.setFld F.PWM_GRPk_CFG_LDPT 0 0 2
    let n : GenId := 15
    rdy.mode.live = true ∧ rdy.pwmRefuses = false ∧ (1 : Word).toNat % 65536 = 2 ^ rdy.grpOf n ∧ mon.owns (rdy.grpOwner 0) = true ∧
    rdy.admits mon .write .PWM_LOADALL 0 0 ∧ rdy.marked at_ true = false ∧ rdy.marked at_ false = false ∧
    rdy.grpLead 0 = some 0 ∧ i.grpLead 0 = some 0 ∧ i.ldpt 0 = 2 ∧ rdy.ldpt 0 < 2 ∧ rdy.pwmRuns 0 = false ∧
    (0x8000 : Word).toNat % 65536 = 2 ^ n.val ∧ rdy.admits mon .write .PWM_START 0 0 ∧ (pwm15 7 0).fld F.PWMn_CFG_MODE n 0 ≠ 0 := by
  simp only [State.admits]; decide +kernel

theorem test_witness_DeadTimeTripsDelayLines :
    let n : GenId := 15
    let w : PwmOn := ⟨true, 512, none, 1, 1, 3⟩
    let o (t : Option Nat) : State := { rdy.modPwm n fun g => { g with on := some { w with t := t } } with now := 3 }
    let p := rdy.setFld F.PWMn_CFG_TRIPEN n 0 8
    let d := { rdy with dlWaits := true }
    ((o (some 600)).pwm[n].on = some { w with t := some 600 } ∧ (o (some 600)).pwmRuns n = false ∧ (o none).pwm[n].on = some w ∧
      w.toff / 256 < (o none).now ∧ (o none).mode.live = true) ∧
    p.fld F.PWMn_CFG_TRIPEN n 0 / 2 ^ (3 : Fin 4).val % 2 = 1 ∧ rdy.fld F.PWMn_CFG_TRIPEN n 0 / 2 ^ (3 : Fin 4).val % 2 = 0 ∧
    rdy.admits mon .write .PWMn_STAT n 0 ∧ mon.owns (rdy.grpOwner (rdy.grpOf n)) = true ∧ p.mode.live = true ∧
    rdy.flag F.PWM_CAL_STAT_FAIL 0 0 = false ∧ rdy.dlWaits = false ∧ d.dlWaits = true ∧
    d.edgeNear d.dlOut.1 d.dlOut.2 = false ∧ rdy.pwmRuns n = false := by
  simp only [State.admits]; decide +kernel

theorem test_witness_Timers :
    let n : TmrId := 23
    let r := rdy.setFld F.TMn_STAT_RUN n 0 1
    let c := rdy.setFld F.TMn_CHc_CFG_MODE n 3 1
    let e := c.setFld F.TMn_CHc_CFG_CAPEDGE n 3 3
    rdy.mode.live = true ∧ rdy.admits mon .write .TMn_CTRL n 0 ∧ rdy.admits mon .write .TM_START 0 0 ∧
    rdy.admits mon .write .TM_STOP 0 0 ∧ (∀ m : TmrId, (0x800000 : Word).getLsbD m.val = true ↔ m = n) ∧
    (r.flag F.TMn_STAT_RUN n 0 = true ∧ r.tmr[n].zdone = false ∧ r.flag F.TMn_CHc_CFG_MODE n 3 = false ∧
      r.fld F.TMn_STAT_FIRED n 0 / 2 ^ (3 : Fin 4).val % 2 = 0) ∧
    (e.flag F.TMn_CHc_CFG_MODE n 3 = true ∧ e.fld F.TMn_CHc_CFG_CAPEDGE n 3 % 2 = 1 ∧ 2 ≤ e.fld F.TMn_CHc_CFG_CAPEDGE n 3 ∧
      e.marked (RegName.TMn_CHc_FINE.addr n 3) true = false ∧
      (e.mark (RegName.TMn_CHc_FINE.addr n 3) true).marked (RegName.TMn_CHc_FINE.addr n 3) true = true) ∧
    (let a := RegName.TMn_STAT.addr n 0
     let o := { e with old := e.old.put a 8 (regDefault a) }
     (e.setFld F.TMn_STAT_CAPF n 0 8).fld F.TMn_STAT_CAPF n 0 / 2 ^ (3 : Fin 4).val % 2 = 1 ∧
      o.fld F.TMn_STAT_CAPF n 0 / 2 ^ (3 : Fin 4).val % 2 = 0 ∧ o.oldFld F.TMn_STAT_CAPF n 0 / 2 ^ (3 : Fin 4).val % 2 = 1) ∧
    (rdy.tmrBegan n = none ∧ rdy.tmrZeroNow n = false ∧ r.tmr[n].zeroAt ≤ r.now ∧ rdy.marked (RegName.TMn_CTRL.addr n 0) true = false ∧
      (rdy.mark (RegName.TMn_CTRL.addr n 0) true).marked (RegName.TMn_CTRL.addr n 0) true = true ∧
      (let z := r.modTmr n fun k => { k with zeroAt := 9 }
       z.tmr[n].zeroAt - (z.reg .TMn_CHc_VAL n 3).toNat * 2 ^ z.tmr[n].pre = 9 ∧ z.now < 9) ∧
      r.tmr[n].zeroAt - (r.reg .TMn_CHc_VAL n 3).toNat * 2 ^ r.tmr[n].pre ≤ r.now) ∧
    (3 < 4 ∧ (1 : Nat) ≠ 0 ∧ (rdy.tmr[n].acted[(1 : Fin 2)]).1 ≠ ({ rdy with now := 5 } : State).now) := by
  simp only [State.admits]; decide +kernel

theorem test_witness_TimeOfDay :
    let p := (rdy.setFld F.TOD_CFG_SRC 0 0 3).setFld F.TOD_CFG_PPSOUT 0 0 0
    let at_ (now : Nat) : State := { p with now := now, tod := { p.tod with ppsLast := some 1 } }
    let old (v : Word) : State := { rdy with old := rdy.old.put (RegName.TOD_SET_NS.addr 0 0) v (regDefault (RegName.TOD_SET_NS.addr 0 0)) }
    let big := old 1000000000
    let top := old 999999999
    let later := (rdy.setReg .TOD_COMMIT_AT 0 0 5)
    let due := { later with tod := { later.tod with acc := 5 * 2 ^ 30 } }
    rdy.mode.live = true ∧ (rdy.setFld F.TOD_CFG_PPSOUT 0 0 1).flag F.TOD_CFG_PPSOUT 0 0 = true ∧ rdy.admits mon .write .TOD_ADDEND 0 0 ∧
    (p.fld F.TOD_CFG_SRC 0 0 = 3 ∧ p.flag F.TOD_CFG_PPSOUT 0 0 = false ∧ p.tod.ppsLast = none) ∧
    1 + 200000000 ≤ (at_ 200000001).now ∧ (at_ 200000000).now < 1 + 200000000 ∧
    rdy.admits mon .read .TOD_NS 0 0 ∧ rdy.admits mon .write .TOD_COMMIT 0 0 ∧
    1000000000 ≤ getBits (big.oldReg .TOD_SET_NS 0 0) 29 0 ∧ getBits (top.oldReg .TOD_SET_NS 0 0) 29 0 < 1000000000 ∧
    rdy.flag F.TOD_STAT_PENDING 0 0 = false ∧ getBits (rdy.oldReg .TOD_SET_NS 0 0) 29 0 < 1000000000 ∧
    getBits (rdy.reg .TOD_COMMIT_AT 0 0) 29 0 = 0 ∧ later.tod.acc / 2 ^ 30 < getBits (later.reg .TOD_COMMIT_AT 0 0) 29 0 ∧
    (getBits (due.reg .TOD_COMMIT_AT 0 0) 29 0 ≠ 0 ∧ getBits (due.reg .TOD_COMMIT_AT 0 0) 29 0 ≤ due.tod.acc / 2 ^ 30) ∧
    (rdy.setFld F.TOD_STAT_PENDING 0 0 1).flag F.TOD_STAT_PENDING 0 0 = true ∧
    (let u (v : Word) := due.writeReg .TOD_COMMIT_AT 0 0 v
     (u 5).commitAt = 5 ∧ due.tod.acc / 2 ^ 30 = 5 ∧ (u 6).commitAt = 6 ∧ (u 0).commitAt = 0 ∧
      due.tod.acc + (due.reg .TOD_ADDEND 0 0).toNat < 1000000000 * 2 ^ 30) := by
  simp only [State.admits]; decide +kernel

theorem test_witness_PositionCounting :
    let n : PosId := 7
    let s := rdy.setReg .POSn_CFG n 0 0x80003409
    let p := s.pos[n]
    let e := s.setFld F.POSn_STAT_QERR n 0 1
    rdy.admits mon .write .POSn_CFG n 0 ∧ getBits (0x10000 : Word) 23 16 ≠ 0 ∧ getBits (0x8 : Word) 3 2 ≠ 3 ∧
    (s.flag F.POSn_CFG_EN n 0 = true ∧ s.fld F.POSn_CFG_MODE n 0 = 1 ∧ s.mode.live = true ∧ s.fld F.POSn_CFG_MULT n 0 = 2) ∧
    (p.a ≠ true ∧ p.b ≠ true ∧ p.b = false ∧ p.qerrAt = none ∧ p.was = none) ∧
    (s.flag F.POSn_CFG_PRBSRC n 0 = false ∧ (s.setFld F.POSn_CFG_PRBSRC n 0 1).flag F.POSn_CFG_PRBSRC n 0 = true) ∧ s.mode ≠ .loading ∧ s.marked (RegName.POSn_POS.addr n 0) false = false ∧
    (s.fld F.POSn_CFG_PRBEDGE n 0 / 1 % 2 = 1 ∧ s.fld F.POSn_CFG_PRBEDGE n 0 / 2 % 2 = 1 ∧ p.before = none) ∧
    s.admits mon .write .POSn_POS n 0 ∧ s.admits mon .write .POSn_DIVNM n 0 ∧ s.admits mon .write .POSn_STAT n 0 ∧
    (0x3FF : Word).getLsbD 10 = false ∧ s.posErr n = false ∧ e.posErr n = true := by
  simp only [State.admits]; decide +kernel

/-- Levels that stand, an index with and without its qualification, the late part of an lc. -/
theorem test_witness_index :
    let n : PosId := 7
    let s := rdy.setReg .POSn_CFG n 0 0x80003409
    let p := s.pos[n]
    (p.ha = steadyPin p.a ∧ p.hb = steadyPin p.b ∧ p.hz = steadyPin p.z ∧ p.held = false ∧ p.idxAt = none ∧
      s.fld F.POSn_CFG_ZQUAL n 0 = (if p.a then 2 else 0) + (if p.b then 1 else 0) ∧
      (let q := s.setFld F.POSn_CFG_ZQUAL n 0 3
       q.fld F.POSn_CFG_ZQUAL n 0 ≠ (if q.pos[n].a then 2 else 0) + (if q.pos[n].b then 1 else 0)) ∧
      s.isLate = false ∧ (s.mark 1 true).isLate = true ∧
      (let q := ((s.setFld F.POSn_LINES_LINES n 0 1024).setFld F.POSn_LINES_TOL n 0 4).modPos n fun y => { y with idx := some (3, true) }
       let c := (q.modPos n fun y => { y with skip := true, await := true }).mark (RegName.POSn_STAT.addr n 0) true
       q.pos[n].idx = some (3, true) ∧ q.pos[n].skip = false ∧ q.pos[n].qerrAt ≠ some q.now ∧ q.pos[n].e1 = none ∧
        q.fld F.POSn_LINES_LINES n 0 ≠ 0 ∧ q.fld F.POSn_LINES_TOL n 0 < (q.pos[n].cnt - 3 - q.fld F.POSn_LINES_LINES n 0 : Int).natAbs ∧
        c.pos[n].skip = true ∧ c.pos[n].await = true ∧ c.marked (RegName.POSn_STAT.addr n 0) true = true ∧ c.isLate = false)) ∧
    (∀ i < 18, (BitVec.allOnes 18).getLsbD i = true) := by
  decide +kernel

theorem test_witness_SsiSinCosSpeed :
    let n : PosId := 7
    let s := rdy.setReg .POSn_CFG n 0 0x80000002
    let b := s.setFld F.POSn_STAT_BUSY n 0 1
    let l := { s with sys := { s.sys with mode := .runStandby } }
    let x : ScSample := ⟨0, 0, 0, 0, 0, 0xFFFF0000⟩
    let c := (rdy.setReg .POSn_CFG n 0 0x80000003).modPos n fun p => { p with samp := [x], spd := [7] }
    let v := scVector x.off x.gain x.phase x.sin x.cos
    let amp := v.1 * v.1 + v.2.1 * v.2.1
    let lim (k : Nat) : Int := (k * k * 2 ^ 30 : Nat) * (v.2.2.1 * v.2.2.1)
    let q := { (rdy.setReg .POSn_CFG n 0 0x80000001).modPos n fun p => { p with cnt := 1000 } with now := 400 }
    (s.mode.live = true ∧ s.flag F.POSn_CFG_EN n 0 = true ∧ s.fld F.POSn_CFG_MODE n 0 = 2 ∧ s.posSlave = false ∧
      s.admits mon .write .POSn_STAT n 0 ∧ s.flag F.POSn_STAT_BUSY n 0 = false) ∧
    (b.flag F.POSn_STAT_BUSY n 0 = true ∧ l.posSlave = true ∧ l.mode.live = true) ∧
    ((s.setFld F.POSn_SSI_CFG_LEN n 0 40).fld F.POSn_SSI_CFG_LEN n 0 ≤ 40 ∧ s.fld F.POSn_SSI_CRC_CRCLEN n 0 = 0 ∧
      s.flag F.POSn_SSI_CFG_GRAY n 0 = false ∧ s.flag F.POSn_SSI_CRC_INV n 0 = false) ∧
    (let f (t : Nat) := { s.modPos n fun p => { p with frame := some ⟨0, 13, 20, false⟩ } with now := t }
     ((f 9).pos[n].frame = some ⟨0, 13, 20, false⟩ ∧ (f 559).now < 0 + (13 + 1) * 2 * 20 ∧ 0 + (13 + 1) * 2 * 20 ≤ (f 560).now)) ∧
    (c.fld F.POSn_CFG_MODE n 0 = 3 ∧ c.pos[n].samp = [x] ∧ c.pos[n].spd = [7] ∧
      (c.modPos n fun y => { y with quad := some 1 }).pos[n].quad = some 1) ∧
    (q.isLate = false ∧ (q.mark 1 true).isLate = true) ∧
    (amp < lim (getBits (1 : Word) 15 0) ∧ lim (getBits x.amp 15 0) ≤ amp ∧ amp ≤ lim (getBits x.amp 31 16) ∧ c.marked (RegName.POSn_POS.addr n 0) false = false) ∧
    (q.fld F.POSn_CFG_MODE n 0 = 1 ∧ q.pos[n].win < q.now ∧
      q.fld F.POSn_SPD_X_XHI n 0 ≤ (q.pos[n].cnt - q.pos[n].wcnt).natAbs) := by
  simp only [State.admits]; decide +kernel

/-- Run-Active with every pipeline of engine 7 on. -/
def le7 : State := (winAll (inMode .runActive)).setReg .LEn_CTRL 7 0 0x7F

/-- A set of pipeline p of engine 7, accepted at lc 5. -/
def leAt (p : Pipe) (ready : Bool) (out : Option (List Word)) (s : State) : State :=
  s.modPipe 7 p fun y => { y with job := some ⟨5, 0, [], false, ready, out, [], true, none, false⟩ }

theorem test_witness_LoopSets :
    let o := leAt .cur false none le7
    let b := le7.modPipe 7 .vlt fun y => { y with free := 1 }
    let h := le7.modPipe 7 .cur fun y => { y with held := some [1, 2, 3, 4] }
    let g := le7.modGen 7 fun y => { y with held := some [] }
    le7.leAccepts 7 = true ∧ (∀ p ∈ [Pipe.cur, .vlt, .ftr, .prf, .gen], le7.pipeOn 7 p = true) ∧
    ((le7.lePipe 7 .vlt).job = none ∧ (le7.lePipe 7 .vlt).free ≤ le7.now) ∧ b.now < (b.lePipe 7 .vlt).free ∧
    (o.lePipe 7 .cur).job ≠ none ∧ (le7.setFld F.LEn_INSET_MARK 7 0 15).fld F.LEn_INSET_MARK 7 0 ≠ 0 ∧
    le7.flag F.LEn_CTRL_OBSFEED 7 0 = false ∧
    ((h.lePipe 7 .cur).held = some [1, 2, 3, 4] ∧ (h.lePipe 7 .cur).job = none ∧ (h.lePipe 7 .cur).free ≤ h.now) ∧
    (g.le[(7 : LeId)].gen.held = some [] ∧ g.le[(7 : LeId)].gen.run = false ∧ g.leAccepts 7 = true ∧ g.pipeOn 7 .gen = true) ∧
    (let v := le7.modPipe 7 .vlt fun y => { y with held := some [9] }
     let d := v.setFld F.LEn_CTRL_EN 7 0 0
     d.flag F.LEn_CTRL_EN 7 0 = false ∧ (d.lePipe 7 .vlt).held = some [9] ∧ (d.leCtrlWrite 7 0x7F).leAccepts 7 = true ∧
      v.leAccepts 7 = true ∧ (v.lePipe 7 .vlt).job = none ∧ (v.lePipe 7 .vlt).free ≤ v.now) := by
  decide +kernel

theorem test_witness_LoopOutputs :
    let j (out : Option (List Word)) : LeJob := ⟨5, 0, [], false, true, out, [], true, none, false⟩
    let s := leAt .cur true (some [1, 2, 3, 4]) le7
    let n := leAt .cur true none le7
    let p := s.setFld F.LEn_CTRL_GENPOS 7 0 1
    let f := leAt .ftr true none le7
    let r := leAt .prf true none le7
    (s.mode.run = true ∧ (j none).keep = true ∧ (s.lePipe 7 .cur).job = some (j (some [1, 2, 3, 4])) ∧ (j none).ready = true ∧
      s.lePlaced 7 0 = false) ∧ (n.lePipe 7 .cur).job = some (j none) ∧ (p.lePlaced 7 0 = true ∧ p.pipeOn 7 .gen = true) ∧
    (f.lePipe 7 .ftr).job = some (j none) ∧ (r.lePipe 7 .prf).job = some (j none) ∧ (j none).plan = false ∧
    { j none with plan := true }.plan = true ∧
    (let k := leAt .ftr true (some [1]) le7
     let x := le7.modPipe 7 .prf fun y => { y with job := some { j (some [1, 2, 3]) with past := true } }
     (k.lePipe 7 .ftr).job = some (j (some [1])) ∧ (x.lePipe 7 .prf).job = some { j (some [1, 2, 3]) with past := true }) ∧
    (fLt 0x40000000 0x40400000 = true ∧ fLt 0x40400000 0x3F800000 = false ∧ fLt 0x3F000000 0x3F800000 = true ∧
      fLt 0x40000000 0x3F000000 = false ∧ fLt 0x40000000 0x3FC00000 = false ∧ fLt 0x3FC00000 0x3F800000 = false) := by
  decide +kernel

theorem test_witness_plan : ∀ g ∈ ([⟨1, 2⟩, ⟨-1, 0⟩] : List Seg), 0 ≤ g.d := by decide +kernel

/-- A phase that turns at 0.05, beyond a limit its ends keep; a start and an end beyond it. -/
theorem test_witness_turn : let k : Kin := ⟨0, 1, -10⟩
    let hi : Option Rat := some (1 / 25)
    k.a ≠ 0 ∧ 0 < -k.v / k.a ∧ -k.v / k.a < 1 ∧ (k.move 0 (-k.v / k.a)).outside none hi = true ∧ k.outside none hi = false ∧
    (k.move 0 1).outside none hi = false ∧ (⟨1, 0, 0⟩ : Kin).outside none hi = true ∧ (k.move 0 1).outside (some 0) none = true := by
  decide +kernel

theorem test_witness_ObserverAndGeneralStage :
    let o := leAt .cur false none (leAt .obs false none (le7.setFld F.LEn_CTRL_OBSFEED 7 0 1))
    let c := (leAt .obs true (some [0, 0, 0, 0]) le7).setWord (leBase 7 + 0x34) 0x3F800000
    let c := c.setWord (leBase 7 + 0x100) 0x3F000000
    let psi := c.param 7 0 0x34
    let x := if fLt 0 (fMul 0x358637BD psi) then (0 : Word) else 1
    let n1 := c.setFld F.LEn_OBS_CFG_N 7 0 1
    let n2 := c.setFld F.LEn_OBS_CFG_N 7 0 2
    let k := le7.lePut 7 0x110 1
    let t1 : Req := ⟨0, 1, .user⟩
    let g := le7.modGen 7 fun y => { y with feed := some (List.replicate 31 7) }
    (o.mode.run = true ∧ ((o.lePipe 7 .obs).job.any fun j => j.out = none) = true ∧
      ((o.lePipe 7 .cur).job.any fun j => j.ready = false) = true ∧ o.flag F.LEn_CTRL_OBSFEED 7 0 = true ∧ o.leCoasts 7 = false) ∧
    ((c.lePipe 7 .obs).job.any fun j => j.out = some [0, 0, 0, 0] ∧ j.keep = true ∧ j.wr = []) = true ∧
    (x = 0 ∧ c.leGet 7 0x110 = 0 ∧ fLt x (c.param 7 0 0x100) = true) ∧
    n1.fld F.LEn_OBS_CFG_N 7 0 ≤ (n1.leGet 7 0x10C).toNat + 1 ∧ (n2.leGet 7 0x10C).toNat + 1 < n2.fld F.LEn_OBS_CFG_N 7 0 ∧
    k.leCoasts 7 = true ∧ le7.admits mon .write .LEn_STAT 7 0 ∧ mon.owns (le7.leOwner 7) = true ∧ t1.owns (le7.leOwner 7) = false ∧
    (g.leAccepts 7 = true ∧ g.pipeOn 7 .gen = true ∧ g.le[(7 : LeId)].gen.run = false ∧ g.le[(7 : LeId)].gen.held = none ∧
      g.le[(7 : LeId)].gen.feed = some (List.replicate 31 7) ∧ (List.replicate 31 (7 : Word)).length ≤ 31) ∧
    (let h := g.modGen 7 fun y => { y with held := some [] }
     h.le[(7 : LeId)].gen.held = some [] ∧ h.le[(7 : LeId)].gen.feed = some (List.replicate 31 7) ∧ h.le[(7 : LeId)].gen.run = false ∧
      h.pipeOn 7 .gen = true ∧ h.mode.run = true) ∧
    (le7.le[(7 : LeId)].gen.feed = none ∧ le7.fld F.LEn_CTRL_GENPOS 7 0 = 0) ∧
    (le7.modGen 7 fun y => { y with run := true, pc := 63 }).le[(7 : LeId)].gen.run = true := by
  simp only [State.admits]; decide +kernel

/-- A bundle whose registers are all ready does not stall, whatever its codes. -/
theorem test_witness_generalBundle : (le7.modGen 7 fun y => { y with run := true }).genStalls 7 = false := by
  have h : (le7.modGen 7 fun y => { y with run := true }).le[(7 : LeId)].gen.rdy = [] := by decide +kernel
  unfold State.genStalls
  simp only [h]
  rw [List.any_eq_false]
  intro r _
  simp [SMap.get, SMap.find?]

theorem test_witness_SwapsAndTableCopies :
    let key := RegName.LEn_PARAM_SWAP.addr 7 0
    let s := (le7.setReg .LEn_TBL_SRC 7 0 0x10000000).setReg .LEn_TBL_DST 7 0 0x7800
    let j := leAt .cur false none le7
    let c := s.modLe 7 fun e => { e with copy := some (0x10000000, 0x7800, 8) }
    let u := ((c.unsched (.tableCopyDone 7)).modLe 7 fun e => { e with copy := none }).setFld F.LEn_TBL_CTL_BUSY 7 0 0
    (let w := s.modLe 7 fun e => { e with wrote := [(s.now, leBase 7 + 0x1004, 4, 5)] }
     s.le[(7 : LeId)].wrote = [] ∧ w.le[(7 : LeId)].wrote = [(s.now, leBase 7 + 0x1004, 4, 5)] ∧
      (leBase 7 + 0x1004 - leBase 7) / 0x1000 = 1 - s.fld F.LEn_STAT_BANK 7 0 ∧ 5 < 256 ^ 4 ∧ w.marked key false = false) ∧
    s.mode.live = true ∧ s.marked key false = false ∧ (s.mark key false).marked key false = true ∧
    s.admits mon .write .LEn_PARAM_SWAP 7 0 ∧ mon.owns (s.leOwner 7) = true ∧
    ((j.lePipe 7 .cur).job.any fun x => x.at_ = { j with now := 5 }.now) = true ∧ ((j.lePipe 7 .cur).job.any fun x => x.at_ ≠ j.now) = true ∧
    s.admits mon .write .LEn_TBL_CTL 7 0 ∧ s.flag F.LEn_TBL_CTL_BUSY 7 0 = false ∧ (0x10001 : Word).getLsbD 16 = true ∧
    (s.reg .LEn_TBL_SRC 7 0).toNat / 32 * 32 = 0x10000000 ∧ s.fld F.LEn_TBL_DST_DST 7 0 / 32 * 32 = 0x7800 ∧
    (0x10000000 ≤ 0x10000000 ∧ 0x7800 + 4 * 65535 ≤ 0x70000) ∧ le7.fld F.LEn_TBL_DST_DST 7 0 / 32 * 32 < 0x7800 ∧
    c.le[(7 : LeId)].copy = some (0x10000000, 0x7800, 8) ∧ (u.tblLines 7 0x10000000 1).1.isSome = true ∧
    ({ u with upset := [(0x10000000, true)] }.tblLines 7 0x10000000 1).1 = none := by
  simp only [State.admits]; decide +kernel

/-- A tenant at User that owns no engine. -/
theorem test_witness_foreign_tenant : (⟨0, 1, .user⟩ : Req).owns (le7.leOwner 7) = false := by decide +kernel

theorem test_witness_MatrixCommands :
    let s := { rdy with mx := { rdy.mx with routes := [⟨1023, 0, 6, 0, true, true, [1], 0, 1⟩] } }
    s.mode.live = true ∧ s.admits mon .write .SM_SWEVTj 1 0 ∧ (0x80000000 : Word).getLsbD 31 = true ∧
    (mon.tenant = s.swOwner 63 ∧ (1 : Tenant) ≠ s.swOwner 32) ∧ s.admits mon .write .SM_RENj 31 0 ∧ s.mx.renBy = [] ∧
    (let w := { s with now := 5, mx := { s.mx with renBy := [(31, some ⟨2, 1, 9, false⟩)] } }
     w.mx.renBy.get 31 none = some ⟨2, 1, 9, false⟩ ∧ 2 = w.now / 2 ∧ mon.master.val < 1 ∧ 1 < (⟨2, 0, .monitor⟩ : Req).master.val ∧
      w.admits ⟨2, 0, .monitor⟩ .write .SM_RENj 31 0 ∧ w.admits mon .write .SM_RENj 31 0 ∧ w.now % 2 = 1 ∧ s.now % 2 = 0) ∧
    (let w := { s with now := 5, mx := { s.mx with renBy := [(31, some ⟨2, 0, 9, false⟩)] } }
     let p := { s with mx := { s.mx with routes := [⟨0x20, 0, 6, 0, true, true, [1], 0, 1⟩], enPrev := s.mx.enPrev.put 0x20 false false } }
     w.mx.renBy.get 31 none = some ⟨2, 0, 9, false⟩ ∧ mon.master.val = 0 ∧
      (∃ x ∈ p.mx.routes, x.dest = (0x20 : Fin 1024).val ∧ x.func = 6) ∧ p.mx.enPrev.get 0x20 false = false) ∧
    (dstKind (1 : Fin 1024).val ≠ .edge ∧ dstKind (0x20 : Fin 1024).val = .edge ∧ s.destLv 1 = false) ∧
    (∃ x ∈ s.mx.routes, x.town = true ∧ x.dest = 32 * 31 + 31 ∧ mon.tenant = Fin.ofNat 8 x.owner) ∧
    (∃ x ∈ s.mx.routes, x.dest = (1023 : Fin 1024).val ∧ x.func = 6) := by
  simp only [State.admits]; decide +kernel

theorem test_witness_BackgroundServices :
    let s := { rdy with sys := { rdy.sys with bg := [0, 0x103, 0x10000, 0x7FFF8000, 5, 0] } }
    let l := { s with ix := { s.ix with scrub := Vector.replicate 6 262143, tcm := Vector.replicate 4 262142 } }
    let u := { rdy with upset := [(0x38300000, false)] }
    let c := (s.setFld F.CMPn_CFG_MODE 47 0 1).setFld F.CMPn_CFG_PARTNER 47 0 46
    s.mode.cores = true ∧ s.cleanAt (0x20000000 + 5 * 0x400000 + s.ix.scrub[(5 : Bank)] * 16) 16 ∧ s.ix.scrub[(5 : Bank)] + 1 < 262144 ∧
    262144 ≤ l.ix.scrub[(5 : Bank)] + 1 ∧ l.ix.tcm[(3 : Pair)] + 1 < 262144 ∧
    SMap.find? s.upset (0x38000000 + 3 * 0x100000) = none ∧ SMap.find? u.upset (0x38000000 + 3 * 0x100000 + u.ix.tcm[(3 : Pair)] * 4) = some false ∧
    (s.mode.live = true ∧ getBits (s.sys.bg.getD 2 0) 31 16 ≠ 0 ∧ s.sys.trimmed + 1 < 48) ∧
    (c.cmps.chk = none ∧ c.cmps.wait = none ∧ c.cmpMode 47 ≠ 0 ∧ c.fld F.CMPn_CFG_PARTNER 47 0 < 48) ∧
    (let t := (s.setFld F.CMPn_CFG_MODE 47 0 1).setFld F.CMPn_CFG_PARTNER 47 0 63
     t.cmps.chk = none ∧ t.cmpMode 47 ≠ 0 ∧ t.flag F.CMPn_CFG_TRIP 47 0 = false ∧ t.fld F.CMPn_CFG_PARTNER 47 0 = 63) ∧
    (s.sys.bg.getD 1 0).getLsbD 8 = true ∧ rdy.sys.bg = [] ∧ ((3 : BitVec 8) ≠ 1) ∧ s.sys.bg ≠ [] ∧ (s.sys.bg.getD 4 0).toNat ≤ 5 ∧
    (0 < (1 : BitVec 8).toNat ∧ (4 : BitVec 8).toNat ≤ 4) ∧
    ({ s with now := 400000000 }.now % 400000000 = 0 ∧
      (let f := { rdy with now := 1999 }
       f.now % 2000 ≠ 0 ∧ getBits (f.sys.bg.getD 2 0) 31 16 = 0 ∧ getBits (f.sys.bg.getD 2 0) 15 0 = 0)) ∧
    (let w := { s with ix := { s.ix with wait := vset s.ix.wait 5 [⟨12, false, false, 0, false⟩, ⟨3, false, false, 0, false⟩]
                                         credit := Vector.replicate 6 (vset (Vector.replicate 13 0) 12 7) } }
     (∃ x ∈ w.ix.wait[(5 : Bank)], x.master = 12) ∧ 0 < w.ix.credit[(5 : Bank)][(12 : Fin 13)] ∧
      (∀ o : Fin 13, o < 12 → w.ix.credit[(5 : Bank)][o] = 0)) := by
  simp only [State.cleanAt]; decide +kernel

/-- Ethernet and station-cycle at work: both ports on, station 31 enabled, a cycle under way. -/
def eth1 : State :=
  let s := ((((winAll (inMode .runSolo)).setReg .ETHn_CFG 1 0 1).setReg .ETHn_CFG 0 0 1).setFld F.SC_CFG_PORTS 0 0 3).setReg .SC_STEN 0 0 0x80000000
  { s with eth := Vector.replicate 2 ⟨[[1, 2, 3, 4]], 3, true⟩, sc := { s.sc with readAt := some 40, send := true } }

theorem test_witness_EthernetAndStations :
    let f := { eth1 with eth := Vector.replicate 2 ⟨List.replicate 16 [1, 2, 3, 4], 0, true⟩ }
    let l := { eth1 with sc := { eth1.sc with st := vset eth1.sc.st 31 ⟨some (0, [7]), [], true, [], [], 2⟩ } }
    let e := l.setFld F.SC_STs_STAT_LOST 31 0 1
    eth1.ethOn 1 = true ∧ eth1.eth[(1 : Fin 2)].fifo.length < 16 ∧ eth1.eth[(1 : Fin 2)].rxc = true ∧ 16 ≤ f.eth[(1 : Fin 2)].fifo.length ∧
    f.ethOn 1 = true ∧ rdy.eth[(1 : Fin 2)].rxc = false ∧ eth1.admits mon .read .ETHn_TSFIFO 1 0 ∧ rdy.eth[(1 : Fin 2)].fifo = [] ∧
    eth1.eth[(1 : Fin 2)].fifo = [1, 2, 3, 4] :: [] ∧ eth1.eth[(1 : Fin 2)].ix = 3 ∧
    eth1.mode.run = true ∧ eth1.scSends = true ∧ (winAll (inMode .runActive)).scSends = true ∧ (inMode .runStandby).scSends = false ∧
    eth1.fld F.SC_CFG_PORTS 0 0 / 2 ^ 1 % 2 = 1 ∧ eth1.ethSends 1 = true ∧ (eth1.reg .SC_STEN 0 0).getLsbD 31 = true ∧
    (eth1.mode ≠ .runStandby ∧ eth1.mode ≠ .handover ∧ (inMode .runStandby).mode = .runStandby ∧
      (let h := inMode .handover
       h.mode = .handover ∧ h.flag F.TW_STAT_OWN 0 0 = false ∧ (h.setFld F.TW_STAT_OWN 0 0 1).flag F.TW_STAT_OWN 0 0 = true)) ∧
    (let k : InFrame := ⟨BitVec.ofNat 16 (eth1.fld F.SC_CFG_ETYPE 0 0), 1, 1024, List.replicate 1024 0⟩
     k.etype.toNat = eth1.fld F.SC_CFG_ETYPE 0 0 ∧ k.ver = 1 ∧ k.len.toNat ≤ 1024 ∧ k.len.toNat ≤ k.data.length ∧
      ¬({ k with len := 1025 }.len.toNat ≤ 1024) ∧ { k with ver := 2 }.ver ≠ 1) ∧
    eth1.sc.readAt ≠ none ∧ eth1.mode ≠ .runStandby ∧ (0 : Word) = eth1.sc.cycle ∧
    (eth1.sc.st[(31 : Station)].last.any fun x => decide (x.1 = 0)) = false ∧ e.flag F.SC_STs_STAT_LOST 31 0 = true ∧
    l.sc.st[(31 : Station)].last = some (l.sc.cycle, [7]) ∧ eth1.sc.st[(31 : Station)].last = none ∧
    (eth1.setFld F.SC_STs_CFG_K 31 0 1).fld F.SC_STs_CFG_K 31 0 ≤ eth1.sc.st[(31 : Station)].miss + 1 ∧ eth1.sc.send = true := by
  simp only [State.admits]; decide +kernel

/-- The header of a frame with its CRC. -/
def hdr (ty : Nat) (nflit : BitVec 16) (t d : List Byte) : TwHdr :=
  ⟨0, nflit, 0, 0, 0, crc32c (twBytes ty ⟨0, nflit, 0, 0, 0, 0⟩ t d)⟩

theorem hdr_crc (ty : Nat) (nflit : BitVec 16) (t d : List Byte) : crc32c (twBytes ty (hdr ty nflit t d) t d) = (hdr ty nflit t d).crc := rfl

/-- A whole frame with n flits of data. -/
theorem test_witness_whole_frame (ty n : Nat) (h : n < 65536) :
    let t : List Byte := List.replicate 16 0
    let d : List Byte := List.replicate (32 * n) 0
    let f := hdr ty (BitVec.ofNat 16 n) t d
    t.length = 16 ∧ d.length = 32 * f.nflit.toNat ∧ f.nflit.toNat = n ∧ crc32c (twBytes ty f t d) = f.crc := by
  have e : (BitVec.ofNat 16 n).toNat = n := Nat.mod_eq_of_lt h
  exact ⟨rfl, by rw [List.length_replicate]; exact congrArg (32 * ·) e.symm, e, hdr_crc _ _ _ _⟩

/-- A mode of the system controller with the link up and every access allowed. -/
def linked (m : Mode) : State := (winAll (inMode m)).setFld F.TW_STAT_LINK 0 0 2

theorem test_witness_TwinCommands :
    let r := linked .ready
    let o := r.setFld F.TW_STAT_OWN_IN 0 0 1
    let a := linked .runActive
    let big := r.setReg .TW_AGR_CFG 0 0 0x3FFF
    let p := (a.setFld F.TW_STAT_PEERMODE 0 0 8).modTwin fun t => { t with flags := 4 }
    let sup : Req := ⟨0, 0, .supervisor⟩
    r.admits mon .write .TW_CTRL 0 0 ∧ mon.t0mon = true ∧ sup.t0mon = false ∧ r.admits sup .write .TW_CTRL 0 0 ∧
    (r.mode = .ready ∧ r.ownIn = false ∧ r.epochTooBig = false) ∧ o.ownIn = true ∧ (big.mode = .ready ∧ big.epochTooBig = true) ∧
    ((linked .runSolo).mode = .runSolo ∧ (linked .runSolo).epochTooBig = false) ∧ a.mode ≠ .ready ∧ a.mode ≠ .runSolo ∧
    a.activeOk = true ∧ (p.fld F.TW_STAT_PEERMODE 0 0 = 8 ∧ p.twin.flags / 4 % 2 = 1 ∧ p.linkIsUp = true ∧
      p.flag F.TW_STAT_FAULT_OUT 0 0 = false) ∧ a.fld F.TW_STAT_PEERMODE 0 0 ≠ 8 ∧
    (linked .runStandby).mode = .runStandby ∧ (r.mode ≠ .runStandby ∧ r.activeOk = false) ∧
    (let k := RegName.TW_STAT.addr 0 0
     let b := a.modTwin fun t => { t with leaveAt := some (2, .runStandby) }
     a.mode = .runActive ∧ a.marked k true = false ∧ (a.mark k true).marked k true = true ∧ a.twin.leaveAt = none ∧
      b.twin.leaveAt = some (2, .runStandby) ∧ b.mode = .runActive ∧ b.marked k true = false) ∧
    (let d := p.setFld F.TW_STAT_LINK 0 0 1
     d.activeOk = true ∧ d.linkIsUp = false ∧ d.fld F.TW_STAT_PEERMODE 0 0 = 8 ∧ d.twin.flags / 4 % 2 = 1) := by
  simp only [State.admits]; decide +kernel

theorem test_witness_MarksAndPairing :
    let r := linked .ready
    let st (k : Nat) (standby : Bool) := r.modTwin fun t => { t with step := k, begun := true, standby := standby, trip := some 3 }
    let own := (st 1 false).pairSpec 0
    let l := r.modTwin fun t => { t with lockOn := true }
    r.mode.cores = true ∧ (linked .runActive).drivesSync = true ∧ r.linkIsUp = true ∧ ¬([] : List Byte).length = 16 ∧
    (r.setFld F.TW_STAT_OWN_IN 0 0 1).ownIn = true ∧ ((st 1 false).twin.step ≠ 0 ∧ (st 1 false).twin.step = 1 ∧ (st 1 false).twin.begun = true) ∧
    (own.length = 16 ∧ own.head? ≠ ((1 : Byte) :: own.drop 1).head? ∧ wordAt own 4 = wordAt ((1 : Byte) :: own.drop 1) 4 ∧
      wordAt own 4 ≠ wordAt (own.take 4 ++ [1] ++ own.drop 5) 4) ∧
    ((st 2 false).twin.step = 2 ∧ (st 2 false).twin.standby = false ∧ (st 2 false).twin.lockOn = false) ∧
    ((st 2 true).twin.standby = true ∧ (st 2 true).twin.trip = some 3 ∧ (st 2 true).twin.lockOn = false) ∧ l.twin.lockOn = true ∧
    (st 2 false).twin.trip = some 3 ∧
    (let m := (st 3 true).modTwin fun t => { t with trip := none }
     m.twin.lockOn = false ∧ m.twin.step = 3 ∧ m.twin.standby = true ∧ m.twin.trip = none) := by
  decide +kernel

theorem test_witness_Epochs :
    let a := (linked .runActive).modTwin fun t => { t with armed := true }
    let x := a.modTwin fun t => { t with tx := some (0, 0, []) }
    let b := (linked .runStandby).modTwin fun t => { t with standby := true }
    let y := b.setFld F.TW_STAT_APPLYING 0 0 1
    a.mode.cores = true ∧ (a.captures = true ∧ a.twin.tx = none) ∧ (x.captures = true ∧ x.twin.tx ≠ none) ∧
    (a.isLate = false ∧ (a.mark 1 true).isLate = true ∧ (a.mark 1 true).captures = true ∧ a.upset = [] ∧ b.upset = [] ∧ y.upset = [] ∧
      (∀ q : Pair, (a.pair q).stc = none) ∧ ∀ q : Pair, (b.pair q).stc = none) ∧
    (b.linkIsUp = true ∧ b.takesEpochs = true ∧ b.twin.rxLen = 0 ∧ b.flag F.TW_STAT_APPLYING 0 0 = false ∧ b.twin.rxWait = []) ∧
    (65536 ≤ 65536 ∧ 16 ≤ 65536 ∧ 65504 < 65536 ∧ 0 + 32 < 64 ∧ 16 ≤ 32) ∧
    (let m := b.modTwin fun t => { t with rxLen := 64, rxSeq := 2, rxOffs := [(0, 32)], rxWait := [(1, 32)] }
     m.twin.rxSeq = (2 : Word).toNat ∧ m.twin.rxLen = 64 ∧ m.takesEpochs = true ∧ covered ([(0, 32)] ++ [(32, 32)]) 64 = true ∧
      covered ([] ++ [(0, 32)]) 64 = false ∧ covered ([] ++ [(0, 32)]) 32 = true ∧
      (2 : Word) = (m.twin.rxWait.getLast?.map fun x => BitVec.ofNat 32 x.1).getD (m.reg .TW_EPOCH_SEQ 0 0) + 1) ∧
    ((y.modTwin fun t => { t with rxWait := [(1, 32)] }).twin.rxWait = (1, 32) :: [] ∧ (y.setFld F.TW_STAT_APPLYING 0 0 1).linkIsUp = true ∧
      ({ y with sys := { y.sys with mode := .ready } }.takesEpochs = false)) ∧
    (a.epochRegions = [] ∧ (List.replicate 4096 (0 : Byte)).length = 4096 ∧ 7 < 8 ∧ 262140 % 4 = 0 ∧ 262140 < 262144 ∧
      0x20000000 + 262140 ≤ 0x21800000) ∧
    (y.flag F.TW_STAT_APPLYING 0 0 = true ∧ y.twin.rxWait = [] ∧ y.takesEpochs = true ∧ y.flag F.TW_STAT_FAULT_OUT 0 0 = false) ∧
    (a.twin.armed = true ∧ a.twin.standby = false ∧ (a.modTwin fun t => { t with step := 4 }).twin.step = 4) := by
  decide +kernel

/-- A whole epoch of one flit whose number does not follow the last, and one whose number and CRC are right. -/
theorem test_witness_good_epoch (d : List Byte) (h : wordAt (d.take 32) 28 = crc32c ((d.take 32).take 28)) :
    (1 : Word) = (linked .runStandby).reg .TW_EPOCH_SEQ 0 0 + 1 ∧ wordAt (d.take 32) (32 - 4) = crc32c ((d.take 32).take (32 - 4)) :=
  ⟨by decide +kernel, h⟩

theorem test_witness_epoch_crc : ∃ d : List Byte, d.length = 32 ∧ wordAt (d.take 32) 28 = crc32c ((d.take 32).take 28) :=
  ⟨List.replicate 28 0 ++ Word.bytes (crc32c (List.replicate 28 0)), by decide +kernel⟩

theorem test_witness_Handover :
    let s := linked .runStandby
    let a := (linked .runActive).setFld F.TW_STAT_OWN 0 0 1
    let d (c : Nat) := (linked .handover).modTwin fun t => { t with dec := some (0, c) }
    let o := (d 2).setFld F.TW_STAT_OWN_IN 0 0 1
    let f := a.setFld F.TW_STAT_FHOLD 0 0 1
    (s.mode = .runStandby ∧ s.ownIn = false ∧ s.linkIsUp = true) ∧
    (a.mode ≠ .runStandby ∧ a.mode ≠ .handover ∧ a.flag F.TW_STAT_OWN 0 0 = true) ∧
    ((d 3).mode = .handover ∧ (d 3).twin.dec = some (0, 3) ∧ 3 < 4 ∧ (d 2).twin.dec = some (0, 2) ∧ (d 2).ownIn = false) ∧
    (o.mode = .handover ∧ o.twin.dec.any (fun x => decide (x.2 = 2)) = true ∧ o.ownIn = true) ∧
    (f.mode = .runActive ∧ f.flag F.TW_STAT_FHOLD 0 0 = true ∧ f.flag F.TW_STAT_OWN 0 0 = true) ∧
    (a.flag F.TW_STAT_FHOLD 0 0 = false ∧ a.twin.switch = false ∧ a.sys.mode ≠ .safeHold) ∧
    (let w := a.modTwin fun t => { t with switch := true }
     w.mode = .runActive ∧ w.flag F.TW_STAT_OWN 0 0 = true ∧ w.flag F.TW_STAT_FHOLD 0 0 = false ∧ w.twin.switch = true) := by
  decide +kernel

theorem test_witness_LinkAndTwinLoad :
    let l (k : LoadSrc) := { linked .loading with load := ⟨k, [], 0, 0⟩ }
    let r := linked .ready
    let o := { r with sys := { r.sys with bg := [0x20000000] } }
    let b := linked .blank
    let img : List Byte := List.replicate 32 0
    r.mode ≠ .retention ∧ (r.setFld F.TW_STAT_LINK 0 0 1).fld F.TW_STAT_LINK 0 0 = 1 ∧ r.linkIsUp = true ∧
    ((l .twin).mode = .loading ∧ (l .twin).load.src = .twin ∧ (l .twin).linkIsUp = true) ∧ (l .host).load.src = .host ∧ r.mode ≠ .loading ∧
    (let p := o.modTwin fun t => { t with blank := true }
     p.twin.blank = true ∧ p.hasOffer = true ∧ p.linkIsUp = true ∧ p.flag F.TW_STAT_FAULT_OUT 0 0 = false ∧ p.twin.step = 0 ∧
      p.twin.align = none) ∧
    o.hasOffer = true ∧ (b.mode = .blank ∧ b.fl.lower = none ∧ b.linkIsUp = true ∧ b.flag F.TW_STAT_FAULT_OUT 0 0 = false) ∧
    (0 = (l .twin).load.img.length ∧ 4 ≠ (l .twin).load.img.length ∧ 16 ≤ img.length ∧ imgLength img ≤ img.length ∧
      (List.replicate 15 (1 : Byte)).length < 16 ∧ (List.replicate 32 (1 : Byte)).length < imgLength (List.replicate 32 1)) := by
  decide +kernel

theorem test_witness_ResetAndSafeHold :
    let r := rdy
    let z := inMode .reset
    let n := { rdy with sys := { rdy.sys with safeNLow := true }, cal := [(5, .safeNTimeout)] }
    let f := rdy.setFld F.TW_STAT_FHOLD 0 0 1
    (739 < 740 ∧ ¬(740 < 740)) ∧ (z.sys.mode = .reset ∧ z.fl.lower = none) ∧ (r.mode ≠ .reset ∧ r.mode ≠ .retention) ∧
    (let h := inMode .safeHold
     h.mode = .safeHold ∧ h.marked (RegName.SYS_SAFE.addr 0 0) false = false) ∧
    (r.safeNActs = true ∧ n.safeNActs = true ∧ n.sys.safeNLow = true ∧ n.flag F.TW_STAT_FHOLD 0 0 = false ∧ n.twin.leaveAt = none) ∧
    (n.cal.filter (fun e => decide (e.2 = .safeNTimeout)) = [(5, .safeNTimeout)] ∧ n.now < 5) ∧
    (r.mode.live = true ∧ r.mode ≠ .safeHold ∧ r.flag F.TW_STAT_FHOLD 0 0 = false ∧ r.twin.leaveAt = none) ∧
    f.flag F.TW_STAT_FHOLD 0 0 = true := by
  decide +kernel

/-- A host-port frame with its CRC. -/
def hpf (cmd : Byte) (d : List Byte) : HpFrame :=
  let f : HpFrame := ⟨0, 1, BitVec.ofNat 16 d.length, 0⟩
  { f with crc := crc16 ((hpBytes f cmd d).take (8 + d.length)) }

theorem test_witness_ModeRequests :
    let h := (winAll (inMode .safeHold)).setFld F.SYS_SAFE_CAUSE 0 0 4
    let k := { rdy with sys := { rdy.sys with bg := [0x20000000] } }
    let q := { k with sys := { k.sys with retReq := true } }
    let sup : Req := ⟨0, 0, .supervisor⟩
    (rdy.admits mon .write .SYS_MODE_REQ 0 0 ∧ rdy.admits sup .write .SYS_MODE_REQ 0 0 ∧ sup.t0mon = false ∧ mon.t0mon = true) ∧
    (rdy.modeOk 5 = false ∧ h.modeOk 10 = false ∧ (linked .runSolo).modeOk 11 = false ∧ rdy.modeOk 12 = false) ∧
    (h.softHold = true ∧ h.sys.safeNLow = false) ∧
    (let m := winAll (inMode .maintenance)
     let y := { h with sys := { h.sys with readyReq := true } }
     let n := { y with sys := { y.sys with safeNLow := true } }
     m.mode = .maintenance ∧ m.sys.faultReq = none ∧ m.admits mon .write .SYS_MODE_REQ 0 0 ∧ h.admits mon .write .SYS_MODE_REQ 0 0 ∧
      y.sys.readyReq = true ∧ y.softHold = true ∧ y.sys.safeNLow = false ∧ n.mode = .safeHold ∧ n.sys.readyReq = true ∧
      n.sys.safeNLow = true ∧ (y.setFld F.SYS_SAFE_CAUSE 0 0 1).softHold = false) ∧ rdy.modeOk 10 = true ∧ rdy.modeOk 11 = true ∧ k.modeOk 12 = true ∧
    (q.sys.mode ≠ .retention ∧ q.dma.block = none ∧ q.flashBusy = false ∧
      hpReceive (hpf 0x20 [BitVec.ofNat 8 12]) 0x20 [BitVec.ofNat 8 12] = .good [12]) ∧
    (k.dma.block = none ∧ k.flashBusy = false ∧ rdy.hpLive = true) ∧ (q.mode = .ready ∧ q.sys.retReq = true) := by
  simp only [State.admits]; decide +kernel

/-- Asleep, with the image at IMGBASE. -/
def asleep : State := { inMode .retention with sys := { (inMode .retention).sys with bg := [0x20000000] } }

theorem sha256_length (m : List Byte) : (sha256 m).length = 32 := by
  rw [sha256, List.length_flatMap]
  rfl

/-- What RETENTION_WAKE looks at, at the start of its replay. -/
def waking (s : State) : State := (s.setFld F.TW_STAT_LINK 0 0 1).setFld F.EVC_STAT_RESTORED 0 0 1

/-- A wake without a kept image, with one whose digest differs, with one whose digest agrees. -/
theorem test_witness_wake :
    asleep.sys.mode = .retention ∧ (waking asleep).keptImage.1 = some [] ∧ imgDigest [] ≠ asleep.sys.digest ∧
    (waking (asleep.setWord 0x2000000C 0x2000000)).keptImage.1 = none ∧
    (let s := { asleep with sys := { asleep.sys with digest := imgDigest [] } }
     (waking s).keptImage.1 = some [] ∧ imgDigest [] = s.sys.digest) ∧
    2 ≤ onesBelow 9 (calMask (vset (vset calGood 0 calBad) 1 calBad)) ∧ onesBelow 9 (calMask (vset calGood 8 calBad)) < 2 := by
  refine ⟨by decide +kernel, by decide +kernel, ?_, by decide +kernel, ⟨by decide +kernel, rfl⟩, by decide +kernel, by decide +kernel⟩
  intro h
  have := congrArg List.length h
  rw [imgDigest, sha256_length] at this
  exact absurd this (by decide +kernel)

theorem test_witness_HostPort :
    let q := queue3.setFld F.HP_CFG_INQ 0 0 3
    let q := (q.setFld F.HP_CFG_OUTQ 0 0 3).setFld F.HP_CFG_TENANT 0 0 0
    let w := q.qWrite 3 7 1
    let g := q.qWrite 3 7 2
    rdy.hpLive = true ∧ hpReceive (hpf 1 []) 1 [] = .good [] ∧ hpReceive { hpf 1 [] with crc := 0 } 1 [] = .bad ∧
    hpReceive { hpf 1 [] with len := 1 } 1 [] = .cut ∧ (0x31 : Byte) ∉ ([0x01, 0x02, 0x03, 0x10, 0x11, 0x20, 0x30] : List Byte) ∧
    hpReceive (hpf 0x31 []) 0x31 [] = .good [] ∧ hpReceive (hpf 0x10 [1, 2, 3, 4]) 0x10 [1, 2, 3, 4] = .good [1, 2, 3, 4] ∧
    q.mode.cores = true ∧ q.qCredit 3 = false ∧ q.mayPush 0 3 = true ∧ (inMode .blank).mode.cores = false ∧ (inMode .blank).hpLive = true ∧
    (List.replicate 65535 (0 : Byte)).length < 65536 ∧ g.cycAdded 3 < g.qFill 3 ∧ w.cycAdded 3 < w.qFill 3 ∧
    hpReceive (hpf 0x11 []) 0x11 [] = .good [] ∧ q.queueOwner 3 = Fin.ofNat 8 (q.fld F.HP_CFG_TENANT 0 0) ∧ q.qFill 3 = 0 ∧
    (0 < g.qFill 3 ∧ (g.qTags (g.qSlot 3 (g.qRd 3))).getLsbD 1 = true) ∧ (0 < w.qFill 3 ∧ (w.qTags (w.qSlot 3 (w.qRd 3))).getLsbD 1 = false) := by
  decide +kernel

theorem test_witness_HostLoadAndVerify :
    let d : List Byte := List.replicate 16 0
    let l := { inMode .loading with load := ⟨.host, [], 0, 0⟩ }
    let v := inMode .verify
    rdy.flag F.SYS_CLK_STAT_CLK_LOST 0 0 = false ∧ hpReceive (hpf 2 (Word.bytes 0 ++ d)) 2 (Word.bytes 0 ++ d) = .good (Word.bytes 0 ++ d) ∧
    hpReceive (hpf 2 (Word.bytes 4 ++ d)) 2 (Word.bytes 4 ++ d) = .good (Word.bytes 4 ++ d) ∧ 4 ≤ d.length ∧ d.length ≤ 4096 ∧ d.length % 4 = 0 ∧
    ((inMode .blank).sys.mode = .blank ∧ (inMode .blank).fl.lower = none ∧ (d.take 12).length < 16) ∧
    (l.sys.mode = .loading ∧ l.load.src = .host ∧ (0 : Word).toNat = l.load.img.length ∧ (4 : Word).toNat ≠ l.load.img.length) ∧
    (16 ≤ d.length ∧ imgLength d ≤ d.length) ∧ rdy.mode.cores = true ∧ hpReceive (hpf 3 []) 3 [] = .good [] ∧
    (v.mode = .verify ∧ v.verdict v.load.img = some (1, 0, 0)) ∧
    selfTestCause ⟨calGood, false, false, [0xFF, 0xFF, 0xFF, 0xFF], false, false, false, 1⟩ = 0 ∧
    selfTestCause ⟨calGood, false, false, [0xFF, 0xFF, 0xFF, 0xFE], false, false, false, 0⟩ = 4 := by
  decide +kernel

theorem test_witness_DebugPort :
    let s := rdy.setFld F.DBG_STAT_STATE 0 0 2
    let o := linked .runSolo
    let o := o.setFld F.DBG_STAT_STATE 0 0 2
    let h := s.modPair 0 fun x => { x with halted := true }
    let r := s.modPair 0 fun x => { x with haltReq := true }
    let p := rdy.setFld F.FL_PL_LEVEL 0 0 1
    (s.sys.mode ≠ .reset ∧ s.sys.mode ≠ .retention ∧ s.flag F.DBG_STAT_PORT 0 0 = false) ∧ rdy.dbgOn = false ∧
    (rdy.grants (capOf false false 0x20000000) = false ∧ s.grants (capOf false false 0x20000000) = true ∧ s.grants (capOf false true 0x20000000) = true) ∧
    ((s.busRead dbgReq true 0x20000000 4).1 = .data 0 ∧ (s.busRead dbgReq true 0x60000000 4).1 = .error) ∧
    (place dbgReq 0x44300000 4 = .reg .DBG_ID 0 0 ∧ s.grants (capOf false false 0x44300000) = true) ∧
    (rdy.grants (capOf true false 0x20000000) = false ∧ s.grants (capOf true false 0x20000000) = true ∧ regAt (unalias 0x20000000) = none) ∧
    s.dbgFull = true ∧ p.dbgFull = false ∧ (s.grants .h = true ∧ s.haltBarred 0 = false ∧ (s.pair 0).halted = false) ∧
    (o.grants .h = true ∧ o.haltBarred 0 = true) ∧ (h.pair 0).halted = true ∧ ((r.pair 0).haltReq = true ∧ r.boundary 0 = .halt) ∧
    (h.grants .h = true ∧ rdy.grants .h = false ∧ (s.pair 0).halted = false ∧
      (∀ l ∈ [DbgLoc.greg 0 31, .freg 0 31 true, .freg 0 0 false, .special 0 5, .special 0 25], locPair l = some 0 ∧ h.dbgPeek l ≠ none) ∧
      h.dbgPeek (.special 0 7) = none) ∧
    (let b := { o with dbg := { o.dbg with barred := [(o.now, 1, 0)] } }
     b.dbg.barred = [(b.now, 1, 0)] ∧ (b.pair 0).halted = false ∧ b.grants .h = true ∧ (0xFFFF : Word).toNat % 65536 = 65535) := by
  decide +kernel

/-- The port through host frames: a frame that carries an access, and the session with either port. -/
theorem test_witness_DebugPort_host :
    let frame (op : Nat) (a d : Word) := [BitVec.ofNat 8 op, 0, 0, 0] ++ Word.bytes a ++ Word.bytes d
    let fits (op : Nat) (a d : Word) : Prop := hpReceive (hpf 0x30 (frame op a d)) 0x30 (frame op a d) = .good (frame op a d)
    let ctrl := BitVec.ofNat 32 (RegName.DBG_CTRL.addr 0 0)
    let s := rdy.setFld F.DBG_STAT_STATE 0 0 2
    let h := s.setFld F.DBG_STAT_PORT 0 0 1
    fits 1 0x20000000 0 ∧ fits 3 0x217FFFFC 0 ∧ fits 2 0x20000000 5 ∧ (∀ k < 4, fits 2 ctrl (BitVec.ofNat 32 k)) ∧ fits 2 ctrl 4 ∧
    fits 2 ctrl 16 ∧ fits 2 ctrl (8 + 15 * 16) ∧ fits 2 ctrl 256 ∧ fits 2 (BitVec.ofNat 32 (RegName.DBG_SAFEGRP.addr 0 0)) 0xFFFF ∧
    (frame 2 ctrl 4).length = 12 ∧ rdy.sys.mode ≠ .blank ∧ rdy.sys.mode ≠ .loading ∧ rdy.sys.mode ≠ .verify ∧
    s.dbgOn = true ∧ s.flag F.DBG_STAT_PORT 0 0 = false ∧ h.dbgOn = true ∧ h.flag F.DBG_STAT_PORT 0 0 = true ∧ rdy.dbgOn = false := by
  decide +kernel

/-- Places a debug access finds: memory, a register, the configuration space, flash in each state, nothing. -/
theorem test_witness_DebugPort_places :
    let s := rdy.setFld F.DBG_STAT_STATE 0 0 2
    let f := { s.modFB 0 fun x => { x with cmd := some (.erase 0), dur := 100 } with now := 5 }
    let z := { s with upset := [(0x10000000, true)] }
    place dbgReq 0x217FFFFC 4 = .ram 0x217FFFFC ∧ s.cleanAt 0x217FFFFC 4 ∧ place dbgReq 0x50000000 4 = .config 0x50000000 ∧
    place dbgReq 0x10000000 4 = .flash 0x10000000 ∧ (s.flReadBy 12 0x10000000).1 = .ok ∧
    (match (f.flReadBy 12 0x10000000).1 with | .busy _ => true | _ => false) = true ∧ (z.flReadBy 12 0x10000000).1 = .bad ∧
    place dbgReq 0x60000000 4 = .nowhere ∧ (∀ q : Pair, (s.pair q).stc = none) ∧
    regAt (unalias (RegName.DBG_AUTH_DATAi.addr 31 0)) = some (.DBG_AUTH_DATAi, 31, 0) ∧
    s.grants (capOf true false (RegName.DBG_AUTH_DATAi.addr 31 0)) = true ∧
    regAt (unalias (RegName.Q_POOL_BASE.addr 0 0)) = some (.Q_POOL_BASE, 0, 0) ∧
    s.grants (capOf true false (RegName.Q_POOL_BASE.addr 0 0)) = true := by
  simp only [State.cleanAt]; decide +kernel

/-- X, Y, r and s of a signature of challenge 0 and UID 0 under the private key 1 with the nonce 1, as DBG_AUTH_DATAi holds them. -/
def authData : List Word :=
  [0xf2d1176b, 0x47422ce1, 0xe5e6bcf8, 0xf240a463, 0x817d0377, 0xa033eb2d, 0x4539a1f4, 0x96c298d8,
   0xe242e34f, 0x9b7f1afe, 0x4aebe78e, 0x169e0f7c, 0x5733ce2b, 0xce5e316b, 0x6840b6cb, 0xf551bf37,
   0xf2d1176b, 0x47422ce1, 0xe5e6bcf8, 0xf240a463, 0x817d0377, 0xa033eb2d, 0x4539a1f4, 0x96c298d8,
   0x1248c882, 0x1dc4dc68, 0x625ccdc7, 0x1e322e30, 0x8f44595a, 0xc912155c, 0x4cec0680, 0x677f75e9]
/-- The SHA-256 hash of that X and Y, as SEC_OKHi holds it. -/
def authHash : List Word :=
  [0x7ddb75d8, 0x362223ef, 0xc638c7ae, 0x803ebbb0, 0xf5d2f14, 0x24dff4d8, 0xf5eed6fe, 0x9f0db5cb]
/-- Registers of an array with their values. -/
def laid (rn : RegName) (ws : List Word) : SMap Word := ws.zipIdx.map fun x => (rn.addr x.2 0, x.1)
/-- A state in which that answer is checked. -/
def answered : State :=
  { rdy with regs := laid .SEC_OKHi authHash ++ (RegName.addr .SEC_FUSE_STAT 0 0, 2) :: laid .DBG_AUTH_DATAi authData
             dbg := { rdy.dbg with authBusy := true } }

theorem test_witness_AuthenticationAndTap :
    let s := rdy.setFld F.DBG_STAT_STATE 0 0 2
    let b := { s with dbg := { s.dbg with authBusy := true } }
    let l := s.setFld F.DBG_STAT_LOCKED 0 0 1
    let c := { s with dbg := { s.dbg with chal := true } }
    let at_ (d : Word) := [2, 0, 0, 0] ++ Word.bytes (BitVec.ofNat 32 (RegName.DBG_AUTH_CTRL.addr 0 0)) ++ Word.bytes d
    let fits (d : Word) : Prop := hpReceive (hpf 0x30 (at_ d)) 0x30 (at_ d) = .good (at_ d)
    fits 1 ∧ fits 2 ∧ (at_ 1).length = 12 ∧ rdy.dbgOn = false ∧ (s.flag F.DBG_STAT_PORT 0 0 = false ∧ s.dbgOn = true) ∧
    l.flag F.DBG_STAT_LOCKED 0 0 = true ∧ b.dbg.authBusy = true ∧ (s.flag F.DBG_STAT_LOCKED 0 0 = false ∧ s.dbg.authBusy = false) ∧
    (c.dbg.chal = true ∧ s.dbg.chal = false ∧ c.flag F.DBG_STAT_LOCKED 0 0 = false ∧ c.dbg.authBusy = false) ∧
    (b.sys.mode ≠ .reset ∧ b.sys.mode ≠ .retention ∧ b.okhBlank = true ∧ b.fld F.DBG_STAT_FAILS 0 0 < 3 ∧
      (b.setFld F.DBG_STAT_FAILS 0 0 2).fld F.DBG_STAT_FAILS 0 0 = 2) ∧
    (answered.dbg.authBusy = true ∧ answered.okhBlank = false ∧ answered.sys.mode = .ready) ∧
    (State.reset.sys.mode = .blank ∧ State.reset.fld F.FL_PL_LEVEL 0 0 = 0) ∧
    (let p := ((inMode .blank).setFld F.FL_PL_LEVEL 0 0 1).setFld F.DBG_STAT_AUTH 0 0 1
     p.sys.mode = .blank ∧ p.flag F.DBG_STAT_AUTH 0 0 = true) ∧ rdy.sys.mode ≠ .blank := by
  decide +kernel

theorem test_witness_right_answer : answered.authGood = true := by decide +kernel

/-- An answer whose key has another hash. -/
theorem test_witness_wrong_answer :
    let s := { answered with regs := [(RegName.addr .SEC_FUSE_STAT 0 0, 2)] }
    s.okhBlank = false ∧ s.authGood = false := by decide +kernel

theorem test_witness_RegisterAccesses :
    let u := inMode .ready
    rdy.reqLive mon .write = true ∧ rdy.reqLive mon .read = true ∧ (inMode .blank).reqLive mon .write = false ∧
    (∀ q : Pair, (rdy.pair q).stc = none) ∧
    (let a := RegName.addr .PTU_FOREIGN_CNT 0 0
     let h := { rdy with hits := rdy.hits.insert a (1, 2) }
     SMap.find? rdy.hits a = none ∧ SMap.find? h.hits a = some (1, 2)) ∧ (2 : Word).toNat % 4 ≠ 0 ∧ rdy.permitted mon .write 0x20000000 4 = true ∧
    rdy.permitted mon .read 0x20000000 4 = true ∧ u.permitted mon .read 0x20000000 4 = false ∧ u.permitted mon .write 0x20000000 4 = false ∧
    place mon 0x60000000 4 = .nowhere ∧ place mon 0x217FFFFC 4 = .ram 0x217FFFFC ∧ rdy.cleanAt 0x217FFFFC 4 ∧ 0x217FFFFC < 0x30000000 ∧
    place mon 0x30380000 4 = .ram 0x30380000 ∧ rdy.cleanAt 0x30380000 4 := by
  simp only [State.cleanAt]; decide +kernel

/-- Every register's address leads back to it: the bounds of two families. -/
theorem test_witness_ResetState : regAt (RegName.addr .EVC_SRCn_CFG 511 0) = some (.EVC_SRCn_CFG, 511, 0) ∧
    regAt (RegName.addr .IX_RSVb_m 5 12) = some (.IX_RSVb_m, 5, 12) ∧ State.reset.pending = [] := by
  decide +kernel

/-- A state with a command in front; one that lists a register and a byte, in canonical form. -/
theorem test_witness_StepKeepsCanonical :
    let s := (rdy.setByte 0x20000000 5).setByte 0x10000000 0
    let s := { s with pending := [.tapBypass] }
    s.canonical ∧ s.regs ≠ [] ∧ s.mem ≠ [] := by
  simp only [State.canonical]; decide +kernel

/-- A well-formed instruction with its word, written out from format P of Table 10.4. -/
theorem test_witness_DecodeEncode : Instr.wf (.stp 3 31 30 2 3 2 0x1FF) = true ∧ Instr.pair? (.stp 3 31 30 2 3 2 0x1FF) = some 3 ∧
    nc32Encode (.stp 3 31 30 2 3 2 0x1FF) = some 0b011111_11111_11110_10_11_010_111111111 := by
  decide +kernel

/-! ## One step each -/

/-- The state after a command. -/
def after (c : Instr) (s : State) : State :=
  match exec c s with
  | .next t => t
  | _ => State.reset

/-- Pair 0 with g2 and g3. -/
def regs23 (x y : Word) : State := rdy.both 0 fun c => (c.setG 2 x).setG 3 y

/-- General register r of pair 0. -/
def g (s : State) (r : Greg) : Word := (s.pair 0).main.gr r
/-- Flags of pair 0. -/
def fl (s : State) : Nzcv := (s.pair 0).main.flags

theorem test_add_wraps : let t := after (.add 0 1 2 3) (regs23 0xFFFFFFFF 1)
    g t 1 = 0 ∧ fl t = ⟨false, true, true, false⟩ ∧ (t.pair 0).pc = 4 := by decide +kernel
theorem test_add_overflows : fl (after (.add 0 1 2 3) (regs23 0x7FFFFFFF 1)) = ⟨true, false, false, true⟩ := by decide +kernel
theorem test_sub_borrows : let t := after (.sub 0 2 2 3) (regs23 1 2)
    g t 2 = 0xFFFFFFFF ∧ fl t = ⟨true, false, false, false⟩ := by decide +kernel
theorem test_g0_discards : g (after (.add 0 0 2 3) (regs23 1 2)) 0 = 0 := by decide +kernel
theorem test_sar_sign : g (after (.shi 0 1 2 2 31) (regs23 0x80000000 0)) 1 = 0xFFFFFFFF := by decide +kernel
theorem test_mul_signed : let t := after (.mul 0 4 2 3) (regs23 0xFFFFFFFF 5)
    g t 4 = 0xFFFFFFFB ∧ g t 5 = 0xFFFFFFFF := by decide +kernel
theorem test_div_by_zero : let t := after (.div 0 4 2 3) (regs23 7 0)
    g t 4 = 0xFFFFFFFF ∧ g t 5 = 7 ∧ (fl t).c = true := by decide +kernel
theorem test_div_truncates : let t := after (.div 0 4 2 3) (regs23 0xFFFFFFF9 2)
    g t 4 = 0xFFFFFFFD ∧ g t 5 = 0xFFFFFFFF := by decide +kernel
theorem test_store_little_endian : let t := after (.stw 0 2 0 0x100) (regs23 0x11223344 0)
    t.byte 0x38000100 = 0x44 ∧ t.byte 0x38000103 = 0x11 := by decide +kernel
theorem test_load_extends_sign : g (after (.ldb 0 1 0 0x100) (rdy.setByte 0x38000100 0x80)) 1 = 0xFFFFFF80 := by decide +kernel
theorem test_misaligned_load : let t := after (.ldw 0 1 0 2) rdy
    (t.pair 0).main.cause = 0x00020005 ∧ (t.pair 0).main.faddr = 2 ∧ (t.pair 0).pc = 0 := by decide +kernel
theorem test_branch_takes_slot_first : let t := after (.bcc 0 false 14 4) rdy
    (t.pair 0).pc = 4 ∧ (t.pair 0).slot = some ⟨0, 16⟩ := by decide +kernel
theorem test_call_links_past_slot : g (after (.call 0 4) rdy) 31 = 8 := by decide +kernel
theorem test_trap_enters : let t := after (.trap 0 7) rdy
    (t.pair 0).main.cause = 0x00070002 ∧ (t.pair 0).main.epc = 4 ∧ t.flag F.LP_EXC_STAT_ARMED 0 0 = true := by decide +kernel
theorem test_fadd_one_one : let s := rdy.both 0 fun c => { c with f := vset (vset c.f 1 0x3F800000) 2 0x3F800000 }
    ((after (.fadd 0 false 3 1 2) s).pair 0).main.fr 3 = 0x40000000 := by decide +kernel
theorem test_fcmp_unordered : let s := rdy.both 0 fun c => { c with f := vset c.f 1 0x7FC00000 }
    fl (after (.fcmp 0 false 1 2) s) = ⟨false, false, false, true⟩ := by decide +kernel

theorem test_window_violation : let t := after (.registerWrite ⟨2, 3, .user⟩ 0x20000000 1) rdy
    t.ans.err = true ∧ t.fld F.PTU_VIOLt_COUNT 3 0 = 1 ∧ t.word 0x20000000 = 0 ∧
    t.reg .PTU_LASTVIOL 0 0 = 0x231 := by decide +kernel
theorem test_event_merges : let t := after (.evcEvent 9) (after (.evcEvent 9) rdy)
    t.evc.pend.getLsbD 9 = true ∧ t.fld F.EVC_ERR_CNT_MERGE 0 0 = 1 := by decide +kernel
theorem test_queue_order : let t := after (.queuePop mon 3) (after (.queuePush mon 3 8) (after (.queuePush mon 3 7) queue3))
    t.ans.data = 7 ∧ t.items 3 = [(8, 0)] := by decide +kernel
theorem test_semaphore_held : let t := after (.semAcquire ⟨1, 0, .monitor⟩ 5) (after (.semAcquire mon 5) rdy)
    t.ans.data = 0x100 := by decide +kernel
theorem test_dma_start_arms : let t := after (.dmaStart mon 4) (rdy.setReg .DCHn_DESC 4 0 0x20000040)
    t.flag F.DCHn_STAT_BUSY 4 0 = true ∧ t.reg .DCHn_CUR 4 0 = 0x20000040 := by decide +kernel
theorem test_flash_needs_key : let s := { flash with fl := { flash.fl with key := false } }
    (after (.flashErase mon) s).fld F.FL_STAT_ERR 0 0 = 1 := by decide +kernel
theorem test_adc_code : let t := after (.adcHold 7 (.board [3000000000] 0 0 3000000000)) (adcAt 3 false false (adc7 .ready 0))
    (t.adc[(7 : Conv)].cur.map fun c => (c.code, c.oor)) = some (0xFFFF, true) := by decide +kernel
theorem test_timer_zero_event : let t := after (.timerZero 5) (rdy.setFld F.TMn_STAT_RUN 5 0 1)
    t.mx.ev = [tmrSrc 5] := by decide +kernel
theorem test_tod_rollover : let t := after .todRollover { rdy with tod := { rdy.tod with acc := 1000000000 * 2 ^ 30 } }
    t.tod.sec = 1 ∧ t.tod.acc = 0 := by decide +kernel
theorem test_quadrature_both_edges : (after (.quadEdge 7 .filtered ⟨true, true, false⟩) (rdy.setReg .POSn_CFG 7 0 0x80000009)).flag F.POSn_STAT_QERR 7 0 = true := by
  decide +kernel
theorem test_pwm_trip : let t := after (.pwmTrip 15 3) (rdy.setFld F.PWMn_CFG_TRIPEN 15 0 8)
    t.pwm[(15 : GenId)].safe = true ∧ t.fld F.PWMn_STAT_TRIPPED 15 0 = 8 := by decide +kernel
theorem test_safe_n : let t := after .safeNTimeout { rdy with sys := { rdy.sys with safeNLow := true } }
    t.sys.mode = .safeHold ∧ t.fld F.SYS_SAFE_CAUSE 0 0 = 3 := by decide +kernel
theorem test_run_solo_owns : let t := after (.runSolo mon) (linked .ready)
    t.sys.mode = .runSolo ∧ t.flag F.TW_STAT_OWN 0 0 = true := by decide +kernel
theorem test_host_badcmd : ((after (.hpBadcmd (hpf 0x31 []) 0x31 []) rdy).hp.map (·.status)) = some 3 := by decide +kernel
theorem test_tap_idcode : (after .tapIdcode State.reset).dbg.tap = .idcode := by decide +kernel
theorem test_idle_passes_time : ∃ t, step State.reset = .next t ∧ t.sys.mode = .blank := ⟨_, rfl, by decide +kernel⟩
theorem test_front_of_queue : step { State.reset with pending := [.tapExtest, .tapBypass] } =
    exec .tapExtest { State.reset with pending := [.tapBypass] } := rfl

end Sys2Proof.Tests
end

