-- ==== Sys2Proof/Proofs/MultiplyDivide.lean ====
section
/-! PROOF. Multiply and divide: the two-word results in the terms of R259 and R260, and what MUL, MULU, DIV and DIVU do. -/

namespace Sys2Proof.Machine

/-! ## The results -/

/-- The two words and the flags of an exact product v (R259). -/
def productOut (v : Int) : MulOut :=
  ⟨BitVec.ofInt 32 v, BitVec.ofInt 32 (v / 2 ^ 32), ⟨decide (v % 2 ^ 64 / 2 ^ 63 = 1), decide (v = 0), false, false⟩⟩

/-- A quotient and a remainder, with N and Z from the quotient (R260). -/
def quotientOut (q r : Word) (cy v : Bool) : MulOut := ⟨q, r, ⟨q.getLsbD 31, decide (q = 0), cy, v⟩⟩

/-- The 64-bit word of an exact product that fits it is written as R259 words it. -/
theorem productOut_of_bitVec (v : Int) (hlo : -2 ^ 64 < v) (hhi : v < 2 ^ 64) :
    (⟨(BitVec.ofInt 64 v).setWidth 32, (BitVec.ofInt 64 v >>> 32).setWidth 32,
      ⟨(BitVec.ofInt 64 v).msb, BitVec.ofInt 64 v == 0, false, false⟩⟩ : MulOut) = productOut v := by
  have hn : (BitVec.ofInt 64 v).toNat = (v % 2 ^ 64).toNat := by simp [BitVec.toNat_ofInt]
  have hlow : (BitVec.ofInt 64 v).setWidth 32 = BitVec.ofInt 32 v := by
    apply BitVec.eq_of_toNat_eq
    rw [BitVec.toNat_setWidth, hn, BitVec.toNat_ofInt]; omega
  have hhigh : (BitVec.ofInt 64 v >>> 32).setWidth 32 = BitVec.ofInt 32 (v / 2 ^ 32) := by
    apply BitVec.eq_of_toNat_eq
    rw [BitVec.toNat_setWidth, BitVec.toNat_ushiftRight, Nat.shiftRight_eq_div_pow, hn, BitVec.toNat_ofInt]; omega
  have hsign : (BitVec.ofInt 64 v).msb = decide (v % 2 ^ 64 / 2 ^ 63 = 1) := by
    rw [BitVec.msb_eq_decide, hn, decide_eq_decide]; omega
  have hzero : (BitVec.ofInt 64 v == 0) = decide (v = 0) := by
    rw [beq_eq_decide, decide_eq_decide, ← BitVec.toNat_inj, hn]
    change (v % 2 ^ 64).toNat = 0 ↔ v = 0
    omega
  rw [hlow, hhigh, hsign, hzero, productOut]

/-- MUL's result is that of the signed product. -/
theorem mulOut_signed (a b : Word) : mulOut true a b = productOut (a.toInt * b.toInt) := by
  have habs : (a.toInt * b.toInt).natAbs ≤ 2 ^ 31 * 2 ^ 31 := by
    rw [Int.natAbs_mul]
    have ha := a.toInt_lt; have ha' := a.le_toInt; have hb := b.toInt_lt; have hb' := b.le_toInt
    exact Nat.mul_le_mul (by omega) (by omega)
  exact productOut_of_bitVec _ (by omega) (by omega)

/-- MULU's result is that of the unsigned product. -/
theorem mulOut_unsigned (a b : Word) : mulOut false a b = productOut (a.toNat * b.toNat) := by
  have hlt : a.toNat * b.toNat < 2 ^ 32 * 2 ^ 32 := Nat.mul_lt_mul'' a.isLt b.isLt
  have hcast : BitVec.ofInt 64 (a.toNat * b.toNat) = BitVec.ofNat 64 (a.toNat * b.toNat) := by
    rw [← Int.natCast_mul, BitVec.ofInt_natCast]
  rw [← productOut_of_bitVec _ (by omega) (by omega), hcast]; rfl

/-- The plain case of a division: N and Z from the quotient, C and V clear. -/
theorem quotientOut_of_msb (q r : Word) : (⟨q, r, ⟨q.msb, q == 0, false, false⟩⟩ : MulOut) = quotientOut q r false false := by
  rw [quotientOut, BitVec.msb_eq_getLsbD_last, beq_eq_decide]

/-- DIV's result: the divisor 0, the quotient that does not fit, and plain division (R260). -/
theorem divOut_signed (a b : Word) : divOut true a b =
    if b = 0 then quotientOut 0xFFFFFFFF a true false
    else if a = 0x80000000 ∧ b = 0xFFFFFFFF then quotientOut 0x80000000 0 false true
    else quotientOut (BitVec.ofInt 32 (a.toInt.tdiv b.toInt)) (BitVec.ofInt 32 (a.toInt.tmod b.toInt)) false false := by
  simp only [divOut, Bool.true_and, decide_eq_true_eq, if_true]
  split
  · rfl
  · split
    · rfl
    · exact quotientOut_of_msb _ _

/-- DIVU's result: the divisor 0 and plain division (R260). -/
theorem divOut_unsigned (a b : Word) : divOut false a b =
    if b = 0 then quotientOut 0xFFFFFFFF a true false else quotientOut (a / b) (a % b) false false := by
  simp only [divOut, Bool.false_and, Bool.false_eq_true, if_false]
  split
  · rfl
  · exact quotientOut_of_msb _ _

/-! ## The instructions -/

/-- The effect of an instruction that writes gD and gD+1: an odd D is illegal (R255), the word being that of the instruction. -/
def State.writePair (s : State) (p : Pair) (d : Greg) (i : Instr) (o : Copy → MulOut) : State :=
  if d.val % 2 = 1 then s.illegal p ((nc32Encode i).getD 0) else s.compute p fun c => c.put2 d (o c)

theorem State.writePair_even (s : State) (p : Pair) {d : Greg} (i : Instr) {o o' : Copy → MulOut} (hd : d.val % 2 = 0)
    (ho : ∀ c, o c = o' c) : s.writePair p d i o = s.compute p fun c => c.put2 d (o' c) := by
  rw [State.writePair, if_neg (by omega), funext ho]

theorem State.writePair_odd (s : State) (p : Pair) {d : Greg} (i : Instr) (o : Copy → MulOut) (hd : d.val % 2 = 1) :
    s.writePair p d i o = s.illegal p ((nc32Encode i).getD 0) := if_pos hd

theorem exec_mul (p : Pair) (d a b : Greg) (s : State) : exec (.mul p d a b) s =
    issue p (fun s => s.writePair p d (.mul p d a b) fun c => mulOut true (c.gr a) (c.gr b)) s := rfl

theorem exec_mulu (p : Pair) (d a b : Greg) (s : State) : exec (.mulu p d a b) s =
    issue p (fun s => s.writePair p d (.mulu p d a b) fun c => mulOut false (c.gr a) (c.gr b)) s := rfl

theorem exec_div (p : Pair) (d a b : Greg) (s : State) : exec (.div p d a b) s =
    issue p (fun s => s.writePair p d (.div p d a b) fun c => divOut true (c.gr a) (c.gr b)) s := rfl

theorem exec_divu (p : Pair) (d a b : Greg) (s : State) : exec (.divu p d a b) s =
    issue p (fun s => s.writePair p d (.divu p d a b) fun c => divOut false (c.gr a) (c.gr b)) s := rfl

/-- Settles O2: the two-word results above, written by an even D; for an odd D each of the four is illegal. -/
theorem multiplyAndDivide : Obligations.MultiplyAndDivide := by
  unfold Obligations.MultiplyAndDivide
  intro s p d a b h two prod quot
  refine ⟨fun hd => ⟨?_, ?_, ?_, ?_⟩, fun hd i hi => ?_⟩
  · rw [exec_mul, issue_run h, State.writePair_even _ _ _ hd fun c => mulOut_signed _ _]; rfl
  · rw [exec_mulu, issue_run h, State.writePair_even _ _ _ hd fun c => mulOut_unsigned _ _]; rfl
  · rw [exec_div, issue_run h, State.writePair_even _ _ _ hd fun c => divOut_signed _ _]
    simp only [apply_ite (Copy.put2 _ d)]; rfl
  · rw [exec_divu, issue_run h, State.writePair_even _ _ _ hd fun c => divOut_unsigned _ _]
    simp only [apply_ite (Copy.put2 _ d)]; rfl
  · simp only [List.mem_cons, List.not_mem_nil, or_false] at hi
    obtain rfl | rfl | rfl | rfl := hi
    · rw [exec_mul, issue_run h, State.writePair_odd _ _ _ _ hd]
    · rw [exec_mulu, issue_run h, State.writePair_odd _ _ _ _ hd]
    · rw [exec_div, issue_run h, State.writePair_odd _ _ _ _ hd]
    · rw [exec_divu, issue_run h, State.writePair_odd _ _ _ _ hd]

end Sys2Proof.Machine
end

