-- ==== Sys2Proof/Proofs/Authentication.lean ====
section
/-! PROOF. Authentication of a debug session and the TAP (R368, R374): what a write to DBG_AUTH_CTRL through either port does, what a
check comes to, which instructions the TAP loads. -/

namespace Sys2Proof.Machine

/-! ## Debug commands -/

/-- The host port, and not the TAP. -/
def dbgAtHost : DbgVia → Bool
  | .tap => false
  | .host _ => true

/-- The state after a debug command's operation `op`: its outcome and the answer of its port. -/
def dbgTold (v : DbgVia) (op : Nat) (r : DbgR) : State :=
  match v with
  | .tap => { r.2.2 with ans := ⟨r.2.1, decide (r.1 ≠ .ok)⟩ }
  | .host f => r.2.2.hpRespond 0x30 f r.1 (if r.1 = .ok ∧ op ≠ 2 then Word.bytes r.2.1 else [])

/-- A debug command reaches its port: the device answers there, a host frame came whole, the other port holds no session. -/
def State.dbgHears (s : State) (v : DbgVia) (op : Nat) (a d : Word) : Prop :=
  s.sys.mode ≠ .reset ∧ s.sys.mode ≠ .retention ∧ (s.flag F.DBG_STAT_PORT 0 0 = dbgAtHost v ∨ s.dbgOn = false) ∧ match v with
    | .tap => True
    | .host f => s.sys.mode ≠ .blank ∧ s.sys.mode ≠ .loading ∧ s.sys.mode ≠ .verify ∧
      ∃ q, hpReceive f 0x30 ([BitVec.ofNat 8 op, 0, 0, 0] ++ Word.bytes a ++ Word.bytes d) = .good q ∧ 12 ≤ q.length

/-- A port acts when it holds the session or none stands. -/
theorem State.dbgPort_free {s : State} {host : Bool} (h : s.flag F.DBG_STAT_PORT 0 0 = host ∨ s.dbgOn = false) (attach : Bool)
    (body : State → DbgR) : s.dbgPort host attach body = body s := by
  obtain h | h := h <;> simp [State.dbgPort, h]

/-- A debug command that reaches its port has its own effect, and the port answers. -/
theorem dbgCmd_heard {s : State} {v : DbgVia} {op : Nat} {a d : Word} (h : s.dbgHears v op a d) (body : Bool → State → DbgR) :
    dbgCmd v op a d body s = .next (dbgTold v op (body (dbgAtHost v) s)) := by
  obtain ⟨hreset, hret, hport, hv⟩ := h
  cases v with
  | tap => simp only [dbgCmd, if_neg hreset, State.dbgPort_free (host := false) hport]; rfl
  | host f =>
    obtain ⟨hblank, hloading, hverify, q, hgood, hlen⟩ := hv
    have hlive : s.hpLive = true := by simp [State.hpLive, hreset, hret]
    simp only [dbgCmd, hpCmd_good hlive hgood, State.dbgPort_free (host := true) hport, if_neg (Nat.not_lt.mpr hlen), hblank, hloading,
      hverify, or_self, if_false]
    rfl

/-! ## DBG_AUTH_CTRL -/

/-- DBG_AUTH_CTRL is of capability I and no plain register. -/
theorem State.dbgWrite_authCtrl {s : State} (hreset : s.sys.mode ≠ .reset) (hret : s.sys.mode ≠ .retention) (host : Bool) (d : Word) :
    s.dbgWrite host (BitVec.ofNat 32 (RegName.DBG_AUTH_CTRL.addr 0 0)) d = s.dbgAuth d := by
  have hcap : capOf true false (BitVec.ofNat 32 (RegName.DBG_AUTH_CTRL.addr 0 0)).toNat = .i := by decide +kernel
  have hreg : regAt (unalias (BitVec.ofNat 32 (RegName.DBG_AUTH_CTRL.addr 0 0)).toNat) = some (.DBG_AUTH_CTRL, 0, 0) := by decide +kernel
  have hgrant : s.grants .i = true := by simp [State.grants, hreset, hret]
  simp only [State.dbgWrite, hcap, hgrant, hreg, Bool.not_true, Bool.false_eq_true, if_false]

/-- A write to DBG_AUTH_CTRL through a port. -/
theorem dbgRegCmd_authCtrl {s : State} {v : DbgVia} {d : Word}
    (h : s.dbgHears v 2 (BitVec.ofNat 32 (RegName.DBG_AUTH_CTRL.addr 0 0)) d) :
    dbgRegCmd v .DBG_AUTH_CTRL d s = .next (dbgTold v 2 (s.dbgAuth d)) := by
  have ⟨hreset, hret, _⟩ := h
  rw [dbgRegCmd, dbgCmd_heard h, State.dbgWrite_authCtrl hreset hret]

/-- The word 1 writes REQ alone. -/
theorem State.dbgAuth_req (s : State) : s.dbgAuth 1 = s.authReq := rfl

/-- The word 2 writes GO alone. -/
theorem State.dbgAuth_go (s : State) : s.dbgAuth 2 = s.authStart := rfl

theorem exec_authRequest {s : State} {v : DbgVia} (h : s.dbgHears v 2 (BitVec.ofNat 32 (RegName.DBG_AUTH_CTRL.addr 0 0)) 1) :
    exec (.authRequest v) s = .next (dbgTold v 2 s.authReq) := by
  rw [← State.dbgAuth_req]; exact dbgRegCmd_authCtrl h

theorem exec_authGo {s : State} {v : DbgVia} (h : s.dbgHears v 2 (BitVec.ofNat 32 (RegName.DBG_AUTH_CTRL.addr 0 0)) 2) :
    exec (.authGo v) s = .next (dbgTold v 2 s.authStart) := by
  rw [← State.dbgAuth_go]; exact dbgRegCmd_authCtrl h

/-! ## Challenges and checks -/

/-- Authentication is shut: three failures in a row, or a check that runs (log entry 12). -/
def State.authShut (s : State) : Prop := s.flag F.DBG_STAT_LOCKED 0 0 = true ∨ s.dbg.authBusy = true

/-- Words stored in registers of one family that lie apart: each register named in the list holds its word, the others are as they were. -/
theorem State.reg_foldl_setReg {n : Nat} {r : RegName} (hr : ∀ i j : Fin n, r.addr i 0 = r.addr j 0 → i = j) (v : Fin n → Word)
    (l : List (Fin n)) (s : State) (i : Fin n) :
    (l.foldl (fun s j => s.setReg r j 0 (v j)) s).reg r i 0 = if i ∈ l then v i else s.reg r i 0 := by
  induction l generalizing s with
  | nil => simp
  | cons j l ih =>
    rw [List.foldl_cons, ih]
    by_cases hij : i = j
    · subst hij; simp
    · simp only [List.mem_cons, hij, false_or, State.reg_setReg_ne s _ (mt (hr i j) hij)]

theorem State.authReq_shut {s : State} (h : s.authShut) : s.authReq = (.denied, 0, s.dbgErr 1) := by
  rw [State.authReq, if_pos (by simpa [State.authShut] using h), State.dbgDeny]

/-- A request that is heard leaves a challenge that no GO has used, each word free. -/
theorem State.authReq_open {s : State} (h : ¬s.authShut) : ∃ u, s.authReq = (.ok, 0, u) ∧ u.dbg.chal = true ∧
    ∀ i : Fin 8, u.reg .DBG_AUTH_CHALi i 0 = Config.challenge s.fresh i := by
  refine ⟨_, by rw [State.authReq, if_neg (by simpa [State.authShut] using h)], rfl, fun i => ?_⟩
  have hapart : ∀ i j : Fin 8, RegName.DBG_AUTH_CHALi.addr i 0 = RegName.DBG_AUTH_CHALi.addr j 0 → i = j := by decide
  exact (State.reg_foldl_setReg hapart _ _ _ i).trans (if_pos (List.mem_finRange i))

theorem State.authStart_shut {s : State} (h : s.authShut ∨ s.dbg.chal = false) : s.authStart = (.denied, 0, s.dbgErr 1) := by
  rw [State.authStart, if_pos (by simpa [State.authShut] using h), State.dbgDeny]

/-- A GO that is heard uses the challenge up and starts the check, which ends within 5 ms (2,000,000 lc). -/
theorem State.authStart_open {s : State} (h : ¬s.authShut) (hc : s.dbg.chal = true) : ∃ u, s.authStart = (.ok, 0, u) ∧
    u.dbg.chal = false ∧ u.dbg.authBusy = true ∧ ∃ k, 0 < k ∧ k ≤ 2000000 ∧ (s.now + k, Instr.authComplete) ∈ u.cal := by
  refine ⟨_, by rw [State.authStart, if_neg (by simpa [State.authShut, hc] using h)], rfl, rfl,
    Config.authTime s.fresh % 2000000 + 1, by omega, by omega, ?_⟩
  exact List.mem_append_right _ (List.mem_singleton.mpr rfl)

/-! ## Outcomes -/

/-- The state in which a check that ran has ended. -/
def State.authDone (s : State) : State := { s.unsched .authComplete with dbg := { s.dbg with authBusy := false } }

/-- A check that succeeds (R368, step 4). -/
def State.authPass (s : State) : State := (s.authDone.setFld F.DBG_STAT_AUTH 0 0 1).setFld F.DBG_STAT_FAILS 0 0 0

/-- A check that failed, shown with its code of DBG_STAT.ERR and counted. -/
def State.authCounted (s : State) (code : Nat) : State :=
  (s.authDone.raiseFld F.DBG_STAT_ERR 0 0 code).setFld F.DBG_STAT_FAILS 0 0 (s.fld F.DBG_STAT_FAILS 0 0 + 1)

/-- A check that fails: the third in a row locks (R368). -/
def State.authFail (s : State) (code : Nat) : State :=
  if 3 ≤ s.fld F.DBG_STAT_FAILS 0 0 + 1 then (s.authCounted code).setFld F.DBG_STAT_LOCKED 0 0 1 else s.authCounted code

theorem exec_authComplete_idle {s : State} (h : s.dbg.authBusy = false) : exec .authComplete s = .next s := by
  change execAuthComplete s = _
  simp [execAuthComplete, h]

/-- All that the end of a check can do. -/
theorem exec_authComplete_busy {s : State} (h : s.dbg.authBusy = true) (hreset : s.sys.mode ≠ .reset) (hret : s.sys.mode ≠ .retention) :
    exec .authComplete s =
      .next (if s.okhBlank then s.authFail 4 else if s.authGood then s.authPass else s.authFail 5) := by
  change execAuthComplete s = _
  rw [execAuthComplete, if_neg (by simp [h, hreset, hret])]
  rfl

/-- A field apart from the one that hardware sets is as it was. -/
theorem State.fld_raiseFld_apart (s : State) {f g : Fld} {i j : Nat} (v : Nat) (e : g.reg = f.reg) (hf : f.hi < 32) (hg : g.hi < 32)
    (h : g.hi < f.lo ∨ f.hi < g.lo) : (s.raiseFld f i j v).fld g i j = s.fld g i j :=
  State.fld_setFld_apart _ v e hf hg h

theorem State.fld_raiseFld_same (s : State) (f : Fld) (i j v : Nat) (h : f.hi < 32 ∧ f.lo ≤ f.hi) :
    (s.raiseFld f i j v).fld f i j = v % 2 ^ (f.hi + 1 - f.lo) :=
  State.fld_setFld_same _ f i j v h

theorem State.authPass_authBusy (s : State) : s.authPass.dbg.authBusy = false := rfl

theorem State.authFail_authBusy (s : State) (code : Nat) : (s.authFail code).dbg.authBusy = false := by
  unfold State.authFail; split <;> rfl

theorem State.authPass_auth (s : State) : s.authPass.flag F.DBG_STAT_AUTH 0 0 = true := by
  simp (disch := decide) only [State.flag, State.authPass, State.fld_setFld_apart, State.fld_setFld_same]
  rfl

theorem State.authPass_fails (s : State) : s.authPass.fld F.DBG_STAT_FAILS 0 0 = 0 :=
  State.fld_setFld_same _ _ _ _ _ (by decide)

/-- Locking touches no other field of DBG_STAT. -/
theorem State.fld_authFail_apart (s : State) (code : Nat) {g : Fld} (e : g.reg = .DBG_STAT) (hg : g.hi < 32)
    (h : g.hi < F.DBG_STAT_LOCKED.lo ∨ F.DBG_STAT_LOCKED.hi < g.lo) : (s.authFail code).fld g 0 0 = (s.authCounted code).fld g 0 0 := by
  unfold State.authFail
  split
  · exact State.fld_setFld_apart _ _ e (by decide) hg h
  · rfl

theorem State.authFail_auth (s : State) (code : Nat) : (s.authFail code).flag F.DBG_STAT_AUTH 0 0 = s.flag F.DBG_STAT_AUTH 0 0 := by
  simp (disch := decide) only [State.flag, State.fld_authFail_apart, State.authCounted, State.fld_setFld_apart, State.fld_raiseFld_apart]
  rfl

theorem State.authFail_fails {s : State} (h : s.fld F.DBG_STAT_FAILS 0 0 < 3) (code : Nat) :
    (s.authFail code).fld F.DBG_STAT_FAILS 0 0 = s.fld F.DBG_STAT_FAILS 0 0 + 1 := by
  simp (disch := decide) only [State.fld_authFail_apart, State.authCounted, State.fld_setFld_same]
  exact Nat.mod_eq_of_lt (by change _ < 4; omega)

theorem State.authFail_err (s : State) {code : Nat} (h : code < 16) : (s.authFail code).fld F.DBG_STAT_ERR 0 0 = code := by
  simp (disch := decide) only [State.fld_authFail_apart, State.authCounted, State.fld_setFld_apart, State.fld_raiseFld_same]
  exact Nat.mod_eq_of_lt h

theorem State.authFail_locks {s : State} (h : s.fld F.DBG_STAT_FAILS 0 0 = 2) (code : Nat) :
    (s.authFail code).flag F.DBG_STAT_LOCKED 0 0 = true := by
  rw [State.flag, State.authFail, if_pos (by omega), State.fld_setFld_same _ _ _ _ _ (by decide)]
  rfl

/-- What a check that finds the answer wrong leaves. -/
theorem exec_authComplete_fails {s : State} (h : s.dbg.authBusy = true) (hreset : s.sys.mode ≠ .reset) (hret : s.sys.mode ≠ .retention)
    (hbad : s.okhBlank = true ∨ s.authGood = false) :
    exec .authComplete s = .next (s.authFail (if s.okhBlank then 4 else 5)) := by
  rw [exec_authComplete_busy h hreset hret]
  obtain hb | hb := hbad
  · simp [hb]
  · simp [hb, apply_ite s.authFail]

theorem exec_authComplete_succeeds {s : State} (h : s.dbg.authBusy = true) (hreset : s.sys.mode ≠ .reset)
    (hret : s.sys.mode ≠ .retention) (hb : s.okhBlank = false) (hg : s.authGood = true) : exec .authComplete s = .next s.authPass := by
  rw [exec_authComplete_busy h hreset hret]; simp [hb, hg]

/-! ## TAP instructions -/

theorem State.tapOpen_iff (s : State) : s.tapOpen = true ↔
    s.sys.mode = .blank ∧ (s.fld F.FL_PL_LEVEL 0 0 = 0 ∨ s.flag F.DBG_STAT_AUTH 0 0 = true) := by
  simp [State.tapOpen, State.dbgFull]

theorem exec_tapExtest (s : State) : exec .tapExtest s = .next (s.tapLoad (if s.tapOpen then .extest else .bypass)) := rfl

theorem exec_tapSample (s : State) : exec .tapSample s = .next (s.tapLoad (if s.tapOpen then .sample else .bypass)) := rfl

theorem exec_tapPreload (s : State) : exec .tapPreload s = .next (s.tapLoad (if s.tapOpen then .preload else .bypass)) := rfl

/-- Settles O54: each command by the rule above for its case; the outcome of a check by whether the key is blank and the answer right. -/
theorem authenticationAndTap : Obligations.AuthenticationAndTap := by
  unfold Obligations.AuthenticationAndTap
  intro s v host tells heard denied locked tap scans
  have hheard : ∀ d, heard d → s.dbgHears v 2 (BitVec.ofNat 32 (RegName.DBG_AUTH_CTRL.addr 0 0)) d := by
    intro d hd; cases v <;> exact hd
  have htold : ∀ st u, dbgTold v 2 (st, 0, u) = tells u st := by
    intro st u; cases v <;> simp [dbgTold, tells]
  refine ⟨fun hh => ⟨fun hl => ?_, fun hl => ?_⟩, fun hh => ⟨fun hl => ?_, fun hl hc => ?_⟩, exec_authComplete_idle,
    fun hb hreset hret => ?_, rfl, rfl, fun ho => ?_, fun ho c hc => ?_⟩
  · rw [exec_authRequest (hheard 1 hh), State.authReq_shut hl, htold]; rfl
  · obtain ⟨u, hu, hchal, hwords⟩ := State.authReq_open hl
    exact ⟨u, by rw [exec_authRequest (hheard 1 hh), hu, htold], hchal, hwords⟩
  · rw [exec_authGo (hheard 2 hh), State.authStart_shut hl, htold]; rfl
  · obtain ⟨u, hu, hrest⟩ := State.authStart_open hl hc
    exact ⟨u, by rw [exec_authGo (hheard 2 hh), hu, htold], hrest⟩
  · by_cases hbad : s.okhBlank = true ∨ s.authGood = false
    · refine ⟨_, exec_authComplete_fails hb hreset hret hbad, State.authFail_authBusy _ _, fun hk hg => ?_, fun _ hf =>
        ⟨State.authFail_auth _ _, State.authFail_fails hf _, State.authFail_err _ (by split <;> decide), fun h2 =>
          State.authFail_locks h2 _⟩⟩
      exact absurd hbad (by simp [hk, hg])
    · obtain ⟨hk, hg⟩ : s.okhBlank = false ∧ s.authGood = true := by simpa using hbad
      exact ⟨_, exec_authComplete_succeeds hb hreset hret hk hg, State.authPass_authBusy _,
        fun _ _ => ⟨State.authPass_auth _, State.authPass_fails _⟩, fun h => absurd h hbad⟩
  · have ho : s.tapOpen = true := s.tapOpen_iff.mpr ho
    rw [exec_tapExtest, exec_tapSample, exec_tapPreload, ho]
    exact ⟨rfl, rfl, rfl⟩
  · have ho : s.tapOpen = false := Bool.eq_false_iff.mpr (mt s.tapOpen_iff.mp ho)
    simp only [List.mem_cons, List.not_mem_nil, or_false] at hc
    obtain rfl | rfl | rfl := hc
    · rw [exec_tapExtest, ho]; rfl
    · rw [exec_tapSample, ho]; rfl
    · rw [exec_tapPreload, ho]; rfl

end Sys2Proof.Machine
end

