-- ==== Sys2Proof/Proofs/PairRules.lean ====
section
/-! PROOF. Rules on pairs: what their entries hold after an update; what a comparison of the copies lets through. -/

namespace Sys2Proof.Machine

variable (s : State) (p : Pair)

/-! ## Entries after updates -/

@[simp] theorem State.pair_modPair_same (f : PairSt → PairSt) : (s.modPair p f).pair p = f (s.pair p) := State.pair_setPair_same _ _ _

theorem State.pair_modPair_ne {q : Pair} (f : PairSt → PairSt) (h : q ≠ p) : (s.modPair p f).pair q = s.pair q :=
  State.pair_setPair_ne _ _ h

@[simp] theorem State.pair_awake_same : (s.awake p).pair p = { s.pair p with waiting := false, stc := none } :=
  State.pair_modPair_same _ _ _

/-- Two changes of a pair's entry are one. -/
theorem State.modPair_modPair (f g : PairSt → PairSt) : (s.modPair p f).modPair p g = s.modPair p fun x => g (f x) := by
  simp [State.modPair_eq]

/-- A change of both copies is a change of the pair's entry. -/
theorem State.both_eq_modPair (f : Copy → Copy) : s.both p f = s.modPair p fun x => { x with main := f x.main, chk := f x.chk } := rfl

theorem State.retire_eq_modPair : s.retire p = s.modPair p PairSt.retire := rfl

/-- Changes that agree on the pair's entry leave the same state. -/
theorem State.modPair_congr {f g : PairSt → PairSt} (h : f (s.pair p) = g (s.pair p)) : s.modPair p f = s.modPair p g := by
  rw [State.modPair_eq, State.modPair_eq, h]

@[simp] theorem State.pair_access (m : Fin 13) : (s.access m).pair p = s.pair p := by simp [State.pair]
@[simp] theorem State.pair_opened (m : Fin 13) : (s.opened m).pair p = s.pair p := by simp [State.pair]
@[simp] theorem State.pair_violation (r : Req) (k : Kind) (a : Nat) : (s.violation r k a).pair p = s.pair p := by
  obtain ⟨g, h, e⟩ := s.violation_only r k a; rw [e]; rfl
@[simp] theorem State.permitted_setPair (x : PairSt) (r : Req) (k : Kind) (a n : Nat) :
    (s.setPair p x).permitted r k a n = s.permitted r k a n := rfl
@[simp] theorem State.permitted_awake (r : Req) (k : Kind) (a n : Nat) : (s.awake p).permitted r k a n = s.permitted r k a n := rfl
/-- Waking a pair leaves the identity of its transactions. -/
@[simp] theorem State.pairReq_awake : (s.awake p).pairReq p = s.pairReq p := by simp [State.pairReq]
@[simp] theorem State.reg_setPair (x : PairSt) (r : RegName) (i j : Nat) : (s.setPair p x).reg r i j = s.reg r i j := rfl
@[simp] theorem State.fld_setPair (x : PairSt) (f : Fld) (i j : Nat) : (s.setPair p x).fld f i j = s.fld f i j := rfl
@[simp] theorem State.flag_setPair (x : PairSt) (f : Fld) (i j : Nat) : (s.setPair p x).flag f i j = s.flag f i j := rfl

/-! ## Comparisons of the copies -/

theorem State.compared_true (g : Nat) (body : State → State) : s.compared p g true body = body s := rfl

theorem State.compared_false (g : Nat) (body : State → State) : s.compared p g false body = s.mismatch p g := rfl

theorem State.compared_of {same : Bool} (h : same = true) (g : Nat) (body : State → State) : s.compared p g same body = body s := by
  rw [h, State.compared_true]

theorem State.compared_of_not {same : Bool} (h : same = false) (g : Nat) (body : State → State) :
    s.compared p g same body = s.mismatch p g := by
  rw [h, State.compared_false]

/-- Both copies judge a privilege alike. -/
theorem State.privAs_of {f : Copy → Bool} {b : Bool} (hm : f (s.pair p).main = b) (hc : f (s.pair p).chk = b)
    (body : Bool → State → State) : s.privAs p f body = body b s := by
  rw [State.privAs, State.compared_of _ _ (by simp [hm, hc]), hm]

theorem State.privAs_of_ne {f : Copy → Bool} (h : f (s.pair p).main ≠ f (s.pair p).chk) (body : Bool → State → State) :
    s.privAs p f body = s.mismatch p 3 :=
  State.compared_of_not _ _ (by simpa using h) _ _

/-! ## Instructions that issue -/

/-- An instruction that issues, with its effect in other words. -/
theorem issue_next_of {s : State} {p : Pair} {body : State → State} {t : State} (h : s.issues p) (hb : body (s.awake p) = t) :
    issue p body s = .next t := by rw [issue_run h, hb]

end Sys2Proof.Machine
end

