-- ==== Sys2Proof/Proofs/MemoryRules.lean ====
section
/-! PROOF. Rules on memory under ECC, on what a store does to reservations, and on words stored in a row (R245, R266, R301). -/

namespace Sys2Proof.Machine

/-! ## ECC words -/

theorem SMap.drop_of_find?_none {α : Type} {m : SMap α} {k : Nat} (h : m.find? k = none) : m.drop k = m := by
  induction m with
  | nil => rfl
  | cons e m ih =>
    obtain ⟨a, v⟩ := e
    have ha : a ≠ k := by intro e; simp [SMap.find?, e] at h
    rw [SMap.drop, if_neg ha, ih (by simpa [SMap.find?, ha] using h)]

theorem State.eccWord_clean {s : State} {u : Nat} (h : SMap.find? s.upset u = none) : s.eccWord u = (false, s) := by
  simp [State.eccWord, h]

/-- A fold whose every step leaves the state leaves it. -/
theorem foldl_const {α β : Type} {f : β → α → β} {b : β} {l : List α} (h : ∀ a ∈ l, f b a = b) : l.foldl f b = b := by
  induction l with
  | nil => rfl
  | cons a l ih => rw [List.foldl_cons, h a (by simp), ih fun x hx => h x (by simp [hx])]

/-- Reading bytes whose ECC words hold no upset finds no error and changes nothing. -/
theorem State.eccRead_clean {s : State} {a n : Nat} (h : s.cleanAt a n) : s.eccRead a n = (false, s) :=
  foldl_const fun u hu => by simp only [State.eccWord_clean (h u hu)]; rfl

/-- Writing bytes whose ECC words hold no upset finds no error and leaves the upsets. -/
theorem State.eccWrite_clean {s : State} {a n : Nat} (h : s.cleanAt a n) : s.eccWrite a n = (false, s) := by
  refine foldl_const fun u hu => ?_
  split
  · rw [SMap.drop_of_find?_none (h u hu)]
  · simp only [State.eccWord_clean (h u hu)]; rfl

/-- In a TCM an ECC word is a word (R245). -/
theorem eccUnit_tcm {a : Nat} (hl : 0x38000000 ≤ a) (hh : a < 0x38400000) : eccUnit a = 4 := if_pos ⟨hl, hh⟩

/-- The ECC words of n whole words of a TCM. -/
theorem eccUnits_tcm {a n : Nat} (hl : 0x38000000 ≤ a) (hh : a < 0x38400000) (ha : a % 4 = 0) :
    eccUnits a (4 * n) = (List.range n).map fun k => a + 4 * k := by
  have hu := eccUnit_tcm hl hh
  have hs : eccSpan a = 4 := by simp [eccSpan, hu]
  have hn : (a % 4 + 4 * n + 4 - 1) / 4 = n := by omega
  have hd : a / 4 * 4 = a := by omega
  simp only [eccUnits, hu, hs, hn, hd]
  simp

/-- A store of whole words of a TCM corrects the upsets it overwrites, and no other. -/
theorem State.eccWrite_tcm (s : State) {a n : Nat} (hl : 0x38000000 ≤ a) (hh : a < 0x38400000) (ha : a % 4 = 0) :
    ∃ m, s.eccWrite a (4 * n) = (false, { s with upset := m }) ∧
      ∀ x, SMap.find? m x = if a ≤ x ∧ x < a + 4 * n ∧ x % 4 = 0 then none else SMap.find? s.upset x := by
  have hw : eccSpan a = 4 := by simp [eccSpan, eccUnit_tcm hl hh]
  have key : ∀ l : List Nat, (∀ k ∈ l, k < n) → ∀ s : State, ∃ m,
      (l.map fun k => a + 4 * k).foldl (fun (x : Bool × State) u =>
        if a ≤ u / 4 * 4 ∧ u / 4 * 4 + 4 ≤ a + 4 * n then (x.1, { x.2 with upset := x.2.upset.drop u })
        else (x.1 || (x.2.eccWord u).1, (x.2.eccWord u).2)) (false, s) = (false, { s with upset := m }) ∧
      ∀ x, SMap.find? m x = if ∃ k ∈ l, x = a + 4 * k then none else SMap.find? s.upset x := by
    intro l
    induction l with
    | nil => intro _ s; exact ⟨s.upset, rfl, by simp⟩
    | cons k l ih =>
      intro hl s
      have hk := hl k (by simp)
      obtain ⟨m, hm, hf⟩ := ih (fun j hj => hl j (by simp [hj])) { s with upset := s.upset.drop (a + 4 * k) }
      refine ⟨m, ?_, fun x => ?_⟩
      · rw [List.map_cons, List.foldl_cons, if_pos (by omega)]; exact hm
      · rw [hf, SMap.find?_drop]
        by_cases h1 : x = a + 4 * k
        · simp [h1]
        · simp [h1]
  obtain ⟨m, hm, hf⟩ := key (List.range n) (by simp) s
  refine ⟨m, by rw [State.eccWrite, eccUnits_tcm hl hh ha, hw]; exact hm, fun x => ?_⟩
  rw [hf]
  refine if_congr ⟨?_, fun h => ⟨(x - a) / 4, by simp only [List.mem_range]; omega, by omega⟩⟩ rfl rfl
  rintro ⟨k, hk, rfl⟩
  simp only [List.mem_range] at hk
  omega

/-! ## Reservations -/

/-- A pair after a store of another master, pair `m` or none, to granules lo to hi in lc `now` (R266). -/
def PairSt.snooped (x : PairSt) (now : Nat) (m : Option Pair) (lo hi : Nat) : PairSt :=
  match x.resv with
  | some g => if lo ≤ g ∧ g ≤ hi then { x with resv := none, lost := m.map fun w => (now, g, w) } else x
  | none => x

/-- Where no STC of the pair lies in this lc, a store of another master touches its reservation alone. -/
theorem State.snoopPair_eq {s : State} {q : Pair} (h : ∀ k, (s.pair q).stc = some k → k.lc ≠ s.now) (m : Option Pair) (lo hi : Nat) :
    s.snoopPair m lo hi q = s.setPair q ((s.pair q).snooped s.now m lo hi) := by
  have hresv : s.snoopPair m lo hi q = match (s.pair q).resv with
      | some g => if lo ≤ g ∧ g ≤ hi then s.modPair q fun x => { x with resv := none, lost := m.map fun w => (s.now, g, w) } else s
      | none => s := by
    unfold State.snoopPair
    cases hs : (s.pair q).stc with
    | none => rfl
    | some r => simp only [if_neg fun c : _ ∧ _ => h r hs c.1] <;> rfl
  rw [hresv, PairSt.snooped]
  cases hr : (s.pair q).resv with
  | none => exact (State.setPair_self s q).symm
  | some g =>
    by_cases c : lo ≤ g ∧ g ≤ hi
    · simp only [if_pos c]; rfl
    · simp only [if_neg c]; exact (State.setPair_self s q).symm

/-- What the snoop of a list of pairs does. -/
theorem State.snoop_fold (m : Option Pair) (lo hi : Nat) (l : List Pair) (hl : l.Nodup) (s : State)
    (h : ∀ q ∈ l, some q ≠ m → ∀ k, (s.pair q).stc = some k → k.lc ≠ s.now) :
    ∃ v, l.foldl (fun s (q : Pair) => if some q = m then s else s.snoopPair m lo hi q) s = { s with pairs := v } ∧
      ∀ q : Pair, v[q] = if q ∈ l ∧ some q ≠ m then (s.pair q).snooped s.now m lo hi else s.pair q := by
  induction l generalizing s with
  | nil => exact ⟨s.pairs, rfl, by simp [State.pair]⟩
  | cons p l ih =>
    obtain ⟨hp, hl⟩ := List.nodup_cons.1 hl
    rw [List.foldl_cons]
    by_cases hm : some p = m
    · rw [if_pos hm]
      obtain ⟨v, hv, hq⟩ := ih hl s fun q hq => h q (by simp [hq])
      refine ⟨v, hv, fun q => ?_⟩
      rw [hq]
      by_cases hqp : q = p
      · subst hqp; simp [hm]
      · simp [hqp]
    · rw [if_neg hm, State.snoopPair_eq (h p (by simp) hm)]
      have hne : ∀ q ∈ l, q ≠ p := fun q hq e => hp (e ▸ hq)
      obtain ⟨v, hv, hq⟩ := ih hl (s.setPair p ((s.pair p).snooped s.now m lo hi)) fun q hq hqm k hk =>
        h q (by simp [hq]) hqm k (by rwa [State.pair_setPair_ne _ _ (hne q hq)] at hk)
      refine ⟨v, hv, fun q => ?_⟩
      rw [hq]
      by_cases hqp : q = p
      · subst hqp; simp [hp, hm]
      · rw [State.pair_setPair_ne _ _ hqp]; simp [hqp]

/-- What a store of pair `p` does to the reservations of the others (R266). -/
theorem State.snoop_eq {s : State} {p : Pair} (h : s.noStc p) (a n : Nat) :
    ∃ v, s.snoop (some p) a n = { s with pairs := v } ∧
      ∀ q : Pair, v[q] = if q = p then s.pair q else (s.pair q).snooped s.now (some p) (a / 32) ((a + n - 1) / 32) := by
  obtain ⟨v, hv, hq⟩ := State.snoop_fold (some p) (a / 32) ((a + n - 1) / 32) (List.finRange 4) (List.nodup_finRange 4) s
    fun q _ hqm => h q fun e => hqm (e ▸ rfl)
  refine ⟨v, hv, fun q => ?_⟩
  rw [hq]
  by_cases c : q = p
  · simp [c]
  · simp [c]

/-! ## Words in a row -/

theorem State.setWords_only_mem (s : State) (a : Nat) (l : List Word) : s.setWords a l = { s with mem := (s.setWords a l).mem } := by
  induction l generalizing s a with
  | nil => rfl
  | cons w l ih => rw [State.setWords, ih, State.setWord_only_mem]

theorem State.byte_setWords_ne (s : State) {a x : Nat} (l : List Word) (h : x < a ∨ a + 4 * l.length ≤ x) :
    (s.setWords a l).byte x = s.byte x := by
  induction l generalizing s a with
  | nil => rfl
  | cons w l ih =>
    rw [List.length_cons] at h
    rw [State.setWords, ih _ (by omega), State.byte_setWord_ne _ _ (by omega)]

theorem State.word_setWords_ne (s : State) {a x : Nat} (l : List Word) (h : x + 4 ≤ a ∨ a + 4 * l.length ≤ x) :
    (s.setWords a l).word x = s.word x := by
  rw [State.word, State.word, State.readLE_congr _ s x 4]
  exact fun y h1 h2 => s.byte_setWords_ne l (by omega)

/-- Words stored in a row read back. -/
theorem State.word_setWords (s : State) (a : Nat) (l : List Word) (k : Nat) (h : k < l.length) :
    (s.setWords a l).word (a + 4 * k) = l[k] := by
  induction l generalizing s a k with
  | nil => simp at h
  | cons w l ih =>
    cases k with
    | zero => rw [State.setWords, State.word_setWords_ne _ _ (by omega)]; simp
    | succ k =>
      have := ih (s.setWord a w) (a + 4) k (by simpa using h)
      rw [State.setWords, show a + 4 * (k + 1) = a + 4 + 4 * k by omega, this]; rfl

end Sys2Proof.Machine
end

