-- ==== Sys2Proof/Proofs/DecodeEncode.lean ====
section
/-! PROOF. Instruction words: what each field of a word of Table 10.4 reads, and that decoding undoes encoding (R255, R261). -/

namespace Sys2Proof

/-! ## Fields of a word -/

/-- A field of a word given as a number. -/
theorem wordField_ofNat (v lo n : Nat) (h : v < 2 ^ 32) : wordField (BitVec.ofNat 32 v) lo n = v / 2 ^ lo % 2 ^ n := by
  rw [wordField, BitVec.toNat_ofNat, Nat.mod_eq_of_lt h]

/-- A register field that holds a number below 32 names that register. -/
theorem regField_of_wordField {w : Word} {lo r : Nat} (h : wordField w lo 5 = r) : regField w lo = Fin.ofNat 32 r := by
  rw [regField, h]

/-- What the fields of a word in format R read. -/
theorem fmtR_fields {op d a b fn : Nat} (ho : op < 64) (hd : d < 32) (ha : a < 32) (hb : b < 32) (hf : fn < 2048) :
    wordField (fmtR op d a b fn) 26 6 = op ∧ regField (fmtR op d a b fn) 21 = Fin.ofNat 32 d ∧
    regField (fmtR op d a b fn) 16 = Fin.ofNat 32 a ∧ regField (fmtR op d a b fn) 11 = Fin.ofNat 32 b ∧
    wordField (fmtR op d a b fn) 0 11 = fn ∧ wordField (fmtR op d a b fn) 0 10 = fn % 1024 ∧
    wordField (fmtR op d a b fn) 10 1 = fn / 1024 := by
  have hw := fun lo n => wordField_ofNat (op * 2 ^ 26 + d * 2 ^ 21 + a * 2 ^ 16 + b * 2 ^ 11 + fn) lo n (by omega)
  refine ⟨?_, regField_of_wordField ?_, regField_of_wordField ?_, regField_of_wordField ?_, ?_, ?_, ?_⟩ <;>
    rw [fmtR, hw] <;> omega

/-- What the fields of a word in format I read; SHI keeps its kind and count in the immediate. -/
theorem fmtI_fields {op d a imm : Nat} (ho : op < 64) (hd : d < 32) (ha : a < 32) (hi : imm < 2 ^ 16) :
    wordField (fmtI op d a imm) 26 6 = op ∧ regField (fmtI op d a imm) 21 = Fin.ofNat 32 d ∧
    regField (fmtI op d a imm) 16 = Fin.ofNat 32 a ∧ wordField (fmtI op d a imm) 0 16 = imm ∧
    wordField (fmtI op d a imm) 5 2 = imm / 32 % 4 ∧ wordField (fmtI op d a imm) 0 5 = imm % 32 := by
  have hw := fun lo n => wordField_ofNat (op * 2 ^ 26 + d * 2 ^ 21 + a * 2 ^ 16 + imm) lo n (by omega)
  refine ⟨?_, regField_of_wordField ?_, regField_of_wordField ?_, ?_, ?_, ?_⟩ <;> rw [fmtI, hw] <;> omega

/-- What the fields of a word in format S read. -/
theorem fmtS_fields {op d bk sz off : Nat} (ho : op < 64) (hd : d < 32) (hb : bk < 4) (hs : sz < 8) (hi : off < 2 ^ 16) :
    wordField (fmtS op d bk sz off) 26 6 = op ∧ regField (fmtS op d bk sz off) 21 = Fin.ofNat 32 d ∧
    wordField (fmtS op d bk sz off) 19 2 = bk ∧ wordField (fmtS op d bk sz off) 16 3 = sz ∧
    wordField (fmtS op d bk sz off) 0 16 = off := by
  have hw := fun lo n => wordField_ofNat (op * 2 ^ 26 + d * 2 ^ 21 + bk * 2 ^ 19 + sz * 2 ^ 16 + off) lo n (by omega)
  refine ⟨?_, regField_of_wordField ?_, ?_, ?_, ?_⟩ <;> rw [fmtS, hw] <;> omega

/-- What the fields of a word in format P read. -/
theorem fmtP_fields {op d a mode n sz st : Nat} (ho : op < 64) (hd : d < 32) (ha : a < 32) (hm : mode < 4) (hn : n < 4) (hs : sz < 8)
    (ht : st < 2 ^ 9) :
    wordField (fmtP op d a mode n sz st) 26 6 = op ∧ regField (fmtP op d a mode n sz st) 21 = Fin.ofNat 32 d ∧
    regField (fmtP op d a mode n sz st) 16 = Fin.ofNat 32 a ∧ wordField (fmtP op d a mode n sz st) 14 2 = mode ∧
    wordField (fmtP op d a mode n sz st) 12 2 = n ∧ wordField (fmtP op d a mode n sz st) 9 3 = sz ∧
    wordField (fmtP op d a mode n sz st) 0 9 = st := by
  have hw := fun lo m => wordField_ofNat
    (op * 2 ^ 26 + d * 2 ^ 21 + a * 2 ^ 16 + mode * 2 ^ 14 + n * 2 ^ 12 + sz * 2 ^ 9 + st) lo m (by omega)
  refine ⟨?_, regField_of_wordField ?_, regField_of_wordField ?_, ?_, ?_, ?_, ?_⟩ <;> rw [fmtP, hw] <;> omega

/-- What the fields of a word in format B read. -/
theorem fmtB_fields {op an cond disp : Nat} (ho : op < 64) (ha : an < 2) (hc : cond < 16) (hd : disp < 2 ^ 21) :
    wordField (fmtB op an cond disp) 26 6 = op ∧ wordField (fmtB op an cond disp) 25 1 = an ∧
    wordField (fmtB op an cond disp) 21 4 = cond ∧ wordField (fmtB op an cond disp) 0 21 = disp := by
  have hw := fun lo n => wordField_ofNat (op * 2 ^ 26 + an * 2 ^ 25 + cond * 2 ^ 21 + disp) lo n (by omega)
  refine ⟨?_, ?_, ?_, ?_⟩ <;> rw [fmtB, hw] <;> omega

/-- What the fields of a word in format J read. -/
theorem fmtJ_fields {op disp : Nat} (ho : op < 64) (hd : disp < 2 ^ 26) :
    wordField (fmtJ op disp) 26 6 = op ∧ wordField (fmtJ op disp) 0 26 = disp := by
  have hw := fun lo n => wordField_ofNat (op * 2 ^ 26 + disp) lo n (by omega)
  refine ⟨?_, ?_⟩ <;> rw [fmtJ, hw] <;> omega

/-- The two parts of an FP operation's FN (Table 10.5). -/
theorem fpFn_parts (dbl : Bool) {fn : Nat} (h : fn < 1024) :
    fpFn dbl fn < 2048 ∧ fpFn dbl fn % 1024 = fn ∧ fpFn dbl fn / 1024 = dbl.toNat := by
  cases dbl <;> simp only [fpFn, Bool.toNat_false, Bool.toNat_true, if_true, Bool.false_eq_true, if_false] <;> omega

/-! ## Decoding what was encoded -/

/-- A well-formed instruction comes back from its word: by its format, whose fields hold its operands. -/
theorem nc32Decode_encode_wf (i : Instr) (p : Pair) (w : Word) (hi : i.wf = true) (hp : i.pair? = some p) (hw : nc32Encode i = some w) :
    nc32Decode p w = some i := by
  cases i
  all_goals simp only [Instr.pair?, reduceCtorEq] at hp
  all_goals
    simp only [nc32Encode] at hw
    obtain rfl := Option.some.inj hp
    obtain rfl := Option.some.inj hw
    simp only [Instr.wf, decide_eq_true_eq, Bool.and_eq_true] at hi
  case add | adc | sub | sbc | cmp | and | or | xor | andn | shl | shr | sar | ror | mul | mulu | div | divu =>
    simp (disch := omega) [nc32Decode, decodeR00, fmtR_fields, hi]
  case mfs | mts =>
    have hn : ¬(_ ∨ _) := fun h => h.elim hi.1 (Nat.not_le.mpr hi.2)
    simp (disch := omega) [nc32Decode, decodeR00, fmtR_fields, hn]
  case jr | callr | ret | eret | pflush | icinv | fsync | wait | ldl | stc =>
    simp (disch := omega) [nc32Decode, decodeR23, decodeR28, fmtR_fields]
  case fmvgf | fmvfg =>
    simp (disch := omega) [nc32Decode, decodeR30, fmtR_fields]
  case fadd | fsub | fmul | fdiv | fsqrt | fmin | fmax | fabs | fneg | fmov | fcmp =>
    simp (disch := simp [fpFn_parts]) [nc32Decode, decodeR30, fmtR_fields, fpFn_parts]
  case fcvt k _ _ =>
    cases k <;> simp (disch := simp [fpFn_parts]) [nc32Decode, decodeR30, fmtR_fields, fpFn_parts, FcvtKind.fn]
  case addi | cmpi | andi | ori | xori | lui | ldb | ldbu | ldh | ldhu | ldw | stb | sth | stw | trap | pbar | flds | fldd | fsts | fstd =>
    simp (disch := omega) [nc32Decode, fmtI_fields]
  case shi kind count =>
    have hk : (kind.val * 32 + count.val) / 32 % 4 = kind.val := by omega
    have hc : (kind.val * 32 + count.val) % 32 = count.val := by omega
    simp (disch := omega) only [nc32Decode, fmtI_fields, hk, hc, Fin.ofNat_val_eq_self]
  case lds | sts =>
    simp (disch := omega) [nc32Decode, decodeSP, fmtS_fields, hi]
  case ldp | stp =>
    simp (disch := omega) [nc32Decode, decodeSP, fmtP_fields, hi]
  case bcc an _ _ =>
    have ha := an.toNat_lt
    simp (disch := omega) [nc32Decode, fmtB_fields, hi]
  case jmp | call =>
    simp (disch := omega) [nc32Decode, fmtJ_fields]

/-- Settles O60, format by format. -/
theorem decodeEncode : Obligations.DecodeEncode := nc32Decode_encode_wf

end Sys2Proof
end

