-- ==== Sys2Proof/Proofs/ArithmeticLogic.lean ====
section
/-! PROOF. Arithmetic, logic, LUI and shifts: results and flags in the terms of R258. -/

namespace Sys2Proof.Machine

/-! ## Results with their flags -/

/-- An addition with carry in, its result and flags as R258 words them. -/
theorem addC_out (a b : Word) (k : Bool) : addC a b k =
    ⟨a + b + BitVec.ofNat 32 (if k then 1 else 0), arithFlags (a + b + BitVec.ofNat 32 (if k then 1 else 0))
      (a.toInt + b.toInt + (if k then 1 else 0 : Nat)) (decide (2 ^ 32 ≤ a.toNat + b.toNat + (if k then 1 else 0)))⟩ := by
  rw [show (if k then 1 else 0) = k.toNat by cases k <;> rfl, ← addC_eq, ← addC_val]

theorem addC_out_false (a b : Word) : addC a b false =
    ⟨a + b, arithFlags (a + b) (a.toInt + b.toInt) (decide (2 ^ 32 ≤ a.toNat + b.toNat))⟩ := by
  simp [addC_out]

/-- A subtraction with borrow where the carry is 0. -/
theorem subC_out (a b : Word) (k : Bool) : subC a b k =
    ⟨a - b - BitVec.ofNat 32 (if k then 0 else 1), arithFlags (a - b - BitVec.ofNat 32 (if k then 0 else 1))
      (a.toInt - b.toInt - (if k then 0 else 1 : Nat)) (decide (b.toNat + (if k then 0 else 1) ≤ a.toNat))⟩ := by
  rw [← subC_eq, ← subC_val]

theorem subC_out_true (a b : Word) : subC a b true =
    ⟨a - b, arithFlags (a - b) (a.toInt - b.toInt) (decide (b.toNat ≤ a.toNat))⟩ := by
  simp [subC_out]

/-- A logical or shift result and its flags as R258 words them. -/
theorem logic_out (r : Word) (old : Nzcv) : logic r old = ⟨r, logicFlags r old⟩ := by
  simp [logic, logicFlags, BitVec.msb_eq_getLsbD_last, beq_eq_decide]

/-- The count of a shift by a register. -/
theorem getBits_low5 (w : Word) : getBits w 4 0 = w.toNat % 32 := by simp [getBits]

/-! ## Instructions that only compute -/

/-- An instruction that only changes the copies, by a function known in other words. -/
theorem issue_compute {s : State} {p : Pair} (h : s.issues p) {f g : Copy → Copy} (hfg : ∀ c, f c = g c) :
    issue p (fun s => s.compute p f) s = .next ((s.awake p).compute p g) := by
  rw [issue_run h, State.compute_congr _ p hfg]

/-- A logical or shift instruction that issues. -/
theorem issue_logic {s : State} {p : Pair} (h : s.issues p) (d : Greg) {f g : Copy → Word} (hfg : ∀ c, f c = g c) :
    issue p (fun s => s.compute p fun c => c.put d (logic (f c) c.flags)) s =
      .next ((s.awake p).compute p fun c => (c.setG d (g c)).setFlags (logicFlags (g c) c.flags)) :=
  issue_compute h fun c => by rw [Copy.put, logic_out, hfg]

/-- Settles O1: the two kinds of result in the words of R258. -/
theorem arithmeticAndLogic : Obligations.ArithmeticAndLogic := by
  unfold Obligations.ArithmeticAndLogic
  refine ⟨fun s p d a b imm h => ⟨?_, ?_, ?_, ?_, ?_, ?_, ?_⟩, fun s p d a b imm count h => ?_⟩
  · exact issue_compute h fun c => by rw [addC_out_false]; rfl
  · exact issue_compute h fun c => by rw [addC_out]; rfl
  · exact issue_compute h fun c => by rw [subC_out_true]; rfl
  · exact issue_compute h fun c => by rw [subC_out]; rfl
  · exact issue_compute h fun c => by rw [subC_out_true]
  · exact issue_compute h fun c => by rw [addC_out_false]; rfl
  · exact issue_compute h fun c => by rw [subC_out_true]; rfl
  · have same (f : Copy → Word) := issue_logic h d (f := f) fun _ => rfl
    have shift (kind : Fin 4) := issue_logic h d fun c => congrArg (shiftBy kind (c.gr a)) (getBits_low5 (c.gr b))
    exact ⟨same _, same _, same _, same _, same _, same _, same _, shift 0, shift 1, shift 2, shift 3, same _, same _, same _, same _,
      issue_compute h fun _ => rfl⟩

end Sys2Proof.Machine
end

