-- ==== Sys2Proof/Proofs/Retirement.lean ====
section
/-! PROOF. Retirement: which pair changes, where it goes on, the prediction bar, the end of a STEP. -/

namespace Sys2Proof.Machine

/-- Setting a pair's entry leaves everything but that pair. -/
theorem State.onlyPair_setPair (s : State) (p : Pair) (x : PairSt) : s.onlyPair (s.setPair p x) p :=
  ⟨rfl, fun _ hq => s.pair_setPair_ne x hq⟩

/-- Where a pair that retires an instruction goes on: the next word, or from a slot the outcome of its branch (R263). -/
def PairSt.after (x : PairSt) : Word := match x.slot with | some l => l.next | none => x.pc + 4

/-- Retirement without the end of a STEP. -/
def PairSt.moveOn (x : PairSt) : PairSt := { x.fetchAt x.after with slot := none }

theorem PairSt.retire_eq (x : PairSt) : x.retire = x.moveOn.endStep := by
  unfold PairSt.retire PairSt.moveOn PairSt.after
  cases h : x.slot with
  | some l => rfl
  | none => simp [PairSt.fetchAt, PairSt.predict, h]

/-- A pair out of its slots ends its STEP (R372). -/
theorem PairSt.endStep_eq {x : PairSt} (h : x.slot = none) :
    x.endStep = if x.step then { x with step := false, halted := true, resv := none } else x := by
  simp [PairSt.endStep, h]

/-- What retiring leaves of a pair. -/
theorem PairSt.retire_fields (x : PairSt) :
    x.retire = { x with
      main := { x.main with pred := x.main.pred.fetch x.after.toNat }
      chk := { x.chk with pred := x.chk.pred.fetch x.after.toNat }
      pc := x.after
      slot := none
      step := false
      halted := x.halted || x.step
      resv := if x.step then none else x.resv } := by
  rw [PairSt.retire_eq, PairSt.endStep_eq rfl]
  cases h : x.step <;> simp [PairSt.moveOn, PairSt.fetchAt, PairSt.predict, h]

/-- A fetch changes the bar alone; a bar that stands ends outside its region, both ends being inside (R264, log entry 71). -/
theorem Pred.fetch_bar (b : Pred) (a : Nat) : b.fetch a = { b with bar := (b.fetch a).bar } ∧ (b.bar = none → (b.fetch a).bar = none) ∧
    ∀ lo hi, b.bar = some (lo, hi) → (b.fetch a).bar = if lo ≤ a ∧ a ≤ hi then some (lo, hi) else none := by
  refine ⟨rfl, fun h => by simp [Pred.fetch, h], fun lo hi h => ?_⟩
  simp [Pred.fetch, h, Option.filter]

/-- Settles O3: a computation sets the pair's entry to the retired one. -/
theorem retirementOnlyAdvancesPair : Obligations.RetirementOnlyAdvancesPair := by
  unfold Obligations.RetirementOnlyAdvancesPair
  intro s p f x t y next on
  have hy : y = PairSt.retire { x with main := f x.main, chk := f x.chk } := by
    simp only [y, t, State.compute_eq, State.pair_setPair_same, x]
  rw [PairSt.retire_fields] at hy
  have hnext : PairSt.after { x with main := f x.main, chk := f x.chk } = next := rfl
  rw [hnext] at hy
  refine ⟨?_, ?_, ?_, ?_, ?_, ?_, fun h => ?_, fun h => ?_, fun b a lo hi => ?_⟩
  · simp only [t, State.compute_eq]; exact State.onlyPair_setPair _ _ _
  · rw [hy]
  · rw [hy]
  · rw [hy]
  · rw [hy]
  · rw [hy]
  · rw [hy]; simp [h]
  · rw [hy]; simp [h]
  · obtain ⟨hb, hnone, hsome⟩ := b.fetch_bar a
    exact ⟨hb, hnone, hsome lo hi⟩

end Sys2Proof.Machine
end

