-- ==== Sys2Proof/Proofs/SystemInstructions.lean ====
section
/-! PROOF. The special registers and the system instructions (R253, R264, R268, R272, R296). -/

namespace Sys2Proof.Machine

/-! ## MFS and MTS -/

/-- A move to or from a number that no special register has is illegal (R255). -/
theorem exec_special_illegal {s : State} {p : Pair} (h : s.issues p) {n : Fin 32} (hn : n.val = 7 ∨ 27 ≤ n.val) (d a : Greg) :
    exec (.mfs p d n) s = .next ((s.awake p).illegal p ((nc32Encode (.mfs p d n)).getD 0)) ∧
    exec (.mts p a n) s = .next ((s.awake p).illegal p ((nc32Encode (.mts p a n)).getD 0)) := by
  change execMfs p d n s = _ ∧ execMts p a n s = _
  exact ⟨issue_next_of h (if_pos hn), issue_next_of h (if_pos hn)⟩

/-- MFS of a register that exists. -/
theorem exec_mfs {s : State} {p : Pair} (h : s.issues p) {n : Fin 32} (hn : ¬(n.val = 7 ∨ 27 ≤ n.val)) (d : Greg) :
    exec (.mfs p d n) s = .next (
      if n.val = 24 then (s.awake p).compute p fun c => c.setG d (BitVec.ofNat 32 (s.pair p).tid.val)
      else if n.val = 25 then
        ((s.awake p).modPair p fun x => { x with cycleh := s.cycleHi }).compute p fun c => c.setG d s.cycleLo
      else if n.val = 26 then (s.awake p).compute p fun c => c.setG d (s.pair p).cycleh
      else (s.awake p).compute p fun c => c.setG d (c.special n.val)) := by
  change execMfs p d n s = _
  exact issue_next_of h (by rw [if_neg hn]; simp only [State.pair_awake_same] <;> rfl)

/-- MTS to a register that exists, where its two comparisons of the copies come to nothing and no rule forbids it. -/
theorem exec_mts {s : State} {p : Pair} (h : s.issues p) {n : Fin 32} (hn : ¬(n.val = 7 ∨ 27 ≤ n.val)) (a : Greg) :
    exec (.mts p a n) s = .next ((s.awake p).privAs p (fun c => mtsForbidden n.val c.priv (s.pair p).tid (c.gr a)) fun bad t =>
      if bad then t.privileged p
      else t.compared p 5 (!(decide (n.val = 5 ∨ n.val = 6)) || ((s.pair p).main.gr a == (s.pair p).chk.gr a)) fun u =>
        (if n.val = 5 then u.setFld F.LP_EXC_STAT_ARMED p 0 0 else u).compute p fun c =>
          c.setSpecial n.val (decide (c.priv = .user)) (c.gr a)) := by
  change execMts p a n s = _
  exact issue_next_of h (by simp only [if_neg hn, State.pair_awake_same])

/-- No level above User is forbidden TSBR and EVEC (Table 10.2). -/
theorem mtsForbidden_tsbr_evec {n : Nat} (hn : n = 5 ∨ n = 6) {k : Priv} (hk : k ≠ .user) (tid : Tenant) (w : Word) :
    mtsForbidden n k tid w = false := by
  have h0 : n ≠ 0 := by omega
  cases k <;> simp_all [mtsForbidden]

/-- Settles O5: MFS by number; MTS by what each of its comparisons comes to. -/
theorem specialRegisterMoves : Obligations.SpecialRegisterMoves := by
  unfold Obligations.SpecialRegisterMoves
  intro s p d a n h x bad
  have hbad : bad ↔ n.val = 7 ∨ 27 ≤ n.val := by simp only [bad, Fin.ext_iff]; rfl
  refine ⟨fun hb => exec_special_illegal h (hbad.1 hb) d a, fun hn hb => ?_, fun hn => ?_, fun hn => ?_, fun hn => ?_,
    ⟨fun hb hne => ?_, fun hb hm hc => ?_, fun hb hm hc h5 h6 => ?_⟩, fun hm hc => ⟨fun he => ⟨?_, ?_⟩, fun hne m hmem => ?_⟩⟩
  · rw [exec_mfs h (mt hbad.2 hb), if_neg (by omega), if_neg (by omega), if_neg (by omega)]
  · rw [exec_mfs h (by omega), if_pos hn]
  · rw [exec_mfs h (by omega), if_neg (by omega), if_pos hn]
  · rw [exec_mfs h (by omega), if_neg (by omega), if_neg (by omega), if_pos hn]
  · rw [exec_mts h (mt hbad.2 hb), State.privAs_of_ne _ _ (by simpa using hne)]
  · rw [exec_mts h (mt hbad.2 hb), State.privAs_of (b := true) _ _ (by simpa using hm) (by simpa using hc)]; rfl
  · rw [exec_mts h (mt hbad.2 hb), State.privAs_of (b := false) _ _ (by simpa using hm) (by simpa using hc), if_neg (by simp),
      State.compared_of _ _ (by simp [h5, h6]), if_neg h5]
  · rw [exec_mts h (by decide), State.privAs_of (b := false) _ _ (by simpa using mtsForbidden_tsbr_evec (.inr rfl) hm _ _)
      (by simpa using mtsForbidden_tsbr_evec (.inr rfl) hc _ _), if_neg (by simp), State.compared_of _ _ (by simpa using he)]
    rfl
  · rw [exec_mts h (by decide), State.privAs_of (b := false) _ _ (by simpa using mtsForbidden_tsbr_evec (.inl rfl) hm _ _)
      (by simpa using mtsForbidden_tsbr_evec (.inl rfl) hc _ _), if_neg (by simp), State.compared_of _ _ (by simpa using he)]
    rfl
  · have hmem : m.val = 5 ∨ m.val = 6 := by
      simp only [List.mem_cons, List.not_mem_nil, or_false] at hmem
      obtain rfl | rfl := hmem <;> decide
    rw [exec_mts h (by omega), State.privAs_of (b := false) _ _ (by simpa using mtsForbidden_tsbr_evec hmem hm _ _)
      (by simpa using mtsForbidden_tsbr_evec hmem hc _ _), if_neg (by simp), State.compared_of_not _ _ (by simpa [hmem] using hne)]

/-! ## The system instructions -/

/-- FSYNC takes the FP exception that is due, else retires. -/
theorem exec_fsync {s : State} {p : Pair} (h : s.issues p) :
    exec (.fsync p) s = .next (match (s.pair p).fpDue with | some e => (s.awake p).takeFp p e | none => (s.awake p).retire p) := by
  change execFsync p s = _
  exact issue_next_of h (by simp only [State.pair_awake_same] <;> rfl)

theorem exec_icinv {s : State} {p : Pair} (h : s.issues p) :
    exec (.icinv p) s = .next ((s.awake p).compared p 0
      (decide ((s.pair p).main.priv = .user) == decide ((s.pair p).chk.priv = .user)) fun t =>
        if (t.pair p).main.priv = .user then t.privileged p
        else (t.modPair p fun x => { x with icache := [] }).retire p) := by
  change execIcinv p s = _
  exact issue_next_of h (by simp only [State.pair_awake_same])

theorem exec_wait {s : State} {p : Pair} (h : s.issues p) :
    exec (.wait p) s = .next ((s.awake p).privAs p (fun c => decide (c.priv = .user)) fun bad t =>
      if bad then t.privileged p else (t.retire p).modPair p fun x => { x with waiting := true }) := by
  change execWait p s = _
  exact issue_run h _

/-- Settles O11: each of the five by its privilege. -/
theorem systemInstructions : Obligations.SystemInstructions := by
  unfold Obligations.SystemInstructions
  intro s p imm h x t
  have apart (hne : x.main.priv = .user ↔ x.chk.priv ≠ .user) : ¬((s.pair p).main.priv = .user ↔ (s.pair p).chk.priv = .user) :=
    fun e => iff_not_self (e.symm.trans hne)
  refine ⟨?_, ?_, fun hf => ?_, fun hm hc => ⟨?_, ?_⟩, fun hm hc i hi => ?_, fun hne => ⟨?_, ?_⟩⟩
  · change execPflush p s = _
    exact issue_run h _
  · change execPbar p imm s = _
    exact issue_next_of h (congrArg (State.retire · p) (State.modPair_congr _ _ (by rw [State.pair_awake_same])))
  · rw [exec_fsync h, show (s.pair p).fpDue = none from hf]
  · rw [exec_icinv h, State.compared_of _ _ (by rw [decide_eq_false hm, decide_eq_false hc]; rfl), if_neg (by simpa using hm)]
  · rw [exec_wait h, State.privAs_of (b := false) _ _ (by simpa using hm) (by simpa using hc)]; rfl
  · simp only [List.mem_cons, List.not_mem_nil, or_false] at hi
    obtain rfl | rfl := hi
    · rw [exec_icinv h, State.compared_of _ _ (by rw [decide_eq_true hm, decide_eq_true hc]; rfl), if_pos (by simpa using hm)]
    · rw [exec_wait h, State.privAs_of (b := true) _ _ (by simpa using hm) (by simpa using hc)]; rfl
  · rw [exec_icinv h, State.compared_of_not _ _ (by simpa using apart hne)]
  · rw [exec_wait h, State.privAs_of_ne _ _ (by simpa using apart hne)]

end Sys2Proof.Machine
end

