-- ==== Sys2Proof/Proofs/ControlTransfers.lean ====
section
/-! PROOF. Branches, jumps, calls and returns (R263, R264). -/

namespace Sys2Proof.Machine

/-- What a Bcc that resolves teaches the predictor, with its outcome (R264, log entry 70). -/
theorem Pred.train_eq (b : Pred) (pc : Word) (on : Bool) : b.train pc on =
    { b with
      bht := b.bht.put (getBits pc 12 2 ^^^ b.hist.toNat)
        (if on then (if b.bht.get (getBits pc 12 2 ^^^ b.hist.toNat) 1 = 3 then 3 else b.bht.get (getBits pc 12 2 ^^^ b.hist.toNat) 1 + 1)
          else (if b.bht.get (getBits pc 12 2 ^^^ b.hist.toNat) 1 = 0 then 0 else b.bht.get (getBits pc 12 2 ^^^ b.hist.toNat) 1 - 1)) 1
      hist := (b.hist <<< 1) ||| (if on then 1 else 0) } := by
  cases on <;> rfl

/-- A return takes the top of the return stack, unless prediction is barred. -/
theorem Pred.pop_eq (b : Pred) : b.pop = { b with ras := if b.bar.isSome then b.ras else b.ras.drop 1 } := by
  unfold Pred.pop; split <;> rfl

section
variable {s : State} {p : Pair}

/-- A control transfer out of a slot has its effect. -/
theorem State.noSlot_none (h : (s.pair p).slot = none) (i : Instr) (body : State → State) :
    (s.awake p).noSlot p i body = body (s.awake p) := by simp [State.noSlot, h]

/-- A control transfer in a slot is illegal. -/
theorem State.noSlot_some (h : (s.pair p).slot ≠ none) (i : Instr) (body : State → State) :
    (s.awake p).noSlot p i body = (s.awake p).illegal p ((nc32Encode i).getD 0) := by
  simp [State.noSlot, Option.isSome_iff_ne_none.2 h]

/-- A Bcc with a condition, out of a slot. -/
theorem exec_bcc (h : s.issues p) (hs : (s.pair p).slot = none) (an : Bool) {cond : Fin 16} (hc : cond ≠ 15) (disp : BitVec 21) :
    exec (.bcc p an cond disp) s = .next ((s.awake p).compared p 0
      (condHolds cond (s.pair p).main.flags == condHolds cond (s.pair p).chk.flags &&
        (s.pair p).main.pred.taken (s.pair p).pc == (s.pair p).chk.pred.taken (s.pair p).pc) fun t => t.modPair p fun x =>
          let y := x.predict fun b => b.train x.pc (condHolds cond (s.pair p).main.flags)
          if condHolds cond (s.pair p).main.flags then y.branchTo (x.pc + (disp.signExtend 32 <<< 2))
          else if an then y.annul
          else y.branchTo (x.pc + 8)) := by
  change execBcc p an cond disp s = _
  have hv : cond.val ≠ 15 := fun e => hc (Fin.ext e)
  exact issue_next_of h (by rw [if_neg hv, State.noSlot_none hs]; simp only [State.pair_awake_same])

theorem exec_bcc_illegal (h : s.issues p) (an : Bool) (disp : BitVec 21) :
    exec (.bcc p an 15 disp) s = .next ((s.awake p).illegal p ((nc32Encode (.bcc p an 15 disp)).getD 0)) := by
  change execBcc p an 15 disp s = _
  exact issue_next_of h (if_pos rfl)

theorem exec_jr (h : s.issues p) (hs : (s.pair p).slot = none) (a : Greg) :
    exec (.jr p a) s = .next ((s.awake p).compared p 0 ((s.pair p).main.gr a == (s.pair p).chk.gr a) fun t =>
      t.modPair p fun y => y.branchTo (jumpTarget ((s.pair p).main.gr a))) := by
  change execJr p a s = _
  exact issue_next_of h (by rw [State.noSlot_none hs]; simp only [State.pair_awake_same])

theorem exec_callr (h : s.issues p) (hs : (s.pair p).slot = none) (a : Greg) :
    exec (.callr p a) s = .next ((s.awake p).compared p 0 ((s.pair p).main.gr a == (s.pair p).chk.gr a) fun t =>
      (t.both p fun c => c.setG 31 ((s.pair p).pc + 8)).modPair p fun y =>
        (y.predict fun b => b.push ((s.pair p).pc + 8)).branchTo (jumpTarget ((s.pair p).main.gr a))) := by
  change execCallr p a s = _
  exact issue_next_of h (by rw [State.noSlot_none hs]; simp only [State.pair_awake_same])

theorem exec_ret (h : s.issues p) (hs : (s.pair p).slot = none) :
    exec (.ret p) s = .next ((s.awake p).compared p 0 ((s.pair p).main.gr 31 == (s.pair p).chk.gr 31 &&
      (s.pair p).main.pred.top == (s.pair p).chk.pred.top) fun t =>
        t.modPair p fun y => (y.predict Pred.pop).branchTo (jumpTarget ((s.pair p).main.gr 31))) := by
  change execRet p s = _
  exact issue_next_of h (by rw [State.noSlot_none hs]; simp only [State.pair_awake_same])

theorem exec_jmp (h : s.issues p) (hs : (s.pair p).slot = none) (far : BitVec 26) :
    exec (.jmp p far) s = .next ((s.awake p).modPair p fun x => x.branchTo (x.pc + (far.signExtend 32 <<< 2))) := by
  change execJmp p far s = _
  exact issue_next_of h (State.noSlot_none hs _ _)

theorem exec_call (h : s.issues p) (hs : (s.pair p).slot = none) (far : BitVec 26) :
    exec (.call p far) s = .next (((s.awake p).both p fun c => c.setG 31 ((s.pair p).pc + 8)).modPair p fun x =>
      (x.predict fun b => b.push ((s.pair p).pc + 8)).branchTo (x.pc + (far.signExtend 32 <<< 2))) := by
  change execCall p far s = _
  exact issue_next_of h (by rw [State.noSlot_none hs]; simp only [State.pair_awake_same])

/-- In a slot every control transfer is illegal (R263). -/
theorem exec_transfer_slot (h : s.issues p) (hs : (s.pair p).slot ≠ none) (an : Bool) (cond : Fin 16) (disp : BitVec 21)
    (far : BitVec 26) (a : Greg) (imm : BitVec 16) :
    ∀ i ∈ [Instr.bcc p an cond disp, .jmp p far, .call p far, .jr p a, .callr p a, .ret p, .eret p, .trap p imm],
      exec i s = .next ((s.awake p).illegal p ((nc32Encode i).getD 0)) := by
  have slot (i : Instr) (body : State → State) : issue p (fun s => s.noSlot p i body) s =
      .next ((s.awake p).illegal p ((nc32Encode i).getD 0)) := issue_next_of h (State.noSlot_some hs i body)
  intro i hi
  simp only [List.mem_cons, List.not_mem_nil, or_false] at hi
  obtain rfl | rfl | rfl | rfl | rfl | rfl | rfl | rfl := hi
  · by_cases hc : cond = 15
    · subst hc; exact exec_bcc_illegal h an disp
    · change execBcc p an cond disp s = _
      have hv : cond.val ≠ 15 := fun e => hc (Fin.ext e)
      exact issue_next_of h (by rw [if_neg hv, State.noSlot_some hs])
  · exact slot (.jmp p far) _
  · exact slot (.call p far) _
  · exact slot (.jr p a) _
  · exact slot (.callr p a) _
  · exact slot (.ret p) _
  · exact slot (.eret p) _
  · exact slot (.trap p imm) _

end

/-- Settles O10: out of a slot each transfer by what its comparison comes to; in a slot none acts. -/
theorem controlTransfers : Obligations.ControlTransfers := by
  unfold Obligations.ControlTransfers
  intro s p an cond disp far a imm h x t goes reg link call learn guess top
  refine ⟨fun hs => ⟨fun hc hne => ?_, fun hc => ?_, fun hc hon hg => ?_, ?_, ?_, fun ha => ⟨?_, ?_⟩, fun ha => ⟨?_, ?_⟩, fun hne => ?_,
    fun ha htop => ?_⟩, fun hs => exec_transfer_slot h hs an cond disp far a imm⟩
  · rw [exec_bcc h hs an hc, State.compared_of_not]
    simp only [Bool.and_eq_false_iff, beq_eq_false_iff_ne]
    exact hne
  · subst hc; exact exec_bcc_illegal h an disp
  · rw [exec_bcc h hs an hc, State.compared_of _ _ (by simp only [Bool.and_eq_true, beq_iff_eq]; exact ⟨hon, hg⟩)]
    refine congrArg _ (State.modPair_congr _ _ ?_)
    have hl (b : Pred) : b.train x.pc (condHolds cond x.main.flags) = learn b := Pred.train_eq _ _ _
    simp only [State.pair_awake_same, ← funext hl]
    rfl
  · rw [exec_jmp h hs]
    exact congrArg _ (State.modPair_congr _ _ (by rw [State.pair_awake_same]))
  · rw [exec_call h hs, State.both_eq_modPair, State.modPair_modPair]
    exact congrArg _ (State.modPair_congr _ _ (by rw [State.pair_awake_same]; rfl))
  · rw [exec_jr h hs, State.compared_of _ _ (by simpa using ha)]; rfl
  · rw [exec_callr h hs, State.compared_of _ _ (by simpa using ha), State.both_eq_modPair, State.modPair_modPair]
    exact congrArg _ (State.modPair_congr _ _ (by rw [State.pair_awake_same]; rfl))
  · rw [exec_jr h hs, State.compared_of_not _ _ (by simpa using ha)]
  · rw [exec_callr h hs, State.compared_of_not _ _ (by simpa using ha)]
  · rw [exec_ret h hs, State.compared_of_not]
    simp only [Bool.and_eq_false_iff, beq_eq_false_iff_ne]
    exact hne
  · rw [exec_ret h hs, State.compared_of _ _ (by simp only [Bool.and_eq_true, beq_iff_eq]; exact ⟨ha, htop⟩)]
    rw [funext Pred.pop_eq]
    rfl

end Sys2Proof.Machine
end

