-- ==== Sys2Proof/Proofs/Steps.lean ====
section
/-! PROOF. One step of the queue, and the state after reset (R8, R30). -/

namespace Sys2Proof.Machine

/-- Settles O56: by the queue's two forms. -/
theorem stepRunsFront : Obligations.StepRunsFront :=
  ⟨fun _ _ _ => step_front rfl, fun _ => step_idle⟩

/-- After reset a register that exists holds its reset value: nothing is stored. -/
theorem State.reset_reg {q : RegName} {i j : Nat} (h : regAt (q.addr i j) = some (q, i, j)) : State.reset.reg q i j = q.reset i j := by
  change regDefault (q.addr i j) = _
  rw [regDefault, h]

theorem State.reset_mode : State.reset.mode = .blank := by decide +kernel

theorem State.reset_canonical : State.reset.canonical := ⟨rfl, rfl⟩

/-- Nothing is written in the flash array after reset (R310). -/
theorem State.reset_flash {a : Nat} (hl : 0x10000000 ≤ a) (hh : a < 0x12000000) : State.reset.byte a = 0xFF := by
  change memDefault a = _
  rw [memDefault, if_pos ⟨hl, hh⟩]

theorem State.reset_pair (p : Pair) : State.reset.pair p = PairSt.init := by
  simp [State.pair, State.reset]

/-- Settles O58: the fields of the reset state; its maps list nothing. -/
theorem resetState : Obligations.ResetState := by
  refine ⟨rfl, rfl, rfl, State.reset_mode, State.reset_canonical, fun _ _ _ => State.reset_reg, fun _ => State.reset_flash,
    fun p => ?_⟩
  rw [State.reset_pair]
  exact ⟨rfl, rfl, rfl⟩

end Sys2Proof.Machine
end

