-- ==== Sys2Proof/Proofs/ExceptionEntry.lean ====
section
/-! PROOF. Exception entry: the task-state block, the registers it leaves, its frame (R274, R275, R278). -/

namespace Sys2Proof.Machine

/-! ## The task-state block -/

/-- A TSBR with its fixed bits names one of the 256-byte blocks in the upper half of the TCM (R277). -/
theorem tsbr_range {w : Word} (h : w = tsbrOf w) : w.toNat % 256 = 0 ∧ w.toNat + 256 ≤ 0x100000 := by
  have hb : ∀ k, k < 32 → w.getLsbD k = (decide (8 ≤ k ∧ k ≤ 19) && (decide (k = 19) || w.getLsbD k)) := by
    intro k hk
    conv_lhs => rw [h]
    simp only [tsbrOf, BitVec.getLsbD_or, BitVec.getLsbD_and]
    interval_cases k <;> simp
  have low : w.toNat % 2 ^ 8 = 0 := by
    apply Nat.eq_of_testBit_eq
    intro k
    rw [Nat.testBit_mod_two_pow, Nat.zero_testBit, BitVec.testBit_toNat]
    by_cases c : k < 8
    · have : ¬(8 ≤ k ∧ k ≤ 19) := by omega
      rw [hb k (by omega), decide_eq_false this]; simp
    · simp [c]
  have high : w.toNat / 2 ^ 20 = 0 := by
    apply Nat.eq_of_testBit_eq
    intro k
    rw [Nat.testBit_div_two_pow, Nat.zero_testBit, BitVec.testBit_toNat]
    by_cases c : k + 20 < 32
    · have : ¬(8 ≤ k + 20 ∧ k + 20 ≤ 19) := by omega
      rw [hb _ c, decide_eq_false this]; simp
    · exact BitVec.getLsbD_of_ge _ _ (by omega)
  omega

theorem aliasBase_range (p : Pair) : aliasBase p % 0x100000 = 0 ∧ 0x38000000 ≤ aliasBase p ∧ aliasBase p + 0x100000 ≤ 0x38400000 := by
  have := p.isLt; unfold aliasBase; omega

theorem tsbWords_length (c : Copy) (seq : Nat) (epc cause faddr : Word) (tid : Tenant) (cycle : Word) :
    (tsbWords c seq epc cause faddr tid cycle).length = 64 := by simp [tsbWords]

/-- What the write of a TSB at address t of pair p leaves: its words, no upset there, no other byte, no reservation of another pair. -/
theorem State.tsb_stored {s : State} {p : Pair} (hs : s.noStc p) {t : Nat} (ht : t % 256 = 0) (hl : 0x38000000 ≤ t)
    (hh : t + 256 ≤ 0x38400000) {ws : List Word} (hw : ws.length = 64) :
    ∃ m u v, ((s.eccWrite t 256).2.snoop (some p) t 256).setWords t ws = { s with mem := m, upset := u, pairs := v } ∧
      (∀ k < 64, ({ s with mem := m, upset := u, pairs := v } : State).word (t + 4 * k) = ws[k]?.getD 0) ∧
      (∀ a, a < t ∨ t + 256 ≤ a → ({ s with mem := m, upset := u, pairs := v } : State).byte a = s.byte a) ∧
      (∀ a, SMap.find? u a = if t ≤ a ∧ a < t + 256 ∧ a % 4 = 0 then none else SMap.find? s.upset a) ∧
      ∀ q : Pair, v[q] = if q = p then s.pair q else (s.pair q).snooped s.now (some p) (t / 32) ((t + 255) / 32) := by
  obtain ⟨u, hu, hfind⟩ := s.eccWrite_tcm (a := t) (n := 64) hl (by omega) (by omega)
  obtain ⟨v, hv, hq⟩ := State.snoop_eq (s := { s with upset := u }) (p := p) hs t 256
  have hstore : ((s.eccWrite t 256).2.snoop (some p) t 256).setWords t ws =
      ({ s with upset := u, pairs := v } : State).setWords t ws := by rw [show 256 = 4 * 64 by rfl, hu]; rw [hv]
  have hmem := ({ s with upset := u, pairs := v } : State).setWords_only_mem t ws
  refine ⟨_, u, v, hstore.trans hmem, fun k hk => ?_, fun a ha => ?_, hfind, hq⟩
  · have hk' : k < ws.length := by omega
    have h := ({ s with upset := u, pairs := v } : State).word_setWords t ws k hk'
    rw [hmem] at h
    rw [h, List.getElem?_eq_getElem hk', Option.getD_some]
  · have h := ({ s with upset := u, pairs := v } : State).byte_setWords_ne (x := a) ws (a := t) (by omega)
    rw [hmem] at h
    exact h

/-! ## The pair -/

/-- A copy after entry, but for its predictor (R274). -/
def Copy.entered (k : Copy) (c : Cause) (tid : Tenant) : Copy :=
  { k with epc := c.epc, cause := c.word, faddr := c.faddr, psw := setBits (setBits k.psw 9 8 (entryPriv c k.psw tid)) 4 4 0 }

/-- A pair after entry in lc `now` (R274, R275). -/
def PairSt.entered (x : PairSt) (c : Cause) (now : Nat) : PairSt :=
  PairSt.fetchAt { x with
    main := x.main.entered c x.tid
    chk := x.chk.entered c x.tid
    before := if x.before.any (fun b => decide (b.1 = now)) then x.before else some (now, x.main, x.chk)
    resv := none
    slot := none
    stall := none
    waiting := false
    haltReq := x.haltReq || x.step
    step := false } (x.main.evec &&& 0xFFFFFFFC)

theorem entryPriv_lt (c : Cause) (psw : Word) (tid : Tenant) : entryPriv c psw tid < 4 := by
  unfold entryPriv; split <;> decide

/-- PSW after entry: PRIV as the cause gives it, IE 0, every other bit as it was. -/
theorem Copy.entered_psw (k : Copy) (c : Cause) (tid : Tenant) :
    getBits (k.entered c tid).psw 9 8 = entryPriv c k.psw tid ∧ (k.entered c tid).psw.getLsbD 4 = false ∧
    ∀ i < 32, i ≠ 4 → i ≠ 8 → i ≠ 9 → (k.entered c tid).psw.getLsbD i = k.psw.getLsbD i := by
  refine ⟨?_, ?_, fun i hi h4 h8 h9 => ?_⟩
  · change getBits (setBits (setBits _ _ _ _) _ _ _) 9 8 = _
    rw [getBits_setBits_ne _ _ _ _ _ _ (by decide) (by decide) (by decide), getBits_setBits_same _ _ _ _ (by decide) (by decide)]
    exact Nat.mod_eq_of_lt (entryPriv_lt c k.psw tid)
  · change (setBits (setBits _ _ _ _) _ _ _).getLsbD 4 = _
    rw [setBits_getLsbD _ _ _ _ _ (by decide) (by decide), if_pos (by decide)]; rfl
  · change (setBits (setBits _ _ _ _) _ _ _).getLsbD i = _
    rw [setBits_getLsbD _ _ _ _ _ (by decide) hi, if_neg (by omega), setBits_getLsbD _ _ _ _ _ (by decide) hi, if_neg (by omega)]

/-! ## Entry -/

/-- With nothing in its way an entry is `takeEntry`. -/
theorem State.enter_eq {s : State} {p : Pair} {c : Cause} (h : s.entryFree p c) : s.enter p c = s.takeEntry p c := by
  obtain ⟨-, hf, hl, ha, -⟩ := h
  simp [State.enter, State.enterFrom, hf, hl, ha]

/-- An entry with nothing in its way, its stores as given. -/
theorem State.takeEntry_eq {s : State} {p : Pair} {c : Cause} (h : s.entryFree p c) {m : SMap Byte} {u : SMap Bool}
    {v : Vector PairSt 4} (hst : ((s.eccWrite (aliasBase p + (s.pair p).main.tsbr.toNat) 256).2.snoop (some p)
      (aliasBase p + (s.pair p).main.tsbr.toNat) 256).setWords (aliasBase p + (s.pair p).main.tsbr.toNat)
        (tsbWords (s.pair p).main ((s.fld F.LP_EXC_STAT_SEQ p 0 + 1) % 65536) c.epc c.word c.faddr (s.pair p).tid s.cycleLo) =
      { s with mem := m, upset := u, pairs := v }) (hv : v[p] = s.pair p) :
    s.takeEntry p c = ((({ s with mem := m, upset := u, pairs := v } : State).setFld F.LP_EXC_STAT_SEQ p 0
      ((s.fld F.LP_EXC_STAT_SEQ p 0 + 1) % 65536)).setFld F.LP_EXC_STAT_ARMED p 0 1).setPair p ((s.pair p).entered c s.now) := by
  obtain ⟨-, -, -, -, htsbr, -, hwords, hevec⟩ := h
  have hcmp : (tsbWords (s.pair p).main ((s.fld F.LP_EXC_STAT_SEQ p 0 + 1) % 65536) c.epc c.word c.faddr (s.pair p).tid s.cycleLo ==
      tsbWords (s.pair p).chk ((s.fld F.LP_EXC_STAT_SEQ p 0 + 1) % 65536) c.epc c.word c.faddr (s.pair p).tid s.cycleLo &&
      (s.pair p).main.tsbr == (s.pair p).chk.tsbr) = true := by
    rw [hwords, htsbr]; simp
  rw [State.takeEntry, State.compared_of _ _ hcmp]
  simp only [hst]
  rw [State.compared_of _ _ (by rw [hevec]; simp)]
  simp only [State.both_eq_modPair, State.modPair_modPair]
  rw [State.modPair_eq]
  refine congrArg _ ?_
  have hp : ((({ s with mem := m, upset := u, pairs := v } : State).setFld F.LP_EXC_STAT_SEQ p 0
      ((s.fld F.LP_EXC_STAT_SEQ p 0 + 1) % 65536)).setFld F.LP_EXC_STAT_ARMED p 0 1).pair p = s.pair p := hv
  rw [hp]
  rfl

/-- What makes an entry: the pair's entry, and the parts of the state that the block and the registers lie in. -/
theorem State.entered_of {s t : State} {p : Pair} {c : Cause} (hp : t.pair p = (s.pair p).entered c s.now)
    (harm : t.fld F.LP_EXC_STAT_ARMED p 0 = 1) (hseq : t.fld F.LP_EXC_STAT_SEQ p 0 = (s.fld F.LP_EXC_STAT_SEQ p 0 + 1) % 65536)
    (hregs : ∀ a, a ≠ RegName.LP_EXC_STAT.addr p 0 → t.regs.get a (regDefault a) = s.regs.get a (regDefault a))
    (hword : ∀ k < 64, t.word (aliasBase p + (s.pair p).main.tsbr.toNat + 4 * k) =
      ((tsbWords (s.pair p).main ((s.fld F.LP_EXC_STAT_SEQ p 0 + 1) % 65536) c.epc c.word c.faddr (s.pair p).tid s.cycleLo)[k]?).getD 0)
    (hbyte : ∀ a, a < aliasBase p + (s.pair p).main.tsbr.toNat ∨ aliasBase p + (s.pair p).main.tsbr.toNat + 256 ≤ a → t.byte a = s.byte a)
    (hupset : ∀ a, SMap.find? t.upset a =
      if aliasBase p + (s.pair p).main.tsbr.toNat ≤ a ∧ a < aliasBase p + (s.pair p).main.tsbr.toNat + 256 ∧ a % 4 = 0 then none
      else SMap.find? s.upset a)
    (hframe : t = { s with pairs := t.pairs, regs := t.regs, mem := t.mem, upset := t.upset })
    (hpairs : ∀ q : Pair, q ≠ p → t.pair q = match (s.pair q).resv with
      | some g => if aliasBase p + (s.pair p).main.tsbr.toNat ≤ 32 * g ∧ 32 * g < aliasBase p + (s.pair p).main.tsbr.toNat + 256
          then { s.pair q with resv := none, lost := some (s.now, g, p) } else s.pair q
      | none => s.pair q) : s.entered t p c := by
  unfold State.entered
  simp only [hp]
  exact ⟨⟨rfl, (s.pair p).main.entered_psw c _⟩, ⟨rfl, (s.pair p).chk.entered_psw c _⟩, rfl, harm, hseq, hregs, hword, hbyte, hupset,
    hframe, hpairs⟩

/-- A store to the whole 256 bytes of a block touches the reservations on its granules. -/
theorem PairSt.snooped_block (x : PairSt) (now : Nat) (p : Pair) {t : Nat} (ht : t % 256 = 0) :
    x.snooped now (some p) (t / 32) ((t + 255) / 32) = match x.resv with
      | some g => if t ≤ 32 * g ∧ 32 * g < t + 256 then { x with resv := none, lost := some (now, g, p) } else x
      | none => x := by
  unfold PairSt.snooped
  cases x.resv with
  | none => rfl
  | some g =>
    have hg : (t / 32 ≤ g ∧ g ≤ (t + 255) / 32) ↔ t ≤ 32 * g ∧ 32 * g < t + 256 := by omega
    simp only [hg] <;> rfl

/-- The entry's own effect (R274, R275, R278). -/
theorem State.takeEntry_entered {s : State} {p : Pair} {c : Cause} (h : s.entryFree p c) : s.entered (s.takeEntry p c) p c := by
  obtain ⟨hstc, -, -, -, -, hfixed, -⟩ := id h
  obtain ⟨hmod, hmax⟩ := tsbr_range hfixed
  obtain ⟨bmod, blo, bhi⟩ := aliasBase_range p
  obtain ⟨m, u, v, hst, hword, hbyte, hfind, hpairs⟩ := State.tsb_stored hstc (t := aliasBase p + (s.pair p).main.tsbr.toNat)
    (by omega) (by omega) (by omega)
    (tsbWords_length (s.pair p).main ((s.fld F.LP_EXC_STAT_SEQ p 0 + 1) % 65536) c.epc c.word c.faddr (s.pair p).tid s.cycleLo)
  rw [State.takeEntry_eq h hst (by rw [hpairs, if_pos rfl])]
  refine State.entered_of (State.pair_setPair_same _ _ _) ?_ ?_ (fun a ha => ?_) hword hbyte hfind rfl (fun q hq => ?_)
  · rw [State.fld_setPair, State.fld_setFld_same _ _ _ _ _ (by decide)]; rfl
  · simp (disch := decide) only [State.fld_setPair, State.fld_setFld_apart, State.fld_setFld_same]
    exact Nat.mod_eq_of_lt (Nat.mod_lt _ (by decide))
  · exact (SMap.get_put_ne _ _ _ _ ha).trans (SMap.get_put_ne _ _ _ _ ha)
  · rw [State.pair_setPair_ne _ _ hq]
    exact (hpairs q).trans ((if_neg hq).trans (PairSt.snooped_block _ _ _ (by omega)))

/-- Settles O12: an entry with nothing in its way is the one above; a precise fault is an entry by definition. -/
theorem exceptionEntry : Obligations.ExceptionEntry := by
  unfold Obligations.ExceptionEntry
  exact fun s p c => ⟨fun h => State.enter_eq h ▸ State.takeEntry_entered h, fun code info faddr => rfl⟩

end Sys2Proof.Machine
end

