-- ==== Sys2Proof/Proofs/BoundaryCauses.lean ====
section
/-! PROOF. The boundary before an instruction: what waits there and in which order (R286), and what taking it does. -/

namespace Sys2Proof.Machine

section
variable {s : State} {p : Pair}

/-! ## The order at a boundary -/

/-- The oldest late store error comes first, unless ARMED. -/
theorem State.boundary_late (hu : s.coreUp p = true) (hs : (s.pair p).slot = none) {l : LateStore}
    (hl : (s.pair p).late.head? = some l) (ha : s.flag F.LP_EXC_STAT_ARMED p 0 = false) : s.boundary p = .late l := by
  obtain ⟨r, hr⟩ := List.head?_eq_some_iff.1 hl
  simp [State.boundary, hu, hs, hr, ha]

/-- Where no late store error is taken, an FP exception comes first, then a recall, a halt, a WAIT. -/
theorem State.boundary_quiet (hu : s.coreUp p = true) (hs : (s.pair p).slot = none)
    (hl : (s.pair p).late = [] ∨ s.flag F.LP_EXC_STAT_ARMED p 0 = true) : s.boundary p =
      match (s.pair p).fpPend with
      | some e => .fp e
      | none =>
        if s.flag F.PTU_PAIRk_STAT_RECALLP p 0 && !s.flag F.LP_EXC_STAT_ARMED p 0 then .recall
        else if (s.pair p).haltReq then if s.interruptNext p then .hold else .halt
        else if (s.pair p).waiting then if s.wakes p && !s.interruptNext p then .run else .hold
        else .run := by
  have quiet : ∀ (L : List LateStore) (A : Bool) (k : Boundary), L = [] ∨ A = true →
      (match L, A with | l :: _, false => Boundary.late l | _, _ => k) = k := by
    rintro (_ | ⟨l, L⟩) (_ | _) k h <;> simp_all
  have := quiet _ _ (match (s.pair p).fpPend with
      | some e => .fp e
      | none =>
        if s.flag F.PTU_PAIRk_STAT_RECALLP p 0 && !s.flag F.LP_EXC_STAT_ARMED p 0 then .recall
        else if (s.pair p).haltReq then if s.interruptNext p then .hold else .halt
        else if (s.pair p).waiting then if s.wakes p && !s.interruptNext p then .run else .hold
        else .run) hl
  simp only [State.boundary, hu, hs]
  exact this

/-- A late store error is taken only by a pair that is up, out of a slot and not ARMED. -/
theorem State.boundary_ne_late (h : s.flag F.LP_EXC_STAT_ARMED p 0 = true ∨ (s.pair p).slot ≠ none ∨ s.coreUp p = false)
    (l : LateStore) : s.boundary p ≠ .late l := by
  by_cases hu : s.coreUp p = true
  · by_cases hs : (s.pair p).slot = none
    · have ha : s.flag F.LP_EXC_STAT_ARMED p 0 = true := by simpa [hs, hu] using h
      rw [State.boundary_quiet hu hs (.inr ha)]
      split
      · simp
      · split_ifs <;> simp
    · rw [State.boundary_slot hu (Option.isSome_iff_ne_none.2 hs)]; simp
  · rw [State.boundary_down (by simpa using hu)]; simp

theorem State.boundary_recall (hu : s.coreUp p = true) (hs : (s.pair p).slot = none) (hl : (s.pair p).late = [])
    (hf : (s.pair p).fpPend = none) (ha : s.flag F.LP_EXC_STAT_ARMED p 0 = false) (hr : s.flag F.PTU_PAIRk_STAT_RECALLP p 0 = true) :
    s.boundary p = .recall := by
  simp [State.boundary_quiet hu hs (.inl hl), hf, ha, hr]

/-- A halt comes after an interrupt that is offered (Table 14.4). -/
theorem State.boundary_halt (hu : s.coreUp p = true) (hs : (s.pair p).slot = none)
    (hl : (s.pair p).late = [] ∨ s.flag F.LP_EXC_STAT_ARMED p 0 = true) (hf : (s.pair p).fpPend = none)
    (hr : s.flag F.PTU_PAIRk_STAT_RECALLP p 0 = false ∨ s.flag F.LP_EXC_STAT_ARMED p 0 = true) (hh : (s.pair p).haltReq = true) :
    s.boundary p = if s.interruptNext p then .hold else .halt := by
  have hrcl : (s.flag F.PTU_PAIRk_STAT_RECALLP p 0 && !s.flag F.LP_EXC_STAT_ARMED p 0) = false := by
    obtain h | h := hr <;> simp [h]
  simp [State.boundary_quiet hu hs hl, hf, hrcl, hh]

/-! ## Late stores, recalls, halts -/

/-- The pair with a further late store error; at most four wait (R282). -/
def State.withLate (s : State) (p : Pair) (l : LateStore) : State := s.modPair p fun y => { y with late := (y.late ++ [l]).take 4 }

theorem State.withLate_pair (l : LateStore) : (s.withLate p l).pair p = { s.pair p with late := ((s.pair p).late ++ [l]).take 4 } :=
  State.pair_modPair_same _ _ _

/-- A further late store error changes nothing that decides whether the pair is up. -/
theorem State.withLate_coreUp (l : LateStore) : (s.withLate p l).coreUp p = s.coreUp p := by
  simp only [State.coreUp, State.withLate_pair]; rfl

theorem exec_storeLate (hm : s.mode.cores = true) (hf : s.faulted p = false) (a : Word) (ten : Tenant) (tag : Fin 4) :
    exec (.storeLate p a ten tag) s = .next (match (s.withLate p ⟨a, ten, tag⟩).boundary p with
      | .late l => (s.withLate p ⟨a, ten, tag⟩).takeLate p l
      | _ => s.withLate p ⟨a, ten, tag⟩) := by
  change execStoreLate p a ten tag s = _
  rw [execStoreLate, if_pos (by simp [hm, hf])]
  change (match (s.withLate p ⟨a, ten, tag⟩).boundary p with
    | .late l => Host.Outcome.next ((s.withLate p ⟨a, ten, tag⟩).takeLate p l)
    | _ => .next (s.withLate p ⟨a, ten, tag⟩)) = _
  cases (s.withLate p ⟨a, ten, tag⟩).boundary p <;> rfl

/-- A late store error is taken at once at a boundary that is free of others. -/
theorem exec_storeLate_taken (hm : s.mode.cores = true) (hf : s.faulted p = false) (a : Word) (ten : Tenant) (tag : Fin 4)
    (hu : s.coreUp p = true) (hs : (s.pair p).slot = none) (ha : s.flag F.LP_EXC_STAT_ARMED p 0 = false) (hl : (s.pair p).late = []) :
    exec (.storeLate p a ten tag) s = .next ((s.withLate p ⟨a, ten, tag⟩).takeLate p ⟨a, ten, tag⟩) := by
  rw [exec_storeLate hm hf, State.boundary_late (l := ⟨a, ten, tag⟩)]
  · rw [State.withLate_coreUp, hu]
  · rw [State.withLate_pair, hs]
  · rw [State.withLate_pair, hl]; rfl
  · exact ha

/-- A late store error waits where it cannot be taken. -/
theorem exec_storeLate_waits (hm : s.mode.cores = true) (hf : s.faulted p = false) (a : Word) (ten : Tenant) (tag : Fin 4)
    (h : s.flag F.LP_EXC_STAT_ARMED p 0 = true ∨ (s.pair p).slot ≠ none ∨ s.coreUp p = false) :
    exec (.storeLate p a ten tag) s = .next (s.withLate p ⟨a, ten, tag⟩) := by
  rw [exec_storeLate hm hf]
  split
  · next l hl =>
    refine absurd hl (State.boundary_ne_late ?_ l)
    rw [State.withLate_pair, State.withLate_coreUp]
    exact h
  · rfl

theorem State.recallWrite_eq (r : Req) (v : Word) : s.recallWrite r v =
    if r.t0mon = true ∧ (s.pair (Fin.ofNat 4 (getBits v 1 0))).tid ≠ 0
    then s.setFld F.PTU_PAIRk_STAT_RECALLP (Fin.ofNat 4 (getBits v 1 0)) 0 1 else s := by
  simp only [State.recallWrite, Bool.and_eq_true, decide_eq_true_eq]

/-- A recall with nothing in its way (R364). -/
theorem State.takeRecall_eq (hd : (s.pair p).fpDue = none) (hl : s.flag F.LP_LS_STAT_LATPEND p 0 = false) :
    s.takeRecall p = ((((s.setFld F.PTU_PAIRk_STAT_RECALLP p 0 0).takeEntry p ⟨0x01, 0x018A, (s.pair p).resume, 0⟩).both p fun k =>
      { k with psw := setBits k.psw 9 8 1 }).switchTid p 0) := by
  rw [State.takeRecall, if_neg (by simp [hd, hl])]; rfl

theorem exec_recallTaken (h : s.boundary p = .recall) : exec (.recallTaken p) s = .next (s.takeRecall p) := by
  change execRecallTaken p s = _
  unfold execRecallTaken
  rw [h]

theorem exec_haltTaken (hh : (s.pair p).haltReq = true) : exec (.haltTaken p) s = match s.boundary p with
    | .late l => .next ((s.takeLate p l).emit (.haltTaken p))
    | .fp e => .next ((s.takeFp p e).emit (.haltTaken p))
    | .recall => .next ((s.takeRecall p).emit (.haltTaken p))
    | .halt => .next (s.takeHalt p)
    | .run => .next (s.sched 1 (.haltTaken p))
    | .hold => .next (if s.coreUp p then s.sched 1 (.haltTaken p) else s) := by
  change execHaltTaken p s = _
  exact if_neg (by simp [hh])

theorem State.enteredTo_iff (t : State) : s.enteredTo t p = true ↔
    s.fld F.LP_EXC_STAT_SEQ p 0 ≠ t.fld F.LP_EXC_STAT_SEQ p 0 ∨
      (t.flag F.LP_EXC_STAT_DOUBLE p 0 = true ∧ s.flag F.LP_EXC_STAT_DOUBLE p 0 = false) := by
  simp [State.enteredTo]

end

/-- Settles O17: what the boundary holds, clause by clause. -/
theorem boundaryCauses : Obligations.BoundaryCauses := by
  unfold Obligations.BoundaryCauses
  intro s p a v ten tag r l i x armed rcl
  refine ⟨fun hm hf => ?_, fun hu hs hl ha => ?_, fun ho hp => ?_, fun hadm => ?_, fun hu hs ha hl hp hr => ⟨?_, ?_, fun ho hlat => ?_⟩,
    fun hu hs hl hp hr hh => ⟨fun hi => ⟨?_, fun hne => ?_, fun he => ?_⟩, fun hi => ⟨?_, ?_⟩⟩, fun hu hs hh => ?_, fun hh => ?_⟩
  · by_cases hw : armed = true ∨ x.slot ≠ none ∨ s.coreUp p = false
    · refine ⟨_, exec_storeLate_waits hm hf a ten tag hw, fun hu hs ha _ => ?_, fun _ => rfl⟩
      simp [hu, hs, ha] at hw
    · obtain ⟨ha, hs, hu⟩ : armed = false ∧ x.slot = none ∧ s.coreUp p = true := by simpa using hw
      by_cases hl : x.late = []
      · exact ⟨_, exec_storeLate_taken hm hf a ten tag hu hs ha hl, fun _ _ _ _ => rfl, fun h => absurd h hw⟩
      · exact ⟨_, exec_storeLate hm hf a ten tag, fun _ _ _ h => absurd h hl, fun h => absurd h hw⟩
  · simp only [issue, State.boundary_late hu hs hl ha]
  · rw [State.takeLate, if_neg (by simp [show (s.pair p).fpOut = none from ho])]
  · change execPtuRecall r v s = _
    rw [execPtuRecall, regCmd_admitted hadm, State.recallWrite_eq, State.pair_opened]
  · exact exec_recallTaken (State.boundary_recall hu hs hl hp ha hr)
  · simp only [issue, State.boundary_recall hu hs hl hp ha hr]
  · exact State.takeRecall_eq (by simp [PairSt.fpDue, show (s.pair p).fpOut = none from ho, show (s.pair p).fpPend = none from hp]) hlat
  · rw [exec_haltTaken hh, State.boundary_halt hu hs hl hp hr hh, hi]; rfl
  · simp only [issue, State.boundary_halt hu hs hl hp hr hh, hi, Bool.false_eq_true, if_false]
    rw [State.haltAt, if_neg (mt (State.enteredTo_iff _).1 hne)]; rfl
  · simp only [issue, State.boundary_halt hu hs hl hp hr hh, hi, Bool.false_eq_true, if_false]
    rw [State.haltAt, if_pos ((State.enteredTo_iff _).2 he)]
  · rw [exec_haltTaken hh, State.boundary_halt hu hs hl hp hr hh, hi, hu]; rfl
  · simp only [issue, State.boundary_halt hu hs hl hp hr hh, hi, if_true]
  · rw [exec_haltTaken hh, State.boundary_slot hu (Option.isSome_iff_ne_none.2 hs)]
  · change execHaltTaken p s = _
    rw [execHaltTaken, if_pos (by simp [show (s.pair p).haltReq = false from hh])]

end Sys2Proof.Machine
end

