-- ==== Sys2Proof/Proofs/PairFaults.lean ====
section
/-! PROOF. Mismatches, double faults, and the signature sweep (R248, R250, R251, R284). -/

namespace Sys2Proof.Machine

section
variable {s : State} {p : Pair}

/-! ## Faults -/

/-- A pair at fault cannot issue. -/
theorem State.coreUp_faulted (h : s.faulted p = true) : s.coreUp p = false := by simp [State.coreUp, h]

@[simp] theorem State.fld_unsched (c : Instr) (f : Fld) (i j : Nat) : (s.unsched c).fld f i j = s.fld f i j := rfl

/-- The registers of a mismatch: FAULT and its group (R248). -/
def State.mismatchRegs (s : State) (p : Pair) (g : Nat) : State :=
  (((s.setFld F.LP_LS_STAT_FAULT p 0 1).setFld F.LP_LS_STAT_GROUP p 0 g).unsched (.latmaxExpiry p))

theorem State.mismatch_eq (g : Nat) : s.mismatch p g = (s.mismatchRegs p g).uncorrectable p.val (some p) := rfl

theorem State.mismatchRegs_group {g : Nat} (hg : g < 8) : (s.mismatchRegs p g).fld F.LP_LS_STAT_GROUP p 0 = g :=
  (State.fld_setFld_same (s.setFld F.LP_LS_STAT_FAULT p 0 1) F.LP_LS_STAT_GROUP p 0 g (by decide)).trans (Nat.mod_eq_of_lt hg)

theorem State.mismatchRegs_faulted (g : Nat) : (s.mismatchRegs p g).faulted p = true := by
  have h : (s.mismatchRegs p g).fld F.LP_LS_STAT_FAULT p 0 = 1 := by
    rw [State.mismatchRegs, State.fld_unsched]
    simp (disch := decide) only [State.fld_setFld_apart, State.fld_setFld_same]
    rfl
  simp [State.faulted, State.flag, h]

/-- The registers of a double fault: DOUBLE and DCODE (R284). -/
def State.doubleRegs (s : State) (p : Pair) (code : Nat) : State :=
  (s.setFld F.LP_EXC_STAT_DOUBLE p 0 1).setFld F.LP_EXC_STAT_DCODE p 0 code

theorem State.doubleFault_eq (code : Nat) : s.doubleFault p code = (s.doubleRegs p code).uncorrectable (4 + p.val) (some p) := rfl

theorem State.doubleRegs_code {code : Nat} (h : code < 256) : (s.doubleRegs p code).fld F.LP_EXC_STAT_DCODE p 0 = code :=
  (State.fld_setFld_same _ F.LP_EXC_STAT_DCODE p 0 code (by decide)).trans (Nat.mod_eq_of_lt h)

theorem State.doubleRegs_faulted (code : Nat) : (s.doubleRegs p code).faulted p = true := by
  have h : (s.doubleRegs p code).fld F.LP_EXC_STAT_DOUBLE p 0 = 1 := by
    simp (disch := decide) only [State.doubleRegs, State.fld_setFld_apart, State.fld_setFld_same]
    rfl
  simp [State.faulted, State.flag, h]

/-- With a latent divergence pending every entry is a mismatch (R251). -/
theorem State.enterFrom_latent (h : s.flag F.LP_LS_STAT_LATPEND p 0 = true) (c : Cause) : s.enterFrom p c = s.mismatch p 7 := if_pos h

/-- An entry while ARMED is a double fault (R284). -/
theorem State.enterFrom_armed (hl : s.flag F.LP_LS_STAT_LATPEND p 0 = false) (ha : s.flag F.LP_EXC_STAT_ARMED p 0 = true) (c : Cause) :
    s.enterFrom p c = s.doubleFault p c.code := by
  rw [State.enterFrom, if_neg (by simp [hl]), if_pos ha]

/-! ## The sweep -/

/-- The state in which the signatures of an interval are compared: counted, the next snapshot due (R250). -/
def State.swept (s : State) (p : Pair) : State :=
  ((s.count F.LP_SWEEP_CNT_COUNT p 0).modPair p fun y => { y with sig := none }).sched 1 (.sweepSnapshot p)

theorem exec_signatureCompare (hw : s.sweeps p = true) {u v : Word} (hs : (s.pair p).sig = some (u, v)) :
    exec (.signatureCompare p) s = if u ≠ v ∧ s.isLate = false then .next (s.defer (.signatureCompare p))
      else .next (if u = v then s.swept p else (s.swept p).latent p) := by
  change execSignatureCompare p s = _
  unfold execSignatureCompare
  rw [hs]
  simp only [hw, and_true, if_true]
  rfl

theorem State.latent_immediate (h : s.fld F.LP_LS_CFG_LATENT p 0 = 0) : s.latent p = s.mismatch p 7 := if_pos h

/-- In deferred mode a divergence becomes pending, with its limit (R251). -/
theorem State.latent_deferred (h : s.fld F.LP_LS_CFG_LATENT p 0 ≠ 0) (hp : s.flag F.LP_LS_STAT_LATPEND p 0 = false) :
    s.latent p = (s.setFld F.LP_LS_STAT_LATPEND p 0 1).sched (s.fld F.LP_LS_CFG_LATMAX p 0 * 512) (.latmaxExpiry p) := by
  rw [State.latent, if_neg h, if_neg (by simp [hp])]

/-- Counting a sweep leaves the limit of a divergence. -/
theorem State.swept_latmax : (s.swept p).fld F.LP_LS_CFG_LATMAX p 0 = s.fld F.LP_LS_CFG_LATMAX p 0 :=
  State.fld_setFld_ne s (f := F.LP_SWEEP_CNT_COUNT) (g := F.LP_LS_CFG_LATMAX) (s.fld F.LP_SWEEP_CNT_COUNT p 0 + 1)
    (by revert p; decide)

end

/-- Settles O18: the two faults by the registers they leave; the sweep by what the comparison comes to. -/
theorem pairFaultsAndSweep : Obligations.PairFaultsAndSweep := by
  unfold Obligations.PairFaultsAndSweep
  refine ⟨fun s p g body c hg hc => ⟨rfl, rfl, ⟨_, State.mismatch_eq g, State.mismatchRegs_faulted g, State.mismatchRegs_group hg⟩,
    fun h => State.enterFrom_latent h c, fun hl ha => ⟨s.doubleRegs p c.code, ?_, State.doubleRegs_faulted _, State.doubleRegs_code (by omega), rfl,
      State.coreUp_faulted (State.doubleRegs_faulted _)⟩,
    fun i hf => issue_hold (State.boundary_down (State.coreUp_faulted hf)) i⟩, fun s p hw => ?_⟩
  · rw [State.enterFrom_armed hl ha, State.doubleFault_eq]
  · intro x s1 old
    have hf : s.faulted p = false := by simp only [State.sweeps, Bool.and_eq_true, Bool.not_eq_true'] at hw; exact hw.2
    refine ⟨?_, fun u v hs => ⟨fun huv => ?_, fun huv hl => ?_, fun huv hl hi => ?_, fun huv hl hd hp => ?_⟩, fun hl => ?_⟩
    · change execSweepSnapshot p s = _
      rw [execSweepSnapshot, if_pos hw]; rfl
    · rw [exec_signatureCompare hw hs, if_neg (by simp [huv]), if_pos huv]; rfl
    · rw [exec_signatureCompare hw hs, if_pos ⟨huv, hl⟩]
    · rw [exec_signatureCompare hw hs, if_neg (by simp [hl]), if_neg huv, State.latent_immediate (s := s.swept p) hi]; rfl
    · rw [exec_signatureCompare hw hs, if_neg (by simp [hl]), if_neg huv, State.latent_deferred (s := s.swept p) hd hp, State.swept_latmax]; rfl
    · change execLatmaxExpiry p s = _
      rw [execLatmaxExpiry, if_pos (by simp [hl, hf])]

end Sys2Proof.Machine
end

