-- ==== Sys2Proof/Proofs/TrapsAndFetches.lean ====
section
/-! PROOF. TRAP, illegal words, faulty fetches, and refills of the instruction cache (R244, R245, R255, R274, R281, R313). -/

namespace Sys2Proof.Machine

section
variable {s : State} {p : Pair}

/-! ## Traps and faults -/

theorem exec_trap (h : s.issues p) (hs : (s.pair p).slot = none) (imm : BitVec 16) :
    exec (.trap p imm) s = .next (if 0xFF00 ≤ imm.toNat ∧ (s.pair p).tid ≠ 0 then (s.awake p).privileged p
      else (s.awake p).enter p ⟨0x02, imm.toNat, (s.pair p).pc + 4, 0⟩) := by
  change execTrap p imm s = _
  refine issue_next_of h ?_
  rw [State.noSlot, if_neg (by simp [hs])]
  simp only [State.pair_awake_same, Bool.and_eq_true, decide_eq_true_eq]

/-- At the boundary after no branch, a precise cause has the instruction's own address. -/
theorem PairSt.resume_of {x : PairSt} (h : x.slot = none) : x.resume = x.pc := by rw [PairSt.resume, h]

theorem exec_illegalInstruction (h : s.issues p) {w : Word} (hw : nc32Decode p w = none) :
    exec (.illegalInstruction p w) s = .next ((s.awake p).enter p ⟨0x03, w.toNat / 65536, (s.pair p).resume, (s.pair p).pc⟩) := by
  change execIllegalInstruction p w s = _
  refine issue_next_of h ?_
  rw [if_pos (by simp [hw]), State.illegal, State.preciseFault, State.pair_awake_same]
  rfl

/-- A fetch at the pair's address that no window permits (R362, log entry 88). -/
theorem exec_fetchFault_window (h : s.issues p) {a : Word} (hpc : (s.pair p).pc = a)
    (hw : s.permitted (s.pairReq p) .fetch a.toNat 4 = false) :
    exec (.fetchFault p a) s = .next (((s.awake p).violation (s.pairReq p) .fetch a.toNat).enter p ⟨0x07, 1, (s.pair p).resume, a⟩) := by
  change execFetchFault p a s = _
  refine issue_next_of h ?_
  rw [if_neg (by simp [hpc]), if_pos (by simp [hw]), State.preciseFault, State.pair_violation, State.pairReq_awake,
    State.pair_awake_same]
  rfl

/-- A permitted fetch from a region that holds no code. -/
theorem exec_fetchFault_region (h : s.issues p) {a : Word} (hpc : (s.pair p).pc = a)
    (hw : s.permitted (s.pairReq p) .fetch a.toNat 4 = true) (hf : fetchable a.toNat = false) :
    exec (.fetchFault p a) s = .next ((s.awake p).enter p ⟨0x07, 0, (s.pair p).resume, a⟩) := by
  change execFetchFault p a s = _
  refine issue_next_of h ?_
  rw [if_neg (by simp [hpc]), if_neg (by simp [hw]), if_neg (by simp [hf]), State.preciseFault, State.pair_awake_same]
  rfl

/-! ## The instruction cache -/

/-- The cache does not hold the line. -/
theorem State.icLookup_none {line : Nat} (h : ∀ k, ¬(k ∈ (s.pair p).icache ∧ k.line = line)) : s.icLookup p line = (false, s) := by
  have hf : (s.pair p).icache.find? (fun k => decide (k.line = line)) = none := by
    rw [List.find?_eq_none]; exact fun k hk => by simpa using fun e => h k ⟨hk, e⟩
  simp only [State.icLookup, hf]

/-- The cache holds the line, and every copy of it is in the same condition. -/
theorem State.icLookup_find {line : Nat} {u : Option Bool} (h : ∃ k, k ∈ (s.pair p).icache ∧ k.line = line)
    (hu : ∀ k, k ∈ (s.pair p).icache ∧ k.line = line → k.upset = u) :
    ∃ k, (s.pair p).icache.find? (fun k => decide (k.line = line)) = some k ∧ k.upset = u := by
  obtain ⟨k, hk, hl⟩ := h
  cases hf : (s.pair p).icache.find? (fun k => decide (k.line = line)) with
  | none => exact absurd (List.find?_eq_none.1 hf k hk) (by simp [hl])
  | some j => exact ⟨j, rfl, hu j ⟨List.mem_of_find?_eq_some hf, by simpa using List.find?_some hf⟩⟩

theorem State.icLookup_sound {line : Nat} (h : ∃ k, k ∈ (s.pair p).icache ∧ k.line = line)
    (hu : ∀ k, k ∈ (s.pair p).icache ∧ k.line = line → k.upset = none) : s.icLookup p line = (true, s) := by
  obtain ⟨k, hk, hku⟩ := State.icLookup_find h hu
  simp [State.icLookup, hk, hku]

/-- A line with a double-bit error is invalidated and counted (R245). -/
theorem State.icLookup_double {line : Nat} (h : ∃ k, k ∈ (s.pair p).icache ∧ k.line = line)
    (hu : ∀ k, k ∈ (s.pair p).icache ∧ k.line = line → k.upset = some true) : s.icLookup p line =
      (false, (s.modPair p fun x => { x with icache := x.icache.filter fun k => k.line ≠ line }).bump F.LP_ECC_CNT_IC_DE p 0) := by
  obtain ⟨k, hk, hku⟩ := State.icLookup_find h hu
  simp [State.icLookup, hk, hku]

/-- What a refill does with the line it has looked up and not found, in state `u`, due at lc `due`. -/
def State.refilled (u : State) (p : Pair) (a : Word) (line due : Nat) : State :=
  match u.refillRead p line with
  | (.busy w, s) => s.preciseFault p 0x08 (getBits w 11 0) a
  | (.error, s) => s.preciseFault p 0x09 2 a
  | (.data _, s) =>
    let l : IcLine := ⟨line, s.bytes line 32, none⟩
    let s : State := if inFlash line then { s with cyc := .fill p (flBank line) line :: s.cyc } else s
    (s.modPair p fun x => { x.refill l (Config.icVictim s.fresh) with fetchTo := due }).draw

theorem State.refilled_data {u t : State} {line v : Nat} (h : u.refillRead p line = (.data v, t)) (a : Word) (due : Nat) :
    u.refilled p a line due =
      let w : State := if inFlash line then { t with cyc := .fill p (flBank line) line :: t.cyc } else t
      (w.modPair p fun x => { x.refill ⟨line, t.bytes line 32, none⟩ (Config.icVictim t.fresh) with fetchTo := due }).draw := by
  unfold State.refilled
  rw [h]
  by_cases hfl : inFlash line = true <;> simp only [hfl, if_true] <;> rfl

theorem State.refilled_busy {u t : State} {line : Nat} {w : Word} (h : u.refillRead p line = (.busy w, t)) (a : Word) (due : Nat) :
    u.refilled p a line due = t.preciseFault p 0x08 (w.toNat % 4096) a := by
  unfold State.refilled
  rw [h]
  simp [getBits]

theorem State.refilled_error {u t : State} {line : Nat} (h : u.refillRead p line = (.error, t)) (a : Word) (due : Nat) :
    u.refilled p a line due = t.preciseFault p 0x09 2 a := by
  unfold State.refilled
  rw [h]

/-- A refill where the pair fetches next, permitted and fetchable, outside the TCM. -/
theorem exec_icacheRefill (h : s.issues p) {a : Word} (hpc : (s.pair p).pc = a) (hf : fetchable a.toNat = true)
    (ha : 0x80000 ≤ a.toNat) (hw : s.permitted (s.pairReq p) .fetch a.toNat 4 = true) :
    exec (.icacheRefill p a) s = .next (
      let l := (s.awake p).icLookup p (a.toNat / 32 * 32)
      if l.1 then l.2 else l.2.refilled p a (a.toNat / 32 * 32) (s.now + l.2.refillTime (a.toNat / 32 * 32))) := by
  change execIcacheRefill p a s = _
  refine issue_next_of h ?_
  rw [if_neg (by simp [hpc, hf, hw]; omega)]
  rfl

/-- The lc of a refill depend on the flash alone (Table 12.4). -/
theorem State.refillTime_eq {u : State} (h : u.fl = s.fl) (line : Nat) : u.refillTime line =
    if inFlash line = false then 12
    else if (s.fl.banks[flBank line].streams.any fun x => decide (x = flLine line ∨ x + 1 = flLine line)) = true then 14 else 20 := by
  simp only [State.refillTime, h, Bool.not_eq_true']

/-- A refilled line is in the cache, and no line of another set has left it. -/
theorem PairSt.refill_keeps (x : PairSt) (l : IcLine) (w : Fin 4) :
    ((x.refill l w).icache.any fun k => decide (k.line = l.line)) = true ∧
    ∀ k ∈ x.icache, k.line / 32 % 256 ≠ l.line / 32 % 256 → k ∈ (x.refill l w).icache := by
  simp only [PairSt.refill]
  split
  · next hin =>
    refine ⟨?_, fun k hk _ => hk⟩
    simp only [List.any_eq_true, List.mem_filter] at hin ⊢
    obtain ⟨k, ⟨hk, -⟩, hl⟩ := hin
    exact ⟨k, hk, hl⟩
  · split
    · exact ⟨by simp, fun k hk _ => List.mem_append_left _ hk⟩
    · refine ⟨by simp, fun k hk hne => List.mem_append_left _ (List.mem_filter.2 ⟨hk, ?_⟩)⟩
      simp only [decide_eq_true_eq]
      intro he
      have hmem := List.mem_of_getElem? he.symm
      simp only [List.mem_filter, decide_eq_true_eq] at hmem
      exact hne hmem.2

end

/-- Settles O13: traps and faults by their causes; a refill by what the cache holds and what the read answers. -/
theorem trapsAndFetches : Obligations.TrapsAndFetches := by
  unfold Obligations.TrapsAndFetches
  refine ⟨fun s p imm w a h => ⟨fun hs hc => ?_, fun hs hi ht => ?_, exec_illegalInstruction h, fun hpc hw => exec_fetchFault_window h hpc hw,
    fun hpc hw hf => exec_fetchFault_region h hpc hw hf⟩, fun s p a h hpc hf ha hw => ?_⟩
  · rw [exec_trap h hs, if_neg (by rintro ⟨h1, h2⟩; obtain hc | hc := hc; · omega
                                   · exact h2 hc)]
  · rw [exec_trap h hs, if_pos ⟨hi, ht⟩, State.privileged, State.preciseFault, State.pair_awake_same]
    simp only [PairSt.resume, hs]
  · intro line mine rd time stored
    have hmine : ∀ k, mine k ↔ k ∈ ((s.awake p).pair p).icache ∧ k.line = line := fun k => by rw [State.pair_awake_same]
    have hrefill := exec_icacheRefill h hpc hf ha hw
    refine ⟨fun hno => ⟨fun v t hr => ?_, fun w t hr => ?_, fun t hr => ?_⟩, fun hex hu => ?_, fun hex hu => ?_,
      fun x l w => PairSt.refill_keeps x l w⟩
    · rw [hrefill, State.icLookup_none (fun k hk => hno k ((hmine k).2 hk))]
      simp only [Bool.false_eq_true, if_false]
      rw [State.refilled_data hr, State.refillTime_eq (s := s) (u := s.awake p) rfl]
    · rw [hrefill, State.icLookup_none (fun k hk => hno k ((hmine k).2 hk))]
      exact congrArg _ (State.refilled_busy hr a _)
    · rw [hrefill, State.icLookup_none (fun k hk => hno k ((hmine k).2 hk))]
      exact congrArg _ (State.refilled_error hr a _)
    · rw [hrefill, State.icLookup_sound (hex.imp fun k => (hmine k).1) (fun k hk => hu k ((hmine k).2 hk))]; rfl
    · intro v d t hr
      rw [hrefill, State.icLookup_double (hex.imp fun k => (hmine k).1) (fun k hk => hu k ((hmine k).2 hk))]
      simp only [Bool.false_eq_true, if_false]
      rw [State.refilled_data hr, State.refillTime_eq (s := s) (u := v) rfl]

end Sys2Proof.Machine
end

