-- ==== Sys2Proof/Proofs/ExceptionReturn.lean ====
section
/-! PROOF. ERET: its refusals, what it restores, the switch of tenants (R273, R287, R363). -/

namespace Sys2Proof.Machine

variable {s : State} {p : Pair}

/-! ## What ERET may not restore -/

/-- A PSW and a TID that ERET refuses (R273, R287). -/
theorem eretForbidden_iff (priv : Priv) (tid : Tenant) {n : Nat} (hn : n < 8) (psw : Word) :
    eretForbidden priv tid (Fin.ofNat 8 n) psw = true ↔ priv = .user ∨ getBits psw 9 8 = 2 ∨ (getBits psw 9 8 = 3 ∧ n ≠ 0) ∨
      (priv = .supervisor ∧ n ≠ tid.val) := by
  have hz : Fin.ofNat 8 n = 0 ↔ n = 0 := by rw [Fin.ext_iff]; simp [Fin.ofNat, Nat.mod_eq_of_lt hn]
  have ht : Fin.ofNat 8 n = tid ↔ n = tid.val := by rw [Fin.ext_iff]; simp [Fin.ofNat, Nat.mod_eq_of_lt hn]
  generalize Fin.ofNat 8 n = m at *
  rw [← show pswPriv psw = getBits psw 9 8 from rfl]
  cases priv <;> simp [eretForbidden, hz, ht]
  tauto

theorem Copy.priv_user_ne {x : PairSt} (h : x.main.priv = x.chk.priv) (b : Bool) (hb : decide (x.main.priv = .user) = b) :
    decide (x.chk.priv = .user) = b := h ▸ hb

/-! ## The switch of tenants -/

/-- A pair that goes on as tenant n, its predictor flushed where `flushed` asks it. -/
def PairSt.asTenant (x : PairSt) (n : Tenant) (flushed : Bool) : PairSt :=
  if flushed then PairSt.flush { x with tid := n } else { x with tid := n }

/-- The flush on a change of tenant depends on the protection level and on the two tenants' PFL (R363). -/
theorem State.flushDue_congr {u : State} {a b : Tenant}
    (h : ∀ (f : Fld) (i : Tenant), f = F.FL_PL_LEVEL ∧ i = 0 ∨ f = F.PTU_TENt_CFG_PFL → u.fld f i 0 = s.fld f i 0) :
    u.flushDue a b = s.flushDue a b := by
  simp only [State.flushDue, State.flag, show u.fld F.FL_PL_LEVEL 0 0 = s.fld F.FL_PL_LEVEL 0 0 from h _ 0 (.inl ⟨rfl, rfl⟩),
    h F.PTU_TENt_CFG_PFL a (.inr rfl), h F.PTU_TENt_CFG_PFL b (.inr rfl)]

theorem State.fld_bit (s : State) {f : Fld} (h : f.hi = f.lo) (i j : Nat) : s.fld f i j = 0 ∨ s.fld f i j = 1 := by
  have := getBits_lt (s.reg f.reg i j) f.hi f.lo
  rw [h, Nat.add_sub_cancel_left] at this
  simp only [State.fld, h]
  omega

theorem State.flushDue_iff (s : State) (a b : Tenant) : s.flushDue a b = true ↔
    s.fld F.FL_PL_LEVEL 0 0 ≠ 0 ∨ s.fld F.PTU_TENt_CFG_PFL a 0 = 1 ∨ s.fld F.PTU_TENt_CFG_PFL b 0 = 1 := by
  have ha := s.fld_bit (f := F.PTU_TENt_CFG_PFL) rfl a 0
  have hb := s.fld_bit (f := F.PTU_TENt_CFG_PFL) rfl b 0
  simp only [State.flushDue, State.flag, Bool.or_eq_true, decide_eq_true_eq, bne_iff_ne]
  omega

/-- The state a switch of tenant leaves: the count of switches and the pair. -/
theorem State.switchTid_eq (s : State) (p : Pair) (n : Tenant) : s.switchTid p n =
    (if (s.pair p).tid = n then s else s.count F.PTU_PAIRk_STAT_SWITCHES p 0).setPair p
      ((s.pair p).asTenant n (decide ((s.pair p).tid ≠ n) && s.flushDue (s.pair p).tid n)) := by
  unfold State.switchTid
  have hcount : (s.count F.PTU_PAIRk_STAT_SWITCHES p 0).flushDue (s.pair p).tid n = s.flushDue (s.pair p).tid n := by
    refine State.flushDue_congr fun f i hf => State.fld_setFld_ne _ _ ?_
    have hi := i.isLt
    have hp := p.isLt
    rcases hf with ⟨rfl, rfl⟩ | rfl <;>
      simp [RegName.addr, RegName.base, RegName.dims, F.FL_PL_LEVEL, F.PTU_PAIRk_STAT_SWITCHES, F.PTU_TENt_CFG_PFL] <;> omega
  by_cases h : (s.pair p).tid = n
  · subst h
    simp only [if_true, ne_eq, not_true_eq_false, decide_false, Bool.false_and, PairSt.asTenant, Bool.false_eq_true, if_false]
    exact (s.setPair_self p).symm
  · simp only [h, not_false_eq_true, decide_true, Bool.true_and, ne_eq]
    rw [hcount, State.modPair_eq]
    rfl

/-! ## ERET -/

/-- ERET where both copies hold the same privilege, outside a slot. -/
theorem exec_eret_user (h : s.issues p) (hs : (s.pair p).slot = none) (hp : (s.pair p).main.priv = (s.pair p).chk.priv)
    (hu : (s.pair p).main.priv = .user) : exec (.eret p) s = .next ((s.awake p).privileged p) := by
  change execEret p s = _
  refine issue_next_of h ?_
  rw [State.noSlot, if_neg (by simp [hs]), State.privAs_of (b := true) _ _ (by simp [hu]) (by simp [← hp, hu]), if_pos rfl]

/-- ERET above User whose two TSBRs differ is a mismatch of the data port. -/
theorem exec_eret_tsbr (h : s.issues p) (hs : (s.pair p).slot = none) (hp : (s.pair p).main.priv = (s.pair p).chk.priv)
    (hu : (s.pair p).main.priv ≠ .user) (ht : (s.pair p).main.tsbr ≠ (s.pair p).chk.tsbr) :
    exec (.eret p) s = .next ((s.awake p).mismatch p 1) := by
  change execEret p s = _
  refine issue_next_of h ?_
  rw [State.noSlot, if_neg (by simp [hs]), State.privAs_of (b := false) _ _ (by simp [hu]) (by simp [← hp, hu]),
    if_neg (by simp)]
  exact State.compared_of_not _ _ (by simpa using ht) _ _

/-- The TID that the block at `t` holds. -/
def State.tsbTid (s : State) (t : Nat) : Tenant := Fin.ofNat 8 (getBits (s.word (t + 0x94)) 2 0)

/-- Both copies take a PSW, but for the bits that do not exist. -/
def PairSt.withPsw (x : PairSt) (psw : Word) : PairSt :=
  { x with main := { x.main with psw := psw &&& pswMask }, chk := { x.chk with psw := psw &&& pswMask } }

/-- What ERET leaves, the block's PSW, EPC and TID given: ARMED clear, both copies' PSW set, the tenant switched, on at the EPC. -/
def State.returned (s : State) (p : Pair) (psw epc : Word) (n : Tenant) : State :=
  (((s.setFld F.LP_EXC_STAT_ARMED p 0 0).modPair p fun x => x.withPsw psw).switchTid p n).modPair p
    fun y => PairSt.endStep { y.fetchAt (jumpTarget epc) with resv := none }

/-- ERET above User from a readable block: refused or carried out as the block says. -/
theorem exec_eret_block (h : s.issues p) (hs : (s.pair p).slot = none) (hp : (s.pair p).main.priv = (s.pair p).chk.priv)
    (hu : (s.pair p).main.priv ≠ .user) (ht : (s.pair p).main.tsbr = (s.pair p).chk.tsbr) {t : Nat}
    (htsb : aliasBase p + (s.pair p).main.tsbr.toNat = t) (h8 : s.cleanAt (t + 0x80) 8) (h4 : s.cleanAt (t + 0x94) 4) :
    exec (.eret p) s = .next (if eretForbidden (s.pair p).main.priv (s.pair p).tid (s.tsbTid t) (s.word (t + 0x80)) then
      (s.awake p).privileged p else (s.awake p).returned p (s.word (t + 0x80)) (s.word (t + 0x84)) (s.tsbTid t)) := by
  change execEret p s = _
  refine issue_next_of h ?_
  rw [State.noSlot, if_neg (by simp [hs]), State.privAs_of (b := false) _ _ (by simp [hu]) (by simp [← hp, hu]),
    if_neg (by simp)]
  simp only [State.pair_awake_same]
  rw [State.compared_of _ _ (by simpa using ht), htsb]
  rw [State.eccRead_clean (s := s.awake p) (a := t + 0x80) (n := 8) h8]
  rw [State.eccRead_clean (s := s.awake p) (a := t + 0x94) (n := 4) h4]
  rw [if_neg (by simp)]
  rw [State.privAs_of (b := eretForbidden (s.pair p).main.priv (s.pair p).tid (s.tsbTid t) (s.word (t + 0x80))) _ _
    (by rw [State.pair_awake_same]; rfl) (by rw [State.pair_awake_same, hp]; rfl)]
  rfl

/-- The pair after ERET. -/
def PairSt.returned (x : PairSt) (psw epc : Word) (n : Tenant) (flushed : Bool) : PairSt :=
  PairSt.endStep { ((x.withPsw psw).asTenant n flushed).fetchAt (jumpTarget epc) with resv := none }

/-- ERET changes two registers and the pair. -/
theorem State.returned_eq (s : State) (p : Pair) (psw epc : Word) (n : Tenant) : s.returned p psw epc n =
    (if (s.pair p).tid = n then s.setFld F.LP_EXC_STAT_ARMED p 0 0
      else (s.setFld F.LP_EXC_STAT_ARMED p 0 0).count F.PTU_PAIRk_STAT_SWITCHES p 0).setPair p
      ((s.pair p).returned psw epc n (decide ((s.pair p).tid ≠ n) && s.flushDue (s.pair p).tid n)) := by
  have hdue : (s.setFld F.LP_EXC_STAT_ARMED p 0 0).flushDue (s.pair p).tid n = s.flushDue (s.pair p).tid n := by
    refine State.flushDue_congr fun f i hf => State.fld_setFld_ne _ _ ?_
    have hi := i.isLt
    have hp := p.isLt
    rcases hf with ⟨rfl, rfl⟩ | rfl <;>
      simp [RegName.addr, RegName.base, RegName.dims, F.FL_PL_LEVEL, F.LP_EXC_STAT_ARMED, F.PTU_TENt_CFG_PFL] <;> omega
  have hswitch : ∀ x : PairSt, x.tid = (s.pair p).tid → ((s.setFld F.LP_EXC_STAT_ARMED p 0 0).setPair p x).switchTid p n =
      (if (s.pair p).tid = n then s.setFld F.LP_EXC_STAT_ARMED p 0 0
        else (s.setFld F.LP_EXC_STAT_ARMED p 0 0).count F.PTU_PAIRk_STAT_SWITCHES p 0).setPair p
        (x.asTenant n (decide ((s.pair p).tid ≠ n) && s.flushDue (s.pair p).tid n)) := by
    intro x hx
    rw [State.switchTid_eq, State.pair_setPair_same, hx, ← hdue]
    by_cases hn : (s.pair p).tid = n
    · rw [if_pos hn, if_pos hn, State.setPair_setPair]; rfl
    · rw [if_neg hn, if_neg hn]
      exact State.setPair_setPair ((s.setFld F.LP_EXC_STAT_ARMED p 0 0).count F.PTU_PAIRk_STAT_SWITCHES p 0) p x _
  rw [State.returned, State.modPair_eq (s.setFld _ _ _ _), hswitch (((s.setFld F.LP_EXC_STAT_ARMED p 0 0).pair p).withPsw psw) rfl, State.modPair_eq, State.pair_setPair_same,
    State.setPair_setPair]
  rfl

/-- What the pair is after ERET. -/
theorem PairSt.returned_fields (x : PairSt) (psw epc : Word) (n : Tenant) (flushed : Bool) :
    let y := x.returned psw epc n flushed
    let back (k : Copy) : Copy :=
      { k with psw := psw &&& pswMask, pred := if flushed then Pred.init else k.pred.fetch (jumpTarget epc).toNat }
    y.pc = jumpTarget epc ∧ y.resv = none ∧ y.tid = n ∧ y.main = back x.main ∧ y.chk = back x.chk := by
  cases flushed <;> simp only [PairSt.returned, PairSt.endStep] <;> split <;> exact ⟨rfl, rfl, rfl, rfl, rfl⟩

/-- What ERET leaves of the registers: ARMED clear, a change of tenant counted, the others as they were. -/
theorem State.returned_regs (s : State) (p : Pair) (psw epc : Word) (n : Tenant) :
    (s.returned p psw epc n).fld F.LP_EXC_STAT_ARMED p 0 = 0 ∧
    (∀ b, b ≠ RegName.LP_EXC_STAT.addr p 0 → b ≠ RegName.PTU_PAIRk_STAT.addr p 0 →
      (s.returned p psw epc n).regs.get b (regDefault b) = s.regs.get b (regDefault b)) ∧
    (s.returned p psw epc n).fld F.PTU_PAIRk_STAT_SWITCHES p 0 =
      (s.fld F.PTU_PAIRk_STAT_SWITCHES p 0 + (if (s.pair p).tid = n then 0 else 1)) % 65536 := by
  have hp := p.isLt
  have hne : RegName.LP_EXC_STAT.addr p 0 ≠ RegName.PTU_PAIRk_STAT.addr p 0 := by
    simp [RegName.addr, RegName.base, RegName.dims]; omega
  have hsw := getBits_lt (s.reg .PTU_PAIRk_STAT p 0) 31 16
  rw [State.returned_eq]
  simp only [State.fld_setPair]
  by_cases hn : (s.pair p).tid = n
  · simp only [if_pos hn]
    refine ⟨State.fld_setFld_same _ _ _ _ _ (by decide), fun b hb _ => SMap.get_put_ne _ _ _ _ hb, ?_⟩
    rw [State.fld_setFld_ne _ _ hne.symm]
    exact (Nat.mod_eq_of_lt hsw).symm
  · simp only [if_neg hn]
    refine ⟨?_, fun b hb hb' => (SMap.get_put_ne _ _ _ _ hb').trans (SMap.get_put_ne _ _ _ _ hb), ?_⟩
    · rw [State.count, State.fld_setFld_ne _ _ hne, State.fld_setFld_same _ _ _ _ _ (by decide)]; rfl
    · rw [State.fld_count_same _ _ _ _ (by decide), State.fld_setFld_ne _ _ hne.symm]
      rfl

/-- ERET touches no other pair and no part of the state but its registers and pairs. -/
theorem State.returned_frame (s : State) (p : Pair) (psw epc : Word) (n : Tenant) :
    s.returned p psw epc n = { s with regs := (s.returned p psw epc n).regs, pairs := (s.returned p psw epc n).pairs } ∧
    ∀ q : Pair, q ≠ p → (s.returned p psw epc n).pair q = s.pair q := by
  rw [State.returned_eq]
  by_cases hn : (s.pair p).tid = n <;> simp only [hn, if_true, if_false] <;>
    exact ⟨rfl, fun q hq => State.pair_setPair_ne _ _ hq⟩

/-- Settles O14: its refusals in the order the model judges them; what it restores field by field. -/
theorem exceptionReturn : Obligations.ExceptionReturn := by
  unfold Obligations.ExceptionReturn
  intro s p h hs x tsb psw new mode bad hp
  refine ⟨exec_eret_user h hs hp, exec_eret_tsbr h hs hp, fun h8 h4 ht => ?_⟩
  have hnew : new < 8 := getBits_lt _ 2 0
  have hbad := eretForbidden_iff x.main.priv x.tid hnew psw
  refine ⟨fun hb => ?_, fun hb => ?_⟩
  · by_cases hu : x.main.priv = .user
    · exact exec_eret_user h hs hp hu
    · rw [exec_eret_block h hs hp hu ht rfl h8 h4]
      exact congrArg _ (if_pos (hbad.2 hb))
  · have hu : x.main.priv ≠ .user := fun e => hb (.inl e)
    refine ⟨(s.awake p).returned p psw (s.word (tsb + 0x84)) (s.tsbTid tsb), ?_, ?_⟩
    · rw [exec_eret_block h hs hp hu ht rfl h8 h4]
      exact congrArg _ (if_neg (mt hbad.1 hb))
    · obtain ⟨harm, hregs, hsw⟩ := (s.awake p).returned_regs p psw (s.word (tsb + 0x84)) (s.tsbTid tsb)
      obtain ⟨hframe, hpairs⟩ := (s.awake p).returned_frame p psw (s.word (tsb + 0x84)) (s.tsbTid tsb)
      have hval : (s.tsbTid tsb).val = new := Nat.mod_eq_of_lt hnew
      have htid : (s.pair p).tid = s.tsbTid tsb ↔ new = x.tid.val := by rw [Fin.ext_iff, hval, eq_comm]
      rw [State.pair_awake_same, show (s.awake p).fld F.PTU_PAIRk_STAT_SWITCHES p 0 = s.fld F.PTU_PAIRk_STAT_SWITCHES p 0 from rfl] at hsw
      have hflush : (decide ((s.pair p).tid ≠ s.tsbTid tsb) && (s.awake p).flushDue (s.pair p).tid (s.tsbTid tsb)) = true ↔
          new ≠ x.tid.val ∧ (s.fld F.FL_PL_LEVEL 0 0 ≠ 0 ∨ s.fld F.PTU_TENt_CFG_PFL x.tid 0 = 1 ∨
            s.fld F.PTU_TENt_CFG_PFL new 0 = 1) := by
        rw [State.flushDue_congr (u := s.awake p) (s := s) fun _ _ _ => rfl, Bool.and_eq_true, State.flushDue_iff, hval,
          decide_eq_true_eq]
        exact and_congr (not_congr htid) Iff.rfl
      refine ⟨harm, hregs, ?_, hframe, fun q hq => (hpairs q hq).trans (State.pair_modPair_ne _ _ _ hq), ?_⟩
      · simpa only [htid] using hsw
      · rw [State.returned_eq, State.pair_setPair_same, State.pair_awake_same]
        generalize (decide ((s.pair p).tid ≠ s.tsbTid tsb) && (s.awake p).flushDue (s.pair p).tid (s.tsbTid tsb)) = f at hflush
        have hfields := PairSt.returned_fields { s.pair p with waiting := false, stc := none } psw (s.word (tsb + 0x84)) (s.tsbTid tsb) f
        generalize PairSt.returned _ _ _ _ f = y at hfields
        obtain ⟨hpc, hresv, htid', hmain, hchk⟩ := hfields
        simp only [← hpc, hflush] at hmain hchk
        exact ⟨hpc, hresv, (congrArg Fin.val htid').trans hval, hmain, hchk⟩

end Sys2Proof.Machine
end

