-- ==== Sys2Proof/Proofs/LoadsStores.lean ====
section
/-! PROOF. Loads and stores: how an access is judged, what each form makes of it, where loaded data lands (R256, R257, R262, R280). -/

namespace Sys2Proof.Machine

variable {s : State} {p : Pair}

/-! ## Judging an access -/

section
variable {a c : Acs} (body : State → State)

theorem State.judged_misalign (h : a.ea.toNat % a.n ≠ 0) (hc : a = c) : s.judged p a c body = s.preciseFault p 0x05 a.info a.ea := by
  rw [State.judged, if_pos h, State.compared_of _ _ (by simp [hc])]

theorem State.judged_misalign_ne (h : a.ea.toNat % a.n ≠ 0) (hc : a ≠ c) : s.judged p a c body = s.mismatch p 3 := by
  rw [State.judged, if_pos h, State.compared_of_not _ _ (by simpa using hc)]

theorem State.judged_ne (h : a.ea.toNat % a.n = 0) (hc : a ≠ c) : s.judged p a c body = s.mismatch p 1 := by
  rw [State.judged, if_neg (by omega), State.compared_of_not _ _ (by simpa using hc)]

theorem State.judged_window (h : a.ea.toNat % a.n = 0) (hc : a = c)
    (hw : s.permitted (s.pairReq p) (if a.store then .write else .read) a.ea.toNat a.n = false) :
    s.judged p a c body =
      (s.violation (s.pairReq p) (if a.store then .write else .read) a.ea.toNat).preciseFault p 0x06 a.info a.ea := by
  rw [State.judged, if_neg (by omega), State.compared_of _ _ (by simp [hc])]
  simp only [hw, Bool.false_eq_true, if_false]

theorem State.judged_run (h : a.ea.toNat % a.n = 0) (hc : a = c)
    (hw : s.permitted (s.pairReq p) (if a.store then .write else .read) a.ea.toNat a.n = true) :
    s.judged p a c body = body (if a.ea.toNat < 0x100000 then s else s.access (s.pairReq p).master) := by
  rw [State.judged, if_neg (by omega), State.compared_of _ _ (by simp [hc])]
  simp only [hw, if_true]

end

/-- The state in which the pair's access at `e` is made: one outside the TCMs takes its place in the bus cycle. -/
def State.atBus (s : State) (p : Pair) (e : Nat) : State :=
  if e < 0x100000 then s.awake p else (s.awake p).access (s.pairReq p).master

@[simp] theorem State.pair_atBus (e : Nat) : (s.atBus p e).pair p = { s.pair p with waiting := false, stc := none } := by
  unfold State.atBus; split <;> simp

@[simp] theorem State.pairReq_atBus (e : Nat) : (s.atBus p e).pairReq p = s.pairReq p := by simp [State.pairReq]

/-- A load from flash is remembered for its lc: the busy word stands in for its data where a command begins in its bank (R326). -/
def State.toldLoad (s : State) (p : Pair) (e n : Nat) (ext : Nat → BitVec 64) : State :=
  if inFlash e then
    { s with cyc := .load p (flBank e) (ext (busyBytes 0xDEAD0100 e n)) (ext (busyBytes 0xDEAD0200 e n)) :: s.cyc } else s

/-- A load-linked reserves the granule of its address, where there are reservations (R266). -/
def State.linked (s : State) (p : Pair) (e : Nat) (link : Bool) : State :=
  if link then s.modPair p fun x => { x with resv := (granule p e).or x.resv } else s

/-- What a load that is let through does on the bus. -/
def State.loadOn (s : State) (p : Pair) (a : Acs) (d : LoadDest) (ext : Nat → BitVec 64) (post : Option (Greg × Word × Word))
    (link : Bool) : State :=
  let give (s : State) (v : Nat) : State :=
    let s := if link then
        match granule p a.ea.toNat with
        | some g => s.modPair p fun x => { x with resv := some g }
        | none => s
      else s
    s.land p a ⟨d, ext v, post⟩
  match s.busRead (s.pairReq p) false a.ea.toNat a.n with
  | (.data v, s) =>
    let alt (w : Word) : BitVec 64 := ext (busyBytes w a.ea.toNat a.n)
    give (if inFlash a.ea.toNat then
      { s with cyc := .load p (flBank a.ea.toNat) (alt 0xDEAD0100) (alt 0xDEAD0200) :: s.cyc } else s) v
  | (.busy w, s) => give s (busyBytes w a.ea.toNat a.n)
  | (.error, s) => s.preciseFault p 0x09 a.info a.ea

section
variable {a : Acs} {d : LoadDest} {ext : Nat → BitVec 64} {post : Option (Greg × Word × Word)} {link : Bool} {t : State}

/-- The reservation that a load-linked sets. -/
theorem State.linked_eq (s : State) (e : Nat) : (if link then
      match granule p e with
      | some g => s.modPair p fun x => { x with resv := some g }
      | none => s
    else s) = s.linked p e link := by
  cases link
  · rfl
  · cases hg : granule p e
    · simp only [State.linked, hg, if_true, Option.none_or]
      exact (s.setPair_self p).symm
    · simp [State.linked, hg]

theorem State.loadOn_data {v : Nat} (h : s.busRead (s.pairReq p) false a.ea.toNat a.n = (.data v, t)) :
    s.loadOn p a d ext post link = ((t.toldLoad p a.ea.toNat a.n ext).linked p a.ea.toNat link).land p a ⟨d, ext v, post⟩ := by
  unfold State.loadOn
  rw [h, ← State.linked_eq]
  rfl

theorem State.loadOn_busy {w : Word} (h : s.busRead (s.pairReq p) false a.ea.toNat a.n = (.busy w, t)) :
    s.loadOn p a d ext post link = (t.linked p a.ea.toNat link).land p a ⟨d, ext (busyBytes w a.ea.toNat a.n), post⟩ := by
  unfold State.loadOn
  rw [h, ← State.linked_eq]

theorem State.loadOn_error (h : s.busRead (s.pairReq p) false a.ea.toNat a.n = (.error, t)) :
    s.loadOn p a d ext post link = t.preciseFault p 0x09 a.info a.ea := by
  unfold State.loadOn
  rw [h]

end

/-! ## What a load makes of its access -/

/-- The access of a copy at address `ea`. -/
def Copy.acs (c : Copy) (ea : Copy → Word) (n sz : Nat) (store : Bool) : Acs := ⟨ea c, n, sz, store, c.priv⟩

theorem Copy.acs_eq {x y : Copy} {ea : Copy → Word} (hp : y.priv = x.priv) (n sz : Nat) (store : Bool) :
    x.acs ea n sz store = y.acs ea n sz store ↔ ea y = ea x := by
  simp [Copy.acs, hp, eq_comm]

/-- Instruction `i` accesses address `ea` of each copy, and is judged by it. -/
def State.judges (s : State) (p : Pair) (i : Instr) (ea : Copy → Word) (n sz : Nat) (store : Bool) : Prop :=
  ∃ body, exec i s = .next ((s.awake p).judged p ((s.pair p).main.acs ea n sz store) ((s.pair p).chk.acs ea n sz store) body)

section
variable {i : Instr} {ea : Copy → Word} {n sz info : Nat} {store : Bool} (hi : s.judges p i ea n sz store)
  (hinfo : (if store then 8 else 0) + sz = info) (hp : (s.pair p).chk.priv = (s.pair p).main.priv)
include hi hp

/-- Where the copies' addresses differ, the misaligned access shows at its entry only (R247, R248). -/
theorem State.judges_ne (he : ea (s.pair p).chk ≠ ea (s.pair p).main) :
    exec i s = .next ((s.awake p).mismatch p (if (ea (s.pair p).main).toNat % n ≠ 0 then 3 else 1)) := by
  obtain ⟨body, hi⟩ := hi
  rw [hi]
  split
  · next h => rw [State.judged_misalign_ne _ h (mt (Copy.acs_eq hp _ _ _).1 he)]
  · next h => rw [State.judged_ne _ (Decidable.not_not.1 h) (mt (Copy.acs_eq hp _ _ _).1 he)]

include hinfo

theorem State.judges_misalign (he : ea (s.pair p).chk = ea (s.pair p).main) (h : (ea (s.pair p).main).toNat % n ≠ 0) :
    exec i s = .next ((s.awake p).preciseFault p 0x05 info (ea (s.pair p).main)) := by
  obtain ⟨body, hi⟩ := hi
  rw [hi, State.judged_misalign _ h ((Copy.acs_eq hp _ _ _).2 he), ← hinfo]
  rfl

theorem State.judges_window {k : Kind} (hk : (if store then .write else .read) = k)
    (he : ea (s.pair p).chk = ea (s.pair p).main) (h : (ea (s.pair p).main).toNat % n = 0)
    (hw : s.permitted (s.pairReq p) k (ea (s.pair p).main).toNat n = false) : exec i s =
      .next (((s.awake p).violation (s.pairReq p) k (ea (s.pair p).main).toNat).preciseFault p 0x06 info (ea (s.pair p).main)) := by
  subst hk
  obtain ⟨body, hi⟩ := hi
  rw [hi, State.judged_window _ h ((Copy.acs_eq hp _ _ _).2 he) (by rw [State.pairReq_awake]; exact hw), ← hinfo, State.pairReq_awake]
  rfl

/-- The faults of an access, in the order in which they are judged. -/
theorem State.judges_faults {e : Word} (heq : ea (s.pair p).main = e) :
    (e.toNat % n ≠ 0 → ea (s.pair p).chk = e → exec i s = .next ((s.awake p).preciseFault p 0x05 info e)) ∧
    (e.toNat % n ≠ 0 → ea (s.pair p).chk ≠ e → exec i s = .next ((s.awake p).mismatch p 3)) ∧
    (e.toNat % n = 0 → ea (s.pair p).chk ≠ e → exec i s = .next ((s.awake p).mismatch p 1)) := by
  subst heq
  refine ⟨fun h he => State.judges_misalign hi hinfo hp he h, fun h he => ?_, fun h he => ?_⟩
  · rw [State.judges_ne hi hp he, if_pos h]
  · rw [State.judges_ne hi hp he, if_neg (not_not.2 h)]

end

/-- Instruction `i` is a load by the pair from address `ea` of each copy. -/
def State.loads (s : State) (p : Pair) (i : Instr) (ea : Copy → Word) (n sz : Nat) (d : LoadDest) (ext : Nat → BitVec 64)
    (post : Option (Greg × Word × Word)) (link : Bool) : Prop :=
  exec i s = .next ((s.awake p).loadAt p ((s.pair p).main.acs ea n sz false) ((s.pair p).chk.acs ea n sz false) d ext post link)

/-- The widening of SZ code k, as a word's load writes it. -/
def widened (k : Fin 8) (v : Nat) : BitVec 64 := (szExtend k v).setWidth 64

section
variable (h : s.issues p)
include h

/-- A displacement load issues. -/
theorem loadDisp_loads (d a : Greg) (imm : BitVec 16) (sz : Fin 8) : loadDisp p d a imm sz s = .next ((s.awake p).loadAt p
    ((s.pair p).main.acs (fun c => c.eaDisp a imm) (szBytes sz) sz.val false)
    ((s.pair p).chk.acs (fun c => c.eaDisp a imm) (szBytes sz) sz.val false) (.greg d) (widened sz) none false) :=
  issue_next_of h (by rw [State.pair_awake_same]; rfl)

theorem lds_loads (d : Greg) (bk : Fin 4) {sz : Fin 8} (hz : szListed false sz = true) (off : BitVec 16) :
    s.loads p (.lds p d bk sz off) (fun c => c.eaShort bk off) (szBytes sz) sz.val (.greg d) (widened sz) none false := by
  change execLds p d bk sz off s = _
  refine issue_next_of h ?_
  rw [State.pair_awake_same, if_neg (by simp [hz])]; rfl

theorem ldp_loads (d a : Greg) {mode : Fin 4} (hm : mode = 1 ∨ mode = 2) (n : Fin 4) {sz : Fin 8} (hz : szListed false sz = true)
    (step : BitVec 9) : s.loads p (.ldp p d a mode n sz step) (fun c => c.gr a) (szBytes sz) sz.val (.greg d) (widened sz)
      (if d = a then none else some (a, (s.pair p).main.postUpdate a mode n sz step, (s.pair p).chk.postUpdate a mode n sz step))
      false := by
  change execLdp p d a mode n sz step s = _
  refine issue_next_of h ?_
  rw [State.pair_awake_same, if_neg (by rcases hm with rfl | rfl <;> simp [badPtr, hz])]; rfl

theorem ldl_loads (d a : Greg) : s.loads p (.ldl p d a) (fun c => c.gr a) 4 2 (.greg d) (BitVec.ofNat 64) none true := by
  change execLdl p d a s = _
  exact issue_next_of h (by rw [State.pair_awake_same]; rfl)

theorem flds_loads (d : Freg) (a : Greg) (imm : BitVec 16) :
    s.loads p (.flds p d a imm) (fun c => c.eaDisp a imm) 4 2 (.freg d) (BitVec.ofNat 64) none false := by
  change execFlds p d a imm s = _
  exact issue_next_of h (by rw [State.pair_awake_same]; rfl)

theorem fldd_loads (d : Freg) (a : Greg) (imm : BitVec 16) :
    s.loads p (.fldd p d a imm) (fun c => c.eaDisp a imm) 8 Config.szDouble.val (.freg d) (BitVec.ofNat 64) none false := by
  change execFldd p d a imm s = _
  exact issue_next_of h (by rw [State.pair_awake_same]; rfl)

theorem ldb_loads (d a : Greg) (imm : BitVec 16) :
    s.loads p (.ldb p d a imm) (fun c => c.eaDisp a imm) 1 4 (.greg d) (widened 4) none false := loadDisp_loads h d a imm 4
theorem ldbu_loads (d a : Greg) (imm : BitVec 16) :
    s.loads p (.ldbu p d a imm) (fun c => c.eaDisp a imm) 1 0 (.greg d) (widened 0) none false := loadDisp_loads h d a imm 0
theorem ldh_loads (d a : Greg) (imm : BitVec 16) :
    s.loads p (.ldh p d a imm) (fun c => c.eaDisp a imm) 2 5 (.greg d) (widened 5) none false := loadDisp_loads h d a imm 5
theorem ldhu_loads (d a : Greg) (imm : BitVec 16) :
    s.loads p (.ldhu p d a imm) (fun c => c.eaDisp a imm) 2 1 (.greg d) (widened 1) none false := loadDisp_loads h d a imm 1
theorem ldw_loads (d a : Greg) (imm : BitVec 16) :
    s.loads p (.ldw p d a imm) (fun c => c.eaDisp a imm) 4 2 (.greg d) (widened 2) none false := loadDisp_loads h d a imm 2

end

section
variable {i : Instr} {ea : Copy → Word} {n sz : Nat} {d : LoadDest} {ext : Nat → BitVec 64} {post : Option (Greg × Word × Word)}
  {link : Bool} (hi : s.loads p i ea n sz d ext post link)
include hi

/-- A load is judged by its address. -/
theorem State.judges_of_loads : s.judges p i ea n sz false := ⟨_, hi⟩

/-- What a permitted, aligned load does on the bus. -/
theorem State.loads_run (h : (ea (s.pair p).main).toNat % n = 0) (hp : (s.pair p).chk.priv = (s.pair p).main.priv)
    (he : ea (s.pair p).chk = ea (s.pair p).main) (hw : s.permitted (s.pairReq p) .read (ea (s.pair p).main).toNat n = true) :
    exec i s = .next ((s.atBus p (ea (s.pair p).main).toNat).loadOn p ((s.pair p).main.acs ea n sz false) d ext post link) := by
  rw [hi, State.loadAt, State.judged_run _ h ((Copy.acs_eq hp _ _ _).2 he) (by rw [State.pairReq_awake]; exact hw),
    State.pairReq_awake]
  rfl

/-- A load that the bus answers with data. -/
theorem State.loads_data (h : (ea (s.pair p).main).toNat % n = 0) (hp : (s.pair p).chk.priv = (s.pair p).main.priv)
    (he : ea (s.pair p).chk = ea (s.pair p).main) (hw : s.permitted (s.pairReq p) .read (ea (s.pair p).main).toNat n = true)
    {v : Nat} {t : State} (ht : (s.atBus p (ea (s.pair p).main).toNat).busRead (s.pairReq p) false (ea (s.pair p).main).toNat n =
      (.data v, t)) :
    exec i s = .next (((t.toldLoad p (ea (s.pair p).main).toNat n ext).linked p (ea (s.pair p).main).toNat link).land p
      ((s.pair p).main.acs ea n sz false) ⟨d, ext v, post⟩) := by
  rw [State.loads_run hi h hp he hw, State.loadOn_data (by rw [State.pairReq_atBus]; exact ht)]
  rfl

/-- A load that the bus answers with the busy word of a flash bank (R314). -/
theorem State.loads_busy (h : (ea (s.pair p).main).toNat % n = 0) (hp : (s.pair p).chk.priv = (s.pair p).main.priv)
    (he : ea (s.pair p).chk = ea (s.pair p).main) (hw : s.permitted (s.pairReq p) .read (ea (s.pair p).main).toNat n = true)
    {w : Word} {t : State} (ht : (s.atBus p (ea (s.pair p).main).toNat).busRead (s.pairReq p) false (ea (s.pair p).main).toNat n =
      (.busy w, t)) :
    exec i s = .next ((t.linked p (ea (s.pair p).main).toNat link).land p ((s.pair p).main.acs ea n sz false)
      ⟨d, ext (busyBytes w (ea (s.pair p).main).toNat n), post⟩) := by
  rw [State.loads_run hi h hp he hw, State.loadOn_busy (by rw [State.pairReq_atBus]; exact ht)]
  rfl

theorem State.loads_error (h : (ea (s.pair p).main).toNat % n = 0) (hp : (s.pair p).chk.priv = (s.pair p).main.priv)
    (he : ea (s.pair p).chk = ea (s.pair p).main) (hw : s.permitted (s.pairReq p) .read (ea (s.pair p).main).toNat n = true)
    {t : State} (ht : (s.atBus p (ea (s.pair p).main).toNat).busRead (s.pairReq p) false (ea (s.pair p).main).toNat n = (.error, t)) :
    exec i s = .next (t.preciseFault p 0x09 sz (ea (s.pair p).main)) := by
  rw [State.loads_run hi h hp he hw, State.loadOn_error (by rw [State.pairReq_atBus]; exact ht)]
  simp [Acs.info, Copy.acs]

end

/-! ## Landing -/

theorem State.land_tcm {c : Acs} (l : Stall) (h : c.ea.toNat < 0x100000) : s.land p c l = (s.modPair p fun x => x.landed l).retire p :=
  if_pos h

theorem sramBank_isSome (a : Nat) : (sramBank a).isSome = true ↔ 0x20000000 ≤ a ∧ a < 0x21800000 := by
  unfold sramBank; split <;> simp [*]

/-- A load from outside the TCMs stalls its pair until the data return (R262). -/
theorem State.land_far {c : Acs} (l : Stall) (h : 0x100000 ≤ c.ea.toNat) :
    ((s.land p c l).pair p).stall = some l ∧ (s.land p c l).coreUp p = false ∧
    (s.land p c l).cal = (s.cal.filter fun k => k.2 ≠ .loadDataReturn p) ++
      [(s.now + ((s.pair p).sbufWait c.ea.toNat c.n +
        (if inFlash c.ea.toNat then 8 + 2 * (s.fld F.FL_WS_WS 0 0 + 1)
          else if 0x40000000 ≤ c.ea.toNat ∧ c.ea.toNat < 0x41000000 then 14 else 10) +
        (if 0x20000000 ≤ c.ea.toNat ∧ c.ea.toNat < 0x21800000 then 0 else Config.busWait s.fresh)), .loadDataReturn p)] ∧
    s.onlyPair { s.land p c l with cal := s.cal, fresh := s.fresh } p := by
  have hland : s.land p c l = ((s.setPair p { s.pair p with stall := some l }).sched
      (((s.setPair p { s.pair p with stall := some l }).pair p).sbufWait c.ea.toNat c.n + s.loadTime c.ea.toNat + s.loadWait c.ea.toNat)
      (.loadDataReturn p)).draw := if_neg (by omega)
  have hstall : ((s.land p c l).pair p).stall = some l := by
    rw [hland]; exact congrArg PairSt.stall (s.pair_setPair_same p _)
  refine ⟨hstall, by simp [State.coreUp, hstall], ?_, ?_⟩
  · rw [hland, State.pair_setPair_same]
    simp only [State.loadWait, sramBank_isSome]
    rfl
  · rw [hland]
    exact ⟨rfl, fun q hq => State.pair_setPair_ne _ _ hq⟩

/-- Retiring an instruction and landing a load leave a halt request as it is. -/
theorem PairSt.haltReq_retire (x : PairSt) : x.retire.haltReq = x.haltReq := by
  unfold PairSt.retire PairSt.endStep
  cases x.slot <;> simp only <;> split <;> rfl

theorem PairSt.haltReq_landed (x : PairSt) (l : Stall) : (x.landed l).haltReq = x.haltReq := by
  unfold PairSt.landed
  cases l.post <;> rfl

/-- The data return writes the loaded value and retires the load. -/
theorem exec_loadDataReturn {l : Stall} (hl : (s.pair p).stall = some l) (hm : s.mode.cores = true) (hh : (s.pair p).haltReq = false) :
    exec (.loadDataReturn p) s = .next (((s.unsched (.loadDataReturn p)).modPair p fun x => x.landed l).retire p) := by
  change execLoadDataReturn p s = _
  unfold execLoadDataReturn
  rw [hl]
  simp only [hm, if_true]
  have hq : (((((s.unsched (.loadDataReturn p)).modPair p fun x => x.landed l).retire p)).pair p).haltReq = false := by
    rw [State.retire_eq_modPair, State.pair_modPair_same, PairSt.haltReq_retire, State.pair_modPair_same, PairSt.haltReq_landed]
    exact hh
  rw [hq]
  rfl

/-- Settles O6: each form is a load from its address; what such a load does by the bus's answer; its landing. -/
theorem loads : Obligations.Loads := by
  unfold Obligations.Loads
  refine ⟨?_, fun s p c l => ⟨fun h => State.land_tcm l h, fun h => State.land_far l h, fun hl hm hh => exec_loadDataReturn hl hm hh,
    fun x _ g v e => by subst e; rfl⟩⟩
  intro s p d a fd imm bk mode n sz step h hz hm x w z post f hf
  have delivers : ∀ {i : Instr} {ea : Copy → Word} {len code : Nat} {dest : LoadDest} {ext : Nat → BitVec 64}
      {upd : Option (Greg × Word × Word)}, s.loads p i ea len code dest ext upd false →
      ea x.chk = ea x.main → x.chk.priv = x.main.priv → (ea x.main).toNat % len = 0 →
      s.permitted (s.pairReq p) .read (ea x.main).toNat len = true →
      ∀ t, (∀ v, (s.atBus p (ea x.main).toNat).busRead (s.pairReq p) false (ea x.main).toNat len = (.data v, t) →
          exec i s = .next ((t.toldLoad p (ea x.main).toNat len ext).land p ⟨ea x.main, len, code, false, x.main.priv⟩ ⟨dest, ext v, upd⟩)) ∧
        (∀ m, (s.atBus p (ea x.main).toNat).busRead (s.pairReq p) false (ea x.main).toNat len = (.busy m, t) →
          exec i s = .next (t.land p ⟨ea x.main, len, code, false, x.main.priv⟩ ⟨dest, ext (busyBytes m (ea x.main).toNat len), upd⟩)) :=
    fun hi he hp hl hw t => ⟨fun v ht => State.loads_data hi hl hp he hw ht, fun m ht => State.loads_busy hi hl hp he hw ht⟩
  simp only [List.mem_cons, List.not_mem_nil, or_false] at hf
  rcases hf with rfl | rfl | rfl | rfl | rfl | rfl | rfl | rfl | rfl
  · exact delivers (ldb_loads h d a imm)
  · exact delivers (ldbu_loads h d a imm)
  · exact delivers (ldh_loads h d a imm)
  · exact delivers (ldhu_loads h d a imm)
  · exact delivers (ldw_loads h d a imm)
  · exact delivers (lds_loads h d bk hz imm)
  · exact delivers (ldp_loads h d a hm n hz step)
  · exact delivers (flds_loads h fd a imm)
  · exact delivers (fldd_loads h fd a imm)

/-! ## Stores -/

/-- What a store that is let through does: its bytes are written, outside the TCMs through the store buffer. -/
def State.storeOn (s : State) (p : Pair) (a : Acs) (v : Nat) (after : PairSt → PairSt) : State :=
  let t := s.busWrite (s.pairReq p) a.ea.toNat v a.n
  (t.modPair p fun y =>
    if a.ea.toNat < 0x100000 then after y
    else after { y with late := if t.ans.err then y.late ++ [⟨a.ea, y.tid, y.tag⟩] else y.late
                        sbuf := y.sbuf ++ [(a.ea.toNat, a.n)], tag := y.tag + 1 }).retire p

/-- A store that finds room among the late errors is judged, then compared, then carried out. -/
theorem State.storeAt_room {a c : Acs} {v w : Nat} (after : PairSt → PairSt)
    (hl : a.ea.toNat < 0x100000 ∨ (s.pair p).late.length < 4) : s.storeAt p a c v w after =
      s.judged p a c fun s => s.compared p (storeGroup a.ea.toNat) (v == w) fun s => s.storeOn p a v after := by
  have hfull : ¬(decide (0x100000 ≤ a.ea.toNat) && decide (4 ≤ (s.pair p).late.length)) = true := by
    rw [Bool.and_eq_true]
    rintro ⟨hout, hfull⟩
    have := of_decide_eq_true hout
    have := of_decide_eq_true hfull
    omega
  rw [State.storeAt, if_neg hfull]
  refine congrArg _ (funext fun u => congrArg _ (funext fun u => ?_))
  refine congrArg (fun t => State.retire t p) (State.modPair_congr _ _ ?_)
  generalize State.busWrite _ _ _ _ _ = t
  by_cases hlow : a.ea.toNat < 0x100000
  · have hd : decide (0x100000 ≤ a.ea.toNat) = false := decide_eq_false (by omega)
    simp only [hd, hlow, Bool.and_false, Bool.false_eq_true, if_false, if_true]
  · have hd : decide (0x100000 ≤ a.ea.toNat) = true := decide_eq_true (by omega)
    simp only [hd, hlow, Bool.and_true, if_false, if_true, PairSt.sbufPut]
    cases t.ans.err <;> rfl

/-- Instruction `i` is a store by the pair to address `ea` of each copy, of value `v` of each. -/
def State.stores (s : State) (p : Pair) (i : Instr) (ea : Copy → Word) (n sz : Nat) (v : Copy → Nat) (after : PairSt → PairSt) : Prop :=
  exec i s = .next ((s.awake p).storeAt p ((s.pair p).main.acs ea n sz true) ((s.pair p).chk.acs ea n sz true) (v (s.pair p).main)
    (v (s.pair p).chk) after)

section
variable (h : s.issues p)
include h

theorem storeDisp_stores (d a : Greg) (imm : BitVec 16) (sz : Fin 8) : storeDisp p d a imm sz s = .next ((s.awake p).storeAt p
    ((s.pair p).main.acs (fun c => c.eaDisp a imm) (szBytes sz) sz.val true)
    ((s.pair p).chk.acs (fun c => c.eaDisp a imm) (szBytes sz) sz.val true)
    (((s.pair p).main.gr d).toNat % 256 ^ szBytes sz) (((s.pair p).chk.gr d).toNat % 256 ^ szBytes sz) id) :=
  issue_next_of h (by rw [State.pair_awake_same]; rfl)

theorem stb_stores (d a : Greg) (imm : BitVec 16) :
    s.stores p (.stb p d a imm) (fun c => c.eaDisp a imm) 1 0 (fun c => (c.gr d).toNat % 256 ^ 1) id := storeDisp_stores h d a imm 0
theorem sth_stores (d a : Greg) (imm : BitVec 16) :
    s.stores p (.sth p d a imm) (fun c => c.eaDisp a imm) 2 1 (fun c => (c.gr d).toNat % 256 ^ 2) id := storeDisp_stores h d a imm 1
theorem stw_stores (d a : Greg) (imm : BitVec 16) :
    s.stores p (.stw p d a imm) (fun c => c.eaDisp a imm) 4 2 (fun c => (c.gr d).toNat % 256 ^ 4) id := storeDisp_stores h d a imm 2

theorem sts_stores (d : Greg) (bk : Fin 4) {sz : Fin 8} (hz : szListed true sz = true) (off : BitVec 16) :
    s.stores p (.sts p d bk sz off) (fun c => c.eaShort bk off) (szBytes sz) sz.val (fun c => (c.gr d).toNat % 256 ^ szBytes sz) id := by
  change execSts p d bk sz off s = _
  refine issue_next_of h ?_
  rw [State.pair_awake_same, if_neg (by simp [hz])]; rfl

theorem stp_stores (d a : Greg) {mode : Fin 4} (hm : mode = 1 ∨ mode = 2) (n : Fin 4) {sz : Fin 8} (hz : szListed true sz = true)
    (step : BitVec 9) : s.stores p (.stp p d a mode n sz step) (fun c => c.gr a) (szBytes sz) sz.val
      (fun c => (c.gr d).toNat % 256 ^ szBytes sz) (fun y =>
        { y with main := y.main.setG a (y.main.postUpdate a mode n sz step), chk := y.chk.setG a (y.chk.postUpdate a mode n sz step) }) := by
  change execStp p d a mode n sz step s = _
  refine issue_next_of h ?_
  rw [State.pair_awake_same, if_neg (by rcases hm with rfl | rfl <;> simp [badPtr, hz])]; rfl

theorem fsts_stores (d : Freg) (a : Greg) (imm : BitVec 16) :
    s.stores p (.fsts p d a imm) (fun c => c.eaDisp a imm) 4 2 (fun c => (c.fr d).toNat % 2 ^ 32) id := by
  change execFsts p d a imm s = _
  exact issue_next_of h (by rw [State.pair_awake_same]; rfl)

theorem fstd_stores (d : Freg) (a : Greg) (imm : BitVec 16) :
    s.stores p (.fstd p d a imm) (fun c => c.eaDisp a imm) 8 Config.szDouble.val (fun c => (c.fr d).toNat) id := by
  change execFstd p d a imm s = _
  exact issue_next_of h (by rw [State.pair_awake_same]; rfl)

theorem stc_judges (d a b : Greg) : s.judges p (.stc p d a b) (fun c => c.gr a) 4 2 true :=
  ⟨_, by change execStc p d a b s = _; exact issue_next_of h (by rw [State.pair_awake_same]; rfl)⟩

end

section
variable {i : Instr} {ea : Copy → Word} {n sz : Nat} {v : Copy → Nat} {after : PairSt → PairSt}
  (hi : s.stores p i ea n sz v after)
include hi

/-- A store with room among the late errors is judged by its address. -/
theorem State.judges_of_stores (hl : (ea (s.pair p).main).toNat < 0x100000 ∨ (s.pair p).late.length < 4) :
    s.judges p i ea n sz true := by
  exact ⟨_, hi.trans (congrArg _ (State.storeAt_room _ (by simpa [Copy.acs] using hl)))⟩

end

/-- A pair with a fifth entry in its store buffer issues nothing (R262). -/
theorem issue_sbuf (h : 4 < (s.pair p).sbuf.length) (body : State → State) : issue p body s = .next s :=
  issue_hold (State.boundary_down (by simp [State.coreUp]; omega)) body

section
variable {i : Instr} {ea : Copy → Word} {n sz : Nat} {v : Copy → Nat} {after : PairSt → PairSt}
  (hi : s.stores p i ea n sz v after)
include hi

/-- A permitted, aligned store writes its value and retires. -/
theorem State.stores_run (he : ea (s.pair p).chk = ea (s.pair p).main) (hp : (s.pair p).chk.priv = (s.pair p).main.priv)
    (h : (ea (s.pair p).main).toNat % n = 0) (hw : s.permitted (s.pairReq p) .write (ea (s.pair p).main).toNat n = true)
    (hv : v (s.pair p).main = v (s.pair p).chk) (hl : (ea (s.pair p).main).toNat < 0x100000 ∨ (s.pair p).late.length < 4) :
    let e := (ea (s.pair p).main).toNat
    let t := (s.atBus p e).busWrite (s.pairReq p) e (v (s.pair p).main) n
    exec i s = .next ((t.modPair p fun y =>
      if e < 0x100000 then after y
      else after { y with late := if t.ans.err then y.late ++ [⟨ea (s.pair p).main, y.tid, y.tag⟩] else y.late
                          sbuf := y.sbuf ++ [(e, n)], tag := y.tag + 1 }).retire p) := by
  intro e t
  rw [hi, State.storeAt_room _ (by simpa [Copy.acs] using hl), State.judged_run _ h ((Copy.acs_eq hp _ _ _).2 he)
    (by rw [State.pairReq_awake]; exact hw), State.compared_of _ _ (by simp [hv]), State.pairReq_awake]
  change Host.Outcome.next (State.storeOn (s.atBus p e) p _ _ _) = _
  rw [State.storeOn, State.pairReq_atBus]
  rfl

end

/-- Settles O7: each form is a store to its address; such a store writes and retires. -/
theorem storesWriteData : Obligations.StoresWriteData := by
  unfold Obligations.StoresWriteData
  refine fun s p d a fd imm bk mode n sz step => ⟨fun i hi h => ?_, ?_⟩
  · simp only [List.mem_cons, List.not_mem_nil, or_false] at hi
    rcases hi with rfl | rfl | rfl | rfl | rfl | rfl | rfl
    · change storeDisp p d a imm 0 s = _
      exact issue_sbuf h _
    · change storeDisp p d a imm 1 s = _
      exact issue_sbuf h _
    · change storeDisp p d a imm 2 s = _
      exact issue_sbuf h _
    · change execSts p d bk sz imm s = _
      exact issue_sbuf h _
    · change execStp p d a mode n sz step s = _
      exact issue_sbuf h _
    · change execFsts p fd a imm s = _
      exact issue_sbuf h _
    · change execFstd p fd a imm s = _
      exact issue_sbuf h _
  · intro h hz hm x g keep bump f hf
    simp only [List.mem_cons, List.not_mem_nil, or_false] at hf
    rcases hf with rfl | rfl | rfl | rfl | rfl | rfl | rfl
    · exact State.stores_run (stb_stores h d a imm)
    · exact State.stores_run (sth_stores h d a imm)
    · exact State.stores_run (stw_stores h d a imm)
    · exact State.stores_run (sts_stores h d bk hz imm)
    · exact State.stores_run (stp_stores h d a hm n hz step)
    · exact State.stores_run (fsts_stores h fd a imm)
    · exact State.stores_run (fstd_stores h fd a imm)

/-- Settles O9: every form is judged by its address; a load's bus error is its answer. -/
theorem dataFaults : Obligations.DataFaults := by
  unfold Obligations.DataFaults
  intro s p d a b fd imm bk mode n sz step h hm hl x r z disp short ptr hp
  have load : ∀ {i : Instr} {ea : Copy → Word} {len info : Nat} {dest : LoadDest} {ext : Nat → BitVec 64}
      {upd : Option (Greg × Word × Word)} {link : Bool}, s.loads p i ea len info dest ext upd link →
      let e := (ea x.main).toNat
      (e % len ≠ 0 → ea x.chk = ea x.main → exec i s = .next ((s.awake p).preciseFault p 0x05 info (ea x.main))) ∧
      (e % len ≠ 0 → ea x.chk ≠ ea x.main → exec i s = .next ((s.awake p).mismatch p 3)) ∧
      (e % len = 0 → ea x.chk ≠ ea x.main → exec i s = .next ((s.awake p).mismatch p 1)) ∧
      (e % len = 0 → ea x.chk = ea x.main →
        (s.permitted r .read e len = false → exec i s = .next (((s.awake p).violation r .read e).preciseFault p 0x06 info (ea x.main))) ∧
        (s.permitted r .read e len = true → ∀ t, (s.atBus p e).busRead r false e len = (.error, t) →
          exec i s = .next (t.preciseFault p 0x09 info (ea x.main)))) := by
    intro i ea len info dest ext upd link hi e
    have hj := State.judges_of_loads hi
    have hinfo : (if false then 8 else 0) + info = info := by simp
    obtain ⟨h1, h2, h3⟩ := State.judges_faults hj hinfo hp rfl
    exact ⟨h1, h2, h3, fun hal he => ⟨fun hw => State.judges_window hj hinfo hp (if_neg Bool.false_ne_true) he hal hw,
      fun hw t ht => State.loads_error hi hal hp he hw ht⟩⟩
  have store : ∀ {i : Instr} {ea : Copy → Word} {len code info : Nat}, s.judges p i ea len code true → 8 + code = info →
      let e := (ea x.main).toNat
      (e % len ≠ 0 → ea x.chk = ea x.main → exec i s = .next ((s.awake p).preciseFault p 0x05 info (ea x.main))) ∧
      (e % len ≠ 0 → ea x.chk ≠ ea x.main → exec i s = .next ((s.awake p).mismatch p 3)) ∧
      (e % len = 0 → ea x.chk ≠ ea x.main → exec i s = .next ((s.awake p).mismatch p 1)) ∧
      (e % len = 0 → ea x.chk = ea x.main → s.permitted r .write e len = false →
        exec i s = .next (((s.awake p).violation r .write e).preciseFault p 0x06 info (ea x.main))) := by
    intro i ea len code info hj hinfo e
    have hinfo : (if true then 8 else 0) + code = info := by simpa using hinfo
    obtain ⟨h1, h2, h3⟩ := State.judges_faults hj hinfo hp rfl
    exact ⟨h1, h2, h3, fun hal he hw => State.judges_window hj hinfo hp (if_pos rfl) he hal hw⟩
  refine ⟨fun f hf => ?_, fun f hf => ?_⟩
  · rcases List.mem_append.1 hf with hf | hf
    · simp only [List.mem_cons, List.not_mem_nil, or_false] at hf
      rcases hf with rfl | rfl | rfl | rfl | rfl | rfl | rfl | rfl
      · exact load (ldb_loads h d a imm)
      · exact load (ldbu_loads h d a imm)
      · exact load (ldh_loads h d a imm)
      · exact load (ldhu_loads h d a imm)
      · exact load (ldw_loads h d a imm)
      · exact load (ldl_loads h d a)
      · exact load (flds_loads h fd a imm)
      · exact load (fldd_loads h fd a imm)
    · by_cases hz : szListed false sz = true
      · simp only [hz, if_true, List.mem_cons, List.not_mem_nil, or_false] at hf
        rcases hf with rfl | rfl
        · exact load (lds_loads h d bk hz imm)
        · exact load (ldp_loads h d a hm n hz step)
      · simp [hz] at hf
  · rcases List.mem_append.1 hf with hf | hf
    · simp only [List.mem_cons, List.not_mem_nil, or_false] at hf
      rcases hf with rfl | rfl | rfl | rfl | rfl | rfl
      · exact store (State.judges_of_stores (stb_stores h d a imm) (.inr hl)) rfl
      · exact store (State.judges_of_stores (sth_stores h d a imm) (.inr hl)) rfl
      · exact store (State.judges_of_stores (stw_stores h d a imm) (.inr hl)) rfl
      · exact store (stc_judges h d a b) rfl
      · exact store (State.judges_of_stores (fsts_stores h fd a imm) (.inr hl)) rfl
      · exact store (State.judges_of_stores (fstd_stores h fd a imm) (.inr hl)) rfl
    · by_cases hz : szListed true sz = true
      · simp only [hz, if_true, List.mem_cons, List.not_mem_nil, or_false] at hf
        rcases hf with rfl | rfl
        · exact store (State.judges_of_stores (sts_stores h d bk hz imm) (.inr hl)) rfl
        · exact store (State.judges_of_stores (stp_stores h d a hm n hz step) (.inr hl)) rfl
      · simp [hz] at hf

end Sys2Proof.Machine
end

