-- ==== Sys2Proof/Proofs/TcmLinked.lean ====
section
/-! PROOF. Accesses to a local TCM and their frame; load-linked and store-conditional (R20, R24, R262, R266, R271). -/

namespace Sys2Proof.Machine

variable {s : State} {p : Pair}

/-! ## The local TCM on the bus -/

theorem State.pairReq_pair (s : State) (p : Pair) : (s.pairReq p).pair = some p := dif_pos p.isLt

theorem place_tcm {a : Nat} (h : a < 0x100000) (n : Nat) : place (s.pairReq p) a n = .ram (aliasBase p + a) := by
  rw [place, if_pos h, State.pairReq_pair]

/-- Beats are counted at SRAM alone. -/
theorem State.beat_tcm {b : Nat} (h : 0x38000000 ≤ b) (m : Fin 13) (write load : Bool) (n : Nat) : s.beat m write load b n = s := by
  refine foldl_const fun k _ => ?_
  have hbank : sramBank (b / 16 * 16 + 16 * k) = none := if_neg (by omega)
  simp only [hbank]

theorem aliasBase_le (p : Pair) : 0x38000000 ≤ aliasBase p ∧ aliasBase p + 0x100000 ≤ 0x38400000 := by
  have := p.isLt; unfold aliasBase; omega

/-- A read of the local TCM that meets no upset. -/
theorem State.busRead_tcm {a n : Nat} (h : a < 0x100000) (hc : s.cleanAt (aliasBase p + a) n) (peek : Bool) :
    s.busRead (s.pairReq p) peek a n = (.data (s.readLE (aliasBase p + a) n), s) := by
  have hb := aliasBase_le p
  rw [State.busRead, place_tcm h]
  simp only [State.beat_tcm (b := aliasBase p + a) (by omega), State.eccRead_clean hc, Bool.false_eq_true, if_false]

/-- A write to the local TCM that meets no upset. -/
theorem State.busWrite_tcm {a n : Nat} (h : a < 0x100000) (hc : s.cleanAt (aliasBase p + a) n) (v : Nat) :
    s.busWrite (s.pairReq p) a v n = ((s.answer 0).snoop (some p) (aliasBase p + a) n).writeLE (aliasBase p + a) v n := by
  have hb := aliasBase_le p
  have hecc : (s.answer 0).eccWrite (aliasBase p + a) n = (false, s.answer 0) := State.eccWrite_clean hc
  rw [State.busWrite, place_tcm h]
  simp only [State.beat_tcm (b := aliasBase p + a) (by omega)]
  rw [State.ramWrite, if_neg (by omega), hecc, if_neg (by simp), State.pairReq_pair]

/-- Where a store overrules an STC, the answer stands. -/
theorem State.stcUndo_ans (s : State) (q : Pair) (r : StcRec) : (s.stcUndo q r).ans = s.ans := by
  rw [State.stcUndo, State.setWord, State.writeLE_only_mem]; rfl

theorem State.snoopPair_ans (s : State) (m : Option Pair) (lo hi : Nat) (q : Pair) : (s.snoopPair m lo hi q).ans = s.ans := by
  have lose : ∀ u : State, (match (u.pair q).resv with
      | some g =>
        if lo ≤ g ∧ g ≤ hi then u.modPair q fun x => { x with resv := none, lost := m.map fun w => (s.now, g, w) } else u
      | none => u).ans = u.ans := fun u => by
    cases (u.pair q).resv with
    | none => rfl
    | some g => dsimp only; split <;> rfl
  refine (lose _).trans ?_
  cases (s.pair q).stc with
  | none => rfl
  | some r => dsimp only; split <;> simp [State.stcUndo_ans]

theorem State.snoop_ans (s : State) (m : Option Pair) (a n : Nat) : (s.snoop m a n).ans = s.ans := by
  unfold State.snoop
  generalize List.finRange 4 = l
  induction l generalizing s with
  | nil => rfl
  | cons q l ih => rw [List.foldl_cons, ih]; split <;> simp [State.snoopPair_ans]

/-- A store within one granule touches the reservations on it. -/
theorem PairSt.snooped_granule (x : PairSt) (now : Nat) (p : Pair) (g : Nat) :
    x.snooped now (some p) g g = if x.resv = some g then { x with resv := none, lost := some (now, g, p) } else x := by
  unfold PairSt.snooped
  cases x.resv with
  | none => simp
  | some k =>
    have hk : (g ≤ k ∧ k ≤ g) ↔ k = g := by omega
    by_cases h : k = g
    · subst h; simp
    · simp [h, hk]

/-- What a write to the local TCM leaves: its bytes, and, where no STC yields to it, nothing else but the other pairs' reservations. -/
theorem State.busWrite_tcm_frame {a n : Nat} (h : a < 0x100000) (hc : s.cleanAt (aliasBase p + a) n) (v : Nat) (hs : s.noStc p)
    (hg : (aliasBase p + a + n - 1) / 32 = (aliasBase p + a) / 32) :
    let b := aliasBase p + a
    let t := s.busWrite (s.pairReq p) a v n
    (∀ x, x < b ∨ b + n ≤ x → t.byte x = s.byte x) ∧ t = { s with mem := t.mem, pairs := t.pairs, ans := t.ans } ∧
    ∀ q : Pair, t.pair q = if q ≠ p ∧ (s.pair q).resv = some (b / 32)
      then { s.pair q with resv := none, lost := some (s.now, b / 32, p) } else s.pair q := by
  intro b t
  obtain ⟨w, hw, hq⟩ := State.snoop_eq (s := s.answer 0) (p := p) hs b n
  have ht : t = ({ s.answer 0 with pairs := w } : State).writeLE b v n := by
    change s.busWrite _ _ _ _ = _
    rw [State.busWrite_tcm h hc, hw]
  have hmem := ({ s.answer 0 with pairs := w } : State).writeLE_only_mem b v n
  rw [ht]
  refine ⟨fun x hx => State.byte_writeLE_ne _ hx, ?_, fun q => ?_⟩
  · rw [hmem]; rfl
  · rw [hmem]
    change w[q] = _
    rw [hq]
    change (if q = p then s.pair q else (s.pair q).snooped s.now (some p) (b / 32) ((b + n - 1) / 32)) = _
    rw [hg, PairSt.snooped_granule]
    by_cases hqp : q = p <;> simp [hqp]

/-! ## The state at the bus -/

theorem State.atBus_only (s : State) (p : Pair) (e : Nat) :
    ∃ u c v, s.atBus p e = { s with accs := u, cyc := c, pairs := v } := by
  unfold State.atBus
  split
  · exact ⟨_, _, _, rfl⟩
  · unfold State.access; split <;> exact ⟨_, _, _, rfl⟩

/-- An access changes neither the lc nor the memory. -/
@[simp] theorem State.now_atBus (e : Nat) : (s.atBus p e).now = s.now := by
  obtain ⟨u, c, v, h⟩ := s.atBus_only p e; rw [h]

@[simp] theorem State.word_atBus (e a : Nat) : (s.atBus p e).word a = s.word a := by
  obtain ⟨u, c, v, h⟩ := s.atBus_only p e; rw [h]; rfl

/-! ## Load-linked, store-conditional -/

/-- The reservation that a load-linked at `e` sets, where it can hold one. -/
theorem exec_ldl (h : s.issues p) {d a : Greg} (he : (s.pair p).chk.gr a = (s.pair p).main.gr a)
    (hp : (s.pair p).chk.priv = (s.pair p).main.priv) (hal : ((s.pair p).main.gr a).toNat % 4 = 0)
    (hw : s.permitted (s.pairReq p) .read ((s.pair p).main.gr a).toNat 4 = true) {v : Nat} {t : State}
    (ht : (s.atBus p ((s.pair p).main.gr a).toNat).busRead (s.pairReq p) false ((s.pair p).main.gr a).toNat 4 = (.data v, t)) :
    exec (.ldl p d a) s = .next (((t.toldLoad p ((s.pair p).main.gr a).toNat 4 (BitVec.ofNat 64)).modPair p fun y =>
      { y with resv := (granule p ((s.pair p).main.gr a).toNat).or y.resv }).land p ⟨(s.pair p).main.gr a, 4, 2, false, (s.pair p).main.priv⟩
        ⟨.greg d, BitVec.ofNat 64 v, none⟩) :=
  State.loads_data (ldl_loads h d a) hal hp he hw ht

section
variable {d a b : Greg} (h : s.issues p) (he : (s.pair p).chk.gr a = (s.pair p).main.gr a)
  (hp : (s.pair p).chk.priv = (s.pair p).main.priv) (hal : ((s.pair p).main.gr a).toNat % 4 = 0)
  (hw : s.permitted (s.pairReq p) .write ((s.pair p).main.gr a).toNat 4 = true)
include h he hp hal hw

/-- A permitted STC, by its reservation. -/
theorem exec_stc : exec (.stc p d a b) s = .next (
    let e := ((s.pair p).main.gr a).toNat
    let c := (s.atBus p e).clearResv p
    let st : Acs := ⟨(s.pair p).main.gr a, 4, 2, true, (s.pair p).main.priv⟩
    if ((s.pair p).resv.isSome && decide ((s.pair p).resv = granule p e)) || (s.atBus p e).stcOver p e then
      c.compared p 2 ((s.pair p).main.gr b == (s.pair p).chk.gr b) fun s' => s'.stcStore p st d ((s.pair p).main.gr b)
    else c.land p st ⟨.greg d, 0, none⟩) := by
  change execStc p d a b s = _
  refine issue_next_of h ?_
  rw [State.pair_awake_same]
  refine (State.judged_run (a := (s.pair p).main.acs (fun c => c.gr a) 4 2 true) _ hal
    ((Copy.acs_eq (ea := fun c => c.gr a) hp _ _ _).2 he) (by rw [State.pairReq_awake]; exact hw)).trans ?_
  rw [State.pairReq_awake]
  rfl

/-- The STC that stands on its reservation. -/
theorem exec_stc_reserved {g : Nat} (hr : (s.pair p).resv = some g) (hg : granule p ((s.pair p).main.gr a).toNat = some g) :
    exec (.stc p d a b) s = .next (((s.atBus p ((s.pair p).main.gr a).toNat).clearResv p).compared p 2
      ((s.pair p).main.gr b == (s.pair p).chk.gr b) fun s' => s'.stcStore p
        ⟨(s.pair p).main.gr a, 4, 2, true, (s.pair p).main.priv⟩ d ((s.pair p).main.gr b)) := by
  rw [exec_stc h he hp hal hw]
  simp only [hr, hg, Option.isSome_some, decide_true, Bool.and_self, Bool.true_or, if_true]

/-- The STC whose reservation is gone, and was not lost in this lc. -/
theorem exec_stc_failed (hr : (s.pair p).resv = none ∨ (s.pair p).resv ≠ granule p ((s.pair p).main.gr a).toNat)
    (hl : ∀ l, (s.pair p).lost = some l → l.1 ≠ s.now) :
    exec (.stc p d a b) s = .next (((s.atBus p ((s.pair p).main.gr a).toNat).clearResv p).land p
      ⟨(s.pair p).main.gr a, 4, 2, true, (s.pair p).main.priv⟩ ⟨.greg d, 0, none⟩) := by
  rw [exec_stc h he hp hal hw]
  have hover : (s.atBus p ((s.pair p).main.gr a).toNat).stcOver p ((s.pair p).main.gr a).toNat = false := by
    rw [State.stcOver, State.pair_atBus, State.now_atBus]
    cases hx : (s.pair p).lost with
    | none => simp
    | some l => simp [hl l hx]
  have hno : ((s.pair p).resv.isSome && decide ((s.pair p).resv = granule p ((s.pair p).main.gr a).toNat)) = false := by
    rcases hr with hr | hr <;> simp [hr]
  simp only [hover, hno, Bool.or_self, Bool.false_eq_true, if_false]

end

/-- An STC that succeeds, or whose store meets a bus error. -/
theorem State.stcStore_of {c : State} {st : Acs} (d : Greg) (v : Word) {r : Req} (hr : c.pairReq p = r) :
    ((c.busWrite r st.ea.toNat v.toNat 4).ans.err = false → c.stcStore p st d v =
      ((c.busWrite r st.ea.toNat v.toNat 4).land p st ⟨.greg d, 1, none⟩).modPair p fun y =>
        { y with stc := some ⟨c.now, physOf p st.ea.toNat, d, c.word (physOf p st.ea.toNat)⟩ }) ∧
    ((c.busWrite r st.ea.toNat v.toNat 4).ans.err = true → c.stcStore p st d v =
      (c.busWrite r st.ea.toNat v.toNat 4).preciseFault p 0x09 st.info st.ea) := by
  subst hr
  refine ⟨fun h => ?_, fun h => ?_⟩
  · rw [State.stcStore, if_neg (by simp [h])]
  · rw [State.stcStore, if_pos h]

/-- Settles O8: a TCM access by the rules of the bus there; LDL is a load that links; STC by its reservation. -/
theorem tcmAndLinkedAccesses : Obligations.TcmAndLinkedAccesses := by
  unfold Obligations.TcmAndLinkedAccesses
  refine ⟨?_, ?_⟩
  · intro s p peek a v n hn hal hlim b r hc
    have ha : a < 0x100000 := by omega
    refine ⟨State.busRead_tcm ha hc peek, ?_⟩
    intro t
    have ht : t = ((s.answer 0).snoop (some p) b n).writeLE b v n := State.busWrite_tcm ha hc v
    refine ⟨?_, fun k hk => ?_, ?_, fun hs => State.busWrite_tcm_frame ha hc v hs ?_⟩
    · rw [ht, State.writeLE_only_mem, State.snoop_ans]; rfl
    · rw [ht, State.byte_writeLE, if_pos (by omega), Nat.add_sub_cancel_left]
    · rw [ht, State.readLE_writeLE_same]
    · have hb : aliasBase p % 32 = 0 := by unfold aliasBase; omega
      rcases hn with rfl | rfl | rfl | rfl <;> omega
  · intro s p d a b h x ea e r u told ld st he hp hal
    refine ⟨fun hw v t ht => exec_ldl h he hp hal hw ht, fun hw => ?_⟩
    intro c
    refine ⟨fun ⟨g, hr, hg⟩ => ?_, fun hr hl => exec_stc_failed h he hp hal hw hr hl⟩
    have hstc := exec_stc_reserved (d := d) (b := b) h he hp hal hw hr hg
    refine ⟨fun hne => ?_, fun heq => ?_⟩
    · rw [hstc, State.compared_of_not _ _ (by simpa using hne)]
      rfl
    · rw [hstc, State.compared_of _ _ (by simpa using heq)]
      have hreq : ((s.atBus p e).clearResv p).pairReq p = r := by
        rw [State.pairReq, State.clearResv, State.pair_modPair_same, State.pair_atBus]; rfl
      obtain ⟨hgood, hbad⟩ := State.stcStore_of (st := st) d (x.main.gr b) hreq
      rw [show ((s.atBus p e).clearResv p).now = s.now from State.now_atBus e,
        show ∀ k, ((s.atBus p e).clearResv p).word k = s.word k from fun k => State.word_atBus e k] at hgood
      exact ⟨fun herr => congrArg _ (hgood herr), fun herr => congrArg _ (hbad herr)⟩

end Sys2Proof.Machine
end

