-- ==== Sys2Proof/Proofs/FloatingPoint.lean ====
section
/-! PROOF. The floating-point instructions and their exceptions (R267 to R269). -/

namespace Sys2Proof.Machine

variable {s : State} {p : Pair}

/-! ## Operands and exceptions -/

/-- An operand of a format is the low bits of its register. -/
theorem Copy.fop_eq (c : Copy) (dbl : Bool) (r : Freg) : (c.fr r).toNat % (if dbl then 2 ^ 64 else 2 ^ 32) = c.fop dbl r := by
  cases dbl
  · rfl
  · exact Nat.mod_eq_of_lt (c.fr r).isLt

/-- The exceptions of a copy that has a trap enabled (R268). -/
theorem Copy.trapped_of (c : Copy) {fl x : FFlags} (h1 : fl &&& (c.fpsr >>> 8).setWidth 5 ≠ 0 → x = fl)
    (h0 : ¬(fl &&& (c.fpsr >>> 8).setWidth 5 ≠ 0) → x = 0) : c.trapped fl = x := by
  unfold Copy.trapped enabledOf
  split
  · next h => exact (h0 (not_not.2 h)).symm
  · next h => exact (h1 h).symm

theorem Copy.trapped_none (c : Copy) {fl : FFlags} (h : ¬(fl &&& (c.fpsr >>> 8).setWidth 5 ≠ 0)) : c.trapped fl = 0 :=
  Copy.trapped_of c (fun e => absurd e h) fun _ => rfl

/-- An exception enabled in a copy is not none. -/
theorem FFlags.ne_zero_of_and {a b : FFlags} (h : a &&& b ≠ 0) : a ≠ 0 := by
  rintro rfl; simp at h

section
variable (fl : Copy → FFlags) (lat : Nat)

/-- The first operation with an enabled exception is outstanding until it completes. -/
theorem State.fpRaise_first {a b : FFlags} (ha : (s.pair p).main.trapped (fl (s.pair p).main) = a)
    (hb : (s.pair p).chk.trapped (fl (s.pair p).chk) = b) (h : a ≠ 0 ∨ b ≠ 0) (ho : (s.pair p).fpOut = none)
    (hp : (s.pair p).fpPend = none) :
    s.fpRaise p fl lat = (s.modPair p fun y => { y with fpOut := some ⟨y.pc, a, b⟩ }).sched lat (.fpExceptionPend p) := by
  have hdue : (s.pair p).fpDue.isSome = false := by simp [PairSt.fpDue, ho, hp]
  rw [State.fpRaise, if_neg (by rw [ha, hb, hdue]; simp only [Bool.false_eq_true, or_false]; tauto), ha, hb]

theorem State.fpRaise_none (ha : (s.pair p).main.trapped (fl (s.pair p).main) = 0)
    (hb : (s.pair p).chk.trapped (fl (s.pair p).chk) = 0) : s.fpRaise p fl lat = s := if_pos (.inl ⟨ha, hb⟩)

/-- A later exception only sets FLAGS. -/
theorem State.fpRaise_later (h : (s.pair p).fpDue ≠ none) : s.fpRaise p fl lat = s := if_pos (.inr (Option.isSome_iff_ne_none.2 h))

end

/-! ## Delivery -/

theorem exec_fpExceptionPend {e : FpEvent} (h : (s.pair p).fpOut = some e) :
    exec (.fpExceptionPend p) s = .next ((s.modPair p fun x => x.pend e).unsched (.fpExceptionPend p)) := by
  change execFpExceptionPend p s = _
  unfold execFpExceptionPend
  rw [h]

/-- PEND is set in each copy that raised an exception. -/
theorem PairSt.pend_both (x : PairSt) {e : FpEvent} (hf : e.flags ≠ 0) (hc : e.chk ≠ 0) : x.pend e =
    { x with fpOut := none, fpPend := some e, main := { x.main with fpsr := setBits x.main.fpsr 24 24 1 },
             chk := { x.chk with fpsr := setBits x.chk.fpsr 24 24 1 } } := by
  simp only [PairSt.pend, Copy.setPend, decide_eq_true hf, decide_eq_true hc]
  rfl

theorem State.takeFp_ne {e : FpEvent} (h : e.flags ≠ e.chk) : s.takeFp p e = s.mismatch p 3 :=
  State.compared_of_not _ _ (by simpa using h) _ _

/-- An exception that both copies raised alike is entered, then off PEND. -/
theorem State.takeFp_eq {e : FpEvent} (h : e.flags = e.chk) : s.takeFp p e =
    ((((s.modPair p fun x => x.pend e).enterFrom p (fpCause (s.pair p) e)).modPair p fun x => { x with fpPend := none }).both p
      fun k => k.setPend false) := by
  rw [State.takeFp, State.compared_of _ _ (by simpa using h)]
  simp only [State.pair_modPair_same]
  rfl

/-- An exception that is due comes before the cause of any entry. -/
theorem State.enter_fp {e : FpEvent} (h : (s.pair p).fpDue = some e) (c : Cause) : s.enter p c = s.takeFp p e := by
  unfold State.enter
  rw [h]

/-- An FP exception that is pending is taken at a boundary outside a slot that no late store error precedes. -/
theorem State.boundary_fp {e : FpEvent} (hp : (s.pair p).fpPend = some e) (hu : s.coreUp p = true) (hs : (s.pair p).slot = none)
    (hl : (s.pair p).late = [] ∨ s.flag F.LP_EXC_STAT_ARMED p 0 = true) : s.boundary p = .fp e := by
  rcases hl with hl | hl <;> simp [State.boundary, hu, hs, hl, hp]

/-! ## The operations -/

/-- An operation of the FP unit that issues. -/
theorem fpOp_next (h : s.issues p) (d : Freg) (lat : Nat) (f : Copy → FRes) :
    fpOp p d lat f s = .next (((s.awake p).fpRaise p (fun c => (f c).flags) lat).compute p fun c => c.putF d (f c)) := issue_run h _

/-- FCMP: NV where a copy's operands have no relation. -/
theorem exec_fcmp (h : s.issues p) (dbl : Bool) (a b : Freg) {nv : Copy → FFlags} {fl : Copy → Nzcv}
    (hnv : ∀ c, nv c = if ((fmtOf dbl).relation (c.fop dbl a) (c.fop dbl b)).isNone then flNV else 0)
    (hfl : ∀ c, fl c = fcmpFlags ((fmtOf dbl).relation (c.fop dbl a) (c.fop dbl b))) :
    exec (.fcmp p dbl a b) s = .next (((s.awake p).fpRaise p nv 1).compute p fun c =>
      { c.setFlags (fl c) with fpsr := c.fpsr ||| ((nv c).setWidth 32 <<< 16) }) := by
  obtain rfl : nv = _ := funext hnv
  obtain rfl : fl = _ := funext hfl
  change execFcmp p dbl a b s = _
  exact issue_next_of h rfl

/-- Settles O15: each operation is one of the FP unit; the delivery of its exception. -/
theorem floatingPointInstructions : Obligations.FloatingPointInstructions := by
  unfold Obligations.FloatingPointInstructions
  refine ⟨?_, ?_⟩
  · intro s p dbl kind d a b g h m op run
    have hop : op = fun c r => c.fop dbl r := funext fun c => funext fun r => c.fop_eq dbl r
    clear_value op
    subst hop
    refine ⟨fpOp_next h .., fpOp_next h .., fpOp_next h .., fpOp_next h .., fpOp_next h .., fpOp_next h .., fpOp_next h ..,
      fpOp_next h .., fpOp_next h .., fpOp_next h .., fpOp_next h .., ?_, ?_, ?_, ?_⟩
    · change execFmvgf p d g s = _
      exact issue_next_of h rfl
    · change execFmvfg p g a s = _
      exact issue_next_of h rfl
    · intro rel nv fl
      refine exec_fcmp h dbl a b (fun c => ?_) (fun c => ?_)
      · change (match rel c with | none => 16 | some _ => 0) = if (rel c).isNone then flNV else 0
        cases rel c <;> rfl
      · change (match rel c with
          | some .lt => ⟨true, false, false, false⟩ | some .eq => ⟨false, true, true, false⟩
          | some .gt => ⟨false, false, true, false⟩ | none => ⟨false, false, false, true⟩) = fcmpFlags (rel c)
        cases rel c with
        | none => rfl
        | some o => cases o <;> rfl
    · intro fl lat x hit
      refine ⟨fun a b ha1 ha0 hb1 hb0 hab ho hp => ?_, fun hm hc => ?_, fun hd => State.fpRaise_later fl lat hd⟩
      · refine State.fpRaise_first fl lat (Copy.trapped_of _ ha1 ha0) (Copy.trapped_of _ hb1 hb0) ?_ ho hp
        rcases hab with hm | hc
        · exact .inl (ha1 hm ▸ FFlags.ne_zero_of_and hm)
        · exact .inr (hb1 hc ▸ FFlags.ne_zero_of_and hc)
      · exact State.fpRaise_none fl lat (Copy.trapped_none _ hm) (Copy.trapped_none _ hc)
  · intro s p e c i x cause up raised off
    refine ⟨fun hf hc ho => ?_, fun hp hu hs hl => ?_, fun hd => State.enter_fp hd c, fun h ho hp => ?_, State.takeFp_ne, fun he hf => ?_⟩
    · rw [exec_fpExceptionPend ho]
      exact congrArg (fun t => Host.Outcome.next (State.unsched t _)) (State.modPair_congr _ _ (PairSt.pend_both _ hf hc))
    · unfold issue
      rw [State.boundary_fp hp hu hs hl]
    · change execFsync p s = _
      refine issue_next_of h ?_
      have hdue : ((s.awake p).pair p).fpDue = some e := by
        rw [State.pair_awake_same]
        change (s.pair p).fpPend.or (s.pair p).fpOut = some e
        rw [show (s.pair p).fpPend = none from hp, show (s.pair p).fpOut = some e from ho]
        rfl
      rw [hdue]
    · rw [State.takeFp_eq he, State.modPair_congr s p (g := raised) (PairSt.pend_both _ hf (he ▸ hf))]
      rfl

end Sys2Proof.Machine
end

