-- ==== Sys2Proof/Proofs/BusRules.lean ====
section
/-! PROOF. Rules on accesses and on lists of steps: what opening an access leaves, folds in which one element acts. -/

namespace Sys2Proof.Machine

/-! ## Opening an access -/

theorem State.access_only (s : State) (m : Fin 13) : ∃ u c, s.access m = { s with accs := u, cyc := c } := by
  unfold State.access; split <;> exact ⟨_, _, rfl⟩

/-- Opening an access touches the list of the cycle's accesses and the answer alone. -/
theorem State.opened_only (s : State) (m : Fin 13) : ∃ u c, s.opened m = { s with accs := u, cyc := c, ans := ⟨0, false⟩ } := by
  obtain ⟨u, c, h⟩ := s.access_only m
  exact ⟨u, c, by rw [State.opened, h]; rfl⟩

section
variable (s : State) (m : Fin 13)

@[simp] theorem State.srcOwner_opened (n : SrcId) : (s.opened m).srcOwner n = s.srcOwner n := by
  obtain ⟨u, c, h⟩ := s.opened_only m; rw [h]; rfl

end

/-- What does not look at the cycle's accesses and the answer is as it was before the access was opened. -/
theorem State.opened_congr {α : Type} (f : State → α)
    (h : ∀ (s : State) u c v, f { s with accs := u, cyc := c, ans := v } = f s) (s : State) (m : Fin 13) : f (s.opened m) = f s := by
  obtain ⟨u, c, e⟩ := s.opened_only m
  rw [e, h]

/-! ## Parts that decide -/

/-- The registers decide the fields, the memory the bytes and words. -/
theorem State.fld_of_regs {s t : State} (h : t.regs = s.regs) (f : Fld) (i j : Nat) : t.fld f i j = s.fld f i j := by
  simp only [State.fld, State.reg, h]

theorem State.byte_of_mem {s t : State} (h : t.mem = s.mem) (a : Nat) : t.byte a = s.byte a := by simp only [State.byte, h]

theorem State.word_of_mem {s t : State} (h : t.mem = s.mem) (a : Nat) : t.word a = s.word a := by
  rw [State.word, State.word, State.readLE_congr t s a 4 fun x _ _ => State.byte_of_mem h x]

/-! ## Counters -/

theorem State.fld_bump_ne (s : State) {f g : Fld} {i j k l : Nat} (h : g.reg.addr k l ≠ f.reg.addr i j) :
    (s.bump f i j).fld g k l = s.fld g k l := State.fld_setFld_ne _ _ h

/-- An admitted access, with its effect in other words. -/
theorem regCmd_next_of {s t : State} {r : Req} {k : Kind} {rn : RegName} {i j : Nat} {body : State → State} (h : s.admits r k rn i j)
    (hb : body (s.opened r.master) = t) : regCmd r k rn i j body s = .next t := by
  rw [regCmd_admitted h, hb]

/-! ## Folds -/

/-- A fold in which one element alone acts. -/
theorem foldl_single {α β : Type} {f : β → α → β} {b : β} {p : α} {l : List α} (hl : l.Nodup) (hp : p ∈ l)
    (h : ∀ q ∈ l, q ≠ p → ∀ t, f t q = t) : l.foldl f b = f b p := by
  have rest : ∀ (l : List α) (t : β), (∀ q ∈ l, ∀ t, f t q = t) → l.foldl f t = t := by
    intro l t hl
    induction l generalizing t with
    | nil => rfl
    | cons q l ih => rw [List.foldl_cons, hl q List.mem_cons_self, ih _ fun r hr => hl r (List.mem_cons_of_mem _ hr)]
  obtain ⟨l₁, l₂, rfl⟩ := List.append_of_mem hp
  rw [List.nodup_middle, List.nodup_cons] at hl
  have hne : ∀ q, q ∈ l₁ ∨ q ∈ l₂ → q ≠ p := fun q hq e => hl.1 (List.mem_append.2 (e ▸ hq))
  rw [List.foldl_append, List.foldl_cons, rest l₁ _ fun q hq => h q (by simp [hq]) (hne q (.inl hq)),
    rest l₂ _ fun q hq => h q (by simp [hq]) (hne q (.inr hq))]

/-- A property that every step keeps is kept by the fold. -/
theorem foldl_keeps {α β : Type} (P : β → Prop) {f : β → α → β} (h : ∀ t a, P t → P (f t a)) :
    ∀ (l : List α) (b : β), P b → P (l.foldl f b)
  | [], _, hb => hb
  | a :: l, b, hb => foldl_keeps P h l _ (h b a hb)

end Sys2Proof.Machine
end

