-- ==== Sys2Proof/Proofs/EventController.lean ====
section
/-! PROOF. The event controller: occurrences, writes to its registers, offers, acknowledges, ceilings (R288 to R297). -/

namespace Sys2Proof.Machine

variable {s : State}

/-! ## Occurrences -/

theorem State.evcOccur_unassigned {n : SrcId} (h : assigned n = false) : s.evcOccur n = s := by simp [State.evcOccur, h]

theorem State.evcOccur_pend {n : SrcId} (h : assigned n = true) (hp : s.evc.pend.getLsbD n = true) :
    s.evcOccur n = s.bump F.EVC_ERR_CNT_MERGE 0 0 := by
  rw [State.evcOccur, if_neg (by simp [h]), if_pos hp]

theorem State.evcOccur_new {n : SrcId} (h : assigned n = true) (hp : s.evc.pend.getLsbD n = false) :
    s.evcOccur n = { s with evc := { s.evc with pend := s.evc.pend ||| BitVec.twoPow 512 n } } := by
  rw [State.evcOccur, if_neg (by simp [h]), if_neg (by rw [hp]; exact Bool.false_ne_true)]
  rfl

/-- A source that cannot fire: before Ready, and in Maintenance the matrix's (Table 11.7). -/
theorem exec_evcEvent_off {n : SrcId} (h : s.mode.cores = false ∨ (s.mode = .maintenance ∧ n.val < 0x040)) :
    exec (.evcEvent n) s = .next s := by
  change execEvcEvent n s = _
  rw [execEvcEvent, if_neg]
  rcases h with h | ⟨h, hn⟩
  · simp [State.evcFires, State.evcLive, h]
  · simp [State.evcFires, h, hn]

theorem exec_evcEvent_on {n : SrcId} (h : s.mode.cores = true) (hm : s.mode = .maintenance → 0x040 ≤ n.val) :
    exec (.evcEvent n) s = .next (State.evcOccur { s with evc := { s.evc with occ := s.evc.occ ||| BitVec.twoPow 512 n } } n) := by
  change execEvcEvent n s = _
  have hf : s.evcFires n = true := by
    have : ¬(s.mode = .maintenance ∧ n.val < 0x040) := fun ⟨hx, hy⟩ => absurd (hm hx) (by omega)
    simpa [State.evcFires, State.evcLive, h, Classical.or_iff_not_imp_left] using this
  rw [execEvcEvent, if_pos hf]
  rfl

/-! ## Named sources -/

theorem mem_namedSrcs (j : Fin 16) (v : Word) (k : SrcId) : k ∈ namedSrcs j v ↔ k.val / 32 = j.val ∧ v.getLsbD (k.val % 32) = true := by
  have hj := j.isLt
  have hk := k.isLt
  simp only [namedSrcs, List.mem_filterMap, List.mem_finRange, true_and]
  constructor
  · rintro ⟨i, hi⟩
    have hlt := i.isLt
    split at hi
    · next hv =>
      obtain rfl := Option.some.inj hi
      have hval : (Fin.ofNat 512 (32 * j.val + i.val)).val = 32 * j.val + i.val := Nat.mod_eq_of_lt (by omega)
      rw [hval]
      exact ⟨by omega, by rw [show (32 * j.val + i.val) % 32 = i.val by omega]; exact hv⟩
    · exact absurd hi (by simp)
  · rintro ⟨hd, hv⟩
    refine ⟨⟨k.val % 32, by omega⟩, ?_⟩
    rw [if_pos hv]
    refine congrArg some (Fin.ext ?_)
    simp only [Fin.ofNat]
    rw [← hd, Nat.mod_eq_of_lt (by omega)]
    omega

/-- A cycle holds an EVC_PEND_SET write that raised the source. -/
def State.setIn (s : State) (k : SrcId) : Prop := ∃ b, CycAcc.pend b ∈ s.cyc ∧ b.getLsbD k = true

theorem State.evcCame_iff (k : SrcId) : s.evcCame k = true ↔ s.evc.occ.getLsbD k = true ∨ s.setIn k := by
  simp only [State.evcCame, State.setIn, Bool.or_eq_true, List.any_eq_true]
  refine or_congr Iff.rfl ⟨fun ⟨c, hc, hk⟩ => ?_, fun ⟨b, hb, hk⟩ => ⟨_, hb, hk⟩⟩
  cases c with
  | pend b => exact ⟨b, hc, hk⟩
  | _ => exact absurd hk (by simp)

/-- Nothing of the source is locked or was raised in this cycle. -/
def State.evcQuiet (s : State) : Prop := ∀ k : SrcId, s.evc.locked k = false ∧ s.evc.occ.getLsbD k = false ∧ ¬s.setIn k

theorem State.evcPendClear_came {n : SrcId} (h : s.evc.occ.getLsbD n = true ∨ s.setIn n) : s.evcPendClear n = s :=
  if_pos ((s.evcCame_iff n).2 h)

theorem State.evcPendClear_locked {n : SrcId} (hl : s.evc.locked n = true) (ho : s.evc.occ.getLsbD n = false) (hs : ¬s.setIn n) :
    s.evcPendClear n = { s with evc := { s.evc with held := s.evc.held ++ [.pendClr n] } } := by
  rw [State.evcPendClear, if_neg (by rw [State.evcCame_iff, ho]; simpa using hs), if_pos hl]
  rfl

theorem State.evcPendClear_quiet {n : SrcId} (h : s.evcQuiet) :
    s.evcPendClear n = { s with evc := { s.evc with pend := s.evc.pend &&& ~~~BitVec.twoPow 512 n } } := by
  obtain ⟨hl, ho, hs⟩ := h n
  rw [State.evcPendClear, if_neg (by rw [State.evcCame_iff, ho]; simpa using hs), if_neg (by simp [hl])]
  rfl

theorem State.evcMask_locked (b : Bool) {n : SrcId} (h : s.evc.locked n = true) :
    s.evcMask b n = { s with evc := { s.evc with held := s.evc.held ++ [if b then .maskSet n else .maskClr n] } } := if_pos h

theorem State.evcMask_free (b : Bool) {n : SrcId} (h : s.evc.locked n = false) :
    s.evcMask b n = { s with evc := { s.evc with mask := setSrc s.evc.mask n b } } := by
  rw [State.evcMask, if_neg (by simp [h])]
  rfl

/-- A write to EVC_PEND_CLRj that nothing holds. -/
theorem State.foldl_evcPendClear (l : List SrcId) (s : State) (h : s.evcQuiet) : l.foldl State.evcPendClear s =
    { s with evc := { s.evc with pend := l.foldl (fun b (k : SrcId) => b &&& ~~~BitVec.twoPow 512 k) s.evc.pend } } := by
  induction l generalizing s with
  | nil => rfl
  | cons k l ih =>
    rw [List.foldl_cons, State.evcPendClear_quiet h, ih]
    · rfl
    · exact h

/-- A write to a mask register that nothing holds. -/
theorem State.foldl_evcMask (b : Bool) (l : List SrcId) (s : State) (h : ∀ k, s.evc.locked k = false) :
    l.foldl (fun s n => s.evcMask b n) s = { s with evc := { s.evc with mask := l.foldl (fun m k => setSrc m k b) s.evc.mask } } := by
  induction l generalizing s with
  | nil => rfl
  | cons k l ih =>
    rw [List.foldl_cons, State.evcMask_free b (h k), ih]
    · rfl
    · exact h

/-- A write that names sources, from a state that owns them as `s` does. -/
theorem State.evcNamed_eq {t : State} (r : Req) (j : Fin 16) (v : Word) (f : State → SrcId → State)
    (h : ∀ k, t.srcOwner k = s.srcOwner k) : t.evcNamed r j v f =
      let u := ((namedSrcs j v).filter fun k => r.owns (s.srcOwner k)).foldl f t
      if (namedSrcs j v).any fun k => !r.owns (s.srcOwner k) then u.bump F.EVC_ERR_CNT_FOREIGN 0 0 else u := by
  simp only [State.evcNamed, h]

theorem State.evcQuiet_opened {m : Fin 13} (h : ∀ k : SrcId, s.evc.locked k = false ∧ s.evc.occ.getLsbD k = false ∧ ¬(s.opened m).setIn k) :
    (s.opened m).evcQuiet := by
  obtain ⟨u, c, e⟩ := s.opened_only m
  rw [e] at h ⊢
  exact h

/-- A completion by a pair. -/
theorem State.evcComplete_pair {r : Req} {p : Pair} (h : r.pair = some p) (v : Word) : s.evcComplete r v =
    let k : SrcId := Fin.ofNat 512 (getBits v 8 0)
    if s.evc.act[p].getLsbD k
      then { s with evc := { s.evc with act := vset s.evc.act p (s.evc.act[p] &&& ~~~BitVec.twoPow 512 k) } }
      else s.bump F.EVC_SPURIOUS_CMPL_COUNT 0 0 := by
  unfold State.evcComplete
  rw [h]
  rfl

/-! ## Offers -/

/-- What a fold that takes some of its elements arrives at is where it began or one of them. -/
theorem foldl_some_mem {α β : Type} {g : Option α → β → Option α} {f : β → α} (hg : ∀ b e, g b e = b ∨ g b e = some (f e))
    (l : List β) (b : Option α) {n : α} (h : l.foldl g b = some n) : b = some n ∨ ∃ e ∈ l, f e = n := by
  induction l generalizing b with
  | nil => exact .inl h
  | cons e l ih =>
    rcases ih _ h with hb | ⟨d, hd, hn⟩
    · rcases hg b e with hbe | hbe
      · exact .inl (hbe ▸ hb)
      · exact .inr ⟨e, List.mem_cons_self, Option.some.inj (hbe ▸ hb)⟩
    · exact .inr ⟨d, List.mem_cons_of_mem _ hd, hn⟩

/-- A target that a source chooses is one it is eligible for. -/
theorem State.chooseTarget_eligible {n : SrcId} {p : Pair} (h : s.chooseTarget n = some p) : s.eligible n p = true := by
  unfold State.chooseTarget at h
  split at h
  · obtain h | ⟨e, he, rfl⟩ := foldl_some_mem (f := id) (fun b k => by
      cases b with
      | none => exact .inr rfl
      | some j => dsimp only; split <;> simp) _ none h
    · exact absurd h (by simp)
    · exact (List.mem_filter.1 he).2
  · have := List.find?_some h
    simpa using this

/-- A source offered to a pair is one that chose it. -/
theorem State.offers_eligible {n : SrcId} {p : Pair} (h : s.offers[p] = some n) : s.eligible n p = true := by
  unfold State.offers at h
  simp only [Fin.getElem_fin, Vector.getElem_ofFn] at h
  obtain h | ⟨e, he, rfl⟩ := foldl_some_mem (f := Prod.fst) (fun b k => by
    cases b with
    | none => exact .inr rfl
    | some j => dsimp only; split <;> simp) _ none h
  · exact absurd h (by simp)
  · obtain ⟨hm, hp⟩ := List.mem_filter.1 he
    obtain ⟨k, -, rfl⟩ := List.mem_map.1 hm
    exact State.chooseTarget_eligible (by simpa using hp)

/-- What eligibility means (R290 to R292). -/
theorem State.eligible_unpack {n : SrcId} {p : Pair} (h : s.eligible n p = true) :
    s.evc.pend.getLsbD n = true ∧ s.evc.mask.getLsbD n = false ∧ s.evc.busy.getLsbD n = false ∧
    s.evc.locked n = false ∧ (s.reg .EVC_SRCn_CFG n 0).getLsbD (8 + p.val) = true ∧ s.fld F.EVC_SRCn_CFG_PRIO n 0 < s.evc.ceil[p] ∧
    s.evc.ie[p] = true ∧ (s.srcOwner n = s.evc.tid[p] ∨ s.evc.tid[p] = 0) := by
  simp only [State.eligible, State.fits, Bool.and_eq_true, Bool.not_eq_true', Bool.or_eq_true, decide_eq_true_eq] at h
  obtain ⟨⟨⟨⟨⟨⟨⟨⟨hp, hm⟩, hb⟩, hc⟩, hl⟩, ht⟩, -⟩, hlock⟩, hie⟩ := h
  exact ⟨hp, hm, hb, hlock, hc, hl, hie, ht⟩

/-! ## Taking an offer -/

/-- One pair alone is offered a source that it takes. -/
theorem exec_interruptOffer {p : Pair} {n : SrcId} (hq : ∀ q : Pair, q ≠ p → s.offers[q] = none) (hp : s.offers[p] = some n)
    (ht : s.takesOffer p = true) : exec .interruptOffer s = .next (s.takeOffer p n) := by
  change execInterruptOffer s = _
  rw [execInterruptOffer, foldl_single (p := p) (List.nodup_finRange 4) (List.mem_finRange p) fun q _ hne t => by rw [hq q hne], hp]
  exact congrArg _ (if_pos ht)

/-- A pair that takes offers has no FP exception pending. -/
theorem State.takesOffer_fpPend {p : Pair} (h : s.takesOffer p = true) : (s.pair p).fpPend = none ∧
    s.flag F.LP_EXC_STAT_ARMED p 0 = false := by
  simp only [State.takesOffer, Bool.and_eq_true, Bool.not_eq_true', Option.isNone_iff_eq_none] at h
  obtain ⟨⟨⟨⟨⟨⟨-, -⟩, -⟩, harm⟩, -⟩, hfp⟩, -⟩ := h
  exact ⟨hfp, harm⟩

theorem State.takeOffer_ne {p : Pair} (n : SrcId) (h : (s.pair p).main.ie ≠ (s.pair p).chk.ie) : s.takeOffer p n = s.mismatch p 4 := by
  rw [State.takeOffer, State.compared_of_not _ _ (by simpa using h)]

/-- The offer is taken by an entry, the source locked. -/
theorem State.takeOffer_entry {p : Pair} (n : SrcId) (h : (s.pair p).main.ie = (s.pair p).chk.ie) (hd : (s.pair p).fpDue = none)
    (hl : s.flag F.LP_LS_STAT_LATPEND p 0 = false) (ha : s.flag F.LP_EXC_STAT_ARMED p 0 = false) :
    s.takeOffer p n = ({ s with evc := { s.evc with lock := vset s.evc.lock p (some n) } } : State).takeEntry p
      ⟨0x01, s.fld F.EVC_SRCn_CFG_PRIO n 0 * 4096 + n.val, (s.pair p).resume, 0⟩ := by
  rw [State.takeOffer, State.compared_of _ _ (by simp [h]), if_neg (by simp [hd, hl])]
  have hd' : ((s.modEvc fun e => { e with lock := vset e.lock p (some n) }).pair p).fpDue = none := hd
  have hl' : (s.modEvc fun e => { e with lock := vset e.lock p (some n) }).flag F.LP_LS_STAT_LATPEND p 0 = false := hl
  have ha' : (s.modEvc fun e => { e with lock := vset e.lock p (some n) }).flag F.LP_EXC_STAT_ARMED p 0 = false := ha
  unfold State.enter
  rw [hd']
  simp only [State.enterFrom, hl', ha', Bool.false_eq_true, if_false]
  rfl

/-! ## Ceilings -/

/-- The running priority is at or below that of each active source. -/
theorem foldl_min_le {α : Type} (f : α → Nat) (l : List α) (r : Nat) : l.foldl (fun r n => min r (f n)) r ≤ r ∧
    ∀ n ∈ l, l.foldl (fun r n => min r (f n)) r ≤ f n := by
  induction l generalizing r with
  | nil => exact ⟨le_refl _, fun n hn => absurd hn (by simp)⟩
  | cons a l ih =>
    obtain ⟨h1, h2⟩ := ih (min r (f a))
    rw [List.foldl_cons]
    refine ⟨h1.trans (min_le_left _ _), fun n hn => ?_⟩
    rcases List.mem_cons.1 hn with rfl | hn
    · exact h1.trans (min_le_right _ _)
    · exact h2 n hn

theorem State.runPrio_le {k : Pair} {m : SrcId} (h : s.evc.act[k].getLsbD m = true) : s.runPrio k ≤ s.fld F.EVC_SRCn_CFG_PRIO m 0 :=
  (foldl_min_le _ _ 16).2 m (List.mem_filter.2 ⟨List.mem_finRange m, h⟩)

/-- A source active on a target is among the active ones. -/
theorem getLsbD_or_all (v : Vector (BitVec 512) 4) (p : Fin 4) {m : Nat} (h : v[p].getLsbD m = true) :
    (v[0] ||| v[1] ||| v[2] ||| v[3]).getLsbD m = true := by
  simp only [BitVec.getLsbD_or, Bool.or_eq_true]
  match p, h with
  | 0, h => exact .inl (.inl (.inl h))
  | 1, h => exact .inl (.inl (.inr h))
  | 2, h => exact .inl (.inr h)
  | 3, h => exact .inr h

/-- What the lc's tick shows of a pair. -/
theorem State.evcTick_ceil (p : Pair) :
    let w := s.evcTick
    w.evc.ceil[p] ≤ w.fld F.EVC_TGTk_THR_THR p 0 ∧
    (∀ m : SrcId, w.evc.act[p].getLsbD m = true → w.evc.busy.getLsbD m = true ∧ w.evc.ceil[p] ≤ w.fld F.EVC_SRCn_CFG_PRIO m 0) ∧
    w.evc.ie[p] = (w.pair p).main.ie ∧ w.evc.tid[p] = (w.pair p).tid := by
  intro w
  obtain ⟨u, hu⟩ : ∃ u : State, w = { u with evc := { u.evcSeen with
      ie := Vector.ofFn fun k : Pair => (u.pair k).main.ie
      tid := Vector.ofFn fun k : Pair => (u.pair k).tid
      occ := 0 } } := ⟨_, rfl⟩
  have hceil : w.evc.ceil[p] = u.ceiling p := by
    rw [hu]; exact Vector.getElem_ofFn _
  rw [hceil]
  refine ⟨?_, fun m hm => ⟨?_, ?_⟩, ?_, ?_⟩
  · rw [hu]; exact min_le_right _ _
  · rw [hu] at hm ⊢
    exact getLsbD_or_all u.evc.act p hm
  · rw [hu] at hm ⊢
    exact (min_le_left _ _).trans (State.runPrio_le (s := u) hm)
  · rw [hu]; exact Vector.getElem_ofFn _
  · rw [hu]; exact Vector.getElem_ofFn _

/-! ## Acknowledges -/

/-- Held writes touch the mask and pending bits, and set no pending bit. -/
theorem EvcSt.applyHeld_only (e : EvcSt) (h : HeldWrite) : ∃ m q, e.applyHeld h = { e with mask := m, pend := q } ∧
    ∀ k, e.pend.getLsbD k = false → q.getLsbD k = false := by
  cases h with
  | maskSet n => exact ⟨_, _, rfl, fun _ hk => hk⟩
  | maskClr n => exact ⟨_, _, rfl, fun _ hk => hk⟩
  | pendClr n => exact ⟨_, _, rfl, fun k hk => by simp [setSrc, hk]⟩

theorem EvcSt.foldl_applyHeld_only (l : List HeldWrite) (e : EvcSt) : ∃ m q, l.foldl EvcSt.applyHeld e = { e with mask := m, pend := q } ∧
    ∀ k, e.pend.getLsbD k = false → q.getLsbD k = false := by
  induction l generalizing e with
  | nil => exact ⟨e.mask, e.pend, rfl, fun _ hk => hk⟩
  | cons h l ih =>
    obtain ⟨m, q, he, hq⟩ := e.applyHeld_only h
    obtain ⟨m', q', he', hq'⟩ := ih (e.applyHeld h)
    refine ⟨m', q', ?_, fun k hk => hq' k (by rw [he]; exact hq k hk)⟩
    rw [List.foldl_cons, he', he]

theorem setSrc_same (v : BitVec 512) (n : SrcId) (b : Bool) : (setSrc v n b).getLsbD n = b := by
  cases b <;> simp [setSrc]

/-- The event controller once source n is accepted for pair p, before the held writes. -/
def EvcSt.accepted (e : EvcSt) (p : Pair) (n : SrcId) (spread : Bool) : EvcSt :=
  { e with
    pend := setSrc e.pend n false
    act := vset e.act p (setSrc e.act[p] n true)
    lock := vset e.lock p none
    rr := if spread then p + 1 else e.rr }

/-- The held write names source n. -/
def HeldWrite.names (n : SrcId) : HeldWrite → Bool
  | .maskSet m => m == n
  | .maskClr m => m == n
  | .pendClr m => m == n

theorem State.evcAccept_eq {p : Pair} {n : SrcId} (h : s.evc.lock[p] = some n) : ∃ l held, s.evcAccept p =
    ((s.modEvc fun e => e.accepted p n (!s.flag F.EVC_SRCn_CFG_CLASS n 0)).setFld F.EVC_TGTk_STAT_LAST p 0 n.val).modEvc fun e =>
      { List.foldl EvcSt.applyHeld e l with held := held } := by
  refine ⟨s.evc.held.filter (HeldWrite.names n), s.evc.held.filter fun h => !HeldWrite.names n h, ?_⟩
  unfold State.evcAccept
  rw [h]
  rfl

theorem State.fld_modEvc (f : EvcSt → EvcSt) (g : Fld) (i j : Nat) : (s.modEvc f).fld g i j = s.fld g i j := rfl

theorem State.evc_modEvc (f : EvcSt → EvcSt) : (s.modEvc f).evc = f s.evc := rfl

/-- An acknowledge that arrives for a locked source: it is active on the target, no longer pending, the lock gone. -/
theorem State.evcAccept_locked {p : Pair} {n : SrcId} (h : s.evc.lock[p] = some n) :
    let t := s.evcAccept p
    t.evc.act = vset s.evc.act p (setSrc s.evc.act[p] n true) ∧ t.evc.lock = vset s.evc.lock p none ∧
    t.evc.pend.getLsbD n = false ∧ t.fld F.EVC_TGTk_STAT_LAST p 0 = n.val ∧
    t.evc.rr = if s.flag F.EVC_SRCn_CFG_CLASS n 0 then s.evc.rr else p + 1 := by
  obtain ⟨l, held, ht⟩ := State.evcAccept_eq h
  obtain ⟨m, q, hf, hq⟩ := EvcSt.foldl_applyHeld_only l (s.evc.accepted p n (!s.flag F.EVC_SRCn_CFG_CLASS n 0))
  simp only [ht, State.fld_modEvc, State.evc_modEvc, State.setFld_evc, hf]
  refine ⟨rfl, rfl, hq n (setSrc_same _ _ _), ?_, ?_⟩
  · rw [State.fld_setFld_same _ _ _ _ _ (by decide)]
    exact Nat.mod_eq_of_lt n.isLt
  · cases s.flag F.EVC_SRCn_CFG_CLASS n 0 <;> rfl

/-- Settles O19: writes by what opening them leaves; offers by eligibility; the tick's ceilings; the acknowledge. -/
theorem eventsAndInterrupts : Obligations.EventsAndInterrupts := by
  unfold Obligations.EventsAndInterrupts
  refine ⟨?_, ?_⟩
  · intro s r n j v set1 clr1 ns done a setIn quiet
    have howner : ∀ k, a.srcOwner k = s.srcOwner k := s.srcOwner_opened r.master
    refine ⟨fun hc hm ha => ?_, exec_evcEvent_off, ⟨State.evcOccur_unassigned (by decide), fun k hk => State.evcOccur_unassigned hk⟩,
      fun h => ?_, fun h hq => ?_, fun h hq => ?_, fun h hq => ?_, fun b hl => ?_, State.evcPendClear_came, fun p hp h => ?_,
      mem_namedSrcs j v⟩
    · intro o
      refine ⟨fun hp => ?_, fun hp => ?_⟩
      · exact (exec_evcEvent_on hc hm).trans (congrArg _ (State.evcOccur_new (s := o) ha hp))
      · exact (exec_evcEvent_on hc hm).trans (congrArg _ (State.evcOccur_pend (s := o) ha hp))
    · change execEvcPendSet r j v s = _
      refine regCmd_next_of h ?_
      have hset : (namedSrcs j v).foldl (fun b k => if r.owns (a.srcOwner k) then setSrc b k true else b) 0 = ns.foldl set1 0 := by
        simp only [howner]
        exact List.foldl_filter.symm
      change State.evcNamed { a with cyc := .pend (List.foldl _ 0 _) :: a.cyc } r j v State.evcOccur = _
      rw [hset]
      exact State.evcNamed_eq r j v _ howner
    · change execEvcPendClr r j v s = _
      refine regCmd_next_of h ?_
      rw [State.evcPendClrWrite, State.evcNamed_eq r j v _ howner, State.foldl_evcPendClear _ _ (State.evcQuiet_opened hq), State.opened_evc]
    · change execEvcMaskSet r j v s = _
      refine regCmd_next_of h ?_
      rw [State.evcMaskSetWrite, State.evcNamed_eq r j v _ howner,
        State.foldl_evcMask true _ _ fun k => (State.evcQuiet_opened hq k).1, State.opened_evc]
      rfl
    · change execEvcMaskClr r j v s = _
      refine regCmd_next_of h ?_
      rw [State.evcMaskClrWrite, State.evcNamed_eq r j v _ howner,
        State.foldl_evcMask false _ _ fun k => (State.evcQuiet_opened hq k).1, State.opened_evc]
      rfl
    · exact ⟨State.evcMask_locked b hl, fun ho hs => State.evcPendClear_locked hl ho hs⟩
    · intro k
      change execEvcCmpl r v s = _
      refine regCmd_next_of h ?_
      rw [State.evcComplete_pair hp, State.opened_evc]
  · intro s p n hq hp ht x prio cfg u
    obtain ⟨hpend, harm⟩ := State.takesOffer_fpPend ht
    obtain ⟨h1, h2, h3, h4, h5, h6, h7, h8⟩ := State.eligible_unpack (State.offers_eligible hp)
    refine ⟨fun hne => ?_, fun heq ho hl => ?_, h1, h2, h3, h4, h5, h6, h7, h8, State.evcTick_ceil p, ?_⟩
    · rw [exec_interruptOffer hq hp ht, State.takeOffer_ne n hne]
    · have hd : (s.pair p).fpDue = none := by
        change (s.pair p).fpPend.or (s.pair p).fpOut = none
        rw [hpend, show (s.pair p).fpOut = none from ho]
        rfl
      rw [exec_interruptOffer hq hp ht, State.takeOffer_entry n heq hd hl harm]
    · have hlock : u.evc.lock[p] = some n := vset_getElem_same _ _ _
      obtain ⟨hact, hlk, hpd, hlast, hrr⟩ := State.evcAccept_locked hlock
      refine ⟨?_, ?_, fun q hqp => ?_, hpd, hlast, hrr⟩
      · rw [hact]
        exact (congrArg (fun w => BitVec.getLsbD w n) (vset_getElem_same _ p _)).trans (setSrc_same _ _ _)
      · rw [hlk]; exact vset_getElem_same _ p _
      · rw [hact]; exact vset_getElem_ne _ _ (Ne.symm hqp)

end Sys2Proof.Machine
end

