-- ==== Sys2Proof/Proofs/QueueRules.lean ====
section
/-! PROOF. Queues as lists: fill, items, what a write, a pop, a drop and a flush make of them (R340 to R348). -/

namespace Sys2Proof.Machine

/-! ## Pointers of a ring -/

/-- The pointer m places after `rd` lies m after it. -/
theorem ring_fill_add {N m : Nat} (rd : Nat) (h : m < N) : ((rd + m) % N + N - rd % N) % N = m := by
  have hr : rd % N < N := Nat.mod_lt _ (by omega)
  rw [Nat.add_mod, Nat.mod_eq_of_lt h]
  by_cases hw : rd % N + m < N
  · rw [Nat.mod_eq_of_lt hw, show rd % N + m + N - rd % N = m + N by omega, Nat.add_mod_right, Nat.mod_eq_of_lt h]
  · have hm : (rd % N + m) % N = rd % N + m - N := by rw [Nat.mod_eq_sub_mod (by omega), Nat.mod_eq_of_lt (by omega)]
    rw [hm, show rd % N + m - N + N - rd % N = m by omega, Nat.mod_eq_of_lt h]

/-- The write pointer lies the fill after the read pointer. -/
theorem ring_add_fill {N rd wr : Nat} (hr : rd < N) (hw : wr < N) : (rd + (wr + N - rd % N) % N) % N = wr := by
  rw [Nat.mod_eq_of_lt hr, Nat.add_mod_mod, show rd + (wr + N - rd) = wr + N by omega, Nat.add_mod_right, Nat.mod_eq_of_lt hw]

/-- Two places of a ring less than its size apart are different. -/
theorem ring_ne {D a b : Nat} (h : a < b) (hb : b < a + D) : a % D ≠ b % D := by
  intro e
  have h0 : (b - a) % D = 0 := Nat.sub_mod_eq_zero_of_mod_eq e.symm
  rw [Nat.mod_eq_of_lt (by omega)] at h0
  omega

variable {s : State} {q : QId}

/-! ## The parts of a queue -/

/-- The word and the tags of slot i of a queue. -/
def State.qCell (s : State) (q : QId) (i : Nat) : Word × BitVec 2 :=
  (s.word (qAddr (s.fld F.Qn_CFG_BASE q 0 + i)), s.qTags (s.fld F.Qn_CFG_BASE q 0 + i))

theorem State.items_eq (s : State) (q : QId) :
    s.items q = (List.range (s.qFill q)).map fun k => s.qCell q ((s.qRd q + k) % s.qDepth q) := rfl

theorem State.items_length (s : State) (q : QId) : (s.items q).length = s.qFill q := by simp [State.items_eq]

theorem State.items_getElem {k : Nat} (h : k < (s.items q).length) : (s.items q)[k] = s.qCell q ((s.qRd q + k) % s.qDepth q) := by
  simp [State.items_eq]

theorem State.qDepth_pos (s : State) (q : QId) : 0 < s.qDepth q := Nat.two_pow_pos _

theorem State.qDepth_le (s : State) (q : QId) : 2 * s.qDepth q ≤ 65536 := by
  have hk : s.qK q < 2 ^ (31 + 1 - 28) := getBits_lt _ _ _
  have : s.qDepth q ≤ 2 ^ 15 := Nat.pow_le_pow_right (by decide) (by omega)
  omega

theorem State.qWr_eq (h : s.queueSound q) : s.qWr q = (s.qRd q + s.qFill q) % (2 * s.qDepth q) := by
  obtain ⟨-, hr, hw, -⟩ := h
  exact (ring_add_fill hr hw).symm

/-- The configuration of a queue, its pointers and its slots stand as they were. -/
structure State.qAlike (s t : State) (q : QId) : Prop where
  k : t.qK q = s.qK q
  base : t.fld F.Qn_CFG_BASE q 0 = s.fld F.Qn_CFG_BASE q 0
  cell : ∀ i, t.qCell q i = s.qCell q i

theorem State.qAlike.depth {t : State} (h : s.qAlike t q) : t.qDepth q = s.qDepth q := by rw [State.qDepth, State.qDepth, h.k]

theorem Qn_PTR_ne (q : QId) : RegName.Qn_CFG.addr q 0 ≠ RegName.Qn_PTR.addr q 0 := by
  simp [RegName.addr, RegName.base, RegName.dims]

/-- A change of registers other than the configuration leaves configuration and slots. -/
theorem State.qAlike_setFld {f : Fld} (v : Nat) (h : RegName.Qn_CFG.addr q 0 ≠ f.reg.addr q 0) : s.qAlike (s.setFld f q 0 v) q := by
  have hbase : (s.setFld f q 0 v).fld F.Qn_CFG_BASE q 0 = s.fld F.Qn_CFG_BASE q 0 := State.fld_setFld_ne _ _ h
  exact ⟨State.fld_setFld_ne _ _ h, hbase, fun i => by rw [State.qCell, hbase]; rfl⟩

theorem State.qAlike_setPtr {f : Fld} (hf : f.reg = .Qn_PTR) (ptr : Nat) : s.qAlike (s.qSetPtr f q ptr) q :=
  State.qAlike_setFld _ (hf ▸ Qn_PTR_ne q)

/-- Moving the read pointer. -/
theorem State.qSetRd (s : State) (q : QId) (ptr : Nat) : (s.qSetPtr F.Qn_PTR_RD q ptr).qRd q = ptr % (2 * s.qDepth q) ∧
    (s.qSetPtr F.Qn_PTR_RD q ptr).qWr q = s.qWr q := by
  have hd := s.qDepth_le q
  have hlt : ptr % (2 * s.qDepth q) < 2 * s.qDepth q := Nat.mod_lt _ (by have := s.qDepth_pos q; omega)
  refine ⟨(State.fld_setFld_same _ _ _ _ _ (by decide)).trans (Nat.mod_eq_of_lt ?_), State.fld_setFld_apart _ _ rfl (by decide) (by decide) (by decide)⟩
  exact lt_of_lt_of_le hlt hd

/-- Moving the write pointer. -/
theorem State.qSetWr (s : State) (q : QId) (ptr : Nat) : (s.qSetPtr F.Qn_PTR_WR q ptr).qWr q = ptr % (2 * s.qDepth q) ∧
    (s.qSetPtr F.Qn_PTR_WR q ptr).qRd q = s.qRd q := by
  have hd := s.qDepth_le q
  have hlt : ptr % (2 * s.qDepth q) < 2 * s.qDepth q := Nat.mod_lt _ (by have := s.qDepth_pos q; omega)
  refine ⟨(State.fld_setFld_same _ _ _ _ _ (by decide)).trans (Nat.mod_eq_of_lt ?_), State.fld_setFld_apart _ _ rfl (by decide) (by decide) (by decide)⟩
  exact lt_of_lt_of_le hlt hd

/-- The registers decide where the items lie. -/
theorem State.queue_of_regs {t : State} (h : t.regs = s.regs) (q : QId) : t.qDepth q = s.qDepth q ∧ t.qRd q = s.qRd q ∧
    t.qWr q = s.qWr q ∧ t.qFill q = s.qFill q := by
  simp only [State.qFill, State.qDepth, State.qK, State.qRd, State.qWr, State.fld_of_regs h, and_self]

/-! ## Taking items -/

/-- Moving the read pointer n items on leaves the items after them. -/
theorem State.items_qSetRd (h : s.queueSound q) {n : Nat} (hn : n ≤ s.qFill q) :
    (s.qSetPtr F.Qn_PTR_RD q (s.qRd q + n)).items q = (s.items q).drop n ∧ (s.qSetPtr F.Qn_PTR_RD q (s.qRd q + n)).queueSound q := by
  obtain ⟨hk, hr, hw, hf⟩ := id h
  have hwr := State.qWr_eq h
  have hd := s.qDepth_pos q
  obtain ⟨hrd', hwr'⟩ := s.qSetRd q (s.qRd q + n)
  have alike := s.qAlike_setPtr (q := q) (f := F.Qn_PTR_RD) rfl (s.qRd q + n)
  have hdepth := alike.depth
  generalize hu : s.qSetPtr F.Qn_PTR_RD q (s.qRd q + n) = u at *
  have hfill : u.qFill q = s.qFill q - n := by
    rw [State.qFill, hwr', hrd', hdepth, hwr, Nat.mod_mod]
    conv_lhs => rw [show s.qRd q + s.qFill q = s.qRd q + n + (s.qFill q - n) by omega]
    exact ring_fill_add _ (by omega)
  refine ⟨List.ext_getElem (by simp [State.items_length, hfill]) fun k h1 h2 => ?_, ?_⟩
  · rw [State.items_getElem, List.getElem_drop, State.items_getElem, alike.cell, hrd', hdepth]
    congr 1
    rw [Nat.add_mod, Nat.mod_mul_left_mod, ← Nat.add_mod, Nat.add_assoc]
  · refine ⟨alike.k ▸ hk, ?_, ?_, ?_⟩
    · rw [hrd', hdepth]; exact Nat.mod_lt _ (by omega)
    · rw [hwr', hdepth]; exact hw
    · rw [hfill, hdepth]; omega

/-- FLUSH is the read pointer moved past every item. -/
theorem State.qFlush_eq (h : s.queueSound q) : s.qFlush q = s.qSetPtr F.Qn_PTR_RD q (s.qRd q + s.qFill q) := by
  obtain ⟨-, -, hw, -⟩ := id h
  rw [State.qFlush, State.qSetPtr, State.qSetPtr, ← State.qWr_eq h, Nat.mod_eq_of_lt hw]

theorem State.items_qFlush (h : s.queueSound q) : (s.qFlush q).items q = [] := by
  rw [State.qFlush_eq h, (State.items_qSetRd h (le_refl _)).1, List.drop_eq_nil_iff, State.items_length]

theorem State.items_nil_iff : s.items q = [] ↔ s.qFill q = 0 := by
  rw [← List.length_eq_zero_iff, State.items_length]

theorem State.qPop_empty (h : s.items q = []) : s.qPop q = (0, s.bump F.Qn_UNDER_COUNT q 0) := if_pos (State.items_nil_iff.1 h)

theorem State.qPop_cons (h : s.queueSound q) {x : Word × BitVec 2} {xs : List (Word × BitVec 2)} (hi : s.items q = x :: xs) :
    (s.qPop q).1 = x.1 ∧ (s.qPop q).2.items q = xs ∧ (s.qPop q).2.queueSound q := by
  have hf : s.qFill q ≠ 0 := fun e => by rw [State.items_nil_iff.2 e] at hi; exact absurd hi (by simp)
  have hpop : s.qPop q = (s.word (qAddr (s.qSlot q (s.qRd q))), s.qSetPtr F.Qn_PTR_RD q (s.qRd q + 1)) := if_neg hf
  obtain ⟨hitems, hsound⟩ := State.items_qSetRd h (n := 1) (by omega)
  have hx : (s.items q)[0]'(by rw [State.items_length]; omega) = x := by simp [hi]
  rw [State.items_getElem] at hx
  rw [hpop, ← hx]
  exact ⟨rfl, by rw [hitems, hi]; rfl, hsound⟩

/-! ## Writing items -/

/-- The queue's pointers and slots decide its items. -/
theorem State.items_write {t : State} (h : s.queueSound q) (hfree : s.qFill q < s.qDepth q) {x : Word × BitVec 2}
    (hk : t.qK q = s.qK q) (hrd : t.qRd q = s.qRd q) (hwr : t.qWr q = (s.qWr q + 1) % (2 * s.qDepth q))
    (hcell : ∀ i, t.qCell q i = if i = s.qWr q % s.qDepth q then x else s.qCell q i) :
    t.qFill q = s.qFill q + 1 ∧ t.items q = s.items q ++ [x] ∧ t.queueSound q := by
  obtain ⟨h2, hr, hw, hf⟩ := id h
  have hd := s.qDepth_pos q
  have hdepth : t.qDepth q = s.qDepth q := by rw [State.qDepth, State.qDepth, hk]
  have hw' := State.qWr_eq h
  have hfill : t.qFill q = s.qFill q + 1 := by
    rw [State.qFill, hwr, hrd, hdepth, hw', Nat.mod_add_mod, Nat.add_assoc]
    exact ring_fill_add _ (by omega)
  have hslot : s.qWr q % s.qDepth q = (s.qRd q + s.qFill q) % s.qDepth q := by rw [hw', Nat.mod_mul_left_mod]
  refine ⟨hfill, ?_, hk ▸ h2, ?_, ?_, ?_⟩
  · rw [State.items_eq, hfill, List.range_succ, List.map_append, List.map_singleton, hrd, hdepth, hcell, if_pos hslot.symm, State.items_eq]
    refine congrArg (· ++ _) (List.map_congr_left fun k hk => ?_)
    have hk := List.mem_range.1 hk
    rw [hcell, if_neg]
    rw [hslot]
    exact ring_ne (by omega) (by omega)
  · rw [hrd, hdepth]; exact hr
  · rw [hwr, hdepth]; exact Nat.mod_lt _ (by omega)
  · rw [hfill, hdepth]; omega

/-- What a write of a slot leaves, before its fill event. -/
def State.qStored (s : State) (q : QId) (w : Word) (tags : BitVec 2) : State :=
  ({ s.setWord (qAddr (s.qSlot q (s.qWr q))) w with qtag := s.qtag.put (s.qSlot q (s.qWr q)) tags 0 } : State).qSetPtr F.Qn_PTR_WR q
    (s.qWr q + 1)

theorem State.qWrite_eq (s : State) (q : QId) (w : Word) (tags : BitVec 2) :
    s.qWrite q w tags = (s.qStored q w tags).qFillEvent q (s.qFill q) := by
  have hm := s.setWord_only_mem (qAddr (s.qSlot q (s.qWr q))) w
  unfold State.qWrite State.qStored
  dsimp only
  rw [hm]
  rfl

/-- A word at another slot of the queue RAM is left. -/
theorem State.qCell_store {t : State} {i j : Nat} {w : Word} {tags : BitVec 2}
    (hbase : t.fld F.Qn_CFG_BASE q 0 = s.fld F.Qn_CFG_BASE q 0)
    (hm : t.mem = (s.setWord (qAddr (s.fld F.Qn_CFG_BASE q 0 + j)) w).mem)
    (ht : t.qtag = s.qtag.put (s.fld F.Qn_CFG_BASE q 0 + j) tags 0) :
    t.qCell q i = if i = j then (w, tags) else s.qCell q i := by
  have hword : ∀ a, t.word a = (s.setWord (qAddr (s.fld F.Qn_CFG_BASE q 0 + j)) w).word a := fun a => by
    simp only [State.word, State.readLE, State.byte, hm]
  rw [State.qCell, hbase, hword, State.qTags, ht]
  split
  · next h => rw [h, State.word_setWord_same, SMap.get_put_same]
  · next h =>
    rw [State.word_setWord_ne _ _ (by unfold qAddr; omega), SMap.get_put_ne _ _ _ _ (by omega)]
    rfl

theorem State.qStored_items (h : s.queueSound q) (hfree : s.qFill q < s.qDepth q) (w : Word) (tags : BitVec 2) :
    (s.qStored q w tags).qFill q = s.qFill q + 1 ∧ (s.qStored q w tags).items q = s.items q ++ [(w, tags)] ∧
    (s.qStored q w tags).queueSound q := by
  have hregs : ({ s.setWord (qAddr (s.qSlot q (s.qWr q))) w with qtag := s.qtag.put (s.qSlot q (s.qWr q)) tags 0 } : State).regs = s.regs := by
    rw [State.setWord_only_mem]
  generalize hv : ({ s.setWord (qAddr (s.qSlot q (s.qWr q))) w with qtag := s.qtag.put (s.qSlot q (s.qWr q)) tags 0 } : State) = v at hregs
  have hst : s.qStored q w tags = v.qSetPtr F.Qn_PTR_WR q (s.qWr q + 1) := by rw [State.qStored, hv]
  have hfld : ∀ f i j, v.fld f i j = s.fld f i j := fun f i j => by simp only [State.fld, State.reg, hregs]
  have hdepth : v.qDepth q = s.qDepth q := by rw [State.qDepth, State.qDepth, State.qK, hfld]; rfl
  obtain ⟨hwr, hrd⟩ := v.qSetWr q (s.qWr q + 1)
  have alike := v.qAlike_setPtr (q := q) (f := F.Qn_PTR_WR) rfl (s.qWr q + 1)
  rw [hst]
  refine State.items_write h hfree ?_ ?_ ?_ fun i => ?_
  · rw [alike.k]; exact hfld _ _ _
  · rw [hrd]; exact hfld _ _ _
  · rw [hwr, hdepth]
  · rw [alike.cell]
    refine State.qCell_store (hfld _ _ _) ?_ ?_
    · rw [← hv]; rfl
    · rw [← hv]; rfl

/-- The fill event goes on the calendar (R348). -/
theorem State.qFillEvent_eq (s : State) (q : QId) (before : Nat) : s.qFillEvent q before =
    { s with cal := s.cal ++ (if s.qFill q = s.fld F.Qn_MARK_HI q 0 ∧ before + 1 = s.qFill q
      then [(s.now + 1, .evcEvent (Fin.ofNat 512 (0x080 + q.val)))] else []) } := by
  unfold State.qFillEvent
  split
  · rfl
  · simp

theorem State.qFillEvent_same (s : State) (q : QId) (before : Nat) : (s.qFillEvent q before).items q = s.items q ∧
    ((s.qFillEvent q before).queueSound q ↔ s.queueSound q) ∧ (s.qFillEvent q before).regs = s.regs ∧
    (∀ a, (s.qFillEvent q before).byte a = s.byte a) := by
  rw [State.qFillEvent_eq]; exact ⟨rfl, Iff.rfl, rfl, fun _ => rfl⟩

theorem State.qStored_frame (s : State) (q : QId) (w : Word) (tags : BitVec 2) :
    (∀ a, a < qAddr (s.qSlot q (s.qWr q)) ∨ qAddr (s.qSlot q (s.qWr q)) + 4 ≤ a → (s.qStored q w tags).byte a = s.byte a) ∧
    (s.qStored q w tags).cal = s.cal ∧ (s.qStored q w tags).now = s.now ∧
    (∀ f : Fld, ∀ i j, f.reg.addr i j ≠ RegName.Qn_PTR.addr q 0 → (s.qStored q w tags).fld f i j = s.fld f i j) := by
  have hm := s.setWord_only_mem (qAddr (s.qSlot q (s.qWr q))) w
  have hmem : (s.qStored q w tags).mem = (s.setWord (qAddr (s.qSlot q (s.qWr q))) w).mem := rfl
  refine ⟨fun a ha => ?_, ?_⟩
  · rw [← s.byte_setWord_ne w ha]
    simp only [State.byte, hmem]
  unfold State.qStored
  refine ⟨by rw [hm]; rfl, by rw [hm]; rfl, fun f i j h => ?_⟩
  rw [State.qSetPtr, State.fld_setFld_ne _ _ h, hm]
  rfl

/-- A word written goes behind the items. -/
theorem State.items_qWrite (h : s.queueSound q) (hfree : s.qFill q < s.qDepth q) (w : Word) (tags : BitVec 2) :
    (s.qWrite q w tags).items q = s.items q ++ [(w, tags)] ∧ (s.qWrite q w tags).queueSound q := by
  obtain ⟨-, hitems, hsound⟩ := State.qStored_items h hfree w tags
  obtain ⟨h1, h2, -⟩ := (s.qStored q w tags).qFillEvent_same q (s.qFill q)
  rw [State.qWrite_eq]
  exact ⟨h1.trans hitems, h2.2 hsound⟩

theorem State.byte_qWrite (s : State) (q : QId) (w : Word) (tags : BitVec 2) {a : Nat}
    (ha : a < qAddr (s.qSlot q (s.qWr q)) ∨ qAddr (s.qSlot q (s.qWr q)) + 4 ≤ a) : (s.qWrite q w tags).byte a = s.byte a := by
  rw [State.qWrite_eq, ((s.qStored q w tags).qFillEvent_same q _).2.2.2, (s.qStored_frame q w tags).1 a ha]

theorem State.cal_qWrite (h : s.queueSound q) (hfree : s.qFill q < s.qDepth q) (w : Word) (tags : BitVec 2) :
    (s.qWrite q w tags).cal = s.cal ++ (if s.qFill q + 1 = s.fld F.Qn_MARK_HI q 0
      then [(s.now + 1, .evcEvent (Fin.ofNat 512 (0x080 + q.val)))] else []) := by
  obtain ⟨hfill, -, -⟩ := State.qStored_items h hfree w tags
  obtain ⟨-, hcal, hnow, hfld⟩ := s.qStored_frame q w tags
  have hhi := hfld F.Qn_MARK_HI q 0 (by simp [RegName.addr, RegName.base, RegName.dims, F.Qn_MARK_HI])
  rw [State.qWrite_eq, State.qFillEvent_eq]
  simp only [hcal, hnow, hfill, hhi, and_true]

/-! ## DROP_PKT -/

/-- The tags from a place of the queue on. -/
def State.qTagAt (s : State) (q : QId) (ptr : Nat) : BitVec 2 := s.qTags (s.qSlot q ptr)

theorem State.qTagAt_eq (s : State) (q : QId) (ptr : Nat) : s.qTagAt q ptr = (s.qCell q (ptr % s.qDepth q)).2 := by
  rw [State.qTagAt, State.qSlot, State.qCell]

theorem State.items_tag {k : Nat} {P : BitVec 2 → Bool} (h : ((s.items q)[k]?).any (fun x => P x.2) = true) :
    P (s.qTagAt q (s.qRd q + k)) = true := by
  by_cases hk : k < (s.items q).length
  · rw [List.getElem?_eq_getElem hk, Option.any_some, State.items_getElem hk] at h
    exact h
  · rw [List.getElem?_eq_none (by omega)] at h
    exact absurd h (by simp)

/-- What DROP_PKT passes: the plain items before the first marker or EOP. -/
theorem State.qPacket_stop {n k ptr r : Nat} (hk : k < n) (h0 : ∀ i < k, s.qTagAt q (ptr + i) = 0)
    (hr : s.qPacket q (n - k) (ptr + k) = some r) : s.qPacket q n ptr = some (k + r) := by
  induction k generalizing n ptr with
  | zero => simpa using hr
  | succ k ih =>
    obtain ⟨m, rfl⟩ : ∃ m, n = m + 1 := ⟨n - 1, by omega⟩
    have ht : s.qTags (s.qSlot q ptr) = 0 := h0 0 (by omega)
    have hrest := ih (n := m) (ptr := ptr + 1) (by omega) (fun i hi => by
      have := h0 (i + 1) (by omega)
      rwa [show ptr + (i + 1) = ptr + 1 + i by omega] at this) (by
        rwa [show m + 1 - (k + 1) = m - k by omega, show ptr + (k + 1) = ptr + 1 + k by omega] at hr)
    rw [State.qPacket, ht, hrest]
    simp
    omega

theorem State.qPacket_marker {n ptr : Nat} (hn : 0 < n) (h : (s.qTagAt q ptr).getLsbD 1 = true) : s.qPacket q n ptr = some 0 := by
  obtain ⟨m, rfl⟩ : ∃ m, n = m + 1 := ⟨n - 1, by omega⟩
  exact if_pos h

theorem State.qPacket_eop {n ptr : Nat} (hn : 0 < n) (h : (!(s.qTagAt q ptr).getLsbD 1 && (s.qTagAt q ptr).getLsbD 0) = true) :
    s.qPacket q n ptr = some 1 := by
  obtain ⟨m, rfl⟩ : ∃ m, n = m + 1 := ⟨n - 1, by omega⟩
  rw [Bool.and_eq_true, Bool.not_eq_true'] at h
  rw [State.qPacket]
  exact (if_neg (by rw [show s.qTags (s.qSlot q ptr) = s.qTagAt q ptr from rfl, h.1]; simp)).trans (if_pos h.2)

theorem State.qPacket_none {n ptr : Nat} (h0 : ∀ i < n, s.qTagAt q (ptr + i) = 0) : s.qPacket q n ptr = none := by
  induction n generalizing ptr with
  | zero => rfl
  | succ n ih =>
    have ht : s.qTags (s.qSlot q ptr) = 0 := h0 0 (by omega)
    rw [State.qPacket, ht, ih fun i hi => by
      have := h0 (i + 1) (by omega)
      rwa [show ptr + (i + 1) = ptr + 1 + i by omega] at this]
    simp

/-- DROP_PKT that passes r items. -/
theorem State.items_qDropPkt (h : s.queueSound q) {r : Nat} (hr : r ≤ s.qFill q) (hp : s.qPacket q (s.qFill q) (s.qRd q) = some r) :
    (s.qDropPkt q).items q = (s.items q).drop r := by
  unfold State.qDropPkt
  rw [hp]
  exact (State.items_qSetRd h hr).1

/-- DROP_PKT where no item ends a packet: the rest of the packet will be dropped as it comes. -/
theorem State.qDropPkt_none (h : s.queueSound q) (hp : s.qPacket q (s.qFill q) (s.qRd q) = none) :
    (s.qDropPkt q).items q = [] ∧ (s.qDropPkt q).flag F.Qn_STAT_DROPPING q 0 = true := by
  have hdrop : s.qDropPkt q = (s.qFlush q).setFld F.Qn_STAT_DROPPING q 0 1 := by
    unfold State.qDropPkt
    rw [hp]
    rfl
  rw [hdrop]
  refine ⟨?_, by rw [State.flag, State.fld_setFld_same _ _ _ _ _ (by decide)]; rfl⟩
  refine State.items_nil_iff.2 ?_
  have hne : RegName.Qn_PTR.addr q 0 ≠ RegName.Qn_STAT.addr q 0 := by simp [RegName.addr, RegName.base, RegName.dims]
  have alike := (s.qFlush q).qAlike_setFld (q := q) (f := F.Qn_STAT_DROPPING) 1
    (by simp [RegName.addr, RegName.base, RegName.dims, F.Qn_STAT_DROPPING])
  have hzero := State.items_nil_iff.1 (State.items_qFlush h)
  rw [State.qFill, alike.depth, State.qWr, State.qRd, State.fld_setFld_ne _ _ hne, State.fld_setFld_ne _ _ hne]
  exact hzero

/-! ## Drops -/

/-- With its pointers too as they were, a queue holds what it held. -/
theorem State.qAlike.same {t : State} (h : s.qAlike t q) (hr : t.qRd q = s.qRd q) (hw : t.qWr q = s.qWr q) :
    t.qFill q = s.qFill q ∧ t.items q = s.items q ∧ (t.queueSound q ↔ s.queueSound q) := by
  have hd := h.depth
  have hfill : t.qFill q = s.qFill q := by rw [State.qFill, State.qFill, hr, hw, hd]
  refine ⟨hfill, ?_, ?_⟩
  · rw [State.items_eq, State.items_eq, hfill, hr, hd]
    exact List.map_congr_left fun k _ => h.cell _
  · rw [State.queueSound, State.queueSound, h.k, hr, hw, hd, hfill]

/-- The state once a drop is counted. -/
theorem State.qCounted_alike (s : State) (q : QId) : s.qAlike (s.bump F.Qn_DROPS_COUNT q 0) q ∧
    (s.bump F.Qn_DROPS_COUNT q 0).qRd q = s.qRd q ∧ (s.bump F.Qn_DROPS_COUNT q 0).qWr q = s.qWr q := by
  have hcfg : RegName.Qn_CFG.addr q 0 ≠ RegName.Qn_DROPS.addr q 0 := by simp [RegName.addr, RegName.base, RegName.dims]
  have hptr : RegName.Qn_PTR.addr q 0 ≠ RegName.Qn_DROPS.addr q 0 := by simp [RegName.addr, RegName.base, RegName.dims]
  have hbase : (s.bump F.Qn_DROPS_COUNT q 0).fld F.Qn_CFG_BASE q 0 = s.fld F.Qn_CFG_BASE q 0 := State.fld_bump_ne _ hcfg
  exact ⟨⟨State.fld_bump_ne _ hcfg, hbase, fun i => by rw [State.qCell, hbase]; rfl⟩, State.fld_bump_ne _ hptr, State.fld_bump_ne _ hptr⟩

/-- The newest slot holds the last item. -/
theorem State.qNewest_slot (h : s.queueSound q) (hf : 0 < s.qFill q) :
    (s.qWr q + s.qDepth q - 1) % s.qDepth q = (s.qRd q + (s.qFill q - 1)) % s.qDepth q := by
  have hd := s.qDepth_pos q
  have hw := State.qWr_eq h
  have hmod : (s.qWr q + (s.qDepth q - 1)) % s.qDepth q = (s.qRd q + s.qFill q + (s.qDepth q - 1)) % s.qDepth q := by
    rw [Nat.add_mod, hw, Nat.mod_mul_left_mod, ← Nat.add_mod]
  rw [show s.qWr q + s.qDepth q - 1 = s.qWr q + (s.qDepth q - 1) by omega, hmod,
    show s.qRd q + s.qFill q + (s.qDepth q - 1) = s.qRd q + (s.qFill q - 1) + s.qDepth q by omega, Nat.add_mod_right]

theorem State.items_last (h : s.queueSound q) {x : Word × BitVec 2} {xs : List (Word × BitVec 2)} (hi : s.items q = xs ++ [x]) :
    s.qFill q = xs.length + 1 ∧ s.qCell q ((s.qWr q + s.qDepth q - 1) % s.qDepth q) = x := by
  have hlen : s.qFill q = xs.length + 1 := by rw [← State.items_length, hi]; simp
  refine ⟨hlen, ?_⟩
  have hx : (s.items q)[xs.length]'(by rw [State.items_length]; omega) = x := by simp [hi]
  rw [State.items_getElem] at hx
  rw [State.qNewest_slot h (by omega), hlen]
  exact hx

/-- A word put in the newest slot. -/
theorem State.items_setNewest (h : s.queueSound q) {x : Word × BitVec 2} {xs : List (Word × BitVec 2)} (hi : s.items q = xs ++ [x])
    (w : Word) : (s.setWord (qAddr (s.qSlot q (s.qWr q + s.qDepth q - 1))) w).items q = xs ++ [(w, x.2)] := by
  obtain ⟨hlen, hlast⟩ := State.items_last h hi
  have hf : s.qFill q ≤ s.qDepth q := h.2.2.2
  have hm := s.setWord_only_mem (qAddr (s.qSlot q (s.qWr q + s.qDepth q - 1))) w
  have hcell : ∀ i, (s.setWord (qAddr (s.qSlot q (s.qWr q + s.qDepth q - 1))) w).qCell q i =
      if i = (s.qWr q + s.qDepth q - 1) % s.qDepth q then (w, x.2) else s.qCell q i := by
    intro i
    have hfld : (s.setWord (qAddr (s.qSlot q (s.qWr q + s.qDepth q - 1))) w).fld F.Qn_CFG_BASE q 0 = s.fld F.Qn_CFG_BASE q 0 :=
      State.fld_of_regs (by rw [hm]) _ _ _
    have htag : ∀ j, (s.setWord (qAddr (s.qSlot q (s.qWr q + s.qDepth q - 1))) w).qTags j = s.qTags j :=
      fun j => congrArg (fun m => SMap.get m j 0) (by rw [hm])
    rw [State.qCell, hfld, htag]
    split
    · next e => rw [← hlast, e, State.qSlot, State.word_setWord_same]; rfl
    · next e =>
      rw [State.word_setWord_ne _ _ (by unfold qAddr State.qSlot; omega)]
      rfl
  have hitems : (s.setWord (qAddr (s.qSlot q (s.qWr q + s.qDepth q - 1))) w).items q = (List.range (s.qFill q)).map fun k =>
      (s.setWord (qAddr (s.qSlot q (s.qWr q + s.qDepth q - 1))) w).qCell q ((s.qRd q + k) % s.qDepth q) := by
    obtain ⟨hd, hr, -, hfl⟩ := State.queue_of_regs (s := s) (t := s.setWord (qAddr (s.qSlot q (s.qWr q + s.qDepth q - 1))) w) (by rw [hm]) q
    rw [State.items_eq, hfl, hr, hd]
  have hxs : (List.range xs.length).map (fun k => s.qCell q ((s.qRd q + k) % s.qDepth q)) = xs := by
    refine List.ext_getElem (by simp) fun k h1 h2 => ?_
    have hk : k < (s.items q).length := by rw [State.items_length]; omega
    have := State.items_getElem hk
    simp only [hi, List.getElem_append_left h2] at this
    simp [this]
  have hnew := State.qNewest_slot h (by omega)
  rw [hlen, Nat.add_sub_cancel] at hnew
  rw [hitems, hlen, List.range_succ, List.map_append, List.map_singleton, hcell, if_pos hnew.symm]
  refine congrArg (· ++ _) (Eq.trans (List.map_congr_left fun k hk => ?_) hxs)
  have hk := List.mem_range.1 hk
  rw [hcell, if_neg]
  rw [hnew]
  exact ring_ne (by omega) (by omega)

/-- A drop counts in the newest gap marker. -/
theorem State.items_qDrop_marker (h : s.queueSound q) {x : Word × BitVec 2} {xs : List (Word × BitVec 2)} (hi : s.items q = xs ++ [x])
    (hx : x.2.getLsbD 1 = true) (hw : getBits x.1 15 0 < 65535) : (s.qDrop q).items q = xs ++ [(x.1 + 1, x.2)] := by
  obtain ⟨alike, hrd, hwr⟩ := s.qCounted_alike q
  obtain ⟨hfill, hitems, hsound⟩ := alike.same hrd hwr
  unfold State.qDrop
  generalize s.bump F.Qn_DROPS_COUNT q 0 = b at *
  have hb := hsound.2 h
  rw [hi] at hitems
  obtain ⟨hlen, hlast⟩ := State.items_last hb hitems
  have htag : b.qTags (b.qSlot q (b.qWr q + b.qDepth q - 1)) = x.2 := congrArg Prod.snd hlast
  have hword : b.word (qAddr (b.qSlot q (b.qWr q + b.qDepth q - 1))) = x.1 := congrArg Prod.fst hlast
  simp only [htag, hword, hx, hlen, hw, Nat.zero_lt_succ, decide_true, Bool.and_self, if_true]
  exact State.items_setNewest hb hitems _

/-- A drop with no marker in the newest slot puts one in the free slot. -/
theorem State.items_qDrop_new (h : s.queueSound q) (hfree : s.qFill q < s.qDepth q)
    (hx : ∀ x xs, s.items q = xs ++ [x] → x.2.getLsbD 1 = false) : (s.qDrop q).items q = s.items q ++ [(1, 2)] := by
  obtain ⟨alike, hrd, hwr⟩ := s.qCounted_alike q
  obtain ⟨hfill, hitems, hsound⟩ := alike.same hrd hwr
  have hdepth := alike.depth
  unfold State.qDrop
  generalize s.bump F.Qn_DROPS_COUNT q 0 = b at *
  have hb := hsound.2 h
  have hno : ((b.qTags (b.qSlot q (b.qWr q + b.qDepth q - 1))).getLsbD 1 && decide (0 < b.qFill q)) = false := by
    by_cases hf : 0 < b.qFill q
    · have hne : b.items q ≠ [] := fun e => by rw [State.items_nil_iff] at e; omega
      have hi := (List.dropLast_append_getLast hne).symm
      obtain ⟨-, hlast⟩ := State.items_last hb hi
      have htag : b.qTags (b.qSlot q (b.qWr q + b.qDepth q - 1)) = ((b.items q).getLast hne).2 := congrArg Prod.snd hlast
      rw [htag, hx _ _ (hitems.symm.trans hi)]
      rfl
    · simp [hf]
  have hfr : b.qFill q < b.qDepth q := by rw [hfill, hdepth]; exact hfree
  simp only [hno, hfr, Bool.false_eq_true, if_false, decide_true, if_true]
  rw [(State.items_qWrite hb hfr 1 2).1, hitems]

/-- What a drop writes besides its count leaves the count. -/
theorem State.drops_qDrop (s : State) (q : QId) :
    (s.qDrop q).fld F.Qn_DROPS_COUNT q 0 = min 0xFFFFFFFF (s.fld F.Qn_DROPS_COUNT q 0 + 1) := by
  have hb := s.fld_bump_same F.Qn_DROPS_COUNT q 0 (by decide)
  have hset : ∀ (b : State) a w, (b.setWord a w).fld F.Qn_DROPS_COUNT q 0 = b.fld F.Qn_DROPS_COUNT q 0 :=
    fun b a w => State.fld_of_regs (by rw [b.setWord_only_mem a w]) _ _ _
  have hwrite : ∀ (b : State) w t, (b.qWrite q w t).fld F.Qn_DROPS_COUNT q 0 = b.fld F.Qn_DROPS_COUNT q 0 := fun b w t => by
    rw [State.qWrite_eq, State.fld_of_regs ((b.qStored q w t).qFillEvent_same q _).2.2.1,
      (b.qStored_frame q w t).2.2.2 _ _ _ (by simp [RegName.addr, RegName.base, RegName.dims, F.Qn_DROPS_COUNT])]
  rw [show (0xFFFFFFFF : Nat) = F.Qn_DROPS_COUNT.max by decide, ← hb]
  unfold State.qDrop
  dsimp only
  split
  · split
    · exact hset _ _ _
    · split
      · exact hwrite _ _ _
      · exact hset _ _ _
  · split
    · exact hwrite _ _ _
    · rfl

/-! ## Bus accesses -/

/-- The pops of the cycle are those recorded. -/
theorem State.cycPops_eq (s : State) (q : QId) : s.cycPops q = s.cyc.countP fun c => c = .pop q := by
  unfold State.cycPops
  refine List.countP_congr fun c _ => ?_
  cases c <;> simp

/-- A push by one who may, to a queue without credit. -/
theorem State.qBusPush_eq {r : Req} {w : Word} {eop : Bool} (hc : s.qCredit q = false) (hm : s.mayPush r.tenant q = true) :
    ∃ p u d g, s.qBusPush r q w eop =
      (let t := if s.flag F.Qn_STAT_DROPPING q 0 = true then (if eop then s.setFld F.Qn_STAT_DROPPING q 0 0 else s)
        else if s.qFill q + (s.cyc.countP fun c => c = .pop q) + 2 ≤ s.qDepth q then s.qWrite q w (if eop then 1 else 0) else s.qDrop q
       { t with cyc := CycAcc.push q w eop p u d g :: t.cyc }) := by
  have hpush : (s.qPush q w eop).2 = if s.flag F.Qn_STAT_DROPPING q 0 = true then (if eop then s.setFld F.Qn_STAT_DROPPING q 0 0 else s)
      else if s.qFill q + (s.cyc.countP fun c => c = .pop q) + 2 ≤ s.qDepth q then s.qWrite q w (if eop then 1 else 0) else s.qDrop q := by
    rw [State.qPush, ← State.cycPops_eq]
    simp only [hc, Bool.false_eq_true, if_false]
    split
    · rfl
    · split <;> rfl
  refine ⟨s.reg .Qn_PTR q 0, s.reg .Qn_STAT q 0, s.reg .Qn_DROPS q 0, s.word (s.qNewest q), ?_⟩
  rw [State.qBusPush, if_neg (by simp [hc]), if_pos hm, State.qPushRec, State.qPushDrop, hpush]

/-- Settles O20: what a queue holds by its ring; bus accesses by what they are let do. -/
theorem queues : Obligations.Queues := by
  unfold Obligations.Queues
  refine ⟨?_, ?_⟩
  · intro s q w tags h items t
    refine ⟨s.items_length q, fun hf => ?_, fun x xs hi => State.qPop_cons h hi, State.qPop_empty, State.items_qFlush h,
      fun k hk h0 hm => ?_, fun k hk h0 he => ?_, fun h0 => ?_⟩
    · obtain ⟨hitems, hsound⟩ := State.items_qWrite h hf w tags
      exact ⟨hsound, hitems, fun a ha => s.byte_qWrite q w tags ha, State.cal_qWrite h hf w tags⟩
    · have hk' : k < s.qFill q := by rwa [← s.items_length q]
      refine State.items_qDropPkt h hk'.le (State.qPacket_stop (r := 0) hk' (fun i hi => ?_) (State.qPacket_marker (by omega) ?_))
      · exact of_decide_eq_true (State.items_tag (P := fun t => decide (t = 0)) (h0 i hi))
      · exact State.items_tag (P := fun t => t.getLsbD 1) hm
    · have hk' : k < s.qFill q := by rwa [← s.items_length q]
      refine State.items_qDropPkt h hk' (State.qPacket_stop (r := 1) hk' (fun i hi => ?_) (State.qPacket_eop (by omega) ?_))
      · exact of_decide_eq_true (State.items_tag (P := fun t => decide (t = 0)) (h0 i hi))
      · exact State.items_tag (P := fun t => !t.getLsbD 1 && t.getLsbD 0) he
    · refine State.qDropPkt_none h (State.qPacket_none fun i hi => ?_)
      have hi' : i < (s.items q).length := by rwa [s.items_length q]
      refine of_decide_eq_true (State.items_tag (P := fun t => decide (t = 0)) ?_)
      rw [List.getElem?_eq_getElem hi', Option.any_some]
      exact decide_eq_true (h0 _ (List.getElem_mem hi'))
  · intro s r q w a mine count
    have hcredit : a.qCredit q = s.qCredit q := State.opened_congr (fun s => s.qCredit q) (fun _ _ _ _ => rfl) s r.master
    have hmay : a.mayPush r.tenant q = s.mayPush r.tenant q :=
      State.opened_congr (fun s => s.mayPush r.tenant q) (fun _ _ _ _ => rfl) s r.master
    have hpop : a.mayPop r q = s.mayPop r q := State.opened_congr (fun s => s.mayPop r q) (fun _ _ _ _ => rfl) s r.master
    have hown : a.queueOwner q = s.queueOwner q := State.opened_congr (fun s => s.queueOwner q) (fun _ _ _ _ => rfl) s r.master
    have hfill : a.qFill q = s.qFill q := (State.queue_of_regs (s.opened_regs r.master) q).2.2.2
    have hdepth : a.qDepth q = s.qDepth q := (State.queue_of_regs (s.opened_regs r.master) q).1
    have hdropping : a.flag F.Qn_STAT_DROPPING q 0 = s.flag F.Qn_STAT_DROPPING q 0 :=
      State.opened_congr (fun s => s.flag F.Qn_STAT_DROPPING q 0) (fun _ _ _ _ => rfl) s r.master
    have push : ∀ eop : Bool,
        (s.qCredit q = true → a.qBusPush r q w eop = { a with ans := ⟨0, true⟩ }) ∧
        (s.qCredit q = false → s.mayPush r.tenant q = false → a.qBusPush r q w eop = count) ∧
        (s.qCredit q = false → s.mayPush r.tenant q = true → ∃ p u d g, a.qBusPush r q w eop =
          (let t := if s.flag F.Qn_STAT_DROPPING q 0 = true then (if eop then a.setFld F.Qn_STAT_DROPPING q 0 0 else a)
            else if s.qFill q + (a.cyc.countP fun c => c = .pop q) + 2 ≤ s.qDepth q then a.qWrite q w (if eop then 1 else 0)
            else a.qDrop q
           { t with cyc := CycAcc.push q w eop p u d g :: t.cyc })) := by
      refine fun eop => ⟨fun h => ?_, fun hc hm => ?_, fun hc hm => ?_⟩
      · rw [State.qBusPush, if_pos (hcredit.trans h)]; rfl
      · rw [State.qBusPush, if_neg (by simp [hcredit, hc]), if_neg (by simp [hmay, hm])]
      · rw [← hdropping, ← hfill, ← hdepth]
        exact State.qBusPush_eq (hcredit.trans hc) (hmay.trans hm)
    refine ⟨fun f hf => ?_, fun h => ?_, fun h => ?_, fun h x xs hi hx hw => State.items_qDrop_marker h hi hx hw,
      fun h hfree hx => State.items_qDrop_new h hfree hx, s.drops_qDrop q⟩
    · simp only [List.mem_cons, List.not_mem_nil, or_false] at hf
      rcases hf with rfl | rfl
      · intro h
        obtain ⟨h1, h2, h3⟩ := push false
        refine ⟨fun hc => ?_, fun hc hm => ?_, fun hc hm => ?_⟩
        · change execQueuePush r q w s = _
          exact regCmd_next_of h (h1 hc)
        · change execQueuePush r q w s = _
          exact regCmd_next_of h (h2 hc hm)
        · obtain ⟨p, u, d, g, e⟩ := h3 hc hm
          refine ⟨.push q w false p u d g, ?_, rfl, rfl, rfl⟩
          change execQueuePush r q w s = _
          exact regCmd_next_of h e
      · intro h
        obtain ⟨h1, h2, h3⟩ := push true
        refine ⟨fun hc => ?_, fun hc hm => ?_, fun hc hm => ?_⟩
        · change execQueuePushEop r q w s = _
          exact regCmd_next_of h (h1 hc)
        · change execQueuePushEop r q w s = _
          exact regCmd_next_of h (h2 hc hm)
        · obtain ⟨p, u, d, g, e⟩ := h3 hc hm
          refine ⟨.push q w true p u d g, ?_, rfl, rfl, rfl⟩
          change execQueuePushEop r q w s = _
          exact regCmd_next_of h e
    · intro left
      refine ⟨fun hp hl => ⟨_, rfl, ?_⟩, fun hp hl => ?_, fun hp => ?_, fun hno => ?_⟩
      · change execQueuePop r q s = _
        refine regCmd_next_of h ?_
        simp only [State.qBusPop, show (s.opened r.master).mayPop r q = true from hpop.trans hp, Bool.not_true, Bool.false_eq_true,
          if_false, State.qPopRec]
        rw [if_neg (by change ¬a.qFill q ≤ a.cycAdded q; omega)]
      · change execQueuePop r q s = _
        refine regCmd_next_of h ?_
        simp only [State.qBusPop, show (s.opened r.master).mayPop r q = true from hpop.trans hp, Bool.not_true, Bool.false_eq_true,
          if_false, State.qPopRec]
        rw [if_pos (by change a.qFill q ≤ a.cycAdded q; omega)]
      · change execQueuePop r q s = _
        refine regCmd_next_of h ?_
        simp only [State.qBusPop, show (s.opened r.master).mayPop r q = false from hpop.trans hp, Bool.not_false, if_true]
        rfl
      · have hadd : a.cycAdded q = 0 := by rw [State.cycAdded, hno]
        omega
    · refine ⟨?_, ?_, fun hno => ?_⟩
      · change execQueueFlush r q s = _
        refine regCmd_next_of h ?_
        rw [State.qCtrlWrite, State.qCommand, show (s.opened r.master).queueOwner q = s.queueOwner q from hown]
        rfl
      · change execDropPkt r q s = _
        refine regCmd_next_of h ?_
        rw [State.qCtrlWrite, State.qCommand, show (s.opened r.master).queueOwner q = s.queueOwner q from hown]
        rfl
      · rw [State.qDropFirst, hno]

end Sys2Proof.Machine
end

