-- ==== Sys2Proof/Proofs/PoolSemaphores.lean ====
section
/-! PROOF. The buffer pool and the semaphores (R349 to R354). -/

namespace Sys2Proof.Machine

variable {s : State}

/-! ## Buffers -/

theorem State.bufSize_pos (s : State) : 0 < s.bufSize := Nat.two_pow_pos _

/-- The buffer that starts at an address. -/
theorem State.bufAt_eq_some {a : Nat} {i : Fin 4096} (hon : s.poolOn = true) (ha : a = s.poolBase + i.val * s.bufSize) :
    s.bufAt a = some i := by
  have hpos := s.bufSize_pos
  have ho : a - s.poolBase = i.val * s.bufSize := by omega
  have hdiv : i.val * s.bufSize / s.bufSize = i.val := Nat.mul_div_cancel _ hpos
  unfold State.bufAt
  simp only [ho, hdiv]
  rw [dif_pos ⟨hon, by omega, Nat.mul_mod_left _ _, i.isLt⟩]

theorem State.bufAt_eq_none {a : Nat} (h : ∀ k : Fin 4096, ¬(s.poolOn = true ∧ a = s.poolBase + k.val * s.bufSize)) : s.bufAt a = none := by
  unfold State.bufAt
  refine dif_neg fun ⟨hon, hb, hm, hlt⟩ => h ⟨_, hlt⟩ ⟨hon, ?_⟩
  have := Nat.div_add_mod (a - s.poolBase) s.bufSize
  rw [Nat.mul_comm] at this
  change a = s.poolBase + (a - s.poolBase) / s.bufSize * s.bufSize
  omega

/-- The first element that a property has. -/
theorem find?_finRange {n : Nat} {P : Fin n → Bool} {i : Fin n} (hi : P i = true) (h : ∀ k < i, P k = false) :
    (List.finRange n).find? P = some i := by
  rw [List.find?_eq_some_iff_getElem]
  refine ⟨hi, i.val, by simp, by simp, fun j hj => ?_⟩
  have := h ⟨j, by omega⟩ hj
  simpa using this

theorem State.bufFree_eq_some {i : Fin 4096} (hon : s.poolOn = true) (hi : s.bufHeld i = false) (h : ∀ k < i, s.bufHeld k = true) :
    s.bufFree = some i := by
  rw [State.bufFree, if_pos hon]
  exact find?_finRange (by simp [hi]) fun k hk => by simp [h k hk]

theorem State.bufFree_eq_none (h : s.poolOn = false ∨ ∀ k, s.bufHeld k = true) : s.bufFree = none := by
  rw [State.bufFree]
  rcases h with h | h
  · simp [h]
  · split
    · exact List.find?_eq_none.2 fun k _ => by simp [h k]
    · rfl

/-- Two of the buffers, the lower first. -/
theorem filter_finRange_pair {n : Nat} {i k : Fin n} (h : i ≠ k) :
    (List.finRange n).filter (fun x => decide (x = i ∨ x = k)) = [min i k, max i k] := by
  refine List.Pairwise.eq_of_mem_iff (r := (· < ·)) (List.Pairwise.filter _ (List.pairwise_lt_finRange n)) ?_ fun a => ?_
  · simpa using lt_of_le_of_ne min_le_max (by rcases le_total i k with c | c <;> simp [c, h, h.symm])
  · rcases le_total i k with c | c <;> simp [c, or_comm]

/-! ## Another answer for a pair that waits -/

theorem State.reanswer_stall (s : State) (q : Pair) (w : Word) :
    ((s.reanswer q w).pair q).stall = (s.pair q).stall.map fun l => { l with val := w.setWidth 64 } := by
  rw [State.reanswer, State.pair_setPair_same]

theorem State.pair_reanswer_ne {p q : Pair} (h : q ≠ p) (w : Word) : (s.reanswer p w).pair q = s.pair q := State.pair_setPair_ne _ _ h

/-! ## Allocation -/

/-- The lowest free buffer for a requester that no higher pair has preceded in the cycle. -/
theorem State.poolAlloc_alone {r : Req} (h : ∀ p, r.pair = some p → s.allocsAbove p = []) {i : Fin 4096} (hi : s.bufFree = some i) :
    s.poolAlloc r = (s.bufAddr i, match r.pair with
      | some p => { (s.bufTake r.tenant (some i)).2 with cyc := .alloc p i :: (s.bufTake r.tenant (some i)).2.cyc }
      | none => (s.bufTake r.tenant (some i)).2) := by
  unfold State.poolAlloc
  cases hp : r.pair with
  | none => rw [hi]; rfl
  | some p => simp only [h p hp, hi]; rfl

theorem State.poolAlloc_empty {r : Req} (h : ∀ p, r.pair = some p → s.allocsAbove p = []) (hi : s.bufFree = none) :
    s.poolAlloc r = (0xFFFFFFFF, s.evcRaise 0x188) := by
  unfold State.poolAlloc
  cases hp : r.pair with
  | none => rw [hi]; rfl
  | some p => simp only [h p hp, hi]; rfl

/-- What a free buffer's taking leaves: its tag and the count of free ones. -/
theorem State.bufTake_eq (s : State) (t : Tenant) (i : Fin 4096) : (s.bufTake t (some i)).2 =
    (s.setReg .Q_POOL_TAGi i 0 (BitVec.ofNat 32 (8 + t.val))).setFld F.Q_POOL_STAT_FREE 0 0 (s.fld F.Q_POOL_STAT_FREE 0 0 - 1) := by
  have hne : RegName.Q_POOL_STAT.addr 0 0 ≠ RegName.Q_POOL_TAGi.addr i 0 := by
    have := i.isLt
    simp [RegName.addr, RegName.base, RegName.dims]; omega
  have hfree : (s.setReg .Q_POOL_TAGi i 0 (BitVec.ofNat 32 (8 + t.val))).fld F.Q_POOL_STAT_FREE 0 0 = s.fld F.Q_POOL_STAT_FREE 0 0 :=
    congrArg (fun w => getBits w 12 0) (State.reg_setReg_ne s _ hne)
  change (s.setReg .Q_POOL_TAGi i 0 _).setFld F.Q_POOL_STAT_FREE 0 0 ((s.setReg .Q_POOL_TAGi i 0 _).fld F.Q_POOL_STAT_FREE 0 0 - 1) = _
  rw [hfree]

/-- A buffer that a read of the cycle allocated to a pair above p is held. -/
theorem State.allocsAbove_held {p q : Pair} {k : Fin 4096} {l : List (Pair × Fin 4096)} (h : s.allocsAbove p = (q, k) :: l) :
    p < q ∧ s.bufHeld k = true := by
  have hmem : (q, k) ∈ s.allocsAbove p := h ▸ List.mem_cons_self
  simp only [State.allocsAbove, List.mem_filterMap, List.mem_finRange, true_and] at hmem
  obtain ⟨x, hx⟩ := hmem
  split at hx
  · next hlt =>
    obtain ⟨c, -, hc⟩ := List.exists_of_findSome?_eq_some hx
    cases c with
    | alloc y j =>
      dsimp only at hc
      split at hc
      · next hy =>
        obtain ⟨rfl, rfl⟩ := Prod.mk.inj (Option.some.inj hc)
        exact ⟨hlt, hy.2⟩
      · exact absurd hc (by simp)
    | _ => exact absurd hc (by simp)
  · exact absurd hx (by simp)

/-- A read that comes after that of one higher pair deals the two buffers anew. -/
theorem State.poolAlloc_above {r : Req} {p q : Pair} {i k : Fin 4096} (hp : r.pair = some p) (h : s.allocsAbove p = [(q, k)])
    (hi : s.bufFree = some i) (hik : i ≠ k) : ∃ c, s.poolAlloc r = (s.bufAddr (min i k),
      State.bufDeal { (s.bufTake r.tenant (some i)).2 with cyc := c } [(p, r.tenant), (q, s.bufOwner k)] [min i k, max i k]) := by
  have his : (List.finRange 4096).filter (fun x => ((([(q, k)] : List (Pair × Fin 4096)).map (·.2)) ++ (some i).toList).contains x) =
      [min i k, max i k] := by
    rw [← filter_finRange_pair hik]
    refine List.filter_congr fun x _ => ?_
    simp [or_comm]
  unfold State.poolAlloc
  simp only [hp, h, hi]
  rw [his]
  exact ⟨_, rfl⟩

/-- The tag of an allocated buffer names its owner. -/
theorem poolTag_owner (t : Tenant) : getBits (BitVec.ofNat 32 (8 + t.val)) 2 0 = t.val := by
  revert t; decide

theorem Q_POOL_TAGi_ne {i k : Fin 4096} (h : i ≠ k) : RegName.Q_POOL_TAGi.addr i 0 ≠ RegName.Q_POOL_TAGi.addr k 0 := by
  have : i.val ≠ k.val := fun e => h (Fin.ext e)
  simp [RegName.addr, RegName.base, RegName.dims]; omega

/-- The addresses of the buffers stand while tags are dealt. -/
theorem State.bufAddr_setTag (s : State) (i j : Fin 4096) (w : Word) : (s.setReg .Q_POOL_TAGi i 0 w).bufAddr j = s.bufAddr j := by
  have hi := i.isLt
  have hb : RegName.Q_POOL_BASE.addr 0 0 ≠ RegName.Q_POOL_TAGi.addr i 0 := by simp [RegName.addr, RegName.base, RegName.dims]; omega
  have hc : RegName.Q_POOL_CFG.addr 0 0 ≠ RegName.Q_POOL_TAGi.addr i 0 := by simp [RegName.addr, RegName.base, RegName.dims]; omega
  simp only [State.bufAddr, State.poolBase, State.bufSize, State.fld, F.Q_POOL_CFG_LOG2SZ, State.reg_setReg_ne s _ hb,
    State.reg_setReg_ne s _ hc]

/-- Buffer i dealt to pair q of tenant t. -/
def State.dealt (s : State) (q : Pair) (t : Tenant) (i : Fin 4096) : State :=
  let u := (s.setReg .Q_POOL_TAGi i 0 (BitVec.ofNat 32 (8 + t.val))).reanswer q (s.bufAddr i)
  { u with cyc := .alloc q i :: u.cyc }

theorem State.dealt_reg (s : State) (q : Pair) (t : Tenant) (i : Fin 4096) (r : RegName) (j : Nat) :
    (s.dealt q t i).reg r j 0 = (s.setReg .Q_POOL_TAGi i 0 (BitVec.ofNat 32 (8 + t.val))).reg r j 0 := rfl

theorem State.dealt_owner (s : State) (q : Pair) (t : Tenant) (i : Fin 4096) : (s.dealt q t i).fld F.Q_POOL_TAGi_OWNER i 0 = t.val := by
  rw [State.fld, show F.Q_POOL_TAGi_OWNER.reg = .Q_POOL_TAGi from rfl, State.dealt_reg, State.reg_setReg_same]
  exact poolTag_owner t

theorem State.dealt_owner_ne (s : State) (q : Pair) (t : Tenant) {i k : Fin 4096} (h : k ≠ i) :
    (s.dealt q t i).fld F.Q_POOL_TAGi_OWNER k 0 = s.fld F.Q_POOL_TAGi_OWNER k 0 := by
  rw [State.fld, show F.Q_POOL_TAGi_OWNER.reg = .Q_POOL_TAGi from rfl, State.dealt_reg, State.reg_setReg_ne s _ (Q_POOL_TAGi_ne h)]
  rfl

theorem State.dealt_stall (s : State) (q : Pair) (t : Tenant) (i : Fin 4096) :
    ((s.dealt q t i).pair q).stall = (s.pair q).stall.map fun l => { l with val := (s.bufAddr i).setWidth 64 } :=
  State.reanswer_stall (s.setReg .Q_POOL_TAGi i 0 (BitVec.ofNat 32 (8 + t.val))) q (s.bufAddr i)

theorem State.pair_dealt_ne (s : State) {p q : Pair} (h : q ≠ p) (t : Tenant) (i : Fin 4096) : (s.dealt p t i).pair q = s.pair q :=
  State.pair_reanswer_ne (s := s.setReg .Q_POOL_TAGi i 0 (BitVec.ofNat 32 (8 + t.val))) h (s.bufAddr i)

theorem State.bufAddr_dealt (s : State) (q : Pair) (t : Tenant) (i k : Fin 4096) : (s.dealt q t i).bufAddr k = s.bufAddr k :=
  s.bufAddr_setTag i k _

theorem State.bufDeal_two (s : State) (p q : Pair) (t u : Tenant) (i k : Fin 4096) :
    s.bufDeal [(p, t), (q, u)] [i, k] = (s.dealt p t i).dealt q u k := by
  rw [State.bufDeal, State.bufDeal, State.bufDeal]; rfl

/-- The read that deals two buffers: each pair's answer and the owners. -/
theorem State.poolAlloc_dealt {r : Req} {p q : Pair} {i k : Fin 4096} (hp : r.pair = some p) (h : s.allocsAbove p = [(q, k)])
    (hi : s.bufFree = some i) (hik : i ≠ k) :
    (s.poolAlloc r).1 = s.bufAddr (min i k) ∧
    (((s.poolAlloc r).2).pair q).stall = ((s.pair q).stall.map fun l => { l with val := (s.bufAddr (max i k)).setWidth 64 }) ∧
    ((s.poolAlloc r).2).fld F.Q_POOL_TAGi_OWNER (min i k) 0 = r.tenant.val ∧
    ((s.poolAlloc r).2).fld F.Q_POOL_TAGi_OWNER (max i k) 0 = (s.bufOwner k).val := by
  obtain ⟨c, e⟩ := State.poolAlloc_above hp h hi hik
  have hlt : min i k ≠ max i k := by rcases le_total i k with hc | hc <;> simp [hc, hik, hik.symm]
  have hpq : q ≠ p := fun e => absurd (State.allocsAbove_held h).1 (by simp [e])
  rw [e, State.bufDeal_two]
  generalize hv : ({ (s.bufTake r.tenant (some i)).2 with cyc := c } : State) = v
  have hvq : v.pair q = s.pair q := by rw [← hv, State.bufTake_eq]; rfl
  have hva : ∀ j, v.bufAddr j = s.bufAddr j := by
    intro j
    have hc : RegName.Q_POOL_CFG.addr 0 0 ≠ RegName.Q_POOL_STAT.addr 0 0 := by decide
    have hb : RegName.Q_POOL_BASE.addr 0 0 ≠ RegName.Q_POOL_STAT.addr 0 0 := by decide
    rw [← hv, State.bufTake_eq, ← s.bufAddr_setTag i j (BitVec.ofNat 32 (8 + r.tenant.val))]
    generalize s.setReg .Q_POOL_TAGi i 0 (BitVec.ofNat 32 (8 + r.tenant.val)) = w
    have hcfg := w.reg_setReg_ne (setBits (w.reg .Q_POOL_STAT 0 0) 12 0 (s.fld F.Q_POOL_STAT_FREE 0 0 - 1)) hc
    have hbase := w.reg_setReg_ne (setBits (w.reg .Q_POOL_STAT 0 0) 12 0 (s.fld F.Q_POOL_STAT_FREE 0 0 - 1)) hb
    change BitVec.ofNat 32 ((State.reg _ .Q_POOL_BASE 0 0).toNat + j.val * 2 ^ getBits (State.reg _ .Q_POOL_CFG 0 0) 3 0) = _
    exact congrArg₂ (fun x y : Word => BitVec.ofNat 32 (x.toNat + j.val * 2 ^ getBits y 3 0)) hbase hcfg
  refine ⟨rfl, ?_, ?_, ?_⟩
  · rw [State.dealt_stall, State.bufAddr_dealt, State.pair_dealt_ne _ hpq, hvq, hva]
  · rw [← Fin.coe_min]
    exact (State.dealt_owner_ne _ _ _ hlt).trans (State.dealt_owner _ _ _ _)
  · rw [← Fin.coe_max]
    exact State.dealt_owner _ _ _ _

/-! ## Frees and gives -/

theorem State.bufOwner_val (s : State) (i : Fin 4096) : (s.bufOwner i).val = s.fld F.Q_POOL_TAGi_OWNER i 0 :=
  Nat.mod_eq_of_lt (getBits_lt _ 2 0)

theorem State.bufOwner_iff (s : State) (i : Fin 4096) (t : Tenant) : s.bufOwner i = t ↔ s.fld F.Q_POOL_TAGi_OWNER i 0 = t.val := by
  rw [Fin.ext_iff, State.bufOwner_val]

theorem State.poolFault_eq (u : State) {i : Fin 4096} {n : Nat} (hn : s.fld F.Q_POOL_TAGi_OWNER i 0 = n) :
    u.poolFault (s.bufOwner i) = u.evcRaise (Fin.ofNat 512 (0x180 + n)) := by
  rw [State.poolFault, State.bufOwner_val, hn]

theorem State.poolFree_eq {t : Tenant} {a : Word} {i : Fin 4096} (hb : s.bufAt a.toNat = some i) : s.poolFree t a =
    if s.bufHeld i = false then (s.bump F.Q_POOL_ERR_DOUBLE 0 0).poolFault (s.bufOwner i)
    else if s.bufOwner i = t then (s.setFld F.Q_POOL_TAGi_ALLOC i 0 0).setFld F.Q_POOL_STAT_FREE 0 0 (s.fld F.Q_POOL_STAT_FREE 0 0 + 1)
    else s.poolForeign i := by
  unfold State.poolFree
  rw [hb]
  simp only [Bool.not_eq_true']

theorem State.poolFree_none {t : Tenant} {a : Word} (hb : s.bufAt a.toNat = none) :
    s.poolFree t a = s.bump F.Q_POOL_ERR_FOREIGN 0 0 := by
  unfold State.poolFree
  rw [hb]

theorem State.poolGive_eq {t : Tenant} {v : Word} {i : Fin 4096} (hb : s.bufAt (v &&& 0xFFFFFF00).toNat = some i) : s.poolGive t v =
    if s.bufHeld i && decide (s.bufOwner i = t) then s.setFld F.Q_POOL_TAGi_OWNER i 0 (getBits v 2 0) else s.poolForeign i := by
  unfold State.poolGive
  rw [hb]

/-! ## Semaphores -/

/-- GOT joins the word of a holder. -/
theorem semWord_got (t p : Nat) : BitVec.ofNat 32 (t * 4096 + p * 512 + 256) ||| 1 = BitVec.ofNat 32 (t * 4096 + p * 512 + 256) + 1 := by
  rw [← BitVec.add_eq_or_of_and_eq_zero]
  apply BitVec.eq_of_getLsbD_eq
  intro i hi
  rw [BitVec.getLsbD_and]
  by_cases h : i = 0
  · subst h
    have : (BitVec.ofNat 32 (t * 4096 + p * 512 + 256)).getLsbD 0 = false := by
      rw [BitVec.getLsbD_ofNat, Nat.testBit_zero]
      simp; omega
    rw [this]; simp
  · have : (1 : BitVec 32).getLsbD i = false := by
      simp [h]
    rw [this]; simp

section
variable {r : Req} {p : Pair} {n : Fin 64} (hp : r.pair = some p)
include hp

theorem State.semRead_free (h : s.flag F.Q_SEMn_HELD n 0 = false) : s.semRead r n =
    (BitVec.ofNat 32 (r.tenant.val * 4096 + p.val * 512 + 256) + 1,
      s.semTake p n (BitVec.ofNat 32 (r.tenant.val * 4096 + p.val * 512 + 256))) := by
  unfold State.semRead
  simp only [hp, h, Bool.false_eq_true, if_false, semWord_got]

theorem State.semRead_held (h : s.flag F.Q_SEMn_HELD n 0 = true) (ht : s.semTaker p n = none) : s.semRead r n =
    (s.reg .Q_SEMn n 0, { s with cyc := .want p n :: s.cyc }) := by
  unfold State.semRead
  simp only [hp, h, if_true, ht]

/-- A read that comes after that of a higher pair in the cycle takes the semaphore from it. -/
theorem State.semRead_taken (h : s.flag F.Q_SEMn_HELD n 0 = true) {q : Pair} (ht : s.semTaker p n = some q) : ∃ c, s.semRead r n =
    (BitVec.ofNat 32 (r.tenant.val * 4096 + p.val * 512 + 256) + 1,
      (State.semTake { s with cyc := c } p n (BitVec.ofNat 32 (r.tenant.val * 4096 + p.val * 512 + 256))).reanswer q
        (BitVec.ofNat 32 (r.tenant.val * 4096 + p.val * 512 + 256))) := by
  refine ⟨.want q n :: s.cyc.filter fun c => c != .got q n, ?_⟩
  unfold State.semRead
  simp only [hp, h, if_true, ht, semWord_got]

theorem State.semWrite_mine (h : s.flag F.Q_SEMn_HELD n 0 = true ∧ s.fld F.Q_SEMn_PAIR n 0 = p.val) (v : Word) :
    s.semWrite r n v = if v = 0 then s.semRelease n else s := by
  unfold State.semWrite
  simp only [hp, h.1, h.2, decide_true, Bool.and_self, if_true]

end

theorem State.semRead_other {r : Req} (hp : r.pair = none) (n : Fin 64) : s.semRead r n = (s.reg .Q_SEMn n 0, s) := by
  unfold State.semRead
  simp only [hp]

theorem State.semWrite_other {r : Req} {p : Pair} {n : Fin 64}
    (h : r.pair = some p → ¬(s.flag F.Q_SEMn_HELD n 0 = true ∧ s.fld F.Q_SEMn_PAIR n 0 = p.val)) (hp : r.pair = some p ∨ r.pair = none)
    (v : Word) : s.semWrite r n v = s.bump F.Q_ERR_CNT_SEMREL 0 0 := by
  unfold State.semWrite
  rcases hp with hp | hp
  · have hno := h hp
    simp only [hp]
    exact if_neg (by simpa using hno)
  · simp only [hp, Bool.false_eq_true, if_false]

theorem State.semRelease_none {n : Fin 64} (h : s.semWaiter n = none) : s.semRelease n = s.setReg .Q_SEMn n 0 0 := by
  unfold State.semRelease
  rw [h]

/-- A release with a reader in its cycle hands the semaphore to it. -/
theorem State.semRelease_some {n : Fin 64} {q : Pair} (h : s.semWaiter n = some q) :
    let w := BitVec.ofNat 32 ((s.pair q).tid.val * 4096 + q.val * 512 + 256)
    (s.semRelease n).reg .Q_SEMn n 0 = w ∧
    ((s.semRelease n).pair q).stall = (s.pair q).stall.map fun l => { l with val := (w + 1).setWidth 64 } := by
  intro w
  have hr : s.semRelease n = (s.semTake q n w).reanswer q (w + 1) := by
    unfold State.semRelease
    rw [h, ← semWord_got]
  rw [hr]
  exact ⟨State.reg_setReg_same { s with cyc := .got q n :: s.cyc } _ _ _ _, State.reanswer_stall (s.semTake q n w) q (w + 1)⟩

theorem State.semForce_eq {r : Req} {v : Word} {n : Fin 64} (ht : r.t0mon = true) (hv : v.toNat % 64 = n.val) :
    s.semForce r v = s.semRelease n := by
  have hn : Fin.ofNat 64 (getBits v 5 0) = n := Fin.ext (by simp [getBits, Fin.ofNat, hv])
  rw [State.semForce, if_pos ht, hn]

/-- Settles O21: the pool and the semaphores through their bus accesses. -/
theorem buffersAndSemaphores : Obligations.BuffersAndSemaphores := by
  unfold Obligations.BuffersAndSemaphores
  refine ⟨?_, ?_⟩
  · intro s r v i a size base free own at_ fault got
    have hheld : ∀ k, a.bufHeld k = s.bufHeld k := fun k => State.opened_congr (fun s => s.bufHeld k) (fun _ _ _ _ => rfl) s r.master
    have hon : a.poolOn = s.poolOn := State.opened_congr (fun s => s.poolOn) (fun _ _ _ _ => rfl) s r.master
    have haddr : ∀ k, a.bufAddr k = s.bufAddr k := fun k => State.opened_congr (fun s => s.bufAddr k) (fun _ _ _ _ => rfl) s r.master
    have hat : ∀ x, a.bufAt x = s.bufAt x := fun x => State.opened_congr (fun s => s.bufAt x) (fun _ _ _ _ => rfl) s r.master
    have howner : ∀ k, a.bufOwner k = s.bufOwner k :=
      fun k => State.opened_congr (fun s => s.bufOwner k) (fun _ _ _ _ => rfl) s r.master
    have hfree : a.fld F.Q_POOL_STAT_FREE 0 0 = free := State.fld_of_regs (s.opened_regs r.master) _ _ _
    have hown : a.fld F.Q_POOL_TAGi_OWNER i 0 = own := State.fld_of_regs (s.opened_regs r.master) _ _ _
    have hsome : ∀ x, at_ x → a.bufAt x = some i := fun x hx => by
      rw [hat, State.bufAt_eq_some (by simpa [State.poolOn, State.flag] using hx.1) hx.2]
    have hf : s.poolOn = true → s.bufHeld i = false → (∀ k < i, s.bufHeld k = true) → a.bufFree = some i := fun h1 h2 h3 =>
      State.bufFree_eq_some (hon.trans h1) ((hheld i).trans h2) fun k hk => (hheld k).trans (h3 k hk)
    have hforeign : a.poolForeign i = fault (a.bump F.Q_POOL_ERR_FOREIGN 0 0) := State.poolFault_eq _ hown
    refine ⟨fun h => ⟨fun hno => ⟨fun h1 h2 h3 => ?_, fun hnone => ?_⟩, fun p q k hp hab h1 h2 h3 => ?_⟩, fun h hx => ?_, fun h hx => ?_,
      fun hno h => ?_⟩
    · change execPoolAlloc r s = _
      refine regCmd_next_of h ?_
      have halloc := State.poolAlloc_alone hno (hf h1 h2 h3)
      rw [State.bufTake_eq, hfree, haddr] at halloc
      refine (congrArg (fun x : Word × State => x.2.answer x.1) halloc).trans ?_
      rfl
    · change execPoolAlloc r s = _
      refine regCmd_next_of h ?_
      exact congrArg (fun x : Word × State => x.2.answer x.1)
        (State.poolAlloc_empty hno (State.bufFree_eq_none (hnone.imp hon.trans fun hk k => (hheld k).trans (hk k))))
    · have hik : i ≠ k := by
        rintro rfl
        have := (State.allocsAbove_held hab).2
        rw [hheld, h2] at this
        exact Bool.false_ne_true this
      obtain ⟨hans, hstall, ho1, ho2⟩ := State.poolAlloc_dealt hp hab (hf h1 h2 h3) hik
      refine ⟨_, regCmd_next_of (body := fun s => let x := s.poolAlloc r; x.2.answer x.1) h rfl, ?_, ?_, ho1, ?_⟩
      · refine hans.trans ((haddr _).trans ?_)
        rfl
      · refine hstall.trans ?_
        rw [haddr]
        have hpair : a.pair q = s.pair q := State.opened_congr (fun s => s.pair q) (fun _ _ _ _ => rfl) s r.master
        rw [hpair]
        rfl
      · rw [← howner]; exact ho2
    · have hfr := State.poolFree_eq (t := r.tenant) (hsome _ hx)
      rw [hheld] at hfr
      refine ⟨fun h1 h2 => ?_, fun h1 h2 => ?_, fun h1 => ?_⟩
      · change execPoolFree r v s = _
        refine regCmd_next_of h (hfr.trans ?_)
        rw [if_neg (by simp [h1]), if_pos ((a.bufOwner_iff i _).2 (hown.trans h2)), hfree]
      · change execPoolFree r v s = _
        refine regCmd_next_of h (hfr.trans ?_)
        rw [if_neg (by simp [h1]), if_neg fun e => h2 (hown.symm.trans ((a.bufOwner_iff i _).1 e)), hforeign]
      · change execPoolFree r v s = _
        refine regCmd_next_of h (hfr.trans ?_)
        rw [if_pos h1]
        exact State.poolFault_eq _ hown
    · have hg := State.poolGive_eq (t := r.tenant) (hsome _ hx)
      rw [hheld] at hg
      refine ⟨fun h1 h2 => ?_, fun h1 => ?_⟩
      · change execPoolGive r v s = _
        refine regCmd_next_of h (hg.trans ?_)
        rw [if_pos (by simp [h1, (a.bufOwner_iff i _).2 (hown.trans h2)])]
        simp [getBits]
      · change execPoolGive r v s = _
        refine regCmd_next_of h (hg.trans ?_)
        rw [if_neg, hforeign]
        rcases h1 with h1 | h1
        · simp [h1]
        · have : a.bufOwner i ≠ r.tenant := fun e => h1 (hown.symm.trans ((a.bufOwner_iff i _).1 e))
          simp [this]
    · change execPoolFree r v s = _
      refine regCmd_next_of h (State.poolFree_none ?_)
      rw [show (s.opened r.master).bufAt v.toNat = _ from hat _, State.bufAt_eq_none hno]
  · intro s r n v p a w held mine holder
    have hheld : a.flag F.Q_SEMn_HELD n 0 = held := State.opened_congr (fun s => s.flag F.Q_SEMn_HELD n 0) (fun _ _ _ _ => rfl) s r.master
    have hmine : (a.flag F.Q_SEMn_HELD n 0 = true ∧ a.fld F.Q_SEMn_PAIR n 0 = p.val) ↔ mine := by
      rw [hheld, State.fld_of_regs (s.opened_regs r.master)]
    have hreg : a.reg .Q_SEMn n 0 = s.reg .Q_SEMn n 0 := State.opened_congr (fun s => s.reg .Q_SEMn n 0) (fun _ _ _ _ => rfl) s r.master
    have hpair : ∀ q, a.pair q = s.pair q := fun q => State.opened_congr (fun s => s.pair q) (fun _ _ _ _ => rfl) s r.master
    have release : ∀ q, a.semWaiter n = some q → (a.semRelease n).reg .Q_SEMn n 0 = holder q ∧
        ((a.semRelease n).pair q).stall = (s.pair q).stall.map fun l => { l with val := (holder q + 1).setWidth 64 } := by
      intro q hq
      have := State.semRelease_some hq
      rwa [hpair] at this
    refine ⟨fun h => ⟨fun hp hh => ?_, fun hp hh ht => ?_, fun q hp hh ht => ?_, fun hp => ?_⟩, fun h => ⟨fun hp hm => ⟨fun hv => ?_,
      fun hv hw => ?_, fun q hv hw => ?_⟩, fun hm hp => ?_⟩, fun h => ⟨fun ht => ?_, fun ht hv hw => ?_, fun q ht hv hw => ?_⟩⟩
    · change execSemAcquire r n s = _
      refine regCmd_next_of h ?_
      exact congrArg (fun x : Word × State => x.2.answer x.1) (State.semRead_free hp (hheld.trans hh))
    · change execSemAcquire r n s = _
      refine regCmd_next_of h ?_
      rw [← hreg]
      exact congrArg (fun x : Word × State => x.2.answer x.1) (State.semRead_held hp (hheld.trans hh) ht)
    · obtain ⟨c, e⟩ := State.semRead_taken hp (hheld.trans hh) ht
      refine ⟨_, regCmd_next_of (body := fun s => let x := s.semRead r n; x.2.answer x.1) h rfl, ?_, ?_, ?_⟩
      · refine (congrArg (fun x : Word × State => x.2.reg .Q_SEMn n 0) e).trans ?_
        exact State.reg_setReg_same { a with cyc := .got p n :: c } _ _ _ _
      · exact congrArg (fun x : Word × State => x.1) e
      · refine (congrArg (fun x : Word × State => (x.2.pair q).stall) e).trans ((State.reanswer_stall _ q w).trans ?_)
        rw [← hpair]
        rfl
    · change execSemAcquire r n s = _
      refine regCmd_next_of h ?_
      rw [← hreg]
      exact congrArg (fun x : Word × State => x.2.answer x.1) (State.semRead_other hp n)
    · change execSemRelease r n v s = _
      refine regCmd_next_of h ((State.semWrite_mine hp (hmine.2 hm) v).trans (if_neg hv))
    · change execSemRelease r n v s = _
      refine regCmd_next_of h ((State.semWrite_mine hp (hmine.2 hm) v).trans ((if_pos hv).trans (State.semRelease_none hw)))
    · refine ⟨_, ?_, release q hw⟩
      change execSemRelease r n v s = _
      exact regCmd_next_of h ((State.semWrite_mine hp (hmine.2 hm) v).trans (if_pos hv))
    · change execSemRelease r n v s = _
      exact regCmd_next_of h (State.semWrite_other (fun hp' => mt hmine.1 (hm hp')) hp v)
    · change execSemForce r v s = _
      exact regCmd_next_of h (if_neg (by simp [ht]))
    · change execSemForce r v s = _
      exact regCmd_next_of h ((State.semForce_eq ht hv).trans (State.semRelease_none hw))
    · refine ⟨_, ?_, release q hw⟩
      change execSemForce r v s = _
      exact regCmd_next_of h (State.semForce_eq ht hv)

end Sys2Proof.Machine
end

