-- ==== Sys2Proof/Proofs/Flash.lean ====
section
/-! PROOF. Flash: the key, the wait states, commands and their refusals. -/

namespace Sys2Proof.Machine

/-! ## Refusals -/

theorem State.flRefusal_opened (s : State) (r : Req) (op : Nat) (m : Fin 13) : (s.opened m).flRefusal r op = s.flRefusal r op :=
  State.opened_congr (fun s => s.flRefusal r op) (fun _ _ _ _ => rfl) s m

theorem inFlash_iff (a : Nat) : inFlash a = true ↔ 0x10000000 ≤ a ∧ a < 0x12000000 := by simp [inFlash]

/-- The grounds of `flRefusal`, none of which holds. -/
theorem State.flRefusal_none (s : State) (r : Req) (op : Nat) (hop : op = 1 ∨ op = 2) :
    let a := (s.reg .FL_ADDR 0 0).toNat
    let b := flBank a
    (s.flRefusal r op = none ↔ s.fl.key = true ∧ s.mode = .maintenance ∧ inFlash a = true ∧ a % (if op = 1 then 32 else 0x10000) = 0 ∧
      s.windowOk r .write a 1 = true ∧ s.flBusy b = false ∧ ¬ (op = 1 ∧ s.flIntr b (flSector a) = true) ∧
      ¬ (op = 1 ∧ s.fl.banks[b].progd.get (flLine a) false = true)) := by
  intro a b
  have known : ¬ (op ≠ 1 ∧ op ≠ 2) := by omega
  simp only [State.flRefusal, if_neg known]
  have step : ∀ (c : Prop) [Decidable c] (n : Nat) (x : Option Nat), (if c then some n else x) = none ↔ ¬ c ∧ x = none := by
    intro c _ n x
    split <;> simp [*]
  simp only [step, Bool.not_eq_true', Bool.not_eq_false, Bool.not_eq_true, ne_eq, not_not, and_true, a, b]

/-! ## Reads of the cycle in which a command begins -/

/-- The access of the cycle is no read of bank b that waits for its data. -/
def CycAcc.spares (b : FBank) : CycAcc → Prop
  | .load _ k _ _ => k ≠ b
  | .fill _ k _ => k ≠ b
  | _ => True

theorem State.flLateBusy_of_spares (s : State) (b : FBank) (prog : Bool) (h : ∀ c ∈ s.cyc, c.spares b) : s.flLateBusy b prog = s :=
  foldl_const fun c hc => by
    have hc := h c hc
    cases c with
    | load p k x y => exact if_neg hc
    | fill p k l => exact if_neg hc
    | _ => rfl

/-- A command starts: its bank holds it, and its end is on the calendar. -/
theorem State.flStart_of_spares (s : State) {t : State} {b : FBank} (c : FlashCmd) (j : JRec) (most : Nat) (h : ∀ c ∈ t.cyc, c.spares b)
    (hn : t.now = s.now) (hf : t.fresh = s.fresh) :
    t.flStart b c j most =
      let d := Config.flashTime s.fresh % most + 1
      let t := t.modFB b fun x => { x with cmd := some c, since := s.now, dur := d, jrow := j :: x.jrow, streams := [] }
      ((t.unsched (.refreshStep b)).draw).sched d (.flashCommandDone b (Config.flashOk s.fresh)) := by
  have spare : ∀ (f : FBankSt → FBankSt) prog, (t.modFB b f).flLateBusy b prog = t.modFB b f := fun f prog =>
    State.flLateBusy_of_spares _ b prog h
  simp only [State.flStart, spare, hn, hf]

/-! ## Commands -/

/-- A refused command leaves its code. -/
theorem State.flCmd_refused {s : State} {r : Req} {op e : Nat} (h : s.flRefusal r op = some e) :
    s.flCmd r op = (s.raiseFld F.FL_STAT_ERR 0 0 e).flNoKey := by
  rw [State.flCmd, h]
  rfl

theorem State.flCmd_program {s : State} {r : Req} (h : s.flRefusal r 1 = none) :
    s.flCmd r 1 = (let a := (s.reg .FL_ADDR 0 0).toNat
      (s.flNoKey.modFB (flBank a) fun x => { x with progd := x.progd.put (flLine a) true false }).flStart (flBank a)
        (.program a ((List.range 8).flatMap fun i => Word.bytes (s.reg .FL_DATAi i 0))) (.progStart a) 16000) := by
  rw [State.flCmd, h]
  rfl

theorem State.flCmd_erase {s : State} {r : Req} (h : s.flRefusal r 2 = none) :
    s.flCmd r 2 = (let a := (s.reg .FL_ADDR 0 0).toNat
      s.flNoKey.flStart (flBank a) (.erase (flSector a)) (.eraseStart (flSector a)) 32000000) := by
  rw [State.flCmd, h]
  rfl

/-- Settles O24, from the refusals in their order and a start that no read of its cycle meets. -/
theorem flashCommands : Obligations.FlashCommands := by
  unfold Obligations.FlashCommands
  intro s r v a addr b k unkey started
  have ws : getBits v 3 0 = v.toNat % 16 := by simp [getBits]
  have least : a.fld F.FL_WS_WSMIN 0 0 = s.fld F.FL_WS_WSMIN 0 0 := State.fld_of_regs (State.opened_regs s r.master) _ _ _
  refine ⟨fun h => ?_, fun h => ⟨fun hle => ?_, fun hlt => ?_⟩, ?_⟩
  · change execFlKeyWrite r v s = _
    exact regCmd_next_of h (by rw [State.flKeyWrite, State.opened_fl])
  · change execFlWsWrite r v s = _
    refine regCmd_next_of h ?_
    simp only [State.flWsWrite, ws]
    rw [if_neg (by rw [least]; omega)]
    rfl
  · change execFlWsWrite r v s = _
    refine regCmd_next_of h ?_
    simp only [State.flWsWrite, ws]
    rw [if_pos (by rw [least]; omega), least]
    rfl
  intro alone
  refine ⟨?_, ?_, ?_⟩
  · intro p x y prog hcyc
    simp [State.flLateBusy, hcyc, State.modPair]
  · intro h
    have refusal : ∀ op, a.flRefusal r op = s.flRefusal r op := fun op => s.flRefusal_opened r op r.master
    have regs : ∀ rn i j, a.reg rn i j = s.reg rn i j := fun rn i j => by rw [State.reg, State.opened_regs]; rfl
    have now : a.now = s.now := s.opened_now r.master
    have fresh : a.fresh = s.fresh := s.opened_fresh r.master
    have spares : alone → ∀ c ∈ a.cyc, c.spares b := fun h c hc => by
      cases c with
      | load p k x y => exact h _ hc
      | fill p k l => exact h _ hc
      | _ => trivial
    refine ⟨fun e he => ?_, fun e he => ?_, fun he free => ?_, fun he free => ?_⟩
    · change execFlashProgram r s = _
      exact regCmd_next_of h (State.flCmd_refused ((refusal 1).trans he))
    · change execFlashErase r s = _
      exact regCmd_next_of h (State.flCmd_refused ((refusal 2).trans he))
    · change execFlashProgram r s = _
      refine regCmd_next_of h ((State.flCmd_program ((refusal 1).trans he)).trans ?_)
      simp only [regs]
      exact State.flStart_of_spares s _ _ _ (spares free) now fresh
    · change execFlashErase r s = _
      refine regCmd_next_of h ((State.flCmd_erase ((refusal 2).trans he)).trans ?_)
      simp only [regs]
      exact State.flStart_of_spares s _ _ _ (spares free) now fresh
  · intro op hop
    refine (s.flRefusal_none r op hop).trans ?_
    simp only [inFlash_iff, not_and, Bool.not_eq_true, and_assoc, imp_and]
    exact Iff.rfl

end Sys2Proof.Machine
end

