-- ==== Sys2Proof/Proofs/Accesses.lean ====
section
/-! PROOF. Accesses: register reads and writes, access codes, violations. -/

namespace Sys2Proof.Machine

/-! ## Violations -/

/-- What the records of R362 show after a violation. -/
theorem State.violation_records (s : State) (r : Req) (k : Kind) (x : Nat) :
    let u := s.violation r k x
    u.reg .PTU_LASTADDR 0 0 = BitVec.ofNat 32 x ∧
    u.reg .PTU_LASTVIOL 0 0 = BitVec.ofNat 32 (r.master.val * 256 + r.tenant.val * 16 + privBits r.level * 4 + k.code) ∧
    u.fld F.PTU_VIOLt_COUNT r.tenant 0 = min F.PTU_VIOLt_COUNT.max (s.fld F.PTU_VIOLt_COUNT r.tenant 0 + 1) := by
  have ht := r.tenant.isLt
  intro u
  refine ⟨State.reg_setReg_same _ _ _ _ _, ?_, ?_⟩
  · change ((State.setReg _ _ _ _ _).setReg _ _ _ _).reg _ _ _ = _
    rw [State.reg_setReg_ne _ _ (by decide), State.reg_setReg_same]
  · have lastviol : RegName.PTU_VIOLt.addr r.tenant 0 ≠ RegName.PTU_LASTVIOL.addr 0 0 := by
      simp [RegName.addr, RegName.base, RegName.dims]
      omega
    have lastaddr : RegName.PTU_VIOLt.addr r.tenant 0 ≠ RegName.PTU_LASTADDR.addr 0 0 := by
      simp [RegName.addr, RegName.base, RegName.dims]
      omega
    have kept : u.reg .PTU_VIOLt r.tenant 0 = (s.bump F.PTU_VIOLt_COUNT r.tenant 0).reg .PTU_VIOLt r.tenant 0 := by
      change ((State.setReg _ _ _ _ _).setReg _ _ _ _).reg _ _ _ = _
      rw [State.reg_setReg_ne _ _ lastaddr, State.reg_setReg_ne _ _ lastviol]
    exact (congrArg (getBits · 15 0) kept).trans (State.fld_bump_same _ _ _ _ ⟨by decide, by decide⟩)

/-! ## Memory -/

/-- Beats of memory go to the interconnect alone. -/
theorem State.beat_only (s : State) (m : Fin 13) (write load : Bool) (a n : Nat) : ∃ x, s.beat m write load a n = { s with ix := x } := by
  refine foldl_keeps (fun t => ∃ x, t = { s with ix := x }) (fun t k h => ?_) _ _ ⟨s.ix, rfl⟩
  obtain ⟨x, rfl⟩ := h
  dsimp only
  split
  · exact ⟨_, rfl⟩
  · exact ⟨x, rfl⟩

/-- Where no pair has an STC in this lc, a store of another master keeps memory as it is. -/
theorem State.snoop_only (s : State) (m : Option Pair) (a n : Nat) (h : ∀ q k, (s.pair q).stc = some k → k.lc ≠ s.now) :
    ∃ v, s.snoop m a n = { s with pairs := v } := by
  obtain ⟨v, hv, -⟩ := State.snoop_fold m (a / 32) ((a + n - 1) / 32) (List.finRange 4) (List.nodup_finRange 4) s fun q _ _ => h q
  exact ⟨v, hv⟩

/-- A read of memory that meets no upset. -/
theorem State.readAnswer_ram {s : State} {r : Req} {a : Word} {b : Nat} (hp : place r a.toNat 4 = .ram b) (hc : s.cleanAt b 4) :
    (s.readAnswer r false a).ans = ⟨s.word b, false⟩ ∧ (s.readAnswer r false a).mem = s.mem := by
  obtain ⟨x, hx⟩ := s.beat_only r.master false r.pair.isSome b 4
  have hecc : ({ s with ix := x } : State).eccRead b 4 = (false, { s with ix := x }) := State.eccRead_clean hc
  have read : s.busRead r false a.toNat 4 = (.data (s.readLE b 4), { s with ix := x }) := by
    rw [State.busRead, hp]
    simp only [hx, hecc, Bool.false_eq_true, if_false]
  rw [State.readAnswer, read]
  exact ⟨rfl, rfl⟩

/-- A write to memory outside the loop memory, that meets no upset. -/
theorem State.busWrite_ram {s : State} {r : Req} {x b v : Nat} (hp : place r x 4 = .ram b) (hc : s.cleanAt b 4)
    (hle : b < 0x30000000 ∨ 0x30380000 ≤ b) (hs : ∀ q k, (s.pair q).stc = some k → k.lc ≠ s.now) :
    ∃ i p, s.busWrite r x v 4 = ({ s.answer 0 with ix := i, pairs := p } : State).writeLE b v 4 := by
  obtain ⟨i, hi⟩ := (s.answer 0).beat_only r.master true false b 4
  have hecc : ({ s.answer 0 with ix := i } : State).eccWrite b 4 = (false, { s.answer 0 with ix := i }) := State.eccWrite_clean hc
  obtain ⟨p, hq⟩ := State.snoop_only { s.answer 0 with ix := i } r.pair b 4 hs
  refine ⟨i, p, ?_⟩
  rw [State.busWrite, hp]
  simp only [hi]
  rw [State.ramWrite, if_neg (by omega), hecc, if_neg (by simp), hq]

/-! ## Access codes -/

/-- Bit i of a field after a write, by its access code (Table 0.3). -/
theorem writeField_getLsbD (wlk : Bool) (came v w : Word) (f : FieldDesc) (i : Nat) (hh : f.hi < 32) (hi : i < 32) :
    (writeField wlk came v w f).getLsbD i = (if f.lo ≤ i ∧ i ≤ f.hi then (match f.acc with
      | .rw => v.getLsbD i
      | .wlk => if wlk then v.getLsbD i else w.getLsbD i
      | .w1c => w.getLsbD i && !(v.getLsbD i && !came.getLsbD i)
      | .w1s => w.getLsbD i || v.getLsbD i
      | .ro => w.getLsbD i
      | .wo => w.getLsbD i
      | .rclr => w.getLsbD i) else w.getLsbD i) := by
  have stored : (setBits w f.hi f.lo (getBits v f.hi f.lo)).getLsbD i = if f.lo ≤ i ∧ i ≤ f.hi then v.getLsbD i else w.getLsbD i := by
    rw [setBits_getLsbD _ _ _ _ _ hh hi]
    split
    · next c =>
      have hk : i - f.lo < f.hi + 1 - f.lo := by omega
      rw [getBits_testBit, decide_eq_true hk, Bool.true_and, Nat.add_sub_cancel' c.1]
    · rfl
  have mask : (fieldMask f.hi f.lo)[i] = decide (f.lo ≤ i ∧ i ≤ f.hi) := fieldMask_getLsbD f.hi f.lo i hh hi
  unfold writeField
  cases f.acc with
  | rw => exact stored
  | wlk => cases wlk <;> simp [stored]
  | w1c => by_cases c : f.lo ≤ i ∧ i ≤ f.hi <;> simp [mask, c, hi]
  | w1s => by_cases c : f.lo ≤ i ∧ i ≤ f.hi <;> simp [mask, c, BitVec.getLsbD_eq_getElem hi]
  | ro | wo | rclr => simp

/-! ## Reads that clear -/

theorem mux_self (m w : Word) : mux m w w = w := by
  ext i
  cases h : m[i] <;> simp [mux, h]

theorem mux_zero (m w : Word) : mux m 0 w = w &&& ~~~m := by simp [mux]

/-- A read of a register in whose lc hardware set or counted nothing. -/
theorem State.readReg_quiet {s : State} {q : RegName} {i j : Nat} (h : SMap.find? s.hits (q.addr i j) = none) :
    let u := s.readReg q i j false
    u.2.reg q i j = s.reg q i j &&& ~~~rclrMask q.fields ∧ u.1 = s.reg q i j &&& readMask q.fields := by
  have hit : s.hits.get (q.addr i j) (s.reg q i j, 0) = (s.reg q i j, 0) := by rw [SMap.get, h]
  simp only [State.readReg, Bool.false_eq_true, if_false, hit, if_true, mux_self, mux_zero, State.reg_setReg_same, and_self]

/-- A read of a register in whose lc hardware set or counted: what came stays (R9). -/
theorem State.readReg_hit {s : State} {q : RegName} {i j : Nat} {before came : Word}
    (h : SMap.find? s.hits (q.addr i j) = some (before, came)) :
    let u := s.readReg q i j false
    let m := rclrMask q.fields
    u.2.reg q i j = mux m came (s.reg q i j) ∧ u.1 = mux m before (s.reg q i j) &&& readMask q.fields := by
  have hit : s.hits.get (q.addr i j) (s.reg q i j, 0) = (before, came) := by rw [SMap.get, h]
  simp only [State.readReg, Bool.false_eq_true, if_false, hit, and_true]
  split
  · exact State.reg_setReg_same _ _ _ _ _
  · exact State.reg_setReg_same _ _ _ _ _

/-! ## Settled -/

/-- A word access that a master makes but that is not aligned (R24). -/
theorem wordCmd_misaligned {s : State} {r : Req} {k : Kind} {a : Word} (hl : s.reqLive r k = true) (ha : a.toNat % 4 ≠ 0)
    (body : State → State) : wordCmd r k a body s = .next s.busError := by
  rw [wordCmd, if_pos hl, if_pos ha]

/-- A word access that no window permits (R362). -/
theorem wordCmd_violation {s : State} {r : Req} {k : Kind} {a : Word} (hl : s.reqLive r k = true) (ha : a.toNat % 4 = 0)
    (hw : s.permitted r k a.toNat 4 = false) (body : State → State) :
    wordCmd r k a body s = .next (s.violation r k a.toNat).busError := by
  simp [wordCmd, hl, ha, hw]

/-- A word access of a master that can make none. -/
theorem wordCmd_idle {s : State} {r : Req} {k : Kind} {a : Word} (hl : s.reqLive r k = false) (body : State → State) :
    wordCmd r k a body s = .next s := by
  simp [wordCmd, hl]

/-- Settles O55, from the cases of a word access, the rules of memory and of the access codes. -/
theorem registerAccesses : Obligations.RegisterAccesses := by
  unfold Obligations.RegisterAccesses
  intro s r a v x t both o
  have write : exec (.registerWrite r a v) s = wordCmd r .write a (fun s => s.busWrite r x v.toNat 4) s := rfl
  have read : exec (.registerReadClear r a) s = wordCmd r .read a (fun s => s.readAnswer r false a) s := rfl
  refine ⟨⟨fun h => write.trans (wordCmd_idle h _), fun h => read.trans (wordCmd_idle h _)⟩,
    ⟨fun h => write.trans (wordCmd_misaligned h.1 h.2 _), fun h => read.trans (wordCmd_misaligned h.1 h.2 _)⟩,
    ⟨fun h => write.trans (wordCmd_permitted h.1 h.2.1 h.2.2 _), fun h => read.trans (wordCmd_permitted h.1 h.2.1 h.2.2 _)⟩,
    ⟨fun h => write.trans (wordCmd_violation h.1 h.2.1 h.2.2 _), fun h => read.trans (wordCmd_violation h.1 h.2.1 h.2.2 _)⟩,
    ?_, ?_, ?_, ?_, ?_⟩
  · intro k u
    obtain ⟨addr, viol, count⟩ := s.violation_records r k x
    obtain ⟨g, h, eq⟩ := s.violation_only r k x
    refine ⟨?_, viol, count, ?_, ?_⟩
    · rw [addr, BitVec.ofNat_toNat, BitVec.setWidth_eq]
    · exact congrArg State.cal eq
    · exact (congrArg State.mem eq).trans rfl
  · intro h
    exact ⟨by rw [State.busWrite, h]; rfl, by rw [State.readAnswer, State.busRead, h]⟩
  · intro b hp hc hle hs
    obtain ⟨data, mem⟩ := State.readAnswer_ram hp hc
    obtain ⟨i, p, write⟩ := State.busWrite_ram (v := v.toNat) hp hc hle hs
    refine ⟨data, mem, ?_, ?_, fun y hy => ?_⟩
    · exact (congrArg (State.word · b) write).trans (State.word_setWord_same _ _ _)
    · rw [write, State.writeLE_only_mem]; rfl
    · rw [write, State.byte_writeLE_ne _ hy]; rfl
  · intro wlk came w f i hh hlo hi
    exact writeField_getLsbD wlk came v w f i hh hi
  · intro q i j w m u
    exact ⟨rfl, State.readReg_quiet, fun before came => State.readReg_hit⟩

end Sys2Proof.Machine
end

