-- ==== Sys2Proof/Proofs/MatrixCommands.lean ====
section
/-! PROOF. The solder matrix: software events, route enables, the end of a stretch, levels at destinations. -/

namespace Sys2Proof.Machine

/-! ## The mode -/

/-- The mode is decided by the clock status register, the writes of this lc and the system controller. -/
theorem State.mode_congr {s t : State} (h : t.reg .SYS_CLK_STAT 0 0 = s.reg .SYS_CLK_STAT 0 0) (hm : t.marks = s.marks)
    (hs : t.sys = s.sys) : t.mode = s.mode := by
  have flag : t.flag F.SYS_CLK_STAT_CLK_LOST 0 0 = s.flag F.SYS_CLK_STAT_CLK_LOST 0 0 := by
    rw [State.flag, State.flag, State.fld, State.fld, show F.SYS_CLK_STAT_CLK_LOST.reg = .SYS_CLK_STAT from rfl, h]
  rw [State.mode, State.mode, flag, State.marked, State.marked, hm, hs]

theorem State.mode_setFld_ne (s : State) (f : Fld) (i j v : Nat) (h : RegName.SYS_CLK_STAT.addr 0 0 ≠ f.reg.addr i j) :
    (s.setFld f i j v).mode = s.mode := State.mode_congr (State.reg_setReg_ne _ _ h) rfl rfl

theorem State.mode_bump_ne (s : State) (f : Fld) (i j : Nat) (h : RegName.SYS_CLK_STAT.addr 0 0 ≠ f.reg.addr i j) :
    (s.bump f i j).mode = s.mode := State.mode_congr (State.reg_setReg_ne _ _ h) rfl rfl

theorem State.mode_opened (s : State) (m : Fin 13) : (s.opened m).mode = s.mode :=
  State.opened_congr State.mode (fun _ _ _ _ => rfl) s m

theorem State.fld_setReg_ne (s : State) {q : RegName} {f : Fld} {i j k l : Nat} (v : Word) (h : f.reg.addr k l ≠ q.addr i j) :
    (s.setReg q i j v).fld f k l = s.fld f k l := by rw [State.fld, State.reg_setReg_ne _ _ h, State.fld]

/-! ## Outputs -/

/-- Blocks drive their level sources: memory, the levels of the destinations and the stretched outputs are as they were. -/
def State.drives (s t : State) : Prop := t.mem = s.mem ∧ t.mx.dlv = s.mx.dlv ∧ t.mx.stretch = s.mx.stretch

namespace State.drives
variable {s t u : State}

theorem refl (s : State) : s.drives s := ⟨rfl, rfl, rfl⟩

theorem of_eq (hm : t.mem = s.mem) (hx : t.mx = s.mx) : s.drives t := ⟨hm, by rw [hx], by rw [hx]⟩

theorem trans (h : s.drives t) (g : t.drives u) : s.drives u :=
  ⟨g.1.trans h.1, g.2.1.trans h.2.1, g.2.2.trans h.2.2⟩

theorem setLv (h : s.drives t) (k : Nat) (b : Bool) : s.drives (t.setLv k b) := h.trans ⟨rfl, rfl, rfl⟩
theorem setFld (h : s.drives t) (f : Fld) (i j v : Nat) : s.drives (t.setFld f i j v) := h
theorem sched (h : s.drives t) (d : Nat) (c : Instr) : s.drives (t.sched d c) := h
theorem unsched (h : s.drives t) (c : Instr) : s.drives (t.unsched c) := h
theorem modCmp (h : s.drives t) (n : CmpId) (f : CmpSt → CmpSt) : s.drives (t.modCmp n f) := h
theorem modPwm (h : s.drives t) (n : GenId) (f : PwmSt → PwmSt) : s.drives (t.modPwm n f) := h

theorem ite {c : Prop} [Decidable c] (h : s.drives t) (g : s.drives u) : s.drives (if c then t else u) := by
  split
  · exact h
  · exact g

theorem foldl {α : Type} {f : State → α → State} (h : ∀ t a, s.drives t → s.drives (f t a)) (l : List α) (hs : s.drives t) :
    s.drives (l.foldl f t) := foldl_keeps s.drives h l t hs

/-! ### Comparators -/

theorem winOf (h : s.drives t) (n : CmpId) : s.drives (t.winOf n) :=
  ite ((((h.setLv _ _).setLv _ _).setLv _ _).setLv _ _) h

theorem settleTo (h : s.drives t) (n : CmpId) (e : Option Nat) : s.drives (t.settleTo n e) := by
  cases e with
  | some u => exact ((h.modCmp n _).setFld _ _ _ _).sched _ _
  | none => exact ((h.modCmp n _).setFld _ _ _ _).unsched _

theorem dacMove (h : s.drives t) (n : CmpId) : s.drives (t.dacMove n) :=
  ite h (ite (h.modCmp n _) (((h.winOf n).modCmp n _).settleTo n _))

theorem cmpSelChange (h : s.drives t) (n : CmpId) : s.drives (t.cmpSelChange n) := by
  refine ite ?_ h
  unfold State.dacsMove
  dsimp only
  split
  · exact (h.dacMove n).dacMove _
  · exact h.dacMove n

/-! ### Outputs of a PWM generator -/

theorem pwmDrive (h : s.drives t) (n : GenId) (e : Nat) : s.drives (t.pwmDrive n e) :=
  (foldl (fun _ _ g => ite g ((g.setLv _ _).modPwm n _)) _ h).setLv _ _

theorem pwmTurnOn (h : s.drives t) (n : GenId) (b : Bool) (e : Nat) : s.drives (t.pwmTurnOn n b e) :=
  ite (((h.modPwm n _).pwmDrive n e).setLv _ _) ((h.modPwm n _).pwmDrive n e)

theorem pwmDead (h : s.drives t) (n : GenId) (b : Bool) (e : Nat) : s.drives (t.pwmDead n b e) :=
  ite (h.modPwm n _) (ite (h.pwmTurnOn n b e) ((h.modPwm n _).sched _ _))

theorem pwmFollow (h : s.drives t) (n : GenId) (e : Nat) : s.drives (t.pwmFollow n e) :=
  ite (((h.modPwm n _).modPwm n _).pwmDrive n e) (((h.modPwm n _).pwmDrive n e).pwmDead n _ e)

theorem pwmRelease (h : s.drives t) (n : GenId) : s.drives (t.pwmRelease n) := by
  have released := h.setFld F.PWMn_STAT_TRIPPED n 0
  refine ite (pwmFollow ?_ n _) (pwmDrive ?_ n _) <;>
    exact ite (foldl (fun _ m g => ite (ite ((g.modPwm m _).pwmFollow m _) (g.modPwm m _)) g) _ (released _)) (released _)

theorem tripOver (h : s.drives t) (n : GenId) : s.drives (t.tripOver n) :=
  ite h (ite (h.pwmRelease n) (h.pwmDrive n _))

end State.drives

/-! ## Levels at destinations -/

/-- An edge acts on events, captures and probes alone. -/
theorem State.edgeArrive_drives (s : State) (d : Nat) (rising : Bool) (src : Option Nat) : s.drives (s.edgeArrive d rising src) := by
  have kept := State.drives.refl s
  have capture : ∀ n c, s.drives (s.capArrive n c rising src) := fun n c => by
    refine .ite ?_ kept
    cases src with
    | some k => exact .ite kept (.ite kept kept)
    | none => exact kept
  exact .ite (.ite kept kept) (.ite (capture _ _) (.ite kept kept))

/-- A level that arrives at a destination: it follows the level as its route lets it, whatever block it acts on. -/
theorem State.levelArrive_takes (s : State) (d : Nat) (on lv : Bool) (src : Option Nat) :
    let t := s.levelArrive d on lv src
    t.destLv d = gated d on lv ∧ t.mx.stretch = s.mx.stretch ∧ t.mem = s.mem := by
  intro t
  by_cases same : s.destLv d = gated d on lv
  · have : t = s := by
      change s.levelArrive d on lv src = s
      simp only [State.levelArrive, if_pos same]
    rw [this]
    exact ⟨same, rfl, rfl⟩
  · let u : State := { s with mx := { s.mx with dlv := s.mx.dlv.put d (gated d on lv) false } }
    have drives : u.drives t := by
      change u.drives (s.levelArrive d on lv src)
      simp only [State.levelArrive, if_neg same]
      have kept := State.drives.refl u
      split
      · exact .ite (u.edgeArrive_drives _ _ _) kept
      · refine .ite (kept.cmpSelChange _) (.ite kept ?_)
        split
        · exact .ite (.ite kept kept) kept
        · exact .ite kept kept
        · exact .ite kept (kept.tripOver _)
      · exact kept
    obtain ⟨mem, dlv, stretch⟩ := drives
    refine ⟨?_, stretch, mem⟩
    rw [State.destLv, dlv]
    exact SMap.get_put_same _ _ _ _

/-- An edge destination whose route is disabled follows the level and passes no event (R466). -/
theorem State.levelArrive_edge_off (s : State) (d : Nat) (b : Bool) (src : Option Nat) (h : dstKind d = .edge) :
    s.levelArrive d false b src = { s with mx := { s.mx with dlv := (s.levelArrive d false b src).mx.dlv } } ∧
      (s.levelArrive d false b src).destLv d = b := by
  have gate : gated d false b = b := if_pos h
  by_cases same : s.destLv d = b
  · have : s.levelArrive d false b src = s := by simp only [State.levelArrive, gate, if_pos same]
    rw [this]
    exact ⟨rfl, same⟩
  · have : s.levelArrive d false b src = { s with mx := { s.mx with dlv := s.mx.dlv.put d b false } } := by
      simp only [State.levelArrive, gate, if_neg same, h, Bool.false_eq_true, if_false]
    rw [this]
    exact ⟨rfl, SMap.get_put_same _ _ _ _⟩

/-! ## Software events -/

/-- The events of the lc after the software sources of a BUSCLK cycle have become due. -/
theorem State.swDue_eq (s : State) : s.swDue = if s.now % 2 = 1 then
    { s with mx := { s.mx with ev := s.mx.ev ++ s.mx.sw, sw := [] } } else s := by
  have raise : ∀ (ks : List Nat) (t : State), ks.foldl (fun s k => s.raiseEv k) t = { t with mx := { t.mx with ev := t.mx.ev ++ ks } } := by
    intro ks
    induction ks with
    | nil => intro t; simp
    | cons k ks ih => intro t; rw [List.foldl_cons, ih]; simp [State.raiseEv]
  simp only [State.swDue, raise]

/-- The software sources of a word that a tenant owns. -/
def State.swMine (s : State) (r : Req) (j : Fin 2) (v : Word) : List Nat :=
  (List.range 32).filter fun i => v.getLsbD i && decide (r.tenant = s.swOwner (32 * j.val + i))

theorem State.swRaise_of_live {s : State} (hl : s.mode.live = true) (r : Req) (j : Fin 2) (v : Word) :
    s.swRaise r j v =
      let mine := s.swMine r j v
      let t := if mine.length < ((List.range 32).filter fun i => v.getLsbD i).length then s.bump F.SM_ERR_CNT_FOREIGN 0 0 else s
      ({ t with mx := { t.mx with sw := t.mx.sw ++ mine.map fun i => 0x020 + 32 * j.val + i } } : State).swDue := by
  have live : ∀ c : Prop, [Decidable c] → (if c then s.bump F.SM_ERR_CNT_FOREIGN 0 0 else s).mode.live = true := fun c _ => by
    split
    · rw [State.mode_bump_ne _ _ _ _ (by decide), hl]
    · exact hl
  have mine : ((List.range 32).filter fun i => v.getLsbD i).filter (fun i => decide (r.tenant = s.swOwner (32 * j.val + i))) =
      s.swMine r j v := by
    rw [List.filter_filter, State.swMine]
    exact List.filter_congr fun i _ => Bool.and_comm _ _
  simp only [State.swRaise, mine, live, if_true]

/-- Some source of the word is another's, just where the tenant's own are fewer. -/
theorem State.swMine_lt (s : State) (r : Req) (j : Fin 2) (v : Word) :
    (s.swMine r j v).length < ((List.range 32).filter fun i => v.getLsbD i).length ↔
      ∃ i, i < 32 ∧ v.getLsbD i = true ∧ ¬ r.tenant = s.swOwner (32 * j.val + i) := by
  have mine : s.swMine r j v = ((List.range 32).filter fun i => v.getLsbD i).filter
      fun i => decide (r.tenant = s.swOwner (32 * j.val + i)) := by
    rw [List.filter_filter, State.swMine]
    exact List.filter_congr fun i _ => Bool.and_comm _ _
  rw [mine, List.length_filter_lt_length_iff_exists]
  simp [and_assoc]

/-! ## Route enables -/

/-- A tenant owns the enable of destination d. -/
def State.renOwn (s : State) (r : Req) (d : Nat) : Prop := ∃ x ∈ s.mx.routes, x.town = true ∧ x.dest = d ∧ r.tenant = Fin.ofNat 8 x.owner

theorem State.renMine_getLsbD (s : State) (r : Req) (k i : Nat) (hi : i < 32) :
    (s.renMine r k).getLsbD i = true ↔ s.renOwn r (32 * k + i) := by
  have acc : ∀ (l : List Route) (m : Word), (l.foldl (fun m x =>
      if x.town && decide (x.dest / 32 = k) && decide (r.tenant = Fin.ofNat 8 x.owner) then m ||| BitVec.ofNat 32 (2 ^ (x.dest % 32)) else m)
        m).getLsbD i = true ↔ m.getLsbD i = true ∨ ∃ x ∈ l, x.town = true ∧ x.dest = 32 * k + i ∧ r.tenant = Fin.ofNat 8 x.owner := by
    intro l
    induction l with
    | nil => simp
    | cons x l ih =>
      intro m
      have bit : (BitVec.ofNat 32 (2 ^ (x.dest % 32))).getLsbD i = decide (x.dest % 32 = i) := by
        rw [BitVec.getLsbD_ofNat, Nat.testBit_two_pow, decide_eq_true hi, Bool.true_and]
      have at_ : x.dest = 32 * k + i ↔ x.dest / 32 = k ∧ x.dest % 32 = i := by omega
      rw [List.foldl_cons, ih]
      simp only [List.mem_cons, exists_eq_or_imp, at_, Bool.and_eq_true]
      split
      · next c =>
        obtain ⟨⟨town, word⟩, tenant⟩ := c
        rw [BitVec.getLsbD_or, bit]
        simp [town, of_decide_eq_true word, of_decide_eq_true tenant, or_assoc, -BitVec.getLsbD_eq_getElem]
      · next c =>
        have : ¬ (x.town = true ∧ (x.dest / 32 = k ∧ x.dest % 32 = i) ∧ r.tenant = Fin.ofNat 8 x.owner) := fun h =>
          c ⟨⟨h.1, decide_eq_true h.2.1.1⟩, decide_eq_true h.2.2⟩
        rw [or_iff_right this]
  rw [State.renMine, acc]
  simp [State.renOwn]

/-- The bits of a mix of two words. -/
theorem getLsbD_mix (cur v mine : Word) (i : Nat) (hi : i < 32) :
    ((cur &&& ~~~mine) ||| (v &&& mine)).getLsbD i = if mine.getLsbD i = true then v.getLsbD i else cur.getLsbD i := by
  rw [BitVec.getLsbD_or, BitVec.getLsbD_and, BitVec.getLsbD_and, BitVec.getLsbD_not, decide_eq_true hi]
  cases mine.getLsbD i <;> simp

/-- What a write to SM_RENj does where it prevails (R226). -/
theorem State.renApply_spec (s : State) (r : Req) (k : Fin 32) (v cur : Word) :
    let t := s.renApply r k v cur
    t.mx.enStart = s.mx.enStart ∧ t.mx.routes = s.mx.routes ∧
    (∀ i < 32, (s.renOwn r (32 * k.val + i) → t.routeEn (32 * k.val + i) = v.getLsbD i) ∧
      (¬ s.renOwn r (32 * k.val + i) → t.routeEn (32 * k.val + i) = cur.getLsbD i)) ∧
    (∀ q : Fin 32, q ≠ k → t.reg .SM_RENj q 0 = s.reg .SM_RENj q 0) ∧
    t.fld F.SM_ERR_CNT_FOREIGN 0 0 = (if (v ^^^ cur) &&& ~~~(s.renMine r k) = 0 then s.fld F.SM_ERR_CNT_FOREIGN 0 0
      else min F.SM_ERR_CNT_FOREIGN.max (s.fld F.SM_ERR_CNT_FOREIGN 0 0 + 1)) := by
  have hk := k.isLt
  let told : State := if (v ^^^ cur) &&& ~~~(s.renMine r k) ≠ 0 then s.bump F.SM_ERR_CNT_FOREIGN 0 0 else s
  let mixed := (cur &&& ~~~(s.renMine r k)) ||| (v &&& s.renMine r k)
  intro t
  have regs : t.regs = (told.setReg .SM_RENj k 0 mixed).regs := rfl
  have mx : told.mx = s.mx := by
    change State.mx (if _ then _ else _) = _
    split <;> rfl
  have err_ren : ∀ q : Fin 32, RegName.SM_RENj.addr q 0 ≠ RegName.SM_ERR_CNT.addr 0 0 := fun q => by
    have := q.isLt
    simp [RegName.addr, RegName.base, RegName.dims]
    omega
  have told_ren : ∀ q : Fin 32, told.reg .SM_RENj q 0 = s.reg .SM_RENj q 0 := fun q => by
    change State.reg (if _ then _ else _) _ _ _ = _
    split
    · exact State.reg_setReg_ne _ _ (err_ren q)
    · rfl
  have mx' : t.mx = { s.mx with renBy := t.mx.renBy } := by rw [← mx]; rfl
  refine ⟨by rw [mx'], by rw [mx'], fun i hi => ?_, fun q hq => ?_, ?_⟩
  · have en : t.routeEn (32 * k.val + i) = if (s.renMine r k).getLsbD i = true then v.getLsbD i else cur.getLsbD i := by
      rw [State.routeEn, show (32 * k.val + i) / 32 = k.val by omega, show (32 * k.val + i) % 32 = i by omega, State.reg, regs]
      change ((told.setReg .SM_RENj k 0 mixed).reg .SM_RENj k 0).getLsbD i = _
      rw [State.reg_setReg_same, getLsbD_mix _ _ _ _ hi]
    rw [en, ← s.renMine_getLsbD r k i hi]
    exact ⟨fun h => if_pos h, fun h => if_neg h⟩
  · have apart : RegName.SM_RENj.addr q 0 ≠ RegName.SM_RENj.addr k 0 := by
      have := Fin.val_ne_of_ne hq
      simp [RegName.addr, RegName.base, RegName.dims]
      omega
    rw [State.reg, regs]
    exact (State.reg_setReg_ne _ _ apart).trans (told_ren q)
  · rw [State.fld_of_regs regs, State.fld_setReg_ne _ _ (err_ren k).symm]
    by_cases c : (v ^^^ cur) &&& ~~~(s.renMine r k) = 0
    · rw [if_pos c]
      exact congrArg (fun t : State => t.fld F.SM_ERR_CNT_FOREIGN 0 0) (if_neg (not_not.2 c))
    · rw [if_neg c, ← State.fld_bump_same _ _ _ _ ⟨by decide, by decide⟩]
      exact congrArg (fun t : State => t.fld F.SM_ERR_CNT_FOREIGN 0 0) (if_pos c)

/-- The enable of destination 32 k + i is bit i of SM_RENk. -/
theorem State.routeEn_word (s : State) (k : Nat) {i : Nat} (hi : i < 32) : s.routeEn (32 * k + i) = (s.reg .SM_RENj k 0).getLsbD i := by
  rw [State.routeEn, show (32 * k + i) / 32 = k by omega, show (32 * k + i) % 32 = i by omega]

/-! ## Settled -/

section
variable {s : State} {r : Req}

/-- SW_EVENT_RAISE in a live mode. -/
theorem exec_swEventRaise (hl : s.mode.live = true) {j : Fin 2} (h : s.admits r .write .SM_SWEVTj j 0) (v : Word) :
    let hits := (s.swMine r j v).map fun i => 0x020 + 32 * j.val + i
    ∃ t, exec (.swEventRaise r j v) s = .next t ∧
      (s.now % 2 = 1 → t.mx.ev = s.mx.ev ++ (s.mx.sw ++ hits) ∧ t.mx.sw = []) ∧
      (s.now % 2 = 0 → t.mx.ev = s.mx.ev ∧ t.mx.sw = s.mx.sw ++ hits) ∧
      t.mem = s.mem ∧ t.mx.routes = s.mx.routes ∧
      ((∀ i < 32, v.getLsbD i = true → r.tenant = s.swOwner (32 * j.val + i)) → t.regs = s.regs) ∧
      ((∃ i, i < 32 ∧ v.getLsbD i = true ∧ ¬ r.tenant = s.swOwner (32 * j.val + i)) →
        t.fld F.SM_ERR_CNT_FOREIGN 0 0 = min F.SM_ERR_CNT_FOREIGN.max (s.fld F.SM_ERR_CNT_FOREIGN 0 0 + 1)) := by
  intro hits
  have mine : (s.opened r.master).swMine r j v = s.swMine r j v :=
    State.opened_congr (fun s => s.swMine r j v) (fun _ _ _ _ => rfl) s r.master
  obtain ⟨u, c, opened⟩ := s.opened_only r.master
  let told : State := if (s.swMine r j v).length < ((List.range 32).filter fun i => v.getLsbD i).length
    then (s.opened r.master).bump F.SM_ERR_CNT_FOREIGN 0 0 else s.opened r.master
  have kept : told.mx = s.mx ∧ told.mem = s.mem ∧ told.now = s.now := by
    simp only [told, opened]
    split <;> exact ⟨rfl, rfl, rfl⟩
  obtain ⟨mx, mem, now⟩ := kept
  let raised : State := { told with mx := { told.mx with sw := told.mx.sw ++ hits } }
  have regs : raised.swDue.regs = told.regs := by rw [State.swDue_eq]; split <;> rfl
  have done : exec (.swEventRaise r j v) s = .next raised.swDue := by
    change execSwEventRaise r j v s = _
    refine regCmd_next_of h ((State.swRaise_of_live (by rw [State.mode_opened, hl]) r j v).trans ?_)
    rw [mine]
  refine ⟨_, done, fun odd => ?_, fun even => ?_, ?_, ?_, fun all => ?_, fun some => ?_⟩
  · rw [State.swDue_eq, if_pos (by rw [← now] at odd; exact odd)]
    exact ⟨by simp only [raised, mx], rfl⟩
  · have : ¬ raised.now % 2 = 1 := by change ¬ told.now % 2 = 1; omega
    rw [State.swDue_eq, if_neg this]
    simp only [raised, mx, and_self]
  · rw [State.swDue_eq]
    split <;> exact mem
  · rw [State.swDue_eq]
    split <;> simp only [raised, mx]
  · have : told = s.opened r.master := if_neg fun c => by
      obtain ⟨i, hi, hv, hn⟩ := (s.swMine_lt r j v).1 c
      exact hn (all i hi hv)
    rw [regs, this, State.opened_regs]
  · have : told = (s.opened r.master).bump F.SM_ERR_CNT_FOREIGN 0 0 := if_pos ((s.swMine_lt r j v).2 some)
    rw [State.fld_of_regs regs, this, State.fld_bump_same _ _ _ _ ⟨by decide, by decide⟩,
      State.fld_of_regs (State.opened_regs s r.master)]

/-- ROUTE_ENABLE_WRITE, admitted. -/
theorem exec_routeEnableWrite {k : Fin 32} (h : s.admits r .write .SM_RENj k 0) (v : Word) :
    exec (.routeEnableWrite r k v) s = .next ((s.opened r.master).renWrite r k v) := by
  change execRouteEnableWrite r k v s = _
  exact regCmd_next_of h rfl

/-- Where no other requester wrote in this BUSCLK cycle, the write prevails on what the register holds. -/
theorem State.renWrite_alone {k : Fin 32}
    (h : ∀ w, s.mx.renBy.get k.val none = some w → w.cyc ≠ s.now / 2 ∨ w.master = r.master.val) (v : Word) :
    s.renWrite r k v = s.renApply r k v (s.reg .SM_RENj k 0) := by
  unfold State.renWrite
  cases hw : s.mx.renBy.get k.val none with
  | none => rfl
  | some w => exact if_pos (h w hw)

/-- Of two requesters the lower one's write stands. -/
theorem State.renWrite_later {k : Fin 32} {w : RenWrite} (hw : s.mx.renBy.get k.val none = some w) (hc : w.cyc = s.now / 2)
    (hm : w.master < r.master.val) (v : Word) : s.renWrite r k v = s := by
  have : ¬ (w.cyc ≠ s.now / 2 ∨ w.master = r.master.val) := by omega
  simp only [State.renWrite, hw, if_neg this, if_pos hm]

theorem State.renWrite_before {k : Fin 32} {w : RenWrite} (hw : s.mx.renBy.get k.val none = some w) (hc : w.cyc = s.now / 2)
    (hm : r.master.val < w.master) (v : Word) :
    s.renWrite r k v = (if w.told then s.unbump F.SM_ERR_CNT_FOREIGN 0 0 else s).renApply r k v w.before := by
  have : ¬ (w.cyc ≠ s.now / 2 ∨ w.master = r.master.val) := by omega
  simp only [State.renWrite, hw, if_neg this, if_neg (Nat.not_lt.2 hm.le)]

/-- PULSE_STRETCH_END where a stretch drives the destination. -/
theorem exec_pulseStretchEnd (hl : s.mode.live = true) {d : Fin 1024} (hx : ∃ x ∈ s.mx.routes, x.dest = d.val ∧ x.func = 6) :
    exec (.pulseStretchEnd d) s =
      .next ((({ s with mx := { s.mx with stretch := s.mx.stretch.put d.val false false } } : State).unsched (.pulseStretchEnd d)).levelArrive
        d.val (s.mx.enPrev.get d.val false) false none) := by
  change execPulseStretchEnd d s = _
  cases find : s.mx.routes.find? fun r => decide (r.dest = d.val) && decide (r.func = 6) with
  | none =>
    obtain ⟨x, hx, hd, hf⟩ := hx
    have := List.find?_eq_none.1 find x hx
    simp [hd, hf] at this
  | some x =>
    have := List.find?_some find
    have dest : x.dest = d.val := by simp at this; exact this.1
    have live : (({ s with mx := { s.mx with stretch := s.mx.stretch.put d.val false false } } : State).unsched
      (.pulseStretchEnd d)).mode.live = true := hl
    simp only [execPulseStretchEnd, State.unsched_mx, find, live, if_true, dest]

end

/-- Settles O41, from the software events, the write to SM_RENj, and the levels at destinations. -/
theorem matrixCommands : Obligations.MatrixCommands := by
  unfold Obligations.MatrixCommands
  intro s r j k d v hl a
  have mx : a.mx = s.mx := s.opened_mx r.master
  have now : a.now = s.now := s.opened_now r.master
  have reg : ∀ q : Fin 32, a.reg .SM_RENj q 0 = s.reg .SM_RENj q 0 := fun q => by rw [State.reg, State.opened_regs]; rfl
  have fld : a.fld F.SM_ERR_CNT_FOREIGN 0 0 = s.fld F.SM_ERR_CNT_FOREIGN 0 0 := State.fld_of_regs (s.opened_regs r.master) _ _ _
  have own : ∀ d, a.renOwn r d ↔ s.renOwn r d := fun d => by rw [State.renOwn, mx, State.renOwn]
  have mine : a.renMine r k = s.renMine r k := by rw [State.renMine, mx, State.renMine]
  refine ⟨fun h => exec_swEventRaise hl h v, fun h => ⟨fun alone => ?_, fun w hw hc => ⟨fun hm => ?_, fun hm => ?_⟩⟩, fun hx => ?_,
    fun b src => ⟨fun edge => ?_, fun level off => ?_⟩⟩
  · obtain ⟨enStart, routes, bits, others, foreign⟩ := a.renApply_spec r k v (s.reg .SM_RENj k 0)
    rw [mine, fld] at foreign
    refine ⟨_, (exec_routeEnableWrite h v).trans (congrArg _ ((State.renWrite_alone (by rw [mx, now]; exact alone) v).trans (by rw [reg]))),
      by rw [enStart, mx], by rw [routes, mx], fun i hi => ?_, fun q hq => (others q hq).trans (reg q), foreign⟩
    obtain ⟨mine, other⟩ := bits i hi
    rw [own] at mine other
    exact ⟨mine, fun hn => by rw [other hn, s.routeEn_word k hi]⟩
  · exact (exec_routeEnableWrite h v).trans (congrArg _ (State.renWrite_later (by rw [mx]; exact hw) (by rw [now]; exact hc) hm v))
  · let told : State := if w.told then a.unbump F.SM_ERR_CNT_FOREIGN 0 0 else a
    have told_mx : told.mx = s.mx := by
      simp only [told]
      split <;> exact mx
    have told_own : ∀ d, told.renOwn r d ↔ s.renOwn r d := fun d => by rw [State.renOwn, told_mx, State.renOwn]
    obtain ⟨enStart, -, bits, -, -⟩ := told.renApply_spec r k v w.before
    refine ⟨_, (exec_routeEnableWrite h v).trans (congrArg _ (State.renWrite_before (by rw [mx]; exact hw) (by rw [now]; exact hc) hm v)),
      by rw [enStart, told_mx], fun i hi => ?_⟩
    obtain ⟨mine, other⟩ := bits i hi
    rw [told_own] at mine other
    exact ⟨mine, other⟩
  · refine ⟨_, exec_pulseStretchEnd hl hx, ?_⟩
    let u : State := ({ s with mx := { s.mx with stretch := s.mx.stretch.put d.val false false } } : State).unsched (.pulseStretchEnd d)
    obtain ⟨dlv, stretch, mem⟩ := u.levelArrive_takes d.val (s.mx.enPrev.get d.val false) false none
    have low : gated d.val (s.mx.enPrev.get d.val false) false = false := by simp [gated]
    have ended : u.mx.stretch.get d.val false = false := SMap.get_put_same s.mx.stretch d.val false false
    refine ⟨dlv.trans low, (congrArg (SMap.get · d.val false) stretch).trans ended, mem, fun edge off => ?_⟩
    rw [off]
    obtain ⟨eq, -⟩ := u.levelArrive_edge_off d.val false none edge
    exact (congrArg State.inbox eq).trans rfl
  · obtain ⟨eq, lv⟩ := s.levelArrive_edge_off d.val b src edge
    exact ⟨lv, by rw [eq], by rw [eq], by rw [eq]⟩
  · have gate : gated d.val false b = false := if_neg level
    simp only [State.levelArrive, gate, off, if_true]

end Sys2Proof.Machine
end

