-- ==== Sys2Proof/Proofs/TimeOfDay.lean ====
section
/-! PROOF. Time of day: the tick, the roll-over, the rate, PPS, the snapshot, commits. -/

namespace Sys2Proof.Machine

variable (s : State)

/-! ## Commits -/

/-- The commit does not look at the cycle's accesses, nor at the answer. -/
theorem State.todCommit_eq {s t : State} (h : t.old = s.old) :
    t.todCommit =
      let setNs := getBits (s.oldReg .TOD_SET_NS 0 0) 29 0
      let sec := BitVec.ofNat 48 (getBits (s.oldReg .TOD_SET_SEC_HI 0 0) 15 0 * 2 ^ 32 + (s.oldReg .TOD_SET_SEC 0 0).toNat)
      let t : State := { t with tod := { t.tod with acc := setNs * 2 ^ 30, sec := sec } }
      ((t.setFld F.TOD_STAT_VALID 0 0 1).setFld F.TOD_STAT_PENDING 0 0 0).raiseEv 6 := by
  have old : ∀ rn, t.oldReg rn 0 0 = s.oldReg rn 0 0 := fun rn => by rw [State.oldReg, State.oldReg, h]
  simp only [State.todCommit, old]
  rfl

/-- A GO write that names no time (R158, log entry 119). -/
theorem State.todGo_refused {s : State} (h : 1000000000 ≤ getBits (s.oldReg .TOD_SET_NS 0 0) 29 0) (timed : Bool) :
    s.todGo timed = s.raiseFld F.TOD_STAT_SETERR 0 0 1 := if_pos h

theorem State.todGo_waits {s : State} (h : getBits (s.oldReg .TOD_SET_NS 0 0) 29 0 < 1000000000) (hl : s.mode.live = true)
    (hw : s.commitAt = 0 ∨ s.todNs < s.commitAt) : s.todGo true = s.setFld F.TOD_STAT_PENDING 0 0 1 := by
  have wait : (true && (decide (s.commitAt = 0) || decide (s.todNs < s.commitAt))) = true := by simpa using hw
  rw [State.todGo, if_neg (Nat.not_le.2 h), hl, if_neg (by simp), if_pos wait]

theorem State.todGo_commits {s : State} (h : getBits (s.oldReg .TOD_SET_NS 0 0) 29 0 < 1000000000) (hl : s.mode.live = true)
    {timed : Bool} (hw : timed = false ∨ (s.commitAt ≠ 0 ∧ s.commitAt ≤ s.todNs)) : s.todGo timed = s.todCommit := by
  have go : ¬ (timed && (decide (s.commitAt = 0) || decide (s.todNs < s.commitAt))) = true := by
    rcases hw with rfl | ⟨h0, hle⟩
    · simp
    · simp [h0, hle]
  rw [State.todGo, if_neg (Nat.not_le.2 h), hl, if_neg (by simp), if_neg go]

/-- The GO and CANCEL writes. -/
theorem State.todCommitWrite_go (timed : Bool) : s.todCommitWrite (if timed then 3 else 1) = s.todGo timed := by
  cases timed <;> rfl

theorem State.todCommitWrite_cancel : s.todCommitWrite 4 = s.setFld F.TOD_STAT_PENDING 0 0 0 := rfl

/-! ## The tick -/

/-- The second that NS carries (R152). -/
theorem TodSt.carry_eq (t : TodSt) :
    t.carry.acc = (if todSecond ≤ t.acc then t.acc - todSecond else t.acc) ∧ t.carry.sec = (if todSecond ≤ t.acc then t.sec + 1 else t.sec) := by
  unfold TodSt.carry
  split <;> exact ⟨rfl, rfl⟩

/-- The accumulator and the roll-over of one lc, before a commit. -/
def State.todAdd (s : State) : State :=
  let s := s.modTod fun t => { t with acc := t.acc + (s.reg .TOD_ADDEND 0 0).toNat }
  if decide (todSecond ≤ s.tod.acc) then (s.modTod TodSt.carry).emit .todRollover else s

theorem State.flag_todAdd (f : Fld) (i j : Nat) : s.todAdd.flag f i j = s.flag f i j := by
  dsimp only [State.todAdd]
  split <;> rfl

/-- A tick adds and carries; then a pending commit may meet its time. -/
theorem State.todTick_live {s : State} (hl : s.mode.live = true) :
    let acc := s.tod.acc + (s.reg .TOD_ADDEND 0 0).toNat
    let hit := if s.commitAt = 0 then decide (todSecond ≤ acc) else decide (s.todNs < s.commitAt) && decide (s.commitAt ≤ acc / 2 ^ 30) &&
      decide (s.commitAt < 1000000000)
    s.todTick = if s.todAdd.flag F.TOD_STAT_PENDING 0 0 && hit then s.todAdd.todCommit else s.todAdd := if_pos hl

/-- Without a pending commit a tick adds and carries. -/
theorem State.todTick_idle {s : State} (hl : s.mode.live = true) (hp : s.flag F.TOD_STAT_PENDING 0 0 = false) : s.todTick = s.todAdd := by
  refine (State.todTick_live hl).trans (if_neg ?_)
  rw [State.flag_todAdd, hp]
  simp

/-- What the tick adds. -/
theorem State.todAdd_spec :
    let acc := s.tod.acc + (s.reg .TOD_ADDEND 0 0).toNat
    let t := s.todAdd
    t.tod.acc = (if todSecond ≤ acc then acc - todSecond else acc) ∧ t.tod.sec = (if todSecond ≤ acc then s.tod.sec + 1 else s.tod.sec) ∧
      t.inbox = (if todSecond ≤ acc then s.inbox ++ [.todRollover] else s.inbox) ∧ t.regs = s.regs := by
  intro acc t
  by_cases roll : todSecond ≤ acc
  · have eq : t = ((s.modTod fun t => { t with acc := acc }).modTod TodSt.carry).emit .todRollover := if_pos (decide_eq_true roll)
    obtain ⟨hacc, hsec⟩ := TodSt.carry_eq { s.tod with acc := acc }
    rw [eq, if_pos roll, if_pos roll, if_pos roll]
    exact ⟨hacc.trans (if_pos roll), hsec.trans (if_pos roll), rfl, rfl⟩
  · have eq : t = s.modTod fun t => { t with acc := acc } := if_neg fun h => roll (of_decide_eq_true h)
    rw [eq, if_neg roll, if_neg roll, if_neg roll]
    exact ⟨rfl, rfl, rfl, rfl⟩

/-- A pending commit meets its time in an lc without roll-over (R156). -/
theorem State.todTick_pending {s : State} (hl : s.mode.live = true) (hp : s.flag F.TOD_STAT_PENDING 0 0 = true)
    (hacc : s.tod.acc + (s.reg .TOD_ADDEND 0 0).toNat < todSecond) :
    let acc := s.tod.acc + (s.reg .TOD_ADDEND 0 0).toNat
    let u : State := { s with tod := { s.tod with acc := acc } }
    s.todTick = if s.commitAt ≠ 0 ∧ s.todNs < s.commitAt ∧ s.commitAt ≤ acc / 2 ^ 30 then u.todCommit else u := by
  intro acc u
  have roll : ¬ todSecond ≤ acc := Nat.not_le.2 hacc
  have added : s.todAdd = u := if_neg fun h => roll (of_decide_eq_true h)
  have valid : s.commitAt ≤ acc / 2 ^ 30 → s.commitAt < 1000000000 := fun h => by
    have : acc < 1000000000 * 2 ^ 30 := hacc
    omega
  refine (State.todTick_live hl).trans ?_
  rw [State.flag_todAdd, hp, added]
  refine if_congr ?_ rfl rfl
  rw [Bool.true_and, decide_eq_false roll]
  by_cases none : s.commitAt = 0
  · rw [if_pos none]
    exact ⟨fun h => absurd h (by decide), fun h => absurd none h.1⟩
  · rw [if_neg none, Bool.and_eq_true, Bool.and_eq_true, decide_eq_true_iff, decide_eq_true_iff, decide_eq_true_iff]
    exact ⟨fun h => ⟨none, h.1⟩, fun h => ⟨h.2, valid h.2.2⟩⟩

/-! ## Settled -/

/-- The last accepted edge of PPS is less than 500 ms ago. -/
def State.ppsEarly (s : State) : Bool :=
  match s.tod.ppsLast with
  | some t => decide (s.now < t + 200000000)
  | none => false

/-- What an accepted edge of PPS latches. -/
def State.ppsLatch (s : State) : State :=
  (((s.setReg .TOD_PPS_NS 0 0 (BitVec.ofNat 32 s.todNs)).setReg .TOD_PPS_SEC 0 0 s.todSecLo).setReg .TOD_PPS_FINE 0 0
    s.todHiFine).setFld F.TOD_STAT_PPS_LOST 0 0 0

theorem exec_todPpsEdge_eq : exec .todPpsEdge s = if s.ppsIn && !s.ppsEarly then
    .next (((s.ppsLatch.modTod fun t => { t with ppsLast := some s.now }).raiseEv 5).sched ppsTimeout .ppsLost) else .next s := rfl

/-- A command put on the calendar stands there. -/
theorem State.mem_sched {s : State} {t : Nat} (h : s.now = t) (d : Nat) (c : Instr) : (t + d, c) ∈ (s.sched d c).cal := by
  rw [← h]
  exact List.mem_append_right _ (.head _)

/-- TOD_PPS_EDGE, accepted (R154). -/
theorem exec_todPpsEdge {s : State} (hp : s.ppsIn = true) (h : ∀ t, s.tod.ppsLast = some t → t + 200000000 ≤ s.now) :
    ∃ t, exec .todPpsEdge s = .next t ∧
      t.reg .TOD_PPS_NS 0 0 = BitVec.ofNat 32 s.todNs ∧ t.reg .TOD_PPS_SEC 0 0 = s.todSecLo ∧ t.reg .TOD_PPS_FINE 0 0 = s.todHiFine ∧
      t.flag F.TOD_STAT_PPS_LOST 0 0 = false ∧ t.mx.ev = s.mx.ev ++ [5] ∧ t.tod = { s.tod with ppsLast := some s.now } ∧
      (s.now + 440000000, Instr.ppsLost) ∈ t.cal := by
  have late : s.ppsEarly = false := by
    unfold State.ppsEarly
    cases hl : s.tod.ppsLast with
    | none => rfl
    | some t => exact decide_eq_false (Nat.not_lt.2 (h t hl))
  have done : exec .todPpsEdge s =
      .next (((s.ppsLatch.modTod fun t => { t with ppsLast := some s.now }).raiseEv 5).sched ppsTimeout .ppsLost) := by
    rw [exec_todPpsEdge_eq, late, hp]
    rfl
  refine ⟨_, done, ?_, ?_, ?_, ?_, rfl, rfl, ?_⟩
  · change s.ppsLatch.reg _ _ _ = _
    rw [State.ppsLatch, State.setFld, State.reg_setReg_ne _ _ (by decide), State.reg_setReg_ne _ _ (by decide), State.reg_setReg_ne _ _ (by decide),
      State.reg_setReg_same]
  · change s.ppsLatch.reg _ _ _ = _
    rw [State.ppsLatch, State.setFld, State.reg_setReg_ne _ _ (by decide), State.reg_setReg_ne _ _ (by decide), State.reg_setReg_same]
  · change s.ppsLatch.reg _ _ _ = _
    rw [State.ppsLatch, State.setFld, State.reg_setReg_ne _ _ (by decide), State.reg_setReg_same]
  · change s.ppsLatch.flag _ _ _ = _
    rw [State.ppsLatch, State.flag, State.fld_setFld_same _ _ _ _ _ ⟨by decide, by decide⟩]
    rfl
  · have now : s.ppsLatch.now = s.now := by simp only [State.ppsLatch, State.setFld_now, State.setReg_now]
    exact State.mem_sched (s := (s.ppsLatch.modTod fun t => { t with ppsLast := some s.now }).raiseEv 5) now ppsTimeout .ppsLost

/-- An edge that follows the last one within 500 ms is not taken. -/
theorem exec_todPpsEdge_early {s : State} {t : Nat} (ht : s.tod.ppsLast = some t) (h : s.now < t + 200000000) :
    exec .todPpsEdge s = .next s := by
  have early : s.ppsEarly = true := by
    rw [State.ppsEarly, ht]
    exact decide_eq_true h
  rw [exec_todPpsEdge_eq, early, Bool.not_true, Bool.and_false]
  rfl

/-- Settles O34, from the tick, the commit and the PPS edge. -/
theorem timeOfDay : Obligations.TimeOfDay := by
  unfold Obligations.TimeOfDay
  intro s r v timed a ns second setNs at_ secLo hiFine committed
  have old : a.old = s.old := s.opened_old r.master
  have tod : a.tod = s.tod := s.opened_tod r.master
  have live : a.mode = s.mode := s.mode_opened r.master
  have setNs_a : getBits (a.oldReg .TOD_SET_NS 0 0) 29 0 = setNs := by rw [State.oldReg, old]; rfl
  have commitAt_a : a.commitAt = at_ := by rw [State.commitAt, State.reg, State.opened_regs]; rfl
  have ns_a : a.todNs = ns := by rw [State.todNs, tod]
  refine ⟨fun hl hp => ?_, fun hl => ?_, rfl, fun h => ?_, fun hl hsrc hout => ⟨?_, ?_, ?_⟩, fun h => ?_, fun h => ⟨fun bad => ?_,
    fun hl good ht hw => ?_, fun hl good hw => ?_, ?_⟩, fun hl hp => ⟨?_, ?_, ?_⟩⟩
  · rw [State.todTick_idle hl hp]
    exact s.todAdd_spec
  · obtain ⟨acc, sec⟩ := TodSt.carry_eq s.tod
    let u := (s.modTod TodSt.carry).raiseEv 4
    have done : exec .todRollover s = .next (if s.flag F.TOD_CFG_PPSOUT 0 0 then
        (u.modTod fun t => { t with ppsOut := true }).sched 400000 .ppsOutFall else u) := if_pos hl
    refine ⟨_, done, ?_, ?_, ?_, fun out => ?_⟩
    · refine Eq.trans ?_ acc
      split <;> rfl
    · refine Eq.trans ?_ sec
      split <;> rfl
    · split <;> rfl
    · rw [if_pos out]
      exact ⟨rfl, List.mem_append_right _ (.head _)⟩
  · change execTodAddendWrite r v s = _
    refine regCmd_next_of h ?_
    rfl
  · have hp : s.ppsIn = true := by simp [State.ppsIn, hl, hsrc, hout]
    exact exec_todPpsEdge hp
  · exact fun t => exec_todPpsEdge_early
  · have hp : s.ppsIn = true := by simp [State.ppsIn, hl, hsrc, hout]
    change execPpsLost s = _
    rw [execPpsLost, if_pos hp]
  · change execTodNsRead r s = _
    refine regCmd_next_of h ?_
    simp only [State.todRead, State.modTod, State.todNs, State.todSecLo, State.todHiFine, State.todFine, State.opened_tod]
    rfl
  · change execTodCommitGo r timed s = _
    refine regCmd_next_of h ?_
    rw [State.todCommitWrite_go]
    exact State.todGo_refused (by rw [setNs_a]; exact bad) timed
  · change execTodCommitGo r timed s = _
    refine regCmd_next_of h ?_
    rw [State.todCommitWrite_go, ht]
    exact State.todGo_waits (by rw [setNs_a]; exact good) (by rw [live]; exact hl) (by rw [commitAt_a, ns_a]; exact hw)
  · change execTodCommitGo r timed s = _
    refine regCmd_next_of h ?_
    rw [State.todCommitWrite_go]
    exact (State.todGo_commits (by rw [setNs_a]; exact good) (by rw [live]; exact hl) (by rw [commitAt_a, ns_a]; exact hw)).trans
      (State.todCommit_eq old)
  · change execTodCommitCancel r s = _
    exact regCmd_next_of h rfl
  · change execTodTimedCommit s = _
    rw [execTodTimedCommit, hl, hp]
    exact congrArg _ (State.todCommit_eq rfl)
  · intro u
    have mode : u.mode = s.mode := State.mode_congr (State.reg_setReg_ne _ _ (by decide)) rfl rfl
    have pending : u.flag F.TOD_STAT_PENDING 0 0 = true := by
      have kept : u.fld F.TOD_STAT_PENDING 0 0 = s.fld F.TOD_STAT_PENDING 0 0 := State.fld_setReg_ne _ _ (by decide)
      rw [← hp, State.flag, State.flag, kept]
    have write : s.commitAtWrite v = if u.mode.live && u.flag F.TOD_STAT_PENDING 0 0 && decide (u.commitAt ≠ 0) &&
      decide (u.commitAt ≤ u.todNs) then u.todCommit else u := rfl
    rw [write, mode, hl, pending, State.todCommit_eq (s := s) (t := u) rfl]
    refine if_congr ?_ rfl rfl
    rw [Bool.true_and, Bool.true_and, Bool.and_eq_true, decide_eq_true_iff, decide_eq_true_iff]
    exact Iff.rfl
  · intro acc u hacc
    rw [State.todTick_pending hl hp hacc, State.todCommit_eq (s := s) (t := u) rfl]
    rfl

end Sys2Proof.Machine
end

