-- ==== Sys2Proof/Proofs/TwinCommands.lean ====
section
/-! PROOF. The commands of TW_CTRL: a route table that no image gives carries an enable into TW_STAT. -/

namespace Sys2Proof.Machine

/-- The state after Reset in another mode, tenant 0 with every right on the lower 2 GiB. -/
def State.resetIn (m : Mode) : State :=
  let s : State := { State.reset with sys := { State.reset.sys with mode := m } }
  (s.setReg .PTU_WINt_w_RIGHTS 0 0 0x1F).setReg .PTU_WINt_w_SIZE 0 0 31

/-- Tenant 0 at Monitor on pair 0. -/
def Req.monitor0 : Req := ⟨0, 0, .monitor⟩

/-- A destination beyond the 1,024 of the matrix, whose enable in SM_RENj would be PAIRED, bit 7 of TW_STAT. -/
def strayDest : Nat := 32 * 0xA7FFC1 + 7

theorem strayDest_addr : RegName.SM_RENj.addr (strayDest / 32) 0 = RegName.TW_STAT.addr 0 0 ∧ strayDest % 32 = F.TW_STAT_PAIRED.lo := by
  decide

/-- A standby with a route to that destination, enabled at entry into Ready. -/
def strayStandby : State :=
  let s := State.resetIn .runStandby
  { s with mx := { s.mx with routes := [⟨strayDest, 2, 0, 0, false, true, [0], 0, 0⟩] } }

/-- The state that a command leads to satisfies p. -/
def leadsTo (p : State → Bool) : Out → Bool
  | .next t => p t
  | _ => false

theorem strayStandby_admits : strayStandby.admits Req.monitor0 .write .TW_CTRL 0 0 := by
  simp only [State.admits]
  decide +kernel

/-- UNPAIR enters Ready, whose entry sets the enable of the route: PAIRED reads 1. -/
theorem unpair_strayStandby : leadsTo (fun t => t.flag F.TW_STAT_PAIRED 0 0) (exec (.unpair Req.monitor0) strayStandby) = true := by
  decide +kernel

/-- Refutes O44: the statement speaks of every state, also of one whose route table holds a destination beyond the 1,024 of the
matrix. UNPAIR in Run-Standby enters Ready, which writes the enable of every route to SM_RENj (R230); of destination 32 * 0xA7FFC1 + 7
that is bit 7 of TW_STAT, so PAIRED is 1 afterwards. -/
theorem not_twinCommands : ¬ Obligations.TwinCommands := by
  unfold Obligations.TwinCommands
  intro h
  obtain ⟨-, -, -, -, -, -, -, -, -, standby, -⟩ := h strayStandby Req.monitor0 strayStandby_admits
  obtain ⟨t, ht, -, paired, -⟩ := standby (by decide) (by decide +kernel)
  have stray := unpair_strayStandby
  rw [ht] at stray
  exact absurd (show t.flag F.TW_STAT_PAIRED 0 0 = true from stray) (by rw [paired]; decide)

end Sys2Proof.Machine
end

