-- ==== Sys2Proof/Proofs/Storage.lean ====
section
/-! PROOF. Sparse maps and memory: filtered, joined, and after a list of bytes has been stored. -/

namespace Sys2Proof.Machine

variable {α : Type}

/-! ## Sparse maps -/

/-- A test of keys keeps what stands at a key that satisfies it. -/
theorem SMap.find?_filter (p : Nat → Bool) (m : SMap α) (k : Nat) :
    SMap.find? (m.filter fun e => p e.1) k = if p k then m.find? k else none := by
  induction m with
  | nil => simp [SMap.find?]
  | cons e m ih =>
    obtain ⟨a, v⟩ := e
    rw [List.filter_cons]
    by_cases h : a = k
    · subst h
      cases hp : p a
      · simpa [hp] using ih
      · simp [SMap.find?]
    · cases p a <;> simp [SMap.find?, h, ih]

/-- In joined maps the first comes first. -/
theorem SMap.find?_append (m n : SMap α) (k : Nat) : SMap.find? (m ++ n) k = (m.find? k).or (n.find? k) := by
  induction m with
  | nil => simp [SMap.find?]
  | cons e m ih =>
    obtain ⟨a, v⟩ := e
    by_cases h : a = k <;> simp [SMap.find?, h, ih]

/-- Keys that are all above are not found. -/
theorem SMap.find?_none_of_forall {m : SMap α} {k : Nat} (h : ∀ e ∈ m, e.1 ≠ k) : m.find? k = none := by
  induction m with
  | nil => rfl
  | cons e m ih =>
    obtain ⟨a, v⟩ := e
    have ha : a ≠ k := h (a, v) (.head _)
    simp [SMap.find?, ha, ih fun e he => h e (.tail _ he)]

/-! ## A list of bytes in memory -/

/-- The entries of a list of bytes from `a`. -/
theorem find?_storedBytes (a : Nat) (bs : List Byte) (x : Nat) (hx : a ≤ x) :
    SMap.find? ((bs.zipIdx a).filterMap fun x => if x.1 = memDefault x.2 then none else some (x.2, x.1)) x =
      (bs[x - a]?).bind fun b => if b = memDefault x then none else some b := by
  induction bs generalizing a with
  | nil => simp [SMap.find?]
  | cons b bs ih =>
    rw [List.zipIdx_cons, List.filterMap_cons]
    by_cases h : x = a
    · subst h
      have above : SMap.find? ((bs.zipIdx (x + 1)).filterMap fun x => if x.1 = memDefault x.2 then none else some (x.2, x.1)) x = none :=
        SMap.find?_none_of_forall fun e he => by
          obtain ⟨-, keys, -⟩ := setBytes_run (x + 1) bs
          have := keys e he
          omega
      by_cases hb : b = memDefault x
      · simp [hb, above]
      · simp [hb, SMap.find?]
    · have hlt : a + 1 ≤ x := by omega
      have shift : (b :: bs)[x - a]? = bs[x - (a + 1)]? := by
        rw [show x - a = (x - (a + 1)) + 1 by omega, List.getElem?_cons_succ]
      rw [shift, ← ih (a + 1) hlt]
      by_cases hb : b = memDefault a
      · simp [hb]
      · simp [hb, SMap.find?, Ne.symm h]

/-- A byte after a list of bytes has been stored from `a`. -/
theorem State.byte_setBytes (s : State) (a : Nat) (bs : List Byte) (x : Nat) :
    (s.setBytes a bs).byte x = if a ≤ x then (bs[x - a]?).getD (s.byte x) else s.byte x := by
  have below := SMap.find?_filter (fun k => decide (k < a)) s.mem x
  have above := SMap.find?_filter (fun k => decide (a + bs.length ≤ k)) s.mem x
  simp only [State.byte, SMap.get, State.setBytes, SMap.find?_append, below, above]
  by_cases h : a ≤ x
  · rw [find?_storedBytes a bs x h, if_pos h]
    by_cases hl : x < a + bs.length
    · have hi : x - a < bs.length := by omega
      by_cases hd : bs[x - a] = memDefault x
      · simp [List.getElem?_eq_getElem hi, hd, Nat.not_lt.2 h, Nat.not_le.2 hl]
      · simp [List.getElem?_eq_getElem hi, hd, Nat.not_lt.2 h]
    · have hi : bs[x - a]? = none := List.getElem?_eq_none (by omega)
      simp [hi, Nat.not_lt.2 h, Nat.not_lt.1 hl]
  · have hlt : x < a := by omega
    have none : SMap.find? ((bs.zipIdx a).filterMap fun x => if x.1 = memDefault x.2 then none else some (x.2, x.1)) x = none :=
      SMap.find?_none_of_forall fun e he => by
        obtain ⟨-, keys, -⟩ := setBytes_run a bs
        have := keys e he
        omega
    simp [none, hlt, h, Nat.not_le.2 (show x < a + bs.length by omega)]

/-- Bytes outside the list are as they were. -/
theorem State.byte_setBytes_ne (s : State) {a x : Nat} {bs : List Byte} (h : x < a ∨ a + bs.length ≤ x) :
    (s.setBytes a bs).byte x = s.byte x := by
  rw [State.byte_setBytes]
  split
  · rw [List.getElem?_eq_none (by omega)]
    rfl
  · rfl

end Sys2Proof.Machine
end

