-- ==== Sys2Proof/Proofs/FlashEnds.lean ====
section
/-! PROOF. Ends of flash commands, the protection level, margin scrub and refresh. -/

namespace Sys2Proof.Machine

variable {s : State} {b : FBank}

/-! ## Banks -/

@[simp] theorem State.bank_modFB (s : State) (b : FBank) (f : FBankSt → FBankSt) : (s.modFB b f).fl.banks[b] = f s.fl.banks[b] :=
  vset_getElem_same _ _ _

/-- A bank that works on nothing, has no sector in refresh and none queued. -/
def State.flIdle (s : State) (b : FBank) : Prop :=
  s.fl.lower = none ∧ s.fl.banks[b].cmd = none ∧ s.fl.banks[b].refr = none ∧ s.fl.banks[b].queue = []

theorem State.flRefresh_of_idle (h : s.flIdle b) : s.flRefresh b = s := by
  obtain ⟨lower, cmd, refr, queue⟩ := h
  have works : s.flWorks b = false := by rw [State.flWorks, lower, cmd]; rfl
  simp only [State.flRefresh, works, refr, queue, Bool.false_eq_true, if_false]

/-- A refresh that is under way goes on: the calendar and the count of free values change alone. -/
theorem State.flRefresh_going {k : Nat × Nat} (h : s.fl.banks[b].refr = some k) : ∃ c n, s.flRefresh b = { s with cal := c, fresh := n } := by
  simp only [State.flRefresh, h]
  split
  · exact ⟨s.cal, s.fresh, rfl⟩
  · split
    · exact ⟨s.cal, s.fresh, rfl⟩
    · exact ⟨_, _, rfl⟩

/-! ## The end of a command -/

/-- The operation code of a command. -/
def FlashCmd.op : FlashCmd → Nat
  | .program _ _ => 1
  | .erase _ => 2

/-- The bank has ended its command. -/
def State.flEnded (s : State) (b : FBank) (c : FlashCmd) : State :=
  (s.unschedAll fun i => match i with
    | .flashCommandDone b' _ => decide (b' = b)
    | _ => false).modFB b fun x => { x with cmd := none, ended := some (c.op, s.now) }

/-- What a command that verifies leaves in the array. -/
def State.flVerified (s : State) (b : FBank) (c : FlashCmd) : State :=
  match c with
  | .program a d => (s.setBytes a d).modFB b fun x => { x with jrow := x.jrow.filter fun r => decide (r ≠ JRec.progStart a) }
  | .erase k => s.flErased b k

/-- What a command that does not verify leaves in the array: free bytes (log entry 43). -/
def State.flSpoiled (s : State) (b : FBank) (c : FlashCmd) : State :=
  match c with
  | .program a _ => s.fillMem a 32 (Config.flashUnverified s.fresh)
  | .erase k => s.fillMem (flBase b k) 0x10000 (Config.flashUnverified s.fresh)

/-- What follows the end of a command: refresh goes on, and what waited for the bank. -/
def State.flAfter (s : State) (b : FBank) : State :=
  let s := s.flRefresh b
  if s.flashBusy then s
  else
    let s := if s.sys.retReq then s.emit .retentionEntry else s
    match s.mode, s.sys.faultReq with
    | .maintenance, some (sub, p) => s.enterSafeHold 1 sub p
    | _, _ => s

theorem State.flDone_verified {c : FlashCmd} (h : s.fl.banks[b].cmd = some c) :
    s.flDone b true = ((((s.flEnded b c).flVerified b c).raiseFld F.FL_STAT_DONE 0 0 1).evcRaise 0x198).flAfter b := by
  rw [State.flDone, h]
  cases c <;> rfl

theorem State.flDone_spoiled {c : FlashCmd} (h : s.fl.banks[b].cmd = some c) :
    s.flDone b false =
      ((((((s.flEnded b c).flSpoiled b c).draw).setFld F.FL_STAT_DONE 0 0 0).flErr 0x07).evcRaise 0x199).flAfter b := by
  rw [State.flDone, h]
  cases c <;> rfl

/-- In Maintenance with nothing waiting nothing follows. -/
theorem State.flAfter_quiet (h : s.flIdle b) (hr : s.sys.retReq = false) (hf : s.sys.faultReq = none) : s.flAfter b = s := by
  unfold State.flAfter
  rw [State.flRefresh_of_idle h]
  simp only [hr, hf, Bool.false_eq_true, if_false]
  split
  · rfl
  · cases s.mode <;> rfl

/-- What the array's work leaves as it was: the system controller, time, the calendar, and of the bank its command and refresh. -/
structure State.FlKeeps (s t : State) (b : FBank) : Prop where
  sys : t.sys = s.sys
  cal : t.cal = s.cal
  now : t.now = s.now
  lower : t.fl.lower = s.fl.lower
  cmd : t.fl.banks[b].cmd = s.fl.banks[b].cmd
  refr : t.fl.banks[b].refr = s.fl.banks[b].refr
  queue : t.fl.banks[b].queue = s.fl.banks[b].queue
  ended : t.fl.banks[b].ended = s.fl.banks[b].ended

theorem State.FlKeeps.modFB {t : State} (h : s.FlKeeps t b) (f : FBankSt → FBankSt) (cmd : ∀ x, (f x).cmd = x.cmd)
    (refr : ∀ x, (f x).refr = x.refr) (queue : ∀ x, (f x).queue = x.queue) (ended : ∀ x, (f x).ended = x.ended) :
    s.FlKeeps (t.modFB b f) b where
  sys := h.sys
  cal := h.cal
  now := h.now
  lower := h.lower
  cmd := by rw [State.bank_modFB, cmd, h.cmd]
  refr := by rw [State.bank_modFB, refr, h.refr]
  queue := by rw [State.bank_modFB, queue, h.queue]
  ended := by rw [State.bank_modFB, ended, h.ended]

theorem State.flVerified_keeps (s : State) (b : FBank) (c : FlashCmd) : s.FlKeeps (s.flVerified b c) b := by
  cases c with
  | program a d =>
    have stored : s.FlKeeps (s.setBytes a d) b := ⟨rfl, rfl, rfl, rfl, rfl, rfl, rfl, rfl⟩
    exact stored.modFB _ (fun _ => rfl) (fun _ => rfl) (fun _ => rfl) (fun _ => rfl)
  | erase k =>
    have cleared : s.FlKeeps { s.clearMem (flBase b k) (flBase b k + 0x10000) with
        upset := s.upset.filter fun e => !(decide (flBase b k ≤ e.1) && decide (e.1 < flBase b k + 0x10000)) } b :=
      ⟨rfl, rfl, rfl, rfl, rfl, rfl, rfl, rfl⟩
    have counted := cleared.modFB (fun x =>
      { x with jrow := x.jrow.filter fun r => !r.ofSector b k
               progd := x.progd.filter fun e => decide (e.1 / 2048 ≠ k)
               wear := x.wear.put k (x.wear.get k 0 + 1) 0 }) (fun _ => rfl) (fun _ => rfl) (fun _ => rfl) (fun _ => rfl)
    exact ⟨counted.sys, counted.cal, counted.now, counted.lower, counted.cmd, counted.refr, counted.queue, counted.ended⟩

theorem State.flSpoiled_keeps (s : State) (b : FBank) (c : FlashCmd) : s.FlKeeps (s.flSpoiled b c) b := by
  cases c <;> constructor <;> rfl

/-! ### Bytes -/

theorem State.byte_fillMem (s : State) (lo n : Nat) (f : Nat → Byte) {x : Nat} (h : x < lo ∨ lo + n ≤ x) :
    (s.fillMem lo n f).byte x = s.byte x := State.byte_setBytes_ne s (by simpa using h)

/-- The bytes of an erased sector. -/
theorem State.byte_flErased (s : State) (b : FBank) (k x : Nat) :
    (s.flErased b k).byte x = if flBase b k ≤ x ∧ x < flBase b k + 0x10000 then memDefault x else s.byte x := State.byte_clearMem _ _ _ _

theorem State.flIntr_setIntr (s : State) (b : FBank) (k : Nat) : (s.setIntr b k false).flIntr b k = false := by
  have hb : k % 32 < 32 := Nat.mod_lt _ (by decide)
  rw [State.flIntr, State.setIntr, State.reg_setReg_same, setBits_getLsbD _ _ _ _ _ hb hb, if_pos ⟨le_rfl, le_rfl⟩]
  simp

/-- A sector of the flash lies in flash. -/
theorem flBase_flash (b : FBank) {k : Nat} (h : k < 128) : 0x10000000 ≤ flBase b k ∧ flBase b k + 0x10000 ≤ 0x12000000 := by
  have := b.isLt
  unfold flBase
  omega

/-- What a command that ends does to memory: outside its bytes nothing. -/
theorem State.byte_flVerified_ne (s : State) (b : FBank) {c : FlashCmd} {x : Nat}
    (h : match c with
      | .program a d => x < a ∨ a + d.length ≤ x
      | .erase k => x < flBase b k ∨ flBase b k + 0x10000 ≤ x) : (s.flVerified b c).byte x = s.byte x := by
  cases c with
  | program a d => exact State.byte_setBytes_ne s h
  | erase k => exact (s.byte_flErased b k x).trans (if_neg (by simp only at h; omega))

/-! ### The obligation's clause -/

/-- A bank whose command has ended is idle where nothing else waited in it. -/
theorem State.FlKeeps.idle {t : State} {c : FlashCmd} (h : (s.flEnded b c).FlKeeps t b) (lower : s.fl.lower = none)
    (refr : s.fl.banks[b].refr = none) (queue : s.fl.banks[b].queue = []) : t.flIdle b :=
  ⟨h.lower.trans lower, h.cmd.trans (congrArg _ (State.bank_modFB _ _ _)), h.refr.trans ((congrArg _ (State.bank_modFB _ _ _)).trans refr),
    h.queue.trans ((congrArg _ (State.bank_modFB _ _ _)).trans queue)⟩

theorem State.FlKeeps.ended_now {t : State} {c : FlashCmd} (h : (s.flEnded b c).FlKeeps t b) :
    (t.fl.banks[b].ended.any fun e => e.2 = s.now) = true := by
  rw [h.ended]
  simp only [State.flEnded, State.bank_modFB, Option.any_some, decide_true]

/-- The command verifies. -/
theorem exec_flashCommandDone_verified {c : FlashCmd} (lower : s.fl.lower = none) (hc : s.fl.banks[b].cmd = some c)
    (refr : s.fl.banks[b].refr = none) (queue : s.fl.banks[b].queue = []) (hr : s.sys.retReq = false) (hf : s.sys.faultReq = none) :
    ∃ t, exec (.flashCommandDone b true) s = .next t ∧ t.fl.banks[b].cmd = none ∧ (t.fl.banks[b].ended.any fun e => e.2 = s.now) = true ∧
      t.flag F.FL_STAT_DONE 0 0 = true ∧ (s.now + 1, Instr.evcEvent 0x198) ∈ t.cal ∧
      (∀ x, t.byte x = ((s.flEnded b c).flVerified b c).byte x) ∧
      ∀ k, c = .erase k → k < 128 → t.flIntr b k = false := by
  have keeps := (s.flEnded b c).flVerified_keeps b c
  let u := (s.flEnded b c).flVerified b c
  have idle : ((u.raiseFld F.FL_STAT_DONE 0 0 1).evcRaise 0x198).flIdle b := keeps.idle lower refr queue
  have done : exec (.flashCommandDone b true) s = .next ((u.raiseFld F.FL_STAT_DONE 0 0 1).evcRaise 0x198) :=
    congrArg Host.Outcome.next ((State.flDone_verified hc).trans (State.flAfter_quiet idle
      ((congrArg SysSt.retReq keeps.sys).trans hr) ((congrArg SysSt.faultReq keeps.sys).trans hf)))
  refine ⟨_, done, idle.2.1, keeps.ended_now, ?_, ?_, fun x => rfl, fun k hk hlt => ?_⟩
  · have raised : (u.raiseFld F.FL_STAT_DONE 0 0 1).fld F.FL_STAT_DONE 0 0 = 1 :=
      State.fld_setFld_same _ _ _ _ _ ⟨by decide, by decide⟩
    change (State.fld (u.raiseFld F.FL_STAT_DONE 0 0 1) F.FL_STAT_DONE 0 0 != 0) = true
    rw [raised]
    rfl
  · exact List.mem_append_right _ (List.mem_singleton.2 (congrArg (fun n => (n + 1, Instr.evcEvent 0x198)) keeps.now.symm))
  · have apart : RegName.FL_INTERRUPTEDj.addr (4 * b.val + k / 32) 0 ≠ RegName.FL_STAT.addr 0 0 := by
      have := b.isLt
      simp [RegName.addr, RegName.base, RegName.dims]
      omega
    have kept : (u.raiseFld F.FL_STAT_DONE 0 0 1).reg .FL_INTERRUPTEDj (4 * b.val + k / 32) 0 = u.reg .FL_INTERRUPTEDj (4 * b.val + k / 32) 0 :=
      State.reg_setReg_ne _ _ apart
    change ((u.raiseFld F.FL_STAT_DONE 0 0 1).reg .FL_INTERRUPTEDj (4 * b.val + k / 32) 0).getLsbD (k % 32) = false
    rw [kept]
    subst hk
    exact State.flIntr_setIntr _ b k

/-- The command does not verify. -/
theorem exec_flashCommandDone_spoiled {c : FlashCmd} (lower : s.fl.lower = none) (hc : s.fl.banks[b].cmd = some c)
    (refr : s.fl.banks[b].refr = none) (queue : s.fl.banks[b].queue = []) (hr : s.sys.retReq = false) (hf : s.sys.faultReq = none) :
    ∃ t, exec (.flashCommandDone b false) s = .next t ∧ t.fl.banks[b].cmd = none ∧
      (t.fl.banks[b].ended.any fun e => e.2 = s.now) = true ∧ t.flag F.FL_STAT_DONE 0 0 = false ∧ t.fld F.FL_STAT_ERR 0 0 = 7 ∧
      (s.now + 1, Instr.evcEvent 0x199) ∈ t.cal ∧ ∀ x, t.byte x = ((s.flEnded b c).flSpoiled b c).byte x := by
  have keeps := (s.flEnded b c).flSpoiled_keeps b c
  let u := (((s.flEnded b c).flSpoiled b c).draw).setFld F.FL_STAT_DONE 0 0 0
  have idle : ((u.flErr 7).evcRaise 0x199).flIdle b := keeps.idle lower refr queue
  have done : exec (.flashCommandDone b false) s = .next ((u.flErr 7).evcRaise 0x199) :=
    congrArg Host.Outcome.next ((State.flDone_spoiled hc).trans (State.flAfter_quiet idle
      ((congrArg SysSt.retReq keeps.sys).trans hr) ((congrArg SysSt.faultReq keeps.sys).trans hf)))
  have verify : (u.flErr 7).fld F.FL_STAT_DONE 0 0 = 0 := by
    rw [State.flErr, State.fld_raiseFld_apart (f := F.FL_STAT_ERR) (g := F.FL_STAT_DONE) _ _ rfl (by decide) (by decide) (by decide)]
    exact State.fld_setFld_same _ _ _ _ _ ⟨by decide, by decide⟩
  have code : (u.flErr 7).fld F.FL_STAT_ERR 0 0 = 7 := by
    rw [State.flErr, State.fld_raiseFld_same _ _ _ _ _ ⟨by decide, by decide⟩]
    rfl
  refine ⟨_, done, idle.2.1, keeps.ended_now, ?_, code, ?_, fun x => rfl⟩
  · change (State.fld (u.flErr 7) F.FL_STAT_DONE 0 0 != 0) = false
    rw [verify]
    rfl
  · exact List.mem_append_right _ (List.mem_singleton.2 (congrArg (fun n => (n + 1, Instr.evcEvent 0x199)) keeps.now.symm))

/-! ## Margin scrub -/

/-- A line of a sector that is not interrupted, before the last of its bank and without upset, is read at margin (R320). -/
theorem State.marginLine_eq {l : Nat} (hs : s.flServices = true) (hw : s.flWorks b = false) (hl : s.fl.banks[b].mpos = l) (hlt : l < 262143)
    (hi : s.flIntr b (l / 2048 % 128) = false) (hu : SMap.find? s.upset (flBase b 0 + l * 32) = none) (differs : Bool) :
    s.marginLine b differs =
      ((if differs then s.flQueue b (l / 2048) else s).modFB b fun x => { x with mpos := l + 1 }).flRefresh b := by
  have next : s.nextLine b s.fl.banks[b].mpos = some (l, false) := by
    simp only [State.nextLine, hl, hi, Bool.not_false, if_true]
  have line : (flBase b 0 + l * 32) / 32 * 32 = flBase b 0 + l * 32 := by unfold flBase; omega
  have touch : s.flTouch (flBase b 0 + l * 32) = (false, s) := by
    simp only [State.flTouch, line, hu]
  have inside : ¬ l + 1 = 262144 := by omega
  have step : (l + 1) % 262144 = l + 1 := Nat.mod_eq_of_lt (by omega)
  simp only [State.marginLine, hs, hw, next, touch, Bool.not_false, Bool.and_self, if_true, Bool.false_eq_true, if_false, inside, step]

/-! ## Refresh -/

/-- Keys that are shifted down. -/
theorem SMap.find?_shift {α : Type} (lo i : Nat) : ∀ m : SMap α, (∀ e ∈ m, lo ≤ e.1) →
    SMap.find? (m.map fun e => (e.1 - lo, e.2)) i = m.find? (lo + i)
  | [], _ => rfl
  | (a, v) :: m, h => by
    have ha : lo ≤ a := h (a, v) (.head _)
    have same : a - lo = i ↔ a = lo + i := by omega
    simp only [List.map_cons, SMap.find?, same, SMap.find?_shift lo i m fun e he => h e (.tail _ he)]

/-- The copy of a sector holds its bytes. -/
theorem State.flCopy_get (s : State) (b : FBank) {k i : Nat} (hk : k < 128) (hi : i < 0x10000) :
    (s.flCopy (flBase b k)).get i 0xFF = s.byte (flBase b k + i) := by
  obtain ⟨above, below⟩ := flBase_flash b hk
  have inside := SMap.find?_filter (fun a => decide (flBase b k ≤ a) && decide (a < flBase b k + 0x10000)) s.mem (flBase b k + i)
  have here : (decide (flBase b k ≤ flBase b k + i) && decide (flBase b k + i < flBase b k + 0x10000)) = true := by simp [hi]
  rw [here, if_pos rfl] at inside
  have erased : memDefault (flBase b k + i) = 0xFF := if_pos ⟨by omega, by omega⟩
  rw [State.flCopy, SMap.get, SMap.find?_shift, inside, State.byte, SMap.get, erased]
  intro e he
  have := (List.mem_filter.1 he).2
  simp only [Bool.and_eq_true, decide_eq_true_eq] at this
  exact this.1

/-- A sector none of whose lines has an upset. -/
def State.flClean (s : State) (lo : Nat) : Prop := ∀ u, lo ≤ u → u < lo + 0x10000 → SMap.find? s.upset u = none

/-- A copy of a clean sector corrects nothing. -/
theorem State.flCopyRead_of_clean {lo : Nat} (h : s.flClean lo) : s.flCopyRead lo = s := by
  have listed : ∀ (m : SMap Bool) (e : Nat × Bool), e ∈ m → m.find? e.1 ≠ none := by
    intro m e he
    induction m with
    | nil => cases he
    | cons x m ih =>
      obtain ⟨a, v⟩ := x
      by_cases ha : a = e.1
      · simp [SMap.find?, ha]
      · have : e ∈ m := (List.mem_cons.1 he).resolve_left fun h => ha (by rw [h])
        simpa [SMap.find?, ha] using ih this
  have none : s.upset.filter (fun e => decide (lo ≤ e.1) && decide (e.1 < lo + 0x10000)) = [] :=
    List.filter_eq_nil_iff.2 fun e he hin => by
      simp only [Bool.and_eq_true, decide_eq_true_eq] at hin
      exact listed _ e he (h e.1 hin.1 hin.2)
  rw [State.flCopyRead, none]
  rfl

/-- What a refresh step leaves in the bank. -/
def FBankSt.refreshed (x : FBankSt) (k : Nat) (c : SMap Byte) : Nat → FBankSt
  | 1 => { x with spare := c }
  | 2 => { x with own := c, jrow := .remap k :: x.jrow }
  | 3 => { x with own := [] }
  | 4 => { x with spare := c, own := c }
  | _ => { x with own := [], jrow := x.jrow.filter fun r => decide (r ≠ .remap k), wear := x.wear.put k (x.wear.get k 0 + 1) 0,
                  spareWear := x.spareWear + 1, ceSec := x.ceSec.put k 0 0 }

theorem FBankSt.refreshed_last (x : FBankSt) (k : Nat) (c : SMap Byte) : x.refreshed k c 5 =
    { x with own := [], jrow := x.jrow.filter fun r => decide (r ≠ .remap k), wear := x.wear.put k (x.wear.get k 0 + 1) 0,
             spareWear := x.spareWear + 1, ceSec := x.ceSec.put k 0 0 } := rfl

/-- A refresh step of a clean sector changes the bank, and upsets of the sector. -/
theorem State.flStep_eq {k : Nat} (h : s.flClean (flBase b k)) (n : Nat) : ∃ u,
    s.flStep b k n = { s with upset := u }.modFB b fun x => x.refreshed k (s.flCopy (flBase b k)) n := by
  have read := State.flCopyRead_of_clean h
  match n with
  | 1 => exact ⟨s.upset, by simp only [State.flStep, read]; rfl⟩
  | 2 => exact ⟨_, rfl⟩
  | 3 => exact ⟨s.upset, rfl⟩
  | 4 => exact ⟨s.upset, by simp only [State.flStep, read]; rfl⟩
  | 0 | n + 5 => exact ⟨_, rfl⟩

/-- A refresh step but the last completes (R321). -/
theorem exec_refreshStep_next {k n : Nat} (hs : s.flServices = true) (hw : s.flWorks b = false) (hr : s.fl.banks[b].refr = some (k, n))
    (hn : n < 5) (hc : s.flClean (flBase b k)) : ∃ t, exec (.refreshStep b) s = .next t ∧ t.mem = s.mem ∧
      t.fl.banks[b] = { s.fl.banks[b].refreshed k (s.flCopy (flBase b k)) n with refr := some (k, n + 1) } := by
  obtain ⟨u, step⟩ := State.flStep_eq hc n
  let w := (((s.flStep b k n).modFB b fun x => { x with refr := some (k, n + 1) }).unsched (.refreshStep b))
  have bank : w.fl.banks[b] = { s.fl.banks[b].refreshed k (s.flCopy (flBase b k)) n with refr := some (k, n + 1) } := by
    refine (State.bank_modFB _ _ _).trans ?_
    rw [step, State.bank_modFB]
  have mem : w.mem = s.mem := by
    change (s.flStep b k n).mem = s.mem
    rw [step]
    rfl
  obtain ⟨c, f, going⟩ := State.flRefresh_going (s := w) (b := b) (k := (k, n + 1)) (by rw [bank])
  have notLast : decide (5 ≤ n) = false := decide_eq_false (by omega)
  have done : exec (.refreshStep b) s = .next (w.flRefresh b) := by
    change execRefreshStep b s = _
    simp only [execRefreshStep, hs, hw, hr, notLast, Bool.not_false, Bool.and_self, if_true, Bool.false_eq_true, if_false]
    rfl
  refine ⟨_, done, ?_, ?_⟩
  · rw [going]
    exact mem
  · rw [going]
    exact bank

/-- The last refresh step completes: the sector is done, its refresh counted (R321, R322). -/
theorem exec_refreshStep_last {k : Nat} (hs : s.flServices = true) (hw : s.flWorks b = false) (hr : s.fl.banks[b].refr = some (k, 5))
    (hq : s.fl.banks[b].queue = []) (hc : s.flClean (flBase b k)) : ∃ t, exec (.refreshStep b) s = .next t ∧ t.mem = s.mem ∧
      t.fl.banks[b] = { s.fl.banks[b].refreshed k (s.flCopy (flBase b k)) 5 with refr := none } ∧
      t.fld F.FL_REFRESH_STAT_COUNT 0 0 = (s.fld F.FL_REFRESH_STAT_COUNT 0 0 + 1) % 65536 := by
  obtain ⟨u, step⟩ := State.flStep_eq hc 5
  let w := (((s.flStep b k 5).modFB b fun x => { x with refr := none }).unsched (.refreshStep b))
  have bank : w.fl.banks[b] = { s.fl.banks[b].refreshed k (s.flCopy (flBase b k)) 5 with refr := none } := by
    refine (State.bank_modFB _ _ _).trans ?_
    rw [step, State.bank_modFB]
  have kept : w.mem = s.mem ∧ w.regs = s.regs ∧ w.fl.lower = s.fl.lower := by
    refine ⟨?_, ?_, ?_⟩
    · change (s.flStep b k 5).mem = s.mem
      rw [step]; rfl
    · change (s.flStep b k 5).regs = s.regs
      rw [step]; rfl
    · change (s.flStep b k 5).fl.lower = s.fl.lower
      rw [step]; rfl
  obtain ⟨mem, regs, lower⟩ := kept
  have free : s.fl.banks[b].cmd = none ∧ s.fl.lower = none := by
    simpa only [State.flWorks, Bool.or_eq_false_iff, Option.isSome_eq_false_iff, Option.isNone_iff_eq_none] using hw
  have idle : (w.count F.FL_REFRESH_STAT_COUNT 0 0).flIdle b :=
    ⟨lower.trans free.2, (congrArg FBankSt.cmd bank).trans free.1, congrArg FBankSt.refr bank, (congrArg FBankSt.queue bank).trans hq⟩
  have done : exec (.refreshStep b) s = .next (w.count F.FL_REFRESH_STAT_COUNT 0 0) := by
    change execRefreshStep b s = _
    rw [← State.flRefresh_of_idle idle]
    simp only [execRefreshStep, hs, hw, hr, Bool.not_false, Bool.and_self, if_true, le_refl, decide_true]
    rfl
  refine ⟨_, done, mem, bank, ?_⟩
  rw [State.fld_count_same _ _ _ _ ⟨by decide, by decide⟩, State.fld_of_regs regs]
  rfl

/-! ## Protection level -/

/-- A request for a protection level by Monitor that nothing refuses (R323). -/
theorem State.plReq_granted {r : Req} {level : Nat} (hkey : s.fl.key = true) (hm : s.mode = .maintenance) (hd : r.isDebug = false)
    (hp : r.level = .monitor) (hl : level ≠ 3) (hw : s.windowOk r .write (s.reg .FL_ADDR 0 0).toNat 1 = true)
    (hb : ∀ x : FBank, s.flBusy x = false) :
    s.plReq r level = if s.fld F.FL_PL_LEVEL 0 0 ≤ level then { s.flNoKey with fl := { s.flNoKey.fl with nextPl := level } }
      else s.flNoKey.plErase level := by
  have busy : (List.finRange 4).any s.flNoKey.flBusy = false := by
    rw [List.any_eq_false]
    intro x _
    rw [show s.flNoKey.flBusy x = s.flBusy x from rfl, hb x]
    simp
  have window : s.flNoKey.windowOk r .write (s.flNoKey.reg .FL_ADDR 0 0).toNat 1 = true := hw
  have mode : s.flNoKey.mode = .maintenance := hm
  have level' : s.flNoKey.fld F.FL_PL_LEVEL 0 0 = s.fld F.FL_PL_LEVEL 0 0 := rfl
  simp [State.plReq, hkey, hd, hp, hl, busy, window, mode, level']

/-- The register at an address outlasts Reset. -/
def outlasts (a : Nat) : Bool :=
  match regAt a with
  | some (n, _, _) => lasting n
  | none => false

/-- What Reset leaves in the registers: those that outlast it, the requested level among them. -/
theorem State.toReset_regs (s : State) :
    s.toReset.regs = (({ s with regs := (s.setFld F.FL_PL_LEVEL 0 0 s.fl.nextPl).regs.filter fun e => outlasts e.1 } : State).setFld
      F.TW_STAT_LINK 0 0 0).regs := rfl

/-- The requested protection level takes effect at Reset (R323). -/
theorem State.toReset_level (s : State) : s.toReset.fld F.FL_PL_LEVEL 0 0 = s.fl.nextPl % 4 := by
  rw [State.fld_of_regs s.toReset_regs, State.fld_setFld_ne _ _ (by decide)]
  have lasts : outlasts (RegName.FL_PL.addr 0 0) = true := by decide
  have kept : ({ s with regs := (s.setFld F.FL_PL_LEVEL 0 0 s.fl.nextPl).regs.filter fun e => outlasts e.1 } : State).reg .FL_PL 0 0 =
      (s.setFld F.FL_PL_LEVEL 0 0 s.fl.nextPl).reg .FL_PL 0 0 := by
    rw [State.reg, SMap.get, SMap.find?_filter outlasts, lasts]
    rfl
  exact (congrArg (getBits · 1 0) kept).trans (State.fld_setFld_same s F.FL_PL_LEVEL 0 0 _ ⟨by decide, by decide⟩)

/-! ## Settled -/

/-- Settles O25, from the end of a command, the request for a level, and the steps of a refresh on a clean sector. -/
theorem flashEndsAndServices : Obligations.FlashEndsAndServices := by
  unfold Obligations.FlashEndsAndServices
  refine ⟨fun s b c ok hm hr hf hl hc hrefr hq hprog herase _ => ?_, fun s r level b differs k n l => ?_⟩
  · cases ok with
    | true =>
      obtain ⟨t, done, cmd, ended, flag, event, byte, intr⟩ := exec_flashCommandDone_verified hl hc hrefr hq hr hf
      refine ⟨t, done, cmd, ended, fun _ => ⟨flag, event⟩, fun h => absurd h (by decide), fun a d h => ⟨fun _ i hi => ?_, fun x hx => ?_⟩,
        fun k h => ⟨fun _ => ⟨fun i hi => ?_, intr k h (herase k h)⟩, fun x hx => ?_⟩⟩
      · subst h
        obtain ⟨len, -⟩ := hprog a d rfl
        have hd : i < d.length := by omega
        have : ((s.flEnded b (.program a d)).setBytes a d).byte (a + i) = d[i] := by
          rw [State.byte_setBytes, if_pos (by omega), Nat.add_sub_cancel_left, List.getElem?_eq_getElem hd]
          rfl
        rw [byte, List.getElem?_eq_getElem hd]
        exact congrArg some this
      · subst h
        obtain ⟨len, -⟩ := hprog a d rfl
        rw [byte]
        exact State.byte_flVerified_ne _ _ (by simp only; omega)
      · subst h
        obtain ⟨above, below⟩ := flBase_flash b (herase k rfl)
        rw [byte]
        exact (State.byte_flErased _ _ _ _).trans ((if_pos ⟨by omega, by omega⟩).trans (if_pos ⟨by omega, by omega⟩))
      · subst h
        rw [byte]
        exact State.byte_flVerified_ne _ _ hx
    | false =>
      obtain ⟨t, done, cmd, ended, flag, code, event, byte⟩ := exec_flashCommandDone_spoiled hl hc hrefr hq hr hf
      refine ⟨t, done, cmd, ended, fun h => absurd h (by decide), fun _ => ⟨flag, code, event⟩,
        fun a d h => ⟨fun h => absurd h (by decide), fun x hx => ?_⟩, fun k h => ⟨fun h => absurd h (by decide), fun x hx => ?_⟩⟩
      · subst h
        rw [byte]
        exact State.byte_fillMem _ _ _ _ hx
      · subst h
        rw [byte]
        exact State.byte_fillMem _ _ _ _ hx
  · intro a unkey x clean holds
    refine ⟨fun h hkey hm hd hp hl hw hb => ?_, fun hlower => ?_, fun h1 h2 hworks => ?_⟩
    · have fl : a.fl = s.fl := s.opened_fl r.master
      have fld : a.fld F.FL_PL_LEVEL 0 0 = s.fld F.FL_PL_LEVEL 0 0 := State.fld_of_regs (s.opened_regs r.master) _ _ _
      have window : a.windowOk r .write (a.reg .FL_ADDR 0 0).toNat 1 = true :=
        (State.opened_congr (fun s => s.windowOk r .write (s.reg .FL_ADDR 0 0).toNat 1) (fun _ _ _ _ => rfl) s r.master).trans hw
      have busy : ∀ x : FBank, a.flBusy x = false := fun x =>
        (State.opened_congr (fun s => s.flBusy x) (fun _ _ _ _ => rfl) s r.master).trans (hb x)
      have other : level.toNat ≠ 3 := fun e => hl (BitVec.eq_of_toNat_eq e)
      have granted := State.plReq_granted (by rw [fl]; exact hkey) ((s.mode_opened r.master).trans hm) hd hp other window busy
      rw [fld] at granted
      have done : exec (.flPlReq r level) s = .next (a.plReq r level.toNat) := by
        change execFlPlReq r level s = _
        exact regCmd_next_of h rfl
      refine ⟨fun hle => ?_, fun hlt => ?_⟩
      · rw [done, granted, if_pos hle]
        simp only [State.flNoKey, State.opened_fl]
        rfl
      · rw [done, granted, if_neg (Nat.not_le.2 hlt)]
        rfl
    · let u : State := { s with fl := { s.fl with banks := s.fl.banks.map FBankSt.bulkErased, nextPl := level.toNat, lower := none }
                                sys := { s.sys with jrnl := [] } }
      have done : exec .plLowerDone s = .next { u.toReset with mem := [], upset := [] } := by
        change execPlLowerDone s = _
        rw [execPlLowerDone, hlower]
      have lvl : u.toReset.fld F.FL_PL_LEVEL 0 0 = level.toNat := u.toReset_level.trans (Nat.mod_eq_of_lt level.isLt)
      exact ⟨_, done, rfl, rfl, lvl, rfl, rfl⟩
    · have services : s.flServices = true := by simp [State.flServices, h1, h2]
      refine ⟨fun hl hlt hi hu => congrArg _ (State.marginLine_eq services hworks hl hlt hi hu differs), fun hk hclean =>
        ⟨fun hr h1 hn => ?_, fun hr hq => ?_⟩⟩
      · obtain ⟨t, done, mem, bank⟩ := exec_refreshStep_next services hworks hr hn hclean
        have copy : ∀ c, c = s.flCopy (flBase b k) → holds t c := fun c h i hi =>
          ⟨by rw [h, State.flCopy_get s b hk hi], State.byte_of_mem mem _⟩
        refine ⟨t, done, by rw [bank], mem, fun h => ?_, fun h => ⟨?_, ?_⟩, fun h => ?_, fun h => ?_⟩
        · exact copy _ (by rw [bank, h]; rfl)
        · rw [bank, h]; rfl
        · exact copy _ (by rw [bank, h]; rfl)
        · rw [bank, h]; rfl
        · exact copy _ (by rw [bank, h]; rfl)
      · obtain ⟨t, done, mem, bank, count⟩ := exec_refreshStep_last services hworks hr hq hclean
        rw [FBankSt.refreshed_last] at bank
        refine ⟨t, done, by rw [bank], by rw [bank], ?_, ?_, ?_, count, mem⟩
        · rw [bank]
          simp only [SMap.get_put_same]
          rfl
        · rw [bank]
          simp only [SMap.get_put_same]
        · rw [bank]
          simp

end Sys2Proof.Machine
end

