-- ==== Sys2Proof/Proofs/ModeRequests.lean ====
section
/-! PROOF. Mode requests: the same route table, met on the way from Maintenance to Ready. -/

namespace Sys2Proof.Machine

/-- A destination whose enable in SM_RENj would be OWN, bit 3 of TW_STAT. -/
def strayOwnDest : Nat := 32 * 0xA7FFC1 + 3

theorem strayOwnDest_addr :
    RegName.SM_RENj.addr (strayOwnDest / 32) 0 = RegName.TW_STAT.addr 0 0 ∧ strayOwnDest % 32 = F.TW_STAT_OWN.lo := by
  decide

/-- Maintenance with a route to that destination, enabled at entry into Ready. -/
def strayMaintenance : State :=
  let s := State.resetIn .maintenance
  { s with mx := { s.mx with routes := [⟨strayOwnDest, 2, 0, 0, false, true, [0], 0, 0⟩] } }

/-- A host-port frame with no word in it: the clauses of the statement that the refutation uses do not read it. -/
def emptyFrame : HpFrame := ⟨0, 0, 0, 0⟩

/-- A wake that finds nothing, likewise not read. -/
def quietWake : WakeTest := ⟨.replicate 9 ⟨0, 0, 0, []⟩, false⟩

theorem strayMaintenance_admits : strayMaintenance.admits Req.monitor0 .write .SYS_MODE_REQ 0 0 := by
  simp only [State.admits]
  decide +kernel

/-- The request for Ready enters Ready, whose entry sets the enable of the route: OWN reads 1. -/
theorem modeReady_strayMaintenance :
    leadsTo (fun t => t.flag F.TW_STAT_OWN 0 0) (exec (.modeReady (.bus Req.monitor0)) strayMaintenance) = true := by
  decide +kernel

/-- Refutes O50: the statement speaks of every state, also of one whose route table holds a destination beyond the 1,024 of the
matrix. A request for Ready in Maintenance enters Ready, which writes the enable of every route to SM_RENj (R230); of destination
32 * 0xA7FFC1 + 3 that is bit 3 of TW_STAT, so OWN is 1 afterwards. -/
theorem not_modeRequests : ¬ Obligations.ModeRequests := by
  unfold Obligations.ModeRequests
  intro h
  obtain ⟨-, atMonitor, -⟩ := h strayMaintenance Req.monitor0 emptyFrame quietWake
  obtain ⟨-, -, ready, -⟩ := atMonitor strayMaintenance_admits (by decide +kernel)
  obtain ⟨t, ht, -, -, own⟩ := ready (by decide) (by decide)
  have stray := modeReady_strayMaintenance
  rw [ht] at stray
  exact absurd (show t.flag F.TW_STAT_OWN 0 0 = true from stray) (by rw [own]; decide)

end Sys2Proof.Machine
end

