-- ==== Sys2Proof/Proofs/Domain.lean ====
section
/-! PROOF. What the work of the control domain leaves alone: timers, generators and engines move their own state, registers, levels and
the calendar. -/

namespace Sys2Proof.Machine

/-- t is s but for generators, timers, engines, the matrix, registers, their hits, and the commands that wait. -/
def State.domainOnly (s t : State) : Prop :=
  ∃ pwm tmr le mx regs hits cal inbox,
    t = { s with pwm := pwm, tmr := tmr, le := le, mx := mx, regs := regs, hits := hits, cal := cal, inbox := inbox }

namespace State.domainOnly
variable {s t u : State}

theorem refl (s : State) : s.domainOnly s := ⟨_, _, _, _, _, _, _, _, rfl⟩

theorem trans (h : s.domainOnly t) (g : t.domainOnly u) : s.domainOnly u := by
  obtain ⟨_, _, _, _, _, _, _, _, rfl⟩ := h
  obtain ⟨_, _, _, _, _, _, _, _, rfl⟩ := g
  exact ⟨_, _, _, _, _, _, _, _, rfl⟩

theorem twin (h : s.domainOnly t) : t.twin = s.twin := by
  obtain ⟨_, _, _, _, _, _, _, _, rfl⟩ := h
  rfl

theorem sys (h : s.domainOnly t) : t.sys = s.sys := by
  obtain ⟨_, _, _, _, _, _, _, _, rfl⟩ := h
  rfl

theorem mem (h : s.domainOnly t) : t.mem = s.mem := by
  obtain ⟨_, _, _, _, _, _, _, _, rfl⟩ := h
  rfl

theorem now (h : s.domainOnly t) : t.now = s.now := by
  obtain ⟨_, _, _, _, _, _, _, _, rfl⟩ := h
  rfl

/-! ## Single moves -/

theorem setLv (h : s.domainOnly t) (k : Nat) (b : Bool) : s.domainOnly (t.setLv k b) := h.trans ⟨_, _, _, _, _, _, _, _, rfl⟩
theorem setReg (h : s.domainOnly t) (q : RegName) (i j : Nat) (v : Word) : s.domainOnly (t.setReg q i j v) :=
  h.trans ⟨_, _, _, _, _, _, _, _, rfl⟩
theorem setFld (h : s.domainOnly t) (f : Fld) (i j v : Nat) : s.domainOnly (t.setFld f i j v) := h.setReg _ _ _ _
theorem bump (h : s.domainOnly t) (f : Fld) (i j : Nat) : s.domainOnly (t.bump f i j) := h.trans ⟨_, _, _, _, _, _, _, _, rfl⟩
theorem raiseFld (h : s.domainOnly t) (f : Fld) (i j k : Nat) : s.domainOnly (t.raiseFld f i j k) := h.trans ⟨_, _, _, _, _, _, _, _, rfl⟩
theorem schedMore (h : s.domainOnly t) (d : Nat) (c : Instr) : s.domainOnly (t.schedMore d c) := h.trans ⟨_, _, _, _, _, _, _, _, rfl⟩
theorem sched (h : s.domainOnly t) (d : Nat) (c : Instr) : s.domainOnly (t.sched d c) := h.trans ⟨_, _, _, _, _, _, _, _, rfl⟩
theorem schedAt (h : s.domainOnly t) (d : Nat) (c : Instr) : s.domainOnly (t.schedAt d c) := h.sched _ _
theorem evcRaise (h : s.domainOnly t) (n : SrcId) : s.domainOnly (t.evcRaise n) := h.schedMore _ _
theorem unsched (h : s.domainOnly t) (c : Instr) : s.domainOnly (t.unsched c) := h.trans ⟨_, _, _, _, _, _, _, _, rfl⟩
theorem unschedAll (h : s.domainOnly t) (p : Instr → Bool) : s.domainOnly (t.unschedAll p) := h.trans ⟨_, _, _, _, _, _, _, _, rfl⟩
theorem emit (h : s.domainOnly t) (c : Instr) : s.domainOnly (t.emit c) := h.trans ⟨_, _, _, _, _, _, _, _, rfl⟩
theorem raiseEv (h : s.domainOnly t) (k : Nat) : s.domainOnly (t.raiseEv k) := h.trans ⟨_, _, _, _, _, _, _, _, rfl⟩
theorem modPwm (h : s.domainOnly t) (n : GenId) (f : PwmSt → PwmSt) : s.domainOnly (t.modPwm n f) := h.trans ⟨_, _, _, _, _, _, _, _, rfl⟩
theorem modTmr (h : s.domainOnly t) (n : TmrId) (f : TmrSt → TmrSt) : s.domainOnly (t.modTmr n f) := h.trans ⟨_, _, _, _, _, _, _, _, rfl⟩
theorem modLe (h : s.domainOnly t) (n : LeId) (f : LeSt → LeSt) : s.domainOnly (t.modLe n f) := h.trans ⟨_, _, _, _, _, _, _, _, rfl⟩

theorem ite {c : Prop} [Decidable c] (h : s.domainOnly t) (g : s.domainOnly u) : s.domainOnly (if c then t else u) := by
  split
  · exact h
  · exact g

theorem foldl {α : Type} {f : State → α → State} (h : ∀ t a, s.domainOnly t → s.domainOnly (f t a)) (l : List α) (hs : s.domainOnly t) :
    s.domainOnly (l.foldl f t) := foldl_keeps s.domainOnly h l t hs

/-! ## Generators -/

theorem pwmDrive (h : s.domainOnly t) (n : GenId) (e : Nat) : s.domainOnly (t.pwmDrive n e) :=
  (foldl (fun _ _ g => ite g ((g.setLv _ _).modPwm n _)) _ h).setLv _ _

theorem pwmTurnOn (h : s.domainOnly t) (n : GenId) (b : Bool) (e : Nat) : s.domainOnly (t.pwmTurnOn n b e) :=
  ite (((h.modPwm n _).pwmDrive n e).setLv _ _) ((h.modPwm n _).pwmDrive n e)

theorem pwmDead (h : s.domainOnly t) (n : GenId) (b : Bool) (e : Nat) : s.domainOnly (t.pwmDead n b e) :=
  ite (h.modPwm n _) (ite (h.pwmTurnOn n b e) ((h.modPwm n _).schedAt _ _))

theorem pwmFlush (h : s.domainOnly t) (n : GenId) (e : Nat) : s.domainOnly (t.pwmFlush n e) := by
  unfold State.pwmFlush
  split
  · split
    · exact ite (h.pwmTurnOn n _ _) h
    · exact ite ((ite h ((h.bump _ _ _).raiseEv _)).pwmTurnOn n _ _) h
  · exact h

theorem refEdge (h : s.domainOnly t) (n : GenId) (x : Fin 2) (v : Bool) (e : Nat) : s.domainOnly (t.refEdge n x v e) := by
  have turned := (h.pwmFlush n e).modPwm n fun g => { g with ref := vset g.ref x v }
  exact ite h (ite turned (ite ((turned.modPwm n _).pwmDrive n e) (ite (((turned.modPwm n _).pwmDrive n e).pwmDead n _ e) turned)))

theorem pwmFire (h : s.domainOnly t) (n : GenId) (x : Fin 2) (v : Bool) (e : Nat) : s.domainOnly (t.pwmFire n x v e) :=
  (h.modPwm n _).refEdge n x v e

theorem pwmArm (h : s.domainOnly t) (n : GenId) (x : Fin 2) : s.domainOnly (t.pwmArm n x) := by
  refine ite ?_ (h.unsched _)
  split
  · exact h.schedAt _ _
  · exact h.unsched _

theorem pwmArmTrg (h : s.domainOnly t) (n : GenId) (k : Fin 2) : s.domainOnly (t.pwmArmTrg n k) := by
  refine ite ?_ (h.unsched _)
  split
  · exact h.schedAt _ _
  · exact h.unsched _

theorem pwmArmAll (h : s.domainOnly t) (n : GenId) : s.domainOnly (t.pwmArmAll n) :=
  (((h.pwmArm n 0).pwmArm n 1).pwmArmTrg n 0).pwmArmTrg n 1

theorem pwmSegment (h : s.domainOnly t) (n : GenId) (fixed : Bool) : s.domainOnly (t.pwmSegment n fixed) := (h.modPwm n _).pwmArmAll n

theorem pwmActs (h : s.domainOnly t) (n : GenId) (fixed : Bool) : s.domainOnly (t.pwmActs n fixed) := by
  refine pwmArmAll (foldl (fun u x g => ?_) _ h) n
  dsimp only
  split
  · exact g.pwmFire n x _ _
  · exact g.refEdge n x _ _
  · exact g

theorem pwmJump (h : s.domainOnly t) (n : GenId) (k : Nat) : s.domainOnly (t.pwmJump n k) := by
  have acts : ∀ f p g, s.domainOnly (((((t.modPwm n f).unschedAll p).pwmSegment n true).modPwm n g).pwmActs n true) := fun f p g =>
    ((((h.modPwm n f).unschedAll p).pwmSegment n true).modPwm n g).pwmActs n true
  exact ite (ite (acts _ _ _) ((acts _ _ _).schedAt _ _)) (ite ((acts _ _ _).schedAt _ _) (((acts _ _ _).schedAt _ _).schedAt _ _))

/-! ## Timers and engines -/

theorem tmrDue (h : s.domainOnly t) (n : TmrId) (c : Fin 4) : s.domainOnly (t.tmrDue n c) := ite (h.schedAt _ _) (h.unsched _)

theorem loadCounts (h : s.domainOnly t) (ws : List Word) : s.domainOnly (t.loadCounts ws) :=
  foldl (fun _ n g => ite (foldl (fun _ c g => g.tmrDue n c) _ ((g.modTmr n _).schedAt _ _)) g) _
    (foldl (fun _ n g => ite (g.pwmJump n _) g) _ h)

theorem coastRun (h : s.domainOnly t) (n : LeId) (k : Nat) : s.domainOnly (t.coastRun n k) :=
  ite ((h.modLe n _).sched _ _) ((h.modLe n _).unsched _)

theorem leRun (h : s.domainOnly t) (n : LeId) : s.domainOnly (t.leRun n) :=
  ite (((h.setLv _ _).setLv _ _).coastRun n _) ((h.setLv _ _).setLv _ _)

theorem allLeRun (h : s.domainOnly t) : s.domainOnly (t.allLe State.leRun) := foldl (fun _ n g => g.leRun n) _ h

end State.domainOnly

end Sys2Proof.Machine
end

