-- ==== Sys2Proof/Proofs/Marks.lean ====
section
/-! PROOF. Marks, heartbeats, the steps of pairing, phase lock. -/

namespace Sys2Proof.Machine

/-! ## Frames -/

/-- Fields of a whole frame, as the statements list them. -/
def wholeFrame (ty lo hi : Nat) (h : TwHdr) (t d : List Byte) : Prop :=
  t.length = 16 ∧ d.length = 32 * h.nflit.toNat ∧ lo ≤ h.nflit.toNat ∧ h.nflit.toNat ≤ hi ∧ crc32c (twBytes ty h t d) = h.crc

theorem twWhole_iff {ty lo hi : Nat} {h : TwHdr} {t d : List Byte} : twWhole ty lo hi h t d = true ↔ wholeFrame ty lo hi h t d := by
  simp [twWhole, wholeFrame, and_assoc]

/-- Where the pairs run, the device is not in Retention. -/
theorem State.not_retention_of_cores {s : State} (h : s.mode.cores = true) : s.mode ≠ .retention := fun hm => by
  rw [hm] at h
  exact absurd h (by decide)

theorem twRecv_broken {s : State} {ty lo hi : Nat} {h : TwHdr} {t d : List Byte} (hu : s.linkIsUp = true) (hm : s.mode ≠ .retention)
    (hw : ¬wholeFrame ty lo hi h t d) (body : State → State) : twRecv ty lo hi h t d body s = .next (s.bump F.TW_ERR_CNT_FRAMECRC 0 0) := by
  simp [twRecv, hu, hm, show twWhole ty lo hi h t d = false from Bool.eq_false_iff.2 fun e => hw (twWhole_iff.1 e)]

theorem State.fld_modTwin (s : State) (w : TwinSt → TwinSt) (f : Fld) (i j : Nat) : (s.modTwin w).fld f i j = s.fld f i j := rfl

/-! ## What a mark keeps -/

/-- t keeps the mark of s, its pulse but for one at this lc, and every frame sent. -/
def State.keepsMark (s t : State) : Prop :=
  t.now = s.now ∧ t.twin.markAt = s.twin.markAt ∧ t.twin.markIdx = s.twin.markIdx ∧
    (t.twin.pulse = s.twin.pulse ∨ t.twin.pulse = some (s.now * 256)) ∧ s.twin.out ⊆ t.twin.out

namespace State.keepsMark
variable {s t u : State}

theorem refl (s : State) : s.keepsMark s := ⟨rfl, rfl, rfl, .inl rfl, fun _ h => h⟩

theorem trans (h : s.keepsMark t) (g : t.keepsMark u) : s.keepsMark u := by
  obtain ⟨now, markAt, markIdx, pulse, out⟩ := h
  obtain ⟨now', markAt', markIdx', pulse', out'⟩ := g
  refine ⟨now'.trans now, markAt'.trans markAt, markIdx'.trans markIdx, ?_, fun f h => out' (out h)⟩
  rw [now] at pulse'
  rcases pulse' with e | e
  · rw [e]
    exact pulse
  · exact .inr e

theorem of_twin (h : s.keepsMark t) (hn : u.now = t.now) (ht : u.twin = t.twin) : s.keepsMark u :=
  h.trans ⟨hn, by rw [ht], by rw [ht], by rw [ht]; exact .inl rfl, by rw [ht]; exact fun _ h => h⟩

theorem domain (h : s.keepsMark t) (g : t.domainOnly u) : s.keepsMark u := h.of_twin g.now g.twin

theorem setFld (h : s.keepsMark t) (f : Fld) (i j v : Nat) : s.keepsMark (t.setFld f i j v) := h.of_twin rfl rfl
theorem setReg (h : s.keepsMark t) (q : RegName) (i j : Nat) (v : Word) : s.keepsMark (t.setReg q i j v) := h.of_twin rfl rfl
theorem raiseFld (h : s.keepsMark t) (f : Fld) (i j k : Nat) : s.keepsMark (t.raiseFld f i j k) := h.of_twin rfl rfl
theorem sched (h : s.keepsMark t) (d : Nat) (c : Instr) : s.keepsMark (t.sched d c) := h.of_twin rfl rfl
theorem unsched (h : s.keepsMark t) (c : Instr) : s.keepsMark (t.unsched c) := h.of_twin rfl rfl
theorem evcRaise (h : s.keepsMark t) (n : SrcId) : s.keepsMark (t.evcRaise n) := h.of_twin rfl rfl
theorem setMode (h : s.keepsMark t) (m : Mode) : s.keepsMark (t.setMode m) := h.of_twin rfl rfl
theorem setOwn (h : s.keepsMark t) (b : Bool) : s.keepsMark (t.setOwn b) := h.of_twin rfl rfl

theorem modTwin (h : s.keepsMark t) (f : TwinSt → TwinSt) (ha : (f t.twin).markAt = t.twin.markAt)
    (hi : (f t.twin).markIdx = t.twin.markIdx) (hp : (f t.twin).pulse = t.twin.pulse) (ho : (f t.twin).out = t.twin.out) :
    s.keepsMark (t.modTwin f) :=
  h.trans ⟨rfl, ha, hi, .inl hp, fun x hx => by rw [State.modTwin, ho]; exact hx⟩

theorem ite {c : Prop} [Decidable c] (h : s.keepsMark t) (g : s.keepsMark u) : s.keepsMark (if c then t else u) := by
  split
  · exact h
  · exact g

theorem twSend (h : s.keepsMark t) (ty : Nat) (spec data : List Byte) : s.keepsMark (t.twSend ty spec data) :=
  ite (h.trans ⟨rfl, rfl, rfl, .inl rfl, fun _ hx => List.mem_cons_of_mem _ hx⟩) h

theorem pairFail (h : s.keepsMark t) (code : Nat) : s.keepsMark (t.pairFail code) :=
  ((h.raiseFld _ _ _ _).unsched _).modTwin _ rfl rfl rfl rfl

theorem pairStep (h : s.keepsMark t) (k : Nat) : s.keepsMark (t.pairStep k) := h.modTwin _ rfl rfl rfl rfl

theorem pairJudge (h : s.keepsMark t) (f : TwFrame) : s.keepsMark (t.pairJudge f) :=
  ite (h.pairFail _) (ite (h.pairFail _) ((h.modTwin _ rfl rfl rfl rfl).pairStep _))

theorem runBegin (h : s.keepsMark t) (m : Mode) : s.keepsMark (t.runBegin m) := (h.setMode m).domain (State.domainOnly.refl _).allLeRun

theorem decideHandover (h : s.keepsMark t) (c : Nat) : s.keepsMark (t.decideHandover c) :=
  ((h.setMode _).modTwin _ rfl rfl rfl rfl).sched _ _

theorem enterStandby (h : s.keepsMark t) : s.keepsMark t.enterStandby := by
  have begun := (((h.runBegin .runStandby).setFld F.TW_STAT_ROLE 0 0 1).setFld F.TW_STAT_PAIRED 0 0 1).modTwin
    (fun t => { t with step := 0, standby := true, lockOn := true, armed := false, tx := none, dec := none, commit := false })
    rfl rfl rfl rfl
  exact ite (begun.decideHandover _) (ite (begun.decideHandover _) begun)

theorem pairDone (h : s.keepsMark t) : s.keepsMark t.pairDone := by
  have told := (h.unsched .pairingTimeout).evcRaise 0x1A0
  refine ite (h.pairFail _) (ite (enterStandby ?_) ?_)
  · split
    · exact told.setReg _ _ _ _
    · exact told
  · exact ((((ite told (told.runBegin _)).setFld _ _ _ _).setFld _ _ _ _).setOwn _).modTwin _ rfl rfl rfl rfl

/-- A pulse at this lc. -/
theorem pulseNow (h : s.keepsMark t) (f : TwinSt → TwinSt) (ha : (f t.twin).markAt = t.twin.markAt)
    (hi : (f t.twin).markIdx = t.twin.markIdx) (hp : (f t.twin).pulse = some (t.now * 256)) (ho : (f t.twin).out = t.twin.out) :
    s.keepsMark (t.modTwin f) :=
  h.trans ⟨rfl, ha, hi, .inr hp, fun x hx => by rw [State.modTwin, ho]; exact hx⟩

theorem pairBegin (h : s.keepsMark t) : s.keepsMark t.pairBegin := by
  have begun := h.modTwin (fun t => { t with begun := true }) rfl rfl rfl rfl
  unfold State.pairBegin
  dsimp only
  split
  · refine ite (begun.pairFail _) ?_
    split
    · exact (begun.twSend _ _ _).pairJudge _
    · exact begun.twSend _ _ _
  · exact ite (begun.pulseNow _ rfl rfl rfl rfl) begun
  · exact begun.pairDone
  · exact begun

theorem markLoad (h : s.keepsMark t) : s.keepsMark t.markLoad := by
  unfold State.markLoad
  split
  · exact ite ((((h.domain ((State.domainOnly.refl _).loadCounts _)).setReg _ _ _ _).modTwin _ rfl rfl rfl rfl).pairStep _) h
  · exact h

theorem markPair (h : s.keepsMark t) : s.keepsMark t.markPair := ite h.pairBegin (ite ((h.twSend _ _ _).pairStep _) h)

theorem markOffer (h : s.keepsMark t) : s.keepsMark t.markOffer := (ite (h.twSend _ _ _) h).modTwin _ rfl rfl rfl rfl

end State.keepsMark

/-! ## Marks and heartbeats -/

/-- A mark, up to the heartbeat that it sends. -/
def State.markTold (s : State) : State :=
  let now := s.now
  let s := s.modTwin fun t => { t with markAt := now, markIdx := t.markIdx + 1 }
  let s := if s.drivesSync then s.modTwin fun t => { t with pulse := some (now * 256) } else s
  s.sendHeartbeat

theorem exec_twMark {s : State} (hc : s.mode.cores = true) : exec .twMark s = .next s.markTold.markLoad.markPair.markOffer := by
  have e : exec .twMark s = if !s.mode.cores then .next s else .next s.markTold.markLoad.markPair.markOffer := rfl
  rw [e, hc]
  rfl

/-- The heartbeat goes out with the mark's count and pulse. -/
theorem State.markTold_spec (s : State) :
    let u := s.markTold
    u.now = s.now ∧ u.twin.markAt = s.now ∧ u.twin.markIdx = s.twin.markIdx + 1 ∧
      (s.drivesSync = true → u.twin.pulse = some (s.now * 256)) ∧
      (s.linkIsUp = true → ∃ f ∈ u.twin.out, f.ty = 1 ∧ f.fseq = s.twin.fseq ∧ f.mode = s.sys.mode.code ∧
        f.spec.take 4 = Word.bytes (s.reg .TW_EPOCH_SEQ 0 0)) := by
  let m := s.modTwin fun t => { t with markAt := s.now, markIdx := t.markIdx + 1 }
  let v := if m.drivesSync then m.modTwin fun t => { t with pulse := some (s.now * 256) } else m
  have told : s.markTold = v.sendHeartbeat := rfl
  have drives : m.drivesSync = s.drivesSync := rfl
  have kept : v.now = s.now ∧ v.twin.markAt = s.now ∧ v.twin.markIdx = s.twin.markIdx + 1 ∧ v.twin.fseq = s.twin.fseq ∧ v.sys = s.sys ∧
      v.regs = s.regs ∧ (s.drivesSync = true → v.twin.pulse = some (s.now * 256)) := by
    rw [← drives]
    dsimp only [v]
    split
    · exact ⟨rfl, rfl, rfl, rfl, rfl, rfl, fun _ => rfl⟩
    · next off => exact ⟨rfl, rfl, rfl, rfl, rfl, rfl, fun on => absurd on off⟩
  obtain ⟨now, markAt, markIdx, fseq, sys, regs, pulse⟩ := kept
  have seq : v.reg .TW_EPOCH_SEQ 0 0 = s.reg .TW_EPOCH_SEQ 0 0 := by rw [State.reg, State.reg, regs]
  have up : v.linkIsUp = s.linkIsUp := by rw [State.linkIsUp, State.linkIsUp, fld_of_regs regs]
  dsimp only
  rw [told, State.sendHeartbeat, State.twSend, up]
  dsimp only
  split
  · refine ⟨now, markAt, markIdx, pulse, fun _ => ⟨_, List.mem_cons_self, rfl, fseq, congrArg (·.mode.code) sys, ?_⟩⟩
    rw [← seq]
    rfl
  · next down =>
    refine ⟨now, markAt, markIdx, pulse, fun hu => absurd ?_ down⟩
    rw [hu]
    rfl

/-- A status field of a state in which the heartbeat was noted, and its peer's registers loaded, is as the heartbeat left it. -/
theorem State.fld_ite_setFld {s : State} {c : Prop} [Decidable c] {f g : Fld} {v : Nat} (e : g.reg = f.reg)
    (h : f.hi < 32 ∧ g.hi < 32 ∧ (g.hi < f.lo ∨ f.hi < g.lo)) : (if c then s.setFld f 0 0 v else s).fld g 0 0 = s.fld g 0 0 := by
  split
  · exact State.fld_setFld_apart s v e h.1 h.2.1 h.2.2
  · rfl

theorem State.fld_ite_setReg {s : State} {c : Prop} [Decidable c] {q : RegName} {g : Fld} {v : Word}
    (h : g.reg.addr 0 0 ≠ q.addr 0 0) : (if c then s.setReg q 0 0 v else s).fld g 0 0 = s.fld g 0 0 := by
  split
  · exact State.fld_setReg_ne s v h
  · rfl

/-- What a heartbeat shows of the peer, before its lc and counts are noted (R387). -/
def State.peerShown (s : State) (h : TwHdr) : State :=
  let now := s.now
  let m := h.mode.toNat
  let s := (s.setFld F.TW_STAT_PEERMODE 0 0 m).setFld F.TW_STAT_LINKLOST 0 0 0
  let s := if s.twin.takeGen then s.setReg .TW_GEN 0 0 (h.gen.setWidth 32) else s
  let s := if ownLow m && decide (s.twin.ownAt + 128 ≤ now) then s.setFld F.TW_STAT_OWN_IN 0 0 0 else s
  if m ≠ 10 ∧ h.flags.toNat % 2 = 0 ∧ s.twin.faultAt + 128 ≤ now then s.setFld F.TW_STAT_FAULT_IN 0 0 0 else s

/-- A heartbeat as it is taken (R386, R387). -/
def State.heartbeatTaken (s : State) (h : TwHdr) (t d : List Byte) : State :=
  let now := s.now
  let gens := s.agrGens
  let s := (s.peerShown h).modTwin fun w => { w with hbAt := now, flags := h.flags.toNat, lost := false, takeGen := false,
                                                     mirror := mirrorCmpa gens (t.drop 8 ++ d) w.mirror }
  if s.twin.step = 4 ∧ s.twin.standby = false ∧ s.twin.armed = false ∧ h.flags.toNat / 4 % 2 = 1 then
    let s := (s.setReg .TW_EPOCH_SEQ 0 0 0).setReg .TW_EPOCH_ACKED 0 0 0
    s.modTwin fun w => { w with armed := true, periods := 0 }
  else s

theorem exec_heartbeat_recv (s : State) (h : TwHdr) (t d : List Byte) : exec (.heartbeat h t d) s =
    twRecv 1 1 1 h t d (fun s => if !s.mode.cores then s else s.heartbeatTaken h t d) s := rfl

theorem exec_heartbeat {s : State} (hc : s.mode.cores = true) (hu : s.linkIsUp = true) {h : TwHdr} {t d : List Byte}
    (hw : wholeFrame 1 1 1 h t d) : exec (.heartbeat h t d) s = .next (s.heartbeatTaken h t d) := by
  rw [exec_heartbeat_recv, twRecv_whole hu (State.not_retention_of_cores hc) (twWhole_iff.2 hw), hc]
  rfl

theorem State.peerShown_spec (s : State) (h : TwHdr) :
    let u := s.peerShown h
    u.fld F.TW_STAT_LINKLOST 0 0 = 0 ∧ u.fld F.TW_STAT_PEERMODE 0 0 = h.mode.toNat % 16 ∧ u.twin = s.twin := by
  have shown : ∀ g : Fld, (g = F.TW_STAT_LINKLOST ∨ g = F.TW_STAT_PEERMODE) → (s.peerShown h).fld g 0 0 =
      ((s.setFld F.TW_STAT_PEERMODE 0 0 h.mode.toNat).setFld F.TW_STAT_LINKLOST 0 0 0).fld g 0 0 := by
    intro g hg
    dsimp only [State.peerShown]
    rcases hg with rfl | rfl <;>
      rw [State.fld_ite_setFld (by decide) (by decide), State.fld_ite_setFld (by decide) (by decide), State.fld_ite_setReg (by decide)]
  refine ⟨(shown _ (.inl rfl)).trans (State.fld_setFld_same _ _ _ _ _ (by decide)), ?_, ?_⟩
  · rw [shown _ (.inr rfl), State.fld_setFld_apart _ _ (by decide) (by decide) (by decide) (by decide)]
    exact State.fld_setFld_same _ _ _ _ _ (by decide)
  · dsimp only [State.peerShown]
    split <;> split <;> split <;> rfl

theorem State.heartbeatTaken_spec (s : State) (h : TwHdr) (t d : List Byte) :
    let u := s.heartbeatTaken h t d
    u.twin.hbAt = s.now ∧ u.twin.flags = h.flags.toNat ∧ u.twin.lost = false ∧ u.flag F.TW_STAT_LINKLOST 0 0 = false ∧
      u.fld F.TW_STAT_PEERMODE 0 0 = h.mode.toNat % 16 ∧ u.twin.out = s.twin.out := by
  obtain ⟨lost, mode, twin⟩ := s.peerShown_spec h
  have out : (s.peerShown h).twin.out = s.twin.out := by rw [twin]
  dsimp only [State.heartbeatTaken]
  split
  · refine ⟨rfl, rfl, rfl, ?_, ?_, out⟩
    · rw [State.flag, State.fld_modTwin, State.fld_setReg_ne _ _ (by decide), State.fld_setReg_ne _ _ (by decide), State.fld_modTwin, lost]
      rfl
    · rw [State.fld_modTwin, State.fld_setReg_ne _ _ (by decide), State.fld_setReg_ne _ _ (by decide), State.fld_modTwin, mode]
  · refine ⟨rfl, rfl, rfl, ?_, ?_, out⟩
    · rw [State.flag, State.fld_modTwin, lost]
      rfl
    · rw [State.fld_modTwin, mode]

theorem State.markOffer_blank (s : State) : s.markOffer.twin.blank = false := rfl

/-! ## Pairing -/

theorem State.pairFail_spec (s : State) (code : Nat) :
    (s.pairFail code).fld F.TW_STAT_CMDERR 0 0 = code % 16 ∧ (s.pairFail code).twin.step = 0 ∧ (s.pairFail code).twin.lockOn = false :=
  ⟨State.fld_raiseFld_same s F.TW_STAT_CMDERR 0 0 code (by decide), rfl, rfl⟩

/-- The peer's frame names the same image, configuration and device as this device's own. -/
def alikeFrame (t own : List Byte) : Prop :=
  wordAt t 4 = wordAt own 4 ∧ wordAt t 8 = wordAt own 8 ∧ (wordAt t 12).toNat / 256 = (wordAt own 12).toNat / 256

theorem State.pairJudge_spec (s : State) (f : TwFrame) :
    let own := s.pairSpec 0
    let u := s.pairJudge f
    (¬alikeFrame f.spec own → u.fld F.TW_STAT_CMDERR 0 0 = 3 ∧ u.twin.step = 0) ∧
    (alikeFrame f.spec own → f.spec.head? = own.head? → u.fld F.TW_STAT_CMDERR 0 0 = 4 ∧ u.twin.step = 0) ∧
    (alikeFrame f.spec own → f.spec.head? ≠ own.head? → u.twin.step = 2 ∧ u.twin.begun = false ∧ u.regs = s.regs) := by
  intro own u
  have differs : ¬alikeFrame f.spec own ↔ (wordAt f.spec 4 ≠ wordAt own 4 ∨ wordAt f.spec 8 ≠ wordAt own 8 ∨
      (wordAt f.spec 12).toNat / 256 ≠ (wordAt own 12).toNat / 256) := by
    rw [alikeFrame]
    tauto
  refine ⟨fun h => ?_, fun h same => ?_, fun h other => ?_⟩
  · rw [show u = s.pairFail 3 from if_pos (differs.1 h)]
    exact ⟨(s.pairFail_spec 3).1, rfl⟩
  · rw [show u = s.pairFail 4 from (if_neg fun g => differs.2 g h).trans (if_pos same)]
    exact ⟨(s.pairFail_spec 4).1, rfl⟩
  · rw [show u = (s.modTwin fun t => { t with seen := some f }).pairStep 2 from (if_neg fun g => differs.2 g h).trans (if_neg other)]
    exact ⟨rfl, rfl, rfl⟩

theorem exec_pair_judged {s : State} (hc : s.mode.cores = true) (hu : s.linkIsUp = true) {h : TwHdr} {t d : List Byte}
    (hw : wholeFrame 4 5 5 h t d) (h1 : s.twin.step = 1) (hb : s.twin.begun = true) :
    exec (.pair h t d) s = .next (s.pairJudge ⟨4, h.flags.toNat, h.fseq, h.gen, h.mode.toNat, t, d⟩) := by
  refine (twRecv_whole hu (State.not_retention_of_cores hc) (twWhole_iff.2 hw) fun s =>
    let f : TwFrame := ⟨4, h.flags.toNat, h.fseq, h.gen, h.mode.toNat, t, d⟩
    if s.twin.step = 1 then
      if s.twin.begun then s.pairJudge f else s.modTwin fun w => { w with seen := some f }
    else if s.twin.step = 3 ∧ s.twin.standby = true ∧ s.twin.trip.isSome = true then
      let m := (wordAt t 0).toNat / 256
      s.modTwin fun w => { w with markIdx := m, seen := some f, align := some (m + 2, bytesToWords d) }
    else s).trans (congrArg Host.Outcome.next ?_)
  exact (if_pos h1).trans (if_pos hb)

/-! ## Pulses on TW_SYNC -/

/-- The instant of a pulse, from the lc's start. -/
def State.pulseAt (s : State) (e : Int) : Int := s.now * 256 + e

/-- The branches of a pulse (R389, R391). -/
theorem exec_twSyncArrival {s : State} (hc : s.mode.cores = true) (e : Int) :
    exec (.twSyncArrival e) s =
      let a := s.pulseAt e
      let t := s.twin
      if t.lockOn then .next (s.phaseMeasure (a - (s.reg .TW_DELAY 0 0).toNat))
      else if t.step = 2 ∧ t.standby = false then
        .next ((s.modTwin fun w => { w with trip := some a.toNat }).sched 64 .twSyncReturn)
      else if t.step = 2 then
        match t.trip with
        | some t0 => .next ((s.setReg .TW_DELAY 0 0 (BitVec.ofNat 32 (sBits16 ((a - t0 * 256 - 64 * 256) / 2)))).pairStep 3)
        | none => .next s
      else if t.step = 3 ∧ t.standby = true ∧ t.trip = none then
        let m := ((a - (s.reg .TW_DELAY 0 0).toNat + 128) / 256).toNat
        .next (s.modTwin fun w => { w with markAt := m, trip := some m })
      else .next s :=
  if_neg (by rw [hc]; decide)

theorem ofNat_sBits16 (x : Int) : BitVec.ofNat 32 (sBits16 x) = BitVec.ofInt 32 (x % 65536) := by
  have : x % 65536 = ((x % 65536).toNat : Int) := (Int.toNat_of_nonneg (by omega)).symm
  rw [sBits16, this, BitVec.ofInt_natCast, Int.toNat_natCast]

/-- Error of a pulse at `a` against the mark nearest to it. -/
def State.phaseError (s : State) (a : Int) : Int :=
  let d0 := a - ((s.twin.markAt * 256 : Nat) - s.twin.phi)
  if 64 * 128 < d0 then d0 - 64 * 256 else d0

/-- A pulse under phase lock, but for what it says of LOCK. -/
def State.phaseNoted (s : State) (a : Int) : State :=
  let e := s.phaseError a
  let phi := s.twin.phi - max (-4) (min 4 e)
  let n := if decide (e.natAbs * 2500 ≤ 6400) then s.twin.okMarks + 1 else 0
  (s.modTwin fun t => { t with phi := phi, okMarks := n, carry := if 256 ≤ phi then 1 else if phi ≤ -256 then -1 else 0 }).setReg
    .TW_PHASE 0 0 (BitVec.ofNat 32 (sBits16 phi * 65536 + sBits16 e))

/-- A pulse under phase lock: Φ moves by the measure held to ±4 fs (R391). -/
theorem State.phaseMeasure_spec (s : State) (a : Int) :
    let u := s.phaseMeasure a
    (u.twin.phi - s.twin.phi).natAbs ≤ 4 ∧ (u.twin.okMarks = 0 ∨ u.twin.okMarks = s.twin.okMarks + 1) ∧
      (16 ≤ u.twin.okMarks → u.flag F.TW_STAT_LOCK 0 0 = true) ∧ u.mem = s.mem := by
  intro u
  let e := s.phaseError a
  let n := if decide (e.natAbs * 2500 ≤ 6400) then s.twin.okMarks + 1 else 0
  have hn : n = 0 ∨ n = s.twin.okMarks + 1 := by
    dsimp only [n]
    split
    · exact .inr rfl
    · exact .inl rfl
  let v := s.phaseNoted a
  have hv : v.twin.phi = s.twin.phi - max (-4) (min 4 e) ∧ v.twin.okMarks = n ∧ v.mem = s.mem := ⟨rfl, rfl, rfl⟩
  have hu : u = if 16 ≤ n then v.setFld F.TW_STAT_LOCK 0 0 1
      else if 12800 < e.natAbs * 2500 then v.setFld F.TW_STAT_LOCK 0 0 0 else v := rfl
  obtain ⟨phi, marks, mem⟩ := hv
  have moved : (v.twin.phi - s.twin.phi).natAbs ≤ 4 := by
    rw [phi]
    omega
  rw [hu]
  split
  · refine ⟨moved, ?_, fun _ => ?_, mem⟩
    · rw [State.setFld_twin, marks]
      exact hn
    · rw [State.flag, State.fld_setFld_same _ _ _ _ _ (by decide)]
      rfl
  · next few =>
    have kept : (v.twin.phi - s.twin.phi).natAbs ≤ 4 ∧ (v.twin.okMarks = 0 ∨ v.twin.okMarks = s.twin.okMarks + 1) ∧
        ¬16 ≤ v.twin.okMarks := ⟨moved, by rw [marks]; exact hn, by rw [marks]; exact few⟩
    obtain ⟨hphi, hmarks, hfew⟩ := kept
    split <;> exact ⟨hphi, hmarks, fun many => absurd many hfew, mem⟩

/-! ## Settled -/

/-- Settles O45: a mark's count, pulse and frame outlast what pairing does at it; every other row is its own branch. -/
theorem marksAndPairing : Obligations.MarksAndPairing := by
  unfold Obligations.MarksAndPairing
  intro s h t d e hc w up whole
  refine ⟨?mark, ?beat, ?broken, ?missed, ?lost, ?timeout, ?judged, ?pulse, ?aligned, ?delay, ?locked⟩
  case mark =>
    obtain ⟨u, ran, ⟨-, markAt', markIdx', pulse', out'⟩, blank⟩ : ∃ u, exec .twMark s = .next u ∧ s.markTold.keepsMark u ∧
        u.twin.blank = false :=
      ⟨_, exec_twMark hc, (State.keepsMark.refl _).markLoad.markPair.markOffer, State.markOffer_blank _⟩
    have told := s.markTold_spec
    generalize s.markTold = m at markAt' markIdx' pulse' out' told
    obtain ⟨now, markAt, markIdx, pulse, out⟩ := told
    rw [now] at pulse'
    refine ⟨u, ran, markAt'.trans markAt, markIdx'.trans markIdx, blank, fun drives => ?_, fun hu => ?_⟩
    · rcases pulse' with same | again
      · exact same.trans (pulse drives)
      · exact again
    · obtain ⟨f, mem, sent⟩ := out hu
      exact ⟨f, out' mem, sent⟩
  case beat => exact fun hu hw => ⟨_, exec_heartbeat hc hu hw, s.heartbeatTaken_spec h t d⟩
  case broken => exact fun hu hw => (exec_heartbeat_recv s h t d).trans (twRecv_broken hu (State.not_retention_of_cores hc) hw _)
  case missed => exact congrArg Host.Outcome.next (if_pos hc)
  case lost =>
    intro own
    refine ⟨_, (if_pos hc).trans (congrArg Host.Outcome.next (if_pos own)), rfl, ?_, rfl, ?_⟩
    · exact congrArg (· != 0) (State.fld_setFld_same _ F.TW_STAT_LINKLOST 0 0 1 (by decide))
    · exact List.mem_append_right _ List.mem_cons_self
  case timeout =>
    intro running
    obtain ⟨err, step, lock⟩ := s.pairFail_spec 6
    exact ⟨_, congrArg Host.Outcome.next (if_neg running), err, step, lock⟩
  case judged => exact fun hu hw h1 hb => ⟨_, exec_pair_judged hc hu hw h1 hb,
    s.pairJudge_spec ⟨4, h.flags.toNat, h.fseq, h.gen, h.mode.toNat, t, d⟩⟩
  case pulse =>
    intro h2 active
    refine ⟨fun t0 ht => ⟨_, if_pos ⟨h2, active⟩, ?_, rfl⟩, fun off => ?_⟩
    · change some ((w.trip.map (· + 16384)).getD _) = _
      rw [ht]
      rfl
    · have noted : exec (.twSyncArrival e) s = .next ((s.modTwin fun w => { w with trip := some (s.pulseAt e).toNat }).sched 64 .twSyncReturn) := by
        rw [exec_twSyncArrival hc]
        exact (if_neg (by rw [off]; decide)).trans (if_pos ⟨h2, active⟩)
      exact ⟨_, noted, rfl, State.mem_sched rfl 64 _, rfl⟩
  case aligned =>
    intro off h3 standby trip
    have not2 : ¬s.twin.step = 2 := fun h2 => absurd (h2.symm.trans h3) (by decide)
    have noted : exec (.twSyncArrival e) s = .next (s.modTwin fun w =>
        { w with markAt := ((s.pulseAt e - (s.reg .TW_DELAY 0 0).toNat + 128) / 256).toNat,
                 trip := some ((s.pulseAt e - (s.reg .TW_DELAY 0 0).toNat + 128) / 256).toNat }) := by
      rw [exec_twSyncArrival hc]
      exact (if_neg (by rw [off]; decide)).trans
        ((if_neg fun h => not2 h.1).trans ((if_neg not2).trans (if_pos ⟨h3, standby, trip⟩)))
    exact ⟨_, noted, rfl, rfl⟩
  case delay =>
    intro off h2 standby t0 trip
    have answered : exec (.twSyncArrival e) s =
        .next ((s.setReg .TW_DELAY 0 0 (BitVec.ofNat 32 (sBits16 ((s.pulseAt e - t0 * 256 - 64 * 256) / 2)))).pairStep 3) := by
      rw [exec_twSyncArrival hc]
      refine (if_neg (by rw [off]; decide)).trans
        ((if_neg fun h => absurd (h.2.symm.trans standby) (by decide)).trans ((if_pos h2).trans ?_))
      rw [trip]
    refine ⟨_, answered, rfl, (State.reg_setReg_same s _ _ _ _).trans (ofNat_sBits16 _)⟩
  case locked =>
    intro lock
    refine ⟨_, ?_, s.phaseMeasure_spec (s.pulseAt e - (s.reg .TW_DELAY 0 0).toNat)⟩
    rw [exec_twSyncArrival hc]
    exact if_pos lock

end Sys2Proof.Machine
end

