-- ==== Sys2Proof/Proofs/Handover.lean ====
section
/-! PROOF. Handover: the decision, the takeover, the release of TW_OWN with the work in flight, two owners. -/

namespace Sys2Proof.Machine

/-! ## The decision -/

theorem State.decideHandover_spec (s : State) (c : Nat) :
    let u := s.decideHandover c
    u.sys.mode = .handover ∧ u.twin.dec = some (s.now, c) ∧ u.twin.commit = decide (c = 3) ∧
      (s.now + (s.reg .TW_AGRMAX 0 0).toNat, Instr.agreementForced) ∈ u.cal ∧ u.regs = s.regs ∧ u.twin.lost = s.twin.lost :=
  ⟨rfl, rfl, rfl, State.mem_sched rfl _ _, rfl, rfl⟩

theorem exec_faultInRise (s : State) :
    exec .faultInRise s =
      let u := (s.setFld F.TW_STAT_FAULT_IN 0 0 1).modTwin fun t => { t with faultAt := s.now }
      .next (match u.mode with
        | .runStandby => u.decideHandover 1
        | .handover =>
          match u.twin.dec with
          | some (t, 2) => if t = u.now then u.modTwin fun w => { w with dec := some (t, 1) } else u
          | _ => u
        | _ => if u.flag F.TW_STAT_OWN 0 0 then u.evcRaise 0x1A3 else u) := rfl

/-- A change of the status register and of the twin block leaves the mode. -/
theorem State.mode_twStat (s : State) (f : Fld) (v : Nat) (h : RegName.SYS_CLK_STAT.addr 0 0 ≠ f.reg.addr 0 0) (w : TwinSt → TwinSt) :
    ((s.setFld f 0 0 v).modTwin w).mode = s.mode := (State.mode_setFld_ne s f 0 0 v h :)

theorem exec_faultInRise_standby {s : State} (h : s.mode = .runStandby) :
    exec .faultInRise s = .next (((s.setFld F.TW_STAT_FAULT_IN 0 0 1).modTwin fun t => { t with faultAt := s.now }).decideHandover 1) := by
  have mode := (s.mode_twStat F.TW_STAT_FAULT_IN 1 (by decide) fun t => { t with faultAt := s.now }).trans h
  rw [exec_faultInRise]
  dsimp only
  rw [mode]

theorem exec_faultInRise_owner {s : State} (h : s.mode ≠ .runStandby) (h' : s.mode ≠ .handover) (own : s.flag F.TW_STAT_OWN 0 0 = true) :
    exec .faultInRise s = .next (((s.setFld F.TW_STAT_FAULT_IN 0 0 1).modTwin fun t => { t with faultAt := s.now }).evcRaise 0x1A3) := by
  let u := (s.setFld F.TW_STAT_FAULT_IN 0 0 1).modTwin fun t => { t with faultAt := s.now }
  have mode : u.mode = s.mode := s.mode_twStat F.TW_STAT_FAULT_IN 1 (by decide) fun t => { t with faultAt := s.now }
  have owns : u.flag F.TW_STAT_OWN 0 0 = true :=
    (congrArg (· != 0) (State.fld_setFld_apart s 1 (f := F.TW_STAT_FAULT_IN) (g := F.TW_STAT_OWN) rfl (by decide) (by decide) (by decide))).trans own
  rw [exec_faultInRise]
  dsimp only
  split
  · next g => exact absurd (mode.symm.trans g) h
  · next g => exact absurd (mode.symm.trans g) h'
  · exact congrArg Host.Outcome.next (if_pos owns)

theorem exec_peerLost_standby {s : State} (h : s.mode = .runStandby) (low : s.ownIn = false) :
    exec .peerLost s = .next ((s.modTwin fun t => { t with lost := true }).decideHandover 2) := by
  have cores : s.mode.cores = true := by rw [h]; rfl
  refine (if_pos cores).trans (congrArg Host.Outcome.next ((if_neg ?_).trans (if_pos h)))
  change ¬s.ownIn = true
  rw [low]
  decide

theorem exec_switch_recv (s : State) (h : TwHdr) (t : List Byte) : exec (.switch h t) s =
    twRecv 5 0 0 h t [] (fun s => if s.mode = .runStandby then s.decideHandover 3 else s) s := rfl

theorem exec_switch {s : State} (hm : s.mode = .runStandby) (hu : s.linkIsUp = true) {h : TwHdr} {t : List Byte}
    (hw : wholeFrame 5 0 0 h t []) : exec (.switch h t) s = .next (s.decideHandover 3) := by
  rw [exec_switch_recv, twRecv_whole hu (by rw [hm]; decide) (twWhole_iff.2 hw), if_pos hm]

/-! ## Work in flight -/

/-- A twin status field is as it was, and what is neither a channel's nor a queue's status. -/
def State.keepsTwin (s t : State) : Prop :=
  t.twin = s.twin ∧ t.sys = s.sys ∧ t.mem = s.mem ∧ t.now = s.now ∧ t.reg .TW_STAT 0 0 = s.reg .TW_STAT 0 0

theorem State.keepsTwin.trans {s t u : State} (h : s.keepsTwin t) (g : t.keepsTwin u) : s.keepsTwin u := by
  obtain ⟨twin, sys, mem, now, stat⟩ := h
  obtain ⟨twin', sys', mem', now', stat'⟩ := g
  exact ⟨twin'.trans twin, sys'.trans sys, mem'.trans mem, now'.trans now, stat'.trans stat⟩

theorem qStat_ne_twStat (q : QId) : RegName.TW_STAT.addr 0 0 ≠ RegName.Qn_STAT.addr q 0 := by
  have := q.isLt
  simp [RegName.addr, RegName.base, RegName.dims]
  omega

theorem chStat_ne_twStat (n : Chan) : RegName.TW_STAT.addr 0 0 ≠ RegName.DCHn_STAT.addr n 0 := by
  have := n.isLt
  simp [RegName.addr, RegName.base, RegName.dims]
  omega

theorem chStat_ne_qStat (n : Chan) (q : QId) : RegName.DCHn_STAT.addr n 0 ≠ RegName.Qn_STAT.addr q 0 := by
  have := n.isLt
  have := q.isLt
  simp [RegName.addr, RegName.base, RegName.dims]
  omega

theorem chStat_ne_chStat {m n : Chan} (h : m ≠ n) : RegName.DCHn_STAT.addr m 0 ≠ RegName.DCHn_STAT.addr n 0 := by
  have := Fin.val_ne_of_ne h
  simp [RegName.addr, RegName.base, RegName.dims]
  omega

/-- The request of a channel is no register of the channel. -/
theorem State.dmaUnreq_reg (s : State) (n : Chan) {q : RegName} {i : Nat} (h : ∀ k : QId, q.addr i 0 ≠ RegName.Qn_STAT.addr k 0) :
    (s.dmaUnreq n).reg q i 0 = s.reg q i 0 := by
  unfold State.dmaUnreq
  split
  · exact State.reg_setReg_ne _ _ (h _)
  · rfl

theorem State.dmaUnreq_keeps (s : State) (n : Chan) : s.keepsTwin (s.dmaUnreq n) := by
  have stat := s.dmaUnreq_reg n (q := .TW_STAT) (i := 0) qStat_ne_twStat
  revert stat
  unfold State.dmaUnreq
  split <;> exact fun stat => ⟨rfl, rfl, rfl, rfl, stat⟩

theorem State.dmaIdle_keeps (s : State) (n : Chan) : s.keepsTwin (s.dmaIdle n) := by
  obtain ⟨twin, sys, mem, now, stat⟩ := s.dmaUnreq_keeps n
  refine ⟨twin, sys, mem, now, ?_⟩
  exact ((State.reg_setReg_ne _ _ (chStat_ne_twStat n)).trans (State.reg_setReg_ne _ _ (chStat_ne_twStat n))).trans stat

theorem State.dmaIdle_idle (s : State) (n : Chan) : (s.dmaIdle n).dmaBusy n = false := by
  have ended : (s.dmaIdle n).fld F.DCHn_STAT_BUSY n 0 =
      (((s.dmaUnreq n).setFld F.DCHn_STAT_BUSY n 0 0).setFld F.DCHn_STAT_REQ n 0 0).fld F.DCHn_STAT_BUSY n 0 := rfl
  rw [State.dmaBusy, State.flag, ended,
    State.fld_setFld_apart _ 0 (f := F.DCHn_STAT_REQ) (g := F.DCHn_STAT_BUSY) rfl (by decide) (by decide) (by decide),
    State.fld_setFld_same _ F.DCHn_STAT_BUSY n 0 0 (by decide)]
  rfl

theorem State.dmaIdle_other (s : State) {m n : Chan} (h : m ≠ n) : (s.dmaIdle n).dmaBusy m = s.dmaBusy m := by
  have kept : (s.dmaIdle n).reg .DCHn_STAT m 0 = s.reg .DCHn_STAT m 0 :=
    ((State.reg_setReg_ne _ _ (chStat_ne_chStat h)).trans (State.reg_setReg_ne _ _ (chStat_ne_chStat h))).trans
      (s.dmaUnreq_reg n fun q => chStat_ne_qStat m q)
  exact congrArg (fun w => getBits w 1 1 != 0) kept

/-- Every chain of a list of channels ends. -/
def State.chainsEnd (s : State) (l : List Chan) : State := l.foldl (fun s n => if s.dmaBusy n then s.dmaIdle n else s) s

theorem State.chainsEnd_keeps (s : State) (l : List Chan) : s.keepsTwin (s.chainsEnd l) :=
  foldl_keeps s.keepsTwin (fun t n h => by
    split
    · exact h.trans (t.dmaIdle_keeps n)
    · exact h) l s ⟨rfl, rfl, rfl, rfl, rfl⟩

theorem State.chainsEnd_idle (l : List Chan) : ∀ (s : State) (n : Chan), n ∈ l ∨ s.dmaBusy n = false → (s.chainsEnd l).dmaBusy n = false := by
  induction l with
  | nil => exact fun s n h => h.resolve_left List.not_mem_nil
  | cons m l ih =>
    intro s n h
    refine ih _ n ?_
    by_cases listed : n ∈ l
    · exact .inl listed
    · right
      by_cases same : n = m
      · rw [same]
        dsimp only
        split
        · exact s.dmaIdle_idle m
        · next idle => exact Bool.eq_false_iff.2 idle
      · have idle : s.dmaBusy n = false := h.resolve_left fun g => (List.mem_cons.1 g).elim same listed
        dsimp only
        split
        · exact (s.dmaIdle_other same).trans idle
        · exact idle

/-- Registers whose content outlasts the end of the work in flight: all but the queues'. -/
def outsideQueues (a : Nat) : Bool :=
  match regAt a with
  | some (.Qn_PTR, _, _) => false
  | some (.Qn_STAT, _, _) => false
  | _ => true

/-- The family has an address from `lo` to `hi`. -/
def RegName.reaches (r : RegName) (lo hi : Nat) : Bool :=
  decide (r.base ≤ hi) && decide (lo ≤ r.base + (r.dims.1.1 - 1) * r.dims.1.2 + (r.dims.2.1 - 1) * r.dims.2.2)

theorem RegName.indexOf_reaches {r : RegName} {a lo hi : Nat} (h1 : lo ≤ a) (h2 : a ≤ hi) (h : r.reaches lo hi = false) :
    r.indexOf a = none := by
  unfold RegName.indexOf
  dsimp only
  split
  · rfl
  · refine if_neg fun ⟨hi', hj', e⟩ => ?_
    rw [RegName.addr] at e
    have x := Nat.mul_le_mul_right r.dims.1.2 (Nat.le_sub_one_of_lt hi')
    have y := Nat.mul_le_mul_right r.dims.2.2 (Nat.le_sub_one_of_lt hj')
    simp only [RegName.reaches, Bool.and_eq_false_iff, decide_eq_false_iff_not] at h
    omega

/-- The register at an address is among the families that have addresses near it. -/
theorem regAt_near {a lo hi : Nat} (h1 : lo ≤ a) (h2 : a ≤ hi) :
    regAt a = (RegName.all.filter (RegName.reaches · lo hi)).findSome? fun r => (r.indexOf a).map fun ij => (r, ij.1, ij.2) := by
  unfold regAt
  generalize RegName.all = l
  induction l with
  | nil => rfl
  | cons r l ih =>
    rw [List.findSome?_cons, List.filter_cons]
    cases near : r.reaches lo hi with
    | true => rw [if_pos rfl, List.findSome?_cons, ih]
    | false =>
      rw [if_neg Bool.false_ne_true, RegName.indexOf_reaches h1 h2 near]
      exact ih

theorem queue_families : RegName.all.filter (RegName.reaches · 0x42100000 0x42103FFF) =
    [.Qn_CFG, .Qn_STAT, .Qn_MARK, .Qn_TAIL, .Qn_TAIL_EOP, .Qn_HEADTAG, .Qn_HEAD, .Qn_CTRL, .Qn_PTR, .Qn_DROPS, .Qn_STALL, .Qn_UNDER] := by
  decide +kernel

theorem regAt_qPtr (q : QId) : regAt (RegName.Qn_PTR.addr q 0) = some (.Qn_PTR, q.val, 0) := by
  rw [regAt_near (lo := 0x42100000) (hi := 0x42103FFF) (by simp only [RegName.addr, RegName.base]; omega)
    (by simp only [RegName.addr, RegName.base, RegName.dims]; omega), queue_families]
  revert q
  decide +kernel

theorem channel_families : RegName.all.filter (RegName.reaches · 0x42000000 0x420003FF) =
    [.DCHn_CFG, .DCHn_STAT, .DCHn_DESC, .DCHn_CTRL, .DCHn_CNT, .DCHn_CUR, .DCHn_OVR] := by decide +kernel

theorem outsideQueues_chStat (n : Chan) : outsideQueues (RegName.DCHn_STAT.addr n 0) = true := by
  rw [outsideQueues, regAt_near (lo := 0x42000000) (hi := 0x420003FF) (by simp only [RegName.addr, RegName.base]; omega)
    (by simp only [RegName.addr, RegName.base, RegName.dims]; omega), channel_families]
  revert n
  decide +kernel

theorem State.flightDrop_reg (s : State) (q : RegName) (i : Nat) :
    s.flightDrop.reg q i 0 = if outsideQueues (q.addr i 0) then (s.chainsEnd (List.finRange 32)).reg q i 0 else regDefault (q.addr i 0) := by
  have kept : s.flightDrop.regs = (s.chainsEnd (List.finRange 32)).regs.filter fun e => outsideQueues e.1 := rfl
  rw [State.reg, kept, SMap.get, SMap.find?_filter]
  cases outsideQueues (q.addr i 0) <;> rfl

theorem State.flightDrop_spec (s : State) :
    let u := s.flightDrop
    u.dma.block = none ∧ u.twin = { s.twin with tx := none } ∧ (∀ n : Chan, u.dmaBusy n = false) ∧
      (∀ q : QId, u.reg .Qn_PTR q 0 = RegName.Qn_PTR.reset q 0) ∧ u.mem = s.mem ∧ u.sys = s.sys ∧ u.now = s.now ∧
      u.reg .TW_STAT 0 0 = s.reg .TW_STAT 0 0 := by
  obtain ⟨twin, sys, mem, now, stat⟩ := s.chainsEnd_keeps (List.finRange 32)
  refine ⟨rfl, ?_, fun n => ?_, fun q => ?_, mem, sys, now, ?_⟩
  · exact congrArg (fun w : TwinSt => { w with tx := none }) twin
  · have reg : s.flightDrop.reg .DCHn_STAT n 0 = (s.chainsEnd (List.finRange 32)).reg .DCHn_STAT n 0 :=
      (s.flightDrop_reg .DCHn_STAT n).trans (if_pos (outsideQueues_chStat n))
    exact (congrArg (fun w => getBits w 1 1 != 0) reg).trans (State.chainsEnd_idle _ s n (.inl (List.mem_finRange n)))
  · have gone : outsideQueues (RegName.Qn_PTR.addr q 0) = false := by rw [outsideQueues, regAt_qPtr]
    rw [s.flightDrop_reg .Qn_PTR q, gone, regDefault, regAt_qPtr]
    rfl
  · exact ((s.flightDrop_reg .TW_STAT 0).trans (if_pos (by decide +kernel))).trans stat

/-! ## The release -/

theorem qPtr_ne_twStat (q : QId) : RegName.Qn_PTR.addr q 0 ≠ RegName.TW_STAT.addr 0 0 := by
  have := q.isLt
  simp [RegName.addr, RegName.base, RegName.dims]
  omega

/-- The work in flight is gone (R404, R406). -/
def State.workDropped (s u : State) : Prop :=
  u.dma.block = none ∧ u.twin.tx = none ∧ (∀ n : Chan, u.dmaBusy n = false) ∧
    (∀ q : QId, u.reg .Qn_PTR q 0 = RegName.Qn_PTR.reset q 0) ∧ u.mem = s.mem

/-- TW_OWN is low and the work in flight gone; fields of the twin status but OWN are as they were. -/
theorem State.ownDropped_spec (s : State) :
    let u := (s.setOwn false).flightDrop
    s.workDropped u ∧ u.fld F.TW_STAT_OWN 0 0 = 0 ∧ u.sys = s.sys ∧ u.twin = { s.twin with tx := none } ∧
      ∀ f ∈ [F.TW_STAT_FHOLD, F.TW_STAT_OWN_IN], u.fld f 0 0 = s.fld f 0 0 := by
  obtain ⟨block, twin, busy, ptr, mem, sys, -, stat⟩ := (s.setOwn false).flightDrop_spec
  refine ⟨⟨block, by rw [twin], busy, ptr, mem⟩, ?_, sys, twin, fun f hf => ?_⟩
  · exact (congrArg (getBits · 3 3) stat).trans (State.fld_setFld_same s F.TW_STAT_OWN 0 0 0 (by decide))
  · have apart : f.reg = .TW_STAT ∧ f.hi < 32 ∧ (f.hi < 3 ∨ 3 < f.lo) := by
      simp only [List.mem_cons, List.not_mem_nil, or_false] at hf
      rcases hf with rfl | rfl <;> decide
    obtain ⟨hr, hh, ha⟩ := apart
    rw [State.fld, hr, stat, ← hr]
    exact State.fld_setFld_apart s 0 (f := F.TW_STAT_OWN) (g := f) hr (by decide) hh ha

theorem State.workDropped.setFld {s u : State} (h : s.workDropped u) (f : Fld) (v : Nat) (hf : f.reg = .TW_STAT) :
    s.workDropped (u.setFld f 0 0 v) := by
  obtain ⟨block, tx, busy, ptr, mem⟩ := h
  refine ⟨block, tx, fun n => ?_, fun q => ?_, mem⟩
  · exact (congrArg (· != 0) (State.fld_setFld_ne u v (g := F.DCHn_STAT_BUSY) (k := n) (l := 0) (by rw [hf]; exact (chStat_ne_twStat n).symm))).trans (busy n)
  · exact (State.reg_setReg_ne u _ (by rw [hf]; exact qPtr_ne_twStat q)).trans (ptr q)

/-- A release out of fault-hold (R399). -/
theorem State.release_hold {s : State} (h : s.flag F.TW_STAT_FHOLD 0 0 = true) :
    let u := s.release
    u.flag F.TW_STAT_OWN 0 0 = false ∧ u.flag F.TW_STAT_FHOLD 0 0 = false ∧ u.twin.leaveAt = some (s.now + 2, .safeHold) ∧ u.sys = s.sys ∧
      s.workDropped u ∧ u.ownIn = s.ownIn := by
  obtain ⟨dropped, own, sys, -, kept⟩ := s.ownDropped_spec
  have held : (s.setOwn false).flag F.TW_STAT_FHOLD 0 0 = true :=
    (congrArg (· != 0) (State.fld_setFld_apart s 0 (f := F.TW_STAT_OWN) (g := F.TW_STAT_FHOLD) rfl (by decide) (by decide) (by decide))).trans h
  have eq : s.release = (((s.setOwn false).flightDrop.setFld F.TW_STAT_FHOLD 0 0 0).unsched .faultHoldExpiry).modTwin
      fun w => { w with leaveAt := some (s.now + 2, .safeHold) } := if_pos held
  have low := dropped.setFld F.TW_STAT_FHOLD 0 rfl
  dsimp only
  rw [eq]
  generalize (s.setOwn false).flightDrop = d at own sys kept low
  refine ⟨congrArg (· != 0) ((State.fld_setFld_apart d 0 (f := F.TW_STAT_FHOLD) (g := F.TW_STAT_OWN) rfl (by decide) (by decide)
    (by decide)).trans own), congrArg (· != 0) (State.fld_setFld_same d F.TW_STAT_FHOLD 0 0 0 (by decide)), rfl, sys, low, ?_⟩
  exact congrArg (· != 0) ((State.fld_setFld_apart d 0 (f := F.TW_STAT_FHOLD) (g := F.TW_STAT_OWN_IN) rfl (by decide) (by decide)
    (by decide)).trans (kept F.TW_STAT_OWN_IN (by decide)))

/-- A release after a SWITCH (R406). -/
theorem State.release_switch {s : State} (h : s.flag F.TW_STAT_FHOLD 0 0 = false) (hm : s.mode = .runActive) (hs : s.twin.switch = true) :
    let u := s.release
    u.flag F.TW_STAT_OWN 0 0 = false ∧ u.twin.switch = false ∧ u.twin.armed = false ∧ u.twin.leaveAt = some (s.now + 2, .runStandby) ∧
      u.sys = s.sys ∧ s.workDropped u ∧ u.ownIn = s.ownIn := by
  obtain ⟨⟨block, tx, busy, ptr, mem⟩, own, sys, -, kept⟩ := s.ownDropped_spec
  have free : (s.setOwn false).flag F.TW_STAT_FHOLD 0 0 = false :=
    (congrArg (· != 0) (State.fld_setFld_apart s 0 (f := F.TW_STAT_OWN) (g := F.TW_STAT_FHOLD) rfl (by decide) (by decide) (by decide))).trans h
  have mode : (s.setOwn false).mode = .runActive := ((s.mode_setFld_ne F.TW_STAT_OWN 0 0 0 (by decide)) :).trans hm
  have eq : s.release = (s.setOwn false).flightDrop.modTwin
      fun w => { w with leaveAt := some (s.now + 2, .runStandby), switch := false, armed := false } :=
    (if_neg (by rw [free]; decide)).trans (if_pos ⟨mode, hs⟩)
  dsimp only
  rw [eq]
  exact ⟨congrArg (· != 0) own, rfl, rfl, rfl, sys, ⟨block, tx, busy, ptr, mem⟩, congrArg (· != 0) (kept F.TW_STAT_OWN_IN (by decide))⟩

/-- The device sees TW_OWN_IN rise. -/
def State.ownInSeen (s : State) : State := (s.setFld F.TW_STAT_OWN_IN 0 0 1).modTwin fun t => { t with ownAt := s.now }

theorem State.ownInSeen_flag (s : State) (f : Fld) (hr : f.reg = .TW_STAT) (h : f.hi < 32 ∧ (f.hi < 4 ∨ 4 < f.lo)) :
    s.ownInSeen.flag f 0 0 = s.flag f 0 0 :=
  congrArg (· != 0) (State.fld_setFld_apart s 1 (f := F.TW_STAT_OWN_IN) (g := f) hr (by decide) h.1 h.2)

theorem State.ownInSeen_ownIn (s : State) : s.ownInSeen.ownIn = true :=
  congrArg (· != 0) (State.fld_setFld_same s F.TW_STAT_OWN_IN 0 0 1 (by decide))

/-- Safe-Hold after a fault or the loss of the clock (R381). -/
def State.faultHeld (s : State) : Bool :=
  decide (s.sys.mode = .safeHold) && decide (s.fld F.SYS_SAFE_CAUSE 0 0 = 1 ∨ s.fld F.SYS_SAFE_CAUSE 0 0 = 5)

theorem exec_ownInRise (s : State) :
    exec .ownInRise s = let u := s.ownInSeen
      .next (if !u.flag F.TW_STAT_OWN 0 0 then u
        else if u.flag F.TW_STAT_FHOLD 0 0 || u.twin.switch || u.faultHeld then u.release
        else u.sched 3 .dualOwn) := rfl

theorem exec_ownInRise_release {s : State} (own : s.flag F.TW_STAT_OWN 0 0 = true)
    (h : s.flag F.TW_STAT_FHOLD 0 0 = true ∨ s.twin.switch = true) : exec .ownInRise s = .next s.ownInSeen.release := by
  have owns : s.ownInSeen.flag F.TW_STAT_OWN 0 0 = true := (s.ownInSeen_flag F.TW_STAT_OWN rfl (by decide)).trans own
  have goes : (s.ownInSeen.flag F.TW_STAT_FHOLD 0 0 || s.ownInSeen.twin.switch || s.ownInSeen.faultHeld) = true := by
    rw [s.ownInSeen_flag F.TW_STAT_FHOLD rfl (by decide), show s.ownInSeen.twin.switch = s.twin.switch from rfl]
    rcases h with h | h <;> simp [h]
  rw [exec_ownInRise]
  exact congrArg Host.Outcome.next ((if_neg (by rw [owns]; decide)).trans (if_pos goes))

theorem exec_ownInRise_dual {s : State} (own : s.flag F.TW_STAT_OWN 0 0 = true) (hf : s.flag F.TW_STAT_FHOLD 0 0 = false)
    (hs : s.twin.switch = false) (hm : s.sys.mode ≠ .safeHold) : exec .ownInRise s = .next (s.ownInSeen.sched 3 .dualOwn) := by
  have owns : s.ownInSeen.flag F.TW_STAT_OWN 0 0 = true := (s.ownInSeen_flag F.TW_STAT_OWN rfl (by decide)).trans own
  have stays : (s.ownInSeen.flag F.TW_STAT_FHOLD 0 0 || s.ownInSeen.twin.switch || s.ownInSeen.faultHeld) = false := by
    rw [s.ownInSeen_flag F.TW_STAT_FHOLD rfl (by decide), show s.ownInSeen.twin.switch = s.twin.switch from rfl, State.faultHeld,
      show s.ownInSeen.sys = s.sys from rfl]
    simp [hf, hs, hm]
  rw [exec_ownInRise]
  exact congrArg Host.Outcome.next ((if_neg (by rw [owns]; decide)).trans (if_neg (by rw [stays]; decide)))

theorem exec_dualOwn {s : State} (own : s.flag F.TW_STAT_OWN 0 0 = true) (hf : s.flag F.TW_STAT_FHOLD 0 0 = false)
    (hs : s.twin.switch = false) : exec .dualOwn s = .next (if s.ownIn then s.evcRaise 0x1A7 else s) := by
  refine congrArg Host.Outcome.next (if_congr ?_ rfl rfl)
  rw [own, hf, hs]
  simp

end Sys2Proof.Machine
end

