-- ==== Sys2Proof/Proofs/Takeover.lean ====
section
/-! PROOF. Handover: the takeover and what it records. -/

namespace Sys2Proof.Machine

/-! ## Epochs dropped -/

/-- Epochs are discarded one by one, each counted. -/
theorem State.epochDiscards (l : List (Nat × Nat)) : ∀ s : State,
    let u := l.foldl (fun s _ => s.epochDiscard) s
    u.fld F.TW_ERR_CNT_EPDISC 0 0 = min F.TW_ERR_CNT_EPDISC.max (s.fld F.TW_ERR_CNT_EPDISC 0 0 + l.length) ∧
      (s.twin.rxLen = 0 → u.twin.rxLen = 0) ∧ u.sys = s.sys ∧ u.now = s.now ∧
      (∀ q i, q.addr i 0 ≠ RegName.TW_ERR_CNT.addr 0 0 → u.reg q i 0 = s.reg q i 0) := by
  induction l with
  | nil => exact fun s => ⟨by have := s.fld_le_max F.TW_ERR_CNT_EPDISC 0 0; simp [this], id, rfl, rfl, fun _ _ _ => rfl⟩
  | cons e l ih =>
    intro s
    obtain ⟨count, len, sys, now, reg⟩ := ih s.epochDiscard
    have one : s.epochDiscard.fld F.TW_ERR_CNT_EPDISC 0 0 = min F.TW_ERR_CNT_EPDISC.max (s.fld F.TW_ERR_CNT_EPDISC 0 0 + 1) :=
      s.fld_bump_same F.TW_ERR_CNT_EPDISC 0 0 (by decide)
    refine ⟨?_, fun _ => len rfl, sys, now, fun q i h => (reg q i h).trans (State.reg_setReg_ne _ _ h)⟩
    rw [List.foldl_cons, count, one, List.length_cons]
    omega

theorem State.epochsDrop_spec (s : State) :
    let u := s.epochsDrop
    u.fld F.TW_ERR_CNT_EPDISC 0 0 = min F.TW_ERR_CNT_EPDISC.max
        (s.fld F.TW_ERR_CNT_EPDISC 0 0 + (if s.twin.rxLen = 0 then 0 else 1) + s.twin.rxWait.length) ∧
      u.twin.rxLen = 0 ∧ u.twin.rxWait = [] ∧ u.sys = s.sys ∧ u.now = s.now ∧
      (∀ q i, q.addr i 0 ≠ RegName.TW_ERR_CNT.addr 0 0 → u.reg q i 0 = s.reg q i 0) := by
  let v := if s.twin.rxLen = 0 then s else s.epochDiscard
  have first : v.fld F.TW_ERR_CNT_EPDISC 0 0 = min F.TW_ERR_CNT_EPDISC.max
      (s.fld F.TW_ERR_CNT_EPDISC 0 0 + (if s.twin.rxLen = 0 then 0 else 1)) ∧ v.twin.rxLen = 0 ∧ v.twin.rxWait = s.twin.rxWait ∧
      v.sys = s.sys ∧ v.now = s.now ∧ (∀ q i, q.addr i 0 ≠ RegName.TW_ERR_CNT.addr 0 0 → v.reg q i 0 = s.reg q i 0) := by
    dsimp only [v]
    split
    · next h => exact ⟨by have := s.fld_le_max F.TW_ERR_CNT_EPDISC 0 0; simp [this], h, rfl, rfl, rfl, fun _ _ _ => rfl⟩
    · exact ⟨s.fld_bump_same F.TW_ERR_CNT_EPDISC 0 0 (by decide), rfl, rfl, rfl, rfl, fun q i h => State.reg_setReg_ne _ _ h⟩
  obtain ⟨hcount, hlen, hwait, hsys, hnow, hreg⟩ := first
  obtain ⟨count, len, sys, now, reg⟩ := State.epochDiscards v.twin.rxWait v
  refine ⟨?_, len hlen, rfl, sys.trans hsys, now.trans hnow, fun q i h => (reg q i h).trans (hreg q i h)⟩
  refine (count : _).trans ?_
  rw [hcount, hwait]
  omega

/-! ## Position interfaces -/

/-- Positions are taken over: their status alone among the registers. -/
def State.keepsButPos (s t : State) : Prop :=
  t.twin = s.twin ∧ t.sys = s.sys ∧ t.now = s.now ∧
    ∀ q i, (∀ n : PosId, q.addr i 0 ≠ RegName.POSn_STAT.addr n 0) → t.reg q i 0 = s.reg q i 0

theorem State.keepsButPos.trans {s t u : State} (h : s.keepsButPos t) (g : t.keepsButPos u) : s.keepsButPos u := by
  obtain ⟨twin, sys, now, reg⟩ := h
  obtain ⟨twin', sys', now', reg'⟩ := g
  exact ⟨twin'.trans twin, sys'.trans sys, now'.trans now, fun q i h => (reg' q i h).trans (reg q i h)⟩

theorem State.posTakeover_keeps (s : State) (n : PosId) : s.keepsButPos (s.posTakeover n) := by
  unfold State.posTakeover
  split
  · exact ⟨rfl, rfl, rfl, fun q i h => State.reg_setReg_ne _ _ (h n)⟩
  · exact ⟨rfl, rfl, rfl, fun _ _ _ => rfl⟩

theorem State.posTakeovers_keep (s : State) : s.keepsButPos ((List.finRange 8).foldl (fun s n => s.posTakeover n) s) :=
  foldl_keeps s.keepsButPos (fun t n h => h.trans (t.posTakeover_keeps n)) _ s ⟨rfl, rfl, rfl, fun _ _ _ => rfl⟩

/-! ## The takeover -/

/-- What a takeover records in TW_HO. -/
def State.takeoverWord (s : State) (forced : Bool) (at_ cause : Nat) : Word :=
  BitVec.ofNat 32 (cause * 2 ^ 28 + (if forced then 2 ^ 27 else 0) + min (s.now - at_) 0xFFFFFF)

/-- The device owns, in Run-Active, with the records of the handover (R402, R403). -/
def State.takeoverOwned (s : State) (forced : Bool) (at_ cause : Nat) : State :=
  let s := s.setReg .TW_HO 0 0 (s.takeoverWord forced at_ cause)
  let s := (((s.unsched .agreementForced).setOwn true).setMode .runActive).setReg .TW_GEN 0 0 ((s.reg .TW_GEN 0 0 + 1) &&& 0xFFFF)
  let s := s.setReg .TW_HO_EPOCH 0 0 (s.reg .TW_EPOCH_SEQ 0 0)
  s.setReg .TW_EPOCH_ACKED 0 0 (s.reg .TW_EPOCH_SEQ 0 0)

/-- It is the active of its pair, or alone. -/
def State.takeoverOwns (s : State) (forced : Bool) (at_ cause : Nat) : State :=
  (((s.takeoverOwned forced at_ cause).setFld F.TW_STAT_ROLE 0 0 0).setFld F.TW_STAT_LINKLOST 0 0 0).setFld F.TW_STAT_PAIRED 0 0
    (if cause = 3 then 1 else 0)

/-- The twin block starts as the active's, and the handover is reported. -/
def State.takeoverTold (s : State) (forced : Bool) : State :=
  let now := s.now
  let s := s.modTwin fun t => { t with standby := false, lockOn := false, armed := true, periods := 0, hbAt := now, lost := false,
                                       dec := none, commit := false }
  let s := if s.ownIn then (if Config.ownHeld s.fresh then s.sched 3 .dualOwn else s).draw else s
  let s := s.evcRaise 0x1A1
  if forced then s.evcRaise 0x1A6 else s

theorem State.takeover_eq {s : State} {forced : Bool} {at_ cause : Nat} (hm : s.mode = .handover) (hd : s.twin.dec = some (at_, cause))
    (ok : cause = 2 → s.ownIn = false) : s.takeover forced =
      (((List.finRange 8).foldl (fun s n => s.posTakeover n) (s.takeoverOwns forced at_ cause)).epochsDrop).takeoverTold forced := by
  unfold State.takeover
  rw [hm, hd]
  refine (if_neg ?_).trans rfl
  rw [Bool.and_eq_true, decide_eq_true_iff]
  rintro ⟨h2, own⟩
  rw [ok h2] at own
  exact absurd own (by decide)

/-- Where the peer was lost and TW_OWN_IN is high, nothing is taken over (R381). -/
theorem State.takeover_barred {s : State} (forced : Bool) (hm : s.mode = .handover)
    (hd : s.twin.dec.any (fun x => decide (x.2 = 2)) = true) (own : s.ownIn = true) : s.takeover forced = s := by
  unfold State.takeover
  rw [hm]
  rcases dec : s.twin.dec with _ | ⟨at_, c⟩
  · rfl
  · rw [dec] at hd
    exact if_pos (by rw [own, Bool.and_true]; exact hd)

theorem getBits_ofNat {n : Nat} (h : n < 2 ^ 32) (hi lo : Nat) : getBits (BitVec.ofNat 32 n) hi lo = n / 2 ^ lo % 2 ^ (hi + 1 - lo) := by
  rw [getBits, BitVec.toNat_ushiftRight, BitVec.toNat_ofNat, Nat.mod_eq_of_lt h, Nat.shiftRight_eq_div_pow]

/-- The fields of TW_HO. -/
theorem takeoverWord_fields (s : State) (forced : Bool) (at_ : Nat) {c : Nat} (hc : c < 4) :
    getBits (s.takeoverWord forced at_ c) 31 28 = c ∧ getBits (s.takeoverWord forced at_ c) 27 27 = forced.toNat ∧
      getBits (s.takeoverWord forced at_ c) 23 0 = min (s.now - at_) 0xFFFFFF := by
  have hw : min (s.now - at_) 0xFFFFFF < 2 ^ 24 := by omega
  have hf : (if forced then 2 ^ 27 else 0) = forced.toNat * 2 ^ 27 := by cases forced <;> rfl
  have := forced.toNat_lt
  unfold State.takeoverWord
  generalize min (s.now - at_) 0xFFFFFF = w at hw
  have whole : c * 2 ^ 28 + forced.toNat * 2 ^ 27 + w < 2 ^ 32 := by omega
  rw [hf, getBits_ofNat whole, getBits_ofNat whole, getBits_ofNat whole]
  omega

/-! Rules for the two operations of the takeover that are more than one write. -/

theorem State.setOwn_twin (s : State) (b : Bool) : (s.setOwn b).twin = s.twin := rfl
theorem State.setOwn_now (s : State) (b : Bool) : (s.setOwn b).now = s.now := rfl
theorem State.setOwn_reg (s : State) (b : Bool) (q : RegName) (i j : Nat) :
    (s.setOwn b).reg q i j = (s.setFld F.TW_STAT_OWN 0 0 (if b then 1 else 0)).reg q i j := rfl
theorem State.setOwn_high (s : State) : (s.setOwn true).fld F.TW_STAT_OWN 0 0 = 1 := State.fld_setFld_same s F.TW_STAT_OWN 0 0 1 (by decide)
theorem State.setMode_fld (s : State) (m : Mode) (f : Fld) (i j : Nat) : (s.setMode m).fld f i j = s.fld f i j := rfl
theorem State.setMode_twin (s : State) (m : Mode) : (s.setMode m).twin = s.twin := rfl
theorem State.setMode_now (s : State) (m : Mode) : (s.setMode m).now = s.now := rfl
theorem State.setMode_reg (s : State) (m : Mode) (q : RegName) (i j : Nat) : (s.setMode m).reg q i j = s.reg q i j := rfl
theorem State.setMode_sys (s : State) (m : Mode) : (s.setMode m).sys.mode = m := rfl
theorem State.unsched_reg (s : State) (c : Instr) (q : RegName) (i j : Nat) : (s.unsched c).reg q i j = s.reg q i j := rfl
theorem State.setFld_reg_ne (s : State) {f : Fld} {q : RegName} {i j k l : Nat} (v : Nat) (h : q.addr k l ≠ f.reg.addr i j) :
    (s.setFld f i j v).reg q k l = s.reg q k l := State.reg_setReg_ne s _ h
theorem State.setFld_reg_same (s : State) (f : Fld) (i j v : Nat) : (s.setFld f i j v).reg f.reg i j = setBits (s.reg f.reg i j) f.hi f.lo v :=
  State.reg_setReg_same s _ _ _ _

/-- The status of a device that owns once its role is set. -/
theorem State.roleSet_spec {o : State} (h : o.fld F.TW_STAT_OWN 0 0 = 1) (k : Nat) :
    let u := ((o.setFld F.TW_STAT_ROLE 0 0 0).setFld F.TW_STAT_LINKLOST 0 0 0).setFld F.TW_STAT_PAIRED 0 0 k
    u.fld F.TW_STAT_OWN 0 0 = 1 ∧ u.fld F.TW_STAT_ROLE 0 0 = 0 ∧ u.fld F.TW_STAT_PAIRED 0 0 = k % 2 := by
  intro u
  refine ⟨?_, ?_, State.fld_setFld_same _ F.TW_STAT_PAIRED 0 0 k (by decide)⟩
  · rw [← h]
    simp (disch := decide) only [u, State.fld_setFld_apart]
  · simp (disch := decide) only [u, State.fld_setFld_apart]
    exact State.fld_setFld_same o F.TW_STAT_ROLE 0 0 0 (by decide)

theorem State.takeoverOwned_spec (s : State) (forced : Bool) (at_ cause : Nat) :
    let u := s.takeoverOwned forced at_ cause
    u.sys.mode = .runActive ∧ u.fld F.TW_STAT_OWN 0 0 = 1 ∧ u.reg .TW_GEN 0 0 = (s.reg .TW_GEN 0 0 + 1) &&& 0xFFFF ∧
      u.reg .TW_HO_EPOCH 0 0 = s.reg .TW_EPOCH_SEQ 0 0 ∧ u.reg .TW_HO 0 0 = s.takeoverWord forced at_ cause ∧
      u.reg .TW_ERR_CNT 0 0 = s.reg .TW_ERR_CNT 0 0 ∧ u.twin = s.twin ∧ u.now = s.now := by
  dsimp only [State.takeoverOwned]
  refine ⟨?_, ?_, ?_, ?_, ?_, ?_, ?_, ?_⟩
  · rw [State.setReg_sys, State.setReg_sys, State.setReg_sys, State.setMode_sys]
  · rw [State.fld_setReg_ne _ _ (by decide), State.fld_setReg_ne _ _ (by decide), State.fld_setReg_ne _ _ (by decide),
      State.setMode_fld, State.setOwn_high]
  · rw [State.reg_setReg_ne _ _ (by decide), State.reg_setReg_ne _ _ (by decide), State.reg_setReg_same, State.reg_setReg_ne _ _ (by decide)]
  · rw [State.reg_setReg_ne _ _ (by decide), State.reg_setReg_same, State.reg_setReg_ne _ _ (by decide), State.setMode_reg,
      State.setOwn_reg, State.setFld_reg_ne _ _ (by decide), State.unsched_reg, State.reg_setReg_ne _ _ (by decide)]
  · rw [State.reg_setReg_ne _ _ (by decide), State.reg_setReg_ne _ _ (by decide), State.reg_setReg_ne _ _ (by decide), State.setMode_reg,
      State.setOwn_reg, State.setFld_reg_ne _ _ (by decide), State.unsched_reg, State.reg_setReg_same]
  · rw [State.reg_setReg_ne _ _ (by decide), State.reg_setReg_ne _ _ (by decide), State.reg_setReg_ne _ _ (by decide), State.setMode_reg,
      State.setOwn_reg, State.setFld_reg_ne _ _ (by decide), State.unsched_reg, State.reg_setReg_ne _ _ (by decide)]
  · rw [State.setReg_twin, State.setReg_twin, State.setReg_twin, State.setMode_twin, State.setOwn_twin, State.unsched_twin, State.setReg_twin]
  · rw [State.setReg_now, State.setReg_now, State.setReg_now, State.setMode_now, State.setOwn_now, State.unsched_now, State.setReg_now]

theorem State.takeoverTold_spec (s : State) (forced : Bool) :
    let u := s.takeoverTold forced
    u.regs = s.regs ∧ u.sys = s.sys ∧ u.twin.dec = none ∧ u.twin.rxLen = s.twin.rxLen ∧ u.twin.rxWait = s.twin.rxWait ∧
      (s.now + 1, Instr.evcEvent 0x1A1) ∈ u.cal ∧ (forced = true → (s.now + 1, Instr.evcEvent 0x1A6) ∈ u.cal) := by
  have last : ∀ (l : List (Nat × Instr)) (e : Nat × Instr), e ∈ l ++ [e] := fun l e => List.mem_append_right l List.mem_cons_self
  intro u
  obtain ⟨v, hv, hu⟩ : ∃ v : State, (v.regs = s.regs ∧ v.sys = s.sys ∧ v.twin.dec = none ∧ v.twin.rxLen = s.twin.rxLen ∧
      v.twin.rxWait = s.twin.rxWait ∧ v.now = s.now) ∧ u = if forced then (v.evcRaise 0x1A1).evcRaise 0x1A6 else v.evcRaise 0x1A1 := by
    refine ⟨_, ?_, rfl⟩
    split
    · split <;> exact ⟨rfl, rfl, rfl, rfl, rfl, rfl⟩
    · exact ⟨rfl, rfl, rfl, rfl, rfl, rfl⟩
  obtain ⟨regs, sys, dec, len, wait, now⟩ := hv
  rw [hu, ← now]
  cases forced
  · exact ⟨regs, sys, dec, len, wait, last _ _, fun h => absurd h (by decide)⟩
  · exact ⟨regs, sys, dec, len, wait, List.mem_append_left _ (last _ _), fun _ => last _ _⟩

theorem State.takeover_spec {s : State} {forced : Bool} {at_ cause : Nat} (hm : s.mode = .handover) (hd : s.twin.dec = some (at_, cause))
    (ok : cause = 2 → s.ownIn = false) (hc : cause < 4) :
    let u := s.takeover forced
    u.sys.mode = .runActive ∧ u.flag F.TW_STAT_OWN 0 0 = true ∧ u.flag F.TW_STAT_ROLE 0 0 = false ∧
      u.reg .TW_GEN 0 0 = (s.reg .TW_GEN 0 0 + 1) &&& 0xFFFF ∧ u.reg .TW_HO_EPOCH 0 0 = s.reg .TW_EPOCH_SEQ 0 0 ∧
      u.fld F.TW_HO_CAUSE 0 0 = cause ∧ u.fld F.TW_HO_FORCED 0 0 = forced.toNat ∧
      u.fld F.TW_HO_WAIT 0 0 = min (s.now - at_) 0xFFFFFF ∧ u.flag F.TW_STAT_PAIRED 0 0 = decide (cause = 3) ∧ u.twin.dec = none ∧
      (s.now + 1, Instr.evcEvent 0x1A1) ∈ u.cal ∧ (forced = true → (s.now + 1, Instr.evcEvent 0x1A6) ∈ u.cal) ∧
      u.twin.rxLen = 0 ∧ u.twin.rxWait = [] ∧
      u.fld F.TW_ERR_CNT_EPDISC 0 0 = min F.TW_ERR_CNT_EPDISC.max
        (s.fld F.TW_ERR_CNT_EPDISC 0 0 + (if s.twin.rxLen = 0 then 0 else 1) + s.twin.rxWait.length) := by
  obtain ⟨sys0, own0, gen0, epoch0, ho0, err0, twin0, now0⟩ := s.takeoverOwned_spec forced at_ cause
  have role := State.roleSet_spec own0 (if cause = 3 then 1 else 0)
  obtain ⟨own1, role1, paired1⟩ : (s.takeoverOwns forced at_ cause).fld F.TW_STAT_OWN 0 0 = 1 ∧
      (s.takeoverOwns forced at_ cause).fld F.TW_STAT_ROLE 0 0 = 0 ∧
      (s.takeoverOwns forced at_ cause).fld F.TW_STAT_PAIRED 0 0 = (if cause = 3 then 1 else 0) % 2 := role
  have reg1 : ∀ q : RegName, q.addr 0 0 ≠ RegName.TW_STAT.addr 0 0 →
      (s.takeoverOwns forced at_ cause).reg q 0 0 = (s.takeoverOwned forced at_ cause).reg q 0 0 := fun q h => by
    rw [State.takeoverOwns, State.setFld_reg_ne _ _ h, State.setFld_reg_ne _ _ h, State.setFld_reg_ne _ _ h]
  have rest : (s.takeoverOwns forced at_ cause).sys.mode = .runActive ∧ (s.takeoverOwns forced at_ cause).twin = s.twin ∧
      (s.takeoverOwns forced at_ cause).now = s.now := by
    rw [State.takeoverOwns, State.setFld_sys, State.setFld_sys, State.setFld_sys, State.setFld_twin, State.setFld_twin, State.setFld_twin,
      State.setFld_now, State.setFld_now, State.setFld_now]
    exact ⟨sys0, twin0, now0⟩
  obtain ⟨sys1, twin1, now1⟩ := rest
  have gen1 := (reg1 .TW_GEN (by decide)).trans gen0
  have epoch1 := (reg1 .TW_HO_EPOCH (by decide)).trans epoch0
  have ho1 := (reg1 .TW_HO (by decide)).trans ho0
  have err1 := (reg1 .TW_ERR_CNT (by decide)).trans err0
  intro u
  have hu : u = _ := State.takeover_eq hm hd ok
  generalize s.takeoverOwns forced at_ cause = o at own1 role1 paired1 sys1 twin1 now1 gen1 epoch1 ho1 err1 hu
  obtain ⟨twin2, sys2, now2, reg2⟩ := o.posTakeovers_keep
  generalize (List.finRange 8).foldl (fun s n => s.posTakeover n) o = p at twin2 sys2 now2 reg2 hu
  obtain ⟨count, len, wait, sys3, now3, reg3⟩ := p.epochsDrop_spec
  generalize p.epochsDrop = e at count len wait sys3 now3 reg3 hu
  obtain ⟨regs, sys4, dec, len4, wait4, told, forcedTold⟩ := e.takeoverTold_spec forced
  rw [← hu] at regs sys4 dec len4 wait4 told forcedTold
  have kept : ∀ q : RegName, q.addr 0 0 ≠ RegName.TW_ERR_CNT.addr 0 0 → (∀ n : PosId, q.addr 0 0 ≠ RegName.POSn_STAT.addr n 0) →
      u.reg q 0 0 = o.reg q 0 0 := fun q h g => by
    rw [State.reg, regs]
    exact (reg3 q 0 h).trans (reg2 q 0 g)
  have stat := kept .TW_STAT (by decide) (by decide)
  have ho := (kept .TW_HO (by decide) (by decide)).trans ho1
  obtain ⟨hcause, hforced, hwait⟩ := takeoverWord_fields s forced at_ hc
  have now5 : e.now = s.now := now3.trans (now2.trans now1)
  rw [now5] at told forcedTold
  refine ⟨by rw [sys4, sys3, sys2, sys1], (congrArg (getBits · 3 3 != 0) stat).trans (congrArg (· != 0) own1),
    (congrArg (getBits · 6 6 != 0) stat).trans (congrArg (· != 0) role1), (kept .TW_GEN (by decide) (by decide)).trans gen1,
    (kept .TW_HO_EPOCH (by decide) (by decide)).trans epoch1, (congrArg (getBits · 31 28) ho).trans hcause,
    (congrArg (getBits · 27 27) ho).trans hforced, (congrArg (getBits · 23 0) ho).trans hwait, ?_, dec, told, forcedTold, len4.trans len,
    wait4.trans wait, ?_⟩
  · refine (congrArg (getBits · 7 7 != 0) stat).trans ((congrArg (· != 0) paired1).trans ?_)
    by_cases h : cause = 3 <;> simp [h]
  · have errs : p.reg .TW_ERR_CNT 0 0 = s.reg .TW_ERR_CNT 0 0 := (reg2 .TW_ERR_CNT 0 (by decide)).trans err1
    rw [State.fld_of_regs regs, count, twin2, twin1, State.fld, State.fld, show F.TW_ERR_CNT_EPDISC.reg = .TW_ERR_CNT from rfl, errs]

/-! ## Settled -/

/-- Settles O47: the decision by each trigger, the takeover of a decided handover, the release, the fourth lc of two owners. -/
theorem handover : Obligations.Handover := by
  unfold Obligations.Handover
  intro s h t w decided dropped gone
  refine ⟨fun standby => ⟨?fault, ?lost, ?switch⟩, ?owner, ?takes, ?barred, ?held, ?switched, ?dual⟩
  case fault =>
    obtain ⟨mode, dec, commit, due, regs, -⟩ :=
      ((s.setFld F.TW_STAT_FAULT_IN 0 0 1).modTwin fun t => { t with faultAt := s.now }).decideHandover_spec 1
    refine ⟨_, exec_faultInRise_standby standby, ?_, mode, dec, commit, ?_⟩
    · rw [State.flag, State.fld_of_regs regs]
      exact congrArg (· != 0) (State.fld_setFld_same s F.TW_STAT_FAULT_IN 0 0 1 (by decide))
    · have max : ((s.setFld F.TW_STAT_FAULT_IN 0 0 1).modTwin fun t => { t with faultAt := s.now }).reg .TW_AGRMAX 0 0 =
        s.reg .TW_AGRMAX 0 0 := State.setFld_reg_ne s 1 (by decide)
      rw [max] at due
      exact due
  case lost =>
    intro low
    obtain ⟨mode, dec, commit, due, -, lost⟩ := (s.modTwin fun t => { t with lost := true }).decideHandover_spec 2
    exact ⟨_, exec_peerLost_standby standby low, lost, mode, dec, commit, due⟩
  case switch =>
    intro up len flits crc
    have whole : wholeFrame 5 0 0 h t [] := ⟨len, by rw [flits]; rfl, Nat.zero_le _, by rw [flits]; exact Nat.le_refl 0, crc⟩
    obtain ⟨mode, dec, commit, due, -, -⟩ := s.decideHandover_spec 3
    exact ⟨_, exec_switch standby up whole, mode, dec, commit, due⟩
  case owner =>
    intro not1 not2 own
    refine ⟨_, exec_faultInRise_owner not1 not2 own, ?_, List.mem_append_right _ List.mem_cons_self, rfl⟩
    exact congrArg (· != 0) (State.fld_setFld_same s F.TW_STAT_FAULT_IN 0 0 1 (by decide))
  case takes =>
    intro at_ c hm hd hc ok f hf
    have spec : ∀ forced, _ := fun forced => State.takeover_spec (forced := forced) hm hd ok hc
    simp only [List.mem_cons, List.not_mem_nil, or_false] at hf
    rcases hf with rfl | rfl
    · obtain ⟨mode, own, role, gen, epoch, cause, forcd, wait, paired, dec, told, -, len, rxWait, count⟩ := spec false
      exact ⟨_, rfl, mode, own, role, gen, epoch, cause, forcd, wait, paired, dec, told, fun h => absurd h (by decide), len, rxWait, count⟩
    · obtain ⟨mode, own, role, gen, epoch, cause, forcd, wait, paired, dec, told, told', len, rxWait, count⟩ := spec true
      exact ⟨_, rfl, mode, own, role, gen, epoch, cause, forcd, wait, paired, dec, told, fun _ => told' rfl, len, rxWait, count⟩
  case barred =>
    intro hm hd own
    exact ⟨congrArg Host.Outcome.next (State.takeover_barred false hm hd own), congrArg Host.Outcome.next (State.takeover_barred true hm hd own)⟩
  case held =>
    intro _ hold
    refine ⟨?_, fun own => ?_⟩
    · obtain ⟨low, free, leave, sys, work, -⟩ := State.release_hold hold
      exact ⟨_, congrArg Host.Outcome.next (if_pos hold), low, free, leave, sys, work⟩
    · have hold' : s.ownInSeen.flag F.TW_STAT_FHOLD 0 0 = true := (s.ownInSeen_flag F.TW_STAT_FHOLD rfl (by decide)).trans hold
      obtain ⟨low, free, leave, sys, work, seen⟩ := State.release_hold hold'
      exact ⟨_, exec_ownInRise_release own (.inl hold), seen.trans s.ownInSeen_ownIn, low, free, leave, sys, work⟩
  case switched =>
    intro hm own free switch
    have free' : s.ownInSeen.flag F.TW_STAT_FHOLD 0 0 = false := (s.ownInSeen_flag F.TW_STAT_FHOLD rfl (by decide)).trans free
    have hm' : s.ownInSeen.mode = .runActive := (s.mode_twStat F.TW_STAT_OWN_IN 1 (by decide) _).trans hm
    obtain ⟨low, switch', armed, leave, sys, work, seen⟩ := State.release_switch free' hm' switch
    exact ⟨_, exec_ownInRise_release own (.inr switch), seen.trans s.ownInSeen_ownIn, low, switch', armed, leave, sys, work⟩
  case dual =>
    intro own free switch
    refine ⟨fun hm => ⟨_, exec_ownInRise_dual own free switch hm, s.ownInSeen_ownIn, ?_, State.mem_sched rfl 3 _⟩, exec_dualOwn own free switch⟩
    exact (s.ownInSeen_flag F.TW_STAT_OWN rfl (by decide)).trans own

end Sys2Proof.Machine
end

