-- ==== Sys2Proof/Proofs/EpochRecords.lean ====
section
/-! PROOF. The bytes of an epoch: words in byte lists, records, what committing a record does. -/

namespace Sys2Proof.Machine

/-! ## Words in byte lists -/

theorem leBytes_length (v n : Nat) : (leBytes v n).length = n := by
  induction n generalizing v with
  | zero => rfl
  | succ n ih => rw [leBytes, List.length_cons, ih]

/-- The four low bytes of a number read back as a word. -/
theorem wordOfBytes_leBytes (v : Nat) (tail : List Byte) : wordOfBytes (leBytes v 4 ++ tail) = BitVec.ofNat 32 v := by
  apply BitVec.eq_of_toNat_eq
  simp [wordOfBytes, leBytes]
  omega

/-- The words of a byte list, by their place. -/
theorem bytesToWords_getElem? (bs : List Byte) (i : Nat) (h : 4 * i + 4 ≤ bs.length) : (bytesToWords bs)[i]? = some (wordAt bs (4 * i)) := by
  induction bs using bytesToWords.induct generalizing i with
  | case1 a b c d bs ih =>
    cases i with
    | zero => rfl
    | succ i =>
      have step : (a :: b :: c :: d :: bs).drop (4 * (i + 1)) = bs.drop (4 * i) := by
        rw [show 4 * (i + 1) = 4 * i + 4 by omega]
        rfl
      simp only [List.length_cons] at h
      rw [bytesToWords, List.getElem?_cons_succ, ih i (by omega), wordAt, wordAt, step]
  | case2 bs short =>
    match bs, h with
    | a :: b :: c :: d :: bs, _ => exact absurd rfl (short a b c d bs)

theorem bytesToWords_length (bs : List Byte) : (bytesToWords bs).length = bs.length / 4 := by
  induction bs using bytesToWords.induct with
  | case1 a b c d bs ih =>
    rw [bytesToWords, List.length_cons, ih]
    simp only [List.length_cons]
    omega
  | case2 bs short =>
    match bs with
    | [] => rfl
    | [_] => simp [bytesToWords]
    | [_, _] => simp [bytesToWords]
    | [_, _, _] => simp [bytesToWords]
    | a :: b :: c :: d :: bs => exact absurd rfl (short a b c d bs)

/-! ## Records -/

variable (ty ix a : Nat) (d tail : List Byte)

theorem epochRecord_head : wordAt (epochRecord ty ix a d ++ tail) 0 = BitVec.ofNat 32 (ty * 2 ^ 24 + ix * 65536 + d.length / 4) := by
  simp only [wordAt, epochRecord, List.append_assoc, List.drop_zero]
  exact wordOfBytes_leBytes _ _

theorem epochRecord_drop (n : Nat) (v : Nat) (l : List Byte) : (leBytes v n ++ l).drop n = l := by
  rw [List.drop_append_of_le_length (by rw [leBytes_length]), List.drop_of_length_le (by rw [leBytes_length]), List.nil_append]

theorem epochRecord_addr : wordAt (epochRecord ty ix a d ++ tail) 4 = BitVec.ofNat 32 a := by
  simp only [wordAt, epochRecord, List.append_assoc]
  rw [epochRecord_drop]
  exact wordOfBytes_leBytes _ _

theorem epochRecord_data : (epochRecord ty ix a d ++ tail).drop 8 = d ++ tail := by
  rw [show 8 = 4 + 4 from rfl, ← List.drop_drop]
  simp only [epochRecord, List.append_assoc]
  rw [epochRecord_drop, epochRecord_drop]

/-- The head of a record says its kind, its index and its length. -/
theorem epochRecord_fields {ty ix a : Nat} {d tail : List Byte} (ht : ty < 256) (hi : ix < 256) (hd : d.length % 4 = 0)
    (hl : d.length < 262144) :
    let w := (wordAt (epochRecord ty ix a d ++ tail) 0).toNat
    w / 2 ^ 24 = ty ∧ w / 65536 % 256 = ix ∧ w % 65536 * 4 = d.length := by
  rw [epochRecord_head, BitVec.toNat_ofNat]
  omega

/-! ## Commits -/

/-- What the record of one kind does in the commit lc (R395). -/
def State.commitRecord (s : State) (ty ix : Nat) (d : List Byte) : State :=
  if ty = 1 ∧ ix < 8 then s.leCommit (Fin.ofNat 8 ix) (bytesToWords d)
  else if ty = 2 then
    s.modTwin fun t => { t with mirror := Vector.ofFn fun i => { t.mirror[i] with
      per := (wordAt d (16 * i.val)).toNat % 65536
      cmpb := (wordAt d (16 * i.val + 8)).toNat % 2 ^ 24
      mode := (wordAt d (16 * i.val + 12)).toNat % 8 } }
  else s

theorem State.commitRecords_succ (s : State) (k : Nat) (bs : List Byte) :
    s.commitRecords (k + 1) bs =
      let w := (wordAt bs 0).toNat
      let t := s.commitRecord (w / 2 ^ 24) (w / 65536 % 256) ((bs.drop 8).take (w % 65536 * 4))
      if w / 2 ^ 24 = 0 then t else t.commitRecords k (bs.drop (8 + w % 65536 * 4)) := rfl

theorem State.commitRecords_record (s : State) (k : Nat) {ty ix a : Nat} {d tail : List Byte} (h0 : ty ≠ 0) (ht : ty < 256)
    (hi : ix < 256) (hd : d.length % 4 = 0) (hl : d.length < 262144) :
    s.commitRecords (k + 1) (epochRecord ty ix a d ++ tail) = (s.commitRecord ty ix d).commitRecords k tail := by
  obtain ⟨kind, index, len⟩ := epochRecord_fields (a := a) (tail := tail) ht hi hd hl
  have data : ((epochRecord ty ix a d ++ tail).drop 8).take d.length = d := by
    rw [epochRecord_data, List.take_left]
  have rest : (epochRecord ty ix a d ++ tail).drop (8 + d.length) = tail := by
    rw [← List.drop_drop, epochRecord_data, List.drop_left]
  rw [State.commitRecords_succ]
  dsimp only
  rw [kind, index, len, if_neg h0, data, rest]

/-- The end of an epoch commits nothing. -/
theorem State.commitRecords_end (s : State) (k : Nat) : s.commitRecords k (List.replicate 12 0) = s := by
  cases k with
  | zero => rfl
  | succ k => rfl

/-- A region record within SRAM is stored (R395). -/
theorem State.commitRegions_record (s : State) (k : Nat) {ix a : Nat} {d tail : List Byte} (hi : ix < 256) (hd : d.length % 4 = 0)
    (hl : d.length < 262144) (ha : 0x20000000 ≤ a) (hb : a + d.length ≤ 0x21800000) :
    s.commitRegions (k + 1) (epochRecord 3 ix a d ++ tail) = (s.putMem a d).commitRegions k tail := by
  obtain ⟨kind, -, len⟩ := epochRecord_fields (ty := 3) (a := a) (tail := tail) (by decide) hi hd hl
  have addr : (wordAt (epochRecord 3 ix a d ++ tail) 4).toNat = a := by
    rw [epochRecord_addr, BitVec.toNat_ofNat]
    omega
  have data : ((epochRecord 3 ix a d ++ tail).drop 8).take d.length = d := by
    rw [epochRecord_data, List.take_left]
  have rest : (epochRecord 3 ix a d ++ tail).drop (8 + d.length) = tail := by
    rw [← List.drop_drop, epochRecord_data, List.drop_left]
  rw [State.commitRegions, kind, len, addr, if_neg (show ¬(3 : Nat) = 0 by decide), if_pos ⟨rfl, ha, hb⟩, data, rest]

/-! ## What commits leave alone -/

/-- t is s but for memory, engines, the matrix and the mirrors. -/
def State.epochOnly (s t : State) : Prop :=
  ∃ mem le mx mirror, t = { s with mem := mem, le := le, mx := mx, twin := { s.twin with mirror := mirror } }

theorem State.epochOnly.refl (s : State) : s.epochOnly s := ⟨_, _, _, _, rfl⟩

theorem State.epochOnly.trans {s t u : State} (h : s.epochOnly t) (g : t.epochOnly u) : s.epochOnly u := by
  obtain ⟨_, _, _, _, rfl⟩ := h
  obtain ⟨_, _, _, _, rfl⟩ := g
  exact ⟨_, _, _, _, rfl⟩

/-- Words put into the state area one by one are words stored in a row. -/
theorem State.lePuts_eq (n : LeId) (ws : List Word) : ∀ (s : State) (k : Nat),
    (ws.zipIdx k).foldl (fun s x => s.lePut n (4 * x.2) x.1) s = s.setWords (leState n + 4 * k) ws := by
  induction ws with
  | nil => exact fun _ _ => rfl
  | cons w ws ih =>
    intro s k
    rw [List.zipIdx_cons, List.foldl_cons, ih, State.setWords]
    rfl

/-- The jobs of an engine after a commit. -/
def State.jobsCommitted (s : State) (n : LeId) : State :=
  [Pipe.cur, .vlt, .ftr, .prf, .obs].foldl (fun s p =>
    match (s.lePipe n p).job with
    | some j =>
      let j' := if j.at_ = s.now then s.leCompute n p j else { j with keep := false }
      s.modPipe n p fun x => { x with job := some j' }
    | none => s) s

theorem State.leCommit_eq (s : State) (n : LeId) (ws : List Word) :
    s.leCommit n ws = (let t := s.setWords (leState n) ws; t.setLv (leSrc n + 13) (t.leCoasts n && t.mode.run)).jobsCommitted n := by
  have puts := State.lePuts_eq n ws s 0
  exact congrArg (fun t : State => (t.setLv (leSrc n + 13) (t.leCoasts n && t.mode.run)).jobsCommitted n) puts

/-- Jobs are engines' alone. -/
theorem State.jobsCommitted_le (s : State) (n : LeId) : ∃ le, s.jobsCommitted n = { s with le := le } := by
  refine foldl_keeps (fun t => ∃ le, t = { s with le := le }) (fun t p h => ?_) _ s ⟨_, rfl⟩
  obtain ⟨le, rfl⟩ := h
  dsimp only
  split
  · exact ⟨_, rfl⟩
  · exact ⟨_, rfl⟩

theorem State.leCommit_only (s : State) (n : LeId) (ws : List Word) : s.epochOnly (s.leCommit n ws) := by
  rw [State.leCommit_eq]
  obtain ⟨le, h⟩ := State.jobsCommitted_le (let t := s.setWords (leState n) ws; t.setLv (leSrc n + 13) (t.leCoasts n && t.mode.run)) n
  rw [h]
  dsimp only
  rw [s.setWords_only_mem]
  exact ⟨_, _, _, _, rfl⟩

theorem State.leCommit_get (s : State) (n : LeId) (ws : List Word) {i : Nat} (h : i < ws.length) :
    (s.leCommit n ws).leGet n (4 * i) = ws[i] := by
  rw [State.leCommit_eq]
  obtain ⟨le, hj⟩ := State.jobsCommitted_le (let t := s.setWords (leState n) ws; t.setLv (leSrc n + 13) (t.leCoasts n && t.mode.run)) n
  rw [hj]
  exact s.word_setWords (leState n) ws i h

theorem State.commitRecord_only (s : State) (ty ix : Nat) (d : List Byte) : s.epochOnly (s.commitRecord ty ix d) := by
  unfold State.commitRecord
  split
  · exact s.leCommit_only _ _
  · split
    · exact ⟨_, _, _, _, rfl⟩
    · exact .refl s

theorem State.commitRecords_only (k : Nat) : ∀ (s : State) (bs : List Byte), s.epochOnly (s.commitRecords k bs) := by
  induction k with
  | zero => exact fun s _ => .refl s
  | succ k ih =>
    intro s bs
    rw [State.commitRecords_succ]
    dsimp only
    split
    · exact s.commitRecord_only _ _ _
    · exact (s.commitRecord_only _ _ _).trans (ih _ _)

end Sys2Proof.Machine
end

