-- ==== Sys2Proof/Proofs/Epochs.lean ====
section
/-! PROOF. Epochs: capture, pieces, commit, the end of an application. -/

namespace Sys2Proof.Machine

/-! ## Stores without upsets -/

/-- No STC of this lc can fail. -/
def State.noStcNow (s : State) : Prop := ∀ q k, (s.pair q).stc = some k → k.lc ≠ s.now

/-- A store of a master that is no pair, to places without upset, with no STC in this lc: memory, and reservations. -/
theorem State.putMem_clean {s : State} {a : Nat} {bs : List Byte} (h : s.cleanAt a bs.length) (alone : s.noStcNow) :
    ∃ v, s.putMem a bs = { s with pairs := v, mem := (s.setBytes a bs).mem } := by
  obtain ⟨v, snooped, -⟩ := State.snoop_fold none (a / 32) ((a + bs.length - 1) / 32) (List.finRange 4) (List.nodup_finRange 4) s
    fun q _ _ => alone q
  refine ⟨v, ?_⟩
  have : s.snoop none a bs.length = { s with pairs := v } := snooped
  rw [State.putMem, State.eccWrite_clean h, this]
  rfl

theorem State.cleanAt_of_none {s : State} (h : s.upset = []) (a n : Nat) : s.cleanAt a n := fun u _ => by rw [h]; rfl

/-- A store where no upset stands anywhere: memory and pairs. -/
theorem State.putMem_pairs {s : State} (h : s.upset = []) (a : Nat) (bs : List Byte) :
    ∃ m v, s.putMem a bs = { s with pairs := v, mem := m } := by
  have snooped : ∃ m v, s.snoop none a bs.length = { s with pairs := v, mem := m } := by
    refine foldl_keeps (fun t => ∃ m v, t = { s with pairs := v, mem := m }) (fun t q g => ?_) _ s ⟨_, _, rfl⟩
    obtain ⟨m, v, rfl⟩ := g
    split
    · exact ⟨_, _, rfl⟩
    · have undone : ∀ (u : State) r, (∃ m v, u = { s with pairs := v, mem := m }) →
          ∃ m v, u.stcUndo q r = { s with pairs := v, mem := m } := by
        rintro u r ⟨m, v, rfl⟩
        rw [State.stcUndo, State.setWord_only_mem]
        exact ⟨_, _, rfl⟩
      have cleared : ∀ u : State, (∃ m v, u = { s with pairs := v, mem := m }) → ∃ m v, (match (u.pair q).resv with
          | some g => if a / 32 ≤ g ∧ g ≤ (a + bs.length - 1) / 32 then
              u.modPair q fun x => { x with resv := none, lost := (none : Option Pair).map fun w => (s.now, g, w) } else u
          | none => u) = { s with pairs := v, mem := m } := by
        rintro u ⟨m, v, rfl⟩
        split
        · split <;> exact ⟨_, _, rfl⟩
        · exact ⟨_, _, rfl⟩
      refine cleared _ ?_
      split
      · split
        · exact undone _ _ ⟨_, _, rfl⟩
        · exact ⟨_, _, rfl⟩
      · exact ⟨_, _, rfl⟩
  obtain ⟨m, v, e⟩ := snooped
  rw [State.putMem, State.eccWrite_clean (State.cleanAt_of_none h _ _), e]
  exact ⟨_, _, rfl⟩

/-- Beats are asked of the banks alone. -/
theorem State.beat_ix (s : State) (m : Fin 13) (write load : Bool) (a n : Nat) : ∃ x, s.beat m write load a n = { s with ix := x } := by
  refine foldl_keeps (fun t => ∃ x, t = { s with ix := x }) (fun t k h => ?_) _ s ⟨_, rfl⟩
  obtain ⟨x, rfl⟩ := h
  dsimp only
  split <;> exact ⟨_, rfl⟩

theorem State.bytes_of_mem {s t : State} (h : t.mem = s.mem) (a n : Nat) : t.bytes a n = s.bytes a n := by
  induction n generalizing a with
  | zero => rfl
  | succ n ih => rw [State.bytes, State.bytes, ih, byte_of_mem h]

/-! ## Capture -/

/-- Regions without upset are read without fault. -/
theorem State.eccReads_clean {s : State} {l : List (Nat × Nat × Nat)} (h : ∀ x ∈ l, s.cleanAt x.2.1 x.2.2) :
    l.foldl (fun (x : Bool × State) r => let y := x.2.eccRead r.2.1 r.2.2; (x.1 || y.1, y.2)) (false, s) = (false, s) :=
  foldl_const fun r hr => by rw [State.eccRead_clean (h r hr)]; rfl

/-- An epoch as it is captured. -/
def State.captured (s : State) : State :=
  let seq := s.reg .TW_EPOCH_SEQ 0 0 + 1
  let bs := s.epochBytes seq
  let now := s.now
  ((s.setReg .TW_EPOCH_SEQ 0 0 seq).putMem (s.twBuf seq.toNat) bs).modTwin fun t => { t with tx := some (now, 0, bs) }

theorem exec_epochCapture (s : State) :
    exec .epochCapture s =
      if !s.captures then .next s
      else if !s.isLate then .next (s.defer .epochCapture)
      else if s.twin.tx.isSome then .next (s.bump F.TW_ERR_CNT_EPSKIP 0 0)
      else
        let t := s.epochRegions.foldl (fun x r => let y := x.2.eccRead r.2.1 r.2.2; (x.1 || y.1, y.2)) (false, s)
        if t.1 then .next t.2 else .next t.2.captured := rfl

theorem exec_epochCapture_late {s : State} (h : s.captures = true) (late : s.isLate = true) (free : s.twin.tx = none)
    (clean : ∀ x ∈ s.epochRegions, s.cleanAt x.2.1 x.2.2) : exec .epochCapture s = .next s.captured := by
  rw [exec_epochCapture, h, late, free, State.eccReads_clean clean]
  rfl

theorem State.captured_spec {s : State} (alone : s.noStcNow)
    (clean : s.cleanAt (s.twBuf (s.reg .TW_EPOCH_SEQ 0 0 + 1).toNat) (s.epochBytes (s.reg .TW_EPOCH_SEQ 0 0 + 1)).length) :
    let seq := s.reg .TW_EPOCH_SEQ 0 0 + 1
    let bs := s.epochBytes seq
    let a := s.twBuf seq.toNat
    let u := s.captured
    u.reg .TW_EPOCH_SEQ 0 0 = seq ∧ u.twin.tx = some (s.now, 0, bs) ∧ u.cal = s.cal ∧
      (∀ i (hi : i < bs.length), u.byte (a + i) = bs[i]) ∧ ∀ x, x < a ∨ a + bs.length ≤ x → u.byte x = s.byte x := by
  intro seq bs a u
  have numbered : (s.setReg .TW_EPOCH_SEQ 0 0 seq).noStcNow := alone
  obtain ⟨v, put⟩ := State.putMem_clean (s := s.setReg .TW_EPOCH_SEQ 0 0 seq) (a := a) (bs := bs) clean numbered
  have eq : u = State.modTwin { s.setReg .TW_EPOCH_SEQ 0 0 seq with
      pairs := v, mem := ((s.setReg .TW_EPOCH_SEQ 0 0 seq).setBytes a bs).mem } fun t => { t with tx := some (s.now, 0, bs) } := by
    rw [← put]
    rfl
  have mem : u.mem = (s.setBytes a bs).mem := by rw [eq]; rfl
  refine ⟨?_, by rw [eq]; rfl, by rw [eq]; rfl, fun i hi => ?_, fun x hx => ?_⟩
  · rw [eq]
    exact State.reg_setReg_same s _ _ _ _
  · rw [byte_of_mem mem, State.byte_setBytes, if_pos (Nat.le_add_right a i), Nat.add_sub_cancel_left, List.getElem?_eq_getElem hi]
    rfl
  · rw [byte_of_mem mem, State.byte_setBytes_ne s hx]

/-! ## Pieces -/

/-- A piece of an epoch is kept (R395). -/
def State.epochPiece (s : State) (seq : Word) (off len : Nat) (d : List Byte) : State :=
  let s := if s.twin.rxLen = 0 then s.modTwin fun w => { w with rxSeq := seq.toNat, rxLen := len, rxOffs := [] } else s
  let n := min d.length (len - off)
  let s := (s.beat 6 true false (s.twBuf seq.toNat + off) n).putMem (s.twBuf seq.toNat + off) (d.take n)
  s.modTwin fun w => { w with rxOffs := w.rxOffs ++ [(off, n)] }

theorem exec_epoch_recv (s : State) (h : TwHdr) (t d : List Byte) : exec (.epoch h t d) s =
    twRecv 2 1 16 h t d (fun s =>
      if !s.takesEpochs then s
      else
        let seq := wordAt t 0
        let off := (wordAt t 4).toNat
        let len := (wordAt t 8).toNat
        if 65536 < len ∨ len < 16 ∨ len ≤ off then s
        else
          let open_ := decide (s.twin.rxLen ≠ 0)
          if open_ && decide (seq.toNat < s.twin.rxSeq) then s
          else
            let s := if open_ && decide (seq.toNat ≠ s.twin.rxSeq) then s.epochDiscard else s
            let p := s.epochPiece seq off len d
            if len ≤ off + min d.length (len - off) then p.epochEnd seq p.twin.rxLen else p) s := by
  change execEpoch h t d s = _
  simp only [execEpoch, State.epochPiece]

/-- A piece of a new epoch, or of the one that is being received. -/
theorem exec_epoch {s : State} {h : TwHdr} {t d : List Byte} (hc : s.mode.cores = true) (hu : s.linkIsUp = true)
    (hw : wholeFrame 2 1 16 h t d) (takes : s.takesEpochs = true)
    (hlen : (wordAt t 8).toNat ≤ 65536 ∧ 16 ≤ (wordAt t 8).toNat ∧ (wordAt t 4).toNat < (wordAt t 8).toNat)
    (same : s.twin.rxLen = 0 ∨ s.twin.rxSeq = (wordAt t 0).toNat) :
    exec (.epoch h t d) s = .next
      (let p := s.epochPiece (wordAt t 0) (wordAt t 4).toNat (wordAt t 8).toNat d
       if (wordAt t 8).toNat ≤ (wordAt t 4).toNat + min d.length ((wordAt t 8).toNat - (wordAt t 4).toNat) then
         p.epochEnd (wordAt t 0) p.twin.rxLen else p) := by
  obtain ⟨h1, h2, h3⟩ := hlen
  have older : (decide (s.twin.rxLen ≠ 0) && decide ((wordAt t 0).toNat < s.twin.rxSeq)) = false := by
    rcases same with e | e <;> simp [e]
  have other : (decide (s.twin.rxLen ≠ 0) && decide ((wordAt t 0).toNat ≠ s.twin.rxSeq)) = false := by
    rcases same with e | e <;> simp [e]
  rw [exec_epoch_recv, twRecv_whole hu (State.not_retention_of_cores hc) (twWhole_iff.2 hw), takes, Bool.not_true,
    if_neg (by decide), if_neg (by omega)]
  dsimp only
  rw [older, other, if_neg Bool.false_ne_true, if_neg Bool.false_ne_true]

/-- The pieces that the epoch had. -/
def TwinSt.rxHad (w : TwinSt) : List (Nat × Nat) := if w.rxLen = 0 then [] else w.rxOffs

theorem State.epochPiece_eq {s : State} {seq : Word} {off len : Nat} (d : List Byte)
    (same : s.twin.rxLen = 0 ∨ (s.twin.rxSeq = seq.toNat ∧ s.twin.rxLen = len)) (clean : s.upset = []) (alone : s.noStcNow) :
    let n := min d.length (len - off)
    ∃ v x, s.epochPiece seq off len d = { s with
      pairs := v, ix := x, mem := (s.setBytes (s.twBuf seq.toNat + off) (d.take n)).mem
      twin := { s.twin with rxSeq := seq.toNat, rxLen := len, rxOffs := s.twin.rxHad ++ [(off, n)] } } := by
  intro n
  let opened : State := { s with twin := { s.twin with rxSeq := seq.toNat, rxLen := len, rxOffs := s.twin.rxHad } }
  have start : (if s.twin.rxLen = 0 then s.modTwin fun w => { w with rxSeq := seq.toNat, rxLen := len, rxOffs := [] } else s) = opened := by
    by_cases h : s.twin.rxLen = 0
    · rw [if_pos h]
      simp only [opened, TwinSt.rxHad, if_pos h]
      rfl
    · obtain ⟨hseq, hlen⟩ := same.resolve_left h
      rw [if_neg h]
      simp only [opened, TwinSt.rxHad, if_neg h, ← hseq, ← hlen]
  obtain ⟨x, asked⟩ := opened.beat_ix 6 true false (s.twBuf seq.toNat + off) n
  have clean' : ({ opened with ix := x } : State).cleanAt (s.twBuf seq.toNat + off) (d.take n).length :=
    State.cleanAt_of_none clean _ _
  have alone' : ({ opened with ix := x } : State).noStcNow := alone
  obtain ⟨v, put⟩ := State.putMem_clean clean' alone'
  refine ⟨v, x, ?_⟩
  rw [State.epochPiece, start]
  change ((opened.beat 6 true false (s.twBuf seq.toNat + off) n).putMem (s.twBuf seq.toNat + off) (d.take n)).modTwin _ = _
  rw [asked, put]
  rfl

end Sys2Proof.Machine
end

