-- ==== Sys2Proof/Proofs/EpochEnds.lean ====
section
/-! PROOF. Epochs: the last piece, the commit, the end of its application, the acknowledgement. -/

namespace Sys2Proof.Machine

/-! ## The last piece -/

/-- The number that the next epoch carries (R395). -/
def State.epochNext (s : State) : Word :=
  ((s.twin.rxWait.getLast?.map fun x => BitVec.ofNat 32 x.1).getD (s.reg .TW_EPOCH_SEQ 0 0)) + 1

/-- An epoch that has arrived is whole, and the next. -/
def State.epochGood (s : State) (offs : List (Nat × Nat)) (seq : Word) (len : Nat) (bs : List Byte) : Prop :=
  covered offs len = true ∧ seq = s.epochNext ∧ wordAt bs (len - 4) = crc32c (bs.take (len - 4))

/-- The pieces of an epoch are all there. -/
def State.epochClosed (s : State) : State := s.modTwin fun t => { t with rxLen := 0, rxOffs := [] }

theorem State.epochEnd_eq {s : State} (clean : s.upset = []) (seq : Word) (len : Nat) :
    s.epochEnd seq len =
      let bs := s.bytes (s.twBuf seq.toNat) len
      if covered s.twin.rxOffs len && decide (seq = s.epochNext) && decide (wordAt bs (len - 4) = crc32c (bs.take (len - 4))) then
        if s.epochClosed.flag F.TW_STAT_APPLYING 0 0 then s.epochClosed.modTwin fun t => { t with rxWait := t.rxWait ++ [(seq.toNat, len)] }
        else s.epochClosed.epochCommit seq len
      else s.epochDiscard := by
  have last : ((match s.twin.rxWait.getLast? with
      | some (q, _) => BitVec.ofNat 32 q
      | none => s.reg .TW_EPOCH_SEQ 0 0) + 1 : Word) = s.epochNext := by
    rw [State.epochNext]
    cases s.twin.rxWait.getLast? <;> rfl
  rw [State.epochEnd, State.eccRead_clean (State.cleanAt_of_none clean _ _), ← last]
  rfl

theorem State.epochEnd_good {s : State} (clean : s.upset = []) {seq : Word} {len : Nat}
    (good : s.epochGood s.twin.rxOffs seq len (s.bytes (s.twBuf seq.toNat) len)) :
    s.epochEnd seq len = if s.flag F.TW_STAT_APPLYING 0 0 then s.epochClosed.modTwin fun t => { t with rxWait := t.rxWait ++ [(seq.toNat, len)] }
      else s.epochClosed.epochCommit seq len := by
  obtain ⟨pieces, next, crc⟩ := good
  rw [State.epochEnd_eq clean]
  refine (if_pos ?_).trans rfl
  rw [pieces, decide_eq_true next, decide_eq_true crc]
  rfl

theorem State.epochEnd_bad {s : State} (clean : s.upset = []) {seq : Word} {len : Nat}
    (bad : ¬s.epochGood s.twin.rxOffs seq len (s.bytes (s.twBuf seq.toNat) len)) : s.epochEnd seq len = s.epochDiscard := by
  rw [State.epochEnd_eq clean]
  refine if_neg fun g => bad ?_
  simp only [Bool.and_eq_true, decide_eq_true_eq] at g
  exact ⟨g.1.1, g.1.2, g.2⟩

/-! ## The commit -/

theorem State.epochCommit_spec (s : State) (seq : Word) (len : Nat) :
    let u := s.epochCommit seq len
    let c := s.commitRecords 32 ((s.bytes (s.twBuf seq.toNat) len).drop 32)
    u.reg .TW_EPOCH_SEQ 0 0 = seq ∧ u.flag F.TW_STAT_APPLYING 0 0 = true ∧ u.twin.rxLen = s.twin.rxLen ∧ u.twin.rxWait = s.twin.rxWait ∧
      u.twin.out = s.twin.out ∧ (∃ k, (s.now + 1 + k, Instr.epochApplyDone) ∈ u.cal) ∧
      u.le = c.le ∧ u.mem = c.mem ∧ u.mx = c.mx ∧ u.twin.mirror = c.twin.mirror := by
  intro u c
  have only : s.epochOnly c := State.commitRecords_only 32 s _
  let e := (c.setReg .TW_EPOCH_SEQ 0 0 seq).setFld F.TW_STAT_APPLYING 0 0 1
  let f := e.modTwin fun t => { t with commit := t.commit && t.dec.any (fun d => decide (d.1 = e.now)), applied := len }
  have eq : u = (f.sched (Config.copyTime f.fresh + 1) .epochApplyDone).draw := rfl
  have regs : u.regs = e.regs := by rw [eq]; rfl
  have now : f.now = s.now := by
    obtain ⟨_, _, _, _, hc⟩ := only
    change c.now = s.now
    rw [hc]
  have twin : u.twin.rxLen = c.twin.rxLen ∧ u.twin.rxWait = c.twin.rxWait ∧ u.twin.out = c.twin.out ∧ u.twin.mirror = c.twin.mirror := by
    rw [eq]
    exact ⟨rfl, rfl, rfl, rfl⟩
  have data : u.le = c.le ∧ u.mem = c.mem ∧ u.mx = c.mx := by
    rw [eq]
    exact ⟨rfl, rfl, rfl⟩
  have kept : c.twin.rxLen = s.twin.rxLen ∧ c.twin.rxWait = s.twin.rxWait ∧ c.twin.out = s.twin.out := by
    obtain ⟨_, _, _, _, hc⟩ := only
    rw [hc]
    exact ⟨rfl, rfl, rfl⟩
  obtain ⟨rxLen, rxWait, out, mirror⟩ := twin
  obtain ⟨le, mem, mx⟩ := data
  obtain ⟨rxLen', rxWait', out'⟩ := kept
  refine ⟨?_, ?_, rxLen.trans rxLen', rxWait.trans rxWait', out.trans out', ⟨Config.copyTime f.fresh, ?_⟩, le, mem, mx, mirror⟩
  · rw [State.reg, regs]
    exact (State.setFld_reg_ne _ _ (by decide)).trans (State.reg_setReg_same _ _ _ _ _)
  · rw [State.flag, State.fld_of_regs regs]
    exact congrArg (· != 0) (State.fld_setFld_same _ F.TW_STAT_APPLYING 0 0 1 (by decide))
  · have due := State.mem_sched now (Config.copyTime f.fresh + 1) .epochApplyDone
    rw [show s.now + (Config.copyTime f.fresh + 1) = s.now + 1 + Config.copyTime f.fresh by omega] at due
    rw [eq]
    exact due

/-! ## The end of an application -/

theorem State.commitRegions_pairs (k : Nat) : ∀ (s : State) (bs : List Byte), s.upset = [] →
    ∃ m v, s.commitRegions k bs = { s with pairs := v, mem := m } := by
  induction k with
  | zero => exact fun s _ _ => ⟨_, _, rfl⟩
  | succ k ih =>
    intro s bs clean
    have one : ∀ (c : Prop) [Decidable c] a d, ∃ m v, (if c then s.putMem a d else s) = { s with pairs := v, mem := m } := by
      intro c _ a d
      split
      · exact State.putMem_pairs clean a d
      · exact ⟨_, _, rfl⟩
    obtain ⟨m, v, put⟩ := one ((wordAt bs 0).toNat / 2 ^ 24 = 3 ∧ 0x20000000 ≤ (wordAt bs 4).toNat ∧
        (wordAt bs 4).toNat + (wordAt bs 0).toNat % 65536 * 4 ≤ 0x21800000) (wordAt bs 4).toNat
      ((bs.drop 8).take ((wordAt bs 0).toNat % 65536 * 4))
    rw [State.commitRegions, put]
    split
    · exact ⟨_, _, rfl⟩
    · obtain ⟨m', v', more⟩ := ih { s with pairs := v, mem := m } _ clean
      exact ⟨m', v', more⟩

/-- The epoch is applied: its regions are copied (R395). -/
def State.epochApplied (s : State) : State :=
  ((s.unsched .epochApplyDone).commitRegions 32 ((s.bytes (s.twBuf (s.reg .TW_EPOCH_SEQ 0 0).toNat) s.twin.applied).drop 32)).setFld
    F.TW_STAT_APPLYING 0 0 0

/-- A standby answers. -/
def State.epochAnswered (s : State) (seq : Word) : State :=
  let s := s.twSend 3 (Word.bytes seq) []
  if s.twin.step = 4 then s.pairStep 5 else s

/-- An epoch that waited commits. -/
def State.epochWaiting (s : State) : Out :=
  match s.twin.rxWait with
  | (q, len) :: rest => .next ((s.modTwin fun t => { t with rxWait := rest }).epochCommit (BitVec.ofNat 32 q) len)
  | [] => .next s

/-- What follows the reading of the epoch's buffer. -/
def State.applyDone (s : State) (seq : Word) : Out :=
  let bs := s.bytes (s.twBuf seq.toNat) s.twin.applied
  let s := (s.unsched .epochApplyDone).commitRegions 32 (bs.drop 32)
  let s := s.setFld F.TW_STAT_APPLYING 0 0 0
  if s.takesEpochs then (s.epochAnswered seq).epochWaiting else .next s

theorem exec_epochApplyDone_eq (s : State) :
    exec .epochApplyDone s =
      if !s.flag F.TW_STAT_APPLYING 0 0 then .next s
      else (s.eccRead (s.twBuf (s.reg .TW_EPOCH_SEQ 0 0).toNat) s.twin.applied).2.applyDone (s.reg .TW_EPOCH_SEQ 0 0) := rfl

theorem exec_epochApplyDone {s : State} (applying : s.flag F.TW_STAT_APPLYING 0 0 = true) (clean : s.upset = []) :
    exec .epochApplyDone s =
      if s.epochApplied.takesEpochs then (s.epochApplied.epochAnswered (s.reg .TW_EPOCH_SEQ 0 0)).epochWaiting else .next s.epochApplied := by
  rw [exec_epochApplyDone_eq, applying, Bool.not_true, if_neg Bool.false_ne_true, State.eccRead_clean (State.cleanAt_of_none clean _ _)]
  rfl

/-- What the end of an application leaves. -/
theorem State.epochApplied_spec {s : State} (clean : s.upset = []) :
    let u := s.epochApplied
    u.flag F.TW_STAT_APPLYING 0 0 = false ∧ u.reg .TW_EPOCH_SEQ 0 0 = s.reg .TW_EPOCH_SEQ 0 0 ∧ u.twin = s.twin ∧ u.takesEpochs = s.takesEpochs ∧
      u.linkIsUp = s.linkIsUp ∧ u.flag F.TW_STAT_FAULT_OUT 0 0 = s.flag F.TW_STAT_FAULT_OUT 0 0 ∧
      u.mem = ((s.unsched .epochApplyDone).commitRegions 32
        ((s.bytes (s.twBuf (s.reg .TW_EPOCH_SEQ 0 0).toNat) s.twin.applied).drop 32)).mem := by
  intro u
  obtain ⟨m, v, copied⟩ := State.commitRegions_pairs 32 (s.unsched .epochApplyDone)
    ((s.bytes (s.twBuf (s.reg .TW_EPOCH_SEQ 0 0).toNat) s.twin.applied).drop 32) clean
  have eq : u = State.setFld { s.unsched .epochApplyDone with pairs := v, mem := m } F.TW_STAT_APPLYING 0 0 0 := by rw [← copied]; rfl
  have regs : u.regs = (s.setFld F.TW_STAT_APPLYING 0 0 0).regs := by rw [eq]; rfl
  have twin : u.twin = s.twin := by rw [eq]; rfl
  have mode : u.mode = s.mode := State.mode_congr
    (by rw [State.reg, regs]; exact State.setFld_reg_ne s 0 (by decide)) (by rw [eq]; rfl) (by rw [eq]; rfl)
  have apart : ∀ g : Fld, g.reg = .TW_STAT → g.hi < 32 → (g.hi < 11 ∨ 11 < g.lo) → u.fld g 0 0 = s.fld g 0 0 := fun g hr hh ha => by
    rw [State.fld_of_regs regs]
    exact State.fld_setFld_apart s 0 (f := F.TW_STAT_APPLYING) hr (by decide) hh ha
  refine ⟨?_, ?_, twin, ?_, ?_, ?_, rfl⟩
  · rw [State.flag, State.fld_of_regs regs, State.fld_setFld_same _ _ _ _ _ (by decide)]
    rfl
  · rw [State.reg, regs]
    exact State.setFld_reg_ne s 0 (by decide)
  · rw [State.takesEpochs, State.takesEpochs, twin, mode]
  · rw [State.linkIsUp, State.linkIsUp, apart F.TW_STAT_LINK rfl (by decide) (by decide)]
  · rw [State.flag, State.flag, apart F.TW_STAT_FAULT_OUT rfl (by decide) (by decide)]

/-- An answer goes out on a link that is up, before TW_FAULT_OUT (R397, R405). -/
theorem State.epochAnswered_spec (s : State) (seq : Word) :
    let u := s.epochAnswered seq
    u.regs = s.regs ∧ u.mem = s.mem ∧ u.twin.rxWait = s.twin.rxWait ∧
      (s.linkIsUp = true → s.flag F.TW_STAT_FAULT_OUT 0 0 = false → ∃ f, u.twin.out = f :: s.twin.out ∧ f.ty = 3 ∧
        f.spec.take 4 = Word.bytes seq) := by
  have sent : let v := s.twSend 3 (Word.bytes seq) []
      v.regs = s.regs ∧ v.mem = s.mem ∧ v.twin.rxWait = s.twin.rxWait ∧
        (s.linkIsUp = true → s.flag F.TW_STAT_FAULT_OUT 0 0 = false → ∃ f, v.twin.out = f :: s.twin.out ∧ f.ty = 3 ∧
          f.spec.take 4 = Word.bytes seq) := by
    unfold State.twSend
    split
    · exact ⟨rfl, rfl, rfl, fun _ _ => ⟨_, rfl, rfl, rfl⟩⟩
    · next off =>
      refine ⟨rfl, rfl, rfl, fun up free => absurd ?_ off⟩
      rw [up, free]
      rfl
  have eq : s.epochAnswered seq = if (s.twSend 3 (Word.bytes seq) []).twin.step = 4 then (s.twSend 3 (Word.bytes seq) []).pairStep 5
    else s.twSend 3 (Word.bytes seq) [] := rfl
  rw [eq]
  generalize s.twSend 3 (Word.bytes seq) [] = v at sent
  split <;> exact sent

/-! ## Acknowledgement -/

/-- An acknowledgement as it is recorded (R397). -/
def State.ackTaken (s : State) (seq : Word) : State :=
  let s := (s.setReg .TW_EPOCH_ACKED 0 0 seq).evcRaise 0x1A5
  if s.twin.step = 4 then s.pairStep 5 else s

theorem exec_epochAck_recv (s : State) (h : TwHdr) (t : List Byte) : exec (.epochAck h t) s =
    twRecv 3 0 0 h t [] (fun s => if s.twin.armed && !s.twin.standby then s.ackTaken (wordAt t 0) else s) s := rfl

theorem State.ackTaken_spec (s : State) (seq : Word) :
    let u := s.ackTaken seq
    u.reg .TW_EPOCH_ACKED 0 0 = seq ∧ (s.now + 1, Instr.evcEvent 0x1A5) ∈ u.cal ∧ (s.twin.step = 4 → u.twin.step = 5) := by
  let v := (s.setReg .TW_EPOCH_ACKED 0 0 seq).evcRaise 0x1A5
  have noted : v.reg .TW_EPOCH_ACKED 0 0 = seq ∧ (s.now + 1, Instr.evcEvent 0x1A5) ∈ v.cal :=
    ⟨State.reg_setReg_same s _ _ _ _, List.mem_append_right _ List.mem_cons_self⟩
  have eq : s.ackTaken seq = if v.twin.step = 4 then v.pairStep 5 else v := rfl
  rw [eq]
  split
  · exact ⟨noted.1, noted.2, fun _ => rfl⟩
  · next other => exact ⟨noted.1, noted.2, fun h4 => absurd h4 other⟩

/-! ## Settled -/

/-- Pieces of an epoch, in a state without upsets: each clause of the statement on a piece, a whole epoch and a broken one. -/
theorem epoch_piece {s : State} {h : TwHdr} {t d : List Byte} (hc : s.mode.cores = true) (hu : s.linkIsUp = true)
    (hw : wholeFrame 2 1 16 h t d) (takes : s.takesEpochs = true)
    (hlen : (wordAt t 8).toNat ≤ 65536 ∧ 16 ≤ (wordAt t 8).toNat ∧ (wordAt t 4).toNat < (wordAt t 8).toNat)
    (same : s.twin.rxLen = 0 ∨ (s.twin.rxSeq = (wordAt t 0).toNat ∧ s.twin.rxLen = (wordAt t 8).toNat)) (alone : s.noStcNow)
    (clean : s.upset = []) :
    let seq := wordAt t 0
    let off := (wordAt t 4).toNat
    let len := (wordAt t 8).toNat
    let n := min d.length (len - off)
    let buf := s.twBuf seq.toNat
    ∃ p : State, exec (.epoch h t d) s = .next (if len ≤ off + d.length then p.epochEnd seq len else p) ∧ p.regs = s.regs ∧
      p.upset = [] ∧ p.le = s.le ∧ p.mx = s.mx ∧ p.now = s.now ∧ p.mem = (s.setBytes (buf + off) (d.take n)).mem ∧
      p.twin = { s.twin with rxSeq := seq.toNat, rxLen := len, rxOffs := s.twin.rxHad ++ [(off, n)] } := by
  intro seq off len n buf
  obtain ⟨v, x, piece⟩ := State.epochPiece_eq (seq := seq) (off := off) d same clean alone
  refine ⟨s.epochPiece seq off len d, ?_, by rw [piece], by rw [piece]; exact clean, by rw [piece], by rw [piece], by rw [piece],
    by rw [piece], by rw [piece]⟩
  rw [exec_epoch hc hu hw takes hlen (same.imp_right And.left)]
  dsimp only
  have total : (s.epochPiece seq off len d).twin.rxLen = len := by rw [piece]
  rw [total]
  refine congrArg Host.Outcome.next (if_congr ?_ rfl rfl)
  obtain ⟨-, -, inside⟩ := hlen
  dsimp only [off, len]
  omega

/-- Settles O46: the capture, a piece, the last piece with its commit, the records, the end of an application, an acknowledgement. -/
theorem epochs : Obligations.Epochs := by
  unfold Obligations.Epochs
  intro s h t d hc w last whole seq off len alone
  refine ⟨?early, ?capture, ?skipped, rfl, ?piece, ?records, ?applied, ?acked⟩
  case early =>
    intro captures early
    rw [exec_epochCapture, captures, early]
    rfl
  case capture =>
    intro captures late free single clean regions
    obtain ⟨numbered, tx, cal, stored, kept⟩ := State.captured_spec single clean
    exact ⟨_, exec_epochCapture_late captures late free regions, numbered, tx, cal, stored, kept⟩
  case skipped =>
    intro captures late busy
    have sending : s.twin.tx.isSome = true := Option.isSome_iff_ne_none.2 busy
    rw [exec_epochCapture, captures, late, sending]
    rfl
  case piece =>
    rintro ⟨hu, hw⟩ takes hmax hmin hoff same single clean had n buf
    obtain ⟨p, ran, regs, upset, le, mx, now, mem, twin⟩ := epoch_piece hc hu hw takes ⟨hmax, hmin, hoff⟩ same single clean
    have hd : 0 < len - off := Nat.sub_pos_of_lt hoff
    have bytes : ∀ x, x < buf + off ∨ buf + off + n ≤ x → p.byte x = s.byte x := fun x hx => by
      rw [State.byte_of_mem mem, State.byte_setBytes_ne s (by rw [List.length_take]; exact hx.imp_right fun g => Nat.le_trans (Nat.add_le_add_left (Nat.min_le_left _ _) _) g)]
    refine ⟨fun more => ?_, fun closes => ?_⟩
    · have whole : min d.length (len - off) = d.length := by omega
      rw [if_neg (Nat.not_le.2 more)] at ran
      refine ⟨p, ran, regs, ?_, by rw [twin], by rw [twin], fun i hi => ?_, fun x hx => bytes x ?_⟩
      · rw [twin]
        exact congrArg (fun k => had ++ [(off, k)]) whole
      · rw [State.byte_of_mem mem, State.byte_setBytes, if_pos (Nat.le_add_right _ i), Nat.add_sub_cancel_left, whole, List.take_length,
          List.getElem?_eq_getElem hi]
        rfl
      · rw [show n = d.length from whole]
        exact hx
    · intro bs next good
      rw [if_pos closes] at ran
      have stored : bs = p.bytes (p.twBuf seq.toNat) len := by
        obtain ⟨v, put⟩ := State.putMem_clean (s := s) (a := buf + off) (bs := d.take n) (State.cleanAt_of_none clean _ _) single
        have buf' : p.twBuf seq.toNat = buf := by
          dsimp only [State.twBuf, buf]
          rw [State.reg, State.reg, regs]
          rfl
        rw [buf']
        refine State.bytes_of_mem ?_ _ _
        rw [mem, put]
      have numbered : p.epochNext = next := by
        rw [State.epochNext, twin, State.reg, regs]
        rfl
      have judged : p.epochGood p.twin.rxOffs seq len (p.bytes (p.twBuf seq.toNat) len) ↔ good := by
        rw [State.epochGood, numbered, ← stored, twin]
        rfl
      have applying : p.flag F.TW_STAT_APPLYING 0 0 = s.flag F.TW_STAT_APPLYING 0 0 := by
        rw [State.flag, State.flag, State.fld_of_regs regs]
      refine ⟨fun g free => ?_, fun g busy => ?_, fun g => ?_⟩
      · rw [State.epochEnd_good upset (judged.2 g), applying, free] at ran
        obtain ⟨numbered, marked, rxLen, -, -, due, le', mem', mx', mirror⟩ := p.epochClosed.epochCommit_spec seq len
        have data : p.epochClosed.bytes (p.epochClosed.twBuf seq.toNat) len = bs :=
          (State.bytes_of_mem (s := p) (t := p.epochClosed) rfl _ _).trans stored.symm
        rw [data] at le' mem' mx' mirror
        have now' : p.epochClosed.now = s.now := now
        rw [now'] at due
        exact ⟨_, p.epochClosed, ran, numbered, marked, rxLen, due, bytes, le, mx, by
          change p.twin.mirror = w.mirror
          rw [twin], regs, le', mem', mx', mirror⟩
      · rw [State.epochEnd_good upset (judged.2 g), applying, busy] at ran
        refine ⟨_, ran, regs, ?_, rfl⟩
        change p.twin.rxWait ++ _ = _
        rw [twin]
      · rw [State.epochEnd_bad upset fun g' => g (judged.1 g')] at ran
        have count := p.fld_bump_same F.TW_ERR_CNT_EPDISC 0 0 (by decide)
        rw [State.fld_of_regs regs] at count
        refine ⟨_, ran, ?_, rfl, ?_, count, ?_⟩
        · refine (State.setFld_reg_ne p _ (q := .TW_EPOCH_SEQ) (by decide)).trans ?_
          rw [State.reg, regs]
          rfl
        · change p.twin.rxWait = _
          rw [twin]
        · rw [← now]
          exact List.mem_append_right _ List.mem_cons_self
  case records =>
    intro k ix n st tail hst v
    have len4 : st.length % 4 = 0 := by rw [hst]
    have engine : v = (s.leCommit n (bytesToWords st)).commitRecords k tail := by
      have one : s.commitRecord 1 n.val st = s.leCommit n (bytesToWords st) := by
        refine (if_pos ⟨rfl, n.isLt⟩).trans ?_
        rw [show Fin.ofNat 8 n.val = n from Fin.ext (Nat.mod_eq_of_lt n.isLt)]
      rw [← one]
      exact s.commitRecords_record k (by decide) (by decide) (by omega) len4 (by omega)
    refine ⟨engine, fun i hi => ?_, fun g hg => ?_, fun a bs hix hbs hl ha hb => ?_⟩
    · have words : (bytesToWords st)[i]? = some (wordAt st (4 * i)) := bytesToWords_getElem? st i (by omega)
      obtain ⟨inside, word⟩ := List.getElem?_eq_some_iff.1 words
      rw [State.leCommit_get s n _ inside, word]
    · have two : s.commitRecords (k + 1) (epochRecord 2 0 0 g ++ List.replicate 12 0) = s.commitRecord 2 0 g := by
        rw [s.commitRecords_record k (by decide) (by decide) (by decide) (by rw [hg]) (by omega), State.commitRecords_end]
      rw [two]
      refine ⟨rfl, rfl, fun i => ?_⟩
      change (Vector.ofFn _)[i] = _
      rw [Fin.getElem_fin, Vector.getElem_ofFn]
    · exact s.commitRegions_record k (by omega) hbs hl ha hb
  case applied =>
    intro applying clean
    obtain ⟨done, numbered, twin, takes, link, out, mem⟩ := State.epochApplied_spec clean
    have answered := s.epochApplied.epochAnswered_spec (s.reg .TW_EPOCH_SEQ 0 0)
    have ran := exec_epochApplyDone applying clean
    rw [takes] at ran
    rw [twin, link, out] at answered
    generalize s.epochApplied.epochAnswered (s.reg .TW_EPOCH_SEQ 0 0) = a at answered ran
    generalize s.epochApplied = e at done numbered twin takes link out mem answered ran
    obtain ⟨regs', mem', wait', sent⟩ := answered
    have done' : a.flag F.TW_STAT_APPLYING 0 0 = false := by rw [State.flag, State.fld_of_regs regs']; exact done
    have numbered' : a.reg .TW_EPOCH_SEQ 0 0 = last := by rw [State.reg, regs']; exact numbered
    cases htakes : s.takesEpochs with
    | false =>
      rw [htakes] at ran
      exact ⟨e, s.unsched .epochApplyDone, ran, rfl, rfl, rfl, fun _ => ⟨done, numbered, mem⟩, fun h => absurd h (by decide)⟩
    | true =>
      rw [htakes, if_pos rfl, State.epochWaiting] at ran
      cases hwait : w.rxWait with
      | nil =>
        rw [wait', hwait] at ran
        refine ⟨a, s.unsched .epochApplyDone, ran, rfl, rfl, rfl, fun _ => ⟨done', numbered', mem'.trans mem⟩, fun _ => ⟨sent, ?_⟩⟩
        exact fun q len rest h => absurd h (by simp)
      | cons x rest =>
        obtain ⟨q, n⟩ := x
        rw [wait', hwait] at ran
        obtain ⟨seq', marked, -, rest', out', -⟩ := (a.modTwin fun t => { t with rxWait := rest }).epochCommit_spec (BitVec.ofNat 32 q) n
        refine ⟨_, s.unsched .epochApplyDone, ran, rfl, rfl, rfl, fun h => ?_, fun _ => ⟨fun up free => ?_, fun q' n' r h => ?_⟩⟩
        · exact absurd h (by simp)
        · obtain ⟨f, hf, ty, spec⟩ := sent up free
          exact ⟨f, out'.trans hf, ty, spec⟩
        · obtain ⟨hx, hr⟩ := List.cons.inj h
          obtain ⟨hq, -⟩ := Prod.mk.inj hx
          rw [← hq, ← hr]
          exact ⟨marked, rest', seq'⟩
  case acked =>
    rintro ⟨hu, hw⟩ armed active
    refine ⟨_, ?_, s.ackTaken_spec seq⟩
    rw [exec_epochAck_recv, twRecv_whole hu (State.not_retention_of_cores hc) (twWhole_iff.2 hw)]
    refine congrArg Host.Outcome.next (if_pos ?_)
    rw [armed, active]
    rfl

end Sys2Proof.Machine
end

