-- ==== Sys2Proof/Proofs/Completes.lean ====
section
/-! PROOF. Every command completes: by the shape of its row. -/

namespace Sys2Proof.Machine

theorem next_ite {c : Prop} [Decidable c] (a b : State) : ∃ t, (if c then (.next a : Out) else .next b) = .next t := by
  split <;> exact ⟨_, rfl⟩

theorem modeCmd_next (o : ModeOrigin) (k : Nat) (s : State) : ∃ t, modeCmd o k s = .next t := by
  cases o with
  | host f => simp only [modeCmd]; exact hpCmd_next _ _ _ _ _
  | bus r => simp only [modeCmd]; exact regCmd_next _ _ _ _ _ _ _

theorem dbgRegCmd_next (v : DbgVia) (rn : RegName) (d : Word) (s : State) : ∃ t, dbgRegCmd v rn d s = .next t :=
  dbgCmd_next s v 2 (BitVec.ofNat 32 (rn.addr 0 0)) d fun host s => s.dbgWrite host (BitVec.ofNat 32 (rn.addr 0 0)) d

theorem fpOp_completes (p : Pair) (d : Freg) (lat : Nat) (f : Copy → FRes) (s : State) : ∃ t, fpOp p d lat f s = .next t := issue_next _ _ _

theorem loadDisp_next (p : Pair) (d a : Greg) (imm : BitVec 16) (sz : Fin 8) (s : State) : ∃ t, loadDisp p d a imm sz s = .next t :=
  issue_next _ _ _

theorem storeDisp_next (p : Pair) (d a : Greg) (imm : BitVec 16) (sz : Fin 8) (s : State) : ∃ t, storeDisp p d a imm sz s = .next t :=
  issue_next _ _ _

/-- A host-port frame whose CMD is none of Table 16.6. -/
theorem badCmd_next (known : Bool) (s : State) (f : HpFrame) (cmd : Byte) (payload : List Byte) (body : List Byte → State → State) :
    ∃ t, (if known = true then (.next s : Out) else hpCmd f cmd payload body s) = .next t := by
  split
  · exact ⟨_, rfl⟩
  · exact hpCmd_next _ _ _ _ _

/-! Rows of more than two cases. -/

theorem execRetentionWake_next (st : WakeTest) (s : State) : ∃ u, execRetentionWake st s = .next u := by
  simp only [execRetentionWake]
  repeat' split
  all_goals exact ⟨_, rfl⟩

theorem execTwSyncArrival_next (e : Int) (s : State) : ∃ u, execTwSyncArrival e s = .next u := by
  simp only [execTwSyncArrival]
  repeat' split
  all_goals exact ⟨_, rfl⟩

theorem execEpochCapture_next (s : State) : ∃ u, execEpochCapture s = .next u := by
  simp only [execEpochCapture]
  repeat' split
  all_goals exact ⟨_, rfl⟩

theorem execEpochApplyDone_next (s : State) : ∃ u, execEpochApplyDone s = .next u := by
  simp only [execEpochApplyDone]
  repeat' split
  all_goals exact ⟨_, rfl⟩

theorem execLoadData_next (h : TwHdr) (t : List Byte) (d : List Byte) (s : State) : ∃ u, execLoadData h t d s = .next u := by
  simp only [execLoadData]
  repeat' split
  all_goals exact ⟨_, rfl⟩

theorem execStationInputFrame_next (port : Fin 2) (k : Station) (gen : BitVec 16) (cycle : Word) (f : InFrame) (s : State) : ∃ u, execStationInputFrame port k gen cycle f s = .next u := by
  simp only [execStationInputFrame]
  repeat' split
  all_goals exact ⟨_, rfl⟩

theorem execDmaBlockStart_next (s : State) : ∃ u, execDmaBlockStart s = .next u := by
  simp only [execDmaBlockStart]
  repeat' split
  all_goals exact ⟨_, rfl⟩

theorem execSignatureCompare_next (p : Pair) (s : State) : ∃ u, execSignatureCompare p s = .next u := by
  simp only [execSignatureCompare]
  repeat' split
  all_goals exact ⟨_, rfl⟩

theorem execPwmCompareAction_next (n : GenId) (b : Bool) (s : State) : ∃ u, execPwmCompareAction n b s = .next u := by
  simp only [execPwmCompareAction]
  repeat' split
  all_goals exact ⟨_, rfl⟩

theorem execSincosResult_next (n : PosId) (s : State) : ∃ u, execSincosResult n s = .next u := by
  simp only [execSincosResult]
  repeat' split
  all_goals exact ⟨_, rfl⟩

theorem execSetAccept_next (n : LeId) (p : Pipe) (s : State) : ∃ u, execSetAccept n p s = .next u := by
  simp only [execSetAccept]
  repeat' split
  all_goals exact ⟨_, rfl⟩

theorem execObserverAngle_next (n : LeId) (s : State) : ∃ u, execObserverAngle n s = .next u := by
  simp only [execObserverAngle]
  repeat' split
  all_goals exact ⟨_, rfl⟩

theorem execObserverConfidence_next (n : LeId) (s : State) : ∃ u, execObserverConfidence n s = .next u := by
  simp only [execObserverConfidence]
  repeat' split
  all_goals exact ⟨_, rfl⟩

theorem execGeneralStageGo_next (n : LeId) (s : State) : ∃ u, execGeneralStageGo n s = .next u := by
  simp only [execGeneralStageGo]
  repeat' split
  all_goals exact ⟨_, rfl⟩

theorem execGeneralBundle_next (n : LeId) (s : State) : ∃ u, execGeneralBundle n s = .next u := by
  simp only [execGeneralBundle]
  repeat' split
  all_goals exact ⟨_, rfl⟩

theorem execRecallTaken_next (p : Pair) (s : State) : ∃ u, execRecallTaken p s = .next u := by
  unfold execRecallTaken
  split <;> exact ⟨_, rfl⟩

/-- Settles O57: no row faults and none is refused. -/
theorem everyCommandCompletes : Obligations.EveryCommandCompletes := by
  unfold Obligations.EveryCommandCompletes
  intro c s
  cases c
  -- A write or a read of one register.
  case runSolo | pairActive | pairStandby | unpair | switchover | ethTsfifoRead | flKeyWrite | flashProgram | flashErase | flPlReq |
    flWsWrite | dmaStart | dmaAbort | queuePush | queuePushEop | queuePop | queueFlush | dropPkt | poolAlloc | poolFree | poolGive |
    semAcquire | semRelease | semForce | evcPendSet | evcPendClr | evcMaskSet | evcMaskClr | evcCmpl | ptuRecall | adcSwtrig | adcAbort |
    adcDisable | adcRefSelect | adcSeqCfgWrite | adcEntryWrite | cmpThrWrite | cmpCheck | trippedClear | pwmLoadall | pwmStart |
    timerEnStart | timerEnStop | tmStart | tmStop | todAddendWrite | todNsRead | todCommitGo | todCommitCancel | posEnable | posDisable |
    posPreset | posDivnmWrite | posErrorClear | ssiBusyWrite | safereqClear | paramSwap | tableCopyGo | swEventRaise | routeEnableWrite =>
    dsimp only [exec]
    exact regCmd_next _ _ _ _ _ _ _
  -- An access of a word.
  case registerReadClear | registerWrite =>
    dsimp only [exec]
    exact wordCmd_next _ _ _ _ _
  -- An instruction that a pair issues.
  case icacheRefill | add | adc | sub | sbc | cmp | addi | cmpi | and | or | xor | andn | andi | ori | xori | lui | shl | shr | sar |
    ror | shi | mul | mulu | div | divu | mfs | mts | lds | sts | ldp | stp | ldl | stc | bcc | jmp | call | jr | callr | ret | trap |
    eret | pflush | icinv | fsync | wait | pbar | fcmp | fmvgf | fmvfg | flds | fldd | fsts | fstd | illegalInstruction | fetchFault =>
    dsimp only [exec]
    exact issue_next _ _ _
  case fadd | fsub | fmul | fdiv | fsqrt | fmin | fmax | fabs | fneg | fmov | fcvt =>
    dsimp only [exec]
    exact fpOp_completes _ _ _ _ _
  case ldb | ldbu | ldh | ldhu | ldw =>
    dsimp only [exec]
    exact loadDisp_next _ _ _ _ _ _
  case stb | sth | stw =>
    dsimp only [exec]
    exact storeDisp_next _ _ _ _ _ _
  -- A frame of the host port.
  case hpStatus | hpLoad | hpAbort | msgPut | msgGet =>
    dsimp only [exec]
    exact hpCmd_next _ _ _ _ _
  case hpBadcmd =>
    dsimp only [exec]
    exact badCmd_next _ _ _ _ _ _
  -- An access of the debug port.
  case debugRead | debugWrite | debugConsumeRead =>
    dsimp only [exec]
    exact dbgCmd_next _ _ _ _ _ _
  case dbgAttach | dbgDetach | dbgHalt | dbgResume | dbgStep | authRequest | authGo | dbgSafegrpWrite =>
    dsimp only [exec]
    exact dbgRegCmd_next _ _ _ _
  -- A mode request.
  case modeReady | modeSafeHold | modeMaintenance | modeRetention =>
    dsimp only [exec]
    exact modeCmd_next _ _ _
  -- A frame of the link.
  case heartbeat | pair | epoch | epochAck | switch | blank | loadOffer | loadReq | loadStatus =>
    dsimp only [exec]
    exact twRecv_next _ _ _ _ _ _ _ _
  -- A row without a case.
  case resetNAssert | supplyFall | faultHoldExpiry | safeNFall | safeNTimeout | safeNRise | safeRequest | hpFrameCut | hostLoadTimeout |
    twinLoadTimeout | tapBypass | tapIdcode | tapExtest | tapSample | tapPreload | pairingTimeout | heartbeatMissed | faultInRise |
    ownInRise | dualOwn | agreementPoint | agreementForced | linkUp | ethFrameRx | ethFrameTx | marginScrubLine | dacTrimCheck |
    telemetryRecord | lifeGate | starveLimit | flashCommandDone | dmaPeripheralRequest | evcEvent | interruptOffer | sweepSnapshot |
    latmaxExpiry | adcTrigger | refSettled | spareRefConnect | dacSettled | cmpTick | checkRelease | deadTimeEnd | loadallStrobe |
    phaseEvent | timerZero | timerStartEvent | timerStopEvent | ppsLost | ppsOutFall | todTimedCommit | indexEvent | ssiRequestEvent |
    profileTick | coastEscalate | lnSwapEvent | adaptiveTurnOn | epochSent | blankFrameSend | ethRxcChange =>
    exact ⟨_, rfl⟩
  -- A row of two cases.
  case powerGood | clockLost | retentionEntry | authComplete | twMark | peerLost | linkDown | stationCycleBoundary | stationInputRead |
    stationOutputWrite | sramScrubBeat | tcmScrubWord | reservationWindow | rotationDue | rotationSwap | coreAged | comparatorCrossing |
    cmpThrPort | windowGateChange | pwmPeriodStart | pwmPeriodMiddle | pwmTriggerCompare | pwmSync | periodMax | pstart |
    comparePortWrite | delayLineDue | delayLineReplace | delayLineFail | timerMatch | timerComparePort | timerCapture | todRollover |
    todPpsEdge | probeEdge | monoflopEnd | sincosSample | currentSetFormed | voltageSet | freqTrackerSet | twSyncReturn =>
    dsimp only [exec]
    exact next_ite _ _
  case plLowerDone | dmaBlockEnd | fpExceptionPend | checkWaitingStart | pulseStretchEnd =>
    simp only [exec, execPlLowerDone, execDmaBlockEnd, execFpExceptionPend, execCheckWaitingStart, execPulseStretchEnd]
    split <;> exact ⟨_, rfl⟩
  -- A row whose second case is a single one.
  case refreshStep | storeLate | loadDataReturn | adcHold | adcConversionEnd | spareCalComplete | checkTakeover | checkResult |
    transitionComplete | dtmaxExpiry | pwmTrip | periodEnd | ssiFrameEnd | speedResult | currentLoopOutput | voltageLoopOutput |
    freqTrackerOutput | profileOutput =>
    simp only [exec, execRefreshStep, execStoreLate, execLoadDataReturn, execAdcHold, execAdcConversionEnd, execSpareCalComplete,
      execCheckTakeover, execCheckResult, execTransitionComplete, execDtmaxExpiry, execPwmTrip, execPeriodEnd, execSsiFrameEnd,
      execSpeedResult, execCurrentLoopOutput, execVoltageLoopOutput, execFreqTrackerOutput, execProfileOutput]
    split
    · split <;> exact ⟨_, rfl⟩
    · exact ⟨_, rfl⟩
  -- A row whose first case is a single one.
  case verifyEnd | haltTaken | quadEdge | speedWindow | tableCopyDone =>
    simp only [exec, execVerifyEnd, execHaltTaken, execQuadEdge, execSpeedWindow, execTableCopyDone]
    split
    · exact ⟨_, rfl⟩
    · split <;> exact ⟨_, rfl⟩
  -- A row of more cases.
  case retentionWake => exact execRetentionWake_next _ _
  case twSyncArrival => exact execTwSyncArrival_next _ _
  case epochCapture => exact execEpochCapture_next _
  case epochApplyDone => exact execEpochApplyDone_next _
  case loadData => exact execLoadData_next _ _ _ _
  case stationInputFrame => exact execStationInputFrame_next _ _ _ _ _ _
  case dmaBlockStart => exact execDmaBlockStart_next _
  case signatureCompare => exact execSignatureCompare_next _ _
  case pwmCompareAction => exact execPwmCompareAction_next _ _ _
  case sincosResult => exact execSincosResult_next _ _
  case setAccept => exact execSetAccept_next _ _ _
  case observerAngle => exact execObserverAngle_next _ _
  case observerConfidence => exact execObserverConfidence_next _ _
  case generalStageGo => exact execGeneralStageGo_next _ _
  case generalBundle => exact execGeneralBundle_next _ _
  case recallTaken => exact execRecallTaken_next _ _

end Sys2Proof.Machine
end

