-- ==== Sys2Proof/Proofs/HostPort.lean ====
section
/-! PROOF. The host port: what frames come to, the bytes of a response, messages. -/

namespace Sys2Proof.Machine

/-! ## Frames -/

/-- A response of the port as it is in state s. -/
def State.hpAnswer (s u : State) (f : HpFrame) (c st : Byte) (p : List Byte) : State :=
  { u with hp := some ⟨c, f.seq, (s.reg .TW_GEN 0 0).setWidth 16, st, BitVec.ofNat 8 s.sys.mode.code, p⟩ }

theorem State.hpRespond_eq (s : State) (c : Byte) (f : HpFrame) (st : HpStatus) (p : List Byte) :
    s.hpRespond c f st p = s.hpAnswer s f c (BitVec.ofNat 8 st.code) p := rfl

theorem hpCmd_bad {s : State} {f : HpFrame} {cmd : Byte} {payload : List Byte} (hl : s.hpLive = true)
    (hb : hpReceive f cmd payload = .bad) (body : List Byte → State → State) :
    hpCmd f cmd payload body s = .next (s.hpAnswer (s.bump F.HP_ERR_CNT_CRCERR 0 0) f cmd 2 []) := by
  have gen : (s.bump F.HP_ERR_CNT_CRCERR 0 0).reg .TW_GEN 0 0 = s.reg .TW_GEN 0 0 := State.reg_setReg_ne _ _ (by decide)
  have answered : (s.bump F.HP_ERR_CNT_CRCERR 0 0).hpRespond cmd f .crcErr [] = s.hpAnswer (s.bump F.HP_ERR_CNT_CRCERR 0 0) f cmd 2 [] := by
    rw [State.hpRespond, State.hpAnswer, gen]
    rfl
  simp only [hpCmd, hl, if_true, hb, answered]

theorem hpCmd_cut {s : State} {f : HpFrame} {cmd : Byte} {payload : List Byte} (hl : s.hpLive = true)
    (hc : hpReceive f cmd payload = .cut) (body : List Byte → State → State) : hpCmd f cmd payload body s = .next s.hpCut := by
  simp only [hpCmd, hl, if_true, hc]

/-- A command of the port is received as a frame. -/
def isHpCmd (c : Instr) (f : HpFrame) (cmd : Byte) (payload : List Byte) : Prop :=
  ∃ body, ∀ s, exec c s = hpCmd f cmd payload body s

theorem isHpCmd.broken {c : Instr} {f : HpFrame} {cmd : Byte} {payload : List Byte} (h : isHpCmd c f cmd payload) {s : State}
    (hl : s.hpLive = true) :
    (hpReceive f cmd payload = .bad → exec c s = .next (s.hpAnswer (s.bump F.HP_ERR_CNT_CRCERR 0 0) f cmd 2 [])) ∧
      (hpReceive f cmd payload = .cut → exec c s = .next s.hpCut) := by
  obtain ⟨body, e⟩ := h
  exact ⟨fun hb => (e s).trans (hpCmd_bad hl hb body), fun hc => (e s).trans (hpCmd_cut hl hc body)⟩

theorem isHpCmd_status (f : HpFrame) : isHpCmd (.hpStatus f) f 0x01 [] := ⟨_, fun _ => rfl⟩
theorem isHpCmd_load (f : HpFrame) (off : Word) (d : List Byte) : isHpCmd (.hpLoad f off d) f 0x02 (Word.bytes off ++ d) := ⟨_, fun _ => rfl⟩
theorem isHpCmd_abort (f : HpFrame) : isHpCmd (.hpAbort f) f 0x03 [] := ⟨_, fun _ => rfl⟩
theorem isHpCmd_put (f : HpFrame) (d : List Byte) : isHpCmd (.msgPut f d) f 0x10 d := ⟨_, fun _ => rfl⟩
theorem isHpCmd_get (f : HpFrame) : isHpCmd (.msgGet f) f 0x11 [] := ⟨_, fun _ => rfl⟩

/-- The words that STATUS answers. -/
def State.statusWords (s : State) : List Word :=
  [s.sysMode, s.reg .SYS_START 0 0, s.reg .SYS_SAFE 0 0, s.reg .SYS_ADMIT 0 0, s.reg .TW_STAT 0 0, s.reg .TW_GEN 0 0,
    s.reg .TW_HO_EPOCH 0 0, s.reg .TW_EPOCH_ACKED 0 0]

theorem exec_hpStatus {s : State} {f : HpFrame} {p : List Byte} (hl : s.hpLive = true) (hg : hpReceive f 0x01 [] = .good p) :
    exec (.hpStatus f) s = .next (s.hpAnswer s f 0x01 0 (s.statusWords.flatMap Word.bytes)) :=
  hpCmd_good hl hg fun _ s => s.hpRespond 0x01 f .ok (s.statusWords.flatMap Word.bytes)

/-! ## The bytes of a response -/

theorem halfOfBytes_leBytes (v : Nat) : halfOfBytes (leBytes v 2) = v % 65536 := by
  simp [halfOfBytes, leBytes]
  omega

theorem HpResp.wire_spec (u : HpResp) :
    u.wire.take 10 = [0xA5, u.cmd] ++ leBytes u.seq.toNat 2 ++ leBytes u.gen.toNat 2 ++ [u.status, u.mode] ++ leBytes u.payload.length 2 ∧
      (u.wire.drop 10).take u.payload.length = u.payload ∧ u.wire.length = 12 + u.payload.length ∧
      halfOfBytes (u.wire.drop (10 + u.payload.length)) = (crc16 (u.wire.take (10 + u.payload.length))).toNat := by
  let head := [0xA5, u.cmd] ++ leBytes u.seq.toNat 2 ++ leBytes u.gen.toNat 2 ++ [u.status, u.mode] ++ leBytes u.payload.length 2
  let crc := leBytes (crc16 (head ++ u.payload)).toNat 2
  have wire : u.wire = head ++ u.payload ++ crc := rfl
  have len : head.length = 10 := by simp [head, leBytes_length]
  have both : (head ++ u.payload).length = 10 + u.payload.length := by rw [List.length_append, len]
  have first : u.wire.take (10 + u.payload.length) = head ++ u.payload := by rw [wire, ← both, List.take_left]
  have last : u.wire.drop (10 + u.payload.length) = crc := by rw [wire, ← both, List.drop_left]
  refine ⟨?_, ?_, ?_, ?_⟩
  · rw [wire, List.append_assoc, ← len, List.take_left]
  · rw [wire, List.append_assoc, ← len, List.drop_left, List.take_left]
  · rw [wire, List.length_append, both, leBytes_length]
    omega
  · rw [first, last, halfOfBytes_leBytes]
    exact Nat.mod_eq_of_lt (crc16 (head ++ u.payload)).isLt

/-! ## Messages -/

/-- The frame body of MSG_PUT. -/
def msgPutBody (f : HpFrame) (p : List Byte) (s : State) : State :=
  if !s.mode.cores then s.hpRespond 0x10 f s.hpRefusal []
  else if p.length < 4 ∨ 1024 < p.length ∨ p.length % 4 ≠ 0 then s.hpRespond 0x10 f .badCmd []
  else
    let q : QId := Fin.ofNat 256 (s.fld F.HP_CFG_INQ 0 0)
    let t : Tenant := Fin.ofNat 8 (s.fld F.HP_CFG_TENANT 0 0)
    let r := if s.qCredit q then (0, s)
      else if s.mayPush t q then s.qPushAll q (bytesToWords p)
      else (0, s.bumpBy F.Q_ERR_CNT_FOREIGN 0 0 (p.length / 4))
    r.2.hpRespond 0x10 f .ok (leBytes r.1 4)

/-- The frame body of MSG_GET. -/
def msgGetBody (f : HpFrame) (s : State) : State :=
  if !s.mode.cores then s.hpRespond 0x11 f s.hpRefusal []
  else
    let q : QId := Fin.ofNat 256 (s.fld F.HP_CFG_OUTQ 0 0)
    if s.queueOwner q ≠ Fin.ofNat 8 (s.fld F.HP_CFG_TENANT 0 0) then
      (s.bump F.Q_ERR_CNT_FOREIGN 0 0).hpRespond 0x11 f .ok []
    else if s.cycAdded q < s.qFill q ∧ (s.qTags (s.qSlot q (s.qRd q))).getLsbD 1 = true then
      let r := s.qPopRec q
      r.2.hpRespond 0x11 f .gap (Word.bytes r.1)
    else
      let r := s.qPopPacket q 256
      r.2.hpRespond 0x11 f .ok (r.1.flatMap Word.bytes)

theorem exec_msgPut {s : State} {f : HpFrame} {d p : List Byte} (hl : s.hpLive = true) (hg : hpReceive f 0x10 d = .good p) :
    exec (.msgPut f d) s = .next (msgPutBody f p s) := hpCmd_good hl hg (msgPutBody f)

theorem exec_msgGet {s : State} {f : HpFrame} {p : List Byte} (hl : s.hpLive = true) (hg : hpReceive f 0x11 [] = .good p) :
    exec (.msgGet f) s = .next (msgGetBody f s) := hpCmd_good hl hg fun _ => msgGetBody f

theorem msgPutBody_runs {s : State} {f : HpFrame} {p : List Byte} (hc : s.mode.cores = true) (h4 : 4 ≤ p.length) (hk : p.length ≤ 1024)
    (hm : p.length % 4 = 0) (free : s.qCredit (Fin.ofNat 256 (s.fld F.HP_CFG_INQ 0 0)) = false)
    (may : s.mayPush (Fin.ofNat 8 (s.fld F.HP_CFG_TENANT 0 0)) (Fin.ofNat 256 (s.fld F.HP_CFG_INQ 0 0)) = true) :
    msgPutBody f p s = let x := s.qPushAll (Fin.ofNat 256 (s.fld F.HP_CFG_INQ 0 0)) (bytesToWords p)
      x.2.hpRespond 0x10 f .ok (leBytes x.1 4) := by
  rw [msgPutBody, hc, Bool.not_true, if_neg Bool.false_ne_true, if_neg (by omega)]
  dsimp only
  rw [free, may, if_neg Bool.false_ne_true, if_pos rfl]

/-- The refusal's code (R416, R423). -/
theorem State.hpRefusal_code (s : State) :
    BitVec.ofNat 8 s.hpRefusal.code = if s.sys.mode ∈ [Mode.blank, .loading, .verify] then (1 : Byte) else 4 := by
  unfold State.hpRefusal
  cases s.sys.mode <;> rfl

theorem msgPutBody_refused {s : State} {f : HpFrame} {p : List Byte} (hc : s.mode.cores = false) :
    msgPutBody f p s = s.hpAnswer s f 0x10 (if s.sys.mode ∈ [Mode.blank, .loading, .verify] then 1 else 4) [] := by
  rw [← State.hpRefusal_code, ← State.hpRespond_eq]
  exact if_pos (by rw [hc]; rfl)

theorem msgGetBody_owner {s : State} {f : HpFrame} (hc : s.mode.cores = true)
    (own : s.queueOwner (Fin.ofNat 256 (s.fld F.HP_CFG_OUTQ 0 0)) = Fin.ofNat 8 (s.fld F.HP_CFG_TENANT 0 0)) :
    msgGetBody f s = let q : QId := Fin.ofNat 256 (s.fld F.HP_CFG_OUTQ 0 0)
      if s.cycAdded q < s.qFill q ∧ (s.qTags (s.qSlot q (s.qRd q))).getLsbD 1 = true then
        (s.qPopRec q).2.hpRespond 0x11 f .gap (Word.bytes (s.qPopRec q).1)
      else (s.qPopPacket q 256).2.hpRespond 0x11 f .ok ((s.qPopPacket q 256).1.flatMap Word.bytes) := by
  refine (if_neg ?_).trans (if_neg (not_not.2 own))
  rw [hc]
  decide

/-- An empty queue gives nothing. -/
theorem State.qPopPacket_empty {s : State} {q : QId} (h : s.qFill q = 0) (n : Nat) : s.qPopPacket q n = ([], s) := by
  cases n with
  | zero => rfl
  | succ n => exact if_pos (by rw [h]; exact Nat.zero_le _)

/-! ## Settled -/

/-- Settles O51: what a frame comes to, the response's bytes, and the answer of each command. -/
theorem hostPort : Obligations.HostPort := by
  unfold Obligations.HostPort
  intro s f off d cmd hl gen answer
  refine ⟨fun x hx => ?broken, fun u _ => u.wire_spec, congrArg Host.Outcome.next (if_pos hl), fun p known hg => ?bad,
    fun p hg => exec_hpStatus hl hg, fun p hg hc h4 hk hm => ?put, fun p hg hc => ?refused, fun p hg hc => ?get⟩
  case broken =>
    simp only [List.mem_cons, List.not_mem_nil, or_false] at hx
    rcases hx with rfl | rfl | rfl | rfl | rfl
    · exact (isHpCmd_status f).broken hl
    · exact (isHpCmd_load f off d).broken hl
    · exact (isHpCmd_abort f).broken hl
    · exact (isHpCmd_put f d).broken hl
    · exact (isHpCmd_get f).broken hl
  case bad =>
    have unknown : [0x01, 0x02, 0x03, 0x10, 0x11, 0x20, 0x30].contains cmd.toNat = false := by
      simp only [List.mem_cons, List.not_mem_nil, or_false, not_or] at known
      obtain ⟨h1, h2, h3, h4, h5, h6, h7⟩ := known
      have ne : ∀ k : Byte, cmd ≠ k → (cmd.toNat == k.toNat) = false := fun k h => beq_eq_false_iff_ne.2 fun e => h (BitVec.eq_of_toNat_eq e)
      simp only [List.contains_cons, List.contains_nil, Bool.or_false, Bool.or_eq_false_iff]
      exact ⟨ne _ h1, ne _ h2, ne _ h3, ne _ h4, ne _ h5, ne _ h6, ne _ h7⟩
    refine (if_neg (by rw [unknown]; decide)).trans ?_
    exact hpCmd_good hl hg fun _ s => s.hpRespond cmd f .badCmd []
  case put =>
    intro q x free may
    rw [exec_msgPut hl hg, msgPutBody_runs hc h4 hk hm free may]
  case refused => rw [exec_msgPut hl hg, msgPutBody_refused hc]; rfl
  case get =>
    intro q x own
    rw [exec_msgGet hl hg, msgGetBody_owner hc own]
    refine ⟨fun empty => ?_, fun more gap => congrArg Host.Outcome.next (if_pos ⟨more, gap⟩),
      fun _ item => congrArg Host.Outcome.next (if_neg fun h => ?_)⟩
    · have none : s.qFill (Fin.ofNat 256 (s.fld F.HP_CFG_OUTQ 0 0)) = 0 := empty
      refine congrArg Host.Outcome.next ((if_neg fun h => ?_).trans ?_)
      · rw [none] at h
        exact absurd h.1 (Nat.not_lt_zero _)
      · rw [State.qPopPacket_empty none]
        rfl
    · exact absurd (h.2.symm.trans item) (by decide)

end Sys2Proof.Machine
end

