-- ==== Sys2Proof/Proofs/ResetAndSafeHold.lean ====
section
/-! PROOF. Reset and the path to Blank: the journal scan, met with a record of a sector that no bank has. -/

namespace Sys2Proof.Machine

/-- A sector whose bit among the interrupted sectors would be bit 0 of SYS_CLK_STAT. -/
def straySector : Nat := 32 * 0x77FFF2

theorem straySector_addr :
    RegName.FL_INTERRUPTEDj.addr (4 * (0 : FBank).val + straySector / 32) 0 = RegName.SYS_CLK_STAT.addr 0 0 ∧
      straySector % 32 = F.SYS_CLK_STAT_XIN_SEL.lo := by
  decide

/-- Reset with the start record of an erase of that sector in the journal of bank 0. -/
def strayJournal : State :=
  ((State.resetIn .reset).modFB 0 fun b => { b with jrow := [.eraseStart straySector] })

/-- The journal scan marks the sector as interrupted: XIN_SEL reads 3. -/
theorem powerGood_strayJournal :
    leadsTo (fun t => decide (t.fld F.SYS_CLK_STAT_XIN_SEL 0 0 = 3)) (exec (.powerGood true) strayJournal) = true := by
  decide +kernel

/-- Refutes O49: the statement speaks of every state in Reset, also of one whose erase journal holds a sector beyond the 128 of a bank.
POWER_GOOD scans the journal and marks every sector with a start record in FL_INTERRUPTEDj (R318); of sector 32 * 0x77FFF2 of bank 0
that is bit 0 of SYS_CLK_STAT, so XIN_SEL is 3 where the statement asks 2. -/
theorem not_resetAndSafeHold : ¬ Obligations.ResetAndSafeHold := by
  unfold Obligations.ResetAndSafeHold
  intro h
  obtain ⟨-, -, powerGood, -⟩ := h.1 strayJournal .vdda 0 true
  obtain ⟨t, ht, -, -, -, -, sel⟩ := powerGood (by decide) (by decide)
  have stray := powerGood_strayJournal
  rw [ht] at stray
  have three : t.fld F.SYS_CLK_STAT_XIN_SEL 0 0 = 3 := by simpa only [leadsTo, decide_eq_true_eq] using stray
  exact absurd (three.symm.trans sel) (by decide)

end Sys2Proof.Machine
end

