-- ==== Sys2Proof/Proofs/Ready.lean ====
section
/-! PROOF. What the control domain leaves alone when it starts, stops or freezes: the system controller, memory, the loader, and every
register outside its blocks. -/

namespace Sys2Proof.Machine

/-- No block of the control domain writes this address when its mode changes: an address above theirs, or the configuration's number. -/
def outsideDomain (a : Nat) : Bool := decide (0x41000000 ≤ a) || decide (a = RegName.SM_CFGGEN.addr 0 0)

theorem inside_of_lt {a : Nat} (h : a < 0x40600000) : outsideDomain a = false := by
  have : RegName.SM_CFGGEN.addr 0 0 = 0x40600004 := rfl
  simp only [outsideDomain, this, Bool.or_eq_false_iff, decide_eq_false_iff_not]
  omega

theorem inside_adcStat (x : Conv) : outsideDomain (RegName.ADCx_STAT.addr x 0) = false :=
  inside_of_lt (by have := x.isLt; simp only [RegName.addr, RegName.base, RegName.dims]; omega)
theorem inside_adcRes (x : Conv) {k : Nat} (h : k < 64) : outsideDomain (RegName.ADCx_RES_s_e.addr x k) = false :=
  inside_of_lt (by have := x.isLt; simp only [RegName.addr, RegName.base, RegName.dims]; omega)
theorem inside_cmpStat (n : CmpId) : outsideDomain (RegName.CMPn_STAT.addr n 0) = false :=
  inside_of_lt (by have := n.isLt; simp only [RegName.addr, RegName.base, RegName.dims]; omega)
theorem inside_posStat (n : PosId) : outsideDomain (RegName.POSn_STAT.addr n 0) = false :=
  inside_of_lt (by have := n.isLt; simp only [RegName.addr, RegName.base, RegName.dims]; omega)
theorem inside_posPos (n : PosId) : outsideDomain (RegName.POSn_POS.addr n 0) = false :=
  inside_of_lt (by have := n.isLt; simp only [RegName.addr, RegName.base, RegName.dims]; omega)
theorem inside_posSpeed (n : PosId) : outsideDomain (RegName.POSn_SPEED.addr n 0) = false :=
  inside_of_lt (by have := n.isLt; simp only [RegName.addr, RegName.base, RegName.dims]; omega)
theorem inside_coastLc (n : LeId) : outsideDomain (RegName.LEn_COAST_LC.addr n 0) = false :=
  inside_of_lt (by have := n.isLt; simp only [RegName.addr, RegName.base, RegName.dims]; omega)
theorem inside_smRen {j : Nat} (h : j < 32) : outsideDomain (RegName.SM_RENj.addr j 0) = false := by
  have addr : RegName.SM_RENj.addr j 0 = 0x40600100 + j * 4 + 0 * 0 := rfl
  have number : RegName.SM_CFGGEN.addr 0 0 = 0x40600004 := rfl
  simp only [outsideDomain, addr, number, Bool.or_eq_false_iff, decide_eq_false_iff_not]
  omega

/-! ## The end of the Run modes -/

/-- The engines frozen, the pins in the safe pattern, the stations silent. -/
def State.frozen (s : State) : State := ((s.allLe State.leFreeze).pwmForceAll).stationStop

/-- Twin operation ends. -/
def State.twinEnded (s : State) : State :=
  let s := (s.setFld F.TW_STAT_FHOLD 0 0 0).setFld F.TW_STAT_PAIRED 0 0 0
  let s := ((s.unsched .faultHoldExpiry).unsched .agreementForced).unsched .pairingTimeout
  s.modTwin fun t => { t with
    step := 0, lockOn := false, armed := false, tx := none, dec := none, commit := false, switch := false, leaveAt := none }

theorem State.runEnd_eq (s : State) : s.runEnd = s.frozen.twinEnded := rfl

/-! ## Work of the control domain -/

/-- The parts of the state in which work of the control domain shows or which it leaves. -/
def State.besideDomain (s : State) :=
  (s.now, s.sys, s.mem, s.load, s.twin, s.hp, s.marks, s.mx.routes, s.mx.lv, s.regs)

/-- t is s after work of the control domain. -/
structure State.domainWork (s t : State) : Prop where
  now : t.now = s.now
  sys : t.sys = s.sys
  mem : t.mem = s.mem
  load : t.load = s.load
  twin : t.twin = s.twin
  hp : t.hp = s.hp
  marks : t.marks = s.marks
  routes : t.mx.routes = s.mx.routes
  hold : t.mx.lv.get 2 false = s.mx.lv.get 2 false
  outside : ∀ a d, outsideDomain a = true → t.regs.get a d = s.regs.get a d

namespace State.domainWork
variable {s t u : State}

theorem refl (s : State) : s.domainWork s := ⟨rfl, rfl, rfl, rfl, rfl, rfl, rfl, rfl, rfl, fun _ _ _ => rfl⟩

theorem trans (h : s.domainWork t) (g : t.domainWork u) : s.domainWork u :=
  ⟨g.now.trans h.now, g.sys.trans h.sys, g.mem.trans h.mem, g.load.trans h.load, g.twin.trans h.twin, g.hp.trans h.hp,
    g.marks.trans h.marks, g.routes.trans h.routes, g.hold.trans h.hold, fun a d ha => (g.outside a d ha).trans (h.outside a d ha)⟩

/-- A register outside the domain reads as before. -/
theorem reg (h : s.domainWork t) (q : RegName) (i j : Nat) (hq : outsideDomain (q.addr i j) = true) : t.reg q i j = s.reg q i j :=
  h.outside _ _ hq

/-- So does each of its fields. -/
theorem fld (h : s.domainWork t) (f : Fld) (i j : Nat) (hf : outsideDomain (f.reg.addr i j) = true) : t.fld f i j = s.fld f i j :=
  congrArg (getBits · f.hi f.lo) (h.reg f.reg i j hf)

/-! ## Single moves -/

/-- A change of none of these. -/
theorem quiet (h : s.domainWork t) (e : u.besideDomain = t.besideDomain) : s.domainWork u := by
  simp only [besideDomain, Prod.mk.injEq] at e
  obtain ⟨now, sys, mem, load, twin, hp, marks, routes, levels, regs⟩ := e
  exact h.trans ⟨now, sys, mem, load, twin, hp, marks, routes, by rw [levels], fun _ _ _ => by rw [regs]⟩

theorem setReg (h : s.domainWork t) (q : RegName) (i j : Nat) (v : Word) (hq : outsideDomain (q.addr i j) = false) :
    s.domainWork (t.setReg q i j v) :=
  h.trans ⟨rfl, rfl, rfl, rfl, rfl, rfl, rfl, rfl, rfl, fun a _ ha => SMap.get_put_ne _ _ _ _ (by rintro rfl; simp [hq] at ha)⟩

theorem setFld (h : s.domainWork t) (f : Fld) (i j v : Nat) (hf : outsideDomain (f.reg.addr i j) = false) :
    s.domainWork (t.setFld f i j v) := h.setReg _ _ _ _ hf

theorem setLv (h : s.domainWork t) (k : Nat) (b : Bool) (hk : 2 ≠ k) : s.domainWork (t.setLv k b) :=
  h.trans ⟨rfl, rfl, rfl, rfl, rfl, rfl, rfl, rfl, SMap.get_put_ne _ _ _ _ hk, fun _ _ _ => rfl⟩

theorem sched (h : s.domainWork t) (d : Nat) (c : Instr) : s.domainWork (t.sched d c) := h.quiet rfl
theorem unsched (h : s.domainWork t) (c : Instr) : s.domainWork (t.unsched c) := h.quiet rfl
theorem unschedAll (h : s.domainWork t) (p : Instr → Bool) : s.domainWork (t.unschedAll p) := h.quiet rfl
theorem modPwm (h : s.domainWork t) (n : GenId) (f : PwmSt → PwmSt) : s.domainWork (t.modPwm n f) := h.quiet rfl
theorem modCmp (h : s.domainWork t) (n : CmpId) (f : CmpSt → CmpSt) : s.domainWork (t.modCmp n f) := h.quiet rfl
theorem modPos (h : s.domainWork t) (n : PosId) (f : PosSt → PosSt) : s.domainWork (t.modPos n f) := h.quiet rfl
theorem modLe (h : s.domainWork t) (n : LeId) (f : LeSt → LeSt) : s.domainWork (t.modLe n f) := h.quiet rfl
theorem modAdc (h : s.domainWork t) (n : Conv) (f : AdcSt → AdcSt) : s.domainWork (t.modAdc n f) := h.quiet rfl
theorem modRot (h : s.domainWork t) (f : RotSt → RotSt) : s.domainWork (t.modRot f) := h.quiet rfl
theorem raiseData (h : s.domainWork t) (k : Nat) (w : Word) : s.domainWork (t.raiseData k w) := h.quiet rfl

theorem ite {c : Prop} [Decidable c] (h : s.domainWork t) (g : s.domainWork u) : s.domainWork (if c then t else u) := by
  split
  · exact h
  · exact g

theorem foldl {α : Type} {f : State → α → State} (h : ∀ t a, s.domainWork t → s.domainWork (f t a)) (l : List α) (hs : s.domainWork t) :
    s.domainWork (l.foldl f t) := foldl_keeps (fun t => s.domainWork t) h l t hs

/-! ## Generators -/

theorem pwmDrive (h : s.domainWork t) (n : GenId) (e : Nat) : s.domainWork (t.pwmDrive n e) := by
  have n16 := n.isLt
  refine (foldl (fun u x g => ?_) _ h).setLv _ _ (by simp only [pwmSrc]; omega)
  exact ite g ((g.setLv _ _ (by simp only [pwmSrc]; omega)).modPwm _ _)

theorem pwmSafe (h : s.domainWork t) (n : GenId) (lead : Bool) : s.domainWork (t.pwmSafe n lead) := (h.modPwm _ _).pwmDrive _ _

theorem pwmForceAll (h : s.domainWork t) : s.domainWork t.pwmForceAll := foldl (fun _ n g => g.pwmSafe n true) _ h

theorem pwmReady (h : s.domainWork t) : s.domainWork t.pwmReady := ite h.pwmForceAll (h.pwmForceAll.sched _ _)

/-! ## Comparators -/

theorem winSee (h : s.domainWork t) (k : WinId) : s.domainWork (t.winSee k) :=
  (((h.setLv _ _ (by omega)).setLv _ _ (by omega)).setLv _ _ (by omega)).setLv _ _ (by omega)

theorem cmpUpdate (h : s.domainWork t) (n : CmpId) : s.domainWork (t.cmpUpdate n) :=
  ite ((h.setLv _ _ (by omega)).winSee _) (h.setLv _ _ (by omega))

theorem settleNone (h : s.domainWork t) (n : CmpId) : s.domainWork (t.settleTo n none) :=
  ((h.modCmp _ _).setFld _ _ _ _ (inside_cmpStat n)).unsched _

theorem cmpReady (h : s.domainWork t) (fresh : Bool) : s.domainWork (t.cmpReady fresh) :=
  foldl (fun _ n g => (ite (g.modCmp _ _) g).cmpUpdate n) _ h

theorem dacsReady (h : s.domainWork t) : s.domainWork t.dacsReady :=
  foldl (fun _ k g => g.winSee k) _ (foldl (fun _ n g => (g.modCmp _ _).settleNone n) _ h)

/-! ## Converters -/

theorem rotStart (h : s.domainWork t) : s.domainWork t.rotStart := ite h ((h.modRot _).sched _ _)

theorem spareCalibrate (h : s.domainWork t) : s.domainWork t.spareCalibrate := h.quiet rfl

theorem adcFromMaint (h : s.domainWork t) : s.domainWork t.adcFromMaint := ite h h.spareCalibrate.rotStart

theorem adcReady (h : s.domainWork t) : s.domainWork t.adcReady :=
  foldl (fun _ x g => ((g.setFld _ _ _ _ (inside_adcStat x)).unsched _).modAdc x _) _ h

/-- Every result of a converter is marked as none yet. -/
theorem resultsNone (h : s.domainWork t) (x : Conv) : s.domainWork ((List.range 64).foldl (fun s j =>
    (s.setFld F.ADCx_RES_s_e_AGE x j 3).setFld F.ADCx_RES_s_e_VALUE x j 0) t) :=
  List.foldlRecOn _ _ h fun _ g _ hj =>
    have inside := inside_adcRes x (List.mem_range.mp hj)
    (g.setFld _ _ _ _ inside).setFld _ _ _ _ inside

theorem adcFullEntry (h : s.domainWork t) (cal : Vector SpareCal 9) : s.domainWork (t.adcFullEntry cal) :=
  have records := ((h.setReg .ADC_MAP 0 0 _ (inside_of_lt (by decide))).setReg .ADC_ROT_STAT 0 0 _ (inside_of_lt (by decide))).setReg
    .ADC_CAL_STAT 0 0 _ (inside_of_lt (by decide))
  ((foldl (fun _ _ g => g.sched _ _) _ (foldl (fun _ x g => g.resultsNone x) _ records)).modRot _).rotStart

/-! ## Interfaces -/

theorem posValid (h : s.domainWork t) (n : PosId) : s.domainWork (t.posValid n) :=
  (h.setFld _ _ _ _ (inside_posStat n)).setLv _ _ (by simp only [posSrc]; omega)

theorem posEnable (h : s.domainWork t) (n : PosId) : s.domainWork (t.posEnable n) :=
  have cleared := (((h.modPos n _).setFld F.POSn_STAT_REF _ _ _ (inside_posStat n)).setFld F.POSn_STAT_METHOD _ _ _
    (inside_posStat n)).setFld F.POSn_STAT_BUSY _ _ _ (inside_posStat n)
  (((cleared.setReg _ _ _ _ (inside_posPos n)).raiseData _ _).setReg _ _ _ _ (inside_posSpeed n)).posValid n

theorem posReady (h : s.domainWork t) (fresh : Bool) : s.domainWork (t.posReady fresh) :=
  foldl (fun _ n g => have pins := (ite (g.modPos n _) g).modPos n _; ite (pins.posEnable n) pins) _ h

/-! ## Time of day, matrix, engines -/

theorem todReady (h : s.domainWork t) : s.domainWork t.todReady := ite (h.sched _ _) h

theorem matrixStart (h : s.domainWork t) : s.domainWork t.matrixStart :=
  have idle : s.domainWork { t with mx := { t.mx with
    ev := [], nw := [], chg := [], evDone := [], nwDone := [], lvPrev := [], dlv := [], dword := [], dnew := [], stretch := []
    sw := [] } } := h.quiet rfl
  (idle.setLv 1 true (by decide)).quiet rfl

theorem matrixReady (h : s.domainWork t) (dest : ∀ r ∈ t.mx.routes, r.dest < 1024) : s.domainWork t.matrixReady :=
  matrixStart (List.foldlRecOn _ _ h fun _ g r hr => g.setReg _ _ _ _ (inside_smRen (by have := dest r hr; omega)))

theorem selReady (h : s.domainWork t) : s.domainWork t.selReady := foldl (fun _ _ g => ite (g.quiet (by rfl)) g) _ h

theorem leFreeze (h : s.domainWork t) (n : LeId) : s.domainWork (t.leFreeze n) :=
  have stopped := ((h.setReg .LEn_COAST_LC n 0 _ (inside_coastLc n)).unsched (.coastEscalate n)).modLe n fun e => { e with coast := none }
  ((stopped.setLv (leSrc n + 7) false (by simp only [leSrc]; omega)).setLv (leSrc n + 13) false (by simp only [leSrc]; omega)).modLe n _

theorem stationStop (h : s.domainWork t) : s.domainWork t.stationStop := h.quiet rfl

/-- The control domain starts for Safe-Hold out of Maintenance. -/
theorem startHold (h : s.domainWork t) : s.domainWork (t.domainStart .hold) :=
  (((((h.todReady.adcFromMaint).pwmReady).posReady false).matrixStart.cmpReady true).selReady).dacsReady

/-- It starts afresh for Ready, with routes that the configuration space holds. -/
theorem startVerify (h : s.domainWork t) (cal : Vector SpareCal 9) (dest : ∀ r ∈ t.mx.routes, r.dest < 1024) :
    s.domainWork (t.domainStart (.verify cal)) := by
  have pins := (((refl t).todReady.adcFullEntry cal).adcReady).pwmReady.posReady true
  exact h.trans (((pins.matrixReady (by rw [pins.routes]; exact dest)).cmpReady true).selReady).dacsReady

theorem frozen (h : s.domainWork t) : s.domainWork t.frozen := ((foldl (fun _ n g => g.leFreeze n) _ h).pwmForceAll).stationStop

end State.domainWork

end Sys2Proof.Machine
end

