-- ==== Sys2Proof/Proofs/Verify.lean ====
section
/-! PROOF. Loading over the host port, what a discarded load leaves, and Verify (R237 to R240, R417, R419, R420). -/

namespace Sys2Proof.Machine
variable {s : State}

/-! ## What is discarded -/

/-- The register at an address stays when a load is discarded. -/
def staysOnDiscard (a : Nat) : Bool :=
  match regAt a with
  | some (r, _, _) => !!keptByDiscard r
  | none => true

theorem State.discard_reg (s : State) {q : RegName} {i j : Nat} (stays : staysOnDiscard (q.addr i j) = true)
    (h : q.addr i j ≠ RegName.FL_STAT.addr 0 0) : s.discard.reg q i j = s.reg q i j := by
  have regs : s.discard.regs = (({ s with regs := s.regs.filter fun e => staysOnDiscard e.1 } : State).setFld
      F.FL_STAT_WSCLAMP 0 0 0).regs := by
    unfold State.discard State.dropCopy
    dsimp only
    split <;> rfl
  have same : s.discard.reg q i j = ({ s with regs := s.regs.filter fun e => staysOnDiscard e.1 } : State).reg q i j :=
    (congrArg (fun m : SMap Word => m.get (q.addr i j) (regDefault (q.addr i j))) regs).trans (State.setFld_reg_ne _ _ h)
  rw [same, State.reg, State.reg, SMap.get, SMap.get, SMap.find?_filter staysOnDiscard, stays]
  rfl

theorem State.discard_spec (s : State) :
    s.discard.load = ⟨.none, [], 0, 0⟩ ∧ s.discard.sys = { s.sys with bg := [], digest := [] } ∧ s.discard.twin = s.twin := by
  unfold State.discard State.dropCopy
  dsimp only
  split <;> exact ⟨rfl, rfl, rfl⟩

/-- Back in Blank: the cause is recorded, the image and its settings are gone; the twin block and its registers stay. -/
theorem State.toBlank_spec (s : State) {c : Nat} (hc : c < 256) :
    ∃ t, s.toBlank c = t ∧ t.sys.mode = .blank ∧ t.fld F.SYS_START_VCAUSE 0 0 = c ∧ t.load.img = [] ∧ t.sys.bg = [] ∧ t.twin = s.twin ∧
      (∀ q, staysOnDiscard (q.addr 0 0) = true → q.addr 0 0 ≠ RegName.FL_STAT.addr 0 0 → q.addr 0 0 ≠ RegName.SYS_START.addr 0 0 →
        t.reg q 0 0 = s.reg q 0 0) := by
  obtain ⟨load, sys, twin⟩ := s.discard_spec
  refine ⟨_, rfl, ?_⟩
  rw [State.toBlank]
  have kept (q : RegName) (h1 : staysOnDiscard (q.addr 0 0) = true) (h2 : q.addr 0 0 ≠ RegName.FL_STAT.addr 0 0) :=
    s.discard_reg (i := 0) (j := 0) h1 h2
  generalize s.discard = u at *
  refine ⟨rfl, ?_, congrArg LoadSt.img load, congrArg SysSt.bg sys, twin, fun q h1 h2 h3 => ?_⟩
  · rw [State.setMode_fld, State.fld_setFld_same _ _ _ _ _ (by decide)]
    exact Nat.mod_eq_of_lt hc
  · rw [State.setMode_reg, State.setFld_reg_ne _ _ h3]
    exact kept q h1 h2

/-! ## Loading over the host port -/

/-- A LOAD frame: what its payload names. -/
theorem exec_hpLoad {f : HpFrame} {off : Word} {d : List Byte} (hl : s.hpLive = true)
    (hg : hpReceive f 0x02 (Word.bytes off ++ d) = .good (Word.bytes off ++ d)) (h4 : 4 ≤ d.length) (h4096 : d.length ≤ 4096)
    (words : d.length % 4 = 0) :
    exec (.hpLoad f off d) s = .next ((s.hostLoad off.toNat d).2.hpRespond 0x02 f (s.hostLoad off.toNat d).1 []) := by
  have got := hpCmd_good hl hg fun p s =>
    let d := p.drop 4
    if d.length < 4 ∨ 4096 < d.length ∨ d.length % 4 ≠ 0 then s.hpRespond 0x02 f .badCmd []
    else
      let r := s.hostLoad (wordOfBytes p).toNat d
      r.2.hpRespond 0x02 f r.1 []
  have rest : (Word.bytes off ++ d).drop 4 = d := by
    rw [List.drop_append_of_le_length (by rw [Word.bytes, leBytes_length]), List.drop_of_length_le (by rw [Word.bytes, leBytes_length])]
    rfl
  have place : wordOfBytes (Word.bytes off ++ d) = off := (wordOfBytes_leBytes off.toNat d).trans ((BitVec.ofNat_toNat 32 off).trans (BitVec.setWidth_eq off))
  have fits : ¬(d.length < 4 ∨ 4096 < d.length ∨ d.length % 4 ≠ 0) := by omega
  dsimp only at got
  rw [rest, place, if_neg fits] at got
  exact got

/-- While bytes are missing they are kept. -/
theorem State.loadBytes_short {d : List Byte} (h : (s.load.img ++ d).length < 16 ∨ (s.load.img ++ d).length < imgLength (s.load.img ++ d)) :
    s.loadBytes d = { s with load := { s.load with img := s.load.img ++ d } } := by
  simp only [State.loadBytes, if_pos h]

/-- The last byte ends Loading. -/
theorem State.loadBytes_full {d : List Byte} (h16 : 16 ≤ (s.load.img ++ d).length)
    (h : imgLength (s.load.img ++ d) ≤ (s.load.img ++ d).length) : (s.loadBytes d).sys.mode = .verify := by
  simp only [State.loadBytes]
  rw [if_neg (by omega)]
  rfl

/-! ## Verify -/

theorem Route.mem_insert {r q : Route} : ∀ {rs : List Route}, q ∈ Route.insert r rs → q = r ∨ q ∈ rs
  | [], h => .inl (List.mem_singleton.mp h)
  | x :: xs, h => by
    rw [Route.insert] at h
    split at h
    · exact List.mem_cons.mp h
    · rcases List.mem_cons.mp h with rfl | h
      · exact .inr (.head _)
      · exact (Route.mem_insert h).imp id (.tail _)

/-- Routes of the configuration space lead to destinations of the matrix. -/
theorem State.decodeRoutes_dest (s : State) : ∀ r ∈ s.decodeRoutes, r.dest < 1024 := by
  refine List.foldlRecOn (motive := fun rs : List Route => ∀ r ∈ rs, r.dest < 1024) _ _ (fun _ h => nomatch h) fun rs ih q hq r hr => ?_
  rcases Route.mem_insert hr with rfl | hr
  · obtain ⟨d, hd, rfl⟩ := List.mem_map.mp (List.mem_filter.mp hq).1
    exact List.mem_range.mp hd
  · exact ih r hr

theorem State.decodeRoutes_of_mem {t : State} (h : t.mem = s.mem) : t.decodeRoutes = s.decodeRoutes := by
  have entry : t.routeEntry = s.routeEntry := by
    funext d
    simp only [State.routeEntry, State.word, State.readLE, State.byte, h]
  rw [State.decodeRoutes, State.decodeRoutes, entry]

theorem State.takeRoutes_routes (s : State) : s.takeRoutes.mx.routes = s.decodeRoutes := by
  unfold State.takeRoutes
  dsimp only

theorem State.takeRoutes_reg (s : State) (q : RegName) : s.takeRoutes.reg q 0 0 = s.reg q 0 0 := by
  simp only [State.takeRoutes, State.reg]

/-- The parts of the state that the image in force determines, or that follow it. -/
def State.ofImage (s : State) := (s.load, s.mx.routes, s.sys.digest, s.sys.mode, s.sys.prev, s.regs)

/-- t is s after work of the control domain, the twin block and the pairs that leaves the image in force. -/
structure State.imageKept (s t : State) : Prop where
  load : t.load = s.load
  routes : t.mx.routes = s.mx.routes
  digest : t.sys.digest = s.sys.digest
  mode : t.sys.mode = s.sys.mode
  prev : t.sys.prev = s.sys.prev
  outside : ∀ a d, outsideDomain a = true → a ≠ RegName.TW_STAT.addr 0 0 → t.regs.get a d = s.regs.get a d

namespace State.imageKept
variable {t u : State}

theorem trans (h : s.imageKept t) (g : t.imageKept u) : s.imageKept u :=
  ⟨g.load.trans h.load, g.routes.trans h.routes, g.digest.trans h.digest, g.mode.trans h.mode, g.prev.trans h.prev,
    fun a d h1 h2 => (g.outside a d h1 h2).trans (h.outside a d h1 h2)⟩

theorem ofWork (h : s.domainWork t) : s.imageKept t :=
  ⟨h.load, h.routes, congrArg SysSt.digest h.sys, congrArg SysSt.mode h.sys, congrArg SysSt.prev h.sys, fun a d h1 _ => h.outside a d h1⟩

theorem work (h : s.imageKept t) (g : t.domainWork u) : s.imageKept u := h.trans (ofWork g)

/-- A change of none of these. -/
theorem quiet (h : s.imageKept t) (e : u.ofImage = t.ofImage) : s.imageKept u := by
  simp only [ofImage, Prod.mk.injEq] at e
  obtain ⟨load, routes, digest, mode, prev, regs⟩ := e
  exact h.trans ⟨load, routes, digest, mode, prev, fun _ _ _ _ => by rw [regs]⟩

theorem twStat (h : s.imageKept t) (f : Fld) (v : Nat) (hf : f.reg = .TW_STAT) : s.imageKept (t.setFld f 0 0 v) :=
  h.trans ⟨rfl, rfl, rfl, rfl, rfl, fun _ _ _ h2 => SMap.get_put_ne _ _ _ _ (by rw [hf]; exact h2)⟩

theorem setOwn (h : s.imageKept t) (b : Bool) : s.imageKept (t.setOwn b) := (h.twStat F.TW_STAT_OWN _ rfl).quiet rfl

theorem runEnd (h : s.imageKept t) : s.imageKept t.runEnd := by
  have frozen : s.imageKept t.frozen := h.work (State.domainWork.refl t).frozen
  rw [State.runEnd_eq]
  generalize t.frozen = u at *
  exact ((frozen.twStat F.TW_STAT_FHOLD 0 rfl).twStat F.TW_STAT_PAIRED 0 rfl).quiet rfl

/-- A register outside the domain and TW_STAT reads as before. -/
theorem reg (h : s.imageKept t) (q : RegName) (h1 : outsideDomain (q.addr 0 0) = true) (h2 : q.addr 0 0 ≠ RegName.TW_STAT.addr 0 0) :
    t.reg q 0 0 = s.reg q 0 0 := h.outside _ _ h1 h2

end State.imageKept

/-- SAFE_N, where it is low, holds the pins from the start of Ready. -/
def State.pinsHeld (s : State) : State := if s.sys.safeNLow then (s.pwmForceAll).sched 16 .safeNTimeout else s

/-- The pairs start afresh. -/
def State.pairsBegun (s : State) : State :=
  (List.finRange 4).foldl (fun s (p : Pair) => (s.setPair p PairSt.init).sched 0 (.sweepSnapshot p)) s

/-- The event controller knows nothing of the pairs; an interrupted sector is told. -/
def State.eventsBegun (s : State) : State :=
  let s : State := { s with evc := { s.evc with lock := EvcSt.init.lock, ie := EvcSt.init.ie, tid := EvcSt.init.tid } }
  if (List.range 16).any (fun j => s.reg .FL_INTERRUPTEDj j 0 != 0) then s.evcRaise 0x19B else s

/-- What entry into Ready does once the control domain has started afresh. -/
def State.readyBegun (s : State) : State :=
  let t := s.now
  let s := (({ s with sys := { s.sys with readyAt := t } } : State).sched 0 .reservationWindow).pinsHeld
  ((s.modTwin fun w => { w with markAt := t, markIdx := 0, hbAt := t }).pairsBegun).eventsBegun

namespace State.imageKept
variable {t : State}

theorem pinsHeld (h : s.imageKept t) : s.imageKept t.pinsHeld := by
  unfold State.pinsHeld
  split
  · exact h.work ((State.domainWork.refl t).pwmForceAll.sched _ _)
  · exact h

theorem pairsBegun (h : s.imageKept t) : s.imageKept t.pairsBegun :=
  foldl_keeps (fun u => s.imageKept u) (fun _ _ g => g.quiet (by rfl)) _ _ h

theorem eventsBegun (h : s.imageKept t) : s.imageKept t.eventsBegun := by
  unfold State.eventsBegun
  dsimp only
  split <;> exact h.quiet rfl

theorem readyBegun (h : s.imageKept t) : s.imageKept t.readyBegun := by
  have timed : s.imageKept (({ t with sys := { t.sys with readyAt := t.now } } : State).sched 0 .reservationWindow) := h.quiet rfl
  have marked : s.imageKept (((({ t with sys := { t.sys with readyAt := t.now } } : State).sched 0 .reservationWindow).pinsHeld).modTwin
    fun w => { w with markAt := t.now, markIdx := 0, hbAt := t.now }) := timed.pinsHeld.quiet rfl
  exact marked.pairsBegun.eventsBegun

end State.imageKept

/-- Ready entered from Verify: the image in force stays. -/
theorem State.enterReady_verify (s : State) (cal : Vector SpareCal 9) (dest : ∀ r ∈ s.mx.routes, r.dest < 1024) :
    (s.setMode .ready).imageKept (s.enterReady (.verify cal)) := by
  have ended : (s.setMode .ready).imageKept (((s.setMode .ready).runEnd).setOwn false) :=
    ((State.imageKept.ofWork (.refl _)).runEnd).setOwn false
  have plain : State.enterReady s (.verify cal) = ((((s.setMode .ready).runEnd).setOwn false).domainStart (.verify cal)).readyBegun := by
    simp only [State.enterReady, State.readyBegun, State.pinsHeld, State.pairsBegun, State.eventsBegun, reduceCtorEq, if_false, if_true]
  rw [plain]
  generalize ((s.setMode .ready).runEnd).setOwn false = u at *
  have started : (s.setMode .ready).imageKept (u.domainStart (.verify cal)) :=
    ended.work ((State.domainWork.refl u).startVerify cal (by rw [ended.routes]; exact dest))
  exact started.readyBegun

/-- The owner key hash is fused: memory, the system controller and the admission word stay. -/
theorem State.fuseKey_spec (s : State) (img : List Byte) :
    (s.fuseKey img).mem = s.mem ∧ (s.fuseKey img).sys = s.sys ∧ (s.fuseKey img).reg .SYS_ADMIT 0 0 = s.reg .SYS_ADMIT 0 0 := by
  unfold State.fuseKey
  split
  · dsimp only
    have fused := List.foldlRecOn (motive := fun u : State => u.mem = s.mem ∧ u.sys = s.sys ∧ u.reg .SYS_ADMIT 0 0 = s.reg .SYS_ADMIT 0 0)
      (List.range 8) (fun u i => u.setReg .SEC_OKHi i 0 ((bytesToWords (sha256 (imgKey img))).getD i 0)) ⟨rfl, rfl, rfl⟩
      fun u ih i hi => by
        have h8 := List.mem_range.mp hi
        obtain ⟨mem, sys, admitted⟩ := ih
        have apart : RegName.SYS_ADMIT.addr 0 0 ≠ RegName.SEC_OKHi.addr i 0 := by
          have e1 : RegName.SYS_ADMIT.addr 0 0 = 0x4400001C := rfl
          have e2 : RegName.SEC_OKHi.addr i 0 = 0x44200010 + i * 4 + 0 * 0 := rfl
          omega
        exact ⟨mem, sys, (State.reg_setReg_ne u _ apart).trans admitted⟩
    obtain ⟨mem, sys, admitted⟩ := fused
    generalize (List.range 8).foldl (fun u i => u.setReg .SEC_OKHi i 0 ((bytesToWords (sha256 (imgKey img))).getD i 0)) s = u at *
    exact ⟨mem, sys, (State.setFld_reg_ne u _ (by decide)).trans admitted⟩
  · exact ⟨rfl, rfl, rfl⟩

/-- The image comes into force: its identity, routes and digest; the load is over. -/
def State.imageForced (s : State) (st : SelfTest) (img : List Byte) : State :=
  let s := ((s.fuseKey img).imgIds img).takeRoutes
  let s := if st.lines = 1 then s.setFld F.PWM_CAL_STAT_FAIL 0 0 1 else s
  { s with load := ⟨.none, [], 0, 0⟩, sys := { s.sys with digest := imgDigest img } }

theorem State.verifyPass_eq (s : State) (st : SelfTest) (img : List Byte) :
    s.verifyPass st img = ((s.imageForced st img).enterReady (.verify st.adc)).loadStatusTo s.load.src 0 5 := by
  unfold State.verifyPass State.imageForced
  dsimp only

theorem State.imageForced_spec (s : State) (st : SelfTest) (img : List Byte) :
    (s.imageForced st img).load.img = [] ∧ (s.imageForced st img).sys.digest = imgDigest img ∧
      (s.imageForced st img).sys.mode = s.sys.mode ∧ (s.imageForced st img).mx.routes = s.decodeRoutes ∧
      (s.imageForced st img).reg .SYS_ADMIT 0 0 = s.reg .SYS_ADMIT 0 0 ∧
      (s.imageForced st img).reg .SM_CFGGEN 0 0 = imgWord img 0x10 := by
  obtain ⟨mem, sys, admitted⟩ := s.fuseKey_spec img
  rw [State.imageForced]
  generalize s.fuseKey img = u at *
  have routes : ((u.imgIds img).takeRoutes).mx.routes = s.decodeRoutes := by
    rw [State.takeRoutes_routes, State.decodeRoutes_of_mem (t := u.imgIds img) mem]
  have regs (q : RegName) : ((u.imgIds img).takeRoutes).reg q 0 0 = (u.imgIds img).reg q 0 0 := State.takeRoutes_reg _ _
  have number : ((u.imgIds img).takeRoutes).reg .SM_CFGGEN 0 0 = imgWord img 0x10 := by
    rw [regs, State.imgIds, State.reg_setReg_same]
  have word : ((u.imgIds img).takeRoutes).reg .SYS_ADMIT 0 0 = s.reg .SYS_ADMIT 0 0 := by
    rw [regs, State.imgIds, State.reg_setReg_ne _ _ (by decide), State.reg_setReg_ne _ _ (by decide), admitted]
  have mode : ((u.imgIds img).takeRoutes).sys.mode = s.sys.mode := congrArg SysSt.mode sys
  generalize (u.imgIds img).takeRoutes = v at *
  dsimp only
  split
  · exact ⟨rfl, rfl, mode, routes, (State.setFld_reg_ne v (f := F.PWM_CAL_STAT_FAIL) (q := .SYS_ADMIT) _ (by decide)).trans word,
      (State.setFld_reg_ne v (f := F.PWM_CAL_STAT_FAIL) (q := .SM_CFGGEN) _ (by decide)).trans number⟩
  · exact ⟨rfl, rfl, mode, routes, word, number⟩

/-- The peer's notice touches the twin block's frames alone. -/
theorem State.loadStatusTo_spec (s : State) (src : LoadSrc) (w : Word) (m : Nat) :
    (s.loadStatusTo src w m).regs = s.regs ∧ (s.loadStatusTo src w m).sys = s.sys ∧ (s.loadStatusTo src w m).load = s.load ∧
      (s.loadStatusTo src w m).mx = s.mx := by
  unfold State.loadStatusTo State.twSend
  split
  · split <;> exact ⟨rfl, rfl, rfl, rfl⟩
  · exact ⟨rfl, rfl, rfl, rfl⟩

/-- Verify ends well: Ready, with the image in force. -/
theorem State.verifyPass_spec (s : State) (st : SelfTest) (img : List Byte) :
    ∃ t, s.verifyPass st img = t ∧ t.sys.mode = .ready ∧ t.sys.prev = s.sys.mode ∧ t.reg .SYS_ADMIT 0 0 = s.reg .SYS_ADMIT 0 0 ∧
      t.sys.digest = imgDigest img ∧ t.load.img = [] ∧ t.mx.routes = s.decodeRoutes ∧ t.reg .SM_CFGGEN 0 0 = imgWord img 0x10 := by
  obtain ⟨load, digest, mode, routes, admitted, number⟩ := s.imageForced_spec st img
  rw [State.verifyPass_eq]
  generalize s.imageForced st img = u at *
  have kept := u.enterReady_verify st.adc (by rw [routes]; exact s.decodeRoutes_dest)
  generalize u.enterReady (.verify st.adc) = v at *
  obtain ⟨regs, sys, load', mx⟩ := v.loadStatusTo_spec s.load.src 0 5
  have reg (q : RegName) : (v.loadStatusTo s.load.src 0 5).reg q 0 0 = v.reg q 0 0 :=
    congrArg (fun m : SMap Word => m.get (q.addr 0 0) (regDefault (q.addr 0 0))) regs
  refine ⟨_, rfl, ?_, ?_, ?_, ?_, ?_, ?_, ?_⟩
  · rw [sys, kept.mode]; rfl
  · rw [sys, kept.prev]; exact mode
  · rw [reg, kept.reg _ (by decide) (by decide)]; exact admitted
  · rw [sys, kept.digest]; exact digest
  · rw [load', kept.load]; exact load
  · rw [mx, kept.routes]; exact routes
  · rw [reg, kept.reg _ (by decide) (by decide)]; exact number

/-- The pairs' self-test results are written to their status registers. -/
def State.injWritten (s : State) (st : SelfTest) : State :=
  (List.finRange 4).foldl (fun s (p : Pair) => s.setFld F.LP_LS_STAT_INJ p 0 (st.inj.getD p 0).toNat) s

theorem State.injWritten_spec (s : State) (st : SelfTest) :
    (s.injWritten st).mem = s.mem ∧ (s.injWritten st).sys = s.sys ∧ (s.injWritten st).reg .SYS_ADMIT 0 0 = s.reg .SYS_ADMIT 0 0 := by
  refine foldl_keeps (fun u : State => u.mem = s.mem ∧ u.sys = s.sys ∧ u.reg .SYS_ADMIT 0 0 = s.reg .SYS_ADMIT 0 0) ?_ _ _ ⟨rfl, rfl, rfl⟩
  rintro u p ⟨mem, sys, admitted⟩
  have apart : RegName.SYS_ADMIT.addr 0 0 ≠ RegName.LP_LS_STAT.addr p 0 := by
    have e1 : RegName.SYS_ADMIT.addr 0 0 = 0x4400001C := rfl
    have e2 : RegName.LP_LS_STAT.addr p 0 = 0x44308004 + p.val * 0x1000 + 0 * 0 := rfl
    omega
  exact ⟨mem, sys, (State.setFld_reg_ne u _ apart).trans admitted⟩

/-- What VERIFY_END comes to. -/
theorem exec_verifyEnd {st : SelfTest} (hm : s.mode = .verify) : exec (.verifyEnd st) s =
    let v := s.verdict s.load.img
    let a := s.setReg .SYS_ADMIT 0 0 (verdictWord v)
    .next (if v.isSome then (a.toBlank 0x10).loadStatusTo s.load.src (verdictWord v) 2
      else if selfTestCause st ≠ 0 then ((a.injWritten st).toBlank (selfTestCause st)).loadStatusTo s.load.src (verdictWord v) 2
      else (a.injWritten st).verifyPass st s.load.img) := by
  change execVerifyEnd st s = _
  simp only [execVerifyEnd, hm, ne_eq, not_true_eq_false, if_false, State.injWritten]
  split <;> rfl

theorem selfTestCause_lt (st : SelfTest) : selfTestCause st < 256 := by
  unfold selfTestCause
  repeat' split
  all_goals decide

/-- A failed Verify: Blank with its cause, the admission word kept. -/
theorem State.verifyFail_spec (s : State) {c : Nat} (hc : c < 256) (src : LoadSrc) (w : Word) :
    ∃ t, (s.toBlank c).loadStatusTo src w 2 = t ∧ t.sys.mode = .blank ∧ t.fld F.SYS_START_VCAUSE 0 0 = c ∧ t.load.img = [] ∧
      t.sys.bg = [] ∧ t.reg .SYS_ADMIT 0 0 = s.reg .SYS_ADMIT 0 0 := by
  obtain ⟨u, hu, mode, cause, load, bg, -, kept⟩ := s.toBlank_spec hc
  rw [hu]
  obtain ⟨regs, sys, load', -⟩ := u.loadStatusTo_spec src w 2
  have admitted : (u.loadStatusTo src w 2).reg .SYS_ADMIT 0 0 = u.reg .SYS_ADMIT 0 0 :=
    congrArg (fun m : SMap Word => m.get (RegName.SYS_ADMIT.addr 0 0) (regDefault (RegName.SYS_ADMIT.addr 0 0))) regs
  exact ⟨_, rfl, by rw [sys, mode], by rw [State.fld_of_regs regs, cause], by rw [load', load], by rw [sys, bg],
    admitted.trans (kept .SYS_ADMIT (by decide) (by decide) (by decide))⟩

/-! ## Settled -/

/-- With the clocks running the mode is the system controller's. -/
theorem State.mode_of_clocks (h : s.flag F.SYS_CLK_STAT_CLK_LOST 0 0 = false) : s.mode = s.sys.mode := by
  simp only [State.mode, h, Bool.false_and, Bool.false_eq_true, if_false]

theorem State.loadBegin_src (s : State) : (s.loadBegin .host).fld F.SYS_START_SRC 0 0 = 1 := by
  have regs : (s.loadBegin .host).regs = (((s.setFld F.SYS_START_SRC 0 0 1).bump F.SYS_START_LOADS 0 0).setFld F.SYS_START_VCAUSE 0 0 0).regs := rfl
  have bumped : ((s.setFld F.SYS_START_SRC 0 0 1).bump F.SYS_START_LOADS 0 0).regs = ((s.setFld F.SYS_START_SRC 0 0 1).setFld
    F.SYS_START_LOADS 0 0 (min F.SYS_START_LOADS.max ((s.setFld F.SYS_START_SRC 0 0 1).fld F.SYS_START_LOADS 0 0 + 1))).regs := rfl
  rw [State.fld_of_regs regs, State.fld_setFld_apart (f := F.SYS_START_VCAUSE) (g := F.SYS_START_SRC) _ _ rfl (by decide) (by decide) (by decide),
    State.fld_of_regs bumped, State.fld_setFld_apart (f := F.SYS_START_LOADS) (g := F.SYS_START_SRC) _ _ rfl (by decide) (by decide) (by decide),
    State.fld_setFld_same _ _ _ _ _ (by decide)]
  rfl

/-- The first frame of a load. -/
theorem State.hostLoad_first {d : List Byte} (hm : s.sys.mode = .blank) (hc : s.mode = s.sys.mode) (hl : s.fl.lower = none)
    (missing : d.length < 16 ∨ d.length < imgLength d) :
    ∃ t, s.hostLoad 0 d = (.ok, t) ∧ t.sys.mode = .loading ∧ t.load.src = .host ∧ t.load.img = d ∧ t.fld F.SYS_START_SRC 0 0 = 1 ∧
      (s.now + hostLoadLc, Instr.hostLoadTimeout) ∈ t.cal := by
  have first : s.hostLoad 0 d = (.ok, ((s.loadBegin .host).sched hostLoadLc .hostLoadTimeout).loadBytes d) := by
    simp [State.hostLoad, hm, hc, hl]
  have src := s.loadBegin_src
  have now : (s.loadBegin .host).now = s.now := (State.setMode_now _ _).trans rfl
  have begun : (s.loadBegin .host).load = ⟨.host, [], 0, s.now⟩ := rfl
  have loading : (s.loadBegin .host).sys.mode = .loading := rfl
  generalize s.loadBegin .host = u at *
  have bytes : (u.sched hostLoadLc .hostLoadTimeout).load.img ++ d = d := congrArg (LoadSt.img · ++ d) begun
  have short := State.loadBytes_short (s := u.sched hostLoadLc .hostLoadTimeout) (d := d) (by rw [bytes]; exact missing)
  rw [bytes] at short
  exact ⟨_, first.trans (congrArg (Prod.mk HpStatus.ok) short), loading, congrArg LoadSt.src begun, rfl, src, State.mem_sched now _ _⟩

/-- The next frame, in order. -/
theorem State.hostLoad_next {d : List Byte} (hm : s.sys.mode = .loading) (hs : s.load.src = .host) :
    s.hostLoad s.load.img.length d = (.ok, (s.sched hostLoadLc .hostLoadTimeout).loadBytes d) := by
  have same : s.load.img.length = (s.sched hostLoadLc .hostLoadTimeout).load.img.length := rfl
  simp only [State.hostLoad, hm, if_neg (not_not.mpr hs), if_pos same]

/-- A frame out of order restarts the wait alone. -/
theorem State.hostLoad_gap {k : Nat} {d : List Byte} (hm : s.sys.mode = .loading) (hs : s.load.src = .host) (hk : k ≠ s.load.img.length) :
    s.hostLoad k d = (.seqErr, s.sched hostLoadLc .hostLoadTimeout) := by
  have other : ¬k = (s.sched hostLoadLc .hostLoadTimeout).load.img.length := hk
  simp only [State.hostLoad, hm, if_neg (not_not.mpr hs), if_neg other]

/-- A device that runs takes no load. -/
theorem State.hostLoad_running {k : Nat} {d : List Byte} (hc : s.sys.mode.cores = true) : s.hpLive = true ∧ s.hostLoad k d = (.mode, s) := by
  cases hm : s.sys.mode <;> rw [hm] at hc <;> simp_all [State.hpLive, State.hostLoad, Mode.cores, Mode.live]

/-- Settles O52, from the frames of a load, what is discarded, and the frame of entry into Ready. -/
theorem hostLoadAndVerify : Obligations.HostLoadAndVerify := by
  unfold Obligations.HostLoadAndVerify
  intro s f off d st clocks
  have mode := State.mode_of_clocks clocks
  intro img status back
  refine ⟨?_, ?_, ?_⟩
  · rintro p hg rfl h4 h4096 words
    have live {m : Mode} (hm : s.sys.mode = m) (h1 : m ≠ .reset) (h2 : m ≠ .retention) : s.hpLive = true := by
      simp [State.hpLive, hm, h1, h2]
    refine ⟨?_, ?_, ?_, ?_⟩
    · intro hm hl h0 missing
      have loaded := exec_hpLoad (live hm (by decide) (by decide)) hg h4 h4096 words
      obtain ⟨t, ht, loading, src, bytes, by_, timeout⟩ := State.hostLoad_first hm mode hl missing
      rw [h0, show (0 : Word).toNat = 0 from rfl, ht] at loaded
      rw [h0]
      exact ⟨_, loaded, loading, src, bytes, rfl, by_, timeout⟩
    · intro hm hl h0
      have loaded := exec_hpLoad (live hm (by decide) (by decide)) hg h4 h4096 words
      have far : off.toNat ≠ 0 := fun h => h0 (BitVec.eq_of_toNat_eq h)
      have busy : s.hostLoad off.toNat d = (.busy, s) := by simp [State.hostLoad, hm, far]
      rw [busy] at loaded
      exact ⟨_, loaded, rfl, rfl, rfl⟩
    · intro hm hs
      have loaded := exec_hpLoad (live hm (by decide) (by decide)) hg h4 h4096 words
      refine ⟨fun inOrder => ?_, fun gap => ?_⟩
      · rw [inOrder, State.hostLoad_next hm hs] at loaded
        refine ⟨_, loaded, rfl, fun missing => ?_, fun h16 whole => State.loadBytes_full (s := s.sched hostLoadLc .hostLoadTimeout) h16 whole⟩
        rw [State.loadBytes_short (s := s.sched hostLoadLc .hostLoadTimeout) missing]
        exact ⟨rfl, rfl⟩
      · rw [State.hostLoad_gap hm hs gap] at loaded
        exact ⟨_, loaded, rfl, rfl, rfl, State.mem_sched (s := s) rfl _ _⟩
    · intro hc
      obtain ⟨on, running⟩ := State.hostLoad_running (s := s) (k := off.toNat) (d := d) (mode ▸ hc)
      have loaded := exec_hpLoad on hg h4 h4096 words
      rw [running] at loaded
      exact ⟨_, loaded, rfl, rfl, rfl⟩
  · intro p hg hm
    have live : s.hpLive = true := by rcases hm with hm | hm <;> simp [State.hpLive, hm]
    have aborted := hpCmd_good live hg fun _ s =>
      let s := if s.sys.mode = .loading ∨ s.sys.mode = .verify then s.toBlank 0x22 else s
      s.hpRespond 0x03 f .ok []
    dsimp only at aborted
    rw [if_pos hm] at aborted
    obtain ⟨u, hu, blank, cause, load, bg, -⟩ := s.toBlank_spec (c := 0x22) (by decide)
    rw [hu] at aborted
    exact ⟨_, aborted, ⟨blank, cause, load, bg⟩, rfl⟩
  · intro hm v
    have verify : s.sys.mode = .verify := mode ▸ hm
    have word : (s.setReg .SYS_ADMIT 0 0 (verdictWord v)).reg .SYS_ADMIT 0 0 = verdictWord v := State.reg_setReg_same _ _ _ _ _
    have ends := exec_verifyEnd (st := st) hm
    dsimp only at ends
    change exec _ s = .next (if v.isSome then ((s.setReg .SYS_ADMIT 0 0 (verdictWord v)).toBlank 0x10).loadStatusTo s.load.src (verdictWord v) 2
      else if selfTestCause st ≠ 0 then
        (((s.setReg .SYS_ADMIT 0 0 (verdictWord v)).injWritten st).toBlank (selfTestCause st)).loadStatusTo s.load.src (verdictWord v) 2
      else ((s.setReg .SYS_ADMIT 0 0 (verdictWord v)).injWritten st).verifyPass st s.load.img) at ends
    refine ⟨fun x hx => ?_, fun hv hc => ?_, fun hv hc => ?_⟩
    · obtain ⟨t, ht, blank, cause, load, bg, admitted⟩ :=
        (s.setReg .SYS_ADMIT 0 0 (verdictWord v)).verifyFail_spec (c := 0x10) (by decide) s.load.src (verdictWord v)
      rw [if_pos (by rw [hx]; rfl), ht] at ends
      exact ⟨t, ends, ⟨blank, cause, load, bg⟩, admitted.trans word⟩
    · have written := ((s.setReg .SYS_ADMIT 0 0 (verdictWord v)).injWritten_spec st).2.2
      obtain ⟨t, ht, blank, cause, load, bg, admitted⟩ := ((s.setReg .SYS_ADMIT 0 0 (verdictWord v)).injWritten st).verifyFail_spec
        (selfTestCause_lt st) s.load.src (verdictWord v)
      rw [if_neg (by rw [hv]; decide), if_pos hc, ht] at ends
      exact ⟨t, ends, ⟨blank, cause, load, bg⟩, (admitted.trans (written.trans word)).trans (by rw [hv]; rfl)⟩
    · obtain ⟨mem, sys, written⟩ := (s.setReg .SYS_ADMIT 0 0 (verdictWord v)).injWritten_spec st
      obtain ⟨t, ht, ready, prev, admitted, digest, load, routes, number⟩ :=
        ((s.setReg .SYS_ADMIT 0 0 (verdictWord v)).injWritten st).verifyPass_spec st s.load.img
      rw [if_neg (by rw [hv]; decide), if_neg (not_not.mpr hc), ht] at ends
      refine ⟨t, ends, ready, ?_, (admitted.trans (written.trans word)).trans (by rw [hv]; rfl), digest, load,
        routes.trans (State.decodeRoutes_of_mem mem), number⟩
      rw [prev, sys]
      exact verify

end Sys2Proof.Machine
end

