-- ==== Sys2Proof/Proofs/Stations.lean ====
section
/-! PROOF. Ethernet timestamps and the station cycle (R424 to R431, R456). -/

namespace Sys2Proof.Machine
variable {s : State}

/-! ## Ports -/

/-- Nothing but port p's own state is touched. -/
def State.portAlone (s t : State) (p : Fin 2) : Prop :=
  t.regs = s.regs ∧ t.mem = s.mem ∧ t.sc = s.sc ∧ ∀ o : Fin 2, o ≠ p → t.eth[o] = s.eth[o]

theorem State.portAlone_of (s : State) (p : Fin 2) (x : EthSt) : s.portAlone { s with eth := vset s.eth p x } p :=
  ⟨rfl, rfl, rfl, fun _ h => vset_getElem_ne _ _ (Ne.symm h)⟩

/-- The entry of a timestamped frame. -/
def State.stampEntry (s : State) (egress : Bool) (ty : Nat) (q : BitVec 16) (c : Int) : List Word :=
  BitVec.ofNat 32 (2 ^ 31 + (if egress then 2 ^ 30 else 0) + ty * 2 ^ 24 + q.toNat) :: s.ethStamp c

theorem State.timestamp_room {p : Fin 2} {k : EthKind} {ty : Nat} (egress : Bool) (q : BitVec 16) (c : Int) (hk : msgType k = some ty)
    (room : s.eth[p].fifo.length < 16) : ∃ t, s.timestamp p egress k q c = t ∧ s.portAlone t p ∧
      t.eth[p] = { s.eth[p] with fifo := s.eth[p].fifo ++ [s.stampEntry egress ty q c] } := by
  refine ⟨_, rfl, ?_⟩
  simp only [State.timestamp, hk, if_neg (Nat.not_le.mpr room)]
  exact ⟨State.portAlone_of _ _ _, vset_getElem_same _ _ _⟩

theorem State.timestamp_full {p : Fin 2} {k : EthKind} {ty : Nat} (egress : Bool) (q : BitVec 16) (c : Int) (hk : msgType k = some ty)
    (full : 16 ≤ s.eth[p].fifo.length) : s.timestamp p egress k q c = s.bump F.ETHn_ERR_CNT_TSOVF p 0 := by
  simp only [State.timestamp, hk, if_pos full]

theorem exec_ethFrameRx_on {p : Fin 2} {k : EthKind} (on : s.ethOn p = true) (hk : k ≠ .pause) (q : BitVec 16) (c : Int) :
    exec (.ethFrameRx p k q c) s = .next (s.timestamp p false k q c) := by
  change execEthFrameRx p k q c s = _
  simp only [execEthFrameRx, on, Bool.not_true, Bool.false_eq_true, if_false, if_neg hk]

theorem exec_ethFrameTx (p : Fin 2) (k : EthKind) (q : BitVec 16) (c : Int) :
    exec (.ethFrameTx p k q c) s = .next (if s.ethSends p then s.timestamp p true k q c else s) := rfl

theorem State.ethSends_of {p : Fin 2} (on : s.ethOn p = true) (rxc : s.eth[p].rxc = true) (hs : s.mode ≠ .runStandby)
    (hh : s.mode = .handover → s.flag F.TW_STAT_OWN 0 0 = true) : s.ethSends p = true := by
  have own : (decide (s.mode ≠ .handover) || s.flag F.TW_STAT_OWN 0 0) = true := by
    by_cases h : s.mode = .handover
    · rw [hh h, Bool.or_true]
    · rw [decide_eq_true h, Bool.true_or]
  simp only [State.ethSends, on, rxc, own, decide_eq_true hs, Bool.and_self]

theorem State.not_ethSends {p : Fin 2} (h : s.eth[p].rxc = false ∨ s.mode = .runStandby ∨ (s.mode = .handover ∧ s.flag F.TW_STAT_OWN 0 0 = false)) :
    s.ethSends p = false := by
  rcases h with h | h | ⟨h, own⟩
  · simp only [State.ethSends, h, Bool.and_false, Bool.false_and]
  · simp [State.ethSends, h]
  · simp [State.ethSends, h, own]

/-- Frames without a message type leave no timestamp. -/
theorem State.timestamp_none {k : EthKind} (hk : msgType k = none) (p : Fin 2) (egress : Bool) (q : BitVec 16) (c : Int) :
    s.timestamp p egress k q c = s := by
  simp only [State.timestamp, hk]

/-! ## Stations -/

/-- What the engine holds of station k, its registers and the engine's own state are as they were. -/
def State.stationKept (s t : State) (k : Station) : Prop :=
  t.sc.st[k] = s.sc.st[k] ∧ t.sc.cycle = s.sc.cycle ∧ t.sc.readAt = s.sc.readAt ∧ t.now = s.now ∧
    t.reg .SC_STs_CFG k 0 = s.reg .SC_STs_CFG k 0 ∧ t.reg .SC_STs_STAT k 0 = s.reg .SC_STs_STAT k 0

theorem State.stationKept.trans {t u : State} {k : Station} (h : s.stationKept t k) (g : t.stationKept u k) : s.stationKept u k := by
  obtain ⟨h1, h2, h3, h4, h5, h6⟩ := h
  obtain ⟨g1, g2, g3, g4, g5, g6⟩ := g
  exact ⟨g1.trans h1, g2.trans h2, g3.trans h3, g4.trans h4, g5.trans h5, g6.trans h6⟩

theorem stationCfg_addr (k : Nat) : RegName.SC_STs_CFG.addr k 0 = 0x43220100 + k * 8 + 0 * 0 := rfl
theorem stationStat_addr (k : Nat) : RegName.SC_STs_STAT.addr k 0 = 0x43220104 + k * 8 + 0 * 0 := rfl

theorem stationCfg_ne_stat (k q : Nat) : RegName.SC_STs_CFG.addr k 0 ≠ RegName.SC_STs_STAT.addr q 0 := by
  rw [stationCfg_addr, stationStat_addr]
  omega

theorem stationStat_ne {k q : Station} (h : q ≠ k) : RegName.SC_STs_STAT.addr k 0 ≠ RegName.SC_STs_STAT.addr q 0 := by
  rw [stationStat_addr, stationStat_addr]
  have := Fin.val_ne_of_ne h
  omega

/-- A write to another station's status. -/
theorem State.stationKept.setStat {t : State} {k q : Station} (h : s.stationKept t k) (hq : q ≠ k) (f : Fld) (v : Nat) (hf : f.reg = .SC_STs_STAT) :
    s.stationKept (t.setFld f q 0 v) k :=
  h.trans ⟨rfl, rfl, rfl, rfl, State.setFld_reg_ne t v (by rw [hf]; exact stationCfg_ne_stat _ _),
    State.setFld_reg_ne t v (by rw [hf]; exact stationStat_ne hq)⟩

theorem State.stationKept.modStation {t : State} {k q : Station} (h : s.stationKept t k) (hq : q ≠ k) (f : ScStation → ScStation) :
    s.stationKept (t.modStation q f) k :=
  h.trans ⟨vset_getElem_ne _ _ hq, rfl, rfl, rfl, rfl, rfl⟩

theorem State.stationKept.refl (s : State) (k : Station) : s.stationKept s k := ⟨rfl, rfl, rfl, rfl, rfl, rfl⟩

theorem State.stationKept.bumpStat {t : State} {k q : Station} (h : s.stationKept t k) (hq : q ≠ k) :
    s.stationKept (t.bump F.SC_STs_STAT_MISS q 0) k :=
  h.trans ⟨rfl, rfl, rfl, rfl, State.reg_setReg_ne _ _ (stationCfg_ne_stat _ _), State.reg_setReg_ne _ _ (stationStat_ne hq)⟩

/-- What came from station k in this cycle. -/
def State.cameNow (s : State) (k : Station) : Option (Word × List Byte) := s.sc.st[k].last.filter fun l => decide (l.1 = s.sc.cycle)

theorem State.inputOf_came_eq {k : Station} {l : Word × List Byte} (h : s.cameNow k = some l) : s.inputOf k =
    (s.modStation k fun y => { y with data := l.2, stale := false, miss := 0 }).setFld F.SC_STs_STAT_STALE k 0 0 := by
  rw [State.cameNow] at h
  simp only [State.inputOf, h]

/-- A station that did not come. -/
def ScStation.missed (x : ScStation) (subst : Bool) : ScStation :=
  { x with data := if subst then x.deflt else x.data, stale := true, miss := x.miss + 1 }

/-- A station at its miss: what the read stores before LOST is judged. -/
def State.missedOf (s : State) (k : Station) : State :=
  ((s.modStation k fun x => x.missed (s.flag F.SC_STs_CFG_SUBST k 0)).setFld F.SC_STs_STAT_STALE k 0 1).bump F.SC_STs_STAT_MISS k 0

theorem State.inputOf_missed {k : Station} (h : s.cameNow k = none) :
    s.inputOf k = if (s.missedOf k).fld F.SC_STs_CFG_K k 0 ≤ s.sc.st[k].miss + 1 ∧ (s.missedOf k).flag F.SC_STs_STAT_LOST k 0 = false then
      ((s.missedOf k).setFld F.SC_STs_STAT_LOST k 0 1).evcRaise 0x1C2 else s.missedOf k := by
  rw [State.cameNow] at h
  simp only [State.inputOf, h]
  rfl

/-- The input read of another station. -/
theorem State.inputOf_other {k q : Station} (hq : q ≠ k) : s.stationKept (s.inputOf q) k := by
  cases h : s.cameNow q with
  | some l =>
    rw [State.inputOf_came_eq h]
    exact ((State.stationKept.refl s k).modStation hq _).setStat hq _ _ rfl
  | none =>
    have missed : s.stationKept (s.missedOf q) k := (((State.stationKept.refl s k).modStation hq _).setStat hq _ _ rfl).bumpStat hq
    rw [State.inputOf_missed h]
    split
    · exact missed.setStat hq F.SC_STs_STAT_LOST 1 rfl
    · exact missed

/-- A fold in which every element but one keeps a relation. -/
theorem foldl_focus {α β : Type} (R : β → β → Prop) (refl : ∀ b, R b b) (trans : ∀ {a b c}, R a b → R b c → R a c) {f : β → α → β} {p : α}
    {l : List α} (hl : l.Nodup) (hp : p ∈ l) (h : ∀ q, q ≠ p → ∀ t, R t (f t q)) (b : β) :
    ∃ u, R b u ∧ R (f u p) (l.foldl f b) := by
  have rest : ∀ (l : List α) (t : β), (∀ q ∈ l, q ≠ p) → R t (l.foldl f t) := by
    intro l
    induction l with
    | nil => exact fun t _ => refl t
    | cons q l ih => exact fun t hne => trans (h q (hne q (.head _)) t) (ih _ fun r hr => hne r (.tail _ hr))
  obtain ⟨l₁, l₂, rfl⟩ := List.append_of_mem hp
  rw [List.nodup_middle, List.nodup_cons] at hl
  have hne : ∀ q, q ∈ l₁ ∨ q ∈ l₂ → q ≠ p := fun q hq e => hl.1 (List.mem_append.2 (e ▸ hq))
  rw [List.foldl_append, List.foldl_cons]
  exact ⟨_, rest l₁ b fun q hq => hne q (.inl hq), rest l₂ _ fun q hq => hne q (.inr hq)⟩

theorem State.stations_nodup (s : State) : s.stations.Nodup := (List.nodup_finRange 32).filter _

theorem State.mem_stations {k : Station} : k ∈ s.stations ↔ (s.reg .SC_STEN 0 0).getLsbD k.val = true := by
  simp [State.stations]

/-- The input read, as station k sees it: the others before it and after it leave it alone. -/
theorem State.inputs_focus {k : Station} (hk : (s.reg .SC_STEN 0 0).getLsbD k.val = true) :
    ∃ u, s.stationKept u k ∧ (u.inputOf k).stationKept (s.stations.foldl State.inputOf s) k :=
  foldl_focus (fun a b => a.stationKept b k) (fun b => .refl b k) (fun h g => h.trans g) s.stations_nodup (State.mem_stations.mpr hk)
    (fun _ hq _ => State.inputOf_other hq) s

theorem State.stationKept.flag {t : State} {k : Station} (h : s.stationKept t k) (f : Fld) (hf : f.reg = .SC_STs_STAT) :
    t.flag f k 0 = s.flag f k 0 := by
  obtain ⟨-, -, -, -, -, stat⟩ := h
  simp only [State.flag, State.fld, hf, stat]

theorem State.stationKept.cfg {t : State} {k : Station} (h : s.stationKept t k) (f : Fld) (hf : f.reg = .SC_STs_CFG) :
    t.fld f k 0 = s.fld f k 0 := by
  obtain ⟨-, -, -, -, cfg, -⟩ := h
  simp only [State.fld, hf, cfg]

/-- A station that came in this cycle. -/
theorem State.inputOf_came {k : Station} {d : List Byte} (h : s.sc.st[k].last = some (s.sc.cycle, d)) :
    (s.inputOf k).sc.st[k].data = d ∧ (s.inputOf k).sc.st[k].stale = false ∧ (s.inputOf k).flag F.SC_STs_STAT_STALE k 0 = false := by
  have came : s.cameNow k = some (s.sc.cycle, d) := by
    rw [State.cameNow, h]
    simp
  rw [State.inputOf_came_eq came]
  have own : (s.modStation k fun y => { y with data := d, stale := false, miss := 0 }).sc.st[k] =
      { s.sc.st[k] with data := d, stale := false, miss := 0 } := vset_getElem_same _ _ _
  generalize State.modStation s k _ = u at *
  refine ⟨congrArg ScStation.data own, congrArg ScStation.stale own, ?_⟩
  rw [State.flag, State.fld_setFld_same _ _ _ _ _ (by decide)]
  rfl

theorem State.missedOf_spec (s : State) (k : Station) :
    (s.missedOf k).sc.st[k].stale = true ∧ (s.missedOf k).sc.st[k].miss = s.sc.st[k].miss + 1 ∧
      (s.missedOf k).sc.st[k].data = (if s.flag F.SC_STs_CFG_SUBST k 0 then s.sc.st[k].deflt else s.sc.st[k].data) ∧
      (s.missedOf k).flag F.SC_STs_STAT_STALE k 0 = true ∧ (s.missedOf k).fld F.SC_STs_CFG_K k 0 = s.fld F.SC_STs_CFG_K k 0 := by
  have own : (s.missedOf k).sc.st[k] = s.sc.st[k].missed (s.flag F.SC_STs_CFG_SUBST k 0) := vset_getElem_same _ _ _
  refine ⟨congrArg ScStation.stale own, congrArg ScStation.miss own, congrArg ScStation.data own, ?_, ?_⟩
  · rw [State.missedOf, State.flag]
    generalize State.modStation s k _ = u
    have counted : ((u.setFld F.SC_STs_STAT_STALE k 0 1).bump F.SC_STs_STAT_MISS k 0).regs = ((u.setFld F.SC_STs_STAT_STALE k 0 1).setFld
      F.SC_STs_STAT_MISS k 0 (min F.SC_STs_STAT_MISS.max ((u.setFld F.SC_STs_STAT_STALE k 0 1).fld F.SC_STs_STAT_MISS k 0 + 1))).regs := rfl
    rw [State.fld_of_regs counted, State.fld_setFld_apart (f := F.SC_STs_STAT_MISS) (g := F.SC_STs_STAT_STALE) _ _ rfl (by decide) (by decide)
      (by decide), State.fld_setFld_same _ _ _ _ _ (by decide)]
    rfl
  · have cfg : (s.missedOf k).reg .SC_STs_CFG k 0 = s.reg .SC_STs_CFG k 0 :=
      (State.reg_setReg_ne _ _ (stationCfg_ne_stat k k)).trans (State.reg_setReg_ne _ _ (stationCfg_ne_stat k k))
    exact congrArg (getBits · _ _) cfg

/-- A station that did not come: stale, one miss more, lost at its limit. -/
theorem State.inputOf_miss {k : Station} (h : s.sc.st[k].last = none) :
    (s.inputOf k).sc.st[k].stale = true ∧ (s.inputOf k).sc.st[k].miss = s.sc.st[k].miss + 1 ∧
      (s.inputOf k).flag F.SC_STs_STAT_STALE k 0 = true ∧
      (s.inputOf k).sc.st[k].data = (if s.flag F.SC_STs_CFG_SUBST k 0 then s.sc.st[k].deflt else s.sc.st[k].data) ∧
      (s.fld F.SC_STs_CFG_K k 0 ≤ s.sc.st[k].miss + 1 → (s.inputOf k).flag F.SC_STs_STAT_LOST k 0 = true) := by
  obtain ⟨stale, miss, data, shown, limit⟩ := s.missedOf_spec k
  rw [State.inputOf_missed (by rw [State.cameNow, h]; rfl), limit]
  generalize s.missedOf k = u at *
  split
  · refine ⟨stale, miss, ?_, data, fun _ => ?_⟩
    · have regs : ((u.setFld F.SC_STs_STAT_LOST k 0 1).evcRaise 0x1C2).regs = (u.setFld F.SC_STs_STAT_LOST k 0 1).regs := rfl
      rw [State.flag, State.fld_of_regs regs, State.fld_setFld_apart (f := F.SC_STs_STAT_LOST) (g := F.SC_STs_STAT_STALE) _ _ rfl (by decide)
        (by decide) (by decide)]
      exact shown
    · have regs : ((u.setFld F.SC_STs_STAT_LOST k 0 1).evcRaise 0x1C2).regs = (u.setFld F.SC_STs_STAT_LOST k 0 1).regs := rfl
      rw [State.flag, State.fld_of_regs regs, State.fld_setFld_same _ _ _ _ _ (by decide)]
      rfl
  · next kept =>
    refine ⟨stale, miss, shown, data, fun reached => ?_⟩
    cases lost : u.flag F.SC_STs_STAT_LOST k 0
    · exact absurd ⟨reached, lost⟩ kept
    · rfl

/-! ## Frames sent -/

/-- A frame of the station cycle as port p sends it. -/
def State.scFrame (s : State) (p : Fin 2) (kind st flags : Nat) (d : List Byte) : ScFrame :=
  ⟨p.val, BitVec.ofNat 16 (s.fld F.SC_CFG_ETYPE 0 0), 1, kind, (s.reg .TW_GEN 0 0).setWidth 16, s.sc.cycle, st, flags, d.length, d⟩

/-- Port p takes part in the station cycle and transmits. -/
def State.scPort (s : State) (p : Fin 2) : Prop := s.fld F.SC_CFG_PORTS 0 0 / 2 ^ p.val % 2 = 1 ∧ s.ethSends p = true

/-- t is s but for frames that have gone out since. -/
def State.sentOn (s t : State) : Prop := ∃ fs, t = { s with sc := { s.sc with out := fs ++ s.sc.out } }

theorem State.sentOn.refl (s : State) : s.sentOn s := ⟨[], rfl⟩

theorem State.sentOn.trans {t u : State} (h : s.sentOn t) (g : t.sentOn u) : s.sentOn u := by
  obtain ⟨fs, rfl⟩ := h
  obtain ⟨gs, rfl⟩ := g
  exact ⟨gs ++ fs, by simp only [List.append_assoc]⟩

theorem State.sentOn.out {t : State} (h : s.sentOn t) {f : ScFrame} (hf : f ∈ s.sc.out) : f ∈ t.sc.out := by
  obtain ⟨fs, rfl⟩ := h
  exact List.mem_append_right _ hf

/-- One port's part of a send. -/
def State.scSendOn (kind st flags : Nat) (d : List Byte) (ps : Nat) (s : State) (p : Fin 2) : State :=
  if ps / 2 ^ p.val % 2 = 1 ∧ s.ethSends p = true then { s with sc := { s.sc with out := s.scFrame p kind st flags d :: s.sc.out } } else s

theorem State.scSend_eq (s : State) (kind st flags : Nat) (d : List Byte) :
    s.scSend kind st flags d = (List.finRange 2).foldl (State.scSendOn kind st flags d (s.fld F.SC_CFG_PORTS 0 0)) s := rfl

theorem State.scSendOn_sent (kind st flags : Nat) (d : List Byte) (ps : Nat) (s : State) (p : Fin 2) :
    s.sentOn (State.scSendOn kind st flags d ps s p) := by
  unfold State.scSendOn
  split
  · exact ⟨[s.scFrame p kind st flags d], rfl⟩
  · exact .refl s

theorem State.sentOn.foldl {α : Type} {f : State → α → State} (h : ∀ (t : State) a, t.sentOn (f t a)) (l : List α) (s : State) : s.sentOn (l.foldl f s) :=
  foldl_keeps (fun t => s.sentOn t) (fun t a g => g.trans (h t a)) l s (.refl s)

theorem State.scSend_sent (s : State) (kind st flags : Nat) (d : List Byte) : s.sentOn (s.scSend kind st flags d) := by
  rw [State.scSend_eq]
  exact .foldl (State.scSendOn_sent kind st flags d _) _ _

/-- The frame goes out on every port that takes part. -/
theorem State.mem_scSend {p : Fin 2} (h : s.scPort p) (kind st flags : Nat) (d : List Byte) :
    s.scFrame p kind st flags d ∈ (s.scSend kind st flags d).sc.out := by
  obtain ⟨port, sends⟩ := h
  obtain ⟨u, hu, rest⟩ := foldl_focus State.sentOn .refl .trans (f := State.scSendOn kind st flags d (s.fld F.SC_CFG_PORTS 0 0))
    (List.nodup_finRange 2) (List.mem_finRange p) (fun q _ t => State.scSendOn_sent kind st flags d _ t q) s
  rw [State.scSend_eq]
  refine rest.out ?_
  obtain ⟨fs, rfl⟩ := hu
  have on : State.ethSends { s with sc := { s.sc with out := fs ++ s.sc.out } } p = true := sends
  rw [State.scSendOn, if_pos ⟨port, on⟩]
  exact .head _

/-- What the output write sends for station k. -/
def State.scOutput (s : State) (k : Station) : State :=
  s.scSend 3 k.val ((if s.sc.st[k].stale then 1 else 0) + (if s.sc.st[k].stale && s.flag F.SC_STs_CFG_SUBST k 0 then 2 else 0)) s.sc.st[k].out

theorem exec_stationOutputWrite (h1 : s.sc.send = true) (h2 : s.scSends = true) :
    exec .stationOutputWrite s = .next (s.stations.foldl State.scOutput (s.unsched .stationOutputWrite)) := by
  change execStationOutputWrite s = _
  have send : (s.unsched .stationOutputWrite).sc.send = true := h1
  have sends : (s.unsched .stationOutputWrite).scSends = true := h2
  simp only [execStationOutputWrite, send, sends, Bool.not_true, Bool.or_self, Bool.false_eq_true, if_false]
  rfl

/-- The output of station k goes out on every port that takes part. -/
theorem State.mem_scOutputs {p : Fin 2} (h : s.scPort p) {k : Station} {l : List Station} (hl : l.Nodup) (hk : k ∈ l) :
    s.scFrame p 3 k.val ((if s.sc.st[k].stale then 1 else 0) + (if s.sc.st[k].stale && s.flag F.SC_STs_CFG_SUBST k 0 then 2 else 0))
      s.sc.st[k].out ∈ (l.foldl State.scOutput s).sc.out := by
  obtain ⟨u, hu, rest⟩ := foldl_focus State.sentOn .refl .trans hl hk (fun q _ t => State.scSend_sent t _ _ _ _) s
  refine rest.out ?_
  obtain ⟨fs, rfl⟩ := hu
  exact State.mem_scSend (s := { s with sc := { s.sc with out := fs ++ s.sc.out } }) h _ _ _ _

/-! ## The cycle -/

/-- The cycle that begins. -/
def State.cycleBegun (s : State) : State :=
  { s with sc := { s.sc with
      cycle := s.sc.cycle + 1, send := s.scSends, readAt := some (s.now + s.scTimes.1)
      sync := s.sc.sync && decide (s.mode = .runStandby ∨ s.mode = .handover) } }

theorem exec_stationCycleBoundary (hr : s.mode.run = true) : exec .stationCycleBoundary s =
    .next (((if s.scSends then s.cycleBegun.scSend 1 0 0 [] else s.cycleBegun).evcRaise 0x1C0).sched s.scTimes.2 .stationOutputWrite) := by
  change execStationCycleBoundary s = _
  simp only [execStationCycleBoundary, hr, Bool.not_true, Bool.false_eq_true, if_false]
  rfl

theorem exec_stationInputRead (hr : s.mode.run = true) {at_ : Nat} (h : s.sc.readAt = some at_) : exec .stationInputRead s =
    .next ((s.stations.foldl State.inputOf { s with sc := { s.sc with readAt := none } }).evcRaise 0x1C1) := by
  change execStationInputRead s = _
  simp only [execStationInputRead, hr, h, Option.isNone_some, Bool.not_true, Bool.or_self, Bool.false_eq_true, if_false]
  rfl

/-- The input reads leave the engine's time and number, whatever the stations. -/
theorem State.inputOf_engine (s : State) (k : Station) : (s.inputOf k).sc.readAt = s.sc.readAt ∧ (s.inputOf k).now = s.now := by
  cases h : s.cameNow k with
  | some l => rw [State.inputOf_came_eq h]; exact ⟨rfl, rfl⟩
  | none =>
    have missed : (s.missedOf k).sc.readAt = s.sc.readAt ∧ (s.missedOf k).now = s.now := ⟨rfl, rfl⟩
    rw [State.inputOf_missed h]
    generalize s.missedOf k = u at *
    split <;> exact missed

theorem State.inputs_engine (s : State) (l : List Station) :
    (l.foldl State.inputOf s).sc.readAt = s.sc.readAt ∧ (l.foldl State.inputOf s).now = s.now :=
  foldl_keeps (fun t : State => t.sc.readAt = s.sc.readAt ∧ t.now = s.now)
    (fun t k h => ⟨(t.inputOf_engine k).1.trans h.1, (t.inputOf_engine k).2.trans h.2⟩) l s ⟨rfl, rfl⟩

/-- An INPUT frame of this cycle is taken. -/
def State.inputTaken (s : State) (k : Station) (cyc : Word) (f : InFrame) : State :=
  let s := s.modStation k fun x => { x with last := some (cyc, f.data.take f.len.toNat), miss := 0 }
  if s.flag F.SC_STs_STAT_LOST k 0 then ((s.setFld F.SC_STs_STAT_LOST k 0 0).setFld F.SC_STs_STAT_MISS k 0 0).evcRaise 0x1C3 else s

/-- The engine listens for station k on port p. -/
def State.listens (s : State) (p : Fin 2) (k : Station) : Bool :=
  s.mode.run && s.ethOn p && decide (s.fld F.SC_CFG_PORTS 0 0 / 2 ^ p.val % 2 = 1) && s.stations.contains k && s.sc.readAt.isSome

theorem exec_stationInputFrame {p : Fin 2} {k : Station} {cyc : Word} {f : InFrame} (hl : s.listens p k = true) (hs : s.mode ≠ .runStandby) :
    exec (.stationInputFrame p k ((s.reg .TW_GEN 0 0).setWidth 16) cyc f) s =
      .next (if s.inFrameOk f = false ∨ cyc ≠ s.sc.cycle ∨ (s.sc.st[k].last.any fun l => decide (l.1 = cyc)) = true then s
        else s.inputTaken k cyc f) := by
  change execStationInputFrame p k _ cyc f s = _
  have standby : ¬(s.mode = .runStandby ∧ s.sc.sync = false) := fun h => hs h.1
  rw [State.listens] at hl
  simp only [execStationInputFrame, hl, decide_true, Bool.and_true, Bool.true_and, if_neg standby]
  cases ok : s.inFrameOk f
  · simp
  · simp only [Bool.not_true, Bool.false_eq_true, if_false, Bool.true_eq_false, false_or]
    split <;> rfl

theorem State.inputTaken_spec (s : State) (k : Station) (cyc : Word) (f : InFrame) :
    ∃ t, s.inputTaken k cyc f = t ∧ t.sc.st[k] = { s.sc.st[k] with last := some (cyc, f.data.take f.len.toNat), miss := 0 } ∧
      (∀ q : Station, q ≠ k → t.sc.st[q] = s.sc.st[q]) ∧ t.flag F.SC_STs_STAT_LOST k 0 = false ∧
      (s.flag F.SC_STs_STAT_LOST k 0 = true → t.fld F.SC_STs_STAT_MISS k 0 = 0 ∧ (s.now + 1, Instr.evcEvent 0x1C3) ∈ t.cal) := by
  refine ⟨_, rfl, ?_⟩
  have own : (s.modStation k fun x => { x with last := some (cyc, f.data.take f.len.toNat), miss := 0 }).sc.st[k] =
      { s.sc.st[k] with last := some (cyc, f.data.take f.len.toNat), miss := 0 } := vset_getElem_same _ _ _
  have others (q : Station) (hq : q ≠ k) : (s.modStation k fun x => { x with last := some (cyc, f.data.take f.len.toNat), miss := 0 }).sc.st[q] =
      s.sc.st[q] := vset_getElem_ne _ _ (Ne.symm hq)
  have lost : (s.modStation k fun x => { x with last := some (cyc, f.data.take f.len.toNat), miss := 0 }).flag F.SC_STs_STAT_LOST k 0 =
      s.flag F.SC_STs_STAT_LOST k 0 := rfl
  have now : (s.modStation k fun x => { x with last := some (cyc, f.data.take f.len.toNat), miss := 0 }).now = s.now := rfl
  rw [State.inputTaken]
  generalize State.modStation s k _ = u at *
  dsimp only
  rw [← lost]
  split
  · refine ⟨own, others, ?_, fun _ => ⟨?_, ?_⟩⟩
    · have regs : (((u.setFld F.SC_STs_STAT_LOST k 0 0).setFld F.SC_STs_STAT_MISS k 0 0).evcRaise 0x1C3).regs =
        ((u.setFld F.SC_STs_STAT_LOST k 0 0).setFld F.SC_STs_STAT_MISS k 0 0).regs := rfl
      rw [State.flag, State.fld_of_regs regs, State.fld_setFld_apart (f := F.SC_STs_STAT_MISS) (g := F.SC_STs_STAT_LOST) _ _ rfl (by decide)
        (by decide) (by decide), State.fld_setFld_same _ _ _ _ _ (by decide)]
      rfl
    · exact State.fld_setFld_same _ _ _ _ _ (by decide)
    · rw [← now]
      exact List.mem_append_right _ (.head _)
  · next held =>
    exact ⟨own, others, Bool.eq_false_of_not_eq_true held, fun h => absurd h held⟩

/-! ## Settled -/

theorem exec_ethTsfifoRead {r : Req} {p : Fin 2} {peek : Bool} (h : s.admits r .read .ETHn_TSFIFO p 0) : exec (.ethTsfifoRead r p peek) s =
    .next (((s.opened r.master).tsRead p peek).2.answer ((s.opened r.master).tsRead p peek).1) := by
  change execEthTsfifoRead r p peek s = _
  exact regCmd_next_of h rfl

theorem State.tsRead_empty {p : Fin 2} (h : s.eth[p].fifo = []) (peek : Bool) : s.tsRead p peek = (0, s) := by
  simp only [State.tsRead, h]

theorem State.tsRead_peek {p : Fin 2} {w : List Word} {rest : List (List Word)} (h : s.eth[p].fifo = w :: rest) :
    s.tsRead p true = (w.getD 0 0, s) := by
  rw [State.tsRead]
  split
  · next e => exact absurd (e.symm.trans h) (by simp)
  · next v l e =>
    obtain ⟨rfl, rfl⟩ := List.cons.inj (e.symm.trans h)
    rfl

/-- A port after a read: the words of an entry are taken one by one. -/
def EthSt.taken (e : EthSt) (rest : List (List Word)) : EthSt :=
  if e.ix = 3 then { e with fifo := rest, ix := 0 } else { e with ix := e.ix + 1 }

theorem State.tsRead_take {p : Fin 2} {w : List Word} {rest : List (List Word)} (h : s.eth[p].fifo = w :: rest) :
    s.tsRead p false = (w.getD s.eth[p].ix 0, { s with eth := vset s.eth p (s.eth[p].taken rest) }) := by
  rw [State.tsRead]
  split
  · next e => exact absurd (e.symm.trans h) (by simp)
  · next v l e =>
    obtain ⟨rfl, rfl⟩ := List.cons.inj (e.symm.trans h)
    rfl

/-- The commands of an Ethernet port. -/
theorem ethernetPorts (s : State) (r : Req) (p : Fin 2) (k : EthKind) (q : BitVec 16) (c : Int) (on : Bool) :
    (∃ t, exec (.ethRxcChange p on) s = .next t ∧ t.eth[p] = { s.eth[p] with rxc := on } ∧ s.portAlone t p) ∧
      (s.ethOn p = true →
        exec (.ethFrameRx p .pause q c) s = .next (s.bump F.ETHn_ERR_CNT_PAUSE p 0) ∧
        exec (.ethFrameRx p .other q c) s = .next s ∧ exec (.ethFrameTx p .pause q c) s = .next s ∧
        exec (.ethFrameTx p .other q c) s = .next s ∧
        (∀ ty, (k = .sync ∧ ty = 0) ∨ (k = .pdelayReq ∧ ty = 2) ∨ (k = .pdelayResp ∧ ty = 3) →
          (s.eth[p].fifo.length < 16 → ∃ t, exec (.ethFrameRx p k q c) s = .next t ∧ s.portAlone t p ∧
            t.eth[p] = { s.eth[p] with fifo := s.eth[p].fifo ++ [s.stampEntry false ty q c] }) ∧
          (s.eth[p].fifo.length < 16 → s.eth[p].rxc = true → s.mode ≠ .runStandby →
            (s.mode = .handover → s.flag F.TW_STAT_OWN 0 0 = true) → ∃ t, exec (.ethFrameTx p k q c) s = .next t ∧ s.portAlone t p ∧
            t.eth[p] = { s.eth[p] with fifo := s.eth[p].fifo ++ [s.stampEntry true ty q c] }) ∧
          (16 ≤ s.eth[p].fifo.length → exec (.ethFrameRx p k q c) s = .next (s.bump F.ETHn_ERR_CNT_TSOVF p 0)))) ∧
      (s.eth[p].rxc = false ∨ s.mode = .runStandby ∨ (s.mode = .handover ∧ s.flag F.TW_STAT_OWN 0 0 = false) →
        exec (.ethFrameTx p k q c) s = .next s) ∧
      (s.admits r .read .ETHn_TSFIFO p 0 →
        (s.eth[p].fifo = [] → exec (.ethTsfifoRead r p false) s = .next (s.opened r.master) ∧
          exec (.ethTsfifoRead r p true) s = .next (s.opened r.master)) ∧
        (∀ h rest, s.eth[p].fifo = h :: rest →
          exec (.ethTsfifoRead r p true) s = .next ((s.opened r.master).answer (h.getD 0 0)) ∧
          ∃ t, exec (.ethTsfifoRead r p false) s = .next t ∧ t.ans = ⟨h.getD s.eth[p].ix 0, false⟩ ∧ s.portAlone t p ∧
            t.eth[p] = (if s.eth[p].ix = 3 then { s.eth[p] with fifo := rest, ix := 0 } else { s.eth[p] with ix := s.eth[p].ix + 1 }))) := by
  refine ⟨⟨_, rfl, vset_getElem_same _ _ _, State.portAlone_of _ _ _⟩, fun live => ⟨?_, ?_, ?_, ?_, fun ty hty => ?_⟩, fun silent => ?_,
    fun adm => ⟨fun empty => ?_, fun h rest full => ?_⟩⟩
  · change execEthFrameRx p .pause q c s = _
    simp only [execEthFrameRx, live, Bool.not_true, Bool.false_eq_true, if_false, if_true]
  · rw [exec_ethFrameRx_on live (by decide), State.timestamp_none rfl]
  · rw [exec_ethFrameTx, State.timestamp_none rfl, ite_self]
  · rw [exec_ethFrameTx, State.timestamp_none rfl, ite_self]
  · have kind : msgType k = some ty ∧ k ≠ .pause := by
      rcases hty with ⟨rfl, rfl⟩ | ⟨rfl, rfl⟩ | ⟨rfl, rfl⟩ <;> exact ⟨rfl, by decide⟩
    refine ⟨fun room => ?_, fun room rxc hs hh => ?_, fun full => ?_⟩
    · obtain ⟨t, ht, kept, own⟩ := State.timestamp_room false q c kind.1 room
      exact ⟨t, (exec_ethFrameRx_on live kind.2 q c).trans (congrArg _ ht), kept, own⟩
    · obtain ⟨t, ht, kept, own⟩ := State.timestamp_room true q c kind.1 room
      exact ⟨t, by rw [exec_ethFrameTx, if_pos (State.ethSends_of live rxc hs hh), ht], kept, own⟩
    · rw [exec_ethFrameRx_on live kind.2, State.timestamp_full false q c kind.1 full]
  · rw [exec_ethFrameTx, State.not_ethSends silent]
    rfl
  · have e : (s.opened r.master).eth[p].fifo = [] := by rw [State.opened_eth]; exact empty
    rw [exec_ethTsfifoRead adm, exec_ethTsfifoRead adm, State.tsRead_empty e, State.tsRead_empty e]
    exact ⟨rfl, rfl⟩
  · have own : (s.opened r.master).eth[p] = s.eth[p] := by rw [State.opened_eth]
    have e : (s.opened r.master).eth[p].fifo = h :: rest := (congrArg EthSt.fifo own).trans full
    rw [exec_ethTsfifoRead adm, exec_ethTsfifoRead adm, State.tsRead_peek e, State.tsRead_take e, own]
    obtain ⟨regs, mem, sc, others⟩ := (s.opened r.master).portAlone_of p (s.eth[p].taken rest)
    refine ⟨rfl, _, rfl, rfl, ⟨regs.trans (State.opened_regs _ _), mem.trans (State.opened_mem _ _), sc.trans (State.opened_sc _ _), ?_⟩,
      vset_getElem_same _ _ _⟩
    intro o ho
    exact (others o ho).trans (by rw [State.opened_eth])

/-- Settles O43, from the ports, and the stations one by one. -/
theorem ethernetAndStations : Obligations.EthernetAndStations := by
  unfold Obligations.EthernetAndStations
  refine ⟨ethernetPorts, ?_⟩
  intro s p k cyc f hr tm gen x ety whole
  refine ⟨?_, ?_, ?_, ?_⟩
  · refine ⟨_, exec_stationCycleBoundary hr, ?_⟩
    have sent : s.cycleBegun.sentOn (if s.scSends then s.cycleBegun.scSend 1 0 0 [] else s.cycleBegun) := by
      split
      · exact State.scSend_sent _ _ _ _ _
      · exact .refl _
    have times : s.scTimes = (tm.toNat % 65536, tm.toNat / 65536) := by
      have := tm.isLt
      simp only [State.scTimes, getBits, BitVec.toNat_ushiftRight, Nat.shiftRight_eq_div_pow, Prod.mk.injEq, tm]
      omega
    have out (q : Fin 2) (on : s.scSends = true) (port : s.fld F.SC_CFG_PORTS 0 0 / 2 ^ q.val % 2 = 1) (sends : s.ethSends q = true) :
        (⟨q.val, ety, 1, 1, gen, s.sc.cycle + 1, 0, 0, 0, []⟩ : ScFrame) ∈
          (if s.scSends then s.cycleBegun.scSend 1 0 0 [] else s.cycleBegun).sc.out := by
      rw [if_pos on]
      exact State.mem_scSend (s := s.cycleBegun) ⟨port, sends⟩ 1 0 0 []
    have idle (off : s.scSends = false) : (if s.scSends then s.cycleBegun.scSend 1 0 0 [] else s.cycleBegun).sc.out = s.sc.out := by
      rw [off]
      rfl
    obtain ⟨fs, hu⟩ := sent
    generalize (if s.scSends then s.cycleBegun.scSend 1 0 0 [] else s.cycleBegun) = u at *
    have now : u.now = s.now := by rw [hu]; rfl
    rw [times]
    refine ⟨by rw [hu]; rfl, by rw [hu]; rfl, ?_, State.mem_sched (s := u.evcRaise 0x1C0) now _ _, ?_, fun q on port sends => out q on port sends, idle⟩
    · rw [hu]
      exact congrArg (fun n : Nat × Nat => some (s.now + n.1)) times
    · refine List.mem_append_left _ (List.mem_filter.mpr ⟨?_, by simp⟩)
      rw [← now]
      exact List.mem_append_right _ (.head _)
  · intro live port en readAt standby
    have listens : s.listens p k = true := by
      have member : s.stations.contains k = true := by simpa using State.mem_stations.mpr en
      rw [State.listens, hr, live, member, decide_eq_true port, Option.isSome_iff_ne_none.mpr readAt]
      rfl
    have frame := exec_stationInputFrame (cyc := cyc) (f := f) listens standby
    have ok : s.inFrameOk f = true ↔ whole := by
      simp only [State.inFrameOk, Bool.and_eq_true, decide_eq_true_eq, whole, and_assoc]
    refine ⟨fun hw hc hx => ?_, fun other => ?_⟩
    · obtain ⟨t, ht, spec⟩ := s.inputTaken_spec k cyc f
      rw [if_neg, ht] at frame
      · exact ⟨t, frame, spec⟩
      · rintro (bad | bad | bad)
        · exact absurd (ok.mpr hw) (by rw [bad]; decide)
        · exact bad hc
        · exact absurd (hx.symm.trans bad) (by decide)
    · rw [if_pos] at frame
      · exact frame
      · rcases other with h | h
        · exact .inr (.inl h)
        · exact .inl (Bool.eq_false_of_not_eq_true fun g => h (ok.mp g))
  · intro at_ hat
    obtain ⟨readAt, now⟩ := State.inputs_engine { s with sc := { s.sc with readAt := none } } s.stations
    refine ⟨_, exec_stationInputRead hr hat, readAt, ?_, fun en => ?_⟩
    · refine List.mem_append_right _ ?_
      rw [now]
      exact .head _
    · obtain ⟨u, before, after⟩ := State.inputs_focus (s := { s with sc := { s.sc with readAt := none } }) en
      have old : u.sc.st[k] = x := before.1
      have cycle : u.sc.cycle = s.sc.cycle := before.2.1
      have subst : u.flag F.SC_STs_CFG_SUBST k 0 = s.flag F.SC_STs_CFG_SUBST k 0 := by
        rw [State.flag, before.cfg F.SC_STs_CFG_SUBST rfl]
        rfl
      have limit : u.fld F.SC_STs_CFG_K k 0 = s.fld F.SC_STs_CFG_K k 0 := before.cfg F.SC_STs_CFG_K rfl
      have st := after.1
      refine ⟨fun d hd => ?_, fun hd => ?_⟩
      · obtain ⟨data, stale, shown⟩ := State.inputOf_came (s := u) (k := k) (d := d) (by rw [old, cycle]; exact hd)
        exact ⟨(congrArg ScStation.data st).trans data, (congrArg ScStation.stale st).trans stale, (after.flag _ rfl).trans shown⟩
      · obtain ⟨stale, miss, shown, data, lost⟩ := State.inputOf_miss (s := u) (k := k) (by rw [old]; exact hd)
        rw [old] at miss data lost
        rw [subst] at data
        rw [limit] at lost
        exact ⟨(congrArg ScStation.stale st).trans stale, (congrArg ScStation.miss st).trans miss, (after.flag _ rfl).trans shown,
          (congrArg ScStation.data st).trans data, fun reached => (after.flag _ rfl).trans (lost reached)⟩
  · intro h1 h2
    have sent := State.sentOn.foldl (f := State.scOutput) (fun t q => State.scSend_sent t _ _ _ _) s.stations (s.unsched .stationOutputWrite)
    have out (q : Fin 2) (port : s.fld F.SC_CFG_PORTS 0 0 / 2 ^ q.val % 2 = 1) (sends : s.ethSends q = true)
        (en : (s.reg .SC_STEN 0 0).getLsbD k.val = true) :=
      State.mem_scOutputs (s := s.unsched .stationOutputWrite) (p := q) ⟨port, sends⟩ s.stations_nodup (State.mem_stations.mpr en)
    refine ⟨_, exec_stationOutputWrite h1 h2, ?_, fun q port sends en => out q port sends en⟩
    obtain ⟨fs, hu⟩ := sent
    rw [hu]
    rfl

end Sys2Proof.Machine
end

