-- ==== Sys2Proof/Proofs/Background.lean ====
section
/-! PROOF. Background services and the interconnect's windows (R303 to R307, R438 to R440, R108). -/

namespace Sys2Proof.Machine
variable {s : State}

theorem State.bgRuns_of_cores (h : s.mode.cores = true) : s.bgRuns = true := by
  have reset : s.mode ≠ .reset := fun e => by rw [e] at h; cases h
  have retention : s.mode ≠ .retention := State.not_retention_of_cores h
  rw [State.bgRuns, decide_eq_true ⟨reset, retention⟩]

/-! ## Scrubs -/

theorem exec_sramScrubBeat {b : Bank} (run : s.bgRuns = true) (clean : s.cleanAt (0x20000000 + b.val * 0x400000 + s.ix.scrub[b] * 16) 16) :
    exec (.sramScrubBeat b) s =
      .next (if scrubLen ≤ s.ix.scrub[b] + 1 then
        ({ s with ix := { s.ix with scrub := vset s.ix.scrub b 0 } } : State).count F.IX_ECC_CNTb_PASSES b 0
      else { s with ix := { s.ix with scrub := vset s.ix.scrub b (s.ix.scrub[b] + 1) } }) := by
  change execSramScrubBeat b s = _
  simp only [execSramScrubBeat, run, Bool.not_true, Bool.false_eq_true, if_false, State.eccRead_clean clean, decide_eq_true_eq]
  split <;> rfl

/-- The one ECC word that a TCM scrub reads. -/
theorem eccUnits_tcmWord {p : Pair} {k : Nat} (h : k < 262144) :
    eccUnits (aliasBase p + k * 4) 4 = [aliasBase p + k * 4] ∧ eccUnit (aliasBase p + k * 4) = 4 ∧
      (Fin.ofNat 4 ((aliasBase p + k * 4 - 0x38000000) / 0x100000) : Pair) = p := by
  have unit : eccUnit (aliasBase p + k * 4) = 4 := by
    obtain ⟨lo, hi⟩ := aliasBase_le p
    rw [eccUnit, if_pos (by omega)]
  refine ⟨?_, unit, ?_⟩
  · have span : eccSpan (aliasBase p + k * 4) = 4 := by simp only [eccSpan, unit]; rfl
    have whole : (aliasBase p + k * 4) % 4 = 0 := by simp only [aliasBase]; omega
    have count : (0 + 4 + 4 - 1) / 4 * (4 / 4) = 1 := rfl
    have back : (aliasBase p + k * 4) / 4 * 4 = aliasBase p + k * 4 := by omega
    simp only [eccUnits, unit, span, whole, count, back]
    rfl
  · apply Fin.ext
    have := p.isLt
    simp only [Fin.ofNat, aliasBase]
    omega

theorem State.eccRead_tcm {p : Pair} {k : Nat} (h : k < 262144) : s.eccRead (aliasBase p + k * 4) 4 = s.eccWord (aliasBase p + k * 4) := by
  simp only [State.eccRead, (eccUnits_tcmWord h).1, List.foldl_cons, List.foldl_nil, Bool.false_or]

theorem State.eccWord_single {p : Pair} {k : Nat} (h : k < 262144) (one : SMap.find? s.upset (aliasBase p + k * 4) = some false) :
    s.eccWord (aliasBase p + k * 4) =
      (false, ({ s with upset := s.upset.drop (aliasBase p + k * 4) } : State).bump F.LP_ECC_CNT_TCM_CE p 0) := by
  obtain ⟨-, unit, pair⟩ := eccUnits_tcmWord (p := p) h
  simp only [State.eccWord, one, unit, pair, decide_true, if_true]

theorem State.eccWord_none {u : Nat} (none : SMap.find? s.upset u = none) : s.eccWord u = (false, s) := by
  simp only [State.eccWord, none]

theorem exec_tcmScrubWord {p : Pair} (run : s.bgRuns = true) (h : s.ix.tcm[p] + 1 < 262144) {u : State}
    (read : s.eccWord (aliasBase p + s.ix.tcm[p] * 4) = (false, u)) :
    exec (.tcmScrubWord p) s = .next { u with ix := { u.ix with tcm := vset u.ix.tcm p (s.ix.tcm[p] + 1) } } := by
  change execTcmScrubWord p s = _
  have more : ¬scrubLen ≤ s.ix.tcm[p] + 1 := by rw [scrubLen]; omega
  simp only [execTcmScrubWord, run, Bool.not_true, Bool.false_eq_true, if_false, State.eccRead_tcm (Nat.lt_of_succ_lt h), read,
    more, decide_false, Bool.false_and]

/-! ## Trim checks -/

theorem State.domainWork.draw {t : State} (h : s.domainWork t) : s.domainWork t.draw := h.quiet rfl

theorem State.domainWork.settleTo {t : State} (h : s.domainWork t) (n : CmpId) (e : Option Nat) : s.domainWork (t.settleTo n e) := by
  cases e with
  | none => exact h.settleNone n
  | some e => exact ((h.modCmp _ _).setFld _ _ _ _ (inside_cmpStat n)).sched _ _

theorem State.domainWork.winOf {t : State} (h : s.domainWork t) (n : CmpId) : s.domainWork (t.winOf n) := ite (h.winSee _) h

theorem State.domainWork.dacMove {t : State} (h : s.domainWork t) (n : CmpId) : s.domainWork (t.dacMove n) :=
  ite h (ite (h.modCmp _ _) (((h.winOf n).modCmp _ _).settleTo _ _))

theorem State.settleTo_chk (s : State) (n : CmpId) (e : Option Nat) : (s.settleTo n e).cmps.chk = s.cmps.chk := by
  cases e <;> rfl

theorem State.winOf_chk (s : State) (n : CmpId) : (s.winOf n).cmps.chk = s.cmps.chk := by
  unfold State.winOf
  split <;> rfl

theorem State.dacMove_chk (s : State) (n : CmpId) : (s.dacMove n).cmps.chk = s.cmps.chk := by
  unfold State.dacMove
  dsimp only
  split
  · rfl
  · split
    · rfl
    · rw [State.settleTo_chk]
      exact s.winOf_chk n

/-- A check that starts, but for its partner and its times. -/
def State.checkOpened (s : State) (n : CmpId) (kind lad : Nat) (trim : Option Int) : State :=
  ({ s with cmps := { s.cmps with chk := some ⟨n, kind, lad, s.partnerOf n, s.now, 0, s.cmps.cmp[n].dec, false, none, none, trim, none,
    s.mx.lv.get (0x0A0 + n.val) false⟩ } } : State).draw

/-- The partner takes the decision and the code of the comparator under check. -/
def State.partnerTakes (s : State) (d : Bool) : Option CmpId → State
  | some p => ((s.modCmp p fun k => { k with dec := d, samp := none }).dacMove p).cmpUpdate p
  | none => s

theorem State.checkStart_eq (s : State) (n : CmpId) (kind lad : Nat) (trim : Option Int) : s.checkStart n kind lad trim =
    (((((s.checkOpened n kind lad trim).partnerTakes s.cmps.cmp[n].dec (s.partnerOf n)).setFld F.CMP_CHK_STAT_BUSY 0 0 1).sched 16
      .checkTakeover).sched 56 (.checkResult (Config.checkRaw s.fresh))).sched 64 .checkRelease := by
  unfold State.checkStart State.checkOpened
  generalize s.partnerOf n = partner
  cases partner <;> rfl

theorem State.partnerTakes_spec (s : State) (d : Bool) (p : Option CmpId) :
    (s.partnerTakes d p).sys = s.sys ∧ (s.partnerTakes d p).cmps.chk = s.cmps.chk := by
  cases p with
  | none => exact ⟨rfl, rfl⟩
  | some p =>
    have work := (((State.domainWork.refl s).modCmp p fun k => { k with dec := d, samp := none }).dacMove p).cmpUpdate p
    refine ⟨work.sys, ?_⟩
    rw [State.partnerTakes, State.cmpUpdate]
    exact (State.winOf_chk _ p).trans ((s.modCmp p _).dacMove_chk p)

/-- A check has started: it runs, BUSY is 1, and nothing of the system controller has moved. -/
theorem State.checkStart_spec (s : State) (n : CmpId) (kind lad : Nat) (trim : Option Int) :
    (s.checkStart n kind lad trim).sys = s.sys ∧ (s.checkStart n kind lad trim).flag F.CMP_CHK_STAT_BUSY 0 0 = true ∧
      ∃ c, (s.checkStart n kind lad trim).cmps.chk = some c ∧ c.cmp = n ∧ c.kind = kind ∧ c.trim = trim := by
  obtain ⟨sys, chk⟩ := (s.checkOpened n kind lad trim).partnerTakes_spec s.cmps.cmp[n].dec (s.partnerOf n)
  rw [State.checkStart_eq]
  generalize (s.checkOpened n kind lad trim).partnerTakes s.cmps.cmp[n].dec (s.partnerOf n) = u at *
  have busy : (u.setFld F.CMP_CHK_STAT_BUSY 0 0 1).flag F.CMP_CHK_STAT_BUSY 0 0 = true := by
    rw [State.flag, State.fld_setFld_same _ _ _ _ _ (by decide)]
    rfl
  exact ⟨sys, busy, _, chk, rfl, rfl, rfl⟩

/-- The turn of comparator n, short of the last. -/
theorem exec_dacTrimCheck {n : CmpId} {drift : Int} (live : s.mode.live = true) (on : getBits (s.sys.bg.getD 2 0) 31 16 ≠ 0)
    (more : s.sys.trimmed + 1 < 48) :
    ∃ t, exec (.dacTrimCheck n drift) s = .next t ∧ t.sys.trimmed = s.sys.trimmed + 1 ∧
      (s.cmps.chk = none → s.cmps.wait = none → s.cmpMode n ≠ 0 → s.flag F.CMPn_CFG_TRIP n 0 = false ∨ s.fld F.CMPn_CFG_PARTNER n 0 < 48 →
        (∃ c, t.cmps.chk = some c ∧ c.cmp = n ∧ c.kind = 0 ∧ c.trim = some drift) ∧ t.flag F.CMP_CHK_STAT_BUSY 0 0 = true) := by
  have turn : s.trimCheck n drift =
      (let u : State := { s with sys := { s.sys with trimmed := s.sys.trimmed + 1 } }
       if (!s.flag F.CMPn_CFG_TRIP n 0 || decide (s.fld F.CMPn_CFG_PARTNER n 0 < 48)) && decide (s.cmpMode n ≠ 0) && s.cmps.chk.isNone &&
        s.cmps.wait.isNone then u.checkStart n 0 0 (some drift) else u) := by
    have less : ¬48 ≤ s.sys.trimmed + 1 := by omega
    simp only [State.trimCheck, live, on, less, decide_false, Bool.not_true, Bool.or_self, Bool.false_eq_true, if_false]
    rfl
  refine ⟨_, rfl, ?_⟩
  rw [turn]
  dsimp only
  obtain ⟨sys, busy, c, chk⟩ := ({ s with sys := { s.sys with trimmed := s.sys.trimmed + 1 } } : State).checkStart_spec n 0 0 (some drift)
  split
  · exact ⟨congrArg SysSt.trimmed sys, fun _ _ _ _ => ⟨⟨c, chk⟩, busy⟩⟩
  · next cannot =>
    refine ⟨rfl, fun h1 h2 h3 h4 => absurd ?_ cannot⟩
    rcases h4 with h4 | h4 <;> simp [h1, h2, h3, h4]

/-! ## Telemetry -/

theorem State.setWord_sys (s : State) (a : Nat) (w : Word) : (s.setWord a w).sys = s.sys := by rw [State.setWord_only_mem]

theorem State.qStored_sys (s : State) (q : QId) (w : Word) (tags : BitVec 2) : (s.qStored q w tags).sys = s.sys := by
  have word := s.setWord_sys (qAddr (s.qSlot q (s.qWr q))) w
  rw [State.qStored]
  generalize s.setWord (qAddr (s.qSlot q (s.qWr q))) w = u at *
  exact word

theorem State.qWrite_sys (s : State) (q : QId) (w : Word) (tags : BitVec 2) : (s.qWrite q w tags).sys = s.sys := by
  rw [State.qWrite_eq, State.qFillEvent_eq]
  exact s.qStored_sys q w tags

theorem State.qDrop_sys (s : State) (q : QId) : (s.qDrop q).sys = s.sys := by
  rw [State.qDrop]
  have counted : (s.bump F.Qn_DROPS_COUNT q 0).sys = s.sys := rfl
  generalize s.bump F.Qn_DROPS_COUNT q 0 = u at *
  split
  · split
    · rw [State.setWord_sys, counted]
    · split
      · rw [State.qWrite_sys, counted]
      · rw [State.setWord_sys, counted]
  · split
    · rw [State.qWrite_sys, counted]
    · exact counted

theorem State.qPush_sys (s : State) (q : QId) (w : Word) (eop : Bool) : (s.qPush q w eop).2.sys = s.sys := by
  unfold State.qPush
  split
  · cases eop <;> rfl
  · split
    · exact s.qWrite_sys _ _ _
    · split
      · exact s.qWrite_sys _ _ _
      · exact s.qDrop_sys _

theorem State.qPushAll_sys (q : QId) : ∀ (ws : List Word) (s : State), (s.qPushAll q ws).2.sys = s.sys
  | [], _ => rfl
  | [w], s => s.qPush_sys q w true
  | w :: v :: ws, s => (State.qPushAll_sys q (v :: ws) (s.qPushDrop q w false).2).trans (s.qPush_sys q w false)

/-- What the telemetry queue takes. -/
theorem State.telPush_eq (s : State) (ty idx : BitVec 8) (v : Word) : s.telPush ty idx v =
    if (s.sys.bg.getD 1 0).getLsbD 8 then
      ((s.count F.BG_TEL_SEQ_SEQ 0 0).qPushAll (Fin.ofNat 256 (getBits (s.sys.bg.getD 1 0) 7 0))
        [BitVec.ofNat 32 (ty.toNat * 2 ^ 24 + idx.toNat * 2 ^ 16 + (s.fld F.BG_TEL_SEQ_SEQ 0 0 + 1) % 65536), v, BitVec.ofNat 32 s.todNs,
          s.todSecLo]).2
    else s := by
  have seq : (s.count F.BG_TEL_SEQ_SEQ 0 0).fld F.BG_TEL_SEQ_SEQ 0 0 = (s.fld F.BG_TEL_SEQ_SEQ 0 0 + 1) % 65536 :=
    s.fld_setFld_same F.BG_TEL_SEQ_SEQ 0 0 _ (by decide)
  have ns : (s.count F.BG_TEL_SEQ_SEQ 0 0).todNs = s.todNs := rfl
  have sec : (s.count F.BG_TEL_SEQ_SEQ 0 0).todSecLo = s.todSecLo := rfl
  simp only [State.telPush, seq, ns, sec]
  cases (s.sys.bg.getD 1 0).getLsbD 8 <;> rfl

theorem State.telPush_sys (s : State) (ty idx : BitVec 8) (v : Word) : (s.telPush ty idx v).sys = s.sys := by
  rw [State.telPush_eq]
  split
  · exact State.qPushAll_sys _ _ _
  · rfl

/-- The value of a telemetry record. -/
def State.telValue (s : State) (ty : BitVec 8) (v : Word) : Word := if ty = 3 then s.reg .BG_LIFE 0 0 else if ty = 4 then s.errMask else v

theorem exec_telemetryRecord {ty idx : BitVec 8} {v : Word} (hc : s.mode.cores = true) (h0 : 0 < ty.toNat) (h4 : ty.toNat ≤ 4) :
    exec (.telemetryRecord ty idx v) s = .next (if ty = 1 then (s.telPush ty idx (s.telValue ty v)).tempLimits v
      else s.telPush ty idx (s.telValue ty v)) := by
  change execTelemetryRecord ty idx v s = _
  have known : ¬(ty = 0 ∨ 4 < ty) := by
    rintro (rfl | h)
    · exact absurd h0 (by decide)
    · exact absurd h4 (Nat.not_le.mpr (BitVec.lt_def.mp h))
  simp only [execTelemetryRecord, State.telRecord, State.telValue, hc, known, decide_false, Bool.not_true, Bool.or_self, Bool.false_eq_true,
    if_false]

/-! ## Consumed life -/

/-- The largest share of a list of oscillators, each with its count at calibration and over the gate. -/
def maxLife (l : List (Nat × Nat)) : Nat := l.foldl (fun m x => max m (lifePpm x.1 x.2)) 0

theorem le_foldl_max {α : Type} (f : α → Nat) : ∀ (l : List α) (k : Nat), k ≤ l.foldl (fun m x => max m (f x)) k ∧
    (∀ x ∈ l, f x ≤ l.foldl (fun m x => max m (f x)) k) ∧
    (l.foldl (fun m x => max m (f x)) k = k ∨ ∃ x ∈ l, f x = l.foldl (fun m x => max m (f x)) k)
  | [], _ => ⟨Nat.le_refl _, fun _ h => (nomatch h), .inl rfl⟩
  | y :: l, k => by
    obtain ⟨base, each, top⟩ := le_foldl_max f l (max k (f y))
    refine ⟨Nat.le_trans (Nat.le_max_left _ _) base, fun x hx => ?_, ?_⟩
    · rcases List.mem_cons.mp hx with rfl | hx
      · exact Nat.le_trans (Nat.le_max_right _ _) base
      · exact each x hx
    · rw [List.foldl_cons]
      rcases top with top | ⟨x, hx, e⟩
      · rw [top]
        rcases Nat.le_total k (f y) with h | h
        · exact .inr ⟨y, .head _, (Nat.max_eq_right h).symm⟩
        · exact .inl (Nat.max_eq_left h)
      · exact .inr ⟨x, .tail _ hx, e⟩

/-- The oscillators of a gate: the count at calibration with those at its end and its start. -/
def State.rings (s : State) (since upto : List Nat) : List (Nat × Nat × Nat) := s.sys.f0.toList.zip (upto.zip since)

/-- The share of one oscillator. -/
def ringPart (x : Nat × Nat × Nat) : Nat := (x.1 - (x.2.1 - x.2.2)) * 25000000 / x.1

theorem State.maxLife_rings (s : State) (since upto : List Nat) :
    maxLife (s.sys.f0.toList.zip ((upto.zip since).map fun x => x.1 - x.2)) = (s.rings since upto).foldl (fun m x => max m (ringPart x)) 0 := by
  rw [maxLife, State.rings, List.zip_map_right, List.foldl_map]
  rfl

/-- A gate's estimate is the largest of the oscillators' shares. -/
theorem State.rings_spec (s : State) (since upto : List Nat) :
    let w := maxLife (s.sys.f0.toList.zip ((upto.zip since).map fun x => x.1 - x.2))
    (∀ x ∈ s.rings since upto, ringPart x ≤ w) ∧ (w ≠ 0 → ∃ x ∈ s.rings since upto, ringPart x = w) := by
  intro w
  obtain ⟨-, each, top⟩ := le_foldl_max ringPart (s.rings since upto) 0
  have e : w = _ := s.maxLife_rings since upto
  rw [e]
  exact ⟨each, fun h => top.resolve_left h⟩

/-- What the end of a gate leaves. -/
theorem State.gateEnd_spec {f : List Nat} (run : s.bgRuns = true) :
    ∃ t, s.gateEnd f = t ∧ t.reg .BG_LIFE 0 0 = BitVec.ofNat 32 (min (maxLife (s.sys.f0.toList.zip f)) 0xFFFFFFFF) ∧
      t.sys.gates = s.sys.gates + 1 ∧ t.sys.f0 = s.sys.f0 ∧
      (s.sys.bg ≠ [] → (s.sys.bg.getD 4 0).toNat ≤ maxLife (s.sys.f0.toList.zip f) → (s.now + 1, Instr.evcEvent 0x1E4) ∈ t.cal) := by
  refine ⟨_, rfl, ?_⟩
  have told : s.gateEnd f =
      (let u := ({ s with sys := { s.sys with gates := s.sys.gates + 1 } } : State).setReg .BG_LIFE 0 0
        (BitVec.ofNat 32 (min (maxLife (s.sys.f0.toList.zip f)) 0xFFFFFFFF))
       if !s.sys.bg.isEmpty && decide ((s.sys.bg.getD 4 0).toNat ≤ maxLife (s.sys.f0.toList.zip f)) then u.evcRaise 0x1E4 else u) := by
    simp only [State.gateEnd, run, Bool.not_true, Bool.false_eq_true, if_false]
    rfl
  rw [told]
  dsimp only
  have shown := ({ s with sys := { s.sys with gates := s.sys.gates + 1 } } : State).reg_setReg_same .BG_LIFE 0 0
    (BitVec.ofNat 32 (min (maxLife (s.sys.f0.toList.zip f)) 0xFFFFFFFF))
  split
  · exact ⟨shown, rfl, rfl, fun _ _ => List.mem_append_right _ (.head _)⟩
  · next quiet => exact ⟨shown, rfl, rfl, fun h1 h2 => absurd (by rw [decide_eq_true h2]; simpa using h1) quiet⟩

/-! ## Reservation windows -/

theorem rsv_ne_bankStat {b m : Nat} (hb : b < 6) (hm : m < 13) (c : Bank) : RegName.IX_RSVb_m.addr b m ≠ RegName.IX_BANKb_STAT.addr c 0 := by
  have e1 : RegName.IX_RSVb_m.addr b m = 0x42300000 + b * 0x40 + m * 4 := rfl
  have e2 : RegName.IX_BANKb_STAT.addr c 0 = 0x42300200 + c.val * 4 + 0 * 0 := rfl
  omega

theorem bankStat_ne {b c : Bank} (h : b ≠ c) : RegName.IX_BANKb_STAT.addr b 0 ≠ RegName.IX_BANKb_STAT.addr c 0 := by
  have e (b : Bank) : RegName.IX_BANKb_STAT.addr b 0 = 0x42300200 + b.val * 4 + 0 * 0 := rfl
  have := Fin.val_ne_of_ne h
  rw [e, e]
  omega

theorem SMap.find?_put_ne {α : Type} [DecidableEq α] (m : SMap α) {k q : Nat} (v d : α) (h : q ≠ k) : (m.put k v d).find? q = m.find? q := by
  unfold SMap.put
  split
  · rw [SMap.find?_drop, if_neg h]
  · rw [SMap.find?_insert _ _ _ _ (by rw [SMap.find?_drop, if_pos rfl]), if_neg h, SMap.find?_drop, if_neg h]

theorem State.find?_setReg (s : State) {q : RegName} {i j a : Nat} (v : Word) (h : a ≠ q.addr i j) :
    SMap.find? (s.setReg q i j v).regs a = SMap.find? s.regs a := SMap.find?_put_ne _ _ _ h

/-- The shares of a bank. -/
def State.bankShares (s : State) (b : Bank) : Nat := ((List.range 13).map fun m => s.fld F.IX_RSVb_m_SHARE b m).sum

/-- A bank's status shows its shares. -/
def State.showShares (s : State) (b : Bank) : State := s.setReg .IX_BANKb_STAT b 0 (BitVec.ofNat 32 (s.bankShares b))

theorem State.showShares_shares (s : State) (b c : Bank) : (s.showShares b).bankShares c = s.bankShares c := by
  unfold State.bankShares
  refine congrArg List.sum (List.map_congr_left fun m hm => ?_)
  have apart : (s.showShares b).reg .IX_RSVb_m c m = s.reg .IX_RSVb_m c m := by
    rw [State.showShares, State.reg_setReg_ne _ _ (rsv_ne_bankStat c.isLt (List.mem_range.mp hm) b)]
  simp only [State.fld]
  rw [show F.IX_RSVb_m_SHARE.reg = .IX_RSVb_m from rfl, apart]

/-- Some banks' shares shown: those show them, every other register and all else stays. -/
def State.sharesShown (s t : State) (done : List Bank) : Prop :=
  t.ix = s.ix ∧ t.now = s.now ∧ t.mem = s.mem ∧ (∀ c, t.bankShares c = s.bankShares c) ∧
    (∀ c ∈ done, t.reg .IX_BANKb_STAT c 0 = BitVec.ofNat 32 (s.bankShares c)) ∧
    ∀ a, (∀ c : Bank, a ≠ RegName.IX_BANKb_STAT.addr c 0) → SMap.find? t.regs a = SMap.find? s.regs a

theorem State.showShares_fold : ∀ (l done : List Bank) (t : State), s.sharesShown t done → s.sharesShown (l.foldl State.showShares t) (done ++ l)
  | [], done, t, h => by rwa [List.append_nil]
  | b :: l, done, t, h => by
    obtain ⟨ix, now, mem, shares, shown, others⟩ := h
    have next : s.sharesShown (t.showShares b) (done ++ [b]) := by
      refine ⟨by rw [State.showShares, State.setReg_ix, ix], by rw [State.showShares, State.setReg_now, now],
        by rw [State.showShares, State.setReg_mem, mem], fun c => (t.showShares_shares b c).trans (shares c), fun c hc => ?_, fun a ha => ?_⟩
      · by_cases h : c = b
        · subst h
          rw [State.showShares, State.reg_setReg_same, shares]
        · rcases List.mem_append.mp hc with hc | hc
          · rw [State.showShares, State.reg_setReg_ne _ _ (bankStat_ne h), shown c hc]
          · exact absurd (List.mem_singleton.mp hc) h
      · rw [State.showShares, State.find?_setReg _ _ (ha b), others a ha]
    rw [List.foldl_cons, List.append_cons]
    exact State.showShares_fold l (done ++ [b]) _ next

/-- Each master's credits are its shares. -/
def State.creditsFilled (s : State) : State :=
  { s with ix := { s.ix with credit := Vector.ofFn fun b => Vector.ofFn fun m => s.fld F.IX_RSVb_m_SHARE b.val m.val } }

theorem State.creditsFilled_shares (s : State) (c : Bank) : s.creditsFilled.bankShares c = s.bankShares c := by
  have same : s.creditsFilled.regs = s.regs := rfl
  simp only [State.bankShares, State.fld_of_regs same]

theorem State.creditsFilled_shown (s : State) :
    s.creditsFilled.sharesShown ((List.finRange 6).foldl State.showShares s.creditsFilled) (List.finRange 6) :=
  State.showShares_fold (List.finRange 6) [] _ ⟨rfl, rfl, rfl, fun _ => rfl, fun _ h => (nomatch h), fun _ _ => rfl⟩

theorem exec_reservationWindow_eq (hc : s.mode.cores = true) : exec .reservationWindow s =
    .next (((List.finRange 6).foldl State.showShares s.creditsFilled).sched 2000 .reservationWindow) := by
  change execReservationWindow s = _
  simp only [execReservationWindow, hc, Bool.not_true, Bool.false_eq_true, if_false]
  rfl

theorem exec_reservationWindow (hc : s.mode.cores = true) :
    ∃ t, exec .reservationWindow s = .next t ∧ (∀ (c : Bank) (a : Fin 13), t.ix.credit[c][a] = s.fld F.IX_RSVb_m_SHARE c a) ∧
      (s.now + 2000, Instr.reservationWindow) ∈ t.cal ∧ t.mem = s.mem ∧
      (∀ c : Bank, t.reg .IX_BANKb_STAT c 0 = BitVec.ofNat 32 (s.bankShares c)) ∧
      ∀ a, (∀ c : Bank, a ≠ RegName.IX_BANKb_STAT.addr c 0) → SMap.find? t.regs a = SMap.find? s.regs a := by
  obtain ⟨u, exec_, all⟩ : ∃ u : State, exec .reservationWindow s = .next (u.sched 2000 .reservationWindow) ∧
      s.creditsFilled.sharesShown u (List.finRange 6) := ⟨_, exec_reservationWindow_eq hc, s.creditsFilled_shown⟩
  obtain ⟨ix, now, mem, -, shown, others⟩ := all
  have since : u.now = s.now := now
  refine ⟨_, exec_, fun c a => ?_, State.mem_sched since _ _, mem, fun c => ?_, others⟩
  · have credit : (u.sched 2000 .reservationWindow).ix = s.creditsFilled.ix := ix
    rw [credit]
    simp [State.creditsFilled]
  · rw [← s.creditsFilled_shares c]
    exact shown c (List.mem_finRange c)

/-! ## Banks -/

/-- The lowest master with credit that asks. -/
theorem State.bankChoice_credit {b : Bank} {m : Fin 13} (asks : ∃ x ∈ s.ix.wait[b], x.master = m) (credit : 0 < s.ix.credit[b][m])
    (lower : ∀ o : Fin 13, o < m → (∃ x ∈ s.ix.wait[b], x.master = o) → s.ix.credit[b][o] = 0) : s.bankChoice b = some (m, none) := by
  have found : (List.finRange 13).find? (fun o => (s.ix.wait[b].any fun x => decide (x.master = o)) && decide (0 < s.ix.credit[b][o])) = some m := by
    refine List.find?_eq_some_iff_getElem.mpr ⟨?_, m.val, by simp, by simp, fun j hj => ?_⟩
    · obtain ⟨x, hx, hm⟩ := asks
      simp only [Bool.and_eq_true, List.any_eq_true, decide_eq_true_eq]
      exact ⟨⟨x, hx, hm⟩, credit⟩
    · have none := lower ⟨j, by omega⟩ (Fin.lt_def.mpr hj)
      simp only [List.getElem_finRange, Bool.not_eq_true', Bool.and_eq_false_iff, decide_eq_false_iff_not, List.any_eq_false,
        decide_eq_true_eq]
      by_cases waits : ∃ x ∈ s.ix.wait[b], x.master = ⟨j, by omega⟩
      · exact .inr (Nat.not_lt.mpr (Nat.le_of_eq (none waits)))
      · exact .inl fun x hx hm => waits ⟨x, hx, hm⟩
  simp only [State.bankChoice, found]

/-- A bank serves a beat on credit. -/
theorem State.bankServe_spec {b : Bank} {m : Fin 13} (choice : s.bankChoice b = some (m, none)) (asks : ∃ x ∈ s.ix.wait[b], x.master = m) :
    ∃ t, s.bankServe b = t ∧ t.ix.credit[b][m] = s.ix.credit[b][m] - 1 ∧ t.ix.wait[b].length + 1 = s.ix.wait[b].length ∧
      (∀ o : Fin 13, o ≠ m → (t.ix.wait[b].filter fun x => decide (x.master = o)) = s.ix.wait[b].filter fun x => decide (x.master = o)) ∧
      ∀ c : Bank, c ≠ b → t.ix.wait[c] = s.ix.wait[c] ∧ t.ix.credit[c] = s.ix.credit[c] := by
  obtain ⟨t, ht, wait, credit⟩ : ∃ t, s.bankServe b = t ∧
      t.ix.wait = vset s.ix.wait b (s.ix.wait[b].eraseP fun x => decide (x.master = m)) ∧
      t.ix.credit = vset s.ix.credit b (vset s.ix.credit[b] m (s.ix.credit[b][m] - 1)) := by
    refine ⟨_, rfl, ?_⟩
    simp only [State.bankServe, choice]
    exact ⟨rfl, rfl⟩
  have own : t.ix.wait[b] = s.ix.wait[b].eraseP fun x => decide (x.master = m) := by
    rw [wait]
    exact vset_getElem_same _ _ _
  refine ⟨t, ht, ?_, ?_, fun o ho => ?_, fun c hc => ⟨?_, ?_⟩⟩
  · rw [credit]
    exact (congrArg (fun v : Vector Nat 13 => v[m]) (vset_getElem_same _ _ _)).trans (vset_getElem_same _ _ _)
  · obtain ⟨x, hx, hm⟩ := asks
    rw [own, List.length_eraseP_of_mem hx (decide_eq_true hm)]
    have := List.length_pos_of_mem hx
    omega
  · obtain ⟨x, hx, hm⟩ := asks
    obtain ⟨y, l₁, l₂, -, hy, split, erased⟩ := List.exists_of_eraseP (p := fun x : Beat => decide (x.master = m)) hx (decide_eq_true hm)
    have skip : decide (y.master = o) = false := decide_eq_false fun e => ho (e.symm.trans (of_decide_eq_true hy))
    rw [own, erased, split, List.filter_append, List.filter_append, List.filter_cons, skip]
    rfl
  · rw [wait]
    exact vset_getElem_ne _ _ (Ne.symm hc)
  · rw [credit]
    exact vset_getElem_ne _ _ (Ne.symm hc)

/-! ## Settled -/

theorem State.bgTick_idle (h : s.now % 2000 ≠ 0) (trim : getBits (s.sys.bg.getD 2 0) 31 16 = 0) (tel : getBits (s.sys.bg.getD 2 0) 15 0 = 0) :
    s.bgTick = s := by
  have gate : ¬s.now % 400000000 = 0 := by omega
  simp only [State.bgTick, State.marginTick, h, if_false, State.trimTick, trim, State.telTick, tel, Nat.zero_mul, Nat.lt_irrefl, false_and,
    State.gateTick, gate]

theorem State.gateTick_gates (run : s.bgRuns = true) (h : s.now % 400000000 = 0) : s.gateTick.sys.gates = s.sys.gates + 1 := by
  obtain ⟨t, ht, -, gates, -⟩ := State.gateEnd_spec (s := s.draw) (f := (List.range 8).map fun i => Config.ringCount (8 * s.fresh + i)) run
  rw [State.gateTick, if_pos h, ht, gates]
  rfl

/-- Settles O42, service by service. -/
theorem backgroundServices : Obligations.BackgroundServices := by
  unfold Obligations.BackgroundServices
  intro s b p n m ty idx v drift since upto hc kb kp ta bg
  have run := State.bgRuns_of_cores hc
  refine ⟨fun clean => ?_, fun more => ⟨fun none => ?_, fun one => ?_⟩, fun live on more => exec_dacTrimCheck live on more,
    fun h0 h4 => ?_, ?_, State.gateTick_gates run, State.bgTick_idle, exec_reservationWindow hc, fun asks credit lower => ?_, ?_⟩
  · have beat := exec_sramScrubBeat run clean
    split at beat
    · next last =>
      refine ⟨_, beat, rfl, rfl, fun more => absurd last (Nat.not_le.mpr more), fun _ => ⟨vset_getElem_same _ _ _, ?_⟩⟩
      exact State.fld_setFld_same _ F.IX_ECC_CNTb_PASSES b 0 _ (by decide)
    · next more => exact ⟨_, beat, rfl, rfl, fun _ => ⟨vset_getElem_same _ _ _, rfl⟩, fun last => absurd last more⟩
  · exact ⟨_, exec_tcmScrubWord run more (State.eccWord_none none), vset_getElem_same _ _ _, rfl, rfl⟩
  · refine ⟨_, exec_tcmScrubWord run more (State.eccWord_single (Nat.lt_of_succ_lt more) one), vset_getElem_same _ _ _, ?_, ?_⟩
    · exact (SMap.find?_drop _ _ _).trans (if_pos rfl)
    · exact State.fld_bump_same _ F.LP_ECC_CNT_TCM_CE p 0 (by decide)
  · intro u seq q words x
    have pushed : s.telPush ty idx (s.telValue ty v) = x := s.telPush_eq ty idx _
    have told := exec_telemetryRecord (idx := idx) (v := v) hc h0 h4
    have settings : x.sys.bg = bg := by rw [← pushed, State.telPush_sys]
    rw [pushed] at told
    have limits : x.tempLimits v = if bg = [] then x else
        (let lim := bg.getD 3 0
         let y := if (lim.setWidth 16).toInt < v.toInt then x.evcRaise 0x1E2 else x
         if ((lim >>> 16).setWidth 16).toInt < v.toInt then y.evcRaise 0x1E3 else y) := by
      rw [State.tempLimits, settings]
      simp only [List.isEmpty_iff]
    refine ⟨_, told, fun other => ?_, fun h1 hbg => ?_⟩
    · rcases other with h1 | hbg
      · rw [if_neg h1]
      · rw [limits, if_pos hbg, ite_self]
    · rw [if_pos h1, limits, if_neg hbg]
  · intro part rings
    obtain ⟨t, ht, life, gates, f0, event⟩ := State.gateEnd_spec (s := s) (f := (upto.zip since).map fun x => x.1 - x.2) run
    obtain ⟨each, top⟩ := s.rings_spec since upto
    exact ⟨t, _, congrArg Host.Outcome.next ht, life, gates, f0, each, top, event⟩
  · obtain ⟨t, ht, spec⟩ := State.bankServe_spec (State.bankChoice_credit asks credit lower) asks
    intro u
    have same : u = t := ht
    rw [same]
    exact spec
  · change execStarveLimit m s = _
    rw [execStarveLimit, run, if_pos rfl]
    rfl

end Sys2Proof.Machine
end

