-- ==== Sys2Proof/Proofs/DebugCtrl.lean ====
section
/-! PROOF. What a write to DBG_CTRL or DBG_SAFEGRP does through either port (R367, R372, R373, R376): sessions, halts, releases, steps
and the safe pattern. -/

namespace Sys2Proof.Machine

/-! ## The registers behind their addresses -/

/-- DBG_CTRL is of capability I and no plain register. -/
theorem State.dbgWrite_ctrl {s : State} (hreset : s.sys.mode ≠ .reset) (hret : s.sys.mode ≠ .retention) (host : Bool) (d : Word) :
    s.dbgWrite host (BitVec.ofNat 32 (RegName.DBG_CTRL.addr 0 0)) d = s.dbgCtrl host d := by
  have hcap : capOf true false (BitVec.ofNat 32 (RegName.DBG_CTRL.addr 0 0)).toNat = .i := by decide +kernel
  have hreg : regAt (unalias (BitVec.ofNat 32 (RegName.DBG_CTRL.addr 0 0)).toNat) = some (.DBG_CTRL, 0, 0) := by decide +kernel
  have hgrant : s.grants .i = true := by simp [State.grants, hreset, hret]
  simp only [State.dbgWrite, hcap, hgrant, hreg, Bool.not_true, Bool.false_eq_true, if_false]

/-- DBG_SAFEGRP is of capability H and no plain register. -/
theorem State.dbgWrite_safegrp {s : State} (hgrant : s.grants .h = true) (host : Bool) (d : Word) :
    s.dbgWrite host (BitVec.ofNat 32 (RegName.DBG_SAFEGRP.addr 0 0)) d = (.ok, 0, s.safegrpWrite d) := by
  have hcap : capOf true false (BitVec.ofNat 32 (RegName.DBG_SAFEGRP.addr 0 0)).toNat = .h := by decide +kernel
  have hreg : regAt (unalias (BitVec.ofNat 32 (RegName.DBG_SAFEGRP.addr 0 0)).toNat) = some (.DBG_SAFEGRP, 0, 0) := by decide +kernel
  simp only [State.dbgWrite, hcap, hgrant, hreg, Bool.not_true, Bool.false_eq_true, if_false]

theorem dbgRegCmd_ctrl {s : State} {v : DbgVia} {d : Word} (h : s.dbgHears v 2 (BitVec.ofNat 32 (RegName.DBG_CTRL.addr 0 0)) d) :
    dbgRegCmd v .DBG_CTRL d s = .next (dbgTold v 2 (s.dbgCtrl (dbgAtHost v) d)) := by
  have ⟨hreset, hret, _⟩ := h
  rw [dbgRegCmd, dbgCmd_heard h, State.dbgWrite_ctrl hreset hret]

theorem dbgRegCmd_safegrp {s : State} {v : DbgVia} {d : Word} (hgrant : s.grants .h = true)
    (h : s.dbgHears v 2 (BitVec.ofNat 32 (RegName.DBG_SAFEGRP.addr 0 0)) d) :
    dbgRegCmd v .DBG_SAFEGRP d s = .next (dbgTold v 2 (.ok, 0, s.safegrpWrite d)) := by
  rw [dbgRegCmd, dbgCmd_heard h, State.dbgWrite_safegrp hgrant]

/-! ## Sessions -/

theorem State.dbgCtrl_attach (s : State) (host : Bool) (k : Fin 4) : s.dbgCtrl host (BitVec.ofNat 32 k.val) = s.dbgAttach host k.val := by
  have bits : (BitVec.ofNat 32 k.val).getLsbD 2 = false ∧ getBits (BitVec.ofNat 32 k.val) 1 0 = k.val ∧
      getBits (BitVec.ofNat 32 k.val) 11 3 = 0 := by revert k; decide
  obtain ⟨hdetach, hstate, hrest⟩ := bits
  simp only [State.dbgCtrl, hdetach, hstate, hrest, Bool.false_eq_true, if_false, if_true]

/-- A write that names no session state leaves the session. -/
theorem State.dbgAttach_zero (s : State) (host : Bool) : s.dbgAttach host 0 = (.ok, 0, s) := rfl

theorem State.dbgCtrl_detach (s : State) (host : Bool) : s.dbgCtrl host 4 = (.ok, 0, s.dbgEnd) := rfl

theorem State.dbgAttach_none (s : State) (host : Bool) {k : Nat} (h1 : k ≠ 1) (h2 : k ≠ 2) : s.dbgAttach host k = (.ok, 0, s) :=
  if_pos ⟨h1, h2⟩

theorem State.dbgAttach_refused {s : State} (host : Bool) (h : s.dbgFull = false) : s.dbgAttach host 2 = (.denied, 0, s.dbgErr 1) := by
  rw [State.dbgAttach, if_neg (by simp), if_pos ⟨rfl, h⟩]; rfl

/-- ATTACH where it is granted begins or keeps the session, on the port it came through. -/
theorem State.dbgAttach_granted {s : State} (host : Bool) {k : Nat} (h : k = 1 ∨ k = 2 ∧ s.dbgFull = true) :
    ∃ u, s.dbgAttach host k = (.ok, 0, u) ∧ u.fld F.DBG_STAT_STATE 0 0 = k ∧ u.flag F.DBG_STAT_PORT 0 0 = host ∧ u.pairs = s.pairs := by
  have named : ¬(k ≠ 1 ∧ k ≠ 2) := by omega
  have full : ¬(k = 2 ∧ s.dbgFull = false) := by
    rintro ⟨rfl, hf⟩
    simp [hf] at h
  have small : k % 2 ^ 2 = k := Nat.mod_eq_of_lt (by omega)
  refine ⟨_, by rw [State.dbgAttach, if_neg named, if_neg full], ?_, ?_, by split <;> rfl⟩
  · exact (State.fld_setFld_apart (f := F.DBG_STAT_PORT) (g := F.DBG_STAT_STATE) _ _ rfl (by decide) (by decide) (by decide)).trans
      ((State.fld_setFld_same _ F.DBG_STAT_STATE 0 0 k (by decide)).trans small)
  · rw [State.flag, State.fld_setFld_same _ F.DBG_STAT_PORT 0 0 _ (by decide)]
    cases host <;> rfl

/-! ## Releases -/

/-- A release of one pair changes that pair, and may note its snapshot. -/
theorem State.dbgRelease_eq (s : State) (p : Pair) : ∃ c, s.dbgRelease p = { s.modPair p fun x =>
    { x with halted := false, haltReq := false, step := false, resv := if (s.pair p).halted then none else x.resv } with cal := c } := by
  unfold State.dbgRelease
  dsimp only
  split
  · exact ⟨_, rfl⟩
  · exact ⟨_, rfl⟩

theorem State.regs_dbgRelease (s : State) (p : Pair) : (s.dbgRelease p).regs = s.regs := by
  obtain ⟨c, hc⟩ := s.dbgRelease_eq p
  rw [hc]; rfl

theorem State.pair_dbgRelease_same (s : State) (p : Pair) : (s.dbgRelease p).pair p = { s.pair p with
    halted := false, haltReq := false, step := false, resv := if (s.pair p).halted then none else (s.pair p).resv } := by
  obtain ⟨c, hc⟩ := s.dbgRelease_eq p
  rw [hc]; exact State.pair_setPair_same _ _ _

theorem State.pair_dbgRelease_ne (s : State) {p q : Pair} (h : q ≠ p) : (s.dbgRelease p).pair q = s.pair q := by
  obtain ⟨c, hc⟩ := s.dbgRelease_eq p
  rw [hc]; exact State.pair_setPair_ne _ _ h

/-- What a release leaves of a pair: its registers, and its reservation where it was not halted. -/
def PairSt.releasedFrom (x y : PairSt) : Prop := y.main = x.main ∧ (x.halted = false → y.resv = x.resv) ∧ (x.halted = true → y.resv = none)

/-- Releases of several pairs: those of the list run, the others are as they were. -/
theorem State.dbgRelease_fold (l : List Pair) (s : State) (hl : l.Nodup) :
    (l.foldl State.dbgRelease s).regs = s.regs ∧ (∀ q, q ∉ l → (l.foldl State.dbgRelease s).pair q = s.pair q) ∧
    ∀ q ∈ l, ((l.foldl State.dbgRelease s).pair q).halted = false ∧ (s.pair q).releasedFrom ((l.foldl State.dbgRelease s).pair q) := by
  induction l generalizing s with
  | nil => exact ⟨rfl, fun _ _ => rfl, fun q h => (nomatch h)⟩
  | cons p l ih =>
    obtain ⟨hp, hl⟩ := List.nodup_cons.mp hl
    obtain ⟨regs, others, released⟩ := ih (s.dbgRelease p) hl
    refine ⟨regs.trans (s.regs_dbgRelease p), fun q hq => ?_, fun q hq => ?_⟩
    · obtain ⟨hne, hq⟩ : q ≠ p ∧ q ∉ l := by simpa using hq
      exact (others q hq).trans (s.pair_dbgRelease_ne hne)
    · obtain rfl | hq := List.mem_cons.mp hq
      · rw [List.foldl_cons, others q hp, s.pair_dbgRelease_same q]
        exact ⟨rfl, rfl, fun h => by simp [h], fun h => by simp [h]⟩
      · have hne : q ≠ p := fun h => hp (h ▸ hq)
        have := released q hq
        rwa [s.pair_dbgRelease_ne hne] at this

/-- A session's end before its pairs are released. -/
def State.dbgClosed (s : State) : State :=
  let t := ((s.setFld F.DBG_STAT_AUTH 0 0 0).setFld F.DBG_STAT_STATE 0 0 0).unsched .authComplete
  { t with dbg := { t.dbg with authBusy := false } }

/-- DETACH ends the session and releases every pair. -/
theorem State.dbgEnd_spec (s : State) : s.dbgEnd.fld F.DBG_STAT_STATE 0 0 = 0 ∧ s.dbgEnd.flag F.DBG_STAT_AUTH 0 0 = false ∧
    ∀ q, (s.dbgEnd.pair q).halted = false ∧ (s.dbgEnd.pair q).main = (s.pair q).main ∧
      ((s.pair q).halted = true → (s.dbgEnd.pair q).resv = none) := by
  obtain ⟨u, hu, regs, pairs⟩ : ∃ u, s.dbgEnd = (List.finRange 4).foldl State.dbgRelease u ∧
      u.regs = ((s.setFld F.DBG_STAT_AUTH 0 0 0).setFld F.DBG_STAT_STATE 0 0 0).regs ∧ u.pairs = s.pairs := ⟨s.dbgClosed, rfl, rfl, rfl⟩
  obtain ⟨kept, -, released⟩ := State.dbgRelease_fold (List.finRange 4) u (List.nodup_finRange 4)
  have fld := State.fld_of_regs (kept.trans regs)
  rw [hu]
  refine ⟨?_, ?_, fun q => ?_⟩
  · rw [fld]; exact State.fld_setFld_same _ F.DBG_STAT_STATE 0 0 0 (by decide)
  · rw [State.flag, fld, State.fld_setFld_apart (f := F.DBG_STAT_STATE) (g := F.DBG_STAT_AUTH) _ _ rfl (by decide) (by decide) (by decide),
      State.fld_setFld_same s F.DBG_STAT_AUTH 0 0 0 (by decide)]
    rfl
  · obtain ⟨halted, main, -, resv⟩ := released q (List.mem_finRange q)
    have same : u.pair q = s.pair q := by rw [State.pair, pairs]; rfl
    rw [same] at main resv
    exact ⟨halted, main, resv⟩

/-! ## Halts -/

/-- Pairs that a field of DBG_CTRL names. -/
theorem ctrl_halts (p : Pair) : (BitVec.ofNat 32 (2 ^ (4 + p.val))).getLsbD 2 = false ∧ (BitVec.ofNat 32 (2 ^ (4 + p.val))).getLsbD 3 = false ∧
    getBits (BitVec.ofNat 32 (2 ^ (4 + p.val))) 1 0 = 0 ∧ getBits (BitVec.ofNat 32 (2 ^ (4 + p.val))) 11 3 ≠ 0 ∧
    (allPairs.filter fun q => (BitVec.ofNat 32 (2 ^ (4 + p.val))).getLsbD (4 + q.val)) = [p] ∧
    (allPairs.filter fun q => (BitVec.ofNat 32 (2 ^ (4 + p.val))).getLsbD (8 + q.val)) = [] := by
  revert p; decide

theorem ctrl_steps (p : Pair) : (BitVec.ofNat 32 (2 ^ (8 + p.val))).getLsbD 2 = false ∧ (BitVec.ofNat 32 (2 ^ (8 + p.val))).getLsbD 3 = false ∧
    getBits (BitVec.ofNat 32 (2 ^ (8 + p.val))) 1 0 = 0 ∧ getBits (BitVec.ofNat 32 (2 ^ (8 + p.val))) 11 3 ≠ 0 ∧
    (allPairs.filter fun q => (BitVec.ofNat 32 (2 ^ (8 + p.val))).getLsbD (4 + q.val)) = [] ∧
    (allPairs.filter fun q => (BitVec.ofNat 32 (2 ^ (8 + p.val))).getLsbD (8 + q.val)) = [p] := by
  revert p; decide

theorem ctrl_resumes (halt : BitVec 4) : (BitVec.ofNat 32 (8 + halt.toNat * 16)).getLsbD 2 = false ∧
    (BitVec.ofNat 32 (8 + halt.toNat * 16)).getLsbD 3 = true ∧ getBits (BitVec.ofNat 32 (8 + halt.toNat * 16)) 1 0 = 0 ∧
    getBits (BitVec.ofNat 32 (8 + halt.toNat * 16)) 11 3 ≠ 0 ∧
    (∀ q : Pair, (BitVec.ofNat 32 (8 + halt.toNat * 16)).getLsbD (4 + q.val) = halt.getLsbD q.val) ∧
    (allPairs.filter fun q => (BitVec.ofNat 32 (8 + halt.toNat * 16)).getLsbD (8 + q.val)) = [] := by
  revert halt; decide

theorem State.dbgCtrl_barred {s : State} (host : Bool) {d : Word} (hd : d.getLsbD 2 = false) (hs : getBits d 1 0 = 0)
    (hr : getBits d 11 3 ≠ 0) (hg : s.grants .h = false) : s.dbgCtrl host d = (.denied, 0, s.dbgErr 1) := by
  simp only [State.dbgCtrl, hd, hs, hr, Bool.false_eq_true, if_false, State.dbgAttach_zero, hg, Bool.not_false, if_true]
  rfl

theorem State.dbgCtrl_halt {s : State} (host : Bool) (p : Pair) (hg : s.grants .h = true) :
    s.dbgCtrl host (BitVec.ofNat 32 (2 ^ (4 + p.val))) = if (s.dbgHalt p).1 then (.ok, 0, (s.dbgHalt p).2) else (.denied, 0, (s.dbgHalt p).2) := by
  obtain ⟨hd, hc, hs, hr, hhalt, hstep⟩ := ctrl_halts p
  simp only [State.dbgCtrl, hd, hc, hs, hr, hhalt, hstep, Bool.false_eq_true, if_false, State.dbgAttach_zero, hg, Bool.not_true,
    List.foldl_cons, List.foldl_nil, Bool.true_and]

theorem State.dbgCtrl_step {s : State} (host : Bool) (p : Pair) (hg : s.grants .h = true) :
    s.dbgCtrl host (BitVec.ofNat 32 (2 ^ (8 + p.val))) = (.ok, 0, s.dbgStep p) := by
  obtain ⟨hd, hc, hs, hr, hhalt, hstep⟩ := ctrl_steps p
  simp only [State.dbgCtrl, hd, hc, hs, hr, hhalt, hstep, Bool.false_eq_true, if_false, State.dbgAttach_zero, hg, Bool.not_true,
    List.foldl_cons, List.foldl_nil, if_true]

/-- A halt that is granted changes at most its own pair's request. -/
theorem State.pair_askHalt (s : State) (p q : Pair) : ((s.askHalt p).pair q).halted = (s.pair q).halted ∧
    ((s.askHalt p).pair q).resv = (s.pair q).resv ∧ ((s.pair q).halted = true → (s.askHalt p).pair q = s.pair q) := by
  unfold State.askHalt
  split
  · exact ⟨rfl, rfl, fun _ => rfl⟩
  next hrun =>
    obtain rfl | hne := eq_or_ne q p
    · have same : ((s.modPair q fun x => { x with haltReq := true }).emit (.haltTaken q)).pair q = { s.pair q with haltReq := true } :=
        State.pair_setPair_same _ _ _
      rw [same]
      exact ⟨rfl, rfl, fun h => absurd h hrun⟩
    · have other : ((s.modPair p fun x => { x with haltReq := true }).emit (.haltTaken p)).pair q = s.pair q :=
        State.pair_setPair_ne _ _ hne
      rw [other]
      exact ⟨rfl, rfl, fun _ => rfl⟩

/-- A halt request changes at most its own pair's request. -/
theorem State.pair_dbgHalt (s : State) (p q : Pair) : ((s.dbgHalt p).2.pair q).halted = (s.pair q).halted ∧
    ((s.dbgHalt p).2.pair q).resv = (s.pair q).resv ∧ ((s.pair q).halted = true → (s.dbgHalt p).2.pair q = s.pair q) := by
  unfold State.dbgHalt
  split
  · exact ⟨rfl, rfl, fun _ => rfl⟩
  · exact s.pair_askHalt p q

theorem State.dbgHalt_fold (l : List Pair) (b : Bool) (s : State) (q : Pair) :
    let t := (l.foldl (fun (x : Bool × State) p => let t := x.2.dbgHalt p; (x.1 && t.1, t.2)) (b, s)).2
    (t.pair q).halted = (s.pair q).halted ∧ (t.pair q).resv = (s.pair q).resv ∧ ((s.pair q).halted = true → t.pair q = s.pair q) := by
  induction l generalizing b s with
  | nil => exact ⟨rfl, rfl, fun _ => rfl⟩
  | cons p l ih =>
    obtain ⟨halted, resv, same⟩ := ih (b && (s.dbgHalt p).1) (s.dbgHalt p).2
    obtain ⟨halted', resv', same'⟩ := s.pair_dbgHalt p q
    exact ⟨halted.trans halted', resv.trans resv', fun h => (same (halted'.trans h)).trans (same' h)⟩

/-- RESUME releases the pairs that HALT does not name; a halted pair that it names stays as it is. -/
theorem State.dbgCtrl_resume {s : State} (host : Bool) (halt : BitVec 4) (hg : s.grants .h = true) :
    ∃ u st, s.dbgCtrl host (BitVec.ofNat 32 (8 + halt.toNat * 16)) = (st, 0, u) ∧ ∀ q : Pair,
      (halt.getLsbD q.val = false → (u.pair q).halted = false ∧ ((s.pair q).halted = true → (u.pair q).resv = none)) ∧
      (halt.getLsbD q.val = true → (s.pair q).halted = true → u.pair q = s.pair q) := by
  obtain ⟨hd, hc, hs, hr, hhalt, hstep⟩ := ctrl_resumes halt
  let freed := (allPairs.filter fun p : Pair => !halt.getLsbD p.val).foldl State.dbgRelease s
  let asked := (allPairs.filter fun p : Pair => halt.getLsbD p.val).foldl
    (fun (x : Bool × State) p => let t := x.2.dbgHalt p; (x.1 && t.1, t.2)) (true, freed)
  have form : s.dbgCtrl host (BitVec.ofNat 32 (8 + halt.toNat * 16)) = if asked.1 then (.ok, 0, asked.2) else (.denied, 0, asked.2) := by
    simp only [State.dbgCtrl, hd, hc, hs, hr, hhalt, hstep, Bool.false_eq_true, if_false, State.dbgAttach_zero, hg, Bool.not_true,
      List.foldl_nil, if_true]
    rfl
  have nodup : (allPairs.filter fun p : Pair => !halt.getLsbD p.val).Nodup := (List.nodup_finRange 4).filter _
  obtain ⟨-, others, released⟩ := State.dbgRelease_fold _ s nodup
  refine ⟨asked.2, if asked.1 then .ok else .denied, by rw [form]; split <;> rfl, fun q => ?_⟩
  obtain ⟨halted, resv, same⟩ := State.dbgHalt_fold (allPairs.filter fun p : Pair => halt.getLsbD p.val) true freed q
  refine ⟨fun hq => ?_, fun hq hh => ?_⟩
  · obtain ⟨free, -, -, none⟩ := released q (List.mem_filter.mpr ⟨List.mem_finRange q, by rw [hq]; rfl⟩)
    exact ⟨halted.trans free, fun hh => resv.trans (none hh)⟩
  · have kept : freed.pair q = s.pair q := others q (fun h => by have := (List.mem_filter.mp h).2; rw [hq] at this; exact nomatch this)
    exact (same (by rw [kept]; exact hh)).trans kept

/-- STEP frees its pair for one instruction where it is halted. -/
theorem State.dbgStep_spec (s : State) (p : Pair) :
    (s.dbgStep p).pair p = (if (s.pair p).halted then { s.pair p with halted := false, step := true } else s.pair p) ∧
    ∀ q, q ≠ p → (s.dbgStep p).pair q = s.pair q :=
  ⟨State.pair_setPair_same _ _ _, fun _ h => State.pair_setPair_ne _ _ h⟩

theorem State.dbgHalt_barred {s : State} {p : Pair} (h : s.haltBarred p = true) : ∃ u, s.dbgHalt p = (false, u) ∧
    u = { s.raiseFld F.DBG_STAT_ERR 0 0 2 with dbg := u.dbg } := by
  refine ⟨_, by rw [State.dbgHalt, if_pos h], rfl⟩

theorem State.dbgHalt_free {s : State} {p : Pair} (h : s.haltBarred p = false) : s.dbgHalt p = (true, s.askHalt p) := by
  rw [State.dbgHalt, if_neg (by simp [h])]

theorem State.askHalt_halted {s : State} {p : Pair} (h : (s.pair p).halted = true) : s.askHalt p = s := if_pos h

theorem State.askHalt_running {s : State} {p : Pair} (h : (s.pair p).halted = false) :
    (s.askHalt p).pair p = { s.pair p with haltReq := true } ∧ (s.askHalt p).inbox = s.inbox ++ [.haltTaken p] ∧
    (s.askHalt p).regs = s.regs := by
  rw [State.askHalt, if_neg (by simp [h])]
  exact ⟨State.pair_setPair_same _ _ _, rfl, rfl⟩

/-! ## The safe pattern of DBG_SAFEGRP -/

/-- Generators take the safe pattern: levels and generators alone change, and what is safe stays so. -/
def State.madeSafe (s t : State) : Prop :=
  ∃ pwm mx evc inbox cal, t = { s with pwm := pwm, mx := mx, evc := evc, inbox := inbox, cal := cal } ∧
    ∀ n : GenId, s.pwm[n].safe = true → pwm[n].safe = true

namespace State.madeSafe
variable {s t u : State}

theorem refl (s : State) : s.madeSafe s := ⟨_, _, _, _, _, rfl, fun _ h => h⟩

theorem trans (h : s.madeSafe t) (g : t.madeSafe u) : s.madeSafe u := by
  obtain ⟨_, _, _, _, _, rfl, hs⟩ := h
  obtain ⟨_, _, _, _, _, rfl, gs⟩ := g
  exact ⟨_, _, _, _, _, rfl, fun n h => gs n (hs n h)⟩

theorem setLv (t : State) (k : Nat) (b : Bool) : t.madeSafe (t.setLv k b) := ⟨_, _, _, _, _, rfl, fun _ h => h⟩

theorem modPwm (t : State) (n : GenId) {f : PwmSt → PwmSt} (h : ∀ g, g.safe = true → (f g).safe = true) : t.madeSafe (t.modPwm n f) := by
  refine ⟨_, _, _, _, _, rfl, fun m hm => ?_⟩
  obtain rfl | hne := eq_or_ne n m
  · exact (congrArg PwmSt.safe (vset_getElem_same _ _ _)).trans (h _ hm)
  · exact (congrArg PwmSt.safe (vset_getElem_ne _ _ hne)).trans hm

theorem foldl {α : Type} {f : State → α → State} (h : ∀ (t : State) a, t.madeSafe (f t a)) (l : List α) (t : State) : t.madeSafe (l.foldl f t) :=
  foldl_keeps t.madeSafe (fun _ a g => g.trans (h _ a)) l t (refl t)

theorem pwmDrive (t : State) (n : GenId) (e : Nat) : t.madeSafe (t.pwmDrive n e) := by
  refine trans (foldl (fun u x => ?_) _ _) (setLv _ _ _)
  dsimp only
  split
  · exact refl _
  · exact (setLv _ _ _).trans (modPwm _ _ fun _ h => h)

theorem pwmSafe (t : State) (n : GenId) (lead : Bool) : t.madeSafe (t.pwmSafe n lead) ∧ (t.pwmSafe n lead).pwm[n].safe = true := by
  have made := modPwm t n (f := fun g => { g with safe := true, lead := g.lead || lead, on := none, lvl := Vector.replicate 2 false })
    fun _ _ => rfl
  have driven := pwmDrive (t.modPwm n fun g => { g with safe := true, lead := g.lead || lead, on := none, lvl := Vector.replicate 2 false }) n
    (t.now * 256)
  refine ⟨made.trans driven, ?_⟩
  obtain ⟨_, _, _, _, _, hu, safe⟩ := driven
  have := safe n (congrArg PwmSt.safe (vset_getElem_same _ _ _))
  rw [State.pwmSafe, hu]
  exact this

theorem regs (h : s.madeSafe t) : t.regs = s.regs := by obtain ⟨_, _, _, _, _, rfl, -⟩ := h; rfl
theorem dbg (h : s.madeSafe t) : t.dbg = s.dbg := by obtain ⟨_, _, _, _, _, rfl, -⟩ := h; rfl
theorem now (h : s.madeSafe t) : t.now = s.now := by obtain ⟨_, _, _, _, _, rfl, -⟩ := h; rfl
theorem pairs (h : s.madeSafe t) : t.pairs = s.pairs := by obtain ⟨_, _, _, _, _, rfl, -⟩ := h; rfl
theorem safe (h : s.madeSafe t) (n : GenId) (g : s.pwm[n].safe = true) : t.pwm[n].safe = true := by
  obtain ⟨_, _, _, _, _, rfl, safe⟩ := h; exact safe n g
end State.madeSafe

/-- The generators whose group's bit of DBG_SAFEGRP becomes 1 take the safe pattern, in the order of a list of generators. -/
def State.safeGroups (s : State) (v old : Word) (l : List GenId) : State :=
  l.foldl (fun s (n : GenId) => if v.getLsbD (s.grpOf n) && !old.getLsbD (s.grpOf n) then s.pwmSafe n true else s) s

theorem State.safeGroups_madeSafe (s : State) (v old : Word) (l : List GenId) : s.madeSafe (s.safeGroups v old l) := by
  refine State.madeSafe.foldl (fun t n => ?_) l s
  split
  · exact (State.madeSafe.pwmSafe t n true).1
  · exact .refl t

theorem State.safeGroups_safe (s : State) (v old : Word) (l : List GenId) (n : GenId) (hn : n ∈ l) (hv : v.getLsbD (s.grpOf n) = true)
    (hold : old.getLsbD (s.grpOf n) = false) : (s.safeGroups v old l).pwm[n].safe = true := by
  induction l generalizing s with
  | nil => exact nomatch hn
  | cons m l ih =>
    have first : s.madeSafe (if v.getLsbD (s.grpOf m) && !old.getLsbD (s.grpOf m) then s.pwmSafe m true else s) :=
      State.safeGroups_madeSafe s v old [m]
    obtain rfl | hn := List.mem_cons.mp hn
    · have now : (if v.getLsbD (s.grpOf n) && !old.getLsbD (s.grpOf n) then s.pwmSafe n true else s) = s.pwmSafe n true :=
        if_pos (by simp [hv, hold])
      refine (State.safeGroups_madeSafe (if v.getLsbD (s.grpOf n) && !old.getLsbD (s.grpOf n) then s.pwmSafe n true else s) v old l).safe n ?_
      rw [now]; exact (State.madeSafe.pwmSafe s n true).2
    · have grp : State.grpOf (if v.getLsbD (s.grpOf m) && !old.getLsbD (s.grpOf m) then s.pwmSafe m true else s) n = s.grpOf n :=
        State.fld_of_regs first.regs _ _ _
      exact ih _ hn (by rw [grp]; exact hv) (by rw [grp]; exact hold)

theorem State.safegrpWrite_eq (s : State) (v : Word) : s.safegrpWrite v =
    ((s.setReg .DBG_SAFEGRP 0 0 (v &&& 0xFFFF)).safeGroups v (s.reg .DBG_SAFEGRP 0 0) (List.finRange 16)).unbar := rfl

/-- Halts that a written DBG_SAFEGRP grants change the pairs' requests and DBG_STAT.ERR. -/
def State.halts (s t : State) : Prop := ∃ pairs inbox dbg, t = { s with pairs := pairs, inbox := inbox, dbg := dbg, regs := t.regs } ∧
  t.reg .DBG_SAFEGRP 0 0 = s.reg .DBG_SAFEGRP 0 0

theorem State.halts.trans {s t u : State} (h : s.halts t) (g : t.halts u) : s.halts u := by
  obtain ⟨_, _, _, ht, hr⟩ := h
  obtain ⟨_, _, _, hu, gr⟩ := g
  exact ⟨_, _, _, by rw [hu, ht], gr.trans hr⟩

theorem State.askHalt_halts (s : State) (p : Pair) : s.halts (s.askHalt p) := by
  unfold State.askHalt
  split
  · exact ⟨_, _, _, rfl, rfl⟩
  · exact ⟨_, _, _, rfl, rfl⟩

theorem State.setErr_halts (s : State) (e : Nat) : s.halts (s.setFld F.DBG_STAT_ERR 0 0 e) :=
  ⟨_, _, _, rfl, State.reg_setReg_ne _ _ (by decide)⟩

theorem State.unbar_halts (s : State) : s.halts s.unbar := by
  unfold State.unbar
  dsimp only
  split
  · exact ⟨_, _, _, rfl, rfl⟩
  · refine State.halts.trans (foldl_keeps s.halts (fun t b h => h.trans ((t.askHalt_halts _).trans (State.setErr_halts _ _))) _ s
      ⟨_, _, _, rfl, rfl⟩) ⟨_, _, _, rfl, rfl⟩

/-- A halt refused in this lc that nothing bars any more is pending. -/
theorem State.unbar_one {s : State} {k : Nat} {p : Pair} (hb : s.dbg.barred = [(s.now, k, p)]) (hbar : s.haltBarred p = false)
    (hrun : (s.pair p).halted = false) : (s.unbar.pair p).haltReq = true ∧ Instr.haltTaken p ∈ s.unbar.inbox := by
  obtain ⟨pair, inbox, -⟩ := State.askHalt_running hrun
  have form : s.unbar = { (s.askHalt p).setFld F.DBG_STAT_ERR 0 0 k with
      dbg := { ((s.askHalt p).setFld F.DBG_STAT_ERR 0 0 k).dbg with barred := [] } } := by
    simp [State.unbar, hb, hbar]
  rw [form]
  exact ⟨congrArg PairSt.haltReq pair, by
    change Instr.haltTaken p ∈ (s.askHalt p).inbox
    rw [inbox]; exact List.mem_append_right _ (List.mem_singleton.mpr rfl)⟩

/-- Where DBG_SAFEGRP names every group, no halt is barred. -/
theorem State.haltBarred_all {s : State} (h : s.reg .DBG_SAFEGRP 0 0 = 0xFFFF) (p : Pair) : s.haltBarred p = false := by
  have bits : ∀ k < 16, (0xFFFF : Word).getLsbD k = true := by decide
  simp only [State.haltBarred, h, Bool.and_eq_false_iff, List.any_eq_false, List.mem_range]
  exact .inr fun k hk => by rw [bits k hk]; simp

theorem State.safegrpWrite_spec (s : State) (x : Word) (p : Pair) : (s.safegrpWrite x).reg .DBG_SAFEGRP 0 0 = x &&& 0xFFFF ∧
    (∀ n : GenId, x.getLsbD (s.grpOf n) = true → (s.reg .DBG_SAFEGRP 0 0).getLsbD (s.grpOf n) = false →
      (s.safegrpWrite x).pwm[n].safe = true) ∧
    ∀ k, s.dbg.barred = [(s.now, k, p)] → (s.pair p).halted = false → x.toNat % 65536 = 65535 →
      ((s.safegrpWrite x).pair p).haltReq = true ∧ Instr.haltTaken p ∈ (s.safegrpWrite x).inbox := by
  rw [State.safegrpWrite_eq]
  have made := (s.setReg .DBG_SAFEGRP 0 0 (x &&& 0xFFFF)).safeGroups_madeSafe x (s.reg .DBG_SAFEGRP 0 0) (List.finRange 16)
  have safe := (s.setReg .DBG_SAFEGRP 0 0 (x &&& 0xFFFF)).safeGroups_safe x (s.reg .DBG_SAFEGRP 0 0) (List.finRange 16)
  obtain ⟨u, hu⟩ : ∃ u, u = (s.setReg .DBG_SAFEGRP 0 0 (x &&& 0xFFFF)).safeGroups x (s.reg .DBG_SAFEGRP 0 0) (List.finRange 16) := ⟨_, rfl⟩
  rw [← hu] at made safe ⊢
  have stored : u.reg .DBG_SAFEGRP 0 0 = x &&& 0xFFFF := by
    rw [State.reg, made.regs]; exact State.reg_setReg_same s _ _ _ _
  have grp : ∀ n, (s.setReg .DBG_SAFEGRP 0 0 (x &&& 0xFFFF)).grpOf n = s.grpOf n := fun n =>
    State.fld_setReg_ne s _ (by
      have := n.isLt
      simp only [F.PWMn_CFG_GRP, RegName.addr, RegName.base, RegName.dims]
      omega)
  obtain ⟨_, _, _, hw, reg⟩ := u.unbar_halts
  refine ⟨reg.trans stored, fun n hv hold => ?_, fun k hb hrun hx => ?_⟩
  · have := safe n (List.mem_finRange n) (by rw [grp]; exact hv) (by rw [grp]; exact hold)
    rw [hw]; exact this
  · have all : x &&& 0xFFFF = 0xFFFF := BitVec.eq_of_toNat_eq ((BitVec.toNat_and _ _).trans ((Nat.and_two_pow_sub_one_eq_mod x.toNat 16).trans hx))
    refine State.unbar_one (k := k) ?_ (State.haltBarred_all (stored.trans all) p) ?_
    · rw [made.dbg, made.now]; exact hb
    · rw [State.pair, made.pairs]; exact hrun

end Sys2Proof.Machine
end

