-- ==== Sys2Proof/Proofs/DebugPort.lean ====
section
/-! PROOF. Reads and writes of the debug port, at an address and at a register of a halted pair, and its halts (R369 to R372). -/

namespace Sys2Proof.Machine

/-! ## Reads at an address -/

theorem State.dbgRead_denied {s : State} {c : Bool} {a : Word} (hret : s.sys.mode ≠ .retention)
    (hg : s.grants (capOf false c a.toNat) = false) : s.dbgRead c a = (.denied, 0, s.dbgErr 1) := by
  simp only [State.dbgRead, hg, hret, decide_false, Bool.false_and, Bool.or_self, Bool.not_false, if_true]
  rfl

/-- What a bus answer is to the debug port. -/
def BusR.debug (x : BusR × State) : DbgR :=
  match x with
  | (.data v, s) => (.ok, BitVec.ofNat 32 v, s)
  | (.busy w, s) => (.ok, w, s)
  | (.error, s) => (.denied, 0, s)

theorem State.dbgRead_granted {s : State} {c : Bool} {a : Word} (hg : s.grants (capOf false c a.toNat) = true) (ha : a.toNat % 4 = 0) :
    s.dbgRead c a = BusR.debug (s.busRead dbgReq (!c) a.toNat 4) := by
  have aligned : ¬a.toNat % 4 ≠ 0 := by omega
  simp only [State.dbgRead, hg, Bool.true_or, Bool.not_true, Bool.false_eq_true, if_false, aligned, BusR.debug] <;> rfl

/-- A word that meets no upset is read at its place. -/
theorem State.busRead_ram {s : State} {r : Req} {pk : Bool} {x b : Nat} (hp : place r x 4 = .ram b) (hc : s.cleanAt b 4) :
    ∃ i, s.busRead r pk x 4 = (.data (s.readLE b 4), { s with ix := i }) := by
  obtain ⟨i, hi⟩ := s.beat_only r.master false r.pair.isSome b 4
  have hecc : ({ s with ix := i } : State).eccRead b 4 = (false, { s with ix := i }) := State.eccRead_clean hc
  refine ⟨i, ?_⟩
  rw [State.busRead, hp]
  simp only [hi, hecc, Bool.false_eq_true, if_false]

theorem State.busRead_reg {s : State} {r : Req} {pk : Bool} {x i j : Nat} {q : RegName} (hp : place r x 4 = .reg q i j) :
    s.busRead r pk x 4 = (.data (s.regRead r pk q i j).1.toNat, (s.regRead r pk q i j).2) := by rw [State.busRead, hp]

theorem State.busRead_config {s : State} {r : Req} {pk : Bool} {x b : Nat} (hp : place r x 4 = .config b) :
    s.busRead r pk x 4 = (.data (if s.configOpen r b 4 then s.readLE b 4 else 0), s) := by rw [State.busRead, hp]

theorem State.busRead_nowhere {s : State} {r : Req} {pk : Bool} {x : Nat} (hp : place r x 4 = .nowhere) :
    s.busRead r pk x 4 = (.error, s) := by rw [State.busRead, hp]

theorem State.busRead_flash {s u : State} {r : Req} {pk : Bool} {x b : Nat} (hp : place r x 4 = .flash b) :
    (s.flReadBy r.master b = (.ok, u) → s.busRead r pk x 4 = (.data (u.readLE b 4), u)) ∧
    (∀ w, s.flReadBy r.master b = (.busy w, u) → s.busRead r pk x 4 = (.busy w, u)) ∧
    (s.flReadBy r.master b = (.bad, u) → s.busRead r pk x 4 = (.error, u)) := by
  refine ⟨fun h => ?_, fun w h => ?_, fun h => ?_⟩ <;> simp only [State.busRead, hp, h]

/-- A peek of a register changes nothing, except that TOD_NS latches its snapshot. -/
theorem State.regRead_peek (s : State) {q : RegName} (i j : Nat) (h : q ≠ .TOD_NS) : (s.regRead dbgReq true q i j).2 = s := by
  unfold State.regRead
  split
  case h_1 => exact absurd rfl h
  case h_7 =>
    unfold State.tsRead
    dsimp only
    split <;> rfl
  case h_8 =>
    split
    · rfl
    · rfl
  all_goals rfl

/-! ## Writes at an address -/

theorem State.dbgWrite_denied {s : State} {a : Word} (hg : s.grants (capOf true false a.toNat) = false) (host : Bool) (x : Word) :
    s.dbgWrite host a x = (.denied, 0, s.dbgErr 1) := by
  simp only [State.dbgWrite, hg, Bool.not_false, if_true]
  rfl

/-- What a plain write answers the debug port. -/
def State.dbgStored (s : State) (a x : Word) : DbgR :=
  let u := s.busWrite dbgReq a.toNat x.toNat 4
  (if u.ans.err then .denied else .ok, 0, u)

theorem State.dbgWrite_memory {s : State} {a : Word} (hg : s.grants (capOf true false a.toNat) = true) (hr : regAt (unalias a.toNat) = none)
    (ha : a.toNat % 4 = 0) (host : Bool) (x : Word) : s.dbgWrite host a x = s.dbgStored a x := by
  have aligned : ¬a.toNat % 4 ≠ 0 := by omega
  simp only [State.dbgWrite, hg, hr, Bool.not_true, Bool.false_eq_true, if_false, aligned]
  rfl

theorem State.dbgWrite_plain {s : State} {a : Word} {q : RegName} {i j : Nat} (hg : s.grants (capOf true false a.toNat) = true)
    (hr : regAt (unalias a.toNat) = some (q, i, j)) (hq : q ∉ [RegName.DBG_CTRL, .DBG_SAFEGRP, .DBG_AUTH_CTRL, .DBG_AUTH_DATAi])
    (host : Bool) (x : Word) : s.dbgWrite host a x = s.dbgStored a x := by
  simp only [List.mem_cons, List.not_mem_nil, or_false, not_or] at hq
  obtain ⟨hctrl, hsafe, hauth, hdata⟩ := hq
  simp only [State.dbgWrite, hg, hr, Bool.not_true, Bool.false_eq_true, if_false]
  rfl

theorem State.dbgWrite_authData {s : State} {a : Word} {i j : Nat} (hg : s.grants (capOf true false a.toNat) = true)
    (hr : regAt (unalias a.toNat) = some (.DBG_AUTH_DATAi, i, j)) (host : Bool) (x : Word) :
    s.dbgWrite host a x = (.ok, 0, s.setReg .DBG_AUTH_DATAi i 0 x) := by
  simp only [State.dbgWrite, hg, hr, Bool.not_true, Bool.false_eq_true, if_false]

/-- A write to memory that meets no upset stands there, and nowhere else. -/
theorem State.busWrite_memory {s : State} {a b : Nat} {x : Word} (hp : place dbgReq a 4 = .ram b) (hc : s.cleanAt b 4)
    (hs : ∀ q k, (s.pair q).stc = some k → k.lc ≠ s.now) (hle : b < 0x30000000 ∨ 0x30380000 ≤ b) :
    (s.busWrite dbgReq a x.toNat 4).ans.err = false ∧ (s.busWrite dbgReq a x.toNat 4).word b = x ∧
    ∀ y, y < b ∨ b + 4 ≤ y → (s.busWrite dbgReq a x.toNat 4).byte y = s.byte y := by
  obtain ⟨i, p, write⟩ := State.busWrite_ram (v := x.toNat) hp hc hle hs
  refine ⟨?_, ?_, fun y hy => ?_⟩
  · rw [write, State.writeLE_only_mem]; rfl
  · exact (congrArg (State.word · b) write).trans (State.word_setWord_same _ _ _)
  · rw [write, State.byte_writeLE_ne _ hy]; rfl

/-! ## Registers of a halted pair -/

theorem State.dbgLoad_register {s : State} {c : Bool} {loc : DbgLoc} {p : Pair} (hl : locPair loc = some p) :
    (s.grants .h = true → (s.pair p).halted = true → ∀ y, s.dbgPeek loc = some y → s.dbgLoad c loc = (.ok, y,
      if c && decide (loc = DbgLoc.special p 25) then s.modPair p fun x => { x with cycleh := s.cycleHi } else s)) ∧
    (s.grants .h = false ∨ (s.pair p).halted = false → s.dbgLoad c loc = (.denied, 0, s.dbgErr 1)) := by
  have form : s.dbgLoad c loc = match s.dbgPeek loc with
      | some v => if s.dbgReaches p then (.ok, v, if c && decide (loc = DbgLoc.special p 25) then
          s.modPair p fun x => { x with cycleh := s.cycleHi } else s) else s.dbgDeny
      | none => s.dbgDeny := by
    cases loc with
    | bus a => exact nomatch hl
    | greg q r | freg q r hi | special q n =>
      obtain rfl : q = p := Option.some.inj hl
      simp only [State.dbgLoad, locPair]
      cases s.dbgPeek _ <;> rfl
  refine ⟨fun hg hh y hy => ?_, fun h => ?_⟩
  · rw [form, hy]; simp [State.dbgReaches, hg, hh]
  · have shut : s.dbgReaches p = false := by obtain h | h := h <;> simp [State.dbgReaches, h]
    rw [form]
    cases s.dbgPeek loc with
    | none => rfl
    | some v => simp only [shut, Bool.false_eq_true, if_false]; rfl

theorem State.dbgStore_register {s : State} {host : Bool} {loc : DbgLoc} {p : Pair} {x : Word} (hl : locPair loc = some p) :
    (s.grants .h = true → (s.pair p).halted = true → s.dbgPeek loc ≠ none → s.dbgStore host loc x = (.ok, 0, s.dbgPoke loc x)) ∧
    (s.grants .h = false ∨ (s.pair p).halted = false → s.dbgStore host loc x = (.denied, 0, s.dbgErr 1)) := by
  have form : s.dbgStore host loc x = match s.dbgPeek loc with
      | some _ => if s.dbgReaches p then (.ok, 0, s.dbgPoke loc x) else s.dbgDeny
      | none => s.dbgDeny := by
    cases loc with
    | bus a => exact nomatch hl
    | greg q r | freg q r hi | special q n =>
      obtain rfl : q = p := Option.some.inj hl
      simp only [State.dbgStore, locPair]
      cases s.dbgPeek _ <;> rfl
  refine ⟨fun hg hh hy => ?_, fun h => ?_⟩
  · obtain ⟨y, hy⟩ := Option.ne_none_iff_exists'.mp hy
    rw [form, hy]; simp [State.dbgReaches, hg, hh]
  · have shut : s.dbgReaches p = false := by obtain h | h := h <;> simp [State.dbgReaches, h]
    rw [form]
    cases s.dbgPeek loc with
    | none => rfl
    | some v => simp only [shut, Bool.false_eq_true, if_false]; rfl

/-- A general register takes what is written, g0 nothing. -/
theorem Copy.gr_setG (c : Copy) (g k : Greg) (x : Word) : (c.setG g x).gr k = if k = g ∧ g ≠ 0 then x else c.gr k := by
  obtain rfl | hg := eq_or_ne g 0
  · simp [Copy.setG]
  · rw [Copy.setG, if_neg hg]
    obtain rfl | hne := eq_or_ne k g
    · simp [Copy.gr, hg]
    · rw [if_neg (by simp [hne])]
      simp only [Copy.gr]
      rw [show (vset c.g g x)[k] = c.g[k] from vset_getElem_ne _ _ hne.symm]

theorem Copy.fr_setF_same (c : Copy) (g : Freg) (x : BitVec 64) : (c.setF g x).fr g = x := vset_getElem_same _ _ _
theorem Copy.fr_setF_ne (c : Copy) {g k : Freg} (x : BitVec 64) (h : k ≠ g) : (c.setF g x).fr k = c.fr k :=
  vset_getElem_ne _ _ h.symm

theorem State.pair_both_same (s : State) (p : Pair) (f : Copy → Copy) :
    (s.both p f).pair p = { s.pair p with main := f (s.pair p).main, chk := f (s.pair p).chk } := State.pair_setPair_same _ _ _

theorem State.dbgPoke_greg (s : State) (p : Pair) (g : Greg) (x : Word) :
    (s.dbgPoke (.greg p g) x).regs = s.regs ∧ (s.dbgPoke (.greg p g) x).mem = s.mem ∧
    (∀ k : Fin 32, ((s.dbgPoke (.greg p g) x).pair p).main.gr k = (if k = g ∧ g ≠ 0 then x else (s.pair p).main.gr k) ∧
      ((s.dbgPoke (.greg p g) x).pair p).chk.gr k = (if k = g ∧ g ≠ 0 then x else (s.pair p).chk.gr k)) ∧
    ∀ q : Pair, q ≠ p → (s.dbgPoke (.greg p g) x).pair q = s.pair q := by
  have poked : (s.dbgPoke (.greg p g) x).pair p = { s.pair p with
      main := (s.pair p).main.setG g x, chk := (s.pair p).chk.setG g x } := s.pair_both_same p _
  refine ⟨rfl, rfl, fun k => ?_, fun q hq => State.pair_setPair_ne _ _ hq⟩
  rw [poked]
  exact ⟨Copy.gr_setG _ g k x, Copy.gr_setG _ g k x⟩

theorem State.dbgPoke_freg (s : State) (p : Pair) (g : Freg) (hi : Bool) (x : Word) :
    (∀ k : Fin 32, k ≠ g → ((s.dbgPoke (.freg p g hi) x).pair p).main.fr k = (s.pair p).main.fr k) ∧
    ((s.dbgPoke (.freg p g hi) x).pair p).main.fr g = (if hi then x ++ ((s.pair p).main.fr g).setWidth 32
      else (((s.pair p).main.fr g) >>> 32).setWidth 32 ++ x) := by
  have poked : ((s.dbgPoke (.freg p g hi) x).pair p).main = (s.pair p).main.setF g (if hi then x ++ ((s.pair p).main.fr g).setWidth 32
      else (((s.pair p).main.fr g) >>> 32).setWidth 32 ++ x) := congrArg PairSt.main (s.pair_both_same p _)
  rw [poked]
  exact ⟨fun k hk => Copy.fr_setF_ne _ _ hk, Copy.fr_setF_same _ _ _⟩

theorem State.dbgPoke_special (s : State) (p : Pair) (n : Fin 32) (x : Word) :
    ((s.dbgPoke (.special p n) x).pair p).main = (s.pair p).main.setSpecial n.val false x ∧
    ((s.dbgPoke (.special p n) x).pair p).chk = (s.pair p).chk.setSpecial n.val false x ∧
    (n = 5 → (s.dbgPoke (.special p n) x).fld F.LP_EXC_STAT_ARMED p 0 = 0) := by
  by_cases h : n.val = 5
  · have form : s.dbgPoke (.special p n) x = (s.setFld F.LP_EXC_STAT_ARMED p 0 0).both p fun c => c.setSpecial n.val false x := by
      simp only [State.dbgPoke, h, if_true]
    have poked := (s.setFld F.LP_EXC_STAT_ARMED p 0 0).pair_both_same p fun c => c.setSpecial n.val false x
    rw [form]
    exact ⟨congrArg PairSt.main poked, congrArg PairSt.chk poked, fun _ => State.fld_setFld_same s F.LP_EXC_STAT_ARMED p 0 0 (by decide)⟩
  · have form : s.dbgPoke (.special p n) x = s.both p fun c => c.setSpecial n.val false x := by
      simp only [State.dbgPoke, h, if_false]
    have poked := s.pair_both_same p fun c => c.setSpecial n.val false x
    rw [form]
    exact ⟨congrArg PairSt.main poked, congrArg PairSt.chk poked, fun hn => absurd (congrArg Fin.val hn) h⟩

/-! ## Commands that reach their port -/

theorem exec_debugRead {s : State} {v : DbgVia} {loc : DbgLoc} (h : s.dbgHears v 1 (locWord loc) 0) :
    exec (.debugRead v loc) s = .next (dbgTold v 1 (s.dbgLoad false loc)) := dbgCmd_heard h fun _ s => s.dbgLoad false loc

theorem exec_debugConsumeRead {s : State} {v : DbgVia} {loc : DbgLoc} (h : s.dbgHears v 3 (locWord loc) 0) :
    exec (.debugConsumeRead v loc) s = .next (dbgTold v 3 (s.dbgLoad true loc)) := dbgCmd_heard h fun _ s => s.dbgLoad true loc

theorem exec_debugWrite {s : State} {v : DbgVia} {loc : DbgLoc} {x : Word} (h : s.dbgHears v 2 (locWord loc) x) :
    exec (.debugWrite v loc x) s = .next (dbgTold v 2 (s.dbgStore (dbgAtHost v) loc x)) :=
  dbgCmd_heard h fun host s => s.dbgStore host loc x

theorem exec_debugWrite_bus {s : State} {v : DbgVia} {a x : Word} (h : s.dbgHears v 2 a x) :
    exec (.debugWrite v (.bus a) x) s = .next (dbgTold v 2 (s.dbgWrite (dbgAtHost v) a x)) := exec_debugWrite (loc := .bus a) h

/-- A debug command comes whole to a device that answers there. -/
def State.dbgComes (s : State) (v : DbgVia) (op : Nat) (a d : Word) : Prop :=
  s.sys.mode ≠ .reset ∧ s.sys.mode ≠ .retention ∧ match v with
    | .tap => True
    | .host f => s.sys.mode ≠ .blank ∧ s.sys.mode ≠ .loading ∧ s.sys.mode ≠ .verify ∧
      ∃ q, hpReceive f 0x30 ([BitVec.ofNat 8 op, 0, 0, 0] ++ Word.bytes a ++ Word.bytes d) = .good q ∧ 12 ≤ q.length

theorem State.dbgHears_of_comes {s : State} {v : DbgVia} {op : Nat} {a d : Word} (h : s.dbgComes v op a d)
    (hp : s.flag F.DBG_STAT_PORT 0 0 = dbgAtHost v ∨ s.dbgOn = false) : s.dbgHears v op a d := ⟨h.1, h.2.1, hp, h.2.2⟩

/-- A read at a port while the other holds the session. -/
theorem exec_debugRead_busy {s : State} {v : DbgVia} {a : Word} (h : s.dbgComes v 1 a 0) (hon : s.dbgOn = true) (hport : s.flag F.DBG_STAT_PORT 0 0 ≠ dbgAtHost v) :
    exec (.debugRead v (.bus a)) s = .next (dbgTold v 1 (.busy, 0, s.dbgErr 3)) := by
  obtain ⟨hreset, hret, hv⟩ := h
  have held : ∀ body, s.dbgPort (dbgAtHost v) false body = (.busy, 0, s.dbgErr 3) := by
    intro body
    simp [State.dbgPort, hon, hport]
  have elsewhere : decide ((1 : Nat) = 2 ∧ unalias a.toNat = RegName.DBG_CTRL.addr 0 0 ∧ getBits (0 : Word) 1 0 ∈ [1, 2]) = false :=
    decide_eq_false fun h => absurd h.1 (by decide)
  change dbgCmd v 1 a 0 (fun _ s => s.dbgLoad false (.bus a)) s = _
  cases v with
  | tap =>
    have held : s.dbgPort false false (fun s => s.dbgLoad false (.bus a)) = (.busy, 0, s.dbgErr 3) := held _
    simp only [dbgCmd, if_neg hreset, elsewhere, held]
    rfl
  | host f =>
    obtain ⟨hblank, hloading, hverify, q, hgood, hlen⟩ := hv
    have hlive : s.hpLive = true := by simp [State.hpLive, hreset, hret]
    have held : s.dbgPort true false (fun s => s.dbgLoad false (.bus a)) = (.busy, 0, s.dbgErr 3) := held _
    simp only [dbgCmd, hpCmd_good hlive hgood, if_neg (Nat.not_lt.mpr hlen), hblank, hloading, hverify, or_self, if_false, elsewhere, held]
    rfl

/-! ## A halt that is taken -/

theorem exec_haltTaken_halts {s : State} {p : Pair} (hr : (s.pair p).haltReq = true) (hb : s.boundary p = .halt) :
    exec (.haltTaken p) s = .next (s.takeHalt p) := by
  change execHaltTaken p s = _
  simp only [execHaltTaken, hr, hb, Bool.not_true, Bool.false_eq_true, if_false]

theorem exec_haltTaken_none {s : State} {p : Pair} (hr : (s.pair p).haltReq = false) : exec (.haltTaken p) s = .next s := by
  change execHaltTaken p s = _
  simp only [execHaltTaken, hr, Bool.not_false, if_true]

/-- Settles O53: what each command reaches, by the rules of its port, its register and its pair. -/
theorem debugPort : Obligations.DebugPort := by
  unfold Obligations.DebugPort
  intro s v a x p halt host tells reaches heard ctrl ok denied alone at_
  have hhost : host = dbgAtHost v := rfl
  have comes : ∀ op a d, reaches op a d → s.dbgComes v op a d := fun _ _ _ h => h
  have hears : ∀ op a d, heard op a d → s.dbgHears v op a d := fun op a d h => State.dbgHears_of_comes (comes op a d h.1) h.2
  have lives : ∀ op a d, heard op a d → s.sys.mode ≠ .retention := fun _ _ _ h => h.1.2.1
  have told : ∀ op st w u, dbgTold v op (st, w, u) = tells op u st w := by intro op st w u; cases v <;> rfl
  clear_value tells reaches host
  have ctrlTold : ∀ d u st, ctrl d → s.dbgCtrl host (BitVec.ofNat 32 d) = (st, 0, u) →
      dbgRegCmd v .DBG_CTRL (BitVec.ofNat 32 d) s = .next (tells 2 u st 0) := by
    intro d u st hc hd
    rw [dbgRegCmd_ctrl (hears _ _ _ hc), ← hhost, hd, told]
  refine ⟨?_, fun q i j hq => s.regRead_peek i j hq, ?_, ?_, ?_, ?_, ?_, ?_, ?_, ?_, ?_, ?_, exec_haltTaken_none⟩
  · intro f hf hh gives
    have read : exec f.2.2 s = .next (dbgTold v f.1 (s.dbgRead f.2.1 a)) := by
      simp only [List.mem_cons, List.not_mem_nil, or_false] at hf
      obtain rfl | rfl := hf
      · exact exec_debugRead (hears _ _ _ hh)
      · exact exec_debugConsumeRead (hears _ _ _ hh)
    have answers : ∀ {u st w}, s.dbgRead f.2.1 a = (st, w, u) → gives u st w := by
      intro u st w h
      exact read.trans (by rw [h, told])
    refine ⟨fun hg => answers (State.dbgRead_denied (lives _ _ _ hh) hg), fun hg ha => ?_⟩
    have granted := State.dbgRead_granted hg ha
    refine ⟨fun b hb hc => ?_, fun q i j hq => ?_, fun b hb => ?_, fun b u hb => ?_, fun hn => ?_⟩
    · obtain ⟨i, hi⟩ := State.busRead_ram (pk := !f.2.1) hb hc
      exact ⟨{ s with ix := i }, answers (by rw [granted, hi]; rfl), rfl, rfl, rfl⟩
    · exact answers (by rw [granted, State.busRead_reg hq]; simp [BusR.debug])
    · exact answers (by rw [granted, State.busRead_config hb]; simp only [BusR.debug]; split <;> rfl)
    · obtain ⟨good, busy, bad⟩ := State.busRead_flash (s := s) (u := u) (r := dbgReq) (pk := !f.2.1) hb
      exact ⟨fun h => answers (by rw [granted, good h]; rfl), fun w h => answers (by rw [granted, busy w h]; rfl),
        fun h => answers (by rw [granted, bad h]; rfl)⟩
    · exact answers (by rw [granted, State.busRead_nowhere hn]; rfl)
  · intro hr hon hport
    rw [exec_debugRead_busy (comes _ _ _ hr) hon (hhost ▸ hport), told]
    rfl
  · intro hh
    have write : ∀ {u st}, (∀ h, s.dbgWrite h a x = (st, 0, u)) → exec (.debugWrite v (.bus a) x) s = .next (tells 2 u st 0) := by
      intro u st h
      rw [exec_debugWrite_bus (hears _ _ _ hh), h, told]
    refine ⟨fun hg => write (State.dbgWrite_denied hg · x), fun hg => ⟨fun hr ha => ⟨write (State.dbgWrite_memory hg hr ha · x), ?_⟩, ?_⟩⟩
    · intro b hb hc hs hle
      exact State.busWrite_memory hb hc hs hle
    · intro q i j hr
      refine ⟨fun hq => write (State.dbgWrite_plain hg hr hq · x), ?_⟩
      rintro rfl
      exact write (State.dbgWrite_authData hg hr · x)
  · intro loc hl
    refine ⟨fun hh => ⟨fun hg hp y hy => ?_, fun h => ?_⟩, fun hh hg hp y hy => ?_, fun hh => ⟨fun h => ?_, fun hg hp => ?_⟩⟩
    · rw [exec_debugRead (hears _ _ _ hh), (State.dbgLoad_register hl).1 hg hp y hy, told]; rfl
    · rw [exec_debugRead (hears _ _ _ hh), (State.dbgLoad_register hl).2 h, told]; rfl
    · refine ⟨_, by rw [exec_debugConsumeRead (hears _ _ _ hh), (State.dbgLoad_register hl).1 hg hp y hy, told], ?_, fun hne => ?_⟩
      · split <;> rfl
      · simp [hne]
    · rw [exec_debugWrite (hears _ _ _ hh), (State.dbgStore_register hl).2 h, told]; rfl
    · have poke : s.dbgPeek loc ≠ none → exec (.debugWrite v loc x) s = .next (tells 2 (s.dbgPoke loc x) .ok 0) := by
        intro hn
        rw [exec_debugWrite (hears _ _ _ hh), (State.dbgStore_register hl).1 hg hp hn, told]
      refine ⟨?_, ?_, ?_⟩
      · rintro g rfl
        exact ⟨_, poke (Option.some_ne_none _), s.dbgPoke_greg p g x⟩
      · rintro g hi rfl
        refine ⟨_, poke (Option.some_ne_none _), ?_⟩
        rintro q rfl
        exact s.dbgPoke_freg q g hi x
      · rintro n rfl hn
        exact ⟨_, poke hn, s.dbgPoke_special p n x⟩
  · intro k hc
    have attach := s.dbgCtrl_attach host k
    refine ⟨fun h1 h2 => ctrlTold _ _ _ hc (attach.trans (s.dbgAttach_none host h1 h2)), fun h => ?_, fun h2 hf => ?_⟩
    · obtain ⟨u, hu, rest⟩ := State.dbgAttach_granted host h
      exact ⟨u, ctrlTold _ _ _ hc (attach.trans hu), rest⟩
    · exact ctrlTold _ _ _ hc (attach.trans (by rw [h2]; exact State.dbgAttach_refused host hf))
  · intro hc
    exact ⟨_, ctrlTold 4 _ _ hc (s.dbgCtrl_detach host), s.dbgEnd_spec⟩
  · intro hc
    refine ⟨fun hg => ?_, fun hg => ?_⟩
    · obtain ⟨hd, -, hs, hr, -, -⟩ := ctrl_halts p
      exact ctrlTold _ _ _ hc (State.dbgCtrl_barred host hd hs hr hg)
    have asked := State.dbgCtrl_halt (s := s) host p hg
    refine ⟨fun hb => ?_, fun hb hp => ?_, fun hb hp => ?_⟩
    · obtain ⟨u, hu, rest⟩ := State.dbgHalt_barred hb
      exact ⟨u, ctrlTold _ _ _ hc (by rw [asked, hu]; rfl), rest⟩
    · exact ctrlTold _ _ _ hc (by rw [asked, State.dbgHalt_free hb, State.askHalt_halted hp]; rfl)
    · exact ⟨s.askHalt p, ctrlTold _ _ _ hc (by rw [asked, State.dbgHalt_free hb]; rfl), State.askHalt_running hp⟩
  · intro hc hg
    obtain ⟨u, st, hu, rest⟩ := State.dbgCtrl_resume host halt hg
    exact ⟨u, st, ctrlTold _ _ _ hc hu, rest⟩
  · intro hc hg
    exact ⟨_, ctrlTold _ _ _ hc (State.dbgCtrl_step host p hg), s.dbgStep_spec p⟩
  · intro hh hg
    exact ⟨_, (dbgRegCmd_safegrp hg (hears _ _ _ hh)).trans (by rw [told]), s.safegrpWrite_spec x p⟩
  · intro hr hb
    exact ⟨_, exec_haltTaken_halts hr hb, State.pair_setPair_same _ _ _, rfl⟩

end Sys2Proof.Machine
end

