-- ==== Sys2Proof/Proofs/WriteFields.lean ====
section
/-! PROOF. What a bus write leaves and stores in one field of its register, by the access codes (R6, Table 0.3). -/

namespace Sys2Proof.Machine

/-- A field whose write leaves the bits [hi:lo]: it takes no written bit, or lies apart from them. -/
def FieldDesc.spares (f : FieldDesc) (hi lo : Nat) : Bool :=
  decide (f.hi < 32) && (decide (f.acc = .ro ∨ f.acc = .wo ∨ f.acc = .rclr) || decide (hi < f.lo) || decide (f.hi < lo))

theorem getBits_writeField_spared {f : FieldDesc} {hi lo : Nat} (hh : hi < 32) (h : f.spares hi lo = true) (wlk : Bool) (came v w : Word) :
    getBits (writeField wlk came v w f) hi lo = getBits w hi lo := by
  simp only [FieldDesc.spares, Bool.and_eq_true, Bool.or_eq_true, decide_eq_true_eq] at h
  obtain ⟨hf, h⟩ := h
  refine Nat.eq_of_testBit_eq fun k => ?_
  rw [getBits_testBit, getBits_testBit]
  by_cases hk : k < hi + 1 - lo
  · rw [writeField_getLsbD _ _ _ _ _ _ hf (by omega)]
    obtain (h | h) | h := h
    · obtain h | h | h := h <;> simp only [h, ite_self]
    · rw [if_neg (by omega)]
    · rw [if_neg (by omega)]
  · simp only [hk, decide_false, Bool.false_and]

theorem getBits_writeField_rw {f : FieldDesc} (hf : f.hi < 32) (ha : f.acc = .rw) (wlk : Bool) (came v w : Word) :
    getBits (writeField wlk came v w f) f.hi f.lo = getBits v f.hi f.lo := by
  refine Nat.eq_of_testBit_eq fun k => ?_
  rw [getBits_testBit, getBits_testBit]
  by_cases hk : k < f.hi + 1 - f.lo
  · rw [writeField_getLsbD _ _ _ _ _ _ hf (by omega), if_pos (by omega), ha]
  · simp only [hk, decide_false, Bool.false_and]

theorem getBits_writeFields_spared {fs : List FieldDesc} {hi lo : Nat} (hh : hi < 32) (h : fs.all (·.spares hi lo) = true) (wlk : Bool)
    (came v w : Word) : getBits (fs.foldl (writeField wlk came v) w) hi lo = getBits w hi lo := by
  induction fs generalizing w with
  | nil => rfl
  | cons f fs ih =>
    simp only [List.all_cons, Bool.and_eq_true] at h
    rw [List.foldl_cons, ih h.2, getBits_writeField_spared hh h.1]

/-- A field that every field of its register spares keeps its value when the register is written. -/
theorem State.fld_writeReg_spared (s : State) {f : Fld} (h : f.hi < 32 ∧ f.reg.fields.all (·.spares f.hi f.lo) = true) (i j : Nat) (v : Word) :
    (s.writeReg f.reg i j v).fld f i j = s.fld f i j := by
  rw [State.fld, State.writeReg, State.reg_setReg_same]
  exact getBits_writeFields_spared h.1 h.2 _ _ _ _

/-- A field of access code RW takes the bits written. -/
theorem State.fld_writeReg_rw (s : State) {f : Fld} {r : Nat} (l m : List FieldDesc)
    (h : f.reg.fields = l ++ ⟨f.hi, f.lo, .rw, r⟩ :: m ∧ f.hi < 32 ∧ m.all (·.spares f.hi f.lo) = true) (i j : Nat) (v : Word) :
    (s.writeReg f.reg i j v).fld f i j = getBits v f.hi f.lo := by
  obtain ⟨hl, hf, hm⟩ := h
  rw [State.fld, State.writeReg, State.reg_setReg_same, hl, List.foldl_append, List.foldl_cons, getBits_writeFields_spared hf hm]
  exact getBits_writeField_rw (f := ⟨f.hi, f.lo, .rw, r⟩) hf rfl _ _ _ _

theorem State.reg_writeReg_ne (s : State) {r q : RegName} {i j k l : Nat} (v : Word) (h : q.addr k l ≠ r.addr i j) :
    (s.writeReg r i j v).reg q k l = s.reg q k l := State.reg_setReg_ne s _ h

theorem State.fld_writeReg_ne (s : State) {r : RegName} {f : Fld} {i j k l : Nat} (v : Word) (h : f.reg.addr k l ≠ r.addr i j) :
    (s.writeReg r i j v).fld f k l = s.fld f k l := by rw [State.fld, State.reg_writeReg_ne s v h, State.fld]

end Sys2Proof.Machine
end

