-- ==== Sys2Proof/Proofs/LoopMemory.lean ====
section
/-! PROOF. Parameter swaps and table copies of a loop engine (R211, R214). -/

namespace Sys2Proof.Machine

/-! ## Engines and pipelines -/

section
variable (s : State) (n : LeId)

theorem State.le_modLe_same (f : LeSt → LeSt) : (s.modLe n f).le[n] = f s.le[n] := vset_getElem_same _ _ _

theorem State.le_modLe_ne {m : LeId} (f : LeSt → LeSt) (h : m ≠ n) : (s.modLe n f).le[m] = s.le[m] := vset_getElem_ne _ _ h.symm

theorem State.lePipe_modPipe_same (p : Pipe) (f : LePipe → LePipe) : (s.modPipe n p f).lePipe n p = f (s.lePipe n p) :=
  (congrArg (fun e : LeSt => e.pipes[p.ix]) (s.le_modLe_same n _)).trans (vset_getElem_same _ _ _)

theorem State.lePipe_modPipe_ne {p q : Pipe} (f : LePipe → LePipe) (h : q.ix ≠ p.ix) : (s.modPipe n p f).lePipe n q = s.lePipe n q :=
  (congrArg (fun e : LeSt => e.pipes[q.ix]) (s.le_modLe_same n _)).trans (vset_getElem_ne _ _ h.symm)

theorem State.lePipe_of_le {t : State} (h : t.le = s.le) (p : Pipe) : t.lePipe n p = s.lePipe n p := by
  rw [State.lePipe, h]; rfl

@[simp] theorem State.leOwner_opened (m : Fin 13) : (s.opened m).leOwner n = s.leOwner n := by
  obtain ⟨u, c, h⟩ := s.opened_only m; rw [h]; rfl
end

/-- The pipeline of a place. -/
def Pipe.ofIx (i : Fin 5) : Pipe := #v[Pipe.cur, .vlt, .ftr, .prf, .obs][i]

theorem Pipe.ofIx_ix {p : Pipe} (h : p ≠ .gen) : Pipe.ofIx p.ix = p := by
  cases p with
  | gen => exact absurd rfl h
  | cur | vlt | ftr | prf | obs => rfl

/-- Pipelines share a place only where one is the general stage. -/
theorem Pipe.ix_injective {p q : Pipe} (hp : p ≠ .gen) (hq : q ≠ .gen) (h : q ≠ p) : q.ix ≠ p.ix := fun e =>
  h (by rw [← Pipe.ofIx_ix hq, e, Pipe.ofIx_ix hp])

/-! ## The writes that a swap takes back -/

/-- A swap takes bus writes back: memory and the count of them alone change. -/
def State.unwritten (n : LeId) (s t : State) : Prop :=
  (∃ mem regs hits, t = { s with mem := mem, regs := regs, hits := hits }) ∧
    ∀ q k l, q.addr k l ≠ RegName.LEn_ERR_CNT.addr n 0 → t.reg q k l = s.reg q k l

theorem State.leUnwrite_unwritten (s : State) (n : LeId) (b : Nat) : State.unwritten n s (s.leUnwrite n b) := by
  refine foldl_keeps (State.unwritten n s) (fun t x h => ?_) _ _ ⟨⟨_, _, _, rfl⟩, fun _ _ _ _ => rfl⟩
  split
  · obtain ⟨⟨_, _, _, rfl⟩, kept⟩ := h
    refine ⟨⟨_, _, _, by rw [State.writeLE_only_mem]; rfl⟩, fun q k l hq => ?_⟩
    refine (State.reg_setReg_ne _ _ hq).trans ?_
    rw [State.writeLE_only_mem]
    exact kept q k l hq
  · exact h

theorem State.unwritten.fld {n : LeId} {s t : State} (h : State.unwritten n s t) {f : Fld} {i j : Nat}
    (hf : f.reg.addr i j ≠ RegName.LEn_ERR_CNT.addr n 0) : t.fld f i j = s.fld f i j := by rw [State.fld, h.2 _ _ _ hf, State.fld]

theorem State.leUnwrite_none {s : State} {n : LeId} {b : Nat} (h : ∀ x ∈ s.le[n].wrote, x.1 ≠ s.now) : s.leUnwrite n b = s :=
  foldl_const fun x hx => if_neg fun hc => h x (List.mem_reverse.mp hx) hc.1

theorem State.leUnwrite_one {s : State} {n : LeId} {b at_ k w : Nat} (h : s.le[n].wrote = [(s.now, at_, k, w)])
    (hb : (at_ - leBase n) / 0x1000 = b) : s.leUnwrite n b = (s.writeLE at_ w k).bump F.LEn_ERR_CNT_ACTWR n 0 := by
  simp only [State.leUnwrite, h, List.reverse_singleton, List.foldl_cons, List.foldl_nil, hb, and_self, if_true]

/-! ## Sets of the lc of a swap -/

/-- A computed set keeps its place, its bank and its words. -/
theorem State.leCompute_keeps (s : State) (n : LeId) (p : Pipe) (j : LeJob) :
    (s.leCompute n p j).bank = j.bank ∧ (s.leCompute n p j).ins = j.ins := by
  cases p with
  | cur =>
    simp only [State.leCompute]
    split
    · exact ⟨rfl, rfl⟩
    · unfold State.curCompute
      dsimp only
      split <;> exact ⟨rfl, rfl⟩
  | vlt =>
    simp only [State.leCompute, State.vltCompute]
    split <;> exact ⟨rfl, rfl⟩
  | ftr => exact ⟨rfl, rfl⟩
  | prf =>
    simp only [State.leCompute, State.prfCompute]
    split
    · split <;> exact ⟨rfl, rfl⟩
    · exact ⟨rfl, rfl⟩
  | obs => exact ⟨rfl, rfl⟩
  | gen => exact ⟨rfl, rfl⟩

/-- A swap and one pipeline: a set accepted in this lc is computed anew with the new bank. -/
def State.leRecompute (n : LeId) (b : Nat) (plan : Bool) (s : State) (p : Pipe) : State :=
  match (s.lePipe n p).job with
  | some j =>
    if j.at_ = s.now then
      let isP := decide (p = .prf)
      let s' := s.modPipe n p fun x => { x with job := some (s.leCompute n p { j with bank := b, plan := j.plan || (isP && plan) }) }
      if isP then s'.modLe n fun e => { e with plan := false } else s'
    else s
  | none => s

theorem Pipe.mem_computed {p : Pipe} (h : p ≠ .gen) : p ∈ [Pipe.cur, .vlt, .ftr, .prf, .obs] := by
  cases p with
  | gen => exact absurd rfl h
  | cur | vlt | ftr | prf | obs => decide

/-- What a swap leaves of a pipeline's set `j`. -/
def LeJob.rebanked (now b : Nat) (j : LeJob) (x : Option LeJob) : Prop :=
  (j.at_ = now → ∃ j', x = some j' ∧ j'.bank = b ∧ j'.ins = j.ins) ∧ (j.at_ ≠ now → x = some j)

/-- Only engine `n` differs. -/
def State.onlyEngine (n : LeId) (s t : State) : Prop := ∃ e, t = { s with le := vset s.le n e }

theorem State.onlyEngine.refl (n : LeId) (s : State) : State.onlyEngine n s s := ⟨s.le[n], by rw [show vset s.le n s.le[n] = s.le from vset_self _ _]⟩

theorem State.onlyEngine.trans {n : LeId} {s t u : State} (h : State.onlyEngine n s t) (g : State.onlyEngine n t u) :
    State.onlyEngine n s u := by
  obtain ⟨e, rfl⟩ := h
  obtain ⟨e', rfl⟩ := g
  exact ⟨e', by simp only [vset_vset]⟩

theorem State.onlyEngine.le_ne {n m : LeId} {s t : State} (h : State.onlyEngine n s t) (hm : m ≠ n) : t.le[m] = s.le[m] := by
  obtain ⟨e, rfl⟩ := h
  exact vset_getElem_ne _ _ hm.symm

theorem State.onlyEngine.now {n : LeId} {s t : State} (h : State.onlyEngine n s t) : t.now = s.now := by
  obtain ⟨e, rfl⟩ := h; rfl

theorem State.leRecompute_spec (n : LeId) (b : Nat) (plan : Bool) (s : State) (p : Pipe) (hp : p ≠ .gen) :
    State.onlyEngine n s (s.leRecompute n b plan p) ∧
    (∀ q, q ≠ .gen → q ≠ p → (s.leRecompute n b plan p).lePipe n q = s.lePipe n q) ∧
    ∀ j, (s.lePipe n p).job = some j → j.rebanked s.now b ((s.leRecompute n b plan p).lePipe n p).job := by
  unfold State.leRecompute
  split
  next j hj =>
    split
    next hat =>
      let x : LePipe → LePipe := fun x => { x with
        job := some (s.leCompute n p { j with bank := b, plan := j.plan || (decide (p = .prf) && plan) }) }
      obtain ⟨hbank, hins⟩ := s.leCompute_keeps n p { j with bank := b, plan := j.plan || (decide (p = .prf) && plan) }
      have one : State.onlyEngine n s (s.modPipe n p x) := ⟨_, rfl⟩
      have others : ∀ q, q ≠ .gen → q ≠ p → (s.modPipe n p x).lePipe n q = s.lePipe n q := fun q hq hne =>
        s.lePipe_modPipe_ne n x (Pipe.ix_injective hp hq hne)
      have own : ((s.modPipe n p x).lePipe n p).job = (x (s.lePipe n p)).job := congrArg LePipe.job (s.lePipe_modPipe_same n p x)
      have spec : ∀ j', (s.lePipe n p).job = some j' → j'.rebanked s.now b ((s.modPipe n p x).lePipe n p).job := by
        intro j' hj'
        obtain rfl : j = j' := Option.some.inj (hj.symm.trans hj')
        exact ⟨fun _ => ⟨_, own, hbank, hins⟩, fun h => absurd hat h⟩
      have planned : ∀ q, ((s.modPipe n p x).modLe n fun e => { e with plan := false }).lePipe n q = (s.modPipe n p x).lePipe n q :=
        fun q => by unfold State.lePipe; rw [State.le_modLe_same]
      dsimp only
      split
      · exact ⟨one.trans ⟨_, rfl⟩, fun q hq hne => (planned q).trans (others q hq hne), by rw [planned]; exact spec⟩
      · exact ⟨one, others, spec⟩
    next hat =>
      refine ⟨.refl n s, fun _ _ _ => rfl, fun j' hj' => ?_⟩
      obtain rfl : j = j' := Option.some.inj (hj.symm.trans hj')
      exact ⟨fun h => absurd h hat, fun _ => hj⟩
  next hj => exact ⟨.refl n s, fun _ _ _ => rfl, fun j' hj' => nomatch hj.symm.trans hj'⟩

theorem State.leRecompute_fold (n : LeId) (b : Nat) (plan : Bool) (l : List Pipe) (s : State) (hl : l.Nodup) (hg : Pipe.gen ∉ l) :
    let t := l.foldl (State.leRecompute n b plan) s
    State.onlyEngine n s t ∧ (∀ q, q ≠ .gen → q ∉ l → t.lePipe n q = s.lePipe n q) ∧
    ∀ q ∈ l, ∀ j, (s.lePipe n q).job = some j → j.rebanked s.now b (t.lePipe n q).job := by
  induction l generalizing s with
  | nil => exact ⟨.refl n s, fun _ _ _ => rfl, fun q h => (nomatch h)⟩
  | cons p l ih =>
    obtain ⟨hp, hl⟩ := List.nodup_cons.mp hl
    obtain ⟨hpg, hg⟩ : Pipe.gen ≠ p ∧ Pipe.gen ∉ l := by simpa using hg
    obtain ⟨one, others, own⟩ := State.leRecompute_spec n b plan s p hpg.symm
    obtain ⟨ones, rest, owns⟩ := ih (s.leRecompute n b plan p) hl hg
    refine ⟨one.trans ones, fun q hq hn => ?_, fun q hq j hj => ?_⟩
    · obtain ⟨hne, hn⟩ : q ≠ p ∧ q ∉ l := by simpa using hn
      exact (rest q hq hn).trans (others q hq hne)
    · have hqg : q ≠ .gen := by
        obtain rfl | hq := List.mem_cons.mp hq
        · exact hpg.symm
        · exact fun h => hg (h ▸ hq)
      obtain rfl | hq := List.mem_cons.mp hq
      · rw [List.foldl_cons, rest q hqg hp]
        exact own j hj
      · have hne : q ≠ p := fun h => hp (h ▸ hq)
        have := owns q hq j (by rw [others q hqg hne]; exact hj)
        rwa [one.now] at this

/-! ## A swap -/

/-- A swap's bank, count and plan. -/
def State.leBanked (s : State) (n : LeId) (b : Nat) : State :=
  let t := (s.setFld F.LEn_STAT_BANK n 0 b).count F.LEn_PARAM_SWAP_COUNT n 0
  t.modLe n fun e => { e with plan := e.plan || t.planDiffers n }

/-- A swap before the sets of its lc are computed anew. -/
def State.leRebank (s : State) (n : LeId) : State :=
  ((s.mark (RegName.LEn_PARAM_SWAP.addr n 0) false).leUnwrite n (1 - s.fld F.LEn_STAT_BANK n 0)).leBanked n (1 - s.fld F.LEn_STAT_BANK n 0)

theorem State.leSwap_first {s : State} {n : LeId} (h : s.marked (RegName.LEn_PARAM_SWAP.addr n 0) false = false) :
    ∃ plan, s.leSwap n = [Pipe.cur, .vlt, .ftr, .prf, .obs].foldl (State.leRecompute n (1 - s.fld F.LEn_STAT_BANK n 0) plan) (s.leRebank n) :=
  ⟨_, by rw [State.leSwap]; exact if_neg (by simp [h])⟩

theorem State.leSwap_again {s : State} {n : LeId} (h : s.marked (RegName.LEn_PARAM_SWAP.addr n 0) false = true) : s.leSwap n = s := if_pos h

theorem leStat_ne_errCnt (m n : LeId) : RegName.LEn_STAT.addr m 0 ≠ RegName.LEn_ERR_CNT.addr n 0 := by
  simp only [RegName.addr, RegName.base, RegName.dims]; omega
theorem swapCount_ne_errCnt (m n : LeId) : RegName.LEn_PARAM_SWAP.addr m 0 ≠ RegName.LEn_ERR_CNT.addr n 0 := by
  simp only [RegName.addr, RegName.base, RegName.dims]; omega
theorem leStat_ne_swapCount (m n : LeId) : RegName.LEn_STAT.addr m 0 ≠ RegName.LEn_PARAM_SWAP.addr n 0 := by
  simp only [RegName.addr, RegName.base, RegName.dims]; omega
theorem errCnt_ne_leStat (m n : LeId) : RegName.LEn_ERR_CNT.addr m 0 ≠ RegName.LEn_STAT.addr n 0 := (leStat_ne_errCnt n m).symm
theorem leStat_ne_leStat {m n : LeId} (h : m ≠ n) : RegName.LEn_STAT.addr m 0 ≠ RegName.LEn_STAT.addr n 0 := by
  have := Fin.val_ne_of_ne h
  simp only [RegName.addr, RegName.base, RegName.dims]; omega

theorem State.leBanked_spec (u : State) (n : LeId) (b : Nat) :
    (u.leBanked n b).fld F.LEn_STAT_BANK n 0 = b % 2 ∧
    (u.leBanked n b).fld F.LEn_ERR_CNT_ACTWR n 0 = u.fld F.LEn_ERR_CNT_ACTWR n 0 ∧
    (u.leBanked n b).fld F.LEn_PARAM_SWAP_COUNT n 0 = (u.fld F.LEn_PARAM_SWAP_COUNT n 0 + 1) % 2 ^ 16 ∧
    (∀ m : LeId, m ≠ n → (u.leBanked n b).le[m] = u.le[m] ∧ (u.leBanked n b).reg .LEn_STAT m 0 = u.reg .LEn_STAT m 0) ∧
    ∀ p, (u.leBanked n b).lePipe n p = u.lePipe n p := by
  have regs : (u.leBanked n b).regs = ((u.setFld F.LEn_STAT_BANK n 0 b).count F.LEn_PARAM_SWAP_COUNT n 0).regs := rfl
  have fld := State.fld_of_regs regs
  refine ⟨?_, ?_, ?_, fun m hm => ⟨?_, ?_⟩, fun p => ?_⟩
  · rw [fld, State.count, State.fld_setFld_ne _ _ (leStat_ne_swapCount n n)]
    exact State.fld_setFld_same u F.LEn_STAT_BANK n 0 b (by decide)
  · rw [fld, State.count, State.fld_setFld_ne _ _ (swapCount_ne_errCnt n n).symm, State.fld_setFld_ne _ _ (errCnt_ne_leStat n n)]
  · rw [fld, State.count, State.fld_setFld_same _ F.LEn_PARAM_SWAP_COUNT n 0 _ (by decide),
      State.fld_setFld_ne u (f := F.LEn_STAT_BANK) (g := F.LEn_PARAM_SWAP_COUNT) b (leStat_ne_swapCount n n).symm]
    rfl
  · exact State.le_modLe_ne _ n _ hm
  · rw [State.reg, regs]
    exact (State.reg_setReg_ne _ _ (leStat_ne_swapCount m n)).trans (State.reg_setReg_ne _ _ (leStat_ne_leStat hm))
  · unfold State.leBanked State.lePipe
    dsimp only
    rw [State.le_modLe_same]
    rfl

/-- What the bank's change leaves and does. -/
theorem State.leRebank_spec (s : State) (n : LeId) :
    (s.leRebank n).fld F.LEn_STAT_BANK n 0 = (1 - s.fld F.LEn_STAT_BANK n 0) % 2 ∧
    (s.leRebank n).marks = (RegName.LEn_PARAM_SWAP.addr n 0, false) :: s.marks ∧
    (s.leRebank n).mem = ((s.mark (RegName.LEn_PARAM_SWAP.addr n 0) false).leUnwrite n (1 - s.fld F.LEn_STAT_BANK n 0)).mem ∧
    (s.leRebank n).now = s.now ∧ (s.leRebank n).fld F.LEn_ERR_CNT_ACTWR n 0 =
      ((s.mark (RegName.LEn_PARAM_SWAP.addr n 0) false).leUnwrite n (1 - s.fld F.LEn_STAT_BANK n 0)).fld F.LEn_ERR_CNT_ACTWR n 0 ∧
    (s.leRebank n).fld F.LEn_PARAM_SWAP_COUNT n 0 = (s.fld F.LEn_PARAM_SWAP_COUNT n 0 + 1) % 2 ^ 16 ∧
    (∀ m : LeId, m ≠ n → (s.leRebank n).le[m] = s.le[m] ∧ (s.leRebank n).reg .LEn_STAT m 0 = s.reg .LEn_STAT m 0) ∧
    ∀ p, (s.leRebank n).lePipe n p = s.lePipe n p := by
  have taken := State.leUnwrite_unwritten (s.mark (RegName.LEn_PARAM_SWAP.addr n 0) false) n (1 - s.fld F.LEn_STAT_BANK n 0)
  unfold State.leRebank
  obtain ⟨u, hu⟩ : ∃ u, u = (s.mark (RegName.LEn_PARAM_SWAP.addr n 0) false).leUnwrite n (1 - s.fld F.LEn_STAT_BANK n 0) := ⟨_, rfl⟩
  rw [← hu] at taken ⊢
  obtain ⟨bank, actwr, count, others, pipes⟩ := u.leBanked_spec n (1 - s.fld F.LEn_STAT_BANK n 0)
  have counted := taken.fld (f := F.LEn_PARAM_SWAP_COUNT) (swapCount_ne_errCnt n n)
  obtain ⟨⟨mem, regs, hits, form⟩, kept⟩ := taken
  have marks : u.marks = (RegName.LEn_PARAM_SWAP.addr n 0, false) :: s.marks := by rw [form]; rfl
  have now : u.now = s.now := by rw [form]; rfl
  have le : u.le = s.le := by rw [form]; rfl
  refine ⟨bank, marks, rfl, now, actwr, ?_, fun m hm => ⟨?_, ?_⟩, fun p => (pipes p).trans (State.lePipe_of_le s n le p)⟩
  · rw [count, counted]; rfl
  · rw [(others m hm).1, le]
  · rw [(others m hm).2]; exact kept _ _ _ (leStat_ne_errCnt m n)

/-- What a first swap of its lc does. -/
def State.swappedTo (s : State) (n : LeId) (t : State) : Prop :=
  t.flag F.LEn_STAT_BANK n 0 = (!s.flag F.LEn_STAT_BANK n 0) ∧ t.leSwap n = t ∧
  ((∀ x ∈ s.le[n].wrote, x.1 ≠ s.now) → t.mem = s.mem) ∧
  (∀ at_ k w, s.le[n].wrote = [(s.now, at_, k, w)] → (at_ - leBase n) / 0x1000 = 1 - s.fld F.LEn_STAT_BANK n 0 → w < 256 ^ k →
    t.readLE at_ k = w ∧ t.fld F.LEn_ERR_CNT_ACTWR n 0 = min F.LEn_ERR_CNT_ACTWR.max (s.fld F.LEn_ERR_CNT_ACTWR n 0 + 1)) ∧
  t.fld F.LEn_PARAM_SWAP_COUNT n 0 = (s.fld F.LEn_PARAM_SWAP_COUNT n 0 + 1) % 2 ^ 16 ∧
  (∀ m : LeId, m ≠ n → t.le[m] = s.le[m] ∧ t.reg .LEn_STAT m 0 = s.reg .LEn_STAT m 0) ∧
  ∀ p : Pipe, p ≠ .gen → ∀ j, (s.lePipe n p).job = some j → j.rebanked s.now (1 - s.fld F.LEn_STAT_BANK n 0) (t.lePipe n p).job

theorem State.readLE_of_mem {s t : State} (h : t.mem = s.mem) (a n : Nat) : t.readLE a n = s.readLE a n := by
  induction n generalizing a with
  | zero => rfl
  | succ n ih => rw [State.readLE, State.readLE, ih, State.byte_of_mem h]

theorem State.leSwap_swapped {s : State} {n : LeId} (h : s.marked (RegName.LEn_PARAM_SWAP.addr n 0) false = false) :
    s.swappedTo n (s.leSwap n) := by
  obtain ⟨plan, hswap⟩ := State.leSwap_first h
  obtain ⟨one, -, own⟩ := State.leRecompute_fold n (1 - s.fld F.LEn_STAT_BANK n 0) plan [Pipe.cur, .vlt, .ftr, .prf, .obs] (s.leRebank n)
    (by decide) (by decide)
  obtain ⟨bank, marks, mem, now, actwr, count, others, pipes⟩ := s.leRebank_spec n
  rw [← hswap] at one own
  have regs : (s.leSwap n).regs = (s.leRebank n).regs := by obtain ⟨e, he⟩ := one; rw [he]
  have memory : (s.leSwap n).mem = (s.leRebank n).mem := by obtain ⟨e, he⟩ := one; rw [he]
  have marked : (s.leSwap n).marks = (s.leRebank n).marks := by obtain ⟨e, he⟩ := one; rw [he]
  have small : s.fld F.LEn_STAT_BANK n 0 < 2 := getBits_lt _ _ _
  refine ⟨?_, State.leSwap_again ?_, fun hw => ?_, fun at_ k w hw hb hk => ⟨?_, ?_⟩, ?_, fun m hm => ⟨?_, ?_⟩, fun p hp j hj => ?_⟩
  · rw [State.flag, State.flag, State.fld_of_regs regs, bank]
    interval_cases s.fld F.LEn_STAT_BANK n 0 <;> rfl
  · rw [State.marked, marked, marks]
    exact List.contains_iff_mem.mpr (List.mem_cons_self ..)
  · rw [memory, mem, State.leUnwrite_none (s := s.mark _ _) hw]; rfl
  · rw [State.readLE_of_mem memory, State.readLE_of_mem mem, State.leUnwrite_one (s := s.mark _ _) hw hb]
    refine (State.readLE_of_mem (s := (s.mark (RegName.LEn_PARAM_SWAP.addr n 0) false).writeLE at_ w k)
      (t := ((s.mark (RegName.LEn_PARAM_SWAP.addr n 0) false).writeLE at_ w k).bump F.LEn_ERR_CNT_ACTWR n 0) rfl at_ k).trans ?_
    exact (State.readLE_writeLE_same _ _ _ _).trans (Nat.mod_eq_of_lt hk)
  · rw [State.fld_of_regs regs, actwr, State.leUnwrite_one (s := s.mark _ _) hw hb, State.fld_bump_same _ F.LEn_ERR_CNT_ACTWR n 0 (by decide),
      State.writeLE_only_mem]
    rfl
  · rw [State.fld_of_regs regs, count]
  · exact (one.le_ne hm).trans (others m hm).1
  · rw [State.reg, regs]; exact (others m hm).2
  · have := own p (Pipe.mem_computed hp) j (by rw [pipes]; exact hj)
    rwa [now] at this

/-! ## Table copies -/

/-- A write to an engine's register acts where the requester owns the engine, and counts as foreign elsewhere. -/
theorem regCmd_leOwned {s : State} {r : Req} {rn : RegName} {i j : Nat} (h : s.admits r .write rn i j) (n : LeId) (f : State → State) :
    regCmd r .write rn i j (fun s => s.leOwned r n f) s = .next (if r.owns (s.leOwner n) then f (s.opened r.master)
      else (s.opened r.master).bump F.PTU_FOREIGN_CNT_COUNT 0 0) := by
  rw [regCmd_admitted h, State.leOwned, State.leOwner_opened]
  rfl

theorem tblPlace_iff (src dst len : Nat) : tblPlace src dst len = true ↔
    0x10000000 ≤ src ∧ src + 4 * len ≤ 0x12000000 ∧ src < 0x12000000 ∧ 0x7800 ≤ dst ∧ dst + 4 * len ≤ 0x70000 := by
  simp only [tblPlace, inFlash, Bool.and_eq_true, decide_eq_true_eq]
  omega

/-- GO to an idle table port of an engine, in a live mode. -/
theorem State.tblWrite_go {s : State} {n : LeId} {v : Word} (live : s.mode.live = true) (idle : s.flag F.LEn_TBL_CTL_BUSY n 0 = false)
    (go : v.getLsbD 16 = true) :
    let src := (s.reg .LEn_TBL_SRC n 0).toNat / 32 * 32
    let dst := s.fld F.LEn_TBL_DST_DST n 0 / 32 * 32
    let len := v.toNat % 65536
    (tblPlace src dst len = true → s.tblWrite n v = ((((s.writeReg .LEn_TBL_CTL n 0 v).setFld F.LEn_TBL_CTL_BUSY n 0 1).modLe n fun e =>
      { e with copy := some (src, dst, len) }).sched (Config.copyTime s.fresh + 1) (.tableCopyDone n)).draw) ∧
    (tblPlace src dst len = false → s.tblWrite n v = (s.writeReg .LEn_TBL_CTL n 0 v).raiseFld F.LEn_TBL_CTL_ERR n 0 1) := by
  intro src dst len
  have mode : (s.writeReg .LEn_TBL_CTL n 0 v).mode = s.mode := State.mode_congr (State.reg_writeReg_ne s v (by
    simp only [RegName.addr, RegName.base, RegName.dims]; omega)) rfl rfl
  have hsrc : (s.writeReg .LEn_TBL_CTL n 0 v).reg .LEn_TBL_SRC n 0 = s.reg .LEn_TBL_SRC n 0 := State.reg_writeReg_ne s v (by
    simp only [RegName.addr, RegName.base, RegName.dims]; omega)
  have hdst : (s.writeReg .LEn_TBL_CTL n 0 v).fld F.LEn_TBL_DST_DST n 0 = s.fld F.LEn_TBL_DST_DST n 0 := State.fld_writeReg_ne s v (by
    simp only [F.LEn_TBL_DST_DST, RegName.addr, RegName.base, RegName.dims]; omega)
  have hlen : getBits v 15 0 = len := by simp [getBits, len]
  have form : s.tblWrite n v = if !tblPlace src dst len then (s.writeReg .LEn_TBL_CTL n 0 v).raiseFld F.LEn_TBL_CTL_ERR n 0 1
      else ((((s.writeReg .LEn_TBL_CTL n 0 v).setFld F.LEn_TBL_CTL_BUSY n 0 1).modLe n fun e =>
        { e with copy := some (src, dst, len) }).sched (Config.copyTime s.fresh + 1) (.tableCopyDone n)).draw := by
    simp only [State.tblWrite, idle, Bool.false_eq_true, if_false, go, mode, live, Bool.not_true, Bool.or_self, hsrc, hdst, hlen]
    rfl
  exact ⟨fun h => by rw [form, h]; rfl, fun h => by rw [form, h]; rfl⟩

/-- Settles O40: a swap is the bank's change and the sets of its lc computed anew; a copy by its place. -/
theorem swapsAndTableCopies : Obligations.SwapsAndTableCopies := by
  unfold Obligations.SwapsAndTableCopies
  intro s r n v live a key own swapped
  have swaps : ∀ t, s.swappedTo n t → swapped t := fun t h => h
  have marks : a.marked key false = s.marked key false := State.opened_congr (·.marked key false) (fun _ _ _ _ => rfl) s r.master
  have swapsOpened : ∀ t, a.swappedTo n t → s.swappedTo n t := by
    obtain ⟨u, c, ha⟩ := s.opened_only r.master
    intro t h
    rw [show a = _ from ha] at h
    exact h
  have amode : a.mode.live = true := by rw [show a.mode = s.mode from State.mode_opened s r.master]; exact live
  have event : exec (.lnSwapEvent n) s = .next (s.leSwap n) := congrArg Host.Outcome.next (if_pos live)
  refine ⟨fun hm => ⟨_, event, swaps _ (State.leSwap_swapped hm)⟩, fun hm => by rw [event, State.leSwap_again hm], fun ha => ⟨fun ho hm => ?_,
    fun ho hm => ?_, fun ho => ?_⟩, fun ha ho hidle hgo => ?_, fun src dst len hcopy => ?_⟩
  · refine ⟨a.leSwap n, ?_, swaps _ (swapsOpened _ (State.leSwap_swapped (marks.trans hm)))⟩
    exact (regCmd_leOwned ha n fun s => s.leSwap n).trans (by rw [if_pos ho])
  · exact (regCmd_leOwned ha n fun s => s.leSwap n).trans (by rw [if_pos ho, State.leSwap_again (marks.trans hm)])
  · exact (regCmd_leOwned ha n fun s => s.leSwap n).trans (by rw [if_neg ho])
  · intro src dst len fits
    have idle : a.flag F.LEn_TBL_CTL_BUSY n 0 = false :=
      (State.opened_congr (·.flag F.LEn_TBL_CTL_BUSY n 0) (fun _ _ _ _ => rfl) s r.master).trans hidle
    have hsrc : a.reg .LEn_TBL_SRC n 0 = s.reg .LEn_TBL_SRC n 0 :=
      State.opened_congr (·.reg .LEn_TBL_SRC n 0) (fun _ _ _ _ => rfl) s r.master
    have hdst : a.fld F.LEn_TBL_DST_DST n 0 = s.fld F.LEn_TBL_DST_DST n 0 :=
      State.opened_congr (·.fld F.LEn_TBL_DST_DST n 0) (fun _ _ _ _ => rfl) s r.master
    have mem : a.mem = s.mem := State.opened_congr State.mem (fun _ _ _ _ => rfl) s r.master
    have cal : a.cal = s.cal := State.opened_congr State.cal (fun _ _ _ _ => rfl) s r.master
    have now : a.now = s.now := State.opened_congr State.now (fun _ _ _ _ => rfl) s r.master
    obtain ⟨starts, refused⟩ := State.tblWrite_go (n := n) (v := v) amode idle hgo
    rw [hsrc, hdst] at starts refused
    have told : exec (.tableCopyGo r n v) s = .next (a.tblWrite n v) :=
      (regCmd_leOwned ha n fun s => s.tblWrite n v).trans (by rw [if_pos ho])
    have place := tblPlace_iff src dst len
    cases hp : tblPlace src dst len with
    | true =>
      refine ⟨_, told, ?_, fun _ => ⟨?_, ?_, Config.copyTime a.fresh, ?_⟩, fun hf => absurd (place.mp hp) hf⟩ <;> rw [starts hp]
      · exact mem
      · have := State.fld_setFld_same (a.writeReg .LEn_TBL_CTL n 0 v) F.LEn_TBL_CTL_BUSY n 0 1 (by decide)
        exact congrArg (· != 0) this
      · exact congrArg LeSt.copy (State.le_modLe_same _ n _)
      · rw [Nat.add_assoc, Nat.add_comm 1]
        exact State.mem_sched (t := s.now) now _ _
    | false =>
      have bad : ¬fits := fun hf => by simp [place.mpr hf] at hp
      refine ⟨_, told, ?_, fun hf => absurd hf bad, fun _ => ⟨?_, ?_, ?_⟩⟩ <;> rw [refused hp]
      · exact mem
      · have apart := State.fld_setFld_apart (f := F.LEn_TBL_CTL_ERR) (g := F.LEn_TBL_CTL_BUSY) (a.writeReg .LEn_TBL_CTL n 0 v) (i := n) (j := 0) 1
          rfl (by decide) (by decide) (by decide)
        have kept := a.fld_writeReg_spared (f := F.LEn_TBL_CTL_BUSY) (by decide) n 0 v
        exact (congrArg (· != 0) (apart.trans kept)).trans idle
      · have := State.fld_setFld_same (a.writeReg .LEn_TBL_CTL n 0 v) F.LEn_TBL_CTL_ERR n 0 1 (by decide)
        exact congrArg (· != 0) this
      · exact cal
  · intro u
    have done : exec (.tableCopyDone n) s = match u.tblLines n src ((len + 7) / 8) with
        | (some bs, s) => Host.Outcome.next (s.setBytes (leBase n + dst) (bs.take (4 * len)))
        | (none, s) => .next (s.raiseFld F.LEn_TBL_CTL_ERR n 0 1) := by
      change execTableCopyDone n s = _
      rw [execTableCopyDone, hcopy] <;> rfl
    rw [done]
    obtain ⟨o, w⟩ := u.tblLines n src ((len + 7) / 8)
    cases o with
    | none =>
      refine ⟨_, rfl, fun bs w' h => (nomatch h), fun w' h => ?_⟩
      cases h; rfl
    | some bs =>
      refine ⟨_, rfl, fun bs' w' h => ?_, fun w' h => (nomatch h)⟩
      cases h; rfl

end Sys2Proof.Machine
end

