-- ==== Sys2Proof/Proofs/Timers.lean ====
section
/-! PROOF. Timers: starts and stops of one lc, countdowns, matches, captures, pins (R139 to R149). -/

namespace Sys2Proof.Machine

/-! ## Addresses -/

theorem tmrVal_ne_reload (n : TmrId) (c : Fin 4) : RegName.TMn_CHc_VAL.addr n c ≠ RegName.TMn_RELOAD.addr n 0 := by
  simp only [RegName.addr, RegName.base, RegName.dims]; omega
theorem tmrStat_ne_val (n : TmrId) (c : Fin 4) : RegName.TMn_STAT.addr n 0 ≠ RegName.TMn_CHc_VAL.addr n c := by
  simp only [RegName.addr, RegName.base, RegName.dims]; omega
theorem tmrStat_ne_fine (n : TmrId) (c : Fin 4) : RegName.TMn_STAT.addr n 0 ≠ RegName.TMn_CHc_FINE.addr n c := by
  simp only [RegName.addr, RegName.base, RegName.dims]; omega
theorem tmrVal_ne_fine (n : TmrId) (c : Fin 4) : RegName.TMn_CHc_VAL.addr n c ≠ RegName.TMn_CHc_FINE.addr n c := by
  simp only [RegName.addr, RegName.base, RegName.dims]; omega
theorem tmrStat_ne_errCnt (n : TmrId) : RegName.TMn_STAT.addr n 0 ≠ RegName.TMn_ERR_CNT.addr n 0 := by
  simp only [RegName.addr, RegName.base, RegName.dims]; omega
theorem tmrVal_ne_val {n : TmrId} {c k : Fin 4} (h : c ≠ k) : RegName.TMn_CHc_VAL.addr n c ≠ RegName.TMn_CHc_VAL.addr n k := by
  have := Fin.val_ne_of_ne h
  simp only [RegName.addr, RegName.base, RegName.dims]; omega
theorem tmrErrCnt_ne_val (n : TmrId) (c : Fin 4) : RegName.TMn_ERR_CNT.addr n 0 ≠ RegName.TMn_CHc_VAL.addr n c := by
  simp only [RegName.addr, RegName.base, RegName.dims]; omega
theorem tmrErrCnt_ne_fine (n : TmrId) (c : Fin 4) : RegName.TMn_ERR_CNT.addr n 0 ≠ RegName.TMn_CHc_FINE.addr n c := by
  simp only [RegName.addr, RegName.base, RegName.dims]; omega
theorem tmrCfg_ne_stat (n : TmrId) (c : Fin 4) : RegName.TMn_CHc_CFG.addr n c ≠ RegName.TMn_STAT.addr n 0 := by
  simp only [RegName.addr, RegName.base, RegName.dims]; omega
theorem tmrCfg_ne_errCnt (n : TmrId) (c : Fin 4) : RegName.TMn_CHc_CFG.addr n c ≠ RegName.TMn_ERR_CNT.addr n 0 := by
  simp only [RegName.addr, RegName.base, RegName.dims]; omega
theorem clkStat_ne_tmr (n : TmrId) : RegName.SYS_CLK_STAT.addr 0 0 ≠ RegName.TMn_CTRL.addr n 0 := by
  simp only [RegName.addr, RegName.base, RegName.dims]; omega

/-! ## The state of a timer -/

section
variable (s : State) (n : TmrId)

theorem State.tmr_modTmr_same (f : TmrSt → TmrSt) : (s.modTmr n f).tmr[n] = f s.tmr[n] := vset_getElem_same _ _ _

theorem State.tmr_modTmr_ne {m : TmrId} (f : TmrSt → TmrSt) (h : m ≠ n) : (s.modTmr n f).tmr[m] = s.tmr[m] := vset_getElem_ne _ _ h.symm

/-- Matches put on the calendar change the calendar alone. -/
theorem State.tmrDue_only (c : Fin 4) : ∃ x, s.tmrDue n c = { s with cal := x } := by
  unfold State.tmrDue
  split
  · exact ⟨_, rfl⟩
  · exact ⟨_, rfl⟩

/-- The matches of a timer's channels go on the calendar. -/
def State.tmrDues : State := (List.finRange 4).foldl (fun s c => s.tmrDue n c) s

theorem State.tmrDues_only : ∃ x, s.tmrDues n = { s with cal := x } := by
  refine foldl_keeps (fun t => ∃ x, t = { s with cal := x }) (fun t c h => ?_) _ _ ⟨s.cal, rfl⟩
  obtain ⟨x, rfl⟩ := h
  obtain ⟨y, hy⟩ := State.tmrDue_only { s with cal := x } n c
  exact ⟨y, hy⟩

/-- Captures of this lc take the count anew: their values alone change. -/
def State.recapped (s : State) (n : TmrId) (t : State) : Prop :=
  (∃ x, t = { s with regs := x }) ∧ ∀ q k l, (∀ c : Fin 4, q.addr k l ≠ RegName.TMn_CHc_VAL.addr n c) → t.reg q k l = s.reg q k l

theorem State.recapped.refl : s.recapped n s := ⟨⟨s.regs, rfl⟩, fun _ _ _ _ => rfl⟩

theorem State.recapped.setVal {s t : State} {n : TmrId} (h : s.recapped n t) (c : Fin 4) (v : Word) :
    s.recapped n (t.setReg .TMn_CHc_VAL n c v) := by
  obtain ⟨⟨x, rfl⟩, kept⟩ := h
  exact ⟨⟨_, rfl⟩, fun q k l hq => (State.reg_setReg_ne _ _ (hq c)).trans (kept q k l hq)⟩

theorem State.recapped.fld {s t : State} {n : TmrId} (h : s.recapped n t) {f : Fld} {i j : Nat}
    (hf : ∀ c : Fin 4, f.reg.addr i j ≠ RegName.TMn_CHc_VAL.addr n c) : t.fld f i j = s.fld f i j := by
  rw [State.fld, h.2 _ _ _ hf, State.fld]

theorem State.recapped.count {s t : State} {n : TmrId} (h : s.recapped n t) : t.tmrCount n = s.tmrCount n := by
  have run : t.flag F.TMn_STAT_RUN n 0 = s.flag F.TMn_STAT_RUN n 0 := congrArg (· != 0) (h.fld fun c => tmrStat_ne_val n c)
  obtain ⟨⟨x, hx⟩, -⟩ := h
  have tmr : t.tmr = s.tmr := by rw [hx]
  have now : t.now = s.now := by rw [hx]
  simp only [State.tmrCount, run, tmr, now]

theorem State.recapped.marked {s t : State} {n : TmrId} (h : s.recapped n t) (a : Nat) (b : Bool) : t.marked a b = s.marked a b := by
  obtain ⟨⟨x, rfl⟩, -⟩ := h; rfl

/-- One channel of a capture of this lc. -/
def State.tmrRecapOne (s : State) (c : Fin 4) : State :=
  if s.marked (RegName.TMn_CHc_FINE.addr n c) true then s.setReg .TMn_CHc_VAL n c (BitVec.ofNat 32 (s.tmrCount n)) else s

theorem State.tmrRecapOne_recapped (c : Fin 4) : s.recapped n (State.tmrRecapOne n s c) := by
  unfold State.tmrRecapOne
  split
  · exact (State.recapped.refl s n).setVal c _
  · exact .refl s n

theorem State.tmrRecap_fold (l : List (Fin 4)) (hl : l.Nodup) :
    s.recapped n (l.foldl (State.tmrRecapOne n) s) ∧
    (∀ c, c ∉ l → (l.foldl (State.tmrRecapOne n) s).reg .TMn_CHc_VAL n c = s.reg .TMn_CHc_VAL n c) ∧
    ∀ c ∈ l, s.marked (RegName.TMn_CHc_FINE.addr n c) true = true →
      (l.foldl (State.tmrRecapOne n) s).reg .TMn_CHc_VAL n c = BitVec.ofNat 32 (s.tmrCount n) := by
  induction l generalizing s with
  | nil => exact ⟨.refl s n, fun _ _ => rfl, fun c h => (nomatch h)⟩
  | cons k l ih =>
    obtain ⟨hk, hl⟩ := List.nodup_cons.mp hl
    obtain ⟨rest, others, own⟩ := ih (State.tmrRecapOne n s k) hl
    have one := s.tmrRecapOne_recapped n k
    have apart : ∀ c, c ≠ k → (State.tmrRecapOne n s k).reg .TMn_CHc_VAL n c = s.reg .TMn_CHc_VAL n c := by
      intro c hc
      unfold State.tmrRecapOne
      split
      · exact State.reg_setReg_ne _ _ (tmrVal_ne_val hc)
      · rfl
    refine ⟨?_, fun c hc => ?_, fun c hc hm => ?_⟩
    · obtain ⟨⟨x, hx⟩, kept⟩ := rest
      obtain ⟨⟨y, hy⟩, kept'⟩ := one
      exact ⟨⟨x, by rw [List.foldl_cons, hx, hy]⟩, fun q i j hq => (kept q i j hq).trans (kept' q i j hq)⟩
    · obtain ⟨hne, hc⟩ : c ≠ k ∧ c ∉ l := by simpa using hc
      exact (others c hc).trans (apart c hne)
    · obtain rfl | hc := List.mem_cons.mp hc
      · rw [List.foldl_cons, others c hk, State.tmrRecapOne, if_pos hm]
        exact State.reg_setReg_same _ _ _ _ _
      · exact (own c hc ((one.marked _ _).trans hm)).trans (by rw [one.count])

theorem State.tmrRecap_recapped : s.recapped n (s.tmrRecap n) := (s.tmrRecap_fold n _ (List.nodup_finRange 4)).1

theorem State.tmrRecap_val (c : Fin 4) (h : s.marked (RegName.TMn_CHc_FINE.addr n c) true = true) :
    (s.tmrRecap n).reg .TMn_CHc_VAL n c = BitVec.ofNat 32 (s.tmrCount n) :=
  (s.tmrRecap_fold n _ (List.nodup_finRange 4)).2.2 c (List.mem_finRange c) h

/-! ## Loads, stops and what a stop takes back -/

/-- A timer whose countdown has begun. -/
def TmrSt.armed (t : TmrSt) (z pre : Nat) : TmrSt := { t with zeroAt := z, pre := pre, zdone := false }

/-- A timer whose start is taken back. -/
def TmrSt.restored (t : TmrSt) (w : TmrWas) : TmrSt := { t with zeroAt := w.zeroAt, pre := w.pre, zdone := w.zdone, was := none }

/-- The lc in which the count of a countdown that begins now comes to 0. -/
def State.tmrZeroAt : Nat := s.now + (s.reg .TMn_RELOAD n 0).toNat * 2 ^ s.fld F.TMn_CTRL_PRE n 0

/-- A countdown's beginning, before its matches and its zero go on the calendar. -/
def State.tmrArmed : State :=
  ((s.modTmr n (·.armed (s.tmrZeroAt n) (s.fld F.TMn_CTRL_PRE n 0))).setFld F.TMn_STAT_RUN n 0 1).setFld F.TMn_STAT_FIRED n 0 0

theorem State.tmrLoad_eq : s.tmrLoad n = (((s.tmrArmed n).tmrDues n).schedAt (s.tmrZeroAt n) (.timerZero n)).tmrRecap n := rfl

theorem State.tmrArmed_run : (s.tmrArmed n).flag F.TMn_STAT_RUN n 0 = true := by
  have apart := State.fld_setFld_apart (f := F.TMn_STAT_FIRED) (g := F.TMn_STAT_RUN)
    ((s.modTmr n (·.armed (s.tmrZeroAt n) (s.fld F.TMn_CTRL_PRE n 0))).setFld F.TMn_STAT_RUN n 0 1) (i := n) (j := 0) 0 rfl
    (by decide) (by decide) (by decide)
  exact congrArg (· != 0) (apart.trans (State.fld_setFld_same _ F.TMn_STAT_RUN n 0 1 (by decide)))

theorem State.tmrArmed_fired : (s.tmrArmed n).fld F.TMn_STAT_FIRED n 0 = 0 :=
  State.fld_setFld_same _ F.TMn_STAT_FIRED n 0 0 (by decide)

theorem State.tmrArmed_tmr : (s.tmrArmed n).tmr[n] = s.tmr[n].armed (s.tmrZeroAt n) (s.fld F.TMn_CTRL_PRE n 0) :=
  State.tmr_modTmr_same s n _

theorem State.tmrArmed_tmr_ne {m : TmrId} (h : m ≠ n) : (s.tmrArmed n).tmr[m] = s.tmr[m] := State.tmr_modTmr_ne s n _ h

/-- Steps left to a count of whole steps, rounded up. -/
theorem steps_left (r d p : Nat) : (r * 2 ^ p - d + 2 ^ p - 1) / 2 ^ p = r - d / 2 ^ p := by
  have hp : 0 < 2 ^ p := by positivity
  obtain ⟨q, e, he, hd⟩ : ∃ q e, e < 2 ^ p ∧ d = q * 2 ^ p + e := ⟨d / 2 ^ p, d % 2 ^ p, Nat.mod_lt _ hp, by
    rw [Nat.mul_comm]; exact (Nat.div_add_mod d _).symm⟩
  have quotient : d / 2 ^ p = q := by rw [hd, Nat.add_comm, Nat.add_mul_div_right _ _ hp, Nat.div_eq_of_lt he, Nat.zero_add]
  rw [quotient]
  obtain hr | hr := Nat.le_total r q
  · have : r * 2 ^ p ≤ q * 2 ^ p := Nat.mul_le_mul_right _ hr
    rw [Nat.sub_eq_zero_of_le (by omega : r * 2 ^ p ≤ d), Nat.sub_eq_zero_of_le hr]
    exact Nat.div_eq_of_lt (by omega)
  · obtain ⟨k, rfl⟩ := Nat.exists_eq_add_of_le hr
    have expand : (q + k) * 2 ^ p = q * 2 ^ p + k * 2 ^ p := Nat.add_mul _ _ _
    rw [expand, hd, Nat.add_sub_cancel_left]
    cases k with
    | zero =>
      have : q * 2 ^ p + 0 * 2 ^ p - (q * 2 ^ p + e) = 0 := by omega
      rw [this]
      exact Nat.div_eq_of_lt (by omega)
    | succ k =>
      have one : (k + 1) * 2 ^ p = k * 2 ^ p + 2 ^ p := Nat.succ_mul _ _
      have left : q * 2 ^ p + (k + 1) * 2 ^ p - (q * 2 ^ p + e) + 2 ^ p - 1 = (2 ^ p - 1 - e) + (k + 1) * 2 ^ p := by omega
      rw [left, Nat.add_mul_div_right _ _ hp, Nat.div_eq_of_lt (by omega), Nat.zero_add]

/-- The count of a countdown that begins now, d lc later. -/
theorem State.tmrCount_counts {t : State} {r d p now : Nat} (hrun : t.flag F.TMn_STAT_RUN n 0 = true)
    (hz : t.tmr[n].zeroAt = now + r * 2 ^ p) (hp : t.tmr[n].pre = p) (hn : t.now = now + d) : t.tmrCount n = r - d / 2 ^ p := by
  rw [State.tmrCount, hrun, hz, hp, hn]
  exact (congrArg (fun x => (x + 2 ^ p - 1) / 2 ^ p) (Nat.add_sub_add_left now (r * 2 ^ p) d)).trans (steps_left r d p)

/-- A load begins a countdown of RELOAD steps. -/
theorem State.tmrLoad_spec :
    (s.tmrLoad n).flag F.TMn_STAT_RUN n 0 = true ∧ (s.tmrLoad n).fld F.TMn_STAT_FIRED n 0 = 0 ∧
    (s.tmrLoad n).tmr = (s.tmrArmed n).tmr ∧ (s.tmrLoad n).now = s.now ∧ (s.tmrLoad n).marks = s.marks ∧
    (s.tmrZeroAt n, Instr.timerZero n) ∈ (s.tmrLoad n).cal ∧
    ∀ c : Fin 4, s.marked (RegName.TMn_CHc_FINE.addr n c) true = true → (s.tmrLoad n).reg .TMn_CHc_VAL n c = s.reg .TMn_RELOAD n 0 := by
  obtain ⟨x, hx⟩ := (s.tmrArmed n).tmrDues_only n
  obtain ⟨u, hu⟩ : ∃ u, u = ((s.tmrArmed n).tmrDues n).schedAt (s.tmrZeroAt n) (.timerZero n) := ⟨_, rfl⟩
  have load : s.tmrLoad n = u.tmrRecap n := by rw [hu]; exact s.tmrLoad_eq n
  have regs : u.regs = (s.tmrArmed n).regs := by rw [hu, hx]; rfl
  have tmr : u.tmr = (s.tmrArmed n).tmr := by rw [hu, hx]; rfl
  have now : u.now = s.now := by rw [hu, hx]; rfl
  have marks : u.marks = s.marks := by rw [hu, hx]; rfl
  have zero : (s.tmrZeroAt n, Instr.timerZero n) ∈ u.cal := by
    have due := State.mem_sched (s := (s.tmrArmed n).tmrDues n) (t := s.now) (by rw [hx]; rfl) (s.tmrZeroAt n - s.now) (.timerZero n)
    rw [Nat.add_sub_cancel' (show s.now ≤ s.tmrZeroAt n from Nat.le_add_right _ _)] at due
    rw [hu, State.schedAt, show ((s.tmrArmed n).tmrDues n).now = s.now by rw [hx]; rfl]
    exact due
  have run : u.flag F.TMn_STAT_RUN n 0 = true := (congrArg (· != 0) (State.fld_of_regs regs _ _ _)).trans (s.tmrArmed_run n)
  have own : u.tmr[n] = s.tmr[n].armed (s.tmrZeroAt n) (s.fld F.TMn_CTRL_PRE n 0) := by rw [tmr]; exact s.tmrArmed_tmr n
  have count : u.tmrCount n = (s.reg .TMn_RELOAD n 0).toNat := by
    refine (State.tmrCount_counts n (d := 0) (now := s.now) run (by rw [own]; rfl) (by rw [own]; rfl) now).trans ?_
    rw [Nat.zero_div, Nat.sub_zero]
  have recapped := u.tmrRecap_recapped n
  rw [load]
  obtain ⟨⟨y, hy⟩, -⟩ := id recapped
  refine ⟨?_, ?_, ?_, ?_, ?_, ?_, fun c hc => ?_⟩
  · exact (congrArg (· != 0) (recapped.fld fun c => tmrStat_ne_val n c)).trans run
  · rw [recapped.fld fun c => tmrStat_ne_val n c, State.fld_of_regs regs]; exact s.tmrArmed_fired n
  · rw [hy, ← tmr]
  · rw [hy, ← now]
  · rw [hy, ← marks]
  · rw [hy]; exact zero
  · rw [u.tmrRecap_val n c (by rw [State.marked, marks]; exact hc), count, BitVec.ofNat_toNat, BitVec.setWidth_eq]

/-- A stop holds the count. -/
theorem State.tmrStop_spec : (s.tmrStop n).flag F.TMn_STAT_RUN n 0 = false ∧ (s.tmrStop n).tmr[n].held = s.tmrCount n := by
  have only : ∀ (t : State), ∃ x, (List.finRange 4).foldl (fun s c => s.unsched (.timerMatch n c)) t = { t with cal := x } := by
    intro t
    refine foldl_keeps (fun u => ∃ x, u = { t with cal := x }) (fun u c h => ?_) _ _ ⟨t.cal, rfl⟩
    obtain ⟨x, rfl⟩ := h
    exact ⟨_, rfl⟩
  obtain ⟨x, hx⟩ := only (((s.modTmr n fun t => { t with held := s.tmrCount n }).setFld F.TMn_STAT_RUN n 0 0).unsched (.timerZero n))
  have form : s.tmrStop n = { ((s.modTmr n fun t => { t with held := s.tmrCount n }).setFld F.TMn_STAT_RUN n 0 0).unsched (.timerZero n) with
    cal := x } := hx
  rw [form]
  refine ⟨?_, congrArg TmrSt.held (State.tmr_modTmr_same s n _)⟩
  exact congrArg (· != 0) (State.fld_setFld_same (s.modTmr n fun t => { t with held := s.tmrCount n }) F.TMn_STAT_RUN n 0 0 (by decide))

theorem State.tmrCount_held {t : State} (h : t.flag F.TMn_STAT_RUN n 0 = false) : t.tmrCount n = t.tmr[n].held := by
  rw [State.tmrCount]; exact if_neg (by simp [h])

/-- A countdown's state put back, before its matches and its zero go on the calendar. -/
def State.tmrPutBack (w : TmrWas) : State :=
  ((s.modTmr n (·.restored w)).setFld F.TMn_STAT_RUN n 0 (if w.run then 1 else 0)).setFld F.TMn_STAT_FIRED n 0 w.fired

theorem State.tmrUnstart_none (h : s.tmrBegan n = none) : s.tmrUnstart n = s := by rw [State.tmrUnstart, h]

/-- A start taken back puts the countdown back. -/
theorem State.tmrUnstart_some {w : TmrWas} (h : s.tmrBegan n = some w) (hf : w.fired < 16) :
    (s.tmrUnstart n).tmr[n].zeroAt = w.zeroAt ∧ (s.tmrUnstart n).tmr[n].pre = w.pre ∧ (s.tmrUnstart n).tmr[n].zdone = w.zdone ∧
    (s.tmrUnstart n).flag F.TMn_STAT_RUN n 0 = w.run ∧ (s.tmrUnstart n).fld F.TMn_STAT_FIRED n 0 = w.fired := by
  obtain ⟨x, hx⟩ := (s.tmrPutBack n w).tmrDues_only n
  have recapped := ((s.tmrPutBack n w).tmrDues n).tmrRecap_recapped n
  have form : ∃ c, s.tmrUnstart n = { ((s.tmrPutBack n w).tmrDues n).tmrRecap n with cal := c } := by
    rw [State.tmrUnstart, h]
    dsimp only
    split
    · exact ⟨_, rfl⟩
    · exact ⟨_, rfl⟩
  obtain ⟨c, hc⟩ := form
  have own : (s.tmrPutBack n w).tmr[n] = s.tmr[n].restored w := State.tmr_modTmr_same s n _
  have tmr : (s.tmrUnstart n).tmr = (s.tmrPutBack n w).tmr := by
    obtain ⟨⟨y, hy⟩, -⟩ := recapped
    rw [hc, hy, hx]
  have fld : ∀ f : Fld, f.reg = .TMn_STAT → (s.tmrUnstart n).fld f n 0 = (s.tmrPutBack n w).fld f n 0 := by
    intro f hf
    rw [State.fld_of_regs (show (s.tmrUnstart n).regs = (((s.tmrPutBack n w).tmrDues n).tmrRecap n).regs by rw [hc]),
      recapped.fld fun c => by rw [hf]; exact tmrStat_ne_val n c]
    exact State.fld_of_regs (by rw [hx]) _ _ _
  refine ⟨?_, ?_, ?_, ?_, ?_⟩
  · rw [tmr, own]; rfl
  · rw [tmr, own]; rfl
  · rw [tmr, own]; rfl
  · rw [State.flag, fld _ rfl]
    have apart := State.fld_setFld_apart (f := F.TMn_STAT_FIRED) (g := F.TMn_STAT_RUN) 
      ((s.modTmr n (·.restored w)).setFld F.TMn_STAT_RUN n 0 (if w.run then 1 else 0)) (i := n) (j := 0) w.fired rfl (by decide) (by decide) (by decide)
    refine (congrArg (· != 0) (apart.trans (State.fld_setFld_same _ F.TMn_STAT_RUN n 0 _ (by decide)))).trans ?_
    cases w.run <;> rfl
  · rw [fld _ rfl]
    exact (State.fld_setFld_same _ F.TMn_STAT_FIRED n 0 w.fired (by decide)).trans (Nat.mod_eq_of_lt hf)

/-! ## Starts -/

/-- What a start does to a timer that no stop of the lc stops. -/
def State.tmrStarted : State :=
  let u := if s.tmrZeroNow n then s.tmrZeroStep n else s
  let y := u.tmr[n]
  let was := (u.tmrBegan n).getD ⟨u.now, u.flag F.TMn_STAT_RUN n 0, y.zeroAt, y.pre, y.zdone, u.fld F.TMn_STAT_FIRED n 0⟩
  (u.modTmr n fun k => { k with was := some was }).tmrLoad n

theorem State.tmrStart_live (hl : s.mode.live = true) : s.tmrStart n = if s.tmrStopping n then s else s.tmrStarted n := by
  rw [State.tmrStart, hl]
  cases s.tmrStopping n <;> rfl

theorem State.tmrHalt_live (hl : s.mode.live = true) : s.tmrHalt n = (s.tmrUnstart n).mark (RegName.TMn_CTRL.addr n 0) true := if_pos hl

/-- A start that a stop of its lc takes back has not taken place. -/
theorem State.tmrStarted_unstart (hb : s.tmrBegan n = none) (hz : s.tmrZeroNow n = false) :
    ((s.tmrStarted n).tmrUnstart n).tmr[n].zeroAt = s.tmr[n].zeroAt ∧ ((s.tmrStarted n).tmrUnstart n).tmr[n].pre = s.tmr[n].pre ∧
    ((s.tmrStarted n).tmrUnstart n).tmr[n].zdone = s.tmr[n].zdone ∧
    ((s.tmrStarted n).tmrUnstart n).flag F.TMn_STAT_RUN n 0 = s.flag F.TMn_STAT_RUN n 0 ∧
    ((s.tmrStarted n).tmrUnstart n).fld F.TMn_STAT_FIRED n 0 = s.fld F.TMn_STAT_FIRED n 0 := by
  let w : TmrWas := ⟨s.now, s.flag F.TMn_STAT_RUN n 0, s.tmr[n].zeroAt, s.tmr[n].pre, s.tmr[n].zdone, s.fld F.TMn_STAT_FIRED n 0⟩
  have form : s.tmrStarted n = (s.modTmr n fun k => { k with was := some w }).tmrLoad n := by
    simp only [State.tmrStarted, hz, Bool.false_eq_true, if_false, hb, Option.getD_none]
    rfl
  obtain ⟨-, -, tmr, now, -⟩ := (s.modTmr n fun k => { k with was := some w }).tmrLoad_spec n
  have own : (s.tmrStarted n).tmr[n].was = some w := by
    rw [form, tmr, State.tmrArmed_tmr, State.tmr_modTmr_same]
    rfl
  have began : (s.tmrStarted n).tmrBegan n = some w := by
    rw [State.tmrBegan, own, Option.filter_some, form, now]
    exact if_pos (decide_eq_true rfl)
  exact State.tmrUnstart_some _ n began (getBits_lt _ _ _)
end

end Sys2Proof.Machine
end

