-- ==== Sys2Proof/Proofs/TimerEvents.lean ====
section
/-! PROOF. Commands of the timers: writes that start and stop, zeros, matches, the compare port, captures and pins (R141 to R149). -/

namespace Sys2Proof.Machine

/-! ## Writes that start and stop -/

/-- A mask that names one timer acts on it alone. -/
theorem State.tmrMask_one (s : State) {v : Word} {n : TmrId} (h : ∀ m : TmrId, v.getLsbD m.val = true ↔ m = n) (f : State → TmrId → State) :
    s.tmrMask v f = f s n := by
  refine (foldl_single (List.nodup_finRange 24) (List.mem_finRange n) fun m _ hm t => if_neg (mt (h m).mp hm)).trans ?_
  exact if_pos ((h n).mpr rfl)

theorem State.mode_tmrCtrl (s : State) (n : TmrId) (v : Word) : (s.writeReg .TMn_CTRL n 0 v).mode = s.mode :=
  State.mode_congr (State.reg_writeReg_ne s v (clkStat_ne_tmr n)) rfl rfl

theorem getLsbD_or_one (v : Word) : (v ||| 1).getLsbD 0 = true := by simp
theorem getLsbD_and_not_one (v : Word) : (v &&& ~~~1).getLsbD 0 = false := by simp

theorem exec_timerEnStart {s : State} {r : Req} {n : TmrId} {v : Word} (h : s.admits r .write .TMn_CTRL n 0) :
    exec (.timerEnStart r n v) s = .next (((s.opened r.master).writeReg .TMn_CTRL n 0 (v ||| 1)).tmrStart n) :=
  regCmd_next_of (body := fun s => s.tmrCtrlWrite n (v ||| 1)) h (if_pos (getLsbD_or_one v))

theorem exec_timerEnStop {s : State} {r : Req} {n : TmrId} {v : Word} (h : s.admits r .write .TMn_CTRL n 0) :
    exec (.timerEnStop r n v) s = .next (((s.opened r.master).writeReg .TMn_CTRL n 0 (v &&& ~~~1)).tmrHalt n) :=
  regCmd_next_of (body := fun s => s.tmrCtrlWrite n (v &&& ~~~1)) h (if_neg (by rw [getLsbD_and_not_one]; decide))

theorem exec_tmStart {s : State} {r : Req} {n : TmrId} {v : Word} (h : s.admits r .write .TM_START 0 0)
    (hv : ∀ m : TmrId, v.getLsbD m.val = true ↔ m = n) : exec (.tmStart r v) s = .next ((s.opened r.master).tmrStart n) :=
  regCmd_next_of (body := fun s => s.tmrMask v State.tmrStart) h (State.tmrMask_one _ hv _)

theorem exec_tmStop {s : State} {r : Req} {n : TmrId} {v : Word} (h : s.admits r .write .TM_STOP 0 0)
    (hv : ∀ m : TmrId, v.getLsbD m.val = true ↔ m = n) : exec (.tmStop r v) s = .next ((s.opened r.master).tmrHalt n) :=
  regCmd_next_of (body := fun s => s.tmrMask v State.tmrHalt) h (State.tmrMask_one _ hv _)

theorem exec_timerStartEvent (s : State) (n : TmrId) : exec (.timerStartEvent n) s = .next (s.tmrStart n) := rfl
theorem exec_timerStopEvent (s : State) (n : TmrId) : exec (.timerStopEvent n) s = .next (s.tmrHalt n) := rfl

/-! ## Zeros and matches -/

theorem State.tmrRuns_iff {s : State} (hl : s.mode.live = true) (n : TmrId) : s.tmrRuns n = s.flag F.TMn_STAT_RUN n 0 := by
  rw [State.tmrRuns, hl, Bool.true_and]

theorem State.tmrZeroNow_due {s : State} {n : TmrId} (hl : s.mode.live = true) (hr : s.flag F.TMn_STAT_RUN n 0 = true)
    (hd : s.tmr[n].zdone = false) (hz : s.tmr[n].zeroAt ≤ s.now) : s.tmrZeroNow n = true := by
  rw [State.tmrZeroNow, State.tmrRuns_iff hl, hr, hd, decide_eq_true hz]; rfl

theorem exec_timerZero_due {s : State} {n : TmrId} (h : s.tmrZeroNow n = true) : exec (.timerZero n) s = .next (s.tmrZeroStep n) :=
  congrArg Host.Outcome.next (if_pos h)

/-- The lc of a channel's match. -/
def State.tmrFires (s : State) (n : TmrId) (c : Fin 4) : Nat := s.tmr[n].zeroAt - (s.reg .TMn_CHc_VAL n c).toNat * 2 ^ s.tmr[n].pre

section
variable {s : State} {n : TmrId} {c : Fin 4} (hl : s.mode.live = true) (hr : s.flag F.TMn_STAT_RUN n 0 = true)
  (hc : s.flag F.TMn_CHc_CFG_MODE n c = false) (hf : s.fld F.TMn_STAT_FIRED n 0 / 2 ^ c.val % 2 = 0)

include hl hr hc hf in
theorem exec_timerMatch_fires (h : s.tmrFires n c ≤ s.now) : exec (.timerMatch n c) s = .next
    ((((s.unsched (.timerMatch n c)).setFld F.TMn_STAT_FIRED n 0 (s.fld F.TMn_STAT_FIRED n 0 + 2 ^ c.val)).raiseEv (tmrSrc n + 1 + c.val)).tmrPin
      n (chPin c) c.val (s.fld F.TMn_CHc_CFG_MATCHACT n c)) := by
  have runs : s.tmrRuns n = true := (State.tmrRuns_iff hl n).trans hr
  have cap : s.tmrCap n c = false := hc
  have fired : s.tmrFired n c = false := decide_eq_false (by omega)
  have reached : s.tmrReached n c = true := decide_eq_true h
  have act : (((s.unsched (.timerMatch n c)).setFld F.TMn_STAT_FIRED n 0 (s.fld F.TMn_STAT_FIRED n 0 + 2 ^ c.val)).raiseEv
      (tmrSrc n + 1 + c.val)).fld F.TMn_CHc_CFG_MATCHACT n c = s.fld F.TMn_CHc_CFG_MATCHACT n c :=
    State.fld_setFld_ne (s.unsched (.timerMatch n c)) _ (tmrCfg_ne_stat n c)
  change execTimerMatch n c s = _
  rw [execTimerMatch, runs, cap, fired, reached, ← act]
  rfl

theorem exec_timerMatch_early {s : State} {n : TmrId} {c : Fin 4} (h : s.now < s.tmrFires n c) : exec (.timerMatch n c) s = .next s := by
  have reached : s.tmrReached n c = false := decide_eq_false (Nat.not_le.mpr h)
  change execTimerMatch n c s = _
  rw [execTimerMatch, reached, Bool.and_false]
  rfl
end

theorem exec_timerComparePort {s : State} {n : TmrId} {c : Fin 4} {w : Word} (hl : s.mode.live = true)
    (hc : s.flag F.TMn_CHc_CFG_MODE n c = false) : exec (.timerComparePort n c w) s = .next
      ((((if s.marked (RegName.TMn_CHc_VAL.addr n c) false && !s.marked (RegName.TMn_CHc_VAL.addr n c) true then
        s.bump F.TMn_ERR_CNT_WRCONF n 0 else s).setReg .TMn_CHc_VAL n c w).mark (RegName.TMn_CHc_VAL.addr n c) true).tmrDue n c) := by
  have cap : s.tmrCap n c = false := hc
  change execTimerComparePort n c w s = _
  rw [execTimerComparePort, hl, cap]
  rfl

/-! ## Captures -/

/-- One bit of a register as a field. -/
def statBit (k : Nat) : Fld := ⟨.TMn_STAT, k, k⟩

/-- A capture counts an overrun where its flag stands. -/
def State.tmrOverrun (s : State) (n : TmrId) (c : Fin 4) : State :=
  if decide (s.fld F.TMn_STAT_CAPF n 0 / 2 ^ c.val % 2 = 1) || decide (s.oldFld F.TMn_STAT_CAPF n 0 / 2 ^ c.val % 2 = 1) then
    (s.raiseFld (statBit (8 + c.val)) n 0 1).bump F.TMn_ERR_CNT_CAPOVR n 0 else s

/-- A capture stores count and fine part and raises its event. -/
def State.tmrTakes (s : State) (n : TmrId) (c : Fin 4) (fine : Word) : State :=
  ((((s.setReg .TMn_CHc_VAL n c (BitVec.ofNat 32 (s.tmrCount n))).setReg .TMn_CHc_FINE n c fine).raiseFld (statBit c.val) n 0 1).raiseEv
    (tmrSrc n + 5 + c.val))

theorem exec_timerCapture {s : State} {n : TmrId} {c : Fin 4} {e : CapEdge} (hl : s.mode.live = true)
    (hc : s.flag F.TMn_CHc_CFG_MODE n c = true) (hs : s.capSelects n c e.rising = true)
    (hm : s.marked (RegName.TMn_CHc_FINE.addr n c) true = false) :
    let u := (s.mark (RegName.TMn_CHc_FINE.addr n c) true).tmrOverrun n c
    exec (.timerCapture n c e) s = .next (u.tmrTakes n c (if (e.fine && u.flag F.TMn_CHc_CFG_CAPSRC n c) = true then
      BitVec.ofNat 32 (256 + e.fs.toNat) else 0)) := by
  have cap : s.tmrCap n c = true := hc
  change execTimerCapture n c e s = _
  rw [execTimerCapture, hl, cap, hs, hm]
  rfl

theorem exec_timerCapture_again {s : State} {n : TmrId} {c : Fin 4} {e : CapEdge}
    (hm : s.marked (RegName.TMn_CHc_FINE.addr n c) true = true) : exec (.timerCapture n c e) s = .next s := by
  change execTimerCapture n c e s = _
  rw [execTimerCapture, hm, Bool.not_true, Bool.and_false]
  rfl

theorem tmrStat_bit (s : State) (n : TmrId) (f : Fld) (k : Nat) (hf : f.reg = .TMn_STAT) (hk : k < f.hi + 1 - f.lo) :
    s.fld f n 0 / 2 ^ k % 2 = 1 ↔ (s.reg .TMn_STAT n 0).getLsbD (f.lo + k) = true := by
  have bit := getBits_testBit (s.reg .TMn_STAT n 0) f.hi f.lo k
  rw [decide_eq_true hk, Bool.true_and] at bit
  rw [← bit, Nat.testBit_eq_decide_div_mod_eq, decide_eq_true_iff, State.fld, hf]

/-- A bit of TMn_STAT that hardware raises stands, the others are as they were. -/
theorem State.getLsbD_raiseBit (s : State) (n : TmrId) {k m : Nat} (hk : k < 32) (hm : m < 32) :
    ((s.raiseFld (statBit k) n 0 1).reg .TMn_STAT n 0).getLsbD m = (if m = k then true else (s.reg .TMn_STAT n 0).getLsbD m) := by
  have form : (s.raiseFld (statBit k) n 0 1).reg .TMn_STAT n 0 = setBits (s.reg .TMn_STAT n 0) k k 1 := State.reg_setReg_same _ _ _ _ _
  rw [form, setBits_getLsbD _ _ _ _ _ hk hm]
  obtain rfl | hne := eq_or_ne m k
  · simp
  · rw [if_neg (by omega), if_neg hne]

theorem State.fld_raiseFld_ne (s : State) {f g : Fld} {i j k l : Nat} (v : Nat) (h : g.reg.addr k l ≠ f.reg.addr i j) :
    (s.raiseFld f i j v).fld g k l = s.fld g k l := State.fld_setFld_ne _ v h

/-- What an overrun leaves. -/
theorem State.tmrOverrun_spec (s : State) (n : TmrId) (c : Fin 4) :
    let held := s.fld F.TMn_STAT_CAPF n 0 / 2 ^ c.val % 2 = 1 ∨ s.oldFld F.TMn_STAT_CAPF n 0 / 2 ^ c.val % 2 = 1
    (∃ regs hits, s.tmrOverrun n c = { s with regs := regs, hits := hits }) ∧
    (held → ((s.tmrOverrun n c).reg .TMn_STAT n 0).getLsbD (8 + c.val) = true) ∧
    (s.tmrOverrun n c).fld F.TMn_ERR_CNT_CAPOVR n 0 = (if held then min F.TMn_ERR_CNT_CAPOVR.max (s.fld F.TMn_ERR_CNT_CAPOVR n 0 + 1)
      else s.fld F.TMn_ERR_CNT_CAPOVR n 0) ∧
    (s.tmrOverrun n c).flag F.TMn_STAT_RUN n 0 = s.flag F.TMn_STAT_RUN n 0 ∧
    (s.tmrOverrun n c).flag F.TMn_CHc_CFG_CAPSRC n c = s.flag F.TMn_CHc_CFG_CAPSRC n c := by
  intro held
  by_cases h : held
  · have form : s.tmrOverrun n c = (s.raiseFld (statBit (8 + c.val)) n 0 1).bump F.TMn_ERR_CNT_CAPOVR n 0 := if_pos (by simpa using h)
    have bit := State.getLsbD_raiseBit s n (k := 8 + c.val) (m := 8 + c.val) (by omega) (by omega)
    have run := s.fld_raiseFld_apart (f := statBit (8 + c.val)) (g := F.TMn_STAT_RUN) (i := n) (j := 0) 1 rfl
      (by simp only [statBit]; omega) (by decide) (.inr (by simp only [statBit, F.TMn_STAT_RUN]; omega))
    have count := s.fld_raiseFld_ne (f := statBit (8 + c.val)) (g := F.TMn_ERR_CNT_CAPOVR) (i := n) (j := 0) (k := n) (l := 0) 1
      (tmrStat_ne_errCnt n).symm
    have source := s.fld_raiseFld_ne (f := statBit (8 + c.val)) (g := F.TMn_CHc_CFG_CAPSRC) (i := n) (j := 0) (k := n) (l := c) 1
      (tmrCfg_ne_stat n c)
    have only : ∃ regs hits, s.raiseFld (statBit (8 + c.val)) n 0 1 = { s with regs := regs, hits := hits } := ⟨_, _, rfl⟩
    rw [form]
    obtain ⟨u, hu⟩ : ∃ u, u = s.raiseFld (statBit (8 + c.val)) n 0 1 := ⟨_, rfl⟩
    rw [← hu] at bit run count source only ⊢
    refine ⟨?_, fun _ => ?_, ?_, ?_, ?_⟩
    · obtain ⟨x, y, rfl⟩ := only
      exact ⟨_, _, rfl⟩
    · exact (congrArg (·.getLsbD (8 + c.val)) (State.reg_setReg_ne _ _ (tmrStat_ne_errCnt n))).trans (bit.trans (if_pos rfl))
    · rw [if_pos h, State.fld_bump_same _ F.TMn_ERR_CNT_CAPOVR n 0 (by decide), count]
    · rw [State.flag, State.fld_bump_ne u (f := F.TMn_ERR_CNT_CAPOVR) (g := F.TMn_STAT_RUN) (tmrStat_ne_errCnt n), run]; rfl
    · rw [State.flag, State.fld_bump_ne u (f := F.TMn_ERR_CNT_CAPOVR) (g := F.TMn_CHc_CFG_CAPSRC) (tmrCfg_ne_errCnt n c), source]; rfl
  · have form : s.tmrOverrun n c = s := if_neg (by simpa [held] using h)
    rw [form]
    exact ⟨⟨_, _, rfl⟩, fun hh => absurd hh h, by rw [if_neg h], rfl, rfl⟩

theorem State.tmrTakes_spec (s : State) (n : TmrId) (c : Fin 4) (fine : Word) :
    (s.tmrTakes n c fine).reg .TMn_CHc_VAL n c = BitVec.ofNat 32 (s.tmrCount n) ∧
    (s.tmrTakes n c fine).reg .TMn_CHc_FINE n c = fine ∧ (s.tmrTakes n c fine).fld F.TMn_STAT_CAPF n 0 / 2 ^ c.val % 2 = 1 ∧
    (s.tmrTakes n c fine).mx.ev = s.mx.ev ++ [tmrSrc n + 5 + c.val] ∧
    (∀ k, (s.reg .TMn_STAT n 0).getLsbD (8 + k) = true → k < 4 → ((s.tmrTakes n c fine).reg .TMn_STAT n 0).getLsbD (8 + k) = true) ∧
    (s.tmrTakes n c fine).fld F.TMn_ERR_CNT_CAPOVR n 0 = s.fld F.TMn_ERR_CNT_CAPOVR n 0 ∧ (s.tmrTakes n c fine).marks = s.marks := by
  obtain ⟨u, hu⟩ : ∃ u, u = (s.setReg .TMn_CHc_VAL n c (BitVec.ofNat 32 (s.tmrCount n))).setReg .TMn_CHc_FINE n c fine := ⟨_, rfl⟩
  have stat : u.reg .TMn_STAT n 0 = s.reg .TMn_STAT n 0 := by
    rw [hu, State.reg_setReg_ne _ _ (tmrStat_ne_fine n c), State.reg_setReg_ne _ _ (tmrStat_ne_val n c)]
  have raised : ∀ q k l, q.addr k l ≠ RegName.TMn_STAT.addr n 0 → (s.tmrTakes n c fine).reg q k l = u.reg q k l := by
    intro q k l hq
    rw [hu]; exact State.reg_setReg_ne _ _ hq
  have bits : ∀ m, m < 32 → ((s.tmrTakes n c fine).reg .TMn_STAT n 0).getLsbD m = (if m = c.val then true else (u.reg .TMn_STAT n 0).getLsbD m) := by
    intro m hm
    rw [hu]; exact State.getLsbD_raiseBit _ n (by omega) hm
  refine ⟨?_, ?_, ?_, ?_, fun k hk h4 => ?_, ?_, rfl⟩
  · rw [raised _ _ _ (tmrStat_ne_val n c).symm, hu, State.reg_setReg_ne _ _ (tmrVal_ne_fine n c)]
    exact State.reg_setReg_same _ _ _ _ _
  · rw [raised _ _ _ (tmrStat_ne_fine n c).symm, hu]
    exact State.reg_setReg_same _ _ _ _ _
  · refine (tmrStat_bit _ n F.TMn_STAT_CAPF c.val rfl (by simp only [F.TMn_STAT_CAPF]; omega)).mpr ?_
    rw [bits _ (by simp only [F.TMn_STAT_CAPF]; omega), if_pos (by simp [F.TMn_STAT_CAPF])]
  · rfl
  · rw [bits _ (by omega), if_neg (by omega), stat, hk]
  · have : (s.tmrTakes n c fine).reg .TMn_ERR_CNT n 0 = s.reg .TMn_ERR_CNT n 0 := by
      rw [raised _ _ _ (tmrStat_ne_errCnt n).symm, hu, State.reg_setReg_ne _ _ (tmrErrCnt_ne_fine n c), State.reg_setReg_ne _ _ (tmrErrCnt_ne_val n c)]
    rw [State.fld, show F.TMn_ERR_CNT_CAPOVR.reg = .TMn_ERR_CNT from rfl, this, State.fld, show F.TMn_ERR_CNT_CAPOVR.reg = .TMn_ERR_CNT from rfl]

/-! ## Pins -/

theorem State.relv_lv (s : State) (k : Nat) (base b : Bool) : (s.relv k base b).mx.lv.get k false = b := by
  unfold State.relv
  split
  · exact SMap.get_put_same _ _ _ _
  · exact SMap.get_put_same _ _ _ _

/-- The first action of an lc on a pin takes its level. -/
theorem State.tmrPin_level {s : State} {n : TmrId} {p : Fin 2} {rank act : Nat} (ha : act ≠ 0) (hb : (s.tmr[n].acted[p]).1 ≠ s.now) :
    (s.tmrPin n p rank act).mx.lv.get (tmrSrc n + 9 + p.val) false =
      (if act = 1 then true else if act = 2 then false else !s.mx.lv.get (tmrSrc n + 9 + p.val) false) := by
  unfold State.tmrPin
  obtain ⟨⟨l, k, before⟩, hacted⟩ : ∃ x, s.tmr[n].acted[p] = x := ⟨_, rfl⟩
  rw [hacted] at hb
  have other : decide (l = s.now) = false := decide_eq_false hb
  dsimp only
  rw [hacted]
  dsimp only
  rw [other, Bool.false_and, if_neg (by simp [ha])]
  exact State.relv_lv _ _ _ _

/-- Settles O33: starts and stops by what a stop takes back, zeros, matches and captures by their steps. -/
theorem timers : Obligations.Timers := by
  unfold Obligations.Timers
  refine ⟨?_, ?_⟩
  · intro s r n v live a stopping start stop one pre reload
    have started : ∀ t : State, t.now = s.now → start t = t.tmrStarted n := by
      intro t hn
      have now : (if t.tmrZeroNow n then t.tmrZeroStep n else t).now = s.now := by
        rw [← hn]; split <;> rfl
      unfold State.tmrStarted
      dsimp only
      rw [now]
    have starts : ∀ t : State, t.mode.live = true → t.tmrStopping n = stopping → t.now = s.now →
        t.tmrStart n = if stopping then t else start t := by
      intro t hl hs hn
      rw [t.tmrStart_live n hl, hs, started t hn]
    have stops : ∀ t : State, t.mode.live = true → t.tmrHalt n = stop t := fun t hl => t.tmrHalt_live n hl
    have alive : a.mode.live = true := by rw [show a.mode = s.mode from State.mode_opened s r.master]; exact live
    have stopping' : a.tmrStopping n = stopping := State.opened_congr (·.tmrStopping n) (fun _ _ _ _ => rfl) s r.master
    have now : a.now = s.now := State.opened_congr State.now (fun _ _ _ _ => rfl) s r.master
    have write : ∀ v, (a.writeReg .TMn_CTRL n 0 v).mode.live = true := fun v => by rw [State.mode_tmrCtrl, alive]
    have writeNow : ∀ v, (a.writeReg .TMn_CTRL n 0 v).now = s.now := fun _ => now
    have writeStopping : ∀ v, (a.writeReg .TMn_CTRL n 0 v).tmrStopping n = stopping := fun _ => stopping'
    have own : s.tmrStopping n = stopping := rfl
    clear_value start stop stopping
    refine ⟨fun ha => ⟨?_, ?_⟩, fun hv => ⟨fun ha => ?_, fun ha => ?_⟩, ?_, ?_, fun hb => ⟨s.tmrUnstart_none n hb, fun hz => ?_⟩, ?_, ?_⟩
    · rw [exec_timerEnStart ha, starts _ (write _) (writeStopping _) (writeNow _)]
    · rw [exec_timerEnStop ha, stops _ (write _)]
    · rw [exec_tmStart ha hv, starts _ alive stopping' now]
    · rw [exec_tmStop ha hv, stops _ alive]
    · rw [exec_timerStartEvent, starts s live own rfl]
    · rw [exec_timerStopEvent, stops s live]
    · rw [started s rfl]
      exact s.tmrStarted_unstart n hb hz
    · obtain ⟨run, fired, tmr, tnow, -, zero, vals⟩ := s.tmrLoad_spec n
      have own : (s.tmrLoad n).tmr[n] = s.tmr[n].armed (s.tmrZeroAt n) (s.fld F.TMn_CTRL_PRE n 0) := by rw [tmr]; exact s.tmrArmed_tmr n
      have counts : ∀ d, ({ s.tmrLoad n with now := s.now + d } : State).tmrCount n = reload - d / 2 ^ pre := fun d =>
        State.tmrCount_counts n (t := { s.tmrLoad n with now := s.now + d }) run (congrArg TmrSt.zeroAt own) (congrArg TmrSt.pre own) rfl
      refine ⟨run, fired, ?_, congrArg TmrSt.zdone own, zero, vals, fun m hm => ?_, counts⟩
      · refine (State.tmrCount_counts n (d := 0) (now := s.now) run (congrArg TmrSt.zeroAt own) (congrArg TmrSt.pre own) tnow).trans ?_
        rw [Nat.zero_div, Nat.sub_zero]
      · rw [tmr]; exact s.tmrArmed_tmr_ne n hm
    · obtain ⟨run, held⟩ := s.tmrStop_spec n
      have holds : ∀ d, ({ s.tmrStop n with now := s.now + d } : State).tmrCount n = s.tmrCount n := fun d =>
        (State.tmrCount_held n (t := { s.tmrStop n with now := s.now + d }) run).trans held
      have count : (s.tmrStop n).tmrCount n = s.tmrCount n := (State.tmrCount_held n run).trans held
      exact ⟨run, count, fun d => (holds d).trans count.symm⟩
  · intro s n c w e live cap p va fa held fires
    refine ⟨fun hr hd hz => ?_, fun hr hc hf => ⟨fun h => ?_, fun h => ?_⟩, fun hc => ?_, fun hc hs hm => ?_, ?_⟩
    · have own := s.tmr_modTmr_same n fun t => { t with zeroAt := s.now, zdone := true, zact := true }
      exact ⟨_, exec_timerZero_due (State.tmrZeroNow_due live hr hd hz), congrArg TmrSt.zdone own, congrArg TmrSt.zeroAt own, rfl, rfl,
        fun m hm => s.tmr_modTmr_ne n _ hm⟩
    · exact exec_timerMatch_fires live hr hc hf h
    · exact exec_timerMatch_early h
    · rw [exec_timerComparePort live hc]
      simp only [Bool.and_eq_true, Bool.not_eq_true', va]
    · obtain ⟨u, hu, taken⟩ : ∃ u, u = (s.mark fa true).tmrOverrun n c ∧ exec (.timerCapture n c e) s = .next (u.tmrTakes n c
          (if (e.fine && u.flag F.TMn_CHc_CFG_CAPSRC n c) = true then BitVec.ofNat 32 (256 + e.fs.toNat) else 0)) := by
        refine ⟨_, rfl, exec_timerCapture live hc ?_ hm⟩
        unfold State.capSelects
        cases hrise : e.rising <;> simpa [hrise] using hs
      obtain ⟨only, overrun, count, run, source⟩ := (s.mark fa true).tmrOverrun_spec n c
      rw [← hu] at only overrun count run source
      obtain ⟨val, fine, flag, ev, kept, errs, marks⟩ := u.tmrTakes_spec n c
        (if (e.fine && u.flag F.TMn_CHc_CFG_CAPSRC n c) = true then BitVec.ofNat 32 (256 + e.fs.toNat) else 0)
      have counted : u.tmrCount n = s.tmrCount n := by
        have tmr : u.tmr = s.tmr := by obtain ⟨_, _, h⟩ := only; rw [h]; rfl
        have now : u.now = s.now := by obtain ⟨_, _, h⟩ := only; rw [h]; rfl
        have run : u.flag F.TMn_STAT_RUN n 0 = s.flag F.TMn_STAT_RUN n 0 := run
        simp only [State.tmrCount, run, tmr, now]
      have events : u.mx.ev = s.mx.ev := by obtain ⟨_, _, h⟩ := only; rw [h]; rfl
      have marked : u.marks = (fa, true) :: s.marks := by obtain ⟨_, _, h⟩ := only; rw [h]; rfl
      refine ⟨_, taken, val.trans (by rw [counted]), fine.trans ?_, flag, ev.trans (by rw [events]), fun hh => kept _ (overrun hh) c.isLt,
        errs.trans count, exec_timerCapture_again ?_⟩
      · rw [source]; simp only [Bool.and_eq_true]; rfl
      · rw [State.marked, marks, marked]
        exact List.contains_iff_mem.mpr (List.mem_cons_self ..)
    · intro cur rank act before hcur _ ha hb hne
      rw [State.tmrPin_level ha (by rw [hb]; exact hne), hcur]

end Sys2Proof.Machine
end

