-- ==== Sys2Proof/Proofs/PwmOutputs.lean ====
section
/-! PROOF. The output stage of a PWM generator: levels, dead time, trips, and the delay lines (R126 to R135). -/

namespace Sys2Proof.Machine

/-! ## The state of a generator -/

section
variable (s : State) (n : GenId)

theorem State.pwm_modPwm_same (f : PwmSt → PwmSt) : (s.modPwm n f).pwm[n] = f s.pwm[n] := vset_getElem_same _ _ _

theorem State.pwm_modPwm_ne {m : GenId} (f : PwmSt → PwmSt) (h : m ≠ n) : (s.modPwm n f).pwm[m] = s.pwm[m] := vset_getElem_ne _ _ h.symm
end

/-- A generator with another output stage: what waits to turn on, the levels, their last edges. -/
def PwmSt.driven (g : PwmSt) (on : Option PwmOn) (lvl : Vector Bool 2) (e eb : Vector Nat 2) : PwmSt :=
  { g with on := on, lvl := lvl, edge := e, edgeB := eb }

/-- Generator n drives its outputs: its output stage, the level sources and the calendar alone change. -/
def State.driven (n : GenId) (s t : State) : Prop :=
  ∃ on lvl e eb lv chg cal, t =
    { s with pwm := vset s.pwm n (s.pwm[n].driven on lvl e eb), mx := { s.mx with lv := lv, chg := chg }, cal := cal }

namespace State.driven
variable {n : GenId} {s t u : State}

theorem refl (n : GenId) (s : State) : State.driven n s s := by
  refine ⟨s.pwm[n].on, s.pwm[n].lvl, s.pwm[n].edge, s.pwm[n].edgeB, s.mx.lv, s.mx.chg, s.cal, ?_⟩
  rw [show vset s.pwm n (s.pwm[n].driven s.pwm[n].on s.pwm[n].lvl s.pwm[n].edge s.pwm[n].edgeB) = s.pwm from vset_self s.pwm n]

theorem trans (h : State.driven n s t) (g : State.driven n t u) : State.driven n s u := by
  obtain ⟨_, _, _, _, _, _, _, rfl⟩ := h
  obtain ⟨on, lvl, e, eb, lv, chg, cal, rfl⟩ := g
  refine ⟨on, lvl, e, eb, lv, chg, cal, ?_⟩
  dsimp only
  rw [vset_vset, show ∀ x, (vset s.pwm n x)[n] = x from fun x => vset_getElem_same s.pwm n x]
  rfl

theorem setLv (n : GenId) (t : State) (k : Nat) (b : Bool) : State.driven n t (t.setLv k b) := by
  obtain ⟨on, lvl, e, eb, lv, chg, cal, h⟩ := refl n t
  exact ⟨on, lvl, e, eb, _, _, cal, by
    rw [show vset t.pwm n (t.pwm[n].driven on lvl e eb) = t.pwm from (congrArg State.pwm h).symm,
      show cal = t.cal from (congrArg State.cal h).symm]
    rfl⟩

theorem cal (n : GenId) (t : State) (c : List (Nat × Instr)) : State.driven n t { t with cal := c } := by
  obtain ⟨on, lvl, e, eb, lv, chg, _, h⟩ := refl n t
  exact ⟨on, lvl, e, eb, t.mx.lv, t.mx.chg, c, by
    rw [show vset t.pwm n (t.pwm[n].driven on lvl e eb) = t.pwm from (congrArg State.pwm h).symm]⟩

theorem modPwm (n : GenId) (t : State) {f : PwmSt → PwmSt} (h : ∀ g, ∃ on lvl e eb, f g = g.driven on lvl e eb) :
    State.driven n t (t.modPwm n f) := by
  obtain ⟨on, lvl, e, eb, hf⟩ := h t.pwm[n]
  exact ⟨on, lvl, e, eb, t.mx.lv, t.mx.chg, t.cal, by rw [← hf]; rfl⟩

theorem ite {c : Prop} [Decidable c] (h : State.driven n s t) (g : State.driven n s u) : State.driven n s (if c then t else u) := by
  split
  · exact h
  · exact g

/-- The generator with its output stage as it is now. -/
theorem gen (h : State.driven n s t) : ∃ on lvl e eb, t.pwm[n] = s.pwm[n].driven on lvl e eb := by
  obtain ⟨on, lvl, e, eb, _, _, _, rfl⟩ := h
  exact ⟨on, lvl, e, eb, vset_getElem_same _ _ _⟩

theorem others (h : State.driven n s t) {m : GenId} (hm : m ≠ n) : t.pwm[m] = s.pwm[m] := by
  obtain ⟨_, _, _, _, _, _, _, rfl⟩ := h
  exact vset_getElem_ne _ _ hm.symm

theorem regs (h : State.driven n s t) : t.regs = s.regs := by obtain ⟨_, _, _, _, _, _, _, rfl⟩ := h; rfl
theorem now (h : State.driven n s t) : t.now = s.now := by obtain ⟨_, _, _, _, _, _, _, rfl⟩ := h; rfl
theorem dlv (h : State.driven n s t) : t.mx.dlv = s.mx.dlv := by obtain ⟨_, _, _, _, _, _, _, rfl⟩ := h; rfl
theorem ev (h : State.driven n s t) : t.mx.ev = s.mx.ev := by obtain ⟨_, _, _, _, _, _, _, rfl⟩ := h; rfl
theorem sys (h : State.driven n s t) : t.sys = s.sys := by obtain ⟨_, _, _, _, _, _, _, rfl⟩ := h; rfl
theorem marks (h : State.driven n s t) : t.marks = s.marks := by obtain ⟨_, _, _, _, _, _, _, rfl⟩ := h; rfl
theorem old (h : State.driven n s t) : t.old = s.old := by obtain ⟨_, _, _, _, _, _, _, rfl⟩ := h; rfl
theorem fld (h : State.driven n s t) (f : Fld) (i j : Nat) : t.fld f i j = s.fld f i j := State.fld_of_regs h.regs f i j
theorem flag (h : State.driven n s t) (f : Fld) (i j : Nat) : t.flag f i j = s.flag f i j := congrArg (· != 0) (h.fld f i j)

/-- One output whose level changes has its edge. -/
theorem edge (n : GenId) (t : State) (x : Fin 2) (b : Bool) (k e : Nat) :
    State.driven n t ((t.setLv k b).modPwm n fun g => { g with edge := vset g.edge x e, edgeB := vset g.edgeB x g.edge[x] }) :=
  (setLv n t k b).trans (modPwm n _ fun g => ⟨g.on, g.lvl, _, _, rfl⟩)
end State.driven

/-- Driving the level sources leaves what waits to turn on and the levels, and shows the trips. -/
theorem State.pwmDrive_spec (s : State) (n : GenId) (e : Nat) : State.driven n s (s.pwmDrive n e) ∧
    (s.pwmDrive n e).pwm[n].on = s.pwm[n].on ∧ (s.pwmDrive n e).pwm[n].lvl = s.pwm[n].lvl ∧
    (s.pwmDrive n e).mx.lv.get (pwmSrc n + 8) false = (s.mode.live && s.flag F.PWMn_STAT_TRIPPED n 0) := by
  obtain ⟨u, hu⟩ : ∃ u, u = ([0, 1] : List (Fin 2)).foldl (fun s x =>
      let v := s.pwmOut n x
      if s.mx.lv.get (pwmSrc n + 9 + x.val) false = v then s
      else (s.setLv (pwmSrc n + 9 + x.val) v).modPwm n fun g => { g with edge := vset g.edge x e, edgeB := vset g.edgeB x g.edge[x] }) s :=
    ⟨_, rfl⟩
  have form : s.pwmDrive n e = u.setLv (pwmSrc n + 8) (u.mode.live && u.flag F.PWMn_STAT_TRIPPED n 0) := by rw [hu]; rfl
  have kept : State.driven n s u ∧ u.pwm[n].on = s.pwm[n].on ∧ u.pwm[n].lvl = s.pwm[n].lvl := by
    rw [hu]
    refine foldl_keeps (fun t => State.driven n s t ∧ t.pwm[n].on = s.pwm[n].on ∧ t.pwm[n].lvl = s.pwm[n].lvl) (fun t x h => ?_) _ _
      ⟨.refl n s, rfl, rfl⟩
    dsimp only
    split
    · exact h
    · obtain ⟨drives, on, lvl⟩ := h
      have own := (t.setLv (pwmSrc n + 9 + x.val) (t.pwmOut n x)).pwm_modPwm_same n fun g =>
        { g with edge := vset g.edge x e, edgeB := vset g.edgeB x g.edge[x] }
      exact ⟨drives.trans (.edge n t x _ _ e), (congrArg PwmSt.on own).trans on, (congrArg PwmSt.lvl own).trans lvl⟩
  obtain ⟨drives, on, lvl⟩ := kept
  have mode : u.mode = s.mode := State.mode_congr (by rw [State.reg, drives.regs]; rfl) drives.marks drives.sys
  rw [form]
  refine ⟨drives.trans (.setLv n u _ _), on, lvl, ?_⟩
  rw [← mode, ← drives.flag F.PWMn_STAT_TRIPPED n 0]
  exact SMap.get_put_same _ _ _ _

namespace State.driven
variable {n : GenId} {s t u : State}

theorem pwmDrive (s : State) (n : GenId) (e : Nat) : State.driven n s (s.pwmDrive n e) := (s.pwmDrive_spec n e).1

theorem pwmTurnOn (s : State) (n : GenId) (b : Bool) (e : Nat) : State.driven n s (s.pwmTurnOn n b e) := by
  unfold State.pwmTurnOn
  dsimp only
  have on := (modPwm n s (f := fun g => { g with on := none, lvl := vset g.lvl (if b then 1 else 0) true }) fun g =>
    ⟨none, _, g.edge, g.edgeB, rfl⟩).trans (pwmDrive _ n e)
  exact ite (on.trans (setLv n _ _ _)) on

theorem pwmDead (s : State) (n : GenId) (b : Bool) (e : Nat) : State.driven n s (s.pwmDead n b e) := by
  refine ite (modPwm n s (f := fun g => { g with on := some ⟨b, e, none, g.dtmin, g.margin, _⟩ }) fun g => ⟨_, g.lvl, g.edge, g.edgeB, rfl⟩)
    (ite (pwmTurnOn s n b e) ?_)
  exact (modPwm n s (f := fun g => { g with on := some ⟨b, e, some (e + if b then s.pwm[n].dtb else s.pwm[n].dta), 0, 0, _⟩ }) fun g =>
    ⟨_, g.lvl, g.edge, g.edgeB, rfl⟩).trans (cal n _ _)
end State.driven

/-! ## Turn-ons -/

/-- The output turns on, with the configuration of the state `s` before. -/
def State.turnedOn (s : State) (n : GenId) (u : State) (b : Bool) (t : Nat) : State :=
  let u := (u.modPwm n fun g => { g with on := none, lvl := vset g.lvl (if b then 1 else 0) true }).pwmDrive n t
  if s.flag F.PWMn_CFG_DTMODE n 0 then u.setLv (pwmSrc n + 5) (b != s.flag F.PWMn_CFG_ALOW n 0) else u

/-- A turn-on in a state that has the same configuration. -/
theorem State.pwmTurnOn_eq {s u : State} {n : GenId} (hd : u.flag F.PWMn_CFG_DTMODE n 0 = s.flag F.PWMn_CFG_DTMODE n 0)
    (ha : u.flag F.PWMn_CFG_ALOW n 0 = s.flag F.PWMn_CFG_ALOW n 0) (b : Bool) (t : Nat) : u.pwmTurnOn n b t = s.turnedOn n u b t := by
  have drives := State.driven.pwmDrive (u.modPwm n fun g => { g with on := none, lvl := vset g.lvl (if b then 1 else 0) true }) n t
  have mode := (drives.flag F.PWMn_CFG_DTMODE n 0).trans hd
  have active := (drives.flag F.PWMn_CFG_ALOW n 0).trans ha
  unfold State.pwmTurnOn State.turnedOn
  dsimp only
  rw [mode, active]

section
variable {s : State} {n : GenId} {w : PwmOn} (h : s.pwm[n].on = some w)
include h

theorem State.pwmOnDue_timed {t : Nat} (ht : w.t = some t) (c : Instr) :
    s.pwmOnDue n w.b c = s.turnedOn n (s.unsched c) w.b (s.pwmOnAt t) := by
  have due : s.pwmOnDue n w.b c = (s.unsched c).pwmTurnOn n w.b (s.pwmOnAt t) := by
    simp only [State.pwmOnDue, h, ht, bne_self_eq_false, Bool.false_eq_true, if_false]
  rw [due]
  exact State.pwmTurnOn_eq (u := s.unsched c) rfl rfl _ _

theorem exec_transitionComplete_on (ht : w.t = none) (ho : w.toff / 256 < s.now) :
    let t := if (w.toff + w.dtmax) / 256 = s.now then w.toff + w.dtmax
      else max (w.toff + w.dtmin) (min (s.now * 256 + w.margin) (w.toff + w.dtmax))
    exec (.transitionComplete n) s = .next
      ((s.modPwm n fun g => { g with on := some { w with t := some t } }).schedAt (t / 256) (.adaptiveTurnOn n w.b)) := by
  change execTransitionComplete n s = _
  simp only [execTransitionComplete, h, ht, ho, Option.isNone_none, decide_true, Bool.and_self, if_true]

theorem exec_dtmaxExpiry_on (ht : w.t = none) : exec (.dtmaxExpiry n) s = .next
    (s.turnedOn n (if w.toff / 256 < s.now ∧ s.pwmTc n = s.pwmDir n then s else s.pwmNoTrans n) w.b (s.pwmOnAt (w.toff + w.dtmax))) := by
  have cfg : ∀ f : Fld, f.reg = .PWMn_CFG → (s.pwmNoTrans n).flag f n 0 = s.flag f n 0 := fun f hf =>
    congrArg (· != 0) (State.fld_bump_ne (s.raiseEv (pwmSrc n + 6)) (f := F.PWMn_ERR_CNT_NOTRANS) (g := f) (by
      rw [hf]; simp only [F.PWMn_ERR_CNT_NOTRANS, RegName.addr, RegName.base, RegName.dims]; omega))
  change execDtmaxExpiry n s = _
  simp only [execDtmaxExpiry, h, ht, Option.isNone_none, if_true, Bool.and_eq_true, decide_eq_true_eq]
  split
  · rw [State.pwmTurnOn_eq (s := s) rfl rfl]
  · rw [State.pwmTurnOn_eq (cfg _ rfl) (cfg _ rfl)]
    rfl
end

/-! ## Trips -/

/-- The pins at the safe pattern: the output stage is off, and what the trips say is shown. -/
theorem State.pwmSafe_spec (s : State) (n : GenId) (lead : Bool) :
    (∃ pwm mx, s.pwmSafe n lead = { s with pwm := pwm, mx := mx, cal := (s.pwmSafe n lead).cal } ∧ mx.dlv = s.mx.dlv ∧
      mx.lv.get (pwmSrc n + 8) false = (s.mode.live && s.flag F.PWMn_STAT_TRIPPED n 0)) ∧
    (s.pwmSafe n lead).pwm[n].safe = true ∧ (s.pwmSafe n lead).pwm[n].on = none ∧
    ∀ m : GenId, m ≠ n → (s.pwmSafe n lead).pwm[m] = s.pwm[m] := by
  obtain ⟨u, hu⟩ : ∃ u, u = s.modPwm n fun g => { g with safe := true, lead := g.lead || lead, on := none, lvl := Vector.replicate 2 false } :=
    ⟨_, rfl⟩
  have form : s.pwmSafe n lead = u.pwmDrive n (s.now * 256) := by rw [hu]; rfl
  have own : u.pwm[n].safe = true ∧ u.pwm[n].on = none := by
    rw [hu, State.pwm_modPwm_same]; exact ⟨rfl, rfl⟩
  have others : ∀ m : GenId, m ≠ n → u.pwm[m] = s.pwm[m] := fun m hm => by rw [hu]; exact s.pwm_modPwm_ne n _ hm
  have mode : u.mode.live = s.mode.live := by rw [hu]; rfl
  have trips : u.flag F.PWMn_STAT_TRIPPED n 0 = s.flag F.PWMn_STAT_TRIPPED n 0 := by rw [hu]; rfl
  have only : ∃ pwm, u = { s with pwm := pwm } := ⟨_, hu⟩
  obtain ⟨drives, on, -, shown⟩ := u.pwmDrive_spec n (s.now * 256)
  rw [form]
  refine ⟨?_, ?_, on.trans own.2, fun m hm => (drives.others hm).trans (others m hm)⟩
  · obtain ⟨_, _, _, _, lv, chg, cal, hd⟩ := drives
    obtain ⟨pwm, ho⟩ := only
    have mx : u.mx = s.mx := by rw [ho]
    rw [hd] at shown ⊢
    exact ⟨_, { s.mx with lv := lv, chg := chg }, by rw [ho], rfl, by rw [← mode, ← trips]; exact shown⟩
  · obtain ⟨_, _, _, _, hg⟩ := drives.gen
    rw [hg]; exact own.1

theorem State.mode_live_sys {s : State} (h : s.mode.live = true) : s.mode = s.sys.mode := by
  unfold State.mode at h ⊢
  split at h
  · exact nomatch h
  next hc => exact if_neg hc

/-- Pins at the safe pattern carry what PWMn_SAFE says. -/
theorem State.pwmPin_safe {s : State} {n : GenId} (hl : s.sys.mode.live = true) (hs : s.pwm[n].safe = true) (x : Fin 2) :
    s.pwmPin n x = match (if x = 0 then s.fld F.PWMn_SAFE_A n 0 else s.fld F.PWMn_SAFE_B n 0) with
      | 0 => some false
      | 1 => some true
      | _ => none := by
  have awake : s.sys.mode ≠ .retention := by rintro h; rw [h] at hl; exact nomatch hl
  unfold State.pwmPin
  rw [if_neg awake, if_neg (by simp [hl]), if_pos hs] <;> rfl

/-- An enabled trip input takes the pins to the safe pattern. -/
theorem exec_pwmTrip_enabled {s : State} {n : GenId} {k : Fin 4} (hl : s.mode.live = true)
    (hk : s.fld F.PWMn_CFG_TRIPEN n 0 / 2 ^ k.val % 2 = 1) : exec (.pwmTrip n k) s = .next
      ((({ s with mx := { s.mx with dlv := s.mx.dlv.put (pwmDst n + k.val) true false } } : State).raiseFld
        ⟨.PWMn_STAT, 4 + k.val, 4 + k.val⟩ n 0 1).pwmSafe n false) := by
  change execPwmTrip n k s = _
  unfold execPwmTrip
  rw [if_pos hl]
  exact if_pos hk

theorem exec_pwmTrip_disabled {s : State} {n : GenId} {k : Fin 4} (hl : s.mode.live = true)
    (hk : s.fld F.PWMn_CFG_TRIPEN n 0 / 2 ^ k.val % 2 = 0) : exec (.pwmTrip n k) s = .next
      { s with mx := { s.mx with dlv := s.mx.dlv.put (pwmDst n + k.val) true false } } := by
  have off : ¬s.fld F.PWMn_CFG_TRIPEN n 0 / 2 ^ k.val % 2 = 1 := by omega
  change execPwmTrip n k s = _
  unfold execPwmTrip
  rw [if_pos hl]
  exact if_neg off

/-- Bit j of TRIPPED. -/
theorem State.tripped_iff (s : State) (n : GenId) {j : Nat} (hj : j < 4) :
    s.fld F.PWMn_STAT_TRIPPED n 0 / 2 ^ j % 2 = 1 ↔ (s.reg .PWMn_STAT n 0).getLsbD (4 + j) = true := by
  have bit := getBits_testBit (s.reg .PWMn_STAT n 0) 7 4 j
  rw [decide_eq_true (show j < 7 + 1 - 4 by omega), Bool.true_and] at bit
  rw [← bit, Nat.testBit_eq_decide_div_mod_eq, decide_eq_true_iff]
  rfl

/-- Bits that a write of TRIPPED clears, by what it asks of each trip. -/
def tripMask (p : Nat → Bool) : Nat := (List.range 4).foldl (fun m k => if p k then m + 2 ^ (4 + k) else m) 0

theorem tripMask_low (p : Nat → Bool) : (BitVec.ofNat 32 (tripMask p)).getLsbD 0 = false := by
  have all : ∀ a b c d : Bool, (BitVec.ofNat 32 (tripMask fun k => match k with
      | 0 => a
      | 1 => b
      | 2 => c
      | _ => d)).getLsbD 0 = false := by decide
  exact all (p 0) (p 1) (p 2) (p 3)

theorem tripMask_bit (p : Nat → Bool) {j : Nat} (hj : j < 4) : (BitVec.ofNat 32 (tripMask p)).getLsbD (4 + j) = p j := by
  have four : tripMask p = tripMask fun k => match k with
      | 0 => p 0
      | 1 => p 1
      | 2 => p 2
      | _ => p 3 := rfl
  have all : ∀ a b c d : Bool, ∀ j < 4, (BitVec.ofNat 32 (tripMask fun k => match k with
      | 0 => a
      | 1 => b
      | 2 => c
      | _ => d)).getLsbD (4 + j) = (match j with
      | 0 => a
      | 1 => b
      | 2 => c
      | _ => d) := by decide
  rw [four, all _ _ _ _ j hj]
  obtain rfl | rfl | rfl | rfl : j = 0 ∨ j = 1 ∨ j = 2 ∨ j = 3 := by omega
  all_goals rfl

/-- What a write of TRIPPED asks of trip k. -/
def State.tripFrees (s : State) (n : GenId) (v : Word) (k : Nat) : Bool :=
  v.getLsbD (4 + k) && decide (s.fld F.PWMn_CFG_TRIPLAT n 0 / 2 ^ k % 2 = 1) && !s.destLv (pwmDst n + k) &&
    !(s.came .PWMn_STAT n 0).getLsbD (4 + k)

/-- Outside the lc of a period start, a clear of trips clears those bits alone. -/
theorem State.tripClear_tripped {s : State} {n : GenId} (v : Word) (hb : s.pwmRuns n = false ∨ s.pwm[n].began ≠ s.now) {j : Nat} (hj : j < 4) :
    (s.tripClear n v).fld F.PWMn_STAT_TRIPPED n 0 / 2 ^ j % 2 = 1 ↔
      s.fld F.PWMn_STAT_TRIPPED n 0 / 2 ^ j % 2 = 1 ∧ s.tripFrees n v j = false := by
  obtain ⟨u, hu⟩ : ∃ u, u = s.setReg .PWMn_STAT n 0 (s.reg .PWMn_STAT n 0 &&& ~~~BitVec.ofNat 32 (tripMask (s.tripFrees n v))) := ⟨_, rfl⟩
  have form : s.tripClear n v = u.tripOver n := by rw [hu]; rfl
  have bits : (u.reg .PWMn_STAT n 0).getLsbD (4 + j) = ((s.reg .PWMn_STAT n 0).getLsbD (4 + j) && !s.tripFrees n v j) := by
    rw [hu, State.reg_setReg_same, BitVec.getLsbD_and, BitVec.getLsbD_not, tripMask_bit _ hj, decide_eq_true (by omega), Bool.true_and]
  have apart : (u.pwmRuns n && u.pwm[n].begins u.now) = false := by
    obtain hr | hb := hb
    · have stat : RegName.SYS_CLK_STAT.addr 0 0 ≠ RegName.PWMn_STAT.addr n 0 := by
        simp only [RegName.addr, RegName.base, RegName.dims]; omega
      have run : u.flag F.PWMn_STAT_RUN n 0 = s.flag F.PWMn_STAT_RUN n 0 := by
        refine congrArg (· != 0) (Nat.eq_of_testBit_eq fun i => ?_)
        have one : ∀ w : Word, (getBits w 0 0).testBit i = (decide (i < 1) && w.getLsbD (0 + i)) := fun w => getBits_testBit w 0 0 i
        refine (one _).trans (Eq.trans ?_ (one _).symm)
        obtain rfl | hi := Nat.eq_zero_or_pos i
        · rw [hu, show F.PWMn_STAT_RUN.reg = .PWMn_STAT from rfl, State.reg_setReg_same, BitVec.getLsbD_and, BitVec.getLsbD_not, tripMask_low]
          simp
        · rw [decide_eq_false (by omega), Bool.false_and, Bool.false_and]
      have mode : u.mode = s.mode := by rw [hu]; exact State.mode_congr (State.reg_setReg_ne _ _ stat) rfl rfl
      have : u.pwmRuns n = s.pwmRuns n := by rw [State.pwmRuns, State.pwmRuns, run, mode]
      rw [this, hr, Bool.false_and]
    · have : u.pwm[n].begins u.now = false := by
        rw [hu, PwmSt.begins]
        exact Bool.and_eq_false_iff.mpr (.inl (decide_eq_false hb))
      rw [this, Bool.and_false]
  have regs : (u.tripOver n).regs = u.regs := by
    unfold State.tripOver
    rw [apart]
    split
    · rfl
    · exact (State.driven.pwmDrive u n _).regs
  rw [form, State.tripped_iff _ n hj, State.reg, regs, State.tripped_iff s n hj]
  exact (Bool.eq_iff_iff.mp bits).trans (by rw [Bool.and_eq_true, Bool.not_eq_true'])

/-- A clear of trips by the owner of the generator's group. -/
theorem exec_trippedClear_own {s : State} {r : Req} {n : GenId} {v : Word} (h : s.admits r .write .PWMn_STAT n 0)
    (ho : r.owns (s.grpOwner (s.grpOf n)) = true) : exec (.trippedClear r n v) s = .next ((s.opened r.master).tripClear n v) := by
  have owner : (s.opened r.master).grpOwner ((s.opened r.master).grpOf n) = s.grpOwner (s.grpOf n) :=
    State.opened_congr (fun t => t.grpOwner (t.grpOf n)) (fun _ _ _ _ => rfl) s r.master
  exact regCmd_next_of (body := fun s => s.pwmOwned r n fun s => s.tripClear n v) h (if_pos (by rw [owner]; exact ho))

/-! ## Delay lines -/

theorem State.dlAdvance_out (s : State) : s.dlAdvance.fld F.PWM_CAL_STAT_OUT 0 0 = (s.fld F.PWM_CAL_STAT_OUT 0 0 + 1) % 32 :=
  (State.fld_setFld_same s F.PWM_CAL_STAT_OUT 0 0 _ (by decide)).trans
    (Nat.mod_eq_of_lt (Nat.lt_of_lt_of_le (Nat.mod_lt _ (by decide)) (by decide)))

theorem State.dlAdvance_apart (s : State) {f : Fld} (hr : f.reg = .PWM_CAL_STAT) (hf : f.hi < 32) (h : f.hi < 0 ∨ 5 < f.lo) :
    s.dlAdvance.fld f 0 0 = s.fld f 0 0 := State.fld_setFld_apart (f := F.PWM_CAL_STAT_OUT) (g := f) s _ hr (by decide) hf h

/-- A replacement falls due: the next after 40,000 lc, one that still waits is skipped. -/
theorem exec_delayLineDue {s : State} (hl : s.mode.live = true) (hf : s.flag F.PWM_CAL_STAT_FAIL 0 0 = false) :
    ∃ t, exec .delayLineDue s = .next t ∧ t.dlWaits = true ∧ (s.now + 40000, Instr.delayLineDue) ∈ t.cal ∧
      t.regs = (if s.dlWaits then s.dlAdvance.bump F.PWM_CAL_STAT_SKIPS 0 0 else s).regs := by
  obtain ⟨u, hu⟩ : ∃ u, u = if s.dlWaits then s.dlAdvance.bump F.PWM_CAL_STAT_SKIPS 0 0 else s := ⟨_, rfl⟩
  have now : u.now = s.now := by rw [hu]; split <;> rfl
  have due : (s.now + 40000, Instr.delayLineDue) ∈ (u.sched 40000 .delayLineDue).cal := State.mem_sched now _ _
  obtain ⟨x, hx⟩ : ∃ x, x = ({ u.sched 40000 .delayLineDue with dlWaits := true } : State) := ⟨_, rfl⟩
  have form : exec .delayLineDue s = .next (if x.dlReady then x.emit .delayLineReplace else x) := by
    change execDelayLineDue s = _
    rw [hx, hu, execDelayLineDue, if_pos (by simp [hl, hf])]
  have waits : x.dlWaits = true := by rw [hx]
  have cal : x.cal = (u.sched 40000 .delayLineDue).cal := by rw [hx]
  have regs : x.regs = u.regs := by rw [hx]; rfl
  rw [← hu]
  refine ⟨_, form, ?_, ?_, ?_⟩
  · split
    · exact waits
    · exact waits
  · split
    · change _ ∈ x.cal
      rw [cal]; exact due
    · rw [cal]; exact due
  · split
    · exact regs
    · exact regs

/-- The replacement that waits takes place where its output has no edge near. -/
theorem exec_delayLineReplace_quiet {s : State} (hl : s.mode.live = true) (hw : s.dlWaits = true)
    (he : s.edgeNear s.dlOut.1 s.dlOut.2 = false) : exec .delayLineReplace s = .next
      { (s.count F.PWM_CAL_STAT_ROUNDS 0 0).dlAdvance with dlWaits := false } := by
  have ready : s.dlReady = true := by rw [State.dlReady, hl, hw, he]; rfl
  change execDelayLineReplace s = _
  rw [execDelayLineReplace, if_pos ready]

theorem exec_delayLineFail_live {s : State} (hl : s.mode.live = true) : exec .delayLineFail s = .next
    { (s.setFld F.PWM_CAL_STAT_FAIL 0 0 1).unsched .delayLineDue with dlWaits := false } := by
  change execDelayLineFail s = _
  rw [execDelayLineFail, if_pos hl]

/-- Settles O32: turn-ons and trips by the output stage, delay lines by their commands. -/
theorem deadTimeTripsDelayLines : Obligations.DeadTimeTripsDelayLines := by
  unfold Obligations.DeadTimeTripsDelayLines
  refine ⟨?_, ?_⟩
  · intro s r n k v w live at_ on
    have turns : ∀ u b t, s.turnedOn n u b t = on u b t := fun _ _ _ => rfl
    have onAt : ∀ t, s.pwmOnAt t = at_ t := fun _ => rfl
    clear_value on at_
    refine ⟨fun h => ⟨fun t ht => ⟨?_, ?_⟩, fun ht ho => exec_transitionComplete_on h ht ho, fun ht => ?_⟩, fun hk => ?_, fun hk =>
      exec_pwmTrip_disabled live hk, fun ha ho hb => ?_⟩
    · rw [← turns, ← onAt, ← State.pwmOnDue_timed h ht]; rfl
    · rw [← turns, ← onAt, ← State.pwmOnDue_timed h ht]; rfl
    · rw [exec_dtmaxExpiry_on h ht, turns, onAt]; rfl
    · obtain ⟨u, hu⟩ : ∃ u, u = (({ s with mx := { s.mx with dlv := s.mx.dlv.put (pwmDst n + k.val) true false } } : State).raiseFld
        ⟨.PWMn_STAT, 4 + k.val, 4 + k.val⟩ n 0 1) := ⟨_, rfl⟩
      have bit : (u.reg .PWMn_STAT n 0).getLsbD (4 + k.val) = true := by
        have form : u.reg .PWMn_STAT n 0 = setBits (s.reg .PWMn_STAT n 0) (4 + k.val) (4 + k.val) 1 := by
          rw [hu]; exact State.reg_setReg_same _ _ _ _ _
        rw [form, setBits_getLsbD _ _ _ _ _ (by omega) (by omega), if_pos ⟨le_rfl, le_rfl⟩, Nat.sub_self]
        rfl
      have tripped := (u.tripped_iff n k.isLt).mpr bit
      have safeFld : ∀ f : Fld, f.reg = .PWMn_SAFE → u.fld f n 0 = s.fld f n 0 := fun f hf => by
        rw [hu]
        exact State.fld_setFld_ne _ (f := ⟨.PWMn_STAT, 4 + k.val, 4 + k.val⟩) (g := f) _ (by
          rw [hf]; simp only [RegName.addr, RegName.base, RegName.dims]; omega)
      have mode : u.mode = s.mode := by
        rw [hu]; exact State.mode_congr (State.reg_setReg_ne _ _ (by simp only [RegName.addr, RegName.base, RegName.dims]; omega)) rfl rfl
      have sys : u.sys = s.sys := by rw [hu]; rfl
      have dlv : u.mx.dlv = s.mx.dlv.put (pwmDst n + k.val) true false := by rw [hu]; rfl
      have others : u.pwm = s.pwm := by rw [hu]; rfl
      obtain ⟨⟨pwm, mx, form, dlv', lit⟩, safe, off, kept⟩ := u.pwmSafe_spec n false
      have regs : (u.pwmSafe n false).regs = u.regs := by rw [form]
      have sys' : (u.pwmSafe n false).sys = s.sys := by rw [form]; exact sys
      have levels : (u.pwmSafe n false).mx = mx := by rw [form]
      have fld := State.fld_of_regs regs
      refine ⟨_, (exec_pwmTrip_enabled live hk).trans (by rw [← hu]), ?_, safe, off, ?_, ?_, fun x => ?_, fun m hm => ?_⟩
      · rw [fld]; exact tripped
      · rw [State.destLv, levels, dlv', dlv]; exact SMap.get_put_same _ _ _ _
      · have nonzero : u.flag F.PWMn_STAT_TRIPPED n 0 = true := bne_iff_ne.mpr fun h => by simp [h] at tripped
        rw [levels, lit, mode, live, nonzero]; rfl
      · rw [State.pwmPin_safe (by rw [sys', ← State.mode_live_sys live]; exact live) safe, fld, fld, safeFld _ rfl, safeFld _ rfl] <;> rfl
      · rw [kept m hm, others]
    · obtain ⟨a, ha'⟩ : ∃ a, a = s.opened r.master := ⟨_, rfl⟩
      have same : ∀ {α : Type} (f : State → α), (∀ (s : State) u c v, f { s with accs := u, cyc := c, ans := v } = f s) → f a = f s :=
        fun f hf => by rw [ha']; exact State.opened_congr f hf s r.master
      have fld : ∀ f, a.fld f n 0 = s.fld f n 0 := fun f => same (·.fld f n 0) fun _ _ _ _ => rfl
      have dest : ∀ d, a.destLv d = s.destLv d := fun d => same (·.destLv d) fun _ _ _ _ => rfl
      have quiet : a.pwmRuns n = false ∨ a.pwm[n].began ≠ a.now := by
        rw [same (·.pwmRuns n) fun _ _ _ _ => rfl, same (·.pwm) fun _ _ _ _ => rfl, same (·.now) fun _ _ _ _ => rfl]
        exact hb
      refine ⟨_, (exec_trippedClear_own ha ho).trans (by rw [← ha']), fun j hj => ?_⟩
      rw [State.tripClear_tripped v quiet hj, fld, ← ha']
      simp only [State.tripFrees, fld, dest, Bool.and_eq_false_iff, decide_eq_false_iff_not, Bool.not_eq_false', not_and_or, Bool.not_eq_true,
        Bool.not_eq_false, or_assoc]
  · intro s live out
    refine ⟨fun hf => ?_, fun hw he => ⟨_, exec_delayLineReplace_quiet live hw he, rfl, ?_, ?_, rfl⟩, _, exec_delayLineFail_live live, ?_, rfl, ?_⟩
    · obtain ⟨t, ht, waits, due, regs⟩ := exec_delayLineDue live hf
      have fld := State.fld_of_regs regs
      refine ⟨t, ht, waits, due, fun hw => ?_, fun hw => ⟨?_, ?_⟩⟩
      · rw [regs, hw]; rfl
      · rw [fld, if_pos hw]
        exact (State.fld_setFld_apart (f := F.PWM_CAL_STAT_SKIPS) (g := F.PWM_CAL_STAT_OUT) _ _ rfl (by decide) (by decide)
          (by decide)).trans s.dlAdvance_out
      · rw [fld, if_pos hw, State.fld_bump_same _ F.PWM_CAL_STAT_SKIPS 0 0 (by decide), s.dlAdvance_apart rfl (by decide) (by decide)]
    · have rounds := State.fld_setFld_apart (f := F.PWM_CAL_STAT_ROUNDS) (g := F.PWM_CAL_STAT_OUT) s (i := 0) (j := 0)
        (s.fld F.PWM_CAL_STAT_ROUNDS 0 0 + 1) rfl (by decide) (by decide) (by decide)
      exact (State.dlAdvance_out _).trans (congrArg (fun x => (x + 1) % 32) rounds)
    · exact (State.dlAdvance_apart _ rfl (by decide) (by decide)).trans (State.fld_setFld_same s F.PWM_CAL_STAT_ROUNDS 0 0 _ (by decide))
    · exact congrArg (· != 0) (State.fld_setFld_same s F.PWM_CAL_STAT_FAIL 0 0 1 (by decide))
    · intro e he
      exact of_decide_eq_true (List.mem_filter.mp he).2

end Sys2Proof.Machine
end

