-- ==== Sys2Proof/Proofs/PwmPeriods.lean ====
section
/-! PROOF. Periods and load-all copies of PWM generators: what a period start, a copy and a group's strobe change (R113 to R122). -/

namespace Sys2Proof.Machine

/-! ## One generator and its registers -/

/-- Only generator n, its registers at the addresses of `P`, the levels, the calendar and marks of ports change; what waits for a load point
stays. -/
def State.genOnly (P : Nat → Prop) (n : GenId) (s t : State) : Prop :=
  (∃ pwm regs mx cal marks, t = { s with pwm := pwm, regs := regs, mx := mx, cal := cal, marks := marks }) ∧
  (∀ m : GenId, m ≠ n → t.pwm[m] = s.pwm[m]) ∧ t.pwm[n].pend = s.pwm[n].pend ∧
  (∀ q k l, ¬P (q.addr k l) → t.reg q k l = s.reg q k l) ∧ ∀ a, t.marked a false = s.marked a false

namespace State.genOnly
variable {P Q : Nat → Prop} {n : GenId} {s t u : State}

theorem refl (P : Nat → Prop) (n : GenId) (s : State) : State.genOnly P n s s :=
  ⟨⟨s.pwm, s.regs, s.mx, s.cal, s.marks, rfl⟩, fun _ _ => rfl, rfl, fun _ _ _ _ => rfl, fun _ => rfl⟩

theorem trans (h : State.genOnly P n s t) (g : State.genOnly P n t u) : State.genOnly P n s u := by
  obtain ⟨⟨_, _, _, _, _, ht⟩, others, pend, reg, marked⟩ := h
  obtain ⟨⟨_, _, _, _, _, hu⟩, others', pend', reg', marked'⟩ := g
  exact ⟨⟨_, _, _, _, _, by rw [hu, ht]⟩, fun m hm => (others' m hm).trans (others m hm), pend'.trans pend,
    fun q k l hq => (reg' q k l hq).trans (reg q k l hq), fun a => (marked' a).trans (marked a)⟩

theorem mono (h : State.genOnly P n s t) (hPQ : ∀ a, P a → Q a) : State.genOnly Q n s t := by
  obtain ⟨only, others, pend, reg, marked⟩ := h
  exact ⟨only, others, pend, fun q k l hq => reg q k l fun hP => hq (hPQ _ hP), marked⟩

theorem of_driven (h : State.driven n s t) : State.genOnly P n s t := by
  obtain ⟨on, lvl, e, eb, hg⟩ := h.gen
  refine ⟨?_, fun m hm => h.others hm, by rw [hg]; rfl, fun q k l _ => by rw [State.reg, h.regs]; rfl, fun a => by
    rw [State.marked, h.marks]; rfl⟩
  obtain ⟨_, _, _, _, _, _, _, rfl⟩ := h
  exact ⟨_, _, _, _, _, rfl⟩

theorem setReg (t : State) {r : RegName} {i j : Nat} (v : Word) (h : P (r.addr i j)) : State.genOnly P n t (t.setReg r i j v) :=
  ⟨⟨_, _, _, _, _, rfl⟩, fun _ _ => rfl, rfl, fun q k l hq => State.reg_setReg_ne _ _ fun he => hq (by rw [he]; exact h), fun _ => rfl⟩

theorem setFld (t : State) {f : Fld} {i j : Nat} (v : Nat) (h : P (f.reg.addr i j)) : State.genOnly P n t (t.setFld f i j v) := setReg t _ h

theorem modPwm (P : Nat → Prop) (t : State) (n : GenId) {f : PwmSt → PwmSt} (h : (f t.pwm[n]).pend = t.pwm[n].pend) :
    State.genOnly P n t (t.modPwm n f) :=
  ⟨⟨_, _, _, _, _, rfl⟩, fun _ hm => t.pwm_modPwm_ne n f hm, (congrArg PwmSt.pend (t.pwm_modPwm_same n f)).trans h, fun _ _ _ _ => rfl,
    fun _ => rfl⟩

theorem cal (P : Nat → Prop) (n : GenId) (t : State) (c : List (Nat × Instr)) : State.genOnly P n t { t with cal := c } :=
  ⟨⟨_, _, _, _, _, rfl⟩, fun _ _ => rfl, rfl, fun _ _ _ _ => rfl, fun _ => rfl⟩

theorem mark (P : Nat → Prop) (n : GenId) (t : State) (a : Nat) : State.genOnly P n t (t.mark a true) := by
  refine ⟨⟨_, _, _, _, _, rfl⟩, fun _ _ => rfl, rfl, fun _ _ _ _ => rfl, fun b => ?_⟩
  simp [State.marked, State.mark]

theorem others (h : State.genOnly P n s t) {m : GenId} (hm : m ≠ n) : t.pwm[m] = s.pwm[m] := h.2.1 m hm
theorem pend (h : State.genOnly P n s t) : t.pwm[n].pend = s.pwm[n].pend := h.2.2.1
theorem reg (h : State.genOnly P n s t) {q : RegName} {k l : Nat} (hq : ¬P (q.addr k l)) : t.reg q k l = s.reg q k l := h.2.2.2.1 q k l hq
theorem marked (h : State.genOnly P n s t) (a : Nat) : t.marked a false = s.marked a false := h.2.2.2.2 a
theorem now (h : State.genOnly P n s t) : t.now = s.now := by obtain ⟨⟨_, _, _, _, _, rfl⟩, _⟩ := h; rfl
theorem old (h : State.genOnly P n s t) : t.old = s.old := by obtain ⟨⟨_, _, _, _, _, rfl⟩, _⟩ := h; rfl
theorem sys (h : State.genOnly P n s t) : t.sys = s.sys := by obtain ⟨⟨_, _, _, _, _, rfl⟩, _⟩ := h; rfl
end State.genOnly

/-- The address of PWMn_STAT. -/
def atPwmStat (n : GenId) (a : Nat) : Prop := a = RegName.PWMn_STAT.addr n 0

/-- The addresses of the registers that a generator's periods and copies change. -/
def atPwmOwn (n : GenId) (a : Nat) : Prop :=
  a = RegName.PWMn_STAT.addr n 0 ∨ a = RegName.PWMn_PER_ACT.addr n 0 ∨ a = RegName.PWMn_CMPA_ACT.addr n 0 ∨
    a = RegName.PWMn_CMPB_ACT.addr n 0

theorem atPwmOwn_iff (n : GenId) (a : Nat) : atPwmOwn n a ↔
    a = 0x40200044 + 0x1000 * n.val ∨ a = 0x40200060 + 0x1000 * n.val ∨ a = 0x40200064 + 0x1000 * n.val ∨ a = 0x40200068 + 0x1000 * n.val := by
  simp only [atPwmOwn, RegName.addr, RegName.base, RegName.dims]
  omega

theorem atPwmOwn_of_stat {n : GenId} {a : Nat} (h : atPwmStat n a) : atPwmOwn n a := .inl h

/-! ## Segments and periods -/

section
variable (s : State) (n : GenId)

theorem State.pwmArm_cal (x : Fin 2) : ∃ c, s.pwmArm n x = { s with cal := c } := by
  unfold State.pwmArm
  dsimp only
  split
  · split <;> exact ⟨_, rfl⟩
  · exact ⟨_, rfl⟩

theorem State.pwmArmTrg_cal (k : Fin 2) : ∃ c, s.pwmArmTrg n k = { s with cal := c } := by
  unfold State.pwmArmTrg
  dsimp only
  split
  · split <;> exact ⟨_, rfl⟩
  · exact ⟨_, rfl⟩

theorem State.pwmArmAll_cal : ∃ c, s.pwmArmAll n = { s with cal := c } := by
  obtain ⟨a, ha⟩ := s.pwmArm_cal n 0
  obtain ⟨b, hb⟩ := (s.pwmArm n 0).pwmArm_cal n 1
  obtain ⟨c, hc⟩ := ((s.pwmArm n 0).pwmArm n 1).pwmArmTrg_cal n 0
  obtain ⟨d, hd⟩ := (((s.pwmArm n 0).pwmArm n 1).pwmArmTrg n 0).pwmArmTrg_cal n 1
  exact ⟨d, by rw [State.pwmArmAll, hd, hc, hb, ha]⟩

/-- A generator whose segment begins. -/
def PwmSt.segmented (g : PwmSt) (fixed : Bool) : PwmSt :=
  { g with fired := Vector.replicate 2 false, firedT := Vector.replicate 2 false, first := some (fixed || g.first = some true) }

theorem State.pwmSegment_cal (fixed : Bool) : ∃ c, s.pwmSegment n fixed = { s.modPwm n (·.segmented fixed) with cal := c } :=
  (s.modPwm n (·.segmented fixed)).pwmArmAll_cal n

/-- A generator whose period begins, from count 0 or from PHASE. -/
def State.newPeriod (phased : Bool) (g : PwmSt) : PwmSt :=
  let mode := s.fld F.PWMn_CFG_MODE n 0
  let k0 := if phased then s.phaseStep n else 0
  { g with
    began := s.now
    k0 := k0
    phased := phased
    jumped := false
    mode := mode
    pre := s.fld F.PWMn_CFG_PRE n 0
    per := s.perAct n
    pmin := g.actPmin
    down := decide (mode = 3 ∧ s.perAct n ≤ k0)
    follow := g.follow || s.flag F.PWMn_STAT_WAIT n 0
    endSeen := none
    pstart := s.marked (pstartMark n) true
    ended := none }

/-- A period begins, before its end is on the calendar. -/
def State.pwmOpens (phased : Bool) : State :=
  ((((s.modPwm n (s.newPeriod n phased)).setFld F.PWMn_STAT_RUN n 0 1).setFld F.PWMn_STAT_WAIT n 0 0).unschedAll (pwmTimed n)).pwmSegment n true

/-- The timed commands of a period that has begun from step k0. -/
def State.pwmTimes (k0 : Nat) : State :=
  let g := s.pwm[n]
  if g.variable then
    s.schedAt (g.stepLc (s.fld F.PWMn_LASTPER_LASTPER n 0 * s.fld F.PWMn_PHFRAC_FRAC n 0 / 65536)) (.phaseEvent n)
  else
    let s := s.schedAt (g.stepLc g.len) (.pwmPeriodStart n)
    if g.midStep < k0 then s else s.schedAt (g.stepLc g.midStep) (.pwmPeriodMiddle n)

theorem State.pwmTimes_cal (k0 : Nat) : ∃ c, s.pwmTimes n k0 = { s with cal := c } := by
  unfold State.pwmTimes
  dsimp only
  split
  · exact ⟨_, rfl⟩
  · split <;> exact ⟨_, rfl⟩

theorem State.pwmBegin_runs {phased : Bool} (hm : s.fld F.PWMn_CFG_MODE n 0 ≠ 0) :
    s.pwmBegin n phased = (s.pwmOpens n phased).pwmTimes n (if phased then s.phaseStep n else 0) := by
  unfold State.pwmBegin
  dsimp only
  rw [if_neg hm]
  rfl

theorem State.pwmBegin_stops {phased : Bool} (hm : s.fld F.PWMn_CFG_MODE n 0 = 0) :
    s.pwmBegin n phased = (s.pwmHalt n (0, false)).mark (haltMark n) true := by
  unfold State.pwmBegin
  dsimp only
  rw [if_pos hm]

/-- A period that begins: its generator, RUN and WAIT, and the calendar. -/
theorem State.pwmOpens_form (phased : Bool) : ∃ c, s.pwmOpens n phased =
    { (s.setFld F.PWMn_STAT_RUN n 0 1).setFld F.PWMn_STAT_WAIT n 0 0 with
      pwm := vset s.pwm n ((s.newPeriod n phased s.pwm[n]).segmented true), cal := c } := by
  obtain ⟨c, hc⟩ := ((((s.modPwm n (s.newPeriod n phased)).setFld F.PWMn_STAT_RUN n 0 1).setFld F.PWMn_STAT_WAIT n 0 0).unschedAll
    (pwmTimed n)).pwmSegment_cal n true
  have twice : vmod (vset s.pwm n (s.newPeriod n phased s.pwm[n])) n (·.segmented true) =
      vset s.pwm n ((s.newPeriod n phased s.pwm[n]).segmented true) := by
    rw [vmod, show (vset s.pwm n (s.newPeriod n phased s.pwm[n]))[n] = s.newPeriod n phased s.pwm[n] from vset_getElem_same _ _ _, vset_vset]
  refine ⟨c, hc.trans ?_⟩
  rw [← twice]
  rfl

theorem State.pwmBegin_form {phased : Bool} (hm : s.fld F.PWMn_CFG_MODE n 0 ≠ 0) : ∃ c, s.pwmBegin n phased =
    { (s.setFld F.PWMn_STAT_RUN n 0 1).setFld F.PWMn_STAT_WAIT n 0 0 with
      pwm := vset s.pwm n ((s.newPeriod n phased s.pwm[n]).segmented true), cal := c } := by
  obtain ⟨c, hc⟩ := s.pwmOpens_form n phased
  obtain ⟨d, hd⟩ := (s.pwmOpens n phased).pwmTimes_cal n (if phased then s.phaseStep n else 0)
  exact ⟨d, by rw [s.pwmBegin_runs n hm, hd, hc]⟩

/-- What stands after a period has begun. -/
theorem State.pwmBegin_spec {phased : Bool} (hm : s.fld F.PWMn_CFG_MODE n 0 ≠ 0) :
    (s.pwmBegin n phased).pwm[n] = (s.newPeriod n phased s.pwm[n]).segmented true ∧
    (s.pwmBegin n phased).flag F.PWMn_STAT_RUN n 0 = true ∧ (s.pwmBegin n phased).mx = s.mx ∧
    State.genOnly (atPwmStat n) n s (s.pwmBegin n phased) := by
  obtain ⟨c, hc⟩ := s.pwmBegin_form n (phased := phased) hm
  have own : (s.pwmBegin n phased).pwm[n] = (s.newPeriod n phased s.pwm[n]).segmented true := by
    rw [hc]; exact vset_getElem_same _ _ _
  have regs : (s.pwmBegin n phased).regs = ((s.setFld F.PWMn_STAT_RUN n 0 1).setFld F.PWMn_STAT_WAIT n 0 0).regs := by rw [hc]
  refine ⟨own, ?_, by rw [hc]; rfl, ⟨_, _, _, _, _, hc⟩, fun m hm => ?_, by rw [own]; rfl, fun q k l hq => ?_, fun a => by rw [hc]; rfl⟩
  · rw [State.flag, State.fld_of_regs regs]
    exact congrArg (· != 0) <| (State.fld_setFld_apart (f := F.PWMn_STAT_WAIT) (g := F.PWMn_STAT_RUN) _ _ rfl (by decide) (by decide) (by decide)).trans
      (State.fld_setFld_same s F.PWMn_STAT_RUN n 0 1 (by decide))
  · rw [hc]; exact vset_getElem_ne _ _ hm.symm
  · rw [State.reg, regs]
    exact (State.reg_setReg_ne _ _ hq).trans (State.reg_setReg_ne _ _ hq)

theorem State.pwmHalt_only (held : Nat × Bool) : State.genOnly (atPwmStat n) n s (s.pwmHalt n held) := by
  have halted := State.genOnly.modPwm (atPwmStat n) s n (f := fun g => { g with
    held := held, ended := none, endSeen := none, pstart := false, first := some true, follow := false }) rfl
  exact ((halted.trans (.setFld (f := F.PWMn_STAT_RUN) _ 0 rfl)).trans (.setFld (f := F.PWMn_STAT_WAIT) _ 0 rfl)).trans (.cal _ _ _ _)

theorem State.pwmBegin_only (phased : Bool) : State.genOnly (atPwmStat n) n s (s.pwmBegin n phased) := by
  by_cases hm : s.fld F.PWMn_CFG_MODE n 0 = 0
  · rw [s.pwmBegin_stops n hm]
    exact (s.pwmHalt_only n _).trans (.mark _ _ _ _)
  · exact (s.pwmBegin_spec n hm).2.2.2

theorem State.pwmSegment_only (P : Nat → Prop) (fixed : Bool) : State.genOnly P n s (s.pwmSegment n fixed) := by
  obtain ⟨c, hc⟩ := s.pwmSegment_cal n fixed
  rw [hc]
  exact (State.genOnly.modPwm P s n rfl).trans (.cal _ _ _ _)

theorem State.pwmEffect_only : State.genOnly (atPwmStat n) n s (s.pwmEffect n) := by
  unfold State.pwmEffect
  split
  · dsimp only
    split
    · exact s.pwmBegin_only n _
    · split
      · exact s.pwmSegment_only n _ false
      · obtain ⟨c, hc⟩ := s.pwmArmAll_cal n
        rw [hc]
        exact .cal _ _ _ _
  · exact .refl _ _ _

/-! ## Copies of the shadows -/

/-- The shadows as they stood at the start of the lc are the values in force. -/
def State.copiedFrom (t : State) : Prop := t.reg .PWMn_PER_ACT n 0 = s.oldReg .PWMn_PER n 0 ∧
  t.reg .PWMn_CMPA_ACT n 0 = s.oldReg .PWMn_CMPA n 0 ∧ t.reg .PWMn_CMPB_ACT n 0 = s.oldReg .PWMn_CMPB n 0

/-- The registers of a copy. -/
def State.pwmLoaded : State :=
  ((s.setReg .PWMn_PER_ACT n 0 (s.oldReg .PWMn_PER n 0)).setReg .PWMn_CMPA_ACT n 0 (s.oldReg .PWMn_CMPA n 0)).setReg .PWMn_CMPB_ACT n 0
    (s.oldReg .PWMn_CMPB n 0)

/-- The values of a copy that no register shows. -/
def State.shadowed (g : PwmSt) : PwmSt :=
  { g with
    actPmin := s.oldFld F.PWMn_PMIN_PMIN n 0
    trg := Vector.ofFn fun k => if k = 0 then s.oldReg .PWMn_TRG0 n 0 else s.oldReg .PWMn_TRG1 n 0
    dta := getBits (s.oldReg .PWMn_DTA n 0) 19 0
    dtb := getBits (s.oldReg .PWMn_DTB n 0) 19 0
    dtmin := getBits (s.oldReg .PWMn_DTMIN n 0) 19 0
    margin := getBits (s.oldReg .PWMn_MARGIN n 0) 19 0 }

theorem State.pwmTake_eq : s.pwmTake n = match s.pwm[n].on with
    | some p => if p.toff / 256 = s.now then ((s.pwmLoaded n).modPwm n (s.shadowed n)).pwmDead n p.b p.toff
      else (s.pwmLoaded n).modPwm n (s.shadowed n)
    | none => (s.pwmLoaded n).modPwm n (s.shadowed n) := by
  have own : ((s.pwmLoaded n).modPwm n (s.shadowed n)).pwm[n].on = s.pwm[n].on := by
    rw [State.pwm_modPwm_same]; rfl
  rw [← own]
  rfl

theorem State.pwmLoaded_copied : s.copiedFrom n (s.pwmLoaded n) := by
  have ab : RegName.PWMn_CMPA_ACT.addr n 0 ≠ RegName.PWMn_CMPB_ACT.addr n 0 := by
    simp only [RegName.addr, RegName.base, RegName.dims]; omega
  have pa : RegName.PWMn_PER_ACT.addr n 0 ≠ RegName.PWMn_CMPA_ACT.addr n 0 := by
    simp only [RegName.addr, RegName.base, RegName.dims]; omega
  have pb : RegName.PWMn_PER_ACT.addr n 0 ≠ RegName.PWMn_CMPB_ACT.addr n 0 := by
    simp only [RegName.addr, RegName.base, RegName.dims]; omega
  refine ⟨?_, ?_, State.reg_setReg_same _ _ _ _ _⟩
  · exact (State.reg_setReg_ne _ _ pb).trans ((State.reg_setReg_ne _ _ pa).trans (State.reg_setReg_same _ _ _ _ _))
  · exact (State.reg_setReg_ne _ _ ab).trans (State.reg_setReg_same _ _ _ _ _)

theorem State.pwmLoaded_only : State.genOnly (atPwmOwn n) n s (s.pwmLoaded n) :=
  ((State.genOnly.setReg s _ (.inr (.inl rfl))).trans (.setReg _ _ (.inr (.inr (.inl rfl))))).trans (.setReg _ _ (.inr (.inr (.inr rfl))))

/-- A copy: the registers of the copied values, the generator with the values no register shows, its output stage as dead time has it. -/
theorem State.pwmTake_drives : State.driven n ((s.pwmLoaded n).modPwm n (s.shadowed n)) (s.pwmTake n) := by
  rw [s.pwmTake_eq n]
  split
  · split
    · exact .pwmDead _ n _ _
    · exact .refl n _
  · exact .refl n _

theorem State.pwmTake_only : State.genOnly (atPwmOwn n) n s (s.pwmTake n) :=
  ((s.pwmLoaded_only n).trans (.modPwm _ _ n rfl)).trans (.of_driven (s.pwmTake_drives n))

theorem State.pwmTake_copied : s.copiedFrom n (s.pwmTake n) := by
  have kept : ∀ q k l, (s.pwmTake n).reg q k l = (s.pwmLoaded n).reg q k l := fun q k l => by
    rw [State.reg, (s.pwmTake_drives n).regs]; rfl
  obtain ⟨per, a, b⟩ := s.pwmLoaded_copied n
  exact ⟨(kept _ _ _).trans per, (kept _ _ _).trans a, (kept _ _ _).trans b⟩

theorem State.copiedFrom.of_regs {s t u : State} {n : GenId} (h : s.copiedFrom n t)
    (hr : ∀ r ∈ [RegName.PWMn_PER_ACT, .PWMn_CMPA_ACT, .PWMn_CMPB_ACT], u.reg r n 0 = t.reg r n 0) : s.copiedFrom n u :=
  ⟨(hr _ (by simp)).trans h.1, (hr _ (by simp)).trans h.2.1, (hr _ (by simp)).trans h.2.2⟩

theorem act_not_stat {n m : GenId} {r : RegName} (h : r ∈ [RegName.PWMn_PER_ACT, .PWMn_CMPA_ACT, .PWMn_CMPB_ACT]) :
    ¬atPwmStat n (r.addr m 0) := by
  simp only [List.mem_cons, List.not_mem_nil, or_false] at h
  obtain rfl | rfl | rfl := h <;> simp only [atPwmStat, RegName.addr, RegName.base, RegName.dims] <;> omega

theorem State.pwmCopy_only : State.genOnly (atPwmOwn n) n s (s.pwmCopy n) :=
  (s.pwmTake_only n).trans (((s.pwmTake n).pwmEffect_only n).mono fun _ => atPwmOwn_of_stat)

theorem State.pwmCopy_copied : s.copiedFrom n (s.pwmCopy n) :=
  (s.pwmTake_copied n).of_regs fun _ hr => ((s.pwmTake n).pwmEffect_only n).reg (act_not_stat hr)
end

/-! ## Groups -/

/-- What stays of generator m and of what no generator's periods change. -/
def State.sparesGen (m : GenId) (s t : State) : Prop :=
  t.now = s.now ∧ t.old = s.old ∧ t.sys = s.sys ∧ (∀ a, t.marked a false = s.marked a false) ∧ t.pwm[m] = s.pwm[m] ∧
    ∀ q k l, (∀ n : GenId, n ≠ m → ¬atPwmOwn n (q.addr k l)) → t.reg q k l = s.reg q k l

namespace State.sparesGen
variable {m n : GenId} {s t u : State}

theorem refl (m : GenId) (s : State) : State.sparesGen m s s := ⟨rfl, rfl, rfl, fun _ => rfl, rfl, fun _ _ _ _ => rfl⟩

theorem trans (h : State.sparesGen m s t) (g : State.sparesGen m t u) : State.sparesGen m s u := by
  obtain ⟨now, old, sys, marked, pwm, reg⟩ := h
  obtain ⟨now', old', sys', marked', pwm', reg'⟩ := g
  exact ⟨now'.trans now, old'.trans old, sys'.trans sys, fun a => (marked' a).trans (marked a), pwm'.trans pwm,
    fun q k l hq => (reg' q k l hq).trans (reg q k l hq)⟩

theorem of_genOnly (h : State.genOnly (atPwmOwn n) n s t) (hn : n ≠ m) : State.sparesGen m s t :=
  ⟨h.now, h.old, h.sys, h.marked, h.others hn.symm, fun _ _ _ hq => h.reg (hq n hn)⟩

/-- Its own registers stay. -/
theorem own (h : State.sparesGen m s t) {q : RegName} (hq : q.addr m 0 / 0x1000 = 0x40200 + m.val) : t.reg q m 0 = s.reg q m 0 := by
  obtain ⟨-, -, -, -, -, reg⟩ := h
  refine reg q m 0 fun n hn ho => ?_
  have := Fin.val_ne_of_ne hn
  rw [atPwmOwn_iff] at ho
  omega

/-- Registers outside the generators stay. -/
theorem common (h : State.sparesGen m s t) {q : RegName} {k l : Nat} (hq : q.addr k l < 0x40200000 ∨ 0x40210000 ≤ q.addr k l) :
    t.reg q k l = s.reg q k l := by
  obtain ⟨-, -, -, -, -, reg⟩ := h
  refine reg q k l fun n _ ho => ?_
  rw [atPwmOwn_iff] at ho
  omega

theorem mode (h : State.sparesGen m s t) : t.mode = s.mode := by
  have clock := h.common (q := .SYS_CLK_STAT) (k := 0) (l := 0) (.inr (by decide))
  obtain ⟨-, -, sys, marked, -, -⟩ := h
  have lost : t.flag F.SYS_CLK_STAT_CLK_LOST 0 0 = s.flag F.SYS_CLK_STAT_CLK_LOST 0 0 := congrArg (fun w => getBits w _ _ != 0) clock
  rw [State.mode, State.mode, lost, marked, sys]

theorem pwmRuns (h : State.sparesGen m s t) : t.pwmRuns m = s.pwmRuns m := by
  have stat := h.own (q := .PWMn_STAT) (by simp only [RegName.addr, RegName.base, RegName.dims]; omega)
  have run : t.flag F.PWMn_STAT_RUN m 0 = s.flag F.PWMn_STAT_RUN m 0 := congrArg (fun w => getBits w _ _ != 0) stat
  rw [State.pwmRuns, State.pwmRuns, run, h.mode]

theorem begins (h : State.sparesGen m s t) : t.pwm[m].begins t.now = s.pwm[m].begins s.now := by
  obtain ⟨now, -, -, -, pwm, -⟩ := h
  rw [pwm, now]

theorem copied (h : State.sparesGen m s t) (hc : u.copiedFrom m s) : u.copiedFrom m t := by
  refine hc.of_regs fun r hr => h.own ?_
  simp only [List.mem_cons, List.not_mem_nil, or_false] at hr
  obtain rfl | rfl | rfl := hr <;> simp only [RegName.addr, RegName.base, RegName.dims] <;> omega
end State.sparesGen

theorem State.copiedFrom.of_old {s t u : State} {n : GenId} (h : t.copiedFrom n u) (ho : t.old = s.old) : s.copiedFrom n u := by
  obtain ⟨per, a, b⟩ := h
  simp only [State.oldReg, ho] at per a b
  exact ⟨per, a, b⟩

theorem State.grpMembers_nodup (s : State) (k : Nat) : (s.grpMembers k).Nodup := (List.nodup_finRange 16).filter _

/-- A fold over generators, each step of which concerns its own. -/
theorem foldl_gen {f : State → GenId → State} (hf : ∀ t n, State.genOnly (atPwmOwn n) n t (f t n)) {l : List GenId} (hl : l.Nodup) (s : State)
    {m : GenId} (hm : m ∈ l) : ∃ u, State.sparesGen m s u ∧ State.sparesGen m (f u m) (l.foldl f s) :=
  foldl_focus (State.sparesGen m) (State.sparesGen.refl m) (fun h g => h.trans g) hl hm (fun n hn t => .of_genOnly (hf t n) hn) s

end Sys2Proof.Machine
end

