-- ==== Sys2Proof/Proofs/PwmLoads.lean ====
section
/-! PROOF. Load-all strobes, compare ports and starts of the PWM generators (R115, R120 to R122, R137). -/

namespace Sys2Proof.Machine

/-! ## Masks -/

theorem grpOf_lt (s : State) (n : GenId) : s.grpOf n < 16 := getBits_lt _ _ _

/-- The bits of a word whose low half names one bit. -/
theorem oneBit_filter {v : Word} {k : Nat} (hk : k < 16) (hv : v.toNat % 65536 = 2 ^ k) :
    ((List.range 16).filter fun i => v.getLsbD i) = [k] := by
  have bit : ∀ i < 16, v.getLsbD i = decide (i = k) := by
    intro i hi
    have low : v.getLsbD i = (2 ^ k).testBit i := by
      rw [← hv, show (65536 : Nat) = 2 ^ 16 from rfl, Nat.testBit_mod_two_pow, decide_eq_true hi, Bool.true_and, BitVec.testBit_toNat]
    rw [low, Nat.testBit_two_pow]
    exact decide_eq_decide.mpr eq_comm
  rw [List.filter_congr fun i hi => bit i (List.mem_range.mp hi)]
  have all : ∀ k < 16, ((List.range 16).filter fun i => decide (i = k)) = [k] := by decide
  exact all k hk

/-- A mask that names one resource, whose owner writes. -/
theorem State.ownedBits_own {s : State} {r : Req} {own : Nat → Tenant} {v : Word} {k : Nat} (hk : k < 16) (hv : v.toNat % 65536 = 2 ^ k)
    (ho : r.owns (own k) = true) : s.ownedBits r own v = (2 ^ k, s) := by
  have mine : ([k].filter fun k => r.owns (own k)) = [k] := by simp [ho]
  simp only [State.ownedBits, oneBit_filter hk hv, mine, List.foldl_cons, List.foldl_nil, Nat.lt_irrefl, if_false, Nat.zero_add]

/-- A mask that names one resource, of another tenant. -/
theorem State.ownedBits_foreign {s : State} {r : Req} {own : Nat → Tenant} {v : Word} {k : Nat} (hk : k < 16) (hv : v.toNat % 65536 = 2 ^ k)
    (ho : r.owns (own k) = false) : s.ownedBits r own v = (0, s.bump F.PTU_FOREIGN_CNT_COUNT 0 0) := by
  have mine : ([k].filter fun k => r.owns (own k)) = [] := by simp [ho]
  simp only [State.ownedBits, oneBit_filter hk hv, mine, List.foldl_nil, List.length_nil, List.length_singleton, Nat.zero_lt_one, if_true]
  rfl

/-! ## Strobes -/

theorem State.loadAll_live {s : State} (hl : s.mode.live = true) (hf : s.pwmRefuses = false) (m : Nat) :
    s.loadAll m = { s with strobe := s.strobe ||| BitVec.ofNat 16 m } := if_neg (by simp [hl, hf])

section
variable {s : State} {r : Req} {v : Word} {k : Nat} (hl : s.mode.live = true) (hf : s.pwmRefuses = false) (hk : k < 16)
  (hv : v.toNat % 65536 = 2 ^ k) (ha : s.admits r .write .PWM_LOADALL 0 0)
include hl hf hk hv ha

theorem exec_pwmLoadall_own (ho : r.owns (s.grpOwner k) = true) : exec (.pwmLoadall r v) s = .next
    { s.opened r.master with strobe := s.strobe ||| BitVec.ofNat 16 (2 ^ k) } := by
  have owner : (s.opened r.master).grpOwner k = s.grpOwner k := State.opened_congr (·.grpOwner k) (fun _ _ _ _ => rfl) s r.master
  have live : (s.opened r.master).mode.live = true := by rw [State.mode_opened]; exact hl
  have free : (s.opened r.master).pwmRefuses = false := (State.opened_congr State.pwmRefuses (fun _ _ _ _ => rfl) s r.master).trans hf
  have strobe : (s.opened r.master).strobe = s.strobe := State.opened_congr State.strobe (fun _ _ _ _ => rfl) s r.master
  refine regCmd_next_of (body := fun s => s.loadAllWrite r v) ha ?_
  rw [State.loadAllWrite, State.ownedBits_own hk hv (by rw [owner]; exact ho), State.loadAll_live live free, strobe]

omit hl hf in
theorem exec_pwmLoadall_foreign (ho : r.owns (s.grpOwner k) = false) : exec (.pwmLoadall r v) s = .next
    ((s.opened r.master).bump F.PTU_FOREIGN_CNT_COUNT 0 0) := by
  have owner : (s.opened r.master).grpOwner k = s.grpOwner k := State.opened_congr (·.grpOwner k) (fun _ _ _ _ => rfl) s r.master
  refine regCmd_next_of (body := fun s => s.loadAllWrite r v) ha ?_
  rw [State.loadAllWrite, State.ownedBits_foreign hk hv (by rw [owner]; exact ho)]
  unfold State.loadAll
  split
  · rfl
  · have none : (s.opened r.master).strobe ||| BitVec.ofNat 16 0 = (s.opened r.master).strobe := BitVec.or_zero
    exact congrArg (fun x => ({ (s.opened r.master).bump F.PTU_FOREIGN_CNT_COUNT 0 0 with strobe := x } : State)) none
end

theorem setWidth_getBits (w : Word) : BitVec.ofNat 16 (getBits w 15 0) = w.setWidth 16 := by
  apply BitVec.eq_of_toNat_eq
  simp [getBits]

/-- The strobe of an lc that names one group takes place for it. -/
theorem State.strobeAll_one {s : State} {k : Nat} (hk : k < 16) (hs : s.strobe = BitVec.ofNat 16 (2 ^ k)) :
    s.strobeAll = if s.marked (RegName.PWM_GRPk_CFG.addr k 0) true then { s with strobe := 0 }
      else (({ s with strobe := 0 } : State).mark (RegName.PWM_GRPk_CFG.addr k 0) true).grpStrobe k := by
  have bits : ∀ k < 16, ∀ i < 16, (BitVec.ofNat 16 (2 ^ k)).getLsbD i = decide (i = k) := by decide
  have form : s.strobeAll = (List.range 16).foldl (fun t i =>
      if s.strobe.getLsbD i && !t.marked (RegName.PWM_GRPk_CFG.addr i 0) true then (t.mark (RegName.PWM_GRPk_CFG.addr i 0) true).grpStrobe i
      else t) ({ s with strobe := 0 } : State) := rfl
  rw [form, hs, foldl_single List.nodup_range (List.mem_range.mpr hk) fun i hi hne t => if_neg (by
    rw [bits k hk i (List.mem_range.mp hi), decide_eq_false hne]; simp), bits k hk k hk, decide_eq_true rfl, Bool.true_and]
  rw [show ({ s with strobe := 0 } : State).marked (RegName.PWM_GRPk_CFG.addr k 0) true = s.marked (RegName.PWM_GRPk_CFG.addr k 0) true from rfl]
  cases s.marked (RegName.PWM_GRPk_CFG.addr k 0) true <;> rfl

/-! ## The strobe of a group -/

/-- A strobe waits for its load point. -/
def State.strobeAsked (s : State) (k : Nat) : State := (if s.grpPend k then s.bump F.PWM_ERR_CNT_MERGE 0 0 else s).setGrpPend k true

section
variable {s : State} {k : Nat} {l : GenId} (hlead : s.grpLead k = some l)
include hlead

theorem State.grpStrobe_immediate (h : s.ldpt k = 2) : s.grpStrobe k = (s.grpMembers k).foldl State.pwmCopy s := by
  simp only [State.grpStrobe, hlead, h, if_true]

/-- A strobe to a load point of the lead acts where that lies in this lc. -/
theorem State.grpStrobe_lead (hk : k < 16) (h : s.ldpt k < 2) : s.grpStrobe k =
    if s.pwmRuns l && (if decide (s.ldpt k = 1) && !s.pwm[l].variable then s.pwm[l].midAt s.now && (s.pwm[l].down || decide (s.pwm[l].mode ≠ 3))
      else s.pwm[l].begins s.now) then (s.strobeAsked k).grpLoad k else s.strobeAsked k := by
  have two : s.ldpt k ≠ 2 := by omega
  have three : s.ldpt k ≠ 3 := by omega
  obtain ⟨u, hu⟩ : ∃ u, u = s.strobeAsked k := ⟨_, rfl⟩
  have form : s.grpStrobe k = if u.pwmRuns l && (if decide (u.ldpt k = 1) && !u.pwm[l].variable then
      u.pwm[l].midAt u.now && (u.pwm[l].down || decide (u.pwm[l].mode ≠ 3)) else u.pwm[l].begins u.now) then u.grpLoad k else u := by
    simp only [State.grpStrobe, hlead, two, three, if_false]
    rw [hu]
    rfl
  have reg : ∀ q i j, q.addr i j ≠ RegName.PWM_PEND.addr 0 0 → q.addr i j ≠ RegName.PWM_ERR_CNT.addr 0 0 → u.reg q i j = s.reg q i j := by
    intro q i j hp he
    rw [hu]
    refine (State.reg_setReg_ne _ _ hp).trans ?_
    split
    · exact State.reg_setReg_ne _ _ he
    · rfl
  have pwm : u.pwm = s.pwm := by rw [hu, State.strobeAsked]; split <;> rfl
  have now : u.now = s.now := by rw [hu, State.strobeAsked]; split <;> rfl
  have mode : u.mode = s.mode := by
    refine State.mode_congr (reg _ _ _ (by decide) (by decide)) ?_ ?_
    · rw [hu, State.strobeAsked]; split <;> rfl
    · rw [hu, State.strobeAsked]; split <;> rfl
  have run : u.flag F.PWMn_STAT_RUN l 0 = s.flag F.PWMn_STAT_RUN l 0 := congrArg (fun w => getBits w _ _ != 0) (reg .PWMn_STAT l 0
    (by simp only [RegName.addr, RegName.base, RegName.dims]; omega) (by simp only [RegName.addr, RegName.base, RegName.dims]; omega))
  have point : s.ldpt k = 1 ↔ u.ldpt k = 1 := by
    have cfg : u.reg .PWM_GRPk_CFG k 0 = s.reg .PWM_GRPk_CFG k 0 := reg _ _ _
      (by simp only [RegName.addr, RegName.base, RegName.dims]; omega) (by simp only [RegName.addr, RegName.base, RegName.dims]; omega)
    have same : u.ldpt k = s.ldpt k := congrArg (fun w => getBits w _ _) cfg
    rw [same]
  have runs : u.pwmRuns l = s.pwmRuns l := by rw [State.pwmRuns, State.pwmRuns, run, mode]
  rw [form, runs, pwm, now, decide_eq_decide.mpr point.symm, hu]

/-- A member of a group with its own load point takes a strobe. -/
def State.memberStrobe (s : State) (m : GenId) : State :=
  if s.pwmRuns m && s.pwm[m].begins s.now then (s.modPwm m fun g => { g with pend := false }).pwmCopy m
  else s.modPwm m fun g => { g with pend := true }

theorem State.grpStrobe_members (h : s.ldpt k = 3) : s.grpStrobe k = (s.grpMembers k).foldl State.memberStrobe
    (if (s.grpMembers k).any fun m => s.pwm[m].pend then s.bump F.PWM_ERR_CNT_MERGE 0 0 else s) := by
  have two : (3 : Nat) ≠ 2 := by decide
  simp only [State.grpStrobe, hlead, h, two, if_false, if_true]
  rfl
end

theorem State.sparesGen.modPwm {m n : GenId} (hn : n ≠ m) (t : State) (f : PwmSt → PwmSt) : State.sparesGen m t (t.modPwm n f) :=
  ⟨rfl, rfl, rfl, fun _ => rfl, t.pwm_modPwm_ne n f hn.symm, fun _ _ _ _ => rfl⟩

theorem State.memberStrobe_spares {m n : GenId} (hn : n ≠ m) (t : State) : State.sparesGen m t (t.memberStrobe n) := by
  unfold State.memberStrobe
  split
  · exact (State.sparesGen.modPwm hn t _).trans (.of_genOnly (State.pwmCopy_only _ n) hn)
  · exact .modPwm hn t _

/-- A member whose period starts in this lc copies, another one waits for its own. -/
theorem State.memberStrobe_spec (t : State) (m : GenId) : (t.memberStrobe m).pwm[m].pend = !(t.pwmRuns m && t.pwm[m].begins t.now) ∧
    ((t.pwmRuns m && t.pwm[m].begins t.now) = true → t.copiedFrom m (t.memberStrobe m)) ∧
    ((t.pwmRuns m && t.pwm[m].begins t.now) = false → (t.memberStrobe m).regs = t.regs) := by
  cases h : t.pwmRuns m && t.pwm[m].begins t.now with
  | true =>
    have form : t.memberStrobe m = (t.modPwm m fun g => { g with pend := false }).pwmCopy m := if_pos h
    have pend : ((t.modPwm m fun g => { g with pend := false }).pwmCopy m).pwm[m].pend = false := by
      rw [(State.pwmCopy_only _ m).pend, State.pwm_modPwm_same]
    rw [form]
    exact ⟨pend, fun _ => (State.pwmCopy_copied (t.modPwm m fun g => { g with pend := false }) m).of_old rfl, fun h => (nomatch h)⟩
  | false =>
    have form : t.memberStrobe m = t.modPwm m fun g => { g with pend := true } := if_neg (by rw [h]; decide)
    rw [form]
    exact ⟨congrArg PwmSt.pend (t.pwm_modPwm_same m _), fun h => (nomatch h), fun _ => rfl⟩

theorem State.memberStrobe_common (t : State) (m : GenId) {q : RegName} {k l : Nat} (hq : 0x40210000 ≤ q.addr k l) :
    (t.memberStrobe m).reg q k l = t.reg q k l := by
  unfold State.memberStrobe
  split
  · refine ((State.pwmCopy_only (t.modPwm m fun g => { g with pend := false }) m).reg fun ho => ?_).trans rfl
    rw [atPwmOwn_iff] at ho
    omega
  · rfl

/-- What a member's strobe leaves of each member. -/
theorem State.grpStrobe_member {s : State} {k : Nat} {l m : GenId} (hlead : s.grpLead k = some l) (h : s.ldpt k = 3) (hm : m ∈ s.grpMembers k) :
    (s.grpStrobe k).pwm[m].pend = !(s.pwmRuns m && s.pwm[m].begins s.now) ∧
    (s.grpStrobe k).reg .PWMn_CMPA_ACT m 0 = (if s.pwmRuns m && s.pwm[m].begins s.now then s.oldReg .PWMn_CMPA m 0 else s.reg .PWMn_CMPA_ACT m 0) ∧
    (s.grpStrobe k).reg .PWMn_PER_ACT m 0 = (if s.pwmRuns m && s.pwm[m].begins s.now then s.oldReg .PWMn_PER m 0 else s.reg .PWMn_PER_ACT m 0) := by
  obtain ⟨b, hb⟩ : ∃ b, b = if (s.grpMembers k).any fun m => s.pwm[m].pend then s.bump F.PWM_ERR_CNT_MERGE 0 0 else s := ⟨_, rfl⟩
  have reg : ∀ q i j, q.addr i j ≠ RegName.PWM_ERR_CNT.addr 0 0 → b.reg q i j = s.reg q i j := by
    intro q i j hq
    rw [hb]
    split
    · exact State.reg_setReg_ne _ _ hq
    · rfl
  have pwm : b.pwm = s.pwm := by rw [hb]; split <;> rfl
  have now : b.now = s.now := by rw [hb]; split <;> rfl
  have old : b.old = s.old := by rw [hb]; split <;> rfl
  have mode : b.mode = s.mode := State.mode_congr (reg _ _ _ (by decide)) (by rw [hb]; split <;> rfl) (by rw [hb]; split <;> rfl)
  have run : b.flag F.PWMn_STAT_RUN m 0 = s.flag F.PWMn_STAT_RUN m 0 := congrArg (fun w => getBits w _ _ != 0) (reg .PWMn_STAT m 0
    (by simp only [RegName.addr, RegName.base, RegName.dims]; omega))
  have start : (b.pwmRuns m && b.pwm[m].begins b.now) = (s.pwmRuns m && s.pwm[m].begins s.now) := by
    rw [State.pwmRuns, State.pwmRuns, run, mode, pwm, now]
  obtain ⟨u, before, after⟩ := foldl_focus (State.sparesGen m) (State.sparesGen.refl m) (fun h g => h.trans g) (s.grpMembers_nodup k) hm
    (f := State.memberStrobe) (fun n hn t => State.memberStrobe_spares hn t) b
  have here : (u.pwmRuns m && u.pwm[m].begins u.now) = (s.pwmRuns m && s.pwm[m].begins s.now) := by
    rw [before.pwmRuns, before.begins, start]
  obtain ⟨pend, copies, waits⟩ := u.memberStrobe_spec m
  rw [here] at pend copies waits
  obtain ⟨-, -, -, -, after_pwm, -⟩ := id after
  have own : ∀ r ∈ [RegName.PWMn_PER_ACT, .PWMn_CMPA_ACT, .PWMn_CMPB_ACT], r.addr m 0 / 0x1000 = 0x40200 + m.val := by
    intro r hr
    simp only [List.mem_cons, List.not_mem_nil, or_false] at hr
    obtain rfl | rfl | rfl := hr <;> simp only [RegName.addr, RegName.base, RegName.dims] <;> omega
  rw [State.grpStrobe_members hlead h, ← hb, after_pwm, after.own (own _ (by simp)), after.own (own _ (by simp))]
  refine ⟨pend, ?_⟩
  cases hs : s.pwmRuns m && s.pwm[m].begins s.now with
  | true =>
    obtain ⟨per, cmpa, -⟩ := (copies hs).of_old (before.2.1.trans old)
    exact ⟨cmpa, per⟩
  | false =>
    have kept : ∀ q i j, (u.memberStrobe m).reg q i j = u.reg q i j := fun q i j => by rw [State.reg, waits hs]; rfl
    simp only [Bool.false_eq_true, if_false]
    rw [kept, kept]
    exact ⟨(before.own (own _ (by simp))).trans (reg _ _ _ (by simp only [RegName.addr, RegName.base, RegName.dims]; omega)),
      (before.own (own _ (by simp))).trans (reg _ _ _ (by simp only [RegName.addr, RegName.base, RegName.dims]; omega))⟩

theorem State.grpStrobe_merge {s : State} {k : Nat} {l : GenId} (hlead : s.grpLead k = some l) (h : s.ldpt k = 3) :
    (s.grpStrobe k).fld F.PWM_ERR_CNT_MERGE 0 0 = min F.PWM_ERR_CNT_MERGE.max
      (s.fld F.PWM_ERR_CNT_MERGE 0 0 + if (s.grpMembers k).any fun m => s.pwm[m].pend then 1 else 0) := by
  have kept : ∀ b : State, ((s.grpMembers k).foldl State.memberStrobe b).fld F.PWM_ERR_CNT_MERGE 0 0 = b.fld F.PWM_ERR_CNT_MERGE 0 0 :=
    fun b => congrArg (fun w => getBits w _ _) (foldl_keeps (fun t : State => t.reg .PWM_ERR_CNT 0 0 = b.reg .PWM_ERR_CNT 0 0)
      (fun (t : State) m ht => (t.memberStrobe_common m (q := .PWM_ERR_CNT) (k := 0) (l := 0) (by decide)).trans ht) _ _ rfl)
  rw [State.grpStrobe_members hlead h, kept]
  split
  · exact State.fld_bump_same s F.PWM_ERR_CNT_MERGE 0 0 (by decide)
  · exact (Nat.min_eq_right (s.fld_le_max F.PWM_ERR_CNT_MERGE 0 0)).symm

/-! ## Starts -/

theorem State.perAct_eq (s : State) (n : GenId) : s.perAct n = if s.fld F.PWMn_PER_ACT_VALUE n 0 = 0 then 65535 else s.fld F.PWMn_PER_ACT_VALUE n 0 :=
  rfl

/-- A period that no copy precedes. -/
theorem State.pwmPeriod_calm {s : State} {n : GenId} (hg : s.grpPend (s.grpOf n) = false) (hp : s.pwm[n].pend = false) (phased : Bool) :
    s.pwmPeriod n phased = if (s.pwmBegin n phased).pwmRuns n && !((s.pwmRuns n && s.pwm[n].begins s.now && !s.pwm[n].phased) && phased)
      then (s.pwmBegin n phased).raiseEv (pwmSrc n) else s.pwmBegin n phased := by
  unfold State.pwmPeriod
  simp only [hg, hp, Bool.and_false, Bool.false_and, Bool.false_eq_true, if_false, ite_self]

theorem State.pwmRuns_begin {s : State} {n : GenId} (hl : s.mode.live = true) {phased : Bool} (hm : s.fld F.PWMn_CFG_MODE n 0 ≠ 0) :
    (s.pwmBegin n phased).pwmRuns n = true := by
  obtain ⟨-, run, -, only⟩ := s.pwmBegin_spec n (phased := phased) hm
  have clock : (s.pwmBegin n phased).reg .SYS_CLK_STAT 0 0 = s.reg .SYS_CLK_STAT 0 0 := only.reg fun ho => by
    simp only [atPwmStat, RegName.addr, RegName.base, RegName.dims] at ho
    omega
  have lost : (s.pwmBegin n phased).flag F.SYS_CLK_STAT_CLK_LOST 0 0 = s.flag F.SYS_CLK_STAT_CLK_LOST 0 0 :=
    congrArg (fun w => getBits w _ _ != 0) clock
  have mode : (s.pwmBegin n phased).mode = s.mode := by rw [State.mode, State.mode, lost, only.marked, only.sys]
  rw [State.pwmRuns, mode, hl, run]
  rfl

theorem exec_pwmStart_own {s : State} {r : Req} {n : GenId} {v : Word} (hl : s.mode.live = true) (hv : v.toNat % 65536 = 2 ^ n.val)
    (ho : r.owns (s.grpOwner (s.grpOf n)) = true) (ha : s.admits r .write .PWM_START 0 0) : exec (.pwmStart r v) s = .next
      (if s.flag F.PWMn_STAT_RUN n 0 = false ∧ s.fld F.PWMn_CFG_MODE n 0 ≠ 0 then (s.opened r.master).pwmPeriod n true else s.opened r.master) := by
  obtain ⟨a, hopen⟩ : ∃ a, a = s.opened r.master := ⟨_, rfl⟩
  have same : ∀ {α : Type} (f : State → α), (∀ (s : State) u c v, f { s with accs := u, cyc := c, ans := v } = f s) → f a = f s :=
    fun f hf => by rw [hopen]; exact State.opened_congr f hf s r.master
  have owner : a.grpOwner (a.grpOf (Fin.ofNat 16 n.val)) = s.grpOwner (s.grpOf n) := by
    rw [show Fin.ofNat 16 n.val = n from Fin.ofNat_val_eq_self n]
    exact same (fun t => t.grpOwner (t.grpOf n)) fun _ _ _ _ => rfl
  have live : a.mode.live = true := by rw [same State.mode fun _ _ _ _ => rfl]; exact hl
  have run : a.flag F.PWMn_STAT_RUN n 0 = s.flag F.PWMn_STAT_RUN n 0 := same (·.flag F.PWMn_STAT_RUN n 0) fun _ _ _ _ => rfl
  have mode : a.fld F.PWMn_CFG_MODE n 0 = s.fld F.PWMn_CFG_MODE n 0 := same (·.fld F.PWMn_CFG_MODE n 0) fun _ _ _ _ => rfl
  refine regCmd_next_of (body := fun s => s.pwmStartWrite r v) ha ?_
  rw [← hopen, State.pwmStartWrite, State.ownedBits_own n.isLt hv (own := fun k => a.grpOwner (a.grpOf (Fin.ofNat 16 k))) (by rw [owner]; exact ho)]
  have one : ∀ m : GenId, 2 ^ n.val / 2 ^ m.val % 2 = 1 ↔ m = n := by
    intro m
    have bit : (2 ^ n.val).testBit m.val = decide (2 ^ n.val / 2 ^ m.val % 2 = 1) := Nat.testBit_eq_decide_div_mod_eq
    rw [← decide_eq_true_iff (p := 2 ^ n.val / 2 ^ m.val % 2 = 1), ← bit, Nat.testBit_two_pow, decide_eq_true_iff, Fin.ext_iff]
    exact eq_comm
  refine (foldl_single (List.nodup_finRange 16) (List.mem_finRange n) fun m _ hm t => if_neg (mt (one m).mp hm)).trans ?_
  rw [if_pos ((one n).mpr rfl), State.pwmStartGen, State.pwmRuns, live, run, Bool.true_and, Bool.true_and]
  have asked : a.flag F.PWMn_CFG_MODE n 0 = true ↔ s.fld F.PWMn_CFG_MODE n 0 ≠ 0 := by rw [State.flag, mode]; exact bne_iff_ne
  simp only [Bool.and_eq_true, Bool.not_eq_true', asked]

theorem exec_pwmSync_mode {s : State} {n : GenId} (hl : s.mode.live = true) (hm : s.fld F.PWMn_CFG_MODE n 0 ≠ 0) :
    exec (.pwmSync n) s = .next
      ((if s.flag F.PWMn_STAT_RUN n 0 = true ∧ s.pwm[n].began < s.now then s.pwmLast n else s).pwmPeriod n true) := by
  have flag : s.flag F.PWMn_CFG_MODE n 0 = true := bne_iff_ne.mpr hm
  change execPwmSync n s = _
  rw [execPwmSync, hl, flag]
  simp only [Bool.and_self, if_true, State.pwmRuns, hl, Bool.true_and, Bool.and_eq_true, decide_eq_true_eq]

theorem exec_pwmSync_off {s : State} {n : GenId} (hm : s.fld F.PWMn_CFG_MODE n 0 = 0) : exec (.pwmSync n) s = .next s := by
  have flag : s.flag F.PWMn_CFG_MODE n 0 = false := bne_eq_false_iff_eq.mpr hm
  change execPwmSync n s = _
  rw [execPwmSync, flag, Bool.and_false]
  rfl

theorem exec_comparePortWrite {s : State} {n : GenId} {b : Bool} {w : Word} (hl : s.mode.live = true) :
    exec (.comparePortWrite n b w) s = .next
      (((if s.marked ((if b then RegName.PWMn_CMPB else .PWMn_CMPA).addr n 0) false &&
          !s.marked ((if b then RegName.PWMn_CMPB else .PWMn_CMPA).addr n 0) true then s.bump F.PWMn_ERR_CNT_WRCONF n 0 else s).setReg
        (if b then .PWMn_CMPB else .PWMn_CMPA) n 0 (w &&& 0xFFFFFF)).mark ((if b then RegName.PWMn_CMPB else .PWMn_CMPA).addr n 0) true) := by
  change execComparePortWrite n b w s = _
  rw [execComparePortWrite, if_pos hl]

/-- Settles O31: a strobe by its group's load point, a start by the period that begins at PHASE. -/
theorem pwmLoadsAndStarts : Obligations.PwmLoadsAndStarts := by
  unfold Obligations.PwmLoadsAndStarts
  intro s r n v w b p live free a k g at_
  have hk : k < 16 := grpOf_lt s n
  refine ⟨fun hv ha => ⟨exec_pwmLoadall_own live free hk hv ha, exec_pwmLoadall_foreign hk hv ha⟩, ?_, fun hs => ⟨fun hm => ?_,
    fun hm => ?_⟩, fun l hlead => ?_, ?_, fun hv ho ha => exec_pwmStart_own live hv ho ha, exec_pwmSync_mode live, exec_pwmSync_off, ?_, ?_⟩
  · refine congrArg Host.Outcome.next ((State.loadAll_live live free _).trans ?_)
    rw [setWidth_getBits]
  · rw [State.strobeAll_one hk hs]; exact if_neg (by rw [hm]; decide)
  · rw [State.strobeAll_one hk hs]; exact if_pos hm
  · intro asked
    have lead := State.grpStrobe_lead hlead hk
    refine ⟨fun h => State.grpStrobe_immediate hlead h, fun h hr => ?_, fun h hr => ?_, fun h hr hvar => ?_, fun h => ?_⟩
    · rw [lead h, hr]; rfl
    · have early : s.ldpt k < 2 := by obtain h | ⟨h, -⟩ := h <;> omega
      have start : (decide (s.ldpt k = 1) && !s.pwm[l].variable) = false := by
        obtain h | ⟨-, hvar⟩ := h
        · rw [h]; rfl
        · rw [hvar, Bool.not_true, Bool.and_false]
      rw [lead early, hr, start]
      rfl
    · rw [lead (by omega), hr, h, hvar]
      have point : (s.pwm[l].midAt s.now && (s.pwm[l].down || decide (s.pwm[l].mode ≠ 3))) = true ↔
          s.pwm[l].midAt s.now = true ∧ (s.pwm[l].mode = 3 → s.pwm[l].down = true) := by
        rw [Bool.and_eq_true, Bool.or_eq_true, decide_eq_true_iff, imp_iff_not_or, or_comm]
      simp only [decide_true, Bool.not_false, Bool.and_self, if_true, Bool.true_and, point]
      rfl
    · exact ⟨fun m hm => State.grpStrobe_member hlead h hm, State.grpStrobe_merge hlead h⟩
  · intro t
    obtain ⟨per, cmpa, cmpb⟩ := s.pwmTake_copied n
    obtain ⟨on, lvl, e, eb, hg⟩ := (s.pwmTake_drives n).gen
    have own : ((s.pwmLoaded n).modPwm n (s.shadowed n)).pwm[n] = s.shadowed n s.pwm[n] := State.pwm_modPwm_same _ n _
    rw [own] at hg
    refine ⟨per, cmpa, cmpb, by rw [hg]; rfl, by rw [hg]; rfl, by rw [hg]; rfl, fun ho => ?_⟩
    have quiet : s.pwmTake n = (s.pwmLoaded n).modPwm n (s.shadowed n) := by
      rw [s.pwmTake_eq n]
      split
      next y hy => exact if_neg (ho y hy)
      · rfl
    change (s.pwmTake n).pwm[n].lvl = _
    rw [quiet, own]
    rfl
  · intro per c
    have hper : s.perAct n = per := s.perAct_eq n
    refine ⟨fun hg hp hm => ?_, fun hm => ?_, fun hm => ?_, fun hm hd => ?_, fun hm hd => ?_⟩
    · obtain ⟨own, run, mx, -⟩ := s.pwmBegin_spec n (phased := true) hm
      have runs := State.pwmRuns_begin live (phased := true) hm
      have form := State.pwmPeriod_calm hg hp true
      have again : (s.pwmRuns n && g.begins s.now && !g.phased) = true ↔ s.flag F.PWMn_STAT_RUN n 0 = true ∧ g.begins s.now = true ∧ g.phased = false := by
        rw [State.pwmRuns, live, Bool.true_and, Bool.and_eq_true, Bool.and_eq_true, Bool.not_eq_true', and_assoc]
      intro t
      have kept : t.pwm = (s.pwmBegin n true).pwm ∧ t.regs = (s.pwmBegin n true).regs := by
        change (s.pwmPeriod n true).pwm = _ ∧ (s.pwmPeriod n true).regs = _
        rw [form]
        split
        · exact ⟨rfl, rfl⟩
        · exact ⟨rfl, rfl⟩
      obtain ⟨pwm, regs⟩ := kept
      have gen : t.pwm[n] = (s.newPeriod n true s.pwm[n]).segmented true := by rw [pwm]; exact own
      refine ⟨by rw [gen]; rfl, by rw [gen]; rfl, by rw [gen, ← hper]; rfl, (congrArg (· != 0) (State.fld_of_regs regs _ _ _)).trans run, fun hn => ?_⟩
      change pwmSrc n ∈ (s.pwmPeriod n true).mx.ev
      rw [form, if_pos (by rw [runs, Bool.and_true, Bool.true_and, Bool.not_eq_true']; exact Bool.eq_false_iff.mpr (mt again.mp hn))]
      exact List.mem_append_right _ (List.mem_singleton.mpr rfl)
    · rw [State.phaseStep, hm, hper] <;> rfl
    · rw [State.phaseStep, hm, hper] <;> rfl
    · rw [State.phaseStep, hm, hper, hd] <;> rfl
    · rw [State.phaseStep, hm, hper, hd] <;> rfl
  · intro rn c
    rw [exec_comparePortWrite live]
    simp only [Bool.and_eq_true, Bool.not_eq_true', c, rn]

end Sys2Proof.Machine
end

