-- ==== Sys2Proof/Proofs/PwmCounts.lean ====
section
/-! PROOF. Period starts and middles, compares and triggers of PWM generators, and variable periods (R112 to R119, R121, R124, R126). -/

namespace Sys2Proof.Machine

/-! ## References -/

/-- What the outputs of generator n do leaves its REF and its compares, and every other generator. -/
def State.outputsOnly (n : GenId) (s t : State) : Prop :=
  t.pwm[n].ref = s.pwm[n].ref ∧ t.pwm[n].fired = s.pwm[n].fired ∧ ∀ m : GenId, m ≠ n → t.pwm[m] = s.pwm[m]

namespace State.outputsOnly
variable {n : GenId} {s t u : State}

theorem trans (h : State.outputsOnly n s t) (g : State.outputsOnly n t u) : State.outputsOnly n s u := by
  obtain ⟨ref, fired, others⟩ := h
  obtain ⟨ref', fired', others'⟩ := g
  exact ⟨ref'.trans ref, fired'.trans fired, fun m hm => (others' m hm).trans (others m hm)⟩

theorem of_driven (h : State.driven n s t) : State.outputsOnly n s t := by
  obtain ⟨on, lvl, e, eb, hg⟩ := h.gen
  exact ⟨by rw [hg]; rfl, by rw [hg]; rfl, fun m hm => h.others hm⟩

theorem of_pwm (h : t.pwm = s.pwm) : State.outputsOnly n s t := by
  rw [State.outputsOnly, h]
  exact ⟨rfl, rfl, fun _ _ => rfl⟩

theorem pwmFlush (s : State) (n : GenId) (e : Nat) : State.outputsOnly n s (s.pwmFlush n e) := by
  unfold State.pwmFlush
  split
  · split
    · split
      · exact of_driven (.pwmTurnOn s n _ _)
      · exact of_pwm rfl
    · split
      · dsimp only
        split
        · exact of_driven (.pwmTurnOn s n _ _)
        · exact (of_pwm (t := s.pwmNoTrans n) rfl).trans (of_driven (.pwmTurnOn _ n _ _))
      · exact of_pwm rfl
  · exact of_pwm rfl
end State.outputsOnly

/-- REF takes the level of an edge, unless the generator waits. -/
theorem State.refEdge_spec {s : State} {n : GenId} (hw : s.flag F.PWMn_STAT_WAIT n 0 = false) (x : Fin 2) (v : Bool) (e : Nat) :
    (s.refEdge n x v e).pwm[n].ref = vset s.pwm[n].ref x v ∧ (s.refEdge n x v e).pwm[n].fired = s.pwm[n].fired ∧
      ∀ m : GenId, m ≠ n → (s.refEdge n x v e).pwm[m] = s.pwm[m] := by
  by_cases h : s.pwm[n].ref[x] = v
  · rw [State.refEdge, if_pos (.inl h)]
    exact ⟨by rw [← h]; exact (vset_self _ _).symm, rfl, fun _ _ => rfl⟩
  · obtain ⟨u, hu⟩ : ∃ u, u = (s.pwmFlush n e).modPwm n fun g => { g with ref := vset g.ref x v } := ⟨_, rfl⟩
    obtain ⟨ref, fired, others⟩ := State.outputsOnly.pwmFlush s n e
    have own : u.pwm[n].ref = vset s.pwm[n].ref x v ∧ u.pwm[n].fired = s.pwm[n].fired := by
      rw [hu, State.pwm_modPwm_same]
      exact ⟨congrArg (vset · x v) ref, fired⟩
    have rest : ∀ m : GenId, m ≠ n → u.pwm[m] = s.pwm[m] := fun m hm => by
      rw [hu]; exact (State.pwm_modPwm_ne _ n _ hm).trans (others m hm)
    have after : State.outputsOnly n u (s.refEdge n x v e) := by
      rw [State.refEdge, if_neg (by rw [hw]; simpa using h)]
      dsimp only
      rw [← hu]
      split
      · exact .of_pwm rfl
      · split
        · exact .of_driven ((State.driven.modPwm n u fun g => ⟨_, _, _, _, rfl⟩).trans (.pwmDrive _ n _))
        · split
          · exact .of_driven (((State.driven.modPwm n u fun g => ⟨_, _, _, _, rfl⟩).trans (.pwmDrive _ n _)).trans (.pwmDead _ n _ _))
          · exact .of_pwm rfl
    obtain ⟨ref', fired', others'⟩ := after
    exact ⟨ref'.trans own.1, fired'.trans own.2, fun m hm => (others' m hm).trans (rest m hm)⟩

/-! ## Compares -/

section
variable {g : PwmSt} {v : Nat}

theorem PwmSt.action_up (hm : g.mode = 1 ∨ g.mode = 3 ∧ g.down = false) : g.action v =
    if v / 256 * (g.st * 256) + v % 256 < g.per * (g.st * 256) then some (false, v / 256 * (g.st * 256) + v % 256) else none := by
  obtain hm | ⟨hm, hd⟩ := hm
  · simp only [PwmSt.action, hm]
  · simp only [PwmSt.action, hm, hd, Bool.false_eq_true, if_false]

theorem PwmSt.action_down (hm : g.mode = 2) : g.action v =
    if (g.per - v / 256) * (g.st * 256) - v % 256 < g.per * (g.st * 256) then some (true, (g.per - v / 256) * (g.st * 256) - v % 256)
    else none := by
  simp only [PwmSt.action, hm]

theorem PwmSt.action_half (hm : g.mode = 3) (hd : g.down = true) : g.action v =
    if max (g.per * (g.st * 256)) ((2 * g.per - v / 256) * (g.st * 256) - v % 256) < 2 * g.per * (g.st * 256) then
      some (true, max (g.per * (g.st * 256)) ((2 * g.per - v / 256) * (g.st * 256) - v % 256)) else none := by
  simp only [PwmSt.action, hm, hd, if_true]

/-- A compare value inside the period lies at least a step before its end. -/
theorem PwmSt.compare_inside (h : v / 256 < g.per) : v / 256 * g.st * 256 + v % 256 < g.per * g.st * 256 := by
  have step : 0 < g.st := Nat.two_pow_pos _
  have room : (v / 256 + 1) * g.st ≤ g.per * g.st := Nat.mul_le_mul_right _ h
  rw [Nat.add_one_mul] at room
  omega

theorem PwmSt.compare_pos (h : 0 < v) : 0 < v / 256 * g.st * 256 + v % 256 := by
  have step : 0 < g.st := Nat.two_pow_pos _
  obtain h | h : 0 < v / 256 ∨ 0 < v % 256 := by omega
  · have := Nat.mul_pos h step
    omega
  · omega

theorem PwmSt.action_up_inside (hm : g.mode = 1 ∨ g.mode = 3 ∧ g.down = false) (h : v / 256 < g.per) :
    g.action v = some (false, v / 256 * g.st * 256 + v % 256) := by
  rw [PwmSt.action_up hm, ← Nat.mul_assoc, ← Nat.mul_assoc, if_pos (PwmSt.compare_inside h)]

theorem PwmSt.action_up_outside (hm : g.mode = 1) (h : g.per ≤ v / 256) : g.action v = none := by
  have late : g.per * (g.st * 256) ≤ v / 256 * (g.st * 256) := Nat.mul_le_mul_right _ h
  rw [PwmSt.action_up (.inl hm), if_neg (by omega)]

theorem PwmSt.action_down_inside (hm : g.mode = 2) (hv : 0 < v) (h : v / 256 < g.per) :
    g.action v = some (true, g.per * g.st * 256 - (v / 256 * g.st * 256 + v % 256)) := by
  have inside := PwmSt.compare_inside h
  have early := PwmSt.compare_pos (g := g) hv
  have at_ : (g.per - v / 256) * (g.st * 256) - v % 256 = g.per * g.st * 256 - (v / 256 * g.st * 256 + v % 256) := by
    rw [Nat.sub_mul, ← Nat.mul_assoc, ← Nat.mul_assoc, Nat.sub_sub]
  rw [PwmSt.action_down hm, at_, ← Nat.mul_assoc, if_pos (by omega)]

theorem PwmSt.action_half_inside (hm : g.mode = 3) (hd : g.down = true) (hv : 0 < v) (h : v / 256 < g.per) :
    g.action v = some (true, 2 * (g.per * g.st * 256) - (v / 256 * g.st * 256 + v % 256)) := by
  have inside := PwmSt.compare_inside h
  have early := PwmSt.compare_pos (g := g) hv
  have whole : 2 * g.per * (g.st * 256) = 2 * (g.per * g.st * 256) := by rw [Nat.mul_assoc, ← Nat.mul_assoc g.per]
  have at_ : max (g.per * (g.st * 256)) ((2 * g.per - v / 256) * (g.st * 256) - v % 256) =
      2 * (g.per * g.st * 256) - (v / 256 * g.st * 256 + v % 256) := by
    rw [Nat.sub_mul, whole, ← Nat.mul_assoc g.per, ← Nat.mul_assoc (v / 256), Nat.sub_sub]
    omega
  rw [PwmSt.action_half hm hd, at_, whole, if_pos (by omega)]
end

theorem exec_pwmCompareAction_fires {s : State} {n : GenId} {b : Bool} {lvl : Bool} {off : Nat} (hr : s.pwmRuns n = true)
    (hf : s.pwm[n].fired[if b then (1 : Fin 2) else 0] = false)
    (ha : s.pwm[n].action (s.pwmCmp n (if b then (1 : Fin 2) else 0)) = some (lvl, off)) : ∃ e, exec (.pwmCompareAction n b) s = .next
      ((s.unsched (.pwmCompareAction n b)).pwmFire n (if b then (1 : Fin 2) else 0) lvl e) := by
  refine ⟨if s.pwm[n].instant off / 256 = s.now then s.pwm[n].instant off else s.now * 256, ?_⟩
  change execPwmCompareAction n b s = _
  rw [execPwmCompareAction]
  dsimp only
  rw [hr, hf, ha]
  rfl

/-- A compare that fires gives its REF its level. -/
theorem State.pwmFire_spec {s : State} {n : GenId} (hw : s.flag F.PWMn_STAT_WAIT n 0 = false) (x : Fin 2) (v : Bool) (e : Nat) :
    (s.pwmFire n x v e).pwm[n].ref = vset s.pwm[n].ref x v ∧ (s.pwmFire n x v e).pwm[n].fired = vset s.pwm[n].fired x true ∧
      ∀ m : GenId, m ≠ n → (s.pwmFire n x v e).pwm[m] = s.pwm[m] := by
  obtain ⟨ref, fired, others⟩ := State.refEdge_spec (s := s.modPwm n fun g => { g with fired := vset g.fired x true }) hw x v e
  rw [State.pwm_modPwm_same] at ref fired
  exact ⟨ref, fired, fun m hm => (others m hm).trans (s.pwm_modPwm_ne n _ hm)⟩

/-! ## Period starts -/

/-- The length of the period that ends is on record. -/
def State.lasted (s : State) (n : GenId) : State := if s.pwm[n].began < s.now then s.pwmLast n else s

section
variable {s : State} {n : GenId}

theorem State.lasted_only (s : State) (n : GenId) : ∃ regs, s.lasted n = { s with regs := regs } := by
  unfold State.lasted
  split <;> exact ⟨_, rfl⟩

theorem State.reg_lasted_ne (s : State) (n : GenId) {q : RegName} {k l : Nat} (h : q.addr k l ≠ RegName.PWMn_LASTPER.addr n 0) :
    (s.lasted n).reg q k l = s.reg q k l := by
  unfold State.lasted
  split
  · exact State.reg_setReg_ne _ _ h
  · rfl

theorem State.lasted_length (hb : s.pwm[n].began < s.now) (he : s.pwm[n].ended = none) :
    (s.lasted n).fld F.PWMn_LASTPER_LASTPER n 0 = min 65535 (s.pwm[n].stepAt s.now) := by
  rw [State.lasted, if_pos hb, State.pwmLast, he]
  exact (State.fld_setFld_same s F.PWMn_LASTPER_LASTPER n 0 _ (by decide)).trans
    (Nat.mod_eq_of_lt (Nat.lt_of_le_of_lt (Nat.min_le_left _ _) (by decide)))

theorem exec_pwmPeriodStart_runs (hr : s.pwmRuns n = true) : exec (.pwmPeriodStart n) s = .next ((s.lasted n).pwmPeriod n false) := by
  change execPwmPeriodStart n s = _
  rw [execPwmPeriodStart, if_pos hr]
  rfl

theorem State.runs_of (hl : s.mode.live = true) (hr : s.flag F.PWMn_STAT_RUN n 0 = true) : s.pwmRuns n = true := by
  rw [State.pwmRuns, hl, hr]; rfl

theorem State.mode_lasted (s : State) (n : GenId) : (s.lasted n).mode = s.mode := by
  obtain ⟨_, h⟩ := s.lasted_only n
  refine State.mode_congr (s.reg_lasted_ne n (by simp only [RegName.addr, RegName.base, RegName.dims]; omega)) (by rw [h]) (by rw [h])

theorem State.pwm_lasted (s : State) (n : GenId) : (s.lasted n).pwm = s.pwm := by
  obtain ⟨_, h⟩ := s.lasted_only n
  rw [h]

theorem State.now_lasted (s : State) (n : GenId) : (s.lasted n).now = s.now := by
  obtain ⟨_, h⟩ := s.lasted_only n
  rw [h]

theorem State.old_lasted (s : State) (n : GenId) : (s.lasted n).old = s.old := by
  obtain ⟨_, h⟩ := s.lasted_only n
  rw [h]

theorem State.cfg_lasted (s : State) (n m : GenId) : (s.lasted n).reg .PWMn_CFG m 0 = s.reg .PWMn_CFG m 0 :=
  s.reg_lasted_ne n (by simp only [RegName.addr, RegName.base, RegName.dims]; omega)

theorem State.grpOf_lasted (s : State) (n m : GenId) : (s.lasted n).grpOf m = s.grpOf m :=
  congrArg (fun w => getBits w _ _) (s.cfg_lasted n m)

theorem State.cfgMode_lasted (s : State) (n m : GenId) : (s.lasted n).fld F.PWMn_CFG_MODE m 0 = s.fld F.PWMn_CFG_MODE m 0 :=
  congrArg (fun w => getBits w _ _) (s.cfg_lasted n m)

theorem State.perAct_lasted (s : State) (n : GenId) : (s.lasted n).perAct n = s.perAct n := by
  have act : (s.lasted n).reg .PWMn_PER_ACT n 0 = s.reg .PWMn_PER_ACT n 0 :=
    s.reg_lasted_ne n (by simp only [RegName.addr, RegName.base, RegName.dims]; omega)
  have same : (s.lasted n).fld F.PWMn_PER_ACT_VALUE n 0 = s.fld F.PWMn_PER_ACT_VALUE n 0 := congrArg (fun w => getBits w _ _) act
  rw [State.perAct_eq, State.perAct_eq, same]

theorem State.grpPend_lasted (s : State) (n : GenId) (k : Nat) : (s.lasted n).grpPend k = s.grpPend k :=
  congrArg (fun w : Word => w.getLsbD k) (s.reg_lasted_ne n (by simp only [RegName.addr, RegName.base, RegName.dims]; omega))

theorem State.calm_lasted (hg : s.grpPend (s.grpOf n) = false) (hp : s.pwm[n].pend = false) :
    (s.lasted n).grpPend ((s.lasted n).grpOf n) = false ∧ (s.lasted n).pwm[n].pend = false := by
  rw [s.grpOf_lasted n n, s.grpPend_lasted n, s.pwm_lasted n]
  exact ⟨hg, hp⟩

theorem exec_pwmPeriodStart_calm (hl : s.mode.live = true) (hr : s.flag F.PWMn_STAT_RUN n 0 = true) (hg : s.grpPend (s.grpOf n) = false)
    (hp : s.pwm[n].pend = false) (hm : s.fld F.PWMn_CFG_MODE n 0 ≠ 0) :
    exec (.pwmPeriodStart n) s = .next (((s.lasted n).pwmBegin n false).raiseEv (pwmSrc n)) := by
  obtain ⟨calm, own⟩ := State.calm_lasted hg hp
  have runs : ((s.lasted n).pwmBegin n false).pwmRuns n = true := State.pwmRuns_begin (by rw [s.mode_lasted n]; exact hl)
    (by rw [s.cfgMode_lasted n n]; exact hm)
  rw [exec_pwmPeriodStart_runs (State.runs_of hl hr), State.pwmPeriod_calm calm own, Bool.and_false, Bool.not_false, Bool.and_true, if_pos runs]

theorem State.pwmHalt_run (s : State) (n : GenId) (held : Nat × Bool) : (s.pwmHalt n held).flag F.PWMn_STAT_RUN n 0 = false := by
  have regs : (s.pwmHalt n held).regs = ((s.setFld F.PWMn_STAT_RUN n 0 0).setFld F.PWMn_STAT_WAIT n 0 0).regs := rfl
  rw [State.flag, State.fld_of_regs regs]
  exact congrArg (· != 0) <| (State.fld_setFld_apart (f := F.PWMn_STAT_WAIT) (g := F.PWMn_STAT_RUN) _ _ rfl (by decide) (by decide) (by decide)).trans
    (State.fld_setFld_same s F.PWMn_STAT_RUN n 0 0 (by decide))

theorem State.pwmHalt_first (s : State) (n : GenId) (held : Nat × Bool) : (s.pwmHalt n held).pwm[n].first = some true := by
  obtain ⟨u, hu⟩ : ∃ u, u = s.modPwm n fun g =>
    { g with held := held, ended := none, endSeen := none, pstart := false, first := some true, follow := false } := ⟨_, rfl⟩
  have pwm : (s.pwmHalt n held).pwm = u.pwm := by rw [hu]; rfl
  rw [pwm, hu, State.pwm_modPwm_same]

theorem State.flag_mark (s : State) (a : Nat) (b : Bool) (f : Fld) (i j : Nat) : (s.mark a b).flag f i j = s.flag f i j := rfl

theorem exec_pwmPeriodStart_stops (hl : s.mode.live = true) (hr : s.flag F.PWMn_STAT_RUN n 0 = true) (hg : s.grpPend (s.grpOf n) = false)
    (hp : s.pwm[n].pend = false) (hm : s.fld F.PWMn_CFG_MODE n 0 = 0) : ∃ t, exec (.pwmPeriodStart n) s = .next t ∧
      t.flag F.PWMn_STAT_RUN n 0 = false ∧ t.pwm[n].first = some true := by
  obtain ⟨calm, own⟩ := State.calm_lasted hg hp
  obtain ⟨u, hu⟩ : ∃ u, u = (s.lasted n).pwmBegin n false := ⟨_, rfl⟩
  have form : u = ((s.lasted n).pwmHalt n (0, false)).mark (haltMark n) true := hu.trans
    (State.pwmBegin_stops _ n (by rw [s.cfgMode_lasted n n]; exact hm))
  have run : u.flag F.PWMn_STAT_RUN n 0 = false := by
    rw [form, State.flag_mark]
    exact (s.lasted n).pwmHalt_run n (0, false)
  have off : u.pwmRuns n = false := by rw [State.pwmRuns, run, Bool.and_false]
  refine ⟨u, ?_, run, ?_⟩
  · rw [exec_pwmPeriodStart_runs (State.runs_of hl hr), State.pwmPeriod_calm calm own, ← hu, off]
    rfl
  · have pwm : u.pwm = ((s.lasted n).pwmHalt n (0, false)).pwm := by rw [form]; rfl
    rw [pwm]
    exact (s.lasted n).pwmHalt_first n (0, false)

/-- A halted counter's first actions are the safe pattern. -/
theorem State.pwmFirst_halted (hr : s.flag F.PWMn_STAT_RUN n 0 = false) (hf : s.pwm[n].first = some true) : (s.pwmFirst n).pwm[n].safe = true := by
  have off : (s.modPwm n fun g => { g with first := none, follow := false }).pwmRuns n = false := by
    rw [State.pwmRuns, show (s.modPwm n fun g => { g with first := none, follow := false }).flag F.PWMn_STAT_RUN n 0 = false from hr, Bool.and_false]
  unfold State.pwmFirst
  rw [hf]
  dsimp only
  rw [off]
  obtain ⟨-, safe, -⟩ := (s.modPwm n fun g => { g with first := none, follow := false }).pwmSafe_spec n false
  exact safe

/-- The end of a period of fixed length is on the calendar. -/
theorem State.pwmBegin_ends (hm : s.fld F.PWMn_CFG_MODE n 0 = 1 ∨ s.fld F.PWMn_CFG_MODE n 0 = 2 ∨ s.fld F.PWMn_CFG_MODE n 0 = 3) :
    (s.now + (if s.fld F.PWMn_CFG_MODE n 0 = 3 then 2 * s.perAct n else s.perAct n) * 2 ^ s.fld F.PWMn_CFG_PRE n 0,
      Instr.pwmPeriodStart n) ∈ (s.pwmBegin n false).cal := by
  obtain ⟨u, hu⟩ : ∃ u, u = s.pwmOpens n false := ⟨_, rfl⟩
  obtain ⟨c, form⟩ := s.pwmOpens_form n false
  have own : u.pwm[n] = (s.newPeriod n false s.pwm[n]).segmented true := by rw [hu, form]; exact vset_getElem_same _ _ _
  have now : u.now = s.now := by rw [hu, form]; rfl
  have fixed : u.pwm[n].variable = false := by
    rw [own]
    change (decide (s.fld F.PWMn_CFG_MODE n 0 = 4) || decide (s.fld F.PWMn_CFG_MODE n 0 = 5)) = false
    rw [decide_eq_false (by omega), decide_eq_false (by omega)]
    rfl
  have last : u.pwm[n].stepLc u.pwm[n].len - u.now =
      (if s.fld F.PWMn_CFG_MODE n 0 = 3 then 2 * s.perAct n else s.perAct n) * 2 ^ s.fld F.PWMn_CFG_PRE n 0 := by
    rw [own, now]
    exact Nat.add_sub_cancel_left ..
  have due := State.mem_sched (s := u) now (u.pwm[n].stepLc u.pwm[n].len - u.now) (.pwmPeriodStart n)
  rw [State.pwmBegin_runs s n (by omega), ← hu, State.pwmTimes]
  dsimp only
  rw [fixed, ← last]
  simp only [Bool.false_eq_true, if_false]
  split
  · exact due
  · exact List.mem_append_left _ (List.mem_filter.mpr ⟨due, by simp⟩)

/-! ## Period starts that load -/

/-- Copies of a group at the period start of its lead, whose new period comes after them. -/
def State.startLoad (s : State) (n m : GenId) : State := if m = n then s.pwmTake n else s.pwmCopy m

theorem State.startLoad_only (n : GenId) (s : State) (m : GenId) : State.genOnly (atPwmOwn m) m s (s.startLoad n m) := by
  unfold State.startLoad
  split
  next h => rw [h]; exact s.pwmTake_only n
  · exact s.pwmCopy_only m

theorem State.startLoad_copied (n : GenId) (s : State) (m : GenId) : s.copiedFrom m (s.startLoad n m) := by
  unfold State.startLoad
  split
  next h => rw [h]; exact s.pwmTake_copied n
  · exact s.pwmCopy_copied m

/-- The copies of the group at its lead's period start. -/
def State.startGroup (s : State) (n : GenId) : State :=
  if s.grpLead (s.grpOf n) = some n && s.grpPend (s.grpOf n) && s.loadsAtStart (s.grpOf n) n then
    ((s.grpMembers (s.grpOf n)).foldl (State.startLoad · n) s).setGrpPend (s.grpOf n) false
  else s

/-- The copy of a member at its own period start. -/
def State.startOwn (s : State) (n : GenId) (k : Nat) : State :=
  if s.ldpt k = 3 && s.pwm[n].pend then (s.modPwm n fun g => { g with pend := false }).pwmTake n else s

theorem State.pwmPeriod_loads (s : State) (n : GenId) (hf : s.pwmRefuses = false) : ∃ b : Bool, s.pwmPeriod n false =
    if b = true then (((s.startGroup n).startOwn n (s.grpOf n)).pwmBegin n false).raiseEv (pwmSrc n)
    else ((s.startGroup n).startOwn n (s.grpOf n)).pwmBegin n false := by
  obtain ⟨u, hu⟩ : ∃ u, u = (s.startGroup n).startOwn n (s.grpOf n) := ⟨_, rfl⟩
  have form : s.pwmPeriod n false = if (u.pwmBegin n false).pwmRuns n && !((u.pwmRuns n && u.pwm[n].begins u.now && !u.pwm[n].phased) && false)
      then (u.pwmBegin n false).raiseEv (pwmSrc n) else u.pwmBegin n false := by
    unfold State.pwmPeriod
    dsimp only
    rw [hf, hu]
    rfl
  exact ⟨_, by rw [form, hu]⟩

/-- What the copies at a period start leave: the time, the shadows, and every register but PWM_PEND and the generators' own. -/
def State.loadsOnly (s t : State) : Prop :=
  t.now = s.now ∧ t.old = s.old ∧
    ∀ q k l, (∀ m, ¬atPwmOwn m (q.addr k l)) → q.addr k l ≠ RegName.PWM_PEND.addr 0 0 → t.reg q k l = s.reg q k l

namespace State.loadsOnly
variable {t u : State} {m : GenId}

theorem refl (s : State) : State.loadsOnly s s := ⟨rfl, rfl, fun _ _ _ _ _ => rfl⟩

theorem trans (h : State.loadsOnly s t) (g : State.loadsOnly t u) : State.loadsOnly s u := by
  obtain ⟨now, old, reg⟩ := h
  obtain ⟨now', old', reg'⟩ := g
  exact ⟨now'.trans now, old'.trans old, fun q k l hq hp => (reg' q k l hq hp).trans (reg q k l hq hp)⟩

theorem of_genOnly (h : State.genOnly (atPwmOwn m) m s t) : State.loadsOnly s t := ⟨h.now, h.old, fun _ _ _ hq _ => h.reg (hq m)⟩

theorem setGrpPend (s : State) (k : Nat) (b : Bool) : State.loadsOnly s (s.setGrpPend k b) :=
  ⟨rfl, rfl, fun _ _ _ _ hp => State.reg_setReg_ne _ _ hp⟩

theorem cfg (h : State.loadsOnly s t) (m : GenId) : t.reg .PWMn_CFG m 0 = s.reg .PWMn_CFG m 0 := by
  obtain ⟨-, -, reg⟩ := h
  refine reg _ _ _ (fun k ho => ?_) (by simp only [RegName.addr, RegName.base, RegName.dims]; omega)
  rw [atPwmOwn_iff] at ho
  simp only [RegName.addr, RegName.base, RegName.dims] at ho
  omega
end State.loadsOnly

theorem State.setGrpPend_clear (s : State) {k : Nat} (hk : k < 16) : (s.setGrpPend k false).grpPend k = false := by
  rw [State.grpPend, State.setGrpPend, State.reg_setReg_same]
  rw [setBits_getLsbD _ _ _ _ _ (by omega) (by omega), if_pos ⟨le_refl k, le_refl k⟩, Nat.sub_self]
  rfl

theorem State.startGroup_loads (s : State) (n : GenId) : State.loadsOnly s (s.startGroup n) := by
  unfold State.startGroup
  split
  · exact (foldl_keeps (State.loadsOnly s) (fun t m ht => ht.trans (.of_genOnly (State.startLoad_only n t m))) _ s (.refl s)).trans
      (.setGrpPend _ _ _)
  · exact .refl s

theorem State.startOwn_only (s : State) (n : GenId) (k : Nat) : State.loadsOnly s (s.startOwn n k) := by
  unfold State.startOwn
  split
  · exact State.loadsOnly.trans (t := s.modPwm n fun g => { g with pend := false }) ⟨rfl, rfl, fun _ _ _ _ _ => rfl⟩
      (.of_genOnly (State.pwmTake_only _ n))
  · exact .refl s

/-- The group's copies at its lead's period start: nothing pends, and every member has its values. -/
theorem State.startGroup_copied (hlead : s.grpLead (s.grpOf n) = some n) (hpend : s.grpPend (s.grpOf n) = true)
    (hload : s.loadsAtStart (s.grpOf n) n = true) : (s.startGroup n).grpPend (s.grpOf n) = false ∧
      ∀ m ∈ s.grpMembers (s.grpOf n), s.copiedFrom m (s.startGroup n) := by
  rw [State.startGroup, if_pos (by rw [hpend, hload, hlead]; simp)]
  refine ⟨State.setGrpPend_clear _ (grpOf_lt s n), fun m hm => ?_⟩
  obtain ⟨u, before, after⟩ := foldl_gen (f := (State.startLoad · n)) (fun t m => State.startLoad_only n t m) (s.grpMembers_nodup _) s hm
  have copied : s.copiedFrom m (u.startLoad n m) := (u.startLoad_copied n m).of_old before.2.1
  refine (after.copied copied).of_regs fun r hr => State.reg_setReg_ne _ _ ?_
  simp only [List.mem_cons, List.not_mem_nil, or_false] at hr
  obtain rfl | rfl | rfl := hr <;> simp only [RegName.addr, RegName.base, RegName.dims] <;> omega

theorem State.startOwn_copied {t : State} {m : GenId} (k : Nat) (ho : t.old = s.old) (hc : s.copiedFrom m t) :
    s.copiedFrom m (t.startOwn n k) := by
  unfold State.startOwn
  split
  · by_cases h : n = m
    · rw [← h]
      exact (State.pwmTake_copied (t.modPwm n fun g => { g with pend := false }) n).of_old ho
    · exact (State.sparesGen.of_genOnly (State.pwmTake_only _ n) h).copied (s := t.modPwm n fun g => { g with pend := false }) hc
  · exact hc

theorem State.startOwn_pend (t : State) (k : Nat) (g : Nat) : (t.startOwn n k).grpPend g = t.grpPend g := by
  unfold State.startOwn
  split
  · refine congrArg (fun w : Word => w.getLsbD g) ((State.genOnly.reg (State.pwmTake_only (t.modPwm n fun g => { g with pend := false }) n)
      fun ho => ?_).trans rfl)
    rw [atPwmOwn_iff] at ho
    simp only [RegName.addr, RegName.base, RegName.dims] at ho
    omega
  · rfl

/-- A member with its own load point takes its copy at its period start. -/
theorem State.startOwn_member (hl : s.ldpt (s.grpOf n) = 3) (hp : s.pwm[n].pend = true) :
    ((s.startGroup n).startOwn n (s.grpOf n)).pwm[n].pend = false ∧ s.copiedFrom n ((s.startGroup n).startOwn n (s.grpOf n)) := by
  have none : s.startGroup n = s := by
    rw [State.startGroup, if_neg]
    rw [State.loadsAtStart, hl]
    simp
  rw [none, State.startOwn, if_pos (by rw [hl, hp]; rfl)]
  refine ⟨?_, (State.pwmTake_copied (s.modPwm n fun g => { g with pend := false }) n).of_old rfl⟩
  rw [(State.pwmTake_only (s.modPwm n fun g => { g with pend := false }) n).pend, State.pwm_modPwm_same]

/-- A period start that loads: what stands before the new period. -/
theorem exec_pwmPeriodStart_loads (hl : s.mode.live = true) (hr : s.flag F.PWMn_STAT_RUN n 0 = true) (hf : s.pwmRefuses = false)
    (hm : s.fld F.PWMn_CFG_MODE n 0 ≠ 0) : ∃ u t, exec (.pwmPeriodStart n) s = .next t ∧
      u = ((s.lasted n).startGroup n).startOwn n (s.grpOf n) ∧ State.genOnly (atPwmStat n) n u t ∧
      t.pwm[n].began = s.now ∧ t.pwm[n].per = u.perAct n := by
  have refuses : (s.lasted n).pwmRefuses = false := by
    have stat : (s.lasted n).reg .TW_STAT 0 0 = s.reg .TW_STAT 0 0 :=
      s.reg_lasted_ne n (by simp only [RegName.addr, RegName.base, RegName.dims]; omega)
    exact (congrArg (fun w => getBits w _ _ != 0) stat).trans hf
  obtain ⟨b, form⟩ := (s.lasted n).pwmPeriod_loads n refuses
  obtain ⟨u, hu⟩ : ∃ u, u = ((s.lasted n).startGroup n).startOwn n (s.grpOf n) := ⟨_, rfl⟩
  rw [s.grpOf_lasted n n, ← hu] at form
  have loads : State.loadsOnly (s.lasted n) u := by
    rw [hu]
    exact ((s.lasted n).startGroup_loads n).trans (State.startOwn_only _ n _)
  have mode : u.fld F.PWMn_CFG_MODE n 0 ≠ 0 := by
    have same : u.fld F.PWMn_CFG_MODE n 0 = s.fld F.PWMn_CFG_MODE n 0 :=
      (congrArg (fun w => getBits w _ _) (loads.cfg n)).trans (s.cfgMode_lasted n n)
    rw [same]
    exact hm
  obtain ⟨own, -, -, only⟩ := u.pwmBegin_spec n (phased := false) mode
  have now : u.now = s.now := loads.1.trans (s.now_lasted n)
  refine ⟨u, (s.lasted n).pwmPeriod n false, exec_pwmPeriodStart_runs (State.runs_of hl hr), hu, ?_⟩
  have began : (u.pwmBegin n false).pwm[n].began = s.now ∧ (u.pwmBegin n false).pwm[n].per = u.perAct n := by
    rw [own]
    exact ⟨now, rfl⟩
  rw [form]
  split
  · exact ⟨only.trans ⟨⟨_, _, _, _, _, rfl⟩, fun _ _ => rfl, rfl, fun _ _ _ _ => rfl, fun _ => rfl⟩, began⟩
  · exact ⟨only, began⟩

/-! ## Middles, triggers, variable periods -/

theorem State.pwmSegment_ev (t : State) (b : Bool) : (t.pwmSegment n b).mx = t.mx ∧ (t.pwmSegment n b).pwm = (t.modPwm n (·.segmented b)).pwm := by
  obtain ⟨c, hc⟩ := t.pwmSegment_cal n b
  rw [hc]
  exact ⟨rfl, rfl⟩

theorem PwmSt.variable_fixed {g : PwmSt} (h : g.mode = 1 ∨ g.mode = 2 ∨ g.mode = 3) : g.variable = false := by
  rw [PwmSt.variable, decide_eq_false (by omega), decide_eq_false (by omega)]
  rfl

section
variable (hr : s.pwmRuns n = true)
include hr

/-- What a period middle that loads nothing does. -/
theorem exec_pwmPeriodMiddle_calm (hg : s.grpPend (s.grpOf n) = false) (hv : s.pwm[n].variable = false) (hd : s.pwm[n].down = false) :
    exec (.pwmPeriodMiddle n) s = .next (if s.pwm[n].mode = 3 then
      (((s.unsched (.pwmPeriodMiddle n)).raiseEv (pwmSrc n + 1)).modPwm n fun g => { g with down := true }).pwmSegment n false
      else (s.unsched (.pwmPeriodMiddle n)).raiseEv (pwmSrc n + 1)) := by
  have quiet : ((s.unsched (.pwmPeriodMiddle n)).raiseEv (pwmSrc n + 1)).grpPend
      (((s.unsched (.pwmPeriodMiddle n)).raiseEv (pwmSrc n + 1)).grpOf n) = false := hg
  change execPwmPeriodMiddle n s = _
  rw [execPwmPeriodMiddle]
  dsimp only
  rw [quiet, hr, hv, hd]
  simp only [Bool.not_false, Bool.and_self, Bool.and_false, Bool.false_and, if_true, Bool.false_eq_true, if_false]

theorem exec_pwmTriggerCompare_fires {k : Fin 2} (hf : s.pwm[n].firedT[k] = false) (ht : (s.pwm[n].trgStep k).isSome = true) :
    exec (.pwmTriggerCompare n k) s = .next
      (((s.unsched (.pwmTriggerCompare n k)).modPwm n fun y => { y with firedT := vset y.firedT k true }).raiseEv (pwmSrc n + 2 + k.val)) := by
  change execPwmTriggerCompare n k s = _
  rw [execPwmTriggerCompare]
  dsimp only
  rw [hr, hf, ht]
  rfl

theorem exec_phaseEvent_variable (hv : s.pwm[n].variable = true) : exec (.phaseEvent n) s = .next
    ((s.unsched (.phaseEvent n)).raiseEv (pwmSrc n + 4)) := by
  change execPhaseEvent n s = _
  rw [execPhaseEvent, hr, hv]
  rfl

variable (hv : s.pwm[n].variable = true) (he : s.pwm[n].ended = none)
include hv he

theorem State.pwmOpen_variable : s.pwmOpen n = true := by rw [State.pwmOpen, hr, hv, he]; rfl

theorem State.maxNow_variable : s.maxNow n = decide (s.pwm[n].per ≤ s.pwm[n].stepAt (s.now + 1)) := by
  rw [State.maxNow, State.pwmOpen_variable hr hv he, Bool.true_and]
end

/-- The period ends with step k of a generator that counts as it did. -/
theorem State.pwmEnd_eq {t : State} {g : PwmSt} (h : ∀ j, t.pwm[n].stepLc j = g.stepLc j) (k : Nat) : t.pwmEnd n k =
    ((t.modPwm n fun y => { y with ended := some k }).setFld F.PWMn_LASTPER_LASTPER n 0 (min 65535 (k + 1))).schedAt
      (g.stepLc (k + 1)) (.pwmPeriodStart n) := by
  have at_ : ((t.modPwm n fun y => { y with ended := some k }).setFld F.PWMn_LASTPER_LASTPER n 0 (min 65535 (k + 1))).pwm[n].stepLc (k + 1) =
      g.stepLc (k + 1) := by
    have own : ((t.modPwm n fun y => { y with ended := some k }).setFld F.PWMn_LASTPER_LASTPER n 0 (min 65535 (k + 1))).pwm[n] =
      { t.pwm[n] with ended := some k } := t.pwm_modPwm_same n _
    rw [own]
    exact h (k + 1)
  rw [State.pwmEnd, at_]

theorem exec_periodEnd_open (ho : s.pwmOpen n = true) (ha : s.armCount n ≤ s.pwm[n].stepAt s.now) (hp : s.armCount n ≤ s.pwm[n].per - 1) :
    exec (.periodEnd n) s = .next
      (if s.flag F.PWMn_CFG_FOLLOW n 0 = true ∧ s.pwm[n].pstart = false then
        s.modPwm n fun g => { g with endSeen := some (g.endSeen.getD (s.pwm[n].stepAt s.now)) }
      else (s.modPwm n fun g => { g with endSeen := some (g.endSeen.getD (s.pwm[n].stepAt s.now)) }).pwmEnd n (s.pwm[n].stepAt s.now)) := by
  have follow : (s.modPwm n fun g => { g with endSeen := some (g.endSeen.getD (s.pwm[n].stepAt s.now)) }).flag F.PWMn_CFG_FOLLOW n 0 =
    s.flag F.PWMn_CFG_FOLLOW n 0 := rfl
  change execPeriodEnd n s = _
  rw [execPeriodEnd]
  dsimp only
  rw [ho, decide_eq_true ha, decide_eq_true hp, follow]
  simp only [Bool.and_self, if_true, Bool.and_eq_true, Bool.not_eq_true']
  split <;> rfl

theorem exec_periodMax_open (ho : s.pwmOpen n = true) : exec (.periodMax n) s = .next
    (((s.raiseEv (pwmSrc n + 7)).bump F.PWMn_ERR_CNT_PMAX n 0).pwmEnd n (s.pwm[n].per - 1)) := by
  change execPeriodMax n s = _
  rw [execPeriodMax, if_pos ho]
  rfl

theorem exec_pstart_open (ho : s.pwmOpen n = true) (hf : s.flag F.PWMn_CFG_FOLLOW n 0 = true) {t : State}
    (ht : t = (s.modPwm n fun y => { y with pstart := true }).mark (pstartMark n) true) : exec (.pstart n) s = .next
      (match s.pwm[n].endSeen with
        | some j => if s.pwm[n].stepAt s.now < s.pwm[n].per - 1 ∨ s.pwm[n].per - 1 ≤ j then t.pwmEnd n (s.pwm[n].stepAt s.now) else t
        | none => t) := by
  have own : t.pwm[n] = { s.pwm[n] with pstart := true } := by rw [ht]; exact s.pwm_modPwm_same n _
  have now : t.now = s.now := by rw [ht]; rfl
  change execPstart n s = _
  rw [execPstart, ho, hf]
  dsimp only
  rw [if_pos (show (true && true) = true from rfl), ← ht, own, now] <;> rfl
end

/-- Settles O30: a period start by its calm and its loading case, a compare by the REF edge it makes. -/
theorem pwmPeriods : Obligations.PwmPeriods := by
  unfold Obligations.PwmPeriods
  constructor
  · intro s n b k live run g mode per x grp calm copied only
    have runs := State.runs_of live run
    refine ⟨fun ⟨hg, hp⟩ hm => ?_, fun ⟨hg, hp⟩ hm => ?_, fun hf hm => ?_, fun ⟨hg, _⟩ hm hd => ?_, fun ⟨hg, _⟩ hm hd => ?_,
      fun lvl off hf ha hw => ?_, ?_, exec_pwmTriggerCompare_fires runs⟩
    · have on : s.fld F.PWMn_CFG_MODE n 0 ≠ 0 := by
        change (s.fld F.PWMn_CFG_MODE n 0 = 1 ∨ s.fld F.PWMn_CFG_MODE n 0 = 2 ∨ s.fld F.PWMn_CFG_MODE n 0 = 3) at hm
        omega
      obtain ⟨u, hu⟩ : ∃ u, u = s.lasted n := ⟨_, rfl⟩
      have cfg : u.reg .PWMn_CFG n 0 = s.reg .PWMn_CFG n 0 := by rw [hu]; exact s.cfg_lasted n n
      have mode' : u.fld F.PWMn_CFG_MODE n 0 = s.fld F.PWMn_CFG_MODE n 0 := congrArg (fun w => getBits w _ _) cfg
      have pre : u.fld F.PWMn_CFG_PRE n 0 = s.fld F.PWMn_CFG_PRE n 0 := congrArg (fun w => getBits w _ _) cfg
      have now : u.now = s.now := by rw [hu]; exact s.now_lasted n
      have per' : u.perAct n = per := by rw [hu, s.perAct_lasted n]; rfl
      obtain ⟨own, started, -, kept⟩ := u.pwmBegin_spec n (phased := false) (by rw [mode']; exact on)
      have due := State.pwmBegin_ends (s := u) (n := n) (by rw [mode']; exact hm)
      rw [mode', pre, now, per'] at due
      refine ⟨(u.pwmBegin n false).raiseEv (pwmSrc n), by rw [hu]; exact exec_pwmPeriodStart_calm live run hg hp on, ?_, ?_, ?_, ?_, started,
        List.mem_append_right _ (List.mem_singleton.mpr rfl), due, fun hb he => ?_⟩
      · exact (congrArg PwmSt.began own).trans now
      · exact congrArg PwmSt.k0 own
      · exact (congrArg PwmSt.mode own).trans mode'
      · exact (congrArg PwmSt.per own).trans per'
      · have last : (u.pwmBegin n false).reg .PWMn_LASTPER n 0 = u.reg .PWMn_LASTPER n 0 := kept.reg (by
          simp only [atPwmStat, RegName.addr, RegName.base, RegName.dims]; omega)
        refine (congrArg (fun w => getBits w F.PWMn_LASTPER_LASTPER.hi F.PWMn_LASTPER_LASTPER.lo) last).trans ?_
        rw [hu]
        exact State.lasted_length hb he
    · obtain ⟨t, ht, off, first⟩ := exec_pwmPeriodStart_stops live run hg hp hm
      exact ⟨t, ht, off, State.pwmFirst_halted off first⟩
    · obtain ⟨u, t, ht, hu, kept, began, per'⟩ := exec_pwmPeriodStart_loads live run hf hm
      have copies : ∀ m, s.copiedFrom m u → copied t m := fun m hc => hc.of_regs fun r hr => kept.reg (act_not_stat hr)
      have act : t.reg .PWMn_PER_ACT n 0 = u.reg .PWMn_PER_ACT n 0 := kept.reg (act_not_stat (by simp))
      have period : t.perAct n = u.perAct n := by
        have same : t.fld F.PWMn_PER_ACT_VALUE n 0 = u.fld F.PWMn_PER_ACT_VALUE n 0 := congrArg (fun w => getBits w _ _) act
        rw [State.perAct_eq, State.perAct_eq, same]
      have loads : s.loadsAtStart (s.grpOf n) n = (s.lasted n).loadsAtStart (s.grpOf n) n := by
        have cfg : (s.lasted n).reg .PWM_GRPk_CFG (s.grpOf n) 0 = s.reg .PWM_GRPk_CFG (s.grpOf n) 0 :=
          s.reg_lasted_ne n (by simp only [RegName.addr, RegName.base, RegName.dims]; have := grpOf_lt s n; omega)
        have point : (s.lasted n).ldpt (s.grpOf n) = s.ldpt (s.grpOf n) := congrArg (fun w => getBits w _ _) cfg
        rw [State.loadsAtStart, State.loadsAtStart, point, s.cfgMode_lasted n n]
      have members : (s.lasted n).grpMembers (s.grpOf n) = s.grpMembers (s.grpOf n) :=
        List.filter_congr fun m _ => by rw [s.grpOf_lasted n m]
      refine ⟨t, ht, began, per'.trans period.symm, fun hlead hpend hload => ?_, fun hpt hp => ?_⟩
      · obtain ⟨clear, all⟩ := State.startGroup_copied (s := s.lasted n) (n := n)
          (by rw [s.grpOf_lasted n n, State.grpLead, members]; exact hlead) (by rw [s.grpOf_lasted n n, s.grpPend_lasted n]; exact hpend)
          (by rw [s.grpOf_lasted n n, ← loads]; exact hload)
        rw [s.grpOf_lasted n n] at clear all
        have old : ((s.lasted n).startGroup n).old = (s.lasted n).old := ((s.lasted n).startGroup_loads n).2.1
        refine ⟨?_, fun m hm => copies m ?_⟩
        · have pend : t.reg .PWM_PEND 0 0 = u.reg .PWM_PEND 0 0 := kept.reg (by
            simp only [atPwmStat, RegName.addr, RegName.base, RegName.dims]; omega)
          refine (congrArg (fun w : Word => w.getLsbD (s.grpOf n)) pend).trans ?_
          rw [hu]
          exact (State.startOwn_pend _ _ _).trans clear
        · rw [hu]
          exact (State.startOwn_copied _ old (all m (by rw [members]; exact hm))).of_old (s.old_lasted n)
      · have point : (s.lasted n).ldpt (s.grpOf n) = 3 := by
          have cfg : (s.lasted n).reg .PWM_GRPk_CFG (s.grpOf n) 0 = s.reg .PWM_GRPk_CFG (s.grpOf n) 0 :=
            s.reg_lasted_ne n (by simp only [RegName.addr, RegName.base, RegName.dims]; have := grpOf_lt s n; omega)
          exact (congrArg (fun w => getBits w _ _) cfg).trans hpt
        obtain ⟨free, taken⟩ := State.startOwn_member (s := s.lasted n) (n := n) (by rw [s.grpOf_lasted n n]; exact point)
          (by rw [s.pwm_lasted n]; exact hp)
        rw [s.grpOf_lasted n n, ← hu] at free taken
        exact ⟨kept.pend.trans free, copies n (taken.of_old (s.old_lasted n))⟩
    · have var : s.pwm[n].variable = false := PwmSt.variable_fixed (hm.imp_right .inl)
      rw [exec_pwmPeriodMiddle_calm runs hg var hd, if_neg fun h : s.pwm[n].mode = 3 => by obtain hm | hm := hm <;> exact absurd (hm.symm.trans h) (by decide)]
    · have var : s.pwm[n].variable = false := PwmSt.variable_fixed (.inr (.inr hm))
      obtain ⟨u, hu⟩ : ∃ u, u = ((s.unsched (.pwmPeriodMiddle n)).raiseEv (pwmSrc n + 1)).modPwm n fun g => { g with down := true } := ⟨_, rfl⟩
      obtain ⟨mx, pwm⟩ := State.pwmSegment_ev (n := n) u false
      refine ⟨u.pwmSegment n false, by rw [exec_pwmPeriodMiddle_calm runs hg var hd, if_pos hm, hu], ?_, fun m hm => ?_, ?_⟩
      · rw [pwm, State.pwm_modPwm_same, hu]
        exact congrArg PwmSt.down (State.pwm_modPwm_same ((s.unsched (.pwmPeriodMiddle n)).raiseEv (pwmSrc n + 1)) n _)
      · rw [pwm, State.pwm_modPwm_ne _ n _ hm, hu]
        exact State.pwm_modPwm_ne ((s.unsched (.pwmPeriodMiddle n)).raiseEv (pwmSrc n + 1)) n _ hm
      · rw [mx, hu]
        exact List.mem_append_right _ (List.mem_singleton.mpr rfl)
    · obtain ⟨e, he⟩ := exec_pwmCompareAction_fires runs hf ha
      obtain ⟨ref, fired, others⟩ := State.pwmFire_spec (s := s.unsched (.pwmCompareAction n b)) hw x lvl e
      refine ⟨_, he, ?_, ?_, others, ?_⟩
      · rw [ref]; exact vset_getElem_same _ _ _
      · rw [fired]; exact vset_getElem_same _ _ _
      · rw [ref]
        refine vset_getElem_ne _ _ ?_
        cases b <;> decide
    · intro v at_ fin
      refine ⟨fun hm => PwmSt.action_up_inside (.inl hm), PwmSt.action_up_outside, PwmSt.action_down_inside,
        fun hm hd => PwmSt.action_up_inside (.inr ⟨hm, hd⟩), PwmSt.action_half_inside, fun hm => ?_, fun hm => ?_⟩
      · rw [PwmSt.action, hm]
        simp only [← Nat.mul_assoc, PwmSt.st, at_, g]
      · rw [PwmSt.action, hm]
        simp only [← Nat.mul_assoc, PwmSt.st, at_, g]
  · intro s n live run var g k follow ended seen started
    have runs := State.runs_of live run
    have vary : s.pwm[n].variable = true := by
      rw [PwmSt.variable, Bool.or_eq_true, decide_eq_true_eq, decide_eq_true_eq]; exact var
    refine ⟨fun he ha hp => ?_, fun he => ⟨State.maxNow_variable runs vary he, ?_⟩, fun he hf => ?_, exec_phaseEvent_variable runs vary⟩
    · rw [exec_periodEnd_open (State.pwmOpen_variable runs vary he) ha hp]
      rw [State.pwmEnd_eq (g := s.pwm[n]) fun j => by rw [State.pwm_modPwm_same]; rfl]
    · rw [exec_periodMax_open (State.pwmOpen_variable runs vary he),
        State.pwmEnd_eq (t := (s.raiseEv (pwmSrc n + 7)).bump F.PWMn_ERR_CNT_PMAX n 0) (g := s.pwm[n]) fun j => rfl]
    · have count : ∀ j, started.pwm[n].stepLc j = s.pwm[n].stepLc j := fun j => by
        change (s.modPwm n fun y => { y with pstart := true }).pwm[n].stepLc j = _
        rw [State.pwm_modPwm_same]
        rfl
      have taken := exec_pstart_open (State.pwmOpen_variable runs vary he) hf (t := started) rfl
      refine ⟨fun hs => by rw [taken, hs], fun j hs => ?_⟩
      rw [taken, hs, State.pwmEnd_eq (g := s.pwm[n]) count]

end Sys2Proof.Machine
end

