-- ==== Sys2Proof/Proofs/Comparators.lean ====
section
/-! PROOF. Comparator thresholds, decisions and windows (R86 to R98). -/

namespace Sys2Proof.Machine

theorem State.lv_setLv_same (s : State) (k : Nat) (b : Bool) : (s.setLv k b).mx.lv.get k false = b := SMap.get_put_same _ _ _ _

theorem State.lv_setLv_ne (s : State) {k q : Nat} (b : Bool) (h : q ≠ k) : (s.setLv k b).mx.lv.get q false = s.mx.lv.get q false :=
  SMap.get_put_ne _ _ _ _ h

theorem State.cmp_modCmp_same (s : State) (n : CmpId) (f : CmpSt → CmpSt) : (s.modCmp n f).cmps.cmp[n] = f s.cmps.cmp[n] :=
  vset_getElem_same _ _ _

theorem State.cmp_modCmp_ne (s : State) {n m : CmpId} (f : CmpSt → CmpSt) (h : m ≠ n) : (s.modCmp n f).cmps.cmp[m] = s.cmps.cmp[m] :=
  vset_getElem_ne _ _ h.symm

/-! ## Levels -/

/-- Only the levels of sources change. -/
def State.litOnly (s t : State) : Prop := ∃ lv chg, t = { s with mx := { s.mx with lv := lv, chg := chg } }

namespace State.litOnly
variable {s t u : State}

theorem trans (h : State.litOnly s t) (g : State.litOnly t u) : State.litOnly s u := by
  obtain ⟨_, _, rfl⟩ := h
  obtain ⟨_, _, rfl⟩ := g
  exact ⟨_, _, rfl⟩

theorem setLv (s : State) (k : Nat) (b : Bool) : State.litOnly s (s.setLv k b) := ⟨_, _, rfl⟩

theorem winSee (s : State) (k : WinId) : State.litOnly s (s.winSee k) :=
  (((setLv s _ _).trans (setLv _ _ _)).trans (setLv _ _ _)).trans (setLv _ _ _)

theorem winOf (s : State) (n : CmpId) : State.litOnly s (s.winOf n) := by
  unfold State.winOf
  split
  · exact winSee s _
  · exact ⟨_, _, rfl⟩

theorem cmpUpdate (s : State) (n : CmpId) : State.litOnly s (s.cmpUpdate n) := (setLv s _ _).trans (winOf _ n)

theorem cmps (h : State.litOnly s t) : t.cmps = s.cmps := by obtain ⟨_, _, rfl⟩ := h; rfl
theorem regs (h : State.litOnly s t) : t.regs = s.regs := by obtain ⟨_, _, rfl⟩ := h; rfl
theorem now (h : State.litOnly s t) : t.now = s.now := by obtain ⟨_, _, rfl⟩ := h; rfl
theorem mode (h : State.litOnly s t) : t.mode = s.mode := by obtain ⟨_, _, rfl⟩ := h; rfl
theorem cal (h : State.litOnly s t) : t.cal = s.cal := by obtain ⟨_, _, rfl⟩ := h; rfl
theorem dlv (h : State.litOnly s t) : t.mx.dlv = s.mx.dlv := by obtain ⟨_, _, rfl⟩ := h; rfl
end State.litOnly

/-- The sources of a window show what it sees, and its gated one does not rise yet. -/
theorem State.winSee_levels (s : State) (k : WinId) :
    (s.winSee k).mx.lv.get (0x0D0 + 4 * k.val) false = (s.winLevels k).1 ∧
    (s.winSee k).mx.lv.get (0x0D0 + 4 * k.val + 1) false = (s.winLevels k).2.1 ∧
    (s.winSee k).mx.lv.get (0x0D0 + 4 * k.val + 2) false = (s.winLevels k).2.2.1 ∧
    (s.winSee k).mx.lv.get (0x0D0 + 4 * k.val + 3) false = (s.mx.lv.get (0x0D0 + 4 * k.val + 3) false && (s.winLevels k).2.2.2) ∧
    ∀ q < 0x0D0, (s.winSee k).mx.lv.get q false = s.mx.lv.get q false := by
  unfold State.winSee
  dsimp only
  refine ⟨?_, ?_, ?_, State.lv_setLv_same _ _ _, fun q hq => ?_⟩
  · rw [State.lv_setLv_ne _ _ (by omega), State.lv_setLv_ne _ _ (by omega), State.lv_setLv_ne _ _ (by omega), State.lv_setLv_same]
  · rw [State.lv_setLv_ne _ _ (by omega), State.lv_setLv_ne _ _ (by omega), State.lv_setLv_same]
  · rw [State.lv_setLv_ne _ _ (by omega), State.lv_setLv_same]
  · rw [State.lv_setLv_ne _ _ (by omega), State.lv_setLv_ne _ _ (by omega), State.lv_setLv_ne _ _ (by omega), State.lv_setLv_ne _ _ (by omega)]

theorem State.winOf_low (s : State) (n : CmpId) {q : Nat} (hq : q < 0x0D0) : (s.winOf n).mx.lv.get q false = s.mx.lv.get q false := by
  unfold State.winOf
  split
  · obtain ⟨-, -, -, -, low⟩ := s.winSee_levels (Fin.ofNat 16 (n.val / 2))
    exact low q hq
  · rfl

/-- A comparator's source shows its output; those of the others stay. -/
theorem State.cmpUpdate_levels (s : State) (n : CmpId) : (s.cmpUpdate n).mx.lv.get (0x0A0 + n.val) false = s.cmpOut n ∧
    ∀ m : CmpId, m ≠ n → (s.cmpUpdate n).mx.lv.get (0x0A0 + m.val) false = s.mx.lv.get (0x0A0 + m.val) false := by
  refine ⟨(State.winOf_low _ n (by omega)).trans (s.lv_setLv_same _ _), fun m hm => ?_⟩
  have := Fin.val_ne_of_ne hm
  exact (State.winOf_low _ n (by omega)).trans (s.lv_setLv_ne _ (by omega))

/-! ## Thresholds -/

theorem State.settleTo_some (s : State) (n : CmpId) (e : Nat) : s.settleTo n (some e) =
    ((s.modCmp n fun c => { c with ends := some e }).setFld F.CMPn_STAT_SETTLING n 0 1).schedAt e (.dacSettled n) := rfl

theorem State.settleTo_none (s : State) (n : CmpId) : s.settleTo n none =
    ((s.modCmp n fun c => { c with ends := none }).setFld F.CMPn_STAT_SETTLING n 0 0).unsched (.dacSettled n) := rfl

theorem exec_dacSettled_early {s : State} {n : CmpId} {e : Nat} (h : s.cmps.cmp[n].ends = some e) (ht : s.now < e) :
    exec (.dacSettled n) s = .next s := by
  change execDacSettled n s = _
  rw [execDacSettled, h, Option.any_some, decide_eq_true ht, if_pos rfl]

theorem exec_dacSettled_over {s : State} {n : CmpId} (h : ∀ e, s.cmps.cmp[n].ends = some e → e ≤ s.now) : exec (.dacSettled n) s = .next
    ((s.modCmp n fun c => { c with level := dacLevel c.dac }).settleTo n none) := by
  have passed : (s.cmps.cmp[n].ends.any fun e => decide (s.now < e)) = false := by
    rw [Option.any_eq_false]
    intro e he
    exact decide_eq_false (Nat.not_lt.mpr (h e he))
  change execDacSettled n s = _
  rw [execDacSettled, passed, if_neg Bool.false_ne_true]

section
variable {s : State} {n : CmpId}

theorem State.dacMove_same (h : s.cmpCode n = s.cmps.cmp[n].dac) : s.dacMove n = s := by
  unfold State.dacMove
  exact if_pos h

theorem State.dacMove_off (h : s.cmpCode n ≠ s.cmps.cmp[n].dac) (hl : s.mode.live = false) :
    s.dacMove n = s.modCmp n fun c => { c with dac := s.cmpCode n, level := dacLevel (s.cmpCode n) } := by
  unfold State.dacMove
  dsimp only
  rw [if_neg h, hl] <;> rfl

/-- Steps of more than 64 codes settle for 16 lc, others for 4. -/
def dacSpan (new old : Nat) : Nat := if new ≤ old + 64 ∧ old ≤ new + 64 then 4 else 16

theorem State.dacMove_live (h : s.cmpCode n ≠ s.cmps.cmp[n].dac) (hl : s.mode.live = true) {start : Nat × Option Nat}
    (hs : s.cmps.cmp[n].from_ s.now = start) :
    s.dacMove n = ((s.winOf n).modCmp n fun c => { c with dac := s.cmpCode n, was := some (s.now, start) }).settleTo n
      (if s.cmpCode n = start.1 then start.2 else some (s.now + dacSpan (s.cmpCode n) start.1)) := by
  have lit := State.litOnly.winOf s n
  have span : dacSpan (s.cmpCode n) start.1 = if max (s.cmpCode n) start.1 - min (s.cmpCode n) start.1 ≤ 64 then 4 else 16 := by
    unfold dacSpan
    exact if_congr (by omega) rfl rfl
  unfold State.dacMove
  dsimp only
  rw [if_neg h, hl, if_neg (by decide), lit.now, hs, span]
  change State.settleTo _ n (if s.cmpCode n = start.1 then start.2 else some ((s.winOf n).now + _)) = _
  rw [lit.now]

/-- The register of a threshold, and the code stored there. -/
def thrReg (alt : Bool) : RegName := if alt then .CMPn_THR_ALT else .CMPn_THR

theorem State.thrStore_free (h : s.cmpCheckOf n = none) (alt : Bool) (code : BitVec 12) :
    s.thrStore n alt code = (s.setReg (thrReg alt) n 0 (code.setWidth 32)).dacMove n := by
  rw [State.thrStore, h]
  cases alt <;> rfl

theorem State.thrStore_held {c : CheckSt} (h : s.cmpCheckOf n = some c) (alt : Bool) (code : BitVec 12) : s.thrStore n alt code =
    { s with cmps := { s.cmps with chk := some (if alt then { c with alt := some code } else { c with thr := some code }) } } := by
  rw [State.thrStore, h]

theorem thrReg_addr (alt : Bool) (n : CmpId) : (thrReg alt).addr n 0 = thrAddr n alt := by cases alt <;> rfl

theorem State.mode_setThr (s : State) (alt : Bool) (w : Word) : (s.setReg (thrReg alt) n 0 w).mode = s.mode := by
  refine State.mode_congr (State.reg_setReg_ne _ _ ?_) rfl rfl
  cases alt
  · change RegName.SYS_CLK_STAT.addr 0 0 ≠ RegName.CMPn_THR.addr n 0
    simp only [RegName.addr, RegName.base, RegName.dims]; omega
  · change RegName.SYS_CLK_STAT.addr 0 0 ≠ RegName.CMPn_THR_ALT.addr n 0
    simp only [RegName.addr, RegName.base, RegName.dims]; omega
end

/-! ## Crossings -/

section
variable {s : State} {n : CmpId} (hc : s.cmps.chk = none)
include hc

theorem State.cmpServes_none (p : CmpId) : s.cmpServes p = none := by rw [State.cmpServes, hc]; rfl

theorem State.cmpCheckOf_none (p : CmpId) : s.cmpCheckOf p = none := by rw [State.cmpCheckOf, hc]; rfl

theorem State.cmpRaw_free (p : CmpId) : s.cmpRaw p = s.cmps.cmp[p].dec := by rw [State.cmpRaw, State.cmpCheckOf_none hc p]

omit hc in
theorem State.partnerSees_free (h : s.cmpCheckOf n = none) (up : Bool) : s.partnerSees n up = s := by
  unfold State.partnerSees
  rw [h]

theorem State.cmpCross_off (up : Bool) (hm : s.cmpMode n ≠ 1) : s.cmpCross n up = s.cmpUpdate n := by
  rw [State.cmpCross, State.cmpServes_none hc n, if_neg hm]
  exact congrArg (State.cmpUpdate · n) (State.partnerSees_free (State.cmpCheckOf_none hc n) up)

theorem State.cmpCross_on (up : Bool) (hm : s.cmpMode n = 1) :
    s.cmpCross n up = (s.modCmp n fun c => { c with dec := up }).cmpUpdate n := by
  have free : (s.modCmp n fun c => { c with dec := up }).cmpCheckOf n = none := State.cmpCheckOf_none hc n
  rw [State.cmpCross, State.cmpServes_none hc n, if_pos hm]
  exact congrArg (State.cmpUpdate · n) (State.partnerSees_free free up)

theorem State.cmpOut_on (hl : s.mode.live = true) (hm : s.cmpMode n = 1) :
    s.cmpOut n = (s.cmps.cmp[n].dec ^^ s.flag F.CMPn_CFG_POL n 0) := by
  have on : decide (s.cmpMode n ≠ 0) = true := by rw [hm]; rfl
  rw [State.cmpOut, State.cmpCheckOf_none hc n, State.cmpRaw_free hc n, hl, on]
  rfl
end

/-- What a crossing leaves: the comparators but n, every register, and the sources but those of n and its window. -/
structure State.crossed (s t : State) (n : CmpId) : Prop where
  only : ∃ cmps lv chg, t = { s with cmps := cmps, mx := { s.mx with lv := lv, chg := chg } }
  chk : t.cmps.chk = s.cmps.chk
  others : ∀ m : CmpId, m ≠ n → t.cmps.cmp[m] = s.cmps.cmp[m]
  lv : ∀ m : CmpId, m ≠ n → t.mx.lv.get (0x0A0 + m.val) false = s.mx.lv.get (0x0A0 + m.val) false

section
variable {s : State} {n : CmpId} (hc : s.cmps.chk = none) (hl : s.mode.live = true)
include hc hl

theorem State.cmpCross_spec (up : Bool) : s.crossed (s.cmpCross n up) n ∧
    (s.cmpMode n = 1 → (s.cmpCross n up).cmps.cmp[n].dec = up ∧
      (s.cmpCross n up).mx.lv.get (0x0A0 + n.val) false = (up != s.flag F.CMPn_CFG_POL n 0)) ∧
    (s.cmpMode n ≠ 1 → (s.cmpCross n up).cmps.cmp[n] = s.cmps.cmp[n]) := by
  by_cases hm : s.cmpMode n = 1
  · obtain ⟨u, hu⟩ : ∃ u, u = s.modCmp n fun c => { c with dec := up } := ⟨_, rfl⟩
    have form : s.cmpCross n up = u.cmpUpdate n := by rw [hu]; exact State.cmpCross_on hc up hm
    obtain ⟨own, rest⟩ := u.cmpUpdate_levels n
    have lit := State.litOnly.cmpUpdate u n
    have dec : u.cmps.cmp[n].dec = up := by rw [hu, State.cmp_modCmp_same]
    rw [form]
    refine ⟨⟨?_, ?_, fun m hne => ?_, fun m hne => ?_⟩, fun _ => ⟨?_, ?_⟩, fun h => absurd hm h⟩
    · obtain ⟨lv, chg, h⟩ := lit
      exact ⟨u.cmps, lv, chg, by rw [h, hu]; rfl⟩
    · rw [lit.cmps, hu]; rfl
    · rw [lit.cmps, hu]; exact s.cmp_modCmp_ne _ hne
    · rw [rest m hne, hu]; rfl
    · rw [lit.cmps]; exact dec
    · rw [own, State.cmpOut_on (by rw [hu]; exact hc) (by rw [hu]; exact hl) (by rw [hu]; exact hm), dec, hu]
      rfl
  · have lit := State.litOnly.cmpUpdate s n
    obtain ⟨-, rest⟩ := s.cmpUpdate_levels n
    rw [State.cmpCross_off hc up hm]
    refine ⟨⟨?_, congrArg CmpArr.chk lit.cmps, fun m _ => by rw [lit.cmps], rest⟩, fun h => absurd h hm, fun _ => by rw [lit.cmps]⟩
    obtain ⟨lv, chg, h⟩ := lit
    exact ⟨s.cmps, lv, chg, h⟩

end

theorem exec_comparatorCrossing_alone {s : State} {n : CmpId} (hl : s.mode.live = true) (up : Bool) (ht : s.cmpTwin n = none) :
    exec (.comparatorCrossing n up) s = .next (s.cmpCross n up) := by
  change execComparatorCrossing n up s = _
  rw [execComparatorCrossing, if_pos hl, ht]

/-- The threshold of m is not beyond that of n. -/
def State.cmpThere (s : State) (n m : CmpId) (up : Bool) : Prop :=
  if up then s.cmps.cmp[m].level ≤ s.cmps.cmp[n].level else s.cmps.cmp[n].level ≤ s.cmps.cmp[m].level

theorem exec_comparatorCrossing_twin {s : State} {n m : CmpId} (hl : s.mode.live = true) (up : Bool) (ht : s.cmpTwin n = some m) :
    (s.cmpThere n m up → exec (.comparatorCrossing n up) s = .next ((s.cmpCross n up).cmpCross m up)) ∧
    (¬s.cmpThere n m up → exec (.comparatorCrossing n up) s = .next (s.cmpCross n up)) := by
  change (_ → execComparatorCrossing n up s = _) ∧ (_ → execComparatorCrossing n up s = _)
  rw [execComparatorCrossing, if_pos hl, ht]
  exact ⟨fun h => congrArg Host.Outcome.next (if_pos h), fun h => congrArg Host.Outcome.next (if_neg h)⟩

theorem State.cmpTwin_ne {s : State} {n m : CmpId} (h : s.cmpTwin n = some m) : m ≠ n := by
  unfold State.cmpTwin at h
  split at h
  next hn =>
    rintro rfl
    have val := congrArg Fin.val (Option.some.inj h)
    simp only [Fin.val_ofNat] at val
    obtain ⟨low, -⟩ := hn
    split at val <;> omega
  · exact nomatch h

/-! ## Samples -/

section
variable {s : State} {n : CmpId} (hc : s.cmps.chk = none)
include hc

theorem State.cmpChecking_free : s.cmpChecking n = false := by rw [State.cmpChecking, State.cmpCheckOf_none hc n]; rfl

theorem exec_cmpTick_sampled (lv : Level3) (hl : s.mode.live = true) (hm : s.cmpMode n = 2) :
    exec (.cmpTick n lv) s = .next (if s.cmpEarly n = true then s.bump F.CMP_ERR_CNT_TICK_IGN 0 0 else s.cmpSample n lv) := by
  have sampled : decide (s.cmpMode n ≠ 2) = false := by rw [hm]; rfl
  change execCmpTick n lv s = _
  rw [execCmpTick, sampled, hl, State.cmpChecking_free hc, State.cmpServes_none hc n]
  rfl

theorem State.cmpTickLc_due {d : Bool} {w : Nat} (h : s.cmps.cmp[n].samp = some (w, d)) (hw : w ≤ s.now) :
    (s.cmpTickLc n).cmps.cmp[n].dec = d ∧ (s.cmpTickLc n).cmps.cmp[n].samp = none := by
  have form : s.cmpTickLc n = (s.modCmp n fun c => { c with dec := d, samp := none }).cmpUpdate n := by
    unfold State.cmpTickLc
    rw [h]
    exact if_pos ⟨hw, State.cmpChecking_free hc⟩
  have own := s.cmp_modCmp_same n fun c => { c with dec := d, samp := none }
  rw [form, (State.litOnly.cmpUpdate _ n).cmps, own]
  exact ⟨rfl, rfl⟩
end

/-! ## Windows -/

theorem State.winInv_live {s : State} {k : WinId} (hl : s.mode.live = true) :
    s.winInv k = decide (s.cmpCode (winHi k) ≤ s.cmpCode (winLo k)) := by
  rw [State.winInv, hl, Bool.true_and]

theorem State.winCfg_inv (s : State) (k : WinId) : (s.winCfg k).getLsbD 3 = s.winInv k := by
  rw [State.winCfg, setBits_getLsbD _ _ _ _ _ (by decide) (by decide), if_pos ⟨le_refl 3, le_refl 3⟩, Nat.sub_self]
  cases s.winInv k <;> rfl

section
variable {s : State} {k : WinId} (hl : s.mode.live = true) (hen : s.flag F.CMP_WINk_CFG_EN k 0 = true)
include hl hen

/-- Sources of an enabled window. -/
theorem State.winLevels_on {above below inside : Bool} (ha : s.cmpRaw (winHi k) = above) (hb : (!s.cmpRaw (winLo k)) = below)
    (hi : (!above && !below && (!s.winInv k || s.mx.lv.get (0x0D2 + 4 * k.val) false)) = inside) : s.winLevels k = (above, below, inside,
      (if s.fld F.CMP_WINk_CFG_GSEL k 0 = 0 then inside else if s.fld F.CMP_WINk_CFG_GSEL k 0 = 1 then above else below) &&
        s.destLv (0x110 + k.val)) := by
  unfold State.winLevels
  rw [hl, hen, ha, hb]
  dsimp only
  rw [if_pos (show (true && true) = true from rfl), hi]
  generalize s.fld F.CMP_WINk_CFG_GSEL k 0 = sel
  match sel with
  | 0 => rfl
  | 1 => rfl
  | x + 2 => rw [if_neg (by omega), if_neg (by omega)] <;> rfl
end

theorem exec_windowGateChange_live {s : State} (hl : s.mode.live = true) (k : WinId) (gate : Bool) : exec (.windowGateChange k gate) s = .next
    (({ s with mx := { s.mx with dlv := s.mx.dlv.put (0x110 + k.val) gate false } } : State).winSee k) := by
  change execWindowGateChange k gate s = _
  rw [execWindowGateChange, if_pos hl]

/-- The gate of a window is no SEL destination. -/
theorem State.cmpCode_gated (s : State) (k : WinId) (gate : Bool) (n : CmpId) :
    ({ s with mx := { s.mx with dlv := s.mx.dlv.put (0x110 + k.val) gate false } } : State).cmpCode n = s.cmpCode n := by
  obtain ⟨u, hu⟩ : ∃ u : State, u = { s with mx := { s.mx with dlv := s.mx.dlv.put (0x110 + k.val) gate false } } := ⟨_, rfl⟩
  have sel : ∀ m, u.cmpSel m = s.cmpSel m := fun m => by rw [hu]; exact SMap.get_put_ne _ _ _ _ (by omega)
  have own : ∀ m, u.cmpOwn m = s.cmpOwn m := fun m => by
    rw [State.cmpOwn, State.cmpOwn, sel, hu]
    rfl
  have serves : u.cmpServes n = s.cmpServes n := by rw [hu]; rfl
  rw [← hu, State.cmpCode, own, serves, State.cmpCode]

theorem State.winInv_congr {s t : State} {k : WinId} (hm : t.mode = s.mode) (hc : ∀ n, t.cmpCode n = s.cmpCode n) : t.winInv k = s.winInv k := by
  rw [State.winInv, State.winInv, hm, hc, hc]

/-- Settles O28: a threshold by the step it makes, a crossing by its comparator and its window's other one. -/
theorem comparators : Obligations.Comparators := by
  unfold Obligations.Comparators
  constructor
  · intro s r n alt v rn a cmp start stored
    have addr : rn.addr n 0 = thrAddr n alt := thrReg_addr alt n
    have stores : ∀ (t : State) (w : Word), t.cmps = s.cmps → t.now = s.now → t.mode = s.mode → stored t w (t.thrStore n alt (w.setWidth 12)) := by
      intro t w hcmps hnow hmode
      have check : t.cmpCheckOf n = s.cmpCheckOf n := by rw [State.cmpCheckOf, State.cmpCheckOf, hcmps]
      obtain ⟨k, hk⟩ : ∃ k, k = t.setReg rn n 0 ((w.setWidth 12).setWidth 32) := ⟨_, rfl⟩
      have cmps : k.cmps = s.cmps := by rw [hk]; exact hcmps
      have from_ : k.cmps.cmp[n].from_ k.now = start := by
        rw [cmps, show k.now = s.now by rw [hk]; exact hnow]
        rfl
      have now : k.now = s.now := by rw [hk]; exact hnow
      have mode : k.mode = s.mode := by rw [hk]; exact (State.mode_setThr t alt _).trans hmode
      have free : s.cmpCheckOf n = none → t.thrStore n alt (w.setWidth 12) = k.dacMove n := fun h => by
        rw [hk]; exact State.thrStore_free (check.trans h) alt _
      refine ⟨fun c h => State.thrStore_held (check.trans h) alt _, fun h hu => ?_, fun h hu hl => ?_, fun h hu hl => ?_⟩
      · exact (free h).trans (by rw [← hk]; exact State.dacMove_same (by rw [cmps, hk]; exact hu))
      · rw [free h, State.dacMove_live (by rw [cmps, hk]; exact hu) (by rw [mode]; exact hl) from_, now, hk]
        rfl
      · rw [free h, State.dacMove_off (by rw [cmps, hk]; exact hu) (by rw [mode]; exact hl), hk]
        rfl
    refine ⟨fun ha => ?_, fun hl halt => ?_, s.settleTo_some n, s.settleTo_none n, fun e => exec_dacSettled_early, exec_dacSettled_over⟩
    · have marked : (s.opened r.master).marked (thrAddr n alt) true = s.marked a true :=
        (State.opened_congr (·.marked (thrAddr n alt) true) (fun _ _ _ _ => rfl) s r.master).trans (by rw [← addr])
      refine ⟨fun hm => regCmd_next_of (body := fun s => s.thrWrite n alt v) ha ?_, fun hm => ⟨(s.opened r.master).thrStore n alt (v.setWidth 12),
        (regCmd_next_of (body := fun s => s.thrWrite n alt v) ha rfl).trans ?_, ?_⟩⟩
      · exact if_pos (marked.trans hm)
      · refine congrArg Host.Outcome.next ((if_neg (by rw [marked, hm]; decide)).trans ?_)
        rw [← addr]
      · exact stores _ v (State.opened_congr State.cmps (fun _ _ _ _ => rfl) s r.master)
          (State.opened_congr State.now (fun _ _ _ _ => rfl) s r.master) (s.mode_opened r.master)
    · obtain ⟨t, ht⟩ : ∃ t, t = if s.marked a false = true ∧ s.marked a true = false then s.bump F.CMP_ERR_CNT_THR_CONFLICT 0 0 else s := ⟨_, rfl⟩
      have same : t.cmps = s.cmps ∧ t.now = s.now ∧ t.mode = s.mode := by
        rw [ht]
        split
        · exact ⟨rfl, rfl, State.mode_congr (State.reg_setReg_ne _ _ (by decide)) rfl rfl⟩
        · exact ⟨rfl, rfl, rfl⟩
      obtain ⟨cmps, now, mode⟩ := same
      refine ⟨t.thrStore n alt (v.setWidth 12), ?_, by rw [← ht]; exact stores t v cmps now mode⟩
      change execCmpThrPort n v s = _
      rw [execCmpThrPort, if_pos hl, halt]
      dsimp only
      rw [← addr]
      simp only [Bool.and_eq_true, Bool.not_eq_true']
      rw [← ht]
  · intro s n k up gate lv live
    refine ⟨fun hc hm => ?_, fun hc hm => ?_, fun hen => ?_⟩
    · obtain ⟨⟨⟨cmps, l, chg, form⟩, chk, others, lvs⟩, on, -⟩ := State.cmpCross_spec (n := n) hc live up
      obtain ⟨dec, out⟩ := on hm
      have only : s.cmpCross n up = { s with cmps := (s.cmpCross n up).cmps, mx := (s.cmpCross n up).mx } := by rw [form]
      cases ht : s.cmpTwin n with
      | none =>
        exact ⟨_, exec_comparatorCrossing_alone live up ht, dec, out, only, fun m hne _ => others m hne, fun m _ h => nomatch h⟩
      | some m =>
        have ne := State.cmpTwin_ne ht
        obtain ⟨there, beyond⟩ := exec_comparatorCrossing_twin live up ht
        by_cases h : s.cmpThere n m up
        · have live' : (s.cmpCross n up).mode.live = true := by rw [form]; exact live
          obtain ⟨⟨⟨cmps', l', chg', form'⟩, -, others', lvs'⟩, on', off'⟩ := State.cmpCross_spec (n := m) (chk.trans hc) live' up
          have mode : (s.cmpCross n up).cmpMode m = s.cmpMode m := by rw [form]; rfl
          rw [mode] at on' off'
          refine ⟨_, there h, (congrArg CmpSt.dec (others' n ne.symm)).trans dec, (lvs' n ne.symm).trans out, ?_, fun q hq hoff => ?_,
            fun q hq htwin hon => ?_⟩
          · rw [form', form]
          · by_cases hqm : q = m
            · rw [hqm] at hoff ⊢
              have off : s.cmpMode m ≠ 1 := hoff.resolve_left fun h => h rfl
              exact (off' off).trans (others m ne)
            · exact (others' q hqm).trans (others q hq)
          · obtain rfl : m = q := Option.some.inj htwin
            exact ⟨fun _ => (on' hon).1, fun hnot => absurd h hnot⟩
        · refine ⟨_, beyond h, dec, out, only, fun q hq _ => others q hq, fun q hq htwin _ => ?_⟩
          obtain rfl : m = q := Option.some.inj htwin
          exact ⟨fun hthere => absurd hthere h, fun _ => others m hq⟩
    · have tick := exec_cmpTick_sampled hc lv live hm
      refine ⟨fun he => ?_, fun he => ?_, fun d w => State.cmpTickLc_due hc⟩
      · rw [tick, he, if_neg Bool.false_ne_true]
        cases lv <;> rfl
      · rw [tick, if_pos he]
    · intro hi lo b above below inv inside sel gated
      obtain ⟨u, hu⟩ : ∃ u : State, u = { s with mx := { s.mx with dlv := s.mx.dlv.put (0x110 + k.val) gate false } } := ⟨_, rfl⟩
      have dest : u.destLv (0x110 + k.val) = gate := by rw [hu]; exact SMap.get_put_same _ _ _ _
      have live' : u.mode.live = true := by rw [hu]; exact live
      have en : u.flag F.CMP_WINk_CFG_EN k 0 = true := by rw [hu]; exact hen
      have inv' : s.winInv k = inv := State.winInv_live live
      have invU : u.winInv k = inv := (State.winInv_congr (by rw [hu]; rfl) fun n => by rw [hu]; exact s.cmpCode_gated k gate n).trans inv'
      have levels : ∀ t : State, t.mode.live = true → t.flag F.CMP_WINk_CFG_EN k 0 = true → t.destLv (0x110 + k.val) = gate →
          t.cmpRaw (winHi k) = above → (!t.cmpRaw (winLo k)) = below → t.winInv k = inv →
          t.fld F.CMP_WINk_CFG_GSEL k 0 = sel → (!above && !below && (!inv || t.mx.lv.get (0x0D2 + 4 * k.val) false)) = inside →
          t.winLevels k = (above, below, inside, gated) := by
        intro t hl he hd ha hb hv hs hi
        rw [State.winLevels_on (inside := inside) hl he ha hb (by rw [hv]; exact hi), hd, hs]
      have at_ : 0x0D2 + 4 * k.val = b + 2 := by change 0x0D2 + 4 * k.val = 0x0D0 + 4 * k.val + 2; omega
      have at3 : 0x0D3 + 4 * k.val = b + 3 := by change 0x0D3 + 4 * k.val = 0x0D0 + 4 * k.val + 3; omega
      have seen : u.winLevels k = (above, below, inside, gated) := by
        have old : (!above && !below && (!inv || u.mx.lv.get (0x0D2 + 4 * k.val) false)) = inside := by rw [at_, hu]
        exact levels u live' en dest (by rw [hu]; rfl) (by rw [hu]; rfl) invU (by rw [hu]; rfl) old
      obtain ⟨la, lb, li, lg, -⟩ := u.winSee_levels k
      rw [seen] at la lb li lg
      have lit := State.litOnly.winSee u k
      obtain ⟨t, ht⟩ : ∃ t, t = u.winSee k := ⟨_, rfl⟩
      rw [← ht] at la lb li lg lit
      have dest' : t.destLv (0x110 + k.val) = gate := (congrArg (fun m : SMap Bool => m.get (0x110 + k.val) false) lit.dlv).trans dest
      obtain ⟨lv, chg, form⟩ := lit
      have again : t.winLevels k = (above, below, inside, gated) := by
        have same : (!above && !below && (!inv || t.mx.lv.get (0x0D2 + 4 * k.val) false)) = inside := by
          rw [at_]
          change (!above && !below && (!inv || t.mx.lv.get (0x0D0 + 4 * k.val + 2) false)) = inside
          rw [li]
          change (!above && !below && (!inv || (!above && !below && (!inv || s.mx.lv.get (b + 2) false)))) =
            (!above && !below && (!inv || s.mx.lv.get (b + 2) false))
          cases above <;> cases below <;> cases inv <;> simp
        exact levels t (by rw [form]; exact live') (by rw [form]; exact en) dest' (by rw [form, hu]; rfl) (by rw [form, hu]; rfl)
          ((State.winInv_congr (by rw [form]; rfl) fun n => by rw [form]; rfl).trans invU) (by rw [form, hu]; rfl) same
      refine ⟨(s.winCfg_inv k).trans inv', t, (exec_windowGateChange_live live k gate).trans (by rw [ht, hu]), by rw [form, hu], dest', la, lb, li,
        ?_, ?_⟩
      · exact lg.trans (by rw [hu])
      · rw [State.winGate, again, at3]
        exact State.lv_setLv_same _ _ _

end Sys2Proof.Machine
end

