-- ==== Sys2Proof/Proofs/CmpChecks.lean ====
section
/-! PROOF. Checks of comparators: requests, takeover, result and release (R102 to R108). -/

namespace Sys2Proof.Machine

/-! ## Requests -/

theorem getBits_low (v : Word) (k : Nat) : getBits v k 0 = v.toNat % 2 ^ (k + 1) := by
  simp [getBits]

theorem getBits_field (v : Word) (hi lo : Nat) : getBits v hi lo = v.toNat / 2 ^ lo % 2 ^ (hi + 1 - lo) := by
  simp [getBits, Nat.shiftRight_eq_div_pow]

/-- A request can be carried out (R107). -/
def State.checkFit (s : State) (n kind : Nat) : Prop :=
  n < 48 ∧ kind ≠ 3 ∧ s.fld F.CMPn_CFG_MODE n 0 ≠ 0 ∧ (s.flag F.CMPn_CFG_TRIP n 0 = true → s.fld F.CMPn_CFG_PARTNER n 0 ≠ 63) ∧
    (s.fld F.CMPn_CFG_PARTNER n 0 < 48 ∨ s.fld F.CMPn_CFG_PARTNER n 0 = 63)

/-- The comparator under check is the partner of comparator n. -/
def State.checkClashes (s : State) (n : Nat) : Bool :=
  match s.cmps.chk with
  | some k => decide (k.cmp.val = s.fld F.CMPn_CFG_PARTNER n 0) || s.cmps.wait.isSome
  | none => false

theorem State.checkRefused_eq {s : State} {v : Word} {n : CmpId} (hn : v.toNat % 64 = n.val) : s.checkRefused v =
    (decide (v.toNat / 64 % 4 = 3) || !s.mode.live || decide (s.cmpMode n = 0) ||
      (s.flag F.CMPn_CFG_TRIP n 0 && decide (s.fld F.CMPn_CFG_PARTNER n 0 = 63)) ||
      decide (48 ≤ s.fld F.CMPn_CFG_PARTNER n 0 ∧ s.fld F.CMPn_CFG_PARTNER n 0 ≤ 62) || s.checkClashes n) := by
  have code : getBits v 5 0 = n.val := (getBits_low v 5).trans hn
  unfold State.checkRefused
  dsimp only
  rw [dif_pos (by rw [code]; exact n.isLt)]
  have kind : getBits v 7 6 = v.toNat / 64 % 4 := getBits_field v 7 6
  simp only [code, kind]
  rfl

theorem State.checkRefused_none {s : State} {v : Word} (hn : 48 ≤ v.toNat % 64) : s.checkRefused v = true := by
  have code : getBits v 5 0 = v.toNat % 64 := getBits_low v 5
  unfold State.checkRefused
  dsimp only
  rw [dif_neg (by omega)]

theorem State.checkRefused_iff {s : State} {v : Word} {n : CmpId} (hn : v.toNat % 64 = n.val) (hl : s.mode.live = true) :
    s.checkRefused v = true ↔ ¬s.checkFit n (v.toNat / 64 % 4) ∨ s.checkClashes n = true := by
  have low : s.fld F.CMPn_CFG_PARTNER n 0 < 64 := getBits_lt _ _ _
  have six : (48 ≤ s.fld F.CMPn_CFG_PARTNER n 0 ∧ s.fld F.CMPn_CFG_PARTNER n 0 ≤ 62) ↔
      ¬(s.fld F.CMPn_CFG_PARTNER n 0 < 48 ∨ s.fld F.CMPn_CFG_PARTNER n 0 = 63) := by omega
  rw [State.checkRefused_eq hn, hl, State.checkFit, State.cmpMode]
  simp only [Bool.or_eq_true, Bool.and_eq_true, decide_eq_true_eq, Bool.not_true, Bool.false_eq_true, or_false, six, n.isLt, true_and]
  tauto

/-- A refused request is shown and counted. -/
def State.checkRefuses (s : State) (n : Nat) : State :=
  ((s.setFld F.CMP_CHK_STAT_RESULT 0 0 3).setFld F.CMP_CHK_STAT_CMP 0 0 n).bump F.CMP_ERR_CNT_CHK_REFUSED 0 0

section
variable {s : State} {v : Word} (hg : v.getLsbD 12 = true) (ho : s.checkOver = false)
include hg ho

theorem State.checkWrite_refused (h : s.checkRefused v = true ∨ s.cmps.wait.isSome = true) : s.checkWrite v = s.checkRefuses (v.toNat % 64) := by
  have code : getBits v 5 0 = v.toNat % 64 := getBits_low v 5
  have refused : (s.checkRefused v || s.cmps.wait.isSome) = true := Bool.or_eq_true_iff.mpr h
  rw [State.checkWrite, ho, if_neg Bool.false_ne_true, hg]
  dsimp only
  rw [refused, code]
  rfl

variable (hr : s.checkRefused v = false) (hw : s.cmps.wait = none)
include hr hw

theorem State.checkWrite_waits {c : CheckSt} (hc : s.cmps.chk = some c) : s.checkWrite v =
    ({ s with cmps := { s.cmps with wait := some (Fin.ofNat 48 (v.toNat % 64), v.toNat / 64 % 4, v.toNat / 256 % 16) } } : State).setFld
      F.CMP_CHK_STAT_WAITING 0 0 1 := by
  have code : getBits v 5 0 = v.toNat % 64 := getBits_low v 5
  have kind : getBits v 7 6 = v.toNat / 64 % 4 := getBits_field v 7 6
  have lad : getBits v 11 8 = v.toNat / 256 % 16 := getBits_field v 11 8
  rw [State.checkWrite, ho, if_neg Bool.false_ne_true, hg, hr, hw, hc, code, kind, lad]
  rfl

theorem State.checkWrite_starts (hc : s.cmps.chk = none) : s.checkWrite v =
    s.checkStart (Fin.ofNat 48 (v.toNat % 64)) (v.toNat / 64 % 4) (v.toNat / 256 % 16) none := by
  have code : getBits v 5 0 = v.toNat % 64 := getBits_low v 5
  have kind : getBits v 7 6 = v.toNat / 64 % 4 := getBits_field v 7 6
  have lad : getBits v 11 8 = v.toNat / 256 % 16 := getBits_field v 11 8
  rw [State.checkWrite, ho, if_neg Bool.false_ne_true, hg, hr, hw, hc, code, kind, lad]
  rfl
end

/-! ## The course of a check -/

/-- The check that runs stands so. -/
def State.withCheck (s : State) (c : CheckSt) : State := { s with cmps := { s.cmps with chk := some c } }

section
variable {s : State} {c : CheckSt} (hc : s.cmps.chk = some c)
include hc

/-- A check in a new state. -/
theorem State.checkTick_early (h : s.now ≤ c.start + 16) : s.checkTick =
    s.withCheck { c with hold := s.cmps.cmp[c.cmp].dec, lvl := s.mx.lv.get (0x0A0 + c.cmp.val) false } := by
  unfold State.checkTick
  rw [hc]
  dsimp only
  rw [if_pos h, if_neg (show ¬s.now = c.start + 56 by omega)] <;> rfl

/-- The decision that stands in for the comparator's. -/
def State.checkSeen (s : State) (c : CheckSt) : Bool :=
  match c.partner with
  | some p => s.cmps.cmp[p].dec
  | none => c.hold

theorem State.checkTick_judged (h : s.now = c.start + 56) : s.checkTick =
    s.withCheck { c with at55 := some (s.cmpCode c.cmp, s.checkSeen c) } := by
  unfold State.checkTick
  rw [hc]
  dsimp only
  rw [if_neg (show ¬s.now ≤ c.start + 16 by omega), if_pos h] <;> rfl

theorem State.checkTick_quiet (h : c.start + 16 < s.now) (hn : s.now ≠ c.start + 56) : s.checkTick = s := by
  unfold State.checkTick
  rw [hc]
  dsimp only
  rw [if_neg (show ¬s.now ≤ c.start + 16 by omega), if_neg hn, ← hc]

theorem State.cmpCheckOf_some : s.cmpCheckOf c.cmp = some c := by
  rw [State.cmpCheckOf, hc]
  exact Option.filter_eq_some_iff.mpr ⟨rfl, decide_eq_true rfl⟩

theorem State.cmpRaw_checked (h : c.start + 16 ≤ s.now) : s.cmpRaw c.cmp = s.checkSeen c := by
  have taken : c.over s.now = true := by rw [CheckSt.over, decide_eq_true h, Bool.or_true]
  unfold State.cmpRaw
  rw [State.cmpCheckOf_some hc]
  dsimp only
  rw [taken, if_pos rfl] <;> rfl

theorem State.cmpOut_checked (h : c.start + 16 ≤ s.now) (hp : c.partner = none) : s.cmpOut c.cmp = c.lvl := by
  have taken : c.over s.now = true := by rw [CheckSt.over, decide_eq_true h, Bool.or_true]
  have held : ((s.cmpCheckOf c.cmp).filter fun c => c.over s.now && c.partner.isNone) = some c := by
    rw [State.cmpCheckOf_some hc, Option.filter_eq_some_iff, taken, hp]
    exact ⟨rfl, rfl⟩
  unfold State.cmpOut
  rw [held]

theorem exec_checkTakeover_first (hp : c.phase = 0) : exec .checkTakeover s = .next
    ((s.withCheck { c with phase := 1 }).cmpUpdate c.cmp) := by
  change execCheckTakeover s = _
  unfold execCheckTakeover
  rw [hc]
  exact if_pos hp

theorem exec_checkRelease_early (h : s.now < c.start + 64) : exec .checkRelease s = .next s := by
  have running : s.checkOver = false := by
    rw [State.checkOver, hc, Option.any_some, decide_eq_false (by omega)]
  change execCheckRelease s = _
  rw [execCheckRelease, running, if_neg Bool.false_ne_true]

theorem exec_checkRelease_due (h : c.start + 64 ≤ s.now) : exec .checkRelease s = .next s.checkEnd := by
  have done : s.checkOver = true := by rw [State.checkOver, hc, Option.any_some, decide_eq_true h]
  change execCheckRelease s = _
  rw [execCheckRelease, done, if_pos rfl]
end

/-- The result of a check is shown. -/
def State.checkShown (s : State) (c : CheckSt) (raw : Bool) (res : Nat) : State :=
  let t := (s.withCheck { c with phase := 2 }).settleTo c.cmp
    (some (max (c.start + 64) ((s.cmps.cmp[c.cmp].ends).getD 0)))
  let t := match c.trim with
    | some d => t.trimMove c.cmp d
    | none => t
  let t := ((t.setFld F.CMP_CHK_STAT_RESULT 0 0 res).setFld F.CMP_CHK_STAT_RAW 0 0 (if raw then 1 else 0)).setFld F.CMP_CHK_STAT_CMP 0 0 c.cmp.val
  t.count F.CMP_CHK_STAT_COUNT 0 0

theorem exec_checkResult_second {s : State} {c : CheckSt} (hc : s.cmps.chk = some c) (raw : Bool) (hp : c.phase = 1) :
    exec (.checkResult raw) s = .next ((if s.checkJudge c raw = 1 then (s.checkShown c raw (s.checkJudge c raw)).raiseEv 9
      else s.checkShown c raw (s.checkJudge c raw)).cmpUpdate c.cmp) := by
  change execCheckResult raw s = _
  unfold execCheckResult
  rw [hc]
  exact if_pos hp

theorem State.checkJudge_swap {s : State} {c : CheckSt} {raw d : Bool} {code : Nat} (h : c.at55 = some (code, d)) (hk : c.kind = 0) :
    s.checkJudge c raw = if c.partner.isSome ∧ c.moved then 2 else if raw = d then 1 else 0 := by
  unfold State.checkJudge
  rw [hk, h]
  dsimp only [Option.getD_some]
  simp only [Bool.and_eq_true]
  cases raw <;> cases d <;> rfl

theorem State.checkJudge_level {s : State} {c : CheckSt} {raw d : Bool} {code : Nat} (h : c.at55 = some (code, d)) (hk : c.kind = 1) {step : Int}
    (hs : step = ((2 * (c.lad : Int) + 1) * 128 - code) * 2500) : s.checkJudge c raw =
      if 32768 ≤ step then (if raw then 0 else 1) else if step ≤ -32768 then (if raw then 1 else 0) else 2 := by
  have same : ((((2 * c.lad + 1) * 128 : Nat) : Int) - code) * 2500 = step := by rw [hs]; push_cast; rfl
  unfold State.checkJudge
  rw [hk, h]
  dsimp only [Option.getD_some]
  rw [same] <;> rfl

/-! ## The end of a check -/

/-- The SETTLING registers. -/
def atCmpStat (a : Nat) : Prop := ∃ m : CmpId, a = RegName.CMPn_STAT.addr m 0

/-- What a threshold's step leaves: the time, the check, every decision, and the registers but SETTLING and those of `P`. -/
structure State.thresholds (P : Nat → Prop) (s t : State) : Prop where
  now : t.now = s.now
  chk : t.cmps.chk = s.cmps.chk
  wait : t.cmps.wait = s.cmps.wait
  dec : ∀ m : CmpId, t.cmps.cmp[m].dec = s.cmps.cmp[m].dec ∧ t.cmps.cmp[m].samp = s.cmps.cmp[m].samp
  reg : ∀ q i j, ¬P (q.addr i j) → ¬atCmpStat (q.addr i j) → t.reg q i j = s.reg q i j

namespace State.thresholds
variable {P Q : Nat → Prop} {s t u : State}

theorem refl (P : Nat → Prop) (s : State) : State.thresholds P s s := ⟨rfl, rfl, rfl, fun _ => ⟨rfl, rfl⟩, fun _ _ _ _ _ => rfl⟩

theorem trans (h : State.thresholds P s t) (g : State.thresholds P t u) : State.thresholds P s u :=
  ⟨g.now.trans h.now, g.chk.trans h.chk, g.wait.trans h.wait,
    fun m => ⟨(g.dec m).1.trans (h.dec m).1, (g.dec m).2.trans (h.dec m).2⟩,
    fun q i j hp hs => (g.reg q i j hp hs).trans (h.reg q i j hp hs)⟩

theorem mono (h : State.thresholds P s t) (hPQ : ∀ a, P a → Q a) : State.thresholds Q s t :=
  ⟨h.now, h.chk, h.wait, h.dec, fun q i j hq hs => h.reg q i j (fun hp => hq (hPQ _ hp)) hs⟩

theorem of_lit (P : Nat → Prop) (h : State.litOnly s t) : State.thresholds P s t := by
  obtain ⟨_, _, rfl⟩ := h
  exact ⟨rfl, rfl, rfl, fun _ => ⟨rfl, rfl⟩, fun _ _ _ _ _ => rfl⟩

theorem modCmp (P : Nat → Prop) (s : State) (n : CmpId) {f : CmpSt → CmpSt} (hf : ∀ c, (f c).dec = c.dec ∧ (f c).samp = c.samp) :
    State.thresholds P s (s.modCmp n f) := by
  refine ⟨rfl, rfl, rfl, fun m => ?_, fun _ _ _ _ _ => rfl⟩
  by_cases h : m = n
  · rw [h, State.cmp_modCmp_same]; exact hf _
  · rw [State.cmp_modCmp_ne _ _ h]; exact ⟨rfl, rfl⟩

theorem setReg (s : State) {r : RegName} {i j : Nat} (w : Word) (h : P (r.addr i j) ∨ atCmpStat (r.addr i j)) :
    State.thresholds P s (s.setReg r i j w) :=
  ⟨rfl, rfl, rfl, fun _ => ⟨rfl, rfl⟩, fun _ _ _ hp hs => State.reg_setReg_ne _ _ fun he => h.elim (fun h => hp (he ▸ h)) fun h => hs (he ▸ h)⟩

theorem cal (P : Nat → Prop) (s : State) (c : List (Nat × Instr)) : State.thresholds P s { s with cal := c } :=
  ⟨rfl, rfl, rfl, fun _ => ⟨rfl, rfl⟩, fun _ _ _ _ _ => rfl⟩

theorem settleTo (P : Nat → Prop) (s : State) (n : CmpId) (e : Option Nat) : State.thresholds P s (s.settleTo n e) := by
  cases e with
  | none => exact ((modCmp P s n (f := fun c => { c with ends := none }) fun _ => ⟨rfl, rfl⟩).trans (setReg _ _ (.inr ⟨n, rfl⟩))).trans (cal P _ _)
  | some e => exact ((modCmp P s n (f := fun c => { c with ends := some e }) fun _ => ⟨rfl, rfl⟩).trans (setReg _ _ (.inr ⟨n, rfl⟩))).trans (cal P _ _)

theorem dacMove (P : Nat → Prop) (s : State) (n : CmpId) : State.thresholds P s (s.dacMove n) := by
  by_cases h : s.cmpCode n = s.cmps.cmp[n].dac
  · rw [State.dacMove_same h]
    exact refl P s
  · cases hl : s.mode.live with
    | false =>
      rw [State.dacMove_off h hl]
      exact modCmp P s n fun _ => ⟨rfl, rfl⟩
    | true =>
      rw [State.dacMove_live h hl rfl]
      have moved := modCmp P (s.winOf n) n (f := fun c => { c with dac := s.cmpCode n, was := some (s.now, s.cmps.cmp[n].from_ s.now) })
        fun _ => ⟨rfl, rfl⟩
      exact ((of_lit P (State.litOnly.winOf s n)).trans moved).trans (settleTo P _ n _)
end State.thresholds

/-- A threshold write that a check held is applied. -/
def State.thrApply (s : State) (n : CmpId) (alt : Bool) : Option (BitVec 12) → State
  | some w => s.thrStore n alt w
  | none => s

section
variable {s : State} {n : CmpId}

theorem State.thrApply_spec (hc : s.cmps.chk = none) (alt : Bool) (o : Option (BitVec 12)) :
    State.thresholds (· = (thrReg alt).addr n 0) s (s.thrApply n alt o) ∧
      ∀ w, o = some w → (s.thrApply n alt o).reg (thrReg alt) n 0 = w.setWidth 32 := by
  cases o with
  | none => exact ⟨.refl _ s, fun _ h => nomatch h⟩
  | some v =>
    have form : s.thrApply n alt (some v) = (s.setReg (thrReg alt) n 0 (v.setWidth 32)).dacMove n := State.thrStore_free
      (State.cmpCheckOf_none hc n) alt v
    rw [form]
    have stored := State.thresholds.setReg (P := (· = (thrReg alt).addr n 0)) s (v.setWidth 32) (.inl rfl)
    refine ⟨stored.trans (.dacMove _ _ n), fun w h => ?_⟩
    obtain rfl : v = w := Option.some.inj h
    refine ((State.thresholds.dacMove (fun _ => False) (s.setReg (thrReg alt) n 0 (v.setWidth 32)) n).reg _ _ _ (fun h => h) ?_).trans
      (State.reg_setReg_same _ _ _ _ _)
    rintro ⟨m, h⟩
    cases alt
    · change RegName.CMPn_THR.addr n 0 = _ at h
      simp only [RegName.addr, RegName.base, RegName.dims] at h
      omega
    · change RegName.CMPn_THR_ALT.addr n 0 = _ at h
      simp only [RegName.addr, RegName.base, RegName.dims] at h
      omega

/-- A check that is over, before what it held is applied. -/
def State.checkClosed (s : State) : State :=
  let t : State := { s with cmps := { s.cmps with chk := none } }
  let t := t.setFld F.CMP_CHK_STAT_BUSY 0 0 0
  ((t.unsched .checkTakeover).unsched .checkRelease).unschedAll fun i => match i with
    | .checkResult _ => true
    | _ => false

/-- The span of the comparator's DAC is over. -/
def State.checkSettled (s : State) (n : CmpId) : State :=
  if s.cmps.cmp[n].ends.any fun e => decide (e ≤ s.now) then s.settleTo n none else s

/-- The partner is itself again. -/
def State.partnerFree (s : State) : Option CmpId → State
  | some p => (s.dacMove p).cmpUpdate p
  | none => s

theorem State.checkEnd_eq {c : CheckSt} (hc : s.cmps.chk = some c) : s.checkEnd =
    (let t := (((s.checkClosed.checkSettled c.cmp).thrApply c.cmp false c.thr).thrApply c.cmp true c.alt)
     let t := ((t.cmpTickLc c.cmp).cmpUpdate c.cmp).partnerFree c.partner
     if t.cmps.wait.isSome then t.sched 1 .checkWaitingStart else t) := by
  unfold State.checkEnd
  rw [hc]
  dsimp only
  generalize c.thr = thr
  generalize c.alt = alt
  generalize c.partner = partner
  cases thr <;> cases alt <;> cases partner <;> rfl

theorem State.cmpTickLc_thresholds (s : State) (n : CmpId) : (s.cmpTickLc n).regs = s.regs ∧ (s.cmpTickLc n).now = s.now ∧
    (s.cmpTickLc n).cmps.chk = s.cmps.chk ∧ (s.cmpTickLc n).cmps.wait = s.cmps.wait ∧
    (s.cmps.cmp[n].samp = none → s.cmpTickLc n = s) := by
  unfold State.cmpTickLc
  split
  next w d h =>
    have other : s.cmps.cmp[n].samp = none → ¬(w ≤ s.now ∧ s.cmpChecking n = false) := fun hn => absurd (h.symm.trans hn) (by simp)
    split
    next hd =>
      obtain ⟨lv, chg, form⟩ := State.litOnly.cmpUpdate (s.modCmp n fun c => { c with dec := d, samp := none }) n
      rw [form]
      exact ⟨rfl, rfl, rfl, rfl, fun hn => absurd hd (other hn)⟩
    · exact ⟨rfl, rfl, rfl, rfl, fun _ => rfl⟩
  · exact ⟨rfl, rfl, rfl, rfl, fun _ => rfl⟩

theorem atCmpStat_range {a : Nat} (h : atCmpStat a) : a % 16 = RegName.CMPn_STAT.base % 16 := by
  obtain ⟨m, rfl⟩ := h
  simp only [RegName.addr, RegName.base, RegName.dims]
  omega

theorem thr_not_stat (alt : Bool) (n : CmpId) : ¬atCmpStat ((thrReg alt).addr n 0) := by
  intro h
  have range := atCmpStat_range h
  cases alt
  · change RegName.CMPn_THR.addr n 0 % 16 = _ at range
    simp only [RegName.addr, RegName.base, RegName.dims] at range
    omega
  · change RegName.CMPn_THR_ALT.addr n 0 % 16 = _ at range
    simp only [RegName.addr, RegName.base, RegName.dims] at range
    omega

theorem thr_ne (n : CmpId) : (thrReg false).addr n 0 ≠ (thrReg true).addr n 0 := by
  change RegName.CMPn_THR.addr n 0 ≠ RegName.CMPn_THR_ALT.addr n 0
  simp only [RegName.addr, RegName.base, RegName.dims]
  omega

/-- The status of the checks is no comparator's register. -/
theorem chkStat_apart (n : CmpId) : ¬atCmpStat (RegName.CMP_CHK_STAT.addr 0 0) ∧
    ∀ alt, RegName.CMP_CHK_STAT.addr 0 0 ≠ (thrReg alt).addr n 0 := by
  refine ⟨?_, fun alt => ?_⟩
  · rintro ⟨m, h⟩
    simp only [RegName.addr, RegName.base, RegName.dims] at h
    omega
  · cases alt
    · change _ ≠ RegName.CMPn_THR.addr n 0
      simp only [RegName.addr, RegName.base, RegName.dims]; omega
    · change _ ≠ RegName.CMPn_THR_ALT.addr n 0
      simp only [RegName.addr, RegName.base, RegName.dims]; omega

/-- What stands after a check is over. -/
theorem State.checkEnd_spec {c : CheckSt} (hc : s.cmps.chk = some c) : s.checkEnd.cmps.chk = none ∧
    s.checkEnd.flag F.CMP_CHK_STAT_BUSY 0 0 = false ∧
    (∀ w, c.thr = some w → s.checkEnd.reg .CMPn_THR c.cmp 0 = w.setWidth 32) ∧
    (∀ w, c.alt = some w → s.checkEnd.reg .CMPn_THR_ALT c.cmp 0 = w.setWidth 32) ∧
    (s.cmps.cmp[c.cmp].samp = none → s.checkEnd.cmps.cmp[c.cmp].dec = s.cmps.cmp[c.cmp].dec) ∧
    (s.cmps.wait.isSome = true → (s.now + 1, Instr.checkWaitingStart) ∈ s.checkEnd.cal) := by
  obtain ⟨a, ha⟩ : ∃ a, a = s.checkClosed.checkSettled c.cmp := ⟨_, rfl⟩
  obtain ⟨b, hb⟩ : ∃ b, b = a.thrApply c.cmp false c.thr := ⟨_, rfl⟩
  obtain ⟨d, hd⟩ : ∃ d, d = b.thrApply c.cmp true c.alt := ⟨_, rfl⟩
  obtain ⟨e, he⟩ : ∃ e, e = d.cmpTickLc c.cmp := ⟨_, rfl⟩
  obtain ⟨t, ht⟩ : ∃ t, t = (e.cmpUpdate c.cmp).partnerFree c.partner := ⟨_, rfl⟩
  have form : s.checkEnd = if t.cmps.wait.isSome then t.sched 1 .checkWaitingStart else t := by
    rw [State.checkEnd_eq hc, ht, he, hd, hb, ha]
  have first : State.thresholds (fun _ => False) s.checkClosed a := by
    rw [ha, State.checkSettled]
    split
    · exact .settleTo _ _ _ _
    · exact .refl _ _
  have closed : a.cmps.chk = none := first.chk
  obtain ⟨low, lowThr⟩ := State.thrApply_spec (n := c.cmp) closed false c.thr
  rw [← hb] at low lowThr
  obtain ⟨high, highThr⟩ := State.thrApply_spec (n := c.cmp) (low.chk.trans closed) true c.alt
  rw [← hd] at high highThr
  obtain ⟨regs, now, chk, wait, still⟩ := d.cmpTickLc_thresholds c.cmp
  rw [← he] at regs now chk wait still
  have last : State.thresholds (fun _ => False) e t := by
    rw [ht]
    refine (State.thresholds.of_lit _ (State.litOnly.cmpUpdate e c.cmp)).trans ?_
    cases c.partner with
    | none => exact .refl _ _
    | some p => exact (State.thresholds.dacMove _ _ p).trans (.of_lit _ (State.litOnly.cmpUpdate _ p))
  have after : ∀ q i j, ¬atCmpStat (q.addr i j) → t.reg q i j = d.reg q i j := fun q i j hs => by
    rw [last.reg q i j (fun h => h) hs, State.reg, regs]; rfl
  have kept : s.checkEnd.regs = t.regs ∧ s.checkEnd.cmps = t.cmps := by
    rw [form]; split <;> exact ⟨rfl, rfl⟩
  have reg : ∀ q i j, s.checkEnd.reg q i j = t.reg q i j := fun q i j => by rw [State.reg, kept.1]; rfl
  refine ⟨?_, ?_, fun w hw => ?_, fun w hw => ?_, fun hs => ?_, fun hw => ?_⟩
  · rw [kept.2, last.chk, chk, high.chk, low.chk, closed]
  · obtain ⟨stat, thr⟩ := chkStat_apart c.cmp
    have same : s.checkEnd.reg .CMP_CHK_STAT 0 0 = (s.setFld F.CMP_CHK_STAT_BUSY 0 0 0).reg .CMP_CHK_STAT 0 0 := by
      rw [reg, after _ _ _ stat, high.reg _ _ _ (thr true) stat, low.reg _ _ _ (thr false) stat, first.reg _ _ _ (fun h => h) stat]
      rfl
    exact (congrArg (fun w => getBits w _ _ != 0) same).trans
      (congrArg (· != 0) (State.fld_setFld_same s F.CMP_CHK_STAT_BUSY 0 0 0 (by decide)))
  · exact (reg (thrReg false) c.cmp 0).trans ((after _ _ _ (thr_not_stat false c.cmp)).trans
      ((high.reg _ _ _ (thr_ne c.cmp) (thr_not_stat false c.cmp)).trans (lowThr w hw)))
  · exact (reg (thrReg true) c.cmp 0).trans ((after _ _ _ (thr_not_stat true c.cmp)).trans (highThr w hw))
  · have samp : d.cmps.cmp[c.cmp].samp = none := by
      rw [(high.dec _).2, (low.dec _).2, (first.dec _).2]; exact hs
    rw [kept.2, (last.dec _).1, still samp, (high.dec _).1, (low.dec _).1, (first.dec _).1]
    rfl
  · have waits : t.cmps.wait = s.cmps.wait := by
      rw [last.wait, wait, high.wait, low.wait, first.wait]; rfl
    rw [form, waits, if_pos hw]
    exact State.mem_sched (by rw [last.now, now, high.now, low.now, first.now]; rfl) 1 .checkWaitingStart
end

/-! ## The start of a check -/

theorem State.checkStart_begun (s : State) (n : CmpId) (kind lad : Nat) {k : CheckSt} (hk : k =
    ⟨n, kind, lad, s.partnerOf n, s.now, 0, s.cmps.cmp[n].dec, false, none, none, none, none, s.mx.lv.get (0x0A0 + n.val) false⟩) :
    s.checkStart n kind lad none = ((((match k.partner with
      | some q => (((s.withCheck k).draw.modCmp q fun y => { y with dec := s.cmps.cmp[n].dec, samp := none }).dacMove q).cmpUpdate q
      | none => (s.withCheck k).draw).setFld F.CMP_CHK_STAT_BUSY 0 0 1).sched 16 .checkTakeover).sched 56
        (.checkResult (Config.checkRaw s.fresh))).sched 64 .checkRelease := by
  rw [State.checkStart_eq, hk, State.checkOpened]
  dsimp only
  generalize s.partnerOf n = partner
  cases partner <;> rfl

theorem exec_checkWaitingStart_waiting {s : State} {m : CmpId} {kd ld : Nat} (hc : s.cmps.chk = none) (hw : s.cmps.wait = some (m, kd, ld)) :
    exec .checkWaitingStart s = .next
      ((({ s with cmps := { s.cmps with wait := none } } : State).setFld F.CMP_CHK_STAT_WAITING 0 0 0).checkStart m kd ld none) := by
  change execCheckWaitingStart s = _
  unfold execCheckWaitingStart
  rw [hc, hw]

/-- Settles O29: a request by what refuses it, a check by its phases. -/
theorem comparatorChecks : Obligations.ComparatorChecks := by
  unfold Obligations.ComparatorChecks
  intro s r v c raw n kind lad partner begun
  have begins : ∀ t m kd ld, t.cmps.cmp[m].dec = s.cmps.cmp[m].dec → t.partnerOf m = s.partnerOf m → t.now = s.now → t.fresh = s.fresh →
      t.mx = s.mx → t.checkStart m kd ld none = begun t m kd ld := by
    intro t m kd ld hdec hpartner hnow hfresh hmx
    rw [State.checkStart_begun t m kd ld (by rw [hdec, hpartner, hnow, hmx]), hdec, hfresh]
    rfl
  refine ⟨?_, fun hc => ?_, fun m kd ld hc hw => ?_⟩
  · intro ha hg hl ho fit
    obtain ⟨a, hopen⟩ : ∃ a, a = s.opened r.master := ⟨_, rfl⟩
    have same : ∀ {α : Type} (f : State → α), (∀ (s : State) u c v, f { s with accs := u, cyc := c, ans := v } = f s) → f a = f s :=
      fun f hf => by rw [hopen]; exact State.opened_congr f hf s r.master
    have cmps : a.cmps = s.cmps := same State.cmps fun _ _ _ _ => rfl
    have live : a.mode.live = true := by rw [same State.mode fun _ _ _ _ => rfl]; exact hl
    have open_ : a.checkOver = false := by rw [same State.checkOver fun _ _ _ _ => rfl]; exact ho
    have fits : a.checkFit n kind ↔ fit := by
      rw [State.checkFit, same (·.fld F.CMPn_CFG_MODE n 0) fun _ _ _ _ => rfl, same (·.flag F.CMPn_CFG_TRIP n 0) fun _ _ _ _ => rfl,
        same (·.fld F.CMPn_CFG_PARTNER n 0) fun _ _ _ _ => rfl]
    have clashes : a.checkClashes n = s.checkClashes n := same (·.checkClashes n) fun _ _ _ _ => rfl
    have write : ∀ u, a.checkWrite v = u → exec (.cmpCheck r v) s = .next u := fun u hu =>
      regCmd_next_of (body := fun s => s.checkWrite v) ha (by rw [← hopen]; exact hu)
    rw [← hopen]
    refine ⟨fun h hfit hc hw => write _ ?_, fun h hfit hc hp hw => write _ ?_, fun hno => write _ ?_⟩
    · have free : a.checkRefused v = false := Bool.eq_false_iff.mpr fun hr => by
        rw [State.checkRefused_iff (n := ⟨n, h⟩) rfl live] at hr
        refine hr.elim (fun hn => hn (fits.mpr hfit)) fun hcl => ?_
        rw [clashes, State.checkClashes, hc] at hcl
        exact nomatch hcl
      rw [State.checkWrite_starts hg open_ free (by rw [cmps]; exact hw) (by rw [cmps]; exact hc),
        show Fin.ofNat 48 (v.toNat % 64) = (⟨n, h⟩ : CmpId) from Fin.ext (Nat.mod_eq_of_lt h)]
      exact begins a _ _ _ (by rw [cmps]) (same (·.partnerOf ⟨n, h⟩) fun _ _ _ _ => rfl) (same State.now fun _ _ _ _ => rfl)
        (same State.fresh fun _ _ _ _ => rfl) (same State.mx fun _ _ _ _ => rfl)
    · have free : a.checkRefused v = false := Bool.eq_false_iff.mpr fun hr => by
        rw [State.checkRefused_iff (n := ⟨n, h⟩) rfl live] at hr
        refine hr.elim (fun hn => hn (fits.mpr hfit)) fun hcl => ?_
        rw [clashes, State.checkClashes, hc, hw] at hcl
        exact hp (by simpa using hcl)
      rw [State.checkWrite_waits hg open_ free (by rw [cmps]; exact hw) (by rw [cmps]; exact hc), cmps,
        show Fin.ofNat 48 (v.toNat % 64) = (⟨n, h⟩ : CmpId) from Fin.ext (Nat.mod_eq_of_lt h)]
    · refine State.checkWrite_refused hg open_ ?_
      by_cases h : n < 48
      · rw [State.checkRefused_iff (n := ⟨n, h⟩) rfl live, cmps]
        refine hno.elim (fun hn => .inl (.inl fun hf => hn (fits.mp hf))) fun hno => hno.elim .inr fun ⟨hc, hp⟩ => .inl (.inr ?_)
        refine clashes.trans ?_
        rw [State.checkClashes, hc]
        exact Bool.or_eq_true_iff.mpr (.inl (decide_eq_true hp))
      · exact .inl (State.checkRefused_none (Nat.not_lt.mp h))
  · intro put seen
    refine ⟨State.checkTick_early hc, State.checkTick_judged hc, State.checkTick_quiet hc, fun h => ⟨State.cmpRaw_checked hc h,
      State.cmpOut_checked hc h⟩, exec_checkTakeover_first hc, exec_checkResult_second hc raw, fun code d hat => ?_, exec_checkRelease_early hc,
      fun h => ⟨_, exec_checkRelease_due hc h, State.checkEnd_spec hc⟩⟩
    exact ⟨State.checkJudge_swap hat, fun hk => State.checkJudge_level hat hk rfl⟩
  · rw [exec_checkWaitingStart_waiting hc hw]
    refine congrArg Host.Outcome.next (begins _ m kd ld rfl ?_ rfl rfl rfl)
    have cfg : (({ s with cmps := { s.cmps with wait := none } } : State).setFld F.CMP_CHK_STAT_WAITING 0 0 0).reg .CMPn_CFG m 0 =
        s.reg .CMPn_CFG m 0 := State.reg_setReg_ne (r := .CMP_CHK_STAT) _ _ (by simp only [RegName.addr, RegName.base, RegName.dims]; omega)
    have partner : (({ s with cmps := { s.cmps with wait := none } } : State).setFld F.CMP_CHK_STAT_WAITING 0 0 0).fld F.CMPn_CFG_PARTNER m 0 =
        s.fld F.CMPn_CFG_PARTNER m 0 := congrArg (fun w => getBits w _ _) cfg
    unfold State.partnerOf
    dsimp only
    rw [partner]

end Sys2Proof.Machine
end

