-- ==== Sys2Proof/Proofs/Converters.lean ====
section
/-! PROOF. Triggers and configuration writes of analogue-to-digital converters (R66, R67, R70 to R77, R82). -/

namespace Sys2Proof.Machine

section
variable (s : State) (x : Conv)

theorem State.adc_modAdc_same (f : AdcSt → AdcSt) : (s.modAdc x f).adc[x] = f s.adc[x] := vset_getElem_same _ _ _

theorem State.adc_modAdc_ne {y : Conv} (f : AdcSt → AdcSt) (h : y ≠ x) : (s.modAdc x f).adc[y] = s.adc[y] := vset_getElem_ne _ _ h.symm

theorem State.modAdc_modAdc (f g : AdcSt → AdcSt) : (s.modAdc x f).modAdc x g = s.modAdc x fun a => g (f a) := by
  have own : (s.modAdc x f).adc[x] = f s.adc[x] := s.adc_modAdc_same x f
  have twice : vset (vset s.adc x (f s.adc[x])) x (g (f s.adc[x])) = vset s.adc x (g (f s.adc[x])) := vset_vset _ _ _ _
  unfold State.modAdc vmod at *
  rw [own]
  exact congrArg (fun a => ({ s with adc := a } : State)) twice
end

/-! ## Triggers -/

/-- Triggers of one lc, one of each sequence. -/
theorem trig_filter {P : Fin 4 → Bool} {l : List (Fin 4)} (h : ∀ k, k ∈ l ↔ P k = true) :
    ((List.finRange 4).filter fun q => l.contains q) = (List.finRange 4).filter P :=
  List.filter_congr fun q _ => by rw [Bool.eq_iff_iff, List.contains_iff_mem]; exact h q

/-- The order in which the sequences of a list are served: urgent ones first. -/
def adcOrder (urgent : Fin 4 → Bool) (P : Fin 4 → Bool) : List (Fin 4) :=
  ((List.finRange 4).filter P).filter urgent ++ ((List.finRange 4).filter P).filter fun q => !urgent q

theorem adcOrder_one (urgent : Fin 4 → Bool) (q : Fin 4) : adcOrder urgent (fun k => decide (k = q)) = [q] := by
  have one : (List.finRange 4).filter (fun k => decide (k = q)) = [q] := by revert q; decide
  rw [adcOrder, one]
  cases h : urgent q <;> simp [h]

theorem adcOrder_two {urgent : Fin 4 → Bool} {q r : Fin 4} (hne : q ≠ r) (hu : urgent q = true ∨ urgent r = false)
    (hlt : urgent q = urgent r → q < r) : adcOrder urgent (fun k => decide (k = q ∨ k = r)) = [q, r] := by
  have up : ∀ q r : Fin 4, q < r → (List.finRange 4).filter (fun k => decide (k = q ∨ k = r)) = [q, r] := by decide
  have swap : (fun k : Fin 4 => decide (k = q ∨ k = r)) = fun k => decide (k = r ∨ k = q) := funext fun k => decide_eq_decide.mpr or_comm
  obtain h | h : q < r ∨ r < q := lt_or_gt_of_ne hne
  · rw [adcOrder, up q r h]
    cases hq : urgent q <;> cases hr : urgent r <;> simp_all
  · have differ : urgent q ≠ urgent r := fun he => absurd (hlt he) (not_lt_of_gt h)
    rw [adcOrder, swap, up r q h]
    cases hq : urgent q <;> cases hr : urgent r <;> simp_all

theorem State.adcServeAll_eq (s : State) (x : Conv) {P : Fin 4 → Bool} (h : ∀ k, k ∈ s.adc[x].trig ↔ P k = true) : s.adcServeAll x =
    (adcOrder (s.adcUrgent x) P).foldl (fun t q => t.adcServe x q) (s.modAdc x fun y => { y with trig := [] }) := by
  unfold State.adcServeAll
  dsimp only
  rw [trig_filter h]
  rfl

section
variable {s : State} {x : Conv} {q : Fin 4} (on : (s.flag F.ADCx_CTRL_EN x 0 && s.flag F.ADCx_SEQs_CFG_EN x q) = true)

theorem State.adcServe_off (off : (s.flag F.ADCx_CTRL_EN x 0 && s.flag F.ADCx_SEQs_CFG_EN x q) = false) : s.adcServe x q = s :=
  if_pos (by rw [← Bool.not_and, off]; rfl)

include on

theorem State.adcServe_on : s.adcServe x q = if s.mode = .verify then s.adcRefuse x q else if s.mode.live then s.adcAccept x q else s :=
  if_neg (by rw [← Bool.not_and, on]; decide)

theorem State.adcServe_live (hl : s.mode.live = true) : s.adcServe x q = s.adcAccept x q := by
  have awake : s.mode ≠ .verify := fun h => by rw [h] at hl; exact nomatch hl
  rw [State.adcServe_on on, if_neg awake, if_pos hl]
end

/-- The request of a trigger waits. -/
def State.adcWait (s : State) (x : Conv) (urgent : Bool) (now : Nat) (q : Fin 4) : State :=
  s.modAdc x fun k => { k with pend := k.pend ++ [⟨urgent, now, q⟩] }

section
variable {s : State} {x : Conv} {q : Fin 4}

theorem State.adcAccept_busy (h : s.adc[x].busy q = true) : s.adcAccept x q = (s.bump F.ADCx_ERR_CNT_OVR x 0).raiseEv (adcSrc x + 5) := if_pos h

variable (hb : s.adc[x].busy q = false)
include hb

theorem State.adcAccept_idle (h : s.adc[x].idle = true) : s.adcAccept x q = s.adcRun x q := by
  unfold State.adcAccept
  dsimp only
  rw [hb, h, if_neg Bool.false_ne_true, if_pos rfl]

theorem State.adcAccept_free (hi : s.adc[x].idle = false) (hc : s.adc[x].cur = none) :
    s.adcAccept x q = s.adcWait x (s.adcUrgent x q) s.now q := by
  unfold State.adcAccept
  dsimp only
  rw [hb, hi, hc, if_neg Bool.false_ne_true, if_neg Bool.false_ne_true] <;> rfl

theorem State.adcAccept_runs {c : AdcCur} (hc : s.adc[x].cur = some c) : s.adcAccept x q =
    if s.adcUrgent x q && !c.ghost && !s.adcUrgent x c.seq then
      (if c.conv then (((s.count F.ADCx_PREEMPT_CNT_COUNT x 0).modAdc x fun a => { a with intr := some (c.seq, c.ent) }).modAdc x fun a =>
          { a with cur := some { c with ghost := true } }).adcWait x (s.adcUrgent x q) s.now q
        else ((((s.count F.ADCx_PREEMPT_CNT_COUNT x 0).modAdc x fun a => { a with intr := some (c.seq, c.ent) }).unsched
          (.adcHold x .pins)).modAdc x fun a => { a with cur := none }).adcRun x q)
    else s.adcWait x (s.adcUrgent x q) s.now q := by
  have idle : s.adc[x].idle = false := by rw [AdcSt.idle, hc]; rfl
  unfold State.adcAccept
  dsimp only
  rw [hb, idle, hc, if_neg Bool.false_ne_true, if_neg Bool.false_ne_true] <;> rfl
end

/-! ## Runs -/

theorem State.mem_schedAt (s : State) {t : Nat} (h : s.now ≤ t) (c : Instr) : (t, c) ∈ (s.schedAt t c).cal := by
  have due := State.mem_sched (s := s) rfl (t - s.now) c
  rw [Nat.add_sub_cancel' h] at due
  exact due

theorem adcRes_ne_ent (x y : Conv) (q : Fin 4) (e : Nat) (he : e < 16) {j : Nat} (hj : j < 64) :
    RegName.ADCx_ENT_s_e.addr x j ≠ RegName.ADCx_RES_s_e.addr y (16 * q.val + e) := by
  simp only [RegName.addr, RegName.base, RegName.dims]
  omega

theorem entIx_lt (q : Fin 4) (e : Fin 16) : entIx q e < 64 := by
  rw [entIx]
  omega

theorem State.adcLen_lt (s : State) (x : Conv) (q : Fin 4) : s.adcLen x q < 16 := getBits_lt _ _ _

/-- Ages of results: only their registers change. -/
theorem State.adcAge_spec (s : State) (x : Conv) (q : Fin 4) (f : Nat → Nat) : (∃ regs, s.adcAge x q f = { s with regs := regs }) ∧
    ∀ r k l, (∀ e < 16, r.addr k l ≠ RegName.ADCx_RES_s_e.addr x (16 * q.val + e)) → (s.adcAge x q f).reg r k l = s.reg r k l := by
  unfold State.adcAge
  generalize hn : s.adcLen x q + 1 = n
  have bound : n ≤ 16 := by have := s.adcLen_lt x q; omega
  clear hn
  induction n with
  | zero => exact ⟨⟨_, rfl⟩, fun _ _ _ _ => rfl⟩
  | succ n ih =>
    obtain ⟨⟨regs, form⟩, rest⟩ := ih (by omega)
    rw [List.range_succ, List.foldl_append, List.foldl_cons, List.foldl_nil]
    refine ⟨⟨_, by rw [form]; rfl⟩, fun r k l hr => ?_⟩
    exact (State.reg_setReg_ne _ _ (hr n (by omega))).trans (rest r k l hr)

theorem State.adcRun_spec (s : State) (x : Conv) (q : Fin 4) {h : Nat} (hh : h = s.now + s.fld F.ADCx_ENT_s_e_ACQ x (entIx q 0) +
    (if s.adc[x].swapLc = some s.now then 1 else 0)) : (h, Instr.adcHold x .pins) ∈ (s.adcRun x q).cal ∧
      ((s.adcRun x q).adc[x].cur.any fun c => c.seq = q ∧ c.ent = 0 ∧ c.hold = h ∧ c.conv = false) = true := by
  obtain ⟨u, hu⟩ : ∃ u, u = s.adcAge x q fun a => if a = 0 ∨ a = 2 then 1 else a := ⟨_, rfl⟩
  obtain ⟨⟨regs, form⟩, kept⟩ := s.adcAge_spec x q fun a => if a = 0 ∨ a = 2 then 1 else a
  rw [← hu] at form kept
  have acq : u.fld F.ADCx_ENT_s_e_ACQ x (entIx q 0) = s.fld F.ADCx_ENT_s_e_ACQ x (entIx q 0) :=
    congrArg (fun w => getBits w _ _) (kept .ADCx_ENT_s_e x (entIx q 0) fun e he => adcRes_ne_ent x x q e he (entIx_lt q 0))
  have now : u.now = s.now := by rw [form]
  obtain ⟨late, hlate⟩ : ∃ late, late = decide (s.adc[x].swapLc = some s.now) := ⟨_, rfl⟩
  have lateness : (if late then 1 else 0) = if s.adc[x].swapLc = some s.now then 1 else 0 := by rw [hlate]; simp
  have time : h = u.now + u.fld F.ADCx_ENT_s_e_ACQ x (entIx q 0) + (if late then 1 else 0) := by rw [hh, now, acq, lateness]
  have run : s.adcRun x q = (u.modAdc x fun a => { a with cur := some ⟨q, 0, h, false, false, late, false, 0, false⟩ }).schedAt h (.adcHold x .pins) := by
    rw [State.adcRun, ← hu, ← hlate, State.adcEntry, ← time]
  rw [run]
  refine ⟨State.mem_schedAt _ (by change u.now ≤ h; omega) _, ?_⟩
  have own := u.adc_modAdc_same x fun a => { a with cur := some ⟨q, 0, h, false, false, late, false, 0, false⟩ }
  have cur : ((u.modAdc x fun a => { a with cur := some ⟨q, 0, h, false, false, late, false, 0, false⟩ }).schedAt h (.adcHold x .pins)).adc[x].cur =
    some ⟨q, 0, h, false, false, late, false, 0, false⟩ := congrArg AdcSt.cur own
  rw [cur]
  simp

/-! ## Configuration -/

/-- A write that waits for the end of its sequence's run. -/
def State.adcHeld (s : State) (x : Conv) (b : Nat) (v : Word) : State := s.modAdc x fun k => { k with held := (k.held.drop b).insert b v }

variable {s : State} {r : Req} {x : Conv} {q : Fin 4}

theorem exec_adcSeqCfgWrite_admitted (ha : s.admits r .write .ADCx_SEQs_CFG x q) (v : Word) : exec (.adcSeqCfgWrite r x q v) s = .next
    (if s.adc[x].busy q then (s.opened r.master).adcHeld x (RegName.ADCx_SEQs_CFG.addr x q) v
      else (s.opened r.master).writeReg .ADCx_SEQs_CFG x q v) := by
  have adc : (s.opened r.master).adc = s.adc := State.opened_congr State.adc (fun _ _ _ _ => rfl) s r.master
  refine regCmd_next_of (body := fun s => s.adcSeqWrite x q v) ha ?_
  rw [State.adcSeqWrite, adc] <;> rfl

/-- The entry word names an input that does not exist. -/
theorem badEntry_iff (v : Word) : badEntry v = true ↔ 47 < getBits v 5 0 ∨ (v.getLsbD 6 = true ∧ v.getLsbD 0 = true) := by
  rw [badEntry, Bool.or_eq_true, Bool.and_eq_true, decide_eq_true_eq]

theorem seq_of_entIx (q : Fin 4) (e : Fin 16) : Fin.ofNat 4 (entIx q e / 16) = q := by
  rw [entIx]
  refine Fin.ext ?_
  simp only [Fin.val_ofNat]
  omega

theorem State.adcEntWrite_eq (s : State) (x : Conv) (q : Fin 4) (e : Fin 16) (v : Word) : s.adcEntWrite x (entIx q e) v =
    if badEntry v then s.bump F.ADCx_ERR_CNT_OVR x 0
    else if s.adc[x].busy q then s.adcHeld x (RegName.ADCx_ENT_s_e.addr x (entIx q e)) v else s.adcStore x .ADCx_ENT_s_e (entIx q e) v := by
  rw [State.adcEntWrite, seq_of_entIx] <;> rfl

theorem exec_adcEntryWrite_admitted {e : Fin 16} {v : Word} {u : State} (ha : s.admits r .write .ADCx_ENT_s_e x (entIx q e))
    (hu : (s.opened r.master).adcEntWrite x (entIx q e) v = u) : exec (.adcEntryWrite r x q e v) s = .next u :=
  regCmd_next_of (body := fun s => s.adcEntWrite x (entIx q e) v) ha hu

/-- An entry that is stored: at least 4 lc of acquisition. -/
def State.entStored (s : State) (x : Conv) (j : Nat) (v : Word) : State :=
  let u := s.writeReg .ADCx_ENT_s_e x j v
  u.setFld F.ADCx_ENT_s_e_ACQ x j (max 4 (u.fld F.ADCx_ENT_s_e_ACQ x j))

theorem State.adcStore_ent (s : State) (x : Conv) (j : Nat) (v : Word) : s.adcStore x .ADCx_ENT_s_e j v =
    if getBits (s.reg .ADCx_ENT_s_e x j) 6 0 = getBits ((s.entStored x j v).reg .ADCx_ENT_s_e x j) 6 0 ∨ (s.entStored x j v).mode = .loading then
      s.entStored x j v
    else (s.entStored x j v).modAdc x fun a => { a with settle := a.settle.put j true false } := rfl

theorem State.entStored_only (s : State) (x : Conv) (j : Nat) (v : Word) : ∃ regs, s.entStored x j v = { s with regs := regs } := ⟨_, rfl⟩

theorem State.mode_entStored (s : State) (x : Conv) {j : Nat} (hj : j < 64) (v : Word) : (s.entStored x j v).mode = s.mode := by
  have apart : RegName.SYS_CLK_STAT.addr 0 0 ≠ RegName.ADCx_ENT_s_e.addr x j := by
    simp only [RegName.addr, RegName.base, RegName.dims]
    omega
  refine State.mode_congr ?_ rfl rfl
  exact (State.reg_setReg_ne _ _ apart).trans (State.reg_setReg_ne _ _ apart)

/-- An entry of an idle sequence is stored; a changed input settles. -/
theorem State.adcStore_ent_spec (s : State) (x : Conv) {j : Nat} (hj : j < 64) (v : Word) (hm : s.mode ≠ .loading) {t : State}
    (ht : t = s.adcStore x .ADCx_ENT_s_e j v) : t.reg .ADCx_ENT_s_e x j = (s.entStored x j v).reg .ADCx_ENT_s_e x j ∧
      t.adc[x] = (if getBits (s.reg .ADCx_ENT_s_e x j) 6 0 = getBits (t.reg .ADCx_ENT_s_e x j) 6 0 then s.adc[x]
        else { s.adc[x] with settle := s.adc[x].settle.put j true false }) ∧
      t = { s with regs := t.regs, adc := vset s.adc x t.adc[x] } := by
  obtain ⟨u, hu⟩ : ∃ u, u = s.entStored x j v := ⟨_, rfl⟩
  obtain ⟨regs, form⟩ := s.entStored_only x j v
  have ready : u.mode ≠ .loading := by rw [hu, s.mode_entStored x hj]; exact hm
  rw [State.adcStore_ent, ← hu] at ht
  rw [← hu] at form ⊢
  have adc : u.adc = s.adc := by rw [form]
  by_cases h : getBits (s.reg .ADCx_ENT_s_e x j) 6 0 = getBits (u.reg .ADCx_ENT_s_e x j) 6 0
  · rw [if_pos (.inl h)] at ht
    rw [ht, if_pos h, adc]
    refine ⟨rfl, rfl, ?_⟩
    have self : vset s.adc x s.adc[x] = s.adc := vset_self _ _
    rw [self, form]
  · rw [if_neg fun hor => hor.elim h ready] at ht
    have own := u.adc_modAdc_same x fun a => { a with settle := a.settle.put j true false }
    have reg : t.reg .ADCx_ENT_s_e x j = u.reg .ADCx_ENT_s_e x j := by rw [ht]; rfl
    have mine : t.adc[x] = { s.adc[x] with settle := s.adc[x].settle.put j true false } := by rw [ht, own, adc]
    rw [reg, if_neg h, mine]
    refine ⟨rfl, rfl, ?_⟩
    rw [ht, form]
    rfl

/-- A conversion that the reference's change finds held in this lc is stale. -/
def AdcSt.staled (now : Nat) (a : AdcSt) : AdcSt :=
  { a with cur := a.cur.map fun c => if c.conv ∧ c.hold = now then { c with stale := true } else c }

/-- The same, as the model tests it. -/
def AdcSt.restaled (now : Nat) (a : AdcSt) : AdcSt :=
  { a with cur := a.cur.map fun c => if c.conv && decide (c.hold = now) then { c with stale := true } else c }

theorem AdcSt.restaled_eq (now : Nat) : AdcSt.restaled now = AdcSt.staled now := by
  funext a
  simp only [AdcSt.restaled, AdcSt.staled, Bool.and_eq_true, decide_eq_true_eq]

/-- What a change of the reference does. -/
theorem State.adcRefWrite_change (s : State) (x : Conv) {src : Nat} (h3 : src ≠ 3) (hs : src ≠ s.fld F.ADCx_REF_CFG_SRC x 0)
    (hc : s.mode.cores = true) : s.adcRefWrite x src =
      (((s.setFld F.ADCx_REF_CFG_SRC x 0 src).setFld F.ADCx_STAT_REFRDY x 0 0).modAdc x (AdcSt.staled s.now)).sched 8000 (.refSettled x) := by
  obtain ⟨w, hw⟩ : ∃ w, w = (s.setFld F.ADCx_REF_CFG_SRC x 0 src).setFld F.ADCx_STAT_REFRDY x 0 0 := ⟨_, rfl⟩
  have now : w.now = s.now := by rw [hw]; rfl
  have mode : (w.modAdc x (AdcSt.restaled w.now)).mode = s.mode := by
    rw [hw]
    refine State.mode_congr ?_ rfl rfl
    have same : ∀ (t : State) f, (t.modAdc x f).reg .SYS_CLK_STAT 0 0 = t.reg .SYS_CLK_STAT 0 0 := fun _ _ => rfl
    rw [same]
    exact (State.reg_setReg_ne (r := .ADCx_STAT) _ _ (by simp only [RegName.addr, RegName.base, RegName.dims]; omega)).trans
      (State.reg_setReg_ne (r := .ADCx_REF_CFG) _ _ (by simp only [RegName.addr, RegName.base, RegName.dims]; omega))
  have form : s.adcRefWrite x src = if (w.modAdc x (AdcSt.restaled w.now)).mode.cores then
      (w.modAdc x (AdcSt.restaled w.now)).sched 8000 (.refSettled x) else w.modAdc x (AdcSt.restaled w.now) := by
    rw [hw]
    exact if_neg (by rintro (h | h); exacts [h3 h, hs h])
  rw [form, mode, hc, if_pos rfl, AdcSt.restaled_eq, now, hw]

theorem exec_adcRefSelect_admitted {src : BitVec 2} {u : State} (ha : s.admits r .write .ADCx_REF_CFG x 0)
    (hu : (s.opened r.master).adcRefWrite x src.toNat = u) : exec (.adcRefSelect r x src) s = .next u :=
  regCmd_next_of (body := fun s => s.adcRefWrite x src.toNat) ha hu

theorem exec_refSettled_cores (hc : s.mode.cores = true) : exec (.refSettled x) s = .next ((s.setFld F.ADCx_STAT_REFRDY x 0 1).unsched (.refSettled x)) := by
  change execRefSettled x s = _
  rw [execRefSettled, if_pos hc]

/-- Settles O26: a trigger by what its converter does at the time, a configuration write by whether its sequence is busy. -/
theorem adcTriggersAndConfiguration : Obligations.AdcTriggersAndConfiguration := by
  unfold Obligations.AdcTriggersAndConfiguration
  constructor
  · intro s r x q q2 v a noted on urgent wait
    refine ⟨rfl, fun ha => regCmd_next_of (body := fun s => s.adcSwWrite x v) ha rfl, ⟨fun h => ?_, fun h hne hu hlt => ?_⟩,
      State.adcServe_off, fun hon hm => ?_, fun hon hl => ?_, ?_⟩
    · have one : ∀ k, k ∈ s.adc[x].trig ↔ (fun k => decide (k = q)) k = true := fun k => by rw [decide_eq_true_eq]; exact h k
      rw [s.adcServeAll_eq x one, adcOrder_one]
      rfl
    · have two : ∀ k, k ∈ s.adc[x].trig ↔ (fun k => decide (k = q ∨ k = q2)) k = true := fun k => by rw [decide_eq_true_eq]; exact h k
      rw [s.adcServeAll_eq x two, adcOrder_two hne hu hlt]
      rfl
    · rw [State.adcServe_on hon, if_pos hm]
    · intro o
      have served : o = s.adcAccept x q := State.adcServe_live hon hl
      refine ⟨fun hb => served.trans (State.adcAccept_busy hb), fun hb hi => served.trans (State.adcAccept_idle hb hi),
        fun hb hc hi => served.trans (State.adcAccept_free hb hi hc), fun c hb hc => ?_⟩
      have runs := State.adcAccept_runs hb hc
      refine ⟨fun h => ?_, fun hu hg hs => ?_⟩
      · rw [served, runs, if_neg]
        · rfl
        · change ¬(urgent && !c.ghost && !s.adcUrgent x c.seq) = true
          obtain h | h | h := h <;> rw [h] <;> simp
      · have preempts : (s.adcUrgent x q && !c.ghost && !s.adcUrgent x c.seq) = true := by
          change (urgent && !c.ghost && !s.adcUrgent x c.seq) = true
          rw [hu, hg, hs]; rfl
        rw [if_pos preempts] at runs
        intro p
        refine ⟨fun hconv => ?_, fun hconv => ?_⟩
        · rw [if_pos hconv, State.modAdc_modAdc] at runs
          exact served.trans runs
        · rw [if_neg (by rw [hconv]; decide)] at runs
          have swap : ∀ (t : State) f, (t.unsched (.adcHold x .pins)).modAdc x f = (t.modAdc x f).unsched (.adcHold x .pins) := fun _ _ => rfl
          rw [swap, State.modAdc_modAdc] at runs
          exact served.trans runs
    · intro t h
      exact s.adcRun_spec x q rfl
  · intro s r x q e v src a j hold
    refine ⟨fun ha => exec_adcSeqCfgWrite_admitted ha v, fun ha => ?_, fun ha => ⟨fun h => exec_adcRefSelect_admitted ha ?_, fun h3 hs hc =>
      exec_adcRefSelect_admitted ha ?_⟩, exec_refSettled_cores⟩
    · intro bad
      obtain ⟨u, hu⟩ : ∃ u, u = s.opened r.master := ⟨_, rfl⟩
      have adc : u.adc = s.adc := by rw [hu]; exact State.opened_congr State.adc (fun _ _ _ _ => rfl) s r.master
      have mode : u.mode = s.mode := by rw [hu]; exact s.mode_opened r.master
      have reg : u.reg .ADCx_ENT_s_e x j = s.reg .ADCx_ENT_s_e x j := by
        rw [hu]; exact State.opened_congr (·.reg .ADCx_ENT_s_e x j) (fun _ _ _ _ => rfl) s r.master
      have write := u.adcEntWrite_eq x q e v
      rw [adc] at write
      refine ⟨fun hbad => exec_adcEntryWrite_admitted ha ?_, fun hbad hb => exec_adcEntryWrite_admitted ha ?_, fun hbad hb hm =>
        ⟨u.adcStore x .ADCx_ENT_s_e j v, exec_adcEntryWrite_admitted ha ?_, ?_⟩⟩
      · rw [← hu, write, if_pos ((badEntry_iff v).mpr hbad), hu]
      · rw [← hu, write, if_neg (mt (badEntry_iff v).mp hbad), if_pos hb, hu]
        rfl
      · rw [← hu, write, if_neg (mt (badEntry_iff v).mp hbad), hb, if_neg Bool.false_ne_true]
      · obtain ⟨stored, settles, form⟩ := u.adcStore_ent_spec x (entIx_lt q e) v (by rw [mode]; exact hm) rfl
        have old : u.reg .ADCx_ENT_s_e x (entIx q e) = s.reg .ADCx_ENT_s_e x j := reg
        rw [adc, old] at settles
        rw [adc, hu] at form
        rw [hu] at stored settles ⊢
        exact ⟨stored, settles, form⟩
    · have same : (s.opened r.master).fld F.ADCx_REF_CFG_SRC x 0 = s.fld F.ADCx_REF_CFG_SRC x 0 :=
        State.opened_congr (·.fld F.ADCx_REF_CFG_SRC x 0) (fun _ _ _ _ => rfl) s r.master
      refine if_pos (h.imp (fun h => ?_) fun h => h.trans same.symm)
      rw [h]; rfl
    · have same : (s.opened r.master).fld F.ADCx_REF_CFG_SRC x 0 = s.fld F.ADCx_REF_CFG_SRC x 0 :=
        State.opened_congr (·.fld F.ADCx_REF_CFG_SRC x 0) (fun _ _ _ _ => rfl) s r.master
      have now : (s.opened r.master).now = s.now := State.opened_congr State.now (fun _ _ _ _ => rfl) s r.master
      rw [State.adcRefWrite_change _ x (fun h => h3 (BitVec.eq_of_toNat_eq h)) (by rw [same]; exact hs) (by rw [State.mode_opened]; exact hc), now]
      rfl

end Sys2Proof.Machine
end

