-- ==== Sys2Proof/Proofs/Conversions.lean ====
section
/-! PROOF. Conversions, aborts and core rotation (R55 to R65, R69, R71, R76, R79). -/

namespace Sys2Proof.Machine

/-! ## The code of a level -/

theorem ideal_code {d vref k : Int} (hr : 0 < vref) (hl : 2 * vref * k ≤ d + vref) (hu : d + vref < 2 * vref * (k + 1)) :
    (d + vref) / (2 * vref) = k := by
  have pos : 0 < 2 * vref := by omega
  refine le_antisymm (Int.lt_add_one_iff.mp ?_) ?_
  · rw [Int.ediv_lt_iff_lt_mul pos, Int.mul_comm]
    exact hu
  · rw [Int.le_ediv_iff_mul_le pos, Int.mul_comm]
    exact hl

theorem adcCode_nearest {diff : Bool} {vp vn vref free k : Int} (hr : 0 < vref)
    (hl : 2 * vref * k ≤ 2 * (vp - vn) * (if diff then 32768 else 65536) + vref)
    (hu : 2 * (vp - vn) * (if diff then 32768 else 65536) + vref < 2 * vref * (k + 1)) : adcCode diff vp vn vref free =
      (BitVec.ofInt 16 (min (if diff then 32767 else 65535) (max (if diff then -32768 else 0) k)),
        decide (k < (if diff then -32768 else 0) ∨ (if diff then 32767 else 65535) < k)) := by
  rw [adcCode]
  rw [if_neg (not_le.mpr hr), ideal_code hr hl hu]
  exact congrArg (Prod.mk _) (Bool.decide_or _ _).symm

/-- A conversion whose core holds. -/
def AdcCur.taken (c : AdcCur) (now : Nat) (stale : Bool) (code : BitVec 16) (oor : Bool) : AdcCur :=
  { c with hold := now, conv := true, stale := stale, code := code, oor := oor }

theorem exec_adcHold_acquired {s : State} {x : Conv} {c : AdcCur} {a : Analog} (hc : s.adc[x].cur = some c) (hl : s.mode.live = true)
    (hv : c.conv = false) {code : BitVec 16} {oor : Bool} (hcode : adcCode (s.flag F.ADCx_ENT_s_e_DIFF x (entIx c.seq c.ent))
      (analogNodes a s.now (s.reg .ADCx_ENT_s_e x (entIx c.seq c.ent)) (s.fld F.ADCx_REF_CFG_SRC x 0)).1
      (analogNodes a s.now (s.reg .ADCx_ENT_s_e x (entIx c.seq c.ent)) (s.fld F.ADCx_REF_CFG_SRC x 0)).2.1
      (analogNodes a s.now (s.reg .ADCx_ENT_s_e x (entIx c.seq c.ent)) (s.fld F.ADCx_REF_CFG_SRC x 0)).2.2 (Config.adcNoRef s.fresh) = (code, oor)) :
    exec (.adcHold x a) s = .next ((((s.unsched (.adcHold x .pins)).modAdc x fun y => { y with cur := some (c.taken s.now (!s.flag F.ADCx_STAT_REFRDY x 0) code oor) }).draw).sched
      17 (.adcConversionEnd x)) := by
  change execAdcHold x a s = _
  unfold execAdcHold
  rw [hc]
  dsimp only
  rw [hl, hv, hcode] <;> rfl

/-! ## Results -/

theorem AdcCur.word_code (c : AdcCur) (settle : Bool) : (c.word settle).setWidth 16 = c.code := by
  obtain ⟨n, hn⟩ : ∃ n, (if settle then 2 ^ 25 else 0) + (if c.sub then 2 ^ 24 else 0) + (if c.oor then 2 ^ 23 else 0) +
      (if c.stale then 2 ^ 22 else 0) + entIx c.seq c.ent * 65536 = n * 65536 := by
    refine ⟨(if settle then 512 else 0) + (if c.sub then 256 else 0) + (if c.oor then 128 else 0) + (if c.stale then 64 else 0) + entIx c.seq c.ent, ?_⟩
    generalize entIx c.seq c.ent = e
    cases settle <;> cases c.sub <;> cases c.oor <;> cases c.stale <;> simp <;> omega
  have low := c.code.isLt
  have form : c.word settle = BitVec.ofNat 32 (n * 65536 + c.code.toNat) := by rw [← hn]; rfl
  rw [form]
  refine BitVec.eq_of_toNat_eq ?_
  rw [BitVec.toNat_setWidth, BitVec.toNat_ofNat]
  omega

theorem regAt_seqCfg : ∀ (x : Conv) (q : Fin 4), regAt (RegName.ADCx_SEQs_CFG.addr x q) = some (.ADCx_SEQs_CFG, x.val, q.val) := by decide +kernel

theorem regAt_ent : ∀ (x : Conv) (j : Fin 64), regAt (RegName.ADCx_ENT_s_e.addr x j) = some (.ADCx_ENT_s_e, x.val, j.val) := by decide +kernel

/-- What the writes that waited leave: runs, requests and results of the converter, and EN. -/
structure State.appliesOnly (x : Conv) (s t : State) : Prop where
  only : ∃ regs adc, t = { s with regs := regs, adc := adc }
  cur : t.adc[x].cur = s.adc[x].cur
  intr : t.adc[x].intr = s.adc[x].intr
  pend : t.adc[x].pend = s.adc[x].pend
  done : t.adc[x].done = s.adc[x].done
  ctrl : t.reg .ADCx_CTRL x 0 = s.reg .ADCx_CTRL x 0

namespace State.appliesOnly
variable {x : Conv} {s t u : State}

theorem refl (x : Conv) (s : State) : State.appliesOnly x s s := ⟨⟨_, _, rfl⟩, rfl, rfl, rfl, rfl, rfl⟩

theorem trans (h : State.appliesOnly x s t) (g : State.appliesOnly x t u) : State.appliesOnly x s u := by
  obtain ⟨⟨_, _, ht⟩, cur, intr, pend, done, ctrl⟩ := h
  obtain ⟨⟨_, _, hu⟩, cur', intr', pend', done', ctrl'⟩ := g
  exact ⟨⟨_, _, by rw [hu, ht]⟩, cur'.trans cur, intr'.trans intr, pend'.trans pend, done'.trans done, ctrl'.trans ctrl⟩

theorem modAdc (s : State) {f : AdcSt → AdcSt} (hf : ∀ a, ∃ held settle, f a = { a with held := held, settle := settle }) :
    State.appliesOnly x s (s.modAdc x f) := by
  obtain ⟨held, settle, h⟩ := hf s.adc[x]
  have own := (s.adc_modAdc_same x f).trans h
  exact ⟨⟨_, _, rfl⟩, by rw [own], by rw [own], by rw [own], by rw [own], rfl⟩

theorem setReg (s : State) {r : RegName} {i j : Nat} (w : Word) (h : RegName.ADCx_CTRL.addr x 0 ≠ r.addr i j) :
    State.appliesOnly x s (s.setReg r i j w) := ⟨⟨_, _, rfl⟩, rfl, rfl, rfl, rfl, State.reg_setReg_ne _ _ h⟩
end State.appliesOnly

theorem State.adcStore_applies (s : State) (x : Conv) (r : RegName) (j : Nat) (v : Word) (hr : RegName.ADCx_CTRL.addr x 0 ≠ r.addr x j) :
    State.appliesOnly x s (s.adcStore x r j v) := by
  by_cases h : r = .ADCx_ENT_s_e
  · subst h
    have stored : State.appliesOnly x s (s.entStored x j v) :=
      (State.appliesOnly.setReg s (r := .ADCx_ENT_s_e) (i := x) (j := j) _ hr).trans (.setReg _ (r := .ADCx_ENT_s_e) (i := x) (j := j) _ hr)
    rw [State.adcStore_ent]
    split
    · exact stored
    · exact stored.trans (.modAdc _ fun a => ⟨a.held, _, rfl⟩)
  · have plain : s.adcStore x r j v = s.writeReg r x j v := by
      unfold State.adcStore
      split
      · exact absurd rfl h
      · rfl
    rw [plain]
    exact .setReg s _ hr

/-- A held write of sequence q. -/
def heldOf (x : Conv) (q : Fin 4) (e : Nat × Word) : Bool :=
  decide (e.1 = RegName.ADCx_SEQs_CFG.addr x q) || (List.range 16).any fun k => decide (e.1 = RegName.ADCx_ENT_s_e.addr x (16 * q.val + k))

theorem State.adcApplyHeld_applies (s : State) (x : Conv) (q : Fin 4) : State.appliesOnly x s (s.adcApplyHeld x q) := by
  have form : s.adcApplyHeld x q = (s.adc[x].held.filter (heldOf x q)).foldl (fun t e => match regAt e.1 with
      | some (r, _, j) => t.adcStore x r j e.2
      | none => t) (s.modAdc x fun a => { a with held := a.held.filter fun e => !heldOf x q e }) := rfl
  rw [form]
  refine List.foldlRecOn _ _ (motive := State.appliesOnly x s) (.modAdc s fun a => ⟨_, a.settle, rfl⟩) fun t ht e he => ?_
  have mine : heldOf x q e = true := (List.mem_filter.mp he).2
  rw [heldOf, Bool.or_eq_true, decide_eq_true_eq, List.any_eq_true] at mine
  obtain h | ⟨k, hk, h⟩ := mine
  · rw [h, regAt_seqCfg x q]
    refine ht.trans (t.adcStore_applies x _ _ _ ?_)
    simp only [RegName.addr, RegName.base, RegName.dims]
    omega
  · have small : 16 * q.val + k < 64 := by have := List.mem_range.mp hk; omega
    have found := regAt_ent x ⟨16 * q.val + k, small⟩
    rw [decide_eq_true_eq.mp h, found]
    refine ht.trans (t.adcStore_applies x _ _ _ ?_)
    simp only [RegName.addr, RegName.base, RegName.dims]
    omega

section
variable (s : State) (x : Conv)

theorem State.adcEntry_run (q : Fin 4) (e : Fin 16) (late : Bool) : (s.adcEntry x q e late).adc[x].done = s.adc[x].done ∧
    (s.adcEntry x q e late).adc[x].cur.any (fun d => d.seq = q ∧ d.ent = e ∧ d.conv = false) = true := by
  obtain ⟨h, hh⟩ : ∃ h, h = s.now + s.fld F.ADCx_ENT_s_e_ACQ x (entIx q e) + (if late then 1 else 0) := ⟨_, rfl⟩
  have own := s.adc_modAdc_same x fun a => { a with cur := some ⟨q, e, h, false, false, late, false, 0, false⟩ }
  have form : (s.adcEntry x q e late).adc[x] = { s.adc[x] with cur := some ⟨q, e, h, false, false, late, false, 0, false⟩ } := by
    rw [State.adcEntry, ← hh]
    exact own
  rw [form]
  exact ⟨rfl, by simp⟩

theorem State.adcRun_done (q : Fin 4) : (s.adcRun x q).adc[x].done = s.adc[x].done := by
  obtain ⟨⟨regs, form⟩, -⟩ := s.adcAge_spec x q fun a => if a = 0 ∨ a = 2 then 1 else a
  rw [State.adcRun, (State.adcEntry_run _ x q 0 _).1, form]

theorem State.adcNext_done : (s.adcNext x).adc[x].done = s.adc[x].done := by
  unfold State.adcNext
  dsimp only
  split
  · rw [State.adcRun_done, State.adc_modAdc_same]
  · split
    · rw [(State.adcEntry_run _ x _ _ _).1, State.adc_modAdc_same]
    · split
      · rw [State.adcRun_done, State.adc_modAdc_same]
      · rfl
end

section
variable {s : State} {x : Conv}

/-- A result lands. -/
theorem State.adcLand_spec {d : AdcDone} (hd : s.adc[x].done = some d) :
    (s.adcLand x).reg .ADCx_RES_s_e x (entIx d.seq d.ent) = d.word ∧ (s.adcLand x).mx.word.get (adcSrc x) 0 = d.word ∧
    adcSrc x ∈ (s.adcLand x).mx.nw ∧ (s.adcLand x).adc[x].done = none ∧ (s.adcLand x).adc[x].cur = s.adc[x].cur ∧
    (d.evt = true → adcSrc x + 1 + d.seq.val ∈ (s.adcLand x).mx.ev) := by
  obtain ⟨u, hu⟩ : ∃ u, u = ((s.modAdc x fun a => { a with done := none }).setReg .ADCx_RES_s_e x (entIx d.seq d.ent) d.word).raiseData
      (adcSrc x) d.word := ⟨_, rfl⟩
  have form : s.adcLand x = if d.dma then (if d.evt then u.raiseEv (adcSrc x + 1 + d.seq.val) else u).emit
      (.dmaPeripheralRequest (Fin.ofNat 32 (4 * x.val + d.seq.val))) else if d.evt then u.raiseEv (adcSrc x + 1 + d.seq.val) else u := by
    unfold State.adcLand
    rw [hd, hu]
  have adc : u.adc[x] = { s.adc[x] with done := none } := by rw [hu]; exact s.adc_modAdc_same x _
  have reg : u.reg .ADCx_RES_s_e x (entIx d.seq d.ent) = d.word := by rw [hu]; exact State.reg_setReg_same _ _ _ _ _
  have word : u.mx.word.get (adcSrc x) 0 = d.word := by rw [hu]; exact SMap.get_put_same _ _ _ _
  have new : adcSrc x ∈ u.mx.nw := by rw [hu]; exact List.mem_append_right _ (List.mem_singleton.mpr rfl)
  have same : (s.adcLand x).regs = u.regs ∧ (s.adcLand x).mx.word = u.mx.word ∧ (s.adcLand x).mx.nw = u.mx.nw ∧ (s.adcLand x).adc = u.adc ∧
      (d.evt = true → adcSrc x + 1 + d.seq.val ∈ (s.adcLand x).mx.ev) := by
    rw [form]
    cases d.dma <;> cases d.evt
    · exact ⟨rfl, rfl, rfl, rfl, fun h => nomatch h⟩
    · exact ⟨rfl, rfl, rfl, rfl, fun _ => List.mem_append_right _ (List.mem_singleton.mpr rfl)⟩
    · exact ⟨rfl, rfl, rfl, rfl, fun h => nomatch h⟩
    · exact ⟨rfl, rfl, rfl, rfl, fun _ => List.mem_append_right _ (List.mem_singleton.mpr rfl)⟩
  obtain ⟨regs', word', nw', adc', ev'⟩ := same
  refine ⟨?_, by rw [word']; exact word, by rw [nw']; exact new, by rw [adc', adc], by rw [adc', adc], ev'⟩
  rw [State.reg, regs']
  exact reg

variable {c : AdcCur} (hc : s.adc[x].cur = some c) (hg : c.ghost = false)
include hc hg

/-- A conversion whose result counts leaves it to land, and acquires the next entry or ends the run. -/
theorem State.adcFree_spec : ∃ d, (s.adcFree x).adc[x].done = some d ∧ d.seq = c.seq ∧ d.ent = c.ent ∧
    d.word = c.word (s.adc[x].settle.get (entIx c.seq c.ent) false) ∧
    d.evt = (decide (s.adcLen x c.seq ≤ c.ent.val) && s.flag F.ADCx_SEQs_CFG_DONEEVT x c.seq) ∧
    (c.ent.val < s.adcLen x c.seq → (s.adcFree x).adc[x].cur.any (fun e => e.seq = c.seq ∧ e.ent = c.ent + 1 ∧ e.conv = false) = true) := by
  obtain ⟨d, hd⟩ : ∃ d : AdcDone, d = ⟨c.seq, c.ent, c.word (s.adc[x].settle.get (entIx c.seq c.ent) false),
    decide (s.adcLen x c.seq ≤ c.ent.val) && s.flag F.ADCx_SEQs_CFG_DONEEVT x c.seq,
    decide (s.adcLen x c.seq ≤ c.ent.val) && s.flag F.ADCx_SEQs_CFG_DMAREQ x c.seq⟩ := ⟨_, rfl⟩
  obtain ⟨u, hu⟩ : ∃ u, u = (s.modAdc x fun a => { a with cur := none }).modAdc x fun a =>
    { a with done := some d, settle := a.settle.drop (entIx c.seq c.ent) } := ⟨_, rfl⟩
  have settle : (s.modAdc x fun a => { a with cur := none }).adc[x].settle = s.adc[x].settle :=
    by rw [State.adc_modAdc_same]
  have form : s.adcFree x = if decide (s.adcLen x c.seq ≤ c.ent.val) then (u.adcApplyHeld x c.seq).adcNext x
      else u.adcEntry x c.seq (c.ent + 1) false := by
    unfold State.adcFree
    rw [hc]
    dsimp only
    rw [hg, if_neg Bool.false_ne_true, settle, hu, hd]
    rfl
  have done : u.adc[x].done = some d := by rw [hu, State.adc_modAdc_same]
  rw [form]
  refine ⟨d, ?_, by rw [hd], by rw [hd], by rw [hd], by rw [hd], fun hl => ?_⟩
  · split
    · rw [State.adcNext_done, (u.adcApplyHeld_applies x c.seq).done, done]
    · rw [(u.adcEntry_run x c.seq (c.ent + 1) false).1, done]
  · rw [decide_eq_false (not_le.mpr hl), if_neg Bool.false_ne_true]
    exact (u.adcEntry_run x c.seq (c.ent + 1) false).2

omit hg in
theorem exec_adcConversionEnd_converted (hl : s.mode.live = true) (hv : c.conv = true) (hd : s.adc[x].done = none) :
    exec (.adcConversionEnd x) s = .next ((s.adcFree x).adcLand x) := by
  change execAdcConversionEnd x s = _
  unfold execAdcConversionEnd
  rw [if_pos hl, hd, hc]
  exact congrArg Host.Outcome.next (if_pos hv)
end

/-! ## Aborts -/

/-- Ages of sequences change results alone. -/
theorem State.adcAges_spec (s : State) (x : Conv) (f : Nat → Nat) (qs : List (Fin 4)) :
    ∃ regs, qs.foldl (fun t q => t.adcAge x q f) s = { s with regs := regs } ∧
      (qs.foldl (fun t q => t.adcAge x q f) s).reg .ADCx_CTRL x 0 = s.reg .ADCx_CTRL x 0 := by
  refine List.foldlRecOn qs _ (motive := fun (t : State) => ∃ regs, t = { s with regs := regs } ∧ t.reg .ADCx_CTRL x 0 = s.reg .ADCx_CTRL x 0)
    ⟨s.regs, rfl, rfl⟩ fun t ht q _ => ?_
  obtain ⟨regs, form, ctrl⟩ := ht
  obtain ⟨⟨regs', form'⟩, kept⟩ := t.adcAge_spec x q f
  refine ⟨regs', by rw [form', form], (kept _ _ _ fun e _ => ?_).trans ctrl⟩
  simp only [RegName.addr, RegName.base, RegName.dims]
  omega

theorem State.adcApplyAll_applies (s : State) (x : Conv) (qs : List (Fin 4)) : State.appliesOnly x s (qs.foldl (fun t q => t.adcApplyHeld x q) s) :=
  List.foldlRecOn qs _ (motive := State.appliesOnly x s) (.refl x s) fun t ht q _ => ht.trans (t.adcApplyHeld_applies x q)

/-- The sequences that an abort ends: those that run, and those interrupted. -/
def AdcSt.runs (a : AdcSt) : List (Fin 4) := (a.cur.toList.filter (fun c => !c.ghost)).map (·.seq) ++ a.intr.toList.map (·.1)

theorem State.adcAbort_spec {s : State} {x : Conv} {c : AdcCur} (hc : s.adc[x].cur = some c) : (s.adcAbort x).adc[x].pend = [] ∧
    (s.adcAbort x).adc[x].intr = none ∧ (s.adcAbort x).adc[x].cur = (if c.conv then some { c with ghost := true } else none) ∧
    (s.adcAbort x).reg .ADCx_CTRL x 0 = s.reg .ADCx_CTRL x 0 := by
  obtain ⟨a, ha⟩ : ∃ a, a = s.adc[x].runs.foldl (fun t q => t.adcAge x q fun g => if g = 1 then 2 else g) s := ⟨_, rfl⟩
  obtain ⟨regs, aged, ctrl⟩ := s.adcAges_spec x (fun g => if g = 1 then 2 else g) s.adc[x].runs
  rw [← ha] at aged ctrl
  obtain ⟨b, hb⟩ : ∃ b, b = a.modAdc x fun a =>
    { a with cur := a.cur.bind fun c => if c.conv then some { c with ghost := true } else none, intr := none, pend := [] } := ⟨_, rfl⟩
  obtain ⟨d, hd⟩ : ∃ d, d = if b.adc[x].cur.isNone then b.unsched (.adcHold x .pins) else b := ⟨_, rfl⟩
  have form : s.adcAbort x = (s.adc[x].runs ++ s.adc[x].pend.map (·.seq)).foldl (fun t q => t.adcApplyHeld x q) d := by
    rw [hd, hb, ha]; rfl
  have own := a.adc_modAdc_same x fun a =>
    { a with cur := a.cur.bind fun c => if c.conv then some { c with ghost := true } else none, intr := none, pend := [] }
  have adc : d.adc = b.adc ∧ d.regs = b.regs := by rw [hd]; split <;> exact ⟨rfl, rfl⟩
  have cur : a.adc[x].cur = some c := by rw [aged]; exact hc
  have applied := d.adcApplyAll_applies x (s.adc[x].runs ++ s.adc[x].pend.map (·.seq))
  rw [form, applied.pend, applied.intr, applied.cur, applied.ctrl, adc.1, hb, own, cur]
  refine ⟨rfl, rfl, rfl, ?_⟩
  rw [State.reg, adc.2, hb]
  exact ctrl

theorem State.adcCtrlWrite_spec {s : State} {x : Conv} {c : AdcCur} (hc : s.adc[x].cur = some c) {v : Word}
    (hv : (v.getLsbD 1 || !v.getLsbD 0) = true) : (s.adcCtrlWrite x v).adc[x].pend = [] ∧ (s.adcCtrlWrite x v).adc[x].intr = none ∧
      (s.adcCtrlWrite x v).adc[x].cur = (if c.conv then some { c with ghost := true } else none) ∧
      (s.adcCtrlWrite x v).fld F.ADCx_CTRL_EN x 0 = getBits v 0 0 := by
  have form : s.adcCtrlWrite x v = (s.setFld F.ADCx_CTRL_EN x 0 (getBits v 0 0)).adcAbort x := if_pos hv
  obtain ⟨pend, intr, cur, ctrl⟩ := State.adcAbort_spec (s := s.setFld F.ADCx_CTRL_EN x 0 (getBits v 0 0)) hc
  rw [form]
  refine ⟨pend, intr, cur, (congrArg (fun w => getBits w _ _) ctrl).trans ?_⟩
  exact (State.fld_setFld_same s F.ADCx_CTRL_EN x 0 _ (by decide)).trans (Nat.mod_eq_of_lt (getBits_lt _ _ _))

/-! ## Rotation -/

section
variable {s : State} (hl : s.mode.live = true) (hs : s.fld F.ADC_ROT_STAT_SPARE 0 0 < 9)
include hl hs

theorem State.spare_present : (s.mode.live && decide (s.fld F.ADC_ROT_STAT_SPARE 0 0 ≠ 15)) = true := by
  rw [hl, decide_eq_true (by omega)]
  rfl

theorem exec_rotationDue_spare : exec .rotationDue s = .next
    (((if s.rot.waits then s.rotAdvance.bump F.ADC_ROT_STAT_SKIPS 0 0 else s).modRot fun r => { r with waits := true, dueAt := some (s.now + 400000) }).sched
      392000 .spareRefConnect) := by
  have now : (if s.rot.waits then s.rotAdvance.bump F.ADC_ROT_STAT_SKIPS 0 0 else s).now = s.now := by split <;> rfl
  change execRotationDue s = _
  rw [execRotationDue, if_pos (State.spare_present hl hs)]
  dsimp only
  rw [now]

theorem exec_spareRefConnect_spare : exec .spareRefConnect s = .next { s with rot := { s.rot with spareRef := some s.rotNext } } := by
  change execSpareRefConnect s = _
  rw [execSpareRefConnect, if_pos (State.spare_present hl hs)]
  rfl

omit hl hs in
/-- A swap skipped is counted, and the next converter's turn comes. -/
theorem State.rotSkip_counts : (s.rotAdvance.bump F.ADC_ROT_STAT_SKIPS 0 0).fld F.ADC_ROT_STAT_SKIPS 0 0 =
      min F.ADC_ROT_STAT_SKIPS.max (s.fld F.ADC_ROT_STAT_SKIPS 0 0 + 1) ∧
    (s.rotAdvance.bump F.ADC_ROT_STAT_SKIPS 0 0).fld F.ADC_ROT_STAT_NEXT 0 0 = (s.fld F.ADC_ROT_STAT_NEXT 0 0 + 1) % 8 := by
  have skips : s.rotAdvance.fld F.ADC_ROT_STAT_SKIPS 0 0 = s.fld F.ADC_ROT_STAT_SKIPS 0 0 :=
    State.fld_setFld_apart (f := F.ADC_ROT_STAT_NEXT) (g := F.ADC_ROT_STAT_SKIPS) s _ rfl (by decide) (by decide) (by decide)
  have next : s.rotAdvance.fld F.ADC_ROT_STAT_NEXT 0 0 = (s.fld F.ADC_ROT_STAT_NEXT 0 0 + 1) % 8 :=
    State.fld_setFld_same s F.ADC_ROT_STAT_NEXT 0 0 _ (by decide)
  refine ⟨(State.fld_bump_same s.rotAdvance F.ADC_ROT_STAT_SKIPS 0 0 (by decide)).trans (by rw [skips]), ?_⟩
  exact (State.fld_setFld_apart (f := F.ADC_ROT_STAT_SKIPS) (g := F.ADC_ROT_STAT_NEXT) (s.rotAdvance.hit F.ADC_ROT_STAT_SKIPS 0 0 1) _ rfl (by decide)
    (by decide) (by decide)).trans next

/-- The registers of a swap. -/
def State.rotSwapped (s : State) : State :=
  (((s.setReg .ADC_MAP 0 0 (setBits (s.reg .ADC_MAP 0 0) (4 * s.rotNext.val + 3) (4 * s.rotNext.val) (s.fld F.ADC_ROT_STAT_SPARE 0 0))).setFld
    F.ADC_ROT_STAT_SPARE 0 0 (s.coreOf s.rotNext)).count F.ADC_ROT_STAT_SWAPS 0 0).rotAdvance

omit hl hs in
theorem State.coreOf_lt (s : State) (x : Conv) : s.coreOf x < 16 := by
  have low := getBits_lt (s.reg .ADC_MAP 0 0) (4 * x.val + 3) (4 * x.val)
  rw [show 4 * x.val + 3 + 1 - 4 * x.val = 4 by omega] at low
  exact low

omit hl in
theorem State.rotSwapped_spec : s.rotSwapped.coreOf s.rotNext = s.fld F.ADC_ROT_STAT_SPARE 0 0 ∧
    s.rotSwapped.fld F.ADC_ROT_STAT_SPARE 0 0 = s.coreOf s.rotNext ∧ ∀ y : Conv, y ≠ s.rotNext → s.rotSwapped.coreOf y = s.coreOf y := by
  obtain ⟨x, hx⟩ : ∃ x, x = s.rotNext := ⟨_, rfl⟩
  obtain ⟨a, ha⟩ : ∃ a, a = s.setReg .ADC_MAP 0 0 (setBits (s.reg .ADC_MAP 0 0) (4 * x.val + 3) (4 * x.val) (s.fld F.ADC_ROT_STAT_SPARE 0 0)) := ⟨_, rfl⟩
  have form : s.rotSwapped = ((a.setFld F.ADC_ROT_STAT_SPARE 0 0 (s.coreOf x)).count F.ADC_ROT_STAT_SWAPS 0 0).rotAdvance := by rw [ha, hx]; rfl
  have map : s.rotSwapped.reg .ADC_MAP 0 0 = setBits (s.reg .ADC_MAP 0 0) (4 * x.val + 3) (4 * x.val) (s.fld F.ADC_ROT_STAT_SPARE 0 0) := by
    rw [form]
    refine (State.reg_setReg_ne (r := .ADC_ROT_STAT) _ _ (by decide)).trans ((State.reg_setReg_ne (r := .ADC_ROT_STAT) _ _ (by decide)).trans
      ((State.reg_setReg_ne (r := .ADC_ROT_STAT) _ _ (by decide)).trans ?_))
    rw [ha]
    exact State.reg_setReg_same _ _ _ _ _
  rw [← hx]
  have low := x.isLt
  refine ⟨?_, ?_, fun y hy => ?_⟩
  · rw [State.coreOf, map, getBits_setBits_same _ _ _ _ (by omega) (by omega), show 4 * x.val + 3 + 1 - 4 * x.val = 4 by omega]
    exact Nat.mod_eq_of_lt (by omega)
  · have spare : (a.setFld F.ADC_ROT_STAT_SPARE 0 0 (s.coreOf x)).fld F.ADC_ROT_STAT_SPARE 0 0 = s.coreOf x :=
      (State.fld_setFld_same a F.ADC_ROT_STAT_SPARE 0 0 _ (by decide)).trans (Nat.mod_eq_of_lt (s.coreOf_lt x))
    rw [form]
    exact (State.fld_setFld_apart (f := F.ADC_ROT_STAT_NEXT) (g := F.ADC_ROT_STAT_SPARE) _ _ rfl (by decide) (by decide) (by decide)).trans
      ((State.fld_setFld_apart (f := F.ADC_ROT_STAT_SWAPS) (g := F.ADC_ROT_STAT_SPARE) _ _ rfl (by decide) (by decide) (by decide)).trans spare)
  · have := Fin.val_ne_of_ne hy
    have := y.isLt
    rw [State.coreOf, map, getBits_setBits_ne _ _ _ _ _ _ (by omega) (by omega) (by omega)]
    rfl

omit hl hs in
/-- The calibration of a spare that starts. -/
theorem State.spareCalibrate_spec (s : State) : s.spareCalibrate.regs = s.regs ∧ s.spareCalibrate.adc = s.adc ∧
    s.spareCalibrate.rot = { s.rot with calBusy := true } ∧
    ∃ d f, 1 ≤ d ∧ d ≤ 400000 ∧ (s.now + d, Instr.spareCalComplete f) ∈ s.spareCalibrate.cal := by
  refine ⟨rfl, rfl, rfl, Config.spareCalTime s.fresh % 400000 + 1,
    ⟨(Config.spareCal s.fresh).1, (Config.spareCal s.fresh).2.1, (Config.spareCal s.fresh).2.2.1, (Config.spareCal s.fresh).2.2.2⟩,
    Nat.le_add_left _ _, ?_, ?_⟩
  · have := Nat.mod_lt (Config.spareCalTime s.fresh) (show 0 < 400000 by decide)
    omega
  · unfold State.spareCalibrate
    exact State.mem_sched rfl _ _

/-- A swap. -/
def State.rotDone (s : State) : State :=
  ((((s.rotSwapped.modRot fun r => { r with waits := false, spareRef := none }).modAdc s.rotNext fun a => { a with swapLc := some s.now }).sched agedLc
    (.coreAged (Fin.ofNat 9 (s.fld F.ADC_ROT_STAT_SPARE 0 0)))).unsched (.coreAged (Fin.ofNat 9 (s.coreOf s.rotNext)))).spareCalibrate

theorem exec_rotationSwap_ready {due : Nat} (hw : s.rot.waits = true) (hb : s.rot.calBusy = false) (hi : s.adc[s.rotNext].idle = true)
    (hd : s.rot.dueAt = some due) (hlt : due < s.now + 400000) : exec .rotationSwap s = .next s.rotDone := by
  have ready : s.swapReady = true := by
    rw [State.swapReady, hl, hw, hb, hi, hd, Option.any_some, decide_eq_true hlt, decide_eq_true (by omega)]
    rfl
  change execRotationSwap s = _
  rw [execRotationSwap, if_pos ready]
  rfl

omit hl hs in
theorem calFails_iff (c : SpareCal) : calFails c = false ↔ c.off.natAbs ≤ 64000 ∧ c.gain.natAbs ≤ 5000 ∧ c.inl.natAbs ≤ 1500 := by
  rw [calFails, Bool.or_eq_false_iff, Bool.or_eq_false_iff, decide_eq_false_iff_not, decide_eq_false_iff_not, decide_eq_false_iff_not]
  omega

/-- The spare's trims are set. -/
def State.spareTrimmed (s : State) (c : SpareCal) : State :=
  s.modRot fun r => { r with calBusy := false, trim := vset r.trim (Fin.ofNat 9 (s.fld F.ADC_ROT_STAT_SPARE 0 0)) c }

theorem exec_spareCalComplete_good {c : SpareCal} (hg : calFails c = false) : exec (.spareCalComplete c) s = .next
    ((s.spareTrimmed c).setReg .ADC_CAL_STAT 0 0 (setBits (s.reg .ADC_CAL_STAT 0 0) (16 + s.fld F.ADC_ROT_STAT_SPARE 0 0)
      (16 + s.fld F.ADC_ROT_STAT_SPARE 0 0) 0)) := by
  change execSpareCalComplete c s = _
  rw [execSpareCalComplete]
  dsimp only
  rw [if_pos (State.spare_present hl hs), hg]
  rfl

theorem exec_spareCalComplete_bad {c : SpareCal} (hg : calFails c = true) : exec (.spareCalComplete c) s = .next
    (((((s.spareTrimmed c).setReg .ADC_CAL_STAT 0 0 (setBits (s.reg .ADC_CAL_STAT 0 0) (s.fld F.ADC_ROT_STAT_SPARE 0 0)
      (s.fld F.ADC_ROT_STAT_SPARE 0 0) 1)).setFld F.ADC_CAL_STAT_DEGRADED 0 0 1).setFld F.ADC_ROT_STAT_SPARE 0 0 15).rotStop.raiseEv 7) := by
  change execSpareCalComplete c s = _
  rw [execSpareCalComplete]
  dsimp only
  rw [if_pos (State.spare_present hl hs), hg]
  rfl
end

theorem State.rotSwapped_rest (s : State) : s.rotSwapped.rot = s.rot ∧ s.rotSwapped.now = s.now := ⟨rfl, rfl⟩

/-- What stands after a swap. -/
theorem State.rotDone_spec (s : State) (hs : s.fld F.ADC_ROT_STAT_SPARE 0 0 < 9) : s.rotDone.coreOf s.rotNext = s.fld F.ADC_ROT_STAT_SPARE 0 0 ∧
    s.rotDone.fld F.ADC_ROT_STAT_SPARE 0 0 = s.coreOf s.rotNext ∧ (∀ y : Conv, y ≠ s.rotNext → s.rotDone.coreOf y = s.coreOf y) ∧
    s.rotDone.rot.waits = false ∧ s.rotDone.rot.calBusy = true ∧ s.rotDone.adc[s.rotNext].swapLc = some s.now ∧
    ∃ d f, 1 ≤ d ∧ d ≤ 400000 ∧ (s.now + d, Instr.spareCalComplete f) ∈ s.rotDone.cal := by
  obtain ⟨mapped, out, others⟩ := State.rotSwapped_spec hs
  obtain ⟨rotS, nowS⟩ := s.rotSwapped_rest
  obtain ⟨a, ha⟩ : ∃ a, a = s.rotSwapped := ⟨_, rfl⟩
  rw [← ha] at mapped out others rotS nowS
  obtain ⟨b, hb⟩ : ∃ b, b = (a.modRot fun r => { r with waits := false, spareRef := none }).modAdc s.rotNext fun a => { a with swapLc := some s.now } :=
    ⟨_, rfl⟩
  obtain ⟨d, hd⟩ : ∃ d, d = (b.sched agedLc (.coreAged (Fin.ofNat 9 (s.fld F.ADC_ROT_STAT_SPARE 0 0)))).unsched
    (.coreAged (Fin.ofNat 9 (s.coreOf s.rotNext))) := ⟨_, rfl⟩
  have form : s.rotDone = d.spareCalibrate := by rw [hd, hb, ha]; rfl
  have regs : d.regs = a.regs := by rw [hd, hb]; rfl
  have rot : d.rot = { s.rot with waits := false, spareRef := none } := by rw [hd, hb, ← rotS]; rfl
  have adc : d.adc = b.adc := by rw [hd]; rfl
  have now : d.now = s.now := by rw [hd, hb, ← nowS]; rfl
  have swapped : b.adc[s.rotNext].swapLc = some s.now := by rw [hb, State.adc_modAdc_same]
  obtain ⟨regs', adc', rot', cal⟩ := d.spareCalibrate_spec
  have core : ∀ y, d.spareCalibrate.coreOf y = a.coreOf y := fun y => by rw [State.coreOf, State.reg, regs', regs]; rfl
  rw [now] at cal
  rw [form]
  refine ⟨(core _).trans mapped, (State.fld_of_regs (regs'.trans regs) _ _ _).trans out, fun y hy => (core y).trans (others y hy), ?_, ?_, ?_, cal⟩
  · rw [rot', rot]
  · rw [rot']
  · rw [adc', adc]
    exact swapped

/-- A spare beyond the limits of R59 is withdrawn. -/
theorem State.spareWithdrawn (s t : State) {k : Nat} (hk : k < 9) (ht : t = ((((s.setReg .ADC_CAL_STAT 0 0 (setBits (s.reg .ADC_CAL_STAT 0 0) k
    k 1)).setFld F.ADC_CAL_STAT_DEGRADED 0 0 1).setFld F.ADC_ROT_STAT_SPARE 0 0 15).rotStop).raiseEv 7) : t.rot.trim = s.rot.trim ∧
      t.fld F.ADC_ROT_STAT_SPARE 0 0 = 15 ∧ t.flag F.ADC_CAL_STAT_DEGRADED 0 0 = true ∧ (t.reg .ADC_CAL_STAT 0 0).getLsbD k = true ∧
      t.rot.dueAt = none ∧ t.mx.ev = s.mx.ev ++ [7] := by
  obtain ⟨a, ha⟩ : ∃ a, a = s.setReg .ADC_CAL_STAT 0 0 (setBits (s.reg .ADC_CAL_STAT 0 0) k k 1) := ⟨_, rfl⟩
  obtain ⟨b, hb⟩ : ∃ b, b = a.setFld F.ADC_CAL_STAT_DEGRADED 0 0 1 := ⟨_, rfl⟩
  obtain ⟨d, hd⟩ : ∃ d, d = b.setFld F.ADC_ROT_STAT_SPARE 0 0 15 := ⟨_, rfl⟩
  rw [← ha, ← hb, ← hd] at ht
  have regs : t.regs = d.regs := by rw [ht]; rfl
  have cal : t.reg .ADC_CAL_STAT 0 0 = b.reg .ADC_CAL_STAT 0 0 := by
    rw [State.reg, regs, hd]
    exact State.reg_setReg_ne (r := .ADC_ROT_STAT) b _ (by decide)
  have same : ∀ u : State, u.rotStop.rot.trim = u.rot.trim ∧ u.rotStop.rot.dueAt = none ∧ u.rotStop.mx = u.mx := fun _ => ⟨rfl, rfl, rfl⟩
  obtain ⟨trim, due, mx⟩ := same d
  refine ⟨?_, ?_, ?_, ?_, ?_, ?_⟩
  · rw [ht]
    exact trim.trans (by rw [hd, hb, ha]; rfl)
  · rw [State.fld_of_regs regs, hd]
    exact State.fld_setFld_same b F.ADC_ROT_STAT_SPARE 0 0 15 (by decide)
  · refine (congrArg (fun w => getBits w _ _ != 0) cal).trans ?_
    rw [hb]
    exact congrArg (· != 0) (State.fld_setFld_same a F.ADC_CAL_STAT_DEGRADED 0 0 1 (by decide))
  · rw [cal, hb]
    have own : (a.setFld F.ADC_CAL_STAT_DEGRADED 0 0 1).reg .ADC_CAL_STAT 0 0 = setBits (a.reg .ADC_CAL_STAT 0 0) 31 31 1 :=
      State.reg_setReg_same _ _ _ _ _
    have mark : a.reg .ADC_CAL_STAT 0 0 = setBits (s.reg .ADC_CAL_STAT 0 0) k k 1 := by rw [ha]; exact State.reg_setReg_same _ _ _ _ _
    rw [own, setBits_getLsbD _ _ _ _ _ (by decide) (by omega), if_neg (by omega), mark, setBits_getLsbD _ _ _ _ _ (by omega) (by omega),
      if_pos ⟨le_refl k, le_refl k⟩, Nat.sub_self]
    rfl
  · rw [ht]
    exact due
  · rw [ht]
    have ev : (d.rotStop.raiseEv 7).mx.ev = d.rotStop.mx.ev ++ [7] := rfl
    rw [ev, mx, hd, hb, ha]
    rfl

theorem exec_coreAged_serving {s : State} (hl : s.mode.live = true) {k : Fin 9} (h : ∃ y : Conv, s.coreOf y = k.val) : exec (.coreAged k) s = .next
    ((s.setReg .ADC_CAL_STAT 0 0 (setBits (s.reg .ADC_CAL_STAT 0 0) (16 + k.val) (16 + k.val) 1)).raiseEv 8) := by
  have serves : (s.mode.cores && (List.finRange 8).any fun x => decide (s.coreOf x = k.val)) = true := by
    obtain ⟨y, hy⟩ := h
    rw [Mode.cores, hl, Bool.true_or, Bool.true_and, List.any_eq_true]
    exact ⟨y, List.mem_finRange y, decide_eq_true hy⟩
  change execCoreAged k s = _
  rw [execCoreAged, if_pos serves]

/-- A field of one bit. -/
theorem flag_bit (w : Word) (k : Nat) : (getBits w k k != 0) = w.getLsbD k := by
  have one := getBits_testBit w k k 0
  rw [show k + 1 - k = 1 by omega, show decide (0 < 1) = true from rfl, Bool.true_and, Nat.add_zero] at one
  rw [← one, Nat.testBit_zero]
  have low := getBits_lt w k k
  rw [show k + 1 - k = 1 by omega] at low
  have two : getBits w k k = 0 ∨ getBits w k k = 1 := by omega
  obtain h | h := two <;> rw [h] <;> rfl

/-- Settles O27: a conversion by its hold and its end, a swap by the registers that it exchanges. -/
theorem conversionsAndRotation : Obligations.ConversionsAndRotation := by
  unfold Obligations.ConversionsAndRotation
  constructor
  · intro s r x c ain refp refn vdda k hc live j input src diff full lo hi vp vn vref
    refine ⟨fun hv hr hl hu => ?_, fun hv hg hd => ?_, fun ha i hi => ?_⟩
    · have pair : (s.reg .ADCx_ENT_s_e x j).getLsbD 6 = diff := (flag_bit _ 6).symm
      have nodes : analogNodes (.board ain refp refn vdda) s.now (s.reg .ADCx_ENT_s_e x j) (s.fld F.ADCx_REF_CFG_SRC x 0) = (vp, vn, vref) := by
        rw [analogNodes, pair]
        rfl
      exact exec_adcHold_acquired hc live hv (by rw [nodes]; exact adcCode_nearest hr hl hu)
    · obtain ⟨d, done, seq, ent, word, evt, next⟩ := State.adcFree_spec hc hg
      obtain ⟨reg, last, new, over_, cur, ev⟩ := State.adcLand_spec done
      rw [seq, ent, word] at reg
      rw [word] at last
      rw [seq] at ev
      refine ⟨_, exec_adcConversionEnd_converted hc live hv hd, reg, ?_, ?_, new, over_, fun hlt => ?_, fun hge he => ev ?_⟩
      · exact (congrArg (BitVec.setWidth 16) reg).trans (c.word_code _)
      · exact last.trans reg.symm
      · rw [cur]
        have small := s.adcLen_lt x c.seq
        have val : (c.ent + 1).val = c.ent.val + 1 := Fin.val_add_one_of_lt' (by omega)
        have acquired := next hlt
        revert acquired
        cases (s.adcFree x).adc[x].cur with
        | none => exact fun h => h
        | some e =>
          rw [Option.any_some, Option.any_some, decide_eq_true_eq, decide_eq_true_eq]
          rintro ⟨hseq, hent, hconv⟩
          exact ⟨hseq, by rw [hent, val], hconv⟩
      · rw [evt, he, decide_eq_true hge]
        rfl
    · obtain ⟨u, hu⟩ : ∃ u, u = s.opened r.master := ⟨_, rfl⟩
      have cur : u.adc[x].cur = some c := by
        rw [hu, show (s.opened r.master).adc = s.adc from State.opened_congr State.adc (fun _ _ _ _ => rfl) s r.master]
        exact hc
      have en : u.fld F.ADCx_CTRL_EN x 0 = s.fld F.ADCx_CTRL_EN x 0 := by
        rw [hu]
        exact State.opened_congr (·.fld F.ADCx_CTRL_EN x 0) (fun _ _ _ _ => rfl) s r.master
      have bit : u.fld F.ADCx_CTRL_EN x 0 < 2 := getBits_lt _ _ _
      simp only [List.mem_cons, List.not_mem_nil, or_false] at hi
      obtain rfl | rfl := hi
      · obtain ⟨v, hv⟩ : ∃ v, v = BitVec.ofNat 32 (2 + u.fld F.ADCx_CTRL_EN x 0) := ⟨_, rfl⟩
        have bits : (v.getLsbD 1 || !v.getLsbD 0) = true ∧ getBits v 0 0 = u.fld F.ADCx_CTRL_EN x 0 := by
          obtain h | h : u.fld F.ADCx_CTRL_EN x 0 = 0 ∨ u.fld F.ADCx_CTRL_EN x 0 = 1 := by omega
          · rw [hv, h]; decide
          · rw [hv, h]; decide
        obtain ⟨aborts, keeps⟩ := bits
        obtain ⟨pend, intr, cur', en'⟩ := State.adcCtrlWrite_spec cur aborts
        rw [keeps, en] at en'
        refine ⟨u.adcCtrlWrite x v, (regCmd_next_of (body := fun s => s.adcCtrlWrite x (BitVec.ofNat 32 (2 + s.fld F.ADCx_CTRL_EN x 0))) ha
          rfl).trans (by rw [hv, hu]), pend, intr, cur', ?_⟩
        rw [if_neg (by simp)]
        exact congrArg (· != 0) en'
      · obtain ⟨pend, intr, cur', en'⟩ := State.adcCtrlWrite_spec (v := 0) cur (by decide)
        refine ⟨u.adcCtrlWrite x 0, (regCmd_next_of (body := fun s => s.adcCtrlWrite x 0) ha rfl).trans (by rw [hu]), pend, intr, cur', ?_⟩
        rw [if_pos rfl]
        exact congrArg (· != 0) en'
  · intro s c k live hs hn spare x
    refine ⟨?_, exec_spareRefConnect_spare live hs, ?_⟩
    · refine ⟨_, exec_rotationDue_spare live hs, ?_, ?_, fun hw => ?_, fun hw => ?_⟩
      · split <;> rfl
      · exact State.mem_sched (by split <;> rfl) 392000 _
      · rw [if_neg (by rw [hw]; decide)]
        rfl
      · rw [if_pos hw]
        exact State.rotSkip_counts
    · intro good done
      refine ⟨fun due hw hb hi hd hlt => ?_, fun hg => ?_, fun hg => ?_, exec_coreAged_serving live⟩
      · exact ⟨_, exec_rotationSwap_ready live hs hw hb hi hd hlt, s.rotDone_spec hs⟩
      · exact exec_spareCalComplete_good live hs ((calFails_iff c).mpr hg)
      · have fails : calFails c = true := by
          rw [← Bool.not_eq_false]
          exact mt (calFails_iff c).mp hg
        exact ⟨_, exec_spareCalComplete_bad live hs fails, (s.spareTrimmed c).spareWithdrawn _ hs rfl⟩

end Sys2Proof.Machine
end

