-- ==== Sys2Proof/Proofs/LoopSets.lean ====
section
/-! PROOF. Sets of a loop engine's pipelines: accepted, held, overrun (R51, R185, R191, R201 to R203). -/

namespace Sys2Proof.Machine

/-! ## What a pipeline's set leaves -/

/-- The commands that a pipeline schedules of itself. -/
def Pipe.schedules (n : LeId) (p : Pipe) (c : Instr) : Prop :=
  c = .setAccept n p ∨ match p with
  | .cur => c = .currentLoopOutput n
  | .vlt => c = .voltageLoopOutput n
  | .ftr => c = .freqTrackerOutput n
  | .prf => c = .profileOutput n
  | .obs => c = .observerAngle n ∨ c = .observerConfidence n
  | .gen => False

/-- Acceptance of sets at pipeline `p` leaves the other pipelines, the other engines, memory, the matrix but for its events, and the
commands that are not the pipeline's. -/
structure State.pipeOnly (n : LeId) (p : Pipe) (s t : State) : Prop where
  pipes : ∀ q : Pipe, q.ix ≠ p.ix → t.lePipe n q = s.lePipe n q
  engines : ∀ m : LeId, m ≠ n → t.le[m] = s.le[m]
  mem : t.mem = s.mem
  now : t.now = s.now
  dnew : t.mx.dnew = s.mx.dnew
  cal : ∀ x ∈ s.cal, ¬ Pipe.schedules n p x.2 → x ∈ t.cal

theorem State.pipeOnly.refl (n : LeId) (p : Pipe) (s : State) : State.pipeOnly n p s s :=
  ⟨fun _ _ => rfl, fun _ _ => rfl, rfl, rfl, rfl, fun _ h _ => h⟩

theorem State.pipeOnly.trans {n : LeId} {p : Pipe} {s t u : State} (h : State.pipeOnly n p s t) (g : State.pipeOnly n p t u) :
    State.pipeOnly n p s u :=
  ⟨fun q hq => (g.pipes q hq).trans (h.pipes q hq), fun m hm => (g.engines m hm).trans (h.engines m hm), g.mem.trans h.mem,
    g.now.trans h.now, g.dnew.trans h.dnew, fun x hx hn => g.cal x (h.cal x hx hn) hn⟩

theorem State.mem_cal_sched {s : State} {x : Nat × Instr} (h : x ∈ s.cal) {c : Instr} (hc : x.2 ≠ c) (d : Nat) : x ∈ (s.sched d c).cal :=
  List.mem_append_left _ (List.mem_filter.mpr ⟨h, by simp [hc]⟩)

theorem State.sched_pipeOnly (s : State) {n : LeId} {p : Pipe} {c : Instr} (h : Pipe.schedules n p c) (d : Nat) :
    State.pipeOnly n p s (s.sched d c) :=
  ⟨fun _ _ => rfl, fun _ _ => rfl, rfl, rfl, rfl, fun _ hx hn => State.mem_cal_sched hx (fun e => hn (e ▸ h)) d⟩

theorem State.modPipe_pipeOnly (s : State) (n : LeId) (p : Pipe) (f : LePipe → LePipe) : State.pipeOnly n p s (s.modPipe n p f) :=
  ⟨fun _ hq => s.lePipe_modPipe_ne n f hq, fun _ hm => s.le_modLe_ne n _ hm, rfl, rfl, rfl, fun _ h _ => h⟩

theorem State.setReg_pipeOnly (s : State) (n : LeId) (p : Pipe) (r : RegName) (i j : Nat) (v : Word) :
    State.pipeOnly n p s (s.setReg r i j v) := ⟨fun _ _ => rfl, fun _ _ => rfl, rfl, rfl, rfl, fun _ h _ => h⟩

theorem State.unplan_pipeOnly (s : State) (n : LeId) (p : Pipe) :
    State.pipeOnly n p s (s.modLe n fun e => { e with plan := false }) ∧
    (s.modLe n fun e => { e with plan := false }).lePipe n p = s.lePipe n p := by
  have same : ∀ q, (s.modLe n fun e => { e with plan := false }).lePipe n q = s.lePipe n q := fun q => by
    unfold State.lePipe; rw [State.le_modLe_same]
  exact ⟨⟨fun q _ => same q, fun m hm => s.le_modLe_ne n _ hm, rfl, rfl, rfl, fun _ h _ => h⟩, same p⟩

theorem State.leOvr_pipeOnly (s : State) (n : LeId) (p : Pipe) : State.pipeOnly n p s (s.leOvr n) :=
  ⟨fun _ _ => rfl, fun _ _ => rfl, rfl, rfl, rfl, fun _ h _ => h⟩

/-! ## A set enters -/

/-- A set keeps the lc it was accepted in and its right to write the state while it is computed. -/
theorem State.leCompute_at (s : State) (n : LeId) (p : Pipe) (j : LeJob) :
    (s.leCompute n p j).at_ = j.at_ ∧ (s.leCompute n p j).keep = j.keep := by
  cases p with
  | cur =>
    simp only [State.leCompute]
    split
    · exact ⟨rfl, rfl⟩
    · unfold State.curCompute
      dsimp only
      split <;> exact ⟨rfl, rfl⟩
  | vlt =>
    simp only [State.leCompute, State.vltCompute]
    split <;> exact ⟨rfl, rfl⟩
  | ftr => exact ⟨rfl, rfl⟩
  | prf =>
    simp only [State.leCompute, State.prfCompute]
    split
    · split <;> exact ⟨rfl, rfl⟩
    · exact ⟨rfl, rfl⟩
  | obs => exact ⟨rfl, rfl⟩
  | gen => exact ⟨rfl, rfl⟩

/-- The words of a set accepted now. -/
def State.leTaken (s : State) (n : LeId) (p : Pipe) (ins : List Word) : List Word :=
  match p with
  | .cur => s.curInputs n ins
  | _ => ins

/-- A set just accepted: its lc, the bank in use, its words, and its right to write the state. -/
structure LeJob.fresh (s : State) (n : LeId) (ins : List Word) (j : LeJob) : Prop where
  lc : j.at_ = s.now
  bank : j.bank = s.fld F.LEn_STAT_BANK n 0
  words : j.ins = ins
  keeps : j.keep = true

theorem State.leSchedule_spec (s : State) (n : LeId) (p : Pipe) :
    State.pipeOnly n p s (s.leSchedule n p) ∧ (s.leSchedule n p).le = s.le ∧ (s.leSchedule n p).regs = s.regs ∧
    (s.leSchedule n p).mx = s.mx := by
  cases p with
  | cur =>
    unfold State.leSchedule
    dsimp only
    split
    · exact ⟨.refl n .cur s, rfl, rfl, rfl⟩
    · exact ⟨s.sched_pipeOnly (.inr rfl) 12, rfl, rfl, rfl⟩
  | vlt => exact ⟨s.sched_pipeOnly (.inr rfl) 8, rfl, rfl, rfl⟩
  | ftr => exact ⟨s.sched_pipeOnly (.inr rfl) 10, rfl, rfl, rfl⟩
  | prf => exact ⟨s.sched_pipeOnly (.inr rfl) 16, rfl, rfl, rfl⟩
  | obs =>
    exact ⟨(s.sched_pipeOnly (p := .obs) (.inr (.inl rfl)) 36).trans (State.sched_pipeOnly _ (p := .obs) (.inr (.inr rfl)) 64), rfl, rfl, rfl⟩
  | gen => exact ⟨.refl n .gen s, rfl, rfl, rfl⟩

/-- The set's place in its pipeline, before its output is scheduled. -/
def State.leTake (s : State) (n : LeId) (p : Pipe) (j : LeJob) : State :=
  let s := s.modPipe n p fun x => { x with free := s.now + s.leSpacing n p, job := some j, held := none }
  let s := match p with
    | .prf => s.modLe n fun e => { e with plan := false }
    | _ => s
  match p with
  | .obs => s
  | _ => s.count F.LEn_SETS_SETS n 0

theorem State.leTake_spec (s : State) (n : LeId) (p : Pipe) (j : LeJob) :
    State.pipeOnly n p s (s.leTake n p j) ∧ (s.leTake n p j).mx = s.mx ∧
    (s.leTake n p j).lePipe n p = ⟨s.now + s.leSpacing n p, some j, none, (s.lePipe n p).last⟩ ∧
    (s.leTake n p j).regs = (if p = .obs then s else s.count F.LEn_SETS_SETS n 0).regs := by
  obtain ⟨u, hu⟩ : ∃ u, u = s.modPipe n p fun x => { x with free := s.now + s.leSpacing n p, job := some j, held := none } := ⟨_, rfl⟩
  have one : State.pipeOnly n p s u := hu ▸ s.modPipe_pipeOnly n p _
  have own : u.lePipe n p = ⟨s.now + s.leSpacing n p, some j, none, (s.lePipe n p).last⟩ := hu ▸ s.lePipe_modPipe_same n p _
  have mx : u.mx = s.mx := hu ▸ rfl
  have regs : (u.count F.LEn_SETS_SETS n 0).regs = (s.count F.LEn_SETS_SETS n 0).regs := hu ▸ rfl
  have counted : ∀ v : State, State.pipeOnly n p v (v.count F.LEn_SETS_SETS n 0) := fun v => v.setReg_pipeOnly n p ..
  have plain : State.pipeOnly n p s (u.count F.LEn_SETS_SETS n 0) ∧ (u.count F.LEn_SETS_SETS n 0).mx = s.mx ∧
      (u.count F.LEn_SETS_SETS n 0).lePipe n p = ⟨s.now + s.leSpacing n p, some j, none, (s.lePipe n p).last⟩ ∧
      (u.count F.LEn_SETS_SETS n 0).regs = (s.count F.LEn_SETS_SETS n 0).regs :=
    ⟨one.trans (counted u), mx, own, regs⟩
  unfold State.leTake
  rw [← hu]
  cases p with
  | cur | vlt | ftr | gen => exact plain
  | prf =>
    obtain ⟨unplanned, pipe⟩ := u.unplan_pipeOnly n .prf
    exact ⟨one.trans (unplanned.trans (counted _)), mx, (show _ from pipe).trans own, regs⟩
  | obs => exact ⟨one, mx, own, by rw [hu]; rfl⟩

/-- The set that `leEnter` computes. -/
def State.leJob (s : State) (n : LeId) (p : Pipe) (ins : List Word) : LeJob :=
  s.leCompute n p ⟨s.now, s.fld F.LEn_STAT_BANK n 0, s.leTaken n p ins, (match p with
    | .prf => s.le[n].plan
    | _ => false), false, none, [], true, none, false⟩

theorem State.leJob_fresh (s : State) (n : LeId) (p : Pipe) (ins : List Word) :
    LeJob.fresh s n (s.leTaken n p ins) (s.leJob n p ins) := by
  obtain ⟨j, hj⟩ : ∃ j : LeJob, j = ⟨s.now, s.fld F.LEn_STAT_BANK n 0, s.leTaken n p ins, (match p with
    | .prf => s.le[n].plan
    | _ => false), false, none, [], true, none, false⟩ := ⟨_, rfl⟩
  obtain ⟨hbank, hins⟩ := s.leCompute_keeps n p j
  obtain ⟨hat, hkeep⟩ := s.leCompute_at n p j
  unfold State.leJob
  rw [← hj]
  exact ⟨hat.trans (hj ▸ rfl), hbank.trans (hj ▸ rfl), hins.trans (hj ▸ rfl), hkeep.trans (hj ▸ rfl)⟩

theorem State.leEnter_eq (s : State) (n : LeId) (p : Pipe) (ins : List Word) :
    s.leEnter n p ins = (s.leTake n p (s.leJob n p ins)).leSchedule n p := by
  cases p <;> rfl

/-- What a set that enters its pipeline does. -/
structure State.leEntered (n : LeId) (p : Pipe) (ins : List Word) (s t : State) : Prop where
  only : State.pipeOnly n p s t
  mx : t.mx = s.mx
  regs : t.regs = (if p = .obs then s else s.count F.LEn_SETS_SETS n 0).regs
  pipe : ∃ j, t.lePipe n p = ⟨s.now + s.leSpacing n p, some j, none, (s.lePipe n p).last⟩ ∧ LeJob.fresh s n (s.leTaken n p ins) j

theorem State.leEnter_entered (s : State) (n : LeId) (p : Pipe) (ins : List Word) : State.leEntered n p ins s (s.leEnter n p ins) := by
  rw [State.leEnter_eq]
  obtain ⟨taken, tmx, tpipe, tregs⟩ := s.leTake_spec n p (s.leJob n p ins)
  obtain ⟨u, hu⟩ : ∃ u, u = s.leTake n p (s.leJob n p ins) := ⟨_, rfl⟩
  rw [← hu] at taken tmx tpipe tregs ⊢
  obtain ⟨scheduled, sle, sregs, smx⟩ := u.leSchedule_spec n p
  exact ⟨taken.trans scheduled, smx.trans tmx, sregs.trans tregs, _, (State.lePipe_of_le u n sle p).trans tpipe, s.leJob_fresh n p ins⟩

theorem State.leEntered.sets {n : LeId} {p : Pipe} {ins : List Word} {s t : State} (h : State.leEntered n p ins s t) (hp : p ≠ .obs) :
    t.fld F.LEn_SETS_SETS n 0 = (s.fld F.LEn_SETS_SETS n 0 + 1) % 2 ^ 32 := by
  rw [State.fld_of_regs (h.regs.trans (by rw [if_neg hp])), State.count, State.fld_setFld_same _ F.LEn_SETS_SETS n 0 _ (by decide)]
  rfl

/-- The end of a set of the voltage loop, the tracker or the profile generator. -/
theorem State.leEnter_vlt (s : State) (n : LeId) (ins : List Word) : (s.now + 8, .voltageLoopOutput n) ∈ (s.leEnter n .vlt ins).cal :=
  State.mem_sched (s := s.leTake n .vlt (s.leJob n .vlt ins)) rfl 8 (.voltageLoopOutput n)
theorem State.leEnter_ftr (s : State) (n : LeId) (ins : List Word) : (s.now + 10, .freqTrackerOutput n) ∈ (s.leEnter n .ftr ins).cal :=
  State.mem_sched (s := s.leTake n .ftr (s.leJob n .ftr ins)) rfl 10 (.freqTrackerOutput n)
theorem State.leEnter_prf (s : State) (n : LeId) (ins : List Word) : (s.now + 16, .profileOutput n) ∈ (s.leEnter n .prf ins).cal :=
  State.mem_sched (s := s.leTake n .prf (s.leJob n .prf ins)) rfl 16 (.profileOutput n)

theorem leSets_ne_leCtrl (n : LeId) : RegName.LEn_CTRL.addr n 0 ≠ RegName.LEn_SETS.addr n 0 := by
  simp only [RegName.addr, RegName.base, RegName.dims]; omega

theorem State.leEnter_cur {s : State} {n : LeId} (h : s.flag F.LEn_CTRL_OBSFEED n 0 = false) (ins : List Word) :
    (s.now + 12, .currentLoopOutput n) ∈ (s.leEnter n .cur ins).cal := by
  rw [State.leEnter_eq]
  obtain ⟨only, -, -, regs⟩ := s.leTake_spec n .cur (s.leJob n .cur ins)
  obtain ⟨u, hu⟩ : ∃ u, u = s.leTake n .cur (s.leJob n .cur ins) := ⟨_, rfl⟩
  rw [← hu] at regs only ⊢
  have feed : u.flag F.LEn_CTRL_OBSFEED n 0 = false := by
    rw [← h, State.flag, State.flag, State.fld_of_regs regs, if_neg (by decide : Pipe.cur ≠ .obs), State.count,
      State.fld_setFld_ne _ _ (leSets_ne_leCtrl n)]
  unfold State.leSchedule
  dsimp only
  rw [if_neg (by simp [feed])]
  exact State.mem_sched only.now 12 _

/-! ## A set is held -/

theorem State.leHold_spec (s : State) (n : LeId) (p : Pipe) (ins : List Word) :
    State.pipeOnly n p s (s.leHold n p ins) ∧ (s.leHold n p ins).mx = s.mx ∧ (s.leHold n p ins).regs = s.regs ∧
    (s.leHold n p ins).lePipe n p = { s.lePipe n p with held := some ins } ∧
    (max s.now (s.lePipe n p).free, Instr.setAccept n p) ∈ (s.leHold n p ins).cal ∧
    ∀ x ∈ s.cal, x.2 ≠ .setAccept n p → x ∈ (s.leHold n p ins).cal := by
  obtain ⟨u, hu⟩ : ∃ u, u = s.modPipe n p fun x => { x with held := some ins } := ⟨_, rfl⟩
  have own : u.lePipe n p = { s.lePipe n p with held := some ins } := hu ▸ s.lePipe_modPipe_same n p _
  have now : u.now = s.now := hu ▸ rfl
  have form : s.leHold n p ins = u.schedAt (max u.now (u.lePipe n p).free) (.setAccept n p) := hu ▸ rfl
  have one : State.pipeOnly n p s u := hu ▸ s.modPipe_pipeOnly n p _
  have mx : u.mx = s.mx := hu ▸ rfl
  have regs : u.regs = s.regs := hu ▸ rfl
  have cal : u.cal = s.cal := hu ▸ rfl
  rw [form]
  refine ⟨one.trans (u.sched_pipeOnly (.inl rfl) _), mx, regs, own, ?_, fun x hx hc => State.mem_cal_sched (cal ▸ hx) hc _⟩
  have due := u.mem_schedAt (t := max u.now (u.lePipe n p).free) (Nat.le_max_left ..) (.setAccept n p)
  rw [now, own] at due ⊢
  exact due

/-! ## A set arrives -/

section
variable {s : State} {n : LeId} {p : Pipe}

theorem State.leArrive_free (job : (s.lePipe n p).job = none) (free : (s.lePipe n p).free ≤ s.now) (held : (s.lePipe n p).held = none)
    (ins : List Word) : s.leArrive n p ins = s.leEnter n p ins := by
  unfold State.leArrive
  rw [if_pos ⟨by rw [job]; rfl, free⟩, held]

theorem State.leArrive_first (job : (s.lePipe n p).job = none) (free : (s.lePipe n p).free ≤ s.now) {old : List Word}
    (held : (s.lePipe n p).held = some old) (ins : List Word) : s.leArrive n p ins = (s.leEnter n p old).leHold n p ins := by
  unfold State.leArrive
  rw [if_pos ⟨by rw [job]; rfl, free⟩, held]

theorem State.leArrive_busy (busy : (s.lePipe n p).job ≠ none ∨ s.now < (s.lePipe n p).free) (ins : List Word) :
    s.leArrive n p ins = (if (s.lePipe n p).held.isSome then s.leOvr n else s).leHold n p ins := by
  unfold State.leArrive
  refine if_neg fun ⟨job, free⟩ => ?_
  obtain hj | hf := busy
  · exact hj (Option.isNone_iff_eq_none.mp job)
  · omega
end

theorem State.leArrive_pipeOnly (s : State) (n : LeId) (p : Pipe) (ins : List Word) : State.pipeOnly n p s (s.leArrive n p ins) := by
  unfold State.leArrive
  dsimp only
  split
  · split
    · exact (s.leEnter_entered n p ins).only
    · exact (s.leEnter_entered n p _).only.trans (State.leHold_spec _ n p ins).1
  · split
    · exact (s.leOvr_pipeOnly n p).trans (State.leHold_spec _ n p ins).1
    · exact (State.leHold_spec _ n p ins).1

/-- A set that finds its pipeline busy is held; one held before it counts as an overrun. -/
theorem State.leArrive_held {s : State} {n : LeId} {p : Pipe} (busy : (s.lePipe n p).job ≠ none ∨ s.now < (s.lePipe n p).free)
    (ins : List Word) :
    let y := s.lePipe n p
    let t := s.leArrive n p ins
    t.lePipe n p = { y with held := some ins } ∧ (max s.now y.free, Instr.setAccept n p) ∈ t.cal ∧
    t.fld F.LEn_ERR_CNT_OVR n 0 = (if y.held = none then s.fld F.LEn_ERR_CNT_OVR n 0
      else min F.LEn_ERR_CNT_OVR.max (s.fld F.LEn_ERR_CNT_OVR n 0 + 1)) ∧
    t.mx.ev = s.mx.ev ++ (if y.held = none then [] else [leSrc n + 16]) := by
  dsimp only
  rw [State.leArrive_busy busy]
  cases held : (s.lePipe n p).held with
  | none =>
    obtain ⟨-, mx, regs, pipe, due, -⟩ := s.leHold_spec n p ins
    simp only [Option.isSome_none, Bool.false_eq_true, if_false, if_true]
    refine ⟨pipe, due, State.fld_of_regs regs .., ?_⟩
    rw [mx, List.append_nil]
  | some old =>
    obtain ⟨-, mx, regs, pipe, due, -⟩ := (s.leOvr n).leHold_spec n p ins
    simp only [Option.isSome_some, if_true, reduceCtorEq, if_false]
    refine ⟨pipe, due, ?_, congrArg MatrixSt.ev mx⟩
    rw [State.fld_of_regs regs]
    exact State.fld_bump_same s F.LEn_ERR_CNT_OVR n 0 (by decide)

/-- A set held before goes in, and the one that arrives is held. -/
theorem State.leArrive_swaps {s : State} {n : LeId} {p : Pipe} (job : (s.lePipe n p).job = none)
    (free : (s.lePipe n p).free ≤ s.now) {old : List Word} (held : (s.lePipe n p).held = some old) (ins : List Word) :
    let t := s.leArrive n p ins
    (∃ j, t.lePipe n p = ⟨s.now + s.leSpacing n p, some j, some ins, (s.lePipe n p).last⟩ ∧ LeJob.fresh s n (s.leTaken n p old) j) ∧
    (∀ x ∈ (s.leEnter n p old).cal, x.2 ≠ .setAccept n p → x ∈ t.cal) ∧
    (s.now + s.leSpacing n p, Instr.setAccept n p) ∈ t.cal ∧ t.mx = s.mx ∧
    (p ≠ .obs → t.fld F.LEn_SETS_SETS n 0 = (s.fld F.LEn_SETS_SETS n 0 + 1) % 2 ^ 32) := by
  dsimp only
  rw [State.leArrive_first job free held]
  have hin := s.leEnter_entered n p old
  obtain ⟨u, hu⟩ : ∃ u, u = s.leEnter n p old := ⟨_, rfl⟩
  rw [← hu] at hin ⊢
  obtain ⟨j, pipe, hj⟩ := hin.pipe
  obtain ⟨-, mx, regs, own, due, kept⟩ := u.leHold_spec n p ins
  refine ⟨⟨j, by rw [own, pipe], hj⟩, kept, ?_, mx.trans hin.mx, fun hp => ?_⟩
  · rw [hin.only.now, pipe] at due
    exact (Nat.max_eq_right (Nat.le_add_right ..)) ▸ due
  · rw [State.fld_of_regs regs, hin.sets hp]

/-! ## Sets of the voltage loop, the tracker and the profile generator -/

/-- The pipelines of which every set computes at once. -/
structure Pipe.simple (n : LeId) (p : Pipe) (d : Nat) (c : Instr) : Prop where
  spacing : ∀ s : State, s.leSpacing n p = d
  taken : ∀ (s : State) ins, s.leTaken n p ins = ins
  ends : ∀ (s : State) ins, (s.now + d, c) ∈ (s.leEnter n p ins).cal
  other : c ≠ .setAccept n p
  counts : p ≠ .obs

theorem Pipe.simple_vlt (n : LeId) : Pipe.simple n .vlt 8 (.voltageLoopOutput n) :=
  ⟨fun _ => rfl, fun _ _ => rfl, fun s => s.leEnter_vlt n, nofun, nofun⟩
theorem Pipe.simple_ftr (n : LeId) : Pipe.simple n .ftr 10 (.freqTrackerOutput n) :=
  ⟨fun _ => rfl, fun _ _ => rfl, fun s => s.leEnter_ftr n, nofun, nofun⟩
theorem Pipe.simple_prf (n : LeId) : Pipe.simple n .prf 16 (.profileOutput n) :=
  ⟨fun _ => rfl, fun _ _ => rfl, fun s => s.leEnter_prf n, nofun, nofun⟩

/-- What the arrival of the set `ins` at a pipeline of spacing `d` does. -/
def State.arrives (n : LeId) (p : Pipe) (ins : List Word) (d : Nat) (c : Instr) (s t : State) : Prop :=
  let y := s.lePipe n p
  (∀ q : Pipe, q.ix ≠ p.ix → t.lePipe n q = s.lePipe n q) ∧
  (∀ m : LeId, m ≠ n → t.le[m] = s.le[m]) ∧ t.mem = s.mem ∧
  (y.job = none → y.free ≤ s.now → ∀ old, y.held = some old →
    (∃ j, t.lePipe n p = ⟨s.now + d, some j, some ins, y.last⟩ ∧ j.at_ = s.now ∧ j.ins = old) ∧
    (s.now + d, c) ∈ t.cal ∧ (s.now + d, Instr.setAccept n p) ∈ t.cal ∧ t.mx.ev = s.mx.ev ∧
    t.fld F.LEn_SETS_SETS n 0 = (s.fld F.LEn_SETS_SETS n 0 + 1) % 2 ^ 32) ∧
  (y.job = none → y.free ≤ s.now → y.held = none →
    (∃ j, t.lePipe n p = ⟨s.now + d, some j, none, y.last⟩ ∧ j.at_ = s.now ∧
      j.bank = s.fld F.LEn_STAT_BANK n 0 ∧ j.ins = ins ∧ j.keep = true) ∧
    (s.now + d, c) ∈ t.cal ∧ t.fld F.LEn_SETS_SETS n 0 = (s.fld F.LEn_SETS_SETS n 0 + 1) % 2 ^ 32) ∧
  (y.job ≠ none ∨ s.now < y.free → t.lePipe n p = { y with held := some ins } ∧
    (max s.now y.free, Instr.setAccept n p) ∈ t.cal ∧
    t.fld F.LEn_ERR_CNT_OVR n 0 = (if y.held = none then s.fld F.LEn_ERR_CNT_OVR n 0
      else min F.LEn_ERR_CNT_OVR.max (s.fld F.LEn_ERR_CNT_OVR n 0 + 1)) ∧
    t.mx.ev = s.mx.ev ++ (if y.held = none then [] else [leSrc n + 16]))

theorem State.leArrive_arrives {n : LeId} {p : Pipe} {d : Nat} {c : Instr} (hp : Pipe.simple n p d c) (s : State) (ins : List Word) :
    State.arrives n p ins d c s (s.leArrive n p ins) := by
  obtain ⟨pipes, engines, mem, -, -, -⟩ := s.leArrive_pipeOnly n p ins
  refine ⟨pipes, engines, mem, fun job free old held => ?_, fun job free held => ?_, fun busy => State.leArrive_held busy ins⟩
  · obtain ⟨⟨j, pipe, hj⟩, kept, due, mx, sets⟩ := State.leArrive_swaps job free held ins
    rw [hp.spacing] at pipe due
    exact ⟨⟨j, pipe, hj.lc, hj.words.trans (hp.taken s old)⟩, kept _ (hp.ends s old) hp.other, due, congrArg MatrixSt.ev mx,
      sets hp.counts⟩
  · have hin := s.leEnter_entered n p ins
    obtain ⟨j, pipe, hj⟩ := hin.pipe
    rw [hp.spacing] at pipe
    rw [State.leArrive_free job free held]
    exact ⟨⟨j, pipe, hj.lc, hj.bank, hj.words.trans (hp.taken s ins), hj.keeps⟩, hp.ends s ins, hin.sets hp.counts⟩

/-- The set's destinations have been taken. -/
def State.leSeen (s : State) (n : LeId) (ks : List Nat) : State :=
  { s with mx := { s.mx with dnew := ks.foldl (fun m k => m.put (leDst n + k) false false) s.mx.dnew } }

theorem State.leForm_accepts {s : State} {n : LeId} (h : s.leAccepts n = true) (ks : List Nat) (take : State → State) :
    s.leForm n ks take = take (s.leSeen n ks) := if_pos h

theorem State.leAccepts_live {s : State} {n : LeId} (h : s.leAccepts n = true) : s.mode.live = true := by
  simp only [State.leAccepts, Bool.and_eq_true] at h
  obtain ⟨⟨⟨run, -⟩, -⟩, -⟩ := h
  revert run
  cases s.mode <;> decide

section
variable {s : State} {n : LeId} (h : s.leAccepts n = true)
include h

theorem execVoltageSet_next (on : s.pipeOn n .vlt = true) : ∃ t, exec (.voltageSet n) s = .next t ∧
    State.arrives n .vlt [s.leIn n 6] 8 (.voltageLoopOutput n) s t := by
  refine ⟨(s.leSeen n [6]).leArrive n .vlt [s.leIn n 6], ?_, (s.leSeen n [6]).leArrive_arrives (Pipe.simple_vlt n) _⟩
  change execVoltageSet n s = _
  rw [execVoltageSet, if_pos (by rw [State.leAccepts_live h, on]; rfl), State.leForm_accepts h]
  rfl

theorem execFreqTrackerSet_next (on : s.pipeOn n .ftr = true) : ∃ t, exec (.freqTrackerSet n) s = .next t ∧
    State.arrives n .ftr [s.leIn n 7, s.leIn n 8] 10 (.freqTrackerOutput n) s t := by
  refine ⟨(s.leSeen n [7, 8]).leArrive n .ftr [s.leIn n 7, s.leIn n 8], ?_, (s.leSeen n [7, 8]).leArrive_arrives (Pipe.simple_ftr n) _⟩
  change execFreqTrackerSet n s = _
  rw [execFreqTrackerSet, if_pos (by rw [State.leAccepts_live h, on]; rfl), State.leForm_accepts h]
  rfl

theorem execProfileTick_next (on : s.pipeOn n .prf = true) : ∃ t, exec (.profileTick n) s = .next t ∧
    State.arrives n .prf [] 16 (.profileOutput n) s t := by
  refine ⟨s.leArrive n .prf [], ?_, s.leArrive_arrives (Pipe.simple_prf n) _⟩
  change execProfileTick n s = _
  rw [execProfileTick, if_pos (by rw [h, on]; rfl)]
end

/-! ## Sets of the current loop -/

theorem SMap.get_put_false (m : SMap Bool) (a b : Nat) : (m.put a false false).get b false = (m.get b false && decide (b ≠ a)) := by
  by_cases hb : b = a
  · rw [hb, SMap.get_put_same]; simp
  · rw [SMap.get_put_ne m _ _ _ hb]; simp [hb]

/-- Destinations taken no longer hold a new value. -/
theorem seen_get (n : LeId) (ks : List Nat) (m : SMap Bool) (k : Nat) :
    (ks.foldl (fun m k => m.put (leDst n + k) false false) m).get (leDst n + k) false = (m.get (leDst n + k) false && decide (k ∉ ks)) := by
  induction ks generalizing m with
  | nil => simp
  | cons a ks ih => rw [List.foldl_cons, ih, SMap.get_put_false]; simp [Bool.and_assoc]

theorem State.curInputs_all (s : State) (n : LeId) :
    s.curInputs n ((List.range 4).map (s.leIn n)) = [s.leIn n 0, s.leIn n 1, s.leIn n 2, s.leIn n 3, s.leIn n 4, s.leIn n 5] := by
  simp [State.curInputs, List.range_succ]

theorem State.curFollow_pipeOnly (s : State) (n : LeId) (b : State) : State.pipeOnly n .obs s (s.curFollow n b) := by
  unfold State.curFollow
  split
  · exact s.leArrive_pipeOnly n .obs _
  · exact .refl n .obs s

/-- What the arrival of the formed set `[x0 … x3]` at the current loop does. -/
def State.arrivesCur (n : LeId) (x : Nat → Word) (s t : State) : Prop :=
  let mark := s.fld F.LEn_INSET_MARK n 0
  let y := s.lePipe n .cur
  (∀ k < 4, t.mx.dnew.get (leDst n + k) false = (s.mx.dnew.get (leDst n + k) false && decide (mark / 2 ^ k % 2 = 0))) ∧
  (y.job = none → y.free ≤ s.now → y.held ≠ none → (t.lePipe n .cur).held = some [x 0, x 1, x 2, x 3] ∧
    ∃ j, (t.lePipe n .cur).job = some j ∧ j.at_ = s.now) ∧
  (y.job = none → y.free ≤ s.now → y.held = none → (∃ j, (t.lePipe n .cur).job = some j ∧ j.at_ = s.now ∧
    j.ins = [x 0, x 1, x 2, x 3, x 4, x 5] ∧ j.bank = s.fld F.LEn_STAT_BANK n 0) ∧
    (s.flag F.LEn_CTRL_OBSFEED n 0 = false → (s.now + 12, Instr.currentLoopOutput n) ∈ t.cal)) ∧
  (y.job ≠ none ∨ s.now < y.free → t.lePipe n .cur = { y with held := some [x 0, x 1, x 2, x 3] })

/-- The marked destinations of the current loop. -/
def State.leMarked (s : State) (n : LeId) : List Nat := (List.range 4).filter fun k => decide (s.fld F.LEn_INSET_MARK n 0 / 2 ^ k % 2 = 1)

theorem State.leSeen_marked (s : State) (n : LeId) {k : Nat} (h : k < 4) :
    (s.leSeen n (s.leMarked n)).mx.dnew.get (leDst n + k) false =
      (s.mx.dnew.get (leDst n + k) false && decide (s.fld F.LEn_INSET_MARK n 0 / 2 ^ k % 2 = 0)) := by
  have hk : (k ∉ s.leMarked n) ↔ s.fld F.LEn_INSET_MARK n 0 / 2 ^ k % 2 = 0 := by
    simp [State.leMarked, h]
  simp only [State.leSeen, seen_get, hk]

theorem State.leArrive_cur {s : State} {n : LeId} (w : State) :
    State.arrivesCur n (s.leIn n) s
      (((s.leSeen n (s.leMarked n)).leArrive n .cur ((List.range 4).map (s.leIn n))).curFollow n w) := by
  obtain ⟨u, hu⟩ : ∃ u, u = s.leSeen n (s.leMarked n) := ⟨_, rfl⟩
  obtain ⟨ins, hins⟩ : ∃ ins, ins = (List.range 4).map (s.leIn n) := ⟨_, rfl⟩
  have four : ins = [s.leIn n 0, s.leIn n 1, s.leIn n 2, s.leIn n 3] := hins
  have inputs : u.leTaken n .cur ins = [s.leIn n 0, s.leIn n 1, s.leIn n 2, s.leIn n 3, s.leIn n 4, s.leIn n 5] := by
    rw [hu, hins]; exact s.curInputs_all n
  have now : u.now = s.now := by rw [hu]; rfl
  have pipe : u.lePipe n .cur = s.lePipe n .cur := by rw [hu]; rfl
  have fld : ∀ f : Fld, u.fld f n 0 = s.fld f n 0 := fun f => by rw [hu]; rfl
  have follow := (u.leArrive n .cur ins).curFollow_pipeOnly n w
  have arrive := u.leArrive_pipeOnly n .cur ins
  have own := follow.pipes .cur (by decide)
  have dnew : ∀ k < 4, u.mx.dnew.get (leDst n + k) false =
      (s.mx.dnew.get (leDst n + k) false && decide (s.fld F.LEn_INSET_MARK n 0 / 2 ^ k % 2 = 0)) := fun k hk => by
    rw [hu]; exact s.leSeen_marked n hk
  rw [← hu, ← hins]
  refine ⟨fun k hk => ?_, fun job free held => ?_, fun job free held => ?_, fun busy => ?_⟩
  · rw [follow.dnew, arrive.dnew, dnew k hk]
  · obtain ⟨old, held⟩ := Option.ne_none_iff_exists'.mp held
    rw [← pipe, ← now] at free
    rw [← pipe] at job held
    obtain ⟨⟨j, hpipe, hj⟩, -⟩ := State.leArrive_swaps job free held ins
    rw [own, hpipe]
    exact ⟨congrArg some four, j, rfl, hj.lc.trans now⟩
  · rw [← pipe, ← now] at free
    rw [← pipe] at job held
    have hin := u.leEnter_entered n .cur ins
    obtain ⟨j, hpipe, hj⟩ := hin.pipe
    rw [own]
    have enters := State.leArrive_free job free held ins
    rw [enters, hpipe]
    refine ⟨⟨j, rfl, hj.lc.trans now, hj.words.trans inputs, hj.bank.trans (fld _)⟩, fun feed => ?_⟩
    have due := State.leEnter_cur (s := u) (n := n) (by rw [State.flag, fld]; exact feed) ins
    rw [now, ← enters] at due
    rw [← enters]
    exact follow.cal _ due (by simp [Pipe.schedules])
  · rw [← pipe, ← now] at busy
    rw [own, (State.leArrive_held busy ins).1, pipe, four]

theorem execCurrentSetFormed_next {s : State} {n : LeId} (h : s.leAccepts n = true) (on : s.pipeOn n .cur = true)
    (mark : s.fld F.LEn_INSET_MARK n 0 ≠ 0) :
    ∃ t, exec (.currentSetFormed n) s = .next t ∧ State.arrivesCur n (s.leIn n) s t := by
  refine ⟨_, ?_, State.leArrive_cur (s.leSeen n (s.leMarked n))⟩
  change execCurrentSetFormed n s = _
  rw [execCurrentSetFormed, if_pos (by rw [State.leAccepts_live h, on]; simpa using mark), State.leForm_accepts h]
  rfl

/-! ## Sets held -/

/-- Held sets of the pipelines `l` are put on the calendar again. -/
def State.leRetry (n : LeId) (s : State) (p : Pipe) : State :=
  if (s.lePipe n p).held.isSome then s.schedAt (max s.now (s.lePipe n p).free) (.setAccept n p) else s

theorem State.leRetry_kept (n : LeId) (l : List Pipe) (s : State) :
    (l.foldl (State.leRetry n) s).le = s.le ∧ (l.foldl (State.leRetry n) s).now = s.now ∧
    ∀ x ∈ s.cal, (∀ p ∈ l, x.2 ≠ .setAccept n p) → x ∈ (l.foldl (State.leRetry n) s).cal := by
  induction l generalizing s with
  | nil => exact ⟨rfl, rfl, fun _ h _ => h⟩
  | cons p l ih =>
    obtain ⟨le, now, cal⟩ := ih (State.leRetry n s p)
    have step : (State.leRetry n s p).le = s.le ∧ (State.leRetry n s p).now = s.now ∧
        ∀ x ∈ s.cal, x.2 ≠ .setAccept n p → x ∈ (State.leRetry n s p).cal := by
      unfold State.leRetry
      split
      · exact ⟨rfl, rfl, fun x hx hc => State.mem_cal_sched hx hc _⟩
      · exact ⟨rfl, rfl, fun _ h _ => h⟩
    exact ⟨le.trans step.1, now.trans step.2.1, fun x hx hn =>
      cal x (step.2.2 x hx (hn p (.head _))) fun q hq => hn q (.tail _ hq)⟩

theorem State.leRetry_due (n : LeId) {l : List Pipe} (hl : l.Nodup) {p : Pipe} (hp : p ∈ l) (s : State) (held : (s.lePipe n p).held ≠ none) :
    (max s.now (s.lePipe n p).free, Instr.setAccept n p) ∈ (l.foldl (State.leRetry n) s).cal := by
  induction l generalizing s with
  | nil => exact nomatch hp
  | cons q l ih =>
    obtain ⟨hq, hl⟩ := List.nodup_cons.mp hl
    obtain rfl | hp := List.mem_cons.mp hp
    · refine (State.leRetry_kept n l (State.leRetry n s p)).2.2 _ ?_ fun r hr e => hq ?_
      · unfold State.leRetry
        rw [if_pos (Option.isSome_iff_ne_none.mpr held)]
        exact s.mem_schedAt (Nat.le_max_left ..) _
      · rw [(Instr.setAccept.inj e).2]; exact hr
    · obtain ⟨le, now, -⟩ := State.leRetry_kept n [q] s
      have pipe := State.lePipe_of_le s n le p
      have due := ih hl hp (State.leRetry n s q) (by rw [show (State.leRetry n s q).lePipe n p = _ from pipe]; exact held)
      rw [show (State.leRetry n s q).lePipe n p = _ from pipe, show (State.leRetry n s q).now = _ from now] at due
      exact due

/-- A held start of the general stage is put on the calendar again. -/
def State.genRetry (s : State) (n : LeId) : State :=
  if s.le[n].gen.held.isSome && !s.le[n].gen.run then s.sched 0 (.setAccept n .gen) else s

theorem State.leResume_eq (s : State) (n : LeId) : s.leResume n = ([Pipe.cur, .vlt, .ftr, .prf, .obs].foldl (State.leRetry n) s).genRetry n := by
  delta State.leResume State.leRetry State.genRetry
  dsimp only

theorem State.genRetry_keeps (s : State) (n : LeId) {p : Pipe} (hp : p ≠ .gen) :
    (s.genRetry n).lePipe n p = s.lePipe n p ∧ ∀ x ∈ s.cal, x.2 = .setAccept n p → x ∈ (s.genRetry n).cal := by
  unfold State.genRetry
  split
  · exact ⟨rfl, fun x hx hc => State.mem_cal_sched hx (by rw [hc]; simpa using hp) 0⟩
  · exact ⟨rfl, fun _ hx _ => hx⟩

theorem State.leResume_due (s : State) (n : LeId) {p : Pipe} (hp : p ≠ .gen) (held : (s.lePipe n p).held ≠ none) :
    (s.leResume n).lePipe n p = s.lePipe n p ∧ (max s.now (s.lePipe n p).free, Instr.setAccept n p) ∈ (s.leResume n).cal := by
  have due := State.leRetry_due n (by decide : [Pipe.cur, .vlt, .ftr, .prf, .obs].Nodup) (Pipe.mem_computed hp) s held
  obtain ⟨le, -, -⟩ := State.leRetry_kept n [Pipe.cur, .vlt, .ftr, .prf, .obs] s
  rw [State.leResume_eq]
  obtain ⟨pipe, cal⟩ := State.genRetry_keeps ([Pipe.cur, .vlt, .ftr, .prf, .obs].foldl (State.leRetry n) s) n hp
  exact ⟨pipe.trans (State.lePipe_of_le s n le p), cal _ due rfl⟩

/-- A write to LEn_CTRL by which the engine accepts sets tries its held sets again. -/
theorem State.leCtrlWrite_retries {s : State} {n : LeId} {p : Pipe} (hp : p ≠ .gen) {v : Word} (h : (s.leCtrlWrite n v).leAccepts n = true)
    {ins : List Word} (held : (s.lePipe n p).held = some ins) :
    ((s.leCtrlWrite n v).lePipe n p).held = some ins ∧ (max s.now (s.lePipe n p).free, Instr.setAccept n p) ∈ (s.leCtrlWrite n v).cal := by
  obtain ⟨u, hu⟩ : ∃ u, u = (if (s.writeReg .LEn_CTRL n 0 v).mode = .loading then s.writeReg .LEn_CTRL n 0 v
    else (s.writeReg .LEn_CTRL n 0 v).setFld F.LEn_CTRL_OBS n 0 (s.fld F.LEn_CTRL_OBS n 0)) := ⟨_, rfl⟩
  have form : s.leCtrlWrite n v = if u.leAccepts n then u.leResume n else u := by rw [hu]; rfl
  have same : u.le = s.le ∧ u.now = s.now := by rw [hu]; split <;> exact ⟨rfl, rfl⟩
  have pipe : u.lePipe n p = s.lePipe n p := State.lePipe_of_le s n same.1 p
  rw [form] at h ⊢
  split at h
  next acc =>
    obtain ⟨kept, due⟩ := u.leResume_due n hp (by rw [pipe, held]; nofun)
    rw [if_pos acc, kept, pipe]
    rw [pipe, same.2] at due
    exact ⟨held, due⟩
  next acc => exact absurd h acc

/-! ## A held set is accepted -/

theorem execSetAccept_disabled {s : State} {n : LeId} (p : Pipe) (h : s.flag F.LEn_CTRL_EN n 0 = false) :
    exec (.setAccept n p) s = .next s := by
  have no : s.leAccepts n = false := by simp [State.leAccepts, h]
  change execSetAccept n p s = _
  cases p with
  | gen => unfold execSetAccept; dsimp only; split <;> simp [no]
  | cur | vlt | ftr | prf | obs => unfold execSetAccept; dsimp only; split <;> simp [no]

theorem execSetAccept_enters {s : State} {n : LeId} {p : Pipe} (hp : p ≠ .gen) (acc : s.leAccepts n = true) {ins : List Word}
    (held : (s.lePipe n p).held = some ins) (job : (s.lePipe n p).job = none) (free : (s.lePipe n p).free ≤ s.now) :
    ∃ t j, exec (.setAccept n p) s = .next t ∧ t.lePipe n p = ⟨s.now + s.leSpacing n p, some j, none, (s.lePipe n p).last⟩ ∧
      j.at_ = s.now ∧ j.ins = s.leTaken n p ins := by
  obtain ⟨u, hu⟩ : ∃ u, u = s.unsched (.setAccept n p) := ⟨_, rfl⟩
  have go : (s.leAccepts n && (s.lePipe n p).job.isNone && decide ((s.lePipe n p).free ≤ s.now)) = true := by simp [acc, job, free]
  obtain ⟨j, pipe, hj⟩ := (u.leEnter_entered n p ins).pipe
  have pipe : (u.leEnter n p ins).lePipe n p = ⟨s.now + s.leSpacing n p, some j, none, (s.lePipe n p).last⟩ := by
    rw [pipe, hu]; cases p <;> rfl
  have lc : j.at_ = s.now := hj.lc.trans (by rw [hu]; rfl)
  have words : j.ins = s.leTaken n p ins := hj.words.trans (by rw [hu]; cases p <;> rfl)
  have enters : exec (.setAccept n p) s = .next (match p with
      | .cur => (u.leEnter n p ins).curFollow n s
      | _ => u.leEnter n p ins) := by
    change execSetAccept n p s = _
    cases p with
    | gen => exact absurd rfl hp
    | cur | vlt | ftr | prf | obs => unfold execSetAccept; dsimp only; rw [held]; dsimp only; rw [if_pos go, hu]
  refine ⟨_, j, enters, ?_, lc, words⟩
  cases p with
  | cur => exact (((u.leEnter n .cur ins).curFollow_pipeOnly n s).pipes .cur (by decide)).trans pipe
  | vlt | ftr | prf | obs => exact pipe
  | gen => exact absurd rfl hp

theorem State.genStart_starts (s : State) (n : LeId) (ws : List Word) :
    (s.genStart n ws).le[n].gen.run = true ∧ (s.genStart n ws).le[n].gen.pc = 0 ∧ (s.genStart n ws).le[n].gen.held = none ∧
    (s.now + 1, Instr.generalBundle n) ∈ (s.genStart n ws).cal := by
  have own : (s.genStart n ws).le[n].gen = _ := congrArg LeSt.gen (s.le_modLe_same n _)
  rw [own]
  exact ⟨rfl, rfl, rfl, State.mem_sched rfl 1 _⟩

/-- Settles O37. -/
theorem loopSets : Obligations.LoopSets := by
  intro s n
  refine ⟨fun p h => execSetAccept_disabled p h, fun p v ins hp h held => State.leCtrlWrite_retries hp h held, fun acc => ?_⟩
  refine ⟨?_, fun on mark => execCurrentSetFormed_next acc on mark, fun p hp ins held job free => ?_, fun ws held run on => ?_⟩
  · intro f hf
    obtain rfl | rfl | rfl : f = _ ∨ f = _ ∨ f = _ := by simpa using hf
    · exact execVoltageSet_next acc
    · exact execFreqTrackerSet_next acc
    · exact execProfileTick_next acc
  · obtain ⟨t, j, next, pipe, lc, words⟩ := execSetAccept_enters hp acc held job free
    exact ⟨t, j, next, pipe, lc, words.trans (by cases p <;> rfl)⟩
  · refine ⟨s.genStart n ws, ?_, s.genStart_starts n ws⟩
    change execSetAccept n .gen s = _
    unfold execSetAccept
    dsimp only
    rw [run, held]
    dsimp only
    rw [if_pos (by rw [acc, on]; rfl)]

end Sys2Proof.Machine
end

