-- ==== Sys2Proof/Proofs/LoopOutputs.lean ====
section
/-! PROOF. Outputs of a loop engine and the state they write, and the motion plan (R186, R192, R194, R201 to R205, R467). -/

namespace Sys2Proof.Machine

/-! ## The motion plan -/

theorem Kin.move_move (k : Kin) (j a b : Rat) : (k.move j a).move j b = k.move j (a + b) := by
  simp only [Kin.move, Kin.mk.injEq]
  exact ⟨by ring, by ring, by ring⟩

/-- A plan is followed without loss: two ticks are one of their total time. -/
theorem Kin.advance_add (gs : List Seg) : ∀ (k : Kin) {a b : Rat}, 0 ≤ a → 0 ≤ b →
    k.advance gs (a + b) = (k.advance gs a).1.advance (k.advance gs a).2 b := by
  induction gs with
  | nil => intro k a b _ _; rfl
  | cons g gs ih =>
    intro k a b ha hb
    by_cases early : a < g.d
    · simp only [Kin.advance, if_pos early]
      by_cases both : a + b < g.d
      · rw [if_pos both, if_pos (by linarith), Kin.move_move, sub_sub]
      · rw [if_neg both, if_neg (by linarith), Kin.move_move, show a + (g.d - a) = g.d by ring, show b - (g.d - a) = a + b - g.d by ring]
    · simp only [Kin.advance, if_neg early, if_neg (by linarith : ¬ a + b < g.d)]
      rw [← ih (k.move g.j g.d) (by linarith : 0 ≤ a - g.d) hb]
      congr 1; ring

/-- Its total time ends a plan. -/
theorem Kin.advance_total (gs : List Seg) : ∀ k : Kin, (∀ g ∈ gs, 0 ≤ g.d) → k.advance gs (gs.map (·.d)).sum = (k.run gs, []) := by
  induction gs with
  | nil => intro k _; rfl
  | cons g gs ih =>
    intro k h
    have rest : 0 ≤ (gs.map (·.d)).sum := List.sum_nonneg fun x hx => by
      obtain ⟨y, hy, rfl⟩ := List.mem_map.mp hx
      exact h y (.tail _ hy)
    simp only [Kin.advance, List.map_cons, List.sum_cons]
    rw [if_neg (by linarith), show g.d + (gs.map (·.d)).sum - g.d = (gs.map (·.d)).sum by ring, ih _ fun x hx => h x (.tail _ hx)]
    rfl

section
variable (lo hi : Option Rat)

theorem pathLeaves_start (k : Kin) (gs : List Seg) (h : k.outside lo hi = true) : pathLeaves lo hi k gs = true := by
  cases gs with
  | nil => exact h
  | cons g gs => rw [pathLeaves, h]; rfl

theorem pathLeaves_phase {k : Kin} {g : Seg} {gs : List Seg} (h : (k.move g.j g.d).outside lo hi = true) : pathLeaves lo hi k (g :: gs) = true := by
  rw [pathLeaves, pathLeaves_start lo hi _ gs h, Bool.or_true]

theorem pathLeaves_turn {k : Kin} {d : Rat} {gs : List Seg} (ha : k.a ≠ 0) (h0 : 0 < -k.v / k.a) (hd : -k.v / k.a < d)
    (h : (k.move 0 (-k.v / k.a)).outside lo hi = true) : pathLeaves lo hi k (⟨0, d⟩ :: gs) = true := by
  have turn : -k.v / k.a ∈ k.turns ⟨0, d⟩ := by
    simp only [Kin.turns, if_true, if_neg ha, List.mem_filter, List.mem_singleton, Bool.and_eq_true, decide_eq_true_eq]
    exact ⟨trivial, h0, hd⟩
  have some_turn : ((k.turns ⟨0, d⟩).any fun t => (k.move 0 t).outside lo hi) = true := List.any_eq_true.mpr ⟨_, turn, h⟩
  rw [pathLeaves, some_turn, Bool.or_true, Bool.true_or]
end

/-! ## Words of the state area -/

section
variable (s : State) (n : LeId)

theorem State.leGet_lePut_same (off : Nat) (w : Word) : (s.lePut n off w).leGet n off = w := State.word_setWord_same ..

theorem State.leGet_lePut_ne {off x : Nat} (w : Word) (h : x + 4 ≤ off ∨ off + 4 ≤ x) : (s.lePut n off w).leGet n x = s.leGet n x :=
  State.word_setWord_ne _ _ (by omega)

/-- Words written elsewhere leave a word of the state area. -/
theorem State.leGet_lePuts_ne {x : Nat} (l : List (Nat × Word)) (h : ∀ e ∈ l, x + 4 ≤ e.1 ∨ e.1 + 4 ≤ x) :
    (l.foldl (fun s e => s.lePut n e.1 e.2) s).leGet n x = s.leGet n x :=
  List.foldlRecOn l _ (motive := fun (t : State) => t.leGet n x = s.leGet n x) rfl fun t ht e he => (t.leGet_lePut_ne n e.2 (h e he)).trans ht

theorem State.lePuts_only_mem (l : List (Nat × Word)) : ∃ mem, l.foldl (fun s e => s.lePut n e.1 e.2) s = { s with mem := mem } := by
  refine List.foldlRecOn l _ (motive := fun (t : State) => ∃ mem, t = { s with mem := mem }) ⟨s.mem, rfl⟩ fun t ht e _ => ?_
  obtain ⟨mem, rfl⟩ := ht
  exact ⟨_, by rw [State.lePut, State.setWord_only_mem]⟩

theorem State.leWrite_only_mem (j : LeJob) : ∃ mem, s.leWrite n j = { s with mem := mem } := by
  unfold State.leWrite
  split
  · exact s.lePuts_only_mem n j.wr
  · exact ⟨s.mem, rfl⟩

theorem State.leWrite_kept {j : LeJob} (h : j.keep = true) : s.leWrite n j = j.wr.foldl (fun s x => s.lePut n x.1 x.2) s := if_pos h

theorem State.setWord_unsched (s : State) (c : Instr) (a : Nat) (w : Word) : (s.unsched c).setWord a w = (s.setWord a w).unsched c := rfl

theorem State.leWrite_unsched (c : Instr) (j : LeJob) : (s.unsched c).leWrite n j = (s.leWrite n j).unsched c := by
  unfold State.leWrite
  split
  · generalize j.wr = l
    exact List.foldl_hom (fun t : State => t.unsched c) fun t e => t.setWord_unsched c _ e.2
  · rfl

theorem State.leGet_of_mem {t : State} (h : t.mem = s.mem) (off : Nat) : t.leGet n off = s.leGet n off := State.word_of_mem h _
end

/-! ## The set leaves its pipeline -/

/-- What a set that leaves pipeline `p` with the words `out` does. -/
structure State.leEnds (n : LeId) (p : Pipe) (out : Option (List Word)) (s t : State) : Prop where
  form : ∃ e cal, t = { s with le := vset s.le n e, cal := cal } ∧ e.drv = s.le[n].drv ∧ e.gen = s.le[n].gen ∧ e.prev = s.le[n].prev
  job : (t.lePipe n p).job = none
  held : (t.lePipe n p).held = (s.lePipe n p).held
  last : (t.lePipe n p).last = out.getD (s.lePipe n p).last
  cal : ∀ x ∈ s.cal, x.2 ≠ .setAccept n p → x ∈ t.cal

theorem State.leDone_ends {s : State} {n : LeId} {p : Pipe} {j : LeJob} (h : (s.lePipe n p).job = some j) :
    State.leEnds n p j.out s (s.leDone n p) := by
  obtain ⟨free, hfree⟩ : ∃ free : Nat, free = if (decide (p = .cur) && s.flag F.LEn_CTRL_OBSFEED n 0) = true then (s.lePipe n p).free else s.now :=
    ⟨_, rfl⟩
  obtain ⟨u, hu⟩ : ∃ u, u = s.modPipe n p fun x =>
    { x with job := none, free := if decide (p = .cur) && s.flag F.LEn_CTRL_OBSFEED n 0 then x.free else s.now,
             last := (x.job.bind (·.out)).getD x.last } := ⟨_, rfl⟩
  have form : s.leDone n p = if (u.lePipe n p).held.isSome then u.schedAt (max u.now (u.lePipe n p).free) (.setAccept n p) else u := by
    rw [hu]; rfl
  have own : u.lePipe n p = ⟨free, none, (s.lePipe n p).held, j.out.getD (s.lePipe n p).last⟩ := by
    rw [hu, State.lePipe_modPipe_same, hfree, h]; rfl
  have plain : State.leEnds n p j.out s u :=
    ⟨⟨_, s.cal, hu, rfl, rfl, rfl⟩, by rw [own], by rw [own], by rw [own], fun x hx _ => by rw [hu]; exact hx⟩
  rw [form]
  split
  · obtain ⟨⟨e, cal, eq, drv, gen, prev⟩, job, held, last, kept⟩ := plain
    exact ⟨⟨e, _, by rw [State.schedAt, State.sched, eq], drv, gen, prev⟩, job, held, last, fun x hx hc =>
      State.mem_cal_sched (kept x hx hc) hc _⟩
  · exact plain

section
variable {s t : State} {n : LeId} {p : Pipe} {out : Option (List Word)} (h : State.leEnds n p out s t)
include h

theorem State.leEnds.le_ne {m : LeId} (hm : m ≠ n) : t.le[m] = s.le[m] := by
  obtain ⟨e, cal, rfl, -⟩ := h.form
  exact vset_getElem_ne _ _ hm.symm

theorem State.leEnds.own : t.le[n].drv = s.le[n].drv ∧ t.le[n].gen = s.le[n].gen ∧ t.le[n].prev = s.le[n].prev := by
  obtain ⟨e, cal, rfl, drv, gen, prev⟩ := h.form
  rw [show (vset s.le n e)[n] = e from vset_getElem_same _ _ _]
  exact ⟨drv, gen, prev⟩

theorem State.leEnds.rest : t.mem = s.mem ∧ t.regs = s.regs ∧ t.mx = s.mx ∧ t.inbox = s.inbox ∧ t.fresh = s.fresh := by
  obtain ⟨e, cal, rfl, -⟩ := h.form
  exact ⟨rfl, rfl, rfl, rfl, rfl⟩
end

/-! ## Outputs of the current and the voltage loop -/

/-- What the presentation of a set's words leaves. -/
structure State.presents (n : LeId) (s t : State) : Prop where
  pipes : ∀ p, t.lePipe n p = s.lePipe n p
  engines : ∀ m : LeId, m ≠ n → t.le[m] = s.le[m]
  mem : t.mem = s.mem

theorem State.modLe_presents (s : State) (n : LeId) (f : LeSt → LeSt) (h : (f s.le[n]).pipes = s.le[n].pipes) :
    State.presents n s (s.modLe n f) :=
  ⟨fun p => by unfold State.lePipe; rw [State.le_modLe_same, h], fun m hm => s.le_modLe_ne n f hm, rfl⟩

theorem State.presents.trans {n : LeId} {s t u : State} (h : State.presents n s t) (g : State.presents n t u) : State.presents n s u :=
  ⟨fun p => (g.pipes p).trans (h.pipes p), fun m hm => (g.engines m hm).trans (h.engines m hm), g.mem.trans h.mem⟩

theorem State.presents.refl (n : LeId) (s : State) : State.presents n s s := ⟨fun _ => rfl, fun _ _ => rfl, rfl⟩

theorem State.leDrive_spec (s : State) (n : LeId) (d k : Nat) (w : Word) :
    State.presents n s (s.leDrive n d k w) ∧ (s.leDrive n d k w).le[n].drv = s.le[n].drv ++ [(s.now + d, leSrc n + k, w)] ∧
    ∃ le, s.leDrive n d k w = { s with le := le } :=
  ⟨s.modLe_presents n _ rfl, congrArg LeSt.drv (s.le_modLe_same n _), _, rfl⟩

theorem State.leDrives_spec (s : State) (n : LeId) (l : List (Word × Nat)) :
    let t := l.foldl (fun s x => s.leDrive n 1 x.2 x.1) s
    State.presents n s t ∧ t.le[n].drv = s.le[n].drv ++ l.map (fun w => (s.now + 1, leSrc n + w.2, w.1)) ∧ ∃ le, t = { s with le := le } := by
  induction l generalizing s with
  | nil => exact ⟨.refl n s, (List.append_nil _).symm, s.le, rfl⟩
  | cons x l ih =>
    obtain ⟨one, drv, le, form⟩ := s.leDrive_spec n 1 x.2 x.1
    obtain ⟨all, drvs, le', forms⟩ := ih (s.leDrive n 1 x.2 x.1)
    refine ⟨one.trans all, ?_, le', ?_⟩
    · rw [List.foldl_cons, drvs, drv, List.append_assoc]; rfl
    · rw [List.foldl_cons, forms, form]

/-- Words of the selected loop are driven: one lc later each, and the strobe two. -/
theorem State.lePresent_driven {s : State} {n : LeId} {src : Nat} (run : s.mode.run = true) (placed : s.lePlaced n src = false)
    (ws : List Word) :
    State.presents n s (s.lePresent n src (some ws)) ∧ (s.lePresent n src (some ws)).regs = s.regs ∧ (s.lePresent n src (some ws)).mx = s.mx ∧
    (s.lePresent n src (some ws)).le[n].drv = s.le[n].drv ++ (if s.fld F.LEn_CTRL_OUTSRC n 0 = src
      then (ws.zipIdx.map fun w => (s.now + 1, leSrc n + w.2, w.1)) ++ [(s.now + 2, leSrc n + 4, s.reg .LEn_STROBE n 0)] else []) := by
  unfold State.lePresent
  rw [if_neg (by simp [run])]
  dsimp only
  rw [if_neg (by simp [placed])]
  split
  · obtain ⟨all, drvs, le, form⟩ := s.leDrives_spec n ws.zipIdx
    obtain ⟨u, hu⟩ : ∃ u, u = ws.zipIdx.foldl (fun s x => s.leDrive n 1 x.2 x.1) s := ⟨_, rfl⟩
    rw [← hu] at all drvs form ⊢
    obtain ⟨one, drv, le', form'⟩ := u.leDrive_spec n 2 4 (u.reg .LEn_STROBE n 0)
    refine ⟨all.trans one, by rw [form', form], by rw [form', form], ?_⟩
    rw [drv, drvs, List.append_assoc, form]
    rfl
  · exact ⟨.refl n s, rfl, rfl, (List.append_nil _).symm⟩

/-- A withheld set counts as NaN. -/
theorem State.lePresent_none {s : State} {n : LeId} (src : Nat) (run : s.mode.run = true) :
    s.lePresent n src none = ((s.bump F.LEn_ERR_CNT_NAN n 0).raiseFld F.LEn_STAT_NAN n 0 1).raiseEv (leSrc n + 17) := by
  unfold State.lePresent
  rw [if_neg (by simp [run])]

/-- The placed general stage takes a pipeline's words. -/
theorem State.lePresent_placed {s : State} {n : LeId} {src : Nat} (run : s.mode.run = true) (placed : s.lePlaced n src = true)
    (on : s.pipeOn n .gen = true) (ws : List Word) : s.lePresent n src (some ws) =
      (s.modLe n fun e => { e with gen := { e.gen with feed := some ws } }).emit (.generalStageGo n) := by
  unfold State.lePresent
  rw [if_neg (by simp [run])]
  dsimp only
  rw [if_pos (by simp [placed, on])]

theorem State.lePresent_presents (s : State) (n : LeId) (src : Nat) (out : Option (List Word)) :
    State.presents n s (s.lePresent n src out) := by
  unfold State.lePresent
  split
  · exact .refl n s
  · cases out with
    | none => exact ⟨fun _ => rfl, fun _ _ => rfl, rfl⟩
    | some ws =>
      dsimp only
      split
      · have one := s.modLe_presents n (fun e => { e with gen := { e.gen with feed := some ws } }) rfl
        exact ⟨one.pipes, one.engines, one.mem⟩
      · split
        · obtain ⟨all, -⟩ := s.leDrives_spec n ws.zipIdx
          exact all.trans (State.leDrive_spec _ n 2 4 _).1
        · exact .refl n s

theorem leStat_ne_leErrCnt (n : LeId) : RegName.LEn_ERR_CNT.addr n 0 ≠ RegName.LEn_STAT.addr n 0 := errCnt_ne_leStat n n

/-- What a set's words, presented from a state `u` that differs from `s` in memory and calendar alone, and the end of the set do. -/
def State.loopEnded (n : LeId) (p : Pipe) (src : Nat) (j : LeJob) (s t : State) : Prop :=
  ((t.lePipe n p).job = none ∧ (t.lePipe n p).held = (s.lePipe n p).held) ∧ t.mem = (s.leWrite n j).mem ∧
  (t.lePipe n p).last = j.out.getD (s.lePipe n p).last ∧
  (∀ m : LeId, m ≠ n → t.le[m] = s.le[m]) ∧
  (∀ ws, j.out = some ws → s.lePlaced n src = false → t.regs = s.regs ∧ t.mx = s.mx ∧
    t.le[n].drv = s.le[n].drv ++ (if s.fld F.LEn_CTRL_OUTSRC n 0 = src
      then (ws.zipIdx.map fun w => (s.now + 1, leSrc n + w.2, w.1)) ++ [(s.now + 2, leSrc n + 4, s.reg .LEn_STROBE n 0)] else [])) ∧
  (j.out = none → t.flag F.LEn_STAT_NAN n 0 = true ∧ t.mx.ev = s.mx.ev ++ [leSrc n + 17] ∧ t.le[n].drv = s.le[n].drv ∧
    t.fld F.LEn_ERR_CNT_NAN n 0 = min F.LEn_ERR_CNT_NAN.max (s.fld F.LEn_ERR_CNT_NAN n 0 + 1)) ∧
  (∀ ws, j.out = some ws → s.lePlaced n src = true → s.pipeOn n .gen = true → t.le[n].gen.feed = some ws ∧
    Instr.generalStageGo n ∈ t.inbox)

theorem State.loop_ends {s : State} {n : LeId} {p : Pipe} {j : LeJob} (run : s.mode.run = true) (hj : (s.lePipe n p).job = some j)
    (c : Instr) (src : Nat) :
    State.loopEnded n p src j s ((((s.unsched c).leWrite n j).lePresent n src j.out).leDone n p) := by
  rw [State.leWrite_unsched]
  obtain ⟨u, hu⟩ : ∃ u, u = (s.leWrite n j).unsched c := ⟨_, rfl⟩
  have mem : u.mem = (s.leWrite n j).mem := by rw [hu]; rfl
  obtain ⟨m, form⟩ := s.leWrite_only_mem n j
  have form : ∃ cal, u = { s with mem := m, cal := cal } := ⟨_, by rw [hu, form]; rfl⟩
  rw [← hu]
  obtain ⟨cal, form⟩ := form
  have pipe : u.lePipe n p = s.lePipe n p := by rw [form]; rfl
  have urun : u.mode.run = true := by rw [form]; exact run
  have shown := u.lePresent_presents n src j.out
  have ends := State.leDone_ends (s := u.lePresent n src j.out) (n := n) (p := p) (j := j) (by rw [shown.pipes, pipe, hj])
  obtain ⟨drv, gen, -⟩ := ends.own
  obtain ⟨emem, regs, mx, inbox, -⟩ := ends.rest
  refine ⟨⟨ends.job, ?_⟩, emem.trans (shown.mem.trans mem), ?_, fun q hq => ?_, fun ws hout placed => ?_, fun hout => ?_,
    fun ws hout placed on => ?_⟩
  · rw [ends.held, shown.pipes, pipe]
  · rw [ends.last, shown.pipes, pipe]
  · rw [ends.le_ne hq, shown.engines q hq, form]
  · rw [drv, regs, mx, hout]
    obtain ⟨-, pregs, pmx, pdrv⟩ := State.lePresent_driven urun (by rw [form]; exact placed) (n := n) (src := src) ws
    rw [pregs, pmx, pdrv, form]
    exact ⟨rfl, rfl, rfl⟩
  · rw [drv, State.flag, State.fld_of_regs regs, State.fld_of_regs regs, mx, hout, State.lePresent_none src urun, form]
    obtain ⟨v, hv⟩ : ∃ v : State, v = { s with mem := m, cal := cal } := ⟨_, rfl⟩
    have nan : ((v.bump F.LEn_ERR_CNT_NAN n 0).raiseFld F.LEn_STAT_NAN n 0 1).fld F.LEn_STAT_NAN n 0 = 1 :=
      State.fld_raiseFld_same _ F.LEn_STAT_NAN n 0 1 (by decide)
    have cnt : ((v.bump F.LEn_ERR_CNT_NAN n 0).raiseFld F.LEn_STAT_NAN n 0 1).fld F.LEn_ERR_CNT_NAN n 0 =
        min F.LEn_ERR_CNT_NAN.max (v.fld F.LEn_ERR_CNT_NAN n 0 + 1) := by
      rw [State.fld_raiseFld_ne _ _ (leStat_ne_leErrCnt n), State.fld_bump_same v F.LEn_ERR_CNT_NAN n 0 (by decide)]
    rw [← hv]
    refine ⟨by rw [show ∀ w : State, ∀ k, (w.raiseEv k).fld F.LEn_STAT_NAN n 0 = w.fld F.LEn_STAT_NAN n 0 from fun _ _ => rfl, nan]; rfl,
      by rw [hv]; rfl, by rw [hv]; rfl, ?_⟩
    refine (show _ from cnt).trans ?_
    rw [hv]; rfl
  · rw [gen, inbox, hout, State.lePresent_placed urun (by rw [form]; exact placed) (by rw [form]; exact on)]
    exact ⟨congrArg (fun e : LeSt => e.gen.feed) (u.le_modLe_same n _), List.mem_append_right _ (.head _)⟩

theorem Mode.live_of_run {m : Mode} (h : m.run = true) : m.live = true := by
  revert h
  cases m <;> decide

theorem execCurrentLoopOutput_next {s : State} {n : LeId} {j : LeJob} (run : s.mode.run = true) (hj : (s.lePipe n .cur).job = some j)
    (ready : j.ready = true) : ∃ t, exec (.currentLoopOutput n) s = .next t ∧ State.loopEnded n .cur 0 j s t := by
  refine ⟨_, ?_, State.loop_ends run hj (.currentLoopOutput n) 0⟩
  change execCurrentLoopOutput n s = _
  rw [execCurrentLoopOutput, hj]
  exact if_pos (by rw [ready, State.leLive, Mode.live_of_run run]; rfl)

theorem execVoltageLoopOutput_next {s : State} {n : LeId} {j : LeJob} (run : s.mode.run = true) (hj : (s.lePipe n .vlt).job = some j) :
    ∃ t, exec (.voltageLoopOutput n) s = .next t ∧ State.loopEnded n .vlt 1 j s t := by
  refine ⟨_, ?_, State.loop_ends run hj (.voltageLoopOutput n) 1⟩
  change execVoltageLoopOutput n s = _
  rw [execVoltageLoopOutput, hj]
  exact if_pos (Mode.live_of_run run)

/-! ## Words that a tracker or profile set drives -/

theorem State.word_raiseData_same (s : State) (k : Nat) (w : Word) : (s.raiseData k w).mx.word.get k 0 = w :=
  SMap.get_put_same s.mx.word k w 0

theorem State.word_raiseData_ne (s : State) {k q : Nat} (w : Word) (h : q ≠ k) : (s.raiseData k w).mx.word.get q 0 = s.mx.word.get q 0 :=
  SMap.get_put_ne s.mx.word w 0 0 h

/-- What a set shows of its words leaves the pipelines, the other engines, memory and the rest of the engine's state. -/
structure State.shows (s t : State) : Prop where
  le : t.le = s.le
  mem : t.mem = s.mem

/-- What the tracker drives. -/
def State.ftrShow (s : State) (n : LeId) (theta freq k : Word) : State :=
  let s := (s.raiseData (leSrc n + 5) theta).raiseData (leSrc n + 6) freq
  if k = 0 then s.setLv (leSrc n + 7) false else if 16 ≤ k.toNat then s.setLv (leSrc n + 7) true else s

theorem State.ftrShow_spec (s : State) (n : LeId) (theta freq k : Word) :
    State.shows s (s.ftrShow n theta freq k) ∧ (s.ftrShow n theta freq k).mx.word.get (leSrc n + 5) 0 = theta ∧
    (s.ftrShow n theta freq k).mx.word.get (leSrc n + 6) 0 = freq ∧
    (s.ftrShow n theta freq k).mx.lv.get (leSrc n + 7) false =
      (if k = 0 then false else if 16 ≤ k.toNat then true else s.mx.lv.get (leSrc n + 7) false) := by
  obtain ⟨u, hu⟩ : ∃ u, u = (s.raiseData (leSrc n + 5) theta).raiseData (leSrc n + 6) freq := ⟨_, rfl⟩
  have lv : u.mx.lv = s.mx.lv := by rw [hu]; rfl
  have same : State.shows s u := by rw [hu]; exact ⟨rfl, rfl⟩
  have first : u.mx.word.get (leSrc n + 5) 0 = theta := by
    rw [hu, State.word_raiseData_ne _ _ (by omega), State.word_raiseData_same]
  have second : u.mx.word.get (leSrc n + 6) 0 = freq := by rw [hu, State.word_raiseData_same]
  have leveled : ∀ b, State.shows s (u.setLv (leSrc n + 7) b) := fun b => ⟨same.le, same.mem⟩
  unfold State.ftrShow
  rw [← hu]
  dsimp only
  split
  · exact ⟨leveled false, first, second, State.lv_setLv_same u _ _⟩
  · split
    · exact ⟨leveled true, first, second, State.lv_setLv_same u _ _⟩
    · exact ⟨same, first, second, by rw [lv]⟩

theorem State.leEnds.done {s t : State} {n : LeId} {p : Pipe} {out : Option (List Word)} (h : State.leEnds n p out s t) {u : State}
    (hp : s.lePipe n p = u.lePipe n p) : (t.lePipe n p).job = none ∧ (t.lePipe n p).held = (u.lePipe n p).held :=
  ⟨h.job, by rw [h.held, hp]⟩

/-- The state words of a tracker set. -/
theorem State.ftrWords (s : State) (n : LeId) {j : LeJob} (keep : j.keep = true) (fint theta freq k : Word) :
    let t := s.leWrite n { j with wr := [(0x14, fint), (0x18, theta), (0x1C, freq), (0x20, k)] }
    t.leGet n 0x18 = theta ∧ t.leGet n 0x1C = freq ∧ t.leGet n 0x20 = k := by
  dsimp only
  rw [State.leWrite_kept s n (by exact keep)]
  simp only [List.foldl_cons, List.foldl_nil]
  refine ⟨?_, ?_, State.leGet_lePut_same ..⟩
  · rw [State.leGet_lePut_ne _ n _ (by decide), State.leGet_lePut_ne _ n _ (by decide), State.leGet_lePut_same]
  · rw [State.leGet_lePut_ne _ n _ (by decide), State.leGet_lePut_same]

theorem execFreqTrackerOutput_next {s : State} {n : LeId} {j : LeJob} (run : s.mode.run = true) (keep : j.keep = true)
    (hj : (s.lePipe n .ftr).job = some j) {k : Word} (hk : j.out = some [k]) :
    let r := Config.tracker s.fresh
    let f := fMin (fMax r.2.1 (s.param n j.bank 0x38C)) (s.param n j.bank 0x390)
    ∃ t, exec (.freqTrackerOutput n) s = .next t ∧ ((t.lePipe n .ftr).job = none ∧ (t.lePipe n .ftr).held = (s.lePipe n .ftr).held) ∧
      t.leGet n 0x18 = r.1 ∧ t.leGet n 0x1C = f ∧
      t.leGet n 0x20 = k ∧ t.mx.word.get (leSrc n + 5) 0 = r.1 ∧ t.mx.word.get (leSrc n + 6) 0 = f ∧
      t.mx.lv.get (leSrc n + 7) false = (if k = 0 then false else if 16 ≤ k.toNat then true
        else s.mx.lv.get (leSrc n + 7) false) := by
  obtain ⟨theta, hθ⟩ : ∃ w, w = (Config.tracker s.fresh).1 := ⟨_, rfl⟩
  obtain ⟨fint, hi⟩ : ∃ w, w = (Config.tracker s.fresh).2.2 := ⟨_, rfl⟩
  obtain ⟨freq, hf⟩ : ∃ w, w = fMin (fMax (Config.tracker s.fresh).2.1 (s.param n j.bank 0x38C)) (s.param n j.bank 0x390) := ⟨_, rfl⟩
  dsimp only
  rw [← hθ, ← hf]
  obtain ⟨u, hu⟩ : ∃ u, u = ((s.draw).unsched (.freqTrackerOutput n)).leWrite n
      { j with wr := [(0x14, fint), (0x18, theta), (0x1C, freq), (0x20, k)] } := ⟨_, rfl⟩
  have words := State.ftrWords ((s.draw).unsched (.freqTrackerOutput n)) n keep fint theta freq k
  obtain ⟨mem, form⟩ := State.leWrite_only_mem ((s.draw).unsched (.freqTrackerOutput n)) n
    { j with wr := [(0x14, fint), (0x18, theta), (0x1C, freq), (0x20, k)] }
  rw [← hu] at form
  dsimp only at words
  rw [← hu] at words
  have pipe : u.lePipe n .ftr = s.lePipe n .ftr := by rw [form]; rfl
  obtain ⟨same, first, second, level⟩ := u.ftrShow_spec n theta freq k
  have shown : (u.ftrShow n theta freq k).lePipe n .ftr = s.lePipe n .ftr := (State.lePipe_of_le u n same.le _).trans pipe
  have ends := State.leDone_ends (s := u.ftrShow n theta freq k) (n := n) (p := .ftr) (j := j) (by rw [shown, hj])
  obtain ⟨emem, -, emx, -⟩ := ends.rest
  have got : ∀ off, ((u.ftrShow n theta freq k).leDone n .ftr).leGet n off = u.leGet n off := fun off =>
    State.leGet_of_mem u n (emem.trans same.mem) off
  refine ⟨(u.ftrShow n theta freq k).leDone n .ftr, ?_, ends.done shown, ?_⟩
  · change execFreqTrackerOutput n s = _
    unfold execFreqTrackerOutput
    rw [hj]
    dsimp only
    have urun : u.mode.run = true := by rw [form]; exact run
    simp only [show ∀ o, ((s.draw).unsched (.freqTrackerOutput n)).param n j.bank o = s.param n j.bank o from fun _ => rfl]
    rw [if_pos (show s.leLive = true from Mode.live_of_run run), show (j.out.getD []).getD 0 0 = k by rw [hk]; rfl, ← hf, ← hθ, ← hi]
    rw [← hu, if_pos urun]
    rfl
  · rw [got, got, got, emx, first, second, level]
    refine ⟨words.1, words.2.1, words.2.2, rfl, rfl, ?_⟩
    rw [form]; rfl

/-- What a profile set drives. -/
def State.prfShow (s : State) (n : LeId) (w : List Word) (past : Bool) : State :=
  let s := w.zipIdx.foldl (fun s x => s.raiseData (leSrc n + 8 + x.2) x.1) s
  if past then (s.raiseFld F.LEn_STAT_SLOVER n 0 1).raiseEv (leSrc n + 11) else s

theorem State.prfShow_spec (s : State) (n : LeId) (pos vel acc : Word) (past : Bool) :
    let t := s.prfShow n [pos, vel, acc] past
    State.shows s t ∧ t.mx.word.get (leSrc n + 8) 0 = pos ∧ t.mx.word.get (leSrc n + 9) 0 = vel ∧ t.mx.word.get (leSrc n + 10) 0 = acc ∧
    (past = true → t.flag F.LEn_STAT_SLOVER n 0 = true ∧ t.mx.ev = s.mx.ev ++ [leSrc n + 11]) ∧
    (past = false → t.regs = s.regs ∧ t.mx.ev = s.mx.ev) := by
  obtain ⟨u, hu⟩ : ∃ u, u = ((s.raiseData (leSrc n + 8) pos).raiseData (leSrc n + 8 + 1) vel).raiseData (leSrc n + 8 + 2) acc := ⟨_, rfl⟩
  have form : s.prfShow n [pos, vel, acc] past =
      if past then (u.raiseFld F.LEn_STAT_SLOVER n 0 1).raiseEv (leSrc n + 11) else u := by rw [hu]; rfl
  have same : State.shows s u := by rw [hu]; exact ⟨rfl, rfl⟩
  have regs : u.regs = s.regs := by rw [hu]; rfl
  have ev : u.mx.ev = s.mx.ev := by rw [hu]; rfl
  have first : u.mx.word.get (leSrc n + 8) 0 = pos := by
    rw [hu, State.word_raiseData_ne _ _ (by omega), State.word_raiseData_ne _ _ (by omega), State.word_raiseData_same]
  have second : u.mx.word.get (leSrc n + 8 + 1) 0 = vel := by rw [hu, State.word_raiseData_ne _ _ (by omega), State.word_raiseData_same]
  have third : u.mx.word.get (leSrc n + 8 + 2) 0 = acc := by rw [hu, State.word_raiseData_same]
  dsimp only
  rw [form]
  cases past with
  | false =>
    rw [if_neg (by decide)]
    exact ⟨same, first, second, third, nofun, fun _ => ⟨regs, ev⟩⟩
  | true =>
    rw [if_pos rfl]
    have raised : (u.raiseFld F.LEn_STAT_SLOVER n 0 1).fld F.LEn_STAT_SLOVER n 0 = 1 :=
      State.fld_raiseFld_same u F.LEn_STAT_SLOVER n 0 1 (by decide)
    refine ⟨⟨same.le, same.mem⟩, first, second, third, fun _ => ⟨?_, congrArg (· ++ [leSrc n + 11]) ev⟩, nofun⟩
    rw [State.flag, show ∀ w : State, ∀ k, (w.raiseEv k).fld F.LEn_STAT_SLOVER n 0 = w.fld F.LEn_STAT_SLOVER n 0 from fun _ _ => rfl, raised]
    rfl

/-- The state words of a profile set. -/
theorem State.prfState (s : State) (n : LeId) {j : LeJob} (keep : j.keep = true) (ix : Nat) (pos vel acc : Word) :
    let t := s.leWrite n { j with
      wr := [0x40, 0x44, 0x48].zip [pos, vel, acc] ++ (List.range 45).map fun k => (0x4C + 4 * k, Config.modelWord ix k) }
    t.leGet n 0x40 = pos ∧ t.leGet n 0x44 = vel ∧ t.leGet n 0x48 = acc := by
  dsimp only
  rw [State.leWrite_kept s n (by exact keep)]
  have apart : ∀ off, off ≤ 0x48 → ∀ e ∈ (List.range 45).map fun k => (0x4C + 4 * k, Config.modelWord ix k), off + 4 ≤ e.1 ∨ e.1 + 4 ≤ off := by
    intro off hoff e he
    obtain ⟨k, -, rfl⟩ := List.mem_map.mp he
    left; dsimp only; omega
  dsimp only
  rw [List.foldl_append]
  refine ⟨?_, ?_, ?_⟩ <;> rw [State.leGet_lePuts_ne _ n _ (apart _ (by decide))] <;>
    simp only [List.zip_cons_cons, List.zip_nil_right, List.foldl_cons, List.foldl_nil]
  · rw [State.leGet_lePut_ne _ n _ (by decide), State.leGet_lePut_ne _ n _ (by decide), State.leGet_lePut_same]
  · rw [State.leGet_lePut_ne _ n _ (by decide), State.leGet_lePut_same]
  · rw [State.leGet_lePut_same]

/-- The plan that the profile generator follows from here. -/
def State.prfKeep (s : State) (n : LeId) (j : LeJob) : State := if j.keep then s.modLe n fun e => { e with prof := j.prof } else s

theorem State.prfKeep_spec (s : State) (n : LeId) (j : LeJob) : (∀ p, (s.prfKeep n j).lePipe n p = s.lePipe n p) ∧
    ∃ le, s.prfKeep n j = { s with le := le } := by
  unfold State.prfKeep
  split
  · exact ⟨(s.modLe_presents n (fun e => { e with prof := j.prof }) rfl).pipes, _, rfl⟩
  · exact ⟨fun _ => rfl, s.le, rfl⟩

theorem execProfileOutput_next {s : State} {n : LeId} {j : LeJob} (run : s.mode.run = true) (keep : j.keep = true)
    (hj : (s.lePipe n .prf).job = some j) {pos vel acc : Word} {past : Bool} (hw : s.prfWords n j = ([pos, vel, acc], past)) :
    ∃ t, exec (.profileOutput n) s = .next t ∧ ((t.lePipe n .prf).job = none ∧ (t.lePipe n .prf).held = (s.lePipe n .prf).held) ∧
      t.leGet n 0x40 = pos ∧ t.leGet n 0x44 = vel ∧ t.leGet n 0x48 = acc ∧
      t.mx.word.get (leSrc n + 8) 0 = pos ∧ t.mx.word.get (leSrc n + 9) 0 = vel ∧ t.mx.word.get (leSrc n + 10) 0 = acc ∧
      (past = true → t.flag F.LEn_STAT_SLOVER n 0 = true ∧ t.mx.ev = s.mx.ev ++ [leSrc n + 11]) ∧
      (past = false → t.regs = s.regs ∧ t.mx.ev = s.mx.ev) := by
  obtain ⟨j', hj'⟩ : ∃ j' : LeJob, j' = { j with
    wr := [0x40, 0x44, 0x48].zip [pos, vel, acc] ++ (List.range 45).map fun k => (0x4C + 4 * k, Config.modelWord s.fresh k) } := ⟨_, rfl⟩
  obtain ⟨u, hu⟩ : ∃ u, u = ((s.draw).unsched (.profileOutput n)).leWrite n j' := ⟨_, rfl⟩
  have words := State.prfState ((s.draw).unsched (.profileOutput n)) n keep s.fresh pos vel acc
  obtain ⟨mem, form⟩ := State.leWrite_only_mem ((s.draw).unsched (.profileOutput n)) n j'
  dsimp only at words
  rw [← hj', ← hu] at words
  rw [← hu] at form
  obtain ⟨kpipe, le, kform⟩ := u.prfKeep_spec n j
  obtain ⟨v, hv⟩ : ∃ v, v = u.prfKeep n j := ⟨_, rfl⟩
  rw [← hv] at kpipe kform
  have vmem : v.mem = u.mem := by rw [kform]
  have vregs : v.regs = s.regs := by rw [kform, form]; rfl
  have vev : v.mx.ev = s.mx.ev := by rw [kform, form]; rfl
  have vrun : v.mode.run = true := by rw [kform, form]; exact run
  have vpipe : v.lePipe n .prf = s.lePipe n .prf := (kpipe .prf).trans (by rw [form]; rfl)
  obtain ⟨same, first, second, third, beyond, within⟩ := v.prfShow_spec n pos vel acc past
  obtain ⟨w, hw'⟩ : ∃ w, w = v.prfShow n [pos, vel, acc] past := ⟨_, rfl⟩
  rw [← hw'] at same first second third beyond within
  have shown : w.lePipe n .prf = s.lePipe n .prf := (State.lePipe_of_le v n same.le _).trans vpipe
  have ends := State.leDone_ends (s := w) (n := n) (p := .prf) (j := j) (by rw [shown, hj])
  obtain ⟨emem, eregs, emx, -⟩ := ends.rest
  have got : ∀ off, (w.leDone n .prf).leGet n off = u.leGet n off := fun off => State.leGet_of_mem u n ((emem.trans same.mem).trans vmem) off
  refine ⟨w.leDone n .prf, ?_, ends.done shown, ?_⟩
  · change execProfileOutput n s = _
    unfold execProfileOutput
    rw [hj]
    dsimp only
    rw [if_pos (show s.leLive = true from Mode.live_of_run run), hw]
    dsimp only
    rw [← hj', ← hu, ← State.prfKeep, ← hv, if_pos vrun, hw']
    rfl
  · rw [got, got, got, emx, first, second, third, State.flag, State.fld_of_regs eregs, eregs]
    refine ⟨words.1, words.2.1, words.2.2, rfl, rfl, rfl, fun h => ?_, fun h => ?_⟩
    · rw [(beyond h).2, vev]
      exact ⟨(beyond h).1, rfl⟩
    · rw [(within h).1, (within h).2, vregs, vev]
      exact ⟨rfl, rfl⟩

/-! ## The tracker's lock test and the voltage loop's limits -/

theorem vltStep_cases (kp e inc i lo hi : Word) :
    let r := vltStep kp e inc i lo hi
    let o := fAdd (fMul kp e) (fAdd i inc)
    (fLt hi o = false → fLt o lo = false → r = (o, fAdd i inc)) ∧ (fLt hi o = true → r = (hi, if fLt 0 inc then i else fAdd i inc)) ∧
    (fLt hi o = false → fLt o lo = true → r = (lo, if fLt inc 0 then i else fAdd i inc)) := by
  dsimp only
  unfold vltStep
  dsimp only
  refine ⟨fun h l => ?_, fun h => ?_, fun h l => ?_⟩
  · rw [h, l]; rfl
  · rw [h]; rfl
  · rw [h, l]; rfl

theorem State.prfWords_of {s : State} {n : LeId} {j : LeJob} {pos vel acc : Word} {past : Bool}
    (h : j.out = some [pos, vel, acc] ∧ past = j.past ∨
        j.out = none ∧ (let r := Config.profile s.fresh
          pos = r.1 ∧ vel = fLimit r.2.1 (s.param n j.bank 0x200) ∧ acc = fLimit r.2.2.1 (s.param n j.bank 0x204) ∧
            past = (j.plan && r.2.2.2))) : s.prfWords n j = ([pos, vel, acc], past) := by
  unfold State.prfWords
  obtain ⟨out, rfl⟩ | ⟨out, rfl, rfl, rfl, rfl⟩ := h
  · rw [out]
  · rw [out]

/-- Settles O38. -/
theorem loopOutputs : Obligations.LoopOutputs := by
  intro s n j run keep
  refine ⟨?_, ?_, ?_, fun pos vel acc past hw hj => execProfileOutput_next run keep hj (State.prfWords_of hw),
    fun k gs a b h ha hb => ⟨Kin.advance_add gs k ha hb, Kin.advance_total gs k h⟩, fun lo hi k gs =>
      ⟨pathLeaves_start lo hi k gs, fun g => pathLeaves_phase lo hi, fun d ha h0 hd => pathLeaves_turn lo hi ha h0 hd⟩, vltStep_cases⟩
  · intro f hf hj ready
    obtain rfl | rfl : f = _ ∨ f = _ := by simpa using hf
    · exact execCurrentLoopOutput_next run hj ready
    · exact execVoltageLoopOutput_next run hj
  · intro hj r f k hk
    exact execFreqTrackerOutput_next run keep hj hk
  · intro va vb vq k
    change some [BitVec.ofNat 32 (if _ then _ else _)] = _
    split <;> rfl

end Sys2Proof.Machine
end

