-- ==== Sys2Proof/Proofs/CoastAndGeneral.lean ====
section
/-! PROOF. Observer, coast-hold and general stage of a loop engine (R195 to R200, R206 to R208). -/

namespace Sys2Proof.Machine

/-! ## The observer's angle -/

section
variable {s t : State} (h : t.mem = s.mem) (n : LeId)
include h

theorem State.param_of_mem (b off : Nat) : t.param n b off = s.param n b off := State.word_of_mem h _

theorem State.leSin_of_mem (w : Word) : t.leSin n w = s.leSin n w := by simp only [State.leSin, State.word_of_mem h]

theorem State.leCos_of_mem (w : Word) : t.leCos n w = s.leCos n w := State.leSin_of_mem h n _

theorem State.leCoasts_of_mem : t.leCoasts n = s.leCoasts n := by rw [State.leCoasts, State.leGet_of_mem s n h, State.leCoasts]

/-- A current-loop set is computed from memory. -/
theorem State.curCompute_of_mem (j : LeJob) (a : Option Word) : t.curCompute n j a = s.curCompute n j a := by
  delta State.curCompute
  simp -zeta only [State.param_of_mem h, State.leSin_of_mem h, State.leCos_of_mem h, State.leCoasts_of_mem h, State.leGet_of_mem s n h]
end

/-- The observer's set takes its results. -/
def State.obsTake (s : State) (n : LeId) (j : LeJob) : State :=
  (((s.draw).unsched (.observerAngle n)).modPipe n .obs fun x => { x with job := some j }).modLe n fun x => { x with prev := j.at_ }

/-- An observer-fed current loop takes an angle. -/
def State.curFeed (s : State) (n : LeId) (use : Word) : State :=
  match (s.lePipe n .cur).job with
  | some c =>
    if s.flag F.LEn_CTRL_OBSFEED n 0 && !c.ready then
      (s.modPipe n .cur fun x => { x with job := some (s.curCompute n c (some use)) }).sched 9 (.currentLoopOutput n)
    else s
  | none => s

theorem State.obsTake_spec (s : State) (n : LeId) (j : LeJob) :
    ((s.obsTake n j).lePipe n .obs).job = some j ∧ (s.obsTake n j).lePipe n .cur = s.lePipe n .cur ∧ (s.obsTake n j).le[n].prev = j.at_ ∧
    (s.obsTake n j).fresh = s.fresh + 1 ∧ (s.obsTake n j).mem = s.mem ∧ (s.obsTake n j).regs = s.regs ∧ (s.obsTake n j).now = s.now := by
  obtain ⟨u, hu⟩ : ∃ u, u = (s.draw).unsched (.observerAngle n) := ⟨_, rfl⟩
  obtain ⟨v, hv⟩ : ∃ v, v = u.modPipe n .obs fun x => { x with job := some j } := ⟨_, rfl⟩
  have kept := (v.modLe_presents n (fun x => { x with prev := j.at_ }) rfl).pipes
  unfold State.obsTake
  rw [← hu, ← hv]
  refine ⟨?_, ?_, congrArg LeSt.prev (v.le_modLe_same n _), by rw [hv, hu]; rfl, by rw [hv, hu]; rfl, by rw [hv, hu]; rfl, by rw [hv, hu]; rfl⟩
  · rw [kept, hv, State.lePipe_modPipe_same]
  · rw [kept, hv, State.lePipe_modPipe_ne _ _ _ (by decide), hu]; rfl

theorem State.curFeed_spec (s : State) (n : LeId) (use : Word) :
    (s.curFeed n use).lePipe n .obs = s.lePipe n .obs ∧ (s.curFeed n use).le[n].prev = s.le[n].prev ∧ (s.curFeed n use).fresh = s.fresh := by
  unfold State.curFeed
  split
  · split
    · refine ⟨s.lePipe_modPipe_ne n (p := .cur) (q := .obs) _ (by decide), ?_, rfl⟩
      exact (congrArg LeSt.prev (s.le_modLe_same n _)).trans rfl
    · exact ⟨rfl, rfl, rfl⟩
  · exact ⟨rfl, rfl, rfl⟩

theorem State.curFeed_fed {s : State} {n : LeId} {c : LeJob} (hc : (s.lePipe n .cur).job = some c)
    (feed : s.flag F.LEn_CTRL_OBSFEED n 0 = true) (wait : c.ready = false) (use : Word) :
    ((s.curFeed n use).lePipe n .cur).job = some (s.curCompute n c (some use)) ∧
    (s.now + 9, Instr.currentLoopOutput n) ∈ (s.curFeed n use).cal := by
  unfold State.curFeed
  rw [hc]
  dsimp only
  rw [if_pos (by rw [feed, wait]; rfl)]
  exact ⟨congrArg LePipe.job (s.lePipe_modPipe_same n .cur _), State.mem_sched rfl 9 _⟩

theorem observerAngle_feeds {s : State} {n : LeId} {j : LeJob} (hj : (s.lePipe n .obs).job = some j) (out : j.out = none) :
    let o := Config.observer s.fresh
    ∃ t j', exec (.observerAngle n) s = .next t ∧
      (t.lePipe n .obs).job = some j' ∧ j'.ready = true ∧ j'.out = some [o.1, o.2.1, o.2.2.1, o.2.2.2] ∧ t.le[n].prev = j.at_ ∧
      t.fresh = s.fresh + 1 ∧
      (∀ c, (s.lePipe n .cur).job = some c → s.flag F.LEn_CTRL_OBSFEED n 0 = true → c.ready = false → s.leCoasts n = false →
        (t.lePipe n .cur).job = some (s.curCompute n c (some o.1)) ∧ (s.now + 9, Instr.currentLoopOutput n) ∈ t.cal) := by
  dsimp only
  rcases hobs : Config.observer s.fresh with ⟨ang, fr, m, e⟩
  rcases hca : ((s.draw).unsched (.observerAngle n)).coastStep n j ang with ⟨ca, done⟩
  obtain ⟨wr, hwr⟩ : ∃ wr : List (Nat × Word), wr = if s.leCoasts n then [(0x100, ca)] else [] := ⟨_, rfl⟩
  obtain ⟨j', hj'⟩ : ∃ j' : LeJob, j' = { j with ready := true, plan := done, out := some [ang, fr, m, e], wr := wr } := ⟨_, rfl⟩
  obtain ⟨use, huse⟩ : ∃ use, use = if s.leCoasts n && !done then ca else ang := ⟨_, rfl⟩
  have lc : j'.at_ = j.at_ := by rw [hj']
  obtain ⟨obs, cur, prev, fresh, mem, regs, now⟩ := s.obsTake_spec n j'
  have next : exec (.observerAngle n) s = .next ((s.obsTake n j').curFeed n use) := by
    change execObserverAngle n s = _
    unfold execObserverAngle
    rw [hj]
    dsimp only
    rw [if_pos (by rw [out]; simp), hobs]
    dsimp only
    rw [hca]
    dsimp only
    rw [show ((s.draw).unsched (.observerAngle n)).leCoasts n = s.leCoasts n from rfl, ← hwr, ← hj', ← huse, ← lc, ← State.obsTake]
    unfold State.curFeed
    cases ((s.obsTake n j').lePipe n .cur).job with
    | none => rfl
    | some c =>
      dsimp only
      split <;> rfl
  obtain ⟨fobs, fprev, ffresh⟩ := (s.obsTake n j').curFeed_spec n use
  refine ⟨_, j', next, by rw [fobs, obs], by rw [hj'], by rw [hj'], by rw [fprev, prev, lc], by rw [ffresh, fresh],
    fun c hc feed wait coast => ?_⟩
  have fed := State.curFeed_fed (s := s.obsTake n j') (n := n) (c := c) (by rw [cur, hc])
    (by rw [State.flag, State.fld_of_regs regs]; exact feed) wait use
  rw [State.curCompute_of_mem mem, now] at fed
  have same : use = ang := by rw [huse, coast]; rfl
  rw [same] at fed ⊢
  exact fed

/-! ## The observer's confidence and coast-hold -/

/-- Coast-hold's state leaves the pipelines, the words shown and the confidence. -/
structure State.coasts (n : LeId) (s t : State) : Prop where
  pipes : ∀ p, t.lePipe n p = s.lePipe n p
  word : t.mx.word = s.mx.word
  conf : t.reg .LEn_OBS_CONF n 0 = s.reg .LEn_OBS_CONF n 0

theorem State.coasts.refl (n : LeId) (s : State) : State.coasts n s s := ⟨fun _ => rfl, rfl, rfl⟩

theorem State.coasts.trans {n : LeId} {s t u : State} (h : State.coasts n s t) (g : State.coasts n t u) : State.coasts n s u :=
  ⟨fun p => (g.pipes p).trans (h.pipes p), g.word.trans h.word, g.conf.trans h.conf⟩

section
variable (s : State) (n : LeId)

theorem State.lePut_coasts (off : Nat) (w : Word) : State.coasts n s (s.lePut n off w) := by
  obtain ⟨mem, h⟩ : ∃ mem, s.lePut n off w = { s with mem := mem } := ⟨_, s.setWord_only_mem _ w⟩
  rw [h]; exact ⟨fun _ => rfl, rfl, rfl⟩

theorem State.leWrite_coasts (j : LeJob) : State.coasts n s (s.leWrite n j) := by
  obtain ⟨mem, h⟩ := s.leWrite_only_mem n j
  rw [h]; exact ⟨fun _ => rfl, rfl, rfl⟩

theorem State.modCoast_coasts (c : Option Nat) : State.coasts n s (s.modLe n fun e => { e with coast := c }) :=
  ⟨(s.modLe_presents n (fun e => { e with coast := c }) rfl).pipes, rfl, rfl⟩

theorem State.coastRun_coasts (k : Nat) : State.coasts n s (s.coastRun n k) := by
  have one := s.modCoast_coasts n (some (s.now - k))
  unfold State.coastRun
  dsimp only
  split <;> exact one.trans ⟨fun _ => rfl, rfl, rfl⟩

theorem leCoastLc_ne_leObsConf (n : LeId) : RegName.LEn_OBS_CONF.addr n 0 ≠ RegName.LEn_COAST_LC.addr n 0 := by
  simp only [RegName.addr, RegName.base, RegName.dims]; omega

theorem leStat_ne_leObsConf (n : LeId) : RegName.LEn_OBS_CONF.addr n 0 ≠ RegName.LEn_STAT.addr n 0 := by
  simp only [RegName.addr, RegName.base, RegName.dims]; omega

theorem State.coastStop_coasts : State.coasts n s (s.coastStop n) := by
  refine State.coasts.trans (t := (s.setReg .LEn_COAST_LC n 0 (BitVec.ofNat 32 (s.coastLc n))).unsched (.coastEscalate n)) ?_
    (State.modCoast_coasts _ n none)
  exact ⟨fun _ => rfl, rfl, State.reg_setReg_ne _ _ (leCoastLc_ne_leObsConf n)⟩

theorem State.leEscalate_coasts : State.coasts n s (s.leEscalate n) :=
  ⟨fun _ => rfl, rfl, State.reg_setReg_ne _ _ (leStat_ne_leObsConf n)⟩

theorem State.leGet_draw (off : Nat) : s.draw.leGet n off = s.leGet n off := State.leGet_of_mem s n rfl off

theorem State.draw_coasts : State.coasts n s s.draw := ⟨fun _ => rfl, rfl, rfl⟩

theorem State.raiseEv_coasts (k : Nat) : State.coasts n s (s.raiseEv k) := ⟨fun _ => rfl, rfl, rfl⟩

theorem State.setLv_coasts (k : Nat) (b : Bool) : State.coasts n s (s.setLv k b) := ⟨fun _ => rfl, rfl, rfl⟩

theorem State.coastOver_coasts : State.coasts n s (s.coastOver n) := by
  unfold State.coastOver
  dsimp only
  have put := s.lePut_coasts n 0x110 0
  split
  · have stop := (put.trans (State.setLv_coasts _ n (leSrc n + 13) false)).trans (State.coastStop_coasts _ n)
    split
    · exact stop.trans (State.leEscalate_coasts _ n)
    · exact stop
  · exact put.trans (State.coastStop_coasts _ n)
end

/-- A set's state words, and its low count. -/
def State.coastCounted (s : State) (n : LeId) (j : LeJob) (lows : Nat) : State := (s.leWrite n j).lePut n 0x10C (BitVec.ofNat 32 lows)

/-- Entry into coast-hold. -/
def State.coastEntered (s : State) (n : LeId) : State :=
  let s := (((s.lePut n 0x100 (Config.coastStart s.fresh)).lePut n 0x108 0).lePut n 0x110 1).draw
  if s.mode.run then ((s.coastRun n 0).setLv (leSrc n + 13) true).raiseEv (leSrc n + 14) else s

theorem State.coastEntered_coasts (s : State) (n : LeId) : State.coasts n s (s.coastEntered n) := by
  have put := ((s.lePut_coasts n 0x100 (Config.coastStart s.fresh)).trans (State.lePut_coasts _ n 0x108 0)).trans
    (State.lePut_coasts _ n 0x110 1)
  unfold State.coastEntered
  dsimp only
  split
  · exact (put.trans (State.draw_coasts _ n)).trans ((State.coastRun_coasts _ n 0).trans
      ((State.setLv_coasts _ n _ _).trans (State.raiseEv_coasts _ n _)))
  · exact put.trans (State.draw_coasts _ n)

theorem State.coastUpdate_coasts (s : State) (n : LeId) (j : LeJob) (c : Word) : State.coasts n s (s.coastUpdate n j c) := by
  unfold State.coastUpdate
  extract_lets low hi lows his lim flags coast recov freq u v w
  have counted : State.coasts n s w := by
    have one : State.coasts n s v := (s.leWrite_coasts n j).trans (State.lePut_coasts _ n _ _)
    change State.coasts n s (if _ then _ else _)
    split
    · exact one.trans (State.lePut_coasts _ n _ _)
    · exact one
  have put : ∀ off x, State.coasts n s (w.lePut n off x) := fun off x => counted.trans (State.lePut_coasts _ n _ _)
  split
  · split
    · exact counted.trans (w.coastEntered_coasts n)
    · exact put _ _
  · split
    · split
      · exact (put _ _).trans (State.lePut_coasts _ n _ _)
      · split
        · exact (put _ _).trans (State.coastOver_coasts _ n)
        · exact put _ _
    · split
      · exact (put _ _).trans (State.lePut_coasts _ n _ _)
      · exact put _ _

/-- A low set out of coast-hold: with N of them in a row coast-hold begins. -/
theorem State.coastUpdate_low {s : State} {n : LeId} {j : LeJob} {c : Word} (flags : s.leGet n 0x110 = 0)
    (low : fLt c (s.param n j.bank 0x100) = true) : ∃ his, s.coastUpdate n j c =
      if s.fld F.LEn_OBS_CFG_N n 0 ≤ (s.leGet n 0x10C).toNat + 1 then (s.coastCounted n j ((s.leGet n 0x10C).toNat + 1)).coastEntered n
      else (s.coastCounted n j ((s.leGet n 0x10C).toNat + 1)).lePut n 0x108 his := by
  unfold State.coastUpdate
  extract_lets lo hi lows his lim fl coast recov freq u v w
  have hlow : lo = true := low
  have hlows : lows = (s.leGet n 0x10C).toNat + 1 := if_pos hlow
  have hcoast : coast = false := by change (s.leGet n 0x110).getLsbD 0 = false; rw [flags]; rfl
  have hw : w = s.coastCounted n j ((s.leGet n 0x10C).toNat + 1) := by
    rw [← hlows]; exact if_neg (by rw [hlow]; exact nofun)
  refine ⟨BitVec.ofNat 32 his, ?_⟩
  rw [if_pos (by rw [hcoast]; rfl), hlow, hlows, ← hw]
  simp only [Bool.true_and, decide_eq_true_eq]
  rfl

theorem State.coastEntered_spec {s : State} {n : LeId} (run : s.mode.run = true) :
    (s.coastEntered n).leGet n 0x110 = 1 ∧ (s.coastEntered n).mx.lv.get (leSrc n + 13) false = true ∧
    (s.coastEntered n).mx.ev = s.mx.ev ++ [leSrc n + 14] ∧
    (s.now + (s.reg .LEn_OBS_REACQ n 0).toNat, Instr.coastEscalate n) ∈ (s.coastEntered n).cal := by
  obtain ⟨v, hv⟩ : ∃ v, v = (s.lePut n 0x100 (Config.coastStart s.fresh)).lePut n 0x108 0 := ⟨_, rfl⟩
  obtain ⟨u, hu⟩ : ∃ u, u = (v.lePut n 0x110 1).draw := ⟨_, rfl⟩
  have flags : u.leGet n 0x110 = 1 := by
    rw [hu, State.leGet_draw, State.leGet_lePut_same]
  have form : ∃ mem, u = { s with mem := mem, fresh := s.fresh + 1 } := by
    obtain ⟨mem, h⟩ := State.lePuts_only_mem s n [(0x100, Config.coastStart s.fresh), (0x108, 0), (0x110, 1)]
    simp only [List.foldl_cons, List.foldl_nil] at h
    exact ⟨mem, by rw [hu, hv, h]; rfl⟩
  obtain ⟨mem, form⟩ := form
  have urun : u.mode.run = true := by rw [form]; exact run
  have enter : s.coastEntered n = ((u.coastRun n 0).setLv (leSrc n + 13) true).raiseEv (leSrc n + 14) := by
    unfold State.coastEntered
    rw [← hv, ← hu]
    exact if_pos urun
  have runs : u.coastRun n 0 = (u.modLe n fun e => { e with coast := some (u.now - 0) }).sched ((u.reg .LEn_OBS_REACQ n 0).toNat - 0)
      (.coastEscalate n) := if_pos (.inr rfl)
  rw [enter]
  refine ⟨?_, State.lv_setLv_same (u.coastRun n 0) _ true, ?_, ?_⟩
  · rw [← flags, runs]; rfl
  · rw [runs, form]; rfl
  · have due := State.mem_sched (s := u.modLe n fun e => { e with coast := some (u.now - 0) }) (t := s.now) (by rw [form]; rfl)
      ((u.reg .LEn_OBS_REACQ n 0).toNat - 0) (.coastEscalate n)
    rw [← runs, Nat.sub_zero, show u.reg .LEn_OBS_REACQ n 0 = s.reg .LEn_OBS_REACQ n 0 by rw [form]; rfl] at due
    exact due

/-- The observer's set as it ends: its confidence is shown. -/
def State.confShown (s : State) (n : LeId) (c : Word) : State :=
  let s := (s.unsched (.observerConfidence n)).setReg .LEn_OBS_CONF n 0 c
  (if s.mode.run then s.raiseData (leSrc n + 12) c else s).draw

theorem State.confShown_spec {s : State} {n : LeId} (c : Word) (run : s.mode.run = true) :
    (s.confShown n c).reg .LEn_OBS_CONF n 0 = c ∧ (s.confShown n c).mx.word.get (leSrc n + 12) 0 = c ∧
    (∀ p, (s.confShown n c).lePipe n p = s.lePipe n p) ∧ (s.confShown n c).mem = s.mem ∧ (s.confShown n c).mx.ev = s.mx.ev ∧
    (s.confShown n c).now = s.now ∧ (s.confShown n c).mode.run = true ∧
    ∀ q : RegName, q.addr n 0 ≠ RegName.LEn_OBS_CONF.addr n 0 → (s.confShown n c).reg q n 0 = s.reg q n 0 := by
  obtain ⟨u, hu⟩ : ∃ u, u = (s.unsched (.observerConfidence n)).setReg .LEn_OBS_CONF n 0 c := ⟨_, rfl⟩
  have regs : ∀ q : RegName, ∀ i, q.addr i 0 ≠ RegName.LEn_OBS_CONF.addr n 0 → u.reg q i 0 = s.reg q i 0 := fun q i hq => by
    rw [hu, State.reg_setReg_ne _ _ hq]; rfl
  have mode : u.mode = s.mode := State.mode_congr (regs _ 0 (by simp only [RegName.addr, RegName.base, RegName.dims]; omega))
    (by rw [hu]; rfl) (by rw [hu]; rfl)
  have form : s.confShown n c = (u.raiseData (leSrc n + 12) c).draw := by
    unfold State.confShown
    rw [← hu]
    dsimp only
    rw [if_pos (by rw [mode]; exact run)]
  rw [form]
  refine ⟨?_, State.word_raiseData_same u _ c, fun p => by rw [hu]; rfl, by rw [hu]; rfl, by rw [hu]; rfl, by rw [hu]; rfl, ?_,
    fun q hq => regs q n hq⟩
  · rw [hu]; exact State.reg_setReg_same ..
  · exact (congrArg Mode.run mode).trans run

theorem observerConfidence_shows {s : State} {n : LeId} (run : s.mode.run = true) {j : LeJob} {ang fr m e : Word}
    (hj : (s.lePipe n .obs).job = some j) (out : j.out = some [ang, fr, m, e]) (keep : j.keep = true) :
    let c := leConfidence (s.param n j.bank 0x34) m e
    ∃ t, exec (.observerConfidence n) s = .next t ∧ t.reg .LEn_OBS_CONF n 0 = c ∧ t.mx.word.get (leSrc n + 12) 0 = c ∧
      (t.lePipe n .obs).job = none ∧
      (s.leGet n 0x110 = 0 → j.wr = [] → fLt c (s.param n j.bank 0x100) = true →
        (s.fld F.LEn_OBS_CFG_N n 0 ≤ (s.leGet n 0x10C).toNat + 1 → t.leGet n 0x110 = 1 ∧
          t.mx.lv.get (leSrc n + 13) false = true ∧ t.mx.ev = s.mx.ev ++ [leSrc n + 14] ∧
          (s.now + (s.reg .LEn_OBS_REACQ n 0).toNat, Instr.coastEscalate n) ∈ t.cal) ∧
        ((s.leGet n 0x10C).toNat + 1 < s.fld F.LEn_OBS_CFG_N n 0 → t.leGet n 0x110 = 0 ∧ t.mx.ev = s.mx.ev ∧
          t.leGet n 0x10C = s.leGet n 0x10C + 1)) := by
  intro c
  obtain ⟨u, hu⟩ : ∃ u, u = s.confShown n c := ⟨_, rfl⟩
  obtain ⟨conf, word, pipes, mem, ev, now, urun, regs⟩ := State.confShown_spec (n := n) c run
  rw [← hu] at conf word pipes mem ev now urun regs
  obtain ⟨j', hj'⟩ : ∃ j' : LeJob, j' = { j with
    wr := j.wr ++ (List.range 128).map fun k => (0x200 + 4 * k, Config.modelWord s.fresh k) } := ⟨_, rfl⟩
  have coasts := u.coastUpdate_coasts n j' c
  have pipe : (u.coastUpdate n j' c).lePipe n .obs = s.lePipe n .obs := (coasts.pipes .obs).trans (pipes .obs)
  have ends := State.leDone_ends (s := u.coastUpdate n j' c) (n := n) (p := .obs) (j := j) (by rw [pipe, hj])
  obtain ⟨emem, eregs, emx, -⟩ := ends.rest
  have next : exec (.observerConfidence n) s = .next ((u.coastUpdate n j' c).leDone n .obs) := by
    change execObserverConfidence n s = _
    unfold execObserverConfidence
    rw [hj]
    dsimp only
    rw [out]
    dsimp only
    rw [if_pos (show s.leLive = true from Mode.live_of_run run), if_pos keep,
      show leConfidence (s.param n j.bank 0x34) ([ang, fr, m, e].getD 2 0) ([ang, fr, m, e].getD 3 0) = c from rfl, hj', hu, State.confShown]
    obtain ⟨v, hv⟩ : ∃ v, v = (s.unsched (.observerConfidence n)).setReg .LEn_OBS_CONF n 0 c := ⟨_, rfl⟩
    have fresh : (if v.mode.run = true then v.raiseData (leSrc n + 12) c else v).fresh = s.fresh := by
      rw [hv]; split <;> rfl
    rw [← hv, fresh, out]
  refine ⟨_, next, ?_, by rw [emx, coasts.word, word], ends.job, fun flags wr low => ?_⟩
  · rw [State.reg, eregs]; exact coasts.conf.trans conf
  obtain ⟨his, form⟩ := State.coastUpdate_low (s := u) (n := n) (j := j') (c := c) (by rw [State.leGet_of_mem s n mem, flags])
    (by rw [State.param_of_mem mem, show j'.bank = j.bank by rw [hj']]; exact low)
  rw [show u.fld F.LEn_OBS_CFG_N n 0 = s.fld F.LEn_OBS_CFG_N n 0 by
    rw [State.fld, show F.LEn_OBS_CFG_N.reg = .LEn_OBS_CFG from rfl,
      regs .LEn_OBS_CFG (by simp only [RegName.addr, RegName.base, RegName.dims]; omega)]; rfl, State.leGet_of_mem s n mem] at form
  obtain ⟨v, hv⟩ : ∃ v, v = u.coastCounted n j' ((s.leGet n 0x10C).toNat + 1) := ⟨_, rfl⟩
  rw [← hv] at form
  have vform : ∃ mem, v = { u with mem := mem } := by
    obtain ⟨mem, h⟩ := u.leWrite_only_mem n j'
    exact ⟨_, by rw [hv, State.coastCounted, State.lePut, State.setWord_only_mem, h]⟩
  have lows : v.leGet n 0x10C = s.leGet n 0x10C + 1 := by
    rw [hv, State.coastCounted, State.leGet_lePut_same, BitVec.ofNat_add, BitVec.ofNat_toNat]; simp
  have flagged : v.leGet n 0x110 = 0 := by
    rw [hv, State.coastCounted, State.leGet_lePut_ne _ n _ (by decide), State.leWrite_kept _ n (by rw [hj']; exact keep),
      State.leGet_lePuts_ne, State.leGet_of_mem s n mem, flags]
    intro x hx
    rw [hj', wr] at hx
    obtain ⟨k, -, rfl⟩ := List.mem_map.mp hx
    left; dsimp only; omega
  obtain ⟨vmem, vform⟩ := vform
  refine ⟨fun many => ?_, fun few => ?_⟩
  · rw [if_pos many] at form
    obtain ⟨hflags, hlv, hev, hcal⟩ := State.coastEntered_spec (s := v) (n := n) (by rw [vform]; exact urun)
    rw [emx, State.leGet_of_mem _ n emem, form]
    rw [form] at ends
    refine ⟨hflags, hlv, ?_, ends.cal _ ?_ nofun⟩
    · rw [hev, ← ev, vform]
    · rw [← now, show s.reg .LEn_OBS_REACQ n 0 = v.reg .LEn_OBS_REACQ n 0 by
        rw [vform]; exact (regs .LEn_OBS_REACQ (by simp only [RegName.addr, RegName.base, RegName.dims]; omega)).symm,
        show u.now = v.now by rw [vform]]
      exact hcal
  · rw [if_neg (by omega)] at form
    rw [emx, State.leGet_of_mem _ n emem, State.leGet_of_mem _ n emem, form, State.leGet_lePut_ne _ n _ (by decide), State.leGet_lePut_ne _ n _ (by decide)]
    refine ⟨flagged, ?_, lows⟩
    rw [State.lePut, State.setWord_only_mem, ← ev, vform]

/-! ## Escalation and its clear -/

theorem State.leRetry_regs (n : LeId) (s : State) (p : Pipe) : (State.leRetry n s p).regs = s.regs := by
  unfold State.leRetry
  split <;> rfl

theorem State.genRetry_regs (s : State) (n : LeId) : (s.genRetry n).regs = s.regs := by
  unfold State.genRetry
  split <;> rfl

theorem State.leResume_regs (s : State) (n : LeId) : (s.leResume n).regs = s.regs := by
  rw [State.leResume_eq, State.genRetry_regs]
  exact List.foldlRecOn _ _ (motive := fun (t : State) => t.regs = s.regs) rfl fun t ht p _ => (State.leRetry_regs n t p).trans ht

/-- A write of 1 to SAFEREQ clears it where it was not set in this cycle. -/
theorem State.leStatWrite_saferReq (s : State) (n : LeId) :
    (s.leStatWrite n 0x20).regs = (s.setReg .LEn_STAT n 0 (s.reg .LEn_STAT n 0 &&& ~~~(0x20#32 &&& 0xE0 &&& ~~~(s.came .LEn_STAT n 0)))).regs := by
  unfold State.leStatWrite
  rw [if_pos (by decide)]
  exact State.leResume_regs _ n

theorem safereqClear_owned {s : State} {r : Req} {n : LeId} (h : s.admits r .write .LEn_STAT n 0) (own : r.owns (s.leOwner n) = true) :
    ∃ t, exec (.safereqClear r n) s = .next t ∧
      t.flag F.LEn_STAT_SAFEREQ n 0 = (s.flag F.LEn_STAT_SAFEREQ n 0 && ((s.opened r.master).came .LEn_STAT n 0).getLsbD 5) ∧
      (∀ q : LeId, q ≠ n → t.reg .LEn_STAT q 0 = s.reg .LEn_STAT q 0) ∧ t.fld F.LEn_STAT_BANK n 0 = s.fld F.LEn_STAT_BANK n 0 := by
  obtain ⟨a, ha⟩ : ∃ a, a = s.opened r.master := ⟨_, rfl⟩
  have reg : ∀ q : LeId, a.reg .LEn_STAT q 0 = s.reg .LEn_STAT q 0 := fun q => by
    obtain ⟨x, y, form⟩ := s.opened_only r.master
    rw [ha, form]; rfl
  have next : exec (.safereqClear r n) s = .next (a.leStatWrite n 0x20) := by
    change regCmd r .write .LEn_STAT n 0 (fun s => s.leOwned r n fun s => s.leStatWrite n 0x20) s = _
    rw [regCmd_leOwned h, if_pos own, ha]
  have regs := a.leStatWrite_saferReq n
  have value : (a.leStatWrite n 0x20).reg .LEn_STAT n 0 =
      s.reg .LEn_STAT n 0 &&& ~~~(0x20#32 &&& 0xE0 &&& ~~~(a.came .LEn_STAT n 0)) := by
    rw [State.reg, regs, ← State.reg, State.reg_setReg_same, reg]
  rw [← ha]
  refine ⟨_, next, ?_, fun q hq => ?_, ?_⟩
  · rw [State.flag, State.flag, State.fld, State.fld]
    change (getBits ((a.leStatWrite n 0x20).reg .LEn_STAT n 0) 5 5 != 0) = ((getBits (s.reg .LEn_STAT n 0) 5 5 != 0) && _)
    rw [value, flag_bit, flag_bit]
    simp
  · rw [State.reg, regs, ← State.reg, State.reg_setReg_ne _ _ (leStat_ne_leStat hq), reg]
  · rw [State.fld, State.fld]
    change getBits ((a.leStatWrite n 0x20).reg .LEn_STAT n 0) 2 2 = getBits (s.reg .LEn_STAT n 0) 2 2
    rw [value]
    refine Nat.eq_of_testBit_eq fun k => ?_
    rw [getBits_testBit, getBits_testBit]
    cases k with
    | zero => simp
    | succ k => simp

/-! ## The general stage -/

/-- The words of a start request go to the registers from `i + 1` on. -/
theorem startWords_get (l : List Word) : ∀ (v : Vector Word 32) (i : Nat), i + l.length ≤ 31 →
    let t := (l.zipIdx i).foldl (fun (v : Vector Word 32) x => vset v (Fin.ofNat 32 (x.2 + 1)) x.1) v
    (∀ k m (h : k < l.length), m = i + k + 1 → t[Fin.ofNat 32 m] = l[k]) ∧ ∀ q ≤ i, t[Fin.ofNat 32 q] = v[Fin.ofNat 32 q] := by
  induction l with
  | nil => exact fun v i _ => ⟨fun k m h => absurd h (Nat.not_lt_zero k), fun _ _ => rfl⟩
  | cons w l ih =>
    intro v i hi
    rw [List.length_cons] at hi
    obtain ⟨own, old⟩ := ih (vset v (Fin.ofNat 32 (i + 1)) w) (i + 1) (by omega)
    refine ⟨fun k m hk hm => ?_, fun q hq => ?_⟩
    · subst hm
      cases k with
      | zero => exact (old (i + 1) (Nat.le_refl _)).trans (vset_getElem_same _ _ _)
      | succ k => exact own k _ (by simpa using hk) (by omega)
    · refine (old q (by omega)).trans (vset_getElem_ne _ _ fun e => ?_)
      have := congrArg Fin.val e
      simp only [Fin.ofNat, Nat.mod_eq_of_lt (by omega : i + 1 < 32), Nat.mod_eq_of_lt (by omega : q < 32)] at this
      omega

theorem State.le_modGen_same (s : State) (n : LeId) (f : GenSt → GenSt) : (s.modGen n f).le[n].gen = f s.le[n].gen :=
  congrArg LeSt.gen (s.le_modLe_same n _)

theorem State.genStart_fields (s : State) (n : LeId) {ws : List Word} (h : ws.length ≤ 31) :
    (s.genStart n ws).le[n].gen.feed = s.le[n].gen.feed ∧
    (∀ k (h : k < ws.length), (s.genStart n ws).le[n].gen.v[Fin.ofNat 32 (k + 1)] = ws[k]) ∧
    (s.genStart n ws).flag F.LEn_GEN_STAT_BUSY n 0 = true := by
  obtain ⟨v, hv⟩ : ∃ v, v = ws.zipIdx.foldl (fun (v : Vector Word 32) x => vset v (Fin.ofNat 32 (x.2 + 1)) x.1) s.le[n].gen.v := ⟨_, rfl⟩
  have own : (s.genStart n ws).le[n].gen = { s.le[n].gen with v := v, rdy := [], pc := 0, run := true, cnt := 0, held := none } := by
    obtain ⟨u, hu⟩ : ∃ u, u = s.modGen n fun g => { g with v := v, rdy := [], pc := 0, run := true, cnt := 0, held := none } := ⟨_, rfl⟩
    have form : s.genStart n ws = (u.setReg .LEn_GEN_STAT n 0 (BitVec.ofNat 32 65536)).sched 1 (.generalBundle n) := by rw [hu, hv]; rfl
    rw [form]
    change u.le[n].gen = _
    rw [hu, State.le_modGen_same]
  refine ⟨by rw [own], fun k hk => ?_, ?_⟩
  · rw [own, hv]
    exact (startWords_get ws s.le[n].gen.v 0 (by omega)).1 k (k + 1) hk (by omega)
  · have reg : (s.genStart n ws).reg .LEn_GEN_STAT n 0 = BitVec.ofNat 32 65536 := State.reg_setReg_same ..
    rw [State.flag, State.fld]
    change (getBits ((s.genStart n ws).reg .LEn_GEN_STAT n 0) 16 16 != 0) = true
    rw [reg]
    rfl

/-- A start of the general stage. -/
def State.genStarted (n : LeId) (now : Nat) (ws : List Word) (feed held : Option (List Word)) (t : State) : Prop :=
  t.le[n].gen.run = true ∧ t.le[n].gen.pc = 0 ∧ t.le[n].gen.feed = feed ∧ t.le[n].gen.held = held ∧
  (∀ k (h : k < ws.length), t.le[n].gen.v[Fin.ofNat 32 (k + 1)] = ws[k]) ∧ t.flag F.LEn_GEN_STAT_BUSY n 0 = true ∧
  (now + 1, Instr.generalBundle n) ∈ t.cal

theorem State.genStart_started (s : State) (n : LeId) {ws : List Word} (h : ws.length ≤ 31) :
    State.genStarted n s.now ws s.le[n].gen.feed none (s.genStart n ws) := by
  obtain ⟨run, pc, held, due⟩ := s.genStart_starts n ws
  obtain ⟨feed, words, busy⟩ := s.genStart_fields n h
  exact ⟨run, pc, feed, held, words, busy, due⟩

theorem State.genHold_started {s : State} {n : LeId} {now : Nat} {ws : List Word} {feed : Option (List Word)}
    (h : State.genStarted n now ws feed none s) (old : List Word) : State.genStarted n now ws feed (some old) (s.genHold n old) := by
  obtain ⟨run, pc, feed, held, words, busy, due⟩ := h
  have own : (s.genHold n old).le[n].gen = { s.le[n].gen with held := some old } := s.le_modGen_same n _
  refine ⟨by rw [own]; exact run, by rw [own]; exact pc, by rw [own]; exact feed, by rw [own], fun k hk => ?_, busy, due⟩
  rw [own]
  exact words k hk

/-- A start request that finds the general stage at rest. -/
theorem State.genRequest_started {s : State} {n : LeId} (run : s.le[n].gen.run = false) {ws req : List Word} {held : Option (List Word)}
    (h : s.le[n].gen.held = none ∧ held = none ∧ req = ws ∨ s.le[n].gen.held = some ws ∧ held = some req) (len : ws.length ≤ 31) :
    State.genStarted n s.now ws s.le[n].gen.feed held (s.genRequest n req) := by
  unfold State.genRequest
  dsimp only
  obtain ⟨none, rfl, rfl⟩ | ⟨old, rfl⟩ := h
  · rw [run, none]
    exact s.genStart_started n len
  · rw [run, old]
    exact State.genHold_started (s.genStart_started n len) req

theorem generalStageGo_starts {s : State} {n : LeId} (mode : s.mode.run = true) (on : s.pipeOn n .gen = true)
    (run : s.le[n].gen.run = false) {ws : List Word} {held : Option (List Word)}
    (h : (s.le[n].gen.held = none ∧ held = none ∧ (s.le[n].gen.feed = some ws ∨
          (s.leAccepts n = true ∧ s.le[n].gen.feed = none ∧ ws = [] ∧ s.fld F.LEn_CTRL_GENPOS n 0 = 0))) ∨
        (s.le[n].gen.held = some ws ∧ held ≠ none ∧ s.le[n].gen.feed = held)) (len : ws.length ≤ 31) :
    ∃ t, exec (.generalStageGo n) s = .next t ∧ State.genStarted n s.now ws none held t := by
  obtain ⟨u, hu⟩ : ∃ u, u = s.modGen n fun g => { g with feed := none } := ⟨_, rfl⟩
  have own : u.le[n].gen = { s.le[n].gen with feed := none } := hu ▸ s.le_modGen_same n _
  have urun : u.le[n].gen.run = false := by rw [own]; exact run
  have now : u.now = s.now := by rw [hu]; rfl
  have fed : ∀ req, s.le[n].gen.feed = some req → exec (.generalStageGo n) s = .next (u.genRequest n req) := fun req hreq => by
    change execGeneralStageGo n s = _
    unfold execGeneralStageGo
    dsimp only
    rw [if_pos (by rw [mode, on]; rfl), hreq, hu]
  have starts : ∀ req, (u.le[n].gen.held = none ∧ held = none ∧ req = ws ∨ u.le[n].gen.held = some ws ∧ held = some req) →
      State.genStarted n s.now ws none held (u.genRequest n req) := fun req hreq => by
    have := State.genRequest_started urun hreq len
    rw [now, own] at this
    exact this
  obtain ⟨none, rest, hfeed | ⟨acc, feed, rfl, pos⟩⟩ | ⟨old, some, feed⟩ := h
  · exact ⟨_, fed ws hfeed, starts ws (.inl ⟨by rw [own]; exact none, rest, rfl⟩)⟩
  · have := State.genRequest_started run (.inl ⟨none, rest, rfl⟩) len
    rw [feed] at this
    refine ⟨_, ?_, this⟩
    change execGeneralStageGo n s = _
    unfold execGeneralStageGo
    dsimp only
    rw [if_pos (by rw [mode, on]; rfl), feed]
    dsimp only
    rw [if_neg (by rw [acc]; exact nofun), if_pos pos]
  · obtain ⟨req, rfl⟩ := Option.ne_none_iff_exists'.mp some
    exact ⟨_, fed req feed, starts req (.inr ⟨by rw [own]; exact old, rfl⟩)⟩

/-- A slot of a bundle leaves the registers of the device, the state of the run and v0. -/
structure State.slotOnly (n : LeId) (s t : State) : Prop where
  regs : t.regs = s.regs
  run : t.le[n].gen.run = s.le[n].gen.run
  v0 : t.le[n].gen.v[0] = s.le[n].gen.v[0]

theorem State.slotOnly.refl (n : LeId) (s : State) : State.slotOnly n s s := ⟨rfl, rfl, rfl⟩

theorem State.slotOnly.trans {n : LeId} {s t u : State} (h : State.slotOnly n s t) (g : State.slotOnly n t u) : State.slotOnly n s u :=
  ⟨g.regs.trans h.regs, g.run.trans h.run, g.v0.trans h.v0⟩

theorem GenSt.put_spec (g : GenSt) (r : Fin 32) (w : Word) (t : Nat) : (g.put r w t).run = g.run ∧ (g.put r w t).v[0] = g.v[0] := by
  unfold GenSt.put
  split
  · exact ⟨rfl, rfl⟩
  next h => exact ⟨rfl, vset_getElem_ne g.v (j := (0 : Fin 32)) w h⟩

section
variable (s : State) (n : LeId) (g : GenSt) (w : Word)

theorem State.modGen_slotOnly (f : GenSt → GenSt) (run : (f s.le[n].gen).run = s.le[n].gen.run) (v0 : (f s.le[n].gen).v[0] = s.le[n].gen.v[0]) :
    State.slotOnly n s (s.modGen n f) := by
  have own := s.le_modGen_same n f
  exact ⟨rfl, by rw [own]; exact run, by rw [own]; exact v0⟩

theorem State.genPut_slotOnly (r : Fin 32) (x : Word) (t : Nat) : State.slotOnly n s (s.modGen n fun g => g.put r x t) :=
  s.modGen_slotOnly n _ (GenSt.put_spec _ r x t).1 (GenSt.put_spec _ r x t).2

theorem State.leDrive_slotOnly (d k : Nat) (x : Word) : State.slotOnly n s (s.leDrive n d k x) := by
  have own : (s.leDrive n d k x).le[n].gen = s.le[n].gen := (congrArg LeSt.gen (s.le_modLe_same n _)).trans rfl
  exact ⟨rfl, by rw [own], by rw [own]⟩

theorem State.genAluSlot_slotOnly : State.slotOnly n s (s.genAluSlot n g w) := by
  unfold State.genAluSlot
  dsimp only
  split
  · exact .refl n s
  · exact s.genPut_slotOnly n _ _ _

theorem State.genMemSlot_slotOnly : State.slotOnly n s (s.genMemSlot n g w) := by
  unfold State.genMemSlot
  dsimp only
  cases Config.genMem (slotOp w) with
  | nop => exact .refl n s
  | ld => exact s.genPut_slotOnly n _ _ _
  | st =>
    dsimp only
    rw [State.setWord_only_mem]
    exact ⟨rfl, rfl, rfl⟩
  | ldp => exact s.genPut_slotOnly n _ _ _
  | inp => exact s.genPut_slotOnly n _ _ _
  | out =>
    have kept := s.modGen_slotOnly n (fun g' => { g' with last := vset g'.last (Config.genOut w) (g.get (slotA w)) }) rfl rfl
    dsimp only
    split
    · exact kept.trans (State.leDrive_slotOnly _ n 1 _ _)
    · exact kept

/-- The control slot goes forward, or ends the run. -/
theorem State.genCtlSlot_spec : State.slotOnly n s (s.genCtlSlot n g w).1 ∧ ∀ pc, (s.genCtlSlot n g w).2 = some pc → g.pc < pc := by
  have next : ∀ pc, (if g.pc < 63 then some (g.pc + 1) else none) = some pc → g.pc < pc := fun pc h => by
    split at h
    · obtain rfl := Option.some.inj h; exact Nat.lt_succ_self _
    · exact nomatch h
  have jump : ∀ (c : Bool) pc, (if c && decide (g.pc < slotImm w) then (if slotImm w < 64 then some (slotImm w) else none)
      else if g.pc < 63 then some (g.pc + 1) else none) = some pc → g.pc < pc := fun c pc h => by
    split at h
    next ok =>
      simp only [Bool.and_eq_true, decide_eq_true_eq] at ok
      split at h
      · obtain rfl := Option.some.inj h; exact ok.2
      · exact nomatch h
    · exact next pc h
  unfold State.genCtlSlot
  dsimp only
  cases Config.genCtl (slotOp w) with
  | nop => exact ⟨.refl n s, next⟩
  | brLt => exact ⟨.refl n s, jump _⟩
  | brEq => exact ⟨.refl n s, jump _⟩
  | brGe => exact ⟨.refl n s, jump _⟩
  | strobe =>
    dsimp only
    split
    · exact ⟨s.leDrive_slotOnly n 2 4 _, next⟩
    · exact ⟨.refl n s, next⟩
  | gevt => exact ⟨⟨rfl, rfl, rfl⟩, next⟩
  | stop => exact ⟨.refl n s, nofun⟩
end

/-- A bundle is counted. -/
def State.genCounted (s : State) (n : LeId) : State :=
  ((s.unsched (.generalBundle n)).modGen n fun g => { g with cnt := g.cnt + 1 }).setFld F.LEn_GEN_STAT_BUNDLES n 0 (min 127 (s.le[n].gen.cnt + 1))

/-- The operations of a bundle before its control slot. -/
def State.genOps (s : State) (n : LeId) (g : GenSt) : State :=
  ((((s.setFld F.LEn_GEN_STAT_LAST n 0 g.pc).genAluSlot n g (s.genSlot n 0)).genAluSlot n g (s.genSlot n 1)).genMemSlot n g (s.genSlot n 2))

/-- The bundle after this one, or the end of the run. -/
def State.genNext (n : LeId) (x : State × Option Nat) : State :=
  match x with
  | (s, some pc) => (s.modGen n fun g => { g with pc := pc }).sched 1 (.generalBundle n)
  | (s, none) =>
    let s := (s.modGen n fun g => { g with run := false }).setFld F.LEn_GEN_STAT_BUSY n 0 0
    if s.le[n].gen.held.isSome then s.sched 0 (.setAccept n .gen) else s

theorem State.genCounted_spec (s : State) (n : LeId) :
    (s.genCounted n).le[n].gen = { s.le[n].gen with cnt := s.le[n].gen.cnt + 1 } ∧ (s.genCounted n).mem = s.mem ∧
    (s.genCounted n).now = s.now ∧ (s.genCounted n).mode = s.mode ∧
    (s.genCounted n).fld F.LEn_GEN_STAT_BUNDLES n 0 = min 127 (s.le[n].gen.cnt + 1) := by
  obtain ⟨u, hu⟩ : ∃ u, u = (s.unsched (.generalBundle n)).modGen n fun g => { g with cnt := g.cnt + 1 } := ⟨_, rfl⟩
  have own : u.le[n].gen = { s.le[n].gen with cnt := s.le[n].gen.cnt + 1 } := by
    rw [hu]; exact (s.unsched (.generalBundle n)).le_modGen_same n _
  unfold State.genCounted
  rw [← hu]
  refine ⟨own, by rw [hu]; rfl, by rw [hu]; rfl, ?_, ?_⟩
  · rw [State.mode_setFld_ne u F.LEn_GEN_STAT_BUNDLES n 0 _ (by
      change RegName.SYS_CLK_STAT.addr 0 0 ≠ RegName.LEn_GEN_STAT.addr n 0
      simp only [RegName.addr, RegName.base, RegName.dims]; omega), hu]
    rfl
  · rw [State.fld_setFld_same u F.LEn_GEN_STAT_BUNDLES n 0 _ (by decide)]
    exact Nat.mod_eq_of_lt (Nat.lt_of_le_of_lt (Nat.min_le_left ..) (by decide))

theorem State.genCounted_stalls (s : State) (n : LeId) : (s.genCounted n).genStalls n = s.genStalls n := by
  obtain ⟨own, mem, now, -, -⟩ := s.genCounted_spec n
  simp only [State.genStalls, State.genSlot, own, State.word_of_mem mem, now]

theorem State.genOps_slotOnly (s : State) (n : LeId) (g : GenSt) :
    State.slotOnly n (s.setFld F.LEn_GEN_STAT_LAST n 0 g.pc) (s.genOps n g) :=
  (State.genAluSlot_slotOnly _ n g _).trans ((State.genAluSlot_slotOnly _ n g _).trans (State.genMemSlot_slotOnly _ n g _))

/-- What ends a bundle: the run goes on, forward, or it ends. -/
theorem State.genNext_spec (n : LeId) (x : State × Option Nat) (run : x.1.le[n].gen.run = true) :
    (State.genNext n x).le[n].gen.v[0] = x.1.le[n].gen.v[0] ∧
    (∀ f : Fld, f.reg = .LEn_GEN_STAT → f.hi < 16 → (State.genNext n x).fld f n 0 = x.1.fld f n 0) ∧
    ((State.genNext n x).le[n].gen.run = true → x.2 = some (State.genNext n x).le[n].gen.pc) ∧
    ((State.genNext n x).le[n].gen.run = false → (State.genNext n x).flag F.LEn_GEN_STAT_BUSY n 0 = false) := by
  obtain ⟨s, _ | pc⟩ := x
  · obtain ⟨u, hu⟩ : ∃ u, u = (s.modGen n fun g => { g with run := false }).setFld F.LEn_GEN_STAT_BUSY n 0 0 := ⟨_, rfl⟩
    have own : u.le[n].gen = { s.le[n].gen with run := false } := by
      rw [hu]; exact s.le_modGen_same n fun g => { g with run := false }
    have ended : (State.genNext n (s, none)).le = u.le ∧ (State.genNext n (s, none)).regs = u.regs := by
      rw [hu]
      unfold State.genNext
      dsimp only
      split <;> exact ⟨rfl, rfl⟩
    rw [ended.1, own]
    refine ⟨rfl, fun f hf hi => ?_, nofun, fun _ => ?_⟩
    · rw [State.fld_of_regs ended.2, hu, State.fld_setFld_apart (f := F.LEn_GEN_STAT_BUSY) (g := f) _ 0 hf (by decide) (by omega) (.inl hi)]
      rfl
    · rw [State.flag, State.fld_of_regs ended.2, hu, State.fld_setFld_same _ F.LEn_GEN_STAT_BUSY n 0 0 (by decide)]
      rfl
  · have own : (State.genNext n (s, some pc)).le[n].gen = { s.le[n].gen with pc := pc } := s.le_modGen_same n fun g => { g with pc := pc }
    rw [own]
    exact ⟨rfl, fun _ _ _ => rfl, fun _ => rfl, fun h => absurd (run.symm.trans h) nofun⟩

theorem generalBundle_runs {s : State} {n : LeId} (mode : s.mode.run = true) (run : s.le[n].gen.run = true) :
    let g := s.le[n].gen
    ∃ t, exec (.generalBundle n) s = .next t ∧
      t.fld F.LEn_GEN_STAT_BUNDLES n 0 = min 127 (g.cnt + 1) ∧
      (s.genStalls n = true → t.le[n].gen = { g with cnt := g.cnt + 1 } ∧ t.mem = s.mem ∧ (s.now + 1, Instr.generalBundle n) ∈ t.cal) ∧
      (s.genStalls n = false → g.pc < 64 → t.fld F.LEn_GEN_STAT_LAST n 0 = g.pc ∧ t.le[n].gen.v[0] = g.v[0] ∧
        (t.le[n].gen.run = true → g.pc < t.le[n].gen.pc) ∧
        (t.le[n].gen.run = false → t.flag F.LEn_GEN_STAT_BUSY n 0 = false)) := by
  intro g
  obtain ⟨own, mem, now, umode, bundles⟩ := s.genCounted_spec n
  have ustalls := s.genCounted_stalls n
  have next : exec (.generalBundle n) s = .next (if (s.genCounted n).genStalls n then (s.genCounted n).sched 1 (.generalBundle n)
      else State.genNext n (((s.genCounted n).genOps n g).genCtlSlot n g ((s.genCounted n).genSlot n 3))) := by
    change execGeneralBundle n s = _
    unfold execGeneralBundle
    rw [if_pos run, if_neg (by rw [show (s.unsched (.generalBundle n)).mode = s.mode from rfl, mode]; exact nofun)]
    extract_lets v u
    have hu : u = s.genCounted n := rfl
    rw [← hu]
    clear_value u
    split
    · rfl
    · change (match (u.genOps n g).genCtlSlot n g (u.genSlot n 3) with
        | (s, some pc) => Host.Outcome.next ((s.modGen n fun g => { g with pc := pc }).sched 1 (.generalBundle n))
        | (s, none) => _) = _
      obtain ⟨v, pc⟩ := (u.genOps n g).genCtlSlot n g (u.genSlot n 3)
      cases pc <;> rfl
  obtain ⟨u, hu⟩ : ∃ u, u = s.genCounted n := ⟨_, rfl⟩
  rw [← hu] at own mem now bundles ustalls next
  cases stalls : s.genStalls n with
  | true =>
    rw [ustalls, stalls, if_pos rfl] at next
    exact ⟨_, next, bundles, fun _ => ⟨own, mem, State.mem_sched now 1 _⟩, nofun⟩
  | false =>
    rw [ustalls, stalls, if_neg (by decide)] at next
    have ops := u.genOps_slotOnly n g
    obtain ⟨ctl, fwd⟩ := (u.genOps n g).genCtlSlot_spec n g (u.genSlot n 3)
    have kept := ops.trans ctl
    obtain ⟨v0, flds, goes, ends⟩ := State.genNext_spec n ((u.genOps n g).genCtlSlot n g (u.genSlot n 3))
      (kept.run.trans ((show (u.setFld F.LEn_GEN_STAT_LAST n 0 g.pc).le[n].gen.run = u.le[n].gen.run from rfl).trans (by rw [own]; exact run)))
    refine ⟨_, next, ?_, nofun, fun _ small => ⟨?_, ?_, fun h => fwd _ (goes h), ends⟩⟩
    · rw [flds F.LEn_GEN_STAT_BUNDLES rfl (by decide), State.fld_of_regs kept.regs, State.fld_setFld_apart (f := F.LEn_GEN_STAT_LAST)
        (g := F.LEn_GEN_STAT_BUNDLES) _ _ rfl (by decide) (by decide) (.inr (by decide)), bundles]
    · rw [flds F.LEn_GEN_STAT_LAST rfl (by decide), State.fld_of_regs kept.regs, State.fld_setFld_same u F.LEn_GEN_STAT_LAST n 0 _ (by decide)]
      exact Nat.mod_eq_of_lt small
    · rw [v0, kept.v0]
      change u.le[n].gen.v[0] = _
      rw [own]

/-- Settles O39. -/
theorem observerAndGeneralStage : Obligations.ObserverAndGeneralStage := by
  intro s r n mode
  refine ⟨fun j hj out => observerAngle_feeds hj out, fun j ang fr m e hj out keep => observerConfidence_shows mode hj out keep,
    fun coast => ?_, fun h => ⟨fun own => safereqClear_owned h own, fun own => ?_⟩,
    fun on run ws held h len => generalStageGo_starts mode on run h len, fun run => generalBundle_runs mode run⟩
  · change execCoastEscalate n s = _
    rw [execCoastEscalate, mode, coast]
    rfl
  · change regCmd r .write .LEn_STAT n 0 (fun s => s.leOwned r n fun s => s.leStatWrite n 0x20) s = _
    rw [regCmd_leOwned h, if_neg (by rw [own]; decide)]

end Sys2Proof.Machine
end

