-- ==== Sys2Proof/Proofs/PosRules.lean ====
section
/-! PROOF. Rules of the position interfaces' state: what an operation changes of an interface and of its registers. -/

namespace Sys2Proof.Machine

/-! ## Registers of an interface -/

/-- Two registers of a block that differ in their base. -/
def RegName.apart (q r : RegName) : Bool := decide (q.dims = r.dims) && decide (q.base ≠ r.base)

theorem RegName.addr_ne_of_apart {q r : RegName} (h : RegName.apart q r = true) (i j : Nat) : q.addr i j ≠ r.addr i j := by
  simp only [RegName.apart, Bool.and_eq_true, decide_eq_true_eq] at h
  obtain ⟨dims, base⟩ := h
  rw [RegName.addr, RegName.addr, dims]
  omega

/-- A register of a position interface. -/
def RegName.ofPos (r : RegName) : Bool := decide (r.dims = RegName.POSn_CFG.dims) && decide (r.base < 0x40500000)

theorem RegName.ofPos_ne_clk {r : RegName} (h : RegName.ofPos r = true) (n : PosId) : RegName.SYS_CLK_STAT.addr 0 0 ≠ r.addr n 0 := by
  simp only [RegName.ofPos, Bool.and_eq_true, decide_eq_true_eq] at h
  obtain ⟨dims, base⟩ := h
  have clk : RegName.SYS_CLK_STAT.addr 0 0 = 0x44000008 := rfl
  have block : RegName.POSn_CFG.dims = ((8, 0x100), (1, 0)) := rfl
  rw [clk, RegName.addr, dims, block]
  dsimp only
  omega

/-- Of the registers, only `rs` of interface n differ; time, the writes of the lc and the system controller stand. -/
structure State.posFrame (rs : List RegName) (n : PosId) (s t : State) : Prop where
  now : t.now = s.now
  marks : t.marks = s.marks
  sys : t.sys = s.sys
  reg : ∀ (q : RegName) k l, (∀ r ∈ rs, q.addr k l ≠ r.addr n 0) → t.reg q k l = s.reg q k l

section
variable {rs : List RegName} {n : PosId} {s t u : State}

theorem State.posFrame.refl (rs : List RegName) (n : PosId) (s : State) : State.posFrame rs n s s := ⟨rfl, rfl, rfl, fun _ _ _ _ => rfl⟩

theorem State.posFrame.trans (h : State.posFrame rs n s t) (g : State.posFrame rs n t u) : State.posFrame rs n s u :=
  ⟨g.now.trans h.now, g.marks.trans h.marks, g.sys.trans h.sys, fun q k l hq => (g.reg q k l hq).trans (h.reg q k l hq)⟩

theorem State.posFrame.mono {rs' : List RegName} (h : State.posFrame rs n s t) (sub : ∀ r ∈ rs, r ∈ rs') : State.posFrame rs' n s t :=
  ⟨h.now, h.marks, h.sys, fun q k l hq => h.reg q k l fun r hr => hq r (sub r hr)⟩

section
variable (h : State.posFrame rs n s t)
include h

theorem State.posFrame.own {q : RegName} (hq : rs.all (RegName.apart q) = true) : t.reg q n 0 = s.reg q n 0 :=
  h.reg q n 0 fun r hr => RegName.addr_ne_of_apart (List.all_eq_true.mp hq r hr) n 0

theorem State.posFrame.fld {f : Fld} (hf : rs.all (RegName.apart f.reg) = true) : t.fld f n 0 = s.fld f n 0 := by
  rw [State.fld, h.own hf, State.fld]

theorem State.posFrame.flag {f : Fld} (hf : rs.all (RegName.apart f.reg) = true) : t.flag f n 0 = s.flag f n 0 := by
  rw [State.flag, h.fld hf, State.flag]

theorem State.posFrame.mode (hr : rs.all RegName.ofPos = true) : t.mode = s.mode :=
  State.mode_congr (h.reg _ 0 0 fun r hm => RegName.ofPos_ne_clk (List.all_eq_true.mp hr r hm) n) h.marks h.sys

theorem State.posFrame.marked (a : Nat) (b : Bool) : t.marked a b = s.marked a b := by rw [State.marked, h.marks, State.marked]

theorem State.posFrame.posRuns (hr : rs.all (fun r => RegName.ofPos r && RegName.apart .POSn_CFG r) = true) : t.posRuns n = s.posRuns n := by
  have all : ∀ r ∈ rs, RegName.ofPos r = true ∧ RegName.apart .POSn_CFG r = true := fun r hm => by
    simpa using List.all_eq_true.mp hr r hm
  have cfg : rs.all (RegName.apart .POSn_CFG) = true := List.all_eq_true.mpr fun r hm => (all r hm).2
  rw [State.posRuns, State.posMode, h.mode (List.all_eq_true.mpr fun r hm => (all r hm).1), h.flag (f := F.POSn_CFG_EN) cfg,
    h.fld (f := F.POSn_CFG_MODE) cfg, State.posRuns, State.posMode]
end

theorem State.setReg_posFrame (s : State) {r : RegName} (hr : r ∈ rs) (n : PosId) (w : Word) : State.posFrame rs n s (s.setReg r n 0 w) :=
  ⟨rfl, rfl, rfl, fun _ _ _ hq => State.reg_setReg_ne _ _ (hq r hr)⟩

theorem State.setFld_posFrame (s : State) {f : Fld} (hf : f.reg ∈ rs) (n : PosId) (v : Nat) : State.posFrame rs n s (s.setFld f n 0 v) :=
  s.setReg_posFrame hf n _

theorem State.raiseFld_posFrame (s : State) {f : Fld} (hf : f.reg ∈ rs) (n : PosId) (v : Nat) : State.posFrame rs n s (s.raiseFld f n 0 v) :=
  ⟨rfl, rfl, rfl, fun _ _ _ hq => State.reg_setReg_ne _ _ (hq f.reg hf)⟩

theorem State.bump_posFrame (s : State) {f : Fld} (hf : f.reg ∈ rs) (n : PosId) : State.posFrame rs n s (s.bump f n 0) :=
  ⟨rfl, rfl, rfl, fun _ _ _ hq => State.reg_setReg_ne _ _ (hq f.reg hf)⟩

theorem State.modPos_posFrame (s : State) (rs : List RegName) (n : PosId) (f : PosSt → PosSt) : State.posFrame rs n s (s.modPos n f) :=
  ⟨rfl, rfl, rfl, fun _ _ _ _ => rfl⟩

theorem State.raiseEv_posFrame (s : State) (rs : List RegName) (n : PosId) (k : Nat) : State.posFrame rs n s (s.raiseEv k) :=
  ⟨rfl, rfl, rfl, fun _ _ _ _ => rfl⟩

theorem State.setLv_posFrame (s : State) (rs : List RegName) (n : PosId) (k : Nat) (b : Bool) : State.posFrame rs n s (s.setLv k b) :=
  ⟨rfl, rfl, rfl, fun _ _ _ _ => rfl⟩

theorem State.raiseData_posFrame (s : State) (rs : List RegName) (n : PosId) (k : Nat) (w : Word) : State.posFrame rs n s (s.raiseData k w) :=
  ⟨rfl, rfl, rfl, fun _ _ _ _ => rfl⟩

theorem State.posPut_posFrame (s : State) (hr : RegName.POSn_POS ∈ rs) (n : PosId) (w : Word) : State.posFrame rs n s (s.posPut n w) :=
  (s.setReg_posFrame hr n w).trans (State.raiseData_posFrame _ rs n _ _)
end

/-! ## The interface's own state -/

section
variable (s : State) (n : PosId)

theorem State.pos_modPos_same (f : PosSt → PosSt) : (s.modPos n f).pos[n] = f s.pos[n] := vset_getElem_same _ _ _

theorem State.pos_modPos_ne {m : PosId} (f : PosSt → PosSt) (h : m ≠ n) : (s.modPos n f).pos[m] = s.pos[m] := vset_getElem_ne _ _ h.symm

theorem State.modPos_modPos (f g : PosSt → PosSt) : (s.modPos n f).modPos n g = s.modPos n fun p => g (f p) := by
  change ({ s with pos := vset (vset s.pos n (f s.pos[n])) n (g (vset s.pos n (f s.pos[n]))[n.val]) } : State) = _
  rw [vset_vset, vset_getElem_same]
  rfl

theorem State.modPos_congr {f g : PosSt → PosSt} (h : f s.pos[n] = g s.pos[n]) : s.modPos n f = s.modPos n g := by
  unfold State.modPos vmod
  rw [h]

theorem State.posPut_pos (w : Word) : (s.posPut n w).reg .POSn_POS n 0 = w ∧ (s.posPut n w).mx.word.get (posSrc n) 0 = w ∧
    (s.posPut n w).pos = s.pos :=
  ⟨State.reg_setReg_same .., SMap.get_put_same s.mx.word (posSrc n) w 0, rfl⟩

/-- A count that no bus write of the lc prevails over. -/
theorem State.posMove_spec (w : Word) (untouched : s.marked (RegName.POSn_POS.addr n 0) false = false) :
    State.posFrame [.POSn_POS] n s (s.posMove n w) ∧ (s.posMove n w).reg .POSn_POS n 0 = w ∧
    (s.posMove n w).mx.word.get (posSrc n) 0 = w ∧ (∃ b, (s.posMove n w).pos[n] = { s.pos[n] with before := b }) := by
  obtain ⟨f, hf⟩ : ∃ f : PosSt → PosSt, f = fun p => match p.before with
    | some (t', _) => if t' = s.now then p else { p with before := some (s.now, s.reg .POSn_POS n 0) }
    | none => { p with before := some (s.now, s.reg .POSn_POS n 0) } := ⟨_, rfl⟩
  have form : s.posMove n w = (s.modPos n f).posPut n w := by
    unfold State.posMove
    dsimp only
    rw [hf]
    exact if_neg (by rw [show ∀ g, (s.modPos n g).marked (RegName.POSn_POS.addr n 0) false = _ from fun _ => untouched]; decide)
  have before : ∀ p, ∃ b, f p = { p with before := b } := fun p => by
    rw [hf]
    dsimp only
    split
    · split
      · exact ⟨p.before, rfl⟩
      · exact ⟨_, rfl⟩
    · exact ⟨_, rfl⟩
  obtain ⟨b, hb⟩ := before s.pos[n]
  rw [form]
  obtain ⟨reg, word, pos⟩ := State.posPut_pos (s.modPos n f) n w
  refine ⟨(s.modPos_posFrame _ n f).trans (State.posPut_posFrame _ (.head _) n w), reg, word, ⟨b, ?_⟩⟩
  rw [pos, State.pos_modPos_same, hb]

/-! ## VALID -/

/-- What VALID follows: no error, no index event awaited, in SSI mode a good frame. -/
def State.posSound : Bool := !s.posErr n && !s.pos[n].await && (decide (s.posMode n ≠ 2) || s.pos[n].ssiOk)

theorem State.posValid_eq :
    s.posValid n = (s.setFld F.POSn_STAT_VALID n 0 (if s.posSound n then 1 else 0)).setLv (posSrc n + 2) (s.posSound n) := rfl

theorem State.posValid_frame : State.posFrame [.POSn_STAT] n s (s.posValid n) := by
  rw [State.posValid_eq]
  exact (s.setFld_posFrame (f := F.POSn_STAT_VALID) (.head _) n _).trans (State.setLv_posFrame _ _ n _ _)

theorem State.posValid_flag : (s.posValid n).flag F.POSn_STAT_VALID n 0 = s.posSound n := by
  rw [State.posValid_eq]
  change (State.fld (s.setFld F.POSn_STAT_VALID n 0 (if s.posSound n then 1 else 0)) F.POSn_STAT_VALID n 0 != 0) = _
  rw [State.fld_setFld_same s F.POSn_STAT_VALID n 0 _ (by decide)]
  cases s.posSound n <;> rfl

theorem State.posValid_level : (s.posValid n).mx.lv.get (posSrc n + 2) false = s.posSound n := by
  rw [State.posValid_eq]
  exact State.lv_setLv_same _ _ _

theorem State.posValid_fld {f : Fld} (hr : f.reg = .POSn_STAT) (hf : f.hi < 32) (h : 0 < f.lo) :
    (s.posValid n).fld f n 0 = s.fld f n 0 := by
  rw [State.posValid_eq]
  exact State.fld_setFld_apart (f := F.POSn_STAT_VALID) (g := f) s _ hr (by decide) hf (.inr h)

theorem State.posValid_rest : (s.posValid n).pos = s.pos ∧ (s.posValid n).mx.ev = s.mx.ev ∧ (s.posValid n).mx.word = s.mx.word ∧
    (s.posValid n).cal = s.cal ∧ (s.posValid n).tod = s.tod := ⟨rfl, rfl, rfl, rfl, rfl⟩

variable {s n}

theorem State.posErr_of {t : State} (q : t.fld F.POSn_STAT_QERR n 0 = s.fld F.POSn_STAT_QERR n 0)
    (i : t.fld F.POSn_STAT_IDXERR n 0 = s.fld F.POSn_STAT_IDXERR n 0) (a : t.fld F.POSn_STAT_AMPERR n 0 = s.fld F.POSn_STAT_AMPERR n 0) :
    t.posErr n = s.posErr n := by
  simp only [State.posErr, State.flag, q, i, a]

theorem State.posErr_of_reg {t : State} (h : t.reg .POSn_STAT n 0 = s.reg .POSn_STAT n 0) : t.posErr n = s.posErr n := by
  have fld : ∀ f : Fld, f.reg = .POSn_STAT → t.fld f n 0 = s.fld f n 0 := fun f hf => by rw [State.fld, State.fld, hf, h]
  exact State.posErr_of (fld _ rfl) (fld _ rfl) (fld _ rfl)

theorem State.posRuns_of (live : s.mode.live = true) (en : s.flag F.POSn_CFG_EN n 0 = true) (mode : s.fld F.POSn_CFG_MODE n 0 ≠ 0) :
    s.posRuns n = true := by
  simp [State.posRuns, State.posMode, live, en, mode]

/-- Setting another field of STAT leaves the errors. -/
theorem State.posErr_setFld {f : Fld} (hr : f.reg = .POSn_STAT) (hf : f.hi < 32) (h : f.hi < 4 ∨ 6 < f.lo) (v : Nat) :
    (s.setFld f n 0 v).posErr n = s.posErr n :=
  State.posErr_of (State.fld_setFld_apart (f := f) (g := F.POSn_STAT_QERR) s v hr.symm hf (by decide) (h.elim .inr fun h => .inl (by
      change 4 < f.lo; omega)))
    (State.fld_setFld_apart (f := f) (g := F.POSn_STAT_IDXERR) s v hr.symm hf (by decide) (h.elim (fun h => .inr (by change f.hi < 5; omega))
      fun h => .inl (by change 5 < f.lo; omega)))
    (State.fld_setFld_apart (f := f) (g := F.POSn_STAT_AMPERR) s v hr.symm hf (by decide) (h.elim (fun h => .inr (by change f.hi < 6; omega))
      fun h => .inl h))
end

end Sys2Proof.Machine
end

