-- ==== Sys2Proof/Proofs/SsiAndSpeed.lean ====
section
/-! PROOF. SSI frames, sin/cos interpolation and speed windows (R173 to R180). -/

namespace Sys2Proof.Machine

/-! ## Requests for a frame -/

/-- A frame under way, its end and the monoflop's due. -/
def State.ssiAsked (s : State) (n : PosId) : State :=
  let f := Config.ssiFrame s.fresh
  let len := s.fld F.POSn_SSI_CFG_LEN n 0
  let div := s.fld F.POSn_SSI_CFG_DIV n 0
  let u := (s.draw.setFld F.POSn_STAT_BUSY n 0 1).modPos n fun y => { y with mono := true, frame := some ⟨s.now, len, div, false⟩ }
  (u.sched ((2 * len + 1) * div + s.fld F.POSn_SSI_CFG_DLY n 0 + 1) (.ssiFrameEnd n f.1 f.2)).sched
    ((len + 1) * 2 * div + s.fld F.POSn_SSI_CFG_MONO n 0 * 100) (.monoflopEnd n)

theorem State.ssiRequest_eq {s : State} {n : PosId} (runs : s.posRuns n = true) (mode : s.posMode n = 2) (lead : s.posSlave = false) :
    s.ssiRequest n = if s.pos[n].mono then s.bump F.POSn_ERR_CNT_SSIOVR n 0 else s.ssiAsked n := by
  obtain ⟨u, hu⟩ : ∃ u, u = (s.draw.setFld F.POSn_STAT_BUSY n 0 1).modPos n fun p =>
    { p with mono := true, frame := some ⟨s.now, s.fld F.POSn_SSI_CFG_LEN n 0, s.fld F.POSn_SSI_CFG_DIV n 0, false⟩ } := ⟨_, rfl⟩
  have frame : State.posFrame [.POSn_STAT] n s.draw u := by
    rw [hu]
    exact (s.draw.setFld_posFrame (f := F.POSn_STAT_BUSY) (.head _) n 1).trans (State.modPos_posFrame _ _ n _)
  have cfg : ∀ f : Fld, f.reg = .POSn_SSI_CFG → u.fld f n 0 = s.fld f n 0 := fun f hf =>
    (frame.fld (f := f) (by rw [hf]; decide)).trans rfl
  unfold State.ssiRequest
  rw [if_neg (by simp [runs, mode, lead])]
  split
  · rfl
  · unfold State.ssiAsked
    dsimp only
    rw [← hu, State.ssiFrameLc, cfg _ rfl, cfg _ rfl, cfg _ rfl]
    have later : ∀ f : Fld, f.reg = .POSn_SSI_CFG → ∀ k c, (u.sched k c).fld f n 0 = s.fld f n 0 := fun f hf k c => cfg f hf
    rw [later _ rfl, later _ rfl, later _ rfl]

theorem ssiRequestEvent_asks {s : State} {n : PosId} (runs : s.posRuns n = true) (mode : s.posMode n = 2) (lead : s.posSlave = false) :
    exec (.ssiRequestEvent n) s = .next (if s.pos[n].mono then s.bump F.POSn_ERR_CNT_SSIOVR n 0 else s.ssiAsked n) := by
  change execSsiRequestEvent n s = _
  rw [execSsiRequestEvent, State.ssiRequest_eq runs mode lead]

theorem ssiBusyWrite_asks {s : State} {r : Req} {n : PosId} (h : s.admits r .write .POSn_STAT n 0) (runs : s.posRuns n = true)
    (mode : s.posMode n = 2) (lead : s.posSlave = false) :
    exec (.ssiBusyWrite r n) s = .next (if s.pos[n].mono then (s.opened r.master).bump F.POSn_ERR_CNT_SSIOVR n 0
      else (s.opened r.master).ssiAsked n) := by
  change regCmd r .write .POSn_STAT n 0 (fun s => s.ssiRequest n) s = _
  rw [regCmd_admitted h]
  have opened : (s.opened r.master).posRuns n = s.posRuns n ∧ (s.opened r.master).posMode n = s.posMode n ∧
      (s.opened r.master).posSlave = s.posSlave ∧ (s.opened r.master).pos[n] = s.pos[n] := by
    obtain ⟨x, y, form⟩ := s.opened_only r.master
    rw [form]
    exact ⟨rfl, rfl, rfl, rfl⟩
  obtain ⟨oruns, omode, olead, opos⟩ := opened
  rw [State.ssiRequest_eq (oruns.trans runs) (omode.trans mode) (olead.trans lead), opos]

/-! ## The end of a frame -/

/-- A good frame's position is taken, `d` counts from the last. -/
def PosSt.ssiGood (now : Nat) (d : Int) (x : Nat) (p : PosSt) : PosSt :=
  let c := p.cnt + d
  { p with
    cnt := c, ssiOk := true, ssiPos := x, good := some (now, c)
    goodA := match p.goodA with
      | some g => some g
      | none => some (now, c) }

/-- See `PosSt.ssiGood`. -/
def State.ssiTake (s : State) (n : PosId) (w x : Nat) : State := s.modPos n (PosSt.ssiGood s.now (wrapDiff w x s.pos[n].ssiPos) x)

/-- What the end of a frame does with what it decodes. -/
def State.ssiEnd (s : State) (n : PosId) (d : Bool × Nat) : State :=
  if d.1 then
    let w := min 32 (s.fld F.POSn_SSI_CFG_LEN n 0 - min 8 (s.fld F.POSn_SSI_CRC_CRCLEN n 0))
    ((((s.ssiTake n w d.2).setFld F.POSn_STAT_SSIERR n 0 0).posPut n (BitVec.ofNat 32 d.2)).posValid n).raiseEv (posSrc n + 10)
  else
    ((((s.modPos n fun p => { p with ssiOk := false }).setFld F.POSn_STAT_SSIERR n 0 1).bump F.POSn_ERR_CNT_SSI n 0).posValid n).raiseEv
      (posSrc n + 11)

/-- A decoded frame's marks in STAT. -/
structure State.ssiMarked (n : PosId) (good : Bool) (s t : State) : Prop where
  busy : t.flag F.POSn_STAT_BUSY n 0 = s.flag F.POSn_STAT_BUSY n 0
  valid : t.flag F.POSn_STAT_VALID n 0 = (good && !s.posErr n && !s.pos[n].await)
  err : t.flag F.POSn_STAT_SSIERR n 0 = !good

/-- SSIERR is set, the rest of the state brought up, VALID derived. -/
theorem State.ssiMarked_of {s u v : State} {n : PosId} {good : Bool} {e : Nat} (he : e = if good then 0 else 1) (mode : s.posMode n = 2)
    (ufld : ∀ f : Fld, f.reg = .POSn_STAT → u.fld f n 0 = s.fld f n 0)
    (vreg : v.reg .POSn_STAT n 0 = (u.setFld F.POSn_STAT_SSIERR n 0 e).reg .POSn_STAT n 0)
    (cfg : v.posMode n = s.posMode n) (ok : v.pos[n].ssiOk = good) (await : v.pos[n].await = s.pos[n].await) (k : Nat) :
    State.ssiMarked n good s ((v.posValid n).raiseEv k) := by
  obtain ⟨w, hw⟩ : ∃ w, w = u.setFld F.POSn_STAT_SSIERR n 0 e := ⟨_, rfl⟩
  rw [← hw] at vreg
  have vfld : ∀ f : Fld, f.reg = .POSn_STAT → v.fld f n 0 = w.fld f n 0 := fun f hf => by rw [State.fld, State.fld, hf, vreg]
  have errs : v.posErr n = s.posErr n := by
    rw [State.posErr_of_reg vreg, hw, State.posErr_setFld (f := F.POSn_STAT_SSIERR) rfl (by decide) (.inr (by decide))]
    exact State.posErr_of (ufld _ rfl) (ufld _ rfl) (ufld _ rfl)
  refine ⟨?_, ?_, ?_⟩
  · change (State.fld (v.posValid n) F.POSn_STAT_BUSY n 0 != 0) = (State.fld s F.POSn_STAT_BUSY n 0 != 0)
    rw [State.posValid_fld v n (f := F.POSn_STAT_BUSY) rfl (by decide) (by decide), vfld _ rfl, hw,
      State.fld_setFld_apart (f := F.POSn_STAT_SSIERR) (g := F.POSn_STAT_BUSY) u _ rfl (by decide) (by decide) (.inr (by decide)), ufld _ rfl]
  · refine (v.posValid_flag n).trans ?_
    rw [State.posSound, errs, await, cfg, mode, ok]
    cases good <;> simp
  · change (State.fld (v.posValid n) F.POSn_STAT_SSIERR n 0 != 0) = _
    rw [State.posValid_fld v n (f := F.POSn_STAT_SSIERR) rfl (by decide) (by decide), vfld _ rfl, hw,
      State.fld_setFld_same u F.POSn_STAT_SSIERR n 0 _ (by decide), he]
    cases good <;> rfl

theorem State.ssiEnd_spec {s : State} {n : PosId} (mode : s.posMode n = 2) (d : Bool × Nat) :
    State.ssiMarked n d.1 s (s.ssiEnd n d) ∧ (s.ssiEnd n d).pos[n].ssiOk = d.1 ∧
    (s.ssiEnd n d).reg .POSn_POS n 0 = (if d.1 then BitVec.ofNat 32 d.2 else s.reg .POSn_POS n 0) ∧
    (s.ssiEnd n d).mx.ev = s.mx.ev ++ [if d.1 then posSrc n + 10 else posSrc n + 11] := by
  obtain ⟨good, x⟩ := d
  cases good with
  | true =>
    obtain ⟨u, hu⟩ : ∃ u, u = s.ssiTake n (min 32 (s.fld F.POSn_SSI_CFG_LEN n 0 - min 8 (s.fld F.POSn_SSI_CRC_CRCLEN n 0))) x := ⟨_, rfl⟩
    obtain ⟨v, hv⟩ : ∃ v, v = (u.setFld F.POSn_STAT_SSIERR n 0 0).posPut n (BitVec.ofNat 32 x) := ⟨_, rfl⟩
    have form : s.ssiEnd n (true, x) = (v.posValid n).raiseEv (posSrc n + 10) := by rw [hv, hu]; rfl
    have upos : u.pos[n].ssiOk = true ∧ u.pos[n].await = s.pos[n].await := by
      rw [hu, State.ssiTake, State.pos_modPos_same]
      exact ⟨rfl, rfl⟩
    have vpos : v.pos = u.pos := by rw [hv]; rfl
    have frame : State.posFrame [.POSn_POS] n (u.setFld F.POSn_STAT_SSIERR n 0 0) v := hv ▸ State.posPut_posFrame _ (.head _) n _
    have whole : State.posFrame [.POSn_STAT, .POSn_POS] n s v := by
      have one : State.posFrame [.POSn_STAT, .POSn_POS] n s u := by rw [hu]; exact s.modPos_posFrame _ n _
      exact one.trans ((u.setFld_posFrame (f := F.POSn_STAT_SSIERR) (.head _) n 0).trans (frame.mono fun r hr => .tail _ hr))
    rw [form]
    refine ⟨State.ssiMarked_of (u := u) (good := true) (e := 0) rfl mode (fun f _ => by rw [hu]; rfl) (frame.own (by decide)) (whole.fld (f := F.POSn_CFG_MODE) (by decide))
      (by rw [vpos]; exact upos.1) (by rw [vpos]; exact upos.2) _, ?_, ?_, ?_⟩
    · exact (congrArg PosSt.ssiOk (by rw [← vpos]; rfl)).trans upos.1
    · refine ((v.posValid_frame n).own (q := .POSn_POS) (by decide)).trans ?_
      rw [hv]
      exact (State.posPut_pos _ n _).1
    · refine congrArg (· ++ [posSrc n + 10]) (show v.mx.ev = s.mx.ev from ?_)
      rw [hv, hu]; rfl
  | false =>
    obtain ⟨u, hu⟩ : ∃ u, u = s.modPos n fun p => { p with ssiOk := false } := ⟨_, rfl⟩
    obtain ⟨v, hv⟩ : ∃ v, v = (u.setFld F.POSn_STAT_SSIERR n 0 1).bump F.POSn_ERR_CNT_SSI n 0 := ⟨_, rfl⟩
    have form : s.ssiEnd n (false, x) = (v.posValid n).raiseEv (posSrc n + 11) := by rw [hv, hu]; rfl
    have own : u.pos[n] = { s.pos[n] with ssiOk := false } := by rw [hu]; exact s.pos_modPos_same n _
    have vpos : v.pos = u.pos := by rw [hv]; rfl
    have frame : State.posFrame [.POSn_ERR_CNT] n (u.setFld F.POSn_STAT_SSIERR n 0 1) v := by
      rw [hv]; exact State.bump_posFrame (f := F.POSn_ERR_CNT_SSI) _ (.head _) n
    have whole : State.posFrame [.POSn_STAT, .POSn_ERR_CNT] n s v := by
      have one : State.posFrame [.POSn_STAT, .POSn_ERR_CNT] n s u := by rw [hu]; exact s.modPos_posFrame _ n _
      exact one.trans ((u.setFld_posFrame (f := F.POSn_STAT_SSIERR) (.head _) n 1).trans (frame.mono fun r hr => .tail _ hr))
    rw [form]
    refine ⟨State.ssiMarked_of (u := u) (good := false) (e := 1) rfl mode (fun f _ => by rw [hu]; rfl) (frame.own (by decide)) (whole.fld (f := F.POSn_CFG_MODE) (by decide))
      (by rw [vpos, own]) (by rw [vpos, own]) _, ?_, ?_, ?_⟩
    · refine (congrArg PosSt.ssiOk (show v.pos[n] = u.pos[n] by rw [vpos])).trans ?_
      rw [own]
    · exact ((v.posValid_frame n).own (q := .POSn_POS) (by decide)).trans (whole.own (by decide))
    · refine congrArg (· ++ [posSrc n + 11]) (show v.mx.ev = s.mx.ev from ?_)
      rw [hv, hu]; rfl

/-- A frame of the interface, or one that the peer clocks, ends with what it decodes. -/
theorem ssiFrameEnd_ends {s : State} {n : PosId} (runs : s.posRuns n = true) (mode : s.posMode n = 2)
    (h : s.posSlave = true ∨ ∃ f, s.pos[n].frame = some f ∧ f.done = false) (bits : BitVec 40) (low : Bool) :
    let d := s.ssiDecode n bits low
    ∃ t, exec (.ssiFrameEnd n bits low) s = .next t ∧ t.flag F.POSn_STAT_BUSY n 0 = s.flag F.POSn_STAT_BUSY n 0 ∧
      t.pos[n].ssiOk = d.1 ∧ t.flag F.POSn_STAT_VALID n 0 = (d.1 && !s.posErr n && !s.pos[n].await) ∧ t.flag F.POSn_STAT_SSIERR n 0 = !d.1 ∧
      t.reg .POSn_POS n 0 = (if d.1 then BitVec.ofNat 32 d.2 else s.reg .POSn_POS n 0) ∧
      t.mx.ev = s.mx.ev ++ [if d.1 then posSrc n + 10 else posSrc n + 11] := by
  intro d
  obtain ⟨w, hw⟩ : ∃ w, w = s.unschedAll fun c => match c with
      | .ssiFrameEnd m _ _ => decide (m = n)
      | _ => false := ⟨_, rfl⟩
  obtain ⟨u, hu⟩ : ∃ u, u = w.modPos n fun p => { p with frame := p.frame.map fun f => { f with done := true } } := ⟨_, rfl⟩
  have own : u.pos[n] = { s.pos[n] with frame := s.pos[n].frame.map fun f => { f with done := true } } := by
    rw [hu, State.pos_modPos_same, hw]; rfl
  have flds : ∀ f : Fld, u.fld f n 0 = s.fld f n 0 := fun f => by rw [hu, hw]; rfl
  have decoded : u.ssiDecode n bits low = d := by rw [hu, hw]; rfl
  have go : (s.posRuns n && decide (s.posMode n = 2) && (s.posSlave || s.pos[n].frame.any fun f => !f.done)) = true := by
    rw [runs, mode]
    obtain slave | ⟨f, hf, hd⟩ := h
    · simp [slave]
    · simp only [hf, Option.any_some, hd]
      simp
  have next : exec (.ssiFrameEnd n bits low) s = .next (u.ssiEnd n d) := by
    change execSsiFrameEnd n bits low s = _
    rw [execSsiFrameEnd, if_pos go]
    extract_lets +onlyGivenNames w' u'
    have same : u' = u := by rw [hu, hw] <;> rfl
    rw [same, decoded]
    obtain ⟨good, x⟩ := d
    cases good <;> rfl
  obtain ⟨⟨busy, valid, err⟩, ok, pos, ev⟩ := State.ssiEnd_spec (s := u) (n := n) ((flds F.POSn_CFG_MODE).trans mode) d
  refine ⟨_, next, ?_, ok, ?_, err, ?_, ?_⟩
  · rw [busy, State.flag, flds, State.flag]
  · rw [valid, State.posErr_of (flds _) (flds _) (flds _), own]
  · rw [pos, show u.reg .POSn_POS n 0 = s.reg .POSn_POS n 0 by rw [hu, hw]; rfl]
  · rw [ev, show u.mx.ev = s.mx.ev by rw [hu, hw]; rfl]

/-- With no CRC and no Gray code the data bits are the position. -/
theorem State.ssiDecode_plain {s : State} {n : PosId} (crc : s.fld F.POSn_SSI_CRC_CRCLEN n 0 = 0)
    (gray : s.flag F.POSn_SSI_CFG_GRAY n 0 = false) (inv : s.flag F.POSn_SSI_CRC_INV n 0 = false) (bits : BitVec 40) (low : Bool) :
    s.ssiDecode n bits low = (!low, bits.toNat % 2 ^ s.fld F.POSn_SSI_CFG_LEN n 0) := by
  simp [State.ssiDecode, crc, gray, inv, Nat.mod_one]

/-! ## BUSY over the frame -/

/-- Levels in a mode that counts no edges only go on. -/
theorem State.posLevels_uncounted {s : State} {n : PosId} (h : s.posMode n ≠ 1) (lv : EncLv) : ∃ f : PosSt → PosSt,
    s.posLevels n lv = s.modPos n f ∧ ∀ p, (f p).frame = p.frame := by
  have quiet : ((s.modPos n fun p => { p with z := lv.z }).posMode n ≠ 1) := h
  unfold State.posLevels
  dsimp only
  rw [if_pos (by simp [quiet])]
  exact ⟨fun p => { p with z := lv.z, a := lv.a, b := lv.b }, State.modPos_modPos s n _ _, fun _ => rfl⟩

theorem State.posFilter_uncounted {s : State} {n : PosId} (h : s.posMode n ≠ 1) :
    (s.posFilter n).pos[n].frame = s.pos[n].frame ∧ (s.posFilter n).regs = s.regs := by
  unfold State.posFilter
  extract_lets sh s1 p f lv
  have kept : s1.pos[n].frame = s.pos[n].frame := (congrArg PosSt.frame (s.pos_modPos_same n _)).trans rfl
  split
  · exact ⟨kept, rfl⟩
  · obtain ⟨g, form, same⟩ := State.posLevels_uncounted (s := s1) h lv
    rw [form]
    exact ⟨by rw [State.pos_modPos_same, same, kept], rfl⟩

/-- Where the lc of a frame have passed, BUSY falls and the frame is over. -/
def State.ssiTick (s : State) (n : PosId) : State :=
  match s.pos[n].frame with
  | some f =>
    if f.start + (f.len + 1) * 2 * f.div ≤ s.now then
      (s.setFld F.POSn_STAT_BUSY n 0 0).modPos n fun p => { p with frame := none }
    else s
  | none => s

/-- The load of 0 at an index. -/
def State.posZero (s : State) (n : PosId) : State :=
  if s.pos[n].zrst then (s.modPos n fun p => { p with zrst := false }).posPut n 0 else s

/-- The emulated output's pins, and whether the condition of an index holds. -/
def State.posPins (s : State) (n : PosId) : State :=
  s.modPos n fun p => { p with encPin := p.enc, held := s.posIndexes n && p.z && s.posQual n }

theorem State.posTick_eq (s : State) (n : PosId) : s.posTick n = (((s.posPins n).posZero n).ssiTick n).posFilter n := rfl

theorem State.posZero_spec (s : State) (n : PosId) : State.posFrame [.POSn_POS] n s (s.posZero n) ∧
    (s.posZero n).pos[n].frame = s.pos[n].frame := by
  unfold State.posZero
  split
  · refine ⟨(s.modPos_posFrame _ n _).trans (State.posPut_posFrame _ (.head _) n 0), ?_⟩
    exact (congrArg PosSt.frame (s.pos_modPos_same n _)).trans rfl
  · exact ⟨.refl _ n s, rfl⟩

theorem State.posTick_busy {s : State} {n : PosId} (mode : s.posMode n ≠ 1) {f : SsiFrame} (hf : s.pos[n].frame = some f) :
    let past := f.start + (f.len + 1) * 2 * f.div ≤ s.now
    ((s.posTick n).flag F.POSn_STAT_BUSY n 0 = (if past then false else s.flag F.POSn_STAT_BUSY n 0)) ∧
    (s.posTick n).pos[n].frame = (if past then none else some f) := by
  dsimp only
  obtain ⟨u, hu⟩ : ∃ u, u = (s.posPins n).posZero n := ⟨_, rfl⟩
  obtain ⟨zero, frame⟩ := (s.posPins n).posZero_spec n
  have kept : State.posFrame [.POSn_POS] n s u := by
    rw [hu]; exact (s.modPos_posFrame _ n _).trans zero
  have framed : u.pos[n].frame = some f := by
    rw [hu, frame, ← hf]; exact (congrArg PosSt.frame (s.pos_modPos_same n _)).trans rfl
  have cfg : u.posMode n = s.posMode n := kept.fld (f := F.POSn_CFG_MODE) (by decide)
  have busy : u.flag F.POSn_STAT_BUSY n 0 = s.flag F.POSn_STAT_BUSY n 0 := kept.flag (f := F.POSn_STAT_BUSY) (by decide)
  have form : u.ssiTick n = if f.start + (f.len + 1) * 2 * f.div ≤ s.now then
      (u.setFld F.POSn_STAT_BUSY n 0 0).modPos n fun p => { p with frame := none } else u := by
    rw [State.ssiTick, framed, ← kept.now]
  rw [State.posTick_eq, ← hu, form]
  split
  · obtain ⟨fr, regs⟩ := State.posFilter_uncounted (s := (u.setFld F.POSn_STAT_BUSY n 0 0).modPos n fun p => { p with frame := none }) (n := n) (by
      change (u.setFld F.POSn_STAT_BUSY n 0 0).posMode n ≠ 1
      rw [State.posMode, (u.setFld_posFrame (rs := [.POSn_STAT]) (f := F.POSn_STAT_BUSY) (.head _) n 0).fld (f := F.POSn_CFG_MODE) (by decide)]
      rwa [← State.posMode, cfg])
    rw [fr, State.flag, State.fld_of_regs regs, State.pos_modPos_same]
    refine ⟨?_, rfl⟩
    change (State.fld (u.setFld F.POSn_STAT_BUSY n 0 0) F.POSn_STAT_BUSY n 0 != 0) = false
    rw [State.fld_setFld_same u F.POSn_STAT_BUSY n 0 0 (by decide)]
    rfl
  · obtain ⟨fr, regs⟩ := State.posFilter_uncounted (s := u) (n := n) (by rwa [cfg])
    rw [fr, State.flag, State.fld_of_regs regs, framed]
    exact ⟨busy, rfl⟩

/-! ## Sin/cos samples -/

theorem sincosSample_taken {s : State} {n : PosId} (runs : s.posRuns n = true) (mode : s.posMode n = 3) :
    ∃ t, exec (.sincosSample n) s = .next t ∧
      t.pos[n].samp = s.pos[n].samp ++ [⟨s.destWord (posDst n + 3), s.destWord (posDst n + 4), s.reg .POSn_SC_OFF n 0,
        s.reg .POSn_SC_GAIN n 0, s.reg .POSn_SC_PHASE n 0, s.reg .POSn_SC_AMP n 0⟩] ∧
      t.cal = s.cal ++ [(s.now + 6, .sincosResult n)] := by
  refine ⟨_, if_pos (by rw [runs, mode]; rfl), ?_, rfl⟩
  exact congrArg PosSt.samp (State.pos_modPos_same _ n _)

/-- A QERR, IDXERR or AMPERR leaves VALID 0. -/
theorem State.posValid_err {s : State} {n : PosId} (h : s.posErr n = true) : (s.posValid n).flag F.POSn_STAT_VALID n 0 = false := by
  rw [State.posValid_flag, State.posSound, h]
  rfl

/-- The amplitude of a sample lies within its limits. -/
def ScSample.inside (x : ScSample) : Prop :=
  let c := scVector x.off x.gain x.phase x.sin x.cos
  let amp2 := c.1 * c.1 + c.2.1 * c.2.1
  let lim (k : Nat) : Int := (k * k * 2 ^ 30 : Nat) * (c.2.2.1 * c.2.2.1)
  lim (getBits x.amp 15 0) ≤ amp2 ∧ amp2 ≤ lim (getBits x.amp 31 16)

/-- The angle of a sample. -/
def ScSample.angle (x : ScSample) (fresh : Nat) : Nat :=
  let c := scVector x.off x.gain x.phase x.sin x.cos
  ((angleBits (vecScale c.1 c.2.1).1 (vecScale c.1 c.2.1).2 17 0 + 1) / 2 + (Config.angleError fresh).val + 65535) % 65536

section
variable {s : State} {n : PosId} (runs : s.posRuns n = true) (mode : s.posMode n = 3) {x : ScSample} {rest : List ScSample}
  (hx : s.pos[n].samp = x :: rest)
include runs mode hx

theorem sincosResult_outside (out : ¬ ScSample.inside x) : ∃ t, exec (.sincosResult n) s = .next t ∧ t.flag F.POSn_STAT_AMPERR n 0 = true ∧
    t.flag F.POSn_STAT_VALID n 0 = false ∧ t.reg .POSn_POS n 0 = s.reg .POSn_POS n 0 ∧ t.pos[n].samp = rest := by
  obtain ⟨u, hu⟩ : ∃ u, u = s.modPos n fun p => { p with samp := rest } := ⟨_, rfl⟩
  obtain ⟨v, hv⟩ : ∃ v, v = (u.raiseFld F.POSn_STAT_AMPERR n 0 1).bump F.POSn_ERR_CNT_SIG n 0 := ⟨_, rfl⟩
  have amp : v.flag F.POSn_STAT_AMPERR n 0 = true := by
    rw [hv, State.flag, (State.bump_posFrame (rs := [.POSn_ERR_CNT]) _ (f := F.POSn_ERR_CNT_SIG) (.head _) n).fld (f := F.POSn_STAT_AMPERR) (by decide),
      State.fld_raiseFld_same u F.POSn_STAT_AMPERR n 0 1 (by decide)]
    rfl
  have frame : State.posFrame [.POSn_STAT, .POSn_ERR_CNT] n s v := by
    rw [hv]
    refine State.posFrame.trans (t := u) (by rw [hu]; exact s.modPos_posFrame _ n _) ?_
    exact (u.raiseFld_posFrame (f := F.POSn_STAT_AMPERR) (.head _) n 1).trans
      (State.bump_posFrame _ (f := F.POSn_ERR_CNT_SIG) (.tail _ (.head _)) n)
  refine ⟨v.posValid n, ?_, ?_, State.posValid_err (by rw [State.posErr, amp, Bool.or_true]), ?_, ?_⟩
  · change execSincosResult n s = _
    unfold execSincosResult
    rw [hx]
    dsimp only
    rw [← hu, if_pos (show (u.posRuns n && decide (u.posMode n = 3)) = true by
      rw [hu]; exact (congrArg₂ (· && ·) runs (decide_eq_true mode))), if_pos ?_, hv]
    rcases h : scVector x.off x.gain x.phase x.sin x.cos with ⟨c1, c2, c3, c4⟩
    simp only [ScSample.inside, h, not_and_or, not_le] at out
    exact out
  · rw [State.flag, State.posValid_fld v n (f := F.POSn_STAT_AMPERR) rfl (by decide) (by decide)]
    exact amp
  · exact ((v.posValid_frame n).own (q := .POSn_POS) (by decide)).trans (frame.own (by decide))
  · refine (congrArg PosSt.samp (show (v.posValid n).pos[n] = u.pos[n] by rw [hv]; rfl)).trans ?_
    rw [hu, State.pos_modPos_same]

theorem sincosResult_inside (ins : ScSample.inside x) (quad : s.pos[n].quad = some (ScSample.angle x s.fresh / 16384))
    (untouched : s.marked (RegName.POSn_POS.addr n 0) false = false) : ∃ t, exec (.sincosResult n) s = .next t ∧
      (t.reg .POSn_POS n 0).toNat = getBits (s.reg .POSn_POS n 0) 31 16 * 65536 + ScSample.angle x s.fresh ∧ t.pos[n].samp = rest := by
  obtain ⟨ang, hang⟩ : ∃ ang, ang = ScSample.angle x s.fresh := ⟨_, rfl⟩
  have small : ang < 65536 := by rw [hang]; exact Nat.mod_lt _ (by decide)
  rw [← hang] at quad ⊢
  obtain ⟨u, hu⟩ : ∃ u, u = s.modPos n fun p => { p with samp := rest } := ⟨_, rfl⟩
  obtain ⟨v, hv⟩ : ∃ v, v = u.draw.modPos n fun p => { p with quad := some (ang / 16384) } := ⟨_, rfl⟩
  obtain ⟨w, hw⟩ : ∃ w, w = BitVec.ofNat 32 (getBits (v.reg .POSn_POS n 0) 31 16 * 65536 + ang) := ⟨_, rfl⟩
  have own : u.pos[n] = { s.pos[n] with samp := rest } := by rw [hu, State.pos_modPos_same]
  have next : exec (.sincosResult n) s = .next (v.posMove n w) := by
    change execSincosResult n s = _
    unfold execSincosResult
    rw [hx]
    dsimp only
    rw [← hu, if_pos (show (u.posRuns n && decide (u.posMode n = 3)) = true by
      rw [hu]; exact (congrArg₂ (· && ·) runs (decide_eq_true mode))), if_neg ?_]
    · rw [show ((angleBits (vecScale (scVector x.off x.gain x.phase x.sin x.cos).1 (scVector x.off x.gain x.phase x.sin x.cos).2.1).1
        (vecScale (scVector x.off x.gain x.phase x.sin x.cos).1 (scVector x.off x.gain x.phase x.sin x.cos).2.1).2 17 0 + 1) / 2 +
        (Config.angleError u.fresh).val + 65535) % 65536 = ang by rw [hang, hu]; rfl, ← hv]
      have old : u.draw.pos[n].quad = some (ang / 16384) := by
        rw [show u.draw.pos[n] = u.pos[n] from rfl, own]; exact quad
      have up : (decide (some (ang / 16384) = some 3) && decide (ang / 16384 = 0)) = false := by
        by_cases h : ang / 16384 = 0 <;> simp [h]
      have down : (decide (some (ang / 16384) = some 0) && decide (ang / 16384 = 3)) = false := by
        by_cases h : ang / 16384 = 3 <;> simp [h]
      rw [old, up, down]
      dsimp only
      rw [if_neg (by omega), hw]
      rfl
    · rcases h : scVector x.off x.gain x.phase x.sin x.cos with ⟨c1, c2, c3, c4⟩
      simp only [ScSample.inside, h] at ins
      exact not_or.mpr ⟨not_lt.mpr ins.1, not_lt.mpr ins.2⟩
  have regs : v.reg .POSn_POS n 0 = s.reg .POSn_POS n 0 := by rw [hv, hu]; rfl
  have top : getBits (s.reg .POSn_POS n 0) 31 16 < 65536 := getBits_lt _ _ _
  obtain ⟨-, reg, -, b, pos⟩ := v.posMove_spec n w (by rw [hv, hu]; exact untouched)
  refine ⟨_, next, ?_, ?_⟩
  · rw [reg, hw, regs, BitVec.toNat_ofNat, Nat.mod_eq_of_lt (by omega)]
  · rw [pos, hv, State.pos_modPos_same, show u.draw.pos[n] = u.pos[n] from rfl, own]
end

/-! ## Speed windows -/

theorem speedWindow_closes {s : State} {n : PosId} (runs : s.posRuns n = true) (win : s.pos[n].win < s.now) (late : s.isLate = true) :
    ∃ t v, exec (.speedWindow n) s = .next t ∧ t.pos[n].win = s.now ∧ t.pos[n].spd = s.pos[n].spd ++ [v] ∧
      t.cal = s.cal ++ [(s.now + 4, .speedResult n)] ∧
      (s.posMode n = 1 → s.fld F.POSn_SPD_X_XHI n 0 ≤ (s.pos[n].cnt - s.pos[n].wcnt).natAbs → t.flag F.POSn_STAT_METHOD n 0 = true ∧
        v = BitVec.ofNat 32 (b32.ofRatio (decide (s.pos[n].cnt < s.pos[n].wcnt)) ((s.pos[n].cnt - s.pos[n].wcnt).natAbs * 400000000)
          (s.now - s.pos[n].win))) := by
  obtain ⟨m, hm⟩ : ∃ m, m = if s.posMode n = 2 ∨ s.fld F.POSn_SPD_X_XHI n 0 ≤ (s.posDelta n).natAbs then true
      else if (s.posDelta n).natAbs ≤ s.fld F.POSn_SPD_X_XLO n 0 then false else s.flag F.POSn_STAT_METHOD n 0 := ⟨_, rfl⟩
  obtain ⟨v, hv⟩ : ∃ v, v = if m then b32.ofRatio (decide (s.posDelta n < 0))
      ((s.posDelta n).natAbs * (if s.posMode n = 3 then 65536 * lcPerSec else lcPerSec)) (s.now - s.pos[n].win)
    else b32.ofRatio (s.posPeriod n).1 (if s.posMode n = 3 then 65536 * lcPerSec else lcPerSec) (s.posPeriod n).2 := ⟨_, rfl⟩
  obtain ⟨u, hu⟩ : ∃ u, u = s.setFld F.POSn_STAT_METHOD n 0 (if m then 1 else 0) := ⟨_, rfl⟩
  obtain ⟨w, hw⟩ : ∃ w, w = u.modPos n fun p =>
    { p with win := s.now, wcnt := p.cnt, goodB := p.good, goodA := none, spd := p.spd ++ [BitVec.ofNat 32 v] } := ⟨_, rfl⟩
  have own : w.pos[n].win = s.now ∧ w.pos[n].spd = s.pos[n].spd ++ [BitVec.ofNat 32 v] := by
    rw [hw, State.pos_modPos_same, hu]
    exact ⟨rfl, rfl⟩
  have next : exec (.speedWindow n) s = .next (w.schedMore 4 (.speedResult n)) := by
    change execSpeedWindow n s = _
    unfold execSpeedWindow
    rw [if_neg (by rw [late]; decide), if_pos (by rw [runs]; simpa using win), hw, hu, hv, hm]
    rfl
  refine ⟨_, BitVec.ofNat 32 v, next, own.1, own.2, by rw [hw, hu]; rfl, fun mode big => ?_⟩
  have delta : s.posDelta n = s.pos[n].cnt - s.pos[n].wcnt := by
    unfold State.posDelta
    dsimp only
    rw [mode]
    rfl
  have method : m = true := by rw [hm, delta, if_pos (.inr big)]
  refine ⟨?_, ?_⟩
  · change (State.fld w F.POSn_STAT_METHOD n 0 != 0) = true
    rw [show w.fld F.POSn_STAT_METHOD n 0 = u.fld F.POSn_STAT_METHOD n 0 by rw [hw]; rfl, hu, method,
      State.fld_setFld_same s F.POSn_STAT_METHOD n 0 _ (by decide)]
    rfl
  · rw [hv, method, delta, mode, if_pos rfl, if_neg (by decide), lcPerSec,
      show decide (s.pos[n].cnt - s.pos[n].wcnt < 0) = decide (s.pos[n].cnt < s.pos[n].wcnt) from decide_eq_decide.mpr (by omega)]

theorem speedResult_lands {s : State} {n : PosId} (runs : s.posRuns n = true) {v : Word} {rest : List Word} (h : s.pos[n].spd = v :: rest) :
    exec (.speedResult n) s = .next
      ((((s.modPos n fun y => { y with spd := rest }).setReg .POSn_SPEED n 0 v).raiseData (posSrc n + 1) v).raiseEv (posSrc n + 9)) := by
  change execSpeedResult n s = _
  unfold execSpeedResult
  rw [h]
  exact if_pos runs

/-- Settles O36. -/
theorem ssiSinCosSpeed : Obligations.SsiSinCosSpeed := by
  intro s r n bits low live en
  have runs : s.fld F.POSn_CFG_MODE n 0 ≠ 0 → s.posRuns n = true := State.posRuns_of live en
  refine ⟨fun mode lead => ?_, fun mode h => ?_, fun mode f hf => ?_, fun _ crc gray inv => State.ssiDecode_plain crc gray inv bits low,
    fun busy => ?_, fun mode => ?_, fun early => ?_, fun mode win late => ?_, fun v rest mode h => speedResult_lands (runs mode) h⟩
  · have run := runs (by rw [mode]; decide)
    refine ⟨ssiRequestEvent_asks run mode lead, fun h => ?_⟩
    refine (ssiBusyWrite_asks h run mode lead).trans ?_
    obtain ⟨x, y, form⟩ := s.opened_only r.master
    rw [form]
    rfl
  · exact ssiFrameEnd_ends (runs (by rw [mode]; decide)) mode h bits low
  · exact State.posTick_busy (by rw [State.posMode, mode]; decide) hf
  · change execMonoflopEnd n s = _
    rw [execMonoflopEnd, busy]
    rfl
  · have run := runs (by rw [mode]; decide)
    refine ⟨sincosSample_taken run mode, fun x rest hx => ⟨fun out => sincosResult_outside run mode hx ?_, fun lo hi quad untouched =>
      sincosResult_inside run mode hx ⟨lo, hi⟩ quad untouched⟩⟩
    exact fun ins => out.elim (not_lt.mpr ins.1) (not_lt.mpr ins.2)
  · change execSpeedWindow n s = _
    rw [execSpeedWindow, early]
    rfl
  · exact speedWindow_closes (runs mode) win late

end Sys2Proof.Machine
end

