-- ==== Sys2Proof/Proofs/PosCounting.lean ====
section
/-! PROOF. Quadrature counting and the commands of a position interface (R161 to R172). -/

namespace Sys2Proof.Machine

/-! ## Filters -/

/-- The bits of a pin's history that its filter looks at. -/
theorem filter_testBit (h : BitVec 18) (f i : Nat) :
    (h.toNat / 4 % 2 ^ (f + 1)).testBit i = (decide (i < f + 1) && h.getLsbD (2 + i)) := by
  rw [Nat.testBit_mod_two_pow, show (4 : Nat) = 2 ^ 2 from rfl, Nat.testBit_div_two_pow, Nat.add_comm i 2]
  rfl

/-- A level that stood long enough passes. -/
theorem filtered_steady {h : BitVec 18} {f : Nat} {x : Bool} (steady : ∀ i, i ≤ f → h.getLsbD (2 + i) = x) (cur : Bool) :
    filtered h f cur = x := by
  unfold filtered
  dsimp only
  cases x with
  | false =>
    refine if_pos (Nat.eq_of_testBit_eq fun i => ?_)
    rw [filter_testBit, Nat.zero_testBit]
    by_cases hi : i < f + 1
    · rw [steady i (by omega), Bool.and_false]
    · simp [hi]
  | true =>
    have ones : h.toNat / 4 % 2 ^ (f + 1) = 2 ^ (f + 1) - 1 := Nat.eq_of_testBit_eq fun i => by
      rw [filter_testBit, Nat.testBit_two_pow_sub_one]
      by_cases hi : i < f + 1
      · rw [steady i (by omega), Bool.and_true]
      · simp [hi]
    have pos : 2 ^ (f + 1) - 1 ≠ 0 := by
      have := Nat.one_lt_two_pow (n := f + 1) (by omega)
      omega
    rw [ones, if_neg pos, if_pos rfl]

/-- A level that changed within the filter's time does not. -/
theorem filtered_changing {h : BitVec 18} {f i j : Nat} (hi : i ≤ f) (hj : j ≤ f) (ne : h.getLsbD (2 + i) ≠ h.getLsbD (2 + j)) (cur : Bool) :
    filtered h f cur = cur := by
  have bit : ∀ k, k ≤ f → (h.toNat / 4 % 2 ^ (f + 1)).testBit k = h.getLsbD (2 + k) := fun k hk => by
    rw [filter_testBit, decide_eq_true (by omega), Bool.true_and]
  have same : (∀ k, k ≤ f → (h.toNat / 4 % 2 ^ (f + 1)).testBit k = (h.toNat / 4 % 2 ^ (f + 1)).testBit f) → False := fun all => by
    refine ne ?_
    rw [← bit i hi, ← bit j hj, all i hi, all j hj]
  unfold filtered
  dsimp only
  rw [if_neg fun zero => same fun k _ => by rw [zero, Nat.zero_testBit, Nat.zero_testBit],
    if_neg fun ones => same fun k hk => by
      rw [ones, Nat.testBit_two_pow_sub_one, Nat.testBit_two_pow_sub_one, decide_eq_true (by omega), decide_eq_true (by omega)]]

theorem steadyPin_getLsbD (b : Bool) {i : Nat} (h : i < 18) : (steadyPin b).getLsbD i = b := by
  cases b with
  | false => exact BitVec.getLsbD_zero
  | true => rw [steadyPin, if_pos rfl, BitVec.getLsbD_allOnes, decide_eq_true h]

theorem steadyPin_shift (b : Bool) : steadyPin b <<< 1 ||| (steadyPin b &&& 1) = steadyPin b := by
  cases b <;> decide

theorem filtered_steadyPin (b : Bool) {f : Nat} (h : f < 16) (cur : Bool) : filtered (steadyPin b) f cur = b :=
  filtered_steady (fun i hi => steadyPin_getLsbD b (by omega)) cur

/-- The pin of this lc enters its history. -/
theorem pinned_bit (h : BitVec 18) (b : Bool) : ((h &&& ~~~1) ||| (if b then 1 else 0)).getLsbD 0 = b := by
  cases b <;> simp

/-! ## Enabling and stopping -/

theorem orTop_keeps (v : Word) (hi lo : Nat) (h : hi < 31) : getBits (v ||| 0x80000000) hi lo = getBits v hi lo := by
  refine Nat.eq_of_testBit_eq fun k => ?_
  rw [getBits_testBit, getBits_testBit, BitVec.getLsbD_or]
  by_cases hk : k < hi + 1 - lo
  · have : (0x80000000 : Word).getLsbD (lo + k) = false := by
      rw [show (0x80000000 : Word) = BitVec.twoPow 32 31 from rfl, BitVec.getLsbD_twoPow]
      simp; omega
    rw [this, Bool.or_false]
  · simp [hk]

theorem andLow_keeps (v : Word) (hi lo : Nat) (h : hi < 31) : getBits (v &&& 0x7FFFFFFF) hi lo = getBits v hi lo := by
  refine Nat.eq_of_testBit_eq fun k => ?_
  rw [getBits_testBit, getBits_testBit, BitVec.getLsbD_and]
  by_cases hk : k < hi + 1 - lo
  · have : (0x7FFFFFFF : Word).getLsbD (lo + k) = true := by
      rw [show (0x7FFFFFFF : Word) = (BitVec.allOnes 31).setWidth 32 from rfl, BitVec.getLsbD_setWidth, BitVec.getLsbD_allOnes]
      simp; omega
    rw [this, Bool.and_true]
  · simp [hk]

/-- A write to POSn_CFG outside Loading, DWELL and MULT accepted. -/
theorem State.posCfgWrite_eq {s : State} {n : PosId} {v : Word} (mode : s.mode ≠ .loading) (dwell : getBits v 23 16 ≠ 0)
    (mult : getBits v 3 2 ≠ 3) : s.posCfgWrite n v =
      if v.getLsbD 31 then (if s.flag F.POSn_CFG_EN n 0 then s.writeReg .POSn_CFG n 0 v else (s.writeReg .POSn_CFG n 0 v).posEnable n)
      else (s.writeReg .POSn_CFG n 0 v).posStop n := by
  have kept : (s.writeReg .POSn_CFG n 0 v).mode = s.mode :=
    (s.setReg_posFrame (rs := [.POSn_CFG]) (.head _) n _).mode (by decide)
  unfold State.posCfgWrite
  dsimp only
  rw [if_neg dwell, if_neg mult, if_neg (by rw [kept]; exact mode)]

section
variable {s : State} {r : Req} {n : PosId} {v : Word} (mode : s.mode ≠ .loading) (h : s.admits r .write .POSn_CFG n 0)
  (dwell : getBits v 23 16 ≠ 0) (mult : getBits v 3 2 ≠ 3)
include mode h dwell mult

theorem posEnable_next :
    let u := (s.opened r.master).writeReg .POSn_CFG n 0 (v ||| 0x80000000)
    exec (.posEnable r n v) s = .next (if s.flag F.POSn_CFG_EN n 0 then u else u.posEnable n) := by
  change regCmd r .write .POSn_CFG n 0 (fun s => s.posCfgWrite n (v ||| 0x80000000)) s = _
  rw [regCmd_admitted h, State.posCfgWrite_eq (by rw [State.mode_opened]; exact mode) (by rw [orTop_keeps _ _ _ (by decide)]; exact dwell)
    (by rw [orTop_keeps _ _ _ (by decide)]; exact mult), if_pos (by rw [BitVec.getLsbD_or]; simp)]
  obtain ⟨x, y, form⟩ := s.opened_only r.master
  rw [form]
  rfl

theorem posDisable_next : ∃ t, exec (.posDisable r n v) s = .next t ∧ t.reg .POSn_POS n 0 = s.reg .POSn_POS n 0 ∧
    t.flag F.POSn_CFG_EN n 0 = false ∧ ∀ e ∈ t.cal, posTimed n e.2 = false := by
  obtain ⟨a, ha⟩ : ∃ a, a = s.opened r.master := ⟨_, rfl⟩
  obtain ⟨u, hu⟩ : ∃ u, u = a.writeReg .POSn_CFG n 0 (v &&& 0x7FFFFFFF) := ⟨_, rfl⟩
  have next : exec (.posDisable r n v) s = .next (u.posStop n) := by
    change regCmd r .write .POSn_CFG n 0 (fun s => s.posCfgWrite n (v &&& 0x7FFFFFFF)) s = _
    rw [regCmd_admitted h, State.posCfgWrite_eq (by rw [State.mode_opened]; exact mode) (by rw [andLow_keeps _ _ _ (by decide)]; exact dwell)
      (by rw [andLow_keeps _ _ _ (by decide)]; exact mult), if_neg (by rw [BitVec.getLsbD_and]; simp), hu, ha]
  have off : u.fld F.POSn_CFG_EN n 0 = 0 := by
    rw [hu]
    refine (a.fld_writeReg_rw (f := F.POSn_CFG_EN) (r := 0) [] _ ⟨rfl, by decide, by decide⟩ n 0 (v &&& 0x7FFFFFFF)).trans ?_
    change getBits (v &&& 0x7FFFFFFF) 31 31 = 0
    have := flag_bit (v &&& 0x7FFFFFFF) 31
    rw [BitVec.getLsbD_and] at this
    simpa using this
  refine ⟨_, next, ?_, ?_, fun e he => ?_⟩
  · change u.reg .POSn_POS n 0 = _
    rw [hu, State.reg_writeReg_ne a _ (RegName.addr_ne_of_apart (by decide) n 0), ha]
    obtain ⟨x, y, form⟩ := s.opened_only r.master
    rw [form]; rfl
  · change (u.fld F.POSn_CFG_EN n 0 != 0) = false
    rw [off]; rfl
  · have kept := (List.mem_filter.mp he).2
    simpa using kept
end

/-- An interface as it is enabled: of its state its levels, their history and its outputs stand. -/
def PosSt.enabled (p : PosSt) (now : Nat) (await : Bool) : PosSt :=
  { PosSt.init with
    a := p.a, b := p.b, z := p.z, ha := p.ha, hb := p.hb, hz := p.hz, encPin := p.encPin, enc := p.enc, win := now, await := await }

/-- Enabling, before VALID is derived. -/
def State.posFresh (s : State) (n : PosId) : State :=
  let s := s.modPos n fun p => p.enabled s.now (s.flag F.POSn_CFG_REFREQ n 0)
  ((((s.setFld F.POSn_STAT_REF n 0 0).setFld F.POSn_STAT_METHOD n 0 0).setFld F.POSn_STAT_BUSY n 0 0).posPut n 0).setReg .POSn_SPEED n 0 0

theorem State.posEnable_eq (s : State) (n : PosId) : s.posEnable n = (s.posFresh n).posValid n := rfl

theorem State.posFresh_spec (s : State) (n : PosId) :
    State.posFrame [.POSn_STAT, .POSn_POS, .POSn_SPEED] n s (s.posFresh n) ∧
    (s.posFresh n).reg .POSn_POS n 0 = 0 ∧ (s.posFresh n).reg .POSn_SPEED n 0 = 0 ∧
    (s.posFresh n).pos[n] = s.pos[n].enabled s.now (s.flag F.POSn_CFG_REFREQ n 0) ∧
    (∀ m : PosId, m ≠ n → (s.posFresh n).pos[m] = s.pos[m]) ∧ (s.posFresh n).posErr n = s.posErr n ∧
    ∀ f ∈ [F.POSn_STAT_REF, F.POSn_STAT_METHOD, F.POSn_STAT_BUSY], (s.posFresh n).fld f n 0 = 0 := by
  obtain ⟨u, hu⟩ : ∃ u, u = s.modPos n fun p => p.enabled s.now (s.flag F.POSn_CFG_REFREQ n 0) := ⟨_, rfl⟩
  obtain ⟨r, hr⟩ : ∃ r, r = u.setFld F.POSn_STAT_REF n 0 0 := ⟨_, rfl⟩
  obtain ⟨m, hm⟩ : ∃ m, m = r.setFld F.POSn_STAT_METHOD n 0 0 := ⟨_, rfl⟩
  obtain ⟨b, hb⟩ : ∃ b, b = m.setFld F.POSn_STAT_BUSY n 0 0 := ⟨_, rfl⟩
  obtain ⟨w, hw⟩ : ∃ w, w = b.posPut n 0 := ⟨_, rfl⟩
  have form : s.posFresh n = w.setReg .POSn_SPEED n 0 0 := by rw [hw, hb, hm, hr, hu]; rfl
  have pos : w.pos = u.pos := by rw [hw, hb, hm, hr]; rfl
  have shown : State.posFrame [.POSn_POS, .POSn_SPEED] n b (w.setReg .POSn_SPEED n 0 0) := by
    rw [hw]
    exact (State.posPut_posFrame _ (.head _) n 0).trans (State.setReg_posFrame _ (.tail _ (.head _)) n 0)
  have stat : State.posFrame [.POSn_STAT] n s b := by
    rw [hb, hm, hr, hu]
    exact (s.modPos_posFrame _ n _).trans ((State.setFld_posFrame _ (f := F.POSn_STAT_REF) (.head _) n 0).trans
      ((State.setFld_posFrame _ (f := F.POSn_STAT_METHOD) (.head _) n 0).trans (State.setFld_posFrame _ (f := F.POSn_STAT_BUSY) (.head _) n 0)))
  rw [form]
  refine ⟨(stat.mono fun _ h => List.mem_append_left [.POSn_POS, .POSn_SPEED] h).trans (shown.mono fun _ h => .tail _ h),
    ?_, State.reg_setReg_same .., ?_, fun q hq => ?_, ?_, fun f hf => ?_⟩
  · rw [State.reg_setReg_ne w _ (RegName.addr_ne_of_apart (by decide) n 0), hw]
    exact (b.posPut_pos n 0).1
  · change w.pos[n] = _
    rw [pos, hu, State.pos_modPos_same]
  · change w.pos[q] = _
    rw [pos, hu, State.pos_modPos_ne _ _ _ hq]
  · rw [State.posErr_of_reg (shown.own (by decide)), hb, State.posErr_setFld (f := F.POSn_STAT_BUSY) rfl (by decide) (.inr (by decide)), hm,
      State.posErr_setFld (f := F.POSn_STAT_METHOD) rfl (by decide) (.inl (by decide)), hr,
      State.posErr_setFld (f := F.POSn_STAT_REF) rfl (by decide) (.inl (by decide)), hu]
    rfl
  · have same : (w.setReg .POSn_SPEED n 0 0).fld f n 0 = b.fld f n 0 := by
      refine shown.fld ?_
      obtain rfl | rfl | rfl : f = _ ∨ f = _ ∨ f = _ := by simpa using hf
      all_goals decide
    rw [same, hb]
    obtain rfl | rfl | rfl : f = _ ∨ f = _ ∨ f = _ := by simpa using hf
    · rw [State.fld_setFld_apart (f := F.POSn_STAT_BUSY) (g := F.POSn_STAT_REF) m _ rfl (by decide) (by decide) (.inl (by decide)), hm,
        State.fld_setFld_apart (f := F.POSn_STAT_METHOD) (g := F.POSn_STAT_REF) r _ rfl (by decide) (by decide) (.inr (by decide)), hr,
        State.fld_setFld_same u F.POSn_STAT_REF n 0 0 (by decide)]
      rfl
    · rw [State.fld_setFld_apart (f := F.POSn_STAT_BUSY) (g := F.POSn_STAT_METHOD) m _ rfl (by decide) (by decide) (.inl (by decide)), hm,
        State.fld_setFld_same r F.POSn_STAT_METHOD n 0 0 (by decide)]
      rfl
    · rw [State.fld_setFld_same m F.POSn_STAT_BUSY n 0 0 (by decide)]
      rfl

theorem State.posEnable_spec (s : State) (n : PosId) :
    let t := s.posEnable n
    let p := s.pos[n]
    t.reg .POSn_POS n 0 = 0 ∧ t.reg .POSn_SPEED n 0 = 0 ∧ t.pos[n].cnt = 0 ∧ t.pos[n].idx = none ∧ t.pos[n].a = p.a ∧
    t.pos[n].ha = p.ha ∧ t.flag F.POSn_STAT_REF n 0 = false ∧ t.flag F.POSn_STAT_BUSY n 0 = false ∧
    t.flag F.POSn_STAT_METHOD n 0 = false ∧ (∀ m : PosId, m ≠ n → t.pos[m] = s.pos[m]) ∧
    t.flag F.POSn_STAT_VALID n 0 = (!s.posErr n && !s.flag F.POSn_CFG_REFREQ n 0 && decide (s.fld F.POSn_CFG_MODE n 0 ≠ 2)) ∧
    t.mx.lv.get (posSrc n + 2) false = t.flag F.POSn_STAT_VALID n 0 := by
  dsimp only
  rw [State.posEnable_eq]
  obtain ⟨frame, pos, speed, own, others, err, zero⟩ := s.posFresh_spec n
  obtain ⟨u, hu⟩ : ∃ u, u = s.posFresh n := ⟨_, rfl⟩
  rw [← hu] at frame pos speed own others err zero ⊢
  have valid := u.posValid_frame n
  have off : ∀ f ∈ [F.POSn_STAT_REF, F.POSn_STAT_METHOD, F.POSn_STAT_BUSY], (u.posValid n).flag f n 0 = false := fun f hf => by
    have place : f.reg = .POSn_STAT ∧ f.hi < 32 ∧ 0 < f.lo := by
      obtain rfl | rfl | rfl : f = _ ∨ f = _ ∨ f = _ := by simpa using hf
      all_goals decide
    rw [State.flag, State.posValid_fld u n place.1 place.2.1 place.2.2, zero f hf]
    rfl
  have own' : (u.posValid n).pos[n] = s.pos[n].enabled s.now (s.flag F.POSn_CFG_REFREQ n 0) := own
  rw [own']
  refine ⟨(valid.own (by decide)).trans pos, (valid.own (by decide)).trans speed, rfl, rfl, rfl, rfl, off _ (by simp), off _ (by simp),
    off _ (by simp), others, ?_, (u.posValid_level n).trans (u.posValid_flag n).symm⟩
  rw [State.posValid_flag, State.posSound, err, own, State.posMode, frame.fld (f := F.POSn_CFG_MODE) (by decide)]
  simp [PosSt.enabled, PosSt.init]

/-! ## Edges -/

theorem quadEdge_pins (s : State) (n : PosId) (a b z : Bool) :
    ∃ t, exec (.quadEdge n .pins ⟨a, b, z⟩) s = .next t ∧ t.regs = s.regs ∧ t.pos[n].a = s.pos[n].a ∧ t.pos[n].b = s.pos[n].b ∧
      t.pos[n].ha.getLsbD 0 = a ∧ t.pos[n].hb.getLsbD 0 = b ∧ t.pos[n].hz.getLsbD 0 = z := by
  refine ⟨_, rfl, rfl, ?_⟩
  rw [State.pos_modPos_same]
  exact ⟨rfl, rfl, pinned_bit _ a, pinned_bit _ b, pinned_bit _ z⟩

/-- A count `d` on, which leaves levels, what the edges of the lc started from, and when the last QERR was. -/
structure PosSt.counts (d : Int) (p q : PosSt) : Prop where
  a : q.a = p.a
  b : q.b = p.b
  z : q.z = p.z
  cnt : q.cnt = p.cnt + d
  qerrAt : q.qerrAt = p.qerrAt
  was : q.was = p.was

theorem State.posQerr_spec (s : State) (n : PosId) :
    State.posFrame [.POSn_STAT, .POSn_ERR_CNT] n s (s.posQerr n) ∧
    (s.posQerr n).pos[n] = { s.pos[n] with qerrAt := some s.now } ∧
    (s.posQerr n).flag F.POSn_STAT_QERR n 0 = true ∧ (s.posQerr n).flag F.POSn_STAT_VALID n 0 = false ∧
    (s.posQerr n).mx.ev = s.mx.ev ++ [posSrc n + 6] := by
  obtain ⟨u, hu⟩ : ∃ u, u = s.modPos n fun p => { p with qerrAt := some s.now } := ⟨_, rfl⟩
  obtain ⟨v, hv⟩ : ∃ v, v = (u.raiseFld F.POSn_STAT_QERR n 0 1).bump F.POSn_ERR_CNT_SIG n 0 := ⟨_, rfl⟩
  have form : s.posQerr n = (v.raiseEv (posSrc n + 6)).posValid n := by rw [hv, hu]; rfl
  have frame : State.posFrame [.POSn_STAT, .POSn_ERR_CNT] n s v := by
    rw [hv, hu]
    exact (s.modPos_posFrame _ n _).trans ((State.raiseFld_posFrame _ (f := F.POSn_STAT_QERR) (.head _) n 1).trans
      (State.bump_posFrame _ (f := F.POSn_ERR_CNT_SIG) (.tail _ (.head _)) n))
  have qerr : v.flag F.POSn_STAT_QERR n 0 = true := by
    rw [hv, State.flag, (State.bump_posFrame (rs := [.POSn_ERR_CNT]) _ (f := F.POSn_ERR_CNT_SIG) (.head _) n).fld (f := F.POSn_STAT_QERR) (by decide),
      State.fld_raiseFld_same u F.POSn_STAT_QERR n 0 1 (by decide)]
    rfl
  have err : (v.raiseEv (posSrc n + 6)).posErr n = true := by
    change (v.flag F.POSn_STAT_QERR n 0 || _ || _) = true
    rw [qerr]; rfl
  rw [form]
  refine ⟨(frame.trans (v.raiseEv_posFrame _ n _)).trans ((State.posValid_frame _ n).mono fun q h => by rw [List.mem_singleton.mp h]; exact .head _),
    ?_, ?_, State.posValid_err err, ?_⟩
  · change v.pos[n] = _
    rw [hv]
    exact (show _ = u.pos[n] from rfl).trans (by rw [hu, State.pos_modPos_same])
  · rw [State.flag, State.posValid_fld _ n (f := F.POSn_STAT_QERR) rfl (by decide) (by decide)]
    exact qerr
  · refine congrArg (· ++ [posSrc n + 6]) (show v.mx.ev = s.mx.ev from ?_)
    rw [hv, hu]; rfl

theorem State.posDirection_spec (s : State) (n : PosId) (fwd : Bool) :
    State.posFrame [.POSn_STAT] n s (s.posDirection n fwd) ∧ (∃ r, (s.posDirection n fwd).pos[n] = { s.pos[n] with run := r }) ∧
    (s.posDirection n fwd).mx.word = s.mx.word := by
  obtain ⟨k, hk⟩ : ∃ k, k = if s.pos[n].run.1 = fwd then s.pos[n].run.2 + 1 else 1 := ⟨_, rfl⟩
  obtain ⟨u, hu⟩ : ∃ u, u = s.modPos n fun p => { p with run := (fwd, k) } := ⟨_, rfl⟩
  have form : s.posDirection n fwd = if u.flag F.POSn_STAT_DIR n 0 = fwd ∧ u.fld F.POSn_CFG_DWELL n 0 ≤ k then
      ((u.setFld F.POSn_STAT_DIR n 0 (if fwd then 0 else 1)).setLv (posSrc n + 3) (!fwd)).raiseEv (posSrc n + 7) else u := by
    rw [hu, hk]; rfl
  have one : State.posFrame [.POSn_STAT] n s u := hu ▸ s.modPos_posFrame _ n _
  have own : u.pos[n] = { s.pos[n] with run := (fwd, k) } := by rw [hu, State.pos_modPos_same]
  rw [form]
  split
  · exact ⟨one.trans ((u.setFld_posFrame (f := F.POSn_STAT_DIR) (.head _) n _).trans ((State.setLv_posFrame _ _ n _ _).trans
      (State.raiseEv_posFrame _ _ n _))), ⟨_, own⟩, by rw [hu]; rfl⟩
  · exact ⟨one, ⟨_, own⟩, by rw [hu]; rfl⟩

theorem State.posDivide_spec (s : State) (n : PosId) (fwd : Bool) :
    State.posFrame [.POSn_STAT] n s (s.posDivide n fwd) ∧ PosSt.counts 0 s.pos[n] (s.posDivide n fwd).pos[n] ∧
    (s.posDivide n fwd).mx.word = s.mx.word := by
  unfold State.posDivide
  refine ⟨s.modPos_posFrame _ n _, ?_, rfl⟩
  rw [State.pos_modPos_same]
  dsimp only
  obtain ⟨acc, hacc⟩ : ∃ acc, acc = if s.fld F.POSn_DIVNM_M n 0 ≤ s.pos[n].acc then 0 else s.pos[n].acc := ⟨_, rfl⟩
  rw [← hacc]
  split
  · split
    · exact ⟨rfl, rfl, rfl, (Int.add_zero _).symm, rfl, rfl⟩
    · exact ⟨rfl, rfl, rfl, (Int.add_zero _).symm, rfl, rfl⟩
  · split
    · exact ⟨rfl, rfl, rfl, (Int.add_zero _).symm, rfl, rfl⟩
    · exact ⟨rfl, rfl, rfl, (Int.add_zero _).symm, rfl, rfl⟩

theorem State.posStep_spec (s : State) (n : PosId) (fwd : Bool) :
    State.posFrame [.POSn_STAT] n s (s.posStep n fwd) ∧ PosSt.counts (if fwd then 1 else -1) s.pos[n] (s.posStep n fwd).pos[n] ∧
    (s.posStep n fwd).mx.word = s.mx.word := by
  obtain ⟨u, hu⟩ : ∃ u, u = s.modPos n fun p => { p with cnt := p.cnt + (if fwd then 1 else -1), e2 := p.e1, e1 := some (s.now, fwd) } := ⟨_, rfl⟩
  have form : s.posStep n fwd = (u.posDirection n fwd).posDivide n fwd := by rw [hu]; rfl
  have own : u.pos[n] = { s.pos[n] with cnt := s.pos[n].cnt + (if fwd then 1 else -1), e2 := s.pos[n].e1, e1 := some (s.now, fwd) } := by
    rw [hu, State.pos_modPos_same]
  obtain ⟨dframe, ⟨r, dpos⟩, dword⟩ := u.posDirection_spec n fwd
  obtain ⟨vframe, vpos, vword⟩ := (u.posDirection n fwd).posDivide_spec n fwd
  rw [dpos, own] at vpos
  rw [form]
  refine ⟨(show State.posFrame _ n s u by rw [hu]; exact s.modPos_posFrame _ n _).trans (dframe.trans vframe), ?_, ?_⟩
  · exact ⟨vpos.a, vpos.b, vpos.z, vpos.cnt.trans (Int.add_zero _), vpos.qerrAt, vpos.was⟩
  · rw [vword, dword, hu]; rfl

/-- The levels of an interface behind its filters. -/
def State.posSet (s : State) (n : PosId) (lv : EncLv) : State := s.modPos n fun p => { p with a := lv.a, b := lv.b }

/-- What the edges of the lc start from: the state at the first of them, to which an illegal one goes back. -/
def State.posBase (s : State) (n : PosId) (lv : EncLv) : State := ((s.modPos n fun p => { p with z := lv.z }).posUndo n).posKeep n

section
variable {s : State} {n : PosId} (runs : s.posRuns n = true) (mode : s.posMode n = 1) (first : s.pos[n].qerrAt ≠ some s.now)
include runs mode first

/-- Levels that changed, in an lc without a QERR. -/
theorem State.posLevels_changed {lv : EncLv} (ch : ¬ (s.pos[n].a = lv.a ∧ s.pos[n].b = lv.b)) :
    s.posLevels n lv =
      let v := s.posBase n lv
      let ea := v.pos[n].a != lv.a
      let eb := v.pos[n].b != lv.b
      let u := v.posSet n lv
      if !(ea || eb) then u
      else if ea && eb then u.posQerr n
      else
        let mult := u.fld F.POSn_CFG_MULT n 0
        let fwd := if ea then lv.a != lv.b else lv.a == lv.b
        if decide (mult = 2) || (ea && (decide (mult = 1) || !lv.b)) then
          (u.posMove n (posNext (u.reg .POSn_POS n 0) (u.reg .POSn_MOD n 0) fwd)).posStep n fwd
        else u := by
  obtain ⟨w, hw⟩ : ∃ w, w = s.modPos n fun p => { p with z := lv.z } := ⟨_, rfl⟩
  have own : w.pos[n] = { s.pos[n] with z := lv.z } := by rw [hw, State.pos_modPos_same]
  have ill : decide (w.pos[n].qerrAt = some w.now) = false := by
    rw [own, hw]; exact decide_eq_false first
  unfold State.posLevels State.posBase
  dsimp only
  rw [← hw, if_neg (by rw [show w.posRuns n = true by rw [hw]; exact runs, show w.posMode n = 1 by rw [hw]; exact mode]; decide), if_neg (by rw [own]; exact ch), ill]
  rfl

/-- Both levels change in one lc: an illegal transition. -/
theorem State.posLevels_illegal {lv : EncLv} (ch : ¬ (s.pos[n].a = lv.a ∧ s.pos[n].b = lv.b)) (ea : (s.posBase n lv).pos[n].a ≠ lv.a)
    (eb : (s.posBase n lv).pos[n].b ≠ lv.b) : s.posLevels n lv = ((s.posBase n lv).posSet n lv).posQerr n := by
  rw [State.posLevels_changed runs mode first ch]
  have a : ((s.posBase n lv).pos[n].a != lv.a) = true := bne_iff_ne.mpr ea
  have b : ((s.posBase n lv).pos[n].b != lv.b) = true := bne_iff_ne.mpr eb
  dsimp only
  rw [a, b]
  rfl

/-- One level changes, every edge counted. -/
theorem State.posLevels_counted {lv : EncLv} (ch : ¬ (s.pos[n].a = lv.a ∧ s.pos[n].b = lv.b))
    (one : ((s.posBase n lv).pos[n].a ≠ lv.a ∧ (s.posBase n lv).pos[n].b = lv.b) ∨
      ((s.posBase n lv).pos[n].a = lv.a ∧ (s.posBase n lv).pos[n].b ≠ lv.b))
    (mult : (s.posBase n lv).fld F.POSn_CFG_MULT n 0 = 2) (fwd : Bool)
    (hf : fwd = if (s.posBase n lv).pos[n].a = lv.a then lv.a == lv.b else lv.a != lv.b) :
    let v := s.posBase n lv
    s.posLevels n lv = ((v.posSet n lv).posMove n (posNext (v.reg .POSn_POS n 0) (v.reg .POSn_MOD n 0) fwd)).posStep n fwd := by
  rw [State.posLevels_changed runs mode first ch]
  obtain ⟨v, hv⟩ : ∃ v, v = s.posBase n lv := ⟨_, rfl⟩
  rw [← hv] at one mult hf ⊢
  have all : (v.posSet n lv).fld F.POSn_CFG_MULT n 0 = 2 := mult
  obtain ⟨a, b⟩ | ⟨a, b⟩ := one
  · have ea : (v.pos[n].a != lv.a) = true := bne_iff_ne.mpr a
    have eb : (v.pos[n].b != lv.b) = false := by rw [b]; exact bne_self_eq_false lv.b
    rw [if_neg a] at hf
    dsimp only
    rw [ea, eb, all, hf]
    rfl
  · have ea : (v.pos[n].a != lv.a) = false := by rw [a]; exact bne_self_eq_false lv.a
    have eb : (v.pos[n].b != lv.b) = true := bne_iff_ne.mpr b
    rw [if_pos a] at hf
    dsimp only
    rw [ea, eb, all, hf]
    rfl
end

/-- The first edge of an lc starts from what stands, and records it. -/
theorem State.posBase_first {s : State} {n : PosId} (first : ∀ w, s.pos[n].was = some w → w.lc ≠ s.now) (lv : EncLv) :
    ∃ w : PosWas, s.posBase n lv = s.modPos n (fun p => { p with z := lv.z, was := some w }) ∧ w.lc = s.now ∧ w.a = s.pos[n].a ∧
      w.b = s.pos[n].b ∧ w.pos = s.reg .POSn_POS n 0 ∧ w.cnt = s.pos[n].cnt := by
  obtain ⟨u, hu⟩ : ∃ u, u = s.modPos n fun p => { p with z := lv.z } := ⟨_, rfl⟩
  have own : u.pos[n] = { s.pos[n] with z := lv.z } := by rw [hu, State.pos_modPos_same]
  have now : u.now = s.now := by rw [hu]; rfl
  have undone : u.posUndo n = u := by
    unfold State.posUndo
    rw [own]
    dsimp only
    split
    next w hw => exact if_neg (by rw [now]; exact first w hw)
    next => rfl
  have fresh : (u.pos[n].was.any fun w => decide (w.lc = u.now)) = false := by
    rw [own, now]
    dsimp only
    cases hw : s.pos[n].was with
    | none => rfl
    | some w => exact decide_eq_false (first w hw)
  refine ⟨⟨u.now, u.pos[n].a, u.pos[n].b, u.reg .POSn_POS n 0, u.pos[n].cnt, u.pos[n].e1, u.pos[n].e2, u.pos[n].run, u.pos[n].acc, u.pos[n].enc,
    u.flag F.POSn_STAT_DIR n 0⟩, ?_, now, by rw [own], by rw [own], by rw [hu]; rfl, by rw [own]⟩
  unfold State.posBase
  rw [← hu, undone, State.posKeep, fresh, if_neg (by decide)]
  obtain ⟨w, hw⟩ : ∃ w : PosWas, w = ⟨u.now, u.pos[n].a, u.pos[n].b, u.reg .POSn_POS n 0, u.pos[n].cnt, u.pos[n].e1, u.pos[n].e2,
    u.pos[n].run, u.pos[n].acc, u.pos[n].enc, u.flag F.POSn_STAT_DIR n 0⟩ := ⟨_, rfl⟩
  rw [← hw, own]
  dsimp only
  rw [hu, State.modPos_modPos]
  exact State.modPos_congr s n rfl

/-- The pins have stood at the levels that come behind the filters. -/
def State.posSteady (s : State) (n : PosId) (lv : EncLv) : State :=
  s.modPos n fun p => { p with ha := steadyPin lv.a, hb := steadyPin lv.b, hz := steadyPin lv.z }

theorem quadEdge_filtered {s : State} {n : PosId} (live : s.mode.live = true) (lv : EncLv) :
    exec (.quadEdge n .filtered lv) s = .next ((s.posSteady n lv).posLevels n lv) := if_pos live

/-- What an edge counted in the direction `fwd` does. -/
structure State.edgeCounted (n : PosId) (lv : EncLv) (fwd : Bool) (s t : State) : Prop where
  frame : State.posFrame [.POSn_STAT, .POSn_POS] n s t
  levels : t.pos[n].a = lv.a ∧ t.pos[n].b = lv.b ∧ t.pos[n].z = lv.z
  pos : t.reg .POSn_POS n 0 = posNext (s.reg .POSn_POS n 0) (s.reg .POSn_MOD n 0) fwd
  word : t.mx.word.get (posSrc n) 0 = t.reg .POSn_POS n 0
  cnt : t.pos[n].cnt = s.pos[n].cnt + (if fwd then 1 else -1)
  qerrAt : t.pos[n].qerrAt = s.pos[n].qerrAt
  was : ∃ w, t.pos[n].was = some w ∧ w.lc = s.now ∧ w.a = s.pos[n].a ∧ w.b = s.pos[n].b ∧ w.pos = s.reg .POSn_POS n 0 ∧
    w.cnt = s.pos[n].cnt

section
variable {s : State} {n : PosId} (runs : s.posRuns n = true) (mode : s.posMode n = 1) (qerr : s.pos[n].qerrAt ≠ some s.now)
include runs mode qerr

section
variable (first : ∀ w, s.pos[n].was = some w → w.lc ≠ s.now)
include first

theorem posLevels_bothChange {lv : EncLv} (ea : s.pos[n].a ≠ lv.a) (eb : s.pos[n].b ≠ lv.b) :
    let t := (s.posSteady n lv).posLevels n lv
    t.reg .POSn_POS n 0 = s.reg .POSn_POS n 0 ∧ t.flag F.POSn_STAT_QERR n 0 = true ∧ t.flag F.POSn_STAT_VALID n 0 = false ∧
      t.mx.ev = s.mx.ev ++ [posSrc n + 6] ∧ t.pos[n].a = lv.a ∧ t.pos[n].b = lv.b := by
  obtain ⟨u, hu⟩ : ∃ u, u = s.posSteady n lv := ⟨_, rfl⟩
  have own : u.pos[n] = { s.pos[n] with ha := steadyPin lv.a, hb := steadyPin lv.b, hz := steadyPin lv.z } := by
    rw [hu]; exact s.pos_modPos_same n _
  obtain ⟨w, base, -⟩ := State.posBase_first (s := u) (n := n) (by rw [own, hu]; exact first) lv
  have vown : (u.posBase n lv).pos[n] = { u.pos[n] with z := lv.z, was := some w } := by rw [base, State.pos_modPos_same]
  have ill := State.posLevels_illegal (s := u) (n := n) (by rw [hu]; exact runs) (by rw [hu]; exact mode) (by rw [own, hu]; exact qerr) (lv := lv)
    (by rw [own]; exact fun h => ea h.1) (by rw [vown, own]; exact ea) (by rw [vown, own]; exact eb)
  dsimp only
  rw [← hu, ill]
  obtain ⟨frame, pos, flag, valid, ev⟩ := ((u.posBase n lv).posSet n lv).posQerr_spec n
  have set : ((u.posBase n lv).posSet n lv).pos[n] = { (u.posBase n lv).pos[n] with a := lv.a, b := lv.b } := State.pos_modPos_same _ n _
  refine ⟨(frame.own (q := .POSn_POS) (by decide)).trans ?_, flag, valid, ev.trans ?_, by rw [pos, set], by rw [pos, set]⟩
  · rw [base, hu]; rfl
  · rw [base, hu]; rfl

theorem posLevels_oneChanges {lv : EncLv} (one : (s.pos[n].a ≠ lv.a ∧ s.pos[n].b = lv.b) ∨ (s.pos[n].a = lv.a ∧ s.pos[n].b ≠ lv.b))
    (mult : s.fld F.POSn_CFG_MULT n 0 = 2) (untouched : s.marked (RegName.POSn_POS.addr n 0) false = false) (fwd : Bool)
    (hf : fwd = if s.pos[n].a = lv.a then lv.a == lv.b else lv.a != lv.b) :
    State.edgeCounted n lv fwd s ((s.posSteady n lv).posLevels n lv) := by
  obtain ⟨u, hu⟩ : ∃ u, u = s.posSteady n lv := ⟨_, rfl⟩
  have own : u.pos[n] = { s.pos[n] with ha := steadyPin lv.a, hb := steadyPin lv.b, hz := steadyPin lv.z } := by
    rw [hu]; exact s.pos_modPos_same n _
  obtain ⟨w, base, lc, wa, wb, wpos, wcnt⟩ := State.posBase_first (s := u) (n := n) (by rw [own, hu]; exact first) lv
  obtain ⟨v, hv⟩ : ∃ v, v = u.posBase n lv := ⟨_, rfl⟩
  have vown : v.pos[n] = { u.pos[n] with z := lv.z, was := some w } := by rw [hv, base, State.pos_modPos_same]
  have start : State.posFrame [.POSn_STAT, .POSn_POS] n s (v.posSet n lv) := by
    rw [hv, base, hu]
    exact (s.modPos_posFrame _ n _).trans ((State.modPos_posFrame _ _ n _).trans (State.modPos_posFrame _ _ n _))
  have vreg : ∀ q, v.reg q n 0 = s.reg q n 0 := fun q => by rw [hv, base, hu]; rfl
  have counted := State.posLevels_counted (s := u) (n := n) (by rw [hu]; exact runs) (by rw [hu]; exact mode) (by rw [own, hu]; exact qerr)
    (lv := lv) (by rw [own]; exact fun h => one.elim (fun x => x.1 h.1) fun x => x.2 h.2) (by rw [← hv, vown, own]; exact one)
    (by rw [base, hu]; exact mult) fwd (by rw [← hv, vown, own]; exact hf)
  dsimp only at counted
  rw [← hv, vreg, vreg] at counted
  rw [← hu, counted]
  obtain ⟨w', hw'⟩ : ∃ w', w' = posNext (s.reg .POSn_POS n 0) (s.reg .POSn_MOD n 0) fwd := ⟨_, rfl⟩
  rw [← hw']
  obtain ⟨mframe, mreg, mword, b, mpos⟩ := (v.posSet n lv).posMove_spec n w' (by rw [start.marked]; exact untouched)
  obtain ⟨sframe, spos, sword⟩ := ((v.posSet n lv).posMove n w').posStep_spec n fwd
  have set : (v.posSet n lv).pos[n] = { v.pos[n] with a := lv.a, b := lv.b } := State.pos_modPos_same _ n _
  rw [mpos, set, vown, own] at spos
  have reg := (sframe.own (q := .POSn_POS) (by decide)).trans mreg
  refine ⟨start.trans ((mframe.mono fun q h => by rw [List.mem_singleton.mp h]; exact .tail _ (.head _)).trans
    (sframe.mono fun q h => by rw [List.mem_singleton.mp h]; exact .head _)), ⟨spos.a, spos.b, spos.z⟩, reg.trans hw', ?_, spos.cnt, spos.qerrAt, w,
    spos.was, lc.trans (by rw [hu]; rfl), wa.trans (by rw [own]), wb.trans (by rw [own]), wpos.trans (by rw [hu]; rfl), wcnt.trans (by rw [own])⟩
  rw [sword, mword, reg]
end

end

theorem State.relv_posFrame (s : State) (rs : List RegName) (n : PosId) (k : Nat) (x b : Bool) :
    State.posFrame rs n s (s.relv k x b) ∧ (s.relv k x b).pos = s.pos := by
  unfold State.relv
  split <;> exact ⟨⟨rfl, rfl, rfl, fun _ _ _ _ => rfl⟩, rfl⟩

/-- An illegal edge takes back the edges of its lc. -/
theorem State.posUndo_spec {s : State} {n : PosId} {w : PosWas} (was : s.pos[n].was = some w) (lc : w.lc = s.now)
    (untouched : s.marked (RegName.POSn_POS.addr n 0) false = false) :
    State.posFrame [.POSn_STAT, .POSn_POS] n s (s.posUndo n) ∧ (s.posUndo n).reg .POSn_POS n 0 = w.pos ∧
    (s.posUndo n).pos[n] =
      { s.pos[n] with a := w.a, b := w.b, cnt := w.cnt, e1 := w.e1, e2 := w.e2, run := w.run, acc := w.acc, enc := w.enc } := by
  obtain ⟨v, hv⟩ : ∃ v, v = s.modPos n fun p =>
    { p with a := w.a, b := w.b, cnt := w.cnt, e1 := w.e1, e2 := w.e2, run := w.run, acc := w.acc, enc := w.enc } := ⟨_, rfl⟩
  obtain ⟨u, hu⟩ : ∃ u, u = v.posPut n w.pos := ⟨_, rfl⟩
  have form : s.posUndo n = if u.flag F.POSn_STAT_DIR n 0 = w.dir then u
      else { (u.setFld F.POSn_STAT_DIR n 0 (if w.dir then 1 else 0)).relv (posSrc n + 3) w.dir w.dir with
        mx := { ((u.setFld F.POSn_STAT_DIR n 0 (if w.dir then 1 else 0)).relv (posSrc n + 3) w.dir w.dir).mx with
          ev := ((u.setFld F.POSn_STAT_DIR n 0 (if w.dir then 1 else 0)).relv (posSrc n + 3) w.dir w.dir).mx.ev.filter
            fun k => decide (k ≠ posSrc n + 7) } } := by
    unfold State.posUndo
    rw [was]
    dsimp only
    have unmarked : ¬ v.marked (RegName.POSn_POS.addr n 0) false = true := by
      rw [hv]; exact fun h => Bool.noConfusion (untouched.symm.trans h)
    rw [if_pos lc, ← hv, if_neg unmarked, ← hu]
  have one : State.posFrame [.POSn_STAT, .POSn_POS] n s u := by
    rw [hu, hv]
    exact (s.modPos_posFrame _ n _).trans (State.posPut_posFrame _ (.tail _ (.head _)) n _)
  have reg : u.reg .POSn_POS n 0 = w.pos := by rw [hu]; exact (v.posPut_pos n w.pos).1
  have own : u.pos[n] = v.pos[n] := by rw [hu]; rfl
  rw [hv, State.pos_modPos_same] at own
  rw [form]
  split
  · exact ⟨one, reg, own⟩
  · obtain ⟨x, hx⟩ : ∃ x, x = u.setFld F.POSn_STAT_DIR n 0 (if w.dir then 1 else 0) := ⟨_, rfl⟩
    have dir : State.posFrame [.POSn_STAT] n u x := by rw [hx]; exact u.setFld_posFrame (f := F.POSn_STAT_DIR) (.head _) n _
    have xpos : x.pos = u.pos := by rw [hx]; rfl
    obtain ⟨lv, pos⟩ := x.relv_posFrame [.POSn_STAT] n (posSrc n + 3) w.dir w.dir
    rw [← hx]
    obtain ⟨y, hy⟩ : ∃ y, y = x.relv (posSrc n + 3) w.dir w.dir := ⟨_, rfl⟩
    rw [← hy] at lv pos ⊢
    have all := dir.trans lv
    refine ⟨one.trans ((all.mono fun q h => by rw [List.mem_singleton.mp h]; exact .head _).trans ⟨rfl, rfl, rfl, fun _ _ _ _ => rfl⟩), ?_, ?_⟩
    · exact (show _ = y.reg .POSn_POS n 0 from rfl).trans ((all.own (by decide)).trans reg)
    · change y.pos[n] = _
      rw [pos, xpos, own]

/-- Edges of A and B in one lc are illegal, and neither counts. -/
theorem posLevels_second {s t : State} {n : PosId} {z : Bool} {fwd : Bool} (runs : s.posRuns n = true) (mode : s.posMode n = 1)
    (qerr : s.pos[n].qerrAt ≠ some s.now) (untouched : s.marked (RegName.POSn_POS.addr n 0) false = false)
    (h : State.edgeCounted n ⟨!s.pos[n].a, s.pos[n].b, z⟩ fwd s t) :
    let u := (t.posSteady n ⟨!s.pos[n].a, !s.pos[n].b, z⟩).posLevels n ⟨!s.pos[n].a, !s.pos[n].b, z⟩
    u.reg .POSn_POS n 0 = s.reg .POSn_POS n 0 ∧ u.pos[n].cnt = s.pos[n].cnt ∧ u.flag F.POSn_STAT_QERR n 0 = true := by
  obtain ⟨lv, hlv⟩ : ∃ lv : EncLv, lv = ⟨!s.pos[n].a, !s.pos[n].b, z⟩ := ⟨_, rfl⟩
  dsimp only
  rw [← hlv]
  obtain ⟨ta, tb, -⟩ := h.levels
  obtain ⟨w, was, lc, wa, wb, wpos, wcnt⟩ := h.was
  obtain ⟨x, hx⟩ : ∃ x, x = t.posSteady n lv := ⟨_, rfl⟩
  have xown : x.pos[n] = { t.pos[n] with ha := steadyPin lv.a, hb := steadyPin lv.b, hz := steadyPin lv.z } := by
    rw [hx]; exact t.pos_modPos_same n _
  obtain ⟨y, hy⟩ : ∃ y, y = x.modPos n fun p => { p with z := lv.z } := ⟨_, rfl⟩
  have yown : y.pos[n] = { x.pos[n] with z := lv.z } := by rw [hy, State.pos_modPos_same]
  have frame : State.posFrame [.POSn_STAT, .POSn_POS] n s y := by
    rw [hy, hx]
    exact h.frame.trans ((t.modPos_posFrame _ n _).trans (State.modPos_posFrame _ _ n _))
  have ynow : y.now = s.now := frame.now
  have ywas : y.pos[n].was = some w := by rw [yown, xown]; exact was
  obtain ⟨uframe, ureg, uown⟩ := State.posUndo_spec ywas (by rw [ynow]; exact lc) (by rw [frame.marked]; exact untouched)
  have base : x.posBase n lv = y.posUndo n := by
    unfold State.posBase
    rw [← hy]
    unfold State.posKeep
    refine if_pos ?_
    rw [uown, show (y.posUndo n).now = s.now from uframe.now.trans ynow]
    dsimp only
    rw [ywas]
    exact decide_eq_true lc
  have ill := State.posLevels_illegal (s := x) (n := n) (lv := lv)
    (by rw [hx]; exact (h.frame.posRuns (by decide)).trans runs)
    (by rw [hx]; exact (h.frame.fld (f := F.POSn_CFG_MODE) (by decide)).trans mode)
    (by rw [xown, show x.now = t.now by rw [hx]; rfl, h.frame.now]; exact fun e => qerr (h.qerrAt.symm.trans e))
    (by rw [xown]; dsimp only; rw [ta, tb, hlv]; simp)
    (by rw [base, uown]; dsimp only; rw [wa, hlv]; simp) (by rw [base, uown]; dsimp only; rw [wb, hlv]; simp)
  rw [← hx, ill, base]
  obtain ⟨qframe, qpos, flag, -, -⟩ := ((y.posUndo n).posSet n lv).posQerr_spec n
  have set : ((y.posUndo n).posSet n lv).pos[n] = { (y.posUndo n).pos[n] with a := lv.a, b := lv.b } := State.pos_modPos_same _ n _
  refine ⟨?_, ?_, flag⟩
  · exact (qframe.own (q := .POSn_POS) (by decide)).trans ((show _ = (y.posUndo n).reg .POSn_POS n 0 from rfl).trans (ureg.trans wpos))
  · rw [qpos, set, uown]
    exact wcnt

/-! ## Index events -/

theorem State.posCheck_spec (s : State) (n : PosId) (d : Int) (fwd0 fwd : Bool) :
    State.posFrame [.POSn_STAT, .POSn_ERR_CNT] n s (s.posCheck n d fwd0 fwd) ∧ (s.posCheck n d fwd0 fwd).pos = s.pos ∧
    (s.posCheck n d fwd0 fwd).fld F.POSn_STAT_REF n 0 = s.fld F.POSn_STAT_REF n 0 ∧
    (∀ k ∈ s.mx.ev, k ∈ (s.posCheck n d fwd0 fwd).mx.ev) ∧
    let lines : Int := s.fld F.POSn_LINES_LINES n 0
    let want := if fwd0 = fwd then (if fwd then lines else -lines) else 0
    (lines ≠ 0 → s.fld F.POSn_LINES_TOL n 0 < (d - want).natAbs → (s.posCheck n d fwd0 fwd).flag F.POSn_STAT_IDXERR n 0 = true) := by
  unfold State.posCheck
  dsimp only
  obtain ⟨want, hwant⟩ : ∃ want, want =
    if fwd0 = fwd then (if fwd then (s.fld F.POSn_LINES_LINES n 0 : Int) else -s.fld F.POSn_LINES_LINES n 0) else 0 := ⟨_, rfl⟩
  rw [← hwant]
  split
  next far =>
    obtain ⟨u, hu⟩ : ∃ u, u = s.raiseFld F.POSn_STAT_IDXERR n 0 1 := ⟨_, rfl⟩
    have idx : u.fld F.POSn_STAT_IDXERR n 0 = 1 := by rw [hu]; exact State.fld_raiseFld_same s F.POSn_STAT_IDXERR n 0 1 (by decide)
    have ref : u.fld F.POSn_STAT_REF n 0 = s.fld F.POSn_STAT_REF n 0 := by
      rw [hu]
      exact State.fld_raiseFld_apart (f := F.POSn_STAT_IDXERR) (g := F.POSn_STAT_REF) s _ rfl (by decide) (by decide) (.inl (by decide))
    have one : State.posFrame [.POSn_STAT] n s u := by rw [hu]; exact s.raiseFld_posFrame (f := F.POSn_STAT_IDXERR) (.head _) n 1
    have two : State.posFrame [.POSn_ERR_CNT] n u ((u.bump F.POSn_ERR_CNT_IDX n 0).raiseEv (posSrc n + 5)) :=
      (u.bump_posFrame (f := F.POSn_ERR_CNT_IDX) (.head _) n).trans (State.raiseEv_posFrame _ _ n _)
    rw [← hu]
    refine ⟨(one.mono fun q h => by rw [List.mem_singleton.mp h]; exact .head _).trans (two.mono fun q h => .tail _ h), by rw [hu]; rfl,
      (two.fld (f := F.POSn_STAT_REF) (by decide)).trans ref, fun k hk => ?_, fun _ _ => ?_⟩
    · refine List.mem_append_left _ ?_
      rw [show (u.bump F.POSn_ERR_CNT_IDX n 0).mx = s.mx by rw [hu]; rfl]
      exact hk
    · rw [two.flag (f := F.POSn_STAT_IDXERR) (by decide), State.flag, idx]
      rfl
  next near => exact ⟨.refl _ n s, rfl, rfl, fun _ h => h, fun lines far => absurd ⟨lines, far⟩ near⟩

/-- The position, REF and the event of an index. -/
def State.idxMark (s : State) (n : PosId) : State :=
  ((s.setReg .POSn_IDXPOS n 0 (s.reg .POSn_POS n 0)).setFld F.POSn_STAT_REF n 0 1).raiseEv (posSrc n + 4)

/-- The direction of the last edge. -/
def PosSt.forward (p : PosSt) : Bool :=
  match p.e1 with
  | some (_, f) => f
  | none => true

/-- The spacing of an index from the last, and its check. -/
def State.idxSpacing (s : State) (n : PosId) (p : PosSt) (skip : Bool) : State :=
  match p.idx with
  | some (c, f) =>
    let s := s.setReg .POSn_IDXDIFF n 0 (BitVec.ofInt 32 (p.cnt - c))
    if skip then s else s.posCheck n (p.cnt - c) f p.forward
  | none => s

/-- An index as the interface keeps it. -/
def State.idxKeep (s : State) (n : PosId) (fwd qerr cleared : Bool) : State :=
  let zero := s.flag F.POSn_CFG_ZRST n 0 && !qerr && !s.marked (RegName.POSn_POS.addr n 0) false
  s.modPos n fun p =>
    { p with idx := some (p.cnt, fwd), await := p.await && cleared, skip := p.skip && cleared, zrst := zero, idxAt := some s.now }

theorem State.posIndex_eq (s : State) (n : PosId) :
    let qerr := decide (s.pos[n].qerrAt = some s.now)
    let cleared := s.marked (RegName.POSn_STAT.addr n 0) true
    s.posIndex n = ((((s.idxMark n).idxSpacing n s.pos[n] ((s.pos[n].skip && !cleared) || qerr)).idxKeep n s.pos[n].forward qerr cleared).posValid n) := by
  dsimp only
  unfold State.posIndex State.idxSpacing State.idxMark State.idxKeep
  dsimp only
  cases s.pos[n].idx <;> rfl

theorem State.idxMark_spec (s : State) (n : PosId) :
    State.posFrame [.POSn_IDXPOS, .POSn_STAT] n s (s.idxMark n) ∧ (s.idxMark n).pos = s.pos ∧
    (s.idxMark n).reg .POSn_IDXPOS n 0 = s.reg .POSn_POS n 0 ∧ (s.idxMark n).fld F.POSn_STAT_REF n 0 = 1 ∧
    posSrc n + 4 ∈ (s.idxMark n).mx.ev := by
  obtain ⟨u, hu⟩ : ∃ u, u = s.setReg .POSn_IDXPOS n 0 (s.reg .POSn_POS n 0) := ⟨_, rfl⟩
  have stat : State.posFrame [.POSn_STAT] n u ((u.setFld F.POSn_STAT_REF n 0 1).raiseEv (posSrc n + 4)) :=
    (u.setFld_posFrame (f := F.POSn_STAT_REF) (.head _) n 1).trans (State.raiseEv_posFrame _ _ n _)
  unfold State.idxMark
  rw [← hu]
  refine ⟨State.posFrame.trans (t := u) (by rw [hu]; exact s.setReg_posFrame (.head _) n _) (stat.mono fun q h => .tail _ h), by rw [hu]; rfl, ?_, ?_,
    List.mem_append_right _ (.head _)⟩
  · rw [stat.own (by decide), hu, State.reg_setReg_same]
  · exact (State.fld_setFld_same u F.POSn_STAT_REF n 0 1 (by decide)).trans rfl

theorem State.idxSpacing_spec (s : State) (n : PosId) (p : PosSt) (skip : Bool) :
    let t := s.idxSpacing n p skip
    State.posFrame [.POSn_IDXDIFF, .POSn_STAT, .POSn_ERR_CNT] n s t ∧ t.pos = s.pos ∧
    t.fld F.POSn_STAT_REF n 0 = s.fld F.POSn_STAT_REF n 0 ∧ (∀ k ∈ s.mx.ev, k ∈ t.mx.ev) ∧
    (∀ c f, p.idx = some (c, f) → t.reg .POSn_IDXDIFF n 0 = BitVec.ofInt 32 (p.cnt - c)) ∧
    (∀ c f, p.idx = some (c, f) → skip = false →
      let lines : Int := s.fld F.POSn_LINES_LINES n 0
      let want := if f = p.forward then (if p.forward then lines else -lines) else 0
      lines ≠ 0 → s.fld F.POSn_LINES_TOL n 0 < (p.cnt - c - want).natAbs → t.flag F.POSn_STAT_IDXERR n 0 = true) := by
  dsimp only
  unfold State.idxSpacing
  cases hidx : p.idx with
  | none => exact ⟨.refl _ n s, rfl, rfl, fun _ h => h, nofun, nofun⟩
  | some x =>
    obtain ⟨c, f⟩ := x
    dsimp only
    obtain ⟨u, hu⟩ : ∃ u, u = s.setReg .POSn_IDXDIFF n 0 (BitVec.ofInt 32 (p.cnt - c)) := ⟨_, rfl⟩
    have one : State.posFrame [.POSn_IDXDIFF] n s u := by rw [hu]; exact s.setReg_posFrame (.head _) n _
    have diff : u.reg .POSn_IDXDIFF n 0 = BitVec.ofInt 32 (p.cnt - c) := by rw [hu]; exact State.reg_setReg_same ..
    have pos : u.pos = s.pos := by rw [hu]; rfl
    have ev : u.mx.ev = s.mx.ev := by rw [hu]; rfl
    have wide := one.mono (rs' := [.POSn_IDXDIFF, .POSn_STAT, .POSn_ERR_CNT]) fun q h => by rw [List.mem_singleton.mp h]; exact .head _
    have ref := one.fld (f := F.POSn_STAT_REF) (by decide)
    rw [← hu]
    split
    next hs => exact ⟨wide, pos, ref, fun k hk => by rw [ev]; exact hk, fun c' f' h => by cases h; exact diff, fun c' f' _ h => by rw [hs] at h; cases h⟩
    next hs =>
      obtain ⟨frame, cpos, cref, cev, far⟩ := u.posCheck_spec n (p.cnt - c) f p.forward
      dsimp only at far
      rw [one.fld (f := F.POSn_LINES_LINES) (by decide), one.fld (f := F.POSn_LINES_TOL) (by decide)] at far
      refine ⟨wide.trans (frame.mono fun q h => .tail _ h), cpos.trans pos, cref.trans ref, fun k hk => cev k (by rw [ev]; exact hk), fun c' f' h => ?_,
        fun c' f' h _ lines tol => ?_⟩
      · cases h
        exact (frame.own (by decide)).trans diff
      · cases h
        exact far lines tol

/-- An interface's state after an index event of lc `now`. -/
def PosSt.indexed (p : PosSt) (fwd cleared zero : Bool) (now : Nat) : PosSt :=
  { p with idx := some (p.cnt, fwd), await := p.await && cleared, skip := p.skip && cleared, zrst := zero, idxAt := some now }

theorem State.idxKeep_pos (s : State) (n : PosId) (fwd qerr cleared : Bool) :
    (s.idxKeep n fwd qerr cleared).pos[n] =
      s.pos[n].indexed fwd cleared (s.flag F.POSn_CFG_ZRST n 0 && !qerr && !s.marked (RegName.POSn_POS.addr n 0) false) s.now :=
  s.pos_modPos_same n _

/-- What an index event does. -/
theorem State.posIndex_spec (s : State) (n : PosId) :
    let t := s.posIndex n
    let p := s.pos[n]
    let cleared := s.marked (RegName.POSn_STAT.addr n 0) true
    t.reg .POSn_IDXPOS n 0 = s.reg .POSn_POS n 0 ∧ t.flag F.POSn_STAT_REF n 0 = true ∧ posSrc n + 4 ∈ t.mx.ev ∧
    t.pos[n] = p.indexed p.forward cleared
      (s.flag F.POSn_CFG_ZRST n 0 && !decide (p.qerrAt = some s.now) && !s.marked (RegName.POSn_POS.addr n 0) false) s.now ∧
    (∀ c f, p.idx = some (c, f) → p.skip = false ∨ cleared = true → p.qerrAt ≠ some s.now →
      let lines : Int := s.fld F.POSn_LINES_LINES n 0
      let want := if f = p.forward then (if p.forward then lines else -lines) else 0
      lines ≠ 0 → s.fld F.POSn_LINES_TOL n 0 < (p.cnt - c - want).natAbs →
        t.flag F.POSn_STAT_IDXERR n 0 = true ∧ t.flag F.POSn_STAT_VALID n 0 = false) ∧
    ∀ c f, p.idx = some (c, f) → t.reg .POSn_IDXDIFF n 0 = BitVec.ofInt 32 (p.cnt - c) := by
  dsimp only
  obtain ⟨p, hp⟩ : ∃ p, p = s.pos[n] := ⟨_, rfl⟩
  obtain ⟨qerr, hq⟩ : ∃ q, q = decide (p.qerrAt = some s.now) := ⟨_, rfl⟩
  obtain ⟨cleared, hc⟩ : ∃ c, c = s.marked (RegName.POSn_STAT.addr n 0) true := ⟨_, rfl⟩
  obtain ⟨mframe, mpos, idxpos, ref, ev⟩ := s.idxMark_spec n
  obtain ⟨u, hu⟩ : ∃ u, u = (s.idxMark n).idxSpacing n p ((p.skip && !cleared) || qerr) := ⟨_, rfl⟩
  obtain ⟨sframe, spos, sref, sev, diff, far⟩ := (s.idxMark n).idxSpacing_spec n p ((p.skip && !cleared) || qerr)
  rw [← hu] at sframe spos sref sev diff far
  have form : s.posIndex n = (u.idxKeep n p.forward qerr cleared).posValid n := by
    rw [hu, hp, hq, hc, hp]; exact s.posIndex_eq n
  obtain ⟨w, hw⟩ : ∃ w, w = u.idxKeep n p.forward qerr cleared := ⟨_, rfl⟩
  have keep : State.posFrame [.POSn_STAT] n u w := by rw [hw]; exact u.modPos_posFrame _ n _
  have all : State.posFrame [.POSn_STAT] n u (w.posValid n) := keep.trans (w.posValid_frame n)
  have before : State.posFrame [.POSn_IDXPOS, .POSn_STAT, .POSn_IDXDIFF, .POSn_ERR_CNT] n s u :=
    (mframe.mono fun q h => by simp only [List.mem_cons, List.not_mem_nil, or_false] at h ⊢; tauto).trans
      (sframe.mono fun q h => by simp only [List.mem_cons, List.not_mem_nil, or_false] at h ⊢; tauto)
  have wfld : ∀ f : Fld, w.fld f n 0 = u.fld f n 0 := fun f => by rw [hw]; rfl
  have stat : ∀ f : Fld, f.reg = .POSn_STAT → f.hi < 32 → 0 < f.lo → (w.posValid n).fld f n 0 = u.fld f n 0 := fun f hr hf hl =>
    (State.posValid_fld w n hr hf hl).trans (wfld f)
  rw [← hp, form, ← hw, ← hc, ← hq]
  refine ⟨?_, ?_, ?_, ?_, fun c f hidx skip err lines tol => ?_, fun c f hidx => ?_⟩
  · exact (all.own (by decide)).trans ((sframe.own (by decide)).trans idxpos)
  · rw [State.flag, stat F.POSn_STAT_REF rfl (by decide) (by decide), sref, ref]
    rfl
  · rw [show (w.posValid n).mx.ev = u.mx.ev by rw [hw]; rfl]
    exact sev _ ev
  · change w.pos[n] = _
    rw [hw, State.idxKeep_pos, before.flag (f := F.POSn_CFG_ZRST) (by decide), before.marked, before.now, spos, mpos, ← hp]
  · have none : ((p.skip && !cleared) || qerr) = false := by
      rw [hq, decide_eq_false err, Bool.or_false]
      obtain h | h := skip
      · rw [h]; rfl
      · rw [h, Bool.not_true, Bool.and_false]
    dsimp only at far
    rw [mframe.fld (f := F.POSn_LINES_LINES) (by decide), mframe.fld (f := F.POSn_LINES_TOL) (by decide)] at far
    have idx := far c f hidx none lines tol
    have widx : w.flag F.POSn_STAT_IDXERR n 0 = true := by rw [State.flag, wfld]; exact idx
    refine ⟨?_, State.posValid_err (by rw [State.posErr, widx, Bool.or_true, Bool.true_or])⟩
    rw [State.flag, stat F.POSn_STAT_IDXERR rfl (by decide) (by decide)]
    exact idx
  · exact (all.own (by decide)).trans (diff c f hidx)

/-- Pins that have stood at their levels bring no edge. -/
theorem State.posFilter_steady {s : State} {n : PosId} (a : s.pos[n].ha = steadyPin s.pos[n].a) (b : s.pos[n].hb = steadyPin s.pos[n].b)
    (z : s.pos[n].hz = steadyPin s.pos[n].z) : (s.posFilter n).regs = s.regs := by
  unfold State.posFilter
  extract_lets sh s1 p f lv
  have own : p = s.pos[n] := by
    change s1.pos[n] = _
    rw [show s1.pos[n] = { s.pos[n] with ha := sh s.pos[n].ha, hb := sh s.pos[n].hb, hz := sh s.pos[n].hz } from s.pos_modPos_same n _]
    rw [show sh s.pos[n].ha = s.pos[n].ha by rw [a]; exact steadyPin_shift _, show sh s.pos[n].hb = s.pos[n].hb by rw [b]; exact steadyPin_shift _,
      show sh s.pos[n].hz = s.pos[n].hz by rw [z]; exact steadyPin_shift _]
  have filt : f < 16 := getBits_lt _ _ _
  have same : lv = ⟨p.a, p.b, p.z⟩ := by
    change (⟨_, _, _⟩ : EncLv) = _
    rw [own, a, b, z, filtered_steadyPin _ filt, filtered_steadyPin _ filt, filtered_steadyPin _ filt]
  rw [if_pos same]
  rfl

theorem State.ssiTick_spec (s : State) (n : PosId) : State.posFrame [.POSn_STAT] n s (s.ssiTick n) ∧
    ∃ f, (s.ssiTick n).pos[n] = { s.pos[n] with frame := f } := by
  unfold State.ssiTick
  split
  next f hf =>
    split
    · exact ⟨(s.setFld_posFrame (f := F.POSn_STAT_BUSY) (.head _) n 0).trans (State.modPos_posFrame _ _ n _), _, State.pos_modPos_same _ n _⟩
    · exact ⟨.refl _ n s, s.pos[n].frame, rfl⟩
  next => exact ⟨.refl _ n s, s.pos[n].frame, rfl⟩

/-- The load of 0 at an index, in an lc without an edge. -/
theorem State.posTick_zero {s : State} {n : PosId} (zrst : s.pos[n].zrst = true) (a : s.pos[n].ha = steadyPin s.pos[n].a)
    (b : s.pos[n].hb = steadyPin s.pos[n].b) (z : s.pos[n].hz = steadyPin s.pos[n].z) : (s.posTick n).reg .POSn_POS n 0 = 0 := by
  obtain ⟨u, hu⟩ : ∃ u, u = s.posPins n := ⟨_, rfl⟩
  have own : u.pos[n] = { s.pos[n] with encPin := s.pos[n].enc, held := s.posIndexes n && s.pos[n].z && s.posQual n } := by
    rw [hu]; exact s.pos_modPos_same n _
  obtain ⟨v, hv⟩ : ∃ v, v = (u.modPos n fun p => { p with zrst := false }).posPut n 0 := ⟨_, rfl⟩
  have zero : u.posZero n = v := by
    unfold State.posZero
    rw [if_pos (by rw [own]; exact zrst), hv]
  have vown : v.pos[n] = { u.pos[n] with zrst := false } := by
    rw [hv]; exact (show _ = (u.modPos n fun p => { p with zrst := false }).pos[n] from rfl).trans (u.pos_modPos_same n _)
  obtain ⟨frame, f, pos⟩ := v.ssiTick_spec n
  rw [State.posTick_eq, ← hu, zero, State.reg, State.posFilter_steady, ← State.reg, frame.own (q := .POSn_POS) (by decide), hv]
  · exact (State.posPut_pos _ n 0).1
  all_goals rw [pos, vown, own]
  · exact a
  · exact b
  · exact z

/-! ## Probe, preset, divider, clear -/

theorem probeEdge_latches {s : State} {n : PosId} {e : PrbEdge} (runs : s.posRuns n = true)
    (src : s.flag F.POSn_CFG_PRBSRC n 0 = true ↔ e.src = .dest)
    (edge : s.fld F.POSn_CFG_PRBEDGE n 0 / (if e.rising then 1 else 2) % 2 = 1) (before : s.pos[n].before = none) :
    ∃ t, exec (.probeEdge n e) s = .next t ∧ t.reg .POSn_PRB_POS n 0 = s.reg .POSn_POS n 0 ∧
      t.reg .POSn_PRB_NS n 0 = BitVec.ofNat 32 (s.tod.acc / 2 ^ 30) ∧ t.reg .POSn_PRB_SEC n 0 = BitVec.ofNat 32 s.tod.sec.toNat ∧
      t.flag F.POSn_STAT_PRBF n 0 = true ∧ t.mx.ev = s.mx.ev ++ [posSrc n + 8] ∧ t.pos = s.pos ∧
      t.flag F.POSn_STAT_PRBOVF n 0 = (s.flag F.POSn_STAT_PRBOVF n 0 || s.flag F.POSn_STAT_PRBF n 0) := by
  obtain ⟨u, hu⟩ : ∃ u, u = ((s.setReg .POSn_PRB_POS n 0 (s.reg .POSn_POS n 0)).setReg .POSn_PRB_NS n 0 (BitVec.ofNat 32 s.todNs)).setReg
    .POSn_PRB_SEC n 0 s.todSecLo := ⟨_, rfl⟩
  have frame : State.posFrame [.POSn_PRB_POS, .POSn_PRB_NS, .POSn_PRB_SEC] n s u := by
    rw [hu]
    exact (s.setReg_posFrame (.head _) n _).trans ((State.setReg_posFrame _ (.tail _ (.head _)) n _).trans
      (State.setReg_posFrame _ (.tail _ (.tail _ (.head _))) n _))
  have pos : u.reg .POSn_PRB_POS n 0 = s.reg .POSn_POS n 0 := by
    rw [hu, State.reg_setReg_ne _ _ (RegName.addr_ne_of_apart (by decide) n 0), State.reg_setReg_ne _ _ (RegName.addr_ne_of_apart (by decide) n 0),
      State.reg_setReg_same]
  have ns : u.reg .POSn_PRB_NS n 0 = BitVec.ofNat 32 s.todNs := by
    rw [hu, State.reg_setReg_ne _ _ (RegName.addr_ne_of_apart (by decide) n 0), State.reg_setReg_same]
  have sec : u.reg .POSn_PRB_SEC n 0 = s.todSecLo := by rw [hu, State.reg_setReg_same]
  obtain ⟨v, hv⟩ : ∃ v, v = if u.flag F.POSn_STAT_PRBF n 0 then u.raiseFld F.POSn_STAT_PRBOVF n 0 1 else u := ⟨_, rfl⟩
  have vframe : State.posFrame [.POSn_STAT] n u v := by
    rw [hv]
    split
    · exact u.raiseFld_posFrame (f := F.POSn_STAT_PRBOVF) (.head _) n 1
    · exact .refl _ n u
  have vrest : v.pos = s.pos ∧ v.mx.ev = s.mx.ev := by rw [hv, hu]; split <;> exact ⟨rfl, rfl⟩
  have ovf : v.flag F.POSn_STAT_PRBOVF n 0 = (s.flag F.POSn_STAT_PRBOVF n 0 || s.flag F.POSn_STAT_PRBF n 0) := by
    have f : u.flag F.POSn_STAT_PRBF n 0 = s.flag F.POSn_STAT_PRBF n 0 := frame.flag (by decide)
    have o : u.flag F.POSn_STAT_PRBOVF n 0 = s.flag F.POSn_STAT_PRBOVF n 0 := frame.flag (by decide)
    rw [hv, f, ← o]
    cases s.flag F.POSn_STAT_PRBF n 0 with
    | true =>
      rw [if_pos rfl, Bool.or_true, State.flag, State.fld_raiseFld_same u F.POSn_STAT_PRBOVF n 0 1 (by decide)]
      rfl
    | false => rw [if_neg (by decide), Bool.or_false]
  obtain ⟨w, hw⟩ : ∃ w, w = (v.raiseFld F.POSn_STAT_PRBF n 0 1).raiseEv (posSrc n + 8) := ⟨_, rfl⟩
  have wframe : State.posFrame [.POSn_STAT] n u w := by
    rw [hw]
    exact vframe.trans ((v.raiseFld_posFrame (f := F.POSn_STAT_PRBF) (.head _) n 1).trans (State.raiseEv_posFrame _ _ n _))
  have next : exec (.probeEdge n e) s = .next w := by
    change execProbeEdge n e s = _
    unfold execProbeEdge
    have sel : s.flag F.POSn_CFG_PRBSRC n 0 = decide (e.src = .dest) := by
      rw [Bool.eq_iff_iff, decide_eq_true_eq]; exact src
    rw [if_pos (by rw [runs, sel, edge]; simp), before]
    dsimp only
    rw [hw, hv, hu]
    rfl
  refine ⟨w, next, (wframe.own (by decide)).trans pos, (wframe.own (by decide)).trans ns, (wframe.own (by decide)).trans sec, ?_, ?_, ?_, ?_⟩
  · rw [hw]
    change (State.fld (v.raiseFld F.POSn_STAT_PRBF n 0 1) F.POSn_STAT_PRBF n 0 != 0) = true
    rw [State.fld_raiseFld_same v F.POSn_STAT_PRBF n 0 1 (by decide)]
    rfl
  · rw [hw]
    exact congrArg (· ++ [posSrc n + 8]) vrest.2
  · rw [hw]; exact vrest.1
  · rw [← ovf, hw]
    change (State.fld (v.raiseFld F.POSn_STAT_PRBF n 0 1) F.POSn_STAT_PRBOVF n 0 != 0) = _
    rw [State.fld_raiseFld_apart (f := F.POSn_STAT_PRBF) (g := F.POSn_STAT_PRBOVF) v _ rfl (by decide) (by decide) (.inr (by decide))]
    rfl

theorem probeEdge_other {s : State} {n : PosId} {e : PrbEdge} (src : ¬ (s.flag F.POSn_CFG_PRBSRC n 0 = true ↔ e.src = .dest)) :
    exec (.probeEdge n e) s = .next s := by
  have sel : ¬ s.flag F.POSn_CFG_PRBSRC n 0 = decide (e.src = .dest) := by
    rw [Bool.eq_iff_iff, decide_eq_true_eq]; exact src
  exact if_neg (by simp [sel])

theorem posPreset_next {s : State} {r : Req} {n : PosId} (h : s.admits r .write .POSn_POS n 0) (v : Word) :
    ∃ t, exec (.posPreset r n v) s = .next t ∧ t.reg .POSn_POS n 0 = v ∧ t.mx.word.get (posSrc n) 0 = v ∧
      t.pos[n] = { s.pos[n] with zrst := false } := by
  obtain ⟨a, ha⟩ : ∃ a, a = s.opened r.master := ⟨_, rfl⟩
  have own : a.pos = s.pos := by
    obtain ⟨x, y, form⟩ := s.opened_only r.master
    rw [ha, form]
  have next : exec (.posPreset r n v) s = .next (a.posPreset n v) := by
    change regCmd r .write .POSn_POS n 0 (fun s => s.posPreset n v) s = _
    rw [regCmd_admitted h, ha]
  obtain ⟨reg, word, -⟩ := a.posPut_pos n v
  refine ⟨_, next, reg, word, ?_⟩
  have := State.pos_modPos_same ((a.posPut n v).mark (RegName.POSn_POS.addr n 0) false) n fun p => { p with zrst := false }
  rw [← own]
  exact this

theorem posDivnmWrite_next {s : State} {r : Req} {n : PosId} (h : s.admits r .write .POSn_DIVNM n 0) (v : Word) :
    exec (.posDivnmWrite r n v) s = .next (if getBits v 31 16 = 0 ∨ getBits v 15 0 = 0 ∨ getBits v 15 0 < getBits v 31 16
      then (s.opened r.master).bump F.POSn_ERR_CNT_SIG n 0 else (s.opened r.master).setReg .POSn_DIVNM n 0 v) := by
  change regCmd r .write .POSn_DIVNM n 0 (fun s => s.posDivnmWrite n v) s = _
  rw [regCmd_admitted h]
  rfl

/-- A write of ones clears what was not set in this cycle. -/
theorem getBits_cleared (w c : Word) (k : Nat) : (getBits (w &&& ~~~c) k k != 0) = ((getBits w k k != 0) && !c.getLsbD k) := by
  rw [flag_bit, flag_bit, BitVec.getLsbD_and, BitVec.getLsbD_not]
  by_cases h : k < 32
  · simp [h]
  · simp [BitVec.getLsbD_of_ge w k (by omega)]

/-- A clear of STAT's errors: an index event is awaited again where they are gone. -/
def State.posAwait (s : State) (n : PosId) : State :=
  if !s.posErr n then
    if s.fld F.POSn_LINES_LINES n 0 ≠ 0 ∨ s.flag F.POSn_CFG_REFREQ n 0 = true then
      (s.modPos n fun p => { p with await := true, skip := true }).mark (RegName.POSn_STAT.addr n 0) true
    else s
  else s

theorem State.posAwait_regs (s : State) (n : PosId) : (s.posAwait n).regs = s.regs := by
  unfold State.posAwait
  split
  · split <;> rfl
  · rfl

theorem State.posStatWrite_eq (s : State) (n : PosId) {v : Word} (h : v.getLsbD 10 = false) :
    let u := s.setReg .POSn_STAT n 0 (s.reg .POSn_STAT n 0 &&& ~~~(v &&& 0x370 &&& ~~~s.came .POSn_STAT n 0))
    s.posStatWrite n v = if s.posErr n then (u.posAwait n).posValid n else u := by
  dsimp only
  unfold State.posStatWrite State.posAwait
  dsimp only
  rw [h]
  cases s.posErr n <;> rfl

section
variable {s : State} {r : Req} {n : PosId} {v : Word} (h : s.admits r .write .POSn_STAT n 0) (ask : v.getLsbD 10 = false)
include h

theorem posErrorClear_eq : exec (.posErrorClear r n v) s = .next ((s.opened r.master).posStatWrite n v) := by
  change regCmd r .write .POSn_STAT n 0 (fun s => s.posStatWrite n v) s = _
  rw [regCmd_admitted h]

include ask

theorem posErrorClear_sound (err : s.posErr n = false) : exec (.posErrorClear r n v) s = .next ((s.opened r.master).setReg .POSn_STAT n 0
    (s.reg .POSn_STAT n 0 &&& ~~~(v &&& 0x370 &&& ~~~(s.opened r.master).came .POSn_STAT n 0))) := by
  rw [posErrorClear_eq h, State.posStatWrite_eq _ n ask]
  have opened : (s.opened r.master).posErr n = s.posErr n ∧ (s.opened r.master).reg .POSn_STAT n 0 = s.reg .POSn_STAT n 0 := by
    obtain ⟨x, y, form⟩ := s.opened_only r.master
    rw [form]; exact ⟨rfl, rfl⟩
  rw [opened.1, err, opened.2]
  rfl

theorem posErrorClear_clears (err : s.posErr n = true) :
    let clear := v &&& 0x370 &&& ~~~(s.opened r.master).came .POSn_STAT n 0
    ∃ t, exec (.posErrorClear r n v) s = .next t ∧
      t.flag F.POSn_STAT_QERR n 0 = (s.flag F.POSn_STAT_QERR n 0 && !clear.getLsbD 4) ∧
      t.flag F.POSn_STAT_IDXERR n 0 = (s.flag F.POSn_STAT_IDXERR n 0 && !clear.getLsbD 5) := by
  intro clear
  obtain ⟨a, ha⟩ : ∃ a, a = s.opened r.master := ⟨_, rfl⟩
  have opened : a.posErr n = s.posErr n ∧ a.reg .POSn_STAT n 0 = s.reg .POSn_STAT n 0 := by
    obtain ⟨x, y, form⟩ := s.opened_only r.master
    rw [ha, form]; exact ⟨rfl, rfl⟩
  obtain ⟨u, hu⟩ : ∃ u, u = a.setReg .POSn_STAT n 0 (s.reg .POSn_STAT n 0 &&& ~~~clear) := ⟨_, rfl⟩
  have next : exec (.posErrorClear r n v) s = .next ((u.posAwait n).posValid n) := by
    rw [posErrorClear_eq h, ← ha, State.posStatWrite_eq _ n ask]
    rw [opened.1, err, opened.2, hu]
    rw [if_pos rfl, ha]
  have reg : u.reg .POSn_STAT n 0 = s.reg .POSn_STAT n 0 &&& ~~~clear := by rw [hu, State.reg_setReg_same]
  have stat : ∀ f : Fld, f.reg = .POSn_STAT → f.hi < 32 → 0 < f.lo →
      ((u.posAwait n).posValid n).fld f n 0 = getBits (s.reg .POSn_STAT n 0 &&& ~~~clear) f.hi f.lo := fun f hr hf hl => by
    rw [State.posValid_fld _ n hr hf hl, State.fld_of_regs (u.posAwait_regs n), State.fld, hr, reg]
  refine ⟨_, next, ?_, ?_⟩
  · rw [State.flag, stat F.POSn_STAT_QERR rfl (by decide) (by decide)]
    exact getBits_cleared _ clear 4
  · rw [State.flag, stat F.POSn_STAT_IDXERR rfl (by decide) (by decide)]
    exact getBits_cleared _ clear 5
end

/-! ## The obligation -/

/-- The direction of an edge of one level (R163). -/
theorem direction_iff (x a b : Bool) : (if x = a then a == b else a != b) = true ↔ if x = a then a = b else a ≠ b := by
  by_cases h : x = a <;> simp [h]

theorem quadEdge_counted {s : State} {n : PosId} {a b z : Bool} (runs : s.posRuns n = true) (live : s.mode.live = true)
    (mode : s.posMode n = 1) (qerr : s.pos[n].qerrAt ≠ some s.now) (first : ∀ w, s.pos[n].was = some w → w.lc ≠ s.now)
    (mult : s.fld F.POSn_CFG_MULT n 0 = 2) (untouched : s.marked (RegName.POSn_POS.addr n 0) false = false)
    (one : (s.pos[n].a ≠ a ∧ s.pos[n].b = b) ∨ (s.pos[n].a = a ∧ s.pos[n].b ≠ b)) :
    let p := s.pos[n]
    let pos := s.reg .POSn_POS n 0
    let md := s.reg .POSn_MOD n 0
    let fwd := if p.a = a then a = b else a ≠ b
    ∃ t, exec (.quadEdge n .filtered ⟨a, b, z⟩) s = .next t ∧ t.pos[n].a = a ∧ t.pos[n].b = b ∧ t.pos[n].z = z ∧
      t.reg .POSn_POS n 0 = (if md = 0 then (if fwd then pos + 1 else pos - 1)
        else BitVec.ofNat 32 ((pos.toNat + (if fwd then 1 else md.toNat - 1)) % md.toNat)) ∧
      t.pos[n].cnt = p.cnt + (if fwd then 1 else -1) ∧ t.mx.word.get (posSrc n) 0 = t.reg .POSn_POS n 0 := by
  intro p pos md fwd
  have counted := posLevels_oneChanges runs mode qerr first (lv := ⟨a, b, z⟩) one mult untouched _ rfl
  refine ⟨_, quadEdge_filtered live ⟨a, b, z⟩, counted.levels.1, counted.levels.2.1, counted.levels.2.2, ?_, ?_, counted.word⟩
  · rw [counted.pos, posNext]
    by_cases hf : fwd
    · rw [if_pos hf, if_pos hf, if_pos ((direction_iff _ a b).mpr hf), if_pos ((direction_iff _ a b).mpr hf)]
    · rw [if_neg hf, if_neg hf, if_neg fun h => hf ((direction_iff _ a b).mp h), if_neg fun h => hf ((direction_iff _ a b).mp h)]
  · rw [counted.cnt]
    by_cases hf : fwd
    · rw [if_pos hf, if_pos ((direction_iff _ a b).mpr hf)]
    · rw [if_neg hf, if_neg fun h => hf ((direction_iff _ a b).mp h)]

theorem quadEdge_twice {s : State} {n : PosId} (z : Bool) (runs : s.posRuns n = true) (live : s.mode.live = true)
    (mode : s.posMode n = 1) (qerr : s.pos[n].qerrAt ≠ some s.now) (first : ∀ w, s.pos[n].was = some w → w.lc ≠ s.now)
    (mult : s.fld F.POSn_CFG_MULT n 0 = 2) (untouched : s.marked (RegName.POSn_POS.addr n 0) false = false) :
    let p := s.pos[n]
    ∃ t u, exec (.quadEdge n .filtered ⟨!p.a, p.b, z⟩) s = .next t ∧
      exec (.quadEdge n .filtered ⟨!p.a, !p.b, z⟩) t = .next u ∧ u.reg .POSn_POS n 0 = s.reg .POSn_POS n 0 ∧ u.pos[n].cnt = p.cnt ∧
      u.flag F.POSn_STAT_QERR n 0 = true := by
  intro p
  have counted := posLevels_oneChanges runs mode qerr first (lv := ⟨!p.a, p.b, z⟩) (.inl ⟨by change p.a ≠ !p.a; simp, rfl⟩) mult untouched _ rfl
  exact ⟨_, _, quadEdge_filtered live _, quadEdge_filtered (by rw [counted.frame.mode (by decide)]; exact live) _,
    posLevels_second runs mode qerr untouched counted⟩

theorem indexEvent_late {s : State} {n : PosId} (late : s.isLate = true) : exec (.indexEvent n) s =
    .next (if s.posIndexes n && s.posQual n && !s.pos[n].held && decide (s.pos[n].idxAt ≠ some s.now) then s.posIndex n else s) := by
  change execIndexEvent n s = _
  rw [execIndexEvent, late]
  rfl

/-- Settles O35. -/
theorem positionCounting : Obligations.PositionCounting := by
  intro s r n v a b z e an p mode pos md runs untouched first steady cleared qual
  have running : runs → s.posRuns n = true := fun ⟨live, en, on⟩ => State.posRuns_of live en on
  refine ⟨fun h f cur x _ => ⟨fun hs => filtered_steady hs cur, fun i j hi hj ne => filtered_changing hi hj ne cur⟩,
    fun load h dwell mult => ⟨posEnable_next load h dwell mult, posDisable_next load h dwell mult⟩, s.posEnable_spec n, quadEdge_pins s n a b z,
    fun run one hfirst => ⟨fun ea eb => ?_, fun mult clean => ⟨fun ch => ?_, ?_⟩⟩, fun early => ?_, fun run two late hq held at_ => ?_,
    fun run late hq => ?_, fun run src edge before => probeEdge_latches (running run) src edge before, probeEdge_other,
    fun h => posPreset_next h v, fun h => posDivnmWrite_next h v, fun h ask => ⟨posErrorClear_sound h ask, posErrorClear_clears h ask⟩⟩
  · exact ⟨_, quadEdge_filtered run.1 ⟨a, b, z⟩, posLevels_bothChange (running run) one hfirst.1 hfirst.2 (lv := ⟨a, b, z⟩) ea eb⟩
  · exact quadEdge_counted (running run) run.1 one hfirst.1 hfirst.2 mult clean ch
  · exact quadEdge_twice z (running run) run.1 one hfirst.1 hfirst.2 mult clean
  · change execIndexEvent n s = _
    rw [execIndexEvent, early]
    rfl
  · obtain ⟨idxpos, ref, ev, own, far, diff⟩ := s.posIndex_spec n
    have go : (s.posIndexes n && s.posQual n && !s.pos[n].held && decide (s.pos[n].idxAt ≠ some s.now)) = true := by
      rw [State.posIndexes, running run, State.posQual, decide_eq_true hq, show s.pos[n].held = false from held, decide_eq_true at_]
      exact congrArg (fun x => x && true && !false && true) (decide_eq_true two)
    have zrst : (s.posIndex n).pos[n].zrst =
        (s.flag F.POSn_CFG_ZRST n 0 && !decide (p.qerrAt = some s.now) && !s.marked (RegName.POSn_POS.addr n 0) false) := congrArg PosSt.zrst own
    refine ⟨_, (indexEvent_late late).trans (congrArg Host.Outcome.next (if_pos go)), idxpos, ref, ev, congrArg PosSt.await own, far, ?_, diff, fun hz st => ?_⟩
    · rw [zrst, Bool.and_eq_true, Bool.and_eq_true, Bool.not_eq_true', Bool.not_eq_true', decide_eq_false_iff_not, and_assoc]
    · exact State.posTick_zero hz (by rw [own]; exact st.1) (by rw [own]; exact st.2.1) (by rw [own]; exact st.2.2)
  · rw [indexEvent_late late]
    refine congrArg Host.Outcome.next (if_neg ?_)
    rw [State.posQual, decide_eq_false hq, Bool.and_false]
    exact nofun

end Sys2Proof.Machine
end

