-- ==== Sys2Proof/Proofs/DmaChains.lean ====
section
/-! PROOF. DMA channels: what starts, ends and failures of a chain do, and what they leave (R327, R328, R334 to R336). -/

namespace Sys2Proof.Machine

/-! ## Registers of a channel -/

/-- A register of a DMA channel. -/
def RegName.ofDma (r : RegName) : Bool :=
  decide (r.dims = ((32, 0x20), (1, 0x0))) && decide (0x42000000 ≤ r.base) && decide (r.base < 0x42000020)

theorem RegName.dma_apart {q r : RegName} (hq : q.ofDma = true) (hr : r.ofDma = true) {k n : Chan} (h : k ≠ n ∨ q.base ≠ r.base) :
    q.addr k 0 ≠ r.addr n 0 := by
  simp only [RegName.ofDma, Bool.and_eq_true, decide_eq_true_eq] at hq hr
  obtain ⟨⟨qdims, qlo⟩, qhi⟩ := hq
  obtain ⟨⟨rdims, rlo⟩, rhi⟩ := hr
  have other : k.val ≠ n.val ∨ q.base ≠ r.base := h.imp (fun h e => h (Fin.ext e)) id
  rw [RegName.addr, RegName.addr, qdims, rdims]
  dsimp only
  omega

theorem RegName.dma_queue {q : RegName} (hq : q.ofDma = true) (k : Chan) (x : QId) : q.addr k 0 ≠ RegName.Qn_STAT.addr x 0 := by
  have := k.isLt
  simp only [RegName.ofDma, Bool.and_eq_true, decide_eq_true_eq] at hq
  obtain ⟨⟨dims, lo⟩, hi⟩ := hq
  rw [RegName.addr, dims]
  dsimp only
  change _ ≠ 0x4210001C + x.val * 0x40 + 0 * 0
  omega

/-! ## What an operation on a chain leaves -/

section
variable (s : State) (n : Chan)

theorem State.ch_modCh_same (f : ChanSt → ChanSt) : (s.modCh n f).dma.ch[n] = f s.dma.ch[n] := vset_getElem_same _ _ _

theorem State.ch_modCh_ne {k : Chan} (f : ChanSt → ChanSt) (h : k ≠ n) : (s.modCh n f).dma.ch[k] = s.dma.ch[k] :=
  vset_getElem_ne _ _ h.symm
end

/-- What an operation on channel `n` leaves: the time, the block, every configuration, the other channels' chains. -/
structure State.chainOf (n : Chan) (s t : State) : Prop where
  now : t.now = s.now
  block : t.dma.block = s.dma.block
  cfg : ∀ (f : Fld) (k : Chan), f.reg = .DCHn_CFG → t.fld f k 0 = s.fld f k 0
  busy : ∀ k, k ≠ n → t.dmaBusy k = s.dmaBusy k
  ch : ∀ k : Chan, k ≠ n → t.dma.ch[k] = s.dma.ch[k]

section
variable {s t u : State} {n : Chan}

theorem State.chainOf.refl : State.chainOf n s s := ⟨rfl, rfl, fun _ _ _ => rfl, fun _ _ => rfl, fun _ _ => rfl⟩

theorem State.chainOf.trans (h : State.chainOf n s t) (h' : State.chainOf n t u) : State.chainOf n s u :=
  ⟨h'.now.trans h.now, h'.block.trans h.block, fun f k hf => (h'.cfg f k hf).trans (h.cfg f k hf),
    fun k hk => (h'.busy k hk).trans (h.busy k hk), fun k hk => (h'.ch k hk).trans (h.ch k hk)⟩

variable (s)

/-- A write to a register that is not one of DCHn_CFG or of another channel's DCHn_STAT. -/
theorem State.chainOf_setReg {r : RegName} {i j : Nat} (v : Word) (hc : ∀ k : Chan, RegName.DCHn_CFG.addr k 0 ≠ r.addr i j)
    (hs : ∀ k : Chan, k ≠ n → RegName.DCHn_STAT.addr k 0 ≠ r.addr i j) : State.chainOf n s (s.setReg r i j v) where
  now := rfl
  block := rfl
  cfg f k hf := s.fld_setReg_ne v (by rw [hf]; exact hc k)
  busy k hk := congrArg (· != 0) (s.fld_setReg_ne (f := F.DCHn_STAT_BUSY) v (hs k hk))
  ch _ _ := rfl

/-- A write to a register of the channel itself other than its configuration. -/
theorem State.chainOf_own {r : RegName} (hr : r.ofDma = true) (hb : RegName.DCHn_CFG.base ≠ r.base) (v : Word) :
    State.chainOf n s (s.setReg r n 0 v) :=
  s.chainOf_setReg v (fun _ => RegName.dma_apart rfl hr (.inr hb)) fun _ hk => RegName.dma_apart rfl hr (.inl hk)

/-- A write to the state of a queue. -/
theorem State.chainOf_queue (q : QId) (v : Word) : State.chainOf n s (s.setReg .Qn_STAT q 0 v) :=
  s.chainOf_setReg v (fun k => RegName.dma_queue rfl k q) fun k _ => RegName.dma_queue rfl k q

theorem State.chainOf_modCh (f : ChanSt → ChanSt) : State.chainOf n s (s.modCh n f) :=
  ⟨rfl, rfl, fun _ _ _ => rfl, fun _ _ => rfl, fun _ hk => s.ch_modCh_ne n f hk⟩

theorem State.chainOf_emitOnce (c : Instr) : State.chainOf n s (s.emitOnce c) := by
  unfold State.emitOnce
  split
  · exact .refl
  · exact ⟨rfl, rfl, fun _ _ _ => rfl, fun _ _ => rfl, fun _ _ => rfl⟩

theorem State.chainOf_setFld {f : Fld} (h : f.reg.ofDma = true) (hb : RegName.DCHn_CFG.base ≠ f.reg.base) (v : Nat) :
    State.chainOf n s (s.setFld f n 0 v) := s.chainOf_own h hb _

theorem State.chainOf_raiseFld {f : Fld} (h : f.reg.ofDma = true) (hb : RegName.DCHn_CFG.base ≠ f.reg.base) (v : Nat) :
    State.chainOf n s (s.raiseFld f n 0 v) :=
  have own := s.chainOf_setFld (n := n) h hb v
  ⟨rfl, rfl, own.cfg, own.busy, fun _ _ => rfl⟩

theorem State.chainOf_bump {f : Fld} (h : f.reg.ofDma = true) (hb : RegName.DCHn_CFG.base ≠ f.reg.base) :
    State.chainOf n s (s.bump f n 0) := by
  refine ⟨rfl, rfl, fun g k hg => ?_, fun k hk => ?_, fun _ _ => rfl⟩
  · exact s.fld_bump_ne (by rw [hg]; exact RegName.dma_apart rfl h (.inr hb))
  · exact congrArg (· != 0) (s.fld_bump_ne (g := F.DCHn_STAT_BUSY) (RegName.dma_apart rfl h (.inl hk)))

theorem State.chainOf_raise (c : SrcId) : State.chainOf n s (s.evcRaise c) :=
  ⟨rfl, rfl, fun _ _ _ => rfl, fun _ _ => rfl, fun _ _ => rfl⟩

/-! ## Starts -/

/-- A channel with its chain armed at DCHn_DESC (R328). -/
def State.dmaArmed (n : Chan) : State :=
  ((s.setFld F.DCHn_STAT_BUSY n 0 1).setReg .DCHn_CUR n 0 (s.reg .DCHn_DESC n 0 &&& 0xFFFFFFE0)).modCh n fun _ => ⟨none, 0, 0, none⟩

variable (n)

theorem State.dmaGo_busy (hc : s.mode.cores = true) (hb : s.dmaBusy n = true) : s.dmaGo n = s.bump F.DCHn_OVR_OVR n 0 := by
  rw [State.dmaGo, hc, hb, Bool.not_true, if_neg Bool.false_ne_true, if_pos rfl]

theorem State.dmaGo_idle (hc : s.mode.cores = true) (hb : s.dmaBusy n = false) :
    s.dmaGo n = if s.dma.block.isNone then (s.dmaArmed n).emitOnce .dmaBlockStart else s.dmaArmed n := by
  rw [State.dmaGo, hc, hb, Bool.not_true, if_neg Bool.false_ne_true, if_neg Bool.false_ne_true]
  rfl

theorem State.chainOf_armed : State.chainOf n s (s.dmaArmed n) :=
  ((s.chainOf_own rfl (by decide) _).trans (State.chainOf_own _ (r := .DCHn_CUR) rfl (by decide) _)).trans (State.chainOf_modCh _ _)

theorem State.chainOf_dmaGo : State.chainOf n s (s.dmaGo n) := by
  by_cases hc : s.mode.cores = true
  · cases hb : s.dmaBusy n
    · rw [s.dmaGo_idle n hc hb]
      split
      · exact (s.chainOf_armed n).trans (State.chainOf_emitOnce _ _)
      · exact s.chainOf_armed n
    · rw [s.dmaGo_busy n hc hb]
      exact s.chainOf_bump rfl (by decide)
  · rw [State.dmaGo, if_pos (by simpa using hc)]
    exact .refl

/-! ## Ends -/

theorem State.chainOf_unreq : State.chainOf n s (s.dmaUnreq n) := by
  unfold State.dmaUnreq
  split
  · exact s.chainOf_queue _ _
  · exact .refl

theorem State.chainOf_idle : State.chainOf n s (s.dmaIdle n) :=
  (((s.chainOf_unreq n).trans (State.chainOf_setFld _ (f := F.DCHn_STAT_BUSY) rfl (by decide) _)).trans
    (State.chainOf_setFld _ (f := F.DCHn_STAT_REQ) rfl (by decide) _)).trans (State.chainOf_modCh _ _)

theorem State.chainOf_fail (code : Nat) : State.chainOf n s (s.dmaFail n code) :=
  ((s.chainOf_idle n).trans (State.chainOf_raiseFld _ (f := F.DCHn_STAT_ERR) rfl (by decide) _)).trans (State.chainOf_raise _ _)

theorem State.chainOf_descEnd (d : DmaDesc) : State.chainOf n s (s.dmaDescEnd n d) := by
  obtain ⟨u, hu⟩ : ∃ u, u = if d.irq then s.evcRaise (Fin.ofNat 512 (0x040 + 2 * n.val)) else s := ⟨_, rfl⟩
  have event : State.chainOf n s u := by
    rw [hu]
    split
    · exact s.chainOf_raise _
    · exact .refl
  rw [State.dmaDescEnd, ← hu]
  refine event.trans ?_
  split
  · exact (u.chainOf_idle n).trans (State.chainOf_raiseFld _ (f := F.DCHn_STAT_DONE) rfl (by decide) _)
  · split
    · exact u.chainOf_fail n 2
    · exact (State.chainOf_own _ (r := .DCHn_CUR) rfl (by decide) _).trans (State.chainOf_modCh _ _)

/-! ## Pacing -/

/-- The channel's request is judged on queue `q` from now on. -/
def State.dmaJoin (s : State) (n : Chan) (q : QId) : State :=
  (if s.dma.ch[n].on = some q then s else (s.dmaUnreq n).setFld F.DCHn_STAT_REQ n 0 0).modCh n fun c => { c with on := some q }

/-- Pacing leaves the state as it is, or shows the request on the channel and on its queue. -/
theorem State.dmaPace_cases : s.dmaPace n = s ∨
    ∃ q x, s.dmaPace n = ((s.dmaJoin n q).setFld F.DCHn_STAT_REQ n 0 x).setFld F.Qn_STAT_REQ q 0 x := by
  unfold State.dmaPace
  split
  · exact .inl rfl
  · split
    · exact .inl rfl
    · dsimp only
      split
      · exact .inr ⟨_, _, rfl⟩
      · exact .inr ⟨_, _, rfl⟩
      · exact .inl rfl

theorem State.dmaUnreq_dma : (s.dmaUnreq n).dma = s.dma := by
  unfold State.dmaUnreq
  split <;> rfl

theorem State.dmaJoin_dma (q : QId) : (s.dmaJoin n q).dma = (s.modCh n fun c => { c with on := some q }).dma := by
  unfold State.dmaJoin
  split
  · rfl
  · rw [State.modCh, State.modCh]
    dsimp only
    rw [State.setFld_dma, s.dmaUnreq_dma n]

theorem State.chainOf_join (q : QId) : State.chainOf n s (s.dmaJoin n q) := by
  unfold State.dmaJoin
  split
  · exact s.chainOf_modCh _
  · exact ((s.chainOf_unreq n).trans (State.chainOf_setFld _ (f := F.DCHn_STAT_REQ) rfl (by decide) _)).trans (State.chainOf_modCh _ _)

theorem State.chainOf_pace : State.chainOf n s (s.dmaPace n) := by
  obtain h | ⟨q, x, h⟩ := s.dmaPace_cases n
  · rw [h]
    exact .refl
  · rw [h]
    exact ((s.chainOf_join n q).trans (State.chainOf_setFld _ (f := F.DCHn_STAT_REQ) rfl (by decide) _)).trans (State.chainOf_queue _ _ _)

/-- Pacing a channel leaves its descriptor and its progress. -/
theorem State.dmaPace_ch : (s.dmaPace n).dma.ch[n].desc = s.dma.ch[n].desc ∧ (s.dmaPace n).dma.ch[n].done = s.dma.ch[n].done := by
  obtain h | ⟨q, x, h⟩ := s.dmaPace_cases n
  · rw [h]
    exact ⟨rfl, rfl⟩
  · have own : (s.dmaPace n).dma.ch[n] = { s.dma.ch[n] with on := some q } := by
      rw [h, State.setFld_dma, State.setFld_dma, s.dmaJoin_dma]
      exact s.ch_modCh_same n _
    rw [own]
    exact ⟨rfl, rfl⟩

theorem State.dmaPace_desc (k : Chan) : (s.dmaPace n).dma.ch[k].desc = s.dma.ch[k].desc := by
  by_cases hk : k = n
  · rw [hk]
    exact (s.dmaPace_ch n).1
  · rw [(s.chainOf_pace n).ch k hk]

/-- Pacing every channel leaves the time, the block and every descriptor. -/
theorem State.dmaPace_all (l : List Chan) : (l.foldl State.dmaPace s).now = s.now ∧ (l.foldl State.dmaPace s).dma.block = s.dma.block ∧
    ∀ k : Chan, (l.foldl State.dmaPace s).dma.ch[k].desc = s.dma.ch[k].desc := by
  refine foldl_keeps (fun t => t.now = s.now ∧ t.dma.block = s.dma.block ∧ ∀ k : Chan, t.dma.ch[k].desc = s.dma.ch[k].desc)
    (fun t n ⟨now, block, desc⟩ => ?_) l s ⟨rfl, rfl, fun _ => rfl⟩
  have paced := t.chainOf_pace n
  exact ⟨paced.now.trans now, paced.block.trans block, fun k => (t.dmaPace_desc n k).trans (desc k)⟩

/-! ## The commands -/

/-- A channel's registers are its owner's (R327). -/
theorem State.dmaOwned_foreign {r : Req} (h : r.owns (s.dmaOwner n) = false) (f : State → State) :
    s.dmaOwned r n f = s.bump F.DMA_ERR_CNT_FOREIGN 0 0 := by
  rw [State.dmaOwned, h, if_neg Bool.false_ne_true]

theorem State.dmaOwned_own {r : Req} (h : r.owns (s.dmaOwner n) = true) (f : State → State) : s.dmaOwned r n f = f s := by
  rw [State.dmaOwned, h, if_pos rfl]

/-- A write to a register of a channel by one that does not own it counts as foreign. -/
theorem State.regWrite_dma_foreign {r : Req} (h : r.owns (s.dmaOwner n) = false) {f : RegName}
    (hf : f ∈ [RegName.DCHn_CFG, .DCHn_DESC, .DCHn_CTRL, .DCHn_STAT, .DCHn_CNT, .DCHn_CUR, .DCHn_OVR]) (v : Word) :
    s.regWrite r f n 0 v = s.bump F.DMA_ERR_CNT_FOREIGN 0 0 := by
  have self : (Fin.ofNat 32 n.val : Chan) = n := Fin.ofNat_val_eq_self n
  have foreign (g : State → State) : s.dmaOwned r (Fin.ofNat 32 n.val) g = s.bump F.DMA_ERR_CNT_FOREIGN 0 0 := by
    rw [self]
    exact s.dmaOwned_foreign n h g
  simp only [List.mem_cons, List.not_mem_nil, or_false] at hf
  have service : s.regWrite r f n 0 v = s.serviceWrite r f n 0 v := by
    obtain rfl | rfl | rfl | rfl | rfl | rfl | rfl := hf <;> rfl
  rw [service]
  unfold State.serviceWrite
  obtain rfl | rfl | rfl | rfl | rfl | rfl | rfl := hf
  all_goals
    rw [if_neg fun h => absurd h.2.1 (by decide)]
    exact foreign _

/-- START writes only where the channel is the writer's. -/
theorem State.dmaCtrlWrite_start {r : Req} (h : r.owns (s.dmaOwner n) = true) : s.dmaCtrlWrite r n 1 = s.dmaStartWrite n :=
  s.dmaOwned_own n h _

theorem State.dmaCtrlWrite_abort {r : Req} (h : r.owns (s.dmaOwner n) = true) : s.dmaCtrlWrite r n 2 = s.dmaAbortWrite n :=
  s.dmaOwned_own n h _

/-- A fold of an operation that is due of one element alone, and of no other after it. -/
theorem foldl_guarded {α β : Type} {c : β → α → Prop} [∀ b a, Decidable (c b a)] {g : β → α → β} {l : List α} {p : α} (hl : l.Nodup)
    (hp : p ∈ l) {b : β} (hb : ∀ a, c b a ↔ a = p) (hg : ∀ a, a ≠ p → ¬c (g b p) a) :
    l.foldl (fun t a => if c t a then g t a else t) b = g b p := by
  obtain ⟨l₁, l₂, rfl⟩ := List.append_of_mem hp
  rw [List.nodup_middle, List.nodup_cons, List.mem_append, not_or] at hl
  obtain ⟨⟨before, after⟩, -⟩ := hl
  rw [List.foldl_append, List.foldl_cons, foldl_const fun a ha => if_neg fun h => before ((hb a).mp h ▸ ha), if_pos ((hb p).mpr rfl)]
  exact foldl_const fun a ha => if_neg (hg a fun e => after (e ▸ ha))

/-- A peripheral request starts the one channel of its line. -/
theorem State.dmaPeripheral_single (line : Fin 32)
    (h : ∀ k : Chan, (s.fld F.DCHn_CFG_REQ k 0 = 2 ∧ s.fld F.DCHn_CFG_PREQ k 0 = line.val) ↔ k = n) :
    execDmaPeripheralRequest line s = .next (s.dmaGo n) := by
  refine congrArg (fun t => (.next t : Out)) (foldl_guarded
    (c := fun (t : State) (k : Chan) => t.fld F.DCHn_CFG_REQ k 0 = 2 ∧ t.fld F.DCHn_CFG_PREQ k 0 = line.val) (g := State.dmaGo)
    (List.nodup_finRange 32) (List.mem_finRange n) h fun k hk => ?_)
  rw [(s.chainOf_dmaGo n).cfg _ _ rfl, (s.chainOf_dmaGo n).cfg _ _ rfl, h k]
  exact hk

/-! ## Failures -/

/-- A chain that ends leaves the engine. -/
theorem State.dmaIdle_only : ∃ g, s.dmaIdle n = { s with regs := g, dma := { s.dma with ch := vset s.dma.ch n ⟨none, 0, 0, none⟩ } } := by
  obtain ⟨g, hg⟩ : ∃ g, s.dmaUnreq n = { s with regs := g } := by
    unfold State.dmaUnreq
    split <;> exact ⟨_, rfl⟩
  rw [State.dmaIdle, hg]
  exact ⟨_, rfl⟩

theorem State.dmaIdle_unused : (s.dmaIdle n).flag F.DCHn_STAT_BUSY n 0 = false ∧ (s.dmaIdle n).flag F.DCHn_STAT_REQ n 0 = false := by
  obtain ⟨u, hu⟩ : ∃ u, u = (s.dmaUnreq n).setFld F.DCHn_STAT_BUSY n 0 0 := ⟨_, rfl⟩
  have busy : u.fld F.DCHn_STAT_BUSY n 0 = 0 := by
    rw [hu]
    exact State.fld_setFld_same _ _ _ _ _ (by decide)
  have idle (f : Fld) : (s.dmaIdle n).flag f n 0 = ((u.setFld F.DCHn_STAT_REQ n 0 0).fld f n 0 != 0) := by rw [hu]; rfl
  refine ⟨?_, ?_⟩
  · rw [idle, State.fld_setFld_apart _ (f := F.DCHn_STAT_REQ) (g := F.DCHn_STAT_BUSY) _ rfl (by decide) (by decide) (by decide), busy]
    rfl
  · rw [idle, State.fld_setFld_same _ _ _ _ _ (by decide)]
    rfl

theorem State.dmaFail_only (code : Nat) : ∃ g h, s.dmaFail n code =
    ({ s with
      regs := g
      hits := h
      dma := { s.dma with ch := vset s.dma.ch n ⟨none, 0, 0, none⟩ } } : State).evcRaise (Fin.ofNat 512 (0x041 + 2 * n.val)) := by
  obtain ⟨g, hg⟩ := s.dmaIdle_only n
  rw [State.dmaFail, hg]
  exact ⟨_, _, rfl⟩

/-- The request of the channel's queue is gone once the chain has left the engine. -/
theorem State.dmaIdle_unreq {q : QId} (h : s.dma.ch[n].on = some q) : (s.dmaIdle n).fld F.Qn_STAT_REQ q 0 = 0 := by
  have queue : RegName.Qn_STAT.addr q 0 ≠ RegName.DCHn_STAT.addr n 0 := (RegName.dma_queue rfl n q).symm
  obtain ⟨u, hu⟩ : ∃ u, u = s.dmaUnreq n := ⟨_, rfl⟩
  have unreq : u.fld F.Qn_STAT_REQ q 0 = 0 := by
    rw [hu, State.dmaUnreq, h]
    exact State.fld_setFld_same _ _ _ _ _ (by decide)
  have idle : (s.dmaIdle n).fld F.Qn_STAT_REQ q 0 =
      ((u.setFld F.DCHn_STAT_BUSY n 0 0).setFld F.DCHn_STAT_REQ n 0 0).fld F.Qn_STAT_REQ q 0 := by rw [hu]; rfl
  rw [idle, State.fld_setFld_ne _ (f := F.DCHn_STAT_REQ) _ queue, State.fld_setFld_ne _ (f := F.DCHn_STAT_BUSY) _ queue, unreq]

/-- What a failed chain shows, and what else it changes (R334). -/
theorem State.dmaFail_spec {code : Nat} (hc : code < 256) :
    let t := s.dmaFail n code
    t.flag F.DCHn_STAT_BUSY n 0 = false ∧ t.flag F.DCHn_STAT_REQ n 0 = false ∧ t.fld F.DCHn_STAT_ERR n 0 = code ∧
    t.cal = s.cal ++ [(s.now + 1, .evcEvent (Fin.ofNat 512 (0x041 + 2 * n.val)))] ∧
    t = { s with regs := t.regs, cal := t.cal, hits := t.hits, dma := { s.dma with ch := vset s.dma.ch n ⟨none, 0, 0, none⟩ } } ∧
    ∀ q, s.dma.ch[n].on = some q → t.flag F.Qn_STAT_REQ q 0 = false := by
  obtain ⟨busy, req⟩ := s.dmaIdle_unused n
  obtain ⟨g, h, form⟩ := s.dmaFail_only n code
  have shown (f : Fld) (i : Nat) : (s.dmaFail n code).fld f i 0 = ((s.dmaIdle n).raiseFld F.DCHn_STAT_ERR n 0 code).fld f i 0 := rfl
  intro t
  refine ⟨?_, ?_, ?_, ?_, ?_, fun q hq => ?_⟩
  · rw [State.flag, shown, State.fld_raiseFld_apart _ (f := F.DCHn_STAT_ERR) (g := F.DCHn_STAT_BUSY) _ rfl (by decide) (by decide)
      (by decide)]
    exact busy
  · rw [State.flag, shown, State.fld_raiseFld_apart _ (f := F.DCHn_STAT_ERR) (g := F.DCHn_STAT_REQ) _ rfl (by decide) (by decide)
      (by decide)]
    exact req
  · rw [shown, State.fld_raiseFld_same _ _ _ _ _ (by decide)]
    exact Nat.mod_eq_of_lt hc
  · rw [show t = _ from form]
    rfl
  · rw [show t = _ from form]
    rfl
  · rw [State.flag, shown, State.fld_raiseFld_ne _ _ (RegName.dma_queue rfl n q).symm, s.dmaIdle_unreq n hq]
    rfl

/-! ## Commands of DCHn_CTRL -/

/-- START of an owned channel: an overrun where a chain is in progress, else the chain is armed. -/
theorem State.dmaStartWrite_go (hc : s.mode.cores = true) (h : s.fld F.DCHn_CFG_REQ n 0 < 2 ∨ s.dmaBusy n = true) :
    s.dmaStartWrite n = if s.dmaBusy n then s.bump F.DCHn_OVR_OVR n 0
      else if s.dma.block.isNone then (s.dmaArmed n).emitOnce .dmaBlockStart else s.dmaArmed n := by
  rw [State.dmaStartWrite, if_pos (by simpa using h)]
  cases hb : s.dmaBusy n
  · exact s.dmaGo_idle n hc hb
  · exact s.dmaGo_busy n hc hb

theorem State.dmaStartWrite_idle (h : 2 ≤ s.fld F.DCHn_CFG_REQ n 0) (hb : s.dmaBusy n = false) : s.dmaStartWrite n = s := by
  rw [State.dmaStartWrite, if_neg (by simp [hb]; omega)]

theorem State.dmaAbortWrite_idle (hb : s.dmaBusy n = false) : s.dmaAbortWrite n = s := by
  rw [State.dmaAbortWrite, hb, Bool.not_false, if_pos rfl]

theorem State.dmaAbortWrite_waiting (hb : s.dmaBusy n = true) (he : s.dmaExec n = false) : s.dmaAbortWrite n = s.dmaFail n 7 := by
  rw [State.dmaAbortWrite, hb, he, Bool.not_true, if_neg Bool.false_ne_true, if_neg Bool.false_ne_true]

theorem State.dmaAbortWrite_block {b : DmaBlock} (hb : s.dmaBusy n = true) (h : s.dma.block = some b) (hn : b.chan = n) :
    s.dmaAbortWrite n = ({ s with dma := { s.dma with block := some { b with stop := true } } } : State).emitOnce .dmaBlockEnd := by
  have ex : s.dmaExec n = true := by simp [State.dmaExec, h, hn]
  rw [State.dmaAbortWrite, hb, ex, Bool.not_true, if_neg Bool.false_ne_true, if_pos rfl, h]
  rfl
end
end Sys2Proof.Machine
end

