-- ==== Sys2Proof/Proofs/DmaMemory.lean ====
section
/-! PROOF. The engine's accesses to SRAM: what a read gives, what the write beats store (R330). -/

namespace Sys2Proof.Machine

/-! ## Bytes of numbers -/

theorem ofNat_byte_mod {v w k n : Nat} (h : k < n) : BitVec.ofNat 8 ((v % 256 ^ n + 256 ^ n * w) / 256 ^ k) = BitVec.ofNat 8 (v / 256 ^ k) := by
  obtain ⟨m, rfl⟩ : ∃ m, n = k + 1 + m := ⟨n - (k + 1), by omega⟩
  apply BitVec.eq_of_toNat_eq
  have top : (v % 256 ^ (k + 1 + m) + 256 ^ (k + 1 + m) * w) % 256 ^ (k + 1) = v % 256 ^ (k + 1) := by
    rw [Nat.pow_add, Nat.mul_assoc, Nat.add_mul_mod_self_left, Nat.mod_mul_right_mod]
  have byte (x : Nat) : x / 256 ^ k % 256 = x % 256 ^ (k + 1) / 256 ^ k := by rw [Nat.pow_succ, Nat.mod_mul_right_div_self]
  simp only [BitVec.toNat_ofNat]
  rw [show 2 ^ 8 = 256 from rfl, byte, byte v, top]

theorem ofNat_byte_above {v w k n : Nat} : BitVec.ofNat 8 ((v % 256 ^ n + 256 ^ n * w) / 256 ^ (n + k)) = BitVec.ofNat 8 (w / 256 ^ k) := by
  rw [Nat.pow_add, ← Nat.div_div_eq_div_mul, Nat.add_mul_div_left _ _ (Nat.pow_pos (by decide)),
    Nat.div_eq_of_lt (Nat.mod_lt _ (Nat.pow_pos (by decide))), Nat.zero_add]

/-- A byte of what lies at an address. -/
theorem State.ofNat_readLE (s : State) (a : Nat) {n k : Nat} (h : k < n) : BitVec.ofNat 8 (s.readLE a n / 256 ^ k) = s.byte (a + k) := by
  induction n generalizing a k with
  | zero => omega
  | succ n ih =>
    have one := (s.byte a).isLt
    rw [State.readLE]
    cases k with
    | zero =>
      apply BitVec.eq_of_toNat_eq
      rw [BitVec.toNat_ofNat, Nat.pow_zero, Nat.div_one, Nat.add_zero a]
      omega
    | succ k =>
      rw [Nat.pow_succ, Nat.mul_comm (256 ^ k), ← Nat.div_div_eq_div_mul, Nat.add_mul_div_left _ _ (by decide), Nat.div_eq_of_lt one, Nat.zero_add,
        ih (a + 1) (by omega)]
      congr 1
      omega

/-! ## Memory without upsets -/

/-- An address of SRAM. -/
def inSram (a : Nat) : Prop := 0x20000000 ≤ a ∧ a < 0x21800000

/-- No upset, and no STC of this lc. -/
def State.dmaClean (s : State) : Prop := s.upset = [] ∧ ∀ (q : Pair) (c : StcRec), (s.pair q).stc = some c → c.lc ≠ s.now

/-- Memory, with what its accesses leave in the interconnect, the pairs and the answer, is all that changes. -/
def State.memOnly (s t : State) : Prop := ∃ i p m a, t = { s with ix := i, pairs := p, mem := m, ans := a }

section
variable {s t u : State}

theorem State.memOnly.refl : State.memOnly s s := ⟨s.ix, s.pairs, s.mem, s.ans, rfl⟩

theorem State.memOnly.trans (h : State.memOnly s t) (h' : State.memOnly t u) : State.memOnly s u := by
  obtain ⟨_, _, _, _, rfl⟩ := h
  obtain ⟨i, p, m, a, rfl⟩ := h'
  exact ⟨i, p, m, a, rfl⟩

theorem State.cleanAt_of_clean (h : s.upset = []) (a n : Nat) : s.cleanAt a n := fun u _ => by rw [h]; rfl

theorem place_sram {r : Req} {a : Nat} (h : inSram a) (n : Nat) : place r a n = .ram a := by
  obtain ⟨lo, hi⟩ := h
  have flash : inFlash a = false := by simp [inFlash]; omega
  rw [place, if_neg (by omega), flash, if_neg Bool.false_ne_true, if_pos ⟨lo, hi⟩]

/-- A store of another master than a pair to SRAM. -/
theorem State.busWrite_sram {r : Req} (hr : r.pair = none) {a : Nat} (ha : inSram a) (v n : Nat) (h : s.dmaClean) :
    let t := s.busWrite r a v n
    State.memOnly s t ∧ t.dmaClean ∧ t.ans.err = false ∧
      ∀ x, t.byte x = if a ≤ x ∧ x < a + n then BitVec.ofNat 8 (v / 256 ^ (x - a)) else s.byte x := by
  obtain ⟨upset, stc⟩ := h
  obtain ⟨i, hi⟩ := (s.answer 0).beat_only r.master true false a n
  obtain ⟨b, hb⟩ : ∃ b : State, b = { s.answer 0 with ix := i } := ⟨_, rfl⟩
  have hecc : b.eccWrite a n = (false, b) := State.eccWrite_clean (State.cleanAt_of_clean (by rw [hb]; exact upset) a n)
  obtain ⟨p, hp, pairs⟩ := State.snoop_fold none (a / 32) ((a + n - 1) / 32) (List.finRange 4) (List.nodup_finRange 4) b
    fun q _ _ => by rw [hb]; exact stc q
  have form : s.busWrite r a v n = ({ b with pairs := p } : State).writeLE a v n := by
    rw [State.busWrite, place_sram ha]
    simp only [hi, ← hb]
    obtain ⟨lo, hi⟩ := ha
    rw [State.ramWrite, if_neg (by omega), hecc, if_neg (by simp), hr]
    exact congrArg (fun u : State => u.writeLE a v n) hp
  have only := State.writeLE_only_mem { b with pairs := p } a v n
  intro t
  have whole : t = { b with pairs := p, mem := (({ b with pairs := p } : State).writeLE a v n).mem } := form.trans only
  refine ⟨⟨i, p, _, ⟨0, false⟩, by rw [whole, hb]; rfl⟩, ⟨by rw [whole, hb]; exact upset, fun q c hc => ?_⟩, by rw [whole, hb]; rfl,
    fun x => ?_⟩
  · have own : t.pair q = p[q] := by rw [whole]; rfl
    have now : t.now = s.now := by rw [whole, hb]; rfl
    have kept : (t.pair q).stc = (s.pair q).stc := by
      rw [own, pairs, if_pos ⟨List.mem_finRange q, by simp⟩, hb]
      unfold PairSt.snooped
      split
      · split <;> rfl
      · rfl
    rw [now]
    exact stc q c (kept ▸ hc)
  · rw [show t = _ from form, State.byte_writeLE, hb]
    rfl

/-! ## Write beats -/

/-- A byte of none of the units. -/
def DmaUnits.misses (us : DmaUnits) (n x : Nat) : Prop := ∀ y ∈ us, x < y.2.1 ∨ y.2.1 + n ≤ x

/-- Every byte of the units stands in its place. -/
def State.holds (s : State) (us : DmaUnits) (n : Nat) : Prop := ∀ y ∈ us, ∀ i < n, s.byte (y.2.1 + i) = BitVec.ofNat 8 (y.2.2 / 256 ^ i)

/-- The number that one write of units in a row stores. -/
def DmaUnits.value (us : DmaUnits) (n : Nat) : Nat := us.foldr (fun u v => u.2.2 % 256 ^ n + 256 ^ n * v) 0

theorem DmaUnits.value_run {us : DmaUnits} {n a : Nat} (h : unitRun n a us = true) :
    (∀ y ∈ us, a ≤ y.2.1 ∧ y.2.1 + n ≤ a + n * us.length ∧
      ∀ i < n, BitVec.ofNat 8 (us.value n / 256 ^ (y.2.1 + i - a)) = BitVec.ofNat 8 (y.2.2 / 256 ^ i)) ∧
    ∀ x, us.misses n x → ¬(a ≤ x ∧ x < a + n * us.length) := by
  induction us generalizing a with
  | nil => exact ⟨by simp, fun x _ => by simp⟩
  | cons y us ih =>
    obtain ⟨j, b, v⟩ := y
    simp only [unitRun, Bool.and_eq_true, decide_eq_true_eq] at h
    obtain ⟨rfl, run⟩ := h
    obtain ⟨here, outside⟩ := ih run
    have len : n * ((j, a, v) :: us).length = n + n * us.length := by rw [List.length_cons]; ring
    refine ⟨fun y hy => ?_, fun x hx => ?_⟩
    · rcases List.mem_cons.mp hy with rfl | hy
      · refine ⟨le_refl _, by rw [len]; dsimp only; omega, fun i hi => ?_⟩
        rw [show a + i - a = i by omega]
        exact ofNat_byte_mod hi
      · obtain ⟨lo, hi, bytes⟩ := here y hy
        refine ⟨by omega, by rw [len]; omega, fun i hlt => ?_⟩
        rw [show y.2.1 + i - a = n + (y.2.1 + i - (a + n)) by omega, ← bytes i hlt]
        exact ofNat_byte_above
    · have first := hx _ (.head _)
      have others := outside x fun y hy => hx y (.tail _ hy)
      rw [len]
      dsimp only at first
      omega

/-- Units are apart in memory. -/
def DmaUnits.apart (us : DmaUnits) (n : Nat) : Prop := us.Pairwise fun x y => x.2.1 + n ≤ y.2.1 ∨ y.2.1 + n ≤ x.2.1

/-- What a write beat to SRAM does: its units stand in memory, and nothing else of it has changed. -/
def State.beatMade (s : State) (us : DmaUnits) (n : Nat) (t : Bool × State) : Prop :=
  t.1 = false ∧ State.memOnly s t.2 ∧ t.2.dmaClean ∧ t.2.holds us n ∧ ∀ x, us.misses n x → t.2.byte x = s.byte x

theorem State.dmaBeat_each {r : Req} (hr : r.pair = none) {n : Nat} : ∀ (us : DmaUnits) (s : State), s.dmaClean →
    (∀ y ∈ us, inSram y.2.1) → us.apart n →
    s.beatMade us n (us.foldl (fun x u => let s := x.2.busWrite r u.2.1 u.2.2 n; (x.1 || s.ans.err, s)) (false, s))
  | [], s, h, _, _ => ⟨rfl, .refl, h, fun y hy => absurd hy (by simp), fun _ _ => rfl⟩
  | y :: us, s, h, sram, ap => by
    obtain ⟨apart, rest⟩ := List.pairwise_cons.mp ap
    obtain ⟨only, clean, sound, bytes⟩ := State.busWrite_sram hr (sram y (.head _)) y.2.2 n h
    obtain ⟨ok, only', clean', holds, kept⟩ := State.dmaBeat_each hr us _ clean (fun z hz => sram z (.tail _ hz)) rest
    have fold : (y :: us).foldl (fun x u => let s := x.2.busWrite r u.2.1 u.2.2 n; (x.1 || s.ans.err, s)) (false, s) =
        us.foldl (fun x u => let s := x.2.busWrite r u.2.1 u.2.2 n; (x.1 || s.ans.err, s)) (false, s.busWrite r y.2.1 y.2.2 n) := by
      rw [List.foldl_cons]
      dsimp only
      rw [sound]
      rfl
    rw [fold]
    refine ⟨ok, only.trans only', clean', fun z hz i hi => ?_, fun x hx => ?_⟩
    · rcases List.mem_cons.mp hz with rfl | hz
      · have own : DmaUnits.misses us n (z.2.1 + i) := fun w hw => by
          have := apart w hw
          omega
        rw [kept _ own, bytes, if_pos (by omega), Nat.add_sub_cancel_left]
      · exact holds z hz i hi
    · have own := hx y (.head _)
      rw [kept x fun z hz => hx z (.tail _ hz), bytes, if_neg (by omega)]

theorem State.dmaBeat_sram {r : Req} (hr : r.pair = none) {n : Nat} {us : DmaUnits} (h : s.dmaClean) (sram : ∀ y ∈ us, inSram y.2.1)
    (ap : us.apart n) : s.beatMade us n (s.dmaBeat r n us) := by
  cases us with
  | nil => exact ⟨rfl, .refl, h, fun y hy => absurd hy (by simp), fun _ _ => rfl⟩
  | cons y us =>
    obtain ⟨j, a, v⟩ := y
    rw [State.dmaBeat]
    split
    · next run =>
      obtain ⟨each, outside⟩ := DmaUnits.value_run run
      obtain ⟨only, clean, sound, bytes⟩ := State.busWrite_sram hr (sram (j, a, v) (.head _)) (DmaUnits.value ((j, a, v) :: us) n)
        (n * ((j, a, v) :: us).length) h
      refine ⟨sound, only, clean, fun y hy i hi => ?_, fun x hx => ?_⟩
      · obtain ⟨lo, hi', val⟩ := each y hy
        rw [← val i hi]
        exact (bytes _).trans (if_pos (by dsimp only; omega))
      · exact (bytes x).trans (if_neg (outside x hx))
    · exact State.dmaBeat_each hr _ s h sram ap
end

end Sys2Proof.Machine
end

