-- ==== Sys2Proof/Proofs/DmaFlows.lean ====
section
/-! PROOF. The beats that a block holds on its way: the units it has read, the units it has written or still gathers (R330). -/

namespace Sys2Proof.Machine

/-! ## Units written -/

/-- Destination units lo to hi − 1 lie in SRAM, apart from one another. -/
structure DmaDesc.outside (d : DmaDesc) (lo hi : Nat) : Prop where
  sram : ∀ j, lo ≤ j → j < hi → inSram (d.dstAddr j)
  last : ∀ j, lo ≤ j → j < hi → d.dstAddr j + d.dstUnit ≤ 0x21800000
  apart : ∀ i j, i < j → j < hi → lo ≤ i → d.dstAddr i + d.dstUnit ≤ d.dstAddr j ∨ d.dstAddr j + d.dstUnit ≤ d.dstAddr i

/-- Unit j of the values `w`, gathered for its write beat. -/
def DmaDesc.outUnit (d : DmaDesc) (w : Nat → Nat) (j : Nat) : Nat × Nat × Nat := (j, d.dstAddr j, w j)

/-- The units are units lo to hi − 1 of the values, in order. -/
structure DmaDesc.gathers (d : DmaDesc) (w : Nat → Nat) (lo hi : Nat) (us : DmaUnits) : Prop where
  unit : ∀ y ∈ us, lo ≤ y.1 ∧ y.1 < hi ∧ y = d.outUnit w y.1
  order : us.Pairwise fun x y => x.1 < y.1

/-- Units lo to hi − 1 of the values have been written to memory as `s` had it, but for those in the beats `wr`. -/
structure State.dmaWritten (s : State) (d : DmaDesc) (w : Nat → Nat) (lo hi : Nat) (u : State) (wr : List (Nat × DmaUnits)) : Prop where
  pend : ∀ x ∈ wr, d.gathers w lo hi x.2
  once : (wr.map (·.1)).Nodup
  stored : ∀ j, lo ≤ j → j < hi → (∃ x ∈ wr, d.outUnit w j ∈ x.2) ∨
    ∀ i < d.dstUnit, u.byte (d.dstAddr j + i) = BitVec.ofNat 8 (w j / 256 ^ i)
  rest : ∀ a, (∀ j, lo ≤ j → j < hi → a < d.dstAddr j ∨ d.dstAddr j + d.dstUnit ≤ a) → u.byte a = s.byte a

section
variable {s u : State} {d : DmaDesc} {w : Nat → Nat} {lo hi top : Nat} {wr : List (Nat × DmaUnits)}

theorem State.dmaWritten.start : s.dmaWritten d w lo lo s [] :=
  ⟨by simp, by simp, fun j h1 h2 => by omega, fun _ _ => rfl⟩

theorem DmaDesc.gathers.apart {us : DmaUnits} (h : d.gathers w lo hi us) (out : d.outside lo top) (le : hi ≤ top) : us.apart d.dstUnit := by
  refine List.Pairwise.imp_of_mem (fun {x y} hx hy lt => ?_) h.order
  obtain ⟨xlo, xhi, ex⟩ := h.unit x hx
  obtain ⟨ylo, yhi, ey⟩ := h.unit y hy
  rw [ex, ey]
  exact out.apart _ _ lt (by omega) xlo

/-- A write beat of gathered units is made. -/
theorem State.dmaWritten.beat (h : s.dmaWritten d w lo hi u wr) (clean : u.dmaClean) (out : d.outside lo top) (le : hi ≤ top) {r : Req}
    (hr : r.pair = none) {us : DmaUnits} (hus : d.gathers w lo hi us) {left : List (Nat × DmaUnits)} (hleft : left.Sublist wr)
    (made : ∀ x ∈ wr, x ∈ left ∨ x.2 = us) :
    let t := u.dmaBeat r d.dstUnit us
    t.1 = false ∧ State.memOnly u t.2 ∧ t.2.dmaClean ∧ s.dmaWritten d w lo hi t.2 left := by
  have addr : ∀ y ∈ us, y.2.1 = d.dstAddr y.1 := fun y hy => by rw [(hus.unit y hy).2.2]; rfl
  have sram : ∀ y ∈ us, inSram y.2.1 := fun y hy => by
    obtain ⟨h1, h2, -⟩ := hus.unit y hy
    rw [addr y hy]
    exact out.sram _ h1 (by omega)
  obtain ⟨ok, only, clean', holds, kept⟩ := State.dmaBeat_sram hr clean sram (hus.apart out le)
  refine ⟨ok, only, clean', fun x hx => h.pend x (hleft.subset hx), h.once.sublist (hleft.map _), fun j h1 h2 => ?_, fun a ha => ?_⟩
  · by_cases hj : d.outUnit w j ∈ us
    · exact .inr fun i hi => holds _ hj i hi
    · rcases h.stored j h1 h2 with ⟨x, hx, hy⟩ | stands
      · rcases made x hx with hx | e
        · exact .inl ⟨x, hx, hy⟩
        · exact absurd (e ▸ hy) hj
      · refine .inr fun i hi => ?_
        have off : us.misses d.dstUnit (d.dstAddr j + i) := fun y hy => by
          obtain ⟨y1, y2, ey⟩ := hus.unit y hy
          have ne : y.1 ≠ j := fun e => hj (by rw [← e, ← ey]; exact hy)
          rw [addr y hy]
          rcases Nat.lt_or_gt_of_ne ne with lt | lt
          · have := out.apart _ _ lt (by omega) y1
            omega
          · have := out.apart _ _ lt (by omega) h1
            omega
        rw [kept _ off, stands i hi]
  · rw [kept a fun y hy => by
      obtain ⟨y1, y2, -⟩ := hus.unit y hy
      rw [addr y hy]
      exact ha _ y1 y2]
    exact h.rest a ha

/-- Beats of distinct addresses: the one at an address is the one that is found. -/
theorem find?_of_once {β : Type} {l : List (Nat × β)} (h : (l.map (·.1)).Nodup) {x : Nat × β} (hx : x ∈ l) :
    l.find? (fun y => decide (y.1 = x.1)) = some x := by
  induction l with
  | nil => exact absurd hx (by simp)
  | cons y l ih =>
    rw [List.map_cons, List.nodup_cons] at h
    obtain ⟨fresh, rest⟩ := h
    rcases List.mem_cons.mp hx with rfl | hx
    · rw [List.find?_cons_of_pos (by simp)]
    · have ne : y.1 ≠ x.1 := fun e => fresh (List.mem_map.mpr ⟨x, hx, e.symm⟩)
      rw [List.find?_cons_of_neg (by simpa using ne), ih rest hx]

/-- The beats with unit `hi` gathered for the one at `base`. -/
def gathered (wr : List (Nat × DmaUnits)) (base : Nat) (y : Nat × Nat × Nat) : DmaUnits :=
  ((wr.find? fun x => decide (x.1 = base)).map (·.2)).getD [] ++ [y]

theorem State.dmaWritten.gather (h : s.dmaWritten d w lo hi u wr) (le : lo ≤ hi) (base : Nat) :
    let us := gathered wr base (d.outUnit w hi)
    d.gathers w lo (hi + 1) us ∧
      s.dmaWritten d w lo (hi + 1) u ((wr.filter fun x => decide (x.1 ≠ base)) ++ [(base, us)]) := by
  have wider : ∀ {us : DmaUnits}, d.gathers w lo hi us → d.gathers w lo (hi + 1) us := fun g =>
    ⟨fun y hy => ⟨(g.unit y hy).1, Nat.lt_succ_of_lt (g.unit y hy).2.1, (g.unit y hy).2.2⟩, g.order⟩
  have before : d.gathers w lo hi (((wr.find? fun x => decide (x.1 = base)).map (·.2)).getD []) := by
    cases found : wr.find? fun x => decide (x.1 = base) with
    | none => exact ⟨by simp, by simp⟩
    | some x => exact h.pend x (List.mem_of_find?_eq_some found)
  have all : d.gathers w lo (hi + 1) (gathered wr base (d.outUnit w hi)) := by
    refine ⟨fun y hy => ?_, List.pairwise_append.mpr ⟨before.order, List.pairwise_singleton _ _, fun x hx y hy => ?_⟩⟩
    · rcases List.mem_append.mp hy with hy | hy
      · exact (wider before).unit y hy
      · rw [List.mem_singleton.mp hy]
        exact ⟨le, Nat.lt_succ_self _, rfl⟩
    · rw [List.mem_singleton.mp hy]
      exact (before.unit x hx).2.1
  refine ⟨all, fun x hx => ?_, ?_, fun j h1 h2 => ?_, fun a ha => h.rest a fun j h1 h2 => ha j h1 (by omega)⟩
  · rcases List.mem_append.mp hx with hx | hx
    · exact wider (h.pend x (List.mem_of_mem_filter hx))
    · rw [List.mem_singleton.mp hx]
      exact all
  · rw [List.map_append, List.map_singleton]
    refine List.nodup_append.mpr ⟨h.once.sublist (List.filter_sublist.map _), List.nodup_singleton _, fun a ha b hb e => ?_⟩
    obtain ⟨x, hx, rfl⟩ := List.mem_map.mp ha
    rw [List.mem_singleton.mp hb] at e
    simp [e] at hx
  · rcases Nat.lt_or_ge j hi with lt | ge
    · rcases h.stored j h1 lt with ⟨x, hx, hy⟩ | stands
      · by_cases hb : x.1 = base
        · refine .inl ⟨_, List.mem_append_right _ (.head _), List.mem_append_left _ ?_⟩
          rw [← hb, find?_of_once h.once hx]
          exact hy
        · exact .inl ⟨x, List.mem_append_left _ (List.mem_filter.mpr ⟨hx, by simpa using hb⟩), hy⟩
      · exact .inr stands
    · obtain rfl : j = hi := by omega
      exact .inl ⟨_, List.mem_append_right _ (.head _), List.mem_append_right _ (.head _)⟩

/-- A unit is placed in its write beat, which is made once it is full. -/
theorem State.dmaPut_memory (h : s.dmaWritten d w lo hi u wr) (clean : u.dmaClean) (hd : d.dstmode = 0) (out : d.outside lo top)
    (le : lo ≤ hi) (lt : hi < top) {r : Req} (hr : r.pair = none) (rd : List (Nat × Nat)) :
    ∃ wr' t, u.dmaPut r d ⟨rd, wr⟩ hi (w hi) = (none, ⟨rd, wr'⟩, t) ∧ State.memOnly u t ∧ t.dmaClean ∧
      s.dmaWritten d w lo (hi + 1) t wr' := by
  have side : sideQueue d.dstmode d.dst = none := by rw [hd]; rfl
  obtain ⟨base, hbase⟩ : ∃ b, b = d.dstAddr hi / beatBytes (d.dstAddr hi) * beatBytes (d.dstAddr hi) := ⟨_, rfl⟩
  obtain ⟨us, hus⟩ : ∃ us, us = gathered wr base (d.outUnit w hi) := ⟨_, rfl⟩
  obtain ⟨all, written⟩ := h.gather le base
  rw [← hus] at all written
  have units : ((wr.find? fun x => decide (x.1 = base)).map (·.2)).getD [] ++ [(hi, d.dstAddr hi, w hi)] = us := hus.symm
  rw [State.dmaPut, side]
  simp only [← hbase, units]
  split
  · obtain ⟨ok, only, clean', written'⟩ := written.beat clean out lt hr all (List.sublist_append_left _ _) fun x hx => by
      rcases List.mem_append.mp hx with hx | hx
      · exact .inl hx
      · rw [List.mem_singleton.mp hx]
        exact .inr rfl
    rw [ok]
    exact ⟨_, _, rfl, only, clean', written'⟩
  · exact ⟨_, _, rfl, .refl, clean, written⟩

/-- Units from unit `hi` on are placed. -/
theorem State.dmaWrite_memory (hd : d.dstmode = 0) (out : d.outside lo top) {r : Req} (hr : r.pair = none) (rd : List (Nat × Nat)) :
    ∀ (vs : List Nat) (u : State) (hi : Nat) (wr : List (Nat × DmaUnits)), s.dmaWritten d w lo hi u wr → u.dmaClean → lo ≤ hi →
      hi + vs.length ≤ top → (∀ i (h : i < vs.length), vs[i] = w (hi + i)) →
      ∃ wr' t, u.dmaWrite r d ⟨rd, wr⟩ hi vs = (none, ⟨rd, wr'⟩, t) ∧ State.memOnly u t ∧ t.dmaClean ∧
        s.dmaWritten d w lo (hi + vs.length) t wr'
  | [], u, hi, wr, h, clean, _, _, _ => ⟨wr, u, rfl, .refl, clean, h⟩
  | v :: vs, u, hi, wr, h, clean, le, room, val => by
    rw [List.length_cons] at room
    have first : v = w hi := val 0 (by simp)
    obtain ⟨wr1, t1, put, only, clean', h'⟩ := State.dmaPut_memory h clean hd out le (by omega) hr rd
    obtain ⟨wr2, t2, write, only', clean'', h''⟩ := State.dmaWrite_memory hd out hr rd vs t1 (hi + 1) wr1 h' clean' (by omega) (by omega)
      fun i hi' => by
        have := val (i + 1) (by simpa using hi')
        rw [List.getElem_cons_succ] at this
        rw [this]
        congr 1
        omega
    refine ⟨wr2, t2, ?_, only.trans only', clean'', ?_⟩
    · rw [State.dmaWrite, first, put]
      exact write
    · rw [List.length_cons, show hi + (vs.length + 1) = hi + 1 + vs.length by omega]
      exact h''

/-- The write beats that are not full are made in the end. -/
theorem State.dmaFlush_memory (out : d.outside lo hi) {r : Req} (hr : r.pair = none) :
    ∀ (wr : List (Nat × DmaUnits)) (u : State), s.dmaWritten d w lo hi u wr → u.dmaClean →
      ∃ t, u.dmaFlush r d.dstUnit wr = ([], t) ∧ State.memOnly u t ∧ t.dmaClean ∧ s.dmaWritten d w lo hi t []
  | [], u, h, clean => ⟨u, rfl, .refl, clean, h⟩
  | x :: wr, u, h, clean => by
    obtain ⟨ok, only, clean', h'⟩ := h.beat clean out (le_refl _) hr (h.pend x (.head _)) (List.sublist_cons_self x wr) fun y hy => by
      rcases List.mem_cons.mp hy with rfl | hy
      · exact .inr rfl
      · exact .inl hy
    obtain ⟨t, flush, only', clean'', h''⟩ := State.dmaFlush_memory out hr wr _ h' clean'
    refine ⟨t, ?_, only.trans only', clean'', h''⟩
    rw [State.dmaFlush]
    simp only [ok, Bool.false_eq_true, if_false]
    exact flush

end
end Sys2Proof.Machine
end

