-- ==== Sys2Proof/Proofs/DmaReads.lean ====
section
/-! PROOF. What the engine reads: units from SRAM, by beats that it holds on their way; items of a queue (R330). -/

namespace Sys2Proof.Machine

/-! ## Beats read -/

/-- The beat `v` read at `b` shows, of the bytes of `S`, what `s` had. -/
def State.beatShows (s : State) (S : Nat → Prop) (x : Nat × Nat) : Prop :=
  x.2 < 256 ^ 16 ∧ ∀ a, S a → x.1 ≤ a → a < x.1 + 16 → BitVec.ofNat 8 (x.2 / 256 ^ (a - x.1)) = s.byte a

/-- The bytes of `S` are those of `s`, in memory and in the beats on their way. -/
structure State.dmaSees (s : State) (S : Nat → Prop) (u : State) (rd : List (Nat × Nat)) : Prop where
  clean : u.upset = []
  bytes : ∀ a, S a → u.byte a = s.byte a
  beats : ∀ x ∈ rd, s.beatShows S x

section
variable {s u : State} {S : Nat → Prop} {d : DmaDesc} {r : Req}

theorem State.busRead_sram {a : Nat} (ha : inSram a) (h : u.upset = []) (n : Nat) :
    ∃ i, u.busRead r false a n = (.data (u.readLE a n), { u with ix := i }) := by
  obtain ⟨i, hi⟩ := u.beat_only r.master false r.pair.isSome a n
  have hecc : ({ u with ix := i } : State).eccRead a n = (false, { u with ix := i }) := State.eccRead_clean (State.cleanAt_of_clean h a n)
  refine ⟨i, ?_⟩
  rw [State.busRead, place_sram ha]
  simp only [hi, hecc, Bool.false_eq_true, if_false]

/-- A beat of SRAM, from those on their way or from memory. -/
theorem State.dmaGet_sram (hd : d.srcmode = 0) {f : DmaFlow} (h : s.dmaSees S u f.rd) {b : Nat} (hb : inSram b) :
    ∃ v rd i, u.dmaGet r d f b 16 = (.inr v, ⟨rd, f.wr⟩, { u with ix := i }) ∧ s.beatShows S (b, v) ∧ s.dmaSees S { u with ix := i } rd := by
  rw [State.dmaGet, if_neg (by rw [hd]; decide)]
  cases found : f.rd.find? fun x => decide (x.1 = b) with
  | some x =>
    have at_ : x.1 = b := by simpa using List.find?_some found
    exact ⟨x.2, f.rd, u.ix, rfl, at_ ▸ h.beats x (List.mem_of_find?_eq_some found), h⟩
  | none =>
    obtain ⟨i, read⟩ := State.busRead_sram (r := r) hb h.clean 16
    have shown : s.beatShows S (b, u.readLE b 16) := by
      refine ⟨u.readLE_lt b 16, fun a ha lo hi => ?_⟩
      dsimp only at lo hi ⊢
      rw [u.ofNat_readLE b (by omega), Nat.add_sub_cancel' lo]
      exact h.bytes a ha
    rw [read]
    refine ⟨_, _, i, rfl, shown, h.clean, h.bytes, fun x hx => ?_⟩
    rcases List.mem_cons.mp hx with rfl | hx
    · exact shown
    · exact h.beats x (List.mem_of_mem_take hx)

/-! ## Units -/

/-- The bytes of source unit j lie in SRAM and are among those of `S`. -/
def DmaDesc.sourced (d : DmaDesc) (S : Nat → Prop) (j : Nat) : Prop :=
  ∀ a, d.srcAddr j ≤ a → a < d.srcAddr j + d.srcUnit → S a ∧ inSram a

/-- A unit of SRAM, which can lie in two beats. -/
theorem State.dmaUnit_sram (hd : d.srcmode = 0) {f : DmaFlow} (h : s.dmaSees S u f.rd) {j : Nat} (hj : d.sourced S j)
    (pos : 0 < d.srcUnit) (small : d.srcUnit ≤ 4) (win : d.xf = 1 → u.windowOk r .read (d.srcAddr j) d.size = true) :
    ∃ rd i, u.dmaUnit r d f j = (.inr (s.readLE (d.srcAddr j) d.srcUnit), ⟨rd, f.wr⟩, { u with ix := i }) ∧
      s.dmaSees S { u with ix := i } rd := by
  obtain ⟨a, ea⟩ : ∃ a, a = d.srcAddr j := ⟨_, rfl⟩
  obtain ⟨n, en⟩ : ∃ n, n = d.srcUnit := ⟨_, rfl⟩
  have side : sideQueue d.srcmode d.src = none := by rw [hd]; rfl
  have line : ∀ {b}, inSram b → readBytes b = 16 := fun {b} hb => by
    obtain ⟨lo, hi⟩ := hb
    rw [readBytes, show inFlash b = false by simp [inFlash]; omega, if_neg Bool.false_ne_true, beatBytes, if_neg (by omega)]
  have admitted : (decide (d.xf = 1) && decide (d.srcmode = 0) && !u.windowOk r .read (d.srcAddr j) d.size) = false := by
    by_cases x : d.xf = 1
    · simp [win x]
    · simp [x]
  rw [DmaDesc.sourced, ← ea, ← en] at hj
  rw [← en] at pos small
  have ha : inSram a := (hj a (le_refl _) (by omega)).2
  have hbase : inSram (a / 16 * 16) := by
    obtain ⟨lo, hi⟩ := ha
    exact ⟨by omega, by omega⟩
  obtain ⟨v, rd, i, get, ⟨vlt, vbyte⟩, sees⟩ := State.dmaGet_sram (r := r) hd h hbase
  have low : ∀ k < n, a + k < a / 16 * 16 + 16 →
      BitVec.ofNat 8 (v / 256 ^ (a - a / 16 * 16) / 256 ^ k) = s.byte (a + k) := fun k hk inside => by
    rw [Nat.div_div_eq_div_mul, ← Nat.pow_add, show a - a / 16 * 16 + k = a + k - a / 16 * 16 by omega]
    exact vbyte (a + k) (hj (a + k) (by omega) (by omega)).1 (by dsimp only; omega) inside
  rw [State.dmaUnit, side]
  dsimp only
  rw [admitted, ← ea, ← en]
  simp only [line ha, Bool.false_eq_true, if_false, get]
  by_cases one : a + n ≤ a / 16 * 16 + 16
  · rw [if_pos one]
    have unit : v / 256 ^ (a - a / 16 * 16) % 256 ^ n = s.readLE a n :=
      (s.readLE_of_bytes a _ n fun k hk => (low k hk (by omega)).symm).symm
    rw [unit]
    exact ⟨rd, i, rfl, sees⟩
  · rw [if_neg one]
    have hnext : inSram (a / 16 * 16 + 16) := (hj _ (by omega) (by omega)).2
    obtain ⟨w, rd', i', get', ⟨-, wbyte⟩, sees'⟩ := State.dmaGet_sram (r := r) hd (f := ⟨rd, f.wr⟩) sees hnext
    obtain ⟨m, hm⟩ : ∃ m, m = a / 16 * 16 + 16 - a := ⟨_, rfl⟩
    have lowlt : v / 256 ^ (a - a / 16 * 16) < 256 ^ m := by
      rw [Nat.div_lt_iff_lt_mul (Nat.pow_pos (by decide)), ← Nat.pow_add, show m + (a - a / 16 * 16) = 16 by omega]
      exact vlt
    have unit : (v / 256 ^ (a - a / 16 * 16) + w * 256 ^ m) % 256 ^ n = s.readLE a n := by
      refine (s.readLE_of_bytes a _ n fun k hk => ?_).symm
      rw [← Nat.mod_eq_of_lt lowlt, Nat.mul_comm w]
      by_cases inside : k < m
      · rw [ofNat_byte_mod inside]
        exact (low k hk (by omega)).symm
      · obtain ⟨l, rfl⟩ : ∃ l, k = m + l := ⟨k - m, by omega⟩
        rw [ofNat_byte_above]
        have := wbyte (a + (m + l)) (hj _ (by omega) (by omega)).1 (by dsimp only; omega) (by dsimp only; omega)
        rw [← this]
        congr 3
        dsimp only
        omega
    rw [line hnext, get']
    simp only [← hm, unit]
    exact ⟨rd', i', rfl, sees'⟩

/-- The states that differ in what reads leave in the interconnect. -/
theorem State.dmaRead_sram (hd : d.srcmode = 0) (pos : 0 < d.srcUnit) (small : d.srcUnit ≤ 4) :
    ∀ (k : Nat) (u : State) (f : DmaFlow) (j : Nat), s.dmaSees S u f.rd → (∀ i < k, d.sourced S (j + i)) →
      (d.xf = 1 → ∀ i < k, u.windowOk r .read (d.srcAddr (j + i)) d.size = true) →
      ∃ rd i, u.dmaRead r d f j k = (none, (List.range k).map fun i => s.readLE (d.srcAddr (j + i)) d.srcUnit, ⟨rd, f.wr⟩,
        { u with ix := i }) ∧ s.dmaSees S { u with ix := i } rd
  | 0, u, f, _, h, _, _ => ⟨f.rd, u.ix, rfl, h⟩
  | k + 1, u, f, j, h, src, win => by
    obtain ⟨rd, i, unit, sees⟩ := State.dmaUnit_sram (r := r) (j := j) hd h (src 0 (by omega)) pos small fun x => win x 0 (by omega)
    obtain ⟨rd', i', read, sees'⟩ := State.dmaRead_sram hd pos small k { u with ix := i } ⟨rd, f.wr⟩ (j + 1) sees
      (fun i hi => by rw [Nat.add_assoc, Nat.add_comm 1]; exact src (i + 1) (by omega))
      fun x i hi => by rw [Nat.add_assoc, Nat.add_comm 1]; exact win x (i + 1) (by omega)
    refine ⟨rd', i', ?_, sees'⟩
    rw [State.dmaRead, unit]
    simp only [read]
    rw [List.range_succ_eq_map, List.map_cons, List.map_map]
    simp only [Function.comp_def, Nat.add_assoc, Nat.succ_eq_one_add, Nat.add_zero]
end

end Sys2Proof.Machine
end

