-- ==== Sys2Proof/Proofs/DmaCopies.lean ====
section
/-! PROOF. What a block moves: copies between places of SRAM, out of a queue, into a queue (R330, R337, R338, R340). -/

namespace Sys2Proof.Machine

/-! ## Units of a descriptor -/

theorem DmaDesc.size_pos (d : DmaDesc) : 0 < d.size := Nat.two_pow_pos _

theorem DmaDesc.size_le {d : DmaDesc} (h : d.esz < 3) : d.size ≤ 4 := Nat.pow_le_pow_right (by decide) (by omega : d.esz ≤ 2)

theorem DmaDesc.srcUnit_pos (d : DmaDesc) : 0 < d.srcUnit := by
  unfold DmaDesc.srcUnit
  split
  · decide
  · exact d.size_pos

theorem DmaDesc.srcUnit_le {d : DmaDesc} (h : d.esz < 3) : d.srcUnit ≤ 4 := by
  unfold DmaDesc.srcUnit
  split
  · exact le_refl _
  · exact DmaDesc.size_le h

theorem DmaDesc.counts_pos (d : DmaDesc) : 0 < d.counts.2 := by
  have := d.size_pos
  unfold DmaDesc.counts
  split
  · split <;> dsimp only <;> omega
  · decide

/-- Without bit planes a group is a unit on either side, an element. -/
theorem DmaDesc.plain {d : DmaDesc} (h : d.xf ≠ 3) : d.counts = (1, 1) ∧ d.srcUnit = d.size ∧ d.dstUnit = d.size := by
  simp [DmaDesc.counts, DmaDesc.srcUnit, DmaDesc.dstUnit, h]

/-- With bit planes an output has as many bits as a group has inputs. -/
theorem DmaDesc.planes_bits {d : DmaDesc} (h : d.xf = 3) : 8 * d.dstUnit = d.counts.1 := by
  unfold DmaDesc.counts DmaDesc.dstUnit
  cases d.unpack <;> simp [h]

/-- What group `m` of the source holds. -/
def DmaDesc.inputs (d : DmaDesc) (s : State) (m : Nat) : List Nat :=
  (List.range d.counts.1).map fun i => s.readLE (d.srcAddr (m * d.counts.1 + i)) d.srcUnit

/-- What group `m` of the destination takes. -/
def DmaDesc.outputs (d : DmaDesc) (s : State) (m : Nat) : List Nat :=
  if d.xf = 3 then bitPlanes (d.inputs s m) d.counts.2 else d.inputs s m

theorem DmaDesc.outputs_length (d : DmaDesc) (s : State) (m : Nat) : (d.outputs s m).length = d.counts.2 := by
  unfold DmaDesc.outputs
  split
  · simp [bitPlanes]
  · next h => simp [DmaDesc.inputs, (DmaDesc.plain h).1]

/-- What destination unit j takes. -/
def DmaDesc.output (d : DmaDesc) (s : State) (j : Nat) : Nat := (d.outputs s (j / d.counts.2))[j % d.counts.2]?.getD 0

theorem DmaDesc.output_group (d : DmaDesc) (s : State) (m : Nat) {i : Nat} (h : i < (d.outputs s m).length) :
    (d.outputs s m)[i] = d.output s (m * d.counts.2 + i) := by
  have lt : i < d.counts.2 := d.outputs_length s m ▸ h
  rw [DmaDesc.output, Nat.mul_comm, Nat.mul_add_div d.counts_pos, Nat.div_eq_of_lt lt, Nat.add_zero, Nat.mul_add_mod, Nat.mod_eq_of_lt lt,
    List.getElem?_eq_getElem h]
  rfl

/-! ## Memory to memory -/

section
variable {s : State} {S : Nat → Prop} {d : DmaDesc} {r : Req} {lo top : Nat}

theorem State.memOnly.windowOk {u : State} (h : State.memOnly s u) (k : Kind) (a n : Nat) : u.windowOk r k a n = s.windowOk r k a n := by
  obtain ⟨i, p, m, a, rfl⟩ := h
  rfl

/-- Groups are moved from SRAM to SRAM. -/
theorem State.dmaMove_sram (hs : d.srcmode = 0) (hd : d.dstmode = 0) (he : d.esz < 3) (hr : r.pair = none) (out : d.outside lo top)
    (off : ∀ a, S a → ∀ j, lo ≤ j → j < top → a < d.dstAddr j ∨ d.dstAddr j + d.dstUnit ≤ a) :
    ∀ (k g : Nat) (u : State) (f : DmaFlow), (∀ j, g * d.counts.1 ≤ j → j < (g + k) * d.counts.1 → d.sourced S j) →
      (d.xf = 1 → ∀ j, g ≤ j → j < g + k → s.windowOk r .read (d.srcAddr j) d.size = true) → State.memOnly s u → u.dmaClean →
      (∀ x ∈ f.rd, s.beatShows S x) → s.dmaWritten d (d.output s) lo (g * d.counts.2) u f.wr → lo ≤ g * d.counts.2 →
      (g + k) * d.counts.2 ≤ top →
      ∃ f' t, u.dmaMove r d f g k = (.moved, k, f', t) ∧ State.memOnly s t ∧ t.dmaClean ∧
        s.dmaWritten d (d.output s) lo ((g + k) * d.counts.2) t f'.wr
  | 0, g, u, f, _, _, only, clean, _, written, _, _ => ⟨f, u, rfl, only, clean, by rw [Nat.add_zero]; exact written⟩
  | k + 1, g, u, f, src, win, only, clean, shown, written, le, room => by
    have next : (g + 1) * d.counts.2 = g * d.counts.2 + d.counts.2 := Nat.succ_mul _ _
    have reach : (g + 1) * d.counts.2 ≤ top := (Nat.mul_le_mul_right _ (by omega)).trans room
    have end_ : (g + 1) * d.counts.1 ≤ (g + (k + 1)) * d.counts.1 := Nat.mul_le_mul_right _ (by omega)
    have sees : s.dmaSees S u f.rd :=
      ⟨clean.1, fun a ha => written.rest a fun j h1 h2 => off a ha j h1 (by omega), shown⟩
    obtain ⟨rd, i, read, sees'⟩ := State.dmaRead_sram (r := r) hs d.srcUnit_pos (DmaDesc.srcUnit_le he) d.counts.1 u f (g * d.counts.1) sees
      (fun i hi => src _ (by omega) (by rw [Nat.succ_mul] at end_; omega)) fun x i hi => by
        have one : d.counts.1 = 1 := by rw [(DmaDesc.plain (d := d) (by omega)).1]
        rw [one] at hi
        rw [only.windowOk, one]
        exact win x _ (by omega) (by omega)
    obtain ⟨wr, t, write, only', clean', written'⟩ := State.dmaWrite_memory (s := s) (w := d.output s) (lo := lo) hd out hr rd
      (d.outputs s g) { u with ix := i } (g * d.counts.2) f.wr ⟨written.pend, written.once, written.stored, written.rest⟩ clean le
      (by rw [d.outputs_length]; omega) fun i h => d.output_group s g h
    rw [d.outputs_length, ← next] at written'
    have only'' : State.memOnly s t := (only.trans ⟨i, u.pairs, u.mem, u.ans, rfl⟩).trans only'
    obtain ⟨f', t', move, rest⟩ := State.dmaMove_sram hs hd he hr out off k (g + 1) t ⟨rd, wr⟩
      (fun j h1 h2 => src j (by rw [Nat.succ_mul] at h1; omega) (by rw [show g + (k + 1) = g + 1 + k by omega]; exact h2))
      (fun x j h1 h2 => win x j (by omega) (by omega)) only'' clean' sees'.beats written' (by omega)
      (by rw [show g + 1 + k = g + (k + 1) by omega]; exact room)
    refine ⟨f', t', ?_, by rw [show g + (k + 1) = g + 1 + k by omega]; exact rest⟩
    have units : (if d.xf = 3 then bitPlanes (d.inputs s g) d.counts.2 else d.inputs s g) = d.outputs s g := rfl
    rw [State.dmaMove, read]
    dsimp only
    rw [← DmaDesc.inputs, units, write]
    dsimp only
    rw [move]

end

/-! ## Bit planes -/

/-- The number whose bit i is bit b of element i. -/
def bitPlane (b : Nat) (l : List Nat) : Nat := l.foldr (fun x v => x / 2 ^ b % 2 + 2 * v) 0

theorem bitPlane_sum (b : Nat) (l : List Nat) (k : Nat) :
    ((l.zipIdx k).map fun x : Nat × Nat => x.1 / 2 ^ b % 2 * 2 ^ x.2).sum = 2 ^ k * bitPlane b l := by
  induction l generalizing k with
  | nil => simp [bitPlane]
  | cons a l ih =>
    rw [List.zipIdx_cons, List.map_cons, List.sum_cons, ih (k + 1)]
    simp only [bitPlane, List.foldr_cons, Nat.pow_succ]
    ring

theorem bitPlane_testBit (b : Nat) (l : List Nat) (i : Nat) : (bitPlane b l).testBit i = l[i]?.any fun x => x.testBit b := by
  induction l generalizing i with
  | nil => simp [bitPlane]
  | cons a l ih =>
    have bit : bitPlane b (a :: l) = a / 2 ^ b % 2 + 2 * bitPlane b l := rfl
    cases i with
    | zero =>
      rw [Nat.testBit_zero, bit, List.getElem?_cons_zero, Option.any_some, Nat.testBit_eq_decide_div_mod_eq]
      congr 1
      exact propext (by omega)
    | succ i =>
      rw [Nat.testBit_succ, bit, List.getElem?_cons_succ, ← ih]
      congr 1
      omega

/-- Bit i of output b of a group is bit b of input i (R338). -/
theorem bitPlanes_testBit (l : List Nat) {w b : Nat} (h : b < w) (i : Nat) :
    ((bitPlanes l w)[b]?.getD 0).testBit i = l[i]?.any fun x => x.testBit b := by
  have plane : (bitPlanes l w)[b]? = some (bitPlane b l) := by
    rw [bitPlanes, List.getElem?_map, List.getElem?_range h]
    exact congrArg some ((bitPlane_sum b l 0).trans (by simp))
  rw [plane]
  exact bitPlane_testBit b l i

section
variable {s t : State} {d : DmaDesc}

theorem DmaDesc.output_planes (h : d.xf = 3) (s : State) {m b i : Nat} (hb : b < d.counts.2) (hi : i < d.counts.1) :
    (d.output s (m * d.counts.2 + b)).testBit i = (s.readLE (d.srcAddr (m * d.counts.1 + i)) d.srcUnit).testBit b := by
  rw [DmaDesc.output, Nat.mul_comm, Nat.mul_add_div d.counts_pos, Nat.div_eq_of_lt hb, Nat.add_zero, Nat.mul_add_mod, Nat.mod_eq_of_lt hb,
    DmaDesc.outputs, if_pos h, bitPlanes_testBit _ hb, DmaDesc.inputs, List.getElem?_map, List.getElem?_range hi]
  rfl

theorem DmaDesc.output_plain (h : d.xf ≠ 3) (s : State) (j : Nat) : d.output s j = s.readLE (d.srcAddr j) d.size := by
  obtain ⟨one, src, -⟩ := DmaDesc.plain h
  simp [DmaDesc.output, DmaDesc.outputs, DmaDesc.inputs, h, one, src, Nat.mod_one]

/-- A unit whose bytes stand in memory reads back. -/
theorem State.readLE_output {a n v : Nat} (h : ∀ i < n, t.byte (a + i) = BitVec.ofNat 8 (v / 256 ^ i)) : t.readLE a n = v % 256 ^ n :=
  t.readLE_of_bytes a v n h

/-- What has been written at the end: every unit stands in its place. -/
theorem State.dmaWritten.ends {w : Nat → Nat} {lo hi : Nat} (h : s.dmaWritten d w lo hi t []) {j : Nat} (h1 : lo ≤ j) (h2 : j < hi) :
    ∀ i < d.dstUnit, t.byte (d.dstAddr j + i) = BitVec.ofNat 8 (w j / 256 ^ i) := by
  rcases h.stored j h1 h2 with ⟨x, hx, -⟩ | stands
  · exact absurd hx (by simp)
  · exact stands

/-- A block from SRAM to SRAM (R330, R337, R338). -/
theorem State.dmaCopy_sram {r : Req} (hr : r.pair = none) (he : d.esz < 3) (hs : d.srcmode = 0) (hd : d.dstmode = 0) (g k : Nat)
    (clean : s.dmaClean) (out : d.outside (g * d.counts.2) ((g + k) * d.counts.2))
    (src : ∀ j, g * d.counts.1 ≤ j → j < (g + k) * d.counts.1 → ∀ a, d.srcAddr j ≤ a → a < d.srcAddr j + d.srcUnit → inSram a ∧
      ∀ i, g * d.counts.2 ≤ i → i < (g + k) * d.counts.2 → a < d.dstAddr i ∨ d.dstAddr i + d.dstUnit ≤ a)
    (win : d.xf = 1 → ∀ j, g ≤ j → j < g + k → s.windowOk r .read (d.srcAddr j) d.size = true) :
    let mv := s.dmaMove r d ⟨[], []⟩ g k
    let fl := mv.2.2.2.dmaFlush r d.dstUnit mv.2.2.1.wr
    mv.1 = .moved ∧ mv.2.1 = k ∧ fl.1 = [] ∧ State.memOnly s fl.2 ∧
      s.dmaWritten d (d.output s) (g * d.counts.2) ((g + k) * d.counts.2) fl.2 [] := by
  obtain ⟨f, t, move, only, clean', written⟩ := State.dmaMove_sram (s := s) (r := r) (lo := g * d.counts.2)
    (S := fun a => ∃ j, g * d.counts.1 ≤ j ∧ j < (g + k) * d.counts.1 ∧ d.srcAddr j ≤ a ∧ a < d.srcAddr j + d.srcUnit) hs hd he hr out
    (fun a ⟨j, h1, h2, h3, h4⟩ => (src j h1 h2 a h3 h4).2) k g s ⟨[], []⟩
    (fun j h1 h2 a h3 h4 => ⟨⟨j, h1, h2, h3, h4⟩, (src j h1 h2 a h3 h4).1⟩) win .refl clean (by simp) .start (le_refl _) (le_refl _)
  obtain ⟨t', flush, only', -, written'⟩ := State.dmaFlush_memory out hr f.wr t written clean'
  dsimp only
  rw [move]
  dsimp only
  rw [flush]
  exact ⟨rfl, rfl, rfl, only.trans only', written'⟩
end

end Sys2Proof.Machine
end

