-- ==== Sys2Proof/Proofs/DmaQueues.lean ====
section
/-! PROOF. Blocks out of a queue and into a queue (R340, R341, R346). -/

namespace Sys2Proof.Machine

section
variable {s u t : State} {q : QId}

/-! ## Queues beside SRAM -/

/-- What changes SRAM alone leaves a queue. -/
theorem State.memOnly.queue (h : State.memOnly s t) (bytes : ∀ a, ¬inSram a → t.byte a = s.byte a) (q : QId) :
    t.items q = s.items q ∧ (t.queueSound q ↔ s.queueSound q) ∧ t.cycPushes q = s.cycPushes q := by
  obtain ⟨i, p, m, a, rfl⟩ := h
  have cell : ∀ k, State.qCell { s with ix := i, pairs := p, mem := m, ans := a } q k = s.qCell q k := fun k => by
    have word : State.readLE { s with ix := i, pairs := p, mem := m, ans := a } (qAddr (s.fld F.Qn_CFG_BASE q 0 + k)) 4 =
        s.readLE (qAddr (s.fld F.Qn_CFG_BASE q 0 + k)) 4 := State.readLE_congr _ _ _ _ fun x h1 _ => bytes x fun h => by
      obtain ⟨-, hi⟩ := h
      unfold qAddr at h1
      omega
    exact Prod.ext (congrArg (BitVec.ofNat 32) word) rfl
  have alike : s.qAlike { s with ix := i, pairs := p, mem := m, ans := a } q := ⟨rfl, rfl, cell⟩
  exact ⟨(alike.same rfl rfl).2.1, Iff.rfl, rfl⟩

/-- A pop of an item that stood before this cycle. -/
theorem State.qPopRec_item (h : s.queueSound q) (hc : s.cycPushes q = []) {x : Word × BitVec 2} {xs : List (Word × BitVec 2)}
    (hi : s.items q = x :: xs) : ∃ g c, s.qPopRec q = (x.1, { s with regs := g, cyc := c }) ∧
      State.items { s with regs := g, cyc := c } q = xs ∧ State.queueSound { s with regs := g, cyc := c } q ∧
      State.cycPushes { s with regs := g, cyc := c } q = [] := by
  obtain ⟨val, items, sound⟩ := State.qPop_cons h hi
  have hf : s.qFill q ≠ 0 := fun e => by rw [State.items_nil_iff.2 e] at hi; exact absurd hi (by simp)
  have added : s.cycAdded q = 0 := by rw [State.cycAdded, hc]
  have state : (s.qPop q).2 = s.qSetPtr F.Qn_PTR_RD q (s.qRd q + 1) := by rw [State.qPop, if_neg hf]
  rw [state] at items sound
  refine ⟨(s.qSetPtr F.Qn_PTR_RD q (s.qRd q + 1)).regs, .pop q :: s.cyc, ?_, items, sound, ?_⟩
  · rw [State.qPopRec, added, if_neg (by omega)]
    dsimp only
    rw [val, state]
    rfl
  · rw [State.cycPushes, List.reverse_cons, List.filterMap_append]
    refine List.append_eq_nil_iff.mpr ⟨?_, rfl⟩
    exact hc

/-! ## Out of a queue -/

variable {d : DmaDesc} {r : Req} {w : Nat → Nat} {lo hi top : Nat} {wr wr' : List (Nat × DmaUnits)}

/-- What has been written leaves what lies beside SRAM. -/
theorem State.dmaWritten.beside (h : s.dmaWritten d w lo hi u wr) (out : d.outside lo top) (le : hi ≤ top) {a : Nat} (ha : ¬inSram a) :
    u.byte a = s.byte a :=
  h.rest a fun j h1 h2 => by
    obtain ⟨first, -⟩ := out.sram j h1 (by omega)
    have last := out.last j h1 (by omega)
    by_contra c
    exact ha ⟨by omega, by omega⟩

/-- What destination unit j takes of a queue whose block begins with unit `lo`. -/
def State.popped (s : State) (q : QId) (d : DmaDesc) (lo j : Nat) : Nat :=
  ((s.items q)[j - lo]?.map fun x => x.1.toNat % 256 ^ d.size).getD 0

theorem State.dmaMove_pop (hs : sideQueue d.srcmode d.src = some q) (hd : d.dstmode = 0) (hx : d.xf ≠ 3) (hr : r.pair = none)
    (out : d.outside lo top) : ∀ (k m : Nat) (u : State) (f : DmaFlow), u.items q = (s.items q).drop m → m + k ≤ (s.items q).length →
      u.queueSound q → u.cycPushes q = [] → u.dmaClean → s.dmaWritten d (s.popped q d lo) lo (lo + m) u f.wr → lo + m + k ≤ top →
      ∃ f' t, u.dmaMove r d f (lo + m) k = (.moved, k, f', t) ∧ t.items q = (s.items q).drop (m + k) ∧ t.dmaClean ∧
        s.dmaWritten d (s.popped q d lo) lo (lo + m + k) t f'.wr
  | 0, m, u, f, items, _, _, _, clean, written, _ => ⟨f, u, rfl, items, clean, written⟩
  | k + 1, m, u, f, items, room, sound, pushes, clean, written, reach => by
    obtain ⟨one, src, -⟩ := DmaDesc.plain hx
    have some_ : m < (s.items q).length := by omega
    rw [List.drop_eq_getElem_cons some_] at items
    obtain ⟨g, c, pop, items', sound', pushes'⟩ := State.qPopRec_item sound pushes items
    have val : s.popped q d lo (lo + m) = (s.items q)[m].1.toNat % 256 ^ d.size := by
      rw [State.popped, Nat.add_sub_cancel_left, List.getElem?_eq_getElem some_]
      rfl
    obtain ⟨wr, t, write, only, clean', written'⟩ := State.dmaWrite_memory (s := s) (w := s.popped q d lo) (lo := lo) hd out hr f.rd
      [(s.items q)[m].1.toNat % 256 ^ d.size] { u with regs := g, cyc := c } (lo + m) f.wr
      ⟨written.pend, written.once, written.stored, written.rest⟩ clean (by omega) (by simp; omega) fun i h => by
        obtain rfl : i = 0 := by simpa using h
        exact val.symm
    obtain ⟨items'', sound'', pushes''⟩ := only.queue (fun a ha => (written'.beside out (by simp; omega) ha).trans
      (written.beside out (by omega) ha).symm) q
    obtain ⟨f', t', move, rest⟩ := State.dmaMove_pop hs hd hx hr out k (m + 1) t ⟨f.rd, wr⟩ (items''.trans items') (by omega)
      (sound''.mpr sound') (pushes''.trans pushes') clean' written' (by omega)
    refine ⟨f', t', ?_, by rw [show m + (k + 1) = m + 1 + k by omega, show lo + m + (k + 1) = lo + (m + 1) + k by omega]; exact rest⟩
    rw [State.dmaMove, one]
    dsimp only
    rw [Nat.mul_one, State.dmaRead, State.dmaUnit, hs]
    dsimp only
    rw [pop]
    dsimp only
    rw [State.dmaRead, src]
    dsimp only
    rw [if_neg hx, write]
    dsimp only
    rw [show lo + m + 1 = lo + (m + 1) by omega, move]

/-! ## Into a queue -/

/-- What a word written to a queue changes beside the queue RAM. -/
theorem State.qWrite_only (s : State) (q : QId) (v : Word) (tags : BitVec 2) :
    ∃ m g c k, s.qWrite q v tags = { s with mem := m, regs := g, cal := c, qtag := k } := by
  have hm := s.setWord_only_mem (qAddr (s.qSlot q (s.qWr q))) v
  rw [State.qWrite_eq, State.qFillEvent_eq, State.qStored, hm]
  exact ⟨_, _, _, _, rfl⟩

/-- A field of a queue that does not lie in its pointers is as it was once a word is written. -/
theorem State.fld_qWrite (s : State) (q : QId) (v : Word) (tags : BitVec 2) {f : Fld} {i j : Nat}
    (h : f.reg.addr i j ≠ RegName.Qn_PTR.addr q 0) : (s.qWrite q v tags).fld f i j = s.fld f i j := by
  rw [State.qWrite_eq, State.fld_of_regs ((s.qStored q v tags).qFillEvent_same q _).2.2.1]
  exact (s.qStored_frame q v tags).2.2.2 f i j h

/-- A credit queue with a free slot that drops nothing. -/
structure State.qTakes (s : State) (q : QId) : Prop where
  sound : s.queueSound q
  credit : s.qCredit q = true
  open_ : s.flag F.Qn_STAT_DROPPING q 0 = false

/-- A push to a credit queue that drops nothing. -/
theorem State.qPushRec_item (h : s.qTakes q) (free : s.qFill q < s.qDepth q) (v : Word) :
    let t := s.qPushRec q v false
    t.items q = s.items q ++ [(v, 0)] ∧ t.qTakes q ∧ t.qDepth q = s.qDepth q ∧ t.upset = s.upset ∧
      ∀ a, inSram a → t.byte a = s.byte a := by
  obtain ⟨sound, credit, open_⟩ := h
  have push : s.qPush q v false = (false, s.qWrite q v 0) := by
    rw [State.qPush, open_, credit, if_neg Bool.false_ne_true, if_pos rfl]
    rfl
  obtain ⟨c, form⟩ : ∃ c, s.qPushRec q v false = { s.qWrite q v 0 with cyc := c } := by
    rw [State.qPushRec, State.qPushDrop, push]
    exact ⟨_, rfl⟩
  obtain ⟨items, sound'⟩ := State.items_qWrite sound free v 0
  obtain ⟨m, g, c', k, only⟩ := s.qWrite_only q v 0
  have cfg : RegName.Qn_CFG.addr q 0 ≠ RegName.Qn_PTR.addr q 0 := Qn_PTR_ne q
  have stat : RegName.Qn_STAT.addr q 0 ≠ RegName.Qn_PTR.addr q 0 := by simp [RegName.addr, RegName.base, RegName.dims]
  have upset : (s.qWrite q v 0).upset = s.upset := by rw [only]
  have credit' : (s.qWrite q v 0).qCredit q = true := by rw [State.qCredit, State.flag, s.fld_qWrite q v 0 cfg]; exact credit
  have open' : (s.qWrite q v 0).flag F.Qn_STAT_DROPPING q 0 = false := by rw [State.flag, s.fld_qWrite q v 0 stat]; exact open_
  have depth : (s.qWrite q v 0).qDepth q = s.qDepth q := by
    rw [State.qDepth, State.qDepth, State.qK, s.fld_qWrite q v 0 cfg]
    rfl
  have bytes : ∀ a, inSram a → (s.qWrite q v 0).byte a = s.byte a := fun a ha => by
    obtain ⟨-, hi⟩ := ha
    exact s.byte_qWrite q v 0 (.inl (by unfold qAddr; omega))
  intro t
  rw [show t = _ from form]
  generalize s.qWrite q v 0 = x at items sound' upset credit' open' depth bytes
  exact ⟨items, ⟨sound', credit', open'⟩, depth, upset, bytes⟩

/-- Elements of SRAM from unit `g` on, each an item. -/
def DmaDesc.pushed (d : DmaDesc) (s : State) (g k : Nat) : List (Word × BitVec 2) :=
  (List.range k).map fun j => (BitVec.ofNat 32 (s.readLE (d.srcAddr (g + j)) d.size), 0)

theorem State.dmaMove_push {S : Nat → Prop} (hs : d.srcmode = 0) (hd : sideQueue d.dstmode d.dst = some q) (hx : d.xf = 0) (he : d.esz < 3)
    (sram : ∀ a, S a → inSram a) : ∀ (k g : Nat) (u : State) (rd : List (Nat × Nat)), (∀ j, g ≤ j → j < g + k → d.sourced S j) →
      s.dmaSees S u rd → u.qTakes q → u.qFill q + k ≤ u.qDepth q →
      ∃ rd' t, u.dmaMove r d ⟨rd, []⟩ g k = (.moved, k, ⟨rd', []⟩, t) ∧ t.items q = u.items q ++ d.pushed s g k
  | 0, _, u, rd, _, _, _, _ => ⟨rd, u, rfl, by simp [DmaDesc.pushed]⟩
  | k + 1, g, u, rd, src, sees, takes, room => by
    obtain ⟨one, unit, -⟩ := DmaDesc.plain (d := d) (by omega)
    obtain ⟨rd', i, read, sees'⟩ := State.dmaRead_sram (r := r) hs d.srcUnit_pos (DmaDesc.srcUnit_le he) 1 u ⟨rd, []⟩ g sees
      (fun i hi => src _ (by omega) (by omega)) fun x => by omega
    obtain ⟨v, hv⟩ : ∃ v, v = s.readLE (d.srcAddr g) d.size := ⟨_, rfl⟩
    obtain ⟨u', hu⟩ : ∃ u' : State, u' = { u with ix := i } := ⟨_, rfl⟩
    have takes' : u'.qTakes q := by rw [hu]; exact ⟨takes.sound, takes.credit, takes.open_⟩
    have fill : u'.qFill q = u.qFill q := by rw [hu]; rfl
    have depth : u'.qDepth q = u.qDepth q := by rw [hu]; rfl
    have before : u'.items q = u.items q := by rw [hu]; rfl
    obtain ⟨items, takes'', depth', upset, bytes⟩ := State.qPushRec_item takes' (by omega) (BitVec.ofNat 32 v)
    obtain ⟨t, ht⟩ : ∃ t, t = u'.qPushRec q (BitVec.ofNat 32 v) false := ⟨_, rfl⟩
    rw [← ht] at items takes'' depth' upset bytes
    rw [← hu] at read sees'
    have fill' : t.qFill q = u.qFill q + 1 := by
      rw [← State.items_length, items, List.length_append, State.items_length, fill]
      rfl
    have sees'' : s.dmaSees S t rd' :=
      ⟨upset.trans sees'.clean, fun a ha => (bytes a (sram a ha)).trans (sees'.bytes a ha), sees'.beats⟩
    obtain ⟨rd2, t2, move, items'⟩ := State.dmaMove_push hs hd hx he sram k (g + 1) t rd' (fun j h1 h2 => src j (by omega) (by omega)) sees''
      takes'' (by rw [fill', depth', depth]; omega)
    refine ⟨rd2, t2, ?_, ?_⟩
    · have write : u'.dmaWrite r d ⟨rd', []⟩ g [v] = (none, ⟨rd', []⟩, t) := by
        rw [State.dmaWrite, State.dmaPut, hd]
        dsimp only
        rw [State.dmaWrite, ht]
      have value : (List.range 1).map (fun i => s.readLE (d.srcAddr (g + i)) d.srcUnit) = [v] := by rw [hv, unit]; rfl
      rw [value] at read
      rw [State.dmaMove, one]
      dsimp only
      rw [Nat.mul_one, read]
      dsimp only
      rw [if_neg (by omega), write]
      dsimp only
      rw [move]
    · rw [items', items, before, List.append_assoc]
      refine congrArg (u.items q ++ ·) ?_
      rw [DmaDesc.pushed, DmaDesc.pushed, List.range_succ_eq_map, List.map_cons, List.map_map, hv]
      simp only [Function.comp_def, Nat.succ_eq_one_add, Nat.add_assoc, Nat.add_zero, List.singleton_append]
end
end Sys2Proof.Machine
end

