-- ==== Sys2Proof/Proofs/DmaMoves.lean ====
section
/-! PROOF. A plain DMA copy moves its bytes and no other (R330, R337, R338, R340). -/

namespace Sys2Proof.Machine

section
variable {s : State} {d : DmaDesc}

theorem DmaDesc.dstUnit_pos (d : DmaDesc) : 0 < d.dstUnit := by
  unfold DmaDesc.dstUnit
  split
  · decide
  · exact d.size_pos

/-- Destination units whose bytes lie in SRAM. -/
theorem DmaDesc.outside_of_bytes {lo hi : Nat}
    (sram : ∀ a, (∃ j, lo ≤ j ∧ j < hi ∧ d.dstAddr j ≤ a ∧ a < d.dstAddr j + d.dstUnit) → 0x20000000 ≤ a ∧ a < 0x21800000)
    (apart : ∀ i j, i < j → j < hi → lo ≤ i → d.dstAddr i + d.dstUnit ≤ d.dstAddr j ∨ d.dstAddr j + d.dstUnit ≤ d.dstAddr i) :
    d.outside lo hi := by
  have pos := d.dstUnit_pos
  refine ⟨fun j h1 h2 => sram _ ⟨j, h1, h2, le_refl _, by omega⟩, fun j h1 h2 => ?_, apart⟩
  obtain ⟨-, last⟩ := sram (d.dstAddr j + d.dstUnit - 1) ⟨j, h1, h2, by omega, by omega⟩
  omega

/-- A byte of no destination unit is as it was. -/
theorem State.dmaWritten.frame {u : State} {w : Nat → Nat} {lo hi : Nat} {wr : List (Nat × DmaUnits)} (h : s.dmaWritten d w lo hi u wr)
    {a : Nat} (ha : ¬∃ j, lo ≤ j ∧ j < hi ∧ d.dstAddr j ≤ a ∧ a < d.dstAddr j + d.dstUnit) : u.byte a = s.byte a :=
  h.rest a fun j h1 h2 => by
    by_contra c
    exact ha ⟨j, h1, h2, by omega, by omega⟩

theorem State.dmaReq_pair (s : State) (n : Chan) : (s.dmaReq n).pair = none := rfl

theorem sideQueue_queue (a : Nat) : sideQueue 2 a = some (Fin.ofNat 256 a) := rfl
end

/-- Settles O23: copies by the units written and gathered so far, queues by the items taken or added so far. -/
theorem dmaCopies : Obligations.DmaCopies := by
  unfold Obligations.DmaCopies
  intro s n d g k r c mv fl t sram src dst he upset stc hsrc hdst
  have clean : s.dmaClean := ⟨upset, stc⟩
  have hr : r.pair = none := s.dmaReq_pair n
  refine ⟨fun hs hd hx off => ?_, fun q hs hq hd hx sound pushes room => ?_, fun q hd hq hs hx sound credit open_ room => ?_⟩
  · obtain ⟨srcSram, win⟩ := hsrc hs
    obtain ⟨dstSram, apart⟩ := hdst hd
    have out : d.outside (g * c.2) ((g + k) * c.2) := DmaDesc.outside_of_bytes dstSram apart
    obtain ⟨moved, all, flushed, only, written⟩ := State.dmaCopy_sram hr he hs hd g k clean out
      (fun j h1 h2 a h3 h4 => ⟨srcSram a ⟨j, h1, h2, h3, h4⟩, fun i h5 h6 => by
        by_contra clash
        exact off a ⟨j, h1, h2, h3, h4⟩ ⟨i, h5, h6, by omega, by omega⟩⟩) win
    refine ⟨moved, all, flushed, ?_, fun a ha => written.frame ha, fun plain j h1 h2 i hi => ?_, fun planes m b i h1 h2 hb hi => ?_⟩
    · obtain ⟨_, _, _, _, same⟩ := only
      rw [show t = _ from same]
    · obtain ⟨one, -, unit⟩ := DmaDesc.plain (d := d) (by omega)
      have cone : c = (1, 1) := one
      have stands := written.ends (j := j) (by rw [one]; omega) (by rw [one]; omega) i (by rw [unit]; exact hi)
      rw [DmaDesc.output_plain (by omega), s.ofNat_readLE _ hi] at stands
      exact stands
    · have lt : m * c.2 + b < (g + k) * c.2 := by
        have : (m + 1) * c.2 ≤ (g + k) * c.2 := Nat.mul_le_mul_right _ (by omega)
        rw [Nat.succ_mul] at this
        omega
      have le : g * c.2 ≤ m * c.2 + b := (Nat.mul_le_mul_right _ h1).trans (Nat.le_add_right _ _)
      have stands := State.readLE_output (written.ends le lt)
      have bits := DmaDesc.planes_bits planes
      rw [show t.readLE (d.dstAddr (m * c.2 + b)) d.dstUnit = _ from stands, show 256 = 2 ^ 8 from rfl, ← Nat.pow_mul, bits,
        Nat.testBit_mod_two_pow, decide_eq_true hi, Bool.true_and]
      exact DmaDesc.output_planes planes s hb hi
  · obtain ⟨dstSram, apart⟩ := hdst hd
    obtain ⟨one, -, unit⟩ := DmaDesc.plain (d := d) (by omega)
    have cone : c = (1, 1) := one
    have out : d.outside g (g + k) := DmaDesc.outside_of_bytes (fun a ⟨j, h1, h2, h⟩ => dstSram a ⟨j, by rw [cone]; omega, by rw [cone]; omega, h⟩)
      fun i j h1 h2 h3 => apart i j h1 (by rw [cone]; omega) (by rw [cone]; omega)
    have side : sideQueue d.srcmode d.src = some q := by rw [hs, hq]; rfl
    obtain ⟨f, u, move, items, clean', written⟩ := State.dmaMove_pop side hd (by omega) hr out k 0 s ⟨[], []⟩ rfl
      (by rw [State.items_length]; omega) sound pushes clean .start (by omega)
    obtain ⟨v, flush, only, -, written'⟩ := State.dmaFlush_memory out hr f.wr u written clean'
    have hmv : mv = (.moved, k, f, u) := move
    have hfl : fl = ([], v) := by
      change State.dmaFlush mv.2.2.2 r d.dstUnit mv.2.2.1.wr = _
      rw [hmv]
      exact flush
    have ht : t = v := by change fl.2 = v; rw [hfl]
    obtain ⟨items', -, -⟩ := only.queue (fun a ha => (written'.beside out (le_refl _) ha).trans (written.beside out (le_refl _) ha).symm) q
    refine ⟨by rw [hmv], by rw [hmv], by rw [hfl], ?_, fun a ha => ?_, fun j hj => ?_⟩
    · rw [ht, items', items, Nat.zero_add]
    · rw [ht]
      exact written'.frame fun ⟨j, h1, h2, h⟩ => ha ⟨j, by rw [cone]; omega, by rw [cone]; omega, h⟩
    · have stands := State.readLE_output (written'.ends (j := g + j) (by omega) (by omega))
      have lt : j < (s.items q).length := by rw [State.items_length]; omega
      have val : s.popped q d g (g + j) = (s.items q)[j].1.toNat % 256 ^ d.size := by
        rw [State.popped, Nat.add_sub_cancel_left, List.getElem?_eq_getElem lt]
        rfl
      rw [unit, val, Nat.mod_mod] at stands
      rw [ht, stands, List.getElem?_eq_getElem lt]
      rfl
  · obtain ⟨srcSram, -⟩ := hsrc hs
    obtain ⟨one, -, -⟩ := DmaDesc.plain (d := d) (by omega)
    have cone : c = (1, 1) := one
    have side : sideQueue d.dstmode d.dst = some q := by rw [hd, hq]; rfl
    obtain ⟨rd, u, move, items⟩ := State.dmaMove_push (s := s) (r := r) (S := src) hs side hx he srcSram k g s []
      (fun j h1 h2 a h3 h4 => by
        have here : src a := ⟨j, by rw [cone]; omega, by rw [cone]; omega, h3, h4⟩
        exact ⟨here, srcSram a here⟩)
      ⟨upset, fun _ _ => rfl, by simp⟩ ⟨sound, credit, open_⟩ room
    have hmv : mv = (.moved, k, ⟨rd, []⟩, u) := move
    have hfl : fl = ([], u) := by
      change State.dmaFlush mv.2.2.2 r d.dstUnit mv.2.2.1.wr = _
      rw [hmv]
      rfl
    refine ⟨by rw [hmv], by rw [hmv], by rw [hfl], ?_⟩
    change State.items fl.2 q = _
    rw [hfl]
    exact items
end Sys2Proof.Machine
end

