-- ==== Sys2Proof/Proofs/FpRounding.lean ====
section
/-! PROOF. Rounding of a nonzero value of the normal range into a format (R254, R267). -/

namespace Sys2Proof.Machine

/-! ## Powers of two and values -/

/-- 2 ^ e. -/
def pow2 (e : Int) : Rat := if 0 ≤ e then ((2 ^ e.toNat : Nat) : Rat) else 1 / ((2 ^ (-e).toNat : Nat) : Rat)

theorem pow2_eq (e : Int) : pow2 e = (2 : Rat) ^ e := by
  unfold pow2
  split
  · next h =>
    obtain ⟨n, rfl⟩ := Int.eq_ofNat_of_zero_le h
    simp
  · next h =>
    obtain ⟨n, hn⟩ := Int.eq_ofNat_of_zero_le (a := -e) (by omega)
    obtain rfl : e = -(n : Int) := by omega
    simp

theorem pow2_pos (e : Int) : 0 < pow2 e := by
  rw [pow2_eq]
  exact zpow_pos (by norm_num) e

theorem pow2_add (a b : Int) : pow2 (a + b) = pow2 a * pow2 b := by
  rw [pow2_eq, pow2_eq, pow2_eq, zpow_add₀ (by norm_num)]

theorem pow2_nat (n : Nat) : pow2 n = ((2 ^ n : Nat) : Rat) := by
  rw [pow2_eq]
  simp

theorem pow2_le {a b : Int} (h : a ≤ b) : pow2 a ≤ pow2 b := by
  rw [pow2_eq, pow2_eq]
  exact zpow_le_zpow_right₀ (by norm_num) h

theorem pow2_lt_iff {a b : Int} : pow2 a < pow2 b ↔ a < b := by
  rw [pow2_eq, pow2_eq]
  exact zpow_lt_zpow_iff_right₀ (by norm_num)

/-- The signed number of a magnitude. -/
def withSign (s : Bool) (v : Rat) : Rat := if s then -v else v

/-- ± m · 2 ^ e. -/
def finVal (s : Bool) (m : Nat) (e : Int) : Rat := (if s then -1 else 1) * (m : Rat) * pow2 e

theorem finVal_eq (s : Bool) (m : Nat) (e : Int) : finVal s m e = withSign s (m * pow2 e) := by
  cases s <;> simp [finVal, withSign]

/-! ## Directions of rounding -/

/-- The value `v` goes to `r`, a multiple of `u`, by RM (R254). -/
def nearBy (rm : Nat) (v r u : Rat) (odd : Bool) : Prop :=
  (rm = 0 → 2 * (r - v) ≤ u ∧ 2 * (v - r) ≤ u ∧ ((2 * (r - v) = u ∨ 2 * (v - r) = u) → odd = false)) ∧
  (rm = 1 → (0 ≤ v → r ≤ v ∧ v < r + u) ∧ (v < 0 → v ≤ r ∧ r < v + u)) ∧
  (rm = 2 → v ≤ r ∧ r < v + u) ∧ (rm = 3 → r ≤ v ∧ v < r + u)

/-- The magnitude `v` of a number of sign `s` goes to `r`. -/
structure roundsTo (rm : Nat) (s : Bool) (v r u : Rat) (odd : Bool) : Prop where
  nearest : rm = 0 → 2 * (r - v) ≤ u ∧ 2 * (v - r) ≤ u ∧ ((2 * (r - v) = u ∨ 2 * (v - r) = u) → odd = false)
  down : rm = 1 ∨ rm = 2 ∧ s = true ∨ rm = 3 ∧ s = false → r ≤ v ∧ v < r + u
  up : rm = 2 ∧ s = false ∨ rm = 3 ∧ s = true → v ≤ r ∧ r < v + u

section
variable {rm : Nat} {s odd : Bool} {v r u : Rat}

theorem nearBy_of_roundsTo (hv : 0 < v) (h : roundsTo rm s v r u odd) : nearBy rm (withSign s v) (withSign s r) u odd := by
  obtain ⟨nearest, down, up⟩ := h
  cases s with
  | false =>
    exact ⟨nearest, fun h => ⟨fun _ => down (.inl h), fun neg => absurd neg (not_lt.mpr hv.le)⟩, fun h => up (.inl ⟨h, rfl⟩),
      fun h => down (.inr (.inr ⟨h, rfl⟩))⟩
  | true =>
    simp only [withSign, if_true]
    refine ⟨fun h => ?_, fun h => ⟨fun neg => absurd neg (by linarith), fun _ => ?_⟩, fun h => ?_, fun h => ?_⟩
    · obtain ⟨a, b, tie⟩ := nearest h
      exact ⟨by linarith, by linarith, fun e => tie (e.elim (fun e => .inr (by linarith)) fun e => .inl (by linarith))⟩
    · have := down (.inl h)
      constructor <;> linarith
    · have := down (.inr (.inl ⟨h, rfl⟩))
      constructor <;> linarith
    · have := up (.inr ⟨h, rfl⟩)
      constructor <;> linarith

theorem roundsTo.scale {c : Rat} (hc : 0 < c) (h : roundsTo rm s v r 1 odd) : roundsTo rm s (v * c) (r * c) c odd := by
  obtain ⟨nearest, down, up⟩ := h
  refine ⟨fun h => ?_, fun h => ?_, fun h => ?_⟩
  · obtain ⟨a, b, tie⟩ := nearest h
    refine ⟨by nlinarith, by nlinarith, fun e => tie (e.imp (fun e => ?_) fun e => ?_)⟩
    · exact mul_right_cancel₀ hc.ne' (by linarith)
    · exact mul_right_cancel₀ hc.ne' (by linarith)
  · obtain ⟨a, b⟩ := down h
    constructor <;> nlinarith
  · obtain ⟨a, b⟩ := up h
    constructor <;> nlinarith

/-- On a coarser grid nothing is a tie. -/
theorem roundsTo.widen {w : Rat} {odd' : Bool} (hw : u < w) (h : roundsTo rm s v r u odd) : roundsTo rm s v r w odd' := by
  obtain ⟨nearest, down, up⟩ := h
  refine ⟨fun h => ?_, fun h => ?_, fun h => ?_⟩
  · obtain ⟨a, b, -⟩ := nearest h
    exact ⟨by linarith, by linarith, fun e => by rcases e with e | e <;> linarith⟩
  · obtain ⟨a, b⟩ := down h
    exact ⟨a, by linarith⟩
  · obtain ⟨a, b⟩ := up h
    exact ⟨a, by linarith⟩
end

/-! ## The increment -/

/-- What is cut off: `r` of 2 ^ k with `σ` of a unit below it. -/
def cutOff (r k : Nat) (σ : Rat) : Rat := (r + σ) / ((2 ^ k : Nat) : Rat)

section
variable {r k : Nat} {σ : Rat}

theorem cutOff_range (h0 : 0 ≤ σ) (h1 : σ < 1) (hr : r < 2 ^ k) : 0 ≤ cutOff r k σ ∧ cutOff r k σ < 1 := by
  have pos : (0 : Rat) < ((2 ^ k : Nat) : Rat) := by positivity
  have le : (r : Rat) + 1 ≤ ((2 ^ k : Nat) : Rat) := by exact_mod_cast hr
  exact ⟨by unfold cutOff; positivity, (div_lt_one pos).mpr (by linarith)⟩

theorem cutOff_pos_iff (h0 : 0 ≤ σ) : 0 < cutOff r k σ ↔ r ≠ 0 ∨ 0 < σ := by
  have pos : (0 : Rat) < ((2 ^ k : Nat) : Rat) := by positivity
  rw [cutOff, div_pos_iff_of_pos_right pos]
  constructor
  · intro h
    by_contra c
    obtain ⟨rfl, c⟩ : r = 0 ∧ σ ≤ 0 := by simpa using c
    norm_num at h
    linarith
  · rintro (h | h)
    · have : (0 : Rat) < r := by exact_mod_cast Nat.pos_of_ne_zero h
      linarith
    · positivity

/-- How what is cut off compares with a half. -/
theorem cutOff_half (h0 : 0 ≤ σ) (h1 : σ < 1) (hk : k ≠ 0) :
    (2 ^ k < 2 * r → 1 < 2 * cutOff r k σ) ∧ (2 * r < 2 ^ k → 2 * cutOff r k σ < 1) ∧
      (2 * r = 2 ^ k → (0 < σ → 1 < 2 * cutOff r k σ) ∧ (σ = 0 → 2 * cutOff r k σ = 1)) := by
  have pos : (0 : Rat) < ((2 ^ k : Nat) : Rat) := by positivity
  have twice : 2 * cutOff r k σ = (2 * r + 2 * σ) / ((2 ^ k : Nat) : Rat) := by rw [cutOff]; ring
  rw [twice, one_lt_div pos, div_lt_one pos, div_eq_one_iff_eq pos.ne']
  refine ⟨fun h => ?_, fun h => ?_, fun h => ⟨fun hσ => ?_, fun hσ => ?_⟩⟩
  · have : ((2 ^ k : Nat) : Rat) < 2 * r := by exact_mod_cast h
    linarith
  · obtain ⟨j, rfl⟩ := Nat.exists_eq_succ_of_ne_zero hk
    have step : r + 1 ≤ 2 ^ j := by rw [Nat.pow_succ] at h; omega
    have : (r : Rat) + 1 ≤ ((2 ^ j : Nat) : Rat) := by exact_mod_cast step
    rw [Nat.pow_succ, Nat.cast_mul]
    push_cast at this ⊢
    linarith
  · have : 2 * (r : Rat) = ((2 ^ k : Nat) : Rat) := by exact_mod_cast h
    linarith
  · have : 2 * (r : Rat) = ((2 ^ k : Nat) : Rat) := by exact_mod_cast h
    linarith
end

/-- The integer to which m1 and what is cut off from it round. -/
def rounded1 (rm : Nat) (s : Bool) (m1 r k : Nat) (sticky : Bool) : Nat := if roundUp rm s m1 r k sticky then m1 + 1 else m1

section
variable {rm m1 r k : Nat} {s sticky : Bool} {σ : Rat}

theorem rounded1_cases : rounded1 rm s m1 r k sticky = m1 ∨ rounded1 rm s m1 r k sticky = m1 + 1 := by
  unfold rounded1
  split
  · exact .inr rfl
  · exact .inl rfl

/-- Where nothing is cut off there is no increment. -/
theorem roundUp_exact (c : sticky ≠ true) : roundUp rm s m1 0 k sticky = false := by
  have clear : sticky = false := by simpa using c
  unfold roundUp
  split <;> simp [clear, (Nat.two_pow_pos k).ne]

/-- Nothing is cut off. -/
theorem rounded1_exact : rounded1 rm s m1 0 k false = m1 := by
  rw [rounded1, roundUp_exact Bool.false_ne_true, if_neg Bool.false_ne_true]

/-- To nearest, ties to even. -/
theorem rounded1_nearest (h0 : 0 ≤ σ) (h1 : σ < 1) (hr : r < 2 ^ k) (hs : sticky = true ↔ 0 < σ) (hk : k ≠ 0) :
    let n := rounded1 0 s m1 r k sticky
    let x : Rat := m1 + cutOff r k σ
    2 * ((n : Rat) - x) ≤ 1 ∧ 2 * (x - n) ≤ 1 ∧ ((2 * ((n : Rat) - x) = 1 ∨ 2 * (x - n) = 1) → decide (n % 2 = 1) = false) := by
  obtain ⟨more, less, half⟩ := cutOff_half (r := r) h0 h1 hk
  obtain ⟨nonneg, lt_one⟩ := cutOff_range (k := k) h0 h1 hr
  have bump (b : Bool) (hb : roundUp 0 s m1 r k sticky = b) : rounded1 0 s m1 r k sticky = if b then m1 + 1 else m1 := by rw [rounded1, hb]
  intro n x
  rcases Nat.lt_trichotomy (2 * r) (2 ^ k) with lt | eq | gt
  · have kept : n = m1 := bump false (by simp [roundUp]; omega)
    have := less lt
    rw [kept]
    refine ⟨by simp only [x]; linarith, by simp only [x]; linarith, fun e => ?_⟩
    rcases e with e | e <;> simp only [x] at e <;> linarith
  · obtain ⟨above, tie⟩ := half eq
    by_cases hσ : 0 < σ
    · have raised : n = m1 + 1 := bump true (by simp [roundUp, eq, hk, hs.mpr hσ])
      have := above hσ
      rw [raised]
      push_cast
      refine ⟨by simp only [x]; linarith, by simp only [x]; linarith, fun e => ?_⟩
      rcases e with e | e <;> simp only [x] at e <;> linarith
    · have half := tie (le_antisymm (not_lt.mp hσ) h0)
      have clear : sticky = false := by
        rw [← Bool.not_eq_true, hs]
        exact hσ
      have even : n % 2 = 0 ∧ (n = m1 ∨ n = m1 + 1) := by
        by_cases odd : m1 % 2 = 1
        · have raised : n = m1 + 1 := bump true (by simp [roundUp, eq, hk, odd])
          omega
        · have kept : n = m1 := bump false (by simp [roundUp, eq, clear, odd])
          omega
      obtain ⟨even, near⟩ := even
      refine ⟨?_, ?_, fun _ => by simp [even]⟩
      all_goals
        rcases near with e | e <;> rw [e] <;> simp only [x] <;> push_cast <;> linarith
  · have raised : n = m1 + 1 := bump true (by simp [roundUp, gt])
    have := more gt
    rw [raised]
    push_cast
    refine ⟨by simp only [x]; linarith, by simp only [x]; linarith, fun e => ?_⟩
    rcases e with e | e <;> simp only [x] at e <;> linarith

/-- Away from zero, where anything is cut off. -/
theorem rounded1_up (h : rm = 2 ∧ s = false ∨ rm = 3 ∧ s = true) :
    rounded1 rm s m1 r k sticky = if r ≠ 0 ∨ sticky = true then m1 + 1 else m1 := by
  rcases h with ⟨rfl, rfl⟩ | ⟨rfl, rfl⟩ <;> simp [rounded1, roundUp]

/-- Towards zero. -/
theorem rounded1_down (h : rm = 1 ∨ rm = 2 ∧ s = true ∨ rm = 3 ∧ s = false) : rounded1 rm s m1 r k sticky = m1 := by
  rcases h with rfl | ⟨rfl, rfl⟩ | ⟨rfl, rfl⟩ <;> simp [rounded1, roundUp]

/-- The integer that the increment gives is the value rounded, and differs from it where anything is cut off. -/
theorem rounded1_rounds (h0 : 0 ≤ σ) (h1 : σ < 1) (hr : r < 2 ^ k) (hs : sticky = true ↔ 0 < σ) (hk : k ≠ 0) :
    let n := rounded1 rm s m1 r k sticky
    let x : Rat := m1 + cutOff r k σ
    roundsTo rm s x n 1 (decide (n % 2 = 1)) ∧ ((n : Rat) = x ↔ ¬(r ≠ 0 ∨ sticky = true)) := by
  obtain ⟨nonneg, lt_one⟩ := cutOff_range (k := k) h0 h1 hr
  have exact_iff : 0 < cutOff r k σ ↔ (r ≠ 0 ∨ sticky = true) := by rw [cutOff_pos_iff h0, hs]
  intro n x
  refine ⟨⟨fun h => ?_, fun h => ?_, fun h => ?_⟩, ?_⟩
  · subst h
    exact rounded1_nearest h0 h1 hr hs hk
  · have down : n = m1 := rounded1_down h
    rw [down]
    constructor <;> simp only [x] <;> linarith
  · have up : n = if r ≠ 0 ∨ sticky = true then m1 + 1 else m1 := rounded1_up h
    by_cases some : r ≠ 0 ∨ sticky = true
    · have := exact_iff.mpr some
      rw [up, if_pos some]
      push_cast
      constructor <;> simp only [x] <;> linarith
    · have := mt exact_iff.mp some
      rw [up, if_neg some]
      constructor <;> simp only [x] <;> linarith
  · rw [← exact_iff]
    rcases rounded1_cases (rm := rm) (s := s) (m1 := m1) (r := r) (k := k) (sticky := sticky) with e | e
    · rw [show n = m1 from e]
      constructor
      · intro same
        simp only [x] at same
        linarith
      · intro none
        simp only [x]
        linarith
    · rw [show n = m1 + 1 from e]
      have some : 0 < cutOff r k σ := by
        rw [exact_iff]
        by_contra c
        push Not at c
        obtain ⟨rfl, c⟩ := c
        exact absurd e (by simp [rounded1, roundUp_exact c])
      constructor
      · intro same
        simp only [x] at same
        push_cast at same
        linarith
      · intro none
        exact absurd some none
end

/-! ## The significand -/

theorem bitLen_bounds {m : Nat} (h : m ≠ 0) : 1 ≤ bitLen m ∧ 2 ^ (bitLen m - 1) ≤ m ∧ m < 2 ^ bitLen m := by
  rw [bitLen, if_neg h]
  exact ⟨by omega, Nat.log2_self_le h, Nat.lt_log2_self⟩

/-- Exponent of the unit in the last place of a value of the normal range. -/
def unitExp (mw m : Nat) (e : Int) : Int := e + bitLen m - (mw + 1)

/-- What of `m` stands above the unit of exponent `q`, and what is cut off. -/
def above (q e : Int) (m : Nat) : Nat := if q ≤ e then m * 2 ^ (e - q).toNat else m / 2 ^ (q - e).toNat
def below (q e : Int) (m : Nat) : Nat := if q ≤ e then 0 else m % 2 ^ (q - e).toNat

section
variable {rm mw m : Nat} {s sticky : Bool} {e : Int} {σ : Rat}

/-- The significand before the increment has mw + 1 bits. -/
theorem above_bits (hm : m ≠ 0) : 2 ^ mw ≤ above (unitExp mw m e) e m ∧ above (unitExp mw m e) e m < 2 ^ (mw + 1) := by
  obtain ⟨one, lo, hi⟩ := bitLen_bounds hm
  unfold above unitExp
  split
  · next h =>
    obtain ⟨j, hj⟩ : ∃ j, mw + 1 = bitLen m + j := ⟨mw + 1 - bitLen m, by omega⟩
    have shift : (e - (e + bitLen m - ((mw : Int) + 1))).toNat = j := by omega
    rw [shift]
    constructor
    · calc 2 ^ mw = 2 ^ (bitLen m - 1) * 2 ^ j := by rw [← Nat.pow_add]; congr 1; omega
        _ ≤ m * 2 ^ j := Nat.mul_le_mul_right _ lo
    · calc m * 2 ^ j < 2 ^ bitLen m * 2 ^ j := Nat.mul_lt_mul_of_pos_right hi (Nat.two_pow_pos _)
        _ = 2 ^ (mw + 1) := by rw [← Nat.pow_add, hj]
  · next h =>
    obtain ⟨k, hk⟩ : ∃ k, bitLen m = mw + 1 + k := ⟨bitLen m - (mw + 1), by omega⟩
    have shift : ((e + bitLen m - ((mw : Int) + 1)) - e).toNat = k := by omega
    rw [shift]
    constructor
    · rw [Nat.le_div_iff_mul_le (Nat.two_pow_pos _), ← Nat.pow_add]
      rw [show bitLen m - 1 = mw + k by omega] at lo
      exact lo
    · rw [Nat.div_lt_iff_lt_mul (Nat.two_pow_pos _), ← Nat.pow_add, ← hk]
      exact hi

/-- The value in units of the last place. -/
theorem above_below (q e : Int) (m : Nat) (h : q ≤ e → σ = 0) :
    ((m : Rat) + σ) * pow2 e = (above q e m + (if q ≤ e then 0 else cutOff (below q e m) (q - e).toNat σ)) * pow2 q := by
  unfold above below
  by_cases c : q ≤ e
  · obtain ⟨j, hj⟩ := Int.eq_ofNat_of_zero_le (a := e - q) (by omega)
    have split_ : pow2 e = ((2 ^ j : Nat) : Rat) * pow2 q := by
      rw [← pow2_nat, ← pow2_add]
      congr 1
      omega
    rw [if_pos c, if_pos c, h c, split_, hj, Int.toNat_natCast]
    push_cast
    ring
  · obtain ⟨k, hk⟩ := Int.eq_ofNat_of_zero_le (a := q - e) (by omega)
    have split_ : pow2 q = ((2 ^ k : Nat) : Rat) * pow2 e := by
      rw [← pow2_nat, ← pow2_add]
      congr 1
      omega
    have parts : (m : Rat) = ((m / 2 ^ k : Nat) : Rat) * ((2 ^ k : Nat) : Rat) + ((m % 2 ^ k : Nat) : Rat) := by
      have := Nat.div_add_mod' m (2 ^ k)
      exact_mod_cast this.symm
    have pos : ((2 ^ k : Nat) : Rat) ≠ 0 := by positivity
    rw [if_neg c, if_neg c, if_neg c, hk, Int.toNat_natCast, split_, cutOff, parts]
    generalize ((m / 2 ^ k : Nat) : Rat) = a at *
    generalize ((m % 2 ^ k : Nat) : Rat) = b at *
    field_simp
    ring

/-- Where the unit is no finer than the number's own, nothing is cut off. -/
theorem unitExp_coarse (hbits : sticky = true → mw + 1 < bitLen m) (h : unitExp mw m e ≤ e) : sticky = false := by
  by_contra c
  have := hbits (by simpa using c)
  unfold unitExp at h
  omega

/-- The significand that rounding gives: the value rounded to a multiple of the unit. -/
theorem significand_rounds {v : Rat} (hm : m ≠ 0) (h0 : 0 ≤ σ) (h1 : σ < 1) (hs : sticky = true ↔ 0 < σ)
    (hbits : sticky = true → mw + 1 < bitLen m) (hv : v = (m + σ) * pow2 e) :
    let q := unitExp mw m e
    let n := rounded1 rm s (above q e m) (below q e m) (q - e).toNat sticky
    roundsTo rm s v (n * pow2 q) (pow2 q) (decide (n % 2 = 1)) ∧ ((n : Rat) * pow2 q = v ↔ ¬(below q e m ≠ 0 ∨ sticky = true)) ∧
      2 ^ mw ≤ n ∧ n ≤ 2 ^ (mw + 1) := by
  intro q n
  obtain ⟨lo, hi⟩ := above_bits (mw := mw) (e := e) hm
  have range : 2 ^ mw ≤ n ∧ n ≤ 2 ^ (mw + 1) := by
    rcases rounded1_cases (rm := rm) (s := s) (m1 := above q e m) (r := below q e m) (k := (q - e).toNat) (sticky := sticky) with h | h
    · exact ⟨by rw [show n = _ from h]; exact lo, by rw [show n = _ from h]; exact hi.le⟩
    · exact ⟨by rw [show n = _ from h]; exact lo.trans (Nat.le_succ _), by rw [show n = _ from h]; exact hi⟩
  have pos := pow2_pos q
  have value := above_below (σ := σ) q e m fun h => by
    have clear := unitExp_coarse hbits h
    have := mt hs.mpr (by rw [clear]; exact Bool.false_ne_true)
    exact le_antisymm (not_lt.mp this) h0
  rw [← hv] at value
  by_cases c : q ≤ e
  · have clear : sticky = false := unitExp_coarse hbits c
    have cut : below q e m = 0 := if_pos c
    have kept : n = above q e m := by
      simp only [n, cut, clear]
      exact rounded1_exact
    rw [if_pos c, add_zero] at value
    refine ⟨?_, ?_, range⟩
    · rw [kept, value]
      refine roundsTo.mk (fun _ => ⟨by linarith, by linarith, fun e => ?_⟩) (fun _ => ⟨le_refl _, by linarith⟩) fun _ => ⟨le_refl _, by linarith⟩
      rcases e with e | e <;> linarith
    · rw [kept, value, cut, clear]
      simp
  · have hk : (q - e).toNat ≠ 0 := by omega
    have hr : below q e m < 2 ^ (q - e).toNat := by
      rw [below, if_neg c]
      exact Nat.mod_lt _ (Nat.two_pow_pos _)
    obtain ⟨rounds, same⟩ := rounded1_rounds (rm := rm) (m1 := above q e m) (s := s) h0 h1 hr hs hk
    rw [if_neg c] at value
    refine ⟨?_, ?_, range⟩
    · rw [value]
      exact rounds.scale pos
    · rw [value, ← same]
      exact mul_left_inj' pos.ne'
end

/-! ## The format -/

/-- Widths of a format's fields. -/
structure Fmt.sane (t : Fmt) : Prop where
  ew : 2 ≤ t.ew
  mw : 1 ≤ t.mw

section
variable {t : Fmt}

theorem Fmt.sane.emax (h : t.sane) : t.emax = 2 * t.bias + 1 ∧ 1 ≤ t.bias := by
  obtain ⟨k, hk⟩ : ∃ k, t.ew = k + 2 := ⟨t.ew - 2, by have := h.ew; omega⟩
  have pos := Nat.two_pow_pos k
  rw [Fmt.emax, Fmt.bias, hk, show k + 2 - 1 = k + 1 by omega, Nat.pow_succ, Nat.pow_succ]
  omega

/-- The value of an encoding by its fields. -/
theorem Fmt.val_fields (t : Fmt) (s : Bool) {ex frac : Nat} (hex : ex < 2 ^ t.ew) (hf : frac < 2 ^ t.mw) :
    t.val (t.sign s + (ex * 2 ^ t.mw + frac)) =
      if ex = t.emax then (if frac = 0 then .inf s else .nan s frac)
      else if ex = 0 then .fin s frac (1 - (t.bias : Int) - t.mw)
      else .fin s (frac + 2 ^ t.mw) ((ex : Int) - t.bias - t.mw) := by
  have form : t.sign s + (ex * 2 ^ t.mw + frac) = ((if s then 1 else 0) * 2 ^ t.ew + ex) * 2 ^ t.mw + frac := by
    cases s <;> simp [Fmt.sign, Nat.pow_add, Nat.add_mul, Nat.add_assoc]
  have high : (((if s then 1 else 0) * 2 ^ t.ew + ex) * 2 ^ t.mw + frac) / 2 ^ t.mw = (if s then 1 else 0) * 2 ^ t.ew + ex := by
    rw [Nat.add_comm, Nat.add_mul_div_right _ _ (Nat.two_pow_pos _), Nat.div_eq_of_lt hf, Nat.zero_add]
  have low : (((if s then 1 else 0) * 2 ^ t.ew + ex) * 2 ^ t.mw + frac) % 2 ^ t.mw = frac := by
    rw [Nat.add_comm, Nat.add_mul_mod_self_right, Nat.mod_eq_of_lt hf]
  have exp : ((if s then 1 else 0) * 2 ^ t.ew + ex) % 2 ^ t.ew = ex := by
    rw [Nat.add_comm, Nat.add_mul_mod_self_right, Nat.mod_eq_of_lt hex]
  have top : ((if s then 1 else 0) * 2 ^ t.ew + ex) / 2 ^ t.ew = if s then 1 else 0 := by
    rw [Nat.add_comm, Nat.add_mul_div_right _ _ (Nat.two_pow_pos _), Nat.div_eq_of_lt hex, Nat.zero_add]
  have sgn : decide ((if s then 1 else 0) % 2 = 1) = s := by cases s <;> rfl
  rw [form, Fmt.val]
  simp only [low, high, exp, Nat.add_comm t.ew t.mw, Nat.pow_add, ← Nat.div_div_eq_div_mul, top, sgn]

/-- The encoding of a significand of mw + 1 bits, or of the next power of two. -/
theorem Fmt.val_packed (t : Fmt) (s : Bool) {n b : Nat} (lo : 2 ^ t.mw ≤ n) (hi : n ≤ 2 ^ (t.mw + 1)) (h1 : 1 ≤ b) (h2 : b + 1 < t.emax) :
    ∃ m' e', t.val (t.sign s + (b * 2 ^ t.mw + (n - 2 ^ t.mw))) = .fin s m' e' ∧
      (m' = n ∧ e' = (b : Int) - t.bias - t.mw ∨ n = 2 ^ (t.mw + 1) ∧ m' = 2 ^ t.mw ∧ e' = (b : Int) - t.bias - t.mw + 1) := by
  have emax : t.emax < 2 ^ t.ew := by
    have := Nat.two_pow_pos t.ew
    rw [Fmt.emax]
    omega
  have double : 2 ^ (t.mw + 1) = 2 ^ t.mw + 2 ^ t.mw := by rw [Nat.pow_succ]; omega
  rcases Nat.lt_or_ge n (2 ^ (t.mw + 1)) with lt | ge
  · refine ⟨n, _, ?_, .inl ⟨rfl, rfl⟩⟩
    rw [t.val_fields s (by omega) (by omega), if_neg (by omega), if_neg (by omega), Nat.sub_add_cancel lo]
  · obtain rfl : n = 2 ^ (t.mw + 1) := by omega
    refine ⟨2 ^ t.mw, _, ?_, .inr ⟨rfl, rfl, rfl⟩⟩
    have carry : b * 2 ^ t.mw + (2 ^ (t.mw + 1) - 2 ^ t.mw) = (b + 1) * 2 ^ t.mw + 0 := by rw [Nat.succ_mul]; omega
    rw [carry, t.val_fields s (by omega) (Nat.two_pow_pos _), if_neg (by omega), if_neg (by omega)]
    congr 1
    · omega
    · push_cast; ring

/-! ## Rounding into the format -/

/-- A value of the normal range: the unit's exponent as the format encodes it. -/
theorem unitExp_range (ht : t.sane) {m : Nat} {e : Int} {σ v : Rat} (hm : m ≠ 0) (h0 : 0 ≤ σ) (h1 : σ < 1) (hv : v = (m + σ) * pow2 e)
    (lo : pow2 (1 - (t.bias : Int)) ≤ v) (hi : v < pow2 t.bias) :
    1 - (t.bias : Int) ≤ e + bitLen m - 1 ∧ e + bitLen m ≤ t.bias := by
  obtain ⟨one, mlo, mhi⟩ := bitLen_bounds hm
  have pos := pow2_pos e
  have upper : v < pow2 (e + bitLen m) := by
    have : (m : Rat) + 1 ≤ ((2 ^ bitLen m : Nat) : Rat) := by exact_mod_cast mhi
    rw [hv, Int.add_comm, pow2_add, pow2_nat]
    nlinarith
  have lower : pow2 (e + bitLen m - 1) ≤ v := by
    have : ((2 ^ (bitLen m - 1) : Nat) : Rat) ≤ m := by exact_mod_cast mlo
    rw [hv, show e + bitLen m - 1 = ((bitLen m - 1 : Nat) : Int) + e by omega, pow2_add, pow2_nat]
    nlinarith
  have a := pow2_lt_iff.mp (lo.trans_lt upper)
  have b := pow2_lt_iff.mp (lower.trans_lt hi)
  omega

/-- In the normal range rounding gives the value rounded, with NX where they differ. -/
theorem Fmt.round_spec (ht : t.sane) {rm : Nat} {s sticky : Bool} {m : Nat} {e : Int} {σ v : Rat} (hm : m ≠ 0) (h0 : 0 ≤ σ) (h1 : σ < 1)
    (hs : sticky = true ↔ 0 < σ) (hbits : sticky = true → t.mw + 1 < bitLen m) (hv : v = (m + σ) * pow2 e)
    (lo : pow2 (1 - (t.bias : Int)) ≤ v) (hi : v < pow2 t.bias) :
    ∃ m' e', t.val (t.round rm s m e sticky).bits = .fin s m' e' ∧ m' ≠ 0 ∧
      roundsTo rm s v (m' * pow2 e') (pow2 e') (decide (m' % 2 = 1)) ∧
      (t.round rm s m e sticky).flags = if (m' : Rat) * pow2 e' = v then 0 else 1 := by
  obtain ⟨emax, bias⟩ := ht.emax
  obtain ⟨elo, ehi⟩ := unitExp_range ht hm h0 h1 hv lo hi
  obtain ⟨q, hq⟩ : ∃ q, q = unitExp t.mw m e := ⟨_, rfl⟩
  obtain ⟨n, hn⟩ : ∃ n, n = rounded1 rm s (above q e m) (below q e m) (q - e).toNat sticky := ⟨_, rfl⟩
  obtain ⟨rounds, same, nlo, nhi⟩ := significand_rounds (rm := rm) (s := s) (mw := t.mw) hm h0 h1 hs hbits hv
  rw [← hq, ← hn] at rounds same
  rw [← hq, ← hn] at nlo nhi
  obtain ⟨b, hb⟩ := Int.eq_ofNat_of_zero_le (a := q + t.mw + t.bias) (by rw [hq, unitExp]; omega)
  have brange : 1 ≤ b ∧ b + 1 < t.emax := by rw [hq, unitExp] at hb; omega
  have form : t.round rm s m e sticky = ⟨t.sign s + (b * 2 ^ t.mw + (n - 2 ^ t.mw)), if below q e m ≠ 0 ∨ sticky = true then 1 else 0⟩ := by
    have top : max (e + bitLen m - ((t.mw : Int) + 1)) (1 - (t.bias : Int) - t.mw) = q := by
      rw [hq, unitExp]
      exact max_eq_left (by omega)
    have sig : (if roundUp rm s (if q ≤ e then m * 2 ^ (e - q).toNat else m / 2 ^ (q - e).toNat)
        (if q ≤ e then 0 else m % 2 ^ (q - e).toNat) (q - e).toNat sticky
        then (if q ≤ e then m * 2 ^ (e - q).toNat else m / 2 ^ (q - e).toNat) + 1
        else if q ≤ e then m * 2 ^ (e - q).toNat else m / 2 ^ (q - e).toNat) = n := hn.symm
    have tiny : decide (e + bitLen m - 1 < 1 - (t.bias : Int)) = false := decide_eq_false (by omega)
    have small : ¬t.emax * 2 ^ t.mw ≤ b * 2 ^ t.mw + (n - 2 ^ t.mw) := by
      have double : 2 ^ (t.mw + 1) = 2 ^ t.mw + 2 ^ t.mw := by rw [Nat.pow_succ]; omega
      have pos := Nat.two_pow_pos t.mw
      have : (b + 2) * 2 ^ t.mw ≤ t.emax * 2 ^ t.mw := Nat.mul_le_mul_right _ (by omega)
      rw [Nat.add_mul] at this
      omega
    rw [Fmt.round, if_neg (by simp [hm])]
    dsimp only
    rw [top, sig, if_neg (by omega : ¬n < 2 ^ t.mw), hb, Int.toNat_natCast, if_neg small, tiny]
    rw [show (if q ≤ e then 0 else m % 2 ^ (q - e).toNat) = below q e m from rfl]
    simp [flNX]
  obtain ⟨m', e', val, cases_⟩ := t.val_packed s nlo nhi brange.1 brange.2
  have unit : (b : Int) - t.bias - t.mw = q := by omega
  rw [unit] at cases_
  have num : (m' : Rat) * pow2 e' = n * pow2 q := by
    rcases cases_ with ⟨rfl, rfl⟩ | ⟨rfl, rfl, rfl⟩
    · rfl
    · rw [pow2_add, Nat.pow_succ, show pow2 1 = 2 by rw [pow2_eq]; norm_num]
      push_cast
      ring
  have pos : m' ≠ 0 := by
    have := Nat.two_pow_pos t.mw
    rcases cases_ with ⟨rfl, -⟩ | ⟨-, rfl, -⟩ <;> omega
  refine ⟨m', e', by rw [form]; exact val, pos, ?_, ?_⟩
  · rw [num]
    rcases cases_ with ⟨rfl, rfl⟩ | ⟨-, -, rfl⟩
    · exact rounds
    · exact rounds.widen (pow2_lt_iff.mpr (by omega))
  · rw [form, num]
    dsimp only
    simp only [same]
    split <;> simp_all
end
end Sys2Proof.Machine
end

