-- ==== Sys2Proof/Proofs/FpResults.lean ====
section
/-! PROOF. Rounding, NaN results, zeros and saturation of the floating-point instructions (R267). -/

namespace Sys2Proof.Machine

/-! ## Rounded results -/

/-- A value of the normal range of a format. -/
def Fmt.inNormal (t : Fmt) (v : Rat) : Prop :=
  (pow2 (1 - (t.bias : Int)) ≤ v ∨ pow2 (1 - (t.bias : Int)) ≤ -v) ∧ v < pow2 t.bias ∧ -v < pow2 t.bias

/-- The result is the value rounded, with NX where they differ, if the value lies in the normal range. -/
def Fmt.roundedTo (t : Fmt) (rm : Nat) (v : Rat) (r : FRes) : Prop := t.inNormal v →
  ∃ s m e, t.val r.bits = .fin s m e ∧ nearBy rm v (finVal s m e) (pow2 e) (decide (m % 2 = 1)) ∧
    r.flags = if finVal s m e = v then 0 else 1

theorem withSign_inj {s : Bool} {a b : Rat} : withSign s a = withSign s b ↔ a = b := by
  cases s <;> simp [withSign]

section
variable {t : Fmt} {rm : Nat}

/-- What `round` gives of the signed value of which it is told the magnitude. -/
theorem Fmt.round_signed (ht : t.sane) {s sticky : Bool} {m : Nat} {e : Int} {σ v : Rat} (h0 : 0 ≤ σ) (h1 : σ < 1)
    (hs : sticky = true ↔ 0 < σ) (hbits : sticky = true → t.mw + 1 < bitLen m) (hv : v = withSign s ((m + σ) * pow2 e)) :
    t.roundedTo rm v (t.round rm s m e sticky) := by
  intro ⟨lo, hi, hi'⟩
  have small := pow2_pos (1 - (t.bias : Int))
  obtain ⟨w, hw⟩ : ∃ w, w = ((m : Rat) + σ) * pow2 e := ⟨_, rfl⟩
  rw [← hw] at hv
  have nonneg : 0 ≤ w := by
    rw [hw]
    have := pow2_pos e
    positivity
  have range : pow2 (1 - (t.bias : Int)) ≤ w ∧ w < pow2 t.bias := by
    cases s with
    | false =>
      obtain rfl : v = w := hv
      exact ⟨lo.elim id fun h => by linarith, hi⟩
    | true =>
      obtain rfl : v = -w := hv
      exact ⟨lo.elim (fun h => by linarith) fun h => by linarith, by linarith⟩
  have hm : m ≠ 0 := by
    rintro rfl
    have clear : ¬sticky = true := fun h => absurd (hbits h) (by simp [bitLen])
    have := mt hs.mpr clear
    have none : σ = 0 := le_antisymm (not_lt.mp this) h0
    rw [none] at hw
    norm_num at hw
    linarith
  obtain ⟨m', e', val, -, rounds, flags⟩ := t.round_spec ht (rm := rm) (s := s) hm h0 h1 hs hbits hw range.1 range.2
  refine ⟨s, m', e', val, ?_, ?_⟩
  · rw [finVal_eq, hv]
    exact nearBy_of_roundsTo (by linarith) rounds
  · rw [flags, finVal_eq, hv]
    simp only [withSign_inj]

/-- An exact significand. -/
theorem Fmt.round_exact (ht : t.sane) (s : Bool) (m : Nat) (e : Int) {v : Rat} (hv : v = withSign s (m * pow2 e)) :
    t.roundedTo rm v (t.round rm s m e false) :=
  t.round_signed ht (σ := 0) (le_refl _) (by norm_num) (by simp) (by simp) (by rw [hv, add_zero])

theorem Fmt.not_normal_zero : ¬t.inNormal 0 := fun ⟨lo, _⟩ => by
  have := pow2_pos (1 - (t.bias : Int))
  rcases lo with h | h
  · linarith
  · norm_num at h
    linarith

/-! ## The operations on finite numbers -/

variable {x y : Nat} {s s' : Bool} {m m' : Nat} {e e' : Int}

/-- A number in units of a smaller power of two. -/
theorem finVal_scaled {lo : Int} (h : lo ≤ e) : finVal s m e = (signedNat s (m * 2 ^ (e - lo).toNat) : Int) * pow2 lo := by
  obtain ⟨k, hk⟩ := Int.eq_ofNat_of_zero_le (a := e - lo) (by omega)
  have split_ : pow2 e = ((2 ^ k : Nat) : Rat) * pow2 lo := by
    rw [← pow2_nat, ← pow2_add]
    congr 1
    omega
  rw [finVal, split_, hk, Int.toNat_natCast, signedNat]
  cases s <;> simp only [Bool.false_eq_true, if_false, if_true] <;> push_cast <;> ring

theorem withSign_natAbs (z : Int) : withSign (decide (z < 0)) (z.natAbs : Rat) = z := by
  by_cases h : z < 0
  · have : ((z.natAbs : Nat) : Int) = -z := by omega
    have cast : ((z.natAbs : Nat) : Rat) = -(z : Rat) := by rw [← Int.cast_natCast, this, Int.cast_neg]
    rw [withSign, decide_eq_true h, if_pos rfl, cast, neg_neg]
  · have : ((z.natAbs : Nat) : Int) = z := by omega
    have cast : ((z.natAbs : Nat) : Rat) = (z : Rat) := by rw [← Int.cast_natCast, this]
    rw [withSign, decide_eq_false h, if_neg Bool.false_ne_true, cast]

theorem Fmt.addV_fin (ht : t.sane) : t.roundedTo rm (finVal s m e + finVal s' m' e') (t.addV rm (.fin s m e) (.fin s' m' e')) := by
  obtain ⟨z, hz⟩ : ∃ z, z = signedNat s (m * 2 ^ (e - min e e').toNat) + signedNat s' (m' * 2 ^ (e' - min e e').toNat) := ⟨_, rfl⟩
  have sum : finVal s m e + finVal s' m' e' = (z : Rat) * pow2 (min e e') := by
    rw [finVal_scaled (min_le_left e e'), finVal_scaled (e := e') (min_le_right e e'), hz]
    push_cast
    ring
  rw [sum]
  simp only [Fmt.addV, ← hz]
  by_cases zero : z = 0
  · rw [zero]
    norm_num
    exact fun h => absurd h t.not_normal_zero
  · rw [if_neg zero]
    refine t.round_exact ht _ _ _ ?_
    rw [← withSign_natAbs z]
    cases decide (z < 0) <;> simp [withSign]

theorem FVal.neg_finVal (s : Bool) (m : Nat) (e : Int) : finVal (!s) m e = -finVal s m e := by
  cases s <;> simp [finVal]

theorem withSign_mul (s s' : Bool) (a b : Rat) : withSign s a * withSign s' b = withSign (s != s') (a * b) := by
  cases s <;> cases s' <;> simp [withSign]

theorem withSign_div (s s' : Bool) (a b : Rat) : withSign s a / withSign s' b = withSign (s != s') (a / b) := by
  cases s <;> cases s' <;> simp [withSign, neg_div, div_neg]

section
variable (hx : t.val x = .fin s m e) (hy : t.val y = .fin s' m' e')
include hx hy

theorem Fmt.nan2_fin : t.nan2 (t.val x) (t.val y) = none := by rw [hx, hy]; rfl

theorem Fmt.add_fin (ht : t.sane) : t.roundedTo rm (finVal s m e + finVal s' m' e') (t.add rm x y) := by
  rw [Fmt.add, t.nan2_fin hx hy, hx, hy]
  exact t.addV_fin ht

theorem Fmt.sub_fin (ht : t.sane) : t.roundedTo rm (finVal s m e - finVal s' m' e') (t.sub rm x y) := by
  rw [Fmt.sub, t.nan2_fin hx hy, hx, hy, sub_eq_add_neg, ← FVal.neg_finVal]
  exact t.addV_fin ht

theorem Fmt.mul_fin (ht : t.sane) : t.roundedTo rm (finVal s m e * finVal s' m' e') (t.mul rm x y) := by
  rw [Fmt.mul, t.nan2_fin hx hy, hx, hy]
  refine t.round_exact ht _ _ _ ?_
  rw [finVal_eq, finVal_eq, withSign_mul, pow2_add]
  congr 1
  push_cast
  ring
end

/-! ## Quotients -/

/-- The significand of a value of a format. -/
theorem Fmt.val_fin_lt (h : t.val x = .fin s m e) : m < 2 ^ (t.mw + 1) := by
  have low : x % 2 ^ t.mw < 2 ^ t.mw := Nat.mod_lt _ (Nat.two_pow_pos _)
  have double : 2 ^ (t.mw + 1) = 2 ^ t.mw + 2 ^ t.mw := by rw [Nat.pow_succ]; omega
  unfold Fmt.val at h
  dsimp only at h
  split at h
  · split at h <;> exact absurd h (by simp)
  · split at h <;> simp only [FVal.fin.injEq] at h <;> omega

theorem bitLen_of_le {n k : Nat} (h : 2 ^ k ≤ n) : k < bitLen n := by
  have pos : n ≠ 0 := by
    have := Nat.two_pow_pos k
    omega
  obtain ⟨-, -, hi⟩ := bitLen_bounds pos
  exact (Nat.pow_lt_pow_iff_right (by decide)).mp (h.trans_lt hi)

section
variable (hx : t.val x = .fin s m e) (hy : t.val y = .fin s' m' e')
include hx hy

theorem Fmt.div_fin (ht : t.sane) (hm : m' ≠ 0) : t.roundedTo rm (finVal s m e / finVal s' m' e') (t.div rm x y) := by
  obtain ⟨k, hk⟩ : ∃ k, k = 2 * t.mw + 4 := ⟨_, rfl⟩
  obtain ⟨n, hn⟩ : ∃ n, n = m * 2 ^ k := ⟨_, rfl⟩
  have form : t.div rm x y = t.round rm (s != s') (n / m') (e - e' - k) (decide (n % m' ≠ 0)) := by
    rw [Fmt.div, t.nan2_fin hx hy, hx, hy]
    dsimp only
    rw [if_neg hm, hn, hk]
  have den : (0 : Rat) < m' := by exact_mod_cast Nat.pos_of_ne_zero hm
  have parts : (n : Rat) = ((n / m' : Nat) : Rat) * m' + ((n % m' : Nat) : Rat) := by
    have := Nat.div_add_mod' n m'
    exact_mod_cast this.symm
  have lt : ((n % m' : Nat) : Rat) < m' := by exact_mod_cast Nat.mod_lt n (Nat.pos_of_ne_zero hm)
  have quotient : finVal s m e / finVal s' m' e' =
      withSign (s != s') ((((n / m' : Nat) : Rat) + ((n % m' : Nat) : Rat) / m') * pow2 (e - e' - k)) := by
    have one : pow2 e = pow2 (e - e' - k) * (pow2 e' * pow2 k) := by
      rw [← pow2_add, ← pow2_add]
      congr 1
      omega
    have pos := pow2_pos e'
    have num : ((m : Nat) : Rat) * pow2 k = n := by rw [hn, pow2_nat, Nat.cast_mul]
    rw [finVal_eq, finVal_eq, withSign_div]
    congr 1
    rw [one, show (m : Rat) * (pow2 (e - e' - k) * (pow2 e' * pow2 k)) = (m * pow2 k) * (pow2 (e - e' - k) * pow2 e') by ring, num, parts]
    field_simp
  rw [form]
  refine t.round_signed ht (σ := ((n % m' : Nat) : Rat) / m') (by positivity) ((div_lt_one den).mpr lt) ?_ ?_ quotient
  · rw [decide_eq_true_eq, div_pos_iff_of_pos_right den]
    exact ⟨fun h => by exact_mod_cast Nat.pos_of_ne_zero h, fun h e => absurd h (by rw [e]; norm_num)⟩
  · intro inexact
    have pos : m ≠ 0 := by
      rintro rfl
      rw [hn] at inexact
      simp at inexact
    refine (Nat.lt_succ_self _).trans (bitLen_of_le ?_)
    rw [Nat.le_div_iff_mul_le (Nat.pos_of_ne_zero hm), hn]
    calc 2 ^ (t.mw + 1 + 1) * m' ≤ 2 ^ (t.mw + 1 + 1) * 2 ^ (t.mw + 1) := Nat.mul_le_mul_left _ (t.val_fin_lt hy).le
      _ = 2 ^ (2 * t.mw + 3) := by rw [← Nat.pow_add]; congr 1; omega
      _ ≤ 2 ^ k := Nat.pow_le_pow_right (by decide) (by omega)
      _ ≤ m * 2 ^ k := Nat.le_mul_of_pos_left _ (Nat.pos_of_ne_zero pos)

theorem Fmt.div_zero (hm : m' = 0) : t.div rm x y = if m = 0 then t.invalid else ⟨t.inf (s != s'), 8⟩ := by
  rw [Fmt.div, t.nan2_fin hx hy, hx, hy]
  dsimp only
  rw [if_pos hm]
  rfl
end

/-! ## Square roots -/

/-- The bits of a square root come out most significant first. -/
theorem isqrtFrom_spec (n : Nat) : ∀ (k r : Nat), r * r ≤ n → n < (r + 2 ^ k) * (r + 2 ^ k) →
    isqrtFrom k r n * isqrtFrom k r n ≤ n ∧ n < (isqrtFrom k r n + 1) * (isqrtFrom k r n + 1)
  | 0, r, lo, hi => ⟨lo, by rw [Nat.pow_zero] at hi; exact hi⟩
  | k + 1, r, lo, hi => by
    rw [isqrtFrom]
    rw [Nat.pow_succ] at hi
    split
    · next h => exact isqrtFrom_spec n k _ h (by rw [show r + 2 ^ k + 2 ^ k = r + 2 ^ k * 2 by omega]; exact hi)
    · next h => exact isqrtFrom_spec n k r lo (by omega)

/-- Rounding a magnitude that lies strictly above `m` units goes alike wherever it lies below m + 1. -/
theorem Fmt.round_sticky (ht : t.sane) (hbits : t.mw + 1 < bitLen m) (lo : pow2 (1 - (t.bias : Int)) ≤ m * pow2 e)
    (hi : ((m : Rat) + 1) * pow2 e ≤ pow2 t.bias) :
    ∃ m' e', t.val (t.round rm s m e true).bits = .fin s m' e' ∧ m' ≠ 0 ∧
      ∀ σ : Rat, 0 < σ → σ < 1 → roundsTo rm s ((m + σ) * pow2 e) (m' * pow2 e') (pow2 e') (decide (m' % 2 = 1)) := by
  have pos := pow2_pos e
  have hm : m ≠ 0 := by
    rintro rfl
    exact absurd hbits (by simp [bitLen])
  have each (σ : Rat) (h0 : 0 < σ) (h1 : σ < 1) := t.round_spec ht (rm := rm) (s := s) (sticky := true) (e := e) hm h0.le h1 (by simp [h0])
    (fun _ => hbits) rfl (by nlinarith) (by nlinarith)
  obtain ⟨m', e', val, nonzero, -, -⟩ := each (1 / 2) (by norm_num) (by norm_num)
  refine ⟨m', e', val, nonzero, fun σ h0 h1 => ?_⟩
  obtain ⟨m2, e2, val2, -, rounds, -⟩ := each σ h0 h1
  rw [val] at val2
  obtain ⟨-, rfl, rfl⟩ := FVal.fin.inj val2
  exact rounds

/-- What bounds every magnitude strictly between m and m + 1 units bounds the ends. -/
theorem le_low_of_forall {c a p : Rat} (hp : 0 < p) (h : ∀ σ : Rat, 0 < σ → σ < 1 → c ≤ (a + σ) * p) : c ≤ a * p := by
  refine le_of_forall_pos_le_add fun ε hε => ?_
  by_cases big : p ≤ ε
  · have := h (1 / 2) (by norm_num) (by norm_num)
    nlinarith
  · have := h (ε / p) (by positivity) ((div_lt_one hp).mpr (not_le.mp big))
    rwa [add_mul, div_mul_cancel₀ _ hp.ne'] at this

theorem high_le_of_forall {c a p : Rat} (hp : 0 < p) (h : ∀ σ : Rat, 0 < σ → σ < 1 → (a + σ) * p ≤ c) : (a + 1) * p ≤ c := by
  refine le_of_forall_pos_le_add fun ε hε => ?_
  by_cases big : p ≤ ε
  · have := h (1 / 2) (by norm_num) (by norm_num)
    nlinarith
  · have frac : 0 < ε / p := by positivity
    have := h (1 - ε / p) (by rw [sub_pos]; exact (div_lt_one hp).mpr (not_le.mp big)) (by linarith)
    have cancel : ε / p * p = ε := div_mul_cancel₀ _ hp.ne'
    nlinarith

/-- What rounding a square root by RM means of its square (R267). -/
def rootRounded (rm : Nat) (a r u : Rat) : Prop :=
  (rm = 0 → (r - u / 2) * (r - u / 2) ≤ a ∧ a ≤ (r + u / 2) * (r + u / 2)) ∧
  (rm = 2 → (r - u) * (r - u) < a ∧ a ≤ r * r) ∧ (rm = 1 ∨ rm = 3 → r * r ≤ a ∧ a < (r + u) * (r + u))

theorem rootRounded_exact {v r u : Rat} {odd : Bool} (hu : 0 < u) (hr : u ≤ r) (hv : 0 ≤ v) (h : roundsTo rm false v r u odd) :
    rootRounded rm (v * v) r u := by
  obtain ⟨nearest, down, up⟩ := h
  refine ⟨fun h => ?_, fun h => ?_, fun h => ?_⟩
  · obtain ⟨a, b, -⟩ := nearest h
    constructor <;> nlinarith
  · obtain ⟨a, b⟩ := up (.inl ⟨h, rfl⟩)
    constructor <;> nlinarith
  · obtain ⟨a, b⟩ := down (h.imp id fun h => .inr ⟨h, rfl⟩)
    constructor <;> nlinarith

theorem rootRounded_between {l p a r u : Rat} {odd : Bool} (hp : 0 < p) (hl : 0 ≤ l) (hu : 0 < u) (hr : u ≤ r)
    (lo : l * p * (l * p) < a) (hi : a < (l + 1) * p * ((l + 1) * p))
    (h : ∀ σ : Rat, 0 < σ → σ < 1 → roundsTo rm false ((l + σ) * p) r u odd) : rootRounded rm a r u := by
  have low : 0 ≤ l * p := by positivity
  have high : 0 ≤ (l + 1) * p := by positivity
  refine ⟨fun hrm => ?_, fun hrm => ?_, fun hrm => ?_⟩
  · have below : r - u / 2 ≤ l * p := le_low_of_forall hp fun σ h0 h1 => by linarith [((h σ h0 h1).nearest hrm).1]
    have above : (l + 1) * p ≤ r + u / 2 := high_le_of_forall hp fun σ h0 h1 => by linarith [((h σ h0 h1).nearest hrm).2.1]
    constructor <;> nlinarith
  · have below : r - u ≤ l * p := le_low_of_forall hp fun σ h0 h1 => by linarith [((h σ h0 h1).up (.inl ⟨hrm, rfl⟩)).2]
    have above : (l + 1) * p ≤ r := high_le_of_forall hp fun σ h0 h1 => ((h σ h0 h1).up (.inl ⟨hrm, rfl⟩)).1
    constructor <;> nlinarith
  · have dir : rm = 1 ∨ rm = 2 ∧ false = true ∨ rm = 3 ∧ false = false := hrm.imp id fun h => .inr ⟨h, rfl⟩
    have below : r ≤ l * p := le_low_of_forall hp fun σ h0 h1 => ((h σ h0 h1).down dir).1
    have above : (l + 1) * p ≤ r + u := high_le_of_forall hp fun σ h0 h1 => ((h σ h0 h1).down dir).2.le
    constructor <;> nlinarith
end
end Sys2Proof.Machine
end

