-- ==== Sys2Proof/Proofs/FpOperations.lean ====
section
/-! PROOF. The floating-point operations over a format: roots, conversions, NaN, infinity, minimum and maximum (R267). -/

namespace Sys2Proof.Machine

/-! ## The root of a number of the format -/

section
variable {t : Fmt} {rm x y : Nat} {s s' : Bool} {m m' : Nat} {e e' : Int}

/-- The exponents of a format. -/
theorem Fmt.val_fin_exp (ht : t.sane) (h : t.val x = .fin s m e) : 1 - (t.bias : Int) - t.mw ≤ e ∧ e ≤ t.bias - (t.mw : Int) := by
  obtain ⟨emax, bias⟩ := ht.emax
  have field : x / 2 ^ t.mw % 2 ^ t.ew ≤ t.emax := by
    have := Nat.mod_lt (x / 2 ^ t.mw) (Nat.two_pow_pos t.ew)
    rw [Fmt.emax]
    omega
  unfold Fmt.val at h
  dsimp only at h
  generalize x / 2 ^ t.mw % 2 ^ t.ew = ex at *
  split at h
  · split at h <;> exact absurd h (by simp)
  · split at h <;> simp only [FVal.fin.injEq] at h <;> omega

/-- A number with so many zeros behind it that its root has the bits of the format and three more. -/
theorem root_bits {mw n r p : Nat} (hp : p ≤ 1) (hm : m ≠ 0) (hlt : m < 2 ^ (mw + 1)) (hn : n = m * 2 ^ (2 * (mw + 3) + p))
    (hr : r = isqrtFrom (2 * mw + 8) 0 n) : r * r ≤ n ∧ n < (r + 1) * (r + 1) ∧ 2 ^ (mw + 3) ≤ r ∧ r + 1 ≤ 2 ^ (2 * mw + 8) := by
  have square (k : Nat) : 2 ^ k * 2 ^ k = 2 ^ (2 * k) := by rw [← Nat.pow_add]; congr 1; omega
  have upper : n < 2 ^ (2 * mw + 8) * 2 ^ (2 * mw + 8) := by
    calc n < 2 ^ (mw + 1) * 2 ^ (2 * (mw + 3) + p) := by rw [hn]; exact Nat.mul_lt_mul_of_pos_right hlt (Nat.two_pow_pos _)
      _ = 2 ^ (mw + 1 + (2 * (mw + 3) + p)) := (Nat.pow_add ..).symm
      _ ≤ 2 ^ (2 * (2 * mw + 8)) := Nat.pow_le_pow_right (by decide) (by omega)
      _ = _ := (square _).symm
  have lower : 2 ^ (mw + 3) * 2 ^ (mw + 3) ≤ n := by
    rw [square, hn]
    exact (Nat.pow_le_pow_right (by decide) (by omega)).trans (Nat.le_mul_of_pos_left _ (Nat.pos_of_ne_zero hm))
  obtain ⟨lo, hi⟩ := isqrtFrom_spec n (2 * mw + 8) 0 (Nat.zero_le _) (by rw [Nat.zero_add]; exact upper)
  rw [← hr] at lo hi
  refine ⟨lo, hi, Nat.lt_succ_iff.mp ?_, ?_⟩
  · exact Nat.mul_self_lt_mul_self_iff.mp (lower.trans_lt hi)
  · exact Nat.mul_self_lt_mul_self_iff.mp (lo.trans_lt upper)

/-- The root of a positive number is rounded by RM. -/
theorem Fmt.sqrt_fin (ht : t.sane) (wide : t.mw + 10 ≤ t.bias) (hx : t.val x = .fin false m e) (hm : m ≠ 0) :
    ∃ k f, t.val (t.sqrt rm x).bits = .fin false k f ∧ rootRounded rm (finVal false m e) (finVal false k f) (pow2 f) := by
  obtain ⟨elo, ehi⟩ := t.val_fin_exp ht hx
  obtain ⟨p, hp⟩ : ∃ p, p = if e % 2 = 0 then 0 else 1 := ⟨_, rfl⟩
  have parity : p ≤ 1 ∧ (e - p) % 2 = 0 := by
    rw [hp]
    split <;> omega
  obtain ⟨n, hn⟩ : ∃ n, n = m * 2 ^ (2 * (t.mw + 3) + p) := ⟨_, rfl⟩
  obtain ⟨r, hr⟩ : ∃ r, r = isqrtFrom (2 * t.mw + 8) 0 n := ⟨_, rfl⟩
  obtain ⟨h, hh⟩ : ∃ h, h = (e - ((2 * (t.mw + 3) + p : Nat) : Int)) / 2 := ⟨_, rfl⟩
  obtain ⟨lo, hi, bits, below⟩ := root_bits parity.1 hm (t.val_fin_lt hx) hn hr
  have form : t.sqrt rm x = t.round rm false r h (decide (r * r ≠ n)) := by
    rw [Fmt.sqrt, hx]
    dsimp only
    rw [if_neg hm, if_neg Bool.false_ne_true, ← hp, ← hn, ← hr, ← hh]
  have half : e = h + h + ((2 * (t.mw + 3) + p : Nat) : Int) := by omega
  have pos := pow2_pos h
  have value : finVal false m e = n * (pow2 h * pow2 h) := by
    rw [finVal_eq, half, pow2_add, pow2_add, pow2_nat, hn, withSign, if_neg Bool.false_ne_true]
    push_cast
    ring
  have floor : pow2 (1 - (t.bias : Int)) ≤ r * pow2 h := by
    have : ((2 ^ (t.mw + 3) : Nat) : Rat) ≤ r := by exact_mod_cast bits
    calc pow2 (1 - (t.bias : Int)) ≤ pow2 ((t.mw + 3 : Nat) + h) := pow2_le (by omega)
      _ = ((2 ^ (t.mw + 3) : Nat) : Rat) * pow2 h := by rw [pow2_add, pow2_nat]
      _ ≤ r * pow2 h := mul_le_mul_of_nonneg_right this pos.le
  have top : ((r : Rat) + 1) * pow2 h ≤ pow2 t.bias := by
    have : (r : Rat) + 1 ≤ ((2 ^ (2 * t.mw + 8) : Nat) : Rat) := by exact_mod_cast below
    calc ((r : Rat) + 1) * pow2 h ≤ ((2 ^ (2 * t.mw + 8) : Nat) : Rat) * pow2 h := mul_le_mul_of_nonneg_right this pos.le
      _ = pow2 ((2 * t.mw + 8 : Nat) + h) := by rw [pow2_add, pow2_nat]
      _ ≤ pow2 t.bias := pow2_le (by omega)
  have unit_le {k : Nat} {f : Int} (hk : k ≠ 0) : pow2 f ≤ finVal false k f := by
    have : (1 : Rat) ≤ k := by exact_mod_cast Nat.pos_of_ne_zero hk
    rw [finVal_eq, withSign, if_neg Bool.false_ne_true]
    nlinarith [pow2_pos f]
  have nonzero : r ≠ 0 := by
    have := Nat.two_pow_pos (t.mw + 3)
    omega
  by_cases square : r * r = n
  · rw [show decide (r * r ≠ n) = false from decide_eq_false (by simpa using square)] at form
    obtain ⟨k, f, val, hk, rounds, -⟩ := t.round_spec ht (rm := rm) (s := false) (sticky := false) (e := h) (σ := 0) nonzero (le_refl _)
      (by norm_num) (by simp) (by simp) rfl (by rw [add_zero]; exact floor) (by nlinarith)
    refine ⟨k, f, by rw [form]; exact val, ?_⟩
    have same : finVal false m e = ((r + 0 : Rat) * pow2 h) * ((r + 0) * pow2 h) := by
      rw [value, ← square]
      push_cast
      ring
    rw [same]
    refine rootRounded_exact (odd := decide (k % 2 = 1)) (pow2_pos f) (unit_le hk) (by positivity) ?_
    rw [finVal_eq]
    exact rounds
  · rw [show decide (r * r ≠ n) = true from decide_eq_true (by simpa using square)] at form
    obtain ⟨k, f, val, hk, rounds⟩ := t.round_sticky ht (rm := rm) (s := false)
      (bitLen_of_le ((Nat.pow_le_pow_right (by decide) (by omega)).trans bits)) floor top
    refine ⟨k, f, by rw [form]; exact val, ?_⟩
    have strict : ((r * r : Nat) : Rat) < n := by exact_mod_cast lt_of_le_of_ne lo square
    have next : (n : Rat) < (((r + 1) * (r + 1) : Nat) : Rat) := by exact_mod_cast hi
    push_cast at strict next
    rw [value]
    have pos2 : 0 < pow2 h * pow2 h := mul_pos pos pos
    refine rootRounded_between (l := r) (p := pow2 h) (odd := decide (k % 2 = 1)) pos (by positivity) (pow2_pos f) (unit_le hk) ?_ ?_ ?_
    · calc (r : Rat) * pow2 h * (r * pow2 h) = r * r * (pow2 h * pow2 h) := by ring
        _ < n * (pow2 h * pow2 h) := mul_lt_mul_of_pos_right strict pos2
    · calc (n : Rat) * (pow2 h * pow2 h) < (r + 1) * (r + 1) * (pow2 h * pow2 h) := mul_lt_mul_of_pos_right next pos2
        _ = ((r : Rat) + 1) * pow2 h * ((r + 1) * pow2 h) := by ring
    · rw [finVal_eq]
      exact rounds

theorem Fmt.sqrt_negative (hx : t.val x = .fin true m e) (hm : m ≠ 0) : t.sqrt rm x = t.invalid := by
  rw [Fmt.sqrt, hx]
  exact (if_neg hm).trans (if_pos rfl)

/-! ## Conversions -/

theorem Fmt.convert_fin {d : Fmt} (hd : d.sane) (hx : t.val x = .fin s m e) : d.roundedTo rm (finVal s m e) (t.convert d rm x) := by
  rw [Fmt.convert, hx]
  exact d.round_exact hd s m e (finVal_eq s m e)

theorem Fmt.ofInt32_rounded (ht : t.sane) (w : Word) : t.roundedTo rm w.toInt (t.ofInt32 rm w) := by
  refine t.round_exact ht _ _ _ ?_
  rw [show pow2 0 = 1 by rw [pow2_eq]; norm_num, mul_one]
  exact (withSign_natAbs w.toInt).symm

theorem nearBy_self {v u : Rat} {odd : Bool} (hu : 0 < u) : nearBy rm v v u odd := by
  refine ⟨fun _ => ⟨by linarith, by linarith, fun tie => ?_⟩, fun _ => ⟨fun _ => ⟨le_refl _, by linarith⟩, fun _ => ⟨le_refl _, by linarith⟩⟩,
    fun _ => ⟨le_refl _, by linarith⟩, fun _ => ⟨le_refl _, by linarith⟩⟩
  rcases tie with tie | tie <;> linarith

theorem signedNat_cast (s : Bool) (n : Nat) : ((signedNat s n : Int) : Rat) = withSign s n := by
  cases s <;> simp [signedNat, withSign]

theorem signedNat_odd (s : Bool) (n : Nat) : decide (signedNat s n % 2 ≠ 0) = decide (n % 2 = 1) := by
  cases s <;> simp only [signedNat, Bool.false_eq_true, if_false, if_true, decide_eq_decide] <;> omega

/-- The integer nearest to a number by RM, and whether it differs. -/
theorem roundInt_near (rm : Nat) (s : Bool) (m : Nat) (e : Int) : ∃ z : Int,
    nearBy rm (finVal s m e) z 1 (decide (z % 2 ≠ 0)) ∧ roundInt rm s m e = (z, !decide ((z : Rat) = finVal s m e)) := by
  by_cases he : 0 ≤ e
  · have value : finVal s m e = (signedNat s (m * 2 ^ e.toNat) : Int) := by
      rw [finVal_scaled he, show pow2 0 = 1 by rw [pow2_eq]; norm_num, mul_one, Int.sub_zero]
    refine ⟨signedNat s (m * 2 ^ e.toNat), ?_, ?_⟩
    · rw [value]
      exact nearBy_self one_pos
    · rw [roundInt, if_pos he, value, decide_eq_true rfl]
      rfl
  · obtain ⟨k, hk⟩ : ∃ k, k = (-e).toNat := ⟨_, rfl⟩
    obtain ⟨n, hn⟩ : ∃ n, n = rounded1 rm s (m / 2 ^ k) (m % 2 ^ k) k false := ⟨_, rfl⟩
    have form : roundInt rm s m e = (signedNat s n, decide (m % 2 ^ k ≠ 0)) := by rw [roundInt, if_neg he, hn, hk]; rfl
    have value : (m : Rat) * pow2 e = (m / 2 ^ k : Nat) + cutOff (m % 2 ^ k) k 0 := by
      have := above_below (σ := 0) 0 e m (fun h => absurd h he)
      rw [add_zero, show pow2 0 = 1 by rw [pow2_eq]; norm_num, mul_one, above, below, if_neg he, if_neg he, if_neg he, Int.zero_sub, ← hk] at this
      exact this
    obtain ⟨rounds, same⟩ := rounded1_rounds (rm := rm) (s := s) (m1 := m / 2 ^ k) (sticky := false) (le_refl (0 : Rat)) (by norm_num)
      (Nat.mod_lt m (Nat.two_pow_pos k)) (by simp) (by omega : k ≠ 0)
    rw [← hn, ← value] at rounds
    rw [← hn, ← value] at same
    refine ⟨signedNat s n, ?_, ?_⟩
    · rw [signedNat_odd, signedNat_cast, finVal_eq]
      by_cases zero : m = 0
      · subst zero
        have : n = 0 := by rw [hn, Nat.zero_mod, Nat.zero_div]; exact rounded1_exact
        rw [this, Nat.cast_zero, zero_mul]
        exact nearBy_self one_pos
      · have : (0 : Rat) < m := by exact_mod_cast Nat.pos_of_ne_zero zero
        exact nearBy_of_roundsTo (mul_pos this (pow2_pos e)) rounds
    · rw [form, signedNat_cast, finVal_eq]
      simp only [withSign_inj, same, Bool.false_eq_true, or_false]
      simp

theorem Fmt.toInt32_fin (hx : t.val x = .fin s m e) : ∃ z : Int, nearBy rm (finVal s m e) z 1 (decide (z % 2 ≠ 0)) ∧
    t.toInt32 rm x = if 2147483647 < z then (0x7FFFFFFF, 16) else if z < -2147483648 then (0x80000000, 16)
      else (BitVec.ofInt 32 z, if (z : Rat) = finVal s m e then 0 else 1) := by
  obtain ⟨z, near, form⟩ := roundInt_near rm s m e
  refine ⟨z, near, ?_⟩
  rw [Fmt.toInt32, hx]
  dsimp only
  rw [form]
  by_cases same : (z : Rat) = finVal s m e
  · rw [decide_eq_true same, if_pos same]
    rfl
  · rw [decide_eq_false same, if_neg same]
    rfl

/-! ## NaN operands -/

/-- Every bit pattern is made of its fields. -/
theorem Fmt.fields (t : Fmt) (h : x < 2 ^ (t.ew + t.mw + 1)) : ∃ s ex frac, ex < 2 ^ t.ew ∧ frac < 2 ^ t.mw ∧
    x = t.sign s + (ex * 2 ^ t.mw + frac) := by
  have half : x / 2 ^ (t.ew + t.mw) < 2 := by
    rw [Nat.div_lt_iff_lt_mul (Nat.two_pow_pos _), Nat.mul_comm, ← Nat.pow_succ]
    exact h
  obtain ⟨low, hl⟩ : ∃ low, low = x % 2 ^ (t.ew + t.mw) := ⟨_, rfl⟩
  have bound : low < 2 ^ t.ew * 2 ^ t.mw := by
    rw [hl, ← Nat.pow_add]
    exact Nat.mod_lt _ (Nat.two_pow_pos _)
  refine ⟨decide (x / 2 ^ (t.ew + t.mw) = 1), low / 2 ^ t.mw, low % 2 ^ t.mw, (Nat.div_lt_iff_lt_mul (Nat.two_pow_pos _)).mpr bound,
    Nat.mod_lt _ (Nat.two_pow_pos _), ?_⟩
  have parts := Nat.div_add_mod' x (2 ^ (t.ew + t.mw))
  rw [← hl] at parts
  rw [Nat.div_add_mod' low, Fmt.sign]
  generalize x / 2 ^ (t.ew + t.mw) = b at *
  interval_cases b <;> simp at parts ⊢ <;> omega

/-- The pattern of a NaN, and that pattern quieted. -/
def Fmt.isNan (t : Fmt) (v : Nat) : Prop := t.emax * 2 ^ t.mw < v % 2 ^ (t.ew + t.mw)
def Fmt.quieted (t : Fmt) (v : Nat) : Nat := if v / 2 ^ (t.mw - 1) % 2 = 1 then v else v + 2 ^ (t.mw - 1)

theorem Fmt.low_fields (t : Fmt) (s : Bool) {ex frac : Nat} (hex : ex < 2 ^ t.ew) (hf : frac < 2 ^ t.mw) :
    (t.sign s + (ex * 2 ^ t.mw + frac)) % 2 ^ (t.ew + t.mw) = ex * 2 ^ t.mw + frac := by
  have lt : ex * 2 ^ t.mw + frac < 2 ^ (t.ew + t.mw) := by
    rw [Nat.pow_add]
    calc ex * 2 ^ t.mw + frac < (ex + 1) * 2 ^ t.mw := by rw [Nat.succ_mul]; omega
      _ ≤ 2 ^ t.ew * 2 ^ t.mw := Nat.mul_le_mul_right _ hex
  cases s
  · rw [Fmt.sign, if_neg Bool.false_ne_true, Nat.zero_add, Nat.mod_eq_of_lt lt]
  · rw [Fmt.sign, if_pos rfl, Nat.add_mod_left, Nat.mod_eq_of_lt lt]

/-- A NaN has the largest exponent and a fraction. -/
theorem Fmt.isNan_iff (t : Fmt) (s : Bool) {ex frac : Nat} (hex : ex < 2 ^ t.ew) (hf : frac < 2 ^ t.mw) :
    t.isNan (t.sign s + (ex * 2 ^ t.mw + frac)) ↔ ex = t.emax ∧ frac ≠ 0 := by
  have le : ex ≤ t.emax := by
    rw [Fmt.emax]
    omega
  rw [Fmt.isNan, t.low_fields s hex hf]
  constructor
  · intro h
    rcases Nat.lt_or_ge ex t.emax with lt | ge
    · have : (ex + 1) * 2 ^ t.mw ≤ t.emax * 2 ^ t.mw := Nat.mul_le_mul_right _ lt
      rw [Nat.succ_mul] at this
      omega
    · obtain rfl : ex = t.emax := by omega
      exact ⟨rfl, by omega⟩
  · rintro ⟨rfl, h⟩
    omega

theorem Fmt.val_nan (ht : t.sane) (lt : x < 2 ^ (t.ew + t.mw + 1)) (h : t.isNan x) :
    ∃ s f, t.val x = .nan s f ∧ t.quiet s f = t.quieted x := by
  obtain ⟨s, ex, frac, hex, hf, rfl⟩ := t.fields lt
  obtain ⟨rfl, nonzero⟩ := (t.isNan_iff s hex hf).mp h
  refine ⟨s, frac, by rw [t.val_fields s hex hf, if_pos rfl, if_neg nonzero], ?_⟩
  obtain ⟨k, hk⟩ : ∃ k, t.mw = k + 1 := ⟨t.mw - 1, by have := ht.mw; omega⟩
  obtain ⟨c, hc⟩ : ∃ c, t.sign s + t.emax * 2 ^ t.mw = c * 2 * 2 ^ k := by
    refine ⟨(if s then 2 ^ t.ew else 0) + t.emax, ?_⟩
    rw [Fmt.sign, hk, Nat.pow_succ, Nat.add_mul, Nat.add_mul, ← Nat.add_assoc t.ew, Nat.pow_succ, Nat.pow_add]
    cases s <;> simp <;> ring
  have bit : (t.sign s + (t.emax * 2 ^ t.mw + frac)) / 2 ^ k % 2 = frac / 2 ^ k % 2 := by
    rw [← Nat.add_assoc, hc, Nat.add_comm, Nat.add_mul_div_right _ _ (Nat.two_pow_pos k), Nat.add_mul_mod_self_right]
  rw [Fmt.quieted, Fmt.quiet, hk, Nat.add_sub_cancel, ← hk, bit]
  split <;> omega

theorem Fmt.val_not_nan (lt : x < 2 ^ (t.ew + t.mw + 1)) (h : ¬t.isNan x) (s : Bool) (f : Nat) : t.val x ≠ .nan s f := by
  obtain ⟨s', ex, frac, hex, hf, rfl⟩ := t.fields lt
  rw [t.isNan_iff s' hex hf] at h
  rw [t.val_fields s' hex hf]
  split
  · split
    · exact FVal.noConfusion
    · next a b => exact absurd ⟨a, b⟩ h
  · split <;> exact FVal.noConfusion

/-- The operations whose NaN results are those of `nan2`. -/
theorem Fmt.nan2_ops {r : FRes} (h : t.nan2 (t.val x) (t.val y) = some r) :
    ∀ f ∈ [t.add rm, t.sub rm, t.mul rm, t.div rm, t.minmax false, t.minmax true], f x y = r := by
  simp only [List.forall_mem_cons, List.not_mem_nil, false_implies, implies_true, and_true]
  simp only [Fmt.add, Fmt.sub, Fmt.mul, Fmt.div, Fmt.minmax, h, and_self]

theorem Fmt.nan2_first {f : Nat} (h : t.val x = .nan s f) : ∃ fl, t.nan2 (t.val x) (t.val y) = some ⟨t.quiet s f, fl⟩ := by
  rw [h]
  exact ⟨_, rfl⟩

theorem Fmt.nan2_second {f : Nat} (h : ∀ s f, t.val x ≠ .nan s f) (h' : t.val y = .nan s f) :
    ∃ fl, t.nan2 (t.val x) (t.val y) = some ⟨t.quiet s f, fl⟩ := by
  rw [h']
  cases e : t.val x with
  | nan s f => exact absurd e (h s f)
  | inf s => exact ⟨_, rfl⟩
  | fin s m e => exact ⟨_, rfl⟩

theorem Fmt.ops_nan (ht : t.sane) (hx : x < 2 ^ (t.ew + t.mw + 1)) (hy : y < 2 ^ (t.ew + t.mw + 1)) :
    ∀ f ∈ [t.add rm, t.sub rm, t.mul rm, t.div rm, t.minmax false, t.minmax true],
      (t.isNan x → (f x y).bits = t.quieted x) ∧ (¬t.isNan x → t.isNan y → (f x y).bits = t.quieted y) := by
  intro f hf
  refine ⟨fun h => ?_, fun h h' => ?_⟩
  · obtain ⟨s, fr, val, quiet⟩ := t.val_nan ht hx h
    obtain ⟨fl, first⟩ := t.nan2_first (y := y) val
    rw [t.nan2_ops first f hf, quiet]
  · obtain ⟨s, fr, val, quiet⟩ := t.val_nan ht hy h'
    obtain ⟨fl, second⟩ := t.nan2_second (t.val_not_nan hx h) val
    rw [t.nan2_ops second f hf, quiet]

theorem Fmt.sqrt_nan (ht : t.sane) (hx : x < 2 ^ (t.ew + t.mw + 1)) (h : t.isNan x) :
    (t.sqrt rm x).bits = t.quieted x ∧ t.toInt32 rm x = (0, 16) := by
  obtain ⟨s, f, val, quiet⟩ := t.val_nan ht hx h
  rw [Fmt.sqrt, Fmt.toInt32, val]
  exact ⟨quiet, rfl⟩

/-! ## Infinities -/

theorem Fmt.ops_inf (hx : t.val x = .inf false) : t.toInt32 rm x = (0x7FFFFFFF, 16) ∧ (t.val y = .inf true → t.add rm x y = t.invalid) ∧
    (t.val y = .inf false → t.sub rm x y = t.invalid ∧ t.div rm x y = t.invalid) := by
  refine ⟨?_, fun hy => ?_, fun hy => ⟨?_, ?_⟩⟩
  · rw [Fmt.toInt32, hx]
    rfl
  · rw [Fmt.add, hx, hy]
    rfl
  · rw [Fmt.sub, hx, hy]
    rfl
  · rw [Fmt.div, hx, hy]
    rfl

/-- A pattern of all zeros below the sign is a zero. -/
theorem Fmt.val_zero (ht : t.sane) (lt : y < 2 ^ (t.ew + t.mw + 1)) (h : y % 2 ^ (t.ew + t.mw) = 0) : ∃ s e, t.val y = .fin s 0 e := by
  obtain ⟨s, ex, frac, hex, hf, rfl⟩ := t.fields lt
  rw [t.low_fields s hex hf] at h
  have pos := Nat.two_pow_pos t.mw
  obtain ⟨emax, -⟩ := ht.emax
  obtain rfl : frac = 0 := by omega
  obtain rfl : ex = 0 := by
    by_contra c
    have := Nat.mul_pos (Nat.pos_of_ne_zero c) pos
    omega
  exact ⟨s, _, by rw [t.val_fields s hex hf, if_neg (by omega), if_pos rfl]⟩

theorem Fmt.mul_inf_zero (ht : t.sane) (hx : t.val x = .inf s) (lt : y < 2 ^ (t.ew + t.mw + 1)) (h : y % 2 ^ (t.ew + t.mw) = 0) :
    t.mul rm x y = t.invalid := by
  obtain ⟨s', e, val⟩ := t.val_zero ht lt h
  rw [Fmt.mul, hx, val]
  rfl

theorem Fmt.ops_negative_inf (hx : t.val x = .inf true) : t.toInt32 rm x = (0x80000000, 16) ∧ t.sqrt rm x = t.invalid := by
  rw [Fmt.toInt32, Fmt.sqrt, hx]
  exact ⟨rfl, rfl⟩

/-! ## Minimum and maximum -/

theorem FVal.cmp_swap {u v : FVal} (h : u.cmp v = .lt) : v.cmp u = .gt := by
  cases u with
  | nan s f => cases v <;> simp [FVal.cmp] at h ⊢ <;> exact h
  | inf s =>
    cases v with
    | nan s' f => cases s <;> simp_all [FVal.cmp]
    | inf s' => cases s <;> cases s' <;> simp_all [FVal.cmp]
    | fin s' m e => cases s <;> simp_all [FVal.cmp]
  | fin s m e =>
    cases v with
    | nan s' f => simp [FVal.cmp] at h
    | inf s' => cases s' <;> simp_all [FVal.cmp]
    | fin s' m' e' =>
      simp only [FVal.cmp] at h ⊢
      rw [Int.min_comm e' e]
      rw [Int.compare_eq_lt] at h
      rwa [Int.compare_eq_gt]

/-- Ordered operands: neither is NaN. -/
theorem Fmt.relation_lt (h : t.relation x y = some .lt) : t.nan2 (t.val x) (t.val y) = none ∧ t.nan2 (t.val y) (t.val x) = none ∧
    (t.val x).cmp (t.val y) = .lt := by
  unfold Fmt.relation at h
  generalize t.val x = u, t.val y = v at *
  cases u <;> cases v <;> simp_all [Fmt.nan2]

theorem Fmt.minmax_lt (h : t.relation x y = some .lt) : t.minmax false x y = ⟨x, 0⟩ ∧ t.minmax false y x = ⟨x, 0⟩ ∧
    t.minmax true x y = ⟨y, 0⟩ ∧ t.minmax true y x = ⟨y, 0⟩ := by
  obtain ⟨numbers, numbers', lt⟩ := t.relation_lt h
  simp only [Fmt.minmax, numbers, numbers', lt, FVal.cmp_swap lt]
  exact ⟨rfl, rfl, rfl, rfl⟩
end
end Sys2Proof.Machine
end

