-- ==== Sys2Proof/Proofs/FpArithmetic.lean ====
section
/-! PROOF. The statement of the floating-point results for the two formats. -/

namespace Sys2Proof.Machine

theorem fmtOf_sane (dbl : Bool) : (fmtOf dbl).sane ∧ (fmtOf dbl).mw + 10 ≤ (fmtOf dbl).bias := by
  cases dbl <;> exact ⟨⟨by decide, by decide⟩, by decide⟩

theorem fmtOf_invalid (dbl : Bool) : (fmtOf dbl).invalid = ⟨if dbl then 0x7FF8000000000000 else 0x7FC00000, 16⟩ := by
  cases dbl <;> rfl

theorem fmtOf_bias (dbl : Bool) : ((fmtOf dbl).bias : Int) = if dbl then 1023 else 127 := by
  cases dbl <;> rfl

/-- −0 lies below +0. -/
theorem fmtOf_zeros (dbl : Bool) (z : Nat) (hz : z = 2 ^ ((if dbl then 64 else 32) - 1)) :
    (fmtOf dbl).minmax false z 0 = ⟨z, 0⟩ ∧ (fmtOf dbl).minmax false 0 z = ⟨z, 0⟩ ∧
    (fmtOf dbl).minmax true z 0 = ⟨0, 0⟩ ∧ (fmtOf dbl).minmax true 0 z = ⟨0, 0⟩ := by
  subst hz
  cases dbl <;> decide

/-- The value rounded in the words of the statement. -/
theorem roundedTo_fmtOf {d : Bool} {rm : Nat} {v : Rat} {r : FRes} (h : (fmtOf d).roundedTo rm v r)
    (low : pow2 (1 - (if d then 1023 else 127)) ≤ v ∨ pow2 (1 - (if d then 1023 else 127)) ≤ -v)
    (high : v < pow2 (if d then 1023 else 127) ∧ -v < pow2 (if d then 1023 else 127)) :
    ∃ s m e, (fmtOf d).val r.bits = .fin s m e ∧ nearBy rm v (finVal s m e) (pow2 e) (decide (m % 2 = 1)) ∧
      r.flags = if finVal s m e = v then 0 else 1 :=
  h (by rw [Fmt.inNormal, fmtOf_bias]; exact ⟨low, high⟩)

/-- Settles O16: each operation is `round` on the exact result, and `round` gives the number next to it by RM. -/
theorem floatingPointResults : Obligations.FloatingPointResults := by
  unfold Obligations.FloatingPointResults
  intro dbl rm x y w hrm t mw size bias big nan quiet invalid pow num near normal rounded hx hy
  obtain ⟨sane, wide⟩ := fmtOf_sane dbl
  obtain ⟨sane', -⟩ := fmtOf_sane !dbl
  have round_ (d : Bool) {v : Rat} {r : FRes} (h : (fmtOf d).roundedTo rm v r) : rounded d v r := fun ⟨low, high⟩ => roundedTo_fmtOf h low high
  have top : size = t.ew + t.mw + 1 := by cases dbl <;> rfl
  have low : size - 1 = t.ew + t.mw := by cases dbl <;> rfl
  have isNan (v : Nat) : nan v ↔ t.isNan v := by cases dbl <;> rfl
  have quieted (v : Nat) : quiet v = t.quieted v := by cases dbl <;> rfl
  have inv : t.invalid = invalid := fmtOf_invalid dbl
  rw [top] at hx hy
  refine ⟨fun s m e s' m' e' valx valy => ⟨round_ _ (t.add_fin valx valy sane), round_ _ (t.sub_fin valx valy sane),
      round_ _ (t.mul_fin valx valy sane), fun h => round_ _ (t.div_fin valx valy sane h), fun h h' => ?_, fun h h' => ?_, fun h h' => ?_,
      fun h h' => ?_, round_ _ (t.convert_fin sane' valx), t.toInt32_fin valx⟩,
    round_ _ (t.ofInt32_rounded sane w), ?_, ?_, fun h => ⟨(t.ops_inf (y := y) h).1, fun h' => ?_, fun h' => ?_, fun h' => ?_⟩, fun h => ?_,
    fun h => t.minmax_lt h, fmtOf_zeros dbl _ rfl⟩
  · rw [t.div_zero valx valy h, if_neg h']
  · rw [t.div_zero valx valy h', if_pos h, inv]
  · rw [h] at valx
    rw [t.sqrt_negative valx h', inv]
  · rw [h] at valx ⊢
    exact t.sqrt_fin sane wide valx h'
  · simp only [isNan, quieted]
    exact t.ops_nan sane hx hy
  · rw [isNan, quieted]
    exact t.sqrt_nan sane hx
  · rw [← inv]
    exact (t.ops_inf h).2.1 h'
  · rw [← inv]
    exact (t.ops_inf h).2.2 h'
  · rw [low] at h'
    rw [← inv]
    exact t.mul_inf_zero sane h hy h'
  · rw [← inv]
    exact t.ops_negative_inf h
end Sys2Proof.Machine
end

