-- ==== Sys2Proof/Proofs/KeptCore.lean ====
section
/-! PROOF. What every operation keeps: the one canonical form of registers and memory, and, where it is asked for, the time and the
load's state. One rule for each operation of the model; this file holds those of the state's own operations. -/

namespace Sys2Proof.Machine

/-- State `t` comes of `s` by operations that keep the canonical form and, with `q`, the time and the load's state. -/
structure State.kept (q : Bool) (s t : State) : Prop where
  now : q = true → t.now = s.now
  load : q = true → t.load = s.load
  canonical : s.canonical → t.canonical

/-- What an instruction answers comes of `s` in that way, where it answers a next state. -/
def State.keptOut (q : Bool) (s : State) (o : Out) : Prop := ∀ t, o = .next t → s.kept q t

section
variable {q : Bool} {s t u : State} {α β : Type}

theorem State.kept.refl : s.kept q s := ⟨fun _ => rfl, fun _ => rfl, id⟩

theorem State.kept.trans (h : s.kept q t) (h' : t.kept q u) : s.kept q u :=
  ⟨fun e => (h'.now e).trans (h.now e), fun e => (h'.load e).trans (h.load e), fun c => h'.canonical (h.canonical c)⟩

/-- A change beside time, load, registers and memory. -/
theorem State.kept.beside (h : s.kept q t) (e : (u.now, u.load, u.regs, u.mem) = (t.now, t.load, t.regs, t.mem)) : s.kept q u := by
  obtain ⟨now, load, regs, mem⟩ : u.now = t.now ∧ u.load = t.load ∧ u.regs = t.regs ∧ u.mem = t.mem := by simpa using e
  exact ⟨fun c => now.trans (h.now c), fun c => load.trans (h.load c), fun c => State.canonical_congr regs mem (h.canonical c)⟩

/-- A change of the registers or the memory alone. -/
theorem State.kept.stored (h : s.kept q t) (e : (u.now, u.load) = (t.now, t.load)) (c : t.canonical → u.canonical) : s.kept q u := by
  obtain ⟨now, load⟩ : u.now = t.now ∧ u.load = t.load := by simpa using e
  exact ⟨fun d => now.trans (h.now d), fun d => load.trans (h.load d), fun d => c (h.canonical d)⟩

/-- A change of time or load, where neither is asked for. -/
theorem State.kept.moved (h : s.kept false t) (e : (u.regs, u.mem) = (t.regs, t.mem)) : s.kept false u := by
  obtain ⟨regs, mem⟩ : u.regs = t.regs ∧ u.mem = t.mem := by simpa using e
  exact ⟨nofun, nofun, fun c => State.canonical_congr regs mem (h.canonical c)⟩

/-- Memory and upsets are as after manufacture. -/
theorem State.kept.erased (h : s.kept false t) : s.kept false { t with mem := [], upset := [] } :=
  ⟨nofun, nofun, fun c => ⟨(h.canonical c).1, rfl⟩⟩

/-! ## Choices and folds -/

theorem State.kept.ite {c : Prop} {_ : Decidable c} (ht : s.kept q t) (hu : s.kept q u) : s.kept q (if c then t else u) := by
  split
  · exact ht
  · exact hu

theorem State.kept.iteSnd {c : Prop} {_ : Decidable c} {x y : α × State} (hx : s.kept q x.2) (hy : s.kept q y.2) :
    s.kept q (if c then x else y).2 := by
  split
  · exact hx
  · exact hy

theorem State.keptOut.ite {c : Prop} {_ : Decidable c} {o o' : Out} (h : s.keptOut q o) (h' : s.keptOut q o') :
    s.keptOut q (if c then o else o') := by
  split
  · exact h
  · exact h'

theorem State.kept.next (h : s.kept q t) : s.keptOut q (.next t) := fun _ e => Host.Outcome.next.inj e ▸ h

theorem State.kept.foldl {f : State → α → State} {l : List α} (hf : ∀ u a, s.kept q u → s.kept q (f u a)) (h : s.kept q t) :
    s.kept q (l.foldl f t) := foldl_keeps (s.kept q) (fun u a => hf u a) l t h

theorem State.kept.foldlSnd {f : β × State → α → β × State} {l : List α} {x : β × State}
    (hf : ∀ u a, s.kept q u.2 → s.kept q (f u a).2) (h : s.kept q x.2) : s.kept q (l.foldl f x).2 :=
  foldl_keeps (fun u => s.kept q u.2) (fun u a => hf u a) l x h

theorem State.kept.pair {a : α} (h : s.kept q t) : s.kept q (a, t).2 := h

/-- The state of an answer that a case has named. -/
theorem State.kept.of_snd {x : α × State} {a : α} (e : x = (a, u)) (h : s.kept q x.2) : s.kept q u := by
  rw [e] at h
  exact h

theorem State.kept.of_third {x : α × β × State} {a : α} {b : β} (e : x = (a, b, u)) (h : s.kept q x.2.2) : s.kept q u := by
  rw [e] at h
  exact h

/-! ## Registers and memory -/

section
variable {f : Fld} {i j k a v : Nat} {r : RegName} {w : Word} {p : RegName → Bool} {b : Byte} {bs : List Byte} {lo hi : Nat} (h : s.kept q t)
include h

theorem State.kept.setReg : s.kept q (t.setReg r i j w) := h.stored rfl (State.canonical_setReg r i j w)

theorem State.kept.setFld : s.kept q (t.setFld f i j v) := h.setReg

theorem State.kept.hit : s.kept q (t.hit f i j k) := h.beside rfl

theorem State.kept.bumpBy : s.kept q (t.bumpBy f i j k) := h.hit.setFld

theorem State.kept.bump : s.kept q (t.bump f i j) := h.bumpBy

theorem State.kept.count : s.kept q (t.count f i j) := h.setFld

theorem State.kept.resetRegs : s.kept q (t.resetRegs p) := h.stored rfl (State.canonical_resetRegs p)

theorem State.kept.setByte : s.kept q (t.setByte a b) := h.stored rfl (State.canonical_setByte a b)

theorem State.kept.setBytes : s.kept q (t.setBytes a bs) := h.stored rfl (State.canonical_setBytes a bs)

theorem State.kept.clearMem : s.kept q (t.clearMem lo hi) := h.stored rfl (State.canonical_clearMem lo hi)
end

theorem State.kept.raiseFld {f : Fld} {i j k : Nat} (h : s.kept q t) : s.kept q (t.raiseFld f i j k) := .setFld (.beside h rfl)

theorem State.kept.unbump {f : Fld} {i j : Nat} (h : s.kept q t) : s.kept q (t.unbump f i j) := .setFld (.beside h rfl)

theorem State.kept.writeLE {a v n : Nat} (h : s.kept q t) : s.kept q (t.writeLE a v n) := by
  induction n generalizing t a v with
  | zero => exact h
  | succ n ih => exact ih h.setByte

theorem State.kept.setWord {a : Nat} {w : Word} (h : s.kept q t) : s.kept q (t.setWord a w) := h.writeLE
end
end Sys2Proof.Machine
end

