-- ==== Sys2Proof/Proofs/KeptConverters.lean ====
section
/-! PROOF. What the operations of the access rules, the converters and the comparators keep. -/

namespace Sys2Proof.Machine

section
variable {q : Bool} {s t : State}

theorem State.kept.sched {d : Nat} {c : Instr} (h : s.kept q t) : s.kept q (t.sched d c) := .beside h rfl

theorem State.kept.schedMore {d : Nat} {c : Instr} (h : s.kept q t) : s.kept q (t.schedMore d c) := .beside h rfl

theorem State.kept.schedAt {t' : Nat} {c : Instr} (h : s.kept q t) : s.kept q (t.schedAt t' c) := .sched h

theorem State.kept.mark {a : Nat} {port : Bool} (h : s.kept q t) : s.kept q (t.mark a port) := .beside h rfl

theorem State.kept.unsched {c : Instr} (h : s.kept q t) : s.kept q (t.unsched c) := .beside h rfl

theorem State.kept.unschedAll {p : Instr → Bool} (h : s.kept q t) : s.kept q (t.unschedAll p) := .beside h rfl

theorem State.kept.emit {c : Instr} (h : s.kept q t) : s.kept q (t.emit c) := .beside h rfl

theorem State.kept.defer {c : Instr} (h : s.kept q t) : s.kept q (t.defer c) := .ite h (.beside h rfl)

theorem State.kept.evcRaise {n : SrcId} (h : s.kept q t) : s.kept q (t.evcRaise n) := .schedMore h

theorem State.kept.raiseEv {k : Nat} (h : s.kept q t) : s.kept q (t.raiseEv k) := .beside h rfl

theorem State.kept.raiseData {k : Nat} {w : Word} (h : s.kept q t) : s.kept q (t.raiseData k w) := .beside h rfl

theorem State.kept.setLv {k : Nat} {b : Bool} (h : s.kept q t) : s.kept q (t.setLv k b) := .beside h rfl

theorem State.kept.relv {k : Nat} {base b : Bool} (h : s.kept q t) : s.kept q (t.relv k base b) :=
  .ite (.setLv (.beside h rfl)) (.setLv h)

theorem State.kept.draw (h : s.kept q t) : s.kept q t.draw := .beside h rfl

theorem State.kept.setPair {p : Pair} {x : PairSt} (h : s.kept q t) : s.kept q (t.setPair p x) := .beside h rfl

theorem State.kept.answer {w : Word} (h : s.kept q t) : s.kept q (t.answer w) := .beside h rfl

theorem State.kept.access {m : Fin 13} (h : s.kept q t) : s.kept q (t.access m) := .ite (.beside h rfl) (.beside h rfl)

theorem State.kept.opened {m : Fin 13} (h : s.kept q t) : s.kept q (t.opened m) := .answer (.access h)

theorem State.kept.busError (h : s.kept q t) : s.kept q t.busError := .beside h rfl

theorem State.kept.violation {r : Req} {k : Kind} {a : Nat} (h : s.kept q t) : s.kept q (t.violation r k a) :=
  .evcRaise (.setReg (.setReg (.bump h)))

theorem State.kept.foreign (h : s.kept q t) : s.kept q t.foreign := .bump h

theorem State.kept.writeReg {r : RegName} {i j : Nat} {v : Word} (h : s.kept q t) : s.kept q (t.writeReg r i j v) := .setReg h

theorem State.kept.readReg {r : RegName} {i j : Nat} {peek : Bool} (h : s.kept q t) : s.kept q (t.readReg r i j peek).2 :=
  .iteSnd h (.ite (.setReg h) (.beside (.setReg h) rfl))

theorem State.keptOut.regCmd {r : Req} {k : Kind} {rn : RegName} {i j : Nat} {body : State → State} (h : s.kept q t) (hbody : ∀ u, s.kept
  q u → s.kept q (body u)) :
    s.keptOut q (regCmd r k rn i j body t) := .ite (.ite (.next (hbody _ (.opened h))) (.next (.busError (.violation h)))) (.next h)

theorem State.kept.modAdc {x : Conv} {f : AdcSt → AdcSt} (h : s.kept q t) : s.kept q (t.modAdc x f) := .beside h rfl

theorem State.kept.adcStore {x : Conv} {rn : RegName} {j : Nat} {v : Word} (h : s.kept q t) : s.kept q (t.adcStore x rn j v) := by
  unfold State.adcStore
  split
  · exact .ite (.setFld (.writeReg h)) (.modAdc (.setFld (.writeReg h)))
  · exact .writeReg h

theorem State.kept.adcApplyHeld {x : Conv} {q' : Fin 4} (h : s.kept q t) : s.kept q (t.adcApplyHeld x q') := by
  unfold State.adcApplyHeld
  extract_lets +onlyGivenNames mine
  extract_lets +onlyGivenNames hs
  extract_lets +onlyGivenNames u
  have hu : s.kept q u := .modAdc h
  clear_value u
  refine .foldl (fun _ _ hv => ?_) hu
  split
  · exact .adcStore hv
  · exact hv

theorem State.kept.adcSeqWrite {x : Conv} {q' : Fin 4} {v : Word} (h : s.kept q t) : s.kept q (t.adcSeqWrite x q' v) :=
  .ite (.modAdc h) (.adcStore h)

theorem State.kept.adcEntWrite {x : Conv} {j : Nat} {v : Word} (h : s.kept q t) : s.kept q (t.adcEntWrite x j v) :=
  .ite (.bump h) (.ite (.modAdc h) (.adcStore h))

theorem State.keptOut.execAdcSeqCfgWrite {r : Req} {x : Conv} {q' : Fin 4} {v : Word} (h : s.kept q t) :
    s.keptOut q (execAdcSeqCfgWrite r x q' v t) := .regCmd h (fun _ hu => (.adcSeqWrite hu))

theorem State.keptOut.execAdcEntryWrite {r : Req} {x : Conv} {q' : Fin 4} {e : Fin 16} {v : Word} (h : s.kept q t) :
    s.keptOut q (execAdcEntryWrite r x q' e v t) := .regCmd h (fun _ hu => (.adcEntWrite hu))

theorem State.kept.adcRefWrite {x : Conv} {src : Nat} (h : s.kept q t) : s.kept q (t.adcRefWrite x src) :=
  .ite h (.ite (.sched (.modAdc (.setFld (.setFld h)))) (.modAdc (.setFld (.setFld h))))

theorem State.keptOut.execAdcRefSelect {r : Req} {x : Conv} {src : BitVec 2} (h : s.kept q t) :
    s.keptOut q (execAdcRefSelect r x src t) := .regCmd h (fun _ hu => (.adcRefWrite hu))

theorem State.keptOut.execRefSettled {x : Conv} (h : s.kept q t) : s.keptOut q (execRefSettled x t) :=
  .next (.ite (.unsched (.setFld h)) h)

theorem State.kept.adcEntry {x : Conv} {q' : Fin 4} {e : Fin 16} {late : Bool} (h : s.kept q t) : s.kept q (t.adcEntry x q' e late) :=
  .schedAt (.modAdc h)

theorem State.kept.adcAge {x : Conv} {q' : Fin 4} {f : Nat → Nat} (h : s.kept q t) : s.kept q (t.adcAge x q' f) :=
  .foldl (fun _ _ hu => (.setFld hu)) h

theorem State.kept.adcRun {x : Conv} {q' : Fin 4} (h : s.kept q t) : s.kept q (t.adcRun x q') := .adcEntry (.adcAge h)

theorem State.kept.adcNext {x : Conv} (h : s.kept q t) : s.kept q (t.adcNext x) := by
  unfold State.adcNext
  extract_lets +onlyGivenNames a
  split
  · exact .adcRun (.modAdc h)
  · split
    · exact .adcEntry (.modAdc h)
    · split
      · exact .adcRun (.modAdc h)
      · exact h

theorem State.kept.adcFree {x : Conv} (h : s.kept q t) : s.kept q (t.adcFree x) := by
  unfold State.adcFree
  split
  · exact h
  · exact .ite (.adcNext (.modAdc h)) (.ite (.adcNext (.adcApplyHeld (.modAdc (.modAdc h)))) (.adcEntry (.modAdc (.modAdc h))))

theorem State.kept.adcLand {x : Conv} (h : s.kept q t) : s.kept q (t.adcLand x) := by
  unfold State.adcLand
  split
  · exact h
  · exact .ite (.emit (.ite (.raiseEv (.raiseData (.setReg (.modAdc h)))) (.raiseData (.setReg (.modAdc h))))) (.ite (.raiseEv
      (.raiseData (.setReg (.modAdc h)))) (.raiseData (.setReg (.modAdc h))))

theorem State.keptOut.execAdcHold {x : Conv} {a : Analog} (h : s.kept q t) : s.keptOut q (execAdcHold x a t) := by
  unfold Machine.execAdcHold
  split
  · exact .ite (.next (.sched (.draw (.modAdc (.unsched h))))) (.next h)
  · exact .next h

theorem State.keptOut.execAdcConversionEnd {x : Conv} (h : s.kept q t) : s.keptOut q (execAdcConversionEnd x t) := by
  unfold Machine.execAdcConversionEnd
  refine .ite ?_ ?_
  · split
    · exact .next (.adcLand h)
    · exact .next (.ite (.adcLand (.adcFree h)) h)
    · exact .next h
  · exact .next h

theorem State.kept.adcTick {x : Conv} (h : s.kept q t) : s.kept q (t.adcTick x) := by
  unfold State.adcTick
  split
  · exact .ite (.adcFree h) h
  · exact h

theorem State.kept.adcAbort {x : Conv} (h : s.kept q t) : s.kept q (t.adcAbort x) :=
  .foldl (fun _ _ hu => (.adcApplyHeld hu)) (.ite (.unsched (.modAdc (.foldl (fun _ _ hu => (.adcAge hu)) h))) (.modAdc (.foldl (fun _ _
    hu => (.adcAge hu)) h)))

theorem State.kept.adcCtrlWrite {x : Conv} {v : Word} (h : s.kept q t) : s.kept q (t.adcCtrlWrite x v) :=
  .ite (.adcAbort (.setFld h)) (.setFld h)

theorem State.keptOut.execAdcAbort {r : Req} {x : Conv} (h : s.kept q t) : s.keptOut q (execAdcAbort r x t) :=
  .regCmd h (fun _ hu => (.adcCtrlWrite hu))

theorem State.keptOut.execAdcDisable {r : Req} {x : Conv} (h : s.kept q t) : s.keptOut q (execAdcDisable r x t) :=
  .regCmd h (fun _ hu => (.adcCtrlWrite hu))

theorem State.kept.adcRefuse {x : Conv} {q' : Fin 4} (h : s.kept q t) : s.kept q (t.adcRefuse x q') :=
  .bump (.foldl (fun _ _ hu => (.setFld hu)) h)

theorem State.kept.adcAccept {x : Conv} {q' : Fin 4} (h : s.kept q t) : s.kept q (t.adcAccept x q') := by
  unfold State.adcAccept
  extract_lets +onlyGivenNames a
  extract_lets +onlyGivenNames urgent
  extract_lets +onlyGivenNames wait
  have hwait : ∀ u, s.kept q u → s.kept q (wait u) := fun _ hu => .modAdc hu
  clear_value wait
  refine .ite ?_ ?_
  · exact .raiseEv (.bump h)
  · refine .ite ?_ ?_
    · exact .adcRun h
    · split
      · exact .ite (.ite (hwait _ (.modAdc (.modAdc (.count h)))) (.adcRun (.modAdc (.unsched (.modAdc (.count h)))))) (hwait _ h)
      · exact hwait _ h

theorem State.kept.adcServe {x : Conv} {q' : Fin 4} (h : s.kept q t) : s.kept q (t.adcServe x q') :=
  .ite h (.ite (.adcRefuse h) (.ite (.adcAccept h) h))

theorem State.kept.adcServeAll {x : Conv} (h : s.kept q t) : s.kept q (t.adcServeAll x) :=
  .foldl (fun _ _ hu => (.adcServe hu)) (.modAdc h)

theorem State.kept.adcTrig {x : Conv} {q' : Fin 4} (h : s.kept q t) : s.kept q (t.adcTrig x q') := .modAdc h

theorem State.keptOut.execAdcTrigger {x : Conv} {q' : Fin 4} (h : s.kept q t) : s.keptOut q (execAdcTrigger x q' t) := .next (.adcTrig h)

theorem State.kept.adcSwWrite {x : Conv} {v : Word} (h : s.kept q t) : s.kept q (t.adcSwWrite x v) :=
  .foldl (fun _ _ hu => (.adcTrig hu)) h

theorem State.keptOut.execAdcSwtrig {r : Req} {x : Conv} {v : Word} (h : s.kept q t) : s.keptOut q (execAdcSwtrig r x v t) :=
  .regCmd h (fun _ hu => (.adcSwWrite hu))

theorem State.kept.modRot {f : RotSt → RotSt} (h : s.kept q t) : s.kept q (t.modRot f) := .beside h rfl

theorem State.kept.rotAdvance (h : s.kept q t) : s.kept q t.rotAdvance := .count h

theorem State.kept.spareCalibrate (h : s.kept q t) : s.kept q t.spareCalibrate := .sched (.draw (.modRot (.unschedAll h)))

theorem State.keptOut.execRotationSwap (h : s.kept q t) : s.keptOut q (execRotationSwap t) :=
  .ite (.next (.spareCalibrate (.unsched (.sched (.modAdc (.modRot (.rotAdvance (.count (.setFld (.setReg h)))))))))) (.next h)

theorem State.keptOut.execRotationDue (h : s.kept q t) : s.keptOut q (execRotationDue t) :=
  .ite (.next (.sched (.modRot (.ite (.bump (.rotAdvance h)) h)))) (.next h)

theorem State.keptOut.execSpareRefConnect (h : s.kept q t) : s.keptOut q (execSpareRefConnect t) := .next (.ite (.modRot h) h)

theorem State.kept.rotStart (h : s.kept q t) : s.kept q t.rotStart := .ite h (.sched (.modRot h))

theorem State.kept.rotStop (h : s.kept q t) : s.kept q t.rotStop := by
  unfold State.rotStop
  exact .modRot (.unschedAll (.unsched h))

theorem State.keptOut.execSpareCalComplete {c : SpareCal} (h : s.kept q t) : s.keptOut q (execSpareCalComplete c t) :=
  .ite (.ite (.next (.setReg (.modRot h))) (.next (.raiseEv (.rotStop (.setFld (.setFld (.setReg (.modRot h)))))))) (.next h)

theorem State.keptOut.execCoreAged {k : Fin 9} (h : s.kept q t) : s.keptOut q (execCoreAged k t) :=
  .ite (.next (.raiseEv (.setReg h))) (.next h)

theorem State.kept.rotTick (h : s.kept q t) : s.kept q t.rotTick := by
  unfold State.rotTick
  split
  · exact .ite (.emit h) h
  · exact h

theorem State.kept.rotLate (h : s.kept q t) : s.kept q t.rotLate := .ite (.emit h) h

theorem State.kept.adcFullEntry {cal : Vector SpareCal 9} (h : s.kept q t) : s.kept q (t.adcFullEntry cal) :=
  .rotStart (.modRot (.foldl (fun _ _ hu => (.sched hu)) (.foldl (fun _ _ hu => (.foldl (fun _ _ hv => (.setFld (.setFld hv))) hu))
    (.setReg (.setReg (.setReg h))))))

theorem State.kept.adcReady (h : s.kept q t) : s.kept q t.adcReady := .foldl (fun _ _ hu => (.modAdc (.unsched (.setFld hu)))) h

theorem State.kept.adcFromMaint (h : s.kept q t) : s.kept q t.adcFromMaint := .ite h (.rotStart (.spareCalibrate h))

theorem State.kept.adcStop (h : s.kept q t) : s.kept q t.adcStop :=
  .rotStop (.foldl (fun _ _ hu => (.modAdc (.unsched (.unsched (.foldl (fun _ _ hv => (.adcApplyHeld hv)) hu))))) h)

theorem State.kept.modCmp {n : CmpId} {f : CmpSt → CmpSt} (h : s.kept q t) : s.kept q (t.modCmp n f) := .beside h rfl

theorem State.kept.winSee {k : WinId} (h : s.kept q t) : s.kept q (t.winSee k) := .setLv (.setLv (.setLv (.setLv h)))

theorem State.kept.winGate {k : WinId} (h : s.kept q t) : s.kept q (t.winGate k) := .setLv h

theorem State.kept.winOf {n : CmpId} (h : s.kept q t) : s.kept q (t.winOf n) := .ite (.winSee h) h

theorem State.kept.cmpUpdate {n : CmpId} (h : s.kept q t) : s.kept q (t.cmpUpdate n) := .winOf (.setLv h)

theorem State.kept.settleTo {n : CmpId} {e : Option Nat} (h : s.kept q t) : s.kept q (t.settleTo n e) := by
  unfold State.settleTo
  extract_lets +onlyGivenNames u
  have hu : s.kept q u := .modCmp h
  clear_value u
  split
  · exact .schedAt (.setFld hu)
  · exact .unsched (.setFld hu)

theorem State.kept.dacMove {n : CmpId} (h : s.kept q t) : s.kept q (t.dacMove n) :=
  .ite h (.ite (.modCmp h) (.settleTo (.modCmp (.winOf h))))

theorem State.keptOut.execDacSettled {n : CmpId} (h : s.kept q t) : s.keptOut q (execDacSettled n t) :=
  .next (.ite h (.settleTo (.modCmp h)))

theorem State.kept.dacTick {n : CmpId} (h : s.kept q t) : s.kept q (t.dacTick n) := .ite (.modCmp h) (.ite (.draw (.modCmp h)) h)

theorem State.kept.dacsMove {n : CmpId} (h : s.kept q t) : s.kept q (t.dacsMove n) := by
  unfold State.dacsMove
  extract_lets +onlyGivenNames u
  have hu : s.kept q u := .dacMove h
  clear_value u
  split
  · exact .dacMove hu
  · exact hu

theorem State.kept.thrStore {n : CmpId} {alt : Bool} {code : BitVec 12} (h : s.kept q t) : s.kept q (t.thrStore n alt code) := by
  unfold State.thrStore
  split
  · exact .beside h rfl
  · exact .dacMove (.ite (.setReg h) (.setReg h))

theorem State.kept.thrWrite {n : CmpId} {alt : Bool} {v : Word} (h : s.kept q t) : s.kept q (t.thrWrite n alt v) :=
  .ite (.bump h) (.mark (.thrStore h))

theorem State.keptOut.execCmpThrWrite {r : Req} {n : CmpId} {alt : Bool} {v : Word} (h : s.kept q t) :
    s.keptOut q (execCmpThrWrite r n alt v t) := .regCmd h (fun _ hu => (.thrWrite hu))

theorem State.keptOut.execCmpThrPort {n : CmpId} {w : Word} (h : s.kept q t) : s.keptOut q (execCmpThrPort n w t) :=
  .ite (.next (.mark (.thrStore (.ite (.bump h) h)))) (.next h)

theorem State.kept.partnerSees {n : CmpId} {up : Bool} (h : s.kept q t) : s.kept q (t.partnerSees n up) := by
  unfold State.partnerSees
  split
  · split
    · extract_lets +onlyGivenNames moved
      extract_lets +onlyGivenNames u
      have hu : s.kept q u := .modCmp h
      clear_value u
      exact .cmpUpdate (.beside hu rfl)
    · exact h
  · exact h

theorem State.kept.cmpCross {n : CmpId} {up : Bool} (h : s.kept q t) : s.kept q (t.cmpCross n up) :=
  .ite h (.cmpUpdate (.partnerSees (.ite (.modCmp h) h)))

theorem State.keptOut.execComparatorCrossing {n : CmpId} {up : Bool} (h : s.kept q t) : s.keptOut q (execComparatorCrossing n up t) := by
  unfold Machine.execComparatorCrossing
  refine .ite ?_ ?_
  · extract_lets +onlyGivenNames u
    have hu : s.kept q u := .cmpCross h
    clear_value u
    refine .next ?_
    split
    · exact .ite (.cmpCross hu) hu
    · exact hu
  · exact .next h

theorem State.kept.cmpSample {n : CmpId} {lv : Level3} (h : s.kept q t) : s.kept q (t.cmpSample n lv) := .modCmp h

theorem State.keptOut.execCmpTick {n : CmpId} {lv : Level3} (h : s.kept q t) : s.keptOut q (execCmpTick n lv t) :=
  .next (.ite h (.ite (.bump h) (.cmpSample h)))

theorem State.kept.cmpTickLc {n : CmpId} (h : s.kept q t) : s.kept q (t.cmpTickLc n) := by
  unfold State.cmpTickLc
  split
  · exact .ite (.cmpUpdate (.modCmp h)) h
  · exact h

theorem State.kept.checkTick (h : s.kept q t) : s.kept q t.checkTick := by
  unfold State.checkTick
  split
  · exact .beside h rfl
  · exact h

theorem State.keptOut.execWindowGateChange {k : WinId} {gate : Bool} (h : s.kept q t) : s.keptOut q (execWindowGateChange k gate t) :=
  .ite (.next (.winSee (.beside h rfl))) (.next h)

theorem State.kept.cmpSelChange {n : CmpId} (h : s.kept q t) : s.kept q (t.cmpSelChange n) := .ite (.dacsMove h) h

theorem State.kept.cmpCfgWrite {n : CmpId} {v : Word} (h : s.kept q t) : s.kept q (t.cmpCfgWrite n v) :=
  .cmpUpdate (.ite (.setFld (.ite (.writeReg h) (.setFld h))) (.modCmp (.setFld (.ite (.writeReg h) (.setFld h)))))

theorem State.kept.winCfgWrite {k : WinId} {v : Word} (h : s.kept q t) : s.kept q (t.winCfgWrite k v) :=
  .winSee (.ite (.setFld (.writeReg h)) (.writeReg h))

theorem State.kept.checkStart {n : CmpId} {kind lad : Nat} {trim : Option Int} (h : s.kept q t) :
    s.kept q (t.checkStart n kind lad trim) := by
  unfold State.checkStart
  extract_lets +onlyGivenNames dec
  extract_lets +onlyGivenNames c
  extract_lets +onlyGivenNames raw
  extract_lets +onlyGivenNames part u
  have hu : s.kept q u := .draw (.beside h rfl)
  clear_value u
  extract_lets +onlyGivenNames v
  have hv : s.kept q v := by
    unfold v
    split
    · exact .cmpUpdate (.dacMove (.modCmp hu))
    · exact hu
  clear_value v
  extract_lets +onlyGivenNames w
  have hw : s.kept q w := .setFld hv
  clear_value w
  exact .sched (.sched (.sched hw))

theorem State.kept.checkEnd (h : s.kept q t) : s.kept q t.checkEnd := by
  unfold State.checkEnd
  split
  · extract_lets +onlyGivenNames part u
    have hu : s.kept q u := .beside h rfl
    clear_value u
    extract_lets +onlyGivenNames v
    have hv : s.kept q v := .setFld hu
    clear_value v
    extract_lets +onlyGivenNames w
    have hw : s.kept q w := .unschedAll (.unsched (.unsched hv))
    clear_value w
    extract_lets +onlyGivenNames x
    have hx : s.kept q x := .ite (.settleTo hw) hw
    clear_value x
    extract_lets +onlyGivenNames y
    have hy : s.kept q y := by
      unfold y
      split
      · exact .thrStore hx
      · exact hx
    clear_value y
    extract_lets +onlyGivenNames z
    have hz : s.kept q z := by
      unfold z
      split
      · exact .thrStore hy
      · exact hy
    clear_value z
    extract_lets +onlyGivenNames u1
    have hu1 : s.kept q u1 := .cmpUpdate (.cmpTickLc hz)
    clear_value u1
    extract_lets +onlyGivenNames v1
    have hv1 : s.kept q v1 := by
      unfold v1
      split
      · exact .cmpUpdate (.dacMove hu1)
      · exact hu1
    clear_value v1
    exact .ite (.sched hv1) hv1
  · exact h

theorem State.kept.checkWrite {v : Word} (h : s.kept q t) : s.kept q (t.checkWrite v) :=
  .ite (.ite (.checkEnd h) h) (.ite (.bump (.setFld (.setFld (.ite (.checkEnd h) h)))) (.ite (.setFld (.beside (.ite (.checkEnd h) h)
    rfl)) (.checkStart (.ite (.checkEnd h) h))))

theorem State.keptOut.execCmpCheck {r : Req} {v : Word} (h : s.kept q t) : s.keptOut q (execCmpCheck r v t) :=
  .regCmd h (fun _ hu => (.checkWrite hu))

theorem State.keptOut.execCheckTakeover (h : s.kept q t) : s.keptOut q (execCheckTakeover t) := by
  unfold Machine.execCheckTakeover
  split
  · exact .ite (.next (.cmpUpdate (.beside h rfl))) (.next h)
  · exact .next h

theorem State.kept.trimMove {n : CmpId} {d : Int} (h : s.kept q t) : s.kept q (t.trimMove n d) :=
  .ite (.raiseEv (.beside h rfl)) (.beside h rfl)

theorem State.keptOut.execCheckResult {raw : Bool} (h : s.kept q t) : s.keptOut q (execCheckResult raw t) := by
  unfold Machine.execCheckResult
  split
  · refine .ite ?_ ?_
    · extract_lets +onlyGivenNames res
      extract_lets +onlyGivenNames part u
      have hu : s.kept q u := .beside h rfl
      clear_value u
      extract_lets +onlyGivenNames v
      have hv : s.kept q v := .settleTo hu
      clear_value v
      extract_lets +onlyGivenNames w
      have hw : s.kept q w := by
        unfold w
        split
        · exact .trimMove hv
        · exact hv
      clear_value w
      extract_lets +onlyGivenNames x
      have hx : s.kept q x := .setFld hw
      clear_value x
      extract_lets +onlyGivenNames y
      have hy : s.kept q y := .setFld hx
      clear_value y
      extract_lets +onlyGivenNames z
      have hz : s.kept q z := .setFld hy
      clear_value z
      extract_lets +onlyGivenNames u1
      have hu1 : s.kept q u1 := .count hz
      clear_value u1
      extract_lets +onlyGivenNames v1
      have hv1 : s.kept q v1 := .ite (.raiseEv hu1) hu1
      clear_value v1
      exact .next (.cmpUpdate hv1)
    · exact .next h
  · exact .next h

theorem State.keptOut.execCheckRelease (h : s.kept q t) : s.keptOut q (execCheckRelease t) := .next (.ite (.checkEnd h) h)

theorem State.keptOut.execCheckWaitingStart (h : s.kept q t) : s.keptOut q (execCheckWaitingStart t) := by
  unfold Machine.execCheckWaitingStart
  split
  · exact .next (.checkStart (.setFld (.beside h rfl)))
  · exact .next h

theorem State.kept.cmpReady {fresh : Bool} (h : s.kept q t) : s.kept q (t.cmpReady fresh) :=
  .foldl (fun _ _ hu => (.cmpUpdate (.ite (.modCmp hu) hu))) h

theorem State.kept.dacsReady (h : s.kept q t) : s.kept q t.dacsReady :=
  .foldl (fun _ _ hu => (.winSee hu)) (.foldl (fun _ _ hu => (.settleTo (.modCmp hu))) h)

theorem State.kept.cmpStop (h : s.kept q t) : s.kept q t.cmpStop :=
  .foldl (fun _ _ hu => (.cmpUpdate (.modCmp (.setFld hu)))) (.unschedAll (.setFld (.setFld (.beside h rfl))))
end
end Sys2Proof.Machine
end

