-- ==== Sys2Proof/Proofs/KeptLoops.lean ====
section
/-! PROOF. What the operations of the loop engines keep. -/

namespace Sys2Proof.Machine

section
variable {q : Bool} {s t : State}

theorem State.kept.modLe {n : LeId} {f : LeSt → LeSt} (h : s.kept q t) : s.kept q (t.modLe n f) := .beside h rfl

theorem State.kept.modPipe {n : LeId} {p : Pipe} {f : LePipe → LePipe} (h : s.kept q t) : s.kept q (t.modPipe n p f) := .modLe h

theorem State.kept.lePut {n : LeId} {off : Nat} {w : Word} (h : s.kept q t) : s.kept q (t.lePut n off w) := .setWord h

theorem State.kept.leOvr {n : LeId} (h : s.kept q t) : s.kept q (t.leOvr n) := .raiseEv (.bump h)

theorem State.kept.leSchedule {n : LeId} {p : Pipe} (h : s.kept q t) : s.kept q (t.leSchedule n p) := by
  unfold State.leSchedule
  split
  · exact .ite h (.sched h)
  · exact .sched h
  · exact .sched h
  · exact .sched h
  · exact .sched (.sched h)
  · exact h

theorem State.kept.leEnter {n : LeId} {p : Pipe} {ins : List Word} (h : s.kept q t) : s.kept q (t.leEnter n p ins) := by
  unfold State.leEnter
  extract_lets +onlyGivenNames ins
  extract_lets +onlyGivenNames plan
  extract_lets +onlyGivenNames j
  extract_lets +onlyGivenNames free
  extract_lets +onlyGivenNames u
  have hu : s.kept q u := .modPipe h
  clear_value u
  extract_lets +onlyGivenNames v
  have hv : s.kept q v := by
    unfold v
    split
    · exact .modLe hu
    · exact hu
  clear_value v
  extract_lets +onlyGivenNames w
  have hw : s.kept q w := by
    unfold w
    split
    · exact hv
    · exact .count hv
  clear_value w
  exact .leSchedule hw

theorem State.kept.leHold {n : LeId} {p : Pipe} {ins : List Word} (h : s.kept q t) : s.kept q (t.leHold n p ins) := .schedAt (.modPipe h)

theorem State.kept.leArrive {n : LeId} {p : Pipe} {ins : List Word} (h : s.kept q t) : s.kept q (t.leArrive n p ins) := by
  unfold State.leArrive
  extract_lets +onlyGivenNames x
  refine .ite ?_ ?_
  · split
    · exact .leEnter h
    · exact .leHold (.leEnter h)
  · exact .leHold (.ite (.leOvr h) h)

theorem State.kept.curFollow {n : LeId} {before : State} (h : s.kept q t) : s.kept q (t.curFollow n before) := .ite (.leArrive h) h

theorem State.kept.leForm {n : LeId} {ks : List Nat} {take : State → State} (h : s.kept q t) (htake : ∀ u, s.kept q u → s.kept q (take
  u)) :
    s.kept q (t.leForm n ks take) := .ite (htake _ (.beside h rfl)) (.beside h rfl)

theorem State.keptOut.execCurrentSetFormed {n : LeId} (h : s.kept q t) : s.keptOut q (execCurrentSetFormed n t) :=
  .ite (.next (.leForm h fun _ hu => .curFollow (.leArrive hu))) (.next h)

theorem State.keptOut.execVoltageSet {n : LeId} (h : s.kept q t) : s.keptOut q (execVoltageSet n t) :=
  .ite (.next (.leForm h (fun _ hu => (.leArrive hu)))) (.next h)

theorem State.keptOut.execFreqTrackerSet {n : LeId} (h : s.kept q t) : s.keptOut q (execFreqTrackerSet n t) :=
  .ite (.next (.leForm h (fun _ hu => (.leArrive hu)))) (.next h)

theorem State.kept.leRefresh {n : LeId} {k : Nat} (h : s.kept q t) : s.kept q (t.leRefresh n k) := by
  unfold State.leRefresh
  refine .ite ?_ ?_
  · exact h
  · split
    · exact .ite (.modPipe h) h
    · exact h

theorem State.keptOut.execProfileTick {n : LeId} (h : s.kept q t) : s.keptOut q (execProfileTick n t) := .next (.ite (.leArrive h) h)

theorem State.kept.leDrive {n : LeId} {d k : Nat} {w : Word} (h : s.kept q t) : s.kept q (t.leDrive n d k w) := .modLe h

theorem State.kept.leTick {n : LeId} (h : s.kept q t) : s.kept q (t.leTick n) :=
  .ite (.foldl (fun _ _ hu => (.raiseData hu)) (.modLe h)) (.modLe h)

theorem State.kept.leWrite {n : LeId} {j : LeJob} (h : s.kept q t) : s.kept q (t.leWrite n j) :=
  .ite (.foldl (fun _ _ hu => (.lePut hu)) h) h

theorem State.kept.lePresent {n : LeId} {src : Nat} {out : Option (List Word)} (h : s.kept q t) : s.kept q (t.lePresent n src out) := by
  unfold State.lePresent
  refine .ite ?_ ?_
  · exact h
  · split
    · exact .raiseEv (.raiseFld (.bump h))
    · exact .ite (.emit (.modLe h)) (.ite (.leDrive (.foldl (fun _ _ hu => (.leDrive hu)) h)) h)

theorem State.kept.leDone {n : LeId} {p : Pipe} (h : s.kept q t) : s.kept q (t.leDone n p) := .ite (.schedAt (.modPipe h)) (.modPipe h)

theorem State.keptOut.execCurrentLoopOutput {n : LeId} (h : s.kept q t) : s.keptOut q (execCurrentLoopOutput n t) := by
  unfold Machine.execCurrentLoopOutput
  split
  · exact .ite (.next (.leDone (.lePresent (.leWrite (.unsched h))))) (.next h)
  · exact .next h

theorem State.keptOut.execVoltageLoopOutput {n : LeId} (h : s.kept q t) : s.keptOut q (execVoltageLoopOutput n t) := by
  unfold Machine.execVoltageLoopOutput
  split
  · exact .ite (.next (.leDone (.lePresent (.leWrite (.unsched h))))) (.next h)
  · exact .next h

theorem State.keptOut.execFreqTrackerOutput {n : LeId} (h : s.kept q t) : s.keptOut q (execFreqTrackerOutput n t) := by
  unfold Machine.execFreqTrackerOutput
  split
  · exact .ite (.next (.leDone (.ite (.ite (.setLv (.raiseData (.raiseData (.leWrite (.unsched (.draw h)))))) (.ite (.setLv (.raiseData
      (.raiseData (.leWrite (.unsched (.draw h)))))) (.raiseData (.raiseData (.leWrite (.unsched (.draw h))))))) (.leWrite (.unsched
      (.draw h)))))) (.next h)
  · exact .next h

theorem State.keptOut.execProfileOutput {n : LeId} (h : s.kept q t) : s.keptOut q (execProfileOutput n t) := by
  unfold Machine.execProfileOutput
  split
  · refine .ite ?_ (.next h)
    split
    extract_lets +onlyGivenNames ix u v w
    have hw : s.kept q w := .ite (.modLe (.leWrite (.unsched (.draw h)))) (.leWrite (.unsched (.draw h)))
    clear_value w
    extract_lets +onlyGivenNames x y
    have hx : s.kept q x := .foldl (fun _ _ hv => .raiseData hv) hw
    have hy : s.kept q y := .ite (.ite (.raiseEv (.raiseFld hx)) hx) hw
    exact .next (.leDone hy)
  · exact .next h

theorem State.keptOut.execObserverAngle {n : LeId} (h : s.kept q t) : s.keptOut q (execObserverAngle n t) := by
  unfold Machine.execObserverAngle
  split
  · refine .ite ?_ (.next h)
    split
    extract_lets +onlyGivenNames u
    have hu : s.kept q u := .unsched (.draw h)
    clear_value u
    split
    extract_lets +onlyGivenNames coast use job v w
    have hw : s.kept q w := .modLe (.modPipe hu)
    clear_value w
    split
    · exact .ite (.next (.sched (.modPipe hw))) (.next hw)
    · exact .next hw
  · exact .next h

theorem State.kept.coastStop {n : LeId} (h : s.kept q t) : s.kept q (t.coastStop n) := .modLe (.unsched (.setReg h))

theorem State.kept.coastRun {n : LeId} {from_ : Nat} (h : s.kept q t) : s.kept q (t.coastRun n from_) :=
  .ite (.sched (.modLe h)) (.unsched (.modLe h))

theorem State.kept.reacqWrite {n : LeId} {v : Word} (h : s.kept q t) : s.kept q (t.reacqWrite n v) :=
  .ite (.coastRun (.setReg h)) (.setReg h)

theorem State.kept.leEscalate {n : LeId} (h : s.kept q t) : s.kept q (t.leEscalate n) := .raiseEv (.raiseFld (.unsched h))

theorem State.kept.coastOver {n : LeId} (h : s.kept q t) : s.kept q (t.coastOver n) :=
  .ite (.ite (.leEscalate (.coastStop (.setLv (.lePut h)))) (.coastStop (.setLv (.lePut h)))) (.coastStop (.lePut h))

theorem State.kept.coastUpdate {n : LeId} {j : LeJob} {c : Word} (h : s.kept q t) : s.kept q (t.coastUpdate n j c) := by
  unfold State.coastUpdate
  extract_lets +onlyGivenNames low
  extract_lets +onlyGivenNames hi
  extract_lets +onlyGivenNames lows
  extract_lets +onlyGivenNames his
  extract_lets +onlyGivenNames lim
  extract_lets +onlyGivenNames flags
  extract_lets +onlyGivenNames coast
  extract_lets +onlyGivenNames recov
  extract_lets +onlyGivenNames freq
  extract_lets +onlyGivenNames u
  have hu : s.kept q u := .leWrite h
  clear_value u
  extract_lets +onlyGivenNames v
  have hv : s.kept q v := .lePut hu
  clear_value v
  extract_lets +onlyGivenNames w
  have hw : s.kept q w := .ite (.lePut hv) hv
  clear_value w
  exact .ite (.ite (.ite (.raiseEv (.setLv (.coastRun (.draw (.lePut (.lePut (.lePut hw))))))) (.draw (.lePut (.lePut (.lePut hw)))))
    (.lePut hw)) (.ite (.ite (.lePut (.lePut hw)) (.ite (.coastOver (.lePut hw)) (.lePut hw))) (.ite (.lePut (.lePut hw)) (.lePut hw)))

theorem State.keptOut.execObserverConfidence {n : LeId} (h : s.kept q t) : s.keptOut q (execObserverConfidence n t) := by
  unfold Machine.execObserverConfidence
  split
  · split
    · exact .ite (.next (.leDone (.ite (.coastUpdate (.draw (.ite (.raiseData (.setReg (.unsched h))) (.setReg (.unsched h))))) (.draw
        (.ite (.raiseData (.setReg (.unsched h))) (.setReg (.unsched h))))))) (.next h)
    · exact .next h
  · exact .next h

theorem State.keptOut.execCoastEscalate {n : LeId} (h : s.kept q t) : s.keptOut q (execCoastEscalate n t) :=
  .next (.ite (.leEscalate h) h)

theorem State.kept.leResume {n : LeId} (h : s.kept q t) : s.kept q (t.leResume n) := by
  unfold State.leResume
  exact .ite (.sched (.foldl (fun _ _ hu => (.ite (.schedAt hu) hu)) h)) (.foldl (fun _ _ hu => (.ite (.schedAt hu) hu)) h)

theorem State.kept.leStatWrite {n : LeId} {v : Word} (h : s.kept q t) : s.kept q (t.leStatWrite n v) :=
  .ite (.leResume (.setReg h)) (.setReg h)

theorem State.kept.leOwned {r : Req} {n : LeId} {f : State → State} (h : s.kept q t) (hf : ∀ u, s.kept q u → s.kept q (f u)) :
    s.kept q (t.leOwned r n f) := .ite (hf _ h) (.foreign h)

theorem State.keptOut.execSafereqClear {r : Req} {n : LeId} (h : s.kept q t) : s.keptOut q (execSafereqClear r n t) :=
  .regCmd h (fun _ hu => (.leOwned hu (fun _ hv => (.leStatWrite hv))))

theorem State.kept.modGen {n : LeId} {f : GenSt → GenSt} (h : s.kept q t) : s.kept q (t.modGen n f) := .modLe h

theorem State.kept.genStart {n : LeId} {ws : List Word} (h : s.kept q t) : s.kept q (t.genStart n ws) := .sched (.setReg (.modGen h))

theorem State.kept.genHold {n : LeId} {ws : List Word} (h : s.kept q t) : s.kept q (t.genHold n ws) := .modGen h

theorem State.kept.genRequest {n : LeId} {ws : List Word} (h : s.kept q t) : s.kept q (t.genRequest n ws) := by
  unfold State.genRequest
  extract_lets +onlyGivenNames g
  split
  · exact .genHold (.leOvr h)
  · exact .genHold h
  · exact .genHold (.genStart h)
  · exact .genStart h

theorem State.keptOut.execGeneralStageGo {n : LeId} (h : s.kept q t) : s.keptOut q (execGeneralStageGo n t) := by
  unfold Machine.execGeneralStageGo
  extract_lets +onlyGivenNames g
  refine .ite ?_ ?_
  · split
    · exact .next (.genRequest (.modGen h))
    · refine .ite ?_ ?_
      · exact .next h
      · refine .ite ?_ ?_
        · exact .next (.genRequest h)
        · split
          · exact .next (.genStart h)
          · exact .next h
  · exact .next h

theorem State.keptOut.execSetAccept {n : LeId} {p : Pipe} (h : s.kept q t) : s.keptOut q (execSetAccept n p t) := by
  unfold Machine.execSetAccept
  split
  · split
    · exact .next (.ite (.genStart h) h)
    · exact .next h
  · extract_lets +onlyGivenNames x
    split
    · refine .ite ?_ (.next h)
      extract_lets +onlyGivenNames u
      have hu : s.kept q u := .leEnter (.unsched h)
      clear_value u
      split
      · exact .next (.curFollow hu)
      · exact .next hu
    · exact .next h

theorem State.kept.genAluSlot {n : LeId} {g0 : GenSt} {w : Word} (h : s.kept q t) : s.kept q (t.genAluSlot n g0 w) := .ite h (.modGen h)

theorem State.kept.genMemSlot {n : LeId} {g0 : GenSt} {w : Word} (h : s.kept q t) : s.kept q (t.genMemSlot n g0 w) := by
  unfold State.genMemSlot
  extract_lets +onlyGivenNames t'
  split
  · exact h
  · exact .modGen h
  · exact .setWord h
  · exact .modGen h
  · exact .modGen h
  · exact .ite (.leDrive (.modGen h)) (.modGen h)

theorem State.kept.genCtlSlot {n : LeId} {g0 : GenSt} {w : Word} (h : s.kept q t) : s.kept q (t.genCtlSlot n g0 w).1 := by
  unfold State.genCtlSlot
  extract_lets +onlyGivenNames pc a next jump
  split
  case h_5 => exact State.kept.ite (.leDrive h) h
  case h_6 => exact State.kept.raiseEv h
  all_goals exact h

theorem State.keptOut.execGeneralBundle {n : LeId} (h : s.kept q t) : s.keptOut q (execGeneralBundle n t) := by
  unfold Machine.execGeneralBundle
  extract_lets +onlyGivenNames g
  refine .ite ?_ (.next h)
  extract_lets +onlyGivenNames u
  have hu : s.kept q u := .unsched h
  clear_value u
  refine .ite (.next (.setFld (.modGen hu))) ?_
  extract_lets +onlyGivenNames v w
  have hw : s.kept q w := .setFld (.modGen hu)
  clear_value w
  refine .ite (.next (.sched hw)) ?_
  extract_lets +onlyGivenNames w0 w1 w2 w3 x y
  have hy : s.kept q y := .genMemSlot (.genAluSlot (.genAluSlot (.setFld hw)))
  have hz : s.kept q (y.genCtlSlot n g w3).1 := .genCtlSlot hy
  clear_value y
  split
  · next z pc e =>
    rw [e] at hz
    exact .next (.sched (.modGen hz))
  · next z e =>
    rw [e] at hz
    exact .next (.ite (.sched (.setFld (.modGen hz))) (.setFld (.modGen hz)))

theorem State.kept.leUnwrite {n : LeId} {b : Nat} (h : s.kept q t) : s.kept q (t.leUnwrite n b) :=
  .foldl (fun _ _ hu => (.ite (.bump (.writeLE hu)) hu)) h

theorem State.kept.leBusWrite {n : LeId} {a v k : Nat} (h : s.kept q t) : s.kept q (t.leBusWrite n a v k) :=
  .ite (.bump h) (.writeLE (.ite (.modLe h) h))

theorem State.kept.leSwap {n : LeId} (h : s.kept q t) : s.kept q (t.leSwap n) := by
  unfold State.leSwap
  extract_lets +onlyGivenNames a
  refine .ite ?_ ?_
  · exact h
  · extract_lets +onlyGivenNames u
    have hu : s.kept q u := .mark h
    clear_value u
    extract_lets +onlyGivenNames b
    extract_lets +onlyGivenNames v
    have hv : s.kept q v := .leUnwrite hu
    clear_value v
    extract_lets +onlyGivenNames w
    have hw : s.kept q w := .count (.setFld hv)
    clear_value w
    extract_lets +onlyGivenNames plan
    extract_lets +onlyGivenNames x
    have hx : s.kept q x := .modLe hw
    clear_value x
    refine .foldl (fun _ _ hy => ?_) hx
    split
    · exact .ite (.ite (.modLe (.modPipe hy)) (.modPipe hy)) hy
    · exact hy

theorem State.keptOut.execParamSwap {r : Req} {n : LeId} (h : s.kept q t) : s.keptOut q (execParamSwap r n t) :=
  .regCmd h (fun _ hu => (.leOwned hu (fun _ hv => (.leSwap hv))))

theorem State.keptOut.execLnSwapEvent {n : LeId} (h : s.kept q t) : s.keptOut q (execLnSwapEvent n t) := .next (.ite (.leSwap h) h)

theorem State.kept.leCommit {n : LeId} {ws : List Word} (h : s.kept q t) : s.kept q (t.leCommit n ws) := by
  unfold State.leCommit
  extract_lets +onlyGivenNames u
  have hu : s.kept q u := .foldl (fun _ _ hu => (.lePut hu)) h
  clear_value u
  extract_lets +onlyGivenNames v
  have hv : s.kept q v := .setLv hu
  clear_value v
  refine .foldl (fun _ _ hw => ?_) hv
  split
  · exact .modPipe hw
  · exact hw

theorem State.kept.leCtrlWrite {n : LeId} {v : Word} (h : s.kept q t) : s.kept q (t.leCtrlWrite n v) :=
  .ite (.leResume (.ite (.writeReg h) (.setFld (.writeReg h)))) (.ite (.writeReg h) (.setFld (.writeReg h)))

theorem State.kept.leObsWrite {n : LeId} {v : Word} (h : s.kept q t) : s.kept q (t.leObsWrite n v) := .setFld h

theorem State.kept.leRun {n : LeId} (h : s.kept q t) : s.kept q (t.leRun n) := .ite (.coastRun (.setLv (.setLv h))) (.setLv (.setLv h))

theorem State.kept.leQuiet {n : LeId} (h : s.kept q t) : s.kept q (t.leQuiet n) := .setLv (.setLv h)

theorem State.kept.leFreeze {n : LeId} (h : s.kept q t) : s.kept q (t.leFreeze n) := .modLe (.leQuiet (.coastStop h))

theorem State.kept.leClear {n : LeId} (h : s.kept q t) : s.kept q (t.leClear n) := .unschedAll (.setFld (.modLe (.leQuiet h)))
end
end Sys2Proof.Machine
end

