-- ==== Sys2Proof/Proofs/KeptTimers.lean ====
section
/-! PROOF. What the operations of timers, time of day and position interfaces keep. -/

namespace Sys2Proof.Machine

section
variable {q : Bool} {s t : State}

theorem State.kept.modTmr {n : TmrId} {f : TmrSt → TmrSt} (h : s.kept q t) : s.kept q (t.modTmr n f) := .beside h rfl

theorem State.kept.tmrDue {n : TmrId} {c : Fin 4} (h : s.kept q t) : s.kept q (t.tmrDue n c) := .ite (.schedAt h) (.unsched h)

theorem State.kept.tmrRecap {n : TmrId} (h : s.kept q t) : s.kept q (t.tmrRecap n) := .foldl (fun _ _ hu => (.ite (.setReg hu) hu)) h

theorem State.kept.tmrLoad {n : TmrId} (h : s.kept q t) : s.kept q (t.tmrLoad n) :=
  .tmrRecap (.schedAt (.foldl (fun _ _ hu => (.tmrDue hu)) (.setFld (.setFld (.modTmr h)))))

theorem State.kept.tmrZeroStep {n : TmrId} (h : s.kept q t) : s.kept q (t.tmrZeroStep n) := .raiseEv (.modTmr h)

theorem State.kept.tmrStart {n : TmrId} (h : s.kept q t) : s.kept q (t.tmrStart n) :=
  .ite (.tmrLoad (.modTmr (.ite (.tmrZeroStep h) h))) h

theorem State.kept.tmrUnstart {n : TmrId} (h : s.kept q t) : s.kept q (t.tmrUnstart n) := by
  unfold State.tmrUnstart
  split
  · exact .ite (.schedAt (.tmrRecap (.foldl (fun _ _ hu => (.tmrDue hu)) (.setFld (.setFld (.modTmr h)))))) (.unsched (.tmrRecap (.foldl
      (fun _ _ hu => (.tmrDue hu)) (.setFld (.setFld (.modTmr h))))))
  · exact h

theorem State.kept.tmrHalt {n : TmrId} (h : s.kept q t) : s.kept q (t.tmrHalt n) := .ite (.mark (.tmrUnstart h)) h

theorem State.kept.tmrReloadWrite {n : TmrId} {v : Word} (h : s.kept q t) : s.kept q (t.tmrReloadWrite n v) :=
  .ite (.setFld (.tmrLoad (.writeReg h))) (.writeReg h)

theorem State.kept.tmrStop {n : TmrId} (h : s.kept q t) : s.kept q (t.tmrStop n) :=
  .foldl (fun _ _ hu => (.unsched hu)) (.unsched (.setFld (.modTmr h)))

theorem State.kept.tmrPinEdge {n : TmrId} {k : Fin 2} {rising : Bool} (h : s.kept q t) : s.kept q (t.tmrPinEdge n k rising) :=
  .foldl (fun _ _ hu => (.ite (.sched hu) hu)) h

theorem State.kept.tmrPin {n : TmrId} {k : Fin 2} {rank act : Nat} (h : s.kept q t) : s.kept q (t.tmrPin n k rank act) :=
  .ite h (.relv (.modTmr h))

theorem State.kept.tmrPinEnd {n : TmrId} {k : Fin 2} (h : s.kept q t) : s.kept q (t.tmrPinEnd n k) := by
  unfold State.tmrPinEnd
  extract_lets +onlyGivenNames thev
  extract_lets +onlyGivenNames u
  have hu : s.kept q u := by
    unfold u
    split
    · exact .ite h (.tmrPinEdge h)
    · exact h
  clear_value u
  exact .modTmr hu

theorem State.kept.tmrLcEnd (h : s.kept q t) : s.kept q t.tmrLcEnd :=
  .foldl (fun _ _ hu => (.foldl (fun _ _ hv => (.ite (.tmrPinEnd hv) hv)) (.ite (.tmrStop hu) hu))) h

theorem State.keptOut.execTimerZero {n : TmrId} (h : s.kept q t) : s.keptOut q (execTimerZero n t) := .next (.ite (.tmrZeroStep h) h)

theorem State.kept.tmrZeroActs {n : TmrId} (h : s.kept q t) : s.kept q (t.tmrZeroActs n) :=
  .ite (.foldl (fun _ _ hu => (.tmrPin hu)) (.modTmr h)) h

theorem State.kept.tmrZeroActsAll (h : s.kept q t) : s.kept q t.tmrZeroActsAll := .foldl (fun _ _ hu => (.tmrZeroActs hu)) h

theorem State.kept.tmrTick {n : TmrId} (h : s.kept q t) : s.kept q (t.tmrTick n) := .ite (.ite (.tmrStop h) (.tmrLoad h)) h

theorem State.keptOut.execTimerMatch {n : TmrId} {c : Fin 4} (h : s.kept q t) : s.keptOut q (execTimerMatch n c t) :=
  .ite (.next (.tmrPin (.raiseEv (.setFld (.unsched h))))) (.next h)

theorem State.kept.tmrCtrlWrite {n : TmrId} {v : Word} (h : s.kept q t) : s.kept q (t.tmrCtrlWrite n v) :=
  .ite (.tmrStart (.writeReg h)) (.tmrHalt (.writeReg h))

theorem State.keptOut.execTimerEnStart {r : Req} {n : TmrId} {v : Word} (h : s.kept q t) : s.keptOut q (execTimerEnStart r n v t) :=
  .regCmd h (fun _ hu => (.tmrCtrlWrite hu))

theorem State.keptOut.execTimerEnStop {r : Req} {n : TmrId} {v : Word} (h : s.kept q t) : s.keptOut q (execTimerEnStop r n v t) :=
  .regCmd h (fun _ hu => (.tmrCtrlWrite hu))

theorem State.kept.tmrMask {v : Word} {f : State → TmrId → State} (h : s.kept q t) (hf : ∀ u x, s.kept q u → s.kept q (f u x)) :
    s.kept q (t.tmrMask v f) := .foldl (fun _ _ hu => (.ite (hf _ _ hu) hu)) h

theorem State.keptOut.execTmStart {r : Req} {v : Word} (h : s.kept q t) : s.keptOut q (execTmStart r v t) :=
  .regCmd h (fun _ hu => (.tmrMask hu (fun _ _ hv => (.tmrStart hv))))

theorem State.keptOut.execTmStop {r : Req} {v : Word} (h : s.kept q t) : s.keptOut q (execTmStop r v t) :=
  .regCmd h (fun _ hu => (.tmrMask hu (fun _ _ hv => (.tmrHalt hv))))

theorem State.keptOut.execTimerStartEvent {n : TmrId} (h : s.kept q t) : s.keptOut q (execTimerStartEvent n t) := .next (.tmrStart h)

theorem State.keptOut.execTimerStopEvent {n : TmrId} (h : s.kept q t) : s.keptOut q (execTimerStopEvent n t) := .next (.tmrHalt h)

theorem State.kept.tmrValWrite {n : TmrId} {c : Fin 4} {v : Word} (h : s.kept q t) : s.kept q (t.tmrValWrite n c v) :=
  .ite h (.ite (.bump h) (.tmrDue (.mark (.setReg h))))

theorem State.keptOut.execTimerComparePort {n : TmrId} {c : Fin 4} {w : Word} (h : s.kept q t) :
    s.keptOut q (execTimerComparePort n c w t) := .ite (.next (.tmrDue (.mark (.setReg (.ite (.bump h) h))))) (.next h)

theorem State.keptOut.execTimerCapture {n : TmrId} {c : Fin 4} {e : CapEdge} (h : s.kept q t) : s.keptOut q (execTimerCapture n c e t) :=
  .ite (.next (.raiseEv (.raiseFld (.setReg (.setReg (.ite (.bump (.raiseFld (.mark h))) (.mark h))))))) (.next h)

theorem State.kept.modTod {f : TodSt → TodSt} (h : s.kept q t) : s.kept q (t.modTod f) := .beside h rfl

theorem State.keptOut.execTodRollover (h : s.kept q t) : s.keptOut q (execTodRollover t) :=
  .ite (.next (.ite (.sched (.modTod (.raiseEv (.modTod h)))) (.raiseEv (.modTod h)))) (.next h)

theorem State.keptOut.execPpsOutFall (h : s.kept q t) : s.keptOut q (execPpsOutFall t) := .next (.modTod h)

theorem State.kept.addendWrite {v : Word} (h : s.kept q t) : s.kept q (t.addendWrite v) :=
  .ite (.raiseFld (.setReg h)) (.ite (.raiseFld (.setReg h)) (.setReg h))

theorem State.keptOut.execTodAddendWrite {r : Req} {v : Word} (h : s.kept q t) : s.keptOut q (execTodAddendWrite r v t) :=
  .regCmd h (fun _ hu => (.addendWrite hu))

theorem State.keptOut.execTodPpsEdge (h : s.kept q t) : s.keptOut q (execTodPpsEdge t) :=
  .ite (.next (.sched (.raiseEv (.modTod (.setFld (.setReg (.setReg (.setReg h)))))))) (.next h)

theorem State.keptOut.execPpsLost (h : s.kept q t) : s.keptOut q (execPpsLost t) := .next (.ite (.setFld h) h)

theorem State.kept.todReady (h : s.kept q t) : s.kept q t.todReady := .ite (.sched h) h

theorem State.kept.todStop (h : s.kept q t) : s.kept q t.todStop := .unsched (.setFld h)

theorem State.kept.todCfgWrite {v : Word} (h : s.kept q t) : s.kept q (t.todCfgWrite v) :=
  .ite (.sched (.writeReg h)) (.ite (.unsched (.writeReg h)) (.writeReg h))

theorem State.kept.todRead {r : Req} (h : s.kept q t) : s.kept q (t.todRead r).2 := .pair (.modTod h)

theorem State.keptOut.execTodNsRead {r : Req} (h : s.kept q t) : s.keptOut q (execTodNsRead r t) :=
  .regCmd h (fun _ hu => (.answer (.todRead hu)))

theorem State.kept.todCommit (h : s.kept q t) : s.kept q t.todCommit := .raiseEv (.setFld (.setFld (.modTod h)))

theorem State.kept.todGo {timed : Bool} (h : s.kept q t) : s.kept q (t.todGo timed) :=
  .ite (.raiseFld h) (.ite h (.ite (.setFld h) (.todCommit h)))

theorem State.kept.todCancel (h : s.kept q t) : s.kept q t.todCancel := .setFld h

theorem State.kept.commitAtWrite {v : Word} (h : s.kept q t) : s.kept q (t.commitAtWrite v) :=
  .ite (.todCommit (.writeReg h)) (.writeReg h)

theorem State.kept.todCommitWrite {v : Word} (h : s.kept q t) : s.kept q (t.todCommitWrite v) :=
  .ite (.todGo (.ite (.todCancel h) h)) (.ite (.todCancel h) h)

theorem State.keptOut.execTodCommitGo {r : Req} {timed : Bool} (h : s.kept q t) : s.keptOut q (execTodCommitGo r timed t) :=
  .regCmd h (fun _ hu => (.todCommitWrite hu))

theorem State.keptOut.execTodCommitCancel {r : Req} (h : s.kept q t) : s.keptOut q (execTodCommitCancel r t) :=
  .regCmd h (fun _ hu => (.todCommitWrite hu))

theorem State.keptOut.execTodTimedCommit (h : s.kept q t) : s.keptOut q (execTodTimedCommit t) := .next (.ite (.todCommit h) h)

theorem State.kept.todTick (h : s.kept q t) : s.kept q t.todTick :=
  .ite (.ite (.todCommit (.ite (.emit (.modTod (.modTod h))) (.modTod h))) (.ite (.emit (.modTod (.modTod h))) (.modTod h))) h

theorem State.kept.modPos {n : PosId} {f : PosSt → PosSt} (h : s.kept q t) : s.kept q (t.modPos n f) := .beside h rfl

theorem State.kept.posValid {n : PosId} (h : s.kept q t) : s.kept q (t.posValid n) := .setLv (.setFld h)

theorem State.kept.posPut {n : PosId} {w : Word} (h : s.kept q t) : s.kept q (t.posPut n w) := .raiseData (.setReg h)

theorem State.kept.posEnable {n : PosId} (h : s.kept q t) : s.kept q (t.posEnable n) :=
  .posValid (.setReg (.posPut (.setFld (.setFld (.setFld (.modPos h))))))

theorem State.kept.posStop {n : PosId} (h : s.kept q t) : s.kept q (t.posStop n) := .modPos (.unschedAll h)

theorem State.kept.posCfgWrite {n : PosId} {v : Word} (h : s.kept q t) : s.kept q (t.posCfgWrite n v) := by
  unfold State.posCfgWrite
  extract_lets +onlyGivenNames was
  extract_lets +onlyGivenNames mult
  extract_lets +onlyGivenNames u
  have hu : s.kept q u := .writeReg h
  clear_value u
  extract_lets +onlyGivenNames v
  have hv : s.kept q v := .ite (.setFld hu) hu
  clear_value v
  extract_lets +onlyGivenNames w
  have hw : s.kept q w := .ite (.setFld hv) hv
  clear_value w
  exact .ite hw (.ite (.ite hw (.posEnable hw)) (.posStop hw))

theorem State.keptOut.execPosEnable {r : Req} {n : PosId} {v : Word} (h : s.kept q t) : s.keptOut q (execPosEnable r n v t) :=
  .regCmd h (fun _ hu => (.posCfgWrite hu))

theorem State.keptOut.execPosDisable {r : Req} {n : PosId} {v : Word} (h : s.kept q t) : s.keptOut q (execPosDisable r n v t) :=
  .regCmd h (fun _ hu => (.posCfgWrite hu))

theorem State.kept.posDivide {n : PosId} {fwd : Bool} (h : s.kept q t) : s.kept q (t.posDivide n fwd) := .modPos h

theorem State.kept.posDirection {n : PosId} {fwd : Bool} (h : s.kept q t) : s.kept q (t.posDirection n fwd) :=
  .ite (.raiseEv (.setLv (.setFld (.modPos h)))) (.modPos h)

theorem State.kept.posStep {n : PosId} {fwd : Bool} (h : s.kept q t) : s.kept q (t.posStep n fwd) :=
  .posDivide (.posDirection (.modPos h))

theorem State.kept.posMove {n : PosId} {w : Word} (h : s.kept q t) : s.kept q (t.posMove n w) := .ite (.modPos h) (.posPut (.modPos h))

theorem State.kept.posQerr {n : PosId} (h : s.kept q t) : s.kept q (t.posQerr n) := .posValid (.raiseEv (.bump (.raiseFld (.modPos h))))

theorem State.kept.posUndo {n : PosId} (h : s.kept q t) : s.kept q (t.posUndo n) := by
  unfold State.posUndo
  split
  · exact .ite (.ite (.ite (.modPos h) (.posPut (.modPos h))) (.beside (.relv (.setFld (.ite (.modPos h) (.posPut (.modPos h))))) rfl)) h
  · exact h

theorem State.kept.posKeep {n : PosId} (h : s.kept q t) : s.kept q (t.posKeep n) := .ite h (.modPos h)

theorem State.kept.posLevels {n : PosId} {lv : EncLv} (h : s.kept q t) : s.kept q (t.posLevels n lv) := by
  unfold State.posLevels
  extract_lets +onlyGivenNames u
  have hu : s.kept q u := .modPos h
  clear_value u
  exact .ite (.modPos hu) (.ite hu (.ite (.modPos (.ite hu (.posKeep (.posUndo hu)))) (.ite (.posQerr (.modPos (.ite hu (.posKeep
    (.posUndo hu))))) (.ite (.posStep (.posMove (.modPos (.ite hu (.posKeep (.posUndo hu)))))) (.modPos (.ite hu (.posKeep (.posUndo
    hu))))))))

theorem State.keptOut.execQuadEdge {n : PosId} {at_ : EncAt} {lv : EncLv} (h : s.kept q t) : s.keptOut q (execQuadEdge n at_ lv t) := by
  unfold Machine.execQuadEdge
  split
  · exact .next (.modPos h)
  · exact .ite (.next (.posLevels (.modPos h))) (.next h)

theorem State.kept.posFilter {n : PosId} (h : s.kept q t) : s.kept q (t.posFilter n) := .ite (.modPos h) (.posLevels (.modPos h))

theorem State.kept.posCheck {n : PosId} {d : Int} {fwd0 fwd : Bool} (h : s.kept q t) : s.kept q (t.posCheck n d fwd0 fwd) :=
  .ite (.raiseEv (.bump (.raiseFld h))) h

theorem State.kept.posIndex {n : PosId} (h : s.kept q t) : s.kept q (t.posIndex n) := by
  unfold State.posIndex
  extract_lets +onlyGivenNames p
  extract_lets +onlyGivenNames qerr
  extract_lets +onlyGivenNames cleared
  extract_lets +onlyGivenNames fwd
  extract_lets +onlyGivenNames u
  have hu : s.kept q u := .setReg h
  clear_value u
  extract_lets +onlyGivenNames v
  have hv : s.kept q v := .raiseEv (.setFld hu)
  clear_value v
  extract_lets +onlyGivenNames w
  have hw : s.kept q w := by
    unfold w
    split
    · exact .ite (.setReg hv) (.posCheck (.setReg hv))
    · exact hv
  clear_value w
  extract_lets +onlyGivenNames zero
  extract_lets +onlyGivenNames x
  have hx : s.kept q x := .modPos hw
  clear_value x
  exact .posValid hx

theorem State.keptOut.execIndexEvent {n : PosId} (h : s.kept q t) : s.keptOut q (execIndexEvent n t) :=
  .next (.ite (.defer h) (.ite (.posIndex h) h))

theorem State.kept.posTick {n : PosId} (h : s.kept q t) : s.kept q (t.posTick n) := by
  unfold State.posTick
  extract_lets +onlyGivenNames u
  have hu : s.kept q u := .modPos h
  clear_value u
  extract_lets +onlyGivenNames v
  have hv : s.kept q v := .ite (.posPut (.modPos hu)) hu
  clear_value v
  extract_lets +onlyGivenNames w
  have hw : s.kept q w := by
    unfold w
    split
    · exact .ite (.modPos (.setFld hv)) hv
    · exact hv
  clear_value w
  exact .posFilter hw

theorem State.kept.posPreset {n : PosId} {v : Word} (h : s.kept q t) : s.kept q (t.posPreset n v) := .modPos (.mark (.posPut h))

theorem State.keptOut.execPosPreset {r : Req} {n : PosId} {v : Word} (h : s.kept q t) : s.keptOut q (execPosPreset r n v t) :=
  .regCmd h (fun _ hu => (.posPreset hu))

theorem State.kept.posDivnmWrite {n : PosId} {v : Word} (h : s.kept q t) : s.kept q (t.posDivnmWrite n v) := .ite (.bump h) (.setReg h)

theorem State.keptOut.execPosDivnmWrite {r : Req} {n : PosId} {v : Word} (h : s.kept q t) : s.keptOut q (execPosDivnmWrite r n v t) :=
  .regCmd h (fun _ hu => (.posDivnmWrite hu))

theorem State.keptOut.execProbeEdge {n : PosId} {e : PrbEdge} (h : s.kept q t) : s.keptOut q (execProbeEdge n e t) :=
  .ite (.next (.raiseEv (.raiseFld (.ite (.raiseFld (.setReg (.setReg (.setReg h)))) (.setReg (.setReg (.setReg h))))))) (.next h)

theorem State.kept.ssiRequest {n : PosId} (h : s.kept q t) : s.kept q (t.ssiRequest n) :=
  .ite h (.ite (.bump h) (.sched (.sched (.modPos (.setFld (.draw h))))))

theorem State.keptOut.execSsiBusyWrite {r : Req} {n : PosId} (h : s.kept q t) : s.keptOut q (execSsiBusyWrite r n t) :=
  .regCmd h (fun _ hu => (.ssiRequest hu))

theorem State.keptOut.execSsiRequestEvent {n : PosId} (h : s.kept q t) : s.keptOut q (execSsiRequestEvent n t) := .next (.ssiRequest h)

theorem State.keptOut.execSsiFrameEnd {n : PosId} {bits : BitVec 40} {low : Bool} (h : s.kept q t) :
    s.keptOut q (execSsiFrameEnd n bits low t) := .ite (.ite (.next (.raiseEv (.posValid (.posPut (.setFld (.modPos (.modPos (.unschedAll
      h)))))))) (.next (.raiseEv (.posValid (.bump (.setFld (.modPos (.modPos (.unschedAll h))))))))) (.next h)

theorem State.keptOut.execMonoflopEnd {n : PosId} (h : s.kept q t) : s.keptOut q (execMonoflopEnd n t) :=
  .ite (.next h) (.next (.modPos (.unsched h)))

theorem State.kept.posTakeover {n : PosId} (h : s.kept q t) : s.kept q (t.posTakeover n) :=
  .ite (.sched (.modPos (.setFld (.unschedAll h)))) h

theorem State.keptOut.execSincosSample {n : PosId} (h : s.kept q t) : s.keptOut q (execSincosSample n t) :=
  .ite (.next (.schedMore (.modPos (.beside h rfl)))) (.next h)

theorem State.keptOut.execSincosResult {n : PosId} (h : s.kept q t) : s.keptOut q (execSincosResult n t) := by
  unfold Machine.execSincosResult
  split
  · exact .ite (.ite (.next (.posValid (.bump (.raiseFld (.modPos h))))) (.ite (.next (.posQerr (.modPos (.draw (.modPos h))))) (.next
      (.ite (.posStep (.posMove (.modPos (.draw (.modPos h))))) (.posMove (.modPos (.draw (.modPos h)))))))) (.next (.modPos h))
  · exact .next h

theorem State.keptOut.execSpeedWindow {n : PosId} (h : s.kept q t) : s.keptOut q (execSpeedWindow n t) :=
  .ite (.next (.defer h)) (.ite (.next (.schedMore (.modPos (.setFld h)))) (.next h))

theorem State.keptOut.execSpeedResult {n : PosId} (h : s.kept q t) : s.keptOut q (execSpeedResult n t) := by
  unfold Machine.execSpeedResult
  split
  · exact .ite (.next (.raiseEv (.raiseData (.setReg (.modPos h))))) (.next (.modPos h))
  · exact .next h

theorem State.kept.posStatWrite {n : PosId} {v : Word} (h : s.kept q t) : s.kept q (t.posStatWrite n v) :=
  .ite (.ssiRequest (.ite (.posValid (.ite (.ite (.mark (.modPos (.setReg h))) (.setReg h)) (.setReg h))) (.ite (.ite (.mark (.modPos
    (.setReg h))) (.setReg h)) (.setReg h)))) (.ite (.posValid (.ite (.ite (.mark (.modPos (.setReg h))) (.setReg h)) (.setReg h))) (.ite
    (.ite (.mark (.modPos (.setReg h))) (.setReg h)) (.setReg h)))

theorem State.keptOut.execPosErrorClear {r : Req} {n : PosId} {v : Word} (h : s.kept q t) : s.keptOut q (execPosErrorClear r n v t) :=
  .regCmd h (fun _ hu => (.posStatWrite hu))

theorem State.kept.posSsiWrite {n : PosId} {v : Word} (h : s.kept q t) : s.kept q (t.posSsiWrite n v) :=
  .setFld (.setFld (.setFld (.writeReg h)))

theorem State.kept.posReady {fresh : Bool} (h : s.kept q t) : s.kept q (t.posReady fresh) :=
  .foldl (fun _ _ hu => (.ite (.posEnable (.modPos (.ite (.modPos hu) hu))) (.modPos (.ite (.modPos hu) hu)))) h
end
end Sys2Proof.Machine
end

