-- ==== Sys2Proof/Proofs/KeptPwm.lean ====
section
/-! PROOF. What the operations of the PWM groups and the matrix keep. -/

namespace Sys2Proof.Machine

section
variable {q : Bool} {s t : State}

theorem State.kept.modPwm {n : GenId} {f : PwmSt → PwmSt} (h : s.kept q t) : s.kept q (t.modPwm n f) := .beside h rfl

theorem State.kept.pwmDrive {n : GenId} {t' : Nat} (h : s.kept q t) : s.kept q (t.pwmDrive n t') :=
  .setLv (.foldl (fun _ _ hu => (.ite hu (.modPwm (.setLv hu)))) h)

theorem State.kept.pwmSafe {n : GenId} {lead : Bool} (h : s.kept q t) : s.kept q (t.pwmSafe n lead) := .pwmDrive (.modPwm h)

theorem State.kept.pwmTurnOn {n : GenId} {b : Bool} {t' : Nat} (h : s.kept q t) : s.kept q (t.pwmTurnOn n b t') :=
  .ite (.setLv (.pwmDrive (.modPwm h))) (.pwmDrive (.modPwm h))

theorem State.kept.pwmNoTrans {n : GenId} (h : s.kept q t) : s.kept q (t.pwmNoTrans n) := .bump (.raiseEv h)

theorem State.kept.pwmDead {n : GenId} {b : Bool} {toff : Nat} (h : s.kept q t) : s.kept q (t.pwmDead n b toff) :=
  .ite (.modPwm h) (.ite (.pwmTurnOn h) (.schedAt (.modPwm h)))

theorem State.kept.pwmFlush {n : GenId} {t' : Nat} (h : s.kept q t) : s.kept q (t.pwmFlush n t') := by
  unfold State.pwmFlush
  split
  · split
    · exact .ite (.pwmTurnOn h) h
    · exact .ite (.pwmTurnOn (.ite h (.pwmNoTrans h))) h
  · exact h

theorem State.kept.pwmFollow {n : GenId} {t' : Nat} (h : s.kept q t) : s.kept q (t.pwmFollow n t') :=
  .ite (.pwmDrive (.modPwm (.modPwm h))) (.pwmDead (.pwmDrive (.modPwm h)))

theorem State.kept.refEdge {n : GenId} {x : Fin 2} {v : Bool} {t' : Nat} (h : s.kept q t) : s.kept q (t.refEdge n x v t') :=
  .ite h (.ite (.modPwm (.pwmFlush h)) (.ite (.pwmDrive (.modPwm (.modPwm (.pwmFlush h)))) (.ite (.pwmDead (.pwmDrive (.modPwm (.modPwm
    (.pwmFlush h))))) (.modPwm (.pwmFlush h)))))

theorem State.kept.pwmArm {n : GenId} {x : Fin 2} (h : s.kept q t) : s.kept q (t.pwmArm n x) := by
  unfold State.pwmArm
  extract_lets +onlyGivenNames g
  extract_lets +onlyGivenNames c
  refine .ite ?_ ?_
  · split
    · exact .schedAt h
    · exact .unsched h
  · exact .unsched h

theorem State.kept.pwmArmTrg {n : GenId} {k : Fin 2} (h : s.kept q t) : s.kept q (t.pwmArmTrg n k) := by
  unfold State.pwmArmTrg
  extract_lets +onlyGivenNames g
  extract_lets +onlyGivenNames c
  refine .ite ?_ ?_
  · split
    · exact .schedAt h
    · exact .unsched h
  · exact .unsched h

theorem State.kept.pwmArmAll {n : GenId} (h : s.kept q t) : s.kept q (t.pwmArmAll n) := .pwmArmTrg (.pwmArmTrg (.pwmArm (.pwmArm h)))

theorem State.kept.pwmFire {n : GenId} {x : Fin 2} {lvl : Bool} {t' : Nat} (h : s.kept q t) : s.kept q (t.pwmFire n x lvl t') :=
  .refEdge (.modPwm h)

theorem State.kept.pwmSegment {n : GenId} {fixed : Bool} (h : s.kept q t) : s.kept q (t.pwmSegment n fixed) := .pwmArmAll (.modPwm h)

theorem State.keptOut.execPwmCompareAction {n : GenId} {b : Bool} (h : s.kept q t) : s.keptOut q (execPwmCompareAction n b t) := by
  unfold Machine.execPwmCompareAction
  extract_lets +onlyGivenNames x
  extract_lets +onlyGivenNames g
  refine .ite ?_ ?_
  · split
    · exact .next (.pwmFire (.unsched h))
    · exact .next h
  · exact .next h

theorem State.keptOut.execPwmTriggerCompare {n : GenId} {k : Fin 2} (h : s.kept q t) : s.keptOut q (execPwmTriggerCompare n k t) :=
  .ite (.next (.raiseEv (.modPwm (.unsched h)))) (.next h)

theorem State.kept.pwmTake {n : GenId} (h : s.kept q t) : s.kept q (t.pwmTake n) := by
  unfold State.pwmTake
  extract_lets +onlyGivenNames d
  extract_lets +onlyGivenNames trg
  extract_lets +onlyGivenNames u
  have hu : s.kept q u := h
  clear_value u
  extract_lets +onlyGivenNames v
  have hv : s.kept q v := .setReg h
  clear_value v
  extract_lets +onlyGivenNames w
  have hw : s.kept q w := .setReg hv
  clear_value w
  extract_lets +onlyGivenNames x
  have hx : s.kept q x := .setReg hw
  clear_value x
  extract_lets +onlyGivenNames y
  have hy : s.kept q y := .modPwm hx
  clear_value y
  split
  · exact .ite (.pwmDead hy) hy
  · exact hy

theorem State.kept.pwmHalt {n : GenId} {held : Nat × Bool} (h : s.kept q t) : s.kept q (t.pwmHalt n held) :=
  .unschedAll (.setFld (.setFld (.modPwm h)))

theorem State.kept.pwmBegin {n : GenId} {phased : Bool} (h : s.kept q t) : s.kept q (t.pwmBegin n phased) :=
  .ite (.mark (.pwmHalt h)) (.ite (.schedAt (.pwmSegment (.unschedAll (.setFld (.setFld (.modPwm h)))))) (.ite (.schedAt (.pwmSegment
    (.unschedAll (.setFld (.setFld (.modPwm h)))))) (.schedAt (.schedAt (.pwmSegment (.unschedAll (.setFld (.setFld (.modPwm h)))))))))

theorem State.kept.pwmEffect {n : GenId} (h : s.kept q t) : s.kept q (t.pwmEffect n) :=
  .ite (.ite (.pwmBegin h) (.ite (.pwmSegment h) (.pwmArmAll h))) h

theorem State.kept.pwmCopy {n : GenId} (h : s.kept q t) : s.kept q (t.pwmCopy n) := .pwmEffect (.pwmTake h)

theorem State.kept.setGrpPend {k : Nat} {b : Bool} (h : s.kept q t) : s.kept q (t.setGrpPend k b) := .setReg h

theorem State.kept.grpLoad {k : Nat} (h : s.kept q t) : s.kept q (t.grpLoad k) := .setGrpPend (.foldl (fun _ _ hu => (.pwmCopy hu)) h)

theorem State.kept.grpStrobe {k : Nat} (h : s.kept q t) : s.kept q (t.grpStrobe k) := by
  unfold State.grpStrobe
  split
  · exact h
  · exact .ite (.foldl (fun _ _ hu => (.pwmCopy hu)) h) (.ite (.foldl (fun _ _ hu => (.ite (.pwmCopy (.modPwm hu)) (.modPwm hu))) (.ite
      (.bump h) h)) (.ite (.grpLoad (.setGrpPend (.ite (.bump h) h))) (.setGrpPend (.ite (.bump h) h))))

theorem State.kept.loadAll {mask : Nat} (h : s.kept q t) : s.kept q (t.loadAll mask) := .ite h (.beside h rfl)

theorem State.kept.strobeAll (h : s.kept q t) : s.kept q t.strobeAll :=
  .foldl (fun _ _ hu => (.ite (.grpStrobe (.mark hu)) hu)) (.beside h rfl)

theorem State.kept.ownedBits {r : Req} {own : Nat → Tenant} {v : Word} (h : s.kept q t) : s.kept q (t.ownedBits r own v).2 :=
  .ite (.foreign h) h

theorem State.kept.loadAllWrite {r : Req} {v : Word} (h : s.kept q t) : s.kept q (t.loadAllWrite r v) := .loadAll (.ownedBits h)

theorem State.keptOut.execPwmLoadall {r : Req} {v : Word} (h : s.kept q t) : s.keptOut q (execPwmLoadall r v t) :=
  .regCmd h (fun _ hu => (.loadAllWrite hu))

theorem State.keptOut.execLoadallStrobe {_k : Fin 8} {w : Word} (h : s.kept q t) : s.keptOut q (execLoadallStrobe _k w t) :=
  .next (.loadAll h)

theorem State.kept.pwmRelease {n : GenId} (h : s.kept q t) : s.kept q (t.pwmRelease n) :=
  .ite (.pwmFollow (.ite (.foldl (fun _ _ hu => (.ite (.ite (.pwmFollow (.modPwm hu)) (.modPwm hu)) hu)) (.setFld h)) (.setFld h)))
    (.pwmDrive (.ite (.foldl (fun _ _ hu => (.ite (.ite (.pwmFollow (.modPwm hu)) (.modPwm hu)) hu)) (.setFld h)) (.setFld h)))

theorem State.kept.pwmActs {n : GenId} {fixed : Bool} (h : s.kept q t) : s.kept q (t.pwmActs n fixed) := by
  unfold State.pwmActs
  extract_lets +onlyGivenNames u
  have hu : s.kept q u := by
    refine .foldl (fun _ _ hu => ?_) h
    extract_lets +onlyGivenNames g
    split
    · exact .pwmFire hu
    · exact .refEdge hu
    · exact hu
  clear_value u
  exact .pwmArmAll hu

theorem State.kept.pwmFirst {n : GenId} (h : s.kept q t) : s.kept q (t.pwmFirst n) := by
  unfold State.pwmFirst
  split
  · exact h
  · exact .ite (.pwmSafe (.modPwm h)) (.ite (.pwmRelease (.ite (.pwmFollow (.pwmActs (.modPwm h))) (.pwmActs (.modPwm h)))) (.pwmActs
      (.modPwm h)))

theorem State.kept.pwmFirstAll (h : s.kept q t) : s.kept q t.pwmFirstAll := .foldl (fun _ _ hu => (.pwmFirst hu)) h

theorem State.kept.pwmPeriod {n : GenId} {phased : Bool} (h : s.kept q t) : s.kept q (t.pwmPeriod n phased) := by
  unfold State.pwmPeriod
  extract_lets +onlyGivenNames k
  extract_lets +onlyGivenNames u
  have hu : s.kept q u := .ite (.setGrpPend (.foldl (fun _ _ hv => (.ite (.pwmTake hv) (.pwmCopy hv))) h)) h
  clear_value u
  extract_lets +onlyGivenNames v
  have hv : s.kept q v := .ite h (.ite (.pwmTake (.modPwm hu)) hu)
  clear_value v
  extract_lets +onlyGivenNames again
  extract_lets +onlyGivenNames w
  have hw : s.kept q w := .pwmBegin hv
  clear_value w
  exact .ite (.raiseEv hw) hw

theorem State.kept.pwmLast {n : GenId} (h : s.kept q t) : s.kept q (t.pwmLast n) := .setFld h

theorem State.keptOut.execPwmPeriodStart {n : GenId} (h : s.kept q t) : s.keptOut q (execPwmPeriodStart n t) :=
  .ite (.next (.pwmPeriod (.ite (.pwmLast h) h))) (.next h)

theorem State.keptOut.execPwmPeriodMiddle {n : GenId} (h : s.kept q t) : s.keptOut q (execPwmPeriodMiddle n t) :=
  .ite (.next (.ite (.grpLoad (.ite (.pwmSegment (.modPwm (.raiseEv (.unsched h)))) (.raiseEv (.unsched h)))) (.ite (.pwmSegment (.modPwm
    (.raiseEv (.unsched h)))) (.raiseEv (.unsched h))))) (.next h)

theorem State.kept.pwmStartGen {n : GenId} (h : s.kept q t) : s.kept q (t.pwmStartGen n) := .ite (.pwmPeriod h) h

theorem State.kept.pwmStartWrite {r : Req} {v : Word} (h : s.kept q t) : s.kept q (t.pwmStartWrite r v) :=
  .foldl (fun _ _ hu => (.ite (.pwmStartGen hu) hu)) (.ownedBits h)

theorem State.keptOut.execPwmStart {r : Req} {v : Word} (h : s.kept q t) : s.keptOut q (execPwmStart r v t) :=
  .regCmd h (fun _ hu => (.pwmStartWrite hu))

theorem State.keptOut.execPwmSync {n : GenId} (h : s.kept q t) : s.keptOut q (execPwmSync n t) :=
  .ite (.next (.pwmPeriod (.ite (.pwmLast h) h))) (.next h)

theorem State.kept.pwmEnd {n : GenId} {k : Nat} (h : s.kept q t) : s.kept q (t.pwmEnd n k) := .schedAt (.setFld (.modPwm h))

theorem State.kept.pwmWait {n : GenId} (h : s.kept q t) : s.kept q (t.pwmWait n) := .pwmDrive (.modPwm (.setFld h))

theorem State.keptOut.execPeriodEnd {n : GenId} (h : s.kept q t) : s.keptOut q (execPeriodEnd n t) :=
  .ite (.ite (.next (.modPwm h)) (.next (.pwmEnd (.modPwm h)))) (.next h)

theorem State.keptOut.execPeriodMax {n : GenId} (h : s.kept q t) : s.keptOut q (execPeriodMax n t) :=
  .ite (.next (.pwmEnd (.bump (.raiseEv h)))) (.next h)

theorem State.keptOut.execPstart {n : GenId} (h : s.kept q t) : s.keptOut q (execPstart n t) := by
  unfold Machine.execPstart
  refine .ite ?_ ?_
  · extract_lets +onlyGivenNames u
    have hu : s.kept q u := .mark (.modPwm h)
    clear_value u
    extract_lets +onlyGivenNames g
    extract_lets +onlyGivenNames k
    refine .next ?_
    split
    · exact .ite (.pwmEnd hu) hu
    · exact hu
  · exact .next h

theorem State.keptOut.execPhaseEvent {n : GenId} (h : s.kept q t) : s.keptOut q (execPhaseEvent n t) :=
  .next (.ite (.raiseEv (.unsched h)) h)

theorem State.kept.pwmOnDue {n : GenId} {b : Bool} {c : Instr} (h : s.kept q t) : s.kept q (t.pwmOnDue n b c) := by
  unfold State.pwmOnDue
  split
  · split
    · exact .ite h (.pwmTurnOn (.unsched h))
    · exact h
  · exact h

theorem State.keptOut.execDeadTimeEnd {n : GenId} {b : Bool} (h : s.kept q t) : s.keptOut q (execDeadTimeEnd n b t) := .next (.pwmOnDue h)

theorem State.keptOut.execAdaptiveTurnOn {n : GenId} {b : Bool} (h : s.kept q t) : s.keptOut q (execAdaptiveTurnOn n b t) :=
  .next (.pwmOnDue h)

theorem State.keptOut.execTransitionComplete {n : GenId} (h : s.kept q t) : s.keptOut q (execTransitionComplete n t) := by
  unfold Machine.execTransitionComplete
  split
  · exact .ite (.next (.schedAt (.modPwm h))) (.next h)
  · exact .next h

theorem State.keptOut.execDtmaxExpiry {n : GenId} (h : s.kept q t) : s.keptOut q (execDtmaxExpiry n t) := by
  unfold Machine.execDtmaxExpiry
  split
  · exact .ite (.next (.pwmTurnOn (.ite h (.pwmNoTrans h)))) (.next h)
  · exact .next h

theorem State.kept.pwmTick {n : GenId} (h : s.kept q t) : s.kept q (t.pwmTick n) := .ite (.emit h) h

theorem State.kept.pwmEnds (h : s.kept q t) : s.kept q t.pwmEnds := .foldl (fun _ _ hu => (.ite (.emit hu) hu)) h

theorem State.kept.pwmWaits (h : s.kept q t) : s.kept q t.pwmWaits := .foldl (fun _ _ hu => (.ite (.pwmWait hu) hu)) h

theorem State.kept.pwmLate {n : GenId} (h : s.kept q t) : s.kept q (t.pwmLate n) := .ite (.emit (.ite (.emit h) h)) (.ite (.emit h) h)

theorem State.keptOut.execPwmTrip {n : GenId} {k : Fin 4} (h : s.kept q t) : s.keptOut q (execPwmTrip n k t) :=
  .ite (.ite (.next (.pwmSafe (.raiseFld (.beside h rfl)))) (.next (.beside h rfl))) (.next h)

theorem State.kept.tripOver {n : GenId} (h : s.kept q t) : s.kept q (t.tripOver n) := .ite h (.ite (.pwmRelease h) (.pwmDrive h))

theorem State.kept.tripClear {n : GenId} {v : Word} (h : s.kept q t) : s.kept q (t.tripClear n v) := .tripOver (.setReg h)

theorem State.kept.pwmOwned {r : Req} {n : GenId} {f : State → State} (h : s.kept q t) (hf : ∀ u, s.kept q u → s.kept q (f u)) :
    s.kept q (t.pwmOwned r n f) := .ite (hf _ h) (.foreign h)

theorem State.keptOut.execTrippedClear {r : Req} {n : GenId} {v : Word} (h : s.kept q t) : s.keptOut q (execTrippedClear r n v t) :=
  .regCmd h (fun _ hu => (.pwmOwned hu (fun _ hv => (.tripClear hv))))

theorem State.keptOut.execComparePortWrite {n : GenId} {b : Bool} {w : Word} (h : s.kept q t) :
    s.keptOut q (execComparePortWrite n b w t) := .ite (.next (.mark (.setReg (.ite (.bump h) h)))) (.next h)

theorem State.kept.shadowWrite {rn : RegName} {n : GenId} {v : Word} (h : s.kept q t) : s.kept q (t.shadowWrite rn n v) :=
  .ite (.bump h) (.ite (.setFld (.mark (.writeReg h))) (.mark (.writeReg h)))

theorem State.kept.pwmCfgGoverns {n : GenId} (h : s.kept q t) : s.kept q (t.pwmCfgGoverns n) :=
  .ite (.ite (.raiseEv (.pwmBegin h)) h) (.ite (.ite (.grpLoad (.pwmBegin h)) (.pwmBegin h)) h)

theorem State.kept.pwmCfgWrite {n : GenId} {v : Word} (h : s.kept q t) : s.kept q (t.pwmCfgWrite n v) := by
  unfold State.pwmCfgWrite
  extract_lets +onlyGivenNames old
  extract_lets +onlyGivenNames u
  have hu : s.kept q u := .writeReg h
  clear_value u
  extract_lets +onlyGivenNames v
  have hv : s.kept q v := .ite (.setFld hu) hu
  clear_value v
  extract_lets +onlyGivenNames w
  have hw : s.kept q w := .ite (.setFld hv) hv
  clear_value w
  extract_lets +onlyGivenNames x
  have hx : s.kept q x := .ite (.setFld hw) hw
  clear_value x
  extract_lets +onlyGivenNames y
  have hy : s.kept q y := .ite hx (.setFld hx)
  clear_value y
  exact .pwmCfgGoverns hy

theorem State.kept.pwmSafeWrite {n : GenId} {v : Word} (h : s.kept q t) : s.kept q (t.pwmSafeWrite n v) :=
  .ite (.setFld (.ite (.setFld (.writeReg h)) (.writeReg h))) (.ite (.setFld (.writeReg h)) (.writeReg h))

theorem State.kept.dlAdvance (h : s.kept q t) : s.kept q t.dlAdvance := .setFld h

theorem State.keptOut.execDelayLineReplace (h : s.kept q t) : s.keptOut q (execDelayLineReplace t) := by
  unfold Machine.execDelayLineReplace
  refine .ite ?_ ?_
  · refine .next ?_
    extract_lets +onlyGivenNames u
    have hu : s.kept q u := .dlAdvance (.count h)
    clear_value u
    exact .beside hu rfl
  · exact .next h

theorem State.keptOut.execDelayLineDue (h : s.kept q t) : s.keptOut q (execDelayLineDue t) := by
  unfold Machine.execDelayLineDue
  refine .ite ?_ ?_
  · extract_lets +onlyGivenNames u
    have hu : s.kept q u := .ite (.bump (.dlAdvance h)) h
    clear_value u
    extract_lets +onlyGivenNames v
    have hv : s.kept q v := .sched hu
    clear_value v
    extract_lets +onlyGivenNames w
    have hw : s.kept q w := .beside hv rfl
    clear_value w
    exact .next (.ite (.emit hw) hw)
  · exact .next h

theorem State.keptOut.execDelayLineFail (h : s.kept q t) : s.keptOut q (execDelayLineFail t) := by
  unfold Machine.execDelayLineFail
  refine .ite ?_ ?_
  · refine .next ?_
    extract_lets +onlyGivenNames u
    have hu : s.kept q u := .unsched (.setFld h)
    clear_value u
    exact .beside hu rfl
  · exact .next h

theorem State.kept.pwmForceAll (h : s.kept q t) : s.kept q t.pwmForceAll := .foldl (fun _ _ hu => (.pwmSafe hu)) h

theorem State.kept.pwmStop (h : s.kept q t) : s.kept q t.pwmStop := by
  unfold State.pwmStop
  extract_lets +onlyGivenNames u
  have hu : s.kept q u := .foldl (fun _ _ hv => (.pwmSafe (.modPwm (.pwmHalt hv)))) h
  clear_value u
  extract_lets +onlyGivenNames v
  have hv : s.kept q v := .unsched hu
  clear_value v
  exact .beside hv rfl

theorem State.kept.pwmReady (h : s.kept q t) : s.kept q t.pwmReady := .ite (.pwmForceAll h) (.sched (.pwmForceAll h))

theorem State.kept.takeEnables (h : s.kept q t) : s.kept q t.takeEnables := .beside h rfl

theorem State.kept.emitOnce {c : Instr} (h : s.kept q t) : s.kept q (t.emitOnce c) := .ite h (.emit h)

theorem State.kept.capArrive {n : TmrId} {c : Fin 4} {rising : Bool} {src : Option Nat} (h : s.kept q t) :
    s.kept q (t.capArrive n c rising src) := by
  unfold State.capArrive
  refine .ite ?_ ?_
  · split
    · exact .ite (.draw (.emit h)) (.ite (.emit h) (.emit h))
    · exact .emit h
  · exact h

theorem State.kept.edgeArrive {d : Nat} {rising : Bool} {src : Option Nat} (h : s.kept q t) : s.kept q (t.edgeArrive d rising src) :=
  .ite (.ite (.evcRaise h) h) (.ite (.capArrive h) (.ite (.schedMore h) h))

theorem State.kept.eventArrive {d : Nat} {src : Option Nat} (h : s.kept q t) : s.kept q (t.eventArrive d src) := by
  unfold State.eventArrive
  split
  · exact .edgeArrive h
  · exact .ite (.emit h) (.ite (.emit h) (.ite (.emit h) (.ite (.emit h) (.ite (.emit h) (.ite (.emit h) (.emit h))))))
  · exact h

theorem State.kept.levelArrive {d : Nat} {on lv : Bool} {src : Option Nat} (h : s.kept q t) : s.kept q (t.levelArrive d on lv src) := by
  unfold State.levelArrive
  extract_lets +onlyGivenNames b
  refine .ite ?_ ?_
  · exact h
  · extract_lets +onlyGivenNames part u
    have hu : s.kept q u := .beside h rfl
    clear_value u
    split
    · exact .ite (.edgeArrive hu) hu
    · refine .ite ?_ ?_
      · exact .cmpSelChange hu
      · refine .ite ?_ ?_
        · exact .emit hu
        · extract_lets +onlyGivenNames n
          split
          · exact .ite (.emitOnce hu) hu
          · exact .ite (.mark hu) hu
          · exact .ite (.emit hu) (.tripOver hu)
    · exact hu

theorem State.kept.dataArrive {d : Nat} {w : Word} (h : s.kept q t) : s.kept q (t.dataArrive d w) := by
  unfold State.dataArrive
  extract_lets +onlyGivenNames part u
  have hu : s.kept q u := .beside h rfl
  clear_value u
  extract_lets +onlyGivenNames fresh
  have hfresh : ∀ u, s.kept q u → s.kept q (fresh u) := fun _ hv => .beside hv rfl
  clear_value fresh
  refine .ite ?_ ?_
  · exact .emit hu
  · refine .ite ?_ ?_
    · exact .emit hu
    · exact .ite (.emit hu) (.ite (.emit hu) (.ite (.ite (.emitOnce (hfresh _ hu)) (hfresh _ hu)) (.ite (.ite (.emitOnce (.leRefresh
        (hfresh _ hu))) (.leRefresh (hfresh _ hu))) (.ite (.emitOnce (.leRefresh (hfresh _ hu))) (.ite (.ite (.emitOnce (.leRefresh
        (hfresh _ hu))) (.leRefresh (hfresh _ hu))) (.leRefresh (hfresh _ hu)))))))

theorem State.kept.direct {evs nws : List Nat} {chs : List (Nat × Bool)} {r : Route} (h : s.kept q t) :
    s.kept q (t.direct evs nws chs r) := by
  unfold State.direct
  refine .ite ?_ ?_
  · exact h
  · extract_lets +onlyGivenNames k
    extract_lets +onlyGivenNames on
    split
    · exact .ite (.eventArrive h) h
    · exact .foldl (fun _ _ hu => (.levelArrive hu)) h
    · exact .ite (.dataArrive h) h
    · exact h

theorem State.kept.settle (h : s.kept q t) : s.kept q t.settle := .foldl (fun _ _ hu => (.direct hu)) (.beside h rfl)

theorem State.kept.routeGive {r : Route} {on : Bool} {t' : Taken} (h : s.kept q t) : s.kept q (t.routeGive r on t') := by
  unfold State.routeGive
  split
  · refine .ite ?_ ?_
    · exact h
    · split
      · exact .levelArrive h
      · exact h
  · exact .ite (.eventArrive h) h
  · exact .levelArrive h
  · exact .ite (.dataArrive h) h
  · exact .levelArrive (.ite (.sched (.beside h rfl)) (.ite (.beside h rfl) h))

theorem State.kept.swDue (h : s.kept q t) : s.kept q t.swDue := .ite (.foldl (fun _ _ hu => (.raiseEv hu)) (.beside h rfl)) h

theorem State.kept.matrixTick (h : s.kept q t) : s.kept q t.matrixTick :=
  .foldl (fun _ _ hu => (.routeGive hu)) (.swDue (.takeEnables (.beside h rfl)))

theorem State.keptOut.execPulseStretchEnd {d : Fin 1024} (h : s.kept q t) : s.keptOut q (execPulseStretchEnd d t) := by
  unfold Machine.execPulseStretchEnd
  extract_lets +onlyGivenNames part u
  have hu : s.kept q u := .beside h rfl
  clear_value u
  extract_lets +onlyGivenNames v
  have hv : s.kept q v := .unsched hu
  clear_value v
  split
  · exact .next (.ite (.levelArrive hv) hv)
  · exact .next hv

theorem State.kept.swRaise {r : Req} {j : Fin 2} {v : Word} (h : s.kept q t) : s.kept q (t.swRaise r j v) :=
  .ite (.swDue (.beside (.ite (.bump h) h) rfl)) (.ite (.bump h) h)

theorem State.keptOut.execSwEventRaise {r : Req} {j : Fin 2} {v : Word} (h : s.kept q t) : s.keptOut q (execSwEventRaise r j v t) :=
  .regCmd h (fun _ hu => (.swRaise hu))

theorem State.kept.renApply {r : Req} {j : Fin 32} {v cur : Word} (h : s.kept q t) : s.kept q (t.renApply r j v cur) :=
  .beside (.setReg (.ite (.bump h) h)) rfl

theorem State.kept.renWrite {r : Req} {j : Fin 32} {v : Word} (h : s.kept q t) : s.kept q (t.renWrite r j v) := by
  unfold State.renWrite
  split
  · exact .ite (.renApply h) (.ite h (.renApply (.ite (.unbump h) h)))
  · exact .renApply h

theorem State.keptOut.execRouteEnableWrite {r : Req} {j : Fin 32} {v : Word} (h : s.kept q t) :
    s.keptOut q (execRouteEnableWrite r j v t) := .regCmd h (fun _ hu => (.renWrite hu))

theorem State.kept.matrixStart (h : s.kept q t) : s.kept q t.matrixStart := .takeEnables (.setLv (.beside h rfl))

theorem State.kept.matrixReady (h : s.kept q t) : s.kept q t.matrixReady := .matrixStart (.foldl (fun _ _ hu => (.setReg hu)) h)

theorem State.kept.selReady (h : s.kept q t) : s.kept q t.selReady := .foldl (fun _ _ hu => (.ite (.beside hu rfl) hu)) h

theorem State.kept.matrixStop (h : s.kept q t) : s.kept q t.matrixStop := .beside h rfl
end
end Sys2Proof.Machine
end

