-- ==== Sys2Proof/Proofs/KeptModes.lean ====
section
/-! PROOF. What the changes of mode, the exceptions and the arithmetic instructions keep. -/

namespace Sys2Proof.Machine

section
variable {q : Bool} {s t : State}

theorem State.kept.sampleSafeN (h : s.kept q t) : s.kept q t.sampleSafeN := .ite (.setFld h) h

theorem State.kept.modTwin {f : TwinSt → TwinSt} (h : s.kept q t) : s.kept q (t.modTwin f) := .beside h rfl

theorem State.kept.twSend {ty : Nat} {spec data : List Byte} (h : s.kept q t) : s.kept q (t.twSend ty spec data) := .ite (.modTwin h) h

theorem State.kept.setMode {m : Mode} (h : s.kept q t) : s.kept q (t.setMode m) := .evcRaise (.setLv (.mark (.beside h rfl)))

theorem State.kept.setOwn {b : Bool} (h : s.kept q t) : s.kept q (t.setOwn b) := .setLv (.setFld h)

theorem State.kept.faultOut (h : s.kept q t) : s.kept q t.faultOut := .setFld h

theorem State.kept.journal {cause sub : Nat} {p : Option Pair} (h : s.kept q t) : s.kept q (t.journal cause sub p) := .beside h rfl

theorem State.kept.allLe {f : State → LeId → State} (h : s.kept q t) (hf : ∀ u x, s.kept q u → s.kept q (f u x)) :
    s.kept q (t.allLe f) := .foldl (fun _ _ hu => (hf _ _ hu)) h

theorem State.kept.domainStop (h : s.kept q t) : s.kept q t.domainStop :=
  .allLe (.foldl (fun _ _ hu => (.posStop hu)) (.matrixStop (.pwmStop (.cmpStop (.adcStop (.todStop (.foldl (fun _ _ hu => (.tmrStop hu))
    h))))))) (fun _ _ hu => (.leClear hu))

theorem State.kept.stationStop (h : s.kept q t) : s.kept q t.stationStop := by
  unfold State.stationStop
  extract_lets +onlyGivenNames u
  have hu : s.kept q u := .unsched h
  clear_value u
  exact .beside hu rfl

theorem State.kept.runEnd (h : s.kept q t) : s.kept q t.runEnd := by
  unfold State.runEnd
  exact .modTwin (.unsched (.unsched (.unsched (.setFld (.setFld (.stationStop (.pwmForceAll (.allLe h (fun _ _ hu => (.leFreeze
    hu))))))))))

theorem State.kept.domainStart {f : ReadyFrom} (h : s.kept q t) : s.kept q (t.domainStart f) := by
  unfold State.domainStart
  split
  · exact .dacsReady (.selReady (.cmpReady (.matrixReady (.posReady (.pwmReady (.adcReady (.adcFullEntry (.todReady h))))))))
  · exact .dacsReady (.selReady (.cmpReady (.matrixReady (.posReady (.pwmReady (.adcReady (.adcFullEntry (.todReady h))))))))
  · exact .dacsReady (.selReady (.cmpReady (.matrixReady (.posReady (.pwmReady (.adcReady (.adcFromMaint (.todReady h))))))))
  · exact .dacsReady (.selReady (.cmpReady (.matrixStart (.posReady (.pwmReady (.adcFromMaint (.todReady h)))))))
  · exact .dacsReady (.selReady (.cmpReady (.matrixReady (.adcReady h))))
  · exact .dacsReady (.selReady (.cmpReady (.matrixReady (.adcReady h))))

theorem State.kept.enterReady {f : ReadyFrom} (h : s.kept q t) : s.kept q (t.enterReady f) := by
  unfold State.enterReady
  extract_lets +onlyGivenNames u
  have hu : s.kept q u := .runEnd (.setMode h)
  clear_value u
  extract_lets +onlyGivenNames v
  have hv : s.kept q v := .domainStart (.setOwn hu)
  clear_value v
  extract_lets +onlyGivenNames thet
  extract_lets +onlyGivenNames part w
  have hw : s.kept q w := .beside hv rfl
  clear_value w
  extract_lets +onlyGivenNames x
  have hx : s.kept q x := .sched hw
  clear_value x
  extract_lets +onlyGivenNames y
  have hy : s.kept q y := .ite (.sched (.pwmForceAll hx)) hx
  clear_value y
  extract_lets +onlyGivenNames fresh
  extract_lets +onlyGivenNames z
  have hz : s.kept q z := .ite hy (.modTwin hy)
  clear_value z
  exact .ite (.ite (.evcRaise (.beside (.foldl (fun _ _ hu1 => (.sched (.setPair hu1))) hz) rfl)) (.beside (.foldl (fun _ _ hu1 =>
    (.sched (.setPair hu1))) hz) rfl)) hz

theorem State.kept.enterSafeHold {cause sub : Nat} {p : Option Pair} (h : s.kept q t) : s.kept q (t.enterSafeHold cause sub p) := by
  unfold State.enterSafeHold
  extract_lets +onlyGivenNames was
  refine .ite ?_ ?_
  · exact h
  · extract_lets +onlyGivenNames record
    have hrecord : ∀ u, s.kept q u → s.kept q (record u) := fun _ hu => .setFld (.setFld hu)
    clear_value record
    extract_lets +onlyGivenNames hard
    extract_lets +onlyGivenNames u
    have hu : s.kept q u := .ite (.faultOut h) h
    clear_value u
    extract_lets +onlyGivenNames a
    refine .ite ?_ ?_
    · exact .ite (.journal (.ite (hrecord _ hu) hu)) (.ite (hrecord _ hu) hu)
    · extract_lets +onlyGivenNames v
      have hv : s.kept q v := .runEnd (.setMode hu)
      clear_value v
      extract_lets +onlyGivenNames w
      have hw : s.kept q w := .ite (.domainStart hv) hv
      clear_value w
      extract_lets +onlyGivenNames x
      have hx : s.kept q x := .mark (hrecord _ hw)
      clear_value x
      extract_lets +onlyGivenNames part y
      have hy : s.kept q y := .beside hx rfl
      clear_value y
      exact .ite (.journal hy) hy

theorem State.kept.faultHold {sub : Nat} {p : Option Pair} (h : s.kept q t) : s.kept q (t.faultHold sub p) :=
  .sched (.modTwin (.mark (.stationStop (.setFld (.faultOut (.beside h rfl))))))

theorem State.kept.unUnpair (h : s.kept q t) : s.kept q t.unUnpair := .setFld (.beside h rfl)

theorem State.kept.uncorrectable {sub : Nat} {p : Option Pair} (h : s.kept q t) : s.kept q (t.uncorrectable sub p) := by
  unfold State.uncorrectable
  split
  · refine .ite ?_ ?_
    · exact h
    · split
      · exact .modTwin (.unsched (.faultHold h))
      · exact .faultHold h
  · exact .ite h (.ite (.faultHold (.unUnpair h)) (.enterSafeHold h))
  · exact .ite (.beside (.faultOut h) rfl) (.enterSafeHold (.faultOut h))
  · exact .enterSafeHold h
  · exact .enterSafeHold h
  · exact .enterSafeHold h
  · exact .enterSafeHold h
  · exact h

theorem State.kept.toReset (h : s.kept false t) : s.kept false t.toReset := by
  unfold State.toReset
  extract_lets +onlyGivenNames r u
  have hu : s.kept false u := .setFld h
  clear_value u r
  exact .setFld ⟨nofun, nofun, fun c => ⟨SMap.wf_filter _ (hu.canonical c).1, SMap.wf_filter _ (hu.canonical c).2⟩⟩

theorem State.kept.dropCopy (h : s.kept q t) : s.kept q t.dropCopy := .ite (.clearMem h) h

theorem State.kept.discard (h : s.kept false t) : s.kept false t.discard := by
  unfold State.discard
  extract_lets +onlyGivenNames u v r
  have hv : s.kept false v := .clearMem (.clearMem (.setFld (.resetRegs (.dropCopy h))))
  clear_value v r
  exact .moved hv rfl

theorem State.kept.toBlank {vcause : Nat} (h : s.kept false t) : s.kept false (t.toBlank vcause) :=
  .setMode (.setFld (.unsched (.unsched (.discard h))))

theorem State.kept.mismatch {p : Pair} {group : Nat} (h : s.kept q t) : s.kept q (t.mismatch p group) :=
  .uncorrectable (.unsched (.setFld (.setFld h)))

theorem State.kept.compared {p : Pair} {group : Nat} {same : Bool} {body : State → State} (h : s.kept q t) (hbody : ∀ u, s.kept q u →
  s.kept q (body u)) :
    s.kept q (t.compared p group same body) := .ite (hbody _ h) (.mismatch h)

theorem State.kept.both {p : Pair} {f : Copy → Copy} (h : s.kept q t) : s.kept q (t.both p f) := .setPair h

theorem State.kept.modPair {p : Pair} {f : PairSt → PairSt} (h : s.kept q t) : s.kept q (t.modPair p f) := .setPair h

theorem State.kept.clearResv {p : Pair} (h : s.kept q t) : s.kept q (t.clearResv p) := .modPair h

theorem State.kept.eccWord {u' : Nat} (h : s.kept q t) : s.kept q (t.eccWord u').2 := by
  unfold State.eccWord
  extract_lets +onlyGivenNames tcm
  extract_lets +onlyGivenNames p
  split
  · exact h
  · exact .ite (.uncorrectable h) (.uncorrectable h)
  · exact .ite (.bump (.beside h rfl)) (.bump (.beside h rfl))

theorem State.kept.eccRead {a n : Nat} (h : s.kept q t) : s.kept q (t.eccRead a n).2 := .foldlSnd (fun _ _ hu => (.eccWord hu)) h

theorem State.kept.eccWrite {a n : Nat} (h : s.kept q t) : s.kept q (t.eccWrite a n).2 :=
  .foldlSnd (fun _ _ hu => (.iteSnd (.beside hu rfl) (.eccWord hu))) h

theorem State.kept.beat {m : Fin 13} {write load : Bool} {a n : Nat} (h : s.kept q t) : s.kept q (t.beat m write load a n) := by
  unfold State.beat
  extract_lets +onlyGivenNames t'
  refine .foldl (fun _ _ hu => ?_) h
  extract_lets +onlyGivenNames u'
  split
  · exact .beside hu rfl
  · exact hu

theorem State.kept.soundMem {a n : Nat} (h : s.kept q t) : s.kept q (t.soundMem a n).2 := .eccRead h

theorem State.kept.getMem {m : Fin 13} {a n : Nat} (h : s.kept q t) : s.kept q (t.getMem m a n).2 := .soundMem (.beat h)

theorem State.kept.stcUndo {q' : Pair} {r : StcRec} (h : s.kept q t) : s.kept q (t.stcUndo q' r) := .modPair (.setWord h)

theorem State.kept.snoopPair {m : Option Pair} {lo hi : Nat} {q' : Pair} (h : s.kept q t) : s.kept q (t.snoopPair m lo hi q') := by
  unfold State.snoopPair
  extract_lets +onlyGivenNames now
  extract_lets +onlyGivenNames u
  have hu : s.kept q u := by
    unfold u
    split
    · exact .ite (.stcUndo h) h
    · exact h
  clear_value u
  split
  · exact .ite (.modPair hu) hu
  · exact hu

theorem State.kept.snoop {m : Option Pair} {a n : Nat} (h : s.kept q t) : s.kept q (t.snoop m a n) :=
  .foldl (fun _ _ hu => (.ite hu (.snoopPair hu))) h

theorem State.kept.putMem {a : Nat} {bs : List Byte} (h : s.kept q t) : s.kept q (t.putMem a bs) := .setBytes (.snoop (.eccWrite h))

theorem State.kept.setWords {a : Nat} {ws : List Word} (h : s.kept q t) : s.kept q (t.setWords a ws) := by
  induction ws generalizing t a with
  | nil => exact h
  | cons w ws ih => exact ih (.setWord h)

theorem State.kept.takeEntry {p : Pair} {c : Cause} (h : s.kept q t) : s.kept q (t.takeEntry p c) := by
  unfold State.takeEntry
  extract_lets +onlyGivenNames x seq wm wc
  refine .compared h fun _ hu => ?_
  extract_lets +onlyGivenNames a v
  have hv : s.kept q v := .setWords (.snoop (.eccWrite hu))
  clear_value v wm wc
  refine .compared ?_ fun _ hw => .modPair hw
  exact .modPair (.both (.setFld (.setFld hv)))

theorem State.kept.doubleFault {p : Pair} {code : Nat} (h : s.kept q t) : s.kept q (t.doubleFault p code) :=
  .uncorrectable (.setFld (.setFld h))

theorem State.kept.enterFrom {p : Pair} {c : Cause} (h : s.kept q t) : s.kept q (t.enterFrom p c) :=
  .ite (.mismatch h) (.ite (.doubleFault h) (.takeEntry h))

theorem State.kept.takeFp {p : Pair} {e : FpEvent} (h : s.kept q t) : s.kept q (t.takeFp p e) :=
  .compared h (fun _ hu => (.both (.modPair (.enterFrom (.modPair hu)))))

theorem State.kept.enter {p : Pair} {c : Cause} (h : s.kept q t) : s.kept q (t.enter p c) := by
  unfold State.enter
  split
  · exact .takeFp h
  · exact .enterFrom h

theorem State.kept.privAs {p : Pair} {f : Copy → Bool} {body : Bool → State → State} (h : s.kept q t) (hbody : ∀ x0 u, s.kept q u →
  s.kept q (body x0 u)) :
    s.kept q (t.privAs p f body) := .compared h (fun _ hu => (hbody _ _ hu))

theorem State.kept.preciseFault {p : Pair} {code info : Nat} {faddr : Word} (h : s.kept q t) :
    s.kept q (t.preciseFault p code info faddr) := .enter h

theorem State.kept.illegal {p : Pair} {w : Word} (h : s.kept q t) : s.kept q (t.illegal p w) := .preciseFault h

theorem State.kept.privileged {p : Pair} (h : s.kept q t) : s.kept q (t.privileged p) := .preciseFault h

theorem State.kept.takeLate {p : Pair} {l : LateStore} (h : s.kept q t) : s.kept q (t.takeLate p l) :=
  .ite (.enter h) (.enterFrom (.modPair h))

theorem State.kept.switchTid {p : Pair} {t' : Tenant} (h : s.kept q t) : s.kept q (t.switchTid p t') := .ite h (.modPair (.count h))

theorem State.kept.takeRecall {p : Pair} (h : s.kept q t) : s.kept q (t.takeRecall p) :=
  .ite (.enter h) (.switchTid (.both (.takeEntry (.setFld h))))

theorem State.kept.takeHalt {p : Pair} (h : s.kept q t) : s.kept q (t.takeHalt p) := .modPair h

theorem State.kept.awake {p : Pair} (h : s.kept q t) : s.kept q (t.awake p) := .modPair h

theorem State.kept.haltAt {p : Pair} {body : State → State} (h : s.kept q t) (hbody : ∀ u, s.kept q u → s.kept q (body u)) :
    s.kept q (t.haltAt p body) := .ite (.emit (hbody _ (.awake h))) (.takeHalt h)

theorem State.keptOut.issue {p : Pair} {body : State → State} (h : s.kept q t) (hbody : ∀ u, s.kept q u → s.kept q (body u)) :
    s.keptOut q (issue p body t) := by
  unfold Machine.issue
  split
  · exact .next (hbody _ (.awake h))
  · exact .next h
  · exact .next (.takeLate h)
  · exact .next (.takeFp h)
  · exact .next (.takeRecall h)
  · exact .next (.haltAt h hbody)

theorem State.kept.retire {p : Pair} (h : s.kept q t) : s.kept q (t.retire p) := .modPair h

theorem State.kept.compute {p : Pair} {f : Copy → Copy} (h : s.kept q t) : s.kept q (t.compute p f) := .retire (.both h)

theorem State.keptOut.execAdd {p : Pair} {d a b : Greg} (h : s.kept q t) : s.keptOut q (execAdd p d a b t) :=
  .issue h (fun _ hu => (.compute hu))

theorem State.keptOut.execAdc {p : Pair} {d a b : Greg} (h : s.kept q t) : s.keptOut q (execAdc p d a b t) :=
  .issue h (fun _ hu => (.compute hu))

theorem State.keptOut.execSub {p : Pair} {d a b : Greg} (h : s.kept q t) : s.keptOut q (execSub p d a b t) :=
  .issue h (fun _ hu => (.compute hu))

theorem State.keptOut.execSbc {p : Pair} {d a b : Greg} (h : s.kept q t) : s.keptOut q (execSbc p d a b t) :=
  .issue h (fun _ hu => (.compute hu))

theorem State.keptOut.execCmp {p : Pair} {a b : Greg} (h : s.kept q t) : s.keptOut q (execCmp p a b t) :=
  .issue h (fun _ hu => (.compute hu))

theorem State.keptOut.execAddi {p : Pair} {d a : Greg} {imm : BitVec 16} (h : s.kept q t) : s.keptOut q (execAddi p d a imm t) :=
  .issue h (fun _ hu => (.compute hu))

theorem State.keptOut.execCmpi {p : Pair} {a : Greg} {imm : BitVec 16} (h : s.kept q t) : s.keptOut q (execCmpi p a imm t) :=
  .issue h (fun _ hu => (.compute hu))

theorem State.keptOut.execAnd {p : Pair} {d a b : Greg} (h : s.kept q t) : s.keptOut q (execAnd p d a b t) :=
  .issue h (fun _ hu => (.compute hu))

theorem State.keptOut.execOr {p : Pair} {d a b : Greg} (h : s.kept q t) : s.keptOut q (execOr p d a b t) :=
  .issue h (fun _ hu => (.compute hu))

theorem State.keptOut.execXor {p : Pair} {d a b : Greg} (h : s.kept q t) : s.keptOut q (execXor p d a b t) :=
  .issue h (fun _ hu => (.compute hu))

theorem State.keptOut.execAndn {p : Pair} {d a b : Greg} (h : s.kept q t) : s.keptOut q (execAndn p d a b t) :=
  .issue h (fun _ hu => (.compute hu))

theorem State.keptOut.execAndi {p : Pair} {d a : Greg} {imm : BitVec 16} (h : s.kept q t) : s.keptOut q (execAndi p d a imm t) :=
  .issue h (fun _ hu => (.compute hu))

theorem State.keptOut.execOri {p : Pair} {d a : Greg} {imm : BitVec 16} (h : s.kept q t) : s.keptOut q (execOri p d a imm t) :=
  .issue h (fun _ hu => (.compute hu))

theorem State.keptOut.execXori {p : Pair} {d a : Greg} {imm : BitVec 16} (h : s.kept q t) : s.keptOut q (execXori p d a imm t) :=
  .issue h (fun _ hu => (.compute hu))

theorem State.keptOut.execLui {p : Pair} {d : Greg} {imm : BitVec 16} (h : s.kept q t) : s.keptOut q (execLui p d imm t) :=
  .issue h (fun _ hu => (.compute hu))

theorem State.keptOut.execShl {p : Pair} {d a b : Greg} (h : s.kept q t) : s.keptOut q (execShl p d a b t) :=
  .issue h (fun _ hu => (.compute hu))

theorem State.keptOut.execShr {p : Pair} {d a b : Greg} (h : s.kept q t) : s.keptOut q (execShr p d a b t) :=
  .issue h (fun _ hu => (.compute hu))

theorem State.keptOut.execSar {p : Pair} {d a b : Greg} (h : s.kept q t) : s.keptOut q (execSar p d a b t) :=
  .issue h (fun _ hu => (.compute hu))

theorem State.keptOut.execRor {p : Pair} {d a b : Greg} (h : s.kept q t) : s.keptOut q (execRor p d a b t) :=
  .issue h (fun _ hu => (.compute hu))

theorem State.keptOut.execShi {p : Pair} {d a : Greg} {kind : Fin 4} {count : Fin 32} (h : s.kept q t) :
    s.keptOut q (execShi p d a kind count t) := .issue h (fun _ hu => (.compute hu))

theorem State.keptOut.execMul {p : Pair} {d a b : Greg} (h : s.kept q t) : s.keptOut q (execMul p d a b t) :=
  .issue h (fun _ hu => (.ite (.illegal hu) (.compute hu)))

theorem State.keptOut.execMulu {p : Pair} {d a b : Greg} (h : s.kept q t) : s.keptOut q (execMulu p d a b t) :=
  .issue h (fun _ hu => (.ite (.illegal hu) (.compute hu)))

theorem State.keptOut.execDiv {p : Pair} {d a b : Greg} (h : s.kept q t) : s.keptOut q (execDiv p d a b t) :=
  .issue h (fun _ hu => (.ite (.illegal hu) (.compute hu)))

theorem State.keptOut.execDivu {p : Pair} {d a b : Greg} (h : s.kept q t) : s.keptOut q (execDivu p d a b t) :=
  .issue h (fun _ hu => (.ite (.illegal hu) (.compute hu)))

theorem State.keptOut.execMfs {p : Pair} {d : Greg} {n : Fin 32} (h : s.kept q t) : s.keptOut q (execMfs p d n t) :=
  .issue h (fun _ hu => (.ite (.illegal hu) (.ite (.compute hu) (.ite (.compute (.modPair hu)) (.ite (.compute hu) (.compute hu))))))

theorem State.keptOut.execMts {p : Pair} {a : Greg} {n : Fin 32} (h : s.kept q t) : s.keptOut q (execMts p a n t) :=
  .issue h (fun _ hu => (.ite (.illegal hu) (.privAs hu (fun _ _ hv => (.ite (.privileged hv) (.compared hv (fun _ hw => (.compute (.ite
    (.setFld hw) hw)))))))))
end
end Sys2Proof.Machine
end

