-- ==== Sys2Proof/Proofs/KeptServices.lean ====
section
/-! PROOF. What flash, queues, the host port and the system controller keep. -/

namespace Sys2Proof.Machine

section
variable {q : Bool} {s t : State}

theorem State.kept.modFB {b : FBank} {f : FBankSt → FBankSt} (h : s.kept q t) : s.kept q (t.modFB b f) := .beside h rfl

theorem State.kept.setIntr {b : FBank} {k : Nat} {v : Bool} (h : s.kept q t) : s.kept q (t.setIntr b k v) := .setReg h

theorem State.kept.fillMem {lo n : Nat} {f : Nat → Byte} (h : s.kept q t) : s.kept q (t.fillMem lo n f) := .setBytes h

theorem State.kept.flQueue {b : FBank} {k : Nat} (h : s.kept q t) : s.kept q (t.flQueue b k) := .ite h (.modFB h)

theorem State.kept.flRefresh {b : FBank} (h : s.kept q t) : s.kept q (t.flRefresh b) := by
  unfold State.flRefresh
  extract_lets +onlyGivenNames x
  extract_lets +onlyGivenNames go
  have hgo : ∀ u, s.kept q u → s.kept q (go u) := fun _ hu => .draw (.sched hu)
  clear_value go
  refine .ite ?_ ?_
  · exact h
  · split
    · exact .ite h (hgo _ h)
    · exact hgo _ (.setFld (.setFld (.modFB h)))
    · exact h

theorem State.kept.flTouch {a : Nat} (h : s.kept q t) : s.kept q (t.flTouch a).2 := by
  unfold State.flTouch
  extract_lets +onlyGivenNames key
  split
  · exact h
  · exact .uncorrectable h
  · exact .ite (.flRefresh (.flQueue (.modFB (.bump h)))) (.modFB (.bump h))

theorem State.kept.flRead {a : Nat} (h : s.kept q t) : s.kept q (t.flRead a).2 := by
  unfold State.flRead
  split
  · exact h
  · exact .flTouch h

theorem State.kept.flStreamed {a : Nat} {ok : Bool} (h : s.kept q t) : s.kept q (t.flStreamed a ok) := .ite (.modFB h) h

theorem State.kept.flReadBy {m : Fin 13} {a : Nat} (h : s.kept q t) : s.kept q (t.flReadBy m a).2 := .flStreamed (.flRead h)

theorem State.kept.flNoKey (h : s.kept q t) : s.kept q t.flNoKey := .beside h rfl

theorem State.kept.flStatWrite {v : Word} (h : s.kept q t) : s.kept q (t.flStatWrite v) := .flNoKey (.setReg h)

theorem State.kept.flWsWrite {v : Word} (h : s.kept q t) : s.kept q (t.flWsWrite v) := .flNoKey (.ite (.raiseFld (.setFld h)) (.setFld h))

theorem State.kept.flKeyWrite {v : Word} (h : s.kept q t) : s.kept q (t.flKeyWrite v) := .beside h rfl

theorem State.kept.flErr {code : Nat} (h : s.kept q t) : s.kept q (t.flErr code) := .raiseFld h

theorem State.kept.flLateBusy {b : FBank} {prog : Bool} (h : s.kept q t) : s.kept q (t.flLateBusy b prog) := by
  unfold State.flLateBusy
  refine .foldl (fun _ _ hu => ?_) h
  split
  · exact .ite (.modPair hu) hu
  · exact .ite (.preciseFault (.modPair hu)) hu
  · exact hu

theorem State.kept.flStart {b : FBank} {c : FlashCmd} {rec : JRec} {maxLc : Nat} (h : s.kept q t) : s.kept q (t.flStart b c rec maxLc) :=
  .sched (.draw (.unsched (.flLateBusy (.modFB h))))

theorem State.kept.flCmd {r : Req} {op : Nat} (h : s.kept q t) : s.kept q (t.flCmd r op) := by
  unfold State.flCmd
  split
  · exact .flNoKey (.flErr h)
  · exact .ite (.flStart (.modFB (.flNoKey h))) (.flStart (.flNoKey h))

theorem State.keptOut.execFlashProgram {r : Req} (h : s.kept q t) : s.keptOut q (execFlashProgram r t) :=
  .regCmd h (fun _ hu => (.flCmd hu))

theorem State.keptOut.execFlashErase {r : Req} (h : s.kept q t) : s.keptOut q (execFlashErase r t) := .regCmd h (fun _ hu => (.flCmd hu))

theorem State.keptOut.execFlKeyWrite {r : Req} {v : Word} (h : s.kept q t) : s.keptOut q (execFlKeyWrite r v t) :=
  .regCmd h (fun _ hu => (.flKeyWrite hu))

theorem State.keptOut.execFlWsWrite {r : Req} {v : Word} (h : s.kept q t) : s.keptOut q (execFlWsWrite r v t) :=
  .regCmd h (fun _ hu => (.flWsWrite hu))

theorem State.kept.flErased {b : FBank} {k : Nat} (h : s.kept q t) : s.kept q (t.flErased b k) :=
  .setIntr (.modFB (.beside (.clearMem h) rfl))

theorem State.kept.flDone {b : FBank} {ok : Bool} (h : s.kept q t) : s.kept q (t.flDone b ok) := by
  unfold State.flDone
  split
  · exact h
  · extract_lets +onlyGivenNames u
    have hu : s.kept q u := .unschedAll h
    clear_value u
    extract_lets +onlyGivenNames op
    extract_lets +onlyGivenNames now
    extract_lets +onlyGivenNames v
    have hv : s.kept q v := .modFB hu
    clear_value v
    extract_lets +onlyGivenNames w
    have hw : s.kept q w := by
      unfold w
      split
      · exact .modFB (.setBytes hv)
      · exact .flErased hv
    clear_value w
    extract_lets +onlyGivenNames part x
    have hx : s.kept q x := by
      unfold x
      split <;> exact .fillMem hv
    clear_value x
    extract_lets +onlyGivenNames y
    have hy : s.kept q y := .ite (.evcRaise (.raiseFld hw)) (.evcRaise (.flErr (.setFld (.draw hx))))
    clear_value y
    extract_lets +onlyGivenNames z
    have hz : s.kept q z := .flRefresh hy
    clear_value z
    refine .ite ?_ ?_
    · exact hz
    · extract_lets +onlyGivenNames u1
      have hu1 : s.kept q u1 := .ite (.emit hz) hz
      clear_value u1
      split
      · exact .enterSafeHold hu1
      · exact hu1

theorem State.keptOut.execFlashCommandDone {b : FBank} {ok : Bool} (h : s.kept q t) : s.keptOut q (execFlashCommandDone b ok t) :=
  .next (.flDone h)

theorem State.kept.plErase {level : Nat} (h : s.kept q t) : s.kept q (t.plErase level) := by
  unfold State.plErase
  extract_lets +onlyGivenNames d
  extract_lets +onlyGivenNames thet
  extract_lets +onlyGivenNames u
  have hu : s.kept q u := .unschedAll (.draw h)
  clear_value u
  extract_lets +onlyGivenNames part v
  have hv : s.kept q v := .beside hu rfl
  clear_value v
  exact .sched hv

theorem State.kept.plReq {r : Req} {level : Nat} (h : s.kept q t) : s.kept q (t.plReq r level) :=
  .ite (.flErr (.flNoKey h)) (.ite (.flErr (.flNoKey h)) (.ite (.flErr (.flNoKey h)) (.ite (.flErr (.flNoKey h)) (.ite (.flErr (.flNoKey
    h)) (.ite (.beside (.flNoKey h) rfl) (.plErase (.flNoKey h)))))))

theorem State.keptOut.execFlPlReq {r : Req} {level : BitVec 2} (h : s.kept q t) : s.keptOut q (execFlPlReq r level t) :=
  .regCmd h (fun _ hu => (.plReq hu))

theorem State.keptOut.execPlLowerDone (h : s.kept false t) : s.keptOut false (execPlLowerDone t) := by
  unfold Machine.execPlLowerDone
  split
  · exact .next h
  · exact .next (.erased (.toReset (.moved h rfl)))

theorem State.kept.marginLine {b : FBank} {differs : Bool} (h : s.kept q t) : s.kept q (t.marginLine b differs) := by
  unfold State.marginLine
  refine .ite ?_ ?_
  · split
    · exact h
    · exact .flRefresh (.modFB (.ite (.count (.ite (.flQueue (.flTouch (.ite (.count h) h))) (.flTouch (.ite (.count h) h)))) (.ite
        (.flQueue (.flTouch (.ite (.count h) h))) (.flTouch (.ite (.count h) h)))))
  · exact h

theorem State.keptOut.execMarginScrubLine {b : FBank} {differs : Bool} (h : s.kept q t) :
    s.keptOut q (execMarginScrubLine b differs t) := .next (.marginLine h)

theorem State.kept.flRenew {lo : Nat} (h : s.kept q t) : s.kept q (t.flRenew lo) := .beside h rfl

theorem State.kept.flCopyRead {lo : Nat} (h : s.kept q t) : s.kept q (t.flCopyRead lo) := .foldl (fun _ _ hu => (.flTouch hu)) h

theorem State.kept.flStep {b : FBank} {k n : Nat} (h : s.kept q t) : s.kept q (t.flStep b k n) := by
  unfold State.flStep
  extract_lets +onlyGivenNames lo
  split
  · exact .modFB (.flCopyRead h)
  · exact .modFB (.flRenew h)
  · exact .modFB h
  · exact .modFB (.flCopyRead h)
  · exact .modFB (.flRenew h)

theorem State.keptOut.execRefreshStep {b : FBank} (h : s.kept q t) : s.keptOut q (execRefreshStep b t) := by
  unfold Machine.execRefreshStep
  refine .ite ?_ ?_
  · split
    · exact .next h
    · exact .next (.flRefresh (.ite (.count (.unsched (.modFB (.flStep h)))) (.unsched (.modFB (.flStep h)))))
  · exact .next h

theorem State.kept.flScan (h : s.kept q t) : s.kept q t.flScan := by
  unfold State.flScan
  refine .foldl (fun _ _ hu => ?_) h
  extract_lets +onlyGivenNames v
  have hv : s.kept q v := by
    refine .foldl (fun _ _ hv => ?_) hu
    split
    · exact .setIntr hv
    · exact .setIntr hv
    · exact hv
  clear_value v
  exact .flRefresh hv

theorem State.kept.qSetPtr {f : Fld} {q' : QId} {ptr : Nat} (h : s.kept q t) : s.kept q (t.qSetPtr f q' ptr) := .setFld h

theorem State.kept.qFillEvent {q' : QId} {before : Nat} (h : s.kept q t) : s.kept q (t.qFillEvent q' before) := .ite (.evcRaise h) h

theorem State.kept.qWrite {q' : QId} {w : Word} {tags : BitVec 2} (h : s.kept q t) : s.kept q (t.qWrite q' w tags) := by
  unfold State.qWrite
  extract_lets +onlyGivenNames slot
  extract_lets +onlyGivenNames before
  extract_lets +onlyGivenNames u
  have hu : s.kept q u := .setWord h
  clear_value u
  extract_lets +onlyGivenNames v
  have hv : s.kept q v := .beside hu rfl
  clear_value v
  exact .qFillEvent (.qSetPtr hv)

theorem State.kept.qDrop {q' : QId} (h : s.kept q t) : s.kept q (t.qDrop q') :=
  .ite (.ite (.setWord (.bump h)) (.ite (.qWrite (.bump h)) (.setWord (.bump h)))) (.ite (.qWrite (.bump h)) (.bump h))

theorem State.kept.qPush {q' : QId} {w : Word} {eop : Bool} (h : s.kept q t) : s.kept q (t.qPush q' w eop).2 :=
  .iteSnd (.ite (.setFld h) h) (.iteSnd (.qWrite h) (.iteSnd (.qWrite h) (.qDrop h)))

theorem State.kept.qPushDrop {q' : QId} {w : Word} {eop : Bool} (h : s.kept q t) : s.kept q (t.qPushDrop q' w eop).2 :=
  .beside (.qPush h) rfl

theorem State.kept.qPushRec {q' : QId} {w : Word} {eop : Bool} (h : s.kept q t) : s.kept q (t.qPushRec q' w eop) := .qPushDrop h

theorem State.kept.qBusPush {r : Req} {q' : QId} {w : Word} {eop : Bool} (h : s.kept q t) : s.kept q (t.qBusPush r q' w eop) :=
  .ite (.busError h) (.ite (.qPushRec h) (.bump h))

theorem State.kept.qPop {q' : QId} (h : s.kept q t) : s.kept q (t.qPop q').2 := .iteSnd (.bump h) (.qSetPtr h)

theorem State.kept.qPopRec {q' : QId} (h : s.kept q t) : s.kept q (t.qPopRec q').2 := .iteSnd (.bump h) (.beside (.qPop h) rfl)

theorem State.kept.qBusPop {r : Req} {q' : QId} (h : s.kept q t) : s.kept q (t.qBusPop r q').2 := .iteSnd (.bump h) (.qPopRec h)

theorem State.kept.qDropPkt {q' : QId} (h : s.kept q t) : s.kept q (t.qDropPkt q') := by
  unfold State.qDropPkt
  split
  · exact .qSetPtr h
  · exact .setFld (.qSetPtr h)

theorem State.kept.qDropFirst {q' : QId} (h : s.kept q t) : s.kept q (t.qDropFirst q') := by
  unfold State.qDropFirst
  split
  · exact .qDropPkt h
  · exact .foldl (fun _ _ hu => (.qPushRec hu)) (.beside (.qDropPkt (.setWord (.setReg (.setFld (.setFld h))))) rfl)

theorem State.kept.qFlush {q' : QId} (h : s.kept q t) : s.kept q (t.qFlush q') := .qSetPtr h

theorem State.kept.qCommand {r : Req} {q' : QId} {f : State → State} (h : s.kept q t) (hf : ∀ u, s.kept q u → s.kept q (f u)) :
    s.kept q (t.qCommand r q' f) := .ite (hf _ h) (.bump h)

theorem State.kept.qCtrlWrite {r : Req} {q' : QId} {v : Word} (h : s.kept q t) : s.kept q (t.qCtrlWrite r q' v) :=
  .qCommand h (fun _ hu => (.ite (.qFlush (.ite (.qDropFirst hu) hu)) (.ite (.qDropFirst hu) hu)))

theorem State.keptOut.execQueuePush {r : Req} {q' : QId} {w : Word} (h : s.kept q t) : s.keptOut q (execQueuePush r q' w t) :=
  .regCmd h (fun _ hu => (.qBusPush hu))

theorem State.keptOut.execQueuePushEop {r : Req} {q' : QId} {w : Word} (h : s.kept q t) : s.keptOut q (execQueuePushEop r q' w t) :=
  .regCmd h (fun _ hu => (.qBusPush hu))

theorem State.keptOut.execQueuePop {r : Req} {q' : QId} (h : s.kept q t) : s.keptOut q (execQueuePop r q' t) :=
  .regCmd h (fun _ hu => (.answer (.qBusPop hu)))

theorem State.keptOut.execQueueFlush {r : Req} {q' : QId} (h : s.kept q t) : s.keptOut q (execQueueFlush r q' t) :=
  .regCmd h (fun _ hu => (.qCtrlWrite hu))

theorem State.keptOut.execDropPkt {r : Req} {q' : QId} (h : s.kept q t) : s.keptOut q (execDropPkt r q' t) :=
  .regCmd h (fun _ hu => (.qCtrlWrite hu))

theorem State.kept.poolFault {t' : Tenant} (h : s.kept q t) : s.kept q (t.poolFault t') := .evcRaise h

theorem State.kept.reanswer {q' : Pair} {w : Word} (h : s.kept q t) : s.kept q (t.reanswer q' w) := .setPair h

theorem State.kept.bufTake {ten : Tenant} {o : Option (Fin 4096)} (h : s.kept q t) : s.kept q (t.bufTake ten o).2 := by
  cases o with
  | none => exact .pair (.evcRaise h)
  | some i => exact .pair (.setFld (.setReg h))

theorem State.kept.bufDeal {ps : List (Pair × Tenant)} {is : List (Fin 4096)} (h : s.kept q t) : s.kept q (t.bufDeal ps is) := by
  induction ps generalizing t is with
  | nil => exact h
  | cons p ps ih =>
    obtain ⟨k, ten⟩ := p
    cases is with
    | nil => exact ih (.reanswer h)
    | cons i is =>
      have hu : s.kept q ((t.setReg .Q_POOL_TAGi i 0 (BitVec.ofNat 32 (8 + ten.val))).reanswer k (t.bufAddr i)) := .reanswer (.setReg h)
      exact ih (.beside hu rfl)

theorem State.kept.poolAlloc {r : Req} (h : s.kept q t) : s.kept q (t.poolAlloc r).2 := by
  unfold State.poolAlloc
  extract_lets +onlyGivenNames j x
  have hx : s.kept q x.2 := .bufTake h
  clear_value x
  split
  · exact hx
  split
  · exact hx
  · exact .pair (.beside hx rfl)
  · extract_lets +onlyGivenNames all is u v
    have hv : s.kept q v := .beside hx rfl
    exact .pair (.bufDeal hv)

theorem State.kept.poolForeign {i : Fin 4096} (h : s.kept q t) : s.kept q (t.poolForeign i) := .poolFault (.bump h)

theorem State.kept.poolFree {t' : Tenant} {a : Word} (h : s.kept q t) : s.kept q (t.poolFree t' a) := by
  unfold State.poolFree
  split
  · exact .bump h
  · exact .ite (.poolFault (.bump h)) (.ite (.setFld (.setFld h)) (.poolForeign h))

theorem State.kept.poolGive {t' : Tenant} {v : Word} (h : s.kept q t) : s.kept q (t.poolGive t' v) := by
  unfold State.poolGive
  split
  · exact .bump h
  · exact .ite (.setFld h) (.poolForeign h)

theorem State.keptOut.execPoolAlloc {r : Req} (h : s.kept q t) : s.keptOut q (execPoolAlloc r t) :=
  .regCmd h (fun _ hu => (.answer (.poolAlloc hu)))

theorem State.keptOut.execPoolFree {r : Req} {a : Word} (h : s.kept q t) : s.keptOut q (execPoolFree r a t) :=
  .regCmd h (fun _ hu => (.poolFree hu))

theorem State.keptOut.execPoolGive {r : Req} {v : Word} (h : s.kept q t) : s.keptOut q (execPoolGive r v t) :=
  .regCmd h (fun _ hu => (.poolGive hu))

theorem State.kept.semTake {p : Pair} {n : Fin 64} {w : Word} (h : s.kept q t) : s.kept q (t.semTake p n w) := .setReg (.beside h rfl)

theorem State.kept.semRead {r : Req} {n : Fin 64} (h : s.kept q t) : s.kept q (t.semRead r n).2 := by
  unfold State.semRead
  split
  · extract_lets +onlyGivenNames w'
    refine .iteSnd ?_ ?_
    · split
      · exact .reanswer (.semTake (.beside h rfl))
      · exact .beside h rfl
    · exact .semTake h
  · exact h

theorem State.kept.semRelease {n : Fin 64} (h : s.kept q t) : s.kept q (t.semRelease n) := by
  unfold State.semRelease
  split
  · exact .setReg h
  · exact .reanswer (.semTake h)

theorem State.kept.semWrite {r : Req} {n : Fin 64} {v : Word} (h : s.kept q t) : s.kept q (t.semWrite r n v) :=
  .ite (.ite (.semRelease h) h) (.bump h)

theorem State.kept.semForce {r : Req} {v : Word} (h : s.kept q t) : s.kept q (t.semForce r v) := .ite (.semRelease h) h

theorem State.keptOut.execSemAcquire {r : Req} {n : Fin 64} (h : s.kept q t) : s.keptOut q (execSemAcquire r n t) :=
  .regCmd h (fun _ hu => (.answer (.semRead hu)))

theorem State.keptOut.execSemRelease {r : Req} {n : Fin 64} {v : Word} (h : s.kept q t) : s.keptOut q (execSemRelease r n v t) :=
  .regCmd h (fun _ hu => (.semWrite hu))

theorem State.keptOut.execSemForce {r : Req} {v : Word} (h : s.kept q t) : s.keptOut q (execSemForce r v t) :=
  .regCmd h (fun _ hu => (.semForce hu))

theorem State.kept.hpRespond {cmd : Byte} {f : HpFrame} {st : HpStatus} {payload : List Byte} (h : s.kept q t) :
    s.kept q (t.hpRespond cmd f st payload) := .beside h rfl

theorem State.kept.hpCut (h : s.kept q t) : s.kept q t.hpCut := .beside (.bump h) rfl

theorem State.keptOut.hpCmd {f : HpFrame} {cmd : Byte} {payload : List Byte} {body : List Byte → State → State} (h : s.kept q t) (hbody :
  ∀ x0 u, s.kept q u → s.kept q (body x0 u)) :
    s.keptOut q (hpCmd f cmd payload body t) := by
  unfold Machine.hpCmd
  refine .ite ?_ ?_
  · split
    · exact .next (.hpCut h)
    · exact .next (.hpRespond (.bump h))
    · exact .next (hbody _ _ h)
  · exact .next (.beside h rfl)

theorem State.keptOut.execHpFrameCut (h : s.kept q t) : s.keptOut q (execHpFrameCut t) := .next (.ite (.hpCut h) (.beside h rfl))

theorem State.keptOut.execHpBadcmd {f : HpFrame} {cmd : Byte} {payload : List Byte} (h : s.kept q t) :
    s.keptOut q (execHpBadcmd f cmd payload t) := .ite (.next h) (.hpCmd h (fun _ _ hu => (.hpRespond hu)))

theorem State.keptOut.execHpStatus {f : HpFrame} (h : s.kept q t) : s.keptOut q (execHpStatus f t) :=
  .hpCmd h (fun _ _ hu => (.hpRespond hu))

theorem State.kept.qPushAll {k : QId} {ws : List Word} (h : s.kept q t) : s.kept q (t.qPushAll k ws).2 := by
  induction ws generalizing t with
  | nil => exact h
  | cons w ws ih =>
    cases ws with
    | nil => exact .pair (.qPushDrop h)
    | cons w' ws => exact .pair (ih (.qPushDrop h))

theorem State.keptOut.execMsgPut {f : HpFrame} {data : List Byte} (h : s.kept q t) : s.keptOut q (execMsgPut f data t) := by
  unfold Machine.execMsgPut
  refine .hpCmd h fun _ _ hu => .ite (.hpRespond hu) (.ite (.hpRespond hu) ?_)
  extract_lets +onlyGivenNames box ten r
  have hr : s.kept q r.2 := .iteSnd (.pair hu) (.iteSnd (.qPushAll hu) (.pair (.bumpBy hu)))
  exact .hpRespond hr

theorem State.kept.qPopPacket {k : QId} {n : Nat} (h : s.kept q t) : s.kept q (t.qPopPacket k n).2 := by
  induction n generalizing t with
  | zero => exact h
  | succ n ih =>
    rw [State.qPopPacket]
    refine .iteSnd h ?_
    extract_lets +onlyGivenNames tags
    refine .iteSnd h ?_
    extract_lets +onlyGivenNames r
    have hr : s.kept q r.2 := .qPopRec h
    exact .iteSnd (.pair hr) (.pair (ih hr))

theorem State.keptOut.execMsgGet {f : HpFrame} (h : s.kept q t) : s.keptOut q (execMsgGet f t) := by
  unfold Machine.execMsgGet
  refine .hpCmd h fun _ _ hu => .ite (.hpRespond hu) ?_
  extract_lets +onlyGivenNames box
  exact .ite (.hpRespond (.bump hu)) (.ite (.hpRespond (.qPopRec hu)) (.hpRespond (.qPopPacket hu)))

theorem State.keptOut.execResetNAssert (h : s.kept false t) : s.keptOut false (execResetNAssert t) := .next (.toReset h)

theorem State.keptOut.execSupplyFall {r : Rail} {mV : Nat} (h : s.kept false t) : s.keptOut false (execSupplyFall r mV t) :=
  .next (.ite (.toReset h) h)

theorem State.keptOut.execPowerGood {xin50 : Bool} (h : s.kept q t) : s.keptOut q (execPowerGood xin50 t) := by
  unfold Machine.execPowerGood
  refine .ite ?_ ?_
  · extract_lets +onlyGivenNames u
    have hu : s.kept q u := .flScan (.setFld h)
    clear_value u
    extract_lets +onlyGivenNames part v
    have hv : s.kept q v := .beside hu rfl
    clear_value v
    extract_lets +onlyGivenNames w
    have hw : s.kept q w := .setFld hv
    clear_value w
    refine .next ?_
    split
    · exact .plErase hw
    · exact hw
  · exact .next h

theorem State.keptOut.execClockLost (h : s.kept q t) : s.keptOut q (execClockLost t) :=
  .ite (.next h) (.next (.mark (.setFld (.setFld (.setFld (.enterSafeHold h))))))

theorem State.keptOut.execSafeNFall (h : s.kept q t) : s.keptOut q (execSafeNFall t) :=
  .next (.ite (.sched (.pwmForceAll (.evcRaise (.beside h rfl)))) (.beside h rfl))

theorem State.keptOut.execSafeNTimeout (h : s.kept q t) : s.keptOut q (execSafeNTimeout t) := .next (.ite (.enterSafeHold (.unsched h)) h)

theorem State.keptOut.execSafeNRise (h : s.kept q t) : s.keptOut q (execSafeNRise t) :=
  .next (.ite (.enterSafeHold (.unsched (.beside h rfl))) (.ite (.unsched (.beside h rfl)) (.ite (.bump (.unsched (.beside h rfl)))
    (.unsched (.beside h rfl)))))

theorem State.keptOut.execSafeRequest {_k : Fin 8} (h : s.kept q t) : s.keptOut q (execSafeRequest _k t) :=
  .next (.ite (.enterSafeHold h) h)

theorem State.kept.dbgRelease {p : Pair} (h : s.kept q t) : s.kept q (t.dbgRelease p) := .ite (.sched (.modPair h)) (.modPair h)

theorem State.kept.dbgEnd (h : s.kept q t) : s.kept q t.dbgEnd := by
  unfold State.dbgEnd
  extract_lets +onlyGivenNames u
  have hu : s.kept q u := .setFld (.setFld h)
  clear_value u
  extract_lets +onlyGivenNames v
  have hv : s.kept q v := .unsched hu
  clear_value v
  extract_lets +onlyGivenNames part w
  have hw : s.kept q w := .beside hv rfl
  clear_value w
  exact .foldl (fun _ _ hx => (.dbgRelease hx)) hw

theorem State.kept.tapLoad {i : TapInstr} (h : s.kept q t) : s.kept q (t.tapLoad i) := .beside h rfl

theorem State.keptOut.execTapBypass (h : s.kept q t) : s.keptOut q (execTapBypass t) := .next (.tapLoad h)

theorem State.keptOut.execTapIdcode (h : s.kept q t) : s.keptOut q (execTapIdcode t) := .next (.answer (.tapLoad h))

theorem State.keptOut.execTapExtest (h : s.kept q t) : s.keptOut q (execTapExtest t) := .next (.tapLoad h)

theorem State.keptOut.execTapSample (h : s.kept q t) : s.keptOut q (execTapSample t) := .next (.tapLoad h)

theorem State.keptOut.execTapPreload (h : s.kept q t) : s.keptOut q (execTapPreload t) := .next (.tapLoad h)

theorem State.kept.enterMaintenance (h : s.kept q t) : s.kept q t.enterMaintenance := by
  unfold State.enterMaintenance
  exact .modTwin (.setOwn (.unsched (.stationStop (.domainStop (.setMode h)))))

theorem State.kept.modeDo {t' : Nat} (h : s.kept q t) : s.kept q (t.modeDo t') := by
  unfold State.modeDo
  split
  · exact .ite (.enterReady h) (.beside h rfl)
  · exact .enterSafeHold h
  · exact .enterMaintenance h
  · exact .ite (.emit (.beside h rfl)) (.beside h rfl)
  · exact h

theorem State.kept.readyTake (h : s.kept q t) : s.kept q t.readyTake := .ite (.ite (.enterReady (.beside h rfl)) (.beside h rfl)) h

theorem State.kept.modeReqWrite {r : Req} {v : Word} (h : s.kept q t) : s.kept q (t.modeReqWrite r v) :=
  .ite (.ite (.modeDo (.ite (.setFld h) h)) (.raiseFld (.ite (.setFld h) h))) (.ite (.setFld h) h)

theorem State.keptOut.modeCmd {o : ModeOrigin} {t' : Nat} (h : s.kept q t) : s.keptOut q (modeCmd o t' t) := by
  unfold Machine.modeCmd
  split
  · exact .hpCmd h (fun _ _ hu => (.ite (.hpRespond (.modeDo hu)) (.hpRespond hu)))
  · exact .regCmd h (fun _ hu => (.modeReqWrite hu))

theorem State.keptOut.execModeReady {o : ModeOrigin} (h : s.kept q t) : s.keptOut q (execModeReady o t) := .modeCmd h

theorem State.keptOut.execModeSafeHold {o : ModeOrigin} (h : s.kept q t) : s.keptOut q (execModeSafeHold o t) := .modeCmd h

theorem State.keptOut.execModeMaintenance {o : ModeOrigin} (h : s.kept q t) : s.keptOut q (execModeMaintenance o t) := .modeCmd h

theorem State.keptOut.execModeRetention {o : ModeOrigin} (h : s.kept q t) : s.keptOut q (execModeRetention o t) := .modeCmd h

theorem State.kept.retain (h : s.kept q t) : s.kept q t.retain := .setFld (.setFld (.setFld (.resetRegs h)))

theorem State.keptOut.execRetentionEntry (h : s.kept false t) : s.keptOut false (execRetentionEntry t) := by
  unfold Machine.execRetentionEntry
  refine .ite ?_ (.next h)
  extract_lets +onlyGivenNames latch wake u v r w
  have hw : s.kept false w := .setFld (.clearMem (.retain (.stationStop (.domainStop (.setMode (.dbgEnd h))))))
  clear_value w r
  exact .next (.moved hw rfl)
end
end Sys2Proof.Machine
end

