-- ==== Sys2Proof/Proofs/KeptControllers.lean ====
section
/-! PROOF. What the registers of DMA and event controller, lockstep and table copies keep. -/

namespace Sys2Proof.Machine

section
variable {q : Bool} {s t : State}

theorem State.kept.modCh {n : Chan} {f : ChanSt → ChanSt} (h : s.kept q t) : s.kept q (t.modCh n f) := .beside h rfl

theorem State.kept.dmaGo {n : Chan} (h : s.kept q t) : s.kept q (t.dmaGo n) :=
  .ite h (.ite (.bump h) (.ite (.emitOnce (.modCh (.setReg (.setFld h)))) (.modCh (.setReg (.setFld h)))))

theorem State.kept.dmaStartWrite {n : Chan} (h : s.kept q t) : s.kept q (t.dmaStartWrite n) := .ite (.dmaGo h) h

theorem State.kept.dmaUnreq {n : Chan} (h : s.kept q t) : s.kept q (t.dmaUnreq n) := by
  unfold State.dmaUnreq
  split
  · exact .setFld h
  · exact h

theorem State.kept.dmaIdle {n : Chan} (h : s.kept q t) : s.kept q (t.dmaIdle n) := .modCh (.setFld (.setFld (.dmaUnreq h)))

theorem State.kept.dmaFail {n : Chan} {code : Nat} (h : s.kept q t) : s.kept q (t.dmaFail n code) := .evcRaise (.raiseFld (.dmaIdle h))

theorem State.kept.dmaAbortWrite {n : Chan} (h : s.kept q t) : s.kept q (t.dmaAbortWrite n) :=
  .ite h (.ite (.emitOnce (.beside h rfl)) (.dmaFail h))

theorem State.kept.dmaOwned {r : Req} {n : Chan} {f : State → State} (h : s.kept q t) (hf : ∀ u, s.kept q u → s.kept q (f u)) :
    s.kept q (t.dmaOwned r n f) := .ite (hf _ h) (.bump h)

theorem State.kept.dmaCtrlWrite {r : Req} {n : Chan} {v : Word} (h : s.kept q t) : s.kept q (t.dmaCtrlWrite r n v) :=
  .dmaOwned h (fun _ hu => (.ite (.dmaStartWrite (.ite (.dmaAbortWrite hu) hu)) (.ite (.dmaAbortWrite hu) hu)))

theorem State.keptOut.execDmaStart {r : Req} {n : Chan} (h : s.kept q t) : s.keptOut q (execDmaStart r n t) :=
  .regCmd h (fun _ hu => (.dmaCtrlWrite hu))

theorem State.keptOut.execDmaAbort {r : Req} {n : Chan} (h : s.kept q t) : s.keptOut q (execDmaAbort r n t) :=
  .regCmd h (fun _ hu => (.dmaCtrlWrite hu))

theorem State.keptOut.execDmaPeripheralRequest {line : Fin 32} (h : s.kept q t) : s.keptOut q (execDmaPeripheralRequest line t) :=
  .next (.foldl (fun _ _ hu => (.ite (.dmaGo hu) hu)) h)

theorem State.kept.dmaPace {n : Chan} (h : s.kept q t) : s.kept q (t.dmaPace n) := by
  unfold State.dmaPace
  refine .ite h ?_
  split
  · exact h
  · extract_lets +onlyGivenNames judge
    have hj (k : QId) (b : Bool) : s.kept q (judge k b) := .setFld (.setFld (.modCh (.ite h (.setFld (.dmaUnreq h)))))
    clear_value judge
    split
    · exact hj _ _
    · exact hj _ _
    · exact h

theorem State.kept.dmaLook (h : s.kept q t) : s.kept q t.dmaLook := by
  unfold State.dmaLook
  refine .ite ?_ ?_
  · exact h
  · extract_lets +onlyGivenNames u
    have hu : s.kept q u := .foldl (fun _ _ hu => (.dmaPace hu)) h
    clear_value u
    extract_lets +onlyGivenNames v
    have hv : s.kept q v := by
      refine .foldl (fun _ _ hv => ?_) hu
      split
      · split
        · exact .ite (.bump hv) hv
        · exact hv
      · exact hv
    clear_value v
    exact .ite (.emitOnce hv) hv

theorem State.kept.modEvc {f : EvcSt → EvcSt} (h : s.kept q t) : s.kept q (t.modEvc f) := .beside h rfl

theorem State.kept.evcOccur {n : SrcId} (h : s.kept q t) : s.kept q (t.evcOccur n) := .ite h (.ite (.bump h) (.modEvc h))

theorem State.keptOut.execEvcEvent {n : SrcId} (h : s.kept q t) : s.keptOut q (execEvcEvent n t) := .next (.ite (.evcOccur (.modEvc h)) h)

theorem State.kept.evcNamed {r : Req} {j : Fin 16} {v : Word} {f : State → SrcId → State} (h : s.kept q t) (hf : ∀ u x, s.kept q u →
  s.kept q (f u x)) :
    s.kept q (t.evcNamed r j v f) := .ite (.bump (.foldl (fun _ _ hu => (hf _ _ hu)) h)) (.foldl (fun _ _ hu => (hf _ _ hu)) h)

theorem State.kept.evcMask {b : Bool} {n : SrcId} (h : s.kept q t) : s.kept q (t.evcMask b n) := .ite (.modEvc h) (.modEvc h)

theorem State.kept.evcPendClear {n : SrcId} (h : s.kept q t) : s.kept q (t.evcPendClear n) := .ite h (.ite (.modEvc h) (.modEvc h))

theorem State.kept.evcPendSetWrite {r : Req} {j : Fin 16} {v : Word} (h : s.kept q t) : s.kept q (t.evcPendSetWrite r j v) :=
  .evcNamed (.beside h rfl) (fun _ _ hu => (.evcOccur hu))

theorem State.kept.evcPendClrWrite {r : Req} {j : Fin 16} {v : Word} (h : s.kept q t) : s.kept q (t.evcPendClrWrite r j v) :=
  .evcNamed h (fun _ _ hu => (.evcPendClear hu))

theorem State.kept.evcMaskSetWrite {r : Req} {j : Fin 16} {v : Word} (h : s.kept q t) : s.kept q (t.evcMaskSetWrite r j v) :=
  .evcNamed h (fun _ _ hu => (.evcMask hu))

theorem State.kept.evcMaskClrWrite {r : Req} {j : Fin 16} {v : Word} (h : s.kept q t) : s.kept q (t.evcMaskClrWrite r j v) :=
  .evcNamed h (fun _ _ hu => (.evcMask hu))

theorem State.kept.evcComplete {r : Req} {v : Word} (h : s.kept q t) : s.kept q (t.evcComplete r v) := by
  unfold State.evcComplete
  extract_lets +onlyGivenNames n
  split
  · exact .ite (.modEvc h) (.bump h)
  · exact .bump h

theorem State.keptOut.execEvcPendSet {r : Req} {j : Fin 16} {v : Word} (h : s.kept q t) : s.keptOut q (execEvcPendSet r j v t) :=
  .regCmd h (fun _ hu => (.evcPendSetWrite hu))

theorem State.keptOut.execEvcPendClr {r : Req} {j : Fin 16} {v : Word} (h : s.kept q t) : s.keptOut q (execEvcPendClr r j v t) :=
  .regCmd h (fun _ hu => (.evcPendClrWrite hu))

theorem State.keptOut.execEvcMaskSet {r : Req} {j : Fin 16} {v : Word} (h : s.kept q t) : s.keptOut q (execEvcMaskSet r j v t) :=
  .regCmd h (fun _ hu => (.evcMaskSetWrite hu))

theorem State.keptOut.execEvcMaskClr {r : Req} {j : Fin 16} {v : Word} (h : s.kept q t) : s.keptOut q (execEvcMaskClr r j v t) :=
  .regCmd h (fun _ hu => (.evcMaskClrWrite hu))

theorem State.keptOut.execEvcCmpl {r : Req} {v : Word} (h : s.kept q t) : s.keptOut q (execEvcCmpl r v t) :=
  .regCmd h (fun _ hu => (.evcComplete hu))

theorem State.kept.takeOffer {p : Pair} {n : SrcId} (h : s.kept q t) : s.kept q (t.takeOffer p n) := by
  unfold State.takeOffer
  exact .compared h (fun _ hu => (.ite (.enter hu) (.enter (.modEvc hu))))

theorem State.keptOut.execInterruptOffer (h : s.kept q t) : s.keptOut q (execInterruptOffer t) := by
  unfold Machine.execInterruptOffer
  extract_lets +onlyGivenNames o
  refine .next ?_
  refine .foldl (fun _ _ hu => ?_) h
  split
  · exact .ite (.takeOffer hu) hu
  · exact hu

theorem State.kept.evcAccept {k : Pair} (h : s.kept q t) : s.kept q (t.evcAccept k) := by
  unfold State.evcAccept
  split
  · exact h
  · exact .modEvc (.setFld (.modEvc h))

theorem State.kept.ieReport {p : Pair} (h : s.kept q t) : s.kept q (t.ieReport p) := .ite h (.compared h (fun _ hu => hu))

theorem State.kept.evcTick (h : s.kept q t) : s.kept q t.evcTick := by
  unfold State.evcTick
  extract_lets +onlyGivenNames u
  have hu : s.kept q u := .foldl (fun _ _ hv => (.ieReport hv)) (.foldl (fun _ _ hv => (.evcAccept hv)) h)
  clear_value u
  exact .beside hu rfl

theorem State.keptOut.execStoreLate {p : Pair} {a : Word} {tenant : Tenant} {tag : Fin 4} (h : s.kept q t) :
    s.keptOut q (execStoreLate p a tenant tag t) := by
  unfold Machine.execStoreLate
  refine .ite ?_ ?_
  · extract_lets +onlyGivenNames u
    have hu : s.kept q u := .modPair h
    clear_value u
    split
    · exact .next (.takeLate hu)
    · exact .next hu
  · exact .next h

theorem State.kept.recallWrite {r : Req} {v : Word} (h : s.kept q t) : s.kept q (t.recallWrite r v) := .ite (.setFld h) h

theorem State.keptOut.execPtuRecall {r : Req} {v : Word} (h : s.kept q t) : s.keptOut q (execPtuRecall r v t) :=
  .regCmd h (fun _ hu => (.recallWrite hu))

theorem State.keptOut.execRecallTaken {p : Pair} (h : s.kept q t) : s.keptOut q (execRecallTaken p t) := by
  unfold Machine.execRecallTaken
  split
  · exact .next (.takeRecall h)
  · exact .next h

theorem State.keptOut.execSweepSnapshot {p : Pair} (h : s.kept q t) : s.keptOut q (execSweepSnapshot p t) :=
  .next (.ite (.sched (.modPair h)) h)

theorem State.kept.latent {p : Pair} (h : s.kept q t) : s.kept q (t.latent p) := .ite (.mismatch h) (.ite h (.sched (.setFld h)))

theorem State.keptOut.execSignatureCompare {p : Pair} (h : s.kept q t) : s.keptOut q (execSignatureCompare p t) := by
  unfold Machine.execSignatureCompare
  split
  · exact .ite (.next (.defer h)) (.ite (.next (.ite (.sched (.modPair (.count h))) (.latent (.sched (.modPair (.count h)))))) (.next h))
  · exact .next h

theorem State.keptOut.execLatmaxExpiry {p : Pair} (h : s.kept q t) : s.keptOut q (execLatmaxExpiry p t) := .next (.ite (.mismatch h) h)

theorem State.kept.tblLine {n : LeId} {a : Nat} (h : s.kept q t) : s.kept q (t.tblLine n a).2 := by
  unfold State.tblLine
  refine .iteSnd (.pair (.violation h)) ?_
  have hu : s.kept q (t.flReadBy 5 a).2 := .flReadBy h
  split
  · next u e =>
    rw [e] at hu
    exact .pair hu
  · next u _ e =>
    rw [e] at hu
    exact .pair hu

theorem State.kept.tblLines {n : LeId} {a k : Nat} (h : s.kept q t) : s.kept q (t.tblLines n a k).2 := by
  induction k generalizing t a with
  | zero => exact h
  | succ k ih =>
    have hu : s.kept q (t.tblLine n a).2 := .tblLine h
    rw [State.tblLines]
    split
    · next l u e =>
      rw [e] at hu
      have hv := ih (a := a + 32) hu
      split
      · next ls v e =>
        rw [e] at hv
        exact .pair hv
      · next v e =>
        rw [e] at hv
        exact .pair hv
    · next u e =>
      rw [e] at hu
      exact .pair hu

theorem State.kept.tblWrite {n : LeId} {v : Word} (h : s.kept q t) : s.kept q (t.tblWrite n v) :=
  .ite (.ite h (.writeReg h)) (.ite (.writeReg h) (.ite (.raiseFld (.writeReg h)) (.draw (.sched (.modLe (.setFld (.writeReg h)))))))

theorem State.keptOut.execTableCopyGo {r : Req} {n : LeId} {v : Word} (h : s.kept q t) : s.keptOut q (execTableCopyGo r n v t) :=
  .regCmd h (fun _ hu => (.leOwned hu (fun _ hv => (.tblWrite hv))))

theorem State.keptOut.execTableCopyDone {n : LeId} (h : s.kept q t) : s.keptOut q (execTableCopyDone n t) := by
  unfold Machine.execTableCopyDone
  split
  · exact .next h
  · next src dst len _ =>
    extract_lets +onlyGivenNames u
    have hu : s.kept q u := .setFld (.modLe (.unsched h))
    clear_value u
    have hv : s.kept q (u.tblLines n src ((len + 7) / 8)).2 := .tblLines hu
    split
    · next bs v e =>
      rw [e] at hv
      exact .next (.setBytes hv)
    · next v e =>
      rw [e] at hv
      exact .next (.raiseFld hv)
end
end Sys2Proof.Machine
end

