-- ==== Sys2Proof/Proofs/KeptTwin.lean ====
section
/-! PROOF. What the operations of the twin block keep. -/

namespace Sys2Proof.Machine

section
variable {q : Bool} {s t : State}

theorem State.keptOut.twRecv {ty lo hi : Nat} {h' : TwHdr} {t' d : List Byte} {body : State → State} (h : s.kept q t) (hbody : ∀ u,
  s.kept q u → s.kept q (body u)) :
    s.keptOut q (twRecv ty lo hi h' t' d body t) := .ite (.next h) (.ite (.next (hbody _ h)) (.next (.bump h)))

theorem State.kept.pwmJump {n : GenId} {k : Nat} (h : s.kept q t) : s.kept q (t.pwmJump n k) :=
  .ite (.ite (.pwmActs (.modPwm (.pwmSegment (.unschedAll (.modPwm h))))) (.schedAt (.pwmActs (.modPwm (.pwmSegment (.unschedAll (.modPwm
    h))))))) (.ite (.schedAt (.pwmActs (.modPwm (.pwmSegment (.unschedAll (.modPwm h)))))) (.schedAt (.schedAt (.pwmActs (.modPwm
    (.pwmSegment (.unschedAll (.modPwm h))))))))

theorem State.kept.loadCounts {ws : List Word} (h : s.kept q t) : s.kept q (t.loadCounts ws) :=
  .foldl (fun _ _ hu => (.ite (.foldl (fun _ _ hv => (.tmrDue hv)) (.schedAt (.modTmr hu))) hu)) (.foldl (fun _ _ hu => (.ite (.pwmJump
    hu) hu)) h)

theorem State.kept.pairFail {code : Nat} (h : s.kept q t) : s.kept q (t.pairFail code) := by
  unfold State.pairFail
  exact .modTwin (.unsched (.raiseFld h))

theorem State.kept.pairStep {k : Nat} (h : s.kept q t) : s.kept q (t.pairStep k) := .modTwin h

theorem State.kept.sendPair {m : Nat} (h : s.kept q t) : s.kept q (t.sendPair m) := .twSend h

theorem State.kept.pairJudge {f : TwFrame} (h : s.kept q t) : s.kept q (t.pairJudge f) :=
  .ite (.pairFail h) (.ite (.pairFail h) (.pairStep (.modTwin h)))

theorem State.kept.pairStart {standby : Bool} (h : s.kept q t) : s.kept q (t.pairStart standby) :=
  .ite (.pairFail h) (.sched (.setFld (.modTwin h)))

theorem State.kept.runBegin {m : Mode} (h : s.kept q t) : s.kept q (t.runBegin m) := .allLe (.setMode h) (fun _ _ hu => (.leRun hu))

theorem State.kept.twRefuse {code : Nat} (h : s.kept q t) : s.kept q (t.twRefuse code) := .raiseFld h

theorem State.kept.cmdSolo (h : s.kept q t) : s.kept q t.cmdSolo :=
  .ite (.twRefuse h) (.ite (.twRefuse h) (.setOwn (.setFld (.runBegin (.ite (.modTwin h) h)))))

theorem State.kept.cmdActive (h : s.kept q t) : s.kept q t.cmdActive :=
  .ite (.ite (.twRefuse h) (.pairStart h)) (.ite (.pairStart h) (.twRefuse h))

theorem State.kept.cmdStandby (h : s.kept q t) : s.kept q t.cmdStandby := .ite (.pairStart h) (.twRefuse h)

theorem State.kept.cmdUnpair (h : s.kept q t) : s.kept q t.cmdUnpair :=
  .ite h (.ite (.modTwin (.mark (.setMode (.modTwin (.setFld h))))) (.ite (.enterReady (.modTwin (.setFld (.modTwin (.setFld h)))))
    (.twRefuse h)))

theorem State.kept.cmdSwitch (h : s.kept q t) : s.kept q t.cmdSwitch := .ite (.mark (.modTwin (.twSend h))) (.twRefuse h)

theorem State.kept.twCtrlWrite {r : Req} {v : Word} (h : s.kept q t) : s.kept q (t.twCtrlWrite r v) := by
  unfold State.twCtrlWrite
  refine .ite ?_ ?_
  · split
    · exact .cmdSolo h
    · exact .cmdActive h
    · exact .cmdStandby h
    · exact .cmdUnpair h
    · exact .cmdSwitch h
    · exact h
  · exact h

theorem State.keptOut.twCmd {r : Req} {k : Nat} (h : s.kept q t) : s.keptOut q (twCmd r k t) := .regCmd h (fun _ hu => (.twCtrlWrite hu))

theorem State.keptOut.execRunSolo {r : Req} (h : s.kept q t) : s.keptOut q (execRunSolo r t) := .twCmd h

theorem State.keptOut.execPairActive {r : Req} (h : s.kept q t) : s.keptOut q (execPairActive r t) := .twCmd h

theorem State.keptOut.execPairStandby {r : Req} (h : s.kept q t) : s.keptOut q (execPairStandby r t) := .twCmd h

theorem State.keptOut.execUnpair {r : Req} (h : s.kept q t) : s.keptOut q (execUnpair r t) := .twCmd h

theorem State.keptOut.execSwitchover {r : Req} (h : s.kept q t) : s.keptOut q (execSwitchover r t) := .twCmd h

theorem State.keptOut.execPairingTimeout (h : s.kept q t) : s.keptOut q (execPairingTimeout t) := .next (.ite h (.pairFail h))

theorem State.keptOut.execPair {h' : TwHdr} {t' d : List Byte} (h : s.kept q t) : s.keptOut q (execPair h' t' d t) :=
  .twRecv h (fun _ hu => (.ite (.ite (.pairJudge hu) (.modTwin hu)) (.ite (.modTwin hu) hu)))

theorem State.kept.decideHandover {cause : Nat} (h : s.kept q t) : s.kept q (t.decideHandover cause) := .sched (.modTwin (.setMode h))

theorem State.kept.enterStandby (h : s.kept q t) : s.kept q t.enterStandby :=
  .ite (.decideHandover (.modTwin (.setFld (.setFld (.runBegin h))))) (.ite (.decideHandover (.modTwin (.setFld (.setFld (.runBegin
    h))))) (.modTwin (.setFld (.setFld (.runBegin h)))))

theorem State.kept.epochDiscard (h : s.kept q t) : s.kept q t.epochDiscard := .modTwin (.evcRaise (.bump h))

theorem State.kept.epochsDrop (h : s.kept q t) : s.kept q t.epochsDrop := by
  unfold State.epochsDrop
  exact .modTwin (.foldl (fun _ _ hu => (.epochDiscard hu)) (.ite h (.epochDiscard h)))

theorem State.kept.takeover {forced : Bool} (h : s.kept q t) : s.kept q (t.takeover forced) := by
  unfold State.takeover
  split
  · refine .ite ?_ ?_
    · exact h
    · extract_lets +onlyGivenNames w'
      extract_lets +onlyGivenNames u
      have hu : s.kept q u := .setReg h
      clear_value u
      extract_lets +onlyGivenNames v
      have hv : s.kept q v := .setReg (.setMode (.setOwn (.unsched hu)))
      clear_value v
      extract_lets +onlyGivenNames w
      have hw : s.kept q w := .setReg hv
      clear_value w
      extract_lets +onlyGivenNames x
      have hx : s.kept q x := .setReg hw
      clear_value x
      extract_lets +onlyGivenNames y
      have hy : s.kept q y := .setFld (.setFld (.setFld hx))
      clear_value y
      extract_lets +onlyGivenNames z
      have hz : s.kept q z := .epochsDrop (.foldl (fun _ _ hz => (.posTakeover hz)) hy)
      clear_value z
      extract_lets +onlyGivenNames now
      extract_lets +onlyGivenNames u1
      have hu1 : s.kept q u1 := .modTwin hz
      clear_value u1
      extract_lets +onlyGivenNames v1
      have hv1 : s.kept q v1 := .ite (.draw (.ite (.sched hu1) hu1)) hu1
      clear_value v1
      extract_lets +onlyGivenNames w1
      have hw1 : s.kept q w1 := .evcRaise hv1
      clear_value w1
      exact .ite (.evcRaise hw1) hw1
  · exact h

theorem State.keptOut.execAgreementPoint (h : s.kept q t) : s.keptOut q (execAgreementPoint t) := .next (.takeover h)

theorem State.keptOut.execAgreementForced (h : s.kept q t) : s.keptOut q (execAgreementForced t) := .next (.takeover h)

theorem State.keptOut.execFaultInRise (h : s.kept q t) : s.keptOut q (execFaultInRise t) := by
  unfold Machine.execFaultInRise
  extract_lets +onlyGivenNames now
  extract_lets +onlyGivenNames u
  have hu : s.kept q u := .modTwin (.setFld h)
  clear_value u
  refine .next ?_
  split
  · exact .decideHandover hu
  · split
    · exact .ite (.modTwin hu) hu
    · exact hu
  · exact .ite (.evcRaise hu) hu

theorem State.keptOut.execPeerLost (h : s.kept q t) : s.keptOut q (execPeerLost t) :=
  .ite (.next (.ite (.evcRaise (.setFld (.modTwin h))) (.ite (.decideHandover (.modTwin h)) (.modTwin h)))) (.next h)

theorem State.keptOut.execSwitch {h' : TwHdr} {t' : List Byte} (h : s.kept q t) : s.keptOut q (execSwitch h' t' t) :=
  .twRecv h (fun _ hu => (.ite (.decideHandover hu) hu))

theorem State.kept.flightDrop (h : s.kept q t) : s.kept q t.flightDrop := by
  unfold State.flightDrop
  extract_lets +onlyGivenNames u v
  have hu : s.kept q u := .foldl (fun _ _ hw => .ite (.dmaIdle hw) hw) h
  have hv : s.kept q v := .modTwin (.unsched (.unsched hu))
  exact hv.stored rfl fun c => ⟨SMap.wf_filter _ c.1, c.2⟩

theorem State.kept.release (h : s.kept q t) : s.kept q t.release :=
  .ite (.modTwin (.unsched (.setFld (.flightDrop (.setOwn h))))) (.ite (.modTwin (.flightDrop (.setOwn h))) (.setOwn h))

theorem State.keptOut.execFaultHoldExpiry (h : s.kept q t) : s.keptOut q (execFaultHoldExpiry t) := .next (.ite (.release h) h)

theorem State.keptOut.execOwnInRise (h : s.kept q t) : s.keptOut q (execOwnInRise t) :=
  .next (.ite (.modTwin (.setFld h)) (.ite (.release (.modTwin (.setFld h))) (.sched (.modTwin (.setFld h)))))

theorem State.keptOut.execDualOwn (h : s.kept q t) : s.keptOut q (execDualOwn t) := .next (.ite (.evcRaise h) h)

theorem State.kept.leaveDue (h : s.kept q t) : s.kept q t.leaveDue := by
  unfold State.leaveDue
  split
  · refine .ite ?_ ?_
    · exact h
    · extract_lets +onlyGivenNames u
      have hu : s.kept q u := .modTwin h
      clear_value u
      refine .ite ?_ ?_
      · split <;> exact .enterSafeHold hu
      · exact .enterStandby (.modTwin (.setReg hu))
  · exact h

theorem State.kept.sendHeartbeat (h : s.kept q t) : s.kept q t.sendHeartbeat := .twSend h

theorem State.keptOut.execHeartbeat {h' : TwHdr} {t' d : List Byte} (h : s.kept q t) : s.keptOut q (execHeartbeat h' t' d t) := by
  unfold Machine.execHeartbeat
  refine .twRecv h fun _ hu => .ite hu ?_
  extract_lets +onlyGivenNames now m gens v w x y z
  have hv : s.kept q v := .setFld (.setFld hu)
  have hw : s.kept q w := .ite (.setReg hv) hv
  have hx : s.kept q x := .ite (.setFld hw) hw
  have hy : s.kept q y := .ite (.setFld hx) hx
  have hz : s.kept q z := .modTwin hy
  exact .ite (.modTwin (.setReg (.setReg hz))) hz

theorem State.keptOut.execHeartbeatMissed (h : s.kept q t) : s.keptOut q (execHeartbeatMissed t) := .next (.ite (.bump h) h)

theorem State.kept.pairDone (h : s.kept q t) : s.kept q t.pairDone := by
  unfold State.pairDone
  refine .ite ?_ ?_
  · exact .pairFail h
  · extract_lets +onlyGivenNames u
    have hu : s.kept q u := .evcRaise (.unsched h)
    clear_value u
    refine .ite ?_ ?_
    · extract_lets +onlyGivenNames v
      have hv : s.kept q v := by
        unfold v
        split
        · exact .setReg hu
        · exact hu
      clear_value v
      exact .enterStandby hv
    · exact .modTwin (.setOwn (.setFld (.setFld (.ite hu (.runBegin hu)))))

theorem State.kept.pairBegin (h : s.kept q t) : s.kept q t.pairBegin := by
  unfold State.pairBegin
  extract_lets +onlyGivenNames now
  extract_lets +onlyGivenNames u
  have hu : s.kept q u := .modTwin h
  clear_value u
  split
  · refine .ite ?_ ?_
    · exact .pairFail hu
    · extract_lets +onlyGivenNames v
      have hv : s.kept q v := .sendPair hu
      clear_value v
      split
      · exact .pairJudge hv
      · exact hv
  · exact .ite (.modTwin hu) hu
  · exact .pairDone hu
  · exact hu

theorem State.kept.markLoad (h : s.kept q t) : s.kept q t.markLoad := by
  unfold State.markLoad
  split
  · exact .ite (.pairStep (.modTwin (.setReg (.loadCounts h)))) h
  · exact h

theorem State.kept.markPair (h : s.kept q t) : s.kept q t.markPair := .ite (.pairBegin h) (.ite (.pairStep (.sendPair h)) h)

theorem State.kept.markOffer (h : s.kept q t) : s.kept q t.markOffer := by
  unfold State.markOffer
  exact .modTwin (.ite (.twSend h) h)

theorem State.keptOut.execTwMark (h : s.kept q t) : s.keptOut q (execTwMark t) :=
  .ite (.next h) (.next (.markOffer (.markPair (.markLoad (.sendHeartbeat (.ite (.modTwin (.modTwin h)) (.modTwin h)))))))

theorem State.keptOut.execTwSyncReturn (h : s.kept q t) : s.keptOut q (execTwSyncReturn t) :=
  .ite (.next (.pairStep (.modTwin h))) (.next h)

theorem State.kept.phaseMeasure {a : Int} (h : s.kept q t) : s.kept q (t.phaseMeasure a) :=
  .ite (.setFld (.setReg (.modTwin h))) (.ite (.setFld (.setReg (.modTwin h))) (.setReg (.modTwin h)))

theorem State.keptOut.execTwSyncArrival {e : Int} (h : s.kept q t) : s.keptOut q (execTwSyncArrival e t) := by
  unfold Machine.execTwSyncArrival
  refine .ite ?_ ?_
  · exact .next h
  · extract_lets +onlyGivenNames a
    extract_lets +onlyGivenNames t'
    refine .ite ?_ ?_
    · exact .next (.phaseMeasure h)
    · refine .ite ?_ ?_
      · exact .next (.sched (.modTwin h))
      · refine .ite ?_ ?_
        · split
          · exact .next (.pairStep (.setReg h))
          · exact .next h
        · exact .ite (.next (.modTwin h)) (.next h)

theorem State.kept.shiftCounters {d : Int} (h : s.kept q t) : s.kept q (t.shiftCounters d) := .beside h rfl

theorem State.kept.twMarks (h : s.kept q t) : s.kept q t.twMarks :=
  .ite h (.ite (.emit (.ite (.emit (.ite (.emit (.ite h (.modTwin (.shiftCounters h)))) h)) (.ite (.emit (.ite h (.modTwin
    (.shiftCounters h)))) h))) (.ite (.emit (.ite (.emit (.ite h (.modTwin (.shiftCounters h)))) h)) (.ite (.emit (.ite h (.modTwin
    (.shiftCounters h)))) h)))

theorem State.keptOut.execEpochCapture (h : s.kept q t) : s.keptOut q (execEpochCapture t) :=
  .ite (.next h) (.ite (.next (.defer h)) (.ite (.next (.bump h)) (.ite (.next (.foldlSnd (fun _ _ hu => (.eccRead hu)) h)) (.next
    (.modTwin (.putMem (.setReg (.foldlSnd (fun _ _ hu => (.eccRead hu)) h))))))))

theorem State.kept.epochPeriod (h : s.kept q t) : s.kept q t.epochPeriod := .ite (.ite (.schedMore (.modTwin h)) (.modTwin h)) h

theorem State.kept.epochSend (h : s.kept q t) : s.kept q t.epochSend := by
  unfold State.epochSend
  split
  · exact .ite h (.ite (.emit h) (.modTwin (.twSend (.beat h))))
  · exact h

theorem State.keptOut.execEpochSent (h : s.kept q t) : s.keptOut q (execEpochSent t) := .next (.modTwin h)

theorem State.keptOut.execEpochAck {h' : TwHdr} {t' : List Byte} (h : s.kept q t) : s.keptOut q (execEpochAck h' t' t) :=
  .twRecv h (fun _ hu => (.ite (.ite (.pairStep (.evcRaise (.setReg hu))) (.evcRaise (.setReg hu))) hu))

theorem State.kept.commitRecords {n : Nat} {bs : List Byte} (h : s.kept q t) : s.kept q (t.commitRecords n bs) := by
  induction n generalizing t bs with
  | zero => exact h
  | succ n ih =>
    rw [State.commitRecords]
    exact .ite (.ite (.leCommit h) (.ite (.modTwin h) h)) (ih (.ite (.leCommit h) (.ite (.modTwin h) h)))

theorem State.kept.commitRegions {n : Nat} {bs : List Byte} (h : s.kept q t) : s.kept q (t.commitRegions n bs) := by
  induction n generalizing t bs with
  | zero => exact h
  | succ n ih =>
    rw [State.commitRegions]
    exact .ite (.ite (.putMem h) h) (ih (.ite (.putMem h) h))

theorem State.kept.epochCommit {seq : Word} {len : Nat} (h : s.kept q t) : s.kept q (t.epochCommit seq len) :=
  .draw (.sched (.modTwin (.setFld (.setReg (.commitRecords h)))))

theorem State.kept.epochEnd {seq : Word} {len : Nat} (h : s.kept q t) : s.kept q (t.epochEnd seq len) :=
  .ite (.ite (.modTwin (.modTwin (.eccRead h))) (.epochCommit (.modTwin (.eccRead h)))) (.epochDiscard (.eccRead h))

theorem State.keptOut.execEpoch {h' : TwHdr} {t' d : List Byte} (h : s.kept q t) : s.keptOut q (execEpoch h' t' d t) :=
  .twRecv h (fun _ hu => (.ite hu (.ite hu (.ite hu (.ite (.epochEnd (.modTwin (.putMem (.beat (.ite (.modTwin (.ite (.epochDiscard hu)
    hu)) (.ite (.epochDiscard hu) hu)))))) (.modTwin (.putMem (.beat (.ite (.modTwin (.ite (.epochDiscard hu) hu)) (.ite (.epochDiscard
    hu) hu))))))))))

theorem State.keptOut.execEpochApplyDone (h : s.kept q t) : s.keptOut q (execEpochApplyDone t) := by
  unfold Machine.execEpochApplyDone
  refine .ite (.next h) ?_
  extract_lets +onlyGivenNames seq u bs v w x y
  have hw : s.kept q w := .setFld (.commitRegions (.unsched (.eccRead h)))
  have hx : s.kept q x := .twSend hw
  have hy : s.kept q y := .ite (.pairStep hx) hx
  refine .ite ?_ (.next hw)
  split
  · exact .next (.epochCommit (.modTwin hy))
  · exact .next hy

theorem State.kept.pwmRow {c : Instr} (h : s.kept q t) : s.kept q (pwmRow c t) := by
  unfold Machine.pwmRow
  extract_lets +onlyGivenNames run
  have hrun : ∀ o, s.keptOut q o → s.kept q (run o) := by
    intro o ho
    unfold run
    split
    · exact ho _ rfl
    · exact h
  clear_value run
  split
  · exact hrun _ (.execPwmPeriodStart h)
  · exact hrun _ (.execPwmPeriodMiddle h)
  · exact hrun _ (.execPwmCompareAction h)
  · exact hrun _ (.execDeadTimeEnd h)
  · exact hrun _ (.execAdaptiveTurnOn h)
  · exact hrun _ (.execDtmaxExpiry h)
  · exact hrun _ (.execPeriodEnd h)
  · exact hrun _ (.execPeriodMax h)
  · exact h

theorem State.kept.pwmAhead (h : s.kept false t) : s.kept false t.pwmAhead := by
  unfold State.pwmAhead
  extract_lets +onlyGivenNames thet
  extract_lets +onlyGivenNames due
  have hdue : ∀ x0 u, s.kept false u → s.kept false (due x0 u) := fun _ _ hu => .foldl (fun _ _ hv => (.pwmRow hv)) (.beside hu rfl)
  clear_value due
  extract_lets +onlyGivenNames rows
  have hrows : ∀ u, s.kept false u → s.kept false (rows u) := fun _ hu => .foldl (fun _ _ hv => (.pwmRow hv)) (.beside hu rfl)
  clear_value rows
  extract_lets +onlyGivenNames u
  have hu : s.kept false u := hdue _ _ (hdue _ _ (.pwmFirstAll (hdue _ _ (.moved h rfl))))
  clear_value u
  extract_lets +onlyGivenNames v
  have hv : s.kept false v := .pwmWaits (.pwmFirstAll (hrows _ (.pwmEnds hu)))
  clear_value v
  exact hrows _ (.foldl (fun _ _ hw => (.pwmLate hw)) (hdue _ _ hv))
end
end Sys2Proof.Machine
end

