-- ==== Sys2Proof/Proofs/KeptBus.lean ====
section
/-! PROOF. What bus accesses and the DMA engine keep. -/

namespace Sys2Proof.Machine

section
variable {q : Bool} {s t : State}

theorem State.kept.ramWrite {m : Option Pair} {a v n : Nat} (h : s.kept q t) : s.kept q (t.ramWrite m a v n) :=
  .ite (.leBusWrite h) (.ite (.busError (.eccWrite h)) (.writeLE (.snoop (.eccWrite h))))

theorem State.kept.tsRead {n : Fin 2} {peek : Bool} (h : s.kept q t) : s.kept q (t.tsRead n peek).2 := by
  unfold State.tsRead
  extract_lets +onlyGivenNames e
  split
  · exact h
  · exact .iteSnd h (.beside h rfl)

theorem State.kept.regRead {r : Req} {peek : Bool} {rn : RegName} {i j : Nat} (h : s.kept q t) : s.kept q (t.regRead r peek rn i j).2 :=
  by
  unfold State.regRead
  split
  · exact .todRead h
  · exact h
  · exact h
  · exact .iteSnd h (.qBusPop h)
  · exact .iteSnd h (.poolAlloc h)
  · exact .iteSnd h (.semRead h)
  · exact .tsRead h
  · split
    · exact h
    · exact .readReg h

theorem State.kept.writeFix {rn : RegName} {i j : Nat} {v : Word} {f : Fld} {x : Nat} (h : s.kept q t) :
    s.kept q (t.writeFix rn i j v f x) := .setFld (.writeReg h)

theorem State.kept.writeErr {rn : RegName} {i : Nat} {v : Word} {f : Fld} (h : s.kept q t) : s.kept q (t.writeErr rn i v f) :=
  .setFld (.writeReg h)

theorem State.kept.leRegWrite {rn : RegName} {n : LeId} {v : Word} (h : s.kept q t) : s.kept q (t.leRegWrite rn n v) := by
  unfold State.leRegWrite
  split
  · exact .leCtrlWrite h
  · exact .leStatWrite h
  · exact .leObsWrite h
  · exact .reacqWrite h
  · exact .ite (.leSwap h) h
  · exact .tblWrite h
  · exact .writeReg h

theorem State.kept.pwmRegWrite {rn : RegName} {n : GenId} {v : Word} (h : s.kept q t) : s.kept q (t.pwmRegWrite rn n v) := by
  unfold State.pwmRegWrite
  split
  · exact .pwmCfgWrite h
  · exact .pwmSafeWrite h
  · exact .tripClear h
  · exact .shadowWrite h
  · exact .shadowWrite h
  · exact .shadowWrite h
  · exact .shadowWrite h
  · exact .shadowWrite h
  · exact .shadowWrite h
  · exact .shadowWrite h
  · exact .shadowWrite h
  · exact .shadowWrite h
  · exact .shadowWrite h
  · exact .shadowWrite h
  · exact .shadowWrite h
  · exact .writeReg h

theorem State.kept.controlWrite {r : Req} {rn : RegName} {i j : Nat} {v : Word} (h : s.kept q t) :
    s.kept q (t.controlWrite r rn i j v) := by
  unfold State.controlWrite
  split
  · exact .adcCtrlWrite h
  · exact .adcRefWrite h
  · exact .adcSwWrite h
  · exact .adcSeqWrite h
  · exact .adcEntWrite h
  · exact .cmpCfgWrite h
  · exact .thrWrite h
  · exact .thrWrite h
  · exact .winCfgWrite h
  · exact .checkWrite h
  · exact .loadAllWrite h
  · exact .pwmStartWrite h
  · exact .ite (.writeReg h) (.foreign h)
  · exact .tmrCtrlWrite h
  · exact .tmrReloadWrite h
  · exact .tmrValWrite h
  · exact .tmrMask h (fun _ _ hu => (.tmrStart hu))
  · exact .tmrMask h (fun _ _ hu => (.tmrHalt hu))
  · exact .todCfgWrite h
  · exact .addendWrite h
  · exact .todCommitWrite h
  · exact .commitAtWrite h
  · exact .posCfgWrite h
  · exact .posPreset h
  · exact .posDivnmWrite h
  · exact .posStatWrite h
  · exact .posSsiWrite h
  · exact .swRaise h
  · exact .renWrite h
  · exact .writeReg h

theorem State.kept.serviceWrite {r : Req} {rn : RegName} {i j : Nat} {v : Word} (h : s.kept q t) :
    s.kept q (t.serviceWrite r rn i j v) := by
  unfold State.serviceWrite
  refine .ite ?_ ?_
  · exact h
  · split
    · exact .evcPendSetWrite h
    · exact .evcPendClrWrite h
    · exact .evcMaskSetWrite h
    · exact .evcMaskClrWrite h
    · exact .evcComplete h
    · exact .ite (.writeReg h) (.bump h)
    · exact .setFld h
    · exact .recallWrite h
    · exact .dmaCtrlWrite h
    · exact .dmaOwned h (fun _ hu => (.ite hu (.writeReg hu)))
    · exact .dmaOwned h (fun _ hu => (.writeReg hu))
    · exact .dmaOwned h (fun _ hu => (.writeReg hu))
    · exact .dmaOwned h (fun _ hu => (.writeReg hu))
    · exact .dmaOwned h (fun _ hu => (.writeReg hu))
    · exact .dmaOwned h (fun _ hu => (.writeErr hu))
    · exact .qBusPush h
    · exact .qBusPush h
    · exact .qCtrlWrite h
    · exact .qCommand h (fun _ hu => (.writeReg hu))
    · exact .poolFree h
    · exact .poolGive h
    · exact .semWrite h
    · exact .semForce h
    · exact .writeReg h

theorem State.kept.flRegWrite {r : Req} {rn : RegName} {i j : Nat} {v : Word} (h : s.kept q t) : s.kept q (t.flRegWrite r rn i j v) := by
  unfold State.flRegWrite
  split
  · exact .flKeyWrite h
  · exact .flCmd h
  · exact .plReq h
  · exact .flStatWrite h
  · exact .flWsWrite h
  · exact .flNoKey (.writeReg h)

theorem State.kept.systemWrite {r : Req} {rn : RegName} {i j : Nat} {v : Word} (h : s.kept q t) : s.kept q (t.systemWrite r rn i j v) :=
  by
  unfold State.systemWrite
  split
  · exact .modeReqWrite h
  · exact .twCtrlWrite h
  · exact .writeErr h
  · exact .writeFix h
  · exact .writeFix h
  · exact .ite (.writeFix h) h
  · exact .ite (.writeFix h) h
  · exact h
  · exact h
  · exact h
  · exact h
  · exact .writeErr h
  · exact .ite h (.writeReg h)

theorem State.kept.regWrite {r : Req} {rn : RegName} {i j : Nat} {v : Word} (h : s.kept q t) : s.kept q (t.regWrite r rn i j v) :=
  .ite (.leOwned h (fun _ hu => (.leRegWrite hu))) (.ite (.pwmOwned h (fun _ hu => (.pwmRegWrite hu))) (.ite (.flRegWrite h) (.ite
    (.controlWrite h) (.ite (.serviceWrite h) (.systemWrite h)))))

theorem State.kept.configWrite {a v n : Nat} (h : s.kept q t) : s.kept q (t.configWrite a v n) :=
  .ite (.writeLE h) (.ite (.setReg (.writeLE h)) h)

theorem State.kept.busRead {r : Req} {peek : Bool} {a n : Nat} (h : s.kept q t) : s.kept q (t.busRead r peek a n).2 := by
  unfold State.busRead
  split
  · exact .pair h
  · exact .pair (.eccRead (.beat h))
  · split
    · rename_i u e
      have hu : s.kept q u := .of_snd e (.flReadBy h)
      exact .pair hu
    · rename_i u e
      have hu : s.kept q u := .of_snd e (.flReadBy h)
      exact .pair hu
    · rename_i u e
      have hu : s.kept q u := .of_snd e (.flReadBy h)
      exact .pair hu
  · exact .pair h
  · exact .pair (.regRead h)

theorem State.kept.busWrite {r : Req} {a v n : Nat} (h : s.kept q t) : s.kept q (t.busWrite r a v n) := by
  unfold State.busWrite
  extract_lets +onlyGivenNames u
  have hu : s.kept q u := .answer h
  clear_value u
  split
  · exact .busError hu
  · exact .ramWrite (.beat hu)
  · exact .busError hu
  · exact .ite (.configWrite hu) (.busError hu)
  · exact .regWrite hu

theorem State.keptOut.wordCmd {r : Req} {k : Kind} {a : Word} {body : State → State} (h : s.kept q t) (hbody : ∀ u, s.kept q u → s.kept q
  (body u)) :
    s.keptOut q (wordCmd r k a body t) := .ite (.ite (.next (.busError h)) (.ite (.next (hbody _ (.access h))) (.next (.busError
      (.violation h))))) (.next h)

theorem State.kept.readAnswer {r : Req} {peek : Bool} {a : Word} (h : s.kept q t) : s.kept q (t.readAnswer r peek a) := by
  unfold State.readAnswer
  split
  · rename_i u e
    have hu : s.kept q u := .of_snd e (.busRead h)
    exact .answer hu
  · rename_i u e
    have hu : s.kept q u := .of_snd e (.busRead h)
    exact .answer hu
  · rename_i u e
    have hu : s.kept q u := .of_snd e (.busRead h)
    exact .busError hu

theorem State.keptOut.execRegisterReadClear {r : Req} {a : Word} (h : s.kept q t) : s.keptOut q (execRegisterReadClear r a t) :=
  .wordCmd h (fun _ hu => (.readAnswer hu))

theorem State.keptOut.execRegisterWrite {r : Req} {a v : Word} (h : s.kept q t) : s.keptOut q (execRegisterWrite r a v t) :=
  .wordCmd h (fun _ hu => (.busWrite hu))

theorem State.kept.dmaFetch {n : Chan} (h : s.kept q t) : s.kept q (t.dmaFetch n) := by
  unfold State.dmaFetch
  extract_lets +onlyGivenNames a
  refine .ite ?_ ?_
  · exact .dmaFail (.violation h)
  · refine .ite ?_ ?_
    · exact .dmaFail h
    · extract_lets +onlyGivenNames now
      extract_lets +onlyGivenNames u
      have hu : s.kept q u.2 := .eccRead (.beat h)
      clear_value u
      refine .ite ?_ ?_
      · exact .dmaFail hu
      · extract_lets +onlyGivenNames v
        have hv : s.kept q v := hu
        clear_value v
        extract_lets +onlyGivenNames w'
        extract_lets +onlyGivenNames d
        extract_lets +onlyGivenNames w
        have hw : s.kept q w := .setReg hv
        clear_value w
        refine .ite ?_ ?_
        · exact .dmaFail hw
        · refine .ite ?_ ?_
          · exact .modCh hw
          · refine .ite ?_ ?_
            · exact .dmaFail hw
            · split
              · exact .dmaFail (.violation hw)
              · exact .modCh hw

theorem State.kept.dmaDescEnd {n : Chan} {d : DmaDesc} (h : s.kept q t) : s.kept q (t.dmaDescEnd n d) :=
  .ite (.raiseFld (.dmaIdle (.ite (.evcRaise h) h))) (.ite (.dmaFail (.ite (.evcRaise h) h)) (.modCh (.setReg (.ite (.evcRaise h) h))))

theorem State.kept.dmaGet {r : Req} {d : DmaDesc} {f : DmaFlow} {base g : Nat} (h : s.kept q t) :
    s.kept q (t.dmaGet r d f base g).2.2 := by
  unfold State.dmaGet
  split
  · exact h
  · split
    next e => exact .of_snd e (.busRead h)
    next e => exact .of_snd e (.busRead h)
    next e => exact .of_snd e (.busRead h)

theorem State.kept.dmaUnit {r : Req} {d : DmaDesc} {f : DmaFlow} {j : Nat} (h : s.kept q t) : s.kept q (t.dmaUnit r d f j).2.2 := by
  unfold State.dmaUnit
  split
  · exact .qPopRec h
  · extract_lets a g base nxt
    split
    · exact .violation h
    · split
      next e => exact .of_third e (.dmaGet h)
      next u e =>
        have hu : s.kept q u := .of_third e (.dmaGet h)
        extract_lets low
        split
        · exact hu
        · split
          next e' => exact .of_third e' (.dmaGet hu)
          next e' => exact .of_third e' (.dmaGet hu)

theorem State.kept.dmaRead {r : Req} {d : DmaDesc} {f : DmaFlow} {j k : Nat} (h : s.kept q t) :
    s.kept q (t.dmaRead r d f j k).2.2.2 := by
  induction k generalizing t f j with
  | zero => exact h
  | succ k ih =>
    rw [State.dmaRead]
    split
    next e => exact .of_third e (.dmaUnit h)
    next e => exact ih (.of_third e (.dmaUnit h))

theorem State.kept.dmaBeat {r : Req} {n : Nat} {us : DmaUnits} (h : s.kept q t) : s.kept q (t.dmaBeat r n us).2 := by
  unfold State.dmaBeat
  split
  · exact h
  · exact .iteSnd (.busWrite h) (.foldlSnd (fun _ _ hu => (.busWrite hu)) h)

theorem State.kept.dmaPut {r : Req} {d : DmaDesc} {f : DmaFlow} {j v : Nat} (h : s.kept q t) : s.kept q (t.dmaPut r d f j v).2.2 := by
  unfold State.dmaPut
  split
  · exact .qPushRec h
  · extract_lets a n g base us rest v'
    split
    · exact .dmaBeat h
    · exact h

theorem State.kept.dmaWrite {r : Req} {d : DmaDesc} {f : DmaFlow} {j : Nat} {vs : List Nat} (h : s.kept q t) :
    s.kept q (t.dmaWrite r d f j vs).2.2 := by
  induction vs generalizing t f j with
  | nil => exact h
  | cons v vs ih =>
    rw [State.dmaWrite]
    split
    next e => exact .of_third e (.dmaPut h)
    next e => exact ih (.of_third e (.dmaPut h))

theorem State.kept.dmaFlush {r : Req} {n : Nat} {xs : List (Nat × DmaUnits)} (h : s.kept q t) : s.kept q (t.dmaFlush r n xs).2 := by
  induction xs generalizing t with
  | nil => exact h
  | cons x xs ih =>
    rw [State.dmaFlush]
    exact .iteSnd (.dmaBeat h) (ih (.dmaBeat h))

theorem State.kept.dmaMove {r : Req} {d : DmaDesc} {f : DmaFlow} {g k : Nat} (h : s.kept q t) :
    s.kept q (t.dmaMove r d f g k).2.2.2 := by
  induction k generalizing t f g with
  | zero => exact h
  | succ k ih =>
    rw [State.dmaMove]
    have hread := State.kept.dmaRead (r := r) (d := d) (f := f) (j := g * d.counts.1) (k := d.counts.1) h
    split
    next e =>
      rw [e] at hread
      exact hread
    next u e =>
      rw [e] at hread
      have hu : s.kept q u := hread
      split
      next e' => exact .of_third e' (.dmaWrite hu)
      next e' => exact ih (.of_third e' (.dmaWrite hu))

theorem State.kept.dmaDone {n : Chan} {d : DmaDesc} {k : Nat} (h : s.kept q t) : s.kept q (t.dmaDone n d k) := .setReg (.modCh h)

theorem State.kept.dmaFreed (h : s.kept q t) : s.kept q t.dmaFreed := by
  unfold State.dmaFreed
  extract_lets +onlyGivenNames u
  have hu : s.kept q u := .unsched h
  clear_value u
  extract_lets +onlyGivenNames part v
  have hv : s.kept q v := .beside hu rfl
  clear_value v
  exact .ite (.emitOnce hv) hv

theorem State.kept.dmaAdvance {b : DmaBlock} {d : DmaDesc} {upto : Nat} {fin : Bool} (h : s.kept q t) :
    s.kept q (t.dmaAdvance b d upto fin) := by
  unfold State.dmaAdvance
  extract_lets +onlyGivenNames n r o m f done b'
  have hm : s.kept q m.2.2.2 := .dmaMove h
  clear_value m
  split
  · exact .dmaFail (.dmaFreed (.dmaDone hm))
  · exact .dmaFail (.dmaFreed (.dmaDone (.dmaFlush hm)))
  · split
    · extract_lets +onlyGivenNames u v
      have hv : s.kept q v := .dmaDone (.dmaFlush hm)
      exact .ite (.beside hv rfl) (.dmaFail (.dmaFreed hv))
    · extract_lets +onlyGivenNames v
      have hv : s.kept q v := .dmaDone hm
      exact .beside hv rfl

theorem State.kept.dmaBegin {n : Chan} {d : DmaDesc} (h : s.kept q t) : s.kept q (t.dmaBegin n d) := .sched (.beside h rfl)

theorem State.keptOut.execDmaBlockStart (h : s.kept q t) : s.keptOut q (execDmaBlockStart t) := by
  unfold Machine.execDmaBlockStart
  refine .ite ?_ ?_
  · exact .next h
  · extract_lets +onlyGivenNames u
    have hu : s.kept q u := .foldl (fun _ _ hu => (.dmaPace hu)) (.unsched h)
    clear_value u
    extract_lets +onlyGivenNames v
    have hv : s.kept q v := .foldl (fun _ _ hv => (.ite (.dmaDescEnd hv) hv)) hu
    clear_value v
    refine .ite ?_ ?_
    · exact .next (.sched hv)
    · split
      · exact .next hv
      · extract_lets +onlyGivenNames w
        have hw : s.kept q w := .ite (.dmaPace (.dmaFetch hv)) hv
        clear_value w
        refine .ite ?_ ?_
        · exact .next (.sched hw)
        · split
          · exact .ite (.next (.dmaBegin hw)) (.next (.ite (.emit hw) hw))
          · exact .next (.ite (.emit hw) hw)

theorem State.kept.dmaBlockCycle (h : s.kept q t) : s.kept q t.dmaBlockCycle := by
  unfold State.dmaBlockCycle
  split
  · exact h
  · split
    · exact h
    · exact .ite h (.ite (.beside h rfl) (.ite h (.dmaAdvance h)))

theorem State.keptOut.execDmaBlockEnd (h : s.kept q t) : s.keptOut q (execDmaBlockEnd t) := by
  unfold Machine.execDmaBlockEnd
  split
  · exact .next h
  · extract_lets +onlyGivenNames n
    extract_lets +onlyGivenNames u
    have hu : s.kept q u := by
      unfold u
      split
      · exact .dmaFreed h
      · exact .ite (.ite (.ite (.dmaDescEnd (.dmaFreed (.dmaAdvance h))) (.dmaFail (.dmaFreed (.dmaAdvance h)))) (.ite (.dmaDescEnd
          (.dmaFreed (.dmaAdvance h))) (.dmaFreed (.dmaAdvance h)))) (.dmaAdvance h)
    clear_value u
    exact .next (.ite (.emit hu) hu)

theorem State.kept.dmaTick (h : s.kept q t) : s.kept q t.dmaTick := .ite h (.dmaLook (.ite (.dmaBlockCycle h) h))
end
end Sys2Proof.Machine
end

