-- ==== Sys2Proof/Proofs/KeptLoads.lean ====
section
/-! PROOF. What image and load keep. -/

namespace Sys2Proof.Machine

section
variable {q : Bool} {s t : State}

theorem State.kept.putReg {a : Nat} {w : Word} (h : s.kept q t) : s.kept q (t.putReg a w) := by
  unfold State.putReg
  split
  · exact .setReg h
  · exact h

theorem State.kept.putRegs {a : Nat} {ws : List Word} (h : s.kept q t) : s.kept q (t.putRegs a ws) := by
  induction ws generalizing t a with
  | nil => exact h
  | cons w ws ih => exact ih (.putReg h)

theorem State.kept.putTenants {ws : List Word} (h : s.kept q t) : s.kept q (t.putTenants ws) := .foldl (fun _ _ hu => .putRegs hu) h

theorem State.kept.putResv {ws : List Word} (h : s.kept q t) : s.kept q (t.putResv ws) := .foldl (fun _ _ hu => (.ite (.setFld hu) hu)) h

theorem State.kept.putRoutes {bs : List Byte} (h : s.kept q t) : s.kept q (t.putRoutes bs) := .putRegs (.setBytes h)

theorem State.kept.putLe {rs : List LeRec} (h : s.kept q t) : s.kept q (t.putLe rs) :=
  .foldl (fun _ _ hu => (.ite (.setBytes (.clearMem hu)) hu)) h

theorem State.kept.putPeriph {rs : List PeriphRec} (h : s.kept q t) : s.kept q (t.putPeriph rs) :=
  .foldl (fun _ _ hu => (.ite (.busWrite hu) hu)) h

theorem State.kept.asLoader {f : State → State} (h : s.kept q t) (hf : ∀ u, s.kept q u → s.kept q (f u)) : s.kept q (t.asLoader f) := by
  unfold State.asLoader
  extract_lets +onlyGivenNames m
  extract_lets +onlyGivenNames part u
  have hu : s.kept q u := hf _ (.beside h rfl)
  clear_value u
  exact .beside hu rfl

theorem State.kept.putImage {img : List Byte} (h : s.kept q t) : s.kept q (t.putImage img) := by
  unfold State.putImage
  extract_lets +onlyGivenNames a b c d e f
  have hf : s.kept q f := .asLoader (.putLe (.putRoutes (.putResv (.putRegs (.putTenants h))))) fun _ hu => .putPeriph hu
  clear_value f
  exact .ite (.putMem (.beside hf rfl)) (.beside hf rfl)

theorem State.kept.loadBegin {src : LoadSrc} (h : s.kept false t) : s.kept false (t.loadBegin src) := by
  unfold State.loadBegin
  extract_lets +onlyGivenNames u
  have hu : s.kept false u := .bump (.setFld h)
  clear_value u
  extract_lets +onlyGivenNames v
  have hv : s.kept false v := .setFld hu
  clear_value v
  extract_lets +onlyGivenNames now
  extract_lets +onlyGivenNames w
  have hw : s.kept false w := .moved hv rfl
  clear_value w
  exact .setMode hw

theorem State.kept.loadBytes {d : List Byte} (h : s.kept false t) : s.kept false (t.loadBytes d) :=
  .ite (.moved h rfl) (.setMode (.unsched (.unsched (.ite (.putImage (.moved h rfl)) (.moved h rfl)))))

theorem State.kept.hostLoad {off : Nat} {d : List Byte} (h : s.kept false t) : s.kept false (t.hostLoad off d).2 := by
  unfold State.hostLoad
  split
  · exact .iteSnd h (.loadBytes (.sched (.loadBegin h)))
  · exact .iteSnd h (.iteSnd (.loadBytes (.sched h)) (.sched h))
  · exact h
  · exact h

theorem State.keptOut.execHpLoad {f : HpFrame} {offset : Word} {data : List Byte} (h : s.kept false t) :
    s.keptOut false (execHpLoad f offset data t) := .hpCmd h (fun _ _ hu => (.ite (.hpRespond hu) (.hpRespond (.hostLoad hu))))

theorem State.keptOut.execHpAbort {f : HpFrame} (h : s.kept false t) : s.keptOut false (execHpAbort f t) :=
  .hpCmd h (fun _ _ hu => (.hpRespond (.ite (.toBlank hu) hu)))

theorem State.keptOut.execHostLoadTimeout (h : s.kept false t) : s.keptOut false (execHostLoadTimeout t) := .next (.ite (.toBlank h) h)

theorem State.keptOut.execTwinLoadTimeout (h : s.kept false t) : s.keptOut false (execTwinLoadTimeout t) := .next (.ite (.toBlank h) h)

theorem State.keptOut.execLinkDown (h : s.kept false t) : s.keptOut false (execLinkDown t) :=
  .ite (.next (.ite (.toBlank (.modTwin (.setFld h))) (.modTwin (.setFld h)))) (.next h)

theorem State.keptOut.execLinkUp (h : s.kept q t) : s.keptOut q (execLinkUp t) := .next (.ite (.setFld h) h)

theorem State.keptOut.execBlank {h' : TwHdr} {t' : List Byte} (h : s.kept q t) : s.keptOut q (execBlank h' t' t) :=
  .twRecv h (fun _ hu => (.ite (.modTwin hu) hu))

theorem State.keptOut.execBlankFrameSend (h : s.kept q t) : s.keptOut q (execBlankFrameSend t) := .next (.ite (.twSend h) h)

theorem State.keptOut.execLoadOffer {h' : TwHdr} {t' : List Byte} (h : s.kept false t) : s.keptOut false (execLoadOffer h' t' t) := by
  unfold Machine.execLoadOffer
  refine .twRecv h (fun _ hu => ?_)
  extract_lets +onlyGivenNames same
  refine .ite ?_ ?_
  · extract_lets +onlyGivenNames v
    have hv : s.kept false v := .setFld (.unsched hu)
    clear_value v
    extract_lets +onlyGivenNames part w
    have hw : s.kept false w := .ite (.moved hv rfl) (.loadBegin hu)
    clear_value w
    extract_lets +onlyGivenNames len
    extract_lets +onlyGivenNames part4 x
    have hx : s.kept false x := .moved hw rfl
    clear_value x
    exact .sched (.twSend hx)
  · exact hu

theorem State.keptOut.execLoadReq {h' : TwHdr} {t' : List Byte} (h : s.kept q t) : s.keptOut q (execLoadReq h' t' t) :=
  .twRecv h (fun _ hu => (.ite (.modTwin hu) hu))

theorem State.keptOut.execLoadData {h' : TwHdr} {t' d : List Byte} (h : s.kept false t) : s.keptOut false (execLoadData h' t' d t) :=
  .ite (.next h) (.ite (.next (.ite (.toBlank (.bump h)) (.bump h))) (.ite (.next h) (.ite (.next (.toBlank h)) (.next (.loadBytes
    (.sched h))))))

theorem State.keptOut.execLoadStatus {h' : TwHdr} {t' : List Byte} (h : s.kept q t) : s.keptOut q (execLoadStatus h' t' t) :=
  .twRecv h (fun _ hu => (.modTwin hu))

theorem State.kept.offerSend (h : s.kept q t) : s.kept q t.offerSend := by
  unfold State.offerSend
  split
  · extract_lets +onlyGivenNames len
    refine .ite ?_ ?_
    · exact .modTwin h
    · extract_lets +onlyGivenNames k
      extract_lets +onlyGivenNames n
      refine .ite ?_ ?_
      · exact h
      · split
        · rename_i u e
          have hu : s.kept q u := .of_snd e (.getMem h)
          exact .modTwin (.twSend hu)
        · rename_i u e
          have hu : s.kept q u := .of_snd e (.getMem h)
          exact .modTwin hu
  · exact h

theorem State.kept.fuseKey {img : List Byte} (h : s.kept q t) : s.kept q (t.fuseKey img) :=
  .ite (.setFld (.foldl (fun _ _ hu => (.setReg hu)) h)) h

theorem State.kept.takeRoutes (h : s.kept q t) : s.kept q t.takeRoutes := by
  unfold State.takeRoutes
  exact .beside h rfl

theorem State.kept.loadStatusTo {src : LoadSrc} {w : Word} {mode : Nat} (h : s.kept q t) : s.kept q (t.loadStatusTo src w mode) :=
  .ite (.twSend h) h

theorem State.kept.imgIds {img : List Byte} (h : s.kept q t) : s.kept q (t.imgIds img) := .setReg (.setReg h)

theorem State.kept.verifyPass {st : SelfTest} {img : List Byte} (h : s.kept false t) : s.kept false (t.verifyPass st img) :=
  .loadStatusTo (.enterReady (.moved (.ite (.setFld (.takeRoutes (.imgIds (.fuseKey h)))) (.takeRoutes (.imgIds (.fuseKey h)))) rfl))

theorem State.keptOut.execVerifyEnd {st : SelfTest} (h : s.kept false t) : s.keptOut false (execVerifyEnd st t) :=
  .ite (.next h) (.ite (.next (.loadStatusTo (.toBlank (.setReg h)))) (.next (.ite (.loadStatusTo (.toBlank (.foldl (fun _ _ hu =>
    (.setFld hu)) (.setReg h)))) (.verifyPass (.foldl (fun _ _ hu => (.setFld hu)) (.setReg h))))))

theorem State.kept.keptImage (h : s.kept q t) : s.kept q t.keptImage.2 := by
  unfold State.keptImage
  split
  · rename_i u e
    have hu : s.kept q u := .of_snd e (.soundMem h)
    exact .pair hu
  · rename_i u e
    have hu : s.kept q u := .of_snd e (.soundMem h)
    exact .iteSnd (.pair hu) (.soundMem hu)

theorem State.kept.wakeFail {sub : Nat} (h : s.kept q t) : s.kept q (t.wakeFail sub) := .enterSafeHold (.beside h rfl)

theorem State.keptOut.execRetentionWake {st : WakeTest} (h : s.kept q t) : s.keptOut q (execRetentionWake st t) := by
  unfold Machine.execRetentionWake
  refine .ite ?_ ?_
  · exact .next (.ite (.beside h rfl) h)
  · extract_lets +onlyGivenNames u
    have hu : s.kept q u := .setFld (.setFld h)
    clear_value u
    refine .ite ?_ ?_
    · exact .next (.wakeFail (.setFld hu))
    · refine .ite ?_ ?_
      · exact .next (.wakeFail hu)
      · split
        · rename_i v e
          have hv : s.kept q v := .of_snd e (.keptImage hu)
          exact .next (.wakeFail hv)
        · rename_i v e
          have hv : s.kept q v := .of_snd e (.keptImage hu)
          refine .ite ?_ ?_
          · exact .next (.wakeFail hv)
          · extract_lets +onlyGivenNames w
            have hw : s.kept q w := .putResv hv
            clear_value w
            extract_lets +onlyGivenNames x
            have hx : s.kept q x := .putRoutes hw
            clear_value x
            extract_lets +onlyGivenNames part y
            have hy : s.kept q y := .asLoader (.beside hx rfl) (fun _ hz => (.putPeriph hz))
            clear_value y
            extract_lets +onlyGivenNames part4 z
            have hz : s.kept q z := .beside hy rfl
            clear_value z
            extract_lets +onlyGivenNames u1
            have hu1 : s.kept q u1 := .setFld (.imgIds (.takeRoutes hz))
            clear_value u1
            exact .next (.enterReady hu1)
end
end Sys2Proof.Machine
end

