-- ==== Sys2Proof/Proofs/KeptOutside.lean ====
section
/-! PROOF. What debug port, Ethernet and background services keep. -/

namespace Sys2Proof.Machine

section
variable {q : Bool} {s t : State}

theorem State.kept.dbgErr {code : Nat} (h : s.kept q t) : s.kept q (t.dbgErr code) := .raiseFld h

theorem State.kept.askHalt {p : Pair} (h : s.kept q t) : s.kept q (t.askHalt p) := .ite h (.emit (.modPair h))

theorem State.kept.dbgHalt {p : Pair} (h : s.kept q t) : s.kept q (t.dbgHalt p).2 := .iteSnd (.beside (.dbgErr h) rfl) (.askHalt h)

theorem State.kept.unbar (h : s.kept q t) : s.kept q t.unbar := .ite h (.beside (.foldl (fun _ _ hu => (.setFld (.askHalt hu))) h) rfl)

theorem State.kept.dbgStep {p : Pair} (h : s.kept q t) : s.kept q (t.dbgStep p) := .modPair h

theorem State.keptOut.execAuthComplete (h : s.kept q t) : s.keptOut q (execAuthComplete t) := by
  unfold Machine.execAuthComplete
  refine .ite ?_ ?_
  · exact .next h
  · extract_lets +onlyGivenNames u
    have hu : s.kept q u := .unsched h
    clear_value u
    extract_lets +onlyGivenNames part v
    have hv : s.kept q v := .beside hu rfl
    clear_value v
    extract_lets +onlyGivenNames fail
    have hfail : ∀ u x0, s.kept q u → s.kept q (fail u x0) := fun _ _ hw => .ite (.setFld (.setFld (.dbgErr hw))) (.setFld (.dbgErr hw))
    clear_value fail
    exact .next (.ite (hfail _ _ hv) (.ite (.setFld (.setFld hv)) (hfail _ _ hv)))

theorem State.kept.safegrpWrite {v : Word} (h : s.kept q t) : s.kept q (t.safegrpWrite v) :=
  .unbar (.foldl (fun _ _ hu => (.ite (.pwmSafe hu) hu)) (.setReg h))

theorem State.kept.dbgPoke {a : DbgLoc} {v : Word} (h : s.kept q t) : s.kept q (t.dbgPoke a v) := by
  unfold State.dbgPoke
  split
  · exact h
  · exact .both h
  · exact .both h
  · exact .both (.ite (.setFld h) h)

theorem State.kept.dbgDeny (h : s.kept q t) : s.kept q t.dbgDeny.2.2 := .dbgErr h

theorem State.kept.dbgAttach {host : Bool} {k : Nat} (h : s.kept q t) : s.kept q (t.dbgAttach host k).2.2 := by
  unfold State.dbgAttach
  split
  · exact h
  · split
    · exact h.dbgDeny
    · exact .setFld (.setFld (.ite h (.beside h rfl)))

theorem State.kept.dbgCtrl {host : Bool} {v : Word} (h : s.kept q t) : s.kept q (t.dbgCtrl host v).2.2 := by
  unfold State.dbgCtrl
  extract_lets +onlyGivenNames u a v' w g x
  have hu : s.kept q u := .ite (.dbgEnd h) h
  have hv : s.kept q v' := hu.dbgAttach
  have hw : s.kept q w := .ite (.foldl (fun _ _ hu => .dbgRelease hu) hv) hv
  have hg : s.kept q g.2 := .foldlSnd (fun _ _ hu => .dbgHalt hu) hw
  have hx : s.kept q x := .foldl (fun _ _ hu => .dbgStep hu) hg
  clear_value g x
  split
  · exact hv
  · split
    · exact hv.dbgDeny
    · split
      · exact hx
      · exact hx

theorem State.kept.authReq (h : s.kept q t) : s.kept q t.authReq.2.2 := by
  unfold State.authReq
  split
  · exact h.dbgDeny
  · extract_lets +onlyGivenNames k u
    have hu : s.kept q u := .foldl (fun _ _ hu => .setReg hu) (.draw h)
    exact .beside hu rfl

theorem State.kept.authStart (h : s.kept q t) : s.kept q t.authStart.2.2 := by
  unfold State.authStart
  split
  · exact h.dbgDeny
  · exact .sched (.beside (.draw h) rfl)

theorem State.kept.dbgAuth {v : Word} (h : s.kept q t) : s.kept q (t.dbgAuth v).2.2 := by
  unfold State.dbgAuth
  extract_lets r
  have hr : s.kept q r.2.2 := by
    unfold r
    split
    · exact h.authReq
    · exact h
  split
  · exact hr.authStart
  · exact hr

theorem State.kept.dbgWrite {host : Bool} {a v : Word} (h : s.kept q t) : s.kept q (t.dbgWrite host a v).2.2 := by
  unfold State.dbgWrite
  split
  · exact h.dbgDeny
  · extract_lets u plain
    have hp : s.kept q plain.2.2 := .busWrite h
    clear_value plain
    split
    · split
      · exact h.dbgCtrl
      · exact .safegrpWrite h
      · exact h.dbgAuth
      · exact .setReg h
      · exact hp
    · split
      · exact h
      · exact hp

theorem State.kept.dbgRead {consume : Bool} {a : Word} (h : s.kept q t) : s.kept q (t.dbgRead consume a).2.2 := by
  unfold State.dbgRead
  extract_lets idStat
  split
  · exact h.dbgDeny
  · split
    · exact h
    · split
      next e => exact .of_snd e (.busRead h)
      next e => exact .of_snd e (.busRead h)
      next e => exact .of_snd e (.busRead h)

theorem State.kept.dbgLoad {consume : Bool} {a : DbgLoc} (h : s.kept q t) : s.kept q (t.dbgLoad consume a).2.2 := by
  unfold State.dbgLoad
  split
  · exact h.dbgRead
  · split
    · split
      · exact .ite (.modPair h) h
      · exact h.dbgDeny
    · exact h.dbgDeny

theorem State.kept.dbgStore {host : Bool} {a : DbgLoc} {v : Word} (h : s.kept q t) : s.kept q (t.dbgStore host a v).2.2 := by
  unfold State.dbgStore
  split
  · exact h.dbgWrite
  · split
    · split
      · exact .dbgPoke h
      · exact h.dbgDeny
    · exact h.dbgDeny

theorem State.kept.dbgPort {host attach : Bool} {body : State → DbgR} (h : s.kept q t) (hbody : ∀ u, s.kept q u → s.kept q (body u).2.2) :
    s.kept q (t.dbgPort host attach body).2.2 := by
  unfold State.dbgPort
  extract_lets mine
  split
  · exact hbody _ h
  · split
    · exact hbody _ (.beside h rfl)
    · exact .dbgErr h

theorem State.keptOut.dbgCmd {v : DbgVia} {op : Nat} {a d : Word} {body : Bool → State → DbgR} (h : s.kept q t)
    (hbody : ∀ b u, s.kept q u → s.kept q (body b u).2.2) : s.keptOut q (dbgCmd v op a d body t) := by
  unfold Machine.dbgCmd
  extract_lets attach
  split
  · refine .ite (.next h) ?_
    have hr := h.dbgPort (host := false) (attach := attach) (hbody false)
    exact .next (.beside hr rfl)
  · refine .hpCmd h fun _ _ hu => .ite (.hpRespond hu) (.ite (.hpRespond hu) ?_)
    have hr := hu.dbgPort (host := true) (attach := attach) (hbody true)
    exact .hpRespond hr

theorem State.keptOut.dbgRegCmd {v : DbgVia} {rn : RegName} {d : Word} (h : s.kept q t) : s.keptOut q (dbgRegCmd v rn d t) := by
  unfold Machine.dbgRegCmd
  exact .dbgCmd h fun _ _ hu => hu.dbgWrite

theorem State.keptOut.execDebugRead {v : DbgVia} {a : DbgLoc} (h : s.kept q t) : s.keptOut q (execDebugRead v a t) :=
  .dbgCmd h fun _ _ hu => hu.dbgLoad

theorem State.keptOut.execDebugWrite {v : DbgVia} {a : DbgLoc} {d : Word} (h : s.kept q t) : s.keptOut q (execDebugWrite v a d t) :=
  .dbgCmd h fun _ _ hu => hu.dbgStore

theorem State.keptOut.execDebugConsumeRead {v : DbgVia} {a : DbgLoc} (h : s.kept q t) : s.keptOut q (execDebugConsumeRead v a t) :=
  .dbgCmd h fun _ _ hu => hu.dbgLoad

theorem State.keptOut.execDbgAttach {v : DbgVia} {st : Fin 4} (h : s.kept q t) : s.keptOut q (execDbgAttach v st t) := .dbgRegCmd h

theorem State.keptOut.execDbgDetach {v : DbgVia} (h : s.kept q t) : s.keptOut q (execDbgDetach v t) := .dbgRegCmd h

theorem State.keptOut.execDbgHalt {v : DbgVia} {p : Pair} (h : s.kept q t) : s.keptOut q (execDbgHalt v p t) := .dbgRegCmd h

theorem State.keptOut.execDbgResume {v : DbgVia} {halt : BitVec 4} (h : s.kept q t) : s.keptOut q (execDbgResume v halt t) := .dbgRegCmd h

theorem State.keptOut.execDbgStep {v : DbgVia} {p : Pair} (h : s.kept q t) : s.keptOut q (execDbgStep v p t) := .dbgRegCmd h

theorem State.keptOut.execAuthRequest {v : DbgVia} (h : s.kept q t) : s.keptOut q (execAuthRequest v t) := .dbgRegCmd h

theorem State.keptOut.execAuthGo {v : DbgVia} (h : s.kept q t) : s.keptOut q (execAuthGo v t) := .dbgRegCmd h

theorem State.keptOut.execDbgSafegrpWrite {v : DbgVia} {d : Word} (h : s.kept q t) : s.keptOut q (execDbgSafegrpWrite v d t) :=
  .dbgRegCmd h

theorem State.keptOut.execHaltTaken {p : Pair} (h : s.kept q t) : s.keptOut q (execHaltTaken p t) := by
  unfold Machine.execHaltTaken
  refine .ite ?_ ?_
  · exact .next h
  · split
    · exact .next (.emit (.takeLate h))
    · exact .next (.emit (.takeFp h))
    · exact .next (.emit (.takeRecall h))
    · exact .next (.takeHalt h)
    · exact .next (.sched h)
    · exact .next (.ite (.sched h) h)

theorem State.keptOut.execEthRxcChange {port : Fin 2} {on : Bool} (h : s.kept q t) : s.keptOut q (execEthRxcChange port on t) :=
  .next (.beside h rfl)

theorem State.kept.timestamp {n : Fin 2} {egress : Bool} {k : EthKind} {seqId : BitVec 16} {corr : Int} (h : s.kept q t) :
    s.kept q (t.timestamp n egress k seqId corr) := by
  unfold State.timestamp
  split
  · exact .ite (.bump h) (.beside h rfl)
  · exact h

theorem State.keptOut.execEthFrameRx {port : Fin 2} {kind : EthKind} {seqId : BitVec 16} {corr : Int} (h : s.kept q t) :
    s.keptOut q (execEthFrameRx port kind seqId corr t) := .next (.ite h (.ite (.bump h) (.timestamp h)))

theorem State.keptOut.execEthFrameTx {port : Fin 2} {kind : EthKind} {seqId : BitVec 16} {corr : Int} (h : s.kept q t) :
    s.keptOut q (execEthFrameTx port kind seqId corr t) := .next (.ite (.timestamp h) h)

theorem State.keptOut.execEthTsfifoRead {r : Req} {port : Fin 2} {peek : Bool} (h : s.kept q t) :
    s.keptOut q (execEthTsfifoRead r port peek t) := .regCmd h (fun _ hu => (.answer (.tsRead hu)))

theorem State.kept.modStation {k : Station} {f : ScStation → ScStation} (h : s.kept q t) : s.kept q (t.modStation k f) := .beside h rfl

theorem State.kept.scSend {kind st flags : Nat} {d : List Byte} (h : s.kept q t) : s.kept q (t.scSend kind st flags d) :=
  .foldl (fun _ _ hu => (.ite (.beside hu rfl) hu)) h

theorem State.keptOut.execStationCycleBoundary (h : s.kept q t) : s.keptOut q (execStationCycleBoundary t) :=
  .ite (.next h) (.next (.sched (.evcRaise (.ite (.scSend (.beside h rfl)) (.beside h rfl)))))

theorem State.keptOut.execStationInputFrame {port : Fin 2} {k : Station} {gen : BitVec 16} {cycle : Word} {f : InFrame} (h : s.kept q t) :
    s.keptOut q (execStationInputFrame port k gen cycle f t) := .ite (.next h) (.ite (.next (.ite (.beside h rfl) h)) (.next (.ite
      (.evcRaise (.setFld (.setFld (.modStation (.ite (.beside h rfl) h))))) (.modStation (.ite (.beside h rfl) h)))))

theorem State.kept.inputOf {k : Station} (h : s.kept q t) : s.kept q (t.inputOf k) := by
  unfold State.inputOf
  extract_lets +onlyGivenNames x
  split
  · exact .setFld (.modStation h)
  · exact .ite (.evcRaise (.setFld (.bump (.setFld (.modStation h))))) (.bump (.setFld (.modStation h)))

theorem State.keptOut.execStationInputRead (h : s.kept q t) : s.keptOut q (execStationInputRead t) :=
  .ite (.next h) (.next (.evcRaise (.foldl (fun _ _ hu => (.inputOf hu)) (.beside h rfl))))

theorem State.keptOut.execStationOutputWrite (h : s.kept q t) : s.keptOut q (execStationOutputWrite t) :=
  .ite (.next (.unsched h)) (.next (.foldl (fun _ _ hu => (.scSend hu)) (.unsched h)))

theorem State.kept.withIx {x : IxSt} (h : s.kept q t) : s.kept q { t with ix := x } := .beside h rfl

theorem State.keptOut.execSramScrubBeat {b : Bank} (h : s.kept q t) : s.keptOut q (execSramScrubBeat b t) := by
  unfold Machine.execSramScrubBeat
  refine .ite (.next h) ?_
  extract_lets +onlyGivenNames k u last
  have hu : s.kept q u := .eccRead h
  clear_value u last
  extract_lets +onlyGivenNames part v
  have hv : s.kept q v := .withIx hu
  exact .next (.ite (.count hv) hv)

theorem State.keptOut.execTcmScrubWord {p : Pair} (h : s.kept q t) : s.keptOut q (execTcmScrubWord p t) := by
  unfold Machine.execTcmScrubWord
  refine .ite (.next h) ?_
  extract_lets +onlyGivenNames k u last
  have hu : s.kept q u := .eccRead h
  clear_value u last
  extract_lets +onlyGivenNames part v
  have hv : s.kept q v := .withIx hu
  exact .next (.ite (.count hv) hv)

theorem State.kept.trimCheck {n : CmpId} {drift : Int} (h : s.kept q t) : s.kept q (t.trimCheck n drift) :=
  .ite h (.ite (.checkStart (.ite (.count (.beside h rfl)) (.beside h rfl))) (.ite (.count (.beside h rfl)) (.beside h rfl)))

theorem State.keptOut.execDacTrimCheck {n : CmpId} {drift : Int} (h : s.kept q t) : s.keptOut q (execDacTrimCheck n drift t) :=
  .next (.trimCheck h)

theorem State.kept.tempLimits {x : Word} (h : s.kept q t) : s.kept q (t.tempLimits x) :=
  .ite h (.ite (.evcRaise (.ite (.evcRaise h) h)) (.ite (.evcRaise h) h))

theorem State.kept.telPush {ty idx : BitVec 8} {v : Word} (h : s.kept q t) : s.kept q (t.telPush ty idx v) :=
  .ite h (.qPushAll (.count h))

theorem State.kept.telRecord {ty idx : BitVec 8} {value : Word} (h : s.kept q t) : s.kept q (t.telRecord ty idx value) :=
  .ite h (.ite (.tempLimits (.telPush h)) (.telPush h))

theorem State.keptOut.execTelemetryRecord {ty idx : BitVec 8} {value : Word} (h : s.kept q t) :
    s.keptOut q (execTelemetryRecord ty idx value t) := .next (.telRecord h)

theorem State.kept.gateEnd {f : List Nat} (h : s.kept q t) : s.kept q (t.gateEnd f) :=
  .ite h (.ite (.evcRaise (.setReg (.beside h rfl))) (.setReg (.beside h rfl)))

theorem State.keptOut.execLifeGate {since now : List Nat} (h : s.kept q t) : s.keptOut q (execLifeGate since now t) := .next (.gateEnd h)

theorem State.kept.marginTick (h : s.kept q t) : s.kept q t.marginTick := .ite (.foldl (fun _ _ hu => (.marginLine (.draw hu))) h) h

theorem State.kept.trimTick (h : s.kept q t) : s.kept q t.trimTick := .ite (.trimCheck (.draw h)) h

theorem State.kept.telTick (h : s.kept q t) : s.kept q t.telTick := .ite (.foldl (fun _ _ hu => (.telRecord (.draw hu))) h) h

theorem State.kept.gateTick (h : s.kept q t) : s.kept q t.gateTick := .ite (.gateEnd (.draw h)) h

theorem State.kept.bgTick (h : s.kept q t) : s.kept q t.bgTick := .gateTick (.telTick (.trimTick (.marginTick h)))

theorem State.kept.bankServe {b : Bank} (h : s.kept q t) : s.kept q (t.bankServe b) := by
  unfold State.bankServe
  split
  · exact h
  · exact .beside h rfl

theorem State.kept.bankStall {p : Pair} (h : s.kept q t) : s.kept q (t.bankStall p) := .ite (.beside h rfl) (.ite (.modPair h) h)

theorem State.kept.starved {m : Fin 13} (h : s.kept q t) : s.kept q (t.starved m) := .evcRaise (.bump h)

theorem State.keptOut.execStarveLimit {m : Fin 13} (h : s.kept q t) : s.keptOut q (execStarveLimit m t) := .next (.ite (.starved h) h)

theorem State.kept.bankWaits {b : Bank} (h : s.kept q t) : s.kept q (t.bankWaits b) := by
  unfold State.bankWaits
  extract_lets +onlyGivenNames late
  extract_lets +onlyGivenNames u
  have hu : s.kept q u := .foldl (fun _ _ hv => (.ite (.starved hv) hv)) h
  clear_value u
  extract_lets +onlyGivenNames v
  have hv : s.kept q v := .foldl (fun _ _ hw => (.ite (.bankStall hw) hw)) hu
  clear_value v
  exact .beside hv rfl

theorem State.kept.bankCycle {b : Bank} (h : s.kept q t) : s.kept q (t.bankCycle b) :=
  .bankWaits (.ite (.beside h rfl) (.ite h (.bankServe h)))

theorem State.keptOut.execReservationWindow (h : s.kept q t) : s.keptOut q (execReservationWindow t) :=
  .ite (.next h) (.next (.sched (.foldl (fun _ _ hu => (.setReg hu)) (.beside h rfl))))
end
end Sys2Proof.Machine
end

