-- ==== Sys2Proof/Proofs/KeptInstructions.lean ====
section
/-! PROOF. What branches, floating point, loads and stores keep. -/

namespace Sys2Proof.Machine

section
variable {q : Bool} {s t : State}

theorem State.kept.noSlot {p : Pair} {i : Instr} {body : State → State} (h : s.kept q t) (hbody : ∀ u, s.kept q u → s.kept q (body u)) :
    s.kept q (t.noSlot p i body) := .ite (.illegal h) (hbody _ h)

theorem State.keptOut.execBcc {p : Pair} {an : Bool} {cond : Fin 16} {disp : BitVec 21} (h : s.kept q t) :
    s.keptOut q (execBcc p an cond disp t) := .issue h (fun _ hu => (.ite (.illegal hu) (.noSlot hu (fun _ hv => (.compared hv (fun _ hw
      => (.modPair hw)))))))

theorem State.keptOut.execJmp {p : Pair} {disp : BitVec 26} (h : s.kept q t) : s.keptOut q (execJmp p disp t) :=
  .issue h (fun _ hu => (.noSlot hu (fun _ hv => (.modPair hv))))

theorem State.keptOut.execCall {p : Pair} {disp : BitVec 26} (h : s.kept q t) : s.keptOut q (execCall p disp t) :=
  .issue h (fun _ hu => (.noSlot hu (fun _ hv => (.modPair (.both hv)))))

theorem State.keptOut.execJr {p : Pair} {a : Greg} (h : s.kept q t) : s.keptOut q (execJr p a t) :=
  .issue h (fun _ hu => (.noSlot hu (fun _ hv => (.compared hv (fun _ hw => (.modPair hw))))))

theorem State.keptOut.execCallr {p : Pair} {a : Greg} (h : s.kept q t) : s.keptOut q (execCallr p a t) :=
  .issue h (fun _ hu => (.noSlot hu (fun _ hv => (.compared hv (fun _ hw => (.modPair (.both hw)))))))

theorem State.keptOut.execRet {p : Pair} (h : s.kept q t) : s.keptOut q (execRet p t) :=
  .issue h (fun _ hu => (.noSlot hu (fun _ hv => (.compared hv (fun _ hw => (.modPair hw))))))

theorem State.keptOut.execTrap {p : Pair} {imm : BitVec 16} (h : s.kept q t) : s.keptOut q (execTrap p imm t) :=
  .issue h (fun _ hu => (.noSlot hu (fun _ hv => (.ite (.privileged hv) (.enter hv)))))

theorem State.keptOut.execEret {p : Pair} (h : s.kept q t) : s.keptOut q (execEret p t) :=
  .issue h (fun _ hu => (.noSlot hu (fun _ hv => (.privAs hv (fun _ _ hw => (.ite (.privileged hw) (.compared hw (fun _ hx => (.ite
    (.preciseFault (.eccRead (.eccRead hx))) (.privAs (.eccRead (.eccRead hx)) (fun _ _ hy => (.ite (.privileged hy) (.modPair
    (.switchTid (.both (.setFld hy))))))))))))))))

theorem State.keptOut.execPflush {p : Pair} (h : s.kept q t) : s.keptOut q (execPflush p t) :=
  .issue h (fun _ hu => (.retire (.modPair hu)))

theorem State.keptOut.execIcinv {p : Pair} (h : s.kept q t) : s.keptOut q (execIcinv p t) :=
  .issue h (fun _ hu => (.compared hu (fun _ hv => (.ite (.privileged hv) (.retire (.modPair hv))))))

theorem State.keptOut.execFsync {p : Pair} (h : s.kept q t) : s.keptOut q (execFsync p t) := by
  unfold Machine.execFsync
  refine .issue h (fun _ hu => ?_)
  split
  · exact .takeFp hu
  · exact .retire hu

theorem State.keptOut.execWait {p : Pair} (h : s.kept q t) : s.keptOut q (execWait p t) :=
  .issue h (fun _ hu => (.privAs hu (fun _ _ hv => (.ite (.privileged hv) (.modPair (.retire hv))))))

theorem State.keptOut.execPbar {p : Pair} {imm : BitVec 16} (h : s.kept q t) : s.keptOut q (execPbar p imm t) :=
  .issue h (fun _ hu => (.retire (.modPair hu)))

theorem State.keptOut.execIllegalInstruction {p : Pair} {w : Word} (h : s.kept q t) : s.keptOut q (execIllegalInstruction p w t) :=
  .issue h (fun _ hu => (.ite (.illegal hu) hu))

theorem State.kept.fpRaise {p : Pair} {fl : Copy → FFlags} {lat : Nat} (h : s.kept q t) : s.kept q (t.fpRaise p fl lat) :=
  .ite h (.sched (.modPair h))

theorem State.keptOut.fpOp {p : Pair} {d : Freg} {lat : Nat} {f : Copy → FRes} (h : s.kept q t) : s.keptOut q (fpOp p d lat f t) :=
  .issue h (fun _ hu => (.compute (.fpRaise hu)))

theorem State.keptOut.execFadd {p : Pair} {dbl : Bool} {d a b : Freg} (h : s.kept q t) : s.keptOut q (execFadd p dbl d a b t) := .fpOp h

theorem State.keptOut.execFsub {p : Pair} {dbl : Bool} {d a b : Freg} (h : s.kept q t) : s.keptOut q (execFsub p dbl d a b t) := .fpOp h

theorem State.keptOut.execFmul {p : Pair} {dbl : Bool} {d a b : Freg} (h : s.kept q t) : s.keptOut q (execFmul p dbl d a b t) := .fpOp h

theorem State.keptOut.execFdiv {p : Pair} {dbl : Bool} {d a b : Freg} (h : s.kept q t) : s.keptOut q (execFdiv p dbl d a b t) := .fpOp h

theorem State.keptOut.execFsqrt {p : Pair} {dbl : Bool} {d a : Freg} (h : s.kept q t) : s.keptOut q (execFsqrt p dbl d a t) := .fpOp h

theorem State.keptOut.execFmin {p : Pair} {dbl : Bool} {d a b : Freg} (h : s.kept q t) : s.keptOut q (execFmin p dbl d a b t) := .fpOp h

theorem State.keptOut.execFmax {p : Pair} {dbl : Bool} {d a b : Freg} (h : s.kept q t) : s.keptOut q (execFmax p dbl d a b t) := .fpOp h

theorem State.keptOut.execFabs {p : Pair} {dbl : Bool} {d a : Freg} (h : s.kept q t) : s.keptOut q (execFabs p dbl d a t) := .fpOp h

theorem State.keptOut.execFneg {p : Pair} {dbl : Bool} {d a : Freg} (h : s.kept q t) : s.keptOut q (execFneg p dbl d a t) := .fpOp h

theorem State.keptOut.execFmov {p : Pair} {dbl : Bool} {d a : Freg} (h : s.kept q t) : s.keptOut q (execFmov p dbl d a t) := .fpOp h

theorem State.keptOut.execFcmp {p : Pair} {dbl : Bool} {a b : Freg} (h : s.kept q t) : s.keptOut q (execFcmp p dbl a b t) :=
  .issue h (fun _ hu => (.compute (.fpRaise hu)))

theorem State.keptOut.execFcvt {p : Pair} {dbl : Bool} {kind : FcvtKind} {d a : Freg} (h : s.kept q t) :
    s.keptOut q (execFcvt p dbl kind d a t) := .fpOp h

theorem State.keptOut.execFmvgf {p : Pair} {d : Freg} {a : Greg} (h : s.kept q t) : s.keptOut q (execFmvgf p d a t) :=
  .issue h (fun _ hu => (.compute hu))

theorem State.keptOut.execFmvfg {p : Pair} {d : Greg} {a : Freg} (h : s.kept q t) : s.keptOut q (execFmvfg p d a t) :=
  .issue h (fun _ hu => (.compute hu))

theorem State.keptOut.execFpExceptionPend {p : Pair} (h : s.kept q t) : s.keptOut q (execFpExceptionPend p t) := by
  unfold Machine.execFpExceptionPend
  split
  · exact .next (.unsched (.modPair h))
  · exact .next h

theorem State.kept.judged {p : Pair} {a c : Acs} {body : State → State} (h : s.kept q t) (hbody : ∀ u, s.kept q u → s.kept q (body u)) :
    s.kept q (t.judged p a c body) := .ite (.compared h (fun _ hu => (.preciseFault hu))) (.compared h (fun _ hu => (.ite (hbody _ (.ite
      hu (.access hu))) (.preciseFault (.violation hu)))))

theorem State.kept.land {p : Pair} {a : Acs} {l : Stall} (h : s.kept q t) : s.kept q (t.land p a l) :=
  .ite (.retire (.modPair h)) (.draw (.sched (.modPair h)))

theorem State.kept.loadAt {p : Pair} {a c : Acs} {d : LoadDest} {ext : Nat → BitVec 64} {post : Option (Greg × Word × Word)} {link : Bool}
    (h : s.kept q t) : s.kept q (t.loadAt p a c d ext post link) := by
  unfold State.loadAt
  refine .judged h (fun _ hu => ?_)
  extract_lets +onlyGivenNames at_
  extract_lets +onlyGivenNames give
  have hgive : ∀ u x0, s.kept q u → s.kept q (give u x0) := by
    intro u x0 hv
    refine .land (.ite ?_ hv)
    split
    · exact .modPair hv
    · exact hv
  clear_value give
  split
  next e => exact hgive _ _ (.ite (.beside (.of_snd e (.busRead hu)) rfl) (.of_snd e (.busRead hu)))
  next e => exact hgive _ _ (.of_snd e (.busRead hu))
  next e => exact .preciseFault (.of_snd e (.busRead hu))

theorem State.kept.storeAt {p : Pair} {a c : Acs} {v w : Nat} {after : PairSt → PairSt} (h : s.kept q t) :
    s.kept q (t.storeAt p a c v w after) := .ite h (.judged h (fun _ hu => (.compared hu (fun _ hv => (.retire (.modPair (.busWrite
      hv)))))))

theorem State.keptOut.loadDisp {p : Pair} {d a : Greg} {imm : BitVec 16} {sz : Fin 8} (h : s.kept q t) :
    s.keptOut q (loadDisp p d a imm sz t) := .issue h (fun _ hu => (.loadAt hu))

theorem State.keptOut.storeDisp {p : Pair} {d a : Greg} {imm : BitVec 16} {sz : Fin 8} (h : s.kept q t) :
    s.keptOut q (storeDisp p d a imm sz t) := .issue h (fun _ hu => (.storeAt hu))

theorem State.keptOut.execLdb {p : Pair} {d a : Greg} {imm : BitVec 16} (h : s.kept q t) : s.keptOut q (execLdb p d a imm t) :=
  .loadDisp h

theorem State.keptOut.execLdbu {p : Pair} {d a : Greg} {imm : BitVec 16} (h : s.kept q t) : s.keptOut q (execLdbu p d a imm t) :=
  .loadDisp h

theorem State.keptOut.execLdh {p : Pair} {d a : Greg} {imm : BitVec 16} (h : s.kept q t) : s.keptOut q (execLdh p d a imm t) :=
  .loadDisp h

theorem State.keptOut.execLdhu {p : Pair} {d a : Greg} {imm : BitVec 16} (h : s.kept q t) : s.keptOut q (execLdhu p d a imm t) :=
  .loadDisp h

theorem State.keptOut.execLdw {p : Pair} {d a : Greg} {imm : BitVec 16} (h : s.kept q t) : s.keptOut q (execLdw p d a imm t) :=
  .loadDisp h

theorem State.keptOut.execStb {p : Pair} {d a : Greg} {imm : BitVec 16} (h : s.kept q t) : s.keptOut q (execStb p d a imm t) :=
  .storeDisp h

theorem State.keptOut.execSth {p : Pair} {d a : Greg} {imm : BitVec 16} (h : s.kept q t) : s.keptOut q (execSth p d a imm t) :=
  .storeDisp h

theorem State.keptOut.execStw {p : Pair} {d a : Greg} {imm : BitVec 16} (h : s.kept q t) : s.keptOut q (execStw p d a imm t) :=
  .storeDisp h

theorem State.keptOut.execLds {p : Pair} {d : Greg} {bk : Fin 4} {sz : Fin 8} {off : BitVec 16} (h : s.kept q t) :
    s.keptOut q (execLds p d bk sz off t) := .issue h (fun _ hu => (.ite (.illegal hu) (.loadAt hu)))

theorem State.keptOut.execSts {p : Pair} {d : Greg} {bk : Fin 4} {sz : Fin 8} {off : BitVec 16} (h : s.kept q t) :
    s.keptOut q (execSts p d bk sz off t) := .issue h (fun _ hu => (.ite (.illegal hu) (.storeAt hu)))

theorem State.keptOut.execLdp {p : Pair} {d a : Greg} {mode n : Fin 4} {sz : Fin 8} {step : BitVec 9} (h : s.kept q t) :
    s.keptOut q (execLdp p d a mode n sz step t) := .issue h (fun _ hu => (.ite (.illegal hu) (.loadAt hu)))

theorem State.keptOut.execStp {p : Pair} {d a : Greg} {mode n : Fin 4} {sz : Fin 8} {step : BitVec 9} (h : s.kept q t) :
    s.keptOut q (execStp p d a mode n sz step t) := .issue h (fun _ hu => (.ite (.illegal hu) (.storeAt hu)))

theorem State.keptOut.execLdl {p : Pair} {d a : Greg} (h : s.kept q t) : s.keptOut q (execLdl p d a t) :=
  .issue h (fun _ hu => (.loadAt hu))

theorem State.kept.stcStore {p : Pair} {ac : Acs} {d : Greg} {v : Word} (h : s.kept q t) : s.kept q (t.stcStore p ac d v) :=
  .ite (.preciseFault (.busWrite h)) (.modPair (.land (.busWrite h)))

theorem State.keptOut.execStc {p : Pair} {d a b : Greg} (h : s.kept q t) : s.keptOut q (execStc p d a b t) :=
  .issue h (fun _ hu => (.judged hu (fun _ hv => (.ite (.compared (.clearResv hv) (fun _ hw => (.stcStore hw))) (.land (.clearResv
    hv))))))

theorem State.keptOut.execFlds {p : Pair} {d : Freg} {a : Greg} {imm : BitVec 16} (h : s.kept q t) :
    s.keptOut q (execFlds p d a imm t) := .issue h (fun _ hu => (.loadAt hu))

theorem State.keptOut.execFldd {p : Pair} {d : Freg} {a : Greg} {imm : BitVec 16} (h : s.kept q t) :
    s.keptOut q (execFldd p d a imm t) := .issue h (fun _ hu => (.loadAt hu))

theorem State.keptOut.execFsts {p : Pair} {d : Freg} {a : Greg} {imm : BitVec 16} (h : s.kept q t) :
    s.keptOut q (execFsts p d a imm t) := .issue h (fun _ hu => (.storeAt hu))

theorem State.keptOut.execFstd {p : Pair} {d : Freg} {a : Greg} {imm : BitVec 16} (h : s.kept q t) :
    s.keptOut q (execFstd p d a imm t) := .issue h (fun _ hu => (.storeAt hu))

theorem State.keptOut.execLoadDataReturn {p : Pair} (h : s.kept q t) : s.keptOut q (execLoadDataReturn p t) := by
  unfold Machine.execLoadDataReturn
  split
  · exact .ite (.next (.ite (.emit (.retire (.modPair (.unsched h)))) (.retire (.modPair (.unsched h))))) (.next h)
  · exact .next h

theorem State.keptOut.execFetchFault {p : Pair} {a : Word} (h : s.kept q t) : s.keptOut q (execFetchFault p a t) :=
  .issue h (fun _ hu => (.ite hu (.ite (.preciseFault (.violation hu)) (.ite hu (.preciseFault hu)))))

theorem State.kept.refillRead {p : Pair} {line : Nat} (h : s.kept q t) : s.kept q (t.refillRead p line).2 :=
  .iteSnd (.flStreamed (.busRead h)) (.busRead h)

theorem State.kept.icLookup {p : Pair} {line : Nat} (h : s.kept q t) : s.kept q (t.icLookup p line).2 := by
  unfold State.icLookup
  extract_lets +onlyGivenNames is
  split
  · exact .pair h
  · exact .iteSnd (.pair (.bump (.modPair h))) (.iteSnd (.pair (.modPair h)) (.pair h))

theorem State.keptOut.execIcacheRefill {p : Pair} {a : Word} (h : s.kept q t) : s.keptOut q (execIcacheRefill p a t) := by
  unfold Machine.execIcacheRefill
  refine .issue h (fun _ hu => ?_)
  extract_lets +onlyGivenNames at_
  extract_lets +onlyGivenNames line
  refine .ite ?_ ?_
  · exact hu
  · extract_lets +onlyGivenNames v
    have hv : s.kept q v.2 := .icLookup hu
    clear_value v
    refine .ite ?_ ?_
    · exact hv
    · extract_lets +onlyGivenNames due
      split
      · rename_i w e
        have hw : s.kept q w := .of_snd e (.refillRead hv)
        exact .preciseFault hw
      · rename_i w e
        have hw : s.kept q w := .of_snd e (.refillRead hv)
        exact .preciseFault hw
      · rename_i w e
        have hw : s.kept q w := .of_snd e (.refillRead hv)
        exact .draw (.modPair (.ite (.beside hw rfl) hw))
end
end Sys2Proof.Machine
end

