-- ==== Sys2Proof/Proofs/KeptSteps.lean ====
section
/-! PROOF. What every command and the passing of time keep. -/

namespace Sys2Proof.Machine

section
variable {q : Bool} {s t : State}

theorem State.keptOut.exec {i : Instr} (h : s.kept false t) : s.keptOut false (exec i t) := by
  unfold Machine.exec
  split
  · exact .execResetNAssert h
  · exact .execSupplyFall h
  · exact .execPowerGood h
  · exact .execClockLost h
  · exact .execFaultHoldExpiry h
  · exact .execSafeNFall h
  · exact .execSafeNTimeout h
  · exact .execSafeNRise h
  · exact .execSafeRequest h
  · exact .execHpStatus h
  · exact .execHpLoad h
  · exact .execHpAbort h
  · exact .execMsgPut h
  · exact .execMsgGet h
  · exact .execModeReady h
  · exact .execModeSafeHold h
  · exact .execModeMaintenance h
  · exact .execModeRetention h
  · exact .execRetentionEntry h
  · exact .execRetentionWake h
  · exact .execDebugRead h
  · exact .execDebugWrite h
  · exact .execDebugConsumeRead h
  · exact .execHpFrameCut h
  · exact .execHostLoadTimeout h
  · exact .execTwinLoadTimeout h
  · exact .execVerifyEnd h
  · exact .execTapBypass h
  · exact .execTapIdcode h
  · exact .execTapExtest h
  · exact .execTapSample h
  · exact .execTapPreload h
  · exact .execDbgAttach h
  · exact .execDbgDetach h
  · exact .execDbgHalt h
  · exact .execHaltTaken h
  · exact .execDbgResume h
  · exact .execDbgStep h
  · exact .execAuthRequest h
  · exact .execAuthGo h
  · exact .execAuthComplete h
  · exact .execDbgSafegrpWrite h
  · exact .execRunSolo h
  · exact .execPairActive h
  · exact .execPairStandby h
  · exact .execUnpair h
  · exact .execSwitchover h
  · exact .execPairingTimeout h
  · exact .execTwMark h
  · exact .execHeartbeat h
  · exact .execHeartbeatMissed h
  · exact .execPeerLost h
  · exact .execPair h
  · exact .execTwSyncArrival h
  · exact .execEpochCapture h
  · exact .execEpoch h
  · exact .execEpochApplyDone h
  · exact .execEpochAck h
  · exact .execSwitch h
  · exact .execFaultInRise h
  · exact .execOwnInRise h
  · exact .execDualOwn h
  · exact .execAgreementPoint h
  · exact .execAgreementForced h
  · exact .execLinkDown h
  · exact .execLinkUp h
  · exact .execBlank h
  · exact .execLoadOffer h
  · exact .execLoadReq h
  · exact .execLoadData h
  · exact .execLoadStatus h
  · exact .execEthFrameRx h
  · exact .execEthFrameTx h
  · exact .execEthTsfifoRead h
  · exact .execStationCycleBoundary h
  · exact .execStationInputRead h
  · exact .execStationOutputWrite h
  · exact .execStationInputFrame h
  · exact .execSramScrubBeat h
  · exact .execTcmScrubWord h
  · exact .execMarginScrubLine h
  · exact .execRefreshStep h
  · exact .execDacTrimCheck h
  · exact .execTelemetryRecord h
  · exact .execLifeGate h
  · exact .execReservationWindow h
  · exact .execStarveLimit h
  · exact .execFlKeyWrite h
  · exact .execFlashProgram h
  · exact .execFlashErase h
  · exact .execFlashCommandDone h
  · exact .execFlPlReq h
  · exact .execPlLowerDone h
  · exact .execFlWsWrite h
  · exact .execDmaStart h
  · exact .execDmaAbort h
  · exact .execDmaPeripheralRequest h
  · exact .execDmaBlockStart h
  · exact .execDmaBlockEnd h
  · exact .execQueuePush h
  · exact .execQueuePushEop h
  · exact .execQueuePop h
  · exact .execQueueFlush h
  · exact .execDropPkt h
  · exact .execPoolAlloc h
  · exact .execPoolFree h
  · exact .execPoolGive h
  · exact .execSemAcquire h
  · exact .execSemRelease h
  · exact .execSemForce h
  · exact .execEvcEvent h
  · exact .execEvcPendSet h
  · exact .execEvcPendClr h
  · exact .execEvcMaskSet h
  · exact .execEvcMaskClr h
  · exact .execEvcCmpl h
  · exact .execInterruptOffer h
  · exact .execStoreLate h
  · exact .execPtuRecall h
  · exact .execRecallTaken h
  · exact .execSweepSnapshot h
  · exact .execSignatureCompare h
  · exact .execLatmaxExpiry h
  · exact .execLoadDataReturn h
  · exact .execIcacheRefill h
  · exact .execFpExceptionPend h
  · exact .execAdd h
  · exact .execAdc h
  · exact .execSub h
  · exact .execSbc h
  · exact .execCmp h
  · exact .execAddi h
  · exact .execCmpi h
  · exact .execAnd h
  · exact .execOr h
  · exact .execXor h
  · exact .execAndn h
  · exact .execAndi h
  · exact .execOri h
  · exact .execXori h
  · exact .execLui h
  · exact .execShl h
  · exact .execShr h
  · exact .execSar h
  · exact .execRor h
  · exact .execShi h
  · exact .execMul h
  · exact .execMulu h
  · exact .execDiv h
  · exact .execDivu h
  · exact .execMfs h
  · exact .execMts h
  · exact .execLdb h
  · exact .execLdbu h
  · exact .execLdh h
  · exact .execLdhu h
  · exact .execLdw h
  · exact .execStb h
  · exact .execSth h
  · exact .execStw h
  · exact .execLds h
  · exact .execSts h
  · exact .execLdp h
  · exact .execStp h
  · exact .execLdl h
  · exact .execStc h
  · exact .execBcc h
  · exact .execJmp h
  · exact .execCall h
  · exact .execJr h
  · exact .execCallr h
  · exact .execRet h
  · exact .execTrap h
  · exact .execEret h
  · exact .execPflush h
  · exact .execIcinv h
  · exact .execFsync h
  · exact .execWait h
  · exact .execPbar h
  · exact .execFadd h
  · exact .execFsub h
  · exact .execFmul h
  · exact .execFdiv h
  · exact .execFsqrt h
  · exact .execFmin h
  · exact .execFmax h
  · exact .execFabs h
  · exact .execFneg h
  · exact .execFmov h
  · exact .execFcmp h
  · exact .execFcvt h
  · exact .execFmvgf h
  · exact .execFmvfg h
  · exact .execFlds h
  · exact .execFldd h
  · exact .execFsts h
  · exact .execFstd h
  · exact .execAdcTrigger h
  · exact .execAdcSwtrig h
  · exact .execAdcHold h
  · exact .execAdcConversionEnd h
  · exact .execAdcAbort h
  · exact .execAdcDisable h
  · exact .execAdcRefSelect h
  · exact .execRefSettled h
  · exact .execAdcSeqCfgWrite h
  · exact .execAdcEntryWrite h
  · exact .execRotationDue h
  · exact .execRotationSwap h
  · exact .execSpareRefConnect h
  · exact .execSpareCalComplete h
  · exact .execCoreAged h
  · exact .execComparatorCrossing h
  · exact .execCmpThrWrite h
  · exact .execCmpThrPort h
  · exact .execDacSettled h
  · exact .execCmpTick h
  · exact .execWindowGateChange h
  · exact .execCmpCheck h
  · exact .execCheckTakeover h
  · exact .execCheckResult h
  · exact .execCheckRelease h
  · exact .execCheckWaitingStart h
  · exact .execPwmPeriodStart h
  · exact .execPwmPeriodMiddle h
  · exact .execPwmCompareAction h
  · exact .execPwmTriggerCompare h
  · exact .execDeadTimeEnd h
  · exact .execTransitionComplete h
  · exact .execDtmaxExpiry h
  · exact .execPwmTrip h
  · exact .execTrippedClear h
  · exact .execPwmLoadall h
  · exact .execLoadallStrobe h
  · exact .execPwmStart h
  · exact .execPwmSync h
  · exact .execPeriodEnd h
  · exact .execPeriodMax h
  · exact .execPstart h
  · exact .execPhaseEvent h
  · exact .execComparePortWrite h
  · exact .execDelayLineDue h
  · exact .execDelayLineReplace h
  · exact .execDelayLineFail h
  · exact .execTimerZero h
  · exact .execTimerEnStart h
  · exact .execTimerEnStop h
  · exact .execTmStart h
  · exact .execTmStop h
  · exact .execTimerStartEvent h
  · exact .execTimerStopEvent h
  · exact .execTimerMatch h
  · exact .execTimerComparePort h
  · exact .execTimerCapture h
  · exact .execTodRollover h
  · exact .execTodAddendWrite h
  · exact .execTodPpsEdge h
  · exact .execPpsLost h
  · exact .execPpsOutFall h
  · exact .execTodNsRead h
  · exact .execTodCommitGo h
  · exact .execTodCommitCancel h
  · exact .execTodTimedCommit h
  · exact .execPosEnable h
  · exact .execPosDisable h
  · exact .execQuadEdge h
  · exact .execIndexEvent h
  · exact .execProbeEdge h
  · exact .execPosPreset h
  · exact .execPosDivnmWrite h
  · exact .execPosErrorClear h
  · exact .execSsiBusyWrite h
  · exact .execSsiRequestEvent h
  · exact .execSsiFrameEnd h
  · exact .execMonoflopEnd h
  · exact .execSincosSample h
  · exact .execSincosResult h
  · exact .execSpeedWindow h
  · exact .execSpeedResult h
  · exact .execCurrentSetFormed h
  · exact .execSetAccept h
  · exact .execCurrentLoopOutput h
  · exact .execVoltageSet h
  · exact .execVoltageLoopOutput h
  · exact .execFreqTrackerSet h
  · exact .execFreqTrackerOutput h
  · exact .execProfileTick h
  · exact .execProfileOutput h
  · exact .execObserverAngle h
  · exact .execObserverConfidence h
  · exact .execCoastEscalate h
  · exact .execSafereqClear h
  · exact .execGeneralStageGo h
  · exact .execGeneralBundle h
  · exact .execParamSwap h
  · exact .execLnSwapEvent h
  · exact .execTableCopyGo h
  · exact .execTableCopyDone h
  · exact .execSwEventRaise h
  · exact .execRouteEnableWrite h
  · exact .execPulseStretchEnd h
  · exact .execRegisterReadClear h
  · exact .execRegisterWrite h
  · exact .execIllegalInstruction h
  · exact .execFetchFault h
  · exact .execAdaptiveTurnOn h
  · exact .execEpochSent h
  · exact .execBlankFrameSend h
  · exact .execTwSyncReturn h
  · exact .execHpBadcmd h
  · exact .execEthRxcChange h

theorem State.kept.lcLate (h : s.kept q t) : s.kept q t.lcLate :=
  .beside (.foldl (fun _ _ hu => (.ite (.emit hu) hu)) (.rotLate (.foldl (fun _ _ hu => (.pwmLate hu)) h))) rfl

theorem State.kept.adcServes (h : s.kept q t) : s.kept q t.adcServes := .foldl (fun _ _ hu => (.adcServeAll hu)) h

theorem State.kept.lcEnd (h : s.kept q t) : s.kept q t.lcEnd := by
  unfold State.lcEnd
  exact .ite (.emit (.epochPeriod (.adcServes h))) (.epochPeriod (.adcServes h))

theorem State.kept.lcLast (h : s.kept q t) : s.kept q t.lcLast := .ite (.emit (.ite (.emit h) h)) (.ite (.emit h) h)

theorem State.kept.controlTick (h : s.kept q t) : s.kept q t.controlTick := by
  unfold State.controlTick
  extract_lets +onlyGivenNames u
  have hu : s.kept q u := .foldl (fun _ _ hu => (.dacTick hu)) h
  clear_value u
  extract_lets +onlyGivenNames v
  have hv : s.kept q v := .todTick (.matrixTick (.checkTick hu))
  clear_value v
  extract_lets +onlyGivenNames w
  have hw : s.kept q w := .foldl (fun _ _ hw => (.tmrTick hw)) hv
  clear_value w
  extract_lets +onlyGivenNames x
  have hx : s.kept q x := .foldl (fun _ _ hx => (.adcTick hx)) hw
  clear_value x
  extract_lets +onlyGivenNames y
  have hy : s.kept q y := .foldl (fun _ _ hy => (.cmpTickLc hy)) (.rotTick hx)
  clear_value y
  extract_lets +onlyGivenNames z
  have hz : s.kept q z := .foldl (fun _ _ hz => (.pwmTick hz)) hy
  clear_value z
  extract_lets +onlyGivenNames u1
  have hu1 : s.kept q u1 := .ite (.emit hz) hz
  clear_value u1
  extract_lets +onlyGivenNames v1
  have hv1 : s.kept q v1 := .foldl (fun _ _ hv1 => (.posTick hv1)) hu1
  clear_value v1
  exact .foldl (fun _ _ hw1 => (.leTick hw1)) hv1

theorem State.kept.sbufTick (h : s.kept q t) : s.kept q t.sbufTick := .foldl (fun _ _ hu => (.ite hu (.modPair hu))) h

theorem State.kept.scrubTick (h : s.kept q t) : s.kept q t.scrubTick :=
  .ite (.foldl (fun _ _ hu => (.emit hu)) (.ite (.foldl (fun _ _ hu => (.emit hu)) h) h)) (.ite (.foldl (fun _ _ hu => (.emit hu)) h) h)

theorem State.kept.bankTick (h : s.kept q t) : s.kept q t.bankTick := .ite (.foldl (fun _ _ hu => (.bankCycle hu)) h) h

theorem State.kept.newCycle (h : s.kept q t) : s.kept q t.newCycle := .beside h rfl

theorem State.kept.tick (h : s.kept false t) : s.kept false t.tick := by
  unfold State.tick
  extract_lets +onlyGivenNames u
  have hu : s.kept false u := .tmrLcEnd (.readyTake h)
  clear_value u
  extract_lets +onlyGivenNames v
  have hv : s.kept false v := .newCycle (.moved hu rfl)
  clear_value v
  refine .ite ?_ ?_
  · exact hv
  · extract_lets +onlyGivenNames w
    have hw : s.kept false w := .twMarks (.sampleSafeN hv)
    clear_value w
    extract_lets +onlyGivenNames x
    have hx : s.kept false x := .ite (.controlTick hw) hw
    clear_value x
    extract_lets +onlyGivenNames y
    have hy : s.kept false y := .ite (.sbufTick (.evcTick hx)) hx
    clear_value y
    extract_lets +onlyGivenNames z
    have hz : s.kept false z := .ite (.emit hy) hy
    clear_value z
    extract_lets +onlyGivenNames u1
    have hu1 : s.kept false u1 := .offerSend (.epochSend (.leaveDue hz))
    clear_value u1
    extract_lets +onlyGivenNames v1
    have hv1 : s.kept false v1 := .ite (.emit hu1) hu1
    clear_value v1
    exact .dmaTick (.bgTick (.scrubTick (.bankTick hv1)))

theorem State.kept.takeDue {k : Nat} (h : s.kept q t) : s.kept q (t.takeDue k) := .beside h rfl

theorem State.kept.idle (h : s.kept false t) : s.kept false t.idle := by
  unfold State.idle
  refine .ite ?_ ?_
  · exact .beside h rfl
  · refine .ite ?_ ?_
    · exact .tick h
    · refine .ite ?_ ?_
      · exact .takeDue h
      · refine .ite ?_ ?_
        · exact .beside h rfl
        · refine .ite ?_ ?_
          · exact .settle h
          · refine .ite ?_ ?_
            · exact .strobeAll h
            · exact .ite (.pwmFirstAll h) (.ite (.takeDue h) (.ite (.tmrZeroActsAll h) (.ite (.takeDue h) (.ite (.pwmEnds h) (.ite
                (.pwmWaits h) (.ite (.takeDue h) (.ite (.foldl (fun _ _ hu => (.winGate hu)) h) (.ite (.lcLate (.mark h)) (.ite (.lcEnd
                (.mark h)) (.ite (.adcServes h) (.ite (.lcLast (.mark h)) (.tick h))))))))))))

theorem State.keptOut.step (h : s.kept false t) : s.keptOut false (step t) := by
  unfold Machine.step
  split
  · exact .next (.idle h)
  · exact .exec (.beside h rfl)

theorem State.kept.withFetchWord {nbits w : Nat} (h : s.kept q t) : s.kept q (t.withFetchWord nbits w) := by
  unfold State.withFetchWord
  split
  · exact .beside h rfl
  · exact h
end
end Sys2Proof.Machine
end

