-- ==== Sys2Proof/Proofs/Canonical.lean ====
section
/-! PROOF. Every step keeps registers and memory in canonical form. -/

namespace Sys2Proof.Machine

/-- Settles O59: whatever the command in front does, and whatever the passing of time does, comes of operations that keep the form. -/
theorem stepKeepsCanonical : Obligations.StepKeepsCanonical := fun s t hs ht =>
  (State.keptOut.step (.refl (s := s)) t ht).canonical hs

end Sys2Proof.Machine
end
